-- ==== Sys2Proof/Word.lean ====
section
/-! DEFINITION. The word types of the device: register words are 32 bits, memory and packets are bytes. -/

namespace Sys2Proof

/-- A register word (R472). -/
abbrev Word := BitVec 32

/-- A byte of memory, of a packet or of a record. -/
abbrev Byte := BitVec 8

/-- The five processor cores (Table 1.2), the masters of register and memory accesses. -/
inductive Master where
  | sec | hc0 | hc1 | mc | sv
  deriving DecidableEq, Repr

/-- The number of a core in the GLB_AF encoding: 0 SEC, 1 HC0, 2 HC1, 3 MC, 4 SV. -/
def Master.idx : Master → Nat
  | .sec => 0
  | .hc0 => 1
  | .hc1 => 2
  | .mc => 3
  | .sv => 4

end Sys2Proof
end

