-- ==== Sys2Proof/Syntax.lean ====
section
/-! DEFINITION. The commands the device takes, one constructor for each row of the table of operations and events,
and the types of their operands. -/

namespace Sys2Proof

/-- Who asks the Store die controller: a core, a DMA channel, the recorder or the loader (R169, Table 6.2). -/
inductive Req where
  | core (m : Master)
  | dma (c : Nat)
  | recorder
  | loader
  deriving DecidableEq, Repr

/-- What the Power die measures when a retract starts (Table 10.9): spindle speed in rpm, VHOLD in mV, and the
milliseconds since hold-up entry. -/
structure RetractFacts where
  rpm : Nat
  vhold : Nat
  ms : Nat
  deriving DecidableEq, Repr

/-- The receiving die of a Finion frame. -/
inductive Die where
  | logic | power
  deriving DecidableEq, Repr


/-- What record 0x0201 carries beside the machine's own state: microseconds from the request or trigger, and PCM_RAILS.OK
(Table 6.5). -/
structure Trans where
  us : BitVec 32
  rails : BitVec 13
  deriving DecidableEq, Repr

/-- A stretch of clock-track cycles as the reference front end saw them (R28, R500): how many, and for each of them its
amplitude in ADC codes and its phase error in steps. -/
structure TrackRun where
  n : Nat
  amp : BitVec 8
  err : BitVec 16
  deriving DecidableEq, Repr

/-- The clock track as an event of the angle timebase finds it: the amplitude averaged over 256 cycles (AMP_NOW), and
the cycles since the event before, oldest first. -/
structure Track where
  amp : BitVec 8
  cycles : List TrackRun
  deriving DecidableEq, Repr

/-- A soft error that a lookup of the RME meets: the row and the kind, 1 false hit, 2 row parity, 4 shadow parity
(R328, R329), 5 a false miss of that row (R331). -/
structure RmeErr where
  idx : BitVec 11
  kind : BitVec 3
  deriving DecidableEq, Repr

/-- How a host read request ends (R340): with data, UR, CA, poison or the completion timeout. -/
inductive HostEnd where
  | ok | ur | ca | poison | timeout
  deriving DecidableEq, Repr

/-- A configuration request to a function, by what it reaches (R358, Table 15.1). -/
inductive CfgReq where
  /-- The Command register: Memory Space Enable and Bus Master Enable. -/
  | command (mem master : Bool)
  | bar0 (v : BitVec 64)
  /-- The power state: D3hot or D0. -/
  | power (d3 : Bool)
  /-- The Device Control register: Max_Payload_Size and Max_Read_Request_Size. -/
  | devCtl (mps mrrs : BitVec 3)
  /-- Initiate Function Level Reset. -/
  | flr
  /-- MSI-X Message Control: MSI-X Enable and Function Mask. -/
  | msixCtl (en mask : Bool)
  /-- A read of the Device ID and Vendor ID, of the class code, or of BAR0. -/
  | readId
  | readClass
  | readBar
  /-- A read of BAR2 to BAR5 and the Expansion ROM BAR, of the Interrupt Pin, or of the Device Serial Number. -/
  | readBars
  | readPin
  | readSerial
  deriving DecidableEq, Repr

/-- What the front end samples of a sector, bits counted from its first preamble bit (R270, R280): whether the servo gate opened
inside it, the runs of bits over which the mean |sample| over 8 bits takes a level (first bit, length, level; elsewhere it is
above every threshold), and the baseline jumps within 4 bits (the bit after the jump, its size in codes). -/
structure Samples where
  servoLap : Bool := false
  env : List (Nat × Nat × Nat) := []
  jumps : List (Nat × Nat) := []
  deriving DecidableEq, Repr

/-- What the channel finds in a sampled sector: the bit errors at each start position of the two sync windows (from the
earliest), whether every parity check is satisfied when decoding stops, the 4,132 information bytes it holds then, the
iterations and the unsatisfied checks (R268 to R271). -/
structure SectorFacts where
  psm : List Nat
  ssm : List Nat
  conv : Bool
  bytes : List (BitVec 8)
  iters : BitVec 6
  unsat : BitVec 16
  deriving DecidableEq, Repr

/-- What the servo capture units have captured so far in the field under the head (R212 to R215): the angle at which
the SAM ended, the track identifier's Gray code, wedge number and parity bits, the angles of the transitions of each burst
group, and whether a preamp fault line is low. -/
structure Captures where
  sam : Option (BitVec 64)
  tid : Option (BitVec 24 × BitVec 9 × BitVec 3)
  bursts : List (List (BitVec 64))
  paFault : Bool
  deriving DecidableEq, Repr

/-- The level of the shock inputs and of the preamp fault lines: one of them high, one of them low. -/
structure SrvLines where
  shock : Bool
  paFault : Bool
  deriving DecidableEq, Repr

/-- What SV is doing when POS is asserted (R220, R221): mstatus.MIE, mie, mtvec, whether an access outside its TCM and the SRV
block is outstanding, whether it executes an integer divide, the address of the instruction in progress and of the one
after it. -/
structure SvFacts where
  mie : Bool
  mieReg : Word
  mtvec : Word
  busy : Bool
  divide : Bool
  pc : Word
  next : Word
  deriving DecidableEq, Repr

/-- What goes into an upstream servo word beside the Power die's own state (R62, R250): whether it is a new status, the VCM
current sense, whether a fault of kind 1, 2, 4 or 7 that was raised persists, and the bits that the link flips. -/
structure Upstream where
  fresh : Bool
  vcm : BitVec 16
  persists : Bool
  flips : BitVec 56
  deriving DecidableEq, Repr

/-- What a core does at an address (Table 20.2). -/
inductive AccKind where
  | load | store | fetch
  deriving DecidableEq, Repr

/-- What the device measures or meets while an access is served: the figures of record 0x0201, the SVCK cycles of LAST
(R229), the sources that present an event to the recorder in this cycle (R154), the soft errors of a lookup (R328), the levels at the
GPIO balls (R67), the thresholds in mV of the Store die's cells, bit 0 of the first byte first (R178), the block of the Buffer die: 0
good, 1 corrected, 2 uncorrectable (R285), and the droop governor's latest sample with the lowest since it was last told
(R104). -/
structure BusFacts where
  t : Trans := { us := 0, rails := 0 }
  cycles : Nat := 0
  present : List (BitVec 8) := []
  errs : List RmeErr := []
  levels : BitVec 24 := 0
  cells : List Nat := []
  ecc : BitVec 2 := 0
  droop : Option (BitVec 8 × BitVec 8) := none
  deriving DecidableEq, Repr

/-- One doubleword of a host write: its byte enables and its data. -/
structure HostDw where
  be : BitVec 4
  data : Word
  deriving DecidableEq, Repr

/-- The commands of spec/opcode_table.json, one constructor for each row, in the table's order. The operands are
the facts that arrive with the event (DESIGN CHOICE, log entry 1). -/
inductive Instr where
  /-- A write to a register field that has no row of its own sets, clears or ignores the field according to its access code, clamp or master restriction. (R8) -/
  | registerWrite (m : Master) (a : Word) (v : Word) (f : BusFacts)
  /-- A read of an RC field returns its value and resets it to its Reset value in the same access. (R8) -/
  | rcRead (m : Master) (a : Word)
  /-- A read of a counter low word returns it and copies the high word into the reading master's shadow. (R9) -/
  | rlRead (m : Master) (a : Word)
  /-- A core load, store or fetch is checked against the address map and width rules, and is either performed or refused with an access fault captured in GLB_AF. (R473) -/
  | coreAccess (m : Master) (kind : AccKind) (a : Word) (width : Nat) (v : Word) (f : BusFacts)
  /-- A host memory request to BAR0 is served by doubleword, skipping partial-byte-enable writes, or answered as Unsupported Request. (R478) -/
  | hostBar0Request (q : BitVec 1) (write : Bool) (o : BitVec 14) (dws : List HostDw)
  /-- A rising edge of PWR_RSTN with VAON in range moves the device from OFF to THAW. (R99) -/
  | pwrRstnRise (vaon : Bool)
  /-- PWR_RSTN held low for at least 100 ns in THAW, FLOW, DRIFT or DORMANT is a RETREAT trigger. (R100) -/
  | pwrRstnFall (t : Trans)
  /-- VAON below 1.5 V or VCORE below 0.50 V puts the device in OFF, losing all state. (R502) -/
  | railCollapse (left : List (Nat × Byte))
  /-- VMOT below 10.2 V for 1 µs is reported by the Power die and triggers hold-up and RETREAT. (R98) -/
  | vmotLoss (t : Trans)
  /-- VIN5 below 4.5 V for 1 µs is reported by the Power die and triggers hold-up and RETREAT. (R98) -/
  | vin5Loss (t : Trans)
  /-- BAY_DETN high on two consecutive AONCK samples triggers RETREAT. (R101) -/
  | bayWithdrawal (t : Trans)
  /-- After RDONE with PWR_RSTN high, supplies in range and BAY_DETN low for an unbroken 100 ms, the device enters THAW. (R99) -/
  | retreatEnd (us : BitVec 32)
  /-- A PCM_CMD request for FLOW starts the channel domains and preamps, passing through DRIFT where needed. (R97) -/
  | modeReqFlow (m : Master) (t : Trans)
  /-- A PCM_CMD request for DRIFT ends THAW, leaves DORMANT or starts the FLOW-to-DRIFT quiesce. (R98) -/
  | modeReqDrift (m : Master) (t : Trans)
  /-- A PCM_CMD request for DORMANT starts the DMA quiesce, self-refresh and spin-down. (R98) -/
  | modeReqDormant (m : Master)
  /-- A firmware request for RETREAT from SEC or MC cancels any pending transition and triggers RETREAT. (R96) -/
  | modeReqRetreat (m : Master) (t : Trans)
  /-- A REBOOT request from SEC with the guarded dirty set empty closes gates and resets the Logic die into THAW, or is refused with DIRTY. (R96) -/
  | modeReqReboot (m : Master) (us : BitVec 32)
  /-- When media or DMA activity reaches idle, a pending FLOW-to-DRIFT or DRIFT-to-DORMANT transition gates its domains and completes. (R102) -/
  | quiesceDone (t : Trans)
  /-- When QTO expires before idle, the transition is abandoned with RESULT TIMEOUT, record 0x0202, and held descriptors restart. (R102) -/
  | quiesceTimeout
  /-- When the spindle reports AT_SPEED and the ATB is LOCKED, the DORMANT-to-DRIFT transition completes. (R98) -/
  | dormantExitDone (t : Trans)
  /-- A port with nothing queued, outstanding or bound requests L1. (R102) -/
  | aspmL1Entry (q : BitVec 1)
  /-- Two consecutive droop samples at or below SLOW halve every slowable domain and set SLOWED. (R90) -/
  | droopSlow (code : BitVec 8)
  /-- After the sample stays at or above REL for RELHOLD × 64 ns, slowable domains return to nominal. (R91) -/
  | droopRelease (code low : BitVec 8) (ns : BitVec 32)
  /-- DEEP_FILT consecutive samples at or below DEEP set DEEPHIT, write record 0x0601 and raise the RETREAT trigger. (R92) -/
  | deepDroop (code : BitVec 8) (ns : BitVec 32) (t : Trans)
  /-- At most once per second, if an episode occurred, the device writes record 0x0602 with accumulated droop figures. (R105) -/
  | droopSummary
  /-- A write of ATB_CTL stores its fields; EN written 0 stops the PLL and forces COAST. (R33) -/
  | atbCtlWrite (m : Master) (v : Word)
  /-- With EN = 1, 256 consecutive qualifying clock-track cycles move the ATB from COAST or HOLDOVER to ACQUIRE. (R500) -/
  | signalQualified
  /-- A run of 28 to 32 inverted clock-track cycles is recognised as the index when it ends, with its angle captured at its first edge. (R28) -/
  | indexMark (run : BitVec 8) (c : BitVec 64) (ticks : BitVec 32) (gap : BitVec 32) (speed : BitVec 18) (track : Track)
  /-- When the true angle reaches the held counter value, HOLD clears and the ATB enters LOCKED. (R34) -/
  | atbHoldEnd
  /-- ACQ_REVS revolutions in ACQUIRE without lock return the ATB to COAST with ACQFAIL and record 0x0312. (R36) -/
  | acquireTimeout (amp : BitVec 8) (cycles : List TrackRun)
  /-- Amplitude below AMP_MIN for 16 consecutive cycles in ACQUIRE abandons the attempt to COAST. (R33) -/
  | acquireSignalLost (amp : BitVec 8) (cycles : List TrackRun)
  /-- A loss condition in LOCKED moves the ATB to HOLDOVER, closes open write gates and stages record 0x0310. (R46) -/
  | lockLoss (cause : BitVec 8) (amp : BitVec 8) (cycles : List TrackRun)
  /-- A single missing index while LOCKED sets IDXMISS and increments IDXMISS_CNT. (R33) -/
  | indexMissed (amp : BitVec 8) (cycles : List TrackRun)
  /-- HOLD_REVS revolutions in HOLDOVER switch the counter to the COAST rate. (R33) -/
  | holdoverExpiry
  /-- An ARM command checks and stores a staged entry as ARMED, or refuses it with a result code. (R42) -/
  | ascArm (m : Master) (v : Word)
  /-- A CANCEL command retires an ARMED entry as CANCELLED or reports its state. (R44) -/
  | ascCancel (m : Master) (v : Word)
  /-- A READ command copies an entry into the issuing core's staging registers. (R49) -/
  | ascRead (m : Master) (v : Word)
  /-- FLUSH cancels every ARMED entry in the range the writing core may arm. (R44) -/
  | ascFlush (m : Master)
  /-- A write of HWORD hands ASC and MOP entries 0 to 127 to or from the orderer, or is ignored if media work is outstanding. (R400) -/
  | hwordWrite (m : Master) (v : Word)
  /-- Two ATBCK cycles before an armed entry's target, the ASC dispatches it to its domain with the remaining ticks. (R37) -/
  | ascDispatch (i : BitVec 8)
  /-- A SERVO_WIN event resumes a halted WSQ at RSM with its head argument, or is held pending or discarded. (R196) -/
  | servoWin (i : BitVec 8)
  /-- A DATA_WIN event starts the read operation of its MOP tag or ends it at once with a result. (R265) -/
  | dataWin (i : BitVec 8) (skew : BitVec 32)
  /-- A WRITE_GATE event starts the write operation of its MOP tag or ends it at once with a result. (R265) -/
  | writeGate (i : BitVec 8) (skew : BitVec 32)
  /-- A DB_POLL event requests one doorbell fetch for each party in its bitmap. (R368) -/
  | dbPoll (i : BitVec 8)
  /-- A PREFETCH_REL event releases whatever read-ahead its Cornice slot holds. (R306) -/
  | prefetchRel (i : BitVec 8)
  /-- A MOR_SEAL event makes the recorder enqueue a seal for a non-empty batch. (R150) -/
  | morSeal (i : BitVec 8)
  /-- A CORE_IRQ event sets the named interrupt line of the named core. (R39) -/
  | coreIrq (i : BitVec 8)
  /-- An event latched in a gated domain takes effect in the first cycle after that domain's clock restarts. (R501) -/
  | latchedEvent
  /-- At REFCK cycles 16 to 18 after THAW entry the device latches the majority of GPIO0 to GPIO3 into PMX_STRAP. (R67) -/
  | strapSample (a b c : BitVec 4)
  /-- At REFCK cycle 32 after THAW entry the strap balls come under PMX control as GPIO inputs. (R67) -/
  | gpioHandover
  /-- A COMMIT checks staged selections and either refuses, reports NOCHANGE, or starts the switch sequence on every differing ball. (R71) -/
  | pmxCommit (m : Master)
  /-- At cycle 6 of the switch sequence the new function's input sees the ball, ACT updates and BUSY clears. (R73) -/
  | pmxSwitchEnd
  /-- Writing LOCK freezes a PMX_PIN's RW fields until the next THAW entry. (R77) -/
  | pmxPinLock (m : Master) (n : BitVec 5)
  /-- A write to UART_TX queues a byte in the TX FIFO unless it is full. (R78) -/
  | uartTxWrite (m : Master) (v : Word)
  /-- POP removes the byte shown in UART_RX. (R78) -/
  | uartPop (m : Master)
  /-- A character finishes shifting out and the next queued byte starts. (R78) -/
  | uartTxCharacter
  /-- A received character completes and enters the RX FIFO, or sets FRERR or OVR. (R78) -/
  | uartRxCharacter (b : Byte) (stop : Bool)
  /-- A Finion frame is received on both lanes, with SYNC, PCRC and ACK handling: for each lane, lane 0 in the low bits, its
  SYNC, its header and its PCRC, and between them the general payload. (R61) -/
  | finionFrame (d : Die) (sync hdr : BitVec 8) (pay : BitVec 168) (pcrc : BitVec 16)
  /-- Eight consecutive SYNC mismatches or ACK = 0 make a receiver declare the link down. (R66) -/
  | finionLinkDown (d : Die) (fx : RetractFacts) (t : Trans)
  /-- Sixteen consecutive good frames make a receiver declare the link up again, restoring no state. (R252) -/
  | finionLinkUp (d : Die)
  /-- The Power die checks a downstream servo word and applies it to its DACs only in LOADED, otherwise discarding it. (R239) -/
  | servoWordReceived (w : BitVec 56)
  /-- The SRV stores an upstream servo word with a good CRC into RSEQ, the sense registers and FAULT. (R223) -/
  | upstreamServoWord (w : Upstream)
  /-- The boot ROM reads both slot headers, chooses a candidate slot, writes record 0x0101 and starts the loader and signature check. (R112) -/
  | headersRead
  /-- A 64 KiB segment block lands in its destination, releasing any core stalled on it, or fails with a Store die read error. (R113) -/
  | blockLanded (us : BitVec 32)
  /-- The SST hash engine finishes a block and advances the segment's chain value. (R110) -/
  | blockHashed (us : BitVec 32)
  /-- The header signature check ends, passing or failing every segment. (R113) -/
  | headerSignatureDone (us : BitVec 32)
  /-- The DEVID key derivation completes and its public key becomes readable. (R117) -/
  | devidDerived
  /-- The ALIAS key derivation completes and the ROM sets DRK_USELOCK. (R117) -/
  | aliasDerived
  /-- A write to SST_REL releases HC0, HC1 or MC at its vector, or is refused with RELERR. (R122) -/
  | coreRelease (m : Master) (v : Word)
  /-- In the first cycle with SVOK = 1 and ATB LOCKED, hardware releases SV and the WSQ. (R124) -/
  | svWsqRelease
  /-- When a passed core's held-store queue is empty, its gate bit clears and its stores go directly to the bus. (R127) -/
  | hsqDrainEnd (c : BitVec 2) (facts : List BusFacts)
  /-- A fuse programming operation ends, fuse read back, and record 0x0107 is written. (R121) -/
  | fuseProgramDone (held : BitVec 384)
  /-- A write to SST_KLOCK sets lock bits that hold until THAW entry. (R117) -/
  | keyLock (m : Master) (v : Word)
  /-- SST_KCMD DERIVE starts loading a party media key into its CRY slot, or is refused while MEK_USELOCK = 1. (R118) -/
  | derive (m : Master) (v : Word)
  /-- A DERIVE completes and leaves the key slot READY with a new GEN, or not READY if the halves match. (R349) -/
  | deriveDone
  /-- SST_KCMD CLEAR zeroes a party key slot and marks it unusable. (R118) -/
  | keyClear (m : Master) (v : Word)
  /-- SST_SCMD GO starts signing SST_DIG with the ALIAS key, or is refused when locked. (R119) -/
  | sign (m : Master) (v : Word)
  /-- ALIAS signing completes and SST_SIGR and SST_SIGS hold the signature. (R119) -/
  | signDone
  /-- SST_FCMD programs KEYHASH[ARG] from SST_DIG, or returns DENIED. (R138) -/
  | programKeyhash (m : Master) (v : Word)
  /-- SST_FCMD sets LIFECYCLE to PRODUCTION, or returns DENIED. (R138) -/
  | setProduction (m : Master) (v : Word)
  /-- SST_FCMD programs TARGET_RPM from VALUE, or returns DENIED. (R138) -/
  | programTargetRpm (m : Master) (v : Word)
  /-- The recorder takes one captured event per SECCK cycle into the staging FIFO, or loses it. (R154) -/
  | eventCapture (present : List (BitVec 8))
  /-- A write of MOR_SCMD submits a firmware event, or refuses it. (R152) -/
  | fwEventSubmit (m : Master) (v : Word) (present : List (BitVec 8))
  /-- Writing SEAL_NOW requests a seal of the current batch. (R150) -/
  | sealNow
  /-- The recorder forms the next record and starts programming its body into the write slot. (R147) -/
  | phase1Start
  /-- A record's body program ends; on failure the slot is made TORN and the record retried in the next slot with 0x0701. (R157) -/
  | phase1Done (ok : Bool) (back : List Byte)
  /-- The hardware record signer finishes signing a record's digest and phase 2 is queued before the next phase 1. (R148) -/
  | recordSignatureReady
  /-- A record's signature program ends, leaving it VALID or SIGTORN. (R157) -/
  | phase2Done (ok : Bool) (back : List Byte)
  /-- A Drift sector erase ends; a failure is retried once and then skipped with record 0x0702. (R158) -/
  | driftEraseDone (left : Option (List (Nat × Byte)))
  /-- The Moraine tail search completes, enqueuing torn and late-signature records and setting READY. (R159) -/
  | tailSearchDone
  /-- A write of MOR_RCMD GO starts a read port request for a SEQ. (R163) -/
  | morReadGo (m : Master)
  /-- A read port request completes with OK, NOTFOUND, NOTYET or SIGPEND. (R163) -/
  | morReadDone (m : Master)
  /-- Once the retract counts as done in RETREAT, the recorder enqueues 0x0203 and the seal. (R162) -/
  | retreatRetractDone (linkDown70ms : Bool)
  /-- A read of the array window returns array, status or margin data, suspending a running operation automatically if needed. (R166) -/
  | storeRead (m : Master) (a : BitVec 28) (width : Nat) (cells : List Nat)
  /-- A store in the array window advances its master's command sequence or ends it as a sequence error. (R169) -/
  | sequenceCycle (r : Req) (a : BitVec 28) (width : Nat) (v : Word)
  /-- A gap of more than 100 µs between cycles ends the sequence as a sequence error. (R169) -/
  | sequenceTimeout (r : Req) (b : BitVec 4)
  /-- The read-array command leaves margin or info mode and cancels a pending status read. (R170) -/
  | readArray (r : Req) (a : BitVec 28)
  /-- The status-read command makes this master's next read of the bank return the status word. (R175) -/
  | statusRead (r : Req) (b : BitVec 4)
  /-- The clear-status command clears REFUSE, PFAIL and EFAIL in the bank's status byte. (R175) -/
  | clearStatus (r : Req) (b : BitVec 4)
  /-- A confirmed buffer program starts programming a page, or is refused under Table 7.3. (R171) -/
  | bufferProgram (r : Req) (b : BitVec 4)
  /-- A confirmed sector erase logs a START entry and starts erasing, or is refused. (R173) -/
  | sectorErase (r : Req) (a : BitVec 28)
  /-- Erase suspend stops a running erase within 8 µs and sets ESUSP, or is refused. (R174) -/
  | eraseSuspend (r : Req) (a : BitVec 28)
  /-- Erase resume restarts a suspended erase and clears ESUSP, or is refused. (R174) -/
  | eraseResume (r : Req) (a : BitVec 28)
  /-- The margin-read command makes this master's reads of the bank use a verify reference. (R178) -/
  | marginRead (r : Req) (b : BitVec 4) (eraseVerify : Bool)
  /-- The info-mode command makes this master's reads of the bank return the info space. (R182) -/
  | infoMode (r : Req) (b : BitVec 4)
  /-- A store to the page-program window extends, discards or opens a master's partial page, and a completed page is programmed. (R172) -/
  | pageWindowStore (r : Req) (a : BitVec 28) (width : Nat) (v : Word)
  /-- A page program ends, verified or with PFAIL, and STO_DONE is set. (R171) -/
  | programDone (b : BitVec 4) (ok : Bool) (left : List (Nat × Byte))
  /-- A sector erase ends, logging an END entry with its result and setting RDY. (R173) -/
  | eraseDone (b : BitVec 4) (ok : Bool) (left : List (Nat × Byte))
  /-- The info-row scan completes, marking INCOMPLETE sectors and setting READY. (R181) -/
  | storeScanDone
  /-- A background erase of an info row with a bad header ends and the bank becomes ready. (R183) -/
  | infoRowEraseDone (b : BitVec 4)
  /-- A write of STO_MBAD starts appending a grown-bad entry, or refuses it. (R179) -/
  | markBad (v : Word)
  /-- A grown-bad entry is appended and record 0x0703 is written. (R179) -/
  | markBadDone (ok : Bool)
  /-- SEC's write of STO_WPROT sets region protection and its LOCK. (R188) -/
  | wprotWrite (m : Master) (v : Word)
  /-- A bank whose STO_BPD bit is set powers down once no transfer, program or erase uses it. (R189) -/
  | bankPowerDown (b : BitVec 4) (transfer : Bool)
  /-- A WSQ word with SEQ CONT performs its actions and proceeds to PC + 1. (R195) -/
  | wsqCont (n : Nat) (f : Captures)
  /-- A WSQ word with SEQ JUMP performs its actions and goes to NEXT. (R195) -/
  | wsqJump (n : Nat) (f : Captures)
  /-- A WSQ word with SEQ BRANCH goes to NEXT if its condition holds, else to PC + 1. (R195) -/
  | wsqBranch (n : Nat) (f : Captures)
  /-- A WSQ word with SEQ WAIT performs its actions once and stays until its condition holds. (R195) -/
  | wsqWait (n : Nat) (f : Captures)
  /-- The condition of a waiting WSQ word holds and the WSQ proceeds to PC + 1. (R195) -/
  | wsqWaitSatisfied (n : Nat) (f : Captures)
  /-- A WSQ word with SEQ CALL pushes PC + 1 and goes to NEXT, or forces a halt when the stack is full. (R195) -/
  | wsqCall (n : Nat) (f : Captures)
  /-- A WSQ word with SEQ RET pops the return stack, or forces a halt when it is empty. (R195) -/
  | wsqRet (n : Nat) (f : Captures)
  /-- A WSQ word with SEQ DISPATCH goes to NEXT plus the last SERVO_WIN head. (R195) -/
  | wsqDispatch (n : Nat) (f : Captures)
  /-- A WSQ word with SEQ HALT stops the WSQ with RSM set to NEXT, resuming at once if a SERVO_WIN is pending. (R196) -/
  | wsqHalt (n : Nat) (f : Captures)
  /-- A WSQ word with SEQ 8 to 15 forces a halt with ILL and a MISS posting. (R197) -/
  | wsqIllegal (n : Nat) (f : Captures)
  /-- WDLIM cycles after a resume without HALT force a halt with WDOG and a MISS posting. (R197) -/
  | wsqWatchdog (n : Nat) (f : Captures)
  /-- A preamp serial frame finishes clocking out and the port becomes free. (R198) -/
  | preampFrameDone (pa1 : Bool)
  /-- A write of WSQ_PAQ queues a preamp frame, or is ignored with PAQFULL. (R198) -/
  | wsqPaqWrite (m : Master) (v : Word)
  /-- The motor sequencer executes NOP. (R202) -/
  | msqNop (w : Word)
  /-- The motor sequencer loads an immediate into GD. (R202) -/
  | msqLdi (w : Word)
  /-- The motor sequencer adds an immediate to GA into GD. (R202) -/
  | msqAddi (w : Word)
  /-- The motor sequencer adds GA to GD. (R202) -/
  | msqAdd (w : Word)
  /-- The motor sequencer subtracts GA from GD. (R202) -/
  | msqSub (w : Word)
  /-- The motor sequencer ANDs GA with an immediate into GD. (R202) -/
  | msqAndi (w : Word)
  /-- The motor sequencer ORs GA with an immediate into GD. (R202) -/
  | msqOri (w : Word)
  /-- The motor sequencer shifts GA right arithmetically into GD. (R202) -/
  | msqSra (w : Word)
  /-- The motor sequencer multiplies GD by GA in Q15 with saturation. (R202) -/
  | msqMulq (w : Word)
  /-- The motor sequencer reads a port into GD. (R202) -/
  | msqIn (w : Word) (meas : BitVec 16)
  /-- The motor sequencer writes GA to a port, with the port's effect. (R202) -/
  | msqOut (w : Word)
  /-- The motor sequencer branches to IMM if its condition on GA holds. (R202) -/
  | msqBr (w : Word)
  /-- The motor sequencer pushes PC + 1 and jumps. (R202) -/
  | msqCall (w : Word)
  /-- The motor sequencer pops PC from its return stack. (R202) -/
  | msqRet (w : Word)
  /-- The motor sequencer waits for an event in its mask. (R202) -/
  | msqWait (w : Word)
  /-- An event in the WAIT mask occurs and the motor sequencer continues. (R202) -/
  | msqWaitEvent (events : BitVec 8)
  /-- An illegal opcode or bad fetch takes the recovery entry. (R204) -/
  | msqIllegal (w : Word)
  /-- With CONV executed and every armed burst group complete, the capture unit signals burst end and starts the conversion. (R215) -/
  | burstEnd (f : Captures)
  /-- The converter computes position, checks validity and raises POS with a valid result or a miss. (R216) -/
  | positionConversionDone (f : SrvLines)
  /-- A miss is posted for a wedge, raising POS invalid, WUS and the miss counts. (R231) -/
  | missedWedge (cause : BitVec 4)
  /-- The window timer reaches 0 with an armed burst group incomplete, posting a BURST miss. (R230) -/
  | burstWindowExpiry (n : Nat) (f : Captures)
  /-- SV takes the POS interrupt and starts at its vector, or ENTLATE is set if R221 was broken. (R220) -/
  | svPosEntry (f : SvFacts)
  /-- A write of SRV_CMD_HI commits a servo command, forms the downstream word and clears POS. (R222) -/
  | servoCommit (m : Master) (v : Word) (cycles : Nat)
  /-- No upstream word with a sent commit's SEQ within 4 frames sets CMDLOST. (R223) -/
  | cmdlost
  /-- A SHK input high on two REFCK samples raises WUS and starts a shock hold. (R227) -/
  | shockEvent (n : BitVec 1)
  /-- A preamp fault line going low raises WUS, closes write gates and sets PAFLT. (R226) -/
  | preampFault (n : BitVec 1)
  /-- A write to MODE sets SEEK, SETTLE or FOLLOW and clears ONTRK and its count. (R225) -/
  | srvModeWrite (m : Master) (v : Word)
  /-- With TRCEN = 1 the SRV emits one 64-bit trace record per wedge, or drops it if busy. (R234) -/
  | traceRecord (busy : Bool)
  /-- VIN5 below 4.0 V outside hold-up, or VHOLD below 3.8 V in hold-up, asserts the Power die reset. (R236) -/
  | pdResetAssert
  /-- On release the Power die retracts once, coasts the spindle, runs ROM only and sends NOTICE. (R236) -/
  | pdResetRelease (fx : RetractFacts)
  /-- A NOTICE outside THAW makes the FLNK resend SPEED, CFG and PSUP, the SST reload the patch and record 0x0603 kind 10. (R236) -/
  | notice (romid : BitVec 16)
  /-- A SPEED packet sets the spindle target and current limit, starting, changing or stopping the spindle. (R240) -/
  | speed (target : BitVec 16) (spilim : BitVec 8) (rpm : Nat)
  /-- An SPDERR packet feeds the speed error to the motor sequencer's outer loop. (R241) -/
  | spderr (e : BitVec 24)
  /-- Every 64 ATB wedges while LOCK and LOCKED, the FLNK measures the period and sends SPDERR. (R241) -/
  | spderrMeasurement (t64 : Nat)
  /-- An ACT LOAD moves the heads to LOADED, or is refused. (R238) -/
  | actLoad
  /-- An ACT UNLOAD moves the heads to REFPARK, or is refused. (R238) -/
  | actUnload
  /-- An ACT PARK moves the actuator to FULLPARK, or is refused. (R238) -/
  | actPark
  /-- An ACT RETRACT starts the retract engine with cause COMMAND, or returns NOOP during a retract. (R246) -/
  | actRetract (fx : RetractFacts)
  /-- An ACT HOLDUP puts the spindle in HOLDUP and a moving or loaded actuator in HOLD. (R238) -/
  | actHoldup
  /-- A PSUP on packet brings PA_VNEG up when the spindle is AT_SPEED. (R244) -/
  | psupOn
  /-- One millisecond after PA_VNEG comes up, PA_VPOS is brought up. (R244) -/
  | preampVposOn
  /-- A PSUP off packet removes and discharges both preamp supplies. (R244) -/
  | psupOff
  /-- A CFG packet sets RDL, RFLOOR, VRET, HOLDV and VCMRNG in the Power die. (R251) -/
  | cfg (rdl : BitVec 8) (rfloor : BitVec 8) (vret : BitVec 8) (holdv : BitVec 8) (vcmrng : Bool)
  /-- A PWR packet writes a Power die mailbox port. (R251) -/
  | pwr (port : BitVec 8) (value : BitVec 16)
  /-- A PRD packet reads a Power die port, answered by PDATA. (R251) -/
  | prd (port : BitVec 8) (meas : BitVec 16)
  /-- An UNPATCH packet makes the Power die disable every match register at its next WAIT. (R207) -/
  | unpatch
  /-- A PATCH_DATA packet delivers 19 bytes of the patch image into the shadow. (R207) -/
  | patchData (k : BitVec 8) (bytes : List Byte)
  /-- PATCH_END makes the Power die check PCRC and answer PATCH_ACK. (R207) -/
  | patchEnd
  /-- A LOGACK marks a retract log entry as reported. (R249) -/
  | logack (entry : BitVec 3)
  /-- A LOGREQ makes the Power die send a LOG packet for each unacknowledged entry. (R249) -/
  | logreq
  /-- An IDLE packet carries nothing. (R251) -/
  | idle
  /-- A STATUS packet updates FLNK_PD, FLNK_PDV, FLNK_VH, MSQ_ROMID and the servo CRC count. (R251) -/
  | status (speed16 : BitVec 18) (vhold : BitVec 16) (temp : BitVec 8) (romid : BitVec 16)
  /-- A FAULT packet updates FLNK_FLT and the FLNK submits record 0x0603. (R250) -/
  | fault (kind : BitVec 8) (detail : BitVec 16)
  /-- A PDATA packet returns a port value into FLNK_PRES and clears BUSY. (R251) -/
  | pdata (port : BitVec 8) (value : BitVec 16)
  /-- A PATCH_ACK reports the PCRC result, and a mismatch makes the SST resend up to three sends. (R207) -/
  | patchAck (good : Bool)
  /-- A LOG packet makes the FLNK submit record 0x0306 and then send LOGACK. (R249) -/
  | log (entry : BitVec 3) (bytes : List Byte)
  /-- A planned actuator move ends and the actuator takes its target state, braking the spindle after a park for target 0. (R238) -/
  | actuatorMoveDone
  /-- 2048 frames in LOADED without an applied servo word start a retract with cause SILENCE. (R239) -/
  | servoSilence (fx : RetractFacts)
  /-- VHOLD below VRET for 10 µs in HOLDUP starts a retract. (R246) -/
  | vholdLow (fx : RetractFacts)
  /-- Spindle speed below RFLOOR outside FULLPARK starts a retract. (R246) -/
  | spindleFloor (fx : RetractFacts)
  /-- RDL after HOLDUP entry starts a retract. (R246) -/
  | retractDeadline (fx : RetractFacts)
  /-- Velocity below a quarter for 200 µs at the limit marks the ramp reached. (R246) -/
  | retractRampReached
  /-- Velocity at 0 for 2 ms marks the latch reached and starts a 10 ms push. (R246) -/
  | retractLatchReached
  /-- 60 ms without reaching the latch starts a 0.30 A push and marks the result timeout. (R246) -/
  | retractLatchTimeout
  /-- The final push ends, the VCM is released and the actuator is in FULLPARK. (R247) -/
  | retractEnd (dur : Nat)
  /-- Valid zero crossings at 150 rpm or more close the sensorless loop and move START to ACCEL. (R240) -/
  | spindleClosedLoop
  /-- An attempt without valid zero crossings in 300 ms fails, and after three failures STARTFAIL is raised. (R240) -/
  | startAttemptTimeout
  /-- Speed within ±0.1 % of target for 16 revolutions enters AT_SPEED and moves FULLPARK to REFPARK. (R240) -/
  | spindleAtSpeed
  /-- Error above 0.5 % for 4 revolutions returns AT_SPEED to ACCEL. (R240) -/
  | speedError
  /-- No zero crossing for 100 ms in BRAKE or COAST sets STOPPED with the bridge Hi-Z, starting a stored target if any. (R240) -/
  | spindleStopped
  /-- Speed below 500 rpm in HOLDUP or BRAKE shorts the windings as a dynamic brake. (R499) -/
  | holdupBrake
  /-- Spindle overcurrent puts the spindle in COAST and retracts loaded heads. (R250) -/
  | spoc (fx : RetractFacts)
  /-- VCM overcurrent for 10 µs clamps the VCM to full scale. (R250) -/
  | vcmoc
  /-- Microactuator overcurrent takes that channel to 0 V and Hi-Z until THAW. (R250) -/
  | maflt (ch : Bool)
  /-- A preamp rail outside ±10 % for 10 µs switches both preamp supplies off. (R244) -/
  | psupf
  /-- Junction at or above 135 °C is reported. (R250) -/
  | twarn
  /-- Junction at or above 160 °C starts a retract and holds the bridge Hi-Z. (R250) -/
  | tshut (fx : RetractFacts)
  /-- No valid zero crossing for 8 commutation periods while driving puts the spindle in COAST. (R250) -/
  | sync
  /-- 2.0 s after the Power die declared the link down without recovery, it spins the spindle down. (R252) -/
  | linkDownSpinDown
  /-- A write of MOP word 3 commits the entry as READY, or is ignored with MOPBUSY or MOPOWN. (R264) -/
  | mopCommit (m : Master) (t : BitVec 7) (v : Word)
  /-- The channel synthesiser completes its glitch-free slew to a new rate code. (R258) -/
  | synthSlewDone
  /-- A read sector's first bit takes a soft slot or reports OVERRUN, and the sync mark search begins. (R273) -/
  | sectorStart (t : BitVec 7)
  /-- At a sector's last codeword bit it takes a decoder engine and decoding starts. (R273) -/
  | sectorLastBit (t : BitVec 7) (samp : Samples)
  /-- Decoding stops on convergence or iteration cap and the sector result is judged and delivered. (R271) -/
  | decodeDone (t : BitVec 7) (idx : BitVec 8) (f : SectorFacts)
  /-- An on-the-fly sector's deadline arrives and its decode stops. (R273) -/
  | decodeDeadline (t : BitVec 7) (idx : BitVec 8) (f : SectorFacts)
  /-- One microsecond before a write sector's gate point, a sector not wholly in the FIFO reports NODATA. (R277) -/
  | writeDataCheck (t : BitVec 7)
  /-- A core write to a head context takes effect at the next operation, or is ignored with CTXBUSY. (R269) -/
  | headContextWrite (m : Master) (h : BitVec 5) (w : BitVec 3) (v : Word)
  /-- POPDONE removes the head of CHN_DONEQ. (R282) -/
  | popdone (m : Master)
  /-- POPFAIL removes the head of CHN_FAILQ. (R282) -/
  | popfail (m : Master)
  /-- REDEC starts re-equalising and re-decoding a retained slot. (R275) -/
  | redec (m : Master)
  /-- A re-decode ends, delivering the sector on success or submitting 0x0302 when FINAL. (R275) -/
  | redecDone (f : SectorFacts)
  /-- RELEASE frees a retained channel slot. (R275) -/
  | release (m : Master)
  /-- The Buffer die zero-fill ends and BINIT reads 1. (R286) -/
  | bufferInitDone
  /-- Patrol scrub reads the next block at SCRUBRATE, correcting or reporting errors. (R285) -/
  | patrolScrub (found : BitVec 2)
  /-- Every 128 ms the controller runs ZQ calibration through ZQ_BUF. (R284) -/
  | zqCalibration
  /-- A non-allocating FIRN lookup returns a hit, recall or promotion, or MISS. (R294) -/
  | lookup (m : Master) (v : Word)
  /-- An allocating lookup hits or takes an eligible way, returning FULL or NOWAY otherwise. (R295) -/
  | lookupAlloc (m : Master) (v : Word)
  /-- A RESERVE lookup charges dirty units, or returns QUOTA, FILLWAIT or RETREAT. (R297) -/
  | reserve (m : Master) (v : Word)
  /-- A FILLLOCK lookup sets L on eligible sectors and returns the granted mask. (R298) -/
  | filllock (m : Master) (v : Word)
  /-- An address CLEAN posts the party's dirty sectors to the clean queue. (R300) -/
  | aclean (m : Master) (v : Word)
  /-- An address INVAL invalidates the party's clean sectors. (R300) -/
  | ainval (m : Master) (v : Word)
  /-- An address CLEANINVAL invalidates clean sectors and posts dirty ones with INVAL. (R300) -/
  | acleaninval (m : Master) (v : Word)
  /-- An address DISCARD removes sectors from the guarded dirty set and releases their units. (R300) -/
  | adiscard (m : Master) (v : Word)
  /-- COMMIT makes masked sectors valid and dirty, or refuses partial ones. (R297) -/
  | firnCommit (m : Master) (v : Word)
  /-- FILL sets V and clears L and E on masked fill-locked sectors, freeing a releasing Cornice slot when its last L clears. (R298) -/
  | fill (m : Master) (v : Word)
  /-- ABORT returns charged units and clears L on masked sectors. (R297) -/
  | firnAbort (m : Master) (v : Word)
  /-- UNPIN decrements a segment's PIN count. (R294) -/
  | unpin (m : Master) (v : Word)
  /-- A set-and-way CLEAN posts dirty sectors to the clean queue, or returns CLQFULL. (R299) -/
  | clean (m : Master) (v : Word)
  /-- A set-and-way INVAL invalidates clean unlocked sectors. (R300) -/
  | inval (m : Master) (v : Word)
  /-- A set-and-way CLEANINVAL invalidates clean sectors and posts dirty ones with INVAL. (R300) -/
  | cleaninval (m : Master) (v : Word)
  /-- A set-and-way DISCARD clears V, D, P and E and releases units. (R300) -/
  | discard (m : Master) (v : Word)
  /-- The range engine starts a CLEAN pass over its scope. (R301) -/
  | rangeClean (m : Master) (v : Word)
  /-- The range engine starts an INVAL pass over its scope. (R301) -/
  | rangeInval (m : Master) (v : Word)
  /-- The range engine starts a CLEANINVAL pass over its scope. (R301) -/
  | rangeCleaninval (m : Master) (v : Word)
  /-- The range engine starts a DISCARD pass over its scope. (R301) -/
  | rangeDiscard (m : Master) (v : Word)
  /-- A paused range pass resumes when clean-queue space frees. (R301) -/
  | rangeResume
  /-- A range pass ends, setting RDONE and AFF. (R301) -/
  | rangePassEnd
  /-- CLQPOP removes the head entry of the clean queue. (R299) -/
  | clqpop
  /-- WBDONE ends a write-back, cleaning or keeping sectors, or marking it stale. (R299) -/
  | wbdone (v : Word)
  /-- A metadata LOOKUP returns HIT with the entry, or MISS. (R309) -/
  | metaLookup (m : Master)
  /-- A metadata ALLOC binds a key to an entry, or returns HIT or FULL. (R309) -/
  | metaAlloc (m : Master)
  /-- A metadata DIRTY sets DIRTY on the named entry. (R309) -/
  | metaDirty (m : Master) (k : BitVec 6)
  /-- A metadata CLEAN clears DIRTY on the named entry. (R309) -/
  | metaClean (m : Master) (k : BitVec 6)
  /-- A metadata INVAL invalidates the named entry, refused if dirty or locked. (R309) -/
  | metaInval (m : Master) (k : BitVec 6)
  /-- A metadata LOCK sets LOCKED on the named entry. (R309) -/
  | metaLock (m : Master) (k : BitVec 6)
  /-- A metadata UNLOCK clears LOCKED on the named entry. (R309) -/
  | metaUnlock (m : Master) (k : BitVec 6)
  /-- CALLOC binds a read-ahead segment to the party's lowest FREE slot in HELD, or returns NOSLOT or EXISTS. (R304) -/
  | corniceAlloc (m : Master) (v : Word)
  /-- A Cornice RELEASE makes the slot RELEASING, freeing it when its last L clears. (R306) -/
  | corniceRelease (m : Master) (v : Word)
  /-- A Cornice STATUS returns the slot's state, GEN and frame. (R312) -/
  | corniceStatus (m : Master) (v : Word)
  /-- A cancelled slot's frame is zeroed, CANCEL_CNT incremented, record 0x0503 submitted and the slot freed. (R307) -/
  | corniceScrubDone (j : BitVec 5)
  /-- A write of FIRN_PART or FIRN_CMASK is applied or refused with PREFUSE. (R292) -/
  | partitionWrite (m : Master) (cmask : Bool) (p : BitVec 4) (v : Word)
  /-- Writing PLOCK locks the partition if columns, slots and quotas are consistent, else PRES names the failure. (R292) -/
  | partitionLock (m : Master)
  /-- A defect lookup returns the PBA and RUN by longest prefix, verified against the shadow. (R317) -/
  | defectLookup (m : Master) (errs : List RmeErr)
  /-- A window lookup returns HIT with media LBA, REFUSED or MISS by priority, verified against the shadow. (R320) -/
  | windowLookup (m : Master) (v : Word) (errs : List RmeErr)
  /-- A COMMIT checks a staged batch and applies it atomically, or refuses it. (R323) -/
  | rmeCommit (m : Master) (v : Word)
  /-- When the FIRN completes the notices, the party's held window lookups start. (R325) -/
  | revokeHoldEnd
  /-- RME_SCMD READ copies an entry's shadow into staging slot 0. (R333) -/
  | shadowRead (m : Master) (v : Word)
  /-- Writing WLOCK locks the window channel if no cross-party media overlap exists. (R322) -/
  | wlock (m : Master)
  /-- Writing DREADY lets defect lookups return results instead of FAULT. (R327) -/
  | dready (m : Master)
  /-- Every 16 BUFCK cycles the patrol compares one row with its shadow and repairs it. (R330) -/
  | rmePatrol (found : BitVec 3)
  /-- The owner's CHSTART starts or holds a channel at a descriptor, or is ignored with IGN. (R335) -/
  | chstart (m : Master) (c : BitVec 4) (v : Word)
  /-- A descriptor becomes current and is checked, halting the channel or starting the transfer. (R338) -/
  | descriptorFetched (c : BitVec 4) (ue : Option (BitVec 32))
  /-- A descriptor ends, is written back, and the channel fetches NEXT, holds or goes IDLE. (R335) -/
  | descriptorEnd (c : BitVec 4)
  /-- CHCMD ABORT stops a running channel at its next boundary, or returns a held one to IDLE. (R354) -/
  | channelAbort (m : Master) (c : BitVec 4)
  /-- SEC's write of CHCFG.OWNER sets a channel's owner, ignored while running or locked. (R334) -/
  | chcfgWrite (m : Master) (c : BitVec 4) (v : Word)
  /-- Writing CFGLOCK locks XTSREQ, MDBASE and owners if MC owns at least eight channels. (R350) -/
  | cfglock (m : Master)
  /-- A write of DMA_MDBASE sets the side table base, stored with EN = 0 if it does not fit. (R344) -/
  | mdbaseWrite (m : Master) (v : Word)
  /-- The XTS known-answer test at THAW ends, setting KATDONE and KATFAIL on failure. (R351) -/
  | katDone (ok : Bool)
  /-- A port becomes up when DL_Up, PERST# high, no FLR, D0 and Bus Master Enable all hold. (R358) -/
  | portUp (q : BitVec 1)
  /-- A port going down stops its TLPs, halts host transfers, and moves or halts its parties. (R373) -/
  | portDown (q : BitVec 1) (cause : BitVec 3)
  /-- A write of DBP[p].PORT with rings enabled moves the party to the named port. (R363) -/
  | dbpPortWrite (q : BitVec 1) (p : BitVec 4) (v : Word)
  /-- A write to a ring's setup fields is stored, or ignored with ERR 6 while enabled. (R361) -/
  | ringSetupWrite (q : BitVec 1) (cq : Bool) (r : BitVec 6) (w : BitVec 2) (v : Word)
  /-- EN = 1 enables a submission ring if its conditions hold, else sets ERR. (R361) -/
  | sqEnable (q : BitVec 1) (r : BitVec 6)
  /-- EN = 1 enables a completion ring with phase 1 if its conditions hold, else sets ERR. (R361) -/
  | cqEnable (q : BitVec 1) (r : BitVec 6) (aggtime : BitVec 8)
  /-- EN = 0 stops fetching and makes an active submission ring DRAINING. (R362) -/
  | sqDisable (q : BitVec 1) (r : BitVec 6)
  /-- When every command of a draining ring has its completion written, the ring becomes DISABLED. (R362) -/
  | sqDrained (r : BitVec 6)
  /-- EN = 0 disables an idle completion ring, or is ignored with ERR 7. (R362) -/
  | cqDisable (q : BitVec 1) (r : BitVec 6)
  /-- RESUME writes a halted ring's retained completions in order and makes it ACTIVE. (R375) -/
  | resume (q : BitVec 1) (cq : Bool) (r : BitVec 6)
  /-- RESET discards a halted ring's retained completions and disables it once its commands finish. (R375) -/
  | ringReset (q : BitVec 1) (r : BitVec 6)
  /-- Writing HMWCTL.LOCK freezes the host window registers until reset or THAW. (R360) -/
  | hostWindowLock (q : BitVec 1) (en : Bool)
  /-- A write to WAKE[p] requests one doorbell fetch of party p. (R368) -/
  | wake (q : BitVec 1) (p : BitVec 4)
  /-- A doorbell page read completes and the device acts on valid SQTAIL and CQHEAD values. (R366) -/
  | doorbellReadDone (p : BitVec 4) (e : HostEnd) (data : List Byte)
  /-- A burst of submission entries arrives, takes command-table entries and advances the fetch pointer. (R369) -/
  | entryBurstDone (r : BitVec 6) (e : HostEnd) (data : List Byte) (errs : List RmeErr)
  /-- A scatter-list page read completes and its entries are checked, ending the transfer at a fault. (R371) -/
  | listPageReadDone (i : BitVec 10) (a : BitVec 64) (e : HostEnd) (data : List Byte)
  /-- A completion TLP is acknowledged, freeing its command-table entry. (R373) -/
  | completionWritten (i : BitVec 10)
  /-- AGGTIME after the first unsignalled completion, the ring sends its MSI-X message. (R370) -/
  | msixAggregationTimeout (r : BitVec 6)
  /-- Unmasking a vector with its pending bit set sends the message. (R370) -/
  | msixUnmask (q : BitVec 1) (v : BitVec 5)
  /-- UQI_CPOST commits a completion for a dispatched command, or refuses it with BADINDEX. (R378) -/
  | uqiCpost (m : Master) (v : Word)
  /-- UQI_XCMD queues a host transfer for a command, or is ignored with XFULL. (R378) -/
  | uqiXcmd (m : Master) (v : Word)
  /-- UQI_XPOP removes the oldest host-transfer result. (R378) -/
  | uqiXpop (m : Master) (v : Word)
  /-- UQI_DQPOP removes the head of the dispatch queue. (R378) -/
  | uqiDqpop (m : Master) (v : Word)
  /-- A write of UQI_RPARTY sets a ring's party, ignored while the ring is enabled or locked. (R378) -/
  | rpartyWrite (m : Master) (r : BitVec 6) (v : Word)
  /-- A write of UQI_PCFG sets a party's block size, ignored while its rings are enabled or locked. (R410) -/
  | pcfgWrite (m : Master) (p : BitVec 4) (v : Word)
  /-- A FLUSH completes once every earlier write of the party is durable on the medium. (R389) -/
  | flush (i : BitVec 10) (giveUp : Bool)
  /-- A WRITE reserves sectors, moves host data and commits it to the guarded dirty set or the medium. (R387) -/
  | write (i : BitVec 10) (giveUp : Bool) (errs : List RmeErr)
  /-- A READ delivers valid buffer or media data to host memory. (R387) -/
  | read (i : BitVec 10) (errs : List RmeErr)
  /-- WRITE_ZEROES behaves as a WRITE of zeros. (R388) -/
  | writeZeroes (i : BitVec 10) (giveUp : Bool) (errs : List RmeErr)
  /-- DEALLOCATE makes the range read as zeros and discards its dirty data. (R388) -/
  | deallocate (i : BitVec 10) (errs : List RmeErr)
  /-- A host ABORT ends the oldest matching uncompleted command with ABORTED. (R390) -/
  | abort (i : BitVec 10)
  /-- IDENTIFY writes the 256-byte party description to host memory. (R391) -/
  | identify (i : BitVec 10) (buf : Word)
  /-- RESIDUE_READ copies part of the party's residue report to host memory. (R392) -/
  | residueRead (i : BitVec 10) (buf : Word)
  /-- A write of ORD_RQ3 submits an orderer request that is split into placed operations, or refuses it. (R402) -/
  | ordRequest (m : Master) (v : Word) (errs : List RmeErr)
  /-- With no armed operation and work pending, the orderer chooses the next target and posts ORD_NEXT. (R405) -/
  | ordSelectTarget
  /-- SV's ORD_ACK of the posted target arms the track's pending operations, or sets ACKERR. (R404) -/
  | ordAck (m : Master) (v : Word)
  /-- The orderer takes a clean-queue entry as a write-back request. (R408) -/
  | ordClqTake (errs : List RmeErr)
  /-- A request pending for AGE revolutions becomes urgent. (R406) -/
  | ordUrgent
  /-- ORD_RESPOP removes the oldest orderer result. (R411) -/
  | ordRespop (m : Master)
  /-- A write of ORD_SHARE sets a party's share, ignored if the shares would exceed 256. (R406) -/
  | ordShareWrite (m : Master) (p : BitVec 4) (v : Word)
  /-- SEC's ISO_CTL.LOCK checks the lock conditions and sets LOCKED with record 0x0501, or names the failure. (R413) -/
  | isoLock (m : Master)
  /-- The I3C ENTDAA CCC assigns a dynamic address. (R426) -/
  | entdaa (mctp : Bool) (addr : BitVec 7)
  /-- SETDASA assigns a dynamic address from the static address. (R426) -/
  | setdasa (static : BitVec 7) (addr : BitVec 7)
  /-- SETNEWDA changes a target's dynamic address. (R426) -/
  | setnewda (addr : BitVec 7) (to_ : BitVec 7)
  /-- RSTDAA removes dynamic addresses. (R426) -/
  | rstdaa
  /-- ENEC enables target events such as in-band interrupts. (R426) -/
  | enec (addr : Option (BitVec 7)) (events : BitVec 8)
  /-- DISEC disables target events. (R426) -/
  | disec (addr : Option (BitVec 7)) (events : BitVec 8)
  /-- GETPID returns the provisioned ID. (R426) -/
  | getpid (addr : BitVec 7)
  /-- GETBCR returns the BCR. (R426) -/
  | getbcr (addr : BitVec 7)
  /-- GETDCR returns the DCR. (R426) -/
  | getdcr (addr : BitVec 7)
  /-- GETSTATUS returns the target status. (R426) -/
  | getstatus (addr : BitVec 7)
  /-- SETMWL sets the maximum write length. (R426) -/
  | setmwl (addr : Option (BitVec 7)) (len : BitVec 16)
  /-- GETMWL returns the maximum write length. (R426) -/
  | getmwl (addr : BitVec 7)
  /-- SETMRL sets the maximum read length. (R426) -/
  | setmrl (addr : Option (BitVec 7)) (len : BitVec 16)
  /-- GETMRL returns the maximum read length. (R426) -/
  | getmrl (addr : BitVec 7)
  /-- A private write to the task target fills task words from an index and appends data-buffer bytes. (R429) -/
  | taskPrivateWrite (bytes : List Byte)
  /-- A private read returns task words and drains data-buffer bytes through DATA. (R429) -/
  | taskPrivateRead (words : BitVec 11)
  /-- Writing 1 to STAT.DONE empties the data buffer and readies the file for the next command. (R430) -/
  | doneClear (v : Word)
  /-- SEC's write of MGT_TAKE takes the pending management command. (R431) -/
  | mgtTake (m : Master) (v : Word)
  /-- SEC's write of MGT_DONE completes the command, sets DONE and raises the in-band interrupt. (R430) -/
  | mgtDone (m : Master) (v : Word)
  /-- IDENT returns the ID, SST_STAT, PCM_MODE, ISO_STAT and MOR_BOOT. (R433) -/
  | ident
  /-- PART_CFG writes a party's columns, slots, quota, share, EMU and rings, or refuses. (R434) -/
  | partCfg
  /-- PART_WIN commits one window entry through SEC's RME bank. (R434) -/
  | partWin
  /-- PART_KEY derives or clears a party's media key. (R434) -/
  | partKey
  /-- PART_LOCK sets the partition, window, DMA and isolation locks. (R434) -/
  | partLock
  /-- PART_ERASE crypto-erases a party under the sequence of R416. (R434) -/
  | partErase
  /-- PART_QUERY returns a party's 16-byte configuration. (R433) -/
  | partQuery
  /-- ST_SHORT starts the short self-test with record 0x0801, or returns STATE. (R440) -/
  | stShort (t : Trans)
  /-- ST_EXT starts the extended self-test with record 0x0801, or returns STATE. (R440) -/
  | stExt (t : Trans)
  /-- ST_ABORT aborts a running self-test with record 0x0803 cause 1. (R443) -/
  | stAbort (progress : BitVec 8) (sectors : BitVec 64)
  /-- ST_RESULT returns the last self-test's state and counts. (R443) -/
  | stResult (progress : BitVec 8) (sectors : BitVec 64) (unrec : BitVec 32) (secs : BitVec 32)
  /-- A self-test ends passing or failing and record 0x0802 is submitted. (R440) -/
  | selfTestEnd (elem : BitVec 4) (sectors : BitVec 64) (secs : BitVec 32) (unrec : BitVec 32) (failing : List (BitVec 64))
  /-- FW_BEGIN erases the target slot's sectors and opens staging. (R436) -/
  | fwBegin (bad : BitVec 8)
  /-- FW_DATA programs and verifies staged image pages. (R436) -/
  | fwData (pfail : BitVec 4)
  /-- FW_VERIFY checks the staged header and moves staging to VERIFIED, or reports the cause. (R438) -/
  | fwVerify
  /-- FW_ACTIVATE cleans every dirty sector and requests REBOOT into the staged image. (R439) -/
  | fwActivate (us : BitVec 32)
  /-- MOR_INFO returns NSEQ, the oldest Drift SEQ, BEDN and the write slot. (R433) -/
  | morInfo
  /-- MOR_READ places up to 8 records or stubs in the data buffer with per-record codes. (R435) -/
  | morRead
  /-- A management opcode that is unknown or not served completes with BADOP. (R433) -/
  | badOpcode
  /-- An MCTP packet on the I3C target is checked and assembled into the message buffer, or discarded. (R444) -/
  | mctpPacket (bytes : List Byte)
  /-- MGT_MRX POP frees the receive message buffer. (R444) -/
  | mrxPop (m : Master) (v : Word)
  /-- A write of MGT_MTX sends a message as MCTP packets. (R444) -/
  | mtxSend (m : Master) (v : Word)
  /-- The MCTP Set Endpoint ID command sets the device's EID. (R444) -/
  | setEndpointId
  /-- The MCTP Get Endpoint ID command returns the EID. (R444) -/
  | getEndpointId
  /-- The MCTP Get Endpoint UUID command returns the UUID. (R444) -/
  | getEndpointUuid
  /-- The MCTP Get MCTP Version Support command returns supported versions. (R444) -/
  | getMctpVersionSupport
  /-- The MCTP Get Message Type Support command returns types 0x00 and 0x05. (R444) -/
  | getMessageTypeSupport
  /-- SPDM GET_VERSION returns version 1.2. (R445) -/
  | getVersion
  /-- SPDM GET_CAPABILITIES returns the supported capabilities. (R445) -/
  | getCapabilities
  /-- SPDM NEGOTIATE_ALGORITHMS selects P-384 and SHA-384. (R445) -/
  | negotiateAlgorithms
  /-- SPDM GET_DIGESTS returns the slot 0 chain digest. (R445) -/
  | getDigests (root : List Byte) (devid : List Byte)
  /-- SPDM GET_CERTIFICATE returns slot 0's root, DEVID and ALIAS certificate chain. (R448) -/
  | getCertificate (root : List Byte) (devid : List Byte)
  /-- SPDM CHALLENGE returns a response signed with the ALIAS key. (R445) -/
  | challenge (root : List Byte) (devid : List Byte)
  /-- SPDM GET_MEASUREMENTS returns the signed measurement blocks present. (R446) -/
  | getMeasurements
  /-- Any other SPDM request receives ERROR UnsupportedRequest. (R445) -/
  | spdmUnsupportedRequest
  /-- The SST finishes building and signing the ALIAS certificate and sets ACRDY. (R447) -/
  | aliasCertReady
  /-- In ACQUIRE, the count of consecutive cycles with phase error within LOCKWIN reaches 1024 after the required index marks have been recognised, so the ATB enters LOCKED at that cycle. (R33) -/
  | lockwinRunComplete (ticks : BitVec 32)
  /-- A start bit arrives on the UART0_RX ball and the receiver becomes busy, setting RXBUSY. (R70) -/
  | uartRxStartBit
  /-- After THAW entry, once PLL lock and the zeroing of TCMs and the shared pool are complete, SEC leaves reset and fetches its first boot ROM word. (R135) -/
  | secLeavesReset
  /-- A PCIe completion for a DMA data or HOSTPI read request arrives, delivering data to the buffer or, with UR, CA or poison, halting the channel. (R340) -/
  | hostReadCompletion (c : BitVec 4) (n : Nat) (e : HostEnd) (data : List Byte)
  /-- The completion timer of an outstanding host read request expires and the channel halts with HOSTTO. (R340) -/
  | completionTimeout (c : BitVec 4) (n : Nat)
  /-- A PCIe configuration read or write reaches a function, setting BARs, MSI-X enable, Bus Master Enable, the power state or a Function Level Reset. (R358) -/
  | configurationRequest (q : BitVec 1) (r : CfgReq)
  /-- The last postamble bit of a write sector is written, so NDONE advances, and after the last sector the gate falls and the write operation ends into MOPS and CHN_DONEQ. (R266) -/
  | sectorWritten (t : BitVec 7)
  /-- VMOT returns within range, clearing VMOTL and starting or resuming the unbroken 100 ms span that ends RETREAT. (R99) -/
  | vmotReturn
  /-- VIN5 returns within range, clearing VIN5L and starting or resuming the unbroken 100 ms span that ends RETREAT. (R99) -/
  | vin5Return
  /-- BAY_DETN goes low as the drive is reinserted, meeting one condition of the unbroken 100 ms span that ends RETREAT. (R99) -/
  | reinsertion
  deriving DecidableEq, Repr

end Sys2Proof
end

