-- ==== Sys2Proof/Decode.lean ====
section
/-! DEFINITION. The words of the table of operations. The table gives no row any bits: a command arrives as an event
with its facts, not as a word (DESIGN CHOICE, log entry 6). -/

namespace Sys2Proof

/-- The command a word spells by the table's bits: none, since no row of the table gives bits. -/
def decodeTableWord (_nbits _w : Nat) : Option Instr := none

end Sys2Proof
end

