-- ==== Sys2Proof/Config.lean ====
section
/-! DEFINITION. The free values: what the spec leaves open, as constants without a body. -/

namespace Sys2Proof.Config

/-- A fresh value that the spec does not fix, 64 bits of it for each number drawn (DESIGN CHOICE, log entry 3). -/
opaque freeValue : Nat → BitVec 64

/-- The device root key, 32 bytes that no master or port can read (Table 5.1; DESIGN CHOICE, log entry 50). -/
opaque drk : BitVec 256

/-- The UUID of the MCTP endpoint, to which the spec gives no value (R444). -/
opaque uuid : BitVec 128

/-- The bytes of the boot ROM, which the spec does not print (Table 20.1; DESIGN CHOICE, log entry 64). -/
opaque bootRom : Nat → BitVec 8

/-- What the management hardware reads through a buffer base outside the shared pool, by address (DESIGN CHOICE, log entry 119). -/
opaque strayByte : Nat → BitVec 8

end Sys2Proof.Config
end

