-- ==== Sys2Proof/Machine/RegMap.lean ====
section
/-! DEFINITION. The register map: the address of every register of Tables 20.3 to 20.7 and of the task-register
file (Table 18.2), every named bit field with the table that defines it, and the table of access codes and reset
values that register accesses follow (R8, R10, R479). A register that is banked per core takes the bank's master. -/

namespace Sys2Proof

/-- A bit field of a register: the register's key and the field's highest and lowest bit. -/
structure Fld where
  reg : Nat
  hi : Nat
  lo : Nat
  deriving DecidableEq, Repr

/-- The access codes of R8. -/
inductive Acc where
  | RO | RW | WO | W1C | W1S | RC | RL
  deriving DecidableEq, Repr

/-- One field's row: its bits, access code and reset value. -/
structure FieldDesc where
  hi : Nat
  lo : Nat
  acc : Acc
  reset : Nat
  deriving DecidableEq, Repr

/-- One register's row: the first address, the number of registers, their stride, whether each core has a bank of
its own, and the fields that are not reserved. -/
structure RegDesc where
  addr : Nat
  count : Nat
  stride : Nat
  banked : Bool
  fields : List FieldDesc
  deriving DecidableEq, Repr

/-- The key of a master's bank of a banked register: bank m of address a is kept at a + 2^32 × (m + 1). -/
def bankKey (m : Master) (a : Nat) : Nat := a + 4294967296 * (m.idx + 1)

namespace R

def ID : Nat := 0x40000000
def ATB_CTL : Nat := 0x40001000
def ATB_STAT : Nat := 0x40001004
def ANGLE_LO : Nat := 0x40001008
def ANGLE_HI : Nat := 0x4000100C
def SPEED : Nat := 0x40001010
def PHASE : Nat := 0x40001014
def WINDOWS : Nat := 0x40001018
def AMP : Nat := 0x4000101C
def STEPAMT : Nat := 0x40001020
def COUNTS : Nat := 0x40001024
def ATB_IEN : Nat := 0x40001028
def ASC_CTL : Nat := 0x40002000
def ASC_STAT : Nat := 0x40002004
def ASC_CNT : Nat := 0x40002008
def STG_TGT (m : Master) : Nat := bankKey m (0x40002010)
def STG_CFG (m : Master) : Nat := bankKey m (0x40002014)
def STG_ARG (m : Master) : Nat := bankKey m (0x40002018)
def ASC_CMD (m : Master) : Nat := bankKey m (0x40002020)
def ASC_RES (m : Master) : Nat := bankKey m (0x40002024)
def PMX_CTL : Nat := 0x40011000
def PMX_STAT : Nat := 0x40011004
def PMX_REFUSE : Nat := 0x40011008
def PMX_STRAP : Nat := 0x4001100C
def GPIO_OUT : Nat := 0x40011010
def GPIO_OE : Nat := 0x40011014
def GPIO_IN : Nat := 0x40011018
def UART_CTL : Nat := 0x40011040
def UART_STAT : Nat := 0x40011044
def UART_TX : Nat := 0x40011048
def UART_RX : Nat := 0x4001104C
def PMX_PIN (n : Nat) : Nat := 0x40011100 + 4 * n
def PCM_MODE : Nat := 0x40010000
def PCM_CMD : Nat := 0x40010004
def PCM_STAT : Nat := 0x40010008
def PCM_CFG : Nat := 0x4001000C
def PCM_CAUSE : Nat := 0x40010010
def PCM_THAW : Nat := 0x40010014
def PCM_RAILS : Nat := 0x40010018
def PCM_CLK : Nat := 0x4001001C
def DRP_CTL : Nat := 0x40012000
def DRP_TIME : Nat := 0x40012004
def DRP_STAT : Nat := 0x40012008
def DRP_CNT : Nat := 0x4001200C
def DRP_SLT_LO : Nat := 0x40012010
def DRP_SLT_HI : Nat := 0x40012014
def DRP_IEN : Nat := 0x40012018
def SST_STAT : Nat := 0x4000D000
def SST_FAIL : Nat := 0x4000D004
def SST_SEG (n : Nat) : Nat := 0x4000D010 + 4 * n
def SST_REL : Nat := 0x4000D040
def SST_RUN : Nat := 0x4000D044
def SST_GATE : Nat := 0x4000D048
def SST_HSQ (n : Nat) : Nat := 0x4000D050 + 4 * n
def SST_VEC (n : Nat) : Nat := 0x4000D060 + 4 * n
def SST_WSQVEC : Nat := 0x4000D070
def SST_KLOCK : Nat := 0x4000D080
def SST_KCMD : Nat := 0x4000D090
def SST_KRES : Nat := 0x4000D094
def SST_KSALT (n : Nat) : Nat := 0x4000D0A0 + 4 * n
def SST_SCMD : Nat := 0x4000D0C0
def SST_SRES : Nat := 0x4000D0C4
def SST_DIG (n : Nat) : Nat := 0x4000D100 + 4 * n
def SST_SIGR (n : Nat) : Nat := 0x4000D140 + 4 * n
def SST_SIGS (n : Nat) : Nat := 0x4000D180 + 4 * n
def SST_DEVPUB (n : Nat) : Nat := 0x4000D200 + 4 * n
def SST_ALIASPUB (n : Nat) : Nat := 0x4000D260 + 4 * n
def SST_KEYHASH (n : Nat) : Nat := 0x4000D300 + 4 * n
def SST_FSTAT : Nat := 0x4000D3C0
def SST_FCMD : Nat := 0x4000D800
def SST_FRES : Nat := 0x4000D804
def MOR_CTL : Nat := 0x4000E000
def MOR_STAT : Nat := 0x4000E004
def MOR_NSEQ_LO : Nat := 0x4000E008
def MOR_NSEQ_HI : Nat := 0x4000E00C
def MOR_BOOT : Nat := 0x4000E010
def MOR_LOST_LO : Nat := 0x4000E014
def MOR_LOST_HI : Nat := 0x4000E018
def MOR_CNT : Nat := 0x4000E01C
def MOR_BED : Nat := 0x4000E020
def MOR_OLD_LO : Nat := 0x4000E024
def MOR_OLD_HI : Nat := 0x4000E028
def MOR_IEN : Nat := 0x4000E02C
def MOR_SCMD (m : Master) : Nat := bankKey m (0x4000E040)
def MOR_SRES (m : Master) : Nat := bankKey m (0x4000E044)
def MOR_RSEQ_LO (m : Master) : Nat := bankKey m (0x4000E048)
def MOR_RSEQ_HI (m : Master) : Nat := bankKey m (0x4000E04C)
def MOR_RCMD (m : Master) : Nat := bankKey m (0x4000E050)
def MOR_RRES (m : Master) : Nat := bankKey m (0x4000E054)
def MOR_SPAY (m : Master) (n : Nat) : Nat := bankKey m (0x4000E400 + 4 * n)
def MOR_RBUF (m : Master) (n : Nat) : Nat := bankKey m (0x4000E600 + 4 * n)
def STO_STAT : Nat := 0x4000F000
def STO_ERR : Nat := 0x4000F004
def STO_EADDR : Nat := 0x4000F008
def STO_CNT : Nat := 0x4000F00C
def STO_WPROT : Nat := 0x4000F010
def STO_BPD : Nat := 0x4000F014
def STO_BPDS : Nat := 0x4000F018
def STO_MARGIN : Nat := 0x4000F01C
def STO_MBAD : Nat := 0x4000F020
def STO_MBRES : Nat := 0x4000F024
def STO_IEN : Nat := 0x4000F030
def STO_DONE : Nat := 0x4000F034
def STO_BSTAT (n : Nat) : Nat := 0x4000F040 + 4 * n
def WSQ_STAT : Nat := 0x40003000
def WSQ_PC : Nat := 0x40003004
def WSQ_CTL : Nat := 0x40003008
def WSQ_FLAG : Nat := 0x4000300C
def WSQ_CNT : Nat := 0x40003010
def WSQ_ARG : Nat := 0x40003014
def WSQ_IEN : Nat := 0x40003018
def WSQ_PAQ : Nat := 0x40003020
def WSQ_RADDR : Nat := 0x40003030
def WSQ_RDATA (n : Nat) : Nat := 0x40003040 + 4 * n
def MSQ_STAT : Nat := 0x40003800
def MSQ_ROMID : Nat := 0x40003804
def MSQ_IMG : Nat := 0x40003808
def MSQ_CNT : Nat := 0x4000380C
def MSQ_MATCH (n : Nat) : Nat := 0x40003840 + 4 * n
def SRV_CTL : Nat := 0x40005000
def SRV_STAT : Nat := 0x40005004
def SRV_PES : Nat := 0x40005008
def SRV_PTRK : Nat := 0x4000500C
def SRV_TGT_TRK : Nat := 0x40005010
def SRV_TGT_OFF : Nat := 0x40005014
def SRV_WRLIM : Nat := 0x40005018
def SRV_SETTLE : Nat := 0x4000501C
def SRV_WOFF : Nat := 0x40005020
def SRV_TID : Nat := 0x40005024
def SRV_TIDW : Nat := 0x40005028
def SRV_RAW (n : Nat) : Nat := 0x40005030 + 4 * n
def SRV_ACAP_LO : Nat := 0x40005070
def SRV_ACAP_HI : Nat := 0x40005074
def SRV_HEAD (n : Nat) : Nat := 0x40005100 + 4 * n
def SRV_CMD_LO : Nat := 0x40005040
def SRV_CMD_HI : Nat := 0x40005044
def SRV_LNK : Nat := 0x40005048
def SRV_SENSE_LO : Nat := 0x4000504C
def SRV_SENSE_HI : Nat := 0x40005050
def SRV_LAT : Nat := 0x40005054
def SRV_LATLIM : Nat := 0x40005058
def SRV_CNT : Nat := 0x4000505C
def SRV_CNT2 : Nat := 0x40005060
def SRV_EVT : Nat := 0x40005064
def SRV_IEN : Nat := 0x40005068
def SRV_AIRQ : Nat := 0x4000506C
def FLNK_STAT : Nat := 0x40006000
def FLNK_SPD : Nat := 0x40006004
def FLNK_ACT : Nat := 0x40006008
def FLNK_PD : Nat := 0x4000600C
def FLNK_PDV : Nat := 0x40006010
def FLNK_VH : Nat := 0x40006014
def FLNK_FLT : Nat := 0x40006018
def FLNK_CFG : Nat := 0x4000601C
def FLNK_CFG2 : Nat := 0x40006020
def FLNK_PORT : Nat := 0x40006024
def FLNK_PRES : Nat := 0x40006028
def FLNK_CNT : Nat := 0x4000602C
def FLNK_IEN : Nat := 0x40006030
def HCTX_00 (n : Nat) : Nat := 0x40004200 + 32 * n
def HCTX_04 (n : Nat) : Nat := 0x40004204 + 32 * n
def HCTX_08 (n : Nat) : Nat := 0x40004208 + 32 * n
def HCTX_0C (n : Nat) : Nat := 0x4000420C + 32 * n
def HCTX_10 (n : Nat) : Nat := 0x40004210 + 32 * n
def HCTX_14 (n : Nat) : Nat := 0x40004214 + 32 * n
def HCTX_18 (n : Nat) : Nat := 0x40004218 + 32 * n
def HCTX_1C (n : Nat) : Nat := 0x4000421C + 32 * n
def CHN_CTL : Nat := 0x40004000
def CHN_ITER : Nat := 0x40004004
def CHN_ADAPT : Nat := 0x40004008
def CHN_STAT : Nat := 0x4000400C
def CHN_FLAG : Nat := 0x40004010
def CHN_IEN : Nat := 0x40004014
def CHN_DONEQ : Nat := 0x40004018
def CHN_FAILQ : Nat := 0x4000401C
def CHN_CMD : Nat := 0x40004020
def CHN_RDEC : Nat := 0x40004024
def CHN_RDRES : Nat := 0x40004028
def CHN_CNT : Nat := 0x40004030
def CHN_CNT2 : Nat := 0x40004034
def MOP0 (n : Nat) : Nat := 0x40004800 + 16 * n
def MOP1 (n : Nat) : Nat := 0x40004804 + 16 * n
def MOP2 (n : Nat) : Nat := 0x40004808 + 16 * n
def MOP3 (n : Nat) : Nat := 0x4000480C + 16 * n
def MOPS (n : Nat) : Nat := 0x40004600 + 4 * n
def FIRN_CTL : Nat := 0x40007000
def FIRN_STAT : Nat := 0x40007004
def FIRN_DTOTAL : Nat := 0x40007008
def FIRN_FLAG : Nat := 0x4000700C
def FIRN_IEN : Nat := 0x40007010
def FIRN_CNT0 : Nat := 0x40007014
def FIRN_CNT1 : Nat := 0x40007018
def FIRN_CNT2 : Nat := 0x4000701C
def FIRN_UEADDR : Nat := 0x40007020
def FIRN_RG_LO : Nat := 0x40007080
def FIRN_RG_HI : Nat := 0x40007084
def FIRN_RG_CNT : Nat := 0x40007088
def FIRN_RG_CMD : Nat := 0x4000708C
def FIRN_RG_STAT : Nat := 0x40007090
def FIRN_CLQ0 : Nat := 0x400070A0
def FIRN_CLQ1 : Nat := 0x400070A4
def FIRN_CLQ2 : Nat := 0x400070A8
def FIRN_CLQ3 : Nat := 0x400070AC
def FIRN_CLQ4 : Nat := 0x400070B0
def FIRN_CLQ5 : Nat := 0x400070B4
def FIRN_CLQPOP : Nat := 0x400070B8
def FIRN_WBDONE : Nat := 0x400070C0
def FIRN_WBM_LO : Nat := 0x400070C4
def FIRN_WBM_HI : Nat := 0x400070C8
def FIRN_PART (n : Nat) : Nat := 0x40007100 + 4 * n
def FIRN_CMASK (n : Nat) : Nat := 0x40007140 + 4 * n
def FIRN_DQ (n : Nat) : Nat := 0x40007180 + 4 * n
def FIRN_LKEY_LO (m : Master) : Nat := bankKey m (0x40007200)
def FIRN_LKEY_HI (m : Master) : Nat := bankKey m (0x40007204)
def FIRN_LCMD (m : Master) : Nat := bankKey m (0x40007208)
def FIRN_LRES0 (m : Master) : Nat := bankKey m (0x4000720C)
def FIRN_LRES1 (m : Master) : Nat := bankKey m (0x40007210)
def FIRN_LRES2 (m : Master) : Nat := bankKey m (0x40007214)
def FIRN_LV_LO (m : Master) : Nat := bankKey m (0x40007218)
def FIRN_LV_HI (m : Master) : Nat := bankKey m (0x4000721C)
def FIRN_LD_LO (m : Master) : Nat := bankKey m (0x40007220)
def FIRN_LD_HI (m : Master) : Nat := bankKey m (0x40007224)
def FIRN_LE_LO (m : Master) : Nat := bankKey m (0x40007228)
def FIRN_LE_HI (m : Master) : Nat := bankKey m (0x4000722C)
def FIRN_LL_LO (m : Master) : Nat := bankKey m (0x40007230)
def FIRN_LL_HI (m : Master) : Nat := bankKey m (0x40007234)
def FIRN_SCMD (m : Master) : Nat := bankKey m (0x40007240)
def FIRN_SMASK_LO (m : Master) : Nat := bankKey m (0x40007244)
def FIRN_SMASK_HI (m : Master) : Nat := bankKey m (0x40007248)
def FIRN_SFULL_LO (m : Master) : Nat := bankKey m (0x4000724C)
def FIRN_SFULL_HI (m : Master) : Nat := bankKey m (0x40007250)
def FIRN_SRES (m : Master) : Nat := bankKey m (0x40007254)
def FIRN_MKEY_LO (m : Master) : Nat := bankKey m (0x40007260)
def FIRN_MKEY_HI (m : Master) : Nat := bankKey m (0x40007264)
def FIRN_MCMD (m : Master) : Nat := bankKey m (0x40007268)
def FIRN_MRES (m : Master) : Nat := bankKey m (0x4000726C)
def FIRN_CCMD (m : Master) : Nat := bankKey m (0x40007270)
def FIRN_CRES (m : Master) : Nat := bankKey m (0x40007274)
def FIRN_CFRAME (m : Master) : Nat := bankKey m (0x40007278)
def RME_CTL : Nat := 0x40008000
def RME_STAT : Nat := 0x40008004
def RME_USE : Nat := 0x40008008
def RME_FLAG : Nat := 0x4000800C
def RME_IEN : Nat := 0x40008010
def RME_CNT : Nat := 0x40008014
def RME_CNT2 : Nat := 0x40008018
def RME_FIDX : Nat := 0x4000801C
def RME_LKEY_LO (m : Master) : Nat := bankKey m (0x40008100)
def RME_LKEY_HI (m : Master) : Nat := bankKey m (0x40008104)
def RME_LCMD (m : Master) : Nat := bankKey m (0x40008108)
def RME_LRES0 (m : Master) : Nat := bankKey m (0x4000810C)
def RME_LRES1 (m : Master) : Nat := bankKey m (0x40008110)
def RME_LRES2 (m : Master) : Nat := bankKey m (0x40008114)
def RME_LRES3 (m : Master) : Nat := bankKey m (0x40008118)
def RME_STG_00 (m : Master) (n : Nat) : Nat := bankKey m (0x40008200 + 32 * n)
def RME_STG_04 (m : Master) (n : Nat) : Nat := bankKey m (0x40008204 + 32 * n)
def RME_STG_08 (m : Master) (n : Nat) : Nat := bankKey m (0x40008208 + 32 * n)
def RME_STG_0C (m : Master) (n : Nat) : Nat := bankKey m (0x4000820C + 32 * n)
def RME_STG_10 (m : Master) (n : Nat) : Nat := bankKey m (0x40008210 + 32 * n)
def RME_SCMD (m : Master) : Nat := bankKey m (0x40008300)
def RME_SRES (m : Master) : Nat := bankKey m (0x40008304)
def DMA_CTL : Nat := 0x40009000
def DMA_MDBASE : Nat := 0x40009004
def DMA_STAT : Nat := 0x40009008
def DMA_EVT : Nat := 0x4000900C
def DMA_IEN : Nat := 0x40009010
def DMA_CNT : Nat := 0x40009014
def CHCFG (n : Nat) : Nat := 0x40009100 + 32 * n
def CHSTART (n : Nat) : Nat := 0x40009104 + 32 * n
def CHSTAT (n : Nat) : Nat := 0x40009108 + 32 * n
def CHDESC (n : Nat) : Nat := 0x4000910C + 32 * n
def CHDONE (n : Nat) : Nat := 0x40009110 + 32 * n
def CHCRC (n : Nat) : Nat := 0x40009114 + 32 * n
def CHCMD (n : Nat) : Nat := 0x40009118 + 32 * n
def CRY_SLOT (n : Nat) : Nat := 0x4000A000 + 4 * n
def CRY_STAT : Nat := 0x4000A040
def CRY_CNT : Nat := 0x4000A044
def BAR_ID : Nat := 0x900000000
def GCAP : Nat := 0x900000004
def HMWCTL : Nat := 0x900000080
def HMW_0 (n : Nat) : Nat := 0x900000100 + 16 * n
def HMW_4 (n : Nat) : Nat := 0x900000104 + 16 * n
def HMW_8 (n : Nat) : Nat := 0x900000108 + 16 * n
def HMW_C (n : Nat) : Nat := 0x90000010C + 16 * n
def SQ_0 (n : Nat) : Nat := 0x900000400 + 16 * n
def SQ_4 (n : Nat) : Nat := 0x900000404 + 16 * n
def SQ_8 (n : Nat) : Nat := 0x900000408 + 16 * n
def SQ_C (n : Nat) : Nat := 0x90000040C + 16 * n
def CQ_0 (n : Nat) : Nat := 0x900000800 + 16 * n
def CQ_4 (n : Nat) : Nat := 0x900000804 + 16 * n
def CQ_8 (n : Nat) : Nat := 0x900000808 + 16 * n
def CQ_C (n : Nat) : Nat := 0x90000080C + 16 * n
def DBP_0 (n : Nat) : Nat := 0x900000C00 + 8 * n
def DBP_4 (n : Nat) : Nat := 0x900000C04 + 8 * n
def UQI_CTL : Nat := 0x4000B000
def UQI_STAT : Nat := 0x4000B004
def UQI_CNT : Nat := 0x4000B008
def UQI_EVT : Nat := 0x4000B00C
def UQI_IEN : Nat := 0x4000B010
def UQI_DQ (m : Master) : Nat := bankKey m (0x4000B040)
def UQI_DQPOP (m : Master) : Nat := bankKey m (0x4000B044)
def UQI_CTSEL (m : Master) : Nat := bankKey m (0x4000B048)
def UQI_CPOST (m : Master) : Nat := bankKey m (0x4000B050)
def UQI_CPED (m : Master) : Nat := bankKey m (0x4000B054)
def UQI_CPSPEC (m : Master) : Nat := bankKey m (0x4000B058)
def UQI_CPRES (m : Master) : Nat := bankKey m (0x4000B05C)
def UQI_XBUF (m : Master) : Nat := bankKey m (0x4000B060)
def UQI_XOFF (m : Master) : Nat := bankKey m (0x4000B064)
def UQI_XLEN (m : Master) : Nat := bankKey m (0x4000B068)
def UQI_XCMD (m : Master) : Nat := bankKey m (0x4000B06C)
def UQI_XRES (m : Master) : Nat := bankKey m (0x4000B070)
def UQI_XDONE (m : Master) : Nat := bankKey m (0x4000B074)
def UQI_XPOP (m : Master) : Nat := bankKey m (0x4000B078)
def UQI_CTDATA (m : Master) (n : Nat) : Nat := bankKey m (0x4000B080 + 4 * n)
def UQI_RPARTY (n : Nat) : Nat := 0x4000B100 + 4 * n
def UQI_CTEXT_0 (m : Master) (n : Nat) : Nat := bankKey m (0x4000B0C0 + 8 * n)
def UQI_CTEXT_4 (m : Master) (n : Nat) : Nat := bankKey m (0x4000B0C4 + 8 * n)
def UQI_PCFG (n : Nat) : Nat := 0x4000B200 + 4 * n
def ORD_CTL : Nat := 0x40002100
def ORD_STAT : Nat := 0x40002104
def ORD_NEXT : Nat := 0x40002108
def ORD_ACK : Nat := 0x4000210C
def ORD_DBASE : Nat := 0x40002110
def ORD_DMA : Nat := 0x40002114
def ORD_SEEK (n : Nat) : Nat := 0x40002140 + 4 * n
def ORD_SHARE (n : Nat) : Nat := 0x40002180 + 4 * n
def ORD_ZONE_0 (n : Nat) : Nat := 0x40002200 + 16 * n
def ORD_ZONE_4 (n : Nat) : Nat := 0x40002204 + 16 * n
def ORD_ZONE_8 (n : Nat) : Nat := 0x40002208 + 16 * n
def ORD_ZONE_C (n : Nat) : Nat := 0x4000220C + 16 * n
def ORD_RQ0 (m : Master) : Nat := bankKey m (0x40002600)
def ORD_RQ1 (m : Master) : Nat := bankKey m (0x40002604)
def ORD_RQ2 (m : Master) : Nat := bankKey m (0x40002608)
def ORD_RQ3 (m : Master) : Nat := bankKey m (0x4000260C)
def ORD_RQRES (m : Master) : Nat := bankKey m (0x40002610)
def ORD_RES0 (m : Master) : Nat := bankKey m (0x40002614)
def ORD_RES1 (m : Master) : Nat := bankKey m (0x40002618)
def ORD_RES2 (m : Master) : Nat := bankKey m (0x4000261C)
def ORD_RESPOP (m : Master) : Nat := bankKey m (0x40002620)
def ORD_EVT (m : Master) : Nat := bankKey m (0x40002624)
def ORD_IEN (m : Master) : Nat := bankKey m (0x40002628)
def ISO_CTL : Nat := 0x4000C800
def ISO_STAT : Nat := 0x4000C804
def ISO_ECNT_0 (n : Nat) : Nat := 0x4000C840 + 8 * n
def ISO_ECNT_4 (n : Nat) : Nat := 0x4000C844 + 8 * n
def TRF_CMD : Nat := 0xA00000000
def TRF_ARG (n : Nat) : Nat := 0xA00000004 + 4 * n
def TRF_STAT : Nat := 0xA00000020
def TRF_RES (n : Nat) : Nat := 0xA00000024 + 4 * n
def TRF_DCNT : Nat := 0xA00000038
def TRF_DATA : Nat := 0xA0000003C
def MGT_CTL : Nat := 0x4000C000
def MGT_STAT : Nat := 0x4000C004
def MGT_TAKE : Nat := 0x4000C008
def MGT_DONE : Nat := 0x4000C00C
def MGT_TRF (n : Nat) : Nat := 0x4000C040 + 4 * n
def MGT_DBASE : Nat := 0x4000C080
def MGT_DLEN : Nat := 0x4000C084
def MGT_MRXBASE : Nat := 0x4000C088
def MGT_MRX : Nat := 0x4000C08C
def MGT_MTXBASE : Nat := 0x4000C090
def MGT_MTX : Nat := 0x4000C094
def MGT_EID : Nat := 0x4000C098
def MGT_CNT : Nat := 0x4000C0A0
def MGT_MEAS (n : Nat) : Nat := 0x4000C400 + 4 * n
def MGT_ACLEN : Nat := 0x4000C5FC
def MGT_ACERT (n : Nat) : Nat := 0x4000C600 + 4 * n
def GLB_AF : Nat := 0x40000010
def GLB_AFADDR : Nat := 0x40000014
def GLB_AFCNT : Nat := 0x40000018
def GLB_BARERR : Nat := 0x4000001C

end R

namespace F

def ID_PART : Fld := ⟨R.ID, 31, 16⟩
def ID_GRADE : Fld := ⟨R.ID, 15, 12⟩
def ID_STEP : Fld := ⟨R.ID, 7, 0⟩
def ATB_CTL_EN : Fld := ⟨R.ATB_CTL, 0, 0⟩
def ATB_CTL_HOLD_REVS : Fld := ⟨R.ATB_CTL, 7, 4⟩
def ATB_CTL_ACQ_REVS : Fld := ⟨R.ATB_CTL, 11, 8⟩
def ATB_CTL_COAST_RPM : Fld := ⟨R.ATB_CTL, 29, 16⟩
def ATB_STAT_STATE : Fld := ⟨R.ATB_STAT, 1, 0⟩
def ATB_STAT_EVERLOCKED : Fld := ⟨R.ATB_STAT, 2, 2⟩
def ATB_STAT_SIGOK : Fld := ⟨R.ATB_STAT, 3, 3⟩
def ATB_STAT_HOLD : Fld := ⟨R.ATB_STAT, 4, 4⟩
def ATB_STAT_LOSS : Fld := ⟨R.ATB_STAT, 8, 8⟩
def ATB_STAT_STEP : Fld := ⟨R.ATB_STAT, 9, 9⟩
def ATB_STAT_ACQFAIL : Fld := ⟨R.ATB_STAT, 10, 10⟩
def ATB_STAT_IDXMISS : Fld := ⟨R.ATB_STAT, 11, 11⟩
def ATB_STAT_LOCK : Fld := ⟨R.ATB_STAT, 12, 12⟩
def ANGLE_LO_ANGLE : Fld := ⟨R.ANGLE_LO, 31, 0⟩
def ANGLE_HI_REV : Fld := ⟨R.ANGLE_HI, 31, 0⟩
def SPEED_SPEED : Fld := ⟨R.SPEED, 17, 0⟩
def PHASE_PHERR : Fld := ⟨R.PHASE, 15, 0⟩
def PHASE_PHPEAK : Fld := ⟨R.PHASE, 31, 16⟩
def WINDOWS_LOCKWIN : Fld := ⟨R.WINDOWS, 11, 0⟩
def WINDOWS_LOSSWIN : Fld := ⟨R.WINDOWS, 27, 16⟩
def AMP_AMP_NOW : Fld := ⟨R.AMP, 7, 0⟩
def AMP_AMP_MIN : Fld := ⟨R.AMP, 23, 16⟩
def STEPAMT_STEPAMT : Fld := ⟨R.STEPAMT, 31, 0⟩
def COUNTS_LOSS_CNT : Fld := ⟨R.COUNTS, 7, 0⟩
def COUNTS_ACQFAIL_CNT : Fld := ⟨R.COUNTS, 15, 8⟩
def COUNTS_IDXMISS_CNT : Fld := ⟨R.COUNTS, 23, 16⟩
def ATB_IEN_SRC : Fld := ⟨R.ATB_IEN, 4, 0⟩
def ATB_IEN_TO_SV : Fld := ⟨R.ATB_IEN, 8, 8⟩
def ATB_IEN_TO_MC : Fld := ⟨R.ATB_IEN, 9, 9⟩
def ASC_CTL_HWORD : Fld := ⟨R.ASC_CTL, 0, 0⟩
def ASC_CTL_FLUSH : Fld := ⟨R.ASC_CTL, 1, 1⟩
def ASC_STAT_VALID_CNT : Fld := ⟨R.ASC_STAT, 8, 0⟩
def ASC_STAT_MEDIA_CNT : Fld := ⟨R.ASC_STAT, 23, 16⟩
def ASC_CNT_LATE_CNT : Fld := ⟨R.ASC_CNT, 15, 0⟩
def ASC_CNT_SUPP_CNT : Fld := ⟨R.ASC_CNT, 31, 16⟩
def STG_TGT_TGT (m : Master) : Fld := ⟨R.STG_TGT m, 31, 0⟩
def STG_CFG_CLASS (m : Master) : Fld := ⟨R.STG_CFG m, 3, 0⟩
def STG_CFG_DOM (m : Master) : Fld := ⟨R.STG_CFG m, 8, 4⟩
def STG_CFG_REVQ (m : Master) : Fld := ⟨R.STG_CFG m, 9, 9⟩
def STG_CFG_REV (m : Master) : Fld := ⟨R.STG_CFG m, 31, 16⟩
def STG_ARG_ARG (m : Master) : Fld := ⟨R.STG_ARG m, 15, 0⟩
def STG_ARG_PERIOD (m : Master) : Fld := ⟨R.STG_ARG m, 31, 16⟩
def ASC_CMD_INDEX (m : Master) : Fld := ⟨R.ASC_CMD m, 7, 0⟩
def ASC_CMD_OP (m : Master) : Fld := ⟨R.ASC_CMD m, 9, 8⟩
def ASC_RES_RESULT (m : Master) : Fld := ⟨R.ASC_RES m, 3, 0⟩
def ASC_RES_NEXTREV (m : Master) : Fld := ⟨R.ASC_RES m, 8, 8⟩
def ASC_RES_LATE (m : Master) : Fld := ⟨R.ASC_RES m, 9, 9⟩
def ASC_RES_ENT_STATE (m : Master) : Fld := ⟨R.ASC_RES m, 14, 12⟩
def PMX_CTL_COMMIT : Fld := ⟨R.PMX_CTL, 0, 0⟩
def PMX_STAT_BUSY : Fld := ⟨R.PMX_STAT, 0, 0⟩
def PMX_STAT_RESULT : Fld := ⟨R.PMX_STAT, 3, 1⟩
def PMX_STAT_IGN : Fld := ⟨R.PMX_STAT, 4, 4⟩
def PMX_REFUSE_PINS : Fld := ⟨R.PMX_REFUSE, 23, 0⟩
def PMX_STRAP_PCIE_X2 : Fld := ⟨R.PMX_STRAP, 0, 0⟩
def PMX_STRAP_PA_CNT : Fld := ⟨R.PMX_STRAP, 1, 1⟩
def PMX_STRAP_I3C_SA : Fld := ⟨R.PMX_STRAP, 3, 2⟩
def GPIO_OUT_OUT : Fld := ⟨R.GPIO_OUT, 23, 0⟩
def GPIO_OE_OE : Fld := ⟨R.GPIO_OE, 23, 0⟩
def GPIO_IN_IN : Fld := ⟨R.GPIO_IN, 23, 0⟩
def UART_CTL_DIV : Fld := ⟨R.UART_CTL, 15, 0⟩
def UART_CTL_EN : Fld := ⟨R.UART_CTL, 16, 16⟩
def UART_CTL_POP : Fld := ⟨R.UART_CTL, 17, 17⟩
def UART_STAT_TXBUSY : Fld := ⟨R.UART_STAT, 0, 0⟩
def UART_STAT_RXBUSY : Fld := ⟨R.UART_STAT, 1, 1⟩
def UART_STAT_TXFULL : Fld := ⟨R.UART_STAT, 2, 2⟩
def UART_STAT_RXAVAIL : Fld := ⟨R.UART_STAT, 3, 3⟩
def UART_STAT_FRERR : Fld := ⟨R.UART_STAT, 8, 8⟩
def UART_STAT_OVR : Fld := ⟨R.UART_STAT, 9, 9⟩
def UART_STAT_PINLOST : Fld := ⟨R.UART_STAT, 10, 10⟩
def UART_TX_DATA : Fld := ⟨R.UART_TX, 7, 0⟩
def UART_RX_DATA : Fld := ⟨R.UART_RX, 7, 0⟩
def PMX_PIN_SEL (n : Nat) : Fld := ⟨R.PMX_PIN n, 1, 0⟩
def PMX_PIN_ACT (n : Nat) : Fld := ⟨R.PMX_PIN n, 5, 4⟩
def PMX_PIN_PULL (n : Nat) : Fld := ⟨R.PMX_PIN n, 9, 8⟩
def PMX_PIN_PARK (n : Nat) : Fld := ⟨R.PMX_PIN n, 11, 10⟩
def PMX_PIN_DRV (n : Nat) : Fld := ⟨R.PMX_PIN n, 13, 12⟩
def PMX_PIN_FORCE (n : Nat) : Fld := ⟨R.PMX_PIN n, 14, 14⟩
def PMX_PIN_LOCK (n : Nat) : Fld := ⟨R.PMX_PIN n, 16, 16⟩
def PMX_PIN_PEND (n : Nat) : Fld := ⟨R.PMX_PIN n, 17, 17⟩
def PMX_PIN_LOST (n : Nat) : Fld := ⟨R.PMX_PIN n, 18, 18⟩
def PCM_MODE_MODE : Fld := ⟨R.PCM_MODE, 2, 0⟩
def PCM_MODE_PREV : Fld := ⟨R.PCM_MODE, 6, 4⟩
def PCM_MODE_REASON : Fld := ⟨R.PCM_MODE, 19, 16⟩
def PCM_CMD_REQ : Fld := ⟨R.PCM_CMD, 2, 0⟩
def PCM_STAT_PEND : Fld := ⟨R.PCM_STAT, 0, 0⟩
def PCM_STAT_TARGET : Fld := ⟨R.PCM_STAT, 3, 1⟩
def PCM_STAT_RESULT : Fld := ⟨R.PCM_STAT, 7, 4⟩
def PCM_STAT_DENIED : Fld := ⟨R.PCM_STAT, 8, 8⟩
def PCM_STAT_RDONE : Fld := ⟨R.PCM_STAT, 9, 9⟩
def PCM_CFG_QTO : Fld := ⟨R.PCM_CFG, 7, 0⟩
def PCM_CAUSE_CAUSE : Fld := ⟨R.PCM_CAUSE, 6, 0⟩
def PCM_THAW_SRC : Fld := ⟨R.PCM_THAW, 1, 0⟩
def PCM_RAILS_OK : Fld := ⟨R.PCM_RAILS, 12, 0⟩
def PCM_CLK_RUN : Fld := ⟨R.PCM_CLK, 24, 0⟩
def DRP_CTL_SLOW : Fld := ⟨R.DRP_CTL, 7, 0⟩
def DRP_CTL_REL : Fld := ⟨R.DRP_CTL, 15, 8⟩
def DRP_CTL_DEEP : Fld := ⟨R.DRP_CTL, 23, 16⟩
def DRP_TIME_RELHOLD : Fld := ⟨R.DRP_TIME, 7, 0⟩
def DRP_TIME_DEEP_FILT : Fld := ⟨R.DRP_TIME, 15, 8⟩
def DRP_STAT_SLOWED : Fld := ⟨R.DRP_STAT, 0, 0⟩
def DRP_STAT_DEEPHIT : Fld := ⟨R.DRP_STAT, 1, 1⟩
def DRP_STAT_NOW : Fld := ⟨R.DRP_STAT, 15, 8⟩
def DRP_STAT_MINSEEN : Fld := ⟨R.DRP_STAT, 23, 16⟩
def DRP_CNT_SLOW_CNT : Fld := ⟨R.DRP_CNT, 15, 0⟩
def DRP_SLT_LO_SLT : Fld := ⟨R.DRP_SLT_LO, 31, 0⟩
def DRP_SLT_HI_SLT : Fld := ⟨R.DRP_SLT_HI, 31, 0⟩
def DRP_IEN_EPI : Fld := ⟨R.DRP_IEN, 0, 0⟩
def SST_STAT_LIFECYCLE : Fld := ⟨R.SST_STAT, 0, 0⟩
def SST_STAT_SLOT : Fld := ⟨R.SST_STAT, 1, 1⟩
def SST_STAT_FALLBACK : Fld := ⟨R.SST_STAT, 2, 2⟩
def SST_STAT_RECOVERY : Fld := ⟨R.SST_STAT, 3, 3⟩
def SST_STAT_HDRSIG : Fld := ⟨R.SST_STAT, 5, 4⟩
def SST_STAT_SEC2OK : Fld := ⟨R.SST_STAT, 8, 8⟩
def SST_STAT_SVOK : Fld := ⟨R.SST_STAT, 9, 9⟩
def SST_STAT_ALLOK : Fld := ⟨R.SST_STAT, 10, 10⟩
def SST_FAIL_SEG : Fld := ⟨R.SST_FAIL, 2, 0⟩
def SST_FAIL_CAUSE : Fld := ⟨R.SST_FAIL, 7, 4⟩
def SST_FAIL_FAILMASK : Fld := ⟨R.SST_FAIL, 9, 8⟩
def SST_SEG_LOADED (n : Nat) : Fld := ⟨R.SST_SEG n, 4, 0⟩
def SST_SEG_HASHED (n : Nat) : Fld := ⟨R.SST_SEG n, 12, 8⟩
def SST_SEG_NBLK (n : Nat) : Fld := ⟨R.SST_SEG n, 20, 16⟩
def SST_SEG_RESULT (n : Nat) : Fld := ⟨R.SST_SEG n, 25, 24⟩
def SST_REL_REL : Fld := ⟨R.SST_REL, 2, 0⟩
def SST_RUN_RUN : Fld := ⟨R.SST_RUN, 4, 0⟩
def SST_RUN_RELERR : Fld := ⟨R.SST_RUN, 8, 8⟩
def SST_GATE_GATED : Fld := ⟨R.SST_GATE, 2, 0⟩
def SST_GATE_HOSTG : Fld := ⟨R.SST_GATE, 4, 4⟩
def SST_HSQ_COUNT (n : Nat) : Fld := ⟨R.SST_HSQ n, 10, 0⟩
def SST_HSQ_PEAK (n : Nat) : Fld := ⟨R.SST_HSQ n, 26, 16⟩
def SST_HSQ_STALL (n : Nat) : Fld := ⟨R.SST_HSQ n, 27, 27⟩
def SST_VEC_VEC (n : Nat) : Fld := ⟨R.SST_VEC n, 31, 0⟩
def SST_WSQVEC_VEC : Fld := ⟨R.SST_WSQVEC, 13, 0⟩
def SST_KLOCK_DRK_USELOCK : Fld := ⟨R.SST_KLOCK, 0, 0⟩
def SST_KLOCK_MEK_USELOCK : Fld := ⟨R.SST_KLOCK, 1, 1⟩
def SST_KLOCK_ALIAS_USELOCK : Fld := ⟨R.SST_KLOCK, 2, 2⟩
def SST_KCMD_OP : Fld := ⟨R.SST_KCMD, 1, 0⟩
def SST_KCMD_PARTY : Fld := ⟨R.SST_KCMD, 7, 4⟩
def SST_KRES_BUSY : Fld := ⟨R.SST_KRES, 0, 0⟩
def SST_KRES_RESULT : Fld := ⟨R.SST_KRES, 2, 1⟩
def SST_KSALT_SALT (n : Nat) : Fld := ⟨R.SST_KSALT n, 31, 0⟩
def SST_SCMD_GO : Fld := ⟨R.SST_SCMD, 0, 0⟩
def SST_SRES_BUSY : Fld := ⟨R.SST_SRES, 0, 0⟩
def SST_SRES_RESULT : Fld := ⟨R.SST_SRES, 2, 1⟩
def SST_DIG_DIG (n : Nat) : Fld := ⟨R.SST_DIG n, 31, 0⟩
def SST_SIGR_R (n : Nat) : Fld := ⟨R.SST_SIGR n, 31, 0⟩
def SST_SIGS_S (n : Nat) : Fld := ⟨R.SST_SIGS n, 31, 0⟩
def SST_DEVPUB_PUB (n : Nat) : Fld := ⟨R.SST_DEVPUB n, 31, 0⟩
def SST_ALIASPUB_PUB (n : Nat) : Fld := ⟨R.SST_ALIASPUB n, 31, 0⟩
def SST_KEYHASH_HASH (n : Nat) : Fld := ⟨R.SST_KEYHASH n, 31, 0⟩
def SST_FSTAT_LIFECYCLE : Fld := ⟨R.SST_FSTAT, 0, 0⟩
def SST_FSTAT_KEYREV : Fld := ⟨R.SST_FSTAT, 7, 4⟩
def SST_FSTAT_SVN : Fld := ⟨R.SST_FSTAT, 14, 8⟩
def SST_FSTAT_TARGET_RPM : Fld := ⟨R.SST_FSTAT, 29, 16⟩
def SST_FCMD_OP : Fld := ⟨R.SST_FCMD, 3, 0⟩
def SST_FCMD_ARG : Fld := ⟨R.SST_FCMD, 5, 4⟩
def SST_FCMD_VALUE : Fld := ⟨R.SST_FCMD, 29, 16⟩
def SST_FRES_BUSY : Fld := ⟨R.SST_FRES, 0, 0⟩
def SST_FRES_RESULT : Fld := ⟨R.SST_FRES, 2, 1⟩
def MOR_CTL_SEAL_MAX : Fld := ⟨R.MOR_CTL, 7, 0⟩
def MOR_CTL_SEAL_NOW : Fld := ⟨R.MOR_CTL, 8, 8⟩
def MOR_STAT_READY : Fld := ⟨R.MOR_STAT, 0, 0⟩
def MOR_STAT_PROG : Fld := ⟨R.MOR_STAT, 1, 1⟩
def MOR_STAT_SIGWAIT : Fld := ⟨R.MOR_STAT, 2, 2⟩
def MOR_STAT_ERASING : Fld := ⟨R.MOR_STAT, 3, 3⟩
def MOR_STAT_FIFO_CNT : Fld := ⟨R.MOR_STAT, 10, 4⟩
def MOR_STAT_LOSTEV : Fld := ⟨R.MOR_STAT, 16, 16⟩
def MOR_STAT_PFAIL : Fld := ⟨R.MOR_STAT, 17, 17⟩
def MOR_STAT_EFAIL : Fld := ⟨R.MOR_STAT, 18, 18⟩
def MOR_STAT_REFUSED : Fld := ⟨R.MOR_STAT, 19, 19⟩
def MOR_NSEQ_LO_NSEQ : Fld := ⟨R.MOR_NSEQ_LO, 31, 0⟩
def MOR_NSEQ_HI_NSEQ : Fld := ⟨R.MOR_NSEQ_HI, 31, 0⟩
def MOR_BOOT_BOOT : Fld := ⟨R.MOR_BOOT, 31, 0⟩
def MOR_LOST_LO_LOST : Fld := ⟨R.MOR_LOST_LO, 31, 0⟩
def MOR_LOST_HI_LOST : Fld := ⟨R.MOR_LOST_HI, 31, 0⟩
def MOR_CNT_PFAIL_CNT : Fld := ⟨R.MOR_CNT, 7, 0⟩
def MOR_CNT_EFAIL_CNT : Fld := ⟨R.MOR_CNT, 15, 8⟩
def MOR_CNT_TORN_CNT : Fld := ⟨R.MOR_CNT, 23, 16⟩
def MOR_CNT_FIFO_PEAK : Fld := ⟨R.MOR_CNT, 30, 24⟩
def MOR_BED_BEDN : Fld := ⟨R.MOR_BED, 12, 0⟩
def MOR_BED_WSLOT : Fld := ⟨R.MOR_BED, 28, 16⟩
def MOR_OLD_LO_OLD : Fld := ⟨R.MOR_OLD_LO, 31, 0⟩
def MOR_OLD_HI_OLD : Fld := ⟨R.MOR_OLD_HI, 31, 0⟩
def MOR_IEN_SRC : Fld := ⟨R.MOR_IEN, 3, 0⟩
def MOR_IEN_TO_SEC : Fld := ⟨R.MOR_IEN, 8, 8⟩
def MOR_IEN_TO_MC : Fld := ⟨R.MOR_IEN, 9, 9⟩
def MOR_SCMD_CODE (m : Master) : Fld := ⟨R.MOR_SCMD m, 15, 0⟩
def MOR_SCMD_PLEN (m : Master) : Fld := ⟨R.MOR_SCMD m, 24, 16⟩
def MOR_SCMD_PARTY (m : Master) : Fld := ⟨R.MOR_SCMD m, 29, 25⟩
def MOR_SRES_RESULT (m : Master) : Fld := ⟨R.MOR_SRES m, 1, 0⟩
def MOR_RSEQ_LO_RSEQ (m : Master) : Fld := ⟨R.MOR_RSEQ_LO m, 31, 0⟩
def MOR_RSEQ_HI_RSEQ (m : Master) : Fld := ⟨R.MOR_RSEQ_HI m, 31, 0⟩
def MOR_RCMD_GO (m : Master) : Fld := ⟨R.MOR_RCMD m, 0, 0⟩
def MOR_RRES_BUSY (m : Master) : Fld := ⟨R.MOR_RRES m, 0, 0⟩
def MOR_RRES_RESULT (m : Master) : Fld := ⟨R.MOR_RRES m, 3, 1⟩
def MOR_RRES_SLOT (m : Master) : Fld := ⟨R.MOR_RRES m, 16, 4⟩
def MOR_SPAY_PAY (m : Master) (n : Nat) : Fld := ⟨R.MOR_SPAY m n, 31, 0⟩
def MOR_RBUF_DATA (m : Master) (n : Nat) : Fld := ⟨R.MOR_RBUF m n, 31, 0⟩
def STO_STAT_READY : Fld := ⟨R.STO_STAT, 0, 0⟩
def STO_STAT_INCANY : Fld := ⟨R.STO_STAT, 1, 1⟩
def STO_STAT_FBCOUNT : Fld := ⟨R.STO_STAT, 15, 8⟩
def STO_STAT_GBCOUNT : Fld := ⟨R.STO_STAT, 26, 16⟩
def STO_ERR_CAUSE : Fld := ⟨R.STO_ERR, 3, 0⟩
def STO_ERR_MASTER : Fld := ⟨R.STO_ERR, 15, 8⟩
def STO_ERR_NEW : Fld := ⟨R.STO_ERR, 16, 16⟩
def STO_EADDR_ADDR : Fld := ⟨R.STO_EADDR, 27, 0⟩
def STO_CNT_SEQERR_CNT : Fld := ⟨R.STO_CNT, 7, 0⟩
def STO_CNT_REFUSE_CNT : Fld := ⟨R.STO_CNT, 15, 8⟩
def STO_CNT_PFAIL_CNT : Fld := ⟨R.STO_CNT, 23, 16⟩
def STO_CNT_EFAIL_CNT : Fld := ⟨R.STO_CNT, 31, 24⟩
def STO_WPROT_PROT : Fld := ⟨R.STO_WPROT, 5, 0⟩
def STO_WPROT_LOCK : Fld := ⟨R.STO_WPROT, 31, 31⟩
def STO_BPD_REQ : Fld := ⟨R.STO_BPD, 15, 0⟩
def STO_BPDS_DOWN : Fld := ⟨R.STO_BPDS, 15, 0⟩
def STO_MARGIN_PVOFF : Fld := ⟨R.STO_MARGIN, 3, 0⟩
def STO_MARGIN_EVOFF : Fld := ⟨R.STO_MARGIN, 7, 4⟩
def STO_MBAD_SECTOR : Fld := ⟨R.STO_MBAD, 11, 0⟩
def STO_MBAD_CAUSE : Fld := ⟨R.STO_MBAD, 14, 12⟩
def STO_MBRES_BUSY : Fld := ⟨R.STO_MBRES, 0, 0⟩
def STO_MBRES_RESULT : Fld := ⟨R.STO_MBRES, 2, 1⟩
def STO_IEN_DONE : Fld := ⟨R.STO_IEN, 0, 0⟩
def STO_IEN_ERR : Fld := ⟨R.STO_IEN, 1, 1⟩
def STO_IEN_TO_SEC : Fld := ⟨R.STO_IEN, 8, 8⟩
def STO_IEN_TO_MC : Fld := ⟨R.STO_IEN, 9, 9⟩
def STO_DONE_BANK : Fld := ⟨R.STO_DONE, 15, 0⟩
def STO_BSTAT_RDY (n : Nat) : Fld := ⟨R.STO_BSTAT n, 0, 0⟩
def STO_BSTAT_PROG (n : Nat) : Fld := ⟨R.STO_BSTAT n, 1, 1⟩
def STO_BSTAT_ERASE (n : Nat) : Fld := ⟨R.STO_BSTAT n, 2, 2⟩
def STO_BSTAT_ESUSP (n : Nat) : Fld := ⟨R.STO_BSTAT n, 3, 3⟩
def STO_BSTAT_INC (n : Nat) : Fld := ⟨R.STO_BSTAT n, 4, 4⟩
def STO_BSTAT_PD (n : Nat) : Fld := ⟨R.STO_BSTAT n, 5, 5⟩
def STO_BSTAT_FAILED (n : Nat) : Fld := ⟨R.STO_BSTAT n, 6, 6⟩
def STO_BSTAT_SECT (n : Nat) : Fld := ⟨R.STO_BSTAT n, 19, 8⟩
def WSQ_STAT_RUN : Fld := ⟨R.WSQ_STAT, 0, 0⟩
def WSQ_STAT_HALT : Fld := ⟨R.WSQ_STAT, 1, 1⟩
def WSQ_STAT_PEND : Fld := ⟨R.WSQ_STAT, 2, 2⟩
def WSQ_STAT_SGATE : Fld := ⟨R.WSQ_STAT, 3, 3⟩
def WSQ_STAT_DEPTH : Fld := ⟨R.WSQ_STAT, 6, 4⟩
def WSQ_STAT_PAQ_CNT : Fld := ⟨R.WSQ_STAT, 19, 16⟩
def WSQ_PC_PC : Fld := ⟨R.WSQ_PC, 13, 0⟩
def WSQ_PC_RSM : Fld := ⟨R.WSQ_PC, 29, 16⟩
def WSQ_CTL_WDLIM : Fld := ⟨R.WSQ_CTL, 15, 0⟩
def WSQ_FLAG_WDOG : Fld := ⟨R.WSQ_FLAG, 0, 0⟩
def WSQ_FLAG_ILL : Fld := ⟨R.WSQ_FLAG, 1, 1⟩
def WSQ_FLAG_WINOVR : Fld := ⟨R.WSQ_FLAG, 2, 2⟩
def WSQ_FLAG_PAQFULL : Fld := ⟨R.WSQ_FLAG, 3, 3⟩
def WSQ_FLAG_PAFLT : Fld := ⟨R.WSQ_FLAG, 4, 4⟩
def WSQ_CNT_WDOG_CNT : Fld := ⟨R.WSQ_CNT, 7, 0⟩
def WSQ_CNT_ILL_CNT : Fld := ⟨R.WSQ_CNT, 15, 8⟩
def WSQ_CNT_WINOVR_CNT : Fld := ⟨R.WSQ_CNT, 23, 16⟩
def WSQ_ARG_ARG : Fld := ⟨R.WSQ_ARG, 15, 0⟩
def WSQ_IEN_SRC : Fld := ⟨R.WSQ_IEN, 4, 0⟩
def WSQ_IEN_TO_SV : Fld := ⟨R.WSQ_IEN, 8, 8⟩
def WSQ_IEN_TO_MC : Fld := ⟨R.WSQ_IEN, 9, 9⟩
def WSQ_PAQ_DATA : Fld := ⟨R.WSQ_PAQ, 15, 0⟩
def WSQ_PAQ_PASEL : Fld := ⟨R.WSQ_PAQ, 16, 16⟩
def WSQ_RADDR_ADDR : Fld := ⟨R.WSQ_RADDR, 13, 0⟩
def WSQ_RDATA_DATA (n : Nat) : Fld := ⟨R.WSQ_RDATA n, 31, 0⟩
def MSQ_STAT_STATE : Fld := ⟨R.MSQ_STAT, 1, 0⟩
def MSQ_STAT_RESULT : Fld := ⟨R.MSQ_STAT, 7, 4⟩
def MSQ_ROMID_ROMID : Fld := ⟨R.MSQ_ROMID, 15, 0⟩
def MSQ_IMG_ROMID : Fld := ⟨R.MSQ_IMG, 15, 0⟩
def MSQ_IMG_NMATCH : Fld := ⟨R.MSQ_IMG, 20, 16⟩
def MSQ_IMG_NWORD : Fld := ⟨R.MSQ_IMG, 30, 24⟩
def MSQ_CNT_RELOAD_CNT : Fld := ⟨R.MSQ_CNT, 7, 0⟩
def MSQ_CNT_XFER_CNT : Fld := ⟨R.MSQ_CNT, 15, 8⟩
def MSQ_MATCH_MATCH (n : Nat) : Fld := ⟨R.MSQ_MATCH n, 31, 0⟩
def SRV_CTL_MODE : Fld := ⟨R.SRV_CTL, 1, 0⟩
def SRV_CTL_TRCEN : Fld := ⟨R.SRV_CTL, 4, 4⟩
def SRV_CTL_MISSLIM : Fld := ⟨R.SRV_CTL, 15, 8⟩
def SRV_CTL_SHKHOLD : Fld := ⟨R.SRV_CTL, 23, 16⟩
def SRV_STAT_PVALID : Fld := ⟨R.SRV_STAT, 0, 0⟩
def SRV_STAT_WUS : Fld := ⟨R.SRV_STAT, 1, 1⟩
def SRV_STAT_ONTRK : Fld := ⟨R.SRV_STAT, 2, 2⟩
def SRV_STAT_SVWIN : Fld := ⟨R.SRV_STAT, 3, 3⟩
def SRV_STAT_HEAD : Fld := ⟨R.SRV_STAT, 8, 4⟩
def SRV_STAT_WEDGE : Fld := ⟨R.SRV_STAT, 17, 9⟩
def SRV_STAT_ATBST : Fld := ⟨R.SRV_STAT, 19, 18⟩
def SRV_STAT_CAUSE : Fld := ⟨R.SRV_STAT, 23, 20⟩
def SRV_STAT_MISSRUN : Fld := ⟨R.SRV_STAT, 31, 24⟩
def SRV_PES_PES : Fld := ⟨R.SRV_PES, 15, 0⟩
def SRV_PES_ERR : Fld := ⟨R.SRV_PES, 31, 16⟩
def SRV_PTRK_PTRK : Fld := ⟨R.SRV_PTRK, 23, 0⟩
def SRV_TGT_TRK_TRK : Fld := ⟨R.SRV_TGT_TRK, 23, 0⟩
def SRV_TGT_OFF_OFF : Fld := ⟨R.SRV_TGT_OFF, 15, 0⟩
def SRV_WRLIM_WRLIM : Fld := ⟨R.SRV_WRLIM, 15, 0⟩
def SRV_SETTLE_SETWIN : Fld := ⟨R.SRV_SETTLE, 15, 0⟩
def SRV_SETTLE_SETN : Fld := ⟨R.SRV_SETTLE, 23, 16⟩
def SRV_WOFF_WOFF : Fld := ⟨R.SRV_WOFF, 22, 0⟩
def SRV_TID_N : Fld := ⟨R.SRV_TID, 23, 0⟩
def SRV_TID_PAROK : Fld := ⟨R.SRV_TID, 24, 24⟩
def SRV_TID_WMATCH : Fld := ⟨R.SRV_TID, 25, 25⟩
def SRV_TIDW_WREAD : Fld := ⟨R.SRV_TIDW, 8, 0⟩
def SRV_TIDW_WEXP : Fld := ⟨R.SRV_TIDW, 24, 16⟩
def SRV_RAW_T (n : Nat) : Fld := ⟨R.SRV_RAW n, 23, 0⟩
def SRV_ACAP_LO_ANGLE : Fld := ⟨R.SRV_ACAP_LO, 31, 0⟩
def SRV_ACAP_HI_REV : Fld := ⟨R.SRV_ACAP_HI, 31, 0⟩
def SRV_HEAD_PAHEAD (n : Nat) : Fld := ⟨R.SRV_HEAD n, 4, 0⟩
def SRV_HEAD_PASEL (n : Nat) : Fld := ⟨R.SRV_HEAD n, 8, 8⟩
def SRV_HEAD_PRESENT (n : Nat) : Fld := ⟨R.SRV_HEAD n, 9, 9⟩
def SRV_HEAD_PGAIN (n : Nat) : Fld := ⟨R.SRV_HEAD n, 31, 16⟩
def SRV_CMD_LO_VCM : Fld := ⟨R.SRV_CMD_LO, 15, 0⟩
def SRV_CMD_LO_MA0 : Fld := ⟨R.SRV_CMD_LO, 27, 16⟩
def SRV_CMD_HI_MA1 : Fld := ⟨R.SRV_CMD_HI, 11, 0⟩
def SRV_LNK_CSEQ : Fld := ⟨R.SRV_LNK, 2, 0⟩
def SRV_LNK_RSEQ : Fld := ⟨R.SRV_LNK, 6, 4⟩
def SRV_LNK_FAULT : Fld := ⟨R.SRV_LNK, 11, 8⟩
def SRV_SENSE_LO_VCMS : Fld := ⟨R.SRV_SENSE_LO, 15, 0⟩
def SRV_SENSE_LO_MA0S : Fld := ⟨R.SRV_SENSE_LO, 27, 16⟩
def SRV_SENSE_HI_MA1S : Fld := ⟨R.SRV_SENSE_HI, 11, 0⟩
def SRV_LAT_LAST : Fld := ⟨R.SRV_LAT, 10, 0⟩
def SRV_LAT_MAX : Fld := ⟨R.SRV_LAT, 26, 16⟩
def SRV_LATLIM_LIM : Fld := ⟨R.SRV_LATLIM, 10, 0⟩
def SRV_CNT_MISS_CNT : Fld := ⟨R.SRV_CNT, 7, 0⟩
def SRV_CNT_LATOVR_CNT : Fld := ⟨R.SRV_CNT, 15, 8⟩
def SRV_CNT_CMDLOST_CNT : Fld := ⟨R.SRV_CNT, 23, 16⟩
def SRV_CNT_ENTLATE_CNT : Fld := ⟨R.SRV_CNT, 31, 24⟩
def SRV_CNT2_OVR_CNT : Fld := ⟨R.SRV_CNT2, 7, 0⟩
def SRV_CNT2_SHK_CNT : Fld := ⟨R.SRV_CNT2, 15, 8⟩
def SRV_CNT2_TRCDROP_CNT : Fld := ⟨R.SRV_CNT2, 23, 16⟩
def SRV_CNT2_SUPER_CNT : Fld := ⟨R.SRV_CNT2, 31, 24⟩
def SRV_EVT_POS : Fld := ⟨R.SRV_EVT, 0, 0⟩
def SRV_EVT_MISS : Fld := ⟨R.SRV_EVT, 1, 1⟩
def SRV_EVT_RUN : Fld := ⟨R.SRV_EVT, 2, 2⟩
def SRV_EVT_LATOVR : Fld := ⟨R.SRV_EVT, 3, 3⟩
def SRV_EVT_CMDLOST : Fld := ⟨R.SRV_EVT, 4, 4⟩
def SRV_EVT_ENTLATE : Fld := ⟨R.SRV_EVT, 5, 5⟩
def SRV_EVT_OVR : Fld := ⟨R.SRV_EVT, 6, 6⟩
def SRV_EVT_SHK : Fld := ⟨R.SRV_EVT, 7, 7⟩
def SRV_EVT_ONTRK : Fld := ⟨R.SRV_EVT, 8, 8⟩
def SRV_EVT_WUSR : Fld := ⟨R.SRV_EVT, 9, 9⟩
def SRV_IEN_SRC : Fld := ⟨R.SRV_IEN, 9, 0⟩
def SRV_IEN_TO_MC : Fld := ⟨R.SRV_IEN, 16, 16⟩
def SRV_AIRQ_LINE : Fld := ⟨R.SRV_AIRQ, 15, 0⟩
def FLNK_STAT_UP : Fld := ⟨R.FLNK_STAT, 0, 0⟩
def FLNK_STAT_LDOWN : Fld := ⟨R.FLNK_STAT, 1, 1⟩
def FLNK_STAT_PDRST : Fld := ⟨R.FLNK_STAT, 2, 2⟩
def FLNK_STAT_LOGPEND : Fld := ⟨R.FLNK_STAT, 3, 3⟩
def FLNK_SPD_TARGET : Fld := ⟨R.FLNK_SPD, 13, 0⟩
def FLNK_SPD_SPILIM : Fld := ⟨R.FLNK_SPD, 18, 16⟩
def FLNK_SPD_LOCK : Fld := ⟨R.FLNK_SPD, 31, 31⟩
def FLNK_ACT_ACT : Fld := ⟨R.FLNK_ACT, 2, 0⟩
def FLNK_PD_SPST : Fld := ⟨R.FLNK_PD, 2, 0⟩
def FLNK_PD_ACTST : Fld := ⟨R.FLNK_PD, 6, 4⟩
def FLNK_PD_PSUP : Fld := ⟨R.FLNK_PD, 7, 7⟩
def FLNK_PD_ACTRES : Fld := ⟨R.FLNK_PD, 10, 8⟩
def FLNK_PDV_SPEED : Fld := ⟨R.FLNK_PDV, 17, 0⟩
def FLNK_PDV_TEMP : Fld := ⟨R.FLNK_PDV, 31, 24⟩
def FLNK_VH_VHOLD : Fld := ⟨R.FLNK_VH, 15, 0⟩
def FLNK_FLT_KIND : Fld := ⟨R.FLNK_FLT, 7, 0⟩
def FLNK_FLT_DETAIL : Fld := ⟨R.FLNK_FLT, 31, 16⟩
def FLNK_CFG_RDL : Fld := ⟨R.FLNK_CFG, 7, 0⟩
def FLNK_CFG_RFLOOR : Fld := ⟨R.FLNK_CFG, 15, 8⟩
def FLNK_CFG_VRET : Fld := ⟨R.FLNK_CFG, 23, 16⟩
def FLNK_CFG_HOLDV : Fld := ⟨R.FLNK_CFG, 31, 24⟩
def FLNK_CFG2_VCMRNG : Fld := ⟨R.FLNK_CFG2, 0, 0⟩
def FLNK_PORT_PORT : Fld := ⟨R.FLNK_PORT, 7, 0⟩
def FLNK_PORT_RD : Fld := ⟨R.FLNK_PORT, 8, 8⟩
def FLNK_PORT_DATA : Fld := ⟨R.FLNK_PORT, 31, 16⟩
def FLNK_PRES_BUSY : Fld := ⟨R.FLNK_PRES, 0, 0⟩
def FLNK_PRES_DATA : Fld := ⟨R.FLNK_PRES, 31, 16⟩
def FLNK_CNT_PCRC_CNT : Fld := ⟨R.FLNK_CNT, 7, 0⟩
def FLNK_CNT_SVCRC_CNT : Fld := ⟨R.FLNK_CNT, 15, 8⟩
def FLNK_CNT_LDOWN_CNT : Fld := ⟨R.FLNK_CNT, 23, 16⟩
def FLNK_CNT_BADPKT : Fld := ⟨R.FLNK_CNT, 31, 24⟩
def FLNK_IEN_SRC : Fld := ⟨R.FLNK_IEN, 2, 0⟩
def FLNK_IEN_TO_MC : Fld := ⟨R.FLNK_IEN, 8, 8⟩
def FLNK_IEN_TO_SEC : Fld := ⟨R.FLNK_IEN, 9, 9⟩
def HCTX_00_GAIN (n : Nat) : Fld := ⟨R.HCTX_00 n, 11, 0⟩
def HCTX_00_OFFSET (n : Nat) : Fld := ⟨R.HCTX_00 n, 31, 16⟩
def HCTX_04_ASYM (n : Nat) : Fld := ⟨R.HCTX_04 n, 11, 0⟩
def HCTX_04_PHOFF (n : Nat) : Fld := ⟨R.HCTX_04 n, 27, 16⟩
def HCTX_08_TAP (n : Nat) : Fld := ⟨R.HCTX_08 n, 31, 0⟩
def HCTX_0C_TAP (n : Nat) : Fld := ⟨R.HCTX_0C n, 31, 0⟩
def HCTX_10_TAP (n : Nat) : Fld := ⟨R.HCTX_10 n, 31, 0⟩
def HCTX_14_TAP (n : Nat) : Fld := ⟨R.HCTX_14 n, 31, 0⟩
def HCTX_18_PC1 (n : Nat) : Fld := ⟨R.HCTX_18 n, 4, 0⟩
def HCTX_18_PC2 (n : Nat) : Fld := ⟨R.HCTX_18 n, 12, 8⟩
def HCTX_18_PC3 (n : Nat) : Fld := ⟨R.HCTX_18 n, 20, 16⟩
def HCTX_18_CTF (n : Nat) : Fld := ⟨R.HCTX_18 n, 27, 24⟩
def HCTX_1C_DDTH (n : Nat) : Fld := ⟨R.HCTX_1C n, 7, 0⟩
def HCTX_1C_TATH (n : Nat) : Fld := ⟨R.HCTX_1C n, 15, 8⟩
def CHN_CTL_SYNCWIN : Fld := ⟨R.CHN_CTL, 3, 0⟩
def CHN_CTL_SMTOL : Fld := ⟨R.CHN_CTL, 7, 4⟩
def CHN_CTL_WGLEAD : Fld := ⟨R.CHN_CTL, 13, 8⟩
def CHN_CTL_WGTRAIL : Fld := ⟨R.CHN_CTL, 21, 16⟩
def CHN_ITER_GITER : Fld := ⟨R.CHN_ITER, 3, 0⟩
def CHN_ADAPT_EN : Fld := ⟨R.CHN_ADAPT, 4, 0⟩
def CHN_ADAPT_MU : Fld := ⟨R.CHN_ADAPT, 27, 8⟩
def CHN_ADAPT_SAVE : Fld := ⟨R.CHN_ADAPT, 28, 28⟩
def CHN_STAT_ACTIVE : Fld := ⟨R.CHN_STAT, 0, 0⟩
def CHN_STAT_PEND : Fld := ⟨R.CHN_STAT, 1, 1⟩
def CHN_STAT_CUR : Fld := ⟨R.CHN_STAT, 14, 8⟩
def CHN_STAT_RSLOT : Fld := ⟨R.CHN_STAT, 19, 16⟩
def CHN_FLAG_OPEND : Fld := ⟨R.CHN_FLAG, 0, 0⟩
def CHN_FLAG_FAILQ : Fld := ⟨R.CHN_FLAG, 1, 1⟩
def CHN_FLAG_ABORT : Fld := ⟨R.CHN_FLAG, 2, 2⟩
def CHN_FLAG_CTXBUSY : Fld := ⟨R.CHN_FLAG, 3, 3⟩
def CHN_FLAG_MOPOWN : Fld := ⟨R.CHN_FLAG, 4, 4⟩
def CHN_FLAG_RSLOTFULL : Fld := ⟨R.CHN_FLAG, 5, 5⟩
def CHN_FLAG_MOPBUSY : Fld := ⟨R.CHN_FLAG, 6, 6⟩
def CHN_IEN_SRC : Fld := ⟨R.CHN_IEN, 6, 0⟩
def CHN_IEN_TO_MC : Fld := ⟨R.CHN_IEN, 8, 8⟩
def CHN_DONEQ_TAG : Fld := ⟨R.CHN_DONEQ, 6, 0⟩
def CHN_DONEQ_VALID : Fld := ⟨R.CHN_DONEQ, 7, 7⟩
def CHN_FAILQ_TAG : Fld := ⟨R.CHN_FAILQ, 6, 0⟩
def CHN_FAILQ_VALID : Fld := ⟨R.CHN_FAILQ, 7, 7⟩
def CHN_FAILQ_SIDX : Fld := ⟨R.CHN_FAILQ, 15, 8⟩
def CHN_FAILQ_SRES : Fld := ⟨R.CHN_FAILQ, 19, 16⟩
def CHN_FAILQ_SLOT : Fld := ⟨R.CHN_FAILQ, 21, 20⟩
def CHN_FAILQ_RET : Fld := ⟨R.CHN_FAILQ, 22, 22⟩
def CHN_CMD_POPDONE : Fld := ⟨R.CHN_CMD, 0, 0⟩
def CHN_CMD_POPFAIL : Fld := ⟨R.CHN_CMD, 1, 1⟩
def CHN_CMD_REDEC : Fld := ⟨R.CHN_CMD, 2, 2⟩
def CHN_CMD_RELEASE : Fld := ⟨R.CHN_CMD, 3, 3⟩
def CHN_RDEC_SLOT : Fld := ⟨R.CHN_RDEC, 1, 0⟩
def CHN_RDEC_RITER : Fld := ⟨R.CHN_RDEC, 7, 2⟩
def CHN_RDEC_SSMONLY : Fld := ⟨R.CHN_RDEC, 8, 8⟩
def CHN_RDEC_FINAL : Fld := ⟨R.CHN_RDEC, 9, 9⟩
def CHN_RDEC_CTXHEAD : Fld := ⟨R.CHN_RDEC, 20, 16⟩
def CHN_RDRES_BUSY : Fld := ⟨R.CHN_RDRES, 0, 0⟩
def CHN_RDRES_SRES : Fld := ⟨R.CHN_RDRES, 4, 1⟩
def CHN_RDRES_ITER : Fld := ⟨R.CHN_RDRES, 13, 8⟩
def CHN_RDRES_UNSAT : Fld := ⟨R.CHN_RDRES, 31, 16⟩
def CHN_CNT_SSM_CNT : Fld := ⟨R.CHN_CNT, 7, 0⟩
def CHN_CNT_DECFAIL_CNT : Fld := ⟨R.CHN_CNT, 15, 8⟩
def CHN_CNT_NOSYNC_CNT : Fld := ⟨R.CHN_CNT, 23, 16⟩
def CHN_CNT_MISDIR_CNT : Fld := ⟨R.CHN_CNT, 31, 24⟩
def CHN_CNT2_ABORT_CNT : Fld := ⟨R.CHN_CNT2, 7, 0⟩
def CHN_CNT2_BADTIME_CNT : Fld := ⟨R.CHN_CNT2, 15, 8⟩
def CHN_CNT2_OVERRUN_CNT : Fld := ⟨R.CHN_CNT2, 23, 16⟩
def CHN_CNT2_NODATA_CNT : Fld := ⟨R.CHN_CNT2, 31, 24⟩
def MOP0_DBIT (n : Nat) : Fld := ⟨R.MOP0 n, 25, 0⟩
def MOP0_HEAD (n : Nat) : Fld := ⟨R.MOP0 n, 30, 26⟩
def MOP0_DIR (n : Nat) : Fld := ⟨R.MOP0 n, 31, 31⟩
def MOP1_K (n : Nat) : Fld := ⟨R.MOP1 n, 12, 0⟩
def MOP1_NSEC (n : Nat) : Fld := ⟨R.MOP1 n, 23, 16⟩
def MOP1_RETRY (n : Nat) : Fld := ⟨R.MOP1 n, 24, 24⟩
def MOP1_FINAL (n : Nat) : Fld := ⟨R.MOP1 n, 25, 25⟩
def MOP1_SAMPKEEP (n : Nat) : Fld := ⟨R.MOP1 n, 26, 26⟩
def MOP1_SSMONLY (n : Nat) : Fld := ⟨R.MOP1 n, 27, 27⟩
def MOP1_NOADAPT (n : Nat) : Fld := ⟨R.MOP1 n, 28, 28⟩
def MOP1_CONT (n : Nat) : Fld := ⟨R.MOP1 n, 29, 29⟩
def MOP1_EMU (n : Nat) : Fld := ⟨R.MOP1 n, 30, 30⟩
def MOP2_LBA_LO (n : Nat) : Fld := ⟨R.MOP2 n, 31, 0⟩
def MOP3_LBA_HI (n : Nat) : Fld := ⟨R.MOP3 n, 15, 0⟩
def MOP3_PARTY (n : Nat) : Fld := ⟨R.MOP3 n, 19, 16⟩
def MOP3_DMACH (n : Nat) : Fld := ⟨R.MOP3 n, 23, 20⟩
def MOP3_RITER (n : Nat) : Fld := ⟨R.MOP3 n, 29, 24⟩
def MOPS_STATE (n : Nat) : Fld := ⟨R.MOPS n, 2, 0⟩
def MOPS_NDONE (n : Nat) : Fld := ⟨R.MOPS n, 11, 4⟩
def MOPS_RES (n : Nat) : Fld := ⟨R.MOPS n, 15, 12⟩
def MOPS_NFAIL (n : Nat) : Fld := ⟨R.MOPS n, 23, 16⟩
def MOPS_ITER (n : Nat) : Fld := ⟨R.MOPS n, 29, 24⟩
def FIRN_CTL_SCRUB : Fld := ⟨R.FIRN_CTL, 0, 0⟩
def FIRN_CTL_SCRUBRATE : Fld := ⟨R.FIRN_CTL, 15, 8⟩
def FIRN_CTL_PLOCK : Fld := ⟨R.FIRN_CTL, 16, 16⟩
def FIRN_STAT_BINIT : Fld := ⟨R.FIRN_STAT, 0, 0⟩
def FIRN_STAT_RBUSY : Fld := ⟨R.FIRN_STAT, 1, 1⟩
def FIRN_STAT_PAUSED : Fld := ⟨R.FIRN_STAT, 2, 2⟩
def FIRN_STAT_PLOCKED : Fld := ⟨R.FIRN_STAT, 3, 3⟩
def FIRN_STAT_CLQ_CNT : Fld := ⟨R.FIRN_STAT, 10, 4⟩
def FIRN_STAT_ASLEEP : Fld := ⟨R.FIRN_STAT, 11, 11⟩
def FIRN_STAT_PRES : Fld := ⟨R.FIRN_STAT, 13, 12⟩
def FIRN_DTOTAL_DTOTAL : Fld := ⟨R.FIRN_DTOTAL, 14, 0⟩
def FIRN_DTOTAL_DSUM : Fld := ⟨R.FIRN_DTOTAL, 30, 16⟩
def FIRN_FLAG_UE : Fld := ⟨R.FIRN_FLAG, 0, 0⟩
def FIRN_FLAG_CE : Fld := ⟨R.FIRN_FLAG, 1, 1⟩
def FIRN_FLAG_RDONE : Fld := ⟨R.FIRN_FLAG, 2, 2⟩
def FIRN_FLAG_CANCEL : Fld := ⟨R.FIRN_FLAG, 3, 3⟩
def FIRN_FLAG_STALEWB : Fld := ⟨R.FIRN_FLAG, 4, 4⟩
def FIRN_FLAG_RIGN : Fld := ⟨R.FIRN_FLAG, 5, 5⟩
def FIRN_FLAG_PREFUSE : Fld := ⟨R.FIRN_FLAG, 6, 6⟩
def FIRN_FLAG_REVDIRTY : Fld := ⟨R.FIRN_FLAG, 7, 7⟩
def FIRN_FLAG_CLQNE : Fld := ⟨R.FIRN_FLAG, 8, 8⟩
def FIRN_IEN_SRC : Fld := ⟨R.FIRN_IEN, 8, 0⟩
def FIRN_IEN_TO_MC : Fld := ⟨R.FIRN_IEN, 16, 16⟩
def FIRN_IEN_TO_HC0 : Fld := ⟨R.FIRN_IEN, 17, 17⟩
def FIRN_IEN_TO_HC1 : Fld := ⟨R.FIRN_IEN, 18, 18⟩
def FIRN_IEN_TO_SEC : Fld := ⟨R.FIRN_IEN, 19, 19⟩
def FIRN_CNT0_SERAC_CNT : Fld := ⟨R.FIRN_CNT0, 15, 0⟩
def FIRN_CNT0_PROMO_CNT : Fld := ⟨R.FIRN_CNT0, 31, 16⟩
def FIRN_CNT1_FULL_CNT : Fld := ⟨R.FIRN_CNT1, 15, 0⟩
def FIRN_CNT1_QUOTA_CNT : Fld := ⟨R.FIRN_CNT1, 31, 16⟩
def FIRN_CNT2_CE_CNT : Fld := ⟨R.FIRN_CNT2, 7, 0⟩
def FIRN_CNT2_UE_CNT : Fld := ⟨R.FIRN_CNT2, 15, 8⟩
def FIRN_CNT2_CANCEL_CNT : Fld := ⟨R.FIRN_CNT2, 23, 16⟩
def FIRN_CNT2_STALEWB_CNT : Fld := ⟨R.FIRN_CNT2, 31, 24⟩
def FIRN_UEADDR_ADDR : Fld := ⟨R.FIRN_UEADDR, 31, 0⟩
def FIRN_RG_LO_LBA : Fld := ⟨R.FIRN_RG_LO, 31, 0⟩
def FIRN_RG_HI_LBA : Fld := ⟨R.FIRN_RG_HI, 15, 0⟩
def FIRN_RG_CNT_CNT : Fld := ⟨R.FIRN_RG_CNT, 31, 0⟩
def FIRN_RG_CMD_OP : Fld := ⟨R.FIRN_RG_CMD, 2, 0⟩
def FIRN_RG_CMD_SCOPE : Fld := ⟨R.FIRN_RG_CMD, 5, 4⟩
def FIRN_RG_CMD_PARTY : Fld := ⟨R.FIRN_RG_CMD, 11, 8⟩
def FIRN_RG_STAT_AFF : Fld := ⟨R.FIRN_RG_STAT, 31, 16⟩
def FIRN_CLQ0_VALID : Fld := ⟨R.FIRN_CLQ0, 0, 0⟩
def FIRN_CLQ0_INVAL : Fld := ⟨R.FIRN_CLQ0, 1, 1⟩
def FIRN_CLQ0_OWNER : Fld := ⟨R.FIRN_CLQ0, 5, 2⟩
def FIRN_CLQ0_SET : Fld := ⟨R.FIRN_CLQ0, 14, 6⟩
def FIRN_CLQ0_WAY : Fld := ⟨R.FIRN_CLQ0, 17, 15⟩
def FIRN_CLQ0_GEN : Fld := ⟨R.FIRN_CLQ0, 25, 18⟩
def FIRN_CLQ1_FRAME : Fld := ⟨R.FIRN_CLQ1, 31, 0⟩
def FIRN_CLQ2_MASK : Fld := ⟨R.FIRN_CLQ2, 31, 0⟩
def FIRN_CLQ3_MASK : Fld := ⟨R.FIRN_CLQ3, 31, 0⟩
def FIRN_CLQ4_LBA : Fld := ⟨R.FIRN_CLQ4, 31, 0⟩
def FIRN_CLQ5_LBA : Fld := ⟨R.FIRN_CLQ5, 31, 0⟩
def FIRN_CLQPOP_POP : Fld := ⟨R.FIRN_CLQPOP, 0, 0⟩
def FIRN_WBDONE_OK : Fld := ⟨R.FIRN_WBDONE, 0, 0⟩
def FIRN_WBDONE_SET : Fld := ⟨R.FIRN_WBDONE, 9, 1⟩
def FIRN_WBDONE_WAY : Fld := ⟨R.FIRN_WBDONE, 12, 10⟩
def FIRN_WBDONE_GEN : Fld := ⟨R.FIRN_WBDONE, 20, 13⟩
def FIRN_WBM_LO_MASK : Fld := ⟨R.FIRN_WBM_LO, 31, 0⟩
def FIRN_WBM_HI_MASK : Fld := ⟨R.FIRN_WBM_HI, 31, 0⟩
def FIRN_PART_WAYS (n : Nat) : Fld := ⟨R.FIRN_PART n, 7, 0⟩
def FIRN_PART_HALF (n : Nat) : Fld := ⟨R.FIRN_PART n, 9, 8⟩
def FIRN_CMASK_SLOTS (n : Nat) : Fld := ⟨R.FIRN_CMASK n, 31, 0⟩
def FIRN_DQ_DQUOTA (n : Nat) : Fld := ⟨R.FIRN_DQ n, 14, 0⟩
def FIRN_DQ_DCOUNT (n : Nat) : Fld := ⟨R.FIRN_DQ n, 30, 16⟩
def FIRN_LKEY_LO_LBA (m : Master) : Fld := ⟨R.FIRN_LKEY_LO m, 31, 0⟩
def FIRN_LKEY_HI_LBA (m : Master) : Fld := ⟨R.FIRN_LKEY_HI m, 15, 0⟩
def FIRN_LCMD_OP (m : Master) : Fld := ⟨R.FIRN_LCMD m, 3, 0⟩
def FIRN_LCMD_PARTY (m : Master) : Fld := ⟨R.FIRN_LCMD m, 7, 4⟩
def FIRN_LCMD_NSECM1 (m : Master) : Fld := ⟨R.FIRN_LCMD m, 13, 8⟩
def FIRN_LCMD_PIN (m : Master) : Fld := ⟨R.FIRN_LCMD m, 14, 14⟩
def FIRN_LRES0_BUSY (m : Master) : Fld := ⟨R.FIRN_LRES0 m, 0, 0⟩
def FIRN_LRES0_RESULT (m : Master) : Fld := ⟨R.FIRN_LRES0 m, 4, 1⟩
def FIRN_LRES0_SOURCE (m : Master) : Fld := ⟨R.FIRN_LRES0 m, 6, 5⟩
def FIRN_LRES0_SET (m : Master) : Fld := ⟨R.FIRN_LRES0 m, 16, 8⟩
def FIRN_LRES0_WAY (m : Master) : Fld := ⟨R.FIRN_LRES0 m, 19, 17⟩
def FIRN_LRES0_GEN (m : Master) : Fld := ⟨R.FIRN_LRES0 m, 27, 20⟩
def FIRN_LRES1_FRAME (m : Master) : Fld := ⟨R.FIRN_LRES1 m, 31, 0⟩
def FIRN_LRES2_CHG (m : Master) : Fld := ⟨R.FIRN_LRES2 m, 6, 0⟩
def FIRN_LRES2_PIN (m : Master) : Fld := ⟨R.FIRN_LRES2 m, 23, 16⟩
def FIRN_LV_LO_MASK (m : Master) : Fld := ⟨R.FIRN_LV_LO m, 31, 0⟩
def FIRN_LV_HI_MASK (m : Master) : Fld := ⟨R.FIRN_LV_HI m, 31, 0⟩
def FIRN_LD_LO_MASK (m : Master) : Fld := ⟨R.FIRN_LD_LO m, 31, 0⟩
def FIRN_LD_HI_MASK (m : Master) : Fld := ⟨R.FIRN_LD_HI m, 31, 0⟩
def FIRN_LE_LO_MASK (m : Master) : Fld := ⟨R.FIRN_LE_LO m, 31, 0⟩
def FIRN_LE_HI_MASK (m : Master) : Fld := ⟨R.FIRN_LE_HI m, 31, 0⟩
def FIRN_LL_LO_MASK (m : Master) : Fld := ⟨R.FIRN_LL_LO m, 31, 0⟩
def FIRN_LL_HI_MASK (m : Master) : Fld := ⟨R.FIRN_LL_HI m, 31, 0⟩
def FIRN_SCMD_OP (m : Master) : Fld := ⟨R.FIRN_SCMD m, 3, 0⟩
def FIRN_SCMD_TGT (m : Master) : Fld := ⟨R.FIRN_SCMD m, 4, 4⟩
def FIRN_SCMD_SET (m : Master) : Fld := ⟨R.FIRN_SCMD m, 13, 5⟩
def FIRN_SCMD_WAY (m : Master) : Fld := ⟨R.FIRN_SCMD m, 16, 14⟩
def FIRN_SCMD_GEN (m : Master) : Fld := ⟨R.FIRN_SCMD m, 24, 17⟩
def FIRN_SCMD_COUNT (m : Master) : Fld := ⟨R.FIRN_SCMD m, 31, 25⟩
def FIRN_SMASK_LO_MASK (m : Master) : Fld := ⟨R.FIRN_SMASK_LO m, 31, 0⟩
def FIRN_SMASK_HI_MASK (m : Master) : Fld := ⟨R.FIRN_SMASK_HI m, 31, 0⟩
def FIRN_SFULL_LO_FULLMASK (m : Master) : Fld := ⟨R.FIRN_SFULL_LO m, 31, 0⟩
def FIRN_SFULL_HI_FULLMASK (m : Master) : Fld := ⟨R.FIRN_SFULL_HI m, 31, 0⟩
def FIRN_SRES_BUSY (m : Master) : Fld := ⟨R.FIRN_SRES m, 0, 0⟩
def FIRN_SRES_RESULT (m : Master) : Fld := ⟨R.FIRN_SRES m, 4, 1⟩
def FIRN_SRES_NAFF (m : Master) : Fld := ⟨R.FIRN_SRES m, 14, 8⟩
def FIRN_MKEY_LO_KEY (m : Master) : Fld := ⟨R.FIRN_MKEY_LO m, 31, 0⟩
def FIRN_MKEY_HI_KEY (m : Master) : Fld := ⟨R.FIRN_MKEY_HI m, 7, 0⟩
def FIRN_MCMD_OP (m : Master) : Fld := ⟨R.FIRN_MCMD m, 2, 0⟩
def FIRN_MCMD_ENTRY (m : Master) : Fld := ⟨R.FIRN_MCMD m, 13, 8⟩
def FIRN_MRES_BUSY (m : Master) : Fld := ⟨R.FIRN_MRES m, 0, 0⟩
def FIRN_MRES_RESULT (m : Master) : Fld := ⟨R.FIRN_MRES m, 3, 1⟩
def FIRN_MRES_ENTRY (m : Master) : Fld := ⟨R.FIRN_MRES m, 13, 8⟩
def FIRN_MRES_DIRTY (m : Master) : Fld := ⟨R.FIRN_MRES m, 14, 14⟩
def FIRN_MRES_LOCKED (m : Master) : Fld := ⟨R.FIRN_MRES m, 15, 15⟩
def FIRN_MRES_VALID (m : Master) : Fld := ⟨R.FIRN_MRES m, 16, 16⟩
def FIRN_CCMD_OP (m : Master) : Fld := ⟨R.FIRN_CCMD m, 1, 0⟩
def FIRN_CCMD_SLOT (m : Master) : Fld := ⟨R.FIRN_CCMD m, 6, 2⟩
def FIRN_CCMD_PARTY (m : Master) : Fld := ⟨R.FIRN_CCMD m, 11, 8⟩
def FIRN_CRES_BUSY (m : Master) : Fld := ⟨R.FIRN_CRES m, 0, 0⟩
def FIRN_CRES_RESULT (m : Master) : Fld := ⟨R.FIRN_CRES m, 3, 1⟩
def FIRN_CRES_SLOT (m : Master) : Fld := ⟨R.FIRN_CRES m, 8, 4⟩
def FIRN_CRES_STATE (m : Master) : Fld := ⟨R.FIRN_CRES m, 11, 9⟩
def FIRN_CRES_GEN (m : Master) : Fld := ⟨R.FIRN_CRES m, 23, 16⟩
def FIRN_CFRAME_FRAME (m : Master) : Fld := ⟨R.FIRN_CFRAME m, 31, 0⟩
def RME_CTL_WLOCK : Fld := ⟨R.RME_CTL, 0, 0⟩
def RME_CTL_DREADY : Fld := ⟨R.RME_CTL, 1, 1⟩
def RME_STAT_WLOCKED : Fld := ⟨R.RME_STAT, 0, 0⟩
def RME_STAT_WLRES : Fld := ⟨R.RME_STAT, 1, 1⟩
def RME_STAT_HOLD : Fld := ⟨R.RME_STAT, 2, 2⟩
def RME_STAT_CHFAULT : Fld := ⟨R.RME_STAT, 4, 3⟩
def RME_USE_DUSED : Fld := ⟨R.RME_USE, 11, 0⟩
def RME_USE_WUSED : Fld := ⟨R.RME_USE, 27, 16⟩
def RME_FLAG_FH : Fld := ⟨R.RME_FLAG, 0, 0⟩
def RME_FLAG_RPE : Fld := ⟨R.RME_FLAG, 1, 1⟩
def RME_FLAG_SHPE : Fld := ⟨R.RME_FLAG, 2, 2⟩
def RME_FLAG_PATROL : Fld := ⟨R.RME_FLAG, 3, 3⟩
def RME_FLAG_REFUSE : Fld := ⟨R.RME_FLAG, 4, 4⟩
def RME_IEN_SRC : Fld := ⟨R.RME_IEN, 4, 0⟩
def RME_IEN_TO_SEC : Fld := ⟨R.RME_IEN, 8, 8⟩
def RME_IEN_TO_MC : Fld := ⟨R.RME_IEN, 9, 9⟩
def RME_CNT_FH_CNT : Fld := ⟨R.RME_CNT, 7, 0⟩
def RME_CNT_RPE_CNT : Fld := ⟨R.RME_CNT, 15, 8⟩
def RME_CNT_PAT_CNT : Fld := ⟨R.RME_CNT, 23, 16⟩
def RME_CNT_SHPE_CNT : Fld := ⟨R.RME_CNT, 31, 24⟩
def RME_CNT2_REFUSE_CNT : Fld := ⟨R.RME_CNT2, 15, 0⟩
def RME_FIDX_DIDX : Fld := ⟨R.RME_FIDX, 10, 0⟩
def RME_FIDX_WIDX : Fld := ⟨R.RME_FIDX, 26, 16⟩
def RME_LKEY_LO_LBA (m : Master) : Fld := ⟨R.RME_LKEY_LO m, 31, 0⟩
def RME_LKEY_HI_LBA (m : Master) : Fld := ⟨R.RME_LKEY_HI m, 15, 0⟩
def RME_LCMD_CH (m : Master) : Fld := ⟨R.RME_LCMD m, 0, 0⟩
def RME_LCMD_PARTY (m : Master) : Fld := ⟨R.RME_LCMD m, 4, 1⟩
def RME_LCMD_RREQ (m : Master) : Fld := ⟨R.RME_LCMD m, 7, 5⟩
def RME_LCMD_REPORT (m : Master) : Fld := ⟨R.RME_LCMD m, 8, 8⟩
def RME_LRES0_BUSY (m : Master) : Fld := ⟨R.RME_LRES0 m, 0, 0⟩
def RME_LRES0_RESULT (m : Master) : Fld := ⟨R.RME_LRES0 m, 3, 1⟩
def RME_LRES0_RIGHTS (m : Master) : Fld := ⟨R.RME_LRES0 m, 6, 4⟩
def RME_LRES0_IDENT (m : Master) : Fld := ⟨R.RME_LRES0 m, 7, 7⟩
def RME_LRES0_INDEX (m : Master) : Fld := ⟨R.RME_LRES0 m, 18, 8⟩
def RME_LRES0_REPAIRS (m : Master) : Fld := ⟨R.RME_LRES0 m, 20, 19⟩
def RME_LRES1_OUT (m : Master) : Fld := ⟨R.RME_LRES1 m, 31, 0⟩
def RME_LRES2_OUT (m : Master) : Fld := ⟨R.RME_LRES2 m, 15, 0⟩
def RME_LRES2_PRIO (m : Master) : Fld := ⟨R.RME_LRES2 m, 23, 16⟩
def RME_LRES2_LEN (m : Master) : Fld := ⟨R.RME_LRES2 m, 29, 24⟩
def RME_LRES3_RUN (m : Master) : Fld := ⟨R.RME_LRES3 m, 31, 0⟩
def RME_STG_00_KEY_LO (m : Master) (n : Nat) : Fld := ⟨R.RME_STG_00 m n, 31, 0⟩
def RME_STG_04_KEY_HI (m : Master) (n : Nat) : Fld := ⟨R.RME_STG_04 m n, 15, 0⟩
def RME_STG_04_LEN (m : Master) (n : Nat) : Fld := ⟨R.RME_STG_04 m n, 21, 16⟩
def RME_STG_04_PARTY (m : Master) (n : Nat) : Fld := ⟨R.RME_STG_04 m n, 25, 22⟩
def RME_STG_04_CH (m : Master) (n : Nat) : Fld := ⟨R.RME_STG_04 m n, 26, 26⟩
def RME_STG_04_VALID (m : Master) (n : Nat) : Fld := ⟨R.RME_STG_04 m n, 27, 27⟩
def RME_STG_08_BASE_LO (m : Master) (n : Nat) : Fld := ⟨R.RME_STG_08 m n, 31, 0⟩
def RME_STG_0C_BASE_HI (m : Master) (n : Nat) : Fld := ⟨R.RME_STG_0C m n, 15, 0⟩
def RME_STG_0C_IDENT (m : Master) (n : Nat) : Fld := ⟨R.RME_STG_0C m n, 16, 16⟩
def RME_STG_0C_RIGHTS (m : Master) (n : Nat) : Fld := ⟨R.RME_STG_0C m n, 19, 17⟩
def RME_STG_0C_PRIO (m : Master) (n : Nat) : Fld := ⟨R.RME_STG_0C m n, 31, 24⟩
def RME_STG_10_INDEX (m : Master) (n : Nat) : Fld := ⟨R.RME_STG_10 m n, 10, 0⟩
def RME_SCMD_OP (m : Master) : Fld := ⟨R.RME_SCMD m, 1, 0⟩
def RME_SCMD_NSTGM1 (m : Master) : Fld := ⟨R.RME_SCMD m, 4, 2⟩
def RME_SCMD_INDEX (m : Master) : Fld := ⟨R.RME_SCMD m, 15, 5⟩
def RME_SRES_BUSY (m : Master) : Fld := ⟨R.RME_SRES m, 0, 0⟩
def RME_SRES_RESULT (m : Master) : Fld := ⟨R.RME_SRES m, 3, 1⟩
def RME_SRES_SLOT (m : Master) : Fld := ⟨R.RME_SRES m, 6, 4⟩
def RME_SRES_NOTICES (m : Master) : Fld := ⟨R.RME_SRES m, 15, 8⟩
def DMA_CTL_XTSREQ : Fld := ⟨R.DMA_CTL, 0, 0⟩
def DMA_CTL_CFGLOCK : Fld := ⟨R.DMA_CTL, 1, 1⟩
def DMA_MDBASE_EN : Fld := ⟨R.DMA_MDBASE, 0, 0⟩
def DMA_MDBASE_ADDR : Fld := ⟨R.DMA_MDBASE, 31, 6⟩
def DMA_STAT_BUSY : Fld := ⟨R.DMA_STAT, 15, 0⟩
def DMA_STAT_HOLD : Fld := ⟨R.DMA_STAT, 16, 16⟩
def DMA_EVT_DONE : Fld := ⟨R.DMA_EVT, 15, 0⟩
def DMA_EVT_HALT : Fld := ⟨R.DMA_EVT, 31, 16⟩
def DMA_IEN_SRC : Fld := ⟨R.DMA_IEN, 31, 0⟩
def DMA_CNT_E2E_CNT : Fld := ⟨R.DMA_CNT, 7, 0⟩
def DMA_CNT_MISALIGN_CNT : Fld := ⟨R.DMA_CNT, 15, 8⟩
def DMA_CNT_HOSTERR_CNT : Fld := ⟨R.DMA_CNT, 23, 16⟩
def DMA_CNT_STOREF_CNT : Fld := ⟨R.DMA_CNT, 31, 24⟩
def CHCFG_OWNER (n : Nat) : Fld := ⟨R.CHCFG n, 2, 0⟩
def CHSTART_DESC (n : Nat) : Fld := ⟨R.CHSTART n, 31, 0⟩
def CHSTAT_STATE (n : Nat) : Fld := ⟨R.CHSTAT n, 2, 0⟩
def CHSTAT_CAUSE (n : Nat) : Fld := ⟨R.CHSTAT n, 7, 3⟩
def CHSTAT_DETAIL (n : Nat) : Fld := ⟨R.CHSTAT n, 15, 8⟩
def CHSTAT_IGN (n : Nat) : Fld := ⟨R.CHSTAT n, 16, 16⟩
def CHDESC_ADDR (n : Nat) : Fld := ⟨R.CHDESC n, 31, 0⟩
def CHDONE_DONE (n : Nat) : Fld := ⟨R.CHDONE n, 31, 0⟩
def CHCRC_CRC (n : Nat) : Fld := ⟨R.CHCRC n, 31, 0⟩
def CHCMD_ABORT (n : Nat) : Fld := ⟨R.CHCMD n, 0, 0⟩
def CRY_SLOT_READY (n : Nat) : Fld := ⟨R.CRY_SLOT n, 0, 0⟩
def CRY_SLOT_INUSE (n : Nat) : Fld := ⟨R.CRY_SLOT n, 1, 1⟩
def CRY_SLOT_GEN (n : Nat) : Fld := ⟨R.CRY_SLOT n, 15, 8⟩
def CRY_STAT_KATDONE : Fld := ⟨R.CRY_STAT, 0, 0⟩
def CRY_STAT_KATFAIL : Fld := ⟨R.CRY_STAT, 1, 1⟩
def CRY_CNT_NOKEY_CNT : Fld := ⟨R.CRY_CNT, 15, 0⟩
def GCAP_NSQ : Fld := ⟨R.GCAP, 6, 0⟩
def GCAP_NCQ : Fld := ⟨R.GCAP, 13, 7⟩
def GCAP_NPARTY : Fld := ⟨R.GCAP, 18, 14⟩
def GCAP_NVEC : Fld := ⟨R.GCAP, 24, 19⟩
def GCAP_X2 : Fld := ⟨R.GCAP, 25, 25⟩
def HMWCTL_EN : Fld := ⟨R.HMWCTL, 0, 0⟩
def HMWCTL_LOCK : Fld := ⟨R.HMWCTL, 1, 1⟩
def HMW_0_V (n : Nat) : Fld := ⟨R.HMW_0 n, 0, 0⟩
def HMW_0_BASE_LO (n : Nat) : Fld := ⟨R.HMW_0 n, 31, 12⟩
def HMW_4_BASE_HI (n : Nat) : Fld := ⟨R.HMW_4 n, 31, 0⟩
def HMW_8_LIM_LO (n : Nat) : Fld := ⟨R.HMW_8 n, 31, 12⟩
def HMW_C_LIM_HI (n : Nat) : Fld := ⟨R.HMW_C n, 31, 0⟩
def SQ_0_BASE_LO (n : Nat) : Fld := ⟨R.SQ_0 n, 31, 12⟩
def SQ_4_BASE_HI (n : Nat) : Fld := ⟨R.SQ_4 n, 31, 0⟩
def SQ_8_SIZEM1 (n : Nat) : Fld := ⟨R.SQ_8 n, 11, 0⟩
def SQ_8_CQID (n : Nat) : Fld := ⟨R.SQ_8 n, 21, 16⟩
def SQ_C_EN (n : Nat) : Fld := ⟨R.SQ_C n, 0, 0⟩
def SQ_C_RESUME (n : Nat) : Fld := ⟨R.SQ_C n, 4, 4⟩
def SQ_C_RESET (n : Nat) : Fld := ⟨R.SQ_C n, 5, 5⟩
def CQ_0_BASE_LO (n : Nat) : Fld := ⟨R.CQ_0 n, 31, 12⟩
def CQ_4_BASE_HI (n : Nat) : Fld := ⟨R.CQ_4 n, 31, 0⟩
def CQ_8_SIZEM1 (n : Nat) : Fld := ⟨R.CQ_8 n, 11, 0⟩
def CQ_8_IV (n : Nat) : Fld := ⟨R.CQ_8 n, 20, 16⟩
def CQ_8_IEN (n : Nat) : Fld := ⟨R.CQ_8 n, 24, 24⟩
def CQ_8_AGGTHR (n : Nat) : Fld := ⟨R.CQ_8 n, 31, 28⟩
def CQ_C_EN (n : Nat) : Fld := ⟨R.CQ_C n, 0, 0⟩
def CQ_C_AGGTIME (n : Nat) : Fld := ⟨R.CQ_C n, 15, 8⟩
def DBP_0_EN (n : Nat) : Fld := ⟨R.DBP_0 n, 0, 0⟩
def DBP_0_PORT (n : Nat) : Fld := ⟨R.DBP_0 n, 1, 1⟩
def DBP_0_FOVR (n : Nat) : Fld := ⟨R.DBP_0 n, 2, 2⟩
def DBP_0_ADDR_LO (n : Nat) : Fld := ⟨R.DBP_0 n, 31, 12⟩
def DBP_4_ADDR_HI (n : Nat) : Fld := ⟨R.DBP_4 n, 31, 0⟩
def UQI_CTL_DISP : Fld := ⟨R.UQI_CTL, 15, 0⟩
def UQI_STAT_CTUSED : Fld := ⟨R.UQI_STAT, 10, 0⟩
def UQI_STAT_UPA : Fld := ⟨R.UQI_STAT, 16, 16⟩
def UQI_STAT_UPB : Fld := ⟨R.UQI_STAT, 17, 17⟩
def UQI_CNT_DBERR_CNT : Fld := ⟨R.UQI_CNT, 7, 0⟩
def UQI_CNT_LISTF_CNT : Fld := ⟨R.UQI_CNT, 15, 8⟩
def UQI_CNT_HOSTREF_CNT : Fld := ⟨R.UQI_CNT, 23, 16⟩
def UQI_CNT_PDOWN_CNT : Fld := ⟨R.UQI_CNT, 31, 24⟩
def UQI_EVT_PDOWN : Fld := ⟨R.UQI_EVT, 0, 0⟩
def UQI_EVT_MOVED : Fld := ⟨R.UQI_EVT, 1, 1⟩
def UQI_EVT_LISTF : Fld := ⟨R.UQI_EVT, 2, 2⟩
def UQI_EVT_HOSTREF : Fld := ⟨R.UQI_EVT, 3, 3⟩
def UQI_EVT_DBERR : Fld := ⟨R.UQI_EVT, 4, 4⟩
def UQI_EVT_XFULL : Fld := ⟨R.UQI_EVT, 5, 5⟩
def UQI_IEN_SRC : Fld := ⟨R.UQI_IEN, 5, 0⟩
def UQI_IEN_TO_HC0 : Fld := ⟨R.UQI_IEN, 8, 8⟩
def UQI_IEN_TO_HC1 : Fld := ⟨R.UQI_IEN, 9, 9⟩
def UQI_IEN_TO_SEC : Fld := ⟨R.UQI_IEN, 10, 10⟩
def UQI_DQ_INDEX (m : Master) : Fld := ⟨R.UQI_DQ m, 9, 0⟩
def UQI_DQ_RING (m : Master) : Fld := ⟨R.UQI_DQ m, 15, 10⟩
def UQI_DQ_PARTY (m : Master) : Fld := ⟨R.UQI_DQ m, 19, 16⟩
def UQI_DQ_VALID (m : Master) : Fld := ⟨R.UQI_DQ m, 31, 31⟩
def UQI_DQPOP_POP (m : Master) : Fld := ⟨R.UQI_DQPOP m, 0, 0⟩
def UQI_CTSEL_INDEX (m : Master) : Fld := ⟨R.UQI_CTSEL m, 9, 0⟩
def UQI_CPOST_INDEX (m : Master) : Fld := ⟨R.UQI_CPOST m, 9, 0⟩
def UQI_CPOST_STATUS (m : Master) : Fld := ⟨R.UQI_CPOST m, 23, 16⟩
def UQI_CPED_ED (m : Master) : Fld := ⟨R.UQI_CPED m, 31, 0⟩
def UQI_CPSPEC_SPEC (m : Master) : Fld := ⟨R.UQI_CPSPEC m, 31, 0⟩
def UQI_CPRES_BUSY (m : Master) : Fld := ⟨R.UQI_CPRES m, 0, 0⟩
def UQI_CPRES_BADINDEX (m : Master) : Fld := ⟨R.UQI_CPRES m, 1, 1⟩
def UQI_XBUF_ADDR (m : Master) : Fld := ⟨R.UQI_XBUF m, 31, 0⟩
def UQI_XOFF_OFF (m : Master) : Fld := ⟨R.UQI_XOFF m, 31, 0⟩
def UQI_XLEN_LEN (m : Master) : Fld := ⟨R.UQI_XLEN m, 23, 0⟩
def UQI_XCMD_INDEX (m : Master) : Fld := ⟨R.UQI_XCMD m, 9, 0⟩
def UQI_XCMD_DIR (m : Master) : Fld := ⟨R.UQI_XCMD m, 10, 10⟩
def UQI_XCMD_PI (m : Master) : Fld := ⟨R.UQI_XCMD m, 11, 11⟩
def UQI_XCMD_XTAG (m : Master) : Fld := ⟨R.UQI_XCMD m, 23, 16⟩
def UQI_XRES_XTAG (m : Master) : Fld := ⟨R.UQI_XRES m, 7, 0⟩
def UQI_XRES_CAUSE (m : Master) : Fld := ⟨R.UQI_XRES m, 12, 8⟩
def UQI_XRES_DETAIL (m : Master) : Fld := ⟨R.UQI_XRES m, 23, 16⟩
def UQI_XRES_VALID (m : Master) : Fld := ⟨R.UQI_XRES m, 31, 31⟩
def UQI_XDONE_DONE (m : Master) : Fld := ⟨R.UQI_XDONE m, 31, 0⟩
def UQI_XPOP_POP (m : Master) : Fld := ⟨R.UQI_XPOP m, 0, 0⟩
def UQI_CTDATA_DATA (m : Master) (n : Nat) : Fld := ⟨R.UQI_CTDATA m n, 31, 0⟩
def UQI_RPARTY_SQPARTY (n : Nat) : Fld := ⟨R.UQI_RPARTY n, 3, 0⟩
def UQI_RPARTY_CQPARTY (n : Nat) : Fld := ⟨R.UQI_RPARTY n, 11, 8⟩
def UQI_CTEXT_0_MLBA (m : Master) (n : Nat) : Fld := ⟨R.UQI_CTEXT_0 m n, 31, 0⟩
def UQI_CTEXT_4_MLBA (m : Master) (n : Nat) : Fld := ⟨R.UQI_CTEXT_4 m n, 15, 0⟩
def UQI_CTEXT_4_COUNT (m : Master) (n : Nat) : Fld := ⟨R.UQI_CTEXT_4 m n, 31, 16⟩
def UQI_PCFG_EMU (n : Nat) : Fld := ⟨R.UQI_PCFG n, 0, 0⟩
def ORD_CTL_AGE : Fld := ⟨R.ORD_CTL, 7, 0⟩
def ORD_CTL_RETRY : Fld := ⟨R.ORD_CTL, 11, 8⟩
def ORD_CTL_HSW : Fld := ⟨R.ORD_CTL, 31, 16⟩
def ORD_STAT_PEND : Fld := ⟨R.ORD_STAT, 9, 0⟩
def ORD_STAT_ARMED : Fld := ⟨R.ORD_STAT, 23, 16⟩
def ORD_STAT_ACKERR : Fld := ⟨R.ORD_STAT, 24, 24⟩
def ORD_NEXT_TRK : Fld := ⟨R.ORD_NEXT, 23, 0⟩
def ORD_NEXT_HEAD : Fld := ⟨R.ORD_NEXT, 28, 24⟩
def ORD_NEXT_VALID : Fld := ⟨R.ORD_NEXT, 31, 31⟩
def ORD_ACK_TRK : Fld := ⟨R.ORD_ACK, 23, 0⟩
def ORD_ACK_HEAD : Fld := ⟨R.ORD_ACK, 28, 24⟩
def ORD_DBASE_ADDR : Fld := ⟨R.ORD_DBASE, 31, 6⟩
def ORD_DMA_CH : Fld := ⟨R.ORD_DMA, 15, 0⟩
def ORD_SEEK_COST (n : Nat) : Fld := ⟨R.ORD_SEEK n, 15, 0⟩
def ORD_SHARE_SHARE (n : Nat) : Fld := ⟨R.ORD_SHARE n, 7, 0⟩
def ORD_ZONE_0_PBA0 (n : Nat) : Fld := ⟨R.ORD_ZONE_0 n, 31, 0⟩
def ORD_ZONE_4_PBA0 (n : Nat) : Fld := ⟨R.ORD_ZONE_4 n, 15, 0⟩
def ORD_ZONE_4_HEAD (n : Nat) : Fld := ⟨R.ORD_ZONE_4 n, 20, 16⟩
def ORD_ZONE_4_V (n : Nat) : Fld := ⟨R.ORD_ZONE_4 n, 21, 21⟩
def ORD_ZONE_8_TRK0 (n : Nat) : Fld := ⟨R.ORD_ZONE_8 n, 23, 0⟩
def ORD_ZONE_8_SKEW (n : Nat) : Fld := ⟨R.ORD_ZONE_8 n, 31, 24⟩
def ORD_ZONE_C_K (n : Nat) : Fld := ⟨R.ORD_ZONE_C n, 12, 0⟩
def ORD_ZONE_C_SPT (n : Nat) : Fld := ⟨R.ORD_ZONE_C n, 26, 16⟩
def ORD_RQ0_MLBA (m : Master) : Fld := ⟨R.ORD_RQ0 m, 31, 0⟩
def ORD_RQ1_MLBA (m : Master) : Fld := ⟨R.ORD_RQ1 m, 15, 0⟩
def ORD_RQ1_NSECM1 (m : Master) : Fld := ⟨R.ORD_RQ1 m, 21, 16⟩
def ORD_RQ1_DIR (m : Master) : Fld := ⟨R.ORD_RQ1 m, 22, 22⟩
def ORD_RQ1_CONT (m : Master) : Fld := ⟨R.ORD_RQ1 m, 23, 23⟩
def ORD_RQ1_RETRY (m : Master) : Fld := ⟨R.ORD_RQ1 m, 24, 24⟩
def ORD_RQ1_FINAL (m : Master) : Fld := ⟨R.ORD_RQ1 m, 25, 25⟩
def ORD_RQ1_XTS (m : Master) : Fld := ⟨R.ORD_RQ1 m, 26, 26⟩
def ORD_RQ1_PARTY (m : Master) : Fld := ⟨R.ORD_RQ1 m, 31, 28⟩
def ORD_RQ2_BUF (m : Master) : Fld := ⟨R.ORD_RQ2 m, 31, 0⟩
def ORD_RQ3_RTAG (m : Master) : Fld := ⟨R.ORD_RQ3 m, 7, 0⟩
def ORD_RQRES_RESULT (m : Master) : Fld := ⟨R.ORD_RQRES m, 1, 0⟩
def ORD_RES0_RTAG (m : Master) : Fld := ⟨R.ORD_RES0 m, 7, 0⟩
def ORD_RES0_NDONE (m : Master) : Fld := ⟨R.ORD_RES0 m, 14, 8⟩
def ORD_RES0_RES (m : Master) : Fld := ⟨R.ORD_RES0 m, 19, 16⟩
def ORD_RES0_MAPF (m : Master) : Fld := ⟨R.ORD_RES0 m, 20, 20⟩
def ORD_RES0_VALID (m : Master) : Fld := ⟨R.ORD_RES0 m, 31, 31⟩
def ORD_RES1_MLBA (m : Master) : Fld := ⟨R.ORD_RES1 m, 31, 0⟩
def ORD_RES2_MLBA (m : Master) : Fld := ⟨R.ORD_RES2 m, 15, 0⟩
def ORD_RESPOP_POP (m : Master) : Fld := ⟨R.ORD_RESPOP m, 0, 0⟩
def ORD_EVT_RESV (m : Master) : Fld := ⟨R.ORD_EVT m, 0, 0⟩
def ORD_EVT_WBEND (m : Master) : Fld := ⟨R.ORD_EVT m, 1, 1⟩
def ORD_IEN_SRC (m : Master) : Fld := ⟨R.ORD_IEN m, 1, 0⟩
def ISO_CTL_LOCK : Fld := ⟨R.ISO_CTL, 0, 0⟩
def ISO_STAT_LOCKED : Fld := ⟨R.ISO_STAT, 0, 0⟩
def ISO_STAT_RES : Fld := ⟨R.ISO_STAT, 3, 1⟩
def ISO_STAT_PARTY : Fld := ⟨R.ISO_STAT, 7, 4⟩
def ISO_ECNT_0_REFUSED (n : Nat) : Fld := ⟨R.ISO_ECNT_0 n, 23, 0⟩
def ISO_ECNT_0_FAULTED (n : Nat) : Fld := ⟨R.ISO_ECNT_0 n, 31, 24⟩
def ISO_ECNT_4_ERRCPL (n : Nat) : Fld := ⟨R.ISO_ECNT_4 n, 31, 0⟩
def TRF_CMD_OP : Fld := ⟨R.TRF_CMD, 7, 0⟩
def TRF_CMD_TAG : Fld := ⟨R.TRF_CMD, 15, 8⟩
def TRF_ARG_ARG (n : Nat) : Fld := ⟨R.TRF_ARG n, 31, 0⟩
def TRF_STAT_BUSY : Fld := ⟨R.TRF_STAT, 0, 0⟩
def TRF_STAT_DONE : Fld := ⟨R.TRF_STAT, 1, 1⟩
def TRF_STAT_DATARDY : Fld := ⟨R.TRF_STAT, 2, 2⟩
def TRF_STAT_OVR : Fld := ⟨R.TRF_STAT, 3, 3⟩
def TRF_STAT_TAG : Fld := ⟨R.TRF_STAT, 15, 8⟩
def TRF_STAT_RESULT : Fld := ⟨R.TRF_STAT, 23, 16⟩
def TRF_RES_RES (n : Nat) : Fld := ⟨R.TRF_RES n, 31, 0⟩
def TRF_DCNT_DCNT : Fld := ⟨R.TRF_DCNT, 12, 0⟩
def TRF_DATA_DATA : Fld := ⟨R.TRF_DATA, 31, 0⟩
def MGT_CTL_SVC : Fld := ⟨R.MGT_CTL, 0, 0⟩
def MGT_CTL_MCTPEN : Fld := ⟨R.MGT_CTL, 1, 1⟩
def MGT_CTL_IEN_CMD : Fld := ⟨R.MGT_CTL, 8, 8⟩
def MGT_CTL_IEN_MRX : Fld := ⟨R.MGT_CTL, 9, 9⟩
def MGT_STAT_DAV : Fld := ⟨R.MGT_STAT, 0, 0⟩
def MGT_STAT_DA : Fld := ⟨R.MGT_STAT, 7, 1⟩
def MGT_STAT_VDAV : Fld := ⟨R.MGT_STAT, 8, 8⟩
def MGT_STAT_VDA : Fld := ⟨R.MGT_STAT, 15, 9⟩
def MGT_STAT_CMDPEND : Fld := ⟨R.MGT_STAT, 16, 16⟩
def MGT_STAT_MRXV : Fld := ⟨R.MGT_STAT, 17, 17⟩
def MGT_STAT_MTXBUSY : Fld := ⟨R.MGT_STAT, 18, 18⟩
def MGT_STAT_ACRDY : Fld := ⟨R.MGT_STAT, 19, 19⟩
def MGT_TAKE_TAKE : Fld := ⟨R.MGT_TAKE, 0, 0⟩
def MGT_DONE_RESULT : Fld := ⟨R.MGT_DONE, 7, 0⟩
def MGT_DONE_DATARDY : Fld := ⟨R.MGT_DONE, 8, 8⟩
def MGT_TRF_WORD (n : Nat) : Fld := ⟨R.MGT_TRF n, 31, 0⟩
def MGT_DBASE_ADDR : Fld := ⟨R.MGT_DBASE, 31, 12⟩
def MGT_DLEN_DCNT : Fld := ⟨R.MGT_DLEN, 12, 0⟩
def MGT_MRXBASE_ADDR : Fld := ⟨R.MGT_MRXBASE, 31, 12⟩
def MGT_MRX_LEN : Fld := ⟨R.MGT_MRX, 12, 0⟩
def MGT_MRX_SEID : Fld := ⟨R.MGT_MRX, 23, 16⟩
def MGT_MRX_TAG : Fld := ⟨R.MGT_MRX, 26, 24⟩
def MGT_MRX_TO : Fld := ⟨R.MGT_MRX, 27, 27⟩
def MGT_MRX_POP : Fld := ⟨R.MGT_MRX, 31, 31⟩
def MGT_MTXBASE_ADDR : Fld := ⟨R.MGT_MTXBASE, 31, 12⟩
def MGT_MTX_LEN : Fld := ⟨R.MGT_MTX, 12, 0⟩
def MGT_MTX_DEID : Fld := ⟨R.MGT_MTX, 23, 16⟩
def MGT_MTX_TAG : Fld := ⟨R.MGT_MTX, 26, 24⟩
def MGT_MTX_TO : Fld := ⟨R.MGT_MTX, 27, 27⟩
def MGT_EID_EID : Fld := ⟨R.MGT_EID, 7, 0⟩
def MGT_CNT_OVR_CNT : Fld := ⟨R.MGT_CNT, 7, 0⟩
def MGT_CNT_PECERR_CNT : Fld := ⟨R.MGT_CNT, 15, 8⟩
def MGT_CNT_MDROP_CNT : Fld := ⟨R.MGT_CNT, 23, 16⟩
def MGT_MEAS_MEAS (n : Nat) : Fld := ⟨R.MGT_MEAS n, 31, 0⟩
def MGT_ACLEN_LEN : Fld := ⟨R.MGT_ACLEN, 9, 0⟩
def MGT_ACERT_DER (n : Nat) : Fld := ⟨R.MGT_ACERT n, 31, 0⟩
def GLB_AF_MASTER : Fld := ⟨R.GLB_AF, 2, 0⟩
def GLB_AF_KIND : Fld := ⟨R.GLB_AF, 5, 4⟩
def GLB_AF_WHY : Fld := ⟨R.GLB_AF, 10, 8⟩
def GLB_AF_NEW : Fld := ⟨R.GLB_AF, 16, 16⟩
def GLB_AFADDR_ADDR : Fld := ⟨R.GLB_AFADDR, 31, 0⟩
def GLB_AFCNT_AF_CNT : Fld := ⟨R.GLB_AFCNT, 15, 0⟩
def GLB_BARERR_PART_CNT : Fld := ⟨R.GLB_BARERR, 7, 0⟩
def GLB_BARERR_UR_CNT : Fld := ⟨R.GLB_BARERR, 15, 8⟩

end F

/-- The rows of block GLB, in the order of its tables. -/
def regTableGLB : List RegDesc :=
  [
   ⟨0x40000000, 1, 4, false, [⟨31, 16, .RO, 0x7640⟩, ⟨15, 12, .RO, 0x0⟩, ⟨7, 0, .RO, 0xA0⟩]⟩,
   ⟨0x40000010, 1, 4, false, [⟨2, 0, .RO, 0x0⟩, ⟨5, 4, .RO, 0x0⟩, ⟨10, 8, .RO, 0x0⟩, ⟨16, 16, .W1C, 0x0⟩]⟩,
   ⟨0x40000014, 1, 4, false, [⟨31, 0, .RO, 0x0⟩]⟩,
   ⟨0x40000018, 1, 4, false, [⟨15, 0, .RC, 0x0⟩]⟩,
   ⟨0x4000001C, 1, 4, false, [⟨7, 0, .RC, 0x0⟩, ⟨15, 8, .RC, 0x0⟩]⟩]

/-- The rows of block ATB, in the order of its tables. -/
def regTableATB : List RegDesc :=
  [
   ⟨0x40001000, 1, 4, false, [⟨0, 0, .RW, 0x0⟩, ⟨7, 4, .RW, 0x1⟩, ⟨11, 8, .RW, 0x8⟩, ⟨29, 16, .RW, 0x1C20⟩]⟩,
   ⟨0x40001004, 1, 4, false, [⟨1, 0, .RO, 0x0⟩, ⟨2, 2, .RO, 0x0⟩, ⟨3, 3, .RO, 0x0⟩, ⟨4, 4, .RO, 0x0⟩, ⟨8, 8, .W1C, 0x0⟩, ⟨9, 9, .W1C, 0x0⟩, ⟨10, 10, .W1C, 0x0⟩, ⟨11, 11, .W1C, 0x0⟩, ⟨12, 12, .W1C, 0x0⟩]⟩,
   ⟨0x40001008, 1, 4, false, [⟨31, 0, .RL, 0x0⟩]⟩,
   ⟨0x4000100C, 1, 4, false, [⟨31, 0, .RO, 0x0⟩]⟩,
   ⟨0x40001010, 1, 4, false, [⟨17, 0, .RO, 0x0⟩]⟩,
   ⟨0x40001014, 1, 4, false, [⟨15, 0, .RO, 0x0⟩, ⟨31, 16, .RC, 0x0⟩]⟩,
   ⟨0x40001018, 1, 4, false, [⟨11, 0, .RW, 0x40⟩, ⟨27, 16, .RW, 0x200⟩]⟩,
   ⟨0x4000101C, 1, 4, false, [⟨7, 0, .RO, 0x0⟩, ⟨23, 16, .RW, 0x40⟩]⟩,
   ⟨0x40001020, 1, 4, false, [⟨31, 0, .RO, 0x0⟩]⟩,
   ⟨0x40001024, 1, 4, false, [⟨7, 0, .RC, 0x0⟩, ⟨15, 8, .RC, 0x0⟩, ⟨23, 16, .RC, 0x0⟩]⟩,
   ⟨0x40001028, 1, 4, false, [⟨4, 0, .RW, 0x0⟩, ⟨8, 8, .RW, 0x0⟩, ⟨9, 9, .RW, 0x0⟩]⟩]

/-- The rows of block ASC, in the order of its tables. -/
def regTableASC : List RegDesc :=
  [
   ⟨0x40002000, 1, 4, false, [⟨0, 0, .RW, 0x0⟩, ⟨1, 1, .WO, 0x0⟩]⟩,
   ⟨0x40002004, 1, 4, false, [⟨8, 0, .RO, 0x0⟩, ⟨23, 16, .RO, 0x0⟩]⟩,
   ⟨0x40002008, 1, 4, false, [⟨15, 0, .RC, 0x0⟩, ⟨31, 16, .RC, 0x0⟩]⟩,
   ⟨0x40002010, 1, 4, true, [⟨31, 0, .RW, 0x0⟩]⟩,
   ⟨0x40002014, 1, 4, true, [⟨3, 0, .RW, 0x0⟩, ⟨8, 4, .RW, 0x0⟩, ⟨9, 9, .RW, 0x0⟩, ⟨31, 16, .RW, 0x0⟩]⟩,
   ⟨0x40002018, 1, 4, true, [⟨15, 0, .RW, 0x0⟩, ⟨31, 16, .RW, 0x0⟩]⟩,
   ⟨0x40002020, 1, 4, true, [⟨7, 0, .WO, 0x0⟩, ⟨9, 8, .WO, 0x0⟩]⟩,
   ⟨0x40002024, 1, 4, true, [⟨3, 0, .RO, 0x0⟩, ⟨8, 8, .RO, 0x0⟩, ⟨9, 9, .RO, 0x0⟩, ⟨14, 12, .RO, 0x0⟩]⟩,
   ⟨0x40002100, 1, 4, false, [⟨7, 0, .RW, 0x4⟩, ⟨11, 8, .RW, 0x4⟩, ⟨31, 16, .RW, 0x40⟩]⟩,
   ⟨0x40002104, 1, 4, false, [⟨9, 0, .RO, 0x0⟩, ⟨23, 16, .RO, 0x0⟩, ⟨24, 24, .W1C, 0x0⟩]⟩,
   ⟨0x40002108, 1, 4, false, [⟨23, 0, .RO, 0x0⟩, ⟨28, 24, .RO, 0x0⟩, ⟨31, 31, .RO, 0x0⟩]⟩,
   ⟨0x4000210C, 1, 4, false, [⟨23, 0, .WO, 0x0⟩, ⟨28, 24, .WO, 0x0⟩]⟩,
   ⟨0x40002110, 1, 4, false, [⟨31, 6, .RW, 0x0⟩]⟩,
   ⟨0x40002114, 1, 4, false, [⟨15, 0, .RW, 0x0⟩]⟩,
   ⟨0x40002140, 16, 4, false, [⟨15, 0, .RW, 0x0⟩]⟩,
   ⟨0x40002180, 16, 4, false, [⟨7, 0, .RW, 0x0⟩]⟩,
   ⟨0x40002200, 64, 16, false, [⟨31, 0, .RW, 0x0⟩]⟩,
   ⟨0x40002204, 64, 16, false, [⟨15, 0, .RW, 0x0⟩, ⟨20, 16, .RW, 0x0⟩, ⟨21, 21, .RW, 0x0⟩]⟩,
   ⟨0x40002208, 64, 16, false, [⟨23, 0, .RW, 0x0⟩, ⟨31, 24, .RW, 0x0⟩]⟩,
   ⟨0x4000220C, 64, 16, false, [⟨12, 0, .RW, 0x0⟩, ⟨26, 16, .RW, 0x0⟩]⟩] ++
  [
   ⟨0x40002600, 1, 4, true, [⟨31, 0, .RW, 0x0⟩]⟩,
   ⟨0x40002604, 1, 4, true, [⟨15, 0, .RW, 0x0⟩, ⟨21, 16, .RW, 0x0⟩, ⟨22, 22, .RW, 0x0⟩, ⟨23, 23, .RW, 0x0⟩, ⟨24, 24, .RW, 0x0⟩, ⟨25, 25, .RW, 0x0⟩, ⟨26, 26, .RW, 0x0⟩, ⟨31, 28, .RW, 0x0⟩]⟩,
   ⟨0x40002608, 1, 4, true, [⟨31, 0, .RW, 0x0⟩]⟩,
   ⟨0x4000260C, 1, 4, true, [⟨7, 0, .WO, 0x0⟩]⟩,
   ⟨0x40002610, 1, 4, true, [⟨1, 0, .RO, 0x0⟩]⟩,
   ⟨0x40002614, 1, 4, true, [⟨7, 0, .RO, 0x0⟩, ⟨14, 8, .RO, 0x0⟩, ⟨19, 16, .RO, 0x0⟩, ⟨20, 20, .RO, 0x0⟩, ⟨31, 31, .RO, 0x0⟩]⟩,
   ⟨0x40002618, 1, 4, true, [⟨31, 0, .RO, 0x0⟩]⟩,
   ⟨0x4000261C, 1, 4, true, [⟨15, 0, .RO, 0x0⟩]⟩,
   ⟨0x40002620, 1, 4, true, [⟨0, 0, .WO, 0x0⟩]⟩,
   ⟨0x40002624, 1, 4, true, [⟨0, 0, .RO, 0x0⟩, ⟨1, 1, .W1C, 0x0⟩]⟩,
   ⟨0x40002628, 1, 4, true, [⟨1, 0, .RW, 0x0⟩]⟩]

/-- The rows of block WSQ, in the order of its tables. -/
def regTableWSQ : List RegDesc :=
  [
   ⟨0x40003000, 1, 4, false, [⟨0, 0, .RO, 0x0⟩, ⟨1, 1, .RO, 0x0⟩, ⟨2, 2, .RO, 0x0⟩, ⟨3, 3, .RO, 0x0⟩, ⟨6, 4, .RO, 0x0⟩, ⟨19, 16, .RO, 0x0⟩]⟩,
   ⟨0x40003004, 1, 4, false, [⟨13, 0, .RO, 0x0⟩, ⟨29, 16, .RO, 0x0⟩]⟩,
   ⟨0x40003008, 1, 4, false, [⟨15, 0, .RW, 0x800⟩]⟩,
   ⟨0x4000300C, 1, 4, false, [⟨0, 0, .W1C, 0x0⟩, ⟨1, 1, .W1C, 0x0⟩, ⟨2, 2, .W1C, 0x0⟩, ⟨3, 3, .W1C, 0x0⟩, ⟨4, 4, .W1C, 0x0⟩]⟩,
   ⟨0x40003010, 1, 4, false, [⟨7, 0, .RC, 0x0⟩, ⟨15, 8, .RC, 0x0⟩, ⟨23, 16, .RC, 0x0⟩]⟩,
   ⟨0x40003014, 1, 4, false, [⟨15, 0, .RO, 0x0⟩]⟩,
   ⟨0x40003018, 1, 4, false, [⟨4, 0, .RW, 0x0⟩, ⟨8, 8, .RW, 0x0⟩, ⟨9, 9, .RW, 0x0⟩]⟩,
   ⟨0x40003020, 1, 4, false, [⟨15, 0, .WO, 0x0⟩, ⟨16, 16, .WO, 0x0⟩]⟩,
   ⟨0x40003030, 1, 4, false, [⟨13, 0, .RW, 0x0⟩]⟩,
   ⟨0x40003040, 4, 4, false, [⟨31, 0, .RO, 0x0⟩]⟩,
   ⟨0x40003800, 1, 4, false, [⟨1, 0, .RO, 0x0⟩, ⟨7, 4, .RO, 0x0⟩]⟩,
   ⟨0x40003804, 1, 4, false, [⟨15, 0, .RO, 0x0⟩]⟩,
   ⟨0x40003808, 1, 4, false, [⟨15, 0, .RO, 0x0⟩, ⟨20, 16, .RO, 0x0⟩, ⟨30, 24, .RO, 0x0⟩]⟩,
   ⟨0x4000380C, 1, 4, false, [⟨7, 0, .RC, 0x0⟩, ⟨15, 8, .RC, 0x0⟩]⟩,
   ⟨0x40003840, 16, 4, false, [⟨31, 0, .RO, 0x0⟩]⟩]

/-- The rows of block CHN, in the order of its tables. -/
def regTableCHN : List RegDesc :=
  [
   ⟨0x40004200, 20, 32, false, [⟨11, 0, .RW, 0x400⟩, ⟨31, 16, .RW, 0x0⟩]⟩,
   ⟨0x40004204, 20, 32, false, [⟨11, 0, .RW, 0x0⟩, ⟨27, 16, .RW, 0x0⟩]⟩,
   ⟨0x40004208, 20, 32, false, [⟨31, 0, .RW, 0x4000⟩]⟩,
   ⟨0x4000420C, 20, 32, false, [⟨31, 0, .RW, 0x0⟩]⟩,
   ⟨0x40004210, 20, 32, false, [⟨31, 0, .RW, 0x0⟩]⟩,
   ⟨0x40004214, 20, 32, false, [⟨31, 0, .RW, 0x0⟩]⟩,
   ⟨0x40004218, 20, 32, false, [⟨4, 0, .RW, 0x0⟩, ⟨12, 8, .RW, 0x0⟩, ⟨20, 16, .RW, 0x0⟩, ⟨27, 24, .RW, 0x8⟩]⟩,
   ⟨0x4000421C, 20, 32, false, [⟨7, 0, .RW, 0x18⟩, ⟨15, 8, .RW, 0x30⟩]⟩,
   ⟨0x40004000, 1, 4, false, [⟨3, 0, .RW, 0x8⟩, ⟨7, 4, .RW, 0x2⟩, ⟨13, 8, .RW, 0x20⟩, ⟨21, 16, .RW, 0x8⟩]⟩,
   ⟨0x40004004, 1, 4, false, [⟨3, 0, .RW, 0xC⟩]⟩,
   ⟨0x40004008, 1, 4, false, [⟨4, 0, .RW, 0x1F⟩, ⟨27, 8, .RW, 0x44444⟩, ⟨28, 28, .RW, 0x1⟩]⟩,
   ⟨0x4000400C, 1, 4, false, [⟨0, 0, .RO, 0x0⟩, ⟨1, 1, .RO, 0x0⟩, ⟨14, 8, .RO, 0x0⟩, ⟨19, 16, .RO, 0x0⟩]⟩,
   ⟨0x40004010, 1, 4, false, [⟨0, 0, .W1C, 0x0⟩, ⟨1, 1, .W1C, 0x0⟩, ⟨2, 2, .W1C, 0x0⟩, ⟨3, 3, .W1C, 0x0⟩, ⟨4, 4, .W1C, 0x0⟩, ⟨5, 5, .W1C, 0x0⟩, ⟨6, 6, .W1C, 0x0⟩]⟩,
   ⟨0x40004014, 1, 4, false, [⟨6, 0, .RW, 0x0⟩, ⟨8, 8, .RW, 0x0⟩]⟩,
   ⟨0x40004018, 1, 4, false, [⟨6, 0, .RO, 0x0⟩, ⟨7, 7, .RO, 0x0⟩]⟩,
   ⟨0x4000401C, 1, 4, false, [⟨6, 0, .RO, 0x0⟩, ⟨7, 7, .RO, 0x0⟩, ⟨15, 8, .RO, 0x0⟩, ⟨19, 16, .RO, 0x0⟩, ⟨21, 20, .RO, 0x0⟩, ⟨22, 22, .RO, 0x0⟩]⟩,
   ⟨0x40004020, 1, 4, false, [⟨0, 0, .WO, 0x0⟩, ⟨1, 1, .WO, 0x0⟩, ⟨2, 2, .WO, 0x0⟩, ⟨3, 3, .WO, 0x0⟩]⟩,
   ⟨0x40004024, 1, 4, false, [⟨1, 0, .RW, 0x0⟩, ⟨7, 2, .RW, 0x0⟩, ⟨8, 8, .RW, 0x0⟩, ⟨9, 9, .RW, 0x0⟩, ⟨20, 16, .RW, 0x0⟩]⟩,
   ⟨0x40004028, 1, 4, false, [⟨0, 0, .RO, 0x0⟩, ⟨4, 1, .RO, 0x0⟩, ⟨13, 8, .RO, 0x0⟩, ⟨31, 16, .RO, 0x0⟩]⟩,
   ⟨0x40004030, 1, 4, false, [⟨7, 0, .RC, 0x0⟩, ⟨15, 8, .RC, 0x0⟩, ⟨23, 16, .RC, 0x0⟩, ⟨31, 24, .RC, 0x0⟩]⟩] ++
  [
   ⟨0x40004034, 1, 4, false, [⟨7, 0, .RC, 0x0⟩, ⟨15, 8, .RC, 0x0⟩, ⟨23, 16, .RC, 0x0⟩, ⟨31, 24, .RC, 0x0⟩]⟩,
   ⟨0x40004800, 128, 16, false, [⟨25, 0, .RW, 0x0⟩, ⟨30, 26, .RW, 0x0⟩, ⟨31, 31, .RW, 0x0⟩]⟩,
   ⟨0x40004804, 128, 16, false, [⟨12, 0, .RW, 0x0⟩, ⟨23, 16, .RW, 0x0⟩, ⟨24, 24, .RW, 0x0⟩, ⟨25, 25, .RW, 0x0⟩, ⟨26, 26, .RW, 0x0⟩, ⟨27, 27, .RW, 0x0⟩, ⟨28, 28, .RW, 0x0⟩, ⟨29, 29, .RW, 0x0⟩, ⟨30, 30, .RW, 0x0⟩]⟩,
   ⟨0x40004808, 128, 16, false, [⟨31, 0, .RW, 0x0⟩]⟩,
   ⟨0x4000480C, 128, 16, false, [⟨15, 0, .RW, 0x0⟩, ⟨19, 16, .RW, 0x0⟩, ⟨23, 20, .RW, 0x0⟩, ⟨29, 24, .RW, 0x0⟩]⟩,
   ⟨0x40004600, 128, 4, false, [⟨2, 0, .RO, 0x0⟩, ⟨11, 4, .RO, 0x0⟩, ⟨15, 12, .RO, 0x0⟩, ⟨23, 16, .RO, 0x0⟩, ⟨29, 24, .RO, 0x0⟩]⟩]

/-- The rows of block SRV, in the order of its tables. -/
def regTableSRV : List RegDesc :=
  [
   ⟨0x40005000, 1, 4, false, [⟨1, 0, .RW, 0x0⟩, ⟨4, 4, .RW, 0x0⟩, ⟨15, 8, .RW, 0x8⟩, ⟨23, 16, .RW, 0x4⟩]⟩,
   ⟨0x40005004, 1, 4, false, [⟨0, 0, .RO, 0x0⟩, ⟨1, 1, .RO, 0x1⟩, ⟨2, 2, .RO, 0x0⟩, ⟨3, 3, .RO, 0x0⟩, ⟨8, 4, .RO, 0x0⟩, ⟨17, 9, .RO, 0x0⟩, ⟨19, 18, .RO, 0x0⟩, ⟨23, 20, .RO, 0x0⟩, ⟨31, 24, .RO, 0x0⟩]⟩,
   ⟨0x40005008, 1, 4, false, [⟨15, 0, .RO, 0x0⟩, ⟨31, 16, .RO, 0x0⟩]⟩,
   ⟨0x4000500C, 1, 4, false, [⟨23, 0, .RO, 0x0⟩]⟩,
   ⟨0x40005010, 1, 4, false, [⟨23, 0, .RW, 0x0⟩]⟩,
   ⟨0x40005014, 1, 4, false, [⟨15, 0, .RW, 0x0⟩]⟩,
   ⟨0x40005018, 1, 4, false, [⟨15, 0, .RW, 0x7AE⟩]⟩,
   ⟨0x4000501C, 1, 4, false, [⟨15, 0, .RW, 0x333⟩, ⟨23, 16, .RW, 0x8⟩]⟩,
   ⟨0x40005020, 1, 4, false, [⟨22, 0, .RW, 0x0⟩]⟩,
   ⟨0x40005024, 1, 4, false, [⟨23, 0, .RO, 0x0⟩, ⟨24, 24, .RO, 0x0⟩, ⟨25, 25, .RO, 0x0⟩]⟩,
   ⟨0x40005028, 1, 4, false, [⟨8, 0, .RO, 0x0⟩, ⟨24, 16, .RO, 0x0⟩]⟩,
   ⟨0x40005030, 4, 4, false, [⟨23, 0, .RO, 0x0⟩]⟩,
   ⟨0x40005070, 1, 4, false, [⟨31, 0, .RL, 0x0⟩]⟩,
   ⟨0x40005074, 1, 4, false, [⟨31, 0, .RO, 0x0⟩]⟩,
   ⟨0x40005100, 20, 4, false, [⟨4, 0, .RW, 0x0⟩, ⟨8, 8, .RW, 0x0⟩, ⟨9, 9, .RW, 0x0⟩, ⟨31, 16, .RW, 0x4000⟩]⟩,
   ⟨0x40005040, 1, 4, false, [⟨15, 0, .RW, 0x0⟩, ⟨27, 16, .RW, 0x0⟩]⟩,
   ⟨0x40005044, 1, 4, false, [⟨11, 0, .RW, 0x0⟩]⟩,
   ⟨0x40005048, 1, 4, false, [⟨2, 0, .RO, 0x0⟩, ⟨6, 4, .RO, 0x0⟩, ⟨11, 8, .RO, 0x0⟩]⟩,
   ⟨0x4000504C, 1, 4, false, [⟨15, 0, .RO, 0x0⟩, ⟨27, 16, .RO, 0x0⟩]⟩,
   ⟨0x40005050, 1, 4, false, [⟨11, 0, .RO, 0x0⟩]⟩] ++
  [
   ⟨0x40005054, 1, 4, false, [⟨10, 0, .RO, 0x0⟩, ⟨26, 16, .RC, 0x0⟩]⟩,
   ⟨0x40005058, 1, 4, false, [⟨10, 0, .RW, 0x153⟩]⟩,
   ⟨0x4000505C, 1, 4, false, [⟨7, 0, .RC, 0x0⟩, ⟨15, 8, .RC, 0x0⟩, ⟨23, 16, .RC, 0x0⟩, ⟨31, 24, .RC, 0x0⟩]⟩,
   ⟨0x40005060, 1, 4, false, [⟨7, 0, .RC, 0x0⟩, ⟨15, 8, .RC, 0x0⟩, ⟨23, 16, .RC, 0x0⟩, ⟨31, 24, .RC, 0x0⟩]⟩,
   ⟨0x40005064, 1, 4, false, [⟨0, 0, .W1C, 0x0⟩, ⟨1, 1, .W1C, 0x0⟩, ⟨2, 2, .W1C, 0x0⟩, ⟨3, 3, .W1C, 0x0⟩, ⟨4, 4, .W1C, 0x0⟩, ⟨5, 5, .W1C, 0x0⟩, ⟨6, 6, .W1C, 0x0⟩, ⟨7, 7, .W1C, 0x0⟩, ⟨8, 8, .W1C, 0x0⟩, ⟨9, 9, .W1C, 0x0⟩]⟩,
   ⟨0x40005068, 1, 4, false, [⟨9, 0, .RW, 0x0⟩, ⟨16, 16, .RW, 0x0⟩]⟩,
   ⟨0x4000506C, 1, 4, false, [⟨15, 0, .W1C, 0x0⟩]⟩]

/-- The rows of block FLNK, in the order of its tables. -/
def regTableFLNK : List RegDesc :=
  [
   ⟨0x40006000, 1, 4, false, [⟨0, 0, .RO, 0x0⟩, ⟨1, 1, .W1C, 0x0⟩, ⟨2, 2, .W1C, 0x0⟩, ⟨3, 3, .RO, 0x0⟩]⟩,
   ⟨0x40006004, 1, 4, false, [⟨13, 0, .RW, 0x0⟩, ⟨18, 16, .RW, 0x5⟩, ⟨31, 31, .RW, 0x1⟩]⟩,
   ⟨0x40006008, 1, 4, false, [⟨2, 0, .WO, 0x0⟩]⟩,
   ⟨0x4000600C, 1, 4, false, [⟨2, 0, .RO, 0x0⟩, ⟨6, 4, .RO, 0x0⟩, ⟨7, 7, .RO, 0x0⟩, ⟨10, 8, .RO, 0x0⟩]⟩,
   ⟨0x40006010, 1, 4, false, [⟨17, 0, .RO, 0x0⟩, ⟨31, 24, .RO, 0x0⟩]⟩,
   ⟨0x40006014, 1, 4, false, [⟨15, 0, .RO, 0x0⟩]⟩,
   ⟨0x40006018, 1, 4, false, [⟨7, 0, .RO, 0x0⟩, ⟨31, 16, .RO, 0x0⟩]⟩,
   ⟨0x4000601C, 1, 4, false, [⟨7, 0, .RW, 0xAA⟩, ⟨15, 8, .RW, 0x1E⟩, ⟨23, 16, .RW, 0x50⟩, ⟨31, 24, .RW, 0x6E⟩]⟩,
   ⟨0x40006020, 1, 4, false, [⟨0, 0, .RW, 0x0⟩]⟩,
   ⟨0x40006024, 1, 4, false, [⟨7, 0, .WO, 0x0⟩, ⟨8, 8, .WO, 0x0⟩, ⟨31, 16, .WO, 0x0⟩]⟩,
   ⟨0x40006028, 1, 4, false, [⟨0, 0, .RO, 0x0⟩, ⟨31, 16, .RO, 0x0⟩]⟩,
   ⟨0x4000602C, 1, 4, false, [⟨7, 0, .RC, 0x0⟩, ⟨15, 8, .RC, 0x0⟩, ⟨23, 16, .RC, 0x0⟩, ⟨31, 24, .RC, 0x0⟩]⟩,
   ⟨0x40006030, 1, 4, false, [⟨2, 0, .RW, 0x0⟩, ⟨8, 8, .RW, 0x0⟩, ⟨9, 9, .RW, 0x0⟩]⟩]

/-- The rows of block FIRN, in the order of its tables. -/
def regTableFIRN : List RegDesc :=
  [
   ⟨0x40007000, 1, 4, false, [⟨0, 0, .RW, 0x1⟩, ⟨15, 8, .RW, 0x10⟩, ⟨16, 16, .W1S, 0x0⟩]⟩,
   ⟨0x40007004, 1, 4, false, [⟨0, 0, .RO, 0x0⟩, ⟨1, 1, .RO, 0x0⟩, ⟨2, 2, .RO, 0x0⟩, ⟨3, 3, .RO, 0x0⟩, ⟨10, 4, .RO, 0x0⟩, ⟨11, 11, .RO, 0x0⟩, ⟨13, 12, .RO, 0x0⟩]⟩,
   ⟨0x40007008, 1, 4, false, [⟨14, 0, .RW, 0x4000⟩, ⟨30, 16, .RO, 0x0⟩]⟩,
   ⟨0x4000700C, 1, 4, false, [⟨0, 0, .W1C, 0x0⟩, ⟨1, 1, .W1C, 0x0⟩, ⟨2, 2, .W1C, 0x0⟩, ⟨3, 3, .W1C, 0x0⟩, ⟨4, 4, .W1C, 0x0⟩, ⟨5, 5, .W1C, 0x0⟩, ⟨6, 6, .W1C, 0x0⟩, ⟨7, 7, .W1C, 0x0⟩, ⟨8, 8, .RO, 0x0⟩]⟩,
   ⟨0x40007010, 1, 4, false, [⟨8, 0, .RW, 0x0⟩, ⟨16, 16, .RW, 0x0⟩, ⟨17, 17, .RW, 0x0⟩, ⟨18, 18, .RW, 0x0⟩, ⟨19, 19, .RW, 0x0⟩]⟩,
   ⟨0x40007014, 1, 4, false, [⟨15, 0, .RC, 0x0⟩, ⟨31, 16, .RC, 0x0⟩]⟩,
   ⟨0x40007018, 1, 4, false, [⟨15, 0, .RC, 0x0⟩, ⟨31, 16, .RC, 0x0⟩]⟩,
   ⟨0x4000701C, 1, 4, false, [⟨7, 0, .RC, 0x0⟩, ⟨15, 8, .RC, 0x0⟩, ⟨23, 16, .RC, 0x0⟩, ⟨31, 24, .RC, 0x0⟩]⟩,
   ⟨0x40007020, 1, 4, false, [⟨31, 0, .RO, 0x0⟩]⟩,
   ⟨0x40007080, 1, 4, false, [⟨31, 0, .RW, 0x0⟩]⟩,
   ⟨0x40007084, 1, 4, false, [⟨15, 0, .RW, 0x0⟩]⟩,
   ⟨0x40007088, 1, 4, false, [⟨31, 0, .RW, 0x0⟩]⟩,
   ⟨0x4000708C, 1, 4, false, [⟨2, 0, .WO, 0x0⟩, ⟨5, 4, .WO, 0x0⟩, ⟨11, 8, .WO, 0x0⟩]⟩,
   ⟨0x40007090, 1, 4, false, [⟨31, 16, .RO, 0x0⟩]⟩,
   ⟨0x400070A0, 1, 4, false, [⟨0, 0, .RO, 0x0⟩, ⟨1, 1, .RO, 0x0⟩, ⟨5, 2, .RO, 0x0⟩, ⟨14, 6, .RO, 0x0⟩, ⟨17, 15, .RO, 0x0⟩, ⟨25, 18, .RO, 0x0⟩]⟩,
   ⟨0x400070A4, 1, 4, false, [⟨31, 0, .RO, 0x0⟩]⟩,
   ⟨0x400070A8, 1, 4, false, [⟨31, 0, .RO, 0x0⟩]⟩,
   ⟨0x400070AC, 1, 4, false, [⟨31, 0, .RO, 0x0⟩]⟩,
   ⟨0x400070B0, 1, 4, false, [⟨31, 0, .RO, 0x0⟩]⟩,
   ⟨0x400070B4, 1, 4, false, [⟨31, 0, .RO, 0x0⟩]⟩] ++
  [
   ⟨0x400070B8, 1, 4, false, [⟨0, 0, .WO, 0x0⟩]⟩,
   ⟨0x400070C0, 1, 4, false, [⟨0, 0, .WO, 0x0⟩, ⟨9, 1, .WO, 0x0⟩, ⟨12, 10, .WO, 0x0⟩, ⟨20, 13, .WO, 0x0⟩]⟩,
   ⟨0x400070C4, 1, 4, false, [⟨31, 0, .RW, 0x0⟩]⟩,
   ⟨0x400070C8, 1, 4, false, [⟨31, 0, .RW, 0x0⟩]⟩,
   ⟨0x40007100, 16, 4, false, [⟨7, 0, .RW, 0x0⟩, ⟨9, 8, .RW, 0x0⟩]⟩,
   ⟨0x40007140, 16, 4, false, [⟨31, 0, .RW, 0x0⟩]⟩,
   ⟨0x40007180, 16, 4, false, [⟨14, 0, .RW, 0x0⟩, ⟨30, 16, .RO, 0x0⟩]⟩,
   ⟨0x40007200, 1, 4, true, [⟨31, 0, .RW, 0x0⟩]⟩,
   ⟨0x40007204, 1, 4, true, [⟨15, 0, .RW, 0x0⟩]⟩,
   ⟨0x40007208, 1, 4, true, [⟨3, 0, .WO, 0x0⟩, ⟨7, 4, .WO, 0x0⟩, ⟨13, 8, .WO, 0x0⟩, ⟨14, 14, .WO, 0x0⟩]⟩,
   ⟨0x4000720C, 1, 4, true, [⟨0, 0, .RO, 0x0⟩, ⟨4, 1, .RO, 0x0⟩, ⟨6, 5, .RO, 0x0⟩, ⟨16, 8, .RO, 0x0⟩, ⟨19, 17, .RO, 0x0⟩, ⟨27, 20, .RO, 0x0⟩]⟩,
   ⟨0x40007210, 1, 4, true, [⟨31, 0, .RO, 0x0⟩]⟩,
   ⟨0x40007214, 1, 4, true, [⟨6, 0, .RO, 0x0⟩, ⟨23, 16, .RO, 0x0⟩]⟩,
   ⟨0x40007218, 1, 4, true, [⟨31, 0, .RO, 0x0⟩]⟩,
   ⟨0x4000721C, 1, 4, true, [⟨31, 0, .RO, 0x0⟩]⟩,
   ⟨0x40007220, 1, 4, true, [⟨31, 0, .RO, 0x0⟩]⟩,
   ⟨0x40007224, 1, 4, true, [⟨31, 0, .RO, 0x0⟩]⟩,
   ⟨0x40007228, 1, 4, true, [⟨31, 0, .RO, 0x0⟩]⟩,
   ⟨0x4000722C, 1, 4, true, [⟨31, 0, .RO, 0x0⟩]⟩,
   ⟨0x40007230, 1, 4, true, [⟨31, 0, .RO, 0x0⟩]⟩] ++
  [
   ⟨0x40007234, 1, 4, true, [⟨31, 0, .RO, 0x0⟩]⟩,
   ⟨0x40007240, 1, 4, true, [⟨3, 0, .WO, 0x0⟩, ⟨4, 4, .WO, 0x0⟩, ⟨13, 5, .WO, 0x0⟩, ⟨16, 14, .WO, 0x0⟩, ⟨24, 17, .WO, 0x0⟩, ⟨31, 25, .WO, 0x0⟩]⟩,
   ⟨0x40007244, 1, 4, true, [⟨31, 0, .RW, 0x0⟩]⟩,
   ⟨0x40007248, 1, 4, true, [⟨31, 0, .RW, 0x0⟩]⟩,
   ⟨0x4000724C, 1, 4, true, [⟨31, 0, .RW, 0x0⟩]⟩,
   ⟨0x40007250, 1, 4, true, [⟨31, 0, .RW, 0x0⟩]⟩,
   ⟨0x40007254, 1, 4, true, [⟨0, 0, .RO, 0x0⟩, ⟨4, 1, .RO, 0x0⟩, ⟨14, 8, .RO, 0x0⟩]⟩,
   ⟨0x40007260, 1, 4, true, [⟨31, 0, .RW, 0x0⟩]⟩,
   ⟨0x40007264, 1, 4, true, [⟨7, 0, .RW, 0x0⟩]⟩,
   ⟨0x40007268, 1, 4, true, [⟨2, 0, .WO, 0x0⟩, ⟨13, 8, .WO, 0x0⟩]⟩,
   ⟨0x4000726C, 1, 4, true, [⟨0, 0, .RO, 0x0⟩, ⟨3, 1, .RO, 0x0⟩, ⟨13, 8, .RO, 0x0⟩, ⟨14, 14, .RO, 0x0⟩, ⟨15, 15, .RO, 0x0⟩, ⟨16, 16, .RO, 0x0⟩]⟩,
   ⟨0x40007270, 1, 4, true, [⟨1, 0, .WO, 0x0⟩, ⟨6, 2, .WO, 0x0⟩, ⟨11, 8, .WO, 0x0⟩]⟩,
   ⟨0x40007274, 1, 4, true, [⟨0, 0, .RO, 0x0⟩, ⟨3, 1, .RO, 0x0⟩, ⟨8, 4, .RO, 0x0⟩, ⟨11, 9, .RO, 0x0⟩, ⟨23, 16, .RO, 0x0⟩]⟩,
   ⟨0x40007278, 1, 4, true, [⟨31, 0, .RO, 0x0⟩]⟩]

/-- The rows of block RME, in the order of its tables. -/
def regTableRME : List RegDesc :=
  [
   ⟨0x40008000, 1, 4, false, [⟨0, 0, .W1S, 0x0⟩, ⟨1, 1, .W1S, 0x0⟩]⟩,
   ⟨0x40008004, 1, 4, false, [⟨0, 0, .RO, 0x0⟩, ⟨1, 1, .RO, 0x0⟩, ⟨2, 2, .RO, 0x0⟩, ⟨4, 3, .RO, 0x0⟩]⟩,
   ⟨0x40008008, 1, 4, false, [⟨11, 0, .RO, 0x0⟩, ⟨27, 16, .RO, 0x0⟩]⟩,
   ⟨0x4000800C, 1, 4, false, [⟨0, 0, .W1C, 0x0⟩, ⟨1, 1, .W1C, 0x0⟩, ⟨2, 2, .W1C, 0x0⟩, ⟨3, 3, .W1C, 0x0⟩, ⟨4, 4, .W1C, 0x0⟩]⟩,
   ⟨0x40008010, 1, 4, false, [⟨4, 0, .RW, 0x0⟩, ⟨8, 8, .RW, 0x0⟩, ⟨9, 9, .RW, 0x0⟩]⟩,
   ⟨0x40008014, 1, 4, false, [⟨7, 0, .RC, 0x0⟩, ⟨15, 8, .RC, 0x0⟩, ⟨23, 16, .RC, 0x0⟩, ⟨31, 24, .RC, 0x0⟩]⟩,
   ⟨0x40008018, 1, 4, false, [⟨15, 0, .RC, 0x0⟩]⟩,
   ⟨0x4000801C, 1, 4, false, [⟨10, 0, .RO, 0x0⟩, ⟨26, 16, .RO, 0x0⟩]⟩,
   ⟨0x40008100, 1, 4, true, [⟨31, 0, .RW, 0x0⟩]⟩,
   ⟨0x40008104, 1, 4, true, [⟨15, 0, .RW, 0x0⟩]⟩,
   ⟨0x40008108, 1, 4, true, [⟨0, 0, .WO, 0x0⟩, ⟨4, 1, .WO, 0x0⟩, ⟨7, 5, .WO, 0x0⟩, ⟨8, 8, .WO, 0x0⟩]⟩,
   ⟨0x4000810C, 1, 4, true, [⟨0, 0, .RO, 0x0⟩, ⟨3, 1, .RO, 0x0⟩, ⟨6, 4, .RO, 0x0⟩, ⟨7, 7, .RO, 0x0⟩, ⟨18, 8, .RO, 0x0⟩, ⟨20, 19, .RO, 0x0⟩]⟩,
   ⟨0x40008110, 1, 4, true, [⟨31, 0, .RO, 0x0⟩]⟩,
   ⟨0x40008114, 1, 4, true, [⟨15, 0, .RO, 0x0⟩, ⟨23, 16, .RO, 0x0⟩, ⟨29, 24, .RO, 0x0⟩]⟩,
   ⟨0x40008118, 1, 4, true, [⟨31, 0, .RO, 0x0⟩]⟩,
   ⟨0x40008200, 8, 32, true, [⟨31, 0, .RW, 0x0⟩]⟩,
   ⟨0x40008204, 8, 32, true, [⟨15, 0, .RW, 0x0⟩, ⟨21, 16, .RW, 0x0⟩, ⟨25, 22, .RW, 0x0⟩, ⟨26, 26, .RW, 0x0⟩, ⟨27, 27, .RW, 0x0⟩]⟩,
   ⟨0x40008208, 8, 32, true, [⟨31, 0, .RW, 0x0⟩]⟩,
   ⟨0x4000820C, 8, 32, true, [⟨15, 0, .RW, 0x0⟩, ⟨16, 16, .RW, 0x0⟩, ⟨19, 17, .RW, 0x0⟩, ⟨31, 24, .RW, 0x0⟩]⟩,
   ⟨0x40008210, 8, 32, true, [⟨10, 0, .RW, 0x0⟩]⟩] ++
  [
   ⟨0x40008300, 1, 4, true, [⟨1, 0, .WO, 0x0⟩, ⟨4, 2, .WO, 0x0⟩, ⟨15, 5, .WO, 0x0⟩]⟩,
   ⟨0x40008304, 1, 4, true, [⟨0, 0, .RO, 0x0⟩, ⟨3, 1, .RO, 0x0⟩, ⟨6, 4, .RO, 0x0⟩, ⟨15, 8, .RO, 0x0⟩]⟩]

/-- The rows of block DMA, in the order of its tables. -/
def regTableDMA : List RegDesc :=
  [
   ⟨0x40009000, 1, 4, false, [⟨0, 0, .RW, 0x0⟩, ⟨1, 1, .W1S, 0x0⟩]⟩,
   ⟨0x40009004, 1, 4, false, [⟨0, 0, .RW, 0x0⟩, ⟨31, 6, .RW, 0x0⟩]⟩,
   ⟨0x40009008, 1, 4, false, [⟨15, 0, .RO, 0x0⟩, ⟨16, 16, .RO, 0x0⟩]⟩,
   ⟨0x4000900C, 1, 4, false, [⟨15, 0, .W1C, 0x0⟩, ⟨31, 16, .W1C, 0x0⟩]⟩,
   ⟨0x40009010, 1, 4, false, [⟨31, 0, .RW, 0x0⟩]⟩,
   ⟨0x40009014, 1, 4, false, [⟨7, 0, .RC, 0x0⟩, ⟨15, 8, .RC, 0x0⟩, ⟨23, 16, .RC, 0x0⟩, ⟨31, 24, .RC, 0x0⟩]⟩,
   ⟨0x40009100, 16, 32, false, [⟨2, 0, .RW, 0x0⟩]⟩,
   ⟨0x40009104, 16, 32, false, [⟨31, 0, .WO, 0x0⟩]⟩,
   ⟨0x40009108, 16, 32, false, [⟨2, 0, .RO, 0x0⟩, ⟨7, 3, .RO, 0x0⟩, ⟨15, 8, .RO, 0x0⟩, ⟨16, 16, .W1C, 0x0⟩]⟩,
   ⟨0x4000910C, 16, 32, false, [⟨31, 0, .RO, 0x0⟩]⟩,
   ⟨0x40009110, 16, 32, false, [⟨31, 0, .RO, 0x0⟩]⟩,
   ⟨0x40009114, 16, 32, false, [⟨31, 0, .RO, 0x0⟩]⟩,
   ⟨0x40009118, 16, 32, false, [⟨0, 0, .WO, 0x0⟩]⟩]

/-- The rows of block CRY, in the order of its tables. -/
def regTableCRY : List RegDesc :=
  [
   ⟨0x4000A000, 16, 4, false, [⟨0, 0, .RO, 0x0⟩, ⟨1, 1, .RO, 0x0⟩, ⟨15, 8, .RO, 0x0⟩]⟩,
   ⟨0x4000A040, 1, 4, false, [⟨0, 0, .RO, 0x0⟩, ⟨1, 1, .RO, 0x0⟩]⟩,
   ⟨0x4000A044, 1, 4, false, [⟨15, 0, .RC, 0x0⟩]⟩]

/-- The rows of block UQI, in the order of its tables. -/
def regTableUQI : List RegDesc :=
  [
   ⟨0x4000B000, 1, 4, false, [⟨15, 0, .RW, 0x0⟩]⟩,
   ⟨0x4000B004, 1, 4, false, [⟨10, 0, .RO, 0x0⟩, ⟨16, 16, .RO, 0x0⟩, ⟨17, 17, .RO, 0x0⟩]⟩,
   ⟨0x4000B008, 1, 4, false, [⟨7, 0, .RC, 0x0⟩, ⟨15, 8, .RC, 0x0⟩, ⟨23, 16, .RC, 0x0⟩, ⟨31, 24, .RC, 0x0⟩]⟩,
   ⟨0x4000B00C, 1, 4, false, [⟨0, 0, .W1C, 0x0⟩, ⟨1, 1, .W1C, 0x0⟩, ⟨2, 2, .W1C, 0x0⟩, ⟨3, 3, .W1C, 0x0⟩, ⟨4, 4, .W1C, 0x0⟩, ⟨5, 5, .W1C, 0x0⟩]⟩,
   ⟨0x4000B010, 1, 4, false, [⟨5, 0, .RW, 0x0⟩, ⟨8, 8, .RW, 0x0⟩, ⟨9, 9, .RW, 0x0⟩, ⟨10, 10, .RW, 0x0⟩]⟩,
   ⟨0x4000B040, 1, 4, true, [⟨9, 0, .RO, 0x0⟩, ⟨15, 10, .RO, 0x0⟩, ⟨19, 16, .RO, 0x0⟩, ⟨31, 31, .RO, 0x0⟩]⟩,
   ⟨0x4000B044, 1, 4, true, [⟨0, 0, .WO, 0x0⟩]⟩,
   ⟨0x4000B048, 1, 4, true, [⟨9, 0, .RW, 0x0⟩]⟩,
   ⟨0x4000B050, 1, 4, true, [⟨9, 0, .WO, 0x0⟩, ⟨23, 16, .WO, 0x0⟩]⟩,
   ⟨0x4000B054, 1, 4, true, [⟨31, 0, .RW, 0x0⟩]⟩,
   ⟨0x4000B058, 1, 4, true, [⟨31, 0, .RW, 0x0⟩]⟩,
   ⟨0x4000B05C, 1, 4, true, [⟨0, 0, .RO, 0x0⟩, ⟨1, 1, .RO, 0x0⟩]⟩,
   ⟨0x4000B060, 1, 4, true, [⟨31, 0, .RW, 0x0⟩]⟩,
   ⟨0x4000B064, 1, 4, true, [⟨31, 0, .RW, 0x0⟩]⟩,
   ⟨0x4000B068, 1, 4, true, [⟨23, 0, .RW, 0x0⟩]⟩,
   ⟨0x4000B06C, 1, 4, true, [⟨9, 0, .WO, 0x0⟩, ⟨10, 10, .WO, 0x0⟩, ⟨11, 11, .WO, 0x0⟩, ⟨23, 16, .WO, 0x0⟩]⟩,
   ⟨0x4000B070, 1, 4, true, [⟨7, 0, .RO, 0x0⟩, ⟨12, 8, .RO, 0x0⟩, ⟨23, 16, .RO, 0x0⟩, ⟨31, 31, .RO, 0x0⟩]⟩,
   ⟨0x4000B074, 1, 4, true, [⟨31, 0, .RO, 0x0⟩]⟩,
   ⟨0x4000B078, 1, 4, true, [⟨0, 0, .WO, 0x0⟩]⟩,
   ⟨0x4000B080, 16, 4, true, [⟨31, 0, .RO, 0x0⟩]⟩] ++
  [
   ⟨0x4000B100, 64, 4, false, [⟨3, 0, .RW, 0x0⟩, ⟨11, 8, .RW, 0x0⟩]⟩,
   ⟨0x4000B0C0, 8, 8, true, [⟨31, 0, .RO, 0x0⟩]⟩,
   ⟨0x4000B0C4, 8, 8, true, [⟨15, 0, .RO, 0x0⟩, ⟨31, 16, .RO, 0x0⟩]⟩,
   ⟨0x4000B200, 16, 4, false, [⟨0, 0, .RW, 0x0⟩]⟩]

/-- The rows of block MGT, in the order of its tables. -/
def regTableMGT : List RegDesc :=
  [
   ⟨0x4000C800, 1, 4, false, [⟨0, 0, .W1S, 0x0⟩]⟩,
   ⟨0x4000C804, 1, 4, false, [⟨0, 0, .RO, 0x0⟩, ⟨3, 1, .RO, 0x0⟩, ⟨7, 4, .RO, 0x0⟩]⟩,
   ⟨0x4000C840, 16, 8, false, [⟨23, 0, .RO, 0x0⟩, ⟨31, 24, .RO, 0x0⟩]⟩,
   ⟨0x4000C844, 16, 8, false, [⟨31, 0, .RO, 0x0⟩]⟩,
   ⟨0x4000C000, 1, 4, false, [⟨0, 0, .RW, 0x0⟩, ⟨1, 1, .RW, 0x0⟩, ⟨8, 8, .RW, 0x0⟩, ⟨9, 9, .RW, 0x0⟩]⟩,
   ⟨0x4000C004, 1, 4, false, [⟨0, 0, .RO, 0x0⟩, ⟨7, 1, .RO, 0x0⟩, ⟨8, 8, .RO, 0x0⟩, ⟨15, 9, .RO, 0x0⟩, ⟨16, 16, .RO, 0x0⟩, ⟨17, 17, .RO, 0x0⟩, ⟨18, 18, .RO, 0x0⟩, ⟨19, 19, .RO, 0x0⟩]⟩,
   ⟨0x4000C008, 1, 4, false, [⟨0, 0, .WO, 0x0⟩]⟩,
   ⟨0x4000C00C, 1, 4, false, [⟨7, 0, .WO, 0x0⟩, ⟨8, 8, .WO, 0x0⟩]⟩,
   ⟨0x4000C040, 15, 4, false, [⟨31, 0, .RW, 0x0⟩]⟩,
   ⟨0x4000C080, 1, 4, false, [⟨31, 12, .RW, 0x0⟩]⟩,
   ⟨0x4000C084, 1, 4, false, [⟨12, 0, .RW, 0x0⟩]⟩,
   ⟨0x4000C088, 1, 4, false, [⟨31, 12, .RW, 0x0⟩]⟩,
   ⟨0x4000C08C, 1, 4, false, [⟨12, 0, .RO, 0x0⟩, ⟨23, 16, .RO, 0x0⟩, ⟨26, 24, .RO, 0x0⟩, ⟨27, 27, .RO, 0x0⟩, ⟨31, 31, .WO, 0x0⟩]⟩,
   ⟨0x4000C090, 1, 4, false, [⟨31, 12, .RW, 0x0⟩]⟩,
   ⟨0x4000C094, 1, 4, false, [⟨12, 0, .WO, 0x0⟩, ⟨23, 16, .WO, 0x0⟩, ⟨26, 24, .WO, 0x0⟩, ⟨27, 27, .WO, 0x0⟩]⟩,
   ⟨0x4000C098, 1, 4, false, [⟨7, 0, .RW, 0x0⟩]⟩,
   ⟨0x4000C0A0, 1, 4, false, [⟨7, 0, .RC, 0x0⟩, ⟨15, 8, .RC, 0x0⟩, ⟨23, 16, .RC, 0x0⟩]⟩,
   ⟨0x4000C400, 96, 4, false, [⟨31, 0, .RO, 0x0⟩]⟩,
   ⟨0x4000C5FC, 1, 4, false, [⟨9, 0, .RO, 0x0⟩]⟩,
   ⟨0x4000C600, 128, 4, false, [⟨31, 0, .RO, 0x0⟩]⟩]

/-- The rows of block SST, in the order of its tables. -/
def regTableSST : List RegDesc :=
  [
   ⟨0x4000D000, 1, 4, false, [⟨0, 0, .RO, 0x0⟩, ⟨1, 1, .RO, 0x0⟩, ⟨2, 2, .RO, 0x0⟩, ⟨3, 3, .RO, 0x0⟩, ⟨5, 4, .RO, 0x0⟩, ⟨8, 8, .RO, 0x0⟩, ⟨9, 9, .RO, 0x0⟩, ⟨10, 10, .RO, 0x0⟩]⟩,
   ⟨0x4000D004, 1, 4, false, [⟨2, 0, .RO, 0x0⟩, ⟨7, 4, .RO, 0x0⟩, ⟨9, 8, .RO, 0x0⟩]⟩,
   ⟨0x4000D010, 7, 4, false, [⟨4, 0, .RO, 0x0⟩, ⟨12, 8, .RO, 0x0⟩, ⟨20, 16, .RO, 0x0⟩, ⟨25, 24, .RO, 0x0⟩]⟩,
   ⟨0x4000D040, 1, 4, false, [⟨2, 0, .WO, 0x0⟩]⟩,
   ⟨0x4000D044, 1, 4, false, [⟨4, 0, .RO, 0x0⟩, ⟨8, 8, .W1C, 0x0⟩]⟩,
   ⟨0x4000D048, 1, 4, false, [⟨2, 0, .RO, 0x0⟩, ⟨4, 4, .RO, 0x1⟩]⟩,
   ⟨0x4000D050, 3, 4, false, [⟨10, 0, .RO, 0x0⟩, ⟨26, 16, .RC, 0x0⟩, ⟨27, 27, .RO, 0x0⟩]⟩,
   ⟨0x4000D060, 4, 4, false, [⟨31, 0, .RO, 0x0⟩]⟩,
   ⟨0x4000D070, 1, 4, false, [⟨13, 0, .RO, 0x0⟩]⟩,
   ⟨0x4000D080, 1, 4, false, [⟨0, 0, .W1S, 0x0⟩, ⟨1, 1, .W1S, 0x0⟩, ⟨2, 2, .W1S, 0x0⟩]⟩,
   ⟨0x4000D090, 1, 4, false, [⟨1, 0, .WO, 0x0⟩, ⟨7, 4, .WO, 0x0⟩]⟩,
   ⟨0x4000D094, 1, 4, false, [⟨0, 0, .RO, 0x0⟩, ⟨2, 1, .RO, 0x0⟩]⟩,
   ⟨0x4000D0A0, 8, 4, false, [⟨31, 0, .WO, 0x0⟩]⟩,
   ⟨0x4000D0C0, 1, 4, false, [⟨0, 0, .WO, 0x0⟩]⟩,
   ⟨0x4000D0C4, 1, 4, false, [⟨0, 0, .RO, 0x0⟩, ⟨2, 1, .RO, 0x0⟩]⟩,
   ⟨0x4000D100, 12, 4, false, [⟨31, 0, .RW, 0x0⟩]⟩,
   ⟨0x4000D140, 12, 4, false, [⟨31, 0, .RO, 0x0⟩]⟩,
   ⟨0x4000D180, 12, 4, false, [⟨31, 0, .RO, 0x0⟩]⟩,
   ⟨0x4000D200, 24, 4, false, [⟨31, 0, .RO, 0x0⟩]⟩,
   ⟨0x4000D260, 24, 4, false, [⟨31, 0, .RO, 0x0⟩]⟩] ++
  [
   ⟨0x4000D300, 48, 4, false, [⟨31, 0, .RO, 0x0⟩]⟩,
   ⟨0x4000D3C0, 1, 4, false, [⟨0, 0, .RO, 0x0⟩, ⟨7, 4, .RO, 0x0⟩, ⟨14, 8, .RO, 0x0⟩, ⟨29, 16, .RO, 0x0⟩]⟩,
   ⟨0x4000D800, 1, 4, false, [⟨3, 0, .WO, 0x0⟩, ⟨5, 4, .WO, 0x0⟩, ⟨29, 16, .WO, 0x0⟩]⟩,
   ⟨0x4000D804, 1, 4, false, [⟨0, 0, .RO, 0x0⟩, ⟨2, 1, .RO, 0x0⟩]⟩]

/-- The rows of block MOR, in the order of its tables. -/
def regTableMOR : List RegDesc :=
  [
   ⟨0x4000E000, 1, 4, false, [⟨7, 0, .RW, 0x40⟩, ⟨8, 8, .WO, 0x0⟩]⟩,
   ⟨0x4000E004, 1, 4, false, [⟨0, 0, .RO, 0x0⟩, ⟨1, 1, .RO, 0x0⟩, ⟨2, 2, .RO, 0x0⟩, ⟨3, 3, .RO, 0x0⟩, ⟨10, 4, .RO, 0x0⟩, ⟨16, 16, .W1C, 0x0⟩, ⟨17, 17, .W1C, 0x0⟩, ⟨18, 18, .W1C, 0x0⟩, ⟨19, 19, .W1C, 0x0⟩]⟩,
   ⟨0x4000E008, 1, 4, false, [⟨31, 0, .RL, 0x0⟩]⟩,
   ⟨0x4000E00C, 1, 4, false, [⟨31, 0, .RO, 0x0⟩]⟩,
   ⟨0x4000E010, 1, 4, false, [⟨31, 0, .RO, 0x0⟩]⟩,
   ⟨0x4000E014, 1, 4, false, [⟨31, 0, .RL, 0x0⟩]⟩,
   ⟨0x4000E018, 1, 4, false, [⟨31, 0, .RO, 0x0⟩]⟩,
   ⟨0x4000E01C, 1, 4, false, [⟨7, 0, .RC, 0x0⟩, ⟨15, 8, .RC, 0x0⟩, ⟨23, 16, .RO, 0x0⟩, ⟨30, 24, .RC, 0x0⟩]⟩,
   ⟨0x4000E020, 1, 4, false, [⟨12, 0, .RO, 0x0⟩, ⟨28, 16, .RO, 0x0⟩]⟩,
   ⟨0x4000E024, 1, 4, false, [⟨31, 0, .RL, 0x0⟩]⟩,
   ⟨0x4000E028, 1, 4, false, [⟨31, 0, .RO, 0x0⟩]⟩,
   ⟨0x4000E02C, 1, 4, false, [⟨3, 0, .RW, 0x0⟩, ⟨8, 8, .RW, 0x0⟩, ⟨9, 9, .RW, 0x0⟩]⟩,
   ⟨0x4000E040, 1, 4, true, [⟨15, 0, .WO, 0x0⟩, ⟨24, 16, .WO, 0x0⟩, ⟨29, 25, .WO, 0x0⟩]⟩,
   ⟨0x4000E044, 1, 4, true, [⟨1, 0, .RO, 0x0⟩]⟩,
   ⟨0x4000E048, 1, 4, true, [⟨31, 0, .RW, 0x0⟩]⟩,
   ⟨0x4000E04C, 1, 4, true, [⟨31, 0, .RW, 0x0⟩]⟩,
   ⟨0x4000E050, 1, 4, true, [⟨0, 0, .WO, 0x0⟩]⟩,
   ⟨0x4000E054, 1, 4, true, [⟨0, 0, .RO, 0x0⟩, ⟨3, 1, .RO, 0x0⟩, ⟨16, 4, .RO, 0x0⟩]⟩,
   ⟨0x4000E400, 79, 4, true, [⟨31, 0, .RW, 0x0⟩]⟩,
   ⟨0x4000E600, 128, 4, true, [⟨31, 0, .RO, 0x0⟩]⟩]

/-- The rows of block STO, in the order of its tables. -/
def regTableSTO : List RegDesc :=
  [
   ⟨0x4000F000, 1, 4, false, [⟨0, 0, .RO, 0x0⟩, ⟨1, 1, .RO, 0x0⟩, ⟨15, 8, .RO, 0x0⟩, ⟨26, 16, .RO, 0x0⟩]⟩,
   ⟨0x4000F004, 1, 4, false, [⟨3, 0, .RO, 0x0⟩, ⟨15, 8, .RO, 0x0⟩, ⟨16, 16, .W1C, 0x0⟩]⟩,
   ⟨0x4000F008, 1, 4, false, [⟨27, 0, .RO, 0x0⟩]⟩,
   ⟨0x4000F00C, 1, 4, false, [⟨7, 0, .RC, 0x0⟩, ⟨15, 8, .RC, 0x0⟩, ⟨23, 16, .RC, 0x0⟩, ⟨31, 24, .RC, 0x0⟩]⟩,
   ⟨0x4000F010, 1, 4, false, [⟨5, 0, .RW, 0x0⟩, ⟨31, 31, .W1S, 0x0⟩]⟩,
   ⟨0x4000F014, 1, 4, false, [⟨15, 0, .RW, 0x0⟩]⟩,
   ⟨0x4000F018, 1, 4, false, [⟨15, 0, .RO, 0x0⟩]⟩,
   ⟨0x4000F01C, 1, 4, false, [⟨3, 0, .RW, 0x0⟩, ⟨7, 4, .RW, 0x0⟩]⟩,
   ⟨0x4000F020, 1, 4, false, [⟨11, 0, .WO, 0x0⟩, ⟨14, 12, .WO, 0x0⟩]⟩,
   ⟨0x4000F024, 1, 4, false, [⟨0, 0, .RO, 0x0⟩, ⟨2, 1, .RO, 0x0⟩]⟩,
   ⟨0x4000F030, 1, 4, false, [⟨0, 0, .RW, 0x0⟩, ⟨1, 1, .RW, 0x0⟩, ⟨8, 8, .RW, 0x0⟩, ⟨9, 9, .RW, 0x0⟩]⟩,
   ⟨0x4000F034, 1, 4, false, [⟨15, 0, .W1C, 0x0⟩]⟩,
   ⟨0x4000F040, 16, 4, false, [⟨0, 0, .RO, 0x1⟩, ⟨1, 1, .RO, 0x0⟩, ⟨2, 2, .RO, 0x0⟩, ⟨3, 3, .RO, 0x0⟩, ⟨4, 4, .RO, 0x0⟩, ⟨5, 5, .RO, 0x0⟩, ⟨6, 6, .RO, 0x0⟩, ⟨19, 8, .RO, 0x0⟩]⟩]

/-- The rows of block PCM, in the order of its tables. -/
def regTablePCM : List RegDesc :=
  [
   ⟨0x40010000, 1, 4, false, [⟨2, 0, .RO, 0x1⟩, ⟨6, 4, .RO, 0x0⟩, ⟨19, 16, .RO, 0x0⟩]⟩,
   ⟨0x40010004, 1, 4, false, [⟨2, 0, .WO, 0x0⟩]⟩,
   ⟨0x40010008, 1, 4, false, [⟨0, 0, .RO, 0x0⟩, ⟨3, 1, .RO, 0x0⟩, ⟨7, 4, .RO, 0x0⟩, ⟨8, 8, .W1C, 0x0⟩, ⟨9, 9, .RO, 0x0⟩]⟩,
   ⟨0x4001000C, 1, 4, false, [⟨7, 0, .RW, 0xA⟩]⟩,
   ⟨0x40010010, 1, 4, false, [⟨6, 0, .W1C, 0x0⟩]⟩,
   ⟨0x40010014, 1, 4, false, [⟨1, 0, .RO, 0x0⟩]⟩,
   ⟨0x40010018, 1, 4, false, [⟨12, 0, .RO, 0x0⟩]⟩,
   ⟨0x4001001C, 1, 4, false, [⟨24, 0, .RO, 0x0⟩]⟩]

/-- The rows of block PMX, in the order of its tables. -/
def regTablePMX : List RegDesc :=
  [
   ⟨0x40011000, 1, 4, false, [⟨0, 0, .WO, 0x0⟩]⟩,
   ⟨0x40011004, 1, 4, false, [⟨0, 0, .RO, 0x0⟩, ⟨3, 1, .RO, 0x0⟩, ⟨4, 4, .W1C, 0x0⟩]⟩,
   ⟨0x40011008, 1, 4, false, [⟨23, 0, .RO, 0x0⟩]⟩,
   ⟨0x4001100C, 1, 4, false, [⟨0, 0, .RO, 0x0⟩, ⟨1, 1, .RO, 0x0⟩, ⟨3, 2, .RO, 0x0⟩]⟩,
   ⟨0x40011010, 1, 4, false, [⟨23, 0, .RW, 0x0⟩]⟩,
   ⟨0x40011014, 1, 4, false, [⟨23, 0, .RW, 0x0⟩]⟩,
   ⟨0x40011018, 1, 4, false, [⟨23, 0, .RO, 0x0⟩]⟩,
   ⟨0x40011040, 1, 4, false, [⟨15, 0, .RW, 0xD9⟩, ⟨16, 16, .RW, 0x0⟩, ⟨17, 17, .WO, 0x0⟩]⟩,
   ⟨0x40011044, 1, 4, false, [⟨0, 0, .RO, 0x0⟩, ⟨1, 1, .RO, 0x0⟩, ⟨2, 2, .RO, 0x0⟩, ⟨3, 3, .RO, 0x0⟩, ⟨8, 8, .W1C, 0x0⟩, ⟨9, 9, .W1C, 0x0⟩, ⟨10, 10, .W1C, 0x0⟩]⟩,
   ⟨0x40011048, 1, 4, false, [⟨7, 0, .WO, 0x0⟩]⟩,
   ⟨0x4001104C, 1, 4, false, [⟨7, 0, .RO, 0x0⟩]⟩,
   ⟨0x40011100, 24, 4, false, [⟨1, 0, .RW, 0x0⟩, ⟨5, 4, .RO, 0x0⟩, ⟨9, 8, .RW, 0x1⟩, ⟨11, 10, .RW, 0x0⟩, ⟨13, 12, .RW, 0x1⟩, ⟨14, 14, .RW, 0x0⟩, ⟨16, 16, .W1S, 0x0⟩, ⟨17, 17, .RO, 0x0⟩, ⟨18, 18, .W1C, 0x0⟩]⟩]

/-- The rows of block DRP, in the order of its tables. -/
def regTableDRP : List RegDesc :=
  [
   ⟨0x40012000, 1, 4, false, [⟨7, 0, .RW, 0x67⟩, ⟨15, 8, .RW, 0x6E⟩, ⟨23, 16, .RW, 0x58⟩]⟩,
   ⟨0x40012004, 1, 4, false, [⟨7, 0, .RW, 0x10⟩, ⟨15, 8, .RW, 0x10⟩]⟩,
   ⟨0x40012008, 1, 4, false, [⟨0, 0, .RO, 0x0⟩, ⟨1, 1, .W1C, 0x0⟩, ⟨15, 8, .RO, 0x0⟩, ⟨23, 16, .RC, 0xFF⟩]⟩,
   ⟨0x4001200C, 1, 4, false, [⟨15, 0, .RC, 0x0⟩]⟩,
   ⟨0x40012010, 1, 4, false, [⟨31, 0, .RL, 0x0⟩]⟩,
   ⟨0x40012014, 1, 4, false, [⟨31, 0, .RO, 0x0⟩]⟩,
   ⟨0x40012018, 1, 4, false, [⟨0, 0, .RW, 0x0⟩]⟩]

/-- The rows of block BAR, in the order of its tables. -/
def regTableBAR : List RegDesc :=
  [
   ⟨0x900000000, 1, 4, false, []⟩,
   ⟨0x900000004, 1, 4, false, [⟨6, 0, .RO, 0x40⟩, ⟨13, 7, .RO, 0x40⟩, ⟨18, 14, .RO, 0x10⟩, ⟨24, 19, .RO, 0x20⟩, ⟨25, 25, .RO, 0x0⟩]⟩,
   ⟨0x900000080, 1, 4, false, [⟨0, 0, .RW, 0x0⟩, ⟨1, 1, .W1S, 0x0⟩]⟩,
   ⟨0x900000100, 8, 16, false, [⟨0, 0, .RW, 0x0⟩, ⟨31, 12, .RW, 0x0⟩]⟩,
   ⟨0x900000104, 8, 16, false, [⟨31, 0, .RW, 0x0⟩]⟩,
   ⟨0x900000108, 8, 16, false, [⟨31, 12, .RW, 0x0⟩]⟩,
   ⟨0x90000010C, 8, 16, false, [⟨31, 0, .RW, 0x0⟩]⟩,
   ⟨0x900000400, 64, 16, false, [⟨31, 12, .RW, 0x0⟩]⟩,
   ⟨0x900000404, 64, 16, false, [⟨31, 0, .RW, 0x0⟩]⟩,
   ⟨0x900000408, 64, 16, false, [⟨11, 0, .RW, 0x0⟩, ⟨21, 16, .RW, 0x0⟩]⟩,
   ⟨0x90000040C, 64, 16, false, [⟨0, 0, .RW, 0x0⟩, ⟨4, 4, .WO, 0x0⟩, ⟨5, 5, .WO, 0x0⟩]⟩,
   ⟨0x900000800, 64, 16, false, [⟨31, 12, .RW, 0x0⟩]⟩,
   ⟨0x900000804, 64, 16, false, [⟨31, 0, .RW, 0x0⟩]⟩,
   ⟨0x900000808, 64, 16, false, [⟨11, 0, .RW, 0x0⟩, ⟨20, 16, .RW, 0x0⟩, ⟨24, 24, .RW, 0x0⟩, ⟨31, 28, .RW, 0x0⟩]⟩,
   ⟨0x90000080C, 64, 16, false, [⟨0, 0, .RW, 0x0⟩, ⟨15, 8, .RW, 0x0⟩]⟩,
   ⟨0x900000C00, 16, 8, false, [⟨0, 0, .RW, 0x0⟩, ⟨1, 1, .RW, 0x0⟩, ⟨2, 2, .RW, 0x0⟩, ⟨31, 12, .RW, 0x0⟩]⟩,
   ⟨0x900000C04, 16, 8, false, [⟨31, 0, .RW, 0x0⟩]⟩]

/-- The rows of block TRF, in the order of its tables. -/
def regTableTRF : List RegDesc :=
  [
   ⟨0xA00000000, 1, 4, false, [⟨7, 0, .RW, 0x0⟩, ⟨15, 8, .RW, 0x0⟩]⟩,
   ⟨0xA00000004, 7, 4, false, [⟨31, 0, .RW, 0x0⟩]⟩,
   ⟨0xA00000020, 1, 4, false, [⟨0, 0, .RO, 0x0⟩, ⟨1, 1, .W1C, 0x0⟩, ⟨2, 2, .RO, 0x0⟩, ⟨3, 3, .W1C, 0x0⟩, ⟨15, 8, .RO, 0x0⟩, ⟨23, 16, .RO, 0x0⟩]⟩,
   ⟨0xA00000024, 5, 4, false, [⟨31, 0, .RO, 0x0⟩]⟩,
   ⟨0xA00000038, 1, 4, false, [⟨12, 0, .RO, 0x0⟩]⟩,
   ⟨0xA0000003C, 1, 4, false, [⟨31, 0, .RW, 0x0⟩]⟩]

/-- The rows of the block that holds an address, found by the block's base (Table 1.4). -/
def regTableOf (a : Nat) : List RegDesc :=
  match a / 4096 with
  | 0x40000 => regTableGLB
  | 0x40001 => regTableATB
  | 0x40002 => regTableASC
  | 0x40003 => regTableWSQ
  | 0x40004 => regTableCHN
  | 0x40005 => regTableSRV
  | 0x40006 => regTableFLNK
  | 0x40007 => regTableFIRN
  | 0x40008 => regTableRME
  | 0x40009 => regTableDMA
  | 0x4000A => regTableCRY
  | 0x4000B => regTableUQI
  | 0x4000C => regTableMGT
  | 0x4000D => regTableSST
  | 0x4000E => regTableMOR
  | 0x4000F => regTableSTO
  | 0x40010 => regTablePCM
  | 0x40011 => regTablePMX
  | 0x40012 => regTableDRP
  | 0xA00000 => regTableTRF
  | b => if b / 16 = 0x90000 then regTableBAR else []


end Sys2Proof
end

