-- ==== Sys2Proof/Machine/Sparse.lean ====
section
/-! DEFINITION. Sparse maps in one canonical form: a list of key and value pairs with strictly rising keys, in which
no pair equals what an unlisted key reads as. Memories, the register file and the device's tables are kept this way,
so that equal contents are equal data. -/

namespace Sys2Proof

namespace Sparse

variable {α : Type} [DecidableEq α]

/-- What a key holds: its listed value, or the default of an unlisted key. -/
def read (d : Nat → α) : List (Nat × α) → Nat → α
  | [], k => d k
  | (j, v) :: m, k => if k = j then v else if k < j then d k else read d m k

/-- The pair for a key, or none where the value is the default. -/
def cell (d : Nat → α) (k : Nat) (v : α) : List (Nat × α) :=
  if v = d k then [] else [(k, v)]

/-- Store a value under a key, keeping the canonical form. -/
def write (d : Nat → α) : List (Nat × α) → Nat → α → List (Nat × α)
  | [], k, v => cell d k v
  | (j, w) :: m, k, v =>
    if k < j then cell d k v ++ (j, w) :: m
    else if k = j then cell d k v ++ m
    else (j, w) :: write d m k v

/-- The canonical form above a key: keys rise strictly from it and no value is the default. -/
def wfFrom (d : Nat → α) : Nat → List (Nat × α) → Bool
  | _, [] => true
  | b, (j, v) :: m => decide (b ≤ j) && decide (v ≠ d j) && wfFrom d (j + 1) m

/-- The canonical form. -/
def wf (d : Nat → α) (m : List (Nat × α)) : Bool := wfFrom d 0 m

/-- Store the values of a list from a key upward. -/
def writeList (d : Nat → α) (m : List (Nat × α)) (k : Nat) : List α → List (Nat × α)
  | [] => m
  | v :: vs => writeList d (write d m k v) (k + 1) vs

/-- The values of `n` keys from `k` upward. -/
def readList (d : Nat → α) (m : List (Nat × α)) (k : Nat) : Nat → List α
  | 0 => []
  | n + 1 => read d m k :: readList d m (k + 1) n

/-- Drop every pair whose key does not satisfy a test. -/
def keep (p : Nat → Bool) (m : List (Nat × α)) : List (Nat × α) := m.filter fun c => p c.1

end Sparse

end Sys2Proof
end

