-- ==== Sys2Proof/Machine/State.lean ====
section
/-! DEFINITION. The state of the device: every register, memory, queue, buffer, engine and pin that the spec names,
as plain data, and the queue of the commands that wait. -/

namespace Sys2Proof.Machine

open Sys2Proof

/-- A table of values under small number keys, in the canonical form of `Sparse`. -/
abbrev Tab (α : Type) := List (Nat × α)

/-- The register file: register words by key, listed where they differ from the reset value. -/
abbrev RegFile := List (Nat × Word)

/-- Byte memory by address, listed where it differs from what an unlisted byte reads as. -/
abbrev Mem := List Host.Cell

/-- The dynamic state of the angle timebase beside its registers (R28, R29, R33, R34, Table 2.3). -/
structure AtbState where
  /-- The 64-bit angle counter: ticks in [31:0], revolutions in [63:32] (R29). -/
  count : BitVec 64 := 0
  /-- The 1/65,536 tick fraction of the COAST increment (Table 2.3). -/
  frac : Nat := 0
  /-- The counter when the present state was entered, for ACQ_REVS and HOLD_REVS. -/
  entered : BitVec 64 := 0
  /-- ACQUIRE was entered from HOLDOVER, so one index mark suffices. -/
  fromHoldover : Bool := false
  /-- Index marks recognised in this attempt, each exactly 2^20 cycles after the one before. -/
  marks : Nat := 0
  /-- The index has been located since the search began (R28). -/
  located : Bool := false
  /-- Consecutive cycles that qualify, up to 256, and that do not, up to 16; they run in every state (R500). -/
  qual : Nat := 0
  low : Nat := 0
  /-- Consecutive cycles with phase error within LOCKWIN, up to 1024, and beyond LOSSWIN, up to 16 (R500). -/
  inside : Nat := 0
  beyond : Nat := 0
  /-- The cycle of the revolution, counted from the index located last (R28). -/
  cyc : Nat := 0
  /-- While the index is searched for: consecutive cycles with phase error above 1/4 cycle, and the cycles that are still
  ignored after a run of them (R28). -/
  bad : Nat := 0
  ignore : Nat := 0
  /-- The largest phase error of the present attempt to lock (record 0x0312). -/
  peak : Nat := 0
  /-- The clock-track frequency at the last index stood for 5,000 to 10,500 rpm (R508). -/
  inSpan : Bool := false
  /-- The counter as captured at the leading edge of the last recognised index (R28). -/
  edge : BitVec 64 := 0
  /-- Consecutive missed indexes while LOCKED. -/
  missed : Nat := 0
  deriving DecidableEq, Repr

/-- The states of a scheduler entry (Table 2.6). -/
inductive EntState where
  | free | armed | dispatched | issued | suppressed | cancelled
  deriving DecidableEq, Repr

/-- One scheduler entry: the words it was armed with, its state, and the counter value of its next passage. -/
structure AscEntry where
  tgt : Word := 0
  cfg : Word := 0
  arg : Word := 0
  st : EntState := .free
  due : Nat := 0
  deriving DecidableEq, Repr

/-- An event latched in the block of a gated domain (R501): class, argument, and the counter value of its target. -/
structure Latched where
  cls : Nat
  arg : Nat
  due : Nat
  deriving DecidableEq, Repr

/-- A program running in a bank: who asked, the page's array address and its data as offset and byte pairs. -/
structure ProgOp where
  req : Req
  page : Nat
  data : List (Nat × Byte)
  deriving DecidableEq, Repr

/-- An erase running or suspended in a bank: who asked and the absolute sector. -/
structure EraseOp where
  req : Req
  sector : Nat
  deriving DecidableEq, Repr

/-- One bank of the Store die (R173 to R175, R181, R183). -/
structure Bank where
  prog : Option ProgOp := none
  erase : Option EraseOp := none
  /-- The erase is explicitly suspended. -/
  susp : Bool := false
  /-- A resume was accepted while a program runs (R174). -/
  resumeDue : Bool := false
  refuse : Bool := false
  pfail : Bool := false
  efail : Bool := false
  /-- The INCOMPLETE sector of the bank (R181). -/
  inc : Option Nat := none
  /-- Erases started in this bank since manufacture (OPSEQ, Table 7.6). -/
  opseq : Nat := 0
  /-- The info row is being erased in the background (R183). -/
  infoErase : Bool := false
  /-- Completed window pages that wait for a running program (R172). -/
  waiting : List ProgOp := []
  deriving DecidableEq, Repr

/-- The next cycle a command sequence expects (R169 to R171). -/
inductive SeqPos where
  | idle
  | key2
  | setup
  /-- Data cycles: the page, the count N and the words so far as page offset and word. -/
  | data (page n : Nat) (got : List (Nat × Word))
  | erase
  deriving DecidableEq, Repr

/-- What one master's reads of one bank return, and where its sequence stands. -/
structure SeqState where
  pos : SeqPos := .idle
  /-- 0 none, 1 program verify, 2 erase verify (R178). -/
  margin : Nat := 0
  info : Bool := false
  status : Bool := false
  deriving DecidableEq, Repr

/-- The partial page a master has in the page-program window (R172): page address and words so far. -/
structure PartPage where
  page : Nat
  words : List Word
  deriving DecidableEq, Repr

/-- The Store die controller. -/
structure StoState where
  banks : Tab Bank := []
  /-- Sequence states by bank × 64 + requester. -/
  seqs : Tab SeqState := []
  /-- Partial pages by requester. -/
  pages : Tab (Option PartPage) := []
  /-- The info rows of the 16 banks and, as row 16, the defect info sector, 64 KiB each (R182). -/
  info : Mem := []
  /-- A grown-bad append in progress: sector and cause (R179). -/
  mbad : Option (Nat × Nat) := none
  /-- DMA channels whose page was refused or failed, with the STO_ERR cause (R341). -/
  chFault : List (Nat × Nat) := []
  deriving DecidableEq, Repr

/-- A requested transition in progress (Table 4.6): the mode requested, the mode at the request, and the step: the
quiesce that leaves FLOW, the quiesce for DORMANT, or the exit from DORMANT. -/
inductive PcmStep where
  | leaveFlow | sleep | wake
  deriving DecidableEq, Repr

structure PcmPend where
  final : Nat
  source : Nat
  step : PcmStep
  deriving DecidableEq, Repr

/-- Power, clock and mode control and the droop governor, beside their registers (chapter 4). -/
structure PcmState where
  pend : Option PcmPend := none
  /-- The PSUP packet sent last (R86, R236). -/
  psup : Bool := false
  /-- The levels of PWR_RSTN and BAY_DETN. -/
  rstn : Bool := true
  bay : Bool := false
  /-- The droop figures kept for record 0x0602 (R105): episodes, lowest sample, slowed time. -/
  episodes : Nat := 0
  lowest : Nat := 0xFF
  slowed : Nat := 0
  /-- The high word of the slowed-time counter (Table 4.11). -/
  sltHi : Nat := 0
  /-- The lowest sample of the episode in progress. -/
  epLow : Nat := 0xFF
  /-- After a spin-up that failed the DORMANT domains gate again as soon as no channel runs (R98, R102). -/
  regate : Bool := false
  deriving DecidableEq, Repr

/-- Spindle states (Table 10.3), in the encoding of FLNK_PD.SPST. -/
inductive Spin where
  | stopped | start | accel | atSpeed | coast | holdup | brake
  deriving DecidableEq, Repr

/-- Actuator states (Table 10.2), in the encoding of FLNK_PD.ACTST. -/
inductive Act where
  | fullpark | moving | refpark | loaded | hold | retracting
  deriving DecidableEq, Repr

/-- A general-payload packet of the Finion link (Table 10.10). -/
inductive Packet where
  | speed (target : Nat) (spilim : Nat)
  | spderr (e : Nat)
  | act (a : Nat)
  | psup (on : Bool)
  | cfg (rdl rfloor vret holdv vcmrng : Nat)
  | pwr (port value : Nat)
  | prd (port : Nat)
  | unpatch
  | patchData (k : Nat) (bytes : List Byte)
  | patchEnd
  | logack (entry : Nat)
  | logreq
  | fault (kind detail : Nat)
  | pdata (port value : Nat)
  | patchAck (good : Bool)
  | notice (romid : Nat)
  | log (entry : Nat) (bytes : List Byte)
  deriving DecidableEq, Repr

/-- A retract in progress (R246): its first cause, the causes seen, what was measured at its start, and how far the
sequence has come. -/
structure Retract where
  cause : Nat
  seen : Nat
  facts : RetractFacts
  /-- It started in HOLDUP. -/
  inHoldup : Bool
  /-- It started in FULLPARK, at a reset release: no log entry (R249). -/
  fromPark : Bool
  ramp : Bool := false
  latch : Bool := false
  timeout : Bool := false
  deriving DecidableEq, Repr

/-- A retract log entry in a non-volatile cell (R249). -/
structure LogEntry where
  slot : Nat
  bytes : List Byte
  acked : Bool := false
  deriving DecidableEq, Repr

/-- The Power die (chapter 10) beside its motor sequencer. -/
structure PdState where
  /-- The power-on reset is asserted (R236). -/
  reset : Bool := false
  sp : Spin := .stopped
  target : Nat := 0
  spilim : Nat := 5
  /-- Failed start attempts (Table 10.3). -/
  attempts : Nat := 0
  /-- A target stored while braking, coasting or rectifying below 150 rpm (Table 10.3). -/
  stored : Nat := 0
  /-- After TSHUT the bridge stays Hi-Z until below 140 °C and a SPEED packet arrives (Table 10.8). -/
  shut : Bool := false
  act : Act := .fullpark
  /-- Where the planned move leads. -/
  moveTo : Act := .fullpark
  /-- SPEED with target 0 waits for FULLPARK before it brakes (Table 10.3). -/
  zeroDue : Bool := false
  actres : Nat := 0
  /-- The action of the last ACT packet, until port ACTREQ is read (Table 10.1). -/
  actreq : Nat := 0
  vneg : Bool := false
  vpos : Bool := false
  retract : Option Retract := none
  log : List LogEntry := []
  /-- Retracts since manufacture (OPN). -/
  opn : Nat := 0
  rdl : Nat := 0xAA
  rfloor : Nat := 0x1E
  vret : Nat := 0x50
  holdv : Nat := 0x6E
  vcmrng : Nat := 0
  vcm : BitVec 16 := 0
  ma0 : BitVec 12 := 0
  ma1 : BitVec 12 := 0
  /-- SEQ of the last servo word applied (R62), and the last upstream word sent. -/
  seq : Nat := 0
  upLast : BitVec 56 := 0
  /-- A fault of kind 1, 2, 4 or 7 was raised and was not seen to end (Table 10.7, bit 47). -/
  flt : Bool := false
  vmotl : Bool := false
  vin5l : Bool := false
  /-- Microactuator channels that are Hi-Z after MAFLT. -/
  mahz0 : Bool := false
  mahz1 : Bool := false
  temp : BitVec 8 := 25
  /-- The identifier of its ROM, as STATUS and NOTICE gave it last. -/
  romid : BitVec 16 := 0
  sperr : Nat := 0
  /-- Servo-word CRC failures since the last STATUS. -/
  svcrc : Nat := 0
  /-- Ports that hold what was written: BRIDGE, COMM, CTMR, DUTY, VCMMOV and the mailbox. -/
  ports : Tab (BitVec 16) := []
  deriving DecidableEq, Repr

/-- One receiver of the Finion link (R61, R65, R66, R252). -/
structure Receiver where
  up : Bool := false
  badSync : Nat := 0
  nack : Nat := 0
  good : Nat := 0
  /-- The last frame's payload CRC was good on both lanes: the ACK to send. -/
  ack : Bool := true
  /-- FN of the last frame received, and of the next one that this die sends (R61). -/
  seen : BitVec 4 := 0
  fn : BitVec 4 := 0
  /-- The payloads of the last frame that this die sent and of the one before, while they have not been delivered (R65). -/
  last : Option Packet := none
  prev : Option Packet := none
  deriving DecidableEq, Repr

/-- The Finion link: the two dies' interfaces and the packets queued in each direction, not yet in a frame; the last SPEED,
CFG and PSUP packets that the FLNK sent (R236); and the retract log entries whose record 0x0306 is not in the staging FIFO
yet, with the record's payload (R249). -/
structure LinkState where
  logic : Receiver := {}
  power : Receiver := {}
  down : List Packet := []
  up : List Packet := []
  lastSpeed : Option Packet := none
  lastCfg : Option Packet := none
  lastPsup : Option Packet := none
  logDue : List (Nat × List Byte) := []
  deriving DecidableEq, Repr

/-- The fuses that software can read (Table 5.1). The device root key is `Config.drk`. -/
structure Fuses where
  production : Bool := false
  keyhash : Tab (List Byte) := []
  keyrev : BitVec 4 := 0
  /-- The thermometer of the security version: SVN is the number of bits set. -/
  svnBits : BitVec 64 := 0
  targetRpm : Nat := 0
  deriving DecidableEq, Repr

/-- A fuse programming operation (R121, R138): the field as record 0x0107 numbers it, the key slot, the new value, the
hash, and whether SST_FCMD started it. -/
structure FuseOp where
  field : Nat
  slot : Nat := 0
  val : Nat := 0
  hash : List Byte := []
  deriving DecidableEq, Repr

/-- A store held for a gated core (R126). -/
structure HeldStore where
  addr : Nat
  width : Nat
  data : Nat
  deriving DecidableEq, Repr

/-- What the ECC engine computes (R115): the header's signature check, the two key derivations, the signature of the record
with a SEQ, the ALIAS certificate's signature, and an SST_SCMD signature. -/
inductive EccOp where
  | header
  | devid
  | alias_
  | record (seq : Nat)
  | cert
  | scmd
  deriving DecidableEq, Repr

/-- Secure start (chapter 5). -/
structure SstState where
  fuses : Fuses := {}
  /-- The fuse operation in progress, and the one that follows it. -/
  fuseOp : Option FuseOp := none
  fuseNext : List FuseOp := []
  /-- Payloads of records 0x0107 that RETREAT kept from being written (R121). -/
  fuseOwed : List (List Byte) := []
  /-- SEC has left reset; the ROM has read the headers; the ROM has handed over (R120). -/
  secOut : Bool := false
  chosen : Bool := false
  handed : Bool := false
  /-- The loader is running (R161). -/
  loading : Bool := false
  /-- The header of the slot being booted (R108). -/
  hdr : List Byte := []
  /-- The segment whose next block the loader loads. -/
  seg : Nat := 0
  /-- Blocks that have landed and wait for the hash engine, by segment. -/
  landed : List (Nat × List Byte) := []
  /-- The chain value of each segment (R110). -/
  chains : Tab (List Byte) := []
  /-- Segments whose chain has matched. -/
  matched : List Nat := []
  /-- The 340 bytes of segment 1 in the patch staging buffer, until it has passed (R207). -/
  patch : List Byte := []
  /-- The held-store queues of HC0, HC1 and MC (R126). -/
  hsqs : Tab (List HeldStore) := []
  /-- DEVID and ALIAS have been derived (R117). -/
  devid : Bool := false
  alias_ : Bool := false
  /-- A DERIVE in progress: the party and the salt (R118). -/
  deriving_ : Option (Nat × List Byte) := none
  /-- The digest being signed (R119). -/
  signing : Option (List Byte) := none
  /-- The request that the ECC engine runs (R115), and whether the slot it was made for has been given up meanwhile. -/
  ecc : Option EccOp := none
  eccOld : Bool := false
  /-- The block of its TCM that a stalled HC0, HC1 or MC waits for, counted from 1; 0 where it waits for its gate (R123,
  R126). -/
  waits : Tab Nat := []
  /-- SEC's locked PMP entries 0 and 1: configuration and address (R120). -/
  pmp : List (Nat × Nat) := []
  /-- The ALIAS certificate (R447). -/
  cert : List Byte := []
  deriving DecidableEq, Repr

/-- An event on its way to the recorder (R152, R154). -/
structure Event where
  code : Nat
  party : Nat
  src : Nat
  fwsrc : Bool := false
  payload : List Byte
  deriving DecidableEq, Repr

/-- An event staged in the FIFO, with the values fixed at enqueue (R146, Table 6.1 FLAGS). -/
structure Staged where
  ev : Event
  ts : BitVec 64
  atbst : Nat
  boot : Nat
  /-- For a seal: the trigger; its batch is named when it is formed. -/
  sealTrig : Option Nat := none
  deriving DecidableEq, Repr

/-- A formed record: its SEQ, its body bytes 0x000 to 0x18F, and the digest D of the body (R147). -/
structure Formed where
  seq : Nat
  signed : Bool
  body : List Byte
  digest : List Byte
  deriving DecidableEq, Repr

/-- An entry of the staging FIFO: an event, formed or not yet. -/
structure FifoEntry where
  ev : Staged
  formed : Option Formed := none
  deriving DecidableEq, Repr

/-- A signed record whose signature is not yet on the medium: its SEQ and digest, its slot once phase 1 is done,
and the signature (r then s) once made (R148). -/
structure Signing where
  seq : Nat
  digest : List Byte
  slot : Option Nat
  sig : Option (List Byte)
  /-- It is a boot record (class 0x01), which is signed before seals and late signatures. -/
  boot : Bool := false
  deriving DecidableEq, Repr

/-- The Moraine recorder (R140 to R163). -/
structure MorState where
  /-- Events that their blocks have raised and not yet presented, oldest first: a source presents one in a cycle (R154). -/
  raised : List Event := []
  /-- The capture registers: at most one event of a source, in the order in which the recorder takes them (R154). -/
  caught : List Event := []
  /-- The recorder's own events that wait for a FIFO entry, each with the trigger of a seal (R154). -/
  own : List (Event × Option Nat) := []
  /-- The 64-entry staging FIFO, oldest first. -/
  fifo : List FifoEntry := []
  /-- Events lost since power-on (MOR_LOST). -/
  lost : BitVec 64 := 0
  /-- Losses not yet in a 0x0902 record. -/
  pendLoss : Nat := 0
  lossFirst : BitVec 64 := 0
  lossLast : BitVec 64 := 0
  /-- Pending losses per event class 0x01 to 0x09. -/
  lossClass : List Nat := [0, 0, 0, 0, 0, 0, 0, 0, 0]
  /-- SEQ of the next record to be formed (MOR_NSEQ). -/
  nseq : BitVec 64 := 0
  /-- D of the record formed last; 48 zero bytes before the first (R147). -/
  prev : List Byte := List.replicate 48 0
  /-- First SEQ and number of the records formed since the last signed record (R150). -/
  batchFirst : BitVec 64 := 0
  batchCount : Nat := 0
  /-- The write slot (R140). -/
  wslot : Nat := 0
  /-- Failed attempts in the present sector (R157). -/
  attempts : Nat := 0
  /-- A phase 1 program is running, and the SEQ of the record whose phase 2 runs (R147, R156). -/
  phase1 : Bool := false
  phase2 : Option Nat := none
  /-- Signed records whose phase 2 is not done, oldest first. -/
  signing : List Signing := []
  /-- The Drift sector being erased, and whether this is the retry (R158). -/
  erasing : Option Nat := none
  eraseRetry : Bool := false
  /-- The Drift sector whose erase is to start once its bank is free, and whether that is the retry (R141, R158, R183). -/
  eraseWant : Option (Nat × Bool) := none
  /-- The Drift sector that the write slot enters next, where erases that failed twice have put it further off (R158). -/
  ahead : Option Nat := none
  /-- Erase attempts per Moraine sector since power-on (record 0x0702). -/
  eraseTries : Tab Nat := []
  /-- PCM_CAUSE at RETREAT entry, and records programmed and events lost since then (record 0x0203). -/
  retreatCause : Nat := 0
  retreatProg : Nat := 0
  retreatLost : BitVec 64 := 0
  /-- RETREAT: 0x0203 has been enqueued, and the SEQ of the seal that follows once formed. -/
  retreatDone : Bool := false
  retreatSeal : Option Nat := none
  /-- The phase 2 of that seal has completed (R162). -/
  sealDone : Bool := false
  deriving DecidableEq, Repr

/-! ### Firn, Serac and Cornice (chapter 12) -/

/-- A set of the 64 sectors of a segment. -/
abbrev Mask := BitVec 64

/-- A segment bound to a holder (R293, Table 12.3). -/
structure Seg where
  /-- LBA[47:6]. -/
  seg : Nat
  owner : Nat
  v : Mask := 0
  d : Mask := 0
  p : Mask := 0
  l : Mask := 0
  e : Mask := 0
  /-- Fill-locked sectors that take V = 0 when their fill completes (R307). -/
  kill : Mask := 0
  /-- Pending sectors whose write-back was posted with INVAL (R299). -/
  pinv : Mask := 0
  pin : Nat := 0
  /-- Units charged by RESERVE and neither committed nor aborted, by sector (R297). -/
  charge : Tab Nat := []
  deriving DecidableEq, Repr

/-- A Firn tag: its frame, its GEN, when it was used last, and the segment it holds. -/
structure FTag where
  frame : Nat
  gen : BitVec 8 := 0
  used : Nat := 0
  held : Option Seg := none
  deriving DecidableEq, Repr

/-- A Serac entry. -/
structure SeracEnt where
  frame : Nat
  held : Option Seg := none
  deriving DecidableEq, Repr

/-- The states of a Cornice slot (Table 12.9). -/
inductive CorSt where
  | free | held | releasing | cancelling | scrubbing
  deriving DecidableEq, Repr

/-- A Cornice slot, with what was true when it was cancelled (Table 12.5). -/
structure CSlot where
  frame : Nat
  gen : BitVec 8 := 0
  st : CorSt := .free
  held : Option Seg := none
  filled : Nat := 0
  locked : Nat := 0
  cancelAt : BitVec 64 := 0
  deriving DecidableEq, Repr

/-- A clean-queue entry (R299). -/
structure ClqEnt where
  owner : Nat
  set : Nat
  way : Nat
  gen : BitVec 8
  frame : Nat
  lba : Nat
  mask : Mask
  inval : Bool
  deriving DecidableEq, Repr

/-- A metadata-channel entry (R309). -/
structure MetaEnt where
  key : Nat := 0
  valid : Bool := false
  dirty : Bool := false
  locked : Bool := false
  used : Nat := 0
  deriving DecidableEq, Repr

/-- A pass of the range engine: operation, scope, party, range, the next holder to visit and the segments changed. -/
structure RangeOp where
  op : Nat
  scope : Nat
  party : Nat
  lba : Nat
  cnt : Nat
  pos : Nat := 0
  aff : Nat := 0
  deriving DecidableEq, Repr

/-- The FIRN block beside its registers. -/
structure FirnState where
  /-- Firn tags by 8 × set + way. -/
  tags : Tab FTag := []
  serac : Tab SeracEnt := []
  /-- Serac entries that hold a segment, the one that entered longest ago first. -/
  seracOrder : List Nat := []
  corn : Tab CSlot := []
  /-- Counts uses, for least recently used. -/
  clock : Nat := 0
  clq : List ClqEnt := []
  metas : Tab MetaEnt := []
  range : Option RangeOp := none
  /-- The next block of the patrol scrub (R285). -/
  scrub : Nat := 0
  deriving DecidableEq, Repr

/-! ### Range Match Engine (chapter 13) -/

/-- An entry of the CAM and its shadow (Table 13.2). -/
structure RmeEnt where
  window : Bool
  key : Nat
  len : Nat
  party : Nat := 0
  base : Nat := 0
  ident : Bool := false
  rights : Nat := 0
  prio : Nat := 0
  deriving DecidableEq, Repr

/-- A bank's command that waits for BUFCK or for the end of a hold: a lookup or a commit, by the word written. -/
structure RmeWait where
  m : Master
  commit : Bool
  v : Word
  errs : List RmeErr
  deriving DecidableEq, Repr

/-- The RME beside its registers. -/
structure RmeState where
  /-- Valid entries by index. -/
  ents : Tab (Option RmeEnt) := []
  /-- The parties whose window lookups are held (R325). -/
  held : List Nat := []
  waiting : List RmeWait := []
  /-- The next row of the patrol (R330). -/
  patrol : Nat := 0
  deriving DecidableEq, Repr
/-! ### Host ports, data movers and the CRY engine (chapters 14 and 15) -/

/-- One PCIe function and its port: link and reset state, what its configuration space holds, its MSI-X table and
pending bits, and the last port-down cause. -/
structure Port where
  dl : Bool := false
  perst : Bool := true
  /-- Bus Master Enable and Memory Space Enable. -/
  bme : Bool := false
  mse : Bool := false
  d3 : Bool := false
  bar : BitVec 64 := 0
  /-- Max_Payload_Size and Max_Read_Request_Size in the encoding of the Device Control register. -/
  mps : BitVec 3 := 0
  mrrs : BitVec 3 := 2
  msixEn : Bool := false
  fmask : Bool := false
  /-- MSI-X table words 0 to 127: address, upper address, data, vector control. -/
  table : Tab Word := []
  pba : BitVec 32 := 0
  l1 : Bool := false
  up : Bool := false
  cause : Nat := 0
  deriving DecidableEq, Repr

/-- A read request of a channel that has been sent and is not complete (R339): for HOSTPI or data, its place in the
range, the bytes of the range, the leading bytes to discard, the whole length and what has arrived. -/
structure HostReq where
  pi : Bool
  off : Nat
  len : Nat
  skip : Nat
  total : Nat
  got : Nat := 0
  deriving DecidableEq, Repr

/-- A write TLP of a channel that has not been sent: data or HOSTPI, its address and bytes. -/
structure HostTlp where
  data : Bool
  addr : Nat
  bytes : List Byte
  deriving DecidableEq, Repr

/-- A DMA channel beside its registers (R335 to R354). -/
structure Chan where
  /-- RUN, and the descriptor is not current yet. -/
  fetching : Bool := false
  /-- The descriptor is current and moves data. -/
  live : Bool := false
  desc : List Byte := []
  crc : BitVec 32 := 0xFFFFFFFF
  /-- Sectors of the range wholly written and checked, by index in the descriptor. -/
  secs : Nat := 0
  /-- The host side of the range: address and length of its pieces, in order. -/
  ranges : List (Nat × Nat) := []
  reqs : List HostReq := []
  asked : Nat := 0
  askedPi : Nat := 0
  /-- HOSTPI received, by offset. -/
  pi : Mem := []
  /-- A request was refused: cause and detail of the halt once the requests before it end. -/
  stop : Option (Nat × Nat) := none
  tlps : List HostTlp := []
  /-- Pages of a STORE destination that are not programmed. -/
  pages : List Nat := []
  /-- A CHANNEL end: the operation's sector at which the descriptor starts. -/
  base : Nat := 0
  /-- The channel carries a transfer of the UQI hardware, with no descriptor in memory. -/
  uqi : Bool := false
  deriving DecidableEq, Repr

/-- The CRY engine's keys, 64 bytes per party slot (R349). -/
structure CryState where
  keys : Tab (List Byte) := []
  deriving DecidableEq, Repr

/-! ### Read/write channel (chapter 11) -/

/-- A sector in the write FIFO: its tag, its index in the operation, its user bytes as they go to the medium, and
metadata bytes 12 to 31 (R277). -/
structure WSec where
  tag : Nat
  idx : Nat
  user : List Byte
  md : List Byte
  deriving DecidableEq, Repr

/-- What a decode ended with: SRES, iterations, the user bytes and metadata bytes 12 to 31 of a sector to deliver, and
the unsatisfied checks and erased bits of record 0x0302. -/
structure Decoded where
  res : Nat
  iters : Nat
  user : List Byte
  md : List Byte
  unsat : Nat
  erased : Nat
  deriving DecidableEq, Repr

/-- A soft-sample slot (R273): the sector it holds, its samples, whether an engine decodes it, and what came out. -/
structure RSec where
  tag : Nat
  idx : Nat
  samp : Samples := {}
  decoding : Bool := false
  dec : Option Decoded := none
  deriving DecidableEq, Repr

/-- A media operation that is ACTIVE or PEND (R265 to R267): its tag, the counter values of its first preamble bit and
of the end of its last bit, and its progress. -/
structure MOp where
  tag : Nat
  first : Nat
  ends : Nat
  /-- Read: sectors whose first bit has come. Write: sectors whose data was in time. -/
  started : Nat := 0
  /-- The next sector to be judged, or to end being written. -/
  next : Nat := 0
  ndone : Nat := 0
  /-- No sector has failed yet, so NDONE goes on counting. -/
  lead : Bool := true
  nfail : Nat := 0
  iter : Nat := 0
  /-- The write gate is open for the sector `next`. -/
  gate : Bool := false
  /-- The sector `started` was not in the FIFO in time (R277). -/
  nodata : Bool := false
  /-- The working values of the head's loops: words 0 to 5 of its context as loaded at the start, and as adapted since (R269). -/
  work : List Word := []
  deriving DecidableEq, Repr

/-- A retained slot (R275): tag and sector, with the samples and the operation as it was. -/
structure RetSlot where
  tag : Nat
  idx : Nat
  samp : Samples
  w0 : Word
  w1 : Word
  lba : Nat
  party : Nat
  chan : Nat
  deriving DecidableEq, Repr

/-- A CHN_FAILQ entry (Table 11.11). -/
structure FailEnt where
  tag : Nat
  idx : Nat
  res : Nat
  slot : Option Nat
  deriving DecidableEq, Repr

/-- The CHN block beside its registers. -/
structure ChnState where
  /-- The rate code in force, and the one the synthesiser slews to (R258). -/
  k : Nat := 2343
  slew : Option Nat := none
  act : Option MOp := none
  pend : Option MOp := none
  slots : List RSec := []
  /-- Write FIFO contents by DMA channel. -/
  fifo : Tab (List WSec) := []
  /-- Sectors of a tag that have passed to or from its data mover, or were skipped. -/
  passed : Tab Nat := []
  doneq : List Nat := []
  failq : List FailEnt := []
  kept : Tab (Option RetSlot) := []
  /-- The slot being re-decoded, with CHN_RDEC as it was. -/
  redec : Option (Nat × Word) := none
  /-- Tags whose operation ended while the orderer owned them (R264, R407), oldest first. -/
  ended : List Nat := []
  deriving DecidableEq, Repr


/-- One of the two targets on the I3C bus (R426, R427). -/
structure I3cTarget where
  addr : Option (BitVec 7) := none
  /-- In-band interrupts are enabled by ENEC. -/
  ibi : Bool := false
  mwl : Nat := 4100
  mrl : Nat := 4100
  deriving DecidableEq, Repr

/-- Firmware staging (R436). -/
inductive Staging where
  | idle | opened | verified
  deriving DecidableEq, Repr

/-- The self-test of this boot (R440, Table 18.6): type, state (0 none, 1 running, 2 done, 3 aborted), and its results. -/
structure SelfTest where
  type : Nat := 0
  st : Nat := 0
  elem : Nat := 0
  progress : Nat := 0
  sectors : Nat := 0
  unrec : Nat := 0
  secs : Nat := 0
  failing : List Nat := []
  deriving DecidableEq, Repr

/-- A message being assembled from MCTP packets (R444): source, tag, tag owner, next sequence number, bytes so far, and
whether it has outgrown the buffer or met a full one. -/
structure McAsm where
  seid : Nat
  tag : Nat
  to_ : Bool
  seq : Nat
  bytes : List Byte
  drop : Bool := false
  deriving DecidableEq, Repr

/-- The SPDM connection (R445): how far the negotiation has come (1 version, 2 capabilities, 3 algorithms), and the
transcripts of SPDM 1.2. -/
structure Spdm where
  phase : Nat := 0
  vca : List Byte := []
  certs : List Byte := []
  meas : List Byte := []
  deriving DecidableEq, Repr

/-- The management path (chapter 18). -/
structure MgtState where
  task : I3cTarget := {}
  mctp : I3cTarget := {}
  /-- The read index of the task-register file (R429). -/
  rindex : Nat := 0
  /-- Where in the data buffer its first byte lies. -/
  dpos : Nat := 0
  staging : Staging := .idle
  stSlot : Nat := 0
  stLen : Nat := 0
  test : SelfTest := {}
  asm_ : Option McAsm := none
  spdm : Spdm := {}
  deriving DecidableEq, Repr
/-! ### UQI rings and commands (chapters 15 and 16) -/

/-- A submission ring: STATE (0 DISABLED, 1 ACTIVE, 2 DRAINING, 3 HALTED_LINK), the fetch pointer, the last SQTAIL,
ERR, the entries asked for by the burst in flight, whether fetching waits for the next doorbell fetch, and whether
RESET was written (R361 to R369, R375). -/
structure SqRing where
  st : Nat := 0
  fptr : Nat := 0
  tail : Nat := 0
  err : Nat := 0
  burst : Nat := 0
  stalled : Bool := false
  reset : Bool := false
  deriving DecidableEq, Repr

/-- A completion ring: STATE, WPTR, PHASE, CQHEAD, ERR, and completions written since the last message. -/
structure CqRing where
  st : Nat := 0
  wptr : Nat := 0
  phase : Bool := false
  head : Nat := 0
  err : Nat := 0
  unsig : Nat := 0
  deriving DecidableEq, Repr

/-- How far drive firmware has come with a command (R382). `phase` is 0 before the next chunk, 1 while a media read and 2
while a host transfer of the chunk is under way, and 3 once a FLUSH knows what it covers. -/
structure FwWork where
  phase : Nat := 0
  /-- 4096-byte units whose data has moved; and, under FUA, units on the medium. -/
  pos : Nat := 0
  dur : Nat := 0
  /-- The tag of the request or the transfer that is under way, and the tries made at a media read. -/
  wait : Nat := 0
  tries : Nat := 0
  /-- The chunk: its Firn tag, GEN, first sector and sector count, and the unit of its first sector. -/
  key : Nat := 0
  gen : BitVec 8 := 0
  first : Nat := 0
  n : Nat := 0
  unit : Nat := 0
  /-- Dirty sectors that a FLUSH covers and that are not known durable: segment and mask. -/
  cover : List (Nat × BitVec 64) := []
  /-- The entry that an ABORT targets, and whether it completed with ABORTED. -/
  aim : Option Nat := none
  hit : Bool := false
  /-- An ABORT asks for the command's end (R390). -/
  stop : Bool := false
  deriving DecidableEq, Repr

/-- A command-table entry (R379): ring, party, fetch sequence number, the 64 bytes, the core it was dispatched to, its
extents, whether it has a completion, whether RESET drops it, and the list pages read for it. -/
structure Cmd where
  ring : Nat
  party : Nat
  seq : Nat
  bytes : List Byte
  core : Option Master := none
  exts : List (Nat × Nat) := []
  posted : Bool := false
  drop : Bool := false
  pages : List (Nat × List Byte) := []
  fw : FwWork := {}
  deriving DecidableEq, Repr

/-- A committed completion that is not written (R373): its fields, and its slot and phase once it has been issued. -/
structure Cpl where
  idx : Nat
  ring : Nat
  cq : Nat
  status : Nat
  ed : Nat
  spec : Nat
  sqhead : Nat
  slot : Option (Nat × Bool) := none
  refused : Bool := false
  deriving DecidableEq, Repr

/-- A host transfer queued by UQI_XCMD (R378): its request, the bytes done by earlier runs, the host ranges of the
present run, the fault that ends it, the list page it waits for, and the channel it runs on. -/
structure XJob where
  core : Master
  idx : Nat
  xbuf : Nat
  xoff : Nat
  xlen : Nat
  /-- Buffer to host. -/
  out : Bool
  pi : Bool
  xtag : Nat
  done : Nat := 0
  ranges : List (Nat × Nat) := []
  fault : Option (Nat × Nat) := none
  page : Option Nat := none
  chan : Option Nat := none
  deriving DecidableEq, Repr

/-- A host-transfer result (Table 15.14). -/
structure XRes where
  core : Master
  xtag : Nat
  cause : Nat
  detail : Nat
  done : Nat
  deriving DecidableEq, Repr

/-- The UQI block beside its registers. -/
structure UqiState where
  sq : Tab SqRing := []
  cq : Tab CqRing := []
  /-- The current port of each party. -/
  cur : Tab Nat := []
  /-- Parties whose last doorbell fetch was refused, bitmap. -/
  dbref : Nat := 0
  /-- Doorbell fetches in flight: the highest ring fetched plus 1, by party; and those to be repeated, bitmap. -/
  fetch : Tab Nat := []
  again : Nat := 0
  /-- The next fetch sequence number, by party (R395). -/
  seq : Tab Nat := []
  table : Tab (Option Cmd) := []
  /-- The last command of a freed command-table entry, which UQI_CTDATA and UQI_CTEXT go on showing (DEDUCED, log entry 72). -/
  freed : Tab (Option Cmd) := []
  /-- Command-table entries whose window check waits (R325). -/
  checks : List Nat := []
  /-- The dispatch queues of HC0 and HC1, as the words that UQI_DQ shows. -/
  dq0 : List Nat := []
  dq1 : List Nat := []
  cpls : List Cpl := []
  jobs : List XJob := []
  res : List XRes := []
  /-- The party, and by party the ring, whose burst was issued last (R369). -/
  lastParty : Nat := 15
  lastRing : Tab Nat := []
  /-- Ports that had a conventional reset since HMWCTL.LOCK was set, bitmap. -/
  hmwReset : Nat := 0
  /-- Units that a DEALLOCATE took and that no later write covers: party and media LBA (R388). -/
  zeroed : List (Nat × Nat) := []
  /-- Drive firmware's records of media spans (party, first media LBA, count), which outlast THAW (DESIGN CHOICE, log entry 124): what
  a party has not written since its crypto-erase (R416), what it was given that another party held and has not written since
  (R415), and what each party has held. -/
  never : List (Nat × Nat × Nat) := []
  moved : List (Nat × Nat × Nat) := []
  owned : List (Nat × Nat × Nat) := []
  deriving DecidableEq, Repr

/-! ### The rotational orderer (chapter 16) -/

/-- A channel operation of a request (R402): the offset of its first sector from the request's LBA, its sectors, where
it lies, how often it has been re-queued, and how far it has come. -/
structure OrdOp where
  off : Nat
  n : Nat
  head : Nat
  track : Nat
  dbit : Nat
  k : Nat
  tries : Nat := 0
  /-- The tag it is armed under, and whether its descriptor has been started. -/
  tag : Option Nat := none
  started : Bool := false
  /-- The counter values of its target and of the end of its last bit, and where the channel is free of it. -/
  due : Nat := 0
  ends : Nat := 0
  free : Nat := 0
  /-- It has ended, with this many leading sectors done and this result. -/
  fin : Bool := false
  ndone : Nat := 0
  res : Nat := 0
  deriving DecidableEq, Repr

/-- A request (R402), or a clean-queue entry taken as one (R408): the sectors' offsets from its LBA, when it was
accepted, and its operations once it has been placed. -/
structure OrdReq where
  id : Nat
  core : Master
  rtag : Nat
  mlba : Nat
  offs : List Nat
  write : Bool
  cont : Bool
  retry : Bool
  final : Bool
  xts : Bool
  party : Nat
  buf : Nat
  clq : Option ClqEnt := none
  since : Nat
  urgent : Bool := false
  errs : List RmeErr := []
  placed : Bool := false
  mapf : Bool := false
  ops : List OrdOp := []
  deriving DecidableEq, Repr

/-- An orderer result (Table 16.7). -/
structure OrdRes where
  rtag : Nat
  ndone : Nat
  res : Nat
  mapf : Bool
  mlba : Nat
  deriving DecidableEq, Repr

/-- The orderer beside its registers. -/
structure OrdState where
  nextId : Nat := 0
  /-- Accepted and not returned, oldest first. -/
  reqs : List OrdReq := []
  /-- Results by core number, oldest first. -/
  results : Tab (List OrdRes) := []
  /-- The head and track acknowledged last (R403). -/
  pos : Option (Nat × Nat) := none
  /-- Share accounting over the last 8 revolutions (R406): by party, the counter value since which it has had pending
  requests, the earlier spans in which it had, and its operations' data windows. -/
  since : Tab (Option Nat) := []
  spans : Tab (List (Nat × Nat)) := []
  uses : Tab (List (Nat × Nat)) := []
  deriving DecidableEq, Repr

/-! ### Pin multiplexer and console UART (chapter 3) -/

/-- The PMX block beside its registers. -/
structure PmxState where
  /-- The straps have been sampled, and the balls handed over, since THAW entry (R67). -/
  strapped : Bool := false
  handed : Bool := false
  /-- PULL, PARK and DRV as applied to each ball: bits [13:8] of its PMX_PIN at the last commit (R74). -/
  applied : Tab (BitVec 6) := []
  /-- Balls in the switch sequence, with their new function (R73). -/
  switching : List (Nat × Nat) := []
  /-- Balls that were parked by a stopped domain and have not been through cycles 4 to 6 since (R76). -/
  rejoin : List Nat := []
  /-- The level that the device drove last at each ball, for PARK = 3 (Table 3.15). -/
  last : Tab (Option Bool) := []
  /-- The byte in the UART's transmit shifter, the TX FIFO and the RX FIFO, oldest first (R78). -/
  shifting : Option Byte := none
  tx : List Byte := []
  rx : List Byte := []
  deriving DecidableEq, Repr

/-! ### Servo and wedge sequencer (chapters 8 and 9) -/

/-- A servo window: data head and the wedge expected from its target (R218, DEDUCED, log entry 43). -/
structure SrvWin where
  head : Nat
  wedge : Nat
  deriving DecidableEq, Repr

/-- SV's machine-level interrupt state (R220): mstatus.MIE and MPIE, mie, mtvec, mepc, mcause, and the address at which it
executes. mip follows from the interrupt levels. -/
structure SvCore where
  mie : Bool := false
  mpie : Bool := false
  mieReg : Word := 0
  mtvec : Word := 0
  mepc : Word := 0
  mcause : Word := 0
  pc : Word := 0
  /-- An access outside SV's TCM and the SRV block is outstanding (R221). -/
  busy : Bool := false
  deriving DecidableEq, Repr

/-- A run of missed wedges (R232): its first wedge, when it began, its length, the causes seen, and whether it has
reached MISSLIM. -/
structure MissRun where
  head : Nat := 0
  wedge : Nat := 0
  ts : BitVec 64 := 0
  len : Nat := 0
  causes : Nat := 0
  limit : Bool := false
  deriving DecidableEq, Repr

/-- The SRV block beside its registers. -/
structure SrvState where
  /-- The window whose POS has not been raised (R231), and the window in progress. -/
  due : Bool := false
  win : SrvWin := { head := 0, wedge := 0 }
  /-- The SAM detector is armed, the angle at which it found the SAM (R212), and whether that was in the window in progress. -/
  samArmed : Bool := false
  sam : Option (BitVec 64) := none
  samWin : Bool := false
  /-- Track-identifier capture runs, and what it captured: Gray code, wedge number and parity bits (R213). -/
  tidArmed : Bool := false
  tid : Option (BitVec 24 × BitVec 9 × BitVec 3) := none
  /-- Armed burst groups and complete ones, bitmaps (R215). -/
  armed : BitVec 4 := 0
  done : BitVec 4 := 0
  /-- A word with CONV has been executed; burst end has been signalled (R215). -/
  conv : Bool := false
  converting : Bool := false
  run : MissRun := {}
  /-- Consecutive valid results within SETWIN (R225). -/
  settle : Nat := 0
  /-- The shock inputs are high, and the valid results for which the hold then lasts (R227). -/
  shkHigh : Bool := false
  shkLeft : Nat := 0
  /-- A preamp fault line is low (R226). -/
  paFault : Bool := false
  /-- The most recent result was a miss; the most recent valid one had |ERR| > WRLIM (R226). -/
  missed : Bool := false
  wide : Bool := false
  /-- The committed word that waits for its servo slot, and the SEQs sent and not returned, oldest first (R222, R223). -/
  slot : Option (BitVec 56) := none
  sent : List Nat := []
  /-- A valid wedge whose commit has not been measured (R229). -/
  timed : Bool := false
  /-- The VCM command of the last commit (Table 9.7). -/
  vcm : BitVec 16 := 0
  /-- A wedge whose trace record is not due yet, and the record that is due (R234). -/
  traceOpen : Bool := false
  trace : Option (BitVec 64) := none
  /-- The angle captured by ANGCAP (R194). -/
  acap : BitVec 64 := 0
  sv : SvCore := {}
  deriving DecidableEq, Repr

/-- The wedge sequencer beside its registers. -/
structure WsqState where
  /-- The 16,384 words of the store, by word address; an unlisted word is 0 (R191, R192). -/
  store : Tab (BitVec 128) := []
  stack : List Nat := []
  /-- A SERVO_WIN held while the WSQ runs (R196): ARG, the expected wedge, and whether its POS has been raised for BADHEAD. -/
  pend : Option (Nat × Nat × Bool) := none
  count : Nat := 0
  win : Nat := 0
  /-- Cycles since the last resume (R197). -/
  wd : Nat := 0
  /-- A WAIT word has performed its actions and waits. -/
  waiting : Bool := false
  /-- Queued preamp frames: preamp select and data (R198). -/
  paq : List (Bool × BitVec 16) := []
  /-- The frame each preamp port is sending. -/
  busy0 : Option (BitVec 16) := none
  busy1 : Option (BitVec 16) := none
  deriving DecidableEq, Repr

/-- A patch image as it is checked, sent and held in shadow: ROMID, the 16 match words and the patch words. -/
structure Patch where
  nmatch : Nat
  nword : Nat
  mats : List (BitVec 32)
  words : List (BitVec 32)
  deriving DecidableEq, Repr

/-- The motor sequencer, and the patch transfer (R201 to R209). -/
structure MsqState where
  /-- G0 to G15. -/
  regs : Tab (BitVec 16) := []
  stack : List Nat := []
  pc : Nat := 0
  /-- The event mask of a WAIT in progress. -/
  waiting : Option Nat := none
  words : List (BitVec 32) := []
  /-- The 16 match registers; a disabled one is 0. -/
  mats : List (BitVec 32) := []
  /-- Image bytes received, and the image that becomes active at the next WAIT. -/
  image : List Byte := []
  shadow : Option Patch := none
  unpatch : Bool := false
  /-- The verified image in the staging buffer, and how often it has been sent (R207, R209). -/
  staging : List Byte := []
  sends : Nat := 0
  deriving DecidableEq, Repr


/-- What the device sends out, in the order sent. -/
inductive Out where
  /-- A memory write TLP to the host on a port: address and bytes. -/
  | hostWrite (port : Nat) (addr : Nat) (bytes : List Byte)
  /-- A memory read TLP to the host on a port: address and length. -/
  | hostRead (port : Nat) (addr : Nat) (len : Nat)
  /-- An MSI-X message on a port, with its vector. -/
  | msix (port : Nat) (vector : Nat)
  /-- The completion of a BAR0 or configuration request: read data, or UR. -/
  | bar0Data (port : Nat) (data : List Word)
  | bar0Ur (port : Nat)
  /-- A non-fatal Unsupported Request reported through AER (R478). -/
  | aerUr (port : Nat)
  /-- What a core's load or fetch reads. -/
  | coreData (m : Master) (data : Nat)
  /-- An exception a core takes: mcause and mtval. -/
  | coreFault (m : Master) (mcause : Nat) (mtval : Nat)
  /-- An interrupt line raised to a core, by its mcause (Table 9.3). -/
  | coreIrq (m : Master) (mcause : Nat)
  /-- An interrupt to a core whose cause number the spec does not give, by its source. -/
  | blockIrq (m : Master) (source : String)
  /-- A core starts at an address; the WSQ at a word (R120, R122, R124). -/
  | coreStart (m : Master) (pc : Nat) (a0 : Word)
  | wsqStart (word : Nat)
  /-- A sector written to the medium: head, data bit of its first bit, and its channel bits (R261). -/
  | media (head : Nat) (dbit : Nat) (bits : List Bool) (shifts : List Nat)
  /-- A Finion frame that a die sends (Table 3.6): SYNC and header of both lanes, lane 0 in the low bits, the general payload,
  and both PCRCs. -/
  | frame (d : Die) (sync hdr : BitVec 8) (pay : BitVec 168) (pcrc : BitVec 16)
  /-- The word in the servo slot of a downstream frame. -/
  | servo (w : BitVec 56)
  /-- A preamp serial frame. -/
  | preamp (sel : Bool) (data : BitVec 16)
  /-- A trace record of the SRV on the trace signals that are on balls (R234): TRACE_CK, and by number j the sixteen bits of
  TRACE_Dj in clock order. -/
  | trace (ck : Bool) (data : List (Nat × List Bool))
  /-- A UART character sent. -/
  | uart (c : Byte)
  /-- Bytes on the I3C bus: an answer to a CCC or a private read, by the address that answered. -/
  | i3c (bytes : List Byte)
  /-- An in-band interrupt with its mandatory data byte. -/
  | ibi (mdb : Byte)
  /-- An MCTP message sent to an endpoint. -/
  | mctp (eid : Nat) (bytes : List Byte)
  deriving DecidableEq, Repr

/-- The strap, fuse and silicon facts of the part that no command changes (R1, Table 1.10). -/
structure Part where
  /-- 0 standard, 1 extended temperature grade. -/
  grade : Nat := 0
  /-- 0xA0 for stepping A0, 0xB1 for B1. -/
  step : Nat := 0xA0
  deriving DecidableEq, Repr

/-- The whole machine. -/
structure State where
  /-- Commands that wait, first in, first out. -/
  pending : List Instr := []
  part : Part := {}
  /-- Every register that software can reach, by key (see `RegMap`). -/
  regs : RegFile := []
  /-- The on-chip memories by internal address: TCMs, shared pool (Table 1.3) and boot ROM. -/
  sram : Mem := []
  /-- The Store die array by internal address (Table 7.1). -/
  store : Mem := []
  /-- The Buffer die by internal address (Table 12.1). -/
  buf : Mem := []
  atb : AtbState := {}
  /-- The 256 scheduler entries (R37). -/
  asc : Tab AscEntry := []
  /-- Events latched in the blocks of gated domains (R501). -/
  latched : List Latched := []
  /-- ASC CORE_IRQ lines 0 to 15 to SEC, HC0, HC1 and MC, by core number (SV's stand in SRV_AIRQ). -/
  irqLines : Tab (BitVec 16) := []
  pcm : PcmState := {}
  sst : SstState := {}
  sto : StoState := {}
  mor : MorState := {}
  pd : PdState := {}
  link : LinkState := {}
  firn : FirnState := {}
  rme : RmeState := {}
  /-- The functions of port A (0) and port B (1). -/
  ports : Tab Port := []
  dma : Tab Chan := []
  cry : CryState := {}
  chn : ChnState := {}
  ord : OrdState := {}
  pmx : PmxState := {}
  srv : SrvState := {}
  wsq : WsqState := {}
  msq : MsqState := {}
  uqi : UqiState := {}
  mgt : MgtState := {}
  /-- What the device has sent, oldest first. -/
  out : List Out := []
  /-- How many free values have been drawn (the model's own field; DESIGN CHOICE, log entry 3). -/
  draws : Nat := 0
  deriving DecidableEq, Repr

/-- No command ends in a fault: what the spec calls a fault is an exception or an error it describes, and is taken. -/
inductive Fault where
  deriving DecidableEq, Repr

/-- Why a command is refused by the model. -/
inductive Refusal where
  /-- The command has no meaning in this model yet. Raised by `exec`'s arm of that command. Safe: the run stops. -/
  | notModelled (mnemonic : String)
  deriving DecidableEq, Repr

/-- The info space as it leaves the factory (Table 7.6): a header in each bank's info row, and the defect info sector with its
MAGIC. Neither the identifier nor the factory map is given: they are the model's, 0 and no bad sector (DESIGN CHOICE, log entry 122). -/
def factoryInfo : Mem :=
  ((List.range 16).flatMap fun b =>
    [0x49, 0x4F, 0x52, 0x52, 0, 0, 0, 0, 0, 0, 0, 0, 0x9B, 0xFE, 0x87, 0xAF].mapIdx fun i v => (b * 0x10000 + i, v)) ++
  [0x41, 0x44, 0x46, 0x53, 0, 0, 0, 0, 0, 0, 0, 0, 0, 0].mapIdx fun i v => (0x100000 + i, v)

/-- The machine right after power-on: every field at its reset value, in THAW (DESIGN CHOICE, log entry 2). -/
def State.reset : State := { sto := { info := factoryInfo } }

end Sys2Proof.Machine
end

