-- ==== Sys2Proof/Machine/Ops.lean ====
section
/-! DEFINITION. The named operations on registers, fields, memories and byte strings that every meaning is written
with, and the submission of an event to the recorder. -/

namespace Sys2Proof.Machine

open Sys2Proof

/-! ### Registers (R8, R10, R479) -/

/-- The row of the register whose key (bank and address) is given. -/
def findReg (k : Nat) : Option RegDesc :=
  let a := if k < 0x900000000 then k % 4294967296 else k
  (regTableOf a).find? fun r =>
    decide (r.addr ≤ a) && decide (a < r.addr + r.stride * r.count) && decide ((a - r.addr) % r.stride = 0)

/-- The reset value of a whole register: the reset values of its fields. -/
def rowReset (r : RegDesc) : Nat := r.fields.foldl (fun n f => n + f.reset * 2 ^ f.lo) 0

/-- The reset value of a register by key. Party 0 starts with every column, slot and unit (Table 12.7). -/
def resetWord (k : Nat) : Word :=
  if k = R.FIRN_PART 0 then 0x3FF
  else if k = R.FIRN_CMASK 0 then 0xFFFFFFFF
  else if k = R.FIRN_DQ 0 then 0x4000
  else match findReg k with
    | some r => BitVec.ofNat 32 (rowReset r)
    | none => 0

/-- Read a register word by key. -/
def State.rd (s : State) (k : Nat) : Word := Sparse.read resetWord s.regs k

/-- Write a register word by key. -/
def State.wr (s : State) (k : Nat) (v : Word) : State := { s with regs := Sparse.write resetWord s.regs k v }

/-- The bits hi to lo of a word, as a number. -/
def bitsOf (w : Word) (hi lo : Nat) : Nat := w.toNat / 2 ^ lo % 2 ^ (hi + 1 - lo)

/-- A word with bits hi to lo replaced by a number, which is taken modulo the width of the field. -/
def withBits (w : Word) (hi lo n : Nat) : Word :=
  BitVec.ofNat 32 (w.toNat - bitsOf w hi lo * 2 ^ lo + n % 2 ^ (hi + 1 - lo) * 2 ^ lo)

/-- Read a field. -/
def State.get (s : State) (f : Fld) : Nat := bitsOf (s.rd f.reg) f.hi f.lo

/-- Write a field and leave the register's other bits alone. -/
def State.put (s : State) (f : Fld) (n : Nat) : State := s.wr f.reg (withBits (s.rd f.reg) f.hi f.lo n)

/-- A one-bit field reads 1. -/
def State.on (s : State) (f : Fld) : Bool := s.get f != 0

/-- Set a field to all ones: a one-bit field to 1. -/
def State.raiseBit (s : State) (f : Fld) : State := s.put f 1

/-- Set a field to 0. -/
def State.clr (s : State) (f : Fld) : State := s.put f 0

/-- Set or clear a one-bit field. -/
def State.putB (s : State) (f : Fld) (b : Bool) : State := s.put f (if b then 1 else 0)

/-- The largest value of a field. -/
def fldMax (f : Fld) : Nat := 2 ^ (f.hi + 1 - f.lo) - 1

/-- Add to a counter field that saturates. -/
def State.addCnt (s : State) (f : Fld) (n : Nat) : State := s.put f (Nat.min (s.get f + n) (fldMax f))

/-- Count one more in a counter field that saturates. -/
def State.inc (s : State) (f : Fld) : State := s.addCnt f 1

/-- Count one more in a field that wraps. -/
def State.incWrap (s : State) (f : Fld) : State := s.put f (s.get f + 1)

/-- Set bit n of a field that is a bitmap. -/
def State.setIn (s : State) (f : Fld) (n : Nat) : State := s.put f (s.get f ||| 2 ^ n)

/-- Clear bit n of a field that is a bitmap. -/
def State.clrIn (s : State) (f : Fld) (n : Nat) : State :=
  s.put f (if (s.get f).testBit n then s.get f - 2 ^ n else s.get f)

/-- Bit n of a field that is a bitmap. -/
def State.bit (s : State) (f : Fld) (n : Nat) : Bool := (s.get f).testBit n

/-- Return the registers that satisfy a test to their reset values. -/
def State.resetRegs (s : State) (p : Nat → Bool) : State := { s with regs := Sparse.keep (fun k => !p k) s.regs }

/-- A register key lies in the 4 KiB block at a base (Table 1.4), in any bank. -/
def inBlock (base k : Nat) : Bool := decide (k < 0x900000000) && k % 4294967296 / 4096 == base / 4096

/-! ### Bytes -/

/-- A number as n little-endian bytes (R5). -/
def leBytes : Nat → Nat → List Byte
  | 0, _ => []
  | n + 1, v => BitVec.ofNat 8 v :: leBytes n (v / 256)

/-- The number that little-endian bytes stand for. -/
def leNat : List Byte → Nat
  | [] => 0
  | b :: bs => b.toNat + 256 * leNat bs

/-- The number that big-endian bytes stand for. -/
def beNat (bs : List Byte) : Nat := bs.foldl (fun n b => n * 256 + b.toNat) 0

/-- A number as n big-endian bytes. -/
def beBytes (n v : Nat) : List Byte := (leBytes n v).reverse

/-- n bytes of a list from offset k, 0 beyond its end. -/
def slice (bs : List Byte) (k n : Nat) : List Byte :=
  let t := (bs.drop k).take n
  t ++ List.replicate (n - t.length) 0

/-- A list of n bytes of value 0. -/
def zeros (n : Nat) : List Byte := List.replicate n 0

/-- A byte string laid over another at an offset. -/
def overlay (bs : List Byte) (k : Nat) (v : List Byte) : List Byte :=
  slice bs 0 k ++ v ++ bs.drop (k + v.length)

/-- One bit of the reflected CRC-32C shift register. -/
def crc32cBit (c : Nat) : Nat := if c % 2 = 1 then c / 2 ^^^ 0x82F63B78 else c / 2

/-- One byte into the reflected CRC-32C shift register. -/
def crc32cByte (c : Nat) (b : Byte) : Nat :=
  crc32cBit (crc32cBit (crc32cBit (crc32cBit (crc32cBit (crc32cBit (crc32cBit (crc32cBit (c ^^^ b.toNat))))))))

/-- CRC-32C of RFC 3720 (R143): reflected, initial value and final XOR all ones. -/
def crc32c (bs : List Byte) : Nat := bs.foldl crc32cByte 0xFFFFFFFF ^^^ 0xFFFFFFFF

/-- CRC-32C continued from an earlier result. -/
def crc32cMore (c : Nat) (bs : List Byte) : Nat := bs.foldl crc32cByte (c ^^^ 0xFFFFFFFF) ^^^ 0xFFFFFFFF

/-! ### Memories -/

/-- What an unlisted byte of the Store die array reads as: erased flash (Table 7.1). -/
def erased (_ : Nat) : Byte := 0xFF

/-- What an unlisted byte of the on-chip SRAM and of the Buffer die reads as after their zero-fill. -/
def zeroed (_ : Nat) : Byte := 0

/-- Bytes of the Store die array. -/
def State.stoBytes (s : State) (a n : Nat) : List Byte := Sparse.readList erased s.store a n

/-- Store bytes into the Store die array. -/
def State.stoWrite (s : State) (a : Nat) (bs : List Byte) : State :=
  { s with store := Sparse.writeList erased s.store a bs }

/-- Program bytes: each bit of the array may only go from 1 to 0 (R165). -/
def State.stoProgram (s : State) (a : Nat) (bs : List Byte) : State :=
  s.stoWrite a (List.zipWith (fun x y => x &&& y) (s.stoBytes a bs.length) bs)

/-- Erase a range of the Store die array. -/
def State.stoErase (s : State) (a n : Nat) : State :=
  { s with store := Sparse.keep (fun k => !(decide (a ≤ k) && decide (k < a + n))) s.store }

/-- Bytes of the Buffer die. -/
def State.bufBytes (s : State) (a n : Nat) : List Byte := Sparse.readList zeroed s.buf a n

/-- Store bytes into the Buffer die. -/
def State.bufWrite (s : State) (a : Nat) (bs : List Byte) : State :=
  { s with buf := Sparse.writeList zeroed s.buf a bs }

/-- Zero a range of the Buffer die. -/
def State.bufZero (s : State) (a n : Nat) : State :=
  { s with buf := Sparse.keep (fun k => !(decide (a ≤ k) && decide (k < a + n))) s.buf }

/-- Bytes of the on-chip SRAM. -/
def State.sramBytes (s : State) (a n : Nat) : List Byte := Sparse.readList zeroed s.sram a n

/-- Store bytes into the on-chip SRAM. -/
def State.sramWrite (s : State) (a : Nat) (bs : List Byte) : State :=
  { s with sram := Sparse.writeList zeroed s.sram a bs }

/-- The shared pool (Table 20.1). -/
def inPool (a : Nat) : Bool := decide (0x18000000 ≤ a) && decide (a < 0x18300000)

/-- A buffer that hardware keeps in the shared pool: it reaches nothing outside it (R17; log entry 119). -/
def State.poolBytes (s : State) (a n : Nat) : List Byte :=
  if inPool a then s.sramBytes a n else (List.range n).map fun i => Config.strayByte (a + i)

def State.poolWrite (s : State) (a : Nat) (bs : List Byte) : State := if inPool a then s.sramWrite a bs else s

/-! ### Tables -/

/-- Read a table of options. -/
def tabGet {α : Type} [DecidableEq α] (t : Tab α) (d : α) (k : Nat) : α := Sparse.read (fun _ => d) t k

/-- Write a table. -/
def tabPut {α : Type} [DecidableEq α] (t : Tab α) (d : α) (k : Nat) (v : α) : Tab α := Sparse.write (fun _ => d) t k v

/-! ### Modes -/

/-- The six modes in the encoding of PCM_MODE.MODE (Table 4.9). -/
def mOFF : Nat := 0
def mTHAW : Nat := 1
def mFLOW : Nat := 2
def mDRIFT : Nat := 3
def mDORMANT : Nat := 4
def mRETREAT : Nat := 5

/-- The mode in force. -/
def State.mode (s : State) : Nat := s.get F.PCM_MODE_MODE

/-! ### The recorder's inputs (R151, R154) -/

/-- The source that presents a hardware event, by its code (Tables 6.2 and 6.4). -/
def srcOf (code : Nat) : Nat :=
  match code / 256 with
  | 1 => 0x01
  | 2 => if code = 0x0203 then 0x00 else 0x03
  | 3 => if code = 0x0304 then 0x0D else if code = 0x0306 then 0x0A
         else if code = 0x0302 ∨ code = 0x0303 then 0x0B else 0x02
  | 4 => 0x06
  | 5 => if code = 0x0501 then 0x09 else if code = 0x0502 then 0x07 else 0x08
  | 6 => if code = 0x0603 then 0x0A else 0x04
  | 7 => if code = 0x0701 ∨ code = 0x0702 then 0x00 else 0x05
  | 9 => if code = 0x0906 then 0x07 else if code = 0x0907 then 0x08 else 0x00
  | _ => 0x00

/-- A hardware block presents an event to its capture register (R154). -/
def State.event (s : State) (code party : Nat) (payload : List Byte) : State :=
  { s with mor := { s.mor with raised := s.mor.raised ++ [({ code, party, src := srcOf code, payload } : Event)] } }

/-! ### Outputs and free values -/

/-- Send something out of the device. -/
def State.emit (s : State) (o : Out) : State := { s with out := s.out ++ [o] }

/-- Draw one free value. -/
def State.draw (s : State) : BitVec 64 × State := (Config.freeValue s.draws, { s with draws := s.draws + 1 })

/-- Draw n free bytes (n a multiple of 8 is used). -/
def State.drawBytes : Nat → State → List Byte × State
  | 0, s => ([], s)
  | n + 1, s =>
    let (v, s) := s.draw
    let ans := State.drawBytes n s
    let bs := ans.1
    let s := ans.2
    (leBytes 8 v.toNat ++ bs, s)

/-- Apply an operation for each element of a list, in order. -/
def State.each {α : Type} (f : α → State → State) : List α → State → State
  | [], s => s
  | x :: xs, s => State.each f xs (f x s)

/-- Fields of a result that its code gives no value take free values (DESIGN CHOICE, log entry 66). -/
def State.openFlds (l : List Fld) (s : State) : State :=
  State.each (fun f s => let (v, s) := s.draw; s.put f v.toNat) l s

/-- Signed value of the low w bits of a number. -/
def toInt (w n : Nat) : Int := if n % 2 ^ w < 2 ^ (w - 1) then (n % 2 ^ w : Nat) else (n % 2 ^ w : Nat) - (2 ^ w : Nat)

/-- The low w bits of an integer in two's complement. -/
def ofInt (w : Nat) (i : Int) : Nat := (i % (2 ^ w : Nat)).toNat

end Sys2Proof.Machine
end

