-- ==== Sys2Proof/Machine/FirnOps.lean ====
section
/-! DEFINITION. The FIRN block's shared operations: frames and holders, lookups, the guarded dirty set, fills,
write-back, maintenance, the range engine, Serac, Cornice and buffer errors (R290 to R312). -/

namespace Sys2Proof.Machine

open Sys2Proof

/-- The address of a frame (R283). -/
def frameAddr (f : Nat) : Nat := if f < 4096 then 0x80000000 + f * 0x40000 else 0xC0000000 + (f - 4096) * 0x40000

/-- The frame that holds a Buffer die address, if one does. -/
def frameOf (a : Nat) : Option Nat :=
  if 0x80000000 ≤ a ∧ a < 0xC0000000 then some ((a - 0x80000000) / 0x40000)
  else if 0xC0000000 ≤ a ∧ a < 0xC0C00000 then some (4096 + (a - 0xC0000000) / 0x40000)
  else none

/-- An unlisted tag, Serac entry and Cornice slot: empty, with the frames of THAW entry (R290). -/
def tag0 (k : Nat) : FTag := { frame := k }
def serac0 (k : Nat) : SeracEnt := { frame := 4096 + k }
def slot0 (k : Nat) : CSlot := { frame := 4112 + k }

def State.tag (s : State) (k : Nat) : FTag := Sparse.read tag0 s.firn.tags k
def State.setTag (s : State) (k : Nat) (t : FTag) : State :=
  { s with firn := { s.firn with tags := Sparse.write tag0 s.firn.tags k t } }
def State.seracEnt (s : State) (k : Nat) : SeracEnt := Sparse.read serac0 s.firn.serac k
def State.setSerac (s : State) (k : Nat) (t : SeracEnt) : State :=
  { s with firn := { s.firn with serac := Sparse.write serac0 s.firn.serac k t } }
def State.slot (s : State) (k : Nat) : CSlot := Sparse.read slot0 s.firn.corn k
def State.setSlot (s : State) (k : Nat) (t : CSlot) : State :=
  { s with firn := { s.firn with corn := Sparse.write slot0 s.firn.corn k t } }

/-- Change the FIRN state. -/
def State.onFirn (s : State) (f : FirnState → FirnState) : State := { s with firn := f s.firn }

/-- The mask of n sectors from sector k. -/
def maskOf (k n : Nat) : Mask := BitVec.ofNat 64 ((2 ^ n - 1) * 2 ^ k)

/-- How many sectors a mask holds. -/
def popcount (m : Mask) : Nat := ((List.range 64).filter fun i => m.getLsbD i).length

/-- A mask from its two register words. -/
def mask64 (lo hi : Nat) : Mask := BitVec.ofNat 64 (lo + hi * 4294967296)

/-! ### Columns, sets and ways (R291) -/

/-- The home set of a segment, folded from SEG. -/
def homeSet (seg : Nat) : Nat :=
  seg % 512 ^^^ seg / 2 ^ 9 % 512 ^^^ seg / 2 ^ 18 % 512 ^^^ seg / 2 ^ 27 % 512 ^^^ seg / 2 ^ 36 % 64

/-- The set in which party p looks a segment up. -/
def setFor (s : State) (p seg : Nat) : Nat :=
  let h := homeSet seg
  match s.get (F.FIRN_PART_HALF p) with
  | 1 => h % 256
  | 2 => h % 256 + 256
  | _ => h

/-- Party p owns no column. -/
def noColumn (s : State) (p : Nat) : Bool :=
  s.get (F.FIRN_PART_WAYS p) == 0 || s.get (F.FIRN_PART_HALF p) == 0

/-- Party p owns way w in the half of a set. -/
def ownsWay (s : State) (p set w : Nat) : Bool :=
  (s.get (F.FIRN_PART_WAYS p)).testBit w && (s.get (F.FIRN_PART_HALF p)).testBit (set / 256)

/-- The tag keys that party p may use for a segment. -/
def waysFor (s : State) (p seg : Nat) : List Nat :=
  let set := setFor s p seg
  ((List.range 8).filter fun w => ownsWay s p set w).map fun w => set * 8 + w

/-! ### Matching (R294) -/

/-- A holder's segment is party p's segment `seg`. -/
def isSeg (h : Option Seg) (p seg : Nat) : Bool :=
  match h with
  | some g => g.owner == p && g.seg == seg
  | none => false

/-- The tag that holds p's segment, in p's ways of its set. -/
def findTag (s : State) (p seg : Nat) : Option Nat := (waysFor s p seg).find? fun k => isSeg (s.tag k).held p seg

/-- The Serac entry that holds p's segment. -/
def findSerac (s : State) (p seg : Nat) : Option Nat :=
  (List.range 16).find? fun k => isSeg (s.seracEnt k).held p seg

/-- The HELD Cornice slot that holds p's segment. -/
def findSlot (s : State) (p seg : Nat) : Option Nat :=
  (List.range 32).find? fun k => (s.slot k).st == .held && isSeg (s.slot k).held p seg

/-! ### Allocation (R295, R303, R305) -/

/-- A segment may be evicted: not pinned, no sector dirty, pending or fill-locked. -/
def evictable (g : Seg) : Bool := g.pin == 0 && g.d == 0 && g.p == 0 && g.l == 0

/-- The way an allocation takes: an empty eligible way, or the least recently used eligible one. -/
def takeWay (s : State) (p seg : Nat) : Option Nat :=
  let ks := waysFor s p seg
  match ks.find? fun k => (s.tag k).held.isNone with
  | some k => some k
  | none =>
    let ok := ks.filter fun k => match (s.tag k).held with
      | some g => evictable g
      | none => true
    ok.foldl (fun (b : Option Nat) k => match b with
      | some j => if (s.tag k).used < (s.tag j).used then some k else b
      | none => some k) none

/-- Make a tag the most recently used. -/
def State.touch (s : State) (k : Nat) : State :=
  (s.setTag k { s.tag k with used := s.firn.clock + 1 }).onFirn fun f => { f with clock := f.clock + 1 }

/-- Bind a segment to a tag with a frame and a new GEN. -/
def State.bindTag (s : State) (k frame : Nat) (g : Seg) : State :=
  s.setTag k { s.tag k with frame := frame, gen := (s.tag k).gen + 1, held := some g }

/-- What Serac keeps of an evicted segment. -/
def toSerac (g : Seg) : Seg := { seg := g.seg, owner := g.owner, v := g.v, e := g.e }

/-- An evicted segment enters Serac with its frame; the answer is the frame the entry held before (R303). -/
def State.enterSerac (s : State) (g : Seg) (frame : Nat) : Nat × State :=
  let k := match (List.range 16).find? fun k => (s.seracEnt k).held.isNone with
    | some k => k
    | none => s.firn.seracOrder.headD 0
  let old := (s.seracEnt k).frame
  let s := s.setSerac k { frame, held := some (toSerac g) }
  (old, s.onFirn fun f => { f with seracOrder := (f.seracOrder.filter fun j => j != k) ++ [k] })

/-- Empty a Serac entry; its frame stays. -/
def State.emptySerac (s : State) (k : Nat) : State :=
  (s.setSerac k { s.seracEnt k with held := none }).onFirn fun f =>
    { f with seracOrder := f.seracOrder.filter fun j => j != k }

/-- A new segment in a way (R295): the way's segment passes to Serac if it holds a valid sector. -/
def State.allocNew (s : State) (k p seg : Nat) : State :=
  let t := s.tag k
  let ans := match t.held with
    | some g => if g.v != 0 then s.enterSerac g t.frame else (t.frame, s)
    | none => (t.frame, s)
  let fr := ans.1
  let s := ans.2
  (s.bindTag k fr { seg, owner := p }).touch k

/-- A recall from Serac entry i into a way (R303). -/
def State.recall (s : State) (k i : Nat) (g : Seg) : State :=
  let t := s.tag k
  let fr := (s.seracEnt i).frame
  let s := s.emptySerac i
  let s := match t.held with
    | some old => if old.v != 0 then
        (s.setSerac i { frame := t.frame, held := some (toSerac old) }).onFirn fun f =>
          { f with seracOrder := f.seracOrder ++ [i] }
      else s.setSerac i { frame := t.frame }
    | none => s.setSerac i { frame := t.frame }
  (((s.bindTag k fr g).touch k)).inc F.FIRN_CNT0_SERAC_CNT

/-- A promotion from Cornice slot j into a way (R305). -/
def State.promote (s : State) (k j : Nat) (g : Seg) : State :=
  let t := s.tag k
  let sl := s.slot j
  let ans := match t.held with
    | some old => if old.v != 0 then s.enterSerac old t.frame else (t.frame, s)
    | none => (t.frame, s)
  let fr := ans.1
  let s := ans.2
  let s := s.setSlot j { sl with frame := fr, st := .free, held := none }
  (((s.bindTag k sl.frame g).touch k)).inc F.FIRN_CNT0_PROMO_CNT

/-! ### Lookup (R294) -/

/-- The result codes of FIRN_LRES0.RESULT. -/
def lrHIT : Nat := 0
def lrMISS : Nat := 1
def lrNEW : Nat := 2
def lrFULL : Nat := 3
def lrNOWAY : Nat := 4
def lrQUOTA : Nat := 5
def lrFILLWAIT : Nat := 6
def lrPINMAX : Nat := 7
def lrRETREAT : Nat := 8
def lrBADARG : Nat := 9
def lrOK : Nat := 10

/-- What a lookup returns. -/
structure LookRes where
  result : Nat
  source : Nat := 0
  /-- The tag, as 8 × set + way, when a segment is named. -/
  key : Option Nat := none
  chg : Nat := 0
  granted : Option Mask := none
  deriving DecidableEq, Repr

/-- The intents of a lookup. -/
inductive Intent where
  | look | alloc | reserve | fillLock
  deriving DecidableEq, Repr

/-- A lookup with PIN = 1 pins the segment of a tag. -/
def State.pinTag (s : State) (k : Nat) (pin : Bool) : State :=
  if pin then s.setTag k { s.tag k with held := (s.tag k).held.map fun g => { g with pin := g.pin + 1 } } else s

/-- Charge a unit on every sector of a mask (R297). -/
def chargeMask (m : Mask) (c : Tab Nat) : Tab Nat :=
  ((List.range 64).filter fun i => m.getLsbD i).foldl (fun c i => tabPut c 0 i (tabGet c 0 i + 1)) c

/-- Add to or take from DCOUNT[p]. -/
def State.dcount (s : State) (p : Nat) : Nat := s.get (F.FIRN_DQ_DCOUNT p)
def State.addUnits (s : State) (p n : Nat) : State := s.put (F.FIRN_DQ_DCOUNT p) (s.dcount p + n)
def State.dropUnits (s : State) (p n : Nat) : State := s.put (F.FIRN_DQ_DCOUNT p) (s.dcount p - n)

/-- The dirty sectors of a party, over all its tags. -/
def dirtyUnits (s : State) (p : Nat) : Nat :=
  (s.firn.tags.map fun (c : Nat × FTag) => match c.2.held with
    | some g => if g.owner = p then popcount g.d else 0
    | none => 0).sum

/-- Return n units that a party holds reserved. DCOUNT counts its dirty sectors plus its reservations (R297), so no
more than the reservations can be returned (DEDUCED, log entry 20). -/
def State.dropReserved (s : State) (p n : Nat) : State := s.dropUnits p (Nat.min n (s.dcount p - dirtyUnits s p))

/-- The intent's effect on a found or new segment: RESERVE charges, FILLLOCK locks. -/
def State.applyIntent (s : State) (k p : Nat) (m : Mask) (it : Intent) : Nat × Option Mask × State :=
  match (s.tag k).held with
  | none => (0, none, s)
  | some g => match it with
    | .look => (0, none, s)
    | .alloc => (0, none, s)
    | .reserve =>
      let c := m &&& ~~~g.d
      let s := s.setTag k { s.tag k with held := some { g with charge := chargeMask c g.charge } }
      (popcount c, none, s.addUnits p (popcount c))
    | .fillLock =>
      let c := m &&& ~~~(g.v ||| g.d ||| g.l)
      (0, some c, s.setTag k { s.tag k with held := some { g with l := g.l ||| c } })

/-- Finish a lookup on a tag. -/
def State.finishLook (s : State) (k p : Nat) (m : Mask) (it : Intent) (pin : Bool) (result source : Nat) :
    LookRes × State :=
  let s := s.pinTag k pin
  let ans := s.applyIntent k p m it
  let chg := ans.1
  let granted := ans.2.1
  let s := ans.2.2
  ({ result, source, key := some k, chg, granted }, s)

/-- The present dirty and fill-lock masks of p's segment, wherever it lies. -/
def segNow (s : State) (p seg : Nat) : Option Seg :=
  match findTag s p seg with
  | some k => (s.tag k).held
  | none => match findSerac s p seg with
    | some k => (s.seracEnt k).held
    | none => match findSlot s p seg with
      | some k => (s.slot k).held
      | none => none

/-- Why a RESERVE is refused before it touches anything (R297, R302). -/
def reserveRefusal (s : State) (p seg : Nat) (m : Mask) : Option Nat :=
  if s.mode = mRETREAT then some lrRETREAT
  else if noColumn s p then none
  else
    let d := match segNow s p seg with | some g => g.d | none => 0
    let l := match segNow s p seg with | some g => g.l | none => 0
    if s.dcount p + popcount (m &&& ~~~d) > s.get (F.FIRN_DQ_DQUOTA p) then some lrQUOTA
    else if (m &&& l) != 0 then some lrFILLWAIT
    else none

/-- Bring a segment into a way from Serac or Cornice, or make it new. -/
def State.bring (s : State) (p seg : Nat) (m : Mask) (it : Intent) (pin : Bool) : LookRes × State :=
  match findSerac s p seg with
  | some i =>
    if noColumn s p then ({ result := lrNOWAY }, s) else
    match takeWay s p seg, (s.seracEnt i).held with
    | some k, some g => (s.recall k i g).finishLook k p m it pin lrHIT 1
    | _, _ => ({ result := lrFULL }, s.inc F.FIRN_CNT1_FULL_CNT)
  | none => match findSlot s p seg with
    | some j =>
      if noColumn s p then ({ result := lrNOWAY }, s) else
      match takeWay s p seg, (s.slot j).held with
      | some k, some g => (s.promote k j g).finishLook k p m it pin lrHIT 2
      | _, _ => ({ result := lrFULL }, s.inc F.FIRN_CNT1_FULL_CNT)
    | none =>
      if it = .look then ({ result := lrMISS }, s)
      else if noColumn s p then ({ result := lrNOWAY }, s)
      else match takeWay s p seg with
        | some k => (s.allocNew k p seg).finishLook k p m it pin lrNEW 3
        | none => ({ result := lrFULL }, s.inc F.FIRN_CNT1_FULL_CNT)

/-- A lookup (R294 to R298): party, LBA, sectors, intent and PIN. -/
def State.firnLookup (s : State) (p lba n : Nat) (it : Intent) (pin : Bool) : LookRes × State :=
  let seg := lba / 64
  let j := lba % 64
  if n = 0 ∨ j + n > 64 then ({ result := lrBADARG }, s) else
  let m := maskOf j n
  match (if it = .reserve then reserveRefusal s p seg m else none) with
  | some r => ({ result := r, key := findTag s p seg }, if r = lrQUOTA then s.inc F.FIRN_CNT1_QUOTA_CNT else s)
  | none => match findTag s p seg with
    | some k =>
      match (s.tag k).held with
      | some g => if pin && g.pin == 255 then ({ result := lrPINMAX, key := some k }, s)
                  else (s.touch k).finishLook k p m it pin lrHIT 0
      | none => ({ result := lrMISS }, s)
    | none => s.bring p seg m it pin

/-! ### The guarded dirty set and fills (R297, R298) -/

/-- COMMIT on one sector. A sector that becomes valid and dirty loses its fill lock (R293), so that a fill that comes later
leaves it unchanged (R298; DEDUCED, log entry 67). -/
def commitSector (full : Mask) (i : Nat) (a : Seg × Int × Bool × Nat) : Seg × Int × Bool × Nat :=
  let (g, du, part, n) := a
  let b := maskOf i 1
  let c := tabGet g.charge 0 i
  let g1 := { g with charge := tabPut g.charge 0 i (c - 1) }
  if full.getLsbD i || g.v.getLsbD i then
    if g.d.getLsbD i then
      ({ g1 with p := g.p &&& ~~~b, e := g.e &&& ~~~b, v := g.v ||| b }, if c = 0 then du else du - 1, part, n + 1)
    else ({ g1 with v := g.v ||| b, d := g.d ||| b, p := g.p &&& ~~~b, e := g.e &&& ~~~b, l := g.l &&& ~~~b, kill := g.kill &&& ~~~b },
          if c = 0 then du + 1 else du, part, n + 1)
  else (g1, if c = 0 then du else du - 1, true, n)

/-- The sectors of a mask, in order. -/
def sectorsOf (m : Mask) : List Nat := (List.range 64).filter fun i => m.getLsbD i

/-- Result codes of FIRN_SRES.RESULT. -/
def srOK : Nat := 0
def srSTALE : Nat := 1
def srPARTIAL : Nat := 2
def srBADARG : Nat := 3
def srCLQFULL : Nat := 4

/-- Add a signed number of units to DCOUNT[p]. -/
def State.moveUnits (s : State) (p : Nat) (i : Int) : State := s.put (F.FIRN_DQ_DCOUNT p) (((s.dcount p : Int) + i).toNat)

/-- COMMIT (R297): result and sectors changed. -/
def State.firnCommit (s : State) (k : Nat) (gen : BitVec 8) (m full : Mask) : Nat × Nat × State :=
  let t := s.tag k
  match t.held with
  | none => (srSTALE, 0, s)
  | some g =>
    if t.gen ≠ gen then (srSTALE, 0, s) else
    let ans := (sectorsOf m).foldl (fun a i => commitSector full i a) (g, (0 : Int), false, 0)
    let g1 := ans.1
    let du := ans.2.1
    let part := ans.2.2.1
    let n := ans.2.2.2
    (if part then srPARTIAL else srOK, n, (s.setTag k { t with held := some g1 }).moveUnits g.owner du)

/-- FILL of the masked sectors whose L is 1 (R298); a sector revoked meanwhile takes V = 0 (R307). -/
def fillSeg (g : Seg) (m : Mask) : Seg :=
  let c := m &&& g.l
  { g with v := g.v ||| (c &&& ~~~g.kill), l := g.l &&& ~~~c, e := g.e &&& ~~~c, kill := g.kill &&& ~~~c }

/-- A Cornice slot after its L bits changed: RELEASING becomes FREE, CANCELLING becomes SCRUBBING, when the last
L bit clears (R306, R307). -/
def slotSettle (t : CSlot) : CSlot :=
  match t.held with
  | none => t
  | some g =>
    if g.l != 0 then t
    else match t.st with
      | .releasing => { t with st := .free, held := none }
      | .cancelling => { t with st := .scrubbing }
      | .free => t
      | .held => t
      | .scrubbing => t

/-- FILL in a Cornice slot: a cancelled slot only loses L (R307). -/
def fillSlot (t : CSlot) (m : Mask) : CSlot :=
  slotSettle { t with held := t.held.map fun g =>
    if t.st = .cancelling then { g with l := g.l &&& ~~~m } else fillSeg g m }

/-- ABORT's clearing of L (R298). -/
def unlockSeg (g : Seg) (m : Mask) : Seg := { g with l := g.l &&& ~~~m, kill := g.kill &&& ~~~m }

/-- Return n charged units of a segment: the masked sectors first, then the others in order (DEDUCED, log entry 20). -/
def dropCharges (n : Nat) (m : Mask) (c : Tab Nat) : Tab Nat :=
  let order := sectorsOf m ++ sectorsOf (~~~m)
  (order.foldl (fun (a : Nat × Tab Nat) i =>
    let x := Nat.min a.1 (tabGet a.2 0 i)
    (a.1 - x, tabPut a.2 0 i (tabGet a.2 0 i - x))) (n, c)).2

/-! ### Write-back (R299) -/

/-- Post the dirty sectors of a mask that are not pending. The answer is none when the clean queue is full, else how
many sectors were posted. -/
def State.postClean (s : State) (k : Nat) (m : Mask) (inval : Bool) : Option Nat × State :=
  let t := s.tag k
  match t.held with
  | none => (some 0, s)
  | some g =>
    let c := m &&& g.d &&& ~~~g.p
    if c = 0 then (some 0, s)
    else if s.firn.clq.length ≥ 64 then (none, s)
    else
      let s := s.setTag k { t with held := some { g with p := g.p ||| c, pinv := if inval then g.pinv ||| c else g.pinv &&& ~~~c } }
      let ent : ClqEnt := { owner := g.owner, set := k / 8, way := k % 8, gen := t.gen, frame := frameAddr t.frame
                            lba := g.seg * 64, mask := c, inval }
      (some (popcount c), s.onFirn fun f => { f with clq := f.clq ++ [ent] })

/-- WBDONE (R299). -/
def State.wbDone (s : State) (k : Nat) (gen : BitVec 8) (m : Mask) (ok : Bool) : State :=
  let t := s.tag k
  if t.gen ≠ gen then (s.raiseBit F.FIRN_FLAG_STALEWB).inc F.FIRN_CNT2_STALEWB_CNT else
  match t.held with
  | none => s
  | some g =>
    let c := m &&& g.p
    if ok then
      (s.setTag k { t with held := some { g with d := g.d &&& ~~~c, p := g.p &&& ~~~c, v := g.v &&& ~~~(c &&& g.pinv), pinv := g.pinv &&& ~~~c } }).dropUnits
        g.owner (popcount c)
    else s.setTag k { t with held := some { g with p := g.p &&& ~~~c, pinv := g.pinv &&& ~~~c } }

/-! ### Maintenance (R300, R306) -/

/-- INVAL of the masked sectors that are neither dirty nor fill-locked. -/
def invalSeg (g : Seg) (m : Mask) : Seg :=
  let c := m &&& ~~~(g.d ||| g.l)
  { g with v := g.v &&& ~~~c, e := g.e &&& ~~~c }

/-- DISCARD of the masked sectors that are not fill-locked, and how many units it releases. -/
def discardSeg (g : Seg) (m : Mask) : Seg × Nat :=
  let c := m &&& ~~~g.l
  ({ g with v := g.v &&& ~~~c, d := g.d &&& ~~~c, p := g.p &&& ~~~c, e := g.e &&& ~~~c, pinv := g.pinv &&& ~~~c },
   popcount (c &&& g.d))

/-- Sectors on which two versions of a segment differ. -/
def changed (a b : Seg) : Nat := popcount ((a.v ^^^ b.v) ||| (a.d ^^^ b.d) ||| (a.p ^^^ b.p) ||| (a.e ^^^ b.e))

/-- Release a HELD slot (R306). -/
def State.releaseSlot (s : State) (j : Nat) : State :=
  if (s.slot j).st = .held then s.setSlot j (slotSettle { s.slot j with st := .releasing }) else s

/-- The maintenance operations, as coded in FIRN_RG_CMD.OP. -/
inductive Maint where
  | clean | inval | cleanInval | discard
  deriving DecidableEq, Repr

/-- A maintenance operation on the masked sectors of a tag's segment: none when the clean queue is full (nothing
changes), else the sectors changed. -/
def State.maintTag (s : State) (op : Maint) (k : Nat) (m : Mask) : Option Nat × State :=
  match (s.tag k).held with
  | none => (some 0, s)
  | some g => match op with
    | .clean => s.postClean k m false
    | .inval =>
      let g1 := invalSeg g m
      (some (changed g g1), s.setTag k { s.tag k with held := some g1 })
    | .cleanInval =>
      let ans := s.postClean k m true
      let s := ans.2
      match ans.1 with
      | none => (none, s)
      | some n => match (s.tag k).held with
        | none => (some n, s)
        | some g =>
          let g1 := invalSeg g m
          (some (n + changed g g1), s.setTag k { s.tag k with held := some g1 })
    | .discard =>
      let ans := discardSeg g m
      let g1 := ans.1
      let u := ans.2
      (some (changed g g1), (s.setTag k { s.tag k with held := some g1 }).dropUnits g.owner u)

/-- A maintenance operation on p's segment where it lies in Serac or Cornice: INVAL, CLEANINVAL and DISCARD empty or
release it. -/
def State.maintAway (s : State) (op : Maint) (p seg : Nat) : State :=
  if op = .clean then s else
  match findSerac s p seg with
  | some i => s.emptySerac i
  | none => match findSlot s p seg with
    | some j => s.releaseSlot j
    | none => s

/-- An address operation (R300): result code of FIRN_LRES0. An address CLEAN that finds the queue full answers FULL,
and one whose segment lies nowhere MISS (DEDUCED, log entry 21). -/
def State.maintAddr (s : State) (op : Maint) (p lba n : Nat) : LookRes × State :=
  let j := lba % 64
  if n = 0 ∨ j + n > 64 then ({ result := lrBADARG }, s) else
  match findTag s p (lba / 64) with
  | some k =>
    let ans := s.maintTag op k (maskOf j n)
    ({ result := if ans.1.isSome then lrOK else lrFULL, key := some k }, ans.2)
  | none => ({ result := if (findSerac s p (lba / 64)).isSome ∨ (findSlot s p (lba / 64)).isSome then lrOK else lrMISS },
      s.maintAway op p (lba / 64))

/-! ### The range engine (R301) -/

/-- A segment lies in the scope of a pass. -/
def inScope (r : RangeOp) (g : Seg) : Bool :=
  match r.scope with
  | 0 => g.owner == r.party && decide (g.seg * 64 < r.lba + r.cnt) && decide (r.lba < g.seg * 64 + 64)
  | 1 => g.owner == r.party
  | _ => true

/-- The operation of a range command code. -/
def maintOf (op : Nat) : Maint :=
  match op with
  | 1 => .clean
  | 2 => .inval
  | 3 => .cleanInval
  | _ => .discard

/-- Visit one holder: none when the engine must pause, else whether the segment changed. -/
def State.visit (s : State) (r : RangeOp) (pos : Nat) : Option Bool × State :=
  if pos < 4096 then
    match (s.tag pos).held with
    | none => (some false, s)
    | some g => if inScope r g then
        let ans := s.maintTag (maintOf r.op) pos (~~~0)
        (ans.1.map fun n => n != 0, ans.2)
      else (some false, s)
  else if pos < 4112 then
    match (s.seracEnt (pos - 4096)).held with
    | none => (some false, s)
    | some g => if inScope r g && r.op != 1 then (some true, s.emptySerac (pos - 4096)) else (some false, s)
  else
    match (s.slot (pos - 4112)).held with
    | none => (some false, s)
    | some g => if inScope r g && r.op != 1 && (s.slot (pos - 4112)).st == .held then
        (some true, s.releaseSlot (pos - 4112)) else (some false, s)

/-- Visit the holders of a list of positions in order, up to a pause. -/
def State.visits : List Nat → State → RangeOp → State
  | [], s, r => s.onFirn fun f => { f with range := some { r with pos := 4144 } }
  | x :: xs, s, r =>
    let ans := s.visit r x
    let s := ans.2
    match ans.1 with
    | none => (s.raiseBit F.FIRN_STAT_PAUSED).onFirn fun f => { f with range := some { r with pos := x } }
    | some c => State.visits xs s { r with aff := if c then r.aff + 1 else r.aff }

/-- The holders that hold a segment, from a position on. -/
def heldFrom (s : State) (pos : Nat) : List Nat :=
  ((s.firn.tags.map Prod.fst) ++ (s.firn.serac.map fun (c : Nat × SeracEnt) => 4096 + c.1) ++
    (s.firn.corn.map fun (c : Nat × CSlot) => 4112 + c.1)).filter fun k => decide (pos ≤ k)

/-- Run the pass on from its position. -/
def State.runRange (s : State) : State :=
  match s.firn.range with
  | none => s
  | some r => State.visits (heldFrom s r.pos) (s.clr F.FIRN_STAT_PAUSED) r

/-! ### Cornice (R304, R306, R307) -/

/-- CALLOC: result code of FIRN_CRES and the slot. -/
def State.cAlloc (s : State) (p seg : Nat) (fill : Mask) : Nat × Option Nat × State :=
  if s.mode = mRETREAT then (1, none, s)
  else if (segNow s p seg).isSome then (2, none, s)
  else match (List.range 32).find? fun j => (s.get (F.FIRN_CMASK_SLOTS p)).testBit j && (s.slot j).st == .free with
    | none => (1, none, s)
    | some j =>
      let t := s.slot j
      (0, some j, s.setSlot j { t with gen := t.gen + 1, st := .held, held := some { seg, owner := p, l := fill } })

/-- The sectors of a segment that lie in a range of LBAs. -/
def rangeMask (seg lo hi : Nat) : Mask :=
  let a := Nat.max lo (seg * 64)
  let b := Nat.min hi (seg * 64 + 64)
  if a < b then maskOf (a - seg * 64) (b - a) else 0

/-- The sectors of a segment that lie in any of a list of ranges [lo, hi). -/
def rangesMask (seg : Nat) (rs : List (Nat × Nat)) : Mask := rs.foldl (fun m r => m ||| rangeMask seg r.1 r.2) 0

/-- Cancel a read-ahead slot (R307). -/
def cancelSlot (now : BitVec 64) (t : CSlot) : CSlot :=
  match t.held with
  | none => t
  | some g => if t.st = .held ∨ t.st = .releasing then
      slotSettle { t with st := .cancelling, filled := popcount g.v, locked := popcount g.l, cancelAt := now } else t

/-- A revoke notice for party p over ranges of media LBAs, or over all its segments (R307, R324). -/
def State.revoke (s : State) (p : Nat) (rs : Option (List (Nat × Nat))) : State :=
  let hit (g : Seg) : Mask := if g.owner = p then (match rs with | some l => rangesMask g.seg l | none => ~~~0) else 0
  let s := State.each (fun j s =>
    match (s.slot j).held with
    | some g => if hit g != 0 then s.setSlot j (cancelSlot s.atb.count (s.slot j)) else s
    | none => s) (List.range 32) s
  let s := State.each (fun i s =>
    match (s.seracEnt i).held with
    | some g => if hit g != 0 then s.emptySerac i else s
    | none => s) (List.range 16) s
  State.each (fun k s =>
    match (s.tag k).held with
    | some g =>
      let c := hit g
      let z := c &&& ~~~(g.d ||| g.l)
      let s := s.setTag k { s.tag k with held := some { g with v := g.v &&& ~~~z, kill := g.kill ||| (c &&& g.l) } }
      if (c &&& g.d) != 0 then s.raiseBit F.FIRN_FLAG_REVDIRTY else s
    | none => s) (s.firn.tags.map Prod.fst) s

/-! ### Buffer errors (R285, R310) -/

/-- The holder of a frame: a tag, or a Cornice slot. -/
def tagOfFrame (s : State) (f : Nat) : Option Nat :=
  (((s.firn.tags.filter fun (c : Nat × FTag) => c.2.frame == f).map Prod.fst).head?).orElse fun _ =>
    if f < 4096 ∧ (s.tag f).frame = f then some f else none

def slotOfFrame (s : State) (f : Nat) : Option Nat := (List.range 32).find? fun j => (s.slot j).frame == f

/-- The owner of the segment that Serac holds in a frame. -/
def seracOwner (s : State) (f : Nat) : Option Nat :=
  (List.range 16).findSome? fun i => if (s.seracEnt i).frame = f then (s.seracEnt i).held.map Seg.owner else none

/-- Record 0x0907 for an uncorrectable block at `a`. -/
def ueRecord (s : State) (a src : Nat) (owner : Option Nat) (dirty scrub : Bool) : State :=
  let area := match frameOf a with
    | some f => if f < 4096 then 0 else 1
    | none => if a < 0xC0C30000 then 2 else 3
  let fr := frameOf a
  s.event 0x0907 (owner.getD 0xFF) (leBytes 1 area ++ leBytes 1 src ++ leBytes 1 (owner.getD 0xFF) ++
    leBytes 1 (if fr.isSome then a % 0x40000 / 4096 else 0xFF) ++ leBytes 4 a ++ leBytes 2 (fr.getD 0xFFFF) ++
    leBytes 1 ((if dirty then 1 else 0) + (if scrub then 2 else 0)) ++ zeros 1)

/-- An uncorrectable error in the block at `a`, found by a requester or the patrol scrub (R310). -/
def State.bufferUE (s : State) (a src : Nat) (scrub : Bool) : State :=
  let a := a / 64 * 64
  let s := ((s.raiseBit F.FIRN_FLAG_UE).inc F.FIRN_CNT2_UE_CNT).put F.FIRN_UEADDR_ADDR a
  match frameOf a with
  | none => ueRecord s a src none false scrub
  | some f =>
    let b := maskOf (a % 0x40000 / 4096) 1
    match tagOfFrame s f with
    | some k => match (s.tag k).held with
      | some g => ueRecord (s.setTag k { s.tag k with held := some { g with e := g.e ||| b } }) a src (some g.owner)
                    ((g.d &&& b) != 0) scrub
      | none => ueRecord s a src none false scrub
    | none => match slotOfFrame s f with
      | some j => match (s.slot j).held with
        | some g => ueRecord (s.setSlot j { s.slot j with held := some { g with e := g.e ||| b } }) a src (some g.owner)
                      false scrub
        | none => ueRecord s a src none false scrub
      | none => ueRecord s a src (seracOwner s f) false scrub

/-- A corrected error (R285). -/
def State.bufferCE (s : State) : State := (s.raiseBit F.FIRN_FLAG_CE).inc F.FIRN_CNT2_CE_CNT

/-- A core's access finds the FIRN awake (R289). -/
def firnAwake (s : State) : Bool := !s.on F.FIRN_STAT_ASLEEP

/-- A master has a bank in the FIRN and RME (R296, R333). -/
def hasBank (m : Master) : Bool := m != .sv

/-! ### Results in a bank (Table 12.8) -/

/-- Write a lookup's result into master m's bank. A result that names no tag gives its other fields no value (DESIGN CHOICE,
log entry 66). -/
def State.lookResult (s : State) (m : Master) (r : LookRes) : State :=
  let s := ((s.wr (R.FIRN_LRES0 m) 0).put (F.FIRN_LRES0_RESULT m) r.result).put (F.FIRN_LRES0_SOURCE m) r.source
  let s := (s.wr (R.FIRN_LRES2 m) 0).put (F.FIRN_LRES2_CHG m) r.chg
  match r.key with
  | none => s.openFlds [F.FIRN_LRES0_SOURCE m, F.FIRN_LRES0_SET m, F.FIRN_LRES0_WAY m, F.FIRN_LRES0_GEN m, F.FIRN_LRES1_FRAME m,
      F.FIRN_LRES2_PIN m, F.FIRN_LV_LO_MASK m, F.FIRN_LV_HI_MASK m, F.FIRN_LD_LO_MASK m, F.FIRN_LD_HI_MASK m,
      F.FIRN_LE_LO_MASK m, F.FIRN_LE_HI_MASK m, F.FIRN_LL_LO_MASK m, F.FIRN_LL_HI_MASK m]
  | some k =>
    let t := s.tag k
    let s := ((s.put (F.FIRN_LRES0_SET m) (k / 8)).put (F.FIRN_LRES0_WAY m) (k % 8)).put (F.FIRN_LRES0_GEN m) t.gen.toNat
    let s := s.put (F.FIRN_LRES1_FRAME m) (frameAddr t.frame)
    match t.held with
    | none => s
    | some g =>
      let l := r.granted.getD g.l
      let w (s : State) (lo hi : Fld) (x : Mask) : State := (s.put lo x.toNat).put hi (x.toNat / 4294967296)
      let s := s.put (F.FIRN_LRES2_PIN m) g.pin
      let s := w (w s (F.FIRN_LV_LO_MASK m) (F.FIRN_LV_HI_MASK m) g.v) (F.FIRN_LD_LO_MASK m) (F.FIRN_LD_HI_MASK m) g.d
      w (w s (F.FIRN_LE_LO_MASK m) (F.FIRN_LE_HI_MASK m) g.e) (F.FIRN_LL_LO_MASK m) (F.FIRN_LL_HI_MASK m) l

/-- Write a set-and-way command's result. -/
def State.segResult (s : State) (m : Master) (result naff : Nat) : State :=
  ((s.wr (R.FIRN_SRES m) 0).put (F.FIRN_SRES_RESULT m) result).put (F.FIRN_SRES_NAFF m) naff

/-- The LBA in a bank's FIRN_LKEY. -/
def lkey (s : State) (m : Master) : Nat :=
  s.get (F.FIRN_LKEY_LO_LBA m) + s.get (F.FIRN_LKEY_HI_LBA m) * 4294967296

/-- The sector mask in a bank's FIRN_SMASK, and the full mask. -/
def smask (s : State) (m : Master) : Mask := mask64 (s.get (F.FIRN_SMASK_LO_MASK m)) (s.get (F.FIRN_SMASK_HI_MASK m))
def sfull (s : State) (m : Master) : Mask :=
  mask64 (s.get (F.FIRN_SFULL_LO_FULLMASK m)) (s.get (F.FIRN_SFULL_HI_FULLMASK m))

end Sys2Proof.Machine
end

