-- ==== Sys2Proof/Machine/Gate.lean ====
section
/-! DEFINITION. The held-store queues of the gated cores, and the commands that stand for a core's register write (R123, R125 to
R128). -/

namespace Sys2Proof.Machine

open Sys2Proof

/-- The number of a core that may run gated. -/
def gateIdx : Master → Option Nat
  | .hc0 => some 0
  | .hc1 => some 1
  | .mc => some 2
  | .sec => none
  | .sv => none

/-- The core runs gated. -/
def gated (s : State) (m : Master) : Bool :=
  match gateIdx m with
  | some c => s.bit F.SST_GATE_GATED c
  | none => false

/-- The core goes on, or waits: for a block of its TCM, counted from 1, or with `w` = 0 for its gate. -/
def State.stall (s : State) (m : Master) (b : Bool) (w : Nat) : State :=
  match gateIdx m with
  | some c => ({ s with sst := { s.sst with waits := tabPut s.sst.waits 0 c w } } : State).putB (F.SST_HSQ_STALL c) b
  | none => s

def hsq (s : State) (c : Nat) : List HeldStore := tabGet s.sst.hsqs [] c

/-- Put a queue back, with SST_HSQ. -/
def State.setHsq (s : State) (c : Nat) (l : List HeldStore) : State :=
  let s : State := { s with sst := { s.sst with hsqs := tabPut s.sst.hsqs [] c l } }
  let s := s.put (F.SST_HSQ_COUNT c) l.length
  if s.get (F.SST_HSQ_PEAK c) < l.length then s.put (F.SST_HSQ_PEAK c) l.length else s

/-- A gated core's store joins its queue; a full queue stalls the core (R126). -/
def State.hold (s : State) (m : Master) (c a width v : Nat) : State :=
  if (hsq s c).length ≥ 1024 then s.stall m true 0
  else (s.stall m false 0).setHsq c (hsq s c ++ [{ addr := a, width := width, data := v % 256 ^ width }])

/-- A command that stands for a core's write of a register takes effect, or is held while the core runs gated (R125, R128). -/
def State.byCore (s : State) (m : Master) (a : Nat) (v : Word) (go : State → State) : State :=
  match gateIdx m with
  | some c => if gated s m then s.hold m c a 4 v.toNat else go s
  | none => go s

/-- The same for a requester of the Store die's windows. -/
def State.byReq (s : State) (r : Req) (a width : Nat) (v : Word) (go : State → State) : State :=
  match r with
  | .core m => match gateIdx m with
    | some c => if gated s m then s.hold m c a width v.toNat else go s
    | none => go s
  | _ => go s

/-- Bits hi to lo of a command word, set to the code of the command. -/
def opWord (v : Word) (hi lo n : Nat) : Word := withBits v hi lo n

end Sys2Proof.Machine
end

