-- ==== Sys2Proof/Machine/Firn.lean ====
section
/-! DEFINITION. The commands of the FIRN block: lookups, the guarded dirty set, maintenance, the range engine, the
clean queue, the metadata channel, Cornice, the partition, and the Buffer die (chapter 12). -/

namespace Sys2Proof.Machine

open Sys2Proof

/-! ### The Buffer die -/

/-- BUFFER_INIT_DONE (R286): the zero-fill ends. -/
def execBufferInitDone (s : State) : Host.Outcome State Fault Refusal := .next (s.raiseBit F.FIRN_STAT_BINIT)

/-- PATROL_SCRUB (R285, R310): the next block is read; `found` is 0 good, 1 corrected, 2 uncorrectable. -/
def patrolScrub (found : BitVec 2) (s : State) : State :=
  if s.on F.FIRN_CTL_SCRUB && firnAwake s then
    let a := 0x80000000 + 64 * s.firn.scrub
    let s := s.onFirn fun f => { f with scrub := if f.scrub + 1 ≥ 17825792 then 0 else f.scrub + 1 }
    if found = 1 then s.bufferCE else if found = 2 then s.bufferUE a 0x08 true else s
  else s

def execPatrolScrub (found : BitVec 2) (s : State) : Host.Outcome State Fault Refusal := .next (patrolScrub found s)

/-- ZQ_CALIBRATION (R284): no architectural effect. -/
def execZqCalibration (s : State) : Host.Outcome State Fault Refusal := .next s

/-! ### Lookups by a core (Table 12.8): the word written to FIRN_LCMD gives party, count and PIN -/

/-- A write of FIRN_LCMD is taken from a master with a bank while the FIRN is awake (R289, R296). -/
def bankTaken (s : State) (m : Master) : Bool := hasBank m && firnAwake s

/-- A lookup through a bank. -/
def lookCmd (it : Intent) (m : Master) (v : Word) (s : State) : State :=
  if bankTaken s m then
    let ans := s.firnLookup (bitsOf v 7 4) (lkey s m) (bitsOf v 13 8 + 1) it (bitsOf v 14 14 == 1)
    let r := ans.1
    let s := ans.2
    s.lookResult m r
  else s

/-- LOOKUP (R294). -/
def execLookup (m : Master) (v : Word) (s : State) : Host.Outcome State Fault Refusal :=
  .next (s.byCore m 0x40007208 (opWord v 3 0 1) fun s => lookCmd .look m v s)
/-- LOOKUP_ALLOC (R295). -/
def execLookupAlloc (m : Master) (v : Word) (s : State) : Host.Outcome State Fault Refusal :=
  .next (s.byCore m 0x40007208 (opWord v 3 0 2) fun s => lookCmd .alloc m v s)
/-- RESERVE (R297). -/
def execReserve (m : Master) (v : Word) (s : State) : Host.Outcome State Fault Refusal :=
  .next (s.byCore m 0x40007208 (opWord v 3 0 3) fun s => lookCmd .reserve m v s)
/-- FILLLOCK (R298). -/
def execFilllock (m : Master) (v : Word) (s : State) : Host.Outcome State Fault Refusal :=
  .next (s.byCore m 0x40007208 (opWord v 3 0 4) fun s => lookCmd .fillLock m v s)

/-- DISCARD is refused to every master but HC0, HC1 and MC (R300). -/
def mayDiscard (m : Master) : Bool := m == .hc0 || m == .hc1 || m == .mc

/-- An address operation through a bank (R300). -/
def addrCmd (op : Maint) (m : Master) (v : Word) (s : State) : State :=
  if bankTaken s m then
    if op = .discard ∧ ¬ mayDiscard m then s.lookResult m { result := lrBADARG }
    else
      let ans := s.maintAddr op (bitsOf v 7 4) (lkey s m) (bitsOf v 13 8 + 1)
      let r := ans.1
      let s := ans.2
      s.lookResult m r
  else s

/-- ACLEAN (R300). -/
def execAclean (m : Master) (v : Word) (s : State) : Host.Outcome State Fault Refusal :=
  .next (s.byCore m 0x40007208 (opWord v 3 0 6) fun s => addrCmd .clean m v s)
/-- AINVAL (R300). -/
def execAinval (m : Master) (v : Word) (s : State) : Host.Outcome State Fault Refusal :=
  .next (s.byCore m 0x40007208 (opWord v 3 0 7) fun s => addrCmd .inval m v s)
/-- ACLEANINVAL (R300). -/
def execAcleaninval (m : Master) (v : Word) (s : State) : Host.Outcome State Fault Refusal :=
  .next (s.byCore m 0x40007208 (opWord v 3 0 8) fun s => addrCmd .cleanInval m v s)
/-- ADISCARD (R300). -/
def execAdiscard (m : Master) (v : Word) (s : State) : Host.Outcome State Fault Refusal :=
  .next (s.byCore m 0x40007208 (opWord v 3 0 9) fun s => addrCmd .discard m v s)

/-! ### Set-and-way commands: the word written to FIRN_SCMD names target, set, way, GEN and COUNT -/

/-- The tag a word of FIRN_SCMD or FIRN_WBDONE names. -/
def scmdKey (v : Word) : Nat := bitsOf v 13 5 * 8 + bitsOf v 16 14
def scmdSlot (v : Word) : Nat := bitsOf v 13 5 % 32
def scmdGen (v : Word) : BitVec 8 := BitVec.ofNat 8 (bitsOf v 24 17)
def scmdTgt (v : Word) : Bool := bitsOf v 4 4 == 1

/-- COMMIT (R297). A Cornice target is BADARG. -/
def firnCommitCmd (m : Master) (v : Word) (s : State) : State :=
  if bankTaken s m then
    if scmdTgt v then s.segResult m srBADARG 0
    else
      let ans := s.firnCommit (scmdKey v) (scmdGen v) (smask s m) (sfull s m)
      let r := ans.1
      let n := ans.2.1
      let s := ans.2.2
      s.segResult m r n
  else s

def execFirnCommit (m : Master) (v : Word) (s : State) : Host.Outcome State Fault Refusal :=
  .next (s.byCore m 0x40007240 (opWord v 3 0 1) fun s => firnCommitCmd m v s)

/-- FILL on a tag or a slot, by GEN (R298). -/
def State.firnFill (s : State) (tgt : Bool) (k j : Nat) (gen : BitVec 8) (mk : Mask) : Nat × Nat × State :=
  if tgt then
    let t := s.slot j
    if t.gen ≠ gen then (srSTALE, 0, s) else
    (srOK, popcount (mk &&& (match t.held with | some g => g.l | none => 0)), s.setSlot j (fillSlot t mk))
  else
    let t := s.tag k
    if t.gen ≠ gen then (srSTALE, 0, s) else
    (srOK, popcount (mk &&& (match t.held with | some g => g.l | none => 0)),
      s.setTag k { t with held := t.held.map fun g => fillSeg g mk })

/-- FILL (R298). -/
def fillCmd (m : Master) (v : Word) (s : State) : State :=
  if bankTaken s m then
    let ans := s.firnFill (scmdTgt v) (scmdKey v) (scmdSlot v) (scmdGen v) (smask s m)
    let r := ans.1
    let n := ans.2.1
    let s := ans.2.2
    s.segResult m r n
  else s

def execFill (m : Master) (v : Word) (s : State) : Host.Outcome State Fault Refusal :=
  .next (s.byCore m 0x40007240 (opWord v 3 0 2) fun s => fillCmd m v s)

/-- ABORT on a tag or a slot (R297, R298). -/
def State.firnAbort (s : State) (tgt : Bool) (k j : Nat) (gen : BitVec 8) (mk : Mask) (n : Nat) : Nat × Nat × State :=
  if tgt then
    let t := s.slot j
    if t.gen ≠ gen then (srSTALE, 0, s) else
    match t.held with
    | none => (srOK, 0, s)
    | some g => (srOK, popcount (mk &&& g.l),
        (s.setSlot j (slotSettle { t with held := some (unlockSeg g mk) })).dropReserved g.owner n)
  else
    let t := s.tag k
    if t.gen ≠ gen then (srSTALE, 0, s) else
    match t.held with
    | none => (srSTALE, 0, s)
    | some g => (srOK, popcount (mk &&& g.l),
        (s.setTag k { t with held := some { unlockSeg g mk with charge := dropCharges n mk g.charge } }).dropReserved g.owner n)

/-- ABORT (R297). COUNT above 64 is taken as 64 (R312). -/
def abortCmd (m : Master) (v : Word) (s : State) : State :=
  if bankTaken s m then
    let ans := s.firnAbort (scmdTgt v) (scmdKey v) (scmdSlot v) (scmdGen v) (smask s m) (Nat.min (bitsOf v 31 25) 64)
    let r := ans.1
    let n := ans.2.1
    let s := ans.2.2
    s.segResult m r n
  else s

def execFirnAbort (m : Master) (v : Word) (s : State) : Host.Outcome State Fault Refusal :=
  .next (s.byCore m 0x40007240 (opWord v 3 0 3) fun s => abortCmd m v s)

/-- UNPIN of a tag: a count of 0 stays (DEDUCED, log entry 22). -/
def State.unpinTag (s : State) (k : Nat) (gen : BitVec 8) : Nat × State :=
  let t := s.tag k
  if t.gen ≠ gen then (srSTALE, s) else
  match t.held with
  | none => (srSTALE, s)
  | some g => if g.pin = 0 then (srBADARG, s) else (srOK, s.setTag k { t with held := some { g with pin := g.pin - 1 } })

/-- UNPIN (R294). -/
def unpinCmd (m : Master) (v : Word) (s : State) : State :=
  if bankTaken s m then
    if scmdTgt v then s.segResult m srBADARG 0
    else
      let ans := s.unpinTag (scmdKey v) (scmdGen v)
      let r := ans.1
      let s := ans.2
      s.segResult m r 0
  else s

def execUnpin (m : Master) (v : Word) (s : State) : Host.Outcome State Fault Refusal :=
  .next (s.byCore m 0x40007240 (opWord v 3 0 4) fun s => unpinCmd m v s)

/-- A maintenance operation on a tag or slot by GEN (R300). -/
def maintCmd (op : Maint) (m : Master) (v : Word) (s : State) : State :=
  if bankTaken s m then
    if op = .discard ∧ ¬ mayDiscard m then s.segResult m srBADARG 0
    else if scmdTgt v then
      if (s.slot (scmdSlot v)).gen ≠ scmdGen v then s.segResult m srSTALE 0
      else (if op = .clean then s else s.releaseSlot (scmdSlot v)).segResult m srOK 0
    else if (s.tag (scmdKey v)).gen ≠ scmdGen v then s.segResult m srSTALE 0
    else
      let ans := s.maintTag op (scmdKey v) (~~~0)
      match ans.1 with
      | none => ans.2.segResult m srCLQFULL 0
      | some n => ans.2.segResult m srOK n
  else s

/-- CLEAN (R299). -/
def execClean (m : Master) (v : Word) (s : State) : Host.Outcome State Fault Refusal :=
  .next (s.byCore m 0x40007240 (opWord v 3 0 5) fun s => maintCmd .clean m v s)
/-- INVAL (R300). -/
def execInval (m : Master) (v : Word) (s : State) : Host.Outcome State Fault Refusal :=
  .next (s.byCore m 0x40007240 (opWord v 3 0 6) fun s => maintCmd .inval m v s)
/-- CLEANINVAL (R300). -/
def execCleaninval (m : Master) (v : Word) (s : State) : Host.Outcome State Fault Refusal :=
  .next (s.byCore m 0x40007240 (opWord v 3 0 7) fun s => maintCmd .cleanInval m v s)
/-- DISCARD (R300). -/
def execDiscard (m : Master) (v : Word) (s : State) : Host.Outcome State Fault Refusal :=
  .next (s.byCore m 0x40007240 (opWord v 3 0 8) fun s => maintCmd .discard m v s)

/-! ### The range engine (R301): the word written to FIRN_RG_CMD gives scope and party -/

/-- Start a pass; a command while one runs is ignored and sets RIGN. The visits up to the end of the pass, or to a
pause, take place at once (DESIGN CHOICE, log entry 23). -/
def rangeCmd (op : Nat) (m : Master) (v : Word) (s : State) : State :=
  if firnAwake s ∧ (m = .sec ∨ m = .mc) then
    if s.on F.FIRN_STAT_RBUSY then s.raiseBit F.FIRN_FLAG_RIGN
    else if bitsOf v 5 4 = 3 then s
    else
      let r : RangeOp := { op, scope := bitsOf v 5 4, party := bitsOf v 11 8, lba := s.get F.FIRN_RG_LO_LBA + s.get F.FIRN_RG_HI_LBA * 4294967296, cnt := s.get F.FIRN_RG_CNT_CNT }
      ((s.raiseBit F.FIRN_STAT_RBUSY).onFirn fun f => { f with range := some r }).runRange
  else s

/-- RANGE_CLEAN (R301). -/
def execRangeClean (m : Master) (v : Word) (s : State) : Host.Outcome State Fault Refusal :=
  .next (s.byCore m R.FIRN_RG_CMD (opWord v 2 0 1) fun s => rangeCmd 1 m v s)
/-- RANGE_INVAL (R301). -/
def execRangeInval (m : Master) (v : Word) (s : State) : Host.Outcome State Fault Refusal :=
  .next (s.byCore m R.FIRN_RG_CMD (opWord v 2 0 2) fun s => rangeCmd 2 m v s)
/-- RANGE_CLEANINVAL (R301). -/
def execRangeCleaninval (m : Master) (v : Word) (s : State) : Host.Outcome State Fault Refusal :=
  .next (s.byCore m R.FIRN_RG_CMD (opWord v 2 0 3) fun s => rangeCmd 3 m v s)
/-- RANGE_DISCARD (R301). -/
def execRangeDiscard (m : Master) (v : Word) (s : State) : Host.Outcome State Fault Refusal :=
  .next (s.byCore m R.FIRN_RG_CMD (opWord v 2 0 4) fun s => rangeCmd 4 m v s)

/-- RANGE_RESUME (R301): the clean queue has space again. -/
def execRangeResume (s : State) : Host.Outcome State Fault Refusal :=
  .next (if s.on F.FIRN_STAT_PAUSED ∧ s.firn.clq.length < 64 ∧ firnAwake s then s.runRange else s)

/-- RANGE_PASS_END (R301): every holder has been visited. -/
def rangePassEnd (s : State) : State :=
  match s.firn.range with
  | some r => if r.pos = 4144 then
      (((s.clr F.FIRN_STAT_RBUSY).raiseBit F.FIRN_FLAG_RDONE).put F.FIRN_RG_STAT_AFF r.aff).onFirn fun f =>
        { f with range := none }
    else s
  | none => s

def execRangePassEnd (s : State) : Host.Outcome State Fault Refusal := .next (rangePassEnd s)

/-! ### The clean queue (R299) -/

/-- The queue's consumer is a core only while HWORD = 0. -/
def clqByCore (s : State) : Bool := firnAwake s && !s.on F.ASC_CTL_HWORD

/-- CLQPOP (R299). -/
def execClqpop (s : State) : Host.Outcome State Fault Refusal :=
  .next (if clqByCore s then s.onFirn fun f => { f with clq := f.clq.drop 1 } else s)

/-- WBDONE (R299): the word written to FIRN_WBDONE, with the mask in FIRN_WBM. -/
def wbdoneCmd (v : Word) (s : State) : State :=
  if clqByCore s then
    s.wbDone (bitsOf v 9 1 * 8 + bitsOf v 12 10) (BitVec.ofNat 8 (bitsOf v 20 13))
      (mask64 (s.get F.FIRN_WBM_LO_MASK) (s.get F.FIRN_WBM_HI_MASK)) (bitsOf v 0 0 == 1)
  else s

def execWbdone (v : Word) (s : State) : Host.Outcome State Fault Refusal := .next (wbdoneCmd v s)

/-! ### The metadata channel (R309) -/

def State.metaEnt (s : State) (k : Nat) : MetaEnt := tabGet s.firn.metas {} k
def State.setMeta (s : State) (k : Nat) (e : MetaEnt) : State :=
  s.onFirn fun f => { f with metas := tabPut f.metas {} k e }

/-- Make an entry the most recently used. -/
def State.touchMeta (s : State) (k : Nat) : State :=
  (s.setMeta k { s.metaEnt k with used := s.firn.clock + 1 }).onFirn fun f => { f with clock := f.clock + 1 }

/-- Write a metadata result; an entry shows its bits. -/
def State.metaResult (s : State) (m : Master) (result : Nat) (k : Option Nat) : State :=
  let s := (s.wr (R.FIRN_MRES m) 0).put (F.FIRN_MRES_RESULT m) result
  match k with
  | none => s.openFlds [F.FIRN_MRES_ENTRY m, F.FIRN_MRES_DIRTY m, F.FIRN_MRES_LOCKED m, F.FIRN_MRES_VALID m]
  | some k =>
    let e := s.metaEnt k
    (((s.put (F.FIRN_MRES_ENTRY m) k).putB (F.FIRN_MRES_DIRTY m) e.dirty).putB (F.FIRN_MRES_LOCKED m) e.locked).putB
      (F.FIRN_MRES_VALID m) e.valid

/-- The key in a bank's FIRN_MKEY. -/
def mkey (s : State) (m : Master) : Nat := s.get (F.FIRN_MKEY_LO_KEY m) + s.get (F.FIRN_MKEY_HI_KEY m) * 4294967296

/-- The entry bound to a key. -/
def findMeta (s : State) (key : Nat) : Option Nat :=
  (List.range 48).find? fun k => (s.metaEnt k).valid && (s.metaEnt k).key == key

/-- META_LOOKUP (R309). -/
def metaLookup (m : Master) (s : State) : State :=
  if bankTaken s m then match findMeta s (mkey s m) with
    | some k => (s.touchMeta k).metaResult m 0 (some k)
    | none => s.metaResult m 1 none
  else s

def execMetaLookup (m : Master) (s : State) : Host.Outcome State Fault Refusal :=
  .next (s.byCore m 0x40007268 1 fun s => metaLookup m s)

/-- The entry an ALLOC takes: an invalid one, or the least recently used that is neither dirty nor locked. -/
def takeMeta (s : State) : Option Nat :=
  match (List.range 48).find? fun k => !(s.metaEnt k).valid with
  | some k => some k
  | none =>
    ((List.range 48).filter fun k => !(s.metaEnt k).dirty && !(s.metaEnt k).locked).foldl (fun (b : Option Nat) k =>
      match b with
      | some j => if (s.metaEnt k).used < (s.metaEnt j).used then some k else b
      | none => some k) none

/-- META_ALLOC (R309). -/
def metaAlloc (m : Master) (s : State) : State :=
  if bankTaken s m then match findMeta s (mkey s m) with
    | some k => (s.touchMeta k).metaResult m 0 (some k)
    | none => match takeMeta s with
      | some k => ((s.setMeta k { key := mkey s m, valid := true }).touchMeta k).metaResult m 2 (some k)
      | none => s.metaResult m 3 none
  else s

def execMetaAlloc (m : Master) (s : State) : Host.Outcome State Fault Refusal :=
  .next (s.byCore m 0x40007268 2 fun s => metaAlloc m s)

/-- A command on an entry by number: 48 and above are BADENTRY. -/
def metaEntCmd (m : Master) (k : Nat) (ok : MetaEnt → Bool) (f : MetaEnt → MetaEnt) (s : State) : State :=
  if bankTaken s m then
    if k ≥ 48 then s.metaResult m 5 none
    else if ok (s.metaEnt k) then (s.setMeta k (f (s.metaEnt k))).metaResult m 4 (some k)
    else s.metaResult m 6 (some k)
  else s

/-- META_DIRTY (R309). -/
def execMetaDirty (m : Master) (k : BitVec 6) (s : State) : Host.Outcome State Fault Refusal :=
  .next (s.byCore m 0x40007268 (BitVec.ofNat 32 (256 * k.toNat + 3)) fun s => metaEntCmd m k.toNat (fun _ => true) (fun e => { e with dirty := true }) s)
/-- META_CLEAN (R309). -/
def execMetaClean (m : Master) (k : BitVec 6) (s : State) : Host.Outcome State Fault Refusal :=
  .next (s.byCore m 0x40007268 (BitVec.ofNat 32 (256 * k.toNat + 4)) fun s => metaEntCmd m k.toNat (fun _ => true) (fun e => { e with dirty := false }) s)
/-- META_INVAL (R309): refused for a dirty or locked entry. -/
def execMetaInval (m : Master) (k : BitVec 6) (s : State) : Host.Outcome State Fault Refusal :=
  .next (s.byCore m 0x40007268 (BitVec.ofNat 32 (256 * k.toNat + 5)) fun s => metaEntCmd m k.toNat (fun e => !e.dirty && !e.locked) (fun e => { e with valid := false }) s)
/-- META_LOCK (R309). -/
def execMetaLock (m : Master) (k : BitVec 6) (s : State) : Host.Outcome State Fault Refusal :=
  .next (s.byCore m 0x40007268 (BitVec.ofNat 32 (256 * k.toNat + 6)) fun s => metaEntCmd m k.toNat (fun _ => true) (fun e => { e with locked := true }) s)
/-- META_UNLOCK (R309). -/
def execMetaUnlock (m : Master) (k : BitVec 6) (s : State) : Host.Outcome State Fault Refusal :=
  .next (s.byCore m 0x40007268 (BitVec.ofNat 32 (256 * k.toNat + 7)) fun s => metaEntCmd m k.toNat (fun _ => true) (fun e => { e with locked := false }) s)

/-! ### Cornice (R304 to R307): the word written to FIRN_CCMD gives slot and party -/

/-- The state codes of FIRN_CRES.STATE. -/
def corCode : CorSt → Nat
  | .free => 0
  | .held => 1
  | .releasing => 2
  | .cancelling => 3
  | .scrubbing => 4

/-- Write a Cornice result. -/
def State.corResult (s : State) (m : Master) (result : Nat) (j : Option Nat) : State :=
  let s := (s.wr (R.FIRN_CRES m) 0).put (F.FIRN_CRES_RESULT m) result
  match j with
  | none => s.openFlds [F.FIRN_CRES_SLOT m, F.FIRN_CRES_STATE m, F.FIRN_CRES_GEN m, F.FIRN_CFRAME_FRAME m]
  | some j =>
    let t := s.slot j
    (((s.put (F.FIRN_CRES_SLOT m) j).put (F.FIRN_CRES_STATE m) (corCode t.st)).put (F.FIRN_CRES_GEN m) t.gen.toNat).put
      (F.FIRN_CFRAME_FRAME m) (frameAddr t.frame)

/-- CORNICE_ALLOC (R304): the LBA from FIRN_LKEY, the fill mask from FIRN_SMASK. -/
def corniceAlloc (m : Master) (v : Word) (s : State) : State :=
  if bankTaken s m then
    let ans := s.cAlloc (bitsOf v 11 8) (lkey s m / 64) (smask s m)
    let r := ans.1
    let j := ans.2.1
    let s := ans.2.2
    s.corResult m r j
  else s

def execCorniceAlloc (m : Master) (v : Word) (s : State) : Host.Outcome State Fault Refusal :=
  .next (s.byCore m 0x40007270 (opWord v 1 0 1) fun s => corniceAlloc m v s)

/-- The slot lies in the party's mask. -/
def slotOwned (s : State) (v : Word) : Bool := (s.get (F.FIRN_CMASK_SLOTS (bitsOf v 11 8))).testBit (bitsOf v 6 2)

/-- CORNICE_RELEASE (R306). -/
def corniceRelease (m : Master) (v : Word) (s : State) : State :=
  if bankTaken s m then
    if slotOwned s v then (s.releaseSlot (bitsOf v 6 2)).corResult m 0 (some (bitsOf v 6 2)) else s.corResult m 3 none
  else s

def execCorniceRelease (m : Master) (v : Word) (s : State) : Host.Outcome State Fault Refusal :=
  .next (s.byCore m 0x40007270 (opWord v 1 0 2) fun s => corniceRelease m v s)

/-- CORNICE_STATUS (R312). -/
def corniceStatus (m : Master) (v : Word) (s : State) : State :=
  if bankTaken s m then
    if slotOwned s v then s.corResult m 0 (some (bitsOf v 6 2)) else s.corResult m 3 none
  else s

def execCorniceStatus (m : Master) (v : Word) (s : State) : Host.Outcome State Fault Refusal :=
  .next (s.byCore m 0x40007270 (opWord v 1 0 3) fun s => corniceStatus m v s)

/-- CORNICE_SCRUB_DONE (R307): the frame of a SCRUBBING slot is zeroed. -/
def corniceScrubDone (j : Nat) (s : State) : State :=
  let t := s.slot j
  match t.held with
  | some g => if t.st = .scrubbing then
      let s := s.bufZero (frameAddr t.frame) 0x40000
      let s := (s.inc F.FIRN_CNT2_CANCEL_CNT).raiseBit F.FIRN_FLAG_CANCEL
      let s := s.event 0x0503 g.owner (leBytes 1 g.owner ++ leBytes 1 j ++ leBytes 1 t.filled ++ leBytes 1 t.locked ++
        zeros 4 ++ leBytes 8 (g.seg * 64) ++ leBytes 8 t.cancelAt.toNat)
      s.setSlot j { t with st := .free, held := none }
    else s
  | none => s

def execCorniceScrubDone (j : BitVec 5) (s : State) : Host.Outcome State Fault Refusal :=
  .next (corniceScrubDone j.toNat s)

/-- PREFETCH_REL (R306): the slot in ARG[4:0] releases what it holds. -/
def State.prefetchRel (s : State) (arg : Nat) : State := s.releaseSlot (arg % 32)

/-! ### The partition (R292) -/

/-- Party p's segments lie in a column that a new value of FIRN_PART[p] takes away. -/
def partTakes (s : State) (p : Nat) (v : Word) : Bool :=
  s.firn.tags.any fun c => match c.2.held with
    | some g => g.owner == p && ownsWay s p (c.1 / 8) (c.1 % 8) &&
        !((bitsOf v 7 0).testBit (c.1 % 8) && (bitsOf v 9 8).testBit (c.1 / 8 / 256))
    | none => false

/-- Party p's Cornice slots that a new value of FIRN_CMASK[p] takes away hold a segment. -/
def cmaskTakes (s : State) (p : Nat) (v : Word) : Bool :=
  (List.range 32).any fun j => (s.get (F.FIRN_CMASK_SLOTS p)).testBit j && !v.toNat.testBit j &&
    (match (s.slot j).held with | some g => g.owner == p | none => false)

/-- PARTITION_WRITE (R292): SEC writes FIRN_PART[p] or FIRN_CMASK[p]. -/
def partitionWrite (m : Master) (cmask : Bool) (p : Nat) (v : Word) (s : State) : State :=
  if m ≠ .sec ∨ ¬ firnAwake s ∨ s.on F.FIRN_STAT_PLOCKED then s
  else if cmask then
    if cmaskTakes s p v then s.raiseBit F.FIRN_FLAG_PREFUSE else s.wr (R.FIRN_CMASK p) v
  else if partTakes s p v then s.raiseBit F.FIRN_FLAG_PREFUSE
  else s.wr (R.FIRN_PART p) (BitVec.ofNat 32 (bitsOf v 9 0))

def execPartitionWrite (m : Master) (cmask : Bool) (p : BitVec 4) (v : Word) (s : State) : Host.Outcome State Fault Refusal :=
  .next (s.byCore m ((if cmask then 0x40007140 else 0x40007100) + 4 * p.toNat) v fun s => partitionWrite m cmask p.toNat v s)

/-- The pairs of parties. -/
def partyPairs : List (Nat × Nat) :=
  (List.range 16).flatMap fun p => ((List.range 16).filter fun q => p < q).map fun q => (p, q)

/-- Two parties share a column. -/
def columnsMeet (s : State) (p q : Nat) : Bool :=
  (s.get (F.FIRN_PART_WAYS p) &&& s.get (F.FIRN_PART_WAYS q)) != 0 &&
    (s.get (F.FIRN_PART_HALF p) &&& s.get (F.FIRN_PART_HALF q)) != 0

/-- What PLOCK finds wrong: 0 nothing, 1 columns, 2 Cornice masks, 3 quotas (FIRN_STAT.PRES). -/
def plockCheck (s : State) : Nat :=
  if partyPairs.any fun x => columnsMeet s x.1 x.2 then 1
  else if partyPairs.any fun x => (s.get (F.FIRN_CMASK_SLOTS x.1) &&& s.get (F.FIRN_CMASK_SLOTS x.2)) != 0 then 2
  else if ((List.range 16).map fun p => s.get (F.FIRN_DQ_DQUOTA p)).sum > s.get F.FIRN_DTOTAL_DTOTAL then 3
  else 0

/-- Write PLOCK (R292). -/
def State.plock (s : State) : State :=
  let r := plockCheck s
  let s := s.put F.FIRN_STAT_PRES r
  if r = 0 then (s.raiseBit F.FIRN_STAT_PLOCKED).raiseBit F.FIRN_CTL_PLOCK else s

/-- PARTITION_LOCK (R292): FIRN_CTL takes writes from SEC and MC (R313). -/
def partitionLock (m : Master) (s : State) : State :=
  if firnAwake s ∧ (m = .sec ∨ m = .mc) ∧ ¬ s.on F.FIRN_STAT_PLOCKED then s.plock else s

def execPartitionLock (m : Master) (s : State) : Host.Outcome State Fault Refusal :=
  .next (s.byCore m 0x40007000 (s.rd 0x40007000 ||| 0x10000) fun s => partitionLock m s)

end Sys2Proof.Machine
end

