-- ==== Sys2Proof/Machine/Ecc.lean ====
section
/-! DEFINITION. The ECC engine of the SST: which requests wait for it, and which it takes next (R115, R148, R447). -/

namespace Sys2Proof.Machine

open Sys2Proof

/-- The signature that the recorder asks for next: a boot record's before a seal's or a late signature's, and of each kind the
oldest (R148). -/
def nextSigning (l : List Signing) : Option Signing :=
  match l.find? fun (g : Signing) => g.sig.isNone && g.boot with
  | some g => some g
  | none => l.find? fun (g : Signing) => g.sig.isNone

/-- The requests that wait for the engine, first the one it serves first (R115). The ROM asks for the header check when it boots
a slot and for DEVID once it has read the headers, for ALIAS once SEC2 has passed, and for neither derivation while
DRK_USELOCK = 1 (R117). The recorder signs with DEVID. The certificate comes after the records that wait (DEDUCED, log entry
108). -/
def eccWants (s : State) : List EccOp :=
  (if ¬ s.sst.hdr.isEmpty ∧ s.get F.SST_STAT_HDRSIG = 0 ∧ ¬ s.on F.SST_STAT_RECOVERY then [.header] else []) ++
  (if s.sst.chosen ∧ ¬ s.sst.devid ∧ ¬ s.on F.SST_KLOCK_DRK_USELOCK then [.devid] else []) ++
  (if s.on F.SST_STAT_SEC2OK ∧ s.sst.devid ∧ ¬ s.sst.alias_ ∧ ¬ s.on F.SST_KLOCK_DRK_USELOCK then [.alias_] else []) ++
  (if s.sst.devid then (match nextSigning s.mor.signing with
    | some g => [.record g.seq]
    | none => []) else []) ++
  (if s.sst.handed ∧ ¬ s.on F.MGT_STAT_ACRDY then [.cert] else []) ++
  (if s.sst.signing.isSome then [.scmd] else [])

/-- A free engine takes the first request that waits; one that has started runs to its end. -/
def State.eccKick (s : State) : State :=
  if s.sst.ecc.isSome then s
  else match eccWants s with
    | [] => s
    | op :: _ => { s with sst := { s.sst with ecc := some op } }

/-- The engine has come to the end of a request. -/
def State.eccFree (s : State) : State := { s with sst := { s.sst with ecc := none, eccOld := false } }

/-- What the engine computes for the slot booted so far is no longer wanted. -/
def State.eccDrop (s : State) : State :=
  { s with sst := { s.sst with eccOld := s.sst.ecc == some .header || s.sst.ecc == some .alias_ } }

end Sys2Proof.Machine
end

