-- ==== Sys2Proof/Machine/Clocks.lean ====
section
/-! DEFINITION. The clock domains of Table 4.3: which of them run in the present mode (R88, R89). -/

namespace Sys2Proof.Machine

open Sys2Proof

/-- A bank of the Store die. -/
def State.bank (s : State) (b : Nat) : Bank := tabGet s.sto.banks {} b

/-- A PCIe function and its port. -/
def State.port (s : State) (q : Nat) : Port := tabGet s.ports {} q

/-- One x2 port (R59, Table 3.8). -/
def x2 (s : State) : Bool := s.on F.PMX_STRAP_PCIE_X2

/-- The Logic die's DORMANT domains are gated: DORMANT holds, its exit has not begun, and no channel keeps them running after an
exit that failed (Tables 4.3, 4.6 and 4.8). -/
def asleep (s : State) : Bool :=
  s.mode == mDORMANT && !s.pcm.regate && (match s.pcm.pend with
    | some p => p.step != .wake
    | none => true)

/-- A Store die bank programs or erases, for whichever master. -/
def storeBusy (s : State) : Bool := (List.range 16).any fun b => (s.bank b).prog.isSome || (s.bank b).erase.isSome || (s.bank b).infoErase

/-- A port's clock domain follows its link (Table 4.3): with PCIE_X2 port B's lane follows port A's link. -/
def portRuns (s : State) (q : Nat) : Bool :=
  let p := s.port (if x2 s then 0 else q)
  p.dl && !p.l1 && s.mode != mRETREAT

/-- Domain d of Table 4.3 runs. -/
def domainRuns (s : State) (d : Nat) : Bool :=
  let m := s.mode
  let released := fun (b : Nat) => m != mTHAW || s.bit F.SST_RUN_RUN b
  if m = mOFF then false
  else match d with
    | 3 => released 0 && m != mRETREAT
    | 4 => released 1 && m != mRETREAT
    | 5 => released 2
    | 6 => released 3 && !asleep s && !(m == mRETREAT && s.mor.retreatDone)
    | 8 => m == mFLOW
    | 9 => m == mFLOW
    | 10 => m == mFLOW
    | 11 => released 4 && !asleep s && !(m == mRETREAT && s.mor.retreatDone)
    | 12 => !asleep s
    | 13 => !asleep s
    | 14 => !asleep s || storeBusy s
    | 15 => portRuns s 0
    | 16 => portRuns s 1
    | 17 => m != mRETREAT
    | 18 => !asleep s
    | 19 => !asleep s
    | 20 => m != mRETREAT
    | 23 => !asleep s
    | _ => true

end Sys2Proof.Machine
end

