-- ==== Sys2Proof/Machine/StoBase.lean ====
section
/-! DEFINITION. The Store die's banks and info rows: the parts of the controller that the recorder uses too
(R173, R181 to R183). -/

namespace Sys2Proof.Machine

open Sys2Proof

/-- A requester in SRC encoding (Table 6.2, STO_ERR.MASTER). -/
def reqSrc : Req → Nat
  | .core m => 0x10 + m.idx
  | .dma _ => 0x0C
  | .recorder => 0x00
  | .loader => 0x01

/-- A requester's number in the controller's tables. -/
def reqNum : Req → Nat
  | .core m => m.idx
  | .dma c => 16 + c
  | .recorder => 8
  | .loader => 9

/-- The bank of an array address. -/
def bankOf (a : Nat) : Nat := a / 0x1000000 % 16

/-- The absolute sector of an array address. -/
def sectorOf (a : Nat) : Nat := a / 0x10000 % 4096

/-- The array address of an absolute sector. -/
def sectorAddr (n : Nat) : Nat := 0x20000000 + n * 0x10000

def State.setBank (s : State) (b : Nat) (k : Bank) : State :=
  { s with sto := { s.sto with banks := tabPut s.sto.banks {} b k } }

/-- Bytes of an info row (row 16 is the defect info sector). -/
def State.infoBytes (s : State) (row off n : Nat) : List Byte := Sparse.readList erased s.sto.info (row * 0x10000 + off) n

def State.infoWrite (s : State) (row off : Nat) (bs : List Byte) : State :=
  { s with sto := { s.sto with info := Sparse.writeList erased s.sto.info (row * 0x10000 + off) bs } }

/-- An info-row entry whose CRC is good (Table 7.6). -/
def infoGood (e : List Byte) : Bool := decide (leNat (slice e 12 4) = crc32c (slice e 0 12))

/-- The first unwritten entry of an info row, from entry k on. -/
def infoFree (s : State) (b : Nat) : Nat → Nat → Nat
  | 0, k => k
  | n + 1, k => if (s.infoBytes b (16 * k) 16).all (· == 0xFF) then k else infoFree s b n (k + 1)

/-- The last good entry of an info row below entry k. -/
def infoLast (s : State) (b : Nat) : Nat → Option (List Byte)
  | 0 => none
  | k + 1 => if k = 0 then none
    else if infoGood (s.infoBytes b (16 * k) 16) then some (s.infoBytes b (16 * k) 16) else infoLast s b k

/-- The header of an info row (Table 7.6). -/
def infoHeader : List Byte :=
  let h := leBytes 4 0x52524F49 ++ zeros 8
  h ++ leBytes 4 (crc32c h)

/-- Erase an info row and write a new header (R183). -/
def State.infoErase (s : State) (b : Nat) : State :=
  let s := { s with sto := { s.sto with info := Sparse.keep (fun k => k / 0x10000 != b) s.sto.info } }
  s.infoWrite b 0 infoHeader

/-- Append an entry to an info row: type, master, sector, OPSEQ. -/
def State.infoAppend (s : State) (b type master sector opseq : Nat) : State :=
  let e := leBytes 1 type ++ leBytes 1 master ++ leBytes 2 sector ++ leBytes 4 opseq ++ zeros 4
  s.infoWrite b (16 * infoFree s b 4095 1) (e ++ leBytes 4 (crc32c e))

/-- Start an erase: a START entry, unless the INCOMPLETE sector's own START stands for it (R173, R183). -/
def State.startErase (s : State) (b : Nat) (op : EraseOp) : State :=
  let k := s.bank b
  let k' := { k with erase := some op, susp := false, resumeDue := false }
  if k.inc = some op.sector then s.setBank b k'
  else
    let s := if infoFree s b 4095 1 > 4094 then s.infoErase b else s
    (s.infoAppend b 1 (reqSrc op.req) op.sector (k.opseq + 1)).setBank b { k' with opseq := k.opseq + 1 }

/-- End an erase: an END entry with the result; the sector is INCOMPLETE no longer (R173, R181). -/
def State.endErase (s : State) (b : Nat) (ok : Bool) : State :=
  let k := s.bank b
  match k.erase with
  | none => s
  | some op =>
    let s := s.infoAppend b (if ok then 2 else 3) (reqSrc op.req) op.sector k.opseq
    let s := s.setBank b { k with
      erase := none, susp := false, resumeDue := false
      inc := if k.inc = some op.sector then none else k.inc
      efail := k.efail || !ok }
    s.setIn F.STO_DONE_BANK b

/-- The bank runs no program and no unsuspended erase: bit RDY (Table 7.2, R183). -/
def Bank.ready (k : Bank) : Bool := k.prog.isNone && (k.erase.isNone || k.susp) && !k.infoErase

/-- The status byte of a bank (Table 7.2). -/
def Bank.status (k : Bank) : Nat :=
  (if k.ready then 1 else 0) + (if k.susp then 2 else 0) + (if k.inc.isSome then 4 else 0) +
    (if k.refuse then 8 else 0) + (if k.pfail then 16 else 0) + (if k.efail then 32 else 0)

/-- The status word of a bank (R175). -/
def statusWord (b : Nat) (k : Bank) : Nat := k.status + 256 * (255 - k.status) + 65536 * b

/-- STO_BSTAT of a bank (Table 7.11). -/
def bstatWord (s : State) (b : Nat) : Nat :=
  let k := s.bank b
  let sect := match k.erase with
    | some e => e.sector
    | none => k.inc.getD 0
  (if k.ready then 1 else 0) + (if k.prog.isSome then 2 else 0) +
    (if (k.erase.isSome && !k.susp) || k.infoErase then 4 else 0) + (if k.susp then 8 else 0) +
    (if k.inc.isSome then 16 else 0) + (if s.bit F.STO_BPDS_DOWN b then 32 else 0) +
    (if k.efail || k.pfail then 64 else 0) + 256 * sect

/-- An access wakes a powered-down bank (R189). -/
def State.wakeBank (s : State) (b : Nat) : State := s.clrIn F.STO_BPDS_DOWN b

end Sys2Proof.Machine
end

