-- ==== Sys2Proof/Machine/MorOps.lean ====
section
/-! DEFINITION. The Moraine recorder: where slots lie, how events are staged, how records are formed and chained, and
when a seal is enqueued, how slots are classified, and what the recorder has the Store die do (R139 to R163). -/

namespace Sys2Proof.Machine

open Sys2Proof

/-- The base of Moraine sector m in the Store die array (Table 7.7). -/
def morSectorBase (m : Nat) : Nat :=
  if m < 32 then 0x22000000 + m * 0x10000
  else if m % 2 = 0 then 0x22200000 + (m - 32) / 2 * 0x10000
  else 0x23000000 + (m - 33) / 2 * 0x10000

/-- The address of slot n (R139). -/
def morSlotAddr (n : Nat) : Nat := morSectorBase (n / 128) + 512 * (n % 128)

/-- The Moraine sector that holds an array address, if one does. -/
def morSectorOf (a : Nat) : Option Nat :=
  if 0x22000000 ≤ a ∧ a < 0x22200000 then some ((a - 0x22000000) / 0x10000)
  else if 0x22200000 ≤ a ∧ a < 0x22300000 then some (32 + (a - 0x22200000) / 0x10000 * 2)
  else if 0x23000000 ≤ a ∧ a < 0x23100000 then some (33 + (a - 0x23000000) / 0x10000 * 2)
  else none

/-- The slot that holds an array address. -/
def morSlotOf (a : Nat) : Option Nat := (morSectorOf a).map fun m => m * 128 + a % 0x10000 / 512

/-- Slot order: 4096 follows 8191 (R141). -/
def morNextSlot (n : Nat) : Nat := if n ≥ 8191 then 4096 else n + 1

/-- The Drift sector after a Drift sector. -/
def morNextDrift (m : Nat) : Nat := if m ≥ 63 then 32 else m + 1

/-- The first slot of the sector after the one that holds a slot (R157). -/
def morNextSectorSlot (n : Nat) : Nat := if n / 128 ≥ 63 then 4096 else (n / 128 + 1) * 128

/-- Codes whose records are signed (R148). -/
def morSigned (code : Nat) : Bool := code / 256 == 1 || code == 0x0901 || code == 0x0903

/-- An event as it enters the FIFO: TS and ATBST are those of this cycle (R146). -/
def State.stamp (s : State) (e : Event) (sealTrig : Option Nat := none) : Staged :=
  { ev := e, ts := s.atb.count, atbst := s.get F.ATB_STAT_STATE, boot := s.get F.MOR_BOOT_BOOT, sealTrig }

/-- The payload of a 0x0902 record from the pending losses (Table 6.5). -/
def lossPayload (m : MorState) : List Byte :=
  leBytes 4 m.pendLoss ++ leBytes 8 m.lossFirst.toNat ++ leBytes 8 m.lossLast.toNat ++
    m.lossClass.flatMap (fun n => leBytes 2 (Nat.min n 65535)) ++ zeros 2

/-- The payload an event is formed with: a seal names its batch and a 0x0902 its losses at that moment. -/
def formPayload (m : MorState) (st : Staged) : List Byte :=
  match st.sealTrig with
  | some t => leBytes 8 m.batchFirst.toNat ++ leBytes 4 m.batchCount ++ leBytes 1 t ++ zeros 3
  | none => if st.ev.code = 0x0902 then lossPayload m else st.ev.payload

/-- The body of a record, bytes 0x000 to 0x18F (Table 6.1). -/
def recordBody (m : MorState) (st : Staged) : List Byte :=
  let p := formPayload m st
  let flags := (if morSigned st.ev.code then 1 else 0) + (if st.ev.code = 0x0901 then 2 else 0) +
    4 * (st.atbst % 4) + (if st.ev.fwsrc then 16 else 0)
  let b := leBytes 4 0x4D4F524E ++ leBytes 2 st.ev.code ++ leBytes 2 flags ++ leBytes 8 m.nseq.toNat ++
    leBytes 8 st.ts.toNat ++ leBytes 4 st.boot ++ leBytes 1 st.ev.party ++ leBytes 1 st.ev.src ++
    leBytes 2 p.length ++ slice p 0 316 ++ slice m.prev 0 48
  b ++ leBytes 4 (crc32c b)

/-- What the recorder signs: the digest of a record, with the slot that holds it once phase 1 is done. -/
def signingOf (seq code : Nat) (digest : List Byte) (slot : Option Nat) : Signing :=
  { seq, digest, slot, sig := none, boot := code / 256 == 1 }

/-- Form the record of one staged event: SEQ, PREV and D are fixed and never change again (R147, R150). -/
def formRecord (m : MorState) (e : FifoEntry) : FifoEntry × MorState :=
  match e.formed with
  | some _ => (e, m)
  | none =>
    let body := recordBody m e.ev
    let d := sha384 body
    let sg := morSigned e.ev.ev.code
    let f : Formed := { seq := m.nseq.toNat, signed := sg, body, digest := d }
    let m1 := { m with
      nseq := m.nseq + 1
      prev := d
      batchFirst := if m.batchCount = 0 then m.nseq else m.batchFirst
      batchCount := if sg then 0 else m.batchCount + 1
      signing := if sg then m.signing ++ [signingOf f.seq e.ev.ev.code d none] else m.signing
      retreatSeal := if e.ev.sealTrig = some 5 then some f.seq else m.retreatSeal }
    let m2 := if e.ev.ev.code = 0x0902 then
        { m1 with pendLoss := 0, lossClass := List.replicate 9 0 } else m1
    ({ e with formed := some f }, m2)

/-- Form the first n entries of the FIFO. -/
def formFirst : Nat → List FifoEntry → MorState → List FifoEntry × MorState
  | 0, l, m => (l, m)
  | _, [], m => ([], m)
  | n + 1, e :: l, m =>
    let ans := formRecord m e
    let e := ans.1
    let m := ans.2
    let ans := formFirst n l m
    let l := ans.1
    let m := ans.2
    (e :: l, m)

/-- Form the first n entries in place; signatures that they need are asked for. -/
def State.formPrefix (s : State) (n : Nat) : State :=
  let ans := formFirst n s.mor.fifo s.mor
  let l := ans.1
  let m := ans.2
  ({ s with mor := { m with fifo := l } } : State).eccKick

/-- How many entries stand at the front of the FIFO up to and including its last signed one. -/
def lastSigned : List FifoEntry → Nat
  | [] => 0
  | e :: l => match lastSigned l with
    | 0 => if morSigned e.ev.ev.code then 1 else 0
    | n + 1 => n + 2

/-- Put a staged event at the end of the FIFO. A signed one forms everything up to itself, once the tail search has
completed (R147). -/
def State.pushFifo (s : State) (st : Staged) : State :=
  let s := { s with mor := { s.mor with fifo := s.mor.fifo ++ [({ ev := st } : FifoEntry)] } }
  let s := s.put F.MOR_CNT_FIFO_PEAK (Nat.max (s.get F.MOR_CNT_FIFO_PEAK) s.mor.fifo.length)
  if morSigned st.ev.code && s.on F.MOR_STAT_READY then s.formPrefix s.mor.fifo.length else s

/-- A 0x0902 event of the recorder, whose payload is set when it is formed. -/
def lossEvent : Event := { code := 0x0902, party := 0xFF, src := 0, payload := [] }

/-- Pending losses call for a 0x0902: some are pending and no unformed 0x0902 is staged (R155). -/
def lossDue (m : MorState) : Bool :=
  decide (m.pendLoss ≠ 0) && !(m.fifo.any fun e => e.formed.isNone && e.ev.ev.code == 0x0902)

/-- The batch that a seal entering the FIFO now would close holds a record: formed since the last signed one, or staged behind
the last signed one (R150). -/
def batchOpen (m : MorState) : Bool :=
  (m.fifo.filter fun e => e.formed.isNone).foldl (fun _ e => !morSigned e.ev.ev.code) (decide (m.batchCount ≠ 0))

/-- Free entries take a pending 0x0902 first and then the recorder's own waiting events (R154, R155), which are stamped as they
enter (R146). A seal of an empty batch is dropped (R150). -/
def State.refill : Nat → State → State
  | 0, s => s
  | n + 1, s =>
    if s.mor.fifo.length ≥ 64 then s
    else if lossDue s.mor then State.refill n (s.pushFifo (s.stamp lossEvent))
    else match s.mor.own with
      | [] => s
      | (e, trig) :: rest =>
        let s := { s with mor := { s.mor with own := rest } }
        State.refill n (if trig.isSome && !batchOpen s.mor then s else s.pushFifo (s.stamp e trig))

/-- The recorder enqueues an event of its own: it is never lost (R154). -/
def State.ownEvent (s : State) (code : Nat) (payload : List Byte) (sealTrig : Option Nat := none) : State :=
  State.refill 64 { s with mor := { s.mor with own := s.mor.own ++ [({ code, party := 0xFF, src := 0, payload }, sealTrig)] } }

/-- Enqueue a seal with its trigger; an empty batch produces none (R150). -/
def State.sealBatch (s : State) (trigger : Nat) : State := s.ownEvent 0x0901 [] (some trigger)

/-- An event is lost: it counts in MOR_LOST and in a pending or new 0x0902 (R155). -/
def State.loseEvent (s : State) (code : Nat) : State :=
  let m := s.mor
  let cls := code / 256
  let m := { m with
    lost := m.lost + 1
    lossFirst := if m.pendLoss = 0 then s.atb.count else m.lossFirst
    lossLast := s.atb.count
    pendLoss := m.pendLoss + 1
    lossClass := m.lossClass.mapIdx fun i n => if i + 1 = cls then n + 1 else n }
  State.refill 1 (({ s with mor := m } : State).raiseBit F.MOR_STAT_LOSTEV)

/-- The FIFO has an entry that an event of a source may use (R154). -/
def fifoRoom (m : MorState) (src : Nat) : Bool :=
  decide (m.fifo.length < if src ≤ 1 then 64 else 56)

/-- The seal that follows directly after a mode transition record (R150): after THAW exit and DORMANT entry. A transition from THAW
to DORMANT is both, and its seal carries TRIGGER 3 (DESIGN CHOICE, log entry 111). -/
def State.sealAfter (s : State) (e : Event) : State :=
  if e.code = 0x0201 then
    let src := (e.payload.getD 0 0).toNat
    let dst := (e.payload.getD 1 0).toNat
    if src = mTHAW ∧ (dst = mDRIFT ∨ dst = mDORMANT) then s.sealBatch 3
    else if dst = mDORMANT then s.sealBatch 4
    else s
  else s

/-- Take an event into the FIFO or lose it. -/
def State.takeEvent (s : State) (e : Event) : State :=
  if fifoRoom s.mor e.src then (s.pushFifo (s.stamp e)).sealAfter e else s.loseEvent e.code

/-! ### Slots (Table 6.3) -/

/-- The classes of Table 6.3. -/
inductive SlotClass where
  | erased | torn | valid | pending | sigtorn
  deriving DecidableEq, Repr

/-- Classify a slot by its 512 bytes (R144). -/
def slotClass (b : List Byte) : SlotClass :=
  let sigPart := slice b 0x190 112
  let sg := (leNat (slice b 6 2)) % 2
  if b.all (· == 0xFF) then .erased
  else if leNat (slice b 0 4) ≠ 0x4D4F524E ∨ leNat (slice b 0x18C 4) ≠ crc32c (slice b 0 0x18C) then .torn
  else if sg = 0 ∧ sigPart.all (· == 0) then .valid
  else if sg = 1 ∧ leNat (slice b 0x1F0 4) = crc32c (slice b 0x190 96) then .valid
  else if sg = 1 ∧ sigPart.all (· == 0xFF) then .pending
  else .sigtorn

/-- A slot class that counts as a record. -/
def isRecord : SlotClass → Bool
  | .valid => true
  | .pending => true
  | .sigtorn => true
  | .torn => false
  | .erased => false

/-- The bytes of a slot. -/
def State.slotBytes (s : State) (n : Nat) : List Byte := s.stoBytes (morSlotAddr n) 512

/-- SEQ as a slot's bytes give it. -/
def slotSeqOf (b : List Byte) : Nat := leNat (slice b 8 8)

/-- The slots in which the array lists at least one byte. -/
def slotsUsed (s : State) : List Nat := (s.store.filterMap fun c => morSlotOf c.1).eraseDups

/-- The slots that hold a record, each with its SEQ. Those of a sector whose erase runs are given up (R141; DEDUCED, log entry
94). -/
def morRecords (s : State) : List (Nat × Nat) :=
  (slotsUsed s).filterMap fun n =>
    let b := s.slotBytes n
    if s.mor.erasing != some (n / 128) && isRecord (slotClass b) then some (n, slotSeqOf b) else none

/-- The oldest SEQ held in Drift, or NSEQ while Drift is empty (Table 6.8). -/
def morOld (s : State) : Nat :=
  (morRecords s).foldl (fun n r => if r.1 ≥ 4096 then Nat.min n r.2 else n) s.mor.nseq.toNat

/-- Records in Bedrock (Table 6.8). -/
def morBedn (s : State) : Nat := ((morRecords s).filter fun r => r.1 < 4096).length

/-- The slot that holds a SEQ. -/
def slotHolding (s : State) (seq : Nat) : Option Nat := ((morRecords s).find? fun r => r.2 == seq).map (·.1)

/-- A record's signature is still to be programmed. -/
def sigPending (m : MorState) (seq : Nat) : Bool := m.signing.any fun g => g.seq == seq

/-! ### The write slot (R140, R157, R158) -/

/-- The write slot enters the sector that begins at slot n, or the one that failed erases have put in its place. -/
def morEnter (m : MorState) (n : Nat) : MorState :=
  { m with wslot := if n / 128 ≥ 32 then m.ahead.getD (n / 128) * 128 else n, ahead := none, attempts := 0 }

/-- The write slot after a slot: the next slot, or the next sector's first. -/
def morAdvance (m : MorState) : MorState :=
  let n := morNextSlot m.wslot
  if n % 128 = 0 then morEnter m n else { m with wslot := n }

/-! ### What the recorder has the Store die do (R141, R156, R158, R161, R183) -/

/-- The recorder's ports wait while the loader runs (R161). -/
def morPortHeld (s : State) : Bool := s.sst.loading

/-- A program or an erase that has started and is not suspended runs in some bank. -/
def stoRunning (s : State) : Bool :=
  (List.range 16).any fun b => (s.bank b).prog.isSome || ((s.bank b).erase.isSome && !(s.bank b).susp) || (s.bank b).infoErase

/-- The recorder may start a program or an erase in a bank: the search is done, nothing runs in the bank (R183), and RETREAT has
not completed (R82). -/
def recorderMay (s : State) (b : Nat) : Bool :=
  let k := s.bank b
  s.on F.MOR_STAT_READY && k.prog.isNone && k.erase.isNone && !k.infoErase && !(s.mode == mRETREAT && s.on F.PCM_STAT_RDONE)

/-- Start a program of the recorder: bytes at an offset of a page. -/
def State.recorderProgram (s : State) (page off : Nat) (bs : List Byte) : State :=
  let b := bankOf page
  s.setBank b { s.bank b with prog := some { req := .recorder, page, data := bs.mapIdx fun i x => (off + i, x) } }

/-- The absolute sector that holds a Moraine sector. -/
def morAbs (m : Nat) : Nat := sectorOf (morSectorBase m)

/-- A Moraine sector is fully erased: every byte reads erased, and its erase is not INCOMPLETE (R141, R181). -/
def sectorErased (s : State) (m : Nat) : Bool :=
  (s.bank (bankOf (morSectorBase m))).inc != some (morAbs m) &&
    s.store.all fun c => !(decide (morSectorBase m ≤ c.1) && decide (c.1 < morSectorBase m + 0x10000))

/-- Start the erase of a Drift sector: its records can no longer be read (R141). -/
def State.startDriftErase (s : State) (m : Nat) (retry : Bool) : State :=
  let a := morSectorBase m
  let s := s.startErase (bankOf a) { req := .recorder, sector := sectorOf a }
  { s with mor := { s.mor with
    erasing := some m
    eraseRetry := retry
    eraseTries := tabPut s.mor.eraseTries 0 m (tabGet s.mor.eraseTries 0 m + 1) } }

/-- The INCOMPLETE Drift sector of a bank. -/
def incDrift (s : State) (b : Nat) : Option Nat :=
  match (s.bank b).inc with
  | none => none
  | some n => (morSectorOf (sectorAddr n)).filter fun m => decide (32 ≤ m)

/-- The erase that is wanted starts once its bank is free; a bank's INCOMPLETE sector is erased before another of its sectors
(R183). While the loader runs the recorder does not use the FLCK interface, and an erase waits (R161; DEDUCED, log entry 110). -/
def State.eraseKick (s : State) : State :=
  match s.mor.eraseWant with
  | none => s
  | some (m, retry) =>
    let b := bankOf (morSectorBase m)
    if s.mor.erasing.isSome ∨ morPortHeld s ∨ ¬ recorderMay s b then s
    else match incDrift s b with
      | some n => if n = m then ({ s with mor := { s.mor with eraseWant := none } } : State).startDriftErase m retry else s.startDriftErase n false
      | none => ({ s with mor := { s.mor with eraseWant := none } } : State).startDriftErase m retry

/-- Ask for the erase of a Drift sector. -/
def State.wantErase (s : State) (m : Nat) (retry : Bool) : State :=
  ({ s with mor := { s.mor with eraseWant := some (m, retry) } } : State).eraseKick

/-- A Drift sector is being erased or is to be. -/
def eraseDue (s : State) (m : Nat) : Bool := s.mor.erasing == some m || s.mor.eraseWant.map Prod.fst == some m

/-- When the write slot enters a Drift sector, the next one is erased ahead unless it is erased already (R141). -/
def State.eraseAhead (s : State) : State :=
  let m := s.mor.wslot / 128
  let n := s.mor.ahead.getD (morNextDrift m)
  if m ≥ 32 ∧ ¬ eraseDue s n ∧ ¬ sectorErased s n then s.wantErase n false else s

/-- A phase 2 can run: its slot and its signature are there, and so is its bank (R148). -/
def phase2Next (s : State) : Option Signing :=
  s.mor.signing.find? fun g => g.sig.isSome && (match g.slot with
    | some n => recorderMay s (bankOf (morSlotAddr n))
    | none => false)

/-- The bytes 0x190 to 0x1FF that phase 2 programs: r, s, SCRC and zeros (R148, Table 6.1). -/
def phase2Image (sig : List Byte) : List Byte := slice sig 0 96 ++ leBytes 4 (crc32c (slice sig 0 96)) ++ zeros 12

/-- A phase 2 starts as soon as its signature is ready and no phase 1 runs (R156). -/
def State.phase2Kick (s : State) : State :=
  if morPortHeld s ∨ s.mor.phase1 ∨ s.mor.phase2.isSome then s
  else match phase2Next s with
    | none => s
    | some g => ({ s with mor := { s.mor with phase2 := some g.seq } } : State).recorderProgram (morSlotAddr (g.slot.getD 0)) 0x190
        (phase2Image (g.sig.getD []))

/-- What waits for the Store die starts. -/
def State.morKick (s : State) : State := s.phase2Kick.eraseKick

/-- RDONE sets once the phase 2 of the seal after 0x0203 has completed and no program or erase is in progress (R82, R162). -/
def State.rdoneCheck (s : State) : State :=
  if s.mode = mRETREAT ∧ s.mor.sealDone ∧ ¬ stoRunning s then s.raiseBit F.PCM_STAT_RDONE else s

end Sys2Proof.Machine
end

