-- ==== Sys2Proof/Machine/StoOps.lean ====
section
/-! DEFINITION. The Store die controller as its masters see it: command sequences, refusals, the page-program window,
reads, and what RETREAT and a Store die reset do (R165 to R189). -/

namespace Sys2Proof.Machine

open Sys2Proof

def State.seqState (s : State) (b : Nat) (r : Req) : SeqState := tabGet s.sto.seqs {} (b * 64 + reqNum r)

def State.setSeq (s : State) (b : Nat) (r : Req) (q : SeqState) : State :=
  { s with sto := { s.sto with seqs := tabPut s.sto.seqs {} (b * 64 + reqNum r) q } }

/-- Capture a cause in STO_ERR and STO_EADDR (Table 7.11). -/
def State.stoCapture (s : State) (cause : Nat) (r : Req) (a : Nat) : State :=
  let s := (s.put F.STO_ERR_CAUSE cause).put F.STO_ERR_MASTER (reqSrc r)
  (s.raiseBit F.STO_ERR_NEW).put F.STO_EADDR_ADDR (a % 0x10000000)

/-- Keep the cells of a list that lie in a range, as array addresses. -/
def cellsIn (base len : Nat) (left : List Host.Cell) : List Host.Cell :=
  left.filter fun c => decide (base ≤ c.1) && decide (c.1 < base + len)

/-- Lay cells into the array. -/
def State.layCells (s : State) (l : List Host.Cell) : State := State.each (fun c s => s.stoWrite c.1 [c.2]) l s

/-- A DMA channel learns of a refusal or failure of its page (R341). -/
def State.tellChannel (s : State) (r : Req) (cause : Nat) : State :=
  match r with
  | .dma c => { s with sto := { s.sto with chFault := s.sto.chFault ++ [(c, cause)] } }
  | .core _ => s
  | .recorder => s
  | .loader => s

/-- A sequence error (R169): the sequence ends, REFUSE is set, and the error is counted and captured. -/
def State.seqError (s : State) (r : Req) (a : Nat) : State :=
  let b := bankOf a
  let s := s.setSeq b r { s.seqState b r with pos := .idle }
  let s := s.setBank b { s.bank b with refuse := true }
  (s.inc F.STO_CNT_SEQERR_CNT).stoCapture 1 r a

/-- A refusal under Table 7.3 (R176); cause 3 also gives record 0x0905 (R142). `kind` is 1 program, 2 erase,
3 erase-suspend. -/
def State.stoRefuse (s : State) (cause : Nat) (r : Req) (a kind : Nat) : State :=
  let b := bankOf a
  let s := s.setBank b { s.bank b with refuse := true }
  let s := ((s.inc F.STO_CNT_REFUSE_CNT).stoCapture cause r a).tellChannel r cause
  if cause = 3 then
    (s.raiseBit F.MOR_STAT_REFUSED).ownEvent 0x0905
      (leBytes 1 (reqSrc r) ++ leBytes 1 kind ++ zeros 2 ++ leBytes 4 (0x20000000 + a % 0x10000000))
  else s

/-- A sector is factory-bad or grown-bad (R179, Table 7.6). -/
def sectorBad (s : State) (n : Nat) : Bool :=
  let f := ((s.infoBytes 16 (0x10 + n / 8) 1).getD 0 0xFF).toNat
  !f.testBit (n % 8) || (List.range 1024).any fun j =>
    let e := s.infoBytes 16 (0x1000 + 8 * j) 4
    leNat (slice e 0 2) == n && leNat (slice e 2 2) == 65535 - n

/-- The WPROT bit of a sector's region (Table 7.7, R188). -/
def wprotBit (n : Nat) : Option Nat :=
  if n < 256 then some 0
  else if n < 512 then some 1
  else if 1024 ≤ n ∧ n < 1280 then some 2
  else if 1280 ≤ n ∧ n < 1536 then some 3
  else if 1536 ≤ n ∧ n < 2048 then some 4
  else if 2048 ≤ n then some 5
  else none

/-- A sector lies in the Moraine (Table 7.7). -/
def sectorMoraine (n : Nat) : Bool := (decide (512 ≤ n) && decide (n < 560)) || (decide (768 ≤ n) && decide (n < 784))

/-- A sector lies in a region that Table 7.7 reserves. -/
def sectorReserved (n : Nat) : Bool := (decide (560 ≤ n) && decide (n < 768)) || (decide (784 ≤ n) && decide (n < 1024))

/-- A sector's region is write-protected (R188). -/
def sectorProtected (s : State) (n : Nat) : Bool :=
  match wprotBit n with
  | some i => s.bit F.STO_WPROT_PROT i
  | none => false

/-- The causes that bear on both programs and erases of a sector, in the order of Table 7.3. -/
def sectorCause (s : State) (n : Nat) : Option Nat :=
  if sectorMoraine n then some 3
  else if sectorReserved n then some 8
  else if sectorProtected s n then some 4
  else if sectorBad s n then some 5
  else none

/-- The first cause that refuses a program of a page, if one applies (R176). -/
def programCause (s : State) (a : Nat) : Option Nat :=
  let n := sectorOf a
  let k := s.bank (bankOf a)
  match sectorCause s n with
  | some c => some c
  | none =>
    if k.inc = some n ∨ (k.susp ∧ k.erase.map EraseOp.sector = some n) then some 7
    else if k.prog.isSome ∨ k.infoErase ∨ k.resumeDue ∨ (k.erase.isSome ∧ ¬ k.susp) then some 2
    else none

/-- The first cause that refuses an erase of a sector, if one applies (R176, R185). -/
def eraseCause (s : State) (a : Nat) : Option Nat :=
  let n := sectorOf a
  let k := s.bank (bankOf a)
  match sectorCause s n with
  | some c => some c
  | none =>
    if s.mode = mRETREAT then some 13
    else if k.inc.isSome ∧ k.inc ≠ some n then some 6
    else if k.prog.isSome ∨ k.infoErase ∨ k.erase.isSome then some 2
    else none

/-- Start a program that has been confirmed and is not refused. -/
def State.startProgram (s : State) (p : ProgOp) : State :=
  let b := bankOf p.page
  s.setBank b { s.bank b with prog := some p }

/-- A confirmed program starts or is refused (R171, R176). -/
def State.confirmProgram (s : State) (p : ProgOp) : State :=
  match programCause s p.page with
  | some c => s.stoRefuse c p.req p.page 1
  | none => s.startProgram p

/-- A confirmed erase starts or is refused (R173, R176). -/
def State.confirmErase (s : State) (r : Req) (a : Nat) : State :=
  match eraseCause s a with
  | some c => s.stoRefuse c r a 2
  | none => s.startErase (bankOf a) { req := r, sector := sectorOf a }

/-- Suspend and resume belong to the erase's issuer and to SEC (R174). -/
def mayControl (r : Req) (op : EraseOp) : Bool := r == op.req || r == .core .sec

/-- Erase suspend (R174, R142). -/
def State.eraseSuspend (s : State) (r : Req) (a : Nat) : State :=
  let b := bankOf a
  let k := s.bank b
  match k.erase with
  | none => s.stoRefuse 12 r a 3
  | some op =>
    if !k.susp && sectorMoraine op.sector then s.stoRefuse 3 r a 3
    else if !mayControl r op then s.stoRefuse 11 r a 3
    else if k.susp && !k.resumeDue then s.stoRefuse 12 r a 3
    else s.setBank b { k with susp := true, resumeDue := false }

/-- Erase resume (R174): with a program running, the erase restarts when that ends. -/
def State.eraseResume (s : State) (r : Req) (a : Nat) : State :=
  let b := bankOf a
  let k := s.bank b
  match k.erase with
  | none => s.stoRefuse 12 r a 3
  | some op =>
    if !k.susp then (if mayControl r op then s.stoRefuse 12 r a 3 else s.stoRefuse 11 r a 3)
    else if !mayControl r op then s.stoRefuse 11 r a 3
    else s.setBank b { k with susp := false, resumeDue := k.prog.isSome }

/-- The key addresses of a bank, as offsets from the bank's base. -/
def keyA : Nat := 0x13C70
def keyB : Nat := 0x04E18

/-- A command word: opcode with its complement and argument. -/
def cmdOk (v : Nat) : Bool := v / 256 % 256 == 255 - v % 256

/-- The third cycle of a sequence, after the key cycles (Table 7.1). -/
def State.setupCycle (s : State) (r : Req) (a v : Nat) : State :=
  let b := bankOf a
  let q := s.seqState b r
  let atKA := decide (a % 0x1000000 = keyA)
  let plain := decide (q.margin = 0) && !q.info
  if atKA && v == 0x0000A15E then s.setSeq b r { q with pos := .idle, status := true }
  else if atKA && v == 0x0000A35C then
    (s.setSeq b r { q with pos := .idle }).setBank b { s.bank b with refuse := false, pfail := false, efail := false }
  else if cmdOk v && v % 256 == 0x47 && decide (v / 65536 < 128) && plain then
    s.setSeq b r { q with pos := .data (a / 512 * 512) (v / 65536 + 1) [] }
  else if atKA && v == 0x5EC7E11E && plain then s.setSeq b r { q with pos := .erase }
  else if atKA && (v == 0x0001B24D || v == 0x0002B24D) then s.setSeq b r { q with pos := .idle, margin := v / 65536 }
  else if atKA && v == 0x0000E619 then s.setSeq b r { q with pos := .idle, info := true }
  else s.seqError r a

/-- Of the bytes given for one place the last stands. -/
def lastGiven : List (Nat × Byte) → List (Nat × Byte)
  | [] => []
  | d :: l => if l.any fun (e : Nat × Byte) => e.1 == d.1 then lastGiven l else d :: lastGiven l

/-- The bytes of data cycles; a later word at an address replaces an earlier one (R171). -/
def dataBytes (got : List (Nat × Word)) : List (Nat × Byte) :=
  lastGiven (got.flatMap fun w => ((leBytes 4 w.2.toNat).mapIdx fun i x => (w.1 + i, x)))

/-- The confirm cycle of a buffer program. -/
def State.confirmData (s : State) (r : Req) (page : Nat) (got : List (Nat × Word)) : State :=
  let b := bankOf page
  (s.setSeq b r { s.seqState b r with pos := .idle }).confirmProgram { req := r, page, data := dataBytes got }

/-- A store into the array window (R169 to R171): it advances its master's sequence, confirms a command, or is a
sequence error. -/
def State.arrayStore (s : State) (r : Req) (a width v : Nat) : State :=
  let b := bankOf a
  let s := s.wakeBank b
  let q := s.seqState b r
  let off := a % 0x1000000
  if width ≠ 4 ∨ a % 4 ≠ 0 then s.seqError r a else
  match q.pos with
  | .idle =>
    if off = keyA ∧ v = 0x00002DD2 then s.setSeq b r { q with pos := .key2 }
    else if v = 0x0000C33C then s.setSeq b r { q with margin := 0, info := false, status := false }
    else if v = 0x00009A65 then s.eraseSuspend r a
    else if v = 0x0000956A then s.eraseResume r a
    else s.seqError r a
  | .key2 => if off = keyB ∧ v = 0x00009669 then s.setSeq b r { q with pos := .setup } else s.seqError r a
  | .setup => s.setupCycle r a v
  | .data page n got =>
    if got.length < n then
      if a / 512 * 512 = page then
        s.setSeq b r { q with pos := .data page n (got ++ [(a % 512, BitVec.ofNat 32 v)]) }
      else s.seqError r a
    else if a / 512 * 512 = page ∧ v = 0x00008B74 then s.confirmData r page got
    else s.seqError r a
  | .erase =>
    if v = 0x0000D42B then (s.setSeq b r { q with pos := .idle }).confirmErase r a else s.seqError r a

/-- A completed window page: programmed, made to wait for a running program, or refused (R172). Once an erase resume has been
accepted it is refused (R174). -/
def State.completePage (s : State) (p : ProgOp) : State :=
  let b := bankOf p.page
  let k := s.bank b
  match programCause s p.page with
  | some 2 => if k.prog.isSome ∧ ¬ k.resumeDue then s.setBank b { k with waiting := k.waiting ++ [p] } else s.stoRefuse 2 p.req p.page 1
  | some c => s.stoRefuse c p.req p.page 1
  | none => s.startProgram p

/-- The data of a full window page. -/
def pageData (ws : List Word) : List (Nat × Byte) := dataBytes (ws.mapIdx fun i w => (4 * i, w))

def State.setPage (s : State) (r : Req) (p : Option PartPage) : State :=
  { s with sto := { s.sto with pages := tabPut s.sto.pages none (reqNum r) p } }

/-- A store that fits no partial page: the order is broken (R172). A page's first byte opens a new page. -/
def State.breakPage (s : State) (r : Req) (a v : Nat) : State :=
  let s := ((s.setPage r none).stoCapture 14 r a).tellChannel r 14
  if a % 512 = 0 then s.setPage r (some { page := a, words := [BitVec.ofNat 32 v] }) else s

/-- A store into the page-program window at the array address it maps to (R172). -/
def State.windowStore (s : State) (r : Req) (a width v : Nat) : State :=
  let s := s.wakeBank (bankOf a)
  if width ≠ 4 ∨ a % 4 ≠ 0 then s.breakPage r a v else
  match tabGet s.sto.pages none (reqNum r) with
  | none => if a % 512 = 0 then s.setPage r (some { page := a, words := [BitVec.ofNat 32 v] }) else s.breakPage r a v
  | some p =>
    if a = p.page + 4 * p.words.length then
      let ws := p.words ++ [BitVec.ofNat 32 v]
      if ws.length = 128 then (s.setPage r none).completePage { req := r, page := p.page, data := pageData ws }
      else s.setPage r (some { p with words := ws })
    else s.breakPage r a v

/-- What a read of the info space returns at a bank offset (R182). -/
def State.infoSpace (s : State) (b off n : Nat) : List Byte :=
  (List.range n).map fun i =>
    let o := off + i
    if o < 0x10000 then (s.infoBytes b o 1).getD 0 0xFF
    else if o < 0x20000 then (s.infoBytes 16 (o - 0x10000) 1).getD 0 0xFF
    else 0xFF

/-- A sector whose erase is INCOMPLETE or explicitly suspended (R168). -/
def sectorUnsure (s : State) (a : Nat) : Bool :=
  let k := s.bank (bankOf a)
  k.inc == some (sectorOf a) || (k.susp && k.erase.map EraseOp.sector == some (sectorOf a))

/-- A sector whose cells hold no settled data: its erase is INCOMPLETE or suspended (R168), or runs. -/
def sectorOpen (s : State) (a : Nat) : Bool :=
  sectorUnsure s a || (s.bank (bankOf a)).erase.map EraseOp.sector == some (sectorOf a)

/-- Whether a bit reads 1: its threshold lies at or below the reference (Table 7.5). A settled bit that is 1 lies below the normal
reference, so it reads 1 at program verify; one that is 0 lies above it, so it reads 0 at erase verify. Where no threshold
is given, the bit is not weak. -/
def bitReads (settled : Bool) (margin pvoff evoff : Nat) (bit : Bool) (mv : Option Nat) : Bool :=
  let ref := if margin = 1 then 5000 + 50 * pvoff else if margin = 2 then 2000 - 50 * evoff else 3500
  match mv with
  | none => bit
  | some v =>
    if ¬ settled then decide (v ≤ ref)
    else if margin = 1 then bit || decide (v ≤ ref)
    else if margin = 2 then bit && decide (v ≤ ref)
    else bit

/-- The bytes that cells show, given their thresholds, bit 0 of the first byte first (R178). -/
def cellsRead (settled : Bool) (margin pvoff evoff : Nat) (bs : List Byte) (cells : List Nat) : List Byte :=
  bs.mapIdx fun i b => BitVec.ofNat 8 (((List.range 8).filter fun j =>
    bitReads settled margin pvoff evoff (b.getLsbD j) cells[8 * i + j]?).foldl (fun n j => n + 2 ^ j) 0)

/-- A core's read of the array window (R166, R168, R175, R178, R182): status, info space, margin data or array data. `cells` are
the thresholds of the cells read. -/
def State.arrayRead (s : State) (r : Req) (a width : Nat) (cells : List Nat) : List Byte × State :=
  let b := bankOf a
  let s := s.wakeBank b
  let q := s.seqState b r
  if q.status then (slice (leBytes 4 (statusWord b (s.bank b))) (a % 4) width, s.setSeq b r { q with status := false })
  else if q.info then (s.infoSpace b (a % 0x1000000) width, s)
  else (cellsRead (!sectorOpen s a) q.margin (s.get F.STO_MARGIN_PVOFF) (s.get F.STO_MARGIN_EVOFF) (s.stoBytes a width) cells, s)

/-- RETREAT entry (R185): every running erase that is not the recorder's is suspended. -/
def State.stoRetreat (s : State) : State :=
  State.each (fun b s =>
    let k := s.bank b
    match k.erase with
    | some op => if op.req = .recorder then s else s.setBank b { k with susp := true, resumeDue := false }
    | none => s) (List.range 16) s

/-- The requesters' sequence, mode and partial page states end (R180, R507). -/
def State.stoEndSequences (s : State) : State := { s with sto := { s.sto with seqs := [], pages := [], chFault := [] } }

/-- The byte that a program was to give a place of its page; 0xFF leaves the cell alone (R171). -/
def programByte (p : ProgOp) (o : Nat) : Byte := ((p.data.find? fun (d : Nat × Byte) => d.1 == o).map Prod.snd).getD 0xFF

/-- Lay free bytes over a range of the array. -/
def State.layFree (s : State) (a n : Nat) : State :=
  let ans := s.drawBytes (n / 8)
  ans.2.stoWrite a (slice ans.1 0 n)

/-- A Store die reset leaves a page partly programmed: each bit that was to be programmed is or is not (R180). -/
def State.cutProgram (s : State) (b : Nat) : State :=
  match (s.bank b).prog with
  | none => s
  | some p =>
    let ans := s.drawBytes 64
    let s := ans.2
    s.stoProgram p.page ((List.range 512).map fun o => programByte p o ||| ans.1.getD o 0)

/-- An info-row entry that was cut off: its CRC is bad. -/
def tornEntry (e : List Byte) : List Byte := slice e 0 12 ++ leBytes 4 (0xFFFFFFFF - crc32c (slice e 0 12))

/-- Power or a Store die reset cuts a running erase off (R180, R183): in its START entry, so that no pulse has been applied and the
sector is not INCOMPLETE; in its END entry, which is torn, so that START stands; or between them. Which is open. -/
def State.cutErase (s : State) (b : Nat) : State :=
  let k := s.bank b
  match k.erase with
  | none => s
  | some op =>
    if k.susp then s else
    let c := s.draw.1.toNat % 3
    let s := s.draw.2
    let j := infoFree s b 4095 1
    if c = 0 ∧ k.inc ≠ some op.sector ∧ 2 ≤ j then
      (s.infoWrite b (16 * (j - 1)) (tornEntry (s.infoBytes b (16 * (j - 1)) 16))).setBank b { k with erase := none }
    else if c = 1 ∧ j ≤ 4095 then
      s.infoWrite b (16 * j) (tornEntry (leBytes 1 2 ++ leBytes 1 (reqSrc op.req) ++ leBytes 2 op.sector ++ leBytes 4 k.opseq ++ zeros 4))
    else s

/-- A sector whose erase was cut off holds nothing settled (R181). -/
def State.spoilErased (s : State) (b : Nat) : State :=
  let k := s.bank b
  match k.erase with
  | some op => if k.susp then s else s.layFree (sectorAddr op.sector) 0x10000
  | none => s

/-- What a bank holds after a Store die reset (R180): programs and erases stop, an erase leaves its sector
INCOMPLETE, and the status byte keeps only INC. -/
def Bank.afterReset (k : Bank) : Bank :=
  { inc := match k.erase with | some op => some op.sector | none => k.inc
    opseq := k.opseq }

/-- A Store die reset (R180): everything in progress stops and the start-up scan begins. -/
def State.stoDieReset (s : State) : State :=
  let s := State.each (fun b s => (s.cutProgram b).cutErase b |>.spoilErased b) (List.range 16) s
  let s := State.each (fun b s => s.setBank b (s.bank b).afterReset) (List.range 16) s.stoEndSequences
  let s := { s with sto := { s.sto with mbad := none } }
  (s.clr F.STO_STAT_READY).clr F.STO_BPDS_DOWN

/-- The last START or END entry of a bank's info row. -/
def State.lastInfo (s : State) (b : Nat) : Option (List Byte) :=
  if leNat (s.infoBytes b 12 4) = crc32c (s.infoBytes b 0 12) then infoLast s b 4096 else none

/-- The INCOMPLETE sector an info row names (R181). -/
def State.infoIncomplete (s : State) (b : Nat) : Option Nat :=
  match s.lastInfo b with
  | some e => if leNat (slice e 0 1) = 1 then some (leNat (slice e 2 2)) else none
  | none => none

/-- Record 0x0704 for a bank (Table 7.8). -/
def State.interrupted (s : State) (b kind sector : Nat) : State :=
  let e := (s.lastInfo b).getD []
  s.event 0x0704 0xFF (leBytes 1 b ++ leBytes 1 kind ++ leBytes 2 sector ++ slice e 4 4 ++ slice e 1 1 ++ zeros 3)

/-- The records 0x0704 of a THAW entry: one for each bank with an INCOMPLETE sector or a suspended erase (R181). -/
def State.interruptedRecords (s : State) : State :=
  State.each (fun b s =>
    let k := s.bank b
    match k.inc with
    | some n => s.interrupted b 1 n
    | none => match k.erase with
      | some op => if k.susp then s.interrupted b 2 op.sector else s
      | none => s) (List.range 16) s

/-- Waiting window pages follow one another once a program has ended (R172); a resumed erase restarts first, and then refuses
them (R174). -/
def State.afterProgram (s : State) (b : Nat) : State :=
  let k := s.bank b
  State.each (fun p s => s.completePage p) k.waiting (s.setBank b { k with waiting := [], resumeDue := false })

/-- Grown-bad entries used (Table 7.11). -/
def State.grownUsed (s : State) : Nat :=
  ((List.range 1024).filter fun j => !(s.infoBytes 16 (0x1000 + 8 * j) 8).all (· == 0xFF)).length

end Sys2Proof.Machine
end

