-- ==== Sys2Proof/Machine/PdOps.lean ====
section
/-! DEFINITION. The Power die's shared operations: hold-up, the retract engine, its faults, the spindle and actuator
commands, and its ports (chapter 10). -/

namespace Sys2Proof.Machine

open Sys2Proof

/-- FLNK_PD.SPST codes. -/
def spCode : Spin → Nat
  | .stopped => 0
  | .start => 1
  | .accel => 2
  | .atSpeed => 3
  | .coast => 4
  | .holdup => 5
  | .brake => 6

/-- FLNK_PD.ACTST codes. -/
def actCode : Act → Nat
  | .fullpark => 0
  | .moving => 1
  | .refpark => 2
  | .loaded => 3
  | .hold => 4
  | .retracting => 5

/-- Change the Power die. -/
def State.onPd (s : State) (f : PdState → PdState) : State := { s with pd := f s.pd }

/-- The Power die queues a packet towards the Logic die; in reset it sends IDLE alone (R504). -/
def State.pdSend (s : State) (p : Packet) : State :=
  { s with link := if s.pd.reset then s.link else { s.link with up := s.link.up ++ [p] } }

/-- The last SPEED, CFG and PSUP packets are kept for a NOTICE (R236). -/
def LinkState.note (p : Packet) (l : LinkState) : LinkState :=
  match p with
  | .speed _ _ => { l with lastSpeed := some p }
  | .cfg _ _ _ _ _ => { l with lastCfg := some p }
  | .psup _ => { l with lastPsup := some p }
  | _ => l

/-- The Logic die queues a packet towards the Power die (R251, R253). -/
def State.flnkSend (s : State) (p : Packet) : State := { s with link := { s.link.note p with down := s.link.down ++ [p] } }

/-- Port 0x00, the spindle bridge: 0 Hi-Z, 1 drive, 2 rectify, 3 brake (Table 10.1). After TSHUT it stays Hi-Z (Table 10.8). -/
def bridge (v : Nat) (p : PdState) : PdState :=
  { p with ports := tabPut p.ports 0 0 (BitVec.ofNat 16 (if p.shut then 0 else v)) }

/-- Enter a spindle state, with the bridge as Table 10.3 says. -/
def enterSpin (sp : Spin) (p : PdState) : PdState :=
  match sp with
  | .stopped => bridge 0 { p with sp }
  | .coast => bridge 0 { p with sp }
  | .holdup => bridge 2 { p with sp }
  | .brake => bridge 2 { p with sp }
  | .start => bridge 1 { p with sp, attempts := 0 }
  | .accel => bridge 1 { p with sp }
  | .atSpeed => bridge 1 { p with sp }

/-- Hold-up entry (R245, Tables 10.2 and 10.3): the spindle rectifies and a moving or loaded actuator holds. Logic that is in
reset does neither. -/
def holdupEntry (p : PdState) : PdState :=
  if p.reset then p else
  let p := if p.sp = .stopped then p else enterSpin .holdup p
  if p.act = .loaded ∨ p.act = .moving then { p with act := .hold, vcm := 0, ma0 := 0, ma1 := 0 } else p

/-- The retract engine is triggered (R246): it starts, or records the cause of a later trigger. In FULLPARK only a
reset release runs it, and none starts while the Power die is in reset. -/
def retractStart (cause : Nat) (fx : RetractFacts) (p : PdState) : PdState :=
  match p.retract with
  | some r => { p with retract := some { r with seen := r.seen ||| 2 ^ cause } }
  | none =>
    if p.reset ∨ p.act = .fullpark ∧ cause ≠ 8 then p
    else { p with
      retract := some { cause, seen := 2 ^ cause, facts := fx, inHoldup := p.sp == .holdup,
                        fromPark := p.act == .fullpark }
      act := .retracting, ma0 := 0, ma1 := 0, zeroDue := p.zeroDue }

/-- The bytes of a retract log entry (Table 10.9); the duration is in units of 100 µs. -/
def logBytes (r : Retract) (opn dur : Nat) : List Byte :=
  leBytes 1 r.cause ++ leBytes 1 (if r.timeout then 2 else 1) ++ leBytes 2 r.facts.rpm ++ leBytes 2 r.facts.vhold ++
    leBytes 2 dur ++ leBytes 4 (if r.inHoldup then r.facts.ms else 0xFFFFFFFF) ++ leBytes 2 opn ++ leBytes 2 r.seen

/-- The slot that a new entry takes: a free one, the oldest reported one, or the oldest (R249). -/
def logSlot (l : List LogEntry) : Nat :=
  match (List.range 8).find? fun k => !(l.any fun e => e.slot == k) with
  | some k => k
  | none => match l.find? fun e => e.acked with
    | some e => e.slot
    | none => (l.head?.map LogEntry.slot).getD 0

/-- Write a retract log entry and send it if the link is up (R249). -/
def State.logRetract (s : State) (r : Retract) (dur : Nat) : State :=
  let p := s.pd
  let slot := logSlot p.log
  let e : LogEntry := { slot, bytes := logBytes r (p.opn + 1) dur }
  let s := { s with pd := { p with log := (p.log.filter fun (x : LogEntry) => x.slot != slot) ++ [e], opn := p.opn + 1 } }
  if s.link.power.up then s.pdSend (.log slot e.bytes) else s

/-- The Power die reports a fault in a FAULT packet (R250). -/
def State.pdFault (s : State) (kind detail : Nat) : State := s.pdSend (.fault kind detail)

/-- Start a planned move (Table 10.2). -/
def moveAct (dst : Act) (p : PdState) : PdState := { p with act := .moving, moveTo := dst }

/-- A SPEED target as it is stored (R240). -/
def speedTarget (t : Nat) : Nat := if t = 0 then 0 else if t < 5400 then 5400 else if t > 10000 then 10000 else t

/-- A SPILIM code as it is stored (R240). -/
def speedLimit (c : Nat) : Nat := if 1 ≤ c ∧ c ≤ 6 then c else 5

/-- Target 0: park first, then brake (Tables 10.2 and 10.3). -/
def spinDown (p : PdState) : PdState :=
  let p := { p with target := 0, stored := 0 }
  match p.act with
  | .fullpark => if p.sp = .start ∨ p.sp = .accel ∨ p.sp = .atSpeed then enterSpin .brake p else p
  | .refpark => moveAct .fullpark { p with zeroDue := true }
  | .loaded => moveAct .fullpark { p with zeroDue := true }
  | .hold => moveAct .fullpark { p with zeroDue := true }
  | .moving => { p with zeroDue := true }
  | .retracting => { p with zeroDue := true }

/-- A target other than 0 (Table 10.3); `rpm` is the present speed. In COAST below 150 rpm, for which the table lists no
transition, the target is stored and the spindle goes on to STOPPED (DEDUCED, log entry 95). -/
def spinUp (t rpm : Nat) (p : PdState) : PdState :=
  let q := { p with target := t, stored := 0, zeroDue := false }
  if p.shut ∧ 140 ≤ toInt 8 p.temp.toNat then q else
  let q := { q with shut := false }
  match p.sp with
  | .stopped => enterSpin .start q
  | .start => q
  | .accel => q
  | .atSpeed => if t = p.target then q else enterSpin .accel q
  | .brake => if rpm ≥ 150 then enterSpin .accel q else { q with stored := t }
  | .coast => if rpm ≥ 150 then enterSpin .accel q else q
  | .holdup => if p.vmotl || p.vin5l then q else enterSpin .accel q

/-- A SPEED packet (R240, R242). -/
def speedPacket (target spilim rpm : Nat) (p : PdState) : PdState :=
  let p := { p with spilim := speedLimit spilim }
  let t := speedTarget target
  if t = 0 then spinDown p else spinUp t rpm p

/-- A planned move or a retract runs. -/
def inMove (p : PdState) : Bool := p.act == .moving || p.act == .retracting

/-- ACT LOAD (Table 10.2). -/
def actLoad (p : PdState) : PdState :=
  if inMove p then { p with actres := 4 }
  else if p.act = .loaded then { p with actres := 3 }
  else if p.sp ≠ .atSpeed then { p with actres := 2 }
  else if p.act = .refpark then moveAct .loaded { p with actres := 1 }
  else if p.act = .hold then { p with act := .loaded, actres := 1 }
  else { p with actres := 2 }

/-- ACT UNLOAD (Table 10.2). -/
def actUnload (p : PdState) : PdState :=
  if inMove p then { p with actres := 4 }
  else if p.act = .refpark then { p with actres := 3 }
  else if p.act = .fullpark then { p with actres := 2 }
  else moveAct .refpark { p with actres := 1 }

/-- ACT PARK (Table 10.2). -/
def actPark (p : PdState) : PdState :=
  if inMove p then { p with actres := 4 }
  else if p.act = .fullpark then { p with actres := 3 }
  else moveAct .fullpark { p with actres := 1 }

/-- ACT RETRACT (R246, Table 10.2): NOOP during a retract, whose log entry records the cause, and in FULLPARK. -/
def actRetract (fx : RetractFacts) (p : PdState) : PdState :=
  if p.act = .retracting ∨ p.act = .fullpark then retractStart 1 fx { p with actres := 3 }
  else retractStart 1 fx { p with actres := 1 }

/-- ACT HOLDUP (Tables 10.2 and 10.3). -/
def actHoldup (p : PdState) : PdState :=
  let idle := (p.sp == .holdup || p.sp == .stopped) && !(p.act == .loaded || p.act == .moving)
  holdupEntry { p with actres := if idle then 3 else 1 }

/-- What an IN or a PRD reads at a port (Table 10.1); `meas` is the measured value of a port that shows one. -/
def portRead (p : PdState) (port : Nat) (meas : BitVec 16) : BitVec 16 :=
  if port ∈ [0x00, 0x01, 0x02, 0x04, 0x13] ∨ (0x40 ≤ port ∧ port ≤ 0x7F) then tabGet p.ports 0 port
  else if port ∈ [0x03, 0x05, 0x12, 0x20, 0x21, 0x22, 0x23] then meas
  else if port = 0x06 then BitVec.ofNat 16 p.target
  else if port = 0x07 then BitVec.ofNat 16 (p.sperr / 256)
  else if port = 0x10 then BitVec.ofNat 16 (actCode p.act)
  else if port = 0x11 then BitVec.ofNat 16 p.actreq
  else if port = 0x28 then BitVec.ofNat 16 p.rdl
  else if port = 0x29 then BitVec.ofNat 16 p.rfloor
  else if port = 0x2A then BitVec.ofNat 16 p.vret
  else if port = 0x2B then BitVec.ofNat 16 p.holdv
  else if port = 0x2C then BitVec.ofNat 16 p.vcmrng
  else if port = 0x2D then BitVec.ofNat 16 p.spilim
  else 0

/-- Ports that OUT writes and that hold their value (Table 10.1). VCMMOV is ignored in LOADED. -/
def portWrite (p : PdState) (port : Nat) (v : BitVec 16) : PdState :=
  if port ∈ [0x00, 0x01, 0x02, 0x04] ∨ (0x40 ≤ port ∧ port ≤ 0x7F) ∨ (port = 0x13 ∧ p.act ≠ .loaded) then
    { p with ports := tabPut p.ports 0 port v }
  else p

/-- One bit of the servo word's CRC-8: polynomial 0x07, initial value 0, most significant bit first (Table 3.6). -/
def crc8Bit (c : Nat) (b : Bool) : Nat :=
  let x := (c / 128 % 2 == 1) != b
  if x then (c * 2 % 256) ^^^ 0x07 else c * 2 % 256

/-- CRC-8 over bits 0 to n - 1 of a word, bit 0 first. -/
def crc8 (n w : Nat) : Nat := (List.range n).foldl (fun c i => crc8Bit c (w.testBit i)) 0

/-! ### Frames (R61, R62, R65) -/

/-- A packet as the bytes of a general payload: TYPE and body (Table 10.10). -/
def Packet.bytes (p : Packet) : List Byte :=
  let b := fun (t : Nat) (body : List Byte) => leBytes 1 t ++ body
  match p with
  | .speed target spilim => b 0x10 (leBytes 2 target ++ leBytes 1 spilim)
  | .spderr e => b 0x11 (leBytes 3 e)
  | .act a => b 0x12 (leBytes 1 a)
  | .psup on => b 0x13 (leBytes 1 (if on then 1 else 0))
  | .cfg rdl rfloor vret holdv vcmrng => b 0x14 (leBytes 1 rdl ++ leBytes 1 rfloor ++ leBytes 1 vret ++ leBytes 1 holdv ++ leBytes 1 vcmrng)
  | .pwr port value => b 0x15 (leBytes 1 port ++ leBytes 2 value)
  | .prd port => b 0x16 (leBytes 1 port)
  | .unpatch => b 0x17 []
  | .patchData k bytes => b 0x18 (leBytes 1 k ++ bytes)
  | .patchEnd => b 0x19 []
  | .logack entry => b 0x1A (leBytes 1 entry)
  | .logreq => b 0x1B []
  | .fault kind detail => b 0x91 (leBytes 1 kind ++ leBytes 2 detail)
  | .pdata port value => b 0x92 (leBytes 1 port ++ leBytes 2 value)
  | .patchAck good => b 0x93 (leBytes 1 (if good then 1 else 2))
  | .notice romid => b 0x94 (leBytes 1 1 ++ leBytes 2 romid)
  | .log entry bytes => b 0x95 (leBytes 1 entry ++ bytes)

/-- The 168 bits of a general payload: a packet, or IDLE. -/
def payload (p : Option Packet) : Nat :=
  match p with
  | some p => leNat (slice p.bytes 0 21)
  | none => 0

/-- PCRC of one lane (Table 3.6): CRC-8 over its header (bit times 4 to 7) and its payload bits (36 to 119). Within a field
bit 0 is sent first (DEDUCED, log entry 104). -/
def lanePcrc (hdr pay : Nat) : Nat := crc8 88 (hdr % 16 + pay % 2 ^ 84 * 16)

/-- The PCRCs of both lanes, lane 0 in the low byte. -/
def framePcrc (hdr pay : Nat) : Nat := lanePcrc hdr pay + 256 * lanePcrc (hdr / 16) (pay / 2 ^ 84)

/-- SYNC of both lanes. -/
def frameSync : BitVec 8 := 0xDD

/-- A receiver after a frame (R61, R65, R66, R252): what its SYNC, PCRC, ACK and FN say. -/
def receiveFrame (sync crc ack : Bool) (fn : BitVec 4) (r : Receiver) : Receiver :=
  { r with
    badSync := if sync then 0 else r.badSync + 1
    nack := if ack then 0 else r.nack + 1
    good := if sync && crc then r.good + 1 else 0
    ack := crc
    seen := fn }

/-- The next frame of a die (R61, R65): `ack` is the ACK bit it has just received. A payload that was not acknowledged is
repeated, and the packets behind it move back one frame; otherwise the packet at the head of the queue goes, or IDLE. -/
def Receiver.sends (ack : Bool) (queue : List Packet) (r : Receiver) : Option Packet := if ack then queue.head? else r.prev

/-- A die after sending a frame with a payload. -/
def Receiver.sent (p : Option Packet) (r : Receiver) : Receiver := { r with fn := r.fn + 1, prev := r.last, last := p }

/-- The frame that a die sends. -/
def frameOut (d : Die) (r : Receiver) (p : Option Packet) : Out :=
  let hdr := r.fn.toNat + (if r.ack then 16 else 0)
  .frame d frameSync (BitVec.ofNat 8 hdr) (BitVec.ofNat 168 (payload p)) (BitVec.ofNat 16 (framePcrc hdr (payload p)))

/-- A packet that is delivered is not repeated any more. -/
def Receiver.deliver (p : Packet) (r : Receiver) : Option Receiver :=
  if r.prev = some p then some { r with prev := none }
  else if r.last = some p then some { r with last := none }
  else none

/-- A packet reaches the Power die: it was in a frame, or it goes from the queue. -/
def LinkState.takeDown (p : Packet) (l : LinkState) : LinkState :=
  match l.logic.deliver p with
  | some r => { l with logic := r }
  | none => { l with down := l.down.erase p }

/-- A packet reaches the Logic die. -/
def LinkState.takeUp (p : Packet) (l : LinkState) : LinkState :=
  match l.power.deliver p with
  | some r => { l with power := r }
  | none => { l with up := l.up.erase p }

/-! ### The upstream servo word (R62, R250, R504) -/

/-- The FAULT bits of Table 10.7. How long a fault of kind 1, 2, 4 or 7 persists comes with the word; a channel that MAFLT took
off and a bridge that TSHUT keeps off are faults that persist. -/
def faultBits (p : PdState) (persists : Bool) : Nat :=
  (if p.vmotl then 1 else 0) + (if p.vin5l then 2 else 0) + (if p.retract.isSome then 4 else 0) +
    (if p.mahz0 || p.mahz1 || p.shut || (p.flt && persists) then 8 else 0)

/-- The upstream servo word (Table 3.7): a new status carries SEQ of the last command applied, the VCM current, which is 0 while
the VCM is Hi-Z (R243), and the microactuator outputs; otherwise, and throughout a reset, VALID is 0 and these repeat their last
values (R250, R504). -/
def upWord (p : PdState) (w : Upstream) : BitVec 56 :=
  let n :=
    if w.fresh && !p.reset then
      1 + p.seq % 8 * 2 + (if p.act = .fullpark then 0 else w.vcm.toNat) * 2 ^ 4 + p.ma0.toNat * 2 ^ 20 + p.ma1.toNat * 2 ^ 32
    else p.upLast.toNat % 2 ^ 44 / 2 * 2
  let n := n + faultBits p w.persists * 2 ^ 44
  BitVec.ofNat 56 (n + crc8 48 n * 2 ^ 48)

/-- Record 0x0603 (Table 10.8), with the measured values of the latest STATUS. -/
def State.faultRecord (s : State) (kind detail : Nat) : State :=
  s.event 0x0603 0xFF (leBytes 1 kind ++ zeros 1 ++ leBytes 2 detail ++ leBytes 2 (s.get F.FLNK_PDV_SPEED / 16) ++
    leBytes 2 (s.get F.FLNK_VH_VHOLD) ++ leBytes 1 (s.get F.FLNK_PDV_TEMP) ++ leBytes 1 (s.get F.FLNK_PD_ACTST) ++ zeros 2)

/-- The CFG packet for the stored values (Table 10.11). -/
def State.cfgPacket (s : State) : Packet :=
  .cfg (s.get F.FLNK_CFG_RDL) (s.get F.FLNK_CFG_RFLOOR) (s.get F.FLNK_CFG_VRET) (s.get F.FLNK_CFG_HOLDV)
    (s.get F.FLNK_CFG2_VCMRNG)

/-- The SPEED packet for the stored values. -/
def State.speedPkt (s : State) : Packet := .speed (s.get F.FLNK_SPD_TARGET) (s.get F.FLNK_SPD_SPILIM)

end Sys2Proof.Machine
end

