-- ==== Sys2Proof/Machine/MsqOps.lean ====
section
/-! DEFINITION. The motor sequencer's shared operations: fetch with match registers, working registers, the recovery
entry, and patches (R201 to R209). -/

namespace Sys2Proof.Machine

open Sys2Proof

def State.onMsq (s : State) (f : MsqState → MsqState) : State := { s with msq := f s.msq }

/-! ### Fetch (R201, R203, R204) -/

/-- The lowest-numbered match register that matches an address: its patch word (R203). -/
def matchOf (q : MsqState) (pc : Nat) : Option Nat :=
  (q.mats.find? fun (m : BitVec 32) => m.getLsbD 31 && bitsOf m 12 0 == pc).map fun m => bitsOf m 21 16

/-- A fetch: the word, and the address it is executed at. `rom` is what the ROM holds at PC, and serves only a fetch
from ROM without a match. None is a bad fetch (R204). -/
def msqFetch (q : MsqState) (rom : Word) : Option (Word × Nat) :=
  if q.pc < 0x2000 then
    match matchOf q q.pc with
    | some t => (q.words[t]?).map fun w => (w, 0x2000 + t)
    | none => some (rom, q.pc)
  else (q.words[q.pc - 0x2000]?).map fun w => (w, q.pc)

def mOp (w : Word) : Nat := bitsOf w 31 27
def mGd (w : Word) : Nat := bitsOf w 26 23
def mGa (w : Word) : Nat := bitsOf w 22 19
def mCc (w : Word) : Nat := bitsOf w 18 16
def mImm (w : Word) : BitVec 16 := BitVec.ofNat 16 w.toNat

def MsqState.g (q : MsqState) (r : Nat) : BitVec 16 := tabGet q.regs 0 r
def MsqState.setG (q : MsqState) (r : Nat) (v : BitVec 16) : MsqState := { q with regs := tabPut q.regs 0 r v }

/-- The branch condition on GA (Table 8.5). -/
def msqCond (cc : Nat) (a : BitVec 16) : Bool :=
  match cc with
  | 0 => true
  | 1 => a == 0
  | 2 => a != 0
  | 3 => a.msb
  | 4 => !a.msb
  | 5 => !a.msb && a != 0
  | 6 => a.msb || a == 0
  | _ => false

/-- The sequencer executes: its die is not in reset and it does not wait. -/
def msqRuns (s : State) : Bool := !s.pd.reset && s.msq.waiting.isNone

/-- Execute the word at PC if it has an opcode; `go` gets the word and the address that follows it. -/
def State.msqExec (s : State) (rom : Word) (op : Nat) (go : Word → Nat → State → State) : State :=
  if ¬ msqRuns s then s else
  match msqFetch s.msq rom with
  | some (w, at_) => if mOp w = op then go w ((at_ + 1) % 65536) s else s
  | none => s

/-- Execute a word that writes GD from GA, GD and the immediate, and goes on. -/
def State.msqAlu (s : State) (rom : Word) (op : Nat) (f : BitVec 16 → BitVec 16 → BitVec 16 → BitVec 16) : State :=
  s.msqExec rom op fun w pc s => s.onMsq fun q => { q.setG (mGd w) (f (q.g (mGd w)) (q.g (mGa w)) (mImm w)) with pc }

/-- MSQ_STAT and MSQ_MATCH show what the sequencer runs (Table 8.10). -/
def State.msqShow (s : State) (st : Nat) : State :=
  let s := s.put F.MSQ_STAT_STATE st
  State.each (fun k s => let m := s.msq.mats.getD k 0
    s.wr (R.MSQ_MATCH k) (if m.getLsbD 31 then m else 0)) (List.range 16) s

/-- The recovery entry (R204): the match registers are disabled, ROM runs from its recovery entry, whose address is open
(DESIGN CHOICE, log entry 45), and fault 8 reports the PC. -/
def State.msqRecover (s : State) : State :=
  let pc := s.msq.pc
  let (v, s) := s.draw
  let s := s.onMsq fun q => { q with mats := [], stack := [], pc := v.toNat % 8192 }
  ((s.msqShow 0).put F.MSQ_STAT_RESULT 5).pdFault 8 pc

/-! ### Patches (R205 to R209) -/

/-- The patch that 340 image bytes hold (Table 8.7). -/
def patchOf (b : List Byte) : Patch :=
  { nmatch := leNat (slice b 8 1), nword := leNat (slice b 9 1)
    mats := (List.range 16).map fun k => BitVec.ofNat 32 (leNat (slice b (0x10 + 4 * k) 4))
    words := (List.range 64).map fun j => BitVec.ofNat 32 (leNat (slice b (0x50 + 4 * j) 4)) }

def pcrcGood (b : List Byte) : Bool := crc32c (slice b 0 0x150) == leNat (slice b 0x150 4)

/-- The image is well formed (R206). -/
def patchFormed (b : List Byte) : Bool :=
  let p := patchOf b
  leNat (slice b 0 4) == 0x4D535150 && leNat (slice b 4 2) == 1 && decide (p.nmatch ≤ 16) && decide (p.nword ≤ 64) &&
  slice b 0xA 6 == zeros 6 && pcrcGood b &&
  ((List.range 16).all fun k =>
    let m := p.mats.getD k 0
    if k < p.nmatch then bitsOf m 15 13 == 0 && bitsOf m 30 22 == 0 && (!m.getLsbD 31 || decide (bitsOf m 21 16 < p.nword)) else m == 0) &&
  ((List.range 64).all fun j => decide (j < p.nword) || p.words.getD j 0 == 0)

/-- The SST sends the image in 18 PATCH_DATA packets and a PATCH_END. -/
def State.patchSend (s : State) : State :=
  let b := s.msq.staging
  let s := State.each (fun k s => s.flnkSend (.patchData k (slice b (19 * k) 19))) (List.range 18) s
  (s.flnkSend .patchEnd).onMsq fun q => { q with sends := q.sends + 1 }

/-- A patch that is not applied (R207): the outcome, and record 0x0603 of kind 9. -/
def State.patchRefused (s : State) (code : Nat) : State :=
  ((s.put F.MSQ_STAT_STATE 3).put F.MSQ_STAT_RESULT code).faultRecord 9 code

/-- Check the image in the staging buffer and send it (R207). -/
def State.patchStart (s : State) : State :=
  let b := s.msq.staging
  let p := patchOf b
  let s := ((s.put F.MSQ_IMG_ROMID (leNat (slice b 6 2))).put F.MSQ_IMG_NMATCH p.nmatch).put F.MSQ_IMG_NWORD p.nword
  let s := s.onMsq fun q => { q with sends := 0 }
  if ¬ patchFormed b then s.patchRefused 2
  else if leNat (slice b 6 2) ≠ s.get F.MSQ_ROMID_ROMID then s.patchRefused 3
  else (s.put F.MSQ_STAT_STATE 1).patchSend

/-- The Power die was reset outside THAW: the transfer is repeated from the buffer (R209). -/
def State.patchResend (s : State) : State := if s.msq.staging.isEmpty then s else s.patchStart

/-- At a WAIT an UNPATCH or a received image takes effect (R207). -/
def State.patchActivate (s : State) : State :=
  let s := if s.msq.unpatch then (s.onMsq fun q => { q with mats := [], unpatch := false }).msqShow 0 else s
  match s.msq.shadow with
  | some p =>
    let s := s.onMsq fun q => { q with mats := p.mats, words := p.words.take p.nword, shadow := none }
    (s.msqShow 2).put F.MSQ_STAT_RESULT 1
  | none => s

/-- The sequencer after the Power die's reset: ROM alone (R236); the Logic die's staging buffer is untouched. -/
def MsqState.romOnly (q : MsqState) : MsqState := { staging := q.staging, sends := q.sends }

end Sys2Proof.Machine
end

