-- ==== Sys2Proof/Machine/AscOps.lean ====
section
/-! DEFINITION. Entries of the angle scheduler and passages of an angle (R37, R42, R43). -/

namespace Sys2Proof.Machine

open Sys2Proof

/-- The angle counter as a number. -/
def angleNow (s : State) : Nat := s.atb.count.toNat

def State.entry (s : State) (i : Nat) : AscEntry := tabGet s.asc {} i

/-- An entry counts in VALID_CNT (Table 2.6). -/
def ascValid (e : AscEntry) : Bool := e.st == .armed || e.st == .dispatched

/-- Put an entry; ASC_STAT counts the valid ones. -/
def State.setEntry (s : State) (i : Nat) (e : AscEntry) : State :=
  let t := tabPut s.asc {} i e
  let s := { s with asc := t }
  (s.put F.ASC_STAT_VALID_CNT (t.filter fun (c : Nat × AscEntry) => ascValid c.2).length).put F.ASC_STAT_MEDIA_CNT
    (t.filter fun (c : Nat × AscEntry) => ascValid c.2 && decide (c.1 < 128)).length

/-- The first counter value at or after `lo` at which the angle is `tgt`. -/
def passage (tgt lo : Nat) : Nat := lo + (tgt % 4294967296 + 4294967296 - lo % 4294967296) % 4294967296

/-- COAST_RPM as it is stored: the nearer limit (Table 2.8). -/
def coastRpm (n : Nat) : Nat := if n < 5400 then 5400 else if 10000 < n then 10000 else n

/-- Two ATBCK cycles in ticks. -/
def twoCycles : Nat := 8192

end Sys2Proof.Machine
end

