-- ==== Sys2Proof/Machine/Codec.lean ====
section
/-! DEFINITION. The sector codec (R261 to R263): the scrambler, the LDPC parity and the channel bits of a sector. -/

namespace Sys2Proof.Machine

open Sys2Proof

/-- The bits of a byte string: bit i of byte j is information bit 8j + i (R263). -/
def bitsOfBytes (bs : List Byte) : List Bool := bs.flatMap fun b => (List.range 8).map fun i => b.getLsbD i

/-- XOR each bit with s[22] of the scrambler register, which then steps (R263). -/
def scramble : BitVec 23 → List Bool → List Bool
  | _, [] => []
  | r, b :: bs => (b != r.getLsbD 22) :: scramble ((r <<< 1) ||| (if r.getLsbD 22 != r.getLsbD 17 then 1 else 0)) bs

/-- The scrambler's load value for a media LBA. -/
def scramblerSeed (lba : Nat) : BitVec 23 := BitVec.ofNat 23 (lba % 8388607 + 1)

/-- Split bits into block columns of 32; bit k of a column is its position k. -/
def columns : Nat → List Bool → List (BitVec 32)
  | 0, _ => []
  | n + 1, bs => BitVec.ofNat 32 ((List.range 32).foldl (fun x k => if bs.getD k false then x + 2 ^ k else x) 0) :: columns n (bs.drop 32)

/-- The shift s_m(j) of information block column j. -/
def circShift (j m : Nat) : Nat := (j * (2 * m + 1) + 5 * m) % 32

/-- What the information part of H gives in each of the 119 block rows: column j adds its circulants in the rows
(j + 30m) mod 119. -/
def infoRows : Nat → List (BitVec 32) → List (BitVec 32) → List (BitVec 32)
  | _, [], rows => rows
  | j, x :: xs, rows =>
    infoRows (j + 1) xs ((List.range 4).foldl (fun rows m =>
      rows.modify ((j + 30 * m) % 119) (fun r => r ^^^ x.rotateRight (circShift j m))) rows)

/-- The parity columns: each is its row's sum and the parity column before it (the dual diagonal). -/
def parityCols : BitVec 32 → List (BitVec 32) → List (BitVec 32)
  | _, [] => []
  | p, r :: rs => (p ^^^ r) :: parityCols (p ^^^ r) rs

/-- The 36,864-bit codeword of 4,132 information bytes. -/
def codeword (lba : Nat) (info : List Byte) : List Bool :=
  let bits := scramble (scramblerSeed lba) (bitsOfBytes info)
  let parity := parityCols 0 (infoRows 0 (columns 1033 bits) (List.replicate 119 0))
  bits ++ parity.flatMap fun (p : BitVec 32) => (List.range 32).map fun k => p.getLsbD k

/-- The pattern 0b1100 repeated, n bits, starting with 1. -/
def pattern (n : Nat) : List Bool := (List.range n).map fun i => decide (i % 4 < 2)

/-- A 16-bit mark, bit 15 first. -/
def markBits (m : Nat) : List Bool := (List.range 16).map fun i => m.testBit (15 - i)

/-- The channel bits 0 to 36,935 of a sector (Table 11.2). -/
def sectorBits (lba : Nat) (info : List Byte) : List Bool :=
  let c := codeword lba info
  pattern 32 ++ markBits 0xF2A6 ++ c.take 176 ++ markBits 0x1B5C ++ c.drop 176 ++ pattern 8

/-- By how many 1/64 of a bit period the transition before each bit is written early, 0 where there is none (R278): `pc n` is PCn
for a previous transition n bits before, `span` the length of a data span, and the arguments after it the data bit, the level
before it and how many bits before it that level began. Before a span's first bit the serialiser writes the pattern, here taken
to end in 1100 (DESIGN CHOICE, log entry 117). -/
def precomp (pc : Nat → Nat) (span : Nat) : Nat → Bool → Nat → List Bool → List Nat
  | _, _, _, [] => []
  | d, prev, n, b :: bs =>
    let prev := prev && d % span != 0
    let n := if d % span = 0 then 2 else n
    if b != prev then pc n :: precomp pc span (d + 1) b 1 bs else 0 :: precomp pc span (d + 1) b (n + 1) bs

end Sys2Proof.Machine
end

