-- ==== Sys2Proof/Machine/Aes.lean ====
section
/-! DEFINITION. AES-256 (FIPS 197) and XTS-AES-256 (IEEE 1619-2018) over data units of whole 16-byte blocks, the
cipher of the CRY engine (R348). -/

namespace Sys2Proof.Machine

open Sys2Proof

/-- Multiply by x in GF(2^8) modulo x^8 + x^4 + x^3 + x + 1. -/
def gfDouble (a : Byte) : Byte := if a.msb then (a <<< 1) ^^^ 0x1B else a <<< 1

/-- The product of two elements of GF(2^8), over the low n bits of the second. -/
def gfMulBits : Nat → Byte → Byte → Byte
  | 0, _, _ => 0
  | n + 1, a, b => (if b.getLsbD 0 then a else 0) ^^^ gfMulBits n (gfDouble a) (b >>> 1)

def gfMul (a b : Byte) : Byte := gfMulBits 8 a b

/-- The inverse of an element: its power 254; 0 for 0. -/
def gfInv (a : Byte) : Byte :=
  let a2 := gfMul a a
  let a4 := gfMul a2 a2
  let a8 := gfMul a4 a4
  let a16 := gfMul a8 a8
  let a32 := gfMul a16 a16
  let a64 := gfMul a32 a32
  gfMul (gfMul (gfMul a2 a4) (gfMul a8 a16)) (gfMul (gfMul a32 a64) (gfMul a64 a64))

/-- SubBytes on one byte, and its inverse. -/
def aesSub (x : Byte) : Byte :=
  let y := gfInv x
  y ^^^ y.rotateLeft 1 ^^^ y.rotateLeft 2 ^^^ y.rotateLeft 3 ^^^ y.rotateLeft 4 ^^^ 0x63
def aesUnsub (x : Byte) : Byte := gfInv (x.rotateLeft 1 ^^^ x.rotateLeft 3 ^^^ x.rotateLeft 6 ^^^ 0x05)

/-- XOR of two byte strings. -/
def xorBytes (a b : List Byte) : List Byte := List.zipWith (fun x y => x ^^^ y) a b

/-- The AES-256 key schedule: n more words of 4 bytes, the list holding the newest first; i counts words. -/
def aesExpand : Nat → Nat → Byte → List (List Byte) → List (List Byte)
  | 0, _, _, w => w
  | n + 1, i, rc, w =>
    let t := w.getD 0 []
    let t' := if i % 8 = 0 then xorBytes (((t.drop 1) ++ t.take 1).map aesSub) [rc, 0, 0, 0]
      else if i % 8 = 4 then t.map aesSub else t
    aesExpand n (i + 1) (if i % 8 = 0 then gfDouble rc else rc) (xorBytes (w.getD 7 []) t' :: w)

/-- Split a byte string into n pieces of k bytes. -/
def pieces (k : Nat) : Nat → List Byte → List (List Byte)
  | 0, _ => []
  | n + 1, bs => slice bs 0 k :: pieces k n (bs.drop k)

/-- The 15 round keys of a 32-byte key. -/
def aesKeys (key : List Byte) : List (List Byte) :=
  let w := (aesExpand 52 8 1 (pieces 4 8 key).reverse).reverse
  pieces 16 15 (w.flatMap id)

/-- ShiftRows, and its inverse: byte r + 4c comes from column c + r, or c − r. -/
def shiftRows (s : List Byte) : List Byte := (List.range 16).map fun i => s.getD ((i + 4 * (i % 4)) % 16) 0
def unshiftRows (s : List Byte) : List Byte := (List.range 16).map fun i => s.getD ((i + 12 * (i % 4)) % 16) 0

/-- Multiply a column by the circulant matrix whose first row is given. -/
def mixColumn (m : List Byte) (c : List Byte) : List Byte :=
  (List.range 4).map fun r => (List.range 4).foldl (fun x j => x ^^^ gfMul (m.getD ((j + 4 - r) % 4) 0) (c.getD j 0)) 0

/-- MixColumns with the matrix whose first row is given. -/
def mixColumns (m : List Byte) (s : List Byte) : List Byte := (pieces 4 4 s).flatMap (mixColumn m)

/-- Encrypt one block under the round keys. -/
def aesEncrypt (ks : List (List Byte)) (b : List Byte) : List Byte :=
  let s := xorBytes b (ks.getD 0 [])
  let s := ((ks.drop 1).take 13).foldl (fun s k => xorBytes (mixColumns [2, 3, 1, 1] (shiftRows (s.map aesSub))) k) s
  xorBytes (shiftRows (s.map aesSub)) (ks.getD 14 [])

/-- Decrypt one block under the round keys. -/
def aesDecrypt (ks : List (List Byte)) (b : List Byte) : List Byte :=
  let s := xorBytes b (ks.getD 14 [])
  let s := ((ks.drop 1).take 13).reverse.foldl
    (fun s k => mixColumns [14, 11, 13, 9] (xorBytes ((unshiftRows s).map aesUnsub) k)) s
  xorBytes ((unshiftRows s).map aesUnsub) (ks.getD 0 [])

/-- The XTS tweaks of n blocks, by doubling in GF(2^128), little-endian. -/
def xtsTweaks : Nat → Nat → List (List Byte)
  | 0, _ => []
  | n + 1, t =>
    leBytes 16 t :: xtsTweaks n (if t < 2 ^ 127 then 2 * t else (2 * t - 2 ^ 128) ^^^ 0x87)

/-- XTS over one data unit of whole blocks: a 64-byte key (data key, then tweak key) and the data unit number. -/
def xts (encrypt : Bool) (key : List Byte) (unit : Nat) (data : List Byte) : List Byte :=
  let k1 := aesKeys (slice key 0 32)
  let n := data.length / 16
  let t := leNat (aesEncrypt (aesKeys (slice key 32 32)) (leBytes 16 unit))
  (List.zipWith (fun b w => xorBytes ((if encrypt then aesEncrypt k1 else aesDecrypt k1) (xorBytes b w)) w)
    (pieces 16 n data) (xtsTweaks n t)).flatMap id

end Sys2Proof.Machine
end

