-- ==== Sys2Proof/Machine/RmeOps.lean ====
section
/-! DEFINITION. The Range Match Engine's shared operations: entries, lookups on both channels, what soft errors do,
and commits with their notices (R314 to R333). -/

namespace Sys2Proof.Machine

open Sys2Proof

/-- How many LBAs an entry covers (R316). -/
def rmeSize (e : RmeEnt) : Nat := 2 ^ (48 - e.len)

/-- An LBA lies in an entry's key range. -/
def rmeCovers (e : RmeEnt) (x : Nat) : Bool := x / rmeSize e == e.key / rmeSize e

/-- The first LBA of an entry's key range. -/
def rmeStart (e : RmeEnt) : Nat := e.key / rmeSize e * rmeSize e

/-- An entry's output for a key: BASE OR the key's low bits. -/
def rmeOut (e : RmeEnt) (x : Nat) : Nat := e.base ||| x % rmeSize e

/-- Two ranges [a, a + n) and [b, b + m) meet. -/
def rangesMeet (a n b m : Nat) : Bool := decide (a < b + m) && decide (b < a + n)

/-- The valid entries of a channel that a lookup can match: all defect entries, or the window entries of a party. -/
def rmeEntries (s : State) (window : Bool) (p : Nat) : List (Nat × RmeEnt) :=
  s.rme.ents.filterMap fun c => match c.2 with
    | some e => if e.window == window && (!window || e.party == p) then some (c.1, e) else none
    | none => none

/-- The rows whose corrupted match keys miss this lookup while their row parity stays good (R331). -/
def missedRows (errs : List RmeErr) : List Nat := (errs.filter fun e => e.kind == 5).map fun e => e.idx.toNat

/-- The entries that take part in a lookup: those of the channel and party but for the false misses (R331). -/
def rmeSeen (s : State) (window : Bool) (p : Nat) (errs : List RmeErr) : List (Nat × RmeEnt) :=
  (rmeEntries s window p).filter fun c => !(missedRows errs).contains c.1

/-- Entry a comes before entry b in a lookup: the longest prefix on the defect channel (R317), the highest priority
and then the lowest index on the window channel (R320). -/
def rmeBefore (a b : Nat × RmeEnt) : Bool :=
  if a.2.window then decide (a.2.prio > b.2.prio) || (a.2.prio == b.2.prio && decide (a.1 < b.1))
  else decide (a.2.len > b.2.len)

/-- The first match of a key. -/
def rmeFirst (l : List (Nat × RmeEnt)) (x : Nat) : Option (Nat × RmeEnt) :=
  (l.filter fun (c : Nat × RmeEnt) => rmeCovers c.2 x).foldl (fun (b : Option (Nat × RmeEnt)) c => match b with
    | some d => if rmeBefore c d then some c else b
    | none => some c) none

/-- RUN (R319): how many LBAs from x keep the same outcome. -/
def rmeRun (l : List (Nat × RmeEnt)) (x : Nat) (hit : Option (Nat × RmeEnt)) : Nat :=
  let stop := match hit with
    | some h => rmeStart h.2 + rmeSize h.2
    | none => 2 ^ 48
  let others := l.filter fun (c : Nat × RmeEnt) => decide (x < rmeStart c.2) && (match hit with
    | some h => rmeBefore c h
    | none => true)
  Nat.min (2 ^ 32 - 1) ((others.foldl (fun n (c : Nat × RmeEnt) => Nat.min n (rmeStart c.2)) stop) - x)

/-- The outcome of a lookup: 0 HIT, 1 MISS, 2 REFUSED, 3 FAULT. -/
structure RmeRes where
  result : Nat
  hit : Option (Nat × RmeEnt) := none
  out : Option Nat := none
  run : Nat := 0
  repairs : Nat := 0
  deriving DecidableEq, Repr

/-- Record 0x0906 (Table 13.5). -/
def State.rmeRecord (s : State) (idx : Nat) (window : Bool) (kind port attempt key : Nat) (party : Nat) : State :=
  s.event 0x0906 party (leBytes 2 idx ++ leBytes 1 (if window then 1 else 0) ++ leBytes 1 kind ++ leBytes 1 port ++
    leBytes 1 attempt ++ zeros 2 ++ leBytes 8 key)

/-- A shadow fails its parity (R329): the channel is faulty. -/
def State.rmeShadowFault (s : State) (idx : Nat) (window : Bool) : State :=
  let s := (s.inc F.RME_CNT_SHPE_CNT).raiseBit F.RME_FLAG_SHPE
  if window then (s.setIn F.RME_STAT_CHFAULT 1).put F.RME_FIDX_WIDX idx
  else (s.setIn F.RME_STAT_CHFAULT 0).put F.RME_FIDX_DIDX idx

/-- The soft errors a lookup meets, attempt by attempt (R328, R329): the repairs made, or none for FAULT. A false
miss is met by nothing and reports nothing (R331). -/
def State.rmeErrors (window : Bool) (port key party : Nat) : List RmeErr → Nat → State → Option Nat × State
  | [], n, s => (some n, s)
  | e :: es, n, s =>
    if e.kind = 5 then State.rmeErrors window port key party es n s else
    let s := s.rmeRecord e.idx.toNat window e.kind.toNat port (n + 1) key party
    if e.kind = 4 then (none, s.rmeShadowFault e.idx.toNat window)
    else
      let s := if e.kind = 1 then (s.inc F.RME_CNT_FH_CNT).raiseBit F.RME_FLAG_FH
               else (s.inc F.RME_CNT_RPE_CNT).raiseBit F.RME_FLAG_RPE
      if n + 1 ≥ 3 then (none, s) else State.rmeErrors window port key party es (n + 1) s

/-- A channel is faulty (R329). -/
def chFaulty (s : State) (window : Bool) : Bool := s.bit F.RME_STAT_CHFAULT (if window then 1 else 0)

/-- A defect lookup (R317, R327). -/
def State.defectLookup (s : State) (x port : Nat) (errs : List RmeErr) : RmeRes × State :=
  if ¬ s.on F.RME_CTL_DREADY ∨ chFaulty s false then ({ result := 3 }, s) else
  let ans := s.rmeErrors false port x 0xFF errs 0
  let s := ans.2
  match ans.1 with
  | none => ({ result := 3 }, s)
  | some n =>
    let l := rmeSeen s false 0 errs
    let h := rmeFirst l x
    let run := rmeRun l x h
    match h with
    | some (i, e) => ({ result := 0, hit := some (i, e), out := some (if e.ident then x else rmeOut e x), run, repairs := n }, s)
    | none => ({ result := 1, out := some x, run, repairs := n }, s)

/-- A window lookup of party p with the rights it needs (R320). -/
def State.windowLookup (s : State) (p x rreq port : Nat) (errs : List RmeErr) : RmeRes × State :=
  if chFaulty s true then ({ result := 3 }, s) else
  let ans := s.rmeErrors true port x p errs 0
  let s := ans.2
  match ans.1 with
  | none => ({ result := 3 }, s)
  | some n =>
    let l := rmeSeen s true p errs
    let h := rmeFirst l x
    let run := rmeRun l x h
    match h with
    | some (i, e) =>
      if e.rights &&& rreq = rreq then ({ result := 0, hit := some (i, e), out := some (rmeOut e x), run, repairs := n }, s)
      else ({ result := 2, hit := some (i, e), run, repairs := n }, s)
    | none => ({ result := 1, run, repairs := n }, s)

/-- What a refused lookup leaves (R321, R329): REFUSE_CNT, REFUSE and record 0x0502 (Table 17.7). -/
def State.rmeRefuse (s : State) (p x rreq port ring cid : Nat) (r : RmeRes) : State :=
  let s := (s.inc F.RME_CNT2_REFUSE_CNT).raiseBit F.RME_FLAG_REFUSE
  s.event 0x0502 p (leBytes 8 x ++ leBytes 1 rreq ++ leBytes 1 r.result ++ leBytes 1 port ++ leBytes 1 ring ++
    leBytes 2 cid ++ leBytes 2 (match r.hit with | some h => h.1 | none => 0xFFFF))

/-- Show a lookup in a bank (Table 13.7). What the outcome gives no value is open (DESIGN CHOICE, log entry 66). -/
def State.rmeResult (s : State) (m : Master) (r : RmeRes) : State :=
  let s := ((s.wr (R.RME_LRES0 m) 0).put (F.RME_LRES0_RESULT m) r.result).put (F.RME_LRES0_REPAIRS m) r.repairs
  let s := match r.hit with
    | some (i, e) => ((s.put (F.RME_LRES0_RIGHTS m) e.rights).putB (F.RME_LRES0_IDENT m) e.ident).put (F.RME_LRES0_INDEX m) i
    | none => s.openFlds [F.RME_LRES0_RIGHTS m, F.RME_LRES0_IDENT m, F.RME_LRES0_INDEX m]
  let s := match r.out with
    | some x => (s.put (F.RME_LRES1_OUT m) x).put (F.RME_LRES2_OUT m) (x / 4294967296)
    | none => s.openFlds [F.RME_LRES1_OUT m, F.RME_LRES2_OUT m]
  let s := match r.hit with
    | some (_, e) => (s.put (F.RME_LRES2_PRIO m) e.prio).put (F.RME_LRES2_LEN m) e.len
    | none => s.openFlds [F.RME_LRES2_PRIO m, F.RME_LRES2_LEN m]
  if r.result = 3 then s.openFlds [F.RME_LRES3_RUN m] else s.put (F.RME_LRES3_RUN m) r.run

/-- The key in a bank's RME_LKEY. -/
def rmeKey (s : State) (m : Master) : Nat := s.get (F.RME_LKEY_LO_LBA m) + s.get (F.RME_LKEY_HI_LBA m) * 4294967296

/-- Run a bank's lookup: CH, PARTY, RREQ and REPORT from the word written to RME_LCMD. -/
def State.rmeBankLookup (s : State) (m : Master) (v : Word) (errs : List RmeErr) : State :=
  let x := rmeKey s m
  if bitsOf v 0 0 = 0 then
    let ans := s.defectLookup x m.idx errs
    let r := ans.1
    let s := ans.2
    s.rmeResult m r
  else
    let p := bitsOf v 4 1
    let ans := s.windowLookup p x (bitsOf v 7 5) m.idx errs
    let r := ans.1
    let s := ans.2
    let s := if r.result ≠ 0 ∧ bitsOf v 8 8 = 1 then s.rmeRefuse p x (bitsOf v 7 5) m.idx 0xFF 0 r else s
    s.rmeResult m r

/-! ### Commits (R316, R318, R320, R322 to R325) -/

/-- A staged slot: its index, whether it names the window channel, and the entry it writes. -/
structure RmeStg where
  idx : Nat
  window : Bool
  ent : Option RmeEnt
  deriving DecidableEq, Repr

/-- Read staging slot k of a bank. -/
def rmeSlot (s : State) (m : Master) (k : Nat) : RmeStg :=
  let win := s.on (F.RME_STG_04_CH m k)
  { idx := s.get (F.RME_STG_10_INDEX m k), window := win
    ent := if s.on (F.RME_STG_04_VALID m k) then some
      { window := win, key := s.get (F.RME_STG_00_KEY_LO m k) + s.get (F.RME_STG_04_KEY_HI m k) * 4294967296
        len := s.get (F.RME_STG_04_LEN m k), party := s.get (F.RME_STG_04_PARTY m k)
        base := s.get (F.RME_STG_08_BASE_LO m k) + s.get (F.RME_STG_0C_BASE_HI m k) * 4294967296
        ident := s.on (F.RME_STG_0C_IDENT m k), rights := s.get (F.RME_STG_0C_RIGHTS m k)
        prio := s.get (F.RME_STG_0C_PRIO m k) } else none }

/-- R316 on one entry. -/
def rmeBad (e : RmeEnt) : Bool :=
  decide (e.len > 48) || decide (e.key % rmeSize e ≠ 0) || decide (e.base % rmeSize e ≠ 0) ||
    (e.ident && e.base != 0) || (if e.window then e.ident else e.party != 0 || e.rights != 0 || e.prio != 0)

/-- R316 on slot number k of a batch, with the slots before it. -/
def rmeArgBad (l : List RmeStg) (k : Nat) (x : RmeStg) : Bool :=
  (match x.ent with | some e => rmeBad e | none => false) || ((l.take k).any fun y => y.idx == x.idx)

/-- The table of entries. -/
abbrev RmeTab := Tab (Option RmeEnt)

/-- Apply a batch. -/
def rmeApply (t : RmeTab) (l : List RmeStg) : RmeTab := l.foldl (fun t x => tabPut t none x.idx x.ent) t

/-- Another valid entry has the same key (R318, R320). -/
def rmeDup (t : RmeTab) (x : RmeStg) : Bool :=
  match x.ent with
  | none => false
  | some e => t.any fun c => c.1 != x.idx && (match c.2 with
    | some f => f.window == e.window && f.key == e.key && f.len == e.len &&
        (!e.window || (f.party == e.party && f.prio == e.prio))
    | none => false)

/-- A window entry's media range meets one of another party (R322). -/
def rmeOverlap (t : RmeTab) (idx : Nat) (e : RmeEnt) : Bool :=
  e.window && t.any fun c => c.1 != idx && (match c.2 with
    | some f => f.window && f.party != e.party && rangesMeet f.base (rmeSize f) e.base (rmeSize e)
    | none => false)

/-- A master may commit a slot (R323): defect entries SEC and MC, window entries SEC alone. A slot that deletes or
replaces a window entry counts as one that names the window channel (DEDUCED, log entry 25). -/
def rmeMay (s : State) (m : Master) (x : RmeStg) : Bool :=
  match m with
  | .sec => true
  | .mc => !x.window && (match tabGet s.rme.ents none x.idx with | some e => !e.window | none => true)
  | .hc0 => false
  | .hc1 => false
  | .sv => false

/-- The first slot that fails a check. -/
def firstBad (l : List RmeStg) (f : Nat → RmeStg → Bool) : Option Nat :=
  ((List.range l.length).find? fun k => match l[k]? with | some x => f k x | none => false)

/-- The window entries that a batch adds, removes or rewrites: old and new versions. -/
def rmeChanged (t : RmeTab) (l : List RmeStg) : List RmeEnt :=
  l.flatMap fun x =>
    let old := tabGet t none x.idx
    let pick (o : Option RmeEnt) : List RmeEnt := match o with | some e => if e.window then [e] else [] | none => []
    pick old ++ pick x.ent

/-- The ranges of party p's revoke notice (R324). -/
def rmeNotice (t : RmeTab) (ch : List RmeEnt) (p : Nat) : List (Nat × Nat) :=
  let mine := ch.filter fun e => e.party == p
  let near := t.filterMap fun c => match c.2 with
    | some e => if e.window && e.party == p && mine.any (fun f => rangesMeet (rmeStart e) (rmeSize e) (rmeStart f) (rmeSize f))
        then some e else none
    | none => none
  ((mine ++ near).map fun e => (e.base, e.base + rmeSize e)).eraseDups

/-- Give party p its notice; the answer is the number of ranges, or none for a whole-party notice. -/
def State.rmeNotify (s : State) (ch : List RmeEnt) (p : Nat) : Option Nat × State :=
  let rs := rmeNotice s.rme.ents ch p
  if rs.length > 8 then (none, s.revoke p none) else (some rs.length, s.revoke p (some rs))

/-- Show a commit's result (Table 13.8). -/
def State.rmeSres (s : State) (m : Master) (result slot notices : Nat) : State :=
  (((s.wr (R.RME_SRES m) 0).put (F.RME_SRES_RESULT m) result).put (F.RME_SRES_SLOT m) slot).put (F.RME_SRES_NOTICES m) notices

/-- Unit x of party p lies in one of the spans. -/
def inSpans (l : List (Nat × Nat × Nat)) (p x : Nat) : Bool :=
  l.any fun y => y.1 == p && decide (y.2.1 ≤ x) && decide (x < y.2.1 + y.2.2)

/-- Party p's spans without [x, x + n). -/
def cutSpans (l : List (Nat × Nat × Nat)) (p x n : Nat) : List (Nat × Nat × Nat) :=
  l.flatMap fun y => if y.1 = p ∧ rangesMeet y.2.1 y.2.2 x n then
      [(p, y.2.1, x - y.2.1), (p, x + n, y.2.1 + y.2.2 - (x + n))].filter fun z => z.2.2 != 0
    else [y]

/-- The media spans of a batch's window entries: party, first media LBA, count. -/
def rmeSpans (l : List RmeStg) : List (Nat × Nat × Nat) :=
  l.filterMap fun x => x.ent.bind fun e => if e.window then some (e.party, e.base, rmeSize e) else none

/-- The parts of a party's span that other parties have held. -/
def heldBefore (owned : List (Nat × Nat × Nat)) (x : Nat × Nat × Nat) : List (Nat × Nat × Nat) :=
  owned.filterMap fun y => if y.1 ≠ x.1 ∧ rangesMeet y.2.1 y.2.2 x.2.1 x.2.2 then
      let lo := Nat.max y.2.1 x.2.1
      some (x.1, lo, Nat.min (y.2.1 + y.2.2) (x.2.1 + x.2.2) - lo)
    else none

/-- Drive firmware records the media that a window commit moves from one party to another (R415). -/
def State.mediaMoves (s : State) (l : List (Nat × Nat × Nat)) : State :=
  { s with uqi := { s.uqi with
    moved := (s.uqi.moved ++ l.flatMap fun x => heldBefore s.uqi.owned x).eraseDups
    owned := (s.uqi.owned ++ l).eraseDups } }

/-- The commit point (R323 to R325, R329). -/
def State.rmeCommitPoint (s : State) (m : Master) (l : List RmeStg) : State :=
  let ch := rmeChanged s.rme.ents l
  let s := ({ s with rme := { s.rme with ents := rmeApply s.rme.ents l } } : State).mediaMoves (rmeSpans l)
  let s := State.each (fun (x : RmeStg) s =>
    let s := if s.bit F.RME_STAT_CHFAULT 0 && s.get F.RME_FIDX_DIDX == x.idx then s.clrIn F.RME_STAT_CHFAULT 0 else s
    if s.bit F.RME_STAT_CHFAULT 1 && s.get F.RME_FIDX_WIDX == x.idx then s.clrIn F.RME_STAT_CHFAULT 1 else s) l s
  let ps := (ch.map fun e => e.party).eraseDups
  let ans := ps.foldl (fun (a : Option Nat × State) p =>
    (match a.1, (a.2.rmeNotify ch p).1 with | some i, some j => some (i + j) | _, _ => none, (a.2.rmeNotify ch p).2)) (some 0, s)
  let n := ans.1
  let s := ans.2
  let s := if ps = [] then s
    else ({ s with rme := { s.rme with held := (s.rme.held ++ ps).eraseDups } } : State).raiseBit F.RME_STAT_HOLD
  s.rmeSres m 0 0 (n.getD 0xFF)

/-- The RESULT of a slot of a batch that leaves the table t, 0 if it passes: who may commit it, then R316, R318 with R320, and
R322. -/
def rmeFault (s : State) (m : Master) (l : List RmeStg) (t : RmeTab) (k : Nat) (x : RmeStg) : Nat :=
  if ¬ rmeMay s m x then 3
  else if rmeArgBad l k x then 1
  else if rmeDup t x then 2
  else if s.on F.RME_STAT_WLOCKED && (match x.ent with | some e => rmeOverlap t x.idx e | none => false) then 4
  else 0

/-- COMMIT of staging slots 0 to n - 1 of a bank (R323): the first slot that fails is named with its failure (Table 13.8), or
all take effect at the commit point. -/
def State.rmeCommit (s : State) (m : Master) (n : Nat) : State :=
  let l := (List.range n).map fun k => rmeSlot s m k
  let t := rmeApply s.rme.ents l
  match firstBad l (fun k x => rmeFault s m l t k x != 0) with
  | some k => s.rmeSres m (rmeFault s m l t k (rmeSlot s m k)) k 0
  | none => s.rmeCommitPoint m l

/-- A bank is BUSY: a command of it waits. -/
def rmeBusy (s : State) (m : Master) (commit : Bool) : Bool :=
  s.rme.waiting.any fun w => w.m == m && w.commit == commit

/-- A bank's command waits, with BUSY = 1. -/
def State.rmeWait (s : State) (w : RmeWait) : State :=
  let s := { s with rme := { s.rme with waiting := s.rme.waiting ++ [w] } }
  if w.commit then s.raiseBit (F.RME_SRES_BUSY w.m) else s.raiseBit (F.RME_LRES0_BUSY w.m)

/-- A waiting command must still wait: BUFCK is gated, or its party is held. -/
def rmeBlocked (s : State) (w : RmeWait) : Bool :=
  !firnAwake s || (!w.commit && bitsOf w.v 0 0 == 1 && s.rme.held.contains (bitsOf w.v 4 1))

/-- Run a bank's command, or let it wait (R315, R325). -/
def State.rmeIssue (s : State) (w : RmeWait) : State :=
  if rmeBlocked s w then s.rmeWait w
  else if w.commit then s.rmeCommit w.m (bitsOf w.v 4 2 + 1)
  else s.rmeBankLookup w.m w.v w.errs

/-- Run the waiting commands that need wait no longer, in order. -/
def State.rmeWake (s : State) : State :=
  State.each (fun (w : RmeWait) s => s.rmeIssue w) s.rme.waiting { s with rme := { s.rme with waiting := [] } }

/-- The numbers of valid entries (RME_USE). -/
def rmeUsed (s : State) (window : Bool) : Nat :=
  (s.rme.ents.filter fun (c : Nat × Option RmeEnt) => match c.2 with | some e => e.window == window | none => false).length

end Sys2Proof.Machine
end

