-- ==== Sys2Proof/Machine/PortOps.lean ====
section
/-! DEFINITION. The two PCIe functions: when a port is up, the host address check, what a request splits into, and
MSI-X messages (R357 to R360, R370). -/

namespace Sys2Proof.Machine

open Sys2Proof

def State.setPort (s : State) (q : Nat) (p : Port) : State := { s with ports := tabPut s.ports {} q p }

def State.onPort (s : State) (q : Nat) (f : Port → Port) : State := s.setPort q (f (s.port q))

/-- The conditions under which a port is up (R358): both are down in RETREAT, and there is no port B with PCIE_X2. -/
def portUp (s : State) (q : Nat) : Bool :=
  let p := s.port q
  p.dl && p.perst && p.bme && !p.d3 && decide (s.mode ≠ mRETREAT) && decide (s.mode ≠ mOFF) && (q == 0 || !x2 s)

/-- The ranges [a, a + n) and [b, b + m) meet. -/
def spansMeet (a n b m : Nat) : Bool := decide (a < b + m) && decide (b < a + n) && decide (0 < n) && decide (0 < m)

/-- Window k of the host address check holds the range (R360). -/
def inWindow (s : State) (k a n : Nat) : Bool :=
  let base := s.get (F.HMW_0_BASE_LO k) * 4096 + s.get (F.HMW_4_BASE_HI k) * 4294967296
  let last := s.get (F.HMW_8_LIM_LO k) * 4096 + s.get (F.HMW_C_LIM_HI k) * 4294967296
  s.on (F.HMW_0_V k) && decide (base ≤ a) && decide (a + n ≤ last + 4096)

/-- The host address check of a range of n bytes (R360): the DETAIL of a refusal. A BAR0 of 0 is not programmed. -/
def hostCheck (s : State) (a n : Nat) : Option Nat :=
  let hits := fun q => decide ((s.port q).bar ≠ 0) && spansMeet a n (s.port q).bar.toNat 0x4000
  if hits 0 ∨ (hits 1 ∧ ¬ x2 s) then some 1
  else if s.on F.HMWCTL_EN ∧ ¬ ((List.range 8).any fun k => inWindow s k a n) then some 2
  else if a + n > 2 ^ 64 then some 3
  else none

/-- A refusal is counted (Table 15.14). -/
def State.hostRefused (s : State) : State := (s.inc F.UQI_CNT_HOSTREF_CNT).raiseBit F.UQI_EVT_HOSTREF

/-- The device sends a TLP on a port, which is in L0 for it (R102). -/
def State.send (s : State) (q : Nat) (o : Out) : State := (s.onPort q fun p => { p with l1 := false }).emit o

def maxPayload (p : Port) : Nat := 128 * 2 ^ p.mps.toNat
def maxRead (p : Port) : Nat := 128 * 2 ^ p.mrrs.toNat

/-- How many bytes from host address a the next request may hold, of n: it ends at a multiple of m and at a 4 KiB
boundary (R339). -/
def requestLen (a n m : Nat) : Nat := Nat.min n (Nat.min (m - a % m) (4096 - a % 4096))

/-- Cut the bytes for host address a into write TLPs (R339). -/
def cutTlps (m : Nat) (data : Bool) : Nat → Nat → List Byte → List HostTlp
  | 0, _, _ => []
  | fuel + 1, a, bs =>
    if bs.isEmpty then [] else
    let n := requestLen a bs.length m
    { data, addr := a, bytes := bs.take n } :: cutTlps m data fuel (a + n) (bs.drop n)

/-- The read requests for n bytes from host address a, rounded outward to doublewords, as address and length (R339). -/
def cutReads (m : Nat) : Nat → Nat → Nat → List (Nat × Nat)
  | 0, _, _ => []
  | fuel + 1, a, n =>
    if n = 0 then [] else
    let k := requestLen a n m
    (a / 4 * 4, (a + k + 3) / 4 * 4 - a / 4 * 4) :: cutReads m fuel (a + k) (n - k)

/-- Read n bytes of host memory on port q (R339). -/
def State.sendReads (s : State) (q a n : Nat) : State :=
  State.each (fun (r : Nat × Nat) s => s.send q (.hostRead q r.1 r.2)) (cutReads (maxRead (s.port q)) n a n) s

/-- The vector control word of an MSI-X vector; vectors are masked at reset. -/
def msixControl (p : Port) (v : Nat) : Word := Sparse.read (fun k => if k % 4 = 3 then 1 else 0) p.table (4 * v + 3)

/-- Send an MSI-X message on a port, or set its pending bit (R370). -/
def State.msix (s : State) (q v : Nat) : State :=
  let p := s.port q
  if p.msixEn && !p.fmask && (msixControl p v).toNat % 2 == 0 && portUp s q && s.mode != mTHAW then s.send q (.msix q v)
  else s.setPort q { p with pba := p.pba ||| BitVec.ofNat 32 (2 ^ v) }

/-- Send the messages of pending vectors that are masked no longer (R370). -/
def State.msixPending (s : State) (q : Nat) : State :=
  State.each (fun v s =>
    let p := s.port q
    if p.pba.getLsbD v && p.msixEn && !p.fmask && (msixControl p v).toNat % 2 == 0 && portUp s q && s.mode != mTHAW then
      (s.setPort q { p with pba := p.pba &&& ~~~(BitVec.ofNat 32 (2 ^ v)) }).send q (.msix q v)
    else s) (List.range 32) s

end Sys2Proof.Machine
end

