-- ==== Sys2Proof/Machine/DmaOps.lean ====
section
/-! DEFINITION. The data movers' shared operations: descriptors and their checks, side entries, the CRY engine, what
each pair of ends moves, halts and writebacks (R334 to R354). -/

namespace Sys2Proof.Machine

open Sys2Proof

def State.chan (s : State) (c : Nat) : Chan := tabGet s.dma {} c

def State.setChan (s : State) (c : Nat) (k : Chan) : State := { s with dma := tabPut s.dma {} c k }

def State.onChan (s : State) (c : Nat) (f : Chan → Chan) : State := s.setChan c (f (s.chan c))

/-! ### Channel states (R335) -/

def chIDLE : Nat := 0
def chRUN : Nat := 1
def chHELD : Nat := 2
def chHALTED : Nat := 3

def chState (s : State) (c : Nat) : Nat := s.get (F.CHSTAT_STATE c)

/-- Enter a channel state; BUSY shows RUN and HELD. -/
def State.chEnter (s : State) (c st : Nat) : State :=
  let s := s.put (F.CHSTAT_STATE c) st
  if st = chRUN ∨ st = chHELD then s.setIn F.DMA_STAT_BUSY c else s.clrIn F.DMA_STAT_BUSY c

/-- The owner code of a core (Table 14.8). -/
def ownerCode : Master → Nat
  | .sec => 1
  | .hc0 => 2
  | .hc1 => 3
  | .mc => 4
  | .sv => 8

def chOwner (s : State) (c : Nat) : Nat := s.get (F.CHCFG_OWNER c)

/-! ### Descriptors (R336, R337) -/

/-- The fields of a descriptor that its owner writes (Table 14.2). -/
structure Dsc where
  src : Nat
  dst : Nat
  xts : Bool
  party : Nat
  port : Nat
  chain : Bool
  crccont : Bool
  irq : Bool
  tag : Nat
  len : Nat
  saddr : Nat
  daddr : Nat
  hmd : Nat
  xlba : Nat
  next : Nat
  /-- A reserved bit of its first two words is set. -/
  reserved : Bool
  deriving DecidableEq, Repr

def dscOf (bs : List Byte) : Dsc :=
  let w := BitVec.ofNat 32 (leNat (slice bs 0 4))
  let b (n : Nat) : Bool := w.getLsbD n
  { src := bitsOf w 2 0, dst := bitsOf w 5 3, xts := b 6, party := bitsOf w 11 8, port := bitsOf w 12 12, chain := b 13,
    crccont := b 14, irq := b 15, tag := bitsOf w 22 16, len := leNat (slice bs 4 3), saddr := leNat (slice bs 8 8),
    daddr := leNat (slice bs 16 8), hmd := leNat (slice bs 24 8), xlba := leNat (slice bs 32 8),
    next := leNat (slice bs 40 4), reserved := b 7 || bitsOf w 31 23 != 0 || leNat (slice bs 7 1) != 0 }

/-- The bytes 0x00 to 0x2B of a descriptor, and zeroes after them. -/
def dscBytes (d : Dsc) : List Byte :=
  leBytes 4 (d.src + d.dst * 8 + (if d.xts then 64 else 0) + d.party * 256 + d.port * 4096 + (if d.chain then 8192 else 0) +
    (if d.crccont then 16384 else 0) + (if d.irq then 32768 else 0) + d.tag * 65536) ++ leBytes 4 d.len ++
  leBytes 8 d.saddr ++ leBytes 8 d.daddr ++ leBytes 8 d.hmd ++ leBytes 8 d.xlba ++ leBytes 4 d.next ++ zeros 20

def eBUFFER : Nat := 1
def eHOST : Nat := 2
def eCHANNEL : Nat := 3
def eSTORE : Nat := 4
def eZERO : Nat := 5

def State.dsc (s : State) (c : Nat) : Dsc := dscOf (s.chan c).desc

/-- The address at the buffer end. -/
def bufEnd (d : Dsc) : Nat := if d.dst = eBUFFER then d.daddr else d.saddr

def hostEnd (d : Dsc) : Bool := d.src == eHOST || d.dst == eHOST
def chanEnd (d : Dsc) : Bool := d.src == eCHANNEL || d.dst == eCHANNEL
def storeEnd (d : Dsc) : Bool := d.src == eSTORE || d.dst == eSTORE

/-- The region of Table 12.1 that holds an address: 1 and 2 the frame area, 3 metadata entries, 4 the general region;
none for a reserved span and outside the Buffer die. -/
def bufRegion (a : Nat) : Option Nat :=
  if 0x80000000 ≤ a ∧ a < 0xC0000000 then some 1
  else if 0xC0000000 ≤ a ∧ a < 0xC0C00000 then some 2
  else if 0xC0C00000 ≤ a ∧ a < 0xC0C30000 then some 3
  else if 0xC1000000 ≤ a ∧ a < 0xC4000000 then some 4
  else none

/-- The address of a descriptor: the shared pool or the general region, aligned to 64 bytes (R336). -/
def dscAddrOk (a : Nat) : Bool :=
  a % 64 == 0 && (inPool a || bufRegion a == some 4)

/-- Memory that holds descriptors. -/
def State.dmaBytes (s : State) (a n : Nat) : List Byte := if a < 0x80000000 then s.sramBytes a n else s.bufBytes a n
def State.dmaWrite (s : State) (a : Nat) (bs : List Byte) : State :=
  if a < 0x80000000 then s.poolWrite a bs else if bufRegion a = some 4 then s.bufWrite a bs else s

def inFrames (a : Nat) : Bool := (frameOf a).isSome

/-- Frame and sector index of an address in the frame area. -/
def sectorIdx (a : Nat) : Nat := a % 0x40000 / 4096

def pairListed (d : Dsc) : Bool :=
  [(1, 2), (2, 1), (1, 3), (3, 1), (1, 4), (4, 1), (1, 1), (5, 1)].contains (d.src, d.dst)

/-- HMD may be non-zero: HOST and BUFFER, the buffer end 4096-aligned in the frame area, LEN a multiple of 4096. -/
def hmdAllowed (d : Dsc) : Bool :=
  hostEnd d && bufEnd d % 4096 == 0 && inFrames (bufEnd d) && d.len % 4096 == 0

/-- A STORE end outside the window that its pair is listed with in Table 14.3 (DEDUCED, log entry 27). -/
def outsideWindow (d : Dsc) : Bool :=
  let o := if d.dst = eSTORE then d.daddr else d.saddr
  let lo := if d.dst = eSTORE then 0x30000000 else 0x20000000
  storeEnd d && !(decide (lo ≤ o) && decide (o + d.len ≤ lo + 0x10000000))

/-- BADDESC (R338). -/
def badDesc (s : State) (d : Dsc) : Bool :=
  !pairListed d || d.reserved || d.len == 0 || ((d.src == eCHANNEL || d.src == eZERO) && d.saddr != 0) ||
  (d.dst == eCHANNEL && d.daddr != 0) || (d.port == 1 && x2 s) || (d.hmd != 0 && !hmdAllowed d) ||
  (d.xts && !(chanEnd d || storeEnd d)) || outsideWindow d

/-- MISALIGN (Table 14.3); the frame that a CHANNEL end's column names is part of it. -/
def misaligned (d : Dsc) : Bool :=
  let b := bufEnd d
  let n := d.len
  if chanEnd d then
    !(b % 4096 == 0 && n % 4096 == 0 && inFrames b && decide (b % 0x40000 + n ≤ 0x40000))
  else if storeEnd d then
    let o := if d.dst = eSTORE then d.daddr else d.saddr
    let g := if d.xts then 4096 else 512
    !(b % g == 0 && o % g == 0 && n % g == 0)
  else if d.src = eBUFFER ∧ d.dst = eBUFFER then !(d.saddr % 64 == 0 && d.daddr % 64 == 0 && n % 64 == 0)
  else if d.src = eZERO then !(b % 64 == 0 && n % 64 == 0)
  else false

/-- A buffer range that no single region of Table 12.1 holds. -/
def badSpan (a n : Nat) : Bool := (bufRegion a).isNone || bufRegion a != bufRegion (a + n - 1)

/-- BUFADDR (R338). -/
def badBuf (d : Dsc) : Bool :=
  (d.src == eBUFFER && badSpan d.saddr d.len) || (d.dst == eBUFFER && badSpan d.daddr d.len)

/-- Why a descriptor may not use its key slot (R349, R351): the DETAIL of NOKEY. -/
def noKey (s : State) (p : Nat) : Option Nat :=
  if s.on F.CRY_STAT_KATFAIL then some 2 else if s.on (F.CRY_SLOT_READY p) then none else some 1

/-- The party of a MOP (Table 11.12). -/
def mopParty (s : State) (t : Nat) : Nat := s.get (F.MOP3_PARTY t)

/-- The checks made when a descriptor becomes current, in the order of the causes (R338, R341, R344, R349, R350):
cause and DETAIL of the halt. -/
def dscHalt (s : State) (d : Dsc) : Option (Nat × Nat) :=
  if badDesc s d then some (1, 0)
  else if misaligned d then some (2, 0)
  else if badBuf d then some (4, 0)
  else if d.xts ∧ (noKey s d.party).isSome then some (5, (noKey s d.party).getD 1)
  else if s.on F.DMA_CTL_XTSREQ ∧ (chanEnd d || storeEnd d) ∧ ¬ d.xts then some (6, 0)
  else if chanEnd d ∧ mopParty s d.tag ≠ d.party then some (7, mopParty s d.tag)
  else if chanEnd d ∧ ¬ s.on F.DMA_MDBASE_EN then some (8, 0)
  else if hostEnd d ∧ s.mode = mRETREAT then some (16, 0)
  else if hostEnd d ∧ ¬ portUp s d.port then some (15, 0)
  else none

/-! ### Side entries (R344 to R346) -/

/-- The address of the side entry of a frame sector. -/
def sideAddr (s : State) (a : Nat) : Nat :=
  s.get F.DMA_MDBASE_ADDR * 64 + 32 * (64 * (frameOf a).getD 0 + sectorIdx a)

/-- Side entries are in use for an address. -/
def sided (s : State) (a : Nat) : Bool := s.on F.DMA_MDBASE_EN && inFrames a

def sideBytes (s : State) (a : Nat) : List Byte := s.bufBytes (sideAddr s a) 32

def sideValid (e : List Byte) : Bool := leNat (slice e 0 1) % 2 == 1
def sideCrc (e : List Byte) : Nat := leNat (slice e 4 4)
def sidePi (e : List Byte) : List Byte := slice e 8 16

/-- A side entry with DVALID = 1. -/
def sideEntry (crc : Nat) (pi : List Byte) : List Byte := leBytes 4 1 ++ leBytes 4 crc ++ slice pi 0 16 ++ zeros 8

def State.setSide (s : State) (a : Nat) (e : List Byte) : State := if sided s a then s.bufWrite (sideAddr s a) e else s

/-- The base of the sector of an address. -/
def sectorBase (a : Nat) : Nat := a / 4096 * 4096

/-- The CRC-32C of a sector as the Buffer die holds it. -/
def sectorCrc (s : State) (a : Nat) : Nat := crc32c (s.bufBytes (sectorBase a) 4096)

/-- Write bytes that lie in one sector; where its side entry has DVALID = 1, DCRC follows the bytes replaced
(R346: the CRC is linear, so the new one is the old one with both sectors' CRCs laid over it). -/
def State.sectorWrite (s : State) (a : Nat) (bs : List Byte) : State :=
  let e := sideBytes s a
  if sided s a ∧ sideValid e then
    let c0 := sectorCrc s a
    let s := s.bufWrite a bs
    s.setSide a (overlay e 4 (leBytes 4 (sideCrc e ^^^ c0 ^^^ sectorCrc s a)))
  else s.bufWrite a bs

/-- The pieces of [a, a + n) that lie in one sector each, as offset and length. -/
def sectorPieces : Nat → Nat → Nat → Nat → List (Nat × Nat)
  | 0, _, _, _ => []
  | fuel + 1, a, o, n =>
    if n = 0 then [] else
    let k := Nat.min n (4096 - (a + o) % 4096)
    (o, k) :: sectorPieces fuel a (o + k) (n - k)

def piecesOf (a n : Nat) : List (Nat × Nat) := sectorPieces (n / 4096 + 2) a 0 n

/-- Write bytes into the Buffer die, sector by sector. -/
def State.rangeWrite (s : State) (a : Nat) (bs : List Byte) : State :=
  State.each (fun (p : Nat × Nat) s => s.sectorWrite (a + p.1) (slice bs p.1 p.2)) (piecesOf a bs.length) s

/-- What stops a read of a piece of the Buffer die (R345, R310): the bytes before it, the cause and the sector index. -/
def pieceBad (s : State) (a : Nat) (ue : Option (BitVec 32)) (p : Nat × Nat) : Option (Nat × Nat × Nat) :=
  let x := a + p.1
  let checked := sided s x && sideValid (sideBytes s x)
  let lo := if checked then sectorBase x else x
  let hi := if checked then lo + 4096 else x + p.2
  let hit := match ue with
    | some u => spansMeet (u.toNat / 64 * 64) 64 lo (hi - lo)
    | none => false
  let i := if inFrames x then sectorIdx x else 0
  if hit then some (p.1, 10, i)
  else if checked && sectorCrc s x != sideCrc (sideBytes s x) then some (p.1, 9, i)
  else none

/-- The first thing that stops a read of n bytes at a. -/
def readBad (s : State) (a n : Nat) (ue : Option (BitVec 32)) : Option (Nat × Nat × Nat) :=
  (piecesOf a n).findSome? (pieceBad s a ue)

/-- An uncorrectable block that a read met is recorded (R310). -/
def State.ueIf (s : State) (cause : Nat) (ue : Option (BitVec 32)) : State :=
  match cause, ue with
  | 10, some u => s.bufferUE u.toNat 0x0C false
  | _, _ => s

/-! ### Progress, halts and writebacks (R342, R343, Table 14.4) -/

/-- The finalised CRC of a channel. -/
def chCrc (k : Chan) : Nat := k.crc.toNat ^^^ 0xFFFFFFFF

/-- The channel's CRC register continued over bytes. -/
def crcOver (k : Chan) (bs : List Byte) : Chan := { k with crc := BitVec.ofNat 32 (bs.foldl crc32cByte k.crc.toNat) }

/-- DONE moves on to n: the running CRC takes in the bytes, as they stand at the buffer end. -/
def State.chAdvance (s : State) (c n : Nat) : State :=
  let d := s.dsc c
  let o := s.get (F.CHDONE_DONE c)
  if n ≤ o then s else
  let k := crcOver (s.chan c) (s.bufBytes (bufEnd d + o) (n - o))
  ((s.setChan c k).put (F.CHDONE_DONE c) n).put (F.CHCRC_CRC c) (chCrc k)

/-- FULLMASK (Table 14.2): the sectors of the first frame that are wholly written and checked. -/
def fullMask (k : Chan) (d : Dsc) : Nat :=
  if d.dst = eBUFFER ∧ inFrames d.daddr then k.secs * 2 ^ sectorIdx d.daddr % 2 ^ 64 else 0

/-- Write back bytes 0x2C to 0x3F; a transfer of the UQI hardware has no descriptor in memory, and nothing is written where no
descriptor may lie (R17, R336). -/
def State.writeback (s : State) (c cause detail : Nat) : State :=
  let k := s.chan c
  if k.uqi ∨ ¬ dscAddrOk (s.get (F.CHDESC_ADDR c)) then s else
  s.dmaWrite (s.get (F.CHDESC_ADDR c) + 0x2C) (leBytes 4 (cause + 0x80 + detail * 256) ++
    leBytes 4 (s.get (F.CHDONE_DONE c)) ++ leBytes 4 (chCrc k) ++ leBytes 8 (fullMask k (dscOf k.desc)))

/-- What is left of a channel's activity when its descriptor ends or halts. -/
def quiet (k : Chan) : Chan :=
  { k with fetching := false, live := false, reqs := [], tlps := [], pages := [], stop := none, pi := [] }

/-- Count a halt (Table 14.8, Table 14.9). -/
def State.haltCount (s : State) (cause : Nat) : State :=
  if cause = 9 then s.inc F.DMA_CNT_E2E_CNT
  else if cause = 2 then s.inc F.DMA_CNT_MISALIGN_CNT
  else if cause = 17 then s.inc F.DMA_CNT_STOREF_CNT
  else if cause = 5 then s.inc F.CRY_CNT_NOKEY_CNT
  else if 11 ≤ cause ∧ cause ≤ 15 ∨ cause = 20 then s.inc F.DMA_CNT_HOSTERR_CNT
  else s

/-- A channel halts (R335): it writes back, if its descriptor may lie where it does, and raises HALT. -/
def State.chHalt (s : State) (c cause detail : Nat) : State :=
  let s := s.writeback c cause detail
  let s := ((s.put (F.CHSTAT_CAUSE c) cause).put (F.CHSTAT_DETAIL c) detail).chEnter c chHALTED
  (s.haltCount cause).setIn F.DMA_EVT_HALT c |>.onChan c quiet

/-- How many of the data bytes the first n TLPs carry. -/
def tlpData (l : List HostTlp) (n : Nat) : Nat :=
  (((l.take n).filter HostTlp.data).map fun (t : HostTlp) => t.bytes.length).foldl (fun a b => a + b) 0

/-- Send a list of write TLPs on a port. -/
def State.sendTlps (s : State) (q : Nat) (l : List HostTlp) : State :=
  State.each (fun (t : HostTlp) s => s.send q (.hostWrite q t.addr t.bytes)) l s

/-- A channel with a HOST destination stops at a TLP boundary: how many of its TLPs have left, and how many of those
the link partner has acknowledged, is open (DESIGN CHOICE, log entry 26). -/
def State.chStopHost (s : State) (c : Nat) : State :=
  let l := (s.chan c).tlps
  if l.isEmpty ∨ s.mode = mTHAW then s else
  let (v, s) := s.draw
  let (w, s) := s.draw
  let sent := v.toNat % (l.length + 1)
  let acked := w.toNat % (sent + 1)
  ((s.sendTlps (s.dsc c).port (l.take sent)).chAdvance c (s.get (F.CHDONE_DONE c) + tlpData l acked))

/-- Pages of a channel that wait in a bank are not programmed any more (R341). -/
def State.dropPages (s : State) (c : Nat) : State :=
  State.each (fun b s => s.setBank b { s.bank b with waiting := (s.bank b).waiting.filter fun (p : ProgOp) => p.req != .dma c })
    (List.range 16) s

/-- A channel halts before its descriptor has become current: nothing of it is done. -/
def State.chUnread (s : State) (c cause : Nat) : State :=
  (((s.onChan c fun k => { k with crc := 0xFFFFFFFF, desc := [], secs := 0 }).put (F.CHDONE_DONE c) 0).put (F.CHCRC_CRC c) 0).chHalt c cause 0

/-- A running channel stops with a cause at its next boundary (R354, R340, R353). -/
def State.chStop (s : State) (c cause : Nat) : State :=
  if (s.chan c).live then ((s.chStopHost c).dropPages c).chHalt c cause 0 else s.chUnread c cause

/-! ### Starting and ending descriptors (Table 14.1) -/

/-- A channel is to run the descriptor at an address: it fetches it, or holds while HOLD = 1. -/
def State.chGo (s : State) (c a : Nat) : State :=
  let s := s.put (F.CHDESC_ADDR c) a
  if s.on F.DMA_STAT_HOLD then s.chEnter c chHELD else (s.chEnter c chRUN).onChan c fun k => { k with fetching := true }

/-- CHSTART at an idle or halted channel. -/
def State.chStart (s : State) (c a : Nat) : State :=
  let s := if s.on F.DMA_STAT_HOLD then s else (s.put (F.CHSTAT_CAUSE c) 0).put (F.CHSTAT_DETAIL c) 0
  (s.onChan c fun k => { k with uqi := false }).chGo c a

/-- HOLD clears: held channels run (R353). -/
def State.dmaRelease (s : State) : State :=
  State.each (fun c s => if chState s c = chHELD then s.chGo c (s.get (F.CHDESC_ADDR c)) else s) (List.range 16)
    (s.clr F.DMA_STAT_HOLD)

/-- Everything a descriptor moves has been moved. -/
def chDone (s : State) (c : Nat) : Bool :=
  let k := s.chan c
  let d := dscOf k.desc
  let n := s.get (F.CHDONE_DONE c)
  k.live && (
    if d.dst = eHOST then k.stop.isNone
    else if d.src = eHOST then decide (n = d.len) && k.reqs.isEmpty && k.askedPi == (if d.hmd = 0 then 0 else d.len / 4096 * 16)
    else if d.src = eCHANNEL then decide (tabGet s.chn.passed 0 d.tag ≥ k.base + d.len / 4096)
    else if d.dst = eSTORE then k.pages.isEmpty
    else decide (n = d.len))

/-- A descriptor ends (R335, R342): posted writes leave, it is written back, and NEXT follows. -/
def State.chEnd (s : State) (c : Nat) : State :=
  let d := s.dsc c
  let s := if d.dst = eHOST then (s.sendTlps d.port (s.chan c).tlps).chAdvance c d.len else s
  -- The CRC of the range takes in the places of skipped sectors; DONE does not.
  let o := s.get (F.CHDONE_DONE c)
  let s := s.onChan c fun k => crcOver k (s.bufBytes (bufEnd d + o) (d.len - o))
  let s := (s.put (F.CHCRC_CRC c) (chCrc (s.chan c))).writeback c 0 0
  let s := (s.put (F.CHSTAT_CAUSE c) 0).put (F.CHSTAT_DETAIL c) 0
  let s := if d.irq then s.setIn F.DMA_EVT_DONE c else s
  let s := s.onChan c quiet
  if d.chain then s.chGo c d.next else s.chEnter c chIDLE

/-! ### Moves between internal ends -/

/-- Mark the sectors of [a, a + n) that lie wholly in it as written and checked, and set their side entries: `side`
gives an entry by offset in the range. -/
def State.wholeSectors (s : State) (c a n : Nat) (side : Nat → State → List Byte × State) : State :=
  State.each (fun (p : Nat × Nat) s =>
    if p.2 = 4096 ∧ inFrames (a + p.1) then
      let ans := side p.1 s
      let e := ans.1
      let s := ans.2
      (s.setSide (a + p.1) e).onChan c fun k => { k with secs := k.secs ||| 2 ^ ((a + p.1) / 4096 - a / 4096) }
    else s) (piecesOf a n) s

/-- The entry of a sector written whole with bytes the device computed or received: DCRC computed, HOSTPI given. -/
def freshSide (a : Nat) (pi : Nat → List Byte) (o : Nat) (s : State) : List Byte × State :=
  (sideEntry (sectorCrc s (a + o)) (pi o), s)

/-- The entry of a sector copied from the buffer (R346): the source sector's. Where the source has none or is two sectors,
DVALID, DCRC and HOSTPI are open (DESIGN CHOICE, log entry 89) and the reserved fields 0 (R12). -/
def copySide (src : Nat) (o : Nat) (s : State) : List Byte × State :=
  if sided s (src + o) ∧ (src + o) % 4096 = 0 then (sideBytes s (src + o), s) else
  let ans := s.drawBytes 3
  (leBytes 4 (leNat (slice ans.1 0 1) % 2) ++ slice ans.1 4 20 ++ zeros 8, ans.2)

/-- BUFFER to BUFFER and ZERO to BUFFER. -/
def State.moveInside (s : State) (c : Nat) (ue : Option (BitVec 32)) : State :=
  let d := s.dsc c
  let bad := if d.src = eZERO then none else readBad s d.saddr d.len ue
  let n := match bad with
    | some b => b.1
    | none => d.len
  let bs := if d.src = eZERO then zeros n else s.bufBytes d.saddr n
  let sides := (piecesOf d.daddr n).foldl (fun (a : List (Nat × List Byte) × State) p =>
    if d.src = eZERO then a else ((p.1, (copySide d.saddr p.1 a.2).1) :: a.1, (copySide d.saddr p.1 a.2).2)) ([], s)
  let s := sides.2.rangeWrite d.daddr bs
  let s := s.wholeSectors c d.daddr n (fun o s =>
    if d.src = eZERO then freshSide d.daddr (fun _ => zeros 16) o s
    else (((sides.1.find? fun (x : Nat × List Byte) => x.1 == o).map Prod.snd).getD (zeros 32), s))
  let s := s.chAdvance c n
  match bad with
  | some b => (s.ueIf b.2.1 ue).chHalt c b.2.1 b.2.2
  | none => s

/-- The bytes of n sectors through the CRY engine, from data unit u on (R348). -/
def cryBytes (s : State) (encrypt : Bool) (p u n : Nat) (bs : List Byte) : List Byte :=
  (List.range n).flatMap fun j => xts encrypt (tabGet s.cry.keys [] p) (u + j) (slice bs (4096 * j) 4096)

/-- STORE to BUFFER: a sector whose erase is INCOMPLETE or suspended gives a read error (R168). -/
def State.moveFromStore (s : State) (c : Nat) : State :=
  let d := s.dsc c
  let g := if d.xts then 4096 else 512
  let bad := (List.range (d.len / g)).find? fun i => sectorUnsure s (d.saddr + g * i)
  let n := match bad with
    | some i => g * i
    | none => d.len
  let s := State.each (fun b s => if (List.range (d.len / 512)).any (fun i => bankOf (d.saddr + 512 * i) == b) then s.wakeBank b else s)
    (List.range 16) s
  let bs := s.stoBytes d.saddr n
  let bs := if d.xts then cryBytes s false d.party d.xlba (n / 4096) bs else bs
  let s := (s.rangeWrite d.daddr bs).wholeSectors c d.daddr n (freshSide d.daddr fun _ => zeros 16)
  let s := s.chAdvance c n
  match bad with
  | some i => (s.stoCapture 15 (.dma c) (d.saddr + g * i)).chHalt c 17 15
  | none => s

/-- The words of a page as the window takes them. -/
def pageCells (bs : List Byte) : List (Nat × Byte) := bs.mapIdx fun i b => (i, b)

/-- The pages before a sector that failed its check are programmed: the channel halts with the check's cause. -/
def State.storeStop (s : State) (c : Nat) : State :=
  let k := s.chan c
  match k.stop with
  | some (cause, detail) => if k.live ∧ (dscOf k.desc).dst = eSTORE ∧ k.pages.isEmpty then s.chHalt c cause detail else s
  | none => s

/-- A page has been programmed: DONE is the prefix of programmed pages (R342). -/
def State.dmaPageDone (s : State) (c page : Nat) : State :=
  let k := s.chan c
  let d := dscOf k.desc
  if k.live ∧ d.dst = eSTORE ∧ k.pages.contains page then
    let left := k.pages.filter (· != page)
    let s := s.setChan c { k with pages := left }
    (s.chAdvance c (match left with
      | p :: _ => p - (d.daddr - 0x10000000)
      | [] => k.asked)).storeStop c
  else s

/-- A page was refused or failed: the channel halts with STOREF (R341). -/
def State.dmaStoreFault (s : State) (c cause : Nat) : State :=
  let k := s.chan c
  if k.live ∧ (dscOf k.desc).dst = eSTORE then (s.dropPages c).chHalt c 17 cause else s

/-- After a Store die command, channels whose page was refused or failed halt (R341). -/
def storeFaults (s : State) : State :=
  let l := s.sto.chFault
  State.each (fun f s => s.dmaStoreFault f.1 f.2) l { s with sto := { s.sto with chFault := [] } }

/-- BUFFER to STORE: the pages stream through the window until one is refused (R341). -/
def State.moveToStore (s : State) (c : Nat) (ue : Option (BitVec 32)) : State :=
  let d := s.dsc c
  let bad := readBad s d.saddr d.len ue
  let g := if d.xts then 4096 else 512
  let n := match bad with
    | some b => b.1 / g * g
    | none => d.len
  let bs := s.bufBytes d.saddr n
  let bs := if d.xts then cryBytes s true d.party d.xlba (n / 4096) bs else bs
  let base := d.daddr - 0x10000000
  let ps := (List.range (n / 512)).map fun i => base + 512 * i
  let s := s.onChan c fun k => { k with pages := ps, asked := n, stop := bad.map Prod.snd }
  let s := (State.each (fun p s =>
    if s.sto.chFault.isEmpty then
      (s.wakeBank (bankOf p)).completePage { req := .dma c, page := p, data := pageCells (slice bs (p - base) 512) }
    else s) ps s)
  let s := storeFaults s
  match bad with
  | some b => if ps.isEmpty then (s.ueIf b.2.1 ue).chHalt c b.2.1 b.2.2 else s.ueIf b.2.1 ue
  | none => s

/-! ### A new key under a running Store die transfer (R118, R349) -/

/-- The waiting page of a channel at a page number. -/
def waitingPage (s : State) (c page : Nat) : Option ProgOp :=
  (s.bank (bankOf page)).waiting.find? fun (p : ProgOp) => p.req == .dma c && p.page == page

/-- The bytes of sector i of a channel's Store die transfer, while all of its pages wait. -/
def waitingSector (s : State) (c i : Nat) : Option (List Byte) :=
  let base := (s.dsc c).daddr - 0x10000000 + 4096 * i
  (List.range 8).foldr (fun j a => match waitingPage s c (base + 512 * j), a with
    | some p, some bs => some ((List.range 512).map (fun k => ((p.data.find? fun (x : Nat × Byte) => x.1 == k).map Prod.snd).getD 0xFF) ++ bs)
    | _, _ => none) (some [])

/-- Give the waiting pages of sector i other bytes. -/
def State.resector (s : State) (c i : Nat) (bs : List Byte) : State :=
  let base := (s.dsc c).daddr - 0x10000000 + 4096 * i
  let f (p : ProgOp) : ProgOp :=
    if p.req = .dma c ∧ base ≤ p.page ∧ p.page < base + 4096 then { p with data := pageCells (slice bs (p.page - base) 512) } else p
  State.each (fun b s => s.setBank b { s.bank b with waiting := (s.bank b).waiting.map f }) (List.range 16) s

/-- The transfer of a channel ends before sector i for want of a key. -/
def State.keyless (s : State) (c i : Nat) : State :=
  let base := (s.dsc c).daddr - 0x10000000 + 4096 * i
  let s := State.each (fun b s => s.setBank b { s.bank b with
    waiting := (s.bank b).waiting.filter fun (p : ProgOp) => p.req != .dma c || decide (p.page < base) }) (List.range 16) s
  (s.onChan c fun k => { k with pages := k.pages.filter fun p => decide (p < base), asked := 4096 * i, stop := some (5, 1) }).storeStop c

/-- A key slot changes under a channel's transfer to the Store die: it takes effect at the end of the sector in progress. Which
of the sectors none of whose pages is being programmed yet have passed the engine by then is open (DESIGN CHOICE, log entry
116). -/
def State.rekeyOne (p : Nat) (old new : List Byte) (ready : Bool) (c : Nat) (s : State) : State :=
  let d := s.dsc c
  if ¬ (s.chan c).live ∨ ¬ d.xts ∨ d.party ≠ p ∨ d.dst ≠ eSTORE then s else
  let free := (List.range (d.len / 4096)).filter fun i => (waitingSector s c i).isSome
  if free.isEmpty then s else
  let (v, s) := s.draw
  match free.drop (v.toNat % (free.length + 1)) with
  | [] => s
  | i :: l =>
    if ¬ ready then s.keyless c i else
    State.each (fun i s => match waitingSector s c i with
      | some bs => s.resector c i (xts true new (d.xlba + i) (xts false old (d.xlba + i) bs))
      | none => s) (i :: l) s

/-- Put a key into a CRY slot. -/
def State.setKey (s : State) (p : Nat) (k : List Byte) : State := { s with cry := { s.cry with keys := tabPut s.cry.keys [] p k } }

/-- A CRY slot gets a new key, READY or not, and transfers that use it follow (R118, R349). -/
def State.newKey (s : State) (p : Nat) (k : List Byte) (ready : Bool) : State :=
  let old := tabGet s.cry.keys [] p
  let s := s.setKey p k
  State.each (State.rekeyOne p old k ready) (List.range 16)
    (if ready then (s.raiseBit (F.CRY_SLOT_READY p)).incWrap (F.CRY_SLOT_GEN p) else s.clr (F.CRY_SLOT_READY p))

/-! ### HOST ends (R339, R340) -/

/-- Cut bytes for a list of host ranges into TLPs. -/
def cutRanges (m : Nat) : List Byte → List (Nat × Nat) → List HostTlp
  | _, [] => []
  | bs, (a, n) :: rs => cutTlps m true n a (bs.take n) ++ cutRanges m (bs.drop n) rs

/-- The host address of offset o of the range, and how many bytes follow it in its piece. -/
def rangeAt : List (Nat × Nat) → Nat → Nat × Nat
  | [], _ => (0, 0)
  | (a, n) :: rs, o => if o < n then (a + o, n - o) else rangeAt rs (o - n)

/-- The TLPs before the place where a check failed or an address was refused leave, and the channel halts. No TLP leaves in
THAW (R125, R129). -/
def State.hostHalt (c : Nat) (s : State) : State :=
  let k := s.chan c
  match k.stop with
  | some (cause, detail) =>
    if k.live ∧ (dscOf k.desc).dst = eHOST ∧ s.mode ≠ mTHAW then
      let s := (s.sendTlps (dscOf k.desc).port k.tlps).chAdvance c (tlpData k.tlps k.tlps.length)
      (if cause = 20 then s.hostRefused else s).chHalt c cause detail
    else s
  | none => s

/-- BUFFER to HOST: the range is checked sector by sector and cut into TLPs; a check that fails or a refused address
halts the channel after the TLPs before it. -/
def State.moveToHost (s : State) (c : Nat) (ue : Option (BitVec 32)) : State :=
  let d := s.dsc c
  let m := maxPayload (s.port d.port)
  let bad := readBad s d.saddr d.len ue
  let n := match bad with
    | some b => b.1
    | none => d.len
  let data := cutRanges m (s.bufBytes d.saddr n) (s.chan c).ranges
  let pis := if d.hmd = 0 then [] else
    cutTlps m false (d.len + 1) d.hmd ((List.range (n / 4096)).flatMap fun i => sidePi (sideBytes s (d.saddr + 4096 * i)))
  let l := data ++ pis
  let good := l.takeWhile fun (t : HostTlp) => (hostCheck s t.addr t.bytes.length).isNone
  let refused := (l.drop good.length).head?.map fun (t : HostTlp) => (20, (hostCheck s t.addr t.bytes.length).getD 0)
  let s := s.onChan c fun k => { k with tlps := good, stop := refused.or (bad.map Prod.snd) }
  (match bad with
  | some b => s.ueIf b.2.1 ue
  | none => s).hostHalt c

/-- The next host read request of a channel: HOSTPI first, then data, as its record and its address. -/
def nextReq (s : State) (c : Nat) : Option (HostReq × Nat) :=
  let k := s.chan c
  let d := dscOf k.desc
  let npi := if d.hmd = 0 then 0 else d.len / 4096 * 16
  let mk (pi : Bool) (a off n : Nat) : HostReq × Nat :=
    let r := requestLen a n (maxRead (s.port d.port))
    ({ pi, off, len := r, skip := a % 4, total := (a + r + 3) / 4 * 4 - a / 4 * 4 }, a / 4 * 4)
  if k.askedPi < npi then some (mk true (d.hmd + k.askedPi) k.askedPi (npi - k.askedPi))
  else if k.asked < d.len then some (mk false (rangeAt k.ranges k.asked).1 k.asked (rangeAt k.ranges k.asked).2)
  else none

/-- Send host read requests while fewer than 8 are outstanding (R339); a refused one stops the channel (R360). In THAW only
those of the UQI hardware leave (R129). -/
def State.hostPump : Nat → Nat → State → State
  | 0, _, s => s
  | fuel + 1, c, s =>
    let k := s.chan c
    if k.reqs.length ≥ 8 ∨ k.stop.isSome ∨ (s.mode = mTHAW ∧ ¬ k.uqi) then s else
    match nextReq s c with
    | none => s
    | some (r, a) =>
      match hostCheck s a r.total with
      | some e => s.hostRefused.setChan c { k with stop := some (20, e) }
      | none =>
        let k := { k with reqs := k.reqs ++ [r] }
        let k := if r.pi then { k with askedPi := k.askedPi + r.len } else { k with asked := k.asked + r.len }
        State.hostPump fuel c ((s.setChan c k).send (dscOf k.desc).port (.hostRead (dscOf k.desc).port a r.total))

/-- A channel whose request was refused halts once the requests before it are complete. -/
def State.hostStop (s : State) (c : Nat) : State :=
  let k := s.chan c
  match k.stop with
  | some (cause, detail) => if k.live ∧ (dscOf k.desc).src = eHOST ∧ k.reqs.isEmpty then s.chHalt c cause detail else s
  | none => s

/-- THAW ends: what a channel with a HOST end could not send leaves (R129). -/
def State.hostResume (c : Nat) (s : State) : State :=
  if (s.chan c).live ∧ (s.dsc c).src = eHOST then (State.hostPump 8 c s).hostStop c else s.hostHalt c

/-- The bytes of a request that have arrived within the range. -/
def usable (r : HostReq) : Nat := Nat.min r.len (r.got - r.skip)

/-- DONE of a HOST to BUFFER transfer: everything before the first byte that has not arrived. -/
def hostPrefix (k : Chan) : Nat :=
  match k.reqs.find? fun (r : HostReq) => !r.pi with
  | some r => r.off + usable r
  | none => k.asked

/-- Every byte of [o, o + n) of the data, or of HOSTPI, has arrived. -/
def arrived (k : Chan) (pi : Bool) (o n : Nat) : Bool :=
  decide (o + n ≤ (if pi then k.askedPi else k.asked)) &&
  k.reqs.all fun (r : HostReq) => r.pi != pi || decide (o + n ≤ r.off + usable r) || decide (r.off + r.len ≤ o)

/-- Sectors that have arrived whole, with their HOSTPI, get their side entries (R346). -/
def State.hostSides (s : State) (c : Nat) : State :=
  let d := s.dsc c
  State.each (fun (p : Nat × Nat) s =>
    let k := s.chan c
    let i := (d.daddr + p.1) / 4096 - d.daddr / 4096
    if p.2 = 4096 ∧ inFrames (d.daddr + p.1) ∧ ¬ k.secs.testBit i ∧ arrived k false p.1 4096 ∧
        (d.hmd = 0 ∨ arrived k true (p.1 / 4096 * 16) 16) then
      let pi := if d.hmd = 0 then zeros 16 else Sparse.readList zeroed k.pi (p.1 / 4096 * 16) 16
      (s.setSide (d.daddr + p.1) (sideEntry (sectorCrc s (d.daddr + p.1)) pi)).setChan c { k with secs := k.secs ||| 2 ^ i }
    else s) (piecesOf d.daddr d.len) s

/-- Bytes arrive for request n of a channel: those of the range go to the buffer, and the rest are discarded (R339). -/
def State.hostArrive (s : State) (c n : Nat) (bs : List Byte) : State :=
  let k := s.chan c
  match k.reqs[n]? with
  | none => s
  | some r =>
    let bs := bs.take (r.total - r.got)
    let r' := { r with got := r.got + bs.length }
    let u := (bs.drop (r.skip - r.got)).take (usable r' - usable r)
    let o := r.off + usable r
    let reqs := if r'.got = r'.total then k.reqs.eraseIdx n else k.reqs.set n r'
    let s := if r.pi then s.setChan c { k with reqs, pi := Sparse.writeList zeroed k.pi o u }
      else (s.setChan c { k with reqs }).rangeWrite ((dscOf k.desc).daddr + o) u
    let s := (s.hostSides c).chAdvance c (hostPrefix (s.chan c))
    (State.hostPump 8 c s).hostStop c

/-! ### CHANNEL ends (R341, R347) -/

/-- The media LBA of sector j of a MOP. -/
def mopLba (s : State) (t j : Nat) : Nat := s.get (F.MOP2_LBA_LO t) + s.get (F.MOP3_LBA_HI t) * 4294967296 + j

def passedOf (s : State) (t : Nat) : Nat := tabGet s.chn.passed 0 t
def State.setPassed (s : State) (t n : Nat) : State := { s with chn := { s.chn with passed := tabPut s.chn.passed 0 t n } }

def fifoOf (s : State) (c : Nat) : List WSec := tabGet s.chn.fifo [] c
def State.setFifo (s : State) (c : Nat) (l : List WSec) : State := { s with chn := { s.chn with fifo := tabPut s.chn.fifo [] c l } }

/-- Fill the write FIFO, up to two sectors ahead (R277, R341): each sector is checked, encrypted and given the CRC of
what goes to the medium (R345, R347). -/
def State.chFill (ue : Option (BitVec 32)) : Nat → Nat → State → State
  | 0, _, s => s
  | fuel + 1, c, s =>
    let k := s.chan c
    let d := dscOf k.desc
    let j := passedOf s d.tag
    if ¬ k.live ∨ d.dst ≠ eCHANNEL ∨ (fifoOf s c).length ≥ 2 ∨ j ≥ k.base + d.len / 4096 then s else
    let a := d.saddr + 4096 * (j - k.base)
    match readBad s a 4096 ue with
    | some b => (s.ueIf b.2.1 ue).chHalt c b.2.1 b.2.2
    | none => match (if d.xts then noKey s d.party else none) with
      | some e => s.chHalt c 5 e
      | none =>
        let user := s.bufBytes a 4096
        let user := if d.xts then xts true (tabGet s.cry.keys [] d.party) (mopLba s d.tag j) user else user
        let md := leBytes 4 (crc32c user) ++ sidePi (sideBytes s a)
        let s := (s.setFifo c (fifoOf s c ++ [({ tag := d.tag, idx := j, user, md } : WSec)])).setPassed d.tag (j + 1)
        State.chFill ue fuel c (s.chAdvance c (4096 * (j + 1 - k.base)))

/-- A channel can take sector j of a read operation of tag t. -/
def chTakes (s : State) (c t : Nat) : Bool :=
  let k := s.chan c
  let d := dscOf k.desc
  k.live && d.src == eCHANNEL && d.tag == t && decide (passedOf s t < k.base + d.len / 4096)

/-- Deliver sector j of a read to its place (R347): decrypted, checked against the metadata DCRC, with its side entry. -/
def State.chPlace (s : State) (c j : Nat) (user md : List Byte) : State :=
  let k := s.chan c
  let d := dscOf k.desc
  let a := d.daddr + 4096 * (j - k.base)
  match (if d.xts then noKey s d.party else none) with
  | some e => s.chHalt c 5 e
  | none =>
    if crc32c user ≠ leNat (slice md 0 4) then s.chHalt c 9 (sectorIdx a) else
    let bs := if d.xts then xts false (tabGet s.cry.keys [] d.party) (mopLba s d.tag j) user else user
    let s := s.bufWrite a bs
    let s := s.setSide a (sideEntry (crc32c bs) (slice md 4 16))
    let s := s.onChan c fun k => { k with secs := k.secs ||| 2 ^ (j - k.base) }
    s.chAdvance c (4096 * ((List.range (d.len / 4096)).takeWhile fun i => (s.chan c).secs.testBit i).length)

/-- A read sector passes the data mover, delivered or skipped (R341, R267). -/
def State.chPass (s : State) (c t j : Nat) (data : Option (List Byte × List Byte)) : State :=
  let s := match data with
    | some (user, md) => s.chPlace c j user md
    | none => s
  s.setPassed t (j + 1)

/-- The operation of a tag has ended: a channel whose descriptor is not done halts with CHEND (R341). -/
def State.chOpEnd (s : State) (c t res : Nat) : State :=
  let k := s.chan c
  let d := dscOf k.desc
  if k.live ∧ chanEnd d ∧ d.tag = t ∧ passedOf s t < k.base + d.len / 4096 then s.chHalt c 18 res else s

/-! ### A descriptor becomes current (R338) -/

/-- Start the transfer of a checked descriptor. -/
def State.chMove (s : State) (c : Nat) (ue : Option (BitVec 32)) : State :=
  let d := s.dsc c
  if d.dst = eHOST then s.moveToHost c ue
  else if d.src = eHOST then (State.hostPump 8 c s).hostStop c
  else if d.dst = eCHANNEL then State.chFill ue 3 c s
  else if d.src = eCHANNEL then s
  else if d.dst = eSTORE then s.moveToStore c ue
  else if d.src = eSTORE then s.moveFromStore c
  else s.moveInside c ue

/-- A descriptor becomes current: `bs` are its 64 bytes. -/
def State.chCurrent (s : State) (c : Nat) (bs : List Byte) (ue : Option (BitVec 32)) : State :=
  let d := dscOf bs
  let k := s.chan c
  let k := { quiet k with
    desc := bs, crc := if d.crccont then k.crc else 0xFFFFFFFF, secs := 0, asked := 0, askedPi := 0,
    base := passedOf s d.tag,
    ranges := if k.uqi then k.ranges else if d.dst = eHOST then [(d.daddr, d.len)] else [(d.saddr, d.len)] }
  let s := ((s.setChan c k).put (F.CHDONE_DONE c) 0).put (F.CHCRC_CRC c) (chCrc k)
  match dscHalt s d with
  | some e => s.chHalt c e.1 e.2
  | none => (s.onChan c fun k => { k with live := true }).chMove c ue

end Sys2Proof.Machine
end

