-- ==== Sys2Proof/Machine/ChnOps.lean ====
section
/-! DEFINITION. The read/write channel's shared operations: where bits lie on the track, how an operation starts and
ends, how sectors are judged and delivered, and how write gates close (R257 to R281). -/

namespace Sys2Proof.Machine

open Sys2Proof

def State.onChn (s : State) (f : ChnState → ChnState) : State := { s with chn := f s.chn }

/-! ### Bits of the track (R257 to R260) -/

/-- Data bits of one wedge. -/
def spanLen (k : Nat) : Int := 30 * k - 96

/-- The channel bits of a sector. -/
def sectorLen : Nat := 36992

/-- f_h: the smallest revolution bit whose angle is at or after WOFF plus the head's skew (R259). -/
def fieldBit (k : Nat) (x : Int) : Int := -((-(x * k)) / 262144)

/-- The revolution bit of data bit d, counted on from the first revolution; f is `fieldBit`. -/
def revBit (k : Nat) (f : Int) (d : Nat) : Int := 32 * k * (d / spanLen k) + f + 2 * k + 48 + d % spanLen k

/-- The revolution bit nearest to an angle. -/
def bitAt (k angle : Nat) : Int := (angle * k * 2 + 262144) / 524288

/-- n channel bits as ticks, rounded up. -/
def bitTicks (k : Nat) (n : Int) : Nat := ((n * 262144 + k - 1) / k).toNat

/-- The bit rate lies in 2.0 to 6.4 Gb/s (R258); SPEED is in 1/16 rpm. -/
def rateOk (s : State) (k : Nat) : Bool :=
  let r := k * 16384 * s.get F.SPEED_SPEED
  decide (2000000000 * 960 ≤ r) && decide (r ≤ 6400000000 * 960)

/-- A span of ticks is at least 2 µs at the measured speed. -/
def twoMicros (s : State) (ticks : Nat) : Bool := decide (2 * 4294967296 * s.get F.SPEED_SPEED ≤ ticks * 960 * 1000000)

/-! ### Operations -/

def mopState (s : State) (t : Nat) : Nat := s.get (F.MOPS_STATE t)
def mopFREE : Nat := 0
def mopREADY : Nat := 1
def mopPEND : Nat := 2
def mopACTIVE : Nat := 3
def mopDONE : Nat := 4

def mopWrite (s : State) (t : Nat) : Bool := s.on (F.MOP0_DIR t)
def mopNsec (s : State) (t : Nat) : Nat := s.get (F.MOP1_NSEC t)
def mopChan (s : State) (t : Nat) : Nat := s.get (F.MOP3_DMACH t)

/-- The data bit of sector j (R265). -/
def mopDbit (s : State) (t j : Nat) : Nat :=
  let n := 512 * (30 * s.get (F.MOP1_K t) - 96)
  (s.get (F.MOP0_DBIT t) + j * sectorLen) % Nat.max n 1

/-- The ACTIVE or PEND operation of a tag. -/
def opOf (s : State) (t : Nat) : Option MOp :=
  match s.chn.act with
  | some o => if o.tag = t then some o else match s.chn.pend with
    | some p => if p.tag = t then some p else none
    | none => none
  | none => none

/-- Replace an operation by the one with its tag. -/
def State.setOp (s : State) (o : MOp) : State :=
  s.onChn fun n => match n.act with
    | some a => if a.tag = o.tag then { n with act := some o } else match n.pend with
      | some p => if p.tag = o.tag then { n with pend := some o } else n
      | none => n
    | none => n

/-- The media phase of an operation is over: every sector has been sampled, or written. -/
def mediaOver (s : State) (o : MOp) : Bool :=
  if mopWrite s o.tag then decide (o.next ≥ mopNsec s o.tag)
  else decide (o.started ≥ mopNsec s o.tag) && s.chn.slots.all fun (r : RSec) => r.tag != o.tag || r.decoding || r.dec.isSome

/-- The operation under the head: the ACTIVE one, or the PEND one once the media phase of the ACTIVE one is over. -/
def mediaOp (s : State) : Option MOp :=
  match s.chn.act with
  | some o => if mediaOver s o then s.chn.pend else some o
  | none => none

/-- CHN_STAT shows the operations. -/
def State.chnStat (s : State) : State :=
  let s := (s.putB F.CHN_STAT_ACTIVE s.chn.act.isSome).putB F.CHN_STAT_PEND s.chn.pend.isSome
  match s.chn.act with
  | some o => (s.put F.CHN_STAT_CUR o.tag).put (F.MOPS_STATE o.tag) mopACTIVE
  | none => s

/-- The synthesiser takes an operation's rate code (R258). -/
def State.slewTo (s : State) (k : Nat) : State :=
  if s.chn.slew.getD s.chn.k = k then s else s.onChn fun n => { n with slew := some k }

/-! ### Erasures (R270, R272) -/

/-- Insert a span of bits, by its first. -/
def spanInsert (x : Nat × Nat) : List (Nat × Nat) → List (Nat × Nat)
  | [] => [x]
  | y :: l => if x.1 ≤ y.1 then x :: y :: l else y :: spanInsert x l

/-- How many of the bits lo to hi - 1 lie in spans [first, end) that are in the order of their firsts. -/
def covered : List (Nat × Nat) → Nat → Nat → Nat
  | [], _, _ => 0
  | (a, b) :: l, lo, hi =>
    let x := Nat.max a lo
    let y := Nat.min b hi
    if x < y then y - x + covered l y hi else covered l lo hi

/-- The runs in which the envelope is below DDTH, each with w bits on either side. -/
def lowRuns (ddth w : Nat) (m : Samples) : List (Nat × Nat) :=
  ((m.env.filter fun (r : Nat × Nat × Nat) => decide (r.2.2 < ddth)).map fun r => (r.1 - w, r.1 + r.2.1 + w)).foldr spanInsert []

/-- The bits after which the baseline jumped by more than TATH codes. -/
def jumpsOver (tath : Nat) (m : Samples) : List Nat := (m.jumps.filter fun (j : Nat × Nat) => decide (tath < j.2)).map Prod.fst

/-- The erasures of the defect detector with head h's context (R270). -/
def erasures (s : State) (h : Nat) (m : Samples) : List (Nat × Nat) :=
  (jumpsOver (s.get (F.HCTX_1C_TATH h)) m).foldr (fun b l => spanInsert (b, b + 64) l) (lowRuns (s.get (F.HCTX_1C_DDTH h)) 8 m)

/-- BLANK (R272): the envelope stays below DDTH throughout the preamble and both sync windows. -/
def blank (s : State) (h : Nat) (m : Samples) : Bool :=
  let l := lowRuns (s.get (F.HCTX_1C_DDTH h)) 0 m
  let w := s.get F.CHN_CTL_SYNCWIN
  covered l 0 (48 + w) == 48 + w && covered l (224 - w) (240 + w) == 16 + 2 * w

/-! ### Adaptation (R269) -/

/-- The context words that a head's loops work on. -/
def ctxWords (s : State) (h : Nat) : List Word := (List.range 6).map fun i => s.rd (R.HCTX_00 h + 4 * i)

/-- Where a loop's values lie in those words: word, high bit and low bit. -/
def loopPlaces : Nat → List (Nat × Nat × Nat)
  | 0 => [(0, 11, 0)]
  | 1 => [(0, 31, 16)]
  | 2 => [(1, 11, 0)]
  | 3 => [(2, 31, 0), (3, 31, 0), (4, 31, 0), (5, 31, 0)]
  | _ => [(1, 27, 16)]

/-- What a loop adapts to is open (DESIGN CHOICE, log entry 31). -/
def loopFree (ws : List Word × State) (i : Nat) : List Word × State :=
  (loopPlaces i).foldl (fun ws p =>
    let (v, s) := ws.2.draw
    (ws.1.modify p.1 fun w => withBits w p.2.1 p.2.2 v.toNat, s)) ws

/-- The enabled loops of a read adapt over the bits of a sector that are no erasures; a baseline jump over TATH resets the
offset loop to its stored value (R269, R270). -/
def State.adapt (s : State) (t : Nat) (m : Samples) : State :=
  match opOf s t with
  | none => s
  | some o =>
    let h := s.get (F.MOP0_HEAD t)
    if s.on (F.MOP1_NOADAPT t) then s else
    let e := erasures s h m
    let from_ (b : Nat) : Bool := covered e b sectorLen != sectorLen - b
    let jump := (jumpsOver (s.get (F.HCTX_1C_TATH h)) m).foldl Nat.max 0
    let reset (ws : List Word) : List Word := ws.modify 0 fun w => withBits w 31 16 (s.get (F.HCTX_00_OFFSET h))
    let ans := (List.range 5).foldl (fun (ws : List Word × State) i =>
      if ¬ s.bit F.CHN_ADAPT_EN i then ws
      else if i = 1 ∧ jump ≠ 0 then (if from_ (jump + 64) then loopFree (reset ws.1, ws.2) i else (reset ws.1, ws.2))
      else if from_ 0 then loopFree ws i else ws) (o.work, s)
    ans.2.setOp { o with work := ans.1 }

/-- At the end of a read, with SAVE = 1, the working values go back to the head's context (R269). A sector of which not every
bit has come has been adapted to as well. -/
def State.adaptSave (s : State) (t : Nat) : State :=
  let h := s.get (F.MOP0_HEAD t)
  let s := if s.chn.slots.any fun (r : RSec) => r.tag == t && !r.decoding && r.dec.isNone then s.adapt t {} else s
  match opOf s t with
  | some o =>
    if ¬ s.on F.CHN_ADAPT_SAVE ∨ h ≥ 20 then s
    else State.each (fun (i, w) s => s.wr (R.HCTX_00 h + 4 * i) w) (o.work.mapIdx fun i w => (i, w)) s
  | none => s

/-- Count a result that a counter counts (Table 11.11). -/
def State.sresCount (s : State) (res : Nat) : State :=
  if res = 1 then s.inc F.CHN_CNT_SSM_CNT else if res = 2 then s.inc F.CHN_CNT_DECFAIL_CNT
  else if res = 3 then s.inc F.CHN_CNT_NOSYNC_CNT else if res = 4 then s.inc F.CHN_CNT_MISDIR_CNT
  else if res = 6 then s.inc F.CHN_CNT2_ABORT_CNT else if res = 7 then s.inc F.CHN_CNT2_NODATA_CNT
  else if res = 8 then s.inc F.CHN_CNT2_OVERRUN_CNT else if res = 10 then s.inc F.CHN_CNT2_BADTIME_CNT
  else s

/-- The MOPS entry of an ended operation takes its final values, and the tag goes to CHN_DONEQ or to the orderer
(R264, R266). -/
def State.mopDone (s : State) (t res ndone nfail iter : Nat) : State :=
  let s := (((s.put (F.MOPS_NDONE t) ndone).put (F.MOPS_RES t) res).put (F.MOPS_NFAIL t) nfail).put (F.MOPS_ITER t) iter
  let s := s.put (F.MOPS_STATE t) mopDONE
  let s := if s.on F.ASC_CTL_HWORD then s.onChn fun n => { n with ended := n.ended ++ [t] }
    else (s.onChn fun n => { n with doneq := n.doneq ++ [t] }).raiseBit F.CHN_FLAG_OPEND
  s.chOpEnd (mopChan s t) t res

/-- An operation ends (R266): its slots and FIFO sectors are given up, and the PEND operation becomes ACTIVE. -/
def State.opEnd (s : State) (t res : Nat) : State :=
  match opOf s t with
  | none => s.mopDone t res 0 0 0
  | some o =>
    let s := if mopWrite s t then s else s.adaptSave t
    let c := mopChan s t
    let s := s.setFifo c ((fifoOf s c).filter fun (w : WSec) => w.tag != t)
    let promote := match s.chn.act with
      | some a => a.tag == t
      | none => false
    let s := s.onChn fun n =>
      let n := { n with slots := n.slots.filter fun (r : RSec) => r.tag != t }
      if promote then { n with act := n.pend, pend := none } else { n with pend := none }
    let s := if promote then match s.chn.act with
        | some a => s.slewTo (s.get (F.MOP1_K a.tag))
        | none => s else s
    (s.mopDone t res o.ndone o.nfail o.iter).chnStat

/-- An operation ends with a result that its current sector reports. -/
def State.opFail (s : State) (t res : Nat) : State := (s.sresCount res).opEnd t res

/-! ### Starting an operation (R265, R258) -/

/-- BADOP, NOCLK or BADTIME for the event of tag t with its target at counter value `due`, and where its bits lie:
`skew` is the head's skew (R212). -/
def startCheck (s : State) (write : Bool) (arg due : Nat) (skew : Int) : Nat ⊕ (Nat × Nat) :=
  let t := arg % 128
  let k := s.get (F.MOP1_K t)
  if arg ≥ 128 ∨ mopState s t ≠ mopREADY ∨ mopWrite s t ≠ write ∨ s.get (F.MOP0_HEAD t) ≠ s.get F.SRV_STAT_HEAD ∨
      ¬ rateOk s k ∨ mopNsec s t = 0 ∨ (s.on (F.MOP1_RETRY t) ∧ mopNsec s t ≠ 1) then .inl 11
  else if s.mode ≠ mFLOW then .inl 13
  else
    let f := fieldBit k (s.get F.SRV_WOFF_WOFF + skew)
    let d := s.get (F.MOP0_DBIT t)
    let b := revBit k f d
    let lead := (b - bitAt k (due % 4294967296)) % (k * 16384)
    let last := revBit k f (d + (mopNsec s t - 1) * sectorLen + 36935)
    let first := due + bitTicks k lead
    let ends := due + bitTicks k (lead + (last - b) + 1 + s.get F.CHN_CTL_WGTRAIL)
    let ahead := s.chn.pend.orElse fun _ => s.chn.act
    let kAhead := match ahead with
      | some o => s.get (F.MOP1_K o.tag)
      | none => s.chn.slew.getD s.chn.k
    let slewAt := match ahead with
      | some o => Nat.max due o.ends
      | none => due
    if lead < 64 ∨ lead ≥ 32 * k then .inl 10
    else if (match ahead with | some o => decide (first < o.ends) | none => false) then .inl 10
    else if s.chn.pend.isSome then .inl 10
    else if k ≠ kAhead ∧ ¬ twoMicros s (first - slewAt) then .inl 10
    else .inr (first, ends)

/-- A DATA_WIN or WRITE_GATE event starts the operation of its tag, or ends it at once (R265). An event for an
operation that runs changes nothing (DEDUCED, log entry 32). -/
def State.chnEvent (s : State) (write : Bool) (arg due : Nat) (skew : Int) : State :=
  let t := arg % 128
  if (opOf s t).isSome then s else
  match startCheck s write arg due skew with
  | .inl res => s.opFail t res
  | .inr (first, ends) =>
    let o : MOp := { tag := t, first, ends, work := ctxWords s (s.get (F.MOP0_HEAD t)) }
    if s.chn.act.isNone then ((s.onChn fun n => { n with act := some o }).slewTo (s.get (F.MOP1_K t))).chnStat
    else ((s.onChn fun n => { n with pend := some o }).put (F.MOPS_STATE t) mopPEND).chnStat

/-- A suppressed one-shot event ends its operation with SUPP (R266). -/
def State.chnSupp (s : State) (arg : Nat) : State :=
  let t := arg % 128
  if arg < 128 ∧ mopState s t = mopREADY then s.opEnd t 9 else s

/-! ### Reading (R268, R271 to R276) -/

/-- The best start position of a sync window: the fewest bit errors, the earliest of them, at most SMTOL (R268), counted from
the window's first. -/
def syncPos (s : State) (errs : List Nat) : Option Nat :=
  let l := errs.take (2 * s.get F.CHN_CTL_SYNCWIN + 1)
  let best := l.foldl Nat.min (s.get F.CHN_CTL_SMTOL)
  l.findIdx? fun e => e == best

/-- The mark of a window is found (R268). -/
def syncFound (s : State) (errs : List Nat) : Bool := (syncPos s errs).isSome

/-- The bits of a sector's codeword that go to the decoder as erasures (R268, R270): h is the head whose context applies, and
`keep` that the samples of D0 are kept past a missed primary mark. Where no mark is found the codeword's place is the nominal one
(DEDUCED, log entry 118). -/
def erasedBits (s : State) (h : Nat) (ssmOnly keep : Bool) (m : Samples) (f : SectorFacts) : Nat :=
  let e := erasures s h m
  let w := s.get F.CHN_CTL_SYNCWIN
  let both (d0 d1 : Nat) : Nat := covered e d0 (d0 + 176) + covered e d1 (d1 + 36688)
  match (if ssmOnly then none else syncPos s f.psm), syncPos s f.ssm with
  | some i, _ => both (48 + i - w) (240 + i - w)
  | none, some i => if keep then both (48 + i - w) (240 + i - w) else 176 + covered e (240 + i - w) (240 + i - w + 36688)
  | none, none => both 48 240

/-- The result of a decode, in the order of R271: BLANK, NOSYNC, DECFAIL, MISDIR, OK or OKSSM. -/
def sectorResult (s : State) (h : Nat) (ssmOnly : Bool) (lba party : Nat) (m : Samples) (f : SectorFacts) : Nat :=
  let psm := !ssmOnly && syncFound s f.psm
  let bytes := slice f.bytes 0 4132
  if blank s h m then 5
  else if ¬ psm ∧ ¬ syncFound s f.ssm then 3
  else if ¬ f.conv ∨ crc32c (slice bytes 0 4128) ≠ leNat (slice bytes 4128 4) then 2
  else if leNat (slice bytes 4096 8) ≠ lba ∨ leNat (slice bytes 4104 1) ≠ party then 4
  else if psm then 0 else 1

def decodedOf (res erased : Nat) (f : SectorFacts) : Decoded :=
  { res, iters := f.iters.toNat, user := slice f.bytes 0 4096, md := slice f.bytes 4108 20, unsat := f.unsat.toNat, erased }

/-- Record 0x0302 (R276): a sector given up. -/
def State.giveUp (s : State) (head res iters flags dbit lba party unsat erased : Nat) : State :=
  s.event 0x0302 party (leBytes 1 head ++ leBytes 1 res ++ leBytes 1 iters ++ leBytes 1 flags ++ leBytes 4 dbit ++
    leBytes 8 lba ++ leBytes 3 (s.get F.SRV_PTRK_PTRK) ++ zeros 1 ++ leBytes 2 unsat ++ leBytes 2 erased)

/-- Keep the samples of a sector that ended with DECFAIL or NOSYNC, if a retained slot is free (R275). -/
def State.retain (s : State) (t j : Nat) (samp : Samples) : Option Nat × State :=
  match (List.range 4).find? fun i => (tabGet s.chn.kept none i).isNone with
  | none => (none, s.raiseBit F.CHN_FLAG_RSLOTFULL)
  | some i =>
    let k : RetSlot := { tag := t, idx := j, samp, w0 := s.rd (R.MOP0 t), w1 := s.rd (R.MOP1 t), lba := mopLba s t j, party := mopParty s t, chan := mopChan s t }
    (some i, (s.onChn fun n => { n with kept := tabPut n.kept none i (some k) }).setIn F.CHN_STAT_RSLOT i)

/-- A sector of a read failed: it is counted, recorded if FINAL, retained, and skipped under CONT or ends the operation
(R267, R275, R276). -/
def State.sectorFailed (s : State) (o : MOp) (d : Decoded) (samp : Samples) : State :=
  let t := o.tag
  let s := s.sresCount d.res
  let flags := s.get (F.MOP1_RETRY t) + 2 * s.get (F.MOP1_SAMPKEEP t) + 4 * s.get (F.MOP1_SSMONLY t)
  let s := if s.on (F.MOP1_FINAL t) ∧ 2 ≤ d.res ∧ d.res ≤ 4 then
      s.giveUp (s.get (F.MOP0_HEAD t)) d.res d.iters flags (mopDbit s t o.next) (mopLba s t o.next) (mopParty s t) d.unsat d.erased
    else s
  let ans := if d.res = 2 ∨ d.res = 3 then s.retain t o.next samp else (none, s)
  let slot := ans.1
  let s := ans.2
  if s.on (F.MOP1_CONT t) ∧ 2 ≤ d.res ∧ d.res ≤ 5 ∧ s.chn.failq.length < 16 then
    let e : FailEnt := { tag := t, idx := o.next, res := d.res, slot }
    let s := (s.onChn fun n => { n with failq := n.failq ++ [e] }).raiseBit F.CHN_FLAG_FAILQ
    let s := s.setOp { o with next := o.next + 1, nfail := o.nfail + 1, lead := false, iter := Nat.max o.iter d.iters }
    let s := s.chPass (mopChan s t) t o.next none
    if o.next + 1 ≥ mopNsec s t then s.opEnd t 0 else s
  else (s.setOp { o with iter := Nat.max o.iter d.iters }).opEnd t d.res

/-- Judge the decoded sectors of a read in their order; one that is to be delivered waits for its data mover. -/
def State.judge : Nat → Nat → State → State
  | 0, _, s => s
  | fuel + 1, t, s =>
    match opOf s t with
    | none => s
    | some o =>
      match s.chn.slots.find? fun (r : RSec) => r.tag == t && r.idx == o.next with
      | none => s
      | some r => match r.dec with
        | none => s
        | some d =>
          let free (s : State) : State := s.onChn fun n => { n with slots := n.slots.filter fun (x : RSec) => !(x.tag == t && x.idx == o.next) }
          if d.res ≤ 1 then
            if ¬ chTakes s (mopChan s t) t then s else
            let s := (free s).sresCount d.res
            let s := s.setOp { o with next := o.next + 1, ndone := if o.lead then o.ndone + 1 else o.ndone, iter := Nat.max o.iter d.iters }
            let s := s.chPass (mopChan s t) t o.next (some (d.user, d.md))
            if o.next + 1 ≥ mopNsec s t then s.opEnd t 0 else State.judge fuel t s
          else State.judge fuel t ((free s).sectorFailed o d r.samp)

/-- Sectors that wait for a data mover go on, whichever operation they belong to. -/
def State.judgeAll (s : State) : State :=
  let ts := (s.chn.act.toList ++ s.chn.pend.toList).map MOp.tag
  State.each (fun t s => State.judge 4 t s) ts s

/-- A decode ends (R271): the slot takes its result, and the sectors in line are judged. -/
def State.decoded (s : State) (t j : Nat) (d : Decoded) : State :=
  if s.chn.slots.any fun (r : RSec) => r.tag == t && r.idx == j && r.decoding && r.dec.isNone then
    let s := s.onChn fun n => { n with slots := n.slots.map fun (r : RSec) => if r.tag == t && r.idx == j then { r with dec := some d } else r }
    State.judge 4 t s
  else s

/-- The ATB enters ACQUIRE or COAST: a read whose sectors are not all sampled ends with SUPP (R266). -/
def State.chnAtbLost (s : State) : State :=
  let ts := ((s.chn.act.toList ++ s.chn.pend.toList).filter fun (o : MOp) => !mopWrite s o.tag && !mediaOver s o).map MOp.tag
  State.each (fun t s => s.opEnd t 9) ts s

/-! ### Writing (R277, R279, R280) -/

/-- The write gate may open: FLOW, the ATB LOCKED, and WUS = 0 (R55, R226). -/
def gateAllowed (s : State) : Bool :=
  s.mode == mFLOW && s.get F.ATB_STAT_STATE == 2 && !s.on F.SRV_STAT_WUS

/-- The 4,132 information bytes of a sector to be written (R262, R263). -/
def sectorInfo (s : State) (t : Nat) (w : WSec) : List Byte :=
  let b := slice w.user 0 4096 ++ leBytes 8 (mopLba s t w.idx) ++ leBytes 1 (mopParty s t) ++ leBytes 1 (s.get (F.MOP1_EMU t)) ++
    zeros 2 ++ slice w.md 0 20
  b ++ leBytes 4 (crc32c b)

/-- PCn of a head's context (R278). -/
def precompOf (s : State) (h n : Nat) : Nat :=
  if n = 1 then s.get (F.HCTX_18_PC1 h) else if n = 2 then s.get (F.HCTX_18_PC2 h) else if n = 3 then s.get (F.HCTX_18_PC3 h) else 0

/-- The early shifts of a sector's transitions: its data bits from `dbit` on, in the pattern that comes before (R278, R279). -/
def sectorShifts (s : State) (t dbit : Nat) (bits : List Bool) : List Nat :=
  precomp (precompOf s (s.get (F.MOP0_HEAD t))) (30 * s.get (F.MOP1_K t) - 96) dbit false 2 bits

/-- An open write gate closes inside a sector (R280): the sector reports ABORT, and record 0x0303 is submitted. How much
of the sector had been written is open (DESIGN CHOICE, log entry 33). -/
def State.gateAbort (s : State) (o : MOp) (cause : Nat) : State :=
  let t := o.tag
  let (v, s) := s.draw
  let s := s.event 0x0303 (mopParty s t) (leBytes 1 (s.get (F.MOP0_HEAD t)) ++ leBytes 1 cause ++ zeros 2 ++
    leBytes 4 (mopDbit s t o.next) ++ leBytes 8 (mopLba s t o.next) ++ leBytes 3 (s.get F.SRV_PTRK_PTRK) ++ zeros 1 ++
    leBytes 4 (v.toNat % (sectorLen + 1)))
  (s.raiseBit F.CHN_FLAG_ABORT).opFail t 6

/-- Close the write gate if it is open: cause 1 WUS, 2 ATB, 3 preamp fault, 4 servo gate, 5 RETREAT. -/
def State.chnCloseGate (s : State) (cause : Nat) : State :=
  match (s.chn.act.toList ++ s.chn.pend.toList).find? fun (o : MOp) => o.gate with
  | some o => s.gateAbort o cause
  | none => s

/-- Every operation ends at RETREAT entry and at REBOOT: the gate closes, and the rest end with NOCLK, since their
domains stop (R280, Table 4.6). -/
def State.chnStop (s : State) : State :=
  let s := s.chnCloseGate 5
  let ts := (s.chn.act.toList ++ s.chn.pend.toList).map MOp.tag
  State.each (fun t s => s.opEnd t 13) ts s

/-- Commit a MOP (R264): READY, with nothing passed. -/
def State.mopCommit (s : State) (t : Nat) : State :=
  let s := ((s.wr (R.MOPS t) 0).put (F.MOPS_STATE t) mopREADY).setPassed t 0
  State.each (fun c s => if (s.chan c).live ∧ chanEnd (s.dsc c) ∧ (s.dsc c).tag = t then s.onChan c fun (k : Chan) => { k with base := 0 } else s)
    (List.range 16) s

end Sys2Proof.Machine
end

