-- ==== Sys2Proof/Machine/Rme.lean ====
section
/-! DEFINITION. The commands of the Range Match Engine and the isolation lock (chapters 13 and 17). -/

namespace Sys2Proof.Machine

open Sys2Proof

/-- A bank's command is taken: from a master with a bank that has no command of the kind in progress (R333). -/
def rmeTake (m : Master) (commit : Bool) (v : Word) (errs : List RmeErr) (s : State) : State :=
  if hasBank m && !rmeBusy s m commit then s.rmeIssue { m, commit, v, errs } else s

/-- DEFECT_LOOKUP (R317): a write of RME_LCMD with CH = 0. -/
def execDefectLookup (m : Master) (errs : List RmeErr) (s : State) : Host.Outcome State Fault Refusal :=
  .next (s.byCore m 0x40008108 0 fun s => rmeTake m false 0 errs s)

/-- WINDOW_LOOKUP (R320): a write of RME_LCMD with CH = 1. -/
def execWindowLookup (m : Master) (v : Word) (errs : List RmeErr) (s : State) : Host.Outcome State Fault Refusal :=
  .next (s.byCore m 0x40008108 (v ||| 1) fun s => rmeTake m false (v ||| 1) errs s)

/-- RME_COMMIT (R323): a write of RME_SCMD with OP = 1. -/
def execRmeCommit (m : Master) (v : Word) (s : State) : Host.Outcome State Fault Refusal :=
  .next (s.byCore m 0x40008300 (opWord v 1 0 1) fun s => rmeTake m true v [] s)

/-- REVOKE_HOLD_END (R325): the FIRN has completed the notices, and the held lookups start. -/
def State.revokeHoldEnd (s : State) : State :=
  (({ s with rme := { s.rme with held := [] } } : State).clr F.RME_STAT_HOLD).rmeWake

/-- SHADOW_READ (R333): the shadow of INDEX into staging slot 0. -/
def shadowRead (m : Master) (v : Word) (s : State) : State :=
  if hasBank m && !rmeBusy s m true then
    let i := bitsOf v 15 5
    let s := ((((s.wr (R.RME_STG_00 m 0) 0).wr (R.RME_STG_04 m 0) 0).wr (R.RME_STG_08 m 0) 0).wr (R.RME_STG_0C m 0) 0).wr
      (R.RME_STG_10 m 0) (BitVec.ofNat 32 i)
    let s := match tabGet s.rme.ents none i with
      | none => s
      | some e =>
        let s := (s.put (F.RME_STG_00_KEY_LO m 0) e.key).put (F.RME_STG_04_KEY_HI m 0) (e.key / 4294967296)
        let s := ((s.put (F.RME_STG_04_LEN m 0) e.len).put (F.RME_STG_04_PARTY m 0) e.party).putB (F.RME_STG_04_CH m 0) e.window
        let s := ((s.raiseBit (F.RME_STG_04_VALID m 0)).put (F.RME_STG_08_BASE_LO m 0) e.base).put (F.RME_STG_0C_BASE_HI m 0)
          (e.base / 4294967296)
        ((s.putB (F.RME_STG_0C_IDENT m 0) e.ident).put (F.RME_STG_0C_RIGHTS m 0) e.rights).put (F.RME_STG_0C_PRIO m 0) e.prio
    s.rmeSres m 0 0 0
  else s

def execShadowRead (m : Master) (v : Word) (s : State) : Host.Outcome State Fault Refusal :=
  .next (s.byCore m 0x40008300 (opWord v 1 0 2) fun s => shadowRead m v s)

/-- Two valid window entries of different parties overlap (R322). -/
def anyOverlap (t : RmeTab) : Bool :=
  t.any fun c => match c.2 with | some e => rmeOverlap t c.1 e | none => false

/-- Request the window lock (R322). -/
def State.wlock (s : State) : State :=
  if anyOverlap s.rme.ents then s.raiseBit F.RME_STAT_WLRES
  else ((s.clr F.RME_STAT_WLRES).raiseBit F.RME_STAT_WLOCKED).raiseBit F.RME_CTL_WLOCK

/-- WLOCK (R322): SEC's write. -/
def execWlock (m : Master) (s : State) : Host.Outcome State Fault Refusal :=
  .next (s.byCore m R.RME_CTL 1 fun s => if m = .sec then s.wlock else s)

/-- DREADY (R327): SEC's or MC's write. -/
def execDready (m : Master) (s : State) : Host.Outcome State Fault Refusal :=
  .next (s.byCore m R.RME_CTL 2 fun s => if m = .sec ∨ m = .mc then s.raiseBit F.RME_CTL_DREADY else s)

/-- RME_PATROL (R330): the next row; `found` is 0 good, 3 a repair, 4 a shadow fault. -/
def rmePatrol (found : BitVec 3) (s : State) : State :=
  if firnAwake s then
    let i := s.rme.patrol
    let s := { s with rme := { s.rme with patrol := (i + 1) % 2048 } }
    let win := match tabGet s.rme.ents none i with | some e => e.window | none => false
    if found = 3 then
      ((s.inc F.RME_CNT_PAT_CNT).raiseBit F.RME_FLAG_PATROL).rmeRecord i win 3 6 0 0 0xFF
    else if found = 4 then (s.rmeShadowFault i win).rmeRecord i win 4 6 0 0 0xFF
    else s
  else s

def execRmePatrol (found : BitVec 3) (s : State) : Host.Outcome State Fault Refusal := .next (rmePatrol found s)

/-! ### The isolation lock (R413) -/

/-- Party p has a window entry or a ring. -/
def partyActive (s : State) (p : Nat) : Bool :=
  (s.rme.ents.any fun c => match c.2 with | some e => e.window && e.party == p | none => false) ||
    ((List.range 64).any fun n => s.get (F.UQI_RPARTY_SQPARTY n) == p || s.get (F.UQI_RPARTY_CQPARTY n) == p)

/-- The first condition of Table 17.2 that fails, and the party concerned. -/
def isoCheck (s : State) : Nat × Nat :=
  if s.on F.ISO_STAT_LOCKED then (7, 0)
  else if ¬ s.on F.SST_STAT_ALLOK then (1, 0)
  else if ¬ s.on F.FIRN_STAT_PLOCKED then (2, 0)
  else if ¬ s.on F.RME_STAT_WLOCKED ∨ s.bit F.RME_STAT_CHFAULT 1 then (3, 0)
  else if ¬ s.on F.DMA_CTL_CFGLOCK ∨ ¬ s.on F.DMA_CTL_XTSREQ then (4, 0)
  else match (List.range 16).find? fun p => partyActive s p && !s.on (F.CRY_SLOT_READY p) with
    | some p => (5, p)
    | none =>
      if (List.range 64).any fun n => s.get (F.UQI_RPARTY_SQPARTY n) != s.get (F.UQI_RPARTY_CQPARTY n) then (6, 0)
      else (0, 0)

/-- The windows of a party. -/
def windowsOf (s : State) (p : Nat) : Nat :=
  (s.rme.ents.filter fun (c : Nat × Option RmeEnt) => match c.2 with | some e => e.window && e.party == p | none => false).length

/-- Rings of a party by field. -/
def ringsOf (s : State) (f : Nat → Fld) (p : Nat) : Nat := ((List.range 64).filter fun n => s.get (f n) == p).length

/-- Party p's part of record 0x0501 (Table 17.7). -/
def isoParty (s : State) (p : Nat) : List Byte :=
  leBytes 1 (s.get (F.FIRN_PART_WAYS p)) ++ leBytes 1 (s.get (F.FIRN_PART_HALF p)) ++ leBytes 1 (s.get (F.ORD_SHARE_SHARE p)) ++
    leBytes 1 (s.get (F.CRY_SLOT_GEN p)) ++ leBytes 4 (s.get (F.FIRN_CMASK_SLOTS p)) ++
    leBytes 2 (s.get (F.FIRN_DQ_DQUOTA p)) ++ leBytes 2 (windowsOf s p) ++ leBytes 1 (ringsOf s F.UQI_RPARTY_SQPARTY p) ++
    leBytes 1 (ringsOf s F.UQI_RPARTY_CQPARTY p) ++ leBytes 1 (s.get (F.UQI_PCFG_EMU p)) ++ zeros 1

/-- Request the isolation lock. -/
def State.isoLock (s : State) : State :=
  let ans := isoCheck s
  let r := ans.1
  let p := ans.2
  let s := (s.put F.ISO_STAT_RES r).put F.ISO_STAT_PARTY p
  if r = 0 then
    ((s.raiseBit F.ISO_STAT_LOCKED).raiseBit F.ISO_CTL_LOCK).event 0x0501 0xFF
      (leBytes 2 (s.get F.FIRN_DTOTAL_DTOTAL) ++ leBytes 2 (rmeUsed s true) ++ (List.range 16).flatMap (isoParty s))
  else s

/-- ISO_LOCK (R413): SEC's write. A write while locked changes nothing but RES (R413). -/
def execIsoLock (m : Master) (s : State) : Host.Outcome State Fault Refusal :=
  .next (s.byCore m 0x4000C800 1 fun s => if m = .sec then s.isoLock else s)

end Sys2Proof.Machine
end

