-- ==== Sys2Proof/Machine/UqiOps.lean ====
section
/-! DEFINITION. The UQI's shared operations: rings, doorbell and entry fetches, the checks at fetch, host transfers,
completions, and what happens when a port drops (R361 to R384, R394). -/

namespace Sys2Proof.Machine

open Sys2Proof

def State.onUqi (s : State) (f : UqiState → UqiState) : State := { s with uqi := f s.uqi }

def State.sq (s : State) (r : Nat) : SqRing := tabGet s.uqi.sq {} r
def State.setSq (s : State) (r : Nat) (q : SqRing) : State := s.onUqi fun u => { u with sq := tabPut u.sq {} r q }
def State.cq (s : State) (r : Nat) : CqRing := tabGet s.uqi.cq {} r
def State.setCq (s : State) (r : Nat) (q : CqRing) : State := s.onUqi fun u => { u with cq := tabPut u.cq {} r q }

/-- The states of a ring (Table 15.9). -/
def rDISABLED : Nat := 0
def rACTIVE : Nat := 1
def rDRAINING : Nat := 2
def rHALTED : Nat := 3

def sqParty (s : State) (r : Nat) : Nat := s.get (F.UQI_RPARTY_SQPARTY r)
def cqParty (s : State) (r : Nat) : Nat := s.get (F.UQI_RPARTY_CQPARTY r)

/-- A ring is enabled: it is not DISABLED. -/
def sqOn (s : State) (r : Nat) : Bool := (s.sq r).st != rDISABLED
def cqOn (s : State) (r : Nat) : Bool := (s.cq r).st != rDISABLED

/-- A party has an enabled ring. -/
def partyRings (s : State) (p : Nat) : Bool :=
  (List.range 64).any fun r => (sqOn s r && sqParty s r == p) || (cqOn s r && cqParty s r == p)

/-- A party's current port. -/
def curPort (s : State) (p : Nat) : Nat := tabGet s.uqi.cur 0 p

/-- The entries of a ring: SIZEM1 + 1. -/
def sqSize (s : State) (r : Nat) : Nat := s.get (F.SQ_8_SIZEM1 r) + 1
def cqSize (s : State) (r : Nat) : Nat := s.get (F.CQ_8_SIZEM1 r) + 1

def sqBase (s : State) (r : Nat) : Nat := s.get (F.SQ_0_BASE_LO r) * 4096 + s.get (F.SQ_4_BASE_HI r) * 4294967296
def cqBase (s : State) (r : Nat) : Nat := s.get (F.CQ_0_BASE_LO r) * 4096 + s.get (F.CQ_4_BASE_HI r) * 4294967296

def State.cmd (s : State) (i : Nat) : Option Cmd := tabGet s.uqi.table none i
def State.setCmd (s : State) (i : Nat) (c : Option Cmd) : State := s.onUqi fun u => { u with table := tabPut u.table none i c }

/-- The command-table entries in use, with their indexes. -/
def cmds (s : State) : List (Nat × Cmd) := s.uqi.table.filterMap fun c => c.2.map fun k => (c.1, k)

/-! ### Doorbell fetches (R366, R368) -/

/-- One more than the highest ring that a party owns and has enabled; 0 for none. -/
def highRing (s : State) (p : Nat) : Nat :=
  (List.range 64).foldl (fun h r =>
    if (sqOn s r && sqParty s r == p) || (cqOn s r && cqParty s r == p) then r + 1 else h) 0

def setBit (n i : Nat) (b : Bool) : Nat := if b then n ||| 2 ^ i else if n.testBit i then n - 2 ^ i else n

/-- Request one doorbell fetch of a party (R368). -/
def State.dbRequest (s : State) (p : Nat) : State :=
  let h := highRing s p
  if tabGet s.uqi.fetch 0 p ≠ 0 then s.onUqi fun u => { u with again := setBit u.again p true }
  else if ¬ s.on (F.DBP_0_EN p) ∨ h = 0 ∨ ¬ portUp s (curPort s p) then s
  else
    let a := s.get (F.DBP_0_ADDR_LO p) * 4096 + s.get (F.DBP_4_ADDR_HI p) * 4294967296
    if (hostCheck s a (16 * h)).isSome then (s.hostRefused).onUqi fun u => { u with dbref := setBit u.dbref p true }
    else (s.onUqi fun u => { u with fetch := tabPut u.fetch 0 p h }).sendReads (curPort s p) a (16 * h)

/-- A doorbell value is ignored and counted (R366). -/
def State.dbError (s : State) : State := (s.inc F.UQI_CNT_DBERR_CNT).raiseBit F.UQI_EVT_DBERR

/-- Act on SQTAIL of ring r. -/
def State.dbTail (s : State) (r v : Nat) : State :=
  if v ≥ sqSize s r then s.dbError else s.setSq r { s.sq r with tail := v }

/-- Act on CQHEAD of ring r: it may release only slots that were written. -/
def State.dbHead (s : State) (r v : Nat) : State :=
  let q := s.cq r
  let n := cqSize s r
  if v ≥ n ∨ (v + n - q.head) % n > (q.wptr + n - q.head) % n then s.dbError else s.setCq r { q with head := v }

/-- Act on a doorbell page's entries 0 to h − 1 for party p (R366). -/
def State.dbPage (s : State) (p h : Nat) (data : List Byte) : State :=
  State.each (fun r s =>
    let s := if sqParty s r = p ∧ (s.sq r).st = rACTIVE then
        (s.setSq r { s.sq r with stalled := false }).dbTail r (leNat (slice data (16 * r) 4)) else s
    if cqParty s r = p ∧ cqOn s r then s.dbHead r (leNat (slice data (16 * r + 4) 4)) else s) (List.range h) s

/-! ### Entry fetches (R367, R369, R379) -/

/-- Command-table entries that party p holds, with those that bursts in flight will take. -/
def partyHeld (s : State) (p : Nat) : Nat :=
  ((cmds s).filter fun (c : Nat × Cmd) => c.2.party == p).length +
    ((List.range 64).filter fun r => sqParty s r == p).foldl (fun n r => n + (s.sq r).burst) 0

/-- How many more entries party p may take (R379). -/
def roomFor (s : State) (p : Nat) : Nat :=
  let held := partyHeld s p
  let used := (List.range 16).foldl (fun n q => n + partyHeld s q) 0
  let others := (List.range 16).foldl (fun n q =>
    if q ≠ p ∧ (List.range 64).any (fun r => sqOn s r && sqParty s r == q) then n + (16 - partyHeld s q) else n) 0
  Nat.min (256 - held) (Nat.max (16 - held) (1024 - used - others))

/-- A ring whose entries wait to be fetched. -/
def sqWork (s : State) (r : Nat) : Bool :=
  let q := s.sq r
  q.st == rACTIVE && q.burst == 0 && !q.stalled && q.tail != q.fptr && portUp s (curPort s (sqParty s r)) &&
    decide (0 < roomFor s (sqParty s r))

/-- The ring whose turn it is (R369): round-robin among the parties that have work, and among a party's rings. -/
def nextRing (s : State) : Option Nat :=
  let parties := (List.range 16).map fun i => (s.uqi.lastParty + 1 + i) % 16
  parties.findSome? fun p =>
    ((List.range 64).map fun i => (tabGet s.uqi.lastRing 63 p + 1 + i) % 64).find? fun r => sqParty s r == p && sqWork s r

/-- The entries of the next burst of ring r: at most 8, not past the end of the ring or a 4 KiB boundary. -/
def burstLen (s : State) (r : Nat) : Nat :=
  let q := s.sq r
  let n := sqSize s r
  Nat.min (Nat.min 8 (roomFor s (sqParty s r))) (Nat.min (Nat.min (n - q.fptr) (64 - q.fptr % 64)) ((q.tail + n - q.fptr) % n))

/-- Issue bursts while there is work and room; each ring has one burst in flight. -/
def State.uqiFetch : Nat → State → State
  | 0, s => s
  | fuel + 1, s =>
    match nextRing s with
    | none => s
    | some r =>
      let p := sqParty s r
      let a := sqBase s r + 64 * (s.sq r).fptr
      let n := burstLen s r
      let s := s.onUqi fun u => { u with lastParty := p, lastRing := tabPut u.lastRing 63 p r }
      if (hostCheck s a (64 * n)).isSome then State.uqiFetch fuel (s.hostRefused.setSq r { s.sq r with stalled := true })
      else State.uqiFetch fuel ((s.setSq r { s.sq r with burst := n }).sendReads (curPort s p) a (64 * n))

/-! ### Completions (R364, R373, R394) -/

/-- A command has host transfers that have not ended. -/
def jobsOf (s : State) (i : Nat) : Bool := s.uqi.jobs.any fun (j : XJob) => j.idx == i

/-- The 16 bytes of a completion (Table 15.6). -/
def cplBytes (s : State) (c : Cpl) (phase : Bool) : List Byte :=
  let cid := match s.cmd c.idx with
    | some k => slice k.bytes 2 2
    | none => zeros 2
  cid ++ leBytes 1 c.ring ++ leBytes 1 c.status ++ leBytes 4 c.ed ++ leBytes 2 c.sqhead ++
    leBytes 2 (if phase then 1 else 0) ++ leBytes 4 c.spec

/-- Write a completion to its slot on its party's current port. -/
def State.cplSend (s : State) (c : Cpl) (slot : Nat) (phase : Bool) : State :=
  let q := curPort s (cqParty s c.cq)
  s.send q (.hostWrite q (cqBase s c.cq + 16 * slot) (cplBytes s c phase))

/-- Issue one completion if it may leave: not in THAW, both rings running, the port up, a free slot, and its command's
transfers done. Answers the completion as it stands and whether later ones of its ring must wait. -/
def State.cplIssue (s : State) (c : Cpl) : Cpl × Bool × State :=
  if c.slot.isSome then (c, false, s) else
  let q := s.cq c.cq
  let n := cqSize s c.cq
  let st := (s.sq c.ring).st
  if st = rHALTED then (c, false, s)
  else if s.mode = mTHAW ∨ q.st ≠ rACTIVE ∨ ¬ portUp s (curPort s (cqParty s c.cq)) ∨ (q.wptr + 1) % n = q.head ∨
      jobsOf s c.idx then (c, true, s)
  else if (hostCheck s (cqBase s c.cq + 16 * q.wptr) 16).isSome then
    (if c.refused then (c, true, s) else ({ c with refused := true }, true, s.hostRefused))
  else
    let s := s.cplSend c q.wptr q.phase
    let s := s.setCq c.cq { q with wptr := (q.wptr + 1) % n, phase := if q.wptr + 1 = n then !q.phase else q.phase }
    ({ c with slot := some (q.wptr, q.phase) }, false, s)

/-- Issue completions in the order they were committed, ring by ring (R394). -/
def State.cplLoop : List Cpl → List Nat → List Cpl → State → State
  | [], _, done, s => s.onUqi fun u => { u with cpls := done }
  | c :: cs, blocked, done, s =>
    if blocked.contains c.cq then State.cplLoop cs blocked (done ++ [c]) s
    else
      let ans := s.cplIssue c
      let c := ans.1
      let b := ans.2.1
      let s := ans.2.2
      State.cplLoop cs (if b then c.cq :: blocked else blocked) (done ++ [c]) s

def State.cplRun (s : State) : State := State.cplLoop s.uqi.cpls [] [] s

/-- A ring whose RESET is pending and whose commands have all finished is disabled (R375). -/
def State.resetDone (s : State) (r : Nat) : State :=
  let q := s.sq r
  if q.reset ∧ ¬ (cmds s).any (fun (c : Nat × Cmd) => c.2.ring == r) then
    (s.setSq r { q with st := rDISABLED, reset := false, burst := 0 }).clr (F.SQ_C_EN r)
  else s

/-- Free a command-table entry. -/
def State.freeCmd (s : State) (i : Nat) : State :=
  match s.cmd i with
  | none => s
  | some k => ((s.setCmd i none).onUqi fun u => { u with
    freed := tabPut u.freed none i (some k), cpls := u.cpls.filter fun (c : Cpl) => c.idx != i }).resetDone k.ring

/-- The ABORTs that aim at command i learn whether it completed with ABORTED (R390). -/
def State.aimsEnd (s : State) (i status : Nat) : State :=
  State.each (fun (c : Nat × Cmd) s =>
    if c.2.fw.aim = some i then s.setCmd c.1 (some { c.2 with fw := { c.2.fw with aim := none, hit := status == 3 } }) else s) (cmds s) s

/-- Commit a completion (R378, R382): ERRCPL counts a status other than 0 (R425); after RESET it is not written. -/
def State.commitCpl (s : State) (i : Nat) (k : Cmd) (status ed spec : Nat) : State :=
  let s := s.aimsEnd i status
  let s := if status = 0 then s else s.inc (F.ISO_ECNT_4_ERRCPL k.party)
  if k.drop then s.freeCmd i else
  let c : Cpl := { idx := i, ring := k.ring, cq := s.get (F.SQ_8_CQID k.ring), status, ed, spec, sqhead := (s.sq k.ring).fptr }
  (s.setCmd i (some { k with posted := true })).onUqi fun u => { u with cpls := u.cpls ++ [c] }

/-- The message of a completion ring, on its party's current port (R370). -/
def State.cqMessage (s : State) (r : Nat) : State :=
  (s.setCq r { s.cq r with unsig := 0 }).msix (curPort s (cqParty s r)) (s.get (F.CQ_8_IV r))

/-- A completion has been acknowledged (R373): its entry is free, and the ring's message may be due (R370). -/
def State.cplWritten (s : State) (i : Nat) : State :=
  match s.uqi.cpls.find? fun (c : Cpl) => c.idx == i && c.slot.isSome with
  | none => s
  | some c =>
    let s := s.freeCmd i
    let s := s.setCq c.cq { s.cq c.cq with unsig := (s.cq c.cq).unsig + 1 }
    if s.on (F.CQ_8_IEN c.cq) ∧ (s.cq c.cq).unsig ≥ s.get (F.CQ_8_AGGTHR c.cq) + 1 then s.cqMessage c.cq else s

/-! ### The checks at fetch (R380, R381, R386) -/

/-- The right a command's window check requires; none for a command without one (Table 16.1). -/
def rreqOf (opc : Nat) : Option Nat :=
  if opc = 0x01 ∨ opc = 0x04 then some 2 else if opc = 0x02 then some 1 else if opc = 0x05 then some 4 else none

def opcListed (opc : Nat) : Bool := [0x00, 0x01, 0x02, 0x04, 0x05, 0x08, 0x0C, 0x0F].contains opc

/-- The fields of a submission entry (Table 15.5). -/
structure Sqe where
  opc : Nat
  list : Bool
  fua : Bool
  pi : Bool
  flags : Nat
  cid : Nat
  lba : Nat
  nlb : Nat
  dptr : Nat
  dlen : Nat
  mptr : Nat
  deriving DecidableEq, Repr

def sqeOf (e : List Byte) : Sqe :=
  let f := leNat (slice e 1 1)
  { opc := leNat (slice e 0 1), list := f.testBit 0, fua := f.testBit 1, pi := f.testBit 2, flags := f,
    cid := leNat (slice e 2 2), lba := leNat (slice e 8 8), nlb := leNat (slice e 16 4) + 1, dptr := leNat (slice e 24 8),
    dlen := leNat (slice e 32 4), mptr := leNat (slice e 40 8) }

/-- The flags a command may set. -/
def flagsFor (opc : Nat) : Nat :=
  if opc = 0x01 then 7 else if opc = 0x02 then 5 else if opc = 0x04 then 2 else if opc = 0x0C ∨ opc = 0x0F then 1 else 0

/-- Host block size of a party (R383). -/
def blockSize (s : State) (p : Nat) : Nat := if s.on (F.UQI_PCFG_EMU p) then 512 else 4096

/-- The field rules of R386 as offset and whether the field meets them, in order of offset. -/
def fieldRules (s : State) (p : Nat) (b : List Byte) : List (Nat × Bool) :=
  let e := sqeOf b
  let rw := e.opc == 0x01 || e.opc == 0x02
  let blocks := rw || e.opc == 0x04 || e.opc == 0x05
  let data := e.opc == 0x0C || e.opc == 0x0F
  let csf := slice b 0x30 16
  [(0x01, decide (e.flags &&& flagsFor e.opc = e.flags) && !(e.pi && s.on (F.UQI_PCFG_EMU p))),
   (0x04, leNat (slice b 4 4) == 0),
   (0x08, if blocks then decide (e.lba + e.nlb ≤ 2 ^ 48) else e.lba == 0),
   (0x10, if blocks then decide (e.nlb ≤ 32768) else e.nlb == 1),
   (0x14, leNat (slice b 0x14 4) == 0),
   (0x18, if rw then e.dptr != 0 else data || e.dptr == 0),
   (0x20, if rw then e.dlen == e.nlb * blockSize s p
          else if e.opc = 0x0C then decide (e.dlen ≥ 256) else if e.opc = 0x0F then decide (e.dlen ≥ 1) else e.dlen == 0),
   (0x24, leNat (slice b 0x24 4) == 0),
   (0x28, if rw then (e.mptr != 0) == e.pi else e.mptr == 0),
   (0x30, if e.opc = 0x08 then
            decide (leNat (slice csf 0 1) < 64) && sqParty s (leNat (slice csf 0 1)) == p && leNat (slice csf 1 1) == 0 &&
              leNat (slice csf 4 12) == 0
          else if e.opc = 0x0F then leNat (slice csf 0 4) % 16 == 0 && leNat (slice csf 4 12) == 0
          else leNat csf == 0)]

/-- The first offending field of a submission entry. -/
def badField (s : State) (p : Nat) (b : List Byte) : Option Nat :=
  ((fieldRules s p b).find? fun (r : Nat × Bool) => !r.2).map Prod.fst

/-- The 4096-byte units of a command: the first, and how many (R383). -/
def unitsOf (s : State) (p : Nat) (e : Sqe) : Nat × Nat :=
  if s.on (F.UQI_PCFG_EMU p) then (e.lba / 8, (e.lba + e.nlb - 1) / 8 + 1 - e.lba / 8) else (e.lba, e.nlb)

/-- Add an extent, merged with the last where it continues it. -/
def addExtent (l : List (Nat × Nat)) (x n : Nat) : List (Nat × Nat) :=
  match l.getLast? with
  | some (y, m) => if y + m = x then l.dropLast ++ [(y, m + n)] else l ++ [(x, n)]
  | none => [(x, n)]

/-- The outcome of a window check. -/
structure WinRes where
  /-- The unit at which a lookup was refused, and that lookup. -/
  refused : Option (Nat × RmeRes) := none
  exts : List (Nat × Nat) := []

/-- The window check of n units from x (R381): the lookups, each from the first LBA not yet covered. -/
def State.windowCheck (p rreq : Nat) : Nat → Nat → Nat → List RmeErr → List (Nat × Nat) → State → WinRes × State
  | 0, _, _, _, l, s => ({ exts := l }, s)
  | fuel + 1, x, n, errs, l, s =>
    if n = 0 then ({ exts := l }, s) else
    let ans := s.windowLookup p x rreq 4 errs
    let r := ans.1
    let s := ans.2
    if r.result ≠ 0 then ({ refused := some (x, r), exts := l }, s) else
    let k := Nat.min n (Nat.max r.run 1)
    State.windowCheck p rreq fuel (x + k) (n - k) [] (addExtent l (r.out.getD 0) k) s

/-- Host blocks of a command that lie before unit u. -/
def blocksBefore (s : State) (p : Nat) (e : Sqe) (u : Nat) : Nat :=
  if s.on (F.UQI_PCFG_EMU p) then Nat.min e.nlb (u * 8 - e.lba) else u - e.lba

/-- A command waits for its window check: its party's lookups are held, or BUFCK is gated. -/
def checkHeld (s : State) (k : Cmd) : Bool :=
  (rreqOf (sqeOf k.bytes).opc).isSome && (s.rme.held.contains k.party || !firnAwake s)

/-- The core that a party's commands are dispatched to. -/
def dispCore (s : State) (p : Nat) : Master := if s.bit F.UQI_CTL_DISP p then .hc1 else .hc0

/-- Dispatch a command with its extents. -/
def State.dispatch (s : State) (i : Nat) (k : Cmd) (exts : List (Nat × Nat)) : State :=
  let m := dispCore s k.party
  let w := i + k.ring * 1024 + k.party * 65536 + 2147483648
  (s.setCmd i (some { k with core := some m, exts })).onUqi fun u =>
    if m = .hc1 then { u with dq1 := u.dq1 ++ [w] } else { u with dq0 := u.dq0 ++ [w] }

/-- Check one fetched command (R380): it is completed by the UQI hardware, or dispatched. -/
def State.fetchCheck (s : State) (i : Nat) (k : Cmd) (errs : List RmeErr) : State :=
  let e := sqeOf k.bytes
  let p := k.party
  if ¬ opcListed e.opc then s.commitCpl i k 0x01 0 0 else
  match badField s p k.bytes with
  | some o => s.commitCpl i k 0x02 0 o
  | none => match rreqOf e.opc with
    | none => s.dispatch i k []
    | some rreq =>
      let ans := unitsOf s p e
      let x := ans.1
      let n := ans.2
      let ans := State.windowCheck p rreq n x n errs [] s
      let w := ans.1
      let s := ans.2
      match w.refused with
      | some (u, r) =>
        let s := if r.result = 3 then s.inc (F.ISO_ECNT_0_FAULTED p) else s.inc (F.ISO_ECNT_0_REFUSED p)
        let s := s.rmeRefuse p u rreq 4 k.ring e.cid r
        s.commitCpl i k 0x10 0 (blocksBefore s p e u)
      | none =>
        if w.exts.length > 8 then
          s.commitCpl i k 0x04 0 (blocksBefore s p e (x + ((w.exts.take 8).map Prod.snd).foldl (fun a b => a + b) 0))
        else s.dispatch i k w.exts

/-- Run the checks that wait, in fetch order; a held one holds back the later ones of its core. -/
def State.checkLoop : List Nat → List Master → List Nat → List RmeErr → State → State
  | [], _, kept, _, s => s.onUqi fun u => { u with checks := kept }
  | i :: is, blocked, kept, errs, s =>
    match s.cmd i with
    | none => State.checkLoop is blocked kept errs s
    | some k =>
      let m := dispCore s k.party
      if blocked.contains m ∨ checkHeld s k then State.checkLoop is (m :: blocked) (kept ++ [i]) errs s
      else State.checkLoop is blocked kept [] (s.fetchCheck i k errs)

def State.runChecks (s : State) (errs : List RmeErr) : State := State.checkLoop s.uqi.checks [] [] errs s

/-- The lowest free command-table entry. -/
def freeEntry (s : State) : Option Nat := (List.range 1024).find? fun i => (s.cmd i).isNone

/-- A fetched entry of a submission ring takes a free entry of the command table. -/
def State.takeEntry (s : State) (r : Nat) (e : List Byte) : State :=
  match freeEntry s with
  | none => s
  | some i =>
    let p := sqParty s r
    let n := tabGet s.uqi.seq 0 p
    let k : Cmd := { ring := r, party := p, seq := n, bytes := slice e 0 64 }
    (s.setCmd i (some k)).onUqi fun u => { u with seq := tabPut u.seq 0 p (n + 1), checks := u.checks ++ [i] }

/-- Take command-table entries for the entries of a burst (R379, R395). -/
def State.takeEntries (r : Nat) : List (List Byte) → State → State
  | [], s => s
  | e :: es, s => State.takeEntries r es (s.takeEntry r e)

/-! ### Scatter lists and host transfers (R365, R371, R378) -/

/-- Where the walk of a command's list stands: it has covered the range, it needs a page, or it met a fault (kind,
page depth, entry index, address, and for kind 7 the DETAIL of R360). -/
inductive WalkEnd where
  | covered
  | page (a : Nat)
  | fault (kind depth idx addr detail : Nat)
  deriving DecidableEq, Repr

/-- Walk a list (R365, R371) from entry `idx` of the page at `a`, which is the depth-th page, with `pos` bytes of the
command's data before it, for the ranges of [off, off + n). -/
def walkList (s : State) (k : Cmd) (dlen off n : Nat) :
    Nat → Nat → Nat → Nat → Nat → List (Nat × Nat) → List (Nat × Nat) × WalkEnd
  | 0, _, _, _, _, l => (l, .covered)
  | fuel + 1, a, depth, idx, pos, l =>
    if pos ≥ off + n then (l, .covered)
    else if a % 4096 ≠ 0 ∨ a = 0 then (l, .fault 1 depth 0 a 0)
    else if depth > 256 then (l, .fault 5 depth 0 a 0)
    else match hostCheck s a 4096 with
      | some e => (l, .fault 7 depth 0 a e)
      | none => match k.pages.find? fun (x : Nat × List Byte) => x.1 == a with
        | none => (l, .page a)
        | some (_, pg) =>
          let e := slice pg (16 * idx) 16
          let addr := leNat (slice e 0 8)
          let len := leNat (slice e 8 4)
          let t := leNat (slice e 12 1)
          -- A page whose entries end without a CHAIN names no next page (DEDUCED, log entry 28).
          if idx ≥ 256 then (l, .fault 1 depth 255 0 0)
          else if t = 2 then walkList s k dlen off n fuel addr (depth + 1) 0 pos l
          else if t ≠ 1 then (l, .fault 2 depth idx addr 0)
          else if len = 0 then (l, .fault 3 depth idx addr 0)
          else if pos + len > dlen then (l, .fault 4 depth idx addr 0)
          else
            let lo := Nat.max pos off
            let hi := Nat.min (pos + len) (off + n)
            let l := if lo < hi then l ++ [(addr + (lo - pos), hi - lo)] else l
            walkList s k dlen off n fuel a depth (idx + 1) (pos + len) l

/-- The host ranges of bytes [off, off + n) of a command's data. -/
def walk (s : State) (k : Cmd) (off n : Nat) : List (Nat × Nat) × WalkEnd :=
  let e := sqeOf k.bytes
  if e.list then walkList s k e.dlen off n 66000 e.dptr 1 0 0 [] else ([(e.dptr + off, n)], .covered)

/-- The bytes of a list of ranges. -/
def rangesLen (l : List (Nat × Nat)) : Nat := (l.map Prod.snd).foldl (fun a b => a + b) 0

/-- A fault of the walk is recorded (R371): 0x0402 with the ring's party; kind 7 is a refusal of R360 too. -/
def State.listFault (s : State) (k : Cmd) (kind depth idx addr : Nat) : State :=
  let s := (s.inc F.UQI_CNT_LISTF_CNT).raiseBit F.UQI_EVT_LISTF
  let s := if kind = 7 then s.hostRefused else s
  s.event 0x0402 k.party (leBytes 1 k.ring ++ leBytes 1 kind ++ slice k.bytes 2 2 ++ leBytes 2 depth ++ leBytes 1 idx ++
    zeros 1 ++ leBytes 8 addr)

/-- The result of a host transfer. -/
def State.jobResult (s : State) (j : XJob) (cause detail done : Nat) : State :=
  s.onUqi fun u => { u with res := u.res ++ [({ core := j.core, xtag := j.xtag, cause, detail, done } : XRes)] }

/-- An idle channel of the UQI hardware. -/
def uqiChannel (s : State) : Option Nat :=
  (List.range 16).find? fun c => chOwner s c == 5 && (chState s c == chIDLE || chState s c == chHALTED)

/-- The descriptor of a host transfer's present run: it covers the ranges found. -/
def jobDsc (k : Cmd) (j : XJob) : Dsc :=
  let e := sqeOf k.bytes
  let b := j.xbuf + j.done
  { src := if j.out then eBUFFER else eHOST, dst := if j.out then eHOST else eBUFFER, xts := false, party := k.party,
    port := 0, chain := false, crccont := false, irq := false, tag := 0, len := rangesLen j.ranges,
    saddr := if j.out then b else 0, daddr := if j.out then 0 else b,
    hmd := if j.pi then e.mptr + 16 * ((j.xoff + j.done) / 4096) else 0, xlba := 0, next := 0, reserved := false }

/-- Start a host transfer's run on a channel: its descriptor becomes current with DESCRIPTOR_FETCHED. -/
def State.jobStart (s : State) (k : Cmd) (j : XJob) (c : Nat) : State :=
  let d := { jobDsc k j with port := curPort s k.party }
  let s := (s.put (F.CHSTAT_CAUSE c) 0).put (F.CHSTAT_DETAIL c) 0
  let s := s.onChan c fun (x : Chan) => { x with uqi := true, desc := dscBytes d, ranges := j.ranges }
  s.chGo c 0

/-- A command's party has a halted submission ring, or the ring's port is down. -/
def linkLost (s : State) (k : Cmd) : Bool := (s.sq k.ring).st == rHALTED || !portUp s (curPort s k.party)

/-- One host transfer goes on as far as it can: it ends, reads a list page, or takes a channel. Answers it unless it
has ended. -/
def State.jobStep (s : State) (j : XJob) : Option XJob × State :=
  match s.cmd j.idx with
  | none => (none, s)
  | some k =>
    match j.chan with
    | some c =>
      let n := j.done + s.get (F.CHDONE_DONE c)
      if chState s c = chIDLE then
        match j.fault with
        | some (cause, detail) => (none, s.jobResult j cause detail n)
        | none => (none, s.jobResult j 0 0 n)
      else if chState s c = chHALTED then
        let cause := s.get (F.CHSTAT_CAUSE c)
        -- After a move the transfer restarts from its DONE; with HOSTPI, from the sector that holds it (R374).
        if cause = 15 ∧ ¬ linkLost s k then
          (some { j with chan := none, ranges := [], fault := none, done := if j.pi then n / 4096 * 4096 else n }, s)
        else (none, s.jobResult j cause (s.get (F.CHSTAT_DETAIL c)) n)
      else (some j, s)
    | none =>
      if j.page.isSome then (some j, s)
      else if linkLost s k then (none, s.jobResult j 15 0 j.done)
      else
        let ans := if j.fault.isSome then (j.ranges, WalkEnd.covered) else walk s k (j.xoff + j.done) (j.xlen - j.done)
        let l := ans.1
        let e := ans.2
        match e with
        | .page a =>
          let asked := s.uqi.jobs.any fun (i : XJob) => i.idx == j.idx && i.page == some a
          (some { j with page := some a }, if asked then s else
            s.send (curPort s k.party) (.hostRead (curPort s k.party) a 4096))
        | .fault kind depth idx addr detail =>
          let s := s.listFault k kind depth idx addr
          let f := if kind = 7 then (20, detail) else (21, kind)
          if l.isEmpty then (none, s.jobResult j f.1 f.2 j.done) else (some { j with ranges := l, fault := some f }, s)
        | .covered =>
          match uqiChannel s with
          | none => (some { j with ranges := if j.fault.isSome then l else [] }, s)
          | some c => (some { j with ranges := l, chan := some c }, s.jobStart k { j with ranges := l } c)

/-- Every host transfer goes on as far as it can, in the order queued. -/
def State.jobLoop : List XJob → List XJob → State → State
  | [], done, s => s.onUqi fun u => { u with jobs := done }
  | j :: js, done, s =>
    let ans := s.jobStep j
    let j' := ans.1
    let s := ans.2
    State.jobLoop js (done ++ j'.toList) s

/-- The UQI goes on: transfers end and start, completions leave, and entries are fetched. Two rounds let a transfer that
met a fault or ended make way for the next. -/
def State.uqiRun (s : State) : State :=
  let s := State.jobLoop s.uqi.jobs [] s
  let s := State.jobLoop s.uqi.jobs [] s
  State.uqiFetch 64 s.cplRun

/-! ### Ring setup (R361, R362, R375) -/

def sqErr (s : State) (r e : Nat) : State := s.setSq r { s.sq r with err := e }
def cqErr (s : State) (r e : Nat) : State := s.setCq r { s.cq r with err := e }

/-- The first condition of R361 that keeps a submission ring from being enabled. -/
def sqRefuse (s : State) (r : Nat) : Nat :=
  let c := s.get (F.SQ_8_CQID r)
  if ¬ cqOn s c then 1 else if cqParty s c ≠ sqParty s r then 2
  else if (hostCheck s (sqBase s r) (64 * sqSize s r)).isSome then 3
  else if sqBase s r = 0 then 4 else if ¬ s.on (F.DBP_0_EN (sqParty s r)) then 5 else 0

def cqRefuse (s : State) (r : Nat) : Nat :=
  if (hostCheck s (cqBase s r) (16 * cqSize s r)).isSome then 3
  else if cqBase s r = 0 then 4 else if ¬ s.on (F.DBP_0_EN (cqParty s r)) then 5 else 0

/-- Enable a disabled ring with its pointers at 0 (R361). -/
def State.sqEnable (s : State) (r : Nat) : State :=
  match sqRefuse s r with
  | 0 => (s.setSq r { st := rACTIVE }).raiseBit (F.SQ_C_EN r)
  | e => sqErr s r e

def State.cqEnable (s : State) (r : Nat) : State :=
  match cqRefuse s r with
  | 0 => (s.setCq r { st := rACTIVE, phase := true }).raiseBit (F.CQ_C_EN r)
  | e => cqErr s r e

/-- EN = 0 at a submission ring: an ACTIVE one stops fetching and drains (R362). -/
def State.sqDisable (s : State) (r : Nat) : State :=
  let q := s.sq r
  if q.st = rACTIVE then (s.setSq r { q with st := rDRAINING, burst := 0, err := 0 }).clr (F.SQ_C_EN r) else s

/-- A draining ring whose commands all have their completions written is disabled (R362). -/
def State.sqDrained (s : State) (r : Nat) : State :=
  let q := s.sq r
  if q.st = rDRAINING ∧ ¬ (cmds s).any (fun (c : Nat × Cmd) => c.2.ring == r) then s.setSq r { q with st := rDISABLED } else s

/-- EN = 0 at a completion ring (R361, R362). -/
def State.cqDisable (s : State) (r : Nat) : State :=
  if ¬ cqOn s r then s
  else if (List.range 64).any (fun q => sqOn s q && s.get (F.SQ_8_CQID q) == r) then cqErr s r 7
  else (s.setCq r { s.cq r with st := rDISABLED, err := 0 }).clr (F.CQ_C_EN r)

/-- Write the completions that had been issued again, in order, in their slots (R374, R375): how many, and the state. -/
def State.resend (s : State) (pick : Cpl → Bool) : Nat × State :=
  let l := s.uqi.cpls.filter fun (c : Cpl) => pick c && c.slot.isSome
  (l.length, State.each (fun (c : Cpl) s => match c.slot with
    | some (n, ph) => s.cplSend c n ph
    | none => s) l s)

/-- A doorbell fetch that the port's loss abandoned is made again (Table 15.15). -/
def State.refetch (s : State) (p : Nat) : State :=
  if tabGet s.uqi.fetch 0 p = 0 ∧ s.uqi.again.testBit p then
    (s.onUqi fun u => { u with again := setBit u.again p false }).dbRequest p
  else s

/-- RESUME at a submission ring in HALTED_LINK (R375). -/
def State.sqResume (s : State) (r : Nat) : State :=
  let q := s.sq r
  let c := s.get (F.SQ_8_CQID r)
  if q.st ≠ rHALTED ∨ q.reset ∨ ¬ portUp s (curPort s (sqParty s r)) then s else
  let s := s.setSq r { q with st := rACTIVE, err := 0 }
  let s := s.setCq c { s.cq c with st := rACTIVE }
  ((s.resend fun k => k.ring == r).2.refetch (sqParty s r)).uqiRun

/-- RESUME at a completion ring that an ACTIVE submission ring names. -/
def State.cqResume (s : State) (r : Nat) : State :=
  if (s.cq r).st = rHALTED ∧ portUp s (curPort s (cqParty s r)) ∧
      (List.range 64).any (fun q => (s.sq q).st == rACTIVE && s.get (F.SQ_8_CQID q) == r) then
    (s.setCq r { s.cq r with st := rACTIVE, err := 0 }).uqiRun
  else s

/-- RESET at a submission ring in HALTED_LINK (R375): retained completions go, and its commands finish unwritten. -/
def State.sqReset (s : State) (r : Nat) : State :=
  let q := s.sq r
  if q.st ≠ rHALTED then s else
  let s := s.setSq r { q with reset := true, err := 0 }
  let s := State.each (fun (c : Nat × Cmd) s => if c.2.ring ≠ r then s
    else if c.2.posted then s.freeCmd c.1 else s.setCmd c.1 (some { c.2 with drop := true })) (cmds s) s
  s.resetDone r

/-- A write to a setup word of a disabled ring is stored; SIZEM1 0 is stored as 1 (Table 15.4). -/
def sizeWord (v : Word) : Word := if bitsOf v 11 0 = 0 then withBits v 11 0 1 else v

/-- A write to a submission ring's setup words 0 to 2 (R361). -/
def State.sqSetup (s : State) (r w : Nat) (v : Word) : State :=
  let k := R.SQ_0 r + 4 * w
  let v := if w = 0 then v &&& 0xFFFFF000 else if w = 2 then sizeWord (v &&& 0x003F0FFF) else v
  if sqOn s r then sqErr s r 6 else sqErr (s.wr k v) r 0

/-- A write to a completion ring's setup words 0 to 2. IEN may change while the ring is enabled: the write of its word
sets ERR 6 only if it would change a protected field (DEDUCED, log entry 71). -/
def State.cqSetup (s : State) (r w : Nat) (v : Word) : State :=
  let k := R.CQ_0 r + 4 * w
  let v := if w = 0 then v &&& 0xFFFFF000 else if w = 2 then sizeWord (v &&& 0xF11F0FFF) else v
  if ¬ cqOn s r then cqErr (s.wr k v) r 0
  else if w = 2 then
    cqErr (s.put (F.CQ_8_IEN r) (bitsOf v 24 24)) r (if s.rd k = withBits v 24 24 (bitsOf (s.rd k) 24 24) then 0 else 6)
  else cqErr s r 6

/-- A write to a submission ring's control word. -/
def State.sqControl (s : State) (r : Nat) (v : Word) : State :=
  if bitsOf v 5 5 = 1 then s.sqReset r
  else if bitsOf v 4 4 = 1 then s.sqResume r
  else if bitsOf v 0 0 = 1 then (if sqOn s r then s else s.sqEnable r)
  else s.sqDisable r

/-- A write to a completion ring's control word: AGGTIME is a setup field. -/
def State.cqControl (s : State) (r : Nat) (v : Word) : State :=
  if bitsOf v 4 4 = 1 ∧ cqOn s r then s.cqResume r
  else
    let same := s.get (F.CQ_C_AGGTIME r) == bitsOf v 15 8
    let s := if cqOn s r then (if same then s else cqErr s r 6) else cqErr (s.put (F.CQ_C_AGGTIME r) (bitsOf v 15 8)) r 0
    if bitsOf v 0 0 = 1 then (if cqOn s r then s else s.cqEnable r) else s.cqDisable r

/-! ### Ports going down, and moves (R363, R373, R374) -/

/-- Move party p to port q: later requests use it, with one doorbell fetch and a message of each completion ring. -/
def State.moveRings (s : State) (p q : Nat) : State :=
  let s := s.onUqi fun u => { u with cur := tabPut u.cur 0 p q }
  let s := s.dbRequest p
  State.each (fun r s => if cqOn s r ∧ cqParty s r = p ∧ s.on (F.CQ_8_IEN r) then s.cqMessage r else s) (List.range 64) s

/-- Record 0x0403 (Table 15.13). -/
def State.moveRecord (s : State) (frm to_ cause parties again restarted : Nat) : State :=
  (s.raiseBit F.UQI_EVT_MOVED).event 0x0403 0xFF (leBytes 1 frm ++ leBytes 1 to_ ++ leBytes 1 cause ++ zeros 1 ++
    leBytes 2 parties ++ leBytes 2 again ++ leBytes 2 restarted ++ zeros 2)

/-- A write of DBP[p].PORT (R363): with an enabled ring, the party moves with cause 0. -/
def State.dbpPort (s : State) (p q : Nat) : State :=
  let q := if x2 s then 0 else q
  let s := s.put (F.DBP_0_PORT p) q
  if partyRings s p ∧ curPort s p ≠ q then ((s.moveRings p q).moveRecord (curPort s p) q 0 (2 ^ p) 0 0).uqiRun
  else s.onUqi fun u => { u with cur := tabPut u.cur 0 p q }

/-- A write to DBP[p] +0x0: ADDR is protected while any ring of p is enabled. -/
def State.dbpWrite (s : State) (p : Nat) (v : Word) : State :=
  let s := (s.put (F.DBP_0_EN p) (bitsOf v 0 0)).put (F.DBP_0_FOVR p) (bitsOf v 2 2)
  let s := if partyRings s p then s else s.put (F.DBP_0_ADDR_LO p) (bitsOf v 31 12)
  s.dbpPort p (bitsOf v 1 1)

/-- A function's reset (R376): configuration space, MSI-X table and pending bits. -/
def Port.functionReset (p : Port) : Port := { dl := p.dl, perst := p.perst, l1 := p.l1, up := p.up, cause := p.cause }

/-- Halt a party's enabled rings (R375). -/
def State.haltRings (s : State) (p : Nat) : State :=
  State.each (fun r s =>
    let s := if sqOn s r ∧ sqParty s r = p then s.setSq r { s.sq r with st := rHALTED, burst := 0 } else s
    if cqOn s r ∧ cqParty s r = p then s.setCq r { s.cq r with st := rHALTED } else s) (List.range 64) s

/-- The parties of a bitmap. -/
def partiesOf (n : Nat) : List Nat := (List.range 16).filter fun p => n.testBit p

def bitmapOf (l : List Nat) : Nat := l.foldl (fun n p => n ||| 2 ^ p) 0

/-- The steps taken when a port that was up goes down (R373). The port's own state has changed before. -/
def State.portLost (s : State) (q cause : Nat) : State :=
  let s := s.onPort q fun (p : Port) => { p with up := false, cause, l1 := false }
  let s := (s.inc F.UQI_CNT_PDOWN_CNT).raiseBit F.UQI_EVT_PDOWN
  -- HOST transfers on the port halt at a TLP boundary.
  let s := State.each (fun c s =>
    if (s.chan c).live ∧ hostEnd (s.dsc c) ∧ (s.dsc c).port = q then s.chStop c 15 else s) (List.range 16) s
  let mine := (List.range 16).filter fun p => curPort s p == q
  -- Outstanding doorbell, entry and list reads are abandoned; an abandoned doorbell fetch is repeated after RESUME.
  let s := s.onUqi fun u => { u with
    fetch := u.fetch.filter fun (f : Nat × Nat) => !mine.contains f.1
    again := (mine.foldl (fun n p => setBit n p (tabGet u.fetch 0 p != 0)) u.again) }
  let s := State.each (fun r s => if mine.contains (sqParty s r) then s.setSq r { s.sq r with burst := 0 } else s) (List.range 64) s
  let s := s.onUqi fun u => { u with jobs := u.jobs.map fun (j : XJob) => match s.cmd j.idx with
    | some k => if mine.contains k.party then { j with page := none } else j
    | none => j }
  let other := 1 - q
  let active := mine.filter (partyRings s)
  let inFlight := (cmds s).filter fun (c : Nat × Cmd) => mine.contains c.2.party
  let moved := if cause = 1 ∧ portUp s other then mine.filter fun p => s.on (F.DBP_0_FOVR p) && !x2 s else []
  let halted := active.filter fun p => !moved.contains p
  let s := State.each (fun p s => s.haltRings p) halted s
  let retained := (s.uqi.cpls.filter fun (c : Cpl) => halted.contains (sqParty s c.ring)).length
  let s := if active.isEmpty then s else
    s.event 0x0401 0xFF (leBytes 1 q ++ leBytes 1 cause ++ leBytes 2 (bitmapOf moved) ++ leBytes 2 (bitmapOf halted) ++
      leBytes 2 inFlight.length ++ leBytes 2 retained ++ zeros 6 ++
      (List.range 16).flatMap fun p => leBytes 2 ((inFlight.filter fun (c : Nat × Cmd) => c.2.party == p).length))
  if moved.isEmpty then s.uqiRun else
  let s := s.onUqi fun u => { u with
    cur := moved.foldl (fun t p => tabPut t 0 p other) u.cur
    again := moved.foldl (fun n p => setBit n p false) u.again }
  let ans := s.resend fun c => moved.contains (sqParty s c.ring)
  let n := ans.1
  let s := ans.2
  let restarted := (s.uqi.jobs.filter fun (j : XJob) => match j.chan, s.cmd j.idx with
    | some c, some k => moved.contains k.party && chState s c == chHALTED && s.get (F.CHSTAT_CAUSE c) == 15
    | _, _ => false).length
  let s := s.uqiRun
  let s := State.each (fun p s => s.moveRings p other) moved s
  (s.moveRecord q other cause (bitmapOf moved) n restarted).uqiRun

/-- A port's conditions have changed: it becomes up, or it goes down with a cause (R358, R373). -/
def State.portSettle (s : State) (q cause : Nat) : State :=
  if portUp s q ∧ ¬ (s.port q).up then ((s.onPort q fun (p : Port) => { p with up := true }).msixPending q).uqiRun
  else if ¬ portUp s q ∧ (s.port q).up then s.portLost q cause
  else s

/-- A conventional reset of a port, as HMWCTL.LOCK sees it (Table 15.3). -/
def State.hmwReset (s : State) (q : Nat) : State :=
  let s := s.onUqi fun u => { u with hmwReset := setBit u.hmwReset q true }
  if s.uqi.hmwReset.testBit 0 ∧ (x2 s ∨ s.uqi.hmwReset.testBit 1) then s.clr F.HMWCTL_LOCK else s

end Sys2Proof.Machine
end

