-- ==== Sys2Proof/Machine/OrdOps.lean ====
section
/-! DEFINITION. The rotational orderer's shared operations: placing, arming, ends, results and shares (R400 to R408,
R450). -/

namespace Sys2Proof.Machine

open Sys2Proof

def State.onOrd (s : State) (f : OrdState → OrdState) : State := { s with ord := f s.ord }

/-- Replace a request by the one with its number. -/
def State.setReq (s : State) (r : OrdReq) : State :=
  s.onOrd fun o => { o with reqs := o.reqs.map fun (x : OrdReq) => if x.id = r.id then r else x }

def rev : Nat := 4294967296

/-! ### Placement (R401, R402) -/

/-- A valid zone of ORD_ZONE. -/
structure Zone where
  pba0 : Nat
  head : Nat
  trk0 : Nat
  skew : Nat
  k : Nat
  spt : Nat
  deriving DecidableEq, Repr

def zones (s : State) : List Zone :=
  ((List.range 64).filter fun z => s.on (F.ORD_ZONE_4_V z)).map fun z =>
    { pba0 := s.get (F.ORD_ZONE_0_PBA0 z) + s.get (F.ORD_ZONE_4_PBA0 z) * rev, head := s.get (F.ORD_ZONE_4_HEAD z)
      trk0 := s.get (F.ORD_ZONE_8_TRK0 z), skew := s.get (F.ORD_ZONE_8_SKEW z), k := s.get (F.ORD_ZONE_C_K z)
      spt := s.get (F.ORD_ZONE_C_SPT z) }

/-- The zone of a PBA among zones in ascending order. -/
def zoneOf (x : Nat) : List Zone → Option Zone
  | [] => none
  | [z] => if z.pba0 ≤ x ∧ x < z.pba0 + z.spt * 1048576 then some z else none
  | z :: y :: l => if z.pba0 ≤ x ∧ x < y.pba0 ∧ z.spt ≠ 0 then some z else zoneOf x (y :: l)

/-- Where a PBA lies, as an operation of one sector (R401). -/
def placePba (zs : List Zone) (off x : Nat) : Option OrdOp :=
  (zoneOf x zs).map fun z =>
    let o := x - z.pba0
    let t := o / z.spt
    { off, n := 1, head := z.head, track := (z.trk0 + t) % 16777216, dbit := (o % z.spt + t * z.skew) % z.spt * sectorLen, k := z.k }

/-- Join sectors that follow one another on one track into operations (R402). -/
def joinOps : List OrdOp → List OrdOp
  | [] => []
  | a :: l => match joinOps l with
    | b :: m => if a.head = b.head ∧ a.track = b.track ∧ a.k = b.k ∧ b.off = a.off + 1 ∧ b.dbit = a.dbit + sectorLen then
        { a with n := b.n + 1 } :: m
      else a :: b :: m
    | [] => [a]

/-- The defect lookups of a request (R402): the PBA of each sector, by offset, or none for a FAULT. A lookup serves the
sectors that follow within RUN. -/
def State.ordLookups (mlba : Nat) : List Nat → Option (Nat × Nat × Nat) → List RmeErr → State → Option (List (Nat × Nat)) × State
  | [], _, _, s => (some [], s)
  | o :: os, seen, errs, s =>
    let x := mlba + o
    let hit := match seen with
      | some (a, out, run) => if a ≤ x ∧ x < a + run then some (a, out, run) else none
      | none => none
    match hit with
    | some (a, out, run) =>
      let ans := State.ordLookups mlba os (some (a, out, run)) errs s
      let l := ans.1
      let s := ans.2
      (l.map fun l => (o, out + (x - a)) :: l, s)
    | none =>
      let ans := s.defectLookup x 5 errs
      let r := ans.1
      let s := ans.2
      if r.result = 3 then (none, s) else
      let ans := State.ordLookups mlba os (some (x, r.out.getD 0, r.run)) [] s
      let l := ans.1
      let s := ans.2
      (l.map fun l => (o, r.out.getD 0) :: l, s)

/-- Place a request once the RME runs (R401, R402): its operations, or MAPF. -/
def State.ordPlace (s : State) (r : OrdReq) : State :=
  if r.placed ∨ ¬ firnAwake s then s else
  let ans := State.ordLookups r.mlba r.offs none r.errs s
  let l := ans.1
  let s := ans.2
  let ops := l.bind fun l => l.foldr (fun (p : Nat × Nat) (a : Option (List OrdOp)) =>
    a.bind fun a => (placePba (zones s) p.1 p.2).map fun (o : OrdOp) => o :: a) (some [])
  match ops with
  | some ops => s.setReq { r with placed := true, errs := [], ops := if r.retry then ops else joinOps ops }
  | none => s.setReq { r with placed := true, errs := [], mapf := true }

/-! ### Shares (R406) -/

/-- The part of spans that lies in the last 8 revolutions. -/
def lately (now : Nat) (l : List (Nat × Nat)) : Nat :=
  (l.map fun (p : Nat × Nat) => Nat.min p.2 now - Nat.max p.1 (now - 8 * rev)).foldl (fun a b => a + b) 0

def recent (now : Nat) (l : List (Nat × Nat)) : List (Nat × Nat) := l.filter fun (p : Nat × Nat) => decide (p.2 + 8 * rev > now)

/-- Note whether a party has pending requests. -/
def State.ordPending (s : State) (p : Nat) : State :=
  let now := angleNow s
  let has := s.ord.reqs.any fun (r : OrdReq) => r.party == p
  match tabGet s.ord.since none p with
  | none => if has then s.onOrd fun o => { o with since := tabPut o.since none p (some now) } else s
  | some a => if has then s else s.onOrd fun o =>
      { o with since := tabPut o.since none p none, spans := tabPut o.spans [] p (recent now (tabGet o.spans [] p) ++ [(a, now)]) }

/-- A party's share deficit, in 1/256 tick. -/
def shareDeficit (s : State) (p : Nat) : Int :=
  let now := angleNow s
  let live := match tabGet s.ord.since none p with
    | some a => [(a, now)]
    | none => []
  (s.get (F.ORD_SHARE_SHARE p) * lately now (tabGet s.ord.spans [] p ++ live) : Nat) -
    (256 * lately now (tabGet s.ord.uses [] p) : Nat)

/-! ### Results (R407, R408) -/

/-- ORD_STAT counts the requests and the armed operations. -/
def State.ordStat (s : State) : State :=
  (s.put F.ORD_STAT_PEND s.ord.reqs.length).put F.ORD_STAT_ARMED
    ((s.ord.reqs.flatMap OrdReq.ops).filter fun (o : OrdOp) => o.tag.isSome).length

/-- Post a result to a core's bank. -/
def State.ordResult (s : State) (m : Master) (r : OrdRes) : State :=
  (s.onOrd fun o => { o with results := tabPut o.results [] m.idx (tabGet o.results [] m.idx ++ [r]) }).raiseBit (F.ORD_EVT_RESV m)

/-- The sectors of a request that are done, by offset. -/
def doneOffs (r : OrdReq) : List Nat := r.ops.flatMap fun (o : OrdOp) => (List.range o.ndone).map fun i => o.off + i

/-- The leading sectors of a request that are done. -/
def leadDone (r : OrdReq) : Nat := (r.offs.takeWhile fun o => (doneOffs r).contains o).length

/-- The SRES of the first sector that ended a request. -/
def endRes (r : OrdReq) : Nat :=
  let bad := r.ops.filter fun (o : OrdOp) => o.fin && o.res != 0
  (bad.foldl (fun (b : Nat × Nat) (o : OrdOp) => if o.off < b.1 then (o.off, o.res) else b) (2 ^ 64, 0)).2

def maskOfList (l : List Nat) : Mask := BitVec.ofNat 64 (l.foldl (fun a i => a ||| 2 ^ (i % 64)) 0)

/-- A request is over: it leaves the orderer with its result, or with its WBDONEs. -/
def State.ordReturn (s : State) (r : OrdReq) (res : Nat) : State :=
  let s := s.onOrd fun o => { o with reqs := o.reqs.filter fun (x : OrdReq) => x.id != r.id }
  match r.clq with
  | none => s.ordResult r.core { rtag := r.rtag, ndone := leadDone r, res, mapf := r.mapf, mlba := 0 }
  | some e =>
    let good := doneOffs r
    let bad := r.offs.filter fun o => !good.contains o
    let k := e.set * 8 + e.way
    let s := if good.isEmpty then s else s.wbDone k e.gen (maskOfList good) true
    let s := if bad.isEmpty then s else s.wbDone k e.gen (maskOfList bad) false
    let s := match bad with
      | o :: _ => s.ordResult .mc { rtag := 0xFF, ndone := leadDone r, res, mapf := r.mapf, mlba := r.mlba + o }
      | [] => s
    State.each (fun m s => s.raiseBit (F.ORD_EVT_WBEND m)) [Master.sec, .hc0, .hc1, .mc] s

/-- Requests whose operations have all ended are returned; those with MAPF at once. -/
def State.ordReturns (s : State) : State :=
  State.each (fun (r : OrdReq) s =>
    if r.mapf then s.ordReturn r 0
    else if r.placed ∧ r.ops.all OrdOp.fin then s.ordReturn r (endRes r)
    else s) s.ord.reqs s

/-! ### Ends (R407) -/

/-- The results after which an operation is re-queued: SUPP, BADTIME, BADOP, ABORT, SERVOLAP and NOCLK. -/
def retried (res : Nat) : Bool := [9, 10, 11, 6, 12, 13].contains res

/-- Results of operations whose data window was not used. -/
def unused (res : Nat) : Bool := [9, 10, 11, 13].contains res

/-- The operations of a request after the one under tag t has ended with `nd` leading sectors done, `next` sectors
passed and result `res`: its undone sectors are re-queued, or it ends, and with it the operations not armed. -/
def opsAfter (limit nd next res : Nat) (t : Nat) (ops : List OrdOp) : List OrdOp :=
  match ops.find? fun (o : OrdOp) => o.tag == some t with
  | none => ops
  | some o =>
    if retried res ∧ o.tries < limit ∧ next < o.n then
      ops.flatMap fun (x : OrdOp) => if x.tag = some t then
          (if next = 0 then [] else [{ x with n := next, tag := none, fin := true, ndone := Nat.min nd next }]) ++
            [{ x with off := x.off + next, n := x.n - next, dbit := x.dbit + next * sectorLen, tries := x.tries + 1, tag := none, started := false }]
        else [x]
    else if res = 0 then ops.map fun (x : OrdOp) => if x.tag = some t then { x with tag := none, fin := true, ndone := nd } else x
    else (ops.filter fun (x : OrdOp) => x.tag.isSome || x.fin).map fun (x : OrdOp) =>
      if x.tag = some t then { x with tag := none, fin := true, ndone := nd, res } else x

/-- The operation of a tag has ended: the orderer reads its MOPS entry. -/
def State.ordEnd (s : State) (t : Nat) : State :=
  match s.ord.reqs.find? fun (r : OrdReq) => r.ops.any fun (o : OrdOp) => o.tag == some t with
  | none => s
  | some r =>
    let nd := s.get (F.MOPS_NDONE t)
    let res := s.get (F.MOPS_RES t)
    let next := if r.cont ∧ ¬ r.write then passedOf s t else nd
    let o := (r.ops.find? fun (o : OrdOp) => o.tag == some t).getD { off := 0, n := 0, head := 0, track := 0, dbit := 0, k := 0 }
    let s := if unused res then s else s.onOrd fun (x : OrdState) =>
      { x with uses := tabPut x.uses [] r.party (recent (angleNow s) (tabGet x.uses [] r.party) ++ [(o.due, o.ends)]) }
    let c := mopChan s t
    let s := if (s.chan c).fetching ∧ s.get (F.CHDESC_ADDR c) = s.get F.ORD_DBASE_ADDR * 64 + 64 * t then s.chHalt c 18 res else s
    let e := s.entry t
    let s := if e.st = .armed then s.setEntry t { e with st := .cancelled } else s
    s.setReq { r with ops := opsAfter (s.get F.ORD_CTL_RETRY) nd next res t r.ops }

def State.ordEnds (s : State) : State :=
  State.each (fun t s => s.ordEnd t) s.chn.ended (s.onChn fun n => { n with ended := [] })

/-! ### Arming (R403, R404) -/

/-- The orderer may post targets and arm: HWORD = 1, FLOW, the ATB LOCKED (R405). -/
def ordMay (s : State) : Bool :=
  s.on F.ASC_CTL_HWORD && s.mode == mFLOW && !s.on F.PCM_STAT_PEND && s.get F.ATB_STAT_STATE == 2

/-- TGT of an operation (R404): 16K bits before its first preamble bit, with f taken from WOFF alone. -/
def opTgt (s : State) (o : OrdOp) : Nat :=
  let b := revBit o.k (fieldBit o.k (s.get F.SRV_WOFF_WOFF)) o.dbit
  ((b - 16 * o.k) * 262144 / Nat.max o.k 1 % 4294967296).toNat

/-- An operation with its passage at or after `lo`. -/
def opTimed (s : State) (lo : Nat) (write retry : Bool) (o : OrdOp) : OrdOp :=
  let f := fieldBit o.k (s.get F.SRV_WOFF_WOFF)
  let due := passage (opTgt s o) lo
  let len := revBit o.k f (o.dbit + (o.n - 1) * sectorLen + 36935) - revBit o.k f o.dbit + 1 + s.get F.CHN_CTL_WGTRAIL
  let k := Nat.max o.k 1
  let ends := due + bitTicks k (16 * o.k + len)
  { o with due, ends, free := if write || retry then ends else ends + bitTicks k (2 * sectorLen) }

/-- The operations that are armed. -/
def armedOps (s : State) : List OrdOp := (s.ord.reqs.flatMap OrdReq.ops).filter fun (o : OrdOp) => o.tag.isSome

/-- The channel serves one operation and holds one more (R266), so that at no operation's event are there two before
it, and no two media phases meet. -/
def opFits (l : List OrdOp) (x : OrdOp) : Bool :=
  let l' := x :: l
  (l'.all fun (p : OrdOp) => decide ((l'.filter fun (o : OrdOp) => decide (o.due ≤ p.due) && decide (p.due < o.free)).length ≤ 2)) &&
  l.all fun (o : OrdOp) => decide (o.ends ≤ x.due + 16 * 262144) || decide (x.ends ≤ o.due + 16 * 262144)

/-- One element of a list, which the spec leaves open: a free number picks it (DESIGN CHOICE, log entry 40). -/
def pickFrom (l : List Nat) (v : Nat) : Option Nat := l[v % l.length]?

/-- The DMA channels that the orderer may use (R400). -/
def ordChannels (s : State) : List Nat := (List.range 16).filter fun c => s.bit F.ORD_DMA_CH c && chOwner s c == 6

/-- The tags whose MOP and ASC entry are free. -/
def freeTags (s : State) : List Nat :=
  (List.range 128).filter fun t => (mopState s t == mopFREE || mopState s t == mopDONE) && !ascValid (s.entry t) &&
    !(armedOps s).any fun (o : OrdOp) => o.tag == some t

/-- The descriptor of an operation (R400). -/
def ordDsc (r : OrdReq) (o : OrdOp) (t : Nat) : Dsc :=
  let a := r.buf + 4096 * o.off
  { src := if r.write then eBUFFER else eCHANNEL, dst := if r.write then eCHANNEL else eBUFFER, xts := r.xts, party := r.party,
    port := 0, chain := false, crccont := false, irq := false, tag := t, len := 4096 * o.n,
    saddr := if r.write then a else 0, daddr := if r.write then 0 else a, hmd := 0, xlba := 0, next := 0, reserved := false }

/-- Arm one operation under a tag and a channel: its MOP, its descriptor and its scheduler entry (R400, R404). -/
def State.ordArmOp (s : State) (r : OrdReq) (o : OrdOp) (t c : Nat) : State :=
  let lba := r.mlba + o.off
  let flag (b : Bool) (n : Nat) : Nat := if b then n else 0
  let w (n : Nat) : Word := BitVec.ofNat 32 n
  let s := (s.wr (R.MOP0 t) (w (o.dbit % 67108864 + o.head * 67108864 + flag r.write 2147483648))).wr (R.MOP1 t)
    (w (o.k % 8192 + o.n % 256 * 65536 + flag r.retry 16777216 + flag r.final 33554432 + flag r.cont 536870912 +
      s.get (F.UQI_PCFG_EMU r.party) * 1073741824))
  let s := ((s.wr (R.MOP2 t) (w lba)).wr (R.MOP3 t) (w (lba / 4294967296 % 65536 + r.party * 65536 + c * 1048576))).mopCommit t
  let s := s.dmaWrite (s.get F.ORD_DBASE_ADDR * 64 + 64 * t) (dscBytes (ordDsc r o t))
  let e : AscEntry := { tgt := w o.due, cfg := w ((if r.write then 3 + 9 * 16 else 2 + 8 * 16) + 512 + o.due / rev % 65536 * 65536), arg := w t, st := .armed, due := o.due }
  let s := s.setEntry t e
  s.setReq { r with ops := r.ops.map fun (x : OrdOp) => if x.off = o.off ∧ ¬ x.fin then { o with tag := some t } else x }

/-- Arm the pending operation numbered (request, offset), if it fits. Which free tag and which listed channel it gets is
open (DESIGN CHOICE, log entry 40). -/
def State.ordArmAt (s : State) (id off : Nat) : State :=
  match s.ord.reqs.find? fun (r : OrdReq) => r.id == id with
  | none => s
  | some r => match r.ops.find? fun (o : OrdOp) => o.off == off && !o.fin && o.tag.isNone with
    | none => s
    | some o =>
      let o := opTimed s (angleNow s + twoCycles) r.write r.retry o
      if ¬ opFits (armedOps s) o then s else
      let (v, s) := s.draw
      match pickFrom (freeTags s) v.toNat, pickFrom (ordChannels s) (v.toNat / 4294967296) with
      | some t, some c => s.ordArmOp r o t c
      | _, _ => s

/-- Put an operation among others by its start angle. -/
def insertDue (x : Nat × Nat × Nat) : List (Nat × Nat × Nat) → List (Nat × Nat × Nat)
  | [] => [x]
  | y :: l => if x.1 < y.1 then x :: y :: l else y :: insertDue x l

/-- The pending operations on a track in order of start angle: passage, request and offset. -/
def pendingOn (s : State) (head track : Nat) : List (Nat × Nat × Nat) :=
  let l := s.ord.reqs.flatMap fun (r : OrdReq) =>
    (r.ops.filter fun (o : OrdOp) => !o.fin && o.tag.isNone && o.head == head && o.track == track).map fun (o : OrdOp) =>
      (passage (opTgt s o) (angleNow s + twoCycles), r.id, o.off)
  l.foldl (fun a x => insertDue x a) []

/-- Arm every pending operation on the acknowledged track (R404). -/
def State.ordArm (s : State) : State :=
  if ¬ ordMay s ∨ s.on F.ORD_NEXT_VALID then s else
  match s.ord.pos with
  | none => s
  | some (h, t) => State.each (fun (x : Nat × Nat × Nat) s => s.ordArmAt x.2.1 x.2.2) (pendingOn s h t) s

/-- Start the descriptor of the next armed operation on each listed channel that runs none. -/
def State.ordStart (s : State) (c : Nat) : State :=
  if ¬ s.bit F.ORD_DMA_CH c ∨ chOwner s c ≠ 6 ∨ chState s c = chRUN ∨ chState s c = chHELD then s else
  let l := (armedOps s).filter fun (o : OrdOp) => !o.started && mopChan s (o.tag.getD 0) == c
  match l.foldl (fun (b : Option OrdOp) o => match b with
      | some a => if o.due < a.due then some o else some a
      | none => some o) none with
  | none => s
  | some o =>
    let t := o.tag.getD 0
    let s := s.onOrd fun (x : OrdState) => { x with reqs := x.reqs.map fun (r : OrdReq) =>
      { r with ops := r.ops.map fun (p : OrdOp) => if p.tag = some t then { p with started := true } else p } }
    s.chStart c (s.get F.ORD_DBASE_ADDR * 64 + 64 * t)

/-- Everything the orderer does by itself after something has changed: it places, takes ends, returns requests, arms,
starts descriptors and keeps its accounts. -/
def State.ordSettle (s : State) : State :=
  let s := State.each (fun (r : OrdReq) s => s.ordPlace r) s.ord.reqs s
  let s := (s.ordEnds).ordReturns.ordArm
  let s := State.each (fun c s => s.ordStart c) (List.range 16) s
  (State.each (fun p s => s.ordPending p) (List.range 16) s).ordStat

/-- What waits for a channel, an operation or a data mover goes on. -/
def State.chSettle (s : State) : State := s.judgeAll.ordSettle.uqiRun

/-- RETREAT entry (R450): the armed entries are cancelled, every request ends, and HWORD clears. The operations under
way must have been stopped before. -/
def State.ordCancel (s : State) : State :=
  if ¬ s.on F.ASC_CTL_HWORD then s else
  let s := State.each (fun i s => let e := s.entry i; if ascValid e then s.setEntry i { e with st := .cancelled } else s) (List.range 128) s
  let s := s.ordEnds
  let s := State.each (fun (r : OrdReq) s =>
    let ops := r.ops.map fun (o : OrdOp) => { o with tag := none, fin := true }
    s.ordReturn { r with ops } (if r.write then 9 else 13)) s.ord.reqs s
  let s := State.each (fun t s => if mopState s t = mopREADY then s.put (F.MOPS_STATE t) mopFREE else s) (List.range 128) s
  ((State.each (fun p s => s.ordPending p) (List.range 16) s).ordStat.clr F.ORD_NEXT_VALID).clr F.ASC_CTL_HWORD

end Sys2Proof.Machine
end

