-- ==== Sys2Proof/Machine/PmxOps.lean ====
section
/-! DEFINITION. The pin multiplexer's shared operations: which signal a ball carries, what is busy, and the UART's
transmit side (R69 to R75, R78). -/

namespace Sys2Proof.Machine

open Sys2Proof

def State.onPmx (s : State) (f : PmxState → PmxState) : State := { s with pmx := f s.pmx }

/-- The peripheral signals of Table 3.9. -/
inductive Signal where
  | uartTx | uartRx | shk0 | shk1 | trace (k : Nat)
  deriving DecidableEq, Repr

/-- The signal that a function of a ball carries (Table 3.9). -/
def signalOf (n f : Nat) : Option Signal :=
  match n, f with
  | 0, 1 => some .uartTx
  | 1, 1 => some .uartRx
  | 2, 1 => some .shk0
  | 3, 1 => some .shk1
  | 4, 1 => some (.trace 0)
  | 4, 2 => some .uartTx
  | 5, 1 => some (.trace 1)
  | 5, 2 => some .uartRx
  | 6, 1 => some (.trace 2)
  | 6, 2 => some .shk0
  | 7, 1 => some (.trace 3)
  | 7, 2 => some .shk1
  | 8, 1 => some (.trace 4)
  | 8, 2 => some .uartTx
  | 9, 2 => some .uartRx
  | _, _ => none

def balls : List Nat := List.range 24

def pinSel (s : State) (n : Nat) : Nat := s.get (F.PMX_PIN_SEL n)
def pinAct (s : State) (n : Nat) : Nat := s.get (F.PMX_PIN_ACT n)

/-- The clock domain of a peripheral (R76): REFCK for the UART, SVCK for the SRV block's shock inputs and trace port. -/
def signalDomain : Signal → Nat
  | .uartTx => 1
  | .uartRx => 1
  | .shk0 => 6
  | .shk1 => 6
  | .trace _ => 6

/-- The active function of a ball carries a signal whose clock domain is stopped (R76). -/
def ballStopped (s : State) (n : Nat) : Bool :=
  match signalOf n (pinAct s n) with
  | some x => !domainRuns s (signalDomain x)
  | none => false

def ballSwitching (s : State) (n : Nat) : Bool := s.pmx.switching.any fun (p : Nat × Nat) => p.1 == n

/-- A ball shows its park level (R57, R69): in RETREAT, in a switch sequence, while the domain of its peripheral is stopped, or
under a function that connects nothing. -/
def ballParked (s : State) (n : Nat) : Bool :=
  s.mode == mRETREAT || ballSwitching s n || ballStopped s n || (pinAct s n != 0 && (signalOf n (pinAct s n)).isNone)

/-- The level that a peripheral drives at its ball: the UART's output idles at 1 (Table 3.17), a trace signal rests at 0 while
the port is off (R234). Between, the level is the bit being sent, which the reader of the ball sees. -/
def signalLevel (s : State) (x : Signal) : Option Bool :=
  match x with
  | .uartTx => if s.pmx.shifting.isSome then none else some true
  | .trace _ => if s.on F.SRV_CTL_TRCEN then none else some false
  | _ => none

/-- The park level in force at a ball (R74, Table 3.15): Hi-Z, 0, 1, or the level that the device drove there last. -/
def parkLevel (s : State) (n : Nat) : Option Bool :=
  match (tabGet s.pmx.applied 0b010001 n).toNat / 4 % 4 with
  | 0 => none
  | 1 => some false
  | 2 => some true
  | _ => tabGet s.pmx.last none n

/-- The level at which the device drives a GPIO ball: none before the balls are handed over at cycle 32 (R67), the park level
in force, that of its GPIO function (Table 3.13), or that of its peripheral. -/
def ballLevel (s : State) (n : Nat) : Option Bool :=
  if ¬ s.pmx.handed then none
  else if ballParked s n then parkLevel s n
  else if pinAct s n = 0 then (if s.bit F.GPIO_OE_OE n then some (s.bit F.GPIO_OUT_OUT n) else none)
  else match signalOf n (pinAct s n) with
    | some x => signalLevel s x
    | none => none

/-- The levels that the device drives are kept for balls that are to hold them (PARK = 3). -/
def State.pmxHold (s : State) : State :=
  State.each (fun n s => match ballLevel s n with
    | some b => s.onPmx fun p => { p with last := tabPut p.last none n (some b) }
    | none => s) balls s

/-- The balls whose peripheral's domain is stopped: they come back through cycles 4 to 6 of the switch sequence (R76). -/
def State.pmxStops (s : State) : State :=
  s.onPmx fun p => { p with rejoin := balls.filter fun n => p.rejoin.contains n || ballStopped s n }

/-- A signal reaches a ball (R57, R67, R76, Table 3.11): the balls are handed over, and the ball is neither parked nor still on
its way back from a stopped domain. -/
def connected (s : State) (x : Signal) : Bool :=
  s.pmx.handed &&
    balls.any fun n => signalOf n (pinAct s n) == some x && !ballParked s n && !s.pmx.rejoin.contains n

/-- The busy conditions of Table 3.10. -/
def sigBusy (s : State) (x : Option Signal) : Bool :=
  match x with
  | some .uartTx => s.pmx.shifting.isSome || !s.pmx.tx.isEmpty
  | some .uartRx => s.on F.UART_STAT_RXBUSY
  | some (.trace _) => s.on F.SRV_CTL_TRCEN
  | _ => false

/-- The staged selections place a ball's signal on another ball too. -/
def dupBall (s : State) (n : Nat) : Bool :=
  match signalOf n (pinSel s n) with
  | some x => balls.any fun k => k != n && signalOf k (pinSel s k) == some x
  | none => false

def ballMask (l : List Nat) : Nat := l.foldl (fun a n => a ||| 2 ^ n) 0

/-- Apply the staged PULL, PARK and DRV of every ball (R74). -/
def State.pmxApply (s : State) : State :=
  State.each (fun n s => let v := BitVec.ofNat 6 (bitsOf (s.rd (R.PMX_PIN n)) 13 8)
    s.onPmx fun p => { p with applied := tabPut p.applied 0b010001 n v }) balls s

/-- UART_STAT shows the transmitter and the FIFOs. -/
def State.uartStat (s : State) : State :=
  ((s.putB F.UART_STAT_TXBUSY (s.pmx.shifting.isSome || !s.pmx.tx.isEmpty)).putB F.UART_STAT_TXFULL
    (decide (s.pmx.tx.length ≥ 16))).putB F.UART_STAT_RXAVAIL (!s.pmx.rx.isEmpty)

/-- The next queued byte starts, if the transmitter is enabled, free and on a ball (DEDUCED, log entry 44). -/
def State.uartKick (s : State) : State :=
  (match s.pmx.shifting, s.pmx.tx with
    | none, b :: l => if s.on F.UART_CTL_EN ∧ connected s .uartTx then s.onPmx fun p => { p with shifting := some b, tx := l } else s
    | _, _ => s).uartStat

/-- A forced switch cuts the busy signal of a ball (R75): the transfer of its peripheral ends, for the trace port the record
that is due or shifting. -/
def State.pmxCut (s : State) (n : Nat) : State :=
  let x := signalOf n (pinAct s n)
  if ¬ sigBusy s x then s else
  let s := s.raiseBit (F.PMX_PIN_LOST n)
  if x = some .uartTx then ((s.onPmx fun p => { p with shifting := none }).raiseBit F.UART_STAT_PINLOST).uartStat
  else if x = some .uartRx then ((s.clr F.UART_STAT_RXBUSY).raiseBit F.UART_STAT_FRERR).raiseBit F.UART_STAT_PINLOST
  else { s with srv := { s.srv with trace := none } }

end Sys2Proof.Machine
end

