-- ==== Sys2Proof/Machine/SrvOps.lean ====
section
/-! DEFINITION. The servo block's shared operations: write unsafe, results and misses, the conversion of intervals into
position, servo words and trace records (R212 to R234). -/

namespace Sys2Proof.Machine

open Sys2Proof

def State.onSrv (s : State) (f : SrvState → SrvState) : State := { s with srv := f s.srv }

def mdSEEK : Nat := 0
def mdSETTLE : Nat := 1
def mdFOLLOW : Nat := 2

/-! ### Write unsafe (R226) -/

/-- A condition of R226 holds. -/
def unsafeNow (s : State) : Bool :=
  s.get F.SRV_CTL_MODE != mdFOLLOW || s.get F.ATB_STAT_STATE != 2 || s.srv.paFault || s.srv.shkHigh ||
  decide (0 < s.srv.shkLeft) || s.srv.missed || s.srv.wide

/-- WUS rises, and an open write gate closes with a cause (R226, R280). -/
def State.wusRise (s : State) (cause : Nat) : State :=
  if s.on F.SRV_STAT_WUS then s else ((s.raiseBit F.SRV_STAT_WUS).raiseBit F.SRV_EVT_WUSR).chnCloseGate cause

/-! ### Trace records (R234) -/

/-- The trace record of the last result (Table 9.7). -/
def traceWord (s : State) : BitVec 64 :=
  let v := s.on F.SRV_STAT_PVALID
  let b (x : Bool) : Nat := if x then 1 else 0
  BitVec.ofNat 64 (s.get F.SRV_STAT_WEDGE + s.get F.SRV_STAT_HEAD * 2 ^ 9 + b v * 2 ^ 14 + s.get F.SRV_STAT_WUS * 2 ^ 15 +
    s.get F.SRV_PES_PES * 2 ^ 16 + s.srv.vcm.toNat * 2 ^ 32 + (if v then s.get F.SRV_LAT_LAST else 0) * 2 ^ 48 +
    (if v then 0 else s.get F.SRV_STAT_CAUSE) * 2 ^ 59 + s.get F.SRV_EVT_CMDLOST * 2 ^ 63)

/-- The record of the last wedge falls due; one that finds another not sent yet is dropped. -/
def State.traceFall (s : State) : State :=
  if ¬ s.srv.traceOpen then s else
  let s := s.onSrv fun v => { v with traceOpen := false }
  if ¬ s.on F.SRV_CTL_TRCEN then s
  else if s.srv.trace.isSome then s.inc F.SRV_CNT2_TRCDROP_CNT
  else s.onSrv fun v => { v with trace := some (traceWord s) }

/-! ### Results (R231 to R233) -/

/-- SVWIN is 1 while a window waits for its POS (R220): the one in progress, or one that the WSQ holds and that has had none. -/
def State.svwin (s : State) : State :=
  s.putB F.SRV_STAT_SVWIN (s.srv.due || (match s.wsq.pend with
    | some (_, _, told) => !told
    | none => false))

/-- POS is raised; one still set means OVR (R233). -/
def State.raisePos (s : State) : State :=
  let s := if s.on F.SRV_EVT_POS then (s.raiseBit F.SRV_EVT_OVR).inc F.SRV_CNT2_OVR_CNT else s
  ((s.raiseBit F.SRV_EVT_POS).onSrv fun v => { v with traceOpen := true }).svwin

/-- Record 0x0304 (Table 9.5). -/
def State.missRecord (s : State) (r : MissRun) (st : Nat) : State :=
  s.event 0x0304 0xFF (leBytes 1 r.head ++ zeros 1 ++ leBytes 2 r.wedge ++ leBytes 2 r.len ++ leBytes 2 r.causes ++
    leBytes 1 st ++ zeros 7 ++ leBytes 8 r.ts.toNat)

/-- A miss lengthens the run (R232). -/
def State.missRun (s : State) (cause : Nat) (w : SrvWin) : State :=
  let r := s.srv.run
  let r := if r.len = 0 then { head := w.head, wedge := w.wedge, ts := s.atb.count, len := 1, causes := 2 ^ cause }
    else { r with len := Nat.min (r.len + 1) 65535, causes := r.causes ||| 2 ^ cause }
  if ¬ r.limit ∧ Nat.max (s.get F.SRV_CTL_MISSLIM) 1 ≤ r.len then
    let r := { r with limit := true }
    ((s.onSrv fun v => { v with run := r }).raiseBit F.SRV_EVT_RUN).missRecord r 1
  else s.onSrv fun v => { v with run := r }

/-- What a result, valid or missed, leaves in SRV_STAT. -/
def State.resultStat (s : State) (valid : Bool) (w : SrvWin) : State :=
  (((s.putB F.SRV_STAT_PVALID valid).put F.SRV_STAT_HEAD w.head).put F.SRV_STAT_WEDGE w.wedge).put F.SRV_STAT_ATBST
    (s.get F.ATB_STAT_STATE)

/-- A missed wedge (R231). -/
def State.srvMiss (s : State) (cause : Nat) (w : SrvWin) : State :=
  let s := ((s.traceFall).resultStat false w).put F.SRV_STAT_CAUSE cause
  let s := ((s.inc F.SRV_CNT_MISS_CNT).inc F.SRV_STAT_MISSRUN).raiseBit F.SRV_EVT_MISS
  let s := s.onSrv fun v => { v with missed := true, settle := 0, timed := false }
  let s := if s.get F.SRV_CTL_MODE = mdFOLLOW then s.clr F.SRV_STAT_ONTRK else s
  ((s.missRun cause w).wusRise 1).raisePos

/-- EW (R216): the wedge that the SAM capture lies in. -/
def wedgeOf (s : State) (sam : BitVec 64) : Nat :=
  (((sam.toNat : Int) - s.get F.SRV_WOFF_WOFF - 81920) / 8388608 % 512).toNat

/-- The window in progress, with EW where its SAM was captured. -/
def curWin (s : State) : SrvWin :=
  match s.srv.sam with
  | some a => if s.srv.samWin then { s.srv.win with wedge := wedgeOf s a } else s.srv.win
  | none => s.srv.win

/-- A miss of the window in progress; a later posting for the same wedge is ignored (R231). -/
def State.missCur (s : State) (cause : Nat) : State :=
  if s.srv.due then (s.onSrv fun v => { v with due := false }).srvMiss cause (curWin s) else s

/-! ### Capture units (R213 to R215) -/

/-- Gray to binary: each bit is the parity of the bits at and above it (R213). -/
def grayDecode (g : BitVec 24) : BitVec 24 :=
  let g := g ^^^ (g >>> 1)
  let g := g ^^^ (g >>> 2)
  let g := g ^^^ (g >>> 4)
  let g := g ^^^ (g >>> 8)
  g ^^^ (g >>> 16)

/-- The parity bits P2 to P0 of a wedge number (R213). -/
def wedgeParity (w : BitVec 9) : BitVec 3 := w.extractLsb' 0 3 ^^^ w.extractLsb' 3 3 ^^^ w.extractLsb' 6 3

/-- The captured track identifier is good: parity, and its wedge number is EW (R216, R230). -/
def tidGood (s : State) : Bool :=
  match s.srv.tid, s.srv.sam with
  | some (_, w, p), some a => p == wedgeParity w && w.toNat == wedgeOf s a
  | _, _ => false

/-- A track identifier was captured and failed its check. -/
def tidBad (s : State) : Bool := s.srv.tid.isSome && !tidGood s

/-- SRV_TID and SRV_TIDW show the captured identifier. -/
def State.showTid (s : State) : State :=
  match s.srv.tid, s.srv.sam with
  | some (g, w, p), some a =>
    let s := ((s.put F.SRV_TID_N (grayDecode g).toNat).putB F.SRV_TID_PAROK (p == wedgeParity w)).putB F.SRV_TID_WMATCH (w.toNat == wedgeOf s a)
    (s.put F.SRV_TIDW_WREAD w.toNat).put F.SRV_TIDW_WEXP (wedgeOf s a)
  | _, _ => s

/-- A preamp fault line goes low (R226, R280): PAFLT while the WSQ runs (Table 8.9), an open write gate closes, and WUS
rises. -/
def State.paFall (s : State) : State :=
  let s := if s.on F.WSQ_STAT_RUN then s.raiseBit F.WSQ_FLAG_PAFLT else s
  ((s.onSrv fun v => { v with paFault := true }).chnCloseGate 3).wusRise 1

/-- The preamp fault lines as a command finds them: whether one is low. -/
def State.paLevel (s : State) (low : Bool) : State :=
  if low && !s.srv.paFault then s.paFall else s.onSrv fun v => { v with paFault := low }

/-- Group g is complete with its four transitions: T is their sum, each relative to the SAM capture (R215). Without a SAM
capture there is nothing to relate them to, and T is open (DESIGN CHOICE, log entry 105). -/
def State.groupDone (s : State) (g : Nat) (l : List (BitVec 64)) : State :=
  let s := s.onSrv fun v => { v with done := v.done ||| (1#4 <<< g) }
  match s.srv.sam with
  | some a => s.put (F.SRV_RAW_T g) (l.foldl (fun (t : BitVec 64) (x : BitVec 64) => t + (x - a)) 0).toNat
  | none => let (v, s) := s.draw; s.put (F.SRV_RAW_T g) v.toNat

/-- The units take what they have captured, if they are armed. -/
def State.capture (s : State) (f : Captures) : State :=
  let s := s.onSrv fun v => { v with
    sam := if v.samArmed && v.sam.isNone then f.sam else v.sam
    samWin := v.samWin || (v.samArmed && v.sam.isNone && f.sam.isSome)
    tid := if v.tidArmed && v.tid.isNone then f.tid else v.tid }
  let s := (s.paLevel f.paFault).showTid
  State.each (fun g s =>
    let l := f.bursts.getD g []
    if s.srv.armed.getLsbD g ∧ ¬ s.srv.done.getLsbD g ∧ 4 ≤ l.length then s.groupDone g (l.take 4) else s) (List.range 4) s

/-- Every armed burst group is complete. -/
def groupsDone (s : State) : Bool := (s.srv.armed &&& ~~~s.srv.done) == 0

/-! ### Conversion (R216) -/

/-- The nearest integer to a / b, ties away from zero, for b above 0. -/
def nearest (a b : Int) : Int := if 0 ≤ a then (2 * a + b) / (2 * b) else -((-2 * a + b) / (2 * b))

def absI (a : Int) : Int := if a < 0 then -a else a

/-- What the converter computes: q, and the position as a fraction num / den. -/
structure Conv where
  q : Int
  /-- y_ab × q and y_cd × q. -/
  ab : Int
  cd : Int
  num : Int
  den : Int
  deriving DecidableEq, Repr

/-- The steps of R216 on the four sums, the decoded track number and the head's gain, with q as common denominator. -/
def convert (a b c d n gain : Int) : Conv :=
  let q := c + d - a - b
  let ab := 4 * q - 16 * (b - a)
  let cd := 4 * q - 16 * (d - c)
  let even := decide (absI ab ≤ absI cd)
  let centre := if even then 2 * nearest (n * q - ab) (2 * q) else 2 * nearest ((n - 1) * q - cd) (2 * q) + 1
  let y := if even then ab else cd
  { q, ab, cd, num := centre * q * 16384 + y * gain, den := q * 16384 }

/-- The miss cause of a conversion, 0 if it is valid. -/
def convCause (tid : Bool) (n : Int) (r : Conv) : Nat :=
  if ¬ tid then 2
  else if 65536 < absI (r.q - 1048576) then 4
  else if r.q < 8 * absI (absI r.ab + absI r.cd - r.q) then 5
  else if r.den < absI (n * r.den - r.num) then 6
  else 0

/-- ERR saturated to 16 bits (R224). -/
def sat16 (x : Int) : Int := if x < -32768 then -32768 else if 32767 < x then 32767 else x

/-- A valid result (R224 to R227, R231, R232). -/
def State.srvValid (s : State) (w : SrvWin) (r : Conv) : State :=
  let s := (s.traceFall).resultStat true w
  let ptrk := nearest r.num r.den
  let pes := nearest ((r.num - ptrk * r.den) * 16384) r.den
  let err := sat16 ((ptrk - s.get F.SRV_TGT_TRK_TRK) * 16384 + pes - toInt 16 (s.get F.SRV_TGT_OFF_OFF))
  let s := ((s.put F.SRV_PTRK_PTRK (ofInt 24 ptrk)).put F.SRV_PES_PES (ofInt 16 pes)).put F.SRV_PES_ERR (ofInt 16 err)
  let s := if s.srv.run.limit then s.missRecord s.srv.run 2 else s
  let s := (s.clr F.SRV_STAT_MISSRUN).onSrv fun v =>
    { v with run := {}, missed := false, wide := decide ((s.get F.SRV_WRLIM_WRLIM : Int) < absI err), timed := true, due := false }
  let inside := decide (absI err ≤ s.get F.SRV_SETTLE_SETWIN)
  let md := s.get F.SRV_CTL_MODE
  let s :=
    if md = mdSETTLE then
      let n := if inside then s.srv.settle + 1 else 0
      let s := s.onSrv fun v => { v with settle := n }
      if Nat.max (s.get F.SRV_SETTLE_SETN) 1 ≤ n ∧ ¬ s.on F.SRV_STAT_ONTRK then (s.raiseBit F.SRV_STAT_ONTRK).raiseBit F.SRV_EVT_ONTRK else s
    else if md = mdFOLLOW ∧ ¬ inside then s.clr F.SRV_STAT_ONTRK
    else s
  let s := if unsafeNow s then s.wusRise 1 else s.clr F.SRV_STAT_WUS
  let s := if s.srv.shkHigh then s else s.onSrv fun v => { v with shkLeft := v.shkLeft - 1 }
  s.raisePos

/-- The converter ends (R216): a valid result, or a miss with the cause that applies. -/
def State.converted (s : State) : State :=
  let n : Int := s.get F.SRV_TID_N
  let t (g : Nat) : Int := s.get (F.SRV_RAW_T g)
  let w := curWin s
  let r := convert (t 0) (t 1) (t 2) (t 3) n (s.get (F.SRV_HEAD_PGAIN w.head))
  let s := s.onSrv fun v => { v with converting := false, conv := false, armed := 0, samArmed := false, tidArmed := false }
  let cause := convCause (tidGood s) n r
  if ¬ s.srv.due then s
  else if cause ≠ 0 then s.missCur cause
  else s.srvValid w r

/-! ### Servo words (R222, R223) -/

/-- The downstream servo word of a commit (Table 3.7). -/
def servoWord (seq vcm ma0 ma1 : Nat) : BitVec 56 :=
  let w := 1 + seq * 2 + vcm * 2 ^ 4 + ma0 * 2 ^ 20 + ma1 * 2 ^ 32
  BitVec.ofNat 56 (w + crc8 48 w * 2 ^ 48)

/-- A downstream word that carries no command: VALID is 0 (R222). The spec gives its SEQ and commands no value (DESIGN CHOICE,
log entry 106); Reserved bits are 0, and the CRC is good. -/
def idleWord (v : Nat) : BitVec 56 :=
  let n := v % 2 ^ 43 * 2
  BitVec.ofNat 56 (n + crc8 48 n * 2 ^ 48)

/-- The servo slot of a downstream frame: a committed word leaves (R63), or a word with VALID = 0 (R222). -/
def State.servoSlot (s : State) : State :=
  match s.srv.slot with
  | some w => (s.emit (.servo w)).onSrv fun v => { v with slot := none, sent := v.sent ++ [w.toNat / 2 % 8] }
  | none => let (v, s) := s.draw; s.emit (.servo (idleWord v.toNat))

end Sys2Proof.Machine
end

