-- ==== Sys2Proof/Machine/PcmOps.lean ====
section
/-! DEFINITION. The mode transitions (Table 4.6): THAW entry, RETREAT entry, and the steps between FLOW, DRIFT and
DORMANT, with the clock domains of Table 4.3. -/

namespace Sys2Proof.Machine

open Sys2Proof

def State.onPcm (s : State) (f : PcmState → PcmState) : State := { s with pcm := f s.pcm }
def State.onSst (s : State) (f : SstState → SstState) : State := { s with sst := f s.sst }

/-! ### Self-tests (R443) -/

/-- Drive firmware on MC submits an event (R152). -/
def State.mcEvent (s : State) (code party : Nat) (payload : List Byte) : State :=
  let e : Event := { code, party, src := 0x10 + Master.mc.idx, fwsrc := true, payload }
  if fifoRoom s.mor e.src then s.takeEvent e else s.loseEvent code

/-- A running self-test is aborted: cause 1 ST_ABORT, 2 a mode change, 3 RETREAT. How far it had come is the drive
firmware's own count, which the spec leaves open (DESIGN CHOICE, log entry 60). -/
def State.testAbort (s : State) (cause : Nat) : State :=
  let t := s.mgt.test
  if t.st ≠ 1 then s else
  let (v, s) := s.draw
  let (w, s) := s.draw
  let t := { t with st := 3, progress := v.toNat % 101, sectors := w.toNat }
  ({ s with mgt := { s.mgt with test := t } }).mcEvent 0x0803 0xFF
    (leBytes 1 t.type ++ leBytes 1 cause ++ leBytes 1 t.progress ++ zeros 5 ++ leBytes 8 t.sectors)

/-! ### Records (Table 6.5) -/

/-- Record 0x0201 of a transition that has been made. -/
def State.modeRecord (s : State) (src dst rails us : Nat) : State :=
  s.event 0x0201 0xFF (leBytes 1 src ++ leBytes 1 dst ++ leBytes 1 (s.get F.PCM_MODE_REASON) ++ leBytes 1 (s.get F.PCM_CAUSE_CAUSE) ++
    leBytes 1 (if dst = mTHAW then s.get F.PCM_THAW_SRC else 0) ++ zeros 3 ++ leBytes 4 rails ++ leBytes 4 us)

/-- Change the mode, with its record. -/
def State.enterMode (s : State) (dst reason : Nat) (t : Trans) : State :=
  let src := s.mode
  let s := if src = mFLOW then s.testAbort (if dst = mRETREAT then 3 else 2) else s
  let s := ((s.put F.PCM_MODE_PREV src).put F.PCM_MODE_MODE dst).put F.PCM_MODE_REASON reason
  s.modeRecord src dst t.rails.toNat t.us.toNat

/-- No transition is pending any more; `result` is what PCM_STAT shows, and TARGET shows no
mode (DEDUCED, log entry 93). -/
def State.pcmDone (s : State) (result : Nat) : State :=
  (((s.onPcm fun c => { c with pend := none }).clr F.PCM_STAT_PEND).put F.PCM_STAT_TARGET 0).put F.PCM_STAT_RESULT result

/-- A transition is abandoned (R98): RESULT TIMEOUT and record 0x0202 with its blocking condition. -/
def State.abandon (s : State) (p : PcmPend) (blocking : Nat) : State :=
  let s := s.pcmDone 2
  s.event 0x0202 0xFF (leBytes 1 p.source ++ leBytes 1 p.final ++ leBytes 1 blocking ++ leBytes 1 (s.get F.PCM_CFG_QTO) ++
    leBytes 2 (s.get F.DMA_STAT_BUSY) ++ leBytes 1 (s.get F.ASC_STAT_MEDIA_CNT) ++ zeros 1)

/-- The PCM sends PSUP (R86, R244). -/
def State.sendPsup (s : State) (b : Bool) : State :=
  if s.pcm.psup = b then s else (s.onPcm fun c => { c with psup := b }).flnkSend (.psup b)

/-! ### The gated cores -/

/-- Every held-store queue is discarded (R133). -/
def State.hsqDiscard (s : State) : State :=
  State.each (fun c s => (s.clr (F.SST_HSQ_COUNT c)).clr (F.SST_HSQ_STALL c)) (List.range 3)
    (s.onSst fun x => { x with hsqs := [], waits := [] })

/-- The loader stops (R130, R131, Table 4.6), and the recorder's programs go on (R161). -/
def State.loaderStop (s : State) : State := (s.onSst fun x => { x with loading := false, landed := [] }).morKick

/-! ### THAW entry (R99) -/

/-- The registers that a THAW entry leaves: the PCM's and, as part of the always-on logic, the recorder's (R160). -/
def thawKeeps (k : Nat) : Bool := inBlock 0x40010000 k || inBlock 0x4000E000 k

/-- What the SST keeps through a THAW entry: the fuses and what is being programmed into them. -/
def SstState.afterThaw (x : SstState) : SstState := { fuses := x.fuses, fuseOp := x.fuseOp, fuseNext := x.fuseNext }

/-- The records 0x0107 that RETREAT kept from being written (R121). -/
def State.owedRecords (s : State) (l : List (List Byte)) : State := State.each (fun p s => s.event 0x0107 0xFF p) l s

/-- Reset the Logic die for THAW (Table 4.6, R503, R507). `src` is PCM_THAW.SRC. -/
def State.thawReset (s : State) (src : Nat) : State :=
  let reboot := src == 2
  let ever := s.get F.ATB_STAT_EVERLOCKED
  let sto := s.rd R.STO_STAT
  let bpds := s.rd R.STO_BPDS
  let fail := s.rd R.SST_FAIL
  let s := s.resetRegs fun k => !thawKeeps k
  let s := s.put F.ATB_STAT_EVERLOCKED ever
  let s := if reboot then ((s.wr R.STO_STAT sto).wr R.STO_BPDS bpds).wr R.SST_FAIL fail else s
  let s := (s.putB F.FLNK_STAT_UP s.link.logic.up).putB F.SST_STAT_LIFECYCLE s.sst.fuses.production |>.putB F.SST_FRES_BUSY s.sst.fuseOp.isSome
  let s := if s.msq.mats.isEmpty then s else s.msqShow 2
  let s := ((s.wr R.PCM_STAT 0).wr R.PCM_CFG (resetWord R.PCM_CFG)).clr F.PCM_RAILS_OK
  { s with
    sram := [], buf := []
    atb := { count := s.atb.count, frac := s.atb.frac, entered := s.atb.count }
    asc := [], latched := [], irqLines := []
    pcm := { psup := s.pcm.psup, rstn := s.pcm.rstn, bay := s.pcm.bay }
    link := { s.link with logic := { s.link.logic with last := none, prev := none }, down := []
                          lastSpeed := none, lastCfg := none, lastPsup := none, logDue := [] }
    sst := s.sst.afterThaw
    firn := {}, rme := {}, dma := [], cry := {}, chn := {}, ord := {}, pmx := {}, srv := {}, wsq := {}, mgt := {}
    uqi := { zeroed := if src = 0 then [] else s.uqi.zeroed, never := s.uqi.never, moved := s.uqi.moved, owned := s.uqi.owned }
    ports := s.ports.map fun (x : Nat × Port) => (x.1, ({ perst := x.2.perst } : Port))
    msq := { s.msq with staging := [], sends := 0 }
    pd := { s.pd with mahz0 := false, mahz1 := false } }

/-- The recorder at a THAW entry: REBOOT counts BOOT up and goes on; otherwise the Store die is reset under what it had running,
and the tail search runs first (R159, R160, R180). -/
def State.morThaw (s : State) (reboot : Bool) : State :=
  let s := { s with mor := { s.mor with retreatDone := false, retreatSeal := none, sealDone := false } }
  if reboot then s.incWrap F.MOR_BOOT_BOOT
  else
    ({ s with mor := { s.mor with phase1 := false, phase2 := none, erasing := none, eraseRetry := false, eraseWant := none, ahead := none } } :
      State).clr F.MOR_STAT_READY

/-- THAW entry (R99): from OFF (0), at the end of RETREAT (1) or by REBOOT (2). -/
def State.thawEntry (s : State) (src us : Nat) : State :=
  let reboot := src == 2
  let from_ := s.mode
  let owed := s.sst.fuseOwed
  let s := (s.thawReset src).morThaw reboot
  let s := ((s.put F.PCM_MODE_PREV from_).put F.PCM_MODE_MODE mTHAW).put F.PCM_MODE_REASON (if src = 0 then 0 else 7 + src)
  let s := (s.put F.PCM_THAW_SRC src).modeRecord from_ mTHAW 0 us
  let s := if reboot then s.stoEndSequences.interruptedRecords else s.stoDieReset
  (s.owedRecords owed).sendPsup false |>.flnkSend .logreq

/-- REBOOT (Table 4.6): the channel's operations end as at RETREAT entry, the loader stops, and THAW is entered. -/
def State.rebootNow (s : State) (us : Nat) : State := (s.hsqDiscard.chnStop.loaderStop).thawEntry 2 us

/-! ### RETREAT entry (R98, Table 4.7) -/

/-- Every channel with a HOST end halts (R353). -/
def State.dmaRetreat (s : State) : State :=
  State.each (fun c s => if (s.chan c).live ∧ hostEnd (s.dsc c) ∧ chState s c = chRUN then s.chStop c 16 else s) (List.range 16) s

/-- How many bits of a thermometer are set. -/
def bitCount (b : BitVec 64) : Nat := ((List.range 64).filter fun i => b.getLsbD i).length

/-- The security version: the number of bits set (Table 5.1). -/
def Fuses.svn (f : Fuses) : Nat := bitCount f.svnBits

/-- A thermometer with as many bits set as it takes to count n, the lowest that are still clear (DEDUCED, log entry 109). -/
def thermometer (b : BitVec 64) (n : Nat) : BitVec 64 :=
  (List.range 64).foldl (fun b i => if bitCount b < n then b ||| BitVec.ofNat 64 (2 ^ i) else b) b

/-- The value of a fuse field as record 0x0107 shows it (Table 5.8, DEDUCED, log entry 51). -/
def fuseValue (f : Fuses) (field : Nat) : Nat :=
  match field with
  | 1 => f.svnBits.toNat
  | 2 => f.keyrev.toNat
  | 4 => if f.production then 1 else 0
  | 5 => f.targetRpm
  | _ => 0

/-- A fuse operation takes effect: the bits of `held` are set, all of them for a good one (R106). -/
def fuseSet (op : FuseOp) (held : Nat) (f : Fuses) : Fuses :=
  match op.field with
  | 1 => { f with svnBits := f.svnBits ||| (thermometer f.svnBits op.val &&& BitVec.ofNat 64 held) }
  | 2 => { f with keyrev := f.keyrev ||| BitVec.ofNat 4 (op.val &&& held) }
  | 3 => { f with keyhash := tabPut f.keyhash (zeros 48) op.slot (leBytes 48 (leNat op.hash &&& held)) }
  | 4 => { f with production := f.production || held % 2 == 1 }
  | _ => { f with targetRpm := f.targetRpm ||| (op.val &&& held) }

/-- Every bit of the widest fuse field. -/
def allBits : Nat := 2 ^ 384 - 1

/-- The field holds what a good operation leaves. -/
def fuseGood (op : FuseOp) (f : Fuses) : Bool := f == fuseSet op allBits f

/-- A fuse operation ends: the fuses, the record's payload, and whether the field reads back as programmed. -/
def State.fuseFinish (s : State) (op : FuseOp) (held : Nat) : List Byte × Bool × State :=
  let old := s.sst.fuses
  let f := fuseSet op held old
  let ok := fuseGood op f
  let p := leBytes 1 op.field ++ leBytes 1 (if op.field = 3 then op.slot else 0) ++ leBytes 1 (if ok then 0 else 2) ++ zeros 1 ++
    leBytes 8 (fuseValue old op.field) ++ leBytes 8 (fuseValue f op.field) ++
    (if op.field = 3 then slice (tabGet f.keyhash (zeros 48) op.slot) 0 48 else zeros 48)
  (p, ok, (s.onSst fun x => { x with fuses := f }).putB F.SST_STAT_LIFECYCLE f.production)

/-- A fuse operation under way is whole or has not happened, which is open; its record waits for the next boot (R121). -/
def State.fuseRetreat (s : State) : State :=
  match s.sst.fuseOp with
  | none => s
  | some op =>
    let (v, s) := s.draw
    let s := s.onSst fun x => { x with fuseOp := none, fuseNext := [] }
    let s := s.clr F.SST_FRES_BUSY
    if v.toNat % 2 = 0 then s
    else
      let ans := s.fuseFinish op allBits
      let p := ans.1
      let s := ans.2.2
      s.onSst fun x => { x with fuseOwed := x.fuseOwed ++ [p] }

/-- The ports go to electrical idle. -/
def State.portsDown (s : State) : State :=
  { s with ports := s.ports.map fun (x : Nat × Port) => (x.1, ({ x.2 with up := false, dl := false, l1 := false } : Port)) }

/-- What the Power die is told at RETREAT entry while the link is up; from THAW also to retract (Table 4.6). -/
def State.retreatPackets (s : State) (thaw : Bool) : State :=
  if s.link.logic.up then
    let s := (s.flnkSend (.act 5)).flnkSend (.psup false)
    if thaw then s.flnkSend (.act 4) else s
  else s

/-- RETREAT entry (Table 4.6): gates close, host transfers stop, held stores go, preamp supplies go off, the Power die
is told, erases are suspended, and the orderer ends its work (R450). -/
def State.retreatEnter (s : State) (reason : Nat) (t : Trans) : State :=
  let thaw := s.mode == mTHAW
  let s := (s.pmxHold.hsqDiscard.chnStop.dmaRetreat).loaderStop.fuseRetreat
  let s := s.pcmDone (s.get F.PCM_STAT_RESULT)
  let s := s.enterMode mRETREAT reason t
  let s := { s with mor := { s.mor with retreatCause := s.get F.PCM_CAUSE_CAUSE, retreatProg := 0, retreatLost := s.mor.lost } }
  let s := s.stoRetreat.portsDown
  let s := s.onPcm fun c => { c with psup := false, regate := false }
  let s := s.retreatPackets thaw
  let s := (s.clr F.FIRN_STAT_ASLEEP).dmaRelease.rmeWake
  s.ordCancel.chSettle

/-- A RETREAT trigger with its PCM_CAUSE bit (R98, Table 4.7). -/
def State.retreatTrigger (s : State) (bit : Nat) (t : Trans) : State :=
  if s.mode = mOFF then s else
  let s := s.setIn F.PCM_CAUSE_CAUSE bit
  if s.mode = mRETREAT then s else s.retreatEnter (if bit = 6 then 1 else bit + 2) t

/-! ### Steps between the other modes -/

/-- THAW ends: the host gate opens, completions leave, and channels with a HOST end go on (R125, R129). -/
def State.leaveThaw (s : State) : State :=
  State.each State.hostResume (List.range 16) (((s.clr F.SST_GATE_HOSTG).msixPending 0).msixPending 1)

/-- DRIFT is entered. -/
def State.enterDrift (s : State) (t : Trans) : State :=
  let thaw := s.mode == mTHAW
  let s := (s.enterMode mDRIFT 1 t).sendPsup true
  if thaw then s.leaveThaw else s

/-- FLOW is entered from DRIFT: the synthesiser starts at K = 2,343 (R258), and media service resumes. -/
def State.enterFlow (s : State) (t : Trans) : State :=
  (s.enterMode mFLOW 1 t).onChn fun n => { n with k := 2343, slew := none }

/-- DORMANT is entered: the Buffer die goes to self-refresh, the preamp supplies off, and the spindle is told to stop. Balls of
peripherals whose domain stops take their park level (R57, R76). -/
def State.enterDormant (s : State) (t : Trans) : State :=
  let thaw := s.mode == mTHAW
  let s := ((((s.pmxHold).enterMode mDORMANT 1 t).raiseBit F.FIRN_STAT_ASLEEP).pmxStops).sendPsup false
  let s := s.flnkSend (.speed 0 (s.get F.FLNK_SPD_SPILIM))
  if thaw then s.leaveThaw else s

/-- The DORMANT quiesce begins: DMA_STAT.HOLD (R353). -/
def State.sleepStart (s : State) (final source : Nat) : State :=
  (s.onPcm fun c => { c with pend := some { final, source, step := .sleep } }).raiseBit F.DMA_STAT_HOLD

/-- A request is accepted and pending. -/
def State.pcmPend (s : State) (final : Nat) (step : PcmStep) : State :=
  let source := s.mode
  let s := ((s.raiseBit F.PCM_STAT_PEND).put F.PCM_STAT_TARGET final).put F.PCM_STAT_RESULT 0
  let s := s.onPcm fun c => { c with pend := some { final, source, step } }
  if step = .sleep then s.raiseBit F.DMA_STAT_HOLD else s

/-- The exit from DORMANT begins: domains ungate, held descriptors start, and the spindle spins up (Table 4.6). -/
def State.wakeStart (s : State) (final : Nat) : State :=
  let s := ((s.pcmPend final .wake).onPcm fun c => { c with regate := false }).clr F.FIRN_STAT_ASLEEP
  let s := (s.dmaRelease.rmeWake).flnkSend s.speedPkt
  (s.runChecks []).chSettle

/-- Every data mover is idle: none is RUN (R353). -/
def dmaIdle (s : State) : Bool := (List.range 16).all fun c => chState s c != chRUN

/-- After a spin-up that failed, the domains gate again once no channel runs (R102). -/
def State.pcmRegate (s : State) : State :=
  if s.pcm.regate ∧ dmaIdle s then (((s.pmxHold).onPcm fun c => { c with regate := false }).raiseBit F.FIRN_STAT_ASLEEP).pmxStops else s

/-- The spin-up on leaving DORMANT failed (R98): the transition is abandoned, and the device stays in DORMANT and gates again.
Descriptors that started during the exit run to their ends first, and no other starts (R102). -/
def State.spinUpFailed (s : State) : State :=
  match s.pcm.pend with
  | some p =>
    if p.step = .wake then
      (((s.abandon p 3).raiseBit F.DMA_STAT_HOLD).onPcm fun c => { c with regate := true }).pcmRegate
    else s
  | none => s

/-- The orderer and the UQI go on after a change of mode. -/
def State.modeSettle (s : State) : State := s.chSettle

end Sys2Proof.Machine
end

