-- ==== Sys2Proof/Machine/WsqOps.lean ====
section
/-! DEFINITION. The wedge sequencer's shared operations: words, conditions, actions, halts and dispatch (R191 to R198). -/

namespace Sys2Proof.Machine

open Sys2Proof

def State.onWsq (s : State) (f : WsqState → WsqState) : State := { s with wsq := f s.wsq }

/-! ### Words (Table 8.1) -/

def wField (w : BitVec 128) (hi lo : Nat) : Nat := w.toNat / 2 ^ lo % 2 ^ (hi + 1 - lo)

def wSeq (w : BitVec 128) : Nat := wField w 17 14
def wNext (w : BitVec 128) : Nat := wField w 13 0
def wOn (w : BitVec 128) (n : Nat) : Bool := w.getLsbD n

/-- The word of the store at an address. -/
def wsqWord (s : State) (a : Nat) : BitVec 128 := tabGet s.wsq.store 0 (a % 16384)

/-- The word at PC. -/
def curWord (s : State) : BitVec 128 := wsqWord s (s.get F.WSQ_PC_PC)

/-- The condition of a word holds in this cycle (Table 8.3). -/
def wCond (s : State) (w : BitVec 128) : Bool :=
  match wField w 21 18 with
  | 0 => true
  | 1 => s.srv.sam.isSome
  | 2 => s.srv.tid.isSome && tidGood s
  | 3 => tidBad s
  | 4 => groupsDone s
  | 5 => s.wsq.count == 0
  | 6 => s.wsq.win == 0
  | 7 => s.wsq.busy0.isNone && s.wsq.busy1.isNone
  | 8 => s.srv.paFault
  | 9 => s.get F.ATB_STAT_STATE != 2
  | 10 => !s.wsq.paq.isEmpty
  | _ => false

/-! ### Dispatch and halts (R196, R197) -/

/-- A head that a SERVO_WIN may name (R218). -/
def headFits (s : State) (h : Nat) : Bool :=
  decide (h < 20) && s.on (F.SRV_HEAD_PRESENT h) && !(s.on (F.SRV_HEAD_PASEL h) && !s.on F.PMX_STRAP_PA_CNT)

/-- The WSQ resumes at RSM with a SERVO_WIN, and its servo interval goes on or has ended in BADHEAD already (`told`). -/
def State.wsqResume (s : State) (arg wedge : Nat) (told : Bool) : State :=
  let s := ((s.put F.WSQ_ARG_ARG arg).clr F.WSQ_STAT_HALT).put F.WSQ_PC_PC (s.get F.WSQ_PC_RSM)
  let s := s.onWsq fun q => { q with wd := 0, waiting := false }
  (s.onSrv fun v => { v with due := !told, win := { head := arg % 32, wedge }, samWin := false, conv := false, converting := false }).svwin

/-- The WSQ is halted; a held SERVO_WIN resumes it. -/
def State.wsqHalted (s : State) : State :=
  let s := s.raiseBit F.WSQ_STAT_HALT
  match s.wsq.pend with
  | some (arg, wedge, told) => ((s.onWsq fun q => { q with pend := none }).clr F.WSQ_STAT_PEND).wsqResume arg wedge told
  | none => s

/-- The wedge whose servo field starts nearest to an angle (DEDUCED, log entry 43). -/
def nearWedge (s : State) (angle : Nat) : Nat :=
  (((angle : Int) - s.get F.SRV_WOFF_WOFF + 4194304) / 8388608 % 512).toNat

/-- A SERVO_WIN takes effect (R196, R218); `due` is the counter value of its target. -/
def State.wsqServoWin (s : State) (arg due : Nat) : State :=
  let w : SrvWin := { head := arg % 32, wedge := nearWedge s due }
  let bad := !headFits s w.head
  if ¬ s.on F.WSQ_STAT_RUN then (if bad then s.srvMiss 11 w else s)
  else if s.on F.WSQ_STAT_HALT then
    let s := s.wsqResume arg w.wedge bad
    if bad then s.srvMiss 11 w else s
  else if s.wsq.pend.isNone then
    let s := ((s.onWsq fun q => { q with pend := some (arg, w.wedge, bad) }).raiseBit F.WSQ_STAT_PEND).svwin
    if bad then s.srvMiss 11 w else s
  else ((s.raiseBit F.WSQ_FLAG_WINOVR).inc F.WSQ_CNT_WINOVR_CNT).srvMiss 10 w

/-- WSQ_STAT shows the return stack and the frame queue. -/
def State.wsqStat (s : State) : State :=
  (s.put F.WSQ_STAT_DEPTH s.wsq.stack.length).put F.WSQ_STAT_PAQ_CNT s.wsq.paq.length

/-- A forced halt (R197). -/
def State.wsqForced (s : State) (wdog : Bool) : State :=
  let s := s.clr F.WSQ_STAT_SGATE
  let s := s.onSrv fun v => { v with samArmed := false, tidArmed := false, armed := 0, done := 0, conv := false }
  let s := (s.onWsq fun q => { q with stack := [], waiting := false }).missCur 7
  let s := if wdog then (s.raiseBit F.WSQ_FLAG_WDOG).inc F.WSQ_CNT_WDOG_CNT else (s.raiseBit F.WSQ_FLAG_ILL).inc F.WSQ_CNT_ILL_CNT
  s.wsqHalted.wsqStat

/-! ### Actions (R195) -/

/-- A frame starts at a preamp's serial port, unless the port is busy. -/
def State.pawr (s : State) (sel : Bool) (d : BitVec 16) : Option State :=
  if sel then (if s.wsq.busy1.isSome then none else some (s.onWsq fun q => { q with busy1 := some d }))
  else (if s.wsq.busy0.isSome then none else some (s.onWsq fun q => { q with busy0 := some d }))

/-- PAWR (R198): a frame from PADATA, or from the head of WSQ_PAQ with its own select. One for a busy port is discarded, the
queued frame with it (Table 8.11). -/
def State.wsqPawr (s : State) (w : BitVec 128) : State :=
  if ¬ wOn w 52 then s
  else if wOn w 54 then
    match s.wsq.paq with
    | (sel, d) :: l =>
      let s := s.onWsq fun q => { q with paq := l }
      match s.pawr sel d with
      | some s => s
      | none => s.raiseBit F.WSQ_FLAG_ILL
    | [] => s
  else match s.pawr (wOn w 53) (BitVec.ofNat 16 (wField w 71 56)) with
    | some s => s
    | none => s.raiseBit F.WSQ_FLAG_ILL

/-- MISS: the first of NOSAM, TIDBAD and WSQ that applies (R230). -/
def wsqMissCause (s : State) : Nat :=
  if s.srv.samArmed && s.srv.sam.isNone then 1 else if tidBad s then 2 else 8

/-- The actions of a word, once, in its first cycle. -/
def State.wsqActions (s : State) (w : BitVec 128) : State :=
  let s := if wOn w 50 then s.missCur (wsqMissCause s) else s
  let s := match wField w 41 40 with
    | 1 => (s.chnCloseGate 4).raiseBit F.WSQ_STAT_SGATE
    | 2 => s.clr F.WSQ_STAT_SGATE
    | _ => s
  let s := if wOn w 42 then s.onSrv fun v => { v with samArmed := true, sam := none } else s
  let s := if wOn w 43 then s.onSrv fun v => { v with tidArmed := true, tid := none } else s
  let tb := BitVec.ofNat 4 (wField w 47 44)
  let s := s.onSrv fun v => { v with armed := v.armed ||| tb, done := v.done &&& ~~~tb }
  let s := State.each (fun g s => if tb.getLsbD g then s.put (F.SRV_RAW_T g) 0 else s) (List.range 4) s
  let s := if wOn w 48 then s.onSrv fun v => { v with conv := true } else s
  let s := if wOn w 49 then s.emit (.coreIrq .sv 17) else s
  let s := if wOn w 51 then s.onSrv fun v => { v with acap := s.atb.count } else s
  let s := s.wsqPawr w
  let s := s.onWsq fun q => { q with
    count := if wOn w 38 then wField w 37 22 else if wOn w 39 then q.count - 1 else q.count
    win := if wField w 87 72 = 0 then q.win else wField w 87 72 }
  s

/-! ### One word -/

/-- The window timer counts down over n WSQCK cycles, whether or not the WSQ runs (R195), and the units have captured `f`. A
timer that reaches 0 after CONV with an armed group incomplete is a BURST miss (R230). -/
def State.wsqTime (s : State) (n : Nat) (f : Captures) : State :=
  let w := s.wsq.win
  let s := (s.capture f).onWsq fun q => { q with win := q.win - n }
  if w ≠ 0 ∧ w ≤ n ∧ s.srv.conv ∧ ¬ groupsDone s then (s.onSrv fun v => { v with conv := false }).missCur 3 else s

/-- The WSQ is released and not halted. -/
def wsqGoing (s : State) : Bool := s.on F.WSQ_STAT_RUN && !s.on F.WSQ_STAT_HALT

/-- The cycles that pass up to and with the next word. The WSQ executes one word in every cycle (R193), so n counts only for
the first word after a resume, where it takes in the cycles since the WSQ halted. -/
def wordCycles (s : State) (n : Nat) : Nat := if s.wsq.wd = 0 then Nat.max n 1 else 1

/-- The WSQ executes a word in the next cycle: the watchdog does not reach WDLIM in it (R197). -/
def wsqRuns (s : State) : Bool := wsqGoing s && !s.wsq.waiting && decide (s.wsq.wd + 1 < s.get F.WSQ_CTL_WDLIM)

/-- A word waits, and goes on waiting for n cycles: the watchdog does not reach WDLIM in them. -/
def wsqWaits (s : State) (n : Nat) : Bool :=
  wsqGoing s && s.wsq.waiting && decide (1 ≤ n) && decide (s.wsq.wd + n < s.get F.WSQ_CTL_WDLIM)

/-- The watchdog counts n cycles. -/
def State.wsqCycles (s : State) (n : Nat) : State := s.onWsq fun q => { q with wd := q.wd + n }

def State.wsqGoto (s : State) (pc : Nat) : State := s.put F.WSQ_PC_PC pc

/-- A word with a SEQ code is executed for the first time: its actions, then `go` with the condition as it stood before
them. -/
def State.wsqExec (s : State) (n : Nat) (f : Captures) (seq : Nat) (go : BitVec 128 → Nat → Bool → State → State) : State :=
  let w := curWord s
  if ¬ wsqRuns s ∨ wSeq w ≠ seq then s else
  let pc := s.get F.WSQ_PC_PC
  let s := (s.wsqTime (wordCycles s n) f).wsqCycles 1
  let c := wCond s w
  ((go w pc c (s.wsqActions w)).wsqStat).chSettle

/-- A word that forces a halt is executed (R197): its actions take effect in the cycle in which it executes (R195). -/
def State.wsqFault (s : State) (n : Nat) (f : Captures) : State :=
  let w := curWord s
  (((((s.wsqTime (wordCycles s n) f).wsqCycles 1).wsqActions w).wsqForced false)).chSettle

end Sys2Proof.Machine
end

