-- ==== Sys2Proof/Machine/AscFire.lean ====
section
/-! DEFINITION. The angle scheduler's shared operations: when a class issues, suppression, repetition, and the effect of
each class (R37 to R44, R501, Table 2.5). -/

namespace Sys2Proof.Machine

open Sys2Proof

/-! ### The fields of an entry -/

def AscEntry.cls (e : AscEntry) : Nat := bitsOf e.cfg 3 0
def AscEntry.dom (e : AscEntry) : Nat := bitsOf e.cfg 8 4
def AscEntry.revq (e : AscEntry) : Bool := bitsOf e.cfg 9 9 != 0
def AscEntry.argv (e : AscEntry) : Nat := bitsOf e.arg 15 0
def AscEntry.period (e : AscEntry) : Nat := bitsOf e.arg 31 16 * 65536

def clsSERVO : Nat := 1
def clsREAD : Nat := 2
def clsWRITE : Nat := 3
def clsPOLL : Nat := 4
def clsREL : Nat := 5
def clsSEAL : Nat := 6
def clsIRQ : Nat := 7

/-- The class issues in the present ATB state, and WRITE_GATE in the present mode (Table 2.5). -/
def classIssues (s : State) (c : Nat) : Bool :=
  let st := s.get F.ATB_STAT_STATE
  if c = clsSERVO ∨ c = clsREAD then st == 2 || st == 3
  else if c = clsWRITE then st == 2 && s.mode == mFLOW
  else if c = clsPOLL then st == 2
  else true

/-- One period of a domain's clock in ticks (Table 4.3), at the measured speed or, where there is none, at COAST_RPM: the
nominal frequency of a core, of BUFCK or of PIPECK, halved while the governor slows it; four to an ATBCK cycle for WSQCK;
8 bits of the track for the channel. -/
def domainPeriod (s : State) (d : Nat) : Nat :=
  let rpm16 := if s.get F.SPEED_SPEED = 0 then 16 * s.get F.ATB_CTL_COAST_RPM else s.get F.SPEED_SPEED
  let ns := fun (ps : Nat) => rpm16 * ps * rev / 960000000000000
  if d = 8 ∨ d = 9 then 2097152 / s.chn.k
  else if d = 11 then 1024
  else if d = 6 ∨ d = 12 then ns 1250
  else if d = 17 then ns 1000
  else if s.on F.DRP_STAT_SLOWED then ns 2000 else ns 1000

/-- The domain Table 2.5 names for a class and argument. -/
def classDom (c arg : Nat) : Option Nat :=
  match c with
  | 1 => some 11
  | 2 => some 8
  | 3 => some 9
  | 4 => some 17
  | 5 => some 12
  | 6 => some 2
  | 7 => if arg % 8 < 5 then some (2 + arg % 8) else none
  | _ => none

/-! ### Repetition (R43) -/

/-- A periodic entry at its next occurrence that lies at least two ATBCK cycles ahead. -/
def rearmed (s : State) (e : AscEntry) : AscEntry :=
  let p := Nat.max e.period 1
  let least := angleNow s + twoCycles
  let k := Nat.max 1 (((least + 2 ^ 64 - e.due) % 2 ^ 64 + p - 1) / p)
  let due := (e.due + k * p) % 2 ^ 64
  { e with st := .armed, due, tgt := BitVec.ofNat 32 due
           cfg := if e.revq then withBits e.cfg 31 16 (bitsOf e.cfg 31 16 + (due / rev + 2 ^ 32 - e.due / rev)) else e.cfg }

/-- An entry leaves its occurrence: it re-arms, or ends in a state. -/
def State.ascPass (s : State) (i : Nat) (e : AscEntry) (st : EntState) : State :=
  s.setEntry i (if e.period = 0 then { e with st } else rearmed s e)

/-! ### Suppression (R35, R40) -/

/-- An occurrence is suppressed: SUPP_CNT counts it, and the owner is told through the path its class defines. -/
def State.ascSuppress (s : State) (i : Nat) (e : AscEntry) : State :=
  let s := (s.ascPass i e .suppressed).inc F.ASC_CNT_SUPP_CNT
  if e.cls = clsSERVO then s.srvMiss 9 { head := e.argv % 32, wedge := nearWedge s e.due }
  else if (e.cls = clsREAD ∨ e.cls = clsWRITE) ∧ e.period = 0 then s.chnSupp e.argv
  else s

/-! ### Effects (Table 2.5, R501) -/

/-- An interrupt line of a core is raised; SV's are bits of SRV_AIRQ and drive its mcause 21 (Tables 9.3 and 9.11). -/
def State.ascIrq (s : State) (arg : Nat) : State :=
  let core := arg % 8
  let line := arg / 16 % 16
  if core = 4 then (s.setIn F.SRV_AIRQ_LINE line).emit (.coreIrq .sv 21)
  else { s with irqLines := tabPut s.irqLines 0 core (tabGet s.irqLines 0 core ||| (1#16 <<< line)) }

/-- An event takes effect in its target block. -/
def State.ascEffect (s : State) (cls arg due : Nat) (skew : Int) : State :=
  match cls with
  | 1 => s.wsqServoWin arg due
  | 2 => (s.chnEvent false arg due skew).chSettle
  | 3 => (s.chnEvent true arg due skew).chSettle
  | 4 => (State.each (fun p s => if arg.testBit p then s.dbRequest p else s) (List.range 16) s).uqiRun
  | 5 => s.prefetchRel arg
  | 6 => s.sealBatch 1
  | 7 => s.ascIrq arg
  | _ => s

/-- The event waits in its block: the domain is gated. A media event does not wait: outside FLOW its operation ends with
NOCLK (R265). The line of a core that is not released is set at once. -/
def ascWaits (s : State) (cls arg : Nat) : Bool :=
  cls != clsREAD && cls != clsWRITE && !(cls == clsIRQ && s.mode == mTHAW) &&
  (match classDom cls arg with
    | some d => !domainRuns s d
    | none => false)

/-- An entry issues (R37, R43): it ends or re-arms, and its event takes effect or is latched (R501). -/
def State.ascIssue (s : State) (i : Nat) (e : AscEntry) (skew : Int) : State :=
  let s := s.ascPass i e .issued
  if ascWaits s e.cls e.argv then { s with latched := s.latched ++ [({ cls := e.cls, arg := e.argv, due := e.due } : Latched)] }
  else s.ascEffect e.cls e.argv e.due skew

/-- An entry that is late issues at once and is counted, if its class may issue (R35, R42). -/
def State.ascLate (s : State) (i : Nat) (e : AscEntry) : State :=
  if classIssues s e.cls then (s.inc F.ASC_CNT_LATE_CNT).ascIssue i e 0 else s.ascSuppress i e

end Sys2Proof.Machine
end

