-- ==== Sys2Proof/Machine/Tick.lean ====
section
/-! DEFINITION. The advance of the angle counter by one cycle of its present source (R29, Table 2.3). -/

namespace Sys2Proof.Machine

open Sys2Proof

/-- The COAST increment per REFCK cycle in units of 1/65,536 tick: 2^32 × COAST_RPM / (60 × 25 × 10^6), rounded to the
nearest unit (Table 2.3). -/
def coastIncrement (rpm : Nat) : Nat := (2 * (2 ^ 48 * rpm) + 1500000000) / (2 * 1500000000)

/-- One REFCK cycle at the COAST rate. -/
def coastTick (a : AtbState) (rpm : Nat) : AtbState :=
  let t := a.frac + coastIncrement rpm
  { a with count := a.count + BitVec.ofNat 64 (t / 65536), frac := t % 65536 }

/-- The counter runs from the clock track, or from the frequency it had: in LOCKED, in HOLDOVER, and in ACQUIRE entered
from HOLDOVER. -/
def fromTrack (s : State) : Bool :=
  let st := s.get F.ATB_STAT_STATE
  st == 2 || st == 3 || (st == 1 && s.atb.fromHoldover)

/-- One tick of an idle device (DESIGN CHOICE, log entry 4): held under R34, 4096 ticks for an ATBCK cycle, or one REFCK cycle at the
COAST rate. In OFF nothing advances. -/
def angleTick (s : State) : State :=
  if s.mode = mOFF ∨ s.on F.ATB_STAT_HOLD then s
  else if fromTrack s then { s with atb := { s.atb with count := s.atb.count + 4096 } }
  else { s with atb := coastTick s.atb (s.get F.ATB_CTL_COAST_RPM) }

end Sys2Proof.Machine
end

