-- ==== Sys2Proof/Machine/Atb.lean ====
section
/-! DEFINITION. The commands of the angle timebase (R28 to R36, R46, R500). -/

namespace Sys2Proof.Machine

open Sys2Proof

def aCOAST : Nat := 0
def aACQUIRE : Nat := 1
def aLOCKED : Nat := 2
def aHOLDOVER : Nat := 3

def State.onAtb (s : State) (f : AtbState → AtbState) : State := { s with atb := f s.atb }

def atbIs (s : State) (n : Nat) : Bool := s.get F.ATB_STAT_STATE == n

/-! ### Clock-track cycles (R28, R500) -/

/-- The amplitude of one cycle is judged against AMP_MIN: the two counts of consecutive cycles (R500). -/
def AtbState.judgeAmp (a : AtbState) (ampMin amp : Nat) : AtbState :=
  if ampMin ≤ amp then { a with qual := Nat.min 256 (a.qual + 1), low := 0 }
  else { a with qual := 0, low := Nat.min 16 (a.low + 1) }

/-- The cycle counter of the revolution and, while the index is searched for, the run of cycles with phase error above 1/4
of a cycle and the 64 cycles ignored after a run of 2 or more (R28). -/
def AtbState.countCycle (a : AtbState) (err : Nat) : AtbState :=
  if a.located then { a with cyc := (a.cyc + 1) % 1048576 }
  else if 1024 < err then { a with bad := a.bad + 1 }
  else { a with bad := 0, ignore := if 2 ≤ a.bad then 64 else a.ignore - 1 }

/-- The phase detector ignores the present cycle (R28): cycles 0 to 63 once the index is located, and the 64 cycles after a
bad run while it is searched for. -/
def AtbState.ignores (a : AtbState) : Bool := if a.located then decide (a.cyc < 64) else decide (0 < a.ignore)

/-- The phase error of a cycle that is not ignored is judged against the two windows (R500); a LOSSWIN below LOCKWIN is taken
as LOCKWIN (Table 2.12). -/
def AtbState.judgePhase (a : AtbState) (lockwin losswin err : Nat) : AtbState :=
  if a.ignores then a
  else { a with inside := if err ≤ lockwin then Nat.min 1024 (a.inside + 1) else 0
                beyond := if Nat.max lockwin losswin < err then Nat.min 16 (a.beyond + 1) else 0
                peak := Nat.max a.peak err }

/-- One clock-track cycle. The phase-error counts run in ACQUIRE and LOCKED only (R500). -/
def AtbState.cycle (phase : Bool) (ampMin lockwin losswin amp err : Nat) (a : AtbState) : AtbState :=
  let a := (a.judgeAmp ampMin amp).countCycle err
  if phase then a.judgePhase lockwin losswin err else a

/-- n clock-track cycles that are alike. -/
def AtbState.cycles (f : AtbState → AtbState) : Nat → AtbState → AtbState
  | 0, a => a
  | n + 1, a => AtbState.cycles f n (f a)

/-- The reference head can fly over a clock track (R505): the spindle turns, and the actuator is off the latch. During the moves
that leave or reach the ramp, and in a retract, whether it does comes with the cycles themselves. -/
def trackFlown (s : State) : Bool := s.pd.act != .fullpark && s.pd.sp != .stopped

/-- The amplitude that the reference front end sees: below every AMP_MIN but 0 where no track is flown over (R505). -/
def seenAmp (s : State) (amp : BitVec 8) : Nat := if trackFlown s then amp.toNat else 0

/-- The cycles that an event of the timebase finds: the counts of R500 run over them, SIGOK and PHERR show the last one,
PHPEAK takes the largest phase error outside cycles 0 to 63 (Tables 2.9 and 2.12). -/
def State.atbCycles (s : State) (l : List TrackRun) : State :=
  State.each (fun r s =>
    if r.n = 0 then s else
    let err := r.err.toInt.natAbs
    let phase := atbIs s aACQUIRE || atbIs s aLOCKED
    let f := AtbState.cycle phase (s.get F.AMP_AMP_MIN) (s.get F.WINDOWS_LOCKWIN) (s.get F.WINDOWS_LOSSWIN) (seenAmp s r.amp) err
    let a := AtbState.cycles f r.n s.atb
    let s := ((s.onAtb fun _ => a).putB F.ATB_STAT_SIGOK (decide (s.get F.AMP_AMP_MIN ≤ seenAmp s r.amp))).put F.PHASE_PHERR r.err.toNat
    if a.ignores then s else s.put F.PHASE_PHPEAK (Nat.max (s.get F.PHASE_PHPEAK) err)) l s

/-- An event of the timebase with its AMP_NOW and its cycles. -/
def State.atbSeen (s : State) (amp : BitVec 8) (l : List TrackRun) : State := (s.atbCycles l).put F.AMP_AMP_NOW (seenAmp s amp)

/-! ### Changes of state (Table 2.4) -/

/-- Open write gates close when the ATB leaves LOCKED (R46). -/
def State.atbGates (s : State) : State := if atbIs s aLOCKED then (s.chnCloseGate 2).wusRise 2 else s

/-- A search for the index begins: no index mark is recognised and the phase counts start again (R28, R500). -/
def AtbState.search (a : AtbState) : AtbState :=
  { a with entered := a.count, marks := 0, located := false, inside := 0, beyond := 0, bad := 0, ignore := 0, inSpan := false }

/-- The ATB enters COAST: SPEED reads 0, and reads that are not all sampled end. -/
def State.atbCoast (s : State) : State :=
  (((((s.atbGates.put F.ATB_STAT_STATE aCOAST).clr F.ATB_STAT_HOLD).put F.SPEED_SPEED 0).onAtb AtbState.search).chnAtbLost).chSettle

/-- The ATB enters ACQUIRE. -/
def State.atbAcquire (s : State) : State :=
  let held := atbIs s aHOLDOVER
  (((s.put F.ATB_STAT_STATE aACQUIRE).put F.SPEED_SPEED 0).onAtb fun (a : AtbState) =>
    { a.search with fromHoldover := held, peak := 0 }).chnAtbLost.chSettle

/-- The ATB enters LOCKED. -/
def State.atbLocked (s : State) : State :=
  ((((((s.put F.ATB_STAT_STATE aLOCKED).raiseBit F.ATB_STAT_EVERLOCKED).raiseBit F.ATB_STAT_LOCK).clr F.ATB_STAT_HOLD).put F.SPEED_SPEED 0).onAtb
    fun (a : AtbState) => { a with missed := 0, entered := a.count }).chSettle

/-- The ATB leaves LOCKED for HOLDOVER, or for COAST at once when HOLD_REVS is 0 (R46, record 0x0310). -/
def State.atbLoss (s : State) (cause : Nat) : State :=
  let speed := s.get F.SPEED_SPEED
  let gate := (s.chn.act.toList ++ s.chn.pend.toList).any fun (o : MOp) => o.gate
  let s := ((s.atbGates.put F.ATB_STAT_STATE aHOLDOVER).raiseBit F.ATB_STAT_LOSS).inc F.COUNTS_LOSS_CNT
  let s := s.onAtb AtbState.search
  let s := s.event 0x0310 0xFF (leBytes 1 cause ++ leBytes 1 (s.get F.AMP_AMP_NOW) ++ leBytes 2 (s.get F.PHASE_PHERR) ++
    leBytes 4 speed ++ leBytes 1 (if gate then 1 else 0) ++ leBytes 1 (s.get F.COUNTS_LOSS_CNT) ++ zeros 2)
  if s.get F.ATB_CTL_HOLD_REVS = 0 then s.atbCoast else s.chSettle

/-- An ACQUIRE attempt ends without lock (R36, record 0x0312): cause 1 amplitude lost, 2 ACQ_REVS elapsed. -/
def State.atbFail (s : State) (cause : Nat) : State :=
  let frm := if s.atb.fromHoldover then aHOLDOVER else aCOAST
  let s := (s.raiseBit F.ATB_STAT_ACQFAIL).inc F.COUNTS_ACQFAIL_CNT
  (s.event 0x0312 0xFF (leBytes 1 cause ++ leBytes 1 frm ++ leBytes 1 (s.get F.AMP_AMP_NOW) ++
    leBytes 1 (s.get F.COUNTS_ACQFAIL_CNT) ++ leBytes 2 s.atb.peak ++ zeros 2)).atbCoast

/-- A count of consecutive cycles that stands at its limit takes its transition (R33, R500). -/
def State.atbJudge (s : State) : State :=
  if (atbIs s aCOAST ∨ atbIs s aHOLDOVER) ∧ s.on F.ATB_CTL_EN ∧ s.atb.qual = 256 then s.atbAcquire
  else if atbIs s aACQUIRE ∧ s.atb.low = 16 then s.atbFail 1
  else if atbIs s aLOCKED ∧ s.atb.low = 16 then s.atbLoss 1
  else if atbIs s aLOCKED ∧ s.atb.beyond = 16 then s.atbLoss 2
  else s

/-- Transitions whose counts stand at their limits: at the cycle itself, and in the first cycle of the state that it leads to
(R500). No third can follow, because the counts of qualifying and of failing cycles exclude each other. -/
def State.atbSettle (s : State) : State := s.atbJudge.atbJudge

/-! ### Lock (R34, R35) -/

/-- The entries whose targets a forward step from `a` to `b` skips over, by index. -/
def skipped (s : State) (a b : Nat) : List Nat :=
  (List.range 256).filter fun i => let e := s.entry i; e.st == .armed && decide (a < e.due) && decide (e.due < b)

/-- SERVO_WIN, DATA_WIN and WRITE_GATE do not issue for a skipped occurrence; every other class issues late (R35). -/
def stepSuppresses (e : AscEntry) : Bool := e.cls == clsSERVO || e.cls == clsREAD || e.cls == clsWRITE

/-- The forward step (R34, R35): `ticks` have passed since the confirming index, whose captured counter is c. The counter
takes the true angle in the revolution after c or, where it has run past that, the first value ahead of it with that
angle, because it is never set backwards (R29; DESIGN CHOICE, log entry 100). -/
def State.forwardStep (s : State) (c : BitVec 64) (ticks : Nat) : State :=
  let cl := c.toNat % rev
  let amt := rev - cl
  let old := angleNow s
  let new := passage ticks (Nat.max old ((c.toNat / rev + 1) * rev))
  let hit := skipped s old new
  let out := hit.filter fun i => stepSuppresses (s.entry i)
  let late := hit.filter fun i => !stepSuppresses (s.entry i)
  let gone := (out.filter fun i => (s.entry i).period == 0).length
  let s := ((s.onAtb fun (a : AtbState) => { a with count := BitVec.ofNat 64 new }).raiseBit F.ATB_STAT_STEP).put F.STEPAMT_STEPAMT amt
  let s := s.event 0x0311 0xFF (leBytes 4 amt ++ leBytes 4 cl ++ leBytes 2 gone ++ leBytes 2 late.length)
  let s := State.each (fun i s => s.ascSuppress i (s.entry i)) out s.atbLocked
  State.each (fun i s => s.ascLate i (s.entry i)) late s

/-- The counter is aligned at the confirming index (R28, R34): it holds, or steps forward to the next revolution. Where the
true angle has reached or passed the counter by the time of recognition, which R34 does not name, there is nothing to
wait for: the counter takes the true angle and the ATB enters LOCKED at once, without HOLD (DESIGN CHOICE, log entry
100). -/
def State.align (s : State) (c : BitVec 64) (ticks : Nat) : State :=
  if c.toNat % rev ≤ 2 ^ 28 then
    let true_ := c.toNat / rev * rev + ticks
    if angleNow s ≤ true_ then (s.onAtb fun (a : AtbState) => { a with count := BitVec.ofNat 64 true_ }).atbLocked
    else s.raiseBit F.ATB_STAT_HOLD
  else s.forwardStep c ticks

/-- Lock is confirmed in ACQUIRE: the phase run is complete, the index marks that Table 2.4 asks for are recognised, and the
clock-track frequency lies in the span of R508. -/
def lockConfirmed (s : State) : Bool :=
  atbIs s aACQUIRE && !s.on F.ATB_STAT_HOLD && s.atb.inside == 1024 && s.atb.inSpan &&
    decide ((if s.atb.fromHoldover then 1 else 2) ≤ s.atb.marks)

/-! ### The commands -/

/-- A write of ATB_CTL (Table 2.8). COAST_RPM is bits [29:16], and R10 ignores bits [31:30]; Table 2.19's 20,000 does not
fit the field (DEDUCED, log entry 8). -/
def atbCtlWrite (v : Word) (s : State) : State :=
  let s := (s.put F.ATB_CTL_EN (bitsOf v 0 0)).put F.ATB_CTL_HOLD_REVS (bitsOf v 7 4)
  let s := s.put F.ATB_CTL_ACQ_REVS (Nat.max (bitsOf v 11 8) 1)
  let s := s.put F.ATB_CTL_COAST_RPM (coastRpm (bitsOf v 29 16))
  if bitsOf v 0 0 = 0 then s.atbCoast else s.atbSettle

def execAtbCtlWrite (m : Master) (v : Word) (s : State) : Host.Outcome State Fault Refusal :=
  .next (s.byCore m R.ATB_CTL v fun s => atbCtlWrite v s)

/-- The 256th consecutive cycle that qualifies (R500). None does where no clock track is flown over (R505). -/
def signalQualified (s : State) : State :=
  if ¬ trackFlown s then s else
  ((s.onAtb fun (a : AtbState) => { a with qual := 256, low := 0 }).raiseBit F.ATB_STAT_SIGOK).atbSettle

def execSignalQualified (s : State) : Host.Outcome State Fault Refusal := .next (signalQualified s)

/-- A clock-track frequency stands for a spindle speed from 5,000 to 10,500 rpm (R508); `speed` is in 1/16 rpm. -/
def speedInSpan (speed : Nat) : Bool := decide (80000 ≤ speed) && decide (speed ≤ 168000)

/-- A recognised index in ACQUIRE: a mark counts with the one before it if exactly 2^20 cycles lie between. The index is
located from here on, `run` cycles ago (R28). -/
def State.acquireMark (s : State) (run : Nat) (c : BitVec 64) (ticks gap speed : Nat) : State :=
  let s := s.onAtb fun (a : AtbState) =>
    { a with marks := if a.marks ≠ 0 ∧ gap = 1048576 then a.marks + 1 else 1, located := true, cyc := run, edge := c
             inSpan := speedInSpan speed }
  if lockConfirmed s then s.align c ticks else s

/-- A captured counter lies within 0 ± 16,384 ticks of a revolution boundary (Table 2.4). -/
def indexPlaced (c : BitVec 64) : Bool := decide (c.toNat % rev ≤ 16384) || decide (rev - 16384 ≤ c.toNat % rev)

/-- A recognised index in LOCKED (Table 2.4, R508, Table 2.11). -/
def State.lockedMark (s : State) (run : Nat) (c : BitVec 64) (speed : Nat) : State :=
  if ¬ indexPlaced c then s.atbLoss 4
  else if ¬ speedInSpan speed then s.atbLoss 2
  else (s.onAtb fun (a : AtbState) => { a with missed := 0, edge := c, cyc := run }).put F.SPEED_SPEED speed

/-- A run of inverted cycles ends (R28): its length, the counter captured at its first edge, the ticks since, the cycles
since the index before, the speed that the clock-track frequency stands for, and the track up to the run. -/
def indexMark (run : BitVec 8) (c : BitVec 64) (ticks gap : BitVec 32) (speed : BitVec 18) (track : Track) (s : State) : State :=
  let s := s.atbSeen track.amp track.cycles
  if run.toNat < 28 ∨ 32 < run.toNat ∨ ¬ trackFlown s then s.atbSettle
  else if atbIs s aACQUIRE ∧ ¬ s.on F.ATB_STAT_HOLD then (s.acquireMark run.toNat c ticks.toNat gap.toNat speed.toNat).atbSettle
  else if atbIs s aLOCKED then (s.lockedMark run.toNat c speed.toNat).atbSettle
  else s.atbSettle

def execIndexMark (run : BitVec 8) (c : BitVec 64) (ticks gap : BitVec 32) (speed : BitVec 18) (track : Track) (s : State) :
    Host.Outcome State Fault Refusal := .next (indexMark run c ticks gap speed track s)

/-- The run of cycles within LOCKWIN reaches 1024 (R33): lock is confirmed at the last recognised index if the marks
are there. -/
def lockwinRunComplete (ticks : BitVec 32) (s : State) : State :=
  if ¬ atbIs s aACQUIRE ∨ ¬ trackFlown s then s else
  let s := s.onAtb fun (a : AtbState) => { a with inside := 1024, beyond := 0 }
  if lockConfirmed s then s.align s.atb.edge ticks.toNat else s

def execLockwinRunComplete (ticks : BitVec 32) (s : State) : Host.Outcome State Fault Refusal := .next (lockwinRunComplete ticks s)

/-- The true angle reaches the held counter (R34). -/
def atbHoldEnd (s : State) : State := if atbIs s aACQUIRE ∧ s.on F.ATB_STAT_HOLD then s.atbLocked else s

def execAtbHoldEnd (s : State) : Host.Outcome State Fault Refusal := .next (atbHoldEnd s)

/-- The revolutions of the counter since the present state was entered reach n. -/
def revsPassed (s : State) (n : Nat) : Bool := decide (n * rev ≤ s.atb.count.toNat - s.atb.entered.toNat)

/-- ACQ_REVS revolutions pass in ACQUIRE (R36); with EN = 1 and the signal still there the next attempt begins at once. -/
def acquireTimeout (amp : BitVec 8) (cycles : List TrackRun) (s : State) : State :=
  let s := s.atbSeen amp cycles
  if atbIs s aACQUIRE ∧ revsPassed s (s.get F.ATB_CTL_ACQ_REVS) then (s.atbFail 2).atbSettle else s.atbSettle

def execAcquireTimeout (amp : BitVec 8) (cycles : List TrackRun) (s : State) : Host.Outcome State Fault Refusal :=
  .next (acquireTimeout amp cycles s)

/-- The amplitude is lost in ACQUIRE (R33): the cycles seen bring the count of those below AMP_MIN to 16. -/
def acquireSignalLost (amp : BitVec 8) (cycles : List TrackRun) (s : State) : State := (s.atbSeen amp cycles).atbSettle

def execAcquireSignalLost (amp : BitVec 8) (cycles : List TrackRun) (s : State) : Host.Outcome State Fault Refusal :=
  .next (acquireSignalLost amp cycles s)

/-- A loss condition in LOCKED (R46): cause 1 amplitude, 2 phase error, as the cycles seen show it. -/
def lockLoss (cause amp : BitVec 8) (cycles : List TrackRun) (s : State) : State :=
  let s := s.atbSeen amp cycles
  if atbIs s aLOCKED ∧ cause = 2 ∧ s.atb.beyond = 16 then (s.atbLoss 2).atbSettle else s.atbSettle

def execLockLoss (cause amp : BitVec 8) (cycles : List TrackRun) (s : State) : Host.Outcome State Fault Refusal :=
  .next (lockLoss cause amp cycles s)

/-- No index at its expected position (Table 2.4): the first is counted, a second in a row loses lock. -/
def indexMissed (amp : BitVec 8) (cycles : List TrackRun) (s : State) : State :=
  let s := s.atbSeen amp cycles
  if ¬ atbIs s aLOCKED then s.atbSettle
  else if s.atb.missed = 0 then
    (((s.raiseBit F.ATB_STAT_IDXMISS).inc F.COUNTS_IDXMISS_CNT).onAtb fun (a : AtbState) => { a with missed := 1 }).atbSettle
  else (s.atbLoss 3).atbSettle

def execIndexMissed (amp : BitVec 8) (cycles : List TrackRun) (s : State) : Host.Outcome State Fault Refusal :=
  .next (indexMissed amp cycles s)

/-- HOLD_REVS revolutions pass in HOLDOVER (R33). -/
def holdoverExpiry (s : State) : State :=
  if atbIs s aHOLDOVER ∧ revsPassed s (s.get F.ATB_CTL_HOLD_REVS) then s.atbCoast.atbSettle else s

def execHoldoverExpiry (s : State) : Host.Outcome State Fault Refusal := .next (holdoverExpiry s)

/-- One tick of an idle device (DESIGN CHOICE, log entry 4): the angle counter advances, and where the counter runs from a
clock track that the head no longer flies over, the cycle is one below AMP_MIN (R505). -/
def idleTick (s : State) : State :=
  let t := angleTick s
  if fromTrack s ∧ ¬ trackFlown s then (t.atbCycles [({ n := 1, amp := 0, err := 0 } : TrackRun)]).atbSettle else t

end Sys2Proof.Machine
end

