-- ==== Sys2Proof/Machine/Asc.lean ====
section
/-! DEFINITION. The commands of the angle scheduler (R37 to R45, R49, R501). -/

namespace Sys2Proof.Machine

open Sys2Proof

def arOK : Nat := 0
def arBUSY : Nat := 1
def arOWNED : Nat := 2
def arBADCLASS : Nat := 3
def arBADDOM : Nat := 4
def arISSUED : Nat := 5
def arLATEMEDIA : Nat := 6

/-- ENT_STATE (Table 2.6). -/
def entCode : EntState → Nat
  | .free => 0
  | .armed => 1
  | .dispatched => 2
  | .issued => 3
  | .suppressed => 4
  | .cancelled => 5

/-- ASC_RES of a core after a command on entry i (R49). -/
def State.ascRes (s : State) (m : Master) (i result : Nat) (nextrev late : Bool) : State :=
  let s := s.wr (R.ASC_RES m) 0
  (((s.put (F.ASC_RES_RESULT m) result).putB (F.ASC_RES_NEXTREV m) nextrev).putB (F.ASC_RES_LATE m) late).put (F.ASC_RES_ENT_STATE m)
    (entCode (s.entry i).st)

/-- The orderer owns an entry (R41). -/
def ascOwned (s : State) (i : Nat) : Bool := s.on F.ASC_CTL_HWORD && decide (i < 128)

/-- The staged entry of a core. -/
def staged (s : State) (m : Master) : AscEntry := { tgt := s.rd (R.STG_TGT m), cfg := s.rd (R.STG_CFG m), arg := s.rd (R.STG_ARG m) }

/-- How far a revolution-qualified target lies in the past, of 2^48 (R42): the pair (REV, TGT) against the counter. -/
def ticksPast (s : State) (e : AscEntry) : Nat :=
  (angleNow s + 2 ^ 48 - (bitsOf e.cfg 31 16 * rev + e.tgt.toNat)) % 2 ^ 48

/-- A revolution-qualified target is late: it lies less than 2^15 revolutions in the past (R42). -/
def ascIsLate (s : State) (e : AscEntry) : Bool := e.revq && decide (0 < ticksPast s e) && decide (ticksPast s e < 2 ^ 47)

/-- The result of arming a staged entry at an index, in the order of R45. -/
def armCheck (s : State) (i : Nat) (e : AscEntry) : Nat :=
  let media := e.cls == clsREAD || e.cls == clsWRITE
  if ascOwned s i then arOWNED
  else if ascValid (s.entry i) then arBUSY
  else if e.cls = 0 ∨ 7 < e.cls ∨ media ≠ decide (i < 128) then arBADCLASS
  else if classDom e.cls e.argv ≠ some e.dom then arBADDOM
  else if media ∧ ascIsLate s e then arLATEMEDIA
  else arOK

/-- ARM (R42): the staged entry is checked and stored, or refused. A late entry issues at once. -/
def ascArm (m : Master) (v : Word) (s : State) : State :=
  let i := bitsOf v 7 0
  let e := staged s m
  let r := armCheck s i e
  if r ≠ arOK then s.ascRes m i r false false
  else if e.revq then
    if ascIsLate s e then
      let due := (angleNow s + 2 ^ 64 - ticksPast s e) % 2 ^ 64
      let late := classIssues s e.cls
      (s.ascLate i { e with st := .armed, due }).ascRes m i arOK false late
    else
      let due := angleNow s + (2 ^ 48 - ticksPast s e) % 2 ^ 48
      (s.setEntry i { e with st := .armed, due }).ascRes m i arOK false false
  else
    let due := passage e.tgt.toNat (angleNow s + twoCycles)
    (s.setEntry i { e with st := .armed, due }).ascRes m i arOK (decide (angleNow s / rev < due / rev)) false

def execAscArm (m : Master) (v : Word) (s : State) : Host.Outcome State Fault Refusal :=
  .next (s.byCore m 0x40002020 (opWord v 9 8 1) fun s => ascArm m v s)

/-- CANCEL (R44). -/
def ascCancel (m : Master) (v : Word) (s : State) : State :=
  let i := bitsOf v 7 0
  let e := s.entry i
  if ascOwned s i then s.ascRes m i arOWNED false false
  else match e.st with
    | .armed => (s.setEntry i { e with st := .cancelled }).ascRes m i arOK false false
    | .dispatched => s.ascRes m i arISSUED false false
    | .issued => s.ascRes m i arISSUED false false
    | _ => s.ascRes m i arOK false false

def execAscCancel (m : Master) (v : Word) (s : State) : Host.Outcome State Fault Refusal :=
  .next (s.byCore m 0x40002020 (opWord v 9 8 2) fun s => ascCancel m v s)

/-- READ (R49): the entry is copied into the core's staging registers. -/
def ascRead (m : Master) (v : Word) (s : State) : State :=
  let i := bitsOf v 7 0
  let e := s.entry i
  (((s.wr (R.STG_TGT m) e.tgt).wr (R.STG_CFG m) e.cfg).wr (R.STG_ARG m) e.arg).ascRes m i arOK false false

def execAscRead (m : Master) (v : Word) (s : State) : Host.Outcome State Fault Refusal :=
  .next (s.byCore m 0x40002020 (opWord v 9 8 3) fun s => ascRead m v s)

/-- FLUSH (R44): every ARMED entry in the range the writing core may arm is cancelled. -/
def ascFlush (s : State) : State :=
  State.each (fun i s =>
    let e := s.entry i
    if e.st = .armed ∧ ¬ ascOwned s i then s.setEntry i { e with st := .cancelled } else s) (List.range 256) s

def execAscFlush (m : Master) (s : State) : Host.Outcome State Fault Refusal :=
  .next (s.byCore m R.ASC_CTL (s.rd R.ASC_CTL ||| 2) fun s => ascFlush s)

/-- Two ATBCK cycles before its target an armed entry is dispatched (R37). Whether it issues is decided at the target
(R40). -/
def ascDispatch (i : BitVec 8) (s : State) : State :=
  let e := s.entry i.toNat
  if e.st ≠ .armed ∨ angleNow s + twoCycles < e.due then s else s.setEntry i.toNat { e with st := .dispatched }

def execAscDispatch (i : BitVec 8) (s : State) : Host.Outcome State Fault Refusal := .next (ascDispatch i s)

/-- Entry j, with number k in the table, goes before entry i, e: both are dispatched to one domain and their targets have
come, and the target of j is the earlier by at least one period of the domain's clock, or lies within one period of the
other's and j has the lower index (R38). -/
def goesBefore (period i : Nat) (e : AscEntry) (k : Nat) (j : AscEntry) (now : Nat) : Bool :=
  k != i && j.st == .dispatched && j.dom == e.dom && decide (j.due ≤ now) &&
    (decide (j.due + period ≤ e.due) || decide (k < i ∧ j.due < e.due + period))

/-- The target of a dispatched entry of a class has come and no other entry goes before it (R37, R38): in a state and mode
of its row of Table 2.5 its event takes effect, and otherwise the occurrence is suppressed (R40). -/
def ascEvent (cls : Nat) (i : BitVec 8) (skew : Int) (s : State) : State :=
  let e := s.entry i.toNat
  if e.st ≠ .dispatched ∨ e.cls ≠ cls ∨ angleNow s < e.due then s
  else if s.asc.any fun p => goesBefore (domainPeriod s e.dom) i.toNat e p.1 p.2 (angleNow s) then s
  else if classIssues s cls then s.ascIssue i.toNat e skew
  else (s.ascSuppress i.toNat e).chSettle

/-- SERVO_WIN (R196). -/
def execServoWin (i : BitVec 8) (s : State) : Host.Outcome State Fault Refusal := .next (ascEvent clsSERVO i 0 s)

/-- DATA_WIN (R265); `skew` is the head's skew. -/
def execDataWin (i : BitVec 8) (skew : BitVec 32) (s : State) : Host.Outcome State Fault Refusal := .next (ascEvent clsREAD i skew.toInt s)

/-- WRITE_GATE (R265). -/
def execWriteGate (i : BitVec 8) (skew : BitVec 32) (s : State) : Host.Outcome State Fault Refusal := .next (ascEvent clsWRITE i skew.toInt s)

/-- DB_POLL (R368). -/
def execDbPoll (i : BitVec 8) (s : State) : Host.Outcome State Fault Refusal := .next (ascEvent clsPOLL i 0 s)

/-- PREFETCH_REL (R306). -/
def execPrefetchRel (i : BitVec 8) (s : State) : Host.Outcome State Fault Refusal := .next (ascEvent clsREL i 0 s)

/-- MOR_SEAL (R150). -/
def execMorSeal (i : BitVec 8) (s : State) : Host.Outcome State Fault Refusal := .next (ascEvent clsSEAL i 0 s)

/-- CORE_IRQ (R39). -/
def execCoreIrq (i : BitVec 8) (s : State) : Host.Outcome State Fault Refusal := .next (ascEvent clsIRQ i 0 s)

/-- A latched event takes effect once the clock of its domain runs again (R501). -/
def latchedEvent (s : State) : State :=
  match s.latched.find? fun (l : Latched) => !ascWaits s l.cls l.arg with
  | some l => ({ s with latched := s.latched.erase l }).ascEffect l.cls l.arg l.due 0
  | none => s

def execLatchedEvent (s : State) : Host.Outcome State Fault Refusal := .next (latchedEvent s)

end Sys2Proof.Machine
end

