-- ==== Sys2Proof/Machine/RegOps.lean ====
section
/-! DEFINITION. What a write does to the fields of a register by their access codes (R8), with no effect beside it. -/

namespace Sys2Proof.Machine

open Sys2Proof

/-- A field's bits after a write of a word (R8): RW takes them, W1C clears and W1S sets where 1 is written, and every
other code keeps them. -/
def fieldAfter (old v : Word) (f : FieldDesc) : Nat :=
  let o := bitsOf old f.hi f.lo
  let n := bitsOf v f.hi f.lo
  match f.acc with
  | .RW => n
  | .W1C => o &&& (2 ^ (f.hi + 1 - f.lo) - 1 - n)
  | .W1S => o ||| n
  | _ => o

/-- A whole word after a write. -/
def wordAfter (fields : List FieldDesc) (old v : Word) : Word :=
  fields.foldl (fun w f => withBits w f.hi f.lo (fieldAfter old v f)) old

/-- A write to a register by its access codes; an address with no register takes nothing. -/
def State.regWrite (s : State) (k : Nat) (v : Word) : State :=
  match findReg k with
  | some r => s.wr k (wordAfter r.fields (s.rd k) v)
  | none => s

end Sys2Proof.Machine
end

