-- ==== Sys2Proof/Machine/Chn.lean ====
section
/-! DEFINITION. The commands of the read/write channel (R257 to R282). -/

namespace Sys2Proof.Machine

open Sys2Proof

/-! ### The MOP table and head contexts -/

/-- DBIT, held below 512L once K is in its range (R282, Table 11.12). -/
def dbitHeld (s : State) (t : Nat) : Nat :=
  if s.get (F.MOP1_K t) < 1024 then s.get (F.MOP0_DBIT t)
  else Nat.min (s.get (F.MOP0_DBIT t)) (512 * (30 * s.get (F.MOP1_K t) - 96) - 1)

/-- A write of MOP word 3 (R264). -/
def mopCommit (t : BitVec 7) (v : Word) (s : State) : State :=
  let t := t.toNat
  if s.on F.ASC_CTL_HWORD then s.raiseBit F.CHN_FLAG_MOPOWN
  else if mopState s t = mopPEND ∨ mopState s t = mopACTIVE then s.raiseBit F.CHN_FLAG_MOPBUSY
  else ((s.regWrite (R.MOP3 t) v).put (F.MOP0_DBIT t) (dbitHeld s t)).mopCommit t

def execMopCommit (m : Master) (t : BitVec 7) (v : Word) (s : State) : Host.Outcome State Fault Refusal :=
  .next (s.byCore m (R.MOP0 t.toNat + 12) v fun s => mopCommit t v s)

/-- The synthesiser reaches its new rate code (R258). -/
def synthSlewDone (s : State) : State :=
  match s.chn.slew with
  | some k => s.onChn fun n => { n with k, slew := none }
  | none => s

def execSynthSlewDone (s : State) : Host.Outcome State Fault Refusal := .next (synthSlewDone s)

/-- The context of a head whose operation is PEND or ACTIVE is in use (R269). -/
def headBusy (s : State) (h : Nat) : Bool :=
  (s.chn.act.toList ++ s.chn.pend.toList).any fun (o : MOp) => s.get (F.MOP0_HEAD o.tag) == h

/-- A core writes a word of a head context (R269, Table 11.10). -/
def headContextWrite (h : BitVec 5) (w : BitVec 3) (v : Word) (s : State) : State :=
  if h.toNat ≥ 20 then s
  else if headBusy s h.toNat then s.raiseBit F.CHN_FLAG_CTXBUSY
  else s.regWrite (R.HCTX_00 h.toNat + 4 * w.toNat) v

def execHeadContextWrite (m : Master) (h : BitVec 5) (w : BitVec 3) (v : Word) (s : State) : Host.Outcome State Fault Refusal :=
  .next (s.byCore m (0x40004200 + 32 * h.toNat + 4 * w.toNat) v fun s => headContextWrite h w v s)

/-! ### Reading -/

/-- The first bit of the next sector of the read under the head: it takes a soft-sample slot, or the operation ends
with OVERRUN (R273). -/
def sectorStart (t : BitVec 7) (s : State) : State :=
  match mediaOp s with
  | none => s
  | some o =>
    if o.tag ≠ t.toNat ∨ mopWrite s o.tag ∨ o.started ≥ mopNsec s o.tag ∨ s.mode ≠ mFLOW then s
    else if s.chn.slots.length ≥ 3 then s.opFail o.tag 8
    else
      let r : RSec := { tag := o.tag, idx := o.started }
      (s.onChn fun n => { n with slots := n.slots ++ [r] }).setOp { o with started := o.started + 1 }

def execSectorStart (t : BitVec 7) (s : State) : Host.Outcome State Fault Refusal := .next (sectorStart t s).chSettle

/-- The last codeword bit of the sector being sampled: the head's loops have adapted to it, and an engine takes it, or it is
SERVOLAP because the servo gate opened inside it (R269, R273, R280). -/
def sectorLastBit (t : BitVec 7) (samp : Samples) (s : State) : State :=
  let t := t.toNat
  match s.chn.slots.find? fun (r : RSec) => r.tag == t && !r.decoding && r.dec.isNone with
  | none => s
  | some r =>
    let s := s.adapt t samp
    let s := s.onChn fun n => { n with
      slots := n.slots.map fun (x : RSec) => if x.tag == t && x.idx == r.idx then { x with samp, decoding := true } else x }
    if samp.servoLap then s.decoded t r.idx { res := 12, iters := 0, user := [], md := [], unsat := 0, erased := 0 } else s

def execSectorLastBit (t : BitVec 7) (samp : Samples) (s : State) : Host.Outcome State Fault Refusal := .next (sectorLastBit t samp s).chSettle

/-- The iteration cap of an operation's decodes (R273, R274). -/
def iterCap (s : State) (t : Nat) : Nat :=
  if s.on (F.MOP1_RETRY t) ∧ s.get (F.MOP3_RITER t) ≠ 0 then s.get (F.MOP3_RITER t) else s.get F.CHN_ITER_GITER

/-- The samples of sector j of tag t. -/
def sampOf (s : State) (t j : Nat) : Samples :=
  ((s.chn.slots.find? fun (r : RSec) => r.tag == t && r.idx == j).map RSec.samp).getD {}

/-- What a decode of sector j of tag t comes to (R271). -/
def decodeOf (s : State) (t j : Nat) (f : SectorFacts) : Decoded :=
  let f := { f with iters := BitVec.ofNat 6 (Nat.min f.iters.toNat (iterCap s t)) }
  let h := s.get (F.MOP0_HEAD t)
  let m := sampOf s t j
  decodedOf (sectorResult s h (s.on (F.MOP1_SSMONLY t)) (mopLba s t j) (mopParty s t) m f)
    (erasedBits s h (s.on (F.MOP1_SSMONLY t)) (s.on (F.MOP1_SAMPKEEP t)) m f) f

/-- Decoding stops on convergence or at the cap (R271). -/
def decodeDone (t : BitVec 7) (idx : BitVec 8) (f : SectorFacts) (s : State) : State :=
  s.decoded t.toNat idx.toNat (decodeOf s t.toNat idx.toNat f)

def execDecodeDone (t : BitVec 7) (idx : BitVec 8) (f : SectorFacts) (s : State) : Host.Outcome State Fault Refusal :=
  .next (decodeDone t idx f s).chSettle

/-- The deadline of an on-the-fly sector arrives before its checks are satisfied (R273); a retry has none (R274). -/
def decodeDeadline (t : BitVec 7) (idx : BitVec 8) (f : SectorFacts) (s : State) : State :=
  if s.on (F.MOP1_RETRY t.toNat) then s else decodeDone t idx { f with conv := false } s

def execDecodeDeadline (t : BitVec 7) (idx : BitVec 8) (f : SectorFacts) (s : State) : Host.Outcome State Fault Refusal :=
  .next (decodeDeadline t idx f s).chSettle

/-! ### Writing -/

/-- One microsecond before the gate point of the next sector of a write (R277): its data is all in the FIFO, or the
operation ends with NODATA once the sectors before it are written. -/
def writeDataCheck (t : BitVec 7) (s : State) : State :=
  match mediaOp s with
  | none => s
  | some o =>
    if o.tag ≠ t.toNat ∨ ¬ mopWrite s o.tag ∨ o.started ≥ mopNsec s o.tag ∨ o.started > o.next + 1 ∨ o.nodata then s
    else if (fifoOf s (mopChan s o.tag)).any fun (w : WSec) => w.tag == o.tag && w.idx == o.started then
      if gateAllowed s then s.setOp { o with started := o.started + 1, gate := true } else s.opFail o.tag 6
    else if o.started = o.next then s.opFail o.tag 7
    else s.setOp { o with nodata := true }

def execWriteDataCheck (t : BitVec 7) (s : State) : Host.Outcome State Fault Refusal := .next (writeDataCheck t s).chSettle

/-- The last postamble bit of a write sector (R266, R279): its channel bits are on the medium. -/
def sectorWritten (t : BitVec 7) (s : State) : State :=
  match mediaOp s with
  | none => s
  | some o =>
    let t' := o.tag
    let c := mopChan s t'
    match (fifoOf s c).find? fun (w : WSec) => w.tag == t' && w.idx == o.next with
    | none => s
    | some w =>
      if t' ≠ t.toNat ∨ ¬ mopWrite s t' ∨ ¬ o.gate ∨ o.started ≤ o.next then s else
      let d := mopDbit s t' o.next
      let bits := sectorBits (mopLba s t' o.next) (sectorInfo s t' w)
      let s := s.emit (.media (s.get (F.MOP0_HEAD t')) d bits (sectorShifts s t' d bits))
      let s := s.setFifo c ((fifoOf s c).filter fun (x : WSec) => !(x.tag == t' && x.idx == o.next))
      let o := { o with next := o.next + 1, ndone := o.ndone + 1, gate := decide (o.started > o.next + 1) }
      let s := State.chFill none 3 c (s.setOp o)
      if o.next ≥ mopNsec s t' then s.opEnd t' 0
      else if o.nodata ∧ o.next = o.started then s.opFail t' 7
      else s

def execSectorWritten (t : BitVec 7) (s : State) : Host.Outcome State Fault Refusal := .next (sectorWritten t s).chSettle

/-! ### Queues and re-decoding -/

/-- CHN_CMD.POPDONE removes the head of CHN_DONEQ. -/
def popdone (s : State) : State := s.onChn fun n => { n with doneq := n.doneq.drop 1 }

def execPopdone (m : Master) (s : State) : Host.Outcome State Fault Refusal :=
  .next (s.byCore m R.CHN_CMD 1 fun s => popdone s)

/-- CHN_CMD.POPFAIL removes the head of CHN_FAILQ. -/
def popfail (s : State) : State := s.onChn fun n => { n with failq := n.failq.drop 1 }

def execPopfail (m : Master) (s : State) : Host.Outcome State Fault Refusal :=
  .next (s.byCore m R.CHN_CMD 2 fun s => popfail s)

/-- CHN_CMD.REDEC starts a re-decode of a held slot; it is ignored while one runs (R275). -/
def redec (s : State) : State :=
  let i := s.get F.CHN_RDEC_SLOT
  if s.chn.redec.isSome ∨ (tabGet s.chn.kept none i).isNone then s
  else (s.onChn fun n => { n with redec := some (i, s.rd R.CHN_RDEC) }).raiseBit F.CHN_RDRES_BUSY

def execRedec (m : Master) (s : State) : Host.Outcome State Fault Refusal :=
  .next (s.byCore m R.CHN_CMD 4 fun s => redec s)

/-- The channel of a retained sector has a live descriptor that holds its place. -/
def redecTakes (s : State) (r : RetSlot) : Bool :=
  let k := s.chan r.chan
  let d := dscOf k.desc
  k.live && d.src == eCHANNEL && d.tag == r.tag && decide (k.base ≤ r.idx) && decide (r.idx < k.base + d.len / 4096)

/-- A re-decode ends (R275, R276): a sector that decodes waits for its channel and is delivered in its place; one that
fails with FINAL = 1 is recorded. -/
def redecDone (f : SectorFacts) (s : State) : State :=
  match s.chn.redec with
  | none => s
  | some (i, w) => match tabGet s.chn.kept none i with
    | none => s
    | some r =>
      let riter := bitsOf w 7 2
      let cap := if riter = 0 then s.get F.CHN_ITER_GITER else riter
      let f := { f with iters := BitVec.ofNat 6 (Nat.min f.iters.toNat cap) }
      let h := bitsOf w 20 16
      let res := sectorResult s h (w.getLsbD 8) r.lba r.party r.samp f
      let d := decodedOf res (erasedBits s h (w.getLsbD 8) true r.samp f) f
      if res ≤ 1 ∧ ¬ redecTakes s r then s else
      let s := (s.onChn fun n => { n with redec := none }).clr F.CHN_RDRES_BUSY
      let s := ((s.put F.CHN_RDRES_SRES res).put F.CHN_RDRES_ITER d.iters).put F.CHN_RDRES_UNSAT d.unsat
      let s := s.sresCount res
      if res ≤ 1 then
        let n := passedOf s r.tag
        (s.chPass r.chan r.tag r.idx (some (d.user, d.md))).setPassed r.tag (Nat.max n (r.idx + 1))
      else if w.getLsbD 9 then
        let n := 512 * (30 * bitsOf r.w1 12 0 - 96)
        let dbit := (bitsOf r.w0 25 0 + r.idx * sectorLen) % Nat.max n 1
        s.giveUp (bitsOf r.w0 30 26) res d.iters (bitsOf r.w1 24 24 + 2 * bitsOf r.w1 26 26 + 4 * bitsOf w 8 8 + 8) dbit r.lba r.party d.unsat d.erased
      else s

def execRedecDone (f : SectorFacts) (s : State) : Host.Outcome State Fault Refusal := .next (redecDone f s).chSettle

/-- CHN_CMD.RELEASE frees slot CHN_RDEC.SLOT; it is ignored while a re-decode runs (R275). -/
def release (s : State) : State :=
  if s.chn.redec.isSome then s else
  let i := s.get F.CHN_RDEC_SLOT
  (s.onChn fun n => { n with kept := tabPut n.kept none i none }).clrIn F.CHN_STAT_RSLOT i

def execRelease (m : Master) (s : State) : Host.Outcome State Fault Refusal :=
  .next (s.byCore m R.CHN_CMD 8 fun s => release s)

end Sys2Proof.Machine
end

