-- ==== Sys2Proof/Machine/P384.lean ====
section
/-! DEFINITION. The elliptic curve P-384 and ECDSA over it (FIPS 186-5), for the device's keys, the record signer and
the check of an image header (R113, R116, R119). -/

namespace Sys2Proof.Machine

open Sys2Proof

/-- The prime of the field. -/
def p384P : Nat := 0xfffffffffffffffffffffffffffffffffffffffffffffffffffffffffffffffeffffffff0000000000000000ffffffff
/-- The order of the group. -/
def p384N : Nat := 0xffffffffffffffffffffffffffffffffffffffffffffffffc7634d81f4372ddf581a0db248b0a77aecec196accc52973
def p384B : Nat := 0xb3312fa7e23ee7e4988e056be3f82d19181d9c6efe8141120314088f5013875ac656398d8a2ed19d2a85c8edd3ec2aef
def p384Gx : Nat := 0xaa87ca22be8b05378eb1c71ef320ad746e1d3b628ba79b9859f741e082542a385502f25dbf55296c3a545e3872760ab7
def p384Gy : Nat := 0x3617de4a96262c6f5d9e98bf9292dc29f8f41dbd289a147ce9da3113b5f0b8c00a60b1ce1d7e819d7a431d7c90ea0e5f

/-- A point in Jacobian coordinates; z = 0 is the point at infinity. -/
structure EcPoint where
  x : Nat
  y : Nat
  z : Nat

def ecInf : EcPoint := { x := 1, y := 1, z := 0 }

/-- a − b in the field. -/
def subP (a b : Nat) : Nat := (a + p384P - b % p384P) % p384P

/-- Power modulo m, over n bits of the exponent from the top. -/
def powMod (m b e : Nat) : Nat → Nat → Nat
  | 0, acc => acc
  | n + 1, acc =>
    let q := acc * acc % m
    powMod m b e n (if e.testBit n then q * b % m else q)

/-- The inverse modulo a prime. -/
def invMod (m a : Nat) : Nat := powMod m (a % m) (m - 2) 384 1

def ecDouble (p : EcPoint) : EcPoint :=
  if p.z = 0 then p else
  let yy := p.y * p.y % p384P
  let zz := p.z * p.z % p384P
  let s := 4 * p.x * yy % p384P
  let m := 3 * (subP p.x zz) * (p.x + zz) % p384P
  let x := subP (m * m % p384P) (2 * s)
  let y := subP (m * (subP s x) % p384P) (8 * yy * yy % p384P)
  { x, y, z := 2 * p.y * p.z % p384P }

def ecAdd (p q : EcPoint) : EcPoint :=
  if p.z = 0 then q else if q.z = 0 then p else
  let z1 := p.z * p.z % p384P
  let z2 := q.z * q.z % p384P
  let u1 := p.x * z2 % p384P
  let u2 := q.x * z1 % p384P
  let s1 := p.y * z2 * q.z % p384P
  let s2 := q.y * z1 * p.z % p384P
  if u1 = u2 then (if s1 = s2 then ecDouble p else ecInf) else
  let h := subP u2 u1
  let r := subP s2 s1
  let hh := h * h % p384P
  let hhh := h * hh % p384P
  let v := u1 * hh % p384P
  let x := subP (subP (r * r % p384P) hhh) (2 * v)
  let y := subP (r * (subP v x) % p384P) (s1 * hhh % p384P)
  { x, y, z := h * p.z % p384P * q.z % p384P }

/-- k times a point, over n bits of k from the top. -/
def ecMul (p : EcPoint) (k : Nat) : Nat → EcPoint → EcPoint
  | 0, acc => acc
  | n + 1, acc =>
    let q := ecDouble acc
    ecMul p k n (if k.testBit n then ecAdd q p else q)

/-- The affine coordinates of a point that is not infinity. -/
def ecAffine (p : EcPoint) : Nat × Nat :=
  let i := invMod p384P p.z
  let ii := i * i % p384P
  (p.x * ii % p384P, p.y * ii % p384P * i % p384P)

def ecG : EcPoint := { x := p384Gx, y := p384Gy, z := 1 }

/-- k times the generator. -/
def ecBase (k : Nat) : Nat × Nat := ecAffine (ecMul ecG k 384 ecInf)

/-- A private scalar from a 48-byte derivation output (R497). -/
def scalarOf (v : List Byte) : Nat := beNat (slice v 0 48) % (p384N - 1) + 1

/-- The public key of a private scalar: X then Y, 96 bytes (Table 5.10). -/
def publicOf (d : Nat) : List Byte :=
  let ans := ecBase d
  let x := ans.1
  let y := ans.2
  beBytes 48 x ++ beBytes 48 y

/-- ECDSA over a SHA-384 digest with the per-message secret k: r then s, 96 bytes (R119). -/
def ecdsaSign (d k : Nat) (digest : List Byte) : List Byte :=
  let r := (ecBase k).1 % p384N
  let s := invMod p384N k * ((beNat digest + r * d) % p384N) % p384N
  beBytes 48 r ++ beBytes 48 s

/-- A public key is a point of the curve. -/
def onCurve (x y : Nat) : Bool :=
  decide (x < p384P) && decide (y < p384P) && y * y % p384P == (x * x * x + (p384P - 3) * x + p384B) % p384P

/-- ECDSA verification of r then s over a SHA-384 digest. -/
def ecdsaVerify (pub digest sig : List Byte) : Bool :=
  let x := beNat (slice pub 0 48)
  let y := beNat (slice pub 48 48)
  let r := beNat (slice sig 0 48)
  let s := beNat (slice sig 48 48)
  let w := invMod p384N s
  let u1 := beNat digest * w % p384N
  let u2 := r * w % p384N
  let q := ecAdd (ecMul ecG u1 384 ecInf) (ecMul { x, y, z := 1 } u2 384 ecInf)
  onCurve x y && decide (0 < r) && decide (r < p384N) && decide (0 < s) && decide (s < p384N) && q.z != 0 &&
    (ecAffine q).1 % p384N == r

end Sys2Proof.Machine
end

