-- ==== Sys2Proof/Machine/Keys.lean ====
section
/-! DEFINITION. The key hierarchy (Table 5.5, R497): what is derived from the device root key. -/

namespace Sys2Proof.Machine

open Sys2Proof

/-- ASCII bytes without a terminator. -/
def ascii (t : String) : List Byte := t.toList.map fun c => BitVec.ofNat 8 c.toNat

def drkBytes : List Byte := leBytes 32 Config.drk.toNat

/-- The root of the party media keys. -/
def mekRoot : List Byte := hmac384 drkBytes (ascii "MEDIA")

/-- The DEVID private scalar. -/
def devidKey : Nat := scalarOf (hmac384 drkBytes (ascii "DEVID"))

/-- The ALIAS private scalar of a SEC2 image, by the final chain value of its segment. -/
def aliasKey (hfinal : List Byte) : Nat := scalarOf (hmac384 drkBytes (ascii "ALIAS" ++ hfinal))

/-- The 64-byte media key of a party. -/
def mediaKey (p : Nat) (salt : List Byte) : List Byte :=
  let m := ascii "AZMEK" ++ leBytes 1 p ++ salt
  slice (hmac384 mekRoot (1 :: m) ++ hmac384 mekRoot (2 :: m)) 0 64

/-- Sign a digest under a fresh per-message secret, which the spec leaves open (DESIGN CHOICE, log entry 3). -/
def State.sign (s : State) (d : Nat) (digest : List Byte) : List Byte × State :=
  let ans := State.drawBytes 6 s
  let k := ans.1
  let s := ans.2
  (ecdsaSign d (scalarOf k) digest, s)

end Sys2Proof.Machine
end

