-- ==== Sys2Proof/Machine/SstOps.lean ====
section
/-! DEFINITION. Secure start's shared operations: image headers and slot choice, passing and failing segments, fallback
and RECOVERY, fuse programming, and the ALIAS certificate (chapter 5, R447). -/

namespace Sys2Proof.Machine

open Sys2Proof

/-- Zero a range of the on-chip SRAM. -/
def State.sramZero (s : State) (a n : Nat) : State :=
  { s with sram := Sparse.keep (fun k => !(decide (a ≤ k) && decide (k < a + n))) s.sram }

/-- Lay bytes over n registers of an array, four to a word. -/
def State.wrBytes (s : State) (r : Nat → Nat) (n : Nat) (bs : List Byte) : State :=
  State.each (fun k s => s.wr (r k) (BitVec.ofNat 32 (leNat (slice bs (4 * k) 4)))) (List.range n) s

/-- The bytes that n registers of an array hold. -/
def rdBytes (s : State) (r : Nat → Nat) (n : Nat) : List Byte := (List.range n).flatMap fun k => leBytes 4 (s.rd (r k)).toNat

/-! ### Memories of the cores (Table 20.1) -/

/-- The TCM of a core: base and size. -/
def tcmBase : Master → Nat
  | .sec => 0x10000000
  | .hc0 => 0x10100000
  | .hc1 => 0x10200000
  | .mc => 0x10300000
  | .sv => 0x10400000

def tcmSize : Master → Nat
  | .sec => 0x80000
  | .sv => 0x40000
  | _ => 0x100000

/-- The core that a segment is loaded for (Table 5.4). -/
def segCore : Nat → Option Master
  | 0 => some .sec
  | 2 => some .hc0
  | 3 => some .hc1
  | 4 => some .mc
  | 5 => some .sv
  | _ => none

/-- The cores that run gated: number c of SST_REL, and their segment (R122). -/
def gatedCore : Nat → Master
  | 0 => .hc0
  | 1 => .hc1
  | _ => .mc

def gatedSeg (c : Nat) : Nat := c + 2

/-! ### Image headers (Tables 5.2 and 5.3) -/

def hdrNum (h : List Byte) (off n : Nat) : Nat := leNat (slice h off n)
def hdrSeq (h : List Byte) : Nat := hdrNum h 8 4
def hdrSvn (h : List Byte) : Nat := hdrNum h 0xC 2
def hdrKeyidx (h : List Byte) : Nat := hdrNum h 0xF 1
def hdrProvision (h : List Byte) : Bool := (hdrNum h 6 2).testBit 0
def hdrSvnCommit (h : List Byte) : Bool := (hdrNum h 6 2).testBit 1
def hdrRevoke (h : List Byte) : Nat := hdrNum h 6 2 / 16 % 16
def hdrDigest (h : List Byte) : List Byte := sha384 (slice h 0 0xFA0)

/-- A field of segment k's entry. -/
def segNum (h : List Byte) (k off n : Nat) : Nat := hdrNum h (0x20 + 80 * k + off) n
def segNblk (h : List Byte) (k : Nat) : Nat := segNum h k 2 2
def segLen (h : List Byte) (k : Nat) : Nat := segNum h k 4 4
def segEntry (h : List Byte) (k : Nat) : Nat := segNum h k 8 4
def segOff (h : List Byte) (k : Nat) : Nat := segNum h k 12 4
def segFinal (h : List Byte) (k : Nat) : List Byte := slice h (0x20 + 80 * k + 16) 48

/-- The NBLK limits of Table 5.4. -/
def segMax (k : Nat) : Nat := [7, 1, 16, 16, 16, 4, 4].getD k 0

/-- A segment entry meets Tables 5.3 and 5.4. -/
def segGood (h : List Byte) (k : Nat) : Bool :=
  let n := segNblk h k
  let len := segLen h k
  let e := segEntry h k
  segNum h k 0 1 == k && decide (1 ≤ n) && decide (n ≤ segMax k) && decide ((n - 1) * 65536 < len) && decide (len ≤ n * 65536) &&
  (if k = 1 then e == 0 else if k = 6 then decide (e < len / 16) else decide (e < len)) && segOff h k % 65536 == 0

/-- The blocks lie within IMGLEN in ascending order, without overlap, behind the header's sector (R108, R111, R186). -/
def segsPlaced (h : List Byte) : Bool :=
  let ends := fun (k : Nat) => segOff h k + 65536 * segNblk h k
  let img := hdrNum h 0x10 4
  decide (65536 ≤ segOff h 0) && ((List.range 6).all fun k => decide (ends k ≤ segOff h (k + 1))) && decide (ends 6 ≤ img) &&
    decide (img ≤ 65 * 65536)

def keyHashOf (f : Fuses) (k : Nat) : List Byte := tabGet f.keyhash (zeros 48) k

def keyBlank (f : Fuses) (k : Nat) : Bool := (keyHashOf f k).all (· == 0)

/-- The key check of R111. -/
def keyGood (f : Fuses) (h : List Byte) : Bool :=
  let k := hdrKeyidx h
  let same := sha384 (slice h 0x250 96) == keyHashOf f k
  if f.production then same && !hdrProvision h else if keyBlank f k then hdrProvision h else same

/-- A header is valid (R111). -/
def headerValid (f : Fuses) (h : List Byte) : Bool :=
  hdrNum h 0 4 == 0x41475A31 && hdrNum h 4 2 == 1 && hdrNum h 0xE 1 == 7 && ((List.range 7).all fun k => segGood h k) &&
  segsPlaced h && decide (f.svn ≤ hdrSvn h) && decide (hdrKeyidx h < 4) && !f.keyrev.getLsbD (hdrKeyidx h) && keyGood f h

/-- The base of an image slot (R186). -/
def slotBase (n : Nat) : Nat := if n = 0 then 0x20000000 else 0x21000000

def slotHeader (s : State) (n : Nat) : List Byte := s.stoBytes (slotBase n) 4096

/-- A slot is a candidate: not marked, with a valid header (R112). -/
def slotGood (s : State) (mask n : Nat) : Bool := !mask.testBit n && headerValid s.sst.fuses (slotHeader s n)

/-- The slot that R112 chooses: the higher SEQ, A on a tie. -/
def bestSlot (s : State) (mask : Nat) : Option Nat :=
  match slotGood s mask 0, slotGood s mask 1 with
  | true, true => if hdrSeq (slotHeader s 0) < hdrSeq (slotHeader s 1) then some 1 else some 0
  | true, false => some 0
  | false, true => some 1
  | false, false => none

/-- H_0 of a segment (R110). -/
def chainStart (h : List Byte) (k : Nat) : List Byte :=
  sha384 (leBytes 1 k ++ zeros 3 ++ leBytes 4 (segLen h k) ++ leBytes 4 (hdrSeq h) ++ leBytes 2 (hdrSvn h) ++ zeros 2)

def chainOf (s : State) (k : Nat) : List Byte := tabGet s.sst.chains (zeros 48) k

/-- What the measurement registers hold when a slot is chosen: the digest of its header as record 0x0101 carries it, and
no segment's HFINAL yet (Table 18.11). -/
def firstMeas (h : List Byte) : List Byte := sha384 (slice h 0 0xFA0) ++ zeros 336

/-! ### Booting a slot -/

/-- The ROM boots a slot: record 0x0101, the loader and the signature check start (R112, Table 5.8). Nothing of the slot has passed
yet (R114), and its ALIAS is still to be derived (R117). -/
def State.bootSlot (s : State) (n : Nat) : State :=
  let h := slotHeader s n
  let s := ((s.put F.SST_STAT_SLOT n).putB F.SST_STAT_FALLBACK (bestSlot s 0 != some n)).put F.SST_STAT_HDRSIG 0
  let s := ((s.clr F.SST_STAT_SEC2OK).clr F.SST_STAT_SVOK).clr F.SST_STAT_ALLOK
  let s := State.each (fun k s => s.wr (R.SST_SEG k) (BitVec.ofNat 32 (segNblk h k * 65536))) (List.range 7) s
  let s := State.each (fun c s => s.put (F.SST_VEC_VEC c) (segEntry h (c + 2))) (List.range 4) s
  let s := s.put F.SST_WSQVEC_VEC (segEntry h 6)
  let s := s.wrBytes R.MGT_MEAS 96 (firstMeas h)
  let s := s.onSst fun x => { x with
    hdr := h, seg := 0, landed := [], matched := [], patch := [], loading := true, alias_ := false
    chains := (List.range 7).foldl (fun t k => tabPut t (zeros 48) k (chainStart h k)) [] }
  s.event 0x0101 0xFF (leBytes 1 (s.get F.PCM_THAW_SRC) ++ leBytes 1 (if s.sst.fuses.production then 1 else 0) ++
    leBytes 1 s.sst.fuses.svn ++ leBytes 1 n ++ leBytes 4 (hdrSeq h) ++ leBytes 2 (hdrSvn h) ++ leBytes 1 (hdrKeyidx h) ++
    leBytes 1 (s.get F.SST_FAIL_FAILMASK) ++ zeros 4 ++ hdrDigest h)

/-- RECOVERY (R132): record 0x0105, spin-down, and the ROM serves the management path. -/
def State.recovery (s : State) : State :=
  let mask := s.get F.SST_FAIL_FAILMASK
  let s := s.event 0x0105 0xFF (leBytes 1 mask ++ leBytes 1 (if mask = 0 then 1 else 2) ++ leBytes 1 (s.get F.SST_FAIL_CAUSE) ++ zeros 1)
  let s := ((s.raiseBit F.SST_STAT_RECOVERY).put F.FLNK_SPD_TARGET 0).loaderStop
  (s.flnkSend (.speed 0 (s.get F.FLNK_SPD_SPILIM))).raiseBit F.MGT_CTL_SVC

/-- Record 0x0104: the failed slot and the next one. -/
def State.fallbackRecord (s : State) (failed next : Nat) : State :=
  s.event 0x0104 0xFF (leBytes 1 failed ++ leBytes 1 next ++ leBytes 1 (s.get F.SST_FAIL_FAILMASK) ++ zeros 1)

/-- Record 0x0103: what failed (Table 5.8). -/
def State.failRecord (s : State) (seg cause blk : Nat) (chain : List Byte) : State :=
  s.event 0x0103 0xFF (leBytes 1 (if seg = 7 then 0xFF else seg) ++ leBytes 1 cause ++ leBytes 2 blk ++ zeros 4 ++ slice chain 0 48)

def segPassed (s : State) (k : Nat) : Bool := s.get (F.SST_SEG_RESULT k) == 1

/-- A released core that runs gated and has not passed is held in reset: its queue is discarded, its TCM zeroed, and record 0x0106
written (R131). -/
def State.discardCore (s : State) (c : Nat) : State :=
  if ¬ s.bit F.SST_GATE_GATED c ∨ segPassed s (gatedSeg c) then s else
  let m := gatedCore c
  let n := (tabGet s.sst.hsqs [] c).length
  let s := (s.sramZero (tcmBase m) (tcmSize m)).onSst fun x => { x with hsqs := tabPut x.hsqs [] c [] }
  s.event 0x0106 0xFF (leBytes 1 c ++ zeros 1 ++ leBytes 2 n ++ leBytes 1 (s.get (F.SST_SEG_LOADED (gatedSeg c))) ++ leBytes 1 1 ++ zeros 2)

/-- Verification has failed: seg 7 is the header. Before handover the next candidate is booted (R130; R208 for segment 1; DEDUCED
for segments 2 to 5, log entry 92). After it, and for segment 6 at any time (R200), the cores are discarded and REBOOT falls
back (R131). The header fails segment 6 too, and the WSQ store is zeroed with it (R114, R192). -/
def State.verifyFailed (s : State) (seg cause blk : Nat) (chain : List Byte) (us : Nat) : State :=
  let slot := s.get F.SST_STAT_SLOT
  let s := ((s.loaderStop).put F.SST_FAIL_SEG seg).put F.SST_FAIL_CAUSE cause
  let s := (if 6 ≤ seg then { s with wsq := { s.wsq with store := [] } } else s).eccDrop
  if s.sst.handed ∨ seg = 6 then
    let s := State.each (fun c s => s.discardCore c) (List.range 3) s
    let s := (s.failRecord seg cause blk chain).setIn F.SST_FAIL_FAILMASK slot
    let s := s.rebootNow us
    match bestSlot s (s.get F.SST_FAIL_FAILMASK) with
    | some n => s.fallbackRecord slot n
    | none => s
  else
    let s := ((s.sramZero (tcmBase .sec) 0x70000).failRecord seg cause blk chain).setIn F.SST_FAIL_FAILMASK slot
    match bestSlot s (s.get F.SST_FAIL_FAILMASK) with
    | some n => (s.fallbackRecord slot n).bootSlot n
    | none => s.recovery

/-! ### Fuses (R121, R138) -/

/-- Start a fuse operation. One that the SST starts by itself shows in SST_FRES as a command's does (DESIGN CHOICE, log entry
108). -/
def State.fuseStart (s : State) (op : FuseOp) : State := (s.onSst fun x => { x with fuseOp := some op }).raiseBit F.SST_FRES_BUSY

/-- Revoke a slot, unless it is the running key or no unrevoked key hash would be left (R121). -/
def revokeOne (f : Fuses) (keyidx : Nat) (rev k : Nat) : Nat :=
  if k = keyidx ∨ rev.testBit k then rev
  else if (List.range 4).any fun j => j != k && !rev.testBit j && !keyBlank f j then rev + 2 ^ k else rev

def revoked (f : Fuses) (keyidx mask : Nat) : Nat :=
  ((List.range 4).filter fun k => mask.testBit k).foldl (revokeOne f keyidx) f.keyrev.toNat

/-- When ALLOK sets, the fuse changes that the header carries begin (R121). -/
def State.svnCommit (s : State) : State :=
  let f := s.sst.fuses
  let h := s.sst.hdr
  let a := if hdrSvnCommit h ∧ f.svn < hdrSvn h then [({ field := 1, val := hdrSvn h } : FuseOp)] else []
  let r := revoked f (hdrKeyidx h) (hdrRevoke h)
  let b := if r = f.keyrev.toNat then [] else [({ field := 2, val := r } : FuseOp)]
  match a ++ b with
  | [] => s
  | op :: l => if s.sst.fuseOp.isNone then (s.onSst fun x => { x with fuseNext := l }).fuseStart op
    else s.onSst fun x => { x with fuseNext := x.fuseNext ++ (op :: l) }

/-! ### Passing (R114) -/

/-- A segment passes: record 0x0102; a passed patch is checked and sent (R207). -/
def State.segPass (s : State) (k : Nat) : State :=
  let h := s.sst.hdr
  let s := (s.put (F.SST_SEG_RESULT k) 1).event 0x0102 0xFF (leBytes 1 k ++ zeros 1 ++ leBytes 2 (segNblk h k) ++ leBytes 4 (segLen h k) ++
    segFinal h k)
  let s := s.wrBytes (fun i => R.MGT_MEAS (12 * (k + 1) + i)) 12 (segFinal h k)
  if k = 1 then (s.onMsq fun q => { q with staging := s.sst.patch }).patchStart else s

/-- The keys as this boot's registers show them. -/
def devidPub (s : State) : List Byte := rdBytes s R.SST_DEVPUB 24
def aliasPub (s : State) : List Byte := rdBytes s R.SST_ALIASPUB 24

/-- SEC's PMP entries 0 and 1 as the ROM leaves them (R120): configuration and address. -/
def romPmp (f : Fuses) : List (Nat × Nat) := [(0x98, 0x00001FFF), (if f.production then 0x98 else 0x9B, 0x100036FF)]

/-- Handover (R117, R120): DRK_USELOCK is set, the ROM's data area is zeroed, record 0x0108 is written, and SEC2 starts. -/
def State.handover (s : State) : State :=
  let pmp := romPmp s.sst.fuses
  let s := s.raiseBit F.SST_KLOCK_DRK_USELOCK
  let s := (s.onSst fun x => { x with handed := true, pmp }).sramZero (tcmBase .sec + 0x70000) 0x10000
  let c := fun (i : Nat) => (pmp.getD i (0, 0)).1
  let a := fun (i : Nat) => (pmp.getD i (0, 0)).2
  let s := s.event 0x0108 0xFF (devidPub s ++ aliasPub s ++ leBytes 4 (s.rd R.SST_KLOCK).toNat ++ leBytes 1 (c 0) ++ leBytes 1 (c 1) ++
    zeros 2 ++ leBytes 4 (a 0) ++ leBytes 4 (a 1))
  s.emit (.coreStart .sec (tcmBase .sec + segEntry s.sst.hdr 0) (s.rd R.SST_STAT))

/-- The ROM hands over once ALIAS has been derived and segment 1 has passed (R117, R208). -/
def State.handoverDue (s : State) : State := if s.sst.alias_ ∧ segPassed s 1 ∧ ¬ s.sst.handed then s.handover else s

/-- The summary bits, and what they start (R114, R121, R161, R208). -/
def State.passFlags (s : State) : State :=
  let all := (List.range 7).all fun k => segPassed s k
  let s := ((s.putB F.SST_STAT_SEC2OK (segPassed s 0)).putB F.SST_STAT_SVOK (segPassed s 5 && segPassed s 6))
  let s := s.handoverDue
  if all ∧ ¬ s.on F.SST_STAT_ALLOK then (((s.raiseBit F.SST_STAT_ALLOK).onSst fun x => { x with loading := false }).svnCommit).morKick else s

/-- Under a verified header every segment whose chain has matched passes. -/
def State.passMatched (s : State) : State :=
  if s.get F.SST_STAT_HDRSIG ≠ 1 then s else
  (State.each (fun k s => if s.sst.matched.contains k && s.get (F.SST_SEG_RESULT k) == 0 then s.segPass k else s) (List.range 7) s).passFlags

/-! ### The ALIAS certificate (R447, Table 18.10) -/

/-- A DER element: tag, length and content. -/
def der (tag : Nat) (b : List Byte) : List Byte :=
  let n := b.length
  leBytes 1 tag ++ (if n < 128 then leBytes 1 n else if n < 256 then leBytes 1 0x81 ++ leBytes 1 n else leBytes 1 0x82 ++ beBytes 2 n) ++ b

/-- A DER integer that is not negative. -/
def derInt (b : List Byte) : List Byte :=
  let t := b.dropWhile (· == 0)
  der 0x02 (if (t.headD 0x80).msb then 0 :: t else t)

/-- An upper-case hexadecimal digit. -/
def hexDigit (n : Nat) : Byte := BitVec.ofNat 8 (if n < 10 then 48 + n else 55 + n)

def hexOf (b : List Byte) : List Byte := b.flatMap fun x => [hexDigit (x.toNat / 16), hexDigit (x.toNat % 16)]

/-- An uncompressed point. -/
def pointOf (pub : List Byte) : List Byte := 4 :: slice pub 0 96

def keyId (pub : List Byte) : List Byte := slice (sha384 (pointOf pub)) 0 20

/-- A name of one common name, as a UTF8String (PRESUMED, log entry 52). -/
def derName (what : String) (pub : List Byte) : List Byte :=
  let cn := ascii what ++ hexOf (slice (sha384 (pointOf pub)) 0 12)
  der 0x30 (der 0x31 (der 0x30 ([0x06, 0x03, 0x55, 0x04, 0x03] ++ der 0x0C cn)))

/-- ecdsa-with-SHA384. -/
def derAlg : List Byte := der 0x30 [0x06, 0x08, 0x2A, 0x86, 0x48, 0xCE, 0x3D, 0x04, 0x03, 0x03]

/-- The extensions, in the order of Table 18.10. -/
def derExts (dev ali : List Byte) : List Byte :=
  let oid := fun (n : Byte) => [0x06, 0x03, 0x55, 0x1D, n]
  let yes : List Byte := [0x01, 0x01, 0xFF]
  der 0x30 (oid 19 ++ yes ++ der 0x04 (der 0x30 [])) ++ der 0x30 (oid 15 ++ yes ++ der 0x04 [0x03, 0x02, 0x07, 0x80]) ++
  der 0x30 (oid 35 ++ der 0x04 (der 0x30 (der 0x80 (keyId dev)))) ++ der 0x30 (oid 14 ++ der 0x04 (der 0x04 (keyId ali)))

/-- The part of the certificate that is signed. -/
def tbsCert (dev ali : List Byte) : List Byte :=
  let serial := match slice (sha384 (pointOf ali)) 0 20 with
    | b :: l => (b &&& 0x7F) :: l
    | [] => []
  let spki := der 0x30 (der 0x30 ([0x06, 0x07, 0x2A, 0x86, 0x48, 0xCE, 0x3D, 0x02, 0x01] ++ [0x06, 0x05, 0x2B, 0x81, 0x04, 0x00, 0x22]) ++
    der 0x03 (0 :: pointOf ali))
  der 0x30 (der 0xA0 [0x02, 0x01, 0x02] ++ derInt serial ++ derAlg ++ derName "AZ-7640 DEVID " dev ++
    der 0x30 (der 0x17 (ascii "000101000000Z") ++ der 0x18 (ascii "99991231235959Z")) ++ derName "AZ-7640 ALIAS " ali ++ spki ++
    der 0xA3 (der 0x30 (derExts dev ali)))

/-- The certificate with its signature. -/
def derCert (tbs sig : List Byte) : List Byte :=
  der 0x30 (tbs ++ derAlg ++ der 0x03 (0 :: der 0x30 (derInt (slice sig 0 48) ++ derInt (slice sig 48 48))))

end Sys2Proof.Machine
end

