-- ==== Sys2Proof/Machine/MgtOps.lean ====
section
/-! DEFINITION. The management path's shared operations: the two I3C targets, the task-register file and its data
buffer, and the serving of a command (R426 to R433). -/

namespace Sys2Proof.Machine

open Sys2Proof

def State.onMgt (s : State) (f : MgtState → MgtState) : State := { s with mgt := f s.mgt }

/-! ### The targets (R426, R427) -/

/-- I3CCK runs, so that the targets are on the bus. -/
def i3cOn (s : State) : Bool := s.mode != mOFF && s.mode != mRETREAT

def i3cTarget (s : State) (mctp : Bool) : I3cTarget := if mctp then s.mgt.mctp else s.mgt.task

/-- The static address of a target (Table 18.1). -/
def staticAddr (s : State) (mctp : Bool) : BitVec 7 := BitVec.ofNat 7 ((if mctp then 0x38 else 0x30) + s.get F.PMX_STRAP_I3C_SA)

/-- Replace a target; MGT_STAT shows the dynamic addresses. -/
def State.setTarget (s : State) (mctp : Bool) (t : I3cTarget) : State :=
  let s := s.onMgt fun g => if mctp then { g with mctp := t } else { g with task := t }
  let a := ((t.addr.map BitVec.toNat).getD 0)
  if mctp then (s.putB F.MGT_STAT_VDAV t.addr.isSome).put F.MGT_STAT_VDA a
  else (s.putB F.MGT_STAT_DAV t.addr.isSome).put F.MGT_STAT_DA a

/-- The target that answers at a dynamic address: false the task target, true the MCTP target. -/
def answering (s : State) (a : BitVec 7) : Option Bool :=
  if ¬ i3cOn s then none
  else if s.mgt.task.addr = some a then some false
  else if s.mgt.mctp.addr = some a then some true
  else none

/-- Change the targets that a CCC reaches: the one at an address, or by broadcast every one that has an address. -/
def State.cccSet (s : State) (a : Option (BitVec 7)) (f : I3cTarget → I3cTarget) : State :=
  State.each (fun mctp s =>
    let t := i3cTarget s mctp
    if i3cOn s ∧ t.addr.isSome ∧ (a = none ∨ a = t.addr) then s.setTarget mctp (f t) else s) [false, true] s

/-- A target answers a CCC with bytes. -/
def State.cccGet (s : State) (a : BitVec 7) (f : Bool → List Byte) : State :=
  match answering s a with
  | some mctp => s.emit (.i3c (f mctp))
  | none => s

/-- The provisioned ID (Table 18.1). -/
def provisionedId (s : State) (mctp : Bool) : Nat :=
  0x0F3A * 2 ^ 33 + 0x7640 * 2 ^ 16 + (s.get F.PMX_STRAP_I3C_SA + (if mctp then 8 else 0)) * 2 ^ 12

/-- An in-band interrupt with its mandatory byte, if the target has an address and ENEC has enabled them. -/
def State.sendIbi (s : State) (mctp : Bool) (mdb : Byte) : State :=
  let t := i3cTarget s mctp
  if i3cOn s ∧ t.addr.isSome ∧ t.ibi then s.emit (.ibi mdb) else s

/-! ### The data buffer (R429, R449) -/

def dcnt (s : State) : Nat := s.get F.TRF_DCNT_DCNT

/-- The address of byte i of what the buffer holds. -/
def dataAddr (s : State) (i : Nat) : Nat := s.get F.MGT_DBASE_ADDR * 4096 + (s.mgt.dpos + i) % 4096

/-- The first n bytes that the buffer holds. -/
def dataBuf (s : State) (n : Nat) : List Byte := (List.range n).flatMap fun i => s.poolBytes (dataAddr s i) 1

/-- Append bytes to the buffer. -/
def State.dataAppend (s : State) (bs : List Byte) : State :=
  let n := dcnt s
  (State.each (fun (x : Nat × Byte) s => s.poolWrite (dataAddr s (n + x.1)) [x.2]) ((List.range bs.length).zip bs) s).put
    F.TRF_DCNT_DCNT (n + bs.length)

/-- Empty the buffer. -/
def State.dataEmpty (s : State) : State := (s.onMgt fun g => { g with dpos := 0 }).clr F.TRF_DCNT_DCNT

/-- The buffer holds just these bytes. -/
def State.dataSet (s : State) (bs : List Byte) : State := s.dataEmpty.dataAppend bs

/-! ### The task-register file (R428 to R430) -/

/-- A write is ignored (OVR). -/
def State.trfOvr (s : State) : State := (s.raiseBit F.TRF_STAT_OVR).inc F.MGT_CNT_OVR_CNT

/-- A command is BUSY, or DONE and not cleared. -/
def trfHeld (s : State) : Bool := s.on F.TRF_STAT_BUSY || s.on F.TRF_STAT_DONE

/-- A write of STAT: OVR and DONE are cleared by 1; clearing DONE empties the buffer and readies the file. -/
def State.trfStat (s : State) (v : Word) : State :=
  let s := if v.getLsbD 3 then s.clr F.TRF_STAT_OVR else s
  if v.getLsbD 1 ∧ s.on F.TRF_STAT_DONE then (((s.clr F.TRF_STAT_DONE).clr F.TRF_STAT_DATARDY).clr F.TRF_STAT_RESULT).dataEmpty else s

/-- A complete write of word k by the controller. -/
def State.trfWrite (s : State) (k : Nat) (v : Word) : State :=
  if k = 8 then s.trfStat v
  else if 9 ≤ k ∧ k ≤ 14 then s
  else if trfHeld s then s.trfOvr
  else if k = 0 then
    (((s.wr R.TRF_CMD (v &&& 0xFFFF)).raiseBit F.TRF_STAT_BUSY).put F.TRF_STAT_TAG (bitsOf v 15 8)).raiseBit F.MGT_STAT_CMDPEND
  else if k ≤ 7 then s.wr (R.TRF_ARG (k - 1)) v
  else if dcnt s + 4 ≤ 4096 then s.dataAppend (leBytes 4 v.toNat)
  else s.trfOvr

/-- The words of a private write, from index k on; the index stays at 15. -/
def State.trfWrites : Nat → List Byte → State → State
  | k, b0 :: b1 :: b2 :: b3 :: l, s =>
    State.trfWrites (Nat.min (k + 1) 15) l (s.trfWrite k (BitVec.ofNat 32 (leNat [b0, b1, b2, b3])))
  | _, _, s => s

/-- A read of word k by the controller. -/
def State.trfRead (s : State) (k : Nat) : List Byte × State :=
  if k < 15 then (leBytes 4 (s.rd (R.TRF_CMD + 4 * k)).toNat, s)
  else
    let n := Nat.min 4 (dcnt s)
    let b := dataBuf s n
    let s := (s.put F.TRF_DCNT_DCNT (dcnt s - n)).onMgt fun g => { g with dpos := g.dpos + n }
    (slice b 0 4, s)

/-- The words of a private read. -/
def State.trfReads : Nat → Nat → State → List Byte × State
  | 0, _, s => ([], s)
  | n + 1, k, s =>
    let ans := s.trfRead k
    let b := ans.1
    let s := ans.2
    let ans := State.trfReads n (Nat.min (k + 1) 15) s
    let l := ans.1
    let s := ans.2
    (b ++ l, s)

/-- A command completes (R430). -/
def State.trfDone (s : State) (result : Nat) (datardy : Bool) : State :=
  if ¬ s.on F.TRF_STAT_BUSY then s else
  let s := (((s.put F.TRF_STAT_RESULT result).putB F.TRF_STAT_DATARDY datardy).clr F.TRF_STAT_BUSY).raiseBit F.TRF_STAT_DONE
  (s.clr F.MGT_STAT_CMDPEND).sendIbi false 0xA1

/-! ### Serving a command (R431, R433) -/

def tOK : Nat := 0
def tBADOP : Nat := 1
def tBADARG : Nat := 2
def tSTATE : Nat := 3
def tLOCKED : Nat := 4
def tFAIL : Nat := 5
def tBUSYDEV : Nat := 6
def tPARTIAL : Nat := 7

/-- What a served command gives: its result code, RES words from RES[0] on, output bytes, and the state it leaves. -/
structure Served where
  result : Nat
  res : List Nat := []
  out : Option (List Byte) := none
  s : State

def arg (s : State) (k : Nat) : Word := s.rd (R.TRF_ARG k)

/-- The server runs: the ROM in RECOVERY, else SEC's firmware once it has set SVC (R431). -/
def mgtServes (s : State) : Bool := s.on F.MGT_CTL_SVC && i3cOn s

/-- The rows of Table 18.4: opcode, whether it is served in RECOVERY, and the bits that each ARG word may hold. -/
def mgtRow (op : Nat) : Option (Bool × List Nat) :=
  match op with
  | 0x01 => some (true, [])
  | 0x10 => some (false, [0xF, 0xFF0103FF, 0xFFFFFFFF, 0x7FFF, 0xFFFFFFFF, 0xFFFFFFFF])
  | 0x11 => some (false, [0x3FFF071F, 0xFFFFFFFF, 0xFFFF, 0xFFFFFFFF, 0xFFFF, 0x7FF])
  | 0x12 => some (false, [0x30F])
  | 0x13 => some (false, [])
  | 0x14 => some (false, [0xF])
  | 0x15 => some (false, [0xF])
  | 0x20 => some (false, [])
  | 0x21 => some (false, [])
  | 0x22 => some (false, [])
  | 0x23 => some (false, [])
  | 0x30 => some (true, [1, 0xFFFFFFFF])
  | 0x31 => some (true, [0xFFFFFFFF])
  | 0x32 => some (true, [])
  | 0x33 => some (true, [])
  | 0x40 => some (true, [])
  | 0x41 => some (true, [0xFFFFFFFF, 0xFFFFFFFF, 0xFF0F])
  | _ => none

/-- An opcode is unknown, or not served in RECOVERY (R433). -/
def opRefused (s : State) (op : Nat) : Bool :=
  match mgtRow op with
  | none => true
  | some (rec_, _) => s.on F.SST_STAT_RECOVERY && !rec_

/-- An argument bit that the command does not name is 1 (R433). -/
def argsBad (s : State) (op : Nat) : Bool :=
  match mgtRow op with
  | none => false
  | some (_, masks) => (List.range 7).any fun k => (arg s k).toNat &&& (0xFFFFFFFF - masks.getD k 0) != 0

/-- The pending command has a given opcode and its server runs. -/
def mgtTurn (s : State) (op : Nat) : Bool := mgtServes s && s.on F.TRF_STAT_BUSY && s.get F.TRF_CMD_OP == op

/-- The server takes the command and completes it with what it gives. -/
def State.finishServed (r : Served) : State :=
  let s := State.each (fun (x : Nat × Nat) s => s.wr (R.TRF_RES x.1) (BitVec.ofNat 32 x.2)) ((List.range 5).zip r.res) r.s
  let s := s.dataSet (r.out.getD [])
  s.trfDone r.result r.out.isSome

/-- Serve the pending command if it has this opcode (R431, R433): BADOP and BADARG first, then what `f` says; none where
the server has to wait. -/
def State.serve (s : State) (op : Nat) (f : State → Option Served ⊕ State) : State :=
  if ¬ mgtTurn s op then s
  else
    let s := s.clr F.MGT_STAT_CMDPEND
    if opRefused s op then State.finishServed { result := tBADOP, s }
    else if argsBad s op then State.finishServed { result := tBADARG, s }
    else match f s with
      | .inl (some r) => State.finishServed r
      | .inl none => s
      | .inr s => s

/-- A command that completes at once. -/
def served (result : Nat) (s : State) (res : List Nat := []) (out : Option (List Byte) := none) : Option Served ⊕ State :=
  .inl (some { result, res, out, s })

/-- A record's stub (Table 17.6). -/
def recordStub (b : List Byte) : List Byte := leBytes 4 0x4D535442 ++ slice b 0x18 4 ++ slice b 8 8 ++ sha384 (slice b 0 0x190)

/-- The ID register (Table 1.10). -/
def idWord (s : State) : Word := BitVec.ofNat 32 (0x7640 * 65536 + s.part.grade % 16 * 4096 + s.part.step % 256)

end Sys2Proof.Machine
end

