-- ==== Sys2Proof/Machine/Sst.lean ====
section
/-! DEFINITION. The commands of secure start (chapter 5). -/

namespace Sys2Proof.Machine

open Sys2Proof

/-! ### Boot ROM and loader -/

/-- SEC_LEAVES_RESET (R134, R135, R207): the ROM sets EN and COAST_RPM, sends UNPATCH, and commands the spin-up to
TARGET_RPM. -/
def secLeavesReset (s : State) : State :=
  if s.mode ≠ mTHAW ∨ s.sst.secOut then s else
  let rpm := s.sst.fuses.targetRpm
  let s := ((s.onSst fun x => { x with secOut := true }).put F.ATB_CTL_COAST_RPM (coastRpm rpm)).raiseBit F.ATB_CTL_EN
  let s := s.flnkSend .unpatch
  if rpm = 0 then s
  else
    let s := s.put F.FLNK_SPD_TARGET rpm
    s.flnkSend s.speedPkt

def execSecLeavesReset (s : State) : Host.Outcome State Fault Refusal := .next (secLeavesReset s)

/-- HEADERS_READ (R112): the first candidate boots, or RECOVERY is entered. The reads wake their banks (R189). -/
def headersRead (s : State) : State :=
  if s.mode ≠ mTHAW ∨ ¬ s.sst.secOut ∨ s.sst.chosen then s else
  let s := ((s.wakeBank 0).wakeBank 1).onSst fun x => { x with chosen := true }
  (match bestSlot s (s.get F.SST_FAIL_FAILMASK) with
  | some n => s.bootSlot n
  | none => s.recovery).eccKick

def execHeadersRead (s : State) : Host.Outcome State Fault Refusal := .next (headersRead s)

/-- The bytes of a block as they are hashed and loaded: 0 at and beyond LEN (R110). -/
def blockBytes (s : State) (h : List Byte) (k i : Nat) : List Byte :=
  let n := Nat.min 65536 (segLen h k - 65536 * i)
  s.stoBytes (slotBase (s.get F.SST_STAT_SLOT) + segOff h k + 65536 * i) n ++ zeros (65536 - n)

/-- A block goes to its destination (Table 5.4). -/
def State.placeBlock (s : State) (k i : Nat) (b : List Byte) : State :=
  match segCore k with
  | some m => s.sramWrite (tcmBase m + 65536 * i) b
  | none =>
    if k = 1 then s.onSst fun x => { x with patch := slice b 0 340 }
    else s.onWsq fun q => { q with store := (List.range 4096).foldl (fun t j =>
      tabPut t 0 (4096 * i + j) (BitVec.ofNat 128 (leNat (slice b (16 * j) 16)))) q.store }

/-- A core that waits for block i of its segment goes on (R123). -/
def State.blockArrived (s : State) (k i : Nat) : State :=
  if 2 ≤ k ∧ k ≤ 4 ∧ tabGet s.sst.waits 0 (k - 2) = i + 1 then
    (s.onSst fun x => { x with waits := tabPut x.waits 0 (k - 2) 0 }).clr (F.SST_HSQ_STALL (k - 2))
  else s

/-- The chain value that record 0x0103 shows: 0 where no block of the segment has been hashed (Table 5.8). -/
def chainSoFar (s : State) (k : Nat) : List Byte := if s.get (F.SST_SEG_HASHED k) = 0 then zeros 48 else chainOf s k

/-- BLOCK_LANDED (R113, R168): the next block lands, or its sector gives a read error and the segment fails. The read wakes its
bank (R189). `us` is the time to the REBOOT that a failure after handover leads to. -/
def blockLanded (us : BitVec 32) (s : State) : State :=
  let k := s.sst.seg
  if ¬ s.sst.loading ∨ k ≥ 7 then s else
  let h := s.sst.hdr
  let i := s.get (F.SST_SEG_LOADED k)
  let a := slotBase (s.get F.SST_STAT_SLOT) + segOff h k + 65536 * i
  let s := s.wakeBank (bankOf a)
  if sectorUnsure s a then
    let c := chainSoFar s k
    let s := (s.stoCapture 15 .loader a).put (F.SST_SEG_RESULT k) 2
    (s.verifyFailed k 3 (i + 1) c us.toNat).eccKick
  else
    let b := blockBytes s h k i
    let s := (s.placeBlock k i b).put (F.SST_SEG_LOADED k) (i + 1)
    let s := s.onSst fun x => { x with landed := x.landed ++ [(k, b)], seg := if i + 1 = segNblk h k then k + 1 else k }
    s.blockArrived k i

def execBlockLanded (us : BitVec 32) (s : State) : Host.Outcome State Fault Refusal := .next (blockLanded us s)

/-- BLOCK_HASHED (R110, R114): the chain of the block's segment advances; the last block decides. -/
def blockHashed (us : BitVec 32) (s : State) : State :=
  match s.sst.landed with
  | [] => s
  | (k, b) :: l =>
    let c := sha384 (chainOf s k ++ b)
    let s := s.onSst fun x => { x with landed := l, chains := tabPut x.chains (zeros 48) k c }
    let n := s.get (F.SST_SEG_HASHED k) + 1
    let s := s.put (F.SST_SEG_HASHED k) n
    if n < segNblk s.sst.hdr k then s
    else if c = segFinal s.sst.hdr k then ((s.onSst fun x => { x with matched := x.matched ++ [k] }).passMatched).eccKick
    else ((s.put (F.SST_SEG_RESULT k) 2).verifyFailed k 2 n c us.toNat).eccKick

def execBlockHashed (us : BitVec 32) (s : State) : Host.Outcome State Fault Refusal := .next (blockHashed us s)

/-- The check of the header being booted ends: its signature verifies, or every segment fails (R114). -/
def headerJudge (us : BitVec 32) (s : State) : State :=
  let h := s.sst.hdr
  if ecdsaVerify (slice h 0x250 96) (hdrDigest h) (slice h 0xFA0 96) then (s.put F.SST_STAT_HDRSIG 1).passMatched
  else
    let s := State.each (fun k s => s.put (F.SST_SEG_RESULT k) 2) (List.range 7) (s.put F.SST_STAT_HDRSIG 2)
    s.verifyFailed 7 1 0xFFFF (zeros 48) us.toNat

/-- HEADER_SIGNATURE_DONE (R113 to R115): the engine ends the check that it runs; one for a slot given up meanwhile counts for
nothing. -/
def headerSignatureDone (us : BitVec 32) (s : State) : State :=
  if s.sst.ecc ≠ some .header then s
  else if s.sst.eccOld then s.eccFree.eccKick
  else (headerJudge us s.eccFree).eccKick

def execHeaderSignatureDone (us : BitVec 32) (s : State) : Host.Outcome State Fault Refusal := .next (headerSignatureDone us s)

/-! ### Keys -/

/-- DEVID_DERIVED (R115 to R117): the engine ends the derivation. -/
def devidDerived (s : State) : State :=
  if s.sst.ecc ≠ some .devid then s
  else ((s.eccFree.onSst fun x => { x with devid := true }).wrBytes R.SST_DEVPUB 24 (publicOf devidKey)).eccKick

def execDevidDerived (s : State) : Host.Outcome State Fault Refusal := .next (devidDerived s)

/-- ALIAS_DERIVED (R115, R117): the engine ends the derivation for SEC2 as it passed, and the ROM hands over as soon as it may. -/
def aliasDerived (s : State) : State :=
  if s.sst.ecc ≠ some .alias_ then s
  else if s.sst.eccOld then s.eccFree.eccKick
  else
    let s := (s.eccFree.onSst fun x => { x with alias_ := true }).wrBytes R.SST_ALIASPUB 24 (publicOf (aliasKey (segFinal s.sst.hdr 0)))
    s.handoverDue.eccKick

def execAliasDerived (s : State) : Host.Outcome State Fault Refusal := .next (aliasDerived s)

/-- ALIAS_CERT_READY (R115, R447). -/
def aliasCertReady (s : State) : State :=
  if s.sst.ecc ≠ some .cert then s
  else
    let s := s.eccFree
    let tbs := tbsCert (devidPub s) (aliasPub s)
    let ans := s.sign devidKey (sha384 tbs)
    let sig := ans.1
    let s := ans.2
    let cert := derCert tbs sig
    (((s.onSst fun x => { x with cert }).put F.MGT_ACLEN_LEN cert.length).raiseBit F.MGT_STAT_ACRDY).eccKick

def execAliasCertReady (s : State) : Host.Outcome State Fault Refusal := .next (aliasCertReady s)

/-- KEY_LOCK (R117): only SEC's write sets lock bits. -/
def keyLock (m : Master) (v : Word) (s : State) : State :=
  if m ≠ .sec then s else s.wr R.SST_KLOCK (s.rd R.SST_KLOCK ||| (v &&& 7))

def execKeyLock (m : Master) (v : Word) (s : State) : Host.Outcome State Fault Refusal :=
  .next (s.byCore m 0x4000D080 v fun s => keyLock m v s)

/-- The salt in SST_KSALT (R497). -/
def saltOf (s : State) : List Byte := rdBytes s R.SST_KSALT 8

/-- The party of an SST_KCMD word. -/
def kcmdParty (v : Word) : Nat := bitsOf v 7 4

/-- An SST_KCMD command: only from SEC, ignored while one runs, and refused while MEK_USELOCK = 1 (R118). -/
def State.keyCommand (s : State) (m : Master) (go : State → State) : State :=
  if m ≠ .sec ∨ s.on F.SST_KRES_BUSY then s
  else if s.on F.SST_KLOCK_MEK_USELOCK then s.put F.SST_KRES_RESULT 1
  else go (s.put F.SST_KRES_RESULT 0)

/-- DERIVE (R118). -/
def derive (m : Master) (v : Word) (s : State) : State :=
  if bitsOf v 1 0 ≠ 1 then s else
  s.keyCommand m fun s => (s.onSst fun x => { x with deriving_ := some (kcmdParty v, saltOf s) }).raiseBit F.SST_KRES_BUSY

def execDerive (m : Master) (v : Word) (s : State) : Host.Outcome State Fault Refusal :=
  .next (s.byCore m 0x4000D090 v fun s => derive m v s)

/-- DERIVE_DONE (R118, R349): the slot is READY with a new GEN, or not READY where the halves of the key are equal. -/
def deriveDone (s : State) : State :=
  match s.sst.deriving_ with
  | none => s
  | some (p, salt) =>
    let k := mediaKey p salt
    ((s.onSst fun x => { x with deriving_ := none }).clr F.SST_KRES_BUSY).newKey p k (slice k 0 32 != slice k 32 32)

def execDeriveDone (s : State) : Host.Outcome State Fault Refusal := .next (deriveDone s)

/-- KEY_CLEAR (R118). -/
def keyClear (m : Master) (v : Word) (s : State) : State :=
  if bitsOf v 1 0 ≠ 2 then s else
  s.keyCommand m fun s => s.newKey (kcmdParty v) [] false

def execKeyClear (m : Master) (v : Word) (s : State) : Host.Outcome State Fault Refusal :=
  .next (s.byCore m 0x4000D090 v fun s => keyClear m v s)

/-- SIGN (R119): GO starts signing SST_DIG, is ignored while BUSY, and is refused while ALIAS_USELOCK = 1. -/
def sign (m : Master) (v : Word) (s : State) : State :=
  if m ≠ .sec ∨ ¬ v.getLsbD 0 ∨ s.on F.SST_SRES_BUSY then s
  else if s.on F.SST_KLOCK_ALIAS_USELOCK then s.put F.SST_SRES_RESULT 1
  else (((s.put F.SST_SRES_RESULT 0).onSst fun x => { x with signing := some (rdBytes s R.SST_DIG 12) }).raiseBit F.SST_SRES_BUSY).eccKick

def execSign (m : Master) (v : Word) (s : State) : Host.Outcome State Fault Refusal :=
  .next (s.byCore m 0x4000D0C0 v fun s => sign m v s)

/-- SIGN_DONE (R115, R119). -/
def signDone (s : State) : State :=
  if s.sst.ecc ≠ some .scmd then s else
  match s.sst.signing with
  | none => s
  | some d =>
    let s := s.eccFree
    let ans := s.sign (aliasKey (segFinal s.sst.hdr 0)) d
    let sig := ans.1
    let s := ans.2
    let s := (s.onSst fun x => { x with signing := none }).clr F.SST_SRES_BUSY
    ((s.wrBytes R.SST_SIGR 12 (slice sig 0 48)).wrBytes R.SST_SIGS 12 (slice sig 48 48)).eccKick

def execSignDone (s : State) : Host.Outcome State Fault Refusal := .next (signDone s)

/-! ### Release -/

/-- Release one of HC0, HC1 and MC (R122). -/
def State.releaseCore (s : State) (c : Nat) : State :=
  let k := gatedSeg c
  if s.bit F.SST_RUN_RUN c then s
  else if s.get (F.SST_SEG_LOADED k) = 0 ∨ s.get (F.SST_SEG_RESULT k) = 2 then s.raiseBit F.SST_RUN_RELERR
  else
    let s := s.setIn F.SST_RUN_RUN c
    let s := if segPassed s k then s else s.setIn F.SST_GATE_GATED c
    let m := gatedCore c
    s.emit (.coreStart m (tcmBase m + s.get (F.SST_VEC_VEC c)) 0)

/-- CORE_RELEASE (R122): only SEC's write counts. -/
def coreRelease (m : Master) (v : Word) (s : State) : State :=
  if m ≠ .sec then s else
  State.each (fun c s => if v.getLsbD c then s.releaseCore c else s) (List.range 3) s

def execCoreRelease (m : Master) (v : Word) (s : State) : Host.Outcome State Fault Refusal :=
  .next (s.byCore m 0x4000D040 v fun s => coreRelease m v s)

/-- SV_WSQ_RELEASE (R124, R196): SVOK and the ATB LOCKED. -/
def svWsqRelease (s : State) : State :=
  if ¬ s.on F.SST_STAT_SVOK ∨ s.get F.ATB_STAT_STATE ≠ 2 ∨ s.bit F.SST_RUN_RUN 3 then s else
  let w := s.get F.SST_WSQVEC_VEC
  let s := (s.setIn F.SST_RUN_RUN 3).setIn F.SST_RUN_RUN 4
  let s := (((s.raiseBit F.WSQ_STAT_RUN).clr F.WSQ_STAT_HALT).put F.WSQ_PC_PC w).put F.WSQ_PC_RSM w
  let s := s.onWsq fun q => { q with wd := 0, waiting := false }
  (s.emit (.coreStart .sv (tcmBase .sv + s.get (F.SST_VEC_VEC 3)) 0)).emit (.wsqStart w)

def execSvWsqRelease (s : State) : Host.Outcome State Fault Refusal := .next (svWsqRelease s)

/-! ### Fuses -/

/-- FUSE_PROGRAM_DONE (R121, R138): the field holds the bits of `held` that were to be set; record 0x0107 is written,
and the next change begins. -/
def fuseProgramDone (held : BitVec 384) (s : State) : State :=
  match s.sst.fuseOp with
  | none => s
  | some op =>
    let ans := s.fuseFinish op held.toNat
    let p := ans.1
    let ok := ans.2.1
    let s := ans.2.2
    let s := ((s.event 0x0107 0xFF p).clr F.SST_FRES_BUSY).put F.SST_FRES_RESULT (if ok then 0 else 2)
    match s.sst.fuseNext with
    | [] => s.onSst fun x => { x with fuseOp := none }
    | op :: l => (s.onSst fun x => { x with fuseNext := l }).fuseStart op

def execFuseProgramDone (held : BitVec 384) (s : State) : Host.Outcome State Fault Refusal := .next (fuseProgramDone held s)

/-- An SST_FCMD command from SEC with its OP, refused with DENIED in PRODUCTION or where `bad` holds (R138). -/
def State.fuseCommand (s : State) (m : Master) (v : Word) (o : Nat) (bad : Bool) (op : FuseOp) : State :=
  if m ≠ .sec ∨ bitsOf v 3 0 ≠ o ∨ s.on F.SST_FRES_BUSY then s
  else if s.sst.fuses.production || bad then s.put F.SST_FRES_RESULT 1
  else s.fuseStart op

/-- PROGRAM_KEYHASH (R138). -/
def programKeyhash (m : Master) (v : Word) (s : State) : State :=
  let k := bitsOf v 5 4
  s.fuseCommand m v 1 (!keyBlank s.sst.fuses k) { field := 3, slot := k, hash := rdBytes s R.SST_DIG 12 }

def execProgramKeyhash (m : Master) (v : Word) (s : State) : Host.Outcome State Fault Refusal :=
  .next (s.byCore m 0x4000D800 v fun s => programKeyhash m v s)

/-- SET_PRODUCTION (R138). -/
def setProduction (m : Master) (v : Word) (s : State) : State :=
  s.fuseCommand m v 2 ((List.range 4).all fun k => keyBlank s.sst.fuses k) { field := 4 }

def execSetProduction (m : Master) (v : Word) (s : State) : Host.Outcome State Fault Refusal :=
  .next (s.byCore m 0x4000D800 v fun s => setProduction m v s)

/-- PROGRAM_TARGET_RPM (R138). -/
def programTargetRpm (m : Master) (v : Word) (s : State) : State :=
  let n := bitsOf v 29 16
  s.fuseCommand m v 3 (s.sst.fuses.targetRpm != 0 || decide (n < 5400) || decide (10000 < n)) { field := 5, val := n }

def execProgramTargetRpm (m : Master) (v : Word) (s : State) : Host.Outcome State Fault Refusal :=
  .next (s.byCore m 0x4000D800 v fun s => programTargetRpm m v s)

end Sys2Proof.Machine
end

