-- ==== Sys2Proof/Machine/Mctp.lean ====
section
/-! DEFINITION. MCTP and SPDM on the management path (R444 to R448). What the spec takes from MCTP Base 1.3, its I3C
binding and SPDM 1.2 by name is laid out as those standards do (PRESUMED, log entries 62 and 63). -/

namespace Sys2Proof.Machine

open Sys2Proof

/-! ### Packets (R444) -/

/-- One bit of the packet error code's CRC-8, polynomial x^8 + x^2 + x + 1. -/
def pecBit (c : Nat) : Nat := if 128 ≤ c then (c * 2 % 256) ^^^ 7 else c * 2

/-- The packet error code over bytes, the address byte first. -/
def pec (bs : List Byte) : Nat :=
  bs.foldl (fun c b => pecBit (pecBit (pecBit (pecBit (pecBit (pecBit (pecBit (pecBit (c ^^^ b.toNat))))))))) 0

def byteAt (bs : List Byte) (k : Nat) : Nat := (bs.getD k 0).toNat

/-- A whole message arrives: it waits in the receive buffer. -/
def State.mctpDeliver (s : State) (a : McAsm) : State :=
  let s := s.poolWrite (s.get F.MGT_MRXBASE_ADDR * 4096) a.bytes
  let s := (((s.put F.MGT_MRX_LEN a.bytes.length).put F.MGT_MRX_SEID a.seid).put F.MGT_MRX_TAG a.tag).putB F.MGT_MRX_TO a.to_
  s.raiseBit F.MGT_STAT_MRXV

/-- Take a packet's payload into a message; at its end the message is delivered, or dropped and counted. -/
def State.mctpTake (s : State) (a : McAsm) (payload : List Byte) (eom : Bool) : State :=
  let a := { a with bytes := a.bytes ++ payload, seq := (a.seq + 1) % 4 }
  let a := { a with drop := a.drop || decide (4096 < a.bytes.length) }
  if ¬ eom then
    if payload.length = 64 then s.onMgt fun g => { g with asm_ := some (if a.drop then { a with bytes := [] } else a) }
    else s.onMgt fun g => { g with asm_ := none }
  else
    let s := s.onMgt fun g => { g with asm_ := none }
    if a.drop then s.inc F.MGT_CNT_MDROP_CNT else s.mctpDeliver a

/-- MCTP_PACKET (R444): a private write to the MCTP target, with its PEC. -/
def mctpPacket (bytes : List Byte) (s : State) : State :=
  match s.mgt.mctp.addr with
  | none => s
  | some addr =>
    let n := bytes.length - 1
    let body := slice bytes 0 n
    let fl := byteAt body 3
    let tag := fl % 8
    let to_ := fl.testBit 3
    let seid := byteAt body 2
    let eid := byteAt body 1
    if ¬ i3cOn s ∨ ¬ s.on F.MGT_CTL_MCTPEN ∨ bytes = [] then s
    else if pec (leBytes 1 (addr.toNat * 2) ++ body) ≠ byteAt bytes n then s.inc F.MGT_CNT_PECERR_CNT
    else if n < 5 ∨ 68 < n ∨ byteAt body 0 % 16 ≠ 1 ∨ ¬ (eid = s.get F.MGT_EID_EID ∨ eid = 0 ∨ eid = 255) ∨ s.on F.SST_STAT_RECOVERY then s
    else
      let payload := body.drop 4
      let eom := fl.testBit 6
      let sq := fl / 16 % 4
      if fl.testBit 7 then
        match s.mgt.asm_ with
        | some a =>
          if a.seid = seid ∧ ¬ (a.tag = tag ∧ a.to_ = to_) then s
          else if a.seid ≠ seid then (if eom then s.inc F.MGT_CNT_MDROP_CNT else s)
          else s.mctpTake { seid, tag, to_, seq := sq, bytes := [], drop := s.on F.MGT_STAT_MRXV } payload eom
        | none => s.mctpTake { seid, tag, to_, seq := sq, bytes := [], drop := s.on F.MGT_STAT_MRXV } payload eom
      else
        match s.mgt.asm_ with
        | some a =>
          if a.seid ≠ seid ∨ a.tag ≠ tag ∨ a.to_ ≠ to_ then s
          else if a.seq ≠ sq then s.onMgt fun g => { g with asm_ := none }
          else s.mctpTake a payload eom
        | none => s

def execMctpPacket (bytes : List Byte) (s : State) : Host.Outcome State Fault Refusal := .next (mctpPacket bytes s)

/-- A write of MGT_MRX: POP frees the buffer (R449). -/
def mrxPop (m : Master) (v : Word) (s : State) : State := if m = .sec ∧ v.getLsbD 31 then s.clr F.MGT_STAT_MRXV else s

def execMrxPop (m : Master) (v : Word) (s : State) : Host.Outcome State Fault Refusal :=
  .next (s.byCore m 0x4000C08C v fun s => mrxPop m v s)

/-- A message as packets of 64 bytes, each with its header and PEC. -/
def mctpPackets (addr own deid fl : Nat) : Nat → Nat → Bool → List Byte → List (List Byte)
  | 0, _, _, _ => []
  | fuel + 1, sq, first, l =>
    let p := l.take 64
    let rest := l.drop 64
    let b := leBytes 1 1 ++ leBytes 1 deid ++ leBytes 1 own ++
      leBytes 1 (fl + 16 * (sq % 4) + (if first then 128 else 0) + (if rest.isEmpty then 64 else 0)) ++ p
    (b ++ leBytes 1 (pec (leBytes 1 (addr * 2 + 1) ++ b))) :: (if rest.isEmpty then [] else mctpPackets addr own deid fl fuel (sq + 1) false rest)

/-- Send the message in the transmit buffer (R444): the in-band interrupt of the binding, then its packets. -/
def State.mctpSend (s : State) (len deid tag : Nat) (to_ : Bool) : State :=
  match s.mgt.mctp.addr with
  | none => s
  | some addr =>
    let msg := s.poolBytes (s.get F.MGT_MTXBASE_ADDR * 4096) (Nat.min len 4096)
    let s := s.sendIbi true 0xAE
    State.each (fun p s => s.emit (.mctp deid p))
      (mctpPackets addr.toNat (s.get F.MGT_EID_EID) deid (tag + (if to_ then 8 else 0)) 65 0 true msg) s

/-- A write of MGT_MTX (R444, R449). The message leaves at once (PRESUMED, log entry 62). -/
def mtxSend (m : Master) (v : Word) (s : State) : State :=
  if m = .sec ∧ i3cOn s ∧ s.on F.MGT_CTL_MCTPEN then s.mctpSend (bitsOf v 12 0) (bitsOf v 23 16) (bitsOf v 26 24) (v.getLsbD 27) else s

def execMtxSend (m : Master) (v : Word) (s : State) : Host.Outcome State Fault Refusal :=
  .next (s.byCore m 0x4000C094 v fun s => mtxSend m v s)

/-! ### Serving a message -/

/-- The message in the receive buffer. -/
def mrxBytes (s : State) : List Byte := s.poolBytes (s.get F.MGT_MRXBASE_ADDR * 4096) (s.get F.MGT_MRX_LEN)

/-- SEC's firmware runs and a message waits. -/
def mctpWaits (s : State) : Bool := s.sst.handed && !s.on F.SST_STAT_RECOVERY && s.on F.MGT_STAT_MRXV && i3cOn s

/-- Firmware answers the message it has read, and frees the receive buffer. -/
def State.mctpReply (s : State) (bs : List Byte) : State :=
  let s := s.poolWrite (s.get F.MGT_MTXBASE_ADDR * 4096) bs
  let v := bs.length + s.get F.MGT_MRX_SEID * 2 ^ 16 + s.get F.MGT_MRX_TAG * 2 ^ 24
  mtxSend .sec (BitVec.ofNat 32 v) (s.clr F.MGT_STAT_MRXV)

/-- Serve an MCTP control request with a command code: `f` gives what follows the code in the response. -/
def State.mctpControl (s : State) (code : Nat) (f : List Byte → State → List Byte × State) : State :=
  let m := mrxBytes s
  if mctpWaits s ∧ 3 ≤ m.length ∧ byteAt m 0 % 128 = 0 ∧ (byteAt m 1).testBit 7 ∧ byteAt m 2 = code then
    let ans := f (m.drop 3) s
    let b := ans.1
    let s := ans.2
    if (byteAt m 1).testBit 6 then s.clr F.MGT_STAT_MRXV
    else s.mctpReply (leBytes 1 0 ++ leBytes 1 (byteAt m 1 % 32) ++ leBytes 1 code ++ b)
  else s

/-- SET_ENDPOINT_ID. -/
def setEndpointId (s : State) : State :=
  s.mctpControl 1 fun d s =>
    let eid := byteAt d 1
    if d.length ≠ 2 then ([3], s)
    else if 1 < byteAt d 0 % 4 ∨ eid = 0 ∨ eid = 255 then ([2], s)
    else (leBytes 1 0 ++ leBytes 1 0 ++ leBytes 1 eid ++ leBytes 1 0, s.put F.MGT_EID_EID eid)

def execSetEndpointId (s : State) : Host.Outcome State Fault Refusal := .next (setEndpointId s)

/-- GET_ENDPOINT_ID. -/
def getEndpointId (s : State) : State := s.mctpControl 2 fun _ s => (leBytes 1 0 ++ leBytes 1 (s.get F.MGT_EID_EID) ++ [0, 0], s)

def execGetEndpointId (s : State) : Host.Outcome State Fault Refusal := .next (getEndpointId s)

/-- GET_ENDPOINT_UUID: the spec gives the UUID no value. -/
def getEndpointUuid (s : State) : State := s.mctpControl 3 fun _ s => (0 :: leBytes 16 Config.uuid.toNat, s)

def execGetEndpointUuid (s : State) : Host.Outcome State Fault Refusal := .next (getEndpointUuid s)

/-- GET_MCTP_VERSION_SUPPORT: 1.3 for the base and the control protocol, 1.0 for SPDM over MCTP. -/
def getMctpVersionSupport (s : State) : State :=
  s.mctpControl 4 fun d s =>
    let t := byteAt d 0
    if d.length ≠ 1 then ([3], s)
    else if t = 0xFF ∨ t = 0 then ([0, 1, 0xF1, 0xF3, 0xFF, 0x00], s)
    else if t = 5 then ([0, 1, 0xF1, 0xF0, 0xFF, 0x00], s)
    else ([0x80], s)

def execGetMctpVersionSupport (s : State) : Host.Outcome State Fault Refusal := .next (getMctpVersionSupport s)

/-- GET_MESSAGE_TYPE_SUPPORT: 0x00 and 0x05. -/
def getMessageTypeSupport (s : State) : State := s.mctpControl 5 fun _ s => ([0, 2, 0, 5], s)

def execGetMessageTypeSupport (s : State) : Host.Outcome State Fault Refusal := .next (getMessageTypeSupport s)

/-! ### SPDM (R445 to R448) -/

def State.onSpdm (s : State) (f : Spdm → Spdm) : State := s.onMgt fun g => { g with spdm := f g.spdm }

/-- The requests of Table 18.8. -/
def spdmCodes : List Nat := [0x84, 0xE1, 0xE3, 0x81, 0x82, 0x83, 0xE0]

/-- An SPDM request waits: its bytes. -/
def spdmRequest (s : State) : Option (List Byte) :=
  let m := mrxBytes s
  if mctpWaits s && byteAt m 0 % 128 == 5 && decide (5 ≤ m.length) then some (m.drop 1) else none

/-- Answer an SPDM request. -/
def State.spdmReply (s : State) (bs : List Byte) : State := s.mctpReply (5 :: bs)

/-- ERROR with a code and its data. -/
def State.spdmError (s : State) (code data : Nat) : State :=
  s.spdmReply (leBytes 1 (if s.mgt.spdm.phase = 0 then 0x10 else 0x12) ++ [0x7F] ++ leBytes 1 code ++ leBytes 1 data)

/-- Serve a request of a code: the version, the order of the negotiation and the length are checked first. -/
def State.spdmServe (s : State) (code version least : Nat) (phase : Nat → Bool) (f : List Byte → State → State) : State :=
  match spdmRequest s with
  | none => s
  | some r =>
    if byteAt r 1 ≠ code then s
    else if byteAt r 0 ≠ version then s.spdmError 0x41 0
    else if ¬ phase s.mgt.spdm.phase then s.spdmError 0x04 0
    else if r.length < least then s.spdmError 0x01 0
    else f r s

/-- GET_VERSION: 1.2, and the connection starts anew. -/
def getVersion (s : State) : State :=
  s.spdmServe 0x84 0x10 4 (fun _ => true) fun r s =>
    let a : List Byte := [0x10, 0x04, 0, 0, 0, 1, 0x00, 0x12]
    (s.onSpdm fun _ => { phase := 1, vca := r ++ a }).spdmReply a

def execGetVersion (s : State) : Host.Outcome State Fault Refusal := .next (getVersion s)

/-- GET_CAPABILITIES: CERT_CAP, CHAL_CAP, MEAS_CAP 2; CTExponent 14; sizes of 4,096. -/
def getCapabilities (s : State) : State :=
  s.spdmServe 0xE1 0x12 20 (· == 1) fun r s =>
    let a := [0x12, 0x61, 0, 0, 0, 14, 0, 0] ++ leBytes 4 0x16 ++ leBytes 4 4096 ++ leBytes 4 4096
    (s.onSpdm fun p => { p with phase := 2, vca := p.vca ++ r ++ a }).spdmReply a

def execGetCapabilities (s : State) : Host.Outcome State Fault Refusal := .next (getCapabilities s)

/-- NEGOTIATE_ALGORITHMS: P-384, SHA-384 and the DMTF measurement specification, where the requester has them. -/
def negotiateAlgorithms (s : State) : State :=
  s.spdmServe 0xE3 0x12 32 (· == 2) fun r s =>
    let spec := byteAt r 6 &&& 1
    let a := [0x12, 0x63, 0, 0] ++ leBytes 2 36 ++ leBytes 1 spec ++ [0] ++ leBytes 4 (if spec = 1 then 4 else 0) ++
      leBytes 4 (leNat (slice r 8 4) &&& 0x80) ++ leBytes 4 (leNat (slice r 12 4) &&& 2) ++ zeros 16
    (s.onSpdm fun p => { p with phase := 3, vca := p.vca ++ r ++ a }).spdmReply a

def execNegotiateAlgorithms (s : State) : Host.Outcome State Fault Refusal := .next (negotiateAlgorithms s)

/-- Slot 0's chain in the SPDM format (R448): the root and DEVID certificates come from the firmware-data region. -/
def certChain (s : State) (root devid : List Byte) : List Byte :=
  let c := root ++ devid ++ s.sst.cert
  leBytes 2 (52 + c.length) ++ zeros 2 ++ sha384 root ++ c

/-- GET_DIGESTS. -/
def getDigests (root devid : List Byte) (s : State) : State :=
  if ¬ s.on F.MGT_STAT_ACRDY then s else
  s.spdmServe 0x81 0x12 4 (· == 3) fun r s =>
    let a := [0x12, 0x01, 0, 1] ++ sha384 (certChain s root devid)
    (s.onSpdm fun p => { p with certs := p.certs ++ r ++ a, meas := [] }).spdmReply a

def execGetDigests (root devid : List Byte) (s : State) : Host.Outcome State Fault Refusal := .next (getDigests root devid s)

/-- GET_CERTIFICATE. -/
def getCertificate (root devid : List Byte) (s : State) : State :=
  if ¬ s.on F.MGT_STAT_ACRDY then s else
  s.spdmServe 0x82 0x12 8 (· == 3) fun r s =>
    let c := certChain s root devid
    let off := leNat (slice r 4 2)
    let n := Nat.min (Nat.min (leNat (slice r 6 2)) (c.length - off)) 4087
    if byteAt r 2 % 16 ≠ 0 ∨ c.length ≤ off then s.spdmError 0x01 0
    else
      let a := [0x12, 0x02, 0, 0] ++ leBytes 2 n ++ leBytes 2 (c.length - off - n) ++ slice c off n
      (s.onSpdm fun p => { p with certs := p.certs ++ r ++ a, meas := [] }).spdmReply a

def execGetCertificate (root devid : List Byte) (s : State) : Host.Outcome State Fault Refusal := .next (getCertificate root devid s)

/-- What SPDM 1.2 signs for a transcript: its prefix, the context, and the transcript's hash. -/
def spdmDigest (context : String) (l : List Byte) : List Byte :=
  let v := ascii "dmtf-spdm-v1.2.*"
  let c := ascii context
  sha384 (v ++ v ++ v ++ v ++ zeros (36 - c.length) ++ c ++ sha384 l)

/-- Firmware signs a digest with ALIAS through SST_SCMD, and waits for its turn at the engine (R115, R119, R445). -/
def State.spdmSign (s : State) (d : List Byte) : List Byte × State :=
  let ans := (s.wrBytes R.SST_DIG 12 d).sign (aliasKey (segFinal s.sst.hdr 0)) d
  let sig := slice ans.1 0 96
  (sig, ((ans.2.put F.SST_SRES_RESULT 0).wrBytes R.SST_SIGR 12 (slice sig 0 48)).wrBytes R.SST_SIGS 12 (slice sig 48 48))

/-- The signer can be used. -/
def aliasReady (s : State) : Bool := s.sst.alias_ && !s.on F.SST_SRES_BUSY && !s.on F.SST_KLOCK_ALIAS_USELOCK

/-! ### Measurements (R446) -/

/-- This boot's record 0x0108, once it has been formed. -/
def handoverRecord (s : State) : Option (List Byte) :=
  let mine := fun (b : List Byte) => leNat (slice b 4 2) == 0x0108 && leNat (slice b 0x18 4) == s.get F.MOR_BOOT_BOOT
  let staged := s.mor.fifo.filterMap fun (e : FifoEntry) => e.formed.map Formed.body
  let slots := (morRecords s).map fun (r : Nat × Nat) => s.slotBytes r.1
  (staged ++ slots).find? mine

/-- The value of a measurement block with its type, if its source is set (Table 18.9). -/
def measValue (s : State) (i : Nat) : Option (Nat × List Byte) :=
  if i = 1 then (if s.sst.hdr.isEmpty then none else some (0x01, rdBytes s R.MGT_MEAS 12))
  else if 2 ≤ i ∧ i ≤ 8 then
    (if segPassed s (i - 2) then some (0x01, rdBytes s (fun j => R.MGT_MEAS (12 * (i - 1) + j)) 12) else none)
  else if i = 9 then
    let f := s.sst.fuses
    some (0x82, leBytes 1 (if f.production then 1 else 0) ++ leBytes 1 f.svn ++ leBytes 1 f.keyrev.toNat ++ leBytes 1 (s.get F.SST_STAT_SLOT) ++
      leBytes 1 (s.get F.SST_STAT_FALLBACK) ++ leBytes 1 (s.get F.PCM_THAW_SRC) ++ leBytes 2 (hdrSvn s.sst.hdr) ++
      leBytes 4 (hdrSeq s.sst.hdr) ++ zeros 4)
  else if i = 10 then (handoverRecord s).map fun b => (0x84, recordStub b)
  else none

/-- A block in the DMTF measurement format. -/
def measBlock (s : State) (i : Nat) : List Byte :=
  match measValue s i with
  | some (ty, v) => leBytes 1 i ++ [1] ++ leBytes 2 (v.length + 3) ++ leBytes 1 ty ++ leBytes 2 v.length ++ v
  | none => []

/-- The indices of the blocks present. -/
def measPresent (s : State) : List Nat := (List.range 11).filter fun i => (measValue s i).isSome

/-- CHALLENGE: the measurement summary of type 1, whose blocks the spec does not name, is open. -/
def challenge (root devid : List Byte) (s : State) : State :=
  if ¬ s.on F.MGT_STAT_ACRDY ∨ ¬ aliasReady s then s else
  s.spdmServe 0x83 0x12 36 (· == 3) fun r s =>
    let kind := byteAt r 3
    if byteAt r 2 ≠ 0 ∨ ¬ (kind = 0 ∨ kind = 1 ∨ kind = 0xFF) then s.spdmError 0x01 0
    else
      let ans := State.drawBytes 4 s
      let nonce := ans.1
      let s := ans.2
      let ans := State.drawBytes 6 s
      let open_ := ans.1
      let s := ans.2
      let sum := if kind = 0 then [] else if kind = 1 then open_ else sha384 ((measPresent s).flatMap (measBlock s))
      let a := [0x12, 0x03, 0, 1] ++ sha384 (certChain s root devid) ++ nonce ++ sum ++ zeros 2
      let p := s.mgt.spdm
      let ans := s.spdmSign (spdmDigest "responder-challenge_auth signing" (p.vca ++ p.certs ++ r ++ a))
      let sig := ans.1
      let s := ans.2
      (s.onSpdm fun p => { p with certs := [], meas := [] }).spdmReply (a ++ sig)

def execChallenge (root devid : List Byte) (s : State) : Host.Outcome State Fault Refusal := .next (challenge root devid s)

/-- GET_MEASUREMENTS. -/
def getMeasurements (s : State) : State :=
  if ¬ aliasReady s then s else
  s.spdmServe 0xE0 0x12 4 (· == 3) fun r s =>
    let signed := (byteAt r 2).testBit 0
    let op := byteAt r 3
    let have_ := measPresent s
    let want := if op = 0 then [] else if op = 0xFF then have_ else [op]
    if (signed ∧ (r.length < 37 ∨ byteAt r 36 % 16 ≠ 0)) ∨ ¬ (want.all fun i => have_.contains i) then s.spdmError 0x01 0
    else
      let rec_ := want.flatMap (measBlock s)
      let ans := State.drawBytes 4 s
      let nonce := ans.1
      let s := ans.2
      let a := [0x12, 0x60] ++ leBytes 1 (if op = 0 then have_.length else 0) ++ [0] ++ leBytes 1 want.length ++ leBytes 3 rec_.length ++ rec_ ++
        nonce ++ zeros 2
      let p := s.mgt.spdm
      let l := p.meas ++ r ++ a
      if signed then
        let ans := s.spdmSign (spdmDigest "responder-measurements signing" (p.vca ++ l))
        let sig := ans.1
        let s := ans.2
        (s.onSpdm fun p => { p with meas := [] }).spdmReply (a ++ sig)
      else (s.onSpdm fun p => { p with meas := l }).spdmReply a

def execGetMeasurements (s : State) : Host.Outcome State Fault Refusal := .next (getMeasurements s)

/-- Any other request gets ERROR UnsupportedRequest (R445). -/
def spdmUnsupportedRequest (s : State) : State :=
  match spdmRequest s with
  | some r => if spdmCodes.contains (byteAt r 1) then s else s.spdmError 0x07 (byteAt r 1)
  | none => s

def execSpdmUnsupportedRequest (s : State) : Host.Outcome State Fault Refusal := .next (spdmUnsupportedRequest s)

end Sys2Proof.Machine
end

