-- ==== Sys2Proof/Machine/Dma.lean ====
section
/-! DEFINITION. The commands of the data movers and of the CRY engine's self-test (R334 to R354). -/

namespace Sys2Proof.Machine

open Sys2Proof

/-- A write of CHSTART (R334, R335). -/
def chstart (m : Master) (c : BitVec 4) (v : Word) (s : State) : State :=
  let c := c.toNat
  if chOwner s c ≠ ownerCode m then s
  else if chState s c = chRUN ∨ chState s c = chHELD then s.raiseBit (F.CHSTAT_IGN c)
  else s.chStart c v.toNat

def execChstart (m : Master) (c : BitVec 4) (v : Word) (s : State) : Host.Outcome State Fault Refusal :=
  .next (s.byCore m (0x40009104 + 32 * c.toNat) v fun s => chstart m c v s)

/-- A descriptor has been read and becomes current, or its address is one that no descriptor may have (R336, R338). An XTS descriptor waits for the known-answer test
(R351). `ue` is an uncorrectable block of the Buffer die that its reads meet. -/
def descriptorFetched (c : BitVec 4) (ue : Option (BitVec 32)) (s : State) : State :=
  let c := c.toNat
  let k := s.chan c
  let a := s.get (F.CHDESC_ADDR c)
  let bs := if k.uqi then k.desc else s.dmaBytes a 64
  if chState s c ≠ chRUN ∨ ¬ k.fetching ∨ s.mode = mOFF ∨ s.mode = mDORMANT then s
  else if ¬ k.uqi ∧ ¬ dscAddrOk a then (s.chUnread c 3).chSettle
  else if (dscOf bs).xts ∧ ¬ s.on F.CRY_STAT_KATDONE then s
  else (s.chCurrent c bs ue).chSettle

def execDescriptorFetched (c : BitVec 4) (ue : Option (BitVec 32)) (s : State) : Host.Outcome State Fault Refusal :=
  .next (descriptorFetched c ue s)

/-- The end of a descriptor (R335, R342). A HOST destination ends when its posted writes are acknowledged, which a
port does not do in THAW. -/
def descriptorEnd (c : BitVec 4) (s : State) : State :=
  let c := c.toNat
  if chDone s c ∧ ¬ ((s.dsc c).dst = eHOST ∧ s.mode = mTHAW) then (s.chEnd c).chSettle else s

def execDescriptorEnd (c : BitVec 4) (s : State) : Host.Outcome State Fault Refusal := .next (descriptorEnd c s)

/-- CHCMD.ABORT by the owner (R354). -/
def channelAbort (m : Master) (c : BitVec 4) (s : State) : State :=
  let c := c.toNat
  if chOwner s c ≠ ownerCode m then s
  else if chState s c = chRUN then (s.chStop c 19).chSettle
  else if chState s c = chHELD then s.chEnter c chIDLE
  else s

def execChannelAbort (m : Master) (c : BitVec 4) (s : State) : Host.Outcome State Fault Refusal :=
  .next (s.byCore m (0x40009118 + 32 * c.toNat) 1 fun s => channelAbort m c s)

/-- A write of CHCFG.OWNER (R334): SEC alone, not while the channel is RUN or HELD, nor once CFGLOCK is set; 7 is stored
as 0. -/
def chcfgWrite (m : Master) (c : BitVec 4) (v : Word) (s : State) : State :=
  let c := c.toNat
  let o := bitsOf v 2 0
  if m ≠ .sec ∨ chState s c = chRUN ∨ chState s c = chHELD ∨ s.on F.DMA_CTL_CFGLOCK then s
  else s.put (F.CHCFG_OWNER c) (if o = 7 then 0 else o)

def execChcfgWrite (m : Master) (c : BitVec 4) (v : Word) (s : State) : Host.Outcome State Fault Refusal :=
  .next (s.byCore m (0x40009100 + 32 * c.toNat) v fun s => chcfgWrite m c v s)

/-- A write of 1 to CFGLOCK (R350), as it stands with SEC's write behind it. -/
def cfglock (s : State) : State :=
  if ((List.range 16).filter fun c => chOwner s c == 4).length < 8 then s else s.raiseBit F.DMA_CTL_CFGLOCK

/-- CFGLOCK: DMA_CTL takes writes only from SEC (R355). -/
def execCfglock (m : Master) (s : State) : Host.Outcome State Fault Refusal :=
  .next (s.byCore m R.DMA_CTL (s.rd R.DMA_CTL ||| 2) fun s => if m = .sec then cfglock s else s)

/-- The side table fits in the general region (R344). -/
def mdFits (base : Nat) : Bool := decide (0xC1000000 ≤ base) && decide (base + 8486912 ≤ 0xC4000000)

/-- A write of DMA_MDBASE (R344): a base that does not fit is stored with EN = 0. -/
def mdbaseWrite (v : Word) (s : State) : State :=
  if s.on F.DMA_CTL_CFGLOCK then s else
  let s := s.put F.DMA_MDBASE_ADDR (bitsOf v 31 6)
  s.putB F.DMA_MDBASE_EN (v.getLsbD 0 && mdFits (bitsOf v 31 6 * 64))

/-- MDBASE_WRITE: DMA_MDBASE takes writes only from SEC (R355). -/
def execMdbaseWrite (m : Master) (v : Word) (s : State) : Host.Outcome State Fault Refusal :=
  .next (s.byCore m R.DMA_MDBASE v fun s => if m = .sec then mdbaseWrite v s else s)

/-- The XTS known-answer test ends (R351). -/
def katDone (ok : Bool) (s : State) : State :=
  if s.on F.CRY_STAT_KATDONE then s else (s.raiseBit F.CRY_STAT_KATDONE).putB F.CRY_STAT_KATFAIL (!ok)

def execKatDone (ok : Bool) (s : State) : Host.Outcome State Fault Refusal := .next (katDone ok s)

/-- The halt cause of a failed completion (R340). -/
def hostCause : HostEnd → Nat
  | .ok => 0
  | .ur => 11
  | .ca => 12
  | .timeout => 13
  | .poison => 14

/-- A completion for request n of a channel's outstanding read requests (R339, R340). -/
def hostReadCompletion (c : BitVec 4) (n : Nat) (e : HostEnd) (data : List Byte) (s : State) : State :=
  let c := c.toNat
  let k := s.chan c
  if ¬ k.live ∨ k.reqs.length ≤ n ∨ ¬ portUp s (s.dsc c).port then s
  else if e = .ok then (s.hostArrive c n data).chSettle
  else (s.chHalt c (hostCause e) 0).chSettle

def execHostReadCompletion (c : BitVec 4) (n : Nat) (e : HostEnd) (data : List Byte) (s : State) : Host.Outcome State Fault Refusal :=
  .next (hostReadCompletion c n e data s)

/-- The completion timer of request n expires (R340). -/
def completionTimeout (c : BitVec 4) (n : Nat) (s : State) : State := hostReadCompletion c n .timeout [] s

def execCompletionTimeout (c : BitVec 4) (n : Nat) (s : State) : Host.Outcome State Fault Refusal := .next (completionTimeout c n s)

end Sys2Proof.Machine
end

