-- ==== Sys2Proof/Machine/Moraine.lean ====
section
/-! DEFINITION. The commands of the Moraine recorder (chapter 6): captured events, firmware submissions, seals, the
two phases of a record's program, erases of Drift sectors, the tail search, and the read ports. -/

namespace Sys2Proof.Machine

open Sys2Proof

/-! ### Capture (R154, R155) -/

/-- The first raised event of a source. -/
def offerOf (m : MorState) (src : Nat) : Option Event := m.raised.find? fun (e : Event) => e.src == src

/-- The events that sources present in a cycle: each listed source at most one, in ascending order of source. -/
def offers (m : MorState) (present : List (BitVec 8)) : List Event :=
  (List.range 256).filterMap fun n => if present.any fun (p : BitVec 8) => p.toNat == n then offerOf m n else none

/-- A source's capture register holds an event. -/
def caughtFrom (m : MorState) (src : Nat) : Bool := m.caught.any fun (e : Event) => e.src == src

/-- Take events off the list of those not presented yet. -/
def unraise (l : List Event) (m : MorState) : MorState :=
  { m with raised := l.foldl (fun r e => r.erase e) m.raised }

/-- Record 0x0306 is in the staging FIFO: the FLNK acknowledges the log entry (R249). -/
def State.logAck (s : State) (e : Event) : State :=
  match s.link.logDue.find? fun (x : Nat × List Byte) => x.2 == e.payload with
  | none => s
  | some x =>
    let l := s.link.logDue.filter fun (y : Nat × List Byte) => y != x
    (({ s with link := { s.link with logDue := l } } : State).flnkSend (.logack x.1)).putB F.FLNK_STAT_LOGPEND (!l.isEmpty)

/-- The master of a firmware source. -/
def fwMaster (src : Nat) : Option Master := [Master.sec, .hc0, .hc1, .mc, .sv].find? fun (m : Master) => 0x10 + m.idx == src

/-- A lost firmware submission reads RESULT LOST (R155). -/
def State.tellLost (s : State) (e : Event) : State :=
  match fwMaster e.src with
  | some m => s.put (F.MOR_SRES_RESULT m) 1
  | none => s

/-- The recorder takes an event out of its register: it stages or loses it. -/
def State.takeCaught (s : State) (e : Event) : State :=
  if fifoRoom s.mor e.src then (if e.code = 0x0306 then (s.takeEvent e).logAck e else s.takeEvent e)
  else (s.takeEvent e).tellLost e

/-- One SECCK cycle of the recorder (R154): the sources that `new` is from present an event each, and the recorder takes the one
that has waited longest, the lowest source first. A register that is emptied in the cycle takes the event presented to it; one
that stays full loses it (R155). -/
def State.captureCycle (s : State) (new : List Event) : State :=
  let m := s.mor
  let free := new.filter fun e => !caughtFrom m e.src
  let late := new.filter fun e => caughtFrom m e.src
  match m.caught ++ free with
  | [] => s
  | e :: rest =>
    let kept := late.filter fun x => x.src == e.src
    let lost := late.filter fun x => x.src != e.src
    let s := { s with mor := { unraise new m with caught := rest ++ kept } }
    (State.each (fun x s => (s.loseEvent x.code).tellLost x) lost s).takeCaught e

/-- EVENT_CAPTURE (R154): a SECCK cycle in which the listed sources present what they have raised. -/
def eventCapture (present : List (BitVec 8)) (s : State) : State := s.captureCycle (offers s.mor present)

def execEventCapture (present : List (BitVec 8)) (s : State) : Host.Outcome State Fault Refusal := .next (eventCapture present s)

/-- The codes that firmware may submit (R152). -/
def fwCode (code : Nat) : Bool :=
  code == 0x0301 || code == 0x0604 || code == 0x0801 || code == 0x0802 || code == 0x0803 ||
    (decide (2 ≤ code / 256) && decide (code / 256 ≤ 8) && decide (0x80 ≤ code % 256))

/-- FW_EVENT_SUBMIT (R152): a core writes MOR_SCMD. The recorder refuses the event, or the core presents it in this cycle with the
other sources listed. RESULT reads OK until the event is lost. -/
def fwEventSubmit (m : Master) (v : Word) (present : List (BitVec 8)) (s : State) : State :=
  let code := bitsOf v 15 0
  let plen := bitsOf v 24 16
  let party := bitsOf v 29 25
  if !fwCode code || decide (plen > 316) || (decide (party > 15) && party != 31) then s.put (F.MOR_SRES_RESULT m) 2
  else
    let words := (List.range 79).flatMap fun k => leBytes 4 (s.rd (R.MOR_SPAY m k)).toNat
    let e : Event := { code, party := if party = 31 then 0xFF else party, src := 0x10 + m.idx, fwsrc := true,
                       payload := slice words 0 plen }
    (s.put (F.MOR_SRES_RESULT m) 0).captureCycle ((offers s.mor present).filter (fun (x : Event) => x.src < e.src) ++ e ::
      (offers s.mor present).filter (fun (x : Event) => e.src < x.src))

def execFwEventSubmit (m : Master) (v : Word) (present : List (BitVec 8)) (s : State) : Host.Outcome State Fault Refusal :=
  .next (s.byCore m 0x4000E040 v fun s => fwEventSubmit m v present s)

/-- SEAL_NOW (R150). -/
def execSealNow (s : State) : Host.Outcome State Fault Refusal := .next (s.sealBatch 2)

/-! ### Programs -/

/-- Form the head of the FIFO for its program, and seal the batch where it has reached SEAL_MAX (R150). -/
def formHead (s : State) : State :=
  let n := s.mor.batchCount
  let s := s.formPrefix 1
  if n < s.mor.batchCount ∧ s.get F.MOR_CTL_SEAL_MAX ≤ s.mor.batchCount ∧ ¬ (s.mor.own.any fun e => e.1.code == 0x0901) then
    s.sealBatch 0
  else s

/-- A phase 1 may start: a record waits, the ports are free, no other program of the recorder runs or is due first, the bank of the
write slot is free, and its sector is neither being erased, nor to be, nor INCOMPLETE (R141, R147, R156, R161, R181, R183). -/
def phase1Ready (s : State) : Bool :=
  let m := s.mor.wslot / 128
  let b := bankOf (morSlotAddr s.mor.wslot)
  !morPortHeld s && !s.mor.phase1 && s.mor.phase2.isNone && !s.mor.fifo.isEmpty && (phase2Next s).isNone && recorderMay s b &&
    !eraseDue s m && (s.bank b).inc != some (morAbs m)

/-- The 512 bytes a phase 1 leaves in the slot: the body, and for an unsigned record zeros after it (Table 6.1). -/
def slotImage (f : Formed) : List Byte := f.body ++ if f.signed then List.replicate 112 0xFF else zeros 112

/-- The formed record at the head of the FIFO. -/
def headFormed (m : MorState) : Option Formed :=
  match m.fifo with
  | e :: _ => e.formed
  | [] => none

/-- PHASE1_START (R147): the next record is formed and its body starts to be programmed into the write slot. -/
def phase1Start (s : State) : State :=
  if phase1Ready s then
    let s := formHead s
    let s := if s.mor.wslot % 128 = 0 then s.eraseAhead else s
    match headFormed s.mor with
    | some f => ({ s with mor := { s.mor with phase1 := true } } : State).recorderProgram (morSlotAddr s.mor.wslot) 0 (slotImage f)
    | none => s
  else s

def execPhase1Start (s : State) : Host.Outcome State Fault Refusal := .next (phase1Start s)

/-- Record 0x0701 (Table 6.5). For a phase 2 the attempt number is that of the present write sector (DESIGN CHOICE, log entry
112). -/
def programFailure (slot phase attempt seq : Nat) (s : State) : State :=
  let s := (s.raiseBit F.MOR_STAT_PFAIL).inc F.MOR_CNT_PFAIL_CNT
  s.ownEvent 0x0701 (leBytes 2 slot ++ leBytes 1 phase ++ leBytes 1 attempt ++ leBytes 8 seq)

/-- A program of the recorder ends in a bank: DONE sets, and a failure shows as any program's does (R171, R190). -/
def State.recorderEnd (s : State) (page : Nat) (ok : Bool) : State :=
  let b := bankOf page
  let k := s.bank b
  let s := (s.setBank b { k with prog := none, pfail := k.pfail || !ok }).setIn F.STO_DONE_BANK b
  if ok then s else (s.inc F.STO_CNT_PFAIL_CNT).stoCapture 9 .recorder page

/-- After a failed attempt the write slot moves on; after the third one the rest of the sector is abandoned (R157). -/
def morAfterFailure (m : MorState) : MorState :=
  let m := { m with attempts := m.attempts + 1 }
  if m.attempts ≥ 3 then morEnter m (morNextSectorSlot m.wslot) else morAdvance m

/-- A record's phase 1 ended well: its bytes are in the array, its slot is known and its FIFO entry is free. -/
def phase1Good (f : Formed) (rest : List FifoEntry) (s : State) : State :=
  let slot := s.mor.wslot
  let s := (s.stoProgram (morSlotAddr slot) (slotImage f)).recorderEnd (morSlotAddr slot) true
  let m := s.mor
  let m := { m with
    fifo := rest
    phase1 := false
    signing := m.signing.map fun g => if g.seq = f.seq then { g with slot := some slot } else g
    retreatProg := if s.mode = mRETREAT then m.retreatProg + 1 else m.retreatProg }
  State.refill 64 { s with mor := morAdvance m }

/-- The bytes that a failed program leaves of those it was to program: `back` says which bits stayed 1 (R171). -/
def badImage (img back : List Byte) : List Byte := List.zipWith (fun x y => x ||| y) img (slice back 0 img.length)

/-- A record's phase 1 failed: the slot is made TORN and the record will be programmed in the next one (R157);
`back` says which bits beyond its first four bytes stayed 1. -/
def phase1Bad (f : Formed) (back : List Byte) (s : State) : State :=
  let slot := s.mor.wslot
  let attempt := s.mor.attempts + 1
  let s := s.stoProgram (morSlotAddr slot) (zeros 4 ++ (badImage (slotImage f) back).drop 4)
  let s := s.recorderEnd (morSlotAddr slot) false
  let s := { s with mor := morAfterFailure { s.mor with phase1 := false } }
  programFailure slot 1 attempt f.seq s

/-- PHASE1_DONE (R157): what waited for the Store die then starts. -/
def phase1Done (ok : Bool) (back : List Byte) (s : State) : State :=
  if s.mor.phase1 then
    match s.mor.fifo with
    | { formed := some f, .. } :: rest => ((if ok then phase1Good f rest s else phase1Bad f back s).morKick).rdoneCheck
    | _ => s
  else s

def execPhase1Done (ok : Bool) (back : List Byte) (s : State) : Host.Outcome State Fault Refusal :=
  .next (phase1Done ok back s)

/-- RECORD_SIGNATURE_READY (R115, R148, R149): the engine has signed the record that it took. -/
def recordSignatureReady (s : State) : State :=
  match s.sst.ecc with
  | some (.record q) =>
    let s := s.eccFree
    match s.mor.signing.find? fun g => g.seq == q && g.sig.isNone with
    | none => s.eccKick
    | some g =>
      let ans := s.sign devidKey g.digest
      let sig := ans.1
      let s := ans.2
      (({ s with mor := { s.mor with
        signing := s.mor.signing.map fun h => if h.seq = q then { h with sig := some sig } else h } } : State).morKick).eccKick
  | _ => s

def execRecordSignatureReady (s : State) : Host.Outcome State Fault Refusal := .next (recordSignatureReady s)

/-- The body of a record with what a failed phase 2 leaves behind it is SIGTORN (R157); where `back` leaves something else of the
signature, it is taken to leave all but SCRC unprogrammed. -/
def sigtornImage (body img back : List Byte) : List Byte :=
  if slotClass (body ++ badImage img back) = .sigtorn then badImage img back else List.replicate 96 0xFF ++ zeros 16

/-- PHASE2_DONE (R157): a signature program ends; `back` says which of its bits stayed 1 where it failed. -/
def phase2Done (ok : Bool) (back : List Byte) (s : State) : State :=
  match s.mor.phase2.bind fun q => s.mor.signing.find? fun g => g.seq == q with
  | none => s
  | some g =>
    let slot := g.slot.getD 0
    let img := phase2Image (g.sig.getD [])
    let a := morSlotAddr slot
    let s := s.stoProgram (a + 0x190) (if ok then img else sigtornImage (s.stoBytes a 0x190) img back)
    let s := s.recorderEnd a ok
    let s := { s with mor := { s.mor with signing := s.mor.signing.erase g, phase2 := none } }
    let s := if ok then
        if s.mode = mRETREAT ∧ s.mor.retreatSeal = some g.seq then { s with mor := { s.mor with sealDone := true } } else s
      else (programFailure slot 2 (s.mor.attempts + 1) g.seq s).ownEvent 0x0903 (leBytes 8 g.seq ++ slice g.digest 0 48)
    s.rdoneCheck.morKick

def execPhase2Done (ok : Bool) (back : List Byte) (s : State) : Host.Outcome State Fault Refusal :=
  .next (phase2Done ok back s)

/-! ### Erases (R141, R158) -/

/-- The sector whose erase follows that of a sector that failed: the next one that does not hold the write slot. -/
def nextToErase (s : State) (m : Nat) : Nat :=
  let n := morNextDrift m
  if n = s.mor.wslot / 128 then morNextDrift n else n

/-- A failed Drift erase: retried once, and then the write slot will pass over the sector (R158). A write slot that waits for the
sector moves at once. -/
def driftEraseFailed (m : Nat) (s : State) : State :=
  let s := (s.raiseBit F.MOR_STAT_EFAIL).inc F.MOR_CNT_EFAIL_CNT
  if s.mor.eraseRetry then
    let s := s.ownEvent 0x0702 (leBytes 1 m ++ zeros 3 ++ leBytes 4 (tabGet s.mor.eraseTries 0 m))
    let n := nextToErase s m
    let mo := s.mor
    let mo := if mo.wslot / 128 = m then { mo with wslot := n * 128, attempts := 0 } else { mo with ahead := some n }
    ({ s with mor := { mo with erasing := none } } : State).wantErase n false
  else ({ s with mor := { s.mor with erasing := none } } : State).wantErase m true

/-- DRIFT_ERASE_DONE (R158, R173): a Drift sector is erased, or its erase failed and it holds what `left` shows. -/
def driftEraseDone (left : Option (List Host.Cell)) (s : State) : State :=
  match s.mor.erasing with
  | none => s
  | some m =>
    let a := morSectorBase m
    let s := (s.endErase (bankOf a) left.isNone).stoErase a 0x10000
    let s := match left with
      | none => ({ s with mor := { s.mor with erasing := none, eraseRetry := false } } : State)
      | some l => driftEraseFailed m (((s.layCells (cellsIn a 0x10000 l)).inc F.STO_CNT_EFAIL_CNT).stoCapture 10 .recorder a)
    s.rdoneCheck.morKick

def execDriftEraseDone (left : Option (List Host.Cell)) (s : State) : Host.Outcome State Fault Refusal := .next (driftEraseDone left s)

/-! ### The tail search (R159) -/

/-- The slot with the highest SEQ among those that hold a record. -/
def findTail (s : State) : List Nat → Option Nat
  | [] => none
  | n :: l =>
    let r := findTail s l
    if isRecord (slotClass (s.slotBytes n)) then
      match r with
      | none => some n
      | some t => if slotSeqOf (s.slotBytes t) < slotSeqOf (s.slotBytes n) then some n else some t
    else r

/-- The first erased slot from a slot on, in slot order. -/
def firstErased (s : State) : Nat → Nat → Nat
  | 0, n => n
  | k + 1, n => if slotClass (s.slotBytes n) = .erased then n else firstErased s k (morNextSlot n)

/-- The slots from one slot up to, and without, another in slot order. -/
def slotsBetween : Nat → Nat → Nat → List Nat
  | 0, _, _ => []
  | k + 1, a, b => if a = b then [] else a :: slotsBetween k (morNextSlot a) b

/-- Record 0x0904 for a slot (Table 6.5): all ones stand for a SEQ that cannot be read. -/
def tornRecord (slot st : Nat) (s : State) : State :=
  let b := s.slotBytes slot
  let seq := if leNat (slice b 0 4) = 0x4D4F524E then slotSeqOf b else 2 ^ 64 - 1
  s.ownEvent 0x0904 (leBytes 2 slot ++ leBytes 1 st ++ zeros 1 ++ leBytes 8 seq)

/-- Report a SIGTORN slot: 0x0904 with state 4, and 0x0903 where its record is of a signed class (R149, R159). -/
def sigtornReport (slot : Nat) (s : State) : State :=
  let b := s.slotBytes slot
  let s := tornRecord slot 4 s
  if morSigned (leNat (slice b 4 2)) then s.ownEvent 0x0903 (leBytes 8 (slotSeqOf b) ++ sha384 (slice b 0 0x190)) else s

/-- The records to examine: from the newest one with a good signature up to the tail (R159), newest first. -/
def sigtornSince (s : State) : List Nat → List Nat
  | [] => []
  | n :: l =>
    match slotClass (s.slotBytes n) with
    | .sigtorn => n :: sigtornSince s l
    | .valid => if leNat (slice (s.slotBytes n) 6 2) % 2 = 1 then [] else sigtornSince s l
    | .pending => sigtornSince s l
    | .torn => sigtornSince s l
    | .erased => sigtornSince s l

/-- The write slot: the first ERASED slot after the tail. Where the tail ends its sector and the Drift sector after it is INCOMPLETE,
it is that sector's first slot, once the sector has been erased again (R159, R181; DEDUCED, log entry 114). -/
def searchSlot (s : State) (tail : Option Nat) : Nat :=
  let n := match tail with
    | some t => morNextSlot t
    | none => 0
  let w := firstErased s 8192 n
  let m := (if n % 128 = 0 then n else morNextSectorSlot n) / 128
  if m ≥ 32 ∧ (s.bank (bankOf (morSectorBase m))).inc = some (morAbs m) ∧ w / 128 ≠ (tail.getD 8192) / 128 then m * 128 else w

/-- Set the recorder's position from what the search found (R159). Records that were formed and stand in the FIFO keep their SEQ
(R147), and the next follows the last of them; one whose slot turns out to be whole has left the FIFO. -/
def searchFound (used : List Nat) (s : State) : State :=
  let pend := used.filter fun n => slotClass (s.slotBytes n) = .pending
  let tail := findTail s used
  let next := match tail with
    | some t => slotSeqOf (s.slotBytes t) + 1
    | none => 0
  let boot := match tail with
    | some t => leNat (slice (s.slotBytes t) 0x18 4) + 1
    | none => 0
  let m := s.mor
  let fifo := m.fifo.filter fun e => match e.formed with
    | some f => decide (next ≤ f.seq)
    | none => true
  let formed := fifo.any fun e => e.formed.isSome
  let kept := m.signing.filterMap fun g => match pend.find? fun n => slotSeqOf (s.slotBytes n) == g.seq with
    | some n => some { g with slot := some n }
    | none => if g.slot.isNone ∧ next ≤ g.seq then some g else none
  let new := pend.filter fun n => !m.signing.any fun g => g.seq == slotSeqOf (s.slotBytes n)
  let m := { m with
    wslot := searchSlot s tail
    nseq := if formed then m.nseq else BitVec.ofNat 64 next
    prev := if formed then m.prev else match tail with
      | some t => sha384 (slice (s.slotBytes t) 0 0x190)
      | none => zeros 48
    fifo := fifo.map fun e => if e.formed.isSome then e else { e with ev := { e.ev with boot } }
    signing := kept ++ new.map fun n =>
      let b := s.slotBytes n
      signingOf (slotSeqOf b) (leNat (slice b 4 2)) (sha384 (slice b 0 0x190)) (some n) }
  ({ s with mor := m } : State).put F.MOR_BOOT_BOOT boot

/-- The erase that the search starts: of the next Drift sector, or of the one that the write slot is about to enter, where it is not
erased (R141, R159). -/
def State.searchErase (s : State) : State :=
  let m := s.mor.wslot / 128
  if s.mor.wslot % 128 ≠ 0 then s.eraseAhead
  else if m ≥ 32 ∧ ¬ sectorErased s m then s.wantErase m false
  else s

/-- TAIL_SEARCH_DONE (R159). Where no record is found there is no tail, and no TORN slot is reported (DESIGN CHOICE, log entry
113). -/
def tailSearchDone (s : State) : State :=
  if s.on F.MOR_STAT_READY then s else
  let used := slotsUsed s
  let tail := findTail s used
  let s := searchFound used s
  let s := s.raiseBit F.MOR_STAT_READY
  let s := s.formPrefix (lastSigned s.mor.fifo)
  let s := match tail with
    | none => s
    | some t =>
      let torn := (slotsBetween 8192 (morNextSlot t) s.mor.wslot).filter fun n =>
        slotClass (s.slotBytes n) = SlotClass.torn
      let older := (used.filter fun n => isRecord (slotClass (s.slotBytes n))).mergeSort fun a b =>
        slotSeqOf (s.slotBytes b) ≤ slotSeqOf (s.slotBytes a)
      let s := s.put F.MOR_CNT_TORN_CNT (Nat.min torn.length 255)
      let s := State.each (fun n s => tornRecord n 1 s) torn s
      (State.each sigtornReport (sigtornSince s older).reverse s).searchErase
  s.morKick

def execTailSearchDone (s : State) : Host.Outcome State Fault Refusal := .next (tailSearchDone s)

/-! ### The read ports (R163) -/

/-- MOR_READ_GO (R163): a core starts a read; it is ignored while one runs. -/
def morReadGo (m : Master) (s : State) : State :=
  if s.on (F.MOR_RRES_BUSY m) then s else s.raiseBit (F.MOR_RRES_BUSY m)

def execMorReadGo (m : Master) (s : State) : Host.Outcome State Fault Refusal :=
  .next (s.byCore m 0x4000E050 1 fun s => morReadGo m s)

/-- The SEQ in a core's read port. -/
def State.readSeq (s : State) (m : Master) : Nat :=
  (s.rd (R.MOR_RSEQ_LO m)).toNat + (s.rd (R.MOR_RSEQ_HI m)).toNat * 2 ^ 32

/-- A SEQ that is formed or staged and not yet programmed (R163). -/
def notYet (m : MorState) (seq : Nat) : Bool :=
  m.fifo.any (fun e => match e.formed with | some f => f.seq == seq | none => false) ||
    (decide (m.nseq.toNat ≤ seq) && decide (seq < m.nseq.toNat + (m.fifo.filter fun e => e.formed.isNone).length))

/-- Put a slot's bytes into a core's read buffer. -/
def fillReadBuf (m : Master) (b : List Byte) (s : State) : State :=
  State.each (fun k s => s.wr (R.MOR_RBUF m k) (BitVec.ofNat 32 (leNat (slice b (4 * k) 4)))) (List.range 128) s

/-- MOR_READ_DONE (R163): the request completes, unless the ports wait for the loader (R161). -/
def morReadDone (m : Master) (s : State) : State :=
  if !s.on (F.MOR_RRES_BUSY m) || morPortHeld s then s else
  let seq := s.readSeq m
  let s := s.clr (F.MOR_RRES_BUSY m)
  match slotHolding s seq with
  | some n =>
    let s := fillReadBuf m (s.slotBytes n) s
    (s.put (F.MOR_RRES_SLOT m) n).put (F.MOR_RRES_RESULT m) (if sigPending s.mor seq then 3 else 0)
  | none => s.put (F.MOR_RRES_RESULT m) (if notYet s.mor seq then 2 else 1)

def execMorReadDone (m : Master) (s : State) : Host.Outcome State Fault Refusal := .next (morReadDone m s)

/-- The retract counts as done (R162): ACTST reads FULLPARK, or 70 ms have passed since the link was declared down. -/
def retractCounts (s : State) (linkDown70ms : Bool) : Bool :=
  decide (s.get F.FLNK_PD_ACTST = 0) || (linkDown70ms && !s.on F.FLNK_STAT_UP)

/-- RETREAT_RETRACT_DONE (R162): 0x0203 and the seal are enqueued once. -/
def retreatRetractDone (linkDown70ms : Bool) (s : State) : State :=
  if s.mode = mRETREAT ∧ ¬ s.mor.retreatDone ∧ retractCounts s linkDown70ms then
    let m := s.mor
    let p := leBytes 1 m.retreatCause ++ zeros 3 ++ leBytes 4 m.retreatProg ++
      leBytes 4 (m.lost - m.retreatLost).toNat
    let s := { s with mor := { m with retreatDone := true } }
    (s.ownEvent 0x0203 p).sealBatch 5
  else s

def execRetreatRetractDone (linkDown70ms : Bool) (s : State) : Host.Outcome State Fault Refusal :=
  .next (retreatRetractDone linkDown70ms s)

end Sys2Proof.Machine
end

