-- ==== Sys2Proof/Machine/Ord.lean ====
section
/-! DEFINITION. The commands of the rotational orderer (R400 to R411). -/

namespace Sys2Proof.Machine

open Sys2Proof

/-- A write of ASC_CTL.HWORD (R400): only SEC and MC, only while MEDIA_CNT is 0 and every MOP is FREE or DONE. -/
def hwordWrite (m : Master) (v : Word) (s : State) : State :=
  let idle := s.get F.ASC_STAT_MEDIA_CNT == 0 && (List.range 128).all fun t => mopState s t == mopFREE || mopState s t == mopDONE
  if (m = .sec ∨ m = .mc) ∧ idle then (s.putB F.ASC_CTL_HWORD (v.getLsbD 0)).ordSettle else s

def execHwordWrite (m : Master) (v : Word) (s : State) : Host.Outcome State Fault Refusal :=
  .next (s.byCore m R.ASC_CTL (v &&& 0xFFFFFFFD) fun s => hwordWrite m v s)

/-- Accept a request. -/
def State.ordAccept (s : State) (r : OrdReq) : State :=
  (s.onOrd fun o => { o with nextId := o.nextId + 1, reqs := o.reqs ++ [{ r with id := o.nextId, since := angleNow s }] }).ordSettle

/-- A write of ORD_RQ3 (R402, R411): BADARG, FULL, or a request of the fields in the bank. -/
def ordRequest (m : Master) (v : Word) (errs : List RmeErr) (s : State) : State :=
  let buf := s.get (F.ORD_RQ2_BUF m)
  let write := s.on (F.ORD_RQ1_DIR m)
  let xts := s.on (F.ORD_RQ1_XTS m)
  let retry := s.on (F.ORD_RQ1_RETRY m)
  if m = .sv then s
  else if buf % 4096 ≠ 0 ∨ ¬ inFrames buf ∨ (¬ xts ∧ s.on F.DMA_CTL_XTSREQ) ∨ (write ∧ retry) then s.put (F.ORD_RQRES_RESULT m) 2
  else if s.ord.reqs.length ≥ 512 then s.put (F.ORD_RQRES_RESULT m) 1
  else (s.put (F.ORD_RQRES_RESULT m) 0).ordAccept
    { id := 0, core := m, rtag := bitsOf v 7 0, mlba := s.get (F.ORD_RQ0_MLBA m) + s.get (F.ORD_RQ1_MLBA m) * rev
      offs := List.range (s.get (F.ORD_RQ1_NSECM1 m) + 1), write, cont := s.on (F.ORD_RQ1_CONT m), retry
      final := s.on (F.ORD_RQ1_FINAL m), xts, party := s.get (F.ORD_RQ1_PARTY m), buf, since := 0, errs }

def execOrdRequest (m : Master) (v : Word) (errs : List RmeErr) (s : State) : Host.Outcome State Fault Refusal :=
  .next (s.byCore m 0x4000260C v fun s => ordRequest m v errs s)

/-- The orderer takes the oldest clean-queue entry as a write request of its owner (R408). Its descriptors have XTS = 1
where XTSREQ asks for it (DEDUCED, log entry 41). -/
def ordClqTake (errs : List RmeErr) (s : State) : State :=
  match s.firn.clq with
  | e :: l =>
    if ¬ s.on F.ASC_CTL_HWORD ∨ ¬ firnAwake s ∨ s.ord.reqs.length ≥ 512 then s else
    let s := s.onFirn fun f => { f with clq := l }
    s.ordAccept { id := 0, core := .mc, rtag := 0xFF, mlba := e.lba, offs := sectorsOf e.mask, write := true, cont := false
                  retry := false, final := false, xts := s.on F.DMA_CTL_XTSREQ, party := e.owner, buf := e.frame, clq := some e
                  since := 0, errs }
  | [] => s

def execOrdClqTake (errs : List RmeErr) (s : State) : Host.Outcome State Fault Refusal := .next (ordClqTake errs s)

/-- A request has been pending for AGE revolutions; an AGE of 0 is taken as 1 (R406). -/
def aged (s : State) (r : OrdReq) : Bool := decide (r.since + Nat.max (s.get F.ORD_CTL_AGE) 1 * rev ≤ angleNow s)

/-- Requests become urgent (R406). -/
def ordUrgent (s : State) : State :=
  s.onOrd fun o => { o with reqs := o.reqs.map fun (r : OrdReq) => if aged s r then { r with urgent := true } else r }

def execOrdUrgent (s : State) : Host.Outcome State Fault Refusal := .next (ordUrgent s)

/-- A request has an operation that waits. -/
def hasPending (r : OrdReq) : Bool := r.ops.any fun (o : OrdOp) => !o.fin && o.tag.isNone

/-- The candidates of R405: the oldest urgent request, the requests of the party with the largest deficit if that
exceeds one revolution, or all. -/
def candidates (s : State) : List OrdReq :=
  let l := s.ord.reqs.filter hasPending
  match l.find? fun (r : OrdReq) => r.urgent || aged s r with
  | some r => [r]
  | none =>
    let best := (List.range 16).foldl (fun (b : Option Nat) p =>
      if l.any fun (r : OrdReq) => r.party == p then match b with
        | some q => if shareDeficit s q < shareDeficit s p then some p else b
        | none => some p
      else b) none
    match best with
    | some p => if 256 * (rev : Int) < shareDeficit s p then l.filter fun (r : OrdReq) => r.party == p else l
    | none => l

/-- The cost of moving to an operation, in ticks (R405). -/
def seekCost (s : State) (o : OrdOp) : Nat :=
  let t := s.get F.SRV_PTRK_PTRK
  let d := (o.track - t) + (t - o.track)
  let bucket := if d = 0 then 0 else Nat.min 15 (Nat.log2 d + 1)
  (s.get (F.ORD_SEEK_COST bucket) + if o.head ≠ s.get F.SRV_STAT_HEAD then s.get F.ORD_CTL_HSW else 0) * 65536

/-- The operation of the earliest arrival, of the oldest request on a tie. -/
def chooseTarget (s : State) : Option OrdOp :=
  let ops := (candidates s).flatMap fun (r : OrdReq) => r.ops.filter fun (o : OrdOp) => !o.fin && o.tag.isNone
  let arrival (o : OrdOp) : Nat := passage (opTgt s o) (angleNow s + seekCost s o)
  ops.foldl (fun (b : Option OrdOp) o => match b with
    | some a => if arrival o < arrival a then some o else some a
    | none => some o) none

/-- With no armed operation and work pending, the orderer posts the next target and raises SV's line 15 (R403, R405). -/
def ordSelectTarget (s : State) : State :=
  if ¬ ordMay s ∨ s.on F.ORD_NEXT_VALID ∨ ¬ (armedOps s).isEmpty then s else
  match chooseTarget s with
  | none => s
  | some o => (((s.put F.ORD_NEXT_TRK o.track).put F.ORD_NEXT_HEAD o.head).raiseBit F.ORD_NEXT_VALID).setIn F.SRV_AIRQ_LINE 15

def execOrdSelectTarget (s : State) : Host.Outcome State Fault Refusal := .next (ordSelectTarget s)

/-- SV's write of ORD_ACK (R403, R404). -/
def ordAck (m : Master) (v : Word) (s : State) : State :=
  if m ≠ .sv then s
  else if s.on F.ORD_NEXT_VALID ∧ bitsOf v 23 0 = s.get F.ORD_NEXT_TRK ∧ bitsOf v 28 24 = s.get F.ORD_NEXT_HEAD then
    ((s.clr F.ORD_NEXT_VALID).onOrd fun o => { o with pos := some (bitsOf v 28 24, bitsOf v 23 0) }).ordSettle
  else s.raiseBit F.ORD_STAT_ACKERR

def execOrdAck (m : Master) (v : Word) (s : State) : Host.Outcome State Fault Refusal :=
  .next (s.byCore m R.ORD_ACK v fun s => ordAck m v s)

/-- ORD_RESPOP removes the oldest result of the bank; SV has none (R411). -/
def ordRespop (m : Master) (s : State) : State :=
  let l := (tabGet s.ord.results [] m.idx).drop 1
  if m = .sv then s
  else (s.onOrd fun o => { o with results := tabPut o.results [] m.idx l }).putB (F.ORD_EVT_RESV m) (!l.isEmpty)

def execOrdRespop (m : Master) (s : State) : Host.Outcome State Fault Refusal :=
  .next (s.byCore m 0x40002620 1 fun s => ordRespop m s)

/-- SEC's write of ORD_SHARE (R406, R411, R414): ignored if the shares would exceed 256, or under the isolation lock. -/
def ordShareWrite (m : Master) (p : BitVec 4) (v : Word) (s : State) : State :=
  let others := (((List.range 16).filter (· != p.toNat)).map fun q => s.get (F.ORD_SHARE_SHARE q)).foldl (fun a b => a + b) 0
  if m ≠ .sec ∨ s.on F.ISO_STAT_LOCKED ∨ others + bitsOf v 7 0 > 256 then s else s.put (F.ORD_SHARE_SHARE p.toNat) (bitsOf v 7 0)

def execOrdShareWrite (m : Master) (p : BitVec 4) (v : Word) (s : State) : Host.Outcome State Fault Refusal :=
  .next (s.byCore m (0x40002180 + 4 * p.toNat) v fun s => ordShareWrite m p v s)

end Sys2Proof.Machine
end

