-- ==== Sys2Proof/Machine/Pcm.lean ====
section
/-! DEFINITION. The commands of supplies, modes and the droop governor (chapter 4). -/

namespace Sys2Proof.Machine

open Sys2Proof

/-! ### Supplies and triggers -/

/-- PWR_RSTN_FALL (R100). -/
def execPwrRstnFall (t : Trans) (s : State) : Host.Outcome State Fault Refusal :=
  .next ((s.onPcm fun c => { c with rstn := false }).retreatTrigger 4 t)

/-- A byte lies in a sector being erased. -/
def inErase (s : State) (a : Nat) : Bool :=
  match (s.bank (bankOf a)).erase with
  | some e => !(s.bank (bankOf a)).susp && decide (sectorAddr e.sector ≤ a) && decide (a < sectorAddr e.sector + 0x10000)
  | none => false

/-- What a cell holds after the supply has gone: in a sector being erased anything; in a page being programmed a bit that was to
be 0 may still be 1 (R171, R502). -/
def State.leftCell (s : State) (c : Host.Cell) : State :=
  if inErase s c.1 then s.stoWrite c.1 [c.2]
  else match (s.bank (bankOf c.1)).prog with
    | some p => if p.page ≤ c.1 ∧ c.1 < p.page + 512 then s.stoProgram c.1 [programByte p (c.1 - p.page) ||| c.2] else s
    | none => s

/-- RAIL_COLLAPSE (R502): every state is lost but the Store die's cells, the fuses and the Power die, which has its own
supplies. `left` is what the cells hold that were being programmed or erased. -/
def railCollapse (left : List Host.Cell) (s : State) : State :=
  let s := State.each (fun b s => s.cutErase b) (List.range 16) s
  let s := State.each (fun c s => s.leftCell c) left s
  let banks := (List.range 16).foldl (fun t b => tabPut t {} b (s.bank b).afterReset) ([] : Tab Bank)
  let off : State := {
    pending := s.pending
    part := s.part
    store := s.store
    sto := { banks, info := s.sto.info }
    pd := s.pd
    msq := { s.msq with staging := [], sends := 0 }
    link := { power := s.link.power, up := s.link.up }
    pcm := { rstn := s.pcm.rstn, bay := s.pcm.bay }
    sst := { fuses := s.sst.fuses, fuseOwed := s.sst.fuseOwed }
    ports := s.ports.map fun (x : Nat × Port) => (x.1, ({ perst := x.2.perst } : Port))
    out := s.out
    uqi := { never := s.uqi.never, moved := s.uqi.moved, owned := s.uqi.owned }
    draws := s.draws }
  off.put F.PCM_MODE_MODE mOFF

def execRailCollapse (left : List Host.Cell) (s : State) : Host.Outcome State Fault Refusal := .next (railCollapse left s)

/-- PWR_RSTN_RISE (R99, R100, R506): from OFF, with VAON in range, THAW is entered at the edge, from nothing that is volatile;
in RETREAT the level counts towards its end. With VAON out of its range the edge has no effect. -/
def pwrRstnRise (vaon : Bool) (s : State) : State :=
  if ¬ vaon then s
  else if s.mode = mOFF then ((railCollapse [] s).onPcm fun c => { c with rstn := true }).thawEntry 0 0
  else s.onPcm fun c => { c with rstn := true }

def execPwrRstnRise (vaon : Bool) (s : State) : Host.Outcome State Fault Refusal := .next (pwrRstnRise vaon s)

/-- A supply of the Power die is lost (R98, R245): hold-up is entered, and the Logic die hears of it over the link. -/
def supplyLoss (bit : Nat) (t : Trans) (s : State) : State :=
  let s := s.onPd holdupEntry
  if s.link.logic.up then s.retreatTrigger bit t else s

/-- VMOT_LOSS (R98). -/
def execVmotLoss (t : Trans) (s : State) : Host.Outcome State Fault Refusal :=
  .next (supplyLoss 0 t (s.onPd fun p => { p with vmotl := true }))

/-- VIN5_LOSS (R98). -/
def execVin5Loss (t : Trans) (s : State) : Host.Outcome State Fault Refusal :=
  .next (supplyLoss 1 t (s.onPd fun p => { p with vin5l := true }))

/-- VMOT_RETURN (R99). -/
def execVmotReturn (s : State) : Host.Outcome State Fault Refusal := .next (s.onPd fun p => { p with vmotl := false })

/-- VIN5_RETURN (R99). -/
def execVin5Return (s : State) : Host.Outcome State Fault Refusal := .next (s.onPd fun p => { p with vin5l := false })

/-- BAY_WITHDRAWAL (R101). -/
def execBayWithdrawal (t : Trans) (s : State) : Host.Outcome State Fault Refusal :=
  .next ((s.onPcm fun c => { c with bay := true }).retreatTrigger 3 t)

/-- REINSERTION (R99). -/
def execReinsertion (s : State) : Host.Outcome State Fault Refusal := .next (s.onPcm fun c => { c with bay := false })

/-- The conditions that end RETREAT when they hold together for 100 ms (Table 4.6). -/
def retreatOver (s : State) : Bool :=
  s.mode == mRETREAT && s.on F.PCM_STAT_RDONE && s.pcm.rstn && !s.pcm.bay && !s.pd.vmotl && !s.pd.vin5l

/-- RETREAT_END (R99). -/
def retreatEnd (us : BitVec 32) (s : State) : State := if retreatOver s then s.thawEntry 1 us.toNat else s

def execRetreatEnd (us : BitVec 32) (s : State) : Host.Outcome State Fault Refusal := .next (retreatEnd us s)

/-! ### Requests (R96, R97) -/

/-- Who may ask: DENIED is set for a master other than SEC or MC; a request while one is pending is BUSY. R96 gives MC's request
for a THAW exit or REBOOT while PEND = 1 both ILLEGAL and BUSY, in no order: the model answers BUSY (DESIGN CHOICE, log
entry 102). In OFF there is no PCM to ask (R502). -/
def State.pcmRequest (s : State) (m : Master) (go : State → State) : State :=
  if s.mode = mOFF then s
  else if m ≠ .sec ∧ m ≠ .mc then s.raiseBit F.PCM_STAT_DENIED
  else if s.on F.PCM_STAT_PEND then s.put F.PCM_STAT_RESULT 3
  else go s

def State.illegal (s : State) : State := s.put F.PCM_STAT_RESULT 1
def State.notReady (s : State) : State := s.put F.PCM_STAT_RESULT 5

/-- THAW may end towards DRIFT: every image verified, the ATB LOCKED and the spindle at speed (Table 4.6). -/
def thawReady (s : State) : Bool :=
  s.on F.SST_STAT_ALLOK && s.get F.ATB_STAT_STATE == 2 && s.get F.FLNK_PD_SPST == 3

/-- The exit from DORMANT is asked for. -/
def State.askWake (s : State) (final : Nat) : State :=
  if s.get F.FLNK_SPD_TARGET = 0 then s.notReady else s.wakeStart final

/-- MODE_REQ_FLOW (R97). -/
def modeReqFlow (m : Master) (t : Trans) (s : State) : State :=
  s.pcmRequest m fun s =>
    if s.mode = mTHAW then
      if m ≠ .sec then s.illegal
      else if thawReady s then ((s.put F.PCM_STAT_RESULT 0).enterDrift t).enterFlow t |>.modeSettle
      else s.notReady
    else if s.mode = mDRIFT then ((s.put F.PCM_STAT_RESULT 0).enterFlow t).modeSettle
    else if s.mode = mDORMANT then s.askWake mFLOW
    else s.illegal

def execModeReqFlow (m : Master) (t : Trans) (s : State) : Host.Outcome State Fault Refusal :=
  .next (s.byCore m R.PCM_CMD 2 fun s => modeReqFlow m t s)

/-- MODE_REQ_DRIFT (R98). -/
def modeReqDrift (m : Master) (t : Trans) (s : State) : State :=
  s.pcmRequest m fun s =>
    if s.mode = mTHAW then
      if m ≠ .sec then s.illegal
      else if thawReady s then ((s.put F.PCM_STAT_RESULT 0).enterDrift t).modeSettle
      else s.notReady
    else if s.mode = mFLOW then s.pcmPend mDRIFT .leaveFlow
    else if s.mode = mDORMANT then s.askWake mDRIFT
    else s.illegal

def execModeReqDrift (m : Master) (t : Trans) (s : State) : Host.Outcome State Fault Refusal :=
  .next (s.byCore m R.PCM_CMD 3 fun s => modeReqDrift m t s)

/-- MODE_REQ_DORMANT (R98). -/
def modeReqDormant (m : Master) (s : State) : State :=
  s.pcmRequest m fun s =>
    if s.mode = mTHAW then
      if m ≠ .sec then s.illegal
      else if s.on F.SST_STAT_ALLOK then s.pcmPend mDORMANT .sleep
      else s.notReady
    else if s.mode = mFLOW then s.pcmPend mDORMANT .leaveFlow
    else if s.mode = mDRIFT then s.pcmPend mDORMANT .sleep
    else s.illegal

def execModeReqDormant (m : Master) (s : State) : Host.Outcome State Fault Refusal :=
  .next (s.byCore m R.PCM_CMD 4 fun s => modeReqDormant m s)

/-- MODE_REQ_RETREAT (R96): from SEC or MC, whether or not a transition is pending. -/
def modeReqRetreat (m : Master) (t : Trans) (s : State) : State :=
  if s.mode = mOFF then s
  else if m ≠ .sec ∧ m ≠ .mc then s.raiseBit F.PCM_STAT_DENIED
  else if s.mode = mRETREAT then s.illegal
  else (s.put F.PCM_STAT_RESULT 0).retreatTrigger 6 t

def execModeReqRetreat (m : Master) (t : Trans) (s : State) : Host.Outcome State Fault Refusal :=
  .next (s.byCore m R.PCM_CMD 5 fun s => modeReqRetreat m t s)

/-- The guarded dirty set is empty (Table 4.6): no Firn sector has D = 1. -/
def dirtyEmpty (s : State) : Bool :=
  s.firn.tags.all fun (x : Nat × FTag) => match x.2.held with
    | some g => g.d == 0
    | none => true

/-- MODE_REQ_REBOOT (R96). -/
def modeReqReboot (m : Master) (us : BitVec 32) (s : State) : State :=
  s.pcmRequest m fun s =>
    if m ≠ .sec ∨ s.mode = mRETREAT then s.illegal
    else if dirtyEmpty s then s.rebootNow us.toNat
    else s.put F.PCM_STAT_RESULT 4

def execModeReqReboot (m : Master) (us : BitVec 32) (s : State) : Host.Outcome State Fault Refusal :=
  .next (s.byCore m R.PCM_CMD 6 fun s => modeReqReboot m us s)

/-! ### Pending transitions (R102) -/

/-- The channel and the media entries are idle (Table 4.8). -/
def mediaIdle (s : State) : Bool := s.get F.ASC_STAT_MEDIA_CNT == 0 && s.chn.act.isNone && s.chn.pend.isNone

/-- QUIESCE_DONE (R102): the pending step completes once its resources are idle, and so does the gating after a spin-up that
failed. -/
def quiesceDone (t : Trans) (s : State) : State :=
  match s.pcm.pend with
  | none => s.pcmRegate
  | some p =>
    match p.step with
    | .leaveFlow =>
      if mediaIdle s then
        let s := s.enterMode mDRIFT 1 t
        if p.final = mDORMANT then s.sleepStart p.final p.source else (s.pcmDone 0).modeSettle
      else s
    | .sleep => if dmaIdle s then ((s.pcmDone 0).enterDormant t).modeSettle else s
    | .wake => s

def execQuiesceDone (t : Trans) (s : State) : Host.Outcome State Fault Refusal := .next (quiesceDone t s)

/-- QUIESCE_TIMEOUT (R102): the transition is abandoned, and held descriptors start. -/
def quiesceTimeout (s : State) : State :=
  match s.pcm.pend with
  | none => s
  | some p =>
    match p.step with
    | .leaveFlow => if mediaIdle s then s else (s.abandon p 2).modeSettle
    | .sleep => if dmaIdle s then s else ((s.abandon p 1).dmaRelease).modeSettle
    | .wake => s

def execQuiesceTimeout (s : State) : Host.Outcome State Fault Refusal := .next (quiesceTimeout s)

/-- DORMANT_EXIT_DONE (R98): the spindle is at speed and the ATB LOCKED. -/
def dormantExitDone (t : Trans) (s : State) : State :=
  match s.pcm.pend with
  | none => s
  | some p =>
    if p.step = .wake ∧ s.get F.FLNK_PD_SPST = 3 ∧ s.get F.ATB_STAT_STATE = 2 then
      let s := (s.pcmDone 0).enterDrift t
      (if p.final = mFLOW then s.enterFlow t else s).modeSettle
    else s

def execDormantExitDone (t : Trans) (s : State) : Host.Outcome State Fault Refusal := .next (dormantExitDone t s)

/-- Nothing is queued on a port, outstanding, or bound to it (Table 4.8, R353). -/
def portQuiet (s : State) (q : Nat) : Bool :=
  ((List.range 16).all fun c => !((s.chan c).live && hostEnd (s.dsc c) && (s.dsc c).port == q)) &&
  ((List.range 16).all fun p => curPort s p != q || tabGet s.uqi.fetch 0 p == 0) &&
  ((List.range 64).all fun r => curPort s (sqParty s r) != q || (s.sq r).burst == 0) &&
  (s.uqi.cpls.all fun (c : Cpl) => curPort s (cqParty s c.cq) != q || c.slot.isNone) &&
  (s.uqi.jobs.all fun (j : XJob) => j.page.isNone)

/-- ASPM_L1_ENTRY (R102). -/
def aspmL1Entry (q : BitVec 1) (s : State) : State :=
  if (s.port q.toNat).dl ∧ s.mode ≠ mRETREAT ∧ s.mode ≠ mOFF ∧ portQuiet s q.toNat then
    s.onPort q.toNat fun (p : Port) => { p with l1 := true }
  else s

def execAspmL1Entry (q : BitVec 1) (s : State) : Host.Outcome State Fault Refusal := .next (aspmL1Entry q s)

/-! ### The droop governor (R90 to R105) -/

/-- A sample reaches the status fields and the figures of record 0x0602. -/
def State.droopSample (s : State) (code : Nat) : State :=
  let s := (s.put F.DRP_STAT_NOW code).put F.DRP_STAT_MINSEEN (Nat.min code (s.get F.DRP_STAT_MINSEEN))
  s.onPcm fun c => { c with lowest := Nat.min code c.lowest, epLow := Nat.min code c.epLow }

/-- DROOP_SLOW (R90): `code` is the second of two consecutive samples at or below SLOW. -/
def droopSlow (code : BitVec 8) (s : State) : State :=
  if s.mode = mOFF ∨ code.toNat > s.get F.DRP_CTL_SLOW ∨ s.on F.DRP_STAT_SLOWED then s
  else
    let s := s.onPcm fun c => { c with episodes := c.episodes + 1, epLow := 0xFF }
    ((s.raiseBit F.DRP_STAT_SLOWED).inc F.DRP_CNT_SLOW_CNT).droopSample code.toNat

def execDroopSlow (code : BitVec 8) (s : State) : Host.Outcome State Fault Refusal := .next (droopSlow code s)

/-- DROOP_RELEASE (R91): the episode ends at a sample of `code`, after `ns` of slowed time with `low` as its lowest. Slowed time
is accumulated when an episode ends: of one that is in progress when a record 0x0602 is written, the record has the
episode's count and the next record all its slowed time. R105 does not say how such an episode is split (DESIGN CHOICE, log
entry 103). -/
def droopRelease (code low : BitVec 8) (ns : BitVec 32) (s : State) : State :=
  if ¬ s.on F.DRP_STAT_SLOWED ∨ code.toNat < s.get F.DRP_CTL_REL then s
  else
    let s := ((s.droopSample low.toNat).droopSample code.toNat).clr F.DRP_STAT_SLOWED
    let total := s.get F.DRP_SLT_LO_SLT + s.pcm.sltHi * 4294967296 + ns.toNat
    let s := s.put F.DRP_SLT_LO_SLT total
    let s := s.onPcm fun c => { c with slowed := c.slowed + ns.toNat, sltHi := total / 4294967296 % 4294967296 }
    if s.on F.DRP_IEN_EPI then s.emit (.blockIrq .mc "DRP") else s

def execDroopRelease (code low : BitVec 8) (ns : BitVec 32) (s : State) : Host.Outcome State Fault Refusal :=
  .next (droopRelease code low ns s)

/-- DEEP_DROOP (R92, R105): record 0x0601 and the RETREAT trigger. `ns` is the slowed time of the episode so far. -/
def deepDroop (code : BitVec 8) (ns : BitVec 32) (t : Trans) (s : State) : State :=
  if s.mode = mOFF ∨ code.toNat > s.get F.DRP_CTL_DEEP then s
  else
    let s := (s.droopSample code.toNat).raiseBit F.DRP_STAT_DEEPHIT
    let s := s.setIn F.PCM_CAUSE_CAUSE 2
    let s := s.event 0x0601 0xFF (leBytes 1 (s.get F.PCM_CAUSE_CAUSE) ++ leBytes 1 s.pcm.epLow ++ leBytes 1 (s.get F.DRP_CTL_DEEP) ++
      leBytes 1 (s.get F.DRP_TIME_DEEP_FILT) ++ leBytes 4 ns.toNat)
    s.retreatTrigger 2 t

def execDeepDroop (code : BitVec 8) (ns : BitVec 32) (t : Trans) (s : State) : Host.Outcome State Fault Refusal :=
  .next (deepDroop code ns t s)

/-- DROOP_SUMMARY (R105): record 0x0602, only if an episode has occurred since the last. Its 2-byte count carries the low 16 bits
of the number of episodes: R105 gives no saturation (DESIGN CHOICE, log entry 103). -/
def droopSummary (s : State) : State :=
  let c := s.pcm
  if c.episodes = 0 ∨ s.mode = mOFF then s
  else
    let s := s.event 0x0602 0xFF (leBytes 2 c.episodes ++ leBytes 1 c.lowest ++ leBytes 1 (s.get F.DRP_CTL_SLOW) ++ leBytes 8 c.slowed)
    s.onPcm fun c => { c with episodes := 0, lowest := 0xFF, slowed := 0 }

def execDroopSummary (s : State) : Host.Outcome State Fault Refusal := .next (droopSummary s)

end Sys2Proof.Machine
end

