-- ==== Sys2Proof/Machine/Store.lean ====
section
/-! DEFINITION. The commands of the Store die controller (chapter 7). -/

namespace Sys2Proof.Machine

open Sys2Proof

/-- STORE_READ (R166): a core reads the array window; `cells` are the thresholds of the cells it reads (R178). -/
def storeRead (m : Master) (a : BitVec 28) (width : Nat) (cells : List Nat) (s : State) : State :=
  let ans := s.arrayRead (.core m) (0x20000000 + a.toNat) width cells
  let bs := ans.1
  let s := ans.2
  s.emit (.coreData m (leNat bs))

def execStoreRead (m : Master) (a : BitVec 28) (width : Nat) (cells : List Nat) (s : State) :
    Host.Outcome State Fault Refusal := .next (storeRead m a width cells s)

/-- SEQUENCE_CYCLE (R169): a store in the array window. -/
def execSequenceCycle (r : Req) (a : BitVec 28) (width : Nat) (v : Word) (s : State) :
    Host.Outcome State Fault Refusal :=
  .next (s.byReq r (0x20000000 + a.toNat) width v fun s => storeFaults (s.arrayStore r (0x20000000 + a.toNat) width v.toNat))

/-- SEQUENCE_TIMEOUT (R169): a gap of more than 100 µs ends the sequence a master has in a bank. -/
def sequenceTimeout (r : Req) (b : BitVec 4) (s : State) : State :=
  if (s.seqState b.toNat r).pos = .idle then s else s.seqError r (0x20000000 + b.toNat * 0x1000000)

def execSequenceTimeout (r : Req) (b : BitVec 4) (s : State) : Host.Outcome State Fault Refusal :=
  .next (sequenceTimeout r b s)

/-- The array address of a bank's base. -/
def bankBase (b : BitVec 4) : Nat := 0x20000000 + b.toNat * 0x1000000

/-- READ_ARRAY (R170): margin and info mode and a pending status read end; in the middle of a sequence it is a
sequence error (R169). -/
def execReadArray (r : Req) (a : BitVec 28) (s : State) : Host.Outcome State Fault Refusal :=
  .next (s.byReq r (0x20000000 + a.toNat / 4 * 4) 4 0x0000C33C fun s => s.arrayStore r (0x20000000 + a.toNat / 4 * 4) 4 0x0000C33C)

/-- The third cycle of a sequence at KA, where the key cycles have been given. -/
def keyedCommand (r : Req) (b : BitVec 4) (v : Nat) (s : State) : State :=
  if (s.seqState b.toNat r).pos = .setup then s.arrayStore r (bankBase b + keyA) 4 v else s

/-- STATUS_READ (R175). -/
def execStatusRead (r : Req) (b : BitVec 4) (s : State) : Host.Outcome State Fault Refusal :=
  .next (s.byReq r (bankBase b + keyA) 4 0x0000A15E fun s => keyedCommand r b 0x0000A15E s)

/-- CLEAR_STATUS (R175). -/
def execClearStatus (r : Req) (b : BitVec 4) (s : State) : Host.Outcome State Fault Refusal :=
  .next (s.byReq r (bankBase b + keyA) 4 0x0000A35C fun s => keyedCommand r b 0x0000A35C s)

/-- MARGIN_READ (R178): program verify, or erase verify where `eraseVerify` holds. -/
def execMarginRead (r : Req) (b : BitVec 4) (eraseVerify : Bool) (s : State) : Host.Outcome State Fault Refusal :=
  .next (s.byReq r (bankBase b + keyA) 4 (if eraseVerify then 0x0002B24D else 0x0001B24D) fun s => keyedCommand r b (if eraseVerify then 0x0002B24D else 0x0001B24D) s)

/-- INFO_MODE (R182). -/
def execInfoMode (r : Req) (b : BitVec 4) (s : State) : Host.Outcome State Fault Refusal :=
  .next (s.byReq r (bankBase b + keyA) 4 0x0000E619 fun s => keyedCommand r b 0x0000E619 s)

/-- BUFFER_PROGRAM (R171): the confirm word arrives at PA after the Nth data cycle. -/
def bufferProgram (r : Req) (b : BitVec 4) (s : State) : State :=
  match (s.seqState b.toNat r).pos with
  | .data page n got => if got.length = n then storeFaults (s.arrayStore r page 4 0x00008B74) else s
  | .idle => s
  | .key2 => s
  | .setup => s
  | .erase => s

def execBufferProgram (r : Req) (b : BitVec 4) (s : State) : Host.Outcome State Fault Refusal :=
  .next (bufferProgram r b s)

/-- SECTOR_ERASE (R173): the confirm word arrives at SA. -/
def sectorErase (r : Req) (a : BitVec 28) (s : State) : State :=
  let addr := 0x20000000 + a.toNat / 4 * 4
  if (s.seqState (bankOf addr) r).pos = .erase then s.arrayStore r addr 4 0x0000D42B else s

def execSectorErase (r : Req) (a : BitVec 28) (s : State) : Host.Outcome State Fault Refusal :=
  .next (s.byReq r (0x20000000 + a.toNat / 4 * 4) 4 0x0000D42B fun s => sectorErase r a s)

/-- ERASE_SUSPEND (R174). -/
def execEraseSuspend (r : Req) (a : BitVec 28) (s : State) : Host.Outcome State Fault Refusal :=
  .next (s.byReq r (0x20000000 + a.toNat / 4 * 4) 4 0x00009A65 fun s => s.arrayStore r (0x20000000 + a.toNat / 4 * 4) 4 0x00009A65)

/-- ERASE_RESUME (R174). -/
def execEraseResume (r : Req) (a : BitVec 28) (s : State) : Host.Outcome State Fault Refusal :=
  .next (s.byReq r (0x20000000 + a.toNat / 4 * 4) 4 0x0000956A fun s => s.arrayStore r (0x20000000 + a.toNat / 4 * 4) 4 0x0000956A)

/-- PAGE_WINDOW_STORE (R172). -/
def execPageWindowStore (r : Req) (a : BitVec 28) (width : Nat) (v : Word) (s : State) :
    Host.Outcome State Fault Refusal :=
  .next (s.byReq r (0x30000000 + a.toNat) width v fun s => storeFaults (s.windowStore r (0x20000000 + a.toNat) width v.toNat))

/-- The bytes a program leaves: bits go from 1 to 0 only (R171). -/
def State.applyProgram (s : State) (p : ProgOp) : State :=
  State.each (fun d s => s.stoProgram (p.page + d.1) [d.2]) p.data s

/-- What a failed program leaves of a page: the bits that were to be programmed are 0, but for those that `left` shows as 1
(R171). -/
def State.failedProgram (s : State) (p : ProgOp) (left : List Host.Cell) : State :=
  State.each (fun d s => s.stoProgram (p.page + d.1)
    [d.2 ||| ((left.find? fun (c : Host.Cell) => c.1 == p.page + d.1).map Prod.snd).getD 0xFF]) p.data s

/-- PROGRAM_DONE (R171): a page program of a core or a channel ends verified, or with PFAIL and the page as `left` shows it. -/
def programDone (b : BitVec 4) (ok : Bool) (left : List Host.Cell) (s : State) : State :=
  let k := s.bank b.toNat
  match k.prog with
  | none => s
  | some p =>
    if p.req = .recorder then s else
    let s := s.setBank b.toNat { k with prog := none, pfail := k.pfail || !ok }
    let s := s.setIn F.STO_DONE_BANK b.toNat
    let s := if ok then (match p.req with
        | .dma c => (s.applyProgram p).dmaPageDone c p.page
        | _ => s.applyProgram p)
      else (((s.failedProgram p left).inc F.STO_CNT_PFAIL_CNT).stoCapture 9 p.req p.page).tellChannel p.req 9
    (storeFaults (s.afterProgram b.toNat)).rdoneCheck

def execProgramDone (b : BitVec 4) (ok : Bool) (left : List Host.Cell) (s : State) :
    Host.Outcome State Fault Refusal := .next (programDone b ok left s)

/-- ERASE_DONE (R173): a sector erase ends; after a failure the sector holds what `left` shows. -/
def eraseDone (b : BitVec 4) (ok : Bool) (left : List Host.Cell) (s : State) : State :=
  let k := s.bank b.toNat
  match k.erase with
  | none => s
  | some op =>
    if k.susp || k.resumeDue || op.req == .recorder then s else
    let a := sectorAddr op.sector
    let s := (s.endErase b.toNat ok).stoErase a 0x10000
    let s := if ok then s else ((s.layCells (cellsIn a 0x10000 left)).inc F.STO_CNT_EFAIL_CNT).stoCapture 10 op.req a
    s.rdoneCheck

def execEraseDone (b : BitVec 4) (ok : Bool) (left : List Host.Cell) (s : State) :
    Host.Outcome State Fault Refusal := .next (eraseDone b ok left s)

/-- STORE_SCAN_DONE (R181): INCOMPLETE sectors are marked, bad headers start background erases, the counts are
read, READY sets and records 0x0704 are submitted. -/
def storeScanDone (s : State) : State :=
  if s.on F.STO_STAT_READY then s else
  let s := State.each (fun b s =>
    let k := s.bank b
    let good := decide (leNat (s.infoBytes b 12 4) = crc32c (s.infoBytes b 0 12))
    s.setBank b { k with inc := s.infoIncomplete b, infoErase := !good }) (List.range 16) s
  let s := s.put F.STO_STAT_FBCOUNT (leNat (s.infoBytes 16 12 2))
  let s := s.put F.STO_STAT_GBCOUNT s.grownUsed
  (s.raiseBit F.STO_STAT_READY).interruptedRecords

def execStoreScanDone (s : State) : Host.Outcome State Fault Refusal := .next (storeScanDone s)

/-- INFO_ROW_ERASE_DONE (R183): what the recorder has waiting for the bank starts. -/
def infoRowEraseDone (b : BitVec 4) (s : State) : State :=
  let k := s.bank b.toNat
  if k.infoErase then (((s.infoErase b.toNat).setBank b.toNat { k with infoErase := false }).rdoneCheck).morKick else s

def execInfoRowEraseDone (b : BitVec 4) (s : State) : Host.Outcome State Fault Refusal := .next (infoRowEraseDone b s)

/-- A sector of the fixed part of the destage area (R179, Table 19.1). -/
def destageFixed (n : Nat) : Bool := decide (2048 ≤ n) && decide (n % 256 ≤ 134)

/-- MARK_BAD (R179): a write of STO_MBAD starts an append, or is refused, or finds the table full. -/
def markBad (v : Word) (s : State) : State :=
  if s.on F.STO_MBRES_BUSY then s else
  let n := bitsOf v 11 0
  let cause := bitsOf v 14 12
  if sectorMoraine n || destageFixed n || sectorBad s n || !(s.bank (n / 256)).ready || cause == 0 || decide (cause > 4) then
    s.put F.STO_MBRES_RESULT 1
  else if s.get F.STO_STAT_GBCOUNT ≥ 1024 then s.put F.STO_MBRES_RESULT 2
  else
    let s := s.raiseBit F.STO_MBRES_BUSY
    { s with sto := { s.sto with mbad := some (n, cause) } }

def execMarkBad (v : Word) (s : State) : Host.Outcome State Fault Refusal := .next (markBad v s)

/-- MARK_BAD_DONE (R179, R184): the entry is appended and record 0x0703 submitted; a failed append leaves a torn
entry, which is used up. -/
def markBadDone (ok : Bool) (s : State) : State :=
  match s.sto.mbad with
  | none => s
  | some (n, cause) =>
    let j := s.get F.STO_STAT_GBCOUNT
    let e := leBytes 2 n ++ leBytes 2 (if ok then 65535 - n else 0) ++ leBytes 1 cause ++ zeros 3
    let s := s.infoWrite 16 (0x1000 + 8 * j) e
    let s := { s with sto := { s.sto with mbad := none } }
    let s := ((s.clr F.STO_MBRES_BUSY).put F.STO_STAT_GBCOUNT (j + 1)).put F.STO_MBRES_RESULT (if ok then 0 else 3)
    if ok then s.event 0x0703 0xFF (leBytes 2 n ++ leBytes 1 cause ++ zeros 1 ++ leBytes 2 j ++ zeros 2) else s

def execMarkBadDone (ok : Bool) (s : State) : Host.Outcome State Fault Refusal := .next (markBadDone ok s)

/-- WPROT_WRITE (R188): only SEC's write takes effect, and none after LOCK. -/
def wprotWrite (m : Master) (v : Word) (s : State) : State :=
  if m = .sec ∧ ¬ s.on F.STO_WPROT_LOCK then
    (s.put F.STO_WPROT_PROT (bitsOf v 5 0)).put F.STO_WPROT_LOCK (bitsOf v 31 31)
  else s

def execWprotWrite (m : Master) (v : Word) (s : State) : Host.Outcome State Fault Refusal :=
  .next (s.byCore m R.STO_WPROT v fun s => wprotWrite m v s)

/-- BANK_POWER_DOWN (R189): a requested bank that no transfer, program or erase uses powers down; `transfer` says
that a transfer uses it. -/
def bankPowerDown (b : BitVec 4) (transfer : Bool) (s : State) : State :=
  let k := s.bank b.toNat
  if s.bit F.STO_BPD_REQ b.toNat && b != 2 && b != 3 && !transfer && k.prog.isNone && k.erase.isNone && !k.infoErase then
    s.setIn F.STO_BPDS_DOWN b.toNat
  else s

def execBankPowerDown (b : BitVec 4) (transfer : Bool) (s : State) : Host.Outcome State Fault Refusal :=
  .next (bankPowerDown b transfer s)

end Sys2Proof.Machine
end

