-- ==== Sys2Proof/Machine/Uqi.lean ====
section
/-! DEFINITION. The commands of the host link and of the queue rings (chapters 15 and 16): ports, BAR0 setup writes,
fetches, completions, interrupts and the UQI registers of HC0 and HC1. -/

namespace Sys2Proof.Machine

open Sys2Proof

/-- A function that exists: number 0 on port A, 1 on port B, which PCIE_X2 = 1 takes away. -/
def hasPort (s : State) (q : Nat) : Bool := q == 0 || (q == 1 && !x2 s)

/-- A port's link carries requests: link up, PERST# high, and a mode in which the links run (Table 4.6). -/
def linkOn (s : State) (q : Nat) : Bool :=
  hasPort s q && (s.port q).dl && (s.port q).perst && s.mode != mRETREAT && s.mode != mOFF

/-- A memory request to BAR0 of a function is accepted. -/
def bar0On (s : State) (q : Nat) : Bool := linkOn s q && (s.port q).mse && !(s.port q).d3

/-! ### Ports and configuration space (R357, R358, R373, R376) -/

/-- PORT_UP (R358): the data link layer reports DL_Up with PERST# high; the port is up once every condition holds. -/
def linkTrained (q : BitVec 1) (s : State) : State :=
  let n := q.toNat
  if hasPort s n && s.mode != mRETREAT && s.mode != mOFF then
    (s.onPort n fun (p : Port) => { p with dl := true, perst := true }).portSettle n 0
  else s

def execPortUp (q : BitVec 1) (s : State) : Host.Outcome State Fault Refusal := .next (linkTrained q s)

/-- PORT_DOWN (R373): an event of Table 15.11 takes a port down. -/
def portDown (q : BitVec 1) (cause : BitVec 3) (s : State) : State :=
  let n := q.toNat
  if ¬ hasPort s n ∨ s.mode = mRETREAT ∨ s.mode = mOFF then s else
  match cause.toNat with
  | 1 => (s.onPort n fun (p : Port) => { p with dl := false }).portSettle n 1
  | 2 => ((s.onPort n fun (p : Port) => { p.functionReset with dl := false, perst := false }).hmwReset n).portSettle n 2
  | 3 => (s.onPort n Port.functionReset).portSettle n 3
  | 4 => (s.onPort n fun (p : Port) => { p with bme := false }).portSettle n 4
  | 5 => (s.onPort n fun (p : Port) => { p with d3 := true }).portSettle n 5
  | _ => s

def execPortDown (q : BitVec 1) (cause : BitVec 3) (s : State) : Host.Outcome State Fault Refusal :=
  .next (portDown q cause s)

/-- CONFIGURATION_REQUEST (R358): a configuration request reaches a function. -/
def configurationRequest (q : BitVec 1) (r : CfgReq) (s : State) : State :=
  let n := q.toNat
  if ¬ linkOn s n then s else
  match r with
  | .command mem master => (s.onPort n fun (p : Port) => { p with mse := mem, bme := master }).portSettle n 4
  | .bar0 v => s.onPort n fun (p : Port) => { p with bar := v &&& ~~~(0x3FFF : BitVec 64) }
  | .power true => (s.onPort n fun (p : Port) => { p with d3 := true }).portSettle n 5
  | .power false =>
    if (s.port n).d3 then (s.onPort n fun (p : Port) => { p.functionReset with d3 := false }).portSettle n 5 else s
  | .devCtl mps mrrs => s.onPort n fun (p : Port) =>
      { p with mps := if mps.toNat > 2 then 2 else mps, mrrs := if mrrs.toNat > 5 then 5 else mrrs }
  | .flr => (s.onPort n Port.functionReset).portSettle n 3
  | .msixCtl en mask => (s.onPort n fun (p : Port) => { p with msixEn := en, fmask := mask }).msixPending n
  | .readId => s.emit (.bar0Data n [0x76401E7C])
  | .readClass =>
    let (v, s) := s.draw
    s.emit (.bar0Data n [BitVec.ofNat 32 (0x01800000 + v.toNat % 256)])
  | .readBar => s.emit (.bar0Data n [BitVec.ofNat 32 ((s.port n).bar.toNat + 4), BitVec.ofNat 32 ((s.port n).bar.toNat / 2 ^ 32)])
  | .readBars => s.emit (.bar0Data n [0, 0, 0, 0, 0])
  | .readPin => s.emit (.bar0Data n [0])
  | .readSerial =>
    let v := leNat (s.infoBytes 16 4 8)
    s.emit (.bar0Data n [BitVec.ofNat 32 v, BitVec.ofNat 32 (v / 2 ^ 32)])

def execConfigurationRequest (q : BitVec 1) (r : CfgReq) (s : State) : Host.Outcome State Fault Refusal :=
  .next (configurationRequest q r s)

/-! ### Writes through BAR0 (R359 to R363, R375) -/

/-- A BAR0 write of a function takes effect. -/
def hostWrite (q : BitVec 1) (f : State → State) (s : State) : State := if bar0On s q.toNat then f s else s

/-- DBP_PORT_WRITE (R363): a write of DBP[p] +0x0. -/
def execDbpPortWrite (q : BitVec 1) (p : BitVec 4) (v : Word) (s : State) : Host.Outcome State Fault Refusal :=
  .next (hostWrite q (fun s => s.dbpWrite p.toNat v) s)

/-- RING_SETUP_WRITE (R361): a write to setup word w (0 to 2) of submission or completion ring r. -/
def execRingSetupWrite (q : BitVec 1) (cq : Bool) (r : BitVec 6) (w : BitVec 2) (v : Word) (s : State) :
    Host.Outcome State Fault Refusal :=
  .next (hostWrite q (fun s =>
    if w = 3 then s else if cq then s.cqSetup r.toNat w.toNat v else s.sqSetup r.toNat w.toNat v) s)

/-- SQ_ENABLE (R361): EN = 1 at a submission ring. -/
def execSqEnable (q : BitVec 1) (r : BitVec 6) (s : State) : Host.Outcome State Fault Refusal :=
  .next (hostWrite q (fun s => s.sqControl r.toNat 1) s)

/-- CQ_ENABLE (R361): EN = 1 at a completion ring, with AGGTIME. -/
def execCqEnable (q : BitVec 1) (r : BitVec 6) (aggtime : BitVec 8) (s : State) : Host.Outcome State Fault Refusal :=
  .next (hostWrite q (fun s => s.cqControl r.toNat (BitVec.ofNat 32 (1 + 256 * aggtime.toNat))) s)

/-- SQ_DISABLE (R362): EN = 0 at a submission ring. -/
def execSqDisable (q : BitVec 1) (r : BitVec 6) (s : State) : Host.Outcome State Fault Refusal :=
  .next (hostWrite q (fun s => s.sqControl r.toNat 0) s)

/-- SQ_DRAINED (R362): every command of a draining ring has its completion written. -/
def execSqDrained (r : BitVec 6) (s : State) : Host.Outcome State Fault Refusal := .next (s.sqDrained r.toNat)

/-- CQ_DISABLE (R362): EN = 0 at a completion ring. -/
def execCqDisable (q : BitVec 1) (r : BitVec 6) (s : State) : Host.Outcome State Fault Refusal :=
  .next (hostWrite q (fun s => s.cqDisable r.toNat) s)

/-- RESUME (R375), at a submission ring or at a completion ring. -/
def execResume (q : BitVec 1) (cq : Bool) (r : BitVec 6) (s : State) : Host.Outcome State Fault Refusal :=
  .next (hostWrite q (fun s => if cq then s.cqResume r.toNat else s.sqResume r.toNat) s)

/-- RING_RESET (R375). -/
def execRingReset (q : BitVec 1) (r : BitVec 6) (s : State) : Host.Outcome State Fault Refusal :=
  .next (hostWrite q (fun s => s.sqReset r.toNat) s)

/-- A write of HMWCTL: LOCK freezes it and every HMW until a conventional reset of both ports. -/
def State.hmwctl (s : State) (en lock : Bool) : State :=
  if s.on F.HMWCTL_LOCK then s else
  let s := s.putB F.HMWCTL_EN en
  if lock then (s.raiseBit F.HMWCTL_LOCK).onUqi fun u => { u with hmwReset := 0 } else s

/-- HOST_WINDOW_LOCK (R360): a write of HMWCTL with LOCK = 1. -/
def execHostWindowLock (q : BitVec 1) (en : Bool) (s : State) : Host.Outcome State Fault Refusal :=
  .next (hostWrite q (fun s => s.hmwctl en true) s)

/-- WAKE (R368): a write of WAKE[p] requests one doorbell fetch. -/
def execWake (q : BitVec 1) (p : BitVec 4) (s : State) : Host.Outcome State Fault Refusal :=
  .next (hostWrite q (fun s => s.dbRequest p.toNat) s)

/-- A write of an MSI-X table word of a function; unmasking sends a pending message (R370). -/
def State.msixWord (s : State) (q n : Nat) (v : Word) : State :=
  let v := if n % 4 = 3 then v &&& 1 else if n % 4 = 0 then v &&& 0xFFFFFFFC else v
  (s.onPort q fun (p : Port) => { p with table := Sparse.write (fun k => if k % 4 = 3 then 1 else 0) p.table n v }).msixPending q

/-- MSIX_UNMASK (R370): a vector's mask bit is cleared. -/
def execMsixUnmask (q : BitVec 1) (v : BitVec 5) (s : State) : Host.Outcome State Fault Refusal :=
  .next (hostWrite q (fun s => s.msixWord q.toNat (4 * v.toNat + 3) 0) s)

/-! ### Fetches (R366 to R371) -/

/-- DOORBELL_READ_DONE (R366): party p's doorbell page arrives. A read that fails is abandoned (DEDUCED, log entry 29). -/
def doorbellReadDone (p : BitVec 4) (e : HostEnd) (data : List Byte) (s : State) : State :=
  let n := p.toNat
  let h := tabGet s.uqi.fetch 0 n
  if h = 0 then s else
  let s := s.onUqi fun u => { u with fetch := tabPut u.fetch 0 n 0 }
  let s := if e = .ok then (s.onUqi fun u => { u with dbref := setBit u.dbref n false }).dbPage n h data else s
  let rep := s.uqi.again.testBit n
  let s := s.onUqi fun u => { u with again := setBit u.again n false }
  (if rep then s.dbRequest n else s).uqiRun

def execDoorbellReadDone (p : BitVec 4) (e : HostEnd) (data : List Byte) (s : State) :
    Host.Outcome State Fault Refusal := .next (doorbellReadDone p e data s)

/-- ENTRY_BURST_DONE (R369): a burst of ring r arrives; its entries are checked (R380). -/
def entryBurstDone (r : BitVec 6) (e : HostEnd) (data : List Byte) (errs : List RmeErr) (s : State) : State :=
  let n := r.toNat
  let q := s.sq n
  if q.burst = 0 then s else
  if e ≠ .ok then (s.setSq n { q with burst := 0, stalled := true }).uqiRun else
  let s := s.setSq n { q with burst := 0, fptr := (q.fptr + q.burst) % sqSize s n }
  ((State.takeEntries n (pieces 64 q.burst data) s).runChecks errs).uqiRun

def execEntryBurstDone (r : BitVec 6) (e : HostEnd) (data : List Byte) (errs : List RmeErr) (s : State) :
    Host.Outcome State Fault Refusal := .next (entryBurstDone r e data errs s)

/-- LIST_PAGE_READ_DONE (R371): the list page at `a` of command i arrives, or its read fails with kind 6. -/
def listPageReadDone (i : BitVec 10) (a : BitVec 64) (e : HostEnd) (data : List Byte) (s : State) : State :=
  let n := i.toNat
  match s.cmd n with
  | none => s
  | some k =>
    let waits := fun (j : XJob) => j.idx == n && j.page == some a.toNat
    if ¬ s.uqi.jobs.any waits then s
    else if e = .ok then
      let s := s.setCmd n (some { k with pages := k.pages ++ [(a.toNat, slice data 0 4096)] })
      (s.onUqi fun u => { u with jobs := u.jobs.map fun (j : XJob) => if waits j then { j with page := none } else j }).uqiRun
    else
      -- The transfer ends at the page; the bytes before it are moved.
      let jl := s.uqi.jobs.map fun (j : XJob) =>
        if waits j then { j with page := none, ranges := (walk s k (j.xoff + j.done) (j.xlen - j.done)).1, fault := some (21, 6) } else j
      ((s.onUqi fun u => { u with jobs := jl }).listFault k 6 (k.pages.length + 1) 0 a.toNat).uqiRun

def execListPageReadDone (i : BitVec 10) (a : BitVec 64) (e : HostEnd) (data : List Byte) (s : State) :
    Host.Outcome State Fault Refusal := .next (listPageReadDone i a e data s)

/-! ### Completions and messages (R370, R373) -/

/-- COMPLETION_WRITTEN (R373): the TLP with the completion of command-table entry i is acknowledged. -/
def execCompletionWritten (i : BitVec 10) (s : State) : Host.Outcome State Fault Refusal :=
  .next (s.cplWritten i.toNat).uqiRun

/-- MSIX_AGGREGATION_TIMEOUT (R370): AGGTIME has passed since the first completion not yet signalled. -/
def msixAggregationTimeout (r : BitVec 6) (s : State) : State :=
  let n := r.toNat
  if (s.cq n).unsig = 0 ∨ ¬ s.on (F.CQ_8_IEN n) ∨ s.get (F.CQ_C_AGGTIME n) = 0 then s else s.cqMessage n

def execMsixAggregationTimeout (r : BitVec 6) (s : State) : Host.Outcome State Fault Refusal :=
  .next (msixAggregationTimeout r s)

/-! ### The registers of HC0 and HC1 (R378) -/

def isHc (m : Master) : Bool := m == .hc0 || m == .hc1

/-- UQI_CPOST (R378): commit a completion for a command dispatched to the writing core. -/
def uqiCpost (m : Master) (v : Word) (s : State) : State :=
  if ¬ isHc m then s else
  let i := bitsOf v 9 0
  match s.cmd i with
  | some k =>
    if k.core = some m ∧ ¬ k.posted then
      ((s.clr (F.UQI_CPRES_BADINDEX m)).commitCpl i k (bitsOf v 23 16) (s.get (F.UQI_CPED_ED m)) (s.get (F.UQI_CPSPEC_SPEC m))).uqiRun
    else s.raiseBit (F.UQI_CPRES_BADINDEX m)
  | none => s.raiseBit (F.UQI_CPRES_BADINDEX m)

def execUqiCpost (m : Master) (v : Word) (s : State) : Host.Outcome State Fault Refusal :=
  .next (s.byCore m 0x4000B050 v fun s => uqiCpost m v s)

/-- UQI_XCMD (R378): queue a host transfer. One that the command cannot have moves nothing and ends with BADDESC (DEDUCED, log
entry 30). -/
def uqiXcmd (m : Master) (v : Word) (s : State) : State :=
  if ¬ isHc m then s else
  if (s.uqi.jobs.filter fun (j : XJob) => j.core == m).length ≥ 32 then s.raiseBit F.UQI_EVT_XFULL else
  let j : XJob := {
    core := m
    idx := bitsOf v 9 0
    xbuf := s.get (F.UQI_XBUF_ADDR m)
    xoff := s.get (F.UQI_XOFF_OFF m)
    xlen := s.get (F.UQI_XLEN_LEN m)
    out := bitsOf v 10 10 == 1
    pi := bitsOf v 11 11 == 1
    xtag := bitsOf v 23 16 }
  let ok := match s.cmd j.idx with
    | some k => k.core == some m && !k.posted && decide (0 < j.xlen) && decide (j.xoff + j.xlen ≤ (sqeOf k.bytes).dlen)
    | none => false
  if ok then (s.onUqi fun u => { u with jobs := u.jobs ++ [j] }).uqiRun else s.jobResult j 1 0 0

def execUqiXcmd (m : Master) (v : Word) (s : State) : Host.Outcome State Fault Refusal :=
  .next (s.byCore m 0x4000B06C v fun s => uqiXcmd m v s)

/-- Remove the first element of a list that satisfies a test. -/
def dropFirst {α : Type} (p : α → Bool) : List α → List α
  | [] => []
  | x :: xs => if p x then xs else x :: dropFirst p xs

/-- UQI_XPOP (R378): remove the core's oldest host-transfer result. -/
def uqiXpop (m : Master) (v : Word) (s : State) : State :=
  if isHc m ∧ bitsOf v 0 0 = 1 then s.onUqi fun u => { u with res := dropFirst (fun (r : XRes) => r.core == m) u.res } else s

def execUqiXpop (m : Master) (v : Word) (s : State) : Host.Outcome State Fault Refusal :=
  .next (s.byCore m 0x4000B078 v fun s => uqiXpop m v s)

/-- UQI_DQPOP (R378): remove the head of the core's dispatch queue. -/
def uqiDqpop (m : Master) (v : Word) (s : State) : State :=
  if bitsOf v 0 0 ≠ 1 then s
  else match m with
    | .hc0 => s.onUqi fun u => { u with dq0 := u.dq0.drop 1 }
    | .hc1 => s.onUqi fun u => { u with dq1 := u.dq1.drop 1 }
    | .sec => s
    | .mc => s
    | .sv => s

def execUqiDqpop (m : Master) (v : Word) (s : State) : Host.Outcome State Fault Refusal :=
  .next (s.byCore m 0x4000B044 v fun s => uqiDqpop m v s)

/-- The isolation lock holds the party assignments (R413). -/
def isoLocked (s : State) : Bool := s.on F.ISO_STAT_LOCKED

/-- RPARTY_WRITE (R378): SEC sets the parties of rings r. -/
def rpartyWrite (m : Master) (r : BitVec 6) (v : Word) (s : State) : State :=
  let n := r.toNat
  if m = .sec ∧ ¬ isoLocked s ∧ ¬ sqOn s n ∧ ¬ cqOn s n then s.wr (R.UQI_RPARTY n) (v &&& 0xF0F) else s

def execRpartyWrite (m : Master) (r : BitVec 6) (v : Word) (s : State) : Host.Outcome State Fault Refusal :=
  .next (s.byCore m (0x4000B100 + 4 * r.toNat) v fun s => rpartyWrite m r v s)

/-- PCFG_WRITE (R410): SEC sets a party's block size. -/
def pcfgWrite (m : Master) (p : BitVec 4) (v : Word) (s : State) : State :=
  if m = .sec ∧ ¬ isoLocked s ∧ ¬ partyRings s p.toNat then s.wr (R.UQI_PCFG p.toNat) (v &&& 1) else s

def execPcfgWrite (m : Master) (p : BitVec 4) (v : Word) (s : State) : Host.Outcome State Fault Refusal :=
  .next (s.byCore m (0x4000B200 + 4 * p.toNat) v fun s => pcfgWrite m p v s)

/-- REVOKE_HOLD_END (R325): the notices are complete, and the held lookups of the banks and of the UQI start. -/
def execRevokeHoldEnd (s : State) : Host.Outcome State Fault Refusal := .next ((s.revokeHoldEnd.runChecks []).uqiRun)

end Sys2Proof.Machine
end

