-- ==== Sys2Proof/Machine/Mgt.lean ====
section
/-! DEFINITION. The commands of the management path: the CCCs of the I3C bus, the task-register file, and the management
commands that SEC's firmware serves (R426 to R443). -/

namespace Sys2Proof.Machine

open Sys2Proof

/-! ### CCCs (R426, R427) -/

/-- ENTDAA: a target without a dynamic address takes one. -/
def entdaa (mctp : Bool) (addr : BitVec 7) (s : State) : State :=
  let t := i3cTarget s mctp
  if i3cOn s ∧ t.addr.isNone then s.setTarget mctp { t with addr := some addr } else s

def execEntdaa (mctp : Bool) (addr : BitVec 7) (s : State) : Host.Outcome State Fault Refusal := .next (entdaa mctp addr s)

/-- SETDASA: the target at a static address takes a dynamic one. -/
def setdasa (static addr : BitVec 7) (s : State) : State :=
  State.each (fun mctp s =>
    let t := i3cTarget s mctp
    if i3cOn s ∧ t.addr.isNone ∧ static = staticAddr s mctp then s.setTarget mctp { t with addr := some addr } else s) [false, true] s

def execSetdasa (static addr : BitVec 7) (s : State) : Host.Outcome State Fault Refusal := .next (setdasa static addr s)

/-- SETNEWDA: the target at a dynamic address takes another. -/
def setnewda (addr to_ : BitVec 7) (s : State) : State :=
  match answering s addr with
  | some mctp => s.setTarget mctp { i3cTarget s mctp with addr := some to_ }
  | none => s

def execSetnewda (addr to_ : BitVec 7) (s : State) : Host.Outcome State Fault Refusal := .next (setnewda addr to_ s)

/-- RSTDAA: every target loses its dynamic address. -/
def execRstdaa (s : State) : Host.Outcome State Fault Refusal := .next (s.cccSet none fun t => { t with addr := none })

/-- ENEC: bit 0 of the event byte enables in-band interrupts. -/
def execEnec (addr : Option (BitVec 7)) (events : BitVec 8) (s : State) : Host.Outcome State Fault Refusal :=
  .next (s.cccSet addr fun t => { t with ibi := t.ibi || events.getLsbD 0 })

/-- DISEC: bit 0 of the event byte disables in-band interrupts. -/
def execDisec (addr : Option (BitVec 7)) (events : BitVec 8) (s : State) : Host.Outcome State Fault Refusal :=
  .next (s.cccSet addr fun t => { t with ibi := t.ibi && !events.getLsbD 0 })

/-- GETPID: six bytes, the highest first. -/
def execGetpid (addr : BitVec 7) (s : State) : Host.Outcome State Fault Refusal :=
  .next (s.cccGet addr fun mctp => beBytes 6 (provisionedId s mctp))

/-- GETBCR. -/
def execGetbcr (addr : BitVec 7) (s : State) : Host.Outcome State Fault Refusal :=
  .next (s.cccGet addr fun mctp => [if mctp then 0x16 else 0x06])

/-- GETDCR. -/
def execGetdcr (addr : BitVec 7) (s : State) : Host.Outcome State Fault Refusal := .next (s.cccGet addr fun _ => [0])

/-- GETSTATUS: no interrupt stays pending and no protocol error is kept (PRESUMED, log entry 61). -/
def execGetstatus (addr : BitVec 7) (s : State) : Host.Outcome State Fault Refusal := .next (s.cccGet addr fun _ => [0, 0])

/-- A length that SETMWL and SETMRL accept (Table 18.1). -/
def lenOk (n : BitVec 16) : Bool := decide (16 ≤ n.toNat) && decide (n.toNat ≤ 4100)

/-- SETMWL. -/
def execSetmwl (addr : Option (BitVec 7)) (len : BitVec 16) (s : State) : Host.Outcome State Fault Refusal :=
  .next (s.cccSet addr fun t => if lenOk len then { t with mwl := len.toNat } else t)

/-- GETMWL. -/
def execGetmwl (addr : BitVec 7) (s : State) : Host.Outcome State Fault Refusal :=
  .next (s.cccGet addr fun mctp => beBytes 2 (i3cTarget s mctp).mwl)

/-- SETMRL. -/
def execSetmrl (addr : Option (BitVec 7)) (len : BitVec 16) (s : State) : Host.Outcome State Fault Refusal :=
  .next (s.cccSet addr fun t => if lenOk len then { t with mrl := len.toNat } else t)

/-- GETMRL: the length, then the one byte of interrupt payload that the BCR announces (PRESUMED, log entry 61). -/
def execGetmrl (addr : BitVec 7) (s : State) : Host.Outcome State Fault Refusal :=
  .next (s.cccGet addr fun mctp => beBytes 2 (i3cTarget s mctp).mrl ++ [1])

/-! ### The task-register file (R429, R430) -/

/-- A private write to the task target: the index byte, then the data bytes. -/
def taskPrivateWrite (bytes : List Byte) (s : State) : State :=
  if ¬ i3cOn s ∨ s.mgt.task.addr.isNone then s else
  match bytes with
  | [] => s
  | [k] => if 15 < k.toNat then s.trfOvr else s.onMgt fun g => { g with rindex := k.toNat }
  | k :: l => if 15 < k.toNat then s.trfOvr else State.trfWrites k.toNat l s

def execTaskPrivateWrite (bytes : List Byte) (s : State) : Host.Outcome State Fault Refusal := .next (taskPrivateWrite bytes s)

/-- A private read of a number of words from the task target. -/
def taskPrivateRead (words : BitVec 11) (s : State) : State :=
  if ¬ i3cOn s ∨ s.mgt.task.addr.isNone then s else
  let ans := State.trfReads words.toNat s.mgt.rindex s
  let b := ans.1
  let s := ans.2
  s.emit (.i3c b)

def execTaskPrivateRead (words : BitVec 11) (s : State) : Host.Outcome State Fault Refusal := .next (taskPrivateRead words s)

/-- A complete write of STAT by the controller (R430). -/
def doneClear (v : Word) (s : State) : State :=
  if ¬ i3cOn s ∨ s.mgt.task.addr.isNone then s else s.trfStat v

def execDoneClear (v : Word) (s : State) : Host.Outcome State Fault Refusal := .next (doneClear v s)

/-- A write of MGT_TAKE (R431, R449). -/
def mgtTake (m : Master) (v : Word) (s : State) : State :=
  if m = .sec ∧ v.getLsbD 0 then s.clr F.MGT_STAT_CMDPEND else s

def execMgtTake (m : Master) (v : Word) (s : State) : Host.Outcome State Fault Refusal :=
  .next (s.byCore m 0x4000C008 v fun s => mgtTake m v s)

/-- A write of MGT_DONE (R430, R449). -/
def mgtDone (m : Master) (v : Word) (s : State) : State :=
  if m = .sec then s.trfDone (bitsOf v 7 0) (v.getLsbD 8) else s

def execMgtDone (m : Master) (v : Word) (s : State) : Host.Outcome State Fault Refusal :=
  .next (s.byCore m 0x4000C00C v fun s => mgtDone m v s)

/-- An opcode that is unknown or not served now (R433). -/
def badOpcode (s : State) : State :=
  if opRefused s (s.get F.TRF_CMD_OP) then s.serve (s.get F.TRF_CMD_OP) fun s => served tBADOP s else s

def execBadOpcode (s : State) : Host.Outcome State Fault Refusal := .next (badOpcode s)

/-! ### Identification and partitions (R433, R434) -/

def argBits (s : State) (k hi lo : Nat) : Nat := bitsOf (arg s k) hi lo

/-- IDENT. -/
def ident (s : State) : State :=
  s.serve 0x01 fun s => served tOK s [(idWord s).toNat, (s.rd R.SST_STAT).toNat, (s.rd R.PCM_MODE).toNat, (s.rd R.ISO_STAT).toNat,
    (s.rd R.MOR_BOOT).toNat]

def execIdent (s : State) : Host.Outcome State Fault Refusal := .next (ident s)

/-- The rings that PART_CFG gives to the party. -/
def cfgRings (s : State) : List Nat := (List.range 64).filter fun r => (arg s (4 + r / 32)).getLsbD (r % 32)

/-- PART_CFG. -/
def partCfg (s : State) : State :=
  s.serve 0x10 fun s =>
    let p := argBits s 0 3 0
    let part := arg s 1 &&& 0x3FF
    let share := argBits s 1 31 24
    let emu := argBits s 1 16 16
    let quota := argBits s 3 14 0
    let others := (((List.range 16).filter (· != p)).map fun q => s.get (F.ORD_SHARE_SHARE q)).foldl (fun a b => a + b) 0
    let stat := fun (s : State) => [(s.rd R.FIRN_STAT).toNat]
    if s.on F.ISO_STAT_LOCKED ∨ s.on F.FIRN_STAT_PLOCKED then served tLOCKED s (stat s)
    else if ¬ firnAwake s then .inl none
    else if quota > s.get F.FIRN_DTOTAL_DTOTAL ∨ others + share > 256 then served tBADARG s (stat s)
    else if partTakes s p part ∨ cmaskTakes s p (arg s 2) then
      let s := s.raiseBit F.FIRN_FLAG_PREFUSE
      served tSTATE s (stat s)
    else if (cfgRings s).any (fun r => sqOn s r || cqOn s r) ∨ (emu ≠ s.get (F.UQI_PCFG_EMU p) ∧ partyRings s p) then served tSTATE s (stat s)
    else
      let s := partitionWrite .sec true p (arg s 2) (partitionWrite .sec false p part s)
      let s := s.put (F.FIRN_DQ_DQUOTA p) quota
      let s := ordShareWrite .sec (BitVec.ofNat 4 p) (BitVec.ofNat 32 share) s
      let s := pcfgWrite .sec (BitVec.ofNat 4 p) (BitVec.ofNat 32 emu) s
      let s := State.each (fun r s => rpartyWrite .sec (BitVec.ofNat 6 r) (BitVec.ofNat 32 (p + 256 * p)) s) (cfgRings s) s
      served tOK s (stat s)

def execPartCfg (s : State) : Host.Outcome State Fault Refusal := .next (partCfg s)

/-- PART_WIN: the entry is staged in slot 0 of SEC's bank and committed. -/
def partWin (s : State) : State :=
  s.serve 0x11 fun s =>
    if rmeBusy s .sec true ∨ ¬ firnAwake s then .inl none
    else
      let m := Master.sec
      let s := ((((s.wr (R.RME_STG_00 m 0) 0).wr (R.RME_STG_04 m 0) 0).wr (R.RME_STG_08 m 0) 0).wr (R.RME_STG_0C m 0) 0).wr (R.RME_STG_10 m 0) 0
      let s := (s.put (F.RME_STG_00_KEY_LO m 0) (arg s 1).toNat).put (F.RME_STG_04_KEY_HI m 0) (argBits s 2 15 0)
      let s := ((s.put (F.RME_STG_04_LEN m 0) (argBits s 0 29 24)).put (F.RME_STG_04_PARTY m 0) (argBits s 0 3 0)).put (F.RME_STG_04_VALID m 0)
        (argBits s 0 4 4)
      let s := ((s.raiseBit (F.RME_STG_04_CH m 0)).put (F.RME_STG_08_BASE_LO m 0) (arg s 3).toNat).put (F.RME_STG_0C_BASE_HI m 0)
        (argBits s 4 15 0)
      let s := ((s.put (F.RME_STG_0C_RIGHTS m 0) (argBits s 0 10 8)).put (F.RME_STG_0C_PRIO m 0) (argBits s 0 23 16)).put (F.RME_STG_10_INDEX m 0)
        (argBits s 5 10 0)
      let s := s.rmeCommit m 1
      served (if s.get (F.RME_SRES_RESULT m) = 0 then tOK else tBADARG) s [(s.rd (R.RME_SRES m)).toNat]

def execPartWin (s : State) : Host.Outcome State Fault Refusal := .next (partWin s)

/-- SEC derives a party's key from a salt through SST_KSALT and SST_KCMD, and waits for the end. -/
def State.deriveKey (s : State) (p : Nat) (salt : List Byte) : State :=
  deriveDone (derive .sec (BitVec.ofNat 32 (1 + 16 * p)) (s.wrBytes R.SST_KSALT 8 salt))

/-- The end of a command that derived a key (R434): FAIL with RES[0] 1 if the slot is not READY. -/
def derivedEnd (s : State) (p : Nat) : Option Served ⊕ State :=
  if s.on (F.CRY_SLOT_READY p) then served tOK s [(s.rd (R.CRY_SLOT p)).toNat] else served tFAIL s [1]

/-- PART_KEY. -/
def partKey (s : State) : State :=
  s.serve 0x12 fun s =>
    let p := argBits s 0 3 0
    let kop := argBits s 0 9 8
    if kop = 0 ∨ kop = 3 ∨ (kop = 1 ∧ dcnt s ≠ 32) then served tBADARG s
    else if partyRings s p then served tSTATE s
    else if s.on F.SST_KLOCK_MEK_USELOCK then served tLOCKED s
    else if s.on F.SST_KRES_BUSY then .inl none
    else if kop = 1 then derivedEnd (s.deriveKey p (dataBuf s 32)) p
    else
      let s := keyClear .sec (BitVec.ofNat 32 (2 + 16 * p)) s
      served tOK s [(s.rd (R.CRY_SLOT p)).toNat]

def execPartKey (s : State) : Host.Outcome State Fault Refusal := .next (partKey s)

/-- PART_LOCK. -/
def partLock (s : State) : State :=
  s.serve 0x13 fun s =>
    if ¬ firnAwake s then .inl none
    else
      let s := (partitionLock .sec s).wlock
      let s := cfglock (s.raiseBit F.DMA_CTL_XTSREQ)
      let s := s.isoLock
      served (if s.get F.ISO_STAT_RES = 0 then tOK else tFAIL) s
        [(s.rd R.ISO_STAT).toNat, (s.rd R.FIRN_STAT).toNat, (s.rd R.RME_STAT).toNat]

def execPartLock (s : State) : Host.Outcome State Fault Refusal := .next (partLock s)

/-- PART_ERASE (R416): while the orderer or the range engine is busy the server waits. From then on the party's media counts as
never written. -/
def partErase (s : State) : State :=
  s.serve 0x14 fun s =>
    let p := argBits s 0 3 0
    if dcnt s ≠ 32 then served tBADARG s
    else if partyRings s p then served tSTATE s
    else if s.on F.SST_KLOCK_MEK_USELOCK then served tLOCKED s
    else if s.on F.SST_KRES_BUSY ∨ s.on F.FIRN_STAT_RBUSY ∨ ¬ firnAwake s ∨ (s.ord.reqs.any fun (r : OrdReq) => r.party == p) then .inl none
    else
      let salt := dataBuf s 32
      let s := rangePassEnd (rangeCmd 4 .sec (BitVec.ofNat 32 (1 * 16 + p * 256)) s)
      let s := keyClear .sec (BitVec.ofNat 32 (2 + 16 * p)) s
      let s := s.onUqi fun u => { u with never := cutSpans u.never p 0 (2 ^ 48) ++ [(p, 0, 2 ^ 48)] }
      derivedEnd (s.deriveKey p salt) p

def execPartErase (s : State) : Host.Outcome State Fault Refusal := .next (partErase s)

/-- PART_QUERY: 16 bytes in the layout of record 0x0501. -/
def partQuery (s : State) : State :=
  s.serve 0x15 fun s => served tOK s [] (some (isoParty s (argBits s 0 3 0)))

def execPartQuery (s : State) : Host.Outcome State Fault Refusal := .next (partQuery s)

/-! ### Self-tests (R440 to R443) -/

/-- The heads fitted. -/
def headsFitted (s : State) : Nat := ((List.range 20).filter fun h => s.on (F.SRV_HEAD_PRESENT h)).length

/-- ST_SHORT and ST_EXT: in DRIFT the server asks for FLOW and starts the test once it is there. -/
def State.startTest (s : State) (op type : Nat) (t : Trans) : State :=
  s.serve op fun s =>
    if s.mgt.test.st = 1 ∨ s.mode = mTHAW ∨ s.mode = mDORMANT then served tSTATE s
    else if s.on F.PCM_STAT_PEND then .inl none
    else
      let s := if s.mode = mDRIFT then modeReqFlow .sec t s else s
      if s.mode ≠ mFLOW then .inr s
      else
        let s := s.onMgt fun g => { g with test := ({ type, st := 1 } : SelfTest) }
        served tOK (s.mcEvent 0x0801 0xFF (leBytes 1 type ++ zeros 1 ++ leBytes 1 (headsFitted s) ++ zeros 1))

/-- ST_SHORT. -/
def execStShort (t : Trans) (s : State) : Host.Outcome State Fault Refusal := .next (s.startTest 0x20 1 t)

/-- ST_EXT. -/
def execStExt (t : Trans) (s : State) : Host.Outcome State Fault Refusal := .next (s.startTest 0x21 2 t)

/-- ST_ABORT: `progress` and `sectors` are what the test had reached. -/
def stAbort (progress : BitVec 8) (sectors : BitVec 64) (s : State) : State :=
  s.serve 0x22 fun s =>
    let t := s.mgt.test
    if t.st ≠ 1 then served tOK s [0]
    else
      let t := { t with st := 3, progress := progress.toNat, sectors := sectors.toNat }
      let s := s.onMgt fun g => { g with test := t }
      served tOK (s.mcEvent 0x0803 0xFF (leBytes 1 t.type ++ leBytes 1 1 ++ leBytes 1 t.progress ++ zeros 5 ++ leBytes 8 t.sectors)) [1]

def execStAbort (progress : BitVec 8) (sectors : BitVec 64) (s : State) : Host.Outcome State Fault Refusal :=
  .next (stAbort progress sectors s)

/-- ST_RESULT (Table 18.6): the operands are the counts of a test that is still running. -/
def stResult (progress : BitVec 8) (sectors : BitVec 64) (unrec secs : BitVec 32) (s : State) : State :=
  s.serve 0x23 fun s =>
    let t := s.mgt.test
    let t := if t.st = 1 then { t with progress := progress.toNat, sectors := sectors.toNat, unrec := unrec.toNat, secs := secs.toNat } else t
    let failed := if t.elem = 0 then 0 else 256
    served tOK s [t.type + 4 * t.st + 16 * t.elem + failed + 65536 * t.progress, t.sectors % rev, t.sectors / rev, t.unrec, t.secs]
      (some ((t.failing.take 16).flatMap fun (x : Nat) => leBytes 8 x))

def execStResult (progress : BitVec 8) (sectors : BitVec 64) (unrec secs : BitVec 32) (s : State) : Host.Outcome State Fault Refusal :=
  .next (stResult progress sectors unrec secs s)

/-- A running test ends (R440, Table 18.7): `elem` is the element that failed, 0 if none did. -/
def selfTestEnd (elem : BitVec 4) (sectors : BitVec 64) (secs unrec : BitVec 32) (failing : List (BitVec 64)) (s : State) : State :=
  let t := s.mgt.test
  if t.st ≠ 1 ∨ 4 < elem.toNat then s else
  let t := { t with st := 2, elem := elem.toNat, progress := 100, sectors := sectors.toNat, unrec := unrec.toNat, secs := secs.toNat
                    failing := (failing.map BitVec.toNat).take 16 }
  (s.onMgt fun g => { g with test := t }).mcEvent 0x0802 0xFF
    (leBytes 1 t.type ++ leBytes 1 (if t.elem = 0 then 0 else 1) ++ leBytes 1 t.elem ++ zeros 1 ++ leBytes 4 t.secs ++ leBytes 8 t.sectors ++
      leBytes 4 t.unrec ++ zeros 4 ++ leBytes 8 (t.failing.headD (2 ^ 64 - 1)))

def execSelfTestEnd (elem : BitVec 4) (sectors : BitVec 64) (secs unrec : BitVec 32) (failing : List (BitVec 64)) (s : State) :
    Host.Outcome State Fault Refusal := .next (selfTestEnd elem sectors secs unrec failing s)

/-! ### Firmware staging (R436 to R439) -/

def inRecovery (s : State) : Bool := s.on F.SST_STAT_RECOVERY

/-- Erase one sector for the server: true if it was erased. What a failed erase leaves is open (R173). -/
def State.eraseSector (s : State) (a : Nat) (ok : Bool) : Bool × State :=
  let r := Req.core .sec
  let s := s.wakeBank (bankOf a)
  match eraseCause s a with
  | some c => (false, s.stoRefuse c r a 2)
  | none =>
    let b := BitVec.ofNat 4 (bankOf a)
    let s := eraseDone b ok [] (s.startErase (bankOf a) { req := r, sector := sectorOf a })
    (ok, if ok then s else s.layFree (sectorAddr (sectorOf a)) 0x10000)

/-- Erase sectors in order until one fails. -/
def State.eraseSectors (base bad : Nat) : List Nat → State → Bool × State
  | [], s => (true, s)
  | n :: l, s =>
    let ans := s.eraseSector (base + 65536 * n) (decide (n ≠ bad))
    let ok := ans.1
    let s := ans.2
    if ok then State.eraseSectors base bad l s else (false, s)

/-- FW_BEGIN: `bad` is the number of the sector whose erase fails; 65 and above, none does. -/
def fwBegin (bad : BitVec 8) (s : State) : State :=
  s.serve 0x30 fun s =>
    let slot := argBits s 0 0 0
    let len := (arg s 1).toNat
    if (¬ inRecovery s ∧ slot = s.get F.SST_STAT_SLOT) ∨ len < 0x10000 ∨ 65 * 0x10000 < len then served tBADARG s
    else if s.bit F.STO_WPROT_PROT slot then served tLOCKED s
    else
      let ans := State.eraseSectors (slotBase slot) bad.toNat (List.range ((len + 65535) / 65536)) s
      let ok := ans.1
      let s := ans.2
      if ok then served tOK (s.onMgt fun g => { g with staging := .opened, stSlot := slot, stLen := len }) [slot]
      else
        let (v, s) := s.draw
        served tFAIL (s.onMgt fun g => { g with staging := .idle }) [v.toNat]

def execFwBegin (bad : BitVec 8) (s : State) : Host.Outcome State Fault Refusal := .next (fwBegin bad s)

/-- Program one page for the server and read it back: true if it holds the data. Which bits a failed program leaves at 1 is open
(R171). -/
def State.programPage (s : State) (a : Nat) (d : List Byte) (ok : Bool) : Bool × State :=
  let r := Req.core .sec
  let s := s.wakeBank (bankOf a)
  match programCause s a with
  | some c => (false, s.stoRefuse c r a 1)
  | none =>
    let p : ProgOp := { req := r, page := a, data := (List.range d.length).zip d }
    let ans := if ok then ([], s) else s.drawBytes 64
    let s := programDone (BitVec.ofNat 4 (bankOf a)) ok (ans.1.mapIdx fun i x => (a + i, x)) (ans.2.startProgram p)
    (ok && s.stoBytes a d.length == d, s)

/-- Program pages in order until one fails; the answer counts the bytes programmed. -/
def State.programPages (a pfail : Nat) : Nat → List Byte → Nat → State → Nat × State
  | 0, _, done, s => (done, s)
  | n + 1, d, done, s =>
    let ans := s.programPage (a + done) (slice d 0 512) (decide (done / 512 ≠ pfail))
    let ok := ans.1
    let s := ans.2
    if ok then State.programPages a pfail n (d.drop 512) (done + 512) s else (done, s)

/-- FW_DATA: `pfail` is the number of the page whose program fails; 8 and above, none does. -/
def fwData (pfail : BitVec 4) (s : State) : State :=
  s.serve 0x31 fun s =>
    let off := (arg s 0).toNat
    let n := dcnt s
    if s.mgt.staging = .idle then served tSTATE s
    else if off % 512 ≠ 0 ∨ n % 512 ≠ 0 ∨ n = 0 ∨ s.mgt.stLen < off + n then served tBADARG s
    else
      let ans := State.programPages (slotBase s.mgt.stSlot + off) pfail.toNat (n / 512) (dataBuf s n) 0 s
      let done := ans.1
      let s := ans.2
      if done = n then served tOK (s.onMgt fun g => { g with staging := .opened }) [n] else served tFAIL s [done]

def execFwData (pfail : BitVec 4) (s : State) : Host.Outcome State Fault Refusal := .next (fwData pfail s)

/-- Why a staged header is refused (R438), 0 if it is not: 1 format, 2 key, 3 SVN, 4 SEQ not higher, 5 length. -/
def stagedCause (s : State) (h : List Byte) : Nat :=
  let f := s.sst.fuses
  let good := hdrNum h 0 4 == 0x41475A31 && hdrNum h 4 2 == 1 && hdrNum h 0xE 1 == 7 && ((List.range 7).all fun k => segGood h k) && segsPlaced h
  if ¬ good then 1
  else if ¬ (hdrKeyidx h < 4 ∧ ¬ f.keyrev.getLsbD (hdrKeyidx h) ∧ keyGood f h) then 2
  else if hdrSvn h < f.svn then 3
  else if ¬ inRecovery s ∧ hdrSeq h ≤ hdrSeq s.sst.hdr then 4
  else if hdrNum h 0x10 4 ≠ s.mgt.stLen then 5
  else 0

/-- FW_VERIFY. -/
def fwVerify (s : State) : State :=
  s.serve 0x32 fun s =>
    if s.mgt.staging ≠ .opened then served tSTATE s
    else
      let c := stagedCause s (slotHeader s s.mgt.stSlot)
      if c = 0 then served tOK (s.onMgt fun g => { g with staging := .verified }) [0] else served tFAIL s [c]

def execFwVerify (s : State) : Host.Outcome State Fault Refusal := .next (fwVerify s)

/-- FW_ACTIVATE: the server cleans, waits until the dirty set is empty, and asks for REBOOT. -/
def fwActivate (us : BitVec 32) (s : State) : State :=
  s.serve 0x33 fun s =>
    if s.mgt.staging ≠ .verified then served tSTATE s
    else if inRecovery s then .inr ((s.put F.SST_FAIL_FAILMASK 0).rebootNow us.toNat)
    else if (List.range 64).any fun r => sqOn s r || cqOn s r then served tSTATE s
    else if s.on F.FIRN_STAT_RBUSY ∨ ¬ firnAwake s then .inl none
    else if ((List.range 16).map fun p => s.dcount p).sum ≠ 0 then .inr (rangePassEnd (rangeCmd 1 .sec (BitVec.ofNat 32 (2 * 16)) s))
    else
      let r := modeReqReboot .sec us s
      if r.mode = mTHAW ∧ ¬ r.on F.TRF_STAT_BUSY then .inr r
      else if r.get F.PCM_STAT_RESULT = 4 then served tFAIL r [6]
      else .inr r

def execFwActivate (us : BitVec 32) (s : State) : Host.Outcome State Fault Refusal := .next (fwActivate us s)

/-! ### Moraine retrieval (R435) -/

/-- MOR_INFO. -/
def morInfo (s : State) : State :=
  s.serve 0x40 fun s =>
    let n := s.mor.nseq.toNat
    let o := morOld s
    served tOK s [n % rev, n / rev, o % rev, o / rev, morBedn s + 65536 * s.mor.wslot]

def execMorInfo (s : State) : Host.Outcome State Fault Refusal := .next (morInfo s)

/-- A record lies in party p's view (R423). -/
def inView (p : Nat) (b : List Byte) : Bool :=
  let party := leNat (slice b 0x1C 1)
  let code := leNat (slice b 4 2)
  party == p || (party == 0xFF && (code / 256 == 1 || [0x201, 0x202, 0x203, 0x306, 0x601, 0x602, 0x603, 0x703, 0x704, 0x901, 0x902,
    0x903, 0x904, 0x905].contains code))

/-- The code and the 512 bytes that MOR_READ gives for a SEQ, and its slot if it has one. -/
def morRecord (s : State) (view seq : Nat) : Nat × List Byte × Option Nat :=
  if morPortHeld s then (2, zeros 512, none)
  else match slotHolding s seq with
    | none => (if notYet s.mor seq then 2 else 1, zeros 512, none)
    | some n =>
      let b := s.slotBytes n
      if view ≠ 0xFF ∧ ¬ inView view b then (4, recordStub b ++ zeros 448, some n)
      else (if sigPending s.mor seq then 3 else 0, b, some n)

/-- MOR_READ. -/
def morRead (s : State) : State :=
  s.serve 0x41 fun s =>
    let seq := (arg s 0).toNat + (arg s 1).toNat * rev
    let count := argBits s 2 3 0
    let view := argBits s 2 15 8
    if count = 0 ∨ 8 < count ∨ (15 < view ∧ view ≠ 0xFF) then served tBADARG s
    else
      let l := (List.range count).map fun i => morRecord s view ((seq + i) % 2 ^ 64)
      let codes := l.map (·.1)
      let word := ((List.range count).zip codes).foldl (fun a (x : Nat × Nat) => a + x.2 * 16 ^ x.1) 0
      let (v, s) := s.draw
      served (if codes.all fun c => c == 0 || c == 4 then tOK else tPARTIAL) s [((l.map (·.2.2)).headD none).getD v.toNat, word, 512 * count]
        (some (l.flatMap (·.2.1)))

def execMorRead (s : State) : Host.Outcome State Fault Refusal := .next (morRead s)

end Sys2Proof.Machine
end

