-- ==== Sys2Proof/Machine/Pmx.lean ====
section
/-! DEFINITION. The commands of the pin multiplexer and the console UART (R67 to R78). -/

namespace Sys2Proof.Machine

open Sys2Proof

/-- The majority of three samples, bit by bit. -/
def majority (a b c : BitVec 4) : BitVec 4 := (a &&& b) ||| (a &&& c) ||| (b &&& c)

/-- REFCK cycles 16 to 18 after THAW entry (R67): PMX_STRAP takes the majority of the samples of GPIO0 to GPIO3. -/
def strapSample (a b c : BitVec 4) (s : State) : State :=
  if s.pmx.strapped ∨ s.mode = mOFF then s else
  (s.wr R.PMX_STRAP ((majority a b c).setWidth 32)).onPmx fun p => { p with strapped := true }

def execStrapSample (a b c : BitVec 4) (s : State) : Host.Outcome State Fault Refusal := .next (strapSample a b c s)

/-- REFCK cycle 32 after THAW entry (R67): the balls come under PMX control as function 0 with GPIO_OE = 0. -/
def gpioHandover (s : State) : State :=
  if s.pmx.strapped ∧ ¬ s.pmx.handed then (s.onPmx fun p => { p with handed := true }).clr F.GPIO_OE_OE else s

def execGpioHandover (s : State) : Host.Outcome State Fault Refusal := .next (gpioHandover s)

/-- A COMMIT (R71, R72, R74, R75). -/
def pmxCommit (s : State) : State :=
  if s.on F.PMX_STAT_BUSY then s.raiseBit F.PMX_STAT_IGN else
  let s := s.clr F.PMX_REFUSE_PINS
  let diff := balls.filter fun n => pinSel s n != pinAct s n
  let busy := diff.filter fun n => sigBusy s (signalOf n (pinAct s n)) && !s.on (F.PMX_PIN_FORCE n)
  let dup := balls.filter fun n => dupBall s n
  if ¬ busy.isEmpty then (s.put F.PMX_REFUSE_PINS (ballMask busy)).put F.PMX_STAT_RESULT 2
  else if ¬ dup.isEmpty then (s.put F.PMX_REFUSE_PINS (ballMask dup)).put F.PMX_STAT_RESULT 3
  else
    let s := s.pmxHold.pmxApply
    if diff.isEmpty then s.put F.PMX_STAT_RESULT 1 else
    let sw := diff.map fun n => (n, pinSel s n)
    let s := State.each (fun n s => s.pmxCut n) diff s
    ((s.put F.PMX_STAT_RESULT 0).raiseBit F.PMX_STAT_BUSY).onPmx fun p => { p with switching := sw }

def execPmxCommit (m : Master) (s : State) : Host.Outcome State Fault Refusal :=
  .next (s.byCore m R.PMX_CTL 1 fun s => pmxCommit s)

/-- Cycle 6 of the switch sequence (Table 3.11), after a commit or after a domain's restart (R76). A ball whose new
peripheral's domain is stopped stays parked. -/
def pmxSwitchEnd (s : State) : State :=
  let s := s.onPmx fun p => { p with rejoin := p.rejoin.filter fun n => ballStopped s n }
  if ¬ s.on F.PMX_STAT_BUSY then s.uartKick else
  let s := State.each (fun (x : Nat × Nat) s => s.put (F.PMX_PIN_ACT x.1) x.2) s.pmx.switching s
  (((s.onPmx fun p => { p with switching := [] }).clr F.PMX_STAT_BUSY).pmxStops).uartKick

def execPmxSwitchEnd (s : State) : Host.Outcome State Fault Refusal := .next (pmxSwitchEnd s)

/-- Writing 1 to a ball's LOCK (R77). -/
def pmxPinLock (n : BitVec 5) (s : State) : State := if n.toNat < 24 then s.raiseBit (F.PMX_PIN_LOCK n.toNat) else s

def execPmxPinLock (m : Master) (n : BitVec 5) (s : State) : Host.Outcome State Fault Refusal :=
  .next (s.byCore m (R.PMX_PIN n.toNat) (s.rd (R.PMX_PIN n.toNat) ||| 0x10000) fun s => pmxPinLock n s)

/-! ### UART0 (R78) -/

/-- A write of UART_TX, ignored while the TX FIFO is full. -/
def uartTxWrite (v : Word) (s : State) : State :=
  if s.pmx.tx.length ≥ 16 then s else (s.onPmx fun p => { p with tx := p.tx ++ [BitVec.ofNat 8 v.toNat] }).uartKick

def execUartTxWrite (m : Master) (v : Word) (s : State) : Host.Outcome State Fault Refusal :=
  .next (s.byCore m R.UART_TX v fun s => uartTxWrite v s)

/-- POP removes the byte that UART_RX shows. -/
def uartPop (s : State) : State := (s.onPmx fun p => { p with rx := p.rx.drop 1 }).uartStat

def execUartPop (m : Master) (s : State) : Host.Outcome State Fault Refusal :=
  .next (s.byCore m R.UART_CTL (s.rd R.UART_CTL ||| 0x20000) fun s => uartPop s)

/-- A character has been shifted out. It leaves the device only if its signal is on a ball that is not parked (R57). -/
def uartTxCharacter (s : State) : State :=
  match s.pmx.shifting with
  | none => s
  | some b => ((if connected s .uartTx then s.emit (.uart b) else s).onPmx fun p => { p with shifting := none }).uartKick

def execUartTxCharacter (s : State) : Host.Outcome State Fault Refusal := .next (uartTxCharacter s)

/-- A start bit arrives on UART0_RX (R70). -/
def uartRxStartBit (s : State) : State :=
  if s.on F.UART_CTL_EN ∧ connected s .uartRx then s.raiseBit F.UART_STAT_RXBUSY else s

def execUartRxStartBit (s : State) : Host.Outcome State Fault Refusal := .next (uartRxStartBit s)

/-- A received character completes: it enters the RX FIFO, or FRERR or OVR is set. A character with a bad stop bit is not
queued and sets FRERR alone, also where the FIFO is full: Table 3.14 states a discard for OVR only (DESIGN CHOICE, log
entry 101). -/
def uartRxCharacter (b : Byte) (stop : Bool) (s : State) : State :=
  if ¬ s.on F.UART_STAT_RXBUSY then s else
  let s := s.clr F.UART_STAT_RXBUSY
  if ¬ stop then s.raiseBit F.UART_STAT_FRERR
  else if s.pmx.rx.length ≥ 16 then s.raiseBit F.UART_STAT_OVR
  else (s.onPmx fun p => { p with rx := p.rx ++ [b] }).uartStat

def execUartRxCharacter (b : Byte) (stop : Bool) (s : State) : Host.Outcome State Fault Refusal := .next (uartRxCharacter b stop s)

end Sys2Proof.Machine
end

