-- ==== Sys2Proof/Machine/Srv.lean ====
section
/-! DEFINITION. The commands of the servo block (R215 to R234). -/

namespace Sys2Proof.Machine

open Sys2Proof

/-- The Power die forms an upstream servo word (R62), and the SRV stores it where its CRC is good after the link (R223). -/
def upstreamServoWord (w : Upstream) (s : State) : State :=
  let sent := upWord s.pd w
  let s := s.onPd fun p => { p with upLast := sent, flt := p.flt && w.persists }
  let n := (sent ^^^ w.flips).toNat
  if crc8 48 n ≠ n / 2 ^ 48 then s else
  let seq := n / 2 % 8
  let s := (s.put F.SRV_LNK_RSEQ seq).put F.SRV_LNK_FAULT (n / 2 ^ 44)
  let s := ((s.put F.SRV_SENSE_LO_VCMS (n / 2 ^ 4)).put F.SRV_SENSE_LO_MA0S (n / 2 ^ 20)).put F.SRV_SENSE_HI_MA1S (n / 2 ^ 32)
  s.onSrv fun v => { v with sent := v.sent.erase seq }

def execUpstreamServoWord (w : Upstream) (s : State) : Host.Outcome State Fault Refusal := .next (upstreamServoWord w s)

/-- Burst end (R215): CONV has been executed and every armed group is complete. -/
def burstEnd (f : Captures) (s : State) : State :=
  let s := s.capture f
  if s.srv.conv ∧ groupsDone s then s.onSrv fun v => { v with conv := false, converting := true } else s

def execBurstEnd (f : Captures) (s : State) : Host.Outcome State Fault Refusal := .next (burstEnd f s)

/-- A shock hold lasts while an input that is on a ball is high (R227); where none is, the SRV sees their idle level 0 (Table
3.10). Only a shock event begins one. -/
def State.shockLevel (s : State) (high : Bool) : State :=
  s.onSrv fun v => { v with shkHigh := v.shkHigh && high && (connected s .shk0 || connected s .shk1) }

/-- The converter ends (R216), with the shock inputs and fault lines as they stand. -/
def positionConversionDone (f : SrvLines) (s : State) : State :=
  if ¬ s.srv.converting then s else
  (((s.shockLevel f.shock).paLevel f.paFault).converted).chSettle

def execPositionConversionDone (f : SrvLines) (s : State) : Host.Outcome State Fault Refusal := .next (positionConversionDone f s)

/-- A unit posts a miss for the wedge in progress, by the cause codes of Table 9.6 (R230, R231). -/
def missedWedge (cause : BitVec 4) (s : State) : State :=
  if cause = 0 ∨ 11 < cause.toNat then s else (s.missCur cause.toNat).chSettle

def execMissedWedge (cause : BitVec 4) (s : State) : Host.Outcome State Fault Refusal := .next (missedWedge cause s)

/-- R221 is kept: SV can take POS at once. -/
def posReady (f : SvFacts) : Bool := f.mie && f.mieReg.getLsbD 16 && !f.busy

/-- The first instruction of SV's handler for a cause (R220): direct or vectored. -/
def svVector (mtvec : Word) (cause : Nat) : Word :=
  let base := mtvec &&& 0xFFFFFFFC
  if bitsOf mtvec 1 0 = 1 then base + BitVec.ofNat 32 (4 * cause) else base

/-- SV takes an interrupt (R220): mepc points to the divide that is abandoned or to the instruction after the one that ends. -/
def SvCore.take (f : SvFacts) (cause : Nat) (c : SvCore) : SvCore :=
  { c with mpie := c.mie, mie := false, mepc := if f.divide then f.pc else f.next
           mcause := BitVec.ofNat 32 (0x80000000 + cause), pc := svVector f.mtvec cause, busy := false }

/-- POS is asserted (R220, R221): ENTLATE is set where SV is not ready for it, and SV enters its vector if POS is enabled in
SRV_IEN (Table 9.11), in mie and in mstatus. What SV's registers hold comes with the event (DESIGN CHOICE, log entry 107). -/
def svPosEntry (f : SvFacts) (s : State) : State :=
  if ¬ s.on F.SRV_EVT_POS then s else
  let s := s.onSrv fun v => { v with sv := { v.sv with mie := f.mie, mieReg := f.mieReg, mtvec := f.mtvec, pc := f.pc, busy := f.busy } }
  let s := if posReady f then s else (s.raiseBit F.SRV_EVT_ENTLATE).inc F.SRV_CNT_ENTLATE_CNT
  if s.bit F.SRV_IEN_SRC 0 ∧ f.mie ∧ f.mieReg.getLsbD 16 then
    (s.onSrv fun v => { v with sv := v.sv.take f 16 }).emit (.coreIrq .sv 16)
  else s

def execSvPosEntry (f : SvFacts) (s : State) : Host.Outcome State Fault Refusal := .next (svPosEntry f s)

/-- LAST of a commit, in SVCK cycles (R229). -/
def State.measure (s : State) (cycles : Nat) : State :=
  if ¬ s.srv.timed then s else
  let n := Nat.min cycles 2047
  let s := (s.onSrv fun v => { v with timed := false }).put F.SRV_LAT_LAST n
  let s := if s.get F.SRV_LAT_MAX < n then s.put F.SRV_LAT_MAX n else s
  if s.get F.SRV_LATLIM_LIM < n then (s.raiseBit F.SRV_EVT_LATOVR).inc F.SRV_CNT_LATOVR_CNT else s

/-- SV's write of SRV_CMD_HI commits a command (R222, R223, R229). -/
def servoCommit (m : Master) (v : Word) (cycles : Nat) (s : State) : State :=
  if m ≠ .sv then s else
  let s := s.put F.SRV_CMD_HI_MA1 (bitsOf v 11 0)
  let seq := (s.get F.SRV_LNK_CSEQ + 1) % 8
  let vcm := s.get F.SRV_CMD_LO_VCM
  let w := servoWord seq vcm (s.get F.SRV_CMD_LO_MA0) (bitsOf v 11 0)
  let s := if s.srv.slot.isSome then s.inc F.SRV_CNT2_SUPER_CNT else s
  let s := (s.put F.SRV_LNK_CSEQ seq).onSrv fun x => { x with slot := some w, vcm := BitVec.ofNat 16 vcm }
  ((s.clr F.SRV_EVT_POS).measure cycles).traceFall

def execServoCommit (m : Master) (v : Word) (cycles : Nat) (s : State) : Host.Outcome State Fault Refusal :=
  .next (s.byCore m R.SRV_CMD_HI v fun s => servoCommit m v cycles s)

/-- Four frames have passed without the SEQ of a sent commit (R223): of the one sent first. -/
def cmdlost (s : State) : State :=
  if s.srv.sent = [] then s else
  ((s.onSrv fun v => { v with sent := v.sent.drop 1 }).raiseBit F.SRV_EVT_CMDLOST).inc F.SRV_CNT_CMDLOST_CNT

def execCmdlost (s : State) : Host.Outcome State Fault Refusal := .next (cmdlost s)

/-- A shock input is high on two samples (R227). -/
def shockEvent (n : BitVec 1) (s : State) : State :=
  if ¬ connected s (if n = 0 then .shk0 else .shk1) then s else
  let s := s.onSrv fun v => { v with shkHigh := true, shkLeft := s.get F.SRV_CTL_SHKHOLD }
  (((s.raiseBit F.SRV_EVT_SHK).inc F.SRV_CNT2_SHK_CNT).wusRise 1).chSettle

def execShockEvent (n : BitVec 1) (s : State) : Host.Outcome State Fault Refusal := .next (shockEvent n s)

/-- A preamp fault line goes low (R226, R280). PA1 counts only with two preamps. -/
def preampFault (n : BitVec 1) (s : State) : State :=
  if n = 1 ∧ ¬ s.on F.PMX_STRAP_PA_CNT then s else s.paFall.chSettle

def execPreampFault (n : BitVec 1) (s : State) : Host.Outcome State Fault Refusal := .next (preampFault n s)

/-- A write of SRV_CTL (R225): MODE 3 is stored as 0 and MISSLIM 0 as 1; ONTRK and its count clear. -/
def srvModeWrite (v : Word) (s : State) : State :=
  let md := if bitsOf v 1 0 = 3 then 0 else bitsOf v 1 0
  let s := ((s.put F.SRV_CTL_MODE md).put F.SRV_CTL_TRCEN (bitsOf v 4 4)).put F.SRV_CTL_MISSLIM (Nat.max (bitsOf v 15 8) 1)
  let s := ((s.put F.SRV_CTL_SHKHOLD (bitsOf v 23 16)).clr F.SRV_STAT_ONTRK).onSrv fun x => { x with settle := 0 }
  if md = mdFOLLOW then s else (s.wusRise 1).chSettle

def execSrvModeWrite (m : Master) (v : Word) (s : State) : Host.Outcome State Fault Refusal :=
  .next (s.byCore m R.SRV_CTL v fun s => srvModeWrite v s)

/-- A record on the trace signals that are on balls: in clock k TRACE_Dj carries bit 4k + j (R234, R69). -/
def traceOut (s : State) (r : BitVec 64) : Out :=
  .trace (connected s (.trace 0)) (((List.range 4).filter fun j => connected s (.trace (j + 1))).map fun j =>
    (j, (List.range 16).map fun k => r.getLsbD (4 * k + j)))

/-- The trace port takes the record that is due, or drops it while another shifts (R234). -/
def traceRecord (busy : Bool) (s : State) : State :=
  match s.srv.trace with
  | none => s
  | some r =>
    let s := s.onSrv fun v => { v with trace := none }
    if ¬ s.on F.SRV_CTL_TRCEN then s
    else if busy then s.inc F.SRV_CNT2_TRCDROP_CNT else s.emit (traceOut s r)

def execTraceRecord (busy : Bool) (s : State) : Host.Outcome State Fault Refusal := .next (traceRecord busy s)

end Sys2Proof.Machine
end

