-- ==== Sys2Proof/Machine/CmdOps.lean ====
section
/-! DEFINITION. How drive firmware carries out a host command (R382 to R398): one step of its work at a time, each of
which looks a chunk up in Firn, asks for a media read or a host transfer, or takes the result of one. -/

namespace Sys2Proof.Machine

open Sys2Proof

/-! ### The command's units and blocks (R383, R397) -/

/-- The media LBA of unit j of a command's extents, and how many units its extent still holds from there. -/
def unitAt : List (Nat × Nat) → Nat → Option (Nat × Nat)
  | [], _ => none
  | (x, n) :: l, j => if j < n then some (x + j, n - j) else unitAt l (j - n)

/-- Units of a command. -/
def unitCount (s : State) (k : Cmd) : Nat := (unitsOf s k.party (sqeOf k.bytes)).2

/-- Host blocks of the command that lie before its unit j. -/
def blocksTo (s : State) (k : Cmd) (j : Nat) : Nat :=
  let e := sqeOf k.bytes
  blocksBefore s k.party e ((unitsOf s k.party e).1 + j)

/-- The part of unit j that the command covers: offset in the host data, length, and offset in the sector. -/
def unitSpan (s : State) (k : Cmd) (j : Nat) : Nat × Nat × Nat :=
  if s.on (F.UQI_PCFG_EMU k.party) then
    let e := sqeOf k.bytes
    let a := Nat.max e.lba (8 * (e.lba / 8 + j))
    let b := Nat.min (e.lba + e.nlb) (8 * (e.lba / 8 + j + 1))
    ((a - e.lba) * 512, (b - a) * 512, a % 8 * 512)
  else (4096 * j, 4096, 0)

/-- The command covers all of unit j. -/
def unitWhole (s : State) (k : Cmd) (j : Nat) : Bool := (unitSpan s k j).2.1 == 4096

/-- The chunk at unit j: its media LBA and units, in one segment and one extent. A unit covered in part is a chunk of its
own. -/
def chunkAt (s : State) (k : Cmd) (j : Nat) : Option (Nat × Nat) :=
  (unitAt k.exts j).map fun (x, run) =>
    if ¬ unitWhole s k j then (x, 1) else
    let n := Nat.min run (64 - x % 64)
    (x, if unitWhole s k (j + n - 1) then n else n - 1)

/-! ### Completing (R382, R390, R397) -/

def State.setFw (s : State) (i : Nat) (k : Cmd) (f : FwWork) : State := s.setCmd i (some { k with fw := f })

/-- Commit the one completion of a command. -/
def State.fwEnd (s : State) (i : Nat) (k : Cmd) (status ed spec : Nat) : State :=
  (s.commitCpl i k status ed spec).uqiRun

/-- A command of Table 16.1 that drive firmware works on: dispatched, not completed, in a mode in which HC0 and HC1 run. -/
def fwCmd (s : State) (i opc : Nat) : Option Cmd :=
  match s.cmd i with
  | some k => if k.core.isSome && !k.posted && (sqeOf k.bytes).opc == opc && s.mode != mOFF && s.mode != mRETREAT then some k
              else none
  | none => none

def writesBlocks (opc : Nat) : Bool := opc == 0x01 || opc == 0x04 || opc == 0x05

/-- An earlier command of the party still has its effect on an overlapping unit before it (R395). -/
def fwHeld (s : State) (k : Cmd) : Bool :=
  let e := sqeOf k.bytes
  let u := unitsOf s k.party e
  (cmds s).any fun (c : Nat × Cmd) =>
    let f := sqeOf c.2.bytes
    let v := unitsOf s c.2.party f
    c.2.party == k.party && decide (c.2.seq < k.seq) && !c.2.posted && c.2.core.isSome &&
      ((writesBlocks f.opc && (writesBlocks e.opc || e.opc == 0x02)) || (f.opc == 0x02 && writesBlocks e.opc)) &&
      rangesMeet u.1 u.2 v.1 v.2

/-- XTS is required and the party's key slot is not READY (R349). -/
def keyMissing (s : State) (p : Nat) : Bool := s.on F.DMA_CTL_XTSREQ && (noKey s p).isSome

/-! ### Sectors in Firn -/

/-- The address of a sector of a tag. -/
def secAddr (s : State) (key j : Nat) : Nat := frameAddr (s.tag key).frame + 4096 * j

/-- Zeros in the named sectors of a tag, with their side entries (R346). -/
def State.zeroSectors (s : State) (key : Nat) (l : List Nat) : State :=
  State.each (fun j s =>
    let a := secAddr s key j
    let s := s.bufZero a 4096
    s.setSide a (sideEntry (sectorCrc s a) (zeros 16))) l s

/-- The unit was deallocated, or its party's key erased, and not written since (R387, R416). -/
def isZeroed (s : State) (p x : Nat) : Bool := s.uqi.zeroed.contains (p, x) || inSpans s.uqi.never p x

/-- Units are written: they are deallocated, never written or moved from another party no longer. -/
def State.unzero (s : State) (p x n : Nat) : State :=
  s.onUqi fun u => { u with
    zeroed := u.zeroed.filter fun (z : Nat × Nat) => !(z.1 == p && decide (x ≤ z.2) && decide (z.2 < x + n))
    never := cutSpans u.never p x n
    moved := cutSpans u.moved p x n }

/-- Post write-backs of every dirty sector of a party, while the clean queue takes them. -/
def State.cleanParty (s : State) (p : Nat) : State :=
  State.each (fun (c : Nat × FTag) s => match c.2.held with
    | some g => if g.owner = p then (s.maintTag .clean c.1 (~~~0)).2 else s
    | none => s) s.firn.tags s

/-- The masks V, D, E and L of p's segment at an LBA, all 0 where it is not held. -/
def segMasks (s : State) (p x : Nat) : Seg := (segNow s p (x / 64)).getD { seg := x / 64, owner := p }

/-! ### Media reads into Firn (R298, R387) -/

/-- The leading sectors of [x, x + n) that have V = 0 and are alike in being deallocated. -/
def fillRun (s : State) (p x n : Nat) : Nat :=
  let g := segMasks s p x
  ((List.range n).takeWhile fun i => !g.v.getLsbD (x % 64 + i) && isZeroed s p (x + i) == isZeroed s p x).length

/-- A requester tag that the core has not in use. -/
def freeRtag (s : State) (m : Master) : Option Nat :=
  (List.range 255).find? fun t =>
    !(s.ord.reqs.any fun (r : OrdReq) => r.core == m && r.clq.isNone && r.rtag == t) &&
    !((tabGet s.ord.results [] m.idx).any fun (r : OrdRes) => r.rtag == t) &&
    !((cmds s).any fun (c : Nat × Cmd) => c.2.core == some m && c.2.fw.phase == 1 && c.2.fw.wait == t)

/-- Fill the sectors from x on, unit u of the command: zeros for deallocated units, a media read for others. The state is
unchanged where Firn or the orderer has no room. -/
def State.fwFill (s : State) (i : Nat) (k : Cmd) (u x n : Nat) (errs : List RmeErr) : State :=
  let p := k.party
  let m := k.core.getD .hc0
  let c := fillRun s p x n
  let mk := maskOf (x % 64) c
  let ans := s.firnLookup p x c .fillLock false
  let r := ans.1
  let s1 := ans.2
  match r.key with
  | none => (s.cleanParty p)
  | some key =>
    if r.granted ≠ some mk then s
    else if isZeroed s p x then
      ((s1.zeroSectors key (sectorsOf mk)).firnFill false key 0 (s1.tag key).gen mk).2.2
    else match freeRtag s m with
      | none => s
      | some t =>
        if s.ord.reqs.length ≥ 512 then s else
        let s := s1.setFw i k { k.fw with phase := 1, wait := t, key, gen := (s1.tag key).gen, first := x, n := c, unit := u }
        s.ordAccept { id := 0, core := m, rtag := t, mlba := x, offs := List.range c, write := false, cont := false
                      retry := k.fw.tries != 0, final := k.fw.tries != 0, xts := s.on F.DMA_CTL_XTSREQ, party := p
                      buf := secAddr s key (x % 64), since := 0, errs }

/-- The result of a media read has come: fill what it brought, and free the rest (R407). A BLANK sector counts as one
that was never written, and so does a MISDIR one that the party was given and has not written (R415). A failure is tried once more, sector by sector, before the command ends with it (R276, R409). -/
def State.fwMedia (s : State) (i : Nat) (k : Cmd) : State :=
  let f := k.fw
  let m := k.core.getD .hc0
  let l := tabGet s.ord.results [] m.idx
  match l.find? fun (r : OrdRes) => r.rtag == f.wait with
  | none => s
  | some r =>
    let l := dropFirst (fun (r : OrdRes) => r.rtag == f.wait) l
    let s := (s.onOrd fun o => { o with results := tabPut o.results [] m.idx l }).putB (F.ORD_EVT_RESV m) (!l.isEmpty)
    let d := Nat.min r.ndone f.n
    let j := f.first % 64
    let s := (s.firnFill false f.key 0 f.gen (maskOf j d)).2.2
    let blank := decide (d < f.n) && !r.mapf && (r.res == 5 || (r.res == 4 && inSpans s.uqi.moved k.party (f.first + d)))
    let s := if blank then
        ((s.zeroSectors f.key [j + d]).firnFill false f.key 0 f.gen (maskOf (j + d) 1)).2.2
      else s
    let s := (s.firnAbort false f.key 0 f.gen (maskOf j f.n) 0).2.2
    if d = f.n ∨ blank then s.setFw i k { f with phase := 0, tries := 0 }
    else if r.mapf then s.fwEnd i k 0x13 (blocksTo s k f.pos) (blocksTo s k (f.unit + d))
    else if f.tries = 0 then s.setFw i k { f with phase := 0, tries := 1 }
    else s.fwEnd i k 0x11 (blocksTo s k f.pos) (blocksTo s k (f.unit + d))

/-! ### Host transfers (R372, R378) -/

/-- A host-transfer tag that the core has not in use. -/
def freeXtag (s : State) (m : Master) : Option Nat :=
  (List.range 256).find? fun t =>
    !(s.uqi.jobs.any fun (j : XJob) => j.core == m && j.xtag == t) &&
    !(s.uqi.res.any fun (r : XRes) => r.core == m && r.xtag == t)

/-- Queue a host transfer of the command's bytes [off, off + n), with the work `f` noted. None where no transfer can be
queued. -/
def State.fwMove (s : State) (i : Nat) (k : Cmd) (f : FwWork) (out : Bool) (a off n : Nat) : Option State :=
  let m := k.core.getD .hc0
  match freeXtag s m with
  | none => none
  | some t =>
    if (s.uqi.jobs.filter fun (j : XJob) => j.core == m).length ≥ 32 then none else
    let s := s.setFw i k { f with phase := 2, wait := t }
    some (s.onUqi fun x => { x with jobs := x.jobs ++ [({
      core := m
      idx := i
      xbuf := a
      xoff := off
      xlen := n
      out
      pi := (sqeOf k.bytes).pi
      xtag := t } : XJob)] }).uqiRun

/-- Take the result of the host transfer that the command waits for. -/
def State.fwResult (s : State) (k : Cmd) : Option (XRes × State) :=
  let mine (r : XRes) : Bool := some r.core == k.core && r.xtag == k.fw.wait
  (s.uqi.res.find? mine).map fun r => (r, s.onUqi fun u => { u with res := dropFirst mine u.res })

/-- STATUS and SPEC of a host transfer that failed `off` bytes into the host data (R372, Table 16.5); none where the
transfer is to be made again. -/
def linkStatus (s : State) (k : Cmd) (off : Nat) (r : XRes) : Option (Nat × Nat) :=
  let e := (walk s k (off + r.done) ((sqeOf k.bytes).dlen - off - r.done)).2
  if r.cause = 9 ∨ r.cause = 10 then some (0x14, r.cause)
  else if 11 ≤ r.cause ∧ r.cause ≤ 14 then some (0x42, r.cause)
  else if r.cause = 15 then some (0x43, (s.port (curPort s k.party)).cause)
  else if r.cause = 20 then some (0x41, r.detail + (match e with
    | .fault 7 _ _ _ _ => 256
    | .fault _ _ _ _ _ => 0
    | .page _ => 0
    | .covered => 0))
  else if r.cause = 21 then some (0x40, match e with
    | .fault kind depth idx _ _ => kind + depth % 256 * 256 + idx % 256 * 65536
    | .page _ => r.detail + (k.pages.length + 1) % 256 * 256
    | .covered => r.detail)
  else none

/-! ### READ (R387) -/

/-- A stopped command ends with ABORTED once nothing of it is under way (R390). -/
def State.fwStop (s : State) (i : Nat) (k : Cmd) : State :=
  let e := sqeOf k.bytes
  s.fwEnd i k 0x03 (blocksTo s k (if e.fua then k.fw.dur else k.fw.pos)) 0

def State.readChunk (s : State) (i : Nat) (k : Cmd) (errs : List RmeErr) : State :=
  let f := k.fw
  let p := k.party
  match chunkAt s k f.pos with
  | none => s.fwEnd i k 0 (sqeOf k.bytes).nlb 0
  | some (x, n) =>
    let g := segMasks s p x
    let mk := maskOf (x % 64) n
    let bad := mk &&& g.e &&& g.v
    if (bad &&& g.d) ≠ 0 then
      s.fwEnd i k 0x14 (blocksTo s k f.pos) 10
    else if bad ≠ 0 then (s.maintAddr .inval p x n).2
    else match (List.range n).find? fun j => !g.v.getLsbD (x % 64 + j) with
      | some j => s.fwFill i k (f.pos + j) (x + j) (n - j) errs
      | none =>
        let ans := s.firnLookup p x n .look true
        let r := ans.1
        let s1 := ans.2
        match r.key with
        | none => s
        | some key =>
          let ans := unitSpan s k f.pos
          let off := ans.1
          let len := ans.2.1
          let so := ans.2.2
          let bytes := if len = 4096 then 4096 * n else len
          (s1.fwMove i k { f with key, gen := (s1.tag key).gen, first := x, n } true (secAddr s1 key (x % 64) + so) off bytes).getD s

/-- A transfer to the host has ended: the segment is unpinned, and the command goes on or ends. -/
def State.readMoved (s : State) (i : Nat) (k : Cmd) : State :=
  let f := k.fw
  match s.fwResult k with
  | none => s
  | some (r, s) =>
    let s := (s.unpinTag f.key f.gen).2
    if r.cause = 0 then s.setFw i k { f with phase := 0, pos := f.pos + f.n }
    else match linkStatus s k (unitSpan s k f.pos).1 r with
      | some (st, spec) => s.fwEnd i k st (blocksTo s k f.pos + r.done / blockSize s k.party) spec
      | none => s.setFw i k { f with phase := 0 }

/-- One step of a READ. -/
def State.readStep (s : State) (i : Nat) (k : Cmd) (errs : List RmeErr) : State :=
  if k.fw.phase = 1 then s.fwMedia i k
  else if k.fw.phase = 2 then s.readMoved i k
  else if k.fw.stop then s.fwStop i k
  else if fwHeld s k then s
  else if keyMissing s k.party then s.fwEnd i k 0x15 (blocksTo s k k.fw.pos) 0
  else s.readChunk i k errs

/-! ### WRITE and WRITE_ZEROES (R384, R387, R388, R393) -/

/-- The sectors of a chunk are committed; under FUA their write-back is asked for at once. A COMMIT that refuses a sector, which
has lost its V during a partial write (R297, R307), commits nothing of the chunk: its data is moved again. -/
def State.fwCommit (s : State) (i : Nat) (k : Cmd) (f : FwWork) (whole : Bool) : State :=
  let mk := maskOf (f.first % 64) f.n
  let ans := s.firnCommit f.key f.gen mk (if whole then mk else 0)
  if ans.1 ≠ srOK then ans.2.2.setFw i k { f with phase := 0 } else
  let s := ans.2.2
  let s := s.unzero k.party f.first f.n
  let s := if (sqeOf k.bytes).fua then (s.maintTag .clean f.key mk).2 else s
  s.setFw i k { f with phase := 0, pos := f.pos + f.n }

/-- One chunk of a write. A sector that the command covers in part is made valid first (R384). Sectors that are still
dirty are written back before new host data goes over them, so that a transfer that fails leaves their old content on the
medium (R398). -/
def State.writeChunk (s : State) (i : Nat) (k : Cmd) (zero : Bool) (x n : Nat) (errs : List RmeErr) : State :=
  let f := k.fw
  let p := k.party
  let g := segMasks s p x
  let mk := maskOf (x % 64) n
  let whole := unitWhole s k f.pos
  if ¬ whole ∧ (mk &&& g.v) ≠ mk then s.fwFill i k f.pos x n errs
  else if ¬ zero ∧ (mk &&& g.d) ≠ 0 then (match findTag s p (x / 64) with
    | some key => (s.maintTag .clean key mk).2
    | none => s)
  else
    let ans := s.firnLookup p x n .reserve true
    let r := ans.1
    let s1 := ans.2
    match r.result, r.key with
    | 5, _ => s1.cleanParty p
    | 3, _ => s1.cleanParty p
    | _, none => s
    | res, some key =>
      if res ≠ lrHIT ∧ res ≠ lrNEW then s else
      let ans := unitSpan s k f.pos
      let off := ans.1
      let len := ans.2.1
      let so := ans.2.2
      let f := { f with key, gen := (s1.tag key).gen, first := x, n }
      if zero then
        let s := if whole then s1.zeroSectors key (sectorsOf mk) else s1.rangeWrite (secAddr s1 key (x % 64) + so) (zeros len)
        (s.unpinTag f.key f.gen).2.fwCommit i k f whole
      else
        let bytes := if whole then 4096 * n else len
        (s1.fwMove i k f false (secAddr s1 key (x % 64) + so) off bytes).getD s

/-- A transfer from the host has ended: its sectors are committed, or their reservation is returned and what the transfer
left of them is dropped. -/
def State.writeMoved (s : State) (i : Nat) (k : Cmd) : State :=
  let f := k.fw
  match s.fwResult k with
  | none => s
  | some (r, s) =>
    let s := (s.unpinTag f.key f.gen).2
    if r.cause = 0 then s.fwCommit i k f (unitWhole s k f.pos)
    else
      let mk := maskOf (f.first % 64) f.n
      let s := (s.firnAbort false f.key 0 f.gen 0 f.n).2.2
      let s := (s.maintTag .inval f.key mk).2
      match linkStatus s k (unitSpan s k f.pos).1 r with
      -- PORTLOST counts the blocks committed, also under FUA (R375).
      | some (st, spec) => s.fwEnd i k st (blocksTo s k (if (sqeOf k.bytes).fua ∧ st ≠ 0x43 then f.dur else f.pos)) spec
      | none => s.setFw i k { f with phase := 0 }

/-- The FUA end of a write: each chunk in turn is on the medium once none of its sectors is dirty. `giveUp` says that
firmware's recovery has failed too (R408). -/
def State.fuaStep (s : State) (i : Nat) (k : Cmd) (giveUp : Bool) : State :=
  let f := k.fw
  match chunkAt s k f.dur with
  | none => s.fwEnd i k 0 (sqeOf k.bytes).nlb 0
  | some (x, n) =>
    let mk := maskOf (x % 64) n
    if (mk &&& (segMasks s k.party x).d) = 0 then s.setFw i k { f with dur := f.dur + n }
    else if giveUp then s.fwEnd i k 0x12 (blocksTo s k f.dur) (blocksTo s k f.dur)
    else match findTag s k.party (x / 64) with
      | some key => (s.maintTag .clean key mk).2
      | none => s

/-- One step of a WRITE or WRITE_ZEROES. -/
def State.writeStep (s : State) (i : Nat) (k : Cmd) (zero giveUp : Bool) (errs : List RmeErr) : State :=
  if k.fw.phase = 1 then s.fwMedia i k
  else if k.fw.phase = 2 then s.writeMoved i k
  else if k.fw.stop then s.fwStop i k
  else if fwHeld s k then s
  else if keyMissing s k.party then s.fwEnd i k 0x15 (blocksTo s k (if (sqeOf k.bytes).fua then k.fw.dur else k.fw.pos)) 0
  else match chunkAt s k k.fw.pos with
    | some (x, n) => s.writeChunk i k zero x n errs
    | none => if (sqeOf k.bytes).fua then s.fuaStep i k giveUp else s.fwEnd i k 0 (sqeOf k.bytes).nlb 0

/-! ### DEALLOCATE and FLUSH (R388, R389) -/

/-- One step of a DEALLOCATE: a sector covered in part takes zeros as by a write; whole sectors leave the dirty set by
DISCARD and read as zeros from then on. -/
def State.deallocStep (s : State) (i : Nat) (k : Cmd) (errs : List RmeErr) : State :=
  if k.fw.phase = 1 then s.fwMedia i k
  else if k.fw.stop then s.fwStop i k
  else if fwHeld s k then s
  else match chunkAt s k k.fw.pos with
    | none => s.fwEnd i k 0 (sqeOf k.bytes).nlb 0
    | some (x, n) =>
      if ¬ unitWhole s k k.fw.pos then s.writeChunk i k true x n errs
      else if (maskOf (x % 64) n &&& (segMasks s k.party x).l) ≠ 0 then s
      else
        let ans := s.maintAddr .discard k.party x n
        let s := ans.2
        let s := s.unzero k.party x n
        let s := s.onUqi fun u => { u with zeroed := u.zeroed ++ (List.range n).map fun j => (k.party, x + j) }
        s.setFw i k { k.fw with pos := k.fw.pos + n }

/-- Write zeros over a deallocated unit, as a FLUSH takes it. -/
def State.flushZero (s : State) (p x : Nat) : State :=
  let ans := s.firnLookup p x 1 .reserve false
  let r := ans.1
  let s1 := ans.2
  match r.result, r.key with
  | 5, _ => s1.cleanParty p
  | 3, _ => s1.cleanParty p
  | _, none => s
  | res, some key =>
    if res ≠ lrHIT ∧ res ≠ lrNEW then s else
    let mk := maskOf (x % 64) 1
    (((s1.zeroSectors key [x % 64]).firnCommit key (s1.tag key).gen mk mk).2.2).unzero p x 1

/-- The dirty sectors of a party in Firn, by segment. -/
def dirtyOf (s : State) (p : Nat) : List (Nat × BitVec 64) :=
  s.firn.tags.filterMap fun (c : Nat × FTag) => match c.2.held with
    | some g => if g.owner = p ∧ g.d ≠ 0 then some (g.seg, g.d) else none
    | none => none

/-- What is still dirty of a list of covered sectors. -/
def stillDirty (s : State) (p : Nat) (l : List (Nat × BitVec 64)) : List (Nat × BitVec 64) :=
  (l.map fun (c : Nat × BitVec 64) => (c.1, c.2 &&& (segMasks s p (64 * c.1)).d)).filter fun (c : Nat × BitVec 64) => c.2 != 0

/-- One step of a FLUSH: earlier writes end, deallocated units become zeros to be written, and everything covered is
written back. -/
def State.flushStep (s : State) (i : Nat) (k : Cmd) (giveUp : Bool) : State :=
  let p := k.party
  if k.fw.stop then s.fwEnd i k 0x03 0 0
  else if k.fw.phase = 3 then
    let l := stillDirty s p k.fw.cover
    if l.isEmpty then s.fwEnd i k 0 0 0
    else if giveUp then
      s.fwEnd i k 0x12 0 ((l.map fun (c : Nat × BitVec 64) => popcount c.2).sum * if s.on (F.UQI_PCFG_EMU p) then 8 else 1)
    else
      let s := s.setFw i k { k.fw with cover := l }
      State.each (fun (c : Nat × BitVec 64) s => match findTag s p c.1 with
        | some key => (s.maintTag .clean key c.2).2
        | none => s) l s
  else if (cmds s).any fun (c : Nat × Cmd) =>
      c.2.party == p && decide (c.2.seq < k.seq) && !c.2.posted && c.2.core.isSome && writesBlocks (sqeOf c.2.bytes).opc then s
  else
    let mine := s.uqi.zeroed.filter fun (z : Nat × Nat) => z.1 == p
    if mine.isEmpty then s.setFw i k { k.fw with phase := 3, cover := dirtyOf s p }
    else State.each (fun (z : Nat × Nat) s => s.flushZero p z.2) mine s

/-! ### ABORT (R390) -/

/-- The oldest command of the party with the CID and ring that an ABORT names, fetched before it and without a
completion. -/
def abortTarget (s : State) (k : Cmd) : Option (Nat × Cmd) :=
  let sqid := leNat (slice k.bytes 0x30 1)
  let cid := leNat (slice k.bytes 0x32 2)
  ((cmds s).filter fun (c : Nat × Cmd) =>
    c.2.party == k.party && c.2.ring == sqid && (sqeOf c.2.bytes).cid == cid && !c.2.posted && decide (c.2.seq < k.seq)).foldl
    (fun (b : Option (Nat × Cmd)) c => match b with
      | some d => if c.2.seq < d.2.seq then some c else b
      | none => some c) none

/-- Fw phase 3 of an ABORT: its target has been asked to stop. It completes after the target. -/
def State.abortStep (s : State) (i : Nat) (k : Cmd) : State :=
  if k.fw.phase = 3 then
    if k.fw.aim.isSome then s else s.fwEnd i k 0 0 (if k.fw.hit then 1 else 0)
  else match abortTarget s k with
    | none => s.fwEnd i k 0 0 0
    | some (t, c) =>
      let s := s.setFw t c { c.fw with stop := true }
      s.setFw i k { k.fw with phase := 3, aim := some t }

/-! ### IDENTIFY and RESIDUE_READ (R391, R392, R466, R467) -/

/-- The window entries of a party with READ right that lie in no other of them: prefixes nest or are apart. -/
def readWindows (s : State) (p : Nat) : List RmeEnt :=
  let l := (rmeEntries s true p).filter fun (c : Nat × RmeEnt) => c.2.rights.testBit 0
  (l.filter fun (c : Nat × RmeEnt) => !l.any fun (d : Nat × RmeEnt) =>
    d.1 != c.1 && rmeCovers d.2 (rmeStart c.2) && (decide (d.2.len < c.2.len) || (d.2.len == c.2.len && decide (d.1 < c.1)))).map
    Prod.snd

/-- The 256 bytes of Table 16.2. -/
def identifyData (s : State) (p : Nat) : List Byte :=
  let l := readWindows s p
  let emu := s.on (F.UQI_PCFG_EMU p)
  let per := if emu then 8 else 1
  let b := leBytes 4 (0x7640 * 65536 + s.part.grade % 16 * 4096 + s.part.step % 256) ++ leBytes 1 p ++
    leBytes 1 (if emu then 1 else 0) ++ leBytes 2 256 ++
    leBytes 8 ((l.map rmeSize).sum * per) ++ leBytes 8 ((l.map fun (e : RmeEnt) => rmeStart e + rmeSize e).foldl Nat.max 0 * per) ++
    leBytes 4 32768 ++ leBytes 4 (s.get (F.FIRN_DQ_DQUOTA p)) ++ leBytes 4 (leNat (slice s.sst.hdr 8 4)) ++
    leBytes 2 (leNat (slice s.sst.hdr 12 2))
  b ++ zeros (256 - b.length)

/-- Bytes of a residue report copy, striped by pages over the banks 8 to 15 (R466). -/
def copyBytes (s : State) (y : Bool) (off n : Nat) : List Byte :=
  let base := if y then 0x850000 else 0x830000
  let page (k : Nat) : List Byte := s.stoBytes (0x28000000 + k % 8 * 0x1000000 + base + 512 * (k / 8)) 512
  slice ((List.range ((off % 512 + n + 511) / 512)).flatMap fun k => page (off / 512 + k)) (off % 512) n

/-- GEN of a copy whose set header is valid. -/
def copyGen (s : State) (y : Bool) : Option Nat :=
  let h := copyBytes s y 0 512
  if leNat (slice h 0 4) = 0x54535352 ∧ leNat (slice h 0x1FC 4) = crc32c (slice h 0 0x1FC) then some (leNat (slice h 4 4)) else none

/-- The copy that holds the newest valid set. -/
def newestCopy (s : State) : Option Bool :=
  match copyGen s false, copyGen s true with
  | none, none => none
  | some _, none => some false
  | none, some _ => some true
  | some x, some y => some (decide (x < y))

/-- The report header where no set exists: STATE 0 and every count 0. -/
def noReport (s : State) (p : Nat) : List Byte :=
  let b := leBytes 4 0x52445352 ++ leBytes 2 1 ++ leBytes 1 p ++ leBytes 1 0 ++
    leBytes 1 (if s.on (F.UQI_PCFG_EMU p) then 1 else 0) ++ zeros 0x23 ++ leBytes 4 64 ++ zeros 12
  b ++ leBytes 4 (crc32c b)

/-- A party's residue report. -/
def residueReport (s : State) (p : Nat) : List Byte :=
  match newestCopy s with
  | none => noReport s p
  | some y =>
    let h := copyBytes s y 0 512
    copyBytes s y (leNat (slice h (0x20 + 8 * p) 4)) (leNat (slice h (0x24 + 8 * p) 4))

/-- Send bytes to the host through a buffer of the general region that firmware names. -/
def State.fwSend (s : State) (i : Nat) (k : Cmd) (buf : Nat) (bs : List Byte) : State :=
  if bs.isEmpty ∨ bufRegion buf ≠ some 4 ∨ bufRegion (buf + bs.length - 1) ≠ some 4 then s else
  ((s.bufWrite buf bs).fwMove i k k.fw true buf 0 bs.length).getD s

/-- The transfer of such bytes has ended. -/
def State.sendMoved (s : State) (i : Nat) (k : Cmd) (spec : Nat) : State :=
  match s.fwResult k with
  | none => s
  | some (r, s) =>
    if r.cause = 0 then s.fwEnd i k 0 0 spec
    else match linkStatus s k 0 r with
      | some (st, spec) => s.fwEnd i k st 0 spec
      | none => s.setFw i k { k.fw with phase := 0 }

end Sys2Proof.Machine
end

