-- ==== Sys2Proof/Machine/Cmd.lean ====
section
/-! DEFINITION. The host commands of Table 16.1, as drive firmware carries them out: each event is one more step of its
work on command-table entry i (R385 to R398). -/

namespace Sys2Proof.Machine

open Sys2Proof

/-- One step of drive firmware's work on a command with an opcode. -/
def fwStep (opc : Nat) (i : BitVec 10) (f : Nat → Cmd → State → State) (s : State) : State :=
  match fwCmd s i.toNat opc with
  | some k => f i.toNat k s
  | none => s

/-- FLUSH (R389). -/
def execFlush (i : BitVec 10) (giveUp : Bool) (s : State) : Host.Outcome State Fault Refusal :=
  .next (fwStep 0x00 i (fun n k s => s.flushStep n k giveUp) s)

/-- WRITE (R387). -/
def execWrite (i : BitVec 10) (giveUp : Bool) (errs : List RmeErr) (s : State) : Host.Outcome State Fault Refusal :=
  .next (fwStep 0x01 i (fun n k s => s.writeStep n k false giveUp errs) s)

/-- READ (R387). -/
def execRead (i : BitVec 10) (errs : List RmeErr) (s : State) : Host.Outcome State Fault Refusal :=
  .next (fwStep 0x02 i (fun n k s => s.readStep n k errs) s)

/-- WRITE_ZEROES (R388). -/
def execWriteZeroes (i : BitVec 10) (giveUp : Bool) (errs : List RmeErr) (s : State) : Host.Outcome State Fault Refusal :=
  .next (fwStep 0x04 i (fun n k s => s.writeStep n k true giveUp errs) s)

/-- DEALLOCATE (R388). -/
def execDeallocate (i : BitVec 10) (errs : List RmeErr) (s : State) : Host.Outcome State Fault Refusal :=
  .next (fwStep 0x05 i (fun n k s => s.deallocStep n k errs) s)

/-- ABORT (R390). -/
def execAbort (i : BitVec 10) (s : State) : Host.Outcome State Fault Refusal :=
  .next (fwStep 0x08 i (fun n k s => s.abortStep n k) s)

/-- IDENTIFY (R391): the 256 bytes go to the host by way of `buf`. -/
def identifyStep (buf : Word) (i : Nat) (k : Cmd) (s : State) : State :=
  if k.fw.phase = 2 then s.sendMoved i k 0
  else if k.fw.stop then s.fwEnd i k 0x03 0 0
  else s.fwSend i k buf.toNat (identifyData s k.party)

def execIdentify (i : BitVec 10) (buf : Word) (s : State) : Host.Outcome State Fault Refusal :=
  .next (fwStep 0x0C i (identifyStep buf) s)

/-- RESIDUE_READ (R392): bytes OFFSET on of the party's report. -/
def residueStep (buf : Word) (i : Nat) (k : Cmd) (s : State) : State :=
  let r := residueReport s k.party
  let off := leNat (slice k.bytes 0x30 4)
  if k.fw.phase = 2 then s.sendMoved i k r.length
  else if k.fw.stop then s.fwEnd i k 0x03 0 0
  else if r.length ≤ off then s.fwEnd i k 0x02 0 0x30
  else s.fwSend i k buf.toNat (slice r off (Nat.min (sqeOf k.bytes).dlen (r.length - off)))

def execResidueRead (i : BitVec 10) (buf : Word) (s : State) : Host.Outcome State Fault Refusal :=
  .next (fwStep 0x0F i (residueStep buf) s)

end Sys2Proof.Machine
end

