-- ==== Sys2Proof/Machine/Wsq.lean ====
section
/-! DEFINITION. The commands of the wedge sequencer (R195 to R198). Each word's command says how many WSQCK cycles have
passed since the sequencer's last step and what the capture units hold. -/

namespace Sys2Proof.Machine

open Sys2Proof

/-- SEQ CONT. -/
def wsqCont (n : Nat) (f : Captures) (s : State) : State := s.wsqExec n f 0 fun _ pc _ s => s.wsqGoto (pc + 1)

def execWsqCont (n : Nat) (f : Captures) (s : State) : Host.Outcome State Fault Refusal := .next (wsqCont n f s)

/-- SEQ JUMP. -/
def wsqJump (n : Nat) (f : Captures) (s : State) : State := s.wsqExec n f 1 fun w _ _ s => s.wsqGoto (wNext w)

def execWsqJump (n : Nat) (f : Captures) (s : State) : Host.Outcome State Fault Refusal := .next (wsqJump n f s)

/-- SEQ BRANCH. -/
def wsqBranch (n : Nat) (f : Captures) (s : State) : State :=
  s.wsqExec n f 2 fun w pc c s => s.wsqGoto (if c then wNext w else pc + 1)

def execWsqBranch (n : Nat) (f : Captures) (s : State) : Host.Outcome State Fault Refusal := .next (wsqBranch n f s)

/-- SEQ WAIT, first cycle: the actions, once; the word goes on at once if its condition holds. -/
def wsqWait (n : Nat) (f : Captures) (s : State) : State :=
  s.wsqExec n f 3 fun _ pc c s => if c then s.wsqGoto (pc + 1) else s.onWsq fun q => { q with waiting := true }

def execWsqWait (n : Nat) (f : Captures) (s : State) : Host.Outcome State Fault Refusal := .next (wsqWait n f s)

/-- The condition of a waiting word holds. -/
def wsqWaitSatisfied (n : Nat) (f : Captures) (s : State) : State :=
  if ¬ wsqWaits s n then s else
  let t := (s.wsqTime n f).wsqCycles n
  if wCond t (curWord t) then (t.onWsq fun q => { q with waiting := false }).wsqGoto (s.get F.WSQ_PC_PC + 1) else s

def execWsqWaitSatisfied (n : Nat) (f : Captures) (s : State) : Host.Outcome State Fault Refusal := .next (wsqWaitSatisfied n f s)

/-- SEQ CALL; a full return stack forces a halt (R197). -/
def wsqCall (n : Nat) (f : Captures) (s : State) : State :=
  if wsqRuns s ∧ wSeq (curWord s) = 4 ∧ 4 ≤ s.wsq.stack.length then s.wsqFault n f else
  s.wsqExec n f 4 fun w pc _ s => (s.onWsq fun q => { q with stack := (pc + 1) % 16384 :: q.stack }).wsqGoto (wNext w)

def execWsqCall (n : Nat) (f : Captures) (s : State) : Host.Outcome State Fault Refusal := .next (wsqCall n f s)

/-- SEQ RET; an empty return stack forces a halt (R197). -/
def wsqRet (n : Nat) (f : Captures) (s : State) : State :=
  if wsqRuns s ∧ wSeq (curWord s) = 5 ∧ s.wsq.stack = [] then s.wsqFault n f else
  s.wsqExec n f 5 fun _ _ _ s => (s.onWsq fun q => { q with stack := q.stack.drop 1 }).wsqGoto (s.wsq.stack.headD 0)

def execWsqRet (n : Nat) (f : Captures) (s : State) : Host.Outcome State Fault Refusal := .next (wsqRet n f s)

/-- SEQ DISPATCH: NEXT plus the head of the last SERVO_WIN, modulo 16,384. -/
def wsqDispatch (n : Nat) (f : Captures) (s : State) : State :=
  s.wsqExec n f 6 fun w _ _ s => s.wsqGoto ((wNext w + s.get F.WSQ_ARG_ARG % 32) % 16384)

def execWsqDispatch (n : Nat) (f : Captures) (s : State) : Host.Outcome State Fault Refusal := .next (wsqDispatch n f s)

/-- SEQ HALT: RSM takes NEXT; a held SERVO_WIN resumes the WSQ there (R196). -/
def wsqHalt (n : Nat) (f : Captures) (s : State) : State :=
  s.wsqExec n f 7 fun w _ _ s => (s.put F.WSQ_PC_RSM (wNext w)).wsqHalted

def execWsqHalt (n : Nat) (f : Captures) (s : State) : Host.Outcome State Fault Refusal := .next (wsqHalt n f s)

/-- A SEQ code from 8 to 15 forces a halt (R197). -/
def wsqIllegal (n : Nat) (f : Captures) (s : State) : State :=
  if wsqRuns s ∧ 8 ≤ wSeq (curWord s) then s.wsqFault n f else s

def execWsqIllegal (n : Nat) (f : Captures) (s : State) : Host.Outcome State Fault Refusal := .next (wsqIllegal n f s)

/-- WDLIM cycles after a resume without a HALT (R197): a waiting word has waited n of them. -/
def wsqWatchdog (n : Nat) (f : Captures) (s : State) : State :=
  let k := if s.wsq.waiting then n else wordCycles s n
  let c := if s.wsq.waiting then n else 1
  if wsqGoing s ∧ s.get F.WSQ_CTL_WDLIM ≤ s.wsq.wd + c then
    ((((s.wsqTime k f).wsqCycles c).wsqForced true)).chSettle
  else s

def execWsqWatchdog (n : Nat) (f : Captures) (s : State) : Host.Outcome State Fault Refusal := .next (wsqWatchdog n f s)

/-- The window timer reaches 0 between words, while the WSQ is halted or a word waits, with CONV executed and an armed group
incomplete: a BURST miss (R230). In the cycle of a word that word's command finds it. -/
def burstWindowExpiry (n : Nat) (f : Captures) (s : State) : State :=
  if s.wsq.win = 0 ∨ n < s.wsq.win ∨ ¬ s.srv.conv ∨ groupsDone (s.capture f) then s
  else if wsqWaits s n then ((s.wsqTime n f).wsqCycles n).chSettle
  else if wsqGoing s ∧ (s.wsq.waiting ∨ s.wsq.wd ≠ 0) then s
  else (s.wsqTime n f).chSettle

def execBurstWindowExpiry (n : Nat) (f : Captures) (s : State) : Host.Outcome State Fault Refusal := .next (burstWindowExpiry n f s)

/-- The balls of a preamp's serial port are not parked (R57, R58): not in RETREAT, not while WSQCK is gated, and for PA1
only with two preamps. -/
def serialBalls (s : State) (pa1 : Bool) : Bool :=
  s.mode != mRETREAT && domainRuns s 11 && (!pa1 || s.on F.PMX_STRAP_PA_CNT)

/-- A preamp frame has been clocked out (R198). It leaves the device only at balls that are not parked. -/
def preampFrameDone (pa1 : Bool) (s : State) : State :=
  if ¬ domainRuns s 11 then s else
  match if pa1 then s.wsq.busy1 else s.wsq.busy0 with
  | some d =>
    let s := if serialBalls s pa1 then s.emit (.preamp pa1 d) else s
    s.onWsq fun q => if pa1 then { q with busy1 := none } else { q with busy0 := none }
  | none => s

def execPreampFrameDone (pa1 : Bool) (s : State) : Host.Outcome State Fault Refusal := .next (preampFrameDone pa1 s)

/-- A write of WSQ_PAQ (R198): eight entries. -/
def wsqPaqWrite (v : Word) (s : State) : State :=
  if s.wsq.paq.length ≥ 8 then s.raiseBit F.WSQ_FLAG_PAQFULL
  else (s.onWsq fun q => { q with paq := q.paq ++ [(v.getLsbD 16, BitVec.ofNat 16 (bitsOf v 15 0))] }).wsqStat

def execWsqPaqWrite (m : Master) (v : Word) (s : State) : Host.Outcome State Fault Refusal :=
  .next (s.byCore m R.WSQ_PAQ v fun s => wsqPaqWrite v s)

end Sys2Proof.Machine
end

