-- ==== Sys2Proof/Machine/Views.lean ====
section
/-! DEFINITION. What a read of a register returns: the stored word with its write-only fields at 0 (R8), and the fields
that show a queue, a counter or another block's state. Also the interrupt levels of the blocks (R48, R164, R355). -/

namespace Sys2Proof.Machine

open Sys2Proof

/-- A field of a word that a read computes: its bits and its value. -/
structure Shown where
  hi : Nat
  lo : Nat
  val : Nat

def flag (b : Bool) : Nat := if b then 1 else 0

/-- Put computed fields into a word. -/
def overlayWord (w : Word) (l : List Shown) : Word := l.foldl (fun w f => withBits w f.hi f.lo f.val) w

def whole (n : Nat) : List Shown := [{ hi := 31, lo := 0, val := n }]

/-! ### Banks and shadows -/

/-- A banked register has a bank for a master: HC0 and HC1 in the UQI (R378), all but SV in the FIRN, the RME and the
orderer (R296, R333, R411), and every core elsewhere (R48, R164). -/
def bankFor (m : Master) (a : Nat) : Bool :=
  let b := a / 4096
  if b = 0x4000B then isHc m
  else if b = 0x40007 ∨ b = 0x40008 ∨ (0x40002600 ≤ a ∧ a < 0x40003000) then m != .sv
  else true

/-- The key at which a master finds a register. -/
def regKey (m : Master) (a : Nat) : Nat :=
  match findReg a with
  | some r => if r.banked then bankKey m a else a
  | none => a

/-- The high words of R9, each with its low word. -/
def shadowOf (a : Nat) : Option Nat :=
  ([(R.ANGLE_LO, R.ANGLE_HI), (R.MOR_NSEQ_LO, R.MOR_NSEQ_HI), (R.MOR_LOST_LO, R.MOR_LOST_HI), (R.MOR_OLD_LO, R.MOR_OLD_HI),
    (R.SRV_ACAP_LO, R.SRV_ACAP_HI), (R.DRP_SLT_LO, R.DRP_SLT_HI)].find? fun (p : Nat × Nat) => p.1 == a).map Prod.snd

/-- The key of a high word's shadow: banked for each master for the angle counter and the servo capture (R30, R235), one
shadow for all masters elsewhere (R9). -/
def shadowKey (m : Master) (h : Nat) : Nat := if h = R.ANGLE_HI ∨ h = R.SRV_ACAP_HI then bankKey m h else h

/-- A high word, which a read returns as its shadow has it. -/
def isShadow (a : Nat) : Bool := [R.ANGLE_HI, R.MOR_NSEQ_HI, R.MOR_LOST_HI, R.MOR_OLD_HI, R.SRV_ACAP_HI, R.DRP_SLT_HI].contains a

/-- The counter behind a low word. -/
def counterAt (s : State) (a : Nat) : Option Nat :=
  if a = R.ANGLE_LO then some s.atb.count.toNat
  else if a = R.MOR_NSEQ_LO then some s.mor.nseq.toNat
  else if a = R.MOR_LOST_LO then some s.mor.lost.toNat
  else if a = R.MOR_OLD_LO then some (morOld s)
  else if a = R.SRV_ACAP_LO then some s.srv.acap.toNat
  else if a = R.DRP_SLT_LO then some ((s.rd R.DRP_SLT_LO).toNat + s.pcm.sltHi * 4294967296)
  else none

/-! ### Computed fields, block by block -/

/-- GPIO_IN: the level the device drives, or the level `ext` found at the ball. -/
def gpioIn (s : State) (ext : Nat) : Nat :=
  ((List.range 24).map fun n => flag ((ballLevel s n).getD (ext.testBit n)) * 2 ^ n).sum

def pmxShown (s : State) (a ext : Nat) : List Shown :=
  if a = R.GPIO_IN then whole (gpioIn s ext)
  else if a = R.UART_RX then whole ((s.pmx.rx.headD 0).toNat)
  else if 0x40011100 ≤ a ∧ a < 0x40011160 then
    [{ hi := 17, lo := 17, val := flag (pinSel s ((a - 0x40011100) / 4) != pinAct s ((a - 0x40011100) / 4)) }]
  else []

/-- PCM_RAILS and PCM_CLK (Table 4.10). Both are valid only some time after THAW entry, from 10 µs on and from PLL lock on,
and read 0 before: here, until SEC has left reset, which is after both. -/
def pcmShown (s : State) (a ext : Nat) : List Shown :=
  if a = R.PCM_RAILS then whole (if s.sst.secOut then ext % 8192 else 0)
  else if a = R.PCM_CLK then
    whole (if s.sst.secOut then ((List.range 25).map fun i => flag (domainRuns s (i + 1)) * 2 ^ i).sum else 0)
  else []

/-- DRP_STAT (Table 4.11): `ext` carries the latest sample code and the lowest since the droop event or read before, with bit
16 set; without it the codes of the latest droop event stand. -/
def drpShown (s : State) (a ext : Nat) : List Shown :=
  if a = R.DRP_STAT ∧ ext.testBit 16 then
    [{ hi := 15, lo := 8, val := ext % 256 }, { hi := 23, lo := 16, val := Nat.min (s.get F.DRP_STAT_MINSEEN) (ext / 256 % 256) }]
  else []

def sstShown (s : State) (a : Nat) : List Shown :=
  let f := s.sst.fuses
  if 0x4000D300 ≤ a ∧ a < 0x4000D3C0 then
    let k := (a - 0x4000D300) / 4
    whole (leNat (slice (keyHashOf f (k / 12)) (4 * (k % 12)) 4))
  else if a = R.SST_FSTAT then whole (flag f.production + f.keyrev.toNat * 16 + f.svn * 256 + f.targetRpm * 65536)
  else []

def morShown (s : State) (a : Nat) : List Shown :=
  if a = R.MOR_STAT then
    [{ hi := 1, lo := 1, val := flag (s.mor.phase1 || s.mor.phase2.isSome) }, { hi := 2, lo := 2, val := flag (s.mor.signing.any fun (g : Signing) => g.sig.isNone) },
     { hi := 3, lo := 3, val := flag s.mor.erasing.isSome }, { hi := 10, lo := 4, val := s.mor.fifo.length }]
  else if a = R.MOR_BED then whole (morBedn s + s.mor.wslot * 65536)
  else []

def stoShown (s : State) (a : Nat) : List Shown :=
  if 0x4000F040 ≤ a ∧ a < 0x4000F080 then whole (bstatWord s ((a - 0x4000F040) / 4))
  else if a = R.STO_STAT then
    [{ hi := 1, lo := 1, val := flag ((List.range 16).any fun b => (s.bank b).inc.isSome || (s.bank b).susp) }]
  else []

def wsqShown (s : State) (a : Nat) : List Shown :=
  if 0x40003040 ≤ a ∧ a < 0x40003050 then
    whole ((wsqWord s (s.get F.WSQ_RADDR_ADDR)).toNat / 2 ^ (32 * ((a - 0x40003040) / 4)) % 4294967296)
  else []

def chnShown (s : State) (a : Nat) : List Shown :=
  if a = R.CHN_DONEQ then match s.chn.doneq with
    | t :: _ => whole (t + 128)
    | [] => whole 0
  else if a = R.CHN_FAILQ then match s.chn.failq with
    | e :: _ => whole (e.tag + 128 + e.idx % 256 * 256 + e.res * 65536 + e.slot.getD 0 * 1048576 + flag e.slot.isSome * 4194304)
    | [] => whole 0
  else []

def firnShown (s : State) (a : Nat) : List Shown :=
  if a = R.FIRN_STAT then [{ hi := 10, lo := 4, val := s.firn.clq.length }]
  else if a = R.FIRN_DTOTAL then [{ hi := 30, lo := 16, val := ((List.range 16).map fun p => s.dcount p).sum }]
  else if a = R.FIRN_FLAG then [{ hi := 8, lo := 8, val := flag (!s.firn.clq.isEmpty) }]
  else if 0x400070A0 ≤ a ∧ a < 0x400070B8 then match s.firn.clq with
    | [] => whole 0
    | e :: _ => match (a - 0x400070A0) / 4 with
      | 0 => whole (1 + flag e.inval * 2 + e.owner * 4 + e.set * 64 + e.way * 32768 + e.gen.toNat * 262144)
      | 1 => whole e.frame
      | 2 => whole (e.mask.toNat % 4294967296)
      | 3 => whole (e.mask.toNat / 4294967296)
      | 4 => whole (e.lba % 4294967296)
      | _ => whole (e.lba / 4294967296)
  else []

def rmeShown (s : State) (a : Nat) : List Shown :=
  if a = R.RME_USE then whole (rmeUsed s false + rmeUsed s true * 65536) else []

/-- A core's dispatch queue. -/
def dqOf (s : State) (m : Master) : List Nat := if m = .hc1 then s.uqi.dq1 else s.uqi.dq0

def uqiShown (s : State) (m : Master) (a : Nat) : List Shown :=
  if a = 0x4000B004 then whole ((cmds s).length + flag (s.port 0).up * 65536 + flag (s.port 1).up * 131072)
  else if ¬ isHc m then []
  else if a = 0x4000B040 then whole ((dqOf s m).headD 0)
  else if a = 0x4000B070 ∨ a = 0x4000B074 then match s.uqi.res.find? fun (r : XRes) => r.core == m with
    | some r => whole (if a = 0x4000B070 then r.xtag + r.cause * 256 + r.detail % 256 * 65536 + 2147483648 else r.done)
    | none => whole 0
  else if 0x4000B080 ≤ a ∧ a < 0x4000B100 then match (s.cmd (s.get (F.UQI_CTSEL_INDEX m))).orElse fun _ => tabGet s.uqi.freed none (s.get (F.UQI_CTSEL_INDEX m)) with
    | none => whole 0
    | some k =>
      if a < 0x4000B0C0 then whole (leNat (slice k.bytes (a - 0x4000B080) 4))
      else match k.exts[(a - 0x4000B0C0) / 8]? with
        | none => whole 0
        | some (x, n) => whole (if a % 8 = 0 then x % 4294967296 else x / 4294967296 + n * 65536)
  else []

def ordShown (s : State) (m : Master) (a : Nat) : List Shown :=
  match (tabGet s.ord.results [] m.idx) with
  | [] => []
  | r :: _ =>
    if a = 0x40002614 then whole (r.rtag + r.ndone * 256 + r.res * 65536 + flag r.mapf * 1048576 + 2147483648)
    else if a = 0x40002618 then whole (r.mlba % 4294967296)
    else if a = 0x4000261C then whole (r.mlba / 4294967296)
    else []

def mgtShown (s : State) (a : Nat) : List Shown :=
  if 0x4000C040 ≤ a ∧ a < 0x4000C07C then whole (s.rd (R.TRF_CMD + (a - 0x4000C040))).toNat
  else if a = R.MGT_DLEN then whole (s.get F.TRF_DCNT_DCNT)
  else if 0x4000C600 ≤ a ∧ a < 0x4000C800 then whole (leNat (slice s.sst.cert (a - 0x4000C600) 4))
  else []

/-- The computed fields of an internal register, as master m reads it. -/
def shown (s : State) (m : Master) (a ext : Nat) : List Shown :=
  match a / 4096 with
  | 0x40000 => if a = R.ID then whole (idWord s).toNat else []
  | 0x40002 => ordShown s m a
  | 0x40003 => wsqShown s a
  | 0x40004 => chnShown s a
  | 0x40007 => firnShown s a
  | 0x40008 => rmeShown s a
  | 0x4000B => uqiShown s m a
  | 0x4000C => mgtShown s a
  | 0x4000D => sstShown s a
  | 0x4000E => morShown s a
  | 0x4000F => stoShown s a
  | 0x40010 => pcmShown s a ext
  | 0x40011 => pmxShown s a ext
  | 0x40012 => drpShown s a ext
  | _ => []

/-- A stored word as a read shows it: reserved bits and write-only fields read 0 (R8, R10). -/
def readable (r : RegDesc) (w : Word) : Word :=
  r.fields.foldl (fun v f => if f.acc = .WO then v else withBits v f.hi f.lo (bitsOf w f.hi f.lo)) 0

/-- The word that an internal register shows to a master (R8, R9, R11); `ext` is what the read finds
outside the register: the levels at the GPIO balls, the rails that are in range (PCM_RAILS), or the droop samples. -/
def regView (s : State) (m : Master) (a ext : Nat) : Word :=
  if isShadow a then s.rd (shadowKey m a)
  else match findReg a with
    | none => 0
    | some r =>
      if r.banked && !bankFor m a then 0
      else match counterAt s a with
        | some n => BitVec.ofNat 32 n
        | none => overlayWord (readable r (s.rd (regKey m a))) (shown s m a ext)

/-! ### Side effects of a read (R8, R9) -/

/-- The RC fields of a register take their reset values. -/
def State.rcClear (s : State) (k : Nat) (r : RegDesc) : State :=
  s.wr k (r.fields.foldl (fun w f => if f.acc = .RC then withBits w f.hi f.lo f.reset else w) (s.rd k))

/-- A low word copies its high word into its shadow. -/
def State.latchHigh (s : State) (m : Master) (a : Nat) : State :=
  match shadowOf a, counterAt s a with
  | some h, some n => s.wr (shadowKey m h) (BitVec.ofNat 32 (n / 4294967296))
  | _, _ => s

/-- A word read of an internal register: the value, and the state after its side effects. -/
def State.regRead (s : State) (m : Master) (a ext : Nat) : Word × State :=
  let v := regView s m a ext
  match findReg a with
  | none => (v, s)
  | some r =>
    let s := if r.fields.any fun (f : FieldDesc) => f.acc == .RC then s.rcClear (regKey m a) r else s
    (v, s.latchHigh m a)

/-! ### BAR0 (R477, Table 20.3) -/

/-- The completions of a submission ring that are retained while it is halted (R375). -/
def retainedOf (s : State) (r : Nat) : Nat :=
  if (s.sq r).st = rHALTED then (s.uqi.cpls.filter fun (c : Cpl) => c.ring == r).length else 0

/-- The completions that wait for a slot of a completion ring, or for RESUME. -/
def heldOf (s : State) (r : Nat) : Nat := (s.uqi.cpls.filter fun (c : Cpl) => c.cq == r && c.slot.isNone).length

/-- Word w (0 or 1) of SQSTAT and CQSTAT of a ring (Table 15.9). -/
def sqStat (s : State) (r w : Nat) : Nat :=
  let q := s.sq r
  if w = 0 then q.fptr + q.st * 4096 + sqParty s r * 65536 + q.err * 16777216 else retainedOf s r

def cqStat (s : State) (r w : Nat) : Nat :=
  let q := s.cq r
  if w = 0 then q.wptr + flag q.phase * 4096 + q.st * 8192 + cqParty s r * 65536 + q.err * 16777216 else heldOf s r

/-- The doubleword at an offset of BAR0 of function q. -/
def bar0View (s : State) (q o : Nat) : Word :=
  let k := 0x900000000 + o
  if o = 0 then idWord s
  else if o = 4 then BitVec.ofNat 32 (0x01042040 + flag (x2 s) * 0x2000000)
  else if 0xE00 ≤ o ∧ o < 0x1000 then
    Sparse.read (fun k => if k % 4 = 3 then 1 else 0) (s.port q).table ((o - 0xE00) / 4)
  else if o = 0x2000 then
    BitVec.ofNat 32 (flag (s.port 0).up + flag (s.port 1).up * 2 + (s.port 0).cause * 16 + (s.port 1).cause * 256)
  else if o = 0x2004 then BitVec.ofNat 32 s.mode
  else if o = 0x2010 then s.rd R.SST_STAT
  else if o = 0x2018 then s.rd R.ISO_STAT
  else if 0x2080 ≤ o ∧ o < 0x20C0 then
    let p := (o - 0x2080) / 4
    BitVec.ofNat 32 (curPort s p + flag (s.uqi.dbref.testBit p) * 2)
  else if 0x2100 ≤ o ∧ o < 0x2300 then BitVec.ofNat 32 (sqStat s ((o - 0x2100) / 8) (o / 4 % 2))
  else if 0x2300 ≤ o ∧ o < 0x2500 then BitVec.ofNat 32 (cqStat s ((o - 0x2300) / 8) (o / 4 % 2))
  else if 0x2600 ≤ o ∧ o < 0x2680 then s.rd (0x4000C840 + (o - 0x2600))
  else if o = 0x2800 then (s.port q).pba
  else match findReg k with
    | some r => readable r (s.rd k)
    | none => 0

/-! ### Interrupt levels -/

/-- The enabled flags of a block: SRC masks the flags from bit `lo` of its status register. -/
def irqOn (s : State) (src : Fld) (status : Word) (lo : Nat) : Bool := (s.get src &&& (status.toNat / 2 ^ lo)) != 0

/-- The core that owns a DMA channel. -/
def chanOf (s : State) (m : Master) (c : Nat) : Bool := ownerCode m != 0 && chOwner s c == ownerCode m

/-- The interrupt levels of the blocks at a core: each stays asserted while an enabled flag is 1. SV's own causes 16, 17
and 21 and MC's episode interrupt are events, which `Out.coreIrq` and `Out.blockIrq` show. -/
def irqLevel (s : State) (m : Master) (base : Nat) : Bool :=
  let view (a : Nat) : Word := regView s m a 0
  match base / 4096 with
  | 0x40001 => irqOn s F.ATB_IEN_SRC (view R.ATB_STAT) 8 &&
      ((m == .sv && s.on F.ATB_IEN_TO_SV) || (m == .mc && s.on F.ATB_IEN_TO_MC))
  | 0x40002 => bankFor m 0x40002624 && irqOn s (F.ORD_IEN_SRC m) (s.rd (R.ORD_EVT m)) 0
  | 0x40003 => irqOn s F.WSQ_IEN_SRC (view R.WSQ_FLAG) 0 &&
      ((m == .sv && s.on F.WSQ_IEN_TO_SV) || (m == .mc && s.on F.WSQ_IEN_TO_MC))
  | 0x40004 => irqOn s F.CHN_IEN_SRC (view R.CHN_FLAG) 0 && m == .mc && s.on F.CHN_IEN_TO_MC
  | 0x40005 => (s.get F.SRV_IEN_SRC / 2 &&& ((view R.SRV_EVT).toNat / 2)) != 0 && (m == .sv || (m == .mc && s.on F.SRV_IEN_TO_MC))
  | 0x40006 => irqOn s F.FLNK_IEN_SRC (view R.FLNK_STAT) 0 &&
      ((m == .mc && s.on F.FLNK_IEN_TO_MC) || (m == .sec && s.on F.FLNK_IEN_TO_SEC))
  | 0x40007 => irqOn s F.FIRN_IEN_SRC (view R.FIRN_FLAG) 0 &&
      ((m == .mc && s.on F.FIRN_IEN_TO_MC) || (m == .hc0 && s.on F.FIRN_IEN_TO_HC0) || (m == .hc1 && s.on F.FIRN_IEN_TO_HC1) ||
        (m == .sec && s.on F.FIRN_IEN_TO_SEC))
  | 0x40008 => irqOn s F.RME_IEN_SRC (view R.RME_FLAG) 0 &&
      ((m == .sec && s.on F.RME_IEN_TO_SEC) || (m == .mc && s.on F.RME_IEN_TO_MC))
  | 0x40009 => (List.range 16).any fun c => chanOf s m c &&
      (s.get F.DMA_IEN_SRC &&& (view R.DMA_EVT).toNat &&& (2 ^ c + 2 ^ (16 + c))) != 0
  | 0x4000B => irqOn s F.UQI_IEN_SRC (view R.UQI_EVT) 0 &&
      ((m == .hc0 && s.on F.UQI_IEN_TO_HC0) || (m == .hc1 && s.on F.UQI_IEN_TO_HC1) || (m == .sec && s.on F.UQI_IEN_TO_SEC))
  | 0x4000C => m == .sec && ((s.on F.MGT_CTL_IEN_CMD && s.on F.MGT_STAT_CMDPEND) || (s.on F.MGT_CTL_IEN_MRX && s.on F.MGT_STAT_MRXV))
  | 0x4000E => irqOn s F.MOR_IEN_SRC (view R.MOR_STAT) 16 &&
      ((m == .sec && s.on F.MOR_IEN_TO_SEC) || (m == .mc && s.on F.MOR_IEN_TO_MC))
  | 0x4000F => ((s.on F.STO_IEN_DONE && view R.STO_DONE != 0) || (s.on F.STO_IEN_ERR && s.on F.STO_ERR_NEW)) &&
      ((m == .sec && s.on F.STO_IEN_TO_SEC) || (m == .mc && s.on F.STO_IEN_TO_MC))
  | _ => false

/-- SV's mip (R220, Table 9.3): the levels of its local interrupts; the standard bits are 0, and WEDGE is an event of the WSQ. -/
def svMip (s : State) : Word :=
  let b := fun (c : Nat) (x : Bool) => if x then 2 ^ c else 0
  BitVec.ofNat 32 (b 16 (s.on F.SRV_EVT_POS && s.bit F.SRV_IEN_SRC 0) + b 18 (irqLevel s .sv 0x40005000) + b 19 (irqLevel s .sv 0x40001000) +
    b 20 (irqLevel s .sv 0x40003000) + b 21 (s.get F.SRV_AIRQ_LINE != 0))

/-- The local interrupt that SV takes next, in the order of their priorities, if mstatus lets it take one (R220). -/
def svNext (s : State) : Option Nat :=
  if s.srv.sv.mie then [16, 17, 18, 19, 20, 21].find? fun c => (svMip s).getLsbD c && s.srv.sv.mieReg.getLsbD c else none

end Sys2Proof.Machine
end

