-- ==== Sys2Proof/Machine/RegStore.lean ====
section
/-! DEFINITION. What a core's word store to a register does: the write rules of each block's registers, and the command
that the store gives where the register has one (R8, R475, Tables 20.4 to 20.7). -/

namespace Sys2Proof.Machine

open Sys2Proof

/-- A value held between two limits. -/
def clamp (lo hi n : Nat) : Nat := if n < lo then lo else if hi < n then hi else n

/-- Store a word by the access codes, in the bank of the master; a master without a bank stores nothing. -/
def State.plain (m : Master) (a : Nat) (v : Word) (s : State) : State :=
  match findReg a with
  | some r => if r.banked && !bankFor m a then s else s.regWrite (regKey m a) v
  | none => s

/-- Put a clamped value back into a field that has just been stored. -/
def State.clampFld (f : Fld) (lo hi : Nat) (s : State) : State := s.put f (clamp lo hi (s.get f))

def secOrMc (m : Master) : Bool := m == .sec || m == .mc

/-- The array index and the word of a register in an array of a stride. -/
def idxOf (a base stride : Nat) : Nat := (a - base) / stride
def wordOf (a base stride : Nat) : Nat := (a - base) % stride / 4

/-- GLB (R476). -/
def storeGlb (m : Master) (a : Nat) (v : Word) (s : State) : State := if secOrMc m then s.plain m a v else s

/-- ATB (R47). With AMP_MIN = 0 every cycle qualifies, and SIGOK reads 1 (Table 2.13). -/
def storeAtb (m : Master) (a : Nat) (v : Word) (s : State) : State :=
  if a = R.ATB_CTL then atbCtlWrite v s
  else
    let s := s.plain m a v
    if a = R.AMP ∧ s.get F.AMP_AMP_MIN = 0 then
      (s.onAtb fun (b : AtbState) => { b with low := 0 }).raiseBit F.ATB_STAT_SIGOK
    else s

/-- ASC and its commands (R48, Table 2.16). -/
def storeAscCmd (m : Master) (v : Word) (s : State) : State :=
  match bitsOf v 9 8 with
  | 1 => ascArm m v s
  | 2 => ascCancel m v s
  | 3 => ascRead m v s
  | _ => s

/-- The orderer's registers (R411). -/
def storeOrd (m : Master) (a : Nat) (v : Word) (f : BusFacts) (s : State) : State :=
  let o := a - 0x40002000
  if a = R.ORD_ACK then ordAck m v s
  else if o = 0x60C then ordRequest m v f.errs s
  else if o = 0x620 then (if v.getLsbD 0 ∧ m ≠ .sv then ordRespop m s else s)
  else if 0x180 ≤ o ∧ o < 0x1C0 then ordShareWrite m (BitVec.ofNat 4 ((o - 0x180) / 4)) v s
  else if o = 0x100 ∨ o = 0x110 ∨ o = 0x114 ∨ (0x140 ≤ o ∧ o < 0x180) ∨ (0x200 ≤ o ∧ o < 0x600) then
    (if secOrMc m ∧ ¬ s.on F.ASC_CTL_HWORD then (s.plain m a v).ordSettle else s)
  else s.plain m a v

def storeAsc (m : Master) (a : Nat) (v : Word) (f : BusFacts) (s : State) : State :=
  if a = R.ASC_CTL then
    let s := hwordWrite m v s
    if v.getLsbD 1 then ascFlush s else s
  else if a = 0x40002020 then storeAscCmd m v s
  else if 0x40002100 ≤ a then storeOrd m a v f s
  else s.plain m a v

/-- WSQ and MSQ (R211): WSQ_CTL is SEC's and SV's. -/
def storeWsq (m : Master) (a : Nat) (v : Word) (s : State) : State :=
  if a = R.WSQ_CTL then
    (if m = .sec ∨ m = .sv then (s.plain m a v).clampFld F.WSQ_CTL_WDLIM 0x40 0xFFFF else s)
  else if a = R.WSQ_PAQ then wsqPaqWrite v s
  else s.plain m a v

/-- CHN_CTL, clamped (R282): WGTRAIL against the stored WGLEAD. -/
def chnCtlWrite (m : Master) (v : Word) (s : State) : State :=
  let s := (((s.plain m R.CHN_CTL v).clampFld F.CHN_CTL_SYNCWIN 1 15).clampFld F.CHN_CTL_SMTOL 0 4).clampFld F.CHN_CTL_WGLEAD 8 40
  s.clampFld F.CHN_CTL_WGTRAIL 4 (Nat.min 40 (56 - s.get F.CHN_CTL_WGLEAD))

/-- CHN_CMD: each bit gives its command. -/
def chnCmdWrite (v : Word) (s : State) : State :=
  let s := if v.getLsbD 0 then popdone s else s
  let s := if v.getLsbD 1 then popfail s else s
  let s := if v.getLsbD 2 then redec s else s
  if v.getLsbD 3 then release s else s

/-- A core's write of the MOP table (R264): word 3 commits; an entry that is PEND or ACTIVE, or a table that the orderer
owns, takes nothing. -/
def mopWordWrite (m : Master) (t w : Nat) (v : Word) (s : State) : State :=
  if w = 3 then mopCommit (BitVec.ofNat 7 t) v s
  else if s.on F.ASC_CTL_HWORD then s.raiseBit F.CHN_FLAG_MOPOWN
  else if mopState s t = mopPEND ∨ mopState s t = mopACTIVE then s.raiseBit F.CHN_FLAG_MOPBUSY
  else
    let s := s.plain m (R.MOP0 t + 4 * w) v
    if w = 1 then s.clampFld (F.MOP1_K t) 1024 8191 else s

def storeChn (m : Master) (a : Nat) (v : Word) (s : State) : State :=
  let o := a - 0x40004000
  if a = R.CHN_CTL then chnCtlWrite m v s
  else if a = R.CHN_ITER then (s.plain m a v).clampFld F.CHN_ITER_GITER 1 12
  else if a = R.CHN_CMD then (chnCmdWrite v s).chSettle
  else if 0x200 ≤ o ∧ o < 0x480 then headContextWrite (BitVec.ofNat 5 ((o - 0x200) / 32)) (BitVec.ofNat 3 (o / 4 % 8)) v s
  else if 0x800 ≤ o then mopWordWrite m ((o - 0x800) / 16) (o / 4 % 4) v s
  else s.plain m a v

/-- SRV (R235): the command and target registers are SV's. -/
def storeSrv (m : Master) (a : Nat) (v : Word) (f : BusFacts) (s : State) : State :=
  if a = R.SRV_CTL then srvModeWrite v s
  else if a = R.SRV_CMD_HI then servoCommit m v f.cycles s
  else if a = R.SRV_CMD_LO ∨ a = R.SRV_TGT_TRK ∨ a = R.SRV_TGT_OFF then (if m = .sv then s.plain m a v else s)
  else s.plain m a v

/-- FLNK_CFG, clamped with HOLDV first (Table 10.11). -/
def flnkCfgWrite (m : Master) (v : Word) (s : State) : State :=
  let s := (s.plain m R.FLNK_CFG v).clampFld F.FLNK_CFG_HOLDV 0x50 0x78
  let s := s.clampFld F.FLNK_CFG_VRET 0x46 (s.get F.FLNK_CFG_HOLDV - 0x0A)
  let s := (s.clampFld F.FLNK_CFG_RDL 0x0A 0xC8).clampFld F.FLNK_CFG_RFLOOR 0x14 0x32
  s.flnkSend s.cfgPacket

/-- FLNK_PORT: PRD or PWR, ignored while a PRD is outstanding (Table 10.11). -/
def flnkPortWrite (v : Word) (s : State) : State :=
  if s.on F.FLNK_PRES_BUSY then s
  else if v.getLsbD 8 then (s.raiseBit F.FLNK_PRES_BUSY).flnkSend (.prd (bitsOf v 7 0))
  else s.flnkSend (.pwr (bitsOf v 7 0) (bitsOf v 31 16))

/-- FLNK (R253). -/
def storeFlnk (m : Master) (a : Nat) (v : Word) (s : State) : State :=
  let may := m == .sec || m == .mc || m == .sv
  if a = R.FLNK_SPD then (if may then let s := s.plain m a v; s.flnkSend s.speedPkt else s)
  else if a = R.FLNK_ACT then
    (if may ∧ 1 ≤ bitsOf v 2 0 ∧ bitsOf v 2 0 ≤ 5 then s.flnkSend (.act (bitsOf v 2 0)) else s)
  else if a = R.FLNK_CFG then (if may then flnkCfgWrite m v s else s)
  else if a = R.FLNK_PORT then (if may then flnkPortWrite v s else s)
  else s.plain m a v

/-! ### FIRN (R296, R313) -/

def firnCtlWrite (m : Master) (v : Word) (s : State) : State :=
  let s := (s.put F.FIRN_CTL_SCRUB (bitsOf v 0 0)).put F.FIRN_CTL_SCRUBRATE (clamp 1 255 (bitsOf v 15 8))
  if v.getLsbD 16 then partitionLock m s else s

def firnLcmd (m : Master) (v : Word) (s : State) : State :=
  match bitsOf v 3 0 with
  | 1 => lookCmd .look m v s
  | 2 => lookCmd .alloc m v s
  | 3 => lookCmd .reserve m v s
  | 4 => lookCmd .fillLock m v s
  | 6 => addrCmd .clean m v s
  | 7 => addrCmd .inval m v s
  | 8 => addrCmd .cleanInval m v s
  | 9 => addrCmd .discard m v s
  | _ => s

def firnScmd (m : Master) (v : Word) (s : State) : State :=
  match bitsOf v 3 0 with
  | 1 => firnCommitCmd m v s
  | 2 => fillCmd m v s
  | 3 => abortCmd m v s
  | 4 => unpinCmd m v s
  | 5 => maintCmd .clean m v s
  | 6 => maintCmd .inval m v s
  | 7 => maintCmd .cleanInval m v s
  | 8 => maintCmd .discard m v s
  | _ => s

def firnMcmd (m : Master) (v : Word) (s : State) : State :=
  let k := bitsOf v 13 8
  match bitsOf v 2 0 with
  | 1 => metaLookup m s
  | 2 => metaAlloc m s
  | 3 => metaEntCmd m k (fun _ => true) (fun e => { e with dirty := true }) s
  | 4 => metaEntCmd m k (fun _ => true) (fun e => { e with dirty := false }) s
  | 5 => metaEntCmd m k (fun e => !e.dirty && !e.locked) (fun e => { e with valid := false }) s
  | 6 => metaEntCmd m k (fun _ => true) (fun e => { e with locked := true }) s
  | 7 => metaEntCmd m k (fun _ => true) (fun e => { e with locked := false }) s
  | _ => s

def firnCcmd (m : Master) (v : Word) (s : State) : State :=
  match bitsOf v 1 0 with
  | 1 => corniceAlloc m v s
  | 2 => corniceRelease m v s
  | 3 => corniceStatus m v s
  | _ => s

/-- SEC's quota registers: DTOTAL, and DQUOTA up to DTOTAL, until PLOCK (R292). -/
def quotaWrite (m : Master) (a : Nat) (v : Word) (s : State) : State :=
  if m ≠ .sec ∨ s.on F.FIRN_STAT_PLOCKED then s
  else if a = R.FIRN_DTOTAL then s.put F.FIRN_DTOTAL_DTOTAL (clamp 1 16384 (bitsOf v 14 0))
  else s.put (F.FIRN_DQ_DQUOTA ((a - R.FIRN_DQ 0) / 4)) (Nat.min (bitsOf v 14 0) (s.get F.FIRN_DTOTAL_DTOTAL))

/-- A store to the FIRN block: nothing while it sleeps (R289). -/
def storeFirn (m : Master) (a : Nat) (v : Word) (s : State) : State :=
  let o := a - 0x40007000
  if ¬ firnAwake s ∨ m = .sv then s
  else if o = 0x000 then (if secOrMc m then firnCtlWrite m v s else s)
  else if o = 0x008 ∨ (0x180 ≤ o ∧ o < 0x1C0) then quotaWrite m a v s
  else if 0x100 ≤ o ∧ o < 0x180 then partitionWrite m (decide (0x140 ≤ o)) (o / 4 % 16) v s
  else if o = 0x08C then (if 1 ≤ bitsOf v 2 0 ∧ bitsOf v 2 0 ≤ 4 then rangeCmd (bitsOf v 2 0) m v s else s)
  else if 0x080 ≤ o ∧ o < 0x08C then (if secOrMc m then s.plain m a v else s)
  else if o = 0x0B8 then (if v.getLsbD 0 ∧ clqByCore s then s.onFirn fun (x : FirnState) => { x with clq := x.clq.drop 1 } else s)
  else if o = 0x0C0 then wbdoneCmd v s
  else if o = 0x208 then firnLcmd m v s
  else if o = 0x240 then firnScmd m v s
  else if o = 0x268 then firnMcmd m v s
  else if o = 0x270 then firnCcmd m v s
  else s.plain m a v

/-! ### RME, DMA and UQI -/

/-- RME (R333). -/
def storeRme (m : Master) (a : Nat) (v : Word) (f : BusFacts) (s : State) : State :=
  let o := a - 0x40008000
  if o = 0x000 then
    let s := if v.getLsbD 0 ∧ m = .sec then s.wlock else s
    if v.getLsbD 1 ∧ secOrMc m then s.raiseBit F.RME_CTL_DREADY else s
  else if o = 0x108 then rmeTake m false v f.errs s
  else if o = 0x300 then
    (match bitsOf v 1 0 with
    | 1 => rmeTake m true v f.errs s
    | 2 => shadowRead m v s
    | _ => s)
  else s.plain m a v

/-- DMA_CTL (R350): SEC's; CFGLOCK holds XTSREQ. -/
def dmaCtlWrite (v : Word) (s : State) : State :=
  let s := if s.on F.DMA_CTL_CFGLOCK then s else s.put F.DMA_CTL_XTSREQ (bitsOf v 0 0)
  if v.getLsbD 1 then cfglock s else s

/-- DMA (R355). -/
def storeDma (m : Master) (a : Nat) (v : Word) (s : State) : State :=
  let o := a - 0x40009000
  let c := BitVec.ofNat 4 ((o - 0x100) / 32)
  if o = 0 then (if m = .sec then dmaCtlWrite v s else s)
  else if o = 4 then (if m = .sec then mdbaseWrite v s else s)
  else if 0x100 ≤ o ∧ o < 0x300 then
    (match o % 32 with
    | 0x00 => chcfgWrite m c v s
    | 0x04 => chstart m c v s
    | 0x18 => if v.getLsbD 0 then channelAbort m c s else s
    | _ => s.plain m a v)
  else s.plain m a v

/-- UQI (R378, R410). -/
def storeUqi (m : Master) (a : Nat) (v : Word) (s : State) : State :=
  let o := a - 0x4000B000
  if o = 0 then (if m = .sec then s.plain m a v else s)
  else if o = 0x044 then uqiDqpop m v s
  else if o = 0x050 then uqiCpost m v s
  else if o = 0x06C then (uqiXcmd m v s)
  else if o = 0x078 then uqiXpop m v s
  else if 0x100 ≤ o ∧ o < 0x200 then rpartyWrite m (BitVec.ofNat 6 ((o - 0x100) / 4)) v s
  else if 0x200 ≤ o ∧ o < 0x240 then pcfgWrite m (BitVec.ofNat 4 ((o - 0x200) / 4)) v s
  else s.plain m a v

/-! ### MGT, SST, MOR and STO -/

/-- MGT and ISO (R449, R425): SEC's alone. Words 9 to 13 of MGT_TRF are the task file's results. -/
def storeMgt (m : Master) (a : Nat) (v : Word) (s : State) : State :=
  let o := a - 0x4000C000
  if m ≠ .sec then s
  else if o = 0x008 then mgtTake m v s
  else if o = 0x00C then mgtDone m v s
  else if 0x064 ≤ o ∧ o < 0x078 then s.wr (R.TRF_CMD + (o - 0x040)) v
  else if o = 0x084 then (s.onMgt fun (g : MgtState) => { g with dpos := 0 }).put F.TRF_DCNT_DCNT (bitsOf v 12 0)
  else if o = 0x08C then mrxPop m v s
  else if o = 0x094 then mtxSend m v s
  else if o = 0x800 then (if v.getLsbD 0 then s.isoLock else s)
  else s.plain m a v


/-- SST (R137): its command registers are SEC's. -/
def storeSst (m : Master) (a : Nat) (v : Word) (s : State) : State :=
  let o := a - 0x4000D000
  if o = 0x040 then coreRelease m v s
  else if o = 0x080 then keyLock m v s
  else if o = 0x090 then (if bitsOf v 1 0 = 1 then derive m v s else keyClear m v s)
  else if o = 0x0C0 then sign m v s
  else if 0x0A0 ≤ o ∧ o < 0x0C0 then (if m = .sec then s.wr a v else s)
  else if 0x100 ≤ o ∧ o < 0x130 then (if m = .sec then s.plain m a v else s)
  else if o = 0x800 then
    (match bitsOf v 3 0 with
    | 1 => programKeyhash m v s
    | 2 => setProduction m v s
    | 3 => programTargetRpm m v s
    | _ => s)
  else s.plain m a v

/-- MOR (Tables 6.8 and 6.9). -/
def storeMor (m : Master) (a : Nat) (v : Word) (f : BusFacts) (s : State) : State :=
  let o := a - 0x4000E000
  if o = 0x000 then
    let s := s.put F.MOR_CTL_SEAL_MAX (Nat.max (bitsOf v 7 0) 1)
    if v.getLsbD 8 then s.sealBatch 2 else s
  else if o = 0x040 then fwEventSubmit m v f.present s
  else if o = 0x050 then (if v.getLsbD 0 then morReadGo m s else s)
  else s.plain m a v

/-- STO (R190): banks 2 and 3 have no power-down request (R189). -/
def storeSto (m : Master) (a : Nat) (v : Word) (s : State) : State :=
  if a = R.STO_WPROT then wprotWrite m v s
  else if a = R.STO_BPD then s.put F.STO_BPD_REQ (bitsOf (v &&& 0xFFF3) 15 0)
  else if a = R.STO_MBAD then markBad v s
  else s.plain m a v

/-! ### PCM, PMX and DRP -/

/-- PCM (Table 4.9). -/
def storePcm (m : Master) (a : Nat) (v : Word) (f : BusFacts) (s : State) : State :=
  if a = R.PCM_CMD then
    match bitsOf v 2 0 with
    | 2 => modeReqFlow m f.t s
    | 3 => modeReqDrift m f.t s
    | 4 => modeReqDormant m s
    | 5 => modeReqRetreat m f.t s
    | 6 => modeReqReboot m f.t.us s
    | _ => if secOrMc m then s else s.raiseBit F.PCM_STAT_DENIED
  else if a = R.PCM_CFG then s.put F.PCM_CFG_QTO (Nat.max (bitsOf v 7 0) 1)
  else s.plain m a v

/-- A write of a ball's register (R77): a locked ball's RW fields keep their values. -/
def pmxPinWrite (n : Nat) (v : Word) (s : State) : State :=
  let w := s.rd (R.PMX_PIN n)
  s.regWrite (R.PMX_PIN n) (if s.on (F.PMX_PIN_LOCK n) then withBits v 15 0 (bitsOf w 15 0) else v)

/-- PMX, GPIO and UART0 (R78). -/
def storePmx (m : Master) (a : Nat) (v : Word) (s : State) : State :=
  if a = R.PMX_CTL then (if v.getLsbD 0 then pmxCommit s else s)
  else if 0x40011100 ≤ a ∧ a < 0x40011160 then pmxPinWrite ((a - 0x40011100) / 4) v s
  else if a = R.UART_CTL then
    let s := (s.plain m a v).clampFld F.UART_CTL_DIV 16 0xFFFF
    (if v.getLsbD 17 then uartPop s else s).uartKick
  else if a = R.UART_TX then uartTxWrite v s
  else s.plain m a v

/-- DRP (R104): SLOW is clamped first, then REL and DEEP against it. -/
def storeDrp (m : Master) (a : Nat) (v : Word) (s : State) : State :=
  if a = R.DRP_CTL then
    let s := (s.plain m a v).clampFld F.DRP_CTL_SLOW 0x61 0x71
    let slow := s.get F.DRP_CTL_SLOW
    (s.clampFld F.DRP_CTL_REL (slow + 2) 0x7D).clampFld F.DRP_CTL_DEEP 0x50 (Nat.min 0x5F (slow - 5))
  else if a = R.DRP_TIME then
    ((s.plain m a v).clampFld F.DRP_TIME_RELHOLD 1 0xFF).clampFld F.DRP_TIME_DEEP_FILT 1 0x40
  else s.plain m a v

/-- A word store of a core to a register block. An offset that no register has takes nothing (R11). -/
def State.regStore (m : Master) (a : Nat) (v : Word) (f : BusFacts) (s : State) : State :=
  match a / 4096 with
  | 0x40000 => storeGlb m a v s
  | 0x40001 => storeAtb m a v s
  | 0x40002 => storeAsc m a v f s
  | 0x40003 => storeWsq m a v s
  | 0x40004 => storeChn m a v s
  | 0x40005 => storeSrv m a v f s
  | 0x40006 => storeFlnk m a v s
  | 0x40007 => storeFirn m a v s
  | 0x40008 => storeRme m a v f s
  | 0x40009 => storeDma m a v s
  | 0x4000B => storeUqi m a v s
  | 0x4000C => storeMgt m a v s
  | 0x4000D => storeSst m a v s
  | 0x4000E => storeMor m a v f s
  | 0x4000F => storeSto m a v s
  | 0x40010 => storePcm m a v f s
  | 0x40011 => storePmx m a v s
  | 0x40012 => storeDrp m a v s
  | _ => s

end Sys2Proof.Machine
end

