-- ==== Sys2Proof/Machine/Bus.lean ====
section
/-! DEFINITION. The accesses of the cores: the address map, its refusals, the held-store queues of the gated cores, and
the host's requests to BAR0 (chapter 20, R123, R125 to R127). -/

namespace Sys2Proof.Machine

open Sys2Proof

/-! ### The address map (R471) -/

/-- The regions of Table 20.1. -/
inductive Region where
  | rom
  | tcm (owner : Master)
  | pool | array | window | regs | buffer
  deriving DecidableEq, Repr

def inSpan (a base len : Nat) : Bool := decide (base ≤ a) && decide (a < base + len)

/-- The region of an address; none is unmapped. -/
def regionOf (a : Nat) : Option Region :=
  if inSpan a 0 0x10000 then some .rom
  else match [Master.sec, .hc0, .hc1, .mc, .sv].find? fun (m : Master) => inSpan a (tcmBase m) (tcmSize m) with
    | some m => some (.tcm m)
    | none =>
      if inSpan a 0x18000000 0x300000 then some .pool
      else if inSpan a 0x20000000 0x10000000 then some .array
      else if inSpan a 0x30000000 0x10000000 then some .window
      else if inSpan a 0x40000000 0x13000 then some .regs
      else if inSpan a 0x80000000 0x44000000 then some .buffer
      else none

/-- Table 20.1 lets a core reach a region with an access of a kind. -/
def reaches (m : Master) (r : Region) (kind : AccKind) : Bool :=
  match r with
  | .rom => m == .sec
  | .tcm o => m == o
  | .regs => kind != .fetch
  | _ => m != .sv && kind != .fetch

/-- Why an access is refused (R473), 0 where it is not. -/
def refusal (s : State) (m : Master) (kind : AccKind) (a width : Nat) : Nat :=
  match regionOf a with
  | none => 1
  | some r =>
    if ¬ reaches m r kind then 2
    else if r = .regs ∧ width ≠ 4 then 3
    else if r = .buffer ∧ ¬ firnAwake s then 4
    else 0

/-- KIND of GLB_AF, and the mcause of an access fault (R473). -/
def kindCode : AccKind → Nat
  | .load => 1
  | .store => 2
  | .fetch => 3

def faultCause : AccKind → Nat
  | .load => 5
  | .store => 7
  | .fetch => 1

/-- A refused access: the exception, and the capture (R473, Table 20.2). -/
def State.refuse (s : State) (m : Master) (kind : AccKind) (a why : Nat) : State :=
  let s := s.wr R.GLB_AF (BitVec.ofNat 32 (m.idx + kindCode kind * 16 + why * 256 + 65536))
  ((s.wr R.GLB_AFADDR (BitVec.ofNat 32 a)).inc F.GLB_AFCNT_AF_CNT).emit (.coreFault m (faultCause kind) a)

/-! ### SEC's locked PMP entries (R120) -/

/-- The number of trailing ones of a number, up to a limit. -/
def trailingOnes : Nat → Nat → Nat
  | 0, _ => 0
  | fuel + 1, n => if n % 2 = 1 then 1 + trailingOnes fuel (n / 2) else 0

/-- A NAPOT entry matches an address. -/
def napotMatch (addr a : Nat) : Bool :=
  let size := 2 ^ (trailingOnes 32 addr + 3)
  a / size == addr * 4 / size

/-- A PMP entry lets an access of a kind pass. -/
def pmpAllows (cfg : Nat) : AccKind → Bool
  | .load => cfg.testBit 0
  | .store => cfg.testBit 1
  | .fetch => cfg.testBit 2

/-- The entries that the boot ROM has locked refuse SEC an access. -/
def pmpDenies (s : State) (m : Master) (kind : AccKind) (a : Nat) : Bool :=
  m == .sec && match s.sst.pmp.find? fun (e : Nat × Nat) => napotMatch e.2 a with
    | some e => !pmpAllows e.1 kind
    | none => false

/-! ### Stalls and held stores (R123, R126) -/

/-- The segment loaded for a core. -/
def coreSeg : Master → Nat
  | .sec => 0
  | .hc0 => 2
  | .hc1 => 3
  | .mc => 4
  | .sv => 5

/-- The block of the core's TCM that holds an address has not been loaded yet (R123). -/
def notLoaded (s : State) (m : Master) (a : Nat) : Bool :=
  m != .sec && inSpan a (tcmBase m) (tcmSize m) &&
    (let b := (a - tcmBase m) / 65536
     decide (s.get (F.SST_SEG_LOADED (coreSeg m)) ≤ b) && decide (b < s.get (F.SST_SEG_NBLK (coreSeg m))))

/-- A load that touches an RC field. -/
def touchesRc (a : Nat) : Bool :=
  match findReg a with
  | some r => r.fields.any fun (f : FieldDesc) => f.acc == .RC
  | none => false

/-- The youngest held byte of an address. -/
def heldByte (l : List HeldStore) (a : Nat) : Option Byte :=
  (l.reverse.find? fun (h : HeldStore) => inSpan a h.addr h.width).map fun (h : HeldStore) =>
    BitVec.ofNat 8 (h.data / 256 ^ (a - h.addr))

/-- What a gated core sees of memory: its own held stores over it. -/
def forward (s : State) (m : Master) (a : Nat) (bs : List Byte) : List Byte :=
  match gateIdx m with
  | some c => bs.mapIdx fun i b => (heldByte (hsq s c) (a + i)).getD b
  | none => bs

/-! ### Access to the regions -/

/-- The reserved span of the Buffer die (R283). -/
def bufReserved (a : Nat) : Bool := inSpan a 0xC0C30000 0x3D0000

/-- What the ECC of the Buffer die finds at an access (R285, R310). -/
def State.bufferEcc (s : State) (m : Master) (a : Nat) (ecc : BitVec 2) : State :=
  if ecc = 1 then s.bufferCE else if ecc = 2 then s.bufferUE a (reqSrc (.core m)) false else s

/-- The droop samples that a read of DRP_STAT finds, as `drpShown` takes them. -/
def droopCode (f : BusFacts) : Nat :=
  match f.droop with
  | some (now, least) => now.toNat + least.toNat * 256 + 65536
  | none => 0

/-- A load or fetch that the map permits: its bytes, and the state after it. -/
def State.busLoad (s : State) (m : Master) (r : Region) (a width : Nat) (f : BusFacts) : List Byte × State :=
  match r with
  | .rom => ((List.range width).map fun i => Config.bootRom (a + i), s)
  | .tcm _ => (s.sramBytes a width, s)
  | .pool => (forward s m a (s.sramBytes a width), s)
  | .array => s.arrayRead (.core m) a width f.cells
  | .window => (zeros width, s)
  | .regs =>
    let ans := s.regRead m a (if a = R.PCM_RAILS then f.t.rails.toNat else if a = R.DRP_STAT then droopCode f else f.levels.toNat)
    let w := ans.1
    let s := ans.2
    (leBytes 4 w.toNat, s)
  | .buffer =>
    if bufReserved a then (zeros width, s)
    else
      let s := s.bufferEcc m a f.ecc
      if f.ecc = 2 then
        let (v, s) := s.draw
        (leBytes width v.toNat, s)
      else (forward s m a (s.bufBytes a width), s)

/-- A store that reaches the bus. -/
def State.busStore (s : State) (m : Master) (r : Region) (a width v : Nat) (f : BusFacts) : State :=
  match r with
  | .rom => s
  | .tcm _ => s.sramWrite a (leBytes width v)
  | .pool => s.sramWrite a (leBytes width v)
  | .array => storeFaults (s.arrayStore (.core m) a width v)
  | .window => storeFaults (s.windowStore (.core m) (a - 0x10000000) width v)
  | .regs => s.regStore m a (BitVec.ofNat 32 v) f
  | .buffer => if bufReserved a then s else (s.bufferEcc m a f.ecc).bufWrite a (leBytes width v)

/-- A store of a core: a gated core's, outside its own TCM, is held (R125, R126). -/
def State.coreStore (s : State) (m : Master) (r : Region) (a width v : Nat) (f : BusFacts) : State :=
  match gateIdx m with
  | none => s.busStore m r a width v f
  | some c =>
    if ¬ gated s m ∨ r = .tcm m then (s.stall m false 0).busStore m r a width v f else s.hold m c a width v

/-- The core executes. -/
def coreRuns (s : State) : Master → Bool
  | .sec => s.sst.secOut && s.mode != mOFF
  | .hc0 => domainRuns s 3 && s.bit F.SST_RUN_RUN 0
  | .hc1 => domainRuns s 4 && s.bit F.SST_RUN_RUN 1
  | .mc => domainRuns s 5 && s.bit F.SST_RUN_RUN 2
  | .sv => domainRuns s 6 && s.bit F.SST_RUN_RUN 3

/-- A load or fetch of a core that nothing refuses. -/
def State.coreLoad (s : State) (m : Master) (r : Region) (a width : Nat) (f : BusFacts) : State :=
  if gated s m ∧ r = .regs ∧ touchesRc a then s.stall m true 0
  else
    let ans := (s.stall m false 0).busLoad m r a width f
    let bs := ans.1
    let s := ans.2
    s.emit (.coreData m (leNat bs))

/-- An access of a width that is misaligned (R472). -/
def coreMisaligned (kind : AccKind) (a width : Nat) : Bool := kind != .fetch && a % width != 0

/-- CORE_ACCESS (R472, R473): a core's load, store or fetch at an address; `v` is what a store stores. -/
def coreAccess (m : Master) (kind : AccKind) (a : Word) (width : Nat) (v : Word) (f : BusFacts) (s : State) : State :=
  let n := a.toNat
  if ¬ coreRuns s m ∨ ¬ [1, 2, 4].contains width then s
  else if coreMisaligned kind n width then s.emit (.coreFault m (if kind = .store then 6 else 4) n)
  else if pmpDenies s m kind n then s.emit (.coreFault m (faultCause kind) n)
  else if refusal s m kind n width ≠ 0 then s.refuse m kind n (refusal s m kind n width)
  else if notLoaded s m n then s.stall m true ((n - tcmBase m) / 65536 + 1)
  else match regionOf n with
    | none => s
    | some r => if kind = .store then s.coreStore m r n width (v.toNat % 256 ^ width) f else s.coreLoad m r n width f

def execCoreAccess (m : Master) (kind : AccKind) (a : Word) (width : Nat) (v : Word) (f : BusFacts) (s : State) :
    Host.Outcome State Fault Refusal := .next (coreAccess m kind a width v f s)

/-! ### Register accesses (R8, R9) -/

/-- REGISTER_WRITE (R8): an aligned word store of a core to a register. -/
def execRegisterWrite (m : Master) (a : Word) (v : Word) (f : BusFacts) (s : State) : Host.Outcome State Fault Refusal :=
  .next (if regionOf a.toNat = some .regs then coreAccess m .store a 4 v f s else s)

/-- RC_READ (R8): a word load of a register with RC fields returns it and resets them. -/
def execRcRead (m : Master) (a : Word) (s : State) : Host.Outcome State Fault Refusal :=
  .next (if touchesRc a.toNat then coreAccess m .load a 4 0 {} s else s)

/-- RL_READ (R9): a word load of a counter's low word copies the high word into the core's shadow. -/
def execRlRead (m : Master) (a : Word) (s : State) : Host.Outcome State Fault Refusal :=
  .next (if (shadowOf a.toNat).isSome then coreAccess m .load a 4 0 {} s else s)

/-! ### The drain (R127) -/

/-- Perform held stores in order, each with its facts. -/
def State.drainAll (m : Master) : List HeldStore → List BusFacts → State → State
  | [], _, s => s
  | h :: l, fs, s =>
    let s := match regionOf h.addr with
      | some r => s.busStore m r h.addr h.width h.data (fs.headD {})
      | none => s
    State.drainAll m l (fs.drop 1) s

/-- HSQ_DRAIN_END (R127): a passed core's queue has drained, its gate bit clears, and its core goes on. -/
def hsqDrainEnd (c : BitVec 2) (facts : List BusFacts) (s : State) : State :=
  let n := c.toNat
  if n ≥ 3 ∨ ¬ s.bit F.SST_GATE_GATED n ∨ ¬ segPassed s (gatedSeg n) then s
  else
    let l := hsq s n
    let s := State.drainAll (gatedCore n) l facts (s.setHsq n [])
    (s.clrIn F.SST_GATE_GATED n).clr (F.SST_HSQ_STALL n)

def execHsqDrainEnd (c : BitVec 2) (facts : List BusFacts) (s : State) : Host.Outcome State Fault Refusal :=
  .next (hsqDrainEnd c facts s)

/-! ### BAR0 (R477, R478) -/

/-- A doubleword written at an offset of BAR0 of function q. -/
def State.bar0Write (s : State) (q o : Nat) (v : Word) : State :=
  if o = 0x80 then s.hmwctl (v.getLsbD 0) (v.getLsbD 1)
  else if 0x100 ≤ o ∧ o < 0x180 then (if s.on F.HMWCTL_LOCK then s else s.regWrite (0x900000000 + o) v)
  else if 0x400 ≤ o ∧ o < 0x800 then
    let r := (o - 0x400) / 16
    if o / 4 % 4 = 3 then s.sqControl r v else s.sqSetup r (o / 4 % 4) v
  else if 0x800 ≤ o ∧ o < 0xC00 then
    let r := (o - 0x800) / 16
    if o / 4 % 4 = 3 then s.cqControl r v else s.cqSetup r (o / 4 % 4) v
  else if 0xC00 ≤ o ∧ o < 0xC80 then
    let p := (o - 0xC00) / 8
    if o % 8 = 0 then s.dbpWrite p v else if partyRings s p then s else s.put (F.DBP_4_ADDR_HI p) v.toNat
  else if 0xE00 ≤ o ∧ o < 0x1000 then s.msixWord q ((o - 0xE00) / 4) v
  else if 0x1000 ≤ o ∧ o < 0x2000 ∧ o % 0x100 = 0 then s.dbRequest ((o - 0x1000) / 0x100)
  else s

/-- The doublewords of a host write, the lower address first: one whose byte enables are not all 1 is not written. -/
def State.bar0Writes (q : Nat) : Nat → List HostDw → State → State
  | _, [], s => s
  | o, d :: l, s =>
    State.bar0Writes q (o + 4) l (if d.be = 15 then s.bar0Write q o d.data else s.inc F.GLB_BARERR_PART_CNT)

/-- A request of one of the two shapes that BAR0 serves. -/
def bar0Shape (o n : Nat) : Bool := (n == 1 && o % 4 == 0) || (n == 2 && o % 8 == 0)

/-- HOST_BAR0_REQUEST (R478): a host memory request of as many doublewords as `dws` lists, at an offset of BAR0 of
function q. -/
def hostBar0Request (q : BitVec 1) (write : Bool) (o : BitVec 14) (dws : List HostDw) (s : State) : State :=
  let n := q.toNat
  if ¬ bar0On s n then s
  else if ¬ bar0Shape o.toNat dws.length then
    (s.inc F.GLB_BARERR_UR_CNT).emit (if write then .aerUr n else .bar0Ur n)
  else if write then s.bar0Writes n o.toNat dws
  else s.emit (.bar0Data n ((List.range dws.length).map fun i => bar0View s n (o.toNat + 4 * i)))

def execHostBar0Request (q : BitVec 1) (write : Bool) (o : BitVec 14) (dws : List HostDw) (s : State) :
    Host.Outcome State Fault Refusal := .next (hostBar0Request q write o dws s)

end Sys2Proof.Machine
end

