-- ==== Sys2Proof/Machine/Msq.lean ====
section
/-! DEFINITION. The commands of the motor sequencer and of its patch transfer (R201 to R209). An instruction's command
carries what the ROM holds at PC. -/

namespace Sys2Proof.Machine

open Sys2Proof

def msqNop (w : Word) (s : State) : State := s.msqExec w 0x00 fun _ pc s => s.onMsq fun q => { q with pc }
def execMsqNop (w : Word) (s : State) : Host.Outcome State Fault Refusal := .next (msqNop w s)

def msqLdi (w : Word) (s : State) : State := s.msqAlu w 0x01 fun _ _ i => i
def execMsqLdi (w : Word) (s : State) : Host.Outcome State Fault Refusal := .next (msqLdi w s)

def msqAddi (w : Word) (s : State) : State := s.msqAlu w 0x02 fun _ a i => a + i
def execMsqAddi (w : Word) (s : State) : Host.Outcome State Fault Refusal := .next (msqAddi w s)

def msqAdd (w : Word) (s : State) : State := s.msqAlu w 0x03 fun d a _ => d + a
def execMsqAdd (w : Word) (s : State) : Host.Outcome State Fault Refusal := .next (msqAdd w s)

def msqSub (w : Word) (s : State) : State := s.msqAlu w 0x04 fun d a _ => d - a
def execMsqSub (w : Word) (s : State) : Host.Outcome State Fault Refusal := .next (msqSub w s)

def msqAndi (w : Word) (s : State) : State := s.msqAlu w 0x05 fun _ a i => a &&& i
def execMsqAndi (w : Word) (s : State) : Host.Outcome State Fault Refusal := .next (msqAndi w s)

def msqOri (w : Word) (s : State) : State := s.msqAlu w 0x06 fun _ a i => a ||| i
def execMsqOri (w : Word) (s : State) : Host.Outcome State Fault Refusal := .next (msqOri w s)

def msqSra (w : Word) (s : State) : State := s.msqAlu w 0x07 fun _ a i => a.sshiftRight (i.toNat % 16)
def execMsqSra (w : Word) (s : State) : Host.Outcome State Fault Refusal := .next (msqSra w s)

/-- The Q15 product, saturated. Where it is not whole, which of the two nearest integers results is open: `up` chooses
(DESIGN CHOICE, log entry 46). -/
def mulQ (d a : BitVec 16) (up : Bool) : BitVec 16 :=
  let p := toInt 16 d.toNat * toInt 16 a.toNat
  let r := p / 32768 + (if up ∧ p % 32768 ≠ 0 then 1 else 0)
  BitVec.ofInt 16 (if 32767 < r then 32767 else r)

def msqMulq (w : Word) (s : State) : State :=
  let (v, t) := s.draw
  s.msqExec w 0x08 fun w pc _ => t.onMsq fun q => { q.setG (mGd w) (mulQ (q.g (mGd w)) (q.g (mGa w)) (v.getLsbD 0)) with pc }
def execMsqMulq (w : Word) (s : State) : Host.Outcome State Fault Refusal := .next (msqMulq w s)

/-- IN: `meas` is what a port that shows a measurement reads (Table 10.1). -/
def msqIn (w : Word) (meas : BitVec 16) (s : State) : State :=
  s.msqExec w 0x09 fun w pc s =>
    let port := (mImm w).toNat % 256
    let s := s.onMsq fun q => { q.setG (mGd w) (portRead s.pd port meas) with pc }
    if port = 0x11 then s.onPd fun p => { p with actreq := 0 } else s
def execMsqIn (w : Word) (meas : BitVec 16) (s : State) : Host.Outcome State Fault Refusal := .next (msqIn w meas s)

/-- OUT, with the port's effect: FPOST posts a FAULT packet. -/
def msqOut (w : Word) (s : State) : State :=
  s.msqExec w 0x0A fun w pc s =>
    let port := (mImm w).toNat % 256
    let v := s.msq.g (mGa w)
    let s := s.onMsq fun q => { q with pc }
    if port = 0x30 then s.pdFault (v.toNat % 256) (v.toNat / 256) else s.onPd fun p => portWrite p port v
def execMsqOut (w : Word) (s : State) : Host.Outcome State Fault Refusal := .next (msqOut w s)

/-- The target of a flow change: IMM[13:0]. -/
def mTarget (w : Word) : Nat := (mImm w).toNat % 16384

def msqBr (w : Word) (s : State) : State :=
  s.msqExec w 0x0B fun w pc s => s.onMsq fun q => { q with pc := if msqCond (mCc w) (q.g (mGa w)) then mTarget w else pc }
def execMsqBr (w : Word) (s : State) : Host.Outcome State Fault Refusal := .next (msqBr w s)

/-- CALL: the stack holds four entries; what a fifth CALL leaves in it is open (DESIGN CHOICE, log entry 47). -/
def msqCall (w : Word) (s : State) : State :=
  s.msqExec w 0x0C fun w pc s =>
    if s.msq.stack.length < 4 then s.onMsq fun q => { q with stack := pc :: q.stack, pc := mTarget w }
    else
      let (v, s) := s.draw
      let (u, s) := s.draw
      let (x, s) := s.draw
      let (y, s) := s.draw
      s.onMsq fun q => { q with stack := [v.toNat % 65536, u.toNat % 65536, x.toNat % 65536, y.toNat % 65536], pc := mTarget w }
def execMsqCall (w : Word) (s : State) : Host.Outcome State Fault Refusal := .next (msqCall w s)

/-- RET: from an empty stack it pops an open value (DESIGN CHOICE, log entry 47). -/
def msqRet (w : Word) (s : State) : State :=
  s.msqExec w 0x0D fun _ _ s =>
    match s.msq.stack with
    | a :: l => s.onMsq fun q => { q with stack := l, pc := a }
    | [] => let (v, s) := s.draw
      s.onMsq fun q => { q with pc := v.toNat % 65536 }
def execMsqRet (w : Word) (s : State) : Host.Outcome State Fault Refusal := .next (msqRet w s)

/-- WAIT: patches take effect here (R207), then the sequencer waits for an event in its mask. -/
def msqWait (w : Word) (s : State) : State :=
  s.msqExec w 0x0E fun w pc s => (s.onMsq fun q => { q with pc, waiting := some ((mImm w).toNat % 256) }).patchActivate
def execMsqWait (w : Word) (s : State) : Host.Outcome State Fault Refusal := .next (msqWait w s)

/-- Events occur; one in the mask ends the wait. -/
def msqWaitEvent (events : BitVec 8) (s : State) : State :=
  match s.msq.waiting with
  | some m => if s.pd.reset ∨ (BitVec.ofNat 8 m &&& events) = 0 then s else s.onMsq fun q => { q with waiting := none }
  | none => s
def execMsqWaitEvent (events : BitVec 8) (s : State) : Host.Outcome State Fault Refusal := .next (msqWaitEvent events s)

/-- An illegal opcode or a bad fetch (R204). -/
def msqIllegal (w : Word) (s : State) : State :=
  if ¬ msqRuns s then s else
  match msqFetch s.msq w with
  | some (x, _) => if 0x0F ≤ mOp x then s.msqRecover else s
  | none => s.msqRecover
def execMsqIllegal (w : Word) (s : State) : Host.Outcome State Fault Refusal := .next (msqIllegal w s)

/-! ### Patch packets (R207) -/

/-- A downstream patch packet leaves the queue; during the die's reset it is discarded (R504). -/
def patchPacket (p : Packet) (f : State → State) (s : State) : State :=
  let s := { s with link := s.link.takeDown p }
  if s.pd.reset then s else f s

/-- UNPATCH takes effect at the next WAIT. -/
def unpatchPkt (s : State) : State := patchPacket .unpatch (fun s => s.onMsq fun q => { q with unpatch := true }) s
def execUnpatch (s : State) : Host.Outcome State Fault Refusal := .next (unpatchPkt s)

/-- PATCH_DATA: image bytes 19k to 19k + 18. -/
def patchData (k : BitVec 8) (bytes : List Byte) (s : State) : State :=
  patchPacket (.patchData k.toNat bytes) (fun s => if k.toNat < 18 then s.onMsq fun q =>
    { q with image := overlay q.image (19 * k.toNat) (slice bytes 0 19) } else s) s
def execPatchData (k : BitVec 8) (bytes : List Byte) (s : State) : Host.Outcome State Fault Refusal := .next (patchData k bytes s)

/-- PATCH_END: PCRC is checked, and PATCH_ACK answers. -/
def patchEnd (s : State) : State :=
  patchPacket .patchEnd (fun s =>
    let b := s.msq.image
    if pcrcGood b then (s.onMsq fun q => { q with shadow := some (patchOf b), image := [] }).pdSend (.patchAck true)
    else s.pdSend (.patchAck false)) s
def execPatchEnd (s : State) : Host.Outcome State Fault Refusal := .next (patchEnd s)

/-- PATCH_ACK: a mismatch makes the SST send again, three times in all. -/
def patchAck (good : Bool) (s : State) : State :=
  let s := { s with link := s.link.takeUp (.patchAck good) }
  if good ∨ s.get F.MSQ_STAT_STATE ≠ 1 then s else
  let s := s.inc F.MSQ_CNT_XFER_CNT
  if s.msq.sends < 3 then s.patchSend else s.patchRefused 4
def execPatchAck (good : Bool) (s : State) : Host.Outcome State Fault Refusal := .next (patchAck good s)

end Sys2Proof.Machine
end

