-- ==== Sys2Proof/Machine/PowerDie.lean ====
section
/-! DEFINITION. The commands of the Power die, the Finion link and its packets (chapter 10, R61 to R66). -/

namespace Sys2Proof.Machine

open Sys2Proof

/-! ### The link -/

/-- The TYPE values of Table 10.10. -/
def listedType (t : Byte) : Bool :=
  t == 0 || (decide (0x10 ≤ t.toNat) && decide (t.toNat ≤ 0x1B)) || (decide (0x90 ≤ t.toNat) && decide (t.toNat ≤ 0x95))

/-- FINION_FRAME (R61, R65): a frame is received on both lanes by a die, which answers in its own next frame. A good payload
whose TYPE is not listed is ignored and counted (R251). The downstream frame carries the servo slot (R63). The Power die in
reset goes on acknowledging, and sends IDLE (R504). -/
def finionFrame (d : Die) (sync hdr : BitVec 8) (pay : BitVec 168) (pcrc : BitVec 16) (s : State) : State :=
  let crc := framePcrc hdr.toNat pay.toNat == pcrc.toNat
  let ack := hdr.getLsbD 4
  let l := s.link
  match d with
  | .logic =>
    let r := receiveFrame (sync == frameSync) crc ack (hdr.setWidth 4) l.logic
    let p := r.sends ack l.down
    let s := { s with link := { l with logic := r.sent p, down := if ack then l.down.drop 1 else l.down } }
    let s := s.emit (frameOut .logic r p)
    if ¬ crc then s.inc F.FLNK_CNT_PCRC_CNT
    else if listedType (pay.setWidth 8) then s else s.inc F.FLNK_CNT_BADPKT
  | .power =>
    let r := receiveFrame (sync == frameSync) crc ack (hdr.setWidth 4) l.power
    let p := if s.pd.reset then none else r.sends ack l.up
    let s := { s with link := { l with power := r.sent p, up := if ack && !s.pd.reset then l.up.drop 1 else l.up } }
    (s.emit (frameOut .power r p)).servoSlot

def execFinionFrame (d : Die) (sync hdr : BitVec 8) (pay : BitVec 168) (pcrc : BitVec 16) (s : State) : Host.Outcome State Fault Refusal :=
  .next (finionFrame d sync hdr pay pcrc s)

/-- The Power die's response to a link that is down (R252). -/
def powerLinkDown (fx : RetractFacts) (s : State) : State :=
  s.onPd fun p => retractStart 2 fx { p with vneg := false, vpos := false }

/-- FINION_LINK_DOWN (R66): after eight bad SYNC or eight ACK = 0 a receiver declares the link down. On the Logic die
that is a RETREAT trigger; the Power die retracts. -/
def finionLinkDown (d : Die) (fx : RetractFacts) (t : Trans) (s : State) : State :=
  match d with
  | .logic =>
    let r := s.link.logic
    if r.up && (decide (8 ≤ r.badSync) || decide (8 ≤ r.nack)) then
      let s := { s with link := { s.link with logic := { r with up := false, badSync := 0, nack := 0, good := 0 } } }
      let s := ((s.clr F.FLNK_STAT_UP).raiseBit F.FLNK_STAT_LDOWN).inc F.FLNK_CNT_LDOWN_CNT
      s.retreatTrigger 5 t
    else s
  | .power =>
    let r := s.link.power
    if r.up && (decide (8 ≤ r.badSync) || decide (8 ≤ r.nack)) then
      powerLinkDown fx { s with link := { s.link with power := { r with up := false, badSync := 0, nack := 0, good := 0 } } }
    else s

def execFinionLinkDown (d : Die) (fx : RetractFacts) (t : Trans) (s : State) : Host.Outcome State Fault Refusal :=
  .next (finionLinkDown d fx t s)

/-- FINION_LINK_UP (R252): after sixteen good frames a receiver declares the link up; no state is restored. -/
def finionLinkUp (d : Die) (s : State) : State :=
  match d with
  | .logic =>
    let r := s.link.logic
    if !r.up && decide (16 ≤ r.good) then
      ({ s with link := { s.link with logic := { r with up := true } } } : State).raiseBit F.FLNK_STAT_UP
    else s
  | .power =>
    let r := s.link.power
    if !r.up && decide (16 ≤ r.good) then { s with link := { s.link with power := { r with up := true } } } else s

def execFinionLinkUp (d : Die) (s : State) : Host.Outcome State Fault Refusal := .next (finionLinkUp d s)

/-- SERVO_WORD_RECEIVED (R64, R239): a downstream servo word is checked and applied to the DACs only in LOADED. -/
def servoWordReceived (w : BitVec 56) (s : State) : State :=
  s.onPd fun p =>
    let n := w.toNat
    if p.reset then p
    else if crc8 48 n ≠ n / 2 ^ 48 then { p with svcrc := Nat.min (p.svcrc + 1) 255 }
    else if n % 2 = 1 ∧ p.act = .loaded then
      { p with seq := n / 2 % 8, vcm := BitVec.ofNat 16 (n / 16)
               ma0 := if p.mahz0 then 0 else BitVec.ofNat 12 (n / 2 ^ 20)
               ma1 := if p.mahz1 then 0 else BitVec.ofNat 12 (n / 2 ^ 32) }
    else p

def execServoWordReceived (w : BitVec 56) (s : State) : Host.Outcome State Fault Refusal :=
  .next (servoWordReceived w s)

/-! ### Packets to the Power die -/

/-- A downstream packet is received: it leaves the queue. During the Power die's reset it is discarded (R504). -/
def downPacket (p : Packet) (f : PdState → PdState) (s : State) : State :=
  let s := { s with link := s.link.takeDown p }
  if s.pd.reset then s else s.onPd f

/-- SPEED (R240). -/
def execSpeed (target : BitVec 16) (spilim : BitVec 8) (rpm : Nat) (s : State) : Host.Outcome State Fault Refusal :=
  .next (downPacket (.speed target.toNat spilim.toNat) (speedPacket target.toNat spilim.toNat rpm) s)

/-- SPDERR (R241): the error feeds the motor sequencer's outer loop through port SPERR. -/
def execSpderr (e : BitVec 24) (s : State) : Host.Outcome State Fault Refusal :=
  .next (downPacket (.spderr e.toNat) (fun p => { p with sperr := e.toNat }) s)

/-- SPDERR_MEASUREMENT (R241): with LOCK = 1 and the ATB LOCKED, 64 ATB wedges took `t64` REFCK cycles. Where
the error is not a whole number of units, which of the two nearest is sent is open (DESIGN CHOICE, log entry 12). -/
def spderrMeasurement (t64 : Nat) (s : State) : State :=
  let target := s.get F.FLNK_SPD_TARGET
  if s.on F.FLNK_SPD_LOCK ∧ s.get F.ATB_STAT_STATE = 2 ∧ target ≠ 0 then
    let (v, s) := s.draw
    let n : Int := ((t64 : Int) * target - 187500000) * 16777216
    let e := n / 187500000 + (if v.getLsbD 0 ∧ n % 187500000 ≠ 0 then 1 else 0)
    let e := if e > 8388607 then 8388607 else if e < -8388608 then -8388608 else e
    s.flnkSend (.spderr (ofInt 24 e))
  else s

def execSpderrMeasurement (t64 : Nat) (s : State) : Host.Outcome State Fault Refusal := .next (spderrMeasurement t64 s)

/-- An ACT packet also shows at port ACTREQ. -/
def actPacket (a : Nat) (f : PdState → PdState) (s : State) : State :=
  downPacket (.act a) (fun p => f { p with actreq := a }) s

/-- ACT_LOAD (R238). -/
def execActLoad (s : State) : Host.Outcome State Fault Refusal := .next (actPacket 1 actLoad s)

/-- ACT_UNLOAD (R238). -/
def execActUnload (s : State) : Host.Outcome State Fault Refusal := .next (actPacket 2 actUnload s)

/-- ACT_PARK (R238). -/
def execActPark (s : State) : Host.Outcome State Fault Refusal := .next (actPacket 3 actPark s)

/-- ACT_RETRACT (R246). -/
def execActRetract (fx : RetractFacts) (s : State) : Host.Outcome State Fault Refusal :=
  .next (actPacket 4 (actRetract fx) s)

/-- ACT_HOLDUP (R238, R245). -/
def execActHoldup (s : State) : Host.Outcome State Fault Refusal := .next (actPacket 5 actHoldup s)

/-- PSUP_ON (R244): ignored while the spindle is not AT_SPEED; PA_VNEG comes up first. -/
def execPsupOn (s : State) : Host.Outcome State Fault Refusal :=
  .next (downPacket (.psup true) (fun p => if p.sp = .atSpeed then { p with vneg := true } else p) s)

/-- PREAMP_VPOS_ON (R244): PA_VPOS follows PA_VNEG. -/
def execPreampVposOn (s : State) : Host.Outcome State Fault Refusal :=
  .next (s.onPd fun p => if p.vneg ∧ ¬ p.reset then { p with vpos := true } else p)

/-- PSUP_OFF (R244). -/
def execPsupOff (s : State) : Host.Outcome State Fault Refusal :=
  .next (downPacket (.psup false) (fun p => { p with vneg := false, vpos := false }) s)

/-- CFG (R251). -/
def execCfg (rdl rfloor vret holdv : BitVec 8) (vcmrng : Bool) (s : State) : Host.Outcome State Fault Refusal :=
  .next (downPacket (.cfg rdl.toNat rfloor.toNat vret.toNat holdv.toNat (if vcmrng then 1 else 0))
    (fun p => { p with rdl := rdl.toNat, rfloor := rfloor.toNat, vret := vret.toNat, holdv := holdv.toNat
                       vcmrng := if vcmrng then 1 else 0 }) s)

/-- PWR (R251): a mailbox cell is written. -/
def execPwr (port : BitVec 8) (value : BitVec 16) (s : State) : Host.Outcome State Fault Refusal :=
  .next (downPacket (.pwr port.toNat value.toNat) (fun p =>
    if 0x40 ≤ port.toNat ∧ port.toNat ≤ 0x7F then portWrite p port.toNat value else p) s)

/-- PRD (R251): the Power die answers with PDATA; `meas` is the value of a port that shows a measurement. -/
def prd (port : BitVec 8) (meas : BitVec 16) (s : State) : State :=
  let s := downPacket (.prd port.toNat) id s
  if s.pd.reset then s else
  let s1 := s.pdSend (.pdata port.toNat (portRead s.pd port.toNat meas).toNat)
  if port = 0x11 then s1.onPd fun p => { p with actreq := 0 } else s1

def execPrd (port : BitVec 8) (meas : BitVec 16) (s : State) : Host.Outcome State Fault Refusal :=
  .next (prd port meas s)

/-- LOGACK (R249): a retract log entry is reported. -/
def execLogack (entry : BitVec 3) (s : State) : Host.Outcome State Fault Refusal :=
  .next (downPacket (.logack entry.toNat) (fun p =>
    { p with log := p.log.map fun e => if e.slot = entry.toNat then { e with acked := true } else e }) s)

/-- LOGREQ (R249): one LOG packet for each entry not acknowledged, oldest first. -/
def logreq (s : State) : State :=
  let s := downPacket .logreq id s
  if s.pd.reset then s
  else State.each (fun e s => s.pdSend (.log e.slot e.bytes)) (s.pd.log.filter fun e => !e.acked) s

def execLogreq (s : State) : Host.Outcome State Fault Refusal := .next (logreq s)

/-- IDLE (R251) carries nothing. -/
def execIdle (s : State) : Host.Outcome State Fault Refusal := .next s

/-! ### Packets to the Logic die -/

/-- An upstream packet is received: it leaves the queue. -/
def upPacket (p : Packet) (s : State) : State := { s with link := s.link.takeUp p }

/-- STATUS (R251): the states come from the Power die, the measured values with the packet. A Power die in reset sends none
(R504). -/
def status (speed16 : BitVec 18) (vhold : BitVec 16) (temp : BitVec 8) (romid : BitVec 16) (s : State) : State :=
  let p := s.pd
  if p.reset then s else
  let s := (s.put F.FLNK_PD_SPST (spCode p.sp)).put F.FLNK_PD_ACTST (actCode p.act)
  let s := (s.putB F.FLNK_PD_PSUP (p.vneg && p.vpos)).put F.FLNK_PD_ACTRES p.actres
  let s := (s.put F.FLNK_PDV_SPEED speed16.toNat).put F.FLNK_PDV_TEMP temp.toNat
  let s := (s.put F.FLNK_VH_VHOLD vhold.toNat).put F.MSQ_ROMID_ROMID romid.toNat
  let s := s.addCnt F.FLNK_CNT_SVCRC_CNT p.svcrc
  s.onPd fun p => { p with svcrc := 0, temp, romid }

def execStatus (speed16 : BitVec 18) (vhold : BitVec 16) (temp : BitVec 8) (romid : BitVec 16) (s : State) :
    Host.Outcome State Fault Refusal := .next (status speed16 vhold temp romid s)

/-- FAULT (R250): FLNK_FLT takes the fault and record 0x0603 is submitted; STARTFAIL ends a pending exit from
DORMANT (R98). -/
def faultPacket (kind : BitVec 8) (detail : BitVec 16) (s : State) : State :=
  let s := upPacket (.fault kind.toNat detail.toNat) s
  let s := (s.put F.FLNK_FLT_KIND kind.toNat).put F.FLNK_FLT_DETAIL detail.toNat
  let s := s.faultRecord kind.toNat detail.toNat
  if kind = 11 then s.spinUpFailed else s

def execFault (kind : BitVec 8) (detail : BitVec 16) (s : State) : Host.Outcome State Fault Refusal :=
  .next (faultPacket kind detail s)

/-- PDATA (R251). -/
def pdata (port : BitVec 8) (value : BitVec 16) (s : State) : State :=
  ((upPacket (.pdata port.toNat value.toNat) s).put F.FLNK_PRES_DATA value.toNat).clr F.FLNK_PRES_BUSY

def execPdata (port : BitVec 8) (value : BitVec 16) (s : State) : Host.Outcome State Fault Refusal :=
  .next (pdata port value s)

/-- LOG (R249): record 0x0306 is submitted with the entry. LOGACK follows once the recorder has taken it into its FIFO
(`State.logAck`). -/
def logPacket (entry : BitVec 3) (bytes : List Byte) (s : State) : State :=
  let s := upPacket (.log entry.toNat bytes) s
  let s := { s with link := { s.link with logDue := s.link.logDue ++ [(entry.toNat, slice bytes 0 16)] } }
  (s.event 0x0306 0xFF (slice bytes 0 16)).raiseBit F.FLNK_STAT_LOGPEND

def execLog (entry : BitVec 3) (bytes : List Byte) (s : State) : Host.Outcome State Fault Refusal :=
  .next (logPacket entry bytes s)

/-- NOTICE (R236): the Power die's reset was released. Outside THAW the FLNK resends the last SPEED, CFG and PSUP packets, the
SST repeats the patch transfer (R209), and record 0x0603 of kind 10 is submitted. -/
def notice (romid : BitVec 16) (s : State) : State :=
  let s := (upPacket (.notice s.pd.romid.toNat) s).onPd fun p => { p with romid }
  let s := (s.raiseBit F.FLNK_STAT_PDRST).put F.MSQ_ROMID_ROMID romid.toNat
  if s.mode = mTHAW then s
  else
    let l := s.link
    let s := State.each (fun p s => s.flnkSend p) (l.lastSpeed.toList ++ l.lastCfg.toList ++ l.lastPsup.toList) s
    (s.inc F.MSQ_CNT_RELOAD_CNT).patchResend.faultRecord 10 0

def execNotice (romid : BitVec 16) (s : State) : Host.Outcome State Fault Refusal := .next (notice romid s)

/-! ### Reset, spindle and actuator -/

/-- PD_RESET_ASSERT (R236): the Power die's logic is in reset; its interface keeps the link up (R504). -/
def execPdResetAssert (s : State) : Host.Outcome State Fault Refusal :=
  .next (s.onPd fun p => { enterSpin .coast p with reset := true, retract := none, flt := false, vneg := false, vpos := false })

/-- The Power die after its reset: registers as at power-on, the log and OPN kept in their cells. What lasts until the next
THAW or until a temperature is reached lasts through it (Table 10.8), and the interface goes on with the word it sent last. -/
def pdAfterReset (p : PdState) : PdState :=
  { sp := .coast, act := p.act, log := p.log, opn := p.opn, vmotl := p.vmotl, vin5l := p.vin5l, temp := p.temp, romid := p.romid
    mahz0 := p.mahz0, mahz1 := p.mahz1, shut := p.shut, upLast := p.upLast }

/-- PD_RESET_RELEASE (R236): the retract engine runs once, the spindle coasts, the preamp supplies stay off, the motor
sequencer runs from ROM alone, and NOTICE is sent. -/
def pdResetRelease (fx : RetractFacts) (s : State) : State :=
  if s.pd.reset then
    let s := { s with pd := retractStart 8 fx (pdAfterReset s.pd), msq := s.msq.romOnly }
    (s.msqShow 0).pdSend (.notice s.pd.romid.toNat)
  else s

def execPdResetRelease (fx : RetractFacts) (s : State) : Host.Outcome State Fault Refusal :=
  .next (pdResetRelease fx s)

/-- ACTUATOR_MOVE_DONE (R238, R240, R243): the actuator takes its target state, and at the latch the VCM and the
microactuators are released; after a park for target 0 the spindle brakes. Logic in reset ends no move. -/
def actuatorMoveDone (p : PdState) : PdState :=
  if p.reset ∨ p.act ≠ .moving then p else
  let p := { p with act := p.moveTo }
  let p := if p.act = .fullpark then { p with vcm := 0, ma0 := 0, ma1 := 0 } else p
  if ¬ p.zeroDue then p
  else if p.act ≠ .fullpark then moveAct .fullpark p
  else
    let p := { p with zeroDue := false }
    if p.sp = .start ∨ p.sp = .accel ∨ p.sp = .atSpeed then enterSpin .brake p else p

def execActuatorMoveDone (s : State) : Host.Outcome State Fault Refusal := .next (s.onPd actuatorMoveDone)

/-- SERVO_SILENCE (R239): 2048 frames in LOADED without an applied servo word. -/
def execServoSilence (fx : RetractFacts) (s : State) : Host.Outcome State Fault Refusal :=
  .next (s.onPd fun p => if p.act = .loaded then retractStart 3 fx p else p)

/-- VHOLD_LOW (R246): VHOLD below VRET for 10 µs in HOLDUP. -/
def execVholdLow (fx : RetractFacts) (s : State) : Host.Outcome State Fault Refusal :=
  .next (s.onPd fun p => if p.sp = .holdup then retractStart 4 fx p else p)

/-- SPINDLE_FLOOR (R246): spindle below RFLOOR outside FULLPARK. -/
def execSpindleFloor (fx : RetractFacts) (s : State) : Host.Outcome State Fault Refusal :=
  .next (s.onPd fun p => if fx.rpm < p.rfloor * 100 then retractStart 5 fx p else p)

/-- RETRACT_DEADLINE (R246): RDL after hold-up entry. -/
def execRetractDeadline (fx : RetractFacts) (s : State) : Host.Outcome State Fault Refusal :=
  .next (s.onPd fun p => if fx.ms ≥ p.rdl * 10 then retractStart 6 fx p else p)

/-- Change the running retract. -/
def onRetract (f : Retract → Retract) (p : PdState) : PdState := { p with retract := p.retract.map f }

/-- RETRACT_RAMP_REACHED (R246). -/
def execRetractRampReached (s : State) : Host.Outcome State Fault Refusal :=
  .next (s.onPd (onRetract fun r => { r with ramp := true }))

/-- RETRACT_LATCH_REACHED (R246). -/
def execRetractLatchReached (s : State) : Host.Outcome State Fault Refusal :=
  .next (s.onPd (onRetract fun r => if r.timeout then r else { r with latch := true }))

/-- RETRACT_LATCH_TIMEOUT (R246). -/
def execRetractLatchTimeout (s : State) : Host.Outcome State Fault Refusal :=
  .next (s.onPd (onRetract fun r => if r.latch then r else { r with timeout := true }))

/-- RETRACT_END (R247, R249): after the final push the VCM is released and the actuator is in FULLPARK; the log entry
is written. `dur` is the duration in units of 100 µs. -/
def retractEnd (dur : Nat) (s : State) : State :=
  match s.pd.retract with
  | none => s
  | some r =>
    if ¬ (r.latch || r.timeout) then s else
    let s := s.onPd fun p => { p with retract := none, act := .fullpark, vcm := 0, ma0 := 0, ma1 := 0 }
    let s := if r.fromPark then s else s.logRetract r dur
    s.onPd fun p =>
      if p.zeroDue then
        let p := { p with zeroDue := false }
        if p.sp = .start ∨ p.sp = .accel ∨ p.sp = .atSpeed then enterSpin .brake p else p
      else p

def execRetractEnd (dur : Nat) (s : State) : Host.Outcome State Fault Refusal := .next (retractEnd dur s)

/-- SPINDLE_CLOSED_LOOP (R240): zero crossings valid at 150 rpm or more. -/
def execSpindleClosedLoop (s : State) : Host.Outcome State Fault Refusal :=
  .next (s.onPd fun p => if p.sp = .start then enterSpin .accel { p with attempts := 0 } else p)

/-- START_ATTEMPT_TIMEOUT (R240): the third failed attempt ends in STOPPED with STARTFAIL. -/
def startAttemptTimeout (s : State) : State :=
  if s.pd.sp ≠ .start then s
  else if s.pd.attempts + 1 ≥ 3 then (s.onPd fun p => enterSpin .stopped { p with attempts := 0 }).pdFault 11 0
  else s.onPd fun p => { p with attempts := p.attempts + 1 }

def execStartAttemptTimeout (s : State) : Host.Outcome State Fault Refusal := .next (startAttemptTimeout s)

/-- SPINDLE_AT_SPEED (R240): AT_SPEED is entered, and the actuator leaves FULLPARK for REFPARK. -/
def spindleAtSpeed (p : PdState) : PdState :=
  if p.sp ≠ .accel then p else
  let p := enterSpin .atSpeed p
  if p.act = .fullpark then moveAct .refpark p else p

def execSpindleAtSpeed (s : State) : Host.Outcome State Fault Refusal := .next (s.onPd spindleAtSpeed)

/-- SPEED_ERROR (R240). -/
def execSpeedError (s : State) : Host.Outcome State Fault Refusal :=
  .next (s.onPd fun p => if p.sp = .atSpeed then enterSpin .accel p else p)

/-- SPINDLE_STOPPED (R240): no zero crossing for 100 ms in BRAKE or COAST; a target stored while braking starts at once. -/
def spindleStopped (p : PdState) : PdState :=
  if (p.sp = .brake ∨ p.sp = .coast) ∧ ¬ p.reset then
    let q := enterSpin .stopped p
    if p.sp = .brake ∧ p.stored ≠ 0 ∧ ¬ p.shut then enterSpin .start { q with target := p.stored, stored := 0 } else q
  else p

def execSpindleStopped (s : State) : Host.Outcome State Fault Refusal := .next (s.onPd spindleStopped)

/-- HOLDUP_BRAKE (R499): below 500 rpm in HOLDUP or BRAKE the windings are shorted. -/
def execHoldupBrake (s : State) : Host.Outcome State Fault Refusal :=
  .next (s.onPd fun p => if p.sp = .holdup ∨ p.sp = .brake then bridge 3 { p with sp := .brake } else p)

/-- What the Power die's logic does on its own, which it does not do in reset. -/
def pdRuns (f : State → State) (s : State) : State := if s.pd.reset then s else f s

/-- A fault of kind 1, 2, 4 or 7 is raised (Table 10.7, bit 47). -/
def State.pdRaise (s : State) (kind : Nat) : State := (s.onPd fun p => { p with flt := true }).pdFault kind 0

/-- The driving states of the spindle. -/
def driving (p : PdState) : Bool := p.sp == .start || p.sp == .accel || p.sp == .atSpeed

/-- SPOC (R250): COAST; loaded heads retract with cause 5 once the speed is below the floor. -/
def spoc (fx : RetractFacts) (s : State) : State :=
  let s := s.onPd fun p =>
    let p := if driving p then enterSpin .coast p else p
    if fx.rpm < p.rfloor * 100 then retractStart 5 fx p else p
  s.pdRaise 1

def execSpoc (fx : RetractFacts) (s : State) : Host.Outcome State Fault Refusal := .next (pdRuns (spoc fx) s)

/-- VCMOC (R250): the VCM is clamped to full scale. -/
def execVcmoc (s : State) : Host.Outcome State Fault Refusal :=
  .next (pdRuns (fun s => (s.onPd fun p => { p with vcm := if toInt 16 p.vcm.toNat < 0 then 0x8000 else 0x7FFF }).pdRaise 2) s)

/-- MAFLT (R250): the channel goes to 0 V and Hi-Z until the next THAW. -/
def execMaflt (ch : Bool) (s : State) : Host.Outcome State Fault Refusal :=
  .next (pdRuns (fun s => (s.onPd fun p => if ch then { p with mahz1 := true, ma1 := 0 } else { p with mahz0 := true, ma0 := 0 }).pdFault 3
    (if ch then 1 else 0)) s)

/-- PSUPF (R244): both preamp supplies are switched off. -/
def execPsupf (s : State) : Host.Outcome State Fault Refusal :=
  .next (pdRuns (fun s => (s.onPd fun p => { p with vneg := false, vpos := false }).pdRaise 4) s)

/-- TWARN (R250). -/
def execTwarn (s : State) : Host.Outcome State Fault Refusal := .next (pdRuns (fun s => s.pdFault 5 0) s)

/-- TSHUT (R250): a retract, and the bridge is Hi-Z until below 140 °C and a SPEED packet arrives. -/
def execTshut (fx : RetractFacts) (s : State) : Host.Outcome State Fault Refusal :=
  .next (pdRuns (fun s => (s.onPd fun p =>
    let p := retractStart 7 fx { p with shut := true, temp := 160 }
    if driving p then enterSpin .coast p else bridge 0 p).pdFault 6 0) s)

/-- SYNC (R250). -/
def execSync (s : State) : Host.Outcome State Fault Refusal :=
  .next (if driving s.pd then (s.onPd (enterSpin .coast)).pdRaise 7 else s)

/-- LINK_DOWN_SPIN_DOWN (R252): 2.0 s after the Power die declared the link down, and it is not back. -/
def execLinkDownSpinDown (s : State) : Host.Outcome State Fault Refusal :=
  .next (if s.link.power.up ∨ s.pd.reset then s else s.onPd spinDown)

end Sys2Proof.Machine
end

