-- ==== Sys2Proof/Machine/Dispatch.lean ====
section
/-! DEFINITION. One arm for each command: a direct call of its meaning, or its name where it has none yet. -/

namespace Sys2Proof.Machine

open Sys2Proof

def exec (i : Instr) (s : State) : Host.Outcome State Fault Refusal :=
  match i with
  | .registerWrite m a v f => Sys2Proof.Machine.execRegisterWrite m a v f s
  | .rcRead m a => Sys2Proof.Machine.execRcRead m a s
  | .rlRead m a => Sys2Proof.Machine.execRlRead m a s
  | .coreAccess m kind a width v f => Sys2Proof.Machine.execCoreAccess m kind a width v f s
  | .hostBar0Request q write o dws => Sys2Proof.Machine.execHostBar0Request q write o dws s
  | .pwrRstnRise vaon => Sys2Proof.Machine.execPwrRstnRise vaon s
  | .pwrRstnFall t => Sys2Proof.Machine.execPwrRstnFall t s
  | .railCollapse left => Sys2Proof.Machine.execRailCollapse left s
  | .vmotLoss t => Sys2Proof.Machine.execVmotLoss t s
  | .vin5Loss t => Sys2Proof.Machine.execVin5Loss t s
  | .bayWithdrawal t => Sys2Proof.Machine.execBayWithdrawal t s
  | .retreatEnd us => Sys2Proof.Machine.execRetreatEnd us s
  | .modeReqFlow m t => Sys2Proof.Machine.execModeReqFlow m t s
  | .modeReqDrift m t => Sys2Proof.Machine.execModeReqDrift m t s
  | .modeReqDormant m => Sys2Proof.Machine.execModeReqDormant m s
  | .modeReqRetreat m t => Sys2Proof.Machine.execModeReqRetreat m t s
  | .modeReqReboot m us => Sys2Proof.Machine.execModeReqReboot m us s
  | .quiesceDone t => Sys2Proof.Machine.execQuiesceDone t s
  | .quiesceTimeout => Sys2Proof.Machine.execQuiesceTimeout s
  | .dormantExitDone t => Sys2Proof.Machine.execDormantExitDone t s
  | .aspmL1Entry q => Sys2Proof.Machine.execAspmL1Entry q s
  | .droopSlow code => Sys2Proof.Machine.execDroopSlow code s
  | .droopRelease code low ns => Sys2Proof.Machine.execDroopRelease code low ns s
  | .deepDroop code ns t => Sys2Proof.Machine.execDeepDroop code ns t s
  | .droopSummary => Sys2Proof.Machine.execDroopSummary s
  | .atbCtlWrite m v => Sys2Proof.Machine.execAtbCtlWrite m v s
  | .signalQualified => Sys2Proof.Machine.execSignalQualified s
  | .indexMark run c ticks gap speed track => Sys2Proof.Machine.execIndexMark run c ticks gap speed track s
  | .atbHoldEnd => Sys2Proof.Machine.execAtbHoldEnd s
  | .acquireTimeout amp cycles => Sys2Proof.Machine.execAcquireTimeout amp cycles s
  | .acquireSignalLost amp cycles => Sys2Proof.Machine.execAcquireSignalLost amp cycles s
  | .lockLoss cause amp cycles => Sys2Proof.Machine.execLockLoss cause amp cycles s
  | .indexMissed amp cycles => Sys2Proof.Machine.execIndexMissed amp cycles s
  | .holdoverExpiry => Sys2Proof.Machine.execHoldoverExpiry s
  | .ascArm m v => Sys2Proof.Machine.execAscArm m v s
  | .ascCancel m v => Sys2Proof.Machine.execAscCancel m v s
  | .ascRead m v => Sys2Proof.Machine.execAscRead m v s
  | .ascFlush m => Sys2Proof.Machine.execAscFlush m s
  | .hwordWrite m v => Sys2Proof.Machine.execHwordWrite m v s
  | .ascDispatch idx => Sys2Proof.Machine.execAscDispatch idx s
  | .servoWin idx => Sys2Proof.Machine.execServoWin idx s
  | .dataWin idx skew => Sys2Proof.Machine.execDataWin idx skew s
  | .writeGate idx skew => Sys2Proof.Machine.execWriteGate idx skew s
  | .dbPoll idx => Sys2Proof.Machine.execDbPoll idx s
  | .prefetchRel idx => Sys2Proof.Machine.execPrefetchRel idx s
  | .morSeal idx => Sys2Proof.Machine.execMorSeal idx s
  | .coreIrq idx => Sys2Proof.Machine.execCoreIrq idx s
  | .latchedEvent => Sys2Proof.Machine.execLatchedEvent s
  | .strapSample a b c => Sys2Proof.Machine.execStrapSample a b c s
  | .gpioHandover => Sys2Proof.Machine.execGpioHandover s
  | .pmxCommit m => Sys2Proof.Machine.execPmxCommit m s
  | .pmxSwitchEnd => Sys2Proof.Machine.execPmxSwitchEnd s
  | .pmxPinLock m n => Sys2Proof.Machine.execPmxPinLock m n s
  | .uartTxWrite m v => Sys2Proof.Machine.execUartTxWrite m v s
  | .uartPop m => Sys2Proof.Machine.execUartPop m s
  | .uartTxCharacter => Sys2Proof.Machine.execUartTxCharacter s
  | .uartRxCharacter b stop => Sys2Proof.Machine.execUartRxCharacter b stop s
  | .finionFrame d sync hdr pay pcrc => Sys2Proof.Machine.execFinionFrame d sync hdr pay pcrc s
  | .finionLinkDown d fx t => Sys2Proof.Machine.execFinionLinkDown d fx t s
  | .finionLinkUp d => Sys2Proof.Machine.execFinionLinkUp d s
  | .servoWordReceived w => Sys2Proof.Machine.execServoWordReceived w s
  | .upstreamServoWord w => Sys2Proof.Machine.execUpstreamServoWord w s
  | .headersRead => Sys2Proof.Machine.execHeadersRead s
  | .blockLanded us => Sys2Proof.Machine.execBlockLanded us s
  | .blockHashed us => Sys2Proof.Machine.execBlockHashed us s
  | .headerSignatureDone us => Sys2Proof.Machine.execHeaderSignatureDone us s
  | .devidDerived => Sys2Proof.Machine.execDevidDerived s
  | .aliasDerived => Sys2Proof.Machine.execAliasDerived s
  | .coreRelease m v => Sys2Proof.Machine.execCoreRelease m v s
  | .svWsqRelease => Sys2Proof.Machine.execSvWsqRelease s
  | .hsqDrainEnd c facts => Sys2Proof.Machine.execHsqDrainEnd c facts s
  | .fuseProgramDone held => Sys2Proof.Machine.execFuseProgramDone held s
  | .keyLock m v => Sys2Proof.Machine.execKeyLock m v s
  | .derive m v => Sys2Proof.Machine.execDerive m v s
  | .deriveDone => Sys2Proof.Machine.execDeriveDone s
  | .keyClear m v => Sys2Proof.Machine.execKeyClear m v s
  | .sign m v => Sys2Proof.Machine.execSign m v s
  | .signDone => Sys2Proof.Machine.execSignDone s
  | .programKeyhash m v => Sys2Proof.Machine.execProgramKeyhash m v s
  | .setProduction m v => Sys2Proof.Machine.execSetProduction m v s
  | .programTargetRpm m v => Sys2Proof.Machine.execProgramTargetRpm m v s
  | .eventCapture present => Sys2Proof.Machine.execEventCapture present s
  | .fwEventSubmit m v present => Sys2Proof.Machine.execFwEventSubmit m v present s
  | .sealNow => Sys2Proof.Machine.execSealNow s
  | .phase1Start => Sys2Proof.Machine.execPhase1Start s
  | .phase1Done ok back => Sys2Proof.Machine.execPhase1Done ok back s
  | .recordSignatureReady => Sys2Proof.Machine.execRecordSignatureReady s
  | .phase2Done ok back => Sys2Proof.Machine.execPhase2Done ok back s
  | .driftEraseDone left => Sys2Proof.Machine.execDriftEraseDone left s
  | .tailSearchDone => Sys2Proof.Machine.execTailSearchDone s
  | .morReadGo m => Sys2Proof.Machine.execMorReadGo m s
  | .morReadDone m => Sys2Proof.Machine.execMorReadDone m s
  | .retreatRetractDone linkDown70ms => Sys2Proof.Machine.execRetreatRetractDone linkDown70ms s
  | .storeRead m a width cells => Sys2Proof.Machine.execStoreRead m a width cells s
  | .sequenceCycle r a width v => Sys2Proof.Machine.execSequenceCycle r a width v s
  | .sequenceTimeout r b => Sys2Proof.Machine.execSequenceTimeout r b s
  | .readArray r a => Sys2Proof.Machine.execReadArray r a s
  | .statusRead r b => Sys2Proof.Machine.execStatusRead r b s
  | .clearStatus r b => Sys2Proof.Machine.execClearStatus r b s
  | .bufferProgram r b => Sys2Proof.Machine.execBufferProgram r b s
  | .sectorErase r a => Sys2Proof.Machine.execSectorErase r a s
  | .eraseSuspend r a => Sys2Proof.Machine.execEraseSuspend r a s
  | .eraseResume r a => Sys2Proof.Machine.execEraseResume r a s
  | .marginRead r b eraseVerify => Sys2Proof.Machine.execMarginRead r b eraseVerify s
  | .infoMode r b => Sys2Proof.Machine.execInfoMode r b s
  | .pageWindowStore r a width v => Sys2Proof.Machine.execPageWindowStore r a width v s
  | .programDone b ok left => Sys2Proof.Machine.execProgramDone b ok left s
  | .eraseDone b ok left => Sys2Proof.Machine.execEraseDone b ok left s
  | .storeScanDone => Sys2Proof.Machine.execStoreScanDone s
  | .infoRowEraseDone b => Sys2Proof.Machine.execInfoRowEraseDone b s
  | .markBad v => Sys2Proof.Machine.execMarkBad v s
  | .markBadDone ok => Sys2Proof.Machine.execMarkBadDone ok s
  | .wprotWrite m v => Sys2Proof.Machine.execWprotWrite m v s
  | .bankPowerDown b transfer => Sys2Proof.Machine.execBankPowerDown b transfer s
  | .wsqCont n f => Sys2Proof.Machine.execWsqCont n f s
  | .wsqJump n f => Sys2Proof.Machine.execWsqJump n f s
  | .wsqBranch n f => Sys2Proof.Machine.execWsqBranch n f s
  | .wsqWait n f => Sys2Proof.Machine.execWsqWait n f s
  | .wsqWaitSatisfied n f => Sys2Proof.Machine.execWsqWaitSatisfied n f s
  | .wsqCall n f => Sys2Proof.Machine.execWsqCall n f s
  | .wsqRet n f => Sys2Proof.Machine.execWsqRet n f s
  | .wsqDispatch n f => Sys2Proof.Machine.execWsqDispatch n f s
  | .wsqHalt n f => Sys2Proof.Machine.execWsqHalt n f s
  | .wsqIllegal n f => Sys2Proof.Machine.execWsqIllegal n f s
  | .wsqWatchdog n f => Sys2Proof.Machine.execWsqWatchdog n f s
  | .preampFrameDone pa1 => Sys2Proof.Machine.execPreampFrameDone pa1 s
  | .wsqPaqWrite m v => Sys2Proof.Machine.execWsqPaqWrite m v s
  | .msqNop w => Sys2Proof.Machine.execMsqNop w s
  | .msqLdi w => Sys2Proof.Machine.execMsqLdi w s
  | .msqAddi w => Sys2Proof.Machine.execMsqAddi w s
  | .msqAdd w => Sys2Proof.Machine.execMsqAdd w s
  | .msqSub w => Sys2Proof.Machine.execMsqSub w s
  | .msqAndi w => Sys2Proof.Machine.execMsqAndi w s
  | .msqOri w => Sys2Proof.Machine.execMsqOri w s
  | .msqSra w => Sys2Proof.Machine.execMsqSra w s
  | .msqMulq w => Sys2Proof.Machine.execMsqMulq w s
  | .msqIn w meas => Sys2Proof.Machine.execMsqIn w meas s
  | .msqOut w => Sys2Proof.Machine.execMsqOut w s
  | .msqBr w => Sys2Proof.Machine.execMsqBr w s
  | .msqCall w => Sys2Proof.Machine.execMsqCall w s
  | .msqRet w => Sys2Proof.Machine.execMsqRet w s
  | .msqWait w => Sys2Proof.Machine.execMsqWait w s
  | .msqWaitEvent events => Sys2Proof.Machine.execMsqWaitEvent events s
  | .msqIllegal w => Sys2Proof.Machine.execMsqIllegal w s
  | .burstEnd f => Sys2Proof.Machine.execBurstEnd f s
  | .positionConversionDone f => Sys2Proof.Machine.execPositionConversionDone f s
  | .missedWedge cause => Sys2Proof.Machine.execMissedWedge cause s
  | .burstWindowExpiry n f => Sys2Proof.Machine.execBurstWindowExpiry n f s
  | .svPosEntry kept => Sys2Proof.Machine.execSvPosEntry kept s
  | .servoCommit m v cycles => Sys2Proof.Machine.execServoCommit m v cycles s
  | .cmdlost => Sys2Proof.Machine.execCmdlost s
  | .shockEvent n => Sys2Proof.Machine.execShockEvent n s
  | .preampFault n => Sys2Proof.Machine.execPreampFault n s
  | .srvModeWrite m v => Sys2Proof.Machine.execSrvModeWrite m v s
  | .traceRecord busy => Sys2Proof.Machine.execTraceRecord busy s
  | .pdResetAssert => Sys2Proof.Machine.execPdResetAssert s
  | .pdResetRelease fx => Sys2Proof.Machine.execPdResetRelease fx s
  | .notice romid => Sys2Proof.Machine.execNotice romid s
  | .speed target spilim rpm => Sys2Proof.Machine.execSpeed target spilim rpm s
  | .spderr e => Sys2Proof.Machine.execSpderr e s
  | .spderrMeasurement t64 => Sys2Proof.Machine.execSpderrMeasurement t64 s
  | .actLoad => Sys2Proof.Machine.execActLoad s
  | .actUnload => Sys2Proof.Machine.execActUnload s
  | .actPark => Sys2Proof.Machine.execActPark s
  | .actRetract fx => Sys2Proof.Machine.execActRetract fx s
  | .actHoldup => Sys2Proof.Machine.execActHoldup s
  | .psupOn => Sys2Proof.Machine.execPsupOn s
  | .preampVposOn => Sys2Proof.Machine.execPreampVposOn s
  | .psupOff => Sys2Proof.Machine.execPsupOff s
  | .cfg rdl rfloor vret holdv vcmrng => Sys2Proof.Machine.execCfg rdl rfloor vret holdv vcmrng s
  | .pwr port value => Sys2Proof.Machine.execPwr port value s
  | .prd port meas => Sys2Proof.Machine.execPrd port meas s
  | .unpatch => Sys2Proof.Machine.execUnpatch s
  | .patchData k bytes => Sys2Proof.Machine.execPatchData k bytes s
  | .patchEnd => Sys2Proof.Machine.execPatchEnd s
  | .logack entry => Sys2Proof.Machine.execLogack entry s
  | .logreq => Sys2Proof.Machine.execLogreq s
  | .idle => Sys2Proof.Machine.execIdle s
  | .status speed16 vhold temp romid => Sys2Proof.Machine.execStatus speed16 vhold temp romid s
  | .fault kind detail => Sys2Proof.Machine.execFault kind detail s
  | .pdata port value => Sys2Proof.Machine.execPdata port value s
  | .patchAck good => Sys2Proof.Machine.execPatchAck good s
  | .log entry bytes => Sys2Proof.Machine.execLog entry bytes s
  | .actuatorMoveDone => Sys2Proof.Machine.execActuatorMoveDone s
  | .servoSilence fx => Sys2Proof.Machine.execServoSilence fx s
  | .vholdLow fx => Sys2Proof.Machine.execVholdLow fx s
  | .spindleFloor fx => Sys2Proof.Machine.execSpindleFloor fx s
  | .retractDeadline fx => Sys2Proof.Machine.execRetractDeadline fx s
  | .retractRampReached => Sys2Proof.Machine.execRetractRampReached s
  | .retractLatchReached => Sys2Proof.Machine.execRetractLatchReached s
  | .retractLatchTimeout => Sys2Proof.Machine.execRetractLatchTimeout s
  | .retractEnd dur => Sys2Proof.Machine.execRetractEnd dur s
  | .spindleClosedLoop => Sys2Proof.Machine.execSpindleClosedLoop s
  | .startAttemptTimeout => Sys2Proof.Machine.execStartAttemptTimeout s
  | .spindleAtSpeed => Sys2Proof.Machine.execSpindleAtSpeed s
  | .speedError => Sys2Proof.Machine.execSpeedError s
  | .spindleStopped => Sys2Proof.Machine.execSpindleStopped s
  | .holdupBrake => Sys2Proof.Machine.execHoldupBrake s
  | .spoc fx => Sys2Proof.Machine.execSpoc fx s
  | .vcmoc => Sys2Proof.Machine.execVcmoc s
  | .maflt ch => Sys2Proof.Machine.execMaflt ch s
  | .psupf => Sys2Proof.Machine.execPsupf s
  | .twarn => Sys2Proof.Machine.execTwarn s
  | .tshut fx => Sys2Proof.Machine.execTshut fx s
  | .sync => Sys2Proof.Machine.execSync s
  | .linkDownSpinDown => Sys2Proof.Machine.execLinkDownSpinDown s
  | .mopCommit m t v => Sys2Proof.Machine.execMopCommit m t v s
  | .synthSlewDone => Sys2Proof.Machine.execSynthSlewDone s
  | .sectorStart t => Sys2Proof.Machine.execSectorStart t s
  | .sectorLastBit t samp => Sys2Proof.Machine.execSectorLastBit t samp s
  | .decodeDone t idx f => Sys2Proof.Machine.execDecodeDone t idx f s
  | .decodeDeadline t idx f => Sys2Proof.Machine.execDecodeDeadline t idx f s
  | .writeDataCheck t => Sys2Proof.Machine.execWriteDataCheck t s
  | .headContextWrite m h w v => Sys2Proof.Machine.execHeadContextWrite m h w v s
  | .popdone m => Sys2Proof.Machine.execPopdone m s
  | .popfail m => Sys2Proof.Machine.execPopfail m s
  | .redec m => Sys2Proof.Machine.execRedec m s
  | .redecDone f => Sys2Proof.Machine.execRedecDone f s
  | .release m => Sys2Proof.Machine.execRelease m s
  | .bufferInitDone => Sys2Proof.Machine.execBufferInitDone s
  | .patrolScrub found => Sys2Proof.Machine.execPatrolScrub found s
  | .zqCalibration => Sys2Proof.Machine.execZqCalibration s
  | .lookup m v => Sys2Proof.Machine.execLookup m v s
  | .lookupAlloc m v => Sys2Proof.Machine.execLookupAlloc m v s
  | .reserve m v => Sys2Proof.Machine.execReserve m v s
  | .filllock m v => Sys2Proof.Machine.execFilllock m v s
  | .aclean m v => Sys2Proof.Machine.execAclean m v s
  | .ainval m v => Sys2Proof.Machine.execAinval m v s
  | .acleaninval m v => Sys2Proof.Machine.execAcleaninval m v s
  | .adiscard m v => Sys2Proof.Machine.execAdiscard m v s
  | .firnCommit m v => Sys2Proof.Machine.execFirnCommit m v s
  | .fill m v => Sys2Proof.Machine.execFill m v s
  | .firnAbort m v => Sys2Proof.Machine.execFirnAbort m v s
  | .unpin m v => Sys2Proof.Machine.execUnpin m v s
  | .clean m v => Sys2Proof.Machine.execClean m v s
  | .inval m v => Sys2Proof.Machine.execInval m v s
  | .cleaninval m v => Sys2Proof.Machine.execCleaninval m v s
  | .discard m v => Sys2Proof.Machine.execDiscard m v s
  | .rangeClean m v => Sys2Proof.Machine.execRangeClean m v s
  | .rangeInval m v => Sys2Proof.Machine.execRangeInval m v s
  | .rangeCleaninval m v => Sys2Proof.Machine.execRangeCleaninval m v s
  | .rangeDiscard m v => Sys2Proof.Machine.execRangeDiscard m v s
  | .rangeResume => Sys2Proof.Machine.execRangeResume s
  | .rangePassEnd => Sys2Proof.Machine.execRangePassEnd s
  | .clqpop => Sys2Proof.Machine.execClqpop s
  | .wbdone v => Sys2Proof.Machine.execWbdone v s
  | .metaLookup m => Sys2Proof.Machine.execMetaLookup m s
  | .metaAlloc m => Sys2Proof.Machine.execMetaAlloc m s
  | .metaDirty m k => Sys2Proof.Machine.execMetaDirty m k s
  | .metaClean m k => Sys2Proof.Machine.execMetaClean m k s
  | .metaInval m k => Sys2Proof.Machine.execMetaInval m k s
  | .metaLock m k => Sys2Proof.Machine.execMetaLock m k s
  | .metaUnlock m k => Sys2Proof.Machine.execMetaUnlock m k s
  | .corniceAlloc m v => Sys2Proof.Machine.execCorniceAlloc m v s
  | .corniceRelease m v => Sys2Proof.Machine.execCorniceRelease m v s
  | .corniceStatus m v => Sys2Proof.Machine.execCorniceStatus m v s
  | .corniceScrubDone j => Sys2Proof.Machine.execCorniceScrubDone j s
  | .partitionWrite m cmask p v => Sys2Proof.Machine.execPartitionWrite m cmask p v s
  | .partitionLock m => Sys2Proof.Machine.execPartitionLock m s
  | .defectLookup m errs => Sys2Proof.Machine.execDefectLookup m errs s
  | .windowLookup m v errs => Sys2Proof.Machine.execWindowLookup m v errs s
  | .rmeCommit m v => Sys2Proof.Machine.execRmeCommit m v s
  | .revokeHoldEnd => Sys2Proof.Machine.execRevokeHoldEnd s
  | .shadowRead m v => Sys2Proof.Machine.execShadowRead m v s
  | .wlock m => Sys2Proof.Machine.execWlock m s
  | .dready m => Sys2Proof.Machine.execDready m s
  | .rmePatrol found => Sys2Proof.Machine.execRmePatrol found s
  | .chstart m c v => Sys2Proof.Machine.execChstart m c v s
  | .descriptorFetched c ue => Sys2Proof.Machine.execDescriptorFetched c ue s
  | .descriptorEnd c => Sys2Proof.Machine.execDescriptorEnd c s
  | .channelAbort m c => Sys2Proof.Machine.execChannelAbort m c s
  | .chcfgWrite m c v => Sys2Proof.Machine.execChcfgWrite m c v s
  | .cfglock m => Sys2Proof.Machine.execCfglock m s
  | .mdbaseWrite m v => Sys2Proof.Machine.execMdbaseWrite m v s
  | .katDone ok => Sys2Proof.Machine.execKatDone ok s
  | .portUp q => Sys2Proof.Machine.execPortUp q s
  | .portDown q cause => Sys2Proof.Machine.execPortDown q cause s
  | .dbpPortWrite q p v => Sys2Proof.Machine.execDbpPortWrite q p v s
  | .ringSetupWrite q cq r w v => Sys2Proof.Machine.execRingSetupWrite q cq r w v s
  | .sqEnable q r => Sys2Proof.Machine.execSqEnable q r s
  | .cqEnable q r aggtime => Sys2Proof.Machine.execCqEnable q r aggtime s
  | .sqDisable q r => Sys2Proof.Machine.execSqDisable q r s
  | .sqDrained r => Sys2Proof.Machine.execSqDrained r s
  | .cqDisable q r => Sys2Proof.Machine.execCqDisable q r s
  | .resume q cq r => Sys2Proof.Machine.execResume q cq r s
  | .ringReset q r => Sys2Proof.Machine.execRingReset q r s
  | .hostWindowLock q en => Sys2Proof.Machine.execHostWindowLock q en s
  | .wake q p => Sys2Proof.Machine.execWake q p s
  | .doorbellReadDone p e data => Sys2Proof.Machine.execDoorbellReadDone p e data s
  | .entryBurstDone r e data errs => Sys2Proof.Machine.execEntryBurstDone r e data errs s
  | .listPageReadDone idx a e data => Sys2Proof.Machine.execListPageReadDone idx a e data s
  | .completionWritten idx => Sys2Proof.Machine.execCompletionWritten idx s
  | .msixAggregationTimeout r => Sys2Proof.Machine.execMsixAggregationTimeout r s
  | .msixUnmask q v => Sys2Proof.Machine.execMsixUnmask q v s
  | .uqiCpost m v => Sys2Proof.Machine.execUqiCpost m v s
  | .uqiXcmd m v => Sys2Proof.Machine.execUqiXcmd m v s
  | .uqiXpop m v => Sys2Proof.Machine.execUqiXpop m v s
  | .uqiDqpop m v => Sys2Proof.Machine.execUqiDqpop m v s
  | .rpartyWrite m r v => Sys2Proof.Machine.execRpartyWrite m r v s
  | .pcfgWrite m p v => Sys2Proof.Machine.execPcfgWrite m p v s
  | .flush idx giveUp => Sys2Proof.Machine.execFlush idx giveUp s
  | .write idx giveUp errs => Sys2Proof.Machine.execWrite idx giveUp errs s
  | .read idx errs => Sys2Proof.Machine.execRead idx errs s
  | .writeZeroes idx giveUp errs => Sys2Proof.Machine.execWriteZeroes idx giveUp errs s
  | .deallocate idx errs => Sys2Proof.Machine.execDeallocate idx errs s
  | .abort idx => Sys2Proof.Machine.execAbort idx s
  | .identify idx buf => Sys2Proof.Machine.execIdentify idx buf s
  | .residueRead idx buf => Sys2Proof.Machine.execResidueRead idx buf s
  | .ordRequest m v errs => Sys2Proof.Machine.execOrdRequest m v errs s
  | .ordSelectTarget => Sys2Proof.Machine.execOrdSelectTarget s
  | .ordAck m v => Sys2Proof.Machine.execOrdAck m v s
  | .ordClqTake errs => Sys2Proof.Machine.execOrdClqTake errs s
  | .ordUrgent => Sys2Proof.Machine.execOrdUrgent s
  | .ordRespop m => Sys2Proof.Machine.execOrdRespop m s
  | .ordShareWrite m p v => Sys2Proof.Machine.execOrdShareWrite m p v s
  | .isoLock m => Sys2Proof.Machine.execIsoLock m s
  | .entdaa mctp addr => Sys2Proof.Machine.execEntdaa mctp addr s
  | .setdasa static addr => Sys2Proof.Machine.execSetdasa static addr s
  | .setnewda addr to_ => Sys2Proof.Machine.execSetnewda addr to_ s
  | .rstdaa => Sys2Proof.Machine.execRstdaa s
  | .enec addr events => Sys2Proof.Machine.execEnec addr events s
  | .disec addr events => Sys2Proof.Machine.execDisec addr events s
  | .getpid addr => Sys2Proof.Machine.execGetpid addr s
  | .getbcr addr => Sys2Proof.Machine.execGetbcr addr s
  | .getdcr addr => Sys2Proof.Machine.execGetdcr addr s
  | .getstatus addr => Sys2Proof.Machine.execGetstatus addr s
  | .setmwl addr len => Sys2Proof.Machine.execSetmwl addr len s
  | .getmwl addr => Sys2Proof.Machine.execGetmwl addr s
  | .setmrl addr len => Sys2Proof.Machine.execSetmrl addr len s
  | .getmrl addr => Sys2Proof.Machine.execGetmrl addr s
  | .taskPrivateWrite bytes => Sys2Proof.Machine.execTaskPrivateWrite bytes s
  | .taskPrivateRead words => Sys2Proof.Machine.execTaskPrivateRead words s
  | .doneClear v => Sys2Proof.Machine.execDoneClear v s
  | .mgtTake m v => Sys2Proof.Machine.execMgtTake m v s
  | .mgtDone m v => Sys2Proof.Machine.execMgtDone m v s
  | .ident => Sys2Proof.Machine.execIdent s
  | .partCfg => Sys2Proof.Machine.execPartCfg s
  | .partWin => Sys2Proof.Machine.execPartWin s
  | .partKey => Sys2Proof.Machine.execPartKey s
  | .partLock => Sys2Proof.Machine.execPartLock s
  | .partErase => Sys2Proof.Machine.execPartErase s
  | .partQuery => Sys2Proof.Machine.execPartQuery s
  | .stShort t => Sys2Proof.Machine.execStShort t s
  | .stExt t => Sys2Proof.Machine.execStExt t s
  | .stAbort progress sectors => Sys2Proof.Machine.execStAbort progress sectors s
  | .stResult progress sectors unrec secs => Sys2Proof.Machine.execStResult progress sectors unrec secs s
  | .selfTestEnd elem sectors secs unrec failing => Sys2Proof.Machine.execSelfTestEnd elem sectors secs unrec failing s
  | .fwBegin bad => Sys2Proof.Machine.execFwBegin bad s
  | .fwData pfail => Sys2Proof.Machine.execFwData pfail s
  | .fwVerify => Sys2Proof.Machine.execFwVerify s
  | .fwActivate us => Sys2Proof.Machine.execFwActivate us s
  | .morInfo => Sys2Proof.Machine.execMorInfo s
  | .morRead => Sys2Proof.Machine.execMorRead s
  | .badOpcode => Sys2Proof.Machine.execBadOpcode s
  | .mctpPacket bytes => Sys2Proof.Machine.execMctpPacket bytes s
  | .mrxPop m v => Sys2Proof.Machine.execMrxPop m v s
  | .mtxSend m v => Sys2Proof.Machine.execMtxSend m v s
  | .setEndpointId => Sys2Proof.Machine.execSetEndpointId s
  | .getEndpointId => Sys2Proof.Machine.execGetEndpointId s
  | .getEndpointUuid => Sys2Proof.Machine.execGetEndpointUuid s
  | .getMctpVersionSupport => Sys2Proof.Machine.execGetMctpVersionSupport s
  | .getMessageTypeSupport => Sys2Proof.Machine.execGetMessageTypeSupport s
  | .getVersion => Sys2Proof.Machine.execGetVersion s
  | .getCapabilities => Sys2Proof.Machine.execGetCapabilities s
  | .negotiateAlgorithms => Sys2Proof.Machine.execNegotiateAlgorithms s
  | .getDigests root devid => Sys2Proof.Machine.execGetDigests root devid s
  | .getCertificate root devid => Sys2Proof.Machine.execGetCertificate root devid s
  | .challenge root devid => Sys2Proof.Machine.execChallenge root devid s
  | .getMeasurements => Sys2Proof.Machine.execGetMeasurements s
  | .spdmUnsupportedRequest => Sys2Proof.Machine.execSpdmUnsupportedRequest s
  | .aliasCertReady => Sys2Proof.Machine.execAliasCertReady s
  | .lockwinRunComplete ticks => Sys2Proof.Machine.execLockwinRunComplete ticks s
  | .uartRxStartBit => Sys2Proof.Machine.execUartRxStartBit s
  | .secLeavesReset => Sys2Proof.Machine.execSecLeavesReset s
  | .hostReadCompletion c n e data => Sys2Proof.Machine.execHostReadCompletion c n e data s
  | .completionTimeout c n => Sys2Proof.Machine.execCompletionTimeout c n s
  | .configurationRequest q r => Sys2Proof.Machine.execConfigurationRequest q r s
  | .sectorWritten t => Sys2Proof.Machine.execSectorWritten t s
  | .vmotReturn => Sys2Proof.Machine.execVmotReturn s
  | .vin5Return => Sys2Proof.Machine.execVin5Return s
  | .reinsertion => Sys2Proof.Machine.execReinsertion s

end Sys2Proof.Machine
end

