-- ==== Sys2Proof/Safety.lean ====
section
/-! DEFINITION. What a safe run is, in the terms the statements use: the register file, the memories and the scheduler's
table stay in their canonical form, so that a read after a write finds what was written. -/

namespace Sys2Proof.Machine

open Sys2Proof

/-- The register file is in canonical form. -/
def State.regsWf (s : State) : Bool := Sparse.wf resetWord s.regs

/-- The byte memories are in canonical form: the SRAM, the Store die array and the Buffer die. -/
def State.memWf (s : State) : Bool :=
  Sparse.wf zeroed s.sram && Sparse.wf erased s.store && Sparse.wf zeroed s.buf

/-- The scheduler's table is in canonical form. -/
def State.ascWf (s : State) : Bool := Sparse.wf (fun _ => ({} : AscEntry)) s.asc

/-- The Store die's table of banks is in canonical form. -/
def State.banksWf (s : State) : Bool := Sparse.wf (fun _ => ({} : Bank)) s.sto.banks

/-- The table of DMA channels is in canonical form. -/
def State.dmaWf (s : State) : Bool := Sparse.wf (fun _ => ({} : Chan)) s.dma

/-- The frame of a holder: the 4,096 Firn tags, then the 16 Serac entries, then the 32 Cornice slots (R290). -/
def State.holderFrame (s : State) (n : Nat) : Nat :=
  if n < 4096 then (s.tag n).frame else if n < 4112 then (s.seracEnt (n - 4096)).frame else (s.slot (n - 4112)).frame

/-- No two holders have one frame (R290), with the holders' tables in canonical form and the order of Serac naming its
own entries. -/
def State.FramesApart (s : State) : Prop :=
  Sparse.wf tag0 s.firn.tags = true ∧ Sparse.wf serac0 s.firn.serac = true ∧ Sparse.wf slot0 s.firn.corn = true ∧
  (∀ k ∈ s.firn.seracOrder, k < 16) ∧ ∀ a b, a < b → b < 4144 → s.holderFrame a ≠ s.holderFrame b

/-- What every step keeps. -/
def State.Canonical (s : State) : Prop := s.regsWf = true ∧ s.memWf = true

/-- The pending management command has this opcode and a server, which takes it and finds neither the opcode nor an
argument to refuse (R431, R433); `u` is the state once it is taken. -/
def State.Takes (s u : State) (op : Nat) : Prop :=
  mgtTurn s op = true ∧ u = s.clr F.MGT_STAT_CMDPEND ∧ opRefused u op = false ∧ argsBad u op = false

/-- The command taken completes with a RESULT, RES words and output bytes (R430). -/
def State.ends (s : State) (result : Nat) (res : List Nat := []) (out : Option (List Byte) := none) : State :=
  State.finishServed { result, res, out, s }

/-- An MCTP control request with this command code waits for firmware (R444), with its instance number and data. -/
abbrev State.Asks (s : State) (code inst : Nat) (d : List Byte) : Prop :=
  mctpWaits s = true ∧ 3 ≤ (mrxBytes s).length ∧ byteAt (mrxBytes s) 0 % 128 = 0 ∧ (byteAt (mrxBytes s) 1).testBit 7 = true ∧
    (byteAt (mrxBytes s) 1).testBit 6 = false ∧ byteAt (mrxBytes s) 2 = code ∧ inst = byteAt (mrxBytes s) 1 % 32 ∧
    d = (mrxBytes s).drop 3

/-- An SPDM request with this code and version waits, of at least this length, at this phase of the connection (R445). -/
abbrev State.SpdmAsks (s : State) (code version least phase : Nat) (r : List Byte) : Prop :=
  spdmRequest s = some r ∧ byteAt r 1 = code ∧ byteAt r 0 = version ∧ least ≤ r.length ∧ s.mgt.spdm.phase = phase

/-- A core that runs issues an access of a legal width, naturally aligned, that its locked PMP entries pass (R472, R120). -/
abbrev State.Issues (s : State) (m : Master) (kind : AccKind) (a : Word) (width : Nat) : Prop :=
  coreRuns s m = true ∧ (width = 1 ∨ width = 2 ∨ width = 4) ∧ coreMisaligned kind a.toNat width = false ∧
    pmpDenies s m kind a.toNat = false

end Sys2Proof.Machine
end

