-- ==== Sys2Proof/Certificates/Slice0/Obligations.lean ====
section
/-! DEFINITION. The statements for the provers. -/

open Sys2Proof Sys2Proof.Machine

/-- Every command of the angle timebase answers a next state under the conditions Table 2.4 gives it: the state that the
row names, with its bits, counters and record, after the clock-track cycles that come with the command have moved the
counts of R500 (`atbSeen`), and with any transition whose count then stands at its limit (`atbSettle`, R33). A write of
ATB_CTL is a store of a core that does not run gated. That EN = 0 leaves LOCKED by the steps of R46, and that a second
transition follows in the same cycle, are the model's reading. (02_angle_timebase.md) -/
def Obligations.AngleTimebaseCommandsComplete : Prop :=
  (∀ (m : Master) (v : Word) (s u : State), gated s m = false → u = (((s.put F.ATB_CTL_EN (bitsOf v 0 0)).put F.ATB_CTL_HOLD_REVS
      (bitsOf v 7 4)).put F.ATB_CTL_ACQ_REVS (Nat.max (bitsOf v 11 8) 1)).put F.ATB_CTL_COAST_RPM (coastRpm (bitsOf v 29 16)) →
    (bitsOf v 0 0 = 1 → exec (.atbCtlWrite m v) s = .next u.atbSettle) ∧
    (bitsOf v 0 0 = 0 → exec (.atbCtlWrite m v) s = .next u.atbCoast)) ∧
  (∀ s u : State, trackFlown s = true → u = (s.onAtb fun (a : AtbState) => { a with qual := 256, low := 0 }).raiseBit F.ATB_STAT_SIGOK →
    u.on F.ATB_CTL_EN = true → atbIs u aCOAST = true ∨ atbIs u aHOLDOVER = true →
    exec .signalQualified s = .next u.atbAcquire.atbJudge) ∧
  (∀ (run : BitVec 8) (c : BitVec 64) (ticks gap : BitVec 32) (speed : BitVec 18) (track : Track) (s u : State),
    28 ≤ run.toNat → run.toNat ≤ 32 → u = s.atbSeen track.amp track.cycles → trackFlown u = true →
    (atbIs u aLOCKED = true → indexPlaced c = true → speedInSpan speed.toNat = true →
      exec (.indexMark run c ticks gap speed track) s = .next ((u.onAtb fun (a : AtbState) =>
        { a with missed := 0, edge := c, cyc := run.toNat }).put F.SPEED_SPEED speed.toNat).atbSettle) ∧
    (atbIs u aLOCKED = true → indexPlaced c = false →
      exec (.indexMark run c ticks gap speed track) s = .next (u.atbLoss 4).atbSettle) ∧
    (atbIs u aACQUIRE = true → u.on F.ATB_STAT_HOLD = false → ∀ w : State, w = (u.onAtb fun (a : AtbState) =>
        { a with marks := if a.marks ≠ 0 ∧ gap.toNat = 1048576 then a.marks + 1 else 1, located := true, cyc := run.toNat,
                 edge := c, inSpan := speedInSpan speed.toNat }) →
      (lockConfirmed w = true → exec (.indexMark run c ticks gap speed track) s = .next (w.align c ticks.toNat).atbSettle) ∧
      (lockConfirmed w = false → exec (.indexMark run c ticks gap speed track) s = .next w.atbSettle))) ∧
  (∀ (ticks : BitVec 32) (s u : State), atbIs s aACQUIRE = true → trackFlown s = true →
    u = (s.onAtb fun (a : AtbState) => { a with inside := 1024, beyond := 0 }) →
    (lockConfirmed u = true → exec (.lockwinRunComplete ticks) s = .next (u.align s.atb.edge ticks.toNat)) ∧
    (lockConfirmed u = false → exec (.lockwinRunComplete ticks) s = .next u)) ∧
  (∀ (c : BitVec 64) (ticks : Nat) (s : State),
    (2 ^ 28 < c.toNat % rev → s.align c ticks = s.forwardStep c ticks) ∧
    (c.toNat % rev ≤ 2 ^ 28 → c.toNat / rev * rev + ticks < angleNow s → s.align c ticks = s.raiseBit F.ATB_STAT_HOLD)) ∧
  (∀ s : State, atbIs s aACQUIRE = true → s.on F.ATB_STAT_HOLD = true → exec .atbHoldEnd s = .next s.atbLocked) ∧
  (∀ (amp : BitVec 8) (l : List TrackRun) (s u : State), u = s.atbSeen amp l →
    (atbIs u aACQUIRE = true → revsPassed u (u.get F.ATB_CTL_ACQ_REVS) = true →
      exec (.acquireTimeout amp l) s = .next (u.atbFail 2).atbSettle) ∧
    (atbIs u aACQUIRE = true → u.atb.low = 16 → exec (.acquireSignalLost amp l) s = .next (u.atbFail 1).atbJudge) ∧
    (atbIs u aLOCKED = true → u.atb.low = 16 → exec (.lockLoss 1 amp l) s = .next (u.atbLoss 1).atbJudge) ∧
    (atbIs u aLOCKED = true → u.atb.beyond = 16 → exec (.lockLoss 2 amp l) s = .next (u.atbLoss 2).atbSettle) ∧
    (atbIs u aLOCKED = true → u.atb.missed = 0 → exec (.indexMissed amp l) s =
      .next (((u.raiseBit F.ATB_STAT_IDXMISS).inc F.COUNTS_IDXMISS_CNT).onAtb fun (a : AtbState) => { a with missed := 1 }).atbSettle) ∧
    (atbIs u aLOCKED = true → u.atb.missed ≠ 0 → exec (.indexMissed amp l) s = .next (u.atbLoss 3).atbSettle)) ∧
  (∀ s : State, atbIs s aHOLDOVER = true → revsPassed s (s.get F.ATB_CTL_HOLD_REVS) = true →
    exec .holdoverExpiry s = .next s.atbCoast.atbSettle)

/-- A scheduler command is a register write of a core that does not run gated. An accepted ARM stores the staged words in the
entry with its next passage, or with the revolution-qualified target, as the target, and a late entry issues at once (R42);
a refused one changes only ASC_RES, which names the first failure of R45. CANCEL ends an armed entry and answers for the
others (R44); READ copies the entry to the staging registers (R49); FLUSH cancels every armed entry that the orderer does
not own and leaves the others (R44). (02_angle_timebase.md) -/
def Obligations.SchedulerCommandsComplete : Prop :=
  (∀ (m : Master) (v : Word) (s : State) (i : Nat) (e : AscEntry), gated s m = false → i = bitsOf v 7 0 → e = staged s m →
    armCheck s i e = arOK →
    (e.revq = false → exec (.ascArm m v) s = .next ((s.setEntry i { e with st := .armed, due := passage e.tgt.toNat (angleNow s + twoCycles) }).ascRes
      m i arOK (decide (angleNow s / rev < passage e.tgt.toNat (angleNow s + twoCycles) / rev)) false)) ∧
    (e.revq = true → ascIsLate s e = false → exec (.ascArm m v) s = .next ((s.setEntry i
      { e with st := .armed, due := angleNow s + (2 ^ 48 - ticksPast s e) % 2 ^ 48 }).ascRes m i arOK false false)) ∧
    (e.revq = true → ascIsLate s e = true → exec (.ascArm m v) s = .next ((s.ascLate i
      { e with st := .armed, due := (angleNow s + 2 ^ 64 - ticksPast s e) % 2 ^ 64 }).ascRes m i arOK false (classIssues s e.cls)))) ∧
  (∀ (m : Master) (v : Word) (s : State), gated s m = false → armCheck s (bitsOf v 7 0) (staged s m) ≠ arOK →
    exec (.ascArm m v) s = .next (s.ascRes m (bitsOf v 7 0) (armCheck s (bitsOf v 7 0) (staged s m)) false false)) ∧
  (∀ (m : Master) (v : Word) (s : State) (i : Nat), gated s m = false → i = bitsOf v 7 0 →
    (ascOwned s i = true → exec (.ascCancel m v) s = .next (s.ascRes m i arOWNED false false)) ∧
    (ascOwned s i = false →
      ((s.entry i).st = .armed →
        exec (.ascCancel m v) s = .next ((s.setEntry i { s.entry i with st := .cancelled }).ascRes m i arOK false false)) ∧
      ((s.entry i).st = .dispatched ∨ (s.entry i).st = .issued →
        exec (.ascCancel m v) s = .next (s.ascRes m i arISSUED false false)) ∧
      ((s.entry i).st = .free ∨ (s.entry i).st = .suppressed ∨ (s.entry i).st = .cancelled →
        exec (.ascCancel m v) s = .next (s.ascRes m i arOK false false)))) ∧
  (∀ (m : Master) (v : Word) (s : State), gated s m = false →
    exec (.ascRead m v) s = .next ((((s.wr (R.STG_TGT m) (s.entry (bitsOf v 7 0)).tgt).wr (R.STG_CFG m)
      (s.entry (bitsOf v 7 0)).cfg).wr (R.STG_ARG m) (s.entry (bitsOf v 7 0)).arg).ascRes m (bitsOf v 7 0) arOK false false)) ∧
  (∀ (m : Master) (s : State), gated s m = false → s.regsWf = true → s.ascWf = true → ∃ t : State, exec (.ascFlush m) s = .next t ∧
    (∀ i, i < 256 → (s.entry i).st = .armed → ascOwned s i = false → (t.entry i).st = .cancelled) ∧
    (∀ i, (s.entry i).st ≠ .armed ∨ ascOwned s i = true → t.entry i = s.entry i))

/-- An armed entry is dispatched two ATBCK cycles before its target (R37). When the target of a dispatched entry has come and
no other entry of its domain goes before it (R38), then in a state and mode of its row of Table 2.5 the entry ends, or
re-arms where it is periodic (R43), and its event takes the effect of its class, or is latched for a gated domain and takes
it when the domain's clock runs again (R501); in any other state or mode the occurrence is suppressed (R40).
(02_angle_timebase.md) -/
def Obligations.SchedulerEventsIssue : Prop :=
  (∀ (i : BitVec 8) (s : State), (s.entry i.toNat).st = .armed → (s.entry i.toNat).due ≤ angleNow s + twoCycles →
    exec (.ascDispatch i) s = .next (s.setEntry i.toNat { s.entry i.toNat with st := .dispatched })) ∧
  (∀ (i : BitVec 8) (skew : BitVec 32) (s u : State) (e : AscEntry), s.entry i.toNat = e → e.st = .dispatched →
    e.due ≤ angleNow s → (s.asc.any fun p => goesBefore (domainPeriod s e.dom) i.toNat e p.1 p.2 (angleNow s)) = false →
    u = s.setEntry i.toNat (if e.period = 0 then { e with st := .issued } else rearmed s e) →
    (classIssues s e.cls = true → ascWaits u e.cls e.argv = false →
      (e.cls = clsSERVO → exec (.servoWin i) s = .next (u.wsqServoWin e.argv e.due)) ∧
      (e.cls = clsREAD → exec (.dataWin i skew) s = .next (u.chnEvent false e.argv e.due skew.toInt).chSettle) ∧
      (e.cls = clsWRITE → exec (.writeGate i skew) s = .next (u.chnEvent true e.argv e.due skew.toInt).chSettle) ∧
      (e.cls = clsPOLL → exec (.dbPoll i) s =
        .next (State.each (fun p x => if e.argv.testBit p then x.dbRequest p else x) (List.range 16) u).uqiRun) ∧
      (e.cls = clsREL → exec (.prefetchRel i) s = .next (u.prefetchRel e.argv)) ∧
      (e.cls = clsSEAL → exec (.morSeal i) s = .next (u.sealBatch 1)) ∧
      (e.cls = clsIRQ → exec (.coreIrq i) s = .next (u.ascIrq e.argv))) ∧
    (classIssues s e.cls = true → ascWaits u e.cls e.argv = true → ∀ t : State,
      t = { u with latched := u.latched ++ [({ cls := e.cls, arg := e.argv, due := e.due } : Latched)] } →
      (e.cls = clsSERVO → exec (.servoWin i) s = .next t) ∧ (e.cls = clsPOLL → exec (.dbPoll i) s = .next t) ∧
      (e.cls = clsREL → exec (.prefetchRel i) s = .next t) ∧ (e.cls = clsSEAL → exec (.morSeal i) s = .next t) ∧
      (e.cls = clsIRQ → exec (.coreIrq i) s = .next t)) ∧
    (classIssues s e.cls = false →
      (e.cls = clsSERVO → exec (.servoWin i) s = .next (s.ascSuppress i.toNat e).chSettle) ∧
      (e.cls = clsREAD → exec (.dataWin i skew) s = .next (s.ascSuppress i.toNat e).chSettle) ∧
      (e.cls = clsWRITE → exec (.writeGate i skew) s = .next (s.ascSuppress i.toNat e).chSettle) ∧
      (e.cls = clsPOLL → exec (.dbPoll i) s = .next (s.ascSuppress i.toNat e).chSettle))) ∧
  (∀ (s : State) (l : Latched) (pre rest : List Latched), s.latched = pre ++ l :: rest →
    (∀ x ∈ pre, ascWaits s x.cls x.arg = true) → ascWaits s l.cls l.arg = false →
    exec .latchedEvent s = .next ({ s with latched := s.latched.erase l }.ascEffect l.cls l.arg l.due 0))

/-- The straps take the majority of three samples and the balls come under PMX control with GPIO_OE = 0 (R67). A COMMIT by a
core that does not run gated is refused for busy signals or for duplicates, changes nothing, or applies the staged values
and starts the switch sequence, which ends at its cycle 6 (R71, R74, Table 3.11); a lock holds (R77). The UART moves a byte
between its FIFOs and its ball, and sets OVR or FRERR (R78); that a character with a bad stop bit is not queued is the
model's choice (DESIGN CHOICE, log entry 101). (03_package_dies_pins.md) -/
def Obligations.PinAndUartCommandsComplete : Prop :=
  (∀ (a b c : BitVec 4) (s : State), s.pmx.strapped = false → s.mode ≠ mOFF → ∃ t : State,
    exec (.strapSample a b c) s = .next t ∧ t.pmx = { s.pmx with strapped := true } ∧
    (s.regsWf = true → t.rd R.PMX_STRAP = ((a &&& b) ||| (a &&& c) ||| (b &&& c)).setWidth 32)) ∧
  (∀ s : State, s.pmx.strapped = true → s.pmx.handed = false →
    exec .gpioHandover s = .next (({ s with pmx := { s.pmx with handed := true } } : State).put F.GPIO_OE_OE 0)) ∧
  (∀ (m : Master) (s u w : State) (diff busy dup : List Nat), gated s m = false → s.on F.PMX_STAT_BUSY = false →
    u = s.clr F.PMX_REFUSE_PINS → w = u.pmxHold.pmxApply → diff = balls.filter (fun n => pinSel u n != pinAct u n) →
    busy = diff.filter (fun n => sigBusy u (signalOf n (pinAct u n)) && !u.on (F.PMX_PIN_FORCE n)) →
    dup = balls.filter (fun n => dupBall u n) →
    (busy ≠ [] → exec (.pmxCommit m) s = .next ((u.put F.PMX_REFUSE_PINS (ballMask busy)).put F.PMX_STAT_RESULT 2)) ∧
    (busy = [] → dup ≠ [] → exec (.pmxCommit m) s = .next ((u.put F.PMX_REFUSE_PINS (ballMask dup)).put F.PMX_STAT_RESULT 3)) ∧
    (busy = [] → dup = [] → diff = [] → exec (.pmxCommit m) s = .next (w.put F.PMX_STAT_RESULT 1)) ∧
    (busy = [] → dup = [] → diff ≠ [] → exec (.pmxCommit m) s = .next ((((State.each (fun n x => x.pmxCut n) diff w).put
      F.PMX_STAT_RESULT 0).put F.PMX_STAT_BUSY 1).onPmx fun p => { p with switching := diff.map fun n => (n, pinSel w n) }))) ∧
  (∀ s u : State, u = s.onPmx (fun p => { p with rejoin := p.rejoin.filter fun n => ballStopped s n }) →
    (u.on F.PMX_STAT_BUSY = true → exec .pmxSwitchEnd s = .next ((((State.each (fun (x : Nat × Nat) w => w.put (F.PMX_PIN_ACT x.1) x.2)
      s.pmx.switching u).onPmx fun p => { p with switching := [] }).put F.PMX_STAT_BUSY 0).pmxStops.uartKick)) ∧
    (u.on F.PMX_STAT_BUSY = false → exec .pmxSwitchEnd s = .next u.uartKick)) ∧
  (∀ (m : Master) (n : BitVec 5) (s : State), gated s m = false → n.toNat < 24 →
    exec (.pmxPinLock m n) s = .next (s.put (F.PMX_PIN_LOCK n.toNat) 1)) ∧
  (∀ (m : Master) (v : Word) (s : State), gated s m = false →
    (s.pmx.tx.length < 16 → exec (.uartTxWrite m v) s =
      .next (s.onPmx fun p => { p with tx := p.tx ++ [BitVec.ofNat 8 v.toNat] }).uartKick) ∧
    (16 ≤ s.pmx.tx.length → exec (.uartTxWrite m v) s = .next s)) ∧
  (∀ (m : Master) (s : State), gated s m = false →
    exec (.uartPop m) s = .next (s.onPmx fun p => { p with rx := p.rx.drop 1 }).uartStat) ∧
  (∀ (b : Byte) (s : State), s.pmx.shifting = some b → ∃ t : State, exec .uartTxCharacter s = .next t ∧
    t.out = s.out ++ (if connected s .uartTx then [.uart b] else []) ∧ (s.pmx.tx = [] → t.pmx.shifting = none)) ∧
  (∀ s : State, s.on F.UART_CTL_EN = true → connected s .uartRx = true →
    exec .uartRxStartBit s = .next (s.put F.UART_STAT_RXBUSY 1)) ∧
  (∀ (b : Byte) (s u : State), s.on F.UART_STAT_RXBUSY = true → u = s.put F.UART_STAT_RXBUSY 0 →
    (s.pmx.rx.length < 16 → exec (.uartRxCharacter b true) s = .next (u.onPmx fun p => { p with rx := p.rx ++ [b] }).uartStat) ∧
    (16 ≤ s.pmx.rx.length → exec (.uartRxCharacter b true) s = .next (u.put F.UART_STAT_OVR 1)) ∧
    exec (.uartRxCharacter b false) s = .next (u.put F.UART_STAT_FRERR 1))

/-- A COMMIT by any core that does not run gated, while BUSY = 1, answers a next state in which IGN reads 1 and in which everything else, the switch
sequence and every other register with it, is what it was: nothing is queued. (R72) -/
def Obligations.CommitWhileBusyIsIgnored : Prop :=
  ∀ (m : Master) (s : State), gated s m = false → s.regsWf = true → s.on F.PMX_STAT_BUSY = true → ∃ t : State,
    exec (.pmxCommit m) s = .next t ∧ t.on F.PMX_STAT_IGN = true ∧ t.on F.PMX_STAT_BUSY = true ∧ { t with regs := s.regs } = s ∧
    (∀ k, k ≠ R.PMX_STAT → t.rd k = s.rd k) ∧
    (∀ hi lo, hi < 32 → lo ≤ hi → F.PMX_STAT_IGN.lo < lo ∨ hi < F.PMX_STAT_IGN.lo → bitsOf (t.rd R.PMX_STAT) hi lo =
      bitsOf (s.rd R.PMX_STAT) hi lo)

/-- The rising edge of PWR_RSTN with VAON in range enters THAW from OFF, from a state in which nothing volatile is left, and
counts as a level elsewhere; out of range it has no effect (R99, R502, R506). A trigger of Table 4.7 sets its PCM_CAUSE bit
and, outside RETREAT, enters RETREAT (R98); the loss of a supply of the Power die reaches the Logic die over the link only.
The conditions that end RETREAT bring THAW (Table 4.6). A rail collapse leaves OFF and only what has its own supply or is not
volatile (R502); that drive firmware's records of erased and moved blocks count among these is the model's choice (DESIGN
CHOICE, log entry 124). (04_power_clocks_modes.md) -/
def Obligations.SupplyCommandsComplete : Prop :=
  (∀ s : State, exec (.pwrRstnRise false) s = .next s ∧
    (s.mode = mOFF → exec (.pwrRstnRise true) s =
      .next (((railCollapse [] s).onPcm fun c => { c with rstn := true }).thawEntry 0 0)) ∧
    (s.mode ≠ mOFF → exec (.pwrRstnRise true) s = .next { s with pcm := { s.pcm with rstn := true } })) ∧
  (∀ (t : Trans) (s : State), s.regsWf = true → s.mode ≠ mOFF → s.mode ≠ mRETREAT →
    exec (.pwrRstnFall t) s =
      .next ((({ s with pcm := { s.pcm with rstn := false } } : State).setIn F.PCM_CAUSE_CAUSE 4).retreatEnter 6 t) ∧
    exec (.bayWithdrawal t) s =
      .next ((({ s with pcm := { s.pcm with bay := true } } : State).setIn F.PCM_CAUSE_CAUSE 3).retreatEnter 5 t) ∧
    (s.link.logic.up = true → exec (.vmotLoss t) s =
      .next ((({ s with pd := holdupEntry { s.pd with vmotl := true } } : State).setIn F.PCM_CAUSE_CAUSE 0).retreatEnter 2 t)) ∧
    (s.link.logic.up = true → exec (.vin5Loss t) s =
      .next ((({ s with pd := holdupEntry { s.pd with vin5l := true } } : State).setIn F.PCM_CAUSE_CAUSE 1).retreatEnter 3 t))) ∧
  (∀ (t : Trans) (s : State), s.regsWf = true → s.mode = mRETREAT →
    exec (.pwrRstnFall t) s = .next (({ s with pcm := { s.pcm with rstn := false } } : State).setIn F.PCM_CAUSE_CAUSE 4) ∧
    exec (.bayWithdrawal t) s = .next (({ s with pcm := { s.pcm with bay := true } } : State).setIn F.PCM_CAUSE_CAUSE 3)) ∧
  (∀ (t : Trans) (s : State), s.link.logic.up = false →
    exec (.vmotLoss t) s = .next { s with pd := holdupEntry { s.pd with vmotl := true } } ∧
    exec (.vin5Loss t) s = .next { s with pd := holdupEntry { s.pd with vin5l := true } }) ∧
  (∀ s : State, exec .vmotReturn s = .next { s with pd := { s.pd with vmotl := false } } ∧
    exec .vin5Return s = .next { s with pd := { s.pd with vin5l := false } } ∧
    exec .reinsertion s = .next { s with pcm := { s.pcm with bay := false } }) ∧
  (∀ (us : BitVec 32) (s : State), s.mode = mRETREAT → s.on F.PCM_STAT_RDONE = true → s.pcm.rstn = true → s.pcm.bay = false →
    s.pd.vmotl = false → s.pd.vin5l = false → exec (.retreatEnd us) s = .next (s.thawEntry 1 us.toNat)) ∧
  (∀ (left : List (Nat × Byte)) (s : State), ∃ t : State, exec (.railCollapse left) s = .next t ∧
    t.mode = mOFF ∧ t.buf = [] ∧ t.sram = [] ∧ t.pd = s.pd ∧ t.sst.fuses = s.sst.fuses ∧ t.mor = {} ∧ t.atb = {} ∧ t.firn = {} ∧
    t.uqi = { never := s.uqi.never, moved := s.uqi.moved, owned := s.uqi.owned } ∧ (left = [] → t.store = s.store))

/-- A mode request is a write of PCM_CMD by a core that does not run gated, outside OFF. One from a core other than SEC or MC is
ignored and sets DENIED: it leaves the state but for that bit as it was; one other than RETREAT while a request is pending
answers BUSY (R96). Each request that Table 4.6 lists makes its transition, or starts the quiesce or the exit that its row
asks for: FLOW, DRIFT and DORMANT from each mode that reaches them (R97), RETREAT from any other mode, and SEC's REBOOT with
an empty dirty set; one whose conditions do not hold answers NOTREADY or, for REBOOT, DIRTY, and one that the table does not
list answers ILLEGAL (R96, R97). The end of a quiesce step and of the exit from DORMANT completes what is pending, or goes on
to its next step; a quiesce timeout abandons it with its blocking condition (R98, R102). A quiet port enters L1. What the
orderer and the rings do next in the new mode is `modeSettle`. (04_power_clocks_modes.md) -/
def Obligations.ModeRequestsComplete : Prop :=
  (∀ (m : Master) (t : Trans) (us : BitVec 32) (s : State), gated s m = false → s.mode ≠ mOFF → m ≠ .sec → m ≠ .mc →
    exec (.modeReqFlow m t) s = .next (s.put F.PCM_STAT_DENIED 1) ∧
    exec (.modeReqDrift m t) s = .next (s.put F.PCM_STAT_DENIED 1) ∧
    exec (.modeReqDormant m) s = .next (s.put F.PCM_STAT_DENIED 1) ∧
    exec (.modeReqRetreat m t) s = .next (s.put F.PCM_STAT_DENIED 1) ∧
    exec (.modeReqReboot m us) s = .next (s.put F.PCM_STAT_DENIED 1)) ∧
  (∀ (m : Master) (t : Trans) (us : BitVec 32) (s : State), gated s m = false → s.mode ≠ mOFF → m = .sec ∨ m = .mc →
    s.on F.PCM_STAT_PEND = true →
    exec (.modeReqFlow m t) s = .next (s.put F.PCM_STAT_RESULT 3) ∧
    exec (.modeReqDrift m t) s = .next (s.put F.PCM_STAT_RESULT 3) ∧
    exec (.modeReqDormant m) s = .next (s.put F.PCM_STAT_RESULT 3) ∧
    exec (.modeReqReboot m us) s = .next (s.put F.PCM_STAT_RESULT 3)) ∧
  (∀ (m : Master) (t : Trans) (s : State), gated s m = false → m = .sec ∨ m = .mc → s.on F.PCM_STAT_PEND = false →
    (s.mode = mDRIFT → exec (.modeReqFlow m t) s = .next ((s.put F.PCM_STAT_RESULT 0).enterFlow t).modeSettle ∧
      exec (.modeReqDrift m t) s = .next (s.put F.PCM_STAT_RESULT 1) ∧
      exec (.modeReqDormant m) s = .next (s.pcmPend mDORMANT .sleep)) ∧
    (s.mode = mFLOW → exec (.modeReqFlow m t) s = .next (s.put F.PCM_STAT_RESULT 1) ∧
      exec (.modeReqDrift m t) s = .next (s.pcmPend mDRIFT .leaveFlow) ∧
      exec (.modeReqDormant m) s = .next (s.pcmPend mDORMANT .leaveFlow)) ∧
    (s.mode = mDORMANT → exec (.modeReqDormant m) s = .next (s.put F.PCM_STAT_RESULT 1) ∧
      (s.get F.FLNK_SPD_TARGET ≠ 0 → exec (.modeReqFlow m t) s = .next (s.wakeStart mFLOW) ∧
        exec (.modeReqDrift m t) s = .next (s.wakeStart mDRIFT)) ∧
      (s.get F.FLNK_SPD_TARGET = 0 → exec (.modeReqFlow m t) s = .next (s.put F.PCM_STAT_RESULT 5) ∧
        exec (.modeReqDrift m t) s = .next (s.put F.PCM_STAT_RESULT 5))) ∧
    (s.mode = mRETREAT → exec (.modeReqFlow m t) s = .next (s.put F.PCM_STAT_RESULT 1) ∧
      exec (.modeReqDrift m t) s = .next (s.put F.PCM_STAT_RESULT 1) ∧
      exec (.modeReqDormant m) s = .next (s.put F.PCM_STAT_RESULT 1)) ∧
    (s.mode = mTHAW → m = .mc → exec (.modeReqFlow m t) s = .next (s.put F.PCM_STAT_RESULT 1) ∧
      exec (.modeReqDrift m t) s = .next (s.put F.PCM_STAT_RESULT 1) ∧
      exec (.modeReqDormant m) s = .next (s.put F.PCM_STAT_RESULT 1)) ∧
    (s.mode = mTHAW → m = .sec →
      (thawReady s = true →
        exec (.modeReqFlow m t) s = .next (((s.put F.PCM_STAT_RESULT 0).enterDrift t).enterFlow t).modeSettle ∧
        exec (.modeReqDrift m t) s = .next ((s.put F.PCM_STAT_RESULT 0).enterDrift t).modeSettle) ∧
      (thawReady s = false → exec (.modeReqFlow m t) s = .next (s.put F.PCM_STAT_RESULT 5) ∧
        exec (.modeReqDrift m t) s = .next (s.put F.PCM_STAT_RESULT 5)) ∧
      (s.on F.SST_STAT_ALLOK = true → exec (.modeReqDormant m) s = .next (s.pcmPend mDORMANT .sleep)) ∧
      (s.on F.SST_STAT_ALLOK = false → exec (.modeReqDormant m) s = .next (s.put F.PCM_STAT_RESULT 5)))) ∧
  (∀ (m : Master) (t : Trans) (s : State), gated s m = false → s.regsWf = true → m = .sec ∨ m = .mc → s.mode ≠ mOFF →
    (s.mode ≠ mRETREAT → exec (.modeReqRetreat m t) s =
      .next (((s.put F.PCM_STAT_RESULT 0).setIn F.PCM_CAUSE_CAUSE 6).retreatEnter 1 t)) ∧
    (s.mode = mRETREAT → exec (.modeReqRetreat m t) s = .next (s.put F.PCM_STAT_RESULT 1))) ∧
  (∀ (us : BitVec 32) (s : State), s.on F.PCM_STAT_PEND = false → s.mode ≠ mOFF →
    (s.mode ≠ mRETREAT → dirtyEmpty s = true → exec (.modeReqReboot .sec us) s = .next (s.rebootNow us.toNat)) ∧
    (s.mode ≠ mRETREAT → dirtyEmpty s = false → exec (.modeReqReboot .sec us) s = .next (s.put F.PCM_STAT_RESULT 4)) ∧
    (s.mode = mRETREAT → exec (.modeReqReboot .sec us) s = .next (s.put F.PCM_STAT_RESULT 1)) ∧
    (gated s .mc = false → exec (.modeReqReboot .mc us) s = .next (s.put F.PCM_STAT_RESULT 1))) ∧
  (∀ (t : Trans) (p : PcmPend) (s : State), s.pcm.pend = some p →
    (p.step = .sleep → dmaIdle s = true → exec (.quiesceDone t) s = .next ((s.pcmDone 0).enterDormant t).modeSettle) ∧
    (p.step = .leaveFlow → p.final ≠ mDORMANT → mediaIdle s = true →
      exec (.quiesceDone t) s = .next ((s.enterMode mDRIFT 1 t).pcmDone 0).modeSettle) ∧
    (p.step = .leaveFlow → p.final = mDORMANT → mediaIdle s = true →
      exec (.quiesceDone t) s = .next ((s.enterMode mDRIFT 1 t).sleepStart mDORMANT p.source)) ∧
    (p.step = .sleep → dmaIdle s = false → exec .quiesceTimeout s = .next ((s.abandon p 1).dmaRelease).modeSettle) ∧
    (p.step = .leaveFlow → mediaIdle s = false → exec .quiesceTimeout s = .next (s.abandon p 2).modeSettle) ∧
    (p.step = .wake → s.get F.FLNK_PD_SPST = 3 → s.get F.ATB_STAT_STATE = 2 →
      (p.final ≠ mFLOW → exec (.dormantExitDone t) s = .next ((s.pcmDone 0).enterDrift t).modeSettle) ∧
      (p.final = mFLOW → exec (.dormantExitDone t) s = .next (((s.pcmDone 0).enterDrift t).enterFlow t).modeSettle))) ∧
  (∀ (q : BitVec 1) (s : State), (s.port q.toNat).dl = true → s.mode ≠ mRETREAT → s.mode ≠ mOFF →
    portQuiet s q.toNat = true →
    exec (.aspmL1Entry q) s = .next (s.onPort q.toNat fun (p : Port) => { p with l1 := true }))

/-- A slowing episode sets SLOWED and counts, its release clears SLOWED, adds its time and may interrupt MC, a deep droop is
recorded and raises the RETREAT trigger, and the summary record carries and restarts the figures (R90 to R92, R105). How an
episode in progress is split between two summaries, and that the count's low 16 bits are carried, are the model's choice
(DESIGN CHOICE, log entry 103).
(04_power_clocks_modes.md) -/
def Obligations.DroopGovernorCommandsComplete : Prop :=
  (∀ (code : BitVec 8) (s : State), s.mode ≠ mOFF → code.toNat ≤ s.get F.DRP_CTL_SLOW → s.on F.DRP_STAT_SLOWED = false →
    exec (.droopSlow code) s = .next (((({ s with pcm := { s.pcm with episodes := s.pcm.episodes + 1, epLow := 0xFF } }).put
      F.DRP_STAT_SLOWED 1).inc F.DRP_CNT_SLOW_CNT).droopSample code.toNat)) ∧
  (∀ (code low : BitVec 8) (ns : BitVec 32) (s u w : State) (total : Nat), s.on F.DRP_STAT_SLOWED = true → s.get F.DRP_CTL_REL ≤ code.toNat →
    u = ((s.droopSample low.toNat).droopSample code.toNat).put F.DRP_STAT_SLOWED 0 →
    total = u.get F.DRP_SLT_LO_SLT + u.pcm.sltHi * 4294967296 + ns.toNat → w = (u.put F.DRP_SLT_LO_SLT total).onPcm (fun c =>
      { c with slowed := c.slowed + ns.toNat, sltHi := total / 4294967296 % 4294967296 }) →
    exec (.droopRelease code low ns) s = .next (if w.on F.DRP_IEN_EPI then w.emit (.blockIrq .mc "DRP") else w)) ∧
  (∀ (code : BitVec 8) (ns : BitVec 32) (t : Trans) (s u : State), s.mode ≠ mOFF → code.toNat ≤ s.get F.DRP_CTL_DEEP →
    u = ((s.droopSample code.toNat).put F.DRP_STAT_DEEPHIT 1).setIn F.PCM_CAUSE_CAUSE 2 →
    exec (.deepDroop code ns t) s = .next ((u.event 0x0601 0xFF (leBytes 1 (u.get F.PCM_CAUSE_CAUSE) ++
      leBytes 1 u.pcm.epLow ++ leBytes 1 (u.get F.DRP_CTL_DEEP) ++ leBytes 1 (u.get F.DRP_TIME_DEEP_FILT) ++
      leBytes 4 ns.toNat)).retreatTrigger 2 t)) ∧
  (∀ s : State, s.pcm.episodes ≠ 0 → s.mode ≠ mOFF → exec .droopSummary s =
    .next ((s.event 0x0602 0xFF (leBytes 2 s.pcm.episodes ++ leBytes 1 s.pcm.lowest ++ leBytes 1 (s.get F.DRP_CTL_SLOW) ++
      leBytes 8 s.pcm.slowed)).onPcm fun c => { c with episodes := 0, lowest := 0xFF, slowed := 0 }))

/-- SEC's first steps set EN and COAST_RPM and command the spin-up (R134); the chosen slot is booted or RECOVERY is entered
(R112, R132); a landed block goes to its destination as it is hashed, with zeros beyond LEN, and a core that waits for it
goes on, and a block that the Store die cannot read fails its segment (R109, R110, R113, R123); a hashed block advances its
chain, and the last one passes or fails the segment (R110, R114); the header's signature passes or fails every segment
(R114). The ECC engine, when it is free, takes the next request that waits (`eccKick`, R115). (05_secure_start.md) -/
def Obligations.BootRomCommandsComplete : Prop :=
  (∀ s : State, s.mode = mTHAW → s.sst.secOut = false → s.sst.fuses.targetRpm = 0 →
    exec .secLeavesReset s = .next ((({ s with sst := { s.sst with secOut := true } } : State).put F.ATB_CTL_COAST_RPM
      5400).put F.ATB_CTL_EN 1 |>.flnkSend .unpatch)) ∧
  (∀ (s u : State), s.mode = mTHAW → s.sst.secOut = false → s.sst.fuses.targetRpm ≠ 0 →
    u = (((({ s with sst := { s.sst with secOut := true } } : State).put F.ATB_CTL_COAST_RPM
      (coastRpm s.sst.fuses.targetRpm)).put F.ATB_CTL_EN 1).flnkSend .unpatch).put F.FLNK_SPD_TARGET s.sst.fuses.targetRpm →
    exec .secLeavesReset s = .next (u.flnkSend u.speedPkt)) ∧
  (∀ (s u : State), s.mode = mTHAW → s.sst.secOut = true → s.sst.chosen = false →
    u = ((s.wakeBank 0).wakeBank 1).onSst (fun x => { x with chosen := true }) →
    (∀ n : Nat, bestSlot u (u.get F.SST_FAIL_FAILMASK) = some n → exec .headersRead s = .next (u.bootSlot n).eccKick) ∧
    (bestSlot u (u.get F.SST_FAIL_FAILMASK) = none → exec .headersRead s = .next u.recovery.eccKick)) ∧
  (∀ (us : BitVec 32) (s u v : State) (k i a : Nat) (b : List Byte), s.sst.loading = true → k = s.sst.seg → k < 7 →
    i = s.get (F.SST_SEG_LOADED k) → a = slotBase (s.get F.SST_STAT_SLOT) + segOff s.sst.hdr k + 65536 * i →
    u = s.wakeBank (bankOf a) → b = blockBytes u s.sst.hdr k i →
    v = ((u.placeBlock k i b).put (F.SST_SEG_LOADED k) (i + 1)).onSst (fun x => { x with
      landed := x.landed ++ [(k, b)], seg := if i + 1 = segNblk s.sst.hdr k then k + 1 else k }) →
    (sectorUnsure u a = false → exec (.blockLanded us) s = .next (v.blockArrived k i) ∧
      (∀ m : Master, segCore k = some m → v.sram = Sparse.writeList zeroed u.sram (tcmBase m + 65536 * i) b)) ∧
    (sectorUnsure u a = true → exec (.blockLanded us) s = .next (((u.stoCapture 15 .loader a).put (F.SST_SEG_RESULT k) 2).verifyFailed
      k 3 (i + 1) (chainSoFar u k) us.toNat).eccKick)) ∧
  (∀ (us : BitVec 32) (s u : State) (k n : Nat) (b c : List Byte) (l : List (Nat × List Byte)), s.sst.landed = (k, b) :: l →
    c = sha384 (tabGet s.sst.chains (zeros 48) k ++ b) → n = s.get (F.SST_SEG_HASHED k) + 1 →
    u = (s.onSst fun x => { x with landed := l, chains := tabPut x.chains (zeros 48) k c }).put (F.SST_SEG_HASHED k) n →
    (n < segNblk s.sst.hdr k → exec (.blockHashed us) s = .next u) ∧
    (segNblk s.sst.hdr k ≤ n → c = segFinal s.sst.hdr k →
      exec (.blockHashed us) s = .next (u.onSst fun x => { x with matched := x.matched ++ [k] }).passMatched.eccKick) ∧
    (segNblk s.sst.hdr k ≤ n → c ≠ segFinal s.sst.hdr k →
      exec (.blockHashed us) s = .next ((u.put (F.SST_SEG_RESULT k) 2).verifyFailed k 2 n c us.toNat).eccKick)) ∧
  (∀ (us : BitVec 32) (s u : State) (ok : Bool), s.sst.ecc = some .header → s.sst.eccOld = false → u = s.eccFree →
    ok = ecdsaVerify (slice s.sst.hdr 0x250 96) (sha384 (slice s.sst.hdr 0 0xFA0)) (slice s.sst.hdr 0xFA0 96) →
    (ok = true → exec (.headerSignatureDone us) s = .next (u.put F.SST_STAT_HDRSIG 1).passMatched.eccKick) ∧
    (ok = false → exec (.headerSignatureDone us) s = .next ((State.each (fun k x => x.put (F.SST_SEG_RESULT k) 2) (List.range 7)
      (u.put F.SST_STAT_HDRSIG 2)).verifyFailed 7 1 0xFFFF (zeros 48) us.toNat).eccKick)) ∧
  (∀ (us : BitVec 32) (s : State), s.sst.ecc = some .header → s.sst.eccOld = true →
    exec (.headerSignatureDone us) s = .next s.eccFree.eccKick)

/-- At the end of its request the ECC engine gives the device keys, whose public halves are then shown, the ALIAS certificate and
the signature of SST_DIG, each to the request that it runs, and takes the next one (R115 to R117, R119, R447); what it
computed for a slot given up meanwhile counts for nothing. Lock bits only set, and only for SEC (R117). DERIVE and CLEAR act on
the party's key slot, are ignored while one runs and refused under MEK_USELOCK, and SIGN is ignored while one runs and refused
under ALIAS_USELOCK (R118, R119). (05_secure_start.md) -/
def Obligations.KeyCommandsComplete : Prop :=
  (∀ s : State, s.sst.ecc = some .devid → exec .devidDerived s =
    .next (((s.eccFree.onSst fun x => { x with devid := true }).wrBytes R.SST_DEVPUB 24 (publicOf devidKey)).eccKick)) ∧
  (∀ s : State, s.sst.ecc = some .alias_ →
    (s.sst.eccOld = false → exec .aliasDerived s = .next (((s.eccFree.onSst fun x => { x with alias_ := true }).wrBytes R.SST_ALIASPUB 24
      (publicOf (aliasKey (segFinal s.sst.hdr 0)))).handoverDue.eccKick)) ∧
    (s.sst.eccOld = true → exec .aliasDerived s = .next s.eccFree.eccKick)) ∧
  (∀ s : State, (s.sst.alias_ = true → segPassed s 1 = true → s.sst.handed = false → s.handoverDue = s.handover) ∧
    (s.sst.alias_ = false ∨ segPassed s 1 = false ∨ s.sst.handed = true → s.handoverDue = s)) ∧
  (∀ (s u w : State) (tbs sig cert : List Byte), s.sst.ecc = some .cert → u = s.eccFree → tbs = tbsCert (devidPub u) (aliasPub u) →
    u.sign devidKey (sha384 tbs) = (sig, w) → cert = derCert tbs sig → exec .aliasCertReady s =
      .next ((((w.onSst fun x => { x with cert }).put F.MGT_ACLEN_LEN cert.length).put F.MGT_STAT_ACRDY 1).eccKick)) ∧
  (∀ (m : Master) (v : Word) (s : State), exec (.keyLock .sec v) s = .next (s.wr R.SST_KLOCK (s.rd R.SST_KLOCK ||| (v &&& 7))) ∧
    (m ≠ .sec → gated s m = false → exec (.keyLock m v) s = .next s ∧ exec (.derive m v) s = .next s ∧
      exec (.keyClear m v) s = .next s ∧ exec (.sign m v) s = .next s)) ∧
  (∀ (v : Word) (s u : State), s.on F.SST_KRES_BUSY = false → u = s.put F.SST_KRES_RESULT 0 →
    (s.on F.SST_KLOCK_MEK_USELOCK = false →
      (bitsOf v 1 0 = 1 → exec (.derive .sec v) s = .next ((u.onSst fun x => { x with
        deriving_ := some (bitsOf v 7 4, saltOf u) }).put F.SST_KRES_BUSY 1)) ∧
      (bitsOf v 1 0 = 2 → exec (.keyClear .sec v) s = .next (u.newKey (bitsOf v 7 4) [] false))) ∧
    (s.on F.SST_KLOCK_MEK_USELOCK = true →
      (bitsOf v 1 0 = 1 → exec (.derive .sec v) s = .next (s.put F.SST_KRES_RESULT 1)) ∧
      (bitsOf v 1 0 = 2 → exec (.keyClear .sec v) s = .next (s.put F.SST_KRES_RESULT 1)))) ∧
  (∀ (v : Word) (s : State), s.on F.SST_KRES_BUSY = true →
    exec (.derive .sec v) s = .next s ∧ exec (.keyClear .sec v) s = .next s) ∧
  (∀ (s : State) (p : Nat) (salt k : List Byte), s.sst.deriving_ = some (p, salt) → k = mediaKey p salt →
    exec .deriveDone s = .next (((s.onSst fun x => { x with deriving_ := none }).put F.SST_KRES_BUSY 0).newKey p k
      (slice k 0 32 != slice k 32 32))) ∧
  (∀ (s u : State) (p : Nat) (k : List Byte), (∀ c, c < 16 → (s.chan c).live = false) →
    u = { s with cry := { s.cry with keys := tabPut s.cry.keys [] p k } } →
    s.newKey p k true = (u.put (F.CRY_SLOT_READY p) 1).incWrap (F.CRY_SLOT_GEN p) ∧ s.newKey p k false = u.put (F.CRY_SLOT_READY p) 0) ∧
  (∀ (v : Word) (s u : State), v.getLsbD 0 = true → s.on F.SST_SRES_BUSY = false →
    (s.on F.SST_KLOCK_ALIAS_USELOCK = false → u = s.put F.SST_SRES_RESULT 0 → exec (.sign .sec v) s = .next ((u.onSst fun x =>
      { x with signing := some (rdBytes s R.SST_DIG 12) }).put F.SST_SRES_BUSY 1).eccKick) ∧
    (s.on F.SST_KLOCK_ALIAS_USELOCK = true → exec (.sign .sec v) s = .next (s.put F.SST_SRES_RESULT 1))) ∧
  (∀ (v : Word) (s : State), v.getLsbD 0 = false ∨ s.on F.SST_SRES_BUSY = true → exec (.sign .sec v) s = .next s) ∧
  (∀ (s w : State) (d sig : List Byte), s.sst.ecc = some .scmd → s.sst.signing = some d →
    s.eccFree.sign (aliasKey (segFinal s.sst.hdr 0)) d = (sig, w) → exec .signDone s =
      .next ((((w.onSst fun x => { x with signing := none }).put F.SST_SRES_BUSY 0).wrBytes R.SST_SIGR 12
        (slice sig 0 48)).wrBytes R.SST_SIGS 12 (slice sig 48 48)).eccKick)

/-- A release by SEC starts a core whose first block has landed at its vector, gated while its segment has not passed, and sets
RELERR where none has landed or the segment failed; no other master's write releases (R122). SV and the WSQ start together
once SVOK is set and the ATB is LOCKED (R124). The held stores of a passed core are performed in order and its gate opens
(R127). SEC's fuse commands start in MANUFACTURE where their conditions hold and are DENIED elsewhere and in PRODUCTION; the
end of a fuse operation sets the bits that it held, answers whether the field reads back, writes record 0x0107 and begins the
next change (R107, R121, R138). How many held bits of a failed operation are set is an operand. (05_secure_start.md) -/
def Obligations.ReleaseAndFuseCommandsComplete : Prop :=
  (∀ (v : Word) (s u : State), v &&& 7 = 1 → s.bit F.SST_RUN_RUN 0 = false →
    (s.get (F.SST_SEG_LOADED 2) ≠ 0 → s.get (F.SST_SEG_RESULT 2) ≠ 2 → u = s.setIn F.SST_RUN_RUN 0 →
      (segPassed u 2 = false → exec (.coreRelease .sec v) s = .next ((u.setIn F.SST_GATE_GATED 0).emit (.coreStart .hc0
        (0x10100000 + (u.setIn F.SST_GATE_GATED 0).get (F.SST_VEC_VEC 0)) 0))) ∧
      (segPassed u 2 = true → exec (.coreRelease .sec v) s =
        .next (u.emit (.coreStart .hc0 (0x10100000 + u.get (F.SST_VEC_VEC 0)) 0)))) ∧
    (s.get (F.SST_SEG_LOADED 2) = 0 ∨ s.get (F.SST_SEG_RESULT 2) = 2 →
      exec (.coreRelease .sec v) s = .next (s.put F.SST_RUN_RELERR 1))) ∧
  (∀ (v : Word) (s : State), exec (.coreRelease .sec v) s = .next (State.each (fun c x => if v.getLsbD c then x.releaseCore c else x)
    [0, 1, 2] s)) ∧
  (∀ (m : Master) (v : Word) (s : State), gated s m = false → m ≠ .sec → exec (.coreRelease m v) s = .next s) ∧
  (∀ s : State, s.on F.SST_STAT_SVOK = true → s.get F.ATB_STAT_STATE = 2 → s.bit F.SST_RUN_RUN 3 = false → s.regsWf = true →
    ∃ t : State, exec .svWsqRelease s = .next t ∧ t.out = s.out ++
      [.coreStart .sv (0x10400000 + s.get (F.SST_VEC_VEC 3)) 0, .wsqStart (s.get F.SST_WSQVEC_VEC)] ∧
      t.bit F.SST_RUN_RUN 3 = true ∧ t.bit F.SST_RUN_RUN 4 = true ∧ t.get F.WSQ_PC_PC = s.get F.SST_WSQVEC_VEC) ∧
  (∀ (c : BitVec 2) (facts : List BusFacts) (s : State), c.toNat < 3 → segPassed s (gatedSeg c.toNat) = true →
    s.bit F.SST_GATE_GATED c.toNat = true → exec (.hsqDrainEnd c facts) s = .next (((State.drainAll (gatedCore c.toNat) (hsq s c.toNat) facts
      (s.setHsq c.toNat [])).clrIn F.SST_GATE_GATED c.toNat).put (F.SST_HSQ_STALL c.toNat) 0)) ∧
  (∀ (held : BitVec 384) (op : FuseOp) (p : List Byte) (ok : Bool) (s u w : State), s.sst.fuseOp = some op →
    s.fuseFinish op held.toNat = (p, ok, u) →
    w = ((u.event 0x0107 0xFF p).put F.SST_FRES_BUSY 0).put F.SST_FRES_RESULT (if ok then 0 else 2) →
    u.sst.fuses = fuseSet op held.toNat s.sst.fuses ∧ ok = fuseGood op (fuseSet op held.toNat s.sst.fuses) ∧
    (w.sst.fuseNext = [] → exec (.fuseProgramDone held) s = .next (w.onSst fun x => { x with fuseOp := none })) ∧
    (∀ (o : FuseOp) (l : List FuseOp), w.sst.fuseNext = o :: l →
      exec (.fuseProgramDone held) s = .next ((w.onSst fun x => { x with fuseNext := l }).fuseStart o))) ∧
  (∀ (v : Word) (s : State), s.on F.SST_FRES_BUSY = false → s.sst.fuses.production = false →
    (bitsOf v 3 0 = 1 →
      (keyBlank s.sst.fuses (bitsOf v 5 4) = true → exec (.programKeyhash .sec v) s =
        .next (s.fuseStart { field := 3, slot := bitsOf v 5 4, hash := rdBytes s R.SST_DIG 12 })) ∧
      (keyBlank s.sst.fuses (bitsOf v 5 4) = false → exec (.programKeyhash .sec v) s = .next (s.put F.SST_FRES_RESULT 1))) ∧
    (bitsOf v 3 0 = 2 →
      (((List.range 4).all fun k => keyBlank s.sst.fuses k) = false →
        exec (.setProduction .sec v) s = .next (s.fuseStart { field := 4 })) ∧
      (((List.range 4).all fun k => keyBlank s.sst.fuses k) = true →
        exec (.setProduction .sec v) s = .next (s.put F.SST_FRES_RESULT 1))) ∧
    (bitsOf v 3 0 = 3 →
      (s.sst.fuses.targetRpm = 0 → 5400 ≤ bitsOf v 29 16 → bitsOf v 29 16 ≤ 10000 →
        exec (.programTargetRpm .sec v) s = .next (s.fuseStart { field := 5, val := bitsOf v 29 16 })) ∧
      (s.sst.fuses.targetRpm ≠ 0 ∨ bitsOf v 29 16 < 5400 ∨ 10000 < bitsOf v 29 16 →
        exec (.programTargetRpm .sec v) s = .next (s.put F.SST_FRES_RESULT 1)))) ∧
  (∀ (v : Word) (s : State), s.on F.SST_FRES_BUSY = false → s.sst.fuses.production = true →
    (bitsOf v 3 0 = 1 → exec (.programKeyhash .sec v) s = .next (s.put F.SST_FRES_RESULT 1)) ∧
    (bitsOf v 3 0 = 2 → exec (.setProduction .sec v) s = .next (s.put F.SST_FRES_RESULT 1)) ∧
    (bitsOf v 3 0 = 3 → exec (.programTargetRpm .sec v) s = .next (s.put F.SST_FRES_RESULT 1)))

/-- In a cycle of the recorder the sources listed present an event each; it takes the one that has waited longest, the lowest
source first, into a FIFO entry that the source may use, stamped with the angle counter, the ATB state and the boot count, or
counts it as lost; an event presented to a register that stays full is lost (R146, R154, R155). The submission of a core that
does not run gated is refused, or presented in that cycle (R152). SEAL_NOW enqueues a seal, which an empty batch drops (R150).
The end of the retract enqueues 0x0203 and its seal once (R162). Which sources present is an operand. (06_moraine_log.md) -/
def Obligations.EventStagingCommandsComplete : Prop :=
  (∀ (l : List (BitVec 8)) (s u : State) (new kept : List Event) (e : Event) (rest : List Event), new = offers s.mor l →
    s.mor.caught ++ new.filter (fun x => !caughtFrom s.mor x.src) = e :: rest →
    kept = new.filter (fun x => caughtFrom s.mor x.src) →
    u = State.each (fun (x : Event) w => (w.loseEvent x.code).tellLost x) (kept.filter fun x => x.src != e.src)
      ({ s with mor := { unraise new s.mor with caught := rest ++ kept.filter fun x => x.src == e.src } }) →
    (fifoRoom u.mor e.src = true → e.code ≠ 0x0306 → exec (.eventCapture l) s = .next ((u.pushFifo (u.stamp e)).sealAfter e)) ∧
    (fifoRoom u.mor e.src = true → e.code = 0x0306 → exec (.eventCapture l) s = .next (((u.pushFifo (u.stamp e)).sealAfter e).logAck e)) ∧
    (fifoRoom u.mor e.src = false → exec (.eventCapture l) s = .next ((u.loseEvent e.code).tellLost e))) ∧
  (∀ (n : BitVec 8) (e : Event) (s : State), s.mor.raised = [e] → s.mor.caught = [] → e.src = n.toNat → e.code ≠ 0x0201 → e.code ≠ 0x0306 →
    morSigned e.code = false → fifoRoom s.mor e.src = true → ∃ t : State, exec (.eventCapture [n]) s = .next t ∧ t.mor.raised = [] ∧
      t.mor.caught = [] ∧ t.mor.fifo = s.mor.fifo ++
        [{ ev := { ev := e, ts := s.atb.count, atbst := s.get F.ATB_STAT_STATE, boot := s.get F.MOR_BOOT_BOOT } }]) ∧
  (∀ (l : List (BitVec 8)) (s : State), s.mor.caught = [] → offers s.mor l = [] → exec (.eventCapture l) s = .next s) ∧
  (∀ (m : Master) (v : Word) (l : List (BitVec 8)) (s : State), gated s m = false →
    (fwCode (bitsOf v 15 0) = true → bitsOf v 24 16 ≤ 316 → bitsOf v 29 25 ≤ 15 ∨ bitsOf v 29 25 = 31 → ∃ e : Event,
      e.code = bitsOf v 15 0 ∧ e.party = (if bitsOf v 29 25 = 31 then 0xFF else bitsOf v 29 25) ∧ e.src = 0x10 + m.idx ∧ e.fwsrc = true ∧
      e.payload = slice ((List.range 79).flatMap fun k => leBytes 4 (s.rd (R.MOR_SPAY m k)).toNat) 0 (bitsOf v 24 16) ∧
      exec (.fwEventSubmit m v l) s = .next ((s.put (F.MOR_SRES_RESULT m) 0).captureCycle
        ((offers s.mor l).filter (fun (x : Event) => x.src < e.src) ++ e :: (offers s.mor l).filter (fun (x : Event) => e.src < x.src)))) ∧
    (fwCode (bitsOf v 15 0) = false ∨ 316 < bitsOf v 24 16 ∨ (15 < bitsOf v 29 25 ∧ bitsOf v 29 25 ≠ 31) →
      exec (.fwEventSubmit m v l) s = .next (s.put (F.MOR_SRES_RESULT m) 2))) ∧
  (∀ s : State, exec .sealNow s = .next (s.ownEvent 0x0901 [] (some 2)) ∧
    (s.mor.own = [] → s.mor.fifo.length < 64 → lossDue s.mor = false → batchOpen s.mor = false → exec .sealNow s = .next s)) ∧
  (∀ (late : Bool) (s : State), s.mode = mRETREAT → s.mor.retreatDone = false →
    s.get F.FLNK_PD_ACTST = 0 ∨ (late = true ∧ s.on F.FLNK_STAT_UP = false) →
    exec (.retreatRetractDone late) s = .next (({ s with mor := { s.mor with retreatDone := true } } : State).ownEvent 0x0203
      (leBytes 1 s.mor.retreatCause ++ zeros 3 ++ leBytes 4 s.mor.retreatProg ++
        leBytes 4 (s.mor.lost - s.mor.retreatLost).toNat) |>.sealBatch 5))

/-- A record is formed as its phase 1 starts, which the Store die's bank then runs (R147); a good phase 1 leaves its image in the
write slot and frees its entry, and a failed one leaves a TORN slot and the record for the next slot (R157). The ECC engine
signs the record that it took under DEVID, and phase 2 programs the signature, or leaves SIGTORN (R148, R157). A Drift erase
leaves its sector erased, or is retried once and then passed over (R141, R158). The tail search sets the recorder's position
and makes it READY (R159). A read port takes one request and answers with the slot that holds the SEQ, or says why not
(R163). What waits for the Store die then starts (`morKick`), and RDONE sets where R162 says (`rdoneCheck`).
(06_moraine_log.md) -/
def Obligations.RecordProgramCommandsComplete : Prop :=
  (∀ (s u w : State) (f : Formed), phase1Ready s = true → u = formHead s →
    w = (if u.mor.wslot % 128 = 0 then u.eraseAhead else u) → headFormed w.mor = some f →
    exec .phase1Start s = .next (({ w with mor := { w.mor with phase1 := true } } : State).recorderProgram (morSlotAddr w.mor.wslot) 0
      (slotImage f))) ∧
  (∀ (back : List Byte) (f : Formed) (st : Staged) (rest : List FifoEntry) (s : State), s.mor.phase1 = true →
    s.mor.fifo = { ev := st, formed := some f } :: rest →
    exec (.phase1Done true back) s = .next (phase1Good f rest s).morKick.rdoneCheck ∧
    exec (.phase1Done false back) s = .next (phase1Bad f back s).morKick.rdoneCheck ∧
    (phase1Good f rest s).store = (s.stoProgram (morSlotAddr s.mor.wslot) (slotImage f)).store) ∧
  (∀ (q : Nat) (g : Signing) (s u w : State) (sig : List Byte), s.sst.ecc = some (.record q) → u = s.eccFree →
    (u.mor.signing.find? fun g => g.seq == q && g.sig.isNone) = some g → u.sign devidKey g.digest = (sig, w) →
    exec .recordSignatureReady s = .next (({ w with mor := { w.mor with
      signing := w.mor.signing.map fun h => if h.seq = q then { h with sig := some sig } else h } } : State).morKick).eccKick) ∧
  (∀ (back : List Byte) (q n : Nat) (g : Signing) (sig : List Byte) (s u w : State), s.mor.phase2 = some q →
    (s.mor.signing.find? fun g => g.seq == q) = some g → g.slot = some n → g.sig = some sig →
    (u = (s.stoProgram (morSlotAddr n + 0x190) (slice sig 0 96 ++ leBytes 4 (crc32c (slice sig 0 96)) ++ zeros 12)).recorderEnd
        (morSlotAddr n) true →
      w = { u with mor := { u.mor with signing := u.mor.signing.erase g, phase2 := none } } →
      (w.mode ≠ mRETREAT ∨ w.mor.retreatSeal ≠ some g.seq → exec (.phase2Done true back) s = .next w.rdoneCheck.morKick) ∧
      (w.mode = mRETREAT → w.mor.retreatSeal = some g.seq → exec (.phase2Done true back) s =
        .next ({ w with mor := { w.mor with sealDone := true } } : State).rdoneCheck.morKick)) ∧
    (u = (s.stoProgram (morSlotAddr n + 0x190) (sigtornImage (s.stoBytes (morSlotAddr n) 0x190) (phase2Image sig) back)).recorderEnd
        (morSlotAddr n) false →
      w = { u with mor := { u.mor with signing := u.mor.signing.erase g, phase2 := none } } →
      exec (.phase2Done false back) s = .next ((programFailure n 2 (w.mor.attempts + 1) g.seq w).ownEvent 0x0903
        (leBytes 8 g.seq ++ slice g.digest 0 48)).rdoneCheck.morKick)) ∧
  (∀ (m : Nat) (s u : State), s.mor.erasing = some m →
    (u = (s.endErase (bankOf (morSectorBase m)) true).stoErase (morSectorBase m) 0x10000 →
      exec (.driftEraseDone none) s = .next (({ u with mor := { u.mor with erasing := none, eraseRetry := false } } : State).rdoneCheck.morKick) ∧
      ∀ a, morSectorBase m ≤ a → a < morSectorBase m + 0x10000 → ∀ c ∈ u.store, c.1 ≠ a) ∧
    (∀ l : List (Nat × Byte), u = (((s.endErase (bankOf (morSectorBase m)) false).stoErase (morSectorBase m) 0x10000).layCells
        (cellsIn (morSectorBase m) 0x10000 l)) →
      exec (.driftEraseDone (some l)) s = .next (driftEraseFailed m
        ((u.inc F.STO_CNT_EFAIL_CNT).stoCapture 10 .recorder (morSectorBase m))).rdoneCheck.morKick)) ∧
  (∀ s u : State, s.on F.MOR_STAT_READY = false → findTail s (slotsUsed s) = none →
    u = (searchFound (slotsUsed s) s).put F.MOR_STAT_READY 1 →
    exec .tailSearchDone s = .next (u.formPrefix (lastSigned u.mor.fifo)).morKick) ∧
  (∀ (t : Nat) (s u w : State) (torn older : List Nat), s.on F.MOR_STAT_READY = false → findTail s (slotsUsed s) = some t →
    u = (searchFound (slotsUsed s) s).put F.MOR_STAT_READY 1 → w = u.formPrefix (lastSigned u.mor.fifo) →
    torn = (slotsBetween 8192 (morNextSlot t) w.mor.wslot).filter (fun n => slotClass (w.slotBytes n) = SlotClass.torn) →
    older = ((slotsUsed s).filter fun n => isRecord (slotClass (w.slotBytes n))).mergeSort (fun a b =>
      slotSeqOf (w.slotBytes b) ≤ slotSeqOf (w.slotBytes a)) → ∃ v : State,
    v = State.each (fun n x => tornRecord n 1 x) torn (w.put F.MOR_CNT_TORN_CNT (Nat.min torn.length 255)) ∧
    exec .tailSearchDone s = .next (State.each sigtornReport (sigtornSince v older).reverse v).searchErase.morKick) ∧
  (∀ (m : Master) (s : State), gated s m = false →
    (s.on (F.MOR_RRES_BUSY m) = false → exec (.morReadGo m) s = .next (s.put (F.MOR_RRES_BUSY m) 1)) ∧
    (s.on (F.MOR_RRES_BUSY m) = true → exec (.morReadGo m) s = .next s)) ∧
  (∀ (m : Master) (s u : State), s.on (F.MOR_RRES_BUSY m) = true → s.sst.loading = false → u = s.put (F.MOR_RRES_BUSY m) 0 →
    (∀ (n : Nat) (w : State), slotHolding u (s.readSeq m) = some n → w = fillReadBuf m (u.slotBytes n) u →
      exec (.morReadDone m) s = .next ((w.put (F.MOR_RRES_SLOT m) n).put (F.MOR_RRES_RESULT m)
        (if sigPending w.mor (s.readSeq m) then 3 else 0))) ∧
    (slotHolding u (s.readSeq m) = none → exec (.morReadDone m) s =
      .next (u.put (F.MOR_RRES_RESULT m) (if notYet u.mor (s.readSeq m) then 2 else 1))))

/-- A slot image of a formed record, as phase 1 leaves it, is VALID when the record is unsigned and PENDING when it is
signed, and with the signature bytes of phase 2 it is VALID: for every body of 400 bytes with the magic, the SIGNED
flag and a good BCRC (R144, R148, Table 6.3). (06_moraine_log.md) -/
def Obligations.SlotsClassifyAsTheTable : Prop :=
  ∀ (f : Formed) (sig : List Byte), f.body.length = 400 → slice f.body 0 4 = [0x4E, 0x52, 0x4F, 0x4D] →
    leNat (slice f.body 0x18C 4) = crc32c (slice f.body 0 0x18C) →
    (f.signed = false → leNat (slice f.body 6 2) % 2 = 0 → slotClass (slotImage f) = .valid) ∧
    (f.signed = true → leNat (slice f.body 6 2) % 2 = 1 →
      slotClass (slotImage f) = .pending) ∧
    (leNat (slice f.body 6 2) % 2 = 1 → slotClass (f.body ++ phase2Image sig) = .valid)

/-- A core's read of the array window returns array data, the info space, or once the status word, and in a margin mode what the
thresholds given show (R166, R175, R178, R182); the key cycles open a sequence, and a store of another width or a gap ends one as
a sequence error (R169); READ_ARRAY, status read, clear status, margin and info mode take effect in their last cycle (R170);
suspend and resume act for the erase's issuer, and for none where no erase is (R174); a confirmed program or erase starts or
is refused (R171, R173, R176); a store of the page window opens a page or goes on with it (R172). The requester is no core
that runs gated. (07_store_die_flash.md) -/
def Obligations.StoreSequencesComplete : Prop :=
  (∀ (m : Master) (a : BitVec 28) (w : Nat) (cells : List Nat) (s u : State) (b x : Nat) (q : SeqState), x = 0x20000000 + a.toNat →
    b = bankOf x → u = s.wakeBank b → q = u.seqState b (.core m) →
    (q.status = false → q.info = false → q.margin = 0 → sectorOpen u x = false →
      exec (.storeRead m a w cells) s = .next (u.emit (.coreData m (leNat (u.stoBytes x w))))) ∧
    (q.status = false → q.info = false → exec (.storeRead m a w cells) s = .next (u.emit (.coreData m (leNat
      (cellsRead (!sectorOpen u x) q.margin (u.get F.STO_MARGIN_PVOFF) (u.get F.STO_MARGIN_EVOFF) (u.stoBytes x w) cells))))) ∧
    (q.status = false → q.info = true → exec (.storeRead m a w cells) s =
      .next (u.emit (.coreData m (leNat (u.infoSpace b (x % 0x1000000) w))))) ∧
    (q.status = true → exec (.storeRead m a w cells) s = .next ((u.setSeq b (.core m) { q with status := false }).emit
        (.coreData m (leNat (slice (leBytes 4 (statusWord b (u.bank b))) (x % 4) w)))))) ∧
  (∀ (r : Req) (a : BitVec 28) (w : Nat) (v : Word) (s u : State) (b : Nat), b = bankOf (0x20000000 + a.toNat) →
    u = s.wakeBank b → s.sto.chFault = [] → (∀ m, r = .core m → gated s m = false) →
    (a.toNat % 0x1000000 = keyA → (u.seqState b r).pos = .idle → exec (.sequenceCycle r a 4 0x00002DD2) s =
      .next (u.setSeq b r { u.seqState b r with pos := .key2 })) ∧
    (a.toNat % 0x1000000 = keyB → (u.seqState b r).pos = .key2 → exec (.sequenceCycle r a 4 0x00009669) s =
      .next (u.setSeq b r { u.seqState b r with pos := .setup })) ∧
    (w ≠ 4 → exec (.sequenceCycle r a w v) s = .next (u.seqError r (0x20000000 + a.toNat)))) ∧
  (∀ (r : Req) (b : BitVec 4) (s : State),
    ((s.seqState b.toNat r).pos = .idle → exec (.sequenceTimeout r b) s = .next s) ∧
    ((s.seqState b.toNat r).pos ≠ .idle →
      exec (.sequenceTimeout r b) s = .next (s.seqError r (0x20000000 + b.toNat * 0x1000000)))) ∧
  (∀ (r : Req) (a : BitVec 28) (s u : State) (b : Nat), b = bankOf (0x20000000 + a.toNat) → u = s.wakeBank b →
    (u.seqState b r).pos = .idle → (∀ m, r = .core m → gated s m = false) →
    exec (.readArray r a) s = .next (u.setSeq b r { u.seqState b r with margin := 0, info := false, status := false }) ∧
    (∀ op : EraseOp, (u.bank b).erase = some op → (u.bank b).susp = false → sectorMoraine op.sector = false →
      mayControl r op = true → exec (.eraseSuspend r a) s = .next (u.setBank b { u.bank b with susp := true, resumeDue := false })) ∧
    (∀ op : EraseOp, (u.bank b).erase = some op → (u.bank b).susp = true → mayControl r op = true →
      exec (.eraseResume r a) s = .next (u.setBank b { u.bank b with susp := false, resumeDue := (u.bank b).prog.isSome })) ∧
    ((u.bank b).erase = none → exec (.eraseSuspend r a) s = .next (u.stoRefuse 12 r (0x20000000 + a.toNat / 4 * 4) 3) ∧
      exec (.eraseResume r a) s = .next (u.stoRefuse 12 r (0x20000000 + a.toNat / 4 * 4) 3))) ∧
  (∀ (r : Req) (b : BitVec 4) (s u : State) (q : SeqState) (k : Bank), u = s.wakeBank b.toNat → q = u.seqState b.toNat r →
    k = u.bank b.toNat → q.pos = .setup → (∀ m, r = .core m → gated s m = false) →
    exec (.statusRead r b) s = .next (u.setSeq b.toNat r { q with pos := .idle, status := true }) ∧
    exec (.clearStatus r b) s = .next ((u.setSeq b.toNat r { q with pos := .idle }).setBank b.toNat
      { k with refuse := false, pfail := false, efail := false }) ∧
    exec (.marginRead r b false) s = .next (u.setSeq b.toNat r { q with pos := .idle, margin := 1 }) ∧
    exec (.marginRead r b true) s = .next (u.setSeq b.toNat r { q with pos := .idle, margin := 2 }) ∧
    exec (.infoMode r b) s = .next (u.setSeq b.toNat r { q with pos := .idle, info := true })) ∧
  (∀ (r : Req) (b : BitVec 4) (page n k : Nat) (got : List (Nat × Word)) (s u : State), page = bankBase b + 512 * k → k < 32768 →
    got.length = n → (s.seqState b.toNat r).pos = .data page n got → s.sto.chFault = [] →
    u = (s.wakeBank b.toNat).setSeq b.toNat r { s.seqState b.toNat r with pos := .idle } →
    (programCause u page = none → exec (.bufferProgram r b) s = .next (u.startProgram { req := r, page := page, data := dataBytes got })) ∧
    (∀ (m : Master) (c : Nat), r = .core m → programCause u page = some c → exec (.bufferProgram r b) s = .next (u.stoRefuse c r page 1))) ∧
  (∀ (r : Req) (a : BitVec 28) (s u : State) (x b : Nat), x = 0x20000000 + a.toNat / 4 * 4 → b = bankOf x →
    (s.seqState b r).pos = .erase → (∀ m, r = .core m → gated s m = false) → u = (s.wakeBank b).setSeq b r { s.seqState b r with pos := .idle } →
    (eraseCause u x = none → exec (.sectorErase r a) s = .next (u.startErase b { req := r, sector := sectorOf x })) ∧
    (∀ c : Nat, eraseCause u x = some c → exec (.sectorErase r a) s = .next (u.stoRefuse c r x 2))) ∧
  (∀ (r : Req) (a : BitVec 28) (v : Word) (s u : State) (x : Nat), x = 0x20000000 + a.toNat → u = s.wakeBank (bankOf x) →
    s.sto.chFault = [] → (∀ m, r = .core m → gated s m = false) →
    (a.toNat % 512 = 0 → tabGet s.sto.pages none (reqNum r) = none →
      exec (.pageWindowStore r a 4 v) s = .next (u.setPage r (some { page := x, words := [v] }))) ∧
    (∀ p : PartPage, tabGet s.sto.pages none (reqNum r) = some p → x = p.page + 4 * p.words.length → a.toNat % 4 = 0 →
      p.words.length < 127 →
      exec (.pageWindowStore r a 4 v) s = .next (u.setPage r (some { p with words := p.words ++ [v] }))))

/-- A verified program of a core or a channel clears the bits its data clears; a failed one sets PFAIL and STO_ERR and leaves, of
the bits it was to clear, those that `l` shows (R171). A verified erase leaves the sector erased, a failed one what `l` shows,
with STO_ERR (R173). The scan sets READY (R180, R181); an info row is erased in the background (R183); grown-bad
marks are taken, refused or found full (R179); STO_WPROT takes SEC's writes until LOCK (R188); an idle bank powers
down and banks 2 and 3 never do (R189). (07_store_die_flash.md) -/
def Obligations.StoreOperationsComplete : Prop :=
  (∀ (b : BitVec 4) (l : List (Nat × Byte)) (s u : State) (p : ProgOp), (s.bank b.toNat).prog = some p → p.req ≠ .recorder →
    (u = (s.setBank b.toNat { s.bank b.toNat with prog := none, pfail := (s.bank b.toNat).pfail || false }).setIn F.STO_DONE_BANK b.toNat →
      (∀ m, p.req = .core m →
        exec (.programDone b true l) s = .next (storeFaults ((u.applyProgram p).afterProgram b.toNat)).rdoneCheck) ∧
      (∀ c, p.req = .dma c → exec (.programDone b true l) s =
        .next (storeFaults (((u.applyProgram p).dmaPageDone c p.page).afterProgram b.toNat)).rdoneCheck)) ∧
    (u = (s.setBank b.toNat { s.bank b.toNat with prog := none, pfail := true }).setIn F.STO_DONE_BANK b.toNat →
      exec (.programDone b false l) s = .next (storeFaults (((((u.failedProgram p l).inc F.STO_CNT_PFAIL_CNT).stoCapture 9 p.req
        p.page).tellChannel p.req 9).afterProgram b.toNat)).rdoneCheck)) ∧
  (∀ (b : BitVec 4) (l : List (Nat × Byte)) (s : State) (p : ProgOp) (m : Master), (s.bank b.toNat).prog = some p → p.req = .core m →
    (s.bank b.toNat).waiting = [] → s.sto.chFault = [] → s.mode ≠ mRETREAT → s.regsWf = true → s.banksWf = true → ∃ t : State,
      exec (.programDone b false l) s = .next t ∧ t.get F.STO_ERR_CAUSE = 9 ∧ t.get F.STO_EADDR_ADDR = p.page % 0x10000000 ∧
      (t.bank b.toNat).pfail = true ∧ (t.bank b.toNat).prog = none) ∧
  (∀ (b : BitVec 4) (l : List (Nat × Byte)) (s u : State) (op : EraseOp), (s.bank b.toNat).erase = some op →
    (s.bank b.toNat).susp = false → (s.bank b.toNat).resumeDue = false → op.req ≠ .recorder →
    (u = (s.endErase b.toNat true).stoErase (sectorAddr op.sector) 0x10000 →
      exec (.eraseDone b true l) s = .next u.rdoneCheck ∧
      ∀ a, sectorAddr op.sector ≤ a → a < sectorAddr op.sector + 0x10000 → ∀ c ∈ u.store, c.1 ≠ a) ∧
    (u = ((s.endErase b.toNat false).stoErase (sectorAddr op.sector) 0x10000).layCells (cellsIn (sectorAddr op.sector) 0x10000 l) →
      exec (.eraseDone b false l) s = .next ((u.inc F.STO_CNT_EFAIL_CNT).stoCapture 10 op.req (sectorAddr op.sector)).rdoneCheck)) ∧
  (∀ s : State, s.on F.STO_STAT_READY = false → s.regsWf = true → s.banksWf = true → ∃ u t : State, exec .storeScanDone s = .next t ∧
    t = (u.raiseBit F.STO_STAT_READY).interruptedRecords ∧ u.get F.STO_STAT_GBCOUNT = s.grownUsed % 2048 ∧
    u.get F.STO_STAT_FBCOUNT = leNat (s.infoBytes 16 12 2) % 256 ∧ ∀ b, b < 16 → (u.bank b).inc = s.infoIncomplete b) ∧
  (∀ (b : BitVec 4) (s : State), (s.bank b.toNat).infoErase = true → exec (.infoRowEraseDone b) s =
    .next ((s.infoErase b.toNat).setBank b.toNat { s.bank b.toNat with infoErase := false }).rdoneCheck.morKick) ∧
  (∀ (b : BitVec 4) (s : State), (s.bank b.toNat).infoErase = false → exec (.infoRowEraseDone b) s = .next s) ∧
  (∀ (v : Word) (s u : State) (n c : Nat), n = bitsOf v 11 0 → c = bitsOf v 14 12 → s.on F.STO_MBRES_BUSY = false →
    (sectorMoraine n = true → exec (.markBad v) s = .next (s.put F.STO_MBRES_RESULT 1)) ∧
    (sectorMoraine n = false → destageFixed n = false → sectorBad s n = false → (s.bank (n / 256)).ready = true →
      1 ≤ c → c ≤ 4 →
      (s.get F.STO_STAT_GBCOUNT ≥ 1024 → exec (.markBad v) s = .next (s.put F.STO_MBRES_RESULT 2)) ∧
      (s.get F.STO_STAT_GBCOUNT < 1024 → u = s.raiseBit F.STO_MBRES_BUSY →
        exec (.markBad v) s = .next { u with sto := { u.sto with mbad := some (n, c) } }))) ∧
  (∀ (v : Word) (s : State), s.on F.STO_MBRES_BUSY = true → exec (.markBad v) s = .next s) ∧
  (∀ (ok : Bool) (s : State) (n c : Nat), s.sto.mbad = some (n, c) → s.regsWf = true → s.get F.STO_STAT_GBCOUNT < 1024 →
    ∃ t : State, exec (.markBadDone ok) s = .next t ∧ t.sto.mbad = none ∧
    t.get F.STO_STAT_GBCOUNT = s.get F.STO_STAT_GBCOUNT + 1 ∧ t.get F.STO_MBRES_RESULT = (if ok then 0 else 3)) ∧
  (∀ (v : Word) (s : State), s.on F.STO_WPROT_LOCK = false → exec (.wprotWrite .sec v) s =
    .next ((s.put F.STO_WPROT_PROT (bitsOf v 5 0)).put F.STO_WPROT_LOCK (bitsOf v 31 31))) ∧
  (∀ (m : Master) (v : Word) (s : State), gated s m = false → m ≠ .sec ∨ s.on F.STO_WPROT_LOCK = true → exec (.wprotWrite m v) s = .next s) ∧
  (∀ (b : BitVec 4) (s : State), s.bit F.STO_BPD_REQ b.toNat = true → (s.bank b.toNat).prog = none →
    (s.bank b.toNat).erase = none → (s.bank b.toNat).infoErase = false → b ≠ 2 → b ≠ 3 →
    exec (.bankPowerDown b false) s = .next (s.setIn F.STO_BPDS_DOWN b.toNat)) ∧
  (∀ (b : BitVec 4) (x : Bool) (s : State), b = 2 ∨ b = 3 → exec (.bankPowerDown b x) s = .next s)

/-- The array and every other memory hold what they held after any store by a core into the array window or the page-
program window, whatever its width and value: a program acts when it ends, and a refused command changes nothing in
the array (R169, R171, R172, R176). The frame of these rows: beside the STO block only MOR_STAT may
change, and SST_HSQ of a core that runs gated, whose store is held (R125).
(07_store_die_flash.md) -/
def Obligations.StoreWindowsChangeNoArrayByte : Prop :=
  ∀ (m : Master) (a : BitVec 28) (w : Nat) (v : Word) (s t : State), s.sto.chFault = [] → s.regsWf = true →
    (exec (.sequenceCycle (.core m) a w v) s = .next t ∨ exec (.pageWindowStore (.core m) a w v) s = .next t) →
    t.store = s.store ∧ t.buf = s.buf ∧ t.sram = s.sram ∧ t.pending = s.pending ∧ t.out = s.out ∧
    ∀ k, inBlock 0x4000F000 k = false → k ≠ R.MOR_STAT →
      (∀ c : Nat, c < 3 → k ≠ (F.SST_HSQ_COUNT c).reg) → t.rd k = s.rd k

/-- With the sequencer released, running and within WDLIM, the word at PC takes its actions once and goes where its SEQ
code says, with its condition as it stood before them (R195, Table 8.2); a waiting word goes on when its condition holds, and else
waits on; a full or empty return stack and an illegal code force a halt after the word's actions, and so does the watchdog at
WDLIM (R197); a preamp frame is shifted out, at balls that are not parked, and queued frames are held eight deep (R198); a burst
window that runs out between words with a conversion waiting and an armed group incomplete is a BURST miss (R230). One word takes
one cycle (R193): `n` counts only from a halt to the first word (`wordCycles`), and over a wait. (08_control_stores.md) -/
def Obligations.WedgeSequencerWordsComplete : Prop :=
  (∀ (n : Nat) (f : Captures) (s u a : State) (w : BitVec 128) (pc : Nat), wsqRuns s = true → w = curWord s → pc = s.get F.WSQ_PC_PC →
    u = (s.wsqTime (wordCycles s n) f).wsqCycles 1 → a = u.wsqActions w →
    (wSeq w = 0 → exec (.wsqCont n f) s = .next ((a.wsqGoto (pc + 1)).wsqStat).chSettle) ∧
    (wSeq w = 1 → exec (.wsqJump n f) s = .next ((a.wsqGoto (wNext w)).wsqStat).chSettle) ∧
    (wSeq w = 2 → exec (.wsqBranch n f) s =
      .next ((a.wsqGoto (if wCond u w then wNext w else pc + 1)).wsqStat).chSettle) ∧
    (wSeq w = 3 → exec (.wsqWait n f) s = .next ((if wCond u w then a.wsqGoto (pc + 1)
      else { a with wsq := { a.wsq with waiting := true } }).wsqStat).chSettle) ∧
    (wSeq w = 4 → s.wsq.stack.length < 4 → exec (.wsqCall n f) s = .next ((({ a with
      wsq := { a.wsq with stack := (pc + 1) % 16384 :: a.wsq.stack } } : State).wsqGoto (wNext w)).wsqStat).chSettle) ∧
    (wSeq w = 5 → s.wsq.stack ≠ [] → exec (.wsqRet n f) s = .next ((({ a with
      wsq := { a.wsq with stack := a.wsq.stack.drop 1 } } : State).wsqGoto (a.wsq.stack.headD 0)).wsqStat).chSettle) ∧
    (wSeq w = 6 → exec (.wsqDispatch n f) s =
      .next ((a.wsqGoto ((wNext w + a.get F.WSQ_ARG_ARG % 32) % 16384)).wsqStat).chSettle) ∧
    (wSeq w = 7 → exec (.wsqHalt n f) s = .next (((a.put F.WSQ_PC_RSM (wNext w)).wsqHalted).wsqStat).chSettle) ∧
    (8 ≤ wSeq w → exec (.wsqIllegal n f) s = .next ((a.wsqForced false).chSettle)) ∧
    (wSeq w = 4 → 4 ≤ s.wsq.stack.length → exec (.wsqCall n f) s = .next ((a.wsqForced false).chSettle)) ∧
    (wSeq w = 5 → s.wsq.stack = [] → exec (.wsqRet n f) s = .next ((a.wsqForced false).chSettle))) ∧
  (∀ (n : Nat) (f : Captures) (s u : State), wsqWaits s n = true → u = (s.wsqTime n f).wsqCycles n →
    (wCond u (curWord u) = true → exec (.wsqWaitSatisfied n f) s = .next (({ u with
      wsq := { u.wsq with waiting := false } } : State).wsqGoto (s.get F.WSQ_PC_PC + 1))) ∧
    (wCond u (curWord u) = false → exec (.wsqWaitSatisfied n f) s = .next s)) ∧
  (∀ (n : Nat) (f : Captures) (s : State), wsqGoing s = true →
    (s.wsq.waiting = true → s.get F.WSQ_CTL_WDLIM ≤ s.wsq.wd + n →
      exec (.wsqWatchdog n f) s = .next ((((s.wsqTime n f).wsqCycles n).wsqForced true).chSettle)) ∧
    (s.wsq.waiting = false → s.get F.WSQ_CTL_WDLIM ≤ s.wsq.wd + 1 →
      exec (.wsqWatchdog n f) s = .next ((((s.wsqTime (wordCycles s n) f).wsqCycles 1).wsqForced true).chSettle))) ∧
  (∀ (d : BitVec 16) (s : State), domainRuns s 11 = true →
    (s.wsq.busy0 = some d → exec (.preampFrameDone false) s =
      .next { (if serialBalls s false then s.emit (.preamp false d) else s) with wsq := { s.wsq with busy0 := none } }) ∧
    (s.wsq.busy1 = some d → exec (.preampFrameDone true) s =
      .next { (if serialBalls s true then s.emit (.preamp true d) else s) with wsq := { s.wsq with busy1 := none } })) ∧
  (∀ (m : Master) (v : Word) (s : State), gated s m = false →
    (8 ≤ s.wsq.paq.length → exec (.wsqPaqWrite m v) s = .next (s.raiseBit F.WSQ_FLAG_PAQFULL)) ∧
    (s.wsq.paq.length < 8 → exec (.wsqPaqWrite m v) s = .next ({ s with wsq := { s.wsq with
      paq := s.wsq.paq ++ [(v.getLsbD 16, BitVec.ofNat 16 (bitsOf v 15 0))] } } : State).wsqStat)) ∧
  (∀ (n : Nat) (f : Captures) (s : State), s.wsq.win ≠ 0 → s.wsq.win ≤ n → s.srv.conv = true → groupsDone (s.capture f) = false →
    (wsqGoing s = false → exec (.burstWindowExpiry n f) s = .next (((((s.capture f).onWsq fun q => { q with
      win := q.win - n }).onSrv fun v => { v with conv := false }).missCur 3).chSettle)) ∧
    (wsqWaits s n = true → exec (.burstWindowExpiry n f) s = .next ((((((s.capture f).onWsq fun q => { q with
      win := q.win - n }).onSrv fun v => { v with conv := false }).missCur 3).wsqCycles n).chSettle)))

/-- With the Power die out of reset and no wait in progress, the word fetched at PC (a patch word where a match register
names it, R203) writes GD and goes on, changes the flow, reaches a port, waits, or takes the recovery entry (R202,
R204, Tables 8.5 and 8.6). The rounding of MULQ is open: the result is one of the two integers nearest the quotient,
saturated. (08_control_stores.md) -/
def Obligations.MotorSequencerInstructionsComplete : Prop :=
  (∀ (m w : Word) (x pc : Nat) (s : State) (d a i : BitVec 16), s.pd.reset = false → s.msq.waiting = none →
    msqFetch s.msq m = some (w, x) → pc = (x + 1) % 65536 → d = s.msq.g (mGd w) → a = s.msq.g (mGa w) →
    i = BitVec.ofNat 16 w.toNat →
    (mOp w = 0 → exec (.msqNop m) s = .next { s with msq := { s.msq with pc := pc } }) ∧
    (mOp w = 1 → exec (.msqLdi m) s = .next { s with msq := { s.msq.setG (mGd w) i with pc := pc } }) ∧
    (mOp w = 2 → exec (.msqAddi m) s = .next { s with msq := { s.msq.setG (mGd w) (a + i) with pc := pc } }) ∧
    (mOp w = 3 → exec (.msqAdd m) s = .next { s with msq := { s.msq.setG (mGd w) (d + a) with pc := pc } }) ∧
    (mOp w = 4 → exec (.msqSub m) s = .next { s with msq := { s.msq.setG (mGd w) (d - a) with pc := pc } }) ∧
    (mOp w = 5 → exec (.msqAndi m) s = .next { s with msq := { s.msq.setG (mGd w) (a &&& i) with pc := pc } }) ∧
    (mOp w = 6 → exec (.msqOri m) s = .next { s with msq := { s.msq.setG (mGd w) (a ||| i) with pc := pc } }) ∧
    (mOp w = 7 → exec (.msqSra m) s =
      .next { s with msq := { s.msq.setG (mGd w) (a.sshiftRight (i.toNat % 16)) with pc := pc } }) ∧
    (mOp w = 8 → ∃ (v : BitVec 16) (t : State), exec (.msqMulq m) s = .next t ∧
      t.msq = { s.msq.setG (mGd w) v with pc := pc } ∧
      (if d.toInt * a.toInt = 1073741824 then v = 0x7FFF
        else v.toInt * 32768 - d.toInt * a.toInt < 32768 ∧ d.toInt * a.toInt - v.toInt * 32768 < 32768)) ∧
    (mOp w = 9 → ∀ p : BitVec 16, i.toNat % 256 ≠ 0x11 →
      exec (.msqIn m p) s = .next { s with msq := { s.msq.setG (mGd w) (portRead s.pd (i.toNat % 256) p) with pc := pc } }) ∧
    (mOp w = 10 → i.toNat % 256 ≠ 0x30 → exec (.msqOut m) s =
      .next { s with pd := portWrite s.pd (i.toNat % 256) a, msq := { s.msq with pc := pc } }) ∧
    (mOp w = 10 → i.toNat % 256 = 0x30 → exec (.msqOut m) s =
      .next (({ s with msq := { s.msq with pc := pc } } : State).pdFault (a.toNat % 256) (a.toNat / 256))) ∧
    (mOp w = 11 → exec (.msqBr m) s =
      .next { s with msq := { s.msq with pc := if msqCond (mCc w) a then i.toNat % 16384 else pc } }) ∧
    (mOp w = 12 → s.msq.stack.length < 4 → exec (.msqCall m) s =
      .next { s with msq := { s.msq with stack := pc :: s.msq.stack, pc := i.toNat % 16384 } }) ∧
    (mOp w = 13 → ∀ (r : Nat) (l : List Nat), s.msq.stack = r :: l →
      exec (.msqRet m) s = .next { s with msq := { s.msq with stack := l, pc := r } }) ∧
    (mOp w = 14 → exec (.msqWait m) s =
      .next ({ s with msq := { s.msq with pc := pc, waiting := some (i.toNat % 256) } } : State).patchActivate) ∧
    (15 ≤ mOp w → exec (.msqIllegal m) s = .next s.msqRecover)) ∧
  (∀ (m : Word) (s : State), s.pd.reset = false → s.msq.waiting = none → msqFetch s.msq m = none →
    exec (.msqIllegal m) s = .next s.msqRecover) ∧
  (∀ (e : BitVec 8) (k : Nat) (s : State), s.pd.reset = false → s.msq.waiting = some k → BitVec.ofNat 8 k &&& e ≠ 0 →
    exec (.msqWaitEvent e) s = .next { s with msq := { s.msq with waiting := none } })

/-- Out of reset, the Power die notes UNPATCH, lays PATCH_DATA into the image, and answers PATCH_END by the image's PCRC
(R207), each as it leaves the link; a mismatch makes the SST send again, three times in all, and then the patch is not applied.
(08_control_stores.md) -/
def Obligations.MotorPatchCommandsComplete : Prop :=
  (∀ (s u : State), s.pd.reset = false → u = { s with link := s.link.takeDown .unpatch } →
    exec .unpatch s = .next { u with msq := { u.msq with unpatch := true } }) ∧
  (∀ (k : BitVec 8) (b : List Byte) (s u : State), s.pd.reset = false → k.toNat < 18 → b.length = 19 →
    u = { s with link := s.link.takeDown (.patchData k.toNat b) } →
    exec (.patchData k b) s = .next { u with msq := { u.msq with image := overlay u.msq.image (19 * k.toNat) (slice b 0 19) } }) ∧
  (∀ (s u : State), s.pd.reset = false → u = { s with link := s.link.takeDown .patchEnd } →
    (pcrcGood s.msq.image = true → exec .patchEnd s = .next (({ u with
      msq := { u.msq with shadow := some (patchOf s.msq.image), image := [] } } : State).pdSend (.patchAck true))) ∧
    (pcrcGood s.msq.image = false → exec .patchEnd s = .next (u.pdSend (.patchAck false)))) ∧
  (∀ (g : Bool) (s u : State), u = { s with link := s.link.takeUp (.patchAck g) } →
    (g = true ∨ s.get F.MSQ_STAT_STATE ≠ 1 → exec (.patchAck g) s = .next u) ∧
    (g = false → s.get F.MSQ_STAT_STATE = 1 → s.msq.sends < 3 →
      exec (.patchAck g) s = .next ((u.inc F.MSQ_CNT_XFER_CNT).patchSend)) ∧
    (g = false → s.get F.MSQ_STAT_STATE = 1 → 3 ≤ s.msq.sends →
      exec (.patchAck g) s = .next ((u.inc F.MSQ_CNT_XFER_CNT).patchRefused 4)))

/-- A burst end starts the converter (R215); a conversion ends as a valid result or as a miss with the first cause that
applies (R216, R224, R230), in a window that has had no result; a miss counts once for each window (R231). When POS is asserted SV
enters its handler where POS is enabled, and ENTLATE counts where SV is not ready for it (R220, R221); what SV's registers hold is
the event's operand (log entry 107). Shock and preamp faults raise WUS (R226, R227), PA1's only with two preamps. A write of
SRV_CTL by a core that does not run gated clears ONTRK and stores MODE 3 as 0 and MISSLIM 0 as 1 (R225). (09_servo.md) -/
def Obligations.ServoCommandsComplete : Prop :=
  (∀ (f : Captures) (s u : State), u = s.capture f →
    (u.srv.conv = true → groupsDone u = true →
      exec (.burstEnd f) s = .next { u with srv := { u.srv with conv := false, converting := true } }) ∧
    (u.srv.conv = false ∨ groupsDone u = false → exec (.burstEnd f) s = .next u)) ∧
  (∀ (f : SrvLines) (s v u : State) (w : SrvWin) (r : Conv), s.srv.converting = true → v = (s.shockLevel f.shock).paLevel f.paFault →
    v.srv.due = true → u = { v with
      srv := { v.srv with converting := false, conv := false, armed := 0, samArmed := false, tidArmed := false } } → w = curWin v →
    r = convert (v.get (F.SRV_RAW_T 0)) (v.get (F.SRV_RAW_T 1)) (v.get (F.SRV_RAW_T 2)) (v.get (F.SRV_RAW_T 3))
      (v.get F.SRV_TID_N) (v.get (F.SRV_HEAD_PGAIN w.head)) →
    (convCause (tidGood v) (v.get F.SRV_TID_N) r = 0 →
      exec (.positionConversionDone f) s = .next (u.srvValid w r).chSettle) ∧
    (∀ c : Nat, c ≠ 0 → convCause (tidGood v) (v.get F.SRV_TID_N) r = c → exec (.positionConversionDone f) s =
      .next ((({ u with srv := { u.srv with due := false } } : State).srvMiss c w).chSettle))) ∧
  (∀ (c : BitVec 4) (s : State), 1 ≤ c.toNat → c.toNat ≤ 11 →
    (s.srv.due = true → exec (.missedWedge c) s =
      .next ((({ s with srv := { s.srv with due := false } } : State).srvMiss c.toNat (curWin s)).chSettle)) ∧
    (s.srv.due = false → exec (.missedWedge c) s = .next s.chSettle)) ∧
  (∀ (f : SvFacts) (s u w : State), s.on F.SRV_EVT_POS = true →
    u = { s with srv := { s.srv with sv := { s.srv.sv with
      mie := f.mie, mieReg := f.mieReg, mtvec := f.mtvec, pc := f.pc, busy := f.busy } } } →
    w = (if posReady f then u else (u.raiseBit F.SRV_EVT_ENTLATE).inc F.SRV_CNT_ENTLATE_CNT) →
    (s.bit F.SRV_IEN_SRC 0 = true → f.mie = true → f.mieReg.getLsbD 16 = true → exec (.svPosEntry f) s =
      .next (({ w with srv := { w.srv with sv := { w.srv.sv with
        mpie := true, mie := false, mepc := if f.divide then f.pc else f.next, mcause := 0x80000010,
        pc := svVector f.mtvec 16, busy := false } } } : State).emit (.coreIrq .sv 16))) ∧
    (s.bit F.SRV_IEN_SRC 0 = false ∨ f.mie = false ∨ f.mieReg.getLsbD 16 = false → exec (.svPosEntry f) s = .next w)) ∧
  (∀ (n : BitVec 1) (s u : State), connected s (if n = 0 then .shk0 else .shk1) = true →
    u = { s with srv := { s.srv with shkHigh := true, shkLeft := s.get F.SRV_CTL_SHKHOLD } } → exec (.shockEvent n) s =
      .next ((((u.raiseBit F.SRV_EVT_SHK).inc F.SRV_CNT2_SHK_CNT).wusRise 1).chSettle)) ∧
  (∀ (n : BitVec 1) (s : State), connected s (if n = 0 then .shk0 else .shk1) = false →
    exec (.shockEvent n) s = .next s) ∧
  (∀ (n : BitVec 1) (s u : State), n = 0 ∨ s.on F.PMX_STRAP_PA_CNT = true →
    u = (if s.on F.WSQ_STAT_RUN then s.raiseBit F.WSQ_FLAG_PAFLT else s) → exec (.preampFault n) s =
      .next (((({ u with srv := { u.srv with paFault := true } } : State).chnCloseGate 3).wusRise 1).chSettle)) ∧
  (∀ s : State, s.on F.PMX_STRAP_PA_CNT = false → exec (.preampFault 1) s = .next s) ∧
  (∀ (m : Master) (v : Word) (s : State), gated s m = false → s.regsWf = true → bitsOf v 1 0 = 2 → ∃ t : State,
    exec (.srvModeWrite m v) s = .next t ∧ t.get F.SRV_CTL_MODE = 2 ∧ t.on F.SRV_STAT_ONTRK = false ∧
    t.get F.SRV_CTL_MISSLIM = Nat.max (bitsOf v 15 8) 1 ∧ t.srv.settle = 0) ∧
  (∀ (m : Master) (v : Word) (s u : State), gated s m = false → u = ((((s.put F.SRV_CTL_MODE
    (if bitsOf v 1 0 = 3 then 0 else bitsOf v 1 0)).put F.SRV_CTL_TRCEN (bitsOf v 4 4)).put F.SRV_CTL_MISSLIM
      (Nat.max (bitsOf v 15 8) 1)).put F.SRV_CTL_SHKHOLD (bitsOf v 23 16)).clr F.SRV_STAT_ONTRK →
    (bitsOf v 1 0 = 2 → exec (.srvModeWrite m v) s = .next { u with srv := { u.srv with settle := 0 } }) ∧
    (bitsOf v 1 0 ≠ 2 → exec (.srvModeWrite m v) s =
      .next ((({ u with srv := { u.srv with settle := 0 } } : State).wusRise 1).chSettle)))

/-- The Power die forms an upstream word, with its SEQ, currents and faults out of reset; one that arrives with a good CRC sets
RSEQ, FAULT and the sense values and ends the wait for its SEQ, and a bad one leaves the SRV as it was (R62, R223, R250). SV's write
of SRV_CMD_HI commits the next SEQ, counts a replaced commit and clears POS, and the write of another master that does not run
gated does nothing (R222, R235); the sent commit that waited longest without its SEQ is CMDLOST. A trace record is emitted on the
trace signals that are on balls, or dropped while another shifts (R234). A servo word that arrives at the Power die is
applied in LOADED with VALID and a good CRC, outside the die's reset, and changes nothing otherwise, but that a bad CRC is counted
(R64, R239). (09_servo.md) -/
def Obligations.ServoLinkCommandsComplete : Prop :=
  (∀ (f : Upstream) (s : State) (w : BitVec 56), w = upWord s.pd f →
    s.pd.reset = false → f.fresh = true → s.pd.act ≠ .fullpark → w.toNat % 2 = 1 ∧ w.toNat / 2 % 8 = s.pd.seq % 8 ∧
      w.toNat / 2 ^ 4 % 65536 = f.vcm.toNat ∧ w.toNat / 2 ^ 20 % 4096 = s.pd.ma0.toNat ∧ w.toNat / 2 ^ 32 % 4096 = s.pd.ma1.toNat ∧
      w.toNat / 2 ^ 44 % 16 = faultBits s.pd f.persists ∧ crc8 48 w.toNat = w.toNat / 2 ^ 48) ∧
  (∀ (f : Upstream) (s u : State) (w : BitVec 56), w = upWord s.pd f ^^^ f.flips →
    u = { s with pd := { s.pd with upLast := upWord s.pd f, flt := s.pd.flt && f.persists } } →
    (crc8 48 w.toNat = w.toNat / 2 ^ 48 → exec (.upstreamServoWord f) s = .next ((((((u.put F.SRV_LNK_RSEQ (w.toNat / 2 % 8)).put
      F.SRV_LNK_FAULT (w.toNat / 2 ^ 44)).put F.SRV_SENSE_LO_VCMS (w.toNat / 2 ^ 4)).put F.SRV_SENSE_LO_MA0S (w.toNat / 2 ^ 20)).put
        F.SRV_SENSE_HI_MA1S (w.toNat / 2 ^ 32)).onSrv fun v => { v with sent := v.sent.erase (w.toNat / 2 % 8) })) ∧
    (crc8 48 w.toNat ≠ w.toNat / 2 ^ 48 → exec (.upstreamServoWord f) s = .next u)) ∧
  (∀ (v : Word) (n : Nat) (s : State), s.regsWf = true → ∃ t : State, exec (.servoCommit .sv v n) s = .next t ∧
    t.get F.SRV_LNK_CSEQ = (s.get F.SRV_LNK_CSEQ + 1) % 8 ∧ t.get F.SRV_CMD_HI_MA1 = bitsOf v 11 0 ∧
    t.on F.SRV_EVT_POS = false ∧ t.srv.slot = some (servoWord ((s.get F.SRV_LNK_CSEQ + 1) % 8) (s.get F.SRV_CMD_LO_VCM)
      (s.get F.SRV_CMD_LO_MA0) (bitsOf v 11 0)) ∧
    t.get F.SRV_CNT2_SUPER_CNT = (if s.srv.slot.isSome then Nat.min (s.get F.SRV_CNT2_SUPER_CNT + 1) 255
      else s.get F.SRV_CNT2_SUPER_CNT) ∧
    (s.srv.timed = true → t.get F.SRV_LAT_LAST = Nat.min n 2047)) ∧
  (∀ (m : Master) (v : Word) (n : Nat) (s : State), m ≠ .sv → gated s m = false → exec (.servoCommit m v n) s = .next s) ∧
  (∀ (q : Nat) (l : List Nat) (s : State), s.srv.sent = q :: l → exec .cmdlost s = .next ((({ s with
    srv := { s.srv with sent := l } } : State).raiseBit F.SRV_EVT_CMDLOST).inc F.SRV_CNT_CMDLOST_CNT)) ∧
  (∀ s : State, s.srv.sent = [] → exec .cmdlost s = .next s) ∧
  (∀ (r : BitVec 64) (s u : State), s.srv.trace = some r → u = { s with srv := { s.srv with trace := none } } →
    (s.on F.SRV_CTL_TRCEN = true →
      exec (.traceRecord false) s = .next (u.emit (.trace (connected s (.trace 0))
        (((List.range 4).filter fun j => connected s (.trace (j + 1))).map fun j =>
          (j, (List.range 16).map fun k => r.getLsbD (4 * k + j))))) ∧
      exec (.traceRecord true) s = .next (u.inc F.SRV_CNT2_TRCDROP_CNT)) ∧
    (s.on F.SRV_CTL_TRCEN = false → ∀ b : Bool, exec (.traceRecord b) s = .next u)) ∧
  (∀ (w : BitVec 56) (s : State), s.pd.reset = false → crc8 48 w.toNat = w.toNat / 2 ^ 48 → w.toNat % 2 = 1 → s.pd.act = .loaded →
    s.pd.mahz0 = false → s.pd.mahz1 = false → exec (.servoWordReceived w) s = .next { s with
      pd := { s.pd with seq := w.toNat / 2 % 8, vcm := w.extractLsb' 4 16, ma0 := w.extractLsb' 20 12, ma1 := w.extractLsb' 32 12 } }) ∧
  (∀ (w : BitVec 56) (s : State), s.pd.reset = true ∨ (crc8 48 w.toNat = w.toNat / 2 ^ 48 ∧ (w.toNat % 2 = 0 ∨ s.pd.act ≠ .loaded)) →
    exec (.servoWordReceived w) s = .next s) ∧
  (∀ (w : BitVec 56) (s : State), s.pd.reset = false → crc8 48 w.toNat ≠ w.toNat / 2 ^ 48 → exec (.servoWordReceived w) s =
    .next { s with pd := { s.pd with svcrc := Nat.min (s.pd.svcrc + 1) 255 } })

/-- For a head at x / 32,768 of a track from an even track centre n0, the four burst sums of the nominal pattern (R214)
and any decoded track number less than one track away give a valid conversion (R216) whose position is exactly n0 + x
/ 32,768, whichever pair is chosen, at unity gain. (09_servo.md) -/
def Obligations.ConversionRecoversTheWrittenPosition : Prop :=
  ∀ (n0 n x z : Int), n0 % 2 = 0 → -32768 ≤ x → x ≤ 32768 → z = (if 0 ≤ x then x - 32768 else x + 32768) →
    -32768 < n * 32768 - n0 * 32768 - x → n * 32768 - n0 * 32768 - x < 32768 → ∃ r : Conv,
    r = convert (573440 + x) (835584 - x) (1097728 + z) (1359872 - z) n 0x4000 ∧ convCause true n r = 0 ∧
    0 < r.den ∧ r.num * 32768 = (n0 * 32768 + x) * r.den

/-- A received frame moves the receiver's counts by its SYNC, ACK and PCRC, and its die answers in a frame with its own FN, the ACK
that PCRC calls for, and the payload that goes or is repeated (R61, R65); the Logic die counts a bad payload, and a good
one of an unlisted TYPE (R251); a frame that the Power die receives carries the servo slot (R63), and in reset it sends IDLE (R504).
Eight bad frames take the link down, which the Logic die answers with RETREAT and the Power die with a retract (R66, R252); sixteen
good frames bring it up (R252), and 2.0 s without it spin the Power die down. The bit order within a field is the model's reading
(log entry 104). (03_package_dies_pins.md, 10_power_die_motion.md) -/
def Obligations.FinionLinkCommandsComplete : Prop :=
  (∀ (sync hdr : BitVec 8) (pay : BitVec 168) (crc : BitVec 16) (good : Bool) (r : Receiver) (p : Option Packet) (s u : State),
    good = (framePcrc hdr.toNat pay.toNat == crc.toNat) →
    r = receiveFrame (sync == 0xDD) good (hdr.getLsbD 4) (hdr.setWidth 4) s.link.logic → p = r.sends (hdr.getLsbD 4) s.link.down →
    u = { s with link := { s.link with
      logic := r.sent p, down := if hdr.getLsbD 4 then s.link.down.drop 1 else s.link.down } } →
    (good = true → listedType (pay.setWidth 8) = true →
      exec (.finionFrame .logic sync hdr pay crc) s = .next (u.emit (frameOut .logic r p))) ∧
    (good = true → listedType (pay.setWidth 8) = false →
      exec (.finionFrame .logic sync hdr pay crc) s = .next ((u.emit (frameOut .logic r p)).inc F.FLNK_CNT_BADPKT)) ∧
    (good = false → exec (.finionFrame .logic sync hdr pay crc) s = .next ((u.emit (frameOut .logic r p)).inc F.FLNK_CNT_PCRC_CNT))) ∧
  (∀ (sync hdr : BitVec 8) (pay : BitVec 168) (crc : BitVec 16) (r : Receiver) (s u : State),
    r = receiveFrame (sync == 0xDD) (framePcrc hdr.toNat pay.toNat == crc.toNat) (hdr.getLsbD 4) (hdr.setWidth 4) s.link.power →
    (∀ p : Option Packet, s.pd.reset = false → p = r.sends (hdr.getLsbD 4) s.link.up → u = { s with link := { s.link with
      power := r.sent p, up := if hdr.getLsbD 4 then s.link.up.drop 1 else s.link.up } } →
      exec (.finionFrame .power sync hdr pay crc) s = .next (u.emit (frameOut .power r p)).servoSlot) ∧
    (s.pd.reset = true → u = { s with link := { s.link with power := r.sent none } } →
      exec (.finionFrame .power sync hdr pay crc) s = .next (u.emit (frameOut .power r none)).servoSlot)) ∧
  (∀ (fx : RetractFacts) (t : Trans) (s : State), s.link.power.up = true → 8 ≤ s.link.power.badSync ∨ 8 ≤ s.link.power.nack →
    exec (.finionLinkDown .power fx t) s = .next { s with
      link := { s.link with power := { s.link.power with up := false, badSync := 0, nack := 0, good := 0 } },
      pd := retractStart 2 fx { s.pd with vneg := false, vpos := false } }) ∧
  (∀ (fx : RetractFacts) (t : Trans) (s : State), s.link.logic.up = true → 8 ≤ s.link.logic.badSync ∨ 8 ≤ s.link.logic.nack →
    exec (.finionLinkDown .logic fx t) s = .next (((({ s with
      link := { s.link with logic := { s.link.logic with up := false, badSync := 0, nack := 0, good := 0 } } } : State).put
      F.FLNK_STAT_UP 0).put F.FLNK_STAT_LDOWN 1).inc F.FLNK_CNT_LDOWN_CNT |>.retreatTrigger 5 t)) ∧
  (∀ s : State, s.link.logic.up = false → 16 ≤ s.link.logic.good →
    exec (.finionLinkUp .logic) s =
      .next (({ s with link := { s.link with logic := { s.link.logic with up := true } } } : State).put F.FLNK_STAT_UP 1)) ∧
  (∀ s : State, s.link.power.up = false → 16 ≤ s.link.power.good →
    exec (.finionLinkUp .power) s = .next { s with link := { s.link with power := { s.link.power with up := true } } }) ∧
  (∀ s : State, (s.link.power.up = false → s.pd.reset = false → exec .linkDownSpinDown s = .next { s with pd := spinDown s.pd }) ∧
    (s.link.power.up = true ∨ s.pd.reset = true → exec .linkDownSpinDown s = .next s)) ∧
  (∀ s : State, exec .idle s = .next s)

/-- A servo word whose CRC fails leaves the VCM and microactuator commands as they were, counts the error, and changes
nothing outside the Power die, so nothing is sent again. (R64) -/
def Obligations.BadServoWordIsDiscarded : Prop :=
  ∀ (w : BitVec 56) (s : State), s.pd.reset = false → crc8 48 w.toNat ≠ w.toNat / 2 ^ 48 →
    exec (.servoWordReceived w) s = .next { s with pd := { s.pd with svcrc := Nat.min (s.pd.svcrc + 1) 255 } }

/-- While a core runs gated, a command that stands for its write of a register is held: the store joins the core's queue with its
address, width and data and nothing else takes effect, or the core stalls where the queue is full; so with its commands to
the Store die's windows (R125, R126, R128). SEC and SV never run gated. (05_secure_start.md) -/
def Obligations.GatedCommandsAreHeld : Prop :=
  (∀ (m : Master) (c a w v : Nat) (s : State), gateIdx m = some c →
    ((hsq s c).length < 1024 → s.hold m c a w v =
      (s.stall m false 0).setHsq c (hsq s c ++ [{ addr := a, width := w, data := v % 256 ^ w }])) ∧
    (1024 ≤ (hsq s c).length → s.hold m c a w v = s.stall m true 0)) ∧
  (∀ s : State, gated s .sec = false ∧ gated s .sv = false) ∧
  (∀ (m : Master) (c : Nat) (s : State), gateIdx m = some c → gated s m = true →
    (∀ (v : Word), exec (.ascArm m v) s = .next (s.hold m c 0x40002020 4 (opWord v 9 8 1).toNat) ∧
      exec (.ascCancel m v) s = .next (s.hold m c 0x40002020 4 (opWord v 9 8 2).toNat) ∧
      exec (.ascRead m v) s = .next (s.hold m c 0x40002020 4 (opWord v 9 8 3).toNat) ∧
      exec (.atbCtlWrite m v) s = .next (s.hold m c R.ATB_CTL 4 v.toNat) ∧
      exec (.mdbaseWrite m v) s = .next (s.hold m c R.DMA_MDBASE 4 v.toNat) ∧
      exec (.lookup m v) s = .next (s.hold m c 0x40007208 4 (opWord v 3 0 1).toNat) ∧
      exec (.lookupAlloc m v) s = .next (s.hold m c 0x40007208 4 (opWord v 3 0 2).toNat) ∧
      exec (.reserve m v) s = .next (s.hold m c 0x40007208 4 (opWord v 3 0 3).toNat) ∧
      exec (.filllock m v) s = .next (s.hold m c 0x40007208 4 (opWord v 3 0 4).toNat) ∧
      exec (.aclean m v) s = .next (s.hold m c 0x40007208 4 (opWord v 3 0 6).toNat) ∧
      exec (.ainval m v) s = .next (s.hold m c 0x40007208 4 (opWord v 3 0 7).toNat) ∧
      exec (.acleaninval m v) s = .next (s.hold m c 0x40007208 4 (opWord v 3 0 8).toNat) ∧
      exec (.adiscard m v) s = .next (s.hold m c 0x40007208 4 (opWord v 3 0 9).toNat) ∧
      exec (.firnCommit m v) s = .next (s.hold m c 0x40007240 4 (opWord v 3 0 1).toNat) ∧
      exec (.fill m v) s = .next (s.hold m c 0x40007240 4 (opWord v 3 0 2).toNat) ∧
      exec (.firnAbort m v) s = .next (s.hold m c 0x40007240 4 (opWord v 3 0 3).toNat) ∧
      exec (.unpin m v) s = .next (s.hold m c 0x40007240 4 (opWord v 3 0 4).toNat) ∧
      exec (.clean m v) s = .next (s.hold m c 0x40007240 4 (opWord v 3 0 5).toNat) ∧
      exec (.inval m v) s = .next (s.hold m c 0x40007240 4 (opWord v 3 0 6).toNat) ∧
      exec (.cleaninval m v) s = .next (s.hold m c 0x40007240 4 (opWord v 3 0 7).toNat) ∧
      exec (.discard m v) s = .next (s.hold m c 0x40007240 4 (opWord v 3 0 8).toNat) ∧
      exec (.rangeClean m v) s = .next (s.hold m c R.FIRN_RG_CMD 4 (opWord v 2 0 1).toNat) ∧
      exec (.rangeInval m v) s = .next (s.hold m c R.FIRN_RG_CMD 4 (opWord v 2 0 2).toNat) ∧
      exec (.rangeCleaninval m v) s = .next (s.hold m c R.FIRN_RG_CMD 4 (opWord v 2 0 3).toNat) ∧
      exec (.rangeDiscard m v) s = .next (s.hold m c R.FIRN_RG_CMD 4 (opWord v 2 0 4).toNat) ∧
      exec (.corniceAlloc m v) s = .next (s.hold m c 0x40007270 4 (opWord v 1 0 1).toNat) ∧
      exec (.corniceRelease m v) s = .next (s.hold m c 0x40007270 4 (opWord v 1 0 2).toNat) ∧
      exec (.corniceStatus m v) s = .next (s.hold m c 0x40007270 4 (opWord v 1 0 3).toNat) ∧
      exec (.mrxPop m v) s = .next (s.hold m c 0x4000C08C 4 v.toNat) ∧
      exec (.mtxSend m v) s = .next (s.hold m c 0x4000C094 4 v.toNat) ∧
      exec (.mgtTake m v) s = .next (s.hold m c 0x4000C008 4 v.toNat) ∧
      exec (.mgtDone m v) s = .next (s.hold m c 0x4000C00C 4 v.toNat) ∧
      exec (.hwordWrite m v) s = .next (s.hold m c R.ASC_CTL 4 (v &&& 0xFFFFFFFD).toNat) ∧
      exec (.ordAck m v) s = .next (s.hold m c R.ORD_ACK 4 v.toNat) ∧
      exec (.uartTxWrite m v) s = .next (s.hold m c R.UART_TX 4 v.toNat) ∧
      exec (.rmeCommit m v) s = .next (s.hold m c 0x40008300 4 (opWord v 1 0 1).toNat) ∧
      exec (.shadowRead m v) s = .next (s.hold m c 0x40008300 4 (opWord v 1 0 2).toNat) ∧
      exec (.srvModeWrite m v) s = .next (s.hold m c R.SRV_CTL 4 v.toNat) ∧
      exec (.keyLock m v) s = .next (s.hold m c 0x4000D080 4 v.toNat) ∧
      exec (.derive m v) s = .next (s.hold m c 0x4000D090 4 v.toNat) ∧
      exec (.keyClear m v) s = .next (s.hold m c 0x4000D090 4 v.toNat) ∧
      exec (.sign m v) s = .next (s.hold m c 0x4000D0C0 4 v.toNat) ∧
      exec (.coreRelease m v) s = .next (s.hold m c 0x4000D040 4 v.toNat) ∧
      exec (.programKeyhash m v) s = .next (s.hold m c 0x4000D800 4 v.toNat) ∧
      exec (.setProduction m v) s = .next (s.hold m c 0x4000D800 4 v.toNat) ∧
      exec (.programTargetRpm m v) s = .next (s.hold m c 0x4000D800 4 v.toNat) ∧
      exec (.wprotWrite m v) s = .next (s.hold m c R.STO_WPROT 4 v.toNat) ∧
      exec (.uqiCpost m v) s = .next (s.hold m c 0x4000B050 4 v.toNat) ∧
      exec (.uqiXcmd m v) s = .next (s.hold m c 0x4000B06C 4 v.toNat) ∧
      exec (.uqiXpop m v) s = .next (s.hold m c 0x4000B078 4 v.toNat) ∧
      exec (.uqiDqpop m v) s = .next (s.hold m c 0x4000B044 4 v.toNat) ∧
      exec (.wsqPaqWrite m v) s = .next (s.hold m c R.WSQ_PAQ 4 v.toNat)) ∧
    exec (.ascFlush m) s = .next (s.hold m c R.ASC_CTL 4 (s.rd R.ASC_CTL ||| 2).toNat) ∧
    exec (.popdone m) s = .next (s.hold m c R.CHN_CMD 4 1) ∧
    exec (.popfail m) s = .next (s.hold m c R.CHN_CMD 4 2) ∧
    exec (.redec m) s = .next (s.hold m c R.CHN_CMD 4 4) ∧
    exec (.release m) s = .next (s.hold m c R.CHN_CMD 4 8) ∧
    exec (.cfglock m) s = .next (s.hold m c R.DMA_CTL 4 (s.rd R.DMA_CTL ||| 2).toNat) ∧
    exec (.metaLookup m) s = .next (s.hold m c 0x40007268 4 1) ∧
    exec (.metaAlloc m) s = .next (s.hold m c 0x40007268 4 2) ∧
    exec (.partitionLock m) s = .next (s.hold m c 0x40007000 4 (s.rd 0x40007000 ||| 0x10000).toNat) ∧
    exec (.morReadGo m) s = .next (s.hold m c 0x4000E050 4 1) ∧
    exec (.ordRespop m) s = .next (s.hold m c 0x40002620 4 1) ∧
    exec (.modeReqDormant m) s = .next (s.hold m c R.PCM_CMD 4 4) ∧
    exec (.pmxCommit m) s = .next (s.hold m c R.PMX_CTL 4 1) ∧
    exec (.uartPop m) s = .next (s.hold m c R.UART_CTL 4 (s.rd R.UART_CTL ||| 0x20000).toNat) ∧
    exec (.wlock m) s = .next (s.hold m c R.RME_CTL 4 1) ∧
    exec (.dready m) s = .next (s.hold m c R.RME_CTL 4 2) ∧
    exec (.isoLock m) s = .next (s.hold m c 0x4000C800 4 1) ∧
    (∀ (t : BitVec 7) (v : Word), exec (.mopCommit m t v) s = .next (s.hold m c (R.MOP0 t.toNat + 12) 4 v.toNat)) ∧
    (∀ (h : BitVec 5) (w : BitVec 3) (v : Word), exec (.headContextWrite m h w v) s = .next (s.hold m c (0x40004200 + 32 * h.toNat + 4 * w.toNat) 4 v.toNat)) ∧
    (∀ (ch : BitVec 4) (v : Word), exec (.chstart m ch v) s = .next (s.hold m c (0x40009104 + 32 * ch.toNat) 4 v.toNat) ∧
      exec (.chcfgWrite m ch v) s = .next (s.hold m c (0x40009100 + 32 * ch.toNat) 4 v.toNat)) ∧
    (∀ (ch : BitVec 4), exec (.channelAbort m ch) s = .next (s.hold m c (0x40009118 + 32 * ch.toNat) 4 1)) ∧
    (∀ (k : BitVec 6), exec (.metaDirty m k) s = .next (s.hold m c 0x40007268 4 (BitVec.ofNat 32 (256 * k.toNat + 3)).toNat) ∧
      exec (.metaClean m k) s = .next (s.hold m c 0x40007268 4 (BitVec.ofNat 32 (256 * k.toNat + 4)).toNat) ∧
      exec (.metaInval m k) s = .next (s.hold m c 0x40007268 4 (BitVec.ofNat 32 (256 * k.toNat + 5)).toNat) ∧
      exec (.metaLock m k) s = .next (s.hold m c 0x40007268 4 (BitVec.ofNat 32 (256 * k.toNat + 6)).toNat) ∧
      exec (.metaUnlock m k) s = .next (s.hold m c 0x40007268 4 (BitVec.ofNat 32 (256 * k.toNat + 7)).toNat)) ∧
    (∀ (cmask : Bool) (p : BitVec 4) (v : Word), exec (.partitionWrite m cmask p v) s = .next (s.hold m c ((if cmask then 0x40007140 else 0x40007100) + 4 * p.toNat) 4 v.toNat)) ∧
    (∀ (v : Word) (present : List (BitVec 8)), exec (.fwEventSubmit m v present) s = .next (s.hold m c 0x4000E040 4 v.toNat)) ∧
    (∀ (v : Word) (errs : List RmeErr), exec (.ordRequest m v errs) s = .next (s.hold m c 0x4000260C 4 v.toNat) ∧
      exec (.windowLookup m v errs) s = .next (s.hold m c 0x40008108 4 (v ||| 1).toNat)) ∧
    (∀ (p : BitVec 4) (v : Word), exec (.ordShareWrite m p v) s = .next (s.hold m c (0x40002180 + 4 * p.toNat) 4 v.toNat) ∧
      exec (.pcfgWrite m p v) s = .next (s.hold m c (0x4000B200 + 4 * p.toNat) 4 v.toNat)) ∧
    (∀ (t : Trans), exec (.modeReqFlow m t) s = .next (s.hold m c R.PCM_CMD 4 2) ∧
      exec (.modeReqDrift m t) s = .next (s.hold m c R.PCM_CMD 4 3) ∧
      exec (.modeReqRetreat m t) s = .next (s.hold m c R.PCM_CMD 4 5)) ∧
    (∀ (us : BitVec 32), exec (.modeReqReboot m us) s = .next (s.hold m c R.PCM_CMD 4 6)) ∧
    (∀ (n : BitVec 5), exec (.pmxPinLock m n) s = .next (s.hold m c (R.PMX_PIN n.toNat) 4 (s.rd (R.PMX_PIN n.toNat) ||| 0x10000).toNat)) ∧
    (∀ (errs : List RmeErr), exec (.defectLookup m errs) s = .next (s.hold m c 0x40008108 4 0)) ∧
    (∀ (v : Word) (cycles : Nat), exec (.servoCommit m v cycles) s = .next (s.hold m c R.SRV_CMD_HI 4 v.toNat)) ∧
    (∀ (a : BitVec 28) (width : Nat) (v : Word), exec (.sequenceCycle (.core m) a width v) s = .next (s.hold m c (0x20000000 + a.toNat) width v.toNat) ∧
      exec (.pageWindowStore (.core m) a width v) s = .next (s.hold m c (0x30000000 + a.toNat) width v.toNat)) ∧
    (∀ (a : BitVec 28), exec (.readArray (.core m) a) s = .next (s.hold m c (0x20000000 + a.toNat / 4 * 4) 4 0x0000C33C) ∧
      exec (.sectorErase (.core m) a) s = .next (s.hold m c (0x20000000 + a.toNat / 4 * 4) 4 0x0000D42B) ∧
      exec (.eraseSuspend (.core m) a) s = .next (s.hold m c (0x20000000 + a.toNat / 4 * 4) 4 0x00009A65) ∧
      exec (.eraseResume (.core m) a) s = .next (s.hold m c (0x20000000 + a.toNat / 4 * 4) 4 0x0000956A)) ∧
    (∀ (b : BitVec 4), exec (.statusRead (.core m) b) s = .next (s.hold m c (bankBase b + keyA) 4 0x0000A15E) ∧
      exec (.clearStatus (.core m) b) s = .next (s.hold m c (bankBase b + keyA) 4 0x0000A35C) ∧
      exec (.infoMode (.core m) b) s = .next (s.hold m c (bankBase b + keyA) 4 0x0000E619)) ∧
    (∀ (b : BitVec 4) (eraseVerify : Bool), exec (.marginRead (.core m) b eraseVerify) s = .next (s.hold m c (bankBase b + keyA) 4 (if eraseVerify then 0x0002B24D else 0x0001B24D : Word).toNat)) ∧
    (∀ (r : BitVec 6) (v : Word), exec (.rpartyWrite m r v) s = .next (s.hold m c (0x4000B100 + 4 * r.toNat) 4 v.toNat)))

/-- Each downstream packet of Table 10.10 that the Power die receives outside its reset takes the effect of Tables 10.2
and 10.3, R241, R244, R249 and R251, and leaves the link (`takeDown`); one that it receives during its reset leaves the link and does
nothing (R504). (10_power_die_motion.md) -/
def Obligations.PowerDiePacketsComplete : Prop :=
  (∀ (target : BitVec 16) (spilim : BitVec 8) (rpm : Nat) (s : State), s.pd.reset = false →
    exec (.speed target spilim rpm) s = .next { s with
      link := s.link.takeDown (.speed target.toNat spilim.toNat),
      pd := speedPacket target.toNat spilim.toNat rpm s.pd }) ∧
  (∀ (e : BitVec 24) (s : State), s.pd.reset = false →
    exec (.spderr e) s = .next { s with
      link := s.link.takeDown (.spderr e.toNat), pd := { s.pd with sperr := e.toNat } }) ∧
  (∀ (t64 : Nat) (s : State) (n : Int), s.on F.FLNK_SPD_LOCK = true → s.get F.ATB_STAT_STATE = 2 → s.get F.FLNK_SPD_TARGET ≠ 0 →
    n = ((t64 : Int) * s.get F.FLNK_SPD_TARGET - 187500000) * 16777216 → -8388608 * 187500000 ≤ n → n ≤ 8388607 * 187500000 →
    ∃ e : Int, e * 187500000 - n < 187500000 ∧ n - e * 187500000 < 187500000 ∧
      exec (.spderrMeasurement t64) s = .next ((s.flnkSend (.spderr (e % 16777216).toNat)).draw).2) ∧
  (∀ (t64 : Nat) (s : State), s.on F.FLNK_SPD_LOCK = false ∨ s.get F.ATB_STAT_STATE ≠ 2 ∨ s.get F.FLNK_SPD_TARGET = 0 →
    exec (.spderrMeasurement t64) s = .next s) ∧
  (∀ s : State, s.pd.reset = false → s.pd.sp = .atSpeed → s.pd.act = .refpark → exec .actLoad s = .next { s with
      link := s.link.takeDown (.act 1),
      pd := { s.pd with act := .moving, moveTo := .loaded, actres := 1, actreq := 1 } }) ∧
  (∀ s : State, s.pd.reset = false → s.pd.act = .loaded ∨ s.pd.act = .hold → exec .actUnload s = .next { s with
      link := s.link.takeDown (.act 2),
      pd := { s.pd with act := .moving, moveTo := .refpark, actres := 1, actreq := 2 } }) ∧
  (∀ s : State, s.pd.reset = false → s.pd.act = .refpark ∨ s.pd.act = .loaded ∨ s.pd.act = .hold →
    exec .actPark s = .next { s with
      link := s.link.takeDown (.act 3),
      pd := { s.pd with act := .moving, moveTo := .fullpark, actres := 1, actreq := 3 } }) ∧
  (∀ (fx : RetractFacts) (s : State), s.pd.reset = false → s.pd.retract = none →
    s.pd.act = .refpark ∨ s.pd.act = .loaded ∨ s.pd.act = .hold ∨ s.pd.act = .moving →
    ∃ r : Retract, r.cause = 1 ∧ r.seen = 2 ∧ r.facts = fx ∧ exec (.actRetract fx) s = .next { s with
      link := s.link.takeDown (.act 4),
      pd := { s.pd with retract := some r, act := .retracting, ma0 := 0, ma1 := 0, actres := 1, actreq := 4 } }) ∧
  (∀ s : State, s.pd.reset = false → s.pd.act = .loaded ∨ s.pd.act = .moving → ∃ t : State, exec .actHoldup s = .next t ∧
    t.pd.act = .hold ∧ t.pd.actres = 1 ∧ t.pd.vcm = 0 ∧ (s.pd.sp ≠ .stopped → t.pd.sp = .holdup)) ∧
  (∀ (l : Nat → LinkState) (s : State), s.pd.reset = false → l = (fun a => s.link.takeDown (.act a)) →
    (inMove s.pd = true → exec .actLoad s = .next { s with link := l 1, pd := { s.pd with actres := 4, actreq := 1 } } ∧
      exec .actUnload s = .next { s with link := l 2, pd := { s.pd with actres := 4, actreq := 2 } } ∧
      exec .actPark s = .next { s with link := l 3, pd := { s.pd with actres := 4, actreq := 3 } }) ∧
    (s.pd.act = .loaded → exec .actLoad s = .next { s with link := l 1, pd := { s.pd with actres := 3, actreq := 1 } }) ∧
    (s.pd.act = .hold → s.pd.sp = .atSpeed →
      exec .actLoad s = .next { s with link := l 1, pd := { s.pd with act := .loaded, actres := 1, actreq := 1 } }) ∧
    (s.pd.act = .fullpark ∨ ((s.pd.act = .refpark ∨ s.pd.act = .hold) ∧ s.pd.sp ≠ .atSpeed) →
      exec .actLoad s = .next { s with link := l 1, pd := { s.pd with actres := 2, actreq := 1 } }) ∧
    (s.pd.act = .refpark → exec .actUnload s = .next { s with link := l 2, pd := { s.pd with actres := 3, actreq := 2 } }) ∧
    (s.pd.act = .fullpark → exec .actUnload s = .next { s with link := l 2, pd := { s.pd with actres := 2, actreq := 2 } } ∧
      exec .actPark s = .next { s with link := l 3, pd := { s.pd with actres := 3, actreq := 3 } } ∧
      (s.pd.retract = none → ∀ fx : RetractFacts,
        exec (.actRetract fx) s = .next { s with link := l 4, pd := { s.pd with actres := 3, actreq := 4 } })) ∧
    (s.pd.act ≠ .loaded → s.pd.act ≠ .moving → s.pd.sp = .stopped →
      exec .actHoldup s = .next { s with link := l 5, pd := { s.pd with actres := 3, actreq := 5 } })) ∧
  (∀ s : State, s.pd.reset = false → s.pd.sp = .atSpeed → exec .psupOn s = .next { s with
      link := s.link.takeDown (.psup true), pd := { s.pd with vneg := true } }) ∧
  (∀ s : State, s.pd.reset = false → s.pd.sp ≠ .atSpeed → exec .psupOn s = .next { s with link := s.link.takeDown (.psup true) }) ∧
  (∀ s : State, s.pd.reset = false → s.pd.vneg = true → exec .preampVposOn s = .next { s with pd := { s.pd with vpos := true } }) ∧
  (∀ s : State, s.pd.reset = true ∨ s.pd.vneg = false → exec .preampVposOn s = .next s) ∧
  (∀ s : State, s.pd.reset = false → exec .psupOff s = .next { s with
      link := s.link.takeDown (.psup false), pd := { s.pd with vneg := false, vpos := false } }) ∧
  (∀ (rdl rfloor vret holdv : BitVec 8) (v : Bool) (s : State), s.pd.reset = false →
    exec (.cfg rdl rfloor vret holdv v) s = .next { s with
      link := s.link.takeDown (.cfg rdl.toNat rfloor.toNat vret.toNat holdv.toNat (if v then 1 else 0)),
      pd := { s.pd with
        rdl := rdl.toNat, rfloor := rfloor.toNat, vret := vret.toNat, holdv := holdv.toNat, vcmrng := if v then 1 else 0 } }) ∧
  (∀ (port : BitVec 8) (value : BitVec 16) (s : State), s.pd.reset = false → 0x40 ≤ port.toNat → port.toNat ≤ 0x7F →
    exec (.pwr port value) s = .next { s with
      link := s.link.takeDown (.pwr port.toNat value.toNat),
      pd := { s.pd with ports := tabPut s.pd.ports 0 port.toNat value } }) ∧
  (∀ (port : BitVec 8) (value : BitVec 16) (s : State), s.pd.reset = false → port.toNat < 0x40 ∨ 0x7F < port.toNat →
    exec (.pwr port value) s = .next { s with link := s.link.takeDown (.pwr port.toNat value.toNat) }) ∧
  (∀ (port : BitVec 8) (meas : BitVec 16) (s : State), s.pd.reset = false → port ≠ 0x11 →
    exec (.prd port meas) s = .next (({ s with link := s.link.takeDown (.prd port.toNat) } : State).pdSend
      (.pdata port.toNat (portRead s.pd port.toNat meas).toNat))) ∧
  (∀ (meas : BitVec 16) (s u : State), s.pd.reset = false →
    u = ({ s with link := s.link.takeDown (.prd 0x11) } : State).pdSend (.pdata 0x11 (s.pd.actreq % 65536)) →
    exec (.prd 0x11 meas) s = .next { u with pd := { u.pd with actreq := 0 } }) ∧
  (∀ (entry : BitVec 3) (s : State), s.pd.reset = false → exec (.logack entry) s = .next { s with
      link := s.link.takeDown (.logack entry.toNat),
      pd := { s.pd with log := s.pd.log.map fun e => if e.slot = entry.toNat then { e with acked := true } else e } }) ∧
  (∀ s u : State, s.pd.reset = false → u = { s with link := s.link.takeDown .logreq } →
    exec .logreq s = .next { u with link := { u.link with
      up := u.link.up ++ (s.pd.log.filter fun e => !e.acked).map fun e => .log e.slot e.bytes } }) ∧
  (∀ (target : BitVec 16) (spilim port : BitVec 8) (rpm : Nat) (e : BitVec 24) (fx : RetractFacts) (a b c d : BitVec 8) (v : Bool)
    (x : BitVec 16) (n : BitVec 3) (s : State), s.pd.reset = true →
    exec (.speed target spilim rpm) s = .next { s with link := s.link.takeDown (.speed target.toNat spilim.toNat) } ∧
    exec (.spderr e) s = .next { s with link := s.link.takeDown (.spderr e.toNat) } ∧
    exec .actLoad s = .next { s with link := s.link.takeDown (.act 1) } ∧
    exec .actUnload s = .next { s with link := s.link.takeDown (.act 2) } ∧
    exec .actPark s = .next { s with link := s.link.takeDown (.act 3) } ∧
    exec (.actRetract fx) s = .next { s with link := s.link.takeDown (.act 4) } ∧
    exec .actHoldup s = .next { s with link := s.link.takeDown (.act 5) } ∧
    exec .psupOn s = .next { s with link := s.link.takeDown (.psup true) } ∧
    exec .psupOff s = .next { s with link := s.link.takeDown (.psup false) } ∧
    exec (.cfg a b c d v) s = .next { s with link := s.link.takeDown (.cfg a.toNat b.toNat c.toNat d.toNat (if v then 1 else 0)) } ∧
    exec (.pwr port x) s = .next { s with link := s.link.takeDown (.pwr port.toNat x.toNat) } ∧
    exec (.prd port x) s = .next { s with link := s.link.takeDown (.prd port.toNat) } ∧
    exec (.logack n) s = .next { s with link := s.link.takeDown (.logack n.toNat) } ∧
    exec .logreq s = .next { s with link := s.link.takeDown .logreq })

/-- STATUS, FAULT, PDATA, LOG and NOTICE leave the link (`takeUp`), update the FLNK registers, submit their records and send what
R236, R249, R250 and R251 say: LOG waits for the recorder to take its record before LOGACK goes; a FAULT of kind 11 ends a pending
exit from DORMANT (R98); NOTICE outside THAW sends the last SPEED, CFG and PSUP packets and the patch again (R209). A Power die in
reset sends no STATUS (R504). (10_power_die_motion.md) -/
def Obligations.PowerDieReportsComplete : Prop :=
  (∀ (speed16 : BitVec 18) (vhold : BitVec 16) (temp : BitVec 8) (romid : BitVec 16) (s : State), s.regsWf = true →
    s.pd.reset = false → ∃ t : State, exec (.status speed16 vhold temp romid) s = .next t ∧
      t.get F.FLNK_PD_SPST = spCode s.pd.sp ∧ t.get F.FLNK_PD_ACTST = actCode s.pd.act ∧
      t.on F.FLNK_PD_PSUP = (s.pd.vneg && s.pd.vpos) ∧ t.get F.FLNK_PD_ACTRES = s.pd.actres % 8 ∧
      t.get F.FLNK_PDV_SPEED = speed16.toNat ∧ t.get F.FLNK_VH_VHOLD = vhold.toNat ∧ t.get F.FLNK_PDV_TEMP = temp.toNat ∧
      t.get F.MSQ_ROMID_ROMID = romid.toNat ∧
      t.get F.FLNK_CNT_SVCRC_CNT = Nat.min (s.get F.FLNK_CNT_SVCRC_CNT + s.pd.svcrc) 255 ∧ t.pd.svcrc = 0) ∧
  (∀ (speed16 : BitVec 18) (vhold : BitVec 16) (temp : BitVec 8) (romid : BitVec 16) (s : State), s.pd.reset = true →
    exec (.status speed16 vhold temp romid) s = .next s) ∧
  (∀ (kind : BitVec 8) (detail : BitVec 16) (s u : State), u = ((({ s with
      link := s.link.takeUp (.fault kind.toNat detail.toNat) } : State).put F.FLNK_FLT_KIND kind.toNat).put F.FLNK_FLT_DETAIL
        detail.toNat).faultRecord kind.toNat detail.toNat →
    (kind ≠ 11 → exec (.fault kind detail) s = .next u) ∧ (kind = 11 → exec (.fault kind detail) s = .next u.spinUpFailed)) ∧
  (∀ (port : BitVec 8) (value : BitVec 16) (s : State),
    exec (.pdata port value) s = .next ((({ s with link := s.link.takeUp (.pdata port.toNat value.toNat) } : State).put
      F.FLNK_PRES_DATA value.toNat).put F.FLNK_PRES_BUSY 0)) ∧
  (∀ (entry : BitVec 3) (bytes : List Byte) (s u : State), u = { s with link := s.link.takeUp (.log entry.toNat bytes) } →
    exec (.log entry bytes) s = .next ((({ u with link := { u.link with
      logDue := u.link.logDue ++ [(entry.toNat, slice bytes 0 16)] } } : State).event 0x0306 0xFF (slice bytes 0 16)).put
        F.FLNK_STAT_LOGPEND 1)) ∧
  (∀ (romid : BitVec 16) (s u : State), u = ((({ s with
      link := s.link.takeUp (.notice s.pd.romid.toNat), pd := { s.pd with romid := romid } } : State).put
        F.FLNK_STAT_PDRST 1).put F.MSQ_ROMID_ROMID romid.toNat) →
    (s.mode = mTHAW → exec (.notice romid) s = .next u) ∧
    (s.mode ≠ mTHAW → exec (.notice romid) s = .next (((State.each (fun (p : Packet) w => w.flnkSend p)
      (u.link.lastSpeed.toList ++ u.link.lastCfg.toList ++ u.link.lastPsup.toList) u).inc F.MSQ_CNT_RELOAD_CNT).patchResend.faultRecord
        10 0)))

/-- The Power die's reset, planned moves, retract triggers, the end of a retract, spindle events and faults change its
state as R236, Tables 10.2 to 10.8, R246 to R250 and R499 say; in reset it raises no fault (R504). A trigger during a retract adds
its cause, and in FULLPARK only a reset release starts one (`retractStart`). (10_power_die_motion.md) -/
def Obligations.PowerDieEventsComplete : Prop :=
  (∀ s : State, ∃ t : State, exec .pdResetAssert s = .next t ∧ t.pd.reset = true ∧ t.pd.sp = .coast ∧ t.pd.retract = none ∧
    t.pd.vneg = false ∧ t.pd.vpos = false ∧ t.link = s.link) ∧
  (∀ (fx : RetractFacts) (s : State), s.pd.reset = true → ∃ t : State, exec (.pdResetRelease fx) s = .next t ∧
    t.pd.reset = false ∧ t.pd.sp = .coast ∧ t.pd.retract.isSome = true ∧ t.pd.log = s.pd.log ∧ t.pd.opn = s.pd.opn ∧
    t.msq.mats = [] ∧ t.link.up = s.link.up ++ [.notice s.pd.romid.toNat]) ∧
  (∀ (fx : RetractFacts) (s : State), s.pd.reset = false → exec (.pdResetRelease fx) s = .next s) ∧
  (∀ s : State, s.pd.reset = false → s.pd.act = .moving →
    (s.pd.zeroDue = false → s.pd.moveTo ≠ .fullpark → exec .actuatorMoveDone s = .next { s with pd := { s.pd with act := s.pd.moveTo } }) ∧
    (s.pd.zeroDue = false → s.pd.moveTo = .fullpark →
      exec .actuatorMoveDone s = .next { s with pd := { s.pd with act := .fullpark, vcm := 0, ma0 := 0, ma1 := 0 } }) ∧
    (s.pd.zeroDue = true → s.pd.moveTo ≠ .fullpark → exec .actuatorMoveDone s = .next { s with pd := { s.pd with moveTo := .fullpark } }) ∧
    (s.pd.zeroDue = true → s.pd.moveTo = .fullpark → s.pd.sp = .atSpeed → ∃ t : State, exec .actuatorMoveDone s = .next t ∧
      t.pd.act = .fullpark ∧ t.pd.sp = .brake ∧ t.pd.zeroDue = false ∧ t.pd.vcm = 0)) ∧
  (∀ (fx : RetractFacts) (s : State),
    (s.pd.act = .loaded → exec (.servoSilence fx) s = .next { s with pd := retractStart 3 fx s.pd }) ∧
    (s.pd.act ≠ .loaded → exec (.servoSilence fx) s = .next s) ∧
    (s.pd.sp = .holdup → exec (.vholdLow fx) s = .next { s with pd := retractStart 4 fx s.pd }) ∧
    (s.pd.sp ≠ .holdup → exec (.vholdLow fx) s = .next s) ∧
    (fx.rpm < s.pd.rfloor * 100 → exec (.spindleFloor fx) s = .next { s with pd := retractStart 5 fx s.pd }) ∧
    (s.pd.rfloor * 100 ≤ fx.rpm → exec (.spindleFloor fx) s = .next s) ∧
    (s.pd.rdl * 10 ≤ fx.ms → exec (.retractDeadline fx) s = .next { s with pd := retractStart 6 fx s.pd }) ∧
    (fx.ms < s.pd.rdl * 10 → exec (.retractDeadline fx) s = .next s)) ∧
  (∀ (fx : RetractFacts) (s : State), s.pd.reset = false → s.pd.retract = none → s.pd.act = .loaded → ∃ t : State,
    exec (.servoSilence fx) s = .next t ∧ t.pd.act = .retracting ∧ t.pd.ma0 = 0 ∧ t.pd.ma1 = 0 ∧
    ∃ r : Retract, t.pd.retract = some r ∧ r.cause = 3 ∧ r.seen = 8 ∧ r.facts = fx ∧ r.fromPark = false) ∧
  (∀ (r : Retract) (s : State), s.pd.retract = some r →
    exec .retractRampReached s = .next { s with pd := { s.pd with retract := some { r with ramp := true } } } ∧
    (r.timeout = false →
      exec .retractLatchReached s = .next { s with pd := { s.pd with retract := some { r with latch := true } } }) ∧
    (r.latch = false →
      exec .retractLatchTimeout s = .next { s with pd := { s.pd with retract := some { r with timeout := true } } })) ∧
  (∀ (dur : Nat) (r : Retract) (s : State), s.pd.retract = some r → r.latch = true ∨ r.timeout = true → ∃ t : State,
    exec (.retractEnd dur) s = .next t ∧ t.pd.act = .fullpark ∧ t.pd.retract = none ∧ t.pd.vcm = 0 ∧ t.pd.ma0 = 0 ∧ t.pd.ma1 = 0 ∧
    (r.fromPark = false → t.pd.opn = s.pd.opn + 1 ∧ ∃ e ∈ t.pd.log, e.bytes = logBytes r (s.pd.opn + 1) dur ∧ e.acked = false) ∧
    (r.fromPark = true → t.pd.log = s.pd.log)) ∧
  (∀ s : State, s.pd.sp = .start → (∃ t : State, exec .spindleClosedLoop s = .next t ∧ t.pd.sp = .accel) ∧
    (2 ≤ s.pd.attempts → s.pd.reset = false → ∃ t : State, exec .startAttemptTimeout s = .next t ∧ t.pd.sp = .stopped ∧
      t.link.up = s.link.up ++ [.fault 11 0]) ∧
    (s.pd.attempts < 2 → exec .startAttemptTimeout s =
      .next { s with pd := { s.pd with attempts := s.pd.attempts + 1 } })) ∧
  (∀ s : State, s.pd.sp = .accel → ∃ t : State, exec .spindleAtSpeed s = .next t ∧ t.pd.sp = .atSpeed ∧
    (s.pd.act = .fullpark → t.pd.act = .moving ∧ t.pd.moveTo = .refpark) ∧ (s.pd.act ≠ .fullpark → t.pd.act = s.pd.act)) ∧
  (∀ s : State, s.pd.sp = .atSpeed → ∃ t : State, exec .speedError s = .next t ∧ t.pd.sp = .accel) ∧
  (∀ s : State, s.pd.reset = false →
    (s.pd.sp = .coast ∨ (s.pd.sp = .brake ∧ s.pd.stored = 0) → ∃ t : State, exec .spindleStopped s = .next t ∧ t.pd.sp = .stopped) ∧
    (s.pd.sp = .brake → s.pd.stored ≠ 0 → s.pd.shut = false → ∃ t : State, exec .spindleStopped s = .next t ∧ t.pd.sp = .start ∧
      t.pd.target = s.pd.stored)) ∧
  (∀ s : State, s.pd.sp = .holdup ∨ s.pd.sp = .brake → ∃ t : State, exec .holdupBrake s = .next t ∧ t.pd.sp = .brake ∧
    (s.pd.shut = false → t.pd.ports = tabPut s.pd.ports 0 0 3)) ∧
  (∀ (fx : RetractFacts) (s : State), s.pd.reset = false → driving s.pd = true → s.pd.rfloor * 100 ≤ fx.rpm → ∃ t : State,
    exec (.spoc fx) s = .next t ∧ t.pd.sp = .coast ∧ t.pd.act = s.pd.act ∧ t.pd.flt = true ∧ t.link.up = s.link.up ++ [.fault 1 0]) ∧
  (∀ s : State, s.pd.reset = false →
    (∃ t : State, exec .vcmoc s = .next t ∧ t.pd.flt = true ∧ (t.pd.vcm = 0x7FFF ∨ t.pd.vcm = 0x8000) ∧
      t.link.up = s.link.up ++ [.fault 2 0]) ∧
    (∃ t : State, exec (.maflt false) s = .next t ∧ t.pd.mahz0 = true ∧ t.pd.ma0 = 0 ∧ t.link.up = s.link.up ++ [.fault 3 0]) ∧
    (∃ t : State, exec (.maflt true) s = .next t ∧ t.pd.mahz1 = true ∧ t.pd.ma1 = 0 ∧ t.link.up = s.link.up ++ [.fault 3 1]) ∧
    (∃ t : State, exec .psupf s = .next t ∧ t.pd.vneg = false ∧ t.pd.vpos = false ∧ t.pd.flt = true ∧
      t.link.up = s.link.up ++ [.fault 4 0]) ∧
    exec .twarn s = .next { s with link := { s.link with up := s.link.up ++ [.fault 5 0] } }) ∧
  (∀ (fx : RetractFacts) (s : State), s.pd.reset = false → s.pd.act = .loaded → s.pd.retract = none → ∃ t : State,
    exec (.tshut fx) s = .next t ∧ t.pd.act = .retracting ∧ t.pd.shut = true ∧ t.link.up = s.link.up ++ [.fault 6 0]) ∧
  (∀ s : State, driving s.pd = true → s.pd.reset = false → ∃ t : State, exec .sync s = .next t ∧ t.pd.sp = .coast ∧
    t.pd.flt = true ∧ t.link.up = s.link.up ++ [.fault 7 0]) ∧
  (∀ (fx : RetractFacts) (b : Bool) (s : State), s.pd.reset = true → exec (.spoc fx) s = .next s ∧ exec .vcmoc s = .next s ∧
    exec (.maflt b) s = .next s ∧ exec .psupf s = .next s ∧ exec .twarn s = .next s ∧ exec (.tshut fx) s = .next s)

/-- A MOP entry is committed to READY unless the orderer or a running operation owns it, with DBIT held in the track (R264, R282); the
synthesiser takes its new rate code (R258); a sector takes a soft slot or reports OVERRUN (R273); at its last codeword bit the
head's loops have adapted, and an engine takes it, or it is SERVOLAP where the servo gate opened inside it (R269, R280); its decode
is judged (R271), with the iterations held to the cap, a deadline ending it unconverged except for a retry (R273, R274); queue heads are removed; a held slot
is re-decoded or released (R275); a head's context takes writes while no operation uses it (R269). The master is no core that runs gated.
(11_read_write_channel.md) -/
def Obligations.ChannelReadCommandsComplete : Prop :=
  (∀ (m : Master) (t : BitVec 7) (v : Word) (s : State), gated s m = false →
    (s.on F.ASC_CTL_HWORD = true → exec (.mopCommit m t v) s = .next (s.raiseBit F.CHN_FLAG_MOPOWN)) ∧
    (s.on F.ASC_CTL_HWORD = false → mopState s t.toNat = mopACTIVE ∨ mopState s t.toNat = mopPEND →
      exec (.mopCommit m t v) s = .next (s.raiseBit F.CHN_FLAG_MOPBUSY)) ∧
    (s.on F.ASC_CTL_HWORD = false → mopState s t.toNat ≠ mopACTIVE → mopState s t.toNat ≠ mopPEND →
      exec (.mopCommit m t v) s = .next (((s.regWrite (R.MOP3 t.toNat) v).put (F.MOP0_DBIT t.toNat) (dbitHeld s t.toNat)).mopCommit
        t.toNat) ∧
      (s.regsWf = true → ∃ u : State, exec (.mopCommit m t v) s = .next u ∧ mopState u t.toNat = mopREADY ∧
        u.get (F.MOP3_PARTY t.toNat) = bitsOf v 19 16 ∧ u.get (F.MOP3_DMACH t.toNat) = bitsOf v 23 20))) ∧
  (∀ (k : Nat) (s : State), s.chn.slew = some k →
    exec .synthSlewDone s = .next { s with chn := { s.chn with k := k, slew := none } }) ∧
  (∀ (t : BitVec 7) (s u : State) (o : MOp), mediaOp s = some o → o.tag = t.toNat → mopWrite s o.tag = false →
    o.started < mopNsec s o.tag → s.mode = mFLOW →
    (3 ≤ s.chn.slots.length → exec (.sectorStart t) s = .next (s.opFail o.tag 8).chSettle) ∧
    (s.chn.slots.length < 3 → u = { s with chn := { s.chn with
      slots := s.chn.slots ++ [({ tag := o.tag, idx := o.started } : RSec)] } } →
      exec (.sectorStart t) s = .next (u.setOp { o with started := o.started + 1 }).chSettle)) ∧
  (∀ (t : BitVec 7) (samp : Samples) (r : RSec) (s a u : State), s.chn.slots = [r] → r.tag = t.toNat → r.decoding = false →
    r.dec = none → a = s.adapt t.toNat samp →
    u = { a with chn := { a.chn with slots := [{ r with samp := samp, decoding := true }] } } →
    (samp.servoLap = false → exec (.sectorLastBit t samp) s = .next u.chSettle) ∧
    (samp.servoLap = true → exec (.sectorLastBit t samp) s = .next (u.decoded t.toNat r.idx
      { res := 12, iters := 0, user := [], md := [], unsat := 0, erased := 0 }).chSettle)) ∧
  (∀ (t : BitVec 7) (i : BitVec 8) (f : SectorFacts) (s u : State) (r : RSec), s.chn.slots = [r] → r.tag = t.toNat →
    r.idx = i.toNat → r.decoding = true → r.dec = none → u = { s with chn := { s.chn with
      slots := [{ r with dec := some (decodeOf s t.toNat i.toNat f) }] } } →
    exec (.decodeDone t i f) s = .next (State.judge 4 t.toNat u).chSettle) ∧
  (∀ (t : BitVec 7) (i : BitVec 8) (f : SectorFacts) (s u : State) (r : RSec), s.on (F.MOP1_RETRY t.toNat) = false →
    s.chn.slots = [r] → r.tag = t.toNat → r.idx = i.toNat → r.decoding = true → r.dec = none →
    u = { s with chn := { s.chn with
      slots := [{ r with dec := some (decodeOf s t.toNat i.toNat { f with conv := false }) }] } } →
    exec (.decodeDeadline t i f) s = .next (State.judge 4 t.toNat u).chSettle) ∧
  (∀ (m : Master) (s : State), gated s m = false → exec (.popdone m) s = .next { s with chn := { s.chn with doneq := s.chn.doneq.drop 1 } } ∧
    exec (.popfail m) s = .next { s with chn := { s.chn with failq := s.chn.failq.drop 1 } }) ∧
  (∀ (m : Master) (s : State), gated s m = false → s.chn.redec ≠ none → exec (.redec m) s = .next s ∧ exec (.release m) s = .next s) ∧
  (∀ (m : Master) (s u : State) (i : Nat), gated s m = false → s.chn.redec = none → i = s.get F.CHN_RDEC_SLOT →
    (tabGet s.chn.kept none i ≠ none → u = { s with chn := { s.chn with redec := some (i, s.rd R.CHN_RDEC) } } →
      exec (.redec m) s = .next (u.raiseBit F.CHN_RDRES_BUSY)) ∧
    (u = { s with chn := { s.chn with kept := tabPut s.chn.kept none i none } } →
      exec (.release m) s = .next (u.clrIn F.CHN_STAT_RSLOT i))) ∧
  (∀ (f g : SectorFacts) (s u : State) (i h res e : Nat) (w : Word) (r : RetSlot) (d : Decoded), s.chn.redec = some (i, w) →
    tabGet s.chn.kept none i = some r → g = { f with iters := BitVec.ofNat 6 (Nat.min f.iters.toNat
      (if bitsOf w 7 2 = 0 then s.get F.CHN_ITER_GITER else bitsOf w 7 2)) } → h = bitsOf w 20 16 →
    res = sectorResult s h (w.getLsbD 8) r.lba r.party r.samp g → e = erasedBits s h (w.getLsbD 8) true r.samp g →
    d = decodedOf res e g → u = ((((({ s with chn := { s.chn with redec := none } } : State).put F.CHN_RDRES_BUSY 0).put
      F.CHN_RDRES_SRES res).put F.CHN_RDRES_ITER d.iters).put F.CHN_RDRES_UNSAT d.unsat).sresCount res →
    (2 ≤ res → w.getLsbD 9 = false → exec (.redecDone f) s = .next u.chSettle) ∧
    (2 ≤ res → w.getLsbD 9 = true → exec (.redecDone f) s = .next (u.giveUp (bitsOf r.w0 30 26) res d.iters
      (bitsOf r.w1 24 24 + 2 * bitsOf r.w1 26 26 + 4 * bitsOf w 8 8 + 8) ((bitsOf r.w0 25 0 + r.idx * sectorLen) %
        Nat.max (512 * (30 * bitsOf r.w1 12 0 - 96)) 1) r.lba r.party d.unsat d.erased).chSettle) ∧
    (res ≤ 1 → redecTakes s r = true → exec (.redecDone f) s = .next ((u.chPass r.chan r.tag r.idx (some (d.user, d.md))).setPassed
      r.tag (Nat.max (passedOf u r.tag) (r.idx + 1))).chSettle) ∧
    (res ≤ 1 → redecTakes s r = false → exec (.redecDone f) s = .next s.chSettle)) ∧
  (∀ (m : Master) (h : BitVec 5) (w : BitVec 3) (v : Word) (s : State), gated s m = false → h.toNat < 20 →
    (headBusy s h.toNat = true → exec (.headContextWrite m h w v) s = .next (s.raiseBit F.CHN_FLAG_CTXBUSY)) ∧
    (headBusy s h.toNat = false →
      exec (.headContextWrite m h w v) s = .next (s.regWrite (R.HCTX_00 h.toNat + 4 * w.toNat) v)))

/-- A write sector whose bytes are in the FIFO in time opens the gate, and one whose bytes are not ends the operation with
NODATA once the sectors before it are written (R277); where the gate may not open the operation ends with ABORT (R280). At its
last postamble bit the sector's channel bits, laid out as Table 11.2 says, are on the medium with the shifts of the
precompensation (R261, R262, R278, R279), and the channel asks for more. (11_read_write_channel.md) -/
def Obligations.ChannelWriteCommandsComplete : Prop :=
  (∀ (t : BitVec 7) (s : State) (o : MOp), mediaOp s = some o → o.tag = t.toNat → mopWrite s o.tag = true →
    o.started < mopNsec s o.tag → o.started ≤ o.next + 1 → o.nodata = false →
    ((∀ w ∈ fifoOf s (mopChan s o.tag), w.tag = o.tag → w.idx ≠ o.started) →
      (o.started = o.next → exec (.writeDataCheck t) s = .next (s.opFail o.tag 7).chSettle) ∧
      (o.started ≠ o.next → exec (.writeDataCheck t) s = .next (s.setOp { o with nodata := true }).chSettle)) ∧
    (∀ w ∈ fifoOf s (mopChan s o.tag), w.tag = o.tag → w.idx = o.started →
      (gateAllowed s = true → exec (.writeDataCheck t) s = .next (s.setOp { o with started := o.started + 1, gate := true }).chSettle) ∧
      (gateAllowed s = false → exec (.writeDataCheck t) s = .next (s.opFail o.tag 6).chSettle))) ∧
  (∀ (t : BitVec 7) (s u v : State) (o q : MOp) (w : WSec) (c : Nat) (bits : List Bool), mediaOp s = some o → o.tag = t.toNat →
    mopWrite s o.tag = true → o.gate = true → o.next < o.started → c = mopChan s o.tag →
    (fifoOf s c).find? (fun (w : WSec) => w.tag == o.tag && w.idx == o.next) = some w →
    bits = sectorBits (mopLba s o.tag o.next) (sectorInfo s o.tag w) →
    u = (s.emit (.media (s.get (F.MOP0_HEAD o.tag)) (mopDbit s o.tag o.next) bits
      (sectorShifts s o.tag (mopDbit s o.tag o.next) bits))).setFifo c
        ((fifoOf s c).filter fun (x : WSec) => !(x.tag == o.tag && x.idx == o.next)) →
    q = { o with next := o.next + 1, ndone := o.ndone + 1, gate := decide (o.started > o.next + 1) } →
    v = State.chFill none 3 c (u.setOp q) →
    (mopNsec v o.tag ≤ o.next + 1 → exec (.sectorWritten t) s = .next (v.opEnd o.tag 0).chSettle) ∧
    (o.next + 1 < mopNsec v o.tag → o.nodata = true → o.next + 1 = o.started →
      exec (.sectorWritten t) s = .next (v.opFail o.tag 7).chSettle) ∧
    (o.next + 1 < mopNsec v o.tag → o.nodata = false ∨ o.next + 1 ≠ o.started → exec (.sectorWritten t) s = .next v.chSettle))

/-- For every rate code, every data bit of the track lies, counted from its servo field, at least 2K + 48 bits in and at
least 49 bits before the next field, and a later data bit has a later revolution bit (R259, R260).
(11_read_write_channel.md) -/
def Obligations.DataBitsAvoidServoFields : Prop :=
  ∀ (k : Nat) (f : Int) (d e : Nat), 1024 ≤ k → k ≤ 8191 → d < e →
    2 * k + 48 ≤ (revBit k f d - f) % (32 * k) ∧ (revBit k f d - f) % (32 * k) ≤ 32 * k - 49 ∧
    revBit k f d < revBit k f e

/-- For every media LBA and every 4,132 information bytes, and for each of the 119 block rows i and each of its 32 rows a,
the exclusive OR of the codeword bits that row of H names is 0: the information bits at (a + s_m(j)) mod 32 of block
column j wherever (j + 30m) mod 119 = i, and parity bit a of block columns 1,033 + i and, for i above 0, 1,033 + i - 1
(R263). (11_read_write_channel.md) -/
def Obligations.CodewordsSatisfyTheParityCheckMatrix : Prop :=
  ∀ (lba : Nat) (info : List Byte) (i a : Nat) (c : List Bool), info.length = 4132 → i < 119 → a < 32 → c = codeword lba info →
    c.length = 36864 ∧
    ((List.range 1033).foldl (fun x j => (List.range 4).foldl (fun y m =>
      if (j + 30 * m) % 119 = i then y != c.getD (32 * j + (a + (j * (2 * m + 1) + 5 * m) % 32) % 32) false else y) x)
      (c.getD (33056 + 32 * i + a) false != (if 0 < i then c.getD (33056 + 32 * (i - 1) + a) false else false))) = false

/-- A lookup that matches in the party's ways answers HIT and makes the way the most recently used; one that matches
nothing answers MISS without allocating and takes a way, NEW, with allocating intent (R294, R295); RESERVE charges a
unit for each requested sector that is not dirty, or answers QUOTA and charges nothing (R297); FILLLOCK locks the
sectors that are neither valid, dirty nor locked (R298); a lookup past the end of the segment answers BADARG and PIN = 1 pins, up
to 255 (R294); SV's writes are ignored (R296). The master is no core that runs gated. (12_buffer_caches.md) -/
def Obligations.FirnLookupCommandsComplete : Prop :=
  (∀ (m : Master) (v : Word) (s u : State) (p n : Nat) (x : Bool) (r : LookRes), m ≠ .sv → gated s m = false →
    s.on F.FIRN_STAT_ASLEEP = false → p = bitsOf v 7 4 → n = bitsOf v 13 8 + 1 → x = (bitsOf v 14 14 == 1) →
    (s.firnLookup p (lkey s m) n .look x = (r, u) → exec (.lookup m v) s = .next (u.lookResult m r)) ∧
    (s.firnLookup p (lkey s m) n .alloc x = (r, u) → exec (.lookupAlloc m v) s = .next (u.lookResult m r)) ∧
    (s.firnLookup p (lkey s m) n .reserve x = (r, u) → exec (.reserve m v) s = .next (u.lookResult m r)) ∧
    (s.firnLookup p (lkey s m) n .fillLock x = (r, u) → exec (.filllock m v) s = .next (u.lookResult m r))) ∧
  (∀ (m : Master) (v : Word) (s : State), m ≠ .sv → gated s m = false → s.on F.FIRN_STAT_ASLEEP = false →
    64 < lkey s m % 64 + (bitsOf v 13 8 + 1) → exec (.lookup m v) s = .next (s.lookResult m { result := 9 }) ∧
    exec (.lookupAlloc m v) s = .next (s.lookResult m { result := 9 }) ∧ exec (.reserve m v) s = .next (s.lookResult m { result := 9 }) ∧
    exec (.filllock m v) s = .next (s.lookResult m { result := 9 })) ∧
  (∀ (m : Master) (v : Word) (s u : State) (p lba n k : Nat) (g : Seg), m ≠ .sv → gated s m = false →
    s.on F.FIRN_STAT_ASLEEP = false → p = bitsOf v 7 4 → lba = lkey s m → n = bitsOf v 13 8 + 1 → lba % 64 + n ≤ 64 →
    bitsOf v 14 14 = 1 → findTag s p (lba / 64) = some k → (s.tag k).held = some g → u = s.touch k →
    (g.pin ≠ 255 → exec (.lookup m v) s = .next ((u.setTag k { u.tag k with
      held := (u.tag k).held.map fun g => { g with pin := g.pin + 1 } }).lookResult m { result := 0, source := 0, key := some k })) ∧
    (g.pin = 255 → exec (.lookup m v) s = .next (s.lookResult m { result := 7, key := some k }))) ∧
  (∀ (m : Master) (v : Word) (s u w : State) (p lba n k : Nat) (g : Seg) (c : Mask), m ≠ .sv → gated s m = false → s.on F.FIRN_STAT_ASLEEP = false →
    p = bitsOf v 7 4 → lba = lkey s m → n = bitsOf v 13 8 + 1 → lba % 64 + n ≤ 64 → bitsOf v 14 14 = 0 →
    findTag s p (lba / 64) = some k → (s.tag k).held = some g → u = s.touch k → (u.tag k).held = some g →
    exec (.lookup m v) s = .next (u.lookResult m { result := 0, source := 0, key := some k }) ∧
    exec (.lookupAlloc m v) s = .next (u.lookResult m { result := 0, source := 0, key := some k }) ∧
    (s.mode ≠ mRETREAT → noColumn s p = false → c = maskOf (lba % 64) n &&& ~~~g.d → maskOf (lba % 64) n &&& g.l = 0 →
      s.dcount p + popcount c ≤ s.get (F.FIRN_DQ_DQUOTA p) →
      w = (u.setTag k { u.tag k with held := some { g with charge := chargeMask c g.charge } }).addUnits p (popcount c) →
      exec (.reserve m v) s = .next (w.lookResult m { result := 0, source := 0, key := some k, chg := popcount c })) ∧
    (c = maskOf (lba % 64) n &&& ~~~(g.v ||| g.d ||| g.l) →
      w = u.setTag k { u.tag k with held := some { g with l := g.l ||| c } } →
      exec (.filllock m v) s = .next (w.lookResult m { result := 0, source := 0, key := some k, granted := some c }))) ∧
  (∀ (m : Master) (v : Word) (s : State) (p lba n k : Nat), m ≠ .sv → gated s m = false → s.on F.FIRN_STAT_ASLEEP = false →
    p = bitsOf v 7 4 → lba = lkey s m → n = bitsOf v 13 8 + 1 → lba % 64 + n ≤ 64 → bitsOf v 14 14 = 0 →
    findTag s p (lba / 64) = none → findSerac s p (lba / 64) = none → findSlot s p (lba / 64) = none →
    exec (.lookup m v) s = .next (s.lookResult m { result := 1 }) ∧
    (noColumn s p = false → takeWay s p (lba / 64) = some k → exec (.lookupAlloc m v) s =
      .next ((s.allocNew k p (lba / 64)).lookResult m { result := 2, source := 3, key := some k })) ∧
    (noColumn s p = false → takeWay s p (lba / 64) = none →
      exec (.lookupAlloc m v) s = .next ((s.inc F.FIRN_CNT1_FULL_CNT).lookResult m { result := 3 }))) ∧
  (∀ (m : Master) (v : Word) (s : State) (p lba n : Nat), m ≠ .sv → gated s m = false → s.on F.FIRN_STAT_ASLEEP = false →
    p = bitsOf v 7 4 → lba = lkey s m → n = bitsOf v 13 8 + 1 → lba % 64 + n ≤ 64 → s.mode = mRETREAT →
    exec (.reserve m v) s = .next (s.lookResult m { result := 8, key := findTag s p (lba / 64) })) ∧
  (∀ (m : Master) (v : Word) (s : State) (p lba n k : Nat) (g : Seg), m ≠ .sv → gated s m = false → s.on F.FIRN_STAT_ASLEEP = false →
    p = bitsOf v 7 4 → lba = lkey s m → n = bitsOf v 13 8 + 1 → lba % 64 + n ≤ 64 → s.mode ≠ mRETREAT → noColumn s p = false →
    findTag s p (lba / 64) = some k → (s.tag k).held = some g →
    s.get (F.FIRN_DQ_DQUOTA p) < s.dcount p + popcount (maskOf (lba % 64) n &&& ~~~g.d) →
    exec (.reserve m v) s = .next ((s.inc F.FIRN_CNT1_QUOTA_CNT).lookResult m { result := 5, key := some k })) ∧
  (∀ (v : Word) (s : State), exec (.lookup .sv v) s = .next s ∧ exec (.lookupAlloc .sv v) s = .next s ∧
    exec (.reserve .sv v) s = .next s ∧ exec (.filllock .sv v) s = .next s)

/-- A COMMIT of full sectors makes them valid and dirty and one of a partial, invalid sector is refused (R297); FILL and
ABORT clear L (R298); UNPIN takes one pin; CLEAN posts the dirty sectors that are not pending (R299); INVAL,
CLEANINVAL and DISCARD do what R300 says, in a Cornice slot too (R306, R307); a GEN that does not match is STALE, and a full clean
queue CLQFULL; a write-back that ended well makes its sectors clean, a failed one leaves them dirty, and one for another GEN is
counted (R299). The master is no core that runs gated; UNPIN of a count of 0 is the model's reading (log entry 22).
(12_buffer_caches.md) -/
def Obligations.FirnSegmentCommandsComplete : Prop :=
  (∀ (m : Master) (v : Word) (s : State) (k : Nat) (g h : Seg) (du : Int) (pt : Bool) (n : Nat), m ≠ .sv → gated s m = false →
    s.on F.FIRN_STAT_ASLEEP = false → scmdTgt v = false → k = scmdKey v → (s.tag k).gen = scmdGen v → (s.tag k).held = some g →
    (sectorsOf (smask s m)).foldl (fun a i => commitSector (sfull s m) i a) (g, (0 : Int), false, 0) = (h, du, pt, n) →
    exec (.firnCommit m v) s = .next (((s.setTag k { s.tag k with held := some h }).moveUnits g.owner du).segResult m
      (if pt then 2 else 0) n)) ∧
  (∀ (m : Master) (v : Word) (s : State) (k : Nat) (g : Seg), m ≠ .sv → gated s m = false → s.on F.FIRN_STAT_ASLEEP = false → scmdTgt v = false →
    k = scmdKey v → (s.tag k).gen = scmdGen v → (s.tag k).held = some g →
    exec (.fill m v) s = .next ((s.setTag k { s.tag k with held := some (fillSeg g (smask s m)) }).segResult m 0
      (popcount (smask s m &&& g.l))) ∧
    exec (.firnAbort m v) s = .next (((s.setTag k { s.tag k with
      held := some { unlockSeg g (smask s m) with
        charge := dropCharges (Nat.min (bitsOf v 31 25) 64) (smask s m) g.charge } }).dropReserved g.owner
      (Nat.min (bitsOf v 31 25) 64)).segResult m 0 (popcount (smask s m &&& g.l))) ∧
    (g.pin ≠ 0 → exec (.unpin m v) s =
      .next ((s.setTag k { s.tag k with held := some { g with pin := g.pin - 1 } }).segResult m 0 0)) ∧
    (g.pin = 0 → exec (.unpin m v) s = .next (s.segResult m 3 0)) ∧
    (∀ (n : Nat) (u : State), s.postClean k (~~~0) false = (some n, u) → exec (.clean m v) s = .next (u.segResult m 0 n)) ∧
    (64 ≤ s.firn.clq.length → g.d &&& ~~~g.p ≠ 0 → exec (.clean m v) s = .next (s.segResult m 4 0) ∧
      exec (.cleaninval m v) s = .next (s.segResult m 4 0)) ∧
    exec (.inval m v) s = .next ((s.setTag k { s.tag k with held := some (invalSeg g (~~~0)) }).segResult m 0
      (changed g (invalSeg g (~~~0)))) ∧
    (∀ (n : Nat) (u : State) (h : Seg), s.postClean k (~~~0) true = (some n, u) → (u.tag k).held = some h →
      exec (.cleaninval m v) s = .next ((u.setTag k { u.tag k with held := some (invalSeg h (~~~0)) }).segResult m 0
        (n + changed h (invalSeg h (~~~0))))) ∧
    (m ≠ .sec → exec (.discard m v) s = .next (((s.setTag k { s.tag k with
      held := some (discardSeg g (~~~0)).1 }).dropUnits g.owner (discardSeg g (~~~0)).2).segResult m 0
      (changed g (discardSeg g (~~~0)).1))) ∧
    (m = .sec → exec (.discard m v) s = .next (s.segResult m 3 0))) ∧
  (∀ (m : Master) (v : Word) (s : State), m ≠ .sv → gated s m = false → s.on F.FIRN_STAT_ASLEEP = false → scmdTgt v = false →
    (s.tag (scmdKey v)).gen ≠ scmdGen v → (m ≠ .sec → exec (.discard m v) s = .next (s.segResult m 1 0)) ∧
    exec (.firnCommit m v) s = .next (s.segResult m 1 0) ∧
    exec (.fill m v) s = .next (s.segResult m 1 0) ∧ exec (.firnAbort m v) s = .next (s.segResult m 1 0) ∧
    exec (.unpin m v) s = .next (s.segResult m 1 0) ∧ exec (.clean m v) s = .next (s.segResult m 1 0) ∧
    exec (.inval m v) s = .next (s.segResult m 1 0) ∧ exec (.cleaninval m v) s = .next (s.segResult m 1 0)) ∧
  (∀ (m : Master) (v : Word) (s : State) (j : Nat), m ≠ .sv → gated s m = false → s.on F.FIRN_STAT_ASLEEP = false → scmdTgt v = true →
    j = scmdSlot v → exec (.firnCommit m v) s = .next (s.segResult m 3 0) ∧ exec (.unpin m v) s = .next (s.segResult m 3 0) ∧
    (∀ g : Seg, (s.slot j).gen = scmdGen v → (s.slot j).held = some g →
      exec (.fill m v) s = .next ((s.setSlot j (fillSlot (s.slot j) (smask s m))).segResult m 0 (popcount (smask s m &&& g.l))) ∧
      exec (.firnAbort m v) s = .next (((s.setSlot j (slotSettle { s.slot j with held := some (unlockSeg g (smask s m)) })).dropReserved
        g.owner (Nat.min (bitsOf v 31 25) 64)).segResult m 0 (popcount (smask s m &&& g.l)))) ∧
    ((s.slot j).gen = scmdGen v → exec (.clean m v) s = .next (s.segResult m 0 0) ∧
      exec (.inval m v) s = .next ((s.releaseSlot j).segResult m 0 0) ∧
      exec (.cleaninval m v) s = .next ((s.releaseSlot j).segResult m 0 0) ∧
      (m ≠ .sec → exec (.discard m v) s = .next ((s.releaseSlot j).segResult m 0 0))) ∧
    ((s.slot j).gen ≠ scmdGen v → exec (.fill m v) s = .next (s.segResult m 1 0) ∧ exec (.firnAbort m v) s = .next (s.segResult m 1 0) ∧
      exec (.clean m v) s = .next (s.segResult m 1 0) ∧ exec (.inval m v) s = .next (s.segResult m 1 0) ∧
      exec (.cleaninval m v) s = .next (s.segResult m 1 0))) ∧
  (∀ (v : Word) (s : State) (k : Nat) (g : Seg) (c : Mask), s.on F.FIRN_STAT_ASLEEP = false → s.on F.ASC_CTL_HWORD = false →
    k = bitsOf v 9 1 * 8 + bitsOf v 12 10 → (s.tag k).gen = BitVec.ofNat 8 (bitsOf v 20 13) →
    (s.tag k).held = some g → c = mask64 (s.get F.FIRN_WBM_LO_MASK) (s.get F.FIRN_WBM_HI_MASK) &&& g.p →
    (bitsOf v 0 0 = 1 → exec (.wbdone v) s = .next ((s.setTag k { s.tag k with held := some { g with
      d := g.d &&& ~~~c, p := g.p &&& ~~~c, v := g.v &&& ~~~(c &&& g.pinv), pinv := g.pinv &&& ~~~c } }).dropUnits g.owner (popcount c))) ∧
    (bitsOf v 0 0 = 0 → exec (.wbdone v) s = .next (s.setTag k { s.tag k with held := some { g with
      p := g.p &&& ~~~c, pinv := g.pinv &&& ~~~c } }))) ∧
  (∀ (v : Word) (s : State), s.on F.FIRN_STAT_ASLEEP = false → s.on F.ASC_CTL_HWORD = false →
    (s.tag (bitsOf v 9 1 * 8 + bitsOf v 12 10)).gen ≠ BitVec.ofNat 8 (bitsOf v 20 13) →
    exec (.wbdone v) s = .next ((s.raiseBit F.FIRN_FLAG_STALEWB).inc F.FIRN_CNT2_STALEWB_CNT)) ∧
  (∀ s : State, s.on F.FIRN_STAT_ASLEEP = false → s.on F.ASC_CTL_HWORD = false →
    exec .clqpop s = .next { s with firn := { s.firn with clq := s.firn.clq.drop 1 } })

/-- An address operation acts on the party's segment, in its tag, in Serac or in a Cornice slot, and answers OK; one that finds the
clean queue full answers FULL, and one whose segment lies nowhere MISS (R300; DEDUCED, log entry 21); DISCARD is refused to SEC
(R300). The master is no core that runs gated. SEC and
MC start a pass of the range engine, a second one is ignored and sets RIGN; a pass that paused goes on when the clean
queue has space and reports what it changed when it ends (R301). (12_buffer_caches.md) -/
def Obligations.FirnMaintenanceCommandsComplete : Prop :=
  (∀ (m : Master) (v : Word) (s : State) (p lba n k : Nat) (x : Mask), m ≠ .sv → gated s m = false → s.on F.FIRN_STAT_ASLEEP = false →
    p = bitsOf v 7 4 → lba = lkey s m → n = bitsOf v 13 8 + 1 → lba % 64 + n ≤ 64 → x = maskOf (lba % 64) n →
    findTag s p (lba / 64) = some k →
    (∀ (c : Nat) (u : State), s.maintTag .clean k x = (some c, u) →
      exec (.aclean m v) s = .next (u.lookResult m { result := 10, key := some k })) ∧
    (∀ (c : Nat) (u : State), s.maintTag .inval k x = (some c, u) →
      exec (.ainval m v) s = .next (u.lookResult m { result := 10, key := some k })) ∧
    (∀ (c : Nat) (u : State), s.maintTag .cleanInval k x = (some c, u) →
      exec (.acleaninval m v) s = .next (u.lookResult m { result := 10, key := some k })) ∧
    (∀ (c : Nat) (u : State), m ≠ .sec → s.maintTag .discard k x = (some c, u) →
      exec (.adiscard m v) s = .next (u.lookResult m { result := 10, key := some k })) ∧
    (m = .sec → exec (.adiscard m v) s = .next (s.lookResult m { result := 9 })) ∧
    (∀ u : State, s.maintTag .clean k x = (none, u) → exec (.aclean m v) s = .next (u.lookResult m { result := 3, key := some k })) ∧
    (∀ u : State, s.maintTag .cleanInval k x = (none, u) →
      exec (.acleaninval m v) s = .next (u.lookResult m { result := 3, key := some k }))) ∧
  (∀ (m : Master) (v : Word) (s : State) (p lba : Nat), m ≠ .sv → gated s m = false → s.on F.FIRN_STAT_ASLEEP = false →
    p = bitsOf v 7 4 → lba = lkey s m → lba % 64 + (bitsOf v 13 8 + 1) ≤ 64 → findTag s p (lba / 64) = none →
    (∀ i : Nat, findSerac s p (lba / 64) = some i → exec (.aclean m v) s = .next (s.lookResult m { result := 10 }) ∧
      exec (.ainval m v) s = .next ((s.emptySerac i).lookResult m { result := 10 }) ∧
      exec (.acleaninval m v) s = .next ((s.emptySerac i).lookResult m { result := 10 }) ∧
      (m ≠ .sec → exec (.adiscard m v) s = .next ((s.emptySerac i).lookResult m { result := 10 }))) ∧
    (∀ j : Nat, findSerac s p (lba / 64) = none → findSlot s p (lba / 64) = some j →
      exec (.aclean m v) s = .next (s.lookResult m { result := 10 }) ∧
      exec (.ainval m v) s = .next ((s.releaseSlot j).lookResult m { result := 10 }) ∧
      exec (.acleaninval m v) s = .next ((s.releaseSlot j).lookResult m { result := 10 }) ∧
      (m ≠ .sec → exec (.adiscard m v) s = .next ((s.releaseSlot j).lookResult m { result := 10 }))) ∧
    (findSerac s p (lba / 64) = none → findSlot s p (lba / 64) = none →
      exec (.aclean m v) s = .next (s.lookResult m { result := 1 }) ∧ exec (.ainval m v) s = .next (s.lookResult m { result := 1 }) ∧
      exec (.acleaninval m v) s = .next (s.lookResult m { result := 1 }) ∧
      (m ≠ .sec → exec (.adiscard m v) s = .next (s.lookResult m { result := 1 })))) ∧
  (∀ (m : Master) (v : Word) (s u : State) (r : RangeOp), m = .sec ∨ m = .mc → gated s m = false → s.on F.FIRN_STAT_ASLEEP = false →
    s.on F.FIRN_STAT_RBUSY = false → bitsOf v 5 4 ≠ 3 → u = s.raiseBit F.FIRN_STAT_RBUSY →
    r = { op := 0, scope := bitsOf v 5 4, party := bitsOf v 11 8,
          lba := s.get F.FIRN_RG_LO_LBA + s.get F.FIRN_RG_HI_LBA * 4294967296, cnt := s.get F.FIRN_RG_CNT_CNT } →
    exec (.rangeClean m v) s = .next ({ u with firn := { u.firn with range := some { r with op := 1 } } } : State).runRange ∧
    exec (.rangeInval m v) s = .next ({ u with firn := { u.firn with range := some { r with op := 2 } } } : State).runRange ∧
    exec (.rangeCleaninval m v) s =
      .next ({ u with firn := { u.firn with range := some { r with op := 3 } } } : State).runRange ∧
    exec (.rangeDiscard m v) s = .next ({ u with firn := { u.firn with range := some { r with op := 4 } } } : State).runRange) ∧
  (∀ (m : Master) (v : Word) (s : State), m = .sec ∨ m = .mc → gated s m = false → s.on F.FIRN_STAT_ASLEEP = false →
    s.on F.FIRN_STAT_RBUSY = true → exec (.rangeClean m v) s = .next (s.raiseBit F.FIRN_FLAG_RIGN) ∧
    exec (.rangeInval m v) s = .next (s.raiseBit F.FIRN_FLAG_RIGN) ∧ exec (.rangeCleaninval m v) s = .next (s.raiseBit F.FIRN_FLAG_RIGN) ∧
    exec (.rangeDiscard m v) s = .next (s.raiseBit F.FIRN_FLAG_RIGN)) ∧
  (∀ (m : Master) (v : Word) (s : State), m ≠ .sec → m ≠ .mc → gated s m = false → exec (.rangeClean m v) s = .next s ∧
    exec (.rangeInval m v) s = .next s ∧ exec (.rangeCleaninval m v) s = .next s ∧ exec (.rangeDiscard m v) s = .next s) ∧
  (∀ s : State, s.on F.FIRN_STAT_PAUSED = true → s.firn.clq.length < 64 → s.on F.FIRN_STAT_ASLEEP = false →
    exec .rangeResume s = .next s.runRange) ∧
  (∀ (s : State) (r : RangeOp), s.firn.range = some r → r.pos = 4144 → s.regsWf = true → ∃ t : State,
    exec .rangePassEnd s = .next t ∧ t.firn.range = none ∧ t.on F.FIRN_STAT_RBUSY = false ∧ t.on F.FIRN_FLAG_RDONE = true ∧
    t.get F.FIRN_RG_STAT_AFF = r.aff % 65536)

/-- A metadata LOOKUP or ALLOC finds the key's entry, or takes one (R309); DIRTY, CLEAN, INVAL, LOCK and UNLOCK act on the
entry named, INVAL of a dirty or locked entry and numbers from 48 on being refused; CALLOC takes the lowest FREE slot
of the party's mask, and else answers NOSLOT, or EXISTS for a segment that is held (R304); RELEASE and STATUS answer for the party's own slots; a scrubbed slot becomes FREE with its
frame zeroed (R307). SEC writes a party's columns or Cornice slots unless a segment would be stranded or the partition
is locked (R292, R313); PLOCK locks a partition without overlaps and within DTOTAL, and else PRES names the failure
(R292); the zero-fill's end sets BINIT (R286); the patrol scrub moves on and counts what it finds (R285, R310); ZQ
calibration changes nothing the spec names (R284). The master is no core that runs gated. (12_buffer_caches.md) -/
def Obligations.MetadataCorniceAndPartitionCommandsComplete : Prop :=
  (∀ (m : Master) (s : State) (k : Nat), m ≠ .sv → gated s m = false → s.on F.FIRN_STAT_ASLEEP = false →
    (findMeta s (mkey s m) = some k → exec (.metaLookup m) s = .next ((s.touchMeta k).metaResult m 0 (some k)) ∧
      exec (.metaAlloc m) s = .next ((s.touchMeta k).metaResult m 0 (some k))) ∧
    (findMeta s (mkey s m) = none → exec (.metaLookup m) s = .next (s.metaResult m 1 none) ∧
      (takeMeta s = some k → exec (.metaAlloc m) s =
        .next (((s.setMeta k { key := mkey s m, valid := true }).touchMeta k).metaResult m 2 (some k))) ∧
      (takeMeta s = none → exec (.metaAlloc m) s = .next (s.metaResult m 3 none)))) ∧
  (∀ (m : Master) (k : BitVec 6) (s : State) (n : Nat) (e : MetaEnt), m ≠ .sv → gated s m = false → s.on F.FIRN_STAT_ASLEEP = false →
    n = k.toNat → n < 48 → e = s.metaEnt n →
    exec (.metaDirty m k) s = .next ((s.setMeta n { e with dirty := true }).metaResult m 4 (some n)) ∧
    exec (.metaClean m k) s = .next ((s.setMeta n { e with dirty := false }).metaResult m 4 (some n)) ∧
    exec (.metaLock m k) s = .next ((s.setMeta n { e with locked := true }).metaResult m 4 (some n)) ∧
    exec (.metaUnlock m k) s = .next ((s.setMeta n { e with locked := false }).metaResult m 4 (some n)) ∧
    (e.dirty = false → e.locked = false →
      exec (.metaInval m k) s = .next ((s.setMeta n { e with valid := false }).metaResult m 4 (some n))) ∧
    (e.dirty = true ∨ e.locked = true → exec (.metaInval m k) s = .next (s.metaResult m 6 (some n)))) ∧
  (∀ (m : Master) (k : BitVec 6) (s : State), m ≠ .sv → gated s m = false → s.on F.FIRN_STAT_ASLEEP = false → 48 ≤ k.toNat →
    exec (.metaDirty m k) s = .next (s.metaResult m 5 none) ∧ exec (.metaClean m k) s = .next (s.metaResult m 5 none) ∧
    exec (.metaLock m k) s = .next (s.metaResult m 5 none) ∧ exec (.metaUnlock m k) s = .next (s.metaResult m 5 none) ∧
    exec (.metaInval m k) s = .next (s.metaResult m 5 none)) ∧
  (∀ (m : Master) (v : Word) (s : State) (p seg j : Nat), m ≠ .sv → gated s m = false → s.on F.FIRN_STAT_ASLEEP = false → p = bitsOf v 11 8 →
    seg = lkey s m / 64 → s.mode ≠ mRETREAT → segNow s p seg = none →
    (List.range 32).find? (fun i => (s.get (F.FIRN_CMASK_SLOTS p)).testBit i && (s.slot i).st == .free) = some j →
    exec (.corniceAlloc m v) s = .next ((s.setSlot j { s.slot j with
      gen := (s.slot j).gen + 1, st := .held, held := some { seg := seg, owner := p, l := smask s m } }).corResult m 0 (some j))) ∧
  (∀ (m : Master) (v : Word) (s : State), m ≠ .sv → gated s m = false → s.on F.FIRN_STAT_ASLEEP = false → s.mode = mRETREAT →
    exec (.corniceAlloc m v) s = .next (s.corResult m 1 none)) ∧
  (∀ (m : Master) (v : Word) (s : State) (p seg : Nat), m ≠ .sv → gated s m = false → s.on F.FIRN_STAT_ASLEEP = false →
    p = bitsOf v 11 8 → seg = lkey s m / 64 → s.mode ≠ mRETREAT →
    (segNow s p seg ≠ none → exec (.corniceAlloc m v) s = .next (s.corResult m 2 none)) ∧
    (segNow s p seg = none → (∀ i < 32, (s.get (F.FIRN_CMASK_SLOTS p)).testBit i = true → (s.slot i).st ≠ .free) →
      exec (.corniceAlloc m v) s = .next (s.corResult m 1 none))) ∧
  (∀ (m : Master) (v : Word) (s : State), m ≠ .sv → gated s m = false → s.on F.FIRN_STAT_ASLEEP = false →
    (slotOwned s v = true →
      exec (.corniceRelease m v) s = .next ((s.releaseSlot (bitsOf v 6 2)).corResult m 0 (some (bitsOf v 6 2))) ∧
      exec (.corniceStatus m v) s = .next (s.corResult m 0 (some (bitsOf v 6 2)))) ∧
    (slotOwned s v = false → exec (.corniceRelease m v) s = .next (s.corResult m 3 none) ∧
      exec (.corniceStatus m v) s = .next (s.corResult m 3 none))) ∧
  (∀ (j : BitVec 5) (s : State) (g : Seg), (s.slot j.toNat).held = some g → (s.slot j.toNat).st = .scrubbing →
    s.regsWf = true → Sparse.wf slot0 s.firn.corn = true → ∃ t : State, exec (.corniceScrubDone j) s = .next t ∧
    (t.slot j.toNat).st = .free ∧ (t.slot j.toNat).held = none ∧ t.on F.FIRN_FLAG_CANCEL = true ∧
    t.buf = (s.bufZero (frameAddr (s.slot j.toNat).frame) 0x40000).buf) ∧
  (∀ (p : BitVec 4) (v : Word) (s : State), s.on F.FIRN_STAT_ASLEEP = false → s.on F.FIRN_STAT_PLOCKED = false →
    (partTakes s p.toNat v = false → exec (.partitionWrite .sec false p v) s =
      .next (s.wr (R.FIRN_PART p.toNat) (BitVec.ofNat 32 (bitsOf v 9 0)))) ∧
    (partTakes s p.toNat v = true → exec (.partitionWrite .sec false p v) s = .next (s.raiseBit F.FIRN_FLAG_PREFUSE)) ∧
    (cmaskTakes s p.toNat v = false → exec (.partitionWrite .sec true p v) s = .next (s.wr (R.FIRN_CMASK p.toNat) v)) ∧
    (cmaskTakes s p.toNat v = true → exec (.partitionWrite .sec true p v) s = .next (s.raiseBit F.FIRN_FLAG_PREFUSE))) ∧
  (∀ (m : Master) (c : Bool) (p : BitVec 4) (v : Word) (s : State), m ≠ .sec ∨ s.on F.FIRN_STAT_PLOCKED = true →
    gated s m = false → exec (.partitionWrite m c p v) s = .next s) ∧
  (∀ (m : Master) (s : State), m = .sec ∨ m = .mc → gated s m = false → s.on F.FIRN_STAT_ASLEEP = false → s.on F.FIRN_STAT_PLOCKED = false →
    (plockCheck s = 0 → exec (.partitionLock m) s =
      .next (((s.put F.FIRN_STAT_PRES 0).raiseBit F.FIRN_STAT_PLOCKED).raiseBit F.FIRN_CTL_PLOCK)) ∧
    (plockCheck s ≠ 0 → exec (.partitionLock m) s = .next (s.put F.FIRN_STAT_PRES (plockCheck s)))) ∧
  (∀ s : State, exec .bufferInitDone s = .next (s.raiseBit F.FIRN_STAT_BINIT)) ∧
  (∀ s : State, exec .zqCalibration s = .next s) ∧
  (∀ (s u : State), s.on F.FIRN_CTL_SCRUB = true → s.on F.FIRN_STAT_ASLEEP = false → u = { s with
    firn := { s.firn with scrub := if s.firn.scrub + 1 ≥ 17825792 then 0 else s.firn.scrub + 1 } } →
    exec (.patrolScrub 0) s = .next u ∧ exec (.patrolScrub 1) s = .next u.bufferCE ∧
    exec (.patrolScrub 2) s = .next (u.bufferUE (0x80000000 + 64 * s.firn.scrub) 0x08 true))

/-- If no two of the 4,144 holders have one frame, then after a lookup of any intent, a FILL, a COMMIT, a CALLOC, a
RELEASE or the end of a scrub none do: every movement of a segment exchanges frames (R290, R295, R303, R305).
(12_buffer_caches.md) -/
def Obligations.FramesStayApart : Prop :=
  ∀ (m : Master) (v : Word) (j : BitVec 5) (s t : State), s.FramesApart →
    (exec (.lookup m v) s = .next t ∨ exec (.lookupAlloc m v) s = .next t ∨ exec (.reserve m v) s = .next t ∨
      exec (.filllock m v) s = .next t ∨ exec (.fill m v) s = .next t ∨ exec (.firnCommit m v) s = .next t ∨
      exec (.corniceAlloc m v) s = .next t ∨ exec (.corniceRelease m v) s = .next t ∨
      exec (.corniceScrubDone j) s = .next t) → t.FramesApart

/-- With its bank free and BUFCK running, a defect lookup shows the longest prefix's output and RUN, and FAULT before
DREADY (R317, R327); a window lookup of a party that is not held shows the first match's verdict (R320), and one of a held party
waits (R325); a command of a bank that is busy, or of SV, is ignored (R333); a commit that
passes every check takes effect at one commit point and one with a slot that fails changes nothing but its result,
which names the first such slot and its failure (R323); the hold ends (R325); READ copies a shadow; WLOCK is SEC's and
DREADY SEC's and MC's (R322, R327); the patrol visits the next row, and repairs or reports what it finds (R330). The master is no core that runs gated.
(13_range_match.md) -/
def Obligations.RangeMatchCommandsComplete : Prop :=
  (∀ (m : Master) (e : List RmeErr) (s u : State) (r : RmeRes), m ≠ .sv → gated s m = false → rmeBusy s m false = false →
    s.on F.FIRN_STAT_ASLEEP = false → s.defectLookup (rmeKey s m) m.idx e = (r, u) →
    exec (.defectLookup m e) s = .next (u.rmeResult m r) ∧
    (s.on F.RME_CTL_DREADY = false → r = { result := 3 } ∧ u = s)) ∧
  (∀ (m : Master) (v w : Word) (e : List RmeErr) (s u : State) (r : RmeRes) (p : Nat), m ≠ .sv → gated s m = false → rmeBusy s m false = false →
    s.on F.FIRN_STAT_ASLEEP = false → w = v ||| 1 → p = bitsOf w 4 1 → s.rme.held.contains p = false →
    s.windowLookup p (rmeKey s m) (bitsOf w 7 5) m.idx e = (r, u) →
    (r.result = 0 ∨ bitsOf w 8 8 = 0 → exec (.windowLookup m v e) s = .next (u.rmeResult m r)) ∧
    (r.result ≠ 0 → bitsOf w 8 8 = 1 →
      exec (.windowLookup m v e) s = .next ((u.rmeRefuse p (rmeKey s m) (bitsOf w 7 5) m.idx 0xFF 0 r).rmeResult m r))) ∧
  (∀ (m : Master) (v w : Word) (e : List RmeErr) (s : State), m ≠ .sv → gated s m = false → rmeBusy s m false = false → w = v ||| 1 →
    s.on F.FIRN_STAT_ASLEEP = true ∨ s.rme.held.contains (bitsOf w 4 1) = true → exec (.windowLookup m v e) s = .next (({ s with
      rme := { s.rme with waiting := s.rme.waiting ++ [{ m := m, commit := false, v := w, errs := e }] } } : State).raiseBit
        (F.RME_LRES0_BUSY m))) ∧
  (∀ (m : Master) (v : Word) (e : List RmeErr) (s : State), gated s m = false →
    (m = .sv ∨ rmeBusy s m false = true → exec (.defectLookup m e) s = .next s ∧ exec (.windowLookup m v e) s = .next s) ∧
    (m = .sv ∨ rmeBusy s m true = true → exec (.rmeCommit m v) s = .next s ∧ exec (.shadowRead m v) s = .next s)) ∧
  (∀ (m : Master) (v : Word) (s : State) (l : List RmeStg), m ≠ .sv → gated s m = false → rmeBusy s m true = false →
    s.on F.FIRN_STAT_ASLEEP = false → l = (List.range (bitsOf v 4 2 + 1)).map (fun k => rmeSlot s m k) →
    (firstBad l (fun k x => rmeFault s m l (rmeApply s.rme.ents l) k x != 0) = none →
      exec (.rmeCommit m v) s = .next (s.rmeCommitPoint m l)) ∧
    (∀ k : Nat, firstBad l (fun k x => rmeFault s m l (rmeApply s.rme.ents l) k x != 0) = some k →
      exec (.rmeCommit m v) s = .next (s.rmeSres m (rmeFault s m l (rmeApply s.rme.ents l) k (rmeSlot s m k)) k 0))) ∧
  (∀ s : State, s.rme.waiting = [] → ∃ t : State, exec .revokeHoldEnd s = .next t ∧ t.rme.held = [] ∧
    t.rme.ents = s.rme.ents ∧ (s.regsWf = true → t.on F.RME_STAT_HOLD = false)) ∧
  (∀ (m : Master) (v : Word) (s : State), m ≠ .sv → gated s m = false → rmeBusy s m true = false → s.regsWf = true → ∃ t : State,
    exec (.shadowRead m v) s = .next t ∧ t.get (F.RME_STG_10_INDEX m 0) = bitsOf v 15 5 ∧
    t.get (F.RME_SRES_RESULT m) = 0 ∧
    (tabGet s.rme.ents none (bitsOf v 15 5) = none → t.on (F.RME_STG_04_VALID m 0) = false) ∧
    (∀ e : RmeEnt, tabGet s.rme.ents none (bitsOf v 15 5) = some e → t.on (F.RME_STG_04_VALID m 0) = true ∧
      t.get (F.RME_STG_00_KEY_LO m 0) = e.key % 4294967296 ∧ t.get (F.RME_STG_04_LEN m 0) = e.len % 64)) ∧
  (∀ s : State, (anyOverlap s.rme.ents = true → exec (.wlock .sec) s = .next (s.raiseBit F.RME_STAT_WLRES)) ∧
    (anyOverlap s.rme.ents = false → exec (.wlock .sec) s =
      .next (((s.clr F.RME_STAT_WLRES).raiseBit F.RME_STAT_WLOCKED).raiseBit F.RME_CTL_WLOCK))) ∧
  (∀ (m : Master) (s : State), (m ≠ .sec → gated s m = false → exec (.wlock m) s = .next s) ∧
    (m = .sec ∨ m = .mc → gated s m = false → exec (.dready m) s = .next (s.raiseBit F.RME_CTL_DREADY)) ∧
    (m ≠ .sec → m ≠ .mc → gated s m = false → exec (.dready m) s = .next s)) ∧
  (∀ s : State, s.on F.FIRN_STAT_ASLEEP = false →
    exec (.rmePatrol 0) s = .next { s with rme := { s.rme with patrol := (s.rme.patrol + 1) % 2048 } }) ∧
  (∀ (s u : State) (i : Nat) (w : Bool), s.on F.FIRN_STAT_ASLEEP = false → i = s.rme.patrol →
    w = (match tabGet s.rme.ents none i with | some e => e.window | none => false) →
    u = { s with rme := { s.rme with patrol := (i + 1) % 2048 } } →
    exec (.rmePatrol 3) s = .next (((u.inc F.RME_CNT_PAT_CNT).raiseBit F.RME_FLAG_PATROL).rmeRecord i w 3 6 0 0 0xFF) ∧
    exec (.rmePatrol 4) s = .next ((u.rmeShadowFault i w).rmeRecord i w 4 6 0 0 0xFF))

/-- For either channel and any party: every LBA from the key up to key + RUN - 1 has the same first match as the key, or
no match as the key has none; and unless RUN saturates, or reaches the top of the LBA space without a match, the LBA
at key + RUN has another outcome (R317, R319, R320). (13_range_match.md) -/
def Obligations.RunKeepsTheOutcome : Prop :=
  ∀ (s : State) (w : Bool) (p x y : Nat) (l : List (Nat × RmeEnt)) (h : Option (Nat × RmeEnt)),
    Sparse.wf (fun _ => (none : Option RmeEnt)) s.rme.ents = true → x < 2 ^ 48 → l = rmeEntries s w p → h = rmeFirst l x →
    (x ≤ y → y < x + rmeRun l x h → rmeFirst l y = h) ∧
    (rmeRun l x h < 2 ^ 32 - 1 → h ≠ none ∨ x + rmeRun l x h < 2 ^ 48 → rmeFirst l (x + rmeRun l x h) ≠ h)

/-- While WLOCKED = 1 and no two window entries of different parties have intersecting media ranges, any commit by any
master leaves none, whatever it stages (R322); and the lock itself is made only in such a state. (13_range_match.md,
17_isolation.md) -/
def Obligations.WindowLockKeepsPartiesApart : Prop :=
  (∀ (m : Master) (v : Word) (s t : State), Sparse.wf (fun _ => (none : Option RmeEnt)) s.rme.ents = true →
    s.on F.RME_STAT_WLOCKED = true → anyOverlap s.rme.ents = false → exec (.rmeCommit m v) s = .next t →
    anyOverlap t.rme.ents = false) ∧
  (∀ (m : Master) (s t : State), s.regsWf = true → s.on F.RME_STAT_WLOCKED = false → exec (.wlock m) s = .next t →
    t.on F.RME_STAT_WLOCKED = true → anyOverlap t.rme.ents = false)

/-- Each command of the data movers answers the next state of Table 14.1, R334, R344, R350, R351 and R354 under the
conditions they give it: the owner's CHSTART runs or holds an idle or halted channel and is ignored with IGN at a
running or held one; a fetched descriptor becomes current, after the known-answer test if it is an XTS one (R351), or halts with
DESCADDR where its address may hold none; the owner's ABORT halts a running channel with cause ABORT and returns a held one to IDLE; SEC alone writes owners,
CFGLOCK and MDBASE. The master is no core that runs gated. (14_dma_integrity.md) -/
def Obligations.DataMoverCommandsComplete : Prop :=
  (∀ (m : Master) (c : BitVec 4) (v : Word) (s : State), gated s m = false → chOwner s c.toNat = ownerCode m →
    (chState s c.toNat = chIDLE ∨ chState s c.toNat = chHALTED → exec (.chstart m c v) s = .next (s.chStart c.toNat v.toNat)) ∧
    (chState s c.toNat = chRUN ∨ chState s c.toNat = chHELD →
      exec (.chstart m c v) s = .next (s.raiseBit (F.CHSTAT_IGN c.toNat)))) ∧
  (∀ (m : Master) (c : BitVec 4) (v : Word) (s : State), s.regsWf = true → s.dmaWf = true → gated s m = false → chOwner s c.toNat = ownerCode m →
    chState s c.toNat = chIDLE ∨ chState s c.toNat = chHALTED → ∃ t : State, exec (.chstart m c v) s = .next t ∧
    t.get (F.CHDESC_ADDR c.toNat) = v.toNat ∧ t.bit F.DMA_STAT_BUSY c.toNat = true ∧
    (s.on F.DMA_STAT_HOLD = true → chState t c.toNat = chHELD ∧ (t.chan c.toNat).fetching = (s.chan c.toNat).fetching) ∧
    (s.on F.DMA_STAT_HOLD = false → chState t c.toNat = chRUN ∧ (t.chan c.toNat).fetching = true ∧
      t.get (F.CHSTAT_CAUSE c.toNat) = 0)) ∧
  (∀ (c : BitVec 4) (ue : Option (BitVec 32)) (s : State), chState s c.toNat = chRUN → (s.chan c.toNat).fetching = true →
    (s.chan c.toNat).uqi = false → s.mode ≠ mOFF → s.mode ≠ mDORMANT →
    (dscAddrOk (s.get (F.CHDESC_ADDR c.toNat)) = false → exec (.descriptorFetched c ue) s = .next ((s.chUnread c.toNat 3).chSettle)) ∧
    (∀ bs : List Byte, bs = s.dmaBytes (s.get (F.CHDESC_ADDR c.toNat)) 64 → dscAddrOk (s.get (F.CHDESC_ADDR c.toNat)) = true →
      ((dscOf bs).xts = true → s.on F.CRY_STAT_KATDONE = true) →
      exec (.descriptorFetched c ue) s = .next ((s.chCurrent c.toNat bs ue).chSettle)) ∧
    (dscAddrOk (s.get (F.CHDESC_ADDR c.toNat)) = true → (dscOf (s.dmaBytes (s.get (F.CHDESC_ADDR c.toNat)) 64)).xts = true →
      s.on F.CRY_STAT_KATDONE = false → exec (.descriptorFetched c ue) s = .next s)) ∧
  (∀ (c : BitVec 4) (ue : Option (BitVec 32)) (s : State), chState s c.toNat = chRUN → (s.chan c.toNat).fetching = true →
    (s.chan c.toNat).uqi = true → s.mode ≠ mOFF → s.mode ≠ mDORMANT →
    ((dscOf (s.chan c.toNat).desc).xts = true → s.on F.CRY_STAT_KATDONE = true) →
    exec (.descriptorFetched c ue) s = .next ((s.chCurrent c.toNat (s.chan c.toNat).desc ue).chSettle)) ∧
  (∀ (c : BitVec 4) (s : State), chDone s c.toNat = true → (s.dsc c.toNat).dst ≠ eHOST ∨ s.mode ≠ mTHAW →
    exec (.descriptorEnd c) s = .next ((s.chEnd c.toNat).chSettle)) ∧
  (∀ (m : Master) (c : BitVec 4) (v : Word) (s : State), gated s m = false → chOwner s c.toNat ≠ ownerCode m →
    exec (.chstart m c v) s = .next s ∧ exec (.channelAbort m c) s = .next s) ∧
  (∀ (m : Master) (c : BitVec 4) (s : State), gated s m = false → chOwner s c.toNat = ownerCode m →
    (chState s c.toNat = chRUN → exec (.channelAbort m c) s = .next ((s.chStop c.toNat 19).chSettle)) ∧
    (chState s c.toNat = chHELD → exec (.channelAbort m c) s = .next (s.chEnter c.toNat chIDLE)) ∧
    (chState s c.toNat = chIDLE ∨ chState s c.toNat = chHALTED → exec (.channelAbort m c) s = .next s)) ∧
  (∀ (c : BitVec 4) (v : Word) (s : State), chState s c.toNat = chIDLE ∨ chState s c.toNat = chHALTED →
    s.on F.DMA_CTL_CFGLOCK = false →
    exec (.chcfgWrite .sec c v) s = .next (s.put (F.CHCFG_OWNER c.toNat) (if bitsOf v 2 0 = 7 then 0 else bitsOf v 2 0))) ∧
  (∀ s : State, (((List.range 16).filter fun c => chOwner s c == 4).length < 8 → exec (.cfglock .sec) s = .next s) ∧
    (8 ≤ ((List.range 16).filter fun c => chOwner s c == 4).length →
      exec (.cfglock .sec) s = .next (s.raiseBit F.DMA_CTL_CFGLOCK))) ∧
  (∀ (v : Word) (s : State), s.on F.DMA_CTL_CFGLOCK = false → exec (.mdbaseWrite .sec v) s =
    .next ((s.put F.DMA_MDBASE_ADDR (bitsOf v 31 6)).putB F.DMA_MDBASE_EN (v.getLsbD 0 && mdFits (bitsOf v 31 6 * 64)))) ∧
  (∀ (m : Master) (c : BitVec 4) (v : Word) (s : State), m ≠ .sec → gated s m = false → exec (.chcfgWrite m c v) s = .next s ∧
    exec (.cfglock m) s = .next s ∧ exec (.mdbaseWrite m v) s = .next s) ∧
  (∀ (ok : Bool) (s : State), s.on F.CRY_STAT_KATDONE = false →
    exec (.katDone ok) s = .next ((s.raiseBit F.CRY_STAT_KATDONE).putB F.CRY_STAT_KATFAIL (!ok))) ∧
  (∀ (c : BitVec 4) (n : Nat) (bs : List Byte) (s : State), (s.chan c.toNat).live = true → n < (s.chan c.toNat).reqs.length →
    portUp s (s.dsc c.toNat).port = true →
    exec (.hostReadCompletion c n .ok bs) s = .next ((s.hostArrive c.toNat n bs).chSettle) ∧
    exec (.hostReadCompletion c n .ur bs) s = .next ((s.chHalt c.toNat 11 0).chSettle) ∧
    exec (.hostReadCompletion c n .ca bs) s = .next ((s.chHalt c.toNat 12 0).chSettle) ∧
    exec (.hostReadCompletion c n .poison bs) s = .next ((s.chHalt c.toNat 14 0).chSettle) ∧
    exec (.completionTimeout c n) s = .next ((s.chHalt c.toNat 13 0).chSettle))

/-- Where a check made as a descriptor becomes current fails (R338, R341, R344, R349, R350, R353), the channel is HALTED
with the check's cause and DETAIL and DONE 0, its HALT event is raised, nothing is sent to the host, the Store die
array holds what it held, and the Buffer die and the shared pool hold what they held except bytes 0x2C to 0x3F of the
descriptor, which it writes back where a descriptor may lie (R336). (14_dma_integrity.md) -/
def Obligations.FailedChecksMoveNoData : Prop :=
  ∀ (s : State) (c : Nat) (bs : List Byte) (ue : Option (BitVec 32)) (cause detail a : Nat), c < 16 → s.regsWf = true →
    s.memWf = true → s.dmaWf = true → dscHalt s (dscOf bs) = some (cause, detail) → a = s.get (F.CHDESC_ADDR c) → (s.chan c).uqi = false →
    ∃ t : State, s.chCurrent c bs ue = t ∧ chState t c = chHALTED ∧ t.get (F.CHSTAT_CAUSE c) = cause ∧
      t.get (F.CHSTAT_DETAIL c) = detail ∧ t.get (F.CHDONE_DONE c) = 0 ∧ t.bit F.DMA_EVT_HALT c = true ∧
      t.bit F.DMA_STAT_BUSY c = false ∧ t.out = s.out ∧ t.store = s.store ∧
      (∀ x, x < a + 0x2C ∨ a + 0x40 ≤ x → t.bufBytes x 1 = s.bufBytes x 1 ∧ t.sramBytes x 1 = s.sramBytes x 1) ∧
      (dscAddrOk a = true → t.dmaBytes (a + 0x2C) 20 =
        leBytes 4 (cause + 0x80 + detail * 256) ++ leBytes 4 0 ++ leBytes 4 (chCrc (t.chan c)) ++ zeros 8) ∧
      (dscAddrOk a = false → t.buf = s.buf ∧ t.sram = s.sram)

/-- Where the first sector that a BUFFER to HOST descriptor reads has a side entry with DVALID = 1 whose DCRC is not the
CRC-32C of the sector's 4096 bytes, and no block of it is uncorrectable, the channel halts with cause E2E and the
sector's index as DETAIL, and no byte is sent to the host (R345). (14_dma_integrity.md) -/
def Obligations.SectorUnderEndToEndCheckDoesNotLeave : Prop :=
  ∀ (s : State) (c : Nat) (bs : List Byte) (d : Dsc), c < 16 → s.regsWf = true → s.dmaWf = true →
    d = dscOf bs → dscHalt s d = none → d.src = eBUFFER → d.dst = eHOST → sided s d.saddr = true →
    sideValid (sideBytes s d.saddr) = true → sectorCrc s d.saddr ≠ sideCrc (sideBytes s d.saddr) →
    ∃ t : State, s.chCurrent c bs none = t ∧ chState t c = chHALTED ∧ t.get (F.CHSTAT_CAUSE c) = 9 ∧
      t.get (F.CHSTAT_DETAIL c) = sectorIdx d.saddr ∧ t.get (F.CHDONE_DONE c) = 0 ∧ t.out = s.out

/-- A trained link brings its port up once every condition of R358 holds; each event of Table 15.11 that takes away a
condition of an up port runs the steps of R373 with its cause; a configuration request has its effect on the function
reached over a link that is up (R376), and a read returns the identity of Table 15.1, the low byte of the class code
being a free value; a write of HMWCTL with LOCK freezes the windows; WAKE requests
one doorbell fetch (R368); a cleared mask bit sends a pending message (R370); a DBP write stores and moves (R363). A write of BAR0 that the function does not accept has no effect.
(15_host_link_rings.md) -/
def Obligations.HostPortCommandsComplete : Prop :=
  (∀ (q : BitVec 1) (s u : State), hasPort s q.toNat = true → s.mode ≠ mRETREAT → s.mode ≠ mOFF →
    u = s.onPort q.toNat (fun p => { p with dl := true, perst := true }) →
    (portUp u q.toNat = true → (u.port q.toNat).up = false → exec (.portUp q) s =
      .next (((u.onPort q.toNat (fun p => { p with up := true })).msixPending q.toNat).uqiRun)) ∧
    (portUp u q.toNat = (u.port q.toNat).up → exec (.portUp q) s = .next u)) ∧
  (∀ (q : BitVec 1) (s u : State), hasPort s q.toNat = true → s.mode ≠ mRETREAT → s.mode ≠ mOFF →
    (u = s.onPort q.toNat (fun p => { p with dl := false }) → portUp u q.toNat = false → (u.port q.toNat).up = true →
      exec (.portDown q 1) s = .next (u.portLost q.toNat 1)) ∧
    (u = (s.onPort q.toNat (fun p => { p.functionReset with dl := false, perst := false })).hmwReset q.toNat →
      portUp u q.toNat = false → (u.port q.toNat).up = true → exec (.portDown q 2) s = .next (u.portLost q.toNat 2)) ∧
    (u = s.onPort q.toNat Port.functionReset → portUp u q.toNat = false → (u.port q.toNat).up = true →
      exec (.portDown q 3) s = .next (u.portLost q.toNat 3)) ∧
    (u = s.onPort q.toNat (fun p => { p with bme := false }) → portUp u q.toNat = false → (u.port q.toNat).up = true →
      exec (.portDown q 4) s = .next (u.portLost q.toNat 4)) ∧
    (u = s.onPort q.toNat (fun p => { p with d3 := true }) → portUp u q.toNat = false → (u.port q.toNat).up = true →
      exec (.portDown q 5) s = .next (u.portLost q.toNat 5))) ∧
  (∀ (q : BitVec 1) (a : BitVec 64) (mem master : Bool) (mps mrrs : BitVec 3) (s : State), linkOn s q.toNat = true →
    exec (.configurationRequest q .readId) s = .next (s.emit (.bar0Data q.toNat [0x76401E7C])) ∧
    exec (.configurationRequest q (.bar0 a)) s =
      .next (s.onPort q.toNat fun p => { p with bar := a &&& ~~~(0x3FFF : BitVec 64) }) ∧
    exec (.configurationRequest q (.command mem master)) s =
      .next ((s.onPort q.toNat fun p => { p with mse := mem, bme := master }).portSettle q.toNat 4) ∧
    exec (.configurationRequest q (.devCtl mps mrrs)) s = .next (s.onPort q.toNat fun p =>
      { p with mps := if mps.toNat > 2 then 2 else mps, mrrs := if mrrs.toNat > 5 then 5 else mrrs }) ∧
    exec (.configurationRequest q .flr) s = .next ((s.onPort q.toNat Port.functionReset).portSettle q.toNat 3)) ∧
  (∀ (q : BitVec 1) (en mask : Bool) (s : State), linkOn s q.toNat = true →
    exec (.configurationRequest q (.power true)) s =
      .next ((s.onPort q.toNat fun p => { p with d3 := true }).portSettle q.toNat 5) ∧
    ((s.port q.toNat).d3 = true → exec (.configurationRequest q (.power false)) s =
      .next ((s.onPort q.toNat fun p => { p.functionReset with d3 := false }).portSettle q.toNat 5)) ∧
    ((s.port q.toNat).d3 = false → exec (.configurationRequest q (.power false)) s = .next s) ∧
    exec (.configurationRequest q (.msixCtl en mask)) s =
      .next ((s.onPort q.toNat fun p => { p with msixEn := en, fmask := mask }).msixPending q.toNat)) ∧
  (∀ (q : BitVec 1) (s : State), linkOn s q.toNat = true →
    (∃ w : Word, bitsOf w 31 8 = 0x018000 ∧ exec (.configurationRequest q .readClass) s = .next (s.draw.2.emit (.bar0Data q.toNat [w]))) ∧
    exec (.configurationRequest q .readBar) s = .next (s.emit (.bar0Data q.toNat
      [BitVec.ofNat 32 ((s.port q.toNat).bar.toNat + 4), BitVec.ofNat 32 ((s.port q.toNat).bar.toNat / 2 ^ 32)])) ∧
    exec (.configurationRequest q .readBars) s = .next (s.emit (.bar0Data q.toNat [0, 0, 0, 0, 0])) ∧
    exec (.configurationRequest q .readPin) s = .next (s.emit (.bar0Data q.toNat [0])) ∧
    (∀ n : Nat, n = leNat (s.infoBytes 16 4 8) → exec (.configurationRequest q .readSerial) s =
      .next (s.emit (.bar0Data q.toNat [BitVec.ofNat 32 n, BitVec.ofNat 32 (n / 2 ^ 32)])))) ∧
  (∀ (q : BitVec 1) (r : CfgReq) (s : State), linkOn s q.toNat = false → exec (.configurationRequest q r) s = .next s) ∧
  (∀ (q : BitVec 1) (en : Bool) (s : State), bar0On s q.toNat = true → s.on F.HMWCTL_LOCK = false → ∃ t : State,
    t = ((s.putB F.HMWCTL_EN en).raiseBit F.HMWCTL_LOCK).onUqi (fun u => { u with hmwReset := 0 }) ∧
    exec (.hostWindowLock q en) s = .next t ∧ (s.regsWf = true → t.on F.HMWCTL_LOCK = true ∧ t.on F.HMWCTL_EN = en)) ∧
  (∀ (q : BitVec 1) (en : Bool) (s : State), s.on F.HMWCTL_LOCK = true → exec (.hostWindowLock q en) s = .next s) ∧
  (∀ (q : BitVec 1) (cq : Bool) (r : BitVec 6) (w : BitVec 2) (p : BitVec 4) (v : Word) (x : BitVec 5) (a : BitVec 8) (en : Bool)
    (s : State), bar0On s q.toNat = false →
    exec (.dbpPortWrite q p v) s = .next s ∧ exec (.ringSetupWrite q cq r w v) s = .next s ∧ exec (.sqEnable q r) s = .next s ∧
    exec (.cqEnable q r a) s = .next s ∧ exec (.sqDisable q r) s = .next s ∧ exec (.cqDisable q r) s = .next s ∧
    exec (.resume q cq r) s = .next s ∧ exec (.ringReset q r) s = .next s ∧ exec (.hostWindowLock q en) s = .next s ∧
    exec (.wake q p) s = .next s ∧ exec (.msixUnmask q x) s = .next s) ∧
  (∀ (q : BitVec 1) (p : BitVec 4) (s : State), bar0On s q.toNat = true → tabGet s.uqi.fetch 0 p.toNat = 0 →
    s.on (F.DBP_0_EN p.toNat) = true → highRing s p.toNat ≠ 0 → portUp s (curPort s p.toNat) = true →
    hostCheck s (s.get (F.DBP_0_ADDR_LO p.toNat) * 4096 + s.get (F.DBP_4_ADDR_HI p.toNat) * 4294967296)
      (16 * highRing s p.toNat) = none →
    exec (.wake q p) s = .next ({ s with uqi := { s.uqi with
      fetch := tabPut s.uqi.fetch 0 p.toNat (highRing s p.toNat) } }.sendReads (curPort s p.toNat)
      (s.get (F.DBP_0_ADDR_LO p.toNat) * 4096 + s.get (F.DBP_4_ADDR_HI p.toNat) * 4294967296) (16 * highRing s p.toNat))) ∧
  (∀ (q : BitVec 1) (v : BitVec 5) (s : State), bar0On s q.toNat = true →
    exec (.msixUnmask q v) s = .next (s.msixWord q.toNat (4 * v.toNat + 3) 0)) ∧
  (∀ (q : BitVec 1) (p : BitVec 4) (v : Word) (s : State), bar0On s q.toNat = true →
    exec (.dbpPortWrite q p v) s = .next (s.dbpWrite p.toNat v))

/-- A disabled ring takes its setup words and is enabled with its pointers at 0 where no condition of R361 fails, or keeps
the number of the first that does; a write to an enabled ring's setup is ignored with ERR 6 (R361); EN = 0 drains an
ACTIVE submission ring and disables a completion ring that none names, or gives ERR 7 (R361, R362); a ring drained of
its commands is disabled; RESUME at a halted ring whose port is up makes it and its completion ring ACTIVE and sends its
retained completions again, and RESET at a halted submission ring drops its commands' completions (R375); at a ring in
another state neither does anything. (15_host_link_rings.md) -/
def Obligations.RingCommandsComplete : Prop :=
  (∀ (q : BitVec 1) (r : BitVec 6) (w : BitVec 2) (v : Word) (s : State), bar0On s q.toNat = true → w ≠ 3 →
    exec (.ringSetupWrite q false r w v) s = .next (s.sqSetup r.toNat w.toNat v) ∧
    exec (.ringSetupWrite q true r w v) s = .next (s.cqSetup r.toNat w.toNat v)) ∧
  (∀ (q : BitVec 1) (r : BitVec 6) (v : Word) (s : State), bar0On s q.toNat = true →
    (sqOn s r.toNat = false → exec (.ringSetupWrite q false r 1 v) s =
      .next (sqErr (s.wr (R.SQ_0 r.toNat + 4) v) r.toNat 0)) ∧
    (sqOn s r.toNat = true → exec (.ringSetupWrite q false r 1 v) s =
      .next (sqErr s r.toNat 6))) ∧
  (∀ (q : BitVec 1) (r : BitVec 6) (s : State), bar0On s q.toNat = true → sqOn s r.toNat = false →
    (sqRefuse s r.toNat = 0 → exec (.sqEnable q r) s =
      .next ((s.setSq r.toNat { st := rACTIVE, fptr := 0, tail := 0, err := 0 }).raiseBit (F.SQ_C_EN r.toNat))) ∧
    (sqRefuse s r.toNat ≠ 0 → exec (.sqEnable q r) s = .next (sqErr s r.toNat (sqRefuse s r.toNat)))) ∧
  (∀ (q : BitVec 1) (r : BitVec 6) (a : BitVec 8) (s u : State), bar0On s q.toNat = true → cqOn s r.toNat = false →
    Sparse.wf (fun _ => ({} : CqRing)) s.uqi.cq = true → u = cqErr (s.put (F.CQ_C_AGGTIME r.toNat) a.toNat) r.toNat 0 →
    (cqRefuse u r.toNat = 0 → exec (.cqEnable q r a) s =
      .next ((u.setCq r.toNat { st := rACTIVE, phase := true, wptr := 0, head := 0, err := 0 }).raiseBit (F.CQ_C_EN r.toNat))) ∧
    (cqRefuse u r.toNat ≠ 0 → exec (.cqEnable q r a) s = .next (cqErr u r.toNat (cqRefuse u r.toNat)))) ∧
  (∀ (q : BitVec 1) (r : BitVec 6) (s : State), bar0On s q.toNat = true →
    (sqOn s r.toNat = true → exec (.sqEnable q r) s = .next s) ∧
    ((s.sq r.toNat).st ≠ rACTIVE → exec (.sqDisable q r) s = .next s) ∧
    (cqOn s r.toNat = false → exec (.cqDisable q r) s = .next s)) ∧
  (∀ (q : BitVec 1) (r : BitVec 6) (s : State), bar0On s q.toNat = true →
    ((s.sq r.toNat).st = rACTIVE → exec (.sqDisable q r) s =
      .next ((s.setSq r.toNat { s.sq r.toNat with st := rDRAINING, burst := 0, err := 0 }).clr (F.SQ_C_EN r.toNat))) ∧
    (cqOn s r.toNat = true → (List.range 64).any (fun k => sqOn s k && s.get (F.SQ_8_CQID k) == r.toNat) = false →
      exec (.cqDisable q r) s = .next ((s.setCq r.toNat { s.cq r.toNat with st := rDISABLED, err := 0 }).clr (F.CQ_C_EN r.toNat))) ∧
    (cqOn s r.toNat = true → (List.range 64).any (fun k => sqOn s k && s.get (F.SQ_8_CQID k) == r.toNat) = true →
      exec (.cqDisable q r) s = .next (cqErr s r.toNat 7))) ∧
  (∀ (r : BitVec 6) (s : State), (s.sq r.toNat).st = rDRAINING → (cmds s).any (fun c => c.2.ring == r.toNat) = false →
    exec (.sqDrained r) s = .next (s.setSq r.toNat { s.sq r.toNat with st := rDISABLED })) ∧
  (∀ (q : BitVec 1) (r : BitVec 6) (s u : State), bar0On s q.toNat = true → (s.sq r.toNat).st = rHALTED →
    (s.sq r.toNat).reset = false → portUp s (curPort s (sqParty s r.toNat)) = true →
    u = (s.setSq r.toNat { s.sq r.toNat with st := rACTIVE, err := 0 }) →
    exec (.resume q false r) s = .next (((((u.setCq (s.get (F.SQ_8_CQID r.toNat))
        { u.cq (s.get (F.SQ_8_CQID r.toNat)) with st := rACTIVE }).resend fun k => k.ring == r.toNat).2).refetch
      (sqParty s r.toNat)).uqiRun)) ∧
  (∀ (q : BitVec 1) (r : BitVec 6) (s : State), bar0On s q.toNat = true → portUp s (curPort s (sqParty s r.toNat)) = false →
    exec (.resume q false r) s = .next s) ∧
  (∀ (q : BitVec 1) (r : BitVec 6) (s : State), bar0On s q.toNat = true → (s.cq r.toNat).st = rHALTED →
    portUp s (curPort s (cqParty s r.toNat)) = true →
    (List.range 64).any (fun k => (s.sq k).st == rACTIVE && s.get (F.SQ_8_CQID k) == r.toNat) = true →
    exec (.resume q true r) s = .next ((s.setCq r.toNat { s.cq r.toNat with st := rACTIVE, err := 0 }).uqiRun)) ∧
  (∀ (q : BitVec 1) (r : BitVec 6) (s u : State), bar0On s q.toNat = true → (s.sq r.toNat).st = rHALTED →
    u = s.setSq r.toNat { s.sq r.toNat with reset := true, err := 0 } →
    exec (.ringReset q r) s = .next ((State.each (fun (c : Nat × Cmd) t => if c.2.ring ≠ r.toNat then t
      else if c.2.posted then t.freeCmd c.1 else t.setCmd c.1 (some { c.2 with drop := true })) (cmds u) u).resetDone r.toNat)) ∧
  (∀ (q : BitVec 1) (r : BitVec 6) (s : State), bar0On s q.toNat = true → (s.sq r.toNat).st ≠ rHALTED →
    exec (.resume q false r) s = .next s ∧ exec (.ringReset q r) s = .next s)

/-- A doorbell page is acted on and the fetch asked for meanwhile follows (R366, R368); a burst's entries take command-
table entries and are checked, and the fetch pointer advances past them (R369, R380); a list page lets its transfers
go on, and one that cannot be read faults them with kind 6 (R371); a doorbell read that fails is abandoned (DEDUCED, log
entry 29) and a burst whose read fails stalls its ring; an acknowledged completion frees its entry and may send its ring's message (R370, R373); AGGTIME sends
the message of completions not yet signalled, and none where there are none. (15_host_link_rings.md) -/
def Obligations.RingFetchAndCompletionCommandsComplete : Prop :=
  (∀ (p : BitVec 4) (bs : List Byte) (s u : State), tabGet s.uqi.fetch 0 p.toNat ≠ 0 →
    u = { s with uqi := { s.uqi with fetch := tabPut s.uqi.fetch 0 p.toNat 0, dbref := setBit s.uqi.dbref p.toNat false } }.dbPage
      p.toNat (tabGet s.uqi.fetch 0 p.toNat) bs →
    exec (.doorbellReadDone p .ok bs) s = .next ((if u.uqi.again.testBit p.toNat
      then { u with uqi := { u.uqi with again := setBit u.uqi.again p.toNat false } }.dbRequest p.toNat
      else { u with uqi := { u.uqi with again := setBit u.uqi.again p.toNat false } }).uqiRun)) ∧
  (∀ (p : BitVec 4) (x : HostEnd) (bs : List Byte) (s u : State), x ≠ .ok → tabGet s.uqi.fetch 0 p.toNat ≠ 0 →
    s.uqi.again.testBit p.toNat = false →
    exec (.doorbellReadDone p x bs) s = .next ({ s with uqi := { s.uqi with
      fetch := tabPut s.uqi.fetch 0 p.toNat 0, again := setBit s.uqi.again p.toNat false } }.uqiRun)) ∧
  (∀ (p : BitVec 4) (r : BitVec 6) (x : HostEnd) (bs : List Byte) (e : List RmeErr) (s : State),
    (tabGet s.uqi.fetch 0 p.toNat = 0 → exec (.doorbellReadDone p x bs) s = .next s) ∧
    ((s.sq r.toNat).burst = 0 → exec (.entryBurstDone r x bs e) s = .next s)) ∧
  (∀ (r : BitVec 6) (bs : List Byte) (e : List RmeErr) (s u : State), (s.sq r.toNat).burst ≠ 0 →
    u = s.setSq r.toNat
      { s.sq r.toNat with burst := 0, fptr := ((s.sq r.toNat).fptr + (s.sq r.toNat).burst) % sqSize s r.toNat } →
    exec (.entryBurstDone r .ok bs e) s =
      .next (((State.takeEntries r.toNat (pieces 64 (s.sq r.toNat).burst bs) u).runChecks e).uqiRun)) ∧
  (∀ (r : BitVec 6) (x : HostEnd) (bs : List Byte) (e : List RmeErr) (s : State), x ≠ .ok → (s.sq r.toNat).burst ≠ 0 →
    exec (.entryBurstDone r x bs e) s =
      .next ((s.setSq r.toNat
        { s.sq r.toNat with burst := 0, stalled := true }).uqiRun)) ∧
  (∀ (i : BitVec 10) (a : BitVec 64) (bs : List Byte) (k : Cmd) (s u : State), s.cmd i.toNat = some k →
    s.uqi.jobs.any (fun (j : XJob) => j.idx == i.toNat && j.page == some a.toNat) = true →
    u = s.setCmd i.toNat (some { k with pages := k.pages ++ [(a.toNat, slice bs 0 4096)] }) →
    exec (.listPageReadDone i a .ok bs) s = .next ({ u with uqi := { u.uqi with
      jobs := u.uqi.jobs.map fun (j : XJob) => if j.idx == i.toNat && j.page == some a.toNat then { j with page := none } else j } }.uqiRun)) ∧
  (∀ (i : BitVec 10) (a : BitVec 64) (x : HostEnd) (bs : List Byte) (k : Cmd) (s : State), x ≠ .ok → s.cmd i.toNat = some k →
    s.uqi.jobs.any (fun (j : XJob) => j.idx == i.toNat && j.page == some a.toNat) = true → ∃ l : List XJob,
    exec (.listPageReadDone i a x bs) s = .next (({ s with uqi := { s.uqi with jobs := l } }.listFault k 6 (k.pages.length + 1) 0 a.toNat).uqiRun) ∧
    l.length = s.uqi.jobs.length ∧ ∀ j ∈ l, (j.idx = i.toNat → j.page ≠ some a.toNat) ∧
      (j ∈ s.uqi.jobs ∨ j.page = none ∧ j.fault = some (21, 6))) ∧
  (∀ (i : BitVec 10) (s : State), s.uqi.cpls.find? (fun x => x.idx == i.toNat && x.slot.isSome) = none →
    exec (.completionWritten i) s = .next s.uqiRun) ∧
  (∀ (i : BitVec 10) (c : Cpl) (s u : State), s.uqi.cpls.find? (fun x => x.idx == i.toNat && x.slot.isSome) = some c →
    u = (s.freeCmd i.toNat).setCq c.cq { (s.freeCmd i.toNat).cq c.cq with unsig := ((s.freeCmd i.toNat).cq c.cq).unsig + 1 } →
    exec (.completionWritten i) s = .next ((if u.on (F.CQ_8_IEN c.cq) ∧ (u.cq c.cq).unsig ≥ u.get (F.CQ_8_AGGTHR c.cq) + 1
      then u.cqMessage c.cq else u).uqiRun)) ∧
  (∀ (r : BitVec 6) (s : State), (s.cq r.toNat).unsig ≠ 0 → s.on (F.CQ_8_IEN r.toNat) = true →
    s.get (F.CQ_C_AGGTIME r.toNat) ≠ 0 → exec (.msixAggregationTimeout r) s = .next (s.cqMessage r.toNat)) ∧
  (∀ (r : BitVec 6) (s : State), (s.cq r.toNat).unsig = 0 ∨ s.on (F.CQ_8_IEN r.toNat) = false ∨
    s.get (F.CQ_C_AGGTIME r.toNat) = 0 → exec (.msixAggregationTimeout r) s = .next s)

/-- For a ring that has work, with its base aligned to 4 KiB, its fetch pointer and its tail below its size: a burst holds
1 to 8 entries, ends at or before the end of the ring and the tail, and lies within one 4 KiB page (R369).
(15_host_link_rings.md) -/
def Obligations.EntryBurstsStayInRingAndPage : Prop :=
  ∀ (s : State) (r : Nat), sqWork s r = true → (s.sq r).fptr < sqSize s r → (s.sq r).tail < sqSize s r →
    1 ≤ burstLen s r ∧ burstLen s r ≤ 8 ∧ (s.sq r).fptr + burstLen s r ≤ sqSize s r ∧
    burstLen s r ≤ roomFor s (sqParty s r) ∧
    ((s.sq r).fptr < (s.sq r).tail → (s.sq r).fptr + burstLen s r ≤ (s.sq r).tail) ∧
    (sqBase s r + 64 * (s.sq r).fptr) / 4096 = (sqBase s r + 64 * ((s.sq r).fptr + burstLen s r) - 1) / 4096

/-- With the window check on and no window holding the doorbell page's range, or a function's BAR0 in it, a WAKE sends
nothing to the host and sets DBREF of the party (R360, R368); the range is refused exactly in the three cases of R360.
(15_host_link_rings.md) -/
def Obligations.RefusedHostRangesSendNothing : Prop :=
  (∀ (q : BitVec 1) (p : BitVec 4) (a : Nat) (s : State), bar0On s q.toNat = true → tabGet s.uqi.fetch 0 p.toNat = 0 →
    s.on (F.DBP_0_EN p.toNat) = true → highRing s p.toNat ≠ 0 → portUp s (curPort s p.toNat) = true →
    a = s.get (F.DBP_0_ADDR_LO p.toNat) * 4096 + s.get (F.DBP_4_ADDR_HI p.toNat) * 4294967296 →
    hostCheck s a (16 * highRing s p.toNat) ≠ none → ∃ t : State, exec (.wake q p) s = .next t ∧ t.out = s.out ∧
      t.uqi.dbref.testBit p.toNat = true ∧ t.uqi.fetch = s.uqi.fetch) ∧
  (∀ (s : State) (a n : Nat), 0 < n → x2 s = false → (hostCheck s a n = none ↔
    (∀ q, q < 2 → (s.port q).bar = 0 ∨ a + n ≤ (s.port q).bar.toNat ∨ (s.port q).bar.toNat + 0x4000 ≤ a) ∧
    (s.on F.HMWCTL_EN = true → ∃ k, k < 8 ∧ inWindow s k a n = true) ∧ a + n ≤ 2 ^ 64))

/-- A READ, WRITE, WRITE_ZEROES or DEALLOCATE whose every block is done completes with SUCCESS and EXTENT_DONE = NLB
(R393, R397); before that it moves valid sectors to the host, commits the sectors whose host data has come, or lets a
range leave the dirty set and read as zeros (R387, R388); a FLUSH with nothing covered dirty completes with SUCCESS
and EXTENT_DONE 0, and with recovery failed with WRITE_FAULT (R389); an ABORT asks its target to end, or completes
with SPEC 0 where there is none (R390); IDENTIFY and RESIDUE_READ send their bytes and complete (R391, R392). How
firmware splits its work into steps is the model's choice (DESIGN CHOICE, log entry 70). (16_commands_completion.md) -/
def Obligations.HostCommandsComplete : Prop :=
  (∀ (i : BitVec 10) (k : Cmd) (e : List RmeErr) (g : Bool) (s : State), k.fw.phase = 0 → k.fw.stop = false → fwHeld s k = false →
    keyMissing s k.party = false → chunkAt s k k.fw.pos = none →
    (fwCmd s i.toNat 0x02 = some k → exec (.read i e) s = .next (s.fwEnd i.toNat k 0 (sqeOf k.bytes).nlb 0)) ∧
    (fwCmd s i.toNat 0x01 = some k → (sqeOf k.bytes).fua = false →
      exec (.write i g e) s = .next (s.fwEnd i.toNat k 0 (sqeOf k.bytes).nlb 0)) ∧
    (fwCmd s i.toNat 0x04 = some k → (sqeOf k.bytes).fua = false →
      exec (.writeZeroes i g e) s = .next (s.fwEnd i.toNat k 0 (sqeOf k.bytes).nlb 0)) ∧
    (fwCmd s i.toNat 0x05 = some k → exec (.deallocate i e) s = .next (s.fwEnd i.toNat k 0 (sqeOf k.bytes).nlb 0))) ∧
  (∀ (i : BitVec 10) (k : Cmd) (e : List RmeErr) (x n key : Nat) (r : LookRes) (s u : State), k.fw.phase = 0 → k.fw.stop = false →
    fwHeld s k = false → keyMissing s k.party = false → fwCmd s i.toNat 0x02 = some k → chunkAt s k k.fw.pos = some (x, n) →
    maskOf (x % 64) n &&& (segMasks s k.party x).e &&& (segMasks s k.party x).v = 0 →
    (∀ j, j < n → (segMasks s k.party x).v.getLsbD (x % 64 + j) = true) →
    s.firnLookup k.party x n .look true = (r, u) → r.key = some key → unitWhole s k k.fw.pos = true →
    exec (.read i e) s = .next ((u.fwMove i.toNat k { k.fw with key, gen := (u.tag key).gen, first := x, n } true
      (secAddr u key (x % 64) + (unitSpan s k k.fw.pos).2.2) (unitSpan s k k.fw.pos).1 (4096 * n)).getD s)) ∧
  (∀ (i : BitVec 10) (k : Cmd) (g : Bool) (e : List RmeErr) (r : XRes) (s u : State), fwCmd s i.toNat 0x01 = some k →
    k.fw.phase = 2 → s.fwResult k = some (r, u) → r.cause = 0 →
    exec (.write i g e) s = .next ((u.unpinTag k.fw.key k.fw.gen).2.fwCommit i.toNat k k.fw
      (unitWhole (u.unpinTag k.fw.key k.fw.gen).2 k k.fw.pos))) ∧
  (∀ (i : BitVec 10) (k : Cmd) (e : List RmeErr) (x n : Nat) (s : State), fwCmd s i.toNat 0x05 = some k → k.fw.phase = 0 →
    k.fw.stop = false → fwHeld s k = false → chunkAt s k k.fw.pos = some (x, n) → unitWhole s k k.fw.pos = true →
    maskOf (x % 64) n &&& (segMasks s k.party x).l = 0 → ∃ t u : State, exec (.deallocate i e) s = .next t ∧
    u = (s.maintAddr .discard k.party x n).2.unzero k.party x n ∧ (∀ j, j < n → isZeroed t k.party (x + j) = true) ∧
    t.firn = u.firn ∧ t.store = u.store ∧ t.buf = u.buf ∧ t.regs = u.regs) ∧
  (∀ (i : BitVec 10) (k : Cmd) (s : State), fwCmd s i.toNat 0x00 = some k → k.fw.phase = 3 → k.fw.stop = false →
    (∀ g : Bool, stillDirty s k.party k.fw.cover = [] → exec (.flush i g) s = .next (s.fwEnd i.toNat k 0 0 0)) ∧
    (∀ c, stillDirty s k.party k.fw.cover = [c] → s.on (F.UQI_PCFG_EMU k.party) = false →
      exec (.flush i true) s = .next (s.fwEnd i.toNat k 0x12 0 (popcount c.2)))) ∧
  (∀ (i : BitVec 10) (k : Cmd) (s : State), fwCmd s i.toNat 0x08 = some k →
    (k.fw.phase = 0 → abortTarget s k = none → exec (.abort i) s = .next (s.fwEnd i.toNat k 0 0 0)) ∧
    (∀ c : Nat × Cmd, k.fw.phase = 0 → abortTarget s k = some c → exec (.abort i) s =
      .next ((s.setFw c.1 c.2 { c.2.fw with stop := true }).setFw i.toNat k { k.fw with phase := 3, aim := some c.1 })) ∧
    (k.fw.phase = 3 → k.fw.aim = none → exec (.abort i) s = .next (s.fwEnd i.toNat k 0 0 (if k.fw.hit then 1 else 0)))) ∧
  (∀ (i : BitVec 10) (b : Word) (k : Cmd) (r : XRes) (s u : State), fwCmd s i.toNat 0x0C = some k →
    (k.fw.phase = 0 → k.fw.stop = false → exec (.identify i b) s = .next (s.fwSend i.toNat k b.toNat (identifyData s k.party))) ∧
    (k.fw.phase = 2 → s.fwResult k = some (r, u) → r.cause = 0 → exec (.identify i b) s = .next (u.fwEnd i.toNat k 0 0 0))) ∧
  (∀ (i : BitVec 10) (b : Word) (k : Cmd) (l : List Byte) (o : Nat) (r : XRes) (s u : State), fwCmd s i.toNat 0x0F = some k →
    l = residueReport s k.party → o = leNat (slice k.bytes 0x30 4) →
    (k.fw.phase = 0 → k.fw.stop = false → o < l.length → exec (.residueRead i b) s =
      .next (s.fwSend i.toNat k b.toNat (slice l o (Nat.min (sqeOf k.bytes).dlen (l.length - o))))) ∧
    (k.fw.phase = 0 → k.fw.stop = false → l.length ≤ o → exec (.residueRead i b) s = .next (s.fwEnd i.toNat k 0x02 0 0x30)) ∧
    (k.fw.phase = 2 → s.fwResult k = some (r, u) → r.cause = 0 → exec (.residueRead i b) s = .next (u.fwEnd i.toNat k 0 0 l.length)))

/-- A request is accepted, or refused with BADARG or FULL (R402, R411); the next target is posted with SV's line 15 raised
(R403); a matching acknowledgement arms and another sets ACKERR (R403, R404); the clean queue's oldest entry becomes a
request (R408); results are removed, shares set while they sum to at most 256 (R406), HWORD written while the
scheduler's media half is idle (R400). UQI_CPOST commits one completion of a command of the writing core and refuses
another with BADINDEX; UQI_XCMD queues a transfer; the pops remove the oldest; SEC sets ring parties and block sizes
where no ring in question is enabled (R378, R410). A register that a master does not have ignores its write. The master is no
core that runs gated. (15_host_link_rings.md, 16_commands_completion.md) -/
def Obligations.OrdererAndCoreQueueCommandsComplete : Prop :=
  (∀ (m : Master) (v : Word) (e : List RmeErr) (b : Nat) (s : State), m ≠ .sv → gated s m = false → b = s.get (F.ORD_RQ2_BUF m) →
    (b % 4096 ≠ 0 ∨ inFrames b = false ∨ (s.on (F.ORD_RQ1_XTS m) = false ∧ s.on F.DMA_CTL_XTSREQ = true) ∨
      (s.on (F.ORD_RQ1_DIR m) = true ∧ s.on (F.ORD_RQ1_RETRY m) = true) →
      exec (.ordRequest m v e) s = .next (s.put (F.ORD_RQRES_RESULT m) 2)) ∧
    (b % 4096 = 0 → inFrames b = true → (s.on F.DMA_CTL_XTSREQ = true → s.on (F.ORD_RQ1_XTS m) = true) →
      (s.on (F.ORD_RQ1_DIR m) = true → s.on (F.ORD_RQ1_RETRY m) = false) →
      (512 ≤ s.ord.reqs.length → exec (.ordRequest m v e) s = .next (s.put (F.ORD_RQRES_RESULT m) 1)) ∧
      (s.ord.reqs.length < 512 → ∃ r : OrdReq, exec (.ordRequest m v e) s = .next ((s.put (F.ORD_RQRES_RESULT m) 0).ordAccept r) ∧
        r.core = m ∧ r.rtag = bitsOf v 7 0 ∧ r.mlba = s.get (F.ORD_RQ0_MLBA m) + s.get (F.ORD_RQ1_MLBA m) * 4294967296 ∧
        r.offs = List.range (s.get (F.ORD_RQ1_NSECM1 m) + 1) ∧ r.write = s.on (F.ORD_RQ1_DIR m) ∧
        r.party = s.get (F.ORD_RQ1_PARTY m) ∧ r.buf = b ∧ r.placed = false ∧ r.ops = []))) ∧
  (∀ (o : OrdOp) (s : State), ordMay s = true → s.on F.ORD_NEXT_VALID = false → armedOps s = [] → chooseTarget s = some o →
    exec .ordSelectTarget s = .next ((((s.put F.ORD_NEXT_TRK o.track).put F.ORD_NEXT_HEAD o.head).raiseBit
      F.ORD_NEXT_VALID).setIn F.SRV_AIRQ_LINE 15)) ∧
  (∀ (v : Word) (s : State),
    (s.on F.ORD_NEXT_VALID = true → bitsOf v 23 0 = s.get F.ORD_NEXT_TRK → bitsOf v 28 24 = s.get F.ORD_NEXT_HEAD →
      exec (.ordAck .sv v) s = .next (((s.clr F.ORD_NEXT_VALID).onOrd fun o =>
        { o with pos := some (bitsOf v 28 24, bitsOf v 23 0) }).ordSettle)) ∧
    (s.on F.ORD_NEXT_VALID = false ∨ bitsOf v 23 0 ≠ s.get F.ORD_NEXT_TRK ∨ bitsOf v 28 24 ≠ s.get F.ORD_NEXT_HEAD →
      exec (.ordAck .sv v) s = .next (s.raiseBit F.ORD_STAT_ACKERR))) ∧
  (∀ (m : Master) (p : BitVec 4) (r : BitVec 6) (v : Word) (e : List RmeErr) (s : State), gated s m = false →
    (m ≠ .sv → exec (.ordAck m v) s = .next s) ∧ (m = .sv → exec (.ordRequest m v e) s = .next s ∧ exec (.ordRespop m) s = .next s) ∧
    (m ≠ .sec → exec (.ordShareWrite m p v) s = .next s ∧ exec (.rpartyWrite m r v) s = .next s ∧ exec (.pcfgWrite m p v) s = .next s) ∧
    (m ≠ .sec → m ≠ .mc → exec (.hwordWrite m v) s = .next s) ∧
    (isHc m = false → exec (.uqiCpost m v) s = .next s ∧ exec (.uqiXcmd m v) s = .next s ∧ exec (.uqiXpop m v) s = .next s ∧
      exec (.uqiDqpop m v) s = .next s)) ∧
  (∀ (x : ClqEnt) (l : List ClqEnt) (e : List RmeErr) (s : State), s.firn.clq = x :: l → s.on F.ASC_CTL_HWORD = true →
    firnAwake s = true → s.ord.reqs.length < 512 → ∃ r : OrdReq,
    exec (.ordClqTake e) s = .next ((s.onFirn fun f => { f with clq := l }).ordAccept r) ∧ r.clq = some x ∧
      r.write = true ∧ r.mlba = x.lba ∧ r.offs = sectorsOf x.mask ∧ r.party = x.owner ∧ r.buf = x.frame) ∧
  (∀ (s : State) (l : List OrdReq),
    l = (s.ord.reqs.map fun r =>
      if r.since + Nat.max (s.get F.ORD_CTL_AGE) 1 * 4294967296 ≤ angleNow s then { r with urgent := true } else r) →
    exec .ordUrgent s = .next { s with ord := { s.ord with reqs := l } }) ∧
  (∀ (m : Master) (r : OrdRes) (l : List OrdRes) (s : State), m ≠ .sv → gated s m = false → tabGet s.ord.results [] m.idx = r :: l →
    exec (.ordRespop m) s = .next ((s.onOrd fun o => { o with results := tabPut o.results [] m.idx l }).putB
      (F.ORD_EVT_RESV m) (!l.isEmpty))) ∧
  (∀ (p : BitVec 4) (v : Word) (n : Nat) (s : State), s.on F.ISO_STAT_LOCKED = false →
    n = (((List.range 16).filter (· != p.toNat)).map fun q => s.get (F.ORD_SHARE_SHARE q)).foldl (fun a b => a + b) 0 →
    (n + bitsOf v 7 0 ≤ 256 → exec (.ordShareWrite .sec p v) s = .next (s.put (F.ORD_SHARE_SHARE p.toNat) (bitsOf v 7 0))) ∧
    (256 < n + bitsOf v 7 0 → exec (.ordShareWrite .sec p v) s = .next s)) ∧
  (∀ (m : Master) (v : Word) (s : State), m = .sec ∨ m = .mc → gated s m = false → s.get F.ASC_STAT_MEDIA_CNT = 0 →
    (∀ t, t < 128 → mopState s t = mopFREE ∨ mopState s t = mopDONE) →
    exec (.hwordWrite m v) s = .next ((s.putB F.ASC_CTL_HWORD (v.getLsbD 0)).ordSettle)) ∧
  (∀ (m : Master) (v : Word) (k : Cmd) (s : State), isHc m = true → gated s m = false → s.cmd (bitsOf v 9 0) = some k →
    (k.core = some m → k.posted = false → exec (.uqiCpost m v) s = .next (((s.clr (F.UQI_CPRES_BADINDEX m)).commitCpl
      (bitsOf v 9 0) k (bitsOf v 23 16) (s.get (F.UQI_CPED_ED m)) (s.get (F.UQI_CPSPEC_SPEC m))).uqiRun)) ∧
    (k.core ≠ some m ∨ k.posted = true → exec (.uqiCpost m v) s = .next (s.raiseBit (F.UQI_CPRES_BADINDEX m)))) ∧
  (∀ (m : Master) (v : Word) (k : Cmd) (n : Nat) (s : State), isHc m = true → gated s m = false →
    n = (s.uqi.jobs.filter fun (j : XJob) => j.core == m).length →
    (32 ≤ n → exec (.uqiXcmd m v) s = .next (s.raiseBit F.UQI_EVT_XFULL)) ∧
    (n < 32 → s.cmd (bitsOf v 9 0) = some k → k.core = some m → k.posted = false → 0 < s.get (F.UQI_XLEN_LEN m) →
      s.get (F.UQI_XOFF_OFF m) + s.get (F.UQI_XLEN_LEN m) ≤ (sqeOf k.bytes).dlen → ∃ j : XJob,
      exec (.uqiXcmd m v) s = .next ((s.onUqi fun u => { u with jobs := u.jobs ++ [j] }).uqiRun) ∧ j.core = m ∧
      j.idx = bitsOf v 9 0 ∧ j.xbuf = s.get (F.UQI_XBUF_ADDR m) ∧ j.xoff = s.get (F.UQI_XOFF_OFF m) ∧
      j.xlen = s.get (F.UQI_XLEN_LEN m) ∧ j.out = (bitsOf v 10 10 == 1) ∧ j.pi = (bitsOf v 11 11 == 1) ∧ j.xtag = bitsOf v 23 16)) ∧
  (∀ (m : Master) (v : Word) (s : State), isHc m = true → gated s m = false → s.cmd (bitsOf v 9 0) = none →
    exec (.uqiCpost m v) s = .next (s.raiseBit (F.UQI_CPRES_BADINDEX m))) ∧
  (∀ (v : Word) (s : State), bitsOf v 0 0 = 1 →
    (gated s .hc0 = false → exec (.uqiDqpop .hc0 v) s = .next { s with uqi := { s.uqi with dq0 := s.uqi.dq0.drop 1 } }) ∧
    (gated s .hc1 = false → exec (.uqiDqpop .hc1 v) s = .next { s with uqi := { s.uqi with dq1 := s.uqi.dq1.drop 1 } }) ∧
    (∀ (m : Master) (r : XRes) (l k : List XRes), isHc m = true → gated s m = false → s.uqi.res = k ++ r :: l → r.core = m →
      (∀ x ∈ k, x.core ≠ m) → exec (.uqiXpop m v) s = .next { s with uqi := { s.uqi with res := k ++ l } })) ∧
  (∀ (r : BitVec 6) (p : BitVec 4) (v : Word) (s : State), s.on F.ISO_STAT_LOCKED = false →
    (sqOn s r.toNat = true ∨ cqOn s r.toNat = true → exec (.rpartyWrite .sec r v) s = .next s) ∧
    (partyRings s p.toNat = true → exec (.pcfgWrite .sec p v) s = .next s) ∧
    (sqOn s r.toNat = false → cqOn s r.toNat = false →
      exec (.rpartyWrite .sec r v) s = .next (s.wr (R.UQI_RPARTY r.toNat) (v &&& 0xF0F))) ∧
    (partyRings s p.toNat = false → exec (.pcfgWrite .sec p v) s = .next (s.wr (R.UQI_PCFG p.toNat) (v &&& 1))))

/-- SEC's LOCK write checks the conditions in order; the first that fails is named in RES, with the party where the key
condition fails, and nothing is locked; with none failing LOCKED becomes 1, RES reads 0 and record 0x0501 is submitted
(R413, Table 17.2); a write by another master that is no core running gated changes nothing (R425). (17_isolation.md) -/
def Obligations.IsolationLockChecksItsConditions : Prop :=
  (∀ s : State, (s.on F.ISO_STAT_LOCKED = true → exec (.isoLock .sec) s = .next ((s.put F.ISO_STAT_RES 7).put F.ISO_STAT_PARTY 0)) ∧
    (s.on F.ISO_STAT_LOCKED = false →
      (s.on F.SST_STAT_ALLOK = false → exec (.isoLock .sec) s = .next ((s.put F.ISO_STAT_RES 1).put F.ISO_STAT_PARTY 0)) ∧
      (s.on F.SST_STAT_ALLOK = true →
        (s.on F.FIRN_STAT_PLOCKED = false → exec (.isoLock .sec) s = .next ((s.put F.ISO_STAT_RES 2).put F.ISO_STAT_PARTY 0)) ∧
        (s.on F.FIRN_STAT_PLOCKED = true →
          (s.on F.RME_STAT_WLOCKED = false ∨ s.bit F.RME_STAT_CHFAULT 1 = true →
            exec (.isoLock .sec) s = .next ((s.put F.ISO_STAT_RES 3).put F.ISO_STAT_PARTY 0)) ∧
          (s.on F.RME_STAT_WLOCKED = true → s.bit F.RME_STAT_CHFAULT 1 = false →
            (s.on F.DMA_CTL_CFGLOCK = false ∨ s.on F.DMA_CTL_XTSREQ = false →
              exec (.isoLock .sec) s = .next ((s.put F.ISO_STAT_RES 4).put F.ISO_STAT_PARTY 0)) ∧
            (s.on F.DMA_CTL_CFGLOCK = true → s.on F.DMA_CTL_XTSREQ = true →
              (∀ p : Nat, p < 16 → partyActive s p = true → s.on (F.CRY_SLOT_READY p) = false →
                (∀ q, q < p → partyActive s q = true → s.on (F.CRY_SLOT_READY q) = true) →
                exec (.isoLock .sec) s = .next ((s.put F.ISO_STAT_RES 5).put F.ISO_STAT_PARTY p)) ∧
              ((∀ p, p < 16 → partyActive s p = true → s.on (F.CRY_SLOT_READY p) = true) →
                ((∃ n, n < 64 ∧ s.get (F.UQI_RPARTY_SQPARTY n) ≠ s.get (F.UQI_RPARTY_CQPARTY n)) →
                  exec (.isoLock .sec) s = .next ((s.put F.ISO_STAT_RES 6).put F.ISO_STAT_PARTY 0)) ∧
                ((∀ n, n < 64 → s.get (F.UQI_RPARTY_SQPARTY n) = s.get (F.UQI_RPARTY_CQPARTY n)) → ∃ u : State,
                  u = (s.put F.ISO_STAT_RES 0).put F.ISO_STAT_PARTY 0 ∧
                  exec (.isoLock .sec) s = .next (((u.raiseBit F.ISO_STAT_LOCKED).raiseBit F.ISO_CTL_LOCK).event 0x0501 0xFF (leBytes 2 (u.get F.FIRN_DTOTAL_DTOTAL) ++
                    leBytes 2 (rmeUsed u true) ++ (List.range 16).flatMap (isoParty u))))))))))) ∧
  (∀ (m : Master) (s : State), m ≠ .sec → gated s m = false → exec (.isoLock m) s = .next s)

/-- A target without a dynamic address takes the one ENTDAA or SETDASA gives it, and MGT_STAT shows it; SETNEWDA and
RSTDAA change and remove it; ENEC, DISEC, SETMWL and SETMRL reach the target addressed, or every one, and no other;
the GET codes answer with the bytes of Table 18.1 (R426, R427; the values of GETSTATUS and of GETMRL's third byte are
the model's choice, log entry 61). A private write fills the task registers: a complete write of CMD starts a command,
and while one is held further writes of CMD, ARG and DATA are ignored and counted (R429, R430); a private read returns
words; completing a command raises the in-band interrupt, and clearing DONE readies the file (R430, R431, R449).
(18_management_path.md) -/
def Obligations.ManagementBusCommandsComplete : Prop :=
  (∀ (b : Bool) (a : BitVec 7) (s : State), i3cOn s = true → (i3cTarget s b).addr = none → s.regsWf = true → ∃ t : State,
    exec (.entdaa b a) s = .next t ∧ exec (.setdasa (staticAddr s b) a) s = .next t ∧ i3cTarget t b = { i3cTarget s b with addr := some a } ∧
    i3cTarget t (!b) = i3cTarget s (!b) ∧ t.on (if b then F.MGT_STAT_VDAV else F.MGT_STAT_DAV) = true ∧
    t.get (if b then F.MGT_STAT_VDA else F.MGT_STAT_DA) = a.toNat) ∧
  (∀ (b : Bool) (a c : BitVec 7) (s : State), answering s a = some b →
    exec (.setnewda a c) s = .next (s.setTarget b { i3cTarget s b with addr := some c })) ∧
  (∀ s : State, i3cOn s = true → s.regsWf = true → ∃ t : State, exec .rstdaa s = .next t ∧ t.mgt.task.addr = none ∧
    t.mgt.mctp.addr = none) ∧
  (∀ (a : Option (BitVec 7)) (e : BitVec 8) (n : BitVec 16) (b : Bool) (s : State), i3cOn s = true → s.regsWf = true →
    ∃ t u v w : State, exec (.enec a e) s = .next t ∧ exec (.disec a e) s = .next u ∧ exec (.setmwl a n) s = .next v ∧
    exec (.setmrl a n) s = .next w ∧
    ((i3cTarget s b).addr ≠ none → a = none ∨ a = (i3cTarget s b).addr →
      i3cTarget t b = { i3cTarget s b with ibi := (i3cTarget s b).ibi || e.getLsbD 0 } ∧
      i3cTarget u b = { i3cTarget s b with ibi := (i3cTarget s b).ibi && !e.getLsbD 0 } ∧
      (16 ≤ n.toNat → n.toNat ≤ 4100 → i3cTarget v b = { i3cTarget s b with mwl := n.toNat } ∧
        i3cTarget w b = { i3cTarget s b with mrl := n.toNat }) ∧
      (n.toNat < 16 ∨ 4100 < n.toNat → i3cTarget v b = i3cTarget s b ∧ i3cTarget w b = i3cTarget s b)) ∧
    ((i3cTarget s b).addr = none ∨ (a ≠ none ∧ a ≠ (i3cTarget s b).addr) →
      i3cTarget t b = i3cTarget s b ∧ i3cTarget u b = i3cTarget s b ∧ i3cTarget v b = i3cTarget s b ∧ i3cTarget w b = i3cTarget s b)) ∧
  (∀ (a : BitVec 7) (b : Bool) (s : State), answering s a = some b →
    exec (.getpid a) s = .next (s.emit (.i3c (beBytes 6 (0x0F3A * 2 ^ 33 + 0x7640 * 2 ^ 16 +
      (s.get F.PMX_STRAP_I3C_SA + (if b then 8 else 0)) * 2 ^ 12)))) ∧
    exec (.getbcr a) s = .next (s.emit (.i3c [if b then 0x16 else 0x06])) ∧ exec (.getdcr a) s = .next (s.emit (.i3c [0])) ∧
    exec (.getstatus a) s = .next (s.emit (.i3c [0, 0])) ∧
    exec (.getmwl a) s = .next (s.emit (.i3c (beBytes 2 (i3cTarget s b).mwl))) ∧
    exec (.getmrl a) s = .next (s.emit (.i3c (beBytes 2 (i3cTarget s b).mrl ++ [1])))) ∧
  (∀ (a : BitVec 7) (s : State), answering s a = none → exec (.getpid a) s = .next s ∧ exec (.getbcr a) s = .next s ∧
    exec (.getdcr a) s = .next s ∧ exec (.getstatus a) s = .next s ∧ exec (.getmwl a) s = .next s ∧ exec (.getmrl a) s = .next s) ∧
  (∀ (k b0 b1 b2 b3 : Byte) (l : List Byte) (v : Word) (s : State), i3cOn s = true → s.mgt.task.addr.isSome = true →
    v = BitVec.ofNat 32 (leNat [b0, b1, b2, b3]) →
    (15 < k.toNat → exec (.taskPrivateWrite (k :: l)) s = .next s.trfOvr) ∧
    (k.toNat ≤ 15 → exec (.taskPrivateWrite [k]) s = .next (s.onMgt fun g => { g with rindex := k.toNat })) ∧
    (trfHeld s = true → k.toNat ≤ 7 ∨ k.toNat = 15 → exec (.taskPrivateWrite [k, b0, b1, b2, b3]) s = .next s.trfOvr) ∧
    (9 ≤ k.toNat → k.toNat ≤ 14 → exec (.taskPrivateWrite [k, b0, b1, b2, b3]) s = .next s) ∧
    (trfHeld s = false →
      (exec (.taskPrivateWrite [0, b0, b1, b2, b3]) s = .next ((((s.wr R.TRF_CMD (v &&& 0xFFFF)).raiseBit F.TRF_STAT_BUSY).put
        F.TRF_STAT_TAG b1.toNat).raiseBit F.MGT_STAT_CMDPEND)) ∧
      (1 ≤ k.toNat → k.toNat ≤ 7 → exec (.taskPrivateWrite [k, b0, b1, b2, b3]) s = .next (s.wr (R.TRF_ARG (k.toNat - 1)) v)) ∧
      (dcnt s + 4 ≤ 4096 → exec (.taskPrivateWrite [15, b0, b1, b2, b3]) s = .next (s.dataAppend [b0, b1, b2, b3])))) ∧
  (∀ s : State, i3cOn s = true → s.mgt.task.addr.isSome = true →
    (s.mgt.rindex < 15 → exec (.taskPrivateRead 1) s = .next (s.emit (.i3c (leBytes 4 (s.rd (R.TRF_CMD + 4 * s.mgt.rindex)).toNat)))) ∧
    (s.mgt.rindex = 15 → 4 ≤ dcnt s → exec (.taskPrivateRead 1) s = .next (((s.put F.TRF_DCNT_DCNT (dcnt s - 4)).onMgt fun g =>
      { g with dpos := g.dpos + 4 }).emit (.i3c (dataBuf s 4)))) ∧
    (s.mgt.rindex = 15 → dcnt s = 0 → ∃ t : State, exec (.taskPrivateRead 1) s = .next t ∧ t.out = s.out ++ [.i3c (zeros 4)] ∧
      t.mgt = s.mgt)) ∧
  (∀ (v : Word) (s : State), i3cOn s = true → s.mgt.task.addr.isSome = true →
    (v.getLsbD 3 = false → v.getLsbD 1 = true → s.on F.TRF_STAT_DONE = true → exec (.doneClear v) s =
      .next ((((s.clr F.TRF_STAT_DONE).clr F.TRF_STAT_DATARDY).clr F.TRF_STAT_RESULT).dataEmpty)) ∧
    (v.getLsbD 3 = true → v.getLsbD 1 = false → exec (.doneClear v) s = .next (s.clr F.TRF_STAT_OVR))) ∧
  (∀ (l : List Byte) (n : BitVec 11) (v : Word) (s : State), i3cOn s = false ∨ s.mgt.task.addr = none →
    exec (.taskPrivateWrite l) s = .next s ∧ exec (.taskPrivateRead n) s = .next s ∧ exec (.doneClear v) s = .next s) ∧
  (∀ (v : Word) (s : State), (v.getLsbD 0 = true → exec (.mgtTake .sec v) s = .next (s.clr F.MGT_STAT_CMDPEND)) ∧
    (s.on F.TRF_STAT_BUSY = true → s.regsWf = true → ∃ t : State, exec (.mgtDone .sec v) s = .next t ∧ t.on F.TRF_STAT_BUSY = false ∧
      t.on F.TRF_STAT_DONE = true ∧ t.get F.TRF_STAT_RESULT = bitsOf v 7 0 ∧ t.on F.TRF_STAT_DATARDY = v.getLsbD 8 ∧
      t.on F.MGT_STAT_CMDPEND = false ∧ t.mgt = s.mgt ∧
      t.out = s.out ++ (if i3cOn s = true ∧ s.mgt.task.addr.isSome = true ∧ s.mgt.task.ibi = true then [.ibi 0xA1] else []))) ∧
  (∀ (m : Master) (v : Word) (s : State), m ≠ .sec → gated s m = false → exec (.mgtTake m v) s = .next s ∧ exec (.mgtDone m v) s = .next s)

/-- A command taken by the server completes with the RESULT, RES words and output bytes of its row of Table 18.4: IDENT,
the partition commands (R434, R416), the self-tests (R440 to R443), firmware staging (R436 to R439) and Moraine
retrieval (R435); an unknown opcode, or one not served in RECOVERY, completes with BADOP (R433).
(18_management_path.md, 17_isolation.md) -/
def Obligations.ManagementCommandsComplete : Prop :=
  (∀ (u : State) (n : Nat) (l : List Nat) (o : Option (List Byte)), u.on F.TRF_STAT_BUSY = true → u.regsWf = true → n < 256 →
    (u.ends n l o).on F.TRF_STAT_DONE = true ∧ (u.ends n l o).on F.TRF_STAT_BUSY = false ∧
    (u.ends n l o).get F.TRF_STAT_RESULT = n ∧ (u.ends n l o).on F.TRF_STAT_DATARDY = o.isSome) ∧
  (∀ (s u : State), s.Takes u 0x01 → exec .ident s = .next (u.ends 0 [(idWord u).toNat, (u.rd R.SST_STAT).toNat, (u.rd R.PCM_MODE).toNat, (u.rd R.ISO_STAT).toNat, (u.rd R.MOR_BOOT).toNat])) ∧
  (∀ s : State, mgtTurn s (s.get F.TRF_CMD_OP) = true → opRefused s (s.get F.TRF_CMD_OP) = true → s.regsWf = true →
    exec .badOpcode s = .next ((s.clr F.MGT_STAT_CMDPEND).ends 1)) ∧
  (∀ (s u : State), s.Takes u 0x10 →
    (u.on F.ISO_STAT_LOCKED = true ∨ u.on F.FIRN_STAT_PLOCKED = true → exec .partCfg s =
      .next (u.ends 4 [(u.rd R.FIRN_STAT).toNat])) ∧
    (u.on F.ISO_STAT_LOCKED = false → u.on F.FIRN_STAT_PLOCKED = false → firnAwake u = true →
      argBits u 3 14 0 ≤ u.get F.FIRN_DTOTAL_DTOTAL →
      (((List.range 16).filter (· != argBits u 0 3 0)).map fun q => u.get (F.ORD_SHARE_SHARE q)).foldl (fun a b => a + b) 0 +
        argBits u 1 31 24 ≤ 256 →
      (partTakes u (argBits u 0 3 0) (arg u 1 &&& 0x3FF) = true ∨ cmaskTakes u (argBits u 0 3 0) (arg u 2) = true →
        exec .partCfg s = .next ((u.raiseBit F.FIRN_FLAG_PREFUSE).ends 3 [((u.raiseBit F.FIRN_FLAG_PREFUSE).rd R.FIRN_STAT).toNat])) ∧
      (partTakes u (argBits u 0 3 0) (arg u 1 &&& 0x3FF) = false → cmaskTakes u (argBits u 0 3 0) (arg u 2) = false →
        ((cfgRings u).any fun r => sqOn u r || cqOn u r) = false → partyRings u (argBits u 0 3 0) = false → u.regsWf = true →
        ∃ t : State, exec .partCfg s = .next (t.ends 0 [(t.rd R.FIRN_STAT).toNat]) ∧
          t.rd (R.FIRN_PART (argBits u 0 3 0)) = arg u 1 &&& 0x3FF ∧ t.rd (R.FIRN_CMASK (argBits u 0 3 0)) = arg u 2))) ∧
  (∀ (s u : State), s.Takes u 0x11 → rmeBusy u .sec true = false → firnAwake u = true → u.regsWf = true → ∃ w t : State,
    t = w.rmeCommit .sec 1 ∧ exec .partWin s = .next (t.ends (if t.get (F.RME_SRES_RESULT .sec) = 0 then 0 else 2) [(t.rd (R.RME_SRES .sec)).toNat]) ∧
    w.get (F.RME_STG_00_KEY_LO .sec 0) = (arg u 1).toNat ∧ w.get (F.RME_STG_04_KEY_HI .sec 0) = argBits u 2 15 0 ∧
    w.get (F.RME_STG_04_PARTY .sec 0) = argBits u 0 3 0 ∧ w.get (F.RME_STG_04_VALID .sec 0) = argBits u 0 4 4 ∧
    w.get (F.RME_STG_04_LEN .sec 0) = argBits u 0 29 24 ∧ w.get (F.RME_STG_08_BASE_LO .sec 0) = (arg u 3).toNat ∧
    w.get (F.RME_STG_0C_BASE_HI .sec 0) = argBits u 4 15 0 ∧ w.get (F.RME_STG_0C_RIGHTS .sec 0) = argBits u 0 10 8 ∧
    w.get (F.RME_STG_0C_PRIO .sec 0) = argBits u 0 23 16 ∧ w.get (F.RME_STG_10_INDEX .sec 0) = argBits u 5 10 0) ∧
  (∀ (p : Nat) (s u : State), s.Takes u 0x12 → p = argBits u 0 3 0 → partyRings u p = false → u.on F.SST_KLOCK_MEK_USELOCK = false →
    u.on F.SST_KRES_BUSY = false → (∀ t : State, argBits u 0 9 8 = 1 → dcnt u = 32 → t = u.deriveKey p (dataBuf u 32) →
      exec .partKey s = .next (if t.on (F.CRY_SLOT_READY p) = true then t.ends 0 [(t.rd (R.CRY_SLOT p)).toNat] else t.ends 5 [1])) ∧
    (∀ t : State, argBits u 0 9 8 = 2 → t = keyClear .sec (BitVec.ofNat 32 (2 + 16 * p)) u →
      exec .partKey s = .next (t.ends 0 [(t.rd (R.CRY_SLOT p)).toNat]))) ∧
  (∀ (s u : State), s.Takes u 0x12 → argBits u 0 9 8 = 1 → dcnt u = 32 → partyRings u (argBits u 0 3 0) = true →
    exec .partKey s = .next (u.ends 3)) ∧
  (∀ (s u : State), s.Takes u 0x13 → firnAwake u = true → ∃ t : State,
    t = (cfglock (((partitionLock .sec u).wlock).raiseBit F.DMA_CTL_XTSREQ)).isoLock ∧ exec .partLock s =
      .next (t.ends (if t.get F.ISO_STAT_RES = 0 then 0 else 5) [(t.rd R.ISO_STAT).toNat, (t.rd R.FIRN_STAT).toNat, (t.rd R.RME_STAT).toNat])) ∧
  (∀ (p : Nat) (s u w t : State), s.Takes u 0x14 → p = argBits u 0 3 0 → dcnt u = 32 → partyRings u p = false →
    u.on F.SST_KLOCK_MEK_USELOCK = false → u.on F.SST_KRES_BUSY = false → u.on F.FIRN_STAT_RBUSY = false → firnAwake u = true →
    (u.ord.reqs.any fun (r : OrdReq) => r.party == p) = false →
    w = rangePassEnd (rangeCmd 4 .sec (BitVec.ofNat 32 (16 + p * 256)) u) →
    t = ((keyClear .sec (BitVec.ofNat 32 (2 + 16 * p)) w).onUqi
      fun x => { x with never := cutSpans x.never p 0 (2 ^ 48) ++ [(p, 0, 2 ^ 48)] }).deriveKey p (dataBuf u 32) → exec .partErase s =
      .next (if t.on (F.CRY_SLOT_READY p) = true then t.ends 0 [(t.rd (R.CRY_SLOT p)).toNat] else t.ends 5 [1])) ∧
  (∀ (s u : State), s.Takes u 0x14 → dcnt u = 32 → partyRings u (argBits u 0 3 0) = true →
    exec .partErase s = .next (u.ends 3)) ∧
  (∀ (s u : State), s.Takes u 0x15 → exec .partQuery s = .next (u.ends 0 [] (some (isoParty u (argBits u 0 3 0))))) ∧
  (∀ (tr : Trans) (s u w : State), s.Takes u 0x20 →
    (u.mgt.test.st = 1 ∨ u.mode = mTHAW ∨ u.mode = mDORMANT → exec (.stShort tr) s = .next (u.ends 3)) ∧
    (u.mgt.test.st ≠ 1 → u.mode = mFLOW ∨ u.mode = mDRIFT → u.on F.PCM_STAT_PEND = false →
      w = (if u.mode = mDRIFT then modeReqFlow .sec tr u else u) → w.mode = mFLOW → exec (.stShort tr) s =
        .next (((w.onMgt fun g => { g with test := { type := 1, st := 1 } }).mcEvent 0x0801 0xFF
          (leBytes 1 1 ++ zeros 1 ++ leBytes 1 (headsFitted w) ++ zeros 1)).ends 0))) ∧
  (∀ (tr : Trans) (s u w : State), s.Takes u 0x21 →
    (u.mgt.test.st = 1 ∨ u.mode = mTHAW ∨ u.mode = mDORMANT → exec (.stExt tr) s = .next (u.ends 3)) ∧
    (u.mgt.test.st ≠ 1 → u.mode = mFLOW ∨ u.mode = mDRIFT → u.on F.PCM_STAT_PEND = false →
      w = (if u.mode = mDRIFT then modeReqFlow .sec tr u else u) → w.mode = mFLOW → exec (.stExt tr) s =
        .next (((w.onMgt fun g => { g with test := { type := 2, st := 1 } }).mcEvent 0x0801 0xFF
          (leBytes 1 2 ++ zeros 1 ++ leBytes 1 (headsFitted w) ++ zeros 1)).ends 0))) ∧
  (∀ (g : BitVec 8) (n : BitVec 64) (s u : State), s.Takes u 0x22 →
    (u.mgt.test.st ≠ 1 → exec (.stAbort g n) s = .next (u.ends 0 [0])) ∧
    (u.mgt.test.st = 1 → ∃ t : State, exec (.stAbort g n) s = .next (t.ends 0 [1]) ∧
      t.mgt.test.st = 3 ∧ t.mgt.test.progress = g.toNat ∧ t.mgt.test.sectors = n.toNat)) ∧
  (∀ (g : BitVec 8) (n : BitVec 64) (b c : BitVec 32) (s u : State) (x : SelfTest), s.Takes u 0x23 → x = u.mgt.test → x.st ≠ 1 →
    exec (.stResult g n b c) s = .next (u.ends 0 [x.type + 4 * x.st + 16 * x.elem + (if x.elem = 0 then 0 else 256) + 65536 * x.progress, x.sectors % 4294967296,
        x.sectors / 4294967296, x.unrec, x.secs] (some ((x.failing.take 16).flatMap fun (y : Nat) => leBytes 8 y)))) ∧
  (∀ (g : BitVec 8) (n : BitVec 64) (b c : BitVec 32) (s u : State) (x : SelfTest), s.Takes u 0x23 → x = u.mgt.test → x.st = 1 →
    exec (.stResult g n b c) s = .next (u.ends 0 [x.type + 4 + 16 * x.elem + (if x.elem = 0 then 0 else 256) + 65536 * g.toNat, n.toNat % 4294967296,
        n.toNat / 4294967296, b.toNat, c.toNat] (some ((x.failing.take 16).flatMap fun (y : Nat) => leBytes 8 y)))) ∧
  (∀ (x : BitVec 4) (n : BitVec 64) (c b : BitVec 32) (l : List (BitVec 64)) (s : State), s.mgt.test.st = 1 → x.toNat ≤ 4 →
    ∃ t : State, exec (.selfTestEnd x n c b l) s = .next t ∧ t.mgt.test.st = 2 ∧ t.mgt.test.elem = x.toNat ∧ t.mgt.test.progress = 100 ∧
    t.mgt.test.sectors = n.toNat ∧ t.mgt.test.failing = (l.map BitVec.toNat).take 16) ∧
  (∀ (bad : BitVec 8) (s u w : State) (slot len : Nat), s.Takes u 0x30 → slot = argBits u 0 0 0 → len = (arg u 1).toNat →
    ((inRecovery u = false ∧ slot = u.get F.SST_STAT_SLOT) ∨ len < 0x10000 ∨ 65 * 0x10000 < len →
      exec (.fwBegin bad) s = .next (u.ends 2)) ∧
    (inRecovery u = true ∨ slot ≠ u.get F.SST_STAT_SLOT → 0x10000 ≤ len → len ≤ 65 * 0x10000 →
      (u.bit F.STO_WPROT_PROT slot = true → exec (.fwBegin bad) s = .next (u.ends 4)) ∧
      (u.bit F.STO_WPROT_PROT slot = false →
        State.eraseSectors (slotBase slot) bad.toNat (List.range ((len + 65535) / 65536)) u = (true, w) →
        exec (.fwBegin bad) s = .next ((w.onMgt fun g =>
          { g with staging := .opened, stSlot := slot, stLen := len }).ends 0 [slot])) ∧
      (u.bit F.STO_WPROT_PROT slot = false →
        State.eraseSectors (slotBase slot) bad.toNat (List.range ((len + 65535) / 65536)) u = (false, w) →
        exec (.fwBegin bad) s = .next ((w.draw.2.onMgt fun g => { g with staging := .idle }).ends 5 [w.draw.1.toNat])))) ∧
  (∀ (x : BitVec 4) (s u w : State) (o n : Nat), s.Takes u 0x31 → o = (arg u 0).toNat → n = dcnt u →
    (u.mgt.staging = .idle → exec (.fwData x) s = .next (u.ends 3)) ∧
    (u.mgt.staging ≠ .idle → (o % 512 ≠ 0 ∨ n % 512 ≠ 0 ∨ n = 0 ∨ u.mgt.stLen < o + n →
        exec (.fwData x) s = .next (u.ends 2)) ∧
      (o % 512 = 0 → n % 512 = 0 → n ≠ 0 → o + n ≤ u.mgt.stLen →
        (∀ k, State.programPages (slotBase u.mgt.stSlot + o) x.toNat (n / 512) (dataBuf u n) 0 u = (k, w) →
          exec (.fwData x) s = .next (if k = n then (w.onMgt fun g => { g with staging := .opened }).ends 0 [n]
            else w.ends 5 [k]))))) ∧
  (∀ (s u : State) (c : Nat), s.Takes u 0x32 →
    (u.mgt.staging ≠ .opened → exec .fwVerify s = .next (u.ends 3)) ∧
    (u.mgt.staging = .opened → c = stagedCause u (slotHeader u u.mgt.stSlot) →
      exec .fwVerify s = .next (if c = 0 then (u.onMgt fun g => { g with staging := .verified }).ends 0 [0]
        else u.ends 5 [c]))) ∧
  (∀ (n : BitVec 32) (s u : State), s.Takes u 0x33 →
    (u.mgt.staging ≠ .verified → exec (.fwActivate n) s = .next (u.ends 3)) ∧
    (u.mgt.staging = .verified →
      (inRecovery u = true → exec (.fwActivate n) s = .next ((u.put F.SST_FAIL_FAILMASK 0).rebootNow n.toNat)) ∧
      (inRecovery u = false → (∃ r, r < 64 ∧ (sqOn u r = true ∨ cqOn u r = true)) →
        exec (.fwActivate n) s = .next (u.ends 3)) ∧
      (inRecovery u = false → (∀ r, r < 64 → sqOn u r = false ∧ cqOn u r = false) → u.on F.FIRN_STAT_RBUSY = false →
        firnAwake u = true → ((List.range 16).map fun p => u.dcount p).sum = 0 →
        (modeReqReboot .sec n u).mode = mTHAW → (modeReqReboot .sec n u).on F.TRF_STAT_BUSY = false →
        exec (.fwActivate n) s = .next (modeReqReboot .sec n u)) ∧
      (inRecovery u = false → (∀ r, r < 64 → sqOn u r = false ∧ cqOn u r = false) → u.on F.FIRN_STAT_RBUSY = false →
        firnAwake u = true → ((List.range 16).map fun p => u.dcount p).sum ≠ 0 →
        exec (.fwActivate n) s = .next (rangePassEnd (rangeCmd 1 .sec (BitVec.ofNat 32 32) u))))) ∧
  (∀ (s u : State), s.Takes u 0x40 → exec .morInfo s = .next (u.ends 0 [u.mor.nseq.toNat % 4294967296, u.mor.nseq.toNat / 4294967296, morOld u % 4294967296, morOld u / 4294967296,
      morBedn u + 65536 * u.mor.wslot])) ∧
  (∀ (s u : State) (seq count view : Nat), s.Takes u 0x41 → seq = (arg u 0).toNat + (arg u 1).toNat * 4294967296 →
    count = argBits u 2 3 0 → view = argBits u 2 15 8 →
    (count = 0 ∨ 8 < count ∨ (15 < view ∧ view ≠ 0xFF) → exec .morRead s = .next (u.ends 2)) ∧
    (1 ≤ count → count ≤ 8 → view ≤ 15 ∨ view = 0xFF → ∃ x y : Nat, exec .morRead s = .next (u.draw.2.ends (if ∀ i, i < count → (morRecord u view ((seq + i) % 2 ^ 64)).1 = 0 ∨ (morRecord u view ((seq + i) % 2 ^ 64)).1 = 4 then 0 else 7) [x, y, 512 * count] (some ((List.range count).flatMap fun i => (morRecord u view ((seq + i) % 2 ^ 64)).2.1))) ∧
      (∀ n, (morRecord u view (seq % 2 ^ 64)).2.2 = some n → x = n) ∧
      (count = 1 → y = (morRecord u view (seq % 2 ^ 64)).1)))

/-- A packet reaches the MCTP target only while it is on and enabled; a bad PEC is counted and the packet dropped; a
message of one packet waits in the receive buffer with its source, tag and length, and the first of several packets
begins an assembly (R444); POP frees the buffer and a write of MGT_MTX sends the message (R449). Firmware answers the
five MCTP control requests and the SPDM requests of Table 18.8, and any other SPDM request with UnsupportedRequest
(R444 to R448). The layouts taken from MCTP and SPDM by name are the model's reading (log entries 62 and 63).
(18_management_path.md) -/
def Obligations.MctpAndSpdmCommandsComplete : Prop :=
  (∀ (l : List Byte) (s : State), (s.mgt.mctp.addr = none ∨ i3cOn s = false ∨ s.on F.MGT_CTL_MCTPEN = false → exec (.mctpPacket l) s = .next s) ∧
    (∀ (a : BitVec 7) (b : List Byte) (x : Byte), s.mgt.mctp.addr = some a → i3cOn s = true → s.on F.MGT_CTL_MCTPEN = true → l = b ++ [x] →
      (pec (leBytes 1 (a.toNat * 2) ++ b) ≠ x.toNat → exec (.mctpPacket l) s = .next (s.inc F.MGT_CNT_PECERR_CNT)) ∧
      (pec (leBytes 1 (a.toNat * 2) ++ b) = x.toNat → ∀ (h0 h1 h2 h3 : Byte) (p : List Byte), b = h0 :: h1 :: h2 :: h3 :: p →
        1 ≤ p.length → p.length ≤ 64 → h0.toNat % 16 = 1 → h1.toNat = s.get F.MGT_EID_EID ∨ h1.toNat = 0 ∨ h1.toNat = 255 →
        s.on F.SST_STAT_RECOVERY = false → s.mgt.asm_ = none → h3.getLsbD 7 = true → s.on F.MGT_STAT_MRXV = false →
        (h3.getLsbD 6 = true → s.regsWf = true → ∃ t : State, exec (.mctpPacket l) s = .next t ∧ t.on F.MGT_STAT_MRXV = true ∧
          t.get F.MGT_MRX_LEN = p.length ∧ t.get F.MGT_MRX_SEID = h2.toNat ∧ t.get F.MGT_MRX_TAG = h3.toNat % 8 ∧
          t.on F.MGT_MRX_TO = h3.getLsbD 3 ∧ t.mgt.asm_ = none ∧ t.sram = (s.poolWrite (s.get F.MGT_MRXBASE_ADDR * 4096) p).sram) ∧
        (h3.getLsbD 6 = false → p.length = 64 → ∃ c : McAsm, exec (.mctpPacket l) s = .next (s.onMgt fun g => { g with asm_ := some c }) ∧
          c.seid = h2.toNat ∧ c.tag = h3.toNat % 8 ∧ c.to_ = h3.getLsbD 3 ∧ c.bytes = p)))) ∧
  (∀ (m : Master) (v : Word) (s : State), gated s m = false → (v.getLsbD 31 = true → exec (.mrxPop .sec v) s = .next (s.clr F.MGT_STAT_MRXV)) ∧
    (i3cOn s = true → s.on F.MGT_CTL_MCTPEN = true → exec (.mtxSend .sec v) s =
      .next (s.mctpSend (bitsOf v 12 0) (bitsOf v 23 16) (bitsOf v 26 24) (v.getLsbD 27))) ∧
    (m ≠ .sec → exec (.mrxPop m v) s = .next s ∧ exec (.mtxSend m v) s = .next s)) ∧
  (∀ (s : State) (i : Nat) (d : List Byte), s.Asks 1 i d → d.length = 2 → byteAt d 0 % 4 ≤ 1 → byteAt d 1 ≠ 0 → byteAt d 1 ≠ 255 →
    exec .setEndpointId s = .next ((s.put F.MGT_EID_EID (byteAt d 1)).mctpReply
      ([0] ++ leBytes 1 i ++ [1, 0, 0] ++ leBytes 1 (byteAt d 1) ++ [0]))) ∧
  (∀ (s : State) (i : Nat) (d : List Byte),
    (s.Asks 2 i d → exec .getEndpointId s = .next (s.mctpReply ([0] ++ leBytes 1 i ++ [2, 0] ++ leBytes 1 (s.get F.MGT_EID_EID) ++ [0, 0]))) ∧
    (s.Asks 3 i d → exec .getEndpointUuid s = .next (s.mctpReply ([0] ++ leBytes 1 i ++ [3, 0] ++ leBytes 16 Config.uuid.toNat))) ∧
    (s.Asks 4 i d → d.length = 1 → (byteAt d 0 = 0xFF ∨ byteAt d 0 = 0 → exec .getMctpVersionSupport s =
        .next (s.mctpReply ([0] ++ leBytes 1 i ++ [4, 0, 1, 0xF1, 0xF3, 0xFF, 0x00]))) ∧
      (byteAt d 0 = 5 → exec .getMctpVersionSupport s = .next (s.mctpReply ([0] ++ leBytes 1 i ++ [4, 0, 1, 0xF1, 0xF0, 0xFF, 0x00])))) ∧
    (s.Asks 5 i d → exec .getMessageTypeSupport s = .next (s.mctpReply ([0] ++ leBytes 1 i ++ [5, 0, 2, 0, 5])))) ∧
  (∀ (s : State) (r a : List Byte) (f : Nat), (s.SpdmAsks 0x84 0x10 4 f r → a = [0x10, 0x04, 0, 0, 0, 1, 0x00, 0x12] →
      exec .getVersion s = .next ((s.onSpdm fun _ => { phase := 1, vca := r ++ a }).spdmReply a)) ∧
    (s.SpdmAsks 0xE1 0x12 20 1 r → a = [0x12, 0x61, 0, 0, 0, 14, 0, 0] ++ leBytes 4 0x16 ++ leBytes 4 4096 ++ leBytes 4 4096 →
      exec .getCapabilities s = .next ((s.onSpdm fun p => { p with phase := 2, vca := p.vca ++ r ++ a }).spdmReply a)) ∧
    (s.SpdmAsks 0xE3 0x12 32 2 r → byteAt r 6 &&& 1 = 1 → a = [0x12, 0x63, 0, 0] ++ leBytes 2 36 ++ [1, 0] ++ leBytes 4 4 ++
        leBytes 4 (leNat (slice r 8 4) &&& 0x80) ++ leBytes 4 (leNat (slice r 12 4) &&& 2) ++ zeros 16 →
      exec .negotiateAlgorithms s = .next ((s.onSpdm fun p => { p with phase := 3, vca := p.vca ++ r ++ a }).spdmReply a))) ∧
  (∀ (s : State) (r a x y c : List Byte) (o n : Nat), s.on F.MGT_STAT_ACRDY = true → c = certChain s x y →
    (s.SpdmAsks 0x81 0x12 4 3 r → a = [0x12, 0x01, 0, 1] ++ sha384 c → exec (.getDigests x y) s =
      .next ((s.onSpdm fun p => { p with certs := p.certs ++ r ++ a, meas := [] }).spdmReply a)) ∧
    (s.SpdmAsks 0x82 0x12 8 3 r → byteAt r 2 % 16 = 0 → o = leNat (slice r 4 2) → o < c.length →
      n = Nat.min (Nat.min (leNat (slice r 6 2)) (c.length - o)) 4087 →
      a = [0x12, 0x02, 0, 0] ++ leBytes 2 n ++ leBytes 2 (c.length - o - n) ++ slice c o n → exec (.getCertificate x y) s =
      .next ((s.onSpdm fun p => { p with certs := p.certs ++ r ++ a, meas := [] }).spdmReply a))) ∧
  (∀ (s : State) (r x y : List Byte), s.on F.MGT_STAT_ACRDY = true → aliasReady s = true → s.SpdmAsks 0x83 0x12 36 3 r →
    byteAt r 2 = 0 → byteAt r 3 = 0 ∨ byteAt r 3 = 1 ∨ byteAt r 3 = 0xFF → ∃ (u w : State) (nonce sum a sig : List Byte),
      exec (.challenge x y) s = .next ((w.onSpdm fun p => { p with certs := [], meas := [] }).spdmReply (a ++ sig)) ∧
      a = [0x12, 0x03, 0, 1] ++ sha384 (certChain u x y) ++ nonce ++ sum ++ zeros 2 ∧
      (byteAt r 3 = 0 → sum = []) ∧ (byteAt r 3 = 0xFF → sum = sha384 ((measPresent u).flatMap (measBlock u))) ∧
      (sig, w) = u.spdmSign (spdmDigest "responder-challenge_auth signing" (s.mgt.spdm.vca ++ s.mgt.spdm.certs ++ r ++ a))) ∧
  (∀ (s : State) (r : List Byte) (want : List Nat), aliasReady s = true → s.SpdmAsks 0xE0 0x12 4 3 r →
    want = (if byteAt r 3 = 0 then [] else if byteAt r 3 = 0xFF then measPresent s else [byteAt r 3]) →
    (∀ i ∈ want, (measPresent s).contains i = true) →
    ∃ (u : State) (nonce a : List Byte), a = [0x12, 0x60] ++ leBytes 1 (if byteAt r 3 = 0 then (measPresent s).length else 0) ++ [0] ++
        leBytes 1 want.length ++ leBytes 3 (want.flatMap (measBlock s)).length ++ want.flatMap (measBlock s) ++ nonce ++ zeros 2 ∧
      ((byteAt r 2).testBit 0 = false → exec .getMeasurements s =
        .next ((u.onSpdm fun p => { p with meas := s.mgt.spdm.meas ++ r ++ a }).spdmReply a)) ∧
      ((byteAt r 2).testBit 0 = true → 37 ≤ r.length → byteAt r 36 % 16 = 0 → ∃ (w : State) (sig : List Byte),
        (sig, w) = u.spdmSign (spdmDigest "responder-measurements signing" (s.mgt.spdm.vca ++ (s.mgt.spdm.meas ++ r ++ a))) ∧
        exec .getMeasurements s = .next ((w.onSpdm fun p => { p with meas := [] }).spdmReply (a ++ sig)))) ∧
  (∀ (s : State) (r : List Byte), spdmRequest s = some r → spdmCodes.contains (byteAt r 1) = false →
    exec .spdmUnsupportedRequest s = .next (s.spdmError 0x07 (byteAt r 1)))

/-- A core access that the map does not permit reads and writes nothing, raises its access fault with mtval the address,
and is captured in GLB_AF with its master, kind and reason, in GLB_AFADDR, and in GLB_AFCNT (R473); a misaligned load
or store raises address-misaligned (R472). A permitted load gives the bytes of its own TCM, a store to the pool writes
them, and a gated core's store outside its TCM waits in its held-store queue (R125, R471); a full queue and a load with RC fields
stall that core (R126), and an access to a block of its TCM that is not loaded stalls a core (R123). A word store of a register
takes that register's effect, and a word load of a register with RC fields or of a low word gives the value and has
its side effect (R8, R9). BAR0 serves one or two aligned doublewords, does not write one with partial byte enables,
and counts any other request in UR_CNT (R478). (20_address_map.md, 05_secure_start.md) -/
def Obligations.CoreAndHostAccessesComplete : Prop :=
  (∀ (m : Master) (k : AccKind) (a : Word) (w y : Nat) (v : Word) (f : BusFacts) (s : State), s.Issues m k a w → s.regsWf = true →
    y = refusal s m k a.toNat w → y ≠ 0 → ∃ t : State, exec (.coreAccess m k a w v f) s = .next t ∧
    t.get F.GLB_AF_MASTER = m.idx ∧ t.get F.GLB_AF_KIND = (match k with | .load => 1 | .store => 2 | .fetch => 3) ∧
    t.get F.GLB_AF_WHY = y ∧ t.on F.GLB_AF_NEW = true ∧ t.rd R.GLB_AFADDR = a ∧
    t.get F.GLB_AFCNT_AF_CNT = Nat.min (s.get F.GLB_AFCNT_AF_CNT + 1) 65535 ∧
    t.out = s.out ++ [.coreFault m (match k with | .load => 5 | .store => 7 | .fetch => 1) a.toNat] ∧
    t.sram = s.sram ∧ t.store = s.store ∧ t.buf = s.buf ∧ t.sst = s.sst ∧
    (∀ g : Fld, g.reg ≠ R.GLB_AF → g.reg ≠ R.GLB_AFADDR → g.reg ≠ R.GLB_AFCNT → t.get g = s.get g)) ∧
  (∀ (m : Master) (a : Word) (w : Nat) (v : Word) (f : BusFacts) (s : State), coreRuns s m = true → w = 2 ∨ w = 4 → a.toNat % w ≠ 0 →
    exec (.coreAccess m .load a w v f) s = .next (s.emit (.coreFault m 4 a.toNat)) ∧
    exec (.coreAccess m .store a w v f) s = .next (s.emit (.coreFault m 6 a.toNat))) ∧
  (∀ (m : Master) (k : AccKind) (a : Word) (w : Nat) (v : Word) (f : BusFacts) (s u : State), s.Issues m k a w → k ≠ .store →
    regionOf a.toNat = some (.tcm m) → notLoaded s m a.toNat = false → u = s.stall m false 0 →
    exec (.coreAccess m k a w v f) s = .next (u.emit (.coreData m (leNat (u.sramBytes a.toNat w))))) ∧
  (∀ (m : Master) (a : Word) (w : Nat) (v : Word) (f : BusFacts) (s : State), m ≠ .sv → s.Issues m .store a w →
    regionOf a.toNat = some .pool → (gated s m = false →
      exec (.coreAccess m .store a w v f) s = .next ((s.stall m false 0).sramWrite a.toNat (leBytes w (v.toNat % 256 ^ w)))) ∧
    (∀ c : Nat, gated s m = true → gateIdx m = some c → ((hsq s c).length < 1024 → ∃ h : HeldStore, h.addr = a.toNat ∧ h.width = w ∧
        h.data = v.toNat % 256 ^ w ∧ exec (.coreAccess m .store a w v f) s = .next ((s.stall m false 0).setHsq c (hsq s c ++ [h]))) ∧
      (1024 ≤ (hsq s c).length → exec (.coreAccess m .store a w v f) s = .next (s.stall m true 0)))) ∧
  (∀ (m : Master) (k : AccKind) (a : Word) (w : Nat) (v : Word) (f : BusFacts) (s : State), s.Issues m k a w →
    refusal s m k a.toNat w = 0 → notLoaded s m a.toNat = true →
    exec (.coreAccess m k a w v f) s = .next (s.stall m true ((a.toNat - tcmBase m) / 65536 + 1))) ∧
  (∀ (m : Master) (a : Word) (s : State), s.Issues m .load a 4 → refusal s m .load a.toNat 4 = 0 → notLoaded s m a.toNat = false →
    regionOf a.toNat = some .regs → touchesRc a.toNat = true → gated s m = true →
    exec (.rcRead m a) s = .next (s.stall m true 0)) ∧
  (∀ (m : Master) (a v : Word) (f : BusFacts) (s : State), s.Issues m .store a 4 → regionOf a.toNat = some .regs → gated s m = false →
    exec (.registerWrite m a v f) s = .next ((s.stall m false 0).regStore m a.toNat v f)) ∧
  (∀ (m : Master) (a : Word) (s u t : State) (v : Word), s.Issues m .load a 4 → regionOf a.toNat = some .regs → gated s m = false →
    u = s.stall m false 0 → u.regRead m a.toNat 0 = (v, t) →
    (touchesRc a.toNat = true → exec (.rcRead m a) s = .next (t.emit (.coreData m v.toNat))) ∧
    ((shadowOf a.toNat).isSome = true → exec (.rlRead m a) s = .next (t.emit (.coreData m v.toNat)))) ∧
  (∀ (m : Master) (s : State), s.Issues m .load 0x40000018 4 → gated s m = false → s.regsWf = true → ∃ t : State,
    exec (.rcRead m 0x40000018) s = .next t ∧ t.out = s.out ++ [.coreData m (s.get F.GLB_AFCNT_AF_CNT)] ∧
    t.get F.GLB_AFCNT_AF_CNT = 0) ∧
  (∀ (q : BitVec 1) (b : Bool) (o : BitVec 14) (l : List HostDw) (s : State), bar0On s q.toNat = false →
    exec (.hostBar0Request q b o l) s = .next s) ∧
  (∀ (q : BitVec 1) (o : BitVec 14) (x y : HostDw) (l : List HostDw) (s : State), bar0On s q.toNat = true →
    ((l.length = 0 ∨ 2 < l.length ∨ o.toNat % 4 ≠ 0 ∨ (l.length = 2 ∧ o.toNat % 8 ≠ 0)) →
      exec (.hostBar0Request q false o l) s = .next ((s.inc F.GLB_BARERR_UR_CNT).emit (.bar0Ur q.toNat)) ∧
      exec (.hostBar0Request q true o l) s = .next ((s.inc F.GLB_BARERR_UR_CNT).emit (.aerUr q.toNat))) ∧
    (o.toNat % 4 = 0 →
      exec (.hostBar0Request q false o [x]) s = .next (s.emit (.bar0Data q.toNat [bar0View s q.toNat o.toNat])) ∧
      (x.be = 15 → exec (.hostBar0Request q true o [x]) s = .next (s.bar0Write q.toNat o.toNat x.data)) ∧
      (x.be ≠ 15 → exec (.hostBar0Request q true o [x]) s = .next (s.inc F.GLB_BARERR_PART_CNT))) ∧
    (o.toNat % 8 = 0 → exec (.hostBar0Request q false o [x, y]) s =
        .next (s.emit (.bar0Data q.toNat [bar0View s q.toNat o.toNat, bar0View s q.toNat (o.toNat + 4)])) ∧
      (x.be = 15 → y.be = 15 → exec (.hostBar0Request q true o [x, y]) s =
        .next ((s.bar0Write q.toNat o.toNat x.data).bar0Write q.toNat (o.toNat + 4) y.data)) ∧
      (x.be ≠ 15 → y.be = 15 → exec (.hostBar0Request q true o [x, y]) s =
        .next ((s.inc F.GLB_BARERR_PART_CNT).bar0Write q.toNat (o.toNat + 4) y.data))))

/-- With a command waiting, a step is that command's effect on the state whose queue is the rest, and the queue is
otherwise left alone. With none waiting a step is one tick: 4,096 ticks of the angle counter while it follows the
clock track, one REFCK cycle at the COAST rate in COAST, and nothing in OFF or while the counter is held (R29, R34); where the
reference head flies over no track, the cycle counts as one below AMP_MIN (R505). That an idle step is a tick is the model's
choice (DESIGN CHOICE, log entry 4). (00_scope.md, 02_angle_timebase.md) -/
def Obligations.StepRunsTheFrontCommand : Prop :=
  (∀ (c : Instr) (l : List Instr) (s : State), s.pending = c :: l → step s = exec c { s with pending := l }) ∧
  (∀ s : State, s.pending = [] → step s = .next (idleTick s) ∧
    (fromTrack s = false ∨ trackFlown s = true → idleTick s = angleTick s) ∧
    (fromTrack s = true → trackFlown s = false →
      idleTick s = ((angleTick s).atbCycles [{ n := 1, amp := 0, err := 0 }]).atbSettle) ∧
    (s.mode = mOFF ∨ s.on F.ATB_STAT_HOLD = true → angleTick s = s) ∧
    (s.mode ≠ mOFF → s.on F.ATB_STAT_HOLD = false → s.get F.ATB_STAT_STATE = 2 ∨ s.get F.ATB_STAT_STATE = 3 →
      (angleTick s).atb.count = s.atb.count + 4096 ∧ angleTick s = { s with atb := (angleTick s).atb }) ∧
    (s.mode ≠ mOFF → s.on F.ATB_STAT_HOLD = false → s.get F.ATB_STAT_STATE = 0 → s.atb.frac < 65536 →
      (angleTick s).atb.count.toNat * 65536 + (angleTick s).atb.frac =
        (s.atb.count.toNat * 65536 + s.atb.frac + coastIncrement (s.get F.ATB_CTL_COAST_RPM)) % 2 ^ 80))

/-- After reset the device is in THAW with no command waiting, no record formed and no free value drawn; every register
reads its reset value of the register tables (R479), among them ATB_CTL's COAST_RPM 7200, party 0's columns, slots and
quota (Table 12.7); the register file, the memories and the tables are in canonical form, and every frame has one
holder. The info rows and the defect info sector hold their MAGIC (R182); what else they hold is the model's choice (DESIGN
CHOICE, log entry 122). That memories start zeroed or erased, and that this is the moment just after power-on, is the model's choice
(DESIGN CHOICE, log entry 2). (04_power_clocks_modes.md, 20_address_map.md) -/
def Obligations.ResetIsPowerOn : Prop :=
  State.reset.mode = mTHAW ∧ State.reset.pending = [] ∧ State.reset.draws = 0 ∧ State.reset.out = [] ∧
  (∀ k, State.reset.rd k = resetWord k) ∧ State.reset.get F.ATB_CTL_COAST_RPM = 7200 ∧
  State.reset.rd (R.FIRN_PART 0) = 0x3FF ∧ State.reset.rd (R.FIRN_CMASK 0) = 0xFFFFFFFF ∧ State.reset.rd (R.FIRN_DQ 0) = 0x4000 ∧
  (∀ a n, State.reset.stoBytes a n = List.replicate n 0xFF) ∧ (∀ a n, State.reset.bufBytes a n = zeros n) ∧
  (∀ b, b < 16 → leNat (State.reset.infoBytes b 0 4) = 0x52524F49) ∧ leNat (State.reset.infoBytes 16 0 4) = 0x53464441 ∧
  State.reset.Canonical ∧ State.reset.FramesApart ∧ State.reset.ascWf = true ∧ State.reset.banksWf = true ∧ State.reset.dmaWf = true

/-- A command of the pin multiplexer or the UART changes only the PMX registers, the pin state and what the device sends, and a
commit that cuts a trace signal ends that transfer (R75);
a command of the metadata channel changes only FIRN registers and the buffer block's tables; a common command code of
the I3C bus changes only MGT registers, the targets and what is sent. Every memory, every other block's state and
every other register is unchanged. The master is no core that runs gated. (03_package_dies_pins.md, 12_buffer_caches.md, 18_management_path.md) -/
def Obligations.BlocksKeepToTheirOwnState : Prop :=
  (∀ (m : Master) (a b d : BitVec 4) (n : BitVec 5) (v : Word) (x : Byte) (st : Bool) (s t : State), s.regsWf = true → gated s m = false →
    (exec (.strapSample a b d) s = .next t ∨ exec .gpioHandover s = .next t ∨ exec (.pmxCommit m) s = .next t ∨
      exec .pmxSwitchEnd s = .next t ∨ exec (.pmxPinLock m n) s = .next t ∨ exec (.uartTxWrite m v) s = .next t ∨
      exec (.uartPop m) s = .next t ∨ exec .uartTxCharacter s = .next t ∨ exec .uartRxStartBit s = .next t ∨
      exec (.uartRxCharacter x st) s = .next t) →
    t = { s with regs := t.regs, pmx := t.pmx, out := t.out, srv := { s.srv with trace := t.srv.trace } } ∧ ∀ k, k / 4096 ≠ 0x40011 → t.rd k = s.rd k) ∧
  (∀ (m : Master) (k : BitVec 6) (s t : State), s.regsWf = true → gated s m = false →
    (exec (.metaLookup m) s = .next t ∨ exec (.metaAlloc m) s = .next t ∨ exec (.metaDirty m k) s = .next t ∨
      exec (.metaClean m k) s = .next t ∨ exec (.metaInval m k) s = .next t ∨ exec (.metaLock m k) s = .next t ∨
      exec (.metaUnlock m k) s = .next t) →
    t = { s with regs := t.regs, firn := t.firn } ∧ ∀ j, j % 4294967296 / 4096 ≠ 0x40007 → t.rd j = s.rd j) ∧
  (∀ (b : Bool) (a c : BitVec 7) (o : Option (BitVec 7)) (e : BitVec 8) (n : BitVec 16) (s t : State), s.regsWf = true →
    (exec (.entdaa b a) s = .next t ∨ exec (.setdasa a c) s = .next t ∨ exec (.setnewda a c) s = .next t ∨
      exec .rstdaa s = .next t ∨ exec (.enec o e) s = .next t ∨ exec (.disec o e) s = .next t ∨ exec (.getpid a) s = .next t ∨
      exec (.getbcr a) s = .next t ∨ exec (.getdcr a) s = .next t ∨ exec (.getstatus a) s = .next t ∨
      exec (.setmwl o n) s = .next t ∨ exec (.getmwl a) s = .next t ∨ exec (.setmrl o n) s = .next t ∨ exec (.getmrl a) s = .next t) →
    t = { s with regs := t.regs, mgt := t.mgt, out := t.out } ∧ ∀ k, k / 4096 ≠ 0x4000C → t.rd k = s.rd k)

/-- From every state whose register file, SRAM, Store die array and Buffer die are in canonical form (keys strictly
rising, no entry equal to what an unlisted key reads as), every step that answers a next state leaves them so:
whatever a command writes, a later read of a register or byte finds exactly what was last written there.
(20_address_map.md, 07_store_die_flash.md, 12_buffer_caches.md) -/
def Obligations.StepKeepsTheCanonicalForm : Prop :=
  ∀ s t : State, s.Canonical → step s = .next t → t.Canonical
end

