-- ==== Sys2Proof/Laws/Bytes.lean ====
section
/-! SUPPORT. Laws of byte strings: numbers as bytes and back, pieces of a string, and the CRC that ends one. -/

namespace Sys2Proof.Laws

open Sys2Proof Sys2Proof.Machine

theorem leBytes_length (n v : Nat) : (leBytes n v).length = n := by
  induction n generalizing v with
  | zero => rfl
  | succ n ih => simp [leBytes, ih]

/-- Reading back the n low bytes of a number. -/
theorem leNat_leBytes (n v : Nat) : leNat (leBytes n v) = v % 256 ^ n := by
  induction n generalizing v with
  | zero => simp [leBytes, leNat, Nat.mod_one]
  | succ n ih =>
    simp only [leBytes, leNat, ih, BitVec.toNat_ofNat]
    rw [show (2 : Nat) ^ 8 = 256 from rfl, Nat.pow_succ, Nat.mul_comm (256 ^ n) 256, Nat.mod_mul]

theorem slice_length (b : List Byte) (k n : Nat) : (slice b k n).length = n := by
  simp only [slice, List.length_append, List.length_replicate, List.length_take, List.length_drop]
  omega

theorem slice_append_left (b x : List Byte) : slice (b ++ x) 0 b.length = b := by simp [slice]

theorem slice_append_right (b x : List Byte) : slice (b ++ x) b.length x.length = x := by simp [slice]

theorem crc32cBit_lt {c : Nat} (h : c < 2 ^ 32) : crc32cBit c < 2 ^ 32 := by
  unfold crc32cBit
  split
  · exact Nat.xor_lt_two_pow (by omega) (by decide)
  · omega

theorem crc32cByte_lt {c : Nat} (b : Byte) (h : c < 2 ^ 32) : crc32cByte c b < 2 ^ 32 := by
  have hb : c ^^^ b.toNat < 2 ^ 32 := Nat.xor_lt_two_pow h (by have := b.isLt; omega)
  unfold crc32cByte
  exact crc32cBit_lt (crc32cBit_lt (crc32cBit_lt (crc32cBit_lt (crc32cBit_lt (crc32cBit_lt (crc32cBit_lt (crc32cBit_lt hb)))))))

theorem crc32c_lt (b : List Byte) : crc32c b < 2 ^ 32 := by
  have h : ∀ (l : List Byte) (c : Nat), c < 2 ^ 32 → l.foldl crc32cByte c < 2 ^ 32 := by
    intro l
    induction l with
    | nil => intro c h; exact h
    | cons x l ih => intro c h; exact ih _ (crc32cByte_lt x h)
  exact Nat.xor_lt_two_pow (h b _ (by decide)) (by decide)

/-- A string that ends in its CRC checks. -/
theorem crc32c_appended (b : List Byte) :
    leNat (slice (b ++ leBytes 4 (crc32c b)) b.length 4) = crc32c (slice (b ++ leBytes 4 (crc32c b)) 0 b.length) := by
  have h := slice_append_right b (leBytes 4 (crc32c b))
  rw [leBytes_length] at h
  rw [slice_append_left, h, leNat_leBytes]
  exact Nat.mod_eq_of_lt (Nat.lt_of_lt_of_le (crc32c_lt b) (by decide))

end Sys2Proof.Laws
end

