-- ==== Sys2Proof/Laws/Sparse.lean ====
section
/-! SUPPORT. The laws of sparse maps: read after write, the frame of a write, and that every operation keeps the
canonical form. -/

namespace Sys2Proof

namespace Sparse

variable {α : Type} [DecidableEq α] {d : Nat → α}

theorem read_cell_append (k : Nat) (v : α) (m : List (Nat × α)) :
    read d (cell d k v ++ m) k = if v = d k then read d m k else v := by
  unfold cell
  split <;> simp [read]

theorem read_cell_append_ne {k a : Nat} (h : a ≠ k) (v : α) (m : List (Nat × α))
    (hm : a < k → read d m a = d a) : read d (cell d k v ++ m) a = read d m a := by
  unfold cell
  split
  · simp
  · simp only [List.cons_append, List.nil_append, read, h, if_false]
    split
    · exact (hm ‹_›).symm
    · rfl

theorem read_below {b : Nat} : ∀ {m : List (Nat × α)}, wfFrom d b m = true → ∀ {a : Nat}, a < b → read d m a = d a
  | [], _, _, _ => rfl
  | (j, v) :: m, h, a, ha => by
    simp only [wfFrom, Bool.and_eq_true, decide_eq_true_eq] at h
    have h1 : a ≠ j := by omega
    have h2 : a < j := by omega
    simp [read, h1, h2]

theorem wfFrom_mono {b c : Nat} (h : c ≤ b) : ∀ {m : List (Nat × α)}, wfFrom d b m = true → wfFrom d c m = true
  | [], _ => rfl
  | (j, v) :: m, hw => by
    simp only [wfFrom, Bool.and_eq_true, decide_eq_true_eq] at hw ⊢
    exact ⟨⟨by omega, hw.1.2⟩, hw.2⟩

/-- A read after a write to the same key gives the value written. -/
theorem read_write_same {b : Nat} {k : Nat} (v : α) (hb : b ≤ k) :
    ∀ {m : List (Nat × α)}, wfFrom d b m = true → read d (write d m k v) k = v := by
  intro m
  induction m generalizing b with
  | nil => intro _; simp only [write, cell]; split <;> simp_all [read]
  | cons c m ih =>
    obtain ⟨j, w⟩ := c
    intro h
    have hw := h
    simp only [wfFrom, Bool.and_eq_true, decide_eq_true_eq] at h
    unfold write
    split
    · rename_i hk
      rw [read_cell_append]
      split
      · have h1 : k ≠ j := by omega
        simp [read, h1, hk]; exact Eq.symm ‹_›
      · rfl
    · split
      · rename_i _ hk
        subst hk
        rw [read_cell_append]
        split
        · rw [read_below h.2 (by omega)]; exact Eq.symm ‹_›
        · rfl
      · have h1 : ¬ k = j := ‹_›
        have h2 : ¬ k < j := ‹_›
        simp only [read, h1, h2, if_false]
        exact ih (b := j + 1) (by omega) h.2

/-- A write leaves every other key alone. -/
theorem read_write_ne {b : Nat} {k a : Nat} (v : α) (hne : a ≠ k) :
    ∀ {m : List (Nat × α)}, wfFrom d b m = true → read d (write d m k v) a = read d m a := by
  intro m
  induction m generalizing b with
  | nil =>
    intro _
    have := read_cell_append_ne (d := d) hne v [] (by simp [read])
    simpa [write] using this
  | cons c m ih =>
    obtain ⟨j, w⟩ := c
    intro h
    simp only [wfFrom, Bool.and_eq_true, decide_eq_true_eq] at h
    unfold write
    split
    · rename_i hk
      apply read_cell_append_ne hne
      intro hak
      have h1 : a ≠ j := by omega
      have h2 : a < j := by omega
      simp [read, h1, h2]
    · split
      · rename_i _ hk
        subst hk
        rw [read_cell_append_ne hne v m (fun hak => read_below h.2 (by omega))]
        simp only [read, hne, if_false]
        split
        · exact read_below h.2 (by omega)
        · rfl
      · simp only [read]
        split
        · rfl
        · split
          · rfl
          · exact ih (b := j + 1) h.2

theorem wfFrom_cell_append {b k : Nat} (v : α) {m : List (Nat × α)} (hb : b ≤ k)
    (hm : wfFrom d (k + 1) m = true) : wfFrom d b (cell d k v ++ m) = true := by
  unfold cell
  split
  · exact wfFrom_mono (by omega) hm
  · simp only [List.cons_append, List.nil_append, wfFrom, Bool.and_eq_true, decide_eq_true_eq]
    exact ⟨⟨hb, ‹_›⟩, hm⟩

theorem wfFrom_write {b k : Nat} (v : α) (hb : b ≤ k) :
    ∀ {m : List (Nat × α)}, wfFrom d b m = true → wfFrom d b (write d m k v) = true := by
  intro m
  induction m generalizing b with
  | nil => intro _; simpa [write] using wfFrom_cell_append (d := d) (m := []) v hb rfl
  | cons c m ih =>
    obtain ⟨j, w⟩ := c
    intro h
    simp only [wfFrom, Bool.and_eq_true, decide_eq_true_eq] at h
    unfold write
    split
    · apply wfFrom_cell_append v hb
      simp only [wfFrom, Bool.and_eq_true, decide_eq_true_eq]
      exact ⟨⟨by omega, h.1.2⟩, h.2⟩
    · split
      · rename_i _ hk
        subst hk
        exact wfFrom_cell_append v hb h.2
      · simp only [wfFrom, Bool.and_eq_true, decide_eq_true_eq]
        exact ⟨h.1, ih (b := j + 1) (by omega) h.2⟩

/-- A write keeps the canonical form. -/
theorem wf_write {k : Nat} (v : α) {m : List (Nat × α)} (h : wf d m = true) : wf d (write d m k v) = true :=
  wfFrom_write v (Nat.zero_le k) h

theorem read_write_self {k : Nat} (v : α) {m : List (Nat × α)} (h : wf d m = true) :
    read d (write d m k v) k = v := read_write_same v (Nat.zero_le k) h

theorem read_write_other {k a : Nat} (v : α) (hne : a ≠ k) {m : List (Nat × α)} (h : wf d m = true) :
    read d (write d m k v) a = read d m a := read_write_ne v hne h

/-- Writing a list of values keeps the canonical form. -/
theorem wf_writeList : ∀ (vs : List α) (k : Nat) {m : List (Nat × α)}, wf d m = true →
    wf d (writeList d m k vs) = true
  | [], _, _, h => h
  | v :: vs, k, _, h => wf_writeList vs (k + 1) (wf_write v h)

theorem wfFrom_keep (p : Nat → Bool) : ∀ {b : Nat} {m : List (Nat × α)}, wfFrom d b m = true →
    wfFrom d b (keep p m) = true
  | _, [], _ => rfl
  | b, (j, v) :: m, h => by
    simp only [wfFrom, Bool.and_eq_true, decide_eq_true_eq] at h
    have ih := wfFrom_keep (b := j + 1) p h.2
    simp only [keep, List.filter]
    cases hp : p j with
    | true =>
      simp only [wfFrom, Bool.and_eq_true, decide_eq_true_eq]
      exact ⟨h.1, ih⟩
    | false => exact wfFrom_mono (by omega) ih

/-- Dropping pairs keeps the canonical form. -/
theorem wf_keep (p : Nat → Bool) {m : List (Nat × α)} (h : wf d m = true) : wf d (keep p m) = true :=
  wfFrom_keep p h

/-- Writing a list of values leaves every key outside the list's range alone. -/
theorem read_writeList_outside : ∀ (vs : List α) (k a : Nat) {m : List (Nat × α)}, wf d m = true →
    (a < k ∨ k + vs.length ≤ a) → read d (writeList d m k vs) a = read d m a
  | [], _, _, _, _, _ => rfl
  | v :: vs, k, a, m, h, ha => by
    simp only [List.length_cons] at ha
    rw [writeList, read_writeList_outside vs (k + 1) a (wf_write v h) (by omega)]
    exact read_write_other v (by omega) h

end Sparse

end Sys2Proof
end

