-- ==== Sys2Proof/Laws/Regs.lean ====
section
/-! SUPPORT. The laws of registers and fields: what a read finds after a write, and that every write keeps the register
file canonical. -/

namespace Sys2Proof.Machine

open Sys2Proof

theorem bitsOf_lt (w : Word) (hi lo : Nat) : bitsOf w hi lo < 2 ^ (hi + 1 - lo) := Nat.mod_lt _ (Nat.two_pow_pos _)

/-- A word as what lies below a field, the field, and what lies above. -/
theorem word_split (x lo k : Nat) : x = x % 2 ^ lo + x / 2 ^ lo % 2 ^ k * 2 ^ lo + x / 2 ^ (lo + k) * 2 ^ (lo + k) := by
  have h1 := Nat.div_add_mod x (2 ^ lo)
  have h2 := Nat.div_add_mod (x / 2 ^ lo) (2 ^ k)
  rw [Nat.div_div_eq_div_mul, ← Nat.pow_add] at h2
  have h3 : 2 ^ lo * (2 ^ k * (x / 2 ^ (lo + k)) + x / 2 ^ lo % 2 ^ k) + x % 2 ^ lo = x := by rw [h2]; exact h1
  rw [Nat.mul_add, ← Nat.mul_assoc, ← Nat.pow_add] at h3
  rw [Nat.mul_comm (x / 2 ^ lo % 2 ^ k), Nat.mul_comm (x / 2 ^ (lo + k))]
  omega

theorem top_room {c a : Nat} (ha : a ≤ 32) (hc : c < 2 ^ (32 - a)) : c * 2 ^ a + 2 ^ a ≤ 2 ^ 32 := by
  have h := Nat.mul_le_mul_right (2 ^ a) hc
  rw [← Nat.pow_add, Nat.sub_add_cancel ha, Nat.succ_mul] at h
  exact h

theorem withBits_toNat (w : Word) (hi lo n : Nat) (hl : lo ≤ hi) (hh : hi < 32) :
    (withBits w hi lo n).toNat =
      w.toNat % 2 ^ lo + n % 2 ^ (hi + 1 - lo) * 2 ^ lo + w.toNat / 2 ^ (hi + 1) * 2 ^ (hi + 1) := by
  have e : lo + (hi + 1 - lo) = hi + 1 := by omega
  have hs := word_split w.toNat lo (hi + 1 - lo)
  rw [e] at hs
  have hw := w.isLt
  have h1 : w.toNat % 2 ^ lo < 2 ^ lo := Nat.mod_lt _ (Nat.two_pow_pos _)
  have h2 : n % 2 ^ (hi + 1 - lo) < 2 ^ (hi + 1 - lo) := Nat.mod_lt _ (Nat.two_pow_pos _)
  have h3 : n % 2 ^ (hi + 1 - lo) * 2 ^ lo + 2 ^ lo ≤ 2 ^ (hi + 1) := by
    have := Nat.mul_le_mul_right (2 ^ lo) h2
    rw [← Nat.pow_add, show hi + 1 - lo + lo = hi + 1 by omega, Nat.succ_mul] at this
    exact this
  have h4 : w.toNat / 2 ^ (hi + 1) < 2 ^ (32 - (hi + 1)) := by
    apply Nat.div_lt_of_lt_mul
    rw [← Nat.pow_add, show hi + 1 + (32 - (hi + 1)) = 32 by omega]
    exact hw
  have h5 := top_room (a := hi + 1) (by omega) h4
  unfold withBits bitsOf
  rw [BitVec.toNat_ofNat]
  rw [show w.toNat - w.toNat / 2 ^ lo % 2 ^ (hi + 1 - lo) * 2 ^ lo + n % 2 ^ (hi + 1 - lo) * 2 ^ lo =
    w.toNat % 2 ^ lo + n % 2 ^ (hi + 1 - lo) * 2 ^ lo + w.toNat / 2 ^ (hi + 1) * 2 ^ (hi + 1) by omega]
  apply Nat.mod_eq_of_lt
  omega

/-- The field just written reads as the number, taken modulo its width. -/
theorem bitsOf_withBits_same (w : Word) (hi lo n : Nat) (hl : lo ≤ hi) (hh : hi < 32) :
    bitsOf (withBits w hi lo n) hi lo = n % 2 ^ (hi + 1 - lo) := by
  have e : lo + (hi + 1 - lo) = hi + 1 := by omega
  unfold bitsOf
  rw [withBits_toNat w hi lo n hl hh]
  have h1 : w.toNat % 2 ^ lo < 2 ^ lo := Nat.mod_lt _ (Nat.two_pow_pos _)
  have hp : 2 ^ (hi + 1) = 2 ^ (hi + 1 - lo) * 2 ^ lo := by rw [← Nat.pow_add]; congr 1; omega
  rw [hp, ← Nat.mul_assoc, Nat.add_assoc, ← Nat.add_mul, Nat.add_mul_div_right _ _ (Nat.two_pow_pos _),
    Nat.div_eq_of_lt h1, Nat.zero_add, Nat.add_mul_mod_self_right, Nat.mod_mod]

/-- A field below the one written keeps its value. -/
theorem bitsOf_withBits_below (w : Word) (hi lo hi' lo' n : Nat) (hl : lo ≤ hi) (hh : hi < 32) (hb : hi' < lo) (hl' : lo' ≤ hi') :
    bitsOf (withBits w hi lo n) hi' lo' = bitsOf w hi' lo' := by
  unfold bitsOf
  rw [withBits_toNat w hi lo n hl hh]
  have key : ∀ a b c : Nat, (a % 2 ^ lo + b * 2 ^ lo + c * 2 ^ (hi + 1)) / 2 ^ lo' % 2 ^ (hi' + 1 - lo') = a / 2 ^ lo' % 2 ^ (hi' + 1 - lo') := by
    intro a b c
    have hd : 2 ^ (hi' + 1) ∣ 2 ^ lo := Nat.pow_dvd_pow 2 (by omega)
    have hd2 : 2 ^ (hi' + 1) ∣ 2 ^ (hi + 1) := Nat.pow_dvd_pow 2 (by omega)
    have hmod : (a % 2 ^ lo + b * 2 ^ lo + c * 2 ^ (hi + 1)) % 2 ^ (hi' + 1) = a % 2 ^ (hi' + 1) := by
      rw [Nat.add_mod, Nat.mod_eq_zero_of_dvd (Nat.dvd_mul_left_of_dvd hd2 c), Nat.add_zero, Nat.mod_mod, Nat.add_mod,
        Nat.mod_eq_zero_of_dvd (Nat.dvd_mul_left_of_dvd hd b), Nat.add_zero, Nat.mod_mod, Nat.mod_mod_of_dvd a hd]
    have split : ∀ x : Nat, x / 2 ^ lo' % 2 ^ (hi' + 1 - lo') = x % 2 ^ (hi' + 1) / 2 ^ lo' := by
      intro x
      rw [← Nat.mod_mul_right_div_self, ← Nat.pow_add, show lo' + (hi' + 1 - lo') = hi' + 1 by omega]
    rw [split, split, hmod]
  exact key _ _ _

/-- A field above the one written keeps its value. -/
theorem bitsOf_withBits_above (w : Word) (hi lo hi' lo' n : Nat) (hl : lo ≤ hi) (hh : hi < 32) (hb : hi < lo') :
    bitsOf (withBits w hi lo n) hi' lo' = bitsOf w hi' lo' := by
  unfold bitsOf
  rw [withBits_toNat w hi lo n hl hh]
  have h1 : w.toNat % 2 ^ lo < 2 ^ lo := Nat.mod_lt _ (Nat.two_pow_pos _)
  have h2 : n % 2 ^ (hi + 1 - lo) < 2 ^ (hi + 1 - lo) := Nat.mod_lt _ (Nat.two_pow_pos _)
  have h3 : n % 2 ^ (hi + 1 - lo) * 2 ^ lo + 2 ^ lo ≤ 2 ^ (hi + 1) := by
    have := Nat.mul_le_mul_right (2 ^ lo) h2
    rw [← Nat.pow_add, show hi + 1 - lo + lo = hi + 1 by omega, Nat.succ_mul] at this
    exact this
  have h6 : w.toNat % 2 ^ lo + n % 2 ^ (hi + 1 - lo) * 2 ^ lo < 2 ^ (hi + 1) := by omega
  have hp : 2 ^ lo' = 2 ^ (hi + 1) * 2 ^ (lo' - (hi + 1)) := by rw [← Nat.pow_add]; congr 1; omega
  rw [hp, ← Nat.div_div_eq_div_mul, ← Nat.div_div_eq_div_mul, Nat.add_mul_div_right _ _ (Nat.two_pow_pos _),
    Nat.div_eq_of_lt h6, Nat.zero_add]

/-! ### Registers -/

theorem regsWf_wr {s : State} (k : Nat) (v : Word) (h : s.regsWf = true) : (s.wr k v).regsWf = true := Sparse.wf_write v h

theorem rd_wr_same {s : State} {k : Nat} (v : Word) (h : s.regsWf = true) : (s.wr k v).rd k = v := Sparse.read_write_self v h

theorem rd_wr_ne {s : State} {k j : Nat} (v : Word) (h : s.regsWf = true) (hne : j ≠ k) : (s.wr k v).rd j = s.rd j :=
  Sparse.read_write_other v hne h

theorem regsWf_put {s : State} (f : Fld) (n : Nat) (h : s.regsWf = true) : (s.put f n).regsWf = true := regsWf_wr _ _ h

/-- A field has bits of a 32-bit word. -/
def fldOk (f : Fld) : Bool := decide (f.lo ≤ f.hi) && decide (f.hi < 32)

/-- Two fields have no bit in common. -/
def fldApart (f g : Fld) : Bool := f.reg != g.reg || decide (g.hi < f.lo) || decide (f.hi < g.lo)

theorem get_put_same {s : State} {f : Fld} (n : Nat) (h : s.regsWf = true) (hf : fldOk f = true) :
    (s.put f n).get f = n % 2 ^ (f.hi + 1 - f.lo) := by
  simp only [fldOk, Bool.and_eq_true, decide_eq_true_eq] at hf
  rw [State.get, State.put, rd_wr_same _ h, bitsOf_withBits_same _ _ _ _ hf.1 hf.2]

theorem get_put_apart {s : State} {f g : Fld} (n : Nat) (h : s.regsWf = true) (hf : fldOk f = true) (hg : fldOk g = true)
    (ha : fldApart f g = true) : (s.put f n).get g = s.get g := by
  simp only [fldOk, Bool.and_eq_true, decide_eq_true_eq] at hf hg
  by_cases hr : g.reg = f.reg
  · simp only [fldApart, hr, bne_self_eq_false, Bool.false_or, Bool.or_eq_true, decide_eq_true_eq] at ha
    rw [State.get, State.put, hr, rd_wr_same _ h, State.get, hr]
    rcases ha with ha | ha
    · exact bitsOf_withBits_below _ _ _ _ _ _ hf.1 hf.2 ha hg.1
    · exact bitsOf_withBits_above _ _ _ _ _ _ hf.1 hf.2 ha
  · rw [State.get, State.put, rd_wr_ne _ h hr, State.get]

end Sys2Proof.Machine
end

