-- ==== Sys2Proof/Laws/Keep.lean ====
section
/-! SUPPORT. That the shared operations keep the canonical form of the register file and of the memories. -/

namespace Sys2Proof.Machine

open Sys2Proof

/-- An outcome whose next state, if it has one, is in canonical form. -/
def OutcomeKeeps (o : Host.Outcome State Fault Refusal) : Prop := ∀ t, o = .next t → t.Canonical

theorem keeps_next {s : State} (h : s.Canonical) : OutcomeKeeps (.next s) := by
  intro t e; cases e; exact h

theorem keep_cut {P : Prop} (x : State) (f : x.Canonical → P) (hx : x.Canonical) : P := f hx

theorem keep_ite {c : Prop} {_ : Decidable c} {a b : State} (ha : a.Canonical) (hb : b.Canonical) :
    State.Canonical (if c then a else b) := by
  split <;> assumption

theorem keep_regs {s : State} (h : s.Canonical) : Sparse.wf resetWord s.regs = true := h.1

theorem keep_sram {s : State} (h : s.Canonical) : Sparse.wf zeroed s.sram = true := by
  have := h.2; simp only [State.memWf, Bool.and_eq_true] at this; exact this.1.1

theorem keep_store {s : State} (h : s.Canonical) : Sparse.wf erased s.store = true := by
  have := h.2; simp only [State.memWf, Bool.and_eq_true] at this; exact this.1.2

theorem keep_buf {s : State} (h : s.Canonical) : Sparse.wf zeroed s.buf = true := by
  have := h.2; simp only [State.memWf, Bool.and_eq_true] at this; exact this.2

/-- A record is canonical when its register file and memories are. -/
theorem canonical_of {s : State} (h1 : Sparse.wf resetWord s.regs = true) (h2 : Sparse.wf zeroed s.sram = true)
    (h3 : Sparse.wf erased s.store = true) (h4 : Sparse.wf zeroed s.buf = true) : s.Canonical := by
  refine ⟨h1, ?_⟩
  simp only [State.memWf, Bool.and_eq_true]
  exact ⟨⟨h2, h3⟩, h4⟩

theorem keep_mk {pending part regs sram store buf atb asc latched irqLines pcm sst sto mor pd link firn rme ports dma cry chn ord pmx
    srv wsq msq uqi mgt out draws} (h1 : Sparse.wf resetWord regs = true) (h2 : Sparse.wf zeroed sram = true)
    (h3 : Sparse.wf erased store = true) (h4 : Sparse.wf zeroed buf = true) :
    State.Canonical (State.mk pending part regs sram store buf atb asc latched irqLines pcm sst sto mor pd link firn rme ports dma
      cry chn ord pmx srv wsq msq uqi mgt out draws) := canonical_of h1 h2 h3 h4

/-- A record update keeps the form when the register file and the memories it names do. -/
theorem canonical_mk {pending part regs sram store buf atb asc latched irqLines pcm sst sto mor pd link firn rme ports dma cry chn ord
    pmx srv wsq msq uqi mgt out draws} :
    State.Canonical (State.mk pending part regs sram store buf atb asc latched irqLines pcm sst sto mor pd link firn rme ports dma
      cry chn ord pmx srv wsq msq uqi mgt out draws) ↔ Sparse.wf resetWord regs = true ∧ Sparse.wf zeroed sram = true ∧
      Sparse.wf erased store = true ∧ Sparse.wf zeroed buf = true :=
  ⟨fun h => ⟨keep_regs h, keep_sram h, keep_store h, keep_buf h⟩, fun h => keep_mk h.1 h.2.1 h.2.2.1 h.2.2.2⟩

theorem keep_getD {o : Option State} {d : State} (ho : ∀ u, o = some u → u.Canonical) (hd : d.Canonical) :
    State.Canonical (o.getD d) := by
  cases o with
  | none => exact hd
  | some u => exact ho u rfl

theorem keep_foldl {α β : Type} {f : β × State → α → β × State} {l : List α} {x : β × State} (hx : x.2.Canonical)
    (hf : ∀ p y, State.Canonical p.2 → (f p y).2.Canonical) : (List.foldl f x l).2.Canonical := by
  induction l generalizing x with
  | nil => exact hx
  | cons y l ih => exact ih (hf x y hx)

theorem keep_nil {α : Type} [DecidableEq α] {d : Nat → α} : Sparse.wf d [] = true := rfl

/-! ### Ops -/

theorem keep_wr {s : State} {k : Nat} {v : Word} (h : s.Canonical) : (s.wr k v).Canonical := ⟨regsWf_wr k v h.1, h.2⟩

theorem keep_put {s : State} {f : Fld} {n : Nat} (h : s.Canonical) : (s.put f n).Canonical := keep_wr h

theorem keep_raiseBit {s : State} {f : Fld} (h : s.Canonical) : (s.raiseBit f).Canonical := keep_put h

theorem keep_clr {s : State} {f : Fld} (h : s.Canonical) : (s.clr f).Canonical := keep_put h

theorem keep_putB {s : State} {f : Fld} {b : Bool} (h : s.Canonical) : (s.putB f b).Canonical := keep_put h

theorem keep_addCnt {s : State} {f : Fld} {n : Nat} (h : s.Canonical) : (s.addCnt f n).Canonical := keep_put h

theorem keep_inc {s : State} {f : Fld} (h : s.Canonical) : (s.inc f).Canonical := keep_put h

theorem keep_incWrap {s : State} {f : Fld} (h : s.Canonical) : (s.incWrap f).Canonical := keep_put h

theorem keep_setIn {s : State} {f : Fld} {n : Nat} (h : s.Canonical) : (s.setIn f n).Canonical := keep_put h

theorem keep_clrIn {s : State} {f : Fld} {n : Nat} (h : s.Canonical) : (s.clrIn f n).Canonical := keep_put h

theorem keep_resetRegs {s : State} {p : Nat → Bool} (h : s.Canonical) : (s.resetRegs p).Canonical :=
  keep_mk (Sparse.wf_keep _ h.1) (keep_sram h) (keep_store h) (keep_buf h)

theorem keep_stoWrite {s : State} {a : Nat} {bs : List Byte} (h : s.Canonical) : (s.stoWrite a bs).Canonical :=
  keep_mk h.1 (keep_sram h) (Sparse.wf_writeList bs a (keep_store h)) (keep_buf h)

theorem keep_stoProgram {s : State} {a : Nat} {bs : List Byte} (h : s.Canonical) : (s.stoProgram a bs).Canonical :=
  keep_stoWrite h

theorem keep_stoErase {s : State} {a n : Nat} (h : s.Canonical) : (s.stoErase a n).Canonical :=
  keep_mk h.1 (keep_sram h) (Sparse.wf_keep _ (keep_store h)) (keep_buf h)

theorem keep_bufWrite {s : State} {a : Nat} {bs : List Byte} (h : s.Canonical) : (s.bufWrite a bs).Canonical :=
  keep_mk h.1 (keep_sram h) (keep_store h) (Sparse.wf_writeList bs a (keep_buf h))

theorem keep_bufZero {s : State} {a n : Nat} (h : s.Canonical) : (s.bufZero a n).Canonical :=
  keep_mk h.1 (keep_sram h) (keep_store h) (Sparse.wf_keep _ (keep_buf h))

theorem keep_sramWrite {s : State} {a : Nat} {bs : List Byte} (h : s.Canonical) : (s.sramWrite a bs).Canonical :=
  keep_mk h.1 (Sparse.wf_writeList bs a (keep_sram h)) (keep_store h) (keep_buf h)

theorem keep_event {s : State} {code party : Nat} {payload : List Byte} (h : s.Canonical) : (s.event code party payload).Canonical := h

theorem keep_emit {s : State} {o : Out} (h : s.Canonical) : (s.emit o).Canonical := h

theorem keep_draw {s : State} (h : s.Canonical) : s.draw.2.Canonical := h

theorem keep_drawBytes {n : Nat} {s : State} (h : s.Canonical) : (State.drawBytes n s).2.Canonical := by
  induction n generalizing s with
  | zero => exact h
  | succ n ih => exact ih (s := s.draw.2) h

theorem keep_each {α : Type} {f : α → State → State} {l : List α} {s : State} (hs : s.Canonical)
    (hf : ∀ x u, State.Canonical u → (f x u).Canonical) : (State.each f l s).Canonical := by
  induction l generalizing s with
  | nil => exact hs
  | cons x l ih => exact ih (hf x s hs)

theorem keep_openFlds {l : List Fld} {s : State} (h : s.Canonical) : (State.openFlds l s).Canonical :=
  keep_each h fun _ _ hu => keep_put (keep_draw hu)

end Sys2Proof.Machine
end

