-- ==== Sys2Proof/Laws/Keep/AscOps.lean ====
section
/-! SUPPORT. That the definitions of Machine/AscOps.lean keep the canonical form (see Laws/Keep.lean). -/

namespace Sys2Proof.Machine

open Sys2Proof

set_option linter.unusedSimpArgs false

theorem keep_setEntry {s : State} {i : Nat} {e : AscEntry} (hs : s.Canonical) :
    State.Canonical (State.setEntry s i e) := by
  unfold State.setEntry
  repeat' first
    | with_reducible assumption | (intro x; refine keep_cut x (fun hx => ?_) ?_; clear_value x; rotate_left; subst x; rotate_left)
    | (intro x; subst x) | lift_lets
    | with_reducible (first | apply keep_put | apply And.intro | apply keep_regs | apply keep_sram | apply keep_store)
    | with_reducible apply keep_buf | simp only [↓canonical_mk]

end Sys2Proof.Machine
end

