-- ==== Sys2Proof/Laws/Keep/FirnOps.lean ====
section
/-! SUPPORT. That the definitions of Machine/FirnOps.lean keep the canonical form (see Laws/Keep.lean). -/

namespace Sys2Proof.Machine

open Sys2Proof

set_option linter.unusedSimpArgs false

theorem keep_setTag {s : State} {k : Nat} {t : FTag} (hs : s.Canonical) :
    State.Canonical (State.setTag s k t) := by
  unfold State.setTag
  repeat' first
    | with_reducible assumption | (intro x; subst x) | lift_lets | simp only [↓canonical_mk]
    | with_reducible (first | apply And.intro | apply keep_regs | apply keep_sram | apply keep_store | apply keep_buf)

theorem keep_setSerac {s : State} {k : Nat} {t : SeracEnt} (hs : s.Canonical) :
    State.Canonical (State.setSerac s k t) := by
  unfold State.setSerac
  repeat' first
    | with_reducible assumption | (intro x; subst x) | lift_lets | simp only [↓canonical_mk]
    | with_reducible (first | apply And.intro | apply keep_regs | apply keep_sram | apply keep_store | apply keep_buf)

theorem keep_setSlot {s : State} {k : Nat} {t : CSlot} (hs : s.Canonical) :
    State.Canonical (State.setSlot s k t) := by
  unfold State.setSlot
  repeat' first
    | with_reducible assumption | (intro x; subst x) | lift_lets | simp only [↓canonical_mk]
    | with_reducible (first | apply And.intro | apply keep_regs | apply keep_sram | apply keep_store | apply keep_buf)

theorem keep_onFirn {s : State} {f : FirnState → FirnState} (hs : s.Canonical) :
    State.Canonical (State.onFirn s f) := by
  unfold State.onFirn
  repeat' first
    | with_reducible (first | assumption | apply And.intro | apply keep_regs | apply keep_sram | apply keep_store | apply keep_buf)
    | simp only [↓canonical_mk]

theorem keep_touch {s : State} {k : Nat} (hs : s.Canonical) :
    State.Canonical (State.touch s k) := by
  unfold State.touch
  repeat' first
    | with_reducible assumption | (intro x; subst x) | lift_lets | with_reducible (first | apply keep_setTag | apply keep_onFirn)

theorem keep_bindTag {s : State} {k frame : Nat} {g : Seg} (hs : s.Canonical) :
    State.Canonical (State.bindTag s k frame g) := by
  unfold State.bindTag
  repeat' first | with_reducible assumption | (intro x; subst x) | lift_lets | with_reducible apply keep_setTag

theorem keep_enterSerac {s : State} {g : Seg} {frame : Nat} (hs : s.Canonical) :
    State.Canonical (State.enterSerac s g frame).2 := by
  unfold State.enterSerac
  repeat' first
    | with_reducible assumption | (intro x; refine keep_cut x (fun hx => ?_) ?_; clear_value x; rotate_left; subst x; rotate_left)
    | (intro x; subst x) | lift_lets | with_reducible (first | apply keep_setSerac | apply keep_onFirn)

theorem keep_emptySerac {s : State} {k : Nat} (hs : s.Canonical) :
    State.Canonical (State.emptySerac s k) := by
  unfold State.emptySerac
  repeat' first
    | with_reducible assumption | (intro x; subst x) | lift_lets | with_reducible (first | apply keep_setSerac | apply keep_onFirn)

theorem keep_allocNew {s : State} {k p seg : Nat} (hs : s.Canonical) :
    State.Canonical (State.allocNew s k p seg) := by
  unfold State.allocNew
  repeat' first
    | with_reducible assumption | (intro x; refine keep_cut x (fun hx => ?_) ?_; clear_value x; rotate_left; subst x; rotate_left)
    | (intro x; subst x) | lift_lets | with_reducible (first | apply keep_enterSerac | apply keep_bindTag | apply keep_touch) | split

theorem keep_recall {s : State} {k i : Nat} {g : Seg} (hs : s.Canonical) :
    State.Canonical (State.recall s k i g) := by
  unfold State.recall
  repeat' first
    | with_reducible assumption | (intro x; refine keep_cut x (fun hx => ?_) ?_; clear_value x; rotate_left; subst x; rotate_left)
    | (intro x; subst x) | lift_lets
    | with_reducible (first | apply keep_emptySerac | apply keep_setSerac | apply keep_onFirn | apply keep_bindTag)
    | with_reducible (first | apply keep_touch | apply keep_inc | apply keep_ite) | split

theorem keep_promote {s : State} {k j : Nat} {g : Seg} (hs : s.Canonical) :
    State.Canonical (State.promote s k j g) := by
  unfold State.promote
  repeat' first
    | with_reducible assumption | (intro x; refine keep_cut x (fun hx => ?_) ?_; clear_value x; rotate_left; subst x; rotate_left)
    | (intro x; subst x) | lift_lets
    | with_reducible (first | apply keep_enterSerac | apply keep_setSlot | apply keep_bindTag | apply keep_touch | apply keep_inc) | split

theorem keep_pinTag {s : State} {k : Nat} {pin : Bool} (hs : s.Canonical) :
    State.Canonical (State.pinTag s k pin) := by
  unfold State.pinTag
  repeat' first | with_reducible assumption | (intro x; subst x) | lift_lets | with_reducible (first | apply keep_setTag | apply keep_ite)

theorem keep_addUnits {s : State} {p n : Nat} (hs : s.Canonical) :
    State.Canonical (State.addUnits s p n) := by
  unfold State.addUnits
  repeat' with_reducible first | assumption | apply keep_put

theorem keep_dropUnits {s : State} {p n : Nat} (hs : s.Canonical) :
    State.Canonical (State.dropUnits s p n) := by
  unfold State.dropUnits
  repeat' with_reducible first | assumption | apply keep_put

theorem keep_dropReserved {s : State} {p n : Nat} (hs : s.Canonical) :
    State.Canonical (State.dropReserved s p n) := by
  unfold State.dropReserved
  repeat' with_reducible first | assumption | apply keep_dropUnits

theorem keep_applyIntent {s : State} {k p : Nat} {m : Mask} {it : Intent} (hs : s.Canonical) :
    State.Canonical (State.applyIntent s k p m it).2.2 := by
  unfold State.applyIntent
  repeat' first
    | with_reducible assumption | (intro x; refine keep_cut x (fun hx => ?_) ?_; clear_value x; rotate_left; subst x; rotate_left)
    | (intro x; subst x) | lift_lets | with_reducible (first | apply keep_setTag | apply keep_addUnits) | split

theorem keep_finishLook {s : State} {k p : Nat} {m : Mask} {it : Intent} {pin : Bool} {result source : Nat} (hs : s.Canonical) :
    State.Canonical (State.finishLook s k p m it pin result source).2 := by
  unfold State.finishLook
  repeat' first
    | with_reducible assumption | (intro x; refine keep_cut x (fun hx => ?_) ?_; clear_value x; rotate_left; subst x; rotate_left)
    | (intro x; subst x) | lift_lets | with_reducible (first | apply keep_pinTag | apply keep_applyIntent)

theorem keep_bring {s : State} {p seg : Nat} {m : Mask} {it : Intent} {pin : Bool} (hs : s.Canonical) :
    State.Canonical (State.bring s p seg m it pin).2 := by
  unfold State.bring
  repeat' first
    | with_reducible (first | assumption | apply keep_recall | apply keep_finishLook | apply keep_inc | apply keep_promote)
    | with_reducible apply keep_allocNew | lift_lets | split

theorem keep_firnLookup {s : State} {p lba n : Nat} {it : Intent} {pin : Bool} (hs : s.Canonical) :
    State.Canonical (State.firnLookup s p lba n it pin).2 := by
  unfold State.firnLookup
  repeat' first
    | with_reducible assumption | (intro x; subst x) | lift_lets
    | with_reducible (first | apply keep_inc | apply keep_touch | apply keep_finishLook | apply keep_bring | apply keep_ite) | split

theorem keep_moveUnits {s : State} {p : Nat} {i : Int} (hs : s.Canonical) :
    State.Canonical (State.moveUnits s p i) := by
  unfold State.moveUnits
  repeat' with_reducible first | assumption | apply keep_put

theorem keep_firnCommit {s : State} {k : Nat} {gen : BitVec 8} {m full : Mask} (hs : s.Canonical) :
    State.Canonical (State.firnCommit s k gen m full).2.2 := by
  unfold State.firnCommit
  repeat' first
    | with_reducible assumption | (intro x; subst x) | lift_lets | with_reducible (first | apply keep_setTag | apply keep_moveUnits)
    | simp only [↓canonical_mk] | split

theorem keep_postClean {s : State} {k : Nat} {m : Mask} {inval : Bool} (hs : s.Canonical) :
    State.Canonical (State.postClean s k m inval).2 := by
  unfold State.postClean
  repeat' first
    | with_reducible assumption | (intro x; subst x) | lift_lets | with_reducible (first | apply keep_setTag | apply keep_onFirn)
    | simp only [↓canonical_mk] | split

theorem keep_wbDone {s : State} {k : Nat} {gen : BitVec 8} {m : Mask} {ok : Bool} (hs : s.Canonical) :
    State.Canonical (State.wbDone s k gen m ok) := by
  unfold State.wbDone
  repeat' first
    | with_reducible assumption | (intro x; subst x) | lift_lets
    | with_reducible (first | apply keep_raiseBit | apply keep_inc | apply keep_setTag | apply keep_dropUnits | apply keep_ite)
    | simp only [↓canonical_mk] | split

theorem keep_releaseSlot {s : State} {j : Nat} (hs : s.Canonical) :
    State.Canonical (State.releaseSlot s j) := by
  unfold State.releaseSlot
  repeat' first | with_reducible assumption | (intro x; subst x) | lift_lets | with_reducible (first | apply keep_setSlot | apply keep_ite)

theorem keep_maintTag {s : State} {op : Maint} {k : Nat} {m : Mask} (hs : s.Canonical) :
    State.Canonical (State.maintTag s op k m).2 := by
  unfold State.maintTag
  repeat' first
    | with_reducible assumption | (intro x; refine keep_cut x (fun hx => ?_) ?_; clear_value x; rotate_left; subst x; rotate_left)
    | (intro x; subst x) | lift_lets | with_reducible (first | apply keep_postClean | apply keep_setTag | apply keep_dropUnits) | split

theorem keep_maintAway {s : State} {op : Maint} {p seg : Nat} (hs : s.Canonical) :
    State.Canonical (State.maintAway s op p seg) := by
  unfold State.maintAway
  repeat' first | with_reducible (first | assumption | apply keep_emptySerac | apply keep_releaseSlot | apply keep_ite) | lift_lets | split

theorem keep_maintAddr {s : State} {op : Maint} {p lba n : Nat} (hs : s.Canonical) :
    State.Canonical (State.maintAddr s op p lba n).2 := by
  unfold State.maintAddr
  repeat' first
    | with_reducible assumption | (intro x; subst x) | lift_lets | with_reducible (first | apply keep_maintTag | apply keep_maintAway)
    | split

theorem keep_visit {s : State} {r : RangeOp} {pos : Nat} (hs : s.Canonical) :
    State.Canonical (State.visit s r pos).2 := by
  unfold State.visit
  repeat' first
    | with_reducible assumption | (intro x; subst x) | lift_lets
    | with_reducible (first | apply keep_maintTag | apply keep_emptySerac | apply keep_releaseSlot) | split

theorem keep_visits {a0 : List Nat} {a1 : State} {a2 : RangeOp} (h : a1.Canonical) :
    State.Canonical (State.visits a0 a1 a2) := by
  induction a0 generalizing a1 a2 with
  | nil =>
    unfold State.visits
    repeat' with_reducible first | assumption | apply keep_onFirn
  | cons x l ih =>
    unfold State.visits
    repeat' first
      | with_reducible assumption | (intro x; refine keep_cut x (fun hx => ?_) ?_; clear_value x; rotate_left; subst x; rotate_left)
      | (intro x; subst x) | lift_lets | with_reducible (first | apply ih | apply keep_onFirn | apply keep_visit | apply keep_raiseBit)
      | split

theorem keep_runRange {s : State} (hs : s.Canonical) :
    State.Canonical (State.runRange s) := by
  unfold State.runRange
  repeat' first | with_reducible (first | assumption | apply keep_visits | apply keep_clr) | lift_lets | split

theorem keep_cAlloc {s : State} {p seg : Nat} {fill : Mask} (hs : s.Canonical) :
    State.Canonical (State.cAlloc s p seg fill).2.2 := by
  unfold State.cAlloc
  repeat' first | with_reducible (first | assumption | apply keep_setSlot) | simp only [↓canonical_mk] | split

theorem keep_revoke {s : State} {p : Nat} {rs : Option (List (Nat × Nat))} (hs : s.Canonical) :
    State.Canonical (State.revoke s p rs) := by
  unfold State.revoke
  repeat' first
    | with_reducible assumption | (intro x; refine keep_cut x (fun hx => ?_) ?_; clear_value x; rotate_left; subst x; rotate_left)
    | (intro x; subst x) | intro _ | lift_lets
    | with_reducible (first | apply keep_each | apply keep_setSlot | apply keep_emptySerac | apply keep_setTag)
    | with_reducible (first | apply keep_raiseBit | apply keep_ite) | dsimp -zeta only [State.draw] | split

theorem keep_ueRecord {s : State} {a src : Nat} {owner : Option Nat} {dirty scrub : Bool} (hs : s.Canonical) :
    State.Canonical (ueRecord s a src owner dirty scrub) := by
  unfold ueRecord
  repeat' first | with_reducible assumption | (intro x; subst x) | lift_lets | with_reducible apply keep_event

theorem keep_bufferUE {s : State} {a src : Nat} {scrub : Bool} (hs : s.Canonical) :
    State.Canonical (State.bufferUE s a src scrub) := by
  unfold State.bufferUE
  repeat' first
    | with_reducible assumption | (intro x; refine keep_cut x (fun hx => ?_) ?_; clear_value x; rotate_left; subst x; rotate_left)
    | (intro x; subst x) | lift_lets
    | with_reducible (first | apply keep_raiseBit | apply keep_inc | apply keep_put | apply keep_ueRecord | apply keep_setTag)
    | with_reducible (first | apply keep_setSlot | apply keep_ite | apply And.intro | apply keep_regs | apply keep_sram)
    | with_reducible (first | apply keep_store | apply keep_buf | apply keep_nil) | simp only [↓canonical_mk] | split

theorem keep_bufferCE {s : State} (hs : s.Canonical) :
    State.Canonical (State.bufferCE s) := by
  unfold State.bufferCE
  repeat' with_reducible first | assumption | apply keep_raiseBit | apply keep_inc

theorem keep_lookResult {s : State} {m : Master} {r : LookRes} (hs : s.Canonical) :
    State.Canonical (State.lookResult s m r) := by
  unfold State.lookResult
  repeat' first
    | with_reducible assumption | (intro x; refine keep_cut x (fun hx => ?_) ?_; clear_value x; rotate_left; subst x; rotate_left)
    | (intro x; subst x) | lift_lets | with_reducible (first | apply keep_wr | apply keep_put | apply keep_openFlds)
    | dsimp -zeta only [State.draw] | split

theorem keep_segResult {s : State} {m : Master} {result naff : Nat} (hs : s.Canonical) :
    State.Canonical (State.segResult s m result naff) := by
  unfold State.segResult
  repeat' with_reducible first | assumption | apply keep_wr | apply keep_put

end Sys2Proof.Machine
end

