-- ==== Sys2Proof/Laws/Keep/Ops.lean ====
section
/-! SUPPORT. That the definitions of Machine/Ops.lean keep the canonical form (see Laws/Keep.lean). -/

namespace Sys2Proof.Machine

open Sys2Proof

set_option linter.unusedSimpArgs false

theorem keep_poolWrite {s : State} {a : Nat} {bs : List Byte} (hs : s.Canonical) :
    State.Canonical (State.poolWrite s a bs) := by
  unfold State.poolWrite
  repeat' first
    | with_reducible assumption | (intro x; refine keep_cut x (fun hx => ?_) ?_; clear_value x; rotate_left; subst x; rotate_left)
    | (intro x; subst x) | lift_lets | with_reducible (first | apply keep_sramWrite | apply keep_ite) | split

end Sys2Proof.Machine
end

