-- ==== Sys2Proof/Laws/Keep/PortOps.lean ====
section
/-! SUPPORT. That the definitions of Machine/PortOps.lean keep the canonical form (see Laws/Keep.lean). -/

namespace Sys2Proof.Machine

open Sys2Proof

set_option linter.unusedSimpArgs false

theorem keep_setPort {s : State} {q : Nat} {p : Port} (hs : s.Canonical) :
    State.Canonical (State.setPort s q p) := by
  unfold State.setPort
  repeat' first
    | with_reducible (first | assumption | apply And.intro | apply keep_regs | apply keep_sram | apply keep_store | apply keep_buf)
    | simp only [↓canonical_mk]

theorem keep_onPort {s : State} {q : Nat} {f : Port → Port} (hs : s.Canonical) :
    State.Canonical (State.onPort s q f) := by
  unfold State.onPort
  repeat' with_reducible first | assumption | apply keep_setPort

theorem keep_hostRefused {s : State} (hs : s.Canonical) :
    State.Canonical (State.hostRefused s) := by
  unfold State.hostRefused
  repeat' with_reducible first | assumption | apply keep_inc | apply keep_raiseBit

theorem keep_send {s : State} {q : Nat} {o : Out} (hs : s.Canonical) :
    State.Canonical (State.send s q o) := by
  unfold State.send
  repeat' with_reducible first | assumption | apply keep_onPort | apply keep_emit

theorem keep_sendReads {s : State} {q a n : Nat} (hs : s.Canonical) :
    State.Canonical (State.sendReads s q a n) := by
  unfold State.sendReads
  repeat' first | with_reducible assumption | intro _ | lift_lets | with_reducible (first | apply keep_each | apply keep_send)

theorem keep_msix {s : State} {q v : Nat} (hs : s.Canonical) :
    State.Canonical (State.msix s q v) := by
  unfold State.msix
  repeat' first
    | with_reducible assumption | (intro x; subst x) | lift_lets
    | with_reducible (first | apply keep_send | apply keep_setPort | apply keep_ite)

theorem keep_msixPending {s : State} {q : Nat} (hs : s.Canonical) :
    State.Canonical (State.msixPending s q) := by
  unfold State.msixPending
  repeat' first
    | with_reducible assumption | (intro x; subst x) | intro _ | lift_lets
    | with_reducible (first | apply keep_each | apply keep_setPort | apply keep_send | apply keep_ite)

end Sys2Proof.Machine
end

