-- ==== Sys2Proof/Laws/Keep/StoBase.lean ====
section
/-! SUPPORT. That the definitions of Machine/StoBase.lean keep the canonical form (see Laws/Keep.lean). -/

namespace Sys2Proof.Machine

open Sys2Proof

set_option linter.unusedSimpArgs false

theorem keep_setBank {s : State} {b : Nat} {k : Bank} (hs : s.Canonical) :
    State.Canonical (State.setBank s b k) := by
  unfold State.setBank
  repeat' first
    | with_reducible assumption | (intro x; subst x) | lift_lets | simp only [↓canonical_mk]
    | with_reducible (first | apply And.intro | apply keep_regs | apply keep_sram | apply keep_store | apply keep_buf)

theorem keep_infoWrite {s : State} {row off : Nat} {bs : List Byte} (hs : s.Canonical) :
    State.Canonical (State.infoWrite s row off bs) := by
  unfold State.infoWrite
  repeat' first
    | with_reducible assumption | (intro x; subst x) | lift_lets | simp only [↓canonical_mk]
    | with_reducible (first | apply And.intro | apply keep_regs | apply keep_sram | apply keep_store | apply keep_buf)

theorem keep_infoErase {s : State} {b : Nat} (hs : s.Canonical) :
    State.Canonical (State.infoErase s b) := by
  unfold State.infoErase
  repeat' first
    | with_reducible assumption | (intro x; refine keep_cut x (fun hx => ?_) ?_; clear_value x; rotate_left; subst x; rotate_left)
    | (intro x; subst x) | lift_lets
    | with_reducible (first | apply keep_infoWrite | apply And.intro | apply keep_regs | apply keep_sram | apply keep_store)
    | with_reducible apply keep_buf | simp only [↓canonical_mk]

theorem keep_infoAppend {s : State} {b type master sector opseq : Nat} (hs : s.Canonical) :
    State.Canonical (State.infoAppend s b type master sector opseq) := by
  unfold State.infoAppend
  repeat' first | with_reducible assumption | (intro x; subst x) | lift_lets | with_reducible apply keep_infoWrite

theorem keep_startErase {s : State} {b : Nat} {op : EraseOp} (hs : s.Canonical) :
    State.Canonical (State.startErase s b op) := by
  unfold State.startErase
  repeat' first
    | with_reducible assumption | (intro x; refine keep_cut x (fun hx => ?_) ?_; clear_value x; rotate_left; subst x; rotate_left)
    | (intro x; subst x) | lift_lets
    | with_reducible (first | apply keep_setBank | apply keep_infoErase | apply keep_infoAppend | apply keep_ite)

theorem keep_endErase {s : State} {b : Nat} {ok : Bool} (hs : s.Canonical) :
    State.Canonical (State.endErase s b ok) := by
  unfold State.endErase
  repeat' first
    | with_reducible assumption | (intro x; refine keep_cut x (fun hx => ?_) ?_; clear_value x; rotate_left; subst x; rotate_left)
    | (intro x; subst x) | lift_lets | with_reducible (first | apply keep_infoAppend | apply keep_setBank | apply keep_setIn) | split

theorem keep_wakeBank {s : State} {b : Nat} (hs : s.Canonical) :
    State.Canonical (State.wakeBank s b) := by
  unfold State.wakeBank
  repeat' with_reducible first | assumption | apply keep_clrIn

end Sys2Proof.Machine
end

