-- ==== Sys2Proof/Laws/Keep/Ecc.lean ====
section
/-! SUPPORT. That the definitions of Machine/Ecc.lean keep the canonical form (see Laws/Keep.lean). -/

namespace Sys2Proof.Machine

open Sys2Proof

set_option linter.unusedSimpArgs false

theorem keep_eccKick {s : State} (hs : s.Canonical) :
    State.Canonical (State.eccKick s) := by
  unfold State.eccKick
  repeat' first
    | with_reducible assumption | (intro x; refine keep_cut x (fun hx => ?_) ?_; clear_value x; rotate_left; subst x; rotate_left)
    | (intro x; subst x) | lift_lets
    | with_reducible (first | apply keep_ite | apply And.intro | apply keep_regs | apply keep_sram | apply keep_store)
    | with_reducible (first | apply keep_buf | apply keep_nil) | simp only [↓canonical_mk] | split

theorem keep_eccFree {s : State} (hs : s.Canonical) :
    State.Canonical (State.eccFree s) := by
  unfold State.eccFree
  repeat' first
    | with_reducible assumption | (intro x; refine keep_cut x (fun hx => ?_) ?_; clear_value x; rotate_left; subst x; rotate_left)
    | (intro x; subst x) | lift_lets
    | with_reducible (first | apply keep_ite | apply And.intro | apply keep_regs | apply keep_sram | apply keep_store)
    | with_reducible (first | apply keep_buf | apply keep_nil) | simp only [↓canonical_mk] | split

theorem keep_eccDrop {s : State} (hs : s.Canonical) :
    State.Canonical (State.eccDrop s) := by
  unfold State.eccDrop
  repeat' first
    | with_reducible assumption | (intro x; refine keep_cut x (fun hx => ?_) ?_; clear_value x; rotate_left; subst x; rotate_left)
    | (intro x; subst x) | lift_lets
    | with_reducible (first | apply keep_ite | apply And.intro | apply keep_regs | apply keep_sram | apply keep_store)
    | with_reducible (first | apply keep_buf | apply keep_nil) | simp only [↓canonical_mk] | split

end Sys2Proof.Machine
end

