-- ==== Sys2Proof/Laws/Keep/MorOps.lean ====
section
/-! SUPPORT. That the definitions of Machine/MorOps.lean keep the canonical form (see Laws/Keep.lean). -/

namespace Sys2Proof.Machine

open Sys2Proof

set_option linter.unusedSimpArgs false

theorem keep_formPrefix {s : State} {n : Nat} (hs : s.Canonical) :
    State.Canonical (State.formPrefix s n) := by
  unfold State.formPrefix
  repeat' first
    | with_reducible assumption | (intro x; refine keep_cut x (fun hx => ?_) ?_; clear_value x; rotate_left; subst x; rotate_left)
    | (intro x; subst x) | lift_lets
    | with_reducible (first | apply keep_eccKick | apply keep_ite | apply And.intro | apply keep_regs | apply keep_sram)
    | with_reducible (first | apply keep_store | apply keep_buf | apply keep_nil) | simp only [↓canonical_mk] | split

theorem keep_pushFifo {s : State} {st : Staged} (hs : s.Canonical) :
    State.Canonical (State.pushFifo s st) := by
  unfold State.pushFifo
  repeat' first
    | with_reducible assumption | (intro x; refine keep_cut x (fun hx => ?_) ?_; clear_value x; rotate_left; subst x; rotate_left)
    | (intro x; subst x) | lift_lets
    | with_reducible (first | apply keep_put | apply keep_formPrefix | apply keep_ite | apply And.intro | apply keep_regs)
    | with_reducible (first | apply keep_sram | apply keep_store | apply keep_buf) | simp only [↓canonical_mk]

theorem keep_refill {a0 : Nat} {a1 : State} (h : a1.Canonical) :
    State.Canonical (State.refill a0 a1) := by
  induction a0 generalizing a1 with
  | zero =>
    unfold State.refill
    repeat' with_reducible first | assumption
  | succ n ih =>
    unfold State.refill
    repeat' first
      | with_reducible assumption | (intro x; refine keep_cut x (fun hx => ?_) ?_; clear_value x; rotate_left; subst x; rotate_left)
      | lift_lets
      | with_reducible (first | apply ih | apply keep_pushFifo | apply keep_ite | apply And.intro | apply keep_regs)
      | with_reducible (first | apply keep_stamp | apply keep_sram | apply keep_store | apply keep_buf) | simp only [↓canonical_mk] | split

theorem keep_ownEvent {s : State} {code : Nat} {payload : List Byte} {sealTrig : Option Nat} (hs : s.Canonical) :
    State.Canonical (State.ownEvent s code payload sealTrig) := by
  unfold State.ownEvent
  repeat' first
    | with_reducible assumption | (intro x; refine keep_cut x (fun hx => ?_) ?_; clear_value x; rotate_left; subst x; rotate_left)
    | (intro x; subst x) | lift_lets
    | with_reducible (first | apply keep_refill | apply keep_ite | apply And.intro | apply keep_regs | apply keep_sram)
    | with_reducible (first | apply keep_store | apply keep_buf | apply keep_nil) | simp only [↓canonical_mk] | split

theorem keep_sealBatch {s : State} {trigger : Nat} (hs : s.Canonical) :
    State.Canonical (State.sealBatch s trigger) := by
  unfold State.sealBatch
  repeat' first
    | with_reducible assumption | (intro x; refine keep_cut x (fun hx => ?_) ?_; clear_value x; rotate_left; subst x; rotate_left)
    | (intro x; subst x) | lift_lets | with_reducible (first | apply keep_ownEvent | apply keep_ite) | split

theorem keep_loseEvent {s : State} {code : Nat} (hs : s.Canonical) :
    State.Canonical (State.loseEvent s code) := by
  unfold State.loseEvent
  repeat' first
    | with_reducible assumption | (intro x; subst x) | lift_lets
    | with_reducible (first | apply keep_refill | apply keep_raiseBit | apply And.intro | apply keep_regs | apply keep_sram)
    | with_reducible (first | apply keep_store | apply keep_buf) | simp only [↓canonical_mk]

theorem keep_sealAfter {s : State} {e : Event} (hs : s.Canonical) :
    State.Canonical (State.sealAfter s e) := by
  unfold State.sealAfter
  repeat' first
    | with_reducible assumption | (intro x; subst x) | lift_lets | with_reducible (first | apply keep_sealBatch | apply keep_ite)

theorem keep_takeEvent {s : State} {e : Event} (hs : s.Canonical) :
    State.Canonical (State.takeEvent s e) := by
  unfold State.takeEvent
  repeat' with_reducible first | assumption | apply keep_pushFifo | apply keep_sealAfter | apply keep_loseEvent | apply keep_ite

theorem keep_recorderProgram {s : State} {page off : Nat} {bs : List Byte} (hs : s.Canonical) :
    State.Canonical (State.recorderProgram s page off bs) := by
  unfold State.recorderProgram
  repeat' first
    | with_reducible assumption | (intro x; refine keep_cut x (fun hx => ?_) ?_; clear_value x; rotate_left; subst x; rotate_left)
    | (intro x; subst x) | intro _ | lift_lets | with_reducible (first | apply keep_setBank | apply keep_ite) | split

theorem keep_startDriftErase {s : State} {m : Nat} {retry : Bool} (hs : s.Canonical) :
    State.Canonical (State.startDriftErase s m retry) := by
  unfold State.startDriftErase
  repeat' first
    | with_reducible assumption | (intro x; refine keep_cut x (fun hx => ?_) ?_; clear_value x; rotate_left; subst x; rotate_left)
    | (intro x; subst x) | lift_lets
    | with_reducible (first | apply keep_startErase | apply keep_ite | apply And.intro | apply keep_regs | apply keep_sram)
    | with_reducible (first | apply keep_store | apply keep_buf | apply keep_nil) | simp only [↓canonical_mk] | split

theorem keep_eraseKick {s : State} (hs : s.Canonical) :
    State.Canonical (State.eraseKick s) := by
  unfold State.eraseKick
  repeat' first
    | with_reducible assumption | (intro x; refine keep_cut x (fun hx => ?_) ?_; clear_value x; rotate_left; subst x; rotate_left)
    | (intro x; subst x) | lift_lets
    | with_reducible (first | apply keep_startDriftErase | apply keep_ite | apply And.intro | apply keep_regs | apply keep_sram)
    | with_reducible (first | apply keep_store | apply keep_buf | apply keep_nil) | simp only [↓canonical_mk] | split

theorem keep_wantErase {s : State} {m : Nat} {retry : Bool} (hs : s.Canonical) :
    State.Canonical (State.wantErase s m retry) := by
  unfold State.wantErase
  repeat' first
    | with_reducible assumption | (intro x; refine keep_cut x (fun hx => ?_) ?_; clear_value x; rotate_left; subst x; rotate_left)
    | (intro x; subst x) | lift_lets
    | with_reducible (first | apply keep_eraseKick | apply keep_ite | apply And.intro | apply keep_regs | apply keep_sram)
    | with_reducible (first | apply keep_store | apply keep_buf | apply keep_nil) | simp only [↓canonical_mk] | split

theorem keep_eraseAhead {s : State} (hs : s.Canonical) :
    State.Canonical (State.eraseAhead s) := by
  unfold State.eraseAhead
  repeat' first
    | with_reducible assumption | (intro x; refine keep_cut x (fun hx => ?_) ?_; clear_value x; rotate_left; subst x; rotate_left)
    | (intro x; subst x) | lift_lets | with_reducible (first | apply keep_wantErase | apply keep_getD | apply keep_ite) | split

theorem keep_phase2Kick {s : State} (hs : s.Canonical) :
    State.Canonical (State.phase2Kick s) := by
  unfold State.phase2Kick
  repeat' first
    | with_reducible assumption | (intro x; refine keep_cut x (fun hx => ?_) ?_; clear_value x; rotate_left; subst x; rotate_left)
    | (intro x; subst x) | lift_lets
    | with_reducible (first | apply keep_recorderProgram | apply keep_getD | apply keep_ite | apply And.intro | apply keep_regs)
    | with_reducible (first | apply keep_sram | apply keep_store | apply keep_buf | apply keep_nil) | simp only [↓canonical_mk] | split

theorem keep_morKick {s : State} (hs : s.Canonical) :
    State.Canonical (State.morKick s) := by
  unfold State.morKick
  repeat' first
    | with_reducible assumption | (intro x; refine keep_cut x (fun hx => ?_) ?_; clear_value x; rotate_left; subst x; rotate_left)
    | (intro x; subst x) | lift_lets | with_reducible (first | apply keep_phase2Kick | apply keep_eraseKick | apply keep_ite) | split

theorem keep_rdoneCheck {s : State} (hs : s.Canonical) :
    State.Canonical (State.rdoneCheck s) := by
  unfold State.rdoneCheck
  repeat' first
    | with_reducible assumption | (intro x; refine keep_cut x (fun hx => ?_) ?_; clear_value x; rotate_left; subst x; rotate_left)
    | (intro x; subst x) | lift_lets | with_reducible (first | apply keep_raiseBit | apply keep_ite) | split

end Sys2Proof.Machine
end

