-- ==== Sys2Proof/Laws/Keep/StoOps.lean ====
section
/-! SUPPORT. That the definitions of Machine/StoOps.lean keep the canonical form (see Laws/Keep.lean). -/

namespace Sys2Proof.Machine

open Sys2Proof

set_option linter.unusedSimpArgs false

theorem keep_setSeq {s : State} {b : Nat} {r : Req} {q : SeqState} (hs : s.Canonical) :
    State.Canonical (State.setSeq s b r q) := by
  unfold State.setSeq
  repeat' first
    | with_reducible assumption | (intro x; subst x) | lift_lets | simp only [↓canonical_mk]
    | with_reducible (first | apply And.intro | apply keep_regs | apply keep_sram | apply keep_store | apply keep_buf)

theorem keep_stoCapture {s : State} {cause : Nat} {r : Req} {a : Nat} (hs : s.Canonical) :
    State.Canonical (State.stoCapture s cause r a) := by
  unfold State.stoCapture
  repeat' first
    | with_reducible assumption | (intro x; refine keep_cut x (fun hx => ?_) ?_; clear_value x; rotate_left; subst x; rotate_left)
    | lift_lets | with_reducible (first | apply keep_put | apply keep_raiseBit)

theorem keep_layCells {s : State} {l : List Host.Cell} (hs : s.Canonical) :
    State.Canonical (State.layCells s l) := by
  unfold State.layCells
  repeat' first | with_reducible assumption | intro _ | lift_lets | with_reducible (first | apply keep_each | apply keep_stoWrite)

theorem keep_tellChannel {s : State} {r : Req} {cause : Nat} (hs : s.Canonical) :
    State.Canonical (State.tellChannel s r cause) := by
  unfold State.tellChannel
  repeat' first
    | with_reducible assumption | (intro x; subst x) | lift_lets | simp only [↓canonical_mk]
    | with_reducible (first | apply And.intro | apply keep_regs | apply keep_sram | apply keep_store | apply keep_buf) | split

theorem keep_seqError {s : State} {r : Req} {a : Nat} (hs : s.Canonical) :
    State.Canonical (State.seqError s r a) := by
  unfold State.seqError
  repeat' first
    | with_reducible assumption | (intro x; refine keep_cut x (fun hx => ?_) ?_; clear_value x; rotate_left; subst x; rotate_left)
    | (intro x; subst x) | lift_lets
    | with_reducible (first | apply keep_setSeq | apply keep_setBank | apply keep_inc | apply keep_stoCapture)

theorem keep_stoRefuse {s : State} {cause : Nat} {r : Req} {a kind : Nat} (hs : s.Canonical) :
    State.Canonical (State.stoRefuse s cause r a kind) := by
  unfold State.stoRefuse
  repeat' first
    | with_reducible assumption | (intro x; refine keep_cut x (fun hx => ?_) ?_; clear_value x; rotate_left; subst x; rotate_left)
    | (intro x; subst x) | lift_lets
    | with_reducible (first | apply keep_setBank | apply keep_inc | apply keep_stoCapture | apply keep_tellChannel)
    | with_reducible (first | apply keep_raiseBit | apply keep_ownEvent | apply keep_ite)

theorem keep_startProgram {s : State} {p : ProgOp} (hs : s.Canonical) :
    State.Canonical (State.startProgram s p) := by
  unfold State.startProgram
  repeat' first | with_reducible assumption | (intro x; subst x) | lift_lets | with_reducible apply keep_setBank

theorem keep_confirmProgram {s : State} {p : ProgOp} (hs : s.Canonical) :
    State.Canonical (State.confirmProgram s p) := by
  unfold State.confirmProgram
  repeat' first | with_reducible (first | assumption | apply keep_stoRefuse | apply keep_startProgram) | split

theorem keep_confirmErase {s : State} {r : Req} {a : Nat} (hs : s.Canonical) :
    State.Canonical (State.confirmErase s r a) := by
  unfold State.confirmErase
  repeat' first | with_reducible (first | assumption | apply keep_stoRefuse | apply keep_startErase) | split

theorem keep_eraseSuspend {s : State} {r : Req} {a : Nat} (hs : s.Canonical) :
    State.Canonical (State.eraseSuspend s r a) := by
  unfold State.eraseSuspend
  repeat' first
    | with_reducible assumption | (intro x; subst x) | lift_lets
    | with_reducible (first | apply keep_stoRefuse | apply keep_setBank | apply keep_ite) | split

theorem keep_eraseResume {s : State} {r : Req} {a : Nat} (hs : s.Canonical) :
    State.Canonical (State.eraseResume s r a) := by
  unfold State.eraseResume
  repeat' first
    | with_reducible assumption | (intro x; subst x) | lift_lets
    | with_reducible (first | apply keep_stoRefuse | apply keep_setBank | apply keep_ite) | split

theorem keep_setupCycle {s : State} {r : Req} {a v : Nat} (hs : s.Canonical) :
    State.Canonical (State.setupCycle s r a v) := by
  unfold State.setupCycle
  repeat' first
    | with_reducible assumption | (intro x; subst x) | lift_lets
    | with_reducible (first | apply keep_setSeq | apply keep_setBank | apply keep_seqError | apply keep_ite)

theorem keep_confirmData {s : State} {r : Req} {page : Nat} {got : List (Nat × Word)} (hs : s.Canonical) :
    State.Canonical (State.confirmData s r page got) := by
  unfold State.confirmData
  repeat' first
    | with_reducible assumption | (intro x; subst x) | lift_lets | with_reducible (first | apply keep_setSeq | apply keep_confirmProgram)

theorem keep_arrayStore {s : State} {r : Req} {a width v : Nat} (hs : s.Canonical) :
    State.Canonical (State.arrayStore s r a width v) := by
  unfold State.arrayStore
  repeat' first
    | with_reducible assumption | (intro x; refine keep_cut x (fun hx => ?_) ?_; clear_value x; rotate_left; subst x; rotate_left)
    | (intro x; subst x) | lift_lets
    | with_reducible (first | apply keep_wakeBank | apply keep_seqError | apply keep_setSeq | apply keep_eraseSuspend)
    | with_reducible (first | apply keep_eraseResume | apply keep_setupCycle | apply keep_confirmData | apply keep_confirmErase)
    | with_reducible apply keep_ite | split

theorem keep_completePage {s : State} {p : ProgOp} (hs : s.Canonical) :
    State.Canonical (State.completePage s p) := by
  unfold State.completePage
  repeat' first
    | with_reducible assumption | (intro x; refine keep_cut x (fun hx => ?_) ?_; clear_value x; rotate_left; subst x; rotate_left)
    | (intro x; subst x) | lift_lets
    | with_reducible (first | apply keep_setBank | apply keep_stoRefuse | apply keep_startProgram | apply keep_ite | apply And.intro)
    | with_reducible (first | apply keep_regs | apply keep_sram | apply keep_store | apply keep_buf | apply keep_nil)
    | simp only [↓canonical_mk] | split

theorem keep_setPage {s : State} {r : Req} {p : Option PartPage} (hs : s.Canonical) :
    State.Canonical (State.setPage s r p) := by
  unfold State.setPage
  repeat' first
    | with_reducible assumption | (intro x; subst x) | lift_lets | simp only [↓canonical_mk]
    | with_reducible (first | apply And.intro | apply keep_regs | apply keep_sram | apply keep_store | apply keep_buf)

theorem keep_breakPage {s : State} {r : Req} {a v : Nat} (hs : s.Canonical) :
    State.Canonical (State.breakPage s r a v) := by
  unfold State.breakPage
  repeat' first
    | with_reducible assumption | (intro x; refine keep_cut x (fun hx => ?_) ?_; clear_value x; rotate_left; subst x; rotate_left)
    | lift_lets | with_reducible (first | apply keep_setPage | apply keep_stoCapture | apply keep_tellChannel | apply keep_ite)

theorem keep_windowStore {s : State} {r : Req} {a width v : Nat} (hs : s.Canonical) :
    State.Canonical (State.windowStore s r a width v) := by
  unfold State.windowStore
  repeat' first
    | with_reducible assumption | (intro x; refine keep_cut x (fun hx => ?_) ?_; clear_value x; rotate_left; subst x; rotate_left)
    | (intro x; subst x) | lift_lets
    | with_reducible (first | apply keep_wakeBank | apply keep_breakPage | apply keep_setPage | apply keep_completePage)
    | with_reducible apply keep_ite | split

theorem keep_arrayRead {s : State} {r : Req} {a width : Nat} {cells : List Nat} (hs : s.Canonical) :
    State.Canonical (State.arrayRead s r a width cells).2 := by
  unfold State.arrayRead
  repeat' first
    | with_reducible assumption | (intro x; refine keep_cut x (fun hx => ?_) ?_; clear_value x; rotate_left; subst x; rotate_left)
    | (intro x; subst x) | lift_lets
    | with_reducible (first | apply keep_wakeBank | apply keep_setSeq | apply keep_ite | apply And.intro | apply keep_regs)
    | with_reducible (first | apply keep_sram | apply keep_store | apply keep_buf | apply keep_nil) | simp only [↓canonical_mk] | split

theorem keep_stoRetreat {s : State} (hs : s.Canonical) :
    State.Canonical (State.stoRetreat s) := by
  unfold State.stoRetreat
  repeat' first
    | with_reducible assumption | (intro x; subst x) | intro _ | lift_lets
    | with_reducible (first | apply keep_each | apply keep_setBank | apply keep_ite) | split

theorem keep_stoEndSequences {s : State} (hs : s.Canonical) :
    State.Canonical (State.stoEndSequences s) := by
  unfold State.stoEndSequences
  repeat' first
    | with_reducible assumption | (intro x; subst x) | lift_lets | simp only [↓canonical_mk]
    | with_reducible (first | apply And.intro | apply keep_regs | apply keep_sram | apply keep_store | apply keep_buf)

theorem keep_layFree {s : State} {a n : Nat} (hs : s.Canonical) :
    State.Canonical (State.layFree s a n) := by
  unfold State.layFree
  repeat' first
    | with_reducible assumption | (intro x; refine keep_cut x (fun hx => ?_) ?_; clear_value x; rotate_left; subst x; rotate_left)
    | (intro x; subst x) | lift_lets | with_reducible (first | apply keep_drawBytes | apply keep_stoWrite | apply keep_ite)
    | dsimp -zeta only [State.draw] | split

theorem keep_cutProgram {s : State} {b : Nat} (hs : s.Canonical) :
    State.Canonical (State.cutProgram s b) := by
  unfold State.cutProgram
  repeat' first
    | with_reducible assumption | (intro x; refine keep_cut x (fun hx => ?_) ?_; clear_value x; rotate_left; subst x; rotate_left)
    | (intro x; subst x) | intro _ | lift_lets
    | with_reducible (first | apply keep_drawBytes | apply keep_stoProgram | apply keep_getD | apply keep_ite)
    | dsimp -zeta only [State.draw] | split

theorem keep_cutErase {s : State} {b : Nat} (hs : s.Canonical) :
    State.Canonical (State.cutErase s b) := by
  unfold State.cutErase
  repeat' first
    | with_reducible assumption | (intro x; refine keep_cut x (fun hx => ?_) ?_; clear_value x; rotate_left; subst x; rotate_left)
    | (intro x; subst x) | lift_lets | apply keep_ite
    | with_reducible (first | apply keep_draw | apply keep_inc | apply keep_infoWrite | apply keep_setBank | apply keep_ite)
    | with_reducible (first | apply And.intro | apply keep_regs | apply keep_sram | apply keep_store | apply keep_buf)
    | with_reducible (first | apply keep_nil) | simp only [↓canonical_mk] | dsimp -zeta only [State.draw] | split

theorem keep_spoilErased {s : State} {b : Nat} (hs : s.Canonical) :
    State.Canonical (State.spoilErased s b) := by
  unfold State.spoilErased
  repeat' first
    | with_reducible assumption | (intro x; refine keep_cut x (fun hx => ?_) ?_; clear_value x; rotate_left; subst x; rotate_left)
    | (intro x; subst x) | lift_lets | with_reducible (first | apply keep_layFree | apply keep_ite) | split

theorem keep_stoDieReset {s : State} (hs : s.Canonical) :
    State.Canonical (State.stoDieReset s) := by
  unfold State.stoDieReset
  repeat' first
    | with_reducible assumption | (intro x; refine keep_cut x (fun hx => ?_) ?_; clear_value x; rotate_left; subst x; rotate_left)
    | (intro x; subst x) | intro _ | lift_lets
    | with_reducible (first | apply keep_each | apply keep_cutProgram | apply keep_cutErase | apply keep_spoilErased | apply keep_setBank)
    | with_reducible (first | apply keep_stoEndSequences | apply keep_clr | apply keep_ite | apply And.intro | apply keep_regs)
    | with_reducible (first | apply keep_sram | apply keep_store | apply keep_buf | apply keep_nil) | simp only [↓canonical_mk] | split

theorem keep_interrupted {s : State} {b kind sector : Nat} (hs : s.Canonical) :
    State.Canonical (State.interrupted s b kind sector) := by
  unfold State.interrupted
  repeat' first | with_reducible assumption | (intro x; subst x) | lift_lets | with_reducible apply keep_event

theorem keep_interruptedRecords {s : State} (hs : s.Canonical) :
    State.Canonical (State.interruptedRecords s) := by
  unfold State.interruptedRecords
  repeat' first
    | with_reducible assumption | (intro x; subst x) | intro _ | lift_lets
    | with_reducible (first | apply keep_each | apply keep_interrupted | apply keep_ite) | split

theorem keep_afterProgram {s : State} {b : Nat} (hs : s.Canonical) :
    State.Canonical (State.afterProgram s b) := by
  unfold State.afterProgram
  repeat' first
    | with_reducible assumption | (intro x; refine keep_cut x (fun hx => ?_) ?_; clear_value x; rotate_left; subst x; rotate_left)
    | (intro x; subst x) | intro _ | lift_lets
    | with_reducible (first | apply keep_each | apply keep_completePage | apply keep_setBank | apply keep_ite | apply And.intro)
    | with_reducible (first | apply keep_regs | apply keep_sram | apply keep_store | apply keep_buf | apply keep_nil)
    | simp only [↓canonical_mk] | split

end Sys2Proof.Machine
end

