-- ==== Sys2Proof/Laws/Keep/DmaOps.lean ====
section
/-! SUPPORT. That the definitions of Machine/DmaOps.lean keep the canonical form (see Laws/Keep.lean). -/

namespace Sys2Proof.Machine

open Sys2Proof

set_option linter.unusedSimpArgs false

theorem keep_setChan {s : State} {c : Nat} {k : Chan} (hs : s.Canonical) :
    State.Canonical (State.setChan s c k) := by
  unfold State.setChan
  repeat' first
    | with_reducible (first | assumption | apply And.intro | apply keep_regs | apply keep_sram | apply keep_store | apply keep_buf)
    | simp only [↓canonical_mk]

theorem keep_onChan {s : State} {c : Nat} {f : Chan → Chan} (hs : s.Canonical) :
    State.Canonical (State.onChan s c f) := by
  unfold State.onChan
  repeat' with_reducible first | assumption | apply keep_setChan

theorem keep_chEnter {s : State} {c st : Nat} (hs : s.Canonical) :
    State.Canonical (State.chEnter s c st) := by
  unfold State.chEnter
  repeat' first
    | with_reducible assumption | (intro x; refine keep_cut x (fun hx => ?_) ?_; clear_value x; rotate_left; subst x; rotate_left)
    | lift_lets | with_reducible (first | apply keep_put | apply keep_setIn | apply keep_clrIn | apply keep_ite)

theorem keep_dmaWrite {s : State} {a : Nat} {bs : List Byte} (hs : s.Canonical) :
    State.Canonical (State.dmaWrite s a bs) := by
  unfold State.dmaWrite
  repeat' first
    | with_reducible assumption | (intro x; refine keep_cut x (fun hx => ?_) ?_; clear_value x; rotate_left; subst x; rotate_left)
    | (intro x; subst x) | lift_lets | with_reducible (first | apply keep_poolWrite | apply keep_bufWrite | apply keep_ite) | split

theorem keep_setSide {s : State} {a : Nat} {e : List Byte} (hs : s.Canonical) :
    State.Canonical (State.setSide s a e) := by
  unfold State.setSide
  repeat' with_reducible first | assumption | apply keep_bufWrite | apply keep_ite

theorem keep_sectorWrite {s : State} {a : Nat} {bs : List Byte} (hs : s.Canonical) :
    State.Canonical (State.sectorWrite s a bs) := by
  unfold State.sectorWrite
  repeat' first
    | with_reducible assumption | (intro x; refine keep_cut x (fun hx => ?_) ?_; clear_value x; rotate_left; subst x; rotate_left)
    | (intro x; subst x) | lift_lets | with_reducible (first | apply keep_bufWrite | apply keep_setSide | apply keep_ite)

theorem keep_rangeWrite {s : State} {a : Nat} {bs : List Byte} (hs : s.Canonical) :
    State.Canonical (State.rangeWrite s a bs) := by
  unfold State.rangeWrite
  repeat' first | with_reducible assumption | intro _ | lift_lets | with_reducible (first | apply keep_each | apply keep_sectorWrite)

theorem keep_ueIf {s : State} {cause : Nat} {ue : Option (BitVec 32)} (hs : s.Canonical) :
    State.Canonical (State.ueIf s cause ue) := by
  unfold State.ueIf
  repeat' first | with_reducible (first | assumption | apply keep_bufferUE) | split

theorem keep_chAdvance {s : State} {c n : Nat} (hs : s.Canonical) :
    State.Canonical (State.chAdvance s c n) := by
  unfold State.chAdvance
  repeat' first
    | with_reducible assumption | (intro x; subst x) | lift_lets
    | with_reducible (first | apply keep_setChan | apply keep_put | apply keep_ite)

theorem keep_writeback {s : State} {c cause detail : Nat} (hs : s.Canonical) :
    State.Canonical (State.writeback s c cause detail) := by
  unfold State.writeback
  repeat' first
    | with_reducible assumption | (intro x; refine keep_cut x (fun hx => ?_) ?_; clear_value x; rotate_left; subst x; rotate_left)
    | (intro x; subst x) | lift_lets | with_reducible (first | apply keep_dmaWrite | apply keep_ite) | split

theorem keep_haltCount {s : State} {cause : Nat} (hs : s.Canonical) :
    State.Canonical (State.haltCount s cause) := by
  unfold State.haltCount
  repeat' with_reducible first | assumption | apply keep_inc | apply keep_ite

theorem keep_chHalt {s : State} {c cause detail : Nat} (hs : s.Canonical) :
    State.Canonical (State.chHalt s c cause detail) := by
  unfold State.chHalt
  repeat' first
    | with_reducible assumption | (intro x; refine keep_cut x (fun hx => ?_) ?_; clear_value x; rotate_left; subst x; rotate_left)
    | (intro x; subst x) | lift_lets
    | with_reducible (first | apply keep_writeback | apply keep_put | apply keep_chEnter | apply keep_haltCount | apply keep_setIn)
    | with_reducible (first | apply keep_onChan | apply keep_ite) | split

theorem keep_sendTlps {s : State} {q : Nat} {l : List HostTlp} (hs : s.Canonical) :
    State.Canonical (State.sendTlps s q l) := by
  unfold State.sendTlps
  repeat' first | with_reducible assumption | intro _ | lift_lets | with_reducible (first | apply keep_each | apply keep_send)

theorem keep_chStopHost {s : State} {c : Nat} (hs : s.Canonical) :
    State.Canonical (State.chStopHost s c) := by
  unfold State.chStopHost
  repeat' first
    | with_reducible assumption | (intro x; subst x) | lift_lets
    | with_reducible (first | apply keep_draw | apply keep_sendTlps | apply keep_chAdvance | apply keep_ite)

theorem keep_dropPages {s : State} {c : Nat} (hs : s.Canonical) :
    State.Canonical (State.dropPages s c) := by
  unfold State.dropPages
  repeat' first
    | with_reducible assumption | (intro x; subst x) | intro _ | lift_lets | with_reducible (first | apply keep_each | apply keep_setBank)

theorem keep_chUnread {s : State} {c cause : Nat} (hs : s.Canonical) :
    State.Canonical (State.chUnread s c cause) := by
  unfold State.chUnread
  repeat' first
    | with_reducible assumption | (intro x; refine keep_cut x (fun hx => ?_) ?_; clear_value x; rotate_left; subst x; rotate_left)
    | (intro x; subst x) | intro _ | lift_lets
    | with_reducible (first | apply keep_onChan | apply keep_put | apply keep_chHalt | apply keep_ite | apply And.intro)
    | with_reducible (first | apply keep_regs | apply keep_sram | apply keep_store | apply keep_buf | apply keep_nil)
    | simp only [↓canonical_mk] | split

theorem keep_chStop {s : State} {c cause : Nat} (hs : s.Canonical) :
    State.Canonical (State.chStop s c cause) := by
  unfold State.chStop
  repeat' first
    | with_reducible assumption | (intro x; refine keep_cut x (fun hx => ?_) ?_; clear_value x; rotate_left; subst x; rotate_left)
    | (intro x; subst x) | lift_lets
    | with_reducible (first | apply keep_chStopHost | apply keep_dropPages | apply keep_chHalt | apply keep_chUnread | apply keep_ite)
    | split

theorem keep_chGo {s : State} {c a : Nat} (hs : s.Canonical) :
    State.Canonical (State.chGo s c a) := by
  unfold State.chGo
  repeat' first
    | with_reducible assumption | (intro x; refine keep_cut x (fun hx => ?_) ?_; clear_value x; rotate_left; subst x; rotate_left)
    | lift_lets | with_reducible (first | apply keep_put | apply keep_chEnter | apply keep_onChan | apply keep_ite)

theorem keep_chStart {s : State} {c a : Nat} (hs : s.Canonical) :
    State.Canonical (State.chStart s c a) := by
  unfold State.chStart
  repeat' first
    | with_reducible assumption | (intro x; refine keep_cut x (fun hx => ?_) ?_; clear_value x; rotate_left; subst x; rotate_left)
    | lift_lets | with_reducible (first | apply keep_put | apply keep_onChan | apply keep_chGo | apply keep_ite)

theorem keep_dmaRelease {s : State} (hs : s.Canonical) :
    State.Canonical (State.dmaRelease s) := by
  unfold State.dmaRelease
  repeat' first
    | with_reducible assumption | intro _ | lift_lets
    | with_reducible (first | apply keep_each | apply keep_chGo | apply keep_clr | apply keep_ite)

theorem keep_chEnd {s : State} {c : Nat} (hs : s.Canonical) :
    State.Canonical (State.chEnd s c) := by
  unfold State.chEnd
  repeat' first
    | with_reducible assumption | (intro x; refine keep_cut x (fun hx => ?_) ?_; clear_value x; rotate_left; subst x; rotate_left)
    | (intro x; subst x) | lift_lets
    | with_reducible (first | apply keep_sendTlps | apply keep_chAdvance | apply keep_onChan | apply keep_put)
    | with_reducible (first | apply keep_writeback | apply keep_setIn | apply keep_chGo | apply keep_chEnter | apply keep_ite)

theorem keep_wholeSectors {s : State} {c a n : Nat} {side : Nat → State → List Byte × State} (hs : s.Canonical) (hside : ∀ x0 u, State.Canonical u → State.Canonical (side x0 u).2) :
    State.Canonical (State.wholeSectors s c a n side) := by
  unfold State.wholeSectors
  repeat' first
    | with_reducible assumption | (intro x; refine keep_cut x (fun hx => ?_) ?_; clear_value x; rotate_left; subst x; rotate_left)
    | (intro x; subst x) | intro _ | lift_lets
    | with_reducible (first | apply hside | apply keep_each | apply keep_setSide | apply keep_onChan | apply keep_ite)

theorem keep_freshSide {a : Nat} {pi : Nat → List Byte} {o : Nat} {s : State} (hs : s.Canonical) :
    State.Canonical (freshSide a pi o s).2 := by
  unfold freshSide
  repeat' with_reducible first | assumption

theorem keep_copySide {src : Nat} {o : Nat} {s : State} (hs : s.Canonical) :
    State.Canonical (copySide src o s).2 := by
  unfold copySide
  repeat' first
    | with_reducible assumption | (intro x; refine keep_cut x (fun hx => ?_) ?_; clear_value x; rotate_left; subst x; rotate_left)
    | (intro x; subst x) | lift_lets | with_reducible (first | apply keep_drawBytes | apply keep_ite) | dsimp -zeta only [State.draw]
    | split

theorem keep_moveInside {s : State} {c : Nat} {ue : Option (BitVec 32)} (hs : s.Canonical) :
    State.Canonical (State.moveInside s c ue) := by
  unfold State.moveInside
  repeat' first
    | with_reducible assumption | (intro x; refine keep_cut x (fun hx => ?_) ?_; clear_value x; rotate_left; subst x; rotate_left)
    | (intro x; subst x) | intro _ | lift_lets
    | with_reducible (first | apply keep_copySide | apply keep_rangeWrite | apply keep_wholeSectors | apply keep_freshSide)
    | with_reducible (first | apply keep_chAdvance | apply keep_ueIf | apply keep_chHalt | apply keep_foldl) | split

theorem keep_moveFromStore {s : State} {c : Nat} (hs : s.Canonical) :
    State.Canonical (State.moveFromStore s c) := by
  unfold State.moveFromStore
  repeat' first
    | with_reducible assumption | (intro x; refine keep_cut x (fun hx => ?_) ?_; clear_value x; rotate_left; subst x; rotate_left)
    | (intro x; subst x) | intro _ | lift_lets
    | with_reducible (first | apply keep_each | apply keep_wakeBank | apply keep_rangeWrite | apply keep_wholeSectors)
    | with_reducible (first | apply keep_freshSide | apply keep_chAdvance | apply keep_stoCapture | apply keep_chHalt)
    | with_reducible apply keep_ite | split

theorem keep_storeStop {s : State} {c : Nat} (hs : s.Canonical) :
    State.Canonical (State.storeStop s c) := by
  unfold State.storeStop
  repeat' first
    | with_reducible assumption | (intro x; subst x) | lift_lets | with_reducible (first | apply keep_chHalt | apply keep_ite) | split

theorem keep_dmaPageDone {s : State} {c page : Nat} (hs : s.Canonical) :
    State.Canonical (State.dmaPageDone s c page) := by
  unfold State.dmaPageDone
  repeat' first
    | with_reducible assumption | (intro x; refine keep_cut x (fun hx => ?_) ?_; clear_value x; rotate_left; subst x; rotate_left)
    | (intro x; subst x) | lift_lets
    | with_reducible (first | apply keep_setChan | apply keep_chAdvance | apply keep_storeStop | apply keep_ite)

theorem keep_dmaStoreFault {s : State} {c cause : Nat} (hs : s.Canonical) :
    State.Canonical (State.dmaStoreFault s c cause) := by
  unfold State.dmaStoreFault
  repeat' first
    | with_reducible assumption | (intro x; subst x) | lift_lets
    | with_reducible (first | apply keep_dropPages | apply keep_chHalt | apply keep_ite)

theorem keep_storeFaults {s : State} (hs : s.Canonical) :
    State.Canonical (storeFaults s) := by
  unfold storeFaults
  repeat' first
    | with_reducible assumption | (intro x; subst x) | intro _ | lift_lets
    | with_reducible (first | apply keep_each | apply keep_dmaStoreFault | apply And.intro | apply keep_regs | apply keep_sram)
    | with_reducible (first | apply keep_store | apply keep_buf) | simp only [↓canonical_mk]

theorem keep_moveToStore {s : State} {c : Nat} {ue : Option (BitVec 32)} (hs : s.Canonical) :
    State.Canonical (State.moveToStore s c ue) := by
  unfold State.moveToStore
  repeat' first
    | with_reducible assumption | (intro x; refine keep_cut x (fun hx => ?_) ?_; clear_value x; rotate_left; subst x; rotate_left)
    | (intro x; subst x) | intro _ | lift_lets
    | with_reducible (first | apply keep_onChan | apply keep_each | apply keep_wakeBank | apply keep_completePage)
    | with_reducible (first | apply keep_storeFaults | apply keep_ueIf | apply keep_chHalt | apply keep_ite) | split

theorem keep_resector {s : State} {c i : Nat} {bs : List Byte} (hs : s.Canonical) :
    State.Canonical (State.resector s c i bs) := by
  unfold State.resector
  repeat' first
    | with_reducible assumption | (intro x; refine keep_cut x (fun hx => ?_) ?_; clear_value x; rotate_left; subst x; rotate_left)
    | (intro x; subst x) | intro _ | lift_lets
    | with_reducible (first | apply keep_each | apply keep_setBank | apply keep_ite | apply And.intro | apply keep_regs)
    | with_reducible (first | apply keep_sram | apply keep_store | apply keep_buf | apply keep_nil) | simp only [↓canonical_mk] | split

theorem keep_keyless {s : State} {c i : Nat} (hs : s.Canonical) :
    State.Canonical (State.keyless s c i) := by
  unfold State.keyless
  repeat' first
    | with_reducible assumption | (intro x; refine keep_cut x (fun hx => ?_) ?_; clear_value x; rotate_left; subst x; rotate_left)
    | (intro x; subst x) | intro _ | lift_lets
    | with_reducible (first | apply keep_each | apply keep_setBank | apply keep_onChan | apply keep_storeStop | apply keep_ite)
    | with_reducible (first | apply And.intro | apply keep_regs | apply keep_sram | apply keep_store | apply keep_buf)
    | with_reducible (first | apply keep_nil) | simp only [↓canonical_mk] | split

theorem keep_rekeyOne {p : Nat} {old new : List Byte} {ready : Bool} {c : Nat} {s : State} (hs : s.Canonical) :
    State.Canonical (State.rekeyOne p old new ready c s) := by
  unfold State.rekeyOne
  repeat' first
    | with_reducible assumption | (intro x; refine keep_cut x (fun hx => ?_) ?_; clear_value x; rotate_left; subst x; rotate_left)
    | (intro x; subst x) | intro _ | lift_lets
    | with_reducible (first | apply keep_each | apply keep_draw | apply keep_keyless | apply keep_resector | apply keep_ite)
    | with_reducible (first | apply And.intro | apply keep_regs | apply keep_sram | apply keep_store | apply keep_buf)
    | with_reducible (first | apply keep_nil) | simp only [↓canonical_mk] | dsimp -zeta only [State.draw] | split

theorem keep_setKey {s : State} {p : Nat} {k : List Byte} (hs : s.Canonical) :
    State.Canonical (State.setKey s p k) := by
  unfold State.setKey
  repeat' first
    | with_reducible assumption | (intro x; subst x) | lift_lets | simp only [↓canonical_mk]
    | with_reducible (first | apply And.intro | apply keep_regs | apply keep_sram | apply keep_store | apply keep_buf)

theorem keep_newKey {s : State} {p : Nat} {k : List Byte} {ready : Bool} (hs : s.Canonical) :
    State.Canonical (State.newKey s p k ready) := by
  unfold State.newKey
  repeat' first
    | with_reducible assumption | (intro x; refine keep_cut x (fun hx => ?_) ?_; clear_value x; rotate_left; subst x; rotate_left)
    | (intro x; subst x) | intro _ | lift_lets
    | with_reducible (first | apply keep_each | apply keep_setKey | apply keep_rekeyOne | apply keep_raiseBit | apply keep_incWrap)
    | with_reducible (first | apply keep_clr | apply keep_ite) | split

theorem keep_hostHalt {c : Nat} {s : State} (hs : s.Canonical) :
    State.Canonical (State.hostHalt c s) := by
  unfold State.hostHalt
  repeat' first
    | with_reducible assumption | (intro x; refine keep_cut x (fun hx => ?_) ?_; clear_value x; rotate_left; subst x; rotate_left)
    | (intro x; subst x) | lift_lets
    | with_reducible (first | apply keep_sendTlps | apply keep_chAdvance | apply keep_hostRefused | apply keep_chHalt | apply keep_ite)
    | split

theorem keep_moveToHost {s : State} {c : Nat} {ue : Option (BitVec 32)} (hs : s.Canonical) :
    State.Canonical (State.moveToHost s c ue) := by
  unfold State.moveToHost
  repeat' first
    | with_reducible assumption | (intro x; refine keep_cut x (fun hx => ?_) ?_; clear_value x; rotate_left; subst x; rotate_left)
    | (intro x; subst x) | intro _ | lift_lets
    | with_reducible (first | apply keep_onChan | apply keep_ueIf | apply keep_hostHalt | apply keep_getD | apply keep_ite)
    | with_reducible (first | apply And.intro | apply keep_regs | apply keep_sram | apply keep_store | apply keep_buf)
    | with_reducible (first | apply keep_nil) | simp only [↓canonical_mk] | split

theorem keep_hostPump {a0 : Nat} {a1 : Nat} {a2 : State} (h : a2.Canonical) :
    State.Canonical (State.hostPump a0 a1 a2) := by
  induction a0 generalizing a1 a2 with
  | zero =>
    unfold State.hostPump
    repeat' with_reducible first | assumption
  | succ n ih =>
    unfold State.hostPump
    repeat' first
      | with_reducible assumption | (intro x; subst x) | lift_lets
      | with_reducible (first | apply ih | apply keep_hostRefused | apply keep_setChan | apply keep_send | apply keep_ite)
      | (rcases nextReq a2 a1 with _ | ⟨r, a⟩ <;> dsimp -zeta only) | split

theorem keep_hostStop {s : State} {c : Nat} (hs : s.Canonical) :
    State.Canonical (State.hostStop s c) := by
  unfold State.hostStop
  repeat' first
    | with_reducible assumption | (intro x; refine keep_cut x (fun hx => ?_) ?_; clear_value x; rotate_left; subst x; rotate_left)
    | (intro x; subst x) | lift_lets | with_reducible (first | apply keep_chHalt | apply keep_ite) | split

theorem keep_hostResume {c : Nat} {s : State} (hs : s.Canonical) :
    State.Canonical (State.hostResume c s) := by
  unfold State.hostResume
  repeat' first
    | with_reducible assumption | (intro x; refine keep_cut x (fun hx => ?_) ?_; clear_value x; rotate_left; subst x; rotate_left)
    | (intro x; subst x) | lift_lets
    | with_reducible (first | apply keep_hostPump | apply keep_hostStop | apply keep_hostHalt | apply keep_ite) | split

theorem keep_hostSides {s : State} {c : Nat} (hs : s.Canonical) :
    State.Canonical (State.hostSides s c) := by
  unfold State.hostSides
  repeat' first
    | with_reducible assumption | (intro x; subst x) | intro _ | lift_lets
    | with_reducible (first | apply keep_each | apply keep_setSide | apply keep_setChan | apply keep_ite)

theorem keep_hostArrive {s : State} {c n : Nat} {bs : List Byte} (hs : s.Canonical) :
    State.Canonical (State.hostArrive s c n bs) := by
  unfold State.hostArrive
  repeat' first
    | with_reducible assumption | (intro x; subst x) | lift_lets
    | with_reducible (first | apply keep_setChan | apply keep_rangeWrite | apply keep_hostSides | apply keep_chAdvance)
    | with_reducible (first | apply keep_hostPump | apply keep_hostStop | apply keep_ite) | simp only [↓canonical_mk] | split

theorem keep_setPassed {s : State} {t n : Nat} (hs : s.Canonical) :
    State.Canonical (State.setPassed s t n) := by
  unfold State.setPassed
  repeat' first
    | with_reducible assumption | (intro x; subst x) | lift_lets | simp only [↓canonical_mk]
    | with_reducible (first | apply And.intro | apply keep_regs | apply keep_sram | apply keep_store | apply keep_buf)

theorem keep_setFifo {s : State} {c : Nat} {l : List WSec} (hs : s.Canonical) :
    State.Canonical (State.setFifo s c l) := by
  unfold State.setFifo
  repeat' first
    | with_reducible assumption | (intro x; subst x) | lift_lets | simp only [↓canonical_mk]
    | with_reducible (first | apply And.intro | apply keep_regs | apply keep_sram | apply keep_store | apply keep_buf)

theorem keep_chFill {ue : Option (BitVec 32)} {a0 : Nat} {a1 : Nat} {a2 : State} (h : a2.Canonical) :
    State.Canonical (State.chFill ue a0 a1 a2) := by
  induction a0 generalizing a1 a2 with
  | zero =>
    unfold State.chFill
    repeat' with_reducible first | assumption
  | succ n ih =>
    unfold State.chFill
    repeat' first
      | with_reducible assumption | (intro x; refine keep_cut x (fun hx => ?_) ?_; clear_value x; rotate_left; subst x; rotate_left)
      | (intro x; subst x) | lift_lets
      | with_reducible (first | apply ih | apply keep_ueIf | apply keep_chHalt | apply keep_setFifo | apply keep_setPassed)
      | with_reducible (first | apply keep_chAdvance | apply keep_ite) | split

theorem keep_chPlace {s : State} {c j : Nat} {user md : List Byte} (hs : s.Canonical) :
    State.Canonical (State.chPlace s c j user md) := by
  unfold State.chPlace
  repeat' first
    | with_reducible assumption | (intro x; refine keep_cut x (fun hx => ?_) ?_; clear_value x; rotate_left; subst x; rotate_left)
    | (intro x; subst x) | lift_lets
    | with_reducible (first | apply keep_chHalt | apply keep_bufWrite | apply keep_setSide | apply keep_onChan)
    | with_reducible (first | apply keep_chAdvance | apply keep_ite) | split

theorem keep_chPass {s : State} {c t j : Nat} {data : Option (List Byte × List Byte)} (hs : s.Canonical) :
    State.Canonical (State.chPass s c t j data) := by
  unfold State.chPass
  repeat' first
    | with_reducible assumption | (intro x; refine keep_cut x (fun hx => ?_) ?_; clear_value x; rotate_left; subst x; rotate_left)
    | lift_lets | with_reducible (first | apply keep_chPlace | apply keep_setPassed) | split

theorem keep_chOpEnd {s : State} {c t res : Nat} (hs : s.Canonical) :
    State.Canonical (State.chOpEnd s c t res) := by
  unfold State.chOpEnd
  repeat' first | with_reducible assumption | (intro x; subst x) | lift_lets | with_reducible (first | apply keep_chHalt | apply keep_ite)

theorem keep_chMove {s : State} {c : Nat} {ue : Option (BitVec 32)} (hs : s.Canonical) :
    State.Canonical (State.chMove s c ue) := by
  unfold State.chMove
  repeat' first
    | with_reducible assumption | (intro x; subst x) | lift_lets
    | with_reducible (first | apply keep_moveToHost | apply keep_hostPump | apply keep_hostStop | apply keep_chFill)
    | with_reducible (first | apply keep_moveToStore | apply keep_moveFromStore | apply keep_moveInside | apply keep_ite)

theorem keep_chCurrent {s : State} {c : Nat} {bs : List Byte} {ue : Option (BitVec 32)} (hs : s.Canonical) :
    State.Canonical (State.chCurrent s c bs ue) := by
  unfold State.chCurrent
  repeat' first
    | with_reducible assumption | (intro x; refine keep_cut x (fun hx => ?_) ?_; clear_value x; rotate_left; subst x; rotate_left)
    | (intro x; subst x) | lift_lets
    | with_reducible (first | apply keep_setChan | apply keep_put | apply keep_chHalt | apply keep_onChan | apply keep_chMove) | split

end Sys2Proof.Machine
end

