-- ==== Sys2Proof/Laws/Keep/ChnOps.lean ====
section
/-! SUPPORT. That the definitions of Machine/ChnOps.lean keep the canonical form (see Laws/Keep.lean). -/

namespace Sys2Proof.Machine

open Sys2Proof

set_option linter.unusedSimpArgs false

theorem keep_onChn {s : State} {f : ChnState → ChnState} (hs : s.Canonical) :
    State.Canonical (State.onChn s f) := by
  unfold State.onChn
  repeat' first
    | with_reducible (first | assumption | apply And.intro | apply keep_regs | apply keep_sram | apply keep_store | apply keep_buf)
    | simp only [↓canonical_mk]

theorem keep_setOp {s : State} {o : MOp} (hs : s.Canonical) :
    State.Canonical (State.setOp s o) := by
  unfold State.setOp
  repeat' with_reducible first | assumption | apply keep_onChn

theorem keep_chnStat {s : State} (hs : s.Canonical) :
    State.Canonical (State.chnStat s) := by
  unfold State.chnStat
  repeat' first
    | with_reducible assumption | (intro x; refine keep_cut x (fun hx => ?_) ?_; clear_value x; rotate_left; subst x; rotate_left)
    | lift_lets | with_reducible (first | apply keep_put | apply keep_putB) | split

theorem keep_slewTo {s : State} {k : Nat} (hs : s.Canonical) :
    State.Canonical (State.slewTo s k) := by
  unfold State.slewTo
  repeat' with_reducible first | assumption | apply keep_onChn | apply keep_ite

theorem keep_loopFree {ws : List Word × State} {i : Nat} (hws : ws.2.Canonical) :
    State.Canonical (loopFree ws i).2 := by
  unfold loopFree
  repeat' first
    | with_reducible assumption | (intro x; refine keep_cut x (fun hx => ?_) ?_; clear_value x; rotate_left; subst x; rotate_left)
    | (intro x; subst x) | intro _ | lift_lets
    | with_reducible (first | apply keep_draw | apply keep_foldl | apply keep_ite | apply And.intro | apply keep_regs)
    | with_reducible (first | apply keep_sram | apply keep_store | apply keep_buf | apply keep_nil) | simp only [↓canonical_mk]
    | dsimp -zeta only [State.draw] | split

theorem keep_adapt {s : State} {t : Nat} {m : Samples} (hs : s.Canonical) :
    State.Canonical (State.adapt s t m) := by
  unfold State.adapt
  repeat' first
    | with_reducible assumption | (intro x; refine keep_cut x (fun hx => ?_) ?_; clear_value x; rotate_left; subst x; rotate_left)
    | (intro x; subst x) | intro _ | lift_lets
    | with_reducible (first | apply keep_reset | apply keep_loopFree | apply keep_setOp | apply keep_foldl | apply keep_ite)
    | with_reducible (first | apply And.intro | apply keep_regs | apply keep_sram | apply keep_store | apply keep_buf)
    | with_reducible (first | apply keep_nil) | simp only [↓canonical_mk] | split

theorem keep_adaptSave {s : State} {t : Nat} (hs : s.Canonical) :
    State.Canonical (State.adaptSave s t) := by
  unfold State.adaptSave
  repeat' first
    | with_reducible assumption | (intro x; refine keep_cut x (fun hx => ?_) ?_; clear_value x; rotate_left; subst x; rotate_left)
    | (intro x; subst x) | intro _ | lift_lets
    | with_reducible (first | apply keep_each | apply keep_adapt | apply keep_wr | apply keep_ite) | split

theorem keep_sresCount {s : State} {res : Nat} (hs : s.Canonical) :
    State.Canonical (State.sresCount s res) := by
  unfold State.sresCount
  repeat' with_reducible first | assumption | apply keep_inc | apply keep_ite

theorem keep_mopDone {s : State} {t res ndone nfail iter : Nat} (hs : s.Canonical) :
    State.Canonical (State.mopDone s t res ndone nfail iter) := by
  unfold State.mopDone
  repeat' first
    | with_reducible assumption | (intro x; refine keep_cut x (fun hx => ?_) ?_; clear_value x; rotate_left; subst x; rotate_left)
    | lift_lets | with_reducible (first | apply keep_put | apply keep_onChn | apply keep_raiseBit | apply keep_chOpEnd | apply keep_ite)

theorem keep_opEnd {s : State} {t res : Nat} (hs : s.Canonical) :
    State.Canonical (State.opEnd s t res) := by
  unfold State.opEnd
  repeat' first
    | with_reducible assumption | (intro x; refine keep_cut x (fun hx => ?_) ?_; clear_value x; rotate_left; subst x; rotate_left)
    | (intro x; subst x) | lift_lets
    | with_reducible (first | apply keep_mopDone | apply keep_adaptSave | apply keep_setFifo | apply keep_onChn)
    | with_reducible (first | apply keep_slewTo | apply keep_chnStat | apply keep_ite) | split

theorem keep_opFail {s : State} {t res : Nat} (hs : s.Canonical) :
    State.Canonical (State.opFail s t res) := by
  unfold State.opFail
  repeat' with_reducible first | assumption | apply keep_sresCount | apply keep_opEnd

theorem keep_chnEvent {s : State} {write : Bool} {arg due : Nat} {skew : Int} (hs : s.Canonical) :
    State.Canonical (State.chnEvent s write arg due skew) := by
  unfold State.chnEvent
  repeat' first
    | with_reducible assumption | (intro x; refine keep_cut x (fun hx => ?_) ?_; clear_value x; rotate_left; subst x; rotate_left)
    | (intro x; subst x) | intro _ | lift_lets
    | with_reducible (first | apply keep_opFail | apply keep_onChn | apply keep_slewTo | apply keep_chnStat | apply keep_put)
    | with_reducible (first | apply keep_ite | apply And.intro | apply keep_regs | apply keep_sram | apply keep_store)
    | with_reducible (first | apply keep_buf | apply keep_nil) | simp only [↓canonical_mk] | split

theorem keep_chnSupp {s : State} {arg : Nat} (hs : s.Canonical) :
    State.Canonical (State.chnSupp s arg) := by
  unfold State.chnSupp
  repeat' first | with_reducible assumption | (intro x; subst x) | lift_lets | with_reducible (first | apply keep_opEnd | apply keep_ite)

theorem keep_giveUp {s : State} {head res iters flags dbit lba party unsat erased : Nat} (hs : s.Canonical) :
    State.Canonical (State.giveUp s head res iters flags dbit lba party unsat erased) := by
  unfold State.giveUp
  repeat' with_reducible first | assumption | apply keep_event

theorem keep_retain {s : State} {t j : Nat} {samp : Samples} (hs : s.Canonical) :
    State.Canonical (State.retain s t j samp).2 := by
  unfold State.retain
  repeat' first
    | with_reducible assumption | (intro x; refine keep_cut x (fun hx => ?_) ?_; clear_value x; rotate_left; subst x; rotate_left)
    | (intro x; subst x) | intro _ | lift_lets
    | with_reducible (first | apply keep_raiseBit | apply keep_onChn | apply keep_setIn | apply keep_ite | apply And.intro)
    | with_reducible (first | apply keep_regs | apply keep_sram | apply keep_store | apply keep_buf | apply keep_nil)
    | simp only [↓canonical_mk] | split

theorem keep_sectorFailed {s : State} {o : MOp} {d : Decoded} {samp : Samples} (hs : s.Canonical) :
    State.Canonical (State.sectorFailed s o d samp) := by
  unfold State.sectorFailed
  repeat' first
    | with_reducible assumption | (intro x; refine keep_cut x (fun hx => ?_) ?_; clear_value x; rotate_left; subst x; rotate_left)
    | (intro x; subst x) | intro _ | lift_lets
    | with_reducible (first | apply keep_sresCount | apply keep_giveUp | apply keep_retain | apply keep_onChn | apply keep_raiseBit)
    | with_reducible (first | apply keep_setOp | apply keep_chPass | apply keep_opEnd | apply keep_ite | apply And.intro)
    | with_reducible (first | apply keep_regs | apply keep_sram | apply keep_store | apply keep_buf | apply keep_nil)
    | simp only [↓canonical_mk] | split

theorem keep_judge {a0 : Nat} {a1 : Nat} {a2 : State} (h : a2.Canonical) :
    State.Canonical (State.judge a0 a1 a2) := by
  induction a0 generalizing a1 a2 with
  | zero =>
    unfold State.judge
    repeat' with_reducible first | assumption
  | succ n ih =>
    unfold State.judge
    repeat' first
      | with_reducible assumption | (intro x; refine keep_cut x (fun hx => ?_) ?_; clear_value x; rotate_left; subst x; rotate_left)
      | (intro x; subst x) | lift_lets
      | with_reducible (first | apply ih | apply keep_onChn | apply keep_sresCount | apply keep_setOp | apply keep_chPass)
      | with_reducible (first | apply keep_opEnd | apply keep_sectorFailed | apply keep_ite) | dsimp -zeta only [State.draw] | split

theorem keep_judgeAll {s : State} (hs : s.Canonical) :
    State.Canonical (State.judgeAll s) := by
  unfold State.judgeAll
  repeat' first
    | with_reducible assumption | (intro x; subst x) | intro _ | lift_lets | with_reducible (first | apply keep_each | apply keep_judge)

theorem keep_decoded {s : State} {t j : Nat} {d : Decoded} (hs : s.Canonical) :
    State.Canonical (State.decoded s t j d) := by
  unfold State.decoded
  repeat' first
    | with_reducible assumption | (intro x; refine keep_cut x (fun hx => ?_) ?_; clear_value x; rotate_left; subst x; rotate_left)
    | lift_lets | with_reducible (first | apply keep_onChn | apply keep_judge | apply keep_ite)

theorem keep_chnAtbLost {s : State} (hs : s.Canonical) :
    State.Canonical (State.chnAtbLost s) := by
  unfold State.chnAtbLost
  repeat' first
    | with_reducible assumption | (intro x; subst x) | intro _ | lift_lets | with_reducible (first | apply keep_each | apply keep_opEnd)

theorem keep_gateAbort {s : State} {o : MOp} {cause : Nat} (hs : s.Canonical) :
    State.Canonical (State.gateAbort s o cause) := by
  unfold State.gateAbort
  repeat' first
    | with_reducible assumption | (intro x; subst x) | lift_lets
    | with_reducible (first | apply keep_draw | apply keep_event | apply keep_raiseBit | apply keep_opFail)

theorem keep_chnCloseGate {s : State} {cause : Nat} (hs : s.Canonical) :
    State.Canonical (State.chnCloseGate s cause) := by
  unfold State.chnCloseGate
  repeat' first | with_reducible (first | assumption | apply keep_gateAbort) | split

theorem keep_chnStop {s : State} (hs : s.Canonical) :
    State.Canonical (State.chnStop s) := by
  unfold State.chnStop
  repeat' first
    | with_reducible assumption | (intro x; refine keep_cut x (fun hx => ?_) ?_; clear_value x; rotate_left; subst x; rotate_left)
    | (intro x; subst x) | intro _ | lift_lets | with_reducible (first | apply keep_chnCloseGate | apply keep_each | apply keep_opEnd)

theorem keep_mopCommit {s : State} {t : Nat} (hs : s.Canonical) :
    State.Canonical (State.mopCommit s t) := by
  unfold State.mopCommit
  repeat' first
    | with_reducible assumption | (intro x; refine keep_cut x (fun hx => ?_) ?_; clear_value x; rotate_left; subst x; rotate_left)
    | intro _ | lift_lets
    | with_reducible (first | apply keep_wr | apply keep_put | apply keep_setPassed | apply keep_each | apply keep_onChan)
    | with_reducible apply keep_ite

end Sys2Proof.Machine
end

