-- ==== Sys2Proof/Laws/Keep/Gate.lean ====
section
/-! SUPPORT. That the definitions of Machine/Gate.lean keep the canonical form (see Laws/Keep.lean). -/

namespace Sys2Proof.Machine

open Sys2Proof

set_option linter.unusedSimpArgs false

theorem keep_stall {s : State} {m : Master} {b : Bool} {w : Nat} (hs : s.Canonical) :
    State.Canonical (State.stall s m b w) := by
  unfold State.stall
  repeat' first
    | with_reducible assumption | (intro x; refine keep_cut x (fun hx => ?_) ?_; clear_value x; rotate_left; subst x; rotate_left)
    | (intro x; subst x) | lift_lets
    | with_reducible (first | apply keep_putB | apply keep_ite | apply And.intro | apply keep_regs | apply keep_sram)
    | with_reducible (first | apply keep_store | apply keep_buf | apply keep_nil) | simp only [↓canonical_mk] | split

theorem keep_setHsq {s : State} {c : Nat} {l : List HeldStore} (hs : s.Canonical) :
    State.Canonical (State.setHsq s c l) := by
  unfold State.setHsq
  repeat' first
    | with_reducible assumption | (intro x; refine keep_cut x (fun hx => ?_) ?_; clear_value x; rotate_left; subst x; rotate_left)
    | (intro x; subst x) | lift_lets
    | with_reducible (first | apply keep_put | apply keep_ite | apply And.intro | apply keep_regs | apply keep_sram)
    | with_reducible (first | apply keep_store | apply keep_buf | apply keep_nil) | simp only [↓canonical_mk] | split

theorem keep_hold {s : State} {m : Master} {c a width v : Nat} (hs : s.Canonical) :
    State.Canonical (State.hold s m c a width v) := by
  unfold State.hold
  repeat' first
    | with_reducible assumption | (intro x; refine keep_cut x (fun hx => ?_) ?_; clear_value x; rotate_left; subst x; rotate_left)
    | (intro x; subst x) | lift_lets | with_reducible (first | apply keep_stall | apply keep_setHsq | apply keep_ite) | split

theorem keep_byCore {s : State} {m : Master} {a : Nat} {v : Word} {go : State → State} (hs : s.Canonical) (hgo : ∀ u,
      State.Canonical u → (go u).Canonical) :
    State.Canonical (State.byCore s m a v go) := by
  unfold State.byCore
  repeat' first
    | with_reducible assumption | (intro x; refine keep_cut x (fun hx => ?_) ?_; clear_value x; rotate_left; subst x; rotate_left)
    | (intro x; subst x) | intro _ | lift_lets | with_reducible (first | apply hgo | apply keep_hold | apply keep_ite) | split

theorem keep_byReq {s : State} {r : Req} {a width : Nat} {v : Word} {go : State → State} (hs : s.Canonical) (hgo : ∀ u,
      State.Canonical u → (go u).Canonical) :
    State.Canonical (State.byReq s r a width v go) := by
  unfold State.byReq
  repeat' first
    | with_reducible assumption | (intro x; refine keep_cut x (fun hx => ?_) ?_; clear_value x; rotate_left; subst x; rotate_left)
    | (intro x; subst x) | intro _ | lift_lets | with_reducible (first | apply hgo | apply keep_hold | apply keep_ite) | split

end Sys2Proof.Machine
end

