-- ==== Sys2Proof/Laws/Keep/Firn.lean ====
section
/-! SUPPORT. That the definitions of Machine/Firn.lean keep the canonical form (see Laws/Keep.lean). -/

namespace Sys2Proof.Machine

open Sys2Proof

set_option linter.unusedSimpArgs false

theorem keep_execBufferInitDone {s : State} (hs : s.Canonical) :
    OutcomeKeeps (execBufferInitDone s) := keeps_next (keep_raiseBit hs)

theorem keep_patrolScrub {found : BitVec 2} {s : State} (hs : s.Canonical) :
    State.Canonical (patrolScrub found s) := by
  unfold patrolScrub
  repeat' first
    | with_reducible assumption | (intro x; refine keep_cut x (fun hx => ?_) ?_; clear_value x; rotate_left; subst x; rotate_left)
    | (intro x; subst x) | lift_lets
    | with_reducible (first | apply keep_onFirn | apply keep_bufferCE | apply keep_bufferUE | apply keep_ite)

theorem keep_execPatrolScrub (found : BitVec 2) {s : State} (hs : s.Canonical) :
    OutcomeKeeps (execPatrolScrub found s) := keeps_next (keep_patrolScrub hs)

theorem keep_execZqCalibration {s : State} (hs : s.Canonical) :
    OutcomeKeeps (execZqCalibration s) := by
  unfold execZqCalibration
  apply keeps_next
  repeat' with_reducible first | assumption

theorem keep_lookCmd {it : Intent} {m : Master} {v : Word} {s : State} (hs : s.Canonical) :
    State.Canonical (lookCmd it m v s) := by
  unfold lookCmd
  repeat' first
    | with_reducible assumption | (intro x; refine keep_cut x (fun hx => ?_) ?_; clear_value x; rotate_left; subst x; rotate_left)
    | (intro x; subst x) | lift_lets | with_reducible (first | apply keep_firnLookup | apply keep_lookResult | apply keep_ite)

theorem keep_execLookup (m : Master) (v : Word) {s : State} (hs : s.Canonical) :
    OutcomeKeeps (execLookup m v s) := by
  unfold execLookup
  apply keeps_next
  repeat' first
    | with_reducible assumption | (intro x; refine keep_cut x (fun hx => ?_) ?_; clear_value x; rotate_left; subst x; rotate_left)
    | (intro x; subst x) | intro _ | lift_lets | with_reducible (first | apply keep_byCore | apply keep_lookCmd | apply keep_ite) | split

theorem keep_execLookupAlloc (m : Master) (v : Word) {s : State} (hs : s.Canonical) :
    OutcomeKeeps (execLookupAlloc m v s) := by
  unfold execLookupAlloc
  apply keeps_next
  repeat' first
    | with_reducible assumption | (intro x; refine keep_cut x (fun hx => ?_) ?_; clear_value x; rotate_left; subst x; rotate_left)
    | (intro x; subst x) | intro _ | lift_lets | with_reducible (first | apply keep_byCore | apply keep_lookCmd | apply keep_ite) | split

theorem keep_execReserve (m : Master) (v : Word) {s : State} (hs : s.Canonical) :
    OutcomeKeeps (execReserve m v s) := by
  unfold execReserve
  apply keeps_next
  repeat' first
    | with_reducible assumption | (intro x; refine keep_cut x (fun hx => ?_) ?_; clear_value x; rotate_left; subst x; rotate_left)
    | (intro x; subst x) | intro _ | lift_lets | with_reducible (first | apply keep_byCore | apply keep_lookCmd | apply keep_ite) | split

theorem keep_execFilllock (m : Master) (v : Word) {s : State} (hs : s.Canonical) :
    OutcomeKeeps (execFilllock m v s) := by
  unfold execFilllock
  apply keeps_next
  repeat' first
    | with_reducible assumption | (intro x; refine keep_cut x (fun hx => ?_) ?_; clear_value x; rotate_left; subst x; rotate_left)
    | (intro x; subst x) | intro _ | lift_lets | with_reducible (first | apply keep_byCore | apply keep_lookCmd | apply keep_ite) | split

theorem keep_addrCmd {op : Maint} {m : Master} {v : Word} {s : State} (hs : s.Canonical) :
    State.Canonical (addrCmd op m v s) := by
  unfold addrCmd
  repeat' first
    | with_reducible assumption | (intro x; refine keep_cut x (fun hx => ?_) ?_; clear_value x; rotate_left; subst x; rotate_left)
    | (intro x; subst x) | lift_lets | with_reducible (first | apply keep_lookResult | apply keep_maintAddr | apply keep_ite)

theorem keep_execAclean (m : Master) (v : Word) {s : State} (hs : s.Canonical) :
    OutcomeKeeps (execAclean m v s) := by
  unfold execAclean
  apply keeps_next
  repeat' first
    | with_reducible assumption | (intro x; refine keep_cut x (fun hx => ?_) ?_; clear_value x; rotate_left; subst x; rotate_left)
    | (intro x; subst x) | intro _ | lift_lets | with_reducible (first | apply keep_byCore | apply keep_addrCmd | apply keep_ite) | split

theorem keep_execAinval (m : Master) (v : Word) {s : State} (hs : s.Canonical) :
    OutcomeKeeps (execAinval m v s) := by
  unfold execAinval
  apply keeps_next
  repeat' first
    | with_reducible assumption | (intro x; refine keep_cut x (fun hx => ?_) ?_; clear_value x; rotate_left; subst x; rotate_left)
    | (intro x; subst x) | intro _ | lift_lets | with_reducible (first | apply keep_byCore | apply keep_addrCmd | apply keep_ite) | split

theorem keep_execAcleaninval (m : Master) (v : Word) {s : State} (hs : s.Canonical) :
    OutcomeKeeps (execAcleaninval m v s) := by
  unfold execAcleaninval
  apply keeps_next
  repeat' first
    | with_reducible assumption | (intro x; refine keep_cut x (fun hx => ?_) ?_; clear_value x; rotate_left; subst x; rotate_left)
    | (intro x; subst x) | intro _ | lift_lets | with_reducible (first | apply keep_byCore | apply keep_addrCmd | apply keep_ite) | split

theorem keep_execAdiscard (m : Master) (v : Word) {s : State} (hs : s.Canonical) :
    OutcomeKeeps (execAdiscard m v s) := by
  unfold execAdiscard
  apply keeps_next
  repeat' first
    | with_reducible assumption | (intro x; refine keep_cut x (fun hx => ?_) ?_; clear_value x; rotate_left; subst x; rotate_left)
    | (intro x; subst x) | intro _ | lift_lets | with_reducible (first | apply keep_byCore | apply keep_addrCmd | apply keep_ite) | split

theorem keep_firnCommitCmd {m : Master} {v : Word} {s : State} (hs : s.Canonical) :
    State.Canonical (firnCommitCmd m v s) := by
  unfold firnCommitCmd
  repeat' first
    | with_reducible assumption | (intro x; refine keep_cut x (fun hx => ?_) ?_; clear_value x; rotate_left; subst x; rotate_left)
    | (intro x; subst x) | lift_lets | with_reducible (first | apply keep_segResult | apply keep_firnCommit | apply keep_ite)

theorem keep_execFirnCommit (m : Master) (v : Word) {s : State} (hs : s.Canonical) :
    OutcomeKeeps (execFirnCommit m v s) := by
  unfold execFirnCommit
  apply keeps_next
  repeat' first
    | with_reducible assumption | (intro x; refine keep_cut x (fun hx => ?_) ?_; clear_value x; rotate_left; subst x; rotate_left)
    | (intro x; subst x) | intro _ | lift_lets | with_reducible (first | apply keep_byCore | apply keep_firnCommitCmd | apply keep_ite)
    | split

theorem keep_firnFill {s : State} {tgt : Bool} {k j : Nat} {gen : BitVec 8} {mk : Mask} (hs : s.Canonical) :
    State.Canonical (State.firnFill s tgt k j gen mk).2.2 := by
  unfold State.firnFill
  repeat' first
    | with_reducible assumption | (intro x; subst x) | lift_lets | with_reducible (first | apply keep_setSlot | apply keep_setTag) | split

theorem keep_fillCmd {m : Master} {v : Word} {s : State} (hs : s.Canonical) :
    State.Canonical (fillCmd m v s) := by
  unfold fillCmd
  repeat' first
    | with_reducible assumption | (intro x; refine keep_cut x (fun hx => ?_) ?_; clear_value x; rotate_left; subst x; rotate_left)
    | (intro x; subst x) | lift_lets | with_reducible (first | apply keep_firnFill | apply keep_segResult | apply keep_ite)

theorem keep_execFill (m : Master) (v : Word) {s : State} (hs : s.Canonical) :
    OutcomeKeeps (execFill m v s) := by
  unfold execFill
  apply keeps_next
  repeat' first
    | with_reducible assumption | (intro x; refine keep_cut x (fun hx => ?_) ?_; clear_value x; rotate_left; subst x; rotate_left)
    | (intro x; subst x) | intro _ | lift_lets | with_reducible (first | apply keep_byCore | apply keep_fillCmd | apply keep_ite) | split

theorem keep_firnAbort {s : State} {tgt : Bool} {k j : Nat} {gen : BitVec 8} {mk : Mask} {n : Nat} (hs : s.Canonical) :
    State.Canonical (State.firnAbort s tgt k j gen mk n).2.2 := by
  unfold State.firnAbort
  repeat' first
    | with_reducible assumption | (intro x; subst x) | lift_lets
    | with_reducible (first | apply keep_setSlot | apply keep_dropReserved | apply keep_setTag) | simp only [↓canonical_mk] | split

theorem keep_abortCmd {m : Master} {v : Word} {s : State} (hs : s.Canonical) :
    State.Canonical (abortCmd m v s) := by
  unfold abortCmd
  repeat' first
    | with_reducible assumption | (intro x; refine keep_cut x (fun hx => ?_) ?_; clear_value x; rotate_left; subst x; rotate_left)
    | (intro x; subst x) | lift_lets | with_reducible (first | apply keep_firnAbort | apply keep_segResult | apply keep_ite)

theorem keep_execFirnAbort (m : Master) (v : Word) {s : State} (hs : s.Canonical) :
    OutcomeKeeps (execFirnAbort m v s) := by
  unfold execFirnAbort
  apply keeps_next
  repeat' first
    | with_reducible assumption | (intro x; refine keep_cut x (fun hx => ?_) ?_; clear_value x; rotate_left; subst x; rotate_left)
    | (intro x; subst x) | intro _ | lift_lets | with_reducible (first | apply keep_byCore | apply keep_abortCmd | apply keep_ite) | split

theorem keep_unpinTag {s : State} {k : Nat} {gen : BitVec 8} (hs : s.Canonical) :
    State.Canonical (State.unpinTag s k gen).2 := by
  unfold State.unpinTag
  repeat' first | with_reducible assumption | (intro x; subst x) | lift_lets | with_reducible apply keep_setTag | split

theorem keep_unpinCmd {m : Master} {v : Word} {s : State} (hs : s.Canonical) :
    State.Canonical (unpinCmd m v s) := by
  unfold unpinCmd
  repeat' first
    | with_reducible assumption | (intro x; refine keep_cut x (fun hx => ?_) ?_; clear_value x; rotate_left; subst x; rotate_left)
    | (intro x; subst x) | lift_lets | with_reducible (first | apply keep_segResult | apply keep_unpinTag | apply keep_ite)

theorem keep_execUnpin (m : Master) (v : Word) {s : State} (hs : s.Canonical) :
    OutcomeKeeps (execUnpin m v s) := by
  unfold execUnpin
  apply keeps_next
  repeat' first
    | with_reducible assumption | (intro x; refine keep_cut x (fun hx => ?_) ?_; clear_value x; rotate_left; subst x; rotate_left)
    | (intro x; subst x) | intro _ | lift_lets | with_reducible (first | apply keep_byCore | apply keep_unpinCmd | apply keep_ite) | split

theorem keep_maintCmd {op : Maint} {m : Master} {v : Word} {s : State} (hs : s.Canonical) :
    State.Canonical (maintCmd op m v s) := by
  unfold maintCmd
  repeat' first
    | with_reducible assumption | (intro x; subst x) | lift_lets
    | with_reducible (first | apply keep_segResult | apply keep_releaseSlot | apply keep_maintTag | apply keep_ite) | split

theorem keep_execClean (m : Master) (v : Word) {s : State} (hs : s.Canonical) :
    OutcomeKeeps (execClean m v s) := by
  unfold execClean
  apply keeps_next
  repeat' first
    | with_reducible assumption | (intro x; refine keep_cut x (fun hx => ?_) ?_; clear_value x; rotate_left; subst x; rotate_left)
    | (intro x; subst x) | intro _ | lift_lets | with_reducible (first | apply keep_byCore | apply keep_maintCmd | apply keep_ite) | split

theorem keep_execInval (m : Master) (v : Word) {s : State} (hs : s.Canonical) :
    OutcomeKeeps (execInval m v s) := by
  unfold execInval
  apply keeps_next
  repeat' first
    | with_reducible assumption | (intro x; refine keep_cut x (fun hx => ?_) ?_; clear_value x; rotate_left; subst x; rotate_left)
    | (intro x; subst x) | intro _ | lift_lets | with_reducible (first | apply keep_byCore | apply keep_maintCmd | apply keep_ite) | split

theorem keep_execCleaninval (m : Master) (v : Word) {s : State} (hs : s.Canonical) :
    OutcomeKeeps (execCleaninval m v s) := by
  unfold execCleaninval
  apply keeps_next
  repeat' first
    | with_reducible assumption | (intro x; refine keep_cut x (fun hx => ?_) ?_; clear_value x; rotate_left; subst x; rotate_left)
    | (intro x; subst x) | intro _ | lift_lets | with_reducible (first | apply keep_byCore | apply keep_maintCmd | apply keep_ite) | split

theorem keep_execDiscard (m : Master) (v : Word) {s : State} (hs : s.Canonical) :
    OutcomeKeeps (execDiscard m v s) := by
  unfold execDiscard
  apply keeps_next
  repeat' first
    | with_reducible assumption | (intro x; refine keep_cut x (fun hx => ?_) ?_; clear_value x; rotate_left; subst x; rotate_left)
    | (intro x; subst x) | intro _ | lift_lets | with_reducible (first | apply keep_byCore | apply keep_maintCmd | apply keep_ite) | split

theorem keep_rangeCmd {op : Nat} {m : Master} {v : Word} {s : State} (hs : s.Canonical) :
    State.Canonical (rangeCmd op m v s) := by
  unfold rangeCmd
  repeat' first
    | with_reducible assumption | (intro x; subst x) | lift_lets
    | with_reducible (first | apply keep_raiseBit | apply keep_onFirn | apply keep_runRange | apply keep_ite)

theorem keep_execRangeClean (m : Master) (v : Word) {s : State} (hs : s.Canonical) :
    OutcomeKeeps (execRangeClean m v s) := by
  unfold execRangeClean
  apply keeps_next
  repeat' first
    | with_reducible assumption | (intro x; refine keep_cut x (fun hx => ?_) ?_; clear_value x; rotate_left; subst x; rotate_left)
    | (intro x; subst x) | intro _ | lift_lets | with_reducible (first | apply keep_byCore | apply keep_rangeCmd | apply keep_ite) | split

theorem keep_execRangeInval (m : Master) (v : Word) {s : State} (hs : s.Canonical) :
    OutcomeKeeps (execRangeInval m v s) := by
  unfold execRangeInval
  apply keeps_next
  repeat' first
    | with_reducible assumption | (intro x; refine keep_cut x (fun hx => ?_) ?_; clear_value x; rotate_left; subst x; rotate_left)
    | (intro x; subst x) | intro _ | lift_lets | with_reducible (first | apply keep_byCore | apply keep_rangeCmd | apply keep_ite) | split

theorem keep_execRangeCleaninval (m : Master) (v : Word) {s : State} (hs : s.Canonical) :
    OutcomeKeeps (execRangeCleaninval m v s) := by
  unfold execRangeCleaninval
  apply keeps_next
  repeat' first
    | with_reducible assumption | (intro x; refine keep_cut x (fun hx => ?_) ?_; clear_value x; rotate_left; subst x; rotate_left)
    | (intro x; subst x) | intro _ | lift_lets | with_reducible (first | apply keep_byCore | apply keep_rangeCmd | apply keep_ite) | split

theorem keep_execRangeDiscard (m : Master) (v : Word) {s : State} (hs : s.Canonical) :
    OutcomeKeeps (execRangeDiscard m v s) := by
  unfold execRangeDiscard
  apply keeps_next
  repeat' first
    | with_reducible assumption | (intro x; refine keep_cut x (fun hx => ?_) ?_; clear_value x; rotate_left; subst x; rotate_left)
    | (intro x; subst x) | intro _ | lift_lets | with_reducible (first | apply keep_byCore | apply keep_rangeCmd | apply keep_ite) | split

theorem keep_execRangeResume {s : State} (hs : s.Canonical) :
    OutcomeKeeps (execRangeResume s) := by
  unfold execRangeResume
  apply keeps_next
  repeat' with_reducible first | assumption | apply keep_runRange | apply keep_ite

theorem keep_rangePassEnd {s : State} (hs : s.Canonical) :
    State.Canonical (rangePassEnd s) := by
  unfold rangePassEnd
  repeat' first
    | with_reducible (first | assumption | apply keep_clr | apply keep_raiseBit | apply keep_put | apply keep_onFirn)
    | with_reducible apply keep_ite | lift_lets | split

theorem keep_execRangePassEnd {s : State} (hs : s.Canonical) :
    OutcomeKeeps (execRangePassEnd s) := keeps_next (keep_rangePassEnd hs)

theorem keep_execClqpop {s : State} (hs : s.Canonical) :
    OutcomeKeeps (execClqpop s) := by
  unfold execClqpop
  apply keeps_next
  repeat' with_reducible first | assumption | apply keep_onFirn | apply keep_ite

theorem keep_wbdoneCmd {v : Word} {s : State} (hs : s.Canonical) :
    State.Canonical (wbdoneCmd v s) := by
  unfold wbdoneCmd
  repeat' with_reducible first | assumption | apply keep_wbDone | apply keep_ite

theorem keep_execWbdone (v : Word) {s : State} (hs : s.Canonical) :
    OutcomeKeeps (execWbdone v s) := keeps_next (keep_wbdoneCmd hs)

theorem keep_setMeta {s : State} {k : Nat} {e : MetaEnt} (hs : s.Canonical) :
    State.Canonical (State.setMeta s k e) := by
  unfold State.setMeta
  repeat' with_reducible first | assumption | apply keep_onFirn

theorem keep_touchMeta {s : State} {k : Nat} (hs : s.Canonical) :
    State.Canonical (State.touchMeta s k) := by
  unfold State.touchMeta
  repeat' first
    | with_reducible assumption | (intro x; subst x) | lift_lets | with_reducible (first | apply keep_setMeta | apply keep_onFirn)

theorem keep_metaResult {s : State} {m : Master} {result : Nat} {k : Option Nat} (hs : s.Canonical) :
    State.Canonical (State.metaResult s m result k) := by
  unfold State.metaResult
  repeat' first
    | with_reducible assumption | (intro x; refine keep_cut x (fun hx => ?_) ?_; clear_value x; rotate_left; subst x; rotate_left)
    | (intro x; subst x) | lift_lets | with_reducible (first | apply keep_wr | apply keep_put | apply keep_openFlds | apply keep_putB)
    | split

theorem keep_metaLookup {m : Master} {s : State} (hs : s.Canonical) :
    State.Canonical (metaLookup m s) := by
  unfold metaLookup
  repeat' first | with_reducible (first | assumption | apply keep_touchMeta | apply keep_metaResult | apply keep_ite) | lift_lets | split

theorem keep_execMetaLookup (m : Master) {s : State} (hs : s.Canonical) :
    OutcomeKeeps (execMetaLookup m s) := by
  unfold execMetaLookup
  apply keeps_next
  repeat' first
    | with_reducible assumption | (intro x; refine keep_cut x (fun hx => ?_) ?_; clear_value x; rotate_left; subst x; rotate_left)
    | (intro x; subst x) | intro _ | lift_lets | with_reducible (first | apply keep_byCore | apply keep_metaLookup | apply keep_ite)
    | split

theorem keep_metaAlloc {m : Master} {s : State} (hs : s.Canonical) :
    State.Canonical (metaAlloc m s) := by
  unfold metaAlloc
  repeat' first
    | with_reducible (first | assumption | apply keep_touchMeta | apply keep_metaResult | apply keep_setMeta | apply keep_ite) | lift_lets
    | split

theorem keep_execMetaAlloc (m : Master) {s : State} (hs : s.Canonical) :
    OutcomeKeeps (execMetaAlloc m s) := by
  unfold execMetaAlloc
  apply keeps_next
  repeat' first
    | with_reducible assumption | (intro x; refine keep_cut x (fun hx => ?_) ?_; clear_value x; rotate_left; subst x; rotate_left)
    | (intro x; subst x) | intro _ | lift_lets | with_reducible (first | apply keep_byCore | apply keep_metaAlloc | apply keep_ite)
    | split

theorem keep_metaEntCmd {m : Master} {k : Nat} {ok : MetaEnt → Bool} {f : MetaEnt → MetaEnt} {s : State} (hs : s.Canonical) :
    State.Canonical (metaEntCmd m k ok f s) := by
  unfold metaEntCmd
  repeat' with_reducible first | assumption | apply keep_metaResult | apply keep_setMeta | apply keep_ite

theorem keep_execMetaDirty (m : Master) (k : BitVec 6) {s : State} (hs : s.Canonical) :
    OutcomeKeeps (execMetaDirty m k s) := by
  unfold execMetaDirty
  apply keeps_next
  repeat' first
    | with_reducible assumption | (intro x; refine keep_cut x (fun hx => ?_) ?_; clear_value x; rotate_left; subst x; rotate_left)
    | (intro x; subst x) | intro _ | lift_lets
    | with_reducible (first | apply keep_byCore | apply keep_metaEntCmd | apply keep_ite | apply And.intro | apply keep_regs)
    | with_reducible (first | apply keep_sram | apply keep_store | apply keep_buf | apply keep_nil) | simp only [↓canonical_mk] | split

theorem keep_execMetaClean (m : Master) (k : BitVec 6) {s : State} (hs : s.Canonical) :
    OutcomeKeeps (execMetaClean m k s) := by
  unfold execMetaClean
  apply keeps_next
  repeat' first
    | with_reducible assumption | (intro x; refine keep_cut x (fun hx => ?_) ?_; clear_value x; rotate_left; subst x; rotate_left)
    | (intro x; subst x) | intro _ | lift_lets
    | with_reducible (first | apply keep_byCore | apply keep_metaEntCmd | apply keep_ite | apply And.intro | apply keep_regs)
    | with_reducible (first | apply keep_sram | apply keep_store | apply keep_buf | apply keep_nil) | simp only [↓canonical_mk] | split

theorem keep_execMetaInval (m : Master) (k : BitVec 6) {s : State} (hs : s.Canonical) :
    OutcomeKeeps (execMetaInval m k s) := by
  unfold execMetaInval
  apply keeps_next
  repeat' first
    | with_reducible assumption | (intro x; refine keep_cut x (fun hx => ?_) ?_; clear_value x; rotate_left; subst x; rotate_left)
    | (intro x; subst x) | intro _ | lift_lets
    | with_reducible (first | apply keep_byCore | apply keep_metaEntCmd | apply keep_ite | apply And.intro | apply keep_regs)
    | with_reducible (first | apply keep_sram | apply keep_store | apply keep_buf | apply keep_nil) | simp only [↓canonical_mk] | split

theorem keep_execMetaLock (m : Master) (k : BitVec 6) {s : State} (hs : s.Canonical) :
    OutcomeKeeps (execMetaLock m k s) := by
  unfold execMetaLock
  apply keeps_next
  repeat' first
    | with_reducible assumption | (intro x; refine keep_cut x (fun hx => ?_) ?_; clear_value x; rotate_left; subst x; rotate_left)
    | (intro x; subst x) | intro _ | lift_lets
    | with_reducible (first | apply keep_byCore | apply keep_metaEntCmd | apply keep_ite | apply And.intro | apply keep_regs)
    | with_reducible (first | apply keep_sram | apply keep_store | apply keep_buf | apply keep_nil) | simp only [↓canonical_mk] | split

theorem keep_execMetaUnlock (m : Master) (k : BitVec 6) {s : State} (hs : s.Canonical) :
    OutcomeKeeps (execMetaUnlock m k s) := by
  unfold execMetaUnlock
  apply keeps_next
  repeat' first
    | with_reducible assumption | (intro x; refine keep_cut x (fun hx => ?_) ?_; clear_value x; rotate_left; subst x; rotate_left)
    | (intro x; subst x) | intro _ | lift_lets
    | with_reducible (first | apply keep_byCore | apply keep_metaEntCmd | apply keep_ite | apply And.intro | apply keep_regs)
    | with_reducible (first | apply keep_sram | apply keep_store | apply keep_buf | apply keep_nil) | simp only [↓canonical_mk] | split

theorem keep_corResult {s : State} {m : Master} {result : Nat} {j : Option Nat} (hs : s.Canonical) :
    State.Canonical (State.corResult s m result j) := by
  unfold State.corResult
  repeat' first
    | with_reducible assumption | (intro x; refine keep_cut x (fun hx => ?_) ?_; clear_value x; rotate_left; subst x; rotate_left)
    | (intro x; subst x) | lift_lets | with_reducible (first | apply keep_wr | apply keep_put | apply keep_openFlds) | split

theorem keep_corniceAlloc {m : Master} {v : Word} {s : State} (hs : s.Canonical) :
    State.Canonical (corniceAlloc m v s) := by
  unfold corniceAlloc
  repeat' first
    | with_reducible assumption | (intro x; refine keep_cut x (fun hx => ?_) ?_; clear_value x; rotate_left; subst x; rotate_left)
    | (intro x; subst x) | lift_lets | with_reducible (first | apply keep_cAlloc | apply keep_corResult | apply keep_ite)

theorem keep_execCorniceAlloc (m : Master) (v : Word) {s : State} (hs : s.Canonical) :
    OutcomeKeeps (execCorniceAlloc m v s) := by
  unfold execCorniceAlloc
  apply keeps_next
  repeat' first
    | with_reducible assumption | (intro x; refine keep_cut x (fun hx => ?_) ?_; clear_value x; rotate_left; subst x; rotate_left)
    | (intro x; subst x) | intro _ | lift_lets | with_reducible (first | apply keep_byCore | apply keep_corniceAlloc | apply keep_ite)
    | split

theorem keep_corniceRelease {m : Master} {v : Word} {s : State} (hs : s.Canonical) :
    State.Canonical (corniceRelease m v s) := by
  unfold corniceRelease
  repeat' with_reducible first | assumption | apply keep_releaseSlot | apply keep_corResult | apply keep_ite

theorem keep_execCorniceRelease (m : Master) (v : Word) {s : State} (hs : s.Canonical) :
    OutcomeKeeps (execCorniceRelease m v s) := by
  unfold execCorniceRelease
  apply keeps_next
  repeat' first
    | with_reducible assumption | (intro x; refine keep_cut x (fun hx => ?_) ?_; clear_value x; rotate_left; subst x; rotate_left)
    | (intro x; subst x) | intro _ | lift_lets | with_reducible (first | apply keep_byCore | apply keep_corniceRelease | apply keep_ite)
    | split

theorem keep_corniceStatus {m : Master} {v : Word} {s : State} (hs : s.Canonical) :
    State.Canonical (corniceStatus m v s) := by
  unfold corniceStatus
  repeat' with_reducible first | assumption | apply keep_corResult | apply keep_ite

theorem keep_execCorniceStatus (m : Master) (v : Word) {s : State} (hs : s.Canonical) :
    OutcomeKeeps (execCorniceStatus m v s) := by
  unfold execCorniceStatus
  apply keeps_next
  repeat' first
    | with_reducible assumption | (intro x; refine keep_cut x (fun hx => ?_) ?_; clear_value x; rotate_left; subst x; rotate_left)
    | (intro x; subst x) | intro _ | lift_lets | with_reducible (first | apply keep_byCore | apply keep_corniceStatus | apply keep_ite)
    | split

theorem keep_corniceScrubDone {j : Nat} {s : State} (hs : s.Canonical) :
    State.Canonical (corniceScrubDone j s) := by
  unfold corniceScrubDone
  repeat' first
    | with_reducible assumption | (intro x; refine keep_cut x (fun hx => ?_) ?_; clear_value x; rotate_left; subst x; rotate_left)
    | (intro x; subst x) | lift_lets
    | with_reducible (first | apply keep_bufZero | apply keep_inc | apply keep_raiseBit | apply keep_event | apply keep_setSlot)
    | with_reducible apply keep_ite | simp only [↓canonical_mk] | split

theorem keep_execCorniceScrubDone (j : BitVec 5) {s : State} (hs : s.Canonical) :
    OutcomeKeeps (execCorniceScrubDone j s) := keeps_next (keep_corniceScrubDone hs)

theorem keep_prefetchRel {s : State} {arg : Nat} (hs : s.Canonical) :
    State.Canonical (State.prefetchRel s arg) := by
  unfold State.prefetchRel
  repeat' with_reducible first | assumption | apply keep_releaseSlot

theorem keep_partitionWrite {m : Master} {cmask : Bool} {p : Nat} {v : Word} {s : State} (hs : s.Canonical) :
    State.Canonical (partitionWrite m cmask p v s) := by
  unfold partitionWrite
  repeat' with_reducible first | assumption | apply keep_raiseBit | apply keep_wr | apply keep_ite

theorem keep_execPartitionWrite (m : Master) (cmask : Bool) (p : BitVec 4) (v : Word) {s : State} (hs : s.Canonical) :
    OutcomeKeeps (execPartitionWrite m cmask p v s) := by
  unfold execPartitionWrite
  apply keeps_next
  repeat' first
    | with_reducible assumption | (intro x; refine keep_cut x (fun hx => ?_) ?_; clear_value x; rotate_left; subst x; rotate_left)
    | (intro x; subst x) | intro _ | lift_lets | with_reducible (first | apply keep_byCore | apply keep_partitionWrite | apply keep_ite)
    | split

theorem keep_plock {s : State} (hs : s.Canonical) :
    State.Canonical (State.plock s) := by
  unfold State.plock
  repeat' first
    | with_reducible assumption | (intro x; refine keep_cut x (fun hx => ?_) ?_; clear_value x; rotate_left; subst x; rotate_left)
    | (intro x; subst x) | lift_lets | with_reducible (first | apply keep_put | apply keep_raiseBit | apply keep_ite)

theorem keep_partitionLock {m : Master} {s : State} (hs : s.Canonical) :
    State.Canonical (partitionLock m s) := by
  unfold partitionLock
  repeat' with_reducible first | assumption | apply keep_plock | apply keep_ite

theorem keep_execPartitionLock (m : Master) {s : State} (hs : s.Canonical) :
    OutcomeKeeps (execPartitionLock m s) := by
  unfold execPartitionLock
  apply keeps_next
  repeat' first
    | with_reducible assumption | (intro x; refine keep_cut x (fun hx => ?_) ?_; clear_value x; rotate_left; subst x; rotate_left)
    | (intro x; subst x) | intro _ | lift_lets | with_reducible (first | apply keep_byCore | apply keep_partitionLock | apply keep_ite)
    | split

end Sys2Proof.Machine
end

