-- ==== Sys2Proof/Laws/Keep/RmeOps.lean ====
section
/-! SUPPORT. That the definitions of Machine/RmeOps.lean keep the canonical form (see Laws/Keep.lean). -/

namespace Sys2Proof.Machine

open Sys2Proof

set_option linter.unusedSimpArgs false

theorem keep_rmeRecord {s : State} {idx : Nat} {window : Bool} {kind port attempt key : Nat} {party : Nat} (hs : s.Canonical) :
    State.Canonical (State.rmeRecord s idx window kind port attempt key party) := by
  unfold State.rmeRecord
  repeat' with_reducible first | assumption | apply keep_event

theorem keep_rmeShadowFault {s : State} {idx : Nat} {window : Bool} (hs : s.Canonical) :
    State.Canonical (State.rmeShadowFault s idx window) := by
  unfold State.rmeShadowFault
  repeat' first
    | with_reducible assumption | (intro x; refine keep_cut x (fun hx => ?_) ?_; clear_value x; rotate_left; subst x; rotate_left)
    | lift_lets | with_reducible (first | apply keep_inc | apply keep_raiseBit | apply keep_setIn | apply keep_put | apply keep_ite)

theorem keep_rmeErrors {window : Bool} {port key party : Nat} {a0 : List RmeErr} {a1 : Nat} {a2 : State} (h : a2.Canonical) :
    State.Canonical (State.rmeErrors window port key party a0 a1 a2).2 := by
  induction a0 generalizing a1 a2 with
  | nil =>
    unfold State.rmeErrors
    repeat' with_reducible first | assumption
  | cons x l ih =>
    unfold State.rmeErrors
    repeat' first
      | with_reducible assumption | (intro x; refine keep_cut x (fun hx => ?_) ?_; clear_value x; rotate_left; subst x; rotate_left)
      | lift_lets
      | with_reducible (first | apply ih | apply keep_rmeRecord | apply keep_rmeShadowFault | apply keep_inc | apply keep_raiseBit)
      | with_reducible apply keep_ite | split

theorem keep_defectLookup {s : State} {x port : Nat} {errs : List RmeErr} (hs : s.Canonical) :
    State.Canonical (State.defectLookup s x port errs).2 := by
  unfold State.defectLookup
  repeat' first
    | with_reducible assumption | (intro x; refine keep_cut x (fun hx => ?_) ?_; clear_value x; rotate_left; subst x; rotate_left)
    | (intro x; subst x) | lift_lets | with_reducible (first | apply keep_rmeErrors | apply keep_ite) | split

theorem keep_windowLookup {s : State} {p x rreq port : Nat} {errs : List RmeErr} (hs : s.Canonical) :
    State.Canonical (State.windowLookup s p x rreq port errs).2 := by
  unfold State.windowLookup
  repeat' first
    | with_reducible assumption | (intro x; refine keep_cut x (fun hx => ?_) ?_; clear_value x; rotate_left; subst x; rotate_left)
    | (intro x; subst x) | lift_lets | with_reducible (first | apply keep_rmeErrors | apply keep_ite) | split

theorem keep_rmeRefuse {s : State} {p x rreq port ring cid : Nat} {r : RmeRes} (hs : s.Canonical) :
    State.Canonical (State.rmeRefuse s p x rreq port ring cid r) := by
  unfold State.rmeRefuse
  repeat' first
    | with_reducible assumption | (intro x; refine keep_cut x (fun hx => ?_) ?_; clear_value x; rotate_left; subst x; rotate_left)
    | lift_lets | with_reducible (first | apply keep_inc | apply keep_raiseBit | apply keep_event)

theorem keep_rmeResult {s : State} {m : Master} {r : RmeRes} (hs : s.Canonical) :
    State.Canonical (State.rmeResult s m r) := by
  unfold State.rmeResult
  repeat' first
    | with_reducible assumption | (intro x; refine keep_cut x (fun hx => ?_) ?_; clear_value x; rotate_left; subst x; rotate_left)
    | lift_lets | with_reducible (first | apply keep_wr | apply keep_put | apply keep_putB | apply keep_openFlds | apply keep_ite) | split

theorem keep_rmeBankLookup {s : State} {m : Master} {v : Word} {errs : List RmeErr} (hs : s.Canonical) :
    State.Canonical (State.rmeBankLookup s m v errs) := by
  unfold State.rmeBankLookup
  repeat' first
    | with_reducible assumption | (intro x; refine keep_cut x (fun hx => ?_) ?_; clear_value x; rotate_left; subst x; rotate_left)
    | (intro x; subst x) | lift_lets
    | with_reducible (first | apply keep_defectLookup | apply keep_rmeResult | apply keep_windowLookup | apply keep_rmeRefuse)
    | with_reducible apply keep_ite

theorem keep_rmeNotify {s : State} {ch : List RmeEnt} {p : Nat} (hs : s.Canonical) :
    State.Canonical (State.rmeNotify s ch p).2 := by
  unfold State.rmeNotify
  repeat' first | with_reducible assumption | (intro x; subst x) | lift_lets | with_reducible apply keep_revoke | split

theorem keep_rmeSres {s : State} {m : Master} {result slot notices : Nat} (hs : s.Canonical) :
    State.Canonical (State.rmeSres s m result slot notices) := by
  unfold State.rmeSres
  repeat' with_reducible first | assumption | apply keep_wr | apply keep_put

theorem keep_mediaMoves {s : State} {l : List (Nat × Nat × Nat)} (hs : s.Canonical) :
    State.Canonical (State.mediaMoves s l) := by
  unfold State.mediaMoves
  repeat' first
    | with_reducible assumption | (intro x; refine keep_cut x (fun hx => ?_) ?_; clear_value x; rotate_left; subst x; rotate_left)
    | (intro x; subst x) | intro _ | lift_lets
    | with_reducible (first | apply keep_ite | apply And.intro | apply keep_regs | apply keep_sram | apply keep_store)
    | with_reducible (first | apply keep_buf | apply keep_nil) | simp only [↓canonical_mk] | split

theorem keep_rmeCommitPoint {s : State} {m : Master} {l : List RmeStg} (hs : s.Canonical) :
    State.Canonical (State.rmeCommitPoint s m l) := by
  unfold State.rmeCommitPoint
  repeat' first
    | with_reducible assumption | (intro x; refine keep_cut x (fun hx => ?_) ?_; clear_value x; rotate_left; subst x; rotate_left)
    | (intro x; subst x) | intro _ | lift_lets
    | with_reducible (first | apply keep_each | apply keep_mediaMoves | apply keep_clrIn | apply keep_rmeNotify | apply keep_raiseBit)
    | with_reducible (first | apply keep_rmeSres | apply keep_foldl | apply keep_getD | apply keep_ite | apply And.intro)
    | with_reducible (first | apply keep_regs | apply keep_sram | apply keep_store | apply keep_buf | apply keep_nil)
    | simp only [↓canonical_mk] | split

theorem keep_rmeCommit {s : State} {m : Master} {n : Nat} (hs : s.Canonical) :
    State.Canonical (State.rmeCommit s m n) := by
  unfold State.rmeCommit
  repeat' first
    | with_reducible assumption | (intro x; subst x) | lift_lets | with_reducible (first | apply keep_rmeSres | apply keep_rmeCommitPoint)
    | split

theorem keep_rmeWait {s : State} {w : RmeWait} (hs : s.Canonical) :
    State.Canonical (State.rmeWait s w) := by
  unfold State.rmeWait
  repeat' first
    | with_reducible assumption | (intro x; refine keep_cut x (fun hx => ?_) ?_; clear_value x; rotate_left; subst x; rotate_left)
    | (intro x; subst x) | lift_lets
    | with_reducible (first | apply keep_raiseBit | apply keep_ite | apply And.intro | apply keep_regs | apply keep_sram)
    | with_reducible (first | apply keep_store | apply keep_buf) | simp only [↓canonical_mk]

theorem keep_rmeIssue {s : State} {w : RmeWait} (hs : s.Canonical) :
    State.Canonical (State.rmeIssue s w) := by
  unfold State.rmeIssue
  repeat' with_reducible first | assumption | apply keep_rmeWait | apply keep_rmeCommit | apply keep_rmeBankLookup | apply keep_ite

theorem keep_rmeWake {s : State} (hs : s.Canonical) :
    State.Canonical (State.rmeWake s) := by
  unfold State.rmeWake
  repeat' first
    | with_reducible assumption | (intro x; subst x) | intro _ | lift_lets
    | with_reducible (first | apply keep_each | apply keep_rmeIssue | apply And.intro | apply keep_regs | apply keep_sram)
    | with_reducible (first | apply keep_store | apply keep_buf) | simp only [↓canonical_mk]

end Sys2Proof.Machine
end

