-- ==== Sys2Proof/Laws/Keep/UqiOps.lean ====
section
/-! SUPPORT. That the definitions of Machine/UqiOps.lean keep the canonical form (see Laws/Keep.lean). -/

namespace Sys2Proof.Machine

open Sys2Proof

set_option linter.unusedSimpArgs false

theorem keep_onUqi {s : State} {f : UqiState → UqiState} (hs : s.Canonical) :
    State.Canonical (State.onUqi s f) := by
  unfold State.onUqi
  repeat' first
    | with_reducible (first | assumption | apply And.intro | apply keep_regs | apply keep_sram | apply keep_store | apply keep_buf)
    | simp only [↓canonical_mk]

theorem keep_setSq {s : State} {r : Nat} {q : SqRing} (hs : s.Canonical) :
    State.Canonical (State.setSq s r q) := by
  unfold State.setSq
  repeat' with_reducible first | assumption | apply keep_onUqi

theorem keep_setCq {s : State} {r : Nat} {q : CqRing} (hs : s.Canonical) :
    State.Canonical (State.setCq s r q) := by
  unfold State.setCq
  repeat' with_reducible first | assumption | apply keep_onUqi

theorem keep_setCmd {s : State} {i : Nat} {c : Option Cmd} (hs : s.Canonical) :
    State.Canonical (State.setCmd s i c) := by
  unfold State.setCmd
  repeat' with_reducible first | assumption | apply keep_onUqi

theorem keep_dbRequest {s : State} {p : Nat} (hs : s.Canonical) :
    State.Canonical (State.dbRequest s p) := by
  unfold State.dbRequest
  repeat' first
    | with_reducible assumption | (intro x; subst x) | lift_lets
    | with_reducible (first | apply keep_onUqi | apply keep_hostRefused | apply keep_sendReads | apply keep_ite)

theorem keep_dbError {s : State} (hs : s.Canonical) :
    State.Canonical (State.dbError s) := by
  unfold State.dbError
  repeat' with_reducible first | assumption | apply keep_inc | apply keep_raiseBit

theorem keep_dbTail {s : State} {r v : Nat} (hs : s.Canonical) :
    State.Canonical (State.dbTail s r v) := by
  unfold State.dbTail
  repeat' first
    | with_reducible assumption | (intro x; subst x) | lift_lets
    | with_reducible (first | apply keep_dbError | apply keep_setSq | apply keep_ite)

theorem keep_dbHead {s : State} {r v : Nat} (hs : s.Canonical) :
    State.Canonical (State.dbHead s r v) := by
  unfold State.dbHead
  repeat' first
    | with_reducible assumption | (intro x; subst x) | lift_lets
    | with_reducible (first | apply keep_dbError | apply keep_setCq | apply keep_ite)

theorem keep_dbPage {s : State} {p h : Nat} {data : List Byte} (hs : s.Canonical) :
    State.Canonical (State.dbPage s p h data) := by
  unfold State.dbPage
  repeat' first
    | with_reducible assumption | (intro x; refine keep_cut x (fun hx => ?_) ?_; clear_value x; rotate_left; subst x; rotate_left)
    | (intro x; subst x) | intro _ | lift_lets
    | with_reducible (first | apply keep_each | apply keep_setSq | apply keep_dbTail | apply keep_dbHead | apply keep_ite)

theorem keep_uqiFetch {a0 : Nat} {a1 : State} (h : a1.Canonical) :
    State.Canonical (State.uqiFetch a0 a1) := by
  induction a0 generalizing a1 with
  | zero =>
    unfold State.uqiFetch
    repeat' with_reducible first | assumption
  | succ n ih =>
    unfold State.uqiFetch
    repeat' first
      | with_reducible (first | assumption | apply ih | apply keep_onUqi | apply keep_hostRefused | apply keep_setSq)
      | with_reducible (first | apply keep_sendReads | apply keep_ite) | lift_lets | simp only [↓canonical_mk] | split

theorem keep_cplSend {s : State} {c : Cpl} {slot : Nat} {phase : Bool} (hs : s.Canonical) :
    State.Canonical (State.cplSend s c slot phase) := by
  unfold State.cplSend
  repeat' first | with_reducible assumption | (intro x; subst x) | lift_lets | with_reducible apply keep_send

theorem keep_cplIssue {s : State} {c : Cpl} (hs : s.Canonical) :
    State.Canonical (State.cplIssue s c).2.2 := by
  unfold State.cplIssue
  repeat' first
    | with_reducible assumption | (intro x; refine keep_cut x (fun hx => ?_) ?_; clear_value x; rotate_left; subst x; rotate_left)
    | (intro x; subst x) | lift_lets | with_reducible (first | apply keep_hostRefused | apply keep_cplSend | apply keep_setCq) | split

theorem keep_cplLoop {a0 : List Cpl} {a1 : List Nat} {a2 : List Cpl} {a3 : State} (h : a3.Canonical) :
    State.Canonical (State.cplLoop a0 a1 a2 a3) := by
  induction a0 generalizing a1 a2 a3 with
  | nil =>
    unfold State.cplLoop
    repeat' with_reducible first | assumption | apply keep_onUqi
  | cons x l ih =>
    unfold State.cplLoop
    repeat' first
      | with_reducible assumption | (intro x; refine keep_cut x (fun hx => ?_) ?_; clear_value x; rotate_left; subst x; rotate_left)
      | (intro x; subst x) | lift_lets | with_reducible (first | apply ih | apply keep_cplIssue | apply keep_ite)

theorem keep_cplRun {s : State} (hs : s.Canonical) :
    State.Canonical (State.cplRun s) := by
  unfold State.cplRun
  repeat' with_reducible first | assumption | apply keep_cplLoop

theorem keep_resetDone {s : State} {r : Nat} (hs : s.Canonical) :
    State.Canonical (State.resetDone s r) := by
  unfold State.resetDone
  repeat' first
    | with_reducible assumption | (intro x; subst x) | lift_lets
    | with_reducible (first | apply keep_setSq | apply keep_clr | apply keep_ite)

theorem keep_freeCmd {s : State} {i : Nat} (hs : s.Canonical) :
    State.Canonical (State.freeCmd s i) := by
  unfold State.freeCmd
  repeat' first | with_reducible (first | assumption | apply keep_setCmd | apply keep_onUqi | apply keep_resetDone) | lift_lets | split

theorem keep_aimsEnd {s : State} {i status : Nat} (hs : s.Canonical) :
    State.Canonical (State.aimsEnd s i status) := by
  unfold State.aimsEnd
  repeat' first
    | with_reducible assumption | (intro x; refine keep_cut x (fun hx => ?_) ?_; clear_value x; rotate_left; subst x; rotate_left)
    | (intro x; subst x) | intro _ | lift_lets | with_reducible (first | apply keep_each | apply keep_setCmd | apply keep_ite) | split

theorem keep_commitCpl {s : State} {i : Nat} {k : Cmd} {status ed spec : Nat} (hs : s.Canonical) :
    State.Canonical (State.commitCpl s i k status ed spec) := by
  unfold State.commitCpl
  repeat' first
    | with_reducible assumption | (intro x; refine keep_cut x (fun hx => ?_) ?_; clear_value x; rotate_left; subst x; rotate_left)
    | (intro x; subst x) | intro _ | lift_lets
    | with_reducible (first | apply keep_aimsEnd | apply keep_inc | apply keep_freeCmd | apply keep_setCmd | apply keep_onUqi)
    | with_reducible (first | apply keep_ite | apply And.intro | apply keep_regs | apply keep_sram | apply keep_store)
    | with_reducible (first | apply keep_buf | apply keep_nil) | simp only [↓canonical_mk] | split

theorem keep_cqMessage {s : State} {r : Nat} (hs : s.Canonical) :
    State.Canonical (State.cqMessage s r) := by
  unfold State.cqMessage
  repeat' first | with_reducible assumption | (intro x; subst x) | lift_lets | with_reducible (first | apply keep_setCq | apply keep_msix)

theorem keep_cplWritten {s : State} {i : Nat} (hs : s.Canonical) :
    State.Canonical (State.cplWritten s i) := by
  unfold State.cplWritten
  repeat' first
    | with_reducible assumption | (intro x; refine keep_cut x (fun hx => ?_) ?_; clear_value x; rotate_left; subst x; rotate_left)
    | (intro x; subst x) | lift_lets
    | with_reducible (first | apply keep_freeCmd | apply keep_setCq | apply keep_cqMessage | apply keep_ite) | split

theorem keep_windowCheck {p rreq : Nat} {a0 : Nat} {a1 : Nat} {a2 : Nat} {a3 : List RmeErr} {a4 : List (Nat × Nat)} {a5 : State} (h : a5.Canonical) :
    State.Canonical (State.windowCheck p rreq a0 a1 a2 a3 a4 a5).2 := by
  induction a0 generalizing a1 a2 a3 a4 a5 with
  | zero =>
    unfold State.windowCheck
    repeat' with_reducible first | assumption
  | succ n ih =>
    unfold State.windowCheck
    repeat' first
      | with_reducible assumption | (intro x; refine keep_cut x (fun hx => ?_) ?_; clear_value x; rotate_left; subst x; rotate_left)
      | (intro x; subst x) | lift_lets | with_reducible (first | apply ih | apply keep_windowLookup) | split

theorem keep_dispatch {s : State} {i : Nat} {k : Cmd} {exts : List (Nat × Nat)} (hs : s.Canonical) :
    State.Canonical (State.dispatch s i k exts) := by
  unfold State.dispatch
  repeat' first | with_reducible assumption | (intro x; subst x) | lift_lets | with_reducible (first | apply keep_setCmd | apply keep_onUqi)

theorem keep_fetchCheck {s : State} {i : Nat} {k : Cmd} {errs : List RmeErr} (hs : s.Canonical) :
    State.Canonical (State.fetchCheck s i k errs) := by
  unfold State.fetchCheck
  repeat' first
    | with_reducible assumption | (intro x; refine keep_cut x (fun hx => ?_) ?_; clear_value x; rotate_left; subst x; rotate_left)
    | (intro x; subst x) | lift_lets
    | with_reducible (first | apply keep_commitCpl | apply keep_dispatch | apply keep_windowCheck | apply keep_inc)
    | with_reducible (first | apply keep_rmeRefuse | apply keep_ite) | split

theorem keep_checkLoop {a0 : List Nat} {a1 : List Master} {a2 : List Nat} {a3 : List RmeErr} {a4 : State} (h : a4.Canonical) :
    State.Canonical (State.checkLoop a0 a1 a2 a3 a4) := by
  induction a0 generalizing a1 a2 a3 a4 with
  | nil =>
    unfold State.checkLoop
    repeat' with_reducible first | assumption | apply keep_onUqi
  | cons x l ih =>
    unfold State.checkLoop
    repeat' first
      | with_reducible (first | assumption | apply ih | apply keep_fetchCheck | apply keep_ite) | lift_lets | simp only [↓canonical_mk]
      | split

theorem keep_runChecks {s : State} {errs : List RmeErr} (hs : s.Canonical) :
    State.Canonical (State.runChecks s errs) := by
  unfold State.runChecks
  repeat' with_reducible first | assumption | apply keep_checkLoop

theorem keep_takeEntry {s : State} {r : Nat} {e : List Byte} (hs : s.Canonical) :
    State.Canonical (State.takeEntry s r e) := by
  unfold State.takeEntry
  repeat' first
    | with_reducible assumption | (intro x; subst x) | lift_lets | with_reducible (first | apply keep_setCmd | apply keep_onUqi) | split

theorem keep_takeEntries {r : Nat} {a0 : List (List Byte)} {a1 : State} (h : a1.Canonical) :
    State.Canonical (State.takeEntries r a0 a1) := by
  induction a0 generalizing a1 with
  | nil =>
    unfold State.takeEntries
    repeat' with_reducible first | assumption
  | cons x l ih =>
    unfold State.takeEntries
    repeat' with_reducible first | assumption | apply ih | apply keep_takeEntry

theorem keep_listFault {s : State} {k : Cmd} {kind depth idx addr : Nat} (hs : s.Canonical) :
    State.Canonical (State.listFault s k kind depth idx addr) := by
  unfold State.listFault
  repeat' first
    | with_reducible assumption | (intro x; refine keep_cut x (fun hx => ?_) ?_; clear_value x; rotate_left; subst x; rotate_left)
    | lift_lets
    | with_reducible (first | apply keep_inc | apply keep_raiseBit | apply keep_hostRefused | apply keep_event | apply keep_ite)

theorem keep_jobResult {s : State} {j : XJob} {cause detail done : Nat} (hs : s.Canonical) :
    State.Canonical (State.jobResult s j cause detail done) := by
  unfold State.jobResult
  repeat' with_reducible first | assumption | apply keep_onUqi

theorem keep_jobStart {s : State} {k : Cmd} {j : XJob} {c : Nat} (hs : s.Canonical) :
    State.Canonical (State.jobStart s k j c) := by
  unfold State.jobStart
  repeat' first
    | with_reducible assumption | (intro x; refine keep_cut x (fun hx => ?_) ?_; clear_value x; rotate_left; subst x; rotate_left)
    | (intro x; subst x) | lift_lets | with_reducible (first | apply keep_put | apply keep_onChan | apply keep_chGo)

theorem keep_jobStep {s : State} {j : XJob} (hs : s.Canonical) : State.Canonical (State.jobStep s j).2 := by
  unfold State.jobStep
  split
  · exact hs
  · rename_i k _
    dsimp only
    generalize (if j.fault.isSome = true then (j.ranges, WalkEnd.covered) else walk s k (j.xoff + j.done) (j.xlen - j.done)) = ans
    rcases ans with ⟨l, e⟩
    cases e
    all_goals repeat' first
      | with_reducible assumption
      | (intro x; refine keep_cut x (fun hx => ?_) ?_; clear_value x; rotate_left; subst x; rotate_left)
      | (intro x; subst x)
      | lift_lets
      | with_reducible apply keep_listFault
      | with_reducible apply keep_jobResult
      | with_reducible apply keep_send
      | with_reducible apply keep_jobStart
      | with_reducible apply keep_ite
      | dsimp -zeta only
      | split

theorem keep_jobLoop {a0 : List XJob} {a1 : List XJob} {a2 : State} (h : a2.Canonical) :
    State.Canonical (State.jobLoop a0 a1 a2) := by
  induction a0 generalizing a1 a2 with
  | nil =>
    unfold State.jobLoop
    repeat' with_reducible first | assumption | apply keep_onUqi
  | cons x l ih =>
    unfold State.jobLoop
    repeat' first
      | with_reducible assumption | (intro x; refine keep_cut x (fun hx => ?_) ?_; clear_value x; rotate_left; subst x; rotate_left)
      | (intro x; subst x) | lift_lets | with_reducible (first | apply ih | apply keep_jobStep)

theorem keep_uqiRun {s : State} (hs : s.Canonical) :
    State.Canonical (State.uqiRun s) := by
  unfold State.uqiRun
  repeat' first
    | with_reducible assumption | (intro x; refine keep_cut x (fun hx => ?_) ?_; clear_value x; rotate_left; subst x; rotate_left)
    | lift_lets | with_reducible (first | apply keep_jobLoop | apply keep_uqiFetch | apply keep_cplRun)

theorem keep_sqErr {s : State} {r e : Nat} (hs : s.Canonical) :
    State.Canonical (sqErr s r e) := by
  unfold sqErr
  repeat' first | with_reducible assumption | (intro x; subst x) | lift_lets | with_reducible apply keep_setSq

theorem keep_cqErr {s : State} {r e : Nat} (hs : s.Canonical) :
    State.Canonical (cqErr s r e) := by
  unfold cqErr
  repeat' first | with_reducible assumption | (intro x; subst x) | lift_lets | with_reducible apply keep_setCq

theorem keep_sqEnable {s : State} {r : Nat} (hs : s.Canonical) :
    State.Canonical (State.sqEnable s r) := by
  unfold State.sqEnable
  repeat' first | with_reducible (first | assumption | apply keep_setSq | apply keep_raiseBit | apply keep_sqErr) | lift_lets | split

theorem keep_cqEnable {s : State} {r : Nat} (hs : s.Canonical) :
    State.Canonical (State.cqEnable s r) := by
  unfold State.cqEnable
  repeat' first | with_reducible (first | assumption | apply keep_setCq | apply keep_raiseBit | apply keep_cqErr) | lift_lets | split

theorem keep_sqDisable {s : State} {r : Nat} (hs : s.Canonical) :
    State.Canonical (State.sqDisable s r) := by
  unfold State.sqDisable
  repeat' first
    | with_reducible assumption | (intro x; subst x) | lift_lets
    | with_reducible (first | apply keep_setSq | apply keep_clr | apply keep_ite)

theorem keep_sqDrained {s : State} {r : Nat} (hs : s.Canonical) :
    State.Canonical (State.sqDrained s r) := by
  unfold State.sqDrained
  repeat' first | with_reducible assumption | (intro x; subst x) | lift_lets | with_reducible (first | apply keep_setSq | apply keep_ite)

theorem keep_cqDisable {s : State} {r : Nat} (hs : s.Canonical) :
    State.Canonical (State.cqDisable s r) := by
  unfold State.cqDisable
  repeat' first
    | with_reducible assumption | (intro x; subst x) | lift_lets
    | with_reducible (first | apply keep_cqErr | apply keep_setCq | apply keep_clr | apply keep_ite)

theorem keep_resend {s : State} {pick : Cpl → Bool} (hs : s.Canonical) :
    State.Canonical (State.resend s pick).2 := by
  unfold State.resend
  repeat' first
    | with_reducible assumption | (intro x; subst x) | intro _ | lift_lets | with_reducible (first | apply keep_each | apply keep_cplSend)
    | split

theorem keep_refetch {s : State} {p : Nat} (hs : s.Canonical) :
    State.Canonical (State.refetch s p) := by
  unfold State.refetch
  repeat' with_reducible first | assumption | apply keep_onUqi | apply keep_dbRequest | apply keep_ite

theorem keep_sqResume {s : State} {r : Nat} (hs : s.Canonical) :
    State.Canonical (State.sqResume s r) := by
  unfold State.sqResume
  repeat' first
    | with_reducible assumption | (intro x; refine keep_cut x (fun hx => ?_) ?_; clear_value x; rotate_left; subst x; rotate_left)
    | (intro x; subst x) | lift_lets
    | with_reducible (first | apply keep_setSq | apply keep_setCq | apply keep_resend | apply keep_refetch | apply keep_uqiRun)
    | with_reducible apply keep_ite

theorem keep_cqResume {s : State} {r : Nat} (hs : s.Canonical) :
    State.Canonical (State.cqResume s r) := by
  unfold State.cqResume
  repeat' first
    | with_reducible assumption | (intro x; subst x) | lift_lets
    | with_reducible (first | apply keep_setCq | apply keep_uqiRun | apply keep_ite)

theorem keep_sqReset {s : State} {r : Nat} (hs : s.Canonical) :
    State.Canonical (State.sqReset s r) := by
  unfold State.sqReset
  repeat' first
    | with_reducible assumption | (intro x; refine keep_cut x (fun hx => ?_) ?_; clear_value x; rotate_left; subst x; rotate_left)
    | (intro x; subst x) | intro _ | lift_lets
    | with_reducible (first | apply keep_setSq | apply keep_each | apply keep_freeCmd | apply keep_setCmd | apply keep_resetDone)
    | with_reducible apply keep_ite

theorem keep_sqSetup {s : State} {r w : Nat} {v : Word} (hs : s.Canonical) :
    State.Canonical (State.sqSetup s r w v) := by
  unfold State.sqSetup
  repeat' first
    | with_reducible assumption | (intro x; subst x) | lift_lets
    | with_reducible (first | apply keep_sqErr | apply keep_wr | apply keep_ite)

theorem keep_cqSetup {s : State} {r w : Nat} {v : Word} (hs : s.Canonical) :
    State.Canonical (State.cqSetup s r w v) := by
  unfold State.cqSetup
  repeat' first
    | with_reducible assumption | (intro x; subst x) | lift_lets
    | with_reducible (first | apply keep_cqErr | apply keep_wr | apply keep_put | apply keep_ite)

theorem keep_sqControl {s : State} {r : Nat} {v : Word} (hs : s.Canonical) :
    State.Canonical (State.sqControl s r v) := by
  unfold State.sqControl
  repeat' first
    | with_reducible (first | assumption | apply keep_sqReset | apply keep_sqResume | apply keep_sqEnable | apply keep_sqDisable)
    | with_reducible apply keep_ite

theorem keep_cqControl {s : State} {r : Nat} {v : Word} (hs : s.Canonical) :
    State.Canonical (State.cqControl s r v) := by
  unfold State.cqControl
  repeat' first
    | with_reducible assumption | (intro x; refine keep_cut x (fun hx => ?_) ?_; clear_value x; rotate_left; subst x; rotate_left)
    | (intro x; subst x) | lift_lets
    | with_reducible (first | apply keep_cqResume | apply keep_cqErr | apply keep_put | apply keep_cqEnable | apply keep_cqDisable)
    | with_reducible apply keep_ite

theorem keep_moveRings {s : State} {p q : Nat} (hs : s.Canonical) :
    State.Canonical (State.moveRings s p q) := by
  unfold State.moveRings
  repeat' first
    | with_reducible assumption | (intro x; refine keep_cut x (fun hx => ?_) ?_; clear_value x; rotate_left; subst x; rotate_left)
    | intro _ | lift_lets
    | with_reducible (first | apply keep_onUqi | apply keep_dbRequest | apply keep_each | apply keep_cqMessage | apply keep_ite)

theorem keep_moveRecord {s : State} {frm to_ cause parties again restarted : Nat} (hs : s.Canonical) :
    State.Canonical (State.moveRecord s frm to_ cause parties again restarted) := by
  unfold State.moveRecord
  repeat' with_reducible first | assumption | apply keep_raiseBit | apply keep_event

theorem keep_dbpPort {s : State} {p q : Nat} (hs : s.Canonical) :
    State.Canonical (State.dbpPort s p q) := by
  unfold State.dbpPort
  repeat' first
    | with_reducible assumption | (intro x; refine keep_cut x (fun hx => ?_) ?_; clear_value x; rotate_left; subst x; rotate_left)
    | (intro x; subst x) | lift_lets
    | with_reducible (first | apply keep_put | apply keep_moveRings | apply keep_moveRecord | apply keep_uqiRun | apply keep_onUqi)
    | with_reducible apply keep_ite

theorem keep_dbpWrite {s : State} {p : Nat} {v : Word} (hs : s.Canonical) :
    State.Canonical (State.dbpWrite s p v) := by
  unfold State.dbpWrite
  repeat' first
    | with_reducible assumption | (intro x; refine keep_cut x (fun hx => ?_) ?_; clear_value x; rotate_left; subst x; rotate_left)
    | lift_lets | with_reducible (first | apply keep_put | apply keep_dbpPort | apply keep_ite)

theorem keep_haltRings {s : State} {p : Nat} (hs : s.Canonical) :
    State.Canonical (State.haltRings s p) := by
  unfold State.haltRings
  repeat' first
    | with_reducible assumption | (intro x; refine keep_cut x (fun hx => ?_) ?_; clear_value x; rotate_left; subst x; rotate_left)
    | (intro x; subst x) | intro _ | lift_lets
    | with_reducible (first | apply keep_each | apply keep_setSq | apply keep_setCq | apply keep_ite)

theorem keep_portLost {s : State} {q cause : Nat} (hs : s.Canonical) :
    State.Canonical (State.portLost s q cause) := by
  unfold State.portLost
  repeat' first
    | with_reducible assumption | (intro x; refine keep_cut x (fun hx => ?_) ?_; clear_value x; rotate_left; subst x; rotate_left)
    | (intro x; subst x) | intro _ | lift_lets
    | with_reducible (first | apply keep_onPort | apply keep_inc | apply keep_raiseBit | apply keep_each | apply keep_chStop)
    | with_reducible (first | apply keep_onUqi | apply keep_setSq | apply keep_haltRings | apply keep_event | apply keep_uqiRun)
    | with_reducible (first | apply keep_resend | apply keep_moveRings | apply keep_moveRecord | apply keep_ite)

theorem keep_portSettle {s : State} {q cause : Nat} (hs : s.Canonical) :
    State.Canonical (State.portSettle s q cause) := by
  unfold State.portSettle
  repeat' first
    | with_reducible (first | assumption | apply keep_onPort | apply keep_msixPending | apply keep_uqiRun | apply keep_portLost)
    | with_reducible apply keep_ite

theorem keep_hmwReset {s : State} {q : Nat} (hs : s.Canonical) :
    State.Canonical (State.hmwReset s q) := by
  unfold State.hmwReset
  repeat' first
    | with_reducible assumption | (intro x; refine keep_cut x (fun hx => ?_) ?_; clear_value x; rotate_left; subst x; rotate_left)
    | lift_lets | with_reducible (first | apply keep_onUqi | apply keep_clr | apply keep_ite)

end Sys2Proof.Machine
end

