-- ==== Sys2Proof/Laws/Keep/OrdOps.lean ====
section
/-! SUPPORT. That the definitions of Machine/OrdOps.lean keep the canonical form (see Laws/Keep.lean). -/

namespace Sys2Proof.Machine

open Sys2Proof

set_option linter.unusedSimpArgs false

theorem keep_onOrd {s : State} {f : OrdState → OrdState} (hs : s.Canonical) :
    State.Canonical (State.onOrd s f) := by
  unfold State.onOrd
  repeat' first
    | with_reducible (first | assumption | apply And.intro | apply keep_regs | apply keep_sram | apply keep_store | apply keep_buf)
    | simp only [↓canonical_mk]

theorem keep_setReq {s : State} {r : OrdReq} (hs : s.Canonical) :
    State.Canonical (State.setReq s r) := by
  unfold State.setReq
  repeat' with_reducible first | assumption | apply keep_onOrd

theorem keep_ordLookups {mlba : Nat} {a0 : List Nat} {a1 : Option (Nat × Nat × Nat)} {a2 : List RmeErr} {a3 : State} (h : a3.Canonical) :
    State.Canonical (State.ordLookups mlba a0 a1 a2 a3).2 := by
  induction a0 generalizing a1 a2 a3 with
  | nil =>
    unfold State.ordLookups
    repeat' with_reducible first | assumption
  | cons x l ih =>
    unfold State.ordLookups
    repeat' first
      | with_reducible assumption | (intro x; refine keep_cut x (fun hx => ?_) ?_; clear_value x; rotate_left; subst x; rotate_left)
      | (intro x; subst x) | lift_lets | with_reducible (first | apply ih | apply keep_defectLookup) | split

theorem keep_ordPlace {s : State} {r : OrdReq} (hs : s.Canonical) :
    State.Canonical (State.ordPlace s r) := by
  unfold State.ordPlace
  repeat' first
    | with_reducible assumption | (intro x; refine keep_cut x (fun hx => ?_) ?_; clear_value x; rotate_left; subst x; rotate_left)
    | (intro x; subst x) | lift_lets | with_reducible (first | apply keep_ordLookups | apply keep_setReq | apply keep_ite) | split

theorem keep_ordPending {s : State} {p : Nat} (hs : s.Canonical) :
    State.Canonical (State.ordPending s p) := by
  unfold State.ordPending
  repeat' first
    | with_reducible assumption | (intro x; subst x) | lift_lets | with_reducible (first | apply keep_onOrd | apply keep_ite) | split

theorem keep_ordStat {s : State} (hs : s.Canonical) :
    State.Canonical (State.ordStat s) := by
  unfold State.ordStat
  repeat' with_reducible first | assumption | apply keep_put

theorem keep_ordResult {s : State} {m : Master} {r : OrdRes} (hs : s.Canonical) :
    State.Canonical (State.ordResult s m r) := by
  unfold State.ordResult
  repeat' with_reducible first | assumption | apply keep_onOrd | apply keep_raiseBit

theorem keep_ordReturn {s : State} {r : OrdReq} {res : Nat} (hs : s.Canonical) :
    State.Canonical (State.ordReturn s r res) := by
  unfold State.ordReturn
  repeat' first
    | with_reducible assumption | (intro x; refine keep_cut x (fun hx => ?_) ?_; clear_value x; rotate_left; subst x; rotate_left)
    | (intro x; subst x) | intro _ | lift_lets
    | with_reducible (first | apply keep_onOrd | apply keep_ordResult | apply keep_wbDone | apply keep_each | apply keep_raiseBit)
    | with_reducible apply keep_ite | split

theorem keep_ordReturns {s : State} (hs : s.Canonical) :
    State.Canonical (State.ordReturns s) := by
  unfold State.ordReturns
  repeat' first
    | with_reducible assumption | intro _ | lift_lets | with_reducible (first | apply keep_each | apply keep_ordReturn | apply keep_ite)

theorem keep_ordEnd {s : State} {t : Nat} (hs : s.Canonical) :
    State.Canonical (State.ordEnd s t) := by
  unfold State.ordEnd
  repeat' first
    | with_reducible assumption | (intro x; subst x) | lift_lets
    | with_reducible (first | apply keep_onOrd | apply keep_chHalt | apply keep_setEntry | apply keep_setReq | apply keep_ite)
    | simp only [↓canonical_mk] | split

theorem keep_ordEnds {s : State} (hs : s.Canonical) :
    State.Canonical (State.ordEnds s) := by
  unfold State.ordEnds
  repeat' first
    | with_reducible assumption | intro _ | lift_lets | with_reducible (first | apply keep_each | apply keep_ordEnd | apply keep_onChn)

theorem keep_ordArmOp {s : State} {r : OrdReq} {o : OrdOp} {t c : Nat} (hs : s.Canonical) :
    State.Canonical (State.ordArmOp s r o t c) := by
  unfold State.ordArmOp
  repeat' first
    | with_reducible assumption | (intro x; refine keep_cut x (fun hx => ?_) ?_; clear_value x; rotate_left; subst x; rotate_left)
    | (intro x; subst x) | lift_lets
    | with_reducible (first | apply keep_wr | apply keep_mopCommit | apply keep_dmaWrite | apply keep_setEntry | apply keep_setReq)

theorem keep_ordArmAt {s : State} {id off : Nat} (hs : s.Canonical) :
    State.Canonical (State.ordArmAt s id off) := by
  unfold State.ordArmAt
  repeat' first
    | with_reducible (first | assumption | apply keep_ordArmOp | apply keep_ite | apply And.intro | apply keep_regs)
    | with_reducible (first | apply keep_sram | apply keep_store | apply keep_buf) | lift_lets | simp only [↓canonical_mk]
    | dsimp -zeta only [State.draw] | split

theorem keep_ordArm {s : State} (hs : s.Canonical) :
    State.Canonical (State.ordArm s) := by
  unfold State.ordArm
  repeat' first
    | with_reducible assumption | intro _ | lift_lets | with_reducible (first | apply keep_each | apply keep_ordArmAt | apply keep_ite)
    | split

theorem keep_ordStart {s : State} {c : Nat} (hs : s.Canonical) :
    State.Canonical (State.ordStart s c) := by
  unfold State.ordStart
  repeat' first
    | with_reducible assumption | (intro x; subst x) | lift_lets
    | with_reducible (first | apply keep_onOrd | apply keep_chStart | apply keep_ite) | simp only [↓canonical_mk] | split

theorem keep_ordSettle {s : State} (hs : s.Canonical) :
    State.Canonical (State.ordSettle s) := by
  unfold State.ordSettle
  repeat' first
    | with_reducible assumption | (intro x; refine keep_cut x (fun hx => ?_) ?_; clear_value x; rotate_left; subst x; rotate_left)
    | intro _ | lift_lets | with_reducible (first | apply keep_each | apply keep_ordPlace | apply keep_ordEnds | apply keep_ordReturns)
    | with_reducible (first | apply keep_ordArm | apply keep_ordStart | apply keep_ordPending | apply keep_ordStat)

theorem keep_chSettle {s : State} (hs : s.Canonical) :
    State.Canonical (State.chSettle s) := by
  unfold State.chSettle
  repeat' with_reducible first | assumption | apply keep_judgeAll | apply keep_ordSettle | apply keep_uqiRun

theorem keep_ordCancel {s : State} (hs : s.Canonical) :
    State.Canonical (State.ordCancel s) := by
  unfold State.ordCancel
  repeat' first
    | with_reducible assumption | (intro x; refine keep_cut x (fun hx => ?_) ?_; clear_value x; rotate_left; subst x; rotate_left)
    | (intro x; subst x) | intro _ | lift_lets
    | with_reducible (first | apply keep_each | apply keep_setEntry | apply keep_ordEnds | apply keep_ordReturn | apply keep_put)
    | with_reducible (first | apply keep_ordPending | apply keep_ordStat | apply keep_clr | apply keep_ite)

end Sys2Proof.Machine
end

