-- ==== Sys2Proof/Laws/Keep/SrvOps.lean ====
section
/-! SUPPORT. That the definitions of Machine/SrvOps.lean keep the canonical form (see Laws/Keep.lean). -/

namespace Sys2Proof.Machine

open Sys2Proof

set_option linter.unusedSimpArgs false

theorem keep_onSrv {s : State} {f : SrvState → SrvState} (hs : s.Canonical) :
    State.Canonical (State.onSrv s f) := by
  unfold State.onSrv
  repeat' first
    | with_reducible (first | assumption | apply And.intro | apply keep_regs | apply keep_sram | apply keep_store | apply keep_buf)
    | simp only [↓canonical_mk]

theorem keep_wusRise {s : State} {cause : Nat} (hs : s.Canonical) :
    State.Canonical (State.wusRise s cause) := by
  unfold State.wusRise
  repeat' with_reducible first | assumption | apply keep_raiseBit | apply keep_chnCloseGate | apply keep_ite

theorem keep_traceFall {s : State} (hs : s.Canonical) :
    State.Canonical (State.traceFall s) := by
  unfold State.traceFall
  repeat' first
    | with_reducible assumption | (intro x; refine keep_cut x (fun hx => ?_) ?_; clear_value x; rotate_left; subst x; rotate_left)
    | lift_lets | with_reducible (first | apply keep_onSrv | apply keep_inc | apply keep_ite)

theorem keep_svwin {s : State} (hs : s.Canonical) :
    State.Canonical (State.svwin s) := by
  unfold State.svwin
  repeat' first
    | with_reducible assumption | (intro x; refine keep_cut x (fun hx => ?_) ?_; clear_value x; rotate_left; subst x; rotate_left)
    | (intro x; subst x) | lift_lets | with_reducible (first | apply keep_putB | apply keep_ite) | split

theorem keep_raisePos {s : State} (hs : s.Canonical) :
    State.Canonical (State.raisePos s) := by
  unfold State.raisePos
  repeat' first
    | with_reducible assumption | (intro x; refine keep_cut x (fun hx => ?_) ?_; clear_value x; rotate_left; subst x; rotate_left)
    | lift_lets | with_reducible (first | apply keep_raiseBit | apply keep_inc | apply keep_onSrv | apply keep_svwin | apply keep_ite)

theorem keep_missRecord {s : State} {r : MissRun} {st : Nat} (hs : s.Canonical) :
    State.Canonical (State.missRecord s r st) := by
  unfold State.missRecord
  repeat' with_reducible first | assumption | apply keep_event

theorem keep_missRun {s : State} {cause : Nat} {w : SrvWin} (hs : s.Canonical) :
    State.Canonical (State.missRun s cause w) := by
  unfold State.missRun
  repeat' first
    | with_reducible assumption | (intro x; subst x) | lift_lets
    | with_reducible (first | apply keep_onSrv | apply keep_raiseBit | apply keep_missRecord | apply keep_ite)

theorem keep_resultStat {s : State} {valid : Bool} {w : SrvWin} (hs : s.Canonical) :
    State.Canonical (State.resultStat s valid w) := by
  unfold State.resultStat
  repeat' with_reducible first | assumption | apply keep_put | apply keep_putB

theorem keep_srvMiss {s : State} {cause : Nat} {w : SrvWin} (hs : s.Canonical) :
    State.Canonical (State.srvMiss s cause w) := by
  unfold State.srvMiss
  repeat' first
    | with_reducible assumption | (intro x; refine keep_cut x (fun hx => ?_) ?_; clear_value x; rotate_left; subst x; rotate_left)
    | lift_lets
    | with_reducible (first | apply keep_traceFall | apply keep_resultStat | apply keep_put | apply keep_inc | apply keep_raiseBit)
    | with_reducible (first | apply keep_onSrv | apply keep_clr | apply keep_missRun | apply keep_wusRise | apply keep_raisePos)
    | with_reducible apply keep_ite

theorem keep_missCur {s : State} {cause : Nat} (hs : s.Canonical) :
    State.Canonical (State.missCur s cause) := by
  unfold State.missCur
  repeat' with_reducible first | assumption | apply keep_onSrv | apply keep_srvMiss | apply keep_ite

theorem keep_showTid {s : State} (hs : s.Canonical) :
    State.Canonical (State.showTid s) := by
  unfold State.showTid
  repeat' first
    | with_reducible assumption | (intro x; refine keep_cut x (fun hx => ?_) ?_; clear_value x; rotate_left; subst x; rotate_left)
    | lift_lets | with_reducible (first | apply keep_put | apply keep_putB) | split

theorem keep_paFall {s : State} (hs : s.Canonical) :
    State.Canonical (State.paFall s) := by
  unfold State.paFall
  repeat' first
    | with_reducible assumption | (intro x; refine keep_cut x (fun hx => ?_) ?_; clear_value x; rotate_left; subst x; rotate_left)
    | (intro x; subst x) | intro _ | lift_lets
    | with_reducible (first | apply keep_raiseBit | apply keep_onSrv | apply keep_chnCloseGate | apply keep_wusRise | apply keep_ite)
    | with_reducible (first | apply And.intro | apply keep_regs | apply keep_sram | apply keep_store | apply keep_buf)
    | with_reducible (first | apply keep_nil) | simp only [↓canonical_mk] | split

theorem keep_paLevel {s : State} {low : Bool} (hs : s.Canonical) :
    State.Canonical (State.paLevel s low) := by
  unfold State.paLevel
  repeat' first
    | with_reducible assumption | (intro x; refine keep_cut x (fun hx => ?_) ?_; clear_value x; rotate_left; subst x; rotate_left)
    | (intro x; subst x) | intro _ | lift_lets
    | with_reducible (first | apply keep_paFall | apply keep_onSrv | apply keep_ite | apply And.intro | apply keep_regs)
    | with_reducible (first | apply keep_sram | apply keep_store | apply keep_buf | apply keep_nil) | simp only [↓canonical_mk] | split

theorem keep_groupDone {s : State} {g : Nat} {l : List (BitVec 64)} (hs : s.Canonical) :
    State.Canonical (State.groupDone s g l) := by
  unfold State.groupDone
  repeat' first
    | with_reducible assumption | (intro x; refine keep_cut x (fun hx => ?_) ?_; clear_value x; rotate_left; subst x; rotate_left)
    | (intro x; subst x) | intro _ | lift_lets
    | with_reducible (first | apply keep_onSrv | apply keep_put | apply keep_draw | apply keep_foldl | apply keep_ite)
    | with_reducible (first | apply And.intro | apply keep_regs | apply keep_sram | apply keep_store | apply keep_buf)
    | with_reducible (first | apply keep_nil) | simp only [↓canonical_mk] | dsimp -zeta only [State.draw] | split

theorem keep_capture {s : State} {f : Captures} (hs : s.Canonical) :
    State.Canonical (State.capture s f) := by
  unfold State.capture
  repeat' first
    | with_reducible assumption | (intro x; refine keep_cut x (fun hx => ?_) ?_; clear_value x; rotate_left; subst x; rotate_left)
    | (intro x; subst x) | intro _ | lift_lets
    | with_reducible (first | apply keep_each | apply keep_onSrv | apply keep_paLevel | apply keep_showTid | apply keep_groupDone)
    | with_reducible (first | apply keep_getD | apply keep_ite | apply And.intro | apply keep_regs | apply keep_sram)
    | with_reducible (first | apply keep_store | apply keep_buf | apply keep_nil) | simp only [↓canonical_mk] | split

theorem keep_srvValid {s : State} {w : SrvWin} {r : Conv} (hs : s.Canonical) :
    State.Canonical (State.srvValid s w r) := by
  unfold State.srvValid
  repeat' first
    | with_reducible assumption | (intro x; refine keep_cut x (fun hx => ?_) ?_; clear_value x; rotate_left; subst x; rotate_left)
    | (intro x; subst x) | lift_lets
    | with_reducible (first | apply keep_traceFall | apply keep_resultStat | apply keep_put | apply keep_missRecord)
    | with_reducible (first | apply keep_clr | apply keep_onSrv | apply keep_raiseBit | apply keep_wusRise | apply keep_raisePos)
    | with_reducible apply keep_ite

theorem keep_converted {s : State} (hs : s.Canonical) :
    State.Canonical (State.converted s) := by
  unfold State.converted
  repeat' first
    | with_reducible assumption | (intro x; refine keep_cut x (fun hx => ?_) ?_; clear_value x; rotate_left; subst x; rotate_left)
    | (intro x; subst x) | lift_lets
    | with_reducible (first | apply keep_onSrv | apply keep_missCur | apply keep_srvValid | apply keep_ite)

theorem keep_servoSlot {s : State} (hs : s.Canonical) :
    State.Canonical (State.servoSlot s) := by
  unfold State.servoSlot
  repeat' first
    | with_reducible assumption | (intro x; refine keep_cut x (fun hx => ?_) ?_; clear_value x; rotate_left; subst x; rotate_left)
    | (intro x; subst x) | intro _ | lift_lets
    | with_reducible (first | apply keep_emit | apply keep_onSrv | apply keep_draw | apply keep_ite | apply And.intro)
    | with_reducible (first | apply keep_regs | apply keep_sram | apply keep_store | apply keep_buf | apply keep_nil)
    | simp only [↓canonical_mk] | dsimp -zeta only [State.draw] | split

end Sys2Proof.Machine
end

