-- ==== Sys2Proof/Laws/Keep/WsqOps.lean ====
section
/-! SUPPORT. That the definitions of Machine/WsqOps.lean keep the canonical form (see Laws/Keep.lean). -/

namespace Sys2Proof.Machine

open Sys2Proof

set_option linter.unusedSimpArgs false

theorem keep_onWsq {s : State} {f : WsqState → WsqState} (hs : s.Canonical) :
    State.Canonical (State.onWsq s f) := by
  unfold State.onWsq
  repeat' first
    | with_reducible (first | assumption | apply And.intro | apply keep_regs | apply keep_sram | apply keep_store | apply keep_buf)
    | simp only [↓canonical_mk]

theorem keep_wsqResume {s : State} {arg wedge : Nat} {told : Bool} (hs : s.Canonical) :
    State.Canonical (State.wsqResume s arg wedge told) := by
  unfold State.wsqResume
  repeat' first
    | with_reducible assumption | (intro x; refine keep_cut x (fun hx => ?_) ?_; clear_value x; rotate_left; subst x; rotate_left)
    | (intro x; subst x) | intro _ | lift_lets
    | with_reducible (first | apply keep_put | apply keep_clr | apply keep_onWsq | apply keep_onSrv | apply keep_svwin)
    | with_reducible (first | apply keep_ite | apply And.intro | apply keep_regs | apply keep_sram | apply keep_store)
    | with_reducible (first | apply keep_buf | apply keep_nil) | simp only [↓canonical_mk] | split

theorem keep_wsqHalted {s : State} (hs : s.Canonical) :
    State.Canonical (State.wsqHalted s) := by
  unfold State.wsqHalted
  repeat' first
    | with_reducible assumption | (intro x; refine keep_cut x (fun hx => ?_) ?_; clear_value x; rotate_left; subst x; rotate_left)
    | (intro x; subst x) | intro _ | lift_lets
    | with_reducible (first | apply keep_raiseBit | apply keep_onWsq | apply keep_clr | apply keep_wsqResume | apply keep_ite)
    | with_reducible (first | apply And.intro | apply keep_regs | apply keep_sram | apply keep_store | apply keep_buf)
    | with_reducible (first | apply keep_nil) | simp only [↓canonical_mk] | split

theorem keep_wsqServoWin {s : State} {arg due : Nat} (hs : s.Canonical) :
    State.Canonical (State.wsqServoWin s arg due) := by
  unfold State.wsqServoWin
  repeat' first
    | with_reducible assumption | (intro x; refine keep_cut x (fun hx => ?_) ?_; clear_value x; rotate_left; subst x; rotate_left)
    | (intro x; subst x) | intro _ | lift_lets
    | with_reducible (first | apply keep_srvMiss | apply keep_wsqResume | apply keep_onWsq | apply keep_raiseBit | apply keep_svwin)
    | with_reducible (first | apply keep_inc | apply keep_ite | apply And.intro | apply keep_regs | apply keep_sram)
    | with_reducible (first | apply keep_store | apply keep_buf | apply keep_nil) | simp only [↓canonical_mk] | split

theorem keep_wsqStat {s : State} (hs : s.Canonical) :
    State.Canonical (State.wsqStat s) := by
  unfold State.wsqStat
  repeat' with_reducible first | assumption | apply keep_put

theorem keep_wsqForced {s : State} {wdog : Bool} (hs : s.Canonical) :
    State.Canonical (State.wsqForced s wdog) := by
  unfold State.wsqForced
  repeat' first
    | with_reducible assumption | (intro x; refine keep_cut x (fun hx => ?_) ?_; clear_value x; rotate_left; subst x; rotate_left)
    | lift_lets | with_reducible (first | apply keep_clr | apply keep_onSrv | apply keep_onWsq | apply keep_missCur | apply keep_raiseBit)
    | with_reducible (first | apply keep_inc | apply keep_wsqHalted | apply keep_wsqStat | apply keep_ite)

theorem keep_pawr {s u : State} {sel : Bool} {d : BitVec 16} (h : State.pawr s sel d = some u) (hs : s.Canonical) : u.Canonical := by
  unfold State.pawr at h
  split at h <;> split at h <;> cases h <;> exact hs

theorem keep_wsqPawr {s : State} {w : BitVec 128} (hs : s.Canonical) :
    State.Canonical (State.wsqPawr s w) := by
  unfold State.wsqPawr
  repeat' first
    | with_reducible assumption | (intro x; refine keep_cut x (fun hx => ?_) ?_; clear_value x; rotate_left; subst x; rotate_left)
    | (intro x; subst x) | intro _ | lift_lets
    | with_reducible (first | apply keep_onWsq | apply keep_raiseBit | apply keep_ite | apply And.intro | apply keep_regs)
    | with_reducible (first | apply keep_sram | apply keep_store | apply keep_buf | apply keep_nil)
    | (first | refine keep_pawr (by with_reducible assumption) ?_) | simp only [↓canonical_mk] | split

theorem keep_wsqActions {s : State} {w : BitVec 128} (hs : s.Canonical) :
    State.Canonical (State.wsqActions s w) := by
  unfold State.wsqActions
  repeat' first
    | with_reducible assumption | (intro x; refine keep_cut x (fun hx => ?_) ?_; clear_value x; rotate_left; subst x; rotate_left)
    | (intro x; subst x) | intro _ | lift_lets
    | with_reducible (first | apply keep_missCur | apply keep_chnCloseGate | apply keep_raiseBit | apply keep_clr)
    | with_reducible (first | apply keep_onSrv | apply keep_each | apply keep_put | apply keep_emit | apply keep_wsqPawr)
    | with_reducible (first | apply keep_onWsq | apply keep_ite) | split

theorem keep_wsqTime {s : State} {n : Nat} {f : Captures} (hs : s.Canonical) :
    State.Canonical (State.wsqTime s n f) := by
  unfold State.wsqTime
  repeat' first
    | with_reducible assumption | (intro x; refine keep_cut x (fun hx => ?_) ?_; clear_value x; rotate_left; subst x; rotate_left)
    | (intro x; subst x) | intro _ | lift_lets
    | with_reducible (first | apply keep_capture | apply keep_onWsq | apply keep_onSrv | apply keep_missCur | apply keep_ite)
    | with_reducible (first | apply And.intro | apply keep_regs | apply keep_sram | apply keep_store | apply keep_buf)
    | with_reducible (first | apply keep_nil) | simp only [↓canonical_mk] | split

theorem keep_wsqCycles {s : State} {n : Nat} (hs : s.Canonical) :
    State.Canonical (State.wsqCycles s n) := by
  unfold State.wsqCycles
  repeat' first
    | with_reducible assumption | (intro x; refine keep_cut x (fun hx => ?_) ?_; clear_value x; rotate_left; subst x; rotate_left)
    | (intro x; subst x) | intro _ | lift_lets
    | with_reducible (first | apply keep_onWsq | apply keep_ite | apply And.intro | apply keep_regs | apply keep_sram)
    | with_reducible (first | apply keep_store | apply keep_buf | apply keep_nil) | simp only [↓canonical_mk] | split

theorem keep_wsqGoto {s : State} {pc : Nat} (hs : s.Canonical) :
    State.Canonical (State.wsqGoto s pc) := by
  unfold State.wsqGoto
  repeat' with_reducible first | assumption | apply keep_put

theorem keep_wsqExec {s : State} {n : Nat} {f : Captures} {seq : Nat} {go : BitVec 128 → Nat → Bool → State → State} (hs :
      s.Canonical) (hgo : ∀ x0 x1 x2 u, State.Canonical u → (go x0 x1 x2 u).Canonical) :
    State.Canonical (State.wsqExec s n f seq go) := by
  unfold State.wsqExec
  repeat' first
    | with_reducible assumption | (intro x; refine keep_cut x (fun hx => ?_) ?_; clear_value x; rotate_left; subst x; rotate_left)
    | (intro x; subst x) | intro _ | lift_lets
    | with_reducible (first | apply hgo | apply keep_wsqTime | apply keep_wsqCycles | apply keep_wsqActions | apply keep_wsqStat)
    | with_reducible (first | apply keep_chSettle | apply keep_ite) | split

theorem keep_wsqFault {s : State} {n : Nat} {f : Captures} (hs : s.Canonical) :
    State.Canonical (State.wsqFault s n f) := by
  unfold State.wsqFault
  repeat' first
    | with_reducible assumption | (intro x; refine keep_cut x (fun hx => ?_) ?_; clear_value x; rotate_left; subst x; rotate_left)
    | (intro x; subst x) | lift_lets
    | with_reducible (first | apply keep_wsqTime | apply keep_wsqCycles | apply keep_wsqActions | apply keep_wsqForced | apply keep_chSettle)
    | with_reducible (first | apply keep_ite) | split

end Sys2Proof.Machine
end

