-- ==== Sys2Proof/Laws/Keep/AscFire.lean ====
section
/-! SUPPORT. That the definitions of Machine/AscFire.lean keep the canonical form (see Laws/Keep.lean). -/

namespace Sys2Proof.Machine

open Sys2Proof

set_option linter.unusedSimpArgs false

theorem keep_ascPass {s : State} {i : Nat} {e : AscEntry} {st : EntState} (hs : s.Canonical) :
    State.Canonical (State.ascPass s i e st) := by
  unfold State.ascPass
  repeat' with_reducible first | assumption | apply keep_setEntry

theorem keep_ascSuppress {s : State} {i : Nat} {e : AscEntry} (hs : s.Canonical) :
    State.Canonical (State.ascSuppress s i e) := by
  unfold State.ascSuppress
  repeat' first
    | with_reducible assumption | (intro x; refine keep_cut x (fun hx => ?_) ?_; clear_value x; rotate_left; subst x; rotate_left)
    | lift_lets | with_reducible (first | apply keep_ascPass | apply keep_inc | apply keep_srvMiss | apply keep_chnSupp | apply keep_ite)

theorem keep_ascIrq {s : State} {arg : Nat} (hs : s.Canonical) :
    State.Canonical (State.ascIrq s arg) := by
  unfold State.ascIrq
  repeat' first
    | with_reducible assumption | (intro x; refine keep_cut x (fun hx => ?_) ?_; clear_value x; rotate_left; subst x; rotate_left)
    | (intro x; subst x) | lift_lets
    | with_reducible (first | apply keep_setIn | apply keep_emit | apply keep_ite | apply And.intro | apply keep_regs)
    | with_reducible (first | apply keep_sram | apply keep_store | apply keep_buf | apply keep_nil) | simp only [↓canonical_mk] | split

theorem keep_ascEffect {s : State} {cls arg due : Nat} {skew : Int} (hs : s.Canonical) :
    State.Canonical (State.ascEffect s cls arg due skew) := by
  unfold State.ascEffect
  repeat' first
    | with_reducible assumption | intro _ | lift_lets
    | with_reducible (first | apply keep_wsqServoWin | apply keep_chnEvent | apply keep_chSettle | apply keep_each)
    | with_reducible (first | apply keep_dbRequest | apply keep_uqiRun | apply keep_prefetchRel | apply keep_sealBatch)
    | with_reducible (first | apply keep_ascIrq | apply keep_ite) | split

theorem keep_ascIssue {s : State} {i : Nat} {e : AscEntry} {skew : Int} (hs : s.Canonical) :
    State.Canonical (State.ascIssue s i e skew) := by
  unfold State.ascIssue
  repeat' first
    | with_reducible assumption | (intro x; refine keep_cut x (fun hx => ?_) ?_; clear_value x; rotate_left; subst x; rotate_left)
    | lift_lets | with_reducible (first | apply keep_ascPass | apply keep_ascEffect | apply keep_ite | apply And.intro | apply keep_regs)
    | with_reducible (first | apply keep_sram | apply keep_store | apply keep_buf) | simp only [↓canonical_mk]

theorem keep_ascLate {s : State} {i : Nat} {e : AscEntry} (hs : s.Canonical) :
    State.Canonical (State.ascLate s i e) := by
  unfold State.ascLate
  repeat' with_reducible first | assumption | apply keep_inc | apply keep_ascIssue | apply keep_ascSuppress | apply keep_ite

end Sys2Proof.Machine
end

