-- ==== Sys2Proof/Laws/Keep/Asc.lean ====
section
/-! SUPPORT. That the definitions of Machine/Asc.lean keep the canonical form (see Laws/Keep.lean). -/

namespace Sys2Proof.Machine

open Sys2Proof

set_option linter.unusedSimpArgs false

theorem keep_ascRes {s : State} {m : Master} {i result : Nat} {nextrev late : Bool} (hs : s.Canonical) :
    State.Canonical (State.ascRes s m i result nextrev late) := by
  unfold State.ascRes
  repeat' first
    | with_reducible assumption | (intro x; refine keep_cut x (fun hx => ?_) ?_; clear_value x; rotate_left; subst x; rotate_left)
    | lift_lets | with_reducible (first | apply keep_wr | apply keep_put | apply keep_putB)

theorem keep_ascArm {m : Master} {v : Word} {s : State} (hs : s.Canonical) :
    State.Canonical (ascArm m v s) := by
  unfold ascArm
  repeat' first
    | with_reducible assumption | (intro x; subst x) | lift_lets
    | with_reducible (first | apply keep_ascRes | apply keep_ascLate | apply keep_setEntry | apply keep_ite)

theorem keep_execAscArm (m : Master) (v : Word) {s : State} (hs : s.Canonical) :
    OutcomeKeeps (execAscArm m v s) := by
  unfold execAscArm
  apply keeps_next
  repeat' first
    | with_reducible assumption | (intro x; refine keep_cut x (fun hx => ?_) ?_; clear_value x; rotate_left; subst x; rotate_left)
    | (intro x; subst x) | intro _ | lift_lets | with_reducible (first | apply keep_byCore | apply keep_ascArm | apply keep_ite) | split

theorem keep_ascCancel {m : Master} {v : Word} {s : State} (hs : s.Canonical) :
    State.Canonical (ascCancel m v s) := by
  unfold ascCancel
  repeat' first
    | with_reducible assumption | (intro x; subst x) | lift_lets
    | with_reducible (first | apply keep_ascRes | apply keep_setEntry | apply keep_ite) | split

theorem keep_execAscCancel (m : Master) (v : Word) {s : State} (hs : s.Canonical) :
    OutcomeKeeps (execAscCancel m v s) := by
  unfold execAscCancel
  apply keeps_next
  repeat' first
    | with_reducible assumption | (intro x; refine keep_cut x (fun hx => ?_) ?_; clear_value x; rotate_left; subst x; rotate_left)
    | (intro x; subst x) | intro _ | lift_lets | with_reducible (first | apply keep_byCore | apply keep_ascCancel | apply keep_ite)
    | split

theorem keep_ascRead {m : Master} {v : Word} {s : State} (hs : s.Canonical) :
    State.Canonical (ascRead m v s) := by
  unfold ascRead
  repeat' first | with_reducible assumption | (intro x; subst x) | lift_lets | with_reducible (first | apply keep_wr | apply keep_ascRes)

theorem keep_execAscRead (m : Master) (v : Word) {s : State} (hs : s.Canonical) :
    OutcomeKeeps (execAscRead m v s) := by
  unfold execAscRead
  apply keeps_next
  repeat' first
    | with_reducible assumption | (intro x; refine keep_cut x (fun hx => ?_) ?_; clear_value x; rotate_left; subst x; rotate_left)
    | (intro x; subst x) | intro _ | lift_lets | with_reducible (first | apply keep_byCore | apply keep_ascRead | apply keep_ite) | split

theorem keep_ascFlush {s : State} (hs : s.Canonical) :
    State.Canonical (ascFlush s) := by
  unfold ascFlush
  repeat' first
    | with_reducible assumption | (intro x; subst x) | intro _ | lift_lets
    | with_reducible (first | apply keep_each | apply keep_setEntry | apply keep_ite)

theorem keep_execAscFlush (m : Master) {s : State} (hs : s.Canonical) :
    OutcomeKeeps (execAscFlush m s) := by
  unfold execAscFlush
  apply keeps_next
  repeat' first
    | with_reducible assumption | (intro x; refine keep_cut x (fun hx => ?_) ?_; clear_value x; rotate_left; subst x; rotate_left)
    | (intro x; subst x) | intro _ | lift_lets | with_reducible (first | apply keep_byCore | apply keep_ascFlush | apply keep_ite) | split

theorem keep_ascDispatch {i : BitVec 8} {s : State} (hs : s.Canonical) :
    State.Canonical (ascDispatch i s) := by
  unfold ascDispatch
  repeat' first
    | with_reducible assumption | (intro x; refine keep_cut x (fun hx => ?_) ?_; clear_value x; rotate_left; subst x; rotate_left)
    | (intro x; subst x) | lift_lets
    | with_reducible (first | apply keep_setEntry | apply keep_ite | apply And.intro | apply keep_regs | apply keep_sram)
    | with_reducible (first | apply keep_store | apply keep_buf | apply keep_nil) | simp only [↓canonical_mk] | split

theorem keep_execAscDispatch (i : BitVec 8) {s : State} (hs : s.Canonical) :
    OutcomeKeeps (execAscDispatch i s) := keeps_next (keep_ascDispatch hs)

theorem keep_ascEvent {cls : Nat} {i : BitVec 8} {skew : Int} {s : State} (hs : s.Canonical) :
    State.Canonical (ascEvent cls i skew s) := by
  unfold ascEvent
  repeat' first
    | with_reducible assumption | (intro x; refine keep_cut x (fun hx => ?_) ?_; clear_value x; rotate_left; subst x; rotate_left)
    | (intro x; subst x) | intro _ | lift_lets
    | with_reducible (first | apply keep_ascIssue | apply keep_ascSuppress | apply keep_chSettle | apply keep_ite) | split

theorem keep_execServoWin (i : BitVec 8) {s : State} (hs : s.Canonical) :
    OutcomeKeeps (execServoWin i s) := keeps_next (keep_ascEvent hs)

theorem keep_execDataWin (i : BitVec 8) (skew : BitVec 32) {s : State} (hs : s.Canonical) :
    OutcomeKeeps (execDataWin i skew s) := keeps_next (keep_ascEvent hs)

theorem keep_execWriteGate (i : BitVec 8) (skew : BitVec 32) {s : State} (hs : s.Canonical) :
    OutcomeKeeps (execWriteGate i skew s) := keeps_next (keep_ascEvent hs)

theorem keep_execDbPoll (i : BitVec 8) {s : State} (hs : s.Canonical) :
    OutcomeKeeps (execDbPoll i s) := keeps_next (keep_ascEvent hs)

theorem keep_execPrefetchRel (i : BitVec 8) {s : State} (hs : s.Canonical) :
    OutcomeKeeps (execPrefetchRel i s) := keeps_next (keep_ascEvent hs)

theorem keep_execMorSeal (i : BitVec 8) {s : State} (hs : s.Canonical) :
    OutcomeKeeps (execMorSeal i s) := keeps_next (keep_ascEvent hs)

theorem keep_execCoreIrq (i : BitVec 8) {s : State} (hs : s.Canonical) :
    OutcomeKeeps (execCoreIrq i s) := keeps_next (keep_ascEvent hs)

theorem keep_latchedEvent {s : State} (hs : s.Canonical) :
    State.Canonical (latchedEvent s) := by
  unfold latchedEvent
  repeat' first
    | with_reducible (first | assumption | apply keep_ascEffect | apply And.intro | apply keep_regs | apply keep_sram)
    | with_reducible (first | apply keep_store | apply keep_buf) | lift_lets | simp only [↓canonical_mk] | split

theorem keep_execLatchedEvent {s : State} (hs : s.Canonical) :
    OutcomeKeeps (execLatchedEvent s) := keeps_next (keep_latchedEvent hs)

end Sys2Proof.Machine
end

