-- ==== Sys2Proof/Laws/Keep/Tick.lean ====
section
/-! SUPPORT. That the definitions of Machine/Tick.lean keep the canonical form (see Laws/Keep.lean). -/

namespace Sys2Proof.Machine

open Sys2Proof

set_option linter.unusedSimpArgs false

theorem keep_angleTick {s : State} (hs : s.Canonical) :
    State.Canonical (angleTick s) := by
  unfold angleTick
  repeat' first
    | with_reducible assumption | (intro x; subst x) | lift_lets
    | with_reducible (first | apply keep_ite | apply And.intro | apply keep_regs | apply keep_sram | apply keep_store)
    | with_reducible apply keep_buf | simp only [↓canonical_mk]

end Sys2Proof.Machine
end

