-- ==== Sys2Proof/Laws/Keep/Atb.lean ====
section
/-! SUPPORT. That the definitions of Machine/Atb.lean keep the canonical form (see Laws/Keep.lean). -/

namespace Sys2Proof.Machine

open Sys2Proof

set_option linter.unusedSimpArgs false

theorem keep_onAtb {s : State} {f : AtbState → AtbState} (hs : s.Canonical) :
    State.Canonical (State.onAtb s f) := by
  unfold State.onAtb
  repeat' first
    | with_reducible (first | assumption | apply And.intro | apply keep_regs | apply keep_sram | apply keep_store | apply keep_buf)
    | simp only [↓canonical_mk]

theorem keep_atbCycles {s : State} {l : List TrackRun} (hs : s.Canonical) :
    State.Canonical (State.atbCycles s l) := by
  unfold State.atbCycles
  repeat' first
    | with_reducible assumption | (intro x; refine keep_cut x (fun hx => ?_) ?_; clear_value x; rotate_left; subst x; rotate_left)
    | (intro x; subst x) | intro _ | lift_lets
    | with_reducible (first | apply keep_each | apply keep_onAtb | apply keep_putB | apply keep_put | apply keep_ite) | split

theorem keep_atbSeen {s : State} {amp : BitVec 8} {l : List TrackRun} (hs : s.Canonical) :
    State.Canonical (State.atbSeen s amp l) := by
  unfold State.atbSeen
  repeat' first
    | with_reducible assumption | (intro x; refine keep_cut x (fun hx => ?_) ?_; clear_value x; rotate_left; subst x; rotate_left)
    | (intro x; subst x) | lift_lets | with_reducible (first | apply keep_atbCycles | apply keep_put | apply keep_ite) | split

theorem keep_atbGates {s : State} (hs : s.Canonical) :
    State.Canonical (State.atbGates s) := by
  unfold State.atbGates
  repeat' with_reducible first | assumption | apply keep_chnCloseGate | apply keep_wusRise | apply keep_ite

theorem keep_atbCoast {s : State} (hs : s.Canonical) :
    State.Canonical (State.atbCoast s) := by
  unfold State.atbCoast
  repeat' first
    | with_reducible assumption | (intro x; refine keep_cut x (fun hx => ?_) ?_; clear_value x; rotate_left; subst x; rotate_left)
    | (intro x; subst x) | lift_lets
    | with_reducible (first | apply keep_atbGates | apply keep_put | apply keep_clr | apply keep_onAtb | apply keep_chnAtbLost)
    | with_reducible (first | apply keep_chSettle | apply keep_ite) | split

theorem keep_atbAcquire {s : State} (hs : s.Canonical) :
    State.Canonical (State.atbAcquire s) := by
  unfold State.atbAcquire
  repeat' first
    | with_reducible assumption | (intro x; refine keep_cut x (fun hx => ?_) ?_; clear_value x; rotate_left; subst x; rotate_left)
    | (intro x; subst x) | intro _ | lift_lets
    | with_reducible (first | apply keep_put | apply keep_onAtb | apply keep_chnAtbLost | apply keep_chSettle | apply keep_ite) | split

theorem keep_atbLocked {s : State} (hs : s.Canonical) :
    State.Canonical (State.atbLocked s) := by
  unfold State.atbLocked
  repeat' first
    | with_reducible (first | assumption | apply keep_put | apply keep_raiseBit | apply keep_clr | apply keep_onAtb)
    | with_reducible apply keep_chSettle

theorem keep_atbLoss {s : State} {cause : Nat} (hs : s.Canonical) :
    State.Canonical (State.atbLoss s cause) := by
  unfold State.atbLoss
  repeat' first
    | with_reducible assumption | (intro x; refine keep_cut x (fun hx => ?_) ?_; clear_value x; rotate_left; subst x; rotate_left)
    | (intro x; subst x) | intro _ | lift_lets
    | with_reducible (first | apply keep_atbGates | apply keep_put | apply keep_raiseBit | apply keep_inc | apply keep_onAtb)
    | with_reducible (first | apply keep_event | apply keep_atbCoast | apply keep_chSettle | apply keep_ite) | split

theorem keep_atbFail {s : State} {cause : Nat} (hs : s.Canonical) :
    State.Canonical (State.atbFail s cause) := by
  unfold State.atbFail
  repeat' first
    | with_reducible assumption | (intro x; refine keep_cut x (fun hx => ?_) ?_; clear_value x; rotate_left; subst x; rotate_left)
    | (intro x; subst x) | lift_lets
    | with_reducible (first | apply keep_raiseBit | apply keep_inc | apply keep_event | apply keep_atbCoast | apply keep_ite) | split

theorem keep_atbJudge {s : State} (hs : s.Canonical) :
    State.Canonical (State.atbJudge s) := by
  unfold State.atbJudge
  repeat' first
    | with_reducible assumption | (intro x; refine keep_cut x (fun hx => ?_) ?_; clear_value x; rotate_left; subst x; rotate_left)
    | (intro x; subst x) | lift_lets
    | with_reducible (first | apply keep_atbAcquire | apply keep_atbFail | apply keep_atbLoss | apply keep_ite) | split

theorem keep_atbSettle {s : State} (hs : s.Canonical) :
    State.Canonical (State.atbSettle s) := by
  unfold State.atbSettle
  repeat' first
    | with_reducible assumption | (intro x; refine keep_cut x (fun hx => ?_) ?_; clear_value x; rotate_left; subst x; rotate_left)
    | (intro x; subst x) | lift_lets | with_reducible (first | apply keep_atbJudge | apply keep_ite) | split

theorem keep_forwardStep {s : State} {c : BitVec 64} {ticks : Nat} (hs : s.Canonical) :
    State.Canonical (State.forwardStep s c ticks) := by
  unfold State.forwardStep
  repeat' first
    | with_reducible assumption | (intro x; refine keep_cut x (fun hx => ?_) ?_; clear_value x; rotate_left; subst x; rotate_left)
    | (intro x; subst x) | intro _ | lift_lets
    | with_reducible (first | apply keep_each | apply keep_onAtb | apply keep_raiseBit | apply keep_put | apply keep_event)
    | with_reducible (first | apply keep_ascSuppress | apply keep_atbLocked | apply keep_ascLate | apply keep_ite | apply And.intro)
    | with_reducible (first | apply keep_regs | apply keep_sram | apply keep_store | apply keep_buf | apply keep_nil)
    | simp only [↓canonical_mk] | split

theorem keep_align {s : State} {c : BitVec 64} {ticks : Nat} (hs : s.Canonical) :
    State.Canonical (State.align s c ticks) := by
  unfold State.align
  repeat' first
    | with_reducible assumption | (intro x; subst x) | lift_lets
    | with_reducible (first | apply keep_onAtb | apply keep_atbLocked | apply keep_raiseBit | apply keep_forwardStep)
    | with_reducible apply keep_ite

theorem keep_atbCtlWrite {v : Word} {s : State} (hs : s.Canonical) :
    State.Canonical (atbCtlWrite v s) := by
  unfold atbCtlWrite
  repeat' first
    | with_reducible assumption | (intro x; refine keep_cut x (fun hx => ?_) ?_; clear_value x; rotate_left; subst x; rotate_left)
    | (intro x; subst x) | lift_lets
    | with_reducible (first | apply keep_put | apply keep_atbCoast | apply keep_atbSettle | apply keep_ite) | split

theorem keep_execAtbCtlWrite (m : Master) (v : Word) {s : State} (hs : s.Canonical) :
    OutcomeKeeps (execAtbCtlWrite m v s) := by
  unfold execAtbCtlWrite
  apply keeps_next
  repeat' first
    | with_reducible assumption | (intro x; refine keep_cut x (fun hx => ?_) ?_; clear_value x; rotate_left; subst x; rotate_left)
    | (intro x; subst x) | intro _ | lift_lets | with_reducible (first | apply keep_byCore | apply keep_atbCtlWrite | apply keep_ite)
    | split

theorem keep_signalQualified {s : State} (hs : s.Canonical) :
    State.Canonical (signalQualified s) := by
  unfold signalQualified
  repeat' first
    | with_reducible assumption | (intro x; refine keep_cut x (fun hx => ?_) ?_; clear_value x; rotate_left; subst x; rotate_left)
    | (intro x; subst x) | intro _ | lift_lets
    | with_reducible (first | apply keep_onAtb | apply keep_raiseBit | apply keep_atbSettle | apply keep_ite | apply And.intro)
    | with_reducible (first | apply keep_regs | apply keep_sram | apply keep_store | apply keep_buf | apply keep_nil)
    | simp only [↓canonical_mk] | split

theorem keep_execSignalQualified {s : State} (hs : s.Canonical) :
    OutcomeKeeps (execSignalQualified s) := keeps_next (keep_signalQualified hs)

theorem keep_acquireMark {s : State} {run : Nat} {c : BitVec 64} {ticks gap speed : Nat} (hs : s.Canonical) :
    State.Canonical (State.acquireMark s run c ticks gap speed) := by
  unfold State.acquireMark
  repeat' first
    | with_reducible assumption | (intro x; refine keep_cut x (fun hx => ?_) ?_; clear_value x; rotate_left; subst x; rotate_left)
    | (intro x; subst x) | intro _ | lift_lets
    | with_reducible (first | apply keep_onAtb | apply keep_align | apply keep_ite | apply And.intro | apply keep_regs)
    | with_reducible (first | apply keep_sram | apply keep_store | apply keep_buf | apply keep_nil) | simp only [↓canonical_mk] | split

theorem keep_lockedMark {s : State} {run : Nat} {c : BitVec 64} {speed : Nat} (hs : s.Canonical) :
    State.Canonical (State.lockedMark s run c speed) := by
  unfold State.lockedMark
  repeat' first
    | with_reducible assumption | (intro x; refine keep_cut x (fun hx => ?_) ?_; clear_value x; rotate_left; subst x; rotate_left)
    | (intro x; subst x) | intro _ | lift_lets
    | with_reducible (first | apply keep_atbLoss | apply keep_onAtb | apply keep_put | apply keep_ite | apply And.intro)
    | with_reducible (first | apply keep_regs | apply keep_sram | apply keep_store | apply keep_buf | apply keep_nil)
    | simp only [↓canonical_mk] | split

theorem keep_indexMark {run : BitVec 8} {c : BitVec 64} {ticks gap : BitVec 32} {speed : BitVec 18} {track : Track} {s : State} (hs
      : s.Canonical) :
    State.Canonical (indexMark run c ticks gap speed track s) := by
  unfold indexMark
  repeat' first
    | with_reducible assumption | (intro x; refine keep_cut x (fun hx => ?_) ?_; clear_value x; rotate_left; subst x; rotate_left)
    | (intro x; subst x) | lift_lets
    | with_reducible (first | apply keep_atbSeen | apply keep_atbSettle | apply keep_acquireMark | apply keep_lockedMark | apply keep_ite)
    | split

theorem keep_execIndexMark (run : BitVec 8) (c : BitVec 64) (ticks gap : BitVec 32) (speed : BitVec 18) (track : Track) {s : State}
      (hs : s.Canonical) :
    OutcomeKeeps (execIndexMark run c ticks gap speed track s) := by
  unfold execIndexMark
  apply keeps_next
  repeat' first
    | with_reducible assumption | (intro x; refine keep_cut x (fun hx => ?_) ?_; clear_value x; rotate_left; subst x; rotate_left)
    | (intro x; subst x) | lift_lets | with_reducible (first | apply keep_indexMark | apply keep_ite) | split

theorem keep_lockwinRunComplete {ticks : BitVec 32} {s : State} (hs : s.Canonical) :
    State.Canonical (lockwinRunComplete ticks s) := by
  unfold lockwinRunComplete
  repeat' first
    | with_reducible assumption | (intro x; refine keep_cut x (fun hx => ?_) ?_; clear_value x; rotate_left; subst x; rotate_left)
    | (intro x; subst x) | intro _ | lift_lets
    | with_reducible (first | apply keep_onAtb | apply keep_align | apply keep_ite | apply And.intro | apply keep_regs)
    | with_reducible (first | apply keep_sram | apply keep_store | apply keep_buf | apply keep_nil) | simp only [↓canonical_mk] | split

theorem keep_execLockwinRunComplete (ticks : BitVec 32) {s : State} (hs : s.Canonical) :
    OutcomeKeeps (execLockwinRunComplete ticks s) := keeps_next (keep_lockwinRunComplete hs)

theorem keep_atbHoldEnd {s : State} (hs : s.Canonical) :
    State.Canonical (atbHoldEnd s) := by
  unfold atbHoldEnd
  repeat' with_reducible first | assumption | apply keep_atbLocked | apply keep_ite

theorem keep_execAtbHoldEnd {s : State} (hs : s.Canonical) :
    OutcomeKeeps (execAtbHoldEnd s) := keeps_next (keep_atbHoldEnd hs)

theorem keep_acquireTimeout {amp : BitVec 8} {cycles : List TrackRun} {s : State} (hs : s.Canonical) :
    State.Canonical (acquireTimeout amp cycles s) := by
  unfold acquireTimeout
  repeat' first
    | with_reducible assumption | (intro x; refine keep_cut x (fun hx => ?_) ?_; clear_value x; rotate_left; subst x; rotate_left)
    | (intro x; subst x) | lift_lets
    | with_reducible (first | apply keep_atbSeen | apply keep_atbFail | apply keep_atbSettle | apply keep_ite) | split

theorem keep_execAcquireTimeout (amp : BitVec 8) (cycles : List TrackRun) {s : State} (hs : s.Canonical) :
    OutcomeKeeps (execAcquireTimeout amp cycles s) := by
  unfold execAcquireTimeout
  apply keeps_next
  repeat' first
    | with_reducible assumption | (intro x; refine keep_cut x (fun hx => ?_) ?_; clear_value x; rotate_left; subst x; rotate_left)
    | (intro x; subst x) | lift_lets | with_reducible (first | apply keep_acquireTimeout | apply keep_ite) | split

theorem keep_acquireSignalLost {amp : BitVec 8} {cycles : List TrackRun} {s : State} (hs : s.Canonical) :
    State.Canonical (acquireSignalLost amp cycles s) := by
  unfold acquireSignalLost
  repeat' first
    | with_reducible assumption | (intro x; refine keep_cut x (fun hx => ?_) ?_; clear_value x; rotate_left; subst x; rotate_left)
    | (intro x; subst x) | lift_lets | with_reducible (first | apply keep_atbSeen | apply keep_atbSettle | apply keep_ite) | split

theorem keep_execAcquireSignalLost (amp : BitVec 8) (cycles : List TrackRun) {s : State} (hs : s.Canonical) :
    OutcomeKeeps (execAcquireSignalLost amp cycles s) := by
  unfold execAcquireSignalLost
  apply keeps_next
  repeat' first
    | with_reducible assumption | (intro x; refine keep_cut x (fun hx => ?_) ?_; clear_value x; rotate_left; subst x; rotate_left)
    | (intro x; subst x) | lift_lets | with_reducible (first | apply keep_acquireSignalLost | apply keep_ite) | split

theorem keep_lockLoss {cause amp : BitVec 8} {cycles : List TrackRun} {s : State} (hs : s.Canonical) :
    State.Canonical (lockLoss cause amp cycles s) := by
  unfold lockLoss
  repeat' first
    | with_reducible assumption | (intro x; refine keep_cut x (fun hx => ?_) ?_; clear_value x; rotate_left; subst x; rotate_left)
    | (intro x; subst x) | lift_lets
    | with_reducible (first | apply keep_atbSeen | apply keep_atbLoss | apply keep_atbSettle | apply keep_ite) | split

theorem keep_execLockLoss (cause amp : BitVec 8) (cycles : List TrackRun) {s : State} (hs : s.Canonical) :
    OutcomeKeeps (execLockLoss cause amp cycles s) := by
  unfold execLockLoss
  apply keeps_next
  repeat' first
    | with_reducible assumption | (intro x; refine keep_cut x (fun hx => ?_) ?_; clear_value x; rotate_left; subst x; rotate_left)
    | (intro x; subst x) | lift_lets | with_reducible (first | apply keep_lockLoss | apply keep_ite) | split

theorem keep_indexMissed {amp : BitVec 8} {cycles : List TrackRun} {s : State} (hs : s.Canonical) :
    State.Canonical (indexMissed amp cycles s) := by
  unfold indexMissed
  repeat' first
    | with_reducible assumption | (intro x; refine keep_cut x (fun hx => ?_) ?_; clear_value x; rotate_left; subst x; rotate_left)
    | (intro x; subst x) | intro _ | lift_lets
    | with_reducible (first | apply keep_atbSeen | apply keep_atbSettle | apply keep_raiseBit | apply keep_inc | apply keep_onAtb)
    | with_reducible (first | apply keep_atbLoss | apply keep_ite | apply And.intro | apply keep_regs | apply keep_sram)
    | with_reducible (first | apply keep_store | apply keep_buf | apply keep_nil) | simp only [↓canonical_mk] | split

theorem keep_execIndexMissed (amp : BitVec 8) (cycles : List TrackRun) {s : State} (hs : s.Canonical) :
    OutcomeKeeps (execIndexMissed amp cycles s) := by
  unfold execIndexMissed
  apply keeps_next
  repeat' first
    | with_reducible assumption | (intro x; refine keep_cut x (fun hx => ?_) ?_; clear_value x; rotate_left; subst x; rotate_left)
    | (intro x; subst x) | lift_lets | with_reducible (first | apply keep_indexMissed | apply keep_ite) | split

theorem keep_holdoverExpiry {s : State} (hs : s.Canonical) :
    State.Canonical (holdoverExpiry s) := by
  unfold holdoverExpiry
  repeat' first
    | with_reducible assumption | (intro x; refine keep_cut x (fun hx => ?_) ?_; clear_value x; rotate_left; subst x; rotate_left)
    | (intro x; subst x) | lift_lets | with_reducible (first | apply keep_atbCoast | apply keep_atbSettle | apply keep_ite) | split

theorem keep_execHoldoverExpiry {s : State} (hs : s.Canonical) :
    OutcomeKeeps (execHoldoverExpiry s) := keeps_next (keep_holdoverExpiry hs)

theorem keep_idleTick {s : State} (hs : s.Canonical) :
    State.Canonical (idleTick s) := by
  unfold idleTick
  repeat' first
    | with_reducible assumption | (intro x; refine keep_cut x (fun hx => ?_) ?_; clear_value x; rotate_left; subst x; rotate_left)
    | (intro x; subst x) | lift_lets
    | with_reducible (first | apply keep_angleTick | apply keep_atbCycles | apply keep_atbSettle | apply keep_ite) | split

end Sys2Proof.Machine
end

