-- ==== Sys2Proof/Laws/Keep/RegOps.lean ====
section
/-! SUPPORT. That the definitions of Machine/RegOps.lean keep the canonical form (see Laws/Keep.lean). -/

namespace Sys2Proof.Machine

open Sys2Proof

set_option linter.unusedSimpArgs false

theorem keep_regWrite {s : State} {k : Nat} {v : Word} (hs : s.Canonical) :
    State.Canonical (State.regWrite s k v) := by
  unfold State.regWrite
  repeat' first | with_reducible (first | assumption | apply keep_wr) | split

end Sys2Proof.Machine
end

