-- ==== Sys2Proof/Laws/Keep/Chn.lean ====
section
/-! SUPPORT. That the definitions of Machine/Chn.lean keep the canonical form (see Laws/Keep.lean). -/

namespace Sys2Proof.Machine

open Sys2Proof

set_option linter.unusedSimpArgs false

theorem keep_f_mopCommit {t : BitVec 7} {v : Word} {s : State} (hs : s.Canonical) :
    State.Canonical (mopCommit t v s) := by
  unfold mopCommit
  repeat' first
    | with_reducible assumption | (intro x; refine keep_cut x (fun hx => ?_) ?_; clear_value x; rotate_left; subst x; rotate_left)
    | (intro x; subst x) | lift_lets
    | with_reducible (first | apply keep_raiseBit | apply keep_regWrite | apply keep_put | apply keep_mopCommit | apply keep_ite) | split

theorem keep_execMopCommit (m : Master) (t : BitVec 7) (v : Word) {s : State} (hs : s.Canonical) :
    OutcomeKeeps (execMopCommit m t v s) := by
  unfold execMopCommit
  apply keeps_next
  repeat' first
    | with_reducible assumption | (intro x; refine keep_cut x (fun hx => ?_) ?_; clear_value x; rotate_left; subst x; rotate_left)
    | (intro x; subst x) | intro _ | lift_lets
    | with_reducible (first | apply keep_byCore | apply keep_f_mopCommit | apply keep_mopCommit | apply keep_ite) | split

theorem keep_synthSlewDone {s : State} (hs : s.Canonical) :
    State.Canonical (synthSlewDone s) := by
  unfold synthSlewDone
  repeat' first | with_reducible (first | assumption | apply keep_onChn) | split

theorem keep_execSynthSlewDone {s : State} (hs : s.Canonical) :
    OutcomeKeeps (execSynthSlewDone s) := keeps_next (keep_synthSlewDone hs)

theorem keep_headContextWrite {h : BitVec 5} {w : BitVec 3} {v : Word} {s : State} (hs : s.Canonical) :
    State.Canonical (headContextWrite h w v s) := by
  unfold headContextWrite
  repeat' with_reducible first | assumption | apply keep_raiseBit | apply keep_regWrite | apply keep_ite

theorem keep_execHeadContextWrite (m : Master) (h : BitVec 5) (w : BitVec 3) (v : Word) {s : State} (hs : s.Canonical) :
    OutcomeKeeps (execHeadContextWrite m h w v s) := by
  unfold execHeadContextWrite
  apply keeps_next
  repeat' first
    | with_reducible assumption | (intro x; refine keep_cut x (fun hx => ?_) ?_; clear_value x; rotate_left; subst x; rotate_left)
    | (intro x; subst x) | intro _ | lift_lets | with_reducible (first | apply keep_byCore | apply keep_headContextWrite | apply keep_ite)
    | split

theorem keep_sectorStart {t : BitVec 7} {s : State} (hs : s.Canonical) :
    State.Canonical (sectorStart t s) := by
  unfold sectorStart
  repeat' first
    | with_reducible assumption | (intro x; subst x) | lift_lets
    | with_reducible (first | apply keep_opFail | apply keep_onChn | apply keep_setOp | apply keep_ite) | split

theorem keep_execSectorStart (t : BitVec 7) {s : State} (hs : s.Canonical) :
    OutcomeKeeps (execSectorStart t s) := by
  unfold execSectorStart
  apply keeps_next
  repeat' with_reducible first | assumption | apply keep_sectorStart | apply keep_chSettle

theorem keep_sectorLastBit {t : BitVec 7} {samp : Samples} {s : State} (hs : s.Canonical) :
    State.Canonical (sectorLastBit t samp s) := by
  unfold sectorLastBit
  repeat' first
    | with_reducible assumption | (intro x; refine keep_cut x (fun hx => ?_) ?_; clear_value x; rotate_left; subst x; rotate_left)
    | (intro x; subst x) | intro _ | lift_lets
    | with_reducible (first | apply keep_adapt | apply keep_onChn | apply keep_decoded | apply keep_ite | apply And.intro)
    | with_reducible (first | apply keep_regs | apply keep_sram | apply keep_store | apply keep_buf | apply keep_nil)
    | simp only [↓canonical_mk] | split

theorem keep_execSectorLastBit (t : BitVec 7) (samp : Samples) {s : State} (hs : s.Canonical) :
    OutcomeKeeps (execSectorLastBit t samp s) := by
  unfold execSectorLastBit
  apply keeps_next
  repeat' first
    | with_reducible assumption | (intro x; refine keep_cut x (fun hx => ?_) ?_; clear_value x; rotate_left; subst x; rotate_left)
    | (intro x; subst x) | lift_lets | with_reducible (first | apply keep_sectorLastBit | apply keep_chSettle | apply keep_ite) | split

theorem keep_decodeDone {t : BitVec 7} {idx : BitVec 8} {f : SectorFacts} {s : State} (hs : s.Canonical) :
    State.Canonical (decodeDone t idx f s) := by
  unfold decodeDone
  repeat' with_reducible first | assumption | apply keep_decoded

theorem keep_execDecodeDone (t : BitVec 7) (idx : BitVec 8) (f : SectorFacts) {s : State} (hs : s.Canonical) :
    OutcomeKeeps (execDecodeDone t idx f s) := by
  unfold execDecodeDone
  apply keeps_next
  repeat' with_reducible first | assumption | apply keep_decodeDone | apply keep_chSettle

theorem keep_decodeDeadline {t : BitVec 7} {idx : BitVec 8} {f : SectorFacts} {s : State} (hs : s.Canonical) :
    State.Canonical (decodeDeadline t idx f s) := by
  unfold decodeDeadline
  repeat' with_reducible first | assumption | apply keep_decodeDone | apply keep_ite

theorem keep_execDecodeDeadline (t : BitVec 7) (idx : BitVec 8) (f : SectorFacts) {s : State} (hs : s.Canonical) :
    OutcomeKeeps (execDecodeDeadline t idx f s) := by
  unfold execDecodeDeadline
  apply keeps_next
  repeat' with_reducible first | assumption | apply keep_decodeDeadline | apply keep_chSettle

theorem keep_writeDataCheck {t : BitVec 7} {s : State} (hs : s.Canonical) :
    State.Canonical (writeDataCheck t s) := by
  unfold writeDataCheck
  repeat' first | with_reducible (first | assumption | apply keep_setOp | apply keep_opFail | apply keep_ite) | lift_lets | split

theorem keep_execWriteDataCheck (t : BitVec 7) {s : State} (hs : s.Canonical) :
    OutcomeKeeps (execWriteDataCheck t s) := by
  unfold execWriteDataCheck
  apply keeps_next
  repeat' with_reducible first | assumption | apply keep_writeDataCheck | apply keep_chSettle

theorem keep_sectorWritten {t : BitVec 7} {s : State} (hs : s.Canonical) :
    State.Canonical (sectorWritten t s) := by
  unfold sectorWritten
  repeat' first
    | with_reducible assumption | (intro x; refine keep_cut x (fun hx => ?_) ?_; clear_value x; rotate_left; subst x; rotate_left)
    | (intro x; subst x) | intro _ | lift_lets
    | with_reducible (first | apply keep_emit | apply keep_setFifo | apply keep_chFill | apply keep_setOp | apply keep_opEnd)
    | with_reducible (first | apply keep_opFail | apply keep_ite | apply And.intro | apply keep_regs | apply keep_sram)
    | with_reducible (first | apply keep_store | apply keep_buf | apply keep_nil) | simp only [↓canonical_mk] | split

theorem keep_execSectorWritten (t : BitVec 7) {s : State} (hs : s.Canonical) :
    OutcomeKeeps (execSectorWritten t s) := by
  unfold execSectorWritten
  apply keeps_next
  repeat' with_reducible first | assumption | apply keep_sectorWritten | apply keep_chSettle

theorem keep_popdone {s : State} (hs : s.Canonical) :
    State.Canonical (popdone s) := by
  unfold popdone
  repeat' with_reducible first | assumption | apply keep_onChn

theorem keep_execPopdone (m : Master) {s : State} (hs : s.Canonical) :
    OutcomeKeeps (execPopdone m s) := by
  unfold execPopdone
  apply keeps_next
  repeat' first
    | with_reducible assumption | (intro x; refine keep_cut x (fun hx => ?_) ?_; clear_value x; rotate_left; subst x; rotate_left)
    | (intro x; subst x) | intro _ | lift_lets | with_reducible (first | apply keep_byCore | apply keep_popdone | apply keep_ite) | split

theorem keep_popfail {s : State} (hs : s.Canonical) :
    State.Canonical (popfail s) := by
  unfold popfail
  repeat' with_reducible first | assumption | apply keep_onChn

theorem keep_execPopfail (m : Master) {s : State} (hs : s.Canonical) :
    OutcomeKeeps (execPopfail m s) := by
  unfold execPopfail
  apply keeps_next
  repeat' first
    | with_reducible assumption | (intro x; refine keep_cut x (fun hx => ?_) ?_; clear_value x; rotate_left; subst x; rotate_left)
    | (intro x; subst x) | intro _ | lift_lets | with_reducible (first | apply keep_byCore | apply keep_popfail | apply keep_ite) | split

theorem keep_redec {s : State} (hs : s.Canonical) :
    State.Canonical (redec s) := by
  unfold redec
  repeat' first
    | with_reducible assumption | (intro x; subst x) | lift_lets
    | with_reducible (first | apply keep_onChn | apply keep_raiseBit | apply keep_ite)

theorem keep_execRedec (m : Master) {s : State} (hs : s.Canonical) :
    OutcomeKeeps (execRedec m s) := by
  unfold execRedec
  apply keeps_next
  repeat' first
    | with_reducible assumption | (intro x; refine keep_cut x (fun hx => ?_) ?_; clear_value x; rotate_left; subst x; rotate_left)
    | (intro x; subst x) | intro _ | lift_lets | with_reducible (first | apply keep_byCore | apply keep_redec | apply keep_ite) | split

theorem keep_redecDone {f : SectorFacts} {s : State} (hs : s.Canonical) :
    State.Canonical (redecDone f s) := by
  unfold redecDone
  repeat' first
    | with_reducible assumption | (intro x; refine keep_cut x (fun hx => ?_) ?_; clear_value x; rotate_left; subst x; rotate_left)
    | (intro x; subst x) | intro _ | lift_lets
    | with_reducible (first | apply keep_redec | apply keep_onChn | apply keep_clr | apply keep_put | apply keep_sresCount)
    | with_reducible (first | apply keep_chPass | apply keep_setPassed | apply keep_giveUp | apply keep_ite | apply And.intro)
    | with_reducible (first | apply keep_regs | apply keep_sram | apply keep_store | apply keep_buf | apply keep_nil)
    | simp only [↓canonical_mk] | split

theorem keep_execRedecDone (f : SectorFacts) {s : State} (hs : s.Canonical) :
    OutcomeKeeps (execRedecDone f s) := by
  unfold execRedecDone
  apply keeps_next
  repeat' with_reducible first | assumption | apply keep_redecDone | apply keep_chSettle

theorem keep_release {s : State} (hs : s.Canonical) :
    State.Canonical (release s) := by
  unfold release
  repeat' first
    | with_reducible assumption | (intro x; subst x) | lift_lets
    | with_reducible (first | apply keep_onChn | apply keep_clrIn | apply keep_ite)

theorem keep_execRelease (m : Master) {s : State} (hs : s.Canonical) :
    OutcomeKeeps (execRelease m s) := by
  unfold execRelease
  apply keeps_next
  repeat' first
    | with_reducible assumption | (intro x; refine keep_cut x (fun hx => ?_) ?_; clear_value x; rotate_left; subst x; rotate_left)
    | (intro x; subst x) | intro _ | lift_lets | with_reducible (first | apply keep_byCore | apply keep_release | apply keep_ite) | split

end Sys2Proof.Machine
end

