-- ==== Sys2Proof/Laws/Keep/Dma.lean ====
section
/-! SUPPORT. That the definitions of Machine/Dma.lean keep the canonical form (see Laws/Keep.lean). -/

namespace Sys2Proof.Machine

open Sys2Proof

set_option linter.unusedSimpArgs false

theorem keep_chstart {m : Master} {c : BitVec 4} {v : Word} {s : State} (hs : s.Canonical) :
    State.Canonical (chstart m c v s) := by
  unfold chstart
  repeat' first
    | with_reducible assumption | (intro x; subst x) | lift_lets
    | with_reducible (first | apply keep_raiseBit | apply keep_chStart | apply keep_ite)

theorem keep_execChstart (m : Master) (c : BitVec 4) (v : Word) {s : State} (hs : s.Canonical) :
    OutcomeKeeps (execChstart m c v s) := by
  unfold execChstart
  apply keeps_next
  repeat' first
    | with_reducible assumption | (intro x; refine keep_cut x (fun hx => ?_) ?_; clear_value x; rotate_left; subst x; rotate_left)
    | (intro x; subst x) | intro _ | lift_lets | with_reducible (first | apply keep_byCore | apply keep_chstart | apply keep_ite) | split

theorem keep_descriptorFetched {c : BitVec 4} {ue : Option (BitVec 32)} {s : State} (hs : s.Canonical) :
    State.Canonical (descriptorFetched c ue s) := by
  unfold descriptorFetched
  repeat' first
    | with_reducible assumption | (intro x; refine keep_cut x (fun hx => ?_) ?_; clear_value x; rotate_left; subst x; rotate_left)
    | (intro x; subst x) | lift_lets
    | with_reducible (first | apply keep_chUnread | apply keep_chSettle | apply keep_chCurrent | apply keep_ite) | split

theorem keep_execDescriptorFetched (c : BitVec 4) (ue : Option (BitVec 32)) {s : State} (hs : s.Canonical) :
    OutcomeKeeps (execDescriptorFetched c ue s) := keeps_next (keep_descriptorFetched hs)

theorem keep_descriptorEnd {c : BitVec 4} {s : State} (hs : s.Canonical) :
    State.Canonical (descriptorEnd c s) := by
  unfold descriptorEnd
  repeat' first
    | with_reducible assumption | (intro x; subst x) | lift_lets
    | with_reducible (first | apply keep_chEnd | apply keep_chSettle | apply keep_ite)

theorem keep_execDescriptorEnd (c : BitVec 4) {s : State} (hs : s.Canonical) :
    OutcomeKeeps (execDescriptorEnd c s) := keeps_next (keep_descriptorEnd hs)

theorem keep_channelAbort {m : Master} {c : BitVec 4} {s : State} (hs : s.Canonical) :
    State.Canonical (channelAbort m c s) := by
  unfold channelAbort
  repeat' first
    | with_reducible assumption | (intro x; subst x) | lift_lets
    | with_reducible (first | apply keep_chStop | apply keep_chSettle | apply keep_chEnter | apply keep_ite)

theorem keep_execChannelAbort (m : Master) (c : BitVec 4) {s : State} (hs : s.Canonical) :
    OutcomeKeeps (execChannelAbort m c s) := by
  unfold execChannelAbort
  apply keeps_next
  repeat' first
    | with_reducible assumption | (intro x; refine keep_cut x (fun hx => ?_) ?_; clear_value x; rotate_left; subst x; rotate_left)
    | (intro x; subst x) | intro _ | lift_lets | with_reducible (first | apply keep_byCore | apply keep_channelAbort | apply keep_ite)
    | split

theorem keep_chcfgWrite {m : Master} {c : BitVec 4} {v : Word} {s : State} (hs : s.Canonical) :
    State.Canonical (chcfgWrite m c v s) := by
  unfold chcfgWrite
  repeat' first | with_reducible assumption | (intro x; subst x) | lift_lets | with_reducible (first | apply keep_put | apply keep_ite)

theorem keep_execChcfgWrite (m : Master) (c : BitVec 4) (v : Word) {s : State} (hs : s.Canonical) :
    OutcomeKeeps (execChcfgWrite m c v s) := by
  unfold execChcfgWrite
  apply keeps_next
  repeat' first
    | with_reducible assumption | (intro x; refine keep_cut x (fun hx => ?_) ?_; clear_value x; rotate_left; subst x; rotate_left)
    | (intro x; subst x) | intro _ | lift_lets | with_reducible (first | apply keep_byCore | apply keep_chcfgWrite | apply keep_ite)
    | split

theorem keep_cfglock {s : State} (hs : s.Canonical) :
    State.Canonical (cfglock s) := by
  unfold cfglock
  repeat' with_reducible first | assumption | apply keep_raiseBit | apply keep_ite

theorem keep_execCfglock (m : Master) {s : State} (hs : s.Canonical) :
    OutcomeKeeps (execCfglock m s) := by
  unfold execCfglock
  apply keeps_next
  repeat' first
    | with_reducible assumption | (intro x; refine keep_cut x (fun hx => ?_) ?_; clear_value x; rotate_left; subst x; rotate_left)
    | (intro x; subst x) | intro _ | lift_lets | with_reducible (first | apply keep_byCore | apply keep_cfglock | apply keep_ite) | split

theorem keep_mdbaseWrite {v : Word} {s : State} (hs : s.Canonical) :
    State.Canonical (mdbaseWrite v s) := by
  unfold mdbaseWrite
  repeat' first
    | with_reducible assumption | (intro x; refine keep_cut x (fun hx => ?_) ?_; clear_value x; rotate_left; subst x; rotate_left)
    | lift_lets | with_reducible (first | apply keep_put | apply keep_putB | apply keep_ite)

theorem keep_execMdbaseWrite (m : Master) (v : Word) {s : State} (hs : s.Canonical) :
    OutcomeKeeps (execMdbaseWrite m v s) := by
  unfold execMdbaseWrite
  apply keeps_next
  repeat' first
    | with_reducible assumption | (intro x; refine keep_cut x (fun hx => ?_) ?_; clear_value x; rotate_left; subst x; rotate_left)
    | (intro x; subst x) | intro _ | lift_lets | with_reducible (first | apply keep_byCore | apply keep_mdbaseWrite | apply keep_ite)
    | split

theorem keep_katDone {ok : Bool} {s : State} (hs : s.Canonical) :
    State.Canonical (katDone ok s) := by
  unfold katDone
  repeat' with_reducible first | assumption | apply keep_raiseBit | apply keep_putB | apply keep_ite

theorem keep_execKatDone (ok : Bool) {s : State} (hs : s.Canonical) :
    OutcomeKeeps (execKatDone ok s) := keeps_next (keep_katDone hs)

theorem keep_hostReadCompletion {c : BitVec 4} {n : Nat} {e : HostEnd} {data : List Byte} {s : State} (hs : s.Canonical) :
    State.Canonical (hostReadCompletion c n e data s) := by
  unfold hostReadCompletion
  repeat' first
    | with_reducible assumption | (intro x; subst x) | lift_lets
    | with_reducible (first | apply keep_hostArrive | apply keep_chSettle | apply keep_chHalt | apply keep_ite)

theorem keep_execHostReadCompletion (c : BitVec 4) (n : Nat) (e : HostEnd) (data : List Byte) {s : State} (hs : s.Canonical) :
    OutcomeKeeps (execHostReadCompletion c n e data s) := keeps_next (keep_hostReadCompletion hs)

theorem keep_completionTimeout {c : BitVec 4} {n : Nat} {s : State} (hs : s.Canonical) :
    State.Canonical (completionTimeout c n s) := by
  unfold completionTimeout
  repeat' with_reducible first | assumption | apply keep_hostReadCompletion

theorem keep_execCompletionTimeout (c : BitVec 4) (n : Nat) {s : State} (hs : s.Canonical) :
    OutcomeKeeps (execCompletionTimeout c n s) := keeps_next (keep_completionTimeout hs)

end Sys2Proof.Machine
end

