-- ==== Sys2Proof/Laws/Keep/Keys.lean ====
section
/-! SUPPORT. That the definitions of Machine/Keys.lean keep the canonical form (see Laws/Keep.lean). -/

namespace Sys2Proof.Machine

open Sys2Proof

set_option linter.unusedSimpArgs false

theorem keep_sign {s : State} {d : Nat} {digest : List Byte} (hs : s.Canonical) :
    State.Canonical (State.sign s d digest).2 := by
  unfold State.sign
  repeat' first
    | with_reducible assumption | (intro x; refine keep_cut x (fun hx => ?_) ?_; clear_value x; rotate_left; subst x; rotate_left)
    | (intro x; subst x) | lift_lets | with_reducible apply keep_drawBytes

end Sys2Proof.Machine
end

