-- ==== Sys2Proof/Laws/Keep/MgtOps.lean ====
section
/-! SUPPORT. That the definitions of Machine/MgtOps.lean keep the canonical form (see Laws/Keep.lean). -/

namespace Sys2Proof.Machine

open Sys2Proof

set_option linter.unusedSimpArgs false

theorem keep_onMgt {s : State} {f : MgtState → MgtState} (hs : s.Canonical) :
    State.Canonical (State.onMgt s f) := by
  unfold State.onMgt
  repeat' first
    | with_reducible (first | assumption | apply And.intro | apply keep_regs | apply keep_sram | apply keep_store | apply keep_buf)
    | simp only [↓canonical_mk]

theorem keep_setTarget {s : State} {mctp : Bool} {t : I3cTarget} (hs : s.Canonical) :
    State.Canonical (State.setTarget s mctp t) := by
  unfold State.setTarget
  repeat' first
    | with_reducible assumption | (intro x; refine keep_cut x (fun hx => ?_) ?_; clear_value x; rotate_left; subst x; rotate_left)
    | (intro x; subst x) | lift_lets | with_reducible (first | apply keep_onMgt | apply keep_put | apply keep_putB | apply keep_ite)

theorem keep_cccSet {s : State} {a : Option (BitVec 7)} {f : I3cTarget → I3cTarget} (hs : s.Canonical) :
    State.Canonical (State.cccSet s a f) := by
  unfold State.cccSet
  repeat' first
    | with_reducible assumption | (intro x; subst x) | intro _ | lift_lets
    | with_reducible (first | apply keep_each | apply keep_setTarget | apply keep_ite)

theorem keep_cccGet {s : State} {a : BitVec 7} {f : Bool → List Byte} (hs : s.Canonical) :
    State.Canonical (State.cccGet s a f) := by
  unfold State.cccGet
  repeat' first | with_reducible (first | assumption | apply keep_emit) | split

theorem keep_sendIbi {s : State} {mctp : Bool} {mdb : Byte} (hs : s.Canonical) :
    State.Canonical (State.sendIbi s mctp mdb) := by
  unfold State.sendIbi
  repeat' first | with_reducible assumption | (intro x; subst x) | lift_lets | with_reducible (first | apply keep_emit | apply keep_ite)

theorem keep_dataAppend {s : State} {bs : List Byte} (hs : s.Canonical) :
    State.Canonical (State.dataAppend s bs) := by
  unfold State.dataAppend
  repeat' first
    | with_reducible assumption | (intro x; refine keep_cut x (fun hx => ?_) ?_; clear_value x; rotate_left; subst x; rotate_left)
    | (intro x; subst x) | intro _ | lift_lets
    | with_reducible (first | apply keep_each | apply keep_poolWrite | apply keep_put | apply keep_ite) | split

theorem keep_dataEmpty {s : State} (hs : s.Canonical) :
    State.Canonical (State.dataEmpty s) := by
  unfold State.dataEmpty
  repeat' with_reducible first | assumption | apply keep_onMgt | apply keep_clr

theorem keep_dataSet {s : State} {bs : List Byte} (hs : s.Canonical) :
    State.Canonical (State.dataSet s bs) := by
  unfold State.dataSet
  repeat' with_reducible first | assumption | apply keep_dataEmpty | apply keep_dataAppend

theorem keep_trfOvr {s : State} (hs : s.Canonical) :
    State.Canonical (State.trfOvr s) := by
  unfold State.trfOvr
  repeat' with_reducible first | assumption | apply keep_raiseBit | apply keep_inc

theorem keep_trfStat {s : State} {v : Word} (hs : s.Canonical) :
    State.Canonical (State.trfStat s v) := by
  unfold State.trfStat
  repeat' first
    | with_reducible assumption | (intro x; refine keep_cut x (fun hx => ?_) ?_; clear_value x; rotate_left; subst x; rotate_left)
    | lift_lets | with_reducible (first | apply keep_clr | apply keep_dataEmpty | apply keep_ite)

theorem keep_trfWrite {s : State} {k : Nat} {v : Word} (hs : s.Canonical) :
    State.Canonical (State.trfWrite s k v) := by
  unfold State.trfWrite
  repeat' first
    | with_reducible (first | assumption | apply keep_trfStat | apply keep_trfOvr | apply keep_wr | apply keep_raiseBit)
    | with_reducible (first | apply keep_put | apply keep_dataAppend | apply keep_ite)

theorem keep_trfWrites {k : Nat} {l : List Byte} {s : State} (hs : s.Canonical) : State.Canonical (State.trfWrites k l s) := by
  fun_induction State.trfWrites k l s with
  | case1 k s b0 b1 b2 b3 l ih => exact ih (keep_trfWrite hs)
  | case2 => exact hs

theorem keep_trfRead {s : State} {k : Nat} (hs : s.Canonical) :
    State.Canonical (State.trfRead s k).2 := by
  unfold State.trfRead
  repeat' first
    | with_reducible assumption | (intro x; refine keep_cut x (fun hx => ?_) ?_; clear_value x; rotate_left; subst x; rotate_left)
    | (intro x; subst x) | lift_lets | with_reducible (first | apply keep_put | apply keep_onMgt) | split

theorem keep_trfReads {a0 : Nat} {a1 : Nat} {a2 : State} (h : a2.Canonical) :
    State.Canonical (State.trfReads a0 a1 a2).2 := by
  induction a0 generalizing a1 a2 with
  | zero =>
    unfold State.trfReads
    repeat' with_reducible first | assumption
  | succ n ih =>
    unfold State.trfReads
    repeat' first
      | with_reducible assumption | (intro x; refine keep_cut x (fun hx => ?_) ?_; clear_value x; rotate_left; subst x; rotate_left)
      | (intro x; subst x) | lift_lets | with_reducible (first | apply ih | apply keep_trfRead)

theorem keep_trfDone {s : State} {result : Nat} {datardy : Bool} (hs : s.Canonical) :
    State.Canonical (State.trfDone s result datardy) := by
  unfold State.trfDone
  repeat' first
    | with_reducible assumption | (intro x; refine keep_cut x (fun hx => ?_) ?_; clear_value x; rotate_left; subst x; rotate_left)
    | lift_lets | with_reducible (first | apply keep_put | apply keep_putB | apply keep_clr | apply keep_raiseBit | apply keep_sendIbi)
    | with_reducible apply keep_ite

theorem keep_finishServed {r : Served} (hs : r.s.Canonical) : State.Canonical (State.finishServed r) := by
  unfold State.finishServed
  exact keep_trfDone (keep_dataSet (keep_each hs fun x u h => keep_wr h))

/-- What a served command gives is in canonical form. -/
inductive ServedKeeps : Option Served ⊕ State → Prop
  | done {r : Served} (h : r.s.Canonical) : ServedKeeps (.inl (some r))
  | wait : ServedKeeps (.inl none)
  | other {t : State} (h : t.Canonical) : ServedKeeps (.inr t)

theorem keep_wait : ServedKeeps (.inl none) := .wait

theorem keep_inr {s : State} (hs : s.Canonical) : ServedKeeps (.inr s) := .other hs

theorem keep_served_ite {c : Prop} {_ : Decidable c} {a b : Option Served ⊕ State} (ha : ServedKeeps a) (hb : ServedKeeps b) :
    ServedKeeps (if c then a else b) := by
  split <;> assumption

theorem keep_serve {s : State} {op : Nat} {f : State → Option Served ⊕ State} (hs : s.Canonical)
    (hf : ∀ u, State.Canonical u → ServedKeeps (f u)) : State.Canonical (State.serve s op f) := by
  have h := keep_clr (f := F.MGT_STAT_CMDPEND) hs
  have h2 := hf _ h
  unfold State.serve
  revert h2
  dsimp only
  intro h2
  repeat' with_reducible apply keep_ite
  · exact hs
  · exact keep_finishServed h
  · exact keep_finishServed h
  · revert h2
    generalize f (s.clr F.MGT_STAT_CMDPEND) = x
    intro h2
    cases h2 with
    | done h => exact keep_finishServed h
    | wait => exact h
    | other h => exact h

theorem keep_served {result : Nat} {s : State} {res : List Nat} {out : Option (List Byte)} (hs : s.Canonical) :
    ServedKeeps (served result s res out) := .done hs

end Sys2Proof.Machine
end

