-- ==== Sys2Proof/Laws/Keep/PdOps.lean ====
section
/-! SUPPORT. That the definitions of Machine/PdOps.lean keep the canonical form (see Laws/Keep.lean). -/

namespace Sys2Proof.Machine

open Sys2Proof

set_option linter.unusedSimpArgs false

theorem keep_onPd {s : State} {f : PdState → PdState} (hs : s.Canonical) :
    State.Canonical (State.onPd s f) := by
  unfold State.onPd
  repeat' first
    | with_reducible (first | assumption | apply And.intro | apply keep_regs | apply keep_sram | apply keep_store | apply keep_buf)
    | simp only [↓canonical_mk]

theorem keep_pdSend {s : State} {p : Packet} (hs : s.Canonical) :
    State.Canonical (State.pdSend s p) := by
  unfold State.pdSend
  repeat' first
    | with_reducible assumption | (intro x; refine keep_cut x (fun hx => ?_) ?_; clear_value x; rotate_left; subst x; rotate_left)
    | (intro x; subst x) | lift_lets
    | with_reducible (first | apply keep_reset | apply keep_ite | apply And.intro | apply keep_regs | apply keep_sram)
    | with_reducible (first | apply keep_store | apply keep_buf | apply keep_nil) | simp only [↓canonical_mk] | split

theorem keep_flnkSend {s : State} {p : Packet} (hs : s.Canonical) :
    State.Canonical (State.flnkSend s p) := by
  unfold State.flnkSend
  repeat' first
    | with_reducible assumption | (intro x; refine keep_cut x (fun hx => ?_) ?_; clear_value x; rotate_left; subst x; rotate_left)
    | (intro x; subst x) | lift_lets
    | with_reducible (first | apply keep_ite | apply And.intro | apply keep_regs | apply keep_sram | apply keep_store)
    | with_reducible (first | apply keep_buf | apply keep_nil) | simp only [↓canonical_mk] | split

theorem keep_logRetract {s : State} {r : Retract} {dur : Nat} (hs : s.Canonical) :
    State.Canonical (State.logRetract s r dur) := by
  unfold State.logRetract
  repeat' first
    | with_reducible assumption | (intro x; refine keep_cut x (fun hx => ?_) ?_; clear_value x; rotate_left; subst x; rotate_left)
    | (intro x; subst x) | lift_lets
    | with_reducible (first | apply keep_pdSend | apply keep_ite | apply And.intro | apply keep_regs | apply keep_sram)
    | with_reducible (first | apply keep_store | apply keep_buf) | simp only [↓canonical_mk]

theorem keep_pdFault {s : State} {kind detail : Nat} (hs : s.Canonical) :
    State.Canonical (State.pdFault s kind detail) := by
  unfold State.pdFault
  repeat' with_reducible first | assumption | apply keep_pdSend

theorem keep_faultRecord {s : State} {kind detail : Nat} (hs : s.Canonical) :
    State.Canonical (State.faultRecord s kind detail) := by
  unfold State.faultRecord
  repeat' with_reducible first | assumption | apply keep_event

end Sys2Proof.Machine
end

