-- ==== Sys2Proof/Laws/Keep/MsqOps.lean ====
section
/-! SUPPORT. That the definitions of Machine/MsqOps.lean keep the canonical form (see Laws/Keep.lean). -/

namespace Sys2Proof.Machine

open Sys2Proof

set_option linter.unusedSimpArgs false

theorem keep_onMsq {s : State} {f : MsqState → MsqState} (hs : s.Canonical) :
    State.Canonical (State.onMsq s f) := by
  unfold State.onMsq
  repeat' first
    | with_reducible (first | assumption | apply And.intro | apply keep_regs | apply keep_sram | apply keep_store | apply keep_buf)
    | simp only [↓canonical_mk]

theorem keep_msqExec {s : State} {rom : Word} {op : Nat} {go : Word → Nat → State → State} (hs : s.Canonical) (hgo : ∀ x0 x1 u, State.Canonical u → State.Canonical (go x0 x1 u)) :
    State.Canonical (State.msqExec s rom op go) := by
  unfold State.msqExec
  repeat' first | with_reducible (first | assumption | apply hgo | apply keep_ite) | lift_lets | split

theorem keep_msqAlu {s : State} {rom : Word} {op : Nat} {f : BitVec 16 → BitVec 16 → BitVec 16 → BitVec 16} (hs : s.Canonical) :
    State.Canonical (State.msqAlu s rom op f) := by
  unfold State.msqAlu
  repeat' first | with_reducible assumption | intro _ | lift_lets | with_reducible (first | apply keep_msqExec | apply keep_onMsq)

theorem keep_msqShow {s : State} {st : Nat} (hs : s.Canonical) :
    State.Canonical (State.msqShow s st) := by
  unfold State.msqShow
  repeat' first
    | with_reducible assumption | (intro x; refine keep_cut x (fun hx => ?_) ?_; clear_value x; rotate_left; subst x; rotate_left)
    | (intro x; subst x) | intro _ | lift_lets | with_reducible (first | apply keep_put | apply keep_each | apply keep_wr)

theorem keep_msqRecover {s : State} (hs : s.Canonical) :
    State.Canonical (State.msqRecover s) := by
  unfold State.msqRecover
  repeat' first
    | with_reducible assumption | (intro x; subst x) | lift_lets
    | with_reducible (first | apply keep_draw | apply keep_onMsq | apply keep_msqShow | apply keep_put | apply keep_pdFault)

theorem keep_patchSend {s : State} (hs : s.Canonical) :
    State.Canonical (State.patchSend s) := by
  unfold State.patchSend
  repeat' first
    | with_reducible assumption | (intro x; refine keep_cut x (fun hx => ?_) ?_; clear_value x; rotate_left; subst x; rotate_left)
    | (intro x; subst x) | intro _ | lift_lets | with_reducible (first | apply keep_each | apply keep_flnkSend | apply keep_onMsq)

theorem keep_patchRefused {s : State} {code : Nat} (hs : s.Canonical) :
    State.Canonical (State.patchRefused s code) := by
  unfold State.patchRefused
  repeat' with_reducible first | assumption | apply keep_put | apply keep_faultRecord

theorem keep_patchStart {s : State} (hs : s.Canonical) :
    State.Canonical (State.patchStart s) := by
  unfold State.patchStart
  repeat' first
    | with_reducible assumption | (intro x; refine keep_cut x (fun hx => ?_) ?_; clear_value x; rotate_left; subst x; rotate_left)
    | (intro x; subst x) | lift_lets
    | with_reducible (first | apply keep_put | apply keep_onMsq | apply keep_patchRefused | apply keep_patchSend | apply keep_ite)

theorem keep_patchResend {s : State} (hs : s.Canonical) :
    State.Canonical (State.patchResend s) := by
  unfold State.patchResend
  repeat' with_reducible first | assumption | apply keep_patchStart | apply keep_ite

theorem keep_patchActivate {s : State} (hs : s.Canonical) :
    State.Canonical (State.patchActivate s) := by
  unfold State.patchActivate
  repeat' first
    | with_reducible assumption | (intro x; refine keep_cut x (fun hx => ?_) ?_; clear_value x; rotate_left; subst x; rotate_left)
    | lift_lets | with_reducible (first | apply keep_onMsq | apply keep_msqShow | apply keep_put | apply keep_ite) | split

end Sys2Proof.Machine
end

