-- ==== Sys2Proof/Laws/Keep/PmxOps.lean ====
section
/-! SUPPORT. That the definitions of Machine/PmxOps.lean keep the canonical form (see Laws/Keep.lean). -/

namespace Sys2Proof.Machine

open Sys2Proof

set_option linter.unusedSimpArgs false

theorem keep_onPmx {s : State} {f : PmxState → PmxState} (hs : s.Canonical) :
    State.Canonical (State.onPmx s f) := by
  unfold State.onPmx
  repeat' first
    | with_reducible (first | assumption | apply And.intro | apply keep_regs | apply keep_sram | apply keep_store | apply keep_buf)
    | simp only [↓canonical_mk]

theorem keep_pmxHold {s : State} (hs : s.Canonical) :
    State.Canonical (State.pmxHold s) := by
  unfold State.pmxHold
  repeat' first
    | with_reducible assumption | (intro x; refine keep_cut x (fun hx => ?_) ?_; clear_value x; rotate_left; subst x; rotate_left)
    | (intro x; subst x) | intro _ | lift_lets
    | with_reducible (first | apply keep_each | apply keep_onPmx | apply keep_ite | apply And.intro | apply keep_regs)
    | with_reducible (first | apply keep_sram | apply keep_store | apply keep_buf | apply keep_nil) | simp only [↓canonical_mk] | split

theorem keep_pmxStops {s : State} (hs : s.Canonical) :
    State.Canonical (State.pmxStops s) := by
  unfold State.pmxStops
  repeat' first
    | with_reducible assumption | (intro x; refine keep_cut x (fun hx => ?_) ?_; clear_value x; rotate_left; subst x; rotate_left)
    | (intro x; subst x) | intro _ | lift_lets
    | with_reducible (first | apply keep_onPmx | apply keep_ite | apply And.intro | apply keep_regs | apply keep_sram)
    | with_reducible (first | apply keep_store | apply keep_buf | apply keep_nil) | simp only [↓canonical_mk] | split

theorem keep_pmxApply {s : State} (hs : s.Canonical) :
    State.Canonical (State.pmxApply s) := by
  unfold State.pmxApply
  repeat' first
    | with_reducible assumption | (intro x; subst x) | intro _ | lift_lets | with_reducible (first | apply keep_each | apply keep_onPmx)

theorem keep_uartStat {s : State} (hs : s.Canonical) :
    State.Canonical (State.uartStat s) := by
  unfold State.uartStat
  repeat' with_reducible first | assumption | apply keep_putB

theorem keep_uartKick {s : State} (hs : s.Canonical) :
    State.Canonical (State.uartKick s) := by
  unfold State.uartKick
  repeat' first | with_reducible (first | assumption | apply keep_onPmx | apply keep_uartStat | apply keep_ite) | lift_lets | split

theorem keep_pmxCut {s : State} {n : Nat} (hs : s.Canonical) :
    State.Canonical (State.pmxCut s n) := by
  unfold State.pmxCut
  repeat' first
    | with_reducible assumption | (intro x; refine keep_cut x (fun hx => ?_) ?_; clear_value x; rotate_left; subst x; rotate_left)
    | (intro x; subst x) | intro _ | lift_lets
    | with_reducible (first | apply keep_raiseBit | apply keep_onPmx | apply keep_uartStat | apply keep_clr | apply keep_ite)
    | with_reducible (first | apply And.intro | apply keep_regs | apply keep_sram | apply keep_store | apply keep_buf)
    | with_reducible (first | apply keep_nil) | simp only [↓canonical_mk] | split

end Sys2Proof.Machine
end

