-- ==== Sys2Proof/Laws/Keep/PcmOps.lean ====
section
/-! SUPPORT. That the definitions of Machine/PcmOps.lean keep the canonical form (see Laws/Keep.lean). -/

namespace Sys2Proof.Machine

open Sys2Proof

set_option linter.unusedSimpArgs false

theorem keep_onPcm {s : State} {f : PcmState → PcmState} (hs : s.Canonical) :
    State.Canonical (State.onPcm s f) := by
  unfold State.onPcm
  repeat' first
    | with_reducible (first | assumption | apply And.intro | apply keep_regs | apply keep_sram | apply keep_store | apply keep_buf)
    | simp only [↓canonical_mk]

theorem keep_onSst {s : State} {f : SstState → SstState} (hs : s.Canonical) :
    State.Canonical (State.onSst s f) := by
  unfold State.onSst
  repeat' first
    | with_reducible (first | assumption | apply And.intro | apply keep_regs | apply keep_sram | apply keep_store | apply keep_buf)
    | simp only [↓canonical_mk]

theorem keep_mcEvent {s : State} {code party : Nat} {payload : List Byte} (hs : s.Canonical) :
    State.Canonical (State.mcEvent s code party payload) := by
  unfold State.mcEvent
  repeat' first
    | with_reducible assumption | (intro x; subst x) | lift_lets
    | with_reducible (first | apply keep_takeEvent | apply keep_loseEvent | apply keep_ite)

theorem keep_testAbort {s : State} {cause : Nat} (hs : s.Canonical) :
    State.Canonical (State.testAbort s cause) := by
  unfold State.testAbort
  repeat' first
    | with_reducible assumption | (intro x; subst x) | lift_lets
    | with_reducible (first | apply keep_draw | apply keep_mcEvent | apply keep_ite | apply And.intro | apply keep_regs)
    | with_reducible (first | apply keep_sram | apply keep_store | apply keep_buf) | simp only [↓canonical_mk]

theorem keep_modeRecord {s : State} {src dst rails us : Nat} (hs : s.Canonical) :
    State.Canonical (State.modeRecord s src dst rails us) := by
  unfold State.modeRecord
  repeat' with_reducible first | assumption | apply keep_event

theorem keep_enterMode {s : State} {dst reason : Nat} {t : Trans} (hs : s.Canonical) :
    State.Canonical (State.enterMode s dst reason t) := by
  unfold State.enterMode
  repeat' first
    | with_reducible assumption | (intro x; refine keep_cut x (fun hx => ?_) ?_; clear_value x; rotate_left; subst x; rotate_left)
    | (intro x; subst x) | lift_lets
    | with_reducible (first | apply keep_testAbort | apply keep_put | apply keep_modeRecord | apply keep_ite)

theorem keep_pcmDone {s : State} {result : Nat} (hs : s.Canonical) :
    State.Canonical (State.pcmDone s result) := by
  unfold State.pcmDone
  repeat' with_reducible first | assumption | apply keep_onPcm | apply keep_clr | apply keep_put

theorem keep_abandon {s : State} {p : PcmPend} {blocking : Nat} (hs : s.Canonical) :
    State.Canonical (State.abandon s p blocking) := by
  unfold State.abandon
  repeat' first
    | with_reducible assumption | (intro x; refine keep_cut x (fun hx => ?_) ?_; clear_value x; rotate_left; subst x; rotate_left)
    | lift_lets | with_reducible (first | apply keep_pcmDone | apply keep_event)

theorem keep_sendPsup {s : State} {b : Bool} (hs : s.Canonical) :
    State.Canonical (State.sendPsup s b) := by
  unfold State.sendPsup
  repeat' with_reducible first | assumption | apply keep_onPcm | apply keep_flnkSend | apply keep_ite

theorem keep_hsqDiscard {s : State} (hs : s.Canonical) :
    State.Canonical (State.hsqDiscard s) := by
  unfold State.hsqDiscard
  repeat' first
    | with_reducible assumption | (intro x; refine keep_cut x (fun hx => ?_) ?_; clear_value x; rotate_left; subst x; rotate_left)
    | (intro x; subst x) | intro _ | lift_lets
    | with_reducible (first | apply keep_each | apply keep_clr | apply keep_onSst | apply keep_ite | apply And.intro)
    | with_reducible (first | apply keep_regs | apply keep_sram | apply keep_store | apply keep_buf | apply keep_nil)
    | simp only [↓canonical_mk] | split

theorem keep_loaderStop {s : State} (hs : s.Canonical) :
    State.Canonical (State.loaderStop s) := by
  unfold State.loaderStop
  repeat' first
    | with_reducible assumption | (intro x; refine keep_cut x (fun hx => ?_) ?_; clear_value x; rotate_left; subst x; rotate_left)
    | (intro x; subst x) | intro _ | lift_lets
    | with_reducible (first | apply keep_onSst | apply keep_morKick | apply keep_ite | apply And.intro | apply keep_regs)
    | with_reducible (first | apply keep_sram | apply keep_store | apply keep_buf | apply keep_nil) | simp only [↓canonical_mk] | split

theorem keep_owedRecords {s : State} {l : List (List Byte)} (hs : s.Canonical) :
    State.Canonical (State.owedRecords s l) := by
  unfold State.owedRecords
  repeat' first | with_reducible assumption | intro _ | lift_lets | with_reducible (first | apply keep_each | apply keep_event)

theorem keep_thawReset {s : State} {src : Nat} (hs : s.Canonical) :
    State.Canonical (State.thawReset s src) := by
  unfold State.thawReset
  repeat' first
    | with_reducible assumption | (intro x; refine keep_cut x (fun hx => ?_) ?_; clear_value x; rotate_left; subst x; rotate_left)
    | (intro x; subst x) | intro _ | lift_lets
    | with_reducible (first | apply keep_resetRegs | apply keep_put | apply keep_wr | apply keep_putB | apply keep_msqShow)
    | with_reducible (first | apply keep_clr | apply keep_ite | apply And.intro | apply keep_regs | apply keep_sram)
    | with_reducible (first | apply keep_store | apply keep_buf | apply keep_nil) | simp only [↓canonical_mk] | split

theorem keep_morThaw {s : State} {reboot : Bool} (hs : s.Canonical) :
    State.Canonical (State.morThaw s reboot) := by
  unfold State.morThaw
  repeat' first
    | with_reducible assumption | (intro x; refine keep_cut x (fun hx => ?_) ?_; clear_value x; rotate_left; subst x; rotate_left)
    | (intro x; subst x) | lift_lets
    | with_reducible (first | apply keep_incWrap | apply keep_clr | apply keep_ite | apply And.intro | apply keep_regs)
    | with_reducible (first | apply keep_sram | apply keep_store | apply keep_buf | apply keep_nil) | simp only [↓canonical_mk] | split

theorem keep_thawEntry {s : State} {src us : Nat} (hs : s.Canonical) :
    State.Canonical (State.thawEntry s src us) := by
  unfold State.thawEntry
  repeat' first
    | with_reducible assumption | (intro x; refine keep_cut x (fun hx => ?_) ?_; clear_value x; rotate_left; subst x; rotate_left)
    | (intro x; subst x) | lift_lets
    | with_reducible (first | apply keep_thawReset | apply keep_morThaw | apply keep_put | apply keep_modeRecord)
    | with_reducible (first | apply keep_stoEndSequences | apply keep_interruptedRecords | apply keep_stoDieReset)
    | with_reducible (first | apply keep_owedRecords | apply keep_sendPsup | apply keep_flnkSend | apply keep_ite)

theorem keep_rebootNow {s : State} {us : Nat} (hs : s.Canonical) :
    State.Canonical (State.rebootNow s us) := by
  unfold State.rebootNow
  repeat' first
    | with_reducible (first | assumption | apply keep_hsqDiscard | apply keep_chnStop | apply keep_loaderStop)
    | with_reducible apply keep_thawEntry

theorem keep_dmaRetreat {s : State} (hs : s.Canonical) :
    State.Canonical (State.dmaRetreat s) := by
  unfold State.dmaRetreat
  repeat' first
    | with_reducible assumption | intro _ | lift_lets | with_reducible (first | apply keep_each | apply keep_chStop | apply keep_ite)

theorem keep_fuseFinish {s : State} {op : FuseOp} {held : Nat} (hs : s.Canonical) :
    State.Canonical (State.fuseFinish s op held).2.2 := by
  unfold State.fuseFinish
  repeat' first | with_reducible assumption | (intro x; subst x) | lift_lets | with_reducible (first | apply keep_onSst | apply keep_putB)

theorem keep_fuseRetreat {s : State} (hs : s.Canonical) :
    State.Canonical (State.fuseRetreat s) := by
  unfold State.fuseRetreat
  repeat' first
    | with_reducible (first | assumption | apply keep_onSst | apply keep_clr | apply keep_fuseFinish | apply And.intro)
    | with_reducible (first | apply keep_regs | apply keep_sram | apply keep_store | apply keep_buf) | lift_lets | apply keep_ite
    | simp only [↓canonical_mk] | dsimp -zeta only [State.draw] | split

theorem keep_portsDown {s : State} (hs : s.Canonical) :
    State.Canonical (State.portsDown s) := by
  unfold State.portsDown
  repeat' first
    | with_reducible (first | assumption | apply And.intro | apply keep_regs | apply keep_sram | apply keep_store | apply keep_buf)
    | simp only [↓canonical_mk]

theorem keep_retreatPackets {s : State} {thaw : Bool} (hs : s.Canonical) :
    State.Canonical (State.retreatPackets s thaw) := by
  unfold State.retreatPackets
  repeat' first
    | with_reducible assumption | (intro x; refine keep_cut x (fun hx => ?_) ?_; clear_value x; rotate_left; subst x; rotate_left)
    | lift_lets | with_reducible (first | apply keep_flnkSend | apply keep_ite)

theorem keep_retreatEnter {s : State} {reason : Nat} {t : Trans} (hs : s.Canonical) :
    State.Canonical (State.retreatEnter s reason t) := by
  unfold State.retreatEnter
  repeat' first
    | with_reducible assumption | (intro x; refine keep_cut x (fun hx => ?_) ?_; clear_value x; rotate_left; subst x; rotate_left)
    | (intro x; subst x) | intro _ | lift_lets
    | with_reducible (first | apply keep_pmxHold | apply keep_hsqDiscard | apply keep_chnStop | apply keep_dmaRetreat | apply keep_loaderStop)
    | with_reducible (first | apply keep_fuseRetreat | apply keep_pcmDone | apply keep_enterMode | apply keep_stoRetreat | apply keep_portsDown)
    | with_reducible (first | apply keep_onPcm | apply keep_retreatPackets | apply keep_clr | apply keep_dmaRelease | apply keep_rmeWake)
    | with_reducible (first | apply keep_ordCancel | apply keep_chSettle | apply keep_ite | apply And.intro | apply keep_regs)
    | with_reducible (first | apply keep_sram | apply keep_store | apply keep_buf | apply keep_nil) | simp only [↓canonical_mk] | split

theorem keep_retreatTrigger {s : State} {bit : Nat} {t : Trans} (hs : s.Canonical) :
    State.Canonical (State.retreatTrigger s bit t) := by
  unfold State.retreatTrigger
  repeat' first
    | with_reducible assumption | (intro x; refine keep_cut x (fun hx => ?_) ?_; clear_value x; rotate_left; subst x; rotate_left)
    | lift_lets | with_reducible (first | apply keep_setIn | apply keep_retreatEnter | apply keep_ite)

theorem keep_leaveThaw {s : State} (hs : s.Canonical) :
    State.Canonical (State.leaveThaw s) := by
  unfold State.leaveThaw
  repeat' first
    | with_reducible assumption | (intro x; refine keep_cut x (fun hx => ?_) ?_; clear_value x; rotate_left; subst x; rotate_left)
    | (intro x; subst x) | intro _ | lift_lets
    | with_reducible (first | apply keep_each | apply keep_hostResume | apply keep_clr | apply keep_msixPending | apply keep_ite) | split

theorem keep_enterDrift {s : State} {t : Trans} (hs : s.Canonical) :
    State.Canonical (State.enterDrift s t) := by
  unfold State.enterDrift
  repeat' first
    | with_reducible assumption | (intro x; refine keep_cut x (fun hx => ?_) ?_; clear_value x; rotate_left; subst x; rotate_left)
    | (intro x; subst x) | lift_lets
    | with_reducible (first | apply keep_enterMode | apply keep_sendPsup | apply keep_leaveThaw | apply keep_ite)

theorem keep_enterFlow {s : State} {t : Trans} (hs : s.Canonical) :
    State.Canonical (State.enterFlow s t) := by
  unfold State.enterFlow
  repeat' with_reducible first | assumption | apply keep_enterMode | apply keep_onChn

theorem keep_enterDormant {s : State} {t : Trans} (hs : s.Canonical) :
    State.Canonical (State.enterDormant s t) := by
  unfold State.enterDormant
  repeat' first
    | with_reducible assumption | (intro x; refine keep_cut x (fun hx => ?_) ?_; clear_value x; rotate_left; subst x; rotate_left)
    | (intro x; subst x) | lift_lets
    | with_reducible (first | apply keep_pmxHold | apply keep_enterMode | apply keep_raiseBit | apply keep_pmxStops | apply keep_sendPsup)
    | with_reducible (first | apply keep_flnkSend | apply keep_leaveThaw | apply keep_ite) | split

theorem keep_sleepStart {s : State} {final source : Nat} (hs : s.Canonical) :
    State.Canonical (State.sleepStart s final source) := by
  unfold State.sleepStart
  repeat' with_reducible first | assumption | apply keep_onPcm | apply keep_raiseBit

theorem keep_pcmPend {s : State} {final : Nat} {step : PcmStep} (hs : s.Canonical) :
    State.Canonical (State.pcmPend s final step) := by
  unfold State.pcmPend
  repeat' first
    | with_reducible assumption | (intro x; refine keep_cut x (fun hx => ?_) ?_; clear_value x; rotate_left; subst x; rotate_left)
    | (intro x; subst x) | lift_lets | with_reducible (first | apply keep_raiseBit | apply keep_put | apply keep_onPcm | apply keep_ite)

theorem keep_wakeStart {s : State} {final : Nat} (hs : s.Canonical) :
    State.Canonical (State.wakeStart s final) := by
  unfold State.wakeStart
  repeat' first
    | with_reducible assumption | (intro x; refine keep_cut x (fun hx => ?_) ?_; clear_value x; rotate_left; subst x; rotate_left)
    | (intro x; subst x) | intro _ | lift_lets
    | with_reducible (first | apply keep_pcmPend | apply keep_onPcm | apply keep_clr | apply keep_dmaRelease | apply keep_rmeWake)
    | with_reducible (first | apply keep_flnkSend | apply keep_runChecks | apply keep_chSettle | apply keep_ite | apply And.intro)
    | with_reducible (first | apply keep_regs | apply keep_sram | apply keep_store | apply keep_buf | apply keep_nil)
    | simp only [↓canonical_mk] | split

theorem keep_pcmRegate {s : State} (hs : s.Canonical) :
    State.Canonical (State.pcmRegate s) := by
  unfold State.pcmRegate
  repeat' first
    | with_reducible assumption | (intro x; refine keep_cut x (fun hx => ?_) ?_; clear_value x; rotate_left; subst x; rotate_left)
    | (intro x; subst x) | intro _ | lift_lets
    | with_reducible (first | apply keep_pmxHold | apply keep_onPcm | apply keep_raiseBit | apply keep_pmxStops | apply keep_ite)
    | with_reducible (first | apply And.intro | apply keep_regs | apply keep_sram | apply keep_store | apply keep_buf)
    | with_reducible (first | apply keep_nil) | simp only [↓canonical_mk] | split

theorem keep_spinUpFailed {s : State} (hs : s.Canonical) :
    State.Canonical (State.spinUpFailed s) := by
  unfold State.spinUpFailed
  repeat' first
    | with_reducible assumption | (intro x; refine keep_cut x (fun hx => ?_) ?_; clear_value x; rotate_left; subst x; rotate_left)
    | (intro x; subst x) | intro _ | lift_lets
    | with_reducible (first | apply keep_abandon | apply keep_raiseBit | apply keep_onPcm | apply keep_pcmRegate | apply keep_ite)
    | with_reducible (first | apply And.intro | apply keep_regs | apply keep_sram | apply keep_store | apply keep_buf)
    | with_reducible (first | apply keep_nil) | simp only [↓canonical_mk] | split

theorem keep_modeSettle {s : State} (hs : s.Canonical) :
    State.Canonical (State.modeSettle s) := by
  unfold State.modeSettle
  repeat' with_reducible first | assumption | apply keep_chSettle

end Sys2Proof.Machine
end

