-- ==== Sys2Proof/Laws/Keep/SstOps.lean ====
section
/-! SUPPORT. That the definitions of Machine/SstOps.lean keep the canonical form (see Laws/Keep.lean). -/

namespace Sys2Proof.Machine

open Sys2Proof

set_option linter.unusedSimpArgs false

theorem keep_sramZero {s : State} {a n : Nat} (hs : s.Canonical) :
    State.Canonical (State.sramZero s a n) := by
  unfold State.sramZero
  repeat' first
    | with_reducible (first | assumption | apply And.intro | apply keep_regs | apply keep_sram | apply keep_store | apply keep_buf)
    | with_reducible apply Sparse.wf_keep | simp only [↓canonical_mk]

theorem keep_wrBytes {s : State} {r : Nat → Nat} {n : Nat} {bs : List Byte} (hs : s.Canonical) :
    State.Canonical (State.wrBytes s r n bs) := by
  unfold State.wrBytes
  repeat' first | with_reducible assumption | intro _ | lift_lets | with_reducible (first | apply keep_each | apply keep_wr)

theorem keep_bootSlot {s : State} {n : Nat} (hs : s.Canonical) :
    State.Canonical (State.bootSlot s n) := by
  unfold State.bootSlot
  repeat' first
    | with_reducible assumption | (intro x; refine keep_cut x (fun hx => ?_) ?_; clear_value x; rotate_left; subst x; rotate_left)
    | (intro x; subst x) | intro _ | lift_lets
    | with_reducible (first | apply keep_each | apply keep_put | apply keep_putB | apply keep_clr | apply keep_wr)
    | with_reducible (first | apply keep_wrBytes | apply keep_onSst | apply keep_event | apply keep_foldl | apply keep_ite)
    | with_reducible (first | apply And.intro | apply keep_regs | apply keep_sram | apply keep_store | apply keep_buf)
    | with_reducible (first | apply keep_nil) | simp only [↓canonical_mk] | split

theorem keep_recovery {s : State} (hs : s.Canonical) :
    State.Canonical (State.recovery s) := by
  unfold State.recovery
  repeat' first
    | with_reducible assumption | (intro x; refine keep_cut x (fun hx => ?_) ?_; clear_value x; rotate_left; subst x; rotate_left)
    | (intro x; subst x) | lift_lets
    | with_reducible (first | apply keep_event | apply keep_raiseBit | apply keep_put | apply keep_loaderStop)
    | with_reducible apply keep_flnkSend

theorem keep_fallbackRecord {s : State} {failed next : Nat} (hs : s.Canonical) :
    State.Canonical (State.fallbackRecord s failed next) := by
  unfold State.fallbackRecord
  repeat' with_reducible first | assumption | apply keep_event

theorem keep_failRecord {s : State} {seg cause blk : Nat} {chain : List Byte} (hs : s.Canonical) :
    State.Canonical (State.failRecord s seg cause blk chain) := by
  unfold State.failRecord
  repeat' with_reducible first | assumption | apply keep_event

theorem keep_discardCore {s : State} {c : Nat} (hs : s.Canonical) :
    State.Canonical (State.discardCore s c) := by
  unfold State.discardCore
  repeat' first
    | with_reducible assumption | (intro x; refine keep_cut x (fun hx => ?_) ?_; clear_value x; rotate_left; subst x; rotate_left)
    | (intro x; subst x) | intro _ | lift_lets
    | with_reducible (first | apply keep_sramZero | apply keep_onSst | apply keep_event | apply keep_ite | apply And.intro)
    | with_reducible (first | apply keep_regs | apply keep_sram | apply keep_store | apply keep_buf | apply keep_nil)
    | simp only [↓canonical_mk] | split

theorem keep_verifyFailed {s : State} {seg cause blk : Nat} {chain : List Byte} {us : Nat} (hs : s.Canonical) :
    State.Canonical (State.verifyFailed s seg cause blk chain us) := by
  unfold State.verifyFailed
  repeat' first
    | with_reducible assumption | (intro x; refine keep_cut x (fun hx => ?_) ?_; clear_value x; rotate_left; subst x; rotate_left)
    | (intro x; subst x) | intro _ | lift_lets
    | with_reducible (first | apply keep_each | apply keep_loaderStop | apply keep_put | apply keep_eccDrop | apply keep_discardCore)
    | with_reducible (first | apply keep_failRecord | apply keep_setIn | apply keep_rebootNow | apply keep_fallbackRecord | apply keep_sramZero)
    | with_reducible (first | apply keep_bootSlot | apply keep_recovery | apply keep_ite | apply And.intro | apply keep_regs)
    | with_reducible (first | apply keep_sram | apply keep_store | apply keep_buf | apply keep_nil) | simp only [↓canonical_mk] | split

theorem keep_fuseStart {s : State} {op : FuseOp} (hs : s.Canonical) :
    State.Canonical (State.fuseStart s op) := by
  unfold State.fuseStart
  repeat' with_reducible first | assumption | apply keep_onSst | apply keep_raiseBit

theorem keep_svnCommit {s : State} (hs : s.Canonical) :
    State.Canonical (State.svnCommit s) := by
  unfold State.svnCommit
  repeat' first
    | with_reducible assumption | (intro x; subst x) | lift_lets
    | with_reducible (first | apply keep_onSst | apply keep_fuseStart | apply keep_ite) | split

theorem keep_segPass {s : State} {k : Nat} (hs : s.Canonical) :
    State.Canonical (State.segPass s k) := by
  unfold State.segPass
  repeat' first
    | with_reducible assumption | (intro x; refine keep_cut x (fun hx => ?_) ?_; clear_value x; rotate_left; subst x; rotate_left)
    | (intro x; subst x) | lift_lets
    | with_reducible (first | apply keep_put | apply keep_event | apply keep_wrBytes | apply keep_onMsq | apply keep_patchStart)
    | with_reducible apply keep_ite

theorem keep_handover {s : State} (hs : s.Canonical) :
    State.Canonical (State.handover s) := by
  unfold State.handover
  repeat' first
    | with_reducible assumption | (intro x; refine keep_cut x (fun hx => ?_) ?_; clear_value x; rotate_left; subst x; rotate_left)
    | (intro x; subst x) | intro _ | lift_lets
    | with_reducible (first | apply keep_raiseBit | apply keep_onSst | apply keep_sramZero | apply keep_event | apply keep_emit)
    | with_reducible (first | apply keep_getD | apply keep_ite | apply And.intro | apply keep_regs | apply keep_sram)
    | with_reducible (first | apply keep_store | apply keep_buf | apply keep_nil) | simp only [↓canonical_mk] | split

theorem keep_handoverDue {s : State} (hs : s.Canonical) :
    State.Canonical (State.handoverDue s) := by
  unfold State.handoverDue
  repeat' first
    | with_reducible assumption | (intro x; refine keep_cut x (fun hx => ?_) ?_; clear_value x; rotate_left; subst x; rotate_left)
    | (intro x; subst x) | lift_lets | with_reducible (first | apply keep_handover | apply keep_ite) | split

theorem keep_passFlags {s : State} (hs : s.Canonical) :
    State.Canonical (State.passFlags s) := by
  unfold State.passFlags
  repeat' first
    | with_reducible assumption | (intro x; refine keep_cut x (fun hx => ?_) ?_; clear_value x; rotate_left; subst x; rotate_left)
    | (intro x; subst x) | intro _ | lift_lets
    | with_reducible (first | apply keep_putB | apply keep_handoverDue | apply keep_raiseBit | apply keep_onSst | apply keep_svnCommit)
    | with_reducible (first | apply keep_morKick | apply keep_ite | apply And.intro | apply keep_regs | apply keep_sram)
    | with_reducible (first | apply keep_store | apply keep_buf | apply keep_nil) | simp only [↓canonical_mk] | split

theorem keep_passMatched {s : State} (hs : s.Canonical) :
    State.Canonical (State.passMatched s) := by
  unfold State.passMatched
  repeat' first
    | with_reducible assumption | intro _ | lift_lets
    | with_reducible (first | apply keep_each | apply keep_segPass | apply keep_passFlags | apply keep_ite)

end Sys2Proof.Machine
end

