-- ==== Sys2Proof/Laws/Keep/Sst.lean ====
section
/-! SUPPORT. That the definitions of Machine/Sst.lean keep the canonical form (see Laws/Keep.lean). -/

namespace Sys2Proof.Machine

open Sys2Proof

set_option linter.unusedSimpArgs false

theorem keep_secLeavesReset {s : State} (hs : s.Canonical) :
    State.Canonical (secLeavesReset s) := by
  unfold secLeavesReset
  repeat' first
    | with_reducible assumption | (intro x; refine keep_cut x (fun hx => ?_) ?_; clear_value x; rotate_left; subst x; rotate_left)
    | (intro x; subst x) | lift_lets
    | with_reducible (first | apply keep_onSst | apply keep_put | apply keep_raiseBit | apply keep_flnkSend | apply keep_ite)

theorem keep_execSecLeavesReset {s : State} (hs : s.Canonical) :
    OutcomeKeeps (execSecLeavesReset s) := keeps_next (keep_secLeavesReset hs)

theorem keep_headersRead {s : State} (hs : s.Canonical) :
    State.Canonical (headersRead s) := by
  unfold headersRead
  repeat' first
    | with_reducible assumption | (intro x; refine keep_cut x (fun hx => ?_) ?_; clear_value x; rotate_left; subst x; rotate_left)
    | (intro x; subst x) | intro _ | lift_lets
    | with_reducible (first | apply keep_wakeBank | apply keep_onSst | apply keep_bootSlot | apply keep_recovery | apply keep_eccKick)
    | with_reducible (first | apply keep_ite | apply And.intro | apply keep_regs | apply keep_sram | apply keep_store)
    | with_reducible (first | apply keep_buf | apply keep_nil) | simp only [↓canonical_mk] | split

theorem keep_execHeadersRead {s : State} (hs : s.Canonical) :
    OutcomeKeeps (execHeadersRead s) := keeps_next (keep_headersRead hs)

theorem keep_placeBlock {s : State} {k i : Nat} {b : List Byte} (hs : s.Canonical) :
    State.Canonical (State.placeBlock s k i b) := by
  unfold State.placeBlock
  repeat' first
    | with_reducible (first | assumption | apply keep_sramWrite | apply keep_onSst | apply keep_onWsq | apply keep_ite) | lift_lets | split

theorem keep_blockArrived {s : State} {k i : Nat} (hs : s.Canonical) :
    State.Canonical (State.blockArrived s k i) := by
  unfold State.blockArrived
  repeat' first
    | with_reducible assumption | (intro x; refine keep_cut x (fun hx => ?_) ?_; clear_value x; rotate_left; subst x; rotate_left)
    | (intro x; subst x) | intro _ | lift_lets
    | with_reducible (first | apply keep_onSst | apply keep_clr | apply keep_ite | apply And.intro | apply keep_regs)
    | with_reducible (first | apply keep_sram | apply keep_store | apply keep_buf | apply keep_nil) | simp only [↓canonical_mk] | split

theorem keep_blockLanded {us : BitVec 32} {s : State} (hs : s.Canonical) :
    State.Canonical (blockLanded us s) := by
  unfold blockLanded
  repeat' first
    | with_reducible assumption | (intro x; refine keep_cut x (fun hx => ?_) ?_; clear_value x; rotate_left; subst x; rotate_left)
    | (intro x; subst x) | intro _ | lift_lets
    | with_reducible (first | apply keep_wakeBank | apply keep_stoCapture | apply keep_put | apply keep_verifyFailed | apply keep_eccKick)
    | with_reducible (first | apply keep_placeBlock | apply keep_onSst | apply keep_blockArrived | apply keep_ite | apply And.intro)
    | with_reducible (first | apply keep_regs | apply keep_sram | apply keep_store | apply keep_buf | apply keep_nil)
    | simp only [↓canonical_mk] | split

theorem keep_execBlockLanded (us : BitVec 32) {s : State} (hs : s.Canonical) :
    OutcomeKeeps (execBlockLanded us s) := keeps_next (keep_blockLanded hs)

theorem keep_blockHashed {us : BitVec 32} {s : State} (hs : s.Canonical) :
    State.Canonical (blockHashed us s) := by
  unfold blockHashed
  repeat' first
    | with_reducible assumption | (intro x; refine keep_cut x (fun hx => ?_) ?_; clear_value x; rotate_left; subst x; rotate_left)
    | (intro x; subst x) | intro _ | lift_lets
    | with_reducible (first | apply keep_onSst | apply keep_put | apply keep_passMatched | apply keep_eccKick | apply keep_verifyFailed)
    | with_reducible (first | apply keep_ite | apply And.intro | apply keep_regs | apply keep_sram | apply keep_store)
    | with_reducible (first | apply keep_buf | apply keep_nil) | simp only [↓canonical_mk] | split

theorem keep_execBlockHashed (us : BitVec 32) {s : State} (hs : s.Canonical) :
    OutcomeKeeps (execBlockHashed us s) := keeps_next (keep_blockHashed hs)

theorem keep_headerJudge {us : BitVec 32} {s : State} (hs : s.Canonical) :
    State.Canonical (headerJudge us s) := by
  unfold headerJudge
  repeat' first
    | with_reducible assumption | (intro x; refine keep_cut x (fun hx => ?_) ?_; clear_value x; rotate_left; subst x; rotate_left)
    | (intro x; subst x) | intro _ | lift_lets
    | with_reducible (first | apply keep_each | apply keep_put | apply keep_passMatched | apply keep_verifyFailed | apply keep_ite)
    | split

theorem keep_headerSignatureDone {us : BitVec 32} {s : State} (hs : s.Canonical) :
    State.Canonical (headerSignatureDone us s) := by
  unfold headerSignatureDone
  repeat' first
    | with_reducible assumption | (intro x; refine keep_cut x (fun hx => ?_) ?_; clear_value x; rotate_left; subst x; rotate_left)
    | (intro x; subst x) | lift_lets
    | with_reducible (first | apply keep_eccFree | apply keep_eccKick | apply keep_headerJudge | apply keep_ite) | split

theorem keep_execHeaderSignatureDone (us : BitVec 32) {s : State} (hs : s.Canonical) :
    OutcomeKeeps (execHeaderSignatureDone us s) := keeps_next (keep_headerSignatureDone hs)

theorem keep_devidDerived {s : State} (hs : s.Canonical) :
    State.Canonical (devidDerived s) := by
  unfold devidDerived
  repeat' first
    | with_reducible assumption | (intro x; refine keep_cut x (fun hx => ?_) ?_; clear_value x; rotate_left; subst x; rotate_left)
    | (intro x; subst x) | intro _ | lift_lets
    | with_reducible (first | apply keep_eccFree | apply keep_onSst | apply keep_wrBytes | apply keep_eccKick | apply keep_ite)
    | with_reducible (first | apply And.intro | apply keep_regs | apply keep_sram | apply keep_store | apply keep_buf)
    | with_reducible (first | apply keep_nil) | simp only [↓canonical_mk] | split

theorem keep_execDevidDerived {s : State} (hs : s.Canonical) :
    OutcomeKeeps (execDevidDerived s) := keeps_next (keep_devidDerived hs)

theorem keep_aliasDerived {s : State} (hs : s.Canonical) :
    State.Canonical (aliasDerived s) := by
  unfold aliasDerived
  repeat' first
    | with_reducible assumption | (intro x; refine keep_cut x (fun hx => ?_) ?_; clear_value x; rotate_left; subst x; rotate_left)
    | (intro x; subst x) | intro _ | lift_lets
    | with_reducible (first | apply keep_eccFree | apply keep_eccKick | apply keep_onSst | apply keep_wrBytes | apply keep_handoverDue)
    | with_reducible (first | apply keep_ite | apply And.intro | apply keep_regs | apply keep_sram | apply keep_store)
    | with_reducible (first | apply keep_buf | apply keep_nil) | simp only [↓canonical_mk] | split

theorem keep_execAliasDerived {s : State} (hs : s.Canonical) :
    OutcomeKeeps (execAliasDerived s) := keeps_next (keep_aliasDerived hs)

theorem keep_aliasCertReady {s : State} (hs : s.Canonical) :
    State.Canonical (aliasCertReady s) := by
  unfold aliasCertReady
  repeat' first
    | with_reducible assumption | (intro x; refine keep_cut x (fun hx => ?_) ?_; clear_value x; rotate_left; subst x; rotate_left)
    | (intro x; subst x) | intro _ | lift_lets
    | with_reducible (first | apply keep_eccFree | apply keep_sign | apply keep_f_sign | apply keep_onSst | apply keep_put)
    | with_reducible (first | apply keep_raiseBit | apply keep_eccKick | apply keep_ite | apply And.intro | apply keep_regs)
    | with_reducible (first | apply keep_sram | apply keep_store | apply keep_buf | apply keep_nil) | simp only [↓canonical_mk] | split

theorem keep_execAliasCertReady {s : State} (hs : s.Canonical) :
    OutcomeKeeps (execAliasCertReady s) := keeps_next (keep_aliasCertReady hs)

theorem keep_keyLock {m : Master} {v : Word} {s : State} (hs : s.Canonical) :
    State.Canonical (keyLock m v s) := by
  unfold keyLock
  repeat' with_reducible first | assumption | apply keep_wr | apply keep_ite

theorem keep_execKeyLock (m : Master) (v : Word) {s : State} (hs : s.Canonical) :
    OutcomeKeeps (execKeyLock m v s) := by
  unfold execKeyLock
  apply keeps_next
  repeat' first
    | with_reducible assumption | (intro x; refine keep_cut x (fun hx => ?_) ?_; clear_value x; rotate_left; subst x; rotate_left)
    | (intro x; subst x) | intro _ | lift_lets | with_reducible (first | apply keep_byCore | apply keep_keyLock | apply keep_ite) | split

theorem keep_keyCommand {s : State} {m : Master} {go : State → State} (hs : s.Canonical) (hgo : ∀  u, State.Canonical u → State.Canonical (go u)) :
    State.Canonical (State.keyCommand s m go) := by
  unfold State.keyCommand
  repeat' with_reducible first | assumption | apply hgo | apply keep_put | apply keep_ite

theorem keep_derive {m : Master} {v : Word} {s : State} (hs : s.Canonical) :
    State.Canonical (derive m v s) := by
  unfold derive
  repeat' first
    | with_reducible assumption | intro _ | lift_lets
    | with_reducible (first | apply keep_keyCommand | apply keep_onSst | apply keep_raiseBit | apply keep_ite)

theorem keep_execDerive (m : Master) (v : Word) {s : State} (hs : s.Canonical) :
    OutcomeKeeps (execDerive m v s) := by
  unfold execDerive
  apply keeps_next
  repeat' first
    | with_reducible assumption | (intro x; refine keep_cut x (fun hx => ?_) ?_; clear_value x; rotate_left; subst x; rotate_left)
    | (intro x; subst x) | intro _ | lift_lets | with_reducible (first | apply keep_byCore | apply keep_derive | apply keep_ite) | split

theorem keep_deriveDone {s : State} (hs : s.Canonical) :
    State.Canonical (deriveDone s) := by
  unfold deriveDone
  repeat' first
    | with_reducible assumption | (intro x; refine keep_cut x (fun hx => ?_) ?_; clear_value x; rotate_left; subst x; rotate_left)
    | (intro x; subst x) | intro _ | lift_lets
    | with_reducible (first | apply keep_onSst | apply keep_clr | apply keep_newKey | apply keep_ite | apply And.intro)
    | with_reducible (first | apply keep_regs | apply keep_sram | apply keep_store | apply keep_buf | apply keep_nil)
    | simp only [↓canonical_mk] | split

theorem keep_execDeriveDone {s : State} (hs : s.Canonical) :
    OutcomeKeeps (execDeriveDone s) := keeps_next (keep_deriveDone hs)

theorem keep_keyClear {m : Master} {v : Word} {s : State} (hs : s.Canonical) :
    State.Canonical (keyClear m v s) := by
  unfold keyClear
  repeat' first
    | with_reducible assumption | (intro x; refine keep_cut x (fun hx => ?_) ?_; clear_value x; rotate_left; subst x; rotate_left)
    | (intro x; subst x) | intro _ | lift_lets | with_reducible (first | apply keep_keyCommand | apply keep_newKey | apply keep_ite)
    | split

theorem keep_execKeyClear (m : Master) (v : Word) {s : State} (hs : s.Canonical) :
    OutcomeKeeps (execKeyClear m v s) := by
  unfold execKeyClear
  apply keeps_next
  repeat' first
    | with_reducible assumption | (intro x; refine keep_cut x (fun hx => ?_) ?_; clear_value x; rotate_left; subst x; rotate_left)
    | (intro x; subst x) | intro _ | lift_lets | with_reducible (first | apply keep_byCore | apply keep_keyClear | apply keep_ite) | split

theorem keep_f_sign {m : Master} {v : Word} {s : State} (hs : s.Canonical) :
    State.Canonical (sign m v s) := by
  unfold sign
  repeat' first
    | with_reducible assumption | (intro x; refine keep_cut x (fun hx => ?_) ?_; clear_value x; rotate_left; subst x; rotate_left)
    | (intro x; subst x) | intro _ | lift_lets
    | with_reducible (first | apply keep_put | apply keep_onSst | apply keep_raiseBit | apply keep_eccKick | apply keep_ite)
    | with_reducible (first | apply And.intro | apply keep_regs | apply keep_sram | apply keep_store | apply keep_buf)
    | with_reducible (first | apply keep_nil) | simp only [↓canonical_mk] | split

theorem keep_execSign (m : Master) (v : Word) {s : State} (hs : s.Canonical) :
    OutcomeKeeps (execSign m v s) := by
  unfold execSign
  apply keeps_next
  repeat' first
    | with_reducible assumption | (intro x; refine keep_cut x (fun hx => ?_) ?_; clear_value x; rotate_left; subst x; rotate_left)
    | (intro x; subst x) | intro _ | lift_lets
    | with_reducible (first | apply keep_byCore | apply keep_sign | apply keep_f_sign | apply keep_ite) | split

theorem keep_signDone {s : State} (hs : s.Canonical) :
    State.Canonical (signDone s) := by
  unfold signDone
  repeat' first
    | with_reducible assumption | (intro x; refine keep_cut x (fun hx => ?_) ?_; clear_value x; rotate_left; subst x; rotate_left)
    | (intro x; subst x) | intro _ | lift_lets
    | with_reducible (first | apply keep_eccFree | apply keep_sign | apply keep_f_sign | apply keep_onSst | apply keep_clr)
    | with_reducible (first | apply keep_wrBytes | apply keep_eccKick | apply keep_ite | apply And.intro | apply keep_regs)
    | with_reducible (first | apply keep_sram | apply keep_store | apply keep_buf | apply keep_nil) | simp only [↓canonical_mk] | split

theorem keep_execSignDone {s : State} (hs : s.Canonical) :
    OutcomeKeeps (execSignDone s) := keeps_next (keep_signDone hs)

theorem keep_releaseCore {s : State} {c : Nat} (hs : s.Canonical) :
    State.Canonical (State.releaseCore s c) := by
  unfold State.releaseCore
  repeat' first
    | with_reducible assumption | (intro x; refine keep_cut x (fun hx => ?_) ?_; clear_value x; rotate_left; subst x; rotate_left)
    | (intro x; subst x) | lift_lets | with_reducible (first | apply keep_raiseBit | apply keep_setIn | apply keep_emit | apply keep_ite)

theorem keep_coreRelease {m : Master} {v : Word} {s : State} (hs : s.Canonical) :
    State.Canonical (coreRelease m v s) := by
  unfold coreRelease
  repeat' first
    | with_reducible assumption | intro _ | lift_lets | with_reducible (first | apply keep_each | apply keep_releaseCore | apply keep_ite)

theorem keep_execCoreRelease (m : Master) (v : Word) {s : State} (hs : s.Canonical) :
    OutcomeKeeps (execCoreRelease m v s) := by
  unfold execCoreRelease
  apply keeps_next
  repeat' first
    | with_reducible assumption | (intro x; refine keep_cut x (fun hx => ?_) ?_; clear_value x; rotate_left; subst x; rotate_left)
    | (intro x; subst x) | intro _ | lift_lets | with_reducible (first | apply keep_byCore | apply keep_coreRelease | apply keep_ite)
    | split

theorem keep_svWsqRelease {s : State} (hs : s.Canonical) :
    State.Canonical (svWsqRelease s) := by
  unfold svWsqRelease
  repeat' first
    | with_reducible assumption | (intro x; refine keep_cut x (fun hx => ?_) ?_; clear_value x; rotate_left; subst x; rotate_left)
    | (intro x; subst x) | lift_lets
    | with_reducible (first | apply keep_setIn | apply keep_raiseBit | apply keep_clr | apply keep_put | apply keep_onWsq)
    | with_reducible (first | apply keep_emit | apply keep_ite)

theorem keep_execSvWsqRelease {s : State} (hs : s.Canonical) :
    OutcomeKeeps (execSvWsqRelease s) := keeps_next (keep_svWsqRelease hs)

theorem keep_fuseProgramDone {held : BitVec 384} {s : State} (hs : s.Canonical) :
    State.Canonical (fuseProgramDone held s) := by
  unfold fuseProgramDone
  repeat' first
    | with_reducible (first | assumption | apply keep_fuseFinish | apply keep_event | apply keep_clr | apply keep_put)
    | with_reducible (first | apply keep_onSst | apply keep_fuseStart) | lift_lets | simp only [↓canonical_mk] | split

theorem keep_execFuseProgramDone (held : BitVec 384) {s : State} (hs : s.Canonical) :
    OutcomeKeeps (execFuseProgramDone held s) := keeps_next (keep_fuseProgramDone hs)

theorem keep_fuseCommand {s : State} {m : Master} {v : Word} {o : Nat} {bad : Bool} {op : FuseOp} (hs : s.Canonical) :
    State.Canonical (State.fuseCommand s m v o bad op) := by
  unfold State.fuseCommand
  repeat' with_reducible first | assumption | apply keep_put | apply keep_fuseStart | apply keep_ite

theorem keep_programKeyhash {m : Master} {v : Word} {s : State} (hs : s.Canonical) :
    State.Canonical (programKeyhash m v s) := by
  unfold programKeyhash
  repeat' first | with_reducible assumption | (intro x; subst x) | lift_lets | with_reducible apply keep_fuseCommand

theorem keep_execProgramKeyhash (m : Master) (v : Word) {s : State} (hs : s.Canonical) :
    OutcomeKeeps (execProgramKeyhash m v s) := by
  unfold execProgramKeyhash
  apply keeps_next
  repeat' first
    | with_reducible assumption | (intro x; refine keep_cut x (fun hx => ?_) ?_; clear_value x; rotate_left; subst x; rotate_left)
    | (intro x; subst x) | intro _ | lift_lets | with_reducible (first | apply keep_byCore | apply keep_programKeyhash | apply keep_ite)
    | split

theorem keep_setProduction {m : Master} {v : Word} {s : State} (hs : s.Canonical) :
    State.Canonical (setProduction m v s) := by
  unfold setProduction
  repeat' with_reducible first | assumption | apply keep_fuseCommand

theorem keep_execSetProduction (m : Master) (v : Word) {s : State} (hs : s.Canonical) :
    OutcomeKeeps (execSetProduction m v s) := by
  unfold execSetProduction
  apply keeps_next
  repeat' first
    | with_reducible assumption | (intro x; refine keep_cut x (fun hx => ?_) ?_; clear_value x; rotate_left; subst x; rotate_left)
    | (intro x; subst x) | intro _ | lift_lets | with_reducible (first | apply keep_byCore | apply keep_setProduction | apply keep_ite)
    | split

theorem keep_programTargetRpm {m : Master} {v : Word} {s : State} (hs : s.Canonical) :
    State.Canonical (programTargetRpm m v s) := by
  unfold programTargetRpm
  repeat' first | with_reducible assumption | (intro x; subst x) | lift_lets | with_reducible apply keep_fuseCommand

theorem keep_execProgramTargetRpm (m : Master) (v : Word) {s : State} (hs : s.Canonical) :
    OutcomeKeeps (execProgramTargetRpm m v s) := by
  unfold execProgramTargetRpm
  apply keeps_next
  repeat' first
    | with_reducible assumption | (intro x; refine keep_cut x (fun hx => ?_) ?_; clear_value x; rotate_left; subst x; rotate_left)
    | (intro x; subst x) | intro _ | lift_lets | with_reducible (first | apply keep_byCore | apply keep_programTargetRpm | apply keep_ite)
    | split

end Sys2Proof.Machine
end

