-- ==== Sys2Proof/Laws/Keep/Mctp.lean ====
section
/-! SUPPORT. That the definitions of Machine/Mctp.lean keep the canonical form (see Laws/Keep.lean). -/

namespace Sys2Proof.Machine

open Sys2Proof

set_option linter.unusedSimpArgs false

theorem keep_mctpDeliver {s : State} {a : McAsm} (hs : s.Canonical) :
    State.Canonical (State.mctpDeliver s a) := by
  unfold State.mctpDeliver
  repeat' first
    | with_reducible assumption | (intro x; refine keep_cut x (fun hx => ?_) ?_; clear_value x; rotate_left; subst x; rotate_left)
    | (intro x; subst x) | lift_lets
    | with_reducible (first | apply keep_poolWrite | apply keep_put | apply keep_putB | apply keep_raiseBit | apply keep_ite) | split

theorem keep_mctpTake {s : State} {a : McAsm} {payload : List Byte} {eom : Bool} (hs : s.Canonical) :
    State.Canonical (State.mctpTake s a payload eom) := by
  unfold State.mctpTake
  repeat' first
    | with_reducible assumption | (intro x; refine keep_cut x (fun hx => ?_) ?_; clear_value x; rotate_left; subst x; rotate_left)
    | (intro x; subst x) | lift_lets | with_reducible (first | apply keep_onMgt | apply keep_inc | apply keep_mctpDeliver | apply keep_ite)

theorem keep_mctpPacket {bytes : List Byte} {s : State} (hs : s.Canonical) :
    State.Canonical (mctpPacket bytes s) := by
  unfold mctpPacket
  repeat' first
    | with_reducible assumption | (intro x; subst x) | lift_lets
    | with_reducible (first | apply keep_inc | apply keep_mctpTake | apply keep_onMgt | apply keep_ite) | split

theorem keep_execMctpPacket (bytes : List Byte) {s : State} (hs : s.Canonical) :
    OutcomeKeeps (execMctpPacket bytes s) := keeps_next (keep_mctpPacket hs)

theorem keep_mrxPop {m : Master} {v : Word} {s : State} (hs : s.Canonical) :
    State.Canonical (mrxPop m v s) := by
  unfold mrxPop
  repeat' with_reducible first | assumption | apply keep_clr | apply keep_ite

theorem keep_execMrxPop (m : Master) (v : Word) {s : State} (hs : s.Canonical) :
    OutcomeKeeps (execMrxPop m v s) := by
  unfold execMrxPop
  apply keeps_next
  repeat' first
    | with_reducible assumption | (intro x; refine keep_cut x (fun hx => ?_) ?_; clear_value x; rotate_left; subst x; rotate_left)
    | (intro x; subst x) | intro _ | lift_lets | with_reducible (first | apply keep_byCore | apply keep_mrxPop | apply keep_ite) | split

theorem keep_mctpSend {s : State} {len deid tag : Nat} {to_ : Bool} (hs : s.Canonical) :
    State.Canonical (State.mctpSend s len deid tag to_) := by
  unfold State.mctpSend
  repeat' first
    | with_reducible assumption | (intro x; refine keep_cut x (fun hx => ?_) ?_; clear_value x; rotate_left; subst x; rotate_left)
    | (intro x; subst x) | intro _ | lift_lets
    | with_reducible (first | apply keep_each | apply keep_sendIbi | apply keep_emit | apply keep_ite) | split

theorem keep_mtxSend {m : Master} {v : Word} {s : State} (hs : s.Canonical) :
    State.Canonical (mtxSend m v s) := by
  unfold mtxSend
  repeat' with_reducible first | assumption | apply keep_mctpSend | apply keep_ite

theorem keep_execMtxSend (m : Master) (v : Word) {s : State} (hs : s.Canonical) :
    OutcomeKeeps (execMtxSend m v s) := by
  unfold execMtxSend
  apply keeps_next
  repeat' first
    | with_reducible assumption | (intro x; refine keep_cut x (fun hx => ?_) ?_; clear_value x; rotate_left; subst x; rotate_left)
    | (intro x; subst x) | intro _ | lift_lets | with_reducible (first | apply keep_byCore | apply keep_mtxSend | apply keep_ite) | split

theorem keep_mctpReply {s : State} {bs : List Byte} (hs : s.Canonical) :
    State.Canonical (State.mctpReply s bs) := by
  unfold State.mctpReply
  repeat' first
    | with_reducible assumption | (intro x; refine keep_cut x (fun hx => ?_) ?_; clear_value x; rotate_left; subst x; rotate_left)
    | (intro x; subst x) | lift_lets
    | with_reducible (first | apply keep_poolWrite | apply keep_mtxSend | apply keep_clr | apply keep_ite) | split

theorem keep_mctpControl {s : State} {code : Nat} {f : List Byte → State → List Byte × State} (hs : s.Canonical) (hf : ∀ x0 u, State.Canonical u → State.Canonical (f x0 u).2) :
    State.Canonical (State.mctpControl s code f) := by
  unfold State.mctpControl
  repeat' first
    | with_reducible assumption | (intro x; refine keep_cut x (fun hx => ?_) ?_; clear_value x; rotate_left; subst x; rotate_left)
    | (intro x; subst x) | lift_lets | with_reducible (first | apply hf | apply keep_clr | apply keep_mctpReply | apply keep_ite)

theorem keep_setEndpointId {s : State} (hs : s.Canonical) :
    State.Canonical (setEndpointId s) := by
  unfold setEndpointId
  repeat' first | with_reducible assumption | intro _ | lift_lets | with_reducible (first | apply keep_mctpControl | apply keep_put) | split

theorem keep_execSetEndpointId {s : State} (hs : s.Canonical) :
    OutcomeKeeps (execSetEndpointId s) := keeps_next (keep_setEndpointId hs)

theorem keep_getEndpointId {s : State} (hs : s.Canonical) :
    State.Canonical (getEndpointId s) := by
  unfold getEndpointId
  repeat' first | with_reducible assumption | intro _ | with_reducible apply keep_mctpControl

theorem keep_execGetEndpointId {s : State} (hs : s.Canonical) :
    OutcomeKeeps (execGetEndpointId s) := keeps_next (keep_getEndpointId hs)

theorem keep_getEndpointUuid {s : State} (hs : s.Canonical) :
    State.Canonical (getEndpointUuid s) := by
  unfold getEndpointUuid
  repeat' first | with_reducible assumption | intro _ | with_reducible apply keep_mctpControl

theorem keep_execGetEndpointUuid {s : State} (hs : s.Canonical) :
    OutcomeKeeps (execGetEndpointUuid s) := keeps_next (keep_getEndpointUuid hs)

theorem keep_getMctpVersionSupport {s : State} (hs : s.Canonical) :
    State.Canonical (getMctpVersionSupport s) := by
  unfold getMctpVersionSupport
  repeat' first | with_reducible assumption | intro _ | lift_lets | with_reducible apply keep_mctpControl | split

theorem keep_execGetMctpVersionSupport {s : State} (hs : s.Canonical) :
    OutcomeKeeps (execGetMctpVersionSupport s) := keeps_next (keep_getMctpVersionSupport hs)

theorem keep_getMessageTypeSupport {s : State} (hs : s.Canonical) :
    State.Canonical (getMessageTypeSupport s) := by
  unfold getMessageTypeSupport
  repeat' first | with_reducible assumption | intro _ | with_reducible apply keep_mctpControl

theorem keep_execGetMessageTypeSupport {s : State} (hs : s.Canonical) :
    OutcomeKeeps (execGetMessageTypeSupport s) := keeps_next (keep_getMessageTypeSupport hs)

theorem keep_onSpdm {s : State} {f : Spdm → Spdm} (hs : s.Canonical) :
    State.Canonical (State.onSpdm s f) := by
  unfold State.onSpdm
  repeat' with_reducible first | assumption | apply keep_onMgt

theorem keep_spdmReply {s : State} {bs : List Byte} (hs : s.Canonical) :
    State.Canonical (State.spdmReply s bs) := by
  unfold State.spdmReply
  repeat' with_reducible first | assumption | apply keep_mctpReply

theorem keep_spdmError {s : State} {code data : Nat} (hs : s.Canonical) :
    State.Canonical (State.spdmError s code data) := by
  unfold State.spdmError
  repeat' with_reducible first | assumption | apply keep_spdmReply

theorem keep_spdmServe {s : State} {code version least : Nat} {phase : Nat → Bool} {f : List Byte → State → State} (hs : s.Canonical) (hf : ∀ x0 u, State.Canonical u → State.Canonical (f x0 u)) :
    State.Canonical (State.spdmServe s code version least phase f) := by
  unfold State.spdmServe
  repeat' first | with_reducible (first | assumption | apply hf | apply keep_spdmError | apply keep_ite) | lift_lets | split

theorem keep_getVersion {s : State} (hs : s.Canonical) :
    State.Canonical (getVersion s) := by
  unfold getVersion
  repeat' first
    | with_reducible assumption | (intro x; subst x) | intro _ | lift_lets
    | with_reducible (first | apply keep_spdmServe | apply keep_onSpdm | apply keep_spdmReply)

theorem keep_execGetVersion {s : State} (hs : s.Canonical) :
    OutcomeKeeps (execGetVersion s) := keeps_next (keep_getVersion hs)

theorem keep_getCapabilities {s : State} (hs : s.Canonical) :
    State.Canonical (getCapabilities s) := by
  unfold getCapabilities
  repeat' first
    | with_reducible assumption | (intro x; subst x) | intro _ | lift_lets
    | with_reducible (first | apply keep_spdmServe | apply keep_onSpdm | apply keep_spdmReply)

theorem keep_execGetCapabilities {s : State} (hs : s.Canonical) :
    OutcomeKeeps (execGetCapabilities s) := keeps_next (keep_getCapabilities hs)

theorem keep_negotiateAlgorithms {s : State} (hs : s.Canonical) :
    State.Canonical (negotiateAlgorithms s) := by
  unfold negotiateAlgorithms
  repeat' first
    | with_reducible assumption | intro _ | lift_lets
    | with_reducible (first | apply keep_spdmServe | apply keep_onSpdm | apply keep_spdmReply)

theorem keep_execNegotiateAlgorithms {s : State} (hs : s.Canonical) :
    OutcomeKeeps (execNegotiateAlgorithms s) := keeps_next (keep_negotiateAlgorithms hs)

theorem keep_getDigests {root devid : List Byte} {s : State} (hs : s.Canonical) :
    State.Canonical (getDigests root devid s) := by
  unfold getDigests
  repeat' first
    | with_reducible assumption | (intro x; subst x) | intro _ | lift_lets
    | with_reducible (first | apply keep_spdmServe | apply keep_onSpdm | apply keep_spdmReply | apply keep_ite)

theorem keep_execGetDigests (root devid : List Byte) {s : State} (hs : s.Canonical) :
    OutcomeKeeps (execGetDigests root devid s) := keeps_next (keep_getDigests hs)

theorem keep_getCertificate {root devid : List Byte} {s : State} (hs : s.Canonical) :
    State.Canonical (getCertificate root devid s) := by
  unfold getCertificate
  repeat' first
    | with_reducible assumption | (intro x; subst x) | intro _ | lift_lets
    | with_reducible (first | apply keep_spdmServe | apply keep_spdmError | apply keep_onSpdm | apply keep_spdmReply)
    | with_reducible apply keep_ite

theorem keep_execGetCertificate (root devid : List Byte) {s : State} (hs : s.Canonical) :
    OutcomeKeeps (execGetCertificate root devid s) := keeps_next (keep_getCertificate hs)

theorem keep_spdmSign {s : State} {d : List Byte} (hs : s.Canonical) :
    State.Canonical (State.spdmSign s d).2 := by
  unfold State.spdmSign
  repeat' first
    | with_reducible assumption | (intro x; refine keep_cut x (fun hx => ?_) ?_; clear_value x; rotate_left; subst x; rotate_left)
    | (intro x; subst x) | lift_lets
    | with_reducible (first | apply keep_wrBytes | apply keep_sign | apply keep_f_sign | apply keep_put | apply keep_ite) | split

theorem keep_challenge {root devid : List Byte} {s : State} (hs : s.Canonical) :
    State.Canonical (challenge root devid s) := by
  unfold challenge
  repeat' first
    | with_reducible assumption | (intro x; refine keep_cut x (fun hx => ?_) ?_; clear_value x; rotate_left; subst x; rotate_left)
    | (intro x; subst x) | intro _ | lift_lets
    | with_reducible (first | apply keep_spdmServe | apply keep_spdmError | apply keep_drawBytes | apply keep_spdmSign)
    | with_reducible (first | apply keep_onSpdm | apply keep_spdmReply | apply keep_ite)

theorem keep_execChallenge (root devid : List Byte) {s : State} (hs : s.Canonical) :
    OutcomeKeeps (execChallenge root devid s) := keeps_next (keep_challenge hs)

theorem keep_getMeasurements {s : State} (hs : s.Canonical) :
    State.Canonical (getMeasurements s) := by
  unfold getMeasurements
  repeat' first
    | with_reducible assumption | (intro x; refine keep_cut x (fun hx => ?_) ?_; clear_value x; rotate_left; subst x; rotate_left)
    | (intro x; subst x) | intro _ | lift_lets
    | with_reducible (first | apply keep_spdmServe | apply keep_spdmError | apply keep_drawBytes | apply keep_spdmSign)
    | with_reducible (first | apply keep_onSpdm | apply keep_spdmReply | apply keep_ite)

theorem keep_execGetMeasurements {s : State} (hs : s.Canonical) :
    OutcomeKeeps (execGetMeasurements s) := keeps_next (keep_getMeasurements hs)

theorem keep_spdmUnsupportedRequest {s : State} (hs : s.Canonical) :
    State.Canonical (spdmUnsupportedRequest s) := by
  unfold spdmUnsupportedRequest
  repeat' first | with_reducible (first | assumption | apply keep_spdmError | apply keep_ite) | lift_lets | split

theorem keep_execSpdmUnsupportedRequest {s : State} (hs : s.Canonical) :
    OutcomeKeeps (execSpdmUnsupportedRequest s) := keeps_next (keep_spdmUnsupportedRequest hs)

end Sys2Proof.Machine
end

