-- ==== Sys2Proof/Laws/Keep/Ord.lean ====
section
/-! SUPPORT. That the definitions of Machine/Ord.lean keep the canonical form (see Laws/Keep.lean). -/

namespace Sys2Proof.Machine

open Sys2Proof

set_option linter.unusedSimpArgs false

theorem keep_hwordWrite {m : Master} {v : Word} {s : State} (hs : s.Canonical) :
    State.Canonical (hwordWrite m v s) := by
  unfold hwordWrite
  repeat' first
    | with_reducible assumption | (intro x; subst x) | lift_lets
    | with_reducible (first | apply keep_putB | apply keep_ordSettle | apply keep_ite)

theorem keep_execHwordWrite (m : Master) (v : Word) {s : State} (hs : s.Canonical) :
    OutcomeKeeps (execHwordWrite m v s) := by
  unfold execHwordWrite
  apply keeps_next
  repeat' first
    | with_reducible assumption | (intro x; refine keep_cut x (fun hx => ?_) ?_; clear_value x; rotate_left; subst x; rotate_left)
    | (intro x; subst x) | intro _ | lift_lets | with_reducible (first | apply keep_byCore | apply keep_hwordWrite | apply keep_ite)
    | split

theorem keep_ordAccept {s : State} {r : OrdReq} (hs : s.Canonical) :
    State.Canonical (State.ordAccept s r) := by
  unfold State.ordAccept
  repeat' with_reducible first | assumption | apply keep_onOrd | apply keep_ordSettle

theorem keep_ordRequest {m : Master} {v : Word} {errs : List RmeErr} {s : State} (hs : s.Canonical) :
    State.Canonical (ordRequest m v errs s) := by
  unfold ordRequest
  repeat' first
    | with_reducible assumption | (intro x; subst x) | lift_lets
    | with_reducible (first | apply keep_put | apply keep_ordAccept | apply keep_ite)

theorem keep_execOrdRequest (m : Master) (v : Word) (errs : List RmeErr) {s : State} (hs : s.Canonical) :
    OutcomeKeeps (execOrdRequest m v errs s) := by
  unfold execOrdRequest
  apply keeps_next
  repeat' first
    | with_reducible assumption | (intro x; refine keep_cut x (fun hx => ?_) ?_; clear_value x; rotate_left; subst x; rotate_left)
    | (intro x; subst x) | intro _ | lift_lets | with_reducible (first | apply keep_byCore | apply keep_ordRequest | apply keep_ite)
    | split

theorem keep_ordClqTake {errs : List RmeErr} {s : State} (hs : s.Canonical) :
    State.Canonical (ordClqTake errs s) := by
  unfold ordClqTake
  repeat' first
    | with_reducible assumption | (intro x; refine keep_cut x (fun hx => ?_) ?_; clear_value x; rotate_left; subst x; rotate_left)
    | lift_lets | with_reducible (first | apply keep_onFirn | apply keep_ordAccept | apply keep_ite) | split

theorem keep_execOrdClqTake (errs : List RmeErr) {s : State} (hs : s.Canonical) :
    OutcomeKeeps (execOrdClqTake errs s) := keeps_next (keep_ordClqTake hs)

theorem keep_ordUrgent {s : State} (hs : s.Canonical) :
    State.Canonical (ordUrgent s) := by
  unfold ordUrgent
  repeat' with_reducible first | assumption | apply keep_onOrd

theorem keep_execOrdUrgent {s : State} (hs : s.Canonical) :
    OutcomeKeeps (execOrdUrgent s) := keeps_next (keep_ordUrgent hs)

theorem keep_ordSelectTarget {s : State} (hs : s.Canonical) :
    State.Canonical (ordSelectTarget s) := by
  unfold ordSelectTarget
  repeat' first
    | with_reducible (first | assumption | apply keep_put | apply keep_raiseBit | apply keep_setIn | apply keep_ite) | lift_lets | split

theorem keep_execOrdSelectTarget {s : State} (hs : s.Canonical) :
    OutcomeKeeps (execOrdSelectTarget s) := keeps_next (keep_ordSelectTarget hs)

theorem keep_ordAck {m : Master} {v : Word} {s : State} (hs : s.Canonical) :
    State.Canonical (ordAck m v s) := by
  unfold ordAck
  repeat' first
    | with_reducible (first | assumption | apply keep_clr | apply keep_onOrd | apply keep_ordSettle | apply keep_raiseBit)
    | with_reducible apply keep_ite

theorem keep_execOrdAck (m : Master) (v : Word) {s : State} (hs : s.Canonical) :
    OutcomeKeeps (execOrdAck m v s) := by
  unfold execOrdAck
  apply keeps_next
  repeat' first
    | with_reducible assumption | (intro x; refine keep_cut x (fun hx => ?_) ?_; clear_value x; rotate_left; subst x; rotate_left)
    | (intro x; subst x) | intro _ | lift_lets | with_reducible (first | apply keep_byCore | apply keep_ordAck | apply keep_ite) | split

theorem keep_ordRespop {m : Master} {s : State} (hs : s.Canonical) :
    State.Canonical (ordRespop m s) := by
  unfold ordRespop
  repeat' first
    | with_reducible assumption | (intro x; subst x) | lift_lets
    | with_reducible (first | apply keep_onOrd | apply keep_putB | apply keep_ite)

theorem keep_execOrdRespop (m : Master) {s : State} (hs : s.Canonical) :
    OutcomeKeeps (execOrdRespop m s) := by
  unfold execOrdRespop
  apply keeps_next
  repeat' first
    | with_reducible assumption | (intro x; refine keep_cut x (fun hx => ?_) ?_; clear_value x; rotate_left; subst x; rotate_left)
    | (intro x; subst x) | intro _ | lift_lets | with_reducible (first | apply keep_byCore | apply keep_ordRespop | apply keep_ite)
    | split

theorem keep_ordShareWrite {m : Master} {p : BitVec 4} {v : Word} {s : State} (hs : s.Canonical) :
    State.Canonical (ordShareWrite m p v s) := by
  unfold ordShareWrite
  repeat' first | with_reducible assumption | (intro x; subst x) | lift_lets | with_reducible (first | apply keep_put | apply keep_ite)

theorem keep_execOrdShareWrite (m : Master) (p : BitVec 4) (v : Word) {s : State} (hs : s.Canonical) :
    OutcomeKeeps (execOrdShareWrite m p v s) := by
  unfold execOrdShareWrite
  apply keeps_next
  repeat' first
    | with_reducible assumption | (intro x; refine keep_cut x (fun hx => ?_) ?_; clear_value x; rotate_left; subst x; rotate_left)
    | (intro x; subst x) | intro _ | lift_lets | with_reducible (first | apply keep_byCore | apply keep_ordShareWrite | apply keep_ite)
    | split

end Sys2Proof.Machine
end

