-- ==== Sys2Proof/Laws/Keep/Pcm.lean ====
section
/-! SUPPORT. That the definitions of Machine/Pcm.lean keep the canonical form (see Laws/Keep.lean). -/

namespace Sys2Proof.Machine

open Sys2Proof

set_option linter.unusedSimpArgs false

theorem keep_execPwrRstnFall (t : Trans) {s : State} (hs : s.Canonical) :
    OutcomeKeeps (execPwrRstnFall t s) := by
  unfold execPwrRstnFall
  apply keeps_next
  repeat' with_reducible first | assumption | apply keep_onPcm | apply keep_retreatTrigger

theorem keep_leftCell {s : State} {c : Host.Cell} (hs : s.Canonical) :
    State.Canonical (State.leftCell s c) := by
  unfold State.leftCell
  repeat' first
    | with_reducible assumption | (intro x; refine keep_cut x (fun hx => ?_) ?_; clear_value x; rotate_left; subst x; rotate_left)
    | (intro x; subst x) | lift_lets | with_reducible (first | apply keep_stoWrite | apply keep_stoProgram | apply keep_ite) | split

theorem keep_railCollapse {left : List Host.Cell} {s : State} (hs : s.Canonical) :
    State.Canonical (railCollapse left s) := by
  unfold railCollapse
  repeat' first
    | with_reducible assumption | (intro x; refine keep_cut x (fun hx => ?_) ?_; clear_value x; rotate_left; subst x; rotate_left)
    | (intro x; subst x) | intro _ | lift_lets
    | with_reducible (first | apply keep_each | apply keep_cutErase | apply keep_leftCell | apply keep_put | apply keep_foldl)
    | with_reducible (first | apply keep_ite | apply And.intro | apply keep_regs | apply keep_sram | apply keep_store)
    | with_reducible (first | apply keep_buf | apply keep_nil) | simp only [↓canonical_mk] | dsimp -zeta only [State.draw] | split

theorem keep_execRailCollapse (left : List Host.Cell) {s : State} (hs : s.Canonical) :
    OutcomeKeeps (execRailCollapse left s) := keeps_next (keep_railCollapse hs)

theorem keep_pwrRstnRise {vaon : Bool} {s : State} (hs : s.Canonical) :
    State.Canonical (pwrRstnRise vaon s) := by
  unfold pwrRstnRise
  repeat' first
    | with_reducible assumption | (intro x; refine keep_cut x (fun hx => ?_) ?_; clear_value x; rotate_left; subst x; rotate_left)
    | (intro x; subst x) | intro _ | lift_lets
    | with_reducible (first | apply keep_railCollapse | apply keep_onPcm | apply keep_thawEntry | apply keep_ite | apply And.intro)
    | with_reducible (first | apply keep_regs | apply keep_sram | apply keep_store | apply keep_buf | apply keep_nil)
    | simp only [↓canonical_mk] | split

theorem keep_execPwrRstnRise (vaon : Bool) {s : State} (hs : s.Canonical) :
    OutcomeKeeps (execPwrRstnRise vaon s) := keeps_next (keep_pwrRstnRise hs)

theorem keep_supplyLoss {bit : Nat} {t : Trans} {s : State} (hs : s.Canonical) :
    State.Canonical (supplyLoss bit t s) := by
  unfold supplyLoss
  repeat' first
    | with_reducible assumption | (intro x; refine keep_cut x (fun hx => ?_) ?_; clear_value x; rotate_left; subst x; rotate_left)
    | lift_lets | with_reducible (first | apply keep_onPd | apply keep_retreatTrigger | apply keep_ite)

theorem keep_execVmotLoss (t : Trans) {s : State} (hs : s.Canonical) :
    OutcomeKeeps (execVmotLoss t s) := by
  unfold execVmotLoss
  apply keeps_next
  repeat' with_reducible first | assumption | apply keep_supplyLoss | apply keep_onPd

theorem keep_execVin5Loss (t : Trans) {s : State} (hs : s.Canonical) :
    OutcomeKeeps (execVin5Loss t s) := by
  unfold execVin5Loss
  apply keeps_next
  repeat' with_reducible first | assumption | apply keep_supplyLoss | apply keep_onPd

theorem keep_execVmotReturn {s : State} (hs : s.Canonical) :
    OutcomeKeeps (execVmotReturn s) := keeps_next (keep_onPd hs)

theorem keep_execVin5Return {s : State} (hs : s.Canonical) :
    OutcomeKeeps (execVin5Return s) := keeps_next (keep_onPd hs)

theorem keep_execBayWithdrawal (t : Trans) {s : State} (hs : s.Canonical) :
    OutcomeKeeps (execBayWithdrawal t s) := by
  unfold execBayWithdrawal
  apply keeps_next
  repeat' with_reducible first | assumption | apply keep_onPcm | apply keep_retreatTrigger

theorem keep_execReinsertion {s : State} (hs : s.Canonical) :
    OutcomeKeeps (execReinsertion s) := keeps_next (keep_onPcm hs)

theorem keep_retreatEnd {us : BitVec 32} {s : State} (hs : s.Canonical) :
    State.Canonical (retreatEnd us s) := by
  unfold retreatEnd
  repeat' with_reducible first | assumption | apply keep_thawEntry | apply keep_ite

theorem keep_execRetreatEnd (us : BitVec 32) {s : State} (hs : s.Canonical) :
    OutcomeKeeps (execRetreatEnd us s) := keeps_next (keep_retreatEnd hs)

theorem keep_pcmRequest {s : State} {m : Master} {go : State → State} (hs : s.Canonical) (hgo : ∀ u, State.Canonical u → (go
      u).Canonical) :
    State.Canonical (State.pcmRequest s m go) := by
  unfold State.pcmRequest
  repeat' first
    | with_reducible assumption | (intro x; refine keep_cut x (fun hx => ?_) ?_; clear_value x; rotate_left; subst x; rotate_left)
    | (intro x; subst x) | intro _ | lift_lets
    | with_reducible (first | apply hgo | apply keep_raiseBit | apply keep_put | apply keep_ite) | split

theorem keep_illegal {s : State} (hs : s.Canonical) :
    State.Canonical (State.illegal s) := by
  unfold State.illegal
  repeat' with_reducible first | assumption | apply keep_put

theorem keep_notReady {s : State} (hs : s.Canonical) :
    State.Canonical (State.notReady s) := by
  unfold State.notReady
  repeat' with_reducible first | assumption | apply keep_put

theorem keep_askWake {s : State} {final : Nat} (hs : s.Canonical) :
    State.Canonical (State.askWake s final) := by
  unfold State.askWake
  repeat' with_reducible first | assumption | apply keep_notReady | apply keep_wakeStart | apply keep_ite

theorem keep_modeReqFlow {m : Master} {t : Trans} {s : State} (hs : s.Canonical) :
    State.Canonical (modeReqFlow m t s) := by
  unfold modeReqFlow
  repeat' first
    | with_reducible assumption | intro _ | lift_lets
    | with_reducible (first | apply keep_pcmRequest | apply keep_illegal | apply keep_put | apply keep_enterDrift)
    | with_reducible (first | apply keep_enterFlow | apply keep_modeSettle | apply keep_notReady | apply keep_askWake)
    | with_reducible apply keep_ite

theorem keep_execModeReqFlow (m : Master) (t : Trans) {s : State} (hs : s.Canonical) :
    OutcomeKeeps (execModeReqFlow m t s) := by
  unfold execModeReqFlow
  apply keeps_next
  repeat' first
    | with_reducible assumption | (intro x; refine keep_cut x (fun hx => ?_) ?_; clear_value x; rotate_left; subst x; rotate_left)
    | (intro x; subst x) | intro _ | lift_lets | with_reducible (first | apply keep_byCore | apply keep_modeReqFlow | apply keep_ite)
    | split

theorem keep_modeReqDrift {m : Master} {t : Trans} {s : State} (hs : s.Canonical) :
    State.Canonical (modeReqDrift m t s) := by
  unfold modeReqDrift
  repeat' first
    | with_reducible assumption | intro _ | lift_lets
    | with_reducible (first | apply keep_pcmRequest | apply keep_illegal | apply keep_put | apply keep_enterDrift)
    | with_reducible (first | apply keep_modeSettle | apply keep_notReady | apply keep_pcmPend | apply keep_askWake)
    | with_reducible apply keep_ite

theorem keep_execModeReqDrift (m : Master) (t : Trans) {s : State} (hs : s.Canonical) :
    OutcomeKeeps (execModeReqDrift m t s) := by
  unfold execModeReqDrift
  apply keeps_next
  repeat' first
    | with_reducible assumption | (intro x; refine keep_cut x (fun hx => ?_) ?_; clear_value x; rotate_left; subst x; rotate_left)
    | (intro x; subst x) | intro _ | lift_lets | with_reducible (first | apply keep_byCore | apply keep_modeReqDrift | apply keep_ite)
    | split

theorem keep_modeReqDormant {m : Master} {s : State} (hs : s.Canonical) :
    State.Canonical (modeReqDormant m s) := by
  unfold modeReqDormant
  repeat' first
    | with_reducible assumption | intro _ | lift_lets
    | with_reducible (first | apply keep_pcmRequest | apply keep_illegal | apply keep_pcmPend | apply keep_notReady)
    | with_reducible apply keep_ite

theorem keep_execModeReqDormant (m : Master) {s : State} (hs : s.Canonical) :
    OutcomeKeeps (execModeReqDormant m s) := by
  unfold execModeReqDormant
  apply keeps_next
  repeat' first
    | with_reducible assumption | (intro x; refine keep_cut x (fun hx => ?_) ?_; clear_value x; rotate_left; subst x; rotate_left)
    | (intro x; subst x) | intro _ | lift_lets | with_reducible (first | apply keep_byCore | apply keep_modeReqDormant | apply keep_ite)
    | split

theorem keep_modeReqRetreat {m : Master} {t : Trans} {s : State} (hs : s.Canonical) :
    State.Canonical (modeReqRetreat m t s) := by
  unfold modeReqRetreat
  repeat' first
    | with_reducible assumption | (intro x; refine keep_cut x (fun hx => ?_) ?_; clear_value x; rotate_left; subst x; rotate_left)
    | (intro x; subst x) | lift_lets
    | with_reducible (first | apply keep_raiseBit | apply keep_illegal | apply keep_put | apply keep_retreatTrigger | apply keep_ite)
    | split

theorem keep_execModeReqRetreat (m : Master) (t : Trans) {s : State} (hs : s.Canonical) :
    OutcomeKeeps (execModeReqRetreat m t s) := by
  unfold execModeReqRetreat
  apply keeps_next
  repeat' first
    | with_reducible assumption | (intro x; refine keep_cut x (fun hx => ?_) ?_; clear_value x; rotate_left; subst x; rotate_left)
    | (intro x; subst x) | intro _ | lift_lets | with_reducible (first | apply keep_byCore | apply keep_modeReqRetreat | apply keep_ite)
    | split

theorem keep_modeReqReboot {m : Master} {us : BitVec 32} {s : State} (hs : s.Canonical) :
    State.Canonical (modeReqReboot m us s) := by
  unfold modeReqReboot
  repeat' first
    | with_reducible assumption | intro _ | lift_lets
    | with_reducible (first | apply keep_pcmRequest | apply keep_illegal | apply keep_rebootNow | apply keep_put | apply keep_ite)

theorem keep_execModeReqReboot (m : Master) (us : BitVec 32) {s : State} (hs : s.Canonical) :
    OutcomeKeeps (execModeReqReboot m us s) := by
  unfold execModeReqReboot
  apply keeps_next
  repeat' first
    | with_reducible assumption | (intro x; refine keep_cut x (fun hx => ?_) ?_; clear_value x; rotate_left; subst x; rotate_left)
    | (intro x; subst x) | intro _ | lift_lets | with_reducible (first | apply keep_byCore | apply keep_modeReqReboot | apply keep_ite)
    | split

theorem keep_quiesceDone {t : Trans} {s : State} (hs : s.Canonical) :
    State.Canonical (quiesceDone t s) := by
  unfold quiesceDone
  repeat' first
    | with_reducible assumption | (intro x; refine keep_cut x (fun hx => ?_) ?_; clear_value x; rotate_left; subst x; rotate_left)
    | (intro x; subst x) | lift_lets
    | with_reducible (first | apply keep_pcmRegate | apply keep_enterMode | apply keep_sleepStart | apply keep_pcmDone | apply keep_modeSettle)
    | with_reducible (first | apply keep_enterDormant | apply keep_ite) | split

theorem keep_execQuiesceDone (t : Trans) {s : State} (hs : s.Canonical) :
    OutcomeKeeps (execQuiesceDone t s) := keeps_next (keep_quiesceDone hs)

theorem keep_quiesceTimeout {s : State} (hs : s.Canonical) :
    State.Canonical (quiesceTimeout s) := by
  unfold quiesceTimeout
  repeat' first
    | with_reducible (first | assumption | apply keep_abandon | apply keep_modeSettle | apply keep_dmaRelease | apply keep_ite) | lift_lets
    | split

theorem keep_execQuiesceTimeout {s : State} (hs : s.Canonical) :
    OutcomeKeeps (execQuiesceTimeout s) := keeps_next (keep_quiesceTimeout hs)

theorem keep_dormantExitDone {t : Trans} {s : State} (hs : s.Canonical) :
    State.Canonical (dormantExitDone t s) := by
  unfold dormantExitDone
  repeat' first
    | with_reducible assumption | (intro x; refine keep_cut x (fun hx => ?_) ?_; clear_value x; rotate_left; subst x; rotate_left)
    | lift_lets | with_reducible (first | apply keep_pcmDone | apply keep_enterDrift | apply keep_enterFlow | apply keep_modeSettle)
    | with_reducible apply keep_ite | split

theorem keep_execDormantExitDone (t : Trans) {s : State} (hs : s.Canonical) :
    OutcomeKeeps (execDormantExitDone t s) := keeps_next (keep_dormantExitDone hs)

theorem keep_aspmL1Entry {q : BitVec 1} {s : State} (hs : s.Canonical) :
    State.Canonical (aspmL1Entry q s) := by
  unfold aspmL1Entry
  repeat' with_reducible first | assumption | apply keep_onPort | apply keep_ite

theorem keep_execAspmL1Entry (q : BitVec 1) {s : State} (hs : s.Canonical) :
    OutcomeKeeps (execAspmL1Entry q s) := keeps_next (keep_aspmL1Entry hs)

theorem keep_droopSample {s : State} {code : Nat} (hs : s.Canonical) :
    State.Canonical (State.droopSample s code) := by
  unfold State.droopSample
  repeat' first
    | with_reducible assumption | (intro x; refine keep_cut x (fun hx => ?_) ?_; clear_value x; rotate_left; subst x; rotate_left)
    | lift_lets | with_reducible (first | apply keep_put | apply keep_onPcm)

theorem keep_droopSlow {code : BitVec 8} {s : State} (hs : s.Canonical) :
    State.Canonical (droopSlow code s) := by
  unfold droopSlow
  repeat' first
    | with_reducible assumption | (intro x; refine keep_cut x (fun hx => ?_) ?_; clear_value x; rotate_left; subst x; rotate_left)
    | lift_lets
    | with_reducible (first | apply keep_onPcm | apply keep_raiseBit | apply keep_inc | apply keep_droopSample | apply keep_ite)

theorem keep_execDroopSlow (code : BitVec 8) {s : State} (hs : s.Canonical) :
    OutcomeKeeps (execDroopSlow code s) := keeps_next (keep_droopSlow hs)

theorem keep_droopRelease {code low : BitVec 8} {ns : BitVec 32} {s : State} (hs : s.Canonical) :
    State.Canonical (droopRelease code low ns s) := by
  unfold droopRelease
  repeat' first
    | with_reducible assumption | (intro x; refine keep_cut x (fun hx => ?_) ?_; clear_value x; rotate_left; subst x; rotate_left)
    | (intro x; subst x) | lift_lets
    | with_reducible (first | apply keep_droopSample | apply keep_clr | apply keep_put | apply keep_onPcm | apply keep_emit)
    | with_reducible apply keep_ite

theorem keep_execDroopRelease (code low : BitVec 8) (ns : BitVec 32) {s : State} (hs : s.Canonical) :
    OutcomeKeeps (execDroopRelease code low ns s) := keeps_next (keep_droopRelease hs)

theorem keep_deepDroop {code : BitVec 8} {ns : BitVec 32} {t : Trans} {s : State} (hs : s.Canonical) :
    State.Canonical (deepDroop code ns t s) := by
  unfold deepDroop
  repeat' first
    | with_reducible assumption | (intro x; refine keep_cut x (fun hx => ?_) ?_; clear_value x; rotate_left; subst x; rotate_left)
    | lift_lets | with_reducible (first | apply keep_droopSample | apply keep_raiseBit | apply keep_setIn | apply keep_event)
    | with_reducible (first | apply keep_retreatTrigger | apply keep_ite)

theorem keep_execDeepDroop (code : BitVec 8) (ns : BitVec 32) (t : Trans) {s : State} (hs : s.Canonical) :
    OutcomeKeeps (execDeepDroop code ns t s) := keeps_next (keep_deepDroop hs)

theorem keep_droopSummary {s : State} (hs : s.Canonical) :
    State.Canonical (droopSummary s) := by
  unfold droopSummary
  repeat' first
    | with_reducible assumption | (intro x; refine keep_cut x (fun hx => ?_) ?_; clear_value x; rotate_left; subst x; rotate_left)
    | (intro x; subst x) | lift_lets | with_reducible (first | apply keep_event | apply keep_onPcm | apply keep_ite)

theorem keep_execDroopSummary {s : State} (hs : s.Canonical) :
    OutcomeKeeps (execDroopSummary s) := keeps_next (keep_droopSummary hs)

end Sys2Proof.Machine
end

