-- ==== Sys2Proof/Laws/Keep/Rme.lean ====
section
/-! SUPPORT. That the definitions of Machine/Rme.lean keep the canonical form (see Laws/Keep.lean). -/

namespace Sys2Proof.Machine

open Sys2Proof

set_option linter.unusedSimpArgs false

theorem keep_rmeTake {m : Master} {commit : Bool} {v : Word} {errs : List RmeErr} {s : State} (hs : s.Canonical) :
    State.Canonical (rmeTake m commit v errs s) := by
  unfold rmeTake
  repeat' with_reducible first | assumption | apply keep_rmeIssue | apply keep_ite

theorem keep_execDefectLookup (m : Master) (errs : List RmeErr) {s : State} (hs : s.Canonical) :
    OutcomeKeeps (execDefectLookup m errs s) := by
  unfold execDefectLookup
  apply keeps_next
  repeat' first
    | with_reducible assumption | (intro x; refine keep_cut x (fun hx => ?_) ?_; clear_value x; rotate_left; subst x; rotate_left)
    | (intro x; subst x) | intro _ | lift_lets | with_reducible (first | apply keep_byCore | apply keep_rmeTake | apply keep_ite) | split

theorem keep_execWindowLookup (m : Master) (v : Word) (errs : List RmeErr) {s : State} (hs : s.Canonical) :
    OutcomeKeeps (execWindowLookup m v errs s) := by
  unfold execWindowLookup
  apply keeps_next
  repeat' first
    | with_reducible assumption | (intro x; refine keep_cut x (fun hx => ?_) ?_; clear_value x; rotate_left; subst x; rotate_left)
    | (intro x; subst x) | intro _ | lift_lets | with_reducible (first | apply keep_byCore | apply keep_rmeTake | apply keep_ite) | split

theorem keep_execRmeCommit (m : Master) (v : Word) {s : State} (hs : s.Canonical) :
    OutcomeKeeps (execRmeCommit m v s) := by
  unfold execRmeCommit
  apply keeps_next
  repeat' first
    | with_reducible assumption | (intro x; refine keep_cut x (fun hx => ?_) ?_; clear_value x; rotate_left; subst x; rotate_left)
    | (intro x; subst x) | intro _ | lift_lets | with_reducible (first | apply keep_byCore | apply keep_rmeTake | apply keep_ite) | split

theorem keep_revokeHoldEnd {s : State} (hs : s.Canonical) :
    State.Canonical (State.revokeHoldEnd s) := by
  unfold State.revokeHoldEnd
  repeat' first
    | with_reducible assumption | (intro x; subst x) | lift_lets
    | with_reducible (first | apply keep_clr | apply keep_rmeWake | apply And.intro | apply keep_regs | apply keep_sram)
    | with_reducible (first | apply keep_store | apply keep_buf) | simp only [↓canonical_mk]

theorem keep_shadowRead {m : Master} {v : Word} {s : State} (hs : s.Canonical) :
    State.Canonical (shadowRead m v s) := by
  unfold shadowRead
  repeat' first
    | with_reducible assumption | (intro x; refine keep_cut x (fun hx => ?_) ?_; clear_value x; rotate_left; subst x; rotate_left)
    | (intro x; subst x) | lift_lets
    | with_reducible (first | apply keep_wr | apply keep_put | apply keep_putB | apply keep_raiseBit | apply keep_rmeSres)
    | with_reducible apply keep_ite | split

theorem keep_execShadowRead (m : Master) (v : Word) {s : State} (hs : s.Canonical) :
    OutcomeKeeps (execShadowRead m v s) := by
  unfold execShadowRead
  apply keeps_next
  repeat' first
    | with_reducible assumption | (intro x; refine keep_cut x (fun hx => ?_) ?_; clear_value x; rotate_left; subst x; rotate_left)
    | (intro x; subst x) | intro _ | lift_lets | with_reducible (first | apply keep_byCore | apply keep_shadowRead | apply keep_ite)
    | split

theorem keep_wlock {s : State} (hs : s.Canonical) :
    State.Canonical (State.wlock s) := by
  unfold State.wlock
  repeat' with_reducible first | assumption | apply keep_raiseBit | apply keep_clr | apply keep_ite

theorem keep_execWlock (m : Master) {s : State} (hs : s.Canonical) :
    OutcomeKeeps (execWlock m s) := by
  unfold execWlock
  apply keeps_next
  repeat' first
    | with_reducible assumption | (intro x; refine keep_cut x (fun hx => ?_) ?_; clear_value x; rotate_left; subst x; rotate_left)
    | (intro x; subst x) | intro _ | lift_lets | with_reducible (first | apply keep_byCore | apply keep_wlock | apply keep_ite) | split

theorem keep_execDready (m : Master) {s : State} (hs : s.Canonical) :
    OutcomeKeeps (execDready m s) := by
  unfold execDready
  apply keeps_next
  repeat' first
    | with_reducible assumption | (intro x; refine keep_cut x (fun hx => ?_) ?_; clear_value x; rotate_left; subst x; rotate_left)
    | (intro x; subst x) | intro _ | lift_lets | with_reducible (first | apply keep_byCore | apply keep_raiseBit | apply keep_ite) | split

theorem keep_rmePatrol {found : BitVec 3} {s : State} (hs : s.Canonical) :
    State.Canonical (rmePatrol found s) := by
  unfold rmePatrol
  repeat' first
    | with_reducible assumption | (intro x; refine keep_cut x (fun hx => ?_) ?_; clear_value x; rotate_left; subst x; rotate_left)
    | (intro x; subst x) | lift_lets
    | with_reducible (first | apply keep_inc | apply keep_raiseBit | apply keep_rmeRecord | apply keep_rmeShadowFault)
    | with_reducible (first | apply keep_ite | apply And.intro | apply keep_regs | apply keep_sram | apply keep_store)
    | with_reducible apply keep_buf | simp only [↓canonical_mk]

theorem keep_execRmePatrol (found : BitVec 3) {s : State} (hs : s.Canonical) :
    OutcomeKeeps (execRmePatrol found s) := keeps_next (keep_rmePatrol hs)

theorem keep_isoLock {s : State} (hs : s.Canonical) :
    State.Canonical (State.isoLock s) := by
  unfold State.isoLock
  repeat' first
    | with_reducible assumption | (intro x; refine keep_cut x (fun hx => ?_) ?_; clear_value x; rotate_left; subst x; rotate_left)
    | (intro x; subst x) | lift_lets | with_reducible (first | apply keep_put | apply keep_raiseBit | apply keep_event | apply keep_ite)

theorem keep_execIsoLock (m : Master) {s : State} (hs : s.Canonical) :
    OutcomeKeeps (execIsoLock m s) := by
  unfold execIsoLock
  apply keeps_next
  repeat' first
    | with_reducible assumption | (intro x; refine keep_cut x (fun hx => ?_) ?_; clear_value x; rotate_left; subst x; rotate_left)
    | (intro x; subst x) | intro _ | lift_lets | with_reducible (first | apply keep_byCore | apply keep_isoLock | apply keep_ite) | split

end Sys2Proof.Machine
end

