-- ==== Sys2Proof/Laws/Keep/Store.lean ====
section
/-! SUPPORT. That the definitions of Machine/Store.lean keep the canonical form (see Laws/Keep.lean). -/

namespace Sys2Proof.Machine

open Sys2Proof

set_option linter.unusedSimpArgs false

theorem keep_storeRead {m : Master} {a : BitVec 28} {width : Nat} {cells : List Nat} {s : State} (hs : s.Canonical) :
    State.Canonical (storeRead m a width cells s) := by
  unfold storeRead
  repeat' first
    | with_reducible assumption | (intro x; refine keep_cut x (fun hx => ?_) ?_; clear_value x; rotate_left; subst x; rotate_left)
    | (intro x; subst x) | lift_lets | with_reducible (first | apply keep_arrayRead | apply keep_emit | apply keep_ite) | split

theorem keep_execStoreRead (m : Master) (a : BitVec 28) (width : Nat) (cells : List Nat) {s : State} (hs : s.Canonical) :
    OutcomeKeeps (execStoreRead m a width cells s) := by
  unfold execStoreRead
  apply keeps_next
  repeat' first
    | with_reducible assumption | (intro x; refine keep_cut x (fun hx => ?_) ?_; clear_value x; rotate_left; subst x; rotate_left)
    | (intro x; subst x) | lift_lets | with_reducible (first | apply keep_storeRead | apply keep_ite) | split

theorem keep_execSequenceCycle (r : Req) (a : BitVec 28) (width : Nat) (v : Word) {s : State} (hs : s.Canonical) :
    OutcomeKeeps (execSequenceCycle r a width v s) := by
  unfold execSequenceCycle
  apply keeps_next
  repeat' first
    | with_reducible assumption | (intro x; refine keep_cut x (fun hx => ?_) ?_; clear_value x; rotate_left; subst x; rotate_left)
    | (intro x; subst x) | intro _ | lift_lets
    | with_reducible (first | apply keep_byReq | apply keep_storeFaults | apply keep_arrayStore | apply keep_ite) | split

theorem keep_sequenceTimeout {r : Req} {b : BitVec 4} {s : State} (hs : s.Canonical) :
    State.Canonical (sequenceTimeout r b s) := by
  unfold sequenceTimeout
  repeat' with_reducible first | assumption | apply keep_seqError | apply keep_ite

theorem keep_execSequenceTimeout (r : Req) (b : BitVec 4) {s : State} (hs : s.Canonical) :
    OutcomeKeeps (execSequenceTimeout r b s) := keeps_next (keep_sequenceTimeout hs)

theorem keep_execReadArray (r : Req) (a : BitVec 28) {s : State} (hs : s.Canonical) :
    OutcomeKeeps (execReadArray r a s) := by
  unfold execReadArray
  apply keeps_next
  repeat' first
    | with_reducible assumption | (intro x; refine keep_cut x (fun hx => ?_) ?_; clear_value x; rotate_left; subst x; rotate_left)
    | (intro x; subst x) | intro _ | lift_lets | with_reducible (first | apply keep_byReq | apply keep_arrayStore | apply keep_ite)
    | split

theorem keep_keyedCommand {r : Req} {b : BitVec 4} {v : Nat} {s : State} (hs : s.Canonical) :
    State.Canonical (keyedCommand r b v s) := by
  unfold keyedCommand
  repeat' with_reducible first | assumption | apply keep_arrayStore | apply keep_ite

theorem keep_execStatusRead (r : Req) (b : BitVec 4) {s : State} (hs : s.Canonical) :
    OutcomeKeeps (execStatusRead r b s) := by
  unfold execStatusRead
  apply keeps_next
  repeat' first
    | with_reducible assumption | (intro x; refine keep_cut x (fun hx => ?_) ?_; clear_value x; rotate_left; subst x; rotate_left)
    | (intro x; subst x) | intro _ | lift_lets | with_reducible (first | apply keep_byReq | apply keep_keyedCommand | apply keep_ite)
    | split

theorem keep_execClearStatus (r : Req) (b : BitVec 4) {s : State} (hs : s.Canonical) :
    OutcomeKeeps (execClearStatus r b s) := by
  unfold execClearStatus
  apply keeps_next
  repeat' first
    | with_reducible assumption | (intro x; refine keep_cut x (fun hx => ?_) ?_; clear_value x; rotate_left; subst x; rotate_left)
    | (intro x; subst x) | intro _ | lift_lets | with_reducible (first | apply keep_byReq | apply keep_keyedCommand | apply keep_ite)
    | split

theorem keep_execMarginRead (r : Req) (b : BitVec 4) (eraseVerify : Bool) {s : State} (hs : s.Canonical) :
    OutcomeKeeps (execMarginRead r b eraseVerify s) := by
  unfold execMarginRead
  apply keeps_next
  repeat' first
    | with_reducible assumption | (intro x; refine keep_cut x (fun hx => ?_) ?_; clear_value x; rotate_left; subst x; rotate_left)
    | (intro x; subst x) | intro _ | lift_lets | with_reducible (first | apply keep_byReq | apply keep_keyedCommand | apply keep_ite)
    | split

theorem keep_execInfoMode (r : Req) (b : BitVec 4) {s : State} (hs : s.Canonical) :
    OutcomeKeeps (execInfoMode r b s) := by
  unfold execInfoMode
  apply keeps_next
  repeat' first
    | with_reducible assumption | (intro x; refine keep_cut x (fun hx => ?_) ?_; clear_value x; rotate_left; subst x; rotate_left)
    | (intro x; subst x) | intro _ | lift_lets | with_reducible (first | apply keep_byReq | apply keep_keyedCommand | apply keep_ite)
    | split

theorem keep_bufferProgram {r : Req} {b : BitVec 4} {s : State} (hs : s.Canonical) :
    State.Canonical (bufferProgram r b s) := by
  unfold bufferProgram
  repeat' first | with_reducible (first | assumption | apply keep_storeFaults | apply keep_arrayStore | apply keep_ite) | lift_lets | split

theorem keep_execBufferProgram (r : Req) (b : BitVec 4) {s : State} (hs : s.Canonical) :
    OutcomeKeeps (execBufferProgram r b s) := keeps_next (keep_bufferProgram hs)

theorem keep_sectorErase {r : Req} {a : BitVec 28} {s : State} (hs : s.Canonical) :
    State.Canonical (sectorErase r a s) := by
  unfold sectorErase
  repeat' first
    | with_reducible assumption | (intro x; subst x) | lift_lets | with_reducible (first | apply keep_arrayStore | apply keep_ite)

theorem keep_execSectorErase (r : Req) (a : BitVec 28) {s : State} (hs : s.Canonical) :
    OutcomeKeeps (execSectorErase r a s) := by
  unfold execSectorErase
  apply keeps_next
  repeat' first
    | with_reducible assumption | (intro x; refine keep_cut x (fun hx => ?_) ?_; clear_value x; rotate_left; subst x; rotate_left)
    | (intro x; subst x) | intro _ | lift_lets | with_reducible (first | apply keep_byReq | apply keep_sectorErase | apply keep_ite)
    | split

theorem keep_execEraseSuspend (r : Req) (a : BitVec 28) {s : State} (hs : s.Canonical) :
    OutcomeKeeps (execEraseSuspend r a s) := by
  unfold execEraseSuspend
  apply keeps_next
  repeat' first
    | with_reducible assumption | (intro x; refine keep_cut x (fun hx => ?_) ?_; clear_value x; rotate_left; subst x; rotate_left)
    | (intro x; subst x) | intro _ | lift_lets | with_reducible (first | apply keep_byReq | apply keep_arrayStore | apply keep_ite)
    | split

theorem keep_execEraseResume (r : Req) (a : BitVec 28) {s : State} (hs : s.Canonical) :
    OutcomeKeeps (execEraseResume r a s) := by
  unfold execEraseResume
  apply keeps_next
  repeat' first
    | with_reducible assumption | (intro x; refine keep_cut x (fun hx => ?_) ?_; clear_value x; rotate_left; subst x; rotate_left)
    | (intro x; subst x) | intro _ | lift_lets | with_reducible (first | apply keep_byReq | apply keep_arrayStore | apply keep_ite)
    | split

theorem keep_execPageWindowStore (r : Req) (a : BitVec 28) (width : Nat) (v : Word) {s : State} (hs : s.Canonical) :
    OutcomeKeeps (execPageWindowStore r a width v s) := by
  unfold execPageWindowStore
  apply keeps_next
  repeat' first
    | with_reducible assumption | (intro x; refine keep_cut x (fun hx => ?_) ?_; clear_value x; rotate_left; subst x; rotate_left)
    | (intro x; subst x) | intro _ | lift_lets
    | with_reducible (first | apply keep_byReq | apply keep_storeFaults | apply keep_windowStore | apply keep_ite) | split

theorem keep_applyProgram {s : State} {p : ProgOp} (hs : s.Canonical) :
    State.Canonical (State.applyProgram s p) := by
  unfold State.applyProgram
  repeat' first | with_reducible assumption | intro _ | lift_lets | with_reducible (first | apply keep_each | apply keep_stoProgram)

theorem keep_failedProgram {s : State} {p : ProgOp} {left : List Host.Cell} (hs : s.Canonical) :
    State.Canonical (State.failedProgram s p left) := by
  unfold State.failedProgram
  repeat' first
    | with_reducible assumption | (intro x; refine keep_cut x (fun hx => ?_) ?_; clear_value x; rotate_left; subst x; rotate_left)
    | (intro x; subst x) | intro _ | lift_lets
    | with_reducible (first | apply keep_each | apply keep_stoProgram | apply keep_getD | apply keep_ite) | split

theorem keep_programDone {b : BitVec 4} {ok : Bool} {left : List Host.Cell} {s : State} (hs : s.Canonical) :
    State.Canonical (programDone b ok left s) := by
  unfold programDone
  repeat' first
    | with_reducible assumption | (intro x; refine keep_cut x (fun hx => ?_) ?_; clear_value x; rotate_left; subst x; rotate_left)
    | (intro x; subst x) | lift_lets
    | with_reducible (first | apply keep_setBank | apply keep_setIn | apply keep_applyProgram | apply keep_dmaPageDone | apply keep_failedProgram)
    | with_reducible (first | apply keep_inc | apply keep_stoCapture | apply keep_tellChannel | apply keep_storeFaults | apply keep_afterProgram)
    | with_reducible (first | apply keep_rdoneCheck | apply keep_ite | apply And.intro | apply keep_regs | apply keep_sram)
    | with_reducible (first | apply keep_store | apply keep_buf | apply keep_nil) | simp only [↓canonical_mk] | split

theorem keep_execProgramDone (b : BitVec 4) (ok : Bool) (left : List Host.Cell) {s : State} (hs : s.Canonical) :
    OutcomeKeeps (execProgramDone b ok left s) := keeps_next (keep_programDone hs)

theorem keep_eraseDone {b : BitVec 4} {ok : Bool} {left : List Host.Cell} {s : State} (hs : s.Canonical) :
    State.Canonical (eraseDone b ok left s) := by
  unfold eraseDone
  repeat' first
    | with_reducible assumption | (intro x; refine keep_cut x (fun hx => ?_) ?_; clear_value x; rotate_left; subst x; rotate_left)
    | (intro x; subst x) | lift_lets
    | with_reducible (first | apply keep_endErase | apply keep_stoErase | apply keep_layCells | apply keep_inc | apply keep_stoCapture)
    | with_reducible (first | apply keep_rdoneCheck | apply keep_ite) | split

theorem keep_execEraseDone (b : BitVec 4) (ok : Bool) (left : List Host.Cell) {s : State} (hs : s.Canonical) :
    OutcomeKeeps (execEraseDone b ok left s) := keeps_next (keep_eraseDone hs)

theorem keep_storeScanDone {s : State} (hs : s.Canonical) :
    State.Canonical (storeScanDone s) := by
  unfold storeScanDone
  repeat' first
    | with_reducible assumption | (intro x; refine keep_cut x (fun hx => ?_) ?_; clear_value x; rotate_left; subst x; rotate_left)
    | (intro x; subst x) | intro _ | lift_lets
    | with_reducible (first | apply keep_each | apply keep_setBank | apply keep_inc | apply keep_infoErase | apply keep_put)
    | with_reducible (first | apply keep_raiseBit | apply keep_interruptedRecords | apply keep_ite | apply And.intro | apply keep_regs)
    | with_reducible (first | apply keep_sram | apply keep_store | apply keep_buf | apply keep_nil) | simp only [↓canonical_mk] | split

theorem keep_execStoreScanDone {s : State} (hs : s.Canonical) :
    OutcomeKeeps (execStoreScanDone s) := keeps_next (keep_storeScanDone hs)

theorem keep_infoRowEraseDone {b : BitVec 4} {s : State} (hs : s.Canonical) :
    State.Canonical (infoRowEraseDone b s) := by
  unfold infoRowEraseDone
  repeat' first
    | with_reducible assumption | (intro x; refine keep_cut x (fun hx => ?_) ?_; clear_value x; rotate_left; subst x; rotate_left)
    | (intro x; subst x) | lift_lets
    | with_reducible (first | apply keep_infoErase | apply keep_setBank | apply keep_rdoneCheck | apply keep_morKick | apply keep_ite)
    | with_reducible (first | apply And.intro | apply keep_regs | apply keep_sram | apply keep_store | apply keep_buf)
    | with_reducible (first | apply keep_nil) | simp only [↓canonical_mk] | split

theorem keep_execInfoRowEraseDone (b : BitVec 4) {s : State} (hs : s.Canonical) :
    OutcomeKeeps (execInfoRowEraseDone b s) := keeps_next (keep_infoRowEraseDone hs)

theorem keep_markBad {v : Word} {s : State} (hs : s.Canonical) :
    State.Canonical (markBad v s) := by
  unfold markBad
  repeat' first
    | with_reducible assumption | (intro x; refine keep_cut x (fun hx => ?_) ?_; clear_value x; rotate_left; subst x; rotate_left)
    | (intro x; subst x) | lift_lets
    | with_reducible (first | apply keep_put | apply keep_raiseBit | apply keep_ite | apply And.intro | apply keep_regs)
    | with_reducible (first | apply keep_sram | apply keep_store | apply keep_buf) | simp only [↓canonical_mk]

theorem keep_execMarkBad (v : Word) {s : State} (hs : s.Canonical) :
    OutcomeKeeps (execMarkBad v s) := keeps_next (keep_markBad hs)

theorem keep_markBadDone {ok : Bool} {s : State} (hs : s.Canonical) :
    State.Canonical (markBadDone ok s) := by
  unfold markBadDone
  repeat' first
    | with_reducible assumption | (intro x; subst x) | lift_lets
    | with_reducible (first | apply keep_infoWrite | apply keep_clr | apply keep_put | apply keep_event | apply keep_ite)
    | with_reducible (first | apply And.intro | apply keep_regs | apply keep_sram | apply keep_store | apply keep_buf)
    | simp only [↓canonical_mk] | split

theorem keep_execMarkBadDone (ok : Bool) {s : State} (hs : s.Canonical) :
    OutcomeKeeps (execMarkBadDone ok s) := keeps_next (keep_markBadDone hs)

theorem keep_wprotWrite {m : Master} {v : Word} {s : State} (hs : s.Canonical) :
    State.Canonical (wprotWrite m v s) := by
  unfold wprotWrite
  repeat' with_reducible first | assumption | apply keep_put | apply keep_ite

theorem keep_execWprotWrite (m : Master) (v : Word) {s : State} (hs : s.Canonical) :
    OutcomeKeeps (execWprotWrite m v s) := by
  unfold execWprotWrite
  apply keeps_next
  repeat' first
    | with_reducible assumption | (intro x; refine keep_cut x (fun hx => ?_) ?_; clear_value x; rotate_left; subst x; rotate_left)
    | (intro x; subst x) | intro _ | lift_lets | with_reducible (first | apply keep_byCore | apply keep_wprotWrite | apply keep_ite)
    | split

theorem keep_bankPowerDown {b : BitVec 4} {transfer : Bool} {s : State} (hs : s.Canonical) :
    State.Canonical (bankPowerDown b transfer s) := by
  unfold bankPowerDown
  repeat' first | with_reducible assumption | (intro x; subst x) | lift_lets | with_reducible (first | apply keep_setIn | apply keep_ite)

theorem keep_execBankPowerDown (b : BitVec 4) (transfer : Bool) {s : State} (hs : s.Canonical) :
    OutcomeKeeps (execBankPowerDown b transfer s) := keeps_next (keep_bankPowerDown hs)

end Sys2Proof.Machine
end

