-- ==== Sys2Proof/Laws/Keep/Uqi.lean ====
section
/-! SUPPORT. That the definitions of Machine/Uqi.lean keep the canonical form (see Laws/Keep.lean). -/

namespace Sys2Proof.Machine

open Sys2Proof

set_option linter.unusedSimpArgs false

theorem keep_linkTrained {q : BitVec 1} {s : State} (hs : s.Canonical) :
    State.Canonical (linkTrained q s) := by
  unfold linkTrained
  repeat' first
    | with_reducible assumption | (intro x; subst x) | lift_lets
    | with_reducible (first | apply keep_onPort | apply keep_portSettle | apply keep_ite)

theorem keep_execPortUp (q : BitVec 1) {s : State} (hs : s.Canonical) :
    OutcomeKeeps (execPortUp q s) := keeps_next (keep_linkTrained hs)

theorem keep_portDown {q : BitVec 1} {cause : BitVec 3} {s : State} (hs : s.Canonical) :
    State.Canonical (portDown q cause s) := by
  unfold portDown
  repeat' first
    | with_reducible assumption | (intro x; subst x) | lift_lets
    | with_reducible (first | apply keep_onPort | apply keep_portSettle | apply keep_hmwReset | apply keep_ite) | split

theorem keep_execPortDown (q : BitVec 1) (cause : BitVec 3) {s : State} (hs : s.Canonical) :
    OutcomeKeeps (execPortDown q cause s) := keeps_next (keep_portDown hs)

theorem keep_configurationRequest {q : BitVec 1} {r : CfgReq} {s : State} (hs : s.Canonical) :
    State.Canonical (configurationRequest q r s) := by
  unfold configurationRequest
  repeat' first
    | with_reducible assumption | (intro x; refine keep_cut x (fun hx => ?_) ?_; clear_value x; rotate_left; subst x; rotate_left)
    | (intro x; subst x) | intro _ | lift_lets
    | with_reducible (first | apply keep_onPort | apply keep_portSettle | apply keep_msixPending | apply keep_emit | apply keep_draw)
    | with_reducible (first | apply keep_ite | apply And.intro | apply keep_regs | apply keep_sram | apply keep_store)
    | with_reducible (first | apply keep_buf | apply keep_nil) | simp only [↓canonical_mk] | dsimp -zeta only [State.draw] | split

theorem keep_execConfigurationRequest (q : BitVec 1) (r : CfgReq) {s : State} (hs : s.Canonical) :
    OutcomeKeeps (execConfigurationRequest q r s) := keeps_next (keep_configurationRequest hs)

theorem keep_hostWrite {q : BitVec 1} {f : State → State} {s : State} (hf : ∀  u, State.Canonical u → State.Canonical (f u)) (hs : s.Canonical) :
    State.Canonical (hostWrite q f s) := by
  unfold hostWrite
  repeat' with_reducible first | assumption | apply hf | apply keep_ite

theorem keep_execDbpPortWrite (q : BitVec 1) (p : BitVec 4) (v : Word) {s : State} (hs : s.Canonical) :
    OutcomeKeeps (execDbpPortWrite q p v s) := by
  unfold execDbpPortWrite
  apply keeps_next
  repeat' first | with_reducible assumption | intro _ | lift_lets | with_reducible (first | apply keep_hostWrite | apply keep_dbpWrite)

theorem keep_execRingSetupWrite (q : BitVec 1) (cq : Bool) (r : BitVec 6) (w : BitVec 2) (v : Word) {s : State} (hs : s.Canonical) :
    OutcomeKeeps (execRingSetupWrite q cq r w v s) := by
  unfold execRingSetupWrite
  apply keeps_next
  repeat' first
    | with_reducible assumption | intro _ | lift_lets
    | with_reducible (first | apply keep_hostWrite | apply keep_cqSetup | apply keep_sqSetup | apply keep_ite)

theorem keep_execSqEnable (q : BitVec 1) (r : BitVec 6) {s : State} (hs : s.Canonical) :
    OutcomeKeeps (execSqEnable q r s) := by
  unfold execSqEnable
  apply keeps_next
  repeat' first | with_reducible assumption | intro _ | lift_lets | with_reducible (first | apply keep_hostWrite | apply keep_sqControl)

theorem keep_execCqEnable (q : BitVec 1) (r : BitVec 6) (aggtime : BitVec 8) {s : State} (hs : s.Canonical) :
    OutcomeKeeps (execCqEnable q r aggtime s) := by
  unfold execCqEnable
  apply keeps_next
  repeat' first | with_reducible assumption | intro _ | lift_lets | with_reducible (first | apply keep_hostWrite | apply keep_cqControl)

theorem keep_execSqDisable (q : BitVec 1) (r : BitVec 6) {s : State} (hs : s.Canonical) :
    OutcomeKeeps (execSqDisable q r s) := by
  unfold execSqDisable
  apply keeps_next
  repeat' first | with_reducible assumption | intro _ | lift_lets | with_reducible (first | apply keep_hostWrite | apply keep_sqControl)

theorem keep_execSqDrained (r : BitVec 6) {s : State} (hs : s.Canonical) :
    OutcomeKeeps (execSqDrained r s) := keeps_next (keep_sqDrained hs)

theorem keep_execCqDisable (q : BitVec 1) (r : BitVec 6) {s : State} (hs : s.Canonical) :
    OutcomeKeeps (execCqDisable q r s) := by
  unfold execCqDisable
  apply keeps_next
  repeat' first | with_reducible assumption | intro _ | lift_lets | with_reducible (first | apply keep_hostWrite | apply keep_cqDisable)

theorem keep_execResume (q : BitVec 1) (cq : Bool) (r : BitVec 6) {s : State} (hs : s.Canonical) :
    OutcomeKeeps (execResume q cq r s) := by
  unfold execResume
  apply keeps_next
  repeat' first
    | with_reducible assumption | intro _ | lift_lets
    | with_reducible (first | apply keep_hostWrite | apply keep_cqResume | apply keep_sqResume | apply keep_ite)

theorem keep_execRingReset (q : BitVec 1) (r : BitVec 6) {s : State} (hs : s.Canonical) :
    OutcomeKeeps (execRingReset q r s) := by
  unfold execRingReset
  apply keeps_next
  repeat' first | with_reducible assumption | intro _ | lift_lets | with_reducible (first | apply keep_hostWrite | apply keep_sqReset)

theorem keep_hmwctl {s : State} {en lock : Bool} (hs : s.Canonical) :
    State.Canonical (State.hmwctl s en lock) := by
  unfold State.hmwctl
  repeat' first
    | with_reducible assumption | (intro x; refine keep_cut x (fun hx => ?_) ?_; clear_value x; rotate_left; subst x; rotate_left)
    | lift_lets | with_reducible (first | apply keep_putB | apply keep_raiseBit | apply keep_onUqi | apply keep_ite)

theorem keep_execHostWindowLock (q : BitVec 1) (en : Bool) {s : State} (hs : s.Canonical) :
    OutcomeKeeps (execHostWindowLock q en s) := by
  unfold execHostWindowLock
  apply keeps_next
  repeat' first | with_reducible assumption | intro _ | lift_lets | with_reducible (first | apply keep_hostWrite | apply keep_hmwctl)

theorem keep_execWake (q : BitVec 1) (p : BitVec 4) {s : State} (hs : s.Canonical) :
    OutcomeKeeps (execWake q p s) := by
  unfold execWake
  apply keeps_next
  repeat' first | with_reducible assumption | intro _ | lift_lets | with_reducible (first | apply keep_hostWrite | apply keep_dbRequest)

theorem keep_msixWord {s : State} {q n : Nat} {v : Word} (hs : s.Canonical) :
    State.Canonical (State.msixWord s q n v) := by
  unfold State.msixWord
  repeat' first
    | with_reducible assumption | (intro x; subst x) | lift_lets | with_reducible (first | apply keep_onPort | apply keep_msixPending)

theorem keep_execMsixUnmask (q : BitVec 1) (v : BitVec 5) {s : State} (hs : s.Canonical) :
    OutcomeKeeps (execMsixUnmask q v s) := by
  unfold execMsixUnmask
  apply keeps_next
  repeat' first | with_reducible assumption | intro _ | lift_lets | with_reducible (first | apply keep_hostWrite | apply keep_msixWord)

theorem keep_doorbellReadDone {p : BitVec 4} {e : HostEnd} {data : List Byte} {s : State} (hs : s.Canonical) :
    State.Canonical (doorbellReadDone p e data s) := by
  unfold doorbellReadDone
  repeat' first
    | with_reducible assumption | (intro x; refine keep_cut x (fun hx => ?_) ?_; clear_value x; rotate_left; subst x; rotate_left)
    | (intro x; subst x) | lift_lets
    | with_reducible (first | apply keep_onUqi | apply keep_dbPage | apply keep_dbRequest | apply keep_uqiRun | apply keep_ite)

theorem keep_execDoorbellReadDone (p : BitVec 4) (e : HostEnd) (data : List Byte) {s : State} (hs : s.Canonical) :
    OutcomeKeeps (execDoorbellReadDone p e data s) := keeps_next (keep_doorbellReadDone hs)

theorem keep_entryBurstDone {r : BitVec 6} {e : HostEnd} {data : List Byte} {errs : List RmeErr} {s : State} (hs : s.Canonical) :
    State.Canonical (entryBurstDone r e data errs s) := by
  unfold entryBurstDone
  repeat' first
    | with_reducible assumption | (intro x; refine keep_cut x (fun hx => ?_) ?_; clear_value x; rotate_left; subst x; rotate_left)
    | (intro x; subst x) | lift_lets
    | with_reducible (first | apply keep_setSq | apply keep_uqiRun | apply keep_takeEntries | apply keep_runChecks)
    | with_reducible apply keep_ite

theorem keep_execEntryBurstDone (r : BitVec 6) (e : HostEnd) (data : List Byte) (errs : List RmeErr) {s : State} (hs : s.Canonical) :
    OutcomeKeeps (execEntryBurstDone r e data errs s) := keeps_next (keep_entryBurstDone hs)

theorem keep_listPageReadDone {i : BitVec 10} {a : BitVec 64} {e : HostEnd} {data : List Byte} {s : State} (hs : s.Canonical) :
    State.Canonical (listPageReadDone i a e data s) := by
  unfold listPageReadDone
  repeat' first
    | with_reducible assumption | (intro x; subst x) | lift_lets
    | with_reducible (first | apply keep_setCmd | apply keep_onUqi | apply keep_uqiRun | apply keep_listFault | apply keep_ite)
    | simp only [↓canonical_mk] | split

theorem keep_execListPageReadDone (i : BitVec 10) (a : BitVec 64) (e : HostEnd) (data : List Byte) {s : State} (hs : s.Canonical) :
    OutcomeKeeps (execListPageReadDone i a e data s) := keeps_next (keep_listPageReadDone hs)

theorem keep_execCompletionWritten (i : BitVec 10) {s : State} (hs : s.Canonical) :
    OutcomeKeeps (execCompletionWritten i s) := by
  unfold execCompletionWritten
  apply keeps_next
  repeat' with_reducible first | assumption | apply keep_cplWritten | apply keep_uqiRun

theorem keep_msixAggregationTimeout {r : BitVec 6} {s : State} (hs : s.Canonical) :
    State.Canonical (msixAggregationTimeout r s) := by
  unfold msixAggregationTimeout
  repeat' first
    | with_reducible assumption | (intro x; subst x) | lift_lets | with_reducible (first | apply keep_cqMessage | apply keep_ite)

theorem keep_execMsixAggregationTimeout (r : BitVec 6) {s : State} (hs : s.Canonical) :
    OutcomeKeeps (execMsixAggregationTimeout r s) := keeps_next (keep_msixAggregationTimeout hs)

theorem keep_uqiCpost {m : Master} {v : Word} {s : State} (hs : s.Canonical) :
    State.Canonical (uqiCpost m v s) := by
  unfold uqiCpost
  repeat' first
    | with_reducible assumption | (intro x; subst x) | lift_lets
    | with_reducible (first | apply keep_clr | apply keep_commitCpl | apply keep_uqiRun | apply keep_raiseBit | apply keep_ite) | split

theorem keep_execUqiCpost (m : Master) (v : Word) {s : State} (hs : s.Canonical) :
    OutcomeKeeps (execUqiCpost m v s) := by
  unfold execUqiCpost
  apply keeps_next
  repeat' first
    | with_reducible assumption | (intro x; refine keep_cut x (fun hx => ?_) ?_; clear_value x; rotate_left; subst x; rotate_left)
    | (intro x; subst x) | intro _ | lift_lets | with_reducible (first | apply keep_byCore | apply keep_uqiCpost | apply keep_ite) | split

theorem keep_uqiXcmd {m : Master} {v : Word} {s : State} (hs : s.Canonical) :
    State.Canonical (uqiXcmd m v s) := by
  unfold uqiXcmd
  repeat' first
    | with_reducible assumption | (intro x; subst x) | lift_lets
    | with_reducible (first | apply keep_raiseBit | apply keep_onUqi | apply keep_uqiRun | apply keep_jobResult | apply keep_ite)

theorem keep_execUqiXcmd (m : Master) (v : Word) {s : State} (hs : s.Canonical) :
    OutcomeKeeps (execUqiXcmd m v s) := by
  unfold execUqiXcmd
  apply keeps_next
  repeat' first
    | with_reducible assumption | (intro x; refine keep_cut x (fun hx => ?_) ?_; clear_value x; rotate_left; subst x; rotate_left)
    | (intro x; subst x) | intro _ | lift_lets | with_reducible (first | apply keep_byCore | apply keep_uqiXcmd | apply keep_ite) | split

theorem keep_uqiXpop {m : Master} {v : Word} {s : State} (hs : s.Canonical) :
    State.Canonical (uqiXpop m v s) := by
  unfold uqiXpop
  repeat' with_reducible first | assumption | apply keep_onUqi | apply keep_ite

theorem keep_execUqiXpop (m : Master) (v : Word) {s : State} (hs : s.Canonical) :
    OutcomeKeeps (execUqiXpop m v s) := by
  unfold execUqiXpop
  apply keeps_next
  repeat' first
    | with_reducible assumption | (intro x; refine keep_cut x (fun hx => ?_) ?_; clear_value x; rotate_left; subst x; rotate_left)
    | (intro x; subst x) | intro _ | lift_lets | with_reducible (first | apply keep_byCore | apply keep_uqiXpop | apply keep_ite) | split

theorem keep_uqiDqpop {m : Master} {v : Word} {s : State} (hs : s.Canonical) :
    State.Canonical (uqiDqpop m v s) := by
  unfold uqiDqpop
  repeat' first | with_reducible (first | assumption | apply keep_onUqi | apply keep_ite) | lift_lets | split

theorem keep_execUqiDqpop (m : Master) (v : Word) {s : State} (hs : s.Canonical) :
    OutcomeKeeps (execUqiDqpop m v s) := by
  unfold execUqiDqpop
  apply keeps_next
  repeat' first
    | with_reducible assumption | (intro x; refine keep_cut x (fun hx => ?_) ?_; clear_value x; rotate_left; subst x; rotate_left)
    | (intro x; subst x) | intro _ | lift_lets | with_reducible (first | apply keep_byCore | apply keep_uqiDqpop | apply keep_ite) | split

theorem keep_rpartyWrite {m : Master} {r : BitVec 6} {v : Word} {s : State} (hs : s.Canonical) :
    State.Canonical (rpartyWrite m r v s) := by
  unfold rpartyWrite
  repeat' first | with_reducible assumption | (intro x; subst x) | lift_lets | with_reducible (first | apply keep_wr | apply keep_ite)

theorem keep_execRpartyWrite (m : Master) (r : BitVec 6) (v : Word) {s : State} (hs : s.Canonical) :
    OutcomeKeeps (execRpartyWrite m r v s) := by
  unfold execRpartyWrite
  apply keeps_next
  repeat' first
    | with_reducible assumption | (intro x; refine keep_cut x (fun hx => ?_) ?_; clear_value x; rotate_left; subst x; rotate_left)
    | (intro x; subst x) | intro _ | lift_lets | with_reducible (first | apply keep_byCore | apply keep_rpartyWrite | apply keep_ite)
    | split

theorem keep_pcfgWrite {m : Master} {p : BitVec 4} {v : Word} {s : State} (hs : s.Canonical) :
    State.Canonical (pcfgWrite m p v s) := by
  unfold pcfgWrite
  repeat' with_reducible first | assumption | apply keep_wr | apply keep_ite

theorem keep_execPcfgWrite (m : Master) (p : BitVec 4) (v : Word) {s : State} (hs : s.Canonical) :
    OutcomeKeeps (execPcfgWrite m p v s) := by
  unfold execPcfgWrite
  apply keeps_next
  repeat' first
    | with_reducible assumption | (intro x; refine keep_cut x (fun hx => ?_) ?_; clear_value x; rotate_left; subst x; rotate_left)
    | (intro x; subst x) | intro _ | lift_lets | with_reducible (first | apply keep_byCore | apply keep_pcfgWrite | apply keep_ite)
    | split

theorem keep_execRevokeHoldEnd {s : State} (hs : s.Canonical) :
    OutcomeKeeps (execRevokeHoldEnd s) := by
  unfold execRevokeHoldEnd
  apply keeps_next
  repeat' with_reducible first | assumption | apply keep_revokeHoldEnd | apply keep_runChecks | apply keep_uqiRun

end Sys2Proof.Machine
end

