-- ==== Sys2Proof/Laws/Keep/Mgt.lean ====
section
/-! SUPPORT. That the definitions of Machine/Mgt.lean keep the canonical form (see Laws/Keep.lean). -/

namespace Sys2Proof.Machine

open Sys2Proof

set_option linter.unusedSimpArgs false

theorem keep_entdaa {mctp : Bool} {addr : BitVec 7} {s : State} (hs : s.Canonical) :
    State.Canonical (entdaa mctp addr s) := by
  unfold entdaa
  repeat' first
    | with_reducible assumption | (intro x; subst x) | lift_lets | with_reducible (first | apply keep_setTarget | apply keep_ite)

theorem keep_execEntdaa (mctp : Bool) (addr : BitVec 7) {s : State} (hs : s.Canonical) :
    OutcomeKeeps (execEntdaa mctp addr s) := keeps_next (keep_entdaa hs)

theorem keep_setdasa {static addr : BitVec 7} {s : State} (hs : s.Canonical) :
    State.Canonical (setdasa static addr s) := by
  unfold setdasa
  repeat' first
    | with_reducible assumption | (intro x; subst x) | intro _ | lift_lets
    | with_reducible (first | apply keep_each | apply keep_setTarget | apply keep_ite)

theorem keep_execSetdasa (static addr : BitVec 7) {s : State} (hs : s.Canonical) :
    OutcomeKeeps (execSetdasa static addr s) := keeps_next (keep_setdasa hs)

theorem keep_setnewda {addr to_ : BitVec 7} {s : State} (hs : s.Canonical) :
    State.Canonical (setnewda addr to_ s) := by
  unfold setnewda
  repeat' first | with_reducible assumption | (intro x; subst x) | lift_lets | with_reducible apply keep_setTarget | split

theorem keep_execSetnewda (addr to_ : BitVec 7) {s : State} (hs : s.Canonical) :
    OutcomeKeeps (execSetnewda addr to_ s) := keeps_next (keep_setnewda hs)

theorem keep_execRstdaa {s : State} (hs : s.Canonical) :
    OutcomeKeeps (execRstdaa s) := by
  unfold execRstdaa
  apply keeps_next
  repeat' with_reducible first | assumption | apply keep_cccSet

theorem keep_execEnec (addr : Option (BitVec 7)) (events : BitVec 8) {s : State} (hs : s.Canonical) :
    OutcomeKeeps (execEnec addr events s) := by
  unfold execEnec
  apply keeps_next
  repeat' with_reducible first | assumption | apply keep_cccSet

theorem keep_execDisec (addr : Option (BitVec 7)) (events : BitVec 8) {s : State} (hs : s.Canonical) :
    OutcomeKeeps (execDisec addr events s) := by
  unfold execDisec
  apply keeps_next
  repeat' with_reducible first | assumption | apply keep_cccSet

theorem keep_execGetpid (addr : BitVec 7) {s : State} (hs : s.Canonical) :
    OutcomeKeeps (execGetpid addr s) := by
  unfold execGetpid
  apply keeps_next
  repeat' with_reducible first | assumption | apply keep_cccGet

theorem keep_execGetbcr (addr : BitVec 7) {s : State} (hs : s.Canonical) :
    OutcomeKeeps (execGetbcr addr s) := by
  unfold execGetbcr
  apply keeps_next
  repeat' with_reducible first | assumption | apply keep_cccGet

theorem keep_execGetdcr (addr : BitVec 7) {s : State} (hs : s.Canonical) :
    OutcomeKeeps (execGetdcr addr s) := by
  unfold execGetdcr
  apply keeps_next
  repeat' with_reducible first | assumption | apply keep_cccGet

theorem keep_execGetstatus (addr : BitVec 7) {s : State} (hs : s.Canonical) :
    OutcomeKeeps (execGetstatus addr s) := by
  unfold execGetstatus
  apply keeps_next
  repeat' with_reducible first | assumption | apply keep_cccGet

theorem keep_execSetmwl (addr : Option (BitVec 7)) (len : BitVec 16) {s : State} (hs : s.Canonical) :
    OutcomeKeeps (execSetmwl addr len s) := by
  unfold execSetmwl
  apply keeps_next
  repeat' with_reducible first | assumption | apply keep_cccSet

theorem keep_execGetmwl (addr : BitVec 7) {s : State} (hs : s.Canonical) :
    OutcomeKeeps (execGetmwl addr s) := by
  unfold execGetmwl
  apply keeps_next
  repeat' with_reducible first | assumption | apply keep_cccGet

theorem keep_execSetmrl (addr : Option (BitVec 7)) (len : BitVec 16) {s : State} (hs : s.Canonical) :
    OutcomeKeeps (execSetmrl addr len s) := by
  unfold execSetmrl
  apply keeps_next
  repeat' with_reducible first | assumption | apply keep_cccSet

theorem keep_execGetmrl (addr : BitVec 7) {s : State} (hs : s.Canonical) :
    OutcomeKeeps (execGetmrl addr s) := by
  unfold execGetmrl
  apply keeps_next
  repeat' with_reducible first | assumption | apply keep_cccGet

theorem keep_taskPrivateWrite {bytes : List Byte} {s : State} (hs : s.Canonical) :
    State.Canonical (taskPrivateWrite bytes s) := by
  unfold taskPrivateWrite
  repeat' first
    | with_reducible (first | assumption | apply keep_trfOvr | apply keep_onMgt | apply keep_trfWrites | apply keep_ite) | lift_lets
    | split

theorem keep_execTaskPrivateWrite (bytes : List Byte) {s : State} (hs : s.Canonical) :
    OutcomeKeeps (execTaskPrivateWrite bytes s) := keeps_next (keep_taskPrivateWrite hs)

theorem keep_taskPrivateRead {words : BitVec 11} {s : State} (hs : s.Canonical) :
    State.Canonical (taskPrivateRead words s) := by
  unfold taskPrivateRead
  repeat' first
    | with_reducible assumption | (intro x; refine keep_cut x (fun hx => ?_) ?_; clear_value x; rotate_left; subst x; rotate_left)
    | (intro x; subst x) | lift_lets | with_reducible (first | apply keep_trfReads | apply keep_emit | apply keep_ite)

theorem keep_execTaskPrivateRead (words : BitVec 11) {s : State} (hs : s.Canonical) :
    OutcomeKeeps (execTaskPrivateRead words s) := keeps_next (keep_taskPrivateRead hs)

theorem keep_doneClear {v : Word} {s : State} (hs : s.Canonical) :
    State.Canonical (doneClear v s) := by
  unfold doneClear
  repeat' with_reducible first | assumption | apply keep_trfStat | apply keep_ite

theorem keep_execDoneClear (v : Word) {s : State} (hs : s.Canonical) :
    OutcomeKeeps (execDoneClear v s) := keeps_next (keep_doneClear hs)

theorem keep_mgtTake {m : Master} {v : Word} {s : State} (hs : s.Canonical) :
    State.Canonical (mgtTake m v s) := by
  unfold mgtTake
  repeat' with_reducible first | assumption | apply keep_clr | apply keep_ite

theorem keep_execMgtTake (m : Master) (v : Word) {s : State} (hs : s.Canonical) :
    OutcomeKeeps (execMgtTake m v s) := by
  unfold execMgtTake
  apply keeps_next
  repeat' first
    | with_reducible assumption | (intro x; refine keep_cut x (fun hx => ?_) ?_; clear_value x; rotate_left; subst x; rotate_left)
    | (intro x; subst x) | intro _ | lift_lets | with_reducible (first | apply keep_byCore | apply keep_mgtTake | apply keep_ite) | split

theorem keep_mgtDone {m : Master} {v : Word} {s : State} (hs : s.Canonical) :
    State.Canonical (mgtDone m v s) := by
  unfold mgtDone
  repeat' with_reducible first | assumption | apply keep_trfDone | apply keep_ite

theorem keep_execMgtDone (m : Master) (v : Word) {s : State} (hs : s.Canonical) :
    OutcomeKeeps (execMgtDone m v s) := by
  unfold execMgtDone
  apply keeps_next
  repeat' first
    | with_reducible assumption | (intro x; refine keep_cut x (fun hx => ?_) ?_; clear_value x; rotate_left; subst x; rotate_left)
    | (intro x; subst x) | intro _ | lift_lets | with_reducible (first | apply keep_byCore | apply keep_mgtDone | apply keep_ite) | split

theorem keep_badOpcode {s : State} (hs : s.Canonical) :
    State.Canonical (badOpcode s) := by
  unfold badOpcode
  repeat' first
    | with_reducible assumption | intro _ | lift_lets | with_reducible (first | apply keep_serve | apply keep_served | apply keep_ite)

theorem keep_execBadOpcode {s : State} (hs : s.Canonical) :
    OutcomeKeeps (execBadOpcode s) := keeps_next (keep_badOpcode hs)

theorem keep_ident {s : State} (hs : s.Canonical) :
    State.Canonical (ident s) := by
  unfold ident
  repeat' first | with_reducible assumption | intro _ | lift_lets | with_reducible (first | apply keep_serve | apply keep_served)

theorem keep_execIdent {s : State} (hs : s.Canonical) :
    OutcomeKeeps (execIdent s) := keeps_next (keep_ident hs)

theorem keep_partCfg {s : State} (hs : s.Canonical) :
    State.Canonical (partCfg s) := by
  unfold partCfg
  repeat' first
    | with_reducible assumption | (intro x; refine keep_cut x (fun hx => ?_) ?_; clear_value x; rotate_left; subst x; rotate_left)
    | (intro x; subst x) | intro _ | lift_lets
    | with_reducible (first | apply keep_serve | apply keep_served | apply keep_raiseBit | apply keep_partitionWrite)
    | with_reducible (first | apply keep_put | apply keep_ordShareWrite | apply keep_pcfgWrite | apply keep_each)
    | with_reducible (first | apply keep_rpartyWrite | apply keep_served_ite | apply keep_wait)

theorem keep_execPartCfg {s : State} (hs : s.Canonical) :
    OutcomeKeeps (execPartCfg s) := keeps_next (keep_partCfg hs)

theorem keep_partWin {s : State} (hs : s.Canonical) :
    State.Canonical (partWin s) := by
  unfold partWin
  repeat' first
    | with_reducible assumption | (intro x; refine keep_cut x (fun hx => ?_) ?_; clear_value x; rotate_left; subst x; rotate_left)
    | (intro x; subst x) | intro _ | lift_lets
    | with_reducible (first | apply keep_serve | apply keep_wr | apply keep_put | apply keep_raiseBit | apply keep_rmeCommit)
    | with_reducible (first | apply keep_served | apply keep_served_ite | apply keep_wait)

theorem keep_execPartWin {s : State} (hs : s.Canonical) :
    OutcomeKeeps (execPartWin s) := keeps_next (keep_partWin hs)

theorem keep_deriveKey {s : State} {p : Nat} {salt : List Byte} (hs : s.Canonical) :
    State.Canonical (State.deriveKey s p salt) := by
  unfold State.deriveKey
  repeat' with_reducible first | assumption | apply keep_derive | apply keep_deriveDone | apply keep_wrBytes

theorem keep_derivedEnd {s : State} {p : Nat} (hs : s.Canonical) : ServedKeeps (derivedEnd s p) := by
  unfold derivedEnd
  split
  · exact .done hs
  · exact .done hs

theorem keep_partKey {s : State} (hs : s.Canonical) :
    State.Canonical (partKey s) := by
  unfold partKey
  repeat' first
    | with_reducible assumption | (intro x; refine keep_cut x (fun hx => ?_) ?_; clear_value x; rotate_left; subst x; rotate_left)
    | (intro x; subst x) | intro _ | lift_lets
    | with_reducible (first | apply keep_serve | apply keep_served | apply keep_derivedEnd | apply keep_deriveKey)
    | with_reducible (first | apply keep_keyClear | apply keep_served_ite | apply keep_wait)

theorem keep_execPartKey {s : State} (hs : s.Canonical) :
    OutcomeKeeps (execPartKey s) := keeps_next (keep_partKey hs)

theorem keep_partLock {s : State} (hs : s.Canonical) :
    State.Canonical (partLock s) := by
  unfold partLock
  repeat' first
    | with_reducible assumption | (intro x; refine keep_cut x (fun hx => ?_) ?_; clear_value x; rotate_left; subst x; rotate_left)
    | intro _ | lift_lets | with_reducible (first | apply keep_serve | apply keep_partitionLock | apply keep_wlock | apply keep_cfglock)
    | with_reducible (first | apply keep_raiseBit | apply keep_isoLock | apply keep_served | apply keep_served_ite)
    | with_reducible apply keep_wait

theorem keep_execPartLock {s : State} (hs : s.Canonical) :
    OutcomeKeeps (execPartLock s) := keeps_next (keep_partLock hs)

theorem keep_partErase {s : State} (hs : s.Canonical) :
    State.Canonical (partErase s) := by
  unfold partErase
  repeat' first
    | with_reducible assumption | (intro x; refine keep_cut x (fun hx => ?_) ?_; clear_value x; rotate_left; subst x; rotate_left)
    | (intro x; subst x) | intro _ | lift_lets
    | with_reducible (first | apply keep_serve | apply keep_rangePassEnd | apply keep_rangeCmd | apply keep_keyClear | apply keep_onUqi)
    | with_reducible (first | apply keep_deriveKey | apply keep_served | apply keep_derivedEnd | apply keep_served_ite | apply keep_wait)
    | with_reducible (first | apply keep_inr | apply keep_ite | apply And.intro | apply keep_regs | apply keep_sram)
    | with_reducible (first | apply keep_store | apply keep_buf | apply keep_nil) | simp only [↓canonical_mk] | split

theorem keep_execPartErase {s : State} (hs : s.Canonical) :
    OutcomeKeeps (execPartErase s) := keeps_next (keep_partErase hs)

theorem keep_partQuery {s : State} (hs : s.Canonical) :
    State.Canonical (partQuery s) := by
  unfold partQuery
  repeat' first | with_reducible assumption | intro _ | lift_lets | with_reducible (first | apply keep_serve | apply keep_served)

theorem keep_execPartQuery {s : State} (hs : s.Canonical) :
    OutcomeKeeps (execPartQuery s) := keeps_next (keep_partQuery hs)

theorem keep_startTest {s : State} {op type : Nat} {t : Trans} (hs : s.Canonical) :
    State.Canonical (State.startTest s op type t) := by
  unfold State.startTest
  repeat' first
    | with_reducible assumption | (intro x; refine keep_cut x (fun hx => ?_) ?_; clear_value x; rotate_left; subst x; rotate_left)
    | intro _ | lift_lets | with_reducible (first | apply keep_serve | apply keep_served | apply keep_modeReqFlow | apply keep_onMgt)
    | with_reducible (first | apply keep_mcEvent | apply keep_served_ite | apply keep_wait | apply keep_inr | apply keep_ite)

theorem keep_execStShort (t : Trans) {s : State} (hs : s.Canonical) :
    OutcomeKeeps (execStShort t s) := keeps_next (keep_startTest hs)

theorem keep_execStExt (t : Trans) {s : State} (hs : s.Canonical) :
    OutcomeKeeps (execStExt t s) := keeps_next (keep_startTest hs)

theorem keep_stAbort {progress : BitVec 8} {sectors : BitVec 64} {s : State} (hs : s.Canonical) :
    State.Canonical (stAbort progress sectors s) := by
  unfold stAbort
  repeat' first
    | with_reducible assumption | (intro x; refine keep_cut x (fun hx => ?_) ?_; clear_value x; rotate_left; subst x; rotate_left)
    | (intro x; subst x) | intro _ | lift_lets
    | with_reducible (first | apply keep_serve | apply keep_served | apply keep_onMgt | apply keep_mcEvent | apply keep_served_ite)

theorem keep_execStAbort (progress : BitVec 8) (sectors : BitVec 64) {s : State} (hs : s.Canonical) :
    OutcomeKeeps (execStAbort progress sectors s) := keeps_next (keep_stAbort hs)

theorem keep_stResult {progress : BitVec 8} {sectors : BitVec 64} {unrec secs : BitVec 32} {s : State} (hs : s.Canonical) :
    State.Canonical (stResult progress sectors unrec secs s) := by
  unfold stResult
  repeat' first
    | with_reducible assumption | (intro x; subst x) | intro _ | lift_lets | with_reducible (first | apply keep_serve | apply keep_served)

theorem keep_execStResult (progress : BitVec 8) (sectors : BitVec 64) (unrec secs : BitVec 32) {s : State} (hs : s.Canonical) :
    OutcomeKeeps (execStResult progress sectors unrec secs s) := keeps_next (keep_stResult hs)

theorem keep_selfTestEnd {elem : BitVec 4} {sectors : BitVec 64} {secs unrec : BitVec 32} {failing : List (BitVec 64)} {s : State} (hs : s.Canonical) :
    State.Canonical (selfTestEnd elem sectors secs unrec failing s) := by
  unfold selfTestEnd
  repeat' first
    | with_reducible assumption | (intro x; subst x) | lift_lets
    | with_reducible (first | apply keep_onMgt | apply keep_mcEvent | apply keep_ite)

theorem keep_execSelfTestEnd (elem : BitVec 4) (sectors : BitVec 64) (secs unrec : BitVec 32) (failing : List (BitVec 64)) {s : State} (hs : s.Canonical) :
    OutcomeKeeps (execSelfTestEnd elem sectors secs unrec failing s) := keeps_next (keep_selfTestEnd hs)

theorem keep_eraseSector {s : State} {a : Nat} {ok : Bool} (hs : s.Canonical) :
    State.Canonical (State.eraseSector s a ok).2 := by
  unfold State.eraseSector
  repeat' first
    | with_reducible assumption | (intro x; refine keep_cut x (fun hx => ?_) ?_; clear_value x; rotate_left; subst x; rotate_left)
    | (intro x; subst x) | lift_lets
    | with_reducible (first | apply keep_wakeBank | apply keep_stoRefuse | apply keep_eraseDone | apply keep_startErase | apply keep_layFree)
    | with_reducible (first | apply keep_ite) | split

theorem keep_eraseSectors {base bad : Nat} {a0 : List Nat} {a1 : State} (h : a1.Canonical) :
    State.Canonical (State.eraseSectors base bad a0 a1).2 := by
  induction a0 generalizing a1 with
  | nil =>
    unfold State.eraseSectors
    repeat' with_reducible first | assumption
  | cons x l ih =>
    unfold State.eraseSectors
    repeat' first
      | with_reducible assumption | (intro x; refine keep_cut x (fun hx => ?_) ?_; clear_value x; rotate_left; subst x; rotate_left)
      | (intro x; subst x) | lift_lets | with_reducible (first | apply ih | apply keep_eraseSector) | split

theorem keep_fwBegin {bad : BitVec 8} {s : State} (hs : s.Canonical) :
    State.Canonical (fwBegin bad s) := by
  unfold fwBegin
  repeat' first
    | with_reducible assumption | (intro x; refine keep_cut x (fun hx => ?_) ?_; clear_value x; rotate_left; subst x; rotate_left)
    | (intro x; subst x) | intro _ | lift_lets
    | with_reducible (first | apply keep_serve | apply keep_served | apply keep_eraseSectors | apply keep_onMgt | apply keep_draw)
    | with_reducible apply keep_served_ite

theorem keep_execFwBegin (bad : BitVec 8) {s : State} (hs : s.Canonical) :
    OutcomeKeeps (execFwBegin bad s) := keeps_next (keep_fwBegin hs)

theorem keep_programPage {s : State} {a : Nat} {d : List Byte} {ok : Bool} (hs : s.Canonical) :
    State.Canonical (State.programPage s a d ok).2 := by
  unfold State.programPage
  repeat' first
    | with_reducible assumption | (intro x; refine keep_cut x (fun hx => ?_) ?_; clear_value x; rotate_left; subst x; rotate_left)
    | (intro x; subst x) | intro _ | lift_lets
    | with_reducible (first | apply keep_wakeBank | apply keep_stoRefuse | apply keep_drawBytes | apply keep_programDone | apply keep_startProgram)
    | with_reducible (first | apply keep_ite) | dsimp -zeta only [State.draw] | split

theorem keep_programPages {a pfail : Nat} {a0 : Nat} {a1 : List Byte} {a2 : Nat} {a3 : State} (h : a3.Canonical) :
    State.Canonical (State.programPages a pfail a0 a1 a2 a3).2 := by
  induction a0 generalizing a1 a2 a3 with
  | zero =>
    unfold State.programPages
    repeat' with_reducible first | assumption
  | succ n ih =>
    unfold State.programPages
    repeat' first
      | with_reducible assumption | (intro x; refine keep_cut x (fun hx => ?_) ?_; clear_value x; rotate_left; subst x; rotate_left)
      | (intro x; subst x) | lift_lets | with_reducible (first | apply ih | apply keep_programPage) | split

theorem keep_fwData {pfail : BitVec 4} {s : State} (hs : s.Canonical) :
    State.Canonical (fwData pfail s) := by
  unfold fwData
  repeat' first
    | with_reducible assumption | (intro x; refine keep_cut x (fun hx => ?_) ?_; clear_value x; rotate_left; subst x; rotate_left)
    | (intro x; subst x) | intro _ | lift_lets
    | with_reducible (first | apply keep_serve | apply keep_served | apply keep_programPages | apply keep_onMgt)
    | with_reducible apply keep_served_ite

theorem keep_execFwData (pfail : BitVec 4) {s : State} (hs : s.Canonical) :
    OutcomeKeeps (execFwData pfail s) := keeps_next (keep_fwData hs)

theorem keep_fwVerify {s : State} (hs : s.Canonical) :
    State.Canonical (fwVerify s) := by
  unfold fwVerify
  repeat' first
    | with_reducible assumption | (intro x; subst x) | intro _ | lift_lets
    | with_reducible (first | apply keep_serve | apply keep_served | apply keep_onMgt | apply keep_served_ite)

theorem keep_execFwVerify {s : State} (hs : s.Canonical) :
    OutcomeKeeps (execFwVerify s) := keeps_next (keep_fwVerify hs)

theorem keep_fwActivate {us : BitVec 32} {s : State} (hs : s.Canonical) :
    State.Canonical (fwActivate us s) := by
  unfold fwActivate
  repeat' first
    | with_reducible assumption | (intro x; refine keep_cut x (fun hx => ?_) ?_; clear_value x; rotate_left; subst x; rotate_left)
    | intro _ | lift_lets | with_reducible (first | apply keep_serve | apply keep_served | apply keep_put | apply keep_rebootNow)
    | with_reducible (first | apply keep_rangePassEnd | apply keep_rangeCmd | apply keep_modeReqReboot | apply keep_served_ite)
    | with_reducible (first | apply keep_wait | apply keep_inr)

theorem keep_execFwActivate (us : BitVec 32) {s : State} (hs : s.Canonical) :
    OutcomeKeeps (execFwActivate us s) := keeps_next (keep_fwActivate hs)

theorem keep_morInfo {s : State} (hs : s.Canonical) :
    State.Canonical (morInfo s) := by
  unfold morInfo
  repeat' first
    | with_reducible assumption | (intro x; refine keep_cut x (fun hx => ?_) ?_; clear_value x; rotate_left; subst x; rotate_left)
    | (intro x; subst x) | intro _ | lift_lets
    | with_reducible (first | apply keep_serve | apply keep_served | apply keep_served_ite | apply keep_wait | apply keep_inr)
    | with_reducible (first | apply keep_ite) | split

theorem keep_execMorInfo {s : State} (hs : s.Canonical) :
    OutcomeKeeps (execMorInfo s) := keeps_next (keep_morInfo hs)

theorem keep_morRead {s : State} (hs : s.Canonical) :
    State.Canonical (morRead s) := by
  unfold morRead
  repeat' first
    | with_reducible assumption | (intro x; subst x) | intro _ | lift_lets
    | with_reducible (first | apply keep_serve | apply keep_served | apply keep_draw | apply keep_served_ite)

theorem keep_execMorRead {s : State} (hs : s.Canonical) :
    OutcomeKeeps (execMorRead s) := keeps_next (keep_morRead hs)

end Sys2Proof.Machine
end

