-- ==== Sys2Proof/Laws/Keep/Moraine.lean ====
section
/-! SUPPORT. That the definitions of Machine/Moraine.lean keep the canonical form (see Laws/Keep.lean). -/

namespace Sys2Proof.Machine

open Sys2Proof

set_option linter.unusedSimpArgs false

theorem keep_logAck {s : State} {e : Event} (hs : s.Canonical) :
    State.Canonical (State.logAck s e) := by
  unfold State.logAck
  repeat' first
    | with_reducible assumption | (intro x; refine keep_cut x (fun hx => ?_) ?_; clear_value x; rotate_left; subst x; rotate_left)
    | (intro x; subst x) | intro _ | lift_lets
    | with_reducible (first | apply keep_flnkSend | apply keep_putB | apply keep_ite | apply And.intro | apply keep_regs)
    | with_reducible (first | apply keep_sram | apply keep_store | apply keep_buf | apply keep_nil) | simp only [↓canonical_mk] | split

theorem keep_tellLost {s : State} {e : Event} (hs : s.Canonical) :
    State.Canonical (State.tellLost s e) := by
  unfold State.tellLost
  repeat' first
    | with_reducible assumption | (intro x; refine keep_cut x (fun hx => ?_) ?_; clear_value x; rotate_left; subst x; rotate_left)
    | (intro x; subst x) | lift_lets | with_reducible (first | apply keep_put | apply keep_ite) | split

theorem keep_takeCaught {s : State} {e : Event} (hs : s.Canonical) :
    State.Canonical (State.takeCaught s e) := by
  unfold State.takeCaught
  repeat' first
    | with_reducible assumption | (intro x; refine keep_cut x (fun hx => ?_) ?_; clear_value x; rotate_left; subst x; rotate_left)
    | (intro x; subst x) | lift_lets
    | with_reducible (first | apply keep_takeEvent | apply keep_logAck | apply keep_tellLost | apply keep_ite) | split

theorem keep_captureCycle {s : State} {new : List Event} (hs : s.Canonical) :
    State.Canonical (State.captureCycle s new) := by
  unfold State.captureCycle
  repeat' first
    | with_reducible assumption | (intro x; refine keep_cut x (fun hx => ?_) ?_; clear_value x; rotate_left; subst x; rotate_left)
    | (intro x; subst x) | intro _ | lift_lets
    | with_reducible (first | apply keep_each | apply keep_loseEvent | apply keep_tellLost | apply keep_takeCaught | apply keep_ite)
    | with_reducible (first | apply And.intro | apply keep_regs | apply keep_sram | apply keep_store | apply keep_buf)
    | with_reducible (first | apply keep_nil) | simp only [↓canonical_mk] | split

theorem keep_eventCapture {present : List (BitVec 8)} {s : State} (hs : s.Canonical) :
    State.Canonical (eventCapture present s) := by
  unfold eventCapture
  repeat' first
    | with_reducible assumption | (intro x; refine keep_cut x (fun hx => ?_) ?_; clear_value x; rotate_left; subst x; rotate_left)
    | (intro x; subst x) | lift_lets | with_reducible (first | apply keep_captureCycle | apply keep_ite) | split

theorem keep_execEventCapture (present : List (BitVec 8)) {s : State} (hs : s.Canonical) :
    OutcomeKeeps (execEventCapture present s) := by
  unfold execEventCapture
  apply keeps_next
  repeat' first
    | with_reducible assumption | (intro x; refine keep_cut x (fun hx => ?_) ?_; clear_value x; rotate_left; subst x; rotate_left)
    | (intro x; subst x) | lift_lets | with_reducible (first | apply keep_eventCapture | apply keep_ite) | split

theorem keep_fwEventSubmit {m : Master} {v : Word} {present : List (BitVec 8)} {s : State} (hs : s.Canonical) :
    State.Canonical (fwEventSubmit m v present s) := by
  unfold fwEventSubmit
  repeat' first
    | with_reducible assumption | (intro x; refine keep_cut x (fun hx => ?_) ?_; clear_value x; rotate_left; subst x; rotate_left)
    | (intro x; subst x) | intro _ | lift_lets | with_reducible (first | apply keep_put | apply keep_captureCycle | apply keep_ite)
    | split

theorem keep_execFwEventSubmit (m : Master) (v : Word) (present : List (BitVec 8)) {s : State} (hs : s.Canonical) :
    OutcomeKeeps (execFwEventSubmit m v present s) := by
  unfold execFwEventSubmit
  apply keeps_next
  repeat' first
    | with_reducible assumption | (intro x; refine keep_cut x (fun hx => ?_) ?_; clear_value x; rotate_left; subst x; rotate_left)
    | (intro x; subst x) | intro _ | lift_lets | with_reducible (first | apply keep_byCore | apply keep_fwEventSubmit | apply keep_ite)
    | split

theorem keep_execSealNow {s : State} (hs : s.Canonical) :
    OutcomeKeeps (execSealNow s) := keeps_next (keep_sealBatch hs)

theorem keep_formHead {s : State} (hs : s.Canonical) :
    State.Canonical (formHead s) := by
  unfold formHead
  repeat' first
    | with_reducible assumption | (intro x; refine keep_cut x (fun hx => ?_) ?_; clear_value x; rotate_left; subst x; rotate_left)
    | (intro x; subst x) | intro _ | lift_lets | with_reducible (first | apply keep_formPrefix | apply keep_sealBatch | apply keep_ite)
    | split

theorem keep_phase1Start {s : State} (hs : s.Canonical) :
    State.Canonical (phase1Start s) := by
  unfold phase1Start
  repeat' first
    | with_reducible assumption | (intro x; refine keep_cut x (fun hx => ?_) ?_; clear_value x; rotate_left; subst x; rotate_left)
    | (intro x; subst x) | lift_lets
    | with_reducible (first | apply keep_formHead | apply keep_eraseAhead | apply keep_recorderProgram | apply keep_ite | apply And.intro)
    | with_reducible (first | apply keep_regs | apply keep_sram | apply keep_store | apply keep_buf | apply keep_nil)
    | simp only [↓canonical_mk] | split

theorem keep_execPhase1Start {s : State} (hs : s.Canonical) :
    OutcomeKeeps (execPhase1Start s) := keeps_next (keep_phase1Start hs)

theorem keep_programFailure {slot phase attempt seq : Nat} {s : State} (hs : s.Canonical) :
    State.Canonical (programFailure slot phase attempt seq s) := by
  unfold programFailure
  repeat' first
    | with_reducible assumption | (intro x; refine keep_cut x (fun hx => ?_) ?_; clear_value x; rotate_left; subst x; rotate_left)
    | lift_lets | with_reducible (first | apply keep_raiseBit | apply keep_inc | apply keep_ownEvent)

theorem keep_recorderEnd {s : State} {page : Nat} {ok : Bool} (hs : s.Canonical) :
    State.Canonical (State.recorderEnd s page ok) := by
  unfold State.recorderEnd
  repeat' first
    | with_reducible assumption | (intro x; refine keep_cut x (fun hx => ?_) ?_; clear_value x; rotate_left; subst x; rotate_left)
    | (intro x; subst x) | lift_lets
    | with_reducible (first | apply keep_setBank | apply keep_setIn | apply keep_inc | apply keep_stoCapture | apply keep_ite)
    | with_reducible (first | apply And.intro | apply keep_regs | apply keep_sram | apply keep_store | apply keep_buf)
    | with_reducible (first | apply keep_nil) | simp only [↓canonical_mk] | split

theorem keep_phase1Good {f : Formed} {rest : List FifoEntry} {s : State} (hs : s.Canonical) :
    State.Canonical (phase1Good f rest s) := by
  unfold phase1Good
  repeat' first
    | with_reducible assumption | (intro x; refine keep_cut x (fun hx => ?_) ?_; clear_value x; rotate_left; subst x; rotate_left)
    | (intro x; subst x) | intro _ | lift_lets
    | with_reducible (first | apply keep_stoProgram | apply keep_recorderEnd | apply keep_refill | apply keep_ite | apply And.intro)
    | with_reducible (first | apply keep_regs | apply keep_sram | apply keep_store | apply keep_buf | apply keep_nil)
    | simp only [↓canonical_mk] | split

theorem keep_phase1Bad {f : Formed} {back : List Byte} {s : State} (hs : s.Canonical) :
    State.Canonical (phase1Bad f back s) := by
  unfold phase1Bad
  repeat' first
    | with_reducible assumption | (intro x; refine keep_cut x (fun hx => ?_) ?_; clear_value x; rotate_left; subst x; rotate_left)
    | (intro x; subst x) | lift_lets
    | with_reducible (first | apply keep_stoProgram | apply keep_recorderEnd | apply keep_programFailure | apply keep_ite | apply And.intro)
    | with_reducible (first | apply keep_regs | apply keep_sram | apply keep_store | apply keep_buf | apply keep_nil)
    | simp only [↓canonical_mk] | split

theorem keep_phase1Done {ok : Bool} {back : List Byte} {s : State} (hs : s.Canonical) :
    State.Canonical (phase1Done ok back s) := by
  unfold phase1Done
  repeat' first
    | with_reducible assumption | (intro x; refine keep_cut x (fun hx => ?_) ?_; clear_value x; rotate_left; subst x; rotate_left)
    | (intro x; subst x) | lift_lets
    | with_reducible (first | apply keep_phase1Good | apply keep_phase1Bad | apply keep_morKick | apply keep_rdoneCheck | apply keep_ite)
    | split

theorem keep_execPhase1Done (ok : Bool) (back : List Byte) {s : State} (hs : s.Canonical) :
    OutcomeKeeps (execPhase1Done ok back s) := keeps_next (keep_phase1Done hs)

theorem keep_recordSignatureReady {s : State} (hs : s.Canonical) :
    State.Canonical (recordSignatureReady s) := by
  unfold recordSignatureReady
  repeat' first
    | with_reducible assumption | (intro x; refine keep_cut x (fun hx => ?_) ?_; clear_value x; rotate_left; subst x; rotate_left)
    | (intro x; subst x) | intro _ | lift_lets
    | with_reducible (first | apply keep_eccFree | apply keep_eccKick | apply keep_sign | apply keep_morKick | apply keep_ite)
    | with_reducible (first | apply And.intro | apply keep_regs | apply keep_sram | apply keep_store | apply keep_buf)
    | with_reducible (first | apply keep_nil) | simp only [↓canonical_mk] | split

theorem keep_execRecordSignatureReady {s : State} (hs : s.Canonical) :
    OutcomeKeeps (execRecordSignatureReady s) := keeps_next (keep_recordSignatureReady hs)

theorem keep_phase2Done {ok : Bool} {back : List Byte} {s : State} (hs : s.Canonical) :
    State.Canonical (phase2Done ok back s) := by
  unfold phase2Done
  repeat' first
    | with_reducible assumption | (intro x; refine keep_cut x (fun hx => ?_) ?_; clear_value x; rotate_left; subst x; rotate_left)
    | (intro x; subst x) | intro _ | lift_lets
    | with_reducible (first | apply keep_stoProgram | apply keep_recorderEnd | apply keep_programFailure | apply keep_ownEvent | apply keep_rdoneCheck)
    | with_reducible (first | apply keep_morKick | apply keep_getD | apply keep_ite | apply And.intro | apply keep_regs)
    | with_reducible (first | apply keep_sram | apply keep_store | apply keep_buf | apply keep_nil) | simp only [↓canonical_mk] | split

theorem keep_execPhase2Done (ok : Bool) (back : List Byte) {s : State} (hs : s.Canonical) :
    OutcomeKeeps (execPhase2Done ok back s) := keeps_next (keep_phase2Done hs)

theorem keep_driftEraseFailed {m : Nat} {s : State} (hs : s.Canonical) :
    State.Canonical (driftEraseFailed m s) := by
  unfold driftEraseFailed
  repeat' first
    | with_reducible assumption | (intro x; refine keep_cut x (fun hx => ?_) ?_; clear_value x; rotate_left; subst x; rotate_left)
    | (intro x; subst x) | lift_lets
    | with_reducible (first | apply keep_raiseBit | apply keep_inc | apply keep_ownEvent | apply keep_wantErase | apply keep_ite)
    | with_reducible (first | apply And.intro | apply keep_regs | apply keep_sram | apply keep_store | apply keep_buf)
    | with_reducible (first | apply keep_nil) | simp only [↓canonical_mk] | split

theorem keep_driftEraseDone {left : Option (List Host.Cell)} {s : State} (hs : s.Canonical) :
    State.Canonical (driftEraseDone left s) := by
  unfold driftEraseDone
  repeat' first
    | with_reducible assumption | (intro x; refine keep_cut x (fun hx => ?_) ?_; clear_value x; rotate_left; subst x; rotate_left)
    | (intro x; subst x) | lift_lets
    | with_reducible (first | apply keep_endErase | apply keep_stoErase | apply keep_driftEraseFailed | apply keep_layCells | apply keep_inc)
    | with_reducible (first | apply keep_stoCapture | apply keep_rdoneCheck | apply keep_morKick | apply keep_ite | apply And.intro)
    | with_reducible (first | apply keep_regs | apply keep_sram | apply keep_store | apply keep_buf | apply keep_nil)
    | simp only [↓canonical_mk] | split

theorem keep_execDriftEraseDone (left : Option (List Host.Cell)) {s : State} (hs : s.Canonical) :
    OutcomeKeeps (execDriftEraseDone left s) := by
  unfold execDriftEraseDone
  apply keeps_next
  repeat' first
    | with_reducible assumption | (intro x; refine keep_cut x (fun hx => ?_) ?_; clear_value x; rotate_left; subst x; rotate_left)
    | (intro x; subst x) | lift_lets | with_reducible (first | apply keep_driftEraseDone | apply keep_ite) | split

theorem keep_tornRecord {slot st : Nat} {s : State} (hs : s.Canonical) :
    State.Canonical (tornRecord slot st s) := by
  unfold tornRecord
  repeat' first | with_reducible assumption | (intro x; subst x) | lift_lets | with_reducible apply keep_ownEvent

theorem keep_sigtornReport {slot : Nat} {s : State} (hs : s.Canonical) :
    State.Canonical (sigtornReport slot s) := by
  unfold sigtornReport
  repeat' first
    | with_reducible assumption | (intro x; refine keep_cut x (fun hx => ?_) ?_; clear_value x; rotate_left; subst x; rotate_left)
    | (intro x; subst x) | lift_lets | with_reducible (first | apply keep_tornRecord | apply keep_ownEvent | apply keep_ite)

theorem keep_searchFound {used : List Nat} {s : State} (hs : s.Canonical) :
    State.Canonical (searchFound used s) := by
  unfold searchFound
  repeat' first
    | with_reducible assumption | (intro x; refine keep_cut x (fun hx => ?_) ?_; clear_value x; rotate_left; subst x; rotate_left)
    | (intro x; subst x) | intro _ | lift_lets
    | with_reducible (first | apply keep_put | apply keep_ite | apply And.intro | apply keep_regs | apply keep_sram)
    | with_reducible (first | apply keep_store | apply keep_buf | apply keep_nil) | simp only [↓canonical_mk] | split

theorem keep_searchErase {s : State} (hs : s.Canonical) :
    State.Canonical (State.searchErase s) := by
  unfold State.searchErase
  repeat' first
    | with_reducible assumption | (intro x; refine keep_cut x (fun hx => ?_) ?_; clear_value x; rotate_left; subst x; rotate_left)
    | (intro x; subst x) | lift_lets | with_reducible (first | apply keep_eraseAhead | apply keep_wantErase | apply keep_ite) | split

theorem keep_tailSearchDone {s : State} (hs : s.Canonical) :
    State.Canonical (tailSearchDone s) := by
  unfold tailSearchDone
  repeat' first
    | with_reducible assumption | (intro x; refine keep_cut x (fun hx => ?_) ?_; clear_value x; rotate_left; subst x; rotate_left)
    | (intro x; subst x) | intro _ | lift_lets
    | with_reducible (first | apply keep_each | apply keep_searchFound | apply keep_raiseBit | apply keep_formPrefix | apply keep_put)
    | with_reducible (first | apply keep_tornRecord | apply keep_sigtornReport | apply keep_searchErase | apply keep_morKick | apply keep_ite)
    | split

theorem keep_execTailSearchDone {s : State} (hs : s.Canonical) :
    OutcomeKeeps (execTailSearchDone s) := keeps_next (keep_tailSearchDone hs)

theorem keep_morReadGo {m : Master} {s : State} (hs : s.Canonical) :
    State.Canonical (morReadGo m s) := by
  unfold morReadGo
  repeat' with_reducible first | assumption | apply keep_raiseBit | apply keep_ite

theorem keep_execMorReadGo (m : Master) {s : State} (hs : s.Canonical) :
    OutcomeKeeps (execMorReadGo m s) := by
  unfold execMorReadGo
  apply keeps_next
  repeat' first
    | with_reducible assumption | (intro x; refine keep_cut x (fun hx => ?_) ?_; clear_value x; rotate_left; subst x; rotate_left)
    | (intro x; subst x) | intro _ | lift_lets | with_reducible (first | apply keep_byCore | apply keep_morReadGo | apply keep_ite)
    | split

theorem keep_fillReadBuf {m : Master} {b : List Byte} {s : State} (hs : s.Canonical) :
    State.Canonical (fillReadBuf m b s) := by
  unfold fillReadBuf
  repeat' first | with_reducible assumption | intro _ | lift_lets | with_reducible (first | apply keep_each | apply keep_wr)

theorem keep_morReadDone {m : Master} {s : State} (hs : s.Canonical) :
    State.Canonical (morReadDone m s) := by
  unfold morReadDone
  repeat' first
    | with_reducible assumption | (intro x; refine keep_cut x (fun hx => ?_) ?_; clear_value x; rotate_left; subst x; rotate_left)
    | (intro x; subst x) | lift_lets | with_reducible (first | apply keep_clr | apply keep_fillReadBuf | apply keep_put | apply keep_ite)
    | split

theorem keep_execMorReadDone (m : Master) {s : State} (hs : s.Canonical) :
    OutcomeKeeps (execMorReadDone m s) := keeps_next (keep_morReadDone hs)

theorem keep_retreatRetractDone {linkDown70ms : Bool} {s : State} (hs : s.Canonical) :
    State.Canonical (retreatRetractDone linkDown70ms s) := by
  unfold retreatRetractDone
  repeat' first
    | with_reducible assumption | (intro x; refine keep_cut x (fun hx => ?_) ?_; clear_value x; rotate_left; subst x; rotate_left)
    | (intro x; subst x) | lift_lets
    | with_reducible (first | apply keep_ownEvent | apply keep_sealBatch | apply keep_ite | apply And.intro | apply keep_regs)
    | with_reducible (first | apply keep_sram | apply keep_store | apply keep_buf | apply keep_nil) | simp only [↓canonical_mk] | split

theorem keep_execRetreatRetractDone (linkDown70ms : Bool) {s : State} (hs : s.Canonical) :
    OutcomeKeeps (execRetreatRetractDone linkDown70ms s) := keeps_next (keep_retreatRetractDone hs)

end Sys2Proof.Machine
end

