-- ==== Sys2Proof/Laws/Keep/Pmx.lean ====
section
/-! SUPPORT. That the definitions of Machine/Pmx.lean keep the canonical form (see Laws/Keep.lean). -/

namespace Sys2Proof.Machine

open Sys2Proof

set_option linter.unusedSimpArgs false

theorem keep_strapSample {a b c : BitVec 4} {s : State} (hs : s.Canonical) :
    State.Canonical (strapSample a b c s) := by
  unfold strapSample
  repeat' with_reducible first | assumption | apply keep_wr | apply keep_onPmx | apply keep_ite

theorem keep_execStrapSample (a b c : BitVec 4) {s : State} (hs : s.Canonical) :
    OutcomeKeeps (execStrapSample a b c s) := keeps_next (keep_strapSample hs)

theorem keep_gpioHandover {s : State} (hs : s.Canonical) :
    State.Canonical (gpioHandover s) := by
  unfold gpioHandover
  repeat' first
    | with_reducible assumption | (intro x; refine keep_cut x (fun hx => ?_) ?_; clear_value x; rotate_left; subst x; rotate_left)
    | (intro x; subst x) | intro _ | lift_lets
    | with_reducible (first | apply keep_onPmx | apply keep_clr | apply keep_ite | apply And.intro | apply keep_regs)
    | with_reducible (first | apply keep_sram | apply keep_store | apply keep_buf | apply keep_nil) | simp only [↓canonical_mk] | split

theorem keep_execGpioHandover {s : State} (hs : s.Canonical) :
    OutcomeKeeps (execGpioHandover s) := keeps_next (keep_gpioHandover hs)

theorem keep_pmxCommit {s : State} (hs : s.Canonical) :
    State.Canonical (pmxCommit s) := by
  unfold pmxCommit
  repeat' first
    | with_reducible assumption | (intro x; refine keep_cut x (fun hx => ?_) ?_; clear_value x; rotate_left; subst x; rotate_left)
    | (intro x; subst x) | intro _ | lift_lets
    | with_reducible (first | apply keep_each | apply keep_raiseBit | apply keep_clr | apply keep_put | apply keep_pmxHold)
    | with_reducible (first | apply keep_pmxApply | apply keep_pmxCut | apply keep_onPmx | apply keep_ite | apply And.intro)
    | with_reducible (first | apply keep_regs | apply keep_sram | apply keep_store | apply keep_buf | apply keep_nil)
    | simp only [↓canonical_mk] | split

theorem keep_execPmxCommit (m : Master) {s : State} (hs : s.Canonical) :
    OutcomeKeeps (execPmxCommit m s) := by
  unfold execPmxCommit
  apply keeps_next
  repeat' first
    | with_reducible assumption | (intro x; refine keep_cut x (fun hx => ?_) ?_; clear_value x; rotate_left; subst x; rotate_left)
    | (intro x; subst x) | intro _ | lift_lets | with_reducible (first | apply keep_byCore | apply keep_pmxCommit | apply keep_ite)
    | split

theorem keep_pmxSwitchEnd {s : State} (hs : s.Canonical) :
    State.Canonical (pmxSwitchEnd s) := by
  unfold pmxSwitchEnd
  repeat' first
    | with_reducible assumption | (intro x; refine keep_cut x (fun hx => ?_) ?_; clear_value x; rotate_left; subst x; rotate_left)
    | (intro x; subst x) | intro _ | lift_lets
    | with_reducible (first | apply keep_each | apply keep_onPmx | apply keep_uartKick | apply keep_put | apply keep_clr)
    | with_reducible (first | apply keep_pmxStops | apply keep_ite | apply And.intro | apply keep_regs | apply keep_sram)
    | with_reducible (first | apply keep_store | apply keep_buf | apply keep_nil) | simp only [↓canonical_mk] | split

theorem keep_execPmxSwitchEnd {s : State} (hs : s.Canonical) :
    OutcomeKeeps (execPmxSwitchEnd s) := keeps_next (keep_pmxSwitchEnd hs)

theorem keep_pmxPinLock {n : BitVec 5} {s : State} (hs : s.Canonical) :
    State.Canonical (pmxPinLock n s) := by
  unfold pmxPinLock
  repeat' with_reducible first | assumption | apply keep_raiseBit | apply keep_ite

theorem keep_execPmxPinLock (m : Master) (n : BitVec 5) {s : State} (hs : s.Canonical) :
    OutcomeKeeps (execPmxPinLock m n s) := by
  unfold execPmxPinLock
  apply keeps_next
  repeat' first
    | with_reducible assumption | (intro x; refine keep_cut x (fun hx => ?_) ?_; clear_value x; rotate_left; subst x; rotate_left)
    | (intro x; subst x) | intro _ | lift_lets | with_reducible (first | apply keep_byCore | apply keep_pmxPinLock | apply keep_ite)
    | split

theorem keep_uartTxWrite {v : Word} {s : State} (hs : s.Canonical) :
    State.Canonical (uartTxWrite v s) := by
  unfold uartTxWrite
  repeat' with_reducible first | assumption | apply keep_onPmx | apply keep_uartKick | apply keep_ite

theorem keep_execUartTxWrite (m : Master) (v : Word) {s : State} (hs : s.Canonical) :
    OutcomeKeeps (execUartTxWrite m v s) := by
  unfold execUartTxWrite
  apply keeps_next
  repeat' first
    | with_reducible assumption | (intro x; refine keep_cut x (fun hx => ?_) ?_; clear_value x; rotate_left; subst x; rotate_left)
    | (intro x; subst x) | intro _ | lift_lets | with_reducible (first | apply keep_byCore | apply keep_uartTxWrite | apply keep_ite)
    | split

theorem keep_uartPop {s : State} (hs : s.Canonical) :
    State.Canonical (uartPop s) := by
  unfold uartPop
  repeat' with_reducible first | assumption | apply keep_onPmx | apply keep_uartStat

theorem keep_execUartPop (m : Master) {s : State} (hs : s.Canonical) :
    OutcomeKeeps (execUartPop m s) := by
  unfold execUartPop
  apply keeps_next
  repeat' first
    | with_reducible assumption | (intro x; refine keep_cut x (fun hx => ?_) ?_; clear_value x; rotate_left; subst x; rotate_left)
    | (intro x; subst x) | intro _ | lift_lets | with_reducible (first | apply keep_byCore | apply keep_uartPop | apply keep_ite) | split

theorem keep_uartTxCharacter {s : State} (hs : s.Canonical) :
    State.Canonical (uartTxCharacter s) := by
  unfold uartTxCharacter
  repeat' first
    | with_reducible assumption | (intro x; refine keep_cut x (fun hx => ?_) ?_; clear_value x; rotate_left; subst x; rotate_left)
    | (intro x; subst x) | intro _ | lift_lets
    | with_reducible (first | apply keep_emit | apply keep_onPmx | apply keep_uartKick | apply keep_ite | apply And.intro)
    | with_reducible (first | apply keep_regs | apply keep_sram | apply keep_store | apply keep_buf | apply keep_nil)
    | simp only [↓canonical_mk] | split

theorem keep_execUartTxCharacter {s : State} (hs : s.Canonical) :
    OutcomeKeeps (execUartTxCharacter s) := keeps_next (keep_uartTxCharacter hs)

theorem keep_uartRxStartBit {s : State} (hs : s.Canonical) :
    State.Canonical (uartRxStartBit s) := by
  unfold uartRxStartBit
  repeat' with_reducible first | assumption | apply keep_raiseBit | apply keep_ite

theorem keep_execUartRxStartBit {s : State} (hs : s.Canonical) :
    OutcomeKeeps (execUartRxStartBit s) := keeps_next (keep_uartRxStartBit hs)

theorem keep_uartRxCharacter {b : Byte} {stop : Bool} {s : State} (hs : s.Canonical) :
    State.Canonical (uartRxCharacter b stop s) := by
  unfold uartRxCharacter
  repeat' first
    | with_reducible assumption | (intro x; refine keep_cut x (fun hx => ?_) ?_; clear_value x; rotate_left; subst x; rotate_left)
    | lift_lets | with_reducible (first | apply keep_clr | apply keep_raiseBit | apply keep_onPmx | apply keep_uartStat | apply keep_ite)

theorem keep_execUartRxCharacter (b : Byte) (stop : Bool) {s : State} (hs : s.Canonical) :
    OutcomeKeeps (execUartRxCharacter b stop s) := keeps_next (keep_uartRxCharacter hs)

end Sys2Proof.Machine
end

