-- ==== Sys2Proof/Laws/Keep/Srv.lean ====
section
/-! SUPPORT. That the definitions of Machine/Srv.lean keep the canonical form (see Laws/Keep.lean). -/

namespace Sys2Proof.Machine

open Sys2Proof

set_option linter.unusedSimpArgs false

theorem keep_upstreamServoWord {w : Upstream} {s : State} (hs : s.Canonical) :
    State.Canonical (upstreamServoWord w s) := by
  unfold upstreamServoWord
  repeat' first
    | with_reducible assumption | (intro x; refine keep_cut x (fun hx => ?_) ?_; clear_value x; rotate_left; subst x; rotate_left)
    | (intro x; subst x) | intro _ | lift_lets
    | with_reducible (first | apply keep_onPd | apply keep_put | apply keep_onSrv | apply keep_ite | apply And.intro)
    | with_reducible (first | apply keep_regs | apply keep_sram | apply keep_store | apply keep_buf | apply keep_nil)
    | simp only [↓canonical_mk] | split

theorem keep_execUpstreamServoWord (w : Upstream) {s : State} (hs : s.Canonical) :
    OutcomeKeeps (execUpstreamServoWord w s) := by
  unfold execUpstreamServoWord
  apply keeps_next
  repeat' first
    | with_reducible assumption | (intro x; refine keep_cut x (fun hx => ?_) ?_; clear_value x; rotate_left; subst x; rotate_left)
    | (intro x; subst x) | lift_lets | with_reducible (first | apply keep_upstreamServoWord | apply keep_ite) | split

theorem keep_burstEnd {f : Captures} {s : State} (hs : s.Canonical) :
    State.Canonical (burstEnd f s) := by
  unfold burstEnd
  repeat' first
    | with_reducible assumption | (intro x; refine keep_cut x (fun hx => ?_) ?_; clear_value x; rotate_left; subst x; rotate_left)
    | lift_lets | with_reducible (first | apply keep_capture | apply keep_onSrv | apply keep_ite)

theorem keep_execBurstEnd (f : Captures) {s : State} (hs : s.Canonical) :
    OutcomeKeeps (execBurstEnd f s) := keeps_next (keep_burstEnd hs)

theorem keep_shockLevel {s : State} {high : Bool} (hs : s.Canonical) :
    State.Canonical (State.shockLevel s high) := by
  unfold State.shockLevel
  repeat' first
    | with_reducible assumption | (intro x; refine keep_cut x (fun hx => ?_) ?_; clear_value x; rotate_left; subst x; rotate_left)
    | (intro x; subst x) | intro _ | lift_lets
    | with_reducible (first | apply keep_onSrv | apply keep_ite | apply And.intro | apply keep_regs | apply keep_sram)
    | with_reducible (first | apply keep_store | apply keep_buf | apply keep_nil) | simp only [↓canonical_mk] | split

theorem keep_positionConversionDone {f : SrvLines} {s : State} (hs : s.Canonical) :
    State.Canonical (positionConversionDone f s) := by
  unfold positionConversionDone
  repeat' first
    | with_reducible assumption | (intro x; refine keep_cut x (fun hx => ?_) ?_; clear_value x; rotate_left; subst x; rotate_left)
    | (intro x; subst x) | lift_lets
    | with_reducible (first | apply keep_shockLevel | apply keep_paLevel | apply keep_converted | apply keep_chSettle | apply keep_ite)
    | split

theorem keep_execPositionConversionDone (f : SrvLines) {s : State} (hs : s.Canonical) :
    OutcomeKeeps (execPositionConversionDone f s) := keeps_next (keep_positionConversionDone hs)

theorem keep_missedWedge {cause : BitVec 4} {s : State} (hs : s.Canonical) :
    State.Canonical (missedWedge cause s) := by
  unfold missedWedge
  repeat' with_reducible first | assumption | apply keep_missCur | apply keep_chSettle | apply keep_ite

theorem keep_execMissedWedge (cause : BitVec 4) {s : State} (hs : s.Canonical) :
    OutcomeKeeps (execMissedWedge cause s) := keeps_next (keep_missedWedge hs)

theorem keep_svPosEntry {f : SvFacts} {s : State} (hs : s.Canonical) :
    State.Canonical (svPosEntry f s) := by
  unfold svPosEntry
  repeat' first
    | with_reducible assumption | (intro x; refine keep_cut x (fun hx => ?_) ?_; clear_value x; rotate_left; subst x; rotate_left)
    | (intro x; subst x) | intro _ | lift_lets
    | with_reducible (first | apply keep_onSrv | apply keep_raiseBit | apply keep_inc | apply keep_emit | apply keep_ite)
    | with_reducible (first | apply And.intro | apply keep_regs | apply keep_sram | apply keep_store | apply keep_buf)
    | with_reducible (first | apply keep_nil) | simp only [↓canonical_mk] | split

theorem keep_execSvPosEntry (f : SvFacts) {s : State} (hs : s.Canonical) :
    OutcomeKeeps (execSvPosEntry f s) := by
  unfold execSvPosEntry
  apply keeps_next
  repeat' first
    | with_reducible assumption | (intro x; refine keep_cut x (fun hx => ?_) ?_; clear_value x; rotate_left; subst x; rotate_left)
    | (intro x; subst x) | lift_lets | with_reducible (first | apply keep_svPosEntry | apply keep_ite) | split

theorem keep_measure {s : State} {cycles : Nat} (hs : s.Canonical) :
    State.Canonical (State.measure s cycles) := by
  unfold State.measure
  repeat' first
    | with_reducible assumption | (intro x; refine keep_cut x (fun hx => ?_) ?_; clear_value x; rotate_left; subst x; rotate_left)
    | (intro x; subst x) | lift_lets
    | with_reducible (first | apply keep_onSrv | apply keep_put | apply keep_raiseBit | apply keep_inc | apply keep_ite)

theorem keep_servoCommit {m : Master} {v : Word} {cycles : Nat} {s : State} (hs : s.Canonical) :
    State.Canonical (servoCommit m v cycles s) := by
  unfold servoCommit
  repeat' first
    | with_reducible assumption | (intro x; refine keep_cut x (fun hx => ?_) ?_; clear_value x; rotate_left; subst x; rotate_left)
    | (intro x; subst x) | lift_lets
    | with_reducible (first | apply keep_put | apply keep_inc | apply keep_onSrv | apply keep_clr | apply keep_measure)
    | with_reducible (first | apply keep_traceFall | apply keep_ite)

theorem keep_execServoCommit (m : Master) (v : Word) (cycles : Nat) {s : State} (hs : s.Canonical) :
    OutcomeKeeps (execServoCommit m v cycles s) := by
  unfold execServoCommit
  apply keeps_next
  repeat' first
    | with_reducible assumption | (intro x; refine keep_cut x (fun hx => ?_) ?_; clear_value x; rotate_left; subst x; rotate_left)
    | (intro x; subst x) | intro _ | lift_lets | with_reducible (first | apply keep_byCore | apply keep_servoCommit | apply keep_ite)
    | split

theorem keep_cmdlost {s : State} (hs : s.Canonical) :
    State.Canonical (cmdlost s) := by
  unfold cmdlost
  repeat' first
    | with_reducible assumption | (intro x; refine keep_cut x (fun hx => ?_) ?_; clear_value x; rotate_left; subst x; rotate_left)
    | (intro x; subst x) | intro _ | lift_lets
    | with_reducible (first | apply keep_onSrv | apply keep_raiseBit | apply keep_inc | apply keep_ite | apply And.intro)
    | with_reducible (first | apply keep_regs | apply keep_sram | apply keep_store | apply keep_buf | apply keep_nil)
    | simp only [↓canonical_mk] | split

theorem keep_execCmdlost {s : State} (hs : s.Canonical) :
    OutcomeKeeps (execCmdlost s) := keeps_next (keep_cmdlost hs)

theorem keep_shockEvent {n : BitVec 1} {s : State} (hs : s.Canonical) :
    State.Canonical (shockEvent n s) := by
  unfold shockEvent
  repeat' first
    | with_reducible assumption | (intro x; refine keep_cut x (fun hx => ?_) ?_; clear_value x; rotate_left; subst x; rotate_left)
    | lift_lets
    | with_reducible (first | apply keep_onSrv | apply keep_raiseBit | apply keep_inc | apply keep_wusRise | apply keep_chSettle)
    | with_reducible apply keep_ite

theorem keep_execShockEvent (n : BitVec 1) {s : State} (hs : s.Canonical) :
    OutcomeKeeps (execShockEvent n s) := keeps_next (keep_shockEvent hs)

theorem keep_preampFault {n : BitVec 1} {s : State} (hs : s.Canonical) :
    State.Canonical (preampFault n s) := by
  unfold preampFault
  repeat' first
    | with_reducible assumption | (intro x; refine keep_cut x (fun hx => ?_) ?_; clear_value x; rotate_left; subst x; rotate_left)
    | (intro x; subst x) | lift_lets | with_reducible (first | apply keep_paFall | apply keep_chSettle | apply keep_ite) | split

theorem keep_execPreampFault (n : BitVec 1) {s : State} (hs : s.Canonical) :
    OutcomeKeeps (execPreampFault n s) := keeps_next (keep_preampFault hs)

theorem keep_srvModeWrite {v : Word} {s : State} (hs : s.Canonical) :
    State.Canonical (srvModeWrite v s) := by
  unfold srvModeWrite
  repeat' first
    | with_reducible assumption | (intro x; refine keep_cut x (fun hx => ?_) ?_; clear_value x; rotate_left; subst x; rotate_left)
    | (intro x; subst x) | lift_lets
    | with_reducible (first | apply keep_put | apply keep_clr | apply keep_onSrv | apply keep_wusRise | apply keep_chSettle)
    | with_reducible apply keep_ite

theorem keep_execSrvModeWrite (m : Master) (v : Word) {s : State} (hs : s.Canonical) :
    OutcomeKeeps (execSrvModeWrite m v s) := by
  unfold execSrvModeWrite
  apply keeps_next
  repeat' first
    | with_reducible assumption | (intro x; refine keep_cut x (fun hx => ?_) ?_; clear_value x; rotate_left; subst x; rotate_left)
    | (intro x; subst x) | intro _ | lift_lets | with_reducible (first | apply keep_byCore | apply keep_srvModeWrite | apply keep_ite)
    | split

theorem keep_traceRecord {busy : Bool} {s : State} (hs : s.Canonical) :
    State.Canonical (traceRecord busy s) := by
  unfold traceRecord
  repeat' first
    | with_reducible assumption | (intro x; refine keep_cut x (fun hx => ?_) ?_; clear_value x; rotate_left; subst x; rotate_left)
    | (intro x; subst x) | intro _ | lift_lets
    | with_reducible (first | apply keep_onSrv | apply keep_inc | apply keep_emit | apply keep_ite | apply And.intro)
    | with_reducible (first | apply keep_regs | apply keep_sram | apply keep_store | apply keep_buf | apply keep_nil)
    | simp only [↓canonical_mk] | split

theorem keep_execTraceRecord (busy : Bool) {s : State} (hs : s.Canonical) :
    OutcomeKeeps (execTraceRecord busy s) := keeps_next (keep_traceRecord hs)

end Sys2Proof.Machine
end

