-- ==== Sys2Proof/Laws/Keep/Wsq.lean ====
section
/-! SUPPORT. That the definitions of Machine/Wsq.lean keep the canonical form (see Laws/Keep.lean). -/

namespace Sys2Proof.Machine

open Sys2Proof

set_option linter.unusedSimpArgs false

theorem keep_wsqCont {n : Nat} {f : Captures} {s : State} (hs : s.Canonical) :
    State.Canonical (wsqCont n f s) := by
  unfold wsqCont
  repeat' first | with_reducible assumption | intro _ | lift_lets | with_reducible (first | apply keep_wsqExec | apply keep_wsqGoto)

theorem keep_execWsqCont (n : Nat) (f : Captures) {s : State} (hs : s.Canonical) :
    OutcomeKeeps (execWsqCont n f s) := keeps_next (keep_wsqCont hs)

theorem keep_wsqJump {n : Nat} {f : Captures} {s : State} (hs : s.Canonical) :
    State.Canonical (wsqJump n f s) := by
  unfold wsqJump
  repeat' first | with_reducible assumption | intro _ | lift_lets | with_reducible (first | apply keep_wsqExec | apply keep_wsqGoto)

theorem keep_execWsqJump (n : Nat) (f : Captures) {s : State} (hs : s.Canonical) :
    OutcomeKeeps (execWsqJump n f s) := keeps_next (keep_wsqJump hs)

theorem keep_wsqBranch {n : Nat} {f : Captures} {s : State} (hs : s.Canonical) :
    State.Canonical (wsqBranch n f s) := by
  unfold wsqBranch
  repeat' first | with_reducible assumption | intro _ | lift_lets | with_reducible (first | apply keep_wsqExec | apply keep_wsqGoto)

theorem keep_execWsqBranch (n : Nat) (f : Captures) {s : State} (hs : s.Canonical) :
    OutcomeKeeps (execWsqBranch n f s) := keeps_next (keep_wsqBranch hs)

theorem keep_wsqWait {n : Nat} {f : Captures} {s : State} (hs : s.Canonical) :
    State.Canonical (wsqWait n f s) := by
  unfold wsqWait
  repeat' first
    | with_reducible assumption | intro _ | lift_lets
    | with_reducible (first | apply keep_wsqExec | apply keep_wsqGoto | apply keep_onWsq | apply keep_ite)

theorem keep_execWsqWait (n : Nat) (f : Captures) {s : State} (hs : s.Canonical) :
    OutcomeKeeps (execWsqWait n f s) := keeps_next (keep_wsqWait hs)

theorem keep_wsqWaitSatisfied {n : Nat} {f : Captures} {s : State} (hs : s.Canonical) :
    State.Canonical (wsqWaitSatisfied n f s) := by
  unfold wsqWaitSatisfied
  repeat' first
    | with_reducible assumption | (intro x; refine keep_cut x (fun hx => ?_) ?_; clear_value x; rotate_left; subst x; rotate_left)
    | (intro x; subst x) | intro _ | lift_lets
    | with_reducible (first | apply keep_wsqTime | apply keep_wsqCycles | apply keep_onWsq | apply keep_wsqGoto | apply keep_ite)
    | with_reducible (first | apply And.intro | apply keep_regs | apply keep_sram | apply keep_store | apply keep_buf)
    | with_reducible (first | apply keep_nil) | simp only [↓canonical_mk] | split

theorem keep_execWsqWaitSatisfied (n : Nat) (f : Captures) {s : State} (hs : s.Canonical) :
    OutcomeKeeps (execWsqWaitSatisfied n f s) := keeps_next (keep_wsqWaitSatisfied hs)

theorem keep_wsqCall {n : Nat} {f : Captures} {s : State} (hs : s.Canonical) :
    State.Canonical (wsqCall n f s) := by
  unfold wsqCall
  repeat' first
    | with_reducible assumption | (intro x; refine keep_cut x (fun hx => ?_) ?_; clear_value x; rotate_left; subst x; rotate_left)
    | (intro x; subst x) | intro _ | lift_lets
    | with_reducible (first | apply keep_wsqFault | apply keep_wsqExec | apply keep_onWsq | apply keep_wsqGoto | apply keep_ite)
    | with_reducible (first | apply And.intro | apply keep_regs | apply keep_sram | apply keep_store | apply keep_buf)
    | with_reducible (first | apply keep_nil) | simp only [↓canonical_mk] | split

theorem keep_execWsqCall (n : Nat) (f : Captures) {s : State} (hs : s.Canonical) :
    OutcomeKeeps (execWsqCall n f s) := keeps_next (keep_wsqCall hs)

theorem keep_wsqRet {n : Nat} {f : Captures} {s : State} (hs : s.Canonical) :
    State.Canonical (wsqRet n f s) := by
  unfold wsqRet
  repeat' first
    | with_reducible assumption | (intro x; refine keep_cut x (fun hx => ?_) ?_; clear_value x; rotate_left; subst x; rotate_left)
    | (intro x; subst x) | intro _ | lift_lets
    | with_reducible (first | apply keep_wsqFault | apply keep_wsqExec | apply keep_onWsq | apply keep_wsqGoto | apply keep_ite)
    | with_reducible (first | apply And.intro | apply keep_regs | apply keep_sram | apply keep_store | apply keep_buf)
    | with_reducible (first | apply keep_nil) | simp only [↓canonical_mk] | split

theorem keep_execWsqRet (n : Nat) (f : Captures) {s : State} (hs : s.Canonical) :
    OutcomeKeeps (execWsqRet n f s) := keeps_next (keep_wsqRet hs)

theorem keep_wsqDispatch {n : Nat} {f : Captures} {s : State} (hs : s.Canonical) :
    State.Canonical (wsqDispatch n f s) := by
  unfold wsqDispatch
  repeat' first | with_reducible assumption | intro _ | lift_lets | with_reducible (first | apply keep_wsqExec | apply keep_wsqGoto)

theorem keep_execWsqDispatch (n : Nat) (f : Captures) {s : State} (hs : s.Canonical) :
    OutcomeKeeps (execWsqDispatch n f s) := keeps_next (keep_wsqDispatch hs)

theorem keep_wsqHalt {n : Nat} {f : Captures} {s : State} (hs : s.Canonical) :
    State.Canonical (wsqHalt n f s) := by
  unfold wsqHalt
  repeat' first
    | with_reducible assumption | intro _ | lift_lets | with_reducible (first | apply keep_wsqExec | apply keep_put | apply keep_wsqHalted)

theorem keep_execWsqHalt (n : Nat) (f : Captures) {s : State} (hs : s.Canonical) :
    OutcomeKeeps (execWsqHalt n f s) := keeps_next (keep_wsqHalt hs)

theorem keep_wsqIllegal {n : Nat} {f : Captures} {s : State} (hs : s.Canonical) :
    State.Canonical (wsqIllegal n f s) := by
  unfold wsqIllegal
  repeat' first
    | with_reducible assumption | (intro x; refine keep_cut x (fun hx => ?_) ?_; clear_value x; rotate_left; subst x; rotate_left)
    | (intro x; subst x) | lift_lets | with_reducible (first | apply keep_wsqFault | apply keep_ite) | split

theorem keep_execWsqIllegal (n : Nat) (f : Captures) {s : State} (hs : s.Canonical) :
    OutcomeKeeps (execWsqIllegal n f s) := keeps_next (keep_wsqIllegal hs)

theorem keep_wsqWatchdog {n : Nat} {f : Captures} {s : State} (hs : s.Canonical) :
    State.Canonical (wsqWatchdog n f s) := by
  unfold wsqWatchdog
  repeat' first
    | with_reducible assumption | (intro x; refine keep_cut x (fun hx => ?_) ?_; clear_value x; rotate_left; subst x; rotate_left)
    | (intro x; subst x) | lift_lets
    | with_reducible (first | apply keep_wsqTime | apply keep_wsqCycles | apply keep_wsqForced | apply keep_chSettle | apply keep_ite)
    | split

theorem keep_execWsqWatchdog (n : Nat) (f : Captures) {s : State} (hs : s.Canonical) :
    OutcomeKeeps (execWsqWatchdog n f s) := keeps_next (keep_wsqWatchdog hs)

theorem keep_burstWindowExpiry {n : Nat} {f : Captures} {s : State} (hs : s.Canonical) :
    State.Canonical (burstWindowExpiry n f s) := by
  unfold burstWindowExpiry
  repeat' first
    | with_reducible assumption | (intro x; refine keep_cut x (fun hx => ?_) ?_; clear_value x; rotate_left; subst x; rotate_left)
    | (intro x; subst x) | lift_lets
    | with_reducible (first | apply keep_capture | apply keep_wsqTime | apply keep_wsqCycles | apply keep_chSettle | apply keep_ite)
    | split

theorem keep_execBurstWindowExpiry (n : Nat) (f : Captures) {s : State} (hs : s.Canonical) :
    OutcomeKeeps (execBurstWindowExpiry n f s) := keeps_next (keep_burstWindowExpiry hs)

theorem keep_preampFrameDone {pa1 : Bool} {s : State} (hs : s.Canonical) :
    State.Canonical (preampFrameDone pa1 s) := by
  unfold preampFrameDone
  repeat' first
    | with_reducible assumption | (intro x; refine keep_cut x (fun hx => ?_) ?_; clear_value x; rotate_left; subst x; rotate_left)
    | (intro x; subst x) | intro _ | lift_lets
    | with_reducible (first | apply keep_emit | apply keep_onWsq | apply keep_ite | apply And.intro | apply keep_regs)
    | with_reducible (first | apply keep_sram | apply keep_store | apply keep_buf | apply keep_nil) | simp only [↓canonical_mk] | split

theorem keep_execPreampFrameDone (pa1 : Bool) {s : State} (hs : s.Canonical) :
    OutcomeKeeps (execPreampFrameDone pa1 s) := keeps_next (keep_preampFrameDone hs)

theorem keep_wsqPaqWrite {v : Word} {s : State} (hs : s.Canonical) :
    State.Canonical (wsqPaqWrite v s) := by
  unfold wsqPaqWrite
  repeat' with_reducible first | assumption | apply keep_raiseBit | apply keep_onWsq | apply keep_wsqStat | apply keep_ite

theorem keep_execWsqPaqWrite (m : Master) (v : Word) {s : State} (hs : s.Canonical) :
    OutcomeKeeps (execWsqPaqWrite m v s) := by
  unfold execWsqPaqWrite
  apply keeps_next
  repeat' first
    | with_reducible assumption | (intro x; refine keep_cut x (fun hx => ?_) ?_; clear_value x; rotate_left; subst x; rotate_left)
    | (intro x; subst x) | intro _ | lift_lets | with_reducible (first | apply keep_byCore | apply keep_wsqPaqWrite | apply keep_ite)
    | split

end Sys2Proof.Machine
end

