-- ==== Sys2Proof/Laws/Keep/RegStore.lean ====
section
/-! SUPPORT. That the definitions of Machine/RegStore.lean keep the canonical form (see Laws/Keep.lean). -/

namespace Sys2Proof.Machine

open Sys2Proof

set_option linter.unusedSimpArgs false

theorem keep_plain {m : Master} {a : Nat} {v : Word} {s : State} (hs : s.Canonical) :
    State.Canonical (State.plain m a v s) := by
  unfold State.plain
  repeat' first | with_reducible (first | assumption | apply keep_regWrite | apply keep_ite) | lift_lets | split

theorem keep_clampFld {f : Fld} {lo hi : Nat} {s : State} (hs : s.Canonical) :
    State.Canonical (State.clampFld f lo hi s) := by
  unfold State.clampFld
  repeat' with_reducible first | assumption | apply keep_put

theorem keep_storeGlb {m : Master} {a : Nat} {v : Word} {s : State} (hs : s.Canonical) :
    State.Canonical (storeGlb m a v s) := by
  unfold storeGlb
  repeat' with_reducible first | assumption | apply keep_plain | apply keep_ite

theorem keep_storeAtb {m : Master} {a : Nat} {v : Word} {s : State} (hs : s.Canonical) :
    State.Canonical (storeAtb m a v s) := by
  unfold storeAtb
  repeat' first
    | with_reducible assumption | (intro x; refine keep_cut x (fun hx => ?_) ?_; clear_value x; rotate_left; subst x; rotate_left)
    | (intro x; subst x) | intro _ | lift_lets
    | with_reducible (first | apply keep_atbCtlWrite | apply keep_plain | apply keep_onAtb | apply keep_raiseBit | apply keep_ite)
    | with_reducible (first | apply And.intro | apply keep_regs | apply keep_sram | apply keep_store | apply keep_buf)
    | with_reducible (first | apply keep_nil) | simp only [↓canonical_mk] | split

theorem keep_storeAscCmd {m : Master} {v : Word} {s : State} (hs : s.Canonical) :
    State.Canonical (storeAscCmd m v s) := by
  unfold storeAscCmd
  repeat' first | with_reducible (first | assumption | apply keep_ascArm | apply keep_ascCancel | apply keep_ascRead) | split

theorem keep_storeOrd {m : Master} {a : Nat} {v : Word} {f : BusFacts} {s : State} (hs : s.Canonical) :
    State.Canonical (storeOrd m a v f s) := by
  unfold storeOrd
  repeat' first
    | with_reducible assumption | (intro x; subst x) | lift_lets
    | with_reducible (first | apply keep_ordAck | apply keep_ordRequest | apply keep_ordRespop | apply keep_ordShareWrite)
    | with_reducible (first | apply keep_plain | apply keep_ordSettle | apply keep_ite)

theorem keep_storeAsc {m : Master} {a : Nat} {v : Word} {f : BusFacts} {s : State} (hs : s.Canonical) :
    State.Canonical (storeAsc m a v f s) := by
  unfold storeAsc
  repeat' first
    | with_reducible assumption | (intro x; refine keep_cut x (fun hx => ?_) ?_; clear_value x; rotate_left; subst x; rotate_left)
    | lift_lets | with_reducible (first | apply keep_hwordWrite | apply keep_ascFlush | apply keep_storeAscCmd | apply keep_storeOrd)
    | with_reducible (first | apply keep_plain | apply keep_ite)

theorem keep_storeWsq {m : Master} {a : Nat} {v : Word} {s : State} (hs : s.Canonical) :
    State.Canonical (storeWsq m a v s) := by
  unfold storeWsq
  repeat' with_reducible first | assumption | apply keep_plain | apply keep_clampFld | apply keep_wsqPaqWrite | apply keep_ite

theorem keep_chnCtlWrite {m : Master} {v : Word} {s : State} (hs : s.Canonical) :
    State.Canonical (chnCtlWrite m v s) := by
  unfold chnCtlWrite
  repeat' first
    | with_reducible assumption | (intro x; refine keep_cut x (fun hx => ?_) ?_; clear_value x; rotate_left; subst x; rotate_left)
    | lift_lets | with_reducible (first | apply keep_plain | apply keep_clampFld)

theorem keep_chnCmdWrite {v : Word} {s : State} (hs : s.Canonical) :
    State.Canonical (chnCmdWrite v s) := by
  unfold chnCmdWrite
  repeat' first
    | with_reducible assumption | (intro x; refine keep_cut x (fun hx => ?_) ?_; clear_value x; rotate_left; subst x; rotate_left)
    | lift_lets | with_reducible (first | apply keep_popdone | apply keep_popfail | apply keep_redec | apply keep_release | apply keep_ite)

theorem keep_mopWordWrite {m : Master} {t w : Nat} {v : Word} {s : State} (hs : s.Canonical) :
    State.Canonical (mopWordWrite m t w v s) := by
  unfold mopWordWrite
  repeat' first
    | with_reducible assumption | (intro x; refine keep_cut x (fun hx => ?_) ?_; clear_value x; rotate_left; subst x; rotate_left)
    | (intro x; subst x) | lift_lets
    | with_reducible (first | apply keep_f_mopCommit | apply keep_mopCommit | apply keep_raiseBit | apply keep_plain | apply keep_clampFld)
    | with_reducible (first | apply keep_ite) | split

theorem keep_storeChn {m : Master} {a : Nat} {v : Word} {s : State} (hs : s.Canonical) :
    State.Canonical (storeChn m a v s) := by
  unfold storeChn
  repeat' first
    | with_reducible assumption | (intro x; subst x) | lift_lets
    | with_reducible (first | apply keep_chnCtlWrite | apply keep_plain | apply keep_clampFld | apply keep_chnCmdWrite)
    | with_reducible (first | apply keep_chSettle | apply keep_headContextWrite | apply keep_mopWordWrite | apply keep_ite)

theorem keep_storeSrv {m : Master} {a : Nat} {v : Word} {f : BusFacts} {s : State} (hs : s.Canonical) :
    State.Canonical (storeSrv m a v f s) := by
  unfold storeSrv
  repeat' with_reducible first | assumption | apply keep_srvModeWrite | apply keep_servoCommit | apply keep_plain | apply keep_ite

theorem keep_flnkCfgWrite {m : Master} {v : Word} {s : State} (hs : s.Canonical) :
    State.Canonical (flnkCfgWrite m v s) := by
  unfold flnkCfgWrite
  repeat' first
    | with_reducible assumption | (intro x; refine keep_cut x (fun hx => ?_) ?_; clear_value x; rotate_left; subst x; rotate_left)
    | lift_lets | with_reducible (first | apply keep_plain | apply keep_clampFld | apply keep_flnkSend)

theorem keep_flnkPortWrite {v : Word} {s : State} (hs : s.Canonical) :
    State.Canonical (flnkPortWrite v s) := by
  unfold flnkPortWrite
  repeat' with_reducible first | assumption | apply keep_raiseBit | apply keep_flnkSend | apply keep_ite

theorem keep_storeFlnk {m : Master} {a : Nat} {v : Word} {s : State} (hs : s.Canonical) :
    State.Canonical (storeFlnk m a v s) := by
  unfold storeFlnk
  repeat' first
    | with_reducible assumption | (intro x; refine keep_cut x (fun hx => ?_) ?_; clear_value x; rotate_left; subst x; rotate_left)
    | (intro x; subst x) | lift_lets
    | with_reducible (first | apply keep_plain | apply keep_flnkSend | apply keep_flnkCfgWrite | apply keep_flnkPortWrite)
    | with_reducible apply keep_ite

theorem keep_firnCtlWrite {m : Master} {v : Word} {s : State} (hs : s.Canonical) :
    State.Canonical (firnCtlWrite m v s) := by
  unfold firnCtlWrite
  repeat' first
    | with_reducible assumption | (intro x; refine keep_cut x (fun hx => ?_) ?_; clear_value x; rotate_left; subst x; rotate_left)
    | lift_lets | with_reducible (first | apply keep_put | apply keep_partitionLock | apply keep_ite)

theorem keep_firnLcmd {m : Master} {v : Word} {s : State} (hs : s.Canonical) :
    State.Canonical (firnLcmd m v s) := by
  unfold firnLcmd
  repeat' first | with_reducible (first | assumption | apply keep_lookCmd | apply keep_addrCmd) | split

theorem keep_firnScmd {m : Master} {v : Word} {s : State} (hs : s.Canonical) :
    State.Canonical (firnScmd m v s) := by
  unfold firnScmd
  repeat' first
    | with_reducible (first | assumption | apply keep_firnCommitCmd | apply keep_fillCmd | apply keep_abortCmd)
    | with_reducible (first | apply keep_unpinCmd | apply keep_maintCmd) | split

theorem keep_firnMcmd {m : Master} {v : Word} {s : State} (hs : s.Canonical) :
    State.Canonical (firnMcmd m v s) := by
  unfold firnMcmd
  repeat' first
    | with_reducible assumption | (intro x; subst x) | lift_lets
    | with_reducible (first | apply keep_metaLookup | apply keep_metaAlloc | apply keep_metaEntCmd) | split

theorem keep_firnCcmd {m : Master} {v : Word} {s : State} (hs : s.Canonical) :
    State.Canonical (firnCcmd m v s) := by
  unfold firnCcmd
  repeat' first
    | with_reducible (first | assumption | apply keep_corniceAlloc | apply keep_corniceRelease | apply keep_corniceStatus) | split

theorem keep_quotaWrite {m : Master} {a : Nat} {v : Word} {s : State} (hs : s.Canonical) :
    State.Canonical (quotaWrite m a v s) := by
  unfold quotaWrite
  repeat' with_reducible first | assumption | apply keep_put | apply keep_ite

theorem keep_storeFirn {m : Master} {a : Nat} {v : Word} {s : State} (hs : s.Canonical) :
    State.Canonical (storeFirn m a v s) := by
  unfold storeFirn
  repeat' first
    | with_reducible assumption | (intro x; subst x) | lift_lets
    | with_reducible (first | apply keep_firnCtlWrite | apply keep_quotaWrite | apply keep_partitionWrite | apply keep_rangeCmd)
    | with_reducible (first | apply keep_plain | apply keep_onFirn | apply keep_wbdoneCmd | apply keep_firnLcmd)
    | with_reducible (first | apply keep_firnScmd | apply keep_firnMcmd | apply keep_firnCcmd | apply keep_ite)

theorem keep_storeRme {m : Master} {a : Nat} {v : Word} {f : BusFacts} {s : State} (hs : s.Canonical) :
    State.Canonical (storeRme m a v f s) := by
  unfold storeRme
  repeat' first
    | with_reducible assumption | (intro x; refine keep_cut x (fun hx => ?_) ?_; clear_value x; rotate_left; subst x; rotate_left)
    | (intro x; subst x) | lift_lets
    | with_reducible (first | apply keep_wlock | apply keep_raiseBit | apply keep_rmeTake | apply keep_shadowRead)
    | with_reducible (first | apply keep_plain | apply keep_ite) | split

theorem keep_dmaCtlWrite {v : Word} {s : State} (hs : s.Canonical) :
    State.Canonical (dmaCtlWrite v s) := by
  unfold dmaCtlWrite
  repeat' first
    | with_reducible assumption | (intro x; refine keep_cut x (fun hx => ?_) ?_; clear_value x; rotate_left; subst x; rotate_left)
    | lift_lets | with_reducible (first | apply keep_put | apply keep_cfglock | apply keep_ite)

theorem keep_storeDma {m : Master} {a : Nat} {v : Word} {s : State} (hs : s.Canonical) :
    State.Canonical (storeDma m a v s) := by
  unfold storeDma
  repeat' first
    | with_reducible assumption | (intro x; subst x) | lift_lets
    | with_reducible (first | apply keep_dmaCtlWrite | apply keep_mdbaseWrite | apply keep_chcfgWrite | apply keep_chstart)
    | with_reducible (first | apply keep_channelAbort | apply keep_plain | apply keep_ite) | split

theorem keep_storeUqi {m : Master} {a : Nat} {v : Word} {s : State} (hs : s.Canonical) :
    State.Canonical (storeUqi m a v s) := by
  unfold storeUqi
  repeat' first
    | with_reducible assumption | (intro x; subst x) | lift_lets
    | with_reducible (first | apply keep_plain | apply keep_uqiDqpop | apply keep_uqiCpost | apply keep_uqiXcmd)
    | with_reducible (first | apply keep_uqiXpop | apply keep_rpartyWrite | apply keep_pcfgWrite | apply keep_ite)

theorem keep_storeMgt {m : Master} {a : Nat} {v : Word} {s : State} (hs : s.Canonical) :
    State.Canonical (storeMgt m a v s) := by
  unfold storeMgt
  repeat' first
    | with_reducible assumption | (intro x; subst x) | lift_lets
    | with_reducible (first | apply keep_mgtTake | apply keep_mgtDone | apply keep_wr | apply keep_onMgt | apply keep_put)
    | with_reducible (first | apply keep_mrxPop | apply keep_mtxSend | apply keep_isoLock | apply keep_plain | apply keep_ite)

theorem keep_storeSst {m : Master} {a : Nat} {v : Word} {s : State} (hs : s.Canonical) :
    State.Canonical (storeSst m a v s) := by
  unfold storeSst
  repeat' first
    | with_reducible assumption | (intro x; subst x) | lift_lets
    | with_reducible (first | apply keep_coreRelease | apply keep_keyLock | apply keep_derive | apply keep_keyClear)
    | with_reducible (first | apply keep_f_sign | apply keep_wr | apply keep_plain | apply keep_programKeyhash)
    | with_reducible (first | apply keep_setProduction | apply keep_programTargetRpm | apply keep_ite) | split

theorem keep_storeMor {m : Master} {a : Nat} {v : Word} {f : BusFacts} {s : State} (hs : s.Canonical) :
    State.Canonical (storeMor m a v f s) := by
  unfold storeMor
  repeat' first
    | with_reducible assumption | (intro x; refine keep_cut x (fun hx => ?_) ?_; clear_value x; rotate_left; subst x; rotate_left)
    | (intro x; subst x) | lift_lets
    | with_reducible (first | apply keep_put | apply keep_sealBatch | apply keep_fwEventSubmit | apply keep_morReadGo | apply keep_plain)
    | with_reducible (first | apply keep_ite) | split

theorem keep_storeSto {m : Master} {a : Nat} {v : Word} {s : State} (hs : s.Canonical) :
    State.Canonical (storeSto m a v s) := by
  unfold storeSto
  repeat' first
    | with_reducible (first | assumption | apply keep_wprotWrite | apply keep_put | apply keep_markBad | apply keep_plain)
    | with_reducible apply keep_ite

theorem keep_storePcm {m : Master} {a : Nat} {v : Word} {f : BusFacts} {s : State} (hs : s.Canonical) :
    State.Canonical (storePcm m a v f s) := by
  unfold storePcm
  repeat' first
    | with_reducible (first | assumption | apply keep_modeReqFlow | apply keep_modeReqDrift | apply keep_modeReqDormant)
    | with_reducible (first | apply keep_modeReqRetreat | apply keep_modeReqReboot | apply keep_raiseBit | apply keep_put)
    | with_reducible (first | apply keep_plain | apply keep_ite) | lift_lets | split

theorem keep_pmxPinWrite {n : Nat} {v : Word} {s : State} (hs : s.Canonical) :
    State.Canonical (pmxPinWrite n v s) := by
  unfold pmxPinWrite
  repeat' first | with_reducible assumption | (intro x; subst x) | lift_lets | with_reducible apply keep_regWrite

theorem keep_storePmx {m : Master} {a : Nat} {v : Word} {s : State} (hs : s.Canonical) :
    State.Canonical (storePmx m a v s) := by
  unfold storePmx
  repeat' first
    | with_reducible assumption | (intro x; refine keep_cut x (fun hx => ?_) ?_; clear_value x; rotate_left; subst x; rotate_left)
    | lift_lets | with_reducible (first | apply keep_pmxCommit | apply keep_pmxPinWrite | apply keep_plain | apply keep_clampFld)
    | with_reducible (first | apply keep_uartPop | apply keep_uartKick | apply keep_uartTxWrite | apply keep_ite)

theorem keep_storeDrp {m : Master} {a : Nat} {v : Word} {s : State} (hs : s.Canonical) :
    State.Canonical (storeDrp m a v s) := by
  unfold storeDrp
  repeat' first
    | with_reducible assumption | (intro x; refine keep_cut x (fun hx => ?_) ?_; clear_value x; rotate_left; subst x; rotate_left)
    | (intro x; subst x) | lift_lets | with_reducible (first | apply keep_plain | apply keep_clampFld | apply keep_ite)

theorem keep_regStore {m : Master} {a : Nat} {v : Word} {f : BusFacts} {s : State} (hs : s.Canonical) :
    State.Canonical (State.regStore m a v f s) := by
  unfold State.regStore
  repeat' first
    | with_reducible (first | assumption | apply keep_storeGlb | apply keep_storeAtb | apply keep_storeAsc | apply keep_storeWsq)
    | with_reducible (first | apply keep_storeChn | apply keep_storeSrv | apply keep_storeFlnk | apply keep_storeFirn)
    | with_reducible (first | apply keep_storeRme | apply keep_storeDma | apply keep_storeUqi | apply keep_storeMgt)
    | with_reducible (first | apply keep_storeSst | apply keep_storeMor | apply keep_storeSto | apply keep_storePcm)
    | with_reducible (first | apply keep_storePmx | apply keep_storeDrp) | split

end Sys2Proof.Machine
end

