-- ==== Sys2Proof/Laws/Keep/Views.lean ====
section
/-! SUPPORT. That the definitions of Machine/Views.lean keep the canonical form (see Laws/Keep.lean). -/

namespace Sys2Proof.Machine

open Sys2Proof

set_option linter.unusedSimpArgs false

theorem keep_rcClear {s : State} {k : Nat} {r : RegDesc} (hs : s.Canonical) :
    State.Canonical (State.rcClear s k r) := by
  unfold State.rcClear
  repeat' with_reducible first | assumption | apply keep_wr

theorem keep_latchHigh {s : State} {m : Master} {a : Nat} (hs : s.Canonical) :
    State.Canonical (State.latchHigh s m a) := by
  unfold State.latchHigh
  repeat' first
    | with_reducible assumption | (intro x; refine keep_cut x (fun hx => ?_) ?_; clear_value x; rotate_left; subst x; rotate_left)
    | (intro x; subst x) | lift_lets | with_reducible (first | apply keep_wr | apply keep_ite) | split

theorem keep_regRead {s : State} {m : Master} {a ext : Nat} (hs : s.Canonical) :
    State.Canonical (State.regRead s m a ext).2 := by
  unfold State.regRead
  repeat' first
    | with_reducible assumption | (intro x; refine keep_cut x (fun hx => ?_) ?_; clear_value x; rotate_left; subst x; rotate_left)
    | (intro x; subst x) | intro _ | lift_lets | with_reducible (first | apply keep_rcClear | apply keep_latchHigh | apply keep_ite)
    | split

end Sys2Proof.Machine
end

