-- ==== Sys2Proof/Laws/Keep/Bus.lean ====
section
/-! SUPPORT. That the definitions of Machine/Bus.lean keep the canonical form (see Laws/Keep.lean). -/

namespace Sys2Proof.Machine

open Sys2Proof

set_option linter.unusedSimpArgs false

theorem keep_refuse {s : State} {m : Master} {kind : AccKind} {a why : Nat} (hs : s.Canonical) :
    State.Canonical (State.refuse s m kind a why) := by
  unfold State.refuse
  repeat' first
    | with_reducible assumption | (intro x; refine keep_cut x (fun hx => ?_) ?_; clear_value x; rotate_left; subst x; rotate_left)
    | lift_lets | with_reducible (first | apply keep_wr | apply keep_inc | apply keep_emit)

theorem keep_bufferEcc {s : State} {m : Master} {a : Nat} {ecc : BitVec 2} (hs : s.Canonical) :
    State.Canonical (State.bufferEcc s m a ecc) := by
  unfold State.bufferEcc
  repeat' with_reducible first | assumption | apply keep_bufferCE | apply keep_bufferUE | apply keep_ite

theorem keep_busLoad {s : State} {m : Master} {r : Region} {a width : Nat} {f : BusFacts} (hs : s.Canonical) :
    State.Canonical (State.busLoad s m r a width f).2 := by
  unfold State.busLoad
  repeat' first
    | with_reducible assumption | (intro x; refine keep_cut x (fun hx => ?_) ?_; clear_value x; rotate_left; subst x; rotate_left)
    | (intro x; subst x) | intro _ | lift_lets
    | with_reducible (first | apply keep_arrayRead | apply keep_regRead | apply keep_bufferEcc | apply keep_draw | apply keep_ite)
    | with_reducible (first | apply And.intro | apply keep_regs | apply keep_sram | apply keep_store | apply keep_buf)
    | with_reducible (first | apply keep_nil) | simp only [↓canonical_mk] | dsimp -zeta only [State.draw] | split

theorem keep_busStore {s : State} {m : Master} {r : Region} {a width v : Nat} {f : BusFacts} (hs : s.Canonical) :
    State.Canonical (State.busStore s m r a width v f) := by
  unfold State.busStore
  repeat' first
    | with_reducible (first | assumption | apply keep_sramWrite | apply keep_storeFaults | apply keep_arrayStore)
    | with_reducible (first | apply keep_windowStore | apply keep_regStore | apply keep_bufferEcc | apply keep_bufWrite)
    | with_reducible apply keep_ite | lift_lets | split

theorem keep_coreStore {s : State} {m : Master} {r : Region} {a width v : Nat} {f : BusFacts} (hs : s.Canonical) :
    State.Canonical (State.coreStore s m r a width v f) := by
  unfold State.coreStore
  repeat' first
    | with_reducible assumption | (intro x; refine keep_cut x (fun hx => ?_) ?_; clear_value x; rotate_left; subst x; rotate_left)
    | (intro x; subst x) | lift_lets | with_reducible (first | apply keep_busStore | apply keep_stall | apply keep_hold | apply keep_ite)
    | split

theorem keep_coreLoad {s : State} {m : Master} {r : Region} {a width : Nat} {f : BusFacts} (hs : s.Canonical) :
    State.Canonical (State.coreLoad s m r a width f) := by
  unfold State.coreLoad
  repeat' first
    | with_reducible assumption | (intro x; refine keep_cut x (fun hx => ?_) ?_; clear_value x; rotate_left; subst x; rotate_left)
    | (intro x; subst x) | lift_lets | with_reducible (first | apply keep_stall | apply keep_busLoad | apply keep_emit | apply keep_ite)
    | split

theorem keep_coreAccess {m : Master} {kind : AccKind} {a : Word} {width : Nat} {v : Word} {f : BusFacts} {s : State} (hs :
      s.Canonical) :
    State.Canonical (coreAccess m kind a width v f s) := by
  unfold coreAccess
  repeat' first
    | with_reducible assumption | (intro x; refine keep_cut x (fun hx => ?_) ?_; clear_value x; rotate_left; subst x; rotate_left)
    | (intro x; subst x) | lift_lets
    | with_reducible (first | apply keep_emit | apply keep_refuse | apply keep_stall | apply keep_coreStore | apply keep_coreLoad)
    | with_reducible (first | apply keep_ite) | split

theorem keep_execCoreAccess (m : Master) (kind : AccKind) (a : Word) (width : Nat) (v : Word) (f : BusFacts) {s : State} (hs : s.Canonical) :
    OutcomeKeeps (execCoreAccess m kind a width v f s) := keeps_next (keep_coreAccess hs)

theorem keep_execRegisterWrite (m : Master) (a : Word) (v : Word) (f : BusFacts) {s : State} (hs : s.Canonical) :
    OutcomeKeeps (execRegisterWrite m a v f s) := by
  unfold execRegisterWrite
  apply keeps_next
  repeat' with_reducible first | assumption | apply keep_coreAccess | apply keep_ite

theorem keep_execRcRead (m : Master) (a : Word) {s : State} (hs : s.Canonical) :
    OutcomeKeeps (execRcRead m a s) := by
  unfold execRcRead
  apply keeps_next
  repeat' with_reducible first | assumption | apply keep_coreAccess | apply keep_ite

theorem keep_execRlRead (m : Master) (a : Word) {s : State} (hs : s.Canonical) :
    OutcomeKeeps (execRlRead m a s) := by
  unfold execRlRead
  apply keeps_next
  repeat' with_reducible first | assumption | apply keep_coreAccess | apply keep_ite

theorem keep_drainAll {m : Master} {a0 : List HeldStore} {a1 : List BusFacts} {a2 : State} (h : a2.Canonical) :
    State.Canonical (State.drainAll m a0 a1 a2) := by
  induction a0 generalizing a1 a2 with
  | nil =>
    unfold State.drainAll
    repeat' with_reducible first | assumption
  | cons x l ih =>
    unfold State.drainAll
    repeat' first
      | with_reducible assumption | (intro x; refine keep_cut x (fun hx => ?_) ?_; clear_value x; rotate_left; subst x; rotate_left)
      | lift_lets | with_reducible (first | apply ih | apply keep_busStore) | split

theorem keep_hsqDrainEnd {c : BitVec 2} {facts : List BusFacts} {s : State} (hs : s.Canonical) :
    State.Canonical (hsqDrainEnd c facts s) := by
  unfold hsqDrainEnd
  repeat' first
    | with_reducible assumption | (intro x; refine keep_cut x (fun hx => ?_) ?_; clear_value x; rotate_left; subst x; rotate_left)
    | (intro x; subst x) | lift_lets
    | with_reducible (first | apply keep_drainAll | apply keep_setHsq | apply keep_clr | apply keep_clrIn | apply keep_ite)

theorem keep_execHsqDrainEnd (c : BitVec 2) (facts : List BusFacts) {s : State} (hs : s.Canonical) :
    OutcomeKeeps (execHsqDrainEnd c facts s) := keeps_next (keep_hsqDrainEnd hs)

theorem keep_bar0Write {s : State} {q o : Nat} {v : Word} (hs : s.Canonical) :
    State.Canonical (State.bar0Write s q o v) := by
  unfold State.bar0Write
  repeat' first
    | with_reducible assumption | (intro x; subst x) | lift_lets
    | with_reducible (first | apply keep_hmwctl | apply keep_regWrite | apply keep_sqControl | apply keep_sqSetup)
    | with_reducible (first | apply keep_cqControl | apply keep_cqSetup | apply keep_dbpWrite | apply keep_put)
    | with_reducible (first | apply keep_msixWord | apply keep_dbRequest | apply keep_ite)

theorem keep_bar0Writes {q : Nat} {a0 : Nat} {a1 : List HostDw} {a2 : State} (h : a2.Canonical) :
    State.Canonical (State.bar0Writes q a0 a1 a2) := by
  induction a1 generalizing a0 a2 with
  | nil =>
    unfold State.bar0Writes
    repeat' with_reducible first | assumption
  | cons x l ih =>
    unfold State.bar0Writes
    repeat' with_reducible first | assumption | apply ih | apply keep_bar0Write | apply keep_inc | apply keep_ite

theorem keep_hostBar0Request {q : BitVec 1} {write : Bool} {o : BitVec 14} {dws : List HostDw} {s : State} (hs : s.Canonical) :
    State.Canonical (hostBar0Request q write o dws s) := by
  unfold hostBar0Request
  repeat' first
    | with_reducible assumption | (intro x; subst x) | lift_lets
    | with_reducible (first | apply keep_inc | apply keep_emit | apply keep_bar0Writes | apply keep_ite)

theorem keep_execHostBar0Request (q : BitVec 1) (write : Bool) (o : BitVec 14) (dws : List HostDw) {s : State} (hs : s.Canonical) :
    OutcomeKeeps (execHostBar0Request q write o dws s) := keeps_next (keep_hostBar0Request hs)

end Sys2Proof.Machine
end

