-- ==== Sys2Proof/Laws/Keep/CmdOps.lean ====
section
/-! SUPPORT. That the definitions of Machine/CmdOps.lean keep the canonical form (see Laws/Keep.lean). -/

namespace Sys2Proof.Machine

open Sys2Proof

set_option linter.unusedSimpArgs false

theorem keep_setFw {s : State} {i : Nat} {k : Cmd} {f : FwWork} (hs : s.Canonical) :
    State.Canonical (State.setFw s i k f) := by
  unfold State.setFw
  repeat' with_reducible first | assumption | apply keep_setCmd

theorem keep_fwEnd {s : State} {i : Nat} {k : Cmd} {status ed spec : Nat} (hs : s.Canonical) :
    State.Canonical (State.fwEnd s i k status ed spec) := by
  unfold State.fwEnd
  repeat' first
    | with_reducible assumption | (intro x; refine keep_cut x (fun hx => ?_) ?_; clear_value x; rotate_left; subst x; rotate_left)
    | (intro x; subst x) | lift_lets | with_reducible (first | apply keep_commitCpl | apply keep_uqiRun | apply keep_ite) | split

theorem keep_zeroSectors {s : State} {key : Nat} {l : List Nat} (hs : s.Canonical) :
    State.Canonical (State.zeroSectors s key l) := by
  unfold State.zeroSectors
  repeat' first
    | with_reducible assumption | (intro x; refine keep_cut x (fun hx => ?_) ?_; clear_value x; rotate_left; subst x; rotate_left)
    | (intro x; subst x) | intro _ | lift_lets | with_reducible (first | apply keep_each | apply keep_bufZero | apply keep_setSide)

theorem keep_unzero {s : State} {p x n : Nat} (hs : s.Canonical) :
    State.Canonical (State.unzero s p x n) := by
  unfold State.unzero
  repeat' first
    | with_reducible assumption | (intro x; refine keep_cut x (fun hx => ?_) ?_; clear_value x; rotate_left; subst x; rotate_left)
    | (intro x; subst x) | intro _ | lift_lets
    | with_reducible (first | apply keep_onUqi | apply keep_ite | apply And.intro | apply keep_regs | apply keep_sram)
    | with_reducible (first | apply keep_store | apply keep_buf | apply keep_nil) | simp only [↓canonical_mk] | split

theorem keep_cleanParty {s : State} {p : Nat} (hs : s.Canonical) :
    State.Canonical (State.cleanParty s p) := by
  unfold State.cleanParty
  repeat' first
    | with_reducible assumption | intro _ | lift_lets | with_reducible (first | apply keep_each | apply keep_maintTag | apply keep_ite)
    | split

theorem keep_fwFill {s : State} {i : Nat} {k : Cmd} {u x n : Nat} {errs : List RmeErr} (hs : s.Canonical) :
    State.Canonical (State.fwFill s i k u x n errs) := by
  unfold State.fwFill
  repeat' first
    | with_reducible assumption | (intro x; refine keep_cut x (fun hx => ?_) ?_; clear_value x; rotate_left; subst x; rotate_left)
    | (intro x; subst x) | lift_lets
    | with_reducible (first | apply keep_firnLookup | apply keep_cleanParty | apply keep_zeroSectors | apply keep_firnFill)
    | with_reducible (first | apply keep_setFw | apply keep_ordAccept | apply keep_ite) | split

theorem keep_fwMedia {s : State} {i : Nat} {k : Cmd} (hs : s.Canonical) :
    State.Canonical (State.fwMedia s i k) := by
  unfold State.fwMedia
  repeat' first
    | with_reducible assumption | (intro x; refine keep_cut x (fun hx => ?_) ?_; clear_value x; rotate_left; subst x; rotate_left)
    | (intro x; subst x) | intro _ | lift_lets
    | with_reducible (first | apply keep_onOrd | apply keep_putB | apply keep_firnFill | apply keep_zeroSectors | apply keep_firnAbort)
    | with_reducible (first | apply keep_setFw | apply keep_fwEnd | apply keep_getD | apply keep_ite | apply And.intro)
    | with_reducible (first | apply keep_regs | apply keep_sram | apply keep_store | apply keep_buf | apply keep_nil)
    | simp only [↓canonical_mk] | split

theorem keep_fwMove {s u : State} {i : Nat} {k : Cmd} {f : FwWork} {out : Bool} {a off n : Nat}
    (h : State.fwMove s i k f out a off n = some u) (hs : s.Canonical) : u.Canonical := by
  unfold State.fwMove at h
  dsimp only at h
  split at h
  · cases h
  · split at h
    · cases h
    · cases h
      exact keep_uqiRun (keep_onUqi (keep_setFw hs))

theorem keep_fwResult {s : State} {k : Cmd} {x : XRes × State}
    (h : State.fwResult s k = some x) (hs : s.Canonical) : x.2.Canonical := by
  simp only [State.fwResult, Option.map_eq_some_iff] at h
  obtain ⟨r, -, rfl⟩ := h
  exact keep_onUqi hs

theorem keep_fwStop {s : State} {i : Nat} {k : Cmd} (hs : s.Canonical) :
    State.Canonical (State.fwStop s i k) := by
  unfold State.fwStop
  repeat' first | with_reducible assumption | (intro x; subst x) | lift_lets | with_reducible apply keep_fwEnd

theorem keep_readChunk {s : State} {i : Nat} {k : Cmd} {errs : List RmeErr} (hs : s.Canonical) :
    State.Canonical (State.readChunk s i k errs) := by
  unfold State.readChunk
  repeat' first
    | with_reducible assumption | (intro x; subst x) | intro _ | lift_lets
    | with_reducible (first | apply keep_fwEnd | apply keep_maintAddr | apply keep_fwFill | apply keep_firnLookup)
    | with_reducible (first | apply keep_getD | apply keep_ite) | refine keep_fwMove (by with_reducible assumption) ?_
    | (rcases chunkAt s k k.fw.pos with _ | ⟨x, n⟩ <;> dsimp -zeta only) | split

theorem keep_readMoved {s : State} {i : Nat} {k : Cmd} (hs : s.Canonical) :
    State.Canonical (State.readMoved s i k) := by
  unfold State.readMoved
  repeat' first
    | with_reducible assumption | (intro x; refine keep_cut x (fun hx => ?_) ?_; clear_value x; rotate_left; subst x; rotate_left)
    | (intro x; subst x) | lift_lets | with_reducible (first | apply keep_unpinTag | apply keep_setFw | apply keep_fwEnd | apply keep_ite)
    | refine keep_fwResult (by with_reducible assumption) ?_ | split

theorem keep_readStep {s : State} {i : Nat} {k : Cmd} {errs : List RmeErr} (hs : s.Canonical) :
    State.Canonical (State.readStep s i k errs) := by
  unfold State.readStep
  repeat' first
    | with_reducible (first | assumption | apply keep_fwMedia | apply keep_readMoved | apply keep_fwStop | apply keep_fwEnd)
    | with_reducible (first | apply keep_readChunk | apply keep_ite)

theorem keep_fwCommit {s : State} {i : Nat} {k : Cmd} {f : FwWork} {whole : Bool} (hs : s.Canonical) :
    State.Canonical (State.fwCommit s i k f whole) := by
  unfold State.fwCommit
  repeat' first
    | with_reducible assumption | (intro x; refine keep_cut x (fun hx => ?_) ?_; clear_value x; rotate_left; subst x; rotate_left)
    | (intro x; subst x) | lift_lets
    | with_reducible (first | apply keep_firnCommit | apply keep_setFw | apply keep_unzero | apply keep_maintTag | apply keep_ite)
    | with_reducible (first | apply And.intro | apply keep_regs | apply keep_sram | apply keep_store | apply keep_buf)
    | with_reducible (first | apply keep_nil) | simp only [↓canonical_mk] | split

theorem keep_writeChunk {s : State} {i : Nat} {k : Cmd} {zero : Bool} {x n : Nat} {errs : List RmeErr} (hs : s.Canonical) :
    State.Canonical (State.writeChunk s i k zero x n errs) := by
  unfold State.writeChunk
  repeat' first
    | with_reducible assumption | (intro x; refine keep_cut x (fun hx => ?_) ?_; clear_value x; rotate_left; subst x; rotate_left)
    | (intro x; subst x) | intro _ | lift_lets
    | with_reducible (first | apply keep_fwFill | apply keep_maintTag | apply keep_firnLookup | apply keep_cleanParty)
    | with_reducible (first | apply keep_zeroSectors | apply keep_rangeWrite | apply keep_unpinTag | apply keep_fwCommit)
    | with_reducible (first | apply keep_getD | apply keep_ite) | refine keep_fwMove (by with_reducible assumption) ?_ | split

theorem keep_writeMoved {s : State} {i : Nat} {k : Cmd} (hs : s.Canonical) :
    State.Canonical (State.writeMoved s i k) := by
  unfold State.writeMoved
  repeat' first
    | with_reducible assumption | (intro x; refine keep_cut x (fun hx => ?_) ?_; clear_value x; rotate_left; subst x; rotate_left)
    | (intro x; subst x) | lift_lets
    | with_reducible (first | apply keep_unpinTag | apply keep_fwCommit | apply keep_firnAbort | apply keep_maintTag | apply keep_fwEnd)
    | with_reducible (first | apply keep_setFw | apply keep_ite | apply And.intro | apply keep_regs | apply keep_sram)
    | with_reducible (first | apply keep_store | apply keep_buf | apply keep_nil)
    | (first | refine keep_fwResult (by with_reducible assumption) ?_) | simp only [↓canonical_mk] | split

theorem keep_fuaStep {s : State} {i : Nat} {k : Cmd} {giveUp : Bool} (hs : s.Canonical) :
    State.Canonical (State.fuaStep s i k giveUp) := by
  unfold State.fuaStep
  repeat' first
    | with_reducible assumption | (intro x; subst x) | lift_lets
    | with_reducible (first | apply keep_fwEnd | apply keep_setFw | apply keep_maintTag | apply keep_ite) | split

theorem keep_writeStep {s : State} {i : Nat} {k : Cmd} {zero giveUp : Bool} {errs : List RmeErr} (hs : s.Canonical) :
    State.Canonical (State.writeStep s i k zero giveUp errs) := by
  unfold State.writeStep
  repeat' first
    | with_reducible (first | assumption | apply keep_fwMedia | apply keep_writeMoved | apply keep_fwStop | apply keep_fwEnd)
    | with_reducible (first | apply keep_writeChunk | apply keep_fuaStep | apply keep_ite) | lift_lets | split

theorem keep_deallocStep {s : State} {i : Nat} {k : Cmd} {errs : List RmeErr} (hs : s.Canonical) :
    State.Canonical (State.deallocStep s i k errs) := by
  unfold State.deallocStep
  repeat' first
    | with_reducible assumption | (intro x; subst x) | lift_lets
    | with_reducible (first | apply keep_fwMedia | apply keep_fwStop | apply keep_fwEnd | apply keep_writeChunk)
    | with_reducible (first | apply keep_maintAddr | apply keep_unzero | apply keep_onUqi | apply keep_setFw | apply keep_ite)
    | simp only [↓canonical_mk] | split

theorem keep_flushZero {s : State} {p x : Nat} (hs : s.Canonical) :
    State.Canonical (State.flushZero s p x) := by
  unfold State.flushZero
  repeat' first
    | with_reducible assumption | (intro x; refine keep_cut x (fun hx => ?_) ?_; clear_value x; rotate_left; subst x; rotate_left)
    | (intro x; subst x) | lift_lets
    | with_reducible (first | apply keep_firnLookup | apply keep_cleanParty | apply keep_zeroSectors | apply keep_firnCommit)
    | with_reducible (first | apply keep_unzero | apply keep_ite) | split

theorem keep_flushStep {s : State} {i : Nat} {k : Cmd} {giveUp : Bool} (hs : s.Canonical) :
    State.Canonical (State.flushStep s i k giveUp) := by
  unfold State.flushStep
  repeat' first
    | with_reducible assumption | (intro x; refine keep_cut x (fun hx => ?_) ?_; clear_value x; rotate_left; subst x; rotate_left)
    | (intro x; subst x) | intro _ | lift_lets
    | with_reducible (first | apply keep_fwEnd | apply keep_setFw | apply keep_each | apply keep_maintTag | apply keep_flushZero)
    | with_reducible apply keep_ite | split

theorem keep_abortStep {s : State} {i : Nat} {k : Cmd} (hs : s.Canonical) :
    State.Canonical (State.abortStep s i k) := by
  unfold State.abortStep
  repeat' first
    | with_reducible assumption | (intro x; refine keep_cut x (fun hx => ?_) ?_; clear_value x; rotate_left; subst x; rotate_left)
    | (intro x; subst x) | lift_lets | with_reducible (first | apply keep_fwEnd | apply keep_setFw | apply keep_ite) | split

theorem keep_fwSend {s : State} {i : Nat} {k : Cmd} {buf : Nat} {bs : List Byte} (hs : s.Canonical) :
    State.Canonical (State.fwSend s i k buf bs) := by
  unfold State.fwSend
  repeat' first
    | with_reducible assumption | intro _ | lift_lets | with_reducible (first | apply keep_bufWrite | apply keep_getD | apply keep_ite)
    | refine keep_fwMove (by with_reducible assumption) ?_

theorem keep_sendMoved {s : State} {i : Nat} {k : Cmd} {spec : Nat} (hs : s.Canonical) :
    State.Canonical (State.sendMoved s i k spec) := by
  unfold State.sendMoved
  repeat' first
    | with_reducible assumption | (intro x; subst x) | lift_lets
    | with_reducible (first | apply keep_fwEnd | apply keep_setFw | apply keep_ite)
    | refine keep_fwResult (by with_reducible assumption) ?_ | split

end Sys2Proof.Machine
end

