-- ==== Sys2Proof/Laws/Keep/Cmd.lean ====
section
/-! SUPPORT. That the definitions of Machine/Cmd.lean keep the canonical form (see Laws/Keep.lean). -/

namespace Sys2Proof.Machine

open Sys2Proof

set_option linter.unusedSimpArgs false

theorem keep_fwStep {opc : Nat} {i : BitVec 10} {f : Nat → Cmd → State → State} {s : State} (hf : ∀ x0 x1 u, State.Canonical u → State.Canonical (f x0 x1 u)) (hs : s.Canonical) :
    State.Canonical (fwStep opc i f s) := by
  unfold fwStep
  repeat' first | with_reducible (first | assumption | apply hf) | split

theorem keep_execFlush (i : BitVec 10) (giveUp : Bool) {s : State} (hs : s.Canonical) :
    OutcomeKeeps (execFlush i giveUp s) := by
  unfold execFlush
  apply keeps_next
  repeat' first | with_reducible assumption | intro _ | lift_lets | with_reducible (first | apply keep_fwStep | apply keep_flushStep)

theorem keep_execWrite (i : BitVec 10) (giveUp : Bool) (errs : List RmeErr) {s : State} (hs : s.Canonical) :
    OutcomeKeeps (execWrite i giveUp errs s) := by
  unfold execWrite
  apply keeps_next
  repeat' first | with_reducible assumption | intro _ | lift_lets | with_reducible (first | apply keep_fwStep | apply keep_writeStep)

theorem keep_execRead (i : BitVec 10) (errs : List RmeErr) {s : State} (hs : s.Canonical) :
    OutcomeKeeps (execRead i errs s) := by
  unfold execRead
  apply keeps_next
  repeat' first | with_reducible assumption | intro _ | lift_lets | with_reducible (first | apply keep_fwStep | apply keep_readStep)

theorem keep_execWriteZeroes (i : BitVec 10) (giveUp : Bool) (errs : List RmeErr) {s : State} (hs : s.Canonical) :
    OutcomeKeeps (execWriteZeroes i giveUp errs s) := by
  unfold execWriteZeroes
  apply keeps_next
  repeat' first | with_reducible assumption | intro _ | lift_lets | with_reducible (first | apply keep_fwStep | apply keep_writeStep)

theorem keep_execDeallocate (i : BitVec 10) (errs : List RmeErr) {s : State} (hs : s.Canonical) :
    OutcomeKeeps (execDeallocate i errs s) := by
  unfold execDeallocate
  apply keeps_next
  repeat' first | with_reducible assumption | intro _ | lift_lets | with_reducible (first | apply keep_fwStep | apply keep_deallocStep)

theorem keep_execAbort (i : BitVec 10) {s : State} (hs : s.Canonical) :
    OutcomeKeeps (execAbort i s) := by
  unfold execAbort
  apply keeps_next
  repeat' first | with_reducible assumption | intro _ | lift_lets | with_reducible (first | apply keep_fwStep | apply keep_abortStep)

theorem keep_identifyStep {buf : Word} {i : Nat} {k : Cmd} {s : State} (hs : s.Canonical) :
    State.Canonical (identifyStep buf i k s) := by
  unfold identifyStep
  repeat' with_reducible first | assumption | apply keep_sendMoved | apply keep_fwEnd | apply keep_fwSend | apply keep_ite

theorem keep_execIdentify (i : BitVec 10) (buf : Word) {s : State} (hs : s.Canonical) :
    OutcomeKeeps (execIdentify i buf s) := by
  unfold execIdentify
  apply keeps_next
  repeat' first | with_reducible assumption | intro _ | lift_lets | with_reducible (first | apply keep_fwStep | apply keep_identifyStep)

theorem keep_residueStep {buf : Word} {i : Nat} {k : Cmd} {s : State} (hs : s.Canonical) :
    State.Canonical (residueStep buf i k s) := by
  unfold residueStep
  repeat' first
    | with_reducible assumption | (intro x; subst x) | lift_lets
    | with_reducible (first | apply keep_sendMoved | apply keep_fwEnd | apply keep_fwSend | apply keep_ite)

theorem keep_execResidueRead (i : BitVec 10) (buf : Word) {s : State} (hs : s.Canonical) :
    OutcomeKeeps (execResidueRead i buf s) := by
  unfold execResidueRead
  apply keeps_next
  repeat' first | with_reducible assumption | intro _ | lift_lets | with_reducible (first | apply keep_fwStep | apply keep_residueStep)

end Sys2Proof.Machine
end

