-- ==== Sys2Proof/Laws/Keep/Msq.lean ====
section
/-! SUPPORT. That the definitions of Machine/Msq.lean keep the canonical form (see Laws/Keep.lean). -/

namespace Sys2Proof.Machine

open Sys2Proof

set_option linter.unusedSimpArgs false

theorem keep_msqNop {w : Word} {s : State} (hs : s.Canonical) :
    State.Canonical (msqNop w s) := by
  unfold msqNop
  repeat' first | with_reducible assumption | intro _ | lift_lets | with_reducible (first | apply keep_msqExec | apply keep_onMsq)

theorem keep_execMsqNop (w : Word) {s : State} (hs : s.Canonical) :
    OutcomeKeeps (execMsqNop w s) := keeps_next (keep_msqNop hs)

theorem keep_msqLdi {w : Word} {s : State} (hs : s.Canonical) :
    State.Canonical (msqLdi w s) := by
  unfold msqLdi
  repeat' with_reducible first | assumption | apply keep_msqAlu

theorem keep_execMsqLdi (w : Word) {s : State} (hs : s.Canonical) :
    OutcomeKeeps (execMsqLdi w s) := keeps_next (keep_msqLdi hs)

theorem keep_msqAddi {w : Word} {s : State} (hs : s.Canonical) :
    State.Canonical (msqAddi w s) := by
  unfold msqAddi
  repeat' with_reducible first | assumption | apply keep_msqAlu

theorem keep_execMsqAddi (w : Word) {s : State} (hs : s.Canonical) :
    OutcomeKeeps (execMsqAddi w s) := keeps_next (keep_msqAddi hs)

theorem keep_msqAdd {w : Word} {s : State} (hs : s.Canonical) :
    State.Canonical (msqAdd w s) := by
  unfold msqAdd
  repeat' with_reducible first | assumption | apply keep_msqAlu

theorem keep_execMsqAdd (w : Word) {s : State} (hs : s.Canonical) :
    OutcomeKeeps (execMsqAdd w s) := keeps_next (keep_msqAdd hs)

theorem keep_msqSub {w : Word} {s : State} (hs : s.Canonical) :
    State.Canonical (msqSub w s) := by
  unfold msqSub
  repeat' with_reducible first | assumption | apply keep_msqAlu

theorem keep_execMsqSub (w : Word) {s : State} (hs : s.Canonical) :
    OutcomeKeeps (execMsqSub w s) := keeps_next (keep_msqSub hs)

theorem keep_msqAndi {w : Word} {s : State} (hs : s.Canonical) :
    State.Canonical (msqAndi w s) := by
  unfold msqAndi
  repeat' with_reducible first | assumption | apply keep_msqAlu

theorem keep_execMsqAndi (w : Word) {s : State} (hs : s.Canonical) :
    OutcomeKeeps (execMsqAndi w s) := keeps_next (keep_msqAndi hs)

theorem keep_msqOri {w : Word} {s : State} (hs : s.Canonical) :
    State.Canonical (msqOri w s) := by
  unfold msqOri
  repeat' with_reducible first | assumption | apply keep_msqAlu

theorem keep_execMsqOri (w : Word) {s : State} (hs : s.Canonical) :
    OutcomeKeeps (execMsqOri w s) := keeps_next (keep_msqOri hs)

theorem keep_msqSra {w : Word} {s : State} (hs : s.Canonical) :
    State.Canonical (msqSra w s) := by
  unfold msqSra
  repeat' with_reducible first | assumption | apply keep_msqAlu

theorem keep_execMsqSra (w : Word) {s : State} (hs : s.Canonical) :
    OutcomeKeeps (execMsqSra w s) := keeps_next (keep_msqSra hs)

theorem keep_msqMulq {w : Word} {s : State} (hs : s.Canonical) :
    State.Canonical (msqMulq w s) := by
  unfold msqMulq
  repeat' first
    | with_reducible assumption | intro _ | lift_lets | with_reducible (first | apply keep_draw | apply keep_msqExec | apply keep_onMsq)

theorem keep_execMsqMulq (w : Word) {s : State} (hs : s.Canonical) :
    OutcomeKeeps (execMsqMulq w s) := keeps_next (keep_msqMulq hs)

theorem keep_msqIn {w : Word} {meas : BitVec 16} {s : State} (hs : s.Canonical) :
    State.Canonical (msqIn w meas s) := by
  unfold msqIn
  repeat' first
    | with_reducible assumption | (intro x; refine keep_cut x (fun hx => ?_) ?_; clear_value x; rotate_left; subst x; rotate_left)
    | intro _ | lift_lets | with_reducible (first | apply keep_msqExec | apply keep_onMsq | apply keep_onPd | apply keep_ite)

theorem keep_execMsqIn (w : Word) (meas : BitVec 16) {s : State} (hs : s.Canonical) :
    OutcomeKeeps (execMsqIn w meas s) := keeps_next (keep_msqIn hs)

theorem keep_msqOut {w : Word} {s : State} (hs : s.Canonical) :
    State.Canonical (msqOut w s) := by
  unfold msqOut
  repeat' first
    | with_reducible assumption | (intro x; refine keep_cut x (fun hx => ?_) ?_; clear_value x; rotate_left; subst x; rotate_left)
    | (intro x; subst x) | intro _ | lift_lets
    | with_reducible (first | apply keep_msqExec | apply keep_onMsq | apply keep_pdFault | apply keep_onPd | apply keep_ite)

theorem keep_execMsqOut (w : Word) {s : State} (hs : s.Canonical) :
    OutcomeKeeps (execMsqOut w s) := keeps_next (keep_msqOut hs)

theorem keep_msqBr {w : Word} {s : State} (hs : s.Canonical) :
    State.Canonical (msqBr w s) := by
  unfold msqBr
  repeat' first | with_reducible assumption | intro _ | lift_lets | with_reducible (first | apply keep_msqExec | apply keep_onMsq)

theorem keep_execMsqBr (w : Word) {s : State} (hs : s.Canonical) :
    OutcomeKeeps (execMsqBr w s) := keeps_next (keep_msqBr hs)

theorem keep_msqCall {w : Word} {s : State} (hs : s.Canonical) :
    State.Canonical (msqCall w s) := by
  unfold msqCall
  repeat' first
    | with_reducible assumption | intro _ | lift_lets
    | with_reducible (first | apply keep_msqExec | apply keep_onMsq | apply keep_draw | apply keep_ite)

theorem keep_execMsqCall (w : Word) {s : State} (hs : s.Canonical) :
    OutcomeKeeps (execMsqCall w s) := keeps_next (keep_msqCall hs)

theorem keep_msqRet {w : Word} {s : State} (hs : s.Canonical) :
    State.Canonical (msqRet w s) := by
  unfold msqRet
  repeat' first
    | with_reducible assumption | intro _ | lift_lets
    | with_reducible (first | apply keep_msqExec | apply keep_onMsq | apply And.intro | apply keep_regs | apply keep_sram)
    | with_reducible (first | apply keep_store | apply keep_buf) | simp only [↓canonical_mk] | dsimp -zeta only [State.draw] | split

theorem keep_execMsqRet (w : Word) {s : State} (hs : s.Canonical) :
    OutcomeKeeps (execMsqRet w s) := keeps_next (keep_msqRet hs)

theorem keep_msqWait {w : Word} {s : State} (hs : s.Canonical) :
    State.Canonical (msqWait w s) := by
  unfold msqWait
  repeat' first
    | with_reducible assumption | intro _ | lift_lets
    | with_reducible (first | apply keep_msqExec | apply keep_onMsq | apply keep_patchActivate)

theorem keep_execMsqWait (w : Word) {s : State} (hs : s.Canonical) :
    OutcomeKeeps (execMsqWait w s) := keeps_next (keep_msqWait hs)

theorem keep_msqWaitEvent {events : BitVec 8} {s : State} (hs : s.Canonical) :
    State.Canonical (msqWaitEvent events s) := by
  unfold msqWaitEvent
  repeat' first | with_reducible (first | assumption | apply keep_onMsq | apply keep_ite) | lift_lets | split

theorem keep_execMsqWaitEvent (events : BitVec 8) {s : State} (hs : s.Canonical) :
    OutcomeKeeps (execMsqWaitEvent events s) := keeps_next (keep_msqWaitEvent hs)

theorem keep_msqIllegal {w : Word} {s : State} (hs : s.Canonical) :
    State.Canonical (msqIllegal w s) := by
  unfold msqIllegal
  repeat' first | with_reducible (first | assumption | apply keep_msqRecover | apply keep_ite) | lift_lets | split

theorem keep_execMsqIllegal (w : Word) {s : State} (hs : s.Canonical) :
    OutcomeKeeps (execMsqIllegal w s) := keeps_next (keep_msqIllegal hs)

theorem keep_patchPacket {p : Packet} {f : State → State} {s : State} (hs : s.Canonical) (hf : ∀ u, State.Canonical u → (f
      u).Canonical) :
    State.Canonical (patchPacket p f s) := by
  unfold patchPacket
  repeat' first
    | with_reducible assumption | (intro x; refine keep_cut x (fun hx => ?_) ?_; clear_value x; rotate_left; subst x; rotate_left)
    | (intro x; subst x) | intro _ | lift_lets
    | with_reducible (first | apply hf | apply keep_reset | apply keep_ite | apply And.intro | apply keep_regs)
    | with_reducible (first | apply keep_sram | apply keep_store | apply keep_buf | apply keep_nil) | simp only [↓canonical_mk] | split

theorem keep_unpatchPkt {s : State} (hs : s.Canonical) :
    State.Canonical (unpatchPkt s) := by
  unfold unpatchPkt
  repeat' first | with_reducible assumption | intro _ | lift_lets | with_reducible (first | apply keep_patchPacket | apply keep_onMsq)

theorem keep_execUnpatch {s : State} (hs : s.Canonical) :
    OutcomeKeeps (execUnpatch s) := keeps_next (keep_unpatchPkt hs)

theorem keep_patchData {k : BitVec 8} {bytes : List Byte} {s : State} (hs : s.Canonical) :
    State.Canonical (patchData k bytes s) := by
  unfold patchData
  repeat' first
    | with_reducible assumption | intro _ | lift_lets | with_reducible (first | apply keep_patchPacket | apply keep_onMsq | apply keep_ite)

theorem keep_execPatchData (k : BitVec 8) (bytes : List Byte) {s : State} (hs : s.Canonical) :
    OutcomeKeeps (execPatchData k bytes s) := keeps_next (keep_patchData hs)

theorem keep_patchEnd {s : State} (hs : s.Canonical) :
    State.Canonical (patchEnd s) := by
  unfold patchEnd
  repeat' first
    | with_reducible assumption | (intro x; subst x) | intro _ | lift_lets
    | with_reducible (first | apply keep_patchPacket | apply keep_onMsq | apply keep_pdSend | apply keep_ite)

theorem keep_execPatchEnd {s : State} (hs : s.Canonical) :
    OutcomeKeeps (execPatchEnd s) := keeps_next (keep_patchEnd hs)

theorem keep_patchAck {good : Bool} {s : State} (hs : s.Canonical) :
    State.Canonical (patchAck good s) := by
  unfold patchAck
  repeat' first
    | with_reducible assumption | (intro x; refine keep_cut x (fun hx => ?_) ?_; clear_value x; rotate_left; subst x; rotate_left)
    | (intro x; subst x) | lift_lets
    | with_reducible (first | apply keep_inc | apply keep_patchSend | apply keep_patchRefused | apply keep_ite | apply And.intro)
    | with_reducible (first | apply keep_regs | apply keep_sram | apply keep_store | apply keep_buf | apply keep_nil)
    | simp only [↓canonical_mk] | split

theorem keep_execPatchAck (good : Bool) {s : State} (hs : s.Canonical) :
    OutcomeKeeps (execPatchAck good s) := keeps_next (keep_patchAck hs)

end Sys2Proof.Machine
end

