-- ==== Sys2Proof/Laws/Keep/PowerDie.lean ====
section
/-! SUPPORT. That the definitions of Machine/PowerDie.lean keep the canonical form (see Laws/Keep.lean). -/

namespace Sys2Proof.Machine

open Sys2Proof

set_option linter.unusedSimpArgs false

theorem keep_finionFrame {d : Die} {sync hdr : BitVec 8} {pay : BitVec 168} {pcrc : BitVec 16} {s : State} (hs : s.Canonical) :
    State.Canonical (finionFrame d sync hdr pay pcrc s) := by
  unfold finionFrame
  repeat' first
    | with_reducible assumption | (intro x; refine keep_cut x (fun hx => ?_) ?_; clear_value x; rotate_left; subst x; rotate_left)
    | (intro x; subst x) | lift_lets
    | with_reducible (first | apply keep_emit | apply keep_inc | apply keep_reset | apply keep_servoSlot | apply keep_ite)
    | with_reducible (first | apply And.intro | apply keep_regs | apply keep_sram | apply keep_store | apply keep_buf)
    | with_reducible (first | apply keep_nil) | simp only [↓canonical_mk] | split

theorem keep_execFinionFrame (d : Die) (sync hdr : BitVec 8) (pay : BitVec 168) (pcrc : BitVec 16) {s : State} (hs : s.Canonical) :
    OutcomeKeeps (execFinionFrame d sync hdr pay pcrc s) := by
  unfold execFinionFrame
  apply keeps_next
  repeat' first
    | with_reducible assumption | (intro x; refine keep_cut x (fun hx => ?_) ?_; clear_value x; rotate_left; subst x; rotate_left)
    | (intro x; subst x) | lift_lets | with_reducible (first | apply keep_finionFrame | apply keep_ite) | split

theorem keep_powerLinkDown {fx : RetractFacts} {s : State} (hs : s.Canonical) :
    State.Canonical (powerLinkDown fx s) := by
  unfold powerLinkDown
  repeat' with_reducible first | assumption | apply keep_onPd

theorem keep_finionLinkDown {d : Die} {fx : RetractFacts} {t : Trans} {s : State} (hs : s.Canonical) :
    State.Canonical (finionLinkDown d fx t s) := by
  unfold finionLinkDown
  repeat' first
    | with_reducible assumption | (intro x; refine keep_cut x (fun hx => ?_) ?_; clear_value x; rotate_left; subst x; rotate_left)
    | (intro x; subst x) | lift_lets
    | with_reducible (first | apply keep_clr | apply keep_raiseBit | apply keep_inc | apply keep_retreatTrigger)
    | with_reducible (first | apply keep_powerLinkDown | apply keep_ite | apply And.intro | apply keep_regs | apply keep_sram)
    | with_reducible (first | apply keep_store | apply keep_buf) | simp only [↓canonical_mk] | split

theorem keep_execFinionLinkDown (d : Die) (fx : RetractFacts) (t : Trans) {s : State} (hs : s.Canonical) :
    OutcomeKeeps (execFinionLinkDown d fx t s) := keeps_next (keep_finionLinkDown hs)

theorem keep_finionLinkUp {d : Die} {s : State} (hs : s.Canonical) :
    State.Canonical (finionLinkUp d s) := by
  unfold finionLinkUp
  repeat' first
    | with_reducible assumption | (intro x; subst x) | lift_lets
    | with_reducible (first | apply keep_raiseBit | apply keep_ite | apply And.intro | apply keep_regs | apply keep_sram)
    | with_reducible (first | apply keep_store | apply keep_buf) | simp only [↓canonical_mk] | split

theorem keep_execFinionLinkUp (d : Die) {s : State} (hs : s.Canonical) :
    OutcomeKeeps (execFinionLinkUp d s) := keeps_next (keep_finionLinkUp hs)

theorem keep_servoWordReceived {w : BitVec 56} {s : State} (hs : s.Canonical) :
    State.Canonical (servoWordReceived w s) := by
  unfold servoWordReceived
  repeat' first | with_reducible assumption | (intro x; subst x) | lift_lets | with_reducible apply keep_onPd

theorem keep_execServoWordReceived (w : BitVec 56) {s : State} (hs : s.Canonical) :
    OutcomeKeeps (execServoWordReceived w s) := keeps_next (keep_servoWordReceived hs)

theorem keep_downPacket {p : Packet} {f : PdState → PdState} {s : State} (hs : s.Canonical) :
    State.Canonical (downPacket p f s) := by
  unfold downPacket
  repeat' first
    | with_reducible assumption | (intro x; refine keep_cut x (fun hx => ?_) ?_; clear_value x; rotate_left; subst x; rotate_left)
    | (intro x; subst x) | lift_lets
    | with_reducible (first | apply keep_reset | apply keep_onPd | apply keep_ite | apply And.intro | apply keep_regs)
    | with_reducible (first | apply keep_sram | apply keep_store | apply keep_buf | apply keep_nil) | simp only [↓canonical_mk] | split

theorem keep_execSpeed (target : BitVec 16) (spilim : BitVec 8) (rpm : Nat) {s : State} (hs : s.Canonical) :
    OutcomeKeeps (execSpeed target spilim rpm s) := keeps_next (keep_downPacket hs)

theorem keep_execSpderr (e : BitVec 24) {s : State} (hs : s.Canonical) :
    OutcomeKeeps (execSpderr e s) := keeps_next (keep_downPacket hs)

theorem keep_spderrMeasurement {t64 : Nat} {s : State} (hs : s.Canonical) :
    State.Canonical (spderrMeasurement t64 s) := by
  unfold spderrMeasurement
  repeat' first
    | with_reducible assumption | (intro x; subst x) | lift_lets
    | with_reducible (first | apply keep_draw | apply keep_flnkSend | apply keep_ite)

theorem keep_execSpderrMeasurement (t64 : Nat) {s : State} (hs : s.Canonical) :
    OutcomeKeeps (execSpderrMeasurement t64 s) := keeps_next (keep_spderrMeasurement hs)

theorem keep_actPacket {a : Nat} {f : PdState → PdState} {s : State} (hs : s.Canonical) :
    State.Canonical (actPacket a f s) := by
  unfold actPacket
  repeat' with_reducible first | assumption | apply keep_downPacket

theorem keep_execActLoad {s : State} (hs : s.Canonical) :
    OutcomeKeeps (execActLoad s) := keeps_next (keep_actPacket hs)

theorem keep_execActUnload {s : State} (hs : s.Canonical) :
    OutcomeKeeps (execActUnload s) := keeps_next (keep_actPacket hs)

theorem keep_execActPark {s : State} (hs : s.Canonical) :
    OutcomeKeeps (execActPark s) := keeps_next (keep_actPacket hs)

theorem keep_execActRetract (fx : RetractFacts) {s : State} (hs : s.Canonical) :
    OutcomeKeeps (execActRetract fx s) := keeps_next (keep_actPacket hs)

theorem keep_execActHoldup {s : State} (hs : s.Canonical) :
    OutcomeKeeps (execActHoldup s) := keeps_next (keep_actPacket hs)

theorem keep_execPsupOn {s : State} (hs : s.Canonical) :
    OutcomeKeeps (execPsupOn s) := keeps_next (keep_downPacket hs)

theorem keep_execPreampVposOn {s : State} (hs : s.Canonical) :
    OutcomeKeeps (execPreampVposOn s) := keeps_next (keep_onPd hs)

theorem keep_execPsupOff {s : State} (hs : s.Canonical) :
    OutcomeKeeps (execPsupOff s) := keeps_next (keep_downPacket hs)

theorem keep_execCfg (rdl rfloor vret holdv : BitVec 8) (vcmrng : Bool) {s : State} (hs : s.Canonical) :
    OutcomeKeeps (execCfg rdl rfloor vret holdv vcmrng s) := keeps_next (keep_downPacket hs)

theorem keep_execPwr (port : BitVec 8) (value : BitVec 16) {s : State} (hs : s.Canonical) :
    OutcomeKeeps (execPwr port value s) := keeps_next (keep_downPacket hs)

theorem keep_prd {port : BitVec 8} {meas : BitVec 16} {s : State} (hs : s.Canonical) :
    State.Canonical (prd port meas s) := by
  unfold prd
  repeat' first
    | with_reducible assumption | (intro x; refine keep_cut x (fun hx => ?_) ?_; clear_value x; rotate_left; subst x; rotate_left)
    | lift_lets | with_reducible (first | apply keep_downPacket | apply keep_pdSend | apply keep_onPd | apply keep_ite)

theorem keep_execPrd (port : BitVec 8) (meas : BitVec 16) {s : State} (hs : s.Canonical) :
    OutcomeKeeps (execPrd port meas s) := keeps_next (keep_prd hs)

theorem keep_execLogack (entry : BitVec 3) {s : State} (hs : s.Canonical) :
    OutcomeKeeps (execLogack entry s) := keeps_next (keep_downPacket hs)

theorem keep_logreq {s : State} (hs : s.Canonical) :
    State.Canonical (logreq s) := by
  unfold logreq
  repeat' first
    | with_reducible assumption | (intro x; refine keep_cut x (fun hx => ?_) ?_; clear_value x; rotate_left; subst x; rotate_left)
    | intro _ | lift_lets | with_reducible (first | apply keep_downPacket | apply keep_each | apply keep_pdSend | apply keep_ite)

theorem keep_execLogreq {s : State} (hs : s.Canonical) :
    OutcomeKeeps (execLogreq s) := keeps_next (keep_logreq hs)

theorem keep_execIdle {s : State} (hs : s.Canonical) :
    OutcomeKeeps (execIdle s) := by
  unfold execIdle
  apply keeps_next
  repeat' with_reducible first | assumption

theorem keep_upPacket {p : Packet} {s : State} (hs : s.Canonical) :
    State.Canonical (upPacket p s) := by
  unfold upPacket
  repeat' first
    | with_reducible assumption | (intro x; refine keep_cut x (fun hx => ?_) ?_; clear_value x; rotate_left; subst x; rotate_left)
    | (intro x; subst x) | lift_lets
    | with_reducible (first | apply keep_ite | apply And.intro | apply keep_regs | apply keep_sram | apply keep_store)
    | with_reducible (first | apply keep_buf | apply keep_nil) | simp only [↓canonical_mk] | split

theorem keep_status {speed16 : BitVec 18} {vhold : BitVec 16} {temp : BitVec 8} {romid : BitVec 16} {s : State} (hs : s.Canonical) :
    State.Canonical (status speed16 vhold temp romid s) := by
  unfold status
  repeat' first
    | with_reducible assumption | (intro x; refine keep_cut x (fun hx => ?_) ?_; clear_value x; rotate_left; subst x; rotate_left)
    | (intro x; subst x) | intro _ | lift_lets
    | with_reducible (first | apply keep_reset | apply keep_put | apply keep_putB | apply keep_addCnt | apply keep_onPd)
    | with_reducible (first | apply keep_ite | apply And.intro | apply keep_regs | apply keep_sram | apply keep_store)
    | with_reducible (first | apply keep_buf | apply keep_nil) | simp only [↓canonical_mk] | split

theorem keep_execStatus (speed16 : BitVec 18) (vhold : BitVec 16) (temp : BitVec 8) (romid : BitVec 16) {s : State} (hs : s.Canonical) :
    OutcomeKeeps (execStatus speed16 vhold temp romid s) := keeps_next (keep_status hs)

theorem keep_faultPacket {kind : BitVec 8} {detail : BitVec 16} {s : State} (hs : s.Canonical) :
    State.Canonical (faultPacket kind detail s) := by
  unfold faultPacket
  repeat' first
    | with_reducible assumption | (intro x; refine keep_cut x (fun hx => ?_) ?_; clear_value x; rotate_left; subst x; rotate_left)
    | lift_lets | with_reducible (first | apply keep_upPacket | apply keep_put | apply keep_faultRecord | apply keep_spinUpFailed)
    | with_reducible apply keep_ite

theorem keep_execFault (kind : BitVec 8) (detail : BitVec 16) {s : State} (hs : s.Canonical) :
    OutcomeKeeps (execFault kind detail s) := keeps_next (keep_faultPacket hs)

theorem keep_pdata {port : BitVec 8} {value : BitVec 16} {s : State} (hs : s.Canonical) :
    State.Canonical (pdata port value s) := by
  unfold pdata
  repeat' with_reducible first | assumption | apply keep_upPacket | apply keep_put | apply keep_clr

theorem keep_execPdata (port : BitVec 8) (value : BitVec 16) {s : State} (hs : s.Canonical) :
    OutcomeKeeps (execPdata port value s) := keeps_next (keep_pdata hs)

theorem keep_logPacket {entry : BitVec 3} {bytes : List Byte} {s : State} (hs : s.Canonical) :
    State.Canonical (logPacket entry bytes s) := by
  unfold logPacket
  repeat' first
    | with_reducible assumption | (intro x; refine keep_cut x (fun hx => ?_) ?_; clear_value x; rotate_left; subst x; rotate_left)
    | (intro x; subst x) | lift_lets
    | with_reducible (first | apply keep_upPacket | apply keep_event | apply keep_raiseBit | apply keep_ite | apply And.intro)
    | with_reducible (first | apply keep_regs | apply keep_sram | apply keep_store | apply keep_buf | apply keep_nil)
    | simp only [↓canonical_mk] | split

theorem keep_execLog (entry : BitVec 3) (bytes : List Byte) {s : State} (hs : s.Canonical) :
    OutcomeKeeps (execLog entry bytes s) := keeps_next (keep_logPacket hs)

theorem keep_notice {romid : BitVec 16} {s : State} (hs : s.Canonical) :
    State.Canonical (notice romid s) := by
  unfold notice
  repeat' first
    | with_reducible assumption | (intro x; refine keep_cut x (fun hx => ?_) ?_; clear_value x; rotate_left; subst x; rotate_left)
    | (intro x; subst x) | intro _ | lift_lets
    | with_reducible (first | apply keep_each | apply keep_upPacket | apply keep_onPd | apply keep_raiseBit | apply keep_put)
    | with_reducible (first | apply keep_flnkSend | apply keep_inc | apply keep_patchResend | apply keep_faultRecord | apply keep_ite)
    | with_reducible (first | apply And.intro | apply keep_regs | apply keep_sram | apply keep_store | apply keep_buf)
    | with_reducible (first | apply keep_nil) | simp only [↓canonical_mk] | split

theorem keep_execNotice (romid : BitVec 16) {s : State} (hs : s.Canonical) :
    OutcomeKeeps (execNotice romid s) := keeps_next (keep_notice hs)

theorem keep_execPdResetAssert {s : State} (hs : s.Canonical) :
    OutcomeKeeps (execPdResetAssert s) := by
  unfold execPdResetAssert
  apply keeps_next
  repeat' first
    | with_reducible assumption | (intro x; refine keep_cut x (fun hx => ?_) ?_; clear_value x; rotate_left; subst x; rotate_left)
    | (intro x; subst x) | intro _ | lift_lets | with_reducible (first | apply keep_onPd | apply keep_reset | apply keep_ite) | split

theorem keep_pdResetRelease {fx : RetractFacts} {s : State} (hs : s.Canonical) :
    State.Canonical (pdResetRelease fx s) := by
  unfold pdResetRelease
  repeat' first
    | with_reducible assumption | (intro x; refine keep_cut x (fun hx => ?_) ?_; clear_value x; rotate_left; subst x; rotate_left)
    | (intro x; subst x) | lift_lets
    | with_reducible (first | apply keep_reset | apply keep_msqShow | apply keep_pdSend | apply keep_notice | apply keep_ite)
    | with_reducible (first | apply And.intro | apply keep_regs | apply keep_sram | apply keep_store | apply keep_buf)
    | with_reducible (first | apply keep_nil) | simp only [↓canonical_mk] | split

theorem keep_execPdResetRelease (fx : RetractFacts) {s : State} (hs : s.Canonical) :
    OutcomeKeeps (execPdResetRelease fx s) := keeps_next (keep_pdResetRelease hs)

theorem keep_execActuatorMoveDone {s : State} (hs : s.Canonical) :
    OutcomeKeeps (execActuatorMoveDone s) := keeps_next (keep_onPd hs)

theorem keep_execServoSilence (fx : RetractFacts) {s : State} (hs : s.Canonical) :
    OutcomeKeeps (execServoSilence fx s) := keeps_next (keep_onPd hs)

theorem keep_execVholdLow (fx : RetractFacts) {s : State} (hs : s.Canonical) :
    OutcomeKeeps (execVholdLow fx s) := keeps_next (keep_onPd hs)

theorem keep_execSpindleFloor (fx : RetractFacts) {s : State} (hs : s.Canonical) :
    OutcomeKeeps (execSpindleFloor fx s) := keeps_next (keep_onPd hs)

theorem keep_execRetractDeadline (fx : RetractFacts) {s : State} (hs : s.Canonical) :
    OutcomeKeeps (execRetractDeadline fx s) := keeps_next (keep_onPd hs)

theorem keep_execRetractRampReached {s : State} (hs : s.Canonical) :
    OutcomeKeeps (execRetractRampReached s) := keeps_next (keep_onPd hs)

theorem keep_execRetractLatchReached {s : State} (hs : s.Canonical) :
    OutcomeKeeps (execRetractLatchReached s) := keeps_next (keep_onPd hs)

theorem keep_execRetractLatchTimeout {s : State} (hs : s.Canonical) :
    OutcomeKeeps (execRetractLatchTimeout s) := keeps_next (keep_onPd hs)

theorem keep_retractEnd {dur : Nat} {s : State} (hs : s.Canonical) :
    State.Canonical (retractEnd dur s) := by
  unfold retractEnd
  repeat' first
    | with_reducible assumption | (intro x; refine keep_cut x (fun hx => ?_) ?_; clear_value x; rotate_left; subst x; rotate_left)
    | lift_lets | with_reducible (first | apply keep_onPd | apply keep_logRetract | apply keep_ite) | split

theorem keep_execRetractEnd (dur : Nat) {s : State} (hs : s.Canonical) :
    OutcomeKeeps (execRetractEnd dur s) := keeps_next (keep_retractEnd hs)

theorem keep_execSpindleClosedLoop {s : State} (hs : s.Canonical) :
    OutcomeKeeps (execSpindleClosedLoop s) := keeps_next (keep_onPd hs)

theorem keep_startAttemptTimeout {s : State} (hs : s.Canonical) :
    State.Canonical (startAttemptTimeout s) := by
  unfold startAttemptTimeout
  repeat' with_reducible first | assumption | apply keep_onPd | apply keep_pdFault | apply keep_ite

theorem keep_execStartAttemptTimeout {s : State} (hs : s.Canonical) :
    OutcomeKeeps (execStartAttemptTimeout s) := keeps_next (keep_startAttemptTimeout hs)

theorem keep_execSpindleAtSpeed {s : State} (hs : s.Canonical) :
    OutcomeKeeps (execSpindleAtSpeed s) := keeps_next (keep_onPd hs)

theorem keep_execSpeedError {s : State} (hs : s.Canonical) :
    OutcomeKeeps (execSpeedError s) := keeps_next (keep_onPd hs)

theorem keep_execSpindleStopped {s : State} (hs : s.Canonical) :
    OutcomeKeeps (execSpindleStopped s) := keeps_next (keep_onPd hs)

theorem keep_execHoldupBrake {s : State} (hs : s.Canonical) :
    OutcomeKeeps (execHoldupBrake s) := keeps_next (keep_onPd hs)

theorem keep_pdRuns {f : State → State} {s : State} (hs : s.Canonical) (hf : ∀ u, State.Canonical u → (f u).Canonical) :
    State.Canonical (pdRuns f s) := by
  unfold pdRuns
  repeat' first
    | with_reducible assumption | (intro x; refine keep_cut x (fun hx => ?_) ?_; clear_value x; rotate_left; subst x; rotate_left)
    | (intro x; subst x) | intro _ | lift_lets | with_reducible (first | apply hf | apply keep_reset | apply keep_ite) | split

theorem keep_pdRaise {s : State} {kind : Nat} (hs : s.Canonical) :
    State.Canonical (State.pdRaise s kind) := by
  unfold State.pdRaise
  repeat' first
    | with_reducible assumption | (intro x; refine keep_cut x (fun hx => ?_) ?_; clear_value x; rotate_left; subst x; rotate_left)
    | (intro x; subst x) | intro _ | lift_lets
    | with_reducible (first | apply keep_onPd | apply keep_pdFault | apply keep_ite | apply And.intro | apply keep_regs)
    | with_reducible (first | apply keep_sram | apply keep_store | apply keep_buf | apply keep_nil) | simp only [↓canonical_mk] | split

theorem keep_spoc {fx : RetractFacts} {s : State} (hs : s.Canonical) :
    State.Canonical (spoc fx s) := by
  unfold spoc
  repeat' first
    | with_reducible assumption | (intro x; refine keep_cut x (fun hx => ?_) ?_; clear_value x; rotate_left; subst x; rotate_left)
    | (intro x; subst x) | intro _ | lift_lets | with_reducible (first | apply keep_onPd | apply keep_pdRaise | apply keep_ite) | split

theorem keep_execSpoc (fx : RetractFacts) {s : State} (hs : s.Canonical) :
    OutcomeKeeps (execSpoc fx s) := by
  unfold execSpoc
  apply keeps_next
  repeat' first
    | with_reducible assumption | (intro x; refine keep_cut x (fun hx => ?_) ?_; clear_value x; rotate_left; subst x; rotate_left)
    | (intro x; subst x) | lift_lets | with_reducible (first | apply keep_pdRuns | apply keep_spoc | apply keep_ite) | split

theorem keep_execVcmoc {s : State} (hs : s.Canonical) :
    OutcomeKeeps (execVcmoc s) := by
  unfold execVcmoc
  apply keeps_next
  repeat' first
    | with_reducible assumption | (intro x; refine keep_cut x (fun hx => ?_) ?_; clear_value x; rotate_left; subst x; rotate_left)
    | (intro x; subst x) | intro _ | lift_lets
    | with_reducible (first | apply keep_pdRuns | apply keep_onPd | apply keep_pdRaise | apply keep_ite | apply And.intro)
    | with_reducible (first | apply keep_regs | apply keep_sram | apply keep_store | apply keep_buf | apply keep_nil)
    | simp only [↓canonical_mk] | split

theorem keep_execMaflt (ch : Bool) {s : State} (hs : s.Canonical) :
    OutcomeKeeps (execMaflt ch s) := by
  unfold execMaflt
  apply keeps_next
  repeat' first
    | with_reducible assumption | (intro x; refine keep_cut x (fun hx => ?_) ?_; clear_value x; rotate_left; subst x; rotate_left)
    | (intro x; subst x) | intro _ | lift_lets
    | with_reducible (first | apply keep_pdRuns | apply keep_onPd | apply keep_pdFault | apply keep_ite | apply And.intro)
    | with_reducible (first | apply keep_regs | apply keep_sram | apply keep_store | apply keep_buf | apply keep_nil)
    | simp only [↓canonical_mk] | split

theorem keep_execPsupf {s : State} (hs : s.Canonical) :
    OutcomeKeeps (execPsupf s) := by
  unfold execPsupf
  apply keeps_next
  repeat' first
    | with_reducible assumption | (intro x; refine keep_cut x (fun hx => ?_) ?_; clear_value x; rotate_left; subst x; rotate_left)
    | (intro x; subst x) | intro _ | lift_lets
    | with_reducible (first | apply keep_pdRuns | apply keep_onPd | apply keep_pdRaise | apply keep_ite | apply And.intro)
    | with_reducible (first | apply keep_regs | apply keep_sram | apply keep_store | apply keep_buf | apply keep_nil)
    | simp only [↓canonical_mk] | split

theorem keep_execTwarn {s : State} (hs : s.Canonical) :
    OutcomeKeeps (execTwarn s) := by
  unfold execTwarn
  apply keeps_next
  repeat' first
    | with_reducible assumption | (intro x; refine keep_cut x (fun hx => ?_) ?_; clear_value x; rotate_left; subst x; rotate_left)
    | (intro x; subst x) | intro _ | lift_lets | with_reducible (first | apply keep_pdRuns | apply keep_pdFault | apply keep_ite) | split

theorem keep_execTshut (fx : RetractFacts) {s : State} (hs : s.Canonical) :
    OutcomeKeeps (execTshut fx s) := by
  unfold execTshut
  apply keeps_next
  repeat' first
    | with_reducible assumption | (intro x; refine keep_cut x (fun hx => ?_) ?_; clear_value x; rotate_left; subst x; rotate_left)
    | (intro x; subst x) | intro _ | lift_lets
    | with_reducible (first | apply keep_pdRuns | apply keep_onPd | apply keep_pdFault | apply keep_ite | apply And.intro)
    | with_reducible (first | apply keep_regs | apply keep_sram | apply keep_store | apply keep_buf | apply keep_nil)
    | simp only [↓canonical_mk] | split

theorem keep_execSync {s : State} (hs : s.Canonical) :
    OutcomeKeeps (execSync s) := by
  unfold execSync
  apply keeps_next
  repeat' first
    | with_reducible assumption | (intro x; refine keep_cut x (fun hx => ?_) ?_; clear_value x; rotate_left; subst x; rotate_left)
    | (intro x; subst x) | lift_lets | with_reducible (first | apply keep_onPd | apply keep_pdRaise | apply keep_ite) | split

theorem keep_execLinkDownSpinDown {s : State} (hs : s.Canonical) :
    OutcomeKeeps (execLinkDownSpinDown s) := by
  unfold execLinkDownSpinDown
  apply keeps_next
  repeat' first
    | with_reducible assumption | (intro x; refine keep_cut x (fun hx => ?_) ?_; clear_value x; rotate_left; subst x; rotate_left)
    | (intro x; subst x) | lift_lets | with_reducible (first | apply keep_reset | apply keep_onPd | apply keep_ite) | split

end Sys2Proof.Machine
end

