-- ==== Sys2Proof/Laws/State.lean ====
section
/-! SUPPORT. The laws of State's updates: for each update and each field, what the field holds afterwards. Every one is true
by unfolding, so that no proof unfolds a record update. -/

namespace Sys2Proof.Machine

open Sys2Proof

variable (s : State)

@[simp] theorem State.wr_pending (k : Nat) (v : Word) : (s.wr k v).pending = s.pending := rfl
@[simp] theorem State.wr_part (k : Nat) (v : Word) : (s.wr k v).part = s.part := rfl
@[simp] theorem State.wr_regs (k : Nat) (v : Word) : (s.wr k v).regs = Sparse.write resetWord s.regs k v := rfl
@[simp] theorem State.wr_sram (k : Nat) (v : Word) : (s.wr k v).sram = s.sram := rfl
@[simp] theorem State.wr_store (k : Nat) (v : Word) : (s.wr k v).store = s.store := rfl
@[simp] theorem State.wr_buf (k : Nat) (v : Word) : (s.wr k v).buf = s.buf := rfl
@[simp] theorem State.wr_atb (k : Nat) (v : Word) : (s.wr k v).atb = s.atb := rfl
@[simp] theorem State.wr_asc (k : Nat) (v : Word) : (s.wr k v).asc = s.asc := rfl
@[simp] theorem State.wr_latched (k : Nat) (v : Word) : (s.wr k v).latched = s.latched := rfl
@[simp] theorem State.wr_irqLines (k : Nat) (v : Word) : (s.wr k v).irqLines = s.irqLines := rfl
@[simp] theorem State.wr_pcm (k : Nat) (v : Word) : (s.wr k v).pcm = s.pcm := rfl
@[simp] theorem State.wr_sst (k : Nat) (v : Word) : (s.wr k v).sst = s.sst := rfl
@[simp] theorem State.wr_sto (k : Nat) (v : Word) : (s.wr k v).sto = s.sto := rfl
@[simp] theorem State.wr_mor (k : Nat) (v : Word) : (s.wr k v).mor = s.mor := rfl
@[simp] theorem State.wr_pd (k : Nat) (v : Word) : (s.wr k v).pd = s.pd := rfl
@[simp] theorem State.wr_link (k : Nat) (v : Word) : (s.wr k v).link = s.link := rfl
@[simp] theorem State.wr_firn (k : Nat) (v : Word) : (s.wr k v).firn = s.firn := rfl
@[simp] theorem State.wr_rme (k : Nat) (v : Word) : (s.wr k v).rme = s.rme := rfl
@[simp] theorem State.wr_ports (k : Nat) (v : Word) : (s.wr k v).ports = s.ports := rfl
@[simp] theorem State.wr_dma (k : Nat) (v : Word) : (s.wr k v).dma = s.dma := rfl
@[simp] theorem State.wr_cry (k : Nat) (v : Word) : (s.wr k v).cry = s.cry := rfl
@[simp] theorem State.wr_chn (k : Nat) (v : Word) : (s.wr k v).chn = s.chn := rfl
@[simp] theorem State.wr_ord (k : Nat) (v : Word) : (s.wr k v).ord = s.ord := rfl
@[simp] theorem State.wr_pmx (k : Nat) (v : Word) : (s.wr k v).pmx = s.pmx := rfl
@[simp] theorem State.wr_srv (k : Nat) (v : Word) : (s.wr k v).srv = s.srv := rfl
@[simp] theorem State.wr_wsq (k : Nat) (v : Word) : (s.wr k v).wsq = s.wsq := rfl
@[simp] theorem State.wr_msq (k : Nat) (v : Word) : (s.wr k v).msq = s.msq := rfl
@[simp] theorem State.wr_uqi (k : Nat) (v : Word) : (s.wr k v).uqi = s.uqi := rfl
@[simp] theorem State.wr_mgt (k : Nat) (v : Word) : (s.wr k v).mgt = s.mgt := rfl
@[simp] theorem State.wr_out (k : Nat) (v : Word) : (s.wr k v).out = s.out := rfl
@[simp] theorem State.wr_draws (k : Nat) (v : Word) : (s.wr k v).draws = s.draws := rfl

@[simp] theorem State.put_pending (f : Fld) (n : Nat) : (s.put f n).pending = s.pending := rfl
@[simp] theorem State.put_part (f : Fld) (n : Nat) : (s.put f n).part = s.part := rfl
@[simp] theorem State.put_sram (f : Fld) (n : Nat) : (s.put f n).sram = s.sram := rfl
@[simp] theorem State.put_store (f : Fld) (n : Nat) : (s.put f n).store = s.store := rfl
@[simp] theorem State.put_buf (f : Fld) (n : Nat) : (s.put f n).buf = s.buf := rfl
@[simp] theorem State.put_atb (f : Fld) (n : Nat) : (s.put f n).atb = s.atb := rfl
@[simp] theorem State.put_asc (f : Fld) (n : Nat) : (s.put f n).asc = s.asc := rfl
@[simp] theorem State.put_latched (f : Fld) (n : Nat) : (s.put f n).latched = s.latched := rfl
@[simp] theorem State.put_irqLines (f : Fld) (n : Nat) : (s.put f n).irqLines = s.irqLines := rfl
@[simp] theorem State.put_pcm (f : Fld) (n : Nat) : (s.put f n).pcm = s.pcm := rfl
@[simp] theorem State.put_sst (f : Fld) (n : Nat) : (s.put f n).sst = s.sst := rfl
@[simp] theorem State.put_sto (f : Fld) (n : Nat) : (s.put f n).sto = s.sto := rfl
@[simp] theorem State.put_mor (f : Fld) (n : Nat) : (s.put f n).mor = s.mor := rfl
@[simp] theorem State.put_pd (f : Fld) (n : Nat) : (s.put f n).pd = s.pd := rfl
@[simp] theorem State.put_link (f : Fld) (n : Nat) : (s.put f n).link = s.link := rfl
@[simp] theorem State.put_firn (f : Fld) (n : Nat) : (s.put f n).firn = s.firn := rfl
@[simp] theorem State.put_rme (f : Fld) (n : Nat) : (s.put f n).rme = s.rme := rfl
@[simp] theorem State.put_ports (f : Fld) (n : Nat) : (s.put f n).ports = s.ports := rfl
@[simp] theorem State.put_dma (f : Fld) (n : Nat) : (s.put f n).dma = s.dma := rfl
@[simp] theorem State.put_cry (f : Fld) (n : Nat) : (s.put f n).cry = s.cry := rfl
@[simp] theorem State.put_chn (f : Fld) (n : Nat) : (s.put f n).chn = s.chn := rfl
@[simp] theorem State.put_ord (f : Fld) (n : Nat) : (s.put f n).ord = s.ord := rfl
@[simp] theorem State.put_pmx (f : Fld) (n : Nat) : (s.put f n).pmx = s.pmx := rfl
@[simp] theorem State.put_srv (f : Fld) (n : Nat) : (s.put f n).srv = s.srv := rfl
@[simp] theorem State.put_wsq (f : Fld) (n : Nat) : (s.put f n).wsq = s.wsq := rfl
@[simp] theorem State.put_msq (f : Fld) (n : Nat) : (s.put f n).msq = s.msq := rfl
@[simp] theorem State.put_uqi (f : Fld) (n : Nat) : (s.put f n).uqi = s.uqi := rfl
@[simp] theorem State.put_mgt (f : Fld) (n : Nat) : (s.put f n).mgt = s.mgt := rfl
@[simp] theorem State.put_out (f : Fld) (n : Nat) : (s.put f n).out = s.out := rfl
@[simp] theorem State.put_draws (f : Fld) (n : Nat) : (s.put f n).draws = s.draws := rfl

@[simp] theorem State.putB_pending (f : Fld) (b : Bool) : (s.putB f b).pending = s.pending := rfl
@[simp] theorem State.putB_part (f : Fld) (b : Bool) : (s.putB f b).part = s.part := rfl
@[simp] theorem State.putB_sram (f : Fld) (b : Bool) : (s.putB f b).sram = s.sram := rfl
@[simp] theorem State.putB_store (f : Fld) (b : Bool) : (s.putB f b).store = s.store := rfl
@[simp] theorem State.putB_buf (f : Fld) (b : Bool) : (s.putB f b).buf = s.buf := rfl
@[simp] theorem State.putB_atb (f : Fld) (b : Bool) : (s.putB f b).atb = s.atb := rfl
@[simp] theorem State.putB_asc (f : Fld) (b : Bool) : (s.putB f b).asc = s.asc := rfl
@[simp] theorem State.putB_latched (f : Fld) (b : Bool) : (s.putB f b).latched = s.latched := rfl
@[simp] theorem State.putB_irqLines (f : Fld) (b : Bool) : (s.putB f b).irqLines = s.irqLines := rfl
@[simp] theorem State.putB_pcm (f : Fld) (b : Bool) : (s.putB f b).pcm = s.pcm := rfl
@[simp] theorem State.putB_sst (f : Fld) (b : Bool) : (s.putB f b).sst = s.sst := rfl
@[simp] theorem State.putB_sto (f : Fld) (b : Bool) : (s.putB f b).sto = s.sto := rfl
@[simp] theorem State.putB_mor (f : Fld) (b : Bool) : (s.putB f b).mor = s.mor := rfl
@[simp] theorem State.putB_pd (f : Fld) (b : Bool) : (s.putB f b).pd = s.pd := rfl
@[simp] theorem State.putB_link (f : Fld) (b : Bool) : (s.putB f b).link = s.link := rfl
@[simp] theorem State.putB_firn (f : Fld) (b : Bool) : (s.putB f b).firn = s.firn := rfl
@[simp] theorem State.putB_rme (f : Fld) (b : Bool) : (s.putB f b).rme = s.rme := rfl
@[simp] theorem State.putB_ports (f : Fld) (b : Bool) : (s.putB f b).ports = s.ports := rfl
@[simp] theorem State.putB_dma (f : Fld) (b : Bool) : (s.putB f b).dma = s.dma := rfl
@[simp] theorem State.putB_cry (f : Fld) (b : Bool) : (s.putB f b).cry = s.cry := rfl
@[simp] theorem State.putB_chn (f : Fld) (b : Bool) : (s.putB f b).chn = s.chn := rfl
@[simp] theorem State.putB_ord (f : Fld) (b : Bool) : (s.putB f b).ord = s.ord := rfl
@[simp] theorem State.putB_pmx (f : Fld) (b : Bool) : (s.putB f b).pmx = s.pmx := rfl
@[simp] theorem State.putB_srv (f : Fld) (b : Bool) : (s.putB f b).srv = s.srv := rfl
@[simp] theorem State.putB_wsq (f : Fld) (b : Bool) : (s.putB f b).wsq = s.wsq := rfl
@[simp] theorem State.putB_msq (f : Fld) (b : Bool) : (s.putB f b).msq = s.msq := rfl
@[simp] theorem State.putB_uqi (f : Fld) (b : Bool) : (s.putB f b).uqi = s.uqi := rfl
@[simp] theorem State.putB_mgt (f : Fld) (b : Bool) : (s.putB f b).mgt = s.mgt := rfl
@[simp] theorem State.putB_out (f : Fld) (b : Bool) : (s.putB f b).out = s.out := rfl
@[simp] theorem State.putB_draws (f : Fld) (b : Bool) : (s.putB f b).draws = s.draws := rfl

@[simp] theorem State.resetRegs_pending (p : Nat → Bool) : (s.resetRegs p).pending = s.pending := rfl
@[simp] theorem State.resetRegs_part (p : Nat → Bool) : (s.resetRegs p).part = s.part := rfl
@[simp] theorem State.resetRegs_regs (p : Nat → Bool) : (s.resetRegs p).regs = Sparse.keep (fun k => !p k) s.regs := rfl
@[simp] theorem State.resetRegs_sram (p : Nat → Bool) : (s.resetRegs p).sram = s.sram := rfl
@[simp] theorem State.resetRegs_store (p : Nat → Bool) : (s.resetRegs p).store = s.store := rfl
@[simp] theorem State.resetRegs_buf (p : Nat → Bool) : (s.resetRegs p).buf = s.buf := rfl
@[simp] theorem State.resetRegs_atb (p : Nat → Bool) : (s.resetRegs p).atb = s.atb := rfl
@[simp] theorem State.resetRegs_asc (p : Nat → Bool) : (s.resetRegs p).asc = s.asc := rfl
@[simp] theorem State.resetRegs_latched (p : Nat → Bool) : (s.resetRegs p).latched = s.latched := rfl
@[simp] theorem State.resetRegs_irqLines (p : Nat → Bool) : (s.resetRegs p).irqLines = s.irqLines := rfl
@[simp] theorem State.resetRegs_pcm (p : Nat → Bool) : (s.resetRegs p).pcm = s.pcm := rfl
@[simp] theorem State.resetRegs_sst (p : Nat → Bool) : (s.resetRegs p).sst = s.sst := rfl
@[simp] theorem State.resetRegs_sto (p : Nat → Bool) : (s.resetRegs p).sto = s.sto := rfl
@[simp] theorem State.resetRegs_mor (p : Nat → Bool) : (s.resetRegs p).mor = s.mor := rfl
@[simp] theorem State.resetRegs_pd (p : Nat → Bool) : (s.resetRegs p).pd = s.pd := rfl
@[simp] theorem State.resetRegs_link (p : Nat → Bool) : (s.resetRegs p).link = s.link := rfl
@[simp] theorem State.resetRegs_firn (p : Nat → Bool) : (s.resetRegs p).firn = s.firn := rfl
@[simp] theorem State.resetRegs_rme (p : Nat → Bool) : (s.resetRegs p).rme = s.rme := rfl
@[simp] theorem State.resetRegs_ports (p : Nat → Bool) : (s.resetRegs p).ports = s.ports := rfl
@[simp] theorem State.resetRegs_dma (p : Nat → Bool) : (s.resetRegs p).dma = s.dma := rfl
@[simp] theorem State.resetRegs_cry (p : Nat → Bool) : (s.resetRegs p).cry = s.cry := rfl
@[simp] theorem State.resetRegs_chn (p : Nat → Bool) : (s.resetRegs p).chn = s.chn := rfl
@[simp] theorem State.resetRegs_ord (p : Nat → Bool) : (s.resetRegs p).ord = s.ord := rfl
@[simp] theorem State.resetRegs_pmx (p : Nat → Bool) : (s.resetRegs p).pmx = s.pmx := rfl
@[simp] theorem State.resetRegs_srv (p : Nat → Bool) : (s.resetRegs p).srv = s.srv := rfl
@[simp] theorem State.resetRegs_wsq (p : Nat → Bool) : (s.resetRegs p).wsq = s.wsq := rfl
@[simp] theorem State.resetRegs_msq (p : Nat → Bool) : (s.resetRegs p).msq = s.msq := rfl
@[simp] theorem State.resetRegs_uqi (p : Nat → Bool) : (s.resetRegs p).uqi = s.uqi := rfl
@[simp] theorem State.resetRegs_mgt (p : Nat → Bool) : (s.resetRegs p).mgt = s.mgt := rfl
@[simp] theorem State.resetRegs_out (p : Nat → Bool) : (s.resetRegs p).out = s.out := rfl
@[simp] theorem State.resetRegs_draws (p : Nat → Bool) : (s.resetRegs p).draws = s.draws := rfl

@[simp] theorem State.emit_pending (o : Out) : (s.emit o).pending = s.pending := rfl
@[simp] theorem State.emit_part (o : Out) : (s.emit o).part = s.part := rfl
@[simp] theorem State.emit_regs (o : Out) : (s.emit o).regs = s.regs := rfl
@[simp] theorem State.emit_sram (o : Out) : (s.emit o).sram = s.sram := rfl
@[simp] theorem State.emit_store (o : Out) : (s.emit o).store = s.store := rfl
@[simp] theorem State.emit_buf (o : Out) : (s.emit o).buf = s.buf := rfl
@[simp] theorem State.emit_atb (o : Out) : (s.emit o).atb = s.atb := rfl
@[simp] theorem State.emit_asc (o : Out) : (s.emit o).asc = s.asc := rfl
@[simp] theorem State.emit_latched (o : Out) : (s.emit o).latched = s.latched := rfl
@[simp] theorem State.emit_irqLines (o : Out) : (s.emit o).irqLines = s.irqLines := rfl
@[simp] theorem State.emit_pcm (o : Out) : (s.emit o).pcm = s.pcm := rfl
@[simp] theorem State.emit_sst (o : Out) : (s.emit o).sst = s.sst := rfl
@[simp] theorem State.emit_sto (o : Out) : (s.emit o).sto = s.sto := rfl
@[simp] theorem State.emit_mor (o : Out) : (s.emit o).mor = s.mor := rfl
@[simp] theorem State.emit_pd (o : Out) : (s.emit o).pd = s.pd := rfl
@[simp] theorem State.emit_link (o : Out) : (s.emit o).link = s.link := rfl
@[simp] theorem State.emit_firn (o : Out) : (s.emit o).firn = s.firn := rfl
@[simp] theorem State.emit_rme (o : Out) : (s.emit o).rme = s.rme := rfl
@[simp] theorem State.emit_ports (o : Out) : (s.emit o).ports = s.ports := rfl
@[simp] theorem State.emit_dma (o : Out) : (s.emit o).dma = s.dma := rfl
@[simp] theorem State.emit_cry (o : Out) : (s.emit o).cry = s.cry := rfl
@[simp] theorem State.emit_chn (o : Out) : (s.emit o).chn = s.chn := rfl
@[simp] theorem State.emit_ord (o : Out) : (s.emit o).ord = s.ord := rfl
@[simp] theorem State.emit_pmx (o : Out) : (s.emit o).pmx = s.pmx := rfl
@[simp] theorem State.emit_srv (o : Out) : (s.emit o).srv = s.srv := rfl
@[simp] theorem State.emit_wsq (o : Out) : (s.emit o).wsq = s.wsq := rfl
@[simp] theorem State.emit_msq (o : Out) : (s.emit o).msq = s.msq := rfl
@[simp] theorem State.emit_uqi (o : Out) : (s.emit o).uqi = s.uqi := rfl
@[simp] theorem State.emit_mgt (o : Out) : (s.emit o).mgt = s.mgt := rfl
@[simp] theorem State.emit_out (o : Out) : (s.emit o).out = s.out ++ [o] := rfl
@[simp] theorem State.emit_draws (o : Out) : (s.emit o).draws = s.draws := rfl

@[simp] theorem State.setEntry_pending (i : Nat) (e : AscEntry) : (s.setEntry i e).pending = s.pending := rfl
@[simp] theorem State.setEntry_part (i : Nat) (e : AscEntry) : (s.setEntry i e).part = s.part := rfl
@[simp] theorem State.setEntry_sram (i : Nat) (e : AscEntry) : (s.setEntry i e).sram = s.sram := rfl
@[simp] theorem State.setEntry_store (i : Nat) (e : AscEntry) : (s.setEntry i e).store = s.store := rfl
@[simp] theorem State.setEntry_buf (i : Nat) (e : AscEntry) : (s.setEntry i e).buf = s.buf := rfl
@[simp] theorem State.setEntry_atb (i : Nat) (e : AscEntry) : (s.setEntry i e).atb = s.atb := rfl
@[simp] theorem State.setEntry_latched (i : Nat) (e : AscEntry) : (s.setEntry i e).latched = s.latched := rfl
@[simp] theorem State.setEntry_irqLines (i : Nat) (e : AscEntry) : (s.setEntry i e).irqLines = s.irqLines := rfl
@[simp] theorem State.setEntry_pcm (i : Nat) (e : AscEntry) : (s.setEntry i e).pcm = s.pcm := rfl
@[simp] theorem State.setEntry_sst (i : Nat) (e : AscEntry) : (s.setEntry i e).sst = s.sst := rfl
@[simp] theorem State.setEntry_sto (i : Nat) (e : AscEntry) : (s.setEntry i e).sto = s.sto := rfl
@[simp] theorem State.setEntry_mor (i : Nat) (e : AscEntry) : (s.setEntry i e).mor = s.mor := rfl
@[simp] theorem State.setEntry_pd (i : Nat) (e : AscEntry) : (s.setEntry i e).pd = s.pd := rfl
@[simp] theorem State.setEntry_link (i : Nat) (e : AscEntry) : (s.setEntry i e).link = s.link := rfl
@[simp] theorem State.setEntry_firn (i : Nat) (e : AscEntry) : (s.setEntry i e).firn = s.firn := rfl
@[simp] theorem State.setEntry_rme (i : Nat) (e : AscEntry) : (s.setEntry i e).rme = s.rme := rfl
@[simp] theorem State.setEntry_ports (i : Nat) (e : AscEntry) : (s.setEntry i e).ports = s.ports := rfl
@[simp] theorem State.setEntry_dma (i : Nat) (e : AscEntry) : (s.setEntry i e).dma = s.dma := rfl
@[simp] theorem State.setEntry_cry (i : Nat) (e : AscEntry) : (s.setEntry i e).cry = s.cry := rfl
@[simp] theorem State.setEntry_chn (i : Nat) (e : AscEntry) : (s.setEntry i e).chn = s.chn := rfl
@[simp] theorem State.setEntry_ord (i : Nat) (e : AscEntry) : (s.setEntry i e).ord = s.ord := rfl
@[simp] theorem State.setEntry_pmx (i : Nat) (e : AscEntry) : (s.setEntry i e).pmx = s.pmx := rfl
@[simp] theorem State.setEntry_srv (i : Nat) (e : AscEntry) : (s.setEntry i e).srv = s.srv := rfl
@[simp] theorem State.setEntry_wsq (i : Nat) (e : AscEntry) : (s.setEntry i e).wsq = s.wsq := rfl
@[simp] theorem State.setEntry_msq (i : Nat) (e : AscEntry) : (s.setEntry i e).msq = s.msq := rfl
@[simp] theorem State.setEntry_uqi (i : Nat) (e : AscEntry) : (s.setEntry i e).uqi = s.uqi := rfl
@[simp] theorem State.setEntry_mgt (i : Nat) (e : AscEntry) : (s.setEntry i e).mgt = s.mgt := rfl
@[simp] theorem State.setEntry_out (i : Nat) (e : AscEntry) : (s.setEntry i e).out = s.out := rfl
@[simp] theorem State.setEntry_draws (i : Nat) (e : AscEntry) : (s.setEntry i e).draws = s.draws := rfl

@[simp] theorem State.setBank_pending (b : Nat) (k : Bank) : (s.setBank b k).pending = s.pending := rfl
@[simp] theorem State.setBank_part (b : Nat) (k : Bank) : (s.setBank b k).part = s.part := rfl
@[simp] theorem State.setBank_regs (b : Nat) (k : Bank) : (s.setBank b k).regs = s.regs := rfl
@[simp] theorem State.setBank_sram (b : Nat) (k : Bank) : (s.setBank b k).sram = s.sram := rfl
@[simp] theorem State.setBank_store (b : Nat) (k : Bank) : (s.setBank b k).store = s.store := rfl
@[simp] theorem State.setBank_buf (b : Nat) (k : Bank) : (s.setBank b k).buf = s.buf := rfl
@[simp] theorem State.setBank_atb (b : Nat) (k : Bank) : (s.setBank b k).atb = s.atb := rfl
@[simp] theorem State.setBank_asc (b : Nat) (k : Bank) : (s.setBank b k).asc = s.asc := rfl
@[simp] theorem State.setBank_latched (b : Nat) (k : Bank) : (s.setBank b k).latched = s.latched := rfl
@[simp] theorem State.setBank_irqLines (b : Nat) (k : Bank) : (s.setBank b k).irqLines = s.irqLines := rfl
@[simp] theorem State.setBank_pcm (b : Nat) (k : Bank) : (s.setBank b k).pcm = s.pcm := rfl
@[simp] theorem State.setBank_sst (b : Nat) (k : Bank) : (s.setBank b k).sst = s.sst := rfl
@[simp] theorem State.setBank_mor (b : Nat) (k : Bank) : (s.setBank b k).mor = s.mor := rfl
@[simp] theorem State.setBank_pd (b : Nat) (k : Bank) : (s.setBank b k).pd = s.pd := rfl
@[simp] theorem State.setBank_link (b : Nat) (k : Bank) : (s.setBank b k).link = s.link := rfl
@[simp] theorem State.setBank_firn (b : Nat) (k : Bank) : (s.setBank b k).firn = s.firn := rfl
@[simp] theorem State.setBank_rme (b : Nat) (k : Bank) : (s.setBank b k).rme = s.rme := rfl
@[simp] theorem State.setBank_ports (b : Nat) (k : Bank) : (s.setBank b k).ports = s.ports := rfl
@[simp] theorem State.setBank_dma (b : Nat) (k : Bank) : (s.setBank b k).dma = s.dma := rfl
@[simp] theorem State.setBank_cry (b : Nat) (k : Bank) : (s.setBank b k).cry = s.cry := rfl
@[simp] theorem State.setBank_chn (b : Nat) (k : Bank) : (s.setBank b k).chn = s.chn := rfl
@[simp] theorem State.setBank_ord (b : Nat) (k : Bank) : (s.setBank b k).ord = s.ord := rfl
@[simp] theorem State.setBank_pmx (b : Nat) (k : Bank) : (s.setBank b k).pmx = s.pmx := rfl
@[simp] theorem State.setBank_srv (b : Nat) (k : Bank) : (s.setBank b k).srv = s.srv := rfl
@[simp] theorem State.setBank_wsq (b : Nat) (k : Bank) : (s.setBank b k).wsq = s.wsq := rfl
@[simp] theorem State.setBank_msq (b : Nat) (k : Bank) : (s.setBank b k).msq = s.msq := rfl
@[simp] theorem State.setBank_uqi (b : Nat) (k : Bank) : (s.setBank b k).uqi = s.uqi := rfl
@[simp] theorem State.setBank_mgt (b : Nat) (k : Bank) : (s.setBank b k).mgt = s.mgt := rfl
@[simp] theorem State.setBank_out (b : Nat) (k : Bank) : (s.setBank b k).out = s.out := rfl
@[simp] theorem State.setBank_draws (b : Nat) (k : Bank) : (s.setBank b k).draws = s.draws := rfl

@[simp] theorem State.setSeq_pending (b : Nat) (r : Req) (q : SeqState) : (s.setSeq b r q).pending = s.pending := rfl
@[simp] theorem State.setSeq_part (b : Nat) (r : Req) (q : SeqState) : (s.setSeq b r q).part = s.part := rfl
@[simp] theorem State.setSeq_regs (b : Nat) (r : Req) (q : SeqState) : (s.setSeq b r q).regs = s.regs := rfl
@[simp] theorem State.setSeq_sram (b : Nat) (r : Req) (q : SeqState) : (s.setSeq b r q).sram = s.sram := rfl
@[simp] theorem State.setSeq_store (b : Nat) (r : Req) (q : SeqState) : (s.setSeq b r q).store = s.store := rfl
@[simp] theorem State.setSeq_buf (b : Nat) (r : Req) (q : SeqState) : (s.setSeq b r q).buf = s.buf := rfl
@[simp] theorem State.setSeq_atb (b : Nat) (r : Req) (q : SeqState) : (s.setSeq b r q).atb = s.atb := rfl
@[simp] theorem State.setSeq_asc (b : Nat) (r : Req) (q : SeqState) : (s.setSeq b r q).asc = s.asc := rfl
@[simp] theorem State.setSeq_latched (b : Nat) (r : Req) (q : SeqState) : (s.setSeq b r q).latched = s.latched := rfl
@[simp] theorem State.setSeq_irqLines (b : Nat) (r : Req) (q : SeqState) : (s.setSeq b r q).irqLines = s.irqLines := rfl
@[simp] theorem State.setSeq_pcm (b : Nat) (r : Req) (q : SeqState) : (s.setSeq b r q).pcm = s.pcm := rfl
@[simp] theorem State.setSeq_sst (b : Nat) (r : Req) (q : SeqState) : (s.setSeq b r q).sst = s.sst := rfl
@[simp] theorem State.setSeq_mor (b : Nat) (r : Req) (q : SeqState) : (s.setSeq b r q).mor = s.mor := rfl
@[simp] theorem State.setSeq_pd (b : Nat) (r : Req) (q : SeqState) : (s.setSeq b r q).pd = s.pd := rfl
@[simp] theorem State.setSeq_link (b : Nat) (r : Req) (q : SeqState) : (s.setSeq b r q).link = s.link := rfl
@[simp] theorem State.setSeq_firn (b : Nat) (r : Req) (q : SeqState) : (s.setSeq b r q).firn = s.firn := rfl
@[simp] theorem State.setSeq_rme (b : Nat) (r : Req) (q : SeqState) : (s.setSeq b r q).rme = s.rme := rfl
@[simp] theorem State.setSeq_ports (b : Nat) (r : Req) (q : SeqState) : (s.setSeq b r q).ports = s.ports := rfl
@[simp] theorem State.setSeq_dma (b : Nat) (r : Req) (q : SeqState) : (s.setSeq b r q).dma = s.dma := rfl
@[simp] theorem State.setSeq_cry (b : Nat) (r : Req) (q : SeqState) : (s.setSeq b r q).cry = s.cry := rfl
@[simp] theorem State.setSeq_chn (b : Nat) (r : Req) (q : SeqState) : (s.setSeq b r q).chn = s.chn := rfl
@[simp] theorem State.setSeq_ord (b : Nat) (r : Req) (q : SeqState) : (s.setSeq b r q).ord = s.ord := rfl
@[simp] theorem State.setSeq_pmx (b : Nat) (r : Req) (q : SeqState) : (s.setSeq b r q).pmx = s.pmx := rfl
@[simp] theorem State.setSeq_srv (b : Nat) (r : Req) (q : SeqState) : (s.setSeq b r q).srv = s.srv := rfl
@[simp] theorem State.setSeq_wsq (b : Nat) (r : Req) (q : SeqState) : (s.setSeq b r q).wsq = s.wsq := rfl
@[simp] theorem State.setSeq_msq (b : Nat) (r : Req) (q : SeqState) : (s.setSeq b r q).msq = s.msq := rfl
@[simp] theorem State.setSeq_uqi (b : Nat) (r : Req) (q : SeqState) : (s.setSeq b r q).uqi = s.uqi := rfl
@[simp] theorem State.setSeq_mgt (b : Nat) (r : Req) (q : SeqState) : (s.setSeq b r q).mgt = s.mgt := rfl
@[simp] theorem State.setSeq_out (b : Nat) (r : Req) (q : SeqState) : (s.setSeq b r q).out = s.out := rfl
@[simp] theorem State.setSeq_draws (b : Nat) (r : Req) (q : SeqState) : (s.setSeq b r q).draws = s.draws := rfl

@[simp] theorem State.setChan_pending (c : Nat) (k : Chan) : (s.setChan c k).pending = s.pending := rfl
@[simp] theorem State.setChan_part (c : Nat) (k : Chan) : (s.setChan c k).part = s.part := rfl
@[simp] theorem State.setChan_regs (c : Nat) (k : Chan) : (s.setChan c k).regs = s.regs := rfl
@[simp] theorem State.setChan_sram (c : Nat) (k : Chan) : (s.setChan c k).sram = s.sram := rfl
@[simp] theorem State.setChan_store (c : Nat) (k : Chan) : (s.setChan c k).store = s.store := rfl
@[simp] theorem State.setChan_buf (c : Nat) (k : Chan) : (s.setChan c k).buf = s.buf := rfl
@[simp] theorem State.setChan_atb (c : Nat) (k : Chan) : (s.setChan c k).atb = s.atb := rfl
@[simp] theorem State.setChan_asc (c : Nat) (k : Chan) : (s.setChan c k).asc = s.asc := rfl
@[simp] theorem State.setChan_latched (c : Nat) (k : Chan) : (s.setChan c k).latched = s.latched := rfl
@[simp] theorem State.setChan_irqLines (c : Nat) (k : Chan) : (s.setChan c k).irqLines = s.irqLines := rfl
@[simp] theorem State.setChan_pcm (c : Nat) (k : Chan) : (s.setChan c k).pcm = s.pcm := rfl
@[simp] theorem State.setChan_sst (c : Nat) (k : Chan) : (s.setChan c k).sst = s.sst := rfl
@[simp] theorem State.setChan_sto (c : Nat) (k : Chan) : (s.setChan c k).sto = s.sto := rfl
@[simp] theorem State.setChan_mor (c : Nat) (k : Chan) : (s.setChan c k).mor = s.mor := rfl
@[simp] theorem State.setChan_pd (c : Nat) (k : Chan) : (s.setChan c k).pd = s.pd := rfl
@[simp] theorem State.setChan_link (c : Nat) (k : Chan) : (s.setChan c k).link = s.link := rfl
@[simp] theorem State.setChan_firn (c : Nat) (k : Chan) : (s.setChan c k).firn = s.firn := rfl
@[simp] theorem State.setChan_rme (c : Nat) (k : Chan) : (s.setChan c k).rme = s.rme := rfl
@[simp] theorem State.setChan_ports (c : Nat) (k : Chan) : (s.setChan c k).ports = s.ports := rfl
@[simp] theorem State.setChan_dma (c : Nat) (k : Chan) : (s.setChan c k).dma = tabPut s.dma {} c k := rfl
@[simp] theorem State.setChan_cry (c : Nat) (k : Chan) : (s.setChan c k).cry = s.cry := rfl
@[simp] theorem State.setChan_chn (c : Nat) (k : Chan) : (s.setChan c k).chn = s.chn := rfl
@[simp] theorem State.setChan_ord (c : Nat) (k : Chan) : (s.setChan c k).ord = s.ord := rfl
@[simp] theorem State.setChan_pmx (c : Nat) (k : Chan) : (s.setChan c k).pmx = s.pmx := rfl
@[simp] theorem State.setChan_srv (c : Nat) (k : Chan) : (s.setChan c k).srv = s.srv := rfl
@[simp] theorem State.setChan_wsq (c : Nat) (k : Chan) : (s.setChan c k).wsq = s.wsq := rfl
@[simp] theorem State.setChan_msq (c : Nat) (k : Chan) : (s.setChan c k).msq = s.msq := rfl
@[simp] theorem State.setChan_uqi (c : Nat) (k : Chan) : (s.setChan c k).uqi = s.uqi := rfl
@[simp] theorem State.setChan_mgt (c : Nat) (k : Chan) : (s.setChan c k).mgt = s.mgt := rfl
@[simp] theorem State.setChan_out (c : Nat) (k : Chan) : (s.setChan c k).out = s.out := rfl
@[simp] theorem State.setChan_draws (c : Nat) (k : Chan) : (s.setChan c k).draws = s.draws := rfl

@[simp] theorem State.setPort_pending (q : Nat) (p : Port) : (s.setPort q p).pending = s.pending := rfl
@[simp] theorem State.setPort_part (q : Nat) (p : Port) : (s.setPort q p).part = s.part := rfl
@[simp] theorem State.setPort_regs (q : Nat) (p : Port) : (s.setPort q p).regs = s.regs := rfl
@[simp] theorem State.setPort_sram (q : Nat) (p : Port) : (s.setPort q p).sram = s.sram := rfl
@[simp] theorem State.setPort_store (q : Nat) (p : Port) : (s.setPort q p).store = s.store := rfl
@[simp] theorem State.setPort_buf (q : Nat) (p : Port) : (s.setPort q p).buf = s.buf := rfl
@[simp] theorem State.setPort_atb (q : Nat) (p : Port) : (s.setPort q p).atb = s.atb := rfl
@[simp] theorem State.setPort_asc (q : Nat) (p : Port) : (s.setPort q p).asc = s.asc := rfl
@[simp] theorem State.setPort_latched (q : Nat) (p : Port) : (s.setPort q p).latched = s.latched := rfl
@[simp] theorem State.setPort_irqLines (q : Nat) (p : Port) : (s.setPort q p).irqLines = s.irqLines := rfl
@[simp] theorem State.setPort_pcm (q : Nat) (p : Port) : (s.setPort q p).pcm = s.pcm := rfl
@[simp] theorem State.setPort_sst (q : Nat) (p : Port) : (s.setPort q p).sst = s.sst := rfl
@[simp] theorem State.setPort_sto (q : Nat) (p : Port) : (s.setPort q p).sto = s.sto := rfl
@[simp] theorem State.setPort_mor (q : Nat) (p : Port) : (s.setPort q p).mor = s.mor := rfl
@[simp] theorem State.setPort_pd (q : Nat) (p : Port) : (s.setPort q p).pd = s.pd := rfl
@[simp] theorem State.setPort_link (q : Nat) (p : Port) : (s.setPort q p).link = s.link := rfl
@[simp] theorem State.setPort_firn (q : Nat) (p : Port) : (s.setPort q p).firn = s.firn := rfl
@[simp] theorem State.setPort_rme (q : Nat) (p : Port) : (s.setPort q p).rme = s.rme := rfl
@[simp] theorem State.setPort_ports (q : Nat) (p : Port) : (s.setPort q p).ports = tabPut s.ports {} q p := rfl
@[simp] theorem State.setPort_dma (q : Nat) (p : Port) : (s.setPort q p).dma = s.dma := rfl
@[simp] theorem State.setPort_cry (q : Nat) (p : Port) : (s.setPort q p).cry = s.cry := rfl
@[simp] theorem State.setPort_chn (q : Nat) (p : Port) : (s.setPort q p).chn = s.chn := rfl
@[simp] theorem State.setPort_ord (q : Nat) (p : Port) : (s.setPort q p).ord = s.ord := rfl
@[simp] theorem State.setPort_pmx (q : Nat) (p : Port) : (s.setPort q p).pmx = s.pmx := rfl
@[simp] theorem State.setPort_srv (q : Nat) (p : Port) : (s.setPort q p).srv = s.srv := rfl
@[simp] theorem State.setPort_wsq (q : Nat) (p : Port) : (s.setPort q p).wsq = s.wsq := rfl
@[simp] theorem State.setPort_msq (q : Nat) (p : Port) : (s.setPort q p).msq = s.msq := rfl
@[simp] theorem State.setPort_uqi (q : Nat) (p : Port) : (s.setPort q p).uqi = s.uqi := rfl
@[simp] theorem State.setPort_mgt (q : Nat) (p : Port) : (s.setPort q p).mgt = s.mgt := rfl
@[simp] theorem State.setPort_out (q : Nat) (p : Port) : (s.setPort q p).out = s.out := rfl
@[simp] theorem State.setPort_draws (q : Nat) (p : Port) : (s.setPort q p).draws = s.draws := rfl

@[simp] theorem State.setKey_pending (p : Nat) (k : List Byte) : (s.setKey p k).pending = s.pending := rfl
@[simp] theorem State.setKey_part (p : Nat) (k : List Byte) : (s.setKey p k).part = s.part := rfl
@[simp] theorem State.setKey_regs (p : Nat) (k : List Byte) : (s.setKey p k).regs = s.regs := rfl
@[simp] theorem State.setKey_sram (p : Nat) (k : List Byte) : (s.setKey p k).sram = s.sram := rfl
@[simp] theorem State.setKey_store (p : Nat) (k : List Byte) : (s.setKey p k).store = s.store := rfl
@[simp] theorem State.setKey_buf (p : Nat) (k : List Byte) : (s.setKey p k).buf = s.buf := rfl
@[simp] theorem State.setKey_atb (p : Nat) (k : List Byte) : (s.setKey p k).atb = s.atb := rfl
@[simp] theorem State.setKey_asc (p : Nat) (k : List Byte) : (s.setKey p k).asc = s.asc := rfl
@[simp] theorem State.setKey_latched (p : Nat) (k : List Byte) : (s.setKey p k).latched = s.latched := rfl
@[simp] theorem State.setKey_irqLines (p : Nat) (k : List Byte) : (s.setKey p k).irqLines = s.irqLines := rfl
@[simp] theorem State.setKey_pcm (p : Nat) (k : List Byte) : (s.setKey p k).pcm = s.pcm := rfl
@[simp] theorem State.setKey_sst (p : Nat) (k : List Byte) : (s.setKey p k).sst = s.sst := rfl
@[simp] theorem State.setKey_sto (p : Nat) (k : List Byte) : (s.setKey p k).sto = s.sto := rfl
@[simp] theorem State.setKey_mor (p : Nat) (k : List Byte) : (s.setKey p k).mor = s.mor := rfl
@[simp] theorem State.setKey_pd (p : Nat) (k : List Byte) : (s.setKey p k).pd = s.pd := rfl
@[simp] theorem State.setKey_link (p : Nat) (k : List Byte) : (s.setKey p k).link = s.link := rfl
@[simp] theorem State.setKey_firn (p : Nat) (k : List Byte) : (s.setKey p k).firn = s.firn := rfl
@[simp] theorem State.setKey_rme (p : Nat) (k : List Byte) : (s.setKey p k).rme = s.rme := rfl
@[simp] theorem State.setKey_ports (p : Nat) (k : List Byte) : (s.setKey p k).ports = s.ports := rfl
@[simp] theorem State.setKey_dma (p : Nat) (k : List Byte) : (s.setKey p k).dma = s.dma := rfl
@[simp] theorem State.setKey_chn (p : Nat) (k : List Byte) : (s.setKey p k).chn = s.chn := rfl
@[simp] theorem State.setKey_ord (p : Nat) (k : List Byte) : (s.setKey p k).ord = s.ord := rfl
@[simp] theorem State.setKey_pmx (p : Nat) (k : List Byte) : (s.setKey p k).pmx = s.pmx := rfl
@[simp] theorem State.setKey_srv (p : Nat) (k : List Byte) : (s.setKey p k).srv = s.srv := rfl
@[simp] theorem State.setKey_wsq (p : Nat) (k : List Byte) : (s.setKey p k).wsq = s.wsq := rfl
@[simp] theorem State.setKey_msq (p : Nat) (k : List Byte) : (s.setKey p k).msq = s.msq := rfl
@[simp] theorem State.setKey_uqi (p : Nat) (k : List Byte) : (s.setKey p k).uqi = s.uqi := rfl
@[simp] theorem State.setKey_mgt (p : Nat) (k : List Byte) : (s.setKey p k).mgt = s.mgt := rfl
@[simp] theorem State.setKey_out (p : Nat) (k : List Byte) : (s.setKey p k).out = s.out := rfl
@[simp] theorem State.setKey_draws (p : Nat) (k : List Byte) : (s.setKey p k).draws = s.draws := rfl

@[simp] theorem State.pdSend_pending (p : Packet) : (s.pdSend p).pending = s.pending := rfl
@[simp] theorem State.pdSend_part (p : Packet) : (s.pdSend p).part = s.part := rfl
@[simp] theorem State.pdSend_regs (p : Packet) : (s.pdSend p).regs = s.regs := rfl
@[simp] theorem State.pdSend_sram (p : Packet) : (s.pdSend p).sram = s.sram := rfl
@[simp] theorem State.pdSend_store (p : Packet) : (s.pdSend p).store = s.store := rfl
@[simp] theorem State.pdSend_buf (p : Packet) : (s.pdSend p).buf = s.buf := rfl
@[simp] theorem State.pdSend_atb (p : Packet) : (s.pdSend p).atb = s.atb := rfl
@[simp] theorem State.pdSend_asc (p : Packet) : (s.pdSend p).asc = s.asc := rfl
@[simp] theorem State.pdSend_latched (p : Packet) : (s.pdSend p).latched = s.latched := rfl
@[simp] theorem State.pdSend_irqLines (p : Packet) : (s.pdSend p).irqLines = s.irqLines := rfl
@[simp] theorem State.pdSend_pcm (p : Packet) : (s.pdSend p).pcm = s.pcm := rfl
@[simp] theorem State.pdSend_sst (p : Packet) : (s.pdSend p).sst = s.sst := rfl
@[simp] theorem State.pdSend_sto (p : Packet) : (s.pdSend p).sto = s.sto := rfl
@[simp] theorem State.pdSend_mor (p : Packet) : (s.pdSend p).mor = s.mor := rfl
@[simp] theorem State.pdSend_pd (p : Packet) : (s.pdSend p).pd = s.pd := rfl
@[simp] theorem State.pdSend_firn (p : Packet) : (s.pdSend p).firn = s.firn := rfl
@[simp] theorem State.pdSend_rme (p : Packet) : (s.pdSend p).rme = s.rme := rfl
@[simp] theorem State.pdSend_ports (p : Packet) : (s.pdSend p).ports = s.ports := rfl
@[simp] theorem State.pdSend_dma (p : Packet) : (s.pdSend p).dma = s.dma := rfl
@[simp] theorem State.pdSend_cry (p : Packet) : (s.pdSend p).cry = s.cry := rfl
@[simp] theorem State.pdSend_chn (p : Packet) : (s.pdSend p).chn = s.chn := rfl
@[simp] theorem State.pdSend_ord (p : Packet) : (s.pdSend p).ord = s.ord := rfl
@[simp] theorem State.pdSend_pmx (p : Packet) : (s.pdSend p).pmx = s.pmx := rfl
@[simp] theorem State.pdSend_srv (p : Packet) : (s.pdSend p).srv = s.srv := rfl
@[simp] theorem State.pdSend_wsq (p : Packet) : (s.pdSend p).wsq = s.wsq := rfl
@[simp] theorem State.pdSend_msq (p : Packet) : (s.pdSend p).msq = s.msq := rfl
@[simp] theorem State.pdSend_uqi (p : Packet) : (s.pdSend p).uqi = s.uqi := rfl
@[simp] theorem State.pdSend_mgt (p : Packet) : (s.pdSend p).mgt = s.mgt := rfl
@[simp] theorem State.pdSend_out (p : Packet) : (s.pdSend p).out = s.out := rfl
@[simp] theorem State.pdSend_draws (p : Packet) : (s.pdSend p).draws = s.draws := rfl

@[simp] theorem State.flnkSend_pending (p : Packet) : (s.flnkSend p).pending = s.pending := rfl
@[simp] theorem State.flnkSend_part (p : Packet) : (s.flnkSend p).part = s.part := rfl
@[simp] theorem State.flnkSend_regs (p : Packet) : (s.flnkSend p).regs = s.regs := rfl
@[simp] theorem State.flnkSend_sram (p : Packet) : (s.flnkSend p).sram = s.sram := rfl
@[simp] theorem State.flnkSend_store (p : Packet) : (s.flnkSend p).store = s.store := rfl
@[simp] theorem State.flnkSend_buf (p : Packet) : (s.flnkSend p).buf = s.buf := rfl
@[simp] theorem State.flnkSend_atb (p : Packet) : (s.flnkSend p).atb = s.atb := rfl
@[simp] theorem State.flnkSend_asc (p : Packet) : (s.flnkSend p).asc = s.asc := rfl
@[simp] theorem State.flnkSend_latched (p : Packet) : (s.flnkSend p).latched = s.latched := rfl
@[simp] theorem State.flnkSend_irqLines (p : Packet) : (s.flnkSend p).irqLines = s.irqLines := rfl
@[simp] theorem State.flnkSend_pcm (p : Packet) : (s.flnkSend p).pcm = s.pcm := rfl
@[simp] theorem State.flnkSend_sst (p : Packet) : (s.flnkSend p).sst = s.sst := rfl
@[simp] theorem State.flnkSend_sto (p : Packet) : (s.flnkSend p).sto = s.sto := rfl
@[simp] theorem State.flnkSend_mor (p : Packet) : (s.flnkSend p).mor = s.mor := rfl
@[simp] theorem State.flnkSend_pd (p : Packet) : (s.flnkSend p).pd = s.pd := rfl
@[simp] theorem State.flnkSend_firn (p : Packet) : (s.flnkSend p).firn = s.firn := rfl
@[simp] theorem State.flnkSend_rme (p : Packet) : (s.flnkSend p).rme = s.rme := rfl
@[simp] theorem State.flnkSend_ports (p : Packet) : (s.flnkSend p).ports = s.ports := rfl
@[simp] theorem State.flnkSend_dma (p : Packet) : (s.flnkSend p).dma = s.dma := rfl
@[simp] theorem State.flnkSend_cry (p : Packet) : (s.flnkSend p).cry = s.cry := rfl
@[simp] theorem State.flnkSend_chn (p : Packet) : (s.flnkSend p).chn = s.chn := rfl
@[simp] theorem State.flnkSend_ord (p : Packet) : (s.flnkSend p).ord = s.ord := rfl
@[simp] theorem State.flnkSend_pmx (p : Packet) : (s.flnkSend p).pmx = s.pmx := rfl
@[simp] theorem State.flnkSend_srv (p : Packet) : (s.flnkSend p).srv = s.srv := rfl
@[simp] theorem State.flnkSend_wsq (p : Packet) : (s.flnkSend p).wsq = s.wsq := rfl
@[simp] theorem State.flnkSend_msq (p : Packet) : (s.flnkSend p).msq = s.msq := rfl
@[simp] theorem State.flnkSend_uqi (p : Packet) : (s.flnkSend p).uqi = s.uqi := rfl
@[simp] theorem State.flnkSend_mgt (p : Packet) : (s.flnkSend p).mgt = s.mgt := rfl
@[simp] theorem State.flnkSend_out (p : Packet) : (s.flnkSend p).out = s.out := rfl
@[simp] theorem State.flnkSend_draws (p : Packet) : (s.flnkSend p).draws = s.draws := rfl

@[simp] theorem State.onAtb_pending (f : AtbState → AtbState) : (s.onAtb f).pending = s.pending := rfl
@[simp] theorem State.onAtb_part (f : AtbState → AtbState) : (s.onAtb f).part = s.part := rfl
@[simp] theorem State.onAtb_regs (f : AtbState → AtbState) : (s.onAtb f).regs = s.regs := rfl
@[simp] theorem State.onAtb_sram (f : AtbState → AtbState) : (s.onAtb f).sram = s.sram := rfl
@[simp] theorem State.onAtb_store (f : AtbState → AtbState) : (s.onAtb f).store = s.store := rfl
@[simp] theorem State.onAtb_buf (f : AtbState → AtbState) : (s.onAtb f).buf = s.buf := rfl
@[simp] theorem State.onAtb_atb (f : AtbState → AtbState) : (s.onAtb f).atb = f s.atb := rfl
@[simp] theorem State.onAtb_asc (f : AtbState → AtbState) : (s.onAtb f).asc = s.asc := rfl
@[simp] theorem State.onAtb_latched (f : AtbState → AtbState) : (s.onAtb f).latched = s.latched := rfl
@[simp] theorem State.onAtb_irqLines (f : AtbState → AtbState) : (s.onAtb f).irqLines = s.irqLines := rfl
@[simp] theorem State.onAtb_pcm (f : AtbState → AtbState) : (s.onAtb f).pcm = s.pcm := rfl
@[simp] theorem State.onAtb_sst (f : AtbState → AtbState) : (s.onAtb f).sst = s.sst := rfl
@[simp] theorem State.onAtb_sto (f : AtbState → AtbState) : (s.onAtb f).sto = s.sto := rfl
@[simp] theorem State.onAtb_mor (f : AtbState → AtbState) : (s.onAtb f).mor = s.mor := rfl
@[simp] theorem State.onAtb_pd (f : AtbState → AtbState) : (s.onAtb f).pd = s.pd := rfl
@[simp] theorem State.onAtb_link (f : AtbState → AtbState) : (s.onAtb f).link = s.link := rfl
@[simp] theorem State.onAtb_firn (f : AtbState → AtbState) : (s.onAtb f).firn = s.firn := rfl
@[simp] theorem State.onAtb_rme (f : AtbState → AtbState) : (s.onAtb f).rme = s.rme := rfl
@[simp] theorem State.onAtb_ports (f : AtbState → AtbState) : (s.onAtb f).ports = s.ports := rfl
@[simp] theorem State.onAtb_dma (f : AtbState → AtbState) : (s.onAtb f).dma = s.dma := rfl
@[simp] theorem State.onAtb_cry (f : AtbState → AtbState) : (s.onAtb f).cry = s.cry := rfl
@[simp] theorem State.onAtb_chn (f : AtbState → AtbState) : (s.onAtb f).chn = s.chn := rfl
@[simp] theorem State.onAtb_ord (f : AtbState → AtbState) : (s.onAtb f).ord = s.ord := rfl
@[simp] theorem State.onAtb_pmx (f : AtbState → AtbState) : (s.onAtb f).pmx = s.pmx := rfl
@[simp] theorem State.onAtb_srv (f : AtbState → AtbState) : (s.onAtb f).srv = s.srv := rfl
@[simp] theorem State.onAtb_wsq (f : AtbState → AtbState) : (s.onAtb f).wsq = s.wsq := rfl
@[simp] theorem State.onAtb_msq (f : AtbState → AtbState) : (s.onAtb f).msq = s.msq := rfl
@[simp] theorem State.onAtb_uqi (f : AtbState → AtbState) : (s.onAtb f).uqi = s.uqi := rfl
@[simp] theorem State.onAtb_mgt (f : AtbState → AtbState) : (s.onAtb f).mgt = s.mgt := rfl
@[simp] theorem State.onAtb_out (f : AtbState → AtbState) : (s.onAtb f).out = s.out := rfl
@[simp] theorem State.onAtb_draws (f : AtbState → AtbState) : (s.onAtb f).draws = s.draws := rfl

@[simp] theorem State.onChn_pending (f : ChnState → ChnState) : (s.onChn f).pending = s.pending := rfl
@[simp] theorem State.onChn_part (f : ChnState → ChnState) : (s.onChn f).part = s.part := rfl
@[simp] theorem State.onChn_regs (f : ChnState → ChnState) : (s.onChn f).regs = s.regs := rfl
@[simp] theorem State.onChn_sram (f : ChnState → ChnState) : (s.onChn f).sram = s.sram := rfl
@[simp] theorem State.onChn_store (f : ChnState → ChnState) : (s.onChn f).store = s.store := rfl
@[simp] theorem State.onChn_buf (f : ChnState → ChnState) : (s.onChn f).buf = s.buf := rfl
@[simp] theorem State.onChn_atb (f : ChnState → ChnState) : (s.onChn f).atb = s.atb := rfl
@[simp] theorem State.onChn_asc (f : ChnState → ChnState) : (s.onChn f).asc = s.asc := rfl
@[simp] theorem State.onChn_latched (f : ChnState → ChnState) : (s.onChn f).latched = s.latched := rfl
@[simp] theorem State.onChn_irqLines (f : ChnState → ChnState) : (s.onChn f).irqLines = s.irqLines := rfl
@[simp] theorem State.onChn_pcm (f : ChnState → ChnState) : (s.onChn f).pcm = s.pcm := rfl
@[simp] theorem State.onChn_sst (f : ChnState → ChnState) : (s.onChn f).sst = s.sst := rfl
@[simp] theorem State.onChn_sto (f : ChnState → ChnState) : (s.onChn f).sto = s.sto := rfl
@[simp] theorem State.onChn_mor (f : ChnState → ChnState) : (s.onChn f).mor = s.mor := rfl
@[simp] theorem State.onChn_pd (f : ChnState → ChnState) : (s.onChn f).pd = s.pd := rfl
@[simp] theorem State.onChn_link (f : ChnState → ChnState) : (s.onChn f).link = s.link := rfl
@[simp] theorem State.onChn_firn (f : ChnState → ChnState) : (s.onChn f).firn = s.firn := rfl
@[simp] theorem State.onChn_rme (f : ChnState → ChnState) : (s.onChn f).rme = s.rme := rfl
@[simp] theorem State.onChn_ports (f : ChnState → ChnState) : (s.onChn f).ports = s.ports := rfl
@[simp] theorem State.onChn_dma (f : ChnState → ChnState) : (s.onChn f).dma = s.dma := rfl
@[simp] theorem State.onChn_cry (f : ChnState → ChnState) : (s.onChn f).cry = s.cry := rfl
@[simp] theorem State.onChn_chn (f : ChnState → ChnState) : (s.onChn f).chn = f s.chn := rfl
@[simp] theorem State.onChn_ord (f : ChnState → ChnState) : (s.onChn f).ord = s.ord := rfl
@[simp] theorem State.onChn_pmx (f : ChnState → ChnState) : (s.onChn f).pmx = s.pmx := rfl
@[simp] theorem State.onChn_srv (f : ChnState → ChnState) : (s.onChn f).srv = s.srv := rfl
@[simp] theorem State.onChn_wsq (f : ChnState → ChnState) : (s.onChn f).wsq = s.wsq := rfl
@[simp] theorem State.onChn_msq (f : ChnState → ChnState) : (s.onChn f).msq = s.msq := rfl
@[simp] theorem State.onChn_uqi (f : ChnState → ChnState) : (s.onChn f).uqi = s.uqi := rfl
@[simp] theorem State.onChn_mgt (f : ChnState → ChnState) : (s.onChn f).mgt = s.mgt := rfl
@[simp] theorem State.onChn_out (f : ChnState → ChnState) : (s.onChn f).out = s.out := rfl
@[simp] theorem State.onChn_draws (f : ChnState → ChnState) : (s.onChn f).draws = s.draws := rfl

@[simp] theorem State.onFirn_pending (f : FirnState → FirnState) : (s.onFirn f).pending = s.pending := rfl
@[simp] theorem State.onFirn_part (f : FirnState → FirnState) : (s.onFirn f).part = s.part := rfl
@[simp] theorem State.onFirn_regs (f : FirnState → FirnState) : (s.onFirn f).regs = s.regs := rfl
@[simp] theorem State.onFirn_sram (f : FirnState → FirnState) : (s.onFirn f).sram = s.sram := rfl
@[simp] theorem State.onFirn_store (f : FirnState → FirnState) : (s.onFirn f).store = s.store := rfl
@[simp] theorem State.onFirn_buf (f : FirnState → FirnState) : (s.onFirn f).buf = s.buf := rfl
@[simp] theorem State.onFirn_atb (f : FirnState → FirnState) : (s.onFirn f).atb = s.atb := rfl
@[simp] theorem State.onFirn_asc (f : FirnState → FirnState) : (s.onFirn f).asc = s.asc := rfl
@[simp] theorem State.onFirn_latched (f : FirnState → FirnState) : (s.onFirn f).latched = s.latched := rfl
@[simp] theorem State.onFirn_irqLines (f : FirnState → FirnState) : (s.onFirn f).irqLines = s.irqLines := rfl
@[simp] theorem State.onFirn_pcm (f : FirnState → FirnState) : (s.onFirn f).pcm = s.pcm := rfl
@[simp] theorem State.onFirn_sst (f : FirnState → FirnState) : (s.onFirn f).sst = s.sst := rfl
@[simp] theorem State.onFirn_sto (f : FirnState → FirnState) : (s.onFirn f).sto = s.sto := rfl
@[simp] theorem State.onFirn_mor (f : FirnState → FirnState) : (s.onFirn f).mor = s.mor := rfl
@[simp] theorem State.onFirn_pd (f : FirnState → FirnState) : (s.onFirn f).pd = s.pd := rfl
@[simp] theorem State.onFirn_link (f : FirnState → FirnState) : (s.onFirn f).link = s.link := rfl
@[simp] theorem State.onFirn_firn (f : FirnState → FirnState) : (s.onFirn f).firn = f s.firn := rfl
@[simp] theorem State.onFirn_rme (f : FirnState → FirnState) : (s.onFirn f).rme = s.rme := rfl
@[simp] theorem State.onFirn_ports (f : FirnState → FirnState) : (s.onFirn f).ports = s.ports := rfl
@[simp] theorem State.onFirn_dma (f : FirnState → FirnState) : (s.onFirn f).dma = s.dma := rfl
@[simp] theorem State.onFirn_cry (f : FirnState → FirnState) : (s.onFirn f).cry = s.cry := rfl
@[simp] theorem State.onFirn_chn (f : FirnState → FirnState) : (s.onFirn f).chn = s.chn := rfl
@[simp] theorem State.onFirn_ord (f : FirnState → FirnState) : (s.onFirn f).ord = s.ord := rfl
@[simp] theorem State.onFirn_pmx (f : FirnState → FirnState) : (s.onFirn f).pmx = s.pmx := rfl
@[simp] theorem State.onFirn_srv (f : FirnState → FirnState) : (s.onFirn f).srv = s.srv := rfl
@[simp] theorem State.onFirn_wsq (f : FirnState → FirnState) : (s.onFirn f).wsq = s.wsq := rfl
@[simp] theorem State.onFirn_msq (f : FirnState → FirnState) : (s.onFirn f).msq = s.msq := rfl
@[simp] theorem State.onFirn_uqi (f : FirnState → FirnState) : (s.onFirn f).uqi = s.uqi := rfl
@[simp] theorem State.onFirn_mgt (f : FirnState → FirnState) : (s.onFirn f).mgt = s.mgt := rfl
@[simp] theorem State.onFirn_out (f : FirnState → FirnState) : (s.onFirn f).out = s.out := rfl
@[simp] theorem State.onFirn_draws (f : FirnState → FirnState) : (s.onFirn f).draws = s.draws := rfl

@[simp] theorem State.onMgt_pending (f : MgtState → MgtState) : (s.onMgt f).pending = s.pending := rfl
@[simp] theorem State.onMgt_part (f : MgtState → MgtState) : (s.onMgt f).part = s.part := rfl
@[simp] theorem State.onMgt_regs (f : MgtState → MgtState) : (s.onMgt f).regs = s.regs := rfl
@[simp] theorem State.onMgt_sram (f : MgtState → MgtState) : (s.onMgt f).sram = s.sram := rfl
@[simp] theorem State.onMgt_store (f : MgtState → MgtState) : (s.onMgt f).store = s.store := rfl
@[simp] theorem State.onMgt_buf (f : MgtState → MgtState) : (s.onMgt f).buf = s.buf := rfl
@[simp] theorem State.onMgt_atb (f : MgtState → MgtState) : (s.onMgt f).atb = s.atb := rfl
@[simp] theorem State.onMgt_asc (f : MgtState → MgtState) : (s.onMgt f).asc = s.asc := rfl
@[simp] theorem State.onMgt_latched (f : MgtState → MgtState) : (s.onMgt f).latched = s.latched := rfl
@[simp] theorem State.onMgt_irqLines (f : MgtState → MgtState) : (s.onMgt f).irqLines = s.irqLines := rfl
@[simp] theorem State.onMgt_pcm (f : MgtState → MgtState) : (s.onMgt f).pcm = s.pcm := rfl
@[simp] theorem State.onMgt_sst (f : MgtState → MgtState) : (s.onMgt f).sst = s.sst := rfl
@[simp] theorem State.onMgt_sto (f : MgtState → MgtState) : (s.onMgt f).sto = s.sto := rfl
@[simp] theorem State.onMgt_mor (f : MgtState → MgtState) : (s.onMgt f).mor = s.mor := rfl
@[simp] theorem State.onMgt_pd (f : MgtState → MgtState) : (s.onMgt f).pd = s.pd := rfl
@[simp] theorem State.onMgt_link (f : MgtState → MgtState) : (s.onMgt f).link = s.link := rfl
@[simp] theorem State.onMgt_firn (f : MgtState → MgtState) : (s.onMgt f).firn = s.firn := rfl
@[simp] theorem State.onMgt_rme (f : MgtState → MgtState) : (s.onMgt f).rme = s.rme := rfl
@[simp] theorem State.onMgt_ports (f : MgtState → MgtState) : (s.onMgt f).ports = s.ports := rfl
@[simp] theorem State.onMgt_dma (f : MgtState → MgtState) : (s.onMgt f).dma = s.dma := rfl
@[simp] theorem State.onMgt_cry (f : MgtState → MgtState) : (s.onMgt f).cry = s.cry := rfl
@[simp] theorem State.onMgt_chn (f : MgtState → MgtState) : (s.onMgt f).chn = s.chn := rfl
@[simp] theorem State.onMgt_ord (f : MgtState → MgtState) : (s.onMgt f).ord = s.ord := rfl
@[simp] theorem State.onMgt_pmx (f : MgtState → MgtState) : (s.onMgt f).pmx = s.pmx := rfl
@[simp] theorem State.onMgt_srv (f : MgtState → MgtState) : (s.onMgt f).srv = s.srv := rfl
@[simp] theorem State.onMgt_wsq (f : MgtState → MgtState) : (s.onMgt f).wsq = s.wsq := rfl
@[simp] theorem State.onMgt_msq (f : MgtState → MgtState) : (s.onMgt f).msq = s.msq := rfl
@[simp] theorem State.onMgt_uqi (f : MgtState → MgtState) : (s.onMgt f).uqi = s.uqi := rfl
@[simp] theorem State.onMgt_mgt (f : MgtState → MgtState) : (s.onMgt f).mgt = f s.mgt := rfl
@[simp] theorem State.onMgt_out (f : MgtState → MgtState) : (s.onMgt f).out = s.out := rfl
@[simp] theorem State.onMgt_draws (f : MgtState → MgtState) : (s.onMgt f).draws = s.draws := rfl

@[simp] theorem State.onMsq_pending (f : MsqState → MsqState) : (s.onMsq f).pending = s.pending := rfl
@[simp] theorem State.onMsq_part (f : MsqState → MsqState) : (s.onMsq f).part = s.part := rfl
@[simp] theorem State.onMsq_regs (f : MsqState → MsqState) : (s.onMsq f).regs = s.regs := rfl
@[simp] theorem State.onMsq_sram (f : MsqState → MsqState) : (s.onMsq f).sram = s.sram := rfl
@[simp] theorem State.onMsq_store (f : MsqState → MsqState) : (s.onMsq f).store = s.store := rfl
@[simp] theorem State.onMsq_buf (f : MsqState → MsqState) : (s.onMsq f).buf = s.buf := rfl
@[simp] theorem State.onMsq_atb (f : MsqState → MsqState) : (s.onMsq f).atb = s.atb := rfl
@[simp] theorem State.onMsq_asc (f : MsqState → MsqState) : (s.onMsq f).asc = s.asc := rfl
@[simp] theorem State.onMsq_latched (f : MsqState → MsqState) : (s.onMsq f).latched = s.latched := rfl
@[simp] theorem State.onMsq_irqLines (f : MsqState → MsqState) : (s.onMsq f).irqLines = s.irqLines := rfl
@[simp] theorem State.onMsq_pcm (f : MsqState → MsqState) : (s.onMsq f).pcm = s.pcm := rfl
@[simp] theorem State.onMsq_sst (f : MsqState → MsqState) : (s.onMsq f).sst = s.sst := rfl
@[simp] theorem State.onMsq_sto (f : MsqState → MsqState) : (s.onMsq f).sto = s.sto := rfl
@[simp] theorem State.onMsq_mor (f : MsqState → MsqState) : (s.onMsq f).mor = s.mor := rfl
@[simp] theorem State.onMsq_pd (f : MsqState → MsqState) : (s.onMsq f).pd = s.pd := rfl
@[simp] theorem State.onMsq_link (f : MsqState → MsqState) : (s.onMsq f).link = s.link := rfl
@[simp] theorem State.onMsq_firn (f : MsqState → MsqState) : (s.onMsq f).firn = s.firn := rfl
@[simp] theorem State.onMsq_rme (f : MsqState → MsqState) : (s.onMsq f).rme = s.rme := rfl
@[simp] theorem State.onMsq_ports (f : MsqState → MsqState) : (s.onMsq f).ports = s.ports := rfl
@[simp] theorem State.onMsq_dma (f : MsqState → MsqState) : (s.onMsq f).dma = s.dma := rfl
@[simp] theorem State.onMsq_cry (f : MsqState → MsqState) : (s.onMsq f).cry = s.cry := rfl
@[simp] theorem State.onMsq_chn (f : MsqState → MsqState) : (s.onMsq f).chn = s.chn := rfl
@[simp] theorem State.onMsq_ord (f : MsqState → MsqState) : (s.onMsq f).ord = s.ord := rfl
@[simp] theorem State.onMsq_pmx (f : MsqState → MsqState) : (s.onMsq f).pmx = s.pmx := rfl
@[simp] theorem State.onMsq_srv (f : MsqState → MsqState) : (s.onMsq f).srv = s.srv := rfl
@[simp] theorem State.onMsq_wsq (f : MsqState → MsqState) : (s.onMsq f).wsq = s.wsq := rfl
@[simp] theorem State.onMsq_msq (f : MsqState → MsqState) : (s.onMsq f).msq = f s.msq := rfl
@[simp] theorem State.onMsq_uqi (f : MsqState → MsqState) : (s.onMsq f).uqi = s.uqi := rfl
@[simp] theorem State.onMsq_mgt (f : MsqState → MsqState) : (s.onMsq f).mgt = s.mgt := rfl
@[simp] theorem State.onMsq_out (f : MsqState → MsqState) : (s.onMsq f).out = s.out := rfl
@[simp] theorem State.onMsq_draws (f : MsqState → MsqState) : (s.onMsq f).draws = s.draws := rfl

@[simp] theorem State.onOrd_pending (f : OrdState → OrdState) : (s.onOrd f).pending = s.pending := rfl
@[simp] theorem State.onOrd_part (f : OrdState → OrdState) : (s.onOrd f).part = s.part := rfl
@[simp] theorem State.onOrd_regs (f : OrdState → OrdState) : (s.onOrd f).regs = s.regs := rfl
@[simp] theorem State.onOrd_sram (f : OrdState → OrdState) : (s.onOrd f).sram = s.sram := rfl
@[simp] theorem State.onOrd_store (f : OrdState → OrdState) : (s.onOrd f).store = s.store := rfl
@[simp] theorem State.onOrd_buf (f : OrdState → OrdState) : (s.onOrd f).buf = s.buf := rfl
@[simp] theorem State.onOrd_atb (f : OrdState → OrdState) : (s.onOrd f).atb = s.atb := rfl
@[simp] theorem State.onOrd_asc (f : OrdState → OrdState) : (s.onOrd f).asc = s.asc := rfl
@[simp] theorem State.onOrd_latched (f : OrdState → OrdState) : (s.onOrd f).latched = s.latched := rfl
@[simp] theorem State.onOrd_irqLines (f : OrdState → OrdState) : (s.onOrd f).irqLines = s.irqLines := rfl
@[simp] theorem State.onOrd_pcm (f : OrdState → OrdState) : (s.onOrd f).pcm = s.pcm := rfl
@[simp] theorem State.onOrd_sst (f : OrdState → OrdState) : (s.onOrd f).sst = s.sst := rfl
@[simp] theorem State.onOrd_sto (f : OrdState → OrdState) : (s.onOrd f).sto = s.sto := rfl
@[simp] theorem State.onOrd_mor (f : OrdState → OrdState) : (s.onOrd f).mor = s.mor := rfl
@[simp] theorem State.onOrd_pd (f : OrdState → OrdState) : (s.onOrd f).pd = s.pd := rfl
@[simp] theorem State.onOrd_link (f : OrdState → OrdState) : (s.onOrd f).link = s.link := rfl
@[simp] theorem State.onOrd_firn (f : OrdState → OrdState) : (s.onOrd f).firn = s.firn := rfl
@[simp] theorem State.onOrd_rme (f : OrdState → OrdState) : (s.onOrd f).rme = s.rme := rfl
@[simp] theorem State.onOrd_ports (f : OrdState → OrdState) : (s.onOrd f).ports = s.ports := rfl
@[simp] theorem State.onOrd_dma (f : OrdState → OrdState) : (s.onOrd f).dma = s.dma := rfl
@[simp] theorem State.onOrd_cry (f : OrdState → OrdState) : (s.onOrd f).cry = s.cry := rfl
@[simp] theorem State.onOrd_chn (f : OrdState → OrdState) : (s.onOrd f).chn = s.chn := rfl
@[simp] theorem State.onOrd_ord (f : OrdState → OrdState) : (s.onOrd f).ord = f s.ord := rfl
@[simp] theorem State.onOrd_pmx (f : OrdState → OrdState) : (s.onOrd f).pmx = s.pmx := rfl
@[simp] theorem State.onOrd_srv (f : OrdState → OrdState) : (s.onOrd f).srv = s.srv := rfl
@[simp] theorem State.onOrd_wsq (f : OrdState → OrdState) : (s.onOrd f).wsq = s.wsq := rfl
@[simp] theorem State.onOrd_msq (f : OrdState → OrdState) : (s.onOrd f).msq = s.msq := rfl
@[simp] theorem State.onOrd_uqi (f : OrdState → OrdState) : (s.onOrd f).uqi = s.uqi := rfl
@[simp] theorem State.onOrd_mgt (f : OrdState → OrdState) : (s.onOrd f).mgt = s.mgt := rfl
@[simp] theorem State.onOrd_out (f : OrdState → OrdState) : (s.onOrd f).out = s.out := rfl
@[simp] theorem State.onOrd_draws (f : OrdState → OrdState) : (s.onOrd f).draws = s.draws := rfl

@[simp] theorem State.onPcm_pending (f : PcmState → PcmState) : (s.onPcm f).pending = s.pending := rfl
@[simp] theorem State.onPcm_part (f : PcmState → PcmState) : (s.onPcm f).part = s.part := rfl
@[simp] theorem State.onPcm_regs (f : PcmState → PcmState) : (s.onPcm f).regs = s.regs := rfl
@[simp] theorem State.onPcm_sram (f : PcmState → PcmState) : (s.onPcm f).sram = s.sram := rfl
@[simp] theorem State.onPcm_store (f : PcmState → PcmState) : (s.onPcm f).store = s.store := rfl
@[simp] theorem State.onPcm_buf (f : PcmState → PcmState) : (s.onPcm f).buf = s.buf := rfl
@[simp] theorem State.onPcm_atb (f : PcmState → PcmState) : (s.onPcm f).atb = s.atb := rfl
@[simp] theorem State.onPcm_asc (f : PcmState → PcmState) : (s.onPcm f).asc = s.asc := rfl
@[simp] theorem State.onPcm_latched (f : PcmState → PcmState) : (s.onPcm f).latched = s.latched := rfl
@[simp] theorem State.onPcm_irqLines (f : PcmState → PcmState) : (s.onPcm f).irqLines = s.irqLines := rfl
@[simp] theorem State.onPcm_pcm (f : PcmState → PcmState) : (s.onPcm f).pcm = f s.pcm := rfl
@[simp] theorem State.onPcm_sst (f : PcmState → PcmState) : (s.onPcm f).sst = s.sst := rfl
@[simp] theorem State.onPcm_sto (f : PcmState → PcmState) : (s.onPcm f).sto = s.sto := rfl
@[simp] theorem State.onPcm_mor (f : PcmState → PcmState) : (s.onPcm f).mor = s.mor := rfl
@[simp] theorem State.onPcm_pd (f : PcmState → PcmState) : (s.onPcm f).pd = s.pd := rfl
@[simp] theorem State.onPcm_link (f : PcmState → PcmState) : (s.onPcm f).link = s.link := rfl
@[simp] theorem State.onPcm_firn (f : PcmState → PcmState) : (s.onPcm f).firn = s.firn := rfl
@[simp] theorem State.onPcm_rme (f : PcmState → PcmState) : (s.onPcm f).rme = s.rme := rfl
@[simp] theorem State.onPcm_ports (f : PcmState → PcmState) : (s.onPcm f).ports = s.ports := rfl
@[simp] theorem State.onPcm_dma (f : PcmState → PcmState) : (s.onPcm f).dma = s.dma := rfl
@[simp] theorem State.onPcm_cry (f : PcmState → PcmState) : (s.onPcm f).cry = s.cry := rfl
@[simp] theorem State.onPcm_chn (f : PcmState → PcmState) : (s.onPcm f).chn = s.chn := rfl
@[simp] theorem State.onPcm_ord (f : PcmState → PcmState) : (s.onPcm f).ord = s.ord := rfl
@[simp] theorem State.onPcm_pmx (f : PcmState → PcmState) : (s.onPcm f).pmx = s.pmx := rfl
@[simp] theorem State.onPcm_srv (f : PcmState → PcmState) : (s.onPcm f).srv = s.srv := rfl
@[simp] theorem State.onPcm_wsq (f : PcmState → PcmState) : (s.onPcm f).wsq = s.wsq := rfl
@[simp] theorem State.onPcm_msq (f : PcmState → PcmState) : (s.onPcm f).msq = s.msq := rfl
@[simp] theorem State.onPcm_uqi (f : PcmState → PcmState) : (s.onPcm f).uqi = s.uqi := rfl
@[simp] theorem State.onPcm_mgt (f : PcmState → PcmState) : (s.onPcm f).mgt = s.mgt := rfl
@[simp] theorem State.onPcm_out (f : PcmState → PcmState) : (s.onPcm f).out = s.out := rfl
@[simp] theorem State.onPcm_draws (f : PcmState → PcmState) : (s.onPcm f).draws = s.draws := rfl

@[simp] theorem State.onSst_pending (f : SstState → SstState) : (s.onSst f).pending = s.pending := rfl
@[simp] theorem State.onSst_part (f : SstState → SstState) : (s.onSst f).part = s.part := rfl
@[simp] theorem State.onSst_regs (f : SstState → SstState) : (s.onSst f).regs = s.regs := rfl
@[simp] theorem State.onSst_sram (f : SstState → SstState) : (s.onSst f).sram = s.sram := rfl
@[simp] theorem State.onSst_store (f : SstState → SstState) : (s.onSst f).store = s.store := rfl
@[simp] theorem State.onSst_buf (f : SstState → SstState) : (s.onSst f).buf = s.buf := rfl
@[simp] theorem State.onSst_atb (f : SstState → SstState) : (s.onSst f).atb = s.atb := rfl
@[simp] theorem State.onSst_asc (f : SstState → SstState) : (s.onSst f).asc = s.asc := rfl
@[simp] theorem State.onSst_latched (f : SstState → SstState) : (s.onSst f).latched = s.latched := rfl
@[simp] theorem State.onSst_irqLines (f : SstState → SstState) : (s.onSst f).irqLines = s.irqLines := rfl
@[simp] theorem State.onSst_pcm (f : SstState → SstState) : (s.onSst f).pcm = s.pcm := rfl
@[simp] theorem State.onSst_sst (f : SstState → SstState) : (s.onSst f).sst = f s.sst := rfl
@[simp] theorem State.onSst_sto (f : SstState → SstState) : (s.onSst f).sto = s.sto := rfl
@[simp] theorem State.onSst_mor (f : SstState → SstState) : (s.onSst f).mor = s.mor := rfl
@[simp] theorem State.onSst_pd (f : SstState → SstState) : (s.onSst f).pd = s.pd := rfl
@[simp] theorem State.onSst_link (f : SstState → SstState) : (s.onSst f).link = s.link := rfl
@[simp] theorem State.onSst_firn (f : SstState → SstState) : (s.onSst f).firn = s.firn := rfl
@[simp] theorem State.onSst_rme (f : SstState → SstState) : (s.onSst f).rme = s.rme := rfl
@[simp] theorem State.onSst_ports (f : SstState → SstState) : (s.onSst f).ports = s.ports := rfl
@[simp] theorem State.onSst_dma (f : SstState → SstState) : (s.onSst f).dma = s.dma := rfl
@[simp] theorem State.onSst_cry (f : SstState → SstState) : (s.onSst f).cry = s.cry := rfl
@[simp] theorem State.onSst_chn (f : SstState → SstState) : (s.onSst f).chn = s.chn := rfl
@[simp] theorem State.onSst_ord (f : SstState → SstState) : (s.onSst f).ord = s.ord := rfl
@[simp] theorem State.onSst_pmx (f : SstState → SstState) : (s.onSst f).pmx = s.pmx := rfl
@[simp] theorem State.onSst_srv (f : SstState → SstState) : (s.onSst f).srv = s.srv := rfl
@[simp] theorem State.onSst_wsq (f : SstState → SstState) : (s.onSst f).wsq = s.wsq := rfl
@[simp] theorem State.onSst_msq (f : SstState → SstState) : (s.onSst f).msq = s.msq := rfl
@[simp] theorem State.onSst_uqi (f : SstState → SstState) : (s.onSst f).uqi = s.uqi := rfl
@[simp] theorem State.onSst_mgt (f : SstState → SstState) : (s.onSst f).mgt = s.mgt := rfl
@[simp] theorem State.onSst_out (f : SstState → SstState) : (s.onSst f).out = s.out := rfl
@[simp] theorem State.onSst_draws (f : SstState → SstState) : (s.onSst f).draws = s.draws := rfl

@[simp] theorem State.onPd_pending (f : PdState → PdState) : (s.onPd f).pending = s.pending := rfl
@[simp] theorem State.onPd_part (f : PdState → PdState) : (s.onPd f).part = s.part := rfl
@[simp] theorem State.onPd_regs (f : PdState → PdState) : (s.onPd f).regs = s.regs := rfl
@[simp] theorem State.onPd_sram (f : PdState → PdState) : (s.onPd f).sram = s.sram := rfl
@[simp] theorem State.onPd_store (f : PdState → PdState) : (s.onPd f).store = s.store := rfl
@[simp] theorem State.onPd_buf (f : PdState → PdState) : (s.onPd f).buf = s.buf := rfl
@[simp] theorem State.onPd_atb (f : PdState → PdState) : (s.onPd f).atb = s.atb := rfl
@[simp] theorem State.onPd_asc (f : PdState → PdState) : (s.onPd f).asc = s.asc := rfl
@[simp] theorem State.onPd_latched (f : PdState → PdState) : (s.onPd f).latched = s.latched := rfl
@[simp] theorem State.onPd_irqLines (f : PdState → PdState) : (s.onPd f).irqLines = s.irqLines := rfl
@[simp] theorem State.onPd_pcm (f : PdState → PdState) : (s.onPd f).pcm = s.pcm := rfl
@[simp] theorem State.onPd_sst (f : PdState → PdState) : (s.onPd f).sst = s.sst := rfl
@[simp] theorem State.onPd_sto (f : PdState → PdState) : (s.onPd f).sto = s.sto := rfl
@[simp] theorem State.onPd_mor (f : PdState → PdState) : (s.onPd f).mor = s.mor := rfl
@[simp] theorem State.onPd_pd (f : PdState → PdState) : (s.onPd f).pd = f s.pd := rfl
@[simp] theorem State.onPd_link (f : PdState → PdState) : (s.onPd f).link = s.link := rfl
@[simp] theorem State.onPd_firn (f : PdState → PdState) : (s.onPd f).firn = s.firn := rfl
@[simp] theorem State.onPd_rme (f : PdState → PdState) : (s.onPd f).rme = s.rme := rfl
@[simp] theorem State.onPd_ports (f : PdState → PdState) : (s.onPd f).ports = s.ports := rfl
@[simp] theorem State.onPd_dma (f : PdState → PdState) : (s.onPd f).dma = s.dma := rfl
@[simp] theorem State.onPd_cry (f : PdState → PdState) : (s.onPd f).cry = s.cry := rfl
@[simp] theorem State.onPd_chn (f : PdState → PdState) : (s.onPd f).chn = s.chn := rfl
@[simp] theorem State.onPd_ord (f : PdState → PdState) : (s.onPd f).ord = s.ord := rfl
@[simp] theorem State.onPd_pmx (f : PdState → PdState) : (s.onPd f).pmx = s.pmx := rfl
@[simp] theorem State.onPd_srv (f : PdState → PdState) : (s.onPd f).srv = s.srv := rfl
@[simp] theorem State.onPd_wsq (f : PdState → PdState) : (s.onPd f).wsq = s.wsq := rfl
@[simp] theorem State.onPd_msq (f : PdState → PdState) : (s.onPd f).msq = s.msq := rfl
@[simp] theorem State.onPd_uqi (f : PdState → PdState) : (s.onPd f).uqi = s.uqi := rfl
@[simp] theorem State.onPd_mgt (f : PdState → PdState) : (s.onPd f).mgt = s.mgt := rfl
@[simp] theorem State.onPd_out (f : PdState → PdState) : (s.onPd f).out = s.out := rfl
@[simp] theorem State.onPd_draws (f : PdState → PdState) : (s.onPd f).draws = s.draws := rfl

@[simp] theorem State.onPmx_pending (f : PmxState → PmxState) : (s.onPmx f).pending = s.pending := rfl
@[simp] theorem State.onPmx_part (f : PmxState → PmxState) : (s.onPmx f).part = s.part := rfl
@[simp] theorem State.onPmx_regs (f : PmxState → PmxState) : (s.onPmx f).regs = s.regs := rfl
@[simp] theorem State.onPmx_sram (f : PmxState → PmxState) : (s.onPmx f).sram = s.sram := rfl
@[simp] theorem State.onPmx_store (f : PmxState → PmxState) : (s.onPmx f).store = s.store := rfl
@[simp] theorem State.onPmx_buf (f : PmxState → PmxState) : (s.onPmx f).buf = s.buf := rfl
@[simp] theorem State.onPmx_atb (f : PmxState → PmxState) : (s.onPmx f).atb = s.atb := rfl
@[simp] theorem State.onPmx_asc (f : PmxState → PmxState) : (s.onPmx f).asc = s.asc := rfl
@[simp] theorem State.onPmx_latched (f : PmxState → PmxState) : (s.onPmx f).latched = s.latched := rfl
@[simp] theorem State.onPmx_irqLines (f : PmxState → PmxState) : (s.onPmx f).irqLines = s.irqLines := rfl
@[simp] theorem State.onPmx_pcm (f : PmxState → PmxState) : (s.onPmx f).pcm = s.pcm := rfl
@[simp] theorem State.onPmx_sst (f : PmxState → PmxState) : (s.onPmx f).sst = s.sst := rfl
@[simp] theorem State.onPmx_sto (f : PmxState → PmxState) : (s.onPmx f).sto = s.sto := rfl
@[simp] theorem State.onPmx_mor (f : PmxState → PmxState) : (s.onPmx f).mor = s.mor := rfl
@[simp] theorem State.onPmx_pd (f : PmxState → PmxState) : (s.onPmx f).pd = s.pd := rfl
@[simp] theorem State.onPmx_link (f : PmxState → PmxState) : (s.onPmx f).link = s.link := rfl
@[simp] theorem State.onPmx_firn (f : PmxState → PmxState) : (s.onPmx f).firn = s.firn := rfl
@[simp] theorem State.onPmx_rme (f : PmxState → PmxState) : (s.onPmx f).rme = s.rme := rfl
@[simp] theorem State.onPmx_ports (f : PmxState → PmxState) : (s.onPmx f).ports = s.ports := rfl
@[simp] theorem State.onPmx_dma (f : PmxState → PmxState) : (s.onPmx f).dma = s.dma := rfl
@[simp] theorem State.onPmx_cry (f : PmxState → PmxState) : (s.onPmx f).cry = s.cry := rfl
@[simp] theorem State.onPmx_chn (f : PmxState → PmxState) : (s.onPmx f).chn = s.chn := rfl
@[simp] theorem State.onPmx_ord (f : PmxState → PmxState) : (s.onPmx f).ord = s.ord := rfl
@[simp] theorem State.onPmx_pmx (f : PmxState → PmxState) : (s.onPmx f).pmx = f s.pmx := rfl
@[simp] theorem State.onPmx_srv (f : PmxState → PmxState) : (s.onPmx f).srv = s.srv := rfl
@[simp] theorem State.onPmx_wsq (f : PmxState → PmxState) : (s.onPmx f).wsq = s.wsq := rfl
@[simp] theorem State.onPmx_msq (f : PmxState → PmxState) : (s.onPmx f).msq = s.msq := rfl
@[simp] theorem State.onPmx_uqi (f : PmxState → PmxState) : (s.onPmx f).uqi = s.uqi := rfl
@[simp] theorem State.onPmx_mgt (f : PmxState → PmxState) : (s.onPmx f).mgt = s.mgt := rfl
@[simp] theorem State.onPmx_out (f : PmxState → PmxState) : (s.onPmx f).out = s.out := rfl
@[simp] theorem State.onPmx_draws (f : PmxState → PmxState) : (s.onPmx f).draws = s.draws := rfl

@[simp] theorem State.onSrv_pending (f : SrvState → SrvState) : (s.onSrv f).pending = s.pending := rfl
@[simp] theorem State.onSrv_part (f : SrvState → SrvState) : (s.onSrv f).part = s.part := rfl
@[simp] theorem State.onSrv_regs (f : SrvState → SrvState) : (s.onSrv f).regs = s.regs := rfl
@[simp] theorem State.onSrv_sram (f : SrvState → SrvState) : (s.onSrv f).sram = s.sram := rfl
@[simp] theorem State.onSrv_store (f : SrvState → SrvState) : (s.onSrv f).store = s.store := rfl
@[simp] theorem State.onSrv_buf (f : SrvState → SrvState) : (s.onSrv f).buf = s.buf := rfl
@[simp] theorem State.onSrv_atb (f : SrvState → SrvState) : (s.onSrv f).atb = s.atb := rfl
@[simp] theorem State.onSrv_asc (f : SrvState → SrvState) : (s.onSrv f).asc = s.asc := rfl
@[simp] theorem State.onSrv_latched (f : SrvState → SrvState) : (s.onSrv f).latched = s.latched := rfl
@[simp] theorem State.onSrv_irqLines (f : SrvState → SrvState) : (s.onSrv f).irqLines = s.irqLines := rfl
@[simp] theorem State.onSrv_pcm (f : SrvState → SrvState) : (s.onSrv f).pcm = s.pcm := rfl
@[simp] theorem State.onSrv_sst (f : SrvState → SrvState) : (s.onSrv f).sst = s.sst := rfl
@[simp] theorem State.onSrv_sto (f : SrvState → SrvState) : (s.onSrv f).sto = s.sto := rfl
@[simp] theorem State.onSrv_mor (f : SrvState → SrvState) : (s.onSrv f).mor = s.mor := rfl
@[simp] theorem State.onSrv_pd (f : SrvState → SrvState) : (s.onSrv f).pd = s.pd := rfl
@[simp] theorem State.onSrv_link (f : SrvState → SrvState) : (s.onSrv f).link = s.link := rfl
@[simp] theorem State.onSrv_firn (f : SrvState → SrvState) : (s.onSrv f).firn = s.firn := rfl
@[simp] theorem State.onSrv_rme (f : SrvState → SrvState) : (s.onSrv f).rme = s.rme := rfl
@[simp] theorem State.onSrv_ports (f : SrvState → SrvState) : (s.onSrv f).ports = s.ports := rfl
@[simp] theorem State.onSrv_dma (f : SrvState → SrvState) : (s.onSrv f).dma = s.dma := rfl
@[simp] theorem State.onSrv_cry (f : SrvState → SrvState) : (s.onSrv f).cry = s.cry := rfl
@[simp] theorem State.onSrv_chn (f : SrvState → SrvState) : (s.onSrv f).chn = s.chn := rfl
@[simp] theorem State.onSrv_ord (f : SrvState → SrvState) : (s.onSrv f).ord = s.ord := rfl
@[simp] theorem State.onSrv_pmx (f : SrvState → SrvState) : (s.onSrv f).pmx = s.pmx := rfl
@[simp] theorem State.onSrv_srv (f : SrvState → SrvState) : (s.onSrv f).srv = f s.srv := rfl
@[simp] theorem State.onSrv_wsq (f : SrvState → SrvState) : (s.onSrv f).wsq = s.wsq := rfl
@[simp] theorem State.onSrv_msq (f : SrvState → SrvState) : (s.onSrv f).msq = s.msq := rfl
@[simp] theorem State.onSrv_uqi (f : SrvState → SrvState) : (s.onSrv f).uqi = s.uqi := rfl
@[simp] theorem State.onSrv_mgt (f : SrvState → SrvState) : (s.onSrv f).mgt = s.mgt := rfl
@[simp] theorem State.onSrv_out (f : SrvState → SrvState) : (s.onSrv f).out = s.out := rfl
@[simp] theorem State.onSrv_draws (f : SrvState → SrvState) : (s.onSrv f).draws = s.draws := rfl

@[simp] theorem State.onUqi_pending (f : UqiState → UqiState) : (s.onUqi f).pending = s.pending := rfl
@[simp] theorem State.onUqi_part (f : UqiState → UqiState) : (s.onUqi f).part = s.part := rfl
@[simp] theorem State.onUqi_regs (f : UqiState → UqiState) : (s.onUqi f).regs = s.regs := rfl
@[simp] theorem State.onUqi_sram (f : UqiState → UqiState) : (s.onUqi f).sram = s.sram := rfl
@[simp] theorem State.onUqi_store (f : UqiState → UqiState) : (s.onUqi f).store = s.store := rfl
@[simp] theorem State.onUqi_buf (f : UqiState → UqiState) : (s.onUqi f).buf = s.buf := rfl
@[simp] theorem State.onUqi_atb (f : UqiState → UqiState) : (s.onUqi f).atb = s.atb := rfl
@[simp] theorem State.onUqi_asc (f : UqiState → UqiState) : (s.onUqi f).asc = s.asc := rfl
@[simp] theorem State.onUqi_latched (f : UqiState → UqiState) : (s.onUqi f).latched = s.latched := rfl
@[simp] theorem State.onUqi_irqLines (f : UqiState → UqiState) : (s.onUqi f).irqLines = s.irqLines := rfl
@[simp] theorem State.onUqi_pcm (f : UqiState → UqiState) : (s.onUqi f).pcm = s.pcm := rfl
@[simp] theorem State.onUqi_sst (f : UqiState → UqiState) : (s.onUqi f).sst = s.sst := rfl
@[simp] theorem State.onUqi_sto (f : UqiState → UqiState) : (s.onUqi f).sto = s.sto := rfl
@[simp] theorem State.onUqi_mor (f : UqiState → UqiState) : (s.onUqi f).mor = s.mor := rfl
@[simp] theorem State.onUqi_pd (f : UqiState → UqiState) : (s.onUqi f).pd = s.pd := rfl
@[simp] theorem State.onUqi_link (f : UqiState → UqiState) : (s.onUqi f).link = s.link := rfl
@[simp] theorem State.onUqi_firn (f : UqiState → UqiState) : (s.onUqi f).firn = s.firn := rfl
@[simp] theorem State.onUqi_rme (f : UqiState → UqiState) : (s.onUqi f).rme = s.rme := rfl
@[simp] theorem State.onUqi_ports (f : UqiState → UqiState) : (s.onUqi f).ports = s.ports := rfl
@[simp] theorem State.onUqi_dma (f : UqiState → UqiState) : (s.onUqi f).dma = s.dma := rfl
@[simp] theorem State.onUqi_cry (f : UqiState → UqiState) : (s.onUqi f).cry = s.cry := rfl
@[simp] theorem State.onUqi_chn (f : UqiState → UqiState) : (s.onUqi f).chn = s.chn := rfl
@[simp] theorem State.onUqi_ord (f : UqiState → UqiState) : (s.onUqi f).ord = s.ord := rfl
@[simp] theorem State.onUqi_pmx (f : UqiState → UqiState) : (s.onUqi f).pmx = s.pmx := rfl
@[simp] theorem State.onUqi_srv (f : UqiState → UqiState) : (s.onUqi f).srv = s.srv := rfl
@[simp] theorem State.onUqi_wsq (f : UqiState → UqiState) : (s.onUqi f).wsq = s.wsq := rfl
@[simp] theorem State.onUqi_msq (f : UqiState → UqiState) : (s.onUqi f).msq = s.msq := rfl
@[simp] theorem State.onUqi_uqi (f : UqiState → UqiState) : (s.onUqi f).uqi = f s.uqi := rfl
@[simp] theorem State.onUqi_mgt (f : UqiState → UqiState) : (s.onUqi f).mgt = s.mgt := rfl
@[simp] theorem State.onUqi_out (f : UqiState → UqiState) : (s.onUqi f).out = s.out := rfl
@[simp] theorem State.onUqi_draws (f : UqiState → UqiState) : (s.onUqi f).draws = s.draws := rfl

@[simp] theorem State.onWsq_pending (f : WsqState → WsqState) : (s.onWsq f).pending = s.pending := rfl
@[simp] theorem State.onWsq_part (f : WsqState → WsqState) : (s.onWsq f).part = s.part := rfl
@[simp] theorem State.onWsq_regs (f : WsqState → WsqState) : (s.onWsq f).regs = s.regs := rfl
@[simp] theorem State.onWsq_sram (f : WsqState → WsqState) : (s.onWsq f).sram = s.sram := rfl
@[simp] theorem State.onWsq_store (f : WsqState → WsqState) : (s.onWsq f).store = s.store := rfl
@[simp] theorem State.onWsq_buf (f : WsqState → WsqState) : (s.onWsq f).buf = s.buf := rfl
@[simp] theorem State.onWsq_atb (f : WsqState → WsqState) : (s.onWsq f).atb = s.atb := rfl
@[simp] theorem State.onWsq_asc (f : WsqState → WsqState) : (s.onWsq f).asc = s.asc := rfl
@[simp] theorem State.onWsq_latched (f : WsqState → WsqState) : (s.onWsq f).latched = s.latched := rfl
@[simp] theorem State.onWsq_irqLines (f : WsqState → WsqState) : (s.onWsq f).irqLines = s.irqLines := rfl
@[simp] theorem State.onWsq_pcm (f : WsqState → WsqState) : (s.onWsq f).pcm = s.pcm := rfl
@[simp] theorem State.onWsq_sst (f : WsqState → WsqState) : (s.onWsq f).sst = s.sst := rfl
@[simp] theorem State.onWsq_sto (f : WsqState → WsqState) : (s.onWsq f).sto = s.sto := rfl
@[simp] theorem State.onWsq_mor (f : WsqState → WsqState) : (s.onWsq f).mor = s.mor := rfl
@[simp] theorem State.onWsq_pd (f : WsqState → WsqState) : (s.onWsq f).pd = s.pd := rfl
@[simp] theorem State.onWsq_link (f : WsqState → WsqState) : (s.onWsq f).link = s.link := rfl
@[simp] theorem State.onWsq_firn (f : WsqState → WsqState) : (s.onWsq f).firn = s.firn := rfl
@[simp] theorem State.onWsq_rme (f : WsqState → WsqState) : (s.onWsq f).rme = s.rme := rfl
@[simp] theorem State.onWsq_ports (f : WsqState → WsqState) : (s.onWsq f).ports = s.ports := rfl
@[simp] theorem State.onWsq_dma (f : WsqState → WsqState) : (s.onWsq f).dma = s.dma := rfl
@[simp] theorem State.onWsq_cry (f : WsqState → WsqState) : (s.onWsq f).cry = s.cry := rfl
@[simp] theorem State.onWsq_chn (f : WsqState → WsqState) : (s.onWsq f).chn = s.chn := rfl
@[simp] theorem State.onWsq_ord (f : WsqState → WsqState) : (s.onWsq f).ord = s.ord := rfl
@[simp] theorem State.onWsq_pmx (f : WsqState → WsqState) : (s.onWsq f).pmx = s.pmx := rfl
@[simp] theorem State.onWsq_srv (f : WsqState → WsqState) : (s.onWsq f).srv = s.srv := rfl
@[simp] theorem State.onWsq_wsq (f : WsqState → WsqState) : (s.onWsq f).wsq = f s.wsq := rfl
@[simp] theorem State.onWsq_msq (f : WsqState → WsqState) : (s.onWsq f).msq = s.msq := rfl
@[simp] theorem State.onWsq_uqi (f : WsqState → WsqState) : (s.onWsq f).uqi = s.uqi := rfl
@[simp] theorem State.onWsq_mgt (f : WsqState → WsqState) : (s.onWsq f).mgt = s.mgt := rfl
@[simp] theorem State.onWsq_out (f : WsqState → WsqState) : (s.onWsq f).out = s.out := rfl
@[simp] theorem State.onWsq_draws (f : WsqState → WsqState) : (s.onWsq f).draws = s.draws := rfl

end Sys2Proof.Machine
end

