-- ==== Sys2Proof/Laws/Tables.lean ====
section
/-! SUPPORT. Tables: a read after a write, and that a write keeps the canonical form. -/

namespace Sys2Proof.Machine

open Sys2Proof

variable {α : Type} [DecidableEq α]

/-- A table is in canonical form for its default. -/
theorem tabGet_tabPut_same {t : Tab α} {d : α} (k : Nat) (v : α) (h : Sparse.wf (fun _ => d) t = true) :
    tabGet (tabPut t d k v) d k = v := Sparse.read_write_self v h

theorem tabGet_tabPut_ne {t : Tab α} {d : α} {k j : Nat} (v : α) (hne : j ≠ k) (h : Sparse.wf (fun _ => d) t = true) :
    tabGet (tabPut t d k v) d j = tabGet t d j := Sparse.read_write_other v hne h

theorem wf_tabPut {t : Tab α} {d : α} (k : Nat) (v : α) (h : Sparse.wf (fun _ => d) t = true) :
    Sparse.wf (fun _ => d) (tabPut t d k v) = true := Sparse.wf_write v h

/-- The banks: a read after a write, and the canonical form. -/
theorem bank_setBank_same {s : State} (b : Nat) (k : Bank) (h : s.banksWf = true) : (s.setBank b k).bank b = k :=
  tabGet_tabPut_same b k h

theorem bank_setBank_ne {s : State} {b c : Nat} (k : Bank) (hne : c ≠ b) (h : s.banksWf = true) :
    (s.setBank b k).bank c = s.bank c := tabGet_tabPut_ne k hne h

theorem banksWf_setBank {s : State} (b : Nat) (k : Bank) (h : s.banksWf = true) : (s.setBank b k).banksWf = true :=
  wf_tabPut b k h

end Sys2Proof.Machine
end

