-- ==== Sys2Proof/Machine/Balls.lean ====
section
/-! DEFINITION. What the package's signal balls show (Table 3.2, R53 to R58): the state that each has from power-on until its
block drives it, its park state, and which of the two is in force. The GPIO balls' levels are those of `ballLevel`. -/

namespace Sys2Proof.Machine

open Sys2Proof

/-- The signal balls of Table 3.2, by signal; `q` is a port, `k` a preamp or a microactuator channel, `n` a number. -/
inductive Ball where
  | pciTx (q : Nat) | pciRx (q : Nat) | pciRefck (q : Nat) | pciPerstn (q : Nat) | pciClkreqn (q : Nat)
  | i3c | bayDetn | pwrRstn | xtal | aonXtal | zqBuf
  | paRd (k : Nat) | paWd (k : Nat) | paWg (k : Nat) | paSclk (k : Nat) | paSdio (k : Nat) | paSen (k : Nat) | paFltn (k : Nat)
  | refRd | paVpos | paVneg | spindle | spmCt | vcm | ma (k : Nat)
  | gpio (n : Nat) | test (n : Nat)
  deriving DecidableEq, Repr

/-- What a ball shows: it is unpowered, it is in one of the states that Table 3.2 names, it follows its link, or its block uses
it. -/
inductive BallShow where
  | unpowered | electricalIdle | terminationOff | perLink | input | pullUp | pullDown | released | hiZ | oscillator | calibration
  | differential0 | drive (b : Bool) | supplyOff | supplyOn | sense | inUse
  deriving DecidableEq, Repr

/-- The state from power-on until the owning block first drives the ball (Table 3.2, column Reset). -/
def ballReset : Ball → BallShow
  | .pciTx _ => .electricalIdle
  | .pciRx _ => .terminationOff
  | .pciRefck _ => .input
  | .pciPerstn _ => .input
  | .pciClkreqn _ => .released
  | .i3c => .hiZ
  | .bayDetn => .pullUp
  | .pwrRstn => .input
  | .xtal => .oscillator
  | .aonXtal => .oscillator
  | .zqBuf => .calibration
  | .paRd _ => .terminationOff
  | .paWd _ => .differential0
  | .paWg _ => .drive false
  | .paSclk _ => .drive false
  | .paSdio _ => .pullDown
  | .paSen _ => .drive false
  | .paFltn _ => .pullUp
  | .refRd => .terminationOff
  | .paVpos => .supplyOff
  | .paVneg => .supplyOff
  | .spindle => .hiZ
  | .spmCt => .sense
  | .vcm => .hiZ
  | .ma _ => .hiZ
  | .gpio _ => .pullDown
  | .test _ => .pullDown

/-- The park state (Table 3.2, column Park). It differs from the reset state at the PCIe receivers, and at the GPIO balls, whose
park level is `parkLevel`. -/
def ballPark : Ball → BallShow
  | .pciRx _ => .perLink
  | b => ballReset b

/-- The clock domain of the block that drives or reads the ball (Table 3.2), where it is one that stops. -/
def ballDomain : Ball → Option Nat
  | .pciTx q => some (15 + q)
  | .pciRx q => some (15 + q)
  | .pciClkreqn q => some (15 + q)
  | .i3c => some 20
  | .paRd _ => some 8
  | .paWd _ => some 9
  | .paWg _ => some 9
  | .paSclk _ => some 11
  | .paSdio _ => some 11
  | .paSen _ => some 11
  | .paFltn _ => some 11
  | _ => none

/-- The balls of preamp 1 with one preamp, and of port B with one x2 port, that Table 3.3 leaves unused. -/
def ballUnused (s : State) : Ball → Bool
  | .paRd k => k == 1 && !s.on F.PMX_STRAP_PA_CNT
  | .paWd k => k == 1 && !s.on F.PMX_STRAP_PA_CNT
  | .paWg k => k == 1 && !s.on F.PMX_STRAP_PA_CNT
  | .paSclk k => k == 1 && !s.on F.PMX_STRAP_PA_CNT
  | .paSdio k => k == 1 && !s.on F.PMX_STRAP_PA_CNT
  | .paSen k => k == 1 && !s.on F.PMX_STRAP_PA_CNT
  | .paFltn k => k == 1 && !s.on F.PMX_STRAP_PA_CNT
  | .pciRefck q => q == 1 && x2 s
  | .pciPerstn q => q == 1 && x2 s
  | .pciClkreqn q => q == 1 && x2 s
  | _ => false

/-- Balls of the Power die, which shows no park level in RETREAT (R57, case 3, names the Logic die's), and the balls that case 3
excepts. -/
def ballStays : Ball → Bool
  | .bayDetn => true
  | .pwrRstn => true
  | .xtal => true
  | .aonXtal => true
  | .paVpos => true
  | .paVneg => true
  | .spindle => true
  | .spmCt => true
  | .vcm => true
  | .ma _ => true
  | _ => false

/-- A ball other than a GPIO ball shows its park state (R57): no block drives it, its block's domain is stopped, or RETREAT. -/
def ballAtPark (s : State) (b : Ball) : Bool :=
  (s.mode == mRETREAT && !ballStays b) || ballUnused s b ||
    (match ballDomain b with
      | some d => !domainRuns s d
      | none => false)

/-- The write gate of a preamp is open (R55): in FLOW, under a LOCKED ATB, for an operation on one of its heads. -/
def gateBall (s : State) (k : Nat) : Bool :=
  s.mode == mFLOW && s.get F.ATB_STAT_STATE == 2 &&
    (s.chn.act.toList ++ s.chn.pend.toList).any fun (o : MOp) =>
      o.gate && (s.get (F.SRV_HEAD_PASEL (s.get (F.MOP0_HEAD o.tag))) == k)

/-- What a signal ball shows. -/
def ballShown (s : State) (b : Ball) : BallShow :=
  match b with
  | .paVpos => if s.pd.vpos then .supplyOn else .supplyOff
  | .paVneg => if s.pd.vneg then .supplyOn else .supplyOff
  | .spindle => if tabGet s.pd.ports 0 0 = 0 then .hiZ else .inUse
  | .spmCt => .sense
  | .vcm => if s.pd.act = .fullpark then .hiZ else .inUse
  | .ma k => if s.pd.act = .fullpark ∨ (if k = 0 then s.pd.mahz0 else s.pd.mahz1) then .hiZ else .inUse
  | b =>
    if s.mode = mOFF then .unpowered
    else if ballAtPark s b then ballPark b
    else match b with
      | .paWg k => .drive (gateBall s k)
      | .paSclk k => if (if k = 0 then s.wsq.busy0 else s.wsq.busy1).isSome then .inUse else .drive false
      | .paSen k => .drive (if k = 0 then s.wsq.busy0 else s.wsq.busy1).isSome
      | .paSdio k => if (if k = 0 then s.wsq.busy0 else s.wsq.busy1).isSome then .inUse else .pullDown
      | .paFltn _ => .pullUp
      | .gpio n => match ballLevel s n with
        | some l => .drive l
        | none => if (tabGet s.pmx.applied 0b010001 n).toNat % 4 = 2 then .pullUp else if (tabGet s.pmx.applied 0b010001 n).toNat % 4 = 1 then .pullDown else .hiZ
      | .test _ => .pullDown
      | .bayDetn => .pullUp
      | .pwrRstn => .input
      | .pciPerstn _ => .input
      | .pciRefck _ => .input
      | .xtal => .oscillator
      | .aonXtal => .oscillator
      | .zqBuf => .calibration
      | _ => .inUse

end Sys2Proof.Machine
end

