-- ==== Sys2Proof/WellFormed.lean ====
section
/-! DEFINITION. Which commands are well formed: the operands a command carries have the widths, the lengths and the ranges
that the spec gives the thing they stand for. The machine gives every command a meaning; a claim about what the device can
meet assumes its commands well formed. -/

namespace Sys2Proof

/-- A core's access is 1, 2 or 4 bytes wide (R473). -/
def widthOk (w : Nat) : Bool := w == 1 || w == 2 || w == 4

/-- The device has 16 DMA channels (chapter 14); the other requesters are named. -/
def Req.ok : Req → Bool
  | .dma c => decide (c < 16)
  | _ => true

/-- A false hit, a row parity or a shadow parity error (R328). -/
def RmeErr.ok (e : RmeErr) : Bool := e.kind == 1 || e.kind == 2 || e.kind == 4 || e.kind == 5

/-- The facts of a bus access: legal lookup errors, at most the cells of a word, a block that is good, corrected or not. -/
def BusFacts.ok (f : BusFacts) : Bool := f.errs.all RmeErr.ok && decide (f.cells.length ≤ 32) && f.ecc != 3

/-- The channel hands over the 4,132 information bytes of a sector (R271). -/
def SectorFacts.ok (f : SectorFacts) : Bool := f.bytes.length == 4132

/-- A servo field has four burst groups of four transitions (R214). -/
def Captures.ok (f : Captures) : Bool := f.bursts.length == 4 && f.bursts.all fun g => decide (g.length ≤ 4)

/-- A command is well formed. -/
def Instr.wellFormed : Instr → Bool
  | .registerWrite _ _ _ f => f.ok
  | .coreAccess _ _ _ w _ f => widthOk w && f.ok
  | .hostBar0Request _ _ _ dws => decide (1 ≤ dws.length)
  | .pmxPinLock _ n => decide (n.toNat < 24)
  | .hsqDrainEnd c facts => decide (c.toNat < 3) && facts.all BusFacts.ok
  | .storeRead _ _ w cells => widthOk w && decide (cells.length ≤ 8 * w)
  | .sequenceCycle r _ w _ => r.ok && widthOk w
  | .pageWindowStore r _ w _ => r.ok && widthOk w
  | .sequenceTimeout r _ => r.ok
  | .readArray r _ => r.ok
  | .statusRead r _ => r.ok
  | .clearStatus r _ => r.ok
  | .bufferProgram r _ => r.ok
  | .sectorErase r _ => r.ok
  | .eraseSuspend r _ => r.ok
  | .eraseResume r _ => r.ok
  | .marginRead r _ _ => r.ok
  | .infoMode r _ => r.ok
  | .wsqCont _ f => f.ok
  | .wsqJump _ f => f.ok
  | .wsqBranch _ f => f.ok
  | .wsqWait _ f => f.ok
  | .wsqWaitSatisfied _ f => f.ok
  | .wsqCall _ f => f.ok
  | .wsqRet _ f => f.ok
  | .wsqDispatch _ f => f.ok
  | .wsqHalt _ f => f.ok
  | .wsqIllegal _ f => f.ok
  | .wsqWatchdog _ f => f.ok
  | .burstEnd f => f.ok
  | .burstWindowExpiry _ f => f.ok
  | .patchData k bytes => decide (k.toNat < 18) && bytes.length == 19
  | .log _ bytes => bytes.length == 16
  | .decodeDone _ _ f => f.ok
  | .decodeDeadline _ _ f => f.ok
  | .redecDone f => f.ok
  | .headContextWrite _ h _ _ => decide (h.toNat < 20)
  | .patrolScrub found => found != 3
  | .rmePatrol found => found == 0 || found == 3 || found == 4
  | .defectLookup _ errs => errs.all RmeErr.ok
  | .windowLookup _ _ errs => errs.all RmeErr.ok
  | .entryBurstDone _ e data errs => errs.all RmeErr.ok && (e != .ok || (data.length % 64 == 0 && decide (data.length ≤ 512)))
  | .doorbellReadDone _ e data => e != .ok || (data.length % 16 == 0 && decide (data.length ≤ 1024))
  | .listPageReadDone _ _ e data => e != .ok || data.length == 4096
  | .write _ _ errs => errs.all RmeErr.ok
  | .read _ errs => errs.all RmeErr.ok
  | .writeZeroes _ _ errs => errs.all RmeErr.ok
  | .deallocate _ errs => errs.all RmeErr.ok
  | .ordRequest _ _ errs => errs.all RmeErr.ok
  | .ordClqTake errs => errs.all RmeErr.ok
  | .selfTestEnd elem _ _ _ _ => decide (elem.toNat ≤ 4)
  | .configurationRequest _ (.devCtl mps mrrs) => decide (mps.toNat ≤ 5) && decide (mrrs.toNat ≤ 5)
  | _ => true

end Sys2Proof
end

