-- ==== Sys2Proof/Tests/Slice0.lean ====
section
/-! SUPPORT. Tests: an ill-formed command for every check of Instr.wellFormed, worked examples of the spec, and for every
obligation a witness of each path to a conclusion: operands and a state that meet its hypotheses together. -/

namespace Sys2Proof.Tests
open Sys2Proof Sys2Proof.Machine
set_option linter.unusedVariables false
set_option Elab.async false
set_option maxRecDepth 8000
abbrev r0 : State := State.reset
/-- A state in mode n. -/
def inMode (n : Nat) (s : State := State.reset) : State := s.put F.PCM_MODE_MODE n
/-- A state whose angle timebase is in state n. -/
def atbAt (n : Nat) (s : State := State.reset) : State := s.put F.ATB_STAT_STATE n
def noTrans : Trans := { us := 0, rails := 0 }
def entryAt (e : AscEntry) (s : State := State.reset) : State := s.setEntry 0 e

def seqFrom (a : Nat) : List Byte → List (Nat × Byte)
  | [] => []
  | b :: l => (a, b) :: seqFrom (a + 1) l
/-- Slot A with a header that Table 5.3 accepts under blank key hashes, one block for each segment: the bytes that differ from
those of an erased slot. -/
def goodSlot : Mem :=
  seqFrom 0x20000000 [0x31, 0x5A, 0x47, 0x41, 1, 0, 1, 0, 0, 0, 0, 0, 0, 0, 7, 0, 0, 0, 8, 0] ++
  (List.range 7).flatMap fun k => seqFrom (0x20000020 + 80 * k)
    [BitVec.ofNat 8 k, 0, 1, 0, 16, 0, 0, 0, 0, 0, 0, 0, 0, 0, BitVec.ofNat 8 (k + 1), 0]
/-- A pair is its first component with the rest. -/
theorem pair_of {α β : Type} (p : α × β) {a : α} (h : p.1 = a) : p = (a, p.2) := by rw [← h]

def noCap : Captures := { sam := none, tid := none, bursts := [[], [], [], []], paFault := false }
/-- The sequencer runs, with the word w at PC 0. -/
def wsqAt (w : BitVec 128) : State :=
  { (r0.put F.WSQ_STAT_RUN 1).put F.WSQ_STAT_HALT 0 with wsq := { store := [(0, w)] } }
/-- The Store die with bank 0 in state k and the sequence of requester r there in state q. -/
def stoAt (k : Bank) (r : Req) (q : SeqState) : State := (r0.setBank 0 k).setSeq 0 r q
/-- A record body with the magic, the flag and a good BCRC. -/
def bodyHead (flag : Byte) : List Byte := [0x4E, 0x52, 0x4F, 0x4D, 0, 0, flag, 0] ++ zeros 388
def bodyOf (flag : Byte) : List Byte := bodyHead flag ++ leBytes 4 (crc32c (bodyHead flag))
theorem crc_spoiled (b : List Byte) : crc32c (slice (b ++ leBytes 4 (crc32c b + 1)) 0 b.length) ≠
    leNat (slice (b ++ leBytes 4 (crc32c b + 1)) b.length 4) := by
  have h := Laws.slice_append_right b (leBytes 4 (crc32c b + 1))
  rw [Laws.leBytes_length] at h
  rw [Laws.slice_append_left, h, Laws.leNat_leBytes]
  have := Laws.crc32c_lt b
  omega

def noFacts : RetractFacts := { rpm := 0, vhold := 0, ms := 0 }
/-- The Power die in state p. -/
def pdAt (p : PdState) : State := { r0 with pd := p }
def stub (a b c : Bool) : Retract :=
  { cause := 1, seen := 1, facts := noFacts, inHoldup := false, fromPark := c, latch := a, timeout := b }
/-- A media operation of tag 5 is running, a write if w, with n sectors. -/
def chnAt (w n : Nat) (o : MOp) (c : ChnState := {}) : State :=
  { ((atbAt 2 (inMode mFLOW)).put (F.MOP0_DIR 5) w).put (F.MOP1_NSEC 5) n with chn := { c with act := some o } }
def op5 : MOp := { tag := 5, first := 0, ends := 1000000 }
def noSector : SectorFacts :=
  { psm := [], ssm := [], conv := false, bytes := [], iters := 0, unsat := 0 }
def wsec (i : Nat) : WSec := { tag := 5, idx := i, user := [], md := [] }
/-- Party 0 has every column. -/
def cached : State := (r0.put (F.FIRN_PART_WAYS 0) 0xFF).put (F.FIRN_PART_HALF 0) 3
def seg0 : Seg := { seg := 0, owner := 0, v := 1 }
/-- Tag 0 holds segment 0 of party 0. -/
def holding (g : Seg := seg0) (s : State := cached) : State :=
  { s with firn := { tags := [(0, { frame := 0, held := some g })] } }

theorem frames_at_reset : r0.FramesApart := by
  refine ⟨by decide, by decide, by decide, by decide, ?_⟩
  have h : ∀ n, n < 4144 → r0.holderFrame n = n := by
    intro n hn
    simp only [State.holderFrame]
    split
    · rfl
    · split
      · show 4096 + (n - 4096) = n; omega
      · show 4112 + (n - 4112) = n; omega
  intro a b hab hb
  rw [h a (by omega), h b hb]
  omega

/-- Channel 0 belongs to SEC and is in state n. -/
def chAt (n : Nat) (l : Tab Chan := []) : State :=
  { (r0.put (F.CHCFG_OWNER 0) 1).put (F.CHSTAT_STATE 0) n with dma := l }
/-- Port 0 in state p. -/
def portAt (p : Port) (s : State := r0) : State := { s with ports := [(0, p)] }
def upPort : Port := { dl := true, bme := true, mse := true }
/-- Port 0 serves BAR0; the rings are in state u. -/
def uqiAt (u : UqiState := {}) (s : State := portAt upPort) : State := { s with uqi := u }
/-- Command 0 is a command of HC0 with this opcode and flags. -/
def cmdOf (opc : Byte) (w : FwWork := {}) (exts : List (Nat × Nat) := []) : Cmd :=
  { ring := 0, party := 0, seq := 0, bytes := [opc], core := some .hc0, exts, fw := w }
def cmdAt (k : Cmd) (s : State := r0) (l : List XRes := []) : State := { s with uqi := { table := [(0, some k)], res := l } }
def okRes : XRes := { core := .hc0, xtag := 0, cause := 0, detail := 0, done := 0 }
def req0 : OrdReq :=
  { id := 0, core := .hc0, rtag := 0, mlba := 0, offs := [0], write := false, cont := false, retry := false,
                       final := false, xts := false, party := 0, buf := 0x80000000, since := 0 }
def ordOp0 : OrdOp := { off := 0, n := 1, head := 0, track := 0, dbit := 0, k := 1024 }
/-- Sector 0 has a side entry whose CRC field is n. -/
def sideAt (n : Byte) : State :=
  { portAt upPort ((r0.put F.DMA_MDBASE_EN 1).put F.DMA_MDBASE_ADDR 0x03040000) with
    buf := (0xC1000000, 1) :: if n = 0 then [] else [(0xC1000004, n)] }
theorem readList_below {m : Mem} {j : Nat} {v : Byte} (n : Nat) : ∀ k, k + n ≤ j →
    Sparse.readList zeroed ((j, v) :: m) k n = Sparse.readList zeroed [] k n := by
  induction n with
  | zero => intro k _; rfl
  | succ n ih =>
    intro k h
    simp only [Sparse.readList, ih (k + 1) (by omega), Sparse.read]
    rw [if_neg (by omega), if_pos (by omega)]
theorem side_spoiled : sectorCrc (sideAt 0) 0x80000000 ≠ sideCrc (sideBytes (sideAt 0) 0x80000000) ∨
    sectorCrc (sideAt 1) 0x80000000 ≠ sideCrc (sideBytes (sideAt 1) 0x80000000) := by
  have e : sectorCrc (sideAt 0) 0x80000000 = sectorCrc (sideAt 1) 0x80000000 :=
    congrArg crc32c ((readList_below 4096 _ (by decide)).trans (readList_below 4096 _ (by decide)).symm)
  have h0 : sideCrc (sideBytes (sideAt 0) 0x80000000) = 0 := by decide +kernel
  have h1 : sideCrc (sideBytes (sideAt 1) 0x80000000) = 1 := by decide +kernel
  by_cases h : sectorCrc (sideAt 0) 0x80000000 = 0
  · exact .inr (by rw [h1, ← e, h]; decide)
  · exact .inl (by rw [h0]; exact h)
/-- 64 bytes from BUFFER to HOST, of the sector at 0x80000000. -/
def toHost : List Byte := [0x11, 0, 0, 0, 64, 0, 0, 0, 0, 0, 0, 0x80]

/-- The server is due a command with this opcode. -/
def taking (op : Nat) (s : State := r0) : State := ((s.put F.MGT_CTL_SVC 1).put F.TRF_STAT_BUSY 1).put F.TRF_CMD_OP op
/-- A message waits in the receive buffer and SPDM is in phase n. -/
def mrxAt (bs : List Byte) (n : Nat := 0) : State :=
  { (((r0.put F.MGT_STAT_MRXV 1).put F.MGT_MRX_LEN bs.length).put F.MGT_STAT_ACRDY 1).put F.MGT_MRXBASE_ADDR 0x18000 with
    sram := seqFrom 0x18000000 bs
    sst := { handed := true, alias_ := true }
    mgt := { spdm := { phase := n } } }
/-- The task target has an address. -/
def taskAt (r : Nat) (s : State := r0) : State := { s with mgt := { task := { addr := some 8 }, rindex := r } }
def secRuns : State := { r0 with sst := { secOut := true } }

def isoAt : State :=
  ((((r0.put F.SST_STAT_ALLOK 1).put F.FIRN_STAT_PLOCKED 1).put F.RME_STAT_WLOCKED 1).put F.DMA_CTL_CFGLOCK 1).put
    F.DMA_CTL_XTSREQ 1
/-- The actuator is over the tracks of a turning disk. -/
def flown (s : State) : State := { s with pd := { s.pd with act := .loaded, sp := .atSpeed } }
/-- Every core may issue accesses. -/
def ungated : State := { r0.put F.SST_GATE_GATED 0 with sst := { r0.sst with seg := 7 } }
theorem some_of {α : Type} {o : Option α} (h : o.isSome = true) : o = some (o.get h) := (Option.some_get h).symm
/-- A header whose public key is the base point, with a signature made with it. -/
def signedHeader : List Byte :=
  zeros 0x250 ++ beBytes 48 p384Gx ++ beBytes 48 p384Gy ++ zeros (0xFA0 - 0x2B0) ++ beBytes 48 p384Gx ++
    beBytes 48 0xc754aafb50b2bfac439cd75eb5676cb9d67c3e12d2f802d2c04e200d3971bae0fd27e5104355221446e68dfac43ea216
/-- The ECC engine is at work on x. -/
def eccAt (x : EccOp) (s : State := r0) : State := { s with sst := { s.sst with ecc := some x } }
def event0 : Event := { code := 0x0301, party := 0xFF, src := 2, payload := [] }
def entry0 : FifoEntry := { ev := { ev := event0, ts := 0, atbst := 0, boot := 0 } }
def sign0 : Signing := { seq := 0, digest := [], slot := some 4096, sig := none }
/-- Phase 2 of the record in slot 4096 runs. -/
def phase2At (s : State := r0) : State :=
  { s with mor := { phase2 := some 0, signing := [{ sign0 with sig := some (zeros 96) }], retreatSeal := some 0 } }
/-- The first 0x18C bytes of a signed record with SEQ 0 whose other fields are all ones. -/
def onesBody : List Byte := [0x4E, 0x52, 0x4F, 0x4D, 0xFF, 0xFF, 0xFF, 0xFF] ++ zeros 8 ++ List.replicate 380 0xFF
/-- Slot 4096 holds that record, without its signature: the bytes that differ from those of an erased slot. -/
def driftRec (s : State := r0) : State :=
  { s with store := seqFrom 0x22200000 [0x4E, 0x52, 0x4F, 0x4D] ++ seqFrom 0x22200008 (zeros 8) ++
      seqFrom 0x2220018C (leBytes 4 (crc32c onesBody)) }
def svFacts : SvFacts := { mie := true, mieReg := 0x10000, mtvec := 1, busy := false, divide := false, pc := 0, next := 0 }
def upFacts : Upstream := { fresh := true, vcm := 0, persists := false, flips := 0 }
def rsec0 : RSec := { tag := 5, idx := 0 }
def kept0 : RetSlot := { tag := 5, idx := 0, samp := {}, w0 := 0, w1 := 0, lba := 0, party := 0, chan := 0 }
/-- A sector of zeros for LBA 0 that decodes. -/
def zeroSector : SectorFacts :=
  { psm := [0], ssm := [], conv := true, bytes := zeros 4128 ++ leBytes 4 (crc32c (zeros 4128)), iters := 0, unsat := 0 }
/-- Retention slot 0 is being decoded again, with RDEC w. -/
def redecAt (w : Word) (s : State := r0) : State := { s with chn := { redec := some (0, w), kept := [(0, some kept0)] } }
theorem zero_sector_crc : crc32c (slice (slice zeroSector.bytes 0 4132) 0 4128) =
    leNat (slice (slice zeroSector.bytes 0 4132) 4128 4) := by
  have hl : (zeros 4128).length = 4128 := List.length_replicate
  have h0 : slice zeroSector.bytes 0 4132 = zeroSector.bytes := by
    unfold slice zeroSector
    have : (zeros 4128 ++ leBytes 4 (crc32c (zeros 4128))).length = 4132 := by simp [hl, Laws.leBytes_length]
    simp [this, List.take_of_length_le]
  rw [h0]
  show crc32c (slice (zeros 4128 ++ leBytes 4 (crc32c (zeros 4128))) 0 4128) =
    leNat (slice (zeros 4128 ++ leBytes 4 (crc32c (zeros 4128))) 4128 4)
  have h1 := Laws.slice_append_left (zeros 4128) (leBytes 4 (crc32c (zeros 4128)))
  have h2 := Laws.slice_append_right (zeros 4128) (leBytes 4 (crc32c (zeros 4128)))
  rw [hl] at h1 h2
  rw [Laws.leBytes_length] at h2
  rw [h1, h2, Laws.leNat_leBytes]
  have := Laws.crc32c_lt (zeros 4128)
  omega
theorem zero_sector_lba : leNat (slice (slice zeroSector.bytes 0 4132) 4096 8) = 0 := by decide +kernel
theorem zero_sector_party : leNat (slice (slice zeroSector.bytes 0 4132) 4104 1) = 0 := by decide +kernel
theorem zero_sector_good (s : State) (n : BitVec 6) (hb : blank s 0 {} = false) (hs : syncFound s [0] = true) :
    sectorResult s 0 false 0 0 {} { zeroSector with iters := n } ≤ 1 := by
  have hp : syncFound s zeroSector.psm = true := hs
  have hc : zeroSector.conv = true := rfl
  simp only [sectorResult, hb, hp, hc, zero_sector_crc, zero_sector_lba, zero_sector_party, Bool.false_eq_true, if_false,
    Bool.not_false, Bool.true_and, not_true, false_and, false_or, ne_eq, if_true]
  decide
def entryIn (f : FirnState) : State := { cached with firn := f }
/-- Tag 0 holds a dirty segment, and the cleaning queue is full. -/
def clqFull : State :=
  entryIn { tags := [(0, { frame := 0, held := some { seg0 with d := 1 } })]
            clq := List.replicate 64 { owner := 0, set := 0, way := 0, gen := 0, frame := 0, lba := 0, mask := 1, inval := false } }
/-- HC0 runs. -/
def hc0Runs : State := (inMode mFLOW).put F.SST_RUN_RUN 1
/-- No byte of the info space is programmed. -/
def noInfo (s : State) : State := { s with sto := { s.sto with info := [] } }

/-! ### Ill-formed commands: one for each check -/

def badErr : RmeErr := { idx := 0, kind := 3 }
def badCap : Captures := { sam := none, tid := none, bursts := [], paFault := false }
def badFacts : List BusFacts := [{ errs := [badErr] }, { cells := List.replicate 33 0 }, { ecc := 3 }]
/-- Commands none of which is well formed. -/
def noneGood (l : List Instr) : Bool := l.all fun i => !i.wellFormed

theorem test_ill_widths : noneGood [.coreAccess .sec .load 0 3 0 {}, .storeRead .sec 0 8 [], .storeRead .sec 0 1 (List.replicate 9 0),
    .sequenceCycle .recorder 0 3 0, .pageWindowStore .loader 0 0 0] = true := by decide
theorem test_ill_facts : (badFacts.all fun f => noneGood [.registerWrite .sec 0 0 f, .coreAccess .sec .load 0 4 0 f,
    .hsqDrainEnd 0 [f]]) = true := by decide
theorem test_ill_requesters : noneGood ([.sequenceCycle (.dma 16) 0 4 0, .pageWindowStore (.dma 16) 0 4 0,
    .sequenceTimeout (.dma 16) 0, .readArray (.dma 16) 0, .statusRead (.dma 16) 0, .clearStatus (.dma 16) 0,
    .bufferProgram (.dma 16) 0, .sectorErase (.dma 16) 0, .eraseSuspend (.dma 16) 0, .eraseResume (.dma 16) 0,
    .marginRead (.dma 16) 0 true, .infoMode (.dma 16) 0]) = true := by decide
theorem test_ill_captures : noneGood [.wsqCont 0 badCap, .wsqJump 0 badCap, .wsqBranch 0 badCap, .wsqWait 0 badCap,
    .wsqWaitSatisfied 0 badCap, .wsqCall 0 badCap, .wsqRet 0 badCap, .wsqDispatch 0 badCap, .wsqHalt 0 badCap,
    .wsqIllegal 0 badCap, .wsqWatchdog 0 badCap, .burstEnd badCap, .burstWindowExpiry 0 badCap] = true := by decide
theorem test_ill_numbers : noneGood [.hostBar0Request 0 true 0 [], .pmxPinLock .mc 24, .hsqDrainEnd 3 [],
    .patchData 18 (zeros 19), .patchData 0 [], .log 0 [], .headContextWrite .sv 20 0 0, .patrolScrub 3, .rmePatrol 1,
    .selfTestEnd 5 0 0 0 [], .configurationRequest 0 (.devCtl 6 0), .configurationRequest 0 (.devCtl 0 6)] = true := by decide
theorem test_ill_sectors : noneGood [.decodeDone 0 0 noSector, .decodeDeadline 0 0 noSector, .redecDone noSector] = true := by
  decide
theorem test_ill_lookups : noneGood [.defectLookup .mc [badErr], .windowLookup .sec 0 [badErr],
    .entryBurstDone 0 .ur [] [badErr], .write 0 false [badErr], .read 0 [badErr], .writeZeroes 0 false [badErr],
    .deallocate 0 [badErr], .ordRequest .hc0 0 [badErr], .ordClqTake [badErr]] = true := by decide
theorem test_ill_reads : noneGood [.entryBurstDone 0 .ok [0] [], .entryBurstDone 0 .ok (zeros 576) [],
    .doorbellReadDone 0 .ok [0], .doorbellReadDone 0 .ok (zeros 1040), .listPageReadDone 0 0 .ok [0]] = true :=
      by decide +kernel
theorem test_well_formed : ([.pwrRstnRise true, .storeRead .sec 0 2 [1, 2], .hsqDrainEnd 2 [{}], .patrolScrub 2,
    .pmxPinLock .mc 23, .entryBurstDone 0 .ok (zeros 64) [{ idx := 0, kind := 4 }]] : List Instr).all Instr.wellFormed = true
      := by
  decide

/-! ### Worked examples of the spec -/

/-- Chapter 20: HC0 loads a word of SV's memory; GLB_AF and GLB_AFADDR. -/
def after20 : State := coreAccess .hc0 .load 0x10400100 4 0 {} ((inMode mFLOW).put F.SST_RUN_RUN 15)
theorem test_refused_load : after20.rd R.GLB_AF = 0x00010211 ∧ after20.rd R.GLB_AFADDR = 0x10400100 ∧
    after20.rd R.GLB_AFCNT = 1 ∧ after20.out = [.coreFault .hc0 5 0x10400100] := by decide +kernel
/-- Chapter 20: the byte load of ATB_STAT after it. -/
theorem test_refused_byte : (coreAccess .hc0 .load 0x40001004 1 0 {} after20).rd R.GLB_AF = 0x00010311 := by decide +kernel
/-- Chapter 12: the home set of LBA 0x0123_4540 in half 0. -/
theorem test_set_of_segment : homeSet 0x48D15 = 0x152 ∧ setFor (r0.put (F.FIRN_PART_HALF 3) 1) 3 0x48D15 = 0x052 := by
  decide +kernel
/-- Chapter 9: the conversion of the four sums of head 5 over wedge 37. -/
theorem test_conversion :
    let r := convert 548870 860157 1105922 1351685 148214 0x4000
    r.q = 1048580 ∧ nearest r.num r.den = 148213 ∧ nearest ((r.num - 148213 * r.den) * 16384) r.den = 4095 ∧
      convCause true 148214 r = 0 := by decide +kernel
/-- Chapters 11 and 16: the first bit of sector 100 under head 5, and the first bits and the target of Table 16.8. -/
theorem test_layout : revBit 3052 (fieldBit 3052 1049776) 3699200 = 3965574 ∧
    ([33292800, 7398400, 14796800].map (revBit 3052 (fieldBit 3052 1048576))) = [35561760, 7912760, 15813360] ∧
    opTgt (r0.put F.SRV_WOFF_WOFF 1048576) { off := 0, n := 2, head := 5, track := 148213, dbit := 14796800, k := 3052 } =
      0x50B53E12 := by decide +kernel
/-- Chapter 14: the memory writes that carry 1,000 bytes to 0x10_0000_0FFD. -/
theorem test_tlp_cuts : (cutTlps 256 true 1000 0x1000000FFD (zeros 1000)).map (fun t => (t.addr, t.bytes.length)) =
    [(0x1000000FFD, 3), (0x1000001000, 256), (0x1000001100, 256), (0x1000001200, 256), (0x1000001300, 229)] := by
  decide +kernel
/-- CRC-32C of the nine digits, by hand from its polynomial. -/
theorem test_crc32c : crc32c [0x31, 0x32, 0x33, 0x34, 0x35, 0x36, 0x37, 0x38, 0x39] = 0xE3069283 := by decide +kernel
/-- Chapter 2: entry 5 armed 1 µs into wedge 100. -/
def armed2 : State :=
  let s := (atbAt 2 (inMode mFLOW)).put (F.STG_TGT_TGT .mc) 0x3207DD44
  ascArm .mc 0x105 (((s.wr (R.STG_CFG .mc) 0x4A110282).wr (R.STG_ARG .mc) 0x31))
theorem test_arm : (armed2.get (F.ASC_RES_RESULT .mc), armed2.get (F.ASC_RES_ENT_STATE .mc)) = (0, 1) := by decide +kernel
/-- Table 3.2 and R57: at reset the serial data line of a preamp is pulled down and the write gate low; OFF powers nothing. -/
theorem test_balls : ballShown r0 (.paSdio 0) = .pullDown ∧ ballShown r0 (.paWg 0) = .drive false ∧
    ballShown (inMode 0) (.paSdio 0) = .unpowered := by decide +kernel

/-- Table 2.8: COAST_RPM written 10,001 stores the nearest limit; bits [31:30] are not part of it (R10). -/
theorem test_coast_limit : (atbCtlWrite 0x27110810 r0).get F.ATB_CTL_COAST_RPM = 10000 ∧
    (atbCtlWrite 0xDC200810 r0).get F.ATB_CTL_COAST_RPM = 7200 := by decide +kernel

/-! ### Witnesses of the obligations' hypotheses -/

theorem witness_AngleTimebaseCommandsComplete :
    (∃ (m : Master) (v : Word) (s : State) (u : State),
      u = (((s.put F.ATB_CTL_EN (bitsOf v 0 0)).put F.ATB_CTL_HOLD_REVS (bitsOf v 7 4)).put F.ATB_CTL_ACQ_REVS (Nat.max (bitsOf v 11 8) 1)).put F.ATB_CTL_COAST_RPM (coastRpm (bitsOf v 29 16)) ∧
      gated s m = false ∧ bitsOf v 0 0 = 1) ∧
    (∃ (m : Master) (v : Word) (s : State) (u : State),
      u = (((s.put F.ATB_CTL_EN (bitsOf v 0 0)).put F.ATB_CTL_HOLD_REVS (bitsOf v 7 4)).put F.ATB_CTL_ACQ_REVS (Nat.max (bitsOf v 11 8) 1)).put F.ATB_CTL_COAST_RPM (coastRpm (bitsOf v 29 16)) ∧
      gated s m = false ∧ bitsOf v 0 0 = 0) ∧
    (∃ (s : State) (u : State),
      (u = (s.onAtb fun (a : AtbState) => { a with qual := 256, low := 0 }).raiseBit F.ATB_STAT_SIGOK) ∧
      trackFlown s = true ∧ u.on F.ATB_CTL_EN = true ∧ (atbIs u aCOAST = true ∨ atbIs u aHOLDOVER = true)) ∧
    (∃ (run : BitVec 8) (c : BitVec 64) (speed : BitVec 18) (track : Track) (s : State) (u : State),
      u = s.atbSeen track.amp track.cycles ∧ 28 ≤ run.toNat ∧ run.toNat ≤ 32 ∧ trackFlown u = true ∧
      atbIs u aLOCKED = true ∧ indexPlaced c = true ∧ speedInSpan speed.toNat = true) ∧
    (∃ (run : BitVec 8) (c : BitVec 64) (track : Track) (s : State) (u : State), u = s.atbSeen track.amp track.cycles ∧
      28 ≤ run.toNat ∧ run.toNat ≤ 32 ∧ trackFlown u = true ∧ atbIs u aLOCKED = true ∧ indexPlaced c = false) ∧
    (∃ (run : BitVec 8) (c : BitVec 64) (gap : BitVec 32) (speed : BitVec 18) (track : Track) (s : State) (u : State) (w : State),
      u = s.atbSeen track.amp track.cycles ∧
      (w = (u.onAtb fun (a : AtbState) => { a with marks := if a.marks ≠ 0 ∧ gap.toNat = 1048576 then a.marks + 1 else 1, located := true, cyc := run.toNat, edge := c, inSpan := speedInSpan speed.toNat })) ∧
      28 ≤ run.toNat ∧ run.toNat ≤ 32 ∧ trackFlown u = true ∧ atbIs u aACQUIRE = true ∧ u.on F.ATB_STAT_HOLD = false ∧
      lockConfirmed w = true) ∧
    (∃ (run : BitVec 8) (c : BitVec 64) (gap : BitVec 32) (speed : BitVec 18) (track : Track) (s : State) (u : State) (w : State),
      u = s.atbSeen track.amp track.cycles ∧
      (w = (u.onAtb fun (a : AtbState) => { a with marks := if a.marks ≠ 0 ∧ gap.toNat = 1048576 then a.marks + 1 else 1, located := true, cyc := run.toNat, edge := c, inSpan := speedInSpan speed.toNat })) ∧
      28 ≤ run.toNat ∧ run.toNat ≤ 32 ∧ trackFlown u = true ∧ atbIs u aACQUIRE = true ∧ u.on F.ATB_STAT_HOLD = false ∧
      lockConfirmed w = false) ∧
    (∃ (s : State) (u : State), (u = (s.onAtb fun (a : AtbState) => { a with inside := 1024, beyond := 0 })) ∧
      atbIs s aACQUIRE = true ∧ trackFlown s = true ∧ lockConfirmed u = true) ∧
    (∃ (s : State) (u : State), (u = (s.onAtb fun (a : AtbState) => { a with inside := 1024, beyond := 0 })) ∧
      atbIs s aACQUIRE = true ∧ trackFlown s = true ∧ lockConfirmed u = false) ∧
    (∃ (c : BitVec 64), 2 ^ 28 < c.toNat % rev) ∧
    (∃ (c : BitVec 64) (ticks : Nat) (s : State), c.toNat % rev ≤ 2 ^ 28 ∧ c.toNat / rev * rev + ticks < angleNow s) ∧
    (∃ (s : State), atbIs s aACQUIRE = true ∧ s.on F.ATB_STAT_HOLD = true) ∧
    (∃ (amp : BitVec 8) (l : List TrackRun) (s : State) (u : State), u = s.atbSeen amp l ∧ atbIs u aACQUIRE = true ∧
      revsPassed u (u.get F.ATB_CTL_ACQ_REVS) = true) ∧
    (∃ (amp : BitVec 8) (l : List TrackRun) (s : State) (u : State), u = s.atbSeen amp l ∧ atbIs u aACQUIRE = true ∧
      u.atb.low = 16) ∧
    (∃ (amp : BitVec 8) (l : List TrackRun) (s : State) (u : State), u = s.atbSeen amp l ∧ atbIs u aLOCKED = true ∧
      u.atb.low = 16) ∧
    (∃ (amp : BitVec 8) (l : List TrackRun) (s : State) (u : State), u = s.atbSeen amp l ∧ atbIs u aLOCKED = true ∧
      u.atb.beyond = 16) ∧
    (∃ (amp : BitVec 8) (l : List TrackRun) (s : State) (u : State), u = s.atbSeen amp l ∧ atbIs u aLOCKED = true ∧
      u.atb.missed = 0) ∧
    (∃ (amp : BitVec 8) (l : List TrackRun) (s : State) (u : State), u = s.atbSeen amp l ∧ atbIs u aLOCKED = true ∧
      u.atb.missed ≠ 0) ∧
    (∃ (s : State), atbIs s aHOLDOVER = true ∧ revsPassed s (s.get F.ATB_CTL_HOLD_REVS) = true) :=
  ⟨⟨.mc, 1, r0, _, rfl, by decide +kernel⟩,
   ⟨.mc, 0, r0, _, rfl, by decide +kernel⟩,
   ⟨flown ((atbAt aCOAST).put F.ATB_CTL_EN 1), _, rfl, by decide +kernel⟩,
   ⟨28, 16384, 80000, ⟨0, []⟩, flown (atbAt aLOCKED), _, rfl, by decide +kernel⟩,
   ⟨32, 16385, ⟨0, []⟩, flown (atbAt aLOCKED), _, rfl, by decide +kernel⟩,
   ⟨28, 0, 1048576, 168000, ⟨0, []⟩, flown { atbAt aACQUIRE with atb := { inside := 1024, marks := 1 } }, _, _, rfl, rfl,
     by decide +kernel⟩,
   ⟨32, 0, 1048575, 168000, ⟨0, []⟩, flown { atbAt aACQUIRE with atb := { inside := 1024, marks := 1 } }, _, _, rfl, rfl,
     by decide +kernel⟩,
   ⟨flown { atbAt aACQUIRE with atb := { inSpan := true, marks := 2 } }, _, rfl, by decide +kernel⟩,
   ⟨flown { atbAt aACQUIRE with atb := { inSpan := true, marks := 1 } }, _, rfl, by decide +kernel⟩,
   ⟨268435457, by decide +kernel⟩,
   ⟨0, 0, { (atbAt aACQUIRE).put F.ATB_CTL_ACQ_REVS 1 with atb := { count := 4294967296 } }, by decide +kernel⟩,
   ⟨(atbAt aACQUIRE).put F.ATB_STAT_HOLD 1, by decide +kernel⟩,
   ⟨0, [], { (atbAt aACQUIRE).put F.ATB_CTL_ACQ_REVS 1 with atb := { count := 4294967296 } }, _, rfl, by decide +kernel⟩,
   ⟨0, [], { atbAt aACQUIRE with atb := { low := 16 } }, _, rfl, by decide +kernel⟩,
   ⟨0, [], { atbAt aLOCKED with atb := { low := 16 } }, _, rfl, by decide +kernel⟩,
   ⟨0, [], { atbAt aLOCKED with atb := { beyond := 16 } }, _, rfl, by decide +kernel⟩,
   ⟨0, [], atbAt aLOCKED, _, rfl, by decide +kernel⟩,
   ⟨0, [], { atbAt aLOCKED with atb := { missed := 1 } }, _, rfl, by decide +kernel⟩,
   ⟨{ (atbAt aHOLDOVER).put F.ATB_CTL_HOLD_REVS 1 with atb := { count := 4294967296 } }, by decide +kernel⟩⟩

theorem witness_SchedulerCommandsComplete :
    (∃ (m : Master) (v : Word) (s : State) (i : Nat) (e : AscEntry), i = bitsOf v 7 0 ∧ e = staged s m ∧
      gated s m = false ∧ armCheck s i e = arOK ∧ e.revq = false) ∧
    (∃ (m : Master) (v : Word) (s : State) (i : Nat) (e : AscEntry), i = bitsOf v 7 0 ∧ e = staged s m ∧
      gated s m = false ∧ armCheck s i e = arOK ∧ e.revq = true ∧ ascIsLate s e = false) ∧
    (∃ (m : Master) (v : Word) (s : State) (i : Nat) (e : AscEntry), i = bitsOf v 7 0 ∧ e = staged s m ∧
      gated s m = false ∧ armCheck s i e = arOK ∧ e.revq = true ∧ ascIsLate s e = true) ∧
    (∃ (m : Master) (v : Word) (s : State), gated s m = false ∧ armCheck s (bitsOf v 7 0) (staged s m) ≠ arOK) ∧
    (∃ (m : Master) (v : Word) (s : State) (i : Nat), i = bitsOf v 7 0 ∧ gated s m = false ∧ ascOwned s i = true) ∧
    (∃ (m : Master) (v : Word) (s : State) (i : Nat), i = bitsOf v 7 0 ∧ gated s m = false ∧ ascOwned s i = false ∧
      (s.entry i).st = .armed) ∧
    (∃ (m : Master) (v : Word) (s : State) (i : Nat), i = bitsOf v 7 0 ∧ gated s m = false ∧ ascOwned s i = false ∧
      ((s.entry i).st = .dispatched ∨ (s.entry i).st = .issued)) ∧
    (∃ (m : Master) (v : Word) (s : State) (i : Nat), i = bitsOf v 7 0 ∧ gated s m = false ∧ ascOwned s i = false ∧
      ((s.entry i).st = .free ∨ (s.entry i).st = .suppressed ∨ (s.entry i).st = .cancelled)) ∧
    (∃ (m : Master) (s : State) (i : _), gated s m = false ∧ s.regsWf = true ∧ s.ascWf = true ∧ i < 256 ∧
      (s.entry i).st = .armed ∧ ascOwned s i = false) ∧
    (∃ (m : Master) (s : State) (i : _), gated s m = false ∧ s.regsWf = true ∧ s.ascWf = true ∧
      ((s.entry i).st ≠ .armed ∨ ascOwned s i = true)) :=
  ⟨⟨.sec, 128, r0.wr (R.STG_CFG .sec) 0x0B1, _, _, rfl, rfl, by decide +kernel⟩,
   ⟨.sec, 0, (r0.wr (R.STG_CFG .sec) 0x10282), _, _, rfl, rfl, by decide +kernel⟩,
   ⟨.sec, 128, { r0.wr (R.STG_CFG .sec) 0x2B1 with atb := { count := 1 } }, _, _, rfl, rfl, by decide +kernel⟩,
   ⟨.mc, 0, r0, by decide +kernel⟩,
   ⟨.sec, 127, r0.put F.ASC_CTL_HWORD 1, _, rfl, by decide +kernel⟩,
   ⟨.mc, 0, entryAt { st := .armed }, _, rfl, by decide +kernel⟩,
   ⟨.sec, 0, entryAt { st := .dispatched }, _, rfl, by decide +kernel⟩,
   ⟨.mc, 0, r0, _, rfl, by decide +kernel⟩,
   ⟨.mc, entryAt { st := .armed }, 0, by decide +kernel⟩,
   ⟨.mc, (entryAt { st := .armed }).put F.ASC_CTL_HWORD 1, 127, by decide +kernel⟩⟩

theorem witness_SchedulerEventsIssue :
    (∃ (i : BitVec 8) (s : State), (s.entry i.toNat).st = .armed ∧ (s.entry i.toNat).due ≤ angleNow s + twoCycles) ∧
    (∃ (i : BitVec 8) (s : State) (u : State) (e : AscEntry), s.entry i.toNat = e ∧
      u = s.setEntry i.toNat (if e.period = 0 then { e with st := .issued } else rearmed s e) ∧ e.st = .dispatched ∧
      e.due ≤ angleNow s ∧
      ((s.asc.any fun p => goesBefore (domainPeriod s e.dom) i.toNat e p.1 p.2 (angleNow s)) = false) ∧
      classIssues s e.cls = true ∧ ascWaits u e.cls e.argv = false ∧ e.cls = clsSERVO) ∧
    (∃ (i : BitVec 8) (s : State) (u : State) (e : AscEntry), s.entry i.toNat = e ∧
      u = s.setEntry i.toNat (if e.period = 0 then { e with st := .issued } else rearmed s e) ∧ e.st = .dispatched ∧
      e.due ≤ angleNow s ∧
      ((s.asc.any fun p => goesBefore (domainPeriod s e.dom) i.toNat e p.1 p.2 (angleNow s)) = false) ∧
      classIssues s e.cls = true ∧ ascWaits u e.cls e.argv = false ∧ e.cls = clsREAD) ∧
    (∃ (i : BitVec 8) (s : State) (u : State) (e : AscEntry), s.entry i.toNat = e ∧
      u = s.setEntry i.toNat (if e.period = 0 then { e with st := .issued } else rearmed s e) ∧ e.st = .dispatched ∧
      e.due ≤ angleNow s ∧
      ((s.asc.any fun p => goesBefore (domainPeriod s e.dom) i.toNat e p.1 p.2 (angleNow s)) = false) ∧
      classIssues s e.cls = true ∧ ascWaits u e.cls e.argv = false ∧ e.cls = clsWRITE) ∧
    (∃ (i : BitVec 8) (s : State) (u : State) (e : AscEntry), s.entry i.toNat = e ∧
      u = s.setEntry i.toNat (if e.period = 0 then { e with st := .issued } else rearmed s e) ∧ e.st = .dispatched ∧
      e.due ≤ angleNow s ∧
      ((s.asc.any fun p => goesBefore (domainPeriod s e.dom) i.toNat e p.1 p.2 (angleNow s)) = false) ∧
      classIssues s e.cls = true ∧ ascWaits u e.cls e.argv = false ∧ e.cls = clsPOLL) ∧
    (∃ (i : BitVec 8) (s : State) (u : State) (e : AscEntry), s.entry i.toNat = e ∧
      u = s.setEntry i.toNat (if e.period = 0 then { e with st := .issued } else rearmed s e) ∧ e.st = .dispatched ∧
      e.due ≤ angleNow s ∧
      ((s.asc.any fun p => goesBefore (domainPeriod s e.dom) i.toNat e p.1 p.2 (angleNow s)) = false) ∧
      classIssues s e.cls = true ∧ ascWaits u e.cls e.argv = false ∧ e.cls = clsREL) ∧
    (∃ (i : BitVec 8) (s : State) (u : State) (e : AscEntry), s.entry i.toNat = e ∧
      u = s.setEntry i.toNat (if e.period = 0 then { e with st := .issued } else rearmed s e) ∧ e.st = .dispatched ∧
      e.due ≤ angleNow s ∧
      ((s.asc.any fun p => goesBefore (domainPeriod s e.dom) i.toNat e p.1 p.2 (angleNow s)) = false) ∧
      classIssues s e.cls = true ∧ ascWaits u e.cls e.argv = false ∧ e.cls = clsSEAL) ∧
    (∃ (i : BitVec 8) (s : State) (u : State) (e : AscEntry), s.entry i.toNat = e ∧
      u = s.setEntry i.toNat (if e.period = 0 then { e with st := .issued } else rearmed s e) ∧ e.st = .dispatched ∧
      e.due ≤ angleNow s ∧
      ((s.asc.any fun p => goesBefore (domainPeriod s e.dom) i.toNat e p.1 p.2 (angleNow s)) = false) ∧
      classIssues s e.cls = true ∧ ascWaits u e.cls e.argv = false ∧ e.cls = clsIRQ) ∧
    (∃ (i : BitVec 8) (s : State) (u : State) (e : AscEntry) (t : State), s.entry i.toNat = e ∧
      u = s.setEntry i.toNat (if e.period = 0 then { e with st := .issued } else rearmed s e) ∧
      t = { u with latched := u.latched ++ [({ cls := e.cls, arg := e.argv, due := e.due } : Latched)] } ∧
      e.st = .dispatched ∧ e.due ≤ angleNow s ∧
      ((s.asc.any fun p => goesBefore (domainPeriod s e.dom) i.toNat e p.1 p.2 (angleNow s)) = false) ∧
      classIssues s e.cls = true ∧ ascWaits u e.cls e.argv = true ∧ e.cls = clsSERVO) ∧
    (∃ (i : BitVec 8) (s : State) (u : State) (e : AscEntry) (t : State), s.entry i.toNat = e ∧
      u = s.setEntry i.toNat (if e.period = 0 then { e with st := .issued } else rearmed s e) ∧
      t = { u with latched := u.latched ++ [({ cls := e.cls, arg := e.argv, due := e.due } : Latched)] } ∧
      e.st = .dispatched ∧ e.due ≤ angleNow s ∧
      ((s.asc.any fun p => goesBefore (domainPeriod s e.dom) i.toNat e p.1 p.2 (angleNow s)) = false) ∧
      classIssues s e.cls = true ∧ ascWaits u e.cls e.argv = true ∧ e.cls = clsPOLL) ∧
    (∃ (i : BitVec 8) (s : State) (u : State) (e : AscEntry) (t : State), s.entry i.toNat = e ∧
      u = s.setEntry i.toNat (if e.period = 0 then { e with st := .issued } else rearmed s e) ∧
      t = { u with latched := u.latched ++ [({ cls := e.cls, arg := e.argv, due := e.due } : Latched)] } ∧
      e.st = .dispatched ∧ e.due ≤ angleNow s ∧
      ((s.asc.any fun p => goesBefore (domainPeriod s e.dom) i.toNat e p.1 p.2 (angleNow s)) = false) ∧
      classIssues s e.cls = true ∧ ascWaits u e.cls e.argv = true ∧ e.cls = clsREL) ∧
    (∃ (i : BitVec 8) (s : State) (u : State) (e : AscEntry) (t : State), s.entry i.toNat = e ∧
      u = s.setEntry i.toNat (if e.period = 0 then { e with st := .issued } else rearmed s e) ∧
      t = { u with latched := u.latched ++ [({ cls := e.cls, arg := e.argv, due := e.due } : Latched)] } ∧
      e.st = .dispatched ∧ e.due ≤ angleNow s ∧
      ((s.asc.any fun p => goesBefore (domainPeriod s e.dom) i.toNat e p.1 p.2 (angleNow s)) = false) ∧
      classIssues s e.cls = true ∧ ascWaits u e.cls e.argv = true ∧ e.cls = clsSEAL) ∧
    (∃ (i : BitVec 8) (s : State) (u : State) (e : AscEntry) (t : State), s.entry i.toNat = e ∧
      u = s.setEntry i.toNat (if e.period = 0 then { e with st := .issued } else rearmed s e) ∧
      t = { u with latched := u.latched ++ [({ cls := e.cls, arg := e.argv, due := e.due } : Latched)] } ∧
      e.st = .dispatched ∧ e.due ≤ angleNow s ∧
      ((s.asc.any fun p => goesBefore (domainPeriod s e.dom) i.toNat e p.1 p.2 (angleNow s)) = false) ∧
      classIssues s e.cls = true ∧ ascWaits u e.cls e.argv = true ∧ e.cls = clsIRQ) ∧
    (∃ (i : BitVec 8) (s : State) (u : State) (e : AscEntry), s.entry i.toNat = e ∧
      u = s.setEntry i.toNat (if e.period = 0 then { e with st := .issued } else rearmed s e) ∧ e.st = .dispatched ∧
      e.due ≤ angleNow s ∧
      ((s.asc.any fun p => goesBefore (domainPeriod s e.dom) i.toNat e p.1 p.2 (angleNow s)) = false) ∧
      classIssues s e.cls = false ∧ e.cls = clsSERVO) ∧
    (∃ (i : BitVec 8) (s : State) (u : State) (e : AscEntry), s.entry i.toNat = e ∧
      u = s.setEntry i.toNat (if e.period = 0 then { e with st := .issued } else rearmed s e) ∧ e.st = .dispatched ∧
      e.due ≤ angleNow s ∧
      ((s.asc.any fun p => goesBefore (domainPeriod s e.dom) i.toNat e p.1 p.2 (angleNow s)) = false) ∧
      classIssues s e.cls = false ∧ e.cls = clsREAD) ∧
    (∃ (i : BitVec 8) (s : State) (u : State) (e : AscEntry), s.entry i.toNat = e ∧
      u = s.setEntry i.toNat (if e.period = 0 then { e with st := .issued } else rearmed s e) ∧ e.st = .dispatched ∧
      e.due ≤ angleNow s ∧
      ((s.asc.any fun p => goesBefore (domainPeriod s e.dom) i.toNat e p.1 p.2 (angleNow s)) = false) ∧
      classIssues s e.cls = false ∧ e.cls = clsWRITE) ∧
    (∃ (i : BitVec 8) (s : State) (u : State) (e : AscEntry), s.entry i.toNat = e ∧
      u = s.setEntry i.toNat (if e.period = 0 then { e with st := .issued } else rearmed s e) ∧ e.st = .dispatched ∧
      e.due ≤ angleNow s ∧
      ((s.asc.any fun p => goesBefore (domainPeriod s e.dom) i.toNat e p.1 p.2 (angleNow s)) = false) ∧
      classIssues s e.cls = false ∧ e.cls = clsPOLL) ∧
    (∃ (s : State) (l : Latched) (pre : List Latched) (rest : List Latched), s.latched = pre ++ l :: rest ∧
      (∀ x ∈ pre, ascWaits s x.cls x.arg = true) ∧ ascWaits s l.cls l.arg = false) :=
  ⟨⟨0, entryAt { st := .armed, cfg := 0x021, due := 8192 } (atbAt aLOCKED), by decide +kernel⟩,
   ⟨0, entryAt { cfg := 0xB1, st := .dispatched } (atbAt 2 (inMode mFLOW)), _, _, rfl, rfl, by decide +kernel⟩,
   ⟨0, entryAt { cfg := 0x82, st := .dispatched } (atbAt 2 (inMode mFLOW)), _, _, rfl, rfl, by decide +kernel⟩,
   ⟨0, entryAt { cfg := 0x93, st := .dispatched } (atbAt 2 (inMode mFLOW)), _, _, rfl, rfl, by decide +kernel⟩,
   ⟨0, entryAt { cfg := 0x114, st := .dispatched } (atbAt 2 (inMode mFLOW)), _, _, rfl, rfl, by decide +kernel⟩,
   ⟨0, entryAt { st := .dispatched, cfg := 0x0C5 }, _, _, rfl, rfl, by decide +kernel⟩,
   ⟨0, entryAt { st := .dispatched, cfg := 0x026 }, _, _, rfl, rfl, by decide +kernel⟩,
   ⟨0, entryAt { st := .dispatched, cfg := 0x027 }, _, _, rfl, rfl, by decide +kernel⟩,
   ⟨0, entryAt { cfg := 0xB1, st := .dispatched } (atbAt 2), _, _, _, rfl, rfl, rfl, by decide +kernel⟩,
   ⟨0, entryAt { cfg := 0x114, st := .dispatched } (atbAt 2 (inMode mRETREAT)), _, _, _, rfl, rfl, rfl, by decide +kernel⟩,
   ⟨0, entryAt { cfg := 0xC5, st := .dispatched } (inMode mDORMANT), _, _, _, rfl, rfl, rfl, by decide +kernel⟩,
   ⟨255, { inMode mOFF with asc := [(255, { cfg := 0x26, st := .dispatched })] }, _, _, _, rfl, rfl, rfl,
     by decide +kernel⟩,
   ⟨0, entryAt { st := .dispatched, cfg := 0x067, arg := 4 } (inMode mDORMANT), _, _, _, rfl, rfl, rfl, by decide +kernel⟩,
   ⟨0, entryAt { st := .dispatched, cfg := 0x0B1 } (inMode mFLOW), _, _, rfl, rfl, by decide +kernel⟩,
   ⟨0, entryAt { st := .dispatched, cfg := 0x082 }, _, _, rfl, rfl, by decide +kernel⟩,
   ⟨0, entryAt { st := .dispatched, cfg := 0x093 }, _, _, rfl, rfl, by decide +kernel⟩,
   ⟨0, entryAt { st := .dispatched, cfg := 0x114 }, _, _, rfl, rfl, by decide +kernel⟩,
   ⟨{ inMode mFLOW with latched := [{ cls := 1, arg := 0, due := 0 }] }, { cls := 1, arg := 0, due := 0 }, [], [],
     by decide +kernel⟩⟩

theorem witness_PinAndUartCommandsComplete :
    (∃ (s : State), s.pmx.strapped = false ∧ s.mode ≠ mOFF ∧ s.regsWf = true) ∧
    (∃ (s : State), s.pmx.strapped = true ∧ s.pmx.handed = false) ∧
    (∃ (m : Master) (s : State) (u : State) (w : State) (diff : List Nat) (busy : List Nat) (dup : List Nat),
      u = s.clr F.PMX_REFUSE_PINS ∧ w = u.pmxHold.pmxApply ∧ (diff = balls.filter (fun n => pinSel u n != pinAct u n)) ∧
      (busy = diff.filter (fun n => sigBusy u (signalOf n (pinAct u n)) && !u.on (F.PMX_PIN_FORCE n))) ∧
      (dup = balls.filter (fun n => dupBall u n)) ∧ gated s m = false ∧ s.on F.PMX_STAT_BUSY = false ∧ busy ≠ []) ∧
    (∃ (m : Master) (s : State) (u : State) (w : State) (diff : List Nat) (busy : List Nat) (dup : List Nat),
      u = s.clr F.PMX_REFUSE_PINS ∧ w = u.pmxHold.pmxApply ∧ (diff = balls.filter (fun n => pinSel u n != pinAct u n)) ∧
      (busy = diff.filter (fun n => sigBusy u (signalOf n (pinAct u n)) && !u.on (F.PMX_PIN_FORCE n))) ∧
      (dup = balls.filter (fun n => dupBall u n)) ∧ gated s m = false ∧ s.on F.PMX_STAT_BUSY = false ∧ busy = [] ∧
      dup ≠ []) ∧
    (∃ (m : Master) (s : State) (u : State) (w : State) (diff : List Nat) (busy : List Nat) (dup : List Nat),
      u = s.clr F.PMX_REFUSE_PINS ∧ w = u.pmxHold.pmxApply ∧ (diff = balls.filter (fun n => pinSel u n != pinAct u n)) ∧
      (busy = diff.filter (fun n => sigBusy u (signalOf n (pinAct u n)) && !u.on (F.PMX_PIN_FORCE n))) ∧
      (dup = balls.filter (fun n => dupBall u n)) ∧ gated s m = false ∧ s.on F.PMX_STAT_BUSY = false ∧ busy = [] ∧
      dup = [] ∧ diff = []) ∧
    (∃ (m : Master) (s : State) (u : State) (w : State) (diff : List Nat) (busy : List Nat) (dup : List Nat),
      u = s.clr F.PMX_REFUSE_PINS ∧ w = u.pmxHold.pmxApply ∧ (diff = balls.filter (fun n => pinSel u n != pinAct u n)) ∧
      (busy = diff.filter (fun n => sigBusy u (signalOf n (pinAct u n)) && !u.on (F.PMX_PIN_FORCE n))) ∧
      (dup = balls.filter (fun n => dupBall u n)) ∧ gated s m = false ∧ s.on F.PMX_STAT_BUSY = false ∧ busy = [] ∧
      dup = [] ∧ diff ≠ []) ∧
    (∃ (s : State) (u : State), (u = s.onPmx (fun p => { p with rejoin := p.rejoin.filter fun n => ballStopped s n })) ∧
      u.on F.PMX_STAT_BUSY = true) ∧
    (∃ (s : State) (u : State), (u = s.onPmx (fun p => { p with rejoin := p.rejoin.filter fun n => ballStopped s n })) ∧
      u.on F.PMX_STAT_BUSY = false) ∧
    (∃ (m : Master) (n : BitVec 5) (s : State), gated s m = false ∧ n.toNat < 24) ∧
    (∃ (m : Master) (s : State), gated s m = false ∧ s.pmx.tx.length < 16) ∧
    (∃ (m : Master) (s : State), gated s m = false ∧ 16 ≤ s.pmx.tx.length) ∧
    (∃ (b : Byte) (s : State), s.pmx.shifting = some b ∧ s.pmx.tx = []) ∧
    (∃ (s : State), s.on F.UART_CTL_EN = true ∧ connected s .uartRx = true) ∧
    (∃ (s : State) (u : State), u = s.put F.UART_STAT_RXBUSY 0 ∧ s.on F.UART_STAT_RXBUSY = true ∧ s.pmx.rx.length < 16) ∧
    (∃ (s : State) (u : State), u = s.put F.UART_STAT_RXBUSY 0 ∧ s.on F.UART_STAT_RXBUSY = true ∧ 16 ≤ s.pmx.rx.length) :=
  ⟨⟨r0, by decide +kernel⟩,
   ⟨{ r0 with pmx := { strapped := true } }, by decide +kernel⟩,
   ⟨.sec, { r0.put (F.PMX_PIN_SEL 0) 0 |>.put (F.PMX_PIN_ACT 0) 1 with pmx := { tx := [0] } }, _, _, _, _, _, rfl, rfl,
     rfl, rfl, rfl, by decide +kernel⟩,
   ⟨.sec, ((r0.put (F.PMX_PIN_SEL 0) 1).put (F.PMX_PIN_SEL 4) 2), _, _, _, _, _, rfl, rfl, rfl, rfl, rfl,
     by decide +kernel⟩,
   ⟨.mc, r0, _, _, _, _, _, rfl, rfl, rfl, rfl, rfl, by decide +kernel⟩,
   ⟨.mc, r0.put (F.PMX_PIN_SEL 2) 1, _, _, _, _, _, rfl, rfl, rfl, rfl, rfl, by decide +kernel⟩,
   ⟨r0.put F.PMX_STAT_BUSY 1, _, rfl, by decide +kernel⟩,
   ⟨r0, _, rfl, by decide +kernel⟩,
   ⟨.mc, 0, r0, by decide +kernel⟩,
   ⟨.mc, r0, by decide +kernel⟩,
   ⟨.sec, { r0 with pmx := { tx := zeros 16 } }, by decide +kernel⟩,
   ⟨7, { r0 with pmx := { shifting := some 7 } }, by decide +kernel⟩,
   ⟨{ (r0.put F.UART_CTL_EN 1).put (F.PMX_PIN_ACT 1) 1 with pmx := { handed := true } }, by decide +kernel⟩,
   ⟨{ r0.put F.UART_STAT_RXBUSY 1 with pmx := { rx := List.replicate 15 0 } }, _, rfl, by decide +kernel⟩,
   ⟨{ r0.put F.UART_STAT_RXBUSY 1 with pmx := { rx := zeros 16 } }, _, rfl, by decide +kernel⟩⟩

theorem witness_CommitWhileBusyIsIgnored :
    (∃ (m : Master) (s : State) (k : _), gated s m = false ∧ s.regsWf = true ∧ s.on F.PMX_STAT_BUSY = true ∧
      k ≠ R.PMX_STAT) ∧
    (∃ (m : Master) (s : State) (hi : _) (lo : _), gated s m = false ∧ s.regsWf = true ∧ s.on F.PMX_STAT_BUSY = true ∧
      hi < 32 ∧ lo ≤ hi ∧ (F.PMX_STAT_IGN.lo < lo ∨ hi < F.PMX_STAT_IGN.lo)) :=
  ⟨⟨.mc, r0.put F.PMX_STAT_BUSY 1, 0, by decide +kernel⟩,
   ⟨.mc, r0.put F.PMX_STAT_BUSY 1, 0, 0, by decide +kernel⟩⟩

theorem witness_SupplyCommandsComplete :
    (∃ (s : State), s.mode = mOFF) ∧
    (∃ (s : State), s.regsWf = true ∧ s.mode ≠ mOFF ∧ s.mode ≠ mRETREAT ∧ s.link.logic.up = true) ∧
    (∃ (s : State), s.regsWf = true ∧ s.mode = mRETREAT) ∧
    (∃ (s : State), s.link.logic.up = false) ∧
    (∃ (s : State), s.mode = mRETREAT ∧ s.on F.PCM_STAT_RDONE = true ∧ s.pcm.rstn = true ∧ s.pcm.bay = false ∧
      s.pd.vmotl = false ∧ s.pd.vin5l = false) ∧
    (∃ (left : List (Nat × Byte)), left = []) :=
  ⟨⟨inMode mOFF, by decide +kernel⟩,
   ⟨{ inMode mFLOW with link := { logic := { up := true } } }, by decide +kernel⟩,
   ⟨(inMode mRETREAT).put F.PCM_STAT_RDONE 1, by decide +kernel⟩,
   ⟨r0, by decide +kernel⟩,
   ⟨(inMode mRETREAT).put F.PCM_STAT_RDONE 1, by decide +kernel⟩,
   ⟨_, rfl⟩⟩

theorem witness_ModeRequestsComplete :
    (∃ (m : Master) (s : State), gated s m = false ∧ s.mode ≠ mOFF ∧ m ≠ .sec ∧ m ≠ .mc) ∧
    (∃ (m : Master) (s : State), gated s m = false ∧ s.mode ≠ mOFF ∧ (m = .sec ∨ m = .mc) ∧ s.on F.PCM_STAT_PEND = true) ∧
    (∃ (m : Master) (s : State), gated s m = false ∧ (m = .sec ∨ m = .mc) ∧ s.on F.PCM_STAT_PEND = false ∧
      s.mode = mDRIFT) ∧
    (∃ (m : Master) (s : State), gated s m = false ∧ (m = .sec ∨ m = .mc) ∧ s.on F.PCM_STAT_PEND = false ∧ s.mode = mFLOW) ∧
    (∃ (m : Master) (s : State), gated s m = false ∧ (m = .sec ∨ m = .mc) ∧ s.on F.PCM_STAT_PEND = false ∧
      s.mode = mDORMANT ∧ s.get F.FLNK_SPD_TARGET ≠ 0) ∧
    (∃ (m : Master) (s : State), gated s m = false ∧ (m = .sec ∨ m = .mc) ∧ s.on F.PCM_STAT_PEND = false ∧
      s.mode = mDORMANT ∧ s.get F.FLNK_SPD_TARGET = 0) ∧
    (∃ (m : Master) (s : State), gated s m = false ∧ (m = .sec ∨ m = .mc) ∧ s.on F.PCM_STAT_PEND = false ∧
      s.mode = mRETREAT) ∧
    (∃ (m : Master) (s : State), gated s m = false ∧ (m = .sec ∨ m = .mc) ∧ s.on F.PCM_STAT_PEND = false ∧
      s.mode = mTHAW ∧ m = .mc) ∧
    (∃ (m : Master) (s : State), gated s m = false ∧ (m = .sec ∨ m = .mc) ∧ s.on F.PCM_STAT_PEND = false ∧
      s.mode = mTHAW ∧ m = .sec ∧ thawReady s = true) ∧
    (∃ (m : Master) (s : State), gated s m = false ∧ (m = .sec ∨ m = .mc) ∧ s.on F.PCM_STAT_PEND = false ∧
      s.mode = mTHAW ∧ m = .sec ∧ thawReady s = false) ∧
    (∃ (m : Master) (s : State), gated s m = false ∧ (m = .sec ∨ m = .mc) ∧ s.on F.PCM_STAT_PEND = false ∧
      s.mode = mTHAW ∧ m = .sec ∧ s.on F.SST_STAT_ALLOK = true) ∧
    (∃ (m : Master) (s : State), gated s m = false ∧ (m = .sec ∨ m = .mc) ∧ s.on F.PCM_STAT_PEND = false ∧
      s.mode = mTHAW ∧ m = .sec ∧ s.on F.SST_STAT_ALLOK = false) ∧
    (∃ (m : Master) (s : State), gated s m = false ∧ s.regsWf = true ∧ (m = .sec ∨ m = .mc) ∧ s.mode ≠ mOFF ∧
      s.mode ≠ mRETREAT) ∧
    (∃ (m : Master) (s : State), gated s m = false ∧ s.regsWf = true ∧ (m = .sec ∨ m = .mc) ∧ s.mode ≠ mOFF ∧
      s.mode = mRETREAT) ∧
    (∃ (s : State), s.on F.PCM_STAT_PEND = false ∧ s.mode ≠ mOFF ∧ s.mode ≠ mRETREAT ∧ dirtyEmpty s = true) ∧
    (∃ (s : State), s.on F.PCM_STAT_PEND = false ∧ s.mode ≠ mOFF ∧ s.mode ≠ mRETREAT ∧ dirtyEmpty s = false) ∧
    (∃ (s : State), s.on F.PCM_STAT_PEND = false ∧ s.mode ≠ mOFF ∧ s.mode = mRETREAT) ∧
    (∃ (s : State), s.on F.PCM_STAT_PEND = false ∧ s.mode ≠ mOFF ∧ gated s .mc = false) ∧
    (∃ (p : PcmPend) (s : State), s.pcm.pend = some p ∧ p.step = .sleep ∧ dmaIdle s = true) ∧
    (∃ (p : PcmPend) (s : State), s.pcm.pend = some p ∧ p.step = .leaveFlow ∧ p.final ≠ mDORMANT ∧ mediaIdle s = true) ∧
    (∃ (p : PcmPend) (s : State), s.pcm.pend = some p ∧ p.step = .leaveFlow ∧ p.final = mDORMANT ∧ mediaIdle s = true) ∧
    (∃ (p : PcmPend) (s : State), s.pcm.pend = some p ∧ p.step = .sleep ∧ dmaIdle s = false) ∧
    (∃ (p : PcmPend) (s : State), s.pcm.pend = some p ∧ p.step = .leaveFlow ∧ mediaIdle s = false) ∧
    (∃ (p : PcmPend) (s : State), s.pcm.pend = some p ∧ p.step = .wake ∧ s.get F.FLNK_PD_SPST = 3 ∧
      s.get F.ATB_STAT_STATE = 2 ∧ p.final ≠ mFLOW) ∧
    (∃ (p : PcmPend) (s : State), s.pcm.pend = some p ∧ p.step = .wake ∧ s.get F.FLNK_PD_SPST = 3 ∧
      s.get F.ATB_STAT_STATE = 2 ∧ p.final = mFLOW) ∧
    (∃ (q : BitVec 1) (s : State), (s.port q.toNat).dl = true ∧ s.mode ≠ mRETREAT ∧ s.mode ≠ mOFF ∧
      portQuiet s q.toNat = true) :=
  ⟨⟨.hc0, r0, by decide +kernel⟩,
   ⟨.sec, inMode mFLOW (r0.put F.PCM_STAT_PEND 1), by decide +kernel⟩,
   ⟨.mc, inMode mDRIFT, by decide +kernel⟩,
   ⟨.sec, inMode mFLOW, by decide +kernel⟩,
   ⟨.sec, inMode mDORMANT (r0.put F.FLNK_SPD_TARGET 1), by decide +kernel⟩,
   ⟨.mc, inMode mDORMANT (r0.put F.FLNK_SPD_TARGET 0), by decide +kernel⟩,
   ⟨.sec, inMode mRETREAT, by decide +kernel⟩,
   ⟨.mc, ungated, by decide +kernel⟩,
   ⟨.sec, ((r0.put F.SST_STAT_ALLOK 1).put F.ATB_STAT_STATE 2).put F.FLNK_PD_SPST 3, by decide +kernel⟩,
   ⟨.sec, r0, by decide +kernel⟩,
   ⟨.sec, r0.put F.SST_STAT_ALLOK 1, by decide +kernel⟩,
   ⟨.sec, r0, by decide +kernel⟩,
   ⟨.mc, inMode mDRIFT, by decide +kernel⟩,
   ⟨.sec, inMode mRETREAT, by decide +kernel⟩,
   ⟨r0, by decide +kernel⟩,
   ⟨{ inMode mFLOW with firn := { tags := [(0, { frame := 0, held := some { seg := 0, owner := 0, d := 1 } })] } },
     by decide +kernel⟩,
   ⟨inMode mRETREAT, by decide +kernel⟩,
   ⟨r0, by decide +kernel⟩,
   ⟨{ final := mDORMANT, source := mDRIFT, step := .sleep },
     { r0 with pcm := { pend := some { final := mDORMANT, source := mDRIFT, step := .sleep } } }, by decide +kernel⟩,
   ⟨{ final := mDRIFT, source := mFLOW, step := .leaveFlow },
     { r0 with pcm := { pend := some { final := mDRIFT, source := mFLOW, step := .leaveFlow } } }, by decide +kernel⟩,
   ⟨{ step := .leaveFlow, final := mDORMANT, source := 0 },
     { r0 with pcm := { pend := some { step := .leaveFlow, final := mDORMANT, source := 0 } } }, by decide +kernel⟩,
   ⟨{ final := mDORMANT, source := mDRIFT, step := .sleep },
     { r0.put (F.CHSTAT_STATE 0) 1 with pcm := { pend := some { final := mDORMANT, source := mDRIFT, step := .sleep } } },
     by decide +kernel⟩,
   ⟨{ step := .leaveFlow, final := mDORMANT, source := 0 },
     { chnAt 1 1 op5 with pcm := { pend := some { step := .leaveFlow, final := mDORMANT, source := 0 } } },
     by decide +kernel⟩,
   ⟨{ final := mDRIFT, source := mDORMANT, step := .wake },
     { (atbAt 2).put F.FLNK_PD_SPST 3 with pcm := { pend := some { final := mDRIFT, source := mDORMANT, step := .wake } } },
     by decide +kernel⟩,
   ⟨{ step := .wake, final := mFLOW, source := 0 },
     { (r0.put F.FLNK_PD_SPST 3).put F.ATB_STAT_STATE 2 with pcm := { pend := some { step := .wake, final := mFLOW, source := 0 } } },
     by decide +kernel⟩,
   ⟨1, { inMode mFLOW with ports := [(1, { dl := true })] }, by decide +kernel⟩⟩

theorem witness_DroopGovernorCommandsComplete :
    (∃ (code : BitVec 8) (s : State), s.mode ≠ mOFF ∧ code.toNat ≤ s.get F.DRP_CTL_SLOW ∧ s.on F.DRP_STAT_SLOWED = false) ∧
    (∃ (code : BitVec 8) (low : BitVec 8) (ns : BitVec 32) (s : State) (u : State) (w : State) (total : Nat),
      u = ((s.droopSample low.toNat).droopSample code.toNat).put F.DRP_STAT_SLOWED 0 ∧
      total = u.get F.DRP_SLT_LO_SLT + u.pcm.sltHi * 4294967296 + ns.toNat ∧
      (w = (u.put F.DRP_SLT_LO_SLT total).onPcm (fun c => { c with slowed := c.slowed + ns.toNat, sltHi := total / 4294967296 % 4294967296 })) ∧
      s.on F.DRP_STAT_SLOWED = true ∧ s.get F.DRP_CTL_REL ≤ code.toNat) ∧
    (∃ (code : BitVec 8) (s : State) (u : State),
      u = ((s.droopSample code.toNat).put F.DRP_STAT_DEEPHIT 1).setIn F.PCM_CAUSE_CAUSE 2 ∧ s.mode ≠ mOFF ∧
      code.toNat ≤ s.get F.DRP_CTL_DEEP) ∧
    (∃ (s : State), s.pcm.episodes ≠ 0 ∧ s.mode ≠ mOFF) :=
  ⟨⟨0, r0, by decide +kernel⟩,
   ⟨255, 0, 0, r0.put F.DRP_STAT_SLOWED 1, _, _, _, rfl, rfl, rfl, by decide +kernel⟩,
   ⟨0, r0, _, rfl, by decide +kernel⟩,
   ⟨{ r0 with pcm := { episodes := 1 } }, by decide +kernel⟩⟩

theorem witness_BootRomCommandsComplete :
    (∃ (s : State), s.mode = mTHAW ∧ s.sst.secOut = false ∧ s.sst.fuses.targetRpm = 0) ∧
    (∃ (s : State) (u : State),
      u = (((({ s with sst := { s.sst with secOut := true } } : State).put F.ATB_CTL_COAST_RPM (coastRpm s.sst.fuses.targetRpm)).put F.ATB_CTL_EN 1).flnkSend .unpatch).put F.FLNK_SPD_TARGET s.sst.fuses.targetRpm ∧
      s.mode = mTHAW ∧ s.sst.secOut = false ∧ s.sst.fuses.targetRpm ≠ 0) ∧
    (∃ (s : State) (u : State) (n : Nat), (u = ((s.wakeBank 0).wakeBank 1).onSst (fun x => { x with chosen := true })) ∧
      s.mode = mTHAW ∧ s.sst.secOut = true ∧ s.sst.chosen = false ∧ bestSlot u (u.get F.SST_FAIL_FAILMASK) = some n) ∧
    (∃ (s : State) (u : State), (u = ((s.wakeBank 0).wakeBank 1).onSst (fun x => { x with chosen := true })) ∧
      s.mode = mTHAW ∧ s.sst.secOut = true ∧ s.sst.chosen = false ∧ bestSlot u (u.get F.SST_FAIL_FAILMASK) = none) ∧
    (∃ (s : State) (u : State) (v : State) (k : Nat) (i : Nat) (a : Nat) (b : List Byte) (m : Master), k = s.sst.seg ∧
      i = s.get (F.SST_SEG_LOADED k) ∧ a = slotBase (s.get F.SST_STAT_SLOT) + segOff s.sst.hdr k + 65536 * i ∧
      u = s.wakeBank (bankOf a) ∧ b = blockBytes u s.sst.hdr k i ∧
      (v = ((u.placeBlock k i b).put (F.SST_SEG_LOADED k) (i + 1)).onSst (fun x => { x with landed := x.landed ++ [(k, b)], seg := if i + 1 = segNblk s.sst.hdr k then k + 1 else k })) ∧
      s.sst.loading = true ∧ k < 7 ∧ sectorUnsure u a = false ∧ segCore k = some m) ∧
    (∃ (s : State) (u : State) (v : State) (k : Nat) (i : Nat) (a : Nat) (b : List Byte), k = s.sst.seg ∧
      i = s.get (F.SST_SEG_LOADED k) ∧ a = slotBase (s.get F.SST_STAT_SLOT) + segOff s.sst.hdr k + 65536 * i ∧
      u = s.wakeBank (bankOf a) ∧ b = blockBytes u s.sst.hdr k i ∧
      (v = ((u.placeBlock k i b).put (F.SST_SEG_LOADED k) (i + 1)).onSst (fun x => { x with landed := x.landed ++ [(k, b)], seg := if i + 1 = segNblk s.sst.hdr k then k + 1 else k })) ∧
      s.sst.loading = true ∧ k < 7 ∧ sectorUnsure u a = true) ∧
    (∃ (s : State) (u : State) (k : Nat) (n : Nat) (b : List Byte) (c : List Byte) (l : List (Nat × List Byte)),
      c = sha384 (tabGet s.sst.chains (zeros 48) k ++ b) ∧ n = s.get (F.SST_SEG_HASHED k) + 1 ∧
      (u = (s.onSst fun x => { x with landed := l, chains := tabPut x.chains (zeros 48) k c }).put (F.SST_SEG_HASHED k) n) ∧
      s.sst.landed = (k, b) :: l ∧ n < segNblk s.sst.hdr k) ∧
    (∃ (s : State) (u : State) (k : Nat) (n : Nat) (b : List Byte) (c : List Byte) (l : List (Nat × List Byte)),
      c = sha384 (tabGet s.sst.chains (zeros 48) k ++ b) ∧ n = s.get (F.SST_SEG_HASHED k) + 1 ∧
      (u = (s.onSst fun x => { x with landed := l, chains := tabPut x.chains (zeros 48) k c }).put (F.SST_SEG_HASHED k) n) ∧
      s.sst.landed = (k, b) :: l ∧ segNblk s.sst.hdr k ≤ n ∧ c = segFinal s.sst.hdr k) ∧
    (∃ (s : State) (u : State) (k : Nat) (n : Nat) (b : List Byte) (c : List Byte) (l : List (Nat × List Byte)),
      c = sha384 (tabGet s.sst.chains (zeros 48) k ++ b) ∧ n = s.get (F.SST_SEG_HASHED k) + 1 ∧
      (u = (s.onSst fun x => { x with landed := l, chains := tabPut x.chains (zeros 48) k c }).put (F.SST_SEG_HASHED k) n) ∧
      s.sst.landed = (k, b) :: l ∧ segNblk s.sst.hdr k ≤ n ∧ c ≠ segFinal s.sst.hdr k) ∧
    (∃ (s : State) (u : State) (ok : Bool), s.sst.ecc = some .header ∧ s.sst.eccOld = false ∧ u = s.eccFree ∧
      ok = ecdsaVerify (slice s.sst.hdr 0x250 96) (sha384 (slice s.sst.hdr 0 0xFA0)) (slice s.sst.hdr 0xFA0 96) ∧
      ok = true) ∧
    (∃ (s : State) (u : State) (ok : Bool), s.sst.ecc = some .header ∧ s.sst.eccOld = false ∧ u = s.eccFree ∧
      ok = ecdsaVerify (slice s.sst.hdr 0x250 96) (sha384 (slice s.sst.hdr 0 0xFA0)) (slice s.sst.hdr 0xFA0 96) ∧
      ok = false) ∧
    (∃ (s : State), s.sst.ecc = some .header ∧ s.sst.eccOld = true) :=
  ⟨⟨r0, by decide +kernel⟩,
   ⟨{ r0 with sst := { fuses := { targetRpm := 7200 } } }, _, rfl, by decide +kernel⟩,
   ⟨{ r0 with sst := { secOut := true }, store := goodSlot }, _, 0, rfl, by decide +kernel⟩,
   ⟨{ r0 with sst := { secOut := true } }, _, rfl, by decide +kernel⟩,
   ⟨{ r0 with sst := { loading := true } }, _, _, _, _, _, _, .sec, rfl, rfl, rfl, rfl, rfl, rfl, by decide +kernel⟩,
   ⟨{ r0.setBank 0 { r0.bank 0 with inc := some (sectorOf 0x20000000) } with sst := { loading := true } }, _, _, _, _, _,
     _, rfl, rfl, rfl, rfl, rfl, rfl, by decide +kernel⟩,
   ⟨{ r0 with sst := { landed := [(0, [])], hdr := [] ++ zeros 0x22 ++ [2, 0] } }, _, 0, _, [], _, [], rfl, rfl, rfl,
     by decide +kernel⟩,
   ⟨{ r0 with sst := { landed := [(0, [])], hdr := zeros 48 ++ sha384 (zeros 48) } }, _, 0, _, [], _, [], rfl, rfl, rfl,
     by decide +kernel⟩,
   ⟨{ r0 with sst := { landed := [(0, [])] } }, _, 0, _, [], _, [], rfl, rfl, rfl, by decide +kernel⟩,
   ⟨eccAt .header { r0 with sst := { hdr := signedHeader } }, _, true, rfl, rfl, rfl, by decide +kernel, rfl⟩,
   ⟨eccAt .header, _, false, rfl, rfl, rfl, by decide +kernel, rfl⟩,
   ⟨{ r0 with sst := { ecc := some .header, eccOld := true } }, by decide +kernel⟩⟩

theorem witness_KeyCommandsComplete :
    (∃ (s : State), s.sst.ecc = some .devid) ∧
    (∃ (s : State), s.sst.ecc = some .alias_ ∧ s.sst.eccOld = false) ∧
    (∃ (s : State), s.sst.ecc = some .alias_ ∧ s.sst.eccOld = true) ∧
    (∃ (s : State), s.sst.alias_ = true ∧ segPassed s 1 = true ∧ s.sst.handed = false) ∧
    (∃ (s : State), (s.sst.alias_ = false ∨ segPassed s 1 = false ∨ s.sst.handed = true)) ∧
    (∃ (s : State) (u : State) (w : State) (tbs : List Byte) (sig : List Byte) (cert : List Byte),
      s.sst.ecc = some .cert ∧ u = s.eccFree ∧ tbs = tbsCert (devidPub u) (aliasPub u) ∧
      u.sign devidKey (sha384 tbs) = (sig, w) ∧ cert = derCert tbs sig) ∧
    (∃ (m : Master) (s : State), m ≠ .sec ∧ gated s m = false) ∧
    (∃ (v : Word) (s : State) (u : State), u = s.put F.SST_KRES_RESULT 0 ∧ s.on F.SST_KRES_BUSY = false ∧
      s.on F.SST_KLOCK_MEK_USELOCK = false ∧ bitsOf v 1 0 = 1) ∧
    (∃ (v : Word) (s : State) (u : State), u = s.put F.SST_KRES_RESULT 0 ∧ s.on F.SST_KRES_BUSY = false ∧
      s.on F.SST_KLOCK_MEK_USELOCK = false ∧ bitsOf v 1 0 = 2) ∧
    (∃ (v : Word) (s : State) (u : State), u = s.put F.SST_KRES_RESULT 0 ∧ s.on F.SST_KRES_BUSY = false ∧
      s.on F.SST_KLOCK_MEK_USELOCK = true ∧ bitsOf v 1 0 = 1) ∧
    (∃ (v : Word) (s : State) (u : State), u = s.put F.SST_KRES_RESULT 0 ∧ s.on F.SST_KRES_BUSY = false ∧
      s.on F.SST_KLOCK_MEK_USELOCK = true ∧ bitsOf v 1 0 = 2) ∧
    (∃ (s : State), s.on F.SST_KRES_BUSY = true) ∧
    (∃ (s : State) (p : Nat) (salt : List Byte) (k : List Byte), k = mediaKey p salt ∧ s.sst.deriving_ = some (p, salt)) ∧
    (∃ (s : State) (u : State) (p : Nat) (k : List Byte),
      u = { s with cry := { s.cry with keys := tabPut s.cry.keys [] p k } } ∧ (∀ c, c < 16 → (s.chan c).live = false)) ∧
    (∃ (v : Word) (s : State) (u : State), u = s.put F.SST_SRES_RESULT 0 ∧ v.getLsbD 0 = true ∧
      s.on F.SST_SRES_BUSY = false ∧ s.on F.SST_KLOCK_ALIAS_USELOCK = false) ∧
    (∃ (v : Word) (s : State), v.getLsbD 0 = true ∧ s.on F.SST_SRES_BUSY = false ∧ s.on F.SST_KLOCK_ALIAS_USELOCK = true) ∧
    (∃ (v : Word) (s : State), (v.getLsbD 0 = false ∨ s.on F.SST_SRES_BUSY = true)) ∧
    (∃ (s : State) (w : State) (d : List Byte) (sig : List Byte), s.sst.ecc = some .scmd ∧ s.sst.signing = some d ∧
      s.eccFree.sign (aliasKey (segFinal s.sst.hdr 0)) d = (sig, w)) :=
  ⟨⟨eccAt .devid, by decide +kernel⟩,
   ⟨eccAt .alias_, by decide +kernel⟩,
   ⟨{ r0 with sst := { ecc := some .alias_, eccOld := true } }, by decide +kernel⟩,
   ⟨{ r0.put (F.SST_SEG_RESULT 1) 1 with sst := { alias_ := true } }, by decide +kernel⟩,
   ⟨r0, by decide +kernel⟩,
   ⟨eccAt .cert, _, _, _, _, _, rfl, rfl, rfl, pair_of _ rfl, rfl⟩,
   ⟨.mc, r0, by decide +kernel⟩,
   ⟨0xF1, r0, _, rfl, by decide +kernel⟩,
   ⟨0xF2, r0, _, rfl, by decide +kernel⟩,
   ⟨1, r0.put F.SST_KLOCK_MEK_USELOCK 1, _, rfl, by decide +kernel⟩,
   ⟨2, r0.put F.SST_KLOCK_MEK_USELOCK 1, _, rfl, by decide +kernel⟩,
   ⟨r0.put F.SST_KRES_BUSY 1, by decide +kernel⟩,
   ⟨{ r0 with sst := { deriving_ := some (15, []) } }, 15, [], _, rfl, by decide +kernel⟩,
   ⟨r0, _, 0, [], rfl, by decide +kernel⟩,
   ⟨0xF1, r0, _, rfl, by decide +kernel⟩,
   ⟨1, r0.put F.SST_KLOCK_ALIAS_USELOCK 1, by decide +kernel⟩,
   ⟨0, r0, by decide +kernel⟩,
   ⟨eccAt .scmd { r0 with sst := { signing := some [] } }, _, [], _, rfl, rfl, pair_of _ rfl⟩⟩

theorem witness_ReleaseAndFuseCommandsComplete :
    (∃ (v : Word) (s : State) (u : State), u = s.setIn F.SST_RUN_RUN 0 ∧ v &&& 7 = 1 ∧ s.bit F.SST_RUN_RUN 0 = false ∧
      s.get (F.SST_SEG_LOADED 2) ≠ 0 ∧ s.get (F.SST_SEG_RESULT 2) ≠ 2 ∧ segPassed u 2 = false) ∧
    (∃ (v : Word) (s : State) (u : State), u = s.setIn F.SST_RUN_RUN 0 ∧ v &&& 7 = 1 ∧ s.bit F.SST_RUN_RUN 0 = false ∧
      s.get (F.SST_SEG_LOADED 2) ≠ 0 ∧ s.get (F.SST_SEG_RESULT 2) ≠ 2 ∧ segPassed u 2 = true) ∧
    (∃ (v : Word) (s : State), v &&& 7 = 1 ∧ s.bit F.SST_RUN_RUN 0 = false ∧
      (s.get (F.SST_SEG_LOADED 2) = 0 ∨ s.get (F.SST_SEG_RESULT 2) = 2)) ∧
    (∃ (m : Master) (s : State), gated s m = false ∧ m ≠ .sec) ∧
    (∃ (s : State), s.on F.SST_STAT_SVOK = true ∧ s.get F.ATB_STAT_STATE = 2 ∧ s.bit F.SST_RUN_RUN 3 = false ∧
      s.regsWf = true) ∧
    (∃ (c : BitVec 2) (s : State), c.toNat < 3 ∧ segPassed s (gatedSeg c.toNat) = true ∧
      s.bit F.SST_GATE_GATED c.toNat = true) ∧
    (∃ (held : BitVec 384) (op : FuseOp) (p : List Byte) (ok : Bool) (s : State) (u : State) (w : State),
      s.sst.fuseOp = some op ∧ s.fuseFinish op held.toNat = (p, ok, u) ∧
      w = ((u.event 0x0107 0xFF p).put F.SST_FRES_BUSY 0).put F.SST_FRES_RESULT (if ok then 0 else 2) ∧
      w.sst.fuseNext = []) ∧
    (∃ (held : BitVec 384) (op : FuseOp) (p : List Byte) (ok : Bool) (s : State) (u : State) (w : State) (o : FuseOp) (l : List FuseOp),
      s.sst.fuseOp = some op ∧ s.fuseFinish op held.toNat = (p, ok, u) ∧
      w = ((u.event 0x0107 0xFF p).put F.SST_FRES_BUSY 0).put F.SST_FRES_RESULT (if ok then 0 else 2) ∧
      w.sst.fuseNext = o :: l) ∧
    (∃ (v : Word) (s : State), s.on F.SST_FRES_BUSY = false ∧ s.sst.fuses.production = false ∧ bitsOf v 3 0 = 1 ∧
      keyBlank s.sst.fuses (bitsOf v 5 4) = true) ∧
    (∃ (v : Word) (s : State), s.on F.SST_FRES_BUSY = false ∧ s.sst.fuses.production = false ∧ bitsOf v 3 0 = 1 ∧
      keyBlank s.sst.fuses (bitsOf v 5 4) = false) ∧
    (∃ (v : Word) (s : State), s.on F.SST_FRES_BUSY = false ∧ s.sst.fuses.production = false ∧ bitsOf v 3 0 = 2 ∧
      (((List.range 4).all fun k => keyBlank s.sst.fuses k) = false)) ∧
    (∃ (v : Word) (s : State), s.on F.SST_FRES_BUSY = false ∧ s.sst.fuses.production = false ∧ bitsOf v 3 0 = 2 ∧
      (((List.range 4).all fun k => keyBlank s.sst.fuses k) = true)) ∧
    (∃ (v : Word) (s : State), s.on F.SST_FRES_BUSY = false ∧ s.sst.fuses.production = false ∧ bitsOf v 3 0 = 3 ∧
      s.sst.fuses.targetRpm = 0 ∧ 5400 ≤ bitsOf v 29 16 ∧ bitsOf v 29 16 ≤ 10000) ∧
    (∃ (v : Word) (s : State), s.on F.SST_FRES_BUSY = false ∧ s.sst.fuses.production = false ∧ bitsOf v 3 0 = 3 ∧
      (s.sst.fuses.targetRpm ≠ 0 ∨ bitsOf v 29 16 < 5400 ∨ 10000 < bitsOf v 29 16)) ∧
    (∃ (v : Word) (s : State), s.on F.SST_FRES_BUSY = false ∧ s.sst.fuses.production = true ∧ bitsOf v 3 0 = 1) ∧
    (∃ (v : Word) (s : State), s.on F.SST_FRES_BUSY = false ∧ s.sst.fuses.production = true ∧ bitsOf v 3 0 = 2) ∧
    (∃ (v : Word) (s : State), s.on F.SST_FRES_BUSY = false ∧ s.sst.fuses.production = true ∧ bitsOf v 3 0 = 3) :=
  ⟨⟨1, r0.put (F.SST_SEG_LOADED 2) 1, _, rfl, by decide +kernel⟩,
   ⟨1, (r0.put (F.SST_SEG_LOADED 2) 1).put (F.SST_SEG_RESULT 2) 1, _, rfl, by decide +kernel⟩,
   ⟨0x31, r0, by decide +kernel⟩,
   ⟨.mc, r0, by decide +kernel⟩,
   ⟨(atbAt 2).put F.SST_STAT_SVOK 1, by decide +kernel⟩,
   ⟨2, (r0.put (F.SST_SEG_RESULT 4) 1).setIn F.SST_GATE_GATED 2, by decide +kernel⟩,
   ⟨0, { field := 0 }, (State.fuseFinish ({ r0 with sst := { fuseOp := some { field := 0 } } }) { field := 0 } 0).1,
     (State.fuseFinish ({ r0 with sst := { fuseOp := some { field := 0 } } }) { field := 0 } 0).2.1,
     { r0 with sst := { fuseOp := some { field := 0 } } }, _, _, rfl, rfl, rfl, by decide +kernel⟩,
   ⟨0, { field := 0 },
     (State.fuseFinish ({ r0 with sst := { fuseOp := some { field := 0 }, fuseNext := [{ field := 1 }] } }) { field := 0 } 0).1,
     (State.fuseFinish ({ r0 with sst := { fuseOp := some { field := 0 }, fuseNext := [{ field := 1 }] } }) { field := 0 } 0).2.1,
     { r0 with sst := { fuseOp := some { field := 0 }, fuseNext := [{ field := 1 }] } }, _, _, { field := 1 }, [], rfl,
     rfl, rfl, by decide +kernel⟩,
   ⟨1, r0.put (F.SST_SEG_LOADED 2) 1, by decide +kernel⟩,
   ⟨1, { r0 with sst := { fuses := { keyhash := [(0, [1])] } } }, by decide +kernel⟩,
   ⟨2, { r0 with sst := { fuses := { keyhash := [(0, List.replicate 48 1)] } } }, by decide +kernel⟩,
   ⟨2, r0, by decide +kernel⟩,
   ⟨0x27100003, r0, by decide +kernel⟩,
   ⟨3, r0, by decide +kernel⟩,
   ⟨1, { r0 with sst := { fuses := { production := true } } }, by decide +kernel⟩,
   ⟨2, { r0 with sst := { fuses := { production := true } } }, by decide +kernel⟩,
   ⟨3, { r0 with sst := { fuses := { production := true } } }, by decide +kernel⟩⟩

theorem witness_EventStagingCommandsComplete :
    (∃ (l : List (BitVec 8)) (s : State) (u : State) (new : List Event) (kept : List Event) (e : Event) (rest : List Event),
      new = offers s.mor l ∧ (kept = new.filter (fun x => caughtFrom s.mor x.src)) ∧
      (u = State.each (fun (x : Event) w => (w.loseEvent x.code).tellLost x) (kept.filter fun x => x.src != e.src) ({ s with mor := { unraise new s.mor with caught := rest ++ kept.filter fun x => x.src == e.src } })) ∧
      (s.mor.caught ++ new.filter (fun x => !caughtFrom s.mor x.src) = e :: rest) ∧ fifoRoom u.mor e.src = true ∧
      e.code ≠ 0x0306) ∧
    (∃ (l : List (BitVec 8)) (s : State) (u : State) (new : List Event) (kept : List Event) (e : Event) (rest : List Event),
      new = offers s.mor l ∧ (kept = new.filter (fun x => caughtFrom s.mor x.src)) ∧
      (u = State.each (fun (x : Event) w => (w.loseEvent x.code).tellLost x) (kept.filter fun x => x.src != e.src) ({ s with mor := { unraise new s.mor with caught := rest ++ kept.filter fun x => x.src == e.src } })) ∧
      (s.mor.caught ++ new.filter (fun x => !caughtFrom s.mor x.src) = e :: rest) ∧ fifoRoom u.mor e.src = true ∧
      e.code = 0x0306) ∧
    (∃ (l : List (BitVec 8)) (s : State) (u : State) (new : List Event) (kept : List Event) (e : Event) (rest : List Event),
      new = offers s.mor l ∧ (kept = new.filter (fun x => caughtFrom s.mor x.src)) ∧
      (u = State.each (fun (x : Event) w => (w.loseEvent x.code).tellLost x) (kept.filter fun x => x.src != e.src) ({ s with mor := { unraise new s.mor with caught := rest ++ kept.filter fun x => x.src == e.src } })) ∧
      (s.mor.caught ++ new.filter (fun x => !caughtFrom s.mor x.src) = e :: rest) ∧ fifoRoom u.mor e.src = false) ∧
    (∃ (n : BitVec 8) (e : Event) (s : State), s.mor.raised = [e] ∧ s.mor.caught = [] ∧ e.src = n.toNat ∧
      e.code ≠ 0x0201 ∧ e.code ≠ 0x0306 ∧ morSigned e.code = false ∧ fifoRoom s.mor e.src = true) ∧
    (∃ (l : List (BitVec 8)) (s : State), s.mor.caught = [] ∧ offers s.mor l = []) ∧
    (∃ (m : Master) (v : Word) (s : State), gated s m = false ∧ fwCode (bitsOf v 15 0) = true ∧ bitsOf v 24 16 ≤ 316 ∧
      (bitsOf v 29 25 ≤ 15 ∨ bitsOf v 29 25 = 31)) ∧
    (∃ (m : Master) (v : Word) (s : State), gated s m = false ∧
      (fwCode (bitsOf v 15 0) = false ∨ 316 < bitsOf v 24 16 ∨ (15 < bitsOf v 29 25 ∧ bitsOf v 29 25 ≠ 31))) ∧
    (∃ (s : State), s.mor.own = [] ∧ s.mor.fifo.length < 64 ∧ lossDue s.mor = false ∧ batchOpen s.mor = false) ∧
    (∃ (late : Bool) (s : State), s.mode = mRETREAT ∧ s.mor.retreatDone = false ∧
      (s.get F.FLNK_PD_ACTST = 0 ∨ (late = true ∧ s.on F.FLNK_STAT_UP = false))) :=
  ⟨⟨[], { r0 with mor := { caught := [event0] } }, _, _, _, event0, [], rfl, rfl, rfl, by decide +kernel⟩,
   ⟨[], { r0 with mor := { caught := [{ event0 with code := 0x0306 }] } }, _, _, _, { event0 with code := 0x0306 }, [],
     rfl, rfl, rfl, by decide +kernel⟩,
   ⟨[], { r0 with mor := { caught := [event0], fifo := List.replicate 56 entry0 } }, _, _, _, event0, [], rfl, rfl, rfl,
     by decide +kernel⟩,
   ⟨2, event0, { r0 with mor := { raised := [event0] } }, by decide +kernel⟩,
   ⟨[], r0, by decide +kernel⟩,
   ⟨.sec, 0x013C0301, r0, by decide +kernel⟩,
   ⟨.mc, 0, r0, by decide +kernel⟩,
   ⟨r0, by decide +kernel⟩,
   ⟨true, inMode mRETREAT, by decide +kernel⟩⟩

theorem witness_RecordProgramCommandsComplete :
    (∃ (s : State) (u : State) (w : State) (f : Formed), phase1Ready s = true ∧ u = formHead s ∧
      w = (if u.mor.wslot % 128 = 0 then u.eraseAhead else u) ∧ headFormed w.mor = some f) ∧
    (∃ (f : Formed) (st : Staged) (rest : List FifoEntry) (s : State), s.mor.phase1 = true ∧
      s.mor.fifo = { ev := st, formed := some f } :: rest) ∧
    (∃ (q : Nat) (g : Signing) (s : State) (u : State) (w : State) (sig : List Byte), s.sst.ecc = some (.record q) ∧
      u = s.eccFree ∧ ((u.mor.signing.find? fun g => g.seq == q && g.sig.isNone) = some g) ∧
      u.sign devidKey g.digest = (sig, w)) ∧
    (∃ (q : Nat) (n : Nat) (g : Signing) (sig : List Byte) (s : State) (u : State) (w : State),
      u = (s.stoProgram (morSlotAddr n + 0x190) (slice sig 0 96 ++ leBytes 4 (crc32c (slice sig 0 96)) ++ zeros 12)).recorderEnd (morSlotAddr n) true ∧
      w = { u with mor := { u.mor with signing := u.mor.signing.erase g, phase2 := none } } ∧ s.mor.phase2 = some q ∧
      ((s.mor.signing.find? fun g => g.seq == q) = some g) ∧ g.slot = some n ∧ g.sig = some sig ∧
      (w.mode ≠ mRETREAT ∨ w.mor.retreatSeal ≠ some g.seq)) ∧
    (∃ (q : Nat) (n : Nat) (g : Signing) (sig : List Byte) (s : State) (u : State) (w : State),
      u = (s.stoProgram (morSlotAddr n + 0x190) (slice sig 0 96 ++ leBytes 4 (crc32c (slice sig 0 96)) ++ zeros 12)).recorderEnd (morSlotAddr n) true ∧
      w = { u with mor := { u.mor with signing := u.mor.signing.erase g, phase2 := none } } ∧ s.mor.phase2 = some q ∧
      ((s.mor.signing.find? fun g => g.seq == q) = some g) ∧ g.slot = some n ∧ g.sig = some sig ∧ w.mode = mRETREAT ∧
      w.mor.retreatSeal = some g.seq) ∧
    (∃ (back : List Byte) (q : Nat) (n : Nat) (g : Signing) (sig : List Byte) (s : State) (u : State) (w : State),
      u = (s.stoProgram (morSlotAddr n + 0x190) (sigtornImage (s.stoBytes (morSlotAddr n) 0x190) (phase2Image sig) back)).recorderEnd (morSlotAddr n) false ∧
      w = { u with mor := { u.mor with signing := u.mor.signing.erase g, phase2 := none } } ∧ s.mor.phase2 = some q ∧
      ((s.mor.signing.find? fun g => g.seq == q) = some g) ∧ g.slot = some n ∧ g.sig = some sig) ∧
    (∃ (m : Nat) (s : State), s.mor.erasing = some m) ∧
    (∃ (m : Nat) (s : State) (u : State) (l : List (Nat × Byte)),
      u = (((s.endErase (bankOf (morSectorBase m)) false).stoErase (morSectorBase m) 0x10000).layCells (cellsIn (morSectorBase m) 0x10000 l)) ∧
      s.mor.erasing = some m) ∧
    (∃ (s : State) (u : State), u = (searchFound (slotsUsed s) s).put F.MOR_STAT_READY 1 ∧ s.on F.MOR_STAT_READY = false ∧
      findTail s (slotsUsed s) = none) ∧
    (∃ (t : Nat) (s : State) (u : State) (w : State) (torn : List Nat) (older : List Nat),
      u = (searchFound (slotsUsed s) s).put F.MOR_STAT_READY 1 ∧ w = u.formPrefix (lastSigned u.mor.fifo) ∧
      (torn = (slotsBetween 8192 (morNextSlot t) w.mor.wslot).filter (fun n => slotClass (w.slotBytes n) = SlotClass.torn)) ∧
      (older = ((slotsUsed s).filter fun n => isRecord (slotClass (w.slotBytes n))).mergeSort (fun a b => slotSeqOf (w.slotBytes b) ≤ slotSeqOf (w.slotBytes a))) ∧
      s.on F.MOR_STAT_READY = false ∧ findTail s (slotsUsed s) = some t) ∧
    (∃ (m : Master) (s : State), gated s m = false ∧ s.on (F.MOR_RRES_BUSY m) = false) ∧
    (∃ (m : Master) (s : State), gated s m = false ∧ s.on (F.MOR_RRES_BUSY m) = true) ∧
    (∃ (m : Master) (s : State) (u : State) (n : Nat) (w : State), u = s.put (F.MOR_RRES_BUSY m) 0 ∧
      w = fillReadBuf m (u.slotBytes n) u ∧ s.on (F.MOR_RRES_BUSY m) = true ∧ s.sst.loading = false ∧
      slotHolding u (s.readSeq m) = some n) ∧
    (∃ (m : Master) (s : State) (u : State), u = s.put (F.MOR_RRES_BUSY m) 0 ∧ s.on (F.MOR_RRES_BUSY m) = true ∧
      s.sst.loading = false ∧ slotHolding u (s.readSeq m) = none) :=
  ⟨⟨{ r0.put F.MOR_STAT_READY 1 with mor := { fifo := [entry0] } }, _, _, _, by decide +kernel, rfl, rfl,
     some_of (by decide +kernel)⟩,
   ⟨{ seq := 0, signed := false, body := [], digest := [] },
     { ev := { code := 0x0301, party := 0, src := 3, payload := [] }, ts := 0, atbst := 0, boot := 0 }, [],
     { r0 with mor := { phase1 := true, fifo := [{ ev := { ev := { code := 0x0301, party := 0, src := 3, payload := [] }, ts := 0, atbst := 0, boot := 0 }, formed := some { seq := 0, signed := false, body := [], digest := [] } }] } },
     by decide +kernel⟩,
   ⟨0, sign0, eccAt (.record 0) { r0 with mor := { signing := [sign0] } }, _, _, _, rfl, rfl, by decide +kernel,
     pair_of _ rfl⟩,
   ⟨0, 4096, { sign0 with sig := some (zeros 96) }, zeros 96, phase2At, _, _, rfl, rfl, by decide +kernel⟩,
   ⟨0, 4096, { sign0 with sig := some (zeros 96) }, zeros 96, phase2At (inMode mRETREAT), _, _, rfl, rfl,
     by decide +kernel⟩,
   ⟨[], 0, 4096, { sign0 with sig := some (zeros 96) }, zeros 96, phase2At, _, _, rfl, rfl, by decide +kernel⟩,
   ⟨32, { r0 with mor := { erasing := some 32 } }, rfl⟩,
   ⟨47, { r0 with mor := { erasing := some 47 } }, _, [], rfl, by decide +kernel⟩,
   ⟨r0, _, rfl, by decide +kernel⟩,
   ⟨4096, driftRec, _, _, _, _, rfl, rfl, rfl, rfl, by decide +kernel⟩,
   ⟨.mc, r0, by decide +kernel⟩,
   ⟨.sec, r0.put (F.MOR_RRES_BUSY .sec) 1, by decide +kernel⟩,
   ⟨.sec, driftRec (r0.put (F.MOR_RRES_BUSY .sec) 1), _, 4096, _, rfl, rfl, by decide +kernel⟩,
   ⟨.sec, r0.put (F.MOR_RRES_BUSY .sec) 1, _, rfl, by decide +kernel⟩⟩

theorem witness_SlotsClassifyAsTheTable :
    (∃ (f : Formed), f.body.length = 400 ∧ slice f.body 0 4 = [0x4E, 0x52, 0x4F, 0x4D] ∧
      leNat (slice f.body 0x18C 4) = crc32c (slice f.body 0 0x18C) ∧ f.signed = false ∧ leNat (slice f.body 6 2) % 2 = 0) ∧
    (∃ (f : Formed), f.body.length = 400 ∧ slice f.body 0 4 = [0x4E, 0x52, 0x4F, 0x4D] ∧
      leNat (slice f.body 0x18C 4) = crc32c (slice f.body 0 0x18C) ∧ f.signed = true ∧ leNat (slice f.body 6 2) % 2 = 1) :=
  ⟨⟨{ seq := 0, signed := false, body := bodyOf 0, digest := [] }, by decide +kernel⟩,
   ⟨{ seq := 0, signed := true, body := bodyOf 1, digest := [] }, by decide +kernel⟩⟩

theorem witness_StoreSequencesComplete :
    (∃ (m : Master) (a : BitVec 28) (s : State) (u : State) (b : Nat) (x : Nat) (q : SeqState), x = 0x20000000 + a.toNat ∧
      b = bankOf x ∧ u = s.wakeBank b ∧ q = u.seqState b (.core m) ∧ q.status = false ∧ q.info = false ∧ q.margin = 0 ∧
      sectorOpen u x = false) ∧
    (∃ (m : Master) (a : BitVec 28) (s : State) (u : State) (b : Nat) (x : Nat) (q : SeqState), x = 0x20000000 + a.toNat ∧
      b = bankOf x ∧ u = s.wakeBank b ∧ q = u.seqState b (.core m) ∧ q.status = false ∧ q.info = true) ∧
    (∃ (m : Master) (a : BitVec 28) (s : State) (u : State) (b : Nat) (x : Nat) (q : SeqState), x = 0x20000000 + a.toNat ∧
      b = bankOf x ∧ u = s.wakeBank b ∧ q = u.seqState b (.core m) ∧ q.status = true) ∧
    (∃ (r : Req) (a : BitVec 28) (s : State) (u : State) (b : Nat), b = bankOf (0x20000000 + a.toNat) ∧ u = s.wakeBank b ∧
      s.sto.chFault = [] ∧ (∀ m, r = .core m → gated s m = false) ∧ a.toNat % 0x1000000 = keyA ∧
      (u.seqState b r).pos = .idle) ∧
    (∃ (r : Req) (a : BitVec 28) (s : State) (u : State) (b : Nat), b = bankOf (0x20000000 + a.toNat) ∧ u = s.wakeBank b ∧
      s.sto.chFault = [] ∧ (∀ m, r = .core m → gated s m = false) ∧ a.toNat % 0x1000000 = keyB ∧
      (u.seqState b r).pos = .key2) ∧
    (∃ (r : Req) (a : BitVec 28) (w : Nat) (s : State) (u : State) (b : Nat), b = bankOf (0x20000000 + a.toNat) ∧
      u = s.wakeBank b ∧ s.sto.chFault = [] ∧ (∀ m, r = .core m → gated s m = false) ∧ w ≠ 4) ∧
    (∃ (r : Req) (b : BitVec 4) (s : State), (s.seqState b.toNat r).pos = .idle) ∧
    (∃ (r : Req) (b : BitVec 4) (s : State), (s.seqState b.toNat r).pos ≠ .idle) ∧
    (∃ (r : Req) (a : BitVec 28) (s : State) (u : State) (b : Nat) (op : EraseOp), b = bankOf (0x20000000 + a.toNat) ∧
      u = s.wakeBank b ∧ (u.seqState b r).pos = .idle ∧ (∀ m, r = .core m → gated s m = false) ∧
      (u.bank b).erase = some op ∧ (u.bank b).susp = false ∧ sectorMoraine op.sector = false ∧ mayControl r op = true) ∧
    (∃ (r : Req) (a : BitVec 28) (s : State) (u : State) (b : Nat) (op : EraseOp), b = bankOf (0x20000000 + a.toNat) ∧
      u = s.wakeBank b ∧ (u.seqState b r).pos = .idle ∧ (∀ m, r = .core m → gated s m = false) ∧
      (u.bank b).erase = some op ∧ (u.bank b).susp = true ∧ mayControl r op = true) ∧
    (∃ (r : Req) (a : BitVec 28) (s : State) (u : State) (b : Nat), b = bankOf (0x20000000 + a.toNat) ∧ u = s.wakeBank b ∧
      (u.seqState b r).pos = .idle ∧ (∀ m, r = .core m → gated s m = false) ∧ (u.bank b).erase = none) ∧
    (∃ (r : Req) (b : BitVec 4) (s : State) (u : State) (q : SeqState) (k : Bank), u = s.wakeBank b.toNat ∧
      q = u.seqState b.toNat r ∧ k = u.bank b.toNat ∧ q.pos = .setup ∧ (∀ m, r = .core m → gated s m = false)) ∧
    (∃ (r : Req) (b : BitVec 4) (page : Nat) (n : Nat) (k : Nat) (got : List (Nat × Word)) (s : State) (u : State),
      page = bankBase b + 512 * k ∧ u = (s.wakeBank b.toNat).setSeq b.toNat r { s.seqState b.toNat r with pos := .idle } ∧
      k < 32768 ∧ got.length = n ∧ (s.seqState b.toNat r).pos = .data page n got ∧ s.sto.chFault = [] ∧
      programCause u page = none) ∧
    (∃ (r : Req) (b : BitVec 4) (page : Nat) (n : Nat) (k : Nat) (got : List (Nat × Word)) (s : State) (u : State) (m : Master) (c : Nat),
      page = bankBase b + 512 * k ∧ u = (s.wakeBank b.toNat).setSeq b.toNat r { s.seqState b.toNat r with pos := .idle } ∧
      r = .core m ∧ k < 32768 ∧ got.length = n ∧ (s.seqState b.toNat r).pos = .data page n got ∧ s.sto.chFault = [] ∧
      programCause u page = some c) ∧
    (∃ (r : Req) (a : BitVec 28) (s : State) (u : State) (x : Nat) (b : Nat), x = 0x20000000 + a.toNat / 4 * 4 ∧
      b = bankOf x ∧ (s.seqState b r).pos = .erase ∧ (∀ m, r = .core m → gated s m = false) ∧
      u = (s.wakeBank b).setSeq b r { s.seqState b r with pos := .idle } ∧ eraseCause u x = none) ∧
    (∃ (r : Req) (a : BitVec 28) (s : State) (u : State) (x : Nat) (b : Nat) (c : Nat), x = 0x20000000 + a.toNat / 4 * 4 ∧
      b = bankOf x ∧ (s.seqState b r).pos = .erase ∧ (∀ m, r = .core m → gated s m = false) ∧
      u = (s.wakeBank b).setSeq b r { s.seqState b r with pos := .idle } ∧ eraseCause u x = some c) ∧
    (∃ (r : Req) (a : BitVec 28) (s : State) (u : State) (x : Nat), x = 0x20000000 + a.toNat ∧ u = s.wakeBank (bankOf x) ∧
      s.sto.chFault = [] ∧ (∀ m, r = .core m → gated s m = false) ∧ a.toNat % 512 = 0 ∧
      tabGet s.sto.pages none (reqNum r) = none) ∧
    (∃ (r : Req) (a : BitVec 28) (s : State) (u : State) (x : Nat) (p : PartPage), x = 0x20000000 + a.toNat ∧
      u = s.wakeBank (bankOf x) ∧ s.sto.chFault = [] ∧ (∀ m, r = .core m → gated s m = false) ∧
      tabGet s.sto.pages none (reqNum r) = some p ∧ x = p.page + 4 * p.words.length ∧ a.toNat % 4 = 0 ∧
      p.words.length < 127) :=
  ⟨⟨.mc, 0, r0, _, _, _, _, rfl, rfl, rfl, rfl, by decide +kernel⟩,
   ⟨.sec, 0, r0.setSeq 0 (.core .sec) { info := true }, _, _, _, _, rfl, rfl, rfl, rfl, by decide +kernel⟩,
   ⟨.sec, 0, stoAt {} (.core .sec) { status := true }, _, _, _, _, rfl, rfl, rfl, rfl, by decide +kernel⟩,
   ⟨.dma 0, 0x13C70, r0, _, _, rfl, rfl, rfl, (by intro m h; cases h), by decide +kernel, by decide +kernel⟩,
   ⟨.dma 0, 0x04E18, r0.setSeq 0 (.dma 0) { pos := .key2 }, _, _, rfl, rfl, rfl, (by intro m h; cases h),
     by decide +kernel, by decide +kernel⟩,
   ⟨.dma 0, 0x04E18, 2, r0, _, _, rfl, rfl, rfl, (by intro m h; cases h), by decide +kernel⟩,
   ⟨.dma 15, 0, r0, by decide +kernel⟩,
   ⟨.core .mc, 0, stoAt {} (.core .mc) { pos := .key2 }, by decide +kernel⟩,
   ⟨.dma 0, 0, stoAt { erase := some { req := .dma 0, sector := 0 } } (.dma 0) {}, _, _, { req := .dma 0, sector := 0 },
     rfl, rfl, by decide +kernel, (by intro m h; cases h), by decide +kernel, by decide +kernel, by decide +kernel,
     by decide +kernel⟩,
   ⟨.dma 0, 0, stoAt { erase := some { req := .dma 0, sector := 0 }, susp := true } (.dma 0) {}, _, _,
     { req := .dma 0, sector := 0 }, rfl, rfl, by decide +kernel, (by intro m h; cases h), by decide +kernel,
     by decide +kernel, by decide +kernel⟩,
   ⟨.dma 0, 0, r0, _, _, rfl, rfl, by decide +kernel, (by intro m h; cases h), by decide +kernel⟩,
   ⟨.dma 0, 15, r0.setSeq 15 (.dma 0) { pos := .setup }, _, _, _, rfl, rfl, rfl, by decide +kernel,
     (by intro m h; cases h)⟩,
   ⟨.dma 0, 0, _, 1, 0, [(0, 0)], noInfo (r0.setSeq 0 (.dma 0) { pos := .data 0x20000000 1 [(0, 0)] }), _, rfl, rfl,
     by decide +kernel⟩,
   ⟨_, 0, _, 1, 32767, [(0, 0)],
     noInfo (stoAt { prog := some { req := .dma 1, page := 0, data := [] } } (.core .sec) { pos := .data 0x20FFFE00 1 [(0, 0)] }),
     _, .sec, 2, rfl, rfl, rfl, by decide +kernel⟩,
   ⟨.dma 0, 0, noInfo (r0.setSeq 0 (.dma 0) { pos := .erase }), _, _, _, rfl, rfl, by decide +kernel,
     (by intro m h; cases h), rfl, by decide +kernel⟩,
   ⟨.dma 0, 0x2000003, r0.setSeq 2 (.dma 0) { pos := .erase }, _, _, _, 3, rfl, rfl, by decide +kernel,
     (by intro m h; cases h), rfl, by decide +kernel⟩,
   ⟨.dma 0, 0, r0, _, _, rfl, rfl, rfl, (by intro m h; cases h), by decide +kernel, by decide +kernel⟩,
   ⟨.dma 0, 504,
     { r0 with sto := { pages := [(reqNum (.dma 0), some { page := 0x20000000, words := List.replicate 126 0 })] } }, _,
     _, { page := 0x20000000, words := List.replicate 126 0 }, rfl, rfl, rfl, (by intro m h; cases h), by decide +kernel,
     by decide +kernel, by decide +kernel, by decide +kernel⟩⟩

theorem witness_StoreOperationsComplete :
    (∃ (b : BitVec 4) (s : State) (u : State) (p : ProgOp) (m : _),
      u = (s.setBank b.toNat { s.bank b.toNat with prog := none, pfail := (s.bank b.toNat).pfail || false }).setIn F.STO_DONE_BANK b.toNat ∧
      (s.bank b.toNat).prog = some p ∧ p.req ≠ .recorder ∧ p.req = .core m) ∧
    (∃ (b : BitVec 4) (s : State) (p : ProgOp) (c : Nat), (s.bank b.toNat).prog = some p ∧ p.req = .dma c) ∧
    (∃ (b : BitVec 4) (s : State) (u : State) (p : ProgOp),
      u = (s.setBank b.toNat { s.bank b.toNat with prog := none, pfail := true }).setIn F.STO_DONE_BANK b.toNat ∧
      (s.bank b.toNat).prog = some p ∧ p.req ≠ .recorder) ∧
    (∃ (b : BitVec 4) (s : State) (p : ProgOp) (m : Master), (s.bank b.toNat).prog = some p ∧ p.req = .core m ∧
      (s.bank b.toNat).waiting = [] ∧ s.sto.chFault = [] ∧ s.mode ≠ mRETREAT ∧ s.regsWf = true ∧ s.banksWf = true) ∧
    (∃ (b : BitVec 4) (s : State) (op : EraseOp), (s.bank b.toNat).erase = some op ∧ (s.bank b.toNat).susp = false ∧
      (s.bank b.toNat).resumeDue = false ∧ op.req ≠ .recorder) ∧
    (∃ (b : BitVec 4) (l : List (Nat × Byte)) (s : State) (u : State) (op : EraseOp),
      u = ((s.endErase b.toNat false).stoErase (sectorAddr op.sector) 0x10000).layCells (cellsIn (sectorAddr op.sector) 0x10000 l) ∧
      (s.bank b.toNat).erase = some op ∧ (s.bank b.toNat).susp = false ∧ (s.bank b.toNat).resumeDue = false ∧
      op.req ≠ .recorder) ∧
    (∃ (s : State) (b : _), s.on F.STO_STAT_READY = false ∧ s.regsWf = true ∧ s.banksWf = true ∧ b < 16) ∧
    (∃ (b : BitVec 4) (s : State), (s.bank b.toNat).infoErase = true) ∧
    (∃ (v : Word) (s : State) (n : Nat) (c : Nat), n = bitsOf v 11 0 ∧ c = bitsOf v 14 12 ∧
      s.on F.STO_MBRES_BUSY = false ∧ sectorMoraine n = true) ∧
    (∃ (v : Word) (s : State) (n : Nat) (c : Nat), n = bitsOf v 11 0 ∧ c = bitsOf v 14 12 ∧
      s.on F.STO_MBRES_BUSY = false ∧ sectorMoraine n = false ∧ destageFixed n = false ∧ sectorBad s n = false ∧
      (s.bank (n / 256)).ready = true ∧ 1 ≤ c ∧ c ≤ 4 ∧ s.get F.STO_STAT_GBCOUNT ≥ 1024) ∧
    (∃ (v : Word) (s : State) (u : State) (n : Nat) (c : Nat), n = bitsOf v 11 0 ∧ c = bitsOf v 14 12 ∧
      u = s.raiseBit F.STO_MBRES_BUSY ∧ s.on F.STO_MBRES_BUSY = false ∧ sectorMoraine n = false ∧ destageFixed n = false ∧
      sectorBad s n = false ∧ (s.bank (n / 256)).ready = true ∧ 1 ≤ c ∧ c ≤ 4 ∧ s.get F.STO_STAT_GBCOUNT < 1024) ∧
    (∃ (s : State), s.on F.STO_MBRES_BUSY = true) ∧
    (∃ (s : State) (n : Nat) (c : Nat), s.sto.mbad = some (n, c) ∧ s.regsWf = true ∧ s.get F.STO_STAT_GBCOUNT < 1024) ∧
    (∃ (s : State), s.on F.STO_WPROT_LOCK = false) ∧
    (∃ (m : Master) (s : State), gated s m = false ∧ (m ≠ .sec ∨ s.on F.STO_WPROT_LOCK = true)) ∧
    (∃ (b : BitVec 4) (s : State), s.bit F.STO_BPD_REQ b.toNat = true ∧ (s.bank b.toNat).prog = none ∧
      (s.bank b.toNat).erase = none ∧ (s.bank b.toNat).infoErase = false ∧ b ≠ 2 ∧ b ≠ 3) ∧
    (∃ (b : BitVec 4), (b = 2 ∨ b = 3)) :=
  ⟨⟨0, r0.setBank 0 { prog := some { req := .core .sec, page := 0x20000000, data := [] } }, _,
     { req := .core .sec, page := 0x20000000, data := [] }, .sec, rfl, by decide +kernel⟩,
   ⟨15, r0.setBank 15 { prog := some { req := .dma 1, page := 0, data := [] } }, { req := .dma 1, page := 0, data := [] },
     1, by decide +kernel⟩,
   ⟨0, r0.setBank 0 { prog := some { req := .core .sec, page := 0x20000000, data := [] } }, _,
     { req := .core .sec, page := 0x20000000, data := [] }, rfl, by decide +kernel⟩,
   ⟨0, r0.setBank 0 { prog := some { req := .core .sec, page := 0x20000000, data := [] } },
     { req := .core .sec, page := 0x20000000, data := [] }, .sec, by decide +kernel⟩,
   ⟨0, r0.setBank 0 { erase := some { req := .dma 0, sector := 0 } }, { req := .dma 0, sector := 0 }, by decide +kernel⟩,
   ⟨0, [], r0.setBank 0 { erase := some { req := .core .sec, sector := 3 } }, _, { req := .core .sec, sector := 3 }, rfl,
     by decide +kernel⟩,
   ⟨r0.setBank 0 { prog := some { req := .core .sec, page := 0x20000000, data := [] } }, 0, by decide +kernel⟩,
   ⟨0, r0.setBank 0 { infoErase := true }, by decide +kernel⟩,
   ⟨559, r0, _, _, rfl, rfl, by decide +kernel⟩,
   ⟨0x41000, noInfo (r0.put F.STO_STAT_GBCOUNT 1024), _, _, rfl, rfl, by decide +kernel⟩,
   ⟨0x1000, noInfo (r0.put F.STO_STAT_GBCOUNT 1023), _, _, _, rfl, rfl, rfl, by decide +kernel⟩,
   ⟨r0.put F.STO_MBRES_BUSY 1, by decide +kernel⟩,
   ⟨{ r0.put F.STO_STAT_GBCOUNT 1023 with sto := { mbad := some (0, 1) } }, 0, 1, by decide +kernel⟩,
   ⟨r0, by decide +kernel⟩,
   ⟨.mc, r0, by decide +kernel⟩,
   ⟨0, r0.put F.STO_BPD_REQ 1, by decide +kernel⟩,
   ⟨3, by decide +kernel⟩⟩

theorem witness_StoreWindowsChangeNoArrayByte :
    ∃ (m : Master) (a : BitVec 28) (w : Nat) (v : Word) (s : State) (t : State) (k : Nat), s.sto.chFault = [] ∧
      s.regsWf = true ∧
      (exec (.sequenceCycle (.core m) a w v) s = .next t ∨ exec (.pageWindowStore (.core m) a w v) s = .next t) ∧
      inBlock 0x4000F000 k = false ∧ k ≠ R.MOR_STAT ∧ (∀ c : Nat, c < 3 → k ≠ (F.SST_HSQ_COUNT c).reg) :=
  ⟨.sec, 0x13C70, 4, 0x00002DD2, r0, _, 0, by decide +kernel, by decide +kernel, .inl rfl, by decide +kernel,
     by decide +kernel, by decide +kernel⟩

theorem witness_WedgeSequencerWordsComplete :
    (∃ (n : Nat) (f : Captures) (s : State) (u : State) (a : State) (w : BitVec 128) (pc : Nat), w = curWord s ∧
      pc = s.get F.WSQ_PC_PC ∧ u = (s.wsqTime (wordCycles s n) f).wsqCycles 1 ∧ a = u.wsqActions w ∧ wsqRuns s = true ∧
      wSeq w = 0) ∧
    (∃ (n : Nat) (f : Captures) (s : State) (u : State) (a : State) (w : BitVec 128) (pc : Nat), w = curWord s ∧
      pc = s.get F.WSQ_PC_PC ∧ u = (s.wsqTime (wordCycles s n) f).wsqCycles 1 ∧ a = u.wsqActions w ∧ wsqRuns s = true ∧
      wSeq w = 1) ∧
    (∃ (n : Nat) (f : Captures) (s : State) (u : State) (a : State) (w : BitVec 128) (pc : Nat), w = curWord s ∧
      pc = s.get F.WSQ_PC_PC ∧ u = (s.wsqTime (wordCycles s n) f).wsqCycles 1 ∧ a = u.wsqActions w ∧ wsqRuns s = true ∧
      wSeq w = 2) ∧
    (∃ (n : Nat) (f : Captures) (s : State) (u : State) (a : State) (w : BitVec 128) (pc : Nat), w = curWord s ∧
      pc = s.get F.WSQ_PC_PC ∧ u = (s.wsqTime (wordCycles s n) f).wsqCycles 1 ∧ a = u.wsqActions w ∧ wsqRuns s = true ∧
      wSeq w = 3) ∧
    (∃ (n : Nat) (f : Captures) (s : State) (u : State) (a : State) (w : BitVec 128) (pc : Nat), w = curWord s ∧
      pc = s.get F.WSQ_PC_PC ∧ u = (s.wsqTime (wordCycles s n) f).wsqCycles 1 ∧ a = u.wsqActions w ∧ wsqRuns s = true ∧
      wSeq w = 4 ∧ s.wsq.stack.length < 4) ∧
    (∃ (n : Nat) (f : Captures) (s : State) (u : State) (a : State) (w : BitVec 128) (pc : Nat), w = curWord s ∧
      pc = s.get F.WSQ_PC_PC ∧ u = (s.wsqTime (wordCycles s n) f).wsqCycles 1 ∧ a = u.wsqActions w ∧ wsqRuns s = true ∧
      wSeq w = 5 ∧ s.wsq.stack ≠ []) ∧
    (∃ (n : Nat) (f : Captures) (s : State) (u : State) (a : State) (w : BitVec 128) (pc : Nat), w = curWord s ∧
      pc = s.get F.WSQ_PC_PC ∧ u = (s.wsqTime (wordCycles s n) f).wsqCycles 1 ∧ a = u.wsqActions w ∧ wsqRuns s = true ∧
      wSeq w = 6) ∧
    (∃ (n : Nat) (f : Captures) (s : State) (u : State) (a : State) (w : BitVec 128) (pc : Nat), w = curWord s ∧
      pc = s.get F.WSQ_PC_PC ∧ u = (s.wsqTime (wordCycles s n) f).wsqCycles 1 ∧ a = u.wsqActions w ∧ wsqRuns s = true ∧
      wSeq w = 7) ∧
    (∃ (n : Nat) (f : Captures) (s : State) (u : State) (a : State) (w : BitVec 128) (pc : Nat), w = curWord s ∧
      pc = s.get F.WSQ_PC_PC ∧ u = (s.wsqTime (wordCycles s n) f).wsqCycles 1 ∧ a = u.wsqActions w ∧ wsqRuns s = true ∧
      8 ≤ wSeq w) ∧
    (∃ (n : Nat) (f : Captures) (s : State) (u : State) (a : State) (w : BitVec 128) (pc : Nat), w = curWord s ∧
      pc = s.get F.WSQ_PC_PC ∧ u = (s.wsqTime (wordCycles s n) f).wsqCycles 1 ∧ a = u.wsqActions w ∧ wsqRuns s = true ∧
      wSeq w = 4 ∧ 4 ≤ s.wsq.stack.length) ∧
    (∃ (n : Nat) (f : Captures) (s : State) (u : State) (a : State) (w : BitVec 128) (pc : Nat), w = curWord s ∧
      pc = s.get F.WSQ_PC_PC ∧ u = (s.wsqTime (wordCycles s n) f).wsqCycles 1 ∧ a = u.wsqActions w ∧ wsqRuns s = true ∧
      wSeq w = 5 ∧ s.wsq.stack = []) ∧
    (∃ (n : Nat) (f : Captures) (s : State) (u : State), u = (s.wsqTime n f).wsqCycles n ∧ wsqWaits s n = true ∧
      wCond u (curWord u) = true) ∧
    (∃ (n : Nat) (f : Captures) (s : State) (u : State), u = (s.wsqTime n f).wsqCycles n ∧ wsqWaits s n = true ∧
      wCond u (curWord u) = false) ∧
    (∃ (n : Nat) (s : State), wsqGoing s = true ∧ s.wsq.waiting = true ∧ s.get F.WSQ_CTL_WDLIM ≤ s.wsq.wd + n) ∧
    (∃ (s : State), wsqGoing s = true ∧ s.wsq.waiting = false ∧ s.get F.WSQ_CTL_WDLIM ≤ s.wsq.wd + 1) ∧
    (∃ (d : BitVec 16) (s : State), domainRuns s 11 = true ∧ s.wsq.busy0 = some d) ∧
    (∃ (d : BitVec 16) (s : State), domainRuns s 11 = true ∧ s.wsq.busy1 = some d) ∧
    (∃ (m : Master) (s : State), gated s m = false ∧ 8 ≤ s.wsq.paq.length) ∧
    (∃ (m : Master) (s : State), gated s m = false ∧ s.wsq.paq.length < 8) ∧
    (∃ (n : Nat) (f : Captures) (s : State), s.wsq.win ≠ 0 ∧ s.wsq.win ≤ n ∧ s.srv.conv = true ∧
      groupsDone (s.capture f) = false ∧ wsqGoing s = false) ∧
    (∃ (n : Nat) (f : Captures) (s : State), s.wsq.win ≠ 0 ∧ s.wsq.win ≤ n ∧ s.srv.conv = true ∧
      groupsDone (s.capture f) = false ∧ wsqWaits s n = true) :=
  ⟨⟨1, noCap, wsqAt 0, _, _, _, _, rfl, rfl, rfl, rfl, by decide +kernel⟩,
   ⟨1, noCap, wsqAt 0x4000, _, _, _, _, rfl, rfl, rfl, rfl, by decide +kernel⟩,
   ⟨1, noCap, wsqAt 0x8000, _, _, _, _, rfl, rfl, rfl, rfl, by decide +kernel⟩,
   ⟨1, noCap, wsqAt 0xC000, _, _, _, _, rfl, rfl, rfl, rfl, by decide +kernel⟩,
   ⟨1, noCap, { wsqAt 0x10000 with wsq := { store := [(0, 0x10000)], stack := [0, 0, 0] } }, _, _, _, _, rfl, rfl, rfl,
     rfl, by decide +kernel⟩,
   ⟨1, noCap, { wsqAt 0x14000 with wsq := { store := [(0, 0x14000)], stack := [0] } }, _, _, _, _, rfl, rfl, rfl, rfl,
     by decide +kernel⟩,
   ⟨1, noCap, wsqAt 0x18000, _, _, _, _, rfl, rfl, rfl, rfl, by decide +kernel⟩,
   ⟨1, noCap, wsqAt 0x1C000, _, _, _, _, rfl, rfl, rfl, rfl, by decide +kernel⟩,
   ⟨1, noCap, wsqAt 0x20000, _, _, _, _, rfl, rfl, rfl, rfl, by decide +kernel⟩,
   ⟨1, noCap, { wsqAt 0x10000 with wsq := { store := [(0, 0x10000)], stack := [0, 0, 0, 0] } }, _, _, _, _, rfl, rfl, rfl,
     rfl, by decide +kernel⟩,
   ⟨1, noCap, wsqAt 0x14000, _, _, _, _, rfl, rfl, rfl, rfl, by decide +kernel⟩,
   ⟨1, noCap, { wsqAt 0xC000 with wsq := { store := [(0, 0xC000)], waiting := true } }, _, rfl, by decide +kernel⟩,
   ⟨1, noCap, { wsqAt 0x40000 with wsq := { store := [(0, 0x40000)], waiting := true } }, _, rfl, by decide +kernel⟩,
   ⟨100000, { wsqAt 0 with wsq := { waiting := true } }, by decide +kernel⟩,
   ⟨{ wsqAt 0 with wsq := { wd := 100000 } }, by decide +kernel⟩,
   ⟨0, { inMode mFLOW with wsq := { busy0 := some 0 } }, by decide +kernel⟩,
   ⟨0, { inMode mFLOW with wsq := { busy1 := some 0 } }, by decide +kernel⟩,
   ⟨.mc, { r0 with wsq := { paq := List.replicate 8 (true, 0) } }, by decide +kernel⟩,
   ⟨.mc, r0, by decide +kernel⟩,
   ⟨1, noCap, { r0 with wsq := { win := 1 }, srv := { conv := true, armed := 8 } }, by decide +kernel⟩,
   ⟨1, noCap,
     { wsqAt 0x40000 with wsq := { store := [(0, 0x40000)], waiting := true, win := 1 }, srv := { conv := true, armed := 15 } },
     by decide +kernel⟩⟩

theorem witness_MotorSequencerInstructionsComplete :
    (∃ (m : Word) (w : Word) (x : Nat) (pc : Nat) (s : State) (d : BitVec 16) (a : BitVec 16) (i : BitVec 16),
      pc = (x + 1) % 65536 ∧ d = s.msq.g (mGd w) ∧ a = s.msq.g (mGa w) ∧ i = BitVec.ofNat 16 w.toNat ∧
      s.pd.reset = false ∧ s.msq.waiting = none ∧ msqFetch s.msq m = some (w, x) ∧ mOp w = 0) ∧
    (∃ (m : Word) (w : Word) (x : Nat) (pc : Nat) (s : State) (d : BitVec 16) (a : BitVec 16) (i : BitVec 16),
      pc = (x + 1) % 65536 ∧ d = s.msq.g (mGd w) ∧ a = s.msq.g (mGa w) ∧ i = BitVec.ofNat 16 w.toNat ∧
      s.pd.reset = false ∧ s.msq.waiting = none ∧ msqFetch s.msq m = some (w, x) ∧ mOp w = 1) ∧
    (∃ (m : Word) (w : Word) (x : Nat) (pc : Nat) (s : State) (d : BitVec 16) (a : BitVec 16) (i : BitVec 16),
      pc = (x + 1) % 65536 ∧ d = s.msq.g (mGd w) ∧ a = s.msq.g (mGa w) ∧ i = BitVec.ofNat 16 w.toNat ∧
      s.pd.reset = false ∧ s.msq.waiting = none ∧ msqFetch s.msq m = some (w, x) ∧ mOp w = 2) ∧
    (∃ (m : Word) (w : Word) (x : Nat) (pc : Nat) (s : State) (d : BitVec 16) (a : BitVec 16) (i : BitVec 16),
      pc = (x + 1) % 65536 ∧ d = s.msq.g (mGd w) ∧ a = s.msq.g (mGa w) ∧ i = BitVec.ofNat 16 w.toNat ∧
      s.pd.reset = false ∧ s.msq.waiting = none ∧ msqFetch s.msq m = some (w, x) ∧ mOp w = 3) ∧
    (∃ (m : Word) (w : Word) (x : Nat) (pc : Nat) (s : State) (d : BitVec 16) (a : BitVec 16) (i : BitVec 16),
      pc = (x + 1) % 65536 ∧ d = s.msq.g (mGd w) ∧ a = s.msq.g (mGa w) ∧ i = BitVec.ofNat 16 w.toNat ∧
      s.pd.reset = false ∧ s.msq.waiting = none ∧ msqFetch s.msq m = some (w, x) ∧ mOp w = 4) ∧
    (∃ (m : Word) (w : Word) (x : Nat) (pc : Nat) (s : State) (d : BitVec 16) (a : BitVec 16) (i : BitVec 16),
      pc = (x + 1) % 65536 ∧ d = s.msq.g (mGd w) ∧ a = s.msq.g (mGa w) ∧ i = BitVec.ofNat 16 w.toNat ∧
      s.pd.reset = false ∧ s.msq.waiting = none ∧ msqFetch s.msq m = some (w, x) ∧ mOp w = 5) ∧
    (∃ (m : Word) (w : Word) (x : Nat) (pc : Nat) (s : State) (d : BitVec 16) (a : BitVec 16) (i : BitVec 16),
      pc = (x + 1) % 65536 ∧ d = s.msq.g (mGd w) ∧ a = s.msq.g (mGa w) ∧ i = BitVec.ofNat 16 w.toNat ∧
      s.pd.reset = false ∧ s.msq.waiting = none ∧ msqFetch s.msq m = some (w, x) ∧ mOp w = 6) ∧
    (∃ (m : Word) (w : Word) (x : Nat) (pc : Nat) (s : State) (d : BitVec 16) (a : BitVec 16) (i : BitVec 16),
      pc = (x + 1) % 65536 ∧ d = s.msq.g (mGd w) ∧ a = s.msq.g (mGa w) ∧ i = BitVec.ofNat 16 w.toNat ∧
      s.pd.reset = false ∧ s.msq.waiting = none ∧ msqFetch s.msq m = some (w, x) ∧ mOp w = 7) ∧
    (∃ (m : Word) (w : Word) (x : Nat) (pc : Nat) (s : State) (d : BitVec 16) (a : BitVec 16) (i : BitVec 16),
      pc = (x + 1) % 65536 ∧ d = s.msq.g (mGd w) ∧ a = s.msq.g (mGa w) ∧ i = BitVec.ofNat 16 w.toNat ∧
      s.pd.reset = false ∧ s.msq.waiting = none ∧ msqFetch s.msq m = some (w, x) ∧ mOp w = 8) ∧
    (∃ (m : Word) (w : Word) (x : Nat) (pc : Nat) (s : State) (d : BitVec 16) (a : BitVec 16) (i : BitVec 16),
      pc = (x + 1) % 65536 ∧ d = s.msq.g (mGd w) ∧ a = s.msq.g (mGa w) ∧ i = BitVec.ofNat 16 w.toNat ∧
      s.pd.reset = false ∧ s.msq.waiting = none ∧ msqFetch s.msq m = some (w, x) ∧ mOp w = 9 ∧ i.toNat % 256 ≠ 0x11) ∧
    (∃ (m : Word) (w : Word) (x : Nat) (pc : Nat) (s : State) (d : BitVec 16) (a : BitVec 16) (i : BitVec 16),
      pc = (x + 1) % 65536 ∧ d = s.msq.g (mGd w) ∧ a = s.msq.g (mGa w) ∧ i = BitVec.ofNat 16 w.toNat ∧
      s.pd.reset = false ∧ s.msq.waiting = none ∧ msqFetch s.msq m = some (w, x) ∧ mOp w = 10 ∧ i.toNat % 256 ≠ 0x30) ∧
    (∃ (m : Word) (w : Word) (x : Nat) (pc : Nat) (s : State) (d : BitVec 16) (a : BitVec 16) (i : BitVec 16),
      pc = (x + 1) % 65536 ∧ d = s.msq.g (mGd w) ∧ a = s.msq.g (mGa w) ∧ i = BitVec.ofNat 16 w.toNat ∧
      s.pd.reset = false ∧ s.msq.waiting = none ∧ msqFetch s.msq m = some (w, x) ∧ mOp w = 10 ∧ i.toNat % 256 = 0x30) ∧
    (∃ (m : Word) (w : Word) (x : Nat) (pc : Nat) (s : State) (d : BitVec 16) (a : BitVec 16) (i : BitVec 16),
      pc = (x + 1) % 65536 ∧ d = s.msq.g (mGd w) ∧ a = s.msq.g (mGa w) ∧ i = BitVec.ofNat 16 w.toNat ∧
      s.pd.reset = false ∧ s.msq.waiting = none ∧ msqFetch s.msq m = some (w, x) ∧ mOp w = 11) ∧
    (∃ (m : Word) (w : Word) (x : Nat) (pc : Nat) (s : State) (d : BitVec 16) (a : BitVec 16) (i : BitVec 16),
      pc = (x + 1) % 65536 ∧ d = s.msq.g (mGd w) ∧ a = s.msq.g (mGa w) ∧ i = BitVec.ofNat 16 w.toNat ∧
      s.pd.reset = false ∧ s.msq.waiting = none ∧ msqFetch s.msq m = some (w, x) ∧ mOp w = 12 ∧ s.msq.stack.length < 4) ∧
    (∃ (m : Word) (w : Word) (x : Nat) (pc : Nat) (s : State) (d : BitVec 16) (a : BitVec 16) (i : BitVec 16) (r : Nat) (l : List Nat),
      pc = (x + 1) % 65536 ∧ d = s.msq.g (mGd w) ∧ a = s.msq.g (mGa w) ∧ i = BitVec.ofNat 16 w.toNat ∧
      s.pd.reset = false ∧ s.msq.waiting = none ∧ msqFetch s.msq m = some (w, x) ∧ mOp w = 13 ∧ s.msq.stack = r :: l) ∧
    (∃ (m : Word) (w : Word) (x : Nat) (pc : Nat) (s : State) (d : BitVec 16) (a : BitVec 16) (i : BitVec 16),
      pc = (x + 1) % 65536 ∧ d = s.msq.g (mGd w) ∧ a = s.msq.g (mGa w) ∧ i = BitVec.ofNat 16 w.toNat ∧
      s.pd.reset = false ∧ s.msq.waiting = none ∧ msqFetch s.msq m = some (w, x) ∧ mOp w = 14) ∧
    (∃ (m : Word) (w : Word) (x : Nat) (pc : Nat) (s : State) (d : BitVec 16) (a : BitVec 16) (i : BitVec 16),
      pc = (x + 1) % 65536 ∧ d = s.msq.g (mGd w) ∧ a = s.msq.g (mGa w) ∧ i = BitVec.ofNat 16 w.toNat ∧
      s.pd.reset = false ∧ s.msq.waiting = none ∧ msqFetch s.msq m = some (w, x) ∧ 15 ≤ mOp w) ∧
    (∃ (m : Word) (s : State), s.pd.reset = false ∧ s.msq.waiting = none ∧ msqFetch s.msq m = none) ∧
    (∃ (e : BitVec 8) (k : Nat) (s : State), s.pd.reset = false ∧ s.msq.waiting = some k ∧ BitVec.ofNat 8 k &&& e ≠ 0) :=
  ⟨⟨0, 0, 0, _, r0, _, _, _, rfl, rfl, rfl, rfl, by decide +kernel⟩,
   ⟨0x08000000, 0x08000000, 0, _, r0, _, _, _, rfl, rfl, rfl, rfl, by decide +kernel⟩,
   ⟨0x10000000, 0x10000000, 0, _, r0, _, _, _, rfl, rfl, rfl, rfl, by decide +kernel⟩,
   ⟨0x18000000, 0x18000000, 0, _, r0, _, _, _, rfl, rfl, rfl, rfl, by decide +kernel⟩,
   ⟨0x20000000, 0x20000000, 0, _, r0, _, _, _, rfl, rfl, rfl, rfl, by decide +kernel⟩,
   ⟨0x28000000, 0x28000000, 0, _, r0, _, _, _, rfl, rfl, rfl, rfl, by decide +kernel⟩,
   ⟨0x30000000, 0x30000000, 0, _, r0, _, _, _, rfl, rfl, rfl, rfl, by decide +kernel⟩,
   ⟨0x38000000, 0x38000000, 0, _, r0, _, _, _, rfl, rfl, rfl, rfl, by decide +kernel⟩,
   ⟨0x40000000, 0x40000000, 0, _, r0, _, _, _, rfl, rfl, rfl, rfl, by decide +kernel⟩,
   ⟨0x48000000, 0x48000000, 0, _, r0, _, _, _, rfl, rfl, rfl, rfl, by decide +kernel⟩,
   ⟨0x50000000, 0x50000000, 0, _, r0, _, _, _, rfl, rfl, rfl, rfl, by decide +kernel⟩,
   ⟨0x50000030, 0x50000030, 0, _, r0, _, _, _, rfl, rfl, rfl, rfl, by decide +kernel⟩,
   ⟨0x58000000, 0x58000000, 0, _, r0, _, _, _, rfl, rfl, rfl, rfl, by decide +kernel⟩,
   ⟨0x60000000, 0x60000000, 0, _, { r0 with msq := { stack := [0, 0, 0] } }, _, _, _, rfl, rfl, rfl, rfl,
     by decide +kernel⟩,
   ⟨0x68000000, 0x68000000, 0, _, { r0 with msq := { stack := [7] } }, _, _, _, 7, [], rfl, rfl, rfl, rfl,
     by decide +kernel⟩,
   ⟨0x70000000, 0x70000000, 0, _, r0, _, _, _, rfl, rfl, rfl, rfl, by decide +kernel⟩,
   ⟨0x78000000, 0x78000000, 0, _, r0, _, _, _, rfl, rfl, rfl, rfl, by decide +kernel⟩,
   ⟨0, { r0 with msq := { pc := 0x2000 } }, by decide +kernel⟩,
   ⟨128, 128, { r0 with msq := { waiting := some 128 } }, by decide +kernel⟩⟩

theorem witness_MotorPatchCommandsComplete :
    (∃ (s : State) (u : State), u = { s with link := s.link.takeDown .unpatch } ∧ s.pd.reset = false) ∧
    (∃ (k : BitVec 8) (b : List Byte) (s : State) (u : State),
      u = { s with link := s.link.takeDown (.patchData k.toNat b) } ∧ s.pd.reset = false ∧ k.toNat < 18 ∧ b.length = 19) ∧
    (∃ (s : State) (u : State), u = { s with link := s.link.takeDown .patchEnd } ∧ s.pd.reset = false ∧
      pcrcGood s.msq.image = true) ∧
    (∃ (s : State) (u : State), u = { s with link := s.link.takeDown .patchEnd } ∧ s.pd.reset = false ∧
      pcrcGood s.msq.image = false) ∧
    (∃ (g : Bool) (s : State) (u : State), u = { s with link := s.link.takeUp (.patchAck g) } ∧
      (g = true ∨ s.get F.MSQ_STAT_STATE ≠ 1)) ∧
    (∃ (g : Bool) (s : State) (u : State), u = { s with link := s.link.takeUp (.patchAck g) } ∧ g = false ∧
      s.get F.MSQ_STAT_STATE = 1 ∧ s.msq.sends < 3) ∧
    (∃ (g : Bool) (s : State) (u : State), u = { s with link := s.link.takeUp (.patchAck g) } ∧ g = false ∧
      s.get F.MSQ_STAT_STATE = 1 ∧ 3 ≤ s.msq.sends) :=
  ⟨⟨r0, _, rfl, by decide +kernel⟩,
   ⟨17, zeros 19, r0, _, rfl, by decide +kernel⟩,
   ⟨{ r0 with msq := { image := zeros 336 ++ leBytes 4 (crc32c (zeros 336)) } }, _, rfl, by decide +kernel⟩,
   ⟨r0, _, rfl, by decide +kernel⟩,
   ⟨true, r0, _, rfl, by decide +kernel⟩,
   ⟨false, { r0.put F.MSQ_STAT_STATE 1 with msq := { sends := 2 } }, _, rfl, by decide +kernel⟩,
   ⟨false, { r0.put F.MSQ_STAT_STATE 1 with msq := { sends := 3 } }, _, rfl, by decide +kernel⟩⟩

theorem witness_ServoCommandsComplete :
    (∃ (f : Captures) (s : State) (u : State), u = s.capture f ∧ u.srv.conv = true ∧ groupsDone u = true) ∧
    (∃ (f : Captures) (s : State) (u : State), u = s.capture f ∧ (u.srv.conv = false ∨ groupsDone u = false)) ∧
    (∃ (f : SrvLines) (s : State) (v : State) (u : State) (w : SrvWin) (r : Conv),
      v = (s.shockLevel f.shock).paLevel f.paFault ∧
      u = { v with srv := { v.srv with converting := false, conv := false, armed := 0, samArmed := false, tidArmed := false } } ∧
      w = curWin v ∧
      r = convert (v.get (F.SRV_RAW_T 0)) (v.get (F.SRV_RAW_T 1)) (v.get (F.SRV_RAW_T 2)) (v.get (F.SRV_RAW_T 3)) (v.get F.SRV_TID_N) (v.get (F.SRV_HEAD_PGAIN w.head)) ∧
      s.srv.converting = true ∧ v.srv.due = true ∧ convCause (tidGood v) (v.get F.SRV_TID_N) r = 0) ∧
    (∃ (f : SrvLines) (s : State) (v : State) (u : State) (w : SrvWin) (r : Conv) (c : Nat),
      v = (s.shockLevel f.shock).paLevel f.paFault ∧
      u = { v with srv := { v.srv with converting := false, conv := false, armed := 0, samArmed := false, tidArmed := false } } ∧
      w = curWin v ∧
      r = convert (v.get (F.SRV_RAW_T 0)) (v.get (F.SRV_RAW_T 1)) (v.get (F.SRV_RAW_T 2)) (v.get (F.SRV_RAW_T 3)) (v.get F.SRV_TID_N) (v.get (F.SRV_HEAD_PGAIN w.head)) ∧
      s.srv.converting = true ∧ v.srv.due = true ∧ c ≠ 0 ∧ convCause (tidGood v) (v.get F.SRV_TID_N) r = c) ∧
    (∃ (c : BitVec 4) (s : State), 1 ≤ c.toNat ∧ c.toNat ≤ 11 ∧ s.srv.due = true) ∧
    (∃ (c : BitVec 4) (s : State), 1 ≤ c.toNat ∧ c.toNat ≤ 11 ∧ s.srv.due = false) ∧
    (∃ (f : SvFacts) (s : State) (u : State) (w : State),
      u = { s with srv := { s.srv with sv := { s.srv.sv with mie := f.mie, mieReg := f.mieReg, mtvec := f.mtvec, pc := f.pc, busy := f.busy } } } ∧
      w = (if posReady f then u else (u.raiseBit F.SRV_EVT_ENTLATE).inc F.SRV_CNT_ENTLATE_CNT) ∧
      s.on F.SRV_EVT_POS = true ∧ s.bit F.SRV_IEN_SRC 0 = true ∧ f.mie = true ∧ f.mieReg.getLsbD 16 = true) ∧
    (∃ (f : SvFacts) (s : State) (u : State) (w : State),
      u = { s with srv := { s.srv with sv := { s.srv.sv with mie := f.mie, mieReg := f.mieReg, mtvec := f.mtvec, pc := f.pc, busy := f.busy } } } ∧
      w = (if posReady f then u else (u.raiseBit F.SRV_EVT_ENTLATE).inc F.SRV_CNT_ENTLATE_CNT) ∧
      s.on F.SRV_EVT_POS = true ∧ (s.bit F.SRV_IEN_SRC 0 = false ∨ f.mie = false ∨ f.mieReg.getLsbD 16 = false)) ∧
    (∃ (n : BitVec 1) (s : State) (u : State),
      u = { s with srv := { s.srv with shkHigh := true, shkLeft := s.get F.SRV_CTL_SHKHOLD } } ∧
      connected s (if n = 0 then .shk0 else .shk1) = true) ∧
    (∃ (n : BitVec 1) (s : State), connected s (if n = 0 then .shk0 else .shk1) = false) ∧
    (∃ (n : BitVec 1) (s : State) (u : State), u = (if s.on F.WSQ_STAT_RUN then s.raiseBit F.WSQ_FLAG_PAFLT else s) ∧
      (n = 0 ∨ s.on F.PMX_STRAP_PA_CNT = true)) ∧
    (∃ (s : State), s.on F.PMX_STRAP_PA_CNT = false) ∧
    (∃ (m : Master) (v : Word) (s : State), gated s m = false ∧ s.regsWf = true ∧ bitsOf v 1 0 = 2) ∧
    (∃ (m : Master) (v : Word) (s : State) (u : State),
      u = ((((s.put F.SRV_CTL_MODE (if bitsOf v 1 0 = 3 then 0 else bitsOf v 1 0)).put F.SRV_CTL_TRCEN (bitsOf v 4 4)).put F.SRV_CTL_MISSLIM (Nat.max (bitsOf v 15 8) 1)).put F.SRV_CTL_SHKHOLD (bitsOf v 23 16)).clr F.SRV_STAT_ONTRK ∧
      gated s m = false ∧ bitsOf v 1 0 = 2) ∧
    (∃ (m : Master) (v : Word) (s : State) (u : State),
      u = ((((s.put F.SRV_CTL_MODE (if bitsOf v 1 0 = 3 then 0 else bitsOf v 1 0)).put F.SRV_CTL_TRCEN (bitsOf v 4 4)).put F.SRV_CTL_MISSLIM (Nat.max (bitsOf v 15 8) 1)).put F.SRV_CTL_SHKHOLD (bitsOf v 23 16)).clr F.SRV_STAT_ONTRK ∧
      gated s m = false ∧ bitsOf v 1 0 ≠ 2) :=
  ⟨⟨noCap, { r0 with srv := { conv := true } }, _, rfl, by decide +kernel⟩,
   ⟨noCap, r0, _, rfl, by decide +kernel⟩,
   ⟨{ shock := false, paFault := false },
     (({ r0 with srv := { converting := true, due := true, sam := some 81920, tid := some (0, 0, wedgeParity 0) } }.put (F.SRV_RAW_T 1) 262144).put (F.SRV_RAW_T 2) 557056 |>.put (F.SRV_RAW_T 3) 753664),
     _, _, _, _, rfl, rfl, rfl, rfl, by decide +kernel⟩,
   ⟨{ shock := false, paFault := false }, { r0 with srv := { converting := true, due := true } }, _, _, _, _, 2, rfl, rfl,
     rfl, rfl, by decide +kernel⟩,
   ⟨2, { r0 with srv := { converting := true, due := true } }, by decide +kernel⟩,
   ⟨11, r0, by decide +kernel⟩,
   ⟨svFacts, (r0.put F.SRV_EVT_POS 1).setIn F.SRV_IEN_SRC 0, _, _, rfl, rfl, by decide +kernel⟩,
   ⟨svFacts, (r0.put F.SRV_EVT_POS 1).put F.SRV_IEN_SRC 0, _, _, rfl, rfl, by decide +kernel⟩,
   ⟨0, { inMode mFLOW (r0.put (F.PMX_PIN_ACT 2) 1) with pmx := { handed := true } }, _, rfl, by decide +kernel⟩,
   ⟨0, r0, by decide +kernel⟩,
   ⟨0, r0.put (F.PMX_PIN_ACT 2) 1, _, rfl, by decide +kernel⟩,
   ⟨r0, by decide +kernel⟩,
   ⟨.mc, 2, r0, by decide +kernel⟩,
   ⟨.mc, 2, r0, _, rfl, by decide +kernel⟩,
   ⟨.mc, 0, r0, _, rfl, by decide +kernel⟩⟩

theorem witness_ServoLinkCommandsComplete :
    (∃ (f : Upstream) (s : State) (w : BitVec 56), w = upWord s.pd f ∧ s.pd.reset = false ∧ f.fresh = true ∧
      s.pd.act ≠ .fullpark) ∧
    (∃ (f : Upstream) (s : State) (u : State) (w : BitVec 56), w = upWord s.pd f ^^^ f.flips ∧
      u = { s with pd := { s.pd with upLast := upWord s.pd f, flt := s.pd.flt && f.persists } } ∧
      crc8 48 w.toNat = w.toNat / 2 ^ 48) ∧
    (∃ (f : Upstream) (s : State) (u : State) (w : BitVec 56), w = upWord s.pd f ^^^ f.flips ∧
      u = { s with pd := { s.pd with upLast := upWord s.pd f, flt := s.pd.flt && f.persists } } ∧
      crc8 48 w.toNat ≠ w.toNat / 2 ^ 48) ∧
    (∃ (s : State), s.regsWf = true ∧ s.srv.timed = true) ∧
    (∃ (m : Master) (s : State), m ≠ .sv ∧ gated s m = false) ∧
    (∃ (q : Nat) (l : List Nat) (s : State), s.srv.sent = q :: l) ∧
    (∃ (s : State), s.srv.sent = []) ∧
    (∃ (r : BitVec 64) (s : State) (u : State), u = { s with srv := { s.srv with trace := none } } ∧
      s.srv.trace = some r ∧ s.on F.SRV_CTL_TRCEN = true) ∧
    (∃ (r : BitVec 64) (s : State) (u : State), u = { s with srv := { s.srv with trace := none } } ∧
      s.srv.trace = some r ∧ s.on F.SRV_CTL_TRCEN = false) ∧
    (∃ (w : BitVec 56) (s : State), s.pd.reset = false ∧ crc8 48 w.toNat = w.toNat / 2 ^ 48 ∧ w.toNat % 2 = 1 ∧
      s.pd.act = .loaded ∧ s.pd.mahz0 = false ∧ s.pd.mahz1 = false) ∧
    (∃ (w : BitVec 56) (s : State),
      (s.pd.reset = true ∨ (crc8 48 w.toNat = w.toNat / 2 ^ 48 ∧ (w.toNat % 2 = 0 ∨ s.pd.act ≠ .loaded)))) ∧
    (∃ (w : BitVec 56) (s : State), s.pd.reset = false ∧ crc8 48 w.toNat ≠ w.toNat / 2 ^ 48) :=
  ⟨⟨upFacts, pdAt { act := .loaded }, _, rfl, by decide +kernel⟩,
   ⟨upFacts, r0, _, _, rfl, rfl, by decide +kernel⟩,
   ⟨{ upFacts with flips := 1 }, r0, _, _, rfl, rfl, by decide +kernel⟩,
   ⟨{ r0 with srv := { timed := true } }, by decide +kernel⟩,
   ⟨.mc, r0, by decide +kernel⟩,
   ⟨0, [], { r0 with srv := { sent := [0] } }, by decide +kernel⟩,
   ⟨r0, by decide +kernel⟩,
   ⟨9, { r0.put F.SRV_CTL_TRCEN 1 with srv := { trace := some 9 } }, _, rfl, by decide +kernel⟩,
   ⟨0, { r0 with srv := { trace := some 0 } }, _, rfl, by decide +kernel⟩,
   ⟨BitVec.ofNat 56 (1 + crc8 48 1 * 2 ^ 48), pdAt { act := .loaded, mahz0 := false, mahz1 := false }, by decide +kernel⟩,
   ⟨0, r0, by decide +kernel⟩,
   ⟨0x01000000000000, r0, by decide +kernel⟩⟩

theorem witness_ConversionRecoversTheWrittenPosition :
    ∃ (n0 : Int) (n : Int) (x : Int) (z : Int), n0 % 2 = 0 ∧ -32768 ≤ x ∧ x ≤ 32768 ∧ z = (if 0 ≤ x then x - 32768 else x +
      32768) ∧ -32768 < n * 32768 - n0 * 32768 - x ∧ n * 32768 - n0 * 32768 - x < 32768 :=
  ⟨0, 0, 32767, _, by decide, by decide, by decide, rfl, by decide, by decide⟩

theorem witness_FinionLinkCommandsComplete :
    (∃ (sync : BitVec 8) (hdr : BitVec 8) (pay : BitVec 168) (crc : BitVec 16) (good : Bool) (r : Receiver) (p : Option Packet) (s : State) (u : State),
      good = (framePcrc hdr.toNat pay.toNat == crc.toNat) ∧
      r = receiveFrame (sync == 0xDD) good (hdr.getLsbD 4) (hdr.setWidth 4) s.link.logic ∧
      p = r.sends (hdr.getLsbD 4) s.link.down ∧
      u = { s with link := { s.link with logic := r.sent p, down := if hdr.getLsbD 4 then s.link.down.drop 1 else s.link.down } } ∧
      good = true ∧ listedType (pay.setWidth 8) = true) ∧
    (∃ (sync : BitVec 8) (hdr : BitVec 8) (pay : BitVec 168) (crc : BitVec 16) (good : Bool) (r : Receiver) (p : Option Packet) (s : State) (u : State),
      good = (framePcrc hdr.toNat pay.toNat == crc.toNat) ∧
      r = receiveFrame (sync == 0xDD) good (hdr.getLsbD 4) (hdr.setWidth 4) s.link.logic ∧
      p = r.sends (hdr.getLsbD 4) s.link.down ∧
      u = { s with link := { s.link with logic := r.sent p, down := if hdr.getLsbD 4 then s.link.down.drop 1 else s.link.down } } ∧
      good = true ∧ listedType (pay.setWidth 8) = false) ∧
    (∃ (sync : BitVec 8) (hdr : BitVec 8) (pay : BitVec 168) (crc : BitVec 16) (good : Bool) (r : Receiver) (p : Option Packet) (s : State) (u : State),
      good = (framePcrc hdr.toNat pay.toNat == crc.toNat) ∧
      r = receiveFrame (sync == 0xDD) good (hdr.getLsbD 4) (hdr.setWidth 4) s.link.logic ∧
      p = r.sends (hdr.getLsbD 4) s.link.down ∧
      u = { s with link := { s.link with logic := r.sent p, down := if hdr.getLsbD 4 then s.link.down.drop 1 else s.link.down } } ∧
      good = false) ∧
    (∃ (sync : BitVec 8) (hdr : BitVec 8) (pay : BitVec 168) (crc : BitVec 16) (r : Receiver) (s : State) (u : State) (p : Option Packet),
      r = receiveFrame (sync == 0xDD) (framePcrc hdr.toNat pay.toNat == crc.toNat) (hdr.getLsbD 4) (hdr.setWidth 4) s.link.power ∧
      p = r.sends (hdr.getLsbD 4) s.link.up ∧
      u = { s with link := { s.link with power := r.sent p, up := if hdr.getLsbD 4 then s.link.up.drop 1 else s.link.up } } ∧
      s.pd.reset = false) ∧
    (∃ (sync : BitVec 8) (hdr : BitVec 8) (pay : BitVec 168) (crc : BitVec 16) (r : Receiver) (s : State) (u : State),
      r = receiveFrame (sync == 0xDD) (framePcrc hdr.toNat pay.toNat == crc.toNat) (hdr.getLsbD 4) (hdr.setWidth 4) s.link.power ∧
      u = { s with link := { s.link with power := r.sent none } } ∧ s.pd.reset = true) ∧
    (∃ (s : State), s.link.power.up = true ∧ (8 ≤ s.link.power.badSync ∨ 8 ≤ s.link.power.nack)) ∧
    (∃ (s : State), s.link.logic.up = true ∧ (8 ≤ s.link.logic.badSync ∨ 8 ≤ s.link.logic.nack)) ∧
    (∃ (s : State), s.link.logic.up = false ∧ 16 ≤ s.link.logic.good) ∧
    (∃ (s : State), s.link.power.up = false ∧ 16 ≤ s.link.power.good) ∧
    (∃ (s : State), s.link.power.up = false ∧ s.pd.reset = false) ∧
    (∃ (s : State), (s.link.power.up = true ∨ s.pd.reset = true)) :=
  ⟨⟨0, 0, 0, 0, _, _, _, r0, _, rfl, rfl, rfl, rfl, by decide +kernel⟩,
   ⟨0xDD, 0x10, 1, BitVec.ofNat 16 (framePcrc 0x10 1), _, _, _, r0, _, rfl, rfl, rfl, rfl, by decide +kernel⟩,
   ⟨0xDD, 0x10, 1, BitVec.ofNat 16 (framePcrc 0x10 1) ^^^ 1, _, _, _, r0, _, rfl, rfl, rfl, rfl, by decide +kernel⟩,
   ⟨0, 0, 0, 0, _, r0, _, _, rfl, rfl, rfl, by decide +kernel⟩,
   ⟨0xDD, 0, 0, 0, _, pdAt { reset := true }, _, rfl, rfl, by decide +kernel⟩,
   ⟨{ r0 with link := { power := { up := true, badSync := 8 } } }, by decide +kernel⟩,
   ⟨{ r0 with link := { logic := { up := true, nack := 8 } } }, by decide +kernel⟩,
   ⟨{ r0 with link := { logic := { good := 16 } } }, by decide +kernel⟩,
   ⟨{ r0 with link := { power := { good := 16 } } }, by decide +kernel⟩,
   ⟨r0, by decide +kernel⟩,
   ⟨{ r0 with link := { power := { up := true, badSync := 8 } } }, by decide +kernel⟩⟩

theorem witness_BadServoWordIsDiscarded :
    ∃ (w : BitVec 56) (s : State), s.pd.reset = false ∧ crc8 48 w.toNat ≠ w.toNat / 2 ^ 48 :=
  ⟨0x01000000000000, r0, by decide +kernel⟩

theorem witness_GatedCommandsAreHeld :
    (∃ (m : Master) (c : Nat) (s : State), gateIdx m = some c ∧ (hsq s c).length < 1024) ∧
    (∃ (m : Master) (c : Nat) (s : State), gateIdx m = some c ∧ 1024 ≤ (hsq s c).length) ∧
    (∃ (m : Master) (c : Nat) (s : State), gateIdx m = some c ∧ gated s m = true) :=
  ⟨⟨.hc0, 0,
     { hc0Runs.put F.SST_GATE_GATED 1 with sst := { hsqs := [(0, List.replicate 1023 { addr := 0, width := 4, data := 0 })] } },
     by decide +kernel⟩,
   ⟨.mc, 2, { hc0Runs with sst := { hsqs := [(2, List.replicate 1024 { addr := 0, width := 4, data := 0 })] } },
     by decide +kernel⟩,
   ⟨.hc0, 0, r0.put F.SST_GATE_GATED 1, by decide +kernel⟩⟩

theorem witness_PowerDiePacketsComplete :
    (∃ (t64 : Nat) (s : State) (n : Int), s.on F.FLNK_SPD_LOCK = true ∧ s.get F.ATB_STAT_STATE = 2 ∧
      s.get F.FLNK_SPD_TARGET ≠ 0 ∧ n = ((t64 : Int) * s.get F.FLNK_SPD_TARGET - 187500000) * 16777216 ∧
      -8388608 * 187500000 ≤ n ∧ n ≤ 8388607 * 187500000) ∧
    (∃ (s : State), (s.on F.FLNK_SPD_LOCK = false ∨ s.get F.ATB_STAT_STATE ≠ 2 ∨ s.get F.FLNK_SPD_TARGET = 0)) ∧
    (∃ (s : State), s.pd.reset = false ∧ s.pd.sp = .atSpeed ∧ s.pd.act = .refpark) ∧
    (∃ (s : State), s.pd.reset = false ∧ (s.pd.act = .loaded ∨ s.pd.act = .hold)) ∧
    (∃ (s : State), s.pd.reset = false ∧ (s.pd.act = .refpark ∨ s.pd.act = .loaded ∨ s.pd.act = .hold)) ∧
    (∃ (s : State), s.pd.reset = false ∧ s.pd.retract = none ∧
      (s.pd.act = .refpark ∨ s.pd.act = .loaded ∨ s.pd.act = .hold ∨ s.pd.act = .moving)) ∧
    (∃ (s : State), s.pd.reset = false ∧ (s.pd.act = .loaded ∨ s.pd.act = .moving) ∧ s.pd.sp ≠ .stopped) ∧
    (∃ (l : Nat → LinkState) (s : State), (l = (fun a => s.link.takeDown (.act a))) ∧ s.pd.reset = false ∧
      inMove s.pd = true) ∧
    (∃ (l : Nat → LinkState) (s : State), (l = (fun a => s.link.takeDown (.act a))) ∧ s.pd.reset = false ∧
      s.pd.act = .loaded) ∧
    (∃ (l : Nat → LinkState) (s : State), (l = (fun a => s.link.takeDown (.act a))) ∧ s.pd.reset = false ∧
      s.pd.act = .hold ∧ s.pd.sp = .atSpeed) ∧
    (∃ (l : Nat → LinkState) (s : State), (l = (fun a => s.link.takeDown (.act a))) ∧ s.pd.reset = false ∧
      (s.pd.act = .fullpark ∨ ((s.pd.act = .refpark ∨ s.pd.act = .hold) ∧ s.pd.sp ≠ .atSpeed))) ∧
    (∃ (l : Nat → LinkState) (s : State), (l = (fun a => s.link.takeDown (.act a))) ∧ s.pd.reset = false ∧
      s.pd.act = .refpark) ∧
    (∃ (l : Nat → LinkState) (s : State), (l = (fun a => s.link.takeDown (.act a))) ∧ s.pd.reset = false ∧
      s.pd.act = .fullpark ∧ s.pd.retract = none) ∧
    (∃ (l : Nat → LinkState) (s : State), (l = (fun a => s.link.takeDown (.act a))) ∧ s.pd.reset = false ∧
      s.pd.act ≠ .loaded ∧ s.pd.act ≠ .moving ∧ s.pd.sp = .stopped) ∧
    (∃ (s : State), s.pd.reset = false ∧ s.pd.sp ≠ .atSpeed) ∧
    (∃ (s : State), s.pd.reset = false ∧ s.pd.vneg = true) ∧
    (∃ (s : State), (s.pd.reset = true ∨ s.pd.vneg = false)) ∧
    (∃ (port : BitVec 8) (s : State), s.pd.reset = false ∧ 0x40 ≤ port.toNat ∧ port.toNat ≤ 0x7F) ∧
    (∃ (port : BitVec 8) (s : State), s.pd.reset = false ∧ (port.toNat < 0x40 ∨ 0x7F < port.toNat)) ∧
    (∃ (port : BitVec 8) (s : State), s.pd.reset = false ∧ port ≠ 0x11) ∧
    (∃ (s : State) (u : State),
      u = ({ s with link := s.link.takeDown (.prd 0x11) } : State).pdSend (.pdata 0x11 (s.pd.actreq % 65536)) ∧
      s.pd.reset = false) ∧
    (∃ (s : State) (u : State), u = { s with link := s.link.takeDown .logreq } ∧ s.pd.reset = false) ∧
    (∃ (s : State), s.pd.reset = true) :=
  ⟨⟨17362, ((atbAt 2).put F.FLNK_SPD_LOCK 1).put F.FLNK_SPD_TARGET 5400, -1572783469363200, by decide +kernel⟩,
   ⟨r0, by decide +kernel⟩,
   ⟨pdAt { sp := .atSpeed, act := .refpark }, by decide +kernel⟩,
   ⟨pdAt { act := .hold }, by decide +kernel⟩,
   ⟨pdAt { sp := .atSpeed, act := .refpark }, by decide +kernel⟩,
   ⟨pdAt { sp := .atSpeed, act := .refpark }, by decide +kernel⟩,
   ⟨pdAt { act := .moving, sp := .atSpeed }, by decide +kernel⟩,
   ⟨_, pdAt { act := .moving }, rfl, by decide +kernel⟩,
   ⟨_, pdAt { act := .loaded }, rfl, by decide +kernel⟩,
   ⟨_, pdAt { act := .hold, sp := .atSpeed }, rfl, by decide +kernel⟩,
   ⟨_, r0, rfl, by decide +kernel⟩,
   ⟨_, pdAt { sp := .atSpeed, act := .refpark }, rfl, by decide +kernel⟩,
   ⟨_, r0, rfl, by decide +kernel⟩,
   ⟨_, r0, rfl, by decide +kernel⟩,
   ⟨r0, by decide +kernel⟩,
   ⟨pdAt { vneg := true }, by decide +kernel⟩,
   ⟨r0, by decide +kernel⟩,
   ⟨0x7F, r0, by decide +kernel⟩,
   ⟨0, r0, by decide +kernel⟩,
   ⟨0, r0, by decide +kernel⟩,
   ⟨r0, _, rfl, by decide +kernel⟩,
   ⟨r0, _, rfl, by decide +kernel⟩,
   ⟨pdAt { reset := true }, by decide +kernel⟩⟩

theorem witness_PowerDieReportsComplete :
    (∃ (s : State), s.regsWf = true ∧ s.pd.reset = false) ∧
    (∃ (s : State), s.pd.reset = true) ∧
    (∃ (kind : BitVec 8) (detail : BitVec 16) (s : State) (u : State),
      u = ((({ s with link := s.link.takeUp (.fault kind.toNat detail.toNat) } : State).put F.FLNK_FLT_KIND kind.toNat).put F.FLNK_FLT_DETAIL detail.toNat).faultRecord kind.toNat detail.toNat ∧
      kind ≠ 11) ∧
    (∃ (kind : BitVec 8) (detail : BitVec 16) (s : State) (u : State),
      u = ((({ s with link := s.link.takeUp (.fault kind.toNat detail.toNat) } : State).put F.FLNK_FLT_KIND kind.toNat).put F.FLNK_FLT_DETAIL detail.toNat).faultRecord kind.toNat detail.toNat ∧
      kind = 11) ∧
    (∃ (entry : BitVec 3) (bytes : List Byte) (s : State) (u : State),
      u = { s with link := s.link.takeUp (.log entry.toNat bytes) }) ∧
    (∃ (romid : BitVec 16) (s : State) (u : State),
      u = ((({ s with link := s.link.takeUp (.notice s.pd.romid.toNat), pd := { s.pd with romid := romid } } : State).put F.FLNK_STAT_PDRST 1).put F.MSQ_ROMID_ROMID romid.toNat) ∧
      s.mode = mTHAW) ∧
    (∃ (romid : BitVec 16) (s : State) (u : State),
      u = ((({ s with link := s.link.takeUp (.notice s.pd.romid.toNat), pd := { s.pd with romid := romid } } : State).put F.FLNK_STAT_PDRST 1).put F.MSQ_ROMID_ROMID romid.toNat) ∧
      s.mode ≠ mTHAW) :=
  ⟨⟨r0, by decide +kernel⟩,
   ⟨pdAt { reset := true }, by decide +kernel⟩,
   ⟨0, 0, r0, _, rfl, by decide +kernel⟩,
   ⟨_, 0, r0, _, rfl, rfl⟩,
   ⟨0, [], r0, _, rfl⟩,
   ⟨0, r0, _, rfl, by decide +kernel⟩,
   ⟨0, inMode mFLOW, _, rfl, by decide +kernel⟩⟩

theorem witness_PowerDieEventsComplete :
    (∃ (s : State), s.pd.reset = true) ∧
    (∃ (s : State), s.pd.reset = false ∧ s.pd.act = .moving ∧ s.pd.zeroDue = false ∧ s.pd.moveTo ≠ .fullpark) ∧
    (∃ (s : State), s.pd.reset = false ∧ s.pd.act = .moving ∧ s.pd.zeroDue = false ∧ s.pd.moveTo = .fullpark) ∧
    (∃ (s : State), s.pd.reset = false ∧ s.pd.act = .moving ∧ s.pd.zeroDue = true ∧ s.pd.moveTo ≠ .fullpark) ∧
    (∃ (s : State), s.pd.reset = false ∧ s.pd.act = .moving ∧ s.pd.zeroDue = true ∧ s.pd.moveTo = .fullpark ∧
      s.pd.sp = .atSpeed) ∧
    (∃ (s : State), s.pd.act ≠ .loaded) ∧
    (∃ (s : State), s.pd.sp = .holdup) ∧
    (∃ (s : State), s.pd.sp ≠ .holdup) ∧
    (∃ (fx : RetractFacts) (s : State), fx.rpm < s.pd.rfloor * 100) ∧
    (∃ (fx : RetractFacts) (s : State), s.pd.rdl * 10 ≤ fx.ms) ∧
    (∃ (fx : RetractFacts) (s : State), fx.ms < s.pd.rdl * 10) ∧
    (∃ (s : State), s.pd.reset = false ∧ s.pd.retract = none ∧ s.pd.act = .loaded) ∧
    (∃ (r : Retract) (s : State), s.pd.retract = some r ∧ r.timeout = false) ∧
    (∃ (r : Retract) (s : State), s.pd.retract = some r ∧ r.latch = false) ∧
    (∃ (r : Retract) (s : State), s.pd.retract = some r ∧ (r.latch = true ∨ r.timeout = true) ∧ r.fromPark = false) ∧
    (∃ (r : Retract) (s : State), s.pd.retract = some r ∧ (r.latch = true ∨ r.timeout = true) ∧ r.fromPark = true) ∧
    (∃ (s : State), s.pd.sp = .start ∧ 2 ≤ s.pd.attempts ∧ s.pd.reset = false) ∧
    (∃ (s : State), s.pd.sp = .start ∧ s.pd.attempts < 2) ∧
    (∃ (s : State), s.pd.sp = .accel ∧ s.pd.act = .fullpark) ∧
    (∃ (s : State), s.pd.sp = .accel ∧ s.pd.act ≠ .fullpark) ∧
    (∃ (s : State), s.pd.reset = false ∧ (s.pd.sp = .coast ∨ (s.pd.sp = .brake ∧ s.pd.stored = 0))) ∧
    (∃ (s : State), s.pd.reset = false ∧ s.pd.sp = .brake ∧ s.pd.stored ≠ 0 ∧ s.pd.shut = false) ∧
    (∃ (s : State), (s.pd.sp = .holdup ∨ s.pd.sp = .brake) ∧ s.pd.shut = false) ∧
    (∃ (fx : RetractFacts) (s : State), s.pd.reset = false ∧ driving s.pd = true ∧ s.pd.rfloor * 100 ≤ fx.rpm) ∧
    (∃ (s : State), s.pd.reset = false ∧ s.pd.act = .loaded ∧ s.pd.retract = none) :=
  ⟨⟨pdAt { reset := true }, by decide +kernel⟩,
   ⟨pdAt { act := .moving, moveTo := .loaded }, by decide +kernel⟩,
   ⟨pdAt { act := .moving }, by decide +kernel⟩,
   ⟨pdAt { act := .moving, moveTo := .loaded, zeroDue := true }, by decide +kernel⟩,
   ⟨pdAt { act := .moving, moveTo := .fullpark, zeroDue := true, sp := .atSpeed }, by decide +kernel⟩,
   ⟨r0, by decide +kernel⟩,
   ⟨pdAt { sp := .holdup }, by decide +kernel⟩,
   ⟨r0, by decide +kernel⟩,
   ⟨{ noFacts with rpm := 2999 }, r0, by decide +kernel⟩,
   ⟨{ noFacts with ms := 1700 }, r0, by decide +kernel⟩,
   ⟨{ noFacts with rpm := 2999 }, r0, by decide +kernel⟩,
   ⟨pdAt { act := .loaded }, by decide +kernel⟩,
   ⟨stub false false false, pdAt { retract := some (stub false false false) }, by decide +kernel⟩,
   ⟨stub false false false, pdAt { retract := some (stub false false false) }, by decide +kernel⟩,
   ⟨stub true false false, pdAt { retract := some (stub true false false) }, by decide +kernel⟩,
   ⟨stub false true true, pdAt { retract := some (stub false true true) }, by decide +kernel⟩,
   ⟨pdAt { sp := .start, attempts := 2 }, by decide +kernel⟩,
   ⟨pdAt { sp := .start, attempts := 1 }, by decide +kernel⟩,
   ⟨pdAt { sp := .accel }, by decide +kernel⟩,
   ⟨pdAt { sp := .accel, act := .loaded }, by decide +kernel⟩,
   ⟨pdAt { sp := .coast }, by decide +kernel⟩,
   ⟨pdAt { sp := .brake, stored := 1 }, by decide +kernel⟩,
   ⟨pdAt { sp := .holdup }, by decide +kernel⟩,
   ⟨{ noFacts with rpm := 3000 }, pdAt { sp := .start }, by decide +kernel⟩,
   ⟨pdAt { act := .loaded }, by decide +kernel⟩⟩

theorem witness_ChannelReadCommandsComplete :
    (∃ (m : Master) (s : State), gated s m = false ∧ s.on F.ASC_CTL_HWORD = true) ∧
    (∃ (m : Master) (t : BitVec 7) (s : State), gated s m = false ∧ s.on F.ASC_CTL_HWORD = false ∧
      (mopState s t.toNat = mopACTIVE ∨ mopState s t.toNat = mopPEND)) ∧
    (∃ (m : Master) (t : BitVec 7) (s : State), gated s m = false ∧ s.on F.ASC_CTL_HWORD = false ∧
      mopState s t.toNat ≠ mopACTIVE ∧ mopState s t.toNat ≠ mopPEND ∧ s.regsWf = true) ∧
    (∃ (k : Nat) (s : State), s.chn.slew = some k) ∧
    (∃ (t : BitVec 7) (s : State) (o : MOp), mediaOp s = some o ∧ o.tag = t.toNat ∧ mopWrite s o.tag = false ∧
      o.started < mopNsec s o.tag ∧ s.mode = mFLOW ∧ 3 ≤ s.chn.slots.length) ∧
    (∃ (t : BitVec 7) (s : State) (u : State) (o : MOp),
      u = { s with chn := { s.chn with slots := s.chn.slots ++ [({ tag := o.tag, idx := o.started } : RSec)] } } ∧
      mediaOp s = some o ∧ o.tag = t.toNat ∧ mopWrite s o.tag = false ∧ o.started < mopNsec s o.tag ∧ s.mode = mFLOW ∧
      s.chn.slots.length < 3) ∧
    (∃ (t : BitVec 7) (samp : Samples) (r : RSec) (s : State) (a : State) (u : State), a = s.adapt t.toNat samp ∧
      u = { a with chn := { a.chn with slots := [{ r with samp := samp, decoding := true }] } } ∧ s.chn.slots = [r] ∧
      r.tag = t.toNat ∧ r.decoding = false ∧ r.dec = none ∧ samp.servoLap = false) ∧
    (∃ (t : BitVec 7) (samp : Samples) (r : RSec) (s : State) (a : State) (u : State), a = s.adapt t.toNat samp ∧
      u = { a with chn := { a.chn with slots := [{ r with samp := samp, decoding := true }] } } ∧ s.chn.slots = [r] ∧
      r.tag = t.toNat ∧ r.decoding = false ∧ r.dec = none ∧ samp.servoLap = true) ∧
    (∃ (t : BitVec 7) (i : BitVec 8) (f : SectorFacts) (s : State) (u : State) (r : RSec),
      u = { s with chn := { s.chn with slots := [{ r with dec := some (decodeOf s t.toNat i.toNat f) }] } } ∧
      s.chn.slots = [r] ∧ r.tag = t.toNat ∧ r.idx = i.toNat ∧ r.decoding = true ∧ r.dec = none) ∧
    (∃ (t : BitVec 7) (i : BitVec 8) (f : SectorFacts) (s : State) (u : State) (r : RSec),
      u = { s with chn := { s.chn with slots := [{ r with dec := some (decodeOf s t.toNat i.toNat { f with conv := false }) }] } } ∧
      s.on (F.MOP1_RETRY t.toNat) = false ∧ s.chn.slots = [r] ∧ r.tag = t.toNat ∧ r.idx = i.toNat ∧ r.decoding = true ∧
      r.dec = none) ∧
    (∃ (m : Master) (s : State), gated s m = false ∧ s.chn.redec ≠ none) ∧
    (∃ (m : Master) (s : State) (u : State) (i : Nat), i = s.get F.CHN_RDEC_SLOT ∧
      u = { s with chn := { s.chn with redec := some (i, s.rd R.CHN_RDEC) } } ∧ gated s m = false ∧ s.chn.redec = none ∧
      tabGet s.chn.kept none i ≠ none) ∧
    (∃ (m : Master) (s : State) (u : State) (i : Nat), i = s.get F.CHN_RDEC_SLOT ∧
      u = { s with chn := { s.chn with kept := tabPut s.chn.kept none i none } } ∧ gated s m = false ∧ s.chn.redec = none) ∧
    (∃ (f : SectorFacts) (g : SectorFacts) (s : State) (u : State) (i : Nat) (h : Nat) (res : Nat) (e : Nat) (w : Word) (r : RetSlot) (d : Decoded),
      g = { f with iters := BitVec.ofNat 6 (Nat.min f.iters.toNat (if bitsOf w 7 2 = 0 then s.get F.CHN_ITER_GITER else bitsOf w 7 2)) } ∧
      h = bitsOf w 20 16 ∧ res = sectorResult s h (w.getLsbD 8) r.lba r.party r.samp g ∧
      e = erasedBits s h (w.getLsbD 8) true r.samp g ∧ d = decodedOf res e g ∧
      u = ((((({ s with chn := { s.chn with redec := none } } : State).put F.CHN_RDRES_BUSY 0).put F.CHN_RDRES_SRES res).put F.CHN_RDRES_ITER d.iters).put F.CHN_RDRES_UNSAT d.unsat).sresCount res ∧
      s.chn.redec = some (i, w) ∧ tabGet s.chn.kept none i = some r ∧ 2 ≤ res ∧ w.getLsbD 9 = false) ∧
    (∃ (f : SectorFacts) (g : SectorFacts) (s : State) (u : State) (i : Nat) (h : Nat) (res : Nat) (e : Nat) (w : Word) (r : RetSlot) (d : Decoded),
      g = { f with iters := BitVec.ofNat 6 (Nat.min f.iters.toNat (if bitsOf w 7 2 = 0 then s.get F.CHN_ITER_GITER else bitsOf w 7 2)) } ∧
      h = bitsOf w 20 16 ∧ res = sectorResult s h (w.getLsbD 8) r.lba r.party r.samp g ∧
      e = erasedBits s h (w.getLsbD 8) true r.samp g ∧ d = decodedOf res e g ∧
      u = ((((({ s with chn := { s.chn with redec := none } } : State).put F.CHN_RDRES_BUSY 0).put F.CHN_RDRES_SRES res).put F.CHN_RDRES_ITER d.iters).put F.CHN_RDRES_UNSAT d.unsat).sresCount res ∧
      s.chn.redec = some (i, w) ∧ tabGet s.chn.kept none i = some r ∧ 2 ≤ res ∧ w.getLsbD 9 = true) ∧
    (∃ (f : SectorFacts) (g : SectorFacts) (s : State) (u : State) (i : Nat) (h : Nat) (res : Nat) (e : Nat) (w : Word) (r : RetSlot) (d : Decoded),
      s.chn.redec = some (i, w) ∧ tabGet s.chn.kept none i = some r ∧
      g = { f with iters := BitVec.ofNat 6 (Nat.min f.iters.toNat (if bitsOf w 7 2 = 0 then s.get F.CHN_ITER_GITER else bitsOf w 7 2)) } ∧
      h = bitsOf w 20 16 ∧ res = sectorResult s h (w.getLsbD 8) r.lba r.party r.samp g ∧
      e = erasedBits s h (w.getLsbD 8) true r.samp g ∧ d = decodedOf res e g ∧
      u = ((((({ s with chn := { s.chn with redec := none } } : State).put F.CHN_RDRES_BUSY 0).put F.CHN_RDRES_SRES res).put F.CHN_RDRES_ITER d.iters).put F.CHN_RDRES_UNSAT d.unsat).sresCount res ∧
      res ≤ 1 ∧ redecTakes s r = true) ∧
    (∃ (f : SectorFacts) (g : SectorFacts) (s : State) (u : State) (i : Nat) (h : Nat) (res : Nat) (e : Nat) (w : Word) (r : RetSlot) (d : Decoded),
      s.chn.redec = some (i, w) ∧ tabGet s.chn.kept none i = some r ∧
      g = { f with iters := BitVec.ofNat 6 (Nat.min f.iters.toNat (if bitsOf w 7 2 = 0 then s.get F.CHN_ITER_GITER else bitsOf w 7 2)) } ∧
      h = bitsOf w 20 16 ∧ res = sectorResult s h (w.getLsbD 8) r.lba r.party r.samp g ∧
      e = erasedBits s h (w.getLsbD 8) true r.samp g ∧ d = decodedOf res e g ∧
      u = ((((({ s with chn := { s.chn with redec := none } } : State).put F.CHN_RDRES_BUSY 0).put F.CHN_RDRES_SRES res).put F.CHN_RDRES_ITER d.iters).put F.CHN_RDRES_UNSAT d.unsat).sresCount res ∧
      res ≤ 1 ∧ redecTakes s r = false) ∧
    (∃ (m : Master) (h : BitVec 5) (s : State), gated s m = false ∧ h.toNat < 20 ∧ headBusy s h.toNat = true) ∧
    (∃ (m : Master) (h : BitVec 5) (s : State), gated s m = false ∧ h.toNat < 20 ∧ headBusy s h.toNat = false) :=
  ⟨⟨.mc, r0.put F.ASC_CTL_HWORD 1, by decide +kernel⟩,
   ⟨.mc, 127, r0.put (F.MOPS_STATE 127) mopPEND, by decide +kernel⟩,
   ⟨.mc, 0, r0, by decide +kernel⟩,
   ⟨1024, { r0 with chn := { slew := some 1024 } }, by decide +kernel⟩,
   ⟨5, chnAt 0 1 op5 { slots := List.replicate 3 { tag := 5, idx := 0 } }, op5, by decide +kernel⟩,
   ⟨5, chnAt 0 1 op5 { slots := List.replicate 2 { tag := 5, idx := 0 } }, _, op5, rfl, by decide +kernel⟩,
   ⟨5, {}, rsec0, { r0 with chn := { slots := [rsec0] } }, _, _, rfl, rfl, by decide +kernel⟩,
   ⟨5, { servoLap := true }, rsec0, { r0 with chn := { slots := [rsec0] } }, _, _, rfl, rfl, by decide +kernel⟩,
   ⟨5, 0, noSector, { r0 with chn := { slots := [{ tag := 5, idx := 0, decoding := true }] } }, _,
     { tag := 5, idx := 0, decoding := true }, rfl, by decide +kernel⟩,
   ⟨5, 0, noSector, { r0 with chn := { slots := [{ tag := 5, idx := 0, decoding := true }] } }, _,
     { tag := 5, idx := 0, decoding := true }, rfl, by decide +kernel⟩,
   ⟨.sec, redecAt 0, by decide +kernel⟩,
   ⟨.sec, { r0 with chn := { kept := [(0, some kept0)] } }, _, _, rfl, rfl, by decide +kernel⟩,
   ⟨.mc, r0, _, _, rfl, rfl, by decide +kernel⟩,
   ⟨noSector, _, redecAt 0, _, 0, _, _, _, 0, kept0, _, rfl, rfl, rfl, rfl, rfl, rfl, by decide +kernel⟩,
   ⟨noSector, _, redecAt 0x200, _, 0, _, _, _, 0x200, kept0, _, rfl, rfl, rfl, rfl, rfl, rfl, by decide +kernel⟩,
   ⟨zeroSector, _, redecAt 0 { r0 with dma := [(0, { live := true, desc := [0x03, 0, 5, 0, 0, 0x10], base := 0 })] }, _,
     0, _, _, _, 0, kept0, _, rfl, by decide +kernel, rfl, rfl, rfl, rfl, rfl, rfl,
     by exact zero_sector_good _ _ (by decide +kernel) (by decide +kernel), by decide +kernel⟩,
   ⟨zeroSector, _, redecAt 0, _, 0, _, _, _, 0, kept0, _, rfl, by decide +kernel, rfl, rfl, rfl, rfl, rfl, rfl,
     by exact zero_sector_good _ _ (by decide +kernel) (by decide +kernel), by decide +kernel⟩,
   ⟨.mc, 0, chnAt 0 1 op5 { slots := List.replicate 3 { tag := 5, idx := 0 } }, by decide +kernel⟩,
   ⟨.mc, 0, r0, by decide +kernel⟩⟩

theorem witness_ChannelWriteCommandsComplete :
    (∃ (t : BitVec 7) (s : State) (o : MOp), mediaOp s = some o ∧ o.tag = t.toNat ∧ mopWrite s o.tag = true ∧
      o.started < mopNsec s o.tag ∧ o.started ≤ o.next + 1 ∧ o.nodata = false ∧
      (∀ w ∈ fifoOf s (mopChan s o.tag), w.tag = o.tag → w.idx ≠ o.started) ∧ o.started = o.next) ∧
    (∃ (t : BitVec 7) (s : State) (o : MOp), mediaOp s = some o ∧ o.tag = t.toNat ∧ mopWrite s o.tag = true ∧
      o.started < mopNsec s o.tag ∧ o.started ≤ o.next + 1 ∧ o.nodata = false ∧
      (∀ w ∈ fifoOf s (mopChan s o.tag), w.tag = o.tag → w.idx ≠ o.started) ∧ o.started ≠ o.next) ∧
    (∃ (t : BitVec 7) (s : State) (o : MOp) (w : _), mediaOp s = some o ∧ o.tag = t.toNat ∧ mopWrite s o.tag = true ∧
      o.started < mopNsec s o.tag ∧ o.started ≤ o.next + 1 ∧ o.nodata = false ∧ w ∈ fifoOf s (mopChan s o.tag) ∧
      w.tag = o.tag ∧ w.idx = o.started ∧ gateAllowed s = true) ∧
    (∃ (t : BitVec 7) (s : State) (o : MOp) (w : _), mediaOp s = some o ∧ o.tag = t.toNat ∧ mopWrite s o.tag = true ∧
      o.started < mopNsec s o.tag ∧ o.started ≤ o.next + 1 ∧ o.nodata = false ∧ w ∈ fifoOf s (mopChan s o.tag) ∧
      w.tag = o.tag ∧ w.idx = o.started ∧ gateAllowed s = false) ∧
    (∃ (t : BitVec 7) (s : State) (u : State) (v : State) (o : MOp) (q : MOp) (w : WSec) (c : Nat) (bits : List Bool),
      c = mopChan s o.tag ∧ bits = sectorBits (mopLba s o.tag o.next) (sectorInfo s o.tag w) ∧
      (u = (s.emit (.media (s.get (F.MOP0_HEAD o.tag)) (mopDbit s o.tag o.next) bits (sectorShifts s o.tag (mopDbit s o.tag o.next) bits))).setFifo c ((fifoOf s c).filter fun (x : WSec) => !(x.tag == o.tag && x.idx == o.next))) ∧
      q = { o with next := o.next + 1, ndone := o.ndone + 1, gate := decide (o.started > o.next + 1) } ∧
      v = State.chFill none 3 c (u.setOp q) ∧ mediaOp s = some o ∧ o.tag = t.toNat ∧ mopWrite s o.tag = true ∧
      o.gate = true ∧ o.next < o.started ∧
      ((fifoOf s c).find? (fun (w : WSec) => w.tag == o.tag && w.idx == o.next) = some w) ∧ mopNsec v o.tag ≤ o.next + 1) ∧
    (∃ (t : BitVec 7) (s : State) (u : State) (v : State) (o : MOp) (q : MOp) (w : WSec) (c : Nat) (bits : List Bool),
      c = mopChan s o.tag ∧ bits = sectorBits (mopLba s o.tag o.next) (sectorInfo s o.tag w) ∧
      (u = (s.emit (.media (s.get (F.MOP0_HEAD o.tag)) (mopDbit s o.tag o.next) bits (sectorShifts s o.tag (mopDbit s o.tag o.next) bits))).setFifo c ((fifoOf s c).filter fun (x : WSec) => !(x.tag == o.tag && x.idx == o.next))) ∧
      q = { o with next := o.next + 1, ndone := o.ndone + 1, gate := decide (o.started > o.next + 1) } ∧
      v = State.chFill none 3 c (u.setOp q) ∧ mediaOp s = some o ∧ o.tag = t.toNat ∧ mopWrite s o.tag = true ∧
      o.gate = true ∧ o.next < o.started ∧
      ((fifoOf s c).find? (fun (w : WSec) => w.tag == o.tag && w.idx == o.next) = some w) ∧ o.next + 1 < mopNsec v o.tag ∧
      o.nodata = true ∧ o.next + 1 = o.started) ∧
    (∃ (t : BitVec 7) (s : State) (u : State) (v : State) (o : MOp) (q : MOp) (w : WSec) (c : Nat) (bits : List Bool),
      c = mopChan s o.tag ∧ bits = sectorBits (mopLba s o.tag o.next) (sectorInfo s o.tag w) ∧
      (u = (s.emit (.media (s.get (F.MOP0_HEAD o.tag)) (mopDbit s o.tag o.next) bits (sectorShifts s o.tag (mopDbit s o.tag o.next) bits))).setFifo c ((fifoOf s c).filter fun (x : WSec) => !(x.tag == o.tag && x.idx == o.next))) ∧
      q = { o with next := o.next + 1, ndone := o.ndone + 1, gate := decide (o.started > o.next + 1) } ∧
      v = State.chFill none 3 c (u.setOp q) ∧ mediaOp s = some o ∧ o.tag = t.toNat ∧ mopWrite s o.tag = true ∧
      o.gate = true ∧ o.next < o.started ∧
      ((fifoOf s c).find? (fun (w : WSec) => w.tag == o.tag && w.idx == o.next) = some w) ∧ o.next + 1 < mopNsec v o.tag ∧
      (o.nodata = false ∨ o.next + 1 ≠ o.started)) :=
  ⟨⟨5, chnAt 1 1 op5, op5, by decide +kernel⟩,
   ⟨5, chnAt 1 2 { op5 with gate := true, started := 1 } { fifo := [(0, [wsec 0])] },
     { op5 with gate := true, started := 1 }, by decide +kernel⟩,
   ⟨5, (chnAt 1 1 op5 { fifo := [(0, [wsec 0])] }).put F.SRV_STAT_WUS 0, op5, wsec 0, by decide +kernel⟩,
   ⟨5, (chnAt 1 1 op5 { fifo := [(0, [wsec 0])] }).put F.SRV_STAT_WUS 1, op5, wsec 0, by decide +kernel⟩,
   ⟨5, chnAt 1 1 { op5 with gate := true, started := 1 } { fifo := [(0, [wsec 0])] }, _, _,
     { op5 with gate := true, started := 1 }, _, wsec 0, _, _, rfl, rfl, rfl, rfl, rfl, by decide +kernel⟩,
   ⟨5, chnAt 1 2 { { op5 with gate := true, started := 1 } with nodata := true } { fifo := [(0, [wsec 0])] }, _, _,
     { { op5 with gate := true, started := 1 } with nodata := true }, _, wsec 0, _, _, rfl, rfl, rfl, rfl, rfl,
     by decide +kernel⟩,
   ⟨5, chnAt 1 2 { op5 with gate := true, started := 1 } { fifo := [(0, [wsec 0])] }, _, _,
     { op5 with gate := true, started := 1 }, _, wsec 0, _, _, rfl, rfl, rfl, rfl, rfl, by decide +kernel⟩⟩

theorem witness_DataBitsAvoidServoFields :
    ∃ (k : Nat) (d : Nat) (e : Nat), 1024 ≤ k ∧ k ≤ 8191 ∧ d < e :=
  ⟨8191, 0, 1, by decide +kernel⟩

theorem witness_CodewordsSatisfyTheParityCheckMatrix :
    ∃ (lba : Nat) (info : List Byte) (i : Nat) (a : Nat) (c : List Bool), info.length = 4132 ∧ i < 119 ∧ a < 32 ∧ c = codeword
      lba info :=
  ⟨0, List.replicate 4132 0, 118, 31, _, List.length_replicate, by decide, by decide, rfl⟩

theorem witness_FirnLookupCommandsComplete :
    (∃ (m : Master) (v : Word) (s : State) (u : State) (p : Nat) (n : Nat) (x : Bool) (r : LookRes), m ≠ .sv ∧
      gated s m = false ∧ s.on F.FIRN_STAT_ASLEEP = false ∧ p = bitsOf v 7 4 ∧ n = bitsOf v 13 8 + 1 ∧
      x = (bitsOf v 14 14 == 1) ∧ s.firnLookup p (lkey s m) n .look x = (r, u)) ∧
    (∃ (m : Master) (v : Word) (s : State) (u : State) (p : Nat) (n : Nat) (x : Bool) (r : LookRes), m ≠ .sv ∧
      gated s m = false ∧ s.on F.FIRN_STAT_ASLEEP = false ∧ p = bitsOf v 7 4 ∧ n = bitsOf v 13 8 + 1 ∧
      x = (bitsOf v 14 14 == 1) ∧ s.firnLookup p (lkey s m) n .alloc x = (r, u)) ∧
    (∃ (m : Master) (v : Word) (s : State) (u : State) (p : Nat) (n : Nat) (x : Bool) (r : LookRes), m ≠ .sv ∧
      gated s m = false ∧ s.on F.FIRN_STAT_ASLEEP = false ∧ p = bitsOf v 7 4 ∧ n = bitsOf v 13 8 + 1 ∧
      x = (bitsOf v 14 14 == 1) ∧ s.firnLookup p (lkey s m) n .reserve x = (r, u)) ∧
    (∃ (m : Master) (v : Word) (s : State) (u : State) (p : Nat) (n : Nat) (x : Bool) (r : LookRes), m ≠ .sv ∧
      gated s m = false ∧ s.on F.FIRN_STAT_ASLEEP = false ∧ p = bitsOf v 7 4 ∧ n = bitsOf v 13 8 + 1 ∧
      x = (bitsOf v 14 14 == 1) ∧ s.firnLookup p (lkey s m) n .fillLock x = (r, u)) ∧
    (∃ (m : Master) (v : Word) (s : State), m ≠ .sv ∧ gated s m = false ∧ s.on F.FIRN_STAT_ASLEEP = false ∧
      64 < lkey s m % 64 + (bitsOf v 13 8 + 1)) ∧
    (∃ (m : Master) (v : Word) (s : State) (u : State) (p : Nat) (lba : Nat) (n : Nat) (k : Nat) (g : Seg),
      p = bitsOf v 7 4 ∧ lba = lkey s m ∧ n = bitsOf v 13 8 + 1 ∧ u = s.touch k ∧ m ≠ .sv ∧ gated s m = false ∧
      s.on F.FIRN_STAT_ASLEEP = false ∧ lba % 64 + n ≤ 64 ∧ bitsOf v 14 14 = 1 ∧ findTag s p (lba / 64) = some k ∧
      (s.tag k).held = some g ∧ g.pin ≠ 255) ∧
    (∃ (m : Master) (v : Word) (s : State) (u : State) (p : Nat) (lba : Nat) (n : Nat) (k : Nat) (g : Seg),
      p = bitsOf v 7 4 ∧ lba = lkey s m ∧ n = bitsOf v 13 8 + 1 ∧ u = s.touch k ∧ m ≠ .sv ∧ gated s m = false ∧
      s.on F.FIRN_STAT_ASLEEP = false ∧ lba % 64 + n ≤ 64 ∧ bitsOf v 14 14 = 1 ∧ findTag s p (lba / 64) = some k ∧
      (s.tag k).held = some g ∧ g.pin = 255) ∧
    (∃ (m : Master) (v : Word) (s : State) (u : State) (w : State) (p : Nat) (lba : Nat) (n : Nat) (k : Nat) (g : Seg) (c : Mask),
      p = bitsOf v 7 4 ∧ lba = lkey s m ∧ n = bitsOf v 13 8 + 1 ∧ u = s.touch k ∧ c = maskOf (lba % 64) n &&& ~~~g.d ∧
      w = (u.setTag k { u.tag k with held := some { g with charge := chargeMask c g.charge } }).addUnits p (popcount c) ∧
      m ≠ .sv ∧ gated s m = false ∧ s.on F.FIRN_STAT_ASLEEP = false ∧ lba % 64 + n ≤ 64 ∧ bitsOf v 14 14 = 0 ∧
      findTag s p (lba / 64) = some k ∧ (s.tag k).held = some g ∧ (u.tag k).held = some g ∧ s.mode ≠ mRETREAT ∧
      noColumn s p = false ∧ maskOf (lba % 64) n &&& g.l = 0 ∧ s.dcount p + popcount c ≤ s.get (F.FIRN_DQ_DQUOTA p)) ∧
    (∃ (m : Master) (v : Word) (s : State) (u : State) (w : State) (p : Nat) (lba : Nat) (n : Nat) (k : Nat) (g : Seg) (c : Mask),
      p = bitsOf v 7 4 ∧ lba = lkey s m ∧ n = bitsOf v 13 8 + 1 ∧ u = s.touch k ∧
      c = maskOf (lba % 64) n &&& ~~~(g.v ||| g.d ||| g.l) ∧
      w = u.setTag k { u.tag k with held := some { g with l := g.l ||| c } } ∧ m ≠ .sv ∧ gated s m = false ∧
      s.on F.FIRN_STAT_ASLEEP = false ∧ lba % 64 + n ≤ 64 ∧ bitsOf v 14 14 = 0 ∧ findTag s p (lba / 64) = some k ∧
      (s.tag k).held = some g ∧ (u.tag k).held = some g) ∧
    (∃ (m : Master) (v : Word) (s : State) (p : Nat) (lba : Nat) (n : Nat) (k : Nat), p = bitsOf v 7 4 ∧ lba = lkey s m ∧
      n = bitsOf v 13 8 + 1 ∧ m ≠ .sv ∧ gated s m = false ∧ s.on F.FIRN_STAT_ASLEEP = false ∧ lba % 64 + n ≤ 64 ∧
      bitsOf v 14 14 = 0 ∧ findTag s p (lba / 64) = none ∧ findSerac s p (lba / 64) = none ∧
      findSlot s p (lba / 64) = none ∧ noColumn s p = false ∧ takeWay s p (lba / 64) = some k) ∧
    (∃ (m : Master) (v : Word) (s : State) (p : Nat) (lba : Nat) (n : Nat), p = bitsOf v 7 4 ∧ lba = lkey s m ∧
      n = bitsOf v 13 8 + 1 ∧ m ≠ .sv ∧ gated s m = false ∧ s.on F.FIRN_STAT_ASLEEP = false ∧ lba % 64 + n ≤ 64 ∧
      bitsOf v 14 14 = 0 ∧ findTag s p (lba / 64) = none ∧ findSerac s p (lba / 64) = none ∧
      findSlot s p (lba / 64) = none ∧ noColumn s p = false ∧ takeWay s p (lba / 64) = none) ∧
    (∃ (m : Master) (v : Word) (s : State) (p : Nat) (lba : Nat) (n : Nat), p = bitsOf v 7 4 ∧ lba = lkey s m ∧
      n = bitsOf v 13 8 + 1 ∧ m ≠ .sv ∧ gated s m = false ∧ s.on F.FIRN_STAT_ASLEEP = false ∧ lba % 64 + n ≤ 64 ∧
      s.mode = mRETREAT) ∧
    (∃ (m : Master) (v : Word) (s : State) (p : Nat) (lba : Nat) (n : Nat) (k : Nat) (g : Seg), p = bitsOf v 7 4 ∧
      lba = lkey s m ∧ n = bitsOf v 13 8 + 1 ∧ m ≠ .sv ∧ gated s m = false ∧ s.on F.FIRN_STAT_ASLEEP = false ∧
      lba % 64 + n ≤ 64 ∧ s.mode ≠ mRETREAT ∧ noColumn s p = false ∧ findTag s p (lba / 64) = some k ∧
      (s.tag k).held = some g ∧ s.get (F.FIRN_DQ_DQUOTA p) < s.dcount p + popcount (maskOf (lba % 64) n &&& ~~~g.d)) :=
  ⟨⟨.sec, 0, r0, _, _, _, _, _, by decide +kernel, by decide +kernel, by decide +kernel, rfl, rfl, rfl, pair_of _ rfl⟩,
   ⟨.sec, 0, r0, _, _, _, _, _, by decide +kernel, by decide +kernel, by decide +kernel, rfl, rfl, rfl, pair_of _ rfl⟩,
   ⟨.sec, 0, r0, _, _, _, _, _, by decide +kernel, by decide +kernel, by decide +kernel, rfl, rfl, rfl, pair_of _ rfl⟩,
   ⟨.sec, 0, r0, _, _, _, _, _, by decide +kernel, by decide +kernel, by decide +kernel, rfl, rfl, rfl, pair_of _ rfl⟩,
   ⟨.sec, 0x3F00, r0.put (F.FIRN_LKEY_LO_LBA .sec) 1, by decide +kernel⟩,
   ⟨.sec, 0x4000, holding, _, _, _, _, 0, seg0, rfl, rfl, rfl, rfl, by decide +kernel⟩,
   ⟨.sec, 0x4000, holding { seg0 with pin := 255 }, _, _, _, _, 0, { seg0 with pin := 255 }, rfl, rfl, rfl, rfl,
     by decide +kernel⟩,
   ⟨.sec, 0, holding, _, _, _, _, _, 0, seg0, _, rfl, rfl, rfl, rfl, rfl, rfl, by decide +kernel⟩,
   ⟨.sec, 0, holding, _, _, _, _, _, 0, seg0, _, rfl, rfl, rfl, rfl, rfl, rfl, by decide +kernel⟩,
   ⟨.mc, 0, r0, _, _, _, 0, rfl, rfl, rfl, by decide +kernel⟩,
   ⟨.sec, 0,
     { cached with firn := { tags := (List.range 8).map fun i => (i, { frame := i, held := some { seg0 with pin := 1, owner := 1 } }) } },
     _, _, _, rfl, rfl, rfl, by decide +kernel⟩,
   ⟨.sec, 0x3F00, inMode mRETREAT, _, _, _, rfl, rfl, rfl, by decide +kernel⟩,
   ⟨.sec, 0, (holding).put (F.FIRN_DQ_DQUOTA 0) 0, _, _, _, 0, seg0, rfl, rfl, rfl, by decide +kernel⟩⟩

theorem witness_FirnSegmentCommandsComplete :
    (∃ (m : Master) (v : Word) (s : State) (k : Nat) (g : Seg) (h : Seg) (du : Int) (pt : Bool) (n : Nat), m ≠ .sv ∧
      gated s m = false ∧ s.on F.FIRN_STAT_ASLEEP = false ∧ scmdTgt v = false ∧ k = scmdKey v ∧
      (s.tag k).gen = scmdGen v ∧ (s.tag k).held = some g ∧
      ((sectorsOf (smask s m)).foldl (fun a i => commitSector (sfull s m) i a) (g, (0 : Int), false, 0) = (h, du, pt, n))) ∧
    (∃ (m : Master) (v : Word) (s : State) (k : Nat) (g : Seg), m ≠ .sv ∧ gated s m = false ∧
      s.on F.FIRN_STAT_ASLEEP = false ∧ scmdTgt v = false ∧ k = scmdKey v ∧ (s.tag k).gen = scmdGen v ∧
      (s.tag k).held = some g ∧ g.pin ≠ 0) ∧
    (∃ (m : Master) (v : Word) (s : State) (k : Nat) (g : Seg), m ≠ .sv ∧ gated s m = false ∧
      s.on F.FIRN_STAT_ASLEEP = false ∧ scmdTgt v = false ∧ k = scmdKey v ∧ (s.tag k).gen = scmdGen v ∧
      (s.tag k).held = some g ∧ g.pin = 0) ∧
    (∃ (m : Master) (v : Word) (s : State) (k : Nat) (g : Seg) (n : Nat) (u : State), m ≠ .sv ∧ gated s m = false ∧
      s.on F.FIRN_STAT_ASLEEP = false ∧ scmdTgt v = false ∧ k = scmdKey v ∧ (s.tag k).gen = scmdGen v ∧
      (s.tag k).held = some g ∧ s.postClean k (~~~0) false = (some n, u)) ∧
    (∃ (m : Master) (v : Word) (s : State) (k : Nat) (g : Seg), m ≠ .sv ∧ gated s m = false ∧
      s.on F.FIRN_STAT_ASLEEP = false ∧ scmdTgt v = false ∧ k = scmdKey v ∧ (s.tag k).gen = scmdGen v ∧
      (s.tag k).held = some g ∧ 64 ≤ s.firn.clq.length ∧ g.d &&& ~~~g.p ≠ 0) ∧
    (∃ (m : Master) (v : Word) (s : State) (k : Nat) (g : Seg) (n : Nat) (u : State) (h : Seg), m ≠ .sv ∧
      gated s m = false ∧ s.on F.FIRN_STAT_ASLEEP = false ∧ scmdTgt v = false ∧ k = scmdKey v ∧
      (s.tag k).gen = scmdGen v ∧ (s.tag k).held = some g ∧ s.postClean k (~~~0) true = (some n, u) ∧
      (u.tag k).held = some h) ∧
    (∃ (m : Master) (v : Word) (s : State) (k : Nat) (g : Seg), m ≠ .sv ∧ gated s m = false ∧
      s.on F.FIRN_STAT_ASLEEP = false ∧ scmdTgt v = false ∧ k = scmdKey v ∧ (s.tag k).gen = scmdGen v ∧
      (s.tag k).held = some g ∧ m ≠ .sec) ∧
    (∃ (m : Master) (v : Word) (s : State) (k : Nat) (g : Seg), m ≠ .sv ∧ gated s m = false ∧
      s.on F.FIRN_STAT_ASLEEP = false ∧ scmdTgt v = false ∧ k = scmdKey v ∧ (s.tag k).gen = scmdGen v ∧
      (s.tag k).held = some g ∧ m = .sec) ∧
    (∃ (m : Master) (v : Word) (s : State), m ≠ .sv ∧ gated s m = false ∧ s.on F.FIRN_STAT_ASLEEP = false ∧
      scmdTgt v = false ∧ (s.tag (scmdKey v)).gen ≠ scmdGen v ∧ m ≠ .sec) ∧
    (∃ (m : Master) (v : Word) (s : State) (j : Nat) (g : Seg), m ≠ .sv ∧ gated s m = false ∧
      s.on F.FIRN_STAT_ASLEEP = false ∧ scmdTgt v = true ∧ j = scmdSlot v ∧ (s.slot j).gen = scmdGen v ∧
      (s.slot j).held = some g) ∧
    (∃ (m : Master) (v : Word) (s : State) (j : Nat), j = scmdSlot v ∧ m ≠ .sv ∧ gated s m = false ∧
      s.on F.FIRN_STAT_ASLEEP = false ∧ scmdTgt v = true ∧ (s.slot j).gen = scmdGen v ∧ m ≠ .sec) ∧
    (∃ (m : Master) (v : Word) (s : State) (j : Nat), j = scmdSlot v ∧ m ≠ .sv ∧ gated s m = false ∧
      s.on F.FIRN_STAT_ASLEEP = false ∧ scmdTgt v = true ∧ (s.slot j).gen ≠ scmdGen v) ∧
    (∃ (v : Word) (s : State) (k : Nat) (g : Seg) (c : Mask),
      c = mask64 (s.get F.FIRN_WBM_LO_MASK) (s.get F.FIRN_WBM_HI_MASK) &&& g.p ∧ s.on F.FIRN_STAT_ASLEEP = false ∧
      s.on F.ASC_CTL_HWORD = false ∧ k = bitsOf v 9 1 * 8 + bitsOf v 12 10 ∧
      (s.tag k).gen = BitVec.ofNat 8 (bitsOf v 20 13) ∧ (s.tag k).held = some g ∧ bitsOf v 0 0 = 1) ∧
    (∃ (v : Word) (s : State) (k : Nat) (g : Seg) (c : Mask),
      c = mask64 (s.get F.FIRN_WBM_LO_MASK) (s.get F.FIRN_WBM_HI_MASK) &&& g.p ∧ s.on F.FIRN_STAT_ASLEEP = false ∧
      s.on F.ASC_CTL_HWORD = false ∧ k = bitsOf v 9 1 * 8 + bitsOf v 12 10 ∧
      (s.tag k).gen = BitVec.ofNat 8 (bitsOf v 20 13) ∧ (s.tag k).held = some g ∧ bitsOf v 0 0 = 0) ∧
    (∃ (v : Word) (s : State), s.on F.FIRN_STAT_ASLEEP = false ∧ s.on F.ASC_CTL_HWORD = false ∧
      (s.tag (bitsOf v 9 1 * 8 + bitsOf v 12 10)).gen ≠ BitVec.ofNat 8 (bitsOf v 20 13)) :=
  ⟨⟨.sec, 0, holding, 0, seg0, seg0, 0, false, 0, by decide +kernel⟩,
   ⟨.sec, 0, holding { seg0 with pin := 1 }, 0, { seg0 with pin := 1 }, by decide +kernel⟩,
   ⟨.sec, 0, holding, 0, seg0, by decide +kernel⟩,
   ⟨.sec, 0, holding, 0, seg0, 0, holding, by decide +kernel⟩,
   ⟨.sec, 0, clqFull, 0, { seg0 with d := 1 }, by decide +kernel⟩,
   ⟨.sec, 0, holding, 0, seg0, 0, holding, seg0, by decide +kernel⟩,
   ⟨.mc, 0, holding, 0, seg0, by decide +kernel⟩,
   ⟨.sec, 0, holding, 0, seg0, by decide +kernel⟩,
   ⟨.mc, 0x20000, r0, by decide +kernel⟩,
   ⟨.sec, 0x10, entryIn { corn := [(0, { frame := 4112, st := .held, held := some seg0 })] }, 0, seg0, by decide +kernel⟩,
   ⟨.mc, 0x3F0, r0, _, rfl, by decide +kernel⟩,
   ⟨.sec, 0x20010, r0, _, rfl, by decide +kernel⟩,
   ⟨1, holding, 0, seg0, _, rfl, by decide +kernel⟩,
   ⟨0, holding, 0, seg0, _, rfl, by decide +kernel⟩,
   ⟨0x20000, holding, by decide +kernel⟩⟩

theorem witness_FirnMaintenanceCommandsComplete :
    (∃ (m : Master) (v : Word) (s : State) (p : Nat) (lba : Nat) (n : Nat) (k : Nat) (x : Mask) (c : Nat) (u : State),
      m ≠ .sv ∧ gated s m = false ∧ s.on F.FIRN_STAT_ASLEEP = false ∧ p = bitsOf v 7 4 ∧ lba = lkey s m ∧
      n = bitsOf v 13 8 + 1 ∧ lba % 64 + n ≤ 64 ∧ x = maskOf (lba % 64) n ∧ findTag s p (lba / 64) = some k ∧
      s.maintTag .clean k x = (some c, u)) ∧
    (∃ (m : Master) (v : Word) (s : State) (p : Nat) (lba : Nat) (n : Nat) (k : Nat) (x : Mask) (c : Nat) (u : State),
      m ≠ .sv ∧ gated s m = false ∧ s.on F.FIRN_STAT_ASLEEP = false ∧ p = bitsOf v 7 4 ∧ lba = lkey s m ∧
      n = bitsOf v 13 8 + 1 ∧ lba % 64 + n ≤ 64 ∧ x = maskOf (lba % 64) n ∧ findTag s p (lba / 64) = some k ∧
      s.maintTag .inval k x = (some c, u)) ∧
    (∃ (m : Master) (v : Word) (s : State) (p : Nat) (lba : Nat) (n : Nat) (k : Nat) (x : Mask) (c : Nat) (u : State),
      m ≠ .sv ∧ gated s m = false ∧ s.on F.FIRN_STAT_ASLEEP = false ∧ p = bitsOf v 7 4 ∧ lba = lkey s m ∧
      n = bitsOf v 13 8 + 1 ∧ lba % 64 + n ≤ 64 ∧ x = maskOf (lba % 64) n ∧ findTag s p (lba / 64) = some k ∧
      s.maintTag .cleanInval k x = (some c, u)) ∧
    (∃ (m : Master) (v : Word) (s : State) (p : Nat) (lba : Nat) (n : Nat) (k : Nat) (x : Mask) (c : Nat) (u : State),
      m ≠ .sv ∧ gated s m = false ∧ s.on F.FIRN_STAT_ASLEEP = false ∧ p = bitsOf v 7 4 ∧ lba = lkey s m ∧
      n = bitsOf v 13 8 + 1 ∧ lba % 64 + n ≤ 64 ∧ x = maskOf (lba % 64) n ∧ findTag s p (lba / 64) = some k ∧ m ≠ .sec ∧
      s.maintTag .discard k x = (some c, u)) ∧
    (∃ (m : Master) (v : Word) (s : State) (p : Nat) (lba : Nat) (n : Nat) (k : Nat) (x : Mask), p = bitsOf v 7 4 ∧
      lba = lkey s m ∧ n = bitsOf v 13 8 + 1 ∧ x = maskOf (lba % 64) n ∧ m ≠ .sv ∧ gated s m = false ∧
      s.on F.FIRN_STAT_ASLEEP = false ∧ lba % 64 + n ≤ 64 ∧ findTag s p (lba / 64) = some k ∧ m = .sec) ∧
    (∃ (m : Master) (v : Word) (s : State) (p : Nat) (lba : Nat) (n : Nat) (k : Nat) (x : Mask) (u : State), m ≠ .sv ∧
      gated s m = false ∧ s.on F.FIRN_STAT_ASLEEP = false ∧ p = bitsOf v 7 4 ∧ lba = lkey s m ∧ n = bitsOf v 13 8 + 1 ∧
      lba % 64 + n ≤ 64 ∧ x = maskOf (lba % 64) n ∧ findTag s p (lba / 64) = some k ∧ s.maintTag .clean k x = (none, u)) ∧
    (∃ (m : Master) (v : Word) (s : State) (p : Nat) (lba : Nat) (n : Nat) (k : Nat) (x : Mask) (u : State), m ≠ .sv ∧
      gated s m = false ∧ s.on F.FIRN_STAT_ASLEEP = false ∧ p = bitsOf v 7 4 ∧ lba = lkey s m ∧ n = bitsOf v 13 8 + 1 ∧
      lba % 64 + n ≤ 64 ∧ x = maskOf (lba % 64) n ∧ findTag s p (lba / 64) = some k ∧
      s.maintTag .cleanInval k x = (none, u)) ∧
    (∃ (m : Master) (v : Word) (s : State) (p : Nat) (lba : Nat) (i : Nat), p = bitsOf v 7 4 ∧ lba = lkey s m ∧ m ≠ .sv ∧
      gated s m = false ∧ s.on F.FIRN_STAT_ASLEEP = false ∧ lba % 64 + (bitsOf v 13 8 + 1) ≤ 64 ∧
      findTag s p (lba / 64) = none ∧ findSerac s p (lba / 64) = some i ∧ m ≠ .sec) ∧
    (∃ (m : Master) (v : Word) (s : State) (p : Nat) (lba : Nat) (j : Nat), p = bitsOf v 7 4 ∧ lba = lkey s m ∧ m ≠ .sv ∧
      gated s m = false ∧ s.on F.FIRN_STAT_ASLEEP = false ∧ lba % 64 + (bitsOf v 13 8 + 1) ≤ 64 ∧
      findTag s p (lba / 64) = none ∧ findSerac s p (lba / 64) = none ∧ findSlot s p (lba / 64) = some j ∧ m ≠ .sec) ∧
    (∃ (m : Master) (v : Word) (s : State) (p : Nat) (lba : Nat), p = bitsOf v 7 4 ∧ lba = lkey s m ∧ m ≠ .sv ∧
      gated s m = false ∧ s.on F.FIRN_STAT_ASLEEP = false ∧ lba % 64 + (bitsOf v 13 8 + 1) ≤ 64 ∧
      findTag s p (lba / 64) = none ∧ findSerac s p (lba / 64) = none ∧ findSlot s p (lba / 64) = none ∧ m ≠ .sec) ∧
    (∃ (m : Master) (v : Word) (s : State) (u : State) (r : RangeOp), u = s.raiseBit F.FIRN_STAT_RBUSY ∧
      r = { op := 0, scope := bitsOf v 5 4, party := bitsOf v 11 8, lba := s.get F.FIRN_RG_LO_LBA + s.get F.FIRN_RG_HI_LBA * 4294967296, cnt := s.get F.FIRN_RG_CNT_CNT } ∧
      (m = .sec ∨ m = .mc) ∧ gated s m = false ∧ s.on F.FIRN_STAT_ASLEEP = false ∧ s.on F.FIRN_STAT_RBUSY = false ∧
      bitsOf v 5 4 ≠ 3) ∧
    (∃ (m : Master) (s : State), (m = .sec ∨ m = .mc) ∧ gated s m = false ∧ s.on F.FIRN_STAT_ASLEEP = false ∧
      s.on F.FIRN_STAT_RBUSY = true) ∧
    (∃ (m : Master) (s : State), m ≠ .sec ∧ m ≠ .mc ∧ gated s m = false) ∧
    (∃ (s : State), s.on F.FIRN_STAT_PAUSED = true ∧ s.firn.clq.length < 64 ∧ s.on F.FIRN_STAT_ASLEEP = false) ∧
    (∃ (s : State) (r : RangeOp), s.firn.range = some r ∧ r.pos = 4144 ∧ s.regsWf = true) :=
  ⟨⟨.sec, 0, holding, _, _, _, 0, _, 0, _, by decide +kernel, by decide +kernel, by decide +kernel, rfl, rfl, rfl,
     by decide +kernel, rfl, by decide +kernel, pair_of _ (by decide +kernel)⟩,
   ⟨.sec, 0, holding, _, _, _, 0, _, 1, _, by decide +kernel, by decide +kernel, by decide +kernel, rfl, rfl, rfl,
     by decide +kernel, rfl, by decide +kernel, pair_of _ (by decide +kernel)⟩,
   ⟨.sec, 0, holding, _, _, _, 0, _, 1, _, by decide +kernel, by decide +kernel, by decide +kernel, rfl, rfl, rfl,
     by decide +kernel, rfl, by decide +kernel, pair_of _ (by decide +kernel)⟩,
   ⟨.mc, 0, holding, _, _, _, 0, _, 1, _, by decide +kernel, by decide +kernel, by decide +kernel, rfl, rfl, rfl,
     by decide +kernel, rfl, by decide +kernel, by decide +kernel, pair_of _ (by decide +kernel)⟩,
   ⟨.sec, 0, holding, _, _, _, 0, _, rfl, rfl, rfl, rfl, by decide +kernel⟩,
   ⟨.sec, 0, clqFull, _, _, _, 0, _, _, by decide +kernel, by decide +kernel, by decide +kernel, rfl, rfl, rfl,
     by decide +kernel, rfl, by decide +kernel, pair_of _ (by decide +kernel)⟩,
   ⟨.sec, 0, clqFull, _, _, _, 0, _, _, by decide +kernel, by decide +kernel, by decide +kernel, rfl, rfl, rfl,
     by decide +kernel, rfl, by decide +kernel, pair_of _ (by decide +kernel)⟩,
   ⟨.mc, 0, entryIn { serac := [(15, { frame := 4096, held := some seg0 })] }, _, _, 15, rfl, rfl, by decide +kernel⟩,
   ⟨.mc, 0, entryIn { corn := [(31, { frame := 4112, st := .held, held := some seg0 })] }, _, _, 31, rfl, rfl,
     by decide +kernel⟩,
   ⟨.mc, 0, r0, _, _, rfl, rfl, by decide +kernel⟩,
   ⟨.sec, 0, holding, _, _, rfl, rfl, by decide +kernel⟩,
   ⟨.mc, r0.put F.FIRN_STAT_RBUSY 1, by decide +kernel⟩,
   ⟨.hc0, r0, by decide +kernel⟩,
   ⟨r0.put F.FIRN_STAT_PAUSED 1, by decide +kernel⟩,
   ⟨{ r0 with firn := { range := some { op := 0, scope := 0, party := 0, lba := 0, cnt := 0, pos := 4144 } } },
     { op := 0, scope := 0, party := 0, lba := 0, cnt := 0, pos := 4144 }, by decide +kernel⟩⟩

theorem witness_MetadataCorniceAndPartitionCommandsComplete :
    (∃ (m : Master) (s : State) (k : Nat), m ≠ .sv ∧ gated s m = false ∧ s.on F.FIRN_STAT_ASLEEP = false ∧
      findMeta s (mkey s m) = some k) ∧
    (∃ (m : Master) (s : State) (k : Nat), m ≠ .sv ∧ gated s m = false ∧ s.on F.FIRN_STAT_ASLEEP = false ∧
      findMeta s (mkey s m) = none ∧ takeMeta s = some k) ∧
    (∃ (m : Master) (s : State), m ≠ .sv ∧ gated s m = false ∧ s.on F.FIRN_STAT_ASLEEP = false ∧
      findMeta s (mkey s m) = none ∧ takeMeta s = none) ∧
    (∃ (m : Master) (k : BitVec 6) (s : State) (n : Nat) (e : MetaEnt), n = k.toNat ∧ e = s.metaEnt n ∧ m ≠ .sv ∧
      gated s m = false ∧ s.on F.FIRN_STAT_ASLEEP = false ∧ n < 48 ∧ e.dirty = false ∧ e.locked = false) ∧
    (∃ (m : Master) (k : BitVec 6) (s : State) (n : Nat) (e : MetaEnt), n = k.toNat ∧ e = s.metaEnt n ∧ m ≠ .sv ∧
      gated s m = false ∧ s.on F.FIRN_STAT_ASLEEP = false ∧ n < 48 ∧ (e.dirty = true ∨ e.locked = true)) ∧
    (∃ (m : Master) (k : BitVec 6) (s : State), m ≠ .sv ∧ gated s m = false ∧ s.on F.FIRN_STAT_ASLEEP = false ∧
      48 ≤ k.toNat) ∧
    (∃ (m : Master) (v : Word) (s : State) (p : Nat) (seg : Nat) (j : Nat), p = bitsOf v 11 8 ∧ seg = lkey s m / 64 ∧
      m ≠ .sv ∧ gated s m = false ∧ s.on F.FIRN_STAT_ASLEEP = false ∧ s.mode ≠ mRETREAT ∧ segNow s p seg = none ∧
      ((List.range 32).find? (fun i => (s.get (F.FIRN_CMASK_SLOTS p)).testBit i && (s.slot i).st == .free) = some j)) ∧
    (∃ (m : Master) (s : State), m ≠ .sv ∧ gated s m = false ∧ s.on F.FIRN_STAT_ASLEEP = false ∧ s.mode = mRETREAT) ∧
    (∃ (m : Master) (v : Word) (s : State) (p : Nat) (seg : Nat), seg = lkey s m / 64 ∧ m ≠ .sv ∧ gated s m = false ∧
      s.on F.FIRN_STAT_ASLEEP = false ∧ p = bitsOf v 11 8 ∧ s.mode ≠ mRETREAT ∧ segNow s p seg ≠ none) ∧
    (∃ (m : Master) (v : Word) (s : State) (p : Nat) (seg : Nat), p = bitsOf v 11 8 ∧ seg = lkey s m / 64 ∧ m ≠ .sv ∧
      gated s m = false ∧ s.on F.FIRN_STAT_ASLEEP = false ∧ s.mode ≠ mRETREAT ∧ segNow s p seg = none ∧
      (∀ i < 32, (s.get (F.FIRN_CMASK_SLOTS p)).testBit i = true → (s.slot i).st ≠ .free)) ∧
    (∃ (m : Master) (v : Word) (s : State), m ≠ .sv ∧ gated s m = false ∧ s.on F.FIRN_STAT_ASLEEP = false ∧
      slotOwned s v = true) ∧
    (∃ (m : Master) (v : Word) (s : State), m ≠ .sv ∧ gated s m = false ∧ s.on F.FIRN_STAT_ASLEEP = false ∧
      slotOwned s v = false) ∧
    (∃ (j : BitVec 5) (s : State) (g : Seg), (s.slot j.toNat).held = some g ∧ (s.slot j.toNat).st = .scrubbing ∧
      s.regsWf = true ∧ Sparse.wf slot0 s.firn.corn = true) ∧
    (∃ (p : BitVec 4) (v : Word) (s : State), s.on F.FIRN_STAT_ASLEEP = false ∧ s.on F.FIRN_STAT_PLOCKED = false ∧
      partTakes s p.toNat v = false) ∧
    (∃ (p : BitVec 4) (v : Word) (s : State), s.on F.FIRN_STAT_ASLEEP = false ∧ s.on F.FIRN_STAT_PLOCKED = false ∧
      partTakes s p.toNat v = true) ∧
    (∃ (p : BitVec 4) (v : Word) (s : State), s.on F.FIRN_STAT_ASLEEP = false ∧ s.on F.FIRN_STAT_PLOCKED = false ∧
      cmaskTakes s p.toNat v = false) ∧
    (∃ (p : BitVec 4) (v : Word) (s : State), s.on F.FIRN_STAT_ASLEEP = false ∧ s.on F.FIRN_STAT_PLOCKED = false ∧
      cmaskTakes s p.toNat v = true) ∧
    (∃ (m : Master) (s : State), (m ≠ .sec ∨ s.on F.FIRN_STAT_PLOCKED = true) ∧ gated s m = false) ∧
    (∃ (m : Master) (s : State), (m = .sec ∨ m = .mc) ∧ gated s m = false ∧ s.on F.FIRN_STAT_ASLEEP = false ∧
      s.on F.FIRN_STAT_PLOCKED = false ∧ plockCheck s = 0) ∧
    (∃ (m : Master) (s : State), (m = .sec ∨ m = .mc) ∧ gated s m = false ∧ s.on F.FIRN_STAT_ASLEEP = false ∧
      s.on F.FIRN_STAT_PLOCKED = false ∧ plockCheck s ≠ 0) ∧
    (∃ (s : State) (u : State),
      u = { s with firn := { s.firn with scrub := if s.firn.scrub + 1 ≥ 17825792 then 0 else s.firn.scrub + 1 } } ∧
      s.on F.FIRN_CTL_SCRUB = true ∧ s.on F.FIRN_STAT_ASLEEP = false) :=
  ⟨⟨.sec, { r0 with firn := { metas := [(47, { valid := true })] } }, 47, by decide +kernel⟩,
   ⟨.mc, r0, 0, by decide +kernel⟩,
   ⟨.sec, { r0 with firn := { metas := (List.range 48).map fun i => (i, { key := 1, valid := true, dirty := true }) } },
     by decide +kernel⟩,
   ⟨.mc, 0, r0, _, _, rfl, rfl, by decide +kernel⟩,
   ⟨.sec, 0,
     { r0 with firn := { metas := (List.range 48).map fun i => (i, { key := 1, valid := true, dirty := true }) } }, _, _,
     rfl, rfl, by decide +kernel⟩,
   ⟨.sec, 48, r0, by decide +kernel⟩,
   ⟨.mc, 0, r0, _, _, 0, rfl, rfl, by decide +kernel⟩,
   ⟨.sec, inMode mRETREAT, by decide +kernel⟩,
   ⟨.mc, 0, holding, 0, _, rfl, by decide +kernel⟩,
   ⟨.sec, 0x100, r0, _, _, rfl, rfl, by decide +kernel⟩,
   ⟨.mc, 0, r0, by decide +kernel⟩,
   ⟨.sec, 0, r0.put (F.FIRN_CMASK_SLOTS 0) 0x80000000, by decide +kernel⟩,
   ⟨31, { r0 with firn := { corn := [(31, { frame := 4143, st := .scrubbing, held := some seg0 })] } }, seg0,
     by decide +kernel⟩,
   ⟨0, 0, r0, by decide +kernel⟩,
   ⟨0, 0, holding, by decide +kernel⟩,
   ⟨0, 0, r0, by decide +kernel⟩,
   ⟨0, 0, { r0 with firn := { corn := [(31, { frame := 4143, st := .scrubbing, held := some seg0 })] } },
     by decide +kernel⟩,
   ⟨.mc, r0, by decide +kernel⟩,
   ⟨.sec, { r0 with firn := { metas := [(47, { valid := true })] } }, by decide +kernel⟩,
   ⟨.mc, (r0.put (F.FIRN_CMASK_SLOTS 0) 1).put (F.FIRN_CMASK_SLOTS 1) 1, by decide +kernel⟩,
   ⟨r0, _, rfl, by decide +kernel⟩⟩

theorem witness_FramesStayApart :
    ∃ (m : Master) (v : Word) (j : BitVec 5) (s : State) (t : State), s.FramesApart ∧ (exec (.lookup m v) s = .next t ∨ exec
      (.lookupAlloc m v) s = .next t ∨ exec (.reserve m v) s = .next t ∨ exec (.filllock m v) s = .next t ∨ exec (.fill m v) s
      = .next t ∨ exec (.firnCommit m v) s = .next t ∨ exec (.corniceAlloc m v) s = .next t ∨ exec (.corniceRelease m v) s =
      .next t ∨ exec (.corniceScrubDone j) s = .next t) :=
  ⟨.sv, 0, 0, r0, r0, frames_at_reset, .inl rfl⟩

theorem witness_RangeMatchCommandsComplete :
    (∃ (m : Master) (e : List RmeErr) (s : State) (u : State) (r : RmeRes), m ≠ .sv ∧ gated s m = false ∧
      rmeBusy s m false = false ∧ s.on F.FIRN_STAT_ASLEEP = false ∧ s.defectLookup (rmeKey s m) m.idx e = (r, u) ∧
      s.on F.RME_CTL_DREADY = false) ∧
    (∃ (m : Master) (v : Word) (w : Word) (e : List RmeErr) (s : State) (u : State) (r : RmeRes) (p : Nat), m ≠ .sv ∧
      gated s m = false ∧ rmeBusy s m false = false ∧ s.on F.FIRN_STAT_ASLEEP = false ∧ w = v ||| 1 ∧ p = bitsOf w 4 1 ∧
      s.rme.held.contains p = false ∧ s.windowLookup p (rmeKey s m) (bitsOf w 7 5) m.idx e = (r, u) ∧
      (r.result = 0 ∨ bitsOf w 8 8 = 0)) ∧
    (∃ (m : Master) (v : Word) (w : Word) (e : List RmeErr) (s : State) (u : State) (r : RmeRes) (p : Nat), m ≠ .sv ∧
      gated s m = false ∧ rmeBusy s m false = false ∧ s.on F.FIRN_STAT_ASLEEP = false ∧ w = v ||| 1 ∧ p = bitsOf w 4 1 ∧
      s.rme.held.contains p = false ∧ s.windowLookup p (rmeKey s m) (bitsOf w 7 5) m.idx e = (r, u) ∧ r.result ≠ 0 ∧
      bitsOf w 8 8 = 1) ∧
    (∃ (m : Master) (v : Word) (w : Word) (s : State), w = v ||| 1 ∧ m ≠ .sv ∧ gated s m = false ∧
      rmeBusy s m false = false ∧ (s.on F.FIRN_STAT_ASLEEP = true ∨ s.rme.held.contains (bitsOf w 4 1) = true)) ∧
    (∃ (m : Master) (s : State), gated s m = false ∧ (m = .sv ∨ rmeBusy s m false = true)) ∧
    (∃ (m : Master) (s : State), gated s m = false ∧ (m = .sv ∨ rmeBusy s m true = true)) ∧
    (∃ (m : Master) (v : Word) (s : State) (l : List RmeStg),
      (l = (List.range (bitsOf v 4 2 + 1)).map (fun k => rmeSlot s m k)) ∧ m ≠ .sv ∧ gated s m = false ∧
      rmeBusy s m true = false ∧ s.on F.FIRN_STAT_ASLEEP = false ∧
      (firstBad l (fun k x => rmeFault s m l (rmeApply s.rme.ents l) k x != 0) = none)) ∧
    (∃ (m : Master) (v : Word) (s : State) (l : List RmeStg) (k : Nat),
      (l = (List.range (bitsOf v 4 2 + 1)).map (fun k => rmeSlot s m k)) ∧ m ≠ .sv ∧ gated s m = false ∧
      rmeBusy s m true = false ∧ s.on F.FIRN_STAT_ASLEEP = false ∧
      (firstBad l (fun k x => rmeFault s m l (rmeApply s.rme.ents l) k x != 0) = some k)) ∧
    (∃ (s : State), s.rme.waiting = [] ∧ s.regsWf = true) ∧
    (∃ (m : Master) (v : Word) (s : State), m ≠ .sv ∧ gated s m = false ∧ rmeBusy s m true = false ∧ s.regsWf = true ∧
      tabGet s.rme.ents none (bitsOf v 15 5) = none) ∧
    (∃ (m : Master) (v : Word) (s : State) (e : RmeEnt), m ≠ .sv ∧ gated s m = false ∧ rmeBusy s m true = false ∧
      s.regsWf = true ∧ tabGet s.rme.ents none (bitsOf v 15 5) = some e) ∧
    (∃ (s : State), anyOverlap s.rme.ents = true) ∧
    (∃ (s : State), anyOverlap s.rme.ents = false) ∧
    (∃ (m : Master) (s : State), (m = .sec ∨ m = .mc) ∧ gated s m = false) ∧
    (∃ (m : Master) (s : State), m ≠ .sec ∧ m ≠ .mc ∧ gated s m = false) ∧
    (∃ (s : State) (u : State) (i : Nat) (w : Bool), i = s.rme.patrol ∧
      w = (match tabGet s.rme.ents none i with | some e => e.window | none => false) ∧
      u = { s with rme := { s.rme with patrol := (i + 1) % 2048 } } ∧ s.on F.FIRN_STAT_ASLEEP = false) :=
  ⟨⟨.sec, [], r0, _, _, by decide +kernel, by decide +kernel, by decide +kernel, by decide +kernel, pair_of _ rfl,
     by decide +kernel⟩,
   ⟨.sec, 0, _, [], r0, _, _, _, by decide +kernel, by decide +kernel, by decide +kernel, by decide +kernel, rfl, rfl,
     by decide +kernel, pair_of _ rfl, .inr (by decide +kernel)⟩,
   ⟨.sec, 0x100, _, [], r0, _, _, _, by decide +kernel, by decide +kernel, by decide +kernel, by decide +kernel, rfl, rfl,
     by decide +kernel, pair_of _ rfl, by decide +kernel, by decide +kernel⟩,
   ⟨.sec, 30, _, { r0 with rme := { held := [15] } }, rfl, by decide +kernel⟩,
   ⟨.sec, { r0 with rme := { waiting := [{ m := .sec, commit := false, v := 0, errs := [] }] } }, by decide +kernel⟩,
   ⟨.sec, { r0 with rme := { waiting := [{ m := .sec, commit := true, v := 0, errs := [] }] } }, by decide +kernel⟩,
   ⟨.mc, 0, r0, _, rfl, by decide +kernel⟩,
   ⟨.hc0, 0, r0, _, 0, rfl, by decide +kernel⟩,
   ⟨r0, by decide +kernel⟩,
   ⟨.mc, 0, r0, by decide +kernel⟩,
   ⟨.sec, 0, { r0 with rme := { ents := [(0, some { window := false, key := 5, len := 48 })] } },
     { window := false, key := 5, len := 48 }, by decide +kernel⟩,
   ⟨{ r0 with rme := { ents := [(0, some { window := true, key := 5, len := 48 }), (1, some { window := true, key := 5, len := 48, party := 1 })] } },
     by decide +kernel⟩,
   ⟨r0, by decide +kernel⟩,
   ⟨.sec, r0, by decide +kernel⟩,
   ⟨.hc0, r0, by decide +kernel⟩,
   ⟨r0, _, _, _, rfl, rfl, rfl, by decide +kernel⟩⟩

theorem witness_RunKeepsTheOutcome :
    (∃ (s : State) (w : Bool) (p : Nat) (x : Nat) (y : Nat) (l : List (Nat × RmeEnt)) (h : Option (Nat × RmeEnt)),
      l = rmeEntries s w p ∧ h = rmeFirst l x ∧ (Sparse.wf (fun _ => (none : Option RmeEnt)) s.rme.ents = true) ∧
      x < 2 ^ 48 ∧ x ≤ y ∧ y < x + rmeRun l x h) ∧
    (∃ (s : State) (w : Bool) (p : Nat) (x : Nat) (l : List (Nat × RmeEnt)) (h : Option (Nat × RmeEnt)),
      l = rmeEntries s w p ∧ h = rmeFirst l x ∧ (Sparse.wf (fun _ => (none : Option RmeEnt)) s.rme.ents = true) ∧
      x < 2 ^ 48 ∧ rmeRun l x h < 2 ^ 32 - 1 ∧ (h ≠ none ∨ x + rmeRun l x h < 2 ^ 48)) :=
  ⟨⟨r0, true, 0, 0, 0, _, _, rfl, rfl, by decide +kernel⟩,
   ⟨{ r0 with rme := { ents := [(0, some { window := false, key := 5, len := 48 })] } }, false, 0, 4, _, _, rfl, rfl,
     by decide +kernel⟩⟩

theorem witness_WindowLockKeepsPartiesApart :
    (∃ (m : Master) (v : Word) (s : State) (t : State), (Sparse.wf (fun _ => (none : Option RmeEnt)) s.rme.ents = true) ∧ s.on
      F.RME_STAT_WLOCKED = true ∧ anyOverlap s.rme.ents = false ∧ exec (.rmeCommit m v) s = .next t) ∧
    (∃ (m : Master) (s : State) (t : State), s.regsWf = true ∧ s.on F.RME_STAT_WLOCKED = false ∧ exec (.wlock m) s = .next t ∧
      t.on F.RME_STAT_WLOCKED = true) :=
  ⟨⟨.sec, 0, r0.put F.RME_STAT_WLOCKED 1, _, by decide +kernel, by decide +kernel, by decide +kernel, rfl⟩,
   ⟨.sec, r0, _, by decide +kernel, by decide +kernel, rfl, by decide +kernel⟩⟩

theorem witness_DataMoverCommandsComplete :
    (∃ (m : Master) (c : BitVec 4) (s : State), gated s m = false ∧ chOwner s c.toNat = ownerCode m ∧
      (chState s c.toNat = chRUN ∨ chState s c.toNat = chHELD)) ∧
    (∃ (m : Master) (c : BitVec 4) (s : State), s.regsWf = true ∧ s.dmaWf = true ∧ gated s m = false ∧
      chOwner s c.toNat = ownerCode m ∧ (chState s c.toNat = chIDLE ∨ chState s c.toNat = chHALTED) ∧
      s.on F.DMA_STAT_HOLD = true) ∧
    (∃ (m : Master) (c : BitVec 4) (s : State), s.regsWf = true ∧ s.dmaWf = true ∧ gated s m = false ∧
      chOwner s c.toNat = ownerCode m ∧ (chState s c.toNat = chIDLE ∨ chState s c.toNat = chHALTED) ∧
      s.on F.DMA_STAT_HOLD = false) ∧
    (∃ (c : BitVec 4) (s : State), chState s c.toNat = chRUN ∧ (s.chan c.toNat).fetching = true ∧
      (s.chan c.toNat).uqi = false ∧ s.mode ≠ mOFF ∧ s.mode ≠ mDORMANT ∧
      dscAddrOk (s.get (F.CHDESC_ADDR c.toNat)) = false) ∧
    (∃ (c : BitVec 4) (s : State) (bs : List Byte), bs = s.dmaBytes (s.get (F.CHDESC_ADDR c.toNat)) 64 ∧
      chState s c.toNat = chRUN ∧ (s.chan c.toNat).fetching = true ∧ (s.chan c.toNat).uqi = false ∧ s.mode ≠ mOFF ∧
      s.mode ≠ mDORMANT ∧ dscAddrOk (s.get (F.CHDESC_ADDR c.toNat)) = true ∧
      ((dscOf bs).xts = true → s.on F.CRY_STAT_KATDONE = true)) ∧
    (∃ (c : BitVec 4) (s : State), chState s c.toNat = chRUN ∧ (s.chan c.toNat).fetching = true ∧
      (s.chan c.toNat).uqi = false ∧ s.mode ≠ mOFF ∧ s.mode ≠ mDORMANT ∧
      dscAddrOk (s.get (F.CHDESC_ADDR c.toNat)) = true ∧
      (dscOf (s.dmaBytes (s.get (F.CHDESC_ADDR c.toNat)) 64)).xts = true ∧ s.on F.CRY_STAT_KATDONE = false) ∧
    (∃ (c : BitVec 4) (s : State), chState s c.toNat = chRUN ∧ (s.chan c.toNat).fetching = true ∧
      (s.chan c.toNat).uqi = true ∧ s.mode ≠ mOFF ∧ s.mode ≠ mDORMANT ∧
      ((dscOf (s.chan c.toNat).desc).xts = true → s.on F.CRY_STAT_KATDONE = true)) ∧
    (∃ (c : BitVec 4) (s : State), chDone s c.toNat = true ∧ ((s.dsc c.toNat).dst ≠ eHOST ∨ s.mode ≠ mTHAW)) ∧
    (∃ (m : Master) (c : BitVec 4) (s : State), gated s m = false ∧ chOwner s c.toNat ≠ ownerCode m) ∧
    (∃ (m : Master) (c : BitVec 4) (s : State), gated s m = false ∧ chOwner s c.toNat = ownerCode m ∧
      chState s c.toNat = chRUN) ∧
    (∃ (m : Master) (c : BitVec 4) (s : State), gated s m = false ∧ chOwner s c.toNat = ownerCode m ∧
      chState s c.toNat = chHELD) ∧
    (∃ (c : BitVec 4) (s : State), (chState s c.toNat = chIDLE ∨ chState s c.toNat = chHALTED) ∧
      s.on F.DMA_CTL_CFGLOCK = false) ∧
    (∃ (s : State), (((List.range 16).filter fun c => chOwner s c == 4).length < 8)) ∧
    (∃ (s : State), (8 ≤ ((List.range 16).filter fun c => chOwner s c == 4).length)) ∧
    (∃ (m : Master) (s : State), m ≠ .sec ∧ gated s m = false) ∧
    (∃ (c : BitVec 4) (n : Nat) (s : State), (s.chan c.toNat).live = true ∧ n < (s.chan c.toNat).reqs.length ∧
      portUp s (s.dsc c.toNat).port = true) :=
  ⟨⟨.sec, 0, chAt chHELD, by decide +kernel⟩,
   ⟨.sec, 0, (chAt 0).put F.DMA_STAT_HOLD 1, by decide +kernel⟩,
   ⟨.sec, 0, chAt chHALTED, by decide +kernel⟩,
   ⟨0, chAt 1 [(0, { fetching := true })], by decide +kernel⟩,
   ⟨0, (chAt 1 [(0, { fetching := true })]).put (F.CHDESC_ADDR 0) 0x18000000, _, rfl, by decide +kernel⟩,
   ⟨0, { (chAt 1 [(0, { fetching := true })]).put (F.CHDESC_ADDR 0) 0x18000000 with sram := [(0x18000000, 0x40)] },
     by decide +kernel⟩,
   ⟨0, chAt 1 [(0, { fetching := true, uqi := true, desc := toHost })], by decide +kernel⟩,
   ⟨0, inMode mFLOW (chAt 1 [(0, { live := true, desc := toHost })]), by decide +kernel⟩,
   ⟨.mc, 0, r0, by decide +kernel⟩,
   ⟨.sec, 0, chAt chRUN, by decide +kernel⟩,
   ⟨.sec, 0, chAt chHELD, by decide +kernel⟩,
   ⟨0, r0, by decide +kernel⟩,
   ⟨r0, by decide +kernel⟩,
   ⟨(List.range 8).foldl (fun s c => s.put (F.CHCFG_OWNER c) 4) r0, by decide +kernel⟩,
   ⟨.mc, r0, by decide +kernel⟩,
   ⟨0, 0,
     portAt upPort (chAt 1 [(0, { live := true, desc := toHost, reqs := [{ pi := false, off := 0, len := 1, skip := 0, total := 1 }] })]),
     by decide +kernel⟩⟩

theorem witness_FailedChecksMoveNoData :
    (∃ (s : State) (c : Nat) (bs : List Byte) (cause : Nat) (detail : Nat) (a : Nat) (x : Nat), c < 16 ∧ s.regsWf = true ∧
      s.memWf = true ∧ s.dmaWf = true ∧ dscHalt s (dscOf bs) = some (cause, detail) ∧ a = s.get (F.CHDESC_ADDR c) ∧
      (s.chan c).uqi = false ∧ (x < a + 0x2C ∨ a + 0x40 ≤ x)) ∧
    (∃ (s : State) (c : Nat) (bs : List Byte) (cause : Nat) (detail : Nat) (a : Nat), c < 16 ∧ s.regsWf = true ∧
      s.memWf = true ∧ s.dmaWf = true ∧ dscHalt s (dscOf bs) = some (cause, detail) ∧ a = s.get (F.CHDESC_ADDR c) ∧
      (s.chan c).uqi = false ∧ dscAddrOk a = true) ∧
    (∃ (s : State) (c : Nat) (bs : List Byte) (cause : Nat) (detail : Nat) (a : Nat), c < 16 ∧ s.regsWf = true ∧
      s.memWf = true ∧ s.dmaWf = true ∧ dscHalt s (dscOf bs) = some (cause, detail) ∧ a = s.get (F.CHDESC_ADDR c) ∧
      (s.chan c).uqi = false ∧ dscAddrOk a = false) :=
  ⟨⟨r0, 15, [], 1, 0, _, 0, by decide +kernel, by decide +kernel, by decide +kernel, by decide +kernel, by decide +kernel,
     rfl, by decide +kernel, by decide +kernel⟩,
   ⟨r0.put (F.CHDESC_ADDR 0) 0x18000000, 0, [], 1, 0, _, by decide +kernel, by decide +kernel, by decide +kernel,
     by decide +kernel, by decide +kernel, rfl, by decide +kernel, by decide +kernel⟩,
   ⟨r0, 15, [], 1, 0, _, by decide +kernel, by decide +kernel, by decide +kernel, by decide +kernel, by decide +kernel,
     rfl, by decide +kernel, by decide +kernel⟩⟩

theorem witness_SectorUnderEndToEndCheckDoesNotLeave :
    ∃ (s : State) (c : Nat) (d : Dsc), c < 16 ∧ s.regsWf = true ∧ s.dmaWf = true ∧ d = dscOf toHost ∧ dscHalt s d = none ∧
      d.src = eBUFFER ∧ d.dst = eHOST ∧ sided s d.saddr = true ∧ sideValid (sideBytes s d.saddr) = true ∧ sectorCrc s d.saddr
      ≠ sideCrc (sideBytes s d.saddr) :=
  side_spoiled.elim (fun h => ⟨sideAt 0, 15, dscOf toHost, by decide, by decide +kernel, by decide +kernel, rfl,
    by decide +kernel, by decide, by decide, by decide +kernel, by decide +kernel, h⟩) (fun h => ⟨sideAt 1, 15, dscOf toHost,
    by decide, by decide +kernel, by decide +kernel, rfl, by decide +kernel, by decide, by decide, by decide +kernel,
    by decide +kernel, h⟩)

theorem witness_HostPortCommandsComplete :
    (∃ (q : BitVec 1) (s : State) (u : State), (u = s.onPort q.toNat (fun p => { p with dl := true, perst := true })) ∧
      hasPort s q.toNat = true ∧ s.mode ≠ mRETREAT ∧ s.mode ≠ mOFF ∧ portUp u q.toNat = true ∧
      (u.port q.toNat).up = false) ∧
    (∃ (q : BitVec 1) (s : State) (u : State), (u = s.onPort q.toNat (fun p => { p with dl := true, perst := true })) ∧
      hasPort s q.toNat = true ∧ s.mode ≠ mRETREAT ∧ s.mode ≠ mOFF ∧ portUp u q.toNat = (u.port q.toNat).up) ∧
    (∃ (q : BitVec 1) (s : State) (u : State), (u = s.onPort q.toNat (fun p => { p with dl := false })) ∧
      hasPort s q.toNat = true ∧ s.mode ≠ mRETREAT ∧ s.mode ≠ mOFF ∧ portUp u q.toNat = false ∧
      (u.port q.toNat).up = true) ∧
    (∃ (q : BitVec 1) (s : State) (u : State),
      (u = (s.onPort q.toNat (fun p => { p.functionReset with dl := false, perst := false })).hmwReset q.toNat) ∧
      hasPort s q.toNat = true ∧ s.mode ≠ mRETREAT ∧ s.mode ≠ mOFF ∧ portUp u q.toNat = false ∧
      (u.port q.toNat).up = true) ∧
    (∃ (q : BitVec 1) (s : State) (u : State), u = s.onPort q.toNat Port.functionReset ∧ hasPort s q.toNat = true ∧
      s.mode ≠ mRETREAT ∧ s.mode ≠ mOFF ∧ portUp u q.toNat = false ∧ (u.port q.toNat).up = true) ∧
    (∃ (q : BitVec 1) (s : State) (u : State), (u = s.onPort q.toNat (fun p => { p with bme := false })) ∧
      hasPort s q.toNat = true ∧ s.mode ≠ mRETREAT ∧ s.mode ≠ mOFF ∧ portUp u q.toNat = false ∧
      (u.port q.toNat).up = true) ∧
    (∃ (q : BitVec 1) (s : State) (u : State), (u = s.onPort q.toNat (fun p => { p with d3 := true })) ∧
      hasPort s q.toNat = true ∧ s.mode ≠ mRETREAT ∧ s.mode ≠ mOFF ∧ portUp u q.toNat = false ∧
      (u.port q.toNat).up = true) ∧
    (∃ (q : BitVec 1) (s : State), linkOn s q.toNat = true ∧ (s.port q.toNat).d3 = true) ∧
    (∃ (q : BitVec 1) (s : State), linkOn s q.toNat = true ∧ (s.port q.toNat).d3 = false) ∧
    (∃ (q : BitVec 1) (s : State) (n : Nat), n = leNat (s.infoBytes 16 4 8) ∧ linkOn s q.toNat = true) ∧
    (∃ (q : BitVec 1) (s : State), linkOn s q.toNat = false) ∧
    (∃ (q : BitVec 1) (s : State), bar0On s q.toNat = true ∧ s.on F.HMWCTL_LOCK = false ∧ s.regsWf = true) ∧
    (∃ (s : State), s.on F.HMWCTL_LOCK = true) ∧
    (∃ (q : BitVec 1) (s : State), bar0On s q.toNat = false) ∧
    (∃ (q : BitVec 1) (p : BitVec 4) (s : State), bar0On s q.toNat = true ∧ tabGet s.uqi.fetch 0 p.toNat = 0 ∧
      s.on (F.DBP_0_EN p.toNat) = true ∧ highRing s p.toNat ≠ 0 ∧ portUp s (curPort s p.toNat) = true ∧
      hostCheck s (s.get (F.DBP_0_ADDR_LO p.toNat) * 4096 + s.get (F.DBP_4_ADDR_HI p.toNat) * 4294967296) (16 * highRing s p.toNat) = none) :=
  ⟨⟨0, portAt { bme := true }, _, rfl, by decide +kernel⟩,
   ⟨0, r0, _, rfl, by decide +kernel⟩,
   ⟨0, portAt { up := true, dl := true, bme := true }, _, rfl, by decide +kernel⟩,
   ⟨0, portAt { up := true, dl := true, bme := true }, _, rfl, by decide +kernel⟩,
   ⟨0, portAt { up := true, dl := true, bme := true }, _, rfl, by decide +kernel⟩,
   ⟨0, portAt { up := true, dl := true, bme := true }, _, rfl, by decide +kernel⟩,
   ⟨0, portAt { up := true, dl := true, bme := true }, _, rfl, by decide +kernel⟩,
   ⟨0, portAt { upPort with d3 := true }, by decide +kernel⟩,
   ⟨0, portAt { up := true, dl := true, bme := true }, by decide +kernel⟩,
   ⟨0, portAt { up := true, dl := true, bme := true }, _, rfl, by decide +kernel⟩,
   ⟨0, r0, by decide +kernel⟩,
   ⟨0, portAt upPort, by decide +kernel⟩,
   ⟨r0.put F.HMWCTL_LOCK 1, by decide +kernel⟩,
   ⟨0, r0, by decide +kernel⟩,
   ⟨0, 0, uqiAt { sq := [(0, { st := 1 })] } ((portAt upPort).put (F.DBP_0_EN 0) 1), by decide +kernel⟩⟩

theorem witness_RingCommandsComplete :
    (∃ (q : BitVec 1) (w : BitVec 2) (s : State), bar0On s q.toNat = true ∧ w ≠ 3) ∧
    (∃ (q : BitVec 1) (r : BitVec 6) (s : State), bar0On s q.toNat = true ∧ sqOn s r.toNat = true) ∧
    (∃ (q : BitVec 1) (r : BitVec 6) (s : State), bar0On s q.toNat = true ∧ sqOn s r.toNat = false ∧
      sqRefuse s r.toNat = 0) ∧
    (∃ (q : BitVec 1) (r : BitVec 6) (s : State), bar0On s q.toNat = true ∧ sqOn s r.toNat = false ∧
      sqRefuse s r.toNat ≠ 0) ∧
    (∃ (q : BitVec 1) (r : BitVec 6) (a : BitVec 8) (s : State) (u : State),
      u = cqErr (s.put (F.CQ_C_AGGTIME r.toNat) a.toNat) r.toNat 0 ∧ bar0On s q.toNat = true ∧ cqOn s r.toNat = false ∧
      (Sparse.wf (fun _ => ({} : CqRing)) s.uqi.cq = true) ∧ cqRefuse u r.toNat = 0) ∧
    (∃ (q : BitVec 1) (r : BitVec 6) (a : BitVec 8) (s : State) (u : State),
      u = cqErr (s.put (F.CQ_C_AGGTIME r.toNat) a.toNat) r.toNat 0 ∧ bar0On s q.toNat = true ∧ cqOn s r.toNat = false ∧
      (Sparse.wf (fun _ => ({} : CqRing)) s.uqi.cq = true) ∧ cqRefuse u r.toNat ≠ 0) ∧
    (∃ (q : BitVec 1) (r : BitVec 6) (s : State), bar0On s q.toNat = true ∧ (s.sq r.toNat).st ≠ rACTIVE) ∧
    (∃ (q : BitVec 1) (r : BitVec 6) (s : State), bar0On s q.toNat = true ∧ (s.sq r.toNat).st = rACTIVE) ∧
    (∃ (q : BitVec 1) (r : BitVec 6) (s : State), bar0On s q.toNat = true ∧ cqOn s r.toNat = true ∧
      ((List.range 64).any (fun k => sqOn s k && s.get (F.SQ_8_CQID k) == r.toNat) = false)) ∧
    (∃ (q : BitVec 1) (r : BitVec 6) (s : State), bar0On s q.toNat = true ∧ cqOn s r.toNat = true ∧
      ((List.range 64).any (fun k => sqOn s k && s.get (F.SQ_8_CQID k) == r.toNat) = true)) ∧
    (∃ (r : BitVec 6) (s : State), (s.sq r.toNat).st = rDRAINING ∧ ((cmds s).any (fun c => c.2.ring == r.toNat) = false)) ∧
    (∃ (q : BitVec 1) (r : BitVec 6) (s : State) (u : State),
      u = (s.setSq r.toNat { s.sq r.toNat with st := rACTIVE, err := 0 }) ∧ bar0On s q.toNat = true ∧
      (s.sq r.toNat).st = rHALTED ∧ (s.sq r.toNat).reset = false ∧ portUp s (curPort s (sqParty s r.toNat)) = true) ∧
    (∃ (q : BitVec 1) (r : BitVec 6) (s : State), bar0On s q.toNat = true ∧
      portUp s (curPort s (sqParty s r.toNat)) = false) ∧
    (∃ (q : BitVec 1) (r : BitVec 6) (s : State), bar0On s q.toNat = true ∧ (s.cq r.toNat).st = rHALTED ∧
      portUp s (curPort s (cqParty s r.toNat)) = true ∧
      ((List.range 64).any (fun k => (s.sq k).st == rACTIVE && s.get (F.SQ_8_CQID k) == r.toNat) = true)) ∧
    (∃ (q : BitVec 1) (r : BitVec 6) (s : State) (u : State),
      u = s.setSq r.toNat { s.sq r.toNat with reset := true, err := 0 } ∧ bar0On s q.toNat = true ∧
      (s.sq r.toNat).st = rHALTED) ∧
    (∃ (q : BitVec 1) (r : BitVec 6) (s : State), bar0On s q.toNat = true ∧ (s.sq r.toNat).st ≠ rHALTED) :=
  ⟨⟨0, 2, uqiAt, by decide +kernel⟩,
   ⟨0, 63, uqiAt { sq := [(63, { st := 1 })] }, by decide +kernel⟩,
   ⟨0, 0, uqiAt { cq := [(0, { st := 1 })] } (((portAt upPort).put (F.DBP_0_EN 0) 1).put (F.SQ_0_BASE_LO 0) 1),
     by decide +kernel⟩,
   ⟨0, 0, uqiAt, by decide +kernel⟩,
   ⟨0, 0, 0, ((uqiAt).put (F.CQ_0_BASE_LO 0) 1).put (F.DBP_0_EN 0) 1, _, rfl, by decide +kernel⟩,
   ⟨0, 0, 0, uqiAt, _, rfl, by decide +kernel⟩,
   ⟨0, 0, uqiAt, by decide +kernel⟩,
   ⟨0, 63, uqiAt { sq := [(63, { st := 1 })] }, by decide +kernel⟩,
   ⟨0, 0, uqiAt { cq := [(0, { st := 1 })] } (((portAt upPort).put (F.DBP_0_EN 0) 1).put (F.SQ_0_BASE_LO 0) 1),
     by decide +kernel⟩,
   ⟨0, 0, uqiAt { sq := [(63, { st := 2 })], cq := [(0, { st := 1 })] }, by decide +kernel⟩,
   ⟨0, uqiAt { sq := [(0, { st := 2 })] }, by decide +kernel⟩,
   ⟨0, 0, uqiAt { sq := [(0, { st := 3, err := 6 })] }, _, rfl, by decide +kernel⟩,
   ⟨0, 0, uqiAt {} (portAt { upPort with bme := false }), by decide +kernel⟩,
   ⟨0, 0, uqiAt { cq := [(0, { st := 3 })], sq := [(0, { st := 1 })] }, by decide +kernel⟩,
   ⟨0, 0, uqiAt { sq := [(0, { st := 3, err := 6 })] }, _, rfl, by decide +kernel⟩,
   ⟨0, 0, uqiAt, by decide +kernel⟩⟩

theorem witness_RingFetchAndCompletionCommandsComplete :
    (∃ (p : BitVec 4) (bs : List Byte) (s : State) (u : State),
      u = { s with uqi := { s.uqi with fetch := tabPut s.uqi.fetch 0 p.toNat 0, dbref := setBit s.uqi.dbref p.toNat false } }.dbPage p.toNat (tabGet s.uqi.fetch 0 p.toNat) bs ∧
      tabGet s.uqi.fetch 0 p.toNat ≠ 0) ∧
    (∃ (p : BitVec 4) (x : HostEnd) (s : State), x ≠ .ok ∧ tabGet s.uqi.fetch 0 p.toNat ≠ 0 ∧
      s.uqi.again.testBit p.toNat = false) ∧
    (∃ (p : BitVec 4) (s : State), tabGet s.uqi.fetch 0 p.toNat = 0) ∧
    (∃ (r : BitVec 6) (s : State), (s.sq r.toNat).burst = 0) ∧
    (∃ (r : BitVec 6) (s : State) (u : State),
      u = s.setSq r.toNat { s.sq r.toNat with burst := 0, fptr := ((s.sq r.toNat).fptr + (s.sq r.toNat).burst) % sqSize s r.toNat } ∧
      (s.sq r.toNat).burst ≠ 0) ∧
    (∃ (r : BitVec 6) (x : HostEnd) (s : State), x ≠ .ok ∧ (s.sq r.toNat).burst ≠ 0) ∧
    (∃ (i : BitVec 10) (a : BitVec 64) (bs : List Byte) (k : Cmd) (s : State) (u : State),
      u = s.setCmd i.toNat (some { k with pages := k.pages ++ [(a.toNat, slice bs 0 4096)] }) ∧ s.cmd i.toNat = some k ∧
      (s.uqi.jobs.any (fun (j : XJob) => j.idx == i.toNat && j.page == some a.toNat) = true)) ∧
    (∃ (i : BitVec 10) (a : BitVec 64) (x : HostEnd) (k : Cmd) (s : State), x ≠ .ok ∧ s.cmd i.toNat = some k ∧
      s.uqi.jobs.any (fun (j : XJob) => j.idx == i.toNat && j.page == some a.toNat) = true) ∧
    (∃ (i : BitVec 10) (s : State), (s.uqi.cpls.find? (fun x => x.idx == i.toNat && x.slot.isSome) = none)) ∧
    (∃ (i : BitVec 10) (c : Cpl) (s : State) (u : State),
      u = (s.freeCmd i.toNat).setCq c.cq { (s.freeCmd i.toNat).cq c.cq with unsig := ((s.freeCmd i.toNat).cq c.cq).unsig + 1 } ∧
      (s.uqi.cpls.find? (fun x => x.idx == i.toNat && x.slot.isSome) = some c)) ∧
    (∃ (r : BitVec 6) (s : State), (s.cq r.toNat).unsig ≠ 0 ∧ s.on (F.CQ_8_IEN r.toNat) = true ∧
      s.get (F.CQ_C_AGGTIME r.toNat) ≠ 0) ∧
    (∃ (r : BitVec 6) (s : State),
      ((s.cq r.toNat).unsig = 0 ∨ s.on (F.CQ_8_IEN r.toNat) = false ∨ s.get (F.CQ_C_AGGTIME r.toNat) = 0)) :=
  ⟨⟨0, [], uqiAt { fetch := [(0, 64)] }, _, rfl, by decide +kernel⟩,
   ⟨0, .ur, uqiAt { fetch := [(0, 64)] }, by decide +kernel⟩,
   ⟨0, r0, by decide +kernel⟩,
   ⟨0, r0, by decide +kernel⟩,
   ⟨0, uqiAt { sq := [(0, { st := 1, burst := 8 })] }, _, rfl, by decide +kernel⟩,
   ⟨0, .timeout, uqiAt { sq := [(0, { st := 1, burst := 8 })] }, by decide +kernel⟩,
   ⟨0, 0, [], cmdOf 2,
     uqiAt { table := [(0, some (cmdOf 2))], jobs := [{ core := .hc0, idx := 0, xbuf := 0, xoff := 0, xlen := 0, out := false, pi := false, xtag := 0, page := some 0 }] },
     _, rfl, by decide +kernel⟩,
   ⟨0, 0, .ca, cmdOf 2,
     uqiAt { table := [(0, some (cmdOf 2))], jobs := [{ core := .hc0, idx := 0, xbuf := 0, xoff := 0, xlen := 0, out := false, pi := false, xtag := 0, page := some 0 }] },
     by decide +kernel⟩,
   ⟨0, r0, by decide +kernel⟩,
   ⟨0, { idx := 0, ring := 0, cq := 0, status := 0, ed := 0, spec := 0, sqhead := 0, slot := some (0, true) },
     uqiAt { cpls := [{ idx := 0, ring := 0, cq := 0, status := 0, ed := 0, spec := 0, sqhead := 0, slot := some (0, true) }] },
     _, rfl, by decide +kernel⟩,
   ⟨0, (uqiAt { cq := [(0, { st := 1, unsig := 1 })] }).put (F.CQ_8_IEN 0) 1 |>.put (F.CQ_C_AGGTIME 0) 1,
     by decide +kernel⟩,
   ⟨0, r0, by decide +kernel⟩⟩

theorem witness_EntryBurstsStayInRingAndPage :
    ∃ (s : State) (r : Nat), sqWork s r = true ∧ (s.sq r).fptr < sqSize s r ∧ (s.sq r).tail < sqSize s r ∧ (s.sq r).fptr <
      (s.sq r).tail :=
  ⟨(uqiAt { sq := [(0, { st := 1, fptr := 7, tail := 8 })] }).put (F.SQ_8_SIZEM1 0) 8, 0, by decide +kernel⟩

theorem witness_RefusedHostRangesSendNothing :
    (∃ (q : BitVec 1) (p : BitVec 4) (a : Nat) (s : State),
      a = s.get (F.DBP_0_ADDR_LO p.toNat) * 4096 + s.get (F.DBP_4_ADDR_HI p.toNat) * 4294967296 ∧
      bar0On s q.toNat = true ∧ tabGet s.uqi.fetch 0 p.toNat = 0 ∧ s.on (F.DBP_0_EN p.toNat) = true ∧
      highRing s p.toNat ≠ 0 ∧ portUp s (curPort s p.toNat) = true ∧ hostCheck s a (16 * highRing s p.toNat) ≠ none) ∧
    (∃ (s : State) (n : Nat), 0 < n ∧ x2 s = false ∧ s.on F.HMWCTL_EN = true) :=
  ⟨⟨0, 0, _,
     uqiAt { sq := [(0, { st := 1 })] } (((portAt { upPort with bar := 0x4000 }).put (F.DBP_0_EN 0) 1).put (F.DBP_0_ADDR_LO 0) 4),
     rfl, by decide +kernel⟩,
   ⟨r0.put F.HMWCTL_EN 1, 1, by decide +kernel⟩⟩

theorem witness_HostCommandsComplete :
    (∃ (i : BitVec 10) (k : Cmd) (s : State), k.fw.phase = 0 ∧ k.fw.stop = false ∧ fwHeld s k = false ∧
      keyMissing s k.party = false ∧ chunkAt s k k.fw.pos = none ∧ fwCmd s i.toNat 0x02 = some k) ∧
    (∃ (i : BitVec 10) (k : Cmd) (s : State), k.fw.phase = 0 ∧ k.fw.stop = false ∧ fwHeld s k = false ∧
      keyMissing s k.party = false ∧ chunkAt s k k.fw.pos = none ∧ fwCmd s i.toNat 0x01 = some k ∧
      (sqeOf k.bytes).fua = false) ∧
    (∃ (i : BitVec 10) (k : Cmd) (s : State), k.fw.phase = 0 ∧ k.fw.stop = false ∧ fwHeld s k = false ∧
      keyMissing s k.party = false ∧ chunkAt s k k.fw.pos = none ∧ fwCmd s i.toNat 0x04 = some k ∧
      (sqeOf k.bytes).fua = false) ∧
    (∃ (i : BitVec 10) (k : Cmd) (s : State), k.fw.phase = 0 ∧ k.fw.stop = false ∧ fwHeld s k = false ∧
      keyMissing s k.party = false ∧ chunkAt s k k.fw.pos = none ∧ fwCmd s i.toNat 0x05 = some k) ∧
    (∃ (i : BitVec 10) (k : Cmd) (x : Nat) (n : Nat) (key : Nat) (r : LookRes) (s : State) (u : State), k.fw.phase = 0 ∧
      k.fw.stop = false ∧ fwHeld s k = false ∧ keyMissing s k.party = false ∧ fwCmd s i.toNat 0x02 = some k ∧
      chunkAt s k k.fw.pos = some (x, n) ∧
      maskOf (x % 64) n &&& (segMasks s k.party x).e &&& (segMasks s k.party x).v = 0 ∧
      (∀ j, j < n → (segMasks s k.party x).v.getLsbD (x % 64 + j) = true) ∧ s.firnLookup k.party x n .look true = (r, u) ∧
      r.key = some key ∧ unitWhole s k k.fw.pos = true) ∧
    (∃ (i : BitVec 10) (k : Cmd) (r : XRes) (s : State) (u : State), fwCmd s i.toNat 0x01 = some k ∧ k.fw.phase = 2 ∧
      s.fwResult k = some (r, u) ∧ r.cause = 0) ∧
    (∃ (i : BitVec 10) (k : Cmd) (x : Nat) (n : Nat) (s : State) (j : _), fwCmd s i.toNat 0x05 = some k ∧ k.fw.phase = 0 ∧
      k.fw.stop = false ∧ fwHeld s k = false ∧ chunkAt s k k.fw.pos = some (x, n) ∧ unitWhole s k k.fw.pos = true ∧
      maskOf (x % 64) n &&& (segMasks s k.party x).l = 0 ∧ j < n) ∧
    (∃ (i : BitVec 10) (k : Cmd) (s : State), fwCmd s i.toNat 0x00 = some k ∧ k.fw.phase = 3 ∧ k.fw.stop = false ∧
      stillDirty s k.party k.fw.cover = []) ∧
    (∃ (i : BitVec 10) (k : Cmd) (s : State) (c : _), fwCmd s i.toNat 0x00 = some k ∧ k.fw.phase = 3 ∧ k.fw.stop = false ∧
      stillDirty s k.party k.fw.cover = [c] ∧ s.on (F.UQI_PCFG_EMU k.party) = false) ∧
    (∃ (i : BitVec 10) (k : Cmd) (s : State), fwCmd s i.toNat 0x08 = some k ∧ k.fw.phase = 0 ∧ abortTarget s k = none) ∧
    (∃ (i : BitVec 10) (k : Cmd) (s : State) (c : Nat × Cmd), fwCmd s i.toNat 0x08 = some k ∧ k.fw.phase = 0 ∧
      abortTarget s k = some c) ∧
    (∃ (i : BitVec 10) (k : Cmd) (s : State), fwCmd s i.toNat 0x08 = some k ∧ k.fw.phase = 3 ∧ k.fw.aim = none) ∧
    (∃ (i : BitVec 10) (k : Cmd) (s : State), fwCmd s i.toNat 0x0C = some k ∧ k.fw.phase = 0 ∧ k.fw.stop = false) ∧
    (∃ (i : BitVec 10) (k : Cmd) (r : XRes) (s : State) (u : State), fwCmd s i.toNat 0x0C = some k ∧ k.fw.phase = 2 ∧
      s.fwResult k = some (r, u) ∧ r.cause = 0) ∧
    (∃ (i : BitVec 10) (k : Cmd) (l : List Byte) (o : Nat) (s : State), l = residueReport s k.party ∧
      o = leNat (slice k.bytes 0x30 4) ∧ fwCmd s i.toNat 0x0F = some k ∧ k.fw.phase = 0 ∧ k.fw.stop = false ∧
      o < l.length) ∧
    (∃ (i : BitVec 10) (k : Cmd) (l : List Byte) (o : Nat) (s : State), l = residueReport s k.party ∧
      o = leNat (slice k.bytes 0x30 4) ∧ fwCmd s i.toNat 0x0F = some k ∧ k.fw.phase = 0 ∧ k.fw.stop = false ∧
      l.length ≤ o) ∧
    (∃ (i : BitVec 10) (k : Cmd) (l : List Byte) (o : Nat) (r : XRes) (s : State) (u : State),
      fwCmd s i.toNat 0x0F = some k ∧ l = residueReport s k.party ∧ o = leNat (slice k.bytes 0x30 4) ∧ k.fw.phase = 2 ∧
      s.fwResult k = some (r, u) ∧ r.cause = 0) :=
  ⟨⟨0, cmdOf 2, cmdAt (cmdOf 2), by decide +kernel⟩,
   ⟨0, cmdOf 1, cmdAt (cmdOf 1), by decide +kernel⟩,
   ⟨0, cmdOf 4, cmdAt (cmdOf 4), by decide +kernel⟩,
   ⟨0, cmdOf 5, cmdAt (cmdOf 5), by decide +kernel⟩,
   ⟨0, cmdOf 2 {} [(0, 1)], 0, 1, 0, _, cmdAt (cmdOf 2 {} [(0, 1)]) (holding { seg0 with v := 1 }), _, by decide +kernel,
     by decide +kernel, by decide +kernel, by decide +kernel, by decide +kernel, by decide +kernel, by decide +kernel,
     by decide +kernel, pair_of _ rfl, by decide +kernel, by decide +kernel⟩,
   ⟨0, cmdOf 1 { phase := 2 }, okRes, cmdAt (cmdOf 1 { phase := 2 }) r0 [okRes], _, by decide +kernel, by decide +kernel,
     rfl, by decide +kernel⟩,
   ⟨0, cmdOf 5 {} [(0, 1)], 0, 1, cmdAt (cmdOf 5 {} [(0, 1)]), 0, by decide +kernel⟩,
   ⟨0, cmdOf 0 { phase := 3 }, cmdAt (cmdOf 0 { phase := 3 }), by decide +kernel⟩,
   ⟨0, cmdOf 0 { phase := 3, cover := [(0, 1)] },
     cmdAt (cmdOf 0 { phase := 3, cover := [(0, 1)] }) (holding { seg0 with d := 1 }), (0, 1), by decide +kernel⟩,
   ⟨0, cmdOf 8, cmdAt (cmdOf 8), by decide +kernel⟩,
   ⟨0, { cmdOf 8 with seq := 1 },
     { r0 with uqi := { table := [(0, some { cmdOf 8 with seq := 1 }), (1, some (cmdOf 2))] } }, (1, cmdOf 2),
     by decide +kernel⟩,
   ⟨0, cmdOf 8 { phase := 3 }, cmdAt (cmdOf 8 { phase := 3 }), by decide +kernel⟩,
   ⟨0, cmdOf 12, cmdAt (cmdOf 12), by decide +kernel⟩,
   ⟨0, cmdOf 12 { phase := 2 }, okRes, cmdAt (cmdOf 12 { phase := 2 }) r0 [okRes], _, by decide +kernel,
     by decide +kernel, rfl, by decide +kernel⟩,
   ⟨0, cmdOf 15, _, _, cmdAt (cmdOf 15), rfl, rfl, by decide +kernel⟩,
   ⟨0, { cmdOf 15 with bytes := [15] ++ zeros 50 ++ [0xFF] }, _, _,
     cmdAt { cmdOf 15 with bytes := [15] ++ zeros 50 ++ [0xFF] }, rfl, rfl, by decide +kernel⟩,
   ⟨0, cmdOf 15 { phase := 2 }, _, _, okRes, cmdAt (cmdOf 15 { phase := 2 }) r0 [okRes], _, by decide +kernel, rfl, rfl,
     by decide +kernel, rfl, by decide +kernel⟩⟩

theorem witness_OrdererAndCoreQueueCommandsComplete :
    (∃ (m : Master) (b : Nat) (s : State), b = s.get (F.ORD_RQ2_BUF m) ∧ m ≠ .sv ∧ gated s m = false ∧
      (b % 4096 ≠ 0 ∨ inFrames b = false ∨ (s.on (F.ORD_RQ1_XTS m) = false ∧ s.on F.DMA_CTL_XTSREQ = true) ∨ (s.on (F.ORD_RQ1_DIR m) = true ∧ s.on (F.ORD_RQ1_RETRY m) = true))) ∧
    (∃ (m : Master) (b : Nat) (s : State), b = s.get (F.ORD_RQ2_BUF m) ∧ m ≠ .sv ∧ gated s m = false ∧ b % 4096 = 0 ∧
      inFrames b = true ∧ (s.on F.DMA_CTL_XTSREQ = true → s.on (F.ORD_RQ1_XTS m) = true) ∧
      (s.on (F.ORD_RQ1_DIR m) = true → s.on (F.ORD_RQ1_RETRY m) = false) ∧ 512 ≤ s.ord.reqs.length) ∧
    (∃ (m : Master) (b : Nat) (s : State), b = s.get (F.ORD_RQ2_BUF m) ∧ m ≠ .sv ∧ gated s m = false ∧ b % 4096 = 0 ∧
      inFrames b = true ∧ (s.on F.DMA_CTL_XTSREQ = true → s.on (F.ORD_RQ1_XTS m) = true) ∧
      (s.on (F.ORD_RQ1_DIR m) = true → s.on (F.ORD_RQ1_RETRY m) = false) ∧ s.ord.reqs.length < 512) ∧
    (∃ (o : OrdOp) (s : State), ordMay s = true ∧ s.on F.ORD_NEXT_VALID = false ∧ armedOps s = [] ∧
      chooseTarget s = some o) ∧
    (∃ (v : Word) (s : State), s.on F.ORD_NEXT_VALID = true ∧ bitsOf v 23 0 = s.get F.ORD_NEXT_TRK ∧
      bitsOf v 28 24 = s.get F.ORD_NEXT_HEAD) ∧
    (∃ (v : Word) (s : State),
      (s.on F.ORD_NEXT_VALID = false ∨ bitsOf v 23 0 ≠ s.get F.ORD_NEXT_TRK ∨ bitsOf v 28 24 ≠ s.get F.ORD_NEXT_HEAD)) ∧
    (∃ (m : Master) (s : State), m = .sv ∧ gated s m = false) ∧
    (∃ (m : Master) (s : State), gated s m = false ∧ m ≠ .sec ∧ m ≠ .mc) ∧
    (∃ (m : Master) (s : State), gated s m = false ∧ isHc m = false) ∧
    (∃ (x : ClqEnt) (l : List ClqEnt) (s : State), s.firn.clq = x :: l ∧ s.on F.ASC_CTL_HWORD = true ∧
      firnAwake s = true ∧ s.ord.reqs.length < 512) ∧
    (∃ (s : State) (l : List OrdReq),
      (l = (s.ord.reqs.map fun r => if r.since + Nat.max (s.get F.ORD_CTL_AGE) 1 * 4294967296 ≤ angleNow s then { r with urgent := true } else r))) ∧
    (∃ (m : Master) (r : OrdRes) (l : List OrdRes) (s : State), m ≠ .sv ∧ gated s m = false ∧
      tabGet s.ord.results [] m.idx = r :: l) ∧
    (∃ (p : BitVec 4) (v : Word) (n : Nat) (s : State),
      (n = (((List.range 16).filter (· != p.toNat)).map fun q => s.get (F.ORD_SHARE_SHARE q)).foldl (fun a b => a + b) 0) ∧
      s.on F.ISO_STAT_LOCKED = false ∧ n + bitsOf v 7 0 ≤ 256) ∧
    (∃ (p : BitVec 4) (v : Word) (n : Nat) (s : State), s.on F.ISO_STAT_LOCKED = false ∧
      (n = (((List.range 16).filter (· != p.toNat)).map fun q => s.get (F.ORD_SHARE_SHARE q)).foldl (fun a b => a + b) 0) ∧
      256 < n + bitsOf v 7 0) ∧
    (∃ (m : Master) (s : State), (m = .sec ∨ m = .mc) ∧ gated s m = false ∧ s.get F.ASC_STAT_MEDIA_CNT = 0 ∧
      (∀ t, t < 128 → mopState s t = mopFREE ∨ mopState s t = mopDONE)) ∧
    (∃ (m : Master) (v : Word) (k : Cmd) (s : State), isHc m = true ∧ gated s m = false ∧ s.cmd (bitsOf v 9 0) = some k ∧
      (k.core ≠ some m ∨ k.posted = true)) ∧
    (∃ (m : Master) (n : Nat) (s : State), (n = (s.uqi.jobs.filter fun (j : XJob) => j.core == m).length) ∧
      isHc m = true ∧ gated s m = false ∧ 32 ≤ n) ∧
    (∃ (m : Master) (v : Word) (k : Cmd) (n : Nat) (s : State),
      (n = (s.uqi.jobs.filter fun (j : XJob) => j.core == m).length) ∧ isHc m = true ∧ gated s m = false ∧ n < 32 ∧
      s.cmd (bitsOf v 9 0) = some k ∧ k.core = some m ∧ k.posted = false ∧ 0 < s.get (F.UQI_XLEN_LEN m) ∧
      s.get (F.UQI_XOFF_OFF m) + s.get (F.UQI_XLEN_LEN m) ≤ (sqeOf k.bytes).dlen) ∧
    (∃ (m : Master) (v : Word) (s : State), isHc m = true ∧ gated s m = false ∧ s.cmd (bitsOf v 9 0) = none) ∧
    (∃ (v : Word) (s : State), bitsOf v 0 0 = 1 ∧ gated s .hc0 = false) ∧
    (∃ (v : Word) (s : State), bitsOf v 0 0 = 1 ∧ gated s .hc1 = false) ∧
    (∃ (v : Word) (s : State) (m : Master) (r : XRes) (l : List XRes) (k : List XRes), bitsOf v 0 0 = 1 ∧ isHc m = true ∧
      gated s m = false ∧ s.uqi.res = k ++ r :: l ∧ r.core = m ∧ (∀ x ∈ k, x.core ≠ m)) ∧
    (∃ (r : BitVec 6) (s : State), s.on F.ISO_STAT_LOCKED = false ∧ (sqOn s r.toNat = true ∨ cqOn s r.toNat = true)) ∧
    (∃ (p : BitVec 4) (s : State), s.on F.ISO_STAT_LOCKED = false ∧ partyRings s p.toNat = true) ∧
    (∃ (r : BitVec 6) (s : State), s.on F.ISO_STAT_LOCKED = false ∧ sqOn s r.toNat = false ∧ cqOn s r.toNat = false) ∧
    (∃ (p : BitVec 4) (s : State), s.on F.ISO_STAT_LOCKED = false ∧ partyRings s p.toNat = false) :=
  ⟨⟨.mc, _, r0, rfl, by decide +kernel⟩,
   ⟨.hc0, _, { r0.put (F.ORD_RQ2_BUF .hc0) 0x80000000 with ord := { reqs := List.replicate 512 req0 } }, rfl,
     by decide +kernel⟩,
   ⟨.hc0, _, { r0.put (F.ORD_RQ2_BUF .hc0) 0x80000000 with ord := { reqs := List.replicate 511 req0 } }, rfl,
     by decide +kernel⟩,
   ⟨ordOp0,
     { (atbAt 2 (inMode mFLOW)).put F.ASC_CTL_HWORD 1 with ord := { reqs := [{ req0 with placed := true, ops := [ordOp0] }] } },
     by decide +kernel⟩,
   ⟨0x05000007, ((r0.put F.ORD_NEXT_VALID 1).put F.ORD_NEXT_TRK 7).put F.ORD_NEXT_HEAD 5, by decide +kernel⟩,
   ⟨0, r0, by decide +kernel⟩,
   ⟨_, r0, rfl, by decide +kernel⟩,
   ⟨.hc0, r0.put (F.ORD_RQ2_BUF .hc0) 1, by decide +kernel⟩,
   ⟨.mc, r0, by decide +kernel⟩,
   ⟨{ owner := 0, set := 0, way := 0, gen := 0, frame := 0x80000000, lba := 0, mask := 1, inval := false }, [],
     { r0.put F.ASC_CTL_HWORD 1 with firn := { clq := [{ owner := 0, set := 0, way := 0, gen := 0, frame := 0x80000000, lba := 0, mask := 1, inval := false }] } },
     by decide +kernel⟩,
   ⟨r0, _, rfl⟩,
   ⟨.hc0, { rtag := 0, ndone := 0, res := 0, mapf := false, mlba := 0 }, [],
     { r0 with ord := { results := [(1, [{ rtag := 0, ndone := 0, res := 0, mapf := false, mlba := 0 }])] } },
     by decide +kernel⟩,
   ⟨0, 0, _, r0, rfl, by decide +kernel⟩,
   ⟨0, 255, 2, r0.put (F.ORD_SHARE_SHARE 1) 2, by decide +kernel⟩,
   ⟨.sec, r0, by decide +kernel⟩,
   ⟨.hc1, 0, cmdOf 2, cmdAt (cmdOf 2), by decide +kernel⟩,
   ⟨.hc0, _,
     { r0 with uqi := { jobs := List.replicate 32 { core := .hc0, idx := 0, xbuf := 0, xoff := 0, xlen := 0, out := false, pi := false, xtag := 0 } } },
     rfl, by decide +kernel⟩,
   ⟨.hc0, 0, { cmdOf 2 with bytes := [2] ++ zeros 32 ++ [16] }, _,
     (cmdAt { cmdOf 2 with bytes := [2] ++ zeros 32 ++ [16] }).put (F.UQI_XLEN_LEN .hc0) 4096, rfl, by decide +kernel⟩,
   ⟨.hc0, 0, r0.put (F.ORD_RQ2_BUF .hc0) 1, by decide +kernel⟩,
   ⟨0x05000007, ((r0.put F.ORD_NEXT_VALID 1).put F.ORD_NEXT_TRK 7).put F.ORD_NEXT_HEAD 5, by decide +kernel⟩,
   ⟨0x05000007, ((r0.put F.ORD_NEXT_VALID 1).put F.ORD_NEXT_TRK 7).put F.ORD_NEXT_HEAD 5, by decide +kernel⟩,
   ⟨1, { r0 with uqi := { res := [okRes] } }, .hc0, okRes, [], [], by decide +kernel⟩,
   ⟨0, uqiAt { sq := [(0, { st := 1 })] }, by decide +kernel⟩,
   ⟨0, uqiAt { cq := [(63, { st := 1 })] }, by decide +kernel⟩,
   ⟨0, r0, by decide +kernel⟩,
   ⟨0, r0, by decide +kernel⟩⟩

theorem witness_IsolationLockChecksItsConditions :
    (∃ (s : State), s.on F.ISO_STAT_LOCKED = true) ∧
    (∃ (s : State), s.on F.ISO_STAT_LOCKED = false ∧ s.on F.SST_STAT_ALLOK = false) ∧
    (∃ (s : State), s.on F.ISO_STAT_LOCKED = false ∧ s.on F.SST_STAT_ALLOK = true ∧ s.on F.FIRN_STAT_PLOCKED = false) ∧
    (∃ (s : State), s.on F.ISO_STAT_LOCKED = false ∧ s.on F.SST_STAT_ALLOK = true ∧ s.on F.FIRN_STAT_PLOCKED = true ∧
      (s.on F.RME_STAT_WLOCKED = false ∨ s.bit F.RME_STAT_CHFAULT 1 = true)) ∧
    (∃ (s : State), s.on F.ISO_STAT_LOCKED = false ∧ s.on F.SST_STAT_ALLOK = true ∧ s.on F.FIRN_STAT_PLOCKED = true ∧
      s.on F.RME_STAT_WLOCKED = true ∧ s.bit F.RME_STAT_CHFAULT 1 = false ∧
      (s.on F.DMA_CTL_CFGLOCK = false ∨ s.on F.DMA_CTL_XTSREQ = false)) ∧
    (∃ (s : State) (p : Nat), s.on F.ISO_STAT_LOCKED = false ∧ s.on F.SST_STAT_ALLOK = true ∧
      s.on F.FIRN_STAT_PLOCKED = true ∧ s.on F.RME_STAT_WLOCKED = true ∧ s.bit F.RME_STAT_CHFAULT 1 = false ∧
      s.on F.DMA_CTL_CFGLOCK = true ∧ s.on F.DMA_CTL_XTSREQ = true ∧ p < 16 ∧ partyActive s p = true ∧
      s.on (F.CRY_SLOT_READY p) = false ∧ (∀ q, q < p → partyActive s q = true → s.on (F.CRY_SLOT_READY q) = true)) ∧
    (∃ (s : State), s.on F.ISO_STAT_LOCKED = false ∧ s.on F.SST_STAT_ALLOK = true ∧ s.on F.FIRN_STAT_PLOCKED = true ∧
      s.on F.RME_STAT_WLOCKED = true ∧ s.bit F.RME_STAT_CHFAULT 1 = false ∧ s.on F.DMA_CTL_CFGLOCK = true ∧
      s.on F.DMA_CTL_XTSREQ = true ∧ (∀ p, p < 16 → partyActive s p = true → s.on (F.CRY_SLOT_READY p) = true) ∧
      (∃ n, n < 64 ∧ s.get (F.UQI_RPARTY_SQPARTY n) ≠ s.get (F.UQI_RPARTY_CQPARTY n))) ∧
    (∃ (s : State), s.on F.ISO_STAT_LOCKED = false ∧ s.on F.SST_STAT_ALLOK = true ∧ s.on F.FIRN_STAT_PLOCKED = true ∧
      s.on F.RME_STAT_WLOCKED = true ∧ s.bit F.RME_STAT_CHFAULT 1 = false ∧ s.on F.DMA_CTL_CFGLOCK = true ∧
      s.on F.DMA_CTL_XTSREQ = true ∧ (∀ p, p < 16 → partyActive s p = true → s.on (F.CRY_SLOT_READY p) = true) ∧
      (∀ n, n < 64 → s.get (F.UQI_RPARTY_SQPARTY n) = s.get (F.UQI_RPARTY_CQPARTY n))) ∧
    (∃ (m : Master) (s : State), m ≠ .sec ∧ gated s m = false) :=
  ⟨⟨r0.put F.ISO_STAT_LOCKED 1, by decide +kernel⟩,
   ⟨r0, by decide +kernel⟩,
   ⟨r0.put F.SST_STAT_ALLOK 1, by decide +kernel⟩,
   ⟨(r0.put F.SST_STAT_ALLOK 1).put F.FIRN_STAT_PLOCKED 1, by decide +kernel⟩,
   ⟨((r0.put F.SST_STAT_ALLOK 1).put F.FIRN_STAT_PLOCKED 1).put F.RME_STAT_WLOCKED 1, by decide +kernel⟩,
   ⟨isoAt, 0, by decide +kernel⟩,
   ⟨(isoAt.put (F.CRY_SLOT_READY 0) 1).put (F.CRY_SLOT_READY 15) 1 |>.put (F.UQI_RPARTY_SQPARTY 63) 15, by decide +kernel⟩,
   ⟨isoAt.put (F.CRY_SLOT_READY 0) 1, by decide +kernel⟩,
   ⟨.mc, r0, by decide +kernel⟩⟩

theorem witness_ManagementBusCommandsComplete :
    (∃ (b : Bool) (s : State), i3cOn s = true ∧ (i3cTarget s b).addr = none ∧ s.regsWf = true) ∧
    (∃ (b : Bool) (a : BitVec 7) (s : State), answering s a = some b) ∧
    (∃ (a : Option (BitVec 7)) (n : BitVec 16) (b : Bool) (s : State), i3cOn s = true ∧ s.regsWf = true ∧
      (i3cTarget s b).addr ≠ none ∧ (a = none ∨ a = (i3cTarget s b).addr) ∧ 16 ≤ n.toNat ∧ n.toNat ≤ 4100) ∧
    (∃ (a : Option (BitVec 7)) (n : BitVec 16) (b : Bool) (s : State), i3cOn s = true ∧ s.regsWf = true ∧
      (i3cTarget s b).addr ≠ none ∧ (a = none ∨ a = (i3cTarget s b).addr) ∧ (n.toNat < 16 ∨ 4100 < n.toNat)) ∧
    (∃ (a : Option (BitVec 7)) (b : Bool) (s : State), i3cOn s = true ∧ s.regsWf = true ∧
      ((i3cTarget s b).addr = none ∨ (a ≠ none ∧ a ≠ (i3cTarget s b).addr))) ∧
    (∃ (a : BitVec 7) (b : Bool) (s : State), answering s a = some b) ∧
    (∃ (a : BitVec 7) (s : State), answering s a = none) ∧
    (∃ (k : Byte) (b0 : Byte) (b1 : Byte) (b2 : Byte) (b3 : Byte) (v : Word) (s : State),
      v = BitVec.ofNat 32 (leNat [b0, b1, b2, b3]) ∧ i3cOn s = true ∧ s.mgt.task.addr.isSome = true ∧ 15 < k.toNat) ∧
    (∃ (k : Byte) (b0 : Byte) (b1 : Byte) (b2 : Byte) (b3 : Byte) (v : Word) (s : State),
      v = BitVec.ofNat 32 (leNat [b0, b1, b2, b3]) ∧ i3cOn s = true ∧ s.mgt.task.addr.isSome = true ∧ k.toNat ≤ 15) ∧
    (∃ (k : Byte) (b0 : Byte) (b1 : Byte) (b2 : Byte) (b3 : Byte) (v : Word) (s : State),
      v = BitVec.ofNat 32 (leNat [b0, b1, b2, b3]) ∧ i3cOn s = true ∧ s.mgt.task.addr.isSome = true ∧ trfHeld s = true ∧
      (k.toNat ≤ 7 ∨ k.toNat = 15)) ∧
    (∃ (k : Byte) (b0 : Byte) (b1 : Byte) (b2 : Byte) (b3 : Byte) (v : Word) (s : State),
      v = BitVec.ofNat 32 (leNat [b0, b1, b2, b3]) ∧ i3cOn s = true ∧ s.mgt.task.addr.isSome = true ∧ 9 ≤ k.toNat ∧
      k.toNat ≤ 14) ∧
    (∃ (k : Byte) (b0 : Byte) (b1 : Byte) (b2 : Byte) (b3 : Byte) (v : Word) (s : State),
      v = BitVec.ofNat 32 (leNat [b0, b1, b2, b3]) ∧ i3cOn s = true ∧ s.mgt.task.addr.isSome = true ∧ trfHeld s = false ∧
      1 ≤ k.toNat ∧ k.toNat ≤ 7) ∧
    (∃ (b0 : Byte) (b1 : Byte) (b2 : Byte) (b3 : Byte) (v : Word) (s : State),
      v = BitVec.ofNat 32 (leNat [b0, b1, b2, b3]) ∧ i3cOn s = true ∧ s.mgt.task.addr.isSome = true ∧ trfHeld s = false ∧
      dcnt s + 4 ≤ 4096) ∧
    (∃ (s : State), i3cOn s = true ∧ s.mgt.task.addr.isSome = true ∧ s.mgt.rindex < 15) ∧
    (∃ (s : State), i3cOn s = true ∧ s.mgt.task.addr.isSome = true ∧ s.mgt.rindex = 15 ∧ 4 ≤ dcnt s) ∧
    (∃ (s : State), i3cOn s = true ∧ s.mgt.task.addr.isSome = true ∧ s.mgt.rindex = 15 ∧ dcnt s = 0) ∧
    (∃ (v : Word) (s : State), i3cOn s = true ∧ s.mgt.task.addr.isSome = true ∧ v.getLsbD 3 = false ∧ v.getLsbD 1 = true ∧
      s.on F.TRF_STAT_DONE = true) ∧
    (∃ (v : Word) (s : State), i3cOn s = true ∧ s.mgt.task.addr.isSome = true ∧ v.getLsbD 3 = true ∧ v.getLsbD 1 = false) ∧
    (∃ (s : State), (i3cOn s = false ∨ s.mgt.task.addr = none)) ∧
    (∃ (v : Word), v.getLsbD 0 = true) ∧
    (∃ (s : State), s.on F.TRF_STAT_BUSY = true ∧ s.regsWf = true) ∧
    (∃ (m : Master) (s : State), m ≠ .sec ∧ gated s m = false) :=
  ⟨⟨true, r0, by decide +kernel⟩,
   ⟨true, 8, { r0 with mgt := { mctp := { addr := some 8 } } }, by decide +kernel⟩,
   ⟨none, 4100, false, taskAt 0, by decide +kernel⟩,
   ⟨some 8, 15, false, taskAt 0, by decide +kernel⟩,
   ⟨none, true, r0, by decide +kernel⟩,
   ⟨8, true, { r0 with mgt := { mctp := { addr := some 8 } } }, by decide +kernel⟩,
   ⟨0, r0, by decide +kernel⟩,
   ⟨16, 0, 0, 0, 0, _, taskAt 0, rfl, by decide +kernel⟩,
   ⟨0, 0, 0, 0, 0, _, taskAt 0, rfl, by decide +kernel⟩,
   ⟨15, 0, 0, 0, 0, _, taskAt 0 (r0.put F.TRF_STAT_DONE 1), rfl, by decide +kernel⟩,
   ⟨14, 0, 0, 0, 0, _, taskAt 0, rfl, by decide +kernel⟩,
   ⟨7, 0, 0, 0, 0, _, taskAt 0, rfl, by decide +kernel⟩,
   ⟨0, 0, 0, 0, _, taskAt 0, rfl, by decide +kernel⟩,
   ⟨taskAt 0, by decide +kernel⟩,
   ⟨taskAt 15 (r0.put F.TRF_DCNT_DCNT 4), by decide +kernel⟩,
   ⟨taskAt 15, by decide +kernel⟩,
   ⟨2, taskAt 0 (r0.put F.TRF_STAT_DONE 1), by decide +kernel⟩,
   ⟨8, taskAt 0, by decide +kernel⟩,
   ⟨r0, by decide +kernel⟩,
   ⟨1, by decide +kernel⟩,
   ⟨r0.put F.TRF_STAT_BUSY 1, by decide +kernel⟩,
   ⟨.mc, r0, by decide +kernel⟩⟩

theorem witness_ManagementCommandsComplete :
    (∃ (u : State) (n : Nat), u.on F.TRF_STAT_BUSY = true ∧ u.regsWf = true ∧ n < 256) ∧
    (∃ (s : State) (u : State), s.Takes u 0x01) ∧
    (∃ (s : State), mgtTurn s (s.get F.TRF_CMD_OP) = true ∧ opRefused s (s.get F.TRF_CMD_OP) = true ∧ s.regsWf = true) ∧
    (∃ (s : State) (u : State), s.Takes u 0x10 ∧ (u.on F.ISO_STAT_LOCKED = true ∨ u.on F.FIRN_STAT_PLOCKED = true)) ∧
    (∃ (s : State) (u : State), s.Takes u 0x10 ∧ u.on F.ISO_STAT_LOCKED = false ∧ u.on F.FIRN_STAT_PLOCKED = false ∧
      firnAwake u = true ∧ argBits u 3 14 0 ≤ u.get F.FIRN_DTOTAL_DTOTAL ∧
      ((((List.range 16).filter (· != argBits u 0 3 0)).map fun q => u.get (F.ORD_SHARE_SHARE q)).foldl (fun a b => a + b) 0 + argBits u 1 31 24 ≤ 256) ∧
      (partTakes u (argBits u 0 3 0) (arg u 1 &&& 0x3FF) = true ∨ cmaskTakes u (argBits u 0 3 0) (arg u 2) = true)) ∧
    (∃ (s : State) (u : State), s.Takes u 0x10 ∧ u.on F.ISO_STAT_LOCKED = false ∧ u.on F.FIRN_STAT_PLOCKED = false ∧
      firnAwake u = true ∧ argBits u 3 14 0 ≤ u.get F.FIRN_DTOTAL_DTOTAL ∧
      ((((List.range 16).filter (· != argBits u 0 3 0)).map fun q => u.get (F.ORD_SHARE_SHARE q)).foldl (fun a b => a + b) 0 + argBits u 1 31 24 ≤ 256) ∧
      partTakes u (argBits u 0 3 0) (arg u 1 &&& 0x3FF) = false ∧ cmaskTakes u (argBits u 0 3 0) (arg u 2) = false ∧
      (((cfgRings u).any fun r => sqOn u r || cqOn u r) = false) ∧ partyRings u (argBits u 0 3 0) = false ∧
      u.regsWf = true) ∧
    (∃ (s : State) (u : State), s.Takes u 0x11 ∧ rmeBusy u .sec true = false ∧ firnAwake u = true ∧ u.regsWf = true) ∧
    (∃ (p : Nat) (s : State) (u : State) (t : State), s.Takes u 0x12 ∧ p = argBits u 0 3 0 ∧
      t = u.deriveKey p (dataBuf u 32) ∧ partyRings u p = false ∧ u.on F.SST_KLOCK_MEK_USELOCK = false ∧
      u.on F.SST_KRES_BUSY = false ∧ argBits u 0 9 8 = 1 ∧ dcnt u = 32) ∧
    (∃ (p : Nat) (s : State) (u : State) (t : State), s.Takes u 0x12 ∧ p = argBits u 0 3 0 ∧
      t = keyClear .sec (BitVec.ofNat 32 (2 + 16 * p)) u ∧ partyRings u p = false ∧ u.on F.SST_KLOCK_MEK_USELOCK = false ∧
      u.on F.SST_KRES_BUSY = false ∧ argBits u 0 9 8 = 2) ∧
    (∃ (s : State) (u : State), s.Takes u 0x12 ∧ argBits u 0 9 8 = 1 ∧ dcnt u = 32 ∧
      partyRings u (argBits u 0 3 0) = true) ∧
    (∃ (s : State) (u : State), s.Takes u 0x13 ∧ firnAwake u = true) ∧
    (∃ (p : Nat) (s : State) (u : State) (w : State) (t : State), s.Takes u 0x14 ∧ p = argBits u 0 3 0 ∧
      w = rangePassEnd (rangeCmd 4 .sec (BitVec.ofNat 32 (16 + p * 256)) u) ∧
      (t = ((keyClear .sec (BitVec.ofNat 32 (2 + 16 * p)) w).onUqi fun x => { x with never := cutSpans x.never p 0 (2 ^ 48) ++ [(p, 0, 2 ^ 48)] }).deriveKey p (dataBuf u 32)) ∧
      dcnt u = 32 ∧ partyRings u p = false ∧ u.on F.SST_KLOCK_MEK_USELOCK = false ∧ u.on F.SST_KRES_BUSY = false ∧
      u.on F.FIRN_STAT_RBUSY = false ∧ firnAwake u = true ∧ ((u.ord.reqs.any fun (r : OrdReq) => r.party == p) = false)) ∧
    (∃ (s : State) (u : State), s.Takes u 0x14 ∧ dcnt u = 32 ∧ partyRings u (argBits u 0 3 0) = true) ∧
    (∃ (s : State) (u : State), s.Takes u 0x15) ∧
    (∃ (s : State) (u : State), s.Takes u 0x20 ∧ (u.mgt.test.st = 1 ∨ u.mode = mTHAW ∨ u.mode = mDORMANT)) ∧
    (∃ (tr : Trans) (s : State) (u : State) (w : State), s.Takes u 0x20 ∧
      w = (if u.mode = mDRIFT then modeReqFlow .sec tr u else u) ∧ u.mgt.test.st ≠ 1 ∧
      (u.mode = mFLOW ∨ u.mode = mDRIFT) ∧ u.on F.PCM_STAT_PEND = false ∧ w.mode = mFLOW) ∧
    (∃ (s : State) (u : State), s.Takes u 0x21 ∧ (u.mgt.test.st = 1 ∨ u.mode = mTHAW ∨ u.mode = mDORMANT)) ∧
    (∃ (tr : Trans) (s : State) (u : State) (w : State), s.Takes u 0x21 ∧
      w = (if u.mode = mDRIFT then modeReqFlow .sec tr u else u) ∧ u.mgt.test.st ≠ 1 ∧
      (u.mode = mFLOW ∨ u.mode = mDRIFT) ∧ u.on F.PCM_STAT_PEND = false ∧ w.mode = mFLOW) ∧
    (∃ (s : State) (u : State), s.Takes u 0x22 ∧ u.mgt.test.st ≠ 1) ∧
    (∃ (s : State) (u : State), s.Takes u 0x22 ∧ u.mgt.test.st = 1) ∧
    (∃ (s : State) (u : State) (x : SelfTest), s.Takes u 0x23 ∧ x = u.mgt.test ∧ x.st ≠ 1) ∧
    (∃ (s : State) (u : State) (x : SelfTest), s.Takes u 0x23 ∧ x = u.mgt.test ∧ x.st = 1) ∧
    (∃ (x : BitVec 4) (s : State), s.mgt.test.st = 1 ∧ x.toNat ≤ 4) ∧
    (∃ (s : State) (u : State) (slot : Nat) (len : Nat), s.Takes u 0x30 ∧ slot = argBits u 0 0 0 ∧ len = (arg u 1).toNat ∧
      ((inRecovery u = false ∧ slot = u.get F.SST_STAT_SLOT) ∨ len < 0x10000 ∨ 65 * 0x10000 < len)) ∧
    (∃ (s : State) (u : State) (slot : Nat) (len : Nat), s.Takes u 0x30 ∧ slot = argBits u 0 0 0 ∧ len = (arg u 1).toNat ∧
      (inRecovery u = true ∨ slot ≠ u.get F.SST_STAT_SLOT) ∧ 0x10000 ≤ len ∧ len ≤ 65 * 0x10000 ∧
      u.bit F.STO_WPROT_PROT slot = true) ∧
    (∃ (bad : BitVec 8) (s : State) (u : State) (w : State) (slot : Nat) (len : Nat), s.Takes u 0x30 ∧
      slot = argBits u 0 0 0 ∧ len = (arg u 1).toNat ∧ (inRecovery u = true ∨ slot ≠ u.get F.SST_STAT_SLOT) ∧
      0x10000 ≤ len ∧ len ≤ 65 * 0x10000 ∧ u.bit F.STO_WPROT_PROT slot = false ∧
      State.eraseSectors (slotBase slot) bad.toNat (List.range ((len + 65535) / 65536)) u = (true, w)) ∧
    (∃ (bad : BitVec 8) (s : State) (u : State) (w : State) (slot : Nat) (len : Nat), s.Takes u 0x30 ∧
      slot = argBits u 0 0 0 ∧ len = (arg u 1).toNat ∧ (inRecovery u = true ∨ slot ≠ u.get F.SST_STAT_SLOT) ∧
      0x10000 ≤ len ∧ len ≤ 65 * 0x10000 ∧ u.bit F.STO_WPROT_PROT slot = false ∧
      State.eraseSectors (slotBase slot) bad.toNat (List.range ((len + 65535) / 65536)) u = (false, w)) ∧
    (∃ (s : State) (u : State) (o : Nat) (n : Nat), s.Takes u 0x31 ∧ o = (arg u 0).toNat ∧ n = dcnt u ∧
      u.mgt.staging = .idle) ∧
    (∃ (s : State) (u : State) (o : Nat) (n : Nat), s.Takes u 0x31 ∧ o = (arg u 0).toNat ∧ n = dcnt u ∧
      u.mgt.staging ≠ .idle ∧ (o % 512 ≠ 0 ∨ n % 512 ≠ 0 ∨ n = 0 ∨ u.mgt.stLen < o + n)) ∧
    (∃ (x : BitVec 4) (s : State) (u : State) (w : State) (o : Nat) (n : Nat) (k : _), s.Takes u 0x31 ∧
      o = (arg u 0).toNat ∧ n = dcnt u ∧ u.mgt.staging ≠ .idle ∧ o % 512 = 0 ∧ n % 512 = 0 ∧ n ≠ 0 ∧ o + n ≤ u.mgt.stLen ∧
      State.programPages (slotBase u.mgt.stSlot + o) x.toNat (n / 512) (dataBuf u n) 0 u = (k, w)) ∧
    (∃ (s : State) (u : State), s.Takes u 0x32 ∧ u.mgt.staging ≠ .opened) ∧
    (∃ (s : State) (u : State) (c : Nat), s.Takes u 0x32 ∧ c = stagedCause u (slotHeader u u.mgt.stSlot) ∧
      u.mgt.staging = .opened) ∧
    (∃ (s : State) (u : State), s.Takes u 0x33 ∧ u.mgt.staging ≠ .verified) ∧
    (∃ (s : State) (u : State), s.Takes u 0x33 ∧ u.mgt.staging = .verified ∧ inRecovery u = true) ∧
    (∃ (s : State) (u : State), s.Takes u 0x33 ∧ u.mgt.staging = .verified ∧ inRecovery u = false ∧
      (∃ r, r < 64 ∧ (sqOn u r = true ∨ cqOn u r = true))) ∧
    (∃ (n : BitVec 32) (s : State) (u : State), s.Takes u 0x33 ∧ u.mgt.staging = .verified ∧ inRecovery u = false ∧
      (∀ r, r < 64 → sqOn u r = false ∧ cqOn u r = false) ∧ u.on F.FIRN_STAT_RBUSY = false ∧ firnAwake u = true ∧
      (((List.range 16).map fun p => u.dcount p).sum = 0) ∧ (modeReqReboot .sec n u).mode = mTHAW ∧
      (modeReqReboot .sec n u).on F.TRF_STAT_BUSY = false) ∧
    (∃ (s : State) (u : State), s.Takes u 0x33 ∧ u.mgt.staging = .verified ∧ inRecovery u = false ∧
      (∀ r, r < 64 → sqOn u r = false ∧ cqOn u r = false) ∧ u.on F.FIRN_STAT_RBUSY = false ∧ firnAwake u = true ∧
      (((List.range 16).map fun p => u.dcount p).sum ≠ 0)) ∧
    (∃ (s : State) (u : State), s.Takes u 0x40) ∧
    (∃ (s : State) (u : State) (seq : Nat) (count : Nat) (view : Nat), s.Takes u 0x41 ∧
      seq = (arg u 0).toNat + (arg u 1).toNat * 4294967296 ∧ count = argBits u 2 3 0 ∧ view = argBits u 2 15 8 ∧
      (count = 0 ∨ 8 < count ∨ (15 < view ∧ view ≠ 0xFF))) ∧
    (∃ (s : State) (u : State) (seq : Nat) (count : Nat) (view : Nat) (n : _), s.Takes u 0x41 ∧
      seq = (arg u 0).toNat + (arg u 1).toNat * 4294967296 ∧ count = argBits u 2 3 0 ∧ view = argBits u 2 15 8 ∧
      1 ≤ count ∧ count ≤ 8 ∧ (view ≤ 15 ∨ view = 0xFF) ∧ (morRecord u view (seq % 2 ^ 64)).2.2 = some n) ∧
    (∃ (s : State) (u : State) (seq : Nat) (count : Nat) (view : Nat), s.Takes u 0x41 ∧
      seq = (arg u 0).toNat + (arg u 1).toNat * 4294967296 ∧ count = argBits u 2 3 0 ∧ view = argBits u 2 15 8 ∧
      1 ≤ count ∧ count ≤ 8 ∧ (view ≤ 15 ∨ view = 0xFF) ∧ count = 1) :=
  ⟨⟨r0.put F.TRF_STAT_BUSY 1, 255, by decide +kernel⟩,
   ⟨taking 1, _, ⟨by decide +kernel, rfl, by decide +kernel⟩⟩,
   ⟨taking 2, by decide +kernel⟩,
   ⟨taking 0x10 (r0.put F.FIRN_STAT_PLOCKED 1), _, ⟨by decide +kernel, rfl, by decide +kernel⟩, by decide +kernel⟩,
   ⟨taking 0x10 holding, _, ⟨by decide +kernel, rfl, by decide +kernel⟩, by decide +kernel⟩,
   ⟨taking 0x10, _, ⟨by decide +kernel, rfl, by decide +kernel⟩, by decide +kernel⟩,
   ⟨taking 0x11, _, ⟨by decide +kernel, rfl, by decide +kernel⟩, by decide +kernel⟩,
   ⟨_, (taking 0x12 (r0.put F.TRF_DCNT_DCNT 32)).wr (R.TRF_ARG 0) 0x100, _, _,
     ⟨by decide +kernel, rfl, by decide +kernel⟩, rfl, rfl, by decide +kernel⟩,
   ⟨_, (taking 0x12).wr (R.TRF_ARG 0) 0x200, _, _, ⟨by decide +kernel, rfl, by decide +kernel⟩, rfl, rfl,
     by decide +kernel⟩,
   ⟨(taking 0x12 ({ r0.put F.TRF_DCNT_DCNT 32 with uqi := { sq := [(0, { st := 1 })] } })).wr (R.TRF_ARG 0) 0x100, _,
     ⟨by decide +kernel, rfl, by decide +kernel⟩, by decide +kernel⟩,
   ⟨taking 0x13, _, ⟨by decide +kernel, rfl, by decide +kernel⟩, by decide +kernel⟩,
   ⟨_, taking 0x14 (r0.put F.TRF_DCNT_DCNT 32), _, _, _, ⟨by decide +kernel, rfl, by decide +kernel⟩, rfl, rfl, rfl,
     by decide +kernel⟩,
   ⟨taking 0x14 ({ r0.put F.TRF_DCNT_DCNT 32 with uqi := { sq := [(0, { st := 1 })] } }), _,
     ⟨by decide +kernel, rfl, by decide +kernel⟩, by decide +kernel⟩,
   ⟨taking 0x15, _, ⟨by decide +kernel, rfl, by decide +kernel⟩⟩,
   ⟨taking 0x20, _, ⟨by decide +kernel, rfl, by decide +kernel⟩, by decide +kernel⟩,
   ⟨noTrans, taking 0x20 (inMode mFLOW), _, _, ⟨by decide +kernel, rfl, by decide +kernel⟩, rfl, by decide +kernel⟩,
   ⟨taking 0x21, _, ⟨by decide +kernel, rfl, by decide +kernel⟩, by decide +kernel⟩,
   ⟨noTrans, taking 0x21 (inMode mFLOW), _, _, ⟨by decide +kernel, rfl, by decide +kernel⟩, rfl, by decide +kernel⟩,
   ⟨taking 0x22, _, ⟨by decide +kernel, rfl, by decide +kernel⟩, by decide +kernel⟩,
   ⟨taking 0x22 { r0 with mgt := { test := { st := 1 } } }, _, ⟨by decide +kernel, rfl, by decide +kernel⟩,
     by decide +kernel⟩,
   ⟨taking 0x23, _, _, ⟨by decide +kernel, rfl, by decide +kernel⟩, rfl, by decide +kernel⟩,
   ⟨taking 0x23 { r0 with mgt := { test := { st := 1 } } }, _, _, ⟨by decide +kernel, rfl, by decide +kernel⟩, rfl,
     by decide +kernel⟩,
   ⟨0, taking 0x22 { r0 with mgt := { test := { st := 1 } } }, by decide +kernel⟩,
   ⟨taking 0x30, _, _, _, ⟨by decide +kernel, rfl, by decide +kernel⟩, rfl, rfl, by decide +kernel⟩,
   ⟨((taking 0x30 (r0.put F.STO_WPROT_PROT 2)).wr (R.TRF_ARG 0) 1).wr (R.TRF_ARG 1) 0x10000, _, _, _,
     ⟨by decide +kernel, rfl, by decide +kernel⟩, rfl, rfl, by decide +kernel⟩,
   ⟨255, ((taking 0x30 (noInfo (r0.put F.STO_WPROT_PROT 0))).wr (R.TRF_ARG 0) 1).wr (R.TRF_ARG 1) 0x10000, _, _, _, _,
     ⟨by decide +kernel, rfl, by decide +kernel⟩, rfl, rfl, .inr (by decide +kernel), by decide +kernel,
     by decide +kernel, by decide +kernel, pair_of _ (by decide +kernel)⟩,
   ⟨0, ((taking 0x30 (noInfo (r0.put F.STO_WPROT_PROT 0))).wr (R.TRF_ARG 0) 1).wr (R.TRF_ARG 1) 0x10000, _, _, _, _,
     ⟨by decide +kernel, rfl, by decide +kernel⟩, rfl, rfl, .inr (by decide +kernel), by decide +kernel,
     by decide +kernel, by decide +kernel, pair_of _ (by decide +kernel)⟩,
   ⟨taking 0x31, _, _, _, ⟨by decide +kernel, rfl, by decide +kernel⟩, rfl, rfl, by decide +kernel⟩,
   ⟨taking 0x31 { r0 with mgt := { staging := .opened } }, _, _, _, ⟨by decide +kernel, rfl, by decide +kernel⟩, rfl, rfl,
     by decide +kernel⟩,
   ⟨15, taking 0x31 { r0.put F.TRF_DCNT_DCNT 512 with mgt := { staging := .opened, stLen := 512 } }, _, _, _, _, _,
     ⟨by decide +kernel, rfl, by decide +kernel⟩, rfl, rfl, by decide +kernel, by decide +kernel, by decide +kernel,
     by decide +kernel, by decide +kernel, pair_of _ rfl⟩,
   ⟨taking 0x32, _, ⟨by decide +kernel, rfl, by decide +kernel⟩, by decide +kernel⟩,
   ⟨taking 0x32 { r0 with mgt := { staging := .opened } }, _, _, ⟨by decide +kernel, rfl, by decide +kernel⟩, rfl,
     by decide +kernel⟩,
   ⟨taking 0x33, _, ⟨by decide +kernel, rfl, by decide +kernel⟩, by decide +kernel⟩,
   ⟨taking 0x33 { r0.put F.SST_STAT_RECOVERY 1 with mgt := { staging := .verified } }, _,
     ⟨by decide +kernel, rfl, by decide +kernel⟩, by decide +kernel⟩,
   ⟨taking 0x33 { r0 with mgt := { staging := .verified }, uqi := { cq := [(63, { st := 1 })] } }, _,
     ⟨by decide +kernel, rfl, by decide +kernel⟩, by decide +kernel⟩,
   ⟨0, taking 0x33 { r0 with mgt := { staging := .verified } }, _, ⟨by decide +kernel, rfl, by decide +kernel⟩,
     by decide +kernel⟩,
   ⟨taking 0x33 { r0.put (F.FIRN_DQ_DCOUNT 15) 1 with mgt := { staging := .verified } }, _,
     ⟨by decide +kernel, rfl, by decide +kernel⟩, by decide +kernel⟩,
   ⟨taking 0x40, _, ⟨by decide +kernel, rfl, by decide +kernel⟩⟩,
   ⟨taking 0x41, _, _, _, _, ⟨by decide +kernel, rfl, by decide +kernel⟩, rfl, rfl, rfl, by decide +kernel⟩,
   ⟨(taking 0x41 driftRec).wr (R.TRF_ARG 2) 1, _, _, _, _, 4096, ⟨by decide +kernel, rfl, by decide +kernel⟩, rfl, rfl,
     rfl, by decide +kernel⟩,
   ⟨(taking 0x41).wr (R.TRF_ARG 2) 1, _, _, _, _, ⟨by decide +kernel, rfl, by decide +kernel⟩, rfl, rfl, rfl,
     by decide +kernel⟩⟩

theorem witness_MctpAndSpdmCommandsComplete :
    (∃ (s : State), (s.mgt.mctp.addr = none ∨ i3cOn s = false ∨ s.on F.MGT_CTL_MCTPEN = false)) ∧
    (∃ (l : List Byte) (s : State) (a : BitVec 7) (b : List Byte) (x : Byte), l = b ++ [x] ∧ s.mgt.mctp.addr = some a ∧
      i3cOn s = true ∧ s.on F.MGT_CTL_MCTPEN = true ∧ pec (leBytes 1 (a.toNat * 2) ++ b) ≠ x.toNat) ∧
    (∃ (l : List Byte) (s : State) (a : BitVec 7) (b : List Byte) (x : Byte) (h0 : Byte) (h1 : Byte) (h2 : Byte) (h3 : Byte) (p : List Byte),
      s.mgt.mctp.addr = some a ∧ i3cOn s = true ∧ s.on F.MGT_CTL_MCTPEN = true ∧ l = b ++ [x] ∧
      pec (leBytes 1 (a.toNat * 2) ++ b) = x.toNat ∧ b = h0 :: h1 :: h2 :: h3 :: p ∧ 1 ≤ p.length ∧ p.length ≤ 64 ∧
      h0.toNat % 16 = 1 ∧ (h1.toNat = s.get F.MGT_EID_EID ∨ h1.toNat = 0 ∨ h1.toNat = 255) ∧
      s.on F.SST_STAT_RECOVERY = false ∧ s.mgt.asm_ = none ∧ h3.getLsbD 7 = true ∧ s.on F.MGT_STAT_MRXV = false ∧
      h3.getLsbD 6 = true ∧ s.regsWf = true) ∧
    (∃ (l : List Byte) (s : State) (a : BitVec 7) (b : List Byte) (x : Byte) (h0 : Byte) (h1 : Byte) (h2 : Byte) (h3 : Byte) (p : List Byte),
      s.mgt.mctp.addr = some a ∧ i3cOn s = true ∧ s.on F.MGT_CTL_MCTPEN = true ∧ l = b ++ [x] ∧
      pec (leBytes 1 (a.toNat * 2) ++ b) = x.toNat ∧ b = h0 :: h1 :: h2 :: h3 :: p ∧ 1 ≤ p.length ∧ p.length ≤ 64 ∧
      h0.toNat % 16 = 1 ∧ (h1.toNat = s.get F.MGT_EID_EID ∨ h1.toNat = 0 ∨ h1.toNat = 255) ∧
      s.on F.SST_STAT_RECOVERY = false ∧ s.mgt.asm_ = none ∧ h3.getLsbD 7 = true ∧ s.on F.MGT_STAT_MRXV = false ∧
      h3.getLsbD 6 = false ∧ p.length = 64) ∧
    (∃ (m : Master) (v : Word) (s : State), gated s m = false ∧ v.getLsbD 31 = true) ∧
    (∃ (m : Master) (s : State), gated s m = false ∧ i3cOn s = true ∧ s.on F.MGT_CTL_MCTPEN = true) ∧
    (∃ (m : Master) (s : State), gated s m = false ∧ m ≠ .sec) ∧
    (∃ (s : State) (i : Nat) (d : List Byte), s.Asks 1 i d ∧ d.length = 2 ∧ byteAt d 0 % 4 ≤ 1 ∧ byteAt d 1 ≠ 0 ∧
      byteAt d 1 ≠ 255) ∧
    (∃ (s : State) (i : Nat) (d : List Byte), s.Asks 2 i d) ∧
    (∃ (s : State) (i : Nat) (d : List Byte), s.Asks 3 i d) ∧
    (∃ (s : State) (i : Nat) (d : List Byte), s.Asks 4 i d ∧ d.length = 1 ∧ (byteAt d 0 = 0xFF ∨ byteAt d 0 = 0)) ∧
    (∃ (s : State) (i : Nat) (d : List Byte), s.Asks 4 i d ∧ d.length = 1 ∧ byteAt d 0 = 5) ∧
    (∃ (s : State) (i : Nat) (d : List Byte), s.Asks 5 i d) ∧
    (∃ (s : State) (r : List Byte) (a : List Byte) (f : Nat), s.SpdmAsks 0x84 0x10 4 f r ∧
      a = [0x10, 0x04, 0, 0, 0, 1, 0x00, 0x12]) ∧
    (∃ (s : State) (r : List Byte) (a : List Byte), s.SpdmAsks 0xE1 0x12 20 1 r ∧
      a = [0x12, 0x61, 0, 0, 0, 14, 0, 0] ++ leBytes 4 0x16 ++ leBytes 4 4096 ++ leBytes 4 4096) ∧
    (∃ (s : State) (r : List Byte) (a : List Byte), s.SpdmAsks 0xE3 0x12 32 2 r ∧ byteAt r 6 &&& 1 = 1 ∧
      a = [0x12, 0x63, 0, 0] ++ leBytes 2 36 ++ [1, 0] ++ leBytes 4 4 ++ leBytes 4 (leNat (slice r 8 4) &&& 0x80) ++ leBytes 4 (leNat (slice r 12 4) &&& 2) ++ zeros 16) ∧
    (∃ (s : State) (r : List Byte) (a : List Byte) (x : List Byte) (y : List Byte) (c : List Byte),
      s.on F.MGT_STAT_ACRDY = true ∧ c = certChain s x y ∧ s.SpdmAsks 0x81 0x12 4 3 r ∧
      a = [0x12, 0x01, 0, 1] ++ sha384 c) ∧
    (∃ (s : State) (r : List Byte) (a : List Byte) (x : List Byte) (y : List Byte) (c : List Byte) (o : Nat) (n : Nat),
      s.on F.MGT_STAT_ACRDY = true ∧ c = certChain s x y ∧ s.SpdmAsks 0x82 0x12 8 3 r ∧ byteAt r 2 % 16 = 0 ∧
      o = leNat (slice r 4 2) ∧ o < c.length ∧ n = Nat.min (Nat.min (leNat (slice r 6 2)) (c.length - o)) 4087 ∧
      a = [0x12, 0x02, 0, 0] ++ leBytes 2 n ++ leBytes 2 (c.length - o - n) ++ slice c o n) ∧
    (∃ (s : State) (r : List Byte), s.on F.MGT_STAT_ACRDY = true ∧ aliasReady s = true ∧ s.SpdmAsks 0x83 0x12 36 3 r ∧
      byteAt r 2 = 0 ∧ (byteAt r 3 = 0 ∨ byteAt r 3 = 1 ∨ byteAt r 3 = 0xFF) ∧ byteAt r 3 = 0) ∧
    (∃ (s : State) (r : List Byte), s.on F.MGT_STAT_ACRDY = true ∧ aliasReady s = true ∧ s.SpdmAsks 0x83 0x12 36 3 r ∧
      byteAt r 2 = 0 ∧ (byteAt r 3 = 0 ∨ byteAt r 3 = 1 ∨ byteAt r 3 = 0xFF) ∧ byteAt r 3 = 0xFF) ∧
    (∃ (s : State) (r : List Byte) (want : List Nat), aliasReady s = true ∧ s.SpdmAsks 0xE0 0x12 4 3 r ∧
      want = (if byteAt r 3 = 0 then [] else if byteAt r 3 = 0xFF then measPresent s else [byteAt r 3]) ∧
      (∀ i ∈ want, (measPresent s).contains i = true) ∧ (byteAt r 2).testBit 0 = false) ∧
    (∃ (s : State) (r : List Byte) (want : List Nat), aliasReady s = true ∧ s.SpdmAsks 0xE0 0x12 4 3 r ∧
      want = (if byteAt r 3 = 0 then [] else if byteAt r 3 = 0xFF then measPresent s else [byteAt r 3]) ∧
      (∀ i ∈ want, (measPresent s).contains i = true) ∧ (byteAt r 2).testBit 0 = true ∧ 37 ≤ r.length ∧
      byteAt r 36 % 16 = 0) ∧
    (∃ (s : State) (r : List Byte), spdmRequest s = some r ∧ spdmCodes.contains (byteAt r 1) = false) :=
  ⟨⟨r0, by decide +kernel⟩,
   ⟨_, { r0.put F.MGT_CTL_MCTPEN 1 with mgt := { mctp := { addr := some 8 } } }, 8, [], 0, rfl, by decide +kernel⟩,
   ⟨[1, 0, 9, 0xC0, 7] ++ [BitVec.ofNat 8 (pec [16, 1, 0, 9, 0xC0, 7])],
     { r0.put F.MGT_CTL_MCTPEN 1 with mgt := { mctp := { addr := some 8 } } }, 8, [1, 0, 9, 0xC0, 7],
     BitVec.ofNat 8 (pec [16, 1, 0, 9, 0xC0, 7]), 1, 0, 9, 0xC0, [7], by decide +kernel⟩,
   ⟨[1, 0xFF, 9, 0x80] ++ zeros 64 ++ [BitVec.ofNat 8 (pec ([16, 1, 0xFF, 9, 0x80] ++ zeros 64))],
     { r0.put F.MGT_CTL_MCTPEN 1 with mgt := { mctp := { addr := some 8 } } }, 8, [1, 0xFF, 9, 0x80] ++ zeros 64,
     BitVec.ofNat 8 (pec ([16, 1, 0xFF, 9, 0x80] ++ zeros 64)), 1, 0xFF, 9, 0x80, zeros 64, by decide +kernel⟩,
   ⟨.mc, 0x80000000, r0, by decide +kernel⟩,
   ⟨.mc, { r0.put F.MGT_CTL_MCTPEN 1 with mgt := { mctp := { addr := some 8 } } }, by decide +kernel⟩,
   ⟨.mc, r0, by decide +kernel⟩,
   ⟨mrxAt [0, 0x80, 1, 0, 254], _, [0, 254],
     ⟨by decide +kernel, by decide +kernel, by decide +kernel, by decide +kernel, by decide +kernel, by decide +kernel, rfl, by decide +kernel⟩,
     by decide +kernel⟩,
   ⟨mrxAt [0, 0x80, 2], _, _,
     ⟨by decide +kernel, by decide +kernel, by decide +kernel, by decide +kernel, by decide +kernel, by decide +kernel, rfl, rfl⟩⟩,
   ⟨mrxAt [0, 0x80, 3], _, _,
     ⟨by decide +kernel, by decide +kernel, by decide +kernel, by decide +kernel, by decide +kernel, by decide +kernel, rfl, rfl⟩⟩,
   ⟨mrxAt [0, 0x80, 4, 0xFF], _, [0xFF],
     ⟨by decide +kernel, by decide +kernel, by decide +kernel, by decide +kernel, by decide +kernel, by decide +kernel, rfl, by decide +kernel⟩,
     by decide +kernel⟩,
   ⟨mrxAt [0, 0x80, 4, 5], _, [5],
     ⟨by decide +kernel, by decide +kernel, by decide +kernel, by decide +kernel, by decide +kernel, by decide +kernel, rfl, by decide +kernel⟩,
     by decide +kernel⟩,
   ⟨mrxAt [0, 0x80, 5], _, _,
     ⟨by decide +kernel, by decide +kernel, by decide +kernel, by decide +kernel, by decide +kernel, by decide +kernel, rfl, rfl⟩⟩,
   ⟨mrxAt [5, 0x10, 0x84, 0, 0], [0x10, 0x84, 0, 0], _, 0, by decide +kernel, rfl⟩,
   ⟨mrxAt ([5, 0x12, 0xE1] ++ zeros 18) 1, [0x12, 0xE1] ++ zeros 18, _, by decide +kernel, rfl⟩,
   ⟨mrxAt ([5, 0x12, 0xE3, 0, 0, 0, 0, 1] ++ zeros 25) 2, [0x12, 0xE3, 0, 0, 0, 0, 1] ++ zeros 25, _, by decide +kernel,
     by decide +kernel, rfl⟩,
   ⟨mrxAt [5, 0x12, 0x81, 0, 0] 3, [0x12, 0x81, 0, 0], _, [], [], _, by decide +kernel, rfl, by decide +kernel, rfl⟩,
   ⟨mrxAt [5, 0x12, 0x82, 0, 0, 51, 0, 0xFF, 0xFF] 3, [0x12, 0x82, 0, 0, 51, 0, 0xFF, 0xFF], _, [], [], _, _, _,
     by decide +kernel, rfl, by decide +kernel, by decide +kernel, rfl, by decide +kernel, rfl, rfl⟩,
   ⟨mrxAt ([5, 0x12, 0x83] ++ zeros 34) 3, [0x12, 0x83] ++ zeros 34, by decide +kernel, by decide +kernel,
     by decide +kernel, by decide +kernel⟩,
   ⟨mrxAt ([5, 0x12, 0x83, 0, 0xFF] ++ zeros 32) 3, [0x12, 0x83, 0, 0xFF] ++ zeros 32, by decide +kernel,
     by decide +kernel, by decide +kernel, by decide +kernel⟩,
   ⟨mrxAt [5, 0x12, 0xE0, 0, 0] 3, [0x12, 0xE0, 0, 0], _, by decide +kernel, by decide +kernel, rfl, by decide +kernel⟩,
   ⟨mrxAt ([5, 0x12, 0xE0, 1] ++ zeros 34) 3, [0x12, 0xE0, 1] ++ zeros 34, _, by decide +kernel, by decide +kernel, rfl,
     by decide +kernel⟩,
   ⟨mrxAt [5, 0x12, 0xE5, 0, 0], [0x12, 0xE5, 0, 0], by decide +kernel⟩⟩

theorem witness_CoreAndHostAccessesComplete :
    (∃ (m : Master) (k : AccKind) (a : Word) (w : Nat) (y : Nat) (s : State) (g : Fld), y = refusal s m k a.toNat w ∧
      s.Issues m k a w ∧ s.regsWf = true ∧ y ≠ 0 ∧ g.reg ≠ R.GLB_AF ∧ g.reg ≠ R.GLB_AFADDR ∧ g.reg ≠ R.GLB_AFCNT) ∧
    (∃ (m : Master) (a : Word) (w : Nat) (s : State), coreRuns s m = true ∧ (w = 2 ∨ w = 4) ∧ a.toNat % w ≠ 0) ∧
    (∃ (m : Master) (k : AccKind) (a : Word) (w : Nat) (s : State) (u : State), u = s.stall m false 0 ∧ s.Issues m k a w ∧
      k ≠ .store ∧ regionOf a.toNat = some (.tcm m) ∧ notLoaded s m a.toNat = false) ∧
    (∃ (m : Master) (a : Word) (w : Nat) (s : State), m ≠ .sv ∧ s.Issues m .store a w ∧ regionOf a.toNat = some .pool ∧
      gated s m = false) ∧
    (∃ (m : Master) (a : Word) (w : Nat) (s : State) (c : Nat), m ≠ .sv ∧ s.Issues m .store a w ∧
      regionOf a.toNat = some .pool ∧ gated s m = true ∧ gateIdx m = some c ∧ (hsq s c).length < 1024) ∧
    (∃ (m : Master) (a : Word) (w : Nat) (s : State) (c : Nat), m ≠ .sv ∧ s.Issues m .store a w ∧
      regionOf a.toNat = some .pool ∧ gated s m = true ∧ gateIdx m = some c ∧ 1024 ≤ (hsq s c).length) ∧
    (∃ (m : Master) (k : AccKind) (a : Word) (w : Nat) (s : State), s.Issues m k a w ∧ refusal s m k a.toNat w = 0 ∧
      notLoaded s m a.toNat = true) ∧
    (∃ (m : Master) (a : Word) (s : State), s.Issues m .load a 4 ∧ refusal s m .load a.toNat 4 = 0 ∧
      notLoaded s m a.toNat = false ∧ regionOf a.toNat = some .regs ∧ touchesRc a.toNat = true ∧ gated s m = true) ∧
    (∃ (m : Master) (a : Word) (s : State), s.Issues m .store a 4 ∧ regionOf a.toNat = some .regs ∧ gated s m = false) ∧
    (∃ (m : Master) (a : Word) (s : State) (u : State) (t : State) (v : Word), s.Issues m .load a 4 ∧
      regionOf a.toNat = some .regs ∧ gated s m = false ∧ u = s.stall m false 0 ∧ u.regRead m a.toNat 0 = (v, t) ∧
      touchesRc a.toNat = true) ∧
    (∃ (m : Master) (a : Word) (s : State) (u : State) (t : State) (v : Word), s.Issues m .load a 4 ∧
      regionOf a.toNat = some .regs ∧ gated s m = false ∧ u = s.stall m false 0 ∧ u.regRead m a.toNat 0 = (v, t) ∧
      (shadowOf a.toNat).isSome = true) ∧
    (∃ (m : Master) (s : State), s.Issues m .load 0x40000018 4 ∧ gated s m = false ∧ s.regsWf = true) ∧
    (∃ (q : BitVec 1) (s : State), bar0On s q.toNat = false) ∧
    (∃ (q : BitVec 1) (o : BitVec 14) (l : List HostDw) (s : State), bar0On s q.toNat = true ∧
      (l.length = 0 ∨ 2 < l.length ∨ o.toNat % 4 ≠ 0 ∨ (l.length = 2 ∧ o.toNat % 8 ≠ 0))) ∧
    (∃ (q : BitVec 1) (o : BitVec 14) (x : HostDw) (s : State), bar0On s q.toNat = true ∧ o.toNat % 4 = 0 ∧ x.be = 15) ∧
    (∃ (q : BitVec 1) (o : BitVec 14) (x : HostDw) (s : State), bar0On s q.toNat = true ∧ o.toNat % 4 = 0 ∧ x.be ≠ 15) ∧
    (∃ (q : BitVec 1) (o : BitVec 14) (x : HostDw) (y : HostDw) (s : State), bar0On s q.toNat = true ∧ o.toNat % 8 = 0 ∧
      x.be = 15 ∧ y.be = 15) ∧
    (∃ (q : BitVec 1) (o : BitVec 14) (x : HostDw) (y : HostDw) (s : State), bar0On s q.toNat = true ∧ o.toNat % 8 = 0 ∧
      x.be ≠ 15 ∧ y.be = 15) :=
  ⟨⟨.sec, .load, 0x00F00000, 4, _, secRuns, F.PCM_MODE_MODE, rfl, by decide +kernel⟩,
   ⟨.sec, 1, 2, secRuns, by decide +kernel⟩,
   ⟨.sec, .load, 0x10000000, 4, secRuns, _, rfl, by decide +kernel⟩,
   ⟨.sec, 0x182FFFFF, 1, secRuns, by decide +kernel⟩,
   ⟨.hc0, 0x18000000, 4,
     { ((inMode mFLOW).put F.SST_RUN_RUN 1).put F.SST_GATE_GATED 1 with sst := { hsqs := [(0, List.replicate 1023 { addr := 0, width := 4, data := 0 })] } },
     0, by decide +kernel⟩,
   ⟨.hc0, 0x18000000, 4,
     { hc0Runs.put F.SST_GATE_GATED 1 with sst := { hsqs := [(0, List.replicate 1024 { addr := 0, width := 4, data := 0 })] } },
     0, by decide +kernel⟩,
   ⟨.hc0, .load, BitVec.ofNat 32 (tcmBase .hc0), 4, hc0Runs.put (F.SST_SEG_NBLK 2) 1, by decide +kernel⟩,
   ⟨.hc0, 0x4000E01C, hc0Runs.put F.SST_GATE_GATED 1, by decide +kernel⟩,
   ⟨.sec, 0x40000000, secRuns, by decide +kernel⟩,
   ⟨.sec, 0x4000E01C, secRuns, _, _, _, by decide +kernel, by decide +kernel, by decide +kernel, rfl, pair_of _ rfl,
     by decide +kernel⟩,
   ⟨.sec, BitVec.ofNat 32 R.DRP_SLT_LO, secRuns, _, _, _, by decide +kernel, by decide +kernel, by decide +kernel, rfl,
     pair_of _ rfl, by decide +kernel⟩,
   ⟨.sec, secRuns, by decide +kernel⟩,
   ⟨0, r0, by decide +kernel⟩,
   ⟨0, 8188, [{ be := 15, data := 0 }, { be := 15, data := 0 }, { be := 15, data := 0 }], portAt upPort,
     by decide +kernel⟩,
   ⟨0, 4, { be := 15, data := 0 }, portAt upPort, by decide +kernel⟩,
   ⟨0, 4, { be := 14, data := 0 }, portAt upPort, by decide +kernel⟩,
   ⟨0, 8, { be := 15, data := 0 }, { be := 15, data := 0 }, portAt upPort, by decide +kernel⟩,
   ⟨0, 8, { be := 7, data := 0 }, { be := 15, data := 0 }, portAt upPort, by decide +kernel⟩⟩

theorem witness_StepRunsTheFrontCommand :
    (∃ (c : Instr) (l : List Instr) (s : State), s.pending = c :: l) ∧
    (∃ (s : State), s.pending = [] ∧ (fromTrack s = false ∨ trackFlown s = true)) ∧
    (∃ (s : State), s.pending = [] ∧ fromTrack s = true ∧ trackFlown s = false) ∧
    (∃ (s : State), s.pending = [] ∧ (s.mode = mOFF ∨ s.on F.ATB_STAT_HOLD = true)) ∧
    (∃ (s : State), s.pending = [] ∧ s.mode ≠ mOFF ∧ s.on F.ATB_STAT_HOLD = false ∧
      (s.get F.ATB_STAT_STATE = 2 ∨ s.get F.ATB_STAT_STATE = 3)) ∧
    (∃ (s : State), s.pending = [] ∧ s.mode ≠ mOFF ∧ s.on F.ATB_STAT_HOLD = false ∧ s.get F.ATB_STAT_STATE = 0 ∧
      s.atb.frac < 65536) :=
  ⟨⟨.logreq, [], { r0 with pending := [.logreq] }, by decide +kernel⟩,
   ⟨r0, by decide +kernel⟩,
   ⟨atbAt 3, by decide +kernel⟩,
   ⟨r0.put F.ATB_STAT_HOLD 1, by decide +kernel⟩,
   ⟨atbAt 3, by decide +kernel⟩,
   ⟨r0, by decide +kernel⟩⟩

theorem witness_BlocksKeepToTheirOwnState :
    (∃ (m : Master) (a : BitVec 4) (b : BitVec 4) (d : BitVec 4) (n : BitVec 5) (v : Word) (x : Byte) (st : Bool) (s : State) (t : State) (k : _),
      s.regsWf = true ∧ gated s m = false ∧
      (exec (.strapSample a b d) s = .next t ∨ exec .gpioHandover s = .next t ∨ exec (.pmxCommit m) s = .next t ∨ exec .pmxSwitchEnd s = .next t ∨ exec (.pmxPinLock m n) s = .next t ∨ exec (.uartTxWrite m v) s = .next t ∨ exec (.uartPop m) s = .next t ∨ exec .uartTxCharacter s = .next t ∨ exec .uartRxStartBit s = .next t ∨ exec (.uartRxCharacter x st) s = .next t) ∧
      k / 4096 ≠ 0x40011) ∧
    (∃ (m : Master) (k : BitVec 6) (s : State) (t : State) (j : _), s.regsWf = true ∧ gated s m = false ∧
      (exec (.metaLookup m) s = .next t ∨ exec (.metaAlloc m) s = .next t ∨ exec (.metaDirty m k) s = .next t ∨ exec (.metaClean m k) s = .next t ∨ exec (.metaInval m k) s = .next t ∨ exec (.metaLock m k) s = .next t ∨ exec (.metaUnlock m k) s = .next t) ∧
      j % 4294967296 / 4096 ≠ 0x40007) ∧
    (∃ (b : Bool) (a : BitVec 7) (c : BitVec 7) (o : Option (BitVec 7)) (e : BitVec 8) (n : BitVec 16) (s : State) (t : State) (k : _),
      s.regsWf = true ∧
      (exec (.entdaa b a) s = .next t ∨ exec (.setdasa a c) s = .next t ∨ exec (.setnewda a c) s = .next t ∨ exec .rstdaa s = .next t ∨ exec (.enec o e) s = .next t ∨ exec (.disec o e) s = .next t ∨ exec (.getpid a) s = .next t ∨ exec (.getbcr a) s = .next t ∨ exec (.getdcr a) s = .next t ∨ exec (.getstatus a) s = .next t ∨ exec (.setmwl o n) s = .next t ∨ exec (.getmwl a) s = .next t ∨ exec (.setmrl o n) s = .next t ∨ exec (.getmrl a) s = .next t) ∧
      k / 4096 ≠ 0x4000C) :=
  ⟨⟨.sec, 0, 0, 0, 0, 0, 0, true, r0, _, 0, by decide +kernel, by decide +kernel, .inl rfl, by decide⟩,
   ⟨.sec, 0, r0, _, 0, by decide +kernel, by decide +kernel, .inl rfl, by decide⟩,
   ⟨true, 8, 0, none, 0, 0, r0, _, 0, by decide +kernel, .inl rfl, by decide⟩⟩

theorem witness_StepKeepsTheCanonicalForm :
    ∃ (s : State) (t : State), s.Canonical ∧ step s = .next t :=
  ⟨r0, _, ⟨by decide +kernel, by decide +kernel⟩, rfl⟩

end Sys2Proof.Tests
end

/-! PROOFS. Chapter 3, the package, the dies and the pins: the COMMIT of the pin multiplexer while a switch sequence runs,
and the servo word that the Power die discards. -/

namespace Sys2Proof.Proofs

open Sys2Proof Sys2Proof.Machine

/-! ### Raising a one-bit field -/

section RaiseBit

variable {s : State} {f g : Fld}

theorem on_raiseBit_same (hs : s.regsWf = true) (hf : fldOk f = true) : (s.raiseBit f).on f = true := by
  have hwidth : f.hi + 1 - f.lo ≠ 0 := by
    simp only [fldOk, Bool.and_eq_true, decide_eq_true_eq] at hf
    omega
  have hget : (s.raiseBit f).get f = 1 := by
    rw [State.raiseBit, get_put_same 1 hs hf, Nat.mod_eq_of_lt (Nat.one_lt_two_pow hwidth)]
  rw [State.on, hget]
  rfl

theorem get_raiseBit_apart (hs : s.regsWf = true) (hf : fldOk f = true) (hg : fldOk g = true) (ha : fldApart f g = true) :
    (s.raiseBit f).get g = s.get g :=
  get_put_apart 1 hs hf hg ha

theorem on_raiseBit_apart (hs : s.regsWf = true) (hf : fldOk f = true) (hg : fldOk g = true) (ha : fldApart f g = true) :
    (s.raiseBit f).on g = s.on g := by
  rw [State.on, get_raiseBit_apart hs hf hg ha, State.on]

theorem rd_raiseBit_ne {k : Nat} (hs : s.regsWf = true) (hne : k ≠ f.reg) : (s.raiseBit f).rd k = s.rd k :=
  rd_wr_ne _ hs hne

/-- Raising a field leaves every field of the state but the registers. -/
theorem raiseBit_with_regs (s : State) (f : Fld) : { s.raiseBit f with regs := s.regs } = s := rfl

/-- The bits of the field's own register that lie outside the field keep their values. -/
theorem bitsOf_rd_raiseBit_outside {hi lo : Nat} (hs : s.regsWf = true) (hf : fldOk f = true) (hhi : hi < 32) (hle : lo ≤ hi)
    (hout : f.hi < lo ∨ hi < f.lo) : bitsOf ((s.raiseBit f).rd f.reg) hi lo = bitsOf (s.rd f.reg) hi lo := by
  have hg : fldOk ⟨f.reg, hi, lo⟩ = true := by simp [fldOk, hhi, hle]
  have ha : fldApart f ⟨f.reg, hi, lo⟩ = true := by simp [fldApart, hout.symm]
  exact get_raiseBit_apart hs hf hg ha

end RaiseBit

/-! ### COMMIT while BUSY = 1 (R72) -/

/-- A register command of a core that does not run gated takes effect at once. -/
theorem byCore_of_not_gated {s : State} {m : Master} {a : Nat} {v : Word} {go : State → State} (h : gated s m = false) :
    s.byCore m a v go = go s := by
  unfold State.byCore
  split
  · rw [h, if_neg Bool.false_ne_true]
  · rfl

theorem pmxCommit_of_busy {s : State} (hbusy : s.on F.PMX_STAT_BUSY = true) :
    pmxCommit s = s.raiseBit F.PMX_STAT_IGN :=
  if_pos hbusy

/-- The command stands for a write of 1 to PMX_CTL. -/
theorem exec_pmxCommit (m : Master) (s : State) : exec (.pmxCommit m) s = .next (s.byCore m R.PMX_CTL 1 pmxCommit) := rfl

theorem exec_pmxCommit_of_busy {s : State} {m : Master} (hgate : gated s m = false) (hbusy : s.on F.PMX_STAT_BUSY = true) :
    exec (.pmxCommit m) s = .next (s.raiseBit F.PMX_STAT_IGN) := by
  rw [exec_pmxCommit, byCore_of_not_gated hgate, pmxCommit_of_busy hbusy]

/-- Settles O5: the next state is the old one with IGN raised, and the laws of a raised field give the rest. -/
theorem commitWhileBusyIsIgnored : Obligations.CommitWhileBusyIsIgnored := by
  unfold Obligations.CommitWhileBusyIsIgnored
  intro m s hgate hs hbusy
  have hign : fldOk F.PMX_STAT_IGN = true := by decide
  have hapart : fldApart F.PMX_STAT_IGN F.PMX_STAT_BUSY = true := by decide
  refine ⟨s.raiseBit F.PMX_STAT_IGN, exec_pmxCommit_of_busy hgate hbusy, ?_, ?_, raiseBit_with_regs s _, ?_, ?_⟩
  · exact on_raiseBit_same hs hign
  · rw [on_raiseBit_apart hs hign (by decide) hapart, hbusy]
  · exact fun k hk => rd_raiseBit_ne hs hk
  · exact fun hi lo hhi hle hout => bitsOf_rd_raiseBit_outside hs hign hhi hle hout

/-! ### A servo word with a bad CRC (R64) -/

theorem exec_servoWordReceived (w : BitVec 56) (s : State) :
    exec (.servoWordReceived w) s = .next (servoWordReceived w s) := rfl

theorem servoWordReceived_of_bad_crc {w : BitVec 56} {s : State} (hrun : s.pd.reset = false)
    (hcrc : crc8 48 w.toNat ≠ w.toNat / 2 ^ 48) :
    servoWordReceived w s = { s with pd := { s.pd with svcrc := Nat.min (s.pd.svcrc + 1) 255 } } := by
  simp only [servoWordReceived, State.onPd, hrun, Bool.false_eq_true, if_false, if_pos hcrc]

/-- Settles O25: the one branch of the Power die's receiver that a failed CRC takes. -/
theorem badServoWordIsDiscarded : Obligations.BadServoWordIsDiscarded := by
  unfold Obligations.BadServoWordIsDiscarded
  intro w s hrun hcrc
  rw [exec_servoWordReceived, servoWordReceived_of_bad_crc hrun hcrc]

end Sys2Proof.Proofs

/-! PROOFS. The canonical form: every command keeps it, as Laws/Keep proves meaning by meaning, and so does every step. -/

namespace Sys2Proof.Proofs

open Sys2Proof Sys2Proof.Machine

theorem exec_keepsCanonical (c : Instr) {s : State} (h : s.Canonical) : OutcomeKeeps (exec c s) :=
  match c with
  | .registerWrite .. => keep_execRegisterWrite _ _ _ _ h
  | .rcRead .. => keep_execRcRead _ _ h
  | .rlRead .. => keep_execRlRead _ _ h
  | .coreAccess .. => keep_execCoreAccess _ _ _ _ _ _ h
  | .hostBar0Request .. => keep_execHostBar0Request _ _ _ _ h
  | .pwrRstnRise .. => keep_execPwrRstnRise _ h
  | .pwrRstnFall .. => keep_execPwrRstnFall _ h
  | .railCollapse .. => keep_execRailCollapse _ h
  | .vmotLoss .. => keep_execVmotLoss _ h
  | .vin5Loss .. => keep_execVin5Loss _ h
  | .bayWithdrawal .. => keep_execBayWithdrawal _ h
  | .retreatEnd .. => keep_execRetreatEnd _ h
  | .modeReqFlow .. => keep_execModeReqFlow _ _ h
  | .modeReqDrift .. => keep_execModeReqDrift _ _ h
  | .modeReqDormant .. => keep_execModeReqDormant _ h
  | .modeReqRetreat .. => keep_execModeReqRetreat _ _ h
  | .modeReqReboot .. => keep_execModeReqReboot _ _ h
  | .quiesceDone .. => keep_execQuiesceDone _ h
  | .quiesceTimeout => keep_execQuiesceTimeout h
  | .dormantExitDone .. => keep_execDormantExitDone _ h
  | .aspmL1Entry .. => keep_execAspmL1Entry _ h
  | .droopSlow .. => keep_execDroopSlow _ h
  | .droopRelease .. => keep_execDroopRelease _ _ _ h
  | .deepDroop .. => keep_execDeepDroop _ _ _ h
  | .droopSummary => keep_execDroopSummary h
  | .atbCtlWrite .. => keep_execAtbCtlWrite _ _ h
  | .signalQualified => keep_execSignalQualified h
  | .indexMark .. => keep_execIndexMark _ _ _ _ _ _ h
  | .atbHoldEnd => keep_execAtbHoldEnd h
  | .acquireTimeout .. => keep_execAcquireTimeout _ _ h
  | .acquireSignalLost .. => keep_execAcquireSignalLost _ _ h
  | .lockLoss .. => keep_execLockLoss _ _ _ h
  | .indexMissed .. => keep_execIndexMissed _ _ h
  | .holdoverExpiry => keep_execHoldoverExpiry h
  | .ascArm .. => keep_execAscArm _ _ h
  | .ascCancel .. => keep_execAscCancel _ _ h
  | .ascRead .. => keep_execAscRead _ _ h
  | .ascFlush .. => keep_execAscFlush _ h
  | .hwordWrite .. => keep_execHwordWrite _ _ h
  | .ascDispatch .. => keep_execAscDispatch _ h
  | .servoWin .. => keep_execServoWin _ h
  | .dataWin .. => keep_execDataWin _ _ h
  | .writeGate .. => keep_execWriteGate _ _ h
  | .dbPoll .. => keep_execDbPoll _ h
  | .prefetchRel .. => keep_execPrefetchRel _ h
  | .morSeal .. => keep_execMorSeal _ h
  | .coreIrq .. => keep_execCoreIrq _ h
  | .latchedEvent => keep_execLatchedEvent h
  | .strapSample .. => keep_execStrapSample _ _ _ h
  | .gpioHandover => keep_execGpioHandover h
  | .pmxCommit .. => keep_execPmxCommit _ h
  | .pmxSwitchEnd => keep_execPmxSwitchEnd h
  | .pmxPinLock .. => keep_execPmxPinLock _ _ h
  | .uartTxWrite .. => keep_execUartTxWrite _ _ h
  | .uartPop .. => keep_execUartPop _ h
  | .uartTxCharacter => keep_execUartTxCharacter h
  | .uartRxCharacter .. => keep_execUartRxCharacter _ _ h
  | .finionFrame .. => keep_execFinionFrame _ _ _ _ _ h
  | .finionLinkDown .. => keep_execFinionLinkDown _ _ _ h
  | .finionLinkUp .. => keep_execFinionLinkUp _ h
  | .servoWordReceived .. => keep_execServoWordReceived _ h
  | .upstreamServoWord .. => keep_execUpstreamServoWord _ h
  | .headersRead => keep_execHeadersRead h
  | .blockLanded .. => keep_execBlockLanded _ h
  | .blockHashed .. => keep_execBlockHashed _ h
  | .headerSignatureDone .. => keep_execHeaderSignatureDone _ h
  | .devidDerived => keep_execDevidDerived h
  | .aliasDerived => keep_execAliasDerived h
  | .coreRelease .. => keep_execCoreRelease _ _ h
  | .svWsqRelease => keep_execSvWsqRelease h
  | .hsqDrainEnd .. => keep_execHsqDrainEnd _ _ h
  | .fuseProgramDone .. => keep_execFuseProgramDone _ h
  | .keyLock .. => keep_execKeyLock _ _ h
  | .derive .. => keep_execDerive _ _ h
  | .deriveDone => keep_execDeriveDone h
  | .keyClear .. => keep_execKeyClear _ _ h
  | .sign .. => keep_execSign _ _ h
  | .signDone => keep_execSignDone h
  | .programKeyhash .. => keep_execProgramKeyhash _ _ h
  | .setProduction .. => keep_execSetProduction _ _ h
  | .programTargetRpm .. => keep_execProgramTargetRpm _ _ h
  | .eventCapture .. => keep_execEventCapture _ h
  | .fwEventSubmit .. => keep_execFwEventSubmit _ _ _ h
  | .sealNow => keep_execSealNow h
  | .phase1Start => keep_execPhase1Start h
  | .phase1Done .. => keep_execPhase1Done _ _ h
  | .recordSignatureReady => keep_execRecordSignatureReady h
  | .phase2Done .. => keep_execPhase2Done _ _ h
  | .driftEraseDone .. => keep_execDriftEraseDone _ h
  | .tailSearchDone => keep_execTailSearchDone h
  | .morReadGo .. => keep_execMorReadGo _ h
  | .morReadDone .. => keep_execMorReadDone _ h
  | .retreatRetractDone .. => keep_execRetreatRetractDone _ h
  | .storeRead .. => keep_execStoreRead _ _ _ _ h
  | .sequenceCycle .. => keep_execSequenceCycle _ _ _ _ h
  | .sequenceTimeout .. => keep_execSequenceTimeout _ _ h
  | .readArray .. => keep_execReadArray _ _ h
  | .statusRead .. => keep_execStatusRead _ _ h
  | .clearStatus .. => keep_execClearStatus _ _ h
  | .bufferProgram .. => keep_execBufferProgram _ _ h
  | .sectorErase .. => keep_execSectorErase _ _ h
  | .eraseSuspend .. => keep_execEraseSuspend _ _ h
  | .eraseResume .. => keep_execEraseResume _ _ h
  | .marginRead .. => keep_execMarginRead _ _ _ h
  | .infoMode .. => keep_execInfoMode _ _ h
  | .pageWindowStore .. => keep_execPageWindowStore _ _ _ _ h
  | .programDone .. => keep_execProgramDone _ _ _ h
  | .eraseDone .. => keep_execEraseDone _ _ _ h
  | .storeScanDone => keep_execStoreScanDone h
  | .infoRowEraseDone .. => keep_execInfoRowEraseDone _ h
  | .markBad .. => keep_execMarkBad _ h
  | .markBadDone .. => keep_execMarkBadDone _ h
  | .wprotWrite .. => keep_execWprotWrite _ _ h
  | .bankPowerDown .. => keep_execBankPowerDown _ _ h
  | .wsqCont .. => keep_execWsqCont _ _ h
  | .wsqJump .. => keep_execWsqJump _ _ h
  | .wsqBranch .. => keep_execWsqBranch _ _ h
  | .wsqWait .. => keep_execWsqWait _ _ h
  | .wsqWaitSatisfied .. => keep_execWsqWaitSatisfied _ _ h
  | .wsqCall .. => keep_execWsqCall _ _ h
  | .wsqRet .. => keep_execWsqRet _ _ h
  | .wsqDispatch .. => keep_execWsqDispatch _ _ h
  | .wsqHalt .. => keep_execWsqHalt _ _ h
  | .wsqIllegal .. => keep_execWsqIllegal _ _ h
  | .wsqWatchdog .. => keep_execWsqWatchdog _ _ h
  | .preampFrameDone .. => keep_execPreampFrameDone _ h
  | .wsqPaqWrite .. => keep_execWsqPaqWrite _ _ h
  | .msqNop .. => keep_execMsqNop _ h
  | .msqLdi .. => keep_execMsqLdi _ h
  | .msqAddi .. => keep_execMsqAddi _ h
  | .msqAdd .. => keep_execMsqAdd _ h
  | .msqSub .. => keep_execMsqSub _ h
  | .msqAndi .. => keep_execMsqAndi _ h
  | .msqOri .. => keep_execMsqOri _ h
  | .msqSra .. => keep_execMsqSra _ h
  | .msqMulq .. => keep_execMsqMulq _ h
  | .msqIn .. => keep_execMsqIn _ _ h
  | .msqOut .. => keep_execMsqOut _ h
  | .msqBr .. => keep_execMsqBr _ h
  | .msqCall .. => keep_execMsqCall _ h
  | .msqRet .. => keep_execMsqRet _ h
  | .msqWait .. => keep_execMsqWait _ h
  | .msqWaitEvent .. => keep_execMsqWaitEvent _ h
  | .msqIllegal .. => keep_execMsqIllegal _ h
  | .burstEnd .. => keep_execBurstEnd _ h
  | .positionConversionDone .. => keep_execPositionConversionDone _ h
  | .missedWedge .. => keep_execMissedWedge _ h
  | .burstWindowExpiry .. => keep_execBurstWindowExpiry _ _ h
  | .svPosEntry .. => keep_execSvPosEntry _ h
  | .servoCommit .. => keep_execServoCommit _ _ _ h
  | .cmdlost => keep_execCmdlost h
  | .shockEvent .. => keep_execShockEvent _ h
  | .preampFault .. => keep_execPreampFault _ h
  | .srvModeWrite .. => keep_execSrvModeWrite _ _ h
  | .traceRecord .. => keep_execTraceRecord _ h
  | .pdResetAssert => keep_execPdResetAssert h
  | .pdResetRelease .. => keep_execPdResetRelease _ h
  | .notice .. => keep_execNotice _ h
  | .speed .. => keep_execSpeed _ _ _ h
  | .spderr .. => keep_execSpderr _ h
  | .spderrMeasurement .. => keep_execSpderrMeasurement _ h
  | .actLoad => keep_execActLoad h
  | .actUnload => keep_execActUnload h
  | .actPark => keep_execActPark h
  | .actRetract .. => keep_execActRetract _ h
  | .actHoldup => keep_execActHoldup h
  | .psupOn => keep_execPsupOn h
  | .preampVposOn => keep_execPreampVposOn h
  | .psupOff => keep_execPsupOff h
  | .cfg .. => keep_execCfg _ _ _ _ _ h
  | .pwr .. => keep_execPwr _ _ h
  | .prd .. => keep_execPrd _ _ h
  | .unpatch => keep_execUnpatch h
  | .patchData .. => keep_execPatchData _ _ h
  | .patchEnd => keep_execPatchEnd h
  | .logack .. => keep_execLogack _ h
  | .logreq => keep_execLogreq h
  | .idle => keep_execIdle h
  | .status .. => keep_execStatus _ _ _ _ h
  | .fault .. => keep_execFault _ _ h
  | .pdata .. => keep_execPdata _ _ h
  | .patchAck .. => keep_execPatchAck _ h
  | .log .. => keep_execLog _ _ h
  | .actuatorMoveDone => keep_execActuatorMoveDone h
  | .servoSilence .. => keep_execServoSilence _ h
  | .vholdLow .. => keep_execVholdLow _ h
  | .spindleFloor .. => keep_execSpindleFloor _ h
  | .retractDeadline .. => keep_execRetractDeadline _ h
  | .retractRampReached => keep_execRetractRampReached h
  | .retractLatchReached => keep_execRetractLatchReached h
  | .retractLatchTimeout => keep_execRetractLatchTimeout h
  | .retractEnd .. => keep_execRetractEnd _ h
  | .spindleClosedLoop => keep_execSpindleClosedLoop h
  | .startAttemptTimeout => keep_execStartAttemptTimeout h
  | .spindleAtSpeed => keep_execSpindleAtSpeed h
  | .speedError => keep_execSpeedError h
  | .spindleStopped => keep_execSpindleStopped h
  | .holdupBrake => keep_execHoldupBrake h
  | .spoc .. => keep_execSpoc _ h
  | .vcmoc => keep_execVcmoc h
  | .maflt .. => keep_execMaflt _ h
  | .psupf => keep_execPsupf h
  | .twarn => keep_execTwarn h
  | .tshut .. => keep_execTshut _ h
  | .sync => keep_execSync h
  | .linkDownSpinDown => keep_execLinkDownSpinDown h
  | .mopCommit .. => keep_execMopCommit _ _ _ h
  | .synthSlewDone => keep_execSynthSlewDone h
  | .sectorStart .. => keep_execSectorStart _ h
  | .sectorLastBit .. => keep_execSectorLastBit _ _ h
  | .decodeDone .. => keep_execDecodeDone _ _ _ h
  | .decodeDeadline .. => keep_execDecodeDeadline _ _ _ h
  | .writeDataCheck .. => keep_execWriteDataCheck _ h
  | .headContextWrite .. => keep_execHeadContextWrite _ _ _ _ h
  | .popdone .. => keep_execPopdone _ h
  | .popfail .. => keep_execPopfail _ h
  | .redec .. => keep_execRedec _ h
  | .redecDone .. => keep_execRedecDone _ h
  | .release .. => keep_execRelease _ h
  | .bufferInitDone => keep_execBufferInitDone h
  | .patrolScrub .. => keep_execPatrolScrub _ h
  | .zqCalibration => keep_execZqCalibration h
  | .lookup .. => keep_execLookup _ _ h
  | .lookupAlloc .. => keep_execLookupAlloc _ _ h
  | .reserve .. => keep_execReserve _ _ h
  | .filllock .. => keep_execFilllock _ _ h
  | .aclean .. => keep_execAclean _ _ h
  | .ainval .. => keep_execAinval _ _ h
  | .acleaninval .. => keep_execAcleaninval _ _ h
  | .adiscard .. => keep_execAdiscard _ _ h
  | .firnCommit .. => keep_execFirnCommit _ _ h
  | .fill .. => keep_execFill _ _ h
  | .firnAbort .. => keep_execFirnAbort _ _ h
  | .unpin .. => keep_execUnpin _ _ h
  | .clean .. => keep_execClean _ _ h
  | .inval .. => keep_execInval _ _ h
  | .cleaninval .. => keep_execCleaninval _ _ h
  | .discard .. => keep_execDiscard _ _ h
  | .rangeClean .. => keep_execRangeClean _ _ h
  | .rangeInval .. => keep_execRangeInval _ _ h
  | .rangeCleaninval .. => keep_execRangeCleaninval _ _ h
  | .rangeDiscard .. => keep_execRangeDiscard _ _ h
  | .rangeResume => keep_execRangeResume h
  | .rangePassEnd => keep_execRangePassEnd h
  | .clqpop => keep_execClqpop h
  | .wbdone .. => keep_execWbdone _ h
  | .metaLookup .. => keep_execMetaLookup _ h
  | .metaAlloc .. => keep_execMetaAlloc _ h
  | .metaDirty .. => keep_execMetaDirty _ _ h
  | .metaClean .. => keep_execMetaClean _ _ h
  | .metaInval .. => keep_execMetaInval _ _ h
  | .metaLock .. => keep_execMetaLock _ _ h
  | .metaUnlock .. => keep_execMetaUnlock _ _ h
  | .corniceAlloc .. => keep_execCorniceAlloc _ _ h
  | .corniceRelease .. => keep_execCorniceRelease _ _ h
  | .corniceStatus .. => keep_execCorniceStatus _ _ h
  | .corniceScrubDone .. => keep_execCorniceScrubDone _ h
  | .partitionWrite .. => keep_execPartitionWrite _ _ _ _ h
  | .partitionLock .. => keep_execPartitionLock _ h
  | .defectLookup .. => keep_execDefectLookup _ _ h
  | .windowLookup .. => keep_execWindowLookup _ _ _ h
  | .rmeCommit .. => keep_execRmeCommit _ _ h
  | .revokeHoldEnd => keep_execRevokeHoldEnd h
  | .shadowRead .. => keep_execShadowRead _ _ h
  | .wlock .. => keep_execWlock _ h
  | .dready .. => keep_execDready _ h
  | .rmePatrol .. => keep_execRmePatrol _ h
  | .chstart .. => keep_execChstart _ _ _ h
  | .descriptorFetched .. => keep_execDescriptorFetched _ _ h
  | .descriptorEnd .. => keep_execDescriptorEnd _ h
  | .channelAbort .. => keep_execChannelAbort _ _ h
  | .chcfgWrite .. => keep_execChcfgWrite _ _ _ h
  | .cfglock .. => keep_execCfglock _ h
  | .mdbaseWrite .. => keep_execMdbaseWrite _ _ h
  | .katDone .. => keep_execKatDone _ h
  | .portUp .. => keep_execPortUp _ h
  | .portDown .. => keep_execPortDown _ _ h
  | .dbpPortWrite .. => keep_execDbpPortWrite _ _ _ h
  | .ringSetupWrite .. => keep_execRingSetupWrite _ _ _ _ _ h
  | .sqEnable .. => keep_execSqEnable _ _ h
  | .cqEnable .. => keep_execCqEnable _ _ _ h
  | .sqDisable .. => keep_execSqDisable _ _ h
  | .sqDrained .. => keep_execSqDrained _ h
  | .cqDisable .. => keep_execCqDisable _ _ h
  | .resume .. => keep_execResume _ _ _ h
  | .ringReset .. => keep_execRingReset _ _ h
  | .hostWindowLock .. => keep_execHostWindowLock _ _ h
  | .wake .. => keep_execWake _ _ h
  | .doorbellReadDone .. => keep_execDoorbellReadDone _ _ _ h
  | .entryBurstDone .. => keep_execEntryBurstDone _ _ _ _ h
  | .listPageReadDone .. => keep_execListPageReadDone _ _ _ _ h
  | .completionWritten .. => keep_execCompletionWritten _ h
  | .msixAggregationTimeout .. => keep_execMsixAggregationTimeout _ h
  | .msixUnmask .. => keep_execMsixUnmask _ _ h
  | .uqiCpost .. => keep_execUqiCpost _ _ h
  | .uqiXcmd .. => keep_execUqiXcmd _ _ h
  | .uqiXpop .. => keep_execUqiXpop _ _ h
  | .uqiDqpop .. => keep_execUqiDqpop _ _ h
  | .rpartyWrite .. => keep_execRpartyWrite _ _ _ h
  | .pcfgWrite .. => keep_execPcfgWrite _ _ _ h
  | .flush .. => keep_execFlush _ _ h
  | .write .. => keep_execWrite _ _ _ h
  | .read .. => keep_execRead _ _ h
  | .writeZeroes .. => keep_execWriteZeroes _ _ _ h
  | .deallocate .. => keep_execDeallocate _ _ h
  | .abort .. => keep_execAbort _ h
  | .identify .. => keep_execIdentify _ _ h
  | .residueRead .. => keep_execResidueRead _ _ h
  | .ordRequest .. => keep_execOrdRequest _ _ _ h
  | .ordSelectTarget => keep_execOrdSelectTarget h
  | .ordAck .. => keep_execOrdAck _ _ h
  | .ordClqTake .. => keep_execOrdClqTake _ h
  | .ordUrgent => keep_execOrdUrgent h
  | .ordRespop .. => keep_execOrdRespop _ h
  | .ordShareWrite .. => keep_execOrdShareWrite _ _ _ h
  | .isoLock .. => keep_execIsoLock _ h
  | .entdaa .. => keep_execEntdaa _ _ h
  | .setdasa .. => keep_execSetdasa _ _ h
  | .setnewda .. => keep_execSetnewda _ _ h
  | .rstdaa => keep_execRstdaa h
  | .enec .. => keep_execEnec _ _ h
  | .disec .. => keep_execDisec _ _ h
  | .getpid .. => keep_execGetpid _ h
  | .getbcr .. => keep_execGetbcr _ h
  | .getdcr .. => keep_execGetdcr _ h
  | .getstatus .. => keep_execGetstatus _ h
  | .setmwl .. => keep_execSetmwl _ _ h
  | .getmwl .. => keep_execGetmwl _ h
  | .setmrl .. => keep_execSetmrl _ _ h
  | .getmrl .. => keep_execGetmrl _ h
  | .taskPrivateWrite .. => keep_execTaskPrivateWrite _ h
  | .taskPrivateRead .. => keep_execTaskPrivateRead _ h
  | .doneClear .. => keep_execDoneClear _ h
  | .mgtTake .. => keep_execMgtTake _ _ h
  | .mgtDone .. => keep_execMgtDone _ _ h
  | .ident => keep_execIdent h
  | .partCfg => keep_execPartCfg h
  | .partWin => keep_execPartWin h
  | .partKey => keep_execPartKey h
  | .partLock => keep_execPartLock h
  | .partErase => keep_execPartErase h
  | .partQuery => keep_execPartQuery h
  | .stShort .. => keep_execStShort _ h
  | .stExt .. => keep_execStExt _ h
  | .stAbort .. => keep_execStAbort _ _ h
  | .stResult .. => keep_execStResult _ _ _ _ h
  | .selfTestEnd .. => keep_execSelfTestEnd _ _ _ _ _ h
  | .fwBegin .. => keep_execFwBegin _ h
  | .fwData .. => keep_execFwData _ h
  | .fwVerify => keep_execFwVerify h
  | .fwActivate .. => keep_execFwActivate _ h
  | .morInfo => keep_execMorInfo h
  | .morRead => keep_execMorRead h
  | .badOpcode => keep_execBadOpcode h
  | .mctpPacket .. => keep_execMctpPacket _ h
  | .mrxPop .. => keep_execMrxPop _ _ h
  | .mtxSend .. => keep_execMtxSend _ _ h
  | .setEndpointId => keep_execSetEndpointId h
  | .getEndpointId => keep_execGetEndpointId h
  | .getEndpointUuid => keep_execGetEndpointUuid h
  | .getMctpVersionSupport => keep_execGetMctpVersionSupport h
  | .getMessageTypeSupport => keep_execGetMessageTypeSupport h
  | .getVersion => keep_execGetVersion h
  | .getCapabilities => keep_execGetCapabilities h
  | .negotiateAlgorithms => keep_execNegotiateAlgorithms h
  | .getDigests .. => keep_execGetDigests _ _ h
  | .getCertificate .. => keep_execGetCertificate _ _ h
  | .challenge .. => keep_execChallenge _ _ h
  | .getMeasurements => keep_execGetMeasurements h
  | .spdmUnsupportedRequest => keep_execSpdmUnsupportedRequest h
  | .aliasCertReady => keep_execAliasCertReady h
  | .lockwinRunComplete .. => keep_execLockwinRunComplete _ h
  | .uartRxStartBit => keep_execUartRxStartBit h
  | .secLeavesReset => keep_execSecLeavesReset h
  | .hostReadCompletion .. => keep_execHostReadCompletion _ _ _ _ h
  | .completionTimeout .. => keep_execCompletionTimeout _ _ h
  | .configurationRequest .. => keep_execConfigurationRequest _ _ h
  | .sectorWritten .. => keep_execSectorWritten _ h
  | .vmotReturn => keep_execVmotReturn h
  | .vin5Return => keep_execVin5Return h
  | .reinsertion => keep_execReinsertion h

/-- Settles O60: the canonical form does not speak of the queue, so that the front command starts from a canonical state; the
meaning of every command keeps the form, and so does the tick of an empty queue. -/
theorem stepKeepsTheCanonicalForm : Obligations.StepKeepsTheCanonicalForm := by
  unfold Obligations.StepKeepsTheCanonicalForm
  intro s t hs hstep
  unfold step at hstep
  split at hstep
  · exact keeps_next (keep_idleTick hs) t hstep
  · next c rest _ =>
    have hrest : ({ s with pending := rest } : State).Canonical := hs
    exact exec_keepsCanonical c hrest t hstep

end Sys2Proof.Proofs

/-! PROOFS. Chapter 11, the sector codec: every codeword satisfies the parity checks of R263. -/

namespace Sys2Proof.Proofs

open Sys2Proof Sys2Proof.Machine

/-! ### Lengths -/

theorem length_flatMap_const {α β : Type} {f : α → List β} {n : Nat} (hf : ∀ x, (f x).length = n) (l : List α) :
    (l.flatMap f).length = n * l.length := by
  induction l with
  | nil => rfl
  | cons x l ih => rw [List.flatMap_cons, List.length_append, hf, ih, List.length_cons, Nat.mul_succ, Nat.add_comm]

theorem length_bitsOfBytes (b : List Byte) : (bitsOfBytes b).length = 8 * b.length := by
  rw [bitsOfBytes, length_flatMap_const (fun x => by rw [List.length_map, List.length_range])]

theorem length_scramble (l : List Bool) (r : BitVec 23) : (scramble r l).length = l.length := by
  induction l generalizing r with
  | nil => rfl
  | cons b l ih => simp [scramble, ih]

theorem length_columns (n : Nat) (l : List Bool) : (columns n l).length = n := by
  induction n generalizing l with
  | zero => rfl
  | succ n ih => simp [columns, ih]

theorem length_parityCols (p : BitVec 32) (l : List (BitVec 32)) : (parityCols p l).length = l.length := by
  induction l generalizing p with
  | nil => rfl
  | cons r l ih => simp [parityCols, ih]

/-- The block rows that one column adds its circulants to. -/
def addColumn (j : Nat) (x : BitVec 32) (rows : List (BitVec 32)) : List (BitVec 32) :=
  (List.range 4).foldl (fun rows m => rows.modify ((j + 30 * m) % 119) (fun r => r ^^^ x.rotateRight (circShift j m))) rows

theorem infoRows_cons (j : Nat) (x : BitVec 32) (xs rows : List (BitVec 32)) :
    infoRows j (x :: xs) rows = infoRows (j + 1) xs (addColumn j x rows) := rfl

theorem length_addColumn (j : Nat) (x : BitVec 32) (rows : List (BitVec 32)) : (addColumn j x rows).length = rows.length := by
  simp [addColumn, List.range_succ]

theorem length_infoRows (xs rows : List (BitVec 32)) (j : Nat) : (infoRows j xs rows).length = rows.length := by
  induction xs generalizing j rows with
  | nil => rfl
  | cons x xs ih => rw [infoRows_cons, ih, length_addColumn]

/-! ### Columns: bit k of column j is bit 32j + k of the string -/

/-- The number whose bit k is the k-th of a list of bits, for the first n of them. -/
def bitsNat (l : List Bool) (n : Nat) : Nat :=
  (List.range n).foldl (fun x k => if l.getD k false then x + 2 ^ k else x) 0

theorem bitsNat_succ (l : List Bool) (n : Nat) : bitsNat l (n + 1) = bitsNat l n + (l.getD n false).toNat * 2 ^ n := by
  simp only [bitsNat, List.range_succ, List.foldl_append, List.foldl_cons, List.foldl_nil]
  cases l.getD n false <;> simp

theorem bitsNat_lt (l : List Bool) (n : Nat) : bitsNat l n < 2 ^ n := by
  induction n with
  | zero => simp [bitsNat]
  | succ n ih =>
    rw [bitsNat_succ, Nat.pow_succ]
    cases l.getD n false
    · rw [Bool.toNat_false]; omega
    · rw [Bool.toNat_true]; omega

theorem testBit_bitsNat (l : List Bool) {n k : Nat} (hk : k < n) : (bitsNat l n).testBit k = l.getD k false := by
  induction n with
  | zero => omega
  | succ n ih =>
    rw [bitsNat_succ, Nat.add_comm, Nat.mul_comm, Nat.testBit_two_pow_mul_add _ (bitsNat_lt l n)]
    split
    · exact ih ‹_›
    · obtain rfl : k = n := by omega
      cases l.getD k false <;> simp

theorem getLsbD_columns {n j k : Nat} {l : List Bool} (hj : j < n) (hk : k < 32) :
    ((columns n l).getD j 0).getLsbD k = l.getD (32 * j + k) false := by
  induction n generalizing j l with
  | zero => omega
  | succ n ih =>
    cases j with
    | zero =>
      have hhead : (columns (n + 1) l).getD 0 0 = BitVec.ofNat 32 (bitsNat l 32) := rfl
      rw [hhead, BitVec.getLsbD_ofNat, testBit_bitsNat l hk, Nat.mul_zero, Nat.zero_add, decide_eq_true hk, Bool.true_and]
    | succ j =>
      have htail : (columns (n + 1) l).getD (j + 1) 0 = (columns n (l.drop 32)).getD j 0 := rfl
      rw [htail, ih (by omega), List.getD_eq_getElem?_getD, List.getElem?_drop, ← List.getD_eq_getElem?_getD]
      congr 1
      omega

/-! ### What the information part of H gives in a row -/

/-- The exclusive OR of a bit with those that row a of block row i takes from block column j. -/
def tapColumn (bit : Nat → Nat → Bool) (i a : Nat) (x : Bool) (j : Nat) : Bool :=
  (List.range 4).foldl (fun y m => if (j + 30 * m) % 119 = i then y != bit j ((a + circShift j m) % 32) else y) x

/-- A step that adds a bit to an exclusive OR commutes with the value it starts from. -/
theorem foldl_xor_start {α : Type} {g : Bool → α → Bool} (hg : ∀ x t, g x t = (x != g false t)) (l : List α) (x : Bool) :
    l.foldl g x = (x != l.foldl g false) := by
  induction l generalizing x with
  | nil => simp
  | cons t l ih => rw [List.foldl_cons, List.foldl_cons, ih, ih (g false t), hg]; simp

theorem tapColumn_start (bit : Nat → Nat → Bool) (i a : Nat) (x : Bool) (j : Nat) :
    tapColumn bit i a x j = (x != tapColumn bit i a false j) := by
  refine foldl_xor_start (fun y m => ?_) _ _
  split <;> simp

theorem getLsbD_rotateRight_circShift (x : BitVec 32) (j m : Nat) {a : Nat} (ha : a < 32) :
    (x.rotateRight (circShift j m)).getLsbD a = x.getLsbD ((a + circShift j m) % 32) := by
  have hs : circShift j m < 32 := Nat.mod_lt _ (by decide)
  rw [BitVec.getLsbD_rotateRight, Nat.mod_eq_of_lt hs]
  by_cases hlt : a < 32 - circShift j m
  · rw [decide_eq_true hlt, cond_true, Nat.mod_eq_of_lt (by omega), Nat.add_comm]
  · rw [decide_eq_false hlt, cond_false, show (a + circShift j m) % 32 = a - (32 - circShift j m) by omega]
    simp [ha]

theorem getLsbD_modify_xor {rows : List (BitVec 32)} {i k a : Nat} (hi : i < rows.length) (y : BitVec 32) :
    ((rows.modify k (fun r => r ^^^ y)).getD i 0).getLsbD a =
      if k = i then (rows.getD i 0).getLsbD a != y.getLsbD a else (rows.getD i 0).getLsbD a := by
  simp only [List.getD_eq_getElem?_getD, List.getElem?_modify, List.getElem?_eq_getElem hi]
  split <;> simp

theorem getLsbD_addColumn {rows : List (BitVec 32)} {i a : Nat} (hi : i < rows.length) (ha : a < 32) (j : Nat) (x : BitVec 32)
    {bit : Nat → Nat → Bool} (hbit : ∀ k, bit j k = x.getLsbD k) :
    ((addColumn j x rows).getD i 0).getLsbD a = tapColumn bit i a ((rows.getD i 0).getLsbD a) j := by
  unfold addColumn tapColumn
  generalize List.range 4 = l
  induction l generalizing rows with
  | nil => rfl
  | cons m l ih =>
    rw [List.foldl_cons, List.foldl_cons, ih (by rwa [List.length_modify]), getLsbD_modify_xor hi,
      getLsbD_rotateRight_circShift _ _ _ ha, hbit]

theorem getLsbD_infoRows {rows : List (BitVec 32)} {i a : Nat} (hi : i < rows.length) (ha : a < 32) (bit : Nat → Nat → Bool)
    (xs : List (BitVec 32)) (j : Nat) (hbit : ∀ t k, t < xs.length → bit (j + t) k = (xs.getD t 0).getLsbD k) :
    ((infoRows j xs rows).getD i 0).getLsbD a =
      (List.range' j xs.length).foldl (tapColumn bit i a) ((rows.getD i 0).getLsbD a) := by
  induction xs generalizing j rows with
  | nil => rfl
  | cons x xs ih =>
    have hx : ∀ k, bit j k = x.getLsbD k := fun k => hbit 0 k (by simp)
    rw [infoRows_cons, ih (by rwa [length_addColumn]), List.length_cons, List.range'_succ, List.foldl_cons,
      getLsbD_addColumn hi ha j x hx]
    intro t k ht
    rw [Nat.add_assoc, Nat.add_comm 1 t, hbit (t + 1) k (by simpa using ht), List.getD_cons_succ]

/-! ### The dual diagonal -/

theorem getD_parityCols (p : BitVec 32) (l : List (BitVec 32)) {i : Nat} (hi : i < l.length) :
    (parityCols p l).getD i 0 = (if 0 < i then (parityCols p l).getD (i - 1) 0 else p) ^^^ l.getD i 0 := by
  induction l generalizing p i with
  | nil => simp at hi
  | cons r l ih =>
    cases i with
    | zero => rfl
    | succ i =>
      rw [parityCols, List.getD_cons_succ, ih _ (by simpa using hi), List.getD_cons_succ]
      cases i <;> rfl

/-! ### The codeword -/

/-- The scrambled information bits of a codeword. -/
def infoBits (lba : Nat) (info : List Byte) : List Bool := scramble (scramblerSeed lba) (bitsOfBytes info)

/-- The sums that the information part of H gives in the block rows. -/
def rowSums (lba : Nat) (info : List Byte) : List (BitVec 32) :=
  infoRows 0 (columns 1033 (infoBits lba info)) (List.replicate 119 0)

/-- The bits of a list of block columns, in order. -/
def columnBits (l : List (BitVec 32)) : List Bool := l.flatMap fun (p : BitVec 32) => (List.range 32).map fun k => p.getLsbD k

theorem codeword_eq (lba : Nat) (info : List Byte) :
    codeword lba info = infoBits lba info ++ columnBits (parityCols 0 (rowSums lba info)) := rfl

theorem length_columnBits (l : List (BitVec 32)) : (columnBits l).length = 32 * l.length := by
  rw [columnBits, length_flatMap_const (fun p => by rw [List.length_map, List.length_range])]

theorem getD_append_left {α : Type} {l l' : List α} {n : Nat} (h : n < l.length) (d : α) :
    (l ++ l').getD n d = l.getD n d := by
  rw [List.getD_eq_getElem?_getD, List.getElem?_append_left h, ← List.getD_eq_getElem?_getD]

theorem getD_append_tail {α : Type} {l l' : List α} {n : Nat} (h : l.length ≤ n) (d : α) :
    (l ++ l').getD n d = l'.getD (n - l.length) d := by
  rw [List.getD_eq_getElem?_getD, List.getElem?_append_right h, ← List.getD_eq_getElem?_getD]

theorem getD_columnBits (l : List (BitVec 32)) {i a : Nat} (hi : i < l.length) (ha : a < 32) :
    (columnBits l).getD (32 * i + a) false = (l.getD i 0).getLsbD a := by
  induction l generalizing i with
  | nil => simp at hi
  | cons p l ih =>
    have hcons : columnBits (p :: l) = ((List.range 32).map fun k => p.getLsbD k) ++ columnBits l := rfl
    rw [hcons]
    cases i with
    | zero =>
      rw [getD_append_left (by simpa using ha)]
      simp [List.getD_eq_getElem?_getD, ha]
    | succ i =>
      rw [getD_append_tail (by simp; omega), List.getD_cons_succ, ← ih (by simpa using hi)]
      congr 1
      simp
      omega

theorem length_infoBits {info : List Byte} (lba : Nat) (h : info.length = 4132) : (infoBits lba info).length = 33056 := by
  rw [infoBits, length_scramble, length_bitsOfBytes, h]

theorem length_rowSums (lba : Nat) (info : List Byte) : (rowSums lba info).length = 119 := by
  rw [rowSums, length_infoRows, List.length_replicate]

theorem length_parity (lba : Nat) (info : List Byte) : (parityCols 0 (rowSums lba info)).length = 119 := by
  rw [length_parityCols, length_rowSums]

theorem foldl_congr_mem {α β : Type} {f g : β → α → β} {l : List α} (h : ∀ b, ∀ a ∈ l, f b a = g b a) (b : β) :
    l.foldl f b = l.foldl g b := by
  induction l generalizing b with
  | nil => rfl
  | cons a l ih =>
    rw [List.foldl_cons, List.foldl_cons, h b a List.mem_cons_self, ih fun b a ha => h b a (List.mem_cons_of_mem _ ha)]

section Codeword

variable {lba : Nat} {info : List Byte} (hinfo : info.length = 4132)

include hinfo

theorem length_codeword : (codeword lba info).length = 36864 := by
  rw [codeword_eq, List.length_append, length_infoBits lba hinfo, length_columnBits, length_parity]

theorem getD_codeword_info {j k : Nat} (hj : j < 1033) (hk : k < 32) :
    (codeword lba info).getD (32 * j + k) false = ((columns 1033 (infoBits lba info)).getD j 0).getLsbD k := by
  rw [codeword_eq, getD_append_left (by rw [length_infoBits lba hinfo]; omega), getLsbD_columns hj hk]

theorem getD_codeword_parity {i a : Nat} (hi : i < 119) (ha : a < 32) :
    (codeword lba info).getD (33056 + 32 * i + a) false = ((parityCols 0 (rowSums lba info)).getD i 0).getLsbD a := by
  have hlen := length_infoBits lba hinfo
  have hidx : 33056 + 32 * i + a - 33056 = 32 * i + a := by omega
  rw [codeword_eq, getD_append_tail (by omega), hlen, hidx, getD_columnBits _ (by rwa [length_parity]) ha]

/-- A row sum is the exclusive OR of the codeword bits that the information part of its row names. -/
theorem getLsbD_rowSums {i a : Nat} (hi : i < 119) (ha : a < 32) : ((rowSums lba info).getD i 0).getLsbD a =
    (List.range 1033).foldl (tapColumn (fun j k => (codeword lba info).getD (32 * j + k) false) i a) false := by
  have hcols : (columns 1033 (infoBits lba info)).length = 1033 := length_columns _ _
  have hfold : ∀ (l : List Nat) (x : Bool), (∀ j ∈ l, j < 1033) →
      l.foldl (tapColumn (fun j k => ((columns 1033 (infoBits lba info)).getD j 0).getLsbD k) i a) x =
        l.foldl (tapColumn (fun j k => (codeword lba info).getD (32 * j + k) false) i a) x := by
    intro l x hl
    refine foldl_congr_mem (fun y j hj => ?_) x
    simp only [tapColumn, getD_codeword_info hinfo (hl j hj) (Nat.mod_lt _ (by decide : 32 > 0))]
  have hzero : ((List.replicate 119 (0 : BitVec 32)).getD i 0).getLsbD a = false := by
    rw [List.getD_eq_getElem?_getD, List.getElem?_replicate_of_lt hi]
    exact BitVec.getLsbD_zero
  rw [rowSums, getLsbD_infoRows (by rwa [List.length_replicate]) ha (fun j k => ((columns 1033 (infoBits lba info)).getD j 0).getLsbD k) _ 0
    (fun t k _ => by rw [Nat.zero_add]), hcols, ← List.range_eq_range', hfold _ _ (fun j hj => List.mem_range.1 hj), hzero]

/-- Parity bit a of block row i closes its row: it is the parity bit before it and the row sum (the dual diagonal). -/
theorem getD_codeword_parity_closes {i a : Nat} (hi : i < 119) (ha : a < 32) :
    (codeword lba info).getD (33056 + 32 * i + a) false =
      ((if 0 < i then (codeword lba info).getD (33056 + 32 * (i - 1) + a) false else false) !=
        ((rowSums lba info).getD i 0).getLsbD a) := by
  rw [getD_codeword_parity hinfo hi ha, getD_parityCols 0 _ (by rwa [length_rowSums])]
  split
  · rw [getD_codeword_parity hinfo (by omega) ha]; simp
  · simp

end Codeword

/-- Settles O33: a parity bit is the exclusive OR of the one before it and its row sum, and the row sum is that of the
information bits that the row names, so that the three cancel. -/
theorem codewordsSatisfyTheParityCheckMatrix : Obligations.CodewordsSatisfyTheParityCheckMatrix := by
  unfold Obligations.CodewordsSatisfyTheParityCheckMatrix
  rintro lba info i a _ hinfo hi ha rfl
  refine ⟨length_codeword hinfo, ?_⟩
  have hsum := getLsbD_rowSums (lba := lba) hinfo hi ha
  have hclose := getD_codeword_parity_closes (lba := lba) hinfo hi ha
  rw [hsum] at hclose
  have hstart := foldl_xor_start (tapColumn_start (fun j k => (codeword lba info).getD (32 * j + k) false) i a) (List.range 1033)
  refine (hstart _).trans ?_
  rw [hclose]
  cases (if 0 < i then (codeword lba info).getD (33056 + 32 * (i - 1) + a) false else false) <;> simp

end Sys2Proof.Proofs

/-! PROOFS. Chapter 13, the Range Match Engine's lookups: what the first match of a key is, and over which LBAs RUN keeps it. -/

namespace Sys2Proof.Proofs

open Sys2Proof Sys2Proof.Machine

/-! ### Key ranges -/

theorem rmeSize_pos (e : RmeEnt) : 0 < rmeSize e := Nat.two_pow_pos _

theorem rmeCovers_iff {e : RmeEnt} {x : Nat} : rmeCovers e x = true ↔ rmeStart e ≤ x ∧ x < rmeStart e + rmeSize e := by
  have h := Nat.div_eq_iff (x := x) (y := e.key / rmeSize e) (rmeSize_pos e)
  have hpos := rmeSize_pos e
  rw [rmeCovers, beq_iff_eq, h, rmeStart]
  omega

theorem rmeCovers_rmeStart (e : RmeEnt) : rmeCovers e (rmeStart e) = true :=
  rmeCovers_iff.2 ⟨Nat.le_refl _, Nat.lt_add_of_pos_right (rmeSize_pos e)⟩

/-- Entries of one length that cover one LBA have one key range. -/
theorem rmeStart_eq_of_rmeCovers {e f : RmeEnt} {x : Nat} (hlen : e.len = f.len) (he : rmeCovers e x = true)
    (hf : rmeCovers f x = true) : rmeStart e = rmeStart f := by
  have hsize : rmeSize e = rmeSize f := by rw [rmeSize, rmeSize, hlen]
  rw [rmeCovers, beq_iff_eq] at he hf
  rw [rmeStart, rmeStart, ← he, ← hf, hsize]

/-! ### The entries of a channel -/

/-- The entries of one channel with their indexes rising, as a lookup meets them. -/
def ChannelOrder (w : Bool) (l : List (Nat × RmeEnt)) : Prop :=
  (∀ c ∈ l, c.2.window = w) ∧ l.Pairwise (fun c d => c.1 < d.1)

theorem pairwise_of_wfFrom {α : Type} [DecidableEq α] {d : Nat → α} {b : Nat} {m : List (Nat × α)}
    (h : Sparse.wfFrom d b m = true) : (∀ c ∈ m, b ≤ c.1) ∧ m.Pairwise (fun c e => c.1 < e.1) := by
  induction m generalizing b with
  | nil => simp
  | cons c m ih =>
    simp only [Sparse.wfFrom, Bool.and_eq_true, decide_eq_true_eq] at h
    obtain ⟨⟨hb, _⟩, hm⟩ := h
    obtain ⟨hlow, hpair⟩ := ih hm
    refine ⟨?_, List.pairwise_cons.2 ⟨hlow, hpair⟩⟩
    intro e he
    rcases List.mem_cons.1 he with rfl | he
    · exact hb
    · exact Nat.le_trans hb (Nat.le_of_succ_le (hlow e he))

theorem mem_rmeEntries {s : State} {w : Bool} {p : Nat} {c : Nat × RmeEnt} (h : c ∈ rmeEntries s w p) :
    (c.1, some c.2) ∈ s.rme.ents ∧ c.2.window = w := by
  obtain ⟨⟨i, o⟩, hmem, hc⟩ := List.mem_filterMap.1 h
  cases o with
  | none => simp at hc
  | some e =>
    simp only [Option.ite_none_right_eq_some, Bool.and_eq_true, beq_iff_eq, Option.some.injEq] at hc
    obtain ⟨⟨hw, _⟩, rfl⟩ := hc
    exact ⟨hmem, hw⟩

theorem channelOrder_rmeEntries {s : State} (h : Sparse.wf (fun _ => (none : Option RmeEnt)) s.rme.ents = true) (w : Bool) (p : Nat) :
    ChannelOrder w (rmeEntries s w p) := by
  refine ⟨fun c hc => (mem_rmeEntries hc).2, ?_⟩
  refine List.Pairwise.filterMap _ ?_ (pairwise_of_wfFrom h).2
  rintro ⟨i, o⟩ ⟨j, q⟩ hij c hc d hd
  have hfst : ∀ {k : Nat} {r : Option RmeEnt} {b : Nat × RmeEnt}, (match r with
      | some e => if e.window == w && (!w || e.party == p) then some (k, e) else none
      | none => none) = some b → b.1 = k := by
    intro k r b hb
    cases r with
    | none => simp at hb
    | some e =>
      simp only [Option.ite_none_right_eq_some, Option.some.injEq] at hb
      obtain ⟨_, rfl⟩ := hb
      rfl
  rw [hfst hc, hfst hd]
  exact hij

theorem eq_of_index_eq {w : Bool} {l : List (Nat × RmeEnt)} (hl : ChannelOrder w l) {c d : Nat × RmeEnt} (hc : c ∈ l) (hd : d ∈ l)
    (h : c.1 = d.1) : c = d := by
  have hpair := hl.2
  clear hl
  induction l with
  | nil => cases hc
  | cons x l ih =>
    obtain ⟨hx, hpl⟩ := List.pairwise_cons.1 hpair
    rcases List.mem_cons.1 hc with rfl | hcl
    · rcases List.mem_cons.1 hd with rfl | hdl
      · rfl
      · exact absurd h (Nat.ne_of_lt (hx d hdl))
    · rcases List.mem_cons.1 hd with rfl | hdl
      · exact absurd h.symm (Nat.ne_of_lt (hx c hcl))
      · exact ih hcl hdl hpl

/-! ### The first match -/

/-- What a lookup ranks entries by: the priority on the window channel, the length of the match on the defect channel. -/
def rmeScore (w : Bool) (c : Nat × RmeEnt) : Nat := if w then c.2.prio else c.2.len

/-- The best of a list's entries: the highest rank, and of those the lowest index. -/
def BestOf (w : Bool) (l : List (Nat × RmeEnt)) (h : Nat × RmeEnt) : Prop :=
  h ∈ l ∧ ∀ c ∈ l, c = h ∨ rmeScore w c < rmeScore w h ∨ (rmeScore w c = rmeScore w h ∧ h.1 < c.1)

/-- What a lookup keeps of the best match so far and the next one. -/
def betterOf (b : Option (Nat × RmeEnt)) (c : Nat × RmeEnt) : Option (Nat × RmeEnt) :=
  match b with
  | some d => if rmeBefore c d then some c else b
  | none => some c

theorem rmeFirst_eq (l : List (Nat × RmeEnt)) (x : Nat) :
    rmeFirst l x = (l.filter fun c => rmeCovers c.2 x).foldl betterOf none := rfl

theorem rmeBefore_of_score_lt {w : Bool} {c d : Nat × RmeEnt} (hc : c.2.window = w) (h : rmeScore w d < rmeScore w c) :
    rmeBefore c d = true := by
  rw [rmeBefore, hc]
  cases w
  · simpa [rmeScore] using h
  · have hprio : d.2.prio < c.2.prio := h
    simp [hprio]

theorem rmeBefore_of_index_lt {c d : Nat × RmeEnt} (hc : c.2.window = true) (hs : rmeScore true c = rmeScore true d)
    (hi : c.1 < d.1) : rmeBefore c d = true := by
  have hprio : c.2.prio = d.2.prio := hs
  simp [rmeBefore, hc, hprio, hi]

theorem score_of_rmeBefore {w : Bool} {c d : Nat × RmeEnt} (hc : c.2.window = w) (h : rmeBefore c d = true) :
    rmeScore w d < rmeScore w c ∨ (rmeScore w d = rmeScore w c ∧ c.1 < d.1) := by
  rw [rmeBefore, hc] at h
  cases w with
  | false => exact .inl (by simpa [rmeScore] using h)
  | true =>
    simp only [if_true, Bool.or_eq_true, Bool.and_eq_true, decide_eq_true_eq, beq_iff_eq] at h
    rcases h with h | ⟨h, hi⟩
    · exact .inl h
    · exact .inr ⟨h.symm, hi⟩

/-- The induction along which a lookup meets the entries: one more at the end. -/
theorem snoc_induction {α : Type} {motive : List α → Prop} (nil : motive []) (snoc : ∀ l x, motive l → motive (l ++ [x]))
    (l : List α) : motive l := by
  rw [← List.reverse_reverse l]
  induction l.reverse with
  | nil => exact nil
  | cons x l ih => rw [List.reverse_cons]; exact snoc _ _ ih

theorem foldl_betterOf {w : Bool} {l : List (Nat × RmeEnt)} (hl : ChannelOrder w l) :
    (l = [] ∧ l.foldl betterOf none = none) ∨ ∃ h, l.foldl betterOf none = some h ∧ BestOf w l h := by
  induction l using snoc_induction with
  | nil => exact .inl ⟨rfl, rfl⟩
  | snoc l c ih =>
    obtain ⟨hwin, hpair⟩ := hl
    obtain ⟨hpl, _, hlast⟩ := List.pairwise_append.1 hpair
    have hcw : c.2.window = w := hwin c (by simp)
    have hlt : ∀ d ∈ l, d.1 < c.1 := fun d hd => hlast d hd c (by simp)
    right
    rw [List.foldl_append, List.foldl_cons, List.foldl_nil]
    rcases ih ⟨fun d hd => hwin d (by simp [hd]), hpl⟩ with ⟨rfl, hfold⟩ | ⟨h, hfold, hmem, hbest⟩
    · exact ⟨c, rfl, by simp, by simp⟩
    · rw [hfold]
      have hidx := hlt h hmem
      by_cases hb : rmeBefore c h = true
      · have hscore : rmeScore w h < rmeScore w c := by
          rcases score_of_rmeBefore hcw hb with hs | ⟨_, hi⟩
          · exact hs
          · omega
        refine ⟨c, if_pos hb, by simp, fun d hd => ?_⟩
        rcases List.mem_append.1 hd with hd | hd
        · rcases hbest d hd with rfl | hs | ⟨hs, _⟩ <;> omega
        · exact .inl (List.mem_singleton.1 hd)
      · have hscore : rmeScore w c ≤ rmeScore w h := Nat.not_lt.1 fun hs => hb (rmeBefore_of_score_lt hcw hs)
        refine ⟨h, if_neg hb, by simp [hmem], fun d hd => ?_⟩
        rcases List.mem_append.1 hd with hd | hd
        · exact hbest d hd
        · rw [List.mem_singleton.1 hd]; omega

section FirstMatch

variable {w : Bool} {l : List (Nat × RmeEnt)} (hl : ChannelOrder w l)

include hl

theorem channelOrder_filter (p : Nat × RmeEnt → Bool) : ChannelOrder w (l.filter p) :=
  ⟨fun c hc => hl.1 c ((List.mem_filter.1 hc).1), hl.2.filter p⟩

theorem rmeFirst_eq_none_iff {x : Nat} : rmeFirst l x = none ↔ ∀ c ∈ l, rmeCovers c.2 x = false := by
  rw [rmeFirst_eq]
  rcases foldl_betterOf (channelOrder_filter hl fun c => rmeCovers c.2 x) with ⟨hnil, hfold⟩ | ⟨h, hfold, hmem, _⟩
  · rw [hfold]
    simpa [List.filter_eq_nil_iff] using hnil
  · obtain ⟨hml, hcov⟩ := List.mem_filter.1 hmem
    rw [hfold]
    exact ⟨fun hn => by simp at hn, fun hn => by simp [hn h hml] at hcov⟩

theorem rmeFirst_eq_some_iff {x : Nat} {h : Nat × RmeEnt} :
    rmeFirst l x = some h ↔ BestOf w (l.filter fun c => rmeCovers c.2 x) h := by
  rw [rmeFirst_eq]
  rcases foldl_betterOf (channelOrder_filter hl fun c => rmeCovers c.2 x) with ⟨hnil, hfold⟩ | ⟨d, hfold, hmem, hbest⟩
  · rw [hfold, hnil]
    simp [BestOf]
  · rw [hfold, Option.some.injEq]
    constructor
    · rintro rfl; exact ⟨hmem, hbest⟩
    · rintro ⟨hmem', hbest'⟩
      rcases hbest h hmem' with h1 | h1
      · exact h1.symm
      · rcases hbest' d hmem with h2 | h2
        · exact h2
        · omega

end FirstMatch

/-! ### RUN -/

/-- The entries that may change the outcome above an LBA: those that begin above it and, where it has a match, come before it. -/
def laterBetter (l : List (Nat × RmeEnt)) (x : Nat) (hit : Option (Nat × RmeEnt)) : List (Nat × RmeEnt) :=
  l.filter fun (c : Nat × RmeEnt) => decide (x < rmeStart c.2) && (match hit with
    | some h => rmeBefore c h
    | none => true)

/-- The end of what one outcome can reach: the match's own range, or the LBA space. -/
def outcomeStop (hit : Option (Nat × RmeEnt)) : Nat :=
  match hit with
  | some h => rmeStart h.2 + rmeSize h.2
  | none => 2 ^ 48

/-- The first LBA above x at which the outcome changes. -/
def outcomeEnd (l : List (Nat × RmeEnt)) (x : Nat) (hit : Option (Nat × RmeEnt)) : Nat :=
  (laterBetter l x hit).foldl (fun n (c : Nat × RmeEnt) => Nat.min n (rmeStart c.2)) (outcomeStop hit)

theorem rmeRun_eq (l : List (Nat × RmeEnt)) (x : Nat) (hit : Option (Nat × RmeEnt)) :
    rmeRun l x hit = min (2 ^ 32 - 1) (outcomeEnd l x hit - x) := by
  cases hit <;> rfl

theorem foldl_min_le {α : Type} (f : α → Nat) (l : List α) (n : Nat) :
    l.foldl (fun n c => Nat.min n (f c)) n ≤ n ∧ ∀ c ∈ l, l.foldl (fun n c => Nat.min n (f c)) n ≤ f c := by
  induction l generalizing n with
  | nil => simp
  | cons c l ih =>
    obtain ⟨hn, hall⟩ := ih (Nat.min n (f c))
    refine ⟨Nat.le_trans hn (Nat.min_le_left _ _), fun d hd => ?_⟩
    rcases List.mem_cons.1 hd with rfl | hd
    · exact Nat.le_trans hn (Nat.min_le_right _ _)
    · exact hall d hd

theorem foldl_min_mem {α : Type} (f : α → Nat) (l : List α) (n : Nat) :
    l.foldl (fun n c => Nat.min n (f c)) n = n ∨ ∃ c ∈ l, l.foldl (fun n c => Nat.min n (f c)) n = f c := by
  induction l generalizing n with
  | nil => exact .inl rfl
  | cons c l ih =>
    rw [List.foldl_cons]
    rcases ih (Nat.min n (f c)) with h | ⟨d, hd, h⟩
    · rw [h]
      rcases Nat.le_total n (f c) with hle | hle
      · exact .inl (Nat.min_eq_left hle)
      · exact .inr ⟨c, by simp, Nat.min_eq_right hle⟩
    · exact .inr ⟨d, by simp [hd], h⟩

theorem mem_laterBetter {l : List (Nat × RmeEnt)} {x : Nat} {hit : Option (Nat × RmeEnt)} {c : Nat × RmeEnt} :
    c ∈ laterBetter l x hit ↔ c ∈ l ∧ x < rmeStart c.2 ∧ ∀ h, hit = some h → rmeBefore c h = true := by
  cases hit <;> simp [laterBetter]

section Run

variable {w : Bool} {l : List (Nat × RmeEnt)} (hl : ChannelOrder w l)

include hl

/-- Below the outcome's end an LBA that has no match is followed by such LBAs. -/
theorem rmeFirst_none_of_lt_outcomeEnd {x y : Nat} (hx : rmeFirst l x = none) (hxy : x ≤ y) (hy : y < outcomeEnd l x none) :
    rmeFirst l y = none := by
  rw [rmeFirst_eq_none_iff hl] at hx ⊢
  intro c hc
  refine Bool.eq_false_iff.2 fun hcov => ?_
  obtain ⟨hlo, hhi⟩ := rmeCovers_iff.1 hcov
  rcases Nat.lt_or_ge x (rmeStart c.2) with hlt | hge
  · have := (foldl_min_le (fun c : Nat × RmeEnt => rmeStart c.2) (laterBetter l x none) (outcomeStop none)).2 c
      (mem_laterBetter.2 ⟨hc, hlt, by simp⟩)
    exact absurd (Nat.lt_of_lt_of_le hy this) (by omega)
  · have := hx c hc
    rw [rmeCovers_iff.2 ⟨hge, by omega⟩] at this
    exact Bool.noConfusion this

/-- Below the outcome's end a match stays the first: its range reaches on, and no better entry has begun. -/
theorem rmeFirst_some_of_lt_outcomeEnd {x y : Nat} {h : Nat × RmeEnt} (hx : rmeFirst l x = some h) (hxy : x ≤ y)
    (hy : y < outcomeEnd l x (some h)) : rmeFirst l y = some h := by
  rw [rmeFirst_eq_some_iff hl] at hx ⊢
  obtain ⟨hmem, hbest⟩ := hx
  obtain ⟨hml, hcov⟩ := List.mem_filter.1 hmem
  obtain ⟨hstop, hothers⟩ := foldl_min_le (fun c : Nat × RmeEnt => rmeStart c.2) (laterBetter l x (some h)) (outcomeStop (some h))
  have hylt : y < rmeStart h.2 + rmeSize h.2 := Nat.lt_of_lt_of_le hy hstop
  have hcovy : rmeCovers h.2 y = true := rmeCovers_iff.2 ⟨Nat.le_trans (rmeCovers_iff.1 hcov).1 hxy, hylt⟩
  refine ⟨List.mem_filter.2 ⟨hml, hcovy⟩, fun c hc => ?_⟩
  obtain ⟨hcl, hcy⟩ := List.mem_filter.1 hc
  obtain ⟨hlo, hhi⟩ := rmeCovers_iff.1 hcy
  rcases Nat.lt_or_ge x (rmeStart c.2) with hlt | hge
  · have hnot : rmeBefore c h ≠ true := fun hb => by
      have := hothers c (mem_laterBetter.2 ⟨hcl, hlt, by rintro _ ⟨⟩; exact hb⟩)
      exact absurd (Nat.lt_of_lt_of_le hy this) (by omega)
    have hscore : rmeScore w c ≤ rmeScore w h := Nat.not_lt.1 fun hs => hnot (rmeBefore_of_score_lt (hl.1 c hcl) hs)
    rcases Nat.lt_or_eq_of_le hscore with hs | hs
    · exact .inr (.inl hs)
    cases w with
    | false =>
      have := rmeStart_eq_of_rmeCovers (by simpa [rmeScore] using hs) hcy hcovy
      have := (rmeCovers_iff.1 hcov).1
      omega
    | true =>
      have hidx : h.1 ≤ c.1 := Nat.not_lt.1 fun hi => hnot (rmeBefore_of_index_lt (hl.1 c hcl) hs hi)
      rcases Nat.lt_or_eq_of_le hidx with hi | hi
      · exact .inr (.inr ⟨hs, hi⟩)
      · exact .inl (eq_of_index_eq hl hcl hml hi.symm)
  · exact hbest c (List.mem_filter.2 ⟨hcl, rmeCovers_iff.2 ⟨hge, by omega⟩⟩)

/-- At the outcome's end the outcome changes: the match's range ends, or a better entry begins. -/
theorem rmeFirst_outcomeEnd_ne {x : Nat} {hit : Option (Nat × RmeEnt)} (h48 : hit ≠ none ∨ outcomeEnd l x hit < 2 ^ 48) :
    rmeFirst l (outcomeEnd l x hit) ≠ hit := by
  intro heq
  rcases foldl_min_mem (fun c : Nat × RmeEnt => rmeStart c.2) (laterBetter l x hit) (outcomeStop hit) with hend | ⟨c, hc, hend⟩
  · cases hit with
    | none =>
      rcases h48 with h48 | h48
      · exact h48 rfl
      · exact absurd (show outcomeEnd l x none = 2 ^ 48 from hend) (Nat.ne_of_lt h48)
    | some h =>
      obtain ⟨hmem, _⟩ := (rmeFirst_eq_some_iff hl).1 heq
      have hcov := (rmeCovers_iff.1 (List.mem_filter.1 hmem).2).2
      exact absurd hcov (Nat.not_lt.2 (Nat.le_of_eq (show rmeStart h.2 + rmeSize h.2 = outcomeEnd l x (some h) from hend.symm)))
  · obtain ⟨hcl, _, hbefore⟩ := mem_laterBetter.1 hc
    have hcov : rmeCovers c.2 (outcomeEnd l x hit) = true := by
      rw [show outcomeEnd l x hit = rmeStart c.2 from hend]
      exact rmeCovers_rmeStart c.2
    cases hit with
    | none => simp [(rmeFirst_eq_none_iff hl).1 heq c hcl] at hcov
    | some h =>
      obtain ⟨_, hbest⟩ := (rmeFirst_eq_some_iff hl).1 heq
      have hb := hbefore h rfl
      rcases score_of_rmeBefore (hl.1 c hcl) hb, hbest c (List.mem_filter.2 ⟨hcl, hcov⟩) with
        ⟨hs | ⟨hs, hi⟩, rfl | ht | ⟨ht, hj⟩⟩ <;> omega

end Run

theorem lt_outcomeEnd {w : Bool} {l : List (Nat × RmeEnt)} (hl : ChannelOrder w l) {x : Nat} (hx : x < 2 ^ 48) :
    x < outcomeEnd l x (rmeFirst l x) := by
  have hstop : x < outcomeStop (rmeFirst l x) := by
    cases hfirst : rmeFirst l x with
    | none => exact hx
    | some h =>
      obtain ⟨hmem, _⟩ := (rmeFirst_eq_some_iff hl).1 hfirst
      exact (rmeCovers_iff.1 (List.mem_filter.1 hmem).2).2
  rcases foldl_min_mem (fun c : Nat × RmeEnt => rmeStart c.2) (laterBetter l x (rmeFirst l x)) (outcomeStop (rmeFirst l x)) with
    hend | ⟨c, hc, hend⟩
  · exact Nat.lt_of_lt_of_eq hstop hend.symm
  · exact Nat.lt_of_lt_of_eq (mem_laterBetter.1 hc).2.1 hend.symm

/-- Settles O40: RUN reaches to the first LBA at which the match's range ends or a better entry begins, unless it saturates. -/
theorem runKeepsTheOutcome : Obligations.RunKeepsTheOutcome := by
  unfold Obligations.RunKeepsTheOutcome
  rintro s w p x y _ _ hwf hx rfl rfl
  have hl := channelOrder_rmeEntries hwf w p
  have hlt := lt_outcomeEnd hl hx
  generalize rmeEntries s w p = l at hl hlt
  rw [rmeRun_eq]
  constructor
  · intro hxy hy
    have hy' : y < outcomeEnd l x (rmeFirst l x) := by omega
    cases hfirst : rmeFirst l x with
    | none => exact rmeFirst_none_of_lt_outcomeEnd hl hfirst hxy (hfirst ▸ hy')
    | some h => exact rmeFirst_some_of_lt_outcomeEnd hl hfirst hxy (hfirst ▸ hy')
  · intro hrun h48
    have hend : x + min (2 ^ 32 - 1) (outcomeEnd l x (rmeFirst l x) - x) = outcomeEnd l x (rmeFirst l x) := by omega
    rw [hend] at h48 ⊢
    exact rmeFirst_outcomeEnd_ne hl h48

end Sys2Proof.Proofs

/-! PROOFS. Chapter 6, the slots of the Moraine log: what each phase of a program leaves in one. -/

namespace Sys2Proof.Proofs

open Sys2Proof Sys2Proof.Machine Sys2Proof.Laws

/-! ### Pieces of a joined string -/

theorem slice_append_of_le {b x : List Byte} {k n : Nat} (h : k + n ≤ b.length) : slice (b ++ x) k n = slice b k n := by
  simp only [slice]
  rw [List.drop_append_of_le_length (by omega), List.take_append_of_le_length (by rw [List.length_drop]; omega)]

theorem slice_append_beyond {b x : List Byte} {k n : Nat} (h : b.length ≤ k) : slice (b ++ x) k n = slice x (k - b.length) n := by
  simp only [slice]
  rw [List.drop_append, List.drop_eq_nil_of_le h, List.nil_append]

/-! ### The class of a body with the bytes that follow it -/

/-- A slot whose body has the magic and a good BCRC is classed by its SIGNED flag and its last 112 bytes (Table 6.3). -/
theorem slotClass_of_good_body {body tail : List Byte} (hlen : body.length = 400) (htail : tail.length = 112)
    (hmagic : slice body 0 4 = [0x4E, 0x52, 0x4F, 0x4D]) (hcrc : leNat (slice body 0x18C 4) = crc32c (slice body 0 0x18C)) :
    slotClass (body ++ tail) =
      if leNat (slice body 6 2) % 2 = 0 ∧ tail.all (· == 0) then .valid
      else if leNat (slice body 6 2) % 2 = 1 ∧ leNat (slice tail 96 4) = crc32c (slice tail 0 96) then .valid
      else if leNat (slice body 6 2) % 2 = 1 ∧ tail.all (· == 0xFF) then .pending
      else .sigtorn := by
  have hhead : body.head? = some 0x4E := by
    cases body with
    | nil => simp at hlen
    | cons b l => simpa [slice] using (List.cons.inj hmagic).1
  have hnot : (body ++ tail).all (· == 0xFF) = false := by
    cases body with
    | nil => simp at hlen
    | cons b l =>
      obtain rfl : b = 0x4E := by simpa using hhead
      rfl
  have hbody : ∀ k n, k + n ≤ 400 → slice (body ++ tail) k n = slice body k n :=
    fun k n h => slice_append_of_le (hlen ▸ h)
  have hafter : ∀ k n, 400 ≤ k → slice (body ++ tail) k n = slice tail (k - 400) n :=
    fun k n h => by rw [slice_append_beyond (hlen ▸ h), hlen]
  have hall : slice tail 0 112 = tail := by simpa [htail] using slice_append_left tail []
  have hword : leNat (slice body 0 4) = 0x4D4F524E := by rw [hmagic]; decide
  rw [slotClass, hnot, hbody 6 2 (by decide), hbody 0 4 (by decide), hbody 0x18C 4 (by decide), hbody 0 0x18C (by decide),
    hafter 0x190 112 (by decide), hafter 0x1F0 4 (by decide), hafter 0x190 96 (by decide), hall, if_neg Bool.false_ne_true,
    if_neg (by simp [hword, hcrc])]

theorem length_phase2Image (sig : List Byte) : (phase2Image sig).length = 112 := by
  simp [phase2Image, slice_length, leBytes_length, zeros]

/-- The signature bytes of phase 2 end in their own CRC. -/
theorem phase2Image_crc (sig : List Byte) :
    leNat (slice (phase2Image sig) 96 4) = crc32c (slice (phase2Image sig) 0 96) := by
  have h := crc32c_appended (slice sig 0 96)
  rw [slice_length] at h
  have hlen : (slice sig 0 96 ++ leBytes 4 (crc32c (slice sig 0 96))).length = 100 := by
    rw [List.length_append, slice_length, leBytes_length]
  have hsig : ∀ k n, k + n ≤ 100 →
      slice (phase2Image sig) k n = slice (slice sig 0 96 ++ leBytes 4 (crc32c (slice sig 0 96))) k n :=
    fun k n hk => slice_append_of_le (hlen ▸ hk)
  rwa [hsig 96 4 (by decide), hsig 0 96 (by decide)]

/-- Erased signature bytes are not taken for a signature: their CRC is not all ones. -/
theorem erased_signature_crc_ne :
    leNat (slice (List.replicate 112 (0xFF : Byte)) 96 4) ≠ crc32c (slice (List.replicate 112 (0xFF : Byte)) 0 96) := by
  decide +kernel

/-- Settles O14: the body passes the checks on magic and BCRC, and the last 112 bytes decide. -/
theorem slotsClassifyAsTheTable : Obligations.SlotsClassifyAsTheTable := by
  unfold Obligations.SlotsClassifyAsTheTable
  intro f sig hlen hmagic hcrc
  refine ⟨fun hs hflag => ?_, fun hs hflag => ?_, fun hflag => ?_⟩
  · have hz : (zeros 112).all (· == 0) = true := by decide
    rw [slotImage, hs, if_neg Bool.false_ne_true, slotClass_of_good_body hlen rfl hmagic hcrc, if_pos ⟨hflag, hz⟩]
  · have hz : (List.replicate 112 (0xFF : Byte)).all (· == 0xFF) = true := by decide
    rw [slotImage, hs, if_pos rfl, slotClass_of_good_body hlen rfl hmagic hcrc, if_neg (by omega),
      if_neg (fun h => erased_signature_crc_ne h.2), if_pos ⟨hflag, hz⟩]
  · rw [slotClass_of_good_body hlen (length_phase2Image sig) hmagic hcrc, if_neg (by omega), if_pos ⟨hflag, phase2Image_crc sig⟩]

end Sys2Proof.Proofs

/-! PROOFS. Chapter 9, the position converter: the nominal pattern is read back as the position it was written for. -/

namespace Sys2Proof.Proofs

open Sys2Proof Sys2Proof.Machine

theorem ediv_eq_of_bounds {a b k : Int} (hlo : k * b ≤ a) (hhi : a < k * b + b) : a / b = k := by
  have hb : 0 < b := by omega
  refine Int.le_antisymm (Int.lt_add_one_iff.1 ?_) ((Int.le_ediv_iff_mul_le hb).2 hlo)
  rw [Int.ediv_lt_iff_lt_mul hb, Int.add_mul, Int.one_mul]
  exact hhi

/-- The nearest integer to a quotient that lies less than one half from it. -/
theorem nearest_of_close {a b k : Int} (hlo : -b < 2 * (a - k * b)) (hhi : 2 * (a - k * b) < b) : nearest a b = k := by
  unfold nearest
  split
  · refine ediv_eq_of_bounds ?_ ?_ <;> rw [Int.mul_left_comm] <;> omega
  · rw [ediv_eq_of_bounds (k := -k) (b := 2 * b), Int.neg_neg] <;> rw [Int.neg_mul k, Int.mul_left_comm k] <;> omega

/-- The pattern at a position: q is 2^20, and each pair's difference is 32 times the distance from its centre. -/
theorem convert_pattern (n x z : Int) : convert (573440 + x) (835584 - x) (1097728 + z) (1359872 - z) n 0x4000 =
    { q := 1048576, ab := 32 * x, cd := 32 * z
      num := (if absI (32 * x) ≤ absI (32 * z) then 2 * nearest (n * 1048576 - 32 * x) 2097152
        else 2 * nearest ((n - 1) * 1048576 - 32 * z) 2097152 + 1) * 1048576 * 16384 +
          (if absI (32 * x) ≤ absI (32 * z) then 32 * x else 32 * z) * 0x4000
      den := 1048576 * 16384 } := by
  have hq : 1097728 + z + (1359872 - z) - (573440 + x) - (835584 - x) = 1048576 := by omega
  have hab : 4194304 - 16 * (835584 - x - (573440 + x)) = 32 * x := by omega
  have hcd : 4194304 - 16 * (1359872 - z - (1097728 + z)) = 32 * z := by omega
  simp only [convert, hq, decide_eq_true_eq, Int.reduceMul, hab, hcd]

/-- Either pair's centre and distance give the written position. -/
theorem convert_pattern_num {n0 n x z : Int} (hn0 : n0 % 2 = 0) (hz : z = if 0 ≤ x then x - 32768 else x + 32768)
    (hlo : -32768 < n * 32768 - n0 * 32768 - x) (hhi : n * 32768 - n0 * 32768 - x < 32768) :
    (convert (573440 + x) (835584 - x) (1097728 + z) (1359872 - z) n 0x4000).num = (n0 * 32768 + x) * 524288 := by
  rw [convert_pattern]
  simp only
  split
  · rw [nearest_of_close (k := n0 / 2)] <;> omega
  · split at hz
    · rw [nearest_of_close (k := n0 / 2)] <;> omega
    · rw [nearest_of_close (k := n0 / 2 - 1)] <;> omega

/-- Settles O23: the number is exact whichever pair is chosen, and no cause of a miss applies. -/
theorem conversionRecoversTheWrittenPosition : Obligations.ConversionRecoversTheWrittenPosition := by
  unfold Obligations.ConversionRecoversTheWrittenPosition
  intro n0 n x z hn0 hxlo hxhi hz hlo hhi
  have hnum := convert_pattern_num hn0 hz hlo hhi
  refine ⟨_, rfl, ?_, by rw [convert_pattern]; exact (by decide : (0 : Int) < 1048576 * 16384), ?_⟩
  · have hsum : absI (32 * x) + absI (32 * z) = 1048576 := by
      unfold absI
      split at hz <;> split <;> split <;> omega
    have hfar : ¬ (1048576 * 16384 < absI (n * (1048576 * 16384) - (n0 * 32768 + x) * 524288)) := by
      unfold absI
      split <;> omega
    rw [convert_pattern] at hnum ⊢
    simp only at hnum
    simp only [convCause, hnum, hsum, if_neg hfar]
    decide
  · rw [hnum, convert_pattern]
    simp only
    omega

end Sys2Proof.Proofs

/-! PROOFS. Chapter 11, the bits of the track: where a data bit lies between the servo fields. -/

namespace Sys2Proof.Proofs

open Sys2Proof Sys2Proof.Machine

theorem spanLen_eq (k : Nat) : spanLen k = 30 * (k : Int) - 96 := rfl

/-- A data bit's place after its servo field. -/
theorem revBit_sub_emod {k : Nat} (hk : 1024 ≤ k) (f : Int) (d : Nat) :
    (revBit k f d - f) % (32 * k) = 2 * k + 48 + d % spanLen k := by
  have hspan := spanLen_eq k
  have hlo := Int.emod_nonneg (d : Int) (show spanLen k ≠ 0 by omega)
  have hhi := Int.emod_lt_of_pos (d : Int) (show 0 < spanLen k by omega)
  have hsplit : revBit k f d - f = 2 * k + 48 + d % spanLen k + 32 * k * (d / spanLen k) := by
    unfold revBit
    omega
  rw [hsplit, Int.add_mul_emod_self_left, Int.emod_eq_of_lt] <;> omega

/-- Settles O32: within a wedge the place of a data bit rises with it, and the next wedge begins 32K bits on. -/
theorem dataBitsAvoidServoFields : Obligations.DataBitsAvoidServoFields := by
  unfold Obligations.DataBitsAvoidServoFields
  intro k f d e hk _ hde
  have hspan := spanLen_eq k
  have hpos : 0 < spanLen k := by omega
  have hdlo := Int.emod_nonneg (d : Int) (Int.ne_of_gt hpos)
  have hdhi := Int.emod_lt_of_pos (d : Int) hpos
  have helo := Int.emod_nonneg (e : Int) (Int.ne_of_gt hpos)
  refine ⟨?_, ?_, ?_⟩
  · rw [revBit_sub_emod hk]; omega
  · rw [revBit_sub_emod hk]; omega
  · have hd := Int.mul_ediv_add_emod d (spanLen k)
    have he := Int.mul_ediv_add_emod e (spanLen k)
    have hquot : (d : Int) / spanLen k ≤ e / spanLen k := Int.ediv_le_ediv hpos (by omega)
    unfold revBit
    rcases Int.lt_or_eq_of_le hquot with hlt | heq
    · have hstep := Int.mul_le_mul_of_nonneg_left (Int.add_one_le_of_lt hlt) (show (0 : Int) ≤ 32 * k by omega)
      rw [Int.mul_add, Int.mul_one] at hstep
      omega
    · rw [heq] at hd ⊢
      omega

end Sys2Proof.Proofs

/-! PROOFS. Facts that several chapters use: sparse maps by membership, folds that keep a part of the state, and the stores of
a core that runs gated. -/

namespace Sys2Proof.Proofs

open Sys2Proof Sys2Proof.Machine

/-! ### Sparse maps -/

section Sparse

variable {α : Type} [DecidableEq α] {d : Nat → α}

/-- A pair of a map in canonical form is what its key reads as. -/
theorem read_of_mem {b k : Nat} {v : α} {m : List (Nat × α)} (h : Sparse.wfFrom d b m = true) (hmem : (k, v) ∈ m) :
    Sparse.read d m k = v ∧ b ≤ k := by
  induction m generalizing b with
  | nil => simp at hmem
  | cons c m ih =>
    obtain ⟨j, w⟩ := c
    simp only [Sparse.wfFrom, Bool.and_eq_true, decide_eq_true_eq] at h
    obtain ⟨⟨hb, _⟩, hm⟩ := h
    rcases List.mem_cons.1 hmem with heq | hmem
    · cases heq
      exact ⟨by simp [Sparse.read], hb⟩
    · obtain ⟨hread, hle⟩ := ih hm hmem
      have hne : k ≠ j := by omega
      have hlt : ¬ k < j := by omega
      simp only [Sparse.read, hne, hlt, if_false]
      exact ⟨hread, by omega⟩

omit [DecidableEq α] in
/-- What a key reads as is a pair of the map, unless it is the default. -/
theorem mem_of_read_ne {k : Nat} {m : List (Nat × α)} (h : Sparse.read d m k ≠ d k) : (k, Sparse.read d m k) ∈ m := by
  induction m with
  | nil => exact absurd rfl h
  | cons c m ih =>
    obtain ⟨j, w⟩ := c
    simp only [Sparse.read] at h ⊢
    split at h
    · next hk => simp [hk]
    · next hk =>
      split at h
      · exact absurd rfl h
      · next hlt =>
        simp only [hk, hlt, if_false]
        exact List.mem_cons_of_mem _ (ih h)

theorem tabGet_of_mem {t : Tab α} {v d : α} {k : Nat} (h : Sparse.wf (fun _ => d) t = true) (hmem : (k, v) ∈ t) : tabGet t d k = v :=
  (read_of_mem h hmem).1

theorem mem_of_tabGet_ne {t : Tab α} {d : α} {k : Nat} (h : tabGet t d k ≠ d) : (k, tabGet t d k) ∈ t := mem_of_read_ne h

end Sparse

/-! ### Folds over the state -/

/-- What every step of a fold keeps, the fold keeps. -/
theorem each_keeps {α β : Type} (part : State → β) {f : α → State → State} (hf : ∀ x u, part (f x u) = part u) (l : List α) (s : State) :
    part (State.each f l s) = part s := by
  induction l generalizing s with
  | nil => rfl
  | cons x l ih => exact (ih (f x s)).trans (hf x s)

theorem foldl_keeps {α β γ : Type} (part : β → γ) {f : β → α → β} (hf : ∀ a x, part (f a x) = part a) (l : List α) (a : β) :
    part (l.foldl f a) = part a := by
  induction l generalizing a with
  | nil => rfl
  | cons x l ih => exact (ih (f a x)).trans (hf a x)

/-- What both branches keep, a conditional keeps. -/
theorem ite_keeps {β : Type} (part : State → β) {c : Prop} [Decidable c] {a b : State} {x : β} (ha : part a = x) (hb : part b = x) :
    part (if c then a else b) = x := by
  split <;> assumption

/-- What every step of a fold keeps true, the fold keeps true. -/
theorem each_induction {α : Type} {P : State → Prop} {f : α → State → State} {l : List α} {s : State} (hs : P s)
    (hf : ∀ x ∈ l, ∀ u, P u → P (f x u)) : P (State.each f l s) := by
  induction l generalizing s with
  | nil => exact hs
  | cons x l ih => exact ih (hf x (by simp) s hs) fun y hy => hf y (by simp [hy])

/-! ### The stores of a core that runs gated (R125, R126) -/

section Held

variable {s : State} {m : Master} {c : Nat}

theorem stall_of_gateIdx (hc : gateIdx m = some c) (b : Bool) (w : Nat) : s.stall m b w =
    ({ s with sst := { s.sst with waits := tabPut s.sst.waits 0 c w } } : State).putB (F.SST_HSQ_STALL c) b := by
  rw [State.stall, hc]

/-- A stall touches nothing but the core's wait and its STALL bit. -/
theorem stall_frame (s : State) (m : Master) (b : Bool) (w : Nat) : { s.stall m b w with regs := s.regs, sst := s.sst } = s := by
  unfold State.stall
  split <;> rfl

theorem setHsq_frame (s : State) (c : Nat) (l : List HeldStore) : { s.setHsq c l with regs := s.regs, sst := s.sst } = s := by
  unfold State.setHsq
  simp only
  split <;> rfl

/-- A held store touches nothing but the queue, the core's wait and SST_HSQ. -/
theorem hold_frame (s : State) (m : Master) (c a w v : Nat) : { s.hold m c a w v with regs := s.regs, sst := s.sst } = s := by
  unfold State.hold
  split
  · exact stall_frame s m true 0
  · have h := setHsq_frame (s.stall m false 0) c (hsq s c ++ [{ addr := a, width := w, data := v % 256 ^ w }])
    have h' := congrArg (fun u : State => ({ u with regs := s.regs, sst := s.sst } : State)) h
    exact h'.trans (stall_frame s m false 0)

theorem regsWf_stall (hs : s.regsWf = true) (m : Master) (b : Bool) (w : Nat) : (s.stall m b w).regsWf = true := by
  unfold State.stall
  split
  · exact regsWf_put _ _ (s := { s with sst := _ }) hs
  · exact hs

theorem rd_stall_ne (hs : s.regsWf = true) (hc : gateIdx m = some c) {k : Nat} (hk : k ≠ R.SST_HSQ c) (b : Bool) (w : Nat) :
    (s.stall m b w).rd k = s.rd k := by
  rw [stall_of_gateIdx hc]
  exact rd_wr_ne _ (s := { s with sst := _ }) hs hk

theorem rd_setHsq_ne (hs : s.regsWf = true) {k : Nat} (hk : k ≠ R.SST_HSQ c) (l : List HeldStore) : (s.setHsq c l).rd k = s.rd k := by
  have hcount : ∀ t : State, t.regsWf = true → ((t.put (F.SST_HSQ_COUNT c) l.length).rd k = t.rd k) :=
    fun t ht => rd_wr_ne _ ht hk
  unfold State.setHsq
  simp only
  split
  · exact (rd_wr_ne _ (regsWf_put _ _ (s := { s with sst := _ }) hs) hk).trans (hcount { s with sst := _ } hs)
  · exact hcount { s with sst := _ } hs

theorem rd_hold_ne (hs : s.regsWf = true) (hc : gateIdx m = some c) {k : Nat} (hk : k ≠ R.SST_HSQ c) (a w v : Nat) :
    (s.hold m c a w v).rd k = s.rd k := by
  unfold State.hold
  split
  · exact rd_stall_ne hs hc hk true 0
  · exact (rd_setHsq_ne (regsWf_stall hs m false 0) hk _).trans (rd_stall_ne hs hc hk false 0)

theorem gated_sec : gated s .sec = false := rfl

theorem gated_sv : gated s .sv = false := rfl

/-- What a core's command does: it takes effect, or it is held. -/
theorem byCore_cases {a : Nat} {v : Word} {go : State → State} :
    s.byCore m a v go = go s ∨ ∃ c, gateIdx m = some c ∧ gated s m = true ∧ s.byCore m a v go = s.hold m c a 4 v.toNat := by
  unfold State.byCore
  split
  · next c hc =>
    split
    · next hg => exact .inr ⟨c, hc, hg, rfl⟩
    · exact .inl rfl
  · exact .inl rfl

end Held

end Sys2Proof.Proofs

/-! PROOFS. Chapter 13, the window lock: the media ranges of two parties stay apart over every commit. -/

namespace Sys2Proof.Proofs

open Sys2Proof Sys2Proof.Machine

/-! ### What a commit leaves in the table of entries -/

theorem wf_rmeApply {t : RmeTab} (h : Sparse.wf (fun _ => (none : Option RmeEnt)) t = true) (l : List RmeStg) :
    Sparse.wf (fun _ => (none : Option RmeEnt)) (rmeApply t l) = true := by
  unfold rmeApply
  induction l generalizing t with
  | nil => exact h
  | cons x l ih => exact ih (wf_tabPut x.idx x.ent h)

/-- After a batch an index holds what a slot of the batch wrote there, or what it held before. -/
theorem tabGet_rmeApply {t : RmeTab} (h : Sparse.wf (fun _ => (none : Option RmeEnt)) t = true) (l : List RmeStg) (i : Nat) :
    (∃ x ∈ l, x.idx = i ∧ tabGet (rmeApply t l) none i = x.ent) ∨ tabGet (rmeApply t l) none i = tabGet t none i := by
  unfold rmeApply
  induction l generalizing t with
  | nil => exact .inr rfl
  | cons x l ih =>
    rcases ih (wf_tabPut x.idx x.ent h) with ⟨y, hy, hidx, hread⟩ | hread
    · exact .inl ⟨y, by simp [hy], hidx, hread⟩
    · by_cases hi : i = x.idx
      · subst hi
        exact .inl ⟨x, by simp, rfl, hread.trans (tabGet_tabPut_same _ _ h)⟩
      · exact .inr (hread.trans (tabGet_tabPut_ne _ hi h))

/-! ### Overlaps -/

/-- Two window entries of different parties at two indexes, with media ranges that meet. -/
def Overlapping (i j : Nat) (e f : RmeEnt) : Prop :=
  i ≠ j ∧ e.window = true ∧ f.window = true ∧ e.party ≠ f.party ∧ rangesMeet f.base (rmeSize f) e.base (rmeSize e) = true

theorem Overlapping.symm {i j : Nat} {e f : RmeEnt} (h : Overlapping i j e f) : Overlapping j i f e := by
  obtain ⟨hij, he, hf, hp, hmeet⟩ := h
  refine ⟨hij.symm, hf, he, hp.symm, ?_⟩
  simpa [rangesMeet, and_comm] using hmeet

theorem rmeOverlap_iff {t : RmeTab} {i : Nat} {e : RmeEnt} :
    rmeOverlap t i e = true ↔ ∃ j f, (j, some f) ∈ t ∧ Overlapping i j e f := by
  simp only [rmeOverlap, Bool.and_eq_true, List.any_eq_true, Overlapping, bne_iff_ne, ne_eq]
  constructor
  · rintro ⟨he, ⟨j, o⟩, hmem, hj, ho⟩
    cases o with
    | none => exact absurd ho (by simp)
    | some f =>
      simp only [Bool.and_eq_true, bne_iff_ne, ne_eq] at ho
      obtain ⟨⟨hf, hp⟩, hmeet⟩ := ho
      exact ⟨j, f, hmem, fun hij => hj hij.symm, he, hf, fun hpe => hp hpe.symm, hmeet⟩
  · rintro ⟨j, f, hmem, hij, he, hf, hp, hmeet⟩
    exact ⟨he, ⟨j, some f⟩, hmem, fun hji => hij hji.symm, by simp [hf, hmeet, Ne.symm hp]⟩

theorem anyOverlap_iff {t : RmeTab} :
    anyOverlap t = true ↔ ∃ i e j f, (i, some e) ∈ t ∧ (j, some f) ∈ t ∧ Overlapping i j e f := by
  simp only [anyOverlap, List.any_eq_true]
  constructor
  · rintro ⟨⟨i, o⟩, hmem, ho⟩
    cases o with
    | none => exact absurd ho (by simp)
    | some e =>
      obtain ⟨j, f, hj, hov⟩ := rmeOverlap_iff.1 ho
      exact ⟨i, e, j, f, hmem, hj, hov⟩
  · rintro ⟨i, e, j, f, hi, hj, hov⟩
    exact ⟨(i, some e), hi, rmeOverlap_iff.2 ⟨j, f, hj, hov⟩⟩

/-- A batch whose every entry passes R322 leaves no overlap where there was none. -/
theorem anyOverlap_rmeApply {t : RmeTab} (hwf : Sparse.wf (fun _ => (none : Option RmeEnt)) t = true) {l : List RmeStg}
    (hold : anyOverlap t = false)
    (hpass : ∀ x ∈ l, ∀ e, x.ent = some e → rmeOverlap (rmeApply t l) x.idx e = false) :
    anyOverlap (rmeApply t l) = false := by
  have hwf' := wf_rmeApply hwf l
  have hkept : ∀ {i j : Nat} {e f : RmeEnt}, (i, some e) ∈ rmeApply t l → (j, some f) ∈ rmeApply t l → Overlapping i j e f →
      (i, some e) ∈ t := by
    intro i j e f hi hj hov
    have hread := tabGet_of_mem hwf' hi
    rcases tabGet_rmeApply hwf l i with ⟨x, hx, rfl, hent⟩ | hsame
    · have hno := hpass x hx e (hent.symm.trans hread)
      rw [rmeOverlap_iff.2 ⟨j, f, hj, hov⟩] at hno
      exact Bool.noConfusion hno
    · have hbefore : tabGet t none i = some e := hsame.symm.trans hread
      have := mem_of_tabGet_ne (t := t) (d := none) (k := i) (by simp [hbefore])
      rwa [hbefore] at this
  refine Bool.eq_false_iff.2 fun hany => ?_
  obtain ⟨i, e, j, f, hi, hj, hov⟩ := anyOverlap_iff.1 hany
  have : anyOverlap t = true := anyOverlap_iff.2 ⟨i, e, j, f, hkept hi hj hov, hkept hj hi hov.symm, hov⟩
  rw [hold] at this
  exact Bool.noConfusion this

/-! ### The table of entries over a command -/

theorem rme_revoke (s : State) (p : Nat) (rs : Option (List (Nat × Nat))) : (s.revoke p rs).rme = s.rme := by
  unfold State.revoke
  refine (each_keeps State.rme (fun k u => ?_) _ _).trans ((each_keeps State.rme (fun k u => ?_) _ _).trans
    (each_keeps State.rme (fun k u => ?_) _ _))
  · cases (u.tag k).held with
    | none => rfl
    | some g => exact ite_keeps State.rme (State.put_rme ..) rfl
  · cases (u.seracEnt k).held with
    | none => rfl
    | some g => exact ite_keeps State.rme rfl rfl
  · cases (u.slot k).held with
    | none => rfl
    | some g => exact ite_keeps State.rme rfl rfl

theorem rme_rmeNotify (s : State) (ch : List RmeEnt) (p : Nat) : (s.rmeNotify ch p).2.rme = s.rme := by
  unfold State.rmeNotify
  simp only
  split
  · exact rme_revoke s p none
  · exact rme_revoke s p (some (rmeNotice s.rme.ents ch p))

theorem ents_rmeSres (s : State) (m : Master) (a b c : Nat) : (s.rmeSres m a b c).rme.ents = s.rme.ents := rfl

theorem rmeCommitPoint_ents (s : State) (m : Master) (l : List RmeStg) :
    (s.rmeCommitPoint m l).rme.ents = rmeApply s.rme.ents l := by
  unfold State.rmeCommitPoint
  rw [ents_rmeSres]
  have hclear : ∀ (x : RmeStg) (u w : State), u.rme.ents = w.rme.ents →
      (if u.bit F.RME_STAT_CHFAULT 1 && u.get F.RME_FIDX_WIDX == x.idx then u.clrIn F.RME_STAT_CHFAULT 1 else u).rme.ents =
        w.rme.ents := fun x u w h => ite_keeps (fun u : State => u.rme.ents) h h
  refine ite_keeps (fun u : State => u.rme.ents) ?_ ?_
  all_goals
    refine (foldl_keeps (fun a : Option Nat × State => a.2.rme.ents) (fun a p => ?_) _ _).trans
      (each_keeps (fun u : State => u.rme.ents) (fun x w => ?_) _ _)
    · exact congrArg RmeState.ents (rme_rmeNotify a.2 _ p)
    · exact hclear x _ w (ite_keeps (fun u : State => u.rme.ents) rfl rfl)

theorem ents_rmeWait (s : State) (w : RmeWait) : (s.rmeWait w).rme.ents = s.rme.ents := by
  unfold State.rmeWait
  exact ite_keeps (fun u => u.rme.ents) rfl rfl

theorem firstBad_eq_none {l : List RmeStg} {f : Nat → RmeStg → Bool} (h : firstBad l f = none) {x : RmeStg} (hx : x ∈ l) :
    ∃ k, f k x = false := by
  obtain ⟨k, hk, rfl⟩ := List.getElem_of_mem hx
  have := List.find?_eq_none.1 h k (List.mem_range.2 hk)
  rw [List.getElem?_eq_getElem hk] at this
  exact ⟨k, by simpa using this⟩

/-- With the windows locked a slot that passes every check overlaps no window of another party (R322). -/
theorem rmeOverlap_of_rmeFault_eq_zero {s : State} {m : Master} {l : List RmeStg} {t : RmeTab} {k : Nat} {x : RmeStg} {e : RmeEnt}
    (hlock : s.on F.RME_STAT_WLOCKED = true) (he : x.ent = some e) (h : rmeFault s m l t k x = 0) : rmeOverlap t x.idx e = false := by
  unfold rmeFault at h
  split at h
  · omega
  split at h
  · omega
  split at h
  · omega
  refine Bool.eq_false_iff.2 fun hov => ?_
  simp [hlock, he, hov] at h

theorem anyOverlap_rmeCommit {s : State} (hwf : Sparse.wf (fun _ => (none : Option RmeEnt)) s.rme.ents = true)
    (hlock : s.on F.RME_STAT_WLOCKED = true) (h : anyOverlap s.rme.ents = false) (m : Master) (n : Nat) :
    anyOverlap (s.rmeCommit m n).rme.ents = false := by
  unfold State.rmeCommit
  simp only
  split
  · rw [ents_rmeSres]; exact h
  · next hgood =>
    rw [rmeCommitPoint_ents]
    refine anyOverlap_rmeApply hwf h fun x hx e he => ?_
    obtain ⟨k, hk⟩ := firstBad_eq_none hgood hx
    exact rmeOverlap_of_rmeFault_eq_zero hlock he (by simpa using hk)

theorem anyOverlap_rmeTake {s : State} (hwf : Sparse.wf (fun _ => (none : Option RmeEnt)) s.rme.ents = true)
    (hlock : s.on F.RME_STAT_WLOCKED = true) (h : anyOverlap s.rme.ents = false) (m : Master) (v : Word) :
    anyOverlap (rmeTake m true v [] s).rme.ents = false := by
  unfold rmeTake
  split
  · unfold State.rmeIssue
    split
    · rw [ents_rmeWait]; exact h
    · exact anyOverlap_rmeCommit hwf hlock h m _
  · exact h

/-! ### The lock -/

theorem exec_rmeCommit (m : Master) (v : Word) (s : State) : exec (.rmeCommit m v) s =
    .next (s.byCore m 0x40008300 (opWord v 1 0 1) fun s => rmeTake m true v [] s) := rfl

theorem exec_wlock (m : Master) (s : State) :
    exec (.wlock m) s = .next (s.byCore m R.RME_CTL 1 fun s => if m = .sec then s.wlock else s) := rfl

theorem ents_hold (s : State) (m : Master) (c a w v : Nat) : (s.hold m c a w v).rme.ents = s.rme.ents :=
  congrArg (fun u => u.rme.ents) (hold_frame s m c a w v)

/-- The request sets the lock only where no windows overlap. -/
theorem anyOverlap_of_wlocked {s : State} (hs : s.regsWf = true) (hlock : s.on F.RME_STAT_WLOCKED = false)
    (h : s.wlock.on F.RME_STAT_WLOCKED = true) : anyOverlap s.wlock.rme.ents = false := by
  unfold State.wlock at h ⊢
  split at h
  · rw [on_raiseBit_apart hs (by decide) (by decide) (by decide), hlock] at h
    exact Bool.noConfusion h
  · next hno =>
    rw [if_neg hno]
    exact Bool.eq_false_iff.2 hno

/-- Settles O41: a commit point applies only batches whose every entry passed R322, and two entries that overlap afterwards
are either in such a batch or stood before it. -/
theorem windowLockKeepsPartiesApart : Obligations.WindowLockKeepsPartiesApart := by
  unfold Obligations.WindowLockKeepsPartiesApart
  constructor
  · intro m v s t hwf hlock h hexec
    rw [exec_rmeCommit] at hexec
    cases hexec
    rcases byCore_cases (s := s) (m := m) (a := 0x40008300) (v := opWord v 1 0 1) (go := fun s => rmeTake m true v [] s) with
      hgo | ⟨c, _, _, hheld⟩
    · rw [hgo]; exact anyOverlap_rmeTake hwf hlock h m v
    · rw [hheld, ents_hold]; exact h
  · intro m s t hs hlock hexec ht
    rw [exec_wlock] at hexec
    cases hexec
    rcases byCore_cases (s := s) (m := m) (a := R.RME_CTL) (v := 1) (go := fun s => if m = .sec then s.wlock else s) with
      hgo | ⟨c, hc, _, hheld⟩
    · rw [hgo] at ht ⊢
      split at ht
      · next hm =>
        rw [if_pos hm]
        exact anyOverlap_of_wlocked hs hlock ht
      · rw [hlock] at ht
        exact Bool.noConfusion ht
    · have hsame : (s.hold m c R.RME_CTL 4 (1 : Word).toNat).on F.RME_STAT_WLOCKED = s.on F.RME_STAT_WLOCKED := by
        have hne : R.RME_STAT ≠ R.SST_HSQ c := by simp only [R.RME_STAT, R.SST_HSQ]; omega
        rw [State.on, State.get, show F.RME_STAT_WLOCKED.reg = R.RME_STAT from rfl, rd_hold_ne hs hc hne]
        rfl
      rw [hheld, hsame, hlock] at ht
      exact Bool.noConfusion ht

end Sys2Proof.Proofs

/-! PROOFS. Chapter 7, the array window: a refused erase of a Moraine sector moves a counter of the recorder. -/

namespace Sys2Proof.Proofs

open Sys2Proof Sys2Proof.Machine

/-- The device after reset, with SEC one cycle before the confirmation of an erase in bank 2. -/
def eraseSetUp : State :=
  { State.reset with sto := { State.reset.sto with seqs := [(2 * 64 + Master.sec.idx, { pos := .erase })] } }

/-- The confirmation names the first sector of the Moraine, so that the erase is refused with cause 3 and the recorder stages record
0x0905 (R142): the FIFO's peak count rises from 0 to 1. -/
def eraseRefused : State :=
  State.byReq eraseSetUp (.core .sec) 0x22000000 4 0x0000D42B
    fun s => storeFaults (s.arrayStore (.core .sec) 0x22000000 4 0x0000D42B)

theorem eraseSetUp_fifoPeak : eraseSetUp.get F.MOR_CNT_FIFO_PEAK = 0 := by decide +kernel

theorem eraseRefused_fifoPeak : eraseRefused.get F.MOR_CNT_FIFO_PEAK = 1 := by decide +kernel

/-- Refutes O17: the store of the erase's confirmation leaves MOR_CNT.FIFO_PEAK changed, which is a register of neither the STO
block nor SST_HSQ, and not MOR_STAT. -/
theorem not_storeWindowsChangeNoArrayByte : ¬ Obligations.StoreWindowsChangeNoArrayByte := by
  unfold Obligations.StoreWindowsChangeNoArrayByte
  intro h
  have hexec : exec (.sequenceCycle (.core .sec) 0x2000000 4 0x0000D42B) eraseSetUp = .next eraseRefused := rfl
  obtain ⟨_, _, _, _, _, hregs⟩ := h .sec 0x2000000 4 0x0000D42B eraseSetUp eraseRefused rfl (by decide +kernel) (.inl hexec)
  have hsame : eraseRefused.rd R.MOR_CNT = eraseSetUp.rd R.MOR_CNT :=
    hregs R.MOR_CNT (by decide) (by decide) (by decide)
  have hpeak : eraseRefused.get F.MOR_CNT_FIFO_PEAK = eraseSetUp.get F.MOR_CNT_FIFO_PEAK := by
    rw [State.get, State.get, show F.MOR_CNT_FIFO_PEAK.reg = R.MOR_CNT from rfl, hsame]
  rw [eraseRefused_fifoPeak, eraseSetUp_fifoPeak] at hpeak
  exact absurd hpeak (by decide)

end Sys2Proof.Proofs

/-! PROOFS. Chapter 5, the held-store queues: every command that stands for a register write of a gated core is held. -/

namespace Sys2Proof.Proofs

open Sys2Proof Sys2Proof.Machine

theorem hold_of_room {s : State} {m : Master} {c a w v : Nat} (h : (hsq s c).length < 1024) : s.hold m c a w v =
    (s.stall m false 0).setHsq c (hsq s c ++ [{ addr := a, width := w, data := v % 256 ^ w }]) :=
  if_neg (Nat.not_le.2 h)

theorem hold_of_full {s : State} {m : Master} {c a w v : Nat} (h : 1024 ≤ (hsq s c).length) : s.hold m c a w v = s.stall m true 0 :=
  if_pos h

theorem byCore_of_gated {s : State} {m : Master} {c : Nat} (hc : gateIdx m = some c) (hg : gated s m = true) (a : Nat) (v : Word)
    (go : State → State) : s.byCore m a v go = s.hold m c a 4 v.toNat := by
  rw [State.byCore, hc, hg]
  rfl

theorem byReq_core_of_gated {s : State} {m : Master} {c : Nat} (hc : gateIdx m = some c) (hg : gated s m = true) (a w : Nat) (v : Word)
    (go : State → State) : s.byReq (.core m) a w v go = s.hold m c a w v.toNat := by
  rw [State.byReq, hc, hg]
  rfl

/-- Settles O26: each of the commands is a register write by `byCore`, or a store of the Store die's windows by `byReq`. -/
theorem gatedCommandsAreHeld : Obligations.GatedCommandsAreHeld := by
  unfold Obligations.GatedCommandsAreHeld
  refine ⟨fun m c a w v s _ => ⟨hold_of_room, hold_of_full⟩, fun s => ⟨gated_sec, gated_sv⟩, fun m c s hc hg => ?_⟩
  have hcore : ∀ (a : Nat) (v : Word) (go : State → State), (Host.Outcome.next (s.byCore m a v go) : Host.Outcome State Fault Refusal) =
      .next (s.hold m c a 4 v.toNat) := fun a v go => congrArg _ (byCore_of_gated hc hg a v go)
  have hreq : ∀ (a w : Nat) (v : Word) (go : State → State), (Host.Outcome.next (s.byReq (.core m) a w v go) :
      Host.Outcome State Fault Refusal) = .next (s.hold m c a w v.toNat) := fun a w v go => congrArg _ (byReq_core_of_gated hc hg a w v go)
  refine ⟨fun v => ?_, hcore _ _ _, hcore _ _ _, hcore _ _ _, hcore _ _ _, hcore _ _ _, hcore _ _ _, hcore _ _ _, hcore _ _ _,
    hcore _ _ _, hcore _ _ _, hcore _ _ _, hcore _ _ _, hcore _ _ _, hcore _ _ _, hcore _ _ _, hcore _ _ _, hcore _ _ _,
    fun t v => hcore _ _ _, fun h w v => hcore _ _ _, fun ch v => ⟨hcore _ _ _, hcore _ _ _⟩, fun ch => hcore _ _ _,
    fun k => ⟨hcore _ _ _, hcore _ _ _, hcore _ _ _, hcore _ _ _, hcore _ _ _⟩, fun cmask p v => hcore _ _ _,
    fun v present => hcore _ _ _, fun v errs => ⟨hcore _ _ _, hcore _ _ _⟩, fun p v => ⟨hcore _ _ _, hcore _ _ _⟩,
    fun t => ⟨hcore _ _ _, hcore _ _ _, hcore _ _ _⟩, fun us => hcore _ _ _, fun n => hcore _ _ _, fun errs => hcore _ _ _,
    fun v cycles => hcore _ _ _, fun a width v => ⟨hreq _ _ _ _, hreq _ _ _ _⟩,
    fun a => ⟨hreq _ _ _ _, hreq _ _ _ _, hreq _ _ _ _, hreq _ _ _ _⟩, fun b => ⟨hreq _ _ _ _, hreq _ _ _ _, hreq _ _ _ _⟩,
    fun b eraseVerify => hreq _ _ _ _, fun r v => hcore _ _ _⟩
  and_intros <;> exact hcore _ _ _

end Sys2Proof.Proofs

/-! PROOFS. Chapter 12, frames and their holders: every movement of a segment exchanges frames, so that no two holders come to
share one. -/

namespace Sys2Proof.Proofs

open Sys2Proof Sys2Proof.Machine

/-! ### The frames of the holders -/

/-- The holders' tables are in canonical form, and the order of Serac names its own entries. -/
def HoldersOk (s : State) : Prop :=
  Sparse.wf tag0 s.firn.tags = true ∧ Sparse.wf serac0 s.firn.serac = true ∧ Sparse.wf slot0 s.firn.corn = true ∧
    ∀ k ∈ s.firn.seracOrder, k < 16

/-- No two of the 4,144 holders have one frame. -/
def Apart (f : Nat → Nat) : Prop := ∀ a b, a < b → b < 4144 → f a ≠ f b

/-- The holders are well formed and their frames are these. -/
def Frames (s : State) (f : Nat → Nat) : Prop := HoldersOk s ∧ ∀ n, s.holderFrame n = f n

theorem frames_holderFrame {s : State} (h : s.FramesApart) : Frames s s.holderFrame ∧ Apart s.holderFrame := by
  obtain ⟨htags, hserac, hcorn, horder, hapart⟩ := h
  exact ⟨⟨⟨htags, hserac, hcorn, horder⟩, fun _ => rfl⟩, hapart⟩

theorem framesApart_of_frames {s : State} {f : Nat → Nat} (h : Frames s f) (hf : Apart f) : s.FramesApart := by
  obtain ⟨⟨htags, hserac, hcorn, horder⟩, hframe⟩ := h
  refine ⟨htags, hserac, hcorn, horder, fun a b hab hb => ?_⟩
  rw [hframe, hframe]
  exact hf a b hab hb

theorem apart_ne {f : Nat → Nat} (hf : Apart f) {a b : Nat} (ha : a < 4144) (hb : b < 4144) (hab : a ≠ b) : f a ≠ f b := by
  rcases Nat.lt_or_gt_of_ne hab with h | h
  · exact hf a b h hb
  · exact (hf b a h ha).symm

/-- A holder's frame is replaced. -/
def setFrame (f : Nat → Nat) (k v n : Nat) : Nat := if n = k then v else f n

theorem setFrame_self (f : Nat → Nat) (k v : Nat) : setFrame f k v k = v := if_pos rfl

theorem setFrame_of_ne (f : Nat → Nat) {k v n : Nat} (h : n ≠ k) : setFrame f k v n = f n := if_neg h

theorem setFrame_own (f : Nat → Nat) (k : Nat) : setFrame f k (f k) = f := by
  funext n
  by_cases h : n = k
  · rw [h, setFrame_self]
  · exact setFrame_of_ne f h

/-- Which holder's frame a holder has after two of them have exchanged theirs. -/
def exchange (a b n : Nat) : Nat := if n = a then b else if n = b then a else n

theorem exchange_exchange (a b n : Nat) : exchange a b (exchange a b n) = n := by
  unfold exchange
  grind

theorem exchange_injective {a b m n : Nat} (h : exchange a b m = exchange a b n) : m = n := by
  rw [← exchange_exchange a b m, h, exchange_exchange]

theorem exchange_lt {a b n : Nat} (ha : a < 4144) (hb : b < 4144) (hn : n < 4144) : exchange a b n < 4144 := by
  unfold exchange
  split
  · exact hb
  · split <;> assumption

theorem setFrame_setFrame (f : Nat → Nat) (a b n : Nat) : setFrame (setFrame f b (f a)) a (f b) n = f (exchange a b n) := by
  unfold setFrame exchange
  by_cases ha : n = a
  · rw [if_pos ha, if_pos ha]
  · rw [if_neg ha, if_neg ha]
    by_cases hb : n = b
    · rw [if_pos hb, if_pos hb]
    · rw [if_neg hb, if_neg hb]

/-- A rearrangement of the holders keeps their frames apart. -/
theorem apart_of_rearranged {f g : Nat → Nat} (hf : Apart f) {e : Nat → Nat} (hg : ∀ n, g n = f (e n))
    (hinj : ∀ {m n}, e m = e n → m = n) (he : ∀ {n}, n < 4144 → e n < 4144) : Apart g := by
  intro a b hab hb
  rw [hg, hg]
  exact apart_ne hf (he (Nat.lt_trans hab hb)) (he hb) fun h => Nat.ne_of_lt hab (hinj h)

/-- Two holders exchange frames. -/
theorem apart_exchange {f : Nat → Nat} (hf : Apart f) {a b : Nat} (ha : a < 4144) (hb : b < 4144) :
    Apart (setFrame (setFrame f b (f a)) a (f b)) :=
  apart_of_rearranged hf (setFrame_setFrame f a b) exchange_injective (exchange_lt ha hb)

/-- Three holders pass their frames round: the first two exchange theirs, and then the first and the third. -/
theorem apart_rotate {f : Nat → Nat} (hf : Apart f) {a b c : Nat} (ha : a < 4144) (hb : b < 4144) (hc : c < 4144) (hab : a ≠ b)
    (hbc : b ≠ c) (hac : a ≠ c) : Apart (setFrame (setFrame (setFrame f b (f a)) c (f b)) a (f c)) := by
  refine apart_of_rearranged hf (e := fun n => exchange c b (exchange a b n)) (fun n => ?_)
    (fun h => exchange_injective (exchange_injective h)) (fun hn => exchange_lt hc hb (exchange_lt ha hb hn))
  unfold setFrame exchange
  grind

/-! ### What each update of a holder does to the frames -/

section Updates

variable {s : State} {f : Nat → Nat}

/-- The frames are a matter of the FIRN state alone. -/
theorem frames_of_firn {t : State} (ht : t.firn = s.firn) (h : Frames s f) : Frames t f := by
  have hframe : t.holderFrame = s.holderFrame := by
    funext n
    simp only [State.holderFrame, State.tag, State.seracEnt, State.slot, ht]
  refine ⟨?_, fun n => hframe ▸ h.2 n⟩
  have h1 := h.1
  unfold HoldersOk at h1 ⊢
  rwa [ht]

theorem holderFrame_setTag_ne {k : Nat} {t : FTag} (h : HoldersOk s) {n : Nat} (hn : n ≠ k) :
    (s.setTag k t).holderFrame n = s.holderFrame n := by
  have htag : (s.setTag k t).tag n = s.tag n := Sparse.read_write_other t hn h.1
  simp only [State.holderFrame, htag]
  rfl

theorem holderFrame_setTag_of_ge {k : Nat} {t : FTag} (h : HoldersOk s) (hk : 4096 ≤ k) (n : Nat) :
    (s.setTag k t).holderFrame n = s.holderFrame n := by
  by_cases hn : n = k
  · subst hn
    have hnot : ¬ n < 4096 := by omega
    simp only [State.holderFrame, if_neg hnot]
    rfl
  · exact holderFrame_setTag_ne h hn

theorem holdersOk_setTag {k : Nat} {t : FTag} (h : HoldersOk s) : HoldersOk (s.setTag k t) :=
  ⟨Sparse.wf_write t h.1, h.2⟩

theorem holderFrame_of_lt {k : Nat} (hk : k < 4096) : s.holderFrame k = (s.tag k).frame := if_pos hk

theorem holderFrame_serac {i : Nat} (hi : i < 16) : s.holderFrame (4096 + i) = (s.seracEnt i).frame := by
  unfold State.holderFrame
  rw [if_neg (by omega), if_pos (by omega), Nat.add_sub_cancel_left]

theorem holderFrame_slot (j : Nat) : s.holderFrame (4112 + j) = (s.slot j).frame := by
  unfold State.holderFrame
  rw [if_neg (by omega), if_neg (by omega), Nat.add_sub_cancel_left]

theorem frames_setTag {k : Nat} (hk : k < 4096) (t : FTag) (h : Frames s f) : Frames (s.setTag k t) (setFrame f k t.frame) := by
  refine ⟨holdersOk_setTag h.1, fun n => ?_⟩
  by_cases hn : n = k
  · subst hn
    rw [setFrame_self, holderFrame_of_lt hk]
    exact congrArg FTag.frame (Sparse.read_write_self t h.1.1)
  · rw [setFrame_of_ne _ hn, holderFrame_setTag_ne h.1 hn, h.2]

theorem frames_setSerac {i : Nat} (hi : i < 16) (e : SeracEnt) (h : Frames s f) :
    Frames (s.setSerac i e) (setFrame f (4096 + i) e.frame) := by
  obtain ⟨⟨htags, hserac, hcorn, horder⟩, hframe⟩ := h
  refine ⟨⟨htags, Sparse.wf_write e hserac, hcorn, horder⟩, fun n => ?_⟩
  by_cases hn : n = 4096 + i
  · subst hn
    rw [setFrame_self, holderFrame_serac hi]
    exact congrArg SeracEnt.frame (Sparse.read_write_self e hserac)
  · rw [setFrame_of_ne _ hn, ← hframe n]
    unfold State.holderFrame
    split
    · rfl
    · split
      · exact congrArg SeracEnt.frame (Sparse.read_write_other e (by omega) hserac)
      · rfl

theorem frames_setSlot (j : Nat) (e : CSlot) (h : Frames s f) : Frames (s.setSlot j e) (setFrame f (4112 + j) e.frame) := by
  obtain ⟨⟨htags, hserac, hcorn, horder⟩, hframe⟩ := h
  refine ⟨⟨htags, hserac, Sparse.wf_write e hcorn, horder⟩, fun n => ?_⟩
  by_cases hn : n = 4112 + j
  · subst hn
    rw [setFrame_self, holderFrame_slot]
    exact congrArg CSlot.frame (Sparse.read_write_self e hcorn)
  · rw [setFrame_of_ne _ hn, ← hframe n]
    unfold State.holderFrame
    split
    · rfl
    · split
      · rfl
      · exact congrArg CSlot.frame (Sparse.read_write_other e (by omega) hcorn)

theorem frames_onFirn {g : FirnState → FirnState} (htags : (g s.firn).tags = s.firn.tags) (hserac : (g s.firn).serac = s.firn.serac)
    (hcorn : (g s.firn).corn = s.firn.corn) (horder : (∀ k ∈ s.firn.seracOrder, k < 16) → ∀ k ∈ (g s.firn).seracOrder, k < 16)
    (h : Frames s f) : Frames (s.onFirn g) f := by
  obtain ⟨⟨h1, h2, h3, h4⟩, hframe⟩ := h
  refine ⟨⟨htags ▸ h1, hserac ▸ h2, hcorn ▸ h3, horder h4⟩, fun n => ?_⟩
  rw [← hframe n]
  simp only [State.holderFrame, State.tag, State.seracEnt, State.slot, State.onFirn, htags, hserac, hcorn]

/-- A tag written with its own frame leaves the frames as they are, whatever its number. -/
theorem frames_setTag_same {k : Nat} {t : FTag} (ht : t.frame = (s.tag k).frame) (h : Frames s f) : Frames (s.setTag k t) f := by
  rcases Nat.lt_or_ge k 4096 with hk | hk
  · have hown : t.frame = f k := by rw [ht, ← h.2 k, holderFrame_of_lt hk]
    have := frames_setTag hk t h
    rwa [hown, setFrame_own] at this
  · exact ⟨holdersOk_setTag h.1, fun n => (holderFrame_setTag_of_ge h.1 hk n).trans (h.2 n)⟩

theorem frames_setSlot_same {j : Nat} {e : CSlot} (he : e.frame = (s.slot j).frame) (h : Frames s f) : Frames (s.setSlot j e) f := by
  have hown : e.frame = f (4112 + j) := by rw [he, ← h.2, holderFrame_slot]
  have := frames_setSlot j e h
  rwa [hown, setFrame_own] at this

theorem frames_emptySerac {i : Nat} (hi : i < 16) (h : Frames s f) : Frames (s.emptySerac i) f := by
  have hown : (s.seracEnt i).frame = f (4096 + i) := by rw [← h.2, holderFrame_serac hi]
  have hset := frames_setSerac hi { s.seracEnt i with held := none } h
  rw [hown, setFrame_own] at hset
  exact frames_onFirn rfl rfl rfl (fun ho k hk => ho k ((List.mem_filter.1 hk).1)) hset

theorem frames_touch {k : Nat} (h : Frames s f) : Frames (s.touch k) f :=
  frames_onFirn rfl rfl rfl id (frames_setTag_same rfl h)

theorem frames_bindTag {k fr : Nat} (hk : k < 4096) (g : Seg) (h : Frames s f) : Frames (s.bindTag k fr g) (setFrame f k fr) :=
  frames_setTag hk _ h

/-- The entry that an evicted segment takes: an empty one, or the oldest. -/
def seracTaken (s : State) : Nat :=
  match (List.range 16).find? fun k => (s.seracEnt k).held.isNone with
  | some k => k
  | none => s.firn.seracOrder.headD 0

theorem seracTaken_lt (horder : ∀ k ∈ s.firn.seracOrder, k < 16) : seracTaken s < 16 := by
  unfold seracTaken
  split
  · next k hk => exact List.mem_range.1 (List.mem_of_find?_eq_some hk)
  · cases hl : s.firn.seracOrder with
    | nil => decide
    | cons k l => exact horder k (by simp [hl])

theorem enterSerac_eq (g : Seg) (fr : Nat) : s.enterSerac g fr = ((s.seracEnt (seracTaken s)).frame,
    (s.setSerac (seracTaken s) { frame := fr, held := some (toSerac g) }).onFirn fun x =>
      { x with seracOrder := (x.seracOrder.filter fun j => j != seracTaken s) ++ [seracTaken s] }) := rfl

/-- An evicted segment's entry gives its own frame in exchange (R303). -/
theorem frames_enterSerac (g : Seg) (fr : Nat) (h : Frames s f) :
    ∃ e, e < 16 ∧ (s.enterSerac g fr).1 = f (4096 + e) ∧ Frames (s.enterSerac g fr).2 (setFrame f (4096 + e) fr) := by
  have hlt := seracTaken_lt h.1.2.2.2
  refine ⟨seracTaken s, hlt, by rw [← h.2, holderFrame_serac hlt, enterSerac_eq], ?_⟩
  rw [enterSerac_eq]
  refine frames_onFirn rfl rfl rfl (fun ho k hk => ?_) (frames_setSerac hlt _ h)
  rcases List.mem_append.1 hk with hk | hk
  · exact ho k ((List.mem_filter.1 hk).1)
  · rw [List.mem_singleton.1 hk]; exact hlt

end Updates

/-! ### The movements of a segment -/

section Movements

variable {s : State} {k : Nat} (hk : k < 4096)

include hk

theorem framesApart_allocNew (p seg : Nat) (h : s.FramesApart) : (s.allocNew k p seg).FramesApart := by
  obtain ⟨hfr, hap⟩ := frames_holderFrame h
  have hown : (s.tag k).frame = s.holderFrame k := (holderFrame_of_lt hk).symm
  have hstay : Frames ((s.bindTag k (s.tag k).frame { seg, owner := p }).touch k) s.holderFrame :=
    frames_touch (frames_setTag_same rfl hfr)
  unfold State.allocNew
  cases hheld : (s.tag k).held with
  | none => simp only [hheld]; exact framesApart_of_frames hstay hap
  | some g =>
    simp only [hheld]
    split
    · obtain ⟨e, he, hret, hent⟩ := frames_enterSerac g (s.tag k).frame hfr
      rw [hret]
      rw [hown] at hent ⊢
      exact framesApart_of_frames (frames_touch (frames_bindTag hk _ hent)) (apart_exchange hap (by omega) (by omega))
    · exact framesApart_of_frames hstay hap

theorem framesApart_recall {i : Nat} (hi : i < 16) (g : Seg) (h : s.FramesApart) : (s.recall k i g).FramesApart := by
  obtain ⟨hfr, hap⟩ := frames_holderFrame h
  have hown : (s.tag k).frame = s.holderFrame k := (holderFrame_of_lt hk).symm
  have hentry : (s.seracEnt i).frame = s.holderFrame (4096 + i) := (holderFrame_serac hi).symm
  have hempty := frames_emptySerac hi hfr
  have hbind : ∀ u : State, Frames u (setFrame s.holderFrame (4096 + i) (s.holderFrame k)) →
      (((u.bindTag k (s.holderFrame (4096 + i)) g).touch k).inc F.FIRN_CNT0_SERAC_CNT).FramesApart := fun u hu =>
    framesApart_of_frames (frames_of_firn rfl (frames_touch (frames_bindTag hk g hu)))
      (apart_exchange hap (by omega) (by omega))
  have hput : ∀ held : Option Seg, Frames ((s.emptySerac i).setSerac i { frame := s.holderFrame k, held := held })
      (setFrame s.holderFrame (4096 + i) (s.holderFrame k)) := fun held => frames_setSerac hi _ hempty
  unfold State.recall
  simp only [hown, hentry]
  cases hheld : (s.tag k).held with
  | none => exact hbind _ (hput none)
  | some old =>
    simp only
    split
    · refine hbind _ (frames_onFirn rfl rfl rfl (fun ho j hj => ?_) (hput _))
      rcases List.mem_append.1 hj with hj | hj
      · exact ho j hj
      · rw [List.mem_singleton.1 hj]; exact hi
    · exact hbind _ (hput none)

theorem framesApart_promote {j : Nat} (hj : j < 32) (g : Seg) (h : s.FramesApart) : (s.promote k j g).FramesApart := by
  obtain ⟨hfr, hap⟩ := frames_holderFrame h
  have hown : (s.tag k).frame = s.holderFrame k := (holderFrame_of_lt hk).symm
  have hslot : (s.slot j).frame = s.holderFrame (4112 + j) := (holderFrame_slot j).symm
  have hswap : ∀ e : CSlot, e.frame = s.holderFrame k →
      (((((s.setSlot j e).bindTag k (s.holderFrame (4112 + j)) g).touch k)).inc F.FIRN_CNT0_PROMO_CNT).FramesApart := by
    intro e he
    have hset := frames_setSlot j e hfr
    rw [he] at hset
    exact framesApart_of_frames (frames_of_firn rfl (frames_touch (frames_bindTag hk g hset)))
      (apart_exchange hap (by omega) (by omega))
  unfold State.promote
  simp only [hown, hslot]
  cases hheld : (s.tag k).held with
  | none => exact hswap _ rfl
  | some old =>
    simp only
    split
    · obtain ⟨e, he, hret, hent⟩ := frames_enterSerac old (s.holderFrame k) hfr
      rw [hret]
      have hset := frames_setSlot j { s.slot j with frame := s.holderFrame (4096 + e), st := .free, held := none } hent
      exact framesApart_of_frames (frames_of_firn rfl (frames_touch (frames_bindTag hk g hset)))
        (apart_rotate hap (by omega) (by omega) (by omega) (by omega) (by omega) (by omega))
    · exact hswap _ rfl

end Movements

theorem framesApart_of_firn {s t : State} (ht : t.firn = s.firn) (h : s.FramesApart) : t.FramesApart :=
  framesApart_of_frames (frames_of_firn ht (frames_holderFrame h).1) (frames_holderFrame h).2

theorem framesApart_setTag {s : State} {k : Nat} {t : FTag} (ht : t.frame = (s.tag k).frame) (h : s.FramesApart) :
    (s.setTag k t).FramesApart :=
  framesApart_of_frames (frames_setTag_same ht (frames_holderFrame h).1) (frames_holderFrame h).2

theorem framesApart_setSlot {s : State} {j : Nat} {e : CSlot} (he : e.frame = (s.slot j).frame) (h : s.FramesApart) :
    (s.setSlot j e).FramesApart :=
  framesApart_of_frames (frames_setSlot_same he (frames_holderFrame h).1) (frames_holderFrame h).2

theorem framesApart_touch {s : State} {k : Nat} (h : s.FramesApart) : (s.touch k).FramesApart :=
  framesApart_of_frames (frames_touch (frames_holderFrame h).1) (frames_holderFrame h).2

/-! ### Lookups -/

theorem homeSet_lt (seg : Nat) : homeSet seg < 512 := by
  unfold homeSet
  refine Nat.xor_lt_two_pow (n := 9) (Nat.xor_lt_two_pow (Nat.xor_lt_two_pow (Nat.xor_lt_two_pow ?_ ?_) ?_) ?_) ?_ <;> omega

theorem setFor_lt (s : State) (p seg : Nat) : setFor s p seg < 512 := by
  have h := homeSet_lt seg
  unfold setFor
  simp only
  split <;> omega

theorem lt_of_mem_waysFor {s : State} {p seg k : Nat} (h : k ∈ waysFor s p seg) : k < 4096 := by
  have hset := setFor_lt s p seg
  obtain ⟨w, hw, rfl⟩ := List.mem_map.1 h
  have hw8 := List.mem_range.1 ((List.mem_filter.1 hw).1)
  omega

/-- A fold that keeps one of what it meets answers one of what it met. -/
theorem mem_of_foldl_pick {α : Type} {f : Option α → α → Option α} (hf : ∀ b x, f b x = some x ∨ f b x = b) (l : List α) {b : Option α}
    {y : α} (h : l.foldl f b = some y) : y ∈ l ∨ b = some y := by
  induction l generalizing b with
  | nil => exact .inr h
  | cons x l ih =>
    rcases ih h with hy | hy
    · exact .inl (List.mem_cons_of_mem _ hy)
    · rcases hf b x with hx | hx
      · rw [hx] at hy
        cases hy
        exact .inl (by simp)
      · exact .inr (hx ▸ hy)

theorem takeWay_lt {s : State} {p seg k : Nat} (h : takeWay s p seg = some k) : k < 4096 := by
  unfold takeWay at h
  simp only at h
  split at h
  · next j hj =>
    cases h
    exact lt_of_mem_waysFor (List.mem_of_find?_eq_some hj)
  · have hmem := (mem_of_foldl_pick (fun b x => ?_) _ h).resolve_right (by simp)
    · exact lt_of_mem_waysFor ((List.mem_filter.1 hmem).1)
    · cases b with
      | none => exact .inl rfl
      | some j => simp only; split <;> simp

theorem findSerac_lt {s : State} {p seg i : Nat} (h : findSerac s p seg = some i) : i < 16 :=
  List.mem_range.1 (List.mem_of_find?_eq_some h)

theorem findSlot_lt {s : State} {p seg j : Nat} (h : findSlot s p seg = some j) : j < 32 :=
  List.mem_range.1 (List.mem_of_find?_eq_some h)

theorem framesApart_applyIntent {s : State} {k p : Nat} {m : Mask} {it : Intent} (h : s.FramesApart) :
    (s.applyIntent k p m it).2.2.FramesApart := by
  unfold State.applyIntent
  cases (s.tag k).held with
  | none => exact h
  | some g =>
    cases it with
    | look => exact h
    | alloc => exact h
    | reserve => exact framesApart_of_firn (s := s.setTag k _) rfl (framesApart_setTag rfl h)
    | fillLock => exact framesApart_setTag rfl h

theorem framesApart_finishLook {s : State} {k p : Nat} {m : Mask} {it : Intent} {pin : Bool} {r c : Nat} (h : s.FramesApart) :
    (s.finishLook k p m it pin r c).2.FramesApart := by
  refine framesApart_applyIntent ?_
  unfold State.pinTag
  split
  · exact framesApart_setTag rfl h
  · exact h

theorem framesApart_bring {s : State} {p seg : Nat} {m : Mask} {it : Intent} {pin : Bool} (h : s.FramesApart) :
    (s.bring p seg m it pin).2.FramesApart := by
  have hfull : (s.inc F.FIRN_CNT1_FULL_CNT).FramesApart := framesApart_of_firn rfl h
  unfold State.bring
  split
  · next i hi =>
    split
    · exact h
    · split
      · next k g hk _ => exact framesApart_finishLook (framesApart_recall (takeWay_lt hk) (findSerac_lt hi) g h)
      · exact hfull
  · split
    · next j hj =>
      split
      · exact h
      · split
        · next k g hk _ => exact framesApart_finishLook (framesApart_promote (takeWay_lt hk) (findSlot_lt hj) g h)
        · exact hfull
    · split
      · exact h
      · split
        · exact h
        · split
          · next k hk => exact framesApart_finishLook (framesApart_allocNew (takeWay_lt hk) p seg h)
          · exact hfull

theorem framesApart_firnLookup {s : State} {p lba n : Nat} {it : Intent} {pin : Bool} (h : s.FramesApart) :
    (s.firnLookup p lba n it pin).2.FramesApart := by
  unfold State.firnLookup
  simp only
  split
  · exact h
  · split
    · split
      · exact framesApart_of_firn rfl h
      · exact h
    · split
      · split
        · split
          · exact h
          · exact framesApart_finishLook (framesApart_touch h)
        · exact h
      · exact framesApart_bring h

/-! ### Results leave the FIRN state alone -/

theorem firn_openFlds (l : List Fld) (s : State) : (State.openFlds l s).firn = s.firn := by
  unfold State.openFlds
  refine each_keeps State.firn (fun f u => ?_) l s
  rfl

theorem firn_lookResult (s : State) (m : Master) (r : LookRes) : (s.lookResult m r).firn = s.firn := by
  unfold State.lookResult
  cases r.key with
  | none => simp [firn_openFlds]
  | some k =>
    simp only
    split <;> simp

theorem firn_segResult (s : State) (m : Master) (r n : Nat) : (s.segResult m r n).firn = s.firn := rfl

theorem firn_corResult (s : State) (m : Master) (r : Nat) (j : Option Nat) : (s.corResult m r j).firn = s.firn := by
  unfold State.corResult
  cases j with
  | none => simp [firn_openFlds]
  | some j => simp

/-! ### The commands -/

theorem lookCmd_of_taken {s : State} {it : Intent} {m : Master} {v : Word} (h : bankTaken s m = true) : lookCmd it m v s =
    (s.firnLookup (bitsOf v 7 4) (lkey s m) (bitsOf v 13 8 + 1) it (bitsOf v 14 14 == 1)).2.lookResult m
      (s.firnLookup (bitsOf v 7 4) (lkey s m) (bitsOf v 13 8 + 1) it (bitsOf v 14 14 == 1)).1 := by
  rw [lookCmd, h, if_pos rfl]

theorem lookCmd_of_not_taken {s : State} {it : Intent} {m : Master} {v : Word} (h : bankTaken s m = false) : lookCmd it m v s = s := by
  rw [lookCmd, h, if_neg Bool.false_ne_true]

theorem framesApart_lookCmd {s : State} {it : Intent} {m : Master} {v : Word} (h : s.FramesApart) : (lookCmd it m v s).FramesApart := by
  cases htaken : bankTaken s m with
  | true =>
    rw [lookCmd_of_taken htaken]
    exact framesApart_of_firn (firn_lookResult _ m _) (framesApart_firnLookup h)
  | false => rw [lookCmd_of_not_taken htaken]; exact h

theorem framesApart_firnCommit {s : State} {k : Nat} {gen : BitVec 8} {m full : Mask} (h : s.FramesApart) :
    (s.firnCommit k gen m full).2.2.FramesApart := by
  unfold State.firnCommit
  simp only
  split
  · exact h
  · split
    · exact h
    · exact framesApart_of_firn (s := s.setTag k _) rfl (framesApart_setTag rfl h)

theorem framesApart_firnCommitCmd {s : State} {m : Master} {v : Word} (h : s.FramesApart) : (firnCommitCmd m v s).FramesApart := by
  unfold firnCommitCmd
  split
  · split
    · exact framesApart_of_firn (firn_segResult s m _ _) h
    · exact framesApart_of_firn (firn_segResult _ m _ _) (framesApart_firnCommit h)
  · exact h

theorem frame_slotSettle (t : CSlot) : (slotSettle t).frame = t.frame := by
  unfold slotSettle
  split
  · rfl
  · split
    · rfl
    · split <;> rfl

theorem framesApart_firnFill {s : State} {tgt : Bool} {k j : Nat} {gen : BitVec 8} {mk : Mask} (h : s.FramesApart) :
    (s.firnFill tgt k j gen mk).2.2.FramesApart := by
  unfold State.firnFill
  simp only
  split
  · split
    · exact h
    · exact framesApart_setSlot (frame_slotSettle _) h
  · split
    · exact h
    · exact framesApart_setTag rfl h

theorem framesApart_fillCmd {s : State} {m : Master} {v : Word} (h : s.FramesApart) : (fillCmd m v s).FramesApart := by
  unfold fillCmd
  split
  · exact framesApart_of_firn (firn_segResult _ m _ _) (framesApart_firnFill h)
  · exact h

theorem framesApart_cAlloc {s : State} {p seg : Nat} {fill : Mask} (h : s.FramesApart) : (s.cAlloc p seg fill).2.2.FramesApart := by
  unfold State.cAlloc
  split
  · exact h
  · split
    · exact h
    · split
      · exact h
      · exact framesApart_setSlot rfl h

theorem framesApart_corniceAlloc {s : State} {m : Master} {v : Word} (h : s.FramesApart) : (corniceAlloc m v s).FramesApart := by
  unfold corniceAlloc
  split
  · exact framesApart_of_firn (firn_corResult _ m _ _) (framesApart_cAlloc h)
  · exact h

theorem framesApart_releaseSlot {s : State} {j : Nat} (h : s.FramesApart) : (s.releaseSlot j).FramesApart := by
  unfold State.releaseSlot
  split
  · exact framesApart_setSlot (frame_slotSettle _) h
  · exact h

theorem framesApart_corniceRelease {s : State} {m : Master} {v : Word} (h : s.FramesApart) : (corniceRelease m v s).FramesApart := by
  unfold corniceRelease
  split
  · split
    · exact framesApart_of_firn (firn_corResult _ m _ _) (framesApart_releaseSlot h)
    · exact framesApart_of_firn (firn_corResult s m _ _) h
  · exact h

theorem framesApart_corniceScrubDone {s : State} {j : Nat} (h : s.FramesApart) : (corniceScrubDone j s).FramesApart := by
  unfold corniceScrubDone
  simp only
  split
  · split
    · exact framesApart_setSlot rfl (framesApart_of_firn rfl h)
    · exact h
  · exact h

/-- A core's command keeps the frames apart where its effect does: a held store does not touch the FIRN. -/
theorem framesApart_byCore {s : State} {m : Master} {a : Nat} {v : Word} {go : State → State} (h : s.FramesApart)
    (hgo : (go s).FramesApart) : (s.byCore m a v go).FramesApart := by
  rcases byCore_cases (s := s) (m := m) (a := a) (v := v) (go := go) with heq | ⟨c, _, _, heq⟩
  · rw [heq]; exact hgo
  · rw [heq]; exact framesApart_of_firn (congrArg (fun u => u.firn) (hold_frame s m c a 4 v.toNat)) h

/-- Settles O38: the movements exchange frames between a tag, a Serac entry and a Cornice slot, and every other update writes
back the frame that it found. -/
theorem framesStayApart : Obligations.FramesStayApart := by
  unfold Obligations.FramesStayApart
  intro m v j s t h hexec
  rcases hexec with hexec | hexec | hexec | hexec | hexec | hexec | hexec | hexec | hexec <;> cases hexec
  · exact framesApart_byCore h (framesApart_lookCmd h)
  · exact framesApart_byCore h (framesApart_lookCmd h)
  · exact framesApart_byCore h (framesApart_lookCmd h)
  · exact framesApart_byCore h (framesApart_lookCmd h)
  · exact framesApart_byCore h (framesApart_fillCmd h)
  · exact framesApart_byCore h (framesApart_firnCommitCmd h)
  · exact framesApart_byCore h (framesApart_corniceAlloc h)
  · exact framesApart_byCore h (framesApart_corniceRelease h)
  · exact framesApart_corniceScrubDone h

end Sys2Proof.Proofs

/-! PROOFS. Bursts of ring entries (R369). -/

namespace Sys2Proof.Proofs

open Sys2Proof Sys2Proof.Machine

section Bursts

variable {s : State} {r : Nat}

/-- A ring has work only where its tail is ahead and its party may take entries. -/
theorem sqWork_spec (h : sqWork s r = true) : (s.sq r).tail ≠ (s.sq r).fptr ∧ 0 < roomFor s (sqParty s r) := by
  simp only [sqWork, Bool.and_eq_true, bne_iff_ne, decide_eq_true_eq] at h
  obtain ⟨⟨⟨_, hne⟩, _⟩, hroom⟩ := h
  exact ⟨hne, hroom⟩

/-- How far a pointer of a ring of n entries is behind another. -/
theorem ringDistance {n f t : Nat} (hf : f < n) (ht : t < n) (hne : t ≠ f) :
    (t + n - f) % n = if f < t then t - f else t + n - f := by
  split
  · rw [show t + n - f = t - f + n by omega, Nat.add_mod_right, Nat.mod_eq_of_lt (by omega)]
  · exact Nat.mod_eq_of_lt (by omega)

theorem burstLen_eq (s : State) (r : Nat) : burstLen s r =
    min (min 8 (roomFor s (sqParty s r)))
      (min (min (sqSize s r - (s.sq r).fptr) (64 - (s.sq r).fptr % 64))
        (((s.sq r).tail + sqSize s r - (s.sq r).fptr) % sqSize s r)) := rfl

/-- A burst is the least of its five bounds. -/
theorem burstLen_bounds : burstLen s r ≤ 8 ∧ burstLen s r ≤ roomFor s (sqParty s r) ∧ burstLen s r ≤ sqSize s r - (s.sq r).fptr ∧
    burstLen s r ≤ 64 - (s.sq r).fptr % 64 ∧
    burstLen s r ≤ ((s.sq r).tail + sqSize s r - (s.sq r).fptr) % sqSize s r := by
  rw [burstLen_eq]
  omega

theorem burstLen_pos (hroom : 0 < roomFor s (sqParty s r)) (hf : (s.sq r).fptr < sqSize s r)
    (hd : 0 < ((s.sq r).tail + sqSize s r - (s.sq r).fptr) % sqSize s r) : 1 ≤ burstLen s r := by
  rw [burstLen_eq]
  omega

/-- Entries of 64 bytes up to the next multiple of 64 entries lie in one 4 KiB page. -/
theorem same_page {page f b : Nat} (hb : 1 ≤ b) (hle : b ≤ 64 - f % 64) :
    (4096 * page + 64 * f) / 4096 = (4096 * page + 64 * (f + b) - 1) / 4096 := by omega

theorem sqBase_page (s : State) (r : Nat) :
    sqBase s r = 4096 * (s.get (F.SQ_0_BASE_LO r) + s.get (F.SQ_4_BASE_HI r) * 1048576) := by
  simp only [sqBase]
  omega

/-- Settles O48: a burst is the least of its bounds, and each is positive while the ring has work. -/
theorem entryBurstsStayInRingAndPage : Obligations.EntryBurstsStayInRingAndPage := by
  unfold Obligations.EntryBurstsStayInRingAndPage
  intro s r hwork hf ht
  obtain ⟨hne, hroom⟩ := sqWork_spec hwork
  have hdist := ringDistance hf ht hne
  have hd : 0 < ((s.sq r).tail + sqSize s r - (s.sq r).fptr) % sqSize s r := by
    rw [hdist]
    split <;> omega
  have hpos := burstLen_pos hroom hf hd
  obtain ⟨h8, hle, hring, hpage, htail⟩ := burstLen_bounds (s := s) (r := r)
  refine ⟨hpos, h8, by omega, hle, fun hlt => ?_, ?_⟩
  · rw [hdist, if_pos hlt] at htail
    omega
  · rw [sqBase_page]
    exact same_page hpos hpage

end Bursts

end Sys2Proof.Proofs

/-! PROOFS. The host address check (R360) and the doorbell fetch that it refuses (R368). -/

namespace Sys2Proof.Proofs

open Sys2Proof Sys2Proof.Machine

theorem testBit_setBit_self (n i : Nat) : (setBit n i true).testBit i = true := by
  simp [setBit, Nat.testBit_or, Nat.testBit_two_pow_self]

/-- A write of WAKE where the doorbell page's range is refused sends nothing and sets DBREF. -/
theorem dbRequest_of_refused {s : State} {p a : Nat} (hidle : tabGet s.uqi.fetch 0 p = 0) (hen : s.on (F.DBP_0_EN p) = true)
    (hring : highRing s p ≠ 0) (hport : portUp s (curPort s p) = true)
    (ha : a = s.get (F.DBP_0_ADDR_LO p) * 4096 + s.get (F.DBP_4_ADDR_HI p) * 4294967296)
    (href : hostCheck s a (16 * highRing s p) ≠ none) :
    s.dbRequest p = s.hostRefused.onUqi fun u => { u with dbref := setBit u.dbref p true } := by
  subst ha
  have hsome := Option.isSome_iff_ne_none.2 href
  simp [State.dbRequest, hidle, hen, hring, hport, hsome]

/-- A range of n > 0 bytes meets a function's BAR0. -/
theorem bar_hit_iff {s : State} {q a n : Nat} (hn : 0 < n) :
    (decide ((s.port q).bar ≠ 0) && spansMeet a n (s.port q).bar.toNat 0x4000) = false ↔
      (s.port q).bar = 0 ∨ a + n ≤ (s.port q).bar.toNat ∨ (s.port q).bar.toNat + 0x4000 ≤ a := by
  by_cases hbar : (s.port q).bar = 0
  · simp [hbar]
  · simp only [spansMeet, hbar, hn, ne_eq, not_false_eq_true, decide_true, Bool.true_and, Bool.and_true, false_or,
      Bool.and_eq_false_iff, decide_eq_false_iff_not, show (0 < 16384) from by decide]
    omega

/-- A range is accepted where it meets no BAR0, lies in a window while the check is on, and ends within the address space. -/
theorem hostCheck_eq_none_iff {s : State} {a n : Nat} (hn : 0 < n) (hx2 : x2 s = false) : hostCheck s a n = none ↔
    (∀ q, q < 2 → (s.port q).bar = 0 ∨ a + n ≤ (s.port q).bar.toNat ∨ (s.port q).bar.toNat + 0x4000 ≤ a) ∧
    (s.on F.HMWCTL_EN = true → ∃ k, k < 8 ∧ inWindow s k a n = true) ∧ a + n ≤ 2 ^ 64 := by
  have hbars : (∀ q, q < 2 → (s.port q).bar = 0 ∨ a + n ≤ (s.port q).bar.toNat ∨ (s.port q).bar.toNat + 0x4000 ≤ a) ↔
      ¬ ((decide ((s.port 0).bar ≠ 0) && spansMeet a n (s.port 0).bar.toNat 0x4000) = true ∨
        (decide ((s.port 1).bar ≠ 0) && spansMeet a n (s.port 1).bar.toNat 0x4000) = true) := by
    rw [not_or, Bool.not_eq_true, Bool.not_eq_true, bar_hit_iff hn, bar_hit_iff hn]
    exact ⟨fun h => ⟨h 0 (by omega), h 1 (by omega)⟩, fun ⟨h0, h1⟩ q hq => by
      rcases (show q = 0 ∨ q = 1 by omega) with rfl | rfl <;> assumption⟩
  have hwindow : (s.on F.HMWCTL_EN = true → ∃ k, k < 8 ∧ inWindow s k a n = true) ↔
      ¬ (s.on F.HMWCTL_EN = true ∧ ¬ ((List.range 8).any fun k => inWindow s k a n) = true) := by
    simp [List.any_eq_true]
  rw [hbars, hwindow]
  simp only [hostCheck, hx2, Bool.false_eq_true, not_false_eq_true, and_true]
  split
  · next h => exact ⟨nofun, fun hall => absurd h hall.1⟩
  · next hbar =>
    split
    · next h => exact ⟨nofun, fun hall => absurd h hall.2.1⟩
    · next hwin =>
      split
      · next h => exact ⟨nofun, fun hall => absurd hall.2.2 (by omega)⟩
      · next h => exact ⟨fun _ => ⟨hbar, hwin, by omega⟩, fun _ => rfl⟩

/-- Settles O49: a refused doorbell fetch only counts the refusal and sets DBREF; the check is the three cases of R360. -/
theorem refusedHostRangesSendNothing : Obligations.RefusedHostRangesSendNothing := by
  unfold Obligations.RefusedHostRangesSendNothing
  refine ⟨fun q p a s hbar hidle hen hring hport ha href => ?_, fun s a n hn hx2 => hostCheck_eq_none_iff hn hx2⟩
  have hwake : exec (.wake q p) s = .next (hostWrite q (fun s => s.dbRequest p.toNat) s) := rfl
  rw [hwake, hostWrite, if_pos hbar, dbRequest_of_refused hidle hen hring hport ha href]
  exact ⟨_, rfl, rfl, testBit_setBit_self _ _, rfl⟩

end Sys2Proof.Proofs

/-! PROOFS. Halts of the data movers: what a halt leaves (R335, R336), and the descriptor and the sector that fail their checks
(R338, R345). -/

namespace Sys2Proof.Proofs

open Sys2Proof Sys2Proof.Machine

/-! ### Lists of bytes in a sparse memory -/

section Bytes

variable {α : Type} [DecidableEq α] {d : Nat → α}

/-- A list just written is what its range reads as. -/
theorem readList_writeList_same : ∀ (vs : List α) (k : Nat) {m : List (Nat × α)}, Sparse.wf d m = true →
    Sparse.readList d (Sparse.writeList d m k vs) k vs.length = vs
  | [], _, _, _ => rfl
  | v :: vs, k, m, h => by
    have hw := Sparse.wf_write (k := k) v h
    simp only [Sparse.writeList, List.length_cons, Sparse.readList]
    rw [Sparse.read_writeList_outside vs (k + 1) k hw (by omega), Sparse.read_write_self v h,
      readList_writeList_same vs (k + 1) hw]

end Bytes

/-! ### A channel's registers -/

section Halt

variable {s : State} {c cause detail : Nat}

theorem rd_put_ne (hs : s.regsWf = true) {f : Fld} {k : Nat} (hk : k ≠ f.reg) (n : Nat) : (s.put f n).rd k = s.rd k :=
  rd_wr_ne _ hs hk

theorem get_of_rd {t u : State} {f : Fld} (h : t.rd f.reg = u.rd f.reg) : t.get f = u.get f := by
  simp only [State.get, h]

theorem bit_setIn_same (hs : s.regsWf = true) {f : Fld} (hf : fldOk f = true) {n : Nat} (hn : n < f.hi + 1 - f.lo) :
    (s.setIn f n).bit f n = true := by
  rw [State.bit, State.setIn, get_put_same _ hs hf, Nat.testBit_mod_two_pow]
  simp [hn, Nat.testBit_or, Nat.testBit_two_pow_self]

theorem testBit_clear (x n : Nat) : (if x.testBit n then x - 2 ^ n else x).testBit n = false := by
  split
  · next h =>
    have hdiv : x / 2 ^ n % 2 = 1 := by simpa [Nat.testBit_eq_decide_div_mod_eq] using h
    have hle : 2 ^ n ≤ x := Nat.ge_two_pow_of_testBit h
    have hsub : (x - 2 ^ n) / 2 ^ n = x / 2 ^ n - 1 := by
      have := Nat.sub_mul_div x (2 ^ n) 1
      simpa using this
    rw [Nat.testBit_eq_decide_div_mod_eq, hsub]
    simp
    omega
  · next h => simpa using h

theorem bit_clrIn_same (hs : s.regsWf = true) {f : Fld} (hf : fldOk f = true) {n : Nat} :
    (s.clrIn f n).bit f n = false := by
  rw [State.bit, State.clrIn, get_put_same _ hs hf, Nat.testBit_mod_two_pow, testBit_clear, Bool.and_false]

/-- A halt is counted in DMA_CNT or CRY_CNT only. -/
theorem haltCount_cases (s : State) (cause : Nat) :
    s.haltCount cause = s ∨ ∃ f n, s.haltCount cause = s.put f n ∧ (f.reg = R.DMA_CNT ∨ f.reg = R.CRY_CNT) := by
  unfold State.haltCount
  split
  · exact .inr ⟨_, _, rfl, .inl rfl⟩
  split
  · exact .inr ⟨_, _, rfl, .inl rfl⟩
  split
  · exact .inr ⟨_, _, rfl, .inl rfl⟩
  split
  · exact .inr ⟨_, _, rfl, .inr rfl⟩
  split
  · exact .inr ⟨_, _, rfl, .inl rfl⟩
  · exact .inl rfl

theorem regsWf_haltCount (hs : s.regsWf = true) : (s.haltCount cause).regsWf = true := by
  obtain h | ⟨f, n, h, _⟩ := haltCount_cases s cause <;> rw [h]
  · exact hs
  · exact regsWf_put _ _ hs

theorem rd_haltCount_ne (hs : s.regsWf = true) {k : Nat} (h1 : k ≠ R.DMA_CNT) (h2 : k ≠ R.CRY_CNT) :
    (s.haltCount cause).rd k = s.rd k := by
  obtain h | ⟨f, n, h, hf⟩ := haltCount_cases s cause <;> rw [h]
  rcases hf with hf | hf <;> exact rd_put_ne hs (by rw [hf]; assumption) _

/-! ### The writeback (R336) -/

/-- Bytes 0x2C to 0x3F of a descriptor as a channel writes them back. -/
def backBytes (s : State) (c cause detail : Nat) : List Byte :=
  leBytes 4 (cause + 0x80 + detail * 256) ++ leBytes 4 (s.get (F.CHDONE_DONE c)) ++ leBytes 4 (chCrc (s.chan c)) ++
    leBytes 8 (fullMask (s.chan c) (dscOf (s.chan c).desc))

theorem backBytes_length : (backBytes s c cause detail).length = 20 := by
  simp [backBytes, Laws.leBytes_length]

/-- A descriptor lies in the shared pool or in the general region, to its last byte. -/
theorem dscAddrOk_cases {a : Nat} (h : dscAddrOk a = true) :
    a % 64 = 0 ∧ (0x18000000 ≤ a ∧ a + 0x40 ≤ 0x18300000 ∨ 0xC1000000 ≤ a ∧ a + 0x40 ≤ 0xC4000000) := by
  simp only [dscAddrOk, Bool.and_eq_true, Bool.or_eq_true, beq_iff_eq, inPool, decide_eq_true_eq, bufRegion] at h
  obtain ⟨ha, h | h⟩ := h
  · exact ⟨ha, .inl ⟨h.1, by omega⟩⟩
  · refine ⟨ha, .inr ?_⟩
    split at h
    · cases h
    split at h
    · cases h
    split at h
    · cases h
    split at h
    · omega
    · cases h

/-- A writeback lands in the shared pool or in the general region, or nowhere. -/
theorem writeback_cases (s : State) (c cause detail : Nat) :
    (s.writeback c cause detail = s ∧ ((s.chan c).uqi = true ∨ dscAddrOk (s.get (F.CHDESC_ADDR c)) = false)) ∨
    (dscAddrOk (s.get (F.CHDESC_ADDR c)) = true ∧ s.get (F.CHDESC_ADDR c) + 0x40 ≤ 0x18300000 ∧
      s.writeback c cause detail = s.sramWrite (s.get (F.CHDESC_ADDR c) + 0x2C) (backBytes s c cause detail)) ∨
    (dscAddrOk (s.get (F.CHDESC_ADDR c)) = true ∧ 0xC1000000 ≤ s.get (F.CHDESC_ADDR c) ∧
      s.writeback c cause detail = s.bufWrite (s.get (F.CHDESC_ADDR c) + 0x2C) (backBytes s c cause detail)) := by
  by_cases huqi : (s.chan c).uqi = true
  · exact .inl ⟨by simp [State.writeback, huqi], .inl huqi⟩
  by_cases hok : dscAddrOk (s.get (F.CHDESC_ADDR c)) = true
  · have hback : s.writeback c cause detail =
        s.dmaWrite (s.get (F.CHDESC_ADDR c) + 0x2C) (backBytes s c cause detail) := by
      simp [State.writeback, huqi, hok, backBytes]
    obtain ⟨_, h | h⟩ := dscAddrOk_cases hok
    · have hlow : s.get (F.CHDESC_ADDR c) + 0x2C < 0x80000000 := by omega
      have hpool : inPool (s.get (F.CHDESC_ADDR c) + 0x2C) = true := by
        simp only [inPool, Bool.and_eq_true, decide_eq_true_eq]
        omega
      refine .inr (.inl ⟨hok, by omega, ?_⟩)
      rw [hback, State.dmaWrite, if_pos hlow, State.poolWrite, if_pos hpool]
    · have hhigh : ¬ s.get (F.CHDESC_ADDR c) + 0x2C < 0x80000000 := by omega
      have hregion : bufRegion (s.get (F.CHDESC_ADDR c) + 0x2C) = some 4 := by
        rw [bufRegion, if_neg (by omega), if_neg (by omega), if_neg (by omega), if_pos (by omega)]
      refine .inr (.inr ⟨hok, by omega, ?_⟩)
      rw [hback, State.dmaWrite, if_neg hhigh, if_pos hregion]
  · exact .inl ⟨by simp [State.writeback, hok], .inr (by simpa using hok)⟩

@[simp] theorem State.sramWrite_regs (s : State) (a : Nat) (bs : List Byte) : (s.sramWrite a bs).regs = s.regs := rfl
@[simp] theorem State.sramWrite_dma (s : State) (a : Nat) (bs : List Byte) : (s.sramWrite a bs).dma = s.dma := rfl
@[simp] theorem State.sramWrite_out (s : State) (a : Nat) (bs : List Byte) : (s.sramWrite a bs).out = s.out := rfl
@[simp] theorem State.sramWrite_store (s : State) (a : Nat) (bs : List Byte) : (s.sramWrite a bs).store = s.store := rfl
@[simp] theorem State.sramWrite_buf (s : State) (a : Nat) (bs : List Byte) : (s.sramWrite a bs).buf = s.buf := rfl
@[simp] theorem State.bufWrite_regs (s : State) (a : Nat) (bs : List Byte) : (s.bufWrite a bs).regs = s.regs := rfl
@[simp] theorem State.bufWrite_dma (s : State) (a : Nat) (bs : List Byte) : (s.bufWrite a bs).dma = s.dma := rfl
@[simp] theorem State.bufWrite_out (s : State) (a : Nat) (bs : List Byte) : (s.bufWrite a bs).out = s.out := rfl
@[simp] theorem State.bufWrite_store (s : State) (a : Nat) (bs : List Byte) : (s.bufWrite a bs).store = s.store := rfl
@[simp] theorem State.bufWrite_sram (s : State) (a : Nat) (bs : List Byte) : (s.bufWrite a bs).sram = s.sram := rfl

@[simp] theorem State.sramWrite_sram (s : State) (a : Nat) (bs : List Byte) :
    (s.sramWrite a bs).sram = Sparse.writeList zeroed s.sram a bs := rfl
@[simp] theorem State.bufWrite_buf (s : State) (a : Nat) (bs : List Byte) :
    (s.bufWrite a bs).buf = Sparse.writeList zeroed s.buf a bs := rfl

theorem writeback_regs : (s.writeback c cause detail).regs = s.regs := by
  obtain ⟨h, _⟩ | ⟨_, _, h⟩ | ⟨_, _, h⟩ := writeback_cases s c cause detail <;> simp only [h, State.sramWrite_regs, State.bufWrite_regs]

theorem writeback_dma : (s.writeback c cause detail).dma = s.dma := by
  obtain ⟨h, _⟩ | ⟨_, _, h⟩ | ⟨_, _, h⟩ := writeback_cases s c cause detail <;> simp only [h, State.sramWrite_dma, State.bufWrite_dma]

theorem writeback_out : (s.writeback c cause detail).out = s.out := by
  obtain ⟨h, _⟩ | ⟨_, _, h⟩ | ⟨_, _, h⟩ := writeback_cases s c cause detail <;> simp only [h, State.sramWrite_out, State.bufWrite_out]

theorem writeback_store : (s.writeback c cause detail).store = s.store := by
  obtain ⟨h, _⟩ | ⟨_, _, h⟩ | ⟨_, _, h⟩ := writeback_cases s c cause detail <;> simp only [h, State.sramWrite_store, State.bufWrite_store]

theorem bufBytes_one (s : State) (x : Nat) : s.bufBytes x 1 = [Sparse.read zeroed s.buf x] := rfl
theorem sramBytes_one (s : State) (x : Nat) : s.sramBytes x 1 = [Sparse.read zeroed s.sram x] := rfl

theorem memWf_spec (h : s.memWf = true) : Sparse.wf zeroed s.sram = true ∧ Sparse.wf zeroed s.buf = true := by
  simp only [State.memWf, Bool.and_eq_true] at h
  exact ⟨h.1.1, h.2⟩

/-- A writeback changes no byte outside 0x2C to 0x3F of the descriptor. -/
theorem writeback_outside (hs : s.memWf = true) {x : Nat}
    (hx : x < s.get (F.CHDESC_ADDR c) + 0x2C ∨ s.get (F.CHDESC_ADDR c) + 0x40 ≤ x) :
    (s.writeback c cause detail).bufBytes x 1 = s.bufBytes x 1 ∧ (s.writeback c cause detail).sramBytes x 1 = s.sramBytes x 1 := by
  obtain ⟨hsram, hbuf⟩ := memWf_spec hs
  have hlen := backBytes_length (s := s) (c := c) (cause := cause) (detail := detail)
  have hout : x < s.get (F.CHDESC_ADDR c) + 0x2C ∨
      s.get (F.CHDESC_ADDR c) + 0x2C + (backBytes s c cause detail).length ≤ x := by omega
  obtain ⟨h, _⟩ | ⟨_, _, h⟩ | ⟨_, _, h⟩ := writeback_cases s c cause detail 
  · simp only [h, and_self]
  · simp only [h, bufBytes_one, sramBytes_one, State.sramWrite_buf, State.sramWrite_sram,
      Sparse.read_writeList_outside _ _ _ hsram hout, and_self]
  · simp only [h, bufBytes_one, sramBytes_one, State.bufWrite_buf, State.bufWrite_sram,
      Sparse.read_writeList_outside _ _ _ hbuf hout, and_self]

/-- Where a descriptor may lie, bytes 0x2C to 0x3F are what the channel writes back. -/
theorem writeback_inside (hs : s.memWf = true) (huqi : (s.chan c).uqi = false)
    (hok : dscAddrOk (s.get (F.CHDESC_ADDR c)) = true) :
    (s.writeback c cause detail).dmaBytes (s.get (F.CHDESC_ADDR c) + 0x2C) 20 = backBytes s c cause detail := by
  obtain ⟨hsram, hbuf⟩ := memWf_spec hs
  have hlen := backBytes_length (s := s) (c := c) (cause := cause) (detail := detail)
  obtain ⟨_, h⟩ | ⟨_, hle, h⟩ | ⟨_, hle, h⟩ := writeback_cases s c cause detail
  · simp [huqi, hok] at h
  · have hsame := readList_writeList_same (backBytes s c cause detail) (s.get (F.CHDESC_ADDR c) + 0x2C) hsram
    rw [hlen] at hsame
    rw [h, State.dmaBytes, if_pos (by omega), State.sramBytes, State.sramWrite_sram, hsame]
  · have hsame := readList_writeList_same (backBytes s c cause detail) (s.get (F.CHDESC_ADDR c) + 0x2C) hbuf
    rw [hlen] at hsame
    rw [h, State.dmaBytes, if_neg (by omega), State.bufBytes, State.bufWrite_buf, hsame]

/-- Where no descriptor may lie, nothing is written back. -/
theorem writeback_of_bad_address (h : dscAddrOk (s.get (F.CHDESC_ADDR c)) = false) : s.writeback c cause detail = s := by
  simp [State.writeback, h]

/-! ### A halt (R335) -/

/-- The state of a halt before its HALT event: the cause, the state and the count on top of the writeback. -/
def haltShown (s : State) (c cause detail : Nat) : State :=
  (((s.put (F.CHSTAT_CAUSE c) cause).put (F.CHSTAT_DETAIL c) detail).chEnter c chHALTED).haltCount cause

theorem chHalt_eq (s : State) (c cause detail : Nat) : s.chHalt c cause detail =
    ((haltShown (s.writeback c cause detail) c cause detail).setIn F.DMA_EVT_HALT c).onChan c quiet := rfl

/-- What a halt keeps besides registers and the channel: it is what the writeback leaves. -/
theorem haltShown_keeps {β : Type} (part : State → β) (hput : ∀ (t : State) f n, part (t.put f n) = part t) :
    part (haltShown s c cause detail) = part s := by
  have hcount : ∀ t : State, part (t.haltCount cause) = part t := fun t => by
    obtain h | ⟨f, n, h, _⟩ := haltCount_cases t cause <;> rw [h]
    exact hput _ _ _
  have henter : ∀ t : State, part (t.chEnter c chHALTED) = part t := fun t => (hput _ _ _).trans (hput _ _ _)
  exact (hcount _).trans ((henter _).trans ((hput _ _ _).trans (hput _ _ _)))

theorem chHalt_keeps {β : Type} (part : State → β) (hput : ∀ (t : State) f n, part (t.put f n) = part t)
    (hchan : ∀ (t : State) k, part (t.setChan c k) = part t) :
    part (s.chHalt c cause detail) = part (s.writeback c cause detail) := by
  rw [chHalt_eq]
  exact (hchan _ _).trans ((hput _ _ _).trans (haltShown_keeps part hput))

theorem chHalt_out : (s.chHalt c cause detail).out = s.out :=
  (chHalt_keeps (fun t => t.out) (fun _ _ _ => rfl) fun _ _ => rfl).trans writeback_out

theorem chHalt_store : (s.chHalt c cause detail).store = s.store :=
  (chHalt_keeps (fun t => t.store) (fun _ _ _ => rfl) fun _ _ => rfl).trans writeback_store

theorem chHalt_buf : (s.chHalt c cause detail).buf = (s.writeback c cause detail).buf :=
  chHalt_keeps (fun t => t.buf) (fun _ _ _ => rfl) fun _ _ => rfl

theorem chHalt_sram : (s.chHalt c cause detail).sram = (s.writeback c cause detail).sram :=
  chHalt_keeps (fun t => t.sram) (fun _ _ _ => rfl) fun _ _ => rfl

theorem haltShown_dma : (haltShown s c cause detail).dma = s.dma := haltShown_keeps (fun t => t.dma) fun _ _ _ => rfl

theorem chan_chHalt (hs : s.dmaWf = true) : (s.chHalt c cause detail).chan c = quiet (s.chan c) := by
  have hdma : ((haltShown (s.writeback c cause detail) c cause detail).setIn F.DMA_EVT_HALT c).dma = s.dma :=
    haltShown_dma.trans writeback_dma
  rw [chHalt_eq]
  simp only [State.onChan, State.chan, State.setChan_dma, hdma]
  exact tabGet_tabPut_same _ _ hs

theorem regsWf_haltShown (hs : s.regsWf = true) : (haltShown s c cause detail).regsWf = true :=
  regsWf_haltCount (regsWf_put _ _ (regsWf_put _ _ (regsWf_put _ _ (regsWf_put _ _ hs))))

theorem regsWf_writeback (hs : s.regsWf = true) : (s.writeback c cause detail).regsWf = true := by
  rw [State.regsWf, writeback_regs]
  exact hs

theorem rd_writeback (k : Nat) : (s.writeback c cause detail).rd k = s.rd k := by simp only [State.rd, writeback_regs]

/-- A halt leaves every register alone but the channel's CHSTAT and the registers of all channels. -/
theorem rd_chHalt_ne (hs : s.regsWf = true) {k : Nat} (hstat : k ≠ R.CHSTAT c) (hbusy : k ≠ R.DMA_STAT) (hevt : k ≠ R.DMA_EVT)
    (hcnt : k ≠ R.DMA_CNT) (hcry : k ≠ R.CRY_CNT) : (s.chHalt c cause detail).rd k = s.rd k := by
  have hb := regsWf_writeback (c := c) (cause := cause) (detail := detail) hs
  have h1 := regsWf_put (F.CHSTAT_CAUSE c) cause hb
  have h2 := regsWf_put (F.CHSTAT_DETAIL c) detail h1
  have h3 := regsWf_put (F.CHSTAT_STATE c) chHALTED h2
  calc (s.chHalt c cause detail).rd k
    _ = (haltShown (s.writeback c cause detail) c cause detail).rd k := rd_put_ne (regsWf_haltShown hb) hevt _
    _ = ((((s.writeback c cause detail).put (F.CHSTAT_CAUSE c) cause).put (F.CHSTAT_DETAIL c) detail).put
          (F.CHSTAT_STATE c) chHALTED).rd k := (rd_haltCount_ne (regsWf_put _ _ h3) hcnt hcry).trans (rd_put_ne h3 hbusy _)
    _ = (s.writeback c cause detail).rd k := (rd_put_ne h2 hstat _).trans ((rd_put_ne h1 hstat _).trans (rd_put_ne hb hstat _))
    _ = s.rd k := rd_writeback k

/-- The registers that a halt shows. -/
theorem chHalt_shows (hs : s.regsWf = true) (hc : c < 16) (hcause : cause < 32) (hdetail : detail < 256) :
    chState (s.chHalt c cause detail) c = chHALTED ∧ (s.chHalt c cause detail).get (F.CHSTAT_CAUSE c) = cause ∧
      (s.chHalt c cause detail).get (F.CHSTAT_DETAIL c) = detail ∧ (s.chHalt c cause detail).bit F.DMA_EVT_HALT c = true ∧
      (s.chHalt c cause detail).bit F.DMA_STAT_BUSY c = false := by
  have hb := regsWf_writeback (c := c) (cause := cause) (detail := detail) hs
  have h1 := regsWf_put (F.CHSTAT_CAUSE c) cause hb
  have h2 := regsWf_put (F.CHSTAT_DETAIL c) detail h1
  have h3 := regsWf_put (F.CHSTAT_STATE c) chHALTED h2
  have h4 := regsWf_haltShown (c := c) (cause := cause) (detail := detail) hb
  have hevt : R.CHSTAT c ≠ R.DMA_EVT := by simp only [R.CHSTAT, R.DMA_EVT]; omega
  have hstat : R.CHSTAT c ≠ R.DMA_STAT := by simp only [R.CHSTAT, R.DMA_STAT]; omega
  have hcnt : R.CHSTAT c ≠ R.DMA_CNT := by simp only [R.CHSTAT, R.DMA_CNT]; omega
  have hcry : R.CHSTAT c ≠ R.CRY_CNT := by simp only [R.CHSTAT, R.CRY_CNT]; omega
  have hrd : (s.chHalt c cause detail).rd (R.CHSTAT c) =
      ((((s.writeback c cause detail).put (F.CHSTAT_CAUSE c) cause).put (F.CHSTAT_DETAIL c) detail).put
          (F.CHSTAT_STATE c) chHALTED).rd (R.CHSTAT c) :=
    (rd_put_ne h4 hevt _).trans ((rd_haltCount_ne (regsWf_put _ _ h3) hcnt hcry).trans (rd_put_ne h3 hstat _))
  refine ⟨?_, ?_, ?_, bit_setIn_same h4 rfl hc, ?_⟩
  · exact (get_of_rd (f := F.CHSTAT_STATE c) hrd).trans (get_put_same _ h2 rfl)
  · rw [get_of_rd (f := F.CHSTAT_CAUSE c) hrd, get_put_apart _ h2 rfl rfl (by simp [fldApart, F.CHSTAT_STATE, F.CHSTAT_CAUSE]),
      get_put_apart _ h1 rfl rfl (by simp [fldApart, F.CHSTAT_DETAIL, F.CHSTAT_CAUSE]), get_put_same _ hb rfl]
    exact Nat.mod_eq_of_lt hcause
  · rw [get_of_rd (f := F.CHSTAT_DETAIL c) hrd, get_put_apart _ h2 rfl rfl (by simp [fldApart, F.CHSTAT_STATE, F.CHSTAT_DETAIL]),
      get_put_same _ h1 rfl]
    exact Nat.mod_eq_of_lt hdetail
  · have hstays : (s.chHalt c cause detail).rd R.DMA_STAT = ((((s.writeback c cause detail).put (F.CHSTAT_CAUSE c) cause).put
        (F.CHSTAT_DETAIL c) detail).chEnter c chHALTED).rd R.DMA_STAT :=
      (rd_put_ne h4 (by decide) _).trans (rd_haltCount_ne (regsWf_put _ _ h3) (by decide) (by decide))
    rw [State.bit, get_of_rd (f := F.DMA_STAT_BUSY) hstays]
    exact bit_clrIn_same h3 rfl

/-! ### A descriptor becomes current (R338) -/

/-- What a channel takes over of a descriptor that becomes current. -/
def chLoaded (s : State) (c : Nat) (bs : List Byte) : Chan :=
  { quiet (s.chan c) with
    desc := bs, crc := if (dscOf bs).crccont then (s.chan c).crc else 0xFFFFFFFF, secs := 0, asked := 0, askedPi := 0,
    base := passedOf s (dscOf bs).tag,
    ranges := if (s.chan c).uqi then (s.chan c).ranges
      else if (dscOf bs).dst = eHOST then [((dscOf bs).daddr, (dscOf bs).len)] else [((dscOf bs).saddr, (dscOf bs).len)] }

/-- A channel with a loaded descriptor, of which nothing is done. -/
def chLoad (s : State) (c : Nat) (k : Chan) : State :=
  ((s.setChan c k).put (F.CHDONE_DONE c) 0).put (F.CHCRC_CRC c) (chCrc k)

variable {bs : List Byte} {ue : Option (BitVec 32)} {k : Chan}

theorem regsWf_chLoad (hs : s.regsWf = true) : (chLoad s c k).regsWf = true :=
  regsWf_put _ _ (regsWf_put _ _ (s := s.setChan c k) hs)

theorem rd_chLoad_ne (hs : s.regsWf = true) {j : Nat} (hdone : j ≠ R.CHDONE c) (hcrc : j ≠ R.CHCRC c) :
    (chLoad s c k).rd j = s.rd j :=
  (rd_put_ne (regsWf_put _ _ (s := s.setChan c k) hs) hcrc _).trans (rd_put_ne (s := s.setChan c k) hs hdone _)

theorem chan_chLoad (hs : s.dmaWf = true) : (chLoad s c k).chan c = k := tabGet_tabPut_same _ _ hs

theorem dmaWf_chLoad (hs : s.dmaWf = true) : (chLoad s c k).dmaWf = true := wf_tabPut _ _ hs

theorem done_chLoad (hs : s.regsWf = true) : (chLoad s c k).get (F.CHDONE_DONE c) = 0 := by
  have hk : (s.setChan c k).regsWf = true := hs
  have hne : R.CHCRC c ≠ R.CHDONE c := by simp only [R.CHDONE, R.CHCRC]; omega
  rw [chLoad, get_put_apart _ (regsWf_put _ _ hk) rfl rfl (by simp [fldApart, F.CHDONE_DONE, F.CHCRC_CRC, hne]), get_put_same _ hk rfl,
    Nat.zero_mod]

theorem get_chLoad_desc (hs : s.regsWf = true) : (chLoad s c k).get (F.CHDESC_ADDR c) = s.get (F.CHDESC_ADDR c) :=
  get_of_rd (f := F.CHDESC_ADDR c) (rd_chLoad_ne hs (by simp only [F.CHDESC_ADDR, R.CHDESC, R.CHDONE]; omega)
    (by simp only [F.CHDESC_ADDR, R.CHDESC, R.CHCRC]; omega))

/-- The checks of a descriptor read no register of a channel. -/
theorem dscHalt_congr {t : State} (hports : t.ports = s.ports) (hrd : ∀ j, j < 0x40009100 ∨ 0x4000A000 ≤ j → t.rd j = s.rd j)
    (d : Dsc) (htag : d.tag < 128) : dscHalt t d = dscHalt s d := by
  have hget : ∀ f : Fld, f.reg < 0x40009100 ∨ 0x4000A000 ≤ f.reg → t.get f = s.get f := fun f hf => get_of_rd (hrd f.reg hf)
  have hon : ∀ f : Fld, f.reg < 0x40009100 ∨ 0x4000A000 ≤ f.reg → t.on f = s.on f := fun f hf => by
    simp only [State.on, hget f hf]
  have hmode : t.mode = s.mode := hget _ (by decide)
  have hx2 : x2 t = x2 s := hon _ (by decide)
  have hbad : badDesc t d = badDesc s d := by simp only [badDesc, hx2]
  have hkey : noKey t d.party = noKey s d.party := by
    have hready : t.on (F.CRY_SLOT_READY d.party) = s.on (F.CRY_SLOT_READY d.party) :=
      hon _ (by simp only [F.CRY_SLOT_READY, R.CRY_SLOT]; omega)
    simp only [noKey, hready, hon F.CRY_STAT_KATFAIL (by decide)]
  have hmop : mopParty t d.tag = mopParty s d.tag :=
    hget _ (by simp only [F.MOP3_PARTY, R.MOP3]; omega)
  have hup : portUp t d.port = portUp s d.port := by
    simp only [portUp, State.port, hports, hmode, hx2]
  simp only [dscHalt, hbad, hkey, hmop, hup, hmode, hon F.DMA_CTL_XTSREQ (by decide), hon F.DMA_MDBASE_EN (by decide)]

theorem dscOf_tag_lt (bs : List Byte) : (dscOf bs).tag < 128 := bitsOf_lt _ _ _

theorem dscHalt_chLoad (hs : s.regsWf = true) (hc : c < 16) (bs : List Byte) :
    dscHalt (chLoad s c k) (dscOf bs) = dscHalt s (dscOf bs) :=
  dscHalt_congr (s := s) (t := chLoad s c k) rfl
    (fun j hj => rd_chLoad_ne hs (by simp only [R.CHDONE]; omega) (by simp only [R.CHCRC]; omega)) _ (dscOf_tag_lt bs)

/-- The causes and details of the checks fit their fields. -/
theorem dscHalt_lt {d : Dsc} (h : dscHalt s d = some (cause, detail)) : cause < 32 ∧ detail < 256 := by
  have hkey : (noKey s d.party).getD 1 < 256 := by
    unfold noKey
    split
    · decide
    · split <;> decide
  have hmop : mopParty s d.tag < 256 := Nat.lt_trans (bitsOf_lt _ _ _) (by decide : (2 : Nat) ^ (19 + 1 - 16) < 256)
  unfold dscHalt at h
  repeat' split at h
  all_goals
    cases h <;> exact ⟨by decide, by omega⟩

/-- A loaded descriptor halts with the result of its checks, or starts to move. -/
def chJudged (t : State) (c : Nat) (ue : Option (BitVec 32)) : Option (Nat × Nat) → State
  | some e => t.chHalt c e.1 e.2
  | none => (t.onChan c fun k => { k with live := true }).chMove c ue

theorem chCurrent_eq (s : State) (c : Nat) (bs : List Byte) (ue : Option (BitVec 32)) : s.chCurrent c bs ue =
    chJudged (chLoad s c (chLoaded s c bs)) c ue (dscHalt (chLoad s c (chLoaded s c bs)) (dscOf bs)) := rfl

/-- A descriptor that fails a check halts its channel before anything of it is done. -/
theorem chCurrent_of_halt (hs : s.regsWf = true) (hc : c < 16) (h : dscHalt s (dscOf bs) = some (cause, detail)) :
    s.chCurrent c bs ue = (chLoad s c (chLoaded s c bs)).chHalt c cause detail := by
  rw [chCurrent_eq, dscHalt_chLoad hs hc, h]
  rfl

/-- A descriptor that passes its checks starts to move. -/
theorem chCurrent_of_pass (hs : s.regsWf = true) (hc : c < 16) (h : dscHalt s (dscOf bs) = none) :
    s.chCurrent c bs ue = ((chLoad s c (chLoaded s c bs)).onChan c fun k => { k with live := true }).chMove c ue := by
  rw [chCurrent_eq, dscHalt_chLoad hs hc, h]
  rfl

/-- A loaded descriptor writes back its cause, 0 bytes done and no sector. -/
theorem backBytes_chLoad (hs : s.regsWf = true) (hd : s.dmaWf = true) : backBytes (chLoad s c (chLoaded s c bs)) c cause detail =
    leBytes 4 (cause + 0x80 + detail * 256) ++ leBytes 4 0 ++ leBytes 4 (chCrc (chLoaded s c bs)) ++ zeros 8 := by
  have hmask : fullMask (chLoaded s c bs) (dscOf (chLoaded s c bs).desc) = 0 := by
    simp [fullMask, chLoaded]
  rw [backBytes, done_chLoad hs, chan_chLoad hd, hmask]
  rfl

/-- Settles O43: the halt comes before the transfer, and its writeback is the only access. -/
theorem failedChecksMoveNoData : Obligations.FailedChecksMoveNoData := by
  unfold Obligations.FailedChecksMoveNoData
  intro s c bs ue cause detail a hc hs hm hd hhalt ha huqi
  obtain ⟨hcause, hdetail⟩ := dscHalt_lt hhalt
  have hload := regsWf_chLoad (c := c) (k := chLoaded s c bs) hs
  have hchan := chan_chLoad (c := c) (k := chLoaded s c bs) hd
  have hdesc := get_chLoad_desc (c := c) (k := chLoaded s c bs) hs
  obtain ⟨hstate, hcauseShown, hdetailShown, hevent, hbusy⟩ := chHalt_shows hload hc hcause hdetail
  have hdone : ((chLoad s c (chLoaded s c bs)).chHalt c cause detail).get (F.CHDONE_DONE c) = 0 :=
    (get_of_rd (f := F.CHDONE_DONE c) (rd_chHalt_ne hload (by simp only [F.CHDONE_DONE, R.CHDONE, R.CHSTAT]; omega)
      (by simp only [F.CHDONE_DONE, R.CHDONE, R.DMA_STAT]; omega) (by simp only [F.CHDONE_DONE, R.CHDONE, R.DMA_EVT]; omega)
      (by simp only [F.CHDONE_DONE, R.CHDONE, R.DMA_CNT]; omega)
      (by simp only [F.CHDONE_DONE, R.CHDONE, R.CRY_CNT]; omega))).trans (done_chLoad hs)
  have hbuf : ∀ x, ((chLoad s c (chLoaded s c bs)).chHalt c cause detail).bufBytes x 1 =
      ((chLoad s c (chLoaded s c bs)).writeback c cause detail).bufBytes x 1 := fun x => by rw [bufBytes_one, chHalt_buf, bufBytes_one]
  have hsram : ∀ x, ((chLoad s c (chLoaded s c bs)).chHalt c cause detail).sramBytes x 1 =
      ((chLoad s c (chLoaded s c bs)).writeback c cause detail).sramBytes x 1 := fun x => by rw [sramBytes_one, chHalt_sram, sramBytes_one]
  refine ⟨_, chCurrent_of_halt hs hc hhalt, hstate, hcauseShown, hdetailShown, hdone, hevent, hbusy, chHalt_out, chHalt_store,
    fun x hx => ?_, fun hok => ?_, fun hbad => ?_⟩
  · rw [ha, ← hdesc] at hx
    have houtside := writeback_outside (s := chLoad s c (chLoaded s c bs)) (cause := cause) (detail := detail) hm hx
    exact ⟨(hbuf x).trans houtside.1, (hsram x).trans houtside.2⟩
  · rw [ha, ← hdesc] at hok ⊢
    have hinside := writeback_inside (s := chLoad s c (chLoaded s c bs)) (cause := cause) (detail := detail) hm (by rw [hchan]; exact huqi) hok
    rw [backBytes_chLoad hs hd] at hinside
    rw [chan_chHalt (dmaWf_chLoad hd), hchan]
    simp only [State.dmaBytes, State.bufBytes, State.sramBytes, chHalt_buf, chHalt_sram] at hinside ⊢
    exact hinside
  · rw [ha, ← hdesc] at hbad
    rw [chHalt_buf, chHalt_sram, writeback_of_bad_address hbad]
    exact ⟨rfl, rfl⟩

end Halt

end Sys2Proof.Proofs

/-! PROOFS. A sector that fails its end-to-end check in THAW (R345): no TLP leaves in THAW (R129), so that the channel's halt
waits for the end of THAW. -/

namespace Sys2Proof.Proofs

open Sys2Proof Sys2Proof.Machine

section Thaw

variable {s : State} {c : Nat}

/-- In THAW a channel with a HOST destination does not halt. -/
theorem hostHalt_of_thaw (h : s.mode = mTHAW) : s.hostHalt c = s := by
  unfold State.hostHalt
  simp only [h]
  split
  · simp
  · rfl

theorem ueIf_none (cause : Nat) : s.ueIf cause none = s := by
  unfold State.ueIf
  split
  · next h => cases h
  · rfl

/-- In THAW a transfer to the host starts without a register being written. -/
theorem moveToHost_regs_of_thaw (h : s.mode = mTHAW) : (s.moveToHost c none).regs = s.regs := by
  have hstays : ∀ k, (State.hostHalt c (s.setChan c k)).regs = s.regs := fun k =>
    (congrArg (fun u : State => u.regs) (hostHalt_of_thaw (s := s.setChan c k) h)).trans rfl
  unfold State.moveToHost
  simp only [ueIf_none]
  split <;> exact hstays _

/-- A channel whose loaded descriptor starts to move. -/
def chLive (s : State) (c : Nat) (bs : List Byte) : State :=
  (chLoad s c (chLoaded s c bs)).onChan c fun k => { k with live := true }

theorem chLive_regs (bs : List Byte) : (chLive s c bs).regs = (chLoad s c (chLoaded s c bs)).regs := rfl

theorem dsc_chLive (hd : s.dmaWf = true) (bs : List Byte) : (chLive s c bs).dsc c = dscOf bs := by
  have hchan : (chLive s c bs).chan c = { chLoaded s c bs with live := true } :=
    (tabGet_tabPut_same _ _ (dmaWf_chLoad hd)).trans (congrArg (fun k : Chan => { k with live := true }) (chan_chLoad hd))
  rw [State.dsc, hchan]
  rfl

/-- In THAW a channel whose descriptor with a HOST destination passes its checks keeps its state. -/
theorem chState_chCurrent_of_thaw {bs : List Byte} (hs : s.regsWf = true) (hd : s.dmaWf = true) (hc : c < 16)
    (hthaw : s.mode = mTHAW) (hhalt : dscHalt s (dscOf bs) = none) (hdst : (dscOf bs).dst = eHOST) :
    chState (s.chCurrent c bs none) c = chState s c := by
  have hmode : (chLive s c bs).mode = s.mode :=
    get_of_rd (f := F.PCM_MODE_MODE) (rd_chLoad_ne hs (by simp only [F.PCM_MODE_MODE, R.PCM_MODE, R.CHDONE]; omega)
      (by simp only [F.PCM_MODE_MODE, R.PCM_MODE, R.CHCRC]; omega))
  have hrd := rd_chLoad_ne (s := s) (c := c) (k := chLoaded s c bs) (j := R.CHSTAT c) hs (by simp only [R.CHSTAT, R.CHDONE]; omega)
    (by simp only [R.CHSTAT, R.CHCRC]; omega)
  have hcur : s.chCurrent c bs none = (chLive s c bs).chMove c none := chCurrent_of_pass hs hc hhalt
  have hregs := moveToHost_regs_of_thaw (c := c) (hmode.trans hthaw)
  rw [hcur, State.chMove, if_pos (by rw [dsc_chLive hd, hdst])]
  refine (get_of_rd (f := F.CHSTAT_STATE c) ?_).trans (get_of_rd (f := F.CHSTAT_STATE c) hrd)
  rw [State.rd, hregs, chLive_regs]
  rfl

/-- Bytes below every listed byte are as in an empty memory. -/
theorem readList_below {b : Nat} {m : List (Nat × Byte)} (h : Sparse.wfFrom zeroed b m = true) : ∀ n k, k + n ≤ b →
    Sparse.readList zeroed m k n = Sparse.readList zeroed [] k n
  | 0, _, _ => rfl
  | n + 1, k, hk => by
    simp only [Sparse.readList]
    rw [readList_below h n (k + 1) (by omega), Sparse.read_below h (by omega)]
    rfl

/-- THAW, with port A up and the side entries at the base of the general region: the first sector's has DVALID = 1 and n as the
low byte of DCRC. -/
def spoiledInThaw (n : Byte) : State :=
  { (State.reset.put F.DMA_MDBASE_EN 1).put F.DMA_MDBASE_ADDR 0x03040000 with
    ports := [(0, { dl := true, bme := true, mse := true })]
    buf := (0xC1000000, 1) :: if n = 0 then [] else [(0xC1000004, n)] }

/-- A descriptor that sends 64 bytes of the first sector to the host. -/
def toTheHost : List Byte := [0x11, 0, 0, 0, 64, 0, 0, 0, 0, 0, 0, 0x80]

/-- The CRC of a sector of zeros is not 0 or not 1. -/
def spoiledByte : Byte := if crc32c (Sparse.readList zeroed [] 0x80000000 4096) = 0 then 1 else 0

theorem spoiledByte_cases : spoiledByte = 0 ∨ spoiledByte = 1 := by
  unfold spoiledByte
  split
  · exact .inr rfl
  · exact .inl rfl

/-- The sector's CRC is not the one of its side entry. -/
theorem sectorCrc_spoiledInThaw : sectorCrc (spoiledInThaw spoiledByte) 0x80000000 ≠
    sideCrc (sideBytes (spoiledInThaw spoiledByte) 0x80000000) := by
  have hcrc : ∀ n : Byte, n = 0 ∨ n = 1 →
      sectorCrc (spoiledInThaw n) 0x80000000 = crc32c (Sparse.readList zeroed [] 0x80000000 4096) := fun n hn =>
    congrArg crc32c (readList_below (b := 0xC1000000) (by rcases hn with rfl | rfl <;> decide) 4096 0x80000000 (by decide))
  have h0 : sideCrc (sideBytes (spoiledInThaw 0) 0x80000000) = 0 := by decide +kernel
  have h1 : sideCrc (sideBytes (spoiledInThaw 1) 0x80000000) = 1 := by decide +kernel
  rw [hcrc _ spoiledByte_cases]
  by_cases h : crc32c (Sparse.readList zeroed [] 0x80000000 4096) = 0
  · rw [show spoiledByte = 1 from if_pos h, h1, h]
    decide
  · rw [show spoiledByte = 0 from if_neg h, h0]
    exact h

/-- Refutes O44: in THAW no TLP leaves (R129), and the channel whose first sector fails its check stays as it was (`spoiledInThaw`). -/
theorem not_sectorUnderEndToEndCheckDoesNotLeave : ¬ Obligations.SectorUnderEndToEndCheckDoesNotLeave := by
  unfold Obligations.SectorUnderEndToEndCheckDoesNotLeave
  intro h
  have hregs : ∀ n, (spoiledInThaw n).regsWf = true := fun n => by
    show (spoiledInThaw 0).regsWf = true
    decide +kernel
  have hpass : ∀ n : Byte, n = 0 ∨ n = 1 → dscHalt (spoiledInThaw n) (dscOf toTheHost) = none ∧
      sided (spoiledInThaw n) 0x80000000 = true ∧ sideValid (sideBytes (spoiledInThaw n) 0x80000000) = true ∧
      chState (spoiledInThaw n) 15 = chIDLE ∧ (spoiledInThaw n).mode = mTHAW := fun n hn => by
    rcases hn with rfl | rfl <;> decide +kernel
  obtain ⟨hchecks, hsided, hvalid, hidle, hthaw⟩ := hpass spoiledByte spoiledByte_cases
  obtain ⟨t, ht, hstate, _⟩ := h (spoiledInThaw spoiledByte) 15 toTheHost (dscOf toTheHost) (by decide) (hregs _) rfl rfl hchecks
    (by decide) (by decide) hsided hvalid sectorCrc_spoiledInThaw
  have hstays := chState_chCurrent_of_thaw (c := 15) (hregs _) rfl (by decide) hthaw hchecks (by decide)
  rw [ht, hstate, hidle] at hstays
  exact absurd hstays (by decide)

end Thaw

end Sys2Proof.Proofs

/-! PROOFS. The frame of the pin multiplexer's commands, at a switch sequence that names a ball the package has not. -/

namespace Sys2Proof.Proofs

open Sys2Proof Sys2Proof.Machine

/-- A switch sequence is under way at a ball whose PMX_PIN would lie in the next block. -/
def switchingBeyond : State :=
  { State.reset.raiseBit F.PMX_STAT_BUSY with pmx := { State.reset.pmx with switching := [(1024, 1)] } }

theorem pmxSwitchEnd_beyond : (pmxSwitchEnd switchingBeyond).rd (R.PMX_PIN 1024) ≠ switchingBeyond.rd (R.PMX_PIN 1024) := by
  decide +kernel

/-- Refutes O59: the end of a switch sequence writes the PMX_PIN of every ball that the sequence names, and the statement's states
may name one beyond the block (`switchingBeyond`); no reachable state does. -/
theorem not_blocksKeepToTheirOwnState : ¬ Obligations.BlocksKeepToTheirOwnState := by
  unfold Obligations.BlocksKeepToTheirOwnState
  rintro ⟨hpins, _⟩
  have hstep : exec .pmxSwitchEnd switchingBeyond = .next (pmxSwitchEnd switchingBeyond) := rfl
  obtain ⟨_, hrd⟩ := hpins .sec 0 0 0 0 0 0 false switchingBeyond (pmxSwitchEnd switchingBeyond) (by decide +kernel) gated_sec
    (.inr (.inr (.inr (.inl hstep))))
  exact pmxSwitchEnd_beyond (hrd (R.PMX_PIN 1024) (by decide))

end Sys2Proof.Proofs

/-! PROOFS. One step of the device: the command at the front of the queue, or one tick (R29, R34). -/

namespace Sys2Proof.Proofs

open Sys2Proof Sys2Proof.Machine

section Tick

variable {s : State}

theorem step_of_pending {c : Instr} {l : List Instr} (h : s.pending = c :: l) : step s = exec c { s with pending := l } := by
  rw [step, h]

theorem step_of_idle (h : s.pending = []) : step s = .next (idleTick s) := by
  rw [step, h]

theorem angleTick_of_held (h : s.mode = mOFF ∨ s.on F.ATB_STAT_HOLD = true) : angleTick s = s := if_pos h

theorem angleTick_of_running (hoff : s.mode ≠ mOFF) (hhold : s.on F.ATB_STAT_HOLD = false) :
    angleTick s = if fromTrack s then { s with atb := { s.atb with count := s.atb.count + 4096 } }
      else { s with atb := coastTick s.atb (s.get F.ATB_CTL_COAST_RPM) } :=
  if_neg (by simp [hoff, hhold])

/-- A number of two digits, the low one with its carry. -/
theorem digits_add (c t m M : Nat) (hm : 0 < m) : (c + t / m % M) % M * m + t % m = (c * m + t) % (m * M) := by
  have hlow : (c * m + t) % m = t % m := Nat.mul_add_mod_self_right _ _ _
  have hhigh : (c * m + t) / m = c + t / m := by rw [Nat.add_comm, Nat.add_mul_div_right _ _ hm, Nat.add_comm]
  rw [Nat.mod_mul, hlow, hhigh, Nat.add_mod_mod, Nat.add_comm, Nat.mul_comm]

/-- The counter and the fraction of the COAST rate are one number of 80 bits. -/
theorem coastTick_count (a : AtbState) (rpm : Nat) : (coastTick a rpm).count.toNat * 65536 + (coastTick a rpm).frac =
    (a.count.toNat * 65536 + a.frac + coastIncrement rpm) % 2 ^ 80 := by
  have hcount : (coastTick a rpm).count.toNat = (a.count.toNat + (a.frac + coastIncrement rpm) / 65536 % 2 ^ 64) % 2 ^ 64 := by
    rw [coastTick, BitVec.toNat_add, BitVec.toNat_ofNat]
  have hfrac : (coastTick a rpm).frac = (a.frac + coastIncrement rpm) % 65536 := by rw [coastTick]
  have hwidth : (2 : Nat) ^ 80 = 65536 * 2 ^ 64 := by decide
  rw [hcount, hfrac, hwidth, Nat.add_assoc]
  exact digits_add _ _ _ _ (by decide)

/-- Settles O57: by the queue, and for an idle device by what its counter follows. -/
theorem stepRunsTheFrontCommand : Obligations.StepRunsTheFrontCommand := by
  unfold Obligations.StepRunsTheFrontCommand
  refine ⟨fun c l s => step_of_pending, fun s hidle => ⟨step_of_idle hidle, fun h => if_neg ?_, fun htrack hflown => if_pos ?_,
    angleTick_of_held, fun hoff hhold hst => ?_, fun hoff hhold hst _ => ?_⟩⟩
  · rcases h with h | h <;> simp [h]
  · simp [htrack, hflown]
  · have htrack : fromTrack s = true := by rcases hst with hst | hst <;> simp [fromTrack, hst]
    rw [angleTick_of_running hoff hhold, if_pos htrack]
    exact ⟨rfl, rfl⟩
  · have htrack : ¬ fromTrack s = true := by simp [fromTrack, hst]
    rw [angleTick_of_running hoff hhold, if_neg htrack]
    exact coastTick_count _ _

end Tick

end Sys2Proof.Proofs

/-! PROOFS. The machine right after power-on (R479). -/

namespace Sys2Proof.Proofs

open Sys2Proof Sys2Proof.Machine

/-- An empty memory reads as its default everywhere. -/
theorem readList_nil (v : Byte) (a n : Nat) : Sparse.readList (fun _ => v) [] a n = List.replicate n v := by
  induction n generalizing a with
  | zero => rfl
  | succ n ih => rw [Sparse.readList, ih, List.replicate_succ]; rfl

/-- At reset every holder has the frame of its own number. -/
theorem holderFrame_reset {n : Nat} : State.reset.holderFrame n = n := by
  have htag : (State.reset.tag n).frame = n := rfl
  have hserac : (State.reset.seracEnt (n - 4096)).frame = 4096 + (n - 4096) := rfl
  have hslot : (State.reset.slot (n - 4112)).frame = 4112 + (n - 4112) := rfl
  rw [State.holderFrame, htag, hserac, hslot]
  split
  · rfl
  · split <;> omega

theorem framesApart_reset : State.reset.FramesApart := by
  refine ⟨rfl, rfl, rfl, ?_, fun a b hab _ => ?_⟩
  · decide
  · rw [holderFrame_reset, holderFrame_reset]
    omega

/-- Settles O58: every register and memory starts unlisted, and the info rows as the factory leaves them. -/
theorem resetIsPowerOn : Obligations.ResetIsPowerOn := by
  unfold Obligations.ResetIsPowerOn
  have hinfo : ∀ b < 16, leNat (State.reset.infoBytes b 0 4) = 0x52524F49 := by decide +kernel
  refine ⟨by decide +kernel, rfl, rfl, rfl, fun _ => rfl, by decide +kernel, by decide +kernel, by decide +kernel, by decide +kernel,
    readList_nil 0xFF, readList_nil 0, hinfo, by decide +kernel, ⟨rfl, by decide⟩, framesApart_reset, rfl, rfl, rfl⟩

end Sys2Proof.Proofs

/-! PROOFS. The commands of the angle timebase (Table 2.4, R28 to R36, R46). -/

namespace Sys2Proof.Proofs

open Sys2Proof Sys2Proof.Machine

section Atb

variable {s : State}

/-- The ATB is in one state at a time. -/
theorem atbIs_unique {n k : Nat} (h : atbIs s n = true) (hne : n ≠ k) : atbIs s k = false := by
  simp only [atbIs, beq_iff_eq] at h
  simp [atbIs, h, hne]

theorem atbJudge_of_qualified (hst : atbIs s aCOAST = true ∨ atbIs s aHOLDOVER = true) (hen : s.on F.ATB_CTL_EN = true)
    (hq : s.atb.qual = 256) : s.atbJudge = s.atbAcquire := if_pos ⟨hst, hen, hq⟩

theorem atbJudge_of_acquire_low (h : atbIs s aACQUIRE = true) (hlow : s.atb.low = 16) : s.atbJudge = s.atbFail 1 := by
  have hcoast := atbIs_unique h (show aACQUIRE ≠ aCOAST by decide)
  have hhold := atbIs_unique h (show aACQUIRE ≠ aHOLDOVER by decide)
  simp [State.atbJudge, h, hlow, hcoast, hhold]

theorem atbJudge_of_locked_low (h : atbIs s aLOCKED = true) (hlow : s.atb.low = 16) : s.atbJudge = s.atbLoss 1 := by
  have hcoast := atbIs_unique h (show aLOCKED ≠ aCOAST by decide)
  have hhold := atbIs_unique h (show aLOCKED ≠ aHOLDOVER by decide)
  have hacq := atbIs_unique h (show aLOCKED ≠ aACQUIRE by decide)
  simp [State.atbJudge, h, hlow, hcoast, hhold, hacq]

theorem atbCtlWrite_clauses {m : Master} {v : Word} {u : State} (hm : gated s m = false)
    (hu : u = (((s.put F.ATB_CTL_EN (bitsOf v 0 0)).put F.ATB_CTL_HOLD_REVS (bitsOf v 7 4)).put F.ATB_CTL_ACQ_REVS
      (Nat.max (bitsOf v 11 8) 1)).put F.ATB_CTL_COAST_RPM (coastRpm (bitsOf v 29 16))) :
    (bitsOf v 0 0 = 1 → exec (.atbCtlWrite m v) s = .next u.atbSettle) ∧
    (bitsOf v 0 0 = 0 → exec (.atbCtlWrite m v) s = .next u.atbCoast) := by
  have hexec : exec (.atbCtlWrite m v) s = .next (atbCtlWrite v s) := congrArg Host.Outcome.next (byCore_of_not_gated hm)
  subst hu
  constructor
  · intro hen
    rw [hexec, atbCtlWrite, hen, if_neg (by decide)]
  · intro hen
    rw [hexec, atbCtlWrite, hen, if_pos rfl]

theorem indexMark_clauses {run : BitVec 8} {c : BitVec 64} {ticks gap : BitVec 32} {speed : BitVec 18} {track : Track} {u : State}
    (hlow : 28 ≤ run.toNat) (hhigh : run.toNat ≤ 32) (hu : u = s.atbSeen track.amp track.cycles) (hflown : trackFlown u = true) :
    (atbIs u aLOCKED = true → indexPlaced c = true → speedInSpan speed.toNat = true →
      exec (.indexMark run c ticks gap speed track) s = .next ((u.onAtb fun (a : AtbState) =>
        { a with missed := 0, edge := c, cyc := run.toNat }).put F.SPEED_SPEED speed.toNat).atbSettle) ∧
    (atbIs u aLOCKED = true → indexPlaced c = false →
      exec (.indexMark run c ticks gap speed track) s = .next (u.atbLoss 4).atbSettle) ∧
    (atbIs u aACQUIRE = true → u.on F.ATB_STAT_HOLD = false → ∀ w : State, w = (u.onAtb fun (a : AtbState) =>
        { a with marks := if a.marks ≠ 0 ∧ gap.toNat = 1048576 then a.marks + 1 else 1, located := true, cyc := run.toNat,
                 edge := c, inSpan := speedInSpan speed.toNat }) →
      (lockConfirmed w = true → exec (.indexMark run c ticks gap speed track) s = .next (w.align c ticks.toNat).atbSettle) ∧
      (lockConfirmed w = false → exec (.indexMark run c ticks gap speed track) s = .next w.atbSettle)) := by
  have hrun : ¬ (run.toNat < 28 ∨ 32 < run.toNat ∨ ¬ trackFlown u = true) := by
    simp only [hflown, not_true, or_false]
    omega
  have hmark : exec (.indexMark run c ticks gap speed track) s = .next (indexMark run c ticks gap speed track s) := rfl
  have hlocked : atbIs u aLOCKED = true →
      exec (.indexMark run c ticks gap speed track) s = .next (u.lockedMark run.toNat c speed.toNat).atbSettle := fun h => by
    have hacq := atbIs_unique h (show aLOCKED ≠ aACQUIRE by decide)
    rw [hmark, indexMark, ← hu, if_neg hrun, if_neg (by simp [hacq]), if_pos h]
  refine ⟨fun h hplaced hspan => ?_, fun h hplaced => ?_, fun h hhold w hw => ?_⟩
  · rw [hlocked h, State.lockedMark, if_neg (by simp [hplaced]), if_neg (by simp [hspan])]
  · rw [hlocked h, State.lockedMark, if_pos (by simp [hplaced])]
  · have hacq : exec (.indexMark run c ticks gap speed track) s =
        .next (u.acquireMark run.toNat c ticks.toNat gap.toNat speed.toNat).atbSettle := by
      rw [hmark, indexMark, ← hu, if_neg hrun, if_pos ⟨h, by simp [hhold]⟩]
    constructor
    · intro hlock
      rw [hacq, State.acquireMark, ← hw, if_pos hlock]
    · intro hlock
      rw [hacq, State.acquireMark, ← hw, if_neg (by simp [hlock])]

theorem lockwinRunComplete_clauses {ticks : BitVec 32} {u : State} (h : atbIs s aACQUIRE = true) (hflown : trackFlown s = true)
    (hu : u = (s.onAtb fun (a : AtbState) => { a with inside := 1024, beyond := 0 })) :
    (lockConfirmed u = true → exec (.lockwinRunComplete ticks) s = .next (u.align s.atb.edge ticks.toNat)) ∧
    (lockConfirmed u = false → exec (.lockwinRunComplete ticks) s = .next u) := by
  have hexec : exec (.lockwinRunComplete ticks) s = .next (if lockConfirmed u then u.align u.atb.edge ticks.toNat else u) :=
    congrArg Host.Outcome.next (by rw [lockwinRunComplete, if_neg (by simp [h, hflown]), ← hu])
  have hedge : u.atb.edge = s.atb.edge := by rw [hu]; rfl
  constructor
  · intro hlock
    rw [hexec, if_pos hlock, hedge]
  · intro hlock
    rw [hexec, if_neg (by simp [hlock])]

theorem align_clauses {c : BitVec 64} {ticks : Nat} : (2 ^ 28 < c.toNat % rev → s.align c ticks = s.forwardStep c ticks) ∧
    (c.toNat % rev ≤ 2 ^ 28 → c.toNat / rev * rev + ticks < angleNow s → s.align c ticks = s.raiseBit F.ATB_STAT_HOLD) := by
  constructor
  · intro h
    rw [State.align, if_neg (by omega)]
  · intro h hpast
    rw [State.align, if_pos h, if_neg (by omega)]

theorem seen_clauses {amp : BitVec 8} {l : List TrackRun} {u : State} (hu : u = s.atbSeen amp l) :
    (atbIs u aACQUIRE = true → revsPassed u (u.get F.ATB_CTL_ACQ_REVS) = true →
      exec (.acquireTimeout amp l) s = .next (u.atbFail 2).atbSettle) ∧
    (atbIs u aACQUIRE = true → u.atb.low = 16 → exec (.acquireSignalLost amp l) s = .next (u.atbFail 1).atbJudge) ∧
    (atbIs u aLOCKED = true → u.atb.low = 16 → exec (.lockLoss 1 amp l) s = .next (u.atbLoss 1).atbJudge) ∧
    (atbIs u aLOCKED = true → u.atb.beyond = 16 → exec (.lockLoss 2 amp l) s = .next (u.atbLoss 2).atbSettle) ∧
    (atbIs u aLOCKED = true → u.atb.missed = 0 → exec (.indexMissed amp l) s =
      .next (((u.raiseBit F.ATB_STAT_IDXMISS).inc F.COUNTS_IDXMISS_CNT).onAtb fun (a : AtbState) => { a with missed := 1 }).atbSettle) ∧
    (atbIs u aLOCKED = true → u.atb.missed ≠ 0 → exec (.indexMissed amp l) s = .next (u.atbLoss 3).atbSettle) := by
  refine ⟨fun h hrevs => congrArg Host.Outcome.next ?_, fun h hlow => congrArg Host.Outcome.next ?_,
    fun h hlow => congrArg Host.Outcome.next ?_, fun h hbeyond => congrArg Host.Outcome.next ?_,
    fun h hmissed => congrArg Host.Outcome.next ?_, fun h hmissed => congrArg Host.Outcome.next ?_⟩
  · rw [acquireTimeout, ← hu, if_pos ⟨h, hrevs⟩]
  · rw [acquireSignalLost, ← hu, State.atbSettle, atbJudge_of_acquire_low h hlow]
  · rw [lockLoss, ← hu, if_neg (fun h => absurd h.2.1 (by decide)), State.atbSettle, atbJudge_of_locked_low h hlow]
  · rw [lockLoss, ← hu, if_pos ⟨h, rfl, hbeyond⟩]
  · rw [indexMissed, ← hu, if_neg (by simp [h]), if_pos hmissed]
  · rw [indexMissed, ← hu, if_neg (by simp [h]), if_neg hmissed]

/-- Settles O1, command by command. -/
theorem angleTimebaseCommandsComplete : Obligations.AngleTimebaseCommandsComplete := by
  unfold Obligations.AngleTimebaseCommandsComplete
  refine ⟨fun m v s u => atbCtlWrite_clauses, fun s u hflown hu hen hst => congrArg Host.Outcome.next ?_,
    fun _ _ _ _ _ _ _ _ => indexMark_clauses, fun _ _ _ => lockwinRunComplete_clauses, fun _ _ _ => align_clauses,
    fun s h hhold => congrArg Host.Outcome.next (if_pos ⟨h, hhold⟩), fun _ _ _ _ => seen_clauses,
    fun s h hrevs => congrArg Host.Outcome.next (if_pos ⟨h, hrevs⟩)⟩
  have hqual : u.atb.qual = 256 := by rw [hu]; rfl
  rw [signalQualified, if_neg (by simp [hflown]), ← hu, State.atbSettle, atbJudge_of_qualified hst hen hqual]

end Atb

end Sys2Proof.Proofs

/-! PROOFS. The commands of the angle scheduler and the events of its entries (R37 to R45, R49, R501). -/

namespace Sys2Proof.Proofs

open Sys2Proof Sys2Proof.Machine

section Asc

variable {s : State} {m : Master} {v : Word}

/-! ### Commands -/

theorem exec_ascArm (hm : gated s m = false) : exec (.ascArm m v) s = .next (ascArm m v s) :=
  congrArg Host.Outcome.next (byCore_of_not_gated hm)

theorem exec_ascCancel (hm : gated s m = false) : exec (.ascCancel m v) s = .next (ascCancel m v s) :=
  congrArg Host.Outcome.next (byCore_of_not_gated hm)

theorem ascArm_accepted {i : Nat} {e : AscEntry} (hi : i = bitsOf v 7 0) (he : e = staged s m) (hok : armCheck s i e = arOK) :
    (e.revq = false → ascArm m v s = (s.setEntry i { e with st := .armed, due := passage e.tgt.toNat (angleNow s + twoCycles) }).ascRes
      m i arOK (decide (angleNow s / rev < passage e.tgt.toNat (angleNow s + twoCycles) / rev)) false) ∧
    (e.revq = true → ascIsLate s e = false → ascArm m v s = (s.setEntry i
      { e with st := .armed, due := angleNow s + (2 ^ 48 - ticksPast s e) % 2 ^ 48 }).ascRes m i arOK false false) ∧
    (e.revq = true → ascIsLate s e = true → ascArm m v s = (s.ascLate i
      { e with st := .armed, due := (angleNow s + 2 ^ 64 - ticksPast s e) % 2 ^ 64 }).ascRes m i arOK false (classIssues s e.cls)) := by
  subst hi he
  refine ⟨fun hrevq => ?_, fun hrevq hlate => ?_, fun hrevq hlate => ?_⟩
  · rw [ascArm, if_neg (not_not_intro hok), if_neg (by simp [hrevq])]
  · rw [ascArm, if_neg (not_not_intro hok), if_pos hrevq, if_neg (by simp [hlate])]
  · rw [ascArm, if_neg (not_not_intro hok), if_pos hrevq, if_pos hlate]

theorem ascArm_refused (h : armCheck s (bitsOf v 7 0) (staged s m) ≠ arOK) :
    ascArm m v s = s.ascRes m (bitsOf v 7 0) (armCheck s (bitsOf v 7 0) (staged s m)) false false := if_pos h

theorem ascCancel_clauses {i : Nat} (hi : i = bitsOf v 7 0) :
    (ascOwned s i = true → ascCancel m v s = s.ascRes m i arOWNED false false) ∧
    (ascOwned s i = false →
      ((s.entry i).st = .armed →
        ascCancel m v s = (s.setEntry i { s.entry i with st := .cancelled }).ascRes m i arOK false false) ∧
      ((s.entry i).st = .dispatched ∨ (s.entry i).st = .issued → ascCancel m v s = s.ascRes m i arISSUED false false) ∧
      ((s.entry i).st = .free ∨ (s.entry i).st = .suppressed ∨ (s.entry i).st = .cancelled →
        ascCancel m v s = s.ascRes m i arOK false false)) := by
  subst hi
  refine ⟨fun howned => if_pos howned, fun howned => ⟨fun hst => ?_, fun hst => ?_, fun hst => ?_⟩⟩
  · simp only [ascCancel, howned, Bool.false_eq_true, if_false, hst]
  · rcases hst with hst | hst <;> simp only [ascCancel, howned, Bool.false_eq_true, if_false, hst]
  · rcases hst with hst | hst | hst <;> simp only [ascCancel, howned, Bool.false_eq_true, if_false, hst]

/-! ### FLUSH (R44) -/

/-- FLUSH at one entry. -/
def flushOne (i : Nat) (s : State) : State :=
  if (s.entry i).st = .armed ∧ ¬ ascOwned s i then s.setEntry i { s.entry i with st := .cancelled } else s

theorem entry_setEntry_same (hs : s.ascWf = true) (i : Nat) (e : AscEntry) : (s.setEntry i e).entry i = e :=
  tabGet_tabPut_same i e hs

theorem entry_setEntry_ne (hs : s.ascWf = true) {i j : Nat} (hne : j ≠ i) (e : AscEntry) : (s.setEntry i e).entry j = s.entry j :=
  tabGet_tabPut_ne e hne hs

theorem rd_setEntry_ne (hs : s.regsWf = true) (i : Nat) (e : AscEntry) {k : Nat} (hk : k ≠ R.ASC_STAT) :
    (s.setEntry i e).rd k = s.rd k :=
  (rd_wr_ne _ (regsWf_put (s := { s with asc := _ }) _ _ hs) hk).trans (rd_wr_ne (s := { s with asc := _ }) _ hs hk)

theorem ascOwned_setEntry (hs : s.regsWf = true) (i j : Nat) (e : AscEntry) : ascOwned (s.setEntry i e) j = ascOwned s j := by
  rw [ascOwned, State.on, get_of_rd (f := F.ASC_CTL_HWORD) (rd_setEntry_ne hs i e (by decide))]
  rfl

/-- What FLUSH keeps from entry to entry: the canonical forms and the orderer's share. -/
structure FlushKeeps (s t : State) : Prop where
  regsWf : t.regsWf = true
  ascWf : t.ascWf = true
  owned : ∀ j, ascOwned t j = ascOwned s j

theorem flushOne_keeps (hs : s.regsWf = true) (ha : s.ascWf = true) (i : Nat) : FlushKeeps s (flushOne i s) := by
  unfold flushOne
  split
  · exact ⟨regsWf_put _ _ (regsWf_put (s := { s with asc := _ }) _ _ hs), wf_tabPut _ _ ha, fun j => ascOwned_setEntry hs _ _ _⟩
  · exact ⟨hs, ha, fun _ => rfl⟩

theorem entry_flushOne_other (ha : s.ascWf = true) {i j : Nat} (h : (s.entry j).st ≠ .armed ∨ ascOwned s j = true ∨ j ≠ i) :
    (flushOne i s).entry j = s.entry j := by
  unfold flushOne
  split
  · next hflush =>
    refine entry_setEntry_ne ha ?_ _
    rintro rfl
    simp [hflush] at h
  · rfl

theorem entry_flushOne_armed (ha : s.ascWf = true) {i : Nat} (hst : (s.entry i).st = .armed) (howned : ascOwned s i = false) :
    ((flushOne i s).entry i).st = .cancelled := by
  rw [flushOne, if_pos ⟨hst, by simp [howned]⟩, entry_setEntry_same ha]

/-- FLUSH leaves an entry that is not armed, or that the orderer owns. -/
theorem entry_flush_kept (l : List Nat) (hs : s.regsWf = true) (ha : s.ascWf = true) {j : Nat}
    (h : (s.entry j).st ≠ .armed ∨ ascOwned s j = true) : (State.each flushOne l s).entry j = s.entry j := by
  induction l generalizing s with
  | nil => rfl
  | cons i l ih =>
    have hkeeps := flushOne_keeps hs ha i
    have hone : (flushOne i s).entry j = s.entry j := entry_flushOne_other ha (h.imp_right .inl)
    exact (ih hkeeps.regsWf hkeeps.ascWf (by rw [hone, hkeeps.owned]; exact h)).trans hone

/-- FLUSH cancels every other armed entry of its range. -/
theorem entry_flush_cancelled (l : List Nat) (hs : s.regsWf = true) (ha : s.ascWf = true) {j : Nat} (hj : j ∈ l)
    (hst : (s.entry j).st = .armed) (howned : ascOwned s j = false) : ((State.each flushOne l s).entry j).st = .cancelled := by
  induction l generalizing s with
  | nil => cases hj
  | cons i l ih =>
    have hkeeps := flushOne_keeps hs ha i
    by_cases hi : j = i
    · subst hi
      have hone := entry_flushOne_armed ha hst howned
      have hrest := entry_flush_kept l hkeeps.regsWf hkeeps.ascWf (j := j) (.inl (by rw [hone]; nofun))
      exact (congrArg AscEntry.st hrest).trans hone
    · have hone : (flushOne i s).entry j = s.entry j := entry_flushOne_other ha (.inr (.inr hi))
      exact ih hkeeps.regsWf hkeeps.ascWf ((List.mem_cons.1 hj).resolve_left hi) (by rw [hone, hst]) (by rw [hkeeps.owned, howned])

/-- Settles O2, command by command. -/
theorem schedulerCommandsComplete : Obligations.SchedulerCommandsComplete := by
  unfold Obligations.SchedulerCommandsComplete
  refine ⟨fun m v s i e hm hi he hok => ?_, fun m v s hm h => ?_, fun m v s i hm hi => ?_, fun m v s hm => ?_, fun m s hm hs ha => ?_⟩
  · simp only [exec_ascArm hm, Host.Outcome.next.injEq]
    exact ascArm_accepted hi he hok
  · rw [exec_ascArm hm, ascArm_refused h]
  · simp only [exec_ascCancel hm, Host.Outcome.next.injEq]
    exact ascCancel_clauses hi
  · exact congrArg Host.Outcome.next (byCore_of_not_gated (go := fun s => ascRead m v s) hm)
  · refine ⟨ascFlush s, congrArg Host.Outcome.next (byCore_of_not_gated hm), fun i hi hst howned => ?_, fun i h => ?_⟩
    · exact entry_flush_cancelled _ hs ha (List.mem_range.2 hi) hst howned
    · exact entry_flush_kept _ hs ha h

end Asc

/-! ### Events -/

section Events

variable {s : State} {i : BitVec 8} {e : AscEntry}

/-- The event of an entry whose turn it is issues, or is suppressed. -/
theorem ascEvent_of_turn (he : s.entry i.toNat = e) (hst : e.st = .dispatched) (hdue : e.due ≤ angleNow s)
    (hfirst : (s.asc.any fun p => goesBefore (domainPeriod s e.dom) i.toNat e p.1 p.2 (angleNow s)) = false) {cls : Nat}
    (hcls : e.cls = cls) (skew : Int) : ascEvent cls i skew s =
      if classIssues s cls then s.ascIssue i.toNat e skew else (s.ascSuppress i.toNat e).chSettle := by
  subst he hcls
  rw [ascEvent, if_neg (by simp [hst]; omega)]
  simp only [hfirst, Bool.false_eq_true, if_false]

theorem ascIssue_of_running {u : State} (hu : u = s.setEntry i.toNat (if e.period = 0 then { e with st := .issued } else rearmed s e))
    (hwait : ascWaits u e.cls e.argv = false) (skew : Int) : s.ascIssue i.toNat e skew = u.ascEffect e.cls e.argv e.due skew := by
  subst hu
  rw [State.ascIssue, State.ascPass, if_neg (by rw [hwait]; exact Bool.false_ne_true)]

theorem ascIssue_of_gated {u : State} (hu : u = s.setEntry i.toNat (if e.period = 0 then { e with st := .issued } else rearmed s e))
    (hwait : ascWaits u e.cls e.argv = true) (skew : Int) : s.ascIssue i.toNat e skew =
      { u with latched := u.latched ++ [({ cls := e.cls, arg := e.argv, due := e.due } : Latched)] } := by
  subst hu
  rw [State.ascIssue, State.ascPass, if_pos hwait]

theorem ascDispatch_of_due (hst : (s.entry i.toNat).st = .armed) (hdue : (s.entry i.toNat).due ≤ angleNow s + twoCycles) :
    ascDispatch i s = s.setEntry i.toNat { s.entry i.toNat with st := .dispatched } :=
  if_neg (by simp [hst]; omega)

theorem latchedEvent_of_first {l : Latched} {pre rest : List Latched} (hl : s.latched = pre ++ l :: rest)
    (hpre : ∀ x ∈ pre, ascWaits s x.cls x.arg = true) (hruns : ascWaits s l.cls l.arg = false) :
    latchedEvent s = { s with latched := s.latched.erase l }.ascEffect l.cls l.arg l.due 0 := by
  have hfind : s.latched.find? (fun (l : Latched) => !ascWaits s l.cls l.arg) = some l := by
    rw [hl, List.find?_append, List.find?_eq_none.2 (fun x hx => by simp [hpre x hx]), List.find?_cons_of_pos (by simp [hruns])]
    rfl
  simp only [latchedEvent, hfind]

/-- Settles O3: an entry's turn, and then its class. -/
theorem schedulerEventsIssue : Obligations.SchedulerEventsIssue := by
  unfold Obligations.SchedulerEventsIssue
  refine ⟨fun i s hst hdue => congrArg Host.Outcome.next (ascDispatch_of_due hst hdue), fun i skew s u e he hst hdue hfirst hu => ?_,
    fun s l pre rest hl hpre hruns => congrArg Host.Outcome.next (latchedEvent_of_first hl hpre hruns)⟩
  have hturn := fun (cls : Nat) (hcls : e.cls = cls) => ascEvent_of_turn he hst hdue hfirst hcls
  refine ⟨fun hissues hruns => ?_, fun hissues hwait t ht => ?_, fun hsupp => ?_⟩
  · have heffect : ∀ cls, e.cls = cls → ∀ skew, ascEvent cls i skew s = u.ascEffect cls e.argv e.due skew := fun cls hcls skew => by
      rw [hturn cls hcls, if_pos (by rw [← hcls, hissues]), ascIssue_of_running hu hruns, hcls]
    exact ⟨fun h => congrArg Host.Outcome.next (heffect _ h _), fun h => congrArg Host.Outcome.next (heffect _ h _),
      fun h => congrArg Host.Outcome.next (heffect _ h _), fun h => congrArg Host.Outcome.next (heffect _ h _),
      fun h => congrArg Host.Outcome.next (heffect _ h _), fun h => congrArg Host.Outcome.next (heffect _ h _),
      fun h => congrArg Host.Outcome.next (heffect _ h _)⟩
  · have hlatch : ∀ cls, e.cls = cls → ∀ skew, ascEvent cls i skew s = t := fun cls hcls skew => by
      rw [hturn cls hcls, if_pos (by rw [← hcls, hissues]), ascIssue_of_gated hu hwait, ht]
    exact ⟨fun h => congrArg Host.Outcome.next (hlatch _ h _), fun h => congrArg Host.Outcome.next (hlatch _ h _),
      fun h => congrArg Host.Outcome.next (hlatch _ h _), fun h => congrArg Host.Outcome.next (hlatch _ h _),
      fun h => congrArg Host.Outcome.next (hlatch _ h _)⟩
  · have hsuppress : ∀ cls, e.cls = cls → ∀ skew, ascEvent cls i skew s = (s.ascSuppress i.toNat e).chSettle := fun cls hcls skew => by
      rw [hturn cls hcls, if_neg (by rw [← hcls, hsupp]; exact Bool.false_ne_true)]
    exact ⟨fun h => congrArg Host.Outcome.next (hsuppress _ h _), fun h => congrArg Host.Outcome.next (hsuppress _ h _),
      fun h => congrArg Host.Outcome.next (hsuppress _ h _), fun h => congrArg Host.Outcome.next (hsuppress _ h _)⟩

end Events

end Sys2Proof.Proofs

/-! PROOFS. The commands of the pin multiplexer and the console UART (R67 to R78). -/

namespace Sys2Proof.Proofs

open Sys2Proof Sys2Proof.Machine

section Pmx

variable {s : State} {m : Master}

theorem strapSample_of_first {a b c : BitVec 4} (hfirst : s.pmx.strapped = false) (hon : s.mode ≠ mOFF) : strapSample a b c s =
    (s.wr R.PMX_STRAP ((majority a b c).setWidth 32)).onPmx fun p => { p with strapped := true } :=
  if_neg (by simp [hfirst, hon])

theorem gpioHandover_of_strapped (hstrapped : s.pmx.strapped = true) (hhanded : s.pmx.handed = false) :
    gpioHandover s = (s.onPmx fun p => { p with handed := true }).clr F.GPIO_OE_OE :=
  if_pos ⟨hstrapped, by simp [hhanded]⟩

/-- A COMMIT while no switch runs: refused for busy signals, refused for duplicates, nothing to change, or a switch. -/
theorem pmxCommit_clauses {u w : State} {diff busy dup : List Nat} (hidle : s.on F.PMX_STAT_BUSY = false)
    (hu : u = s.clr F.PMX_REFUSE_PINS) (hw : w = u.pmxHold.pmxApply) (hdiff : diff = balls.filter (fun n => pinSel u n != pinAct u n))
    (hbusy : busy = diff.filter (fun n => sigBusy u (signalOf n (pinAct u n)) && !u.on (F.PMX_PIN_FORCE n)))
    (hdup : dup = balls.filter (fun n => dupBall u n)) :
    (busy ≠ [] → pmxCommit s = (u.put F.PMX_REFUSE_PINS (ballMask busy)).put F.PMX_STAT_RESULT 2) ∧
    (busy = [] → dup ≠ [] → pmxCommit s = (u.put F.PMX_REFUSE_PINS (ballMask dup)).put F.PMX_STAT_RESULT 3) ∧
    (busy = [] → dup = [] → diff = [] → pmxCommit s = w.put F.PMX_STAT_RESULT 1) ∧
    (busy = [] → dup = [] → diff ≠ [] → pmxCommit s = (((State.each (fun n x => x.pmxCut n) diff w).put
      F.PMX_STAT_RESULT 0).put F.PMX_STAT_BUSY 1).onPmx fun p => { p with switching := diff.map fun n => (n, pinSel w n) }) := by
  have hfree : ¬ s.on F.PMX_STAT_BUSY = true := by simp [hidle]
  have hempty : ∀ {l : List Nat}, l = [] → ¬ ¬ l.isEmpty = true := fun h => by simp [h]
  refine ⟨fun h => ?_, fun h h' => ?_, fun h h' h'' => ?_, fun h h' h'' => ?_⟩ <;> rw [pmxCommit, if_neg hfree] <;>
    simp only [← hu, ← hdiff, ← hbusy, ← hdup, ← hw]
  · rw [if_pos (by simpa using h)]
  · rw [if_neg (hempty h), if_pos (by simpa using h')]
  · rw [if_neg (hempty h), if_neg (hempty h'), if_pos (by simp [h''])]
  · rw [if_neg (hempty h), if_neg (hempty h'), if_neg (by simpa using h'')]
    rfl

theorem pmxSwitchEnd_clauses {u : State} (hu : u = s.onPmx (fun p => { p with rejoin := p.rejoin.filter fun n => ballStopped s n })) :
    (u.on F.PMX_STAT_BUSY = true → pmxSwitchEnd s = (((State.each (fun (x : Nat × Nat) w => w.put (F.PMX_PIN_ACT x.1) x.2)
      s.pmx.switching u).onPmx fun p => { p with switching := [] }).put F.PMX_STAT_BUSY 0).pmxStops.uartKick) ∧
    (u.on F.PMX_STAT_BUSY = false → pmxSwitchEnd s = u.uartKick) := by
  have hlist : u.pmx.switching = s.pmx.switching := by rw [hu]; rfl
  constructor
  · intro hbusy
    simp only [pmxSwitchEnd, ← hu, hbusy, not_true, if_false, hlist]
    rfl
  · intro hbusy
    simp only [pmxSwitchEnd, ← hu, hbusy, Bool.false_eq_true, not_false_eq_true, if_true]

/-! ### The UART -/

theorem uartKick_out : s.uartKick.out = s.out := by
  unfold State.uartKick
  split
  · split <;> rfl
  · rfl

/-- With an empty FIFO no character starts. -/
theorem uartKick_shifting_of_empty (h : s.pmx.tx = []) : s.uartKick.pmx.shifting = s.pmx.shifting := by
  unfold State.uartKick
  split
  · next htx => simp [h] at htx
  · rfl

theorem uartTxCharacter_spec {b : Byte} (h : s.pmx.shifting = some b) :
    (uartTxCharacter s).out = s.out ++ (if connected s .uartTx then [.uart b] else []) ∧
      (s.pmx.tx = [] → (uartTxCharacter s).pmx.shifting = none) := by
  simp only [uartTxCharacter, h]
  constructor
  · rw [uartKick_out]
    split
    · rfl
    · exact (List.append_nil _).symm
  · intro htx
    split
    · exact uartKick_shifting_of_empty htx
    · exact uartKick_shifting_of_empty htx

theorem uartTxWrite_clauses {v : Word} :
    (s.pmx.tx.length < 16 → uartTxWrite v s = (s.onPmx fun p => { p with tx := p.tx ++ [BitVec.ofNat 8 v.toNat] }).uartKick) ∧
    (16 ≤ s.pmx.tx.length → uartTxWrite v s = s) :=
  ⟨fun h => if_neg (by omega), fun h => if_pos h⟩

theorem uartRxCharacter_clauses {b : Byte} {u : State} (hbusy : s.on F.UART_STAT_RXBUSY = true) (hu : u = s.put F.UART_STAT_RXBUSY 0) :
    (s.pmx.rx.length < 16 → uartRxCharacter b true s = (u.onPmx fun p => { p with rx := p.rx ++ [b] }).uartStat) ∧
    (16 ≤ s.pmx.rx.length → uartRxCharacter b true s = u.put F.UART_STAT_OVR 1) ∧
    uartRxCharacter b false s = u.put F.UART_STAT_FRERR 1 := by
  have hclr : s.clr F.UART_STAT_RXBUSY = u := hu.symm
  have hrx : u.pmx.rx = s.pmx.rx := by rw [hu]; rfl
  have hon : ¬ ¬ s.on F.UART_STAT_RXBUSY = true := not_not_intro hbusy
  refine ⟨fun h => ?_, fun h => ?_, ?_⟩ <;> rw [uartRxCharacter, if_neg hon] <;> simp only [hclr, hrx]
  · rw [if_neg (by simp), if_neg (by omega)]
  · rw [if_neg (by simp), if_pos h]
    rfl
  · rw [if_pos (by simp)]
    rfl

/-- Settles O4, command by command. -/
theorem pinAndUartCommandsComplete : Obligations.PinAndUartCommandsComplete := by
  unfold Obligations.PinAndUartCommandsComplete
  refine ⟨fun a b c s hfirst hon => ⟨_, congrArg Host.Outcome.next (strapSample_of_first hfirst hon), rfl, fun hs => rd_wr_same _ hs⟩,
    fun s hstrapped hhanded => congrArg Host.Outcome.next (gpioHandover_of_strapped hstrapped hhanded),
    fun m s u w diff busy dup hm hidle hu hw hdiff hbusy hdup => ?_, fun s u hu => ?_,
    fun m n s hm hn => congrArg Host.Outcome.next ((byCore_of_not_gated hm).trans (if_pos hn)), fun m v s hm => ?_,
    fun m s hm => congrArg Host.Outcome.next (byCore_of_not_gated hm),
    fun b s h => ⟨_, rfl, uartTxCharacter_spec h⟩, fun s hen hpin => congrArg Host.Outcome.next (if_pos ⟨hen, hpin⟩),
    fun b s u hbusy hu => ?_⟩
  · have hexec : exec (.pmxCommit m) s = .next (pmxCommit s) := congrArg Host.Outcome.next (byCore_of_not_gated hm)
    simp only [hexec, Host.Outcome.next.injEq]
    exact pmxCommit_clauses hidle hu hw hdiff hbusy hdup
  · obtain ⟨hbusy, hidle⟩ := pmxSwitchEnd_clauses hu
    exact ⟨fun h => congrArg Host.Outcome.next (hbusy h), fun h => congrArg Host.Outcome.next (hidle h)⟩
  · have hexec : exec (.uartTxWrite m v) s = .next (uartTxWrite v s) := congrArg Host.Outcome.next (byCore_of_not_gated hm)
    simp only [hexec, Host.Outcome.next.injEq]
    exact uartTxWrite_clauses
  · obtain ⟨hroom, hfull, hstop⟩ := uartRxCharacter_clauses (b := b) hbusy hu
    exact ⟨fun h => congrArg Host.Outcome.next (hroom h), fun h => congrArg Host.Outcome.next (hfull h),
      congrArg Host.Outcome.next hstop⟩

end Pmx

end Sys2Proof.Proofs

/-! PROOFS. Supplies, mode requests and the droop governor (R90 to R105, Table 4.6). -/

namespace Sys2Proof.Proofs

open Sys2Proof Sys2Proof.Machine

section Modes

variable {s : State} {m : Master} {t : Trans}

theorem mode_of_rd {t u : State} (h : t.rd R.PCM_MODE = u.rd R.PCM_MODE) : t.mode = u.mode := get_of_rd (f := F.PCM_MODE_MODE) h

theorem mode_put_ne (hs : s.regsWf = true) {f : Fld} (hf : R.PCM_MODE ≠ f.reg) (n : Nat) : (s.put f n).mode = s.mode :=
  mode_of_rd (rd_put_ne hs hf n)

/-! ### Triggers (R98) -/

theorem retreatTrigger_enters (hs : s.regsWf = true) (hoff : s.mode ≠ mOFF) (hretreat : s.mode ≠ mRETREAT) (bit : Nat) (t : Trans) :
    s.retreatTrigger bit t = (s.setIn F.PCM_CAUSE_CAUSE bit).retreatEnter (if bit = 6 then 1 else bit + 2) t := by
  have hmode : (s.setIn F.PCM_CAUSE_CAUSE bit).mode = s.mode := mode_put_ne hs (by decide) _
  rw [State.retreatTrigger, if_neg hoff]
  exact if_neg (hmode ▸ hretreat)

theorem retreatTrigger_in_retreat (hs : s.regsWf = true) (h : s.mode = mRETREAT) (bit : Nat) (t : Trans) :
    s.retreatTrigger bit t = s.setIn F.PCM_CAUSE_CAUSE bit := by
  have hmode : (s.setIn F.PCM_CAUSE_CAUSE bit).mode = s.mode := mode_put_ne hs (by decide) _
  rw [State.retreatTrigger, if_neg (by rw [h]; decide)]
  exact if_pos (hmode.trans h)

/-! ### The collapse of a rail (R502) -/

theorem cutErase_keeps {β : Type} (part : State → β) (hsto : ∀ (u : State) x, part { u with sto := x } = part u)
    (hdraw : ∀ (u : State) n, part { u with draws := n } = part u) (b : Nat) : part (s.cutErase b) = part s := by
  have hdrawn : part s.draw.2 = part s := hdraw s _
  simp only [State.cutErase]
  split
  · rfl
  · exact ite_keeps part rfl (ite_keeps part ((hsto _ _).trans ((hsto _ _).trans hdrawn)) (ite_keeps part ((hsto _ _).trans hdrawn) hdrawn))

theorem leftCell_keeps {β : Type} (part : State → β) (hstore : ∀ (u : State) a l, part (u.stoWrite a l) = part u) (c : Host.Cell) :
    part (s.leftCell c) = part s := by
  unfold State.leftCell
  split
  · exact hstore _ _ _
  split
  · split
    · exact hstore _ _ _
    · rfl
  · rfl

/-- The state that a collapse finds in the cells. -/
def collapsed (left : List Host.Cell) (s : State) : State :=
  State.each (fun c s => s.leftCell c) left (State.each (fun b s => s.cutErase b) (List.range 16) s)

theorem collapsed_keeps {β : Type} (part : State → β) (hsto : ∀ (u : State) x, part { u with sto := x } = part u)
    (hdraw : ∀ (u : State) n, part { u with draws := n } = part u) (hstore : ∀ (u : State) a l, part (u.stoWrite a l) = part u)
    (left : List Host.Cell) : part (collapsed left s) = part s :=
  (each_keeps part (fun c _ => leftCell_keeps part hstore c) left _).trans
    (each_keeps part (fun b _ => cutErase_keeps part hsto hdraw b) (List.range 16) s)

/-- What a collapse leaves (R502). -/
theorem railCollapse_spec (left : List Host.Cell) (s : State) :
    (railCollapse left s).mode = mOFF ∧ (railCollapse left s).buf = [] ∧ (railCollapse left s).sram = [] ∧
    (railCollapse left s).pd = s.pd ∧ (railCollapse left s).sst.fuses = s.sst.fuses ∧ (railCollapse left s).mor = {} ∧
    (railCollapse left s).atb = {} ∧ (railCollapse left s).firn = {} ∧
    (railCollapse left s).uqi = { never := s.uqi.never, moved := s.uqi.moved, owned := s.uqi.owned } ∧
    (left = [] → (railCollapse left s).store = s.store) := by
  have hpd : (collapsed left s).pd = s.pd := collapsed_keeps (fun u => u.pd) (fun _ _ => rfl) (fun _ _ => rfl) (fun _ _ _ => rfl) left
  have hsst : (collapsed left s).sst = s.sst :=
    collapsed_keeps (fun u => u.sst) (fun _ _ => rfl) (fun _ _ => rfl) (fun _ _ _ => rfl) left
  have huqi : (collapsed left s).uqi = s.uqi :=
    collapsed_keeps (fun u => u.uqi) (fun _ _ => rfl) (fun _ _ => rfl) (fun _ _ _ => rfl) left
  have hfuses : (railCollapse left s).sst.fuses = (collapsed left s).sst.fuses := rfl
  have hleft : (railCollapse left s).store = (collapsed left s).store := rfl
  have hstore : (State.each (fun b s => s.cutErase b) (List.range 16) s).store = s.store :=
    each_keeps (fun u => u.store) (fun b _ => cutErase_keeps (fun u => u.store) (fun _ _ => rfl) (fun _ _ => rfl) b) (List.range 16) s
  refine ⟨get_put_same _ rfl rfl, rfl, rfl, hpd, hfuses.trans (congrArg SstState.fuses hsst), rfl, rfl, rfl, ?_, ?_⟩
  · rw [← huqi]
    rfl
  · intro hnil
    rw [hleft, hnil, collapsed, State.each, hstore]

/-- Settles O6, event by event. -/
theorem supplyCommandsComplete : Obligations.SupplyCommandsComplete := by
  unfold Obligations.SupplyCommandsComplete
  refine ⟨fun s => ⟨rfl, fun hoff => congrArg Host.Outcome.next ?_, fun hon => congrArg Host.Outcome.next ?_⟩,
    fun t s hs hoff hretreat => ⟨congrArg Host.Outcome.next ?_, congrArg Host.Outcome.next ?_, fun hup => congrArg Host.Outcome.next ?_,
      fun hup => congrArg Host.Outcome.next ?_⟩,
    fun t s hs hretreat => ⟨congrArg Host.Outcome.next ?_, congrArg Host.Outcome.next ?_⟩,
    fun t s hdown => ⟨congrArg Host.Outcome.next ?_, congrArg Host.Outcome.next ?_⟩,
    fun s => ⟨rfl, rfl, rfl⟩, fun us s hmode hdone hrstn hbay hv5 hvm => congrArg Host.Outcome.next (if_pos ?_),
    fun left s => ⟨railCollapse left s, rfl, railCollapse_spec left s⟩⟩
  · rw [pwrRstnRise, if_neg (by simp), if_pos hoff]
  · rw [pwrRstnRise, if_neg (by simp), if_neg hon]
    rfl
  · exact retreatTrigger_enters (s := { s with pcm := { s.pcm with rstn := false } }) hs hoff hretreat 4 t
  · exact retreatTrigger_enters (s := { s with pcm := { s.pcm with bay := true } }) hs hoff hretreat 3 t
  · exact (if_pos hup).trans
      (retreatTrigger_enters (s := { s with pd := holdupEntry { s.pd with vmotl := true } }) hs hoff hretreat 0 t)
  · exact (if_pos hup).trans
      (retreatTrigger_enters (s := { s with pd := holdupEntry { s.pd with vin5l := true } }) hs hoff hretreat 1 t)
  · exact retreatTrigger_in_retreat (s := { s with pcm := { s.pcm with rstn := false } }) hs hretreat 4 t
  · exact retreatTrigger_in_retreat (s := { s with pcm := { s.pcm with bay := true } }) hs hretreat 3 t
  · exact if_neg (by simp [State.onPd, hdown])
  · exact if_neg (by simp [State.onPd, hdown])
  · simp [retreatOver, hmode, hdone, hrstn, hbay, hv5, hvm]

/-! ### Requests (R96, R97) -/

theorem exec_modeReqFlow (hm : gated s m = false) : exec (.modeReqFlow m t) s = .next (modeReqFlow m t s) :=
  congrArg Host.Outcome.next (byCore_of_not_gated hm)

theorem exec_modeReqDrift (hm : gated s m = false) : exec (.modeReqDrift m t) s = .next (modeReqDrift m t s) :=
  congrArg Host.Outcome.next (byCore_of_not_gated hm)

theorem exec_modeReqDormant (hm : gated s m = false) : exec (.modeReqDormant m) s = .next (modeReqDormant m s) :=
  congrArg Host.Outcome.next (byCore_of_not_gated hm)

theorem exec_modeReqRetreat (hm : gated s m = false) : exec (.modeReqRetreat m t) s = .next (modeReqRetreat m t s) :=
  congrArg Host.Outcome.next (byCore_of_not_gated hm)

theorem exec_modeReqReboot (hm : gated s m = false) (us : BitVec 32) :
    exec (.modeReqReboot m us) s = .next (modeReqReboot m us s) := congrArg Host.Outcome.next (byCore_of_not_gated hm)

section Request

variable {go : State → State}

theorem pcmRequest_denied (hoff : s.mode ≠ mOFF) (hsec : m ≠ .sec) (hmc : m ≠ .mc) :
    s.pcmRequest m go = s.put F.PCM_STAT_DENIED 1 := by
  rw [State.pcmRequest, if_neg hoff, if_pos ⟨hsec, hmc⟩]
  rfl

theorem asker (hm : m = .sec ∨ m = .mc) : ¬ (m ≠ .sec ∧ m ≠ .mc) := fun h => hm.elim h.1 h.2

theorem pcmRequest_busy (hoff : s.mode ≠ mOFF) (hm : m = .sec ∨ m = .mc) (hpend : s.on F.PCM_STAT_PEND = true) :
    s.pcmRequest m go = s.put F.PCM_STAT_RESULT 3 := by
  rw [State.pcmRequest, if_neg hoff, if_neg (asker hm), if_pos hpend]

theorem pcmRequest_taken (hoff : s.mode ≠ mOFF) (hm : m = .sec ∨ m = .mc) (hpend : s.on F.PCM_STAT_PEND = false) :
    s.pcmRequest m go = go s := by
  rw [State.pcmRequest, if_neg hoff, if_neg (asker hm), if_neg (by simp [hpend])]

end Request

/-- What each request does once it is taken, mode by mode. -/
theorem modeReq_taken (hm : m = .sec ∨ m = .mc) (hpend : s.on F.PCM_STAT_PEND = false) :
    (s.mode = mDRIFT → modeReqFlow m t s = ((s.put F.PCM_STAT_RESULT 0).enterFlow t).modeSettle ∧
      modeReqDrift m t s = s.illegal ∧ modeReqDormant m s = s.pcmPend mDORMANT .sleep) ∧
    (s.mode = mFLOW → modeReqFlow m t s = s.illegal ∧
      modeReqDrift m t s = s.pcmPend mDRIFT .leaveFlow ∧ modeReqDormant m s = s.pcmPend mDORMANT .leaveFlow) ∧
    (s.mode = mDORMANT → modeReqDormant m s = s.illegal ∧ modeReqFlow m t s = s.askWake mFLOW ∧
      modeReqDrift m t s = s.askWake mDRIFT) ∧
    (s.mode = mRETREAT → modeReqFlow m t s = s.illegal ∧ modeReqDrift m t s = s.illegal ∧ modeReqDormant m s = s.illegal) ∧
    (s.mode = mTHAW → m = .mc → modeReqFlow m t s = s.illegal ∧ modeReqDrift m t s = s.illegal ∧
      modeReqDormant m s = s.illegal) ∧
    (s.mode = mTHAW → m = .sec →
      modeReqFlow m t s = (if thawReady s then (((s.put F.PCM_STAT_RESULT 0).enterDrift t).enterFlow t).modeSettle else s.notReady) ∧
      modeReqDrift m t s = (if thawReady s then ((s.put F.PCM_STAT_RESULT 0).enterDrift t).modeSettle else s.notReady) ∧
      modeReqDormant m s = (if s.on F.SST_STAT_ALLOK then s.pcmPend mDORMANT .sleep else s.notReady)) := by
  have hgo : ∀ n, s.mode = n → n ≠ mOFF → ∀ go, s.pcmRequest m go = go s := fun n hn hne go =>
    pcmRequest_taken (hn ▸ hne) hm hpend
  refine ⟨fun h => ?_, fun h => ?_, fun h => ?_, fun h => ?_, fun h hmc => ?_, fun h hsec => ?_⟩ <;>
    simp only [modeReqFlow, modeReqDrift, modeReqDormant, hgo _ h (by decide), h, mTHAW, mFLOW, mDRIFT, mDORMANT, mRETREAT,
      Nat.reduceEqDiff, if_true, if_false, and_self]
  · have hother : m ≠ .sec := by rw [hmc]; decide
    simp only [hother, ne_eq, not_false_eq_true, if_true, and_self]
  · simp only [hsec, ne_eq, not_true, if_false, and_self]

/-- What the end of a quiesce step, its timeout and the end of the exit from DORMANT do to a pending transition. -/
theorem pending_clauses {p : PcmPend} (hp : s.pcm.pend = some p) :
    (p.step = .sleep → dmaIdle s = true → quiesceDone t s = ((s.pcmDone 0).enterDormant t).modeSettle) ∧
    (p.step = .leaveFlow → p.final ≠ mDORMANT → mediaIdle s = true →
      quiesceDone t s = ((s.enterMode mDRIFT 1 t).pcmDone 0).modeSettle) ∧
    (p.step = .leaveFlow → p.final = mDORMANT → mediaIdle s = true →
      quiesceDone t s = (s.enterMode mDRIFT 1 t).sleepStart mDORMANT p.source) ∧
    (p.step = .sleep → dmaIdle s = false → quiesceTimeout s = ((s.abandon p 1).dmaRelease).modeSettle) ∧
    (p.step = .leaveFlow → mediaIdle s = false → quiesceTimeout s = (s.abandon p 2).modeSettle) ∧
    (p.step = .wake → s.get F.FLNK_PD_SPST = 3 → s.get F.ATB_STAT_STATE = 2 →
      (p.final ≠ mFLOW → dormantExitDone t s = ((s.pcmDone 0).enterDrift t).modeSettle) ∧
      (p.final = mFLOW → dormantExitDone t s = (((s.pcmDone 0).enterDrift t).enterFlow t).modeSettle)) := by
  refine ⟨fun hstep hidle => ?_, fun hstep hfinal hidle => ?_, fun hstep hfinal hidle => ?_, fun hstep hidle => ?_,
    fun hstep hidle => ?_, fun hstep hspin hlock => ⟨fun hfinal => ?_, fun hfinal => ?_⟩⟩
  · simp only [quiesceDone, hp, hstep, hidle, if_true]
  · simp only [quiesceDone, hp, hstep, hidle, if_true, hfinal, if_false]
  · simp only [quiesceDone, hp, hstep, hidle, if_true, hfinal]
  · simp only [quiesceTimeout, hp, hstep, hidle, Bool.false_eq_true, if_false]
  · simp only [quiesceTimeout, hp, hstep, hidle, Bool.false_eq_true, if_false]
  · simp only [dormantExitDone, hp, hstep, hspin, hlock, and_self, if_true, hfinal, if_false]
  · simp only [dormantExitDone, hp, hstep, hspin, hlock, and_self, if_true, hfinal]

theorem modeReqRetreat_clauses (hs : s.regsWf = true) (hm : m = .sec ∨ m = .mc) (hoff : s.mode ≠ mOFF) :
    (s.mode ≠ mRETREAT → modeReqRetreat m t s = ((s.put F.PCM_STAT_RESULT 0).setIn F.PCM_CAUSE_CAUSE 6).retreatEnter 1 t) ∧
    (s.mode = mRETREAT → modeReqRetreat m t s = s.put F.PCM_STAT_RESULT 1) := by
  constructor
  · intro h
    have hmode : (s.put F.PCM_STAT_RESULT 0).mode = s.mode := mode_put_ne hs (by decide) _
    rw [modeReqRetreat, if_neg hoff, if_neg (asker hm), if_neg h,
      retreatTrigger_enters (regsWf_put _ _ hs) (hmode ▸ hoff) (hmode ▸ h), if_pos rfl]
  · intro h
    rw [modeReqRetreat, if_neg hoff, if_neg (asker hm), if_pos h]
    rfl

theorem modeReqReboot_clauses {us : BitVec 32} (hpend : s.on F.PCM_STAT_PEND = false) (hoff : s.mode ≠ mOFF) :
    (s.mode ≠ mRETREAT → dirtyEmpty s = true → modeReqReboot .sec us s = s.rebootNow us.toNat) ∧
    (s.mode ≠ mRETREAT → dirtyEmpty s = false → modeReqReboot .sec us s = s.put F.PCM_STAT_RESULT 4) ∧
    (s.mode = mRETREAT → modeReqReboot .sec us s = s.put F.PCM_STAT_RESULT 1) ∧
    modeReqReboot .mc us s = s.put F.PCM_STAT_RESULT 1 := by
  refine ⟨fun h hclean => ?_, fun h hclean => ?_, fun h => ?_, ?_⟩
  · rw [modeReqReboot, pcmRequest_taken hoff (.inl rfl) hpend, if_neg (by simp [h]), if_pos hclean]
  · rw [modeReqReboot, pcmRequest_taken hoff (.inl rfl) hpend, if_neg (by simp [h]), if_neg (by simp [hclean])]
  · rw [modeReqReboot, pcmRequest_taken hoff (.inl rfl) hpend, if_pos (.inr h)]
    rfl
  · rw [modeReqReboot, pcmRequest_taken hoff (.inr rfl) hpend, if_pos (.inl (by decide))]
    rfl

theorem askWake_clauses {n : Nat} : (s.get F.FLNK_SPD_TARGET ≠ 0 → s.askWake n = s.wakeStart n) ∧
    (s.get F.FLNK_SPD_TARGET = 0 → s.askWake n = s.put F.PCM_STAT_RESULT 5) :=
  ⟨fun h => if_neg h, fun h => (if_pos h).trans rfl⟩

/-- Settles O7, request by request. -/
theorem modeRequestsComplete : Obligations.ModeRequestsComplete := by
  unfold Obligations.ModeRequestsComplete
  refine ⟨fun m t us s hm hoff hsec hmc => ?_, fun m t us s hm hoff hask hpend => ?_, fun m t s hm hask hpend => ?_,
    fun m t s hm hs hask hoff => ?_, fun us s hpend hoff => ?_, fun t p s hp => ?_,
    fun q s hdl hretreat hoff hquiet => congrArg Host.Outcome.next (if_pos ⟨hdl, hretreat, hoff, hquiet⟩)⟩
  · rw [exec_modeReqFlow hm, exec_modeReqDrift hm, exec_modeReqDormant hm, exec_modeReqRetreat hm, exec_modeReqReboot hm,
      modeReqFlow, modeReqDrift, modeReqDormant, modeReqReboot, modeReqRetreat, if_neg hoff, if_pos ⟨hsec, hmc⟩]
    simp only [pcmRequest_denied hoff hsec hmc, State.raiseBit, and_self]
  · rw [exec_modeReqFlow hm, exec_modeReqDrift hm, exec_modeReqDormant hm, exec_modeReqReboot hm,
      modeReqFlow, modeReqDrift, modeReqDormant, modeReqReboot]
    simp only [pcmRequest_busy hoff hask hpend, and_self]
  · obtain ⟨hdrift, hflow, hdormant, hretreat, hthawMc, hthawSec⟩ := modeReq_taken (t := t) hask hpend
    simp only [exec_modeReqFlow hm, exec_modeReqDrift hm, exec_modeReqDormant hm, Host.Outcome.next.injEq]
    refine ⟨hdrift, hflow, fun h => ?_, hretreat, hthawMc, fun h hsec => ?_⟩
    · obtain ⟨hsleep, hwakeFlow, hwakeDrift⟩ := hdormant h
      rw [hwakeFlow, hwakeDrift]
      exact ⟨hsleep, fun hspin => ⟨askWake_clauses.1 hspin, askWake_clauses.1 hspin⟩,
        fun hspin => ⟨askWake_clauses.2 hspin, askWake_clauses.2 hspin⟩⟩
    · obtain ⟨hf, hd, hz⟩ := hthawSec h hsec
      rw [hf, hd, hz]
      exact ⟨fun hready => ⟨if_pos hready, if_pos hready⟩,
        fun hready => ⟨if_neg (by simp [hready]), if_neg (by simp [hready])⟩, fun hall => if_pos hall,
        fun hall => if_neg (by simp [hall])⟩
  · simp only [exec_modeReqRetreat hm, Host.Outcome.next.injEq]
    exact modeReqRetreat_clauses hs hask hoff
  · obtain ⟨hclean, hdirty, hretreat, hmc⟩ := modeReqReboot_clauses (us := us) hpend hoff
    refine ⟨fun h h' => ?_, fun h h' => ?_, fun h => ?_, fun hgate => ?_⟩
    · rw [exec_modeReqReboot gated_sec, hclean h h']
    · rw [exec_modeReqReboot gated_sec, hdirty h h']
    · rw [exec_modeReqReboot gated_sec, hretreat h]
    · rw [exec_modeReqReboot hgate, hmc]
  · obtain ⟨hsleep, hleave, hleaveOn, hsleepLate, hleaveLate, hwake⟩ := pending_clauses (t := t) hp
    exact ⟨fun h h' => congrArg Host.Outcome.next (hsleep h h'), fun h h' h'' => congrArg Host.Outcome.next (hleave h h' h''),
      fun h h' h'' => congrArg Host.Outcome.next (hleaveOn h h' h''), fun h h' => congrArg Host.Outcome.next (hsleepLate h h'),
      fun h h' => congrArg Host.Outcome.next (hleaveLate h h'), fun h h' h'' =>
        ⟨fun hf => congrArg Host.Outcome.next ((hwake h h' h'').1 hf), fun hf => congrArg Host.Outcome.next ((hwake h h' h'').2 hf)⟩⟩

/-! ### The droop governor (R90 to R92, R105) -/

theorem droopRelease_of_end {code low : BitVec 8} {ns : BitVec 32} {u w : State} {total : Nat} (hslow : s.on F.DRP_STAT_SLOWED = true)
    (hrel : s.get F.DRP_CTL_REL ≤ code.toNat) (hu : u = ((s.droopSample low.toNat).droopSample code.toNat).put F.DRP_STAT_SLOWED 0)
    (htotal : total = u.get F.DRP_SLT_LO_SLT + u.pcm.sltHi * 4294967296 + ns.toNat)
    (hw : w = (u.put F.DRP_SLT_LO_SLT total).onPcm (fun c =>
      { c with slowed := c.slowed + ns.toNat, sltHi := total / 4294967296 % 4294967296 })) :
    droopRelease code low ns s = if w.on F.DRP_IEN_EPI then w.emit (.blockIrq .mc "DRP") else w := by
  have hclr : ((s.droopSample low.toNat).droopSample code.toNat).clr F.DRP_STAT_SLOWED = u := hu.symm
  rw [droopRelease, if_neg (by simp [hslow]; omega)]
  simp only [hclr, ← htotal, ← hw]

/-- Settles O8: each sample and timer of the governor in the state that it needs. -/
theorem droopGovernorCommandsComplete : Obligations.DroopGovernorCommandsComplete := by
  unfold Obligations.DroopGovernorCommandsComplete
  refine ⟨fun code s hoff hlow hslow => congrArg Host.Outcome.next ?_,
    fun code low ns s u w total hslow hrel hu htotal hw => congrArg Host.Outcome.next (droopRelease_of_end hslow hrel hu htotal hw),
    fun code ns t s u hoff hlow hu => congrArg Host.Outcome.next ?_, fun s hep hoff => congrArg Host.Outcome.next ?_⟩
  · exact if_neg (by simp [hoff, hslow]; omega)
  · subst hu
    exact if_neg (by simp [hoff]; omega)
  · exact if_neg (by simp [hep, hoff])

end Modes

end Sys2Proof.Proofs

/-! PROOFS. Secure start: the boot ROM and the loader, keys, releases and fuses (chapter 5). -/

namespace Sys2Proof.Proofs

open Sys2Proof Sys2Proof.Machine

section Boot

variable {s : State} {us : BitVec 32}

theorem secLeavesReset_clauses (hmode : s.mode = mTHAW) (hout : s.sst.secOut = false) :
    (s.sst.fuses.targetRpm = 0 → secLeavesReset s = ((({ s with sst := { s.sst with secOut := true } } : State).put F.ATB_CTL_COAST_RPM
      5400).put F.ATB_CTL_EN 1 |>.flnkSend .unpatch)) ∧
    (∀ u : State, s.sst.fuses.targetRpm ≠ 0 → u = (((({ s with sst := { s.sst with secOut := true } } : State).put F.ATB_CTL_COAST_RPM
      (coastRpm s.sst.fuses.targetRpm)).put F.ATB_CTL_EN 1).flnkSend .unpatch).put F.FLNK_SPD_TARGET s.sst.fuses.targetRpm →
      secLeavesReset s = u.flnkSend u.speedPkt) := by
  have hgo : ¬ (s.mode ≠ mTHAW ∨ s.sst.secOut = true) := by simp [hmode, hout]
  constructor
  · intro hrpm
    rw [secLeavesReset, if_neg hgo]
    simp only [hrpm, if_true]
    rfl
  · rintro u hrpm rfl
    rw [secLeavesReset, if_neg hgo]
    exact if_neg hrpm

theorem headersRead_clauses {u : State} (hmode : s.mode = mTHAW) (hout : s.sst.secOut = true) (hchosen : s.sst.chosen = false)
    (hu : u = ((s.wakeBank 0).wakeBank 1).onSst (fun x => { x with chosen := true })) :
    (∀ n : Nat, bestSlot u (u.get F.SST_FAIL_FAILMASK) = some n → headersRead s = (u.bootSlot n).eccKick) ∧
    (bestSlot u (u.get F.SST_FAIL_FAILMASK) = none → headersRead s = u.recovery.eccKick) := by
  have hgo : ¬ (s.mode ≠ mTHAW ∨ ¬ s.sst.secOut = true ∨ s.sst.chosen = true) := by simp [hmode, hout, hchosen]
  constructor
  · intro n hn
    rw [headersRead, if_neg hgo]
    simp only [← hu, hn]
  · intro hn
    rw [headersRead, if_neg hgo]
    simp only [← hu, hn]

/-- A block that can be read lands, and one that cannot fails its segment. -/
theorem blockLanded_clauses {u v : State} {k i a : Nat} {b : List Byte} (hload : s.sst.loading = true) (hk : k = s.sst.seg) (hk7 : k < 7)
    (hi : i = s.get (F.SST_SEG_LOADED k)) (ha : a = slotBase (s.get F.SST_STAT_SLOT) + segOff s.sst.hdr k + 65536 * i)
    (hu : u = s.wakeBank (bankOf a)) (hb : b = blockBytes u s.sst.hdr k i)
    (hv : v = ((u.placeBlock k i b).put (F.SST_SEG_LOADED k) (i + 1)).onSst (fun x => { x with
      landed := x.landed ++ [(k, b)], seg := if i + 1 = segNblk s.sst.hdr k then k + 1 else k })) :
    (sectorUnsure u a = false → blockLanded us s = v.blockArrived k i) ∧
    (sectorUnsure u a = true → blockLanded us s = (((u.stoCapture 15 .loader a).put (F.SST_SEG_RESULT k) 2).verifyFailed
      k 3 (i + 1) (chainSoFar u k) us.toNat).eccKick) := by
  have hgo : ¬ (¬ s.sst.loading = true ∨ s.sst.seg ≥ 7) := by
    rw [hload, ← hk]
    simp
    omega
  constructor
  · intro hread
    rw [blockLanded, if_neg hgo]
    simp only [← hk, ← hi, ← ha, ← hu, hread, Bool.false_eq_true, if_false, ← hb, ← hv]
  · intro hread
    rw [blockLanded, if_neg hgo]
    simp only [← hk, ← hi, ← ha, ← hu, hread, if_true]

/-- A block of a core's segment goes to the core's memory. -/
theorem placeBlock_sram {k i : Nat} {b : List Byte} {m : Master} (h : segCore k = some m) :
    (s.placeBlock k i b).sram = Sparse.writeList zeroed s.sram (tcmBase m + 65536 * i) b := by
  simp only [State.placeBlock, h, State.sramWrite_sram]

theorem blockHashed_clauses {u : State} {k n : Nat} {b c : List Byte} {l : List (Nat × List Byte)} (hl : s.sst.landed = (k, b) :: l)
    (hc : c = sha384 (tabGet s.sst.chains (zeros 48) k ++ b)) (hn : n = s.get (F.SST_SEG_HASHED k) + 1)
    (hu : u = (s.onSst fun x => { x with landed := l, chains := tabPut x.chains (zeros 48) k c }).put (F.SST_SEG_HASHED k) n) :
    (n < segNblk s.sst.hdr k → blockHashed us s = u) ∧
    (segNblk s.sst.hdr k ≤ n → c = segFinal s.sst.hdr k →
      blockHashed us s = (u.onSst fun x => { x with matched := x.matched ++ [k] }).passMatched.eccKick) ∧
    (segNblk s.sst.hdr k ≤ n → c ≠ segFinal s.sst.hdr k →
      blockHashed us s = ((u.put (F.SST_SEG_RESULT k) 2).verifyFailed k 2 n c us.toNat).eccKick) := by
  have hhdr : u.sst.hdr = s.sst.hdr := by rw [hu]; rfl
  have hchain : sha384 (chainOf s k ++ b) = c := hc.symm
  have hcount : (s.onSst fun x => { x with landed := l, chains := tabPut x.chains (zeros 48) k c }).get (F.SST_SEG_HASHED k) + 1 = n :=
    hn.symm
  have hbody : blockHashed us s = if n < segNblk u.sst.hdr k then u
      else if c = segFinal u.sst.hdr k then ((u.onSst fun x => { x with matched := x.matched ++ [k] }).passMatched).eccKick
      else ((u.put (F.SST_SEG_RESULT k) 2).verifyFailed k 2 n c us.toNat).eccKick := by
    simp only [blockHashed, hl, hchain, hcount, ← hu]
  rw [hbody, hhdr]
  refine ⟨fun h => if_pos h, fun h hfinal => ?_, fun h hfinal => ?_⟩
  · rw [if_neg (by omega), if_pos hfinal]
  · rw [if_neg (by omega), if_neg hfinal]

theorem headerSignatureDone_clauses {u : State} {ok : Bool} (hecc : s.sst.ecc = some .header) (hold : s.sst.eccOld = false)
    (hu : u = s.eccFree)
    (hok : ok = ecdsaVerify (slice s.sst.hdr 0x250 96) (sha384 (slice s.sst.hdr 0 0xFA0)) (slice s.sst.hdr 0xFA0 96)) :
    (ok = true → headerSignatureDone us s = (u.put F.SST_STAT_HDRSIG 1).passMatched.eccKick) ∧
    (ok = false → headerSignatureDone us s = ((State.each (fun k x => x.put (F.SST_SEG_RESULT k) 2) (List.range 7)
      (u.put F.SST_STAT_HDRSIG 2)).verifyFailed 7 1 0xFFFF (zeros 48) us.toNat).eccKick) := by
  have hjudge : headerSignatureDone us s = (headerJudge us u).eccKick := by
    rw [headerSignatureDone, if_neg (not_not_intro hecc), if_neg (by simp [hold]), hu]
  have hverify : ecdsaVerify (slice u.sst.hdr 0x250 96) (hdrDigest u.sst.hdr) (slice u.sst.hdr 0xFA0 96) = ok := by
    rw [hok, hu]
    rfl
  constructor
  · intro h
    rw [hjudge, headerJudge]
    simp only [hverify, h, if_true]
  · intro h
    rw [hjudge, headerJudge]
    simp only [hverify, h, Bool.false_eq_true, if_false]

/-- Settles O9, step by step. -/
theorem bootRomCommandsComplete : Obligations.BootRomCommandsComplete := by
  unfold Obligations.BootRomCommandsComplete
  refine ⟨fun s hmode hout hrpm => congrArg Host.Outcome.next ((secLeavesReset_clauses hmode hout).1 hrpm),
    fun s u hmode hout hrpm hu => congrArg Host.Outcome.next ((secLeavesReset_clauses hmode hout).2 u hrpm hu),
    fun s u hmode hout hchosen hu => ?_, fun us s u v k i a b hload hk hk7 hi ha hu hb hv => ?_,
    fun us s u k n b c l hl hc hn hu => ?_, fun us s u ok hecc hold hu hok => ?_, fun us s hecc hold => congrArg Host.Outcome.next ?_⟩
  · obtain ⟨hsome, hnone⟩ := headersRead_clauses hmode hout hchosen hu
    exact ⟨fun n hn => congrArg Host.Outcome.next (hsome n hn), fun hn => congrArg Host.Outcome.next (hnone hn)⟩
  · obtain ⟨hgood, hbad⟩ := blockLanded_clauses (us := us) hload hk hk7 hi ha hu hb hv
    refine ⟨fun h => ⟨congrArg Host.Outcome.next (hgood h), fun m hm => ?_⟩, fun h => congrArg Host.Outcome.next (hbad h)⟩
    rw [hv]
    exact placeBlock_sram hm
  · obtain ⟨hmore, hmatch, hfail⟩ := blockHashed_clauses (us := us) hl hc hn hu
    exact ⟨fun h => congrArg Host.Outcome.next (hmore h), fun h h' => congrArg Host.Outcome.next (hmatch h h'),
      fun h h' => congrArg Host.Outcome.next (hfail h h')⟩
  · obtain ⟨hpass, hfail⟩ := headerSignatureDone_clauses (us := us) hecc hold hu hok
    exact ⟨fun h => congrArg Host.Outcome.next (hpass h), fun h => congrArg Host.Outcome.next (hfail h)⟩
  · rw [headerSignatureDone, if_neg (not_not_intro hecc), if_pos hold]

end Boot

end Sys2Proof.Proofs

/-! PROOFS. Secure start: keys, signatures and the ALIAS certificate (R115 to R119, R447). -/

namespace Sys2Proof.Proofs

open Sys2Proof Sys2Proof.Machine

section Keys

variable {s : State} {v : Word}

/-! ### Commands of SEC -/

theorem exec_keyLock {m : Master} (hm : gated s m = false) : exec (.keyLock m v) s = .next (keyLock m v s) :=
  congrArg Host.Outcome.next (byCore_of_not_gated hm)

theorem exec_derive {m : Master} (hm : gated s m = false) : exec (.derive m v) s = .next (derive m v s) :=
  congrArg Host.Outcome.next (byCore_of_not_gated hm)

theorem exec_keyClear {m : Master} (hm : gated s m = false) : exec (.keyClear m v) s = .next (keyClear m v s) :=
  congrArg Host.Outcome.next (byCore_of_not_gated hm)

theorem exec_sign {m : Master} (hm : gated s m = false) : exec (.sign m v) s = .next (sign m v s) :=
  congrArg Host.Outcome.next (byCore_of_not_gated hm)

/-- Another master's key command does nothing. -/
theorem keyCommands_of_other {m : Master} (hm : m ≠ .sec) :
    keyLock m v s = s ∧ derive m v s = s ∧ keyClear m v s = s ∧ sign m v s = s := by
  have hcmd : ∀ go, s.keyCommand m go = s := fun go => if_pos (.inl hm)
  refine ⟨if_pos hm, ?_, ?_, if_pos (.inl hm)⟩
  · rw [derive, hcmd, ite_self]
  · rw [keyClear, hcmd, ite_self]

theorem keyCommand_busy {m : Master} {go : State → State} (h : s.on F.SST_KRES_BUSY = true) : s.keyCommand m go = s := if_pos (.inr h)

theorem keyCommand_clauses {go : State → State} (h : s.on F.SST_KRES_BUSY = false) :
    (s.on F.SST_KLOCK_MEK_USELOCK = false → s.keyCommand .sec go = go (s.put F.SST_KRES_RESULT 0)) ∧
    (s.on F.SST_KLOCK_MEK_USELOCK = true → s.keyCommand .sec go = s.put F.SST_KRES_RESULT 1) := by
  have hgo : ¬ (Master.sec ≠ .sec ∨ s.on F.SST_KRES_BUSY = true) := by simp [h]
  constructor
  · intro hlock
    rw [State.keyCommand, if_neg hgo, if_neg (by simp [hlock])]
  · intro hlock
    rw [State.keyCommand, if_neg hgo, if_pos hlock]

theorem derive_of_op (h : bitsOf v 1 0 = 1) : derive .sec v s = s.keyCommand .sec fun s =>
    (s.onSst fun x => { x with deriving_ := some (kcmdParty v, saltOf s) }).raiseBit F.SST_KRES_BUSY := if_neg (not_not_intro h)

theorem keyClear_of_op (h : bitsOf v 1 0 = 2) : keyClear .sec v s = s.keyCommand .sec fun s => s.newKey (kcmdParty v) [] false :=
  if_neg (not_not_intro h)

theorem keyCommands_clauses {u : State} (hidle : s.on F.SST_KRES_BUSY = false) (hu : u = s.put F.SST_KRES_RESULT 0) :
    (s.on F.SST_KLOCK_MEK_USELOCK = false →
      (bitsOf v 1 0 = 1 → derive .sec v s = (u.onSst fun x => { x with
        deriving_ := some (bitsOf v 7 4, saltOf u) }).put F.SST_KRES_BUSY 1) ∧
      (bitsOf v 1 0 = 2 → keyClear .sec v s = u.newKey (bitsOf v 7 4) [] false)) ∧
    (s.on F.SST_KLOCK_MEK_USELOCK = true →
      (bitsOf v 1 0 = 1 → derive .sec v s = s.put F.SST_KRES_RESULT 1) ∧
      (bitsOf v 1 0 = 2 → keyClear .sec v s = s.put F.SST_KRES_RESULT 1)) := by
  refine ⟨fun hlock => ⟨fun hop => ?_, fun hop => ?_⟩, fun hlock => ⟨fun hop => ?_, fun hop => ?_⟩⟩
  · rw [derive_of_op hop, (keyCommand_clauses hidle).1 hlock, ← hu]
    rfl
  · rw [keyClear_of_op hop, (keyCommand_clauses hidle).1 hlock, ← hu]
    rfl
  · rw [derive_of_op hop, (keyCommand_clauses hidle).2 hlock]
  · rw [keyClear_of_op hop, (keyCommand_clauses hidle).2 hlock]

theorem keyCommands_ignored (hbusy : s.on F.SST_KRES_BUSY = true) : derive .sec v s = s ∧ keyClear .sec v s = s := by
  rw [derive, keyClear, keyCommand_busy hbusy, keyCommand_busy hbusy, ite_self, ite_self]
  exact ⟨rfl, rfl⟩

theorem sign_clauses {u : State} (hgo : v.getLsbD 0 = true) (hidle : s.on F.SST_SRES_BUSY = false) :
    (s.on F.SST_KLOCK_ALIAS_USELOCK = false → u = s.put F.SST_SRES_RESULT 0 → sign .sec v s = ((u.onSst fun x =>
      { x with signing := some (rdBytes s R.SST_DIG 12) }).put F.SST_SRES_BUSY 1).eccKick) ∧
    (s.on F.SST_KLOCK_ALIAS_USELOCK = true → sign .sec v s = s.put F.SST_SRES_RESULT 1) := by
  have htaken : ¬ (Master.sec ≠ .sec ∨ ¬ v.getLsbD 0 = true ∨ s.on F.SST_SRES_BUSY = true) := by
    rw [hgo, hidle]
    simp
  constructor
  · rintro hlock rfl
    rw [sign, if_neg htaken, if_neg (by simp [hlock])]
    rfl
  · intro hlock
    rw [sign, if_neg htaken, if_pos hlock]

theorem sign_ignored (h : v.getLsbD 0 = false ∨ s.on F.SST_SRES_BUSY = true) : sign .sec v s = s :=
  if_pos (.inr (h.imp_left fun h => by rw [h]; exact Bool.false_ne_true))

/-! ### A new key (R118, R349) -/

theorem rekeyOne_of_idle {p c : Nat} {old new : List Byte} {ready : Bool} (h : (s.chan c).live = false) :
    State.rekeyOne p old new ready c s = s := by
  rw [State.rekeyOne]
  exact if_pos (.inl (by rw [h]; exact Bool.false_ne_true))

/-- Where no channel runs, no transfer follows a new key. -/
theorem each_rekeyOne_of_idle {p : Nat} {old new : List Byte} {ready : Bool} (h : ∀ c, c < 16 → (s.chan c).live = false) :
    State.each (State.rekeyOne p old new ready) (List.range 16) s = s :=
  each_induction (P := fun t => t = s) rfl fun c hc u hu => by
    rw [hu]
    exact rekeyOne_of_idle (h c (List.mem_range.1 hc))

theorem newKey_of_idle {u : State} {p : Nat} {k : List Byte} (h : ∀ c, c < 16 → (s.chan c).live = false)
    (hu : u = { s with cry := { s.cry with keys := tabPut s.cry.keys [] p k } }) :
    s.newKey p k true = (u.put (F.CRY_SLOT_READY p) 1).incWrap (F.CRY_SLOT_GEN p) ∧ s.newKey p k false = u.put (F.CRY_SLOT_READY p) 0 := by
  subst hu
  exact ⟨each_rekeyOne_of_idle (s := State.incWrap _ _) h, each_rekeyOne_of_idle (s := State.clr _ _) h⟩

theorem deriveDone_of_running {p : Nat} {salt k : List Byte} (h : s.sst.deriving_ = some (p, salt)) (hk : k = mediaKey p salt) :
    deriveDone s = ((s.onSst fun x => { x with deriving_ := none }).put F.SST_KRES_BUSY 0).newKey p k
      (slice k 0 32 != slice k 32 32) := by
  subst hk
  simp only [deriveDone, h]
  rfl

/-! ### The ECC engine's answers (R115, R447) -/

theorem aliasDerived_clauses (h : s.sst.ecc = some .alias_) :
    (s.sst.eccOld = false → aliasDerived s = ((s.eccFree.onSst fun x => { x with alias_ := true }).wrBytes R.SST_ALIASPUB 24
      (publicOf (aliasKey (segFinal s.sst.hdr 0)))).handoverDue.eccKick) ∧
    (s.sst.eccOld = true → aliasDerived s = s.eccFree.eccKick) := by
  constructor
  · intro hold
    rw [aliasDerived, if_neg (not_not_intro h), if_neg (by simp [hold])]
  · intro hold
    rw [aliasDerived, if_neg (not_not_intro h), if_pos hold]

theorem handoverDue_clauses :
    (s.sst.alias_ = true → segPassed s 1 = true → s.sst.handed = false → s.handoverDue = s.handover) ∧
    (s.sst.alias_ = false ∨ segPassed s 1 = false ∨ s.sst.handed = true → s.handoverDue = s) := by
  constructor
  · intro halias hpass hhanded
    exact if_pos ⟨halias, hpass, by simp [hhanded]⟩
  · intro h
    refine if_neg fun hdue => ?_
    obtain ⟨halias, hpass, hhanded⟩ := hdue
    simp [halias, hpass, hhanded] at h

theorem aliasCertReady_of_cert {u w : State} {tbs sig cert : List Byte} (h : s.sst.ecc = some .cert) (hu : u = s.eccFree)
    (htbs : tbs = tbsCert (devidPub u) (aliasPub u)) (hsign : u.sign devidKey (sha384 tbs) = (sig, w)) (hcert : cert = derCert tbs sig) :
    aliasCertReady s = (((w.onSst fun x => { x with cert }).put F.MGT_ACLEN_LEN cert.length).put F.MGT_STAT_ACRDY 1).eccKick := by
  rw [aliasCertReady, if_neg (not_not_intro h)]
  simp only [← hu, ← htbs, hsign, ← hcert]
  rfl

theorem signDone_of_signing {w : State} {d sig : List Byte} (h : s.sst.ecc = some .scmd) (hd : s.sst.signing = some d)
    (hsign : s.eccFree.sign (aliasKey (segFinal s.sst.hdr 0)) d = (sig, w)) : signDone s =
      ((((w.onSst fun x => { x with signing := none }).put F.SST_SRES_BUSY 0).wrBytes R.SST_SIGR 12
        (slice sig 0 48)).wrBytes R.SST_SIGS 12 (slice sig 48 48)).eccKick := by
  have hhdr : s.eccFree.sst.hdr = s.sst.hdr := rfl
  rw [signDone, if_neg (not_not_intro h)]
  simp only [hd, hhdr, hsign]
  rfl

/-- Settles O10, command by command. -/
theorem keyCommandsComplete : Obligations.KeyCommandsComplete := by
  unfold Obligations.KeyCommandsComplete
  refine ⟨fun s h => congrArg Host.Outcome.next (if_neg (not_not_intro h)), fun s h => ?_, fun s => handoverDue_clauses,
    fun s u w tbs sig cert h hu htbs hsign hcert => congrArg Host.Outcome.next (aliasCertReady_of_cert h hu htbs hsign hcert),
    fun m v s => ⟨exec_keyLock gated_sec, fun hm hgate => ?_⟩, fun v s u hidle hu => ?_, fun v s hbusy => ?_,
    fun s p salt k h hk => congrArg Host.Outcome.next (deriveDone_of_running h hk), fun s u p k h hu => newKey_of_idle h hu,
    fun v s u hgo hidle => ?_, fun v s h => ?_,
    fun s w d sig h hd hsign => congrArg Host.Outcome.next (signDone_of_signing h hd hsign)⟩
  · obtain ⟨hnew, hold⟩ := aliasDerived_clauses h
    exact ⟨fun h' => congrArg Host.Outcome.next (hnew h'), fun h' => congrArg Host.Outcome.next (hold h')⟩
  · obtain ⟨hlock, hderive, hclear, hsign⟩ := keyCommands_of_other (s := s) (v := v) hm
    rw [exec_keyLock hgate, exec_derive hgate, exec_keyClear hgate, exec_sign hgate, hlock, hderive, hclear, hsign]
    exact ⟨rfl, rfl, rfl, rfl⟩
  · simp only [exec_derive gated_sec, exec_keyClear gated_sec, Host.Outcome.next.injEq]
    exact keyCommands_clauses hidle hu
  · simp only [exec_derive gated_sec, exec_keyClear gated_sec, Host.Outcome.next.injEq]
    exact keyCommands_ignored hbusy
  · simp only [exec_sign gated_sec, Host.Outcome.next.injEq]
    exact sign_clauses hgo hidle
  · rw [exec_sign gated_sec, sign_ignored h]

end Keys

end Sys2Proof.Proofs

/-! PROOFS. Secure start: releases, the drain of held stores, and fuses (R107, R121, R122, R124, R127, R138). -/

namespace Sys2Proof.Proofs

open Sys2Proof Sys2Proof.Machine

section Release

variable {s : State} {v : Word}

theorem exec_coreRelease {m : Master} (hm : gated s m = false) : exec (.coreRelease m v) s = .next (coreRelease m v s) :=
  congrArg Host.Outcome.next (byCore_of_not_gated hm)

/-- A bit that is set stays set when another is. -/
theorem bit_setIn_of_bit (hs : s.regsWf = true) {f : Fld} (hf : fldOk f = true) {n k : Nat} (hk : k < f.hi + 1 - f.lo)
    (h : s.bit f k = true) : (s.setIn f n).bit f k = true := by
  rw [State.bit] at h
  rw [State.bit, State.setIn, get_put_same _ hs hf, Nat.testBit_mod_two_pow, Nat.testBit_or, h]
  simp [hk]

/-- Bits 0 to 2 of a word that names HC0 alone. -/
theorem release_bits (h : v &&& 7 = 1) : v.getLsbD 0 = true ∧ v.getLsbD 1 = false ∧ v.getLsbD 2 = false := by
  have hbit : ∀ i, (v &&& 7).getLsbD i = (1 : Word).getLsbD i := fun i => by rw [h]
  have h0 := hbit 0
  have h1 := hbit 1
  have h2 := hbit 2
  simp only [BitVec.getLsbD_and] at h0 h1 h2
  exact ⟨by simpa using h0, by simpa using h1, by simpa using h2⟩

theorem coreRelease_sec (s : State) (v : Word) :
    coreRelease .sec v s = State.each (fun c x => if v.getLsbD c then x.releaseCore c else x) [0, 1, 2] s := rfl

theorem coreRelease_first (h : v &&& 7 = 1) : coreRelease .sec v s = s.releaseCore 0 := by
  obtain ⟨h0, h1, h2⟩ := release_bits h
  rw [coreRelease_sec]
  simp only [State.each, h0, h1, h2, if_true, Bool.false_eq_true, if_false]

theorem releaseCore_first_clauses (hidle : s.bit F.SST_RUN_RUN 0 = false) :
    (∀ u : State, s.get (F.SST_SEG_LOADED 2) ≠ 0 → s.get (F.SST_SEG_RESULT 2) ≠ 2 → u = s.setIn F.SST_RUN_RUN 0 →
      (segPassed u 2 = false → s.releaseCore 0 = (u.setIn F.SST_GATE_GATED 0).emit (.coreStart .hc0
        (0x10100000 + (u.setIn F.SST_GATE_GATED 0).get (F.SST_VEC_VEC 0)) 0)) ∧
      (segPassed u 2 = true → s.releaseCore 0 = u.emit (.coreStart .hc0 (0x10100000 + u.get (F.SST_VEC_VEC 0)) 0))) ∧
    (s.get (F.SST_SEG_LOADED 2) = 0 ∨ s.get (F.SST_SEG_RESULT 2) = 2 → s.releaseCore 0 = s.put F.SST_RUN_RELERR 1) := by
  have hrun : ¬ s.bit F.SST_RUN_RUN 0 = true := by simp [hidle]
  constructor
  · rintro u hloaded hresult rfl
    have hgood : ¬ (s.get (F.SST_SEG_LOADED (gatedSeg 0)) = 0 ∨ s.get (F.SST_SEG_RESULT (gatedSeg 0)) = 2) :=
      fun h => h.elim hloaded hresult
    have hseg : gatedSeg 0 = 2 := rfl
    have hcore : gatedCore 0 = .hc0 := rfl
    have hbase : tcmBase .hc0 = 0x10100000 := rfl
    constructor
    · intro hpass
      rw [State.releaseCore, if_neg hrun, if_neg hgood]
      simp only [hseg, hcore, hbase, hpass, Bool.false_eq_true, if_false]
    · intro hpass
      rw [State.releaseCore, if_neg hrun, if_neg hgood]
      simp only [hseg, hcore, hbase, hpass, if_true]
  · intro hbad
    rw [State.releaseCore, if_neg hrun]
    exact if_pos hbad

/-- The registers of a release of SV and the WSQ. -/
def svShown (s : State) : State :=
  ((((((s.setIn F.SST_RUN_RUN 3).setIn F.SST_RUN_RUN 4).raiseBit F.WSQ_STAT_RUN).clr F.WSQ_STAT_HALT).put F.WSQ_PC_PC
    (s.get F.SST_WSQVEC_VEC)).put F.WSQ_PC_RSM (s.get F.SST_WSQVEC_VEC))

/-- The state of a release of SV and the WSQ before the two starts are sent. -/
def svReleased (s : State) : State := (svShown s).onWsq fun q => { q with wd := 0, waiting := false }

theorem get_emit (s : State) (o : Out) (f : Fld) : (s.emit o).get f = s.get f := rfl

theorem bit_emit (s : State) (o : Out) (f : Fld) (n : Nat) : (s.emit o).bit f n = s.bit f n := rfl

theorem rd_onWsq (s : State) (f : WsqState → WsqState) (k : Nat) : (s.onWsq f).rd k = s.rd k := rfl

theorem onWsq_out (s : State) (f : WsqState → WsqState) : (s.onWsq f).out = s.out := rfl

theorem svReleased_rd (s : State) (k : Nat) : (svReleased s).rd k = (svShown s).rd k := rd_onWsq _ _ k

theorem svReleased_out (s : State) : (svReleased s).out = s.out := by
  rw [svReleased, onWsq_out]
  simp only [svShown, State.setIn, State.raiseBit, State.clr, State.put_out]

theorem svWsqRelease_of_ready (hok : s.on F.SST_STAT_SVOK = true) (hlock : s.get F.ATB_STAT_STATE = 2)
    (hidle : s.bit F.SST_RUN_RUN 3 = false) : svWsqRelease s = ((svReleased s).emit (.coreStart .sv
      (0x10400000 + (svReleased s).get (F.SST_VEC_VEC 3)) 0)).emit (.wsqStart (s.get F.SST_WSQVEC_VEC)) := by
  rw [svWsqRelease, if_neg (by simp [hok, hlock, hidle])]
  rfl

/-- The steps of a release keep the register file canonical. -/
theorem regsWf_svSteps (hs : s.regsWf = true) :
    (s.setIn F.SST_RUN_RUN 3).regsWf = true ∧ ((s.setIn F.SST_RUN_RUN 3).setIn F.SST_RUN_RUN 4).regsWf = true ∧
    (((s.setIn F.SST_RUN_RUN 3).setIn F.SST_RUN_RUN 4).raiseBit F.WSQ_STAT_RUN).regsWf = true ∧
    ((((s.setIn F.SST_RUN_RUN 3).setIn F.SST_RUN_RUN 4).raiseBit F.WSQ_STAT_RUN).clr F.WSQ_STAT_HALT).regsWf = true ∧
    (((((s.setIn F.SST_RUN_RUN 3).setIn F.SST_RUN_RUN 4).raiseBit F.WSQ_STAT_RUN).clr F.WSQ_STAT_HALT).put F.WSQ_PC_PC
      (s.get F.SST_WSQVEC_VEC)).regsWf = true := by
  have h1 : (s.setIn F.SST_RUN_RUN 3).regsWf = true := regsWf_put _ _ hs
  have h2 : ((s.setIn F.SST_RUN_RUN 3).setIn F.SST_RUN_RUN 4).regsWf = true := regsWf_put _ _ h1
  have h3 : (((s.setIn F.SST_RUN_RUN 3).setIn F.SST_RUN_RUN 4).raiseBit F.WSQ_STAT_RUN).regsWf = true := regsWf_put _ _ h2
  have h4 : ((((s.setIn F.SST_RUN_RUN 3).setIn F.SST_RUN_RUN 4).raiseBit F.WSQ_STAT_RUN).clr F.WSQ_STAT_HALT).regsWf = true :=
    regsWf_put _ _ h3
  exact ⟨h1, h2, h3, h4, regsWf_put _ _ h4⟩

theorem rd_svReleased_ne (hs : s.regsWf = true) {k : Nat} (hrun : k ≠ R.SST_RUN) (hstat : k ≠ R.WSQ_STAT) (hpc : k ≠ R.WSQ_PC) :
    (svReleased s).rd k = s.rd k := by
  obtain ⟨h1, h2, h3, h4, h5⟩ := regsWf_svSteps hs
  exact (svReleased_rd s k).trans <| (rd_put_ne h5 hpc _).trans ((rd_put_ne h4 hpc _).trans ((rd_put_ne h3 hstat _).trans ((rd_put_ne h2 hstat _).trans
    ((rd_put_ne h1 hrun _).trans (rd_put_ne hs hrun _)))))

/-- SV and the WSQ show as released, and the WSQ stands at its vector. -/
theorem svReleased_shows (hs : s.regsWf = true) : (svReleased s).bit F.SST_RUN_RUN 3 = true ∧ (svReleased s).bit F.SST_RUN_RUN 4 = true ∧
    (svReleased s).get F.WSQ_PC_PC = s.get F.SST_WSQVEC_VEC := by
  obtain ⟨h1, h2, h3, h4, h5⟩ := regsWf_svSteps hs
  have hrun : (svReleased s).rd R.SST_RUN = ((s.setIn F.SST_RUN_RUN 3).setIn F.SST_RUN_RUN 4).rd R.SST_RUN :=
    (svReleased_rd s _).trans <| (rd_put_ne h5 (by decide) _).trans ((rd_put_ne h4 (by decide) _).trans ((rd_put_ne h3 (by decide) _).trans
      (rd_put_ne h2 (by decide) _)))
  have hthree := bit_setIn_same hs (f := F.SST_RUN_RUN) rfl (show 3 < 5 by decide)
  refine ⟨?_, ?_, ?_⟩
  · rw [State.bit, get_of_rd (f := F.SST_RUN_RUN) hrun]
    exact bit_setIn_of_bit (s := s.setIn F.SST_RUN_RUN 3) h1 rfl (by decide) hthree
  · rw [State.bit, get_of_rd (f := F.SST_RUN_RUN) hrun]
    exact bit_setIn_same (s := s.setIn F.SST_RUN_RUN 3) h1 rfl (by decide)
  · have hpc := get_put_apart (f := F.WSQ_PC_RSM) (g := F.WSQ_PC_PC) (s.get F.SST_WSQVEC_VEC) h5 rfl rfl rfl
    exact (get_of_rd (f := F.WSQ_PC_PC) (svReleased_rd s _)).trans <| hpc.trans ((get_put_same _ h4 rfl).trans (Nat.mod_eq_of_lt (bitsOf_lt _ _ _)))

theorem hsqDrainEnd_of_passed {c : BitVec 2} {facts : List BusFacts} (hc : c.toNat < 3) (hpass : segPassed s (gatedSeg c.toNat) = true)
    (hgate : s.bit F.SST_GATE_GATED c.toNat = true) : hsqDrainEnd c facts s = ((State.drainAll (gatedCore c.toNat) (hsq s c.toNat) facts
      (s.setHsq c.toNat [])).clrIn F.SST_GATE_GATED c.toNat).put (F.SST_HSQ_STALL c.toNat) 0 := by
  have hgo : ¬ (c.toNat ≥ 3 ∨ ¬ s.bit F.SST_GATE_GATED c.toNat = true ∨ ¬ segPassed s (gatedSeg c.toNat) = true) := by
    rw [hpass, hgate]
    simp
    omega
  rw [hsqDrainEnd]
  exact if_neg hgo

/-! ### Fuses (R121, R138) -/

theorem fuseProgramDone_clauses {held : BitVec 384} {op : FuseOp} {p : List Byte} {ok : Bool} {u w : State} (hop : s.sst.fuseOp = some op)
    (hfinish : s.fuseFinish op held.toNat = (p, ok, u))
    (hw : w = ((u.event 0x0107 0xFF p).put F.SST_FRES_BUSY 0).put F.SST_FRES_RESULT (if ok then 0 else 2)) :
    u.sst.fuses = fuseSet op held.toNat s.sst.fuses ∧ ok = fuseGood op (fuseSet op held.toNat s.sst.fuses) ∧
    (w.sst.fuseNext = [] → fuseProgramDone held s = w.onSst fun x => { x with fuseOp := none }) ∧
    (∀ (o : FuseOp) (l : List FuseOp), w.sst.fuseNext = o :: l →
      fuseProgramDone held s = (w.onSst fun x => { x with fuseNext := l }).fuseStart o) := by
  have hclr : ((u.event 0x0107 0xFF p).clr F.SST_FRES_BUSY).put F.SST_FRES_RESULT (if ok then 0 else 2) = w := hw.symm
  refine ⟨?_, ?_, fun h => ?_, fun o l h => ?_⟩
  · have hu : (s.fuseFinish op held.toNat).2.2 = u := by rw [hfinish]
    rw [← hu]
    rfl
  · have hgood : (s.fuseFinish op held.toNat).2.1 = ok := by rw [hfinish]
    rw [← hgood]
    rfl
  · simp only [fuseProgramDone, hop, hfinish, hclr, h]
  · simp only [fuseProgramDone, hop, hfinish, hclr, h]

/-- A fuse command of SEC while none runs: it starts, or it is DENIED. -/
theorem fuseCommand_clauses {o : Nat} {bad : Bool} {op : FuseOp} (hidle : s.on F.SST_FRES_BUSY = false) (ho : bitsOf v 3 0 = o) :
    (s.sst.fuses.production = false → bad = false → s.fuseCommand .sec v o bad op = s.fuseStart op) ∧
    (s.sst.fuses.production = true ∨ bad = true → s.fuseCommand .sec v o bad op = s.put F.SST_FRES_RESULT 1) := by
  have hgo : ¬ (Master.sec ≠ .sec ∨ bitsOf v 3 0 ≠ o ∨ s.on F.SST_FRES_BUSY = true) := by simp [hidle, ho]
  constructor
  · intro hprod hbad
    rw [State.fuseCommand, if_neg hgo, if_neg (by simp [hprod, hbad])]
  · intro h
    rw [State.fuseCommand, if_neg hgo, if_pos (by simpa using h)]

theorem exec_programKeyhash : exec (.programKeyhash .sec v) s = .next (programKeyhash .sec v s) :=
  congrArg Host.Outcome.next (byCore_of_not_gated gated_sec)

theorem exec_setProduction : exec (.setProduction .sec v) s = .next (setProduction .sec v s) :=
  congrArg Host.Outcome.next (byCore_of_not_gated gated_sec)

theorem exec_programTargetRpm : exec (.programTargetRpm .sec v) s = .next (programTargetRpm .sec v s) :=
  congrArg Host.Outcome.next (byCore_of_not_gated gated_sec)

theorem fuseCommands_manufacture (hidle : s.on F.SST_FRES_BUSY = false) (hprod : s.sst.fuses.production = false) :
    (bitsOf v 3 0 = 1 →
      (keyBlank s.sst.fuses (bitsOf v 5 4) = true → programKeyhash .sec v s =
        s.fuseStart { field := 3, slot := bitsOf v 5 4, hash := rdBytes s R.SST_DIG 12 }) ∧
      (keyBlank s.sst.fuses (bitsOf v 5 4) = false → programKeyhash .sec v s = s.put F.SST_FRES_RESULT 1)) ∧
    (bitsOf v 3 0 = 2 →
      (((List.range 4).all fun k => keyBlank s.sst.fuses k) = false → setProduction .sec v s = s.fuseStart { field := 4 }) ∧
      (((List.range 4).all fun k => keyBlank s.sst.fuses k) = true → setProduction .sec v s = s.put F.SST_FRES_RESULT 1)) ∧
    (bitsOf v 3 0 = 3 →
      (s.sst.fuses.targetRpm = 0 → 5400 ≤ bitsOf v 29 16 → bitsOf v 29 16 ≤ 10000 →
        programTargetRpm .sec v s = s.fuseStart { field := 5, val := bitsOf v 29 16 }) ∧
      (s.sst.fuses.targetRpm ≠ 0 ∨ bitsOf v 29 16 < 5400 ∨ 10000 < bitsOf v 29 16 →
        programTargetRpm .sec v s = s.put F.SST_FRES_RESULT 1)) := by
  refine ⟨fun h => ⟨fun hblank => ?_, fun hblank => ?_⟩, fun h => ⟨fun hall => ?_, fun hall => ?_⟩,
    fun h => ⟨fun hrpm hlow hhigh => ?_, fun hbad => ?_⟩⟩
  · exact (fuseCommand_clauses hidle h).1 hprod (by rw [hblank]; rfl)
  · exact (fuseCommand_clauses hidle h).2 (.inr (by rw [hblank]; rfl))
  · exact (fuseCommand_clauses hidle h).1 hprod hall
  · exact (fuseCommand_clauses hidle h).2 (.inr hall)
  · exact (fuseCommand_clauses hidle h).1 hprod (by simp [hrpm]; omega)
  · exact (fuseCommand_clauses hidle h).2 (.inr (by simpa [or_assoc] using hbad))

theorem fuseCommands_production (hidle : s.on F.SST_FRES_BUSY = false) (hprod : s.sst.fuses.production = true) :
    (bitsOf v 3 0 = 1 → programKeyhash .sec v s = s.put F.SST_FRES_RESULT 1) ∧
    (bitsOf v 3 0 = 2 → setProduction .sec v s = s.put F.SST_FRES_RESULT 1) ∧
    (bitsOf v 3 0 = 3 → programTargetRpm .sec v s = s.put F.SST_FRES_RESULT 1) :=
  ⟨fun h => (fuseCommand_clauses hidle h).2 (.inl hprod), fun h => (fuseCommand_clauses hidle h).2 (.inl hprod),
    fun h => (fuseCommand_clauses hidle h).2 (.inl hprod)⟩

/-- Settles O11, command by command. -/
theorem releaseAndFuseCommandsComplete : Obligations.ReleaseAndFuseCommandsComplete := by
  unfold Obligations.ReleaseAndFuseCommandsComplete
  refine ⟨fun v s u h hidle => ?_, fun v s => exec_coreRelease gated_sec, fun m v s hgate hm => ?_,
    fun s hok hlock hidle hs => ?_, fun c facts s hc hpass hgate => congrArg Host.Outcome.next (hsqDrainEnd_of_passed hc hpass hgate),
    fun held op p ok s u w hop hfinish hw => ?_, fun v s hidle hprod => ?_, fun v s hidle hprod => ?_⟩
  · obtain ⟨hgood, hbad⟩ := releaseCore_first_clauses hidle
    simp only [exec_coreRelease gated_sec, coreRelease_first h, Host.Outcome.next.injEq]
    exact ⟨hgood u, hbad⟩
  · exact (exec_coreRelease hgate).trans (congrArg Host.Outcome.next (if_pos hm))
  · obtain ⟨hsv, hwsq, hpc⟩ := svReleased_shows hs
    have hvec : (svReleased s).get (F.SST_VEC_VEC 3) = s.get (F.SST_VEC_VEC 3) :=
      get_of_rd (f := F.SST_VEC_VEC 3) (rd_svReleased_ne hs (by decide) (by decide) (by decide))
    refine ⟨_, congrArg Host.Outcome.next (svWsqRelease_of_ready hok hlock hidle), ?_, ?_, ?_, ?_⟩
    · rw [State.emit_out, State.emit_out, hvec, svReleased_out, List.append_assoc, List.singleton_append]
    · rw [bit_emit, bit_emit, hsv]
    · rw [bit_emit, bit_emit, hwsq]
    · rw [get_emit, get_emit, hpc]
  · obtain ⟨hfuses, hgood, hlast, hnext⟩ := fuseProgramDone_clauses hop hfinish hw
    exact ⟨hfuses, hgood, fun h => congrArg Host.Outcome.next (hlast h), fun o l h => congrArg Host.Outcome.next (hnext o l h)⟩
  · simp only [exec_programKeyhash, exec_setProduction, exec_programTargetRpm, Host.Outcome.next.injEq]
    exact fuseCommands_manufacture hidle hprod
  · simp only [exec_programKeyhash, exec_setProduction, exec_programTargetRpm, Host.Outcome.next.injEq]
    exact fuseCommands_production hidle hprod

end Release

end Sys2Proof.Proofs

/-! PROOFS. Events enter the Moraine staging FIFO, or are counted as lost (R146, R150, R152, R154, R155, R162). -/

namespace Sys2Proof.Proofs

open Sys2Proof Sys2Proof.Machine

section Staging

variable {s u : State} {e : Event} {l : List (BitVec 8)}

theorem takeCaught_of_room (hroom : fifoRoom s.mor e.src = true) :
    (e.code ≠ 0x0306 → s.takeCaught e = (s.pushFifo (s.stamp e)).sealAfter e) ∧
    (e.code = 0x0306 → s.takeCaught e = ((s.pushFifo (s.stamp e)).sealAfter e).logAck e) := by
  have htake : s.takeEvent e = (s.pushFifo (s.stamp e)).sealAfter e := if_pos hroom
  constructor
  · intro hcode
    rw [State.takeCaught, if_pos hroom, if_neg hcode, htake]
  · intro hcode
    rw [State.takeCaught, if_pos hroom, if_pos hcode, htake]

theorem takeCaught_of_full (hfull : fifoRoom s.mor e.src = false) : s.takeCaught e = (s.loseEvent e.code).tellLost e := by
  have htake : s.takeEvent e = s.loseEvent e.code := if_neg (by simp [hfull])
  rw [State.takeCaught, if_neg (by simp [hfull]), htake]

/-- A cycle in which some register holds an event loses those presented to registers that stay full, and takes the event that has waited
longest. -/
theorem captureCycle_of_front {new kept rest : List Event}
    (hfront : s.mor.caught ++ new.filter (fun x => !caughtFrom s.mor x.src) = e :: rest)
    (hkept : kept = new.filter (fun x => caughtFrom s.mor x.src))
    (hu : u = State.each (fun (x : Event) w => (w.loseEvent x.code).tellLost x) (kept.filter fun x => x.src != e.src)
      ({ s with mor := { unraise new s.mor with caught := rest ++ kept.filter fun x => x.src == e.src } })) :
    s.captureCycle new = u.takeCaught e := by
  simp only [State.captureCycle, hfront]
  rw [hu, hkept]

theorem captureCycle_of_none (hcaught : s.mor.caught = []) : s.captureCycle [] = s := by
  simp only [State.captureCycle, hcaught, List.filter_nil, List.append_nil]

theorem filterMap_range_single {α : Type} (x : α) {n : Nat} :
    ∀ {N : Nat}, n < N → (List.range N).filterMap (fun k => if n = k then some x else none) = [x] := by
  have habove : ∀ N, N ≤ n → (List.range N).filterMap (fun k => if n = k then some x else none) = [] := by
    intro N hN
    rw [List.filterMap_eq_nil_iff]
    intro k hk
    have := List.mem_range.mp hk
    exact if_neg (by omega)
  intro N
  induction N with
  | zero => intro h; omega
  | succ N ih =>
    intro h
    rw [List.range_succ, List.filterMap_append]
    by_cases hlt : n < N
    · rw [ih hlt]
      simp [show n ≠ N by omega]
    · rw [habove N (by omega)]
      simp [show n = N by omega]

/-- One source that presents the only event raised. -/
theorem offers_single {m : MorState} {n : BitVec 8} (hraised : m.raised = [e]) (hsrc : e.src = n.toNat) : offers m [n] = [e] := by
  have hoffer : (fun k => if ([n].any fun (p : BitVec 8) => p.toNat == k) then offerOf m k else none)
      = fun k => if n.toNat = k then some e else none := by
    funext k
    by_cases hk : n.toNat = k
    · simp [hk, offerOf, hraised, hsrc]
    · simp [hk]
  rw [offers, hoffer]
  exact filterMap_range_single e n.isLt

theorem sealAfter_of_ne (h : e.code ≠ 0x0201) : s.sealAfter e = s := if_neg h

/-- An event of an unsigned class enters the FIFO behind what waits there. -/
theorem pushFifo_unsigned {st : Staged} (h : morSigned st.ev.code = false) :
    (s.pushFifo st).mor = { s.mor with fifo := s.mor.fifo ++ [({ ev := st } : FifoEntry)] } := by
  simp only [State.pushFifo, h, Bool.false_and, Bool.false_eq_true, if_false]
  rfl

theorem eventCapture_single {n : BitVec 8} (hraised : s.mor.raised = [e]) (hcaught : s.mor.caught = []) (hsrc : e.src = n.toNat)
    (hmode : e.code ≠ 0x0201) (hlog : e.code ≠ 0x0306) (hsigned : morSigned e.code = false)
    (hroom : fifoRoom s.mor e.src = true) :
    (eventCapture [n] s).mor = { s.mor with
      raised := [], caught := []
      fifo := s.mor.fifo ++ [{ ev := { ev := e, ts := s.atb.count, atbst := s.get F.ATB_STAT_STATE, boot := s.get F.MOR_BOOT_BOOT } }] } := by
  have hfree : caughtFrom s.mor e.src = false := by simp [caughtFrom, hcaught]
  have hcycle : eventCapture [n] s =
      ({ s with mor := { unraise [e] s.mor with caught := [] } } : State).takeCaught e := by
    rw [eventCapture, offers_single hraised hsrc]
    exact captureCycle_of_front (kept := []) (rest := []) (by simp [hcaught, hfree]) (by simp [hfree]) rfl
  have hraise : unraise [e] s.mor = { s.mor with raised := [] } := by simp [unraise, hraised]
  rw [hcycle, hraise, (takeCaught_of_room (by exact hroom)).1 hlog, sealAfter_of_ne hmode,
    pushFifo_unsigned (by exact hsigned)]
  rfl

/-! ### Submissions -/

theorem exec_fwEventSubmit {m : Master} {v : Word} (hm : gated s m = false) : exec (.fwEventSubmit m v l) s = .next (fwEventSubmit m v l s) :=
  congrArg Host.Outcome.next (byCore_of_not_gated hm)

/-- The event that a submission word stands for (Table 6.7). -/
def submitted (m : Master) (v : Word) (s : State) : Event :=
  { code := bitsOf v 15 0, party := if bitsOf v 29 25 = 31 then 0xFF else bitsOf v 29 25, src := 0x10 + m.idx, fwsrc := true
    payload := slice ((List.range 79).flatMap fun k => leBytes 4 (s.rd (R.MOR_SPAY m k)).toNat) 0 (bitsOf v 24 16) }

theorem fwEventSubmit_accepted {m : Master} {v : Word} (hcode : fwCode (bitsOf v 15 0) = true) (hlen : bitsOf v 24 16 ≤ 316)
    (hparty : bitsOf v 29 25 ≤ 15 ∨ bitsOf v 29 25 = 31) : fwEventSubmit m v l s = (s.put (F.MOR_SRES_RESULT m) 0).captureCycle
      ((offers s.mor l).filter (fun (x : Event) => x.src < (submitted m v s).src) ++ submitted m v s ::
        (offers s.mor l).filter (fun (x : Event) => (submitted m v s).src < x.src)) := by
  have hgood : ¬ (!fwCode (bitsOf v 15 0) || decide (bitsOf v 24 16 > 316) ||
      (decide (bitsOf v 29 25 > 15) && bitsOf v 29 25 != 31)) = true := by
    simp only [hcode, Bool.not_true, Bool.false_or, Bool.or_eq_true, Bool.and_eq_true, decide_eq_true_eq, bne_iff_ne]
    omega
  exact if_neg hgood

theorem fwEventSubmit_refused {m : Master} {v : Word} (h : fwCode (bitsOf v 15 0) = false ∨ 316 < bitsOf v 24 16 ∨
    (15 < bitsOf v 29 25 ∧ bitsOf v 29 25 ≠ 31)) : fwEventSubmit m v l s = s.put (F.MOR_SRES_RESULT m) 2 := by
  refine if_pos ?_
  simp only [Bool.or_eq_true, Bool.not_eq_true', Bool.and_eq_true, decide_eq_true_eq, bne_iff_ne]
  exact or_assoc.2 h

/-! ### Seals and the end of the retract -/

theorem refill_of_nothing {n : Nat} (hown : s.mor.own = []) (hloss : lossDue s.mor = false) : State.refill n s = s := by
  cases n with
  | zero => rfl
  | succ n =>
    rw [State.refill, if_neg (show ¬ lossDue s.mor = true by simp [hloss]), hown]
    exact ite_self s

/-- A seal of an empty batch is dropped (R150). -/
theorem sealBatch_of_empty {t : Nat} (hown : s.mor.own = []) (hroom : s.mor.fifo.length < 64) (hloss : lossDue s.mor = false)
    (hbatch : batchOpen s.mor = false) : s.sealBatch t = s := by
  have hsame : ({ s with mor := { s.mor with own := [] } } : State) = s := by rw [← hown]
  have hdrop : ∀ e, State.refill 64 { s with mor := { s.mor with own := [(e, some t)] } } =
      State.refill 63 { s with mor := { s.mor with own := [] } } := by
    intro e
    rw [State.refill, if_neg (by exact Nat.not_le.mpr hroom), if_neg (by exact (Bool.eq_false_iff.mp hloss))]
    exact congrArg (State.refill 63) (if_pos (by rw [Option.isSome_some, Bool.true_and]; exact congrArg not hbatch))
  rw [State.sealBatch, State.ownEvent, hown, List.nil_append, hdrop, hsame]
  exact refill_of_nothing hown hloss

theorem retreatRetractDone_counts {late : Bool} (hmode : s.mode = mRETREAT) (hfirst : s.mor.retreatDone = false)
    (hdone : s.get F.FLNK_PD_ACTST = 0 ∨ (late = true ∧ s.on F.FLNK_STAT_UP = false)) :
    retreatRetractDone late s = (({ s with mor := { s.mor with retreatDone := true } } : State).ownEvent 0x0203
      (leBytes 1 s.mor.retreatCause ++ zeros 3 ++ leBytes 4 s.mor.retreatProg ++
        leBytes 4 (s.mor.lost - s.mor.retreatLost).toNat) |>.sealBatch 5) := by
  refine if_pos ⟨hmode, by simp [hfirst], ?_⟩
  simpa [retractCounts] using hdone

end Staging

/-- Settles O12: a cycle of the recorder goes by the event that has waited longest and by the room of its source. -/
theorem eventStagingCommandsComplete : Obligations.EventStagingCommandsComplete := by
  unfold Obligations.EventStagingCommandsComplete
  refine ⟨fun l s u new kept e rest hnew hfront hkept hu => ?_, fun n e s hraised hcaught hsrc hmode hlog hsigned hroom => ?_,
    fun l s hcaught hnone => ?_, fun m v l s hm => ⟨fun hcode hlen hparty => ?_, fun hbad => ?_⟩,
    fun s => ⟨rfl, fun hown hroom hloss hbatch => congrArg Host.Outcome.next (sealBatch_of_empty hown hroom hloss hbatch)⟩,
    fun late s hmode hfirst hdone => congrArg Host.Outcome.next (retreatRetractDone_counts hmode hfirst hdone)⟩
  · have hcycle : exec (.eventCapture l) s = .next (u.takeCaught e) :=
      congrArg Host.Outcome.next ((congrArg s.captureCycle hnew.symm).trans (captureCycle_of_front hfront hkept hu))
    simp only [hcycle, Host.Outcome.next.injEq]
    exact ⟨fun hroom => (takeCaught_of_room hroom).1, fun hroom => (takeCaught_of_room hroom).2, takeCaught_of_full⟩
  · have hmor := eventCapture_single hraised hcaught hsrc hmode hlog hsigned hroom
    exact ⟨eventCapture [n] s, rfl, by rw [hmor], by rw [hmor], by rw [hmor]⟩
  · exact congrArg Host.Outcome.next ((congrArg s.captureCycle hnone).trans (captureCycle_of_none hcaught))
  · exact ⟨submitted m v s, rfl, rfl, rfl, rfl, rfl, (exec_fwEventSubmit hm).trans
      (congrArg Host.Outcome.next (fwEventSubmit_accepted hcode hlen hparty))⟩
  · exact (exec_fwEventSubmit hm).trans (congrArg Host.Outcome.next (fwEventSubmit_refused hbad))

end Sys2Proof.Proofs

/-! PROOFS. Moraine records are formed, programmed, signed and read back (R141, R147 to R149, R157 to R163). -/

namespace Sys2Proof.Proofs

open Sys2Proof Sys2Proof.Machine

section Records

variable {s u w : State}

/-! ### The array under the recorder's bookkeeping -/

theorem eccKick_store : s.eccKick.store = s.store := by
  unfold State.eccKick
  split
  · rfl
  · split <;> rfl

theorem formPrefix_store (n : Nat) : (s.formPrefix n).store = s.store := eccKick_store

theorem pushFifo_store (st : Staged) : (s.pushFifo st).store = s.store := by
  unfold State.pushFifo
  exact ite_keeps State.store (formPrefix_store _) rfl

theorem refill_store (n : Nat) : ∀ s : State, (State.refill n s).store = s.store := by
  induction n with
  | zero => exact fun _ => rfl
  | succ n ih =>
    intro s
    unfold State.refill
    refine ite_keeps State.store rfl (ite_keeps State.store ?_ ?_)
    · rw [ih, pushFifo_store]
    · split
      · rfl
      · rw [ih]
        exact ite_keeps State.store rfl (pushFifo_store _)

theorem phase1Good_store (f : Formed) (rest : List FifoEntry) :
    (phase1Good f rest s).store = (s.stoProgram (morSlotAddr s.mor.wslot) (slotImage f)).store := refill_store _ _

/-! ### Phase 1 -/

theorem phase1Start_clauses {f : Formed} (hready : phase1Ready s = true) (hu : u = formHead s)
    (hw : w = if u.mor.wslot % 128 = 0 then u.eraseAhead else u) (hf : headFormed w.mor = some f) :
    phase1Start s = ({ w with mor := { w.mor with phase1 := true } } : State).recorderProgram (morSlotAddr w.mor.wslot) 0
      (slotImage f) := by
  rw [phase1Start, if_pos hready]
  simp only [← hu, ← hw, hf]

theorem phase1Done_running {f : Formed} {st : Staged} {rest : List FifoEntry} {ok : Bool} {back : List Byte} (hrun : s.mor.phase1 = true)
    (hhead : s.mor.fifo = { ev := st, formed := some f } :: rest) :
    phase1Done ok back s = ((if ok then phase1Good f rest s else phase1Bad f back s).morKick).rdoneCheck := by
  rw [phase1Done, if_pos hrun]
  simp only [hhead]

/-! ### Signatures and phase 2 -/

theorem recordSignatureReady_clauses {q : Nat} {g : Signing} {sig : List Byte} (hecc : s.sst.ecc = some (.record q)) (hu : u = s.eccFree)
    (hfind : (u.mor.signing.find? fun g => g.seq == q && g.sig.isNone) = some g) (hsig : u.sign devidKey g.digest = (sig, w)) :
    recordSignatureReady s = (({ w with mor := { w.mor with
      signing := w.mor.signing.map fun h => if h.seq = q then { h with sig := some sig } else h } } : State).morKick).eccKick := by
  simp only [recordSignatureReady, hecc, ← hu, hfind, hsig]

/-- The state after phase 2 has ended in the array and in the bank, with its signature off the list. -/
def signatureLaid (g : Signing) (n : Nat) (bytes : List Byte) (ok : Bool) (s : State) : State :=
  let u := (s.stoProgram (morSlotAddr n + 0x190) bytes).recorderEnd (morSlotAddr n) ok
  { u with mor := { u.mor with signing := u.mor.signing.erase g, phase2 := none } }

variable {q n : Nat} {g : Signing} {sig back : List Byte}

theorem phase2Done_good (hrun : s.mor.phase2 = some q) (hfind : (s.mor.signing.find? fun g => g.seq == q) = some g)
    (hslot : g.slot = some n) (hsig : g.sig = some sig) (hw : w = signatureLaid g n (phase2Image sig) true s) :
    (w.mode ≠ mRETREAT ∨ w.mor.retreatSeal ≠ some g.seq → phase2Done true back s = w.rdoneCheck.morKick) ∧
    (w.mode = mRETREAT → w.mor.retreatSeal = some g.seq →
      phase2Done true back s = ({ w with mor := { w.mor with sealDone := true } } : State).rdoneCheck.morKick) := by
  have hdone : phase2Done true back s = (if w.mode = mRETREAT ∧ w.mor.retreatSeal = some g.seq then
      ({ w with mor := { w.mor with sealDone := true } } : State) else w).rdoneCheck.morKick := by
    rw [hw, phase2Done, hrun, Option.bind_some, hfind]
    simp only [hslot, hsig, Option.getD_some, if_pos]
    rfl
  rw [hdone]
  constructor
  · intro hother
    rw [if_neg (fun ⟨hmode, hseal⟩ => hother.elim (· hmode) (· hseal))]
  · intro hmode hseal
    rw [if_pos ⟨hmode, hseal⟩]

theorem phase2Done_bad (hrun : s.mor.phase2 = some q) (hfind : (s.mor.signing.find? fun g => g.seq == q) = some g)
    (hslot : g.slot = some n) (hsig : g.sig = some sig)
    (hw : w = signatureLaid g n (sigtornImage (s.stoBytes (morSlotAddr n) 0x190) (phase2Image sig) back) false s) :
    phase2Done false back s = ((programFailure n 2 (w.mor.attempts + 1) g.seq w).ownEvent 0x0903
      (leBytes 8 g.seq ++ slice g.digest 0 48)).rdoneCheck.morKick := by
  rw [hw, phase2Done, hrun, Option.bind_some, hfind]
  simp only [hslot, hsig, Option.getD_some, Bool.false_eq_true, if_false]
  rfl

/-! ### Erases -/

theorem driftEraseDone_erased {m : Nat} (herasing : s.mor.erasing = some m)
    (hu : u = (s.endErase (bankOf (morSectorBase m)) true).stoErase (morSectorBase m) 0x10000) :
    driftEraseDone none s = ({ u with mor := { u.mor with erasing := none, eraseRetry := false } } : State).rdoneCheck.morKick := by
  simp only [driftEraseDone, herasing, hu, Option.isNone_none]

theorem driftEraseDone_failed {m : Nat} {l : List (Nat × Byte)} (herasing : s.mor.erasing = some m)
    (hu : u = ((s.endErase (bankOf (morSectorBase m)) false).stoErase (morSectorBase m) 0x10000).layCells
      (cellsIn (morSectorBase m) 0x10000 l)) :
    driftEraseDone (some l) s = (driftEraseFailed m
      ((u.inc F.STO_CNT_EFAIL_CNT).stoCapture 10 .recorder (morSectorBase m))).rdoneCheck.morKick := by
  simp only [driftEraseDone, herasing, hu, Option.isNone_some]

/-- An erase leaves no byte of its range listed. -/
theorem not_mem_stoErase {a b k : Nat} (hlow : b ≤ a) (hhigh : a < b + k) {c : Nat × Byte} (hc : c ∈ (s.stoErase b k).store) : c.1 ≠ a := by
  have hkept : (!(decide (b ≤ c.1) && decide (c.1 < b + k))) = true := (List.mem_filter.mp hc).2
  rintro rfl
  simp [hlow, hhigh] at hkept

/-! ### The tail search -/

theorem tailSearchDone_empty (hready : s.on F.MOR_STAT_READY = false) (htail : findTail s (slotsUsed s) = none)
    (hu : u = (searchFound (slotsUsed s) s).put F.MOR_STAT_READY 1) :
    tailSearchDone s = (u.formPrefix (lastSigned u.mor.fifo)).morKick := by
  rw [tailSearchDone, if_neg (by simp [hready])]
  simp only [htail, hu]
  rfl

theorem tailSearchDone_found {t : Nat} {torn older : List Nat} (hready : s.on F.MOR_STAT_READY = false)
    (htail : findTail s (slotsUsed s) = some t) (hu : u = (searchFound (slotsUsed s) s).put F.MOR_STAT_READY 1)
    (hw : w = u.formPrefix (lastSigned u.mor.fifo))
    (htorn : torn = (slotsBetween 8192 (morNextSlot t) w.mor.wslot).filter (fun n => slotClass (w.slotBytes n) = SlotClass.torn))
    (holder : older = ((slotsUsed s).filter fun n => isRecord (slotClass (w.slotBytes n))).mergeSort (fun a b =>
      slotSeqOf (w.slotBytes b) ≤ slotSeqOf (w.slotBytes a))) :
    tailSearchDone s = (State.each sigtornReport (sigtornSince (State.each (fun n x => tornRecord n 1 x) torn
      (w.put F.MOR_CNT_TORN_CNT (Nat.min torn.length 255))) older).reverse (State.each (fun n x => tornRecord n 1 x) torn
      (w.put F.MOR_CNT_TORN_CNT (Nat.min torn.length 255)))).searchErase.morKick := by
  have hput : (searchFound (slotsUsed s) s).raiseBit F.MOR_STAT_READY = u := hu.symm
  rw [tailSearchDone, if_neg (by simp [hready])]
  simp only [htail, hput, ← hw, ← htorn, ← holder]

/-! ### The read ports -/

theorem exec_morReadGo {m : Master} (hm : gated s m = false) : exec (.morReadGo m) s = .next (morReadGo m s) :=
  congrArg Host.Outcome.next (byCore_of_not_gated hm)

theorem morReadGo_clauses {m : Master} :
    (s.on (F.MOR_RRES_BUSY m) = false → morReadGo m s = s.put (F.MOR_RRES_BUSY m) 1) ∧
    (s.on (F.MOR_RRES_BUSY m) = true → morReadGo m s = s) :=
  ⟨fun h => if_neg (by simp [h]), fun h => if_pos h⟩

theorem morReadDone_clauses {m : Master} (hbusy : s.on (F.MOR_RRES_BUSY m) = true) (hload : s.sst.loading = false)
    (hu : u = s.put (F.MOR_RRES_BUSY m) 0) :
    (∀ (n : Nat) (w : State), slotHolding u (s.readSeq m) = some n → w = fillReadBuf m (u.slotBytes n) u →
      morReadDone m s = (w.put (F.MOR_RRES_SLOT m) n).put (F.MOR_RRES_RESULT m) (if sigPending w.mor (s.readSeq m) then 3 else 0)) ∧
    (slotHolding u (s.readSeq m) = none →
      morReadDone m s = u.put (F.MOR_RRES_RESULT m) (if notYet u.mor (s.readSeq m) then 2 else 1)) := by
  have hclr : s.clr (F.MOR_RRES_BUSY m) = u := hu.symm
  have hfree : ¬ (!s.on (F.MOR_RRES_BUSY m) || morPortHeld s) = true := by simp [hbusy, morPortHeld, hload]
  rw [morReadDone, if_neg hfree]
  constructor
  · intro n w hslot hw
    simp only [hclr, hslot, ← hw]
  · intro hslot
    simp only [hclr, hslot]

end Records

/-- Settles O13: each event of the recorder by the state of its record, its sector or its port. -/
theorem recordProgramCommandsComplete : Obligations.RecordProgramCommandsComplete := by
  unfold Obligations.RecordProgramCommandsComplete
  refine ⟨fun s u w f hready hu hw hf => congrArg Host.Outcome.next (phase1Start_clauses hready hu hw hf),
    fun back f st rest s hrun hhead => ⟨congrArg Host.Outcome.next (phase1Done_running hrun hhead),
      congrArg Host.Outcome.next (phase1Done_running hrun hhead), phase1Good_store f rest⟩,
    fun q g s u w sig hecc hu hfind hsig => congrArg Host.Outcome.next (recordSignatureReady_clauses hecc hu hfind hsig),
    fun back q n g sig s u w hrun hfind hslot hsig => ⟨fun hu hw => ?_, fun hu hw => ?_⟩,
    fun m s u herasing => ⟨fun hu => ⟨congrArg Host.Outcome.next (driftEraseDone_erased herasing hu), fun a hlow hhigh c hc => ?_⟩,
      fun l hu => congrArg Host.Outcome.next (driftEraseDone_failed herasing hu)⟩,
    fun s u hready htail hu => congrArg Host.Outcome.next (tailSearchDone_empty hready htail hu),
    fun t s u w torn older hready htail hu hw htorn holder => ⟨_, rfl,
      congrArg Host.Outcome.next (tailSearchDone_found hready htail hu hw htorn holder)⟩,
    fun m s hm => ?_, fun m s u hbusy hload hu => ?_⟩
  · obtain ⟨hgood, hseal⟩ := phase2Done_good (back := back) hrun hfind hslot hsig (hw.trans (by rw [hu]; rfl))
    exact ⟨fun h => congrArg Host.Outcome.next (hgood h), fun hmode h => congrArg Host.Outcome.next (hseal hmode h)⟩
  · exact congrArg Host.Outcome.next (phase2Done_bad hrun hfind hslot hsig (hw.trans (by rw [hu]; rfl)))
  · rw [hu] at hc
    exact not_mem_stoErase hlow hhigh hc
  · simp only [exec_morReadGo hm, Host.Outcome.next.injEq]
    exact morReadGo_clauses
  · obtain ⟨hfound, hnone⟩ := morReadDone_clauses hbusy hload hu
    exact ⟨fun n w hslot hw => congrArg Host.Outcome.next (hfound n w hslot hw), fun h => congrArg Host.Outcome.next (hnone h)⟩

end Sys2Proof.Proofs

/-! PROOFS. Reads and command sequences of the Store die (R166 to R182). -/

namespace Sys2Proof.Proofs

open Sys2Proof Sys2Proof.Machine

section Sequences

variable {s u : State} {r : Req} {a : BitVec 28}

/-! ### Requesters and the address window -/

/-- The requester is no core that runs gated. -/
def ungated (r : Req) (s : State) : Prop := ∀ m, r = .core m → gated s m = false

theorem byReq_of_not_gated {x w : Nat} {v : Word} {go : State → State} (h : ungated r s) : s.byReq r x w v go = go s := by
  cases r with
  | core m =>
    have hm : gated s m = false := h m rfl
    simp only [State.byReq, hm, Bool.false_eq_true, if_false]
    split <;> rfl
  | dma c => rfl
  | recorder => rfl
  | loader => rfl

/-- With no channel to tell, a Store die command leaves the channels alone. -/
theorem storeFaults_of_none (h : s.sto.chFault = []) : storeFaults s = s := by
  have hsame : ({ s with sto := { s.sto with chFault := [] } } : State) = s := by rw [← h]
  simp only [storeFaults, h, State.each, hsame]

theorem bankOf_word (a : BitVec 28) : bankOf (0x20000000 + a.toNat / 4 * 4) = bankOf (0x20000000 + a.toNat) := by
  have := a.isLt
  simp only [bankOf]
  omega

/-! ### Reads -/

theorem byte_of_bits (b : Byte) : BitVec.ofNat 8 (((List.range 8).filter fun j => b.getLsbD j).foldl (fun n j => n + 2 ^ j) 0) = b := by
  revert b
  decide

/-- A settled bit reads as it is in normal mode, whatever its threshold. -/
theorem bitReads_settled (pv ev : Nat) (bit : Bool) (mv : Option Nat) : bitReads true 0 pv ev bit mv = bit := by
  cases mv <;> rfl

theorem cellsRead_settled (pv ev : Nat) (bs : List Byte) (cells : List Nat) : cellsRead true 0 pv ev bs cells = bs := by
  simp only [cellsRead, bitReads_settled, byte_of_bits]
  exact List.ext_getElem (by simp) (by simp)

theorem storeRead_clauses {m : Master} {w : Nat} {cells : List Nat} {b x : Nat} {q : SeqState} (hx : x = 0x20000000 + a.toNat)
    (hb : b = bankOf x) (hu : u = s.wakeBank b) (hq : q = u.seqState b (.core m)) :
    (q.status = false → q.info = false → storeRead m a w cells s = u.emit (.coreData m (leNat
      (cellsRead (!sectorOpen u x) q.margin (u.get F.STO_MARGIN_PVOFF) (u.get F.STO_MARGIN_EVOFF) (u.stoBytes x w) cells)))) ∧
    (q.status = false → q.info = true → storeRead m a w cells s =
      u.emit (.coreData m (leNat (u.infoSpace b (x % 0x1000000) w)))) ∧
    (q.status = true → storeRead m a w cells s = (u.setSeq b (.core m) { q with status := false }).emit
        (.coreData m (leNat (slice (leBytes 4 (statusWord b (u.bank b))) (x % 4) w)))) := by
  refine ⟨fun hstatus hinfo => ?_, fun hstatus hinfo => ?_, fun hstatus => ?_⟩
  · simp only [storeRead, State.arrayRead, ← hx, ← hb, ← hu, ← hq, hstatus, hinfo, Bool.false_eq_true, if_false]
  · simp only [storeRead, State.arrayRead, ← hx, ← hb, ← hu, ← hq, hstatus, hinfo, Bool.false_eq_true, if_false, if_true]
  · simp only [storeRead, State.arrayRead, ← hx, ← hb, ← hu, ← hq, hstatus, if_true]

/-! ### The cycles of a sequence -/

variable {b w x v page n : Nat} {got : List (Nat × Word)}

/-- A word store at a word address goes by the position of the requester's sequence. -/
theorem arrayStore_idle (hu : u = s.wakeBank (bankOf x)) (hx : x % 4 = 0) (hpos : (u.seqState (bankOf x) r).pos = .idle) :
    s.arrayStore r x 4 v =
      if x % 0x1000000 = keyA ∧ v = 0x00002DD2 then u.setSeq (bankOf x) r { u.seqState (bankOf x) r with pos := .key2 }
      else if v = 0x0000C33C then u.setSeq (bankOf x) r { u.seqState (bankOf x) r with margin := 0, info := false, status := false }
      else if v = 0x00009A65 then u.eraseSuspend r x
      else if v = 0x0000956A then u.eraseResume r x
      else u.seqError r x := by
  simp only [State.arrayStore, ← hu, hpos]
  exact if_neg (by simp [hx])

theorem arrayStore_key2 (hu : u = s.wakeBank (bankOf x)) (hx : x % 4 = 0) (hpos : (u.seqState (bankOf x) r).pos = .key2) :
    s.arrayStore r x 4 v =
      if x % 0x1000000 = keyB ∧ v = 0x00009669 then u.setSeq (bankOf x) r { u.seqState (bankOf x) r with pos := .setup }
      else u.seqError r x := by
  simp only [State.arrayStore, ← hu, hpos]
  exact if_neg (by simp [hx])

theorem arrayStore_setup (hu : u = s.wakeBank (bankOf x)) (hx : x % 4 = 0) (hpos : (u.seqState (bankOf x) r).pos = .setup) :
    s.arrayStore r x 4 v = u.setupCycle r x v := by
  simp only [State.arrayStore, ← hu, hpos]
  exact if_neg (by simp [hx])

theorem arrayStore_erase (hu : u = s.wakeBank (bankOf x)) (hx : x % 4 = 0) (hpos : (u.seqState (bankOf x) r).pos = .erase) :
    s.arrayStore r x 4 0x0000D42B =
      (u.setSeq (bankOf x) r { u.seqState (bankOf x) r with pos := .idle }).confirmErase r x := by
  simp only [State.arrayStore, ← hu, hpos, if_true]
  exact if_neg (by simp [hx])

theorem arrayStore_confirm (hu : u = s.wakeBank (bankOf page)) (hpage : page % 512 = 0)
    (hpos : (u.seqState (bankOf page) r).pos = .data page n got) (hlen : got.length = n) :
    s.arrayStore r page 4 0x00008B74 = u.confirmData r page got := by
  have hbase : page / 512 * 512 = page := by omega
  simp only [State.arrayStore, ← hu, hpos, hbase, hlen, Nat.lt_irrefl, if_false, and_self, if_true]
  exact if_neg (by simp; omega)

theorem arrayStore_narrow (hu : u = s.wakeBank (bankOf x)) (hw : w ≠ 4) : s.arrayStore r x w v = u.seqError r x := by
  simp only [State.arrayStore, ← hu]
  exact if_pos (.inl hw)

theorem exec_sequenceCycle {v : Word} (h : ungated r s) : exec (.sequenceCycle r a w v) s =
    .next (storeFaults (s.arrayStore r (0x20000000 + a.toNat) w v.toNat)) := congrArg Host.Outcome.next (byReq_of_not_gated h)

theorem sequenceCycle_clauses {v : Word} (hb : b = bankOf (0x20000000 + a.toNat)) (hu : u = s.wakeBank b) (hnone : s.sto.chFault = []) :
    (a.toNat % 0x1000000 = keyA → (u.seqState b r).pos = .idle →
      storeFaults (s.arrayStore r (0x20000000 + a.toNat) 4 (0x00002DD2 : Word).toNat) = u.setSeq b r { u.seqState b r with pos := .key2 }) ∧
    (a.toNat % 0x1000000 = keyB → (u.seqState b r).pos = .key2 →
      storeFaults (s.arrayStore r (0x20000000 + a.toNat) 4 (0x00009669 : Word).toNat) = u.setSeq b r { u.seqState b r with pos := .setup }) ∧
    (w ≠ 4 → storeFaults (s.arrayStore r (0x20000000 + a.toNat) w v.toNat) = u.seqError r (0x20000000 + a.toNat)) := by
  subst hb hu
  refine ⟨fun hkey hpos => ?_, fun hkey hpos => ?_, fun hw => ?_⟩
  · have hoff : (0x20000000 + a.toNat) % 0x1000000 = keyA := by rw [← hkey]; omega
    have hword : (0x20000000 + a.toNat) % 4 = 0 := by simp only [keyA] at hoff; omega
    rw [arrayStore_idle rfl hword hpos, if_pos ⟨hoff, rfl⟩]
    exact storeFaults_of_none hnone
  · have hoff : (0x20000000 + a.toNat) % 0x1000000 = keyB := by rw [← hkey]; omega
    have hword : (0x20000000 + a.toNat) % 4 = 0 := by simp only [keyB] at hoff; omega
    rw [arrayStore_key2 rfl hword hpos, if_pos ⟨hoff, rfl⟩]
    exact storeFaults_of_none hnone
  · rw [arrayStore_narrow rfl hw]
    exact storeFaults_of_none hnone

/-! ### Commands of one cycle -/

theorem exec_oneCycle (h : ungated r s) :
    exec (.readArray r a) s = .next (s.arrayStore r (0x20000000 + a.toNat / 4 * 4) 4 0x0000C33C) ∧
    exec (.eraseSuspend r a) s = .next (s.arrayStore r (0x20000000 + a.toNat / 4 * 4) 4 0x00009A65) ∧
    exec (.eraseResume r a) s = .next (s.arrayStore r (0x20000000 + a.toNat / 4 * 4) 4 0x0000956A) :=
  ⟨congrArg Host.Outcome.next (byReq_of_not_gated h), congrArg Host.Outcome.next (byReq_of_not_gated h),
    congrArg Host.Outcome.next (byReq_of_not_gated h)⟩

theorem oneCycle_clauses (hb : b = bankOf (0x20000000 + a.toNat)) (hu : u = s.wakeBank b) (hpos : (u.seqState b r).pos = .idle) :
    s.arrayStore r (0x20000000 + a.toNat / 4 * 4) 4 0x0000C33C =
      u.setSeq b r { u.seqState b r with margin := 0, info := false, status := false } ∧
    s.arrayStore r (0x20000000 + a.toNat / 4 * 4) 4 0x00009A65 = u.eraseSuspend r (0x20000000 + a.toNat / 4 * 4) ∧
    s.arrayStore r (0x20000000 + a.toNat / 4 * 4) 4 0x0000956A = u.eraseResume r (0x20000000 + a.toNat / 4 * 4) := by
  have hx : (0x20000000 + a.toNat / 4 * 4) % 4 = 0 := by omega
  rw [← bankOf_word] at hb
  subst hb
  refine ⟨?_, ?_, ?_⟩
  · rw [arrayStore_idle hu hx hpos, if_neg (by simp), if_pos rfl]
  · rw [arrayStore_idle hu hx hpos, if_neg (by simp), if_neg (by simp), if_pos rfl]
  · rw [arrayStore_idle hu hx hpos, if_neg (by simp), if_neg (by simp), if_neg (by simp), if_pos rfl]

theorem eraseSuspend_clauses (hb : b = bankOf x) :
    (∀ op : EraseOp, (s.bank b).erase = some op → (s.bank b).susp = false → sectorMoraine op.sector = false →
      mayControl r op = true → s.eraseSuspend r x = s.setBank b { s.bank b with susp := true, resumeDue := false }) ∧
    ((s.bank b).erase = none → s.eraseSuspend r x = s.stoRefuse 12 r x 3) := by
  subst hb
  constructor
  · intro op herase hsusp hmoraine hmay
    simp only [State.eraseSuspend, herase, hsusp, hmoraine, hmay, Bool.and_false, Bool.not_true, Bool.false_and, Bool.false_eq_true,
      if_false]
  · intro herase
    simp only [State.eraseSuspend, herase]

theorem eraseResume_clauses (hb : b = bankOf x) :
    (∀ op : EraseOp, (s.bank b).erase = some op → (s.bank b).susp = true → mayControl r op = true →
      s.eraseResume r x = s.setBank b { s.bank b with susp := false, resumeDue := (s.bank b).prog.isSome }) ∧
    ((s.bank b).erase = none → s.eraseResume r x = s.stoRefuse 12 r x 3) := by
  subst hb
  constructor
  · intro op herase hsusp hmay
    simp only [State.eraseResume, herase, hsusp, hmay, Bool.not_true, Bool.false_eq_true, if_false]
  · intro herase
    simp only [State.eraseResume, herase]

/-! ### Third cycles -/

theorem exec_keyed {b : BitVec 4} {e : Bool} (h : ungated r s) :
    exec (.statusRead r b) s = .next (keyedCommand r b 0x0000A15E s) ∧
    exec (.clearStatus r b) s = .next (keyedCommand r b 0x0000A35C s) ∧
    exec (.marginRead r b e) s = .next (keyedCommand r b (if e then 0x0002B24D else 0x0001B24D) s) ∧
    exec (.infoMode r b) s = .next (keyedCommand r b 0x0000E619 s) :=
  ⟨congrArg Host.Outcome.next (byReq_of_not_gated h), congrArg Host.Outcome.next (byReq_of_not_gated h),
    congrArg Host.Outcome.next (byReq_of_not_gated h), congrArg Host.Outcome.next (byReq_of_not_gated h)⟩

theorem bankOf_keyA (b : BitVec 4) : bankOf (bankBase b + keyA) = b.toNat := by
  have := b.isLt
  simp only [bankOf, bankBase, keyA]
  omega

theorem keyedCommand_setup {b : BitVec 4} (hu : u = s.wakeBank b.toNat) (hpos : (u.seqState b.toNat r).pos = .setup) :
    keyedCommand r b v s = u.setupCycle r (bankBase b + keyA) v := by
  have hpos' : (s.seqState b.toNat r).pos = .setup := by rw [← hpos, hu]; rfl
  rw [keyedCommand, if_pos hpos', arrayStore_setup (u := u) (by rw [bankOf_keyA, hu]) (by simp only [bankBase, keyA]; omega)
    (by rw [bankOf_keyA, hpos])]

theorem keyA_reached (b : BitVec 4) : decide ((bankBase b + keyA) % 0x1000000 = keyA) = true := by
  have h : (bankBase b + keyA) % 0x1000000 = keyA := by
    simp only [bankBase, keyA]
    omega
  exact decide_eq_true h

theorem setupCycle_clauses {b : BitVec 4} {q : SeqState} {k : Bank} (hq : q = s.seqState b.toNat r) (hk : k = s.bank b.toNat) :
    s.setupCycle r (bankBase b + keyA) 0x0000A15E = s.setSeq b.toNat r { q with pos := .idle, status := true } ∧
    s.setupCycle r (bankBase b + keyA) 0x0000A35C = (s.setSeq b.toNat r { q with pos := .idle }).setBank b.toNat
      { k with refuse := false, pfail := false, efail := false } ∧
    s.setupCycle r (bankBase b + keyA) 0x0001B24D = s.setSeq b.toNat r { q with pos := .idle, margin := 1 } ∧
    s.setupCycle r (bankBase b + keyA) 0x0002B24D = s.setSeq b.toNat r { q with pos := .idle, margin := 2 } ∧
    s.setupCycle r (bankBase b + keyA) 0x0000E619 = s.setSeq b.toNat r { q with pos := .idle, info := true } := by
  subst hq hk
  refine ⟨?_, ?_, ?_, ?_, ?_⟩ <;>
    simp only [State.setupCycle, bankOf_keyA, keyA_reached, cmdOk, Bool.true_and, beq_self_eq_true, Nat.reduceBEq, Nat.reduceMod, Nat.reduceDiv,
      Nat.reduceSub, Bool.false_and, Bool.false_eq_true, if_true, if_false, Bool.or_true, Bool.or_false]

/-! ### Confirmed programs and erases -/

theorem refill_chFault (n : Nat) : ∀ s : State, (State.refill n s).sto.chFault = s.sto.chFault := by
  have hkick : ∀ s : State, s.eccKick.sto.chFault = s.sto.chFault := by
    intro s
    unfold State.eccKick
    split
    · rfl
    · split <;> rfl
  have hpush : ∀ (s : State) st, (s.pushFifo st).sto.chFault = s.sto.chFault := by
    intro s st
    unfold State.pushFifo
    exact ite_keeps (fun u => u.sto.chFault) (hkick _) rfl
  induction n with
  | zero => exact fun _ => rfl
  | succ n ih =>
    intro s
    unfold State.refill
    refine ite_keeps (fun u => u.sto.chFault) rfl (ite_keeps (fun u => u.sto.chFault) ?_ ?_)
    · exact (ih _).trans (hpush _ _)
    · split
      · rfl
      · exact (ih _).trans (ite_keeps (fun u => u.sto.chFault) rfl (hpush _ _))

theorem stoRefuse_chFault (c : Nat) (m : Master) (x k : Nat) : (s.stoRefuse c (.core m) x k).sto.chFault = s.sto.chFault := by
  unfold State.stoRefuse
  exact ite_keeps (fun u => u.sto.chFault) (refill_chFault _ _) rfl

theorem bufferProgram_confirmed {b : BitVec 4} {k : Nat} (hpage : page = bankBase b + 512 * k) (hk : k < 32768) (hlen : got.length = n)
    (hpos : (s.seqState b.toNat r).pos = .data page n got)
    (hu : u = (s.wakeBank b.toNat).setSeq b.toNat r { s.seqState b.toNat r with pos := .idle }) :
    bufferProgram r b s = storeFaults (u.confirmProgram { req := r, page := page, data := dataBytes got }) := by
  have hb : bankOf page = b.toNat := by
    have := b.isLt
    simp only [hpage, bankOf, bankBase]
    omega
  have hstore : s.arrayStore r page 4 0x00008B74 = (s.wakeBank b.toNat).confirmData r page got :=
    arrayStore_confirm (by rw [hb]) (by simp only [hpage, bankBase]; omega) (by rw [hb]; exact hpos) hlen
  simp only [bufferProgram, hpos, hlen, if_true, hstore, State.confirmData, hb, hu]
  rfl

theorem bufferProgram_clauses {b : BitVec 4} {k : Nat} (hpage : page = bankBase b + 512 * k) (hk : k < 32768) (hlen : got.length = n)
    (hpos : (s.seqState b.toNat r).pos = .data page n got) (hnone : s.sto.chFault = [])
    (hu : u = (s.wakeBank b.toNat).setSeq b.toNat r { s.seqState b.toNat r with pos := .idle }) :
    (programCause u page = none → bufferProgram r b s = u.startProgram { req := r, page := page, data := dataBytes got }) ∧
    (∀ (m : Master) (c : Nat), r = .core m → programCause u page = some c → bufferProgram r b s = u.stoRefuse c r page 1) := by
  have hnone' : u.sto.chFault = [] := by rw [hu]; exact hnone
  rw [bufferProgram_confirmed hpage hk hlen hpos hu, State.confirmProgram]
  constructor
  · intro hcause
    simp only [hcause]
    exact storeFaults_of_none hnone'
  · intro m c hr hcause
    simp only [hcause]
    rw [hr]
    exact storeFaults_of_none ((stoRefuse_chFault c m page 1).trans hnone')

theorem sectorErase_clauses (hx : x = 0x20000000 + a.toNat / 4 * 4) (hb : b = bankOf x) (hpos : (s.seqState b r).pos = .erase)
    (hu : u = (s.wakeBank b).setSeq b r { s.seqState b r with pos := .idle }) :
    (eraseCause u x = none → sectorErase r a s = u.startErase b { req := r, sector := sectorOf x }) ∧
    (∀ c : Nat, eraseCause u x = some c → sectorErase r a s = u.stoRefuse c r x 2) := by
  have hconfirm : sectorErase r a s = u.confirmErase r x := by
    subst hb hu
    simp only [sectorErase, ← hx, if_pos hpos]
    exact arrayStore_erase rfl (by omega) hpos
  rw [hconfirm, State.confirmErase, ← hb]
  constructor
  · intro hcause
    simp only [hcause]
  · intro c hcause
    simp only [hcause]

/-! ### The page-program window -/

theorem exec_pageWindowStore {v : Word} (h : ungated r s) : exec (.pageWindowStore r a w v) s =
    .next (storeFaults (s.windowStore r (0x20000000 + a.toNat) w v.toNat)) := congrArg Host.Outcome.next (byReq_of_not_gated h)

theorem windowStore_clauses {v : Word} (hx : x = 0x20000000 + a.toNat) (hu : u = s.wakeBank (bankOf x)) :
    (a.toNat % 512 = 0 → tabGet s.sto.pages none (reqNum r) = none →
      s.windowStore r x 4 v.toNat = u.setPage r (some { page := x, words := [v] })) ∧
    (∀ p : PartPage, tabGet s.sto.pages none (reqNum r) = some p → x = p.page + 4 * p.words.length → a.toNat % 4 = 0 →
      p.words.length < 127 → s.windowStore r x 4 v.toNat = u.setPage r (some { p with words := p.words ++ [v] })) := by
  have hpages : u.sto.pages = s.sto.pages := by rw [hu]; rfl
  have hword : BitVec.ofNat 32 v.toNat = v := BitVec.ofNat_toNat 32 v ▸ BitVec.setWidth_eq v
  constructor
  · intro ha hopen
    have hx512 : x % 512 = 0 := by omega
    simp only [State.windowStore, ← hu, hpages, hopen, hword, if_pos hx512]
    exact if_neg (by omega)
  · intro p hopen hnext ha hfull
    have hmore : (p.words ++ [v]).length ≠ 128 := by simp; omega
    simp only [State.windowStore, ← hu, hpages, hopen, hword, if_pos hnext, if_neg hmore]
    exact if_neg (by omega)

end Sequences

/-- Settles O15: each access goes by the position and the modes of its requester's sequence in the bank. -/
theorem storeSequencesComplete : Obligations.StoreSequencesComplete := by
  unfold Obligations.StoreSequencesComplete
  refine ⟨fun m a w cells s u b x q hx hb hu hq => ?_, fun r a w v s u b hb hu hnone hm => ?_,
    fun r b s => ⟨fun h => congrArg Host.Outcome.next (if_pos h), fun h => congrArg Host.Outcome.next (if_neg h)⟩,
    fun r a s u b hb hu hpos hm => ?_, fun r b s u q k hu hq hk hpos hm => ?_,
    fun r b page n k got s u hpage hk hlen hpos hnone hu => ?_,
    fun r a s u x b hx hb hpos hm hu => ?_, fun r a v s u x hx hu hnone hm => ?_⟩
  · obtain ⟨hdata, hinfo, hstatus⟩ := storeRead_clauses (w := w) (cells := cells) hx hb hu hq
    refine ⟨fun h0 h1 h2 h3 => ?_, fun h0 h1 => congrArg Host.Outcome.next (hdata h0 h1),
      fun h0 h1 => congrArg Host.Outcome.next (hinfo h0 h1), fun h0 => congrArg Host.Outcome.next (hstatus h0)⟩
    refine congrArg Host.Outcome.next ((hdata h0 h1).trans ?_)
    rw [h2, h3, Bool.not_false, cellsRead_settled]
  · simp only [exec_sequenceCycle hm, Host.Outcome.next.injEq]
    exact sequenceCycle_clauses hb hu hnone
  · obtain ⟨hread, hsuspend, hresume⟩ := exec_oneCycle (a := a) hm
    obtain ⟨hread', hsuspend', hresume'⟩ := oneCycle_clauses hb hu hpos
    have hb' := hb.trans (bankOf_word a).symm
    obtain ⟨hsusp, hnosusp⟩ := eraseSuspend_clauses (s := u) (r := r) hb'
    obtain ⟨hresu, hnoresu⟩ := eraseResume_clauses (s := u) (r := r) hb'
    simp only [hread, hsuspend, hresume, hread', hsuspend', hresume', Host.Outcome.next.injEq]
    exact ⟨trivial, hsusp, hresu, fun h => ⟨hnosusp h, hnoresu h⟩⟩
  · have hpos' : (u.seqState b.toNat r).pos = .setup := by rw [← hq, hpos]
    obtain ⟨hstatus, hclear, hprogram, hinfo⟩ := exec_keyed (b := b) (e := false) hm
    obtain ⟨-, -, herase, -⟩ := exec_keyed (b := b) (e := true) hm
    simp only [hstatus, hclear, hprogram, herase, hinfo, keyedCommand_setup hu hpos', Host.Outcome.next.injEq, if_true, Bool.false_eq_true,
      if_false]
    exact setupCycle_clauses hq hk
  · obtain ⟨hstart, hrefuse⟩ := bufferProgram_clauses hpage hk hlen hpos hnone hu
    exact ⟨fun h => congrArg Host.Outcome.next (hstart h), fun m c hr h => congrArg Host.Outcome.next (hrefuse m c hr h)⟩
  · have hexec : exec (.sectorErase r a) s = .next (sectorErase r a s) := congrArg Host.Outcome.next (byReq_of_not_gated hm)
    simp only [hexec, Host.Outcome.next.injEq]
    exact sectorErase_clauses hx hb hpos hu
  · obtain ⟨hopen, hmore⟩ := windowStore_clauses (r := r) (v := v) hx hu
    have hnone' : ∀ p, (u.setPage r p).sto.chFault = [] := by
      intro p
      rw [hu]
      exact hnone
    simp only [exec_pageWindowStore hm, ← hx, Host.Outcome.next.injEq]
    exact ⟨fun h h' => (congrArg storeFaults (hopen h h')).trans (storeFaults_of_none (hnone' _)),
      fun p h0 h1 h2 h3 => (congrArg storeFaults (hmore p h0 h1 h2 h3)).trans (storeFaults_of_none (hnone' _))⟩

end Sys2Proof.Proofs

/-! PROOFS. The ends of the Store die's programs and erases, its scan and its own registers (R171, R173, R179 to R189). -/

namespace Sys2Proof.Proofs

open Sys2Proof Sys2Proof.Machine

section StoreDie

variable {s u : State} {b : BitVec 4} {l : List (Nat × Byte)} {p : ProgOp}

/-! ### Ends of programs -/

theorem programDone_verified (hprog : (s.bank b.toNat).prog = some p)
    (hu : u = (s.setBank b.toNat { s.bank b.toNat with prog := none, pfail := (s.bank b.toNat).pfail || false }).setIn F.STO_DONE_BANK b.toNat) :
    (∀ m, p.req = .core m → programDone b true l s = (storeFaults ((u.applyProgram p).afterProgram b.toNat)).rdoneCheck) ∧
    (∀ c, p.req = .dma c → programDone b true l s =
      (storeFaults (((u.applyProgram p).dmaPageDone c p.page).afterProgram b.toNat)).rdoneCheck) := by
  constructor
  · intro m hreq
    simp only [programDone, hprog, hreq, reduceCtorEq, if_false, if_true, Bool.not_true, ← hu]
  · intro c hreq
    simp only [programDone, hprog, hreq, reduceCtorEq, if_false, if_true, Bool.not_true, ← hu]

/-- The bank after its program has failed. -/
def programFailed (s : State) (b : BitVec 4) : State :=
  (s.setBank b.toNat { s.bank b.toNat with prog := none, pfail := true }).setIn F.STO_DONE_BANK b.toNat

theorem programDone_failed (hprog : (s.bank b.toNat).prog = some p) (hreq : p.req ≠ .recorder) (hu : u = programFailed s b) :
    programDone b false l s = (storeFaults (((((u.failedProgram p l).inc F.STO_CNT_PFAIL_CNT).stoCapture 9 p.req
        p.page).tellChannel p.req 9).afterProgram b.toNat)).rdoneCheck := by
  simp only [programDone, hprog, if_neg hreq, Bool.not_false, Bool.or_true, Bool.false_eq_true, if_false, hu, programFailed]

theorem failedProgram_regs : (s.failedProgram p l).regs = s.regs := by
  unfold State.failedProgram
  refine each_keeps State.regs ?_ _ _
  exact fun _ _ => rfl

theorem failedProgram_sto : (s.failedProgram p l).sto = s.sto := by
  unfold State.failedProgram
  refine each_keeps State.sto ?_ _ _
  exact fun _ _ => rfl

theorem get_failedProgram (f : Fld) : (s.failedProgram p l).get f = s.get f := get_of_rd (by rw [State.rd, failedProgram_regs, State.rd])

theorem regsWf_failedProgram (hs : s.regsWf = true) : (s.failedProgram p l).regsWf = true := by
  rw [State.regsWf, failedProgram_regs]
  exact hs

theorem get_stoCapture_cause (hs : s.regsWf = true) (c : Nat) (r : Req) (a : Nat) : (s.stoCapture c r a).get F.STO_ERR_CAUSE = c % 16 := by
  have h1 := regsWf_put F.STO_ERR_CAUSE c hs
  have h2 := regsWf_put F.STO_ERR_MASTER (reqSrc r) h1
  have h3 := regsWf_put F.STO_ERR_NEW 1 h2
  simp only [State.stoCapture, State.raiseBit]
  rw [get_put_apart _ h3 (by decide) (by decide) (by decide), get_put_apart _ h2 (by decide) (by decide) (by decide),
    get_put_apart _ h1 (by decide) (by decide) (by decide), get_put_same _ hs (by decide)]
  rfl

theorem get_stoCapture_addr (hs : s.regsWf = true) (c : Nat) (r : Req) (a : Nat) :
    (s.stoCapture c r a).get F.STO_EADDR_ADDR = a % 0x10000000 := by
  refine (get_put_same _ (regsWf_put _ _ (regsWf_put _ _ (regsWf_put _ _ hs))) (by decide)).trans ?_
  exact Nat.mod_mod _ _

theorem mode_stoCapture (hs : s.regsWf = true) (c : Nat) (r : Req) (a : Nat) : (s.stoCapture c r a).mode = s.mode := by
  have h1 := regsWf_put F.STO_ERR_CAUSE c hs
  have h2 := regsWf_put F.STO_ERR_MASTER (reqSrc r) h1
  have h3 := regsWf_put F.STO_ERR_NEW 1 h2
  refine get_of_rd (f := F.PCM_MODE_MODE) ?_
  simp only [State.stoCapture, State.raiseBit]
  rw [rd_put_ne h3 (by decide), rd_put_ne h2 (by decide), rd_put_ne h1 (by decide), rd_put_ne hs (by decide)]

theorem rdoneCheck_of_mode (h : s.mode ≠ mRETREAT) : s.rdoneCheck = s := if_neg fun hboth => h hboth.1

/-- The state once a failed program's page is laid, and the failure is counted and captured. -/
def failureShown (p : ProgOp) (l : List (Nat × Byte)) (u : State) : State :=
  ((u.failedProgram p l).inc F.STO_CNT_PFAIL_CNT).stoCapture 9 p.req p.page

theorem failureShown_sto : (failureShown p l s).sto = s.sto := failedProgram_sto

theorem failureShown_clauses (hs : s.regsWf = true) : (failureShown p l s).mode = s.mode ∧
    (failureShown p l s).get F.STO_ERR_CAUSE = 9 ∧ (failureShown p l s).get F.STO_EADDR_ADDR = p.page % 0x10000000 := by
  have hlaid := regsWf_failedProgram (p := p) (l := l) hs
  have hcounted : ((s.failedProgram p l).inc F.STO_CNT_PFAIL_CNT).regsWf = true := regsWf_put _ _ hlaid
  have hmode : ((s.failedProgram p l).inc F.STO_CNT_PFAIL_CNT).mode = s.mode :=
    (get_of_rd (f := F.PCM_MODE_MODE) (rd_put_ne hlaid (by decide) _)).trans (get_failedProgram F.PCM_MODE_MODE)
  exact ⟨(mode_stoCapture hcounted _ _ _).trans hmode, get_stoCapture_cause hcounted _ _ _, get_stoCapture_addr hcounted _ _ _⟩

theorem setBank_chFault (n : Nat) (k : Bank) : (s.setBank n k).sto.chFault = s.sto.chFault := rfl

theorem get_setBank (n : Nat) (k : Bank) (f : Fld) : (s.setBank n k).get f = s.get f := rfl

theorem mode_setBank (n : Nat) (k : Bank) : (s.setBank n k).mode = s.mode := rfl

theorem afterProgram_of_none {n : Nat} (h : (s.bank n).waiting = []) :
    s.afterProgram n = s.setBank n { s.bank n with waiting := [], resumeDue := false } := by
  simp only [State.afterProgram, h, State.each]

/-- A failed program of a core with no page behind it, outside RETREAT. -/
theorem programDone_failed_alone {m : Master} (hprog : (s.bank b.toNat).prog = some p) (hreq : p.req = .core m) (hu : u = programFailed s b)
    (hwait : (u.bank b.toNat).waiting = []) (hnone : u.sto.chFault = []) (hmode : u.mode ≠ mRETREAT) (hu' : u.regsWf = true) :
    programDone b false l s = (failureShown p l u).setBank b.toNat { u.bank b.toNat with waiting := [], resumeDue := false } := by
  have hbank : (failureShown p l u).bank b.toNat = u.bank b.toNat := by
    rw [State.bank, failureShown_sto, State.bank]
  have htell : (failureShown p l u).tellChannel p.req 9 = failureShown p l u := by rw [hreq]; rfl
  have hafter : (failureShown p l u).afterProgram b.toNat =
      (failureShown p l u).setBank b.toNat { u.bank b.toNat with waiting := [], resumeDue := false } := by
    rw [afterProgram_of_none (by rw [hbank]; exact hwait), hbank]
  have hfaults : (failureShown p l u).sto.chFault = [] := (congrArg StoState.chFault failureShown_sto).trans hnone
  have hmode' : (failureShown p l u).mode ≠ mRETREAT := by
    rw [(failureShown_clauses hu').1]
    exact hmode
  rw [programDone_failed hprog (by simp [hreq]) hu]
  rw [← failureShown, htell, hafter, storeFaults_of_none ((setBank_chFault _ _).trans hfaults)]
  exact rdoneCheck_of_mode (by rw [mode_setBank]; exact hmode')

/-- Such a failure shows in STO_ERR and in the bank. -/
theorem programDone_failed_shows {m : Master} (hprog : (s.bank b.toNat).prog = some p) (hreq : p.req = .core m)
    (hwait : (s.bank b.toNat).waiting = []) (hnone : s.sto.chFault = []) (hmode : s.mode ≠ mRETREAT) (hs : s.regsWf = true)
    (hbanks : s.banksWf = true) : ∃ t : State, programDone b false l s = t ∧ t.get F.STO_ERR_CAUSE = 9 ∧
      t.get F.STO_EADDR_ADDR = p.page % 0x10000000 ∧ (t.bank b.toNat).pfail = true ∧ (t.bank b.toNat).prog = none := by
  have hu' : (programFailed s b).regsWf = true := regsWf_put _ _ hs
  have hubank : (programFailed s b).bank b.toNat = { s.bank b.toNat with prog := none, pfail := true } :=
    bank_setBank_same _ _ hbanks
  have humode : (programFailed s b).mode = s.mode := get_of_rd (f := F.PCM_MODE_MODE) (rd_put_ne hs (by decide) _)
  have hfailed := programDone_failed_alone (l := l) hprog hreq rfl (by rw [hubank]; exact hwait) hnone (by rw [humode]; exact hmode) hu'
  obtain ⟨-, hcause, haddr⟩ := failureShown_clauses (p := p) (l := l) hu'
  have hbanks' : (failureShown p l (programFailed s b)).banksWf = true := by
    rw [State.banksWf, failureShown_sto]
    exact banksWf_setBank _ _ hbanks
  refine ⟨_, hfailed, (get_setBank _ _ _).trans hcause, (get_setBank _ _ _).trans haddr, ?_, ?_⟩
  · rw [bank_setBank_same _ _ hbanks', hubank]
  · rw [bank_setBank_same _ _ hbanks', hubank]

/-! ### Ends of erases -/

theorem eraseDone_clauses {op : EraseOp} (herase : (s.bank b.toNat).erase = some op) (hsusp : (s.bank b.toNat).susp = false)
    (hdue : (s.bank b.toNat).resumeDue = false) (hreq : op.req ≠ .recorder) :
    (u = (s.endErase b.toNat true).stoErase (sectorAddr op.sector) 0x10000 → eraseDone b true l s = u.rdoneCheck) ∧
    (u = ((s.endErase b.toNat false).stoErase (sectorAddr op.sector) 0x10000).layCells (cellsIn (sectorAddr op.sector) 0x10000 l) →
      eraseDone b false l s = ((u.inc F.STO_CNT_EFAIL_CNT).stoCapture 10 op.req (sectorAddr op.sector)).rdoneCheck) := by
  have hrun : ¬ ((s.bank b.toNat).susp || (s.bank b.toNat).resumeDue || op.req == .recorder) = true := by simp [hsusp, hdue, hreq]
  constructor
  · intro hu
    simp only [eraseDone, herase, if_neg hrun, hu, if_true]
  · intro hu
    simp only [eraseDone, herase, if_neg hrun, hu, Bool.false_eq_true, if_false]

/-- An erase leaves no byte of its sector listed. -/
theorem ne_of_mem_stoErase {a x k : Nat} (hlow : x ≤ a) (hhigh : a < x + k) {c : Nat × Byte} (hc : c ∈ (s.stoErase x k).store) :
    c.1 ≠ a := by
  have hkept : (!(decide (x ≤ c.1) && decide (c.1 < x + k))) = true := (List.mem_filter.mp hc).2
  rintro rfl
  simp [hlow, hhigh] at hkept

/-! ### The scan -/

/-- What the scan finds of one bank (R181, R183). -/
def scanBank (b : Nat) (s : State) : State :=
  s.setBank b { s.bank b with
    inc := s.infoIncomplete b, infoErase := !decide (leNat (s.infoBytes b 12 4) = crc32c (s.infoBytes b 0 12)) }

theorem scanBanks_info (l : List Nat) : (State.each scanBank l s).sto.info = s.sto.info := by
  refine each_keeps (fun u => u.sto.info) ?_ _ _
  exact fun _ _ => rfl

theorem regsWf_scanBanks (hs : s.regsWf = true) (l : List Nat) : (State.each scanBank l s).regsWf = true := by
  have hregs : (State.each scanBank l s).regs = s.regs := by
    refine each_keeps State.regs ?_ _ _
    exact fun _ _ => rfl
  rw [State.regsWf, hregs]
  exact hs

/-! What an info row reads as depends on the info rows only. -/

theorem infoBytes_congr {t : State} (h : t.sto.info = s.sto.info) (r o n : Nat) : t.infoBytes r o n = s.infoBytes r o n := by
  rw [State.infoBytes, h, State.infoBytes]

theorem infoLast_congr {t : State} (h : t.sto.info = s.sto.info) (n : Nat) : ∀ k, infoLast t n k = infoLast s n k
  | 0 => rfl
  | k + 1 => by
    simp only [infoLast, infoBytes_congr h, infoLast_congr h n k]

theorem infoIncomplete_congr {t : State} (h : t.sto.info = s.sto.info) (n : Nat) : t.infoIncomplete n = s.infoIncomplete n := by
  simp only [State.infoIncomplete, State.lastInfo, infoBytes_congr h, infoLast_congr h]

theorem grownUsed_congr {t : State} (h : t.sto.info = s.sto.info) : t.grownUsed = s.grownUsed := by
  simp only [State.grownUsed, infoBytes_congr h]

/-- The scan's counts. -/
def scanCounts (s : State) : State :=
  let s := s.put F.STO_STAT_FBCOUNT (leNat (s.infoBytes 16 12 2))
  s.put F.STO_STAT_GBCOUNT s.grownUsed

theorem storeScanDone_of_waiting (hready : s.on F.STO_STAT_READY = false) : storeScanDone s =
    ((scanCounts (State.each scanBank (List.range 16) s)).raiseBit F.STO_STAT_READY).interruptedRecords :=
  if_neg (by simp [hready])

theorem scanCounts_clauses (hs : s.regsWf = true) : (scanCounts s).get F.STO_STAT_GBCOUNT = s.grownUsed % 2048 ∧
    (scanCounts s).get F.STO_STAT_FBCOUNT = leNat (s.infoBytes 16 12 2) % 256 := by
  have h1 := regsWf_put F.STO_STAT_FBCOUNT (leNat (s.infoBytes 16 12 2)) hs
  constructor
  · rw [scanCounts, get_put_same _ h1 (by decide), grownUsed_congr (s := s) rfl]
    rfl
  · rw [scanCounts, get_put_apart _ h1 (by decide) (by decide) (by decide), get_put_same _ hs (by decide)]
    rfl

theorem inc_scanBanks : ∀ (l : List Nat) {s : State}, s.banksWf = true → ∀ b,
    ((State.each scanBank l s).bank b).inc = if b ∈ l then s.infoIncomplete b else (s.bank b).inc
  | [], _, _, _ => rfl
  | x :: l, s, hs, b => by
    have hscan : ((scanBank x s).bank b).inc = if b = x then s.infoIncomplete b else (s.bank b).inc := by
      split
      · next h =>
        rw [h]
        exact congrArg Bank.inc (bank_setBank_same x _ hs)
      · next h => exact congrArg Bank.inc (bank_setBank_ne _ h hs)
    rw [State.each, inc_scanBanks l (s := scanBank x s) (banksWf_setBank _ _ hs) b, hscan, infoIncomplete_congr (t := scanBank x s) (s := s) rfl]
    by_cases hb : b = x <;> by_cases hl : b ∈ l <;> simp [hb, hl]

/-! ### Marks, protection and power -/

theorem infoRowEraseDone_clauses :
    ((s.bank b.toNat).infoErase = true → infoRowEraseDone b s =
      ((s.infoErase b.toNat).setBank b.toNat { s.bank b.toNat with infoErase := false }).rdoneCheck.morKick) ∧
    ((s.bank b.toNat).infoErase = false → infoRowEraseDone b s = s) :=
  ⟨fun h => if_pos h, fun h => if_neg (by simp [h])⟩

theorem markBad_clauses {v : Word} {n c : Nat} (hn : n = bitsOf v 11 0) (hc : c = bitsOf v 14 12) (hidle : s.on F.STO_MBRES_BUSY = false) :
    (sectorMoraine n = true → markBad v s = s.put F.STO_MBRES_RESULT 1) ∧
    (sectorMoraine n = false → destageFixed n = false → sectorBad s n = false → (s.bank (n / 256)).ready = true → 1 ≤ c → c ≤ 4 →
      (s.get F.STO_STAT_GBCOUNT ≥ 1024 → markBad v s = s.put F.STO_MBRES_RESULT 2) ∧
      (s.get F.STO_STAT_GBCOUNT < 1024 → u = s.raiseBit F.STO_MBRES_BUSY →
        markBad v s = { u with sto := { u.sto with mbad := some (n, c) } })) := by
  have hbusy : ¬ s.on F.STO_MBRES_BUSY = true := by simp [hidle]
  constructor
  · intro hmoraine
    simp only [markBad, if_neg hbusy, ← hn, hmoraine, Bool.true_or, if_true]
  · intro hmoraine hfixed hbad hfree hlow hhigh
    have hgood : ¬ (sectorMoraine n || destageFixed n || sectorBad s n || !(s.bank (n / 256)).ready || c == 0 || decide (c > 4)) = true := by
      simp [hmoraine, hfixed, hbad, hfree, hhigh, Nat.one_le_iff_ne_zero.mp hlow]
    constructor
    · intro hfull
      simp only [markBad, if_neg hbusy, ← hn, ← hc, if_neg hgood, if_pos hfull]
    · intro hroom hu
      simp only [markBad, if_neg hbusy, ← hn, ← hc, if_neg hgood, if_neg (Nat.not_le.mpr hroom), hu]

/-- The registers once the append of a mark has ended. -/
def markEnded (ok : Bool) (j : Nat) (s : State) : State :=
  ((s.clr F.STO_MBRES_BUSY).put F.STO_STAT_GBCOUNT (j + 1)).put F.STO_MBRES_RESULT (if ok then 0 else 3)

theorem markEnded_regs {t : State} (h : t.regs = s.regs) (ok : Bool) (j : Nat) : (markEnded ok j t).regs = (markEnded ok j s).regs := by
  simp only [markEnded, State.clr, State.put, State.wr, State.rd, h]

theorem markBadDone_regs {ok : Bool} {n c : Nat} (hmark : s.sto.mbad = some (n, c)) :
    (markBadDone ok s).sto.mbad = none ∧ (markBadDone ok s).regs = (markEnded ok (s.get F.STO_STAT_GBCOUNT) s).regs := by
  obtain ⟨w, hw⟩ : ∃ w : State, w = s.infoWrite 16 (0x1000 + 8 * s.get F.STO_STAT_GBCOUNT)
    (leBytes 2 n ++ leBytes 2 (if ok then 65535 - n else 0) ++ leBytes 1 c ++ zeros 3) := ⟨_, rfl⟩
  have hregs : w.regs = s.regs := by rw [hw]; rfl
  simp only [markBadDone, hmark, ← hw]
  have hend := markEnded_regs (t := { w with sto := { w.sto with mbad := none } }) hregs ok (s.get F.STO_STAT_GBCOUNT)
  exact ⟨ite_keeps (fun u => u.sto.mbad) rfl rfl, ite_keeps State.regs hend hend⟩

theorem markBadDone_shows {ok : Bool} {n c : Nat} (hmark : s.sto.mbad = some (n, c)) (hs : s.regsWf = true)
    (hroom : s.get F.STO_STAT_GBCOUNT < 1024) : (markBadDone ok s).sto.mbad = none ∧
      (markBadDone ok s).get F.STO_STAT_GBCOUNT = s.get F.STO_STAT_GBCOUNT + 1 ∧
      (markBadDone ok s).get F.STO_MBRES_RESULT = if ok then 0 else 3 := by
  obtain ⟨hmark', hregs⟩ := markBadDone_regs (ok := ok) hmark
  have hget : ∀ f, (markBadDone ok s).get f = (markEnded ok (s.get F.STO_STAT_GBCOUNT) s).get f :=
    fun f => get_of_rd (by rw [State.rd, hregs, State.rd])
  have h1 := regsWf_put F.STO_MBRES_BUSY 0 hs
  have h2 := regsWf_put F.STO_STAT_GBCOUNT (s.get F.STO_STAT_GBCOUNT + 1) h1
  refine ⟨hmark', ?_, ?_⟩
  · rw [hget, markEnded, State.clr, get_put_apart _ h2 (by decide) (by decide) (by decide), get_put_same _ h1 (by decide)]
    exact Nat.mod_eq_of_lt (Nat.lt_of_lt_of_le (Nat.succ_lt_succ hroom) (by decide))
  · rw [hget, markEnded, State.clr, get_put_same _ h2 (by decide)]
    cases ok <;> rfl

theorem exec_wprotWrite {m : Master} {v : Word} (hm : gated s m = false) : exec (.wprotWrite m v) s = .next (wprotWrite m v s) :=
  congrArg Host.Outcome.next (byCore_of_not_gated hm)

theorem bankPowerDown_clauses :
    (s.bit F.STO_BPD_REQ b.toNat = true → (s.bank b.toNat).prog = none → (s.bank b.toNat).erase = none →
      (s.bank b.toNat).infoErase = false → b ≠ 2 → b ≠ 3 → bankPowerDown b false s = s.setIn F.STO_BPDS_DOWN b.toNat) ∧
    (∀ x, b = 2 ∨ b = 3 → bankPowerDown b x s = s) := by
  constructor
  · intro hreq hprog herase hinfo h2 h3
    refine if_pos ?_
    simpa [hreq, hprog, herase, hinfo] using ⟨h2, h3⟩
  · rintro x (rfl | rfl) <;> exact if_neg (by simp)

theorem storeScanDone_shows (hready : s.on F.STO_STAT_READY = false) (hs : s.regsWf = true) (hbanks : s.banksWf = true) :
    ∃ u t : State, exec .storeScanDone s = .next t ∧ t = (u.raiseBit F.STO_STAT_READY).interruptedRecords ∧
      u.get F.STO_STAT_GBCOUNT = s.grownUsed % 2048 ∧ u.get F.STO_STAT_FBCOUNT = leNat (s.infoBytes 16 12 2) % 256 ∧
      ∀ b, b < 16 → (u.bank b).inc = s.infoIncomplete b := by
  have hscan := storeScanDone_of_waiting hready
  have hinfo := scanBanks_info (s := s) (List.range 16)
  have hinc := inc_scanBanks (List.range 16) hbanks
  have hregs := regsWf_scanBanks hs (List.range 16)
  generalize State.each scanBank (List.range 16) s = u at hscan hinfo hinc hregs
  obtain ⟨hgrown, hfactory⟩ := scanCounts_clauses hregs
  rw [grownUsed_congr hinfo] at hgrown
  rw [infoBytes_congr hinfo] at hfactory
  exact ⟨scanCounts u, _, congrArg Host.Outcome.next hscan, rfl, hgrown, hfactory,
    fun b hb => (hinc b).trans (if_pos (List.mem_range.mpr hb))⟩

end StoreDie

/-- Settles O16: the ends of the Store die's operations and its own registers, case by case. -/
theorem storeOperationsComplete : Obligations.StoreOperationsComplete := by
  unfold Obligations.StoreOperationsComplete
  refine ⟨fun b l s u p hprog hreq => ⟨fun hu => ?_, fun hu => congrArg Host.Outcome.next (programDone_failed hprog hreq hu)⟩,
    fun b l s p m hprog hreq hwait hnone hmode hs hbanks => ?_, fun b l s u op herase hsusp hdue hreq => ⟨fun hu => ⟨?_, ?_⟩, fun hu => ?_⟩,
    fun s hready hs hbanks => storeScanDone_shows hready hs hbanks,
    fun b s h => congrArg Host.Outcome.next (infoRowEraseDone_clauses.1 h),
    fun b s h => congrArg Host.Outcome.next (infoRowEraseDone_clauses.2 h),
    fun v s u n c hn hc hidle => ?_, fun v s h => congrArg Host.Outcome.next (if_pos h),
    fun ok s n c hmark hs hroom => ⟨_, rfl, markBadDone_shows hmark hs hroom⟩, fun v s h => ?_, fun m v s hm h => ?_,
    fun b s hreq hprog herase hinfo h2 h3 => congrArg Host.Outcome.next (bankPowerDown_clauses.1 hreq hprog herase hinfo h2 h3),
    fun b x s h => congrArg Host.Outcome.next (bankPowerDown_clauses.2 x h)⟩
  · obtain ⟨hcore, hdma⟩ := programDone_verified (l := l) hprog hu
    exact ⟨fun m h => congrArg Host.Outcome.next (hcore m h), fun c h => congrArg Host.Outcome.next (hdma c h)⟩
  · obtain ⟨t, ht, hshows⟩ := programDone_failed_shows (l := l) hprog hreq hwait hnone hmode hs hbanks
    exact ⟨t, congrArg Host.Outcome.next ht, hshows⟩
  · exact congrArg Host.Outcome.next ((eraseDone_clauses herase hsusp hdue hreq).1 hu)
  · intro a hlow hhigh c hc
    rw [hu] at hc
    exact ne_of_mem_stoErase hlow hhigh hc
  · exact congrArg Host.Outcome.next ((eraseDone_clauses herase hsusp hdue hreq).2 hu)
  · obtain ⟨hrefused, htaken⟩ := markBad_clauses (u := u) hn hc hidle
    refine ⟨fun h => congrArg Host.Outcome.next (hrefused h), fun h0 h1 h2 h3 h4 h5 => ?_⟩
    obtain ⟨hfull, hstarts⟩ := htaken h0 h1 h2 h3 h4 h5
    exact ⟨fun h => congrArg Host.Outcome.next (hfull h), fun h hu => congrArg Host.Outcome.next (hstarts h hu)⟩
  · exact (exec_wprotWrite gated_sec).trans (congrArg Host.Outcome.next (if_pos ⟨rfl, by simp [h]⟩))
  · exact (exec_wprotWrite hm).trans (congrArg Host.Outcome.next (if_neg fun hboth => h.elim (· hboth.1) fun hlock => by simp [hlock] at hboth))

end Sys2Proof.Proofs

/-! PROOFS. The words of the wedge sequencer, its halts and its serial ports (R193 to R198, R230). -/

namespace Sys2Proof.Proofs

open Sys2Proof Sys2Proof.Machine

/-! ### The end of an operation of the channel leaves the servo block alone -/

section Gate

variable {s : State}

theorem sramWrite_srv (a : Nat) (bs : List Byte) : (s.sramWrite a bs).srv = s.srv := rfl

theorem bufWrite_srv (a : Nat) (bs : List Byte) : (s.bufWrite a bs).srv = s.srv := rfl

theorem writeback_srv (c cause detail : Nat) : (s.writeback c cause detail).srv = s.srv := by
  obtain ⟨h, _⟩ | ⟨_, _, h⟩ | ⟨_, _, h⟩ := writeback_cases s c cause detail <;> simp only [h, sramWrite_srv, bufWrite_srv]

theorem chOpEnd_srv (c t res : Nat) : (s.chOpEnd c t res).srv = s.srv := by
  unfold State.chOpEnd
  exact ite_keeps State.srv ((chHalt_keeps State.srv (fun _ _ _ => rfl) fun _ _ => rfl).trans (writeback_srv _ _ _)) rfl

theorem mopDone_srv (t res ndone nfail iter : Nat) : (s.mopDone t res ndone nfail iter).srv = s.srv := by
  unfold State.mopDone
  exact (chOpEnd_srv _ _ _).trans (ite_keeps State.srv rfl rfl)

theorem chnStat_srv : s.chnStat.srv = s.srv := by
  unfold State.chnStat
  simp only
  split <;> rfl

theorem setOp_srv (o : MOp) : (s.setOp o).srv = s.srv := rfl

theorem loopFree_srv (ws : List Word × State) (i : Nat) : (loopFree ws i).2.srv = ws.2.srv := by
  refine foldl_keeps (fun p : List Word × State => p.2.srv) ?_ _ _
  exact fun _ _ => rfl

theorem adapt_srv (t : Nat) (m : Samples) : (s.adapt t m).srv = s.srv := by
  unfold State.adapt
  split
  · rfl
  · refine ite_keeps State.srv rfl ?_
    refine (setOp_srv _).trans ?_
    refine (foldl_keeps (fun p : List Word × State => p.2.srv) ?_ _ _).trans rfl
    intro ws i
    split
    · rfl
    · split
      · split
        · exact loopFree_srv _ _
        · rfl
      · split
        · exact loopFree_srv _ _
        · rfl

theorem adaptSave_srv (t : Nat) : (s.adaptSave t).srv = s.srv := by
  have hlast : ∀ c : Prop, ∀ [Decidable c], (if c then s.adapt t {} else s).srv = s.srv := fun c _ => ite_keeps State.srv (adapt_srv _ _) rfl
  unfold State.adaptSave
  simp only
  split
  · refine ite_keeps State.srv (hlast _) ?_
    refine (each_keeps State.srv ?_ _ _).trans (hlast _)
    exact fun _ _ => rfl
  · exact hlast _

theorem slewTo_srv (k : Nat) : (s.slewTo k).srv = s.srv := by
  unfold State.slewTo
  exact ite_keeps State.srv rfl rfl

theorem opEnd_srv (t res : Nat) : (s.opEnd t res).srv = s.srv := by
  unfold State.opEnd
  split
  · exact mopDone_srv _ _ _ _ _
  · refine chnStat_srv.trans ((mopDone_srv _ _ _ _ _).trans (ite_keeps State.srv ?_ ?_))
    · split
      · refine (slewTo_srv _).trans ?_
        exact ite_keeps State.srv rfl (adaptSave_srv _)
      · exact ite_keeps State.srv rfl (adaptSave_srv _)
    · exact ite_keeps State.srv rfl (adaptSave_srv _)

theorem sresCount_srv (res : Nat) : (s.sresCount res).srv = s.srv := by
  unfold State.sresCount
  repeat' refine ite_keeps State.srv rfl ?_
  rfl

theorem chnCloseGate_srv (cause : Nat) : (s.chnCloseGate cause).srv = s.srv := by
  unfold State.chnCloseGate
  split
  · exact (opEnd_srv _ _).trans (sresCount_srv _)
  · rfl

end Gate

section Words

variable {s u a : State} {w : BitVec 128} {pc n : Nat} {f : Captures}

/-! ### Captures leave a pending conversion alone -/

theorem wusRise_srv (cause : Nat) : (s.wusRise cause).srv = s.srv := by
  unfold State.wusRise
  exact ite_keeps State.srv rfl (chnCloseGate_srv _)

theorem paFall_conv : s.paFall.srv.conv = s.srv.conv := by
  unfold State.paFall
  refine (congrArg SrvState.conv ((wusRise_srv 1).trans (chnCloseGate_srv 3))).trans ?_
  exact ite_keeps (fun t => t.srv.conv) rfl rfl

theorem paLevel_conv (low : Bool) : (s.paLevel low).srv.conv = s.srv.conv := by
  unfold State.paLevel
  exact ite_keeps (fun t => t.srv.conv) paFall_conv rfl

theorem showTid_srv : s.showTid.srv = s.srv := by
  unfold State.showTid
  split <;> rfl

theorem groupDone_conv (g : Nat) (l : List (BitVec 64)) : (s.groupDone g l).srv.conv = s.srv.conv := by
  unfold State.groupDone
  simp only
  split <;> rfl

theorem capture_conv (f : Captures) : (s.capture f).srv.conv = s.srv.conv := by
  unfold State.capture
  refine (each_keeps (fun t => t.srv.conv) ?_ _ _).trans ((congrArg SrvState.conv showTid_srv).trans (paLevel_conv _))
  exact fun g t => ite_keeps (fun t => t.srv.conv) (groupDone_conv _ _) rfl

/-! ### One word -/

/-- A word with a SEQ code of Table 8.2 takes its actions and goes where `go` says. -/
theorem wsqExec_of_runs {seq : Nat} {go : BitVec 128 → Nat → Bool → State → State} (hrun : wsqRuns s = true) (hw : w = curWord s)
    (hpc : pc = s.get F.WSQ_PC_PC) (hu : u = (s.wsqTime (wordCycles s n) f).wsqCycles 1) (ha : a = u.wsqActions w)
    (hseq : wSeq w = seq) : s.wsqExec n f seq go = ((go w pc (wCond u w) a).wsqStat).chSettle := by
  subst hw hpc hu ha
  exact if_neg (by simp [hrun, hseq])

theorem wsqFault_of_runs (hw : w = curWord s) (hu : u = (s.wsqTime (wordCycles s n) f).wsqCycles 1) (ha : a = u.wsqActions w) :
    s.wsqFault n f = (a.wsqForced false).chSettle := by
  subst hw hu ha
  rfl

theorem wsqFlow_clauses (hrun : wsqRuns s = true) (hw : w = curWord s) (hpc : pc = s.get F.WSQ_PC_PC)
    (hu : u = (s.wsqTime (wordCycles s n) f).wsqCycles 1) (ha : a = u.wsqActions w) :
    (wSeq w = 0 → wsqCont n f s = ((a.wsqGoto (pc + 1)).wsqStat).chSettle) ∧
    (wSeq w = 1 → wsqJump n f s = ((a.wsqGoto (wNext w)).wsqStat).chSettle) ∧
    (wSeq w = 2 → wsqBranch n f s = ((a.wsqGoto (if wCond u w then wNext w else pc + 1)).wsqStat).chSettle) ∧
    (wSeq w = 3 → wsqWait n f s = ((if wCond u w then a.wsqGoto (pc + 1)
      else { a with wsq := { a.wsq with waiting := true } }).wsqStat).chSettle) ∧
    (wSeq w = 6 → wsqDispatch n f s = ((a.wsqGoto ((wNext w + a.get F.WSQ_ARG_ARG % 32) % 16384)).wsqStat).chSettle) ∧
    (wSeq w = 7 → wsqHalt n f s = (((a.put F.WSQ_PC_RSM (wNext w)).wsqHalted).wsqStat).chSettle) :=
  ⟨wsqExec_of_runs hrun hw hpc hu ha, wsqExec_of_runs hrun hw hpc hu ha, wsqExec_of_runs hrun hw hpc hu ha,
    wsqExec_of_runs hrun hw hpc hu ha, wsqExec_of_runs hrun hw hpc hu ha, wsqExec_of_runs hrun hw hpc hu ha⟩

theorem wsqStack_clauses (hrun : wsqRuns s = true) (hw : w = curWord s) (hpc : pc = s.get F.WSQ_PC_PC)
    (hu : u = (s.wsqTime (wordCycles s n) f).wsqCycles 1) (ha : a = u.wsqActions w) :
    (wSeq w = 4 → s.wsq.stack.length < 4 → wsqCall n f s = ((({ a with
      wsq := { a.wsq with stack := (pc + 1) % 16384 :: a.wsq.stack } } : State).wsqGoto (wNext w)).wsqStat).chSettle) ∧
    (wSeq w = 5 → s.wsq.stack ≠ [] → wsqRet n f s = ((({ a with
      wsq := { a.wsq with stack := a.wsq.stack.drop 1 } } : State).wsqGoto (a.wsq.stack.headD 0)).wsqStat).chSettle) ∧
    (8 ≤ wSeq w → wsqIllegal n f s = (a.wsqForced false).chSettle) ∧
    (wSeq w = 4 → 4 ≤ s.wsq.stack.length → wsqCall n f s = (a.wsqForced false).chSettle) ∧
    (wSeq w = 5 → s.wsq.stack = [] → wsqRet n f s = (a.wsqForced false).chSettle) := by
  have hfault := wsqFault_of_runs hw hu ha
  refine ⟨fun hseq hroom => ?_, fun hseq hsome => ?_, fun hseq => ?_, fun hseq hfull => ?_, fun hseq hnone => ?_⟩
  · exact (if_neg fun h => absurd h.2.2 (Nat.not_le.mpr hroom)).trans (wsqExec_of_runs hrun hw hpc hu ha hseq)
  · exact (if_neg fun h => hsome h.2.2).trans (wsqExec_of_runs hrun hw hpc hu ha hseq)
  · exact (if_pos ⟨hrun, hw ▸ hseq⟩).trans hfault
  · exact (if_pos ⟨hrun, hw ▸ hseq, hfull⟩).trans hfault
  · exact (if_pos ⟨hrun, hw ▸ hseq, hnone⟩).trans hfault

theorem wsqWaitSatisfied_clauses (hwait : wsqWaits s n = true) (hu : u = (s.wsqTime n f).wsqCycles n) :
    (wCond u (curWord u) = true → wsqWaitSatisfied n f s =
      ({ u with wsq := { u.wsq with waiting := false } } : State).wsqGoto (s.get F.WSQ_PC_PC + 1)) ∧
    (wCond u (curWord u) = false → wsqWaitSatisfied n f s = s) := by
  have hgo : ¬ ¬ wsqWaits s n = true := not_not_intro hwait
  constructor
  · intro hcond
    simp only [wsqWaitSatisfied, if_neg hgo, ← hu, if_pos hcond]
    rfl
  · intro hcond
    simp only [wsqWaitSatisfied, if_neg hgo, ← hu, hcond, Bool.false_eq_true, if_false]

theorem wsqWatchdog_clauses (hgo : wsqGoing s = true) :
    (s.wsq.waiting = true → s.get F.WSQ_CTL_WDLIM ≤ s.wsq.wd + n →
      wsqWatchdog n f s = (((s.wsqTime n f).wsqCycles n).wsqForced true).chSettle) ∧
    (s.wsq.waiting = false → s.get F.WSQ_CTL_WDLIM ≤ s.wsq.wd + 1 →
      wsqWatchdog n f s = (((s.wsqTime (wordCycles s n) f).wsqCycles 1).wsqForced true).chSettle) := by
  constructor
  · intro hwait hlim
    simp only [wsqWatchdog, hwait, if_true]
    exact if_pos ⟨hgo, hlim⟩
  · intro hwait hlim
    simp only [wsqWatchdog, hwait, Bool.false_eq_true, if_false]
    exact if_pos ⟨hgo, hlim⟩

/-! ### Frames and the window timer -/

theorem preampFrameDone_clauses {d : BitVec 16} (hrun : domainRuns s 11 = true) :
    (s.wsq.busy0 = some d → preampFrameDone false s =
      { (if serialBalls s false then s.emit (.preamp false d) else s) with wsq := { s.wsq with busy0 := none } }) ∧
    (s.wsq.busy1 = some d → preampFrameDone true s =
      { (if serialBalls s true then s.emit (.preamp true d) else s) with wsq := { s.wsq with busy1 := none } }) := by
  have hgo : ¬ ¬ domainRuns s 11 = true := not_not_intro hrun
  constructor
  · intro hbusy
    simp only [preampFrameDone, if_neg hgo, Bool.false_eq_true, if_false, hbusy]
    split <;> rfl
  · intro hbusy
    simp only [preampFrameDone, if_neg hgo, if_true, hbusy]
    split <;> rfl

theorem exec_wsqPaqWrite {m : Master} {v : Word} (hm : gated s m = false) : exec (.wsqPaqWrite m v) s = .next (wsqPaqWrite v s) :=
  congrArg Host.Outcome.next (byCore_of_not_gated hm)

theorem wsqPaqWrite_clauses {v : Word} :
    (8 ≤ s.wsq.paq.length → wsqPaqWrite v s = s.raiseBit F.WSQ_FLAG_PAQFULL) ∧
    (s.wsq.paq.length < 8 → wsqPaqWrite v s = ({ s with wsq := { s.wsq with
      paq := s.wsq.paq ++ [(v.getLsbD 16, BitVec.ofNat 16 (bitsOf v 15 0))] } } : State).wsqStat) :=
  ⟨fun h => if_pos h, fun h => if_neg (Nat.not_le.mpr h)⟩

/-- The window timer runs out with an armed group incomplete: a BURST miss (R230). -/
theorem wsqTime_expired (hopen : s.wsq.win ≠ 0) (hend : s.wsq.win ≤ n) (hconv : s.srv.conv = true) (hgroup : groupsDone (s.capture f) = false) :
    s.wsqTime n f = (((s.capture f).onWsq fun q => { q with win := q.win - n }).onSrv fun v => { v with conv := false }).missCur 3 := by
  have hconv' : (s.capture f).srv.conv = true := (capture_conv f).trans hconv
  exact if_pos ⟨hopen, hend, hconv', Bool.eq_false_iff.mp hgroup⟩

theorem burstWindowExpiry_clauses (hopen : s.wsq.win ≠ 0) (hend : s.wsq.win ≤ n) (hconv : s.srv.conv = true)
    (hgroup : groupsDone (s.capture f) = false) :
    (wsqGoing s = false → burstWindowExpiry n f s = ((((s.capture f).onWsq fun q => { q with
      win := q.win - n }).onSrv fun v => { v with conv := false }).missCur 3).chSettle) ∧
    (wsqWaits s n = true → burstWindowExpiry n f s = (((((s.capture f).onWsq fun q => { q with
      win := q.win - n }).onSrv fun v => { v with conv := false }).missCur 3).wsqCycles n).chSettle) := by
  have hmiss : ¬ (s.wsq.win = 0 ∨ n < s.wsq.win ∨ ¬ s.srv.conv = true ∨ groupsDone (s.capture f) = true) := by
    simp [hopen, hend, hconv, hgroup]
  constructor
  · intro hhalt
    rw [burstWindowExpiry, if_neg hmiss, if_neg (by simp [wsqWaits, hhalt]), if_neg (by simp [hhalt]),
      wsqTime_expired hopen hend hconv hgroup]
  · intro hwait
    rw [burstWindowExpiry, if_neg hmiss, if_pos hwait, wsqTime_expired hopen hend hconv hgroup]

end Words

/-- Settles O18: a word by its SEQ code, a wait by its condition, a halt by the stack, the code or the watchdog. -/
theorem wedgeSequencerWordsComplete : Obligations.WedgeSequencerWordsComplete := by
  unfold Obligations.WedgeSequencerWordsComplete
  refine ⟨fun n f s u a w pc hrun hw hpc hu ha => ?_, fun n f s u hwait hu => ?_, fun n f s hgo => ?_, fun d s hrun => ?_,
    fun m v s hm => ?_, fun n f s hopen hend hconv hgroup => ?_⟩
  · obtain ⟨hcont, hjump, hbranch, hwaits, hdispatch, hhalt⟩ := wsqFlow_clauses hrun hw hpc hu ha
    obtain ⟨hcall, hret, hillegal, hfull, hempty⟩ := wsqStack_clauses hrun hw hpc hu ha
    exact ⟨fun h => congrArg Host.Outcome.next (hcont h), fun h => congrArg Host.Outcome.next (hjump h),
      fun h => congrArg Host.Outcome.next (hbranch h), fun h => congrArg Host.Outcome.next (hwaits h),
      fun h h' => congrArg Host.Outcome.next (hcall h h'), fun h h' => congrArg Host.Outcome.next (hret h h'),
      fun h => congrArg Host.Outcome.next (hdispatch h), fun h => congrArg Host.Outcome.next (hhalt h),
      fun h => congrArg Host.Outcome.next (hillegal h), fun h h' => congrArg Host.Outcome.next (hfull h h'),
      fun h h' => congrArg Host.Outcome.next (hempty h h')⟩
  · obtain ⟨hgoes, hwaits⟩ := wsqWaitSatisfied_clauses hwait hu
    exact ⟨fun h => congrArg Host.Outcome.next (hgoes h), fun h => congrArg Host.Outcome.next (hwaits h)⟩
  · obtain ⟨hwaiting, hword⟩ := wsqWatchdog_clauses (n := n) (f := f) hgo
    exact ⟨fun h h' => congrArg Host.Outcome.next (hwaiting h h'), fun h h' => congrArg Host.Outcome.next (hword h h')⟩
  · obtain ⟨hpa0, hpa1⟩ := preampFrameDone_clauses (d := d) hrun
    exact ⟨fun h => congrArg Host.Outcome.next (hpa0 h), fun h => congrArg Host.Outcome.next (hpa1 h)⟩
  · simp only [exec_wsqPaqWrite hm, Host.Outcome.next.injEq]
    exact wsqPaqWrite_clauses
  · obtain ⟨hhalted, hwaiting⟩ := burstWindowExpiry_clauses hopen hend hconv hgroup
    exact ⟨fun h => congrArg Host.Outcome.next (hhalted h), fun h => congrArg Host.Outcome.next (hwaiting h)⟩

end Sys2Proof.Proofs

/-! PROOFS. The motor sequencer's instructions, and the patch transfer (R201 to R207). -/

namespace Sys2Proof.Proofs

open Sys2Proof Sys2Proof.Machine

section Instructions

variable {s : State} {m w : Word} {x pc : Nat} {d a i : BitVec 16}

/-- A word with its opcode is executed (R201, R203). -/
theorem msqExec_of_fetch {op : Nat} {go : Word → Nat → State → State} (hreset : s.pd.reset = false) (hwait : s.msq.waiting = none)
    (hfetch : msqFetch s.msq m = some (w, x)) (hop : mOp w = op) : s.msqExec m op go = go w ((x + 1) % 65536) s := by
  have hrun : ¬ ¬ msqRuns s = true := by simp [msqRuns, hreset, hwait]
  rw [State.msqExec, if_neg hrun, hfetch]
  exact if_pos hop

theorem msqAlu_of_fetch {op : Nat} {f : BitVec 16 → BitVec 16 → BitVec 16 → BitVec 16} (hreset : s.pd.reset = false)
    (hwait : s.msq.waiting = none) (hfetch : msqFetch s.msq m = some (w, x)) (hop : mOp w = op) :
    s.msqAlu m op f = { s with msq := { s.msq.setG (mGd w) (f (s.msq.g (mGd w)) (s.msq.g (mGa w)) (mImm w)) with pc := (x + 1) % 65536 } } :=
  msqExec_of_fetch hreset hwait hfetch hop

/-! ### The Q15 product -/

theorem toInt_toNat (d : BitVec 16) : toInt 16 d.toNat = d.toInt := by
  have hlt := d.isLt
  rw [BitVec.toInt_eq_toNat_cond, toInt, Nat.mod_eq_of_lt hlt]
  by_cases h : d.toNat < 2 ^ (16 - 1)
  · rw [if_pos h, if_pos (by omega)]
  · rw [if_neg h, if_neg (by omega)]

theorem mul_toInt_bounds (d a : BitVec 16) : -1073741824 ≤ d.toInt * a.toInt ∧ d.toInt * a.toInt ≤ 1073741824 := by
  have hd := BitVec.le_toInt d
  have hd' := BitVec.toInt_lt (x := d)
  have ha := BitVec.le_toInt a
  have ha' := BitVec.toInt_lt (x := a)
  have habs : (d.toInt * a.toInt).natAbs ≤ 32768 * 32768 := by
    rw [Int.natAbs_mul]
    exact Nat.mul_le_mul (by omega) (by omega)
  omega

/-- The product's quotient, rounded either way and saturated, is within one of the exact quotient. -/
theorem mulQ_near (d a : BitVec 16) (up : Bool) :
    if d.toInt * a.toInt = 1073741824 then mulQ d a up = 0x7FFF
    else (mulQ d a up).toInt * 32768 - d.toInt * a.toInt < 32768 ∧ d.toInt * a.toInt - (mulQ d a up).toInt * 32768 < 32768 := by
  obtain ⟨hlow, hhigh⟩ := mul_toInt_bounds d a
  simp only [mulQ, toInt_toNat]
  generalize d.toInt * a.toInt = p at hlow hhigh
  generalize hr : p / 32768 + (if up = true ∧ p % 32768 ≠ 0 then 1 else 0) = r
  have hround : p / 32768 ≤ r ∧ r ≤ p / 32768 + 1 ∧ (p % 32768 = 0 → r = p / 32768) := by
    rw [← hr]
    split <;> omega
  obtain ⟨hle, hup, hwhole⟩ := hround
  by_cases htop : p = 1073741824
  · have hr' : r = 32768 := by rw [hwhole (by omega)]; omega
    rw [if_pos htop, if_pos (by omega)]
    rfl
  · rw [if_neg htop]
    have hsat : (BitVec.ofInt 16 (if 32767 < r then 32767 else r)).toInt = if 32767 < r then 32767 else r := by
      refine BitVec.toInt_ofInt_eq_self (by decide) ?_ ?_ <;> split <;> omega
    rw [hsat]
    split <;> omega

/-! ### One instruction -/

theorem msqData_clauses (hreset : s.pd.reset = false) (hwait : s.msq.waiting = none) (hfetch : msqFetch s.msq m = some (w, x))
    (hpc : pc = (x + 1) % 65536) (hd : d = s.msq.g (mGd w)) (ha : a = s.msq.g (mGa w)) (hi : i = BitVec.ofNat 16 w.toNat) :
    (mOp w = 0 → msqNop m s = { s with msq := { s.msq with pc := pc } }) ∧
    (mOp w = 1 → msqLdi m s = { s with msq := { s.msq.setG (mGd w) i with pc := pc } }) ∧
    (mOp w = 2 → msqAddi m s = { s with msq := { s.msq.setG (mGd w) (a + i) with pc := pc } }) ∧
    (mOp w = 3 → msqAdd m s = { s with msq := { s.msq.setG (mGd w) (d + a) with pc := pc } }) ∧
    (mOp w = 4 → msqSub m s = { s with msq := { s.msq.setG (mGd w) (d - a) with pc := pc } }) ∧
    (mOp w = 5 → msqAndi m s = { s with msq := { s.msq.setG (mGd w) (a &&& i) with pc := pc } }) ∧
    (mOp w = 6 → msqOri m s = { s with msq := { s.msq.setG (mGd w) (a ||| i) with pc := pc } }) ∧
    (mOp w = 7 → msqSra m s = { s with msq := { s.msq.setG (mGd w) (a.sshiftRight (i.toNat % 16)) with pc := pc } }) := by
  subst hpc hd ha hi
  exact ⟨msqExec_of_fetch hreset hwait hfetch, msqAlu_of_fetch hreset hwait hfetch, msqAlu_of_fetch hreset hwait hfetch,
    msqAlu_of_fetch hreset hwait hfetch, msqAlu_of_fetch hreset hwait hfetch, msqAlu_of_fetch hreset hwait hfetch,
    msqAlu_of_fetch hreset hwait hfetch, msqAlu_of_fetch hreset hwait hfetch⟩

theorem msqMulq_clauses (hreset : s.pd.reset = false) (hwait : s.msq.waiting = none) (hfetch : msqFetch s.msq m = some (w, x))
    (hpc : pc = (x + 1) % 65536) (hd : d = s.msq.g (mGd w)) (ha : a = s.msq.g (mGa w)) (hop : mOp w = 8) :
    ∃ v : BitVec 16, (msqMulq m s).msq = { s.msq.setG (mGd w) v with pc := pc } ∧
      (if d.toInt * a.toInt = 1073741824 then v = 0x7FFF
        else v.toInt * 32768 - d.toInt * a.toInt < 32768 ∧ d.toInt * a.toInt - v.toInt * 32768 < 32768) := by
  subst hpc hd ha
  exact ⟨_, congrArg State.msq (msqExec_of_fetch hreset hwait hfetch hop), mulQ_near _ _ _⟩

theorem msqPort_clauses (hreset : s.pd.reset = false) (hwait : s.msq.waiting = none) (hfetch : msqFetch s.msq m = some (w, x))
    (hpc : pc = (x + 1) % 65536) (ha : a = s.msq.g (mGa w)) (hi : i = BitVec.ofNat 16 w.toNat) :
    (mOp w = 9 → ∀ p : BitVec 16, i.toNat % 256 ≠ 0x11 →
      msqIn m p s = { s with msq := { s.msq.setG (mGd w) (portRead s.pd (i.toNat % 256) p) with pc := pc } }) ∧
    (mOp w = 10 → i.toNat % 256 ≠ 0x30 →
      msqOut m s = { s with pd := portWrite s.pd (i.toNat % 256) a, msq := { s.msq with pc := pc } }) ∧
    (mOp w = 10 → i.toNat % 256 = 0x30 →
      msqOut m s = ({ s with msq := { s.msq with pc := pc } } : State).pdFault (a.toNat % 256) (a.toNat / 256)) := by
  subst hpc ha hi
  exact ⟨fun hop p hport => (msqExec_of_fetch hreset hwait hfetch hop).trans (if_neg hport),
    fun hop hport => (msqExec_of_fetch hreset hwait hfetch hop).trans (if_neg hport),
    fun hop hport => (msqExec_of_fetch hreset hwait hfetch hop).trans (if_pos hport)⟩

theorem msqFlow_clauses (hreset : s.pd.reset = false) (hwait : s.msq.waiting = none) (hfetch : msqFetch s.msq m = some (w, x))
    (hpc : pc = (x + 1) % 65536) (ha : a = s.msq.g (mGa w)) (hi : i = BitVec.ofNat 16 w.toNat) :
    (mOp w = 11 → msqBr m s = { s with msq := { s.msq with pc := if msqCond (mCc w) a then i.toNat % 16384 else pc } }) ∧
    (mOp w = 12 → s.msq.stack.length < 4 →
      msqCall m s = { s with msq := { s.msq with stack := pc :: s.msq.stack, pc := i.toNat % 16384 } }) ∧
    (mOp w = 13 → ∀ (r : Nat) (l : List Nat), s.msq.stack = r :: l → msqRet m s = { s with msq := { s.msq with stack := l, pc := r } }) ∧
    (mOp w = 14 → msqWait m s =
      ({ s with msq := { s.msq with pc := pc, waiting := some (i.toNat % 256) } } : State).patchActivate) ∧
    (15 ≤ mOp w → msqIllegal m s = s.msqRecover) := by
  subst hpc ha hi
  refine ⟨msqExec_of_fetch hreset hwait hfetch, fun hop hroom => (msqExec_of_fetch hreset hwait hfetch hop).trans (if_pos hroom),
    fun hop r l hstack => ?_, msqExec_of_fetch hreset hwait hfetch, fun hop => ?_⟩
  · refine (msqExec_of_fetch hreset hwait hfetch hop).trans ?_
    simp only [hstack]
    rfl
  · rw [msqIllegal, if_neg (by simp [msqRuns, hreset, hwait]), hfetch]
    exact if_pos hop

theorem msqIllegal_of_bad_fetch (hreset : s.pd.reset = false) (hwait : s.msq.waiting = none) (hfetch : msqFetch s.msq m = none) :
    msqIllegal m s = s.msqRecover := by
  rw [msqIllegal, if_neg (by simp [msqRuns, hreset, hwait]), hfetch]

theorem msqWaitEvent_of_mask {e : BitVec 8} {k : Nat} (hreset : s.pd.reset = false) (hwait : s.msq.waiting = some k)
    (hevent : BitVec.ofNat 8 k &&& e ≠ 0) : msqWaitEvent e s = { s with msq := { s.msq with waiting := none } } := by
  rw [msqWaitEvent, hwait]
  exact if_neg (by simpa [hreset] using hevent)

end Instructions

/-- Settles O19: each opcode by the word that the fetch gives. -/
theorem motorSequencerInstructionsComplete : Obligations.MotorSequencerInstructionsComplete := by
  unfold Obligations.MotorSequencerInstructionsComplete
  refine ⟨fun m w x pc s d a i hreset hwait hfetch hpc hd ha hi => ?_,
    fun m s hreset hwait hfetch => congrArg Host.Outcome.next (msqIllegal_of_bad_fetch hreset hwait hfetch),
    fun e k s hreset hwait hevent => congrArg Host.Outcome.next (msqWaitEvent_of_mask hreset hwait hevent)⟩
  obtain ⟨hnop, hldi, haddi, hadd, hsub, handi, hori, hsra⟩ := msqData_clauses hreset hwait hfetch hpc hd ha hi
  obtain ⟨hin, hout, hpost⟩ := msqPort_clauses hreset hwait hfetch hpc ha hi
  obtain ⟨hbr, hcall, hret, hwaits, hillegal⟩ := msqFlow_clauses hreset hwait hfetch hpc ha hi
  refine ⟨fun h => congrArg Host.Outcome.next (hnop h), fun h => congrArg Host.Outcome.next (hldi h),
    fun h => congrArg Host.Outcome.next (haddi h), fun h => congrArg Host.Outcome.next (hadd h),
    fun h => congrArg Host.Outcome.next (hsub h), fun h => congrArg Host.Outcome.next (handi h),
    fun h => congrArg Host.Outcome.next (hori h), fun h => congrArg Host.Outcome.next (hsra h), fun h => ?_,
    fun h p h' => congrArg Host.Outcome.next (hin h p h'), fun h h' => congrArg Host.Outcome.next (hout h h'),
    fun h h' => congrArg Host.Outcome.next (hpost h h'), fun h => congrArg Host.Outcome.next (hbr h),
    fun h h' => congrArg Host.Outcome.next (hcall h h'), fun h r l h' => congrArg Host.Outcome.next (hret h r l h'),
    fun h => congrArg Host.Outcome.next (hwaits h), fun h => congrArg Host.Outcome.next (hillegal h)⟩
  obtain ⟨v, hmsq, hnear⟩ := msqMulq_clauses hreset hwait hfetch hpc hd ha h
  exact ⟨v, msqMulq m s, rfl, hmsq, hnear⟩

section Patches

variable {s u : State}

/-- A patch packet of the link takes effect out of reset. -/
theorem patchPacket_of_running {p : Packet} {f : State → State} (hreset : s.pd.reset = false)
    (hu : u = { s with link := s.link.takeDown p }) : patchPacket p f s = f u := by
  rw [hu]
  exact if_neg (by simp [hreset])

theorem patchEnd_clauses (hreset : s.pd.reset = false) (hu : u = { s with link := s.link.takeDown .patchEnd }) :
    (pcrcGood s.msq.image = true → patchEnd s = ({ u with
      msq := { u.msq with shadow := some (patchOf s.msq.image), image := [] } } : State).pdSend (.patchAck true)) ∧
    (pcrcGood s.msq.image = false → patchEnd s = u.pdSend (.patchAck false)) := by
  have himage : u.msq.image = s.msq.image := by rw [hu]
  constructor
  · intro hgood
    refine (patchPacket_of_running hreset hu).trans ?_
    simp only [himage, if_pos hgood]
    rfl
  · intro hbad
    refine (patchPacket_of_running hreset hu).trans ?_
    simp only [himage, hbad, Bool.false_eq_true, if_false]

theorem patchAck_clauses {g : Bool} (hu : u = { s with link := s.link.takeUp (.patchAck g) }) :
    (g = true ∨ s.get F.MSQ_STAT_STATE ≠ 1 → patchAck g s = u) ∧
    (g = false → s.get F.MSQ_STAT_STATE = 1 → s.msq.sends < 3 → patchAck g s = (u.inc F.MSQ_CNT_XFER_CNT).patchSend) ∧
    (g = false → s.get F.MSQ_STAT_STATE = 1 → 3 ≤ s.msq.sends → patchAck g s = (u.inc F.MSQ_CNT_XFER_CNT).patchRefused 4) := by
  subst hu
  refine ⟨fun h => if_pos h, fun hg hstate hmore => ?_, fun hg hstate hlast => ?_⟩
  · have hgo : ¬ (g = true ∨ s.get F.MSQ_STAT_STATE ≠ 1) := by simp [hg, hstate]
    exact (if_neg hgo).trans (if_pos hmore)
  · have hgo : ¬ (g = true ∨ s.get F.MSQ_STAT_STATE ≠ 1) := by simp [hg, hstate]
    exact (if_neg hgo).trans (if_neg (Nat.not_lt.mpr hlast))

end Patches

/-- Settles O20: the packets of a patch and the answer to it. -/
theorem motorPatchCommandsComplete : Obligations.MotorPatchCommandsComplete := by
  unfold Obligations.MotorPatchCommandsComplete
  refine ⟨fun s u hreset hu => congrArg Host.Outcome.next (patchPacket_of_running hreset hu),
    fun k b s u hreset hk hb hu => congrArg Host.Outcome.next ((patchPacket_of_running hreset hu).trans (if_pos hk)),
    fun s u hreset hu => ?_, fun g s u hu => ?_⟩
  · obtain ⟨hgood, hbad⟩ := patchEnd_clauses hreset hu
    exact ⟨fun h => congrArg Host.Outcome.next (hgood h), fun h => congrArg Host.Outcome.next (hbad h)⟩
  · obtain ⟨hdone, hagain, hrefused⟩ := patchAck_clauses hu
    exact ⟨fun h => congrArg Host.Outcome.next (hdone h), fun h h' h'' => congrArg Host.Outcome.next (hagain h h' h''),
      fun h h' h'' => congrArg Host.Outcome.next (hrefused h h' h'')⟩

end Sys2Proof.Proofs

/-! PROOFS. Captures, results, misses, POS and the shock and preamp inputs of the servo block (R215 to R231). -/

namespace Sys2Proof.Proofs

open Sys2Proof Sys2Proof.Machine

/-! ### Reads beside a write of a value that is not the default, in a register file of any form -/

section AnyForm

theorem read_write_of_ne_default {α : Type} [DecidableEq α] {d : Nat → α} {k j : Nat} {v : α} (hv : v ≠ d k) (hne : j ≠ k) :
    ∀ m : List (Nat × α), Sparse.read d (Sparse.write d m k v) j = Sparse.read d m j
  | [] => by
    simp only [Sparse.write, Sparse.cell, if_neg hv, Sparse.read, if_neg hne]
    exact ite_self _
  | (i, x) :: m => by
    by_cases hlt : k < i
    · simp only [Sparse.write, Sparse.cell, if_neg hv, if_pos hlt, List.cons_append, List.nil_append, Sparse.read, if_neg hne]
      split
      · rw [if_neg (by omega), if_pos (by omega)]
      · rfl
    · by_cases heq : k = i
      · simp only [Sparse.write, Sparse.cell, if_neg hv, if_neg hlt, if_pos heq, List.cons_append, List.nil_append, Sparse.read, if_neg hne]
        rw [heq]
        rw [if_neg (by omega : ¬ j = i)]
      · simp only [Sparse.write, if_neg hlt, if_neg heq, Sparse.read, read_write_of_ne_default hv hne m]

/-- A field that is put to a value other than 0, in a register whose reset value is 0, changes no other register. -/
theorem rd_put_of_ne_zero {s : State} {f : Fld} {n k : Nat} (hf : fldOk f = true) (hn : n % 2 ^ (f.hi + 1 - f.lo) ≠ 0)
    (hreset : resetWord f.reg = 0) (hk : k ≠ f.reg) : (s.put f n).rd k = s.rd k := by
  simp only [fldOk, Bool.and_eq_true, decide_eq_true_eq] at hf
  refine read_write_of_ne_default (fun h => hn ?_) hk _
  rw [hreset] at h
  rw [← bitsOf_withBits_same (s.rd f.reg) f.hi f.lo n hf.1 hf.2, h]
  simp [bitsOf]

theorem rd_raiseBit_inc_ne {s : State} {f g : Fld} {k : Nat} (hf : fldOk f = true) (hg : fldOk g = true) (hf0 : resetWord f.reg = 0)
    (hg0 : resetWord g.reg = 0) (hkf : k ≠ f.reg) (hkg : k ≠ g.reg) (hwide : f.lo < f.hi + 1) :
    ((s.raiseBit f).inc g).rd k = s.rd k := by
  have hlt : ∀ n, Nat.min (n + 1) (fldMax g) % 2 ^ (g.hi + 1 - g.lo) ≠ 0 := by
    intro n
    simp only [fldOk, Bool.and_eq_true, decide_eq_true_eq] at hg
    have hpow : 2 ≤ 2 ^ (g.hi + 1 - g.lo) := Nat.le_self_pow (by omega) 2
    have hmax : fldMax g = 2 ^ (g.hi + 1 - g.lo) - 1 := rfl
    have hmin : Nat.min (n + 1) (fldMax g) = min (n + 1) (fldMax g) := rfl
    rw [Nat.mod_eq_of_lt (by omega)]
    omega
  have hone : 1 % 2 ^ (f.hi + 1 - f.lo) ≠ 0 := by
    have hpow : 2 ≤ 2 ^ (f.hi + 1 - f.lo) := Nat.le_self_pow (by omega) 2
    rw [Nat.mod_eq_of_lt (by omega)]
    exact Nat.one_ne_zero
  rw [State.inc, State.addCnt, rd_put_of_ne_zero hg (hlt _) hg0 hkg, State.raiseBit, rd_put_of_ne_zero hf hone hf0 hkf]

end AnyForm

section Servo

variable {s u v : State} {w : SrvWin}

/-! ### Captures and conversions -/

theorem burstEnd_clauses {f : Captures} (hu : u = s.capture f) :
    (u.srv.conv = true → groupsDone u = true →
      burstEnd f s = { u with srv := { u.srv with conv := false, converting := true } }) ∧
    (u.srv.conv = false ∨ groupsDone u = false → burstEnd f s = u) := by
  subst hu
  refine ⟨fun hconv hgroup => if_pos ⟨hconv, hgroup⟩, fun h => if_neg ?_⟩
  rintro ⟨hconv, hgroup⟩
  rcases h with h | h
  · exact Bool.eq_false_iff.mp h hconv
  · exact Bool.eq_false_iff.mp h hgroup

/-- A miss of a window that has had no result. -/
theorem missCur_of_due {c : Nat} (hdue : s.srv.due = true) :
    s.missCur c = ({ s with srv := { s.srv with due := false } } : State).srvMiss c (curWin s) := if_pos hdue

theorem missCur_of_done {c : Nat} (hdue : s.srv.due = false) : s.missCur c = s := if_neg (by simp [hdue])

/-- The state once the converter has ended. -/
def converterEnded (s : State) : State :=
  { s with srv := { s.srv with converting := false, conv := false, armed := 0, samArmed := false, tidArmed := false } }

theorem curWin_converterEnded : curWin (converterEnded s) = curWin s := rfl

theorem converted_clauses {r : Conv} (hdue : s.srv.due = true) (hu : u = converterEnded s) (hw : w = curWin s)
    (hr : r = convert (s.get (F.SRV_RAW_T 0)) (s.get (F.SRV_RAW_T 1)) (s.get (F.SRV_RAW_T 2)) (s.get (F.SRV_RAW_T 3))
      (s.get F.SRV_TID_N) (s.get (F.SRV_HEAD_PGAIN w.head))) :
    (convCause (tidGood s) (s.get F.SRV_TID_N) r = 0 → s.converted = u.srvValid w r) ∧
    (∀ c : Nat, c ≠ 0 → convCause (tidGood s) (s.get F.SRV_TID_N) r = c →
      s.converted = ({ u with srv := { u.srv with due := false } } : State).srvMiss c w) := by
  have hend : s.converted = if ¬ u.srv.due = true then u
      else if convCause (tidGood s) (s.get F.SRV_TID_N) r ≠ 0 then u.missCur (convCause (tidGood s) (s.get F.SRV_TID_N) r)
      else u.srvValid w r := by
    rw [hr, hw, hu]
    rfl
  have hdue' : u.srv.due = true := by rw [hu]; exact hdue
  rw [hend, if_neg (not_not_intro hdue')]
  constructor
  · intro hvalid
    rw [if_neg (not_not_intro hvalid)]
  · intro c hc hcause
    rw [hcause, if_pos hc, missCur_of_due hdue', hw, hu, curWin_converterEnded]

theorem positionConversionDone_clauses {f : SrvLines} {r : Conv} (hrun : s.srv.converting = true)
    (hv : v = (s.shockLevel f.shock).paLevel f.paFault) (hdue : v.srv.due = true) (hu : u = converterEnded v) (hw : w = curWin v)
    (hr : r = convert (v.get (F.SRV_RAW_T 0)) (v.get (F.SRV_RAW_T 1)) (v.get (F.SRV_RAW_T 2)) (v.get (F.SRV_RAW_T 3))
      (v.get F.SRV_TID_N) (v.get (F.SRV_HEAD_PGAIN w.head))) :
    (convCause (tidGood v) (v.get F.SRV_TID_N) r = 0 → positionConversionDone f s = (u.srvValid w r).chSettle) ∧
    (∀ c : Nat, c ≠ 0 → convCause (tidGood v) (v.get F.SRV_TID_N) r = c →
      positionConversionDone f s = (({ u with srv := { u.srv with due := false } } : State).srvMiss c w).chSettle) := by
  have hdone : positionConversionDone f s = (v.converted).chSettle := by
    rw [hv]
    exact if_neg (not_not_intro hrun)
  obtain ⟨hvalid, hmiss⟩ := converted_clauses hdue hu hw hr
  rw [hdone]
  exact ⟨fun h => congrArg State.chSettle (hvalid h), fun c hc h => congrArg State.chSettle (hmiss c hc h)⟩

theorem missedWedge_clauses {c : BitVec 4} (hlow : 1 ≤ c.toNat) (hhigh : c.toNat ≤ 11) :
    (s.srv.due = true → missedWedge c s =
      (({ s with srv := { s.srv with due := false } } : State).srvMiss c.toNat (curWin s)).chSettle) ∧
    (s.srv.due = false → missedWedge c s = s.chSettle) := by
  have hcause : ¬ (c = 0 ∨ 11 < c.toNat) := by
    rintro (rfl | h)
    · exact absurd hlow (by decide)
    · omega
  rw [missedWedge, if_neg hcause]
  exact ⟨fun h => by rw [missCur_of_due h], fun h => by rw [missCur_of_done h]⟩

/-! ### POS -/

/-- SV's registers as the event gives them. -/
def svSeen (f : SvFacts) (s : State) : State :=
  { s with srv := { s.srv with sv := { s.srv.sv with mie := f.mie, mieReg := f.mieReg, mtvec := f.mtvec, pc := f.pc, busy := f.busy } } }

/-- ENTLATE counts where SV is not ready. -/
def posLate (f : SvFacts) (s : State) : State :=
  if posReady f then s else (s.raiseBit F.SRV_EVT_ENTLATE).inc F.SRV_CNT_ENTLATE_CNT

theorem enabled_posLate (f : SvFacts) : (posLate f (svSeen f s)).bit F.SRV_IEN_SRC 0 = s.bit F.SRV_IEN_SRC 0 := by
  have hrd : (posLate f (svSeen f s)).rd R.SRV_IEN = s.rd R.SRV_IEN := by
    unfold posLate
    refine ite_keeps (fun t => t.rd R.SRV_IEN) rfl ?_
    exact rd_raiseBit_inc_ne (s := svSeen f s) (by decide) (by decide) (by decide) (by decide) (by decide) (by decide) (by decide)
  exact congrArg (Nat.testBit · 0) (get_of_rd (f := F.SRV_IEN_SRC) hrd)

theorem posLate_sv (f : SvFacts) : (posLate f (svSeen f s)).srv.sv = (svSeen f s).srv.sv := by
  unfold posLate
  exact ite_keeps (fun t => t.srv.sv) rfl rfl

theorem svPosEntry_clauses {f : SvFacts} {x : State} (hpos : s.on F.SRV_EVT_POS = true) (hx : x = posLate f (svSeen f s)) :
    (s.bit F.SRV_IEN_SRC 0 = true → f.mie = true → f.mieReg.getLsbD 16 = true → svPosEntry f s =
      (({ x with srv := { x.srv with sv := { x.srv.sv with
        mpie := true, mie := false, mepc := if f.divide then f.pc else f.next, mcause := 0x80000010,
        pc := svVector f.mtvec 16, busy := false } } } : State).emit (.coreIrq .sv 16))) ∧
    (s.bit F.SRV_IEN_SRC 0 = false ∨ f.mie = false ∨ f.mieReg.getLsbD 16 = false → svPosEntry f s = x) := by
  have hentry : svPosEntry f s = if x.bit F.SRV_IEN_SRC 0 = true ∧ f.mie = true ∧ f.mieReg.getLsbD 16 = true then
      (x.onSrv fun v => { v with sv := v.sv.take f 16 }).emit (.coreIrq .sv 16) else x := by
    rw [hx]
    exact if_neg (not_not_intro hpos)
  have hbit : x.bit F.SRV_IEN_SRC 0 = s.bit F.SRV_IEN_SRC 0 := by rw [hx, enabled_posLate]
  have hmie : x.srv.sv.mie = f.mie := by rw [hx, posLate_sv]; rfl
  rw [hentry, hbit]
  constructor
  · intro hen hf hreg
    rw [if_pos ⟨hen, hf, hreg⟩, State.onSrv, SvCore.take, hmie, hf]
    rfl
  · intro h
    refine if_neg ?_
    rintro ⟨hen, hf, hreg⟩
    obtain h | h | h := h
    · exact Bool.eq_false_iff.mp h hen
    · exact Bool.eq_false_iff.mp h hf
    · exact Bool.eq_false_iff.mp h hreg

/-! ### Shock and preamp inputs -/

theorem shockEvent_clauses {n : BitVec 1} :
    (connected s (if n = 0 then .shk0 else .shk1) = true →
      u = { s with srv := { s.srv with shkHigh := true, shkLeft := s.get F.SRV_CTL_SHKHOLD } } →
      shockEvent n s = (((u.raiseBit F.SRV_EVT_SHK).inc F.SRV_CNT2_SHK_CNT).wusRise 1).chSettle) ∧
    (connected s (if n = 0 then .shk0 else .shk1) = false → shockEvent n s = s) := by
  constructor
  · intro hball hu
    rw [hu]
    exact if_neg (not_not_intro hball)
  · intro hball
    exact if_pos (by rw [hball]; exact Bool.false_ne_true)

theorem preampFault_clauses {n : BitVec 1} :
    (n = 0 ∨ s.on F.PMX_STRAP_PA_CNT = true → u = (if s.on F.WSQ_STAT_RUN then s.raiseBit F.WSQ_FLAG_PAFLT else s) →
      preampFault n s = ((({ u with srv := { u.srv with paFault := true } } : State).chnCloseGate 3).wusRise 1).chSettle) ∧
    (s.on F.PMX_STRAP_PA_CNT = false → preampFault 1 s = s) := by
  constructor
  · intro hpa hu
    have hone : ¬ (n = 1 ∧ ¬ s.on F.PMX_STRAP_PA_CNT = true) := by
      rintro ⟨rfl, hno⟩
      rcases hpa with h | h
      · exact absurd h (by decide)
      · exact hno h
    rw [preampFault, if_neg hone, State.paFall, ← hu]
    rfl
  · intro hpa
    exact if_pos ⟨rfl, by simp [hpa]⟩

/-! ### SRV_CTL -/

theorem exec_srvModeWrite {m : Master} {x : Word} (hm : gated s m = false) : exec (.srvModeWrite m x) s = .next (srvModeWrite x s) :=
  congrArg Host.Outcome.next (byCore_of_not_gated hm)

/-- SRV_CTL's fields and ONTRK after a write. -/
def modeStored (x : Word) (s : State) : State :=
  ((((s.put F.SRV_CTL_MODE (if bitsOf x 1 0 = 3 then 0 else bitsOf x 1 0)).put F.SRV_CTL_TRCEN (bitsOf x 4 4)).put F.SRV_CTL_MISSLIM
    (Nat.max (bitsOf x 15 8) 1)).put F.SRV_CTL_SHKHOLD (bitsOf x 23 16)).clr F.SRV_STAT_ONTRK

theorem srvModeWrite_clauses {x : Word} (hu : u = modeStored x s) :
    (bitsOf x 1 0 = 2 → srvModeWrite x s = { u with srv := { u.srv with settle := 0 } }) ∧
    (bitsOf x 1 0 ≠ 2 → srvModeWrite x s = (({ u with srv := { u.srv with settle := 0 } } : State).wusRise 1).chSettle) := by
  subst hu
  constructor
  · intro hmode
    refine if_pos ?_
    rw [if_neg (by omega)]
    exact hmode
  · intro hmode
    refine if_neg ?_
    split
    · exact show ¬ (0 = 2) by decide
    · exact hmode

/-- The state with ONTRK's count cleared. -/
def settleCleared (s : State) : State := { s with srv := { s.srv with settle := 0 } }

theorem get_settleCleared (f : Fld) : (settleCleared s).get f = s.get f := rfl

theorem modeStored_shows {x : Word} (hs : s.regsWf = true) (hmode : bitsOf x 1 0 = 2) : (modeStored x s).get F.SRV_CTL_MODE = 2 ∧
    (modeStored x s).on F.SRV_STAT_ONTRK = false ∧ (modeStored x s).get F.SRV_CTL_MISSLIM = Nat.max (bitsOf x 15 8) 1 := by
  have h1 := regsWf_put F.SRV_CTL_MODE (if bitsOf x 1 0 = 3 then 0 else bitsOf x 1 0) hs
  have h2 := regsWf_put F.SRV_CTL_TRCEN (bitsOf x 4 4) h1
  have h3 := regsWf_put F.SRV_CTL_MISSLIM (Nat.max (bitsOf x 15 8) 1) h2
  have h4 := regsWf_put F.SRV_CTL_SHKHOLD (bitsOf x 23 16) h3
  refine ⟨?_, ?_, ?_⟩
  · rw [modeStored, State.clr, get_put_apart _ h4 (by decide) (by decide) (by decide), get_put_apart _ h3 (by decide) (by decide) (by decide),
      get_put_apart _ h2 (by decide) (by decide) (by decide), get_put_apart _ h1 (by decide) (by decide) (by decide),
      get_put_same _ hs (by decide), hmode]
    rfl
  · have hoff : (modeStored x s).get F.SRV_STAT_ONTRK = 0 := get_put_same _ h4 (by decide)
    simp [State.on, hoff]
  · rw [modeStored, State.clr, get_put_apart _ h4 (by decide) (by decide) (by decide), get_put_apart _ h3 (by decide) (by decide) (by decide),
      get_put_same _ h2 (by decide)]
    have hlt := bitsOf_lt x 15 8
    exact Nat.mod_eq_of_lt (Nat.max_lt.2 ⟨hlt, by decide⟩)

end Servo

/-- Settles O21: each event of the servo block, and a write of SRV_CTL. -/
theorem servoCommandsComplete : Obligations.ServoCommandsComplete := by
  unfold Obligations.ServoCommandsComplete
  refine ⟨fun f s u hu => ?_, fun f s v u w r hrun hv hdue hu hw hr => ?_, fun c s hlow hhigh => ?_, fun f s u w hpos hu hw => ?_,
    fun n s u hball hu => congrArg Host.Outcome.next (shockEvent_clauses.1 hball hu),
    fun n s hball => congrArg Host.Outcome.next ((shockEvent_clauses (u := s)).2 hball),
    fun n s u hpa hu => congrArg Host.Outcome.next (preampFault_clauses.1 hpa hu),
    fun s hpa => congrArg Host.Outcome.next ((preampFault_clauses (u := s) (n := 0)).2 hpa),
    fun m v s hm hs hmode => ?_, fun m v s u hm hu => ?_⟩
  · obtain ⟨hends, hwaits⟩ := burstEnd_clauses hu
    exact ⟨fun h h' => congrArg Host.Outcome.next (hends h h'), fun h => congrArg Host.Outcome.next (hwaits h)⟩
  · obtain ⟨hvalid, hmiss⟩ := positionConversionDone_clauses hrun hv hdue hu hw hr
    exact ⟨fun h => congrArg Host.Outcome.next (hvalid h), fun c hc h => congrArg Host.Outcome.next (hmiss c hc h)⟩
  · obtain ⟨hdue, hdone⟩ := missedWedge_clauses (s := s) hlow hhigh
    exact ⟨fun h => congrArg Host.Outcome.next (hdue h), fun h => congrArg Host.Outcome.next (hdone h)⟩
  · obtain ⟨hentry, hlate⟩ := svPosEntry_clauses (f := f) hpos (hw.trans (by rw [hu]; rfl))
    exact ⟨fun h h' h'' => congrArg Host.Outcome.next (hentry h h' h''), fun h => congrArg Host.Outcome.next (hlate h)⟩
  · obtain ⟨hmd, hontrk, hlim⟩ := modeStored_shows hs hmode
    refine ⟨settleCleared (modeStored v s), (exec_srvModeWrite hm).trans (congrArg Host.Outcome.next ((srvModeWrite_clauses rfl).1 hmode)),
      (get_settleCleared _).trans hmd, ?_, (get_settleCleared _).trans hlim, rfl⟩
    rw [State.on, get_settleCleared]
    exact hontrk
  · simp only [exec_srvModeWrite hm, Host.Outcome.next.injEq]
    exact srvModeWrite_clauses hu

end Sys2Proof.Proofs

/-! PROOFS. Servo words in both directions, commits, and the trace port (R62, R64, R222, R223, R229, R234). -/

namespace Sys2Proof.Proofs

open Sys2Proof Sys2Proof.Machine

/-! ### The CRC of a servo word -/

section Word

theorem crc8Bit_lt (c : Nat) (b : Bool) : crc8Bit c b < 256 := by
  unfold crc8Bit
  simp only
  split
  · exact Nat.xor_lt_two_pow (n := 8) (Nat.mod_lt _ (by decide)) (by decide)
  · exact Nat.mod_lt _ (by decide)

theorem crc8_lt (n w : Nat) : crc8 n w < 256 := by
  have hfold : ∀ (l : List Nat) c, c < 256 → l.foldl (fun c i => crc8Bit c (w.testBit i)) c < 256 := by
    intro l
    induction l with
    | nil => exact fun _ h => h
    | cons x l ih => exact fun _ _ => ih _ (crc8Bit_lt _ _)
  exact hfold _ 0 (by decide)

/-- The CRC does not see the bits above those it covers. -/
theorem crc8_add_high {k n : Nat} (hn : n < 2 ^ k) (c : Nat) : crc8 k (n + c * 2 ^ k) = crc8 k n := by
  unfold crc8
  refine foldl_congr_mem (fun a i hi => ?_) 0
  have hlt := List.mem_range.mp hi
  rw [Nat.add_comm, Nat.mul_comm, Nat.testBit_two_pow_mul_add c hn, if_pos hlt]

/-- A word with its CRC in the eight bits above its 48. -/
theorem servoCrc_toNat {n : Nat} (hn : n < 2 ^ 48) : (BitVec.ofNat 56 (n + crc8 48 n * 2 ^ 48)).toNat = n + crc8 48 n * 2 ^ 48 := by
  have hcrc := crc8_lt 48 n
  rw [BitVec.toNat_ofNat, Nat.mod_eq_of_lt (by omega)]

theorem faultBits_lt (p : PdState) (b : Bool) : faultBits p b < 16 := by
  have hbit : ∀ (c : Prop) [Decidable c] (k : Nat), (if c then k else 0) ≤ k := by
    intro c _ k
    split <;> omega
  have h1 := hbit (p.vmotl = true) 1
  have h2 := hbit (p.vin5l = true) 2
  have h3 := hbit (p.retract.isSome = true) 4
  have h4 := hbit ((p.mahz0 || p.mahz1 || p.shut || (p.flt && b)) = true) 8
  unfold faultBits
  omega

/-- The 48 bits of a new status word, before its CRC. -/
def statusBits (p : PdState) (f : Upstream) : Nat :=
  1 + p.seq % 8 * 2 + f.vcm.toNat * 2 ^ 4 + p.ma0.toNat * 2 ^ 20 + p.ma1.toNat * 2 ^ 32 + faultBits p f.persists * 2 ^ 44

theorem upWord_fresh {p : PdState} {f : Upstream} (hreset : p.reset = false) (hfresh : f.fresh = true) (hact : p.act ≠ .fullpark) :
    upWord p f = BitVec.ofNat 56 (statusBits p f + crc8 48 (statusBits p f) * 2 ^ 48) := by
  simp only [upWord, hfresh, hreset, Bool.not_false, Bool.and_self, if_true, if_neg hact, statusBits]

theorem upWord_shows {p : PdState} {f : Upstream} (hreset : p.reset = false) (hfresh : f.fresh = true) (hact : p.act ≠ .fullpark) :
    (upWord p f).toNat % 2 = 1 ∧ (upWord p f).toNat / 2 % 8 = p.seq % 8 ∧ (upWord p f).toNat / 2 ^ 4 % 65536 = f.vcm.toNat ∧
      (upWord p f).toNat / 2 ^ 20 % 4096 = p.ma0.toNat ∧ (upWord p f).toNat / 2 ^ 32 % 4096 = p.ma1.toNat ∧
      (upWord p f).toNat / 2 ^ 44 % 16 = faultBits p f.persists ∧ crc8 48 (upWord p f).toNat = (upWord p f).toNat / 2 ^ 48 := by
  have hvcm := f.vcm.isLt
  have hma0 := p.ma0.isLt
  have hma1 := p.ma1.isLt
  have hfault := faultBits_lt p f.persists
  have hbits : statusBits p f < 2 ^ 48 := by
    unfold statusBits
    omega
  rw [upWord_fresh hreset hfresh hact, servoCrc_toNat hbits, crc8_add_high hbits]
  generalize crc8 48 (statusBits p f) = c
  unfold statusBits
  refine ⟨?_, ?_, ?_, ?_, ?_, ?_, ?_⟩ <;> omega

end Word

section Link

variable {s u : State}

/-! ### The upstream word at the SRV -/

theorem upstreamServoWord_clauses {f : Upstream} {w : BitVec 56} (hw : w = upWord s.pd f ^^^ f.flips)
    (hu : u = { s with pd := { s.pd with upLast := upWord s.pd f, flt := s.pd.flt && f.persists } }) :
    (crc8 48 w.toNat = w.toNat / 2 ^ 48 → upstreamServoWord f s = (((((u.put F.SRV_LNK_RSEQ (w.toNat / 2 % 8)).put
      F.SRV_LNK_FAULT (w.toNat / 2 ^ 44)).put F.SRV_SENSE_LO_VCMS (w.toNat / 2 ^ 4)).put F.SRV_SENSE_LO_MA0S (w.toNat / 2 ^ 20)).put
        F.SRV_SENSE_HI_MA1S (w.toNat / 2 ^ 32)).onSrv fun v => { v with sent := v.sent.erase (w.toNat / 2 % 8) }) ∧
    (crc8 48 w.toNat ≠ w.toNat / 2 ^ 48 → upstreamServoWord f s = u) := by
  have hpd : (s.onPd fun p => { p with upLast := upWord s.pd f, flt := p.flt && f.persists }) = u := hu.symm
  constructor
  · intro hgood
    simp only [upstreamServoWord, hpd, ← hw, hgood, ne_eq, not_true_eq_false, if_false]
  · intro hbad
    simp only [upstreamServoWord, hpd, ← hw, if_pos hbad]

/-! ### A commit -/

/-- The registers and the servo slot once SV has committed a command, before its latency is taken. -/
def committed (v : Word) (s : State) : State :=
  let s := s.put F.SRV_CMD_HI_MA1 (bitsOf v 11 0)
  let seq := (s.get F.SRV_LNK_CSEQ + 1) % 8
  let vcm := s.get F.SRV_CMD_LO_VCM
  let w := servoWord seq vcm (s.get F.SRV_CMD_LO_MA0) (bitsOf v 11 0)
  let s := if s.srv.slot.isSome then s.inc F.SRV_CNT2_SUPER_CNT else s
  ((s.put F.SRV_LNK_CSEQ seq).onSrv fun x => { x with slot := some w, vcm := BitVec.ofNat 16 vcm }).clr F.SRV_EVT_POS

theorem servoCommit_of_sv {v : Word} {n : Nat} : servoCommit .sv v n s = ((committed v s).measure n).traceFall :=
  if_neg (not_not_intro rfl)

/-- The state once a replaced command has been counted. -/
def superseded (v : Word) (s : State) : State :=
  if s.srv.slot.isSome then (s.put F.SRV_CMD_HI_MA1 (bitsOf v 11 0)).inc F.SRV_CNT2_SUPER_CNT else s.put F.SRV_CMD_HI_MA1 (bitsOf v 11 0)

theorem regsWf_superseded (hs : s.regsWf = true) (v : Word) : (superseded v s).regsWf = true := by
  unfold superseded
  exact ite_keeps State.regsWf (regsWf_put _ _ (regsWf_put _ _ hs)) (regsWf_put _ _ hs)

theorem get_superseded (hs : s.regsWf = true) (v : Word) {f : Fld} (hf : fldOk f = true) (ha : fldApart F.SRV_CNT2_SUPER_CNT f = true) :
    (superseded v s).get f = (s.put F.SRV_CMD_HI_MA1 (bitsOf v 11 0)).get f := by
  unfold superseded
  exact ite_keeps (fun t => t.get f) (get_put_apart _ (regsWf_put _ _ hs) (by decide) hf ha) rfl

theorem super_superseded (hs : s.regsWf = true) (v : Word) : (superseded v s).get F.SRV_CNT2_SUPER_CNT =
    if s.srv.slot.isSome then Nat.min (s.get F.SRV_CNT2_SUPER_CNT + 1) 255 else s.get F.SRV_CNT2_SUPER_CNT := by
  have hkept := get_put_apart (f := F.SRV_CMD_HI_MA1) (g := F.SRV_CNT2_SUPER_CNT) (bitsOf v 11 0) hs (by decide) (by decide) (by decide)
  unfold superseded
  split
  · rw [State.inc, State.addCnt, get_put_same _ (regsWf_put _ _ hs) (by decide), hkept]
    exact Nat.mod_eq_of_lt (Nat.lt_of_le_of_lt (Nat.min_le_right _ _) (by decide))
  · exact hkept

theorem committed_eq (v : Word) (hs : s.regsWf = true) : committed v s = (((superseded v s).put F.SRV_LNK_CSEQ
    ((s.get F.SRV_LNK_CSEQ + 1) % 8)).onSrv fun x => { x with
      slot := some (servoWord ((s.get F.SRV_LNK_CSEQ + 1) % 8) (s.get F.SRV_CMD_LO_VCM) (s.get F.SRV_CMD_LO_MA0) (bitsOf v 11 0))
      vcm := BitVec.ofNat 16 (s.get F.SRV_CMD_LO_VCM) }).clr F.SRV_EVT_POS := by
  have hget : ∀ f, fldOk f = true → fldApart F.SRV_CMD_HI_MA1 f = true → (s.put F.SRV_CMD_HI_MA1 (bitsOf v 11 0)).get f = s.get f :=
    fun f hf ha => get_put_apart _ hs (by decide) hf ha
  simp only [committed, hget F.SRV_LNK_CSEQ (by decide) (by decide), hget F.SRV_CMD_LO_VCM (by decide) (by decide),
    hget F.SRV_CMD_LO_MA0 (by decide) (by decide)]
  rfl

theorem get_onSrv (g : SrvState → SrvState) (f : Fld) : (s.onSrv g).get f = s.get f := rfl

theorem regsWf_onSrv (g : SrvState → SrvState) : (s.onSrv g).regsWf = s.regsWf := rfl

theorem regsWf_committed (hs : s.regsWf = true) (v : Word) : (committed v s).regsWf = true := by
  rw [committed_eq v hs]
  exact regsWf_put _ _ ((regsWf_onSrv _).trans (regsWf_put _ _ (regsWf_superseded hs v)))

theorem committed_shows (hs : s.regsWf = true) (v : Word) :
    (committed v s).get F.SRV_LNK_CSEQ = (s.get F.SRV_LNK_CSEQ + 1) % 8 ∧ (committed v s).get F.SRV_CMD_HI_MA1 = bitsOf v 11 0 ∧
    (committed v s).get F.SRV_EVT_POS = 0 ∧
    (committed v s).get F.SRV_CNT2_SUPER_CNT = (if s.srv.slot.isSome then Nat.min (s.get F.SRV_CNT2_SUPER_CNT + 1) 255
      else s.get F.SRV_CNT2_SUPER_CNT) := by
  have h1 := regsWf_superseded hs v
  have h2 := regsWf_put F.SRV_LNK_CSEQ ((s.get F.SRV_LNK_CSEQ + 1) % 8) h1
  rw [committed_eq v hs, State.clr]
  refine ⟨?_, ?_, ?_, ?_⟩
  · rw [get_put_apart _ ((regsWf_onSrv _).trans h2) (by decide) (by decide) (by decide), get_onSrv, get_put_same _ h1 (by decide)]
    exact Nat.mod_mod _ _
  · rw [get_put_apart _ ((regsWf_onSrv _).trans h2) (by decide) (by decide) (by decide), get_onSrv,
      get_put_apart _ h1 (by decide) (by decide) (by decide), get_superseded hs v (by decide) (by decide), get_put_same _ hs (by decide)]
    exact Nat.mod_eq_of_lt (bitsOf_lt v 11 0)
  · rw [get_put_same _ ((regsWf_onSrv _).trans h2) (by decide)]
    rfl
  · rw [get_put_apart _ ((regsWf_onSrv _).trans h2) (by decide) (by decide) (by decide), get_onSrv,
      get_put_apart _ h1 (by decide) (by decide) (by decide), super_superseded hs v]

theorem committed_slot (hs : s.regsWf = true) (v : Word) : (committed v s).srv.timed = s.srv.timed ∧ (committed v s).srv.slot =
    some (servoWord ((s.get F.SRV_LNK_CSEQ + 1) % 8) (s.get F.SRV_CMD_LO_VCM) (s.get F.SRV_CMD_LO_MA0) (bitsOf v 11 0)) := by
  have htimed : (superseded v s).srv.timed = s.srv.timed := by
    unfold superseded
    exact ite_keeps (fun t => t.srv.timed) rfl rfl
  rw [committed_eq v hs]
  exact ⟨htimed, rfl⟩

/-! ### What the latency and the trace record leave -/

/-- The highest latency so far. -/
def latencyTop (n : Nat) (s : State) : State := if s.get F.SRV_LAT_MAX < n then s.put F.SRV_LAT_MAX n else s

/-- A latency over the limit. -/
def latencyOver (n : Nat) (s : State) : State :=
  if s.get F.SRV_LATLIM_LIM < n then (s.raiseBit F.SRV_EVT_LATOVR).inc F.SRV_CNT_LATOVR_CNT else s

theorem measure_of_timed {n : Nat} (h : s.srv.timed = true) : s.measure n = latencyOver (Nat.min n 2047) (latencyTop (Nat.min n 2047)
    ((s.onSrv fun v => { v with timed := false }).put F.SRV_LAT_LAST (Nat.min n 2047))) := if_neg (not_not_intro h)

theorem regsWf_latencyTop (hs : s.regsWf = true) (n : Nat) : (latencyTop n s).regsWf = true := by
  unfold latencyTop
  exact ite_keeps State.regsWf (regsWf_put _ _ hs) hs

theorem get_latency (hs : s.regsWf = true) (n : Nat) {f : Fld} (hf : fldOk f = true) (hmax : fldApart F.SRV_LAT_MAX f = true)
    (hover : fldApart F.SRV_EVT_LATOVR f = true) (hcount : fldApart F.SRV_CNT_LATOVR_CNT f = true) :
    (latencyOver n (latencyTop n s)).get f = s.get f := by
  have htop : (latencyTop n s).get f = s.get f := by
    unfold latencyTop
    exact ite_keeps (fun t => t.get f) (get_put_apart _ hs (by decide) hf hmax) rfl
  have hwf := regsWf_latencyTop hs n
  unfold latencyOver
  refine ite_keeps (fun t => t.get f) ?_ htop
  exact (get_put_apart _ (regsWf_put _ _ hwf) (by decide) hf hcount).trans
    ((get_put_apart _ hwf (by decide) hf hover).trans htop)

theorem get_measure (hs : s.regsWf = true) (n : Nat) {f : Fld} (hf : fldOk f = true) (hlast : fldApart F.SRV_LAT_LAST f = true)
    (hmax : fldApart F.SRV_LAT_MAX f = true) (hover : fldApart F.SRV_EVT_LATOVR f = true)
    (hcount : fldApart F.SRV_CNT_LATOVR_CNT f = true) : (s.measure n).get f = s.get f := by
  by_cases htimed : s.srv.timed = true
  · rw [measure_of_timed htimed, get_latency (regsWf_put _ _ ((regsWf_onSrv _).trans hs)) _ hf hmax hover hcount,
      get_put_apart _ ((regsWf_onSrv _).trans hs) (by decide) hf hlast, get_onSrv]
  · exact congrArg (fun t => State.get t f) (if_pos htimed)

theorem last_measure (hs : s.regsWf = true) {n : Nat} (htimed : s.srv.timed = true) :
    (s.measure n).get F.SRV_LAT_LAST = Nat.min n 2047 := by
  rw [measure_of_timed htimed, get_latency (regsWf_put _ _ ((regsWf_onSrv _).trans hs)) _ (by decide) (by decide) (by decide) (by decide),
    get_put_same _ ((regsWf_onSrv _).trans hs) (by decide)]
  exact Nat.mod_eq_of_lt (Nat.lt_of_le_of_lt (Nat.min_le_right n 2047) (by decide))

theorem regsWf_measure (hs : s.regsWf = true) (n : Nat) : (s.measure n).regsWf = true := by
  by_cases htimed : s.srv.timed = true
  · have htop := regsWf_latencyTop (regsWf_put F.SRV_LAT_LAST (Nat.min n 2047) ((regsWf_onSrv (s := s) fun v => { v with timed := false }).trans hs))
      (Nat.min n 2047)
    rw [measure_of_timed htimed, latencyOver]
    exact ite_keeps State.regsWf (regsWf_put _ _ (regsWf_put _ _ htop)) htop
  · rw [State.measure, if_pos htimed]
    exact hs

theorem measure_slot (n : Nat) : (s.measure n).srv.slot = s.srv.slot := by
  by_cases htimed : s.srv.timed = true
  · rw [measure_of_timed htimed, latencyOver, latencyTop]
    refine ite_keeps (fun t => t.srv.slot) ?_ ?_ <;> exact ite_keeps (fun t => t.srv.slot) rfl rfl
  · rw [State.measure, if_pos htimed]

theorem get_traceFall (hs : s.regsWf = true) {f : Fld} (hf : fldOk f = true) (ha : fldApart F.SRV_CNT2_TRCDROP_CNT f = true) :
    s.traceFall.get f = s.get f := by
  unfold State.traceFall
  refine ite_keeps (fun t => t.get f) rfl (ite_keeps (fun t => t.get f) rfl (ite_keeps (fun t => t.get f) ?_ rfl))
  exact get_put_apart _ ((regsWf_onSrv _).trans hs) (by decide) hf ha

theorem traceFall_slot : s.traceFall.srv.slot = s.srv.slot := by
  unfold State.traceFall
  exact ite_keeps (fun t => t.srv.slot) rfl (ite_keeps (fun t => t.srv.slot) rfl (ite_keeps (fun t => t.srv.slot) rfl rfl))

theorem exec_servoCommit {m : Master} {v : Word} {n : Nat} (hm : gated s m = false) :
    exec (.servoCommit m v n) s = .next (servoCommit m v n s) := congrArg Host.Outcome.next (byCore_of_not_gated hm)

theorem servoCommit_shows (hs : s.regsWf = true) (v : Word) (n : Nat) :
    (servoCommit .sv v n s).get F.SRV_LNK_CSEQ = (s.get F.SRV_LNK_CSEQ + 1) % 8 ∧
    (servoCommit .sv v n s).get F.SRV_CMD_HI_MA1 = bitsOf v 11 0 ∧ (servoCommit .sv v n s).on F.SRV_EVT_POS = false ∧
    (servoCommit .sv v n s).srv.slot = some (servoWord ((s.get F.SRV_LNK_CSEQ + 1) % 8) (s.get F.SRV_CMD_LO_VCM)
      (s.get F.SRV_CMD_LO_MA0) (bitsOf v 11 0)) ∧
    (servoCommit .sv v n s).get F.SRV_CNT2_SUPER_CNT = (if s.srv.slot.isSome then Nat.min (s.get F.SRV_CNT2_SUPER_CNT + 1) 255
      else s.get F.SRV_CNT2_SUPER_CNT) ∧
    (s.srv.timed = true → (servoCommit .sv v n s).get F.SRV_LAT_LAST = Nat.min n 2047) := by
  have h1 := regsWf_committed hs v
  have h2 := regsWf_measure h1 n
  obtain ⟨hseq, hma1, hpos, hsuper⟩ := committed_shows hs v
  obtain ⟨htimed, hslot⟩ := committed_slot hs v
  rw [servoCommit_of_sv]
  refine ⟨?_, ?_, ?_, ?_, ?_, fun h => ?_⟩
  · rw [get_traceFall h2 (by decide) (by decide), get_measure h1 n (by decide) (by decide) (by decide) (by decide) (by decide), hseq]
  · rw [get_traceFall h2 (by decide) (by decide), get_measure h1 n (by decide) (by decide) (by decide) (by decide) (by decide), hma1]
  · rw [State.on, get_traceFall h2 (by decide) (by decide),
      get_measure h1 n (by decide) (by decide) (by decide) (by decide) (by decide), hpos]
    rfl
  · rw [traceFall_slot, measure_slot, hslot]
  · rw [get_traceFall h2 (by decide) (by decide), get_measure h1 n (by decide) (by decide) (by decide) (by decide) (by decide), hsuper]
  · rw [get_traceFall h2 (by decide) (by decide), last_measure h1 (htimed.trans h)]

/-! ### Lost commits and trace records -/

theorem cmdlost_clauses :
    (∀ (q : Nat) (l : List Nat), s.srv.sent = q :: l → cmdlost s = (({ s with
      srv := { s.srv with sent := l } } : State).raiseBit F.SRV_EVT_CMDLOST).inc F.SRV_CNT_CMDLOST_CNT) ∧
    (s.srv.sent = [] → cmdlost s = s) := by
  constructor
  · intro q l hsent
    rw [cmdlost, if_neg (by simp [hsent]), State.onSrv, hsent]
    rfl
  · exact fun hsent => if_pos hsent

theorem traceRecord_clauses {r : BitVec 64} (hdue : s.srv.trace = some r) (hu : u = { s with srv := { s.srv with trace := none } }) :
    (s.on F.SRV_CTL_TRCEN = true → traceRecord false s = u.emit (traceOut s r) ∧ traceRecord true s = u.inc F.SRV_CNT2_TRCDROP_CNT) ∧
    (s.on F.SRV_CTL_TRCEN = false → ∀ b : Bool, traceRecord b s = u) := by
  have hon : u.on F.SRV_CTL_TRCEN = s.on F.SRV_CTL_TRCEN := by rw [hu]; rfl
  have hsrv : (s.onSrv fun v => { v with trace := none }) = u := hu.symm
  have hout : traceOut u r = traceOut s r := by rw [hu]; rfl
  have hrecord : ∀ b, traceRecord b s = if ¬ s.on F.SRV_CTL_TRCEN = true then u
      else if b then u.inc F.SRV_CNT2_TRCDROP_CNT else u.emit (traceOut s r) := by
    intro b
    simp only [traceRecord, hdue, hsrv, hon, hout]
  constructor
  · intro hen
    simp only [hrecord, if_neg (not_not_intro hen), Bool.false_eq_true, if_false, if_true, and_self]
  · intro hen b
    rw [hrecord, if_pos (by simp [hen])]

/-! ### The downstream word at the Power die -/

theorem ofNat_shift_eq_extractLsb' (w : BitVec 56) (k n : Nat) : BitVec.ofNat n (w.toNat / 2 ^ k) = w.extractLsb' k n := by
  apply BitVec.eq_of_toNat_eq
  rw [BitVec.toNat_ofNat, BitVec.extractLsb'_toNat, Nat.shiftRight_eq_div_pow]

theorem servoWordReceived_clauses {w : BitVec 56} :
    (s.pd.reset = false → crc8 48 w.toNat = w.toNat / 2 ^ 48 → w.toNat % 2 = 1 → s.pd.act = .loaded → s.pd.mahz0 = false →
      s.pd.mahz1 = false → servoWordReceived w s = { s with
        pd := { s.pd with seq := w.toNat / 2 % 8, vcm := w.extractLsb' 4 16, ma0 := w.extractLsb' 20 12, ma1 := w.extractLsb' 32 12 } }) ∧
    (s.pd.reset = true ∨ (crc8 48 w.toNat = w.toNat / 2 ^ 48 ∧ (w.toNat % 2 = 0 ∨ s.pd.act ≠ .loaded)) → servoWordReceived w s = s) := by
  constructor
  · intro hreset hcrc hvalid hact hma0 hma1
    simp only [servoWordReceived, State.onPd, hreset, hvalid, hact, hma0, hma1, Bool.false_eq_true, if_false, and_self, if_true,
      if_neg (not_not_intro hcrc), ← ofNat_shift_eq_extractLsb']
      <;> rfl
  · intro h
    have hsame : ∀ p : PdState, p = s.pd → { s with pd := p } = s := fun p hp => by rw [hp]
    refine hsame _ ?_
    by_cases hreset : s.pd.reset = true
    · exact if_pos hreset
    · obtain ⟨hcrc, hno⟩ := h.resolve_left hreset
      have hnone : ¬ (w.toNat % 2 = 1 ∧ s.pd.act = .loaded) := by
        rintro ⟨hodd, hact⟩
        rcases hno with h0 | h0
        · omega
        · exact h0 hact
      exact (if_neg hreset).trans ((if_neg (not_not_intro hcrc)).trans (if_neg hnone))

end Link

/-- Settles O22: servo words, commits and trace records, each by its condition. -/
theorem servoLinkCommandsComplete : Obligations.ServoLinkCommandsComplete := by
  unfold Obligations.ServoLinkCommandsComplete
  refine ⟨fun f s w hw hreset hfresh hact => hw ▸ upWord_shows hreset hfresh hact, fun f s u w hw hu => ?_,
    fun v n s hs => ⟨_, exec_servoCommit gated_sv, servoCommit_shows hs v n⟩,
    fun m v n s hm hgate => (exec_servoCommit hgate).trans (congrArg Host.Outcome.next (if_pos hm)),
    fun q l s hsent => congrArg Host.Outcome.next (cmdlost_clauses.1 q l hsent),
    fun s hsent => congrArg Host.Outcome.next (cmdlost_clauses.2 hsent), fun r s u hdue hu => ?_,
    fun w s h0 h1 h2 h3 h4 h5 => congrArg Host.Outcome.next (servoWordReceived_clauses.1 h0 h1 h2 h3 h4 h5),
    fun w s h => congrArg Host.Outcome.next (servoWordReceived_clauses.2 h),
    fun w s hreset hcrc => congrArg Host.Outcome.next (servoWordReceived_of_bad_crc hreset hcrc)⟩
  · obtain ⟨hgood, hbad⟩ := upstreamServoWord_clauses hw hu
    exact ⟨fun h => congrArg Host.Outcome.next (hgood h), fun h => congrArg Host.Outcome.next (hbad h)⟩
  · obtain ⟨hon, hoff⟩ := traceRecord_clauses hdue hu
    exact ⟨fun h => ⟨congrArg Host.Outcome.next (hon h).1, congrArg Host.Outcome.next (hon h).2⟩,
      fun h b => congrArg Host.Outcome.next (hoff h b)⟩

end Sys2Proof.Proofs

/-! PROOFS. Frames of the Finion link, its loss and its recovery (R61 to R66, R251, R252, R504). -/

namespace Sys2Proof.Proofs

open Sys2Proof Sys2Proof.Machine

section Frames

variable {s u : State} {sync hdr : BitVec 8} {pay : BitVec 168} {crc : BitVec 16} {r : Receiver} {p : Option Packet}

theorem logicFrame_clauses {good : Bool} (hgood : good = (framePcrc hdr.toNat pay.toNat == crc.toNat))
    (hr : r = receiveFrame (sync == 0xDD) good (hdr.getLsbD 4) (hdr.setWidth 4) s.link.logic)
    (hp : p = r.sends (hdr.getLsbD 4) s.link.down)
    (hu : u = { s with link := { s.link with
      logic := r.sent p, down := if hdr.getLsbD 4 then s.link.down.drop 1 else s.link.down } }) :
    (good = true → listedType (pay.setWidth 8) = true → finionFrame .logic sync hdr pay crc s = u.emit (frameOut .logic r p)) ∧
    (good = true → listedType (pay.setWidth 8) = false →
      finionFrame .logic sync hdr pay crc s = (u.emit (frameOut .logic r p)).inc F.FLNK_CNT_BADPKT) ∧
    (good = false → finionFrame .logic sync hdr pay crc s = (u.emit (frameOut .logic r p)).inc F.FLNK_CNT_PCRC_CNT) := by
  have hframe : finionFrame .logic sync hdr pay crc s = if ¬ good = true then (u.emit (frameOut .logic r p)).inc F.FLNK_CNT_PCRC_CNT
      else if listedType (pay.setWidth 8) = true then u.emit (frameOut .logic r p)
      else (u.emit (frameOut .logic r p)).inc F.FLNK_CNT_BADPKT := by
    rw [hu, hp, hr, hgood]
    rfl
  rw [hframe]
  refine ⟨fun hcrc htype => ?_, fun hcrc htype => ?_, fun hcrc => ?_⟩
  · rw [if_neg (not_not_intro hcrc), if_pos htype]
  · rw [if_neg (not_not_intro hcrc), if_neg (by simp [htype])]
  · rw [if_pos (by simp [hcrc])]

theorem powerFrame_clauses
    (hr : r = receiveFrame (sync == 0xDD) (framePcrc hdr.toNat pay.toNat == crc.toNat) (hdr.getLsbD 4) (hdr.setWidth 4) s.link.power) :
    (s.pd.reset = false → p = r.sends (hdr.getLsbD 4) s.link.up → u = { s with link := { s.link with
      power := r.sent p, up := if hdr.getLsbD 4 then s.link.up.drop 1 else s.link.up } } →
      finionFrame .power sync hdr pay crc s = (u.emit (frameOut .power r p)).servoSlot) ∧
    (s.pd.reset = true → u = { s with link := { s.link with power := r.sent none } } →
      finionFrame .power sync hdr pay crc s = (u.emit (frameOut .power r none)).servoSlot) := by
  have hsync : (sync == frameSync) = (sync == 0xDD) := rfl
  constructor
  · intro hreset hp hu
    simp only [finionFrame, hsync, ← hr, hreset, Bool.false_eq_true, if_false, ← hp, Bool.not_false, Bool.and_true, hu]
  · intro hreset hu
    simp only [finionFrame, hsync, ← hr, hreset, if_true, Bool.not_true, Bool.and_false, Bool.false_eq_true, if_false, hu]

/-! ### The link goes down and comes up -/

theorem finionLinkDown_power {fx : RetractFacts} {t : Trans} (hup : s.link.power.up = true)
    (hbad : 8 ≤ s.link.power.badSync ∨ 8 ≤ s.link.power.nack) : finionLinkDown .power fx t s = { s with
      link := { s.link with power := { s.link.power with up := false, badSync := 0, nack := 0, good := 0 } }
      pd := retractStart 2 fx { s.pd with vneg := false, vpos := false } } :=
  if_pos (by simpa [hup] using hbad)

theorem finionLinkDown_logic {fx : RetractFacts} {t : Trans} (hup : s.link.logic.up = true)
    (hbad : 8 ≤ s.link.logic.badSync ∨ 8 ≤ s.link.logic.nack) : finionLinkDown .logic fx t s = (((({ s with
      link := { s.link with logic := { s.link.logic with up := false, badSync := 0, nack := 0, good := 0 } } } : State).put
      F.FLNK_STAT_UP 0).put F.FLNK_STAT_LDOWN 1).inc F.FLNK_CNT_LDOWN_CNT |>.retreatTrigger 5 t) :=
  if_pos (by simpa [hup] using hbad)

theorem finionLinkUp_clauses :
    (s.link.logic.up = false → 16 ≤ s.link.logic.good → finionLinkUp .logic s =
      ({ s with link := { s.link with logic := { s.link.logic with up := true } } } : State).put F.FLNK_STAT_UP 1) ∧
    (s.link.power.up = false → 16 ≤ s.link.power.good → finionLinkUp .power s =
      { s with link := { s.link with power := { s.link.power with up := true } } }) :=
  ⟨fun hup hgood => if_pos (by simp [hup, hgood]), fun hup hgood => if_pos (by simp [hup, hgood])⟩

end Frames

/-- Settles O24: a frame by its checks, a receiver by its counts. -/
theorem finionLinkCommandsComplete : Obligations.FinionLinkCommandsComplete := by
  unfold Obligations.FinionLinkCommandsComplete
  refine ⟨fun sync hdr pay crc good r p s u hgood hr hp hu => ?_, fun sync hdr pay crc r s u hr => ⟨fun p hreset hp hu => ?_, fun hreset hu => ?_⟩,
    fun fx t s hup hbad => congrArg Host.Outcome.next (finionLinkDown_power hup hbad),
    fun fx t s hup hbad => congrArg Host.Outcome.next (finionLinkDown_logic hup hbad),
    fun s hup hgood => congrArg Host.Outcome.next (finionLinkUp_clauses.1 hup hgood),
    fun s hup hgood => congrArg Host.Outcome.next (finionLinkUp_clauses.2 hup hgood),
    fun s => ⟨fun hup hreset => congrArg Host.Outcome.next (if_neg (by simp [hup, hreset])),
      fun h => congrArg Host.Outcome.next (if_pos h)⟩, fun s => rfl⟩
  · obtain ⟨hlisted, hunlisted, hbad⟩ := logicFrame_clauses hgood hr hp hu
    exact ⟨fun h h' => congrArg Host.Outcome.next (hlisted h h'), fun h h' => congrArg Host.Outcome.next (hunlisted h h'),
      fun h => congrArg Host.Outcome.next (hbad h)⟩
  · exact congrArg Host.Outcome.next ((powerFrame_clauses hr).1 hreset hp hu)
  · exact congrArg Host.Outcome.next ((powerFrame_clauses (p := none) hr).2 hreset hu)

end Sys2Proof.Proofs

/-! PROOFS. Packets that reach the Power die (Tables 10.2, 10.3 and 10.10; R238 to R251, R504). -/

namespace Sys2Proof.Proofs

open Sys2Proof Sys2Proof.Machine

section Packets

variable {s u : State}

/-! ### Packets in reset and out of it -/

theorem downPacket_of_running {p : Packet} {f : PdState → PdState} (h : s.pd.reset = false) :
    downPacket p f s = { s with link := s.link.takeDown p, pd := f s.pd } := if_neg (by simp [h])

theorem downPacket_of_reset {p : Packet} {f : PdState → PdState} (h : s.pd.reset = true) :
    downPacket p f s = { s with link := s.link.takeDown p } := if_pos h

theorem pd_eta {p : PdState} (h : p = s.pd) : { s with pd := p } = s := by rw [h]

/-! ### The speed error -/

/-- The quotient rounded either way is within one of the exact one. -/
theorem rounded_near {n d : Int} (hd : 0 < d) (up : Bool) :
    (n / d + if up = true ∧ n % d ≠ 0 then 1 else 0) * d - n < d ∧ n - (n / d + if up = true ∧ n % d ≠ 0 then 1 else 0) * d < d := by
  have hmod := Int.emod_nonneg n (Int.ne_of_gt hd)
  have hlt := Int.emod_lt_of_pos n hd
  have hdiv : n / d * d = n - n % d := by
    have := Int.mul_ediv_add_emod n d
    rw [Int.mul_comm] at this
    omega
  split
  · next h =>
    rw [Int.add_mul, hdiv]
    omega
  · rw [Int.add_mul, hdiv]
    omega

theorem spderrMeasurement_locked {t64 : Nat} {n : Int} (hlock : s.on F.FLNK_SPD_LOCK = true) (hatb : s.get F.ATB_STAT_STATE = 2)
    (htarget : s.get F.FLNK_SPD_TARGET ≠ 0) (hn : n = ((t64 : Int) * s.get F.FLNK_SPD_TARGET - 187500000) * 16777216)
    (hlow : -8388608 * 187500000 ≤ n) (hhigh : n ≤ 8388607 * 187500000) :
    ∃ e : Int, e * 187500000 - n < 187500000 ∧ n - e * 187500000 < 187500000 ∧
      spderrMeasurement t64 s = ((s.flnkSend (.spderr (e % 16777216).toNat)).draw).2 := by
  refine ⟨n / 187500000 + if (s.draw.1.getLsbD 0) = true ∧ n % 187500000 ≠ 0 then 1 else 0, (rounded_near (by decide) _).1,
    (rounded_near (by decide) _).2, ?_⟩
  have hlim : ¬ (n / 187500000 + if (s.draw.1.getLsbD 0) = true ∧ n % 187500000 ≠ 0 then 1 else 0) > 8388607 ∧
      ¬ (n / 187500000 + if (s.draw.1.getLsbD 0) = true ∧ n % 187500000 ≠ 0 then 1 else 0) < -8388608 := by
    split <;> omega
  simp only [spderrMeasurement, hlock, hatb, htarget, ne_eq, not_false_eq_true, and_self, if_true, ← hn]
  rw [if_neg hlim.1, if_neg hlim.2]
  rfl

theorem spderrMeasurement_unlocked {t64 : Nat}
    (h : s.on F.FLNK_SPD_LOCK = false ∨ s.get F.ATB_STAT_STATE ≠ 2 ∨ s.get F.FLNK_SPD_TARGET = 0) : spderrMeasurement t64 s = s := by
  refine if_neg ?_
  rintro ⟨hlock, hatb, htarget⟩
  simp [hlock, hatb, htarget] at h

/-! ### Actuator commands (Table 10.2) -/

variable {p : PdState}

theorem actLoad_clauses :
    (p.sp = .atSpeed → p.act = .refpark → actLoad p = { p with act := .moving, moveTo := .loaded, actres := 1 }) ∧
    (inMove p = true → actLoad p = { p with actres := 4 }) ∧
    (p.act = .loaded → actLoad p = { p with actres := 3 }) ∧
    (p.act = .hold → p.sp = .atSpeed → actLoad p = { p with act := .loaded, actres := 1 }) ∧
    (p.act = .fullpark ∨ ((p.act = .refpark ∨ p.act = .hold) ∧ p.sp ≠ .atSpeed) → actLoad p = { p with actres := 2 }) := by
  refine ⟨fun hsp hact => ?_, fun hmove => if_pos hmove, fun hact => ?_, fun hact hsp => ?_, fun h => ?_⟩
  · simp [actLoad, inMove, hact, hsp, moveAct]
  · simp [actLoad, inMove, hact]
  · simp [actLoad, inMove, hact, hsp]
  · obtain hact | ⟨hact | hact, hsp⟩ := h
    · by_cases hsp : p.sp = .atSpeed <;> simp [actLoad, inMove, hact, hsp]
    · simp [actLoad, inMove, hact, hsp]
    · simp [actLoad, inMove, hact, hsp]

theorem actUnload_clauses :
    (p.act = .loaded ∨ p.act = .hold → actUnload p = { p with act := .moving, moveTo := .refpark, actres := 1 }) ∧
    (inMove p = true → actUnload p = { p with actres := 4 }) ∧ (p.act = .refpark → actUnload p = { p with actres := 3 }) ∧
    (p.act = .fullpark → actUnload p = { p with actres := 2 }) := by
  refine ⟨fun h => ?_, fun hmove => if_pos hmove, fun hact => ?_, fun hact => ?_⟩
  · obtain hact | hact := h <;> simp [actUnload, inMove, hact, moveAct]
  · simp [actUnload, inMove, hact]
  · simp [actUnload, inMove, hact]

theorem actPark_clauses :
    (p.act = .refpark ∨ p.act = .loaded ∨ p.act = .hold → actPark p = { p with act := .moving, moveTo := .fullpark, actres := 1 }) ∧
    (inMove p = true → actPark p = { p with actres := 4 }) ∧ (p.act = .fullpark → actPark p = { p with actres := 3 }) := by
  refine ⟨fun h => ?_, fun hmove => if_pos hmove, fun hact => ?_⟩
  · obtain hact | hact | hact := h <;> simp [actPark, inMove, hact, moveAct]
  · simp [actPark, inMove, hact]

/-- A retract that starts (R246). -/
def retractOf (cause : Nat) (fx : RetractFacts) (p : PdState) : Retract :=
  { cause, seen := 2 ^ cause, facts := fx, inHoldup := p.sp == .holdup, fromPark := p.act == .fullpark }

theorem retractStart_idle {cause : Nat} {fx : RetractFacts} (hnone : p.retract = none) :
    (p.reset = false → (p.act = .fullpark → cause = 8) → retractStart cause fx p =
      { p with retract := some (retractOf cause fx p), act := .retracting, ma0 := 0, ma1 := 0 }) ∧
    (p.reset = true ∨ p.act = .fullpark ∧ cause ≠ 8 → retractStart cause fx p = p) := by
  constructor
  · intro hreset hpark
    have hgo : ¬ (p.reset = true ∨ p.act = .fullpark ∧ cause ≠ 8) := by
      rintro (h | ⟨h, h'⟩)
      · exact Bool.eq_false_iff.mp hreset h
      · exact h' (hpark h)
    simp only [retractStart, hnone, if_neg hgo, retractOf]
  · intro h
    simp only [retractStart, hnone, if_pos h]

theorem actRetract_clauses {fx : RetractFacts} (hreset : p.reset = false) (hnone : p.retract = none) :
    (p.act = .refpark ∨ p.act = .loaded ∨ p.act = .hold ∨ p.act = .moving → actRetract fx p =
      { p with retract := some (retractOf 1 fx p), act := .retracting, ma0 := 0, ma1 := 0, actres := 1 }) ∧
    (p.act = .fullpark → actRetract fx p = { p with actres := 3 }) := by
  constructor
  · intro h
    have hidle : ¬ (p.act = .retracting ∨ p.act = .fullpark) := by
      obtain h | h | h | h := h <;> simp [h]
    rw [actRetract, if_neg hidle, (retractStart_idle (p := { p with actres := 1 }) hnone).1 hreset (fun h => absurd (.inr h) hidle)]
    rfl
  · intro h
    rw [actRetract, if_pos (.inr h)]
    exact (retractStart_idle (p := { p with actres := 3 }) hnone).2 (.inr ⟨h, by decide⟩)

theorem enterSpin_sp (sp : Spin) : (enterSpin sp p).sp = sp := by cases sp <;> rfl

theorem enterSpin_act (sp : Spin) : (enterSpin sp p).act = p.act := by cases sp <;> rfl

theorem enterSpin_actres (sp : Spin) : (enterSpin sp p).actres = p.actres := by cases sp <;> rfl

theorem actHoldup_holds (hreset : p.reset = false) (hact : p.act = .loaded ∨ p.act = .moving) : (actHoldup p).act = .hold ∧
    (actHoldup p).actres = 1 ∧ (actHoldup p).vcm = 0 ∧ (p.sp ≠ .stopped → (actHoldup p).sp = .holdup) := by
  by_cases hsp : p.sp = .stopped
  · obtain h | h := hact <;> simp [actHoldup, holdupEntry, hreset, hsp, h]
  · obtain h | h := hact <;> simp [actHoldup, holdupEntry, hreset, hsp, h, enterSpin_act, enterSpin_sp, enterSpin_actres]

theorem actHoldup_idle (hreset : p.reset = false) (hload : p.act ≠ .loaded) (hmove : p.act ≠ .moving) (hsp : p.sp = .stopped) :
    actHoldup p = { p with actres := 3 } := by
  simp [actHoldup, holdupEntry, hreset, hload, hmove, hsp]

/-! ### Mailboxes and reports -/

theorem prd_clauses {port : BitVec 8} {meas : BitVec 16} (hreset : s.pd.reset = false) :
    (port ≠ 0x11 → prd port meas s = ({ s with link := s.link.takeDown (.prd port.toNat) } : State).pdSend
      (.pdata port.toNat (portRead s.pd port.toNat meas).toNat)) ∧
    (u = ({ s with link := s.link.takeDown (.prd 0x11) } : State).pdSend (.pdata 0x11 (s.pd.actreq % 65536)) →
      prd 0x11 meas s = { u with pd := { u.pd with actreq := 0 } }) := by
  have hgo : ¬ s.pd.reset = true := by simp [hreset]
  constructor
  · intro hport
    simp only [prd, downPacket_of_running hreset, id_eq, if_neg hgo, if_neg hport]
  · intro hu
    simp only [prd, downPacket_of_running hreset, id_eq, if_neg hgo, if_true, hu]
    rfl

/-- Packets sent one after another join the queue in their order. -/
theorem each_pdSend {α : Type} (f : α → Packet) : ∀ (l : List α) {s : State}, s.pd.reset = false →
    State.each (fun e w => w.pdSend (f e)) l s = { s with link := { s.link with up := s.link.up ++ l.map f } }
  | [], s, _ => by simp [State.each]
  | e :: l, s, hs => by
    have hsend : s.pdSend (f e) = { s with link := { s.link with up := s.link.up ++ [f e] } } := by
      simp [State.pdSend, hs]
    rw [State.each, each_pdSend f l (by rw [hsend]; exact hs), hsend]
    simp

theorem logreq_clauses :
    (s.pd.reset = false → u = { s with link := s.link.takeDown .logreq } → logreq s = { u with link := { u.link with
      up := u.link.up ++ (s.pd.log.filter fun e => !e.acked).map fun e => .log e.slot e.bytes } }) ∧
    (s.pd.reset = true → logreq s = { s with link := s.link.takeDown .logreq }) := by
  constructor
  · intro hreset hu
    have hgo : ¬ s.pd.reset = true := by simp [hreset]
    simp only [logreq, downPacket_of_running hreset, id_eq, if_neg hgo]
    rw [each_pdSend (fun e : LogEntry => Packet.log e.slot e.bytes) _ (by exact hreset), hu]
  · intro hreset
    simp only [logreq, downPacket_of_reset hreset]
    exact if_pos hreset

/-! ### The commands of a packet each -/

theorem actPacket_of_running {a : Nat} {f : PdState → PdState} (h : s.pd.reset = false) :
    actPacket a f s = { s with link := s.link.takeDown (.act a), pd := f { s.pd with actreq := a } } := downPacket_of_running h

/-- The moves that ACT commands start. -/
theorem actMoves (hreset : s.pd.reset = false) :
    (s.pd.sp = .atSpeed → s.pd.act = .refpark → actPacket 1 actLoad s = { s with
      link := s.link.takeDown (.act 1), pd := { s.pd with act := .moving, moveTo := .loaded, actres := 1, actreq := 1 } }) ∧
    (s.pd.act = .loaded ∨ s.pd.act = .hold → actPacket 2 actUnload s = { s with
      link := s.link.takeDown (.act 2), pd := { s.pd with act := .moving, moveTo := .refpark, actres := 1, actreq := 2 } }) ∧
    (s.pd.act = .refpark ∨ s.pd.act = .loaded ∨ s.pd.act = .hold → actPacket 3 actPark s = { s with
      link := s.link.takeDown (.act 3), pd := { s.pd with act := .moving, moveTo := .fullpark, actres := 1, actreq := 3 } }) := by
  refine ⟨fun hsp hact => ?_, fun hact => ?_, fun hact => ?_⟩
  · rw [actPacket_of_running hreset, (actLoad_clauses (p := { s.pd with actreq := 1 })).1 hsp hact]
  · rw [actPacket_of_running hreset, (actUnload_clauses (p := { s.pd with actreq := 2 })).1 hact]
  · rw [actPacket_of_running hreset, (actPark_clauses (p := { s.pd with actreq := 3 })).1 hact]

theorem actRetract_starts {fx : RetractFacts} (hreset : s.pd.reset = false) (hnone : s.pd.retract = none)
    (hact : s.pd.act = .refpark ∨ s.pd.act = .loaded ∨ s.pd.act = .hold ∨ s.pd.act = .moving) :
    actPacket 4 (actRetract fx) s = { s with
      link := s.link.takeDown (.act 4)
      pd := { s.pd with retract := some (retractOf 1 fx s.pd), act := .retracting, ma0 := 0, ma1 := 0, actres := 1, actreq := 4 } } := by
  rw [actPacket_of_running hreset, (actRetract_clauses (p := { s.pd with actreq := 4 }) hreset hnone).1 hact]
  rfl

/-- The answers of ACT commands that start no move. -/
theorem actLoad_answers (hreset : s.pd.reset = false) :
    (inMove s.pd = true → actPacket 1 actLoad s = { s with
      link := s.link.takeDown (.act 1), pd := { s.pd with actres := 4, actreq := 1 } }) ∧
    (s.pd.act = .loaded → actPacket 1 actLoad s = { s with
      link := s.link.takeDown (.act 1), pd := { s.pd with actres := 3, actreq := 1 } }) ∧
    (s.pd.act = .hold → s.pd.sp = .atSpeed → actPacket 1 actLoad s = { s with
      link := s.link.takeDown (.act 1), pd := { s.pd with act := .loaded, actres := 1, actreq := 1 } }) ∧
    (s.pd.act = .fullpark ∨ ((s.pd.act = .refpark ∨ s.pd.act = .hold) ∧ s.pd.sp ≠ .atSpeed) → actPacket 1 actLoad s = { s with
      link := s.link.takeDown (.act 1), pd := { s.pd with actres := 2, actreq := 1 } }) := by
  obtain ⟨-, hmove, hloaded, hhold, hrefused⟩ := actLoad_clauses (p := { s.pd with actreq := 1 })
  rw [actPacket_of_running hreset]
  exact ⟨fun h => by rw [hmove h], fun h => by rw [hloaded h], fun h h' => by rw [hhold h h'], fun h => by rw [hrefused h]⟩

theorem actOther_answers (hreset : s.pd.reset = false) :
    (inMove s.pd = true → actPacket 2 actUnload s = { s with link := s.link.takeDown (.act 2), pd := { s.pd with actres := 4, actreq := 2 } } ∧
      actPacket 3 actPark s = { s with link := s.link.takeDown (.act 3), pd := { s.pd with actres := 4, actreq := 3 } }) ∧
    (s.pd.act = .refpark → actPacket 2 actUnload s = { s with
      link := s.link.takeDown (.act 2), pd := { s.pd with actres := 3, actreq := 2 } }) ∧
    (s.pd.act = .fullpark → actPacket 2 actUnload s = { s with link := s.link.takeDown (.act 2), pd := { s.pd with actres := 2, actreq := 2 } } ∧
      actPacket 3 actPark s = { s with link := s.link.takeDown (.act 3), pd := { s.pd with actres := 3, actreq := 3 } } ∧
      (s.pd.retract = none → ∀ fx, actPacket 4 (actRetract fx) s = { s with
        link := s.link.takeDown (.act 4), pd := { s.pd with actres := 3, actreq := 4 } })) ∧
    (s.pd.act ≠ .loaded → s.pd.act ≠ .moving → s.pd.sp = .stopped → actPacket 5 actHoldup s = { s with
      link := s.link.takeDown (.act 5), pd := { s.pd with actres := 3, actreq := 5 } }) := by
  obtain ⟨-, humove, hurefpark, hufullpark⟩ := actUnload_clauses (p := { s.pd with actreq := 2 })
  obtain ⟨-, hpmove, hpfullpark⟩ := actPark_clauses (p := { s.pd with actreq := 3 })
  simp only [actPacket_of_running hreset]
  refine ⟨fun h => ⟨by rw [humove h], by rw [hpmove h]⟩, fun h => by rw [hurefpark h],
    fun h => ⟨by rw [hufullpark h], by rw [hpfullpark h], fun hnone fx => ?_⟩, fun hload hmove hsp => ?_⟩
  · rw [(actRetract_clauses (p := { s.pd with actreq := 4 }) hreset hnone).2 h]
  · rw [actHoldup_idle (p := { s.pd with actreq := 5 }) hreset hload hmove hsp]

theorem pwr_clauses {port : BitVec 8} {value : BitVec 16} (hreset : s.pd.reset = false) :
    (0x40 ≤ port.toNat → port.toNat ≤ 0x7F → exec (.pwr port value) s = .next { s with
      link := s.link.takeDown (.pwr port.toNat value.toNat), pd := { s.pd with ports := tabPut s.pd.ports 0 port.toNat value } }) ∧
    (port.toNat < 0x40 ∨ 0x7F < port.toNat →
      exec (.pwr port value) s = .next { s with link := s.link.takeDown (.pwr port.toNat value.toNat) }) := by
  have hexec : exec (.pwr port value) s = .next (downPacket (.pwr port.toNat value.toNat) (fun p =>
      if 0x40 ≤ port.toNat ∧ port.toNat ≤ 0x7F then portWrite p port.toNat value else p) s) := rfl
  rw [hexec, downPacket_of_running hreset]
  constructor
  · intro hlow hhigh
    rw [if_pos ⟨hlow, hhigh⟩, portWrite, if_pos (.inr (.inl ⟨hlow, hhigh⟩))]
  · intro h
    rw [if_neg (by omega)]

/-- What a packet does during the die's reset. -/
theorem packets_in_reset {f : PdState → PdState} (hreset : s.pd.reset = true) (p : Packet) (a : Nat) (port : BitVec 8) (x : BitVec 16) :
    downPacket p f s = { s with link := s.link.takeDown p } ∧ actPacket a f s = { s with link := s.link.takeDown (.act a) } ∧
    prd port x s = { s with link := s.link.takeDown (.prd port.toNat) } := by
  refine ⟨downPacket_of_reset hreset, downPacket_of_reset hreset, ?_⟩
  simp only [prd, downPacket_of_reset hreset]
  exact if_pos hreset

end Packets

/-- Settles O27: a packet by the states of the spindle and the actuator, or by the die's reset. -/
theorem powerDiePacketsComplete : Obligations.PowerDiePacketsComplete := by
  unfold Obligations.PowerDiePacketsComplete
  refine ⟨fun target spilim rpm s h => congrArg Host.Outcome.next (downPacket_of_running h),
    fun e s h => congrArg Host.Outcome.next (downPacket_of_running h),
    fun t64 s n h0 h1 h2 hn h3 h4 => ?_, fun t64 s h => congrArg Host.Outcome.next (spderrMeasurement_unlocked h),
    fun s h hsp hact => congrArg Host.Outcome.next ((actMoves h).1 hsp hact),
    fun s h hact => congrArg Host.Outcome.next ((actMoves h).2.1 hact),
    fun s h hact => congrArg Host.Outcome.next ((actMoves h).2.2 hact),
    fun fx s h hnone hact => ⟨_, rfl, rfl, rfl, congrArg Host.Outcome.next (actRetract_starts h hnone hact)⟩,
    fun s h hact => ⟨_, congrArg Host.Outcome.next (actPacket_of_running h), actHoldup_holds (p := { s.pd with actreq := 5 }) h hact⟩,
    fun l s h hl => ?_,
    fun s h hsp => congrArg Host.Outcome.next ((downPacket_of_running h).trans (by rw [if_pos hsp])),
    fun s h hsp => congrArg Host.Outcome.next ((downPacket_of_running h).trans (by rw [if_neg hsp])),
    fun s h hneg => congrArg Host.Outcome.next (congrArg (fun p => { s with pd := p }) (if_pos ⟨hneg, by simp [h]⟩)),
    fun s h => congrArg Host.Outcome.next (pd_eta (if_neg ?_)),
    fun s h => congrArg Host.Outcome.next (downPacket_of_running h),
    fun rdl rfloor vret holdv v s h => congrArg Host.Outcome.next (downPacket_of_running h),
    fun port value s h => (pwr_clauses h).1, fun port value s h => (pwr_clauses h).2,
    fun port meas s h hport => congrArg Host.Outcome.next ((prd_clauses (u := s) h).1 hport),
    fun meas s u h hu => congrArg Host.Outcome.next ((prd_clauses (port := 0) h).2 hu),
    fun entry s h => congrArg Host.Outcome.next (downPacket_of_running h),
    fun s u h hu => congrArg Host.Outcome.next (logreq_clauses.1 h hu), ?_⟩
  · obtain ⟨e, hlow, hhigh, hsend⟩ := spderrMeasurement_locked h0 h1 h2 hn h3 h4
    exact ⟨e, hlow, hhigh, congrArg Host.Outcome.next hsend⟩
  · obtain ⟨hmove, hloaded, hhold, hrefused⟩ := actLoad_answers h
    obtain ⟨hmoves, hrefpark, hfullpark, hidle⟩ := actOther_answers h
    subst hl
    exact ⟨fun h => ⟨congrArg Host.Outcome.next (hmove h), congrArg Host.Outcome.next (hmoves h).1, congrArg Host.Outcome.next (hmoves h).2⟩,
      fun h => congrArg Host.Outcome.next (hloaded h), fun h h' => congrArg Host.Outcome.next (hhold h h'),
      fun h => congrArg Host.Outcome.next (hrefused h), fun h => congrArg Host.Outcome.next (hrefpark h),
      fun h => ⟨congrArg Host.Outcome.next (hfullpark h).1, congrArg Host.Outcome.next (hfullpark h).2.1,
        fun hn fx => congrArg Host.Outcome.next ((hfullpark h).2.2 hn fx)⟩,
      fun h h' h'' => congrArg Host.Outcome.next (hidle h h' h'')⟩
  · rintro ⟨hneg, hreset⟩
    rcases h with h | h
    · exact hreset h
    · exact Bool.eq_false_iff.mp h hneg
  · intro target spilim port rpm e fx a b c d v x n s h
    exact ⟨congrArg Host.Outcome.next (downPacket_of_reset h), congrArg Host.Outcome.next (downPacket_of_reset h),
      congrArg Host.Outcome.next (downPacket_of_reset h), congrArg Host.Outcome.next (downPacket_of_reset h),
      congrArg Host.Outcome.next (downPacket_of_reset h), congrArg Host.Outcome.next (downPacket_of_reset h),
      congrArg Host.Outcome.next (downPacket_of_reset h), congrArg Host.Outcome.next (downPacket_of_reset h),
      congrArg Host.Outcome.next (downPacket_of_reset h), congrArg Host.Outcome.next (downPacket_of_reset h),
      congrArg Host.Outcome.next (downPacket_of_reset h), congrArg Host.Outcome.next (packets_in_reset (f := id) h .logreq 0 port x).2.2,
      congrArg Host.Outcome.next (downPacket_of_reset h), congrArg Host.Outcome.next (logreq_clauses (u := s).2 h)⟩

end Sys2Proof.Proofs

/-! PROOFS. Packets that reach the Logic die (R209, R236, R249 to R251). -/

namespace Sys2Proof.Proofs

open Sys2Proof Sys2Proof.Machine

/-! ### Several fields put one after another -/

section Puts

variable {s : State}

/-- Put a list of fields. -/
def puts (l : List (Fld × Nat)) (s : State) : State := l.foldl (fun s p => s.put p.1 p.2) s

/-- Every field has bits of a word, and no two of them have a bit in common. -/
def putsApart : List (Fld × Nat) → Bool
  | [] => true
  | p :: l => fldOk p.1 && l.all (fun q => fldApart q.1 p.1) && putsApart l

theorem regsWf_puts (hs : s.regsWf = true) (l : List (Fld × Nat)) : (puts l s).regsWf = true := by
  induction l generalizing s with
  | nil => exact hs
  | cons p l ih => exact ih (regsWf_put _ _ hs)

/-- A field that none of them touches keeps its value. -/
theorem get_puts_apart (hs : s.regsWf = true) {l : List (Fld × Nat)} {f : Fld} (hf : fldOk f = true)
    (ha : l.all (fun q => fldOk q.1 && fldApart q.1 f) = true) : (puts l s).get f = s.get f := by
  induction l generalizing s with
  | nil => rfl
  | cons p l ih =>
    rw [List.all_cons, Bool.and_eq_true, Bool.and_eq_true] at ha
    obtain ⟨⟨hp, hpf⟩, hl⟩ := ha
    exact (ih (regsWf_put _ _ hs) hl).trans (get_put_apart _ hs hp hf hpf)

/-- Each of them holds what it was put to. -/
theorem get_puts_of_mem (hs : s.regsWf = true) {l : List (Fld × Nat)} (hl : putsApart l = true) {f : Fld} {n : Nat} (hmem : (f, n) ∈ l) :
    (puts l s).get f = n % 2 ^ (f.hi + 1 - f.lo) := by
  induction l generalizing s with
  | nil => cases hmem
  | cons p l ih =>
    rw [putsApart, Bool.and_eq_true, Bool.and_eq_true] at hl
    obtain ⟨⟨hp, hapart⟩, hrest⟩ := hl
    have hok : ∀ (m : List (Fld × Nat)), putsApart m = true → ∀ q ∈ m, fldOk q.1 = true := by
      intro m
      induction m with
      | nil => intro _ q hq; cases hq
      | cons r m ihm =>
        intro hm q hq
        rw [putsApart, Bool.and_eq_true, Bool.and_eq_true] at hm
        rcases List.mem_cons.mp hq with rfl | hq
        · exact hm.1.1
        · exact ihm hm.2 q hq
    rcases List.mem_cons.mp hmem with rfl | hmem
    · refine (get_puts_apart (s := s.put f n) (regsWf_put _ _ hs) hp ?_).trans (get_put_same _ hs hp)
      rw [List.all_eq_true] at hapart ⊢
      intro q hq
      rw [hok l hrest q hq, hapart q hq]
      rfl
    · exact ih (regsWf_put _ _ hs) hrest hmem

end Puts

/-! ### A write leaves the registers above it, in a register file of any form -/

section Above

theorem read_write_above {α : Type} [DecidableEq α] {d : Nat → α} {k j : Nat} (v : α) (hlt : k < j) :
    ∀ m : List (Nat × α), Sparse.read d (Sparse.write d m k v) j = Sparse.read d m j := by
  have hcell : ∀ m : List (Nat × α), Sparse.read d (Sparse.cell d k v ++ m) j = Sparse.read d m j := by
    intro m
    unfold Sparse.cell
    split
    · rfl
    · rw [List.cons_append, List.nil_append, Sparse.read, if_neg (by omega), if_neg (by omega)]
  intro m
  induction m with
  | nil => exact (congrArg (fun m => Sparse.read d m j) (List.append_nil _).symm).trans (hcell [])
  | cons p m ih =>
    obtain ⟨i, x⟩ := p
    rw [Sparse.write]
    split
    · exact hcell _
    · split
      · next hki =>
        rw [hcell, Sparse.read, if_neg (by omega), if_neg (by omega)]
      · rw [Sparse.read, Sparse.read, ih]

theorem rd_put_above {s : State} {f : Fld} {k : Nat} (n : Nat) (h : f.reg < k) : (s.put f n).rd k = s.rd k := read_write_above _ h _

end Above

section Reports

variable {s u : State}

/-! ### STATUS -/

/-- The fields that a STATUS packet shows. -/
def statusFields (p : PdState) (speed16 : BitVec 18) (vhold : BitVec 16) (temp : BitVec 8) (romid : BitVec 16) : List (Fld × Nat) :=
  [(F.FLNK_PD_SPST, spCode p.sp), (F.FLNK_PD_ACTST, actCode p.act), (F.FLNK_PD_PSUP, if p.vneg && p.vpos then 1 else 0),
    (F.FLNK_PD_ACTRES, p.actres), (F.FLNK_PDV_SPEED, speed16.toNat), (F.FLNK_PDV_TEMP, temp.toNat), (F.FLNK_VH_VHOLD, vhold.toNat),
    (F.MSQ_ROMID_ROMID, romid.toNat)]

/-- The fields, and the count of servo words with a bad CRC. -/
def statusShown (p : PdState) (speed16 : BitVec 18) (vhold : BitVec 16) (temp : BitVec 8) (romid : BitVec 16) (s : State) : State :=
  (puts (statusFields p speed16 vhold temp romid) s).addCnt F.FLNK_CNT_SVCRC_CNT p.svcrc

theorem get_onPd (f : PdState → PdState) (g : Fld) : (s.onPd f).get g = s.get g := rfl

variable {speed16 : BitVec 18} {vhold : BitVec 16} {temp : BitVec 8} {romid : BitVec 16}

theorem status_of_running (hreset : s.pd.reset = false) : status speed16 vhold temp romid s =
    (statusShown s.pd speed16 vhold temp romid s).onPd fun p => { p with svcrc := 0, temp, romid } := if_neg (by simp [hreset])

theorem get_statusShown (hs : s.regsWf = true) {p : PdState} {f : Fld} {n : Nat}
    (hmem : (f, n) ∈ statusFields p speed16 vhold temp romid) (hf : fldOk f = true) (hcnt : fldApart F.FLNK_CNT_SVCRC_CNT f = true) :
    (statusShown p speed16 vhold temp romid s).get f = n % 2 ^ (f.hi + 1 - f.lo) := by
  have hapart : putsApart (statusFields p speed16 vhold temp romid) = true := rfl
  rw [statusShown, State.addCnt, get_put_apart _ (regsWf_puts hs _) (by decide) hf hcnt, get_puts_of_mem hs hapart hmem]

theorem spCode_lt (sp : Spin) : spCode sp < 8 := by cases sp <;> decide

theorem actCode_lt (a : Act) : actCode a < 8 := by cases a <;> decide

theorem svcrc_statusShown (hs : s.regsWf = true) {p : PdState} : (statusShown p speed16 vhold temp romid s).get F.FLNK_CNT_SVCRC_CNT =
    Nat.min (s.get F.FLNK_CNT_SVCRC_CNT + p.svcrc) 255 := by
  have hkept : (puts (statusFields p speed16 vhold temp romid) s).get F.FLNK_CNT_SVCRC_CNT = s.get F.FLNK_CNT_SVCRC_CNT :=
    get_puts_apart hs (by decide) rfl
  rw [statusShown, State.addCnt, get_put_same _ (regsWf_puts hs _) (by decide), hkept]
  exact Nat.mod_eq_of_lt (Nat.lt_of_le_of_lt (Nat.min_le_right _ _) (by decide))

theorem statusShown_shows (hs : s.regsWf = true) {p : PdState} {t : State} (ht : t = statusShown p speed16 vhold temp romid s) :
    t.get F.FLNK_PD_SPST = spCode p.sp ∧ t.get F.FLNK_PD_ACTST = actCode p.act ∧ t.on F.FLNK_PD_PSUP = (p.vneg && p.vpos) ∧
    t.get F.FLNK_PD_ACTRES = p.actres % 8 ∧ t.get F.FLNK_PDV_SPEED = speed16.toNat ∧ t.get F.FLNK_VH_VHOLD = vhold.toNat ∧
    t.get F.FLNK_PDV_TEMP = temp.toNat ∧ t.get F.MSQ_ROMID_ROMID = romid.toNat := by
  subst ht
  have hpsup : (statusShown p speed16 vhold temp romid s).get F.FLNK_PD_PSUP = (if p.vneg && p.vpos then 1 else 0) % 2 :=
    get_statusShown hs (by simp [statusFields]) (by decide) (by decide)
  refine ⟨(get_statusShown hs (n := spCode p.sp) (by simp [statusFields]) (by decide) (by decide)).trans (Nat.mod_eq_of_lt (spCode_lt _)),
    (get_statusShown hs (n := actCode p.act) (by simp [statusFields]) (by decide) (by decide)).trans (Nat.mod_eq_of_lt (actCode_lt _)), ?_,
    get_statusShown hs (n := p.actres) (by simp [statusFields]) (by decide) (by decide),
    (get_statusShown hs (n := speed16.toNat) (by simp [statusFields]) (by decide) (by decide)).trans (Nat.mod_eq_of_lt speed16.isLt),
    (get_statusShown hs (n := vhold.toNat) (by simp [statusFields]) (by decide) (by decide)).trans (Nat.mod_eq_of_lt vhold.isLt),
    (get_statusShown hs (n := temp.toNat) (by simp [statusFields]) (by decide) (by decide)).trans (Nat.mod_eq_of_lt temp.isLt),
    (get_statusShown hs (n := romid.toNat) (by simp [statusFields]) (by decide) (by decide)).trans (Nat.mod_eq_of_lt romid.isLt)⟩
  rw [State.on, hpsup]
  cases p.vneg <;> cases p.vpos <;> rfl

/-! ### FAULT and NOTICE -/

theorem faultPacket_clauses {kind : BitVec 8} {detail : BitVec 16} (hu : u = ((({ s with
      link := s.link.takeUp (.fault kind.toNat detail.toNat) } : State).put F.FLNK_FLT_KIND kind.toNat).put F.FLNK_FLT_DETAIL
        detail.toNat).faultRecord kind.toNat detail.toNat) :
    (kind ≠ 11 → faultPacket kind detail s = u) ∧ (kind = 11 → faultPacket kind detail s = u.spinUpFailed) := by
  subst hu
  exact ⟨fun h => if_neg h, fun h => if_pos h⟩

theorem notice_clauses (hu : u = ((({ s with
      link := s.link.takeUp (.notice s.pd.romid.toNat), pd := { s.pd with romid := romid } } : State).put
        F.FLNK_STAT_PDRST 1).put F.MSQ_ROMID_ROMID romid.toNat)) :
    (s.mode = mTHAW → notice romid s = u) ∧
    (s.mode ≠ mTHAW → notice romid s = ((State.each (fun (p : Packet) w => w.flnkSend p)
      (u.link.lastSpeed.toList ++ u.link.lastCfg.toList ++ u.link.lastPsup.toList) u).inc F.MSQ_CNT_RELOAD_CNT).patchResend.faultRecord
        10 0) := by
  have hmode : u.mode = s.mode := by
    refine get_of_rd (f := F.PCM_MODE_MODE) ?_
    rw [hu]
    exact (rd_put_above _ (by decide)).trans (rd_put_above _ (by decide))
  have hnotice : notice romid s = if u.mode = mTHAW then u else ((State.each (fun (p : Packet) w => w.flnkSend p)
      (u.link.lastSpeed.toList ++ u.link.lastCfg.toList ++ u.link.lastPsup.toList) u).inc F.MSQ_CNT_RELOAD_CNT).patchResend.faultRecord
        10 0 := by
    rw [hu]
    rfl
  rw [hnotice, hmode]
  exact ⟨fun h => if_pos h, fun h => if_neg h⟩

end Reports

/-- Settles O28: what each packet shows in the FLNK registers, and what it sends. -/
theorem powerDieReportsComplete : Obligations.PowerDieReportsComplete := by
  unfold Obligations.PowerDieReportsComplete
  refine ⟨fun speed16 vhold temp romid s hs hreset => ?_, fun speed16 vhold temp romid s hreset => congrArg Host.Outcome.next (if_pos hreset),
    fun kind detail s u hu => ?_, fun port value s => rfl, fun entry bytes s u hu => ?_, fun romid s u hu => ?_⟩
  · obtain ⟨t, ht⟩ : ∃ t, t = statusShown s.pd speed16 vhold temp romid s := ⟨_, rfl⟩
    obtain ⟨h1, h2, h3, h4, h5, h6, h7, h8⟩ := statusShown_shows hs ht
    refine ⟨t.onPd fun p => { p with svcrc := 0, temp, romid }, congrArg Host.Outcome.next ?_, h1, h2, h3, h4, h5, h6, h7, h8, ?_, rfl⟩
    · exact (status_of_running hreset).trans (by rw [ht])
    · rw [get_onPd, ht, svcrc_statusShown hs]
  · obtain ⟨hother, hstart⟩ := faultPacket_clauses hu
    exact ⟨fun h => congrArg Host.Outcome.next (hother h), fun h => congrArg Host.Outcome.next (hstart h)⟩
  · rw [hu]
    rfl
  · obtain ⟨hthaw, hother⟩ := notice_clauses hu
    exact ⟨fun h => congrArg Host.Outcome.next (hthaw h), fun h => congrArg Host.Outcome.next (hother h)⟩

end Sys2Proof.Proofs

/-! PROOFS. What the Power die does on its own: resets, moves, retracts, the spindle and faults (R236 to R250, R499). -/

namespace Sys2Proof.Proofs

open Sys2Proof Sys2Proof.Machine

section Alone

variable {s : State} {p : PdState} {fx : RetractFacts}

/-! ### What a spindle state leaves -/

theorem enterSpin_link_fields (sp : Spin) : (enterSpin sp p).reset = p.reset ∧ (enterSpin sp p).retract = p.retract ∧
    (enterSpin sp p).vneg = p.vneg ∧ (enterSpin sp p).vpos = p.vpos ∧ (enterSpin sp p).zeroDue = p.zeroDue ∧
    (enterSpin sp p).vcm = p.vcm ∧ (enterSpin sp p).ma0 = p.ma0 ∧ (enterSpin sp p).ma1 = p.ma1 ∧ (enterSpin sp p).opn = p.opn ∧
    (enterSpin sp p).log = p.log ∧ (enterSpin sp p).target = p.target := by
  cases sp <;> exact ⟨rfl, rfl, rfl, rfl, rfl, rfl, rfl, rfl, rfl, rfl, rfl⟩

theorem enterSpin_reset (sp : Spin) : (enterSpin sp p).reset = p.reset := enterSpin_link_fields sp |>.1

theorem pdFault_up {kind detail : Nat} (hreset : s.pd.reset = false) :
    (s.pdFault kind detail).link.up = s.link.up ++ [.fault kind detail] := by
  simp [State.pdFault, State.pdSend, hreset]

theorem pdRaise_clauses {kind : Nat} (hreset : s.pd.reset = false) : (s.pdRaise kind).pd = { s.pd with flt := true } ∧
    (s.pdRaise kind).link.up = s.link.up ++ [.fault kind 0] :=
  ⟨rfl, pdFault_up (s := s.onPd fun p => { p with flt := true }) hreset⟩

/-! ### Reset -/

theorem msqShow_frame (st : Nat) : (s.msqShow st).pd = s.pd ∧ (s.msqShow st).link = s.link ∧ (s.msqShow st).msq = s.msq := by
  have hkeeps : ∀ {β : Type} (part : State → β), (∀ (t : State) k v, part (t.wr k v) = part t) → part (s.msqShow st) = part s := by
    intro β part hwr
    refine (each_keeps part ?_ _ _).trans (hwr _ _ _)
    exact fun k t => hwr _ _ _
  exact ⟨hkeeps State.pd fun _ _ _ => rfl, hkeeps State.link fun _ _ _ => rfl, hkeeps State.msq fun _ _ _ => rfl⟩

theorem pdSend_frame (p : Packet) : (s.pdSend p).pd = s.pd ∧ (s.pdSend p).msq = s.msq := ⟨rfl, rfl⟩

theorem pdSend_up (hrun : s.pd.reset = false) (p : Packet) : (s.pdSend p).link.up = s.link.up ++ [p] := by
  simp [State.pdSend, hrun]

theorem msqShow_pdSend {w : State} (hrun : w.pd.reset = false) (st : Nat) (p : Packet) : ((w.msqShow st).pdSend p).pd = w.pd ∧
    ((w.msqShow st).pdSend p).msq = w.msq ∧ ((w.msqShow st).pdSend p).link.up = w.link.up ++ [p] := by
  obtain ⟨hpd, hlink, hmsq⟩ := msqShow_frame (s := w) st
  generalize w.msqShow st = u at hpd hlink hmsq ⊢
  obtain ⟨hsendPd, hsendMsq⟩ := pdSend_frame (s := u) p
  exact ⟨hsendPd.trans hpd, hsendMsq.trans hmsq, by rw [pdSend_up (by rw [hpd, hrun]), hlink]⟩

/-- The Power die as its reset is released: the retract engine runs. -/
def releasedPd (fx : RetractFacts) (p : PdState) : PdState :=
  { pdAfterReset p with retract := some (retractOf 8 fx (pdAfterReset p)), act := .retracting, ma0 := 0, ma1 := 0 }

theorem retractStart_pdAfterReset : retractStart 8 fx (pdAfterReset p) = releasedPd fx p :=
  (retractStart_idle rfl).1 rfl fun _ => rfl

theorem pdResetRelease_of_reset (hreset : s.pd.reset = true) : pdResetRelease fx s =
    (({ s with pd := releasedPd fx s.pd, msq := s.msq.romOnly } : State).msqShow 0).pdSend (.notice s.pd.romid.toNat) := by
  rw [pdResetRelease, if_pos hreset, retractStart_pdAfterReset]
  rfl

theorem pdResetRelease_clauses (hreset : s.pd.reset = true) : (pdResetRelease fx s).pd.reset = false ∧
    (pdResetRelease fx s).pd.sp = .coast ∧ (pdResetRelease fx s).pd.retract.isSome = true ∧ (pdResetRelease fx s).pd.log = s.pd.log ∧
    (pdResetRelease fx s).pd.opn = s.pd.opn ∧ (pdResetRelease fx s).msq.mats = [] ∧
    (pdResetRelease fx s).link.up = s.link.up ++ [.notice s.pd.romid.toNat] := by
  obtain ⟨hpd, hmsq, hup⟩ := msqShow_pdSend (w := { s with pd := releasedPd fx s.pd, msq := s.msq.romOnly }) rfl 0
    (.notice s.pd.romid.toNat)
  rw [pdResetRelease_of_reset hreset, hpd, hmsq, hup]
  exact ⟨rfl, rfl, rfl, rfl, rfl, rfl, rfl⟩

/-! ### Planned moves -/

theorem actuatorMoveDone_clauses (hreset : p.reset = false) (hact : p.act = .moving) :
    (p.zeroDue = false → p.moveTo ≠ .fullpark → actuatorMoveDone p = { p with act := p.moveTo }) ∧
    (p.zeroDue = false → p.moveTo = .fullpark → actuatorMoveDone p = { p with act := .fullpark, vcm := 0, ma0 := 0, ma1 := 0 }) ∧
    (p.zeroDue = true → p.moveTo ≠ .fullpark → actuatorMoveDone p = { p with moveTo := .fullpark }) ∧
    (p.zeroDue = true → p.moveTo = .fullpark → p.sp = .atSpeed → (actuatorMoveDone p).act = .fullpark ∧
      (actuatorMoveDone p).sp = .brake ∧ (actuatorMoveDone p).zeroDue = false ∧ (actuatorMoveDone p).vcm = 0) := by
  refine ⟨fun hzero hto => ?_, fun hzero hto => ?_, fun hzero hto => ?_, fun hzero hto hsp => ?_⟩
  · simp [actuatorMoveDone, hreset, hact, hzero, hto]
  · simp [actuatorMoveDone, hreset, hact, hzero, hto]
  · simp [actuatorMoveDone, hreset, hact, hzero, hto, moveAct]
  · simp [actuatorMoveDone, hreset, hact, hzero, hto, hsp, enterSpin, bridge]

/-! ### Retracts -/

/-- A trigger of the Power die changes nothing where its condition fails. -/
theorem onPd_ite {c : PdState → Prop} [DecidablePred c] {f : PdState → PdState} :
    (c s.pd → (s.onPd fun p => if c p then f p else p) = { s with pd := f s.pd }) ∧
    (¬ c s.pd → (s.onPd fun p => if c p then f p else p) = s) :=
  ⟨fun h => congrArg (fun p => { s with pd := p }) (if_pos h), fun h => pd_eta (if_neg h)⟩

theorem retractTriggers :
    (s.pd.act = .loaded → exec (.servoSilence fx) s = .next { s with pd := retractStart 3 fx s.pd }) ∧
    (s.pd.act ≠ .loaded → exec (.servoSilence fx) s = .next s) ∧
    (s.pd.sp = .holdup → exec (.vholdLow fx) s = .next { s with pd := retractStart 4 fx s.pd }) ∧
    (s.pd.sp ≠ .holdup → exec (.vholdLow fx) s = .next s) ∧
    (fx.rpm < s.pd.rfloor * 100 → exec (.spindleFloor fx) s = .next { s with pd := retractStart 5 fx s.pd }) ∧
    (s.pd.rfloor * 100 ≤ fx.rpm → exec (.spindleFloor fx) s = .next s) ∧
    (s.pd.rdl * 10 ≤ fx.ms → exec (.retractDeadline fx) s = .next { s with pd := retractStart 6 fx s.pd }) ∧
    (fx.ms < s.pd.rdl * 10 → exec (.retractDeadline fx) s = .next s) :=
  ⟨fun h => congrArg Host.Outcome.next (onPd_ite.1 h), fun h => congrArg Host.Outcome.next (onPd_ite.2 h),
    fun h => congrArg Host.Outcome.next (onPd_ite.1 h), fun h => congrArg Host.Outcome.next (onPd_ite.2 h),
    fun h => congrArg Host.Outcome.next (onPd_ite.1 h), fun h => congrArg Host.Outcome.next (onPd_ite.2 (Nat.not_lt.mpr h)),
    fun h => congrArg Host.Outcome.next (onPd_ite.1 h), fun h => congrArg Host.Outcome.next (onPd_ite.2 (Nat.not_le.mpr h))⟩

theorem retractProgress {r : Retract} (hrun : s.pd.retract = some r) :
    exec .retractRampReached s = .next { s with pd := { s.pd with retract := some { r with ramp := true } } } ∧
    (r.timeout = false →
      exec .retractLatchReached s = .next { s with pd := { s.pd with retract := some { r with latch := true } } }) ∧
    (r.latch = false →
      exec .retractLatchTimeout s = .next { s with pd := { s.pd with retract := some { r with timeout := true } } }) := by
  have hon : ∀ f : Retract → Retract, s.onPd (onRetract f) = { s with pd := { s.pd with retract := some (f r) } } := by
    intro f
    rw [State.onPd, onRetract, hrun]
    rfl
  refine ⟨congrArg Host.Outcome.next (hon _), fun h => congrArg Host.Outcome.next ((hon _).trans ?_),
    fun h => congrArg Host.Outcome.next ((hon _).trans ?_)⟩
  · rw [if_neg (by simp [h])]
  · rw [if_neg (by simp [h])]

/-- After the retract a spindle whose target is 0 brakes. -/
def zeroSettled (p : PdState) : PdState :=
  if p.zeroDue then
    let p := { p with zeroDue := false }
    if p.sp = .start ∨ p.sp = .accel ∨ p.sp = .atSpeed then enterSpin .brake p else p
  else p

theorem zeroSettled_fields : (zeroSettled p).act = p.act ∧ (zeroSettled p).retract = p.retract ∧ (zeroSettled p).vcm = p.vcm ∧
    (zeroSettled p).ma0 = p.ma0 ∧ (zeroSettled p).ma1 = p.ma1 ∧ (zeroSettled p).opn = p.opn ∧ (zeroSettled p).log = p.log := by
  unfold zeroSettled
  split
  · simp only
    split <;> exact ⟨rfl, rfl, rfl, rfl, rfl, rfl, rfl⟩
  · exact ⟨rfl, rfl, rfl, rfl, rfl, rfl, rfl⟩

/-- The actuator once it is latched. -/
def parkedPd (p : PdState) : PdState := { p with retract := none, act := .fullpark, vcm := 0, ma0 := 0, ma1 := 0 }

theorem retractEnd_of_running {dur : Nat} {r : Retract} (hrun : s.pd.retract = some r) (hend : r.latch = true ∨ r.timeout = true) :
    retractEnd dur s = (if r.fromPark then s.onPd parkedPd else (s.onPd parkedPd).logRetract r dur).onPd zeroSettled := by
  rw [retractEnd, hrun]
  refine if_neg ?_
  rcases hend with h | h <;> simp [h]

theorem logRetract_pd (r : Retract) (dur : Nat) : (s.logRetract r dur).pd =
    { s.pd with log := (s.pd.log.filter fun (x : LogEntry) => x.slot != logSlot s.pd.log) ++
        [{ slot := logSlot s.pd.log, bytes := logBytes r (s.pd.opn + 1) dur }], opn := s.pd.opn + 1 } := by
  unfold State.logRetract
  exact ite_keeps State.pd rfl rfl

theorem retractEnd_clauses {dur : Nat} {r : Retract} (hrun : s.pd.retract = some r) (hend : r.latch = true ∨ r.timeout = true) :
    (retractEnd dur s).pd.act = .fullpark ∧ (retractEnd dur s).pd.retract = none ∧ (retractEnd dur s).pd.vcm = 0 ∧
    (retractEnd dur s).pd.ma0 = 0 ∧ (retractEnd dur s).pd.ma1 = 0 ∧
    (r.fromPark = false → (retractEnd dur s).pd.opn = s.pd.opn + 1 ∧
      ∃ e ∈ (retractEnd dur s).pd.log, e.bytes = logBytes r (s.pd.opn + 1) dur ∧ e.acked = false) ∧
    (r.fromPark = true → (retractEnd dur s).pd.log = s.pd.log) := by
  have hpd : ∀ w : State, (w.onPd zeroSettled).pd = zeroSettled w.pd := fun _ => rfl
  rw [retractEnd_of_running hrun hend]
  by_cases hpark : r.fromPark = true
  · obtain ⟨h1, h2, h3, h4, h5, -, h7⟩ := zeroSettled_fields (p := parkedPd s.pd)
    rw [if_pos hpark, hpd]
    exact ⟨h1, h2, h3, h4, h5, fun h => absurd hpark (by simp [h]), fun _ => h7⟩
  · obtain ⟨h1, h2, h3, h4, h5, h6, h7⟩ := zeroSettled_fields (p := ((s.onPd parkedPd).logRetract r dur).pd)
    have hlog := logRetract_pd (s := s.onPd parkedPd) r dur
    rw [if_neg hpark, hpd, h1, h2, h3, h4, h5, h6, h7, hlog]
    exact ⟨rfl, rfl, rfl, rfl, rfl, fun _ => ⟨rfl, _, List.mem_append_right _ (List.mem_singleton_self _), rfl, rfl⟩, fun h => absurd h hpark⟩

/-! ### The spindle -/

theorem startAttemptTimeout_clauses (hsp : s.pd.sp = .start) :
    (2 ≤ s.pd.attempts → s.pd.reset = false → (startAttemptTimeout s).pd.sp = .stopped ∧
      (startAttemptTimeout s).link.up = s.link.up ++ [.fault 11 0]) ∧
    (s.pd.attempts < 2 → startAttemptTimeout s = { s with pd := { s.pd with attempts := s.pd.attempts + 1 } }) := by
  have hgo : ¬ s.pd.sp ≠ .start := not_not_intro hsp
  constructor
  · intro hmany hreset
    rw [startAttemptTimeout, if_neg hgo, if_pos (by omega)]
    exact ⟨rfl, pdFault_up (s := s.onPd fun p => enterSpin .stopped { p with attempts := 0 }) hreset⟩
  · intro hfew
    rw [startAttemptTimeout, if_neg hgo, if_neg (by omega)]
    rfl

theorem spindleAtSpeed_clauses (hsp : p.sp = .accel) : (spindleAtSpeed p).sp = .atSpeed ∧
    (p.act = .fullpark → (spindleAtSpeed p).act = .moving ∧ (spindleAtSpeed p).moveTo = .refpark) ∧
    (p.act ≠ .fullpark → (spindleAtSpeed p).act = p.act) := by
  by_cases hact : p.act = .fullpark
  · simp [spindleAtSpeed, hsp, enterSpin_act, hact, moveAct, enterSpin_sp]
  · simp [spindleAtSpeed, hsp, enterSpin_act, hact, enterSpin_sp]

theorem spindleStopped_clauses (hreset : p.reset = false) :
    (p.sp = .coast ∨ (p.sp = .brake ∧ p.stored = 0) → (spindleStopped p).sp = .stopped) ∧
    (p.sp = .brake → p.stored ≠ 0 → p.shut = false → (spindleStopped p).sp = .start ∧ (spindleStopped p).target = p.stored) := by
  constructor
  · rintro (hsp | ⟨hsp, hstored⟩)
    · simp [spindleStopped, hsp, hreset, enterSpin_sp]
    · simp [spindleStopped, hsp, hreset, hstored, enterSpin_sp]
  · intro hsp hstored hshut
    simp [spindleStopped, hsp, hreset, hstored, hshut, enterSpin_sp, (enterSpin_link_fields .start).2.2.2.2.2.2.2.2.2.2]

theorem holdupBrake_clauses (hsp : s.pd.sp = .holdup ∨ s.pd.sp = .brake) : ∃ t : State, exec .holdupBrake s = .next t ∧
    t.pd.sp = .brake ∧ (s.pd.shut = false → t.pd.ports = tabPut s.pd.ports 0 0 3) := by
  refine ⟨{ s with pd := bridge 3 { s.pd with sp := .brake } }, congrArg Host.Outcome.next (onPd_ite.1 hsp), rfl, fun hshut => ?_⟩
  simp [bridge, hshut]

/-! ### Faults -/

theorem pdRuns_clauses {f : State → State} : (s.pd.reset = false → pdRuns f s = f s) ∧ (s.pd.reset = true → pdRuns f s = s) :=
  ⟨fun h => if_neg (by simp [h]), fun h => if_pos h⟩

/-- What an overcurrent of the spindle does to the Power die. -/
def spocPd (fx : RetractFacts) (p : PdState) : PdState :=
  let p := if driving p then enterSpin .coast p else p
  if fx.rpm < p.rfloor * 100 then retractStart 5 fx p else p

theorem spocPd_above (hdrive : driving p = true) (hfloor : p.rfloor * 100 ≤ fx.rpm) : spocPd fx p = enterSpin .coast p := by
  simp only [spocPd, if_pos hdrive]
  exact if_neg (Nat.not_lt.mpr hfloor)

theorem spoc_clauses (hreset : s.pd.reset = false) (hdrive : driving s.pd = true) (hfloor : s.pd.rfloor * 100 ≤ fx.rpm) :
    (spoc fx s).pd.sp = .coast ∧ (spoc fx s).pd.act = s.pd.act ∧ (spoc fx s).pd.flt = true ∧
    (spoc fx s).link.up = s.link.up ++ [.fault 1 0] := by
  have hpd : spoc fx s = ({ s with pd := enterSpin .coast s.pd } : State).pdRaise 1 := by
    rw [← spocPd_above hdrive hfloor]
    rfl
  obtain ⟨hpd', hup⟩ := pdRaise_clauses (s := { s with pd := enterSpin .coast s.pd }) (kind := 1)
    ((enterSpin_reset .coast).trans hreset)
  rw [hpd, hpd']
  exact ⟨rfl, rfl, rfl, hup⟩

/-- What the heat shutdown does to the Power die. -/
def tshutPd (fx : RetractFacts) (p : PdState) : PdState :=
  let p := retractStart 7 fx { p with shut := true, temp := 160 }
  if driving p then enterSpin .coast p else bridge 0 p

theorem tshutPd_clauses (hreset : p.reset = false) (hact : p.act = .loaded) (hnone : p.retract = none) :
    (tshutPd fx p).act = .retracting ∧ (tshutPd fx p).shut = true ∧ (tshutPd fx p).reset = false := by
  have hstart := (retractStart_idle (cause := 7) (fx := fx) (p := { p with shut := true, temp := 160 }) hnone).1 hreset
    fun h => absurd (hact.symm.trans h) (by decide)
  simp only [tshutPd, hstart]
  split
  · exact ⟨rfl, rfl, hreset⟩
  · exact ⟨rfl, rfl, hreset⟩

theorem faults_clauses (hreset : s.pd.reset = false) :
    (∃ t : State, exec .vcmoc s = .next t ∧ t.pd.flt = true ∧ (t.pd.vcm = 0x7FFF ∨ t.pd.vcm = 0x8000) ∧
      t.link.up = s.link.up ++ [.fault 2 0]) ∧
    (∃ t : State, exec (.maflt false) s = .next t ∧ t.pd.mahz0 = true ∧ t.pd.ma0 = 0 ∧ t.link.up = s.link.up ++ [.fault 3 0]) ∧
    (∃ t : State, exec (.maflt true) s = .next t ∧ t.pd.mahz1 = true ∧ t.pd.ma1 = 0 ∧ t.link.up = s.link.up ++ [.fault 3 1]) ∧
    (∃ t : State, exec .psupf s = .next t ∧ t.pd.vneg = false ∧ t.pd.vpos = false ∧ t.pd.flt = true ∧
      t.link.up = s.link.up ++ [.fault 4 0]) ∧
    exec .twarn s = .next { s with link := { s.link with up := s.link.up ++ [.fault 5 0] } } := by
  have hvcm : ∀ x : Int, (if x < 0 then (0x8000 : BitVec 16) else 0x7FFF) = 0x7FFF ∨ (if x < 0 then (0x8000 : BitVec 16) else 0x7FFF) = 0x8000 := by
    intro x
    split
    · exact .inr rfl
    · exact .inl rfl
  refine ⟨⟨_, congrArg Host.Outcome.next (pdRuns_clauses.1 hreset), rfl, hvcm _,
      (pdRaise_clauses (s := s.onPd fun p => { p with vcm := if toInt 16 p.vcm.toNat < 0 then 0x8000 else 0x7FFF }) hreset).2⟩,
    ⟨_, congrArg Host.Outcome.next (pdRuns_clauses.1 hreset), rfl, rfl,
      pdFault_up (s := s.onPd fun p => { p with mahz0 := true, ma0 := 0 }) hreset⟩,
    ⟨_, congrArg Host.Outcome.next (pdRuns_clauses.1 hreset), rfl, rfl,
      pdFault_up (s := s.onPd fun p => { p with mahz1 := true, ma1 := 0 }) hreset⟩,
    ⟨_, congrArg Host.Outcome.next (pdRuns_clauses.1 hreset), rfl, rfl, rfl,
      (pdRaise_clauses (s := s.onPd fun p => { p with vneg := false, vpos := false }) hreset).2⟩,
    congrArg Host.Outcome.next ((pdRuns_clauses.1 hreset).trans ?_)⟩
  simp [State.pdFault, State.pdSend, hreset]

theorem tshut_clauses (hreset : s.pd.reset = false) (hact : s.pd.act = .loaded) (hnone : s.pd.retract = none) : ∃ t : State,
    exec (.tshut fx) s = .next t ∧ t.pd.act = .retracting ∧ t.pd.shut = true ∧ t.link.up = s.link.up ++ [.fault 6 0] := by
  obtain ⟨hretract, hshut, hrun⟩ := tshutPd_clauses (fx := fx) hreset hact hnone
  have hexec : exec (.tshut fx) s = .next ((s.onPd (tshutPd fx)).pdFault 6 0) :=
    congrArg Host.Outcome.next (pdRuns_clauses.1 hreset)
  exact ⟨_, hexec, hretract, hshut, pdFault_up (s := s.onPd (tshutPd fx)) hrun⟩

theorem sync_clauses (hdrive : driving s.pd = true) (hreset : s.pd.reset = false) : ∃ t : State, exec .sync s = .next t ∧
    t.pd.sp = .coast ∧ t.pd.flt = true ∧ t.link.up = s.link.up ++ [.fault 7 0] :=
  ⟨(s.onPd (enterSpin .coast)).pdRaise 7, congrArg Host.Outcome.next (if_pos hdrive), rfl, rfl,
    (pdRaise_clauses (s := s.onPd (enterSpin .coast)) hreset).2⟩

end Alone

/-- Settles O29: each event by the die's reset, its spindle, its actuator and its retract. -/
theorem powerDieEventsComplete : Obligations.PowerDieEventsComplete := by
  unfold Obligations.PowerDieEventsComplete
  refine ⟨fun s => ⟨_, rfl, rfl, rfl, rfl, rfl, rfl, rfl⟩, fun fx s h => ⟨_, rfl, pdResetRelease_clauses h⟩,
    fun fx s h => congrArg Host.Outcome.next (if_neg (by simp [h])), fun s hreset hact => ?_, fun fx s => retractTriggers,
    fun fx s hreset hnone hact => ⟨_, congrArg Host.Outcome.next (onPd_ite.1 hact), ?_⟩, fun r s hrun => retractProgress hrun,
    fun dur r s hrun hend => ⟨_, rfl, retractEnd_clauses hrun hend⟩,
    fun s hsp => ⟨⟨_, congrArg Host.Outcome.next (onPd_ite.1 hsp), rfl⟩, fun h h' => ⟨_, rfl, (startAttemptTimeout_clauses hsp).1 h h'⟩,
      fun h => congrArg Host.Outcome.next ((startAttemptTimeout_clauses hsp).2 h)⟩,
    fun s hsp => ⟨_, rfl, spindleAtSpeed_clauses hsp⟩, fun s hsp => ⟨_, congrArg Host.Outcome.next (onPd_ite.1 hsp), rfl⟩,
    fun s hreset => ⟨fun h => ⟨_, rfl, (spindleStopped_clauses hreset).1 h⟩, fun h h' h'' => ⟨_, rfl, (spindleStopped_clauses hreset).2 h h' h''⟩⟩,
    fun s hsp => holdupBrake_clauses hsp,
    fun fx s hreset hdrive hfloor => ⟨_, congrArg Host.Outcome.next (pdRuns_clauses.1 hreset), spoc_clauses hreset hdrive hfloor⟩,
    fun s hreset => faults_clauses hreset, fun fx s hreset hact hnone => tshut_clauses hreset hact hnone,
    fun s hdrive hreset => sync_clauses hdrive hreset, fun fx b s hreset => ?_⟩
  · obtain ⟨hmove, hlatch, hagain, hbrake⟩ := actuatorMoveDone_clauses hreset hact
    exact ⟨fun h h' => congrArg Host.Outcome.next (congrArg (fun p => { s with pd := p }) (hmove h h')),
      fun h h' => congrArg Host.Outcome.next (congrArg (fun p => { s with pd := p }) (hlatch h h')),
      fun h h' => congrArg Host.Outcome.next (congrArg (fun p => { s with pd := p }) (hagain h h')),
      fun h h' h'' => ⟨_, rfl, hbrake h h' h''⟩⟩
  · have hstart := (retractStart_idle (cause := 3) (fx := fx) hnone).1 hreset fun h => absurd (hact.symm.trans h) (by decide)
    simp only [hstart]
    exact ⟨trivial, trivial, trivial, _, rfl, rfl, rfl, rfl, by simp [retractOf, hact]⟩
  · exact ⟨congrArg Host.Outcome.next (pdRuns_clauses.2 hreset), congrArg Host.Outcome.next (pdRuns_clauses.2 hreset),
      congrArg Host.Outcome.next (pdRuns_clauses.2 hreset), congrArg Host.Outcome.next (pdRuns_clauses.2 hreset),
      congrArg Host.Outcome.next (pdRuns_clauses.2 hreset), congrArg Host.Outcome.next (pdRuns_clauses.2 hreset)⟩

end Sys2Proof.Proofs

/-! PROOFS. Operations of the read channel are committed, sampled, decoded and retried (R264, R269 to R275). -/

namespace Sys2Proof.Proofs

open Sys2Proof Sys2Proof.Machine

section ReadChannel

variable {s u : State} {m : Master}

/-! ### The commit of an operation -/

theorem exec_mopCommit {t : BitVec 7} {v : Word} (hm : gated s m = false) : exec (.mopCommit m t v) s = .next (mopCommit t v s) :=
  congrArg Host.Outcome.next (byCore_of_not_gated hm)

/-- The row of MOP word 3. -/
def mop3Row : RegDesc :=
  ⟨0x4000480C, 128, 16, false, [⟨15, 0, .RW, 0x0⟩, ⟨19, 16, .RW, 0x0⟩, ⟨23, 20, .RW, 0x0⟩, ⟨29, 24, .RW, 0x0⟩]⟩

theorem findReg_mop3 : ∀ t : BitVec 7, findReg (R.MOP3 t.toNat) = some mop3Row := by decide +kernel

theorem regWrite_mop3 (t : BitVec 7) (v : Word) :
    s.regWrite (R.MOP3 t.toNat) v = s.wr (R.MOP3 t.toNat) (wordAfter mop3Row.fields (s.rd (R.MOP3 t.toNat)) v) := by
  rw [State.regWrite, findReg_mop3]

theorem bitsOf_lt (w : Word) (hi lo : Nat) : bitsOf w hi lo < 2 ^ (hi + 1 - lo) := Nat.mod_lt _ (Nat.two_pow_pos _)

/-- A write of MOP word 3 stores the party and the channel. -/
theorem wordAfter_mop3 (old v : Word) : bitsOf (wordAfter mop3Row.fields old v) 19 16 = bitsOf v 19 16 ∧
    bitsOf (wordAfter mop3Row.fields old v) 23 20 = bitsOf v 23 20 := by
  have hword : wordAfter mop3Row.fields old v = withBits (withBits (withBits (withBits old 15 0 (bitsOf v 15 0)) 19 16 (bitsOf v 19 16))
      23 20 (bitsOf v 23 20)) 29 24 (bitsOf v 29 24) := rfl
  have hparty : ∀ (x : Word) (n k : Nat), bitsOf (withBits (withBits x 23 20 n) 29 24 k) 19 16 = bitsOf x 19 16 := by
    intro x n k
    rw [bitsOf_withBits_below _ _ _ _ _ _ (by decide) (by decide) (by decide) (by decide),
      bitsOf_withBits_below _ _ _ _ _ _ (by decide) (by decide) (by decide) (by decide)]
  have hchan : ∀ (x : Word) (k : Nat), bitsOf (withBits x 29 24 k) 23 20 = bitsOf x 23 20 :=
    fun x k => bitsOf_withBits_below _ _ _ _ _ _ (by decide) (by decide) (by decide) (by decide)
  rw [hword, hparty, hchan, bitsOf_withBits_same _ _ _ _ (by decide) (by decide), bitsOf_withBits_same _ _ _ _ (by decide) (by decide)]
  exact ⟨Nat.mod_eq_of_lt (bitsOf_lt _ _ _), Nat.mod_eq_of_lt (bitsOf_lt _ _ _)⟩

theorem rd_mopReady (t k : Nat) : (s.mopCommit t).rd k = ((s.wr (R.MOPS t) 0).put (F.MOPS_STATE t) mopREADY).rd k := by
  have hregs : (s.mopCommit t).regs = ((s.wr (R.MOPS t) 0).put (F.MOPS_STATE t) mopREADY).regs := by
    unfold State.mopCommit
    refine (each_keeps State.regs ?_ _ _).trans rfl
    exact fun c w => ite_keeps State.regs rfl rfl
  simp only [State.rd, hregs]

/-- The committed operation, READY with the words that were staged. -/
theorem mopCommit_shows (hs : s.regsWf = true) (t : BitVec 7) (v : Word) {w : State}
    (hw : w = ((s.regWrite (R.MOP3 t.toNat) v).put (F.MOP0_DBIT t.toNat) (dbitHeld s t.toNat)).mopCommit t.toNat) :
    mopState w t.toNat = mopREADY ∧ w.get (F.MOP3_PARTY t.toNat) = bitsOf v 19 16 ∧
    w.get (F.MOP3_DMACH t.toNat) = bitsOf v 23 20 := by
  obtain ⟨a, ha⟩ : ∃ a, a = (s.wr (R.MOP3 t.toNat) (wordAfter mop3Row.fields (s.rd (R.MOP3 t.toNat)) v)).put (F.MOP0_DBIT t.toNat)
      (dbitHeld s t.toNat) := ⟨_, rfl⟩
  have hwr := regsWf_wr (R.MOP3 t.toNat) (wordAfter mop3Row.fields (s.rd (R.MOP3 t.toNat)) v) hs
  have hawf : a.regsWf = true := ha ▸ regsWf_put _ _ hwr
  have hstate : fldOk (F.MOPS_STATE t.toNat) = true := rfl
  have hrd : ∀ k, w.rd k = ((a.wr (R.MOPS t.toNat) 0).put (F.MOPS_STATE t.toNat) mopREADY).rd k := by
    intro k
    rw [hw, ha, regWrite_mop3]
    exact rd_mopReady _ _
  have hmop3 : w.rd (R.MOP3 t.toNat) = wordAfter mop3Row.fields (s.rd (R.MOP3 t.toNat)) v := by
    have hfar : R.MOP3 t.toNat ≠ R.MOPS t.toNat := by simp only [R.MOP3, R.MOPS]; omega
    have hnear : R.MOP3 t.toNat ≠ R.MOP0 t.toNat := by simp only [R.MOP3, R.MOP0]; omega
    rw [hrd, rd_put_ne (regsWf_wr _ _ hawf) hfar, rd_wr_ne _ hawf hfar, ha, rd_put_ne hwr hnear, rd_wr_same _ hs]
  obtain ⟨hparty, hchan⟩ := wordAfter_mop3 (s.rd (R.MOP3 t.toNat)) v
  refine ⟨?_, ?_, ?_⟩
  · rw [mopState, get_of_rd (hrd _), get_put_same _ (regsWf_wr _ _ hawf) hstate]
    rfl
  · exact (congrArg (bitsOf · 19 16) hmop3).trans hparty
  · exact (congrArg (bitsOf · 23 20) hmop3).trans hchan

theorem mopCommit_clauses {t : BitVec 7} {v : Word} :
    (s.on F.ASC_CTL_HWORD = true → mopCommit t v s = s.raiseBit F.CHN_FLAG_MOPOWN) ∧
    (s.on F.ASC_CTL_HWORD = false → mopState s t.toNat = mopACTIVE ∨ mopState s t.toNat = mopPEND →
      mopCommit t v s = s.raiseBit F.CHN_FLAG_MOPBUSY) ∧
    (s.on F.ASC_CTL_HWORD = false → mopState s t.toNat ≠ mopACTIVE → mopState s t.toNat ≠ mopPEND →
      mopCommit t v s = ((s.regWrite (R.MOP3 t.toNat) v).put (F.MOP0_DBIT t.toNat) (dbitHeld s t.toNat)).mopCommit t.toNat) := by
  refine ⟨fun h => if_pos h, fun h hrun => ?_, fun h hact hpend => ?_⟩
  · simp only [mopCommit, h, Bool.false_eq_true, ↓reduceIte]
    exact if_pos hrun.symm
  · simp only [mopCommit, h, Bool.false_eq_true, ↓reduceIte]
    exact if_neg fun hrun => hrun.elim hpend hact

/-! ### Sectors of a read -/

theorem sectorStart_clauses {t : BitVec 7} {o : MOp} (hop : mediaOp s = some o) (htag : o.tag = t.toNat) (hread : mopWrite s o.tag = false)
    (hmore : o.started < mopNsec s o.tag) (hflow : s.mode = mFLOW) :
    (3 ≤ s.chn.slots.length → sectorStart t s = s.opFail o.tag 8) ∧
    (s.chn.slots.length < 3 → u = { s with chn := { s.chn with
      slots := s.chn.slots ++ [({ tag := o.tag, idx := o.started } : RSec)] } } →
      sectorStart t s = u.setOp { o with started := o.started + 1 }) := by
  have hgo : ¬ (o.tag ≠ t.toNat ∨ mopWrite s o.tag = true ∨ o.started ≥ mopNsec s o.tag ∨ s.mode ≠ mFLOW) := by
    simp [htag ▸ hread, htag, htag ▸ hmore, hflow]
  constructor
  · intro hfull
    simp only [sectorStart, hop, if_neg hgo]
    exact if_pos hfull
  · intro hroom hu
    simp only [sectorStart, hop, if_neg hgo, hu]
    exact if_neg (Nat.not_le.mpr hroom)

theorem setOp_slots (o : MOp) : (s.setOp o).chn.slots = s.chn.slots := by
  unfold State.setOp State.onChn
  simp only
  split
  · split
    · rfl
    · split
      · split <;> rfl
      · rfl
  · rfl

theorem loopFree_chn (ws : List Word × State) (i : Nat) : (loopFree ws i).2.chn = ws.2.chn := by
  refine foldl_keeps (fun p : List Word × State => p.2.chn) ?_ _ _
  exact fun _ _ => rfl

theorem adapt_slots (t : Nat) (samp : Samples) : (s.adapt t samp).chn.slots = s.chn.slots := by
  unfold State.adapt
  split
  · rfl
  · refine ite_keeps (fun w => w.chn.slots) rfl ?_
    refine (setOp_slots _).trans ?_
    refine congrArg ChnState.slots ((foldl_keeps (fun p : List Word × State => p.2.chn) ?_ _ _).trans rfl)
    intro ws i
    split
    · rfl
    · split
      · split
        · exact loopFree_chn _ _
        · rfl
      · split
        · exact loopFree_chn _ _
        · rfl

theorem decoded_of_slot {t j : Nat} {d : Decoded} {r : RSec} (hslots : s.chn.slots = [r]) (htag : r.tag = t) (hidx : r.idx = j)
    (hrun : r.decoding = true) (hdec : r.dec = none) :
    s.decoded t j d = State.judge 4 t { s with chn := { s.chn with slots := [{ r with dec := some d }] } } := by
  simp [State.decoded, State.onChn, hslots, htag, hidx, hrun, hdec]

theorem sectorLastBit_clauses {t : BitVec 7} {samp : Samples} {r : RSec} {a : State} (hslots : s.chn.slots = [r]) (htag : r.tag = t.toNat)
    (hidle : r.decoding = false) (hdec : r.dec = none) (ha : a = s.adapt t.toNat samp)
    (hu : u = { a with chn := { a.chn with slots := [{ r with samp := samp, decoding := true }] } }) :
    (samp.servoLap = false → sectorLastBit t samp s = u) ∧
    (samp.servoLap = true → sectorLastBit t samp s = u.decoded t.toNat r.idx
      { res := 12, iters := 0, user := [], md := [], unsat := 0, erased := 0 }) := by
  have hfind : (s.chn.slots.find? fun (r : RSec) => r.tag == t.toNat && !r.decoding && r.dec.isNone) = some r := by
    simp [hslots, htag, hidle, hdec]
  have haslots : a.chn.slots = [r] := by rw [ha, adapt_slots, hslots]
  have hmark : (a.onChn fun n => { n with
      slots := n.slots.map fun (x : RSec) => if x.tag == t.toNat && x.idx == r.idx then { x with samp, decoding := true } else x }) = u := by
    simp [State.onChn, haslots, htag, hu]
  constructor <;> intro hlap
  · simp only [sectorLastBit, hfind, ← ha, hmark, hlap, Bool.false_eq_true, ↓reduceIte]
  · simp only [sectorLastBit, hfind, ← ha, hmark, hlap, ↓reduceIte]

/-! ### Retained sectors -/

theorem exec_redec (hm : gated s m = false) : exec (.redec m) s = .next (redec s) :=
  congrArg Host.Outcome.next (byCore_of_not_gated hm)

theorem exec_release (hm : gated s m = false) : exec (.release m) s = .next (release s) :=
  congrArg Host.Outcome.next (byCore_of_not_gated hm)

theorem redec_ignored (hrun : s.chn.redec ≠ none) : redec s = s ∧ release s = s := by
  have hsome : s.chn.redec.isSome = true := Option.isSome_iff_ne_none.mpr hrun
  exact ⟨if_pos (by simp [hsome]), if_pos hsome⟩

theorem redec_clauses {i : Nat} (hidle : s.chn.redec = none) (hi : i = s.get F.CHN_RDEC_SLOT) :
    (tabGet s.chn.kept none i ≠ none → u = { s with chn := { s.chn with redec := some (i, s.rd R.CHN_RDEC) } } →
      redec s = u.raiseBit F.CHN_RDRES_BUSY) ∧
    (u = { s with chn := { s.chn with kept := tabPut s.chn.kept none i none } } → release s = u.clrIn F.CHN_STAT_RSLOT i) := by
  constructor
  · intro hkept hu
    simp only [redec, ← hi, hu]
    refine if_neg ?_
    simp [hidle, hkept]
  · intro hu
    simp only [release, ← hi, hu]
    refine if_neg ?_
    simp [hidle]

theorem redecDone_clauses {f g : SectorFacts} {i h res e : Nat} {w : Word} {r : RetSlot} {d : Decoded}
    (hrun : s.chn.redec = some (i, w)) (hkept : tabGet s.chn.kept none i = some r)
    (hg : g = { f with iters := BitVec.ofNat 6 (Nat.min f.iters.toNat (if bitsOf w 7 2 = 0 then s.get F.CHN_ITER_GITER else bitsOf w 7 2)) })
    (hh : h = bitsOf w 20 16) (hres : res = sectorResult s h (w.getLsbD 8) r.lba r.party r.samp g)
    (he : e = erasedBits s h (w.getLsbD 8) true r.samp g) (hd : d = decodedOf res e g)
    (hu : u = ((((({ s with chn := { s.chn with redec := none } } : State).put F.CHN_RDRES_BUSY 0).put
      F.CHN_RDRES_SRES res).put F.CHN_RDRES_ITER d.iters).put F.CHN_RDRES_UNSAT d.unsat).sresCount res) :
    (2 ≤ res → w.getLsbD 9 = false → redecDone f s = u) ∧
    (2 ≤ res → w.getLsbD 9 = true → redecDone f s = u.giveUp (bitsOf r.w0 30 26) res d.iters
      (bitsOf r.w1 24 24 + 2 * bitsOf r.w1 26 26 + 4 * bitsOf w 8 8 + 8) ((bitsOf r.w0 25 0 + r.idx * sectorLen) %
        Nat.max (512 * (30 * bitsOf r.w1 12 0 - 96)) 1) r.lba r.party d.unsat d.erased) ∧
    (res ≤ 1 → redecTakes s r = true → redecDone f s = (u.chPass r.chan r.tag r.idx (some (d.user, d.md))).setPassed
      r.tag (Nat.max (passedOf u r.tag) (r.idx + 1))) ∧
    (res ≤ 1 → redecTakes s r = false → redecDone f s = s) := by
  have hclr : ({ s with chn := { s.chn with redec := none } } : State).put F.CHN_RDRES_BUSY 0 =
      (s.onChn fun n => { n with redec := none }).clr F.CHN_RDRES_BUSY := rfl
  rw [hclr] at hu
  refine ⟨fun hbad hfinal => ?_, fun hbad hfinal => ?_, fun hgood htakes => ?_, fun hgood htakes => ?_⟩
  · have hgo : ¬ (res ≤ 1 ∧ ¬ redecTakes s r = true) := fun h => absurd h.1 (by omega)
    have hnot : ¬ res ≤ 1 := by omega
    simp only [redecDone, hrun, hkept, ← hg, ← hh, ← hres, ← he, ← hd, if_neg hgo, ← hu, if_neg hnot, hfinal, Bool.false_eq_true, ↓reduceIte]
  · have hgo : ¬ (res ≤ 1 ∧ ¬ redecTakes s r = true) := fun h => absurd h.1 (by omega)
    have hnot : ¬ res ≤ 1 := by omega
    simp only [redecDone, hrun, hkept, ← hg, ← hh, ← hres, ← he, ← hd, if_neg hgo, ← hu, if_neg hnot, hfinal, ↓reduceIte]
  · have hgo : ¬ (res ≤ 1 ∧ ¬ redecTakes s r = true) := fun h => h.2 htakes
    simp only [redecDone, hrun, hkept, ← hg, ← hh, ← hres, ← he, ← hd, if_neg hgo, ← hu, if_pos hgood]
  · have hwait : res ≤ 1 ∧ ¬ redecTakes s r = true := ⟨hgood, by simp [htakes]⟩
    simp only [redecDone, hrun, hkept, ← hg, ← hh, ← hres]
    exact if_pos hwait

/-! ### Head contexts -/

theorem exec_headContextWrite {h : BitVec 5} {w : BitVec 3} {v : Word} (hm : gated s m = false) :
    exec (.headContextWrite m h w v) s = .next (headContextWrite h w v s) :=
  congrArg Host.Outcome.next (byCore_of_not_gated hm)

theorem headContextWrite_clauses {h : BitVec 5} {w : BitVec 3} {v : Word} (hhead : h.toNat < 20) :
    (headBusy s h.toNat = true → headContextWrite h w v s = s.raiseBit F.CHN_FLAG_CTXBUSY) ∧
    (headBusy s h.toNat = false → headContextWrite h w v s = s.regWrite (R.HCTX_00 h.toNat + 4 * w.toNat) v) := by
  constructor <;> intro hbusy <;> rw [headContextWrite, if_neg (Nat.not_le.mpr hhead)]
  · exact if_pos hbusy
  · exact if_neg (by simp [hbusy])

end ReadChannel

/-- Settles O30: each command by the operation under the head and the slots it holds. -/
theorem channelReadCommandsComplete : Obligations.ChannelReadCommandsComplete := by
  unfold Obligations.ChannelReadCommandsComplete
  refine ⟨fun m t v s hm => ?_, fun k s hslew => ?_, fun t s u o hop htag hread hmore hflow => ?_,
    fun t samp r s a u hslots htag hidle hdec ha hu => ?_, fun t i f s u r hslots htag hidx hrun hdec hu => ?_,
    fun t i f s u r hretry hslots htag hidx hrun hdec hu => ?_, fun m s hm => ?_, fun m s hm hrun => ?_,
    fun m s u i hm hidle hi => ?_, fun f g s u i h res e w r d hrun hkept hg hh hres he hd hu => ?_, fun m h w v s hm hhead => ?_⟩
  · obtain ⟨howned, hbusy, hfree⟩ := mopCommit_clauses (s := s) (t := t) (v := v)
    simp only [exec_mopCommit hm, Host.Outcome.next.injEq, exists_eq_left']
    exact ⟨howned, hbusy, fun h h' h'' => ⟨hfree h h' h'', fun hs => mopCommit_shows hs t v (hfree h h' h'')⟩⟩
  · exact congrArg Host.Outcome.next (by simp only [synthSlewDone, hslew]; rfl)
  · obtain ⟨hfull, hroom⟩ := sectorStart_clauses (u := u) hop htag hread hmore hflow
    exact ⟨fun h => congrArg (fun w : State => Host.Outcome.next w.chSettle) (hfull h),
      fun h h' => congrArg (fun w : State => Host.Outcome.next w.chSettle) (hroom h h')⟩
  · obtain ⟨hout, hlap⟩ := sectorLastBit_clauses hslots htag hidle hdec ha hu
    exact ⟨fun h => congrArg (fun w : State => Host.Outcome.next w.chSettle) (hout h),
      fun h => congrArg (fun w : State => Host.Outcome.next w.chSettle) (hlap h)⟩
  · rw [hu]
    exact congrArg (fun w : State => Host.Outcome.next w.chSettle) (decoded_of_slot hslots htag hidx hrun hdec)
  · have hlate : decodeDeadline t i f s = decodeDone t i { f with conv := false } s := if_neg (by simp [hretry])
    rw [hu]
    exact congrArg (fun w : State => Host.Outcome.next w.chSettle) (hlate.trans (decoded_of_slot hslots htag hidx hrun hdec))
  · exact ⟨congrArg Host.Outcome.next (byCore_of_not_gated hm), congrArg Host.Outcome.next (byCore_of_not_gated hm)⟩
  · rw [exec_redec hm, exec_release hm]
    obtain ⟨hredec, hrelease⟩ := redec_ignored hrun
    exact ⟨congrArg Host.Outcome.next hredec, congrArg Host.Outcome.next hrelease⟩
  · rw [exec_redec hm, exec_release hm]
    obtain ⟨hredec, hrelease⟩ := redec_clauses (u := u) hidle hi
    exact ⟨fun h h' => congrArg Host.Outcome.next (hredec h h'), fun h => congrArg Host.Outcome.next (hrelease h)⟩
  · obtain ⟨hbad, hfinal, hgood, hwait⟩ := redecDone_clauses hrun hkept hg hh hres he hd hu
    exact ⟨fun h h' => congrArg (fun w : State => Host.Outcome.next w.chSettle) (hbad h h'),
      fun h h' => congrArg (fun w : State => Host.Outcome.next w.chSettle) (hfinal h h'),
      fun h h' => congrArg (fun w : State => Host.Outcome.next w.chSettle) (hgood h h'),
      fun h h' => congrArg (fun w : State => Host.Outcome.next w.chSettle) (hwait h h')⟩
  · rw [exec_headContextWrite hm]
    obtain ⟨hbusy, hfree⟩ := headContextWrite_clauses (s := s) (w := w) (v := v) hhead
    exact ⟨fun h => congrArg Host.Outcome.next (hbusy h), fun h => congrArg Host.Outcome.next (hfree h)⟩

end Sys2Proof.Proofs

/-! PROOFS. A sector is written only with all its data in time (R277, R279, R280). -/

namespace Sys2Proof.Proofs

open Sys2Proof Sys2Proof.Machine

section WriteChannel

variable {s u v : State} {o q : MOp} {t : BitVec 7}

theorem writeDataCheck_clauses (hop : mediaOp s = some o) (htag : o.tag = t.toNat) (hwrite : mopWrite s o.tag = true)
    (hmore : o.started < mopNsec s o.tag) (hnear : o.started ≤ o.next + 1) (hdata : o.nodata = false) :
    ((∀ w ∈ fifoOf s (mopChan s o.tag), w.tag = o.tag → w.idx ≠ o.started) →
      (o.started = o.next → writeDataCheck t s = s.opFail o.tag 7) ∧
      (o.started ≠ o.next → writeDataCheck t s = s.setOp { o with nodata := true })) ∧
    (∀ w ∈ fifoOf s (mopChan s o.tag), w.tag = o.tag → w.idx = o.started →
      (gateAllowed s = true → writeDataCheck t s = s.setOp { o with started := o.started + 1, gate := true }) ∧
      (gateAllowed s = false → writeDataCheck t s = s.opFail o.tag 6)) := by
  have hgo : ¬ (o.tag ≠ t.toNat ∨ ¬ mopWrite s o.tag = true ∨ o.started ≥ mopNsec s o.tag ∨ o.started > o.next + 1 ∨ o.nodata = true) := by
    rintro (h | h | h | h | h)
    · exact h htag
    · exact h hwrite
    · exact absurd hmore (Nat.not_lt.mpr h)
    · exact absurd hnear (Nat.not_le.mpr h)
    · simp [hdata] at h
  constructor
  · intro hmissing
    have hnone : ((fifoOf s (mopChan s o.tag)).any fun (w : WSec) => w.tag == o.tag && w.idx == o.started) = false := by
      simpa using hmissing
    constructor <;> intro hnext <;> simp only [writeDataCheck, hop, if_neg hgo, hnone, Bool.false_eq_true, ↓reduceIte]
    · exact if_pos hnext
    · exact if_neg hnext
  · intro w hw hwtag hwidx
    have hsome : ((fifoOf s (mopChan s o.tag)).any fun (w : WSec) => w.tag == o.tag && w.idx == o.started) = true := by
      rw [List.any_eq_true]
      exact ⟨w, hw, by simp [hwtag, hwidx]⟩
    constructor <;> intro hgate <;> simp only [writeDataCheck, hop, if_neg hgo, hsome, ↓reduceIte]
    · exact if_pos hgate
    · exact if_neg (by simp [hgate])

theorem sectorWritten_clauses {w : WSec} {c : Nat} {bits : List Bool} (hop : mediaOp s = some o) (htag : o.tag = t.toNat)
    (hwrite : mopWrite s o.tag = true) (hgate : o.gate = true) (hmore : o.next < o.started) (hc : c = mopChan s o.tag)
    (hfind : (fifoOf s c).find? (fun (w : WSec) => w.tag == o.tag && w.idx == o.next) = some w)
    (hbits : bits = sectorBits (mopLba s o.tag o.next) (sectorInfo s o.tag w))
    (hu : u = (s.emit (.media (s.get (F.MOP0_HEAD o.tag)) (mopDbit s o.tag o.next) bits
      (sectorShifts s o.tag (mopDbit s o.tag o.next) bits))).setFifo c
        ((fifoOf s c).filter fun (x : WSec) => !(x.tag == o.tag && x.idx == o.next)))
    (hq : q = { o with next := o.next + 1, ndone := o.ndone + 1, gate := decide (o.started > o.next + 1) })
    (hv : v = State.chFill none 3 c (u.setOp q)) :
    (mopNsec v o.tag ≤ o.next + 1 → sectorWritten t s = v.opEnd o.tag 0) ∧
    (o.next + 1 < mopNsec v o.tag → o.nodata = true → o.next + 1 = o.started → sectorWritten t s = v.opFail o.tag 7) ∧
    (o.next + 1 < mopNsec v o.tag → o.nodata = false ∨ o.next + 1 ≠ o.started → sectorWritten t s = v) := by
  have hgo : ¬ (o.tag ≠ t.toNat ∨ ¬ mopWrite s o.tag = true ∨ ¬ o.gate = true ∨ o.started ≤ o.next) := by
    rintro (h | h | h | h)
    · exact h htag
    · exact h hwrite
    · exact h hgate
    · omega
  have hfifo : fifoOf (s.emit (.media (s.get (F.MOP0_HEAD o.tag)) (mopDbit s o.tag o.next) bits
      (sectorShifts s o.tag (mopDbit s o.tag o.next) bits))) c = fifoOf s c := rfl
  have hwritten : sectorWritten t s = if o.next + 1 ≥ mopNsec v o.tag then v.opEnd o.tag 0
      else if o.nodata = true ∧ o.next + 1 = o.started then v.opFail o.tag 7 else v := by
    simp only [sectorWritten, hop, ← hc, hfind, if_neg hgo, ← hbits, hfifo, ← hu, ← hq, ← hv]
  rw [hwritten]
  refine ⟨fun h => if_pos h, fun h hdata hlast => ?_, fun h hgoes => ?_⟩
  · rw [if_neg (Nat.not_le.mpr h)]
    exact if_pos ⟨hdata, hlast⟩
  · rw [if_neg (Nat.not_le.mpr h)]
    refine if_neg fun hend => ?_
    rcases hgoes with hdata | hlast
    · simp [hdata] at hend
    · exact hlast hend.2

end WriteChannel

/-- Settles O31: the data check and the end of a sector, by the write FIFO. -/
theorem channelWriteCommandsComplete : Obligations.ChannelWriteCommandsComplete := by
  unfold Obligations.ChannelWriteCommandsComplete
  refine ⟨fun t s o hop htag hwrite hmore hnear hdata => ?_,
    fun t s u v o q w c bits hop htag hwrite hgate hmore hc hfind hbits hu hq hv => ?_⟩
  · obtain ⟨hmissing, hthere⟩ := writeDataCheck_clauses hop htag hwrite hmore hnear hdata
    exact ⟨fun h => ⟨fun h' => congrArg (fun w : State => Host.Outcome.next w.chSettle) ((hmissing h).1 h'),
        fun h' => congrArg (fun w : State => Host.Outcome.next w.chSettle) ((hmissing h).2 h')⟩,
      fun w hw h h' => ⟨fun h'' => congrArg (fun w : State => Host.Outcome.next w.chSettle) ((hthere w hw h h').1 h''),
        fun h'' => congrArg (fun w : State => Host.Outcome.next w.chSettle) ((hthere w hw h h').2 h'')⟩⟩
  · obtain ⟨hend, hlate, hgo⟩ := sectorWritten_clauses hop htag hwrite hgate hmore hc hfind hbits hu hq hv
    exact ⟨fun h => congrArg (fun w : State => Host.Outcome.next w.chSettle) (hend h),
      fun h h' h'' => congrArg (fun w : State => Host.Outcome.next w.chSettle) (hlate h h' h''),
      fun h h' => congrArg (fun w : State => Host.Outcome.next w.chSettle) (hgo h h')⟩

end Sys2Proof.Proofs

/-! PROOFS. Lookups of the Firn data channel (R294 to R298). -/

namespace Sys2Proof.Proofs

open Sys2Proof Sys2Proof.Machine

section Lookups

variable {s u w : State} {m : Master} {v : Word} {p lba n k : Nat} {g : Seg} {it : Intent} {pin : Bool}

theorem bankTaken_of_awake (hsv : m ≠ .sv) (hawake : s.on F.FIRN_STAT_ASLEEP = false) : bankTaken s m = true := by
  simp [bankTaken, hasBank, hsv, firnAwake, hawake]

/-- The intents' commands. -/
theorem exec_lookCmd (hm : gated s m = false) : exec (.lookup m v) s = .next (lookCmd .look m v s) ∧
    exec (.lookupAlloc m v) s = .next (lookCmd .alloc m v s) ∧ exec (.reserve m v) s = .next (lookCmd .reserve m v s) ∧
    exec (.filllock m v) s = .next (lookCmd .fillLock m v s) :=
  ⟨congrArg Host.Outcome.next (byCore_of_not_gated hm), congrArg Host.Outcome.next (byCore_of_not_gated hm),
    congrArg Host.Outcome.next (byCore_of_not_gated hm), congrArg Host.Outcome.next (byCore_of_not_gated hm)⟩

theorem lookCmd_of_answer {x : Bool} {r : LookRes} (hsv : m ≠ .sv) (hawake : s.on F.FIRN_STAT_ASLEEP = false) (hp : p = bitsOf v 7 4)
    (hn : n = bitsOf v 13 8 + 1) (hx : x = (bitsOf v 14 14 == 1)) (h : s.firnLookup p (lkey s m) n it x = (r, u)) :
    lookCmd it m v s = u.lookResult m r := by
  rw [lookCmd_of_taken (bankTaken_of_awake hsv hawake), ← hp, ← hn, ← hx, h]

/-! ### The answers of a lookup -/

theorem firnLookup_badarg (h : 64 < lba % 64 + n) : s.firnLookup p lba n it pin = ({ result := 9 }, s) := if_pos (.inr h)

/-- Nothing of the command is out of range. -/
theorem lookInRange (hn : n ≠ 0) (hlen : lba % 64 + n ≤ 64) : ¬ (n = 0 ∨ lba % 64 + n > 64) := by omega

theorem firnLookup_refused {r : Nat} (hn : n ≠ 0) (hlen : lba % 64 + n ≤ 64)
    (hrefuse : reserveRefusal s p (lba / 64) (maskOf (lba % 64) n) = some r) : s.firnLookup p lba n .reserve pin =
      ({ result := r, key := findTag s p (lba / 64) }, if r = lrQUOTA then s.inc F.FIRN_CNT1_QUOTA_CNT else s) := by
  simp only [State.firnLookup, if_neg (lookInRange hn hlen), hrefuse, ↓reduceIte]

/-- A lookup that no reservation refuses and that finds a tag. -/
theorem firnLookup_found (hn : n ≠ 0) (hlen : lba % 64 + n ≤ 64)
    (hgo : it = .reserve → reserveRefusal s p (lba / 64) (maskOf (lba % 64) n) = none) (htag : findTag s p (lba / 64) = some k)
    (hheld : (s.tag k).held = some g) : s.firnLookup p lba n it pin =
      if pin && g.pin == 255 then ({ result := 7, key := some k }, s) else (s.touch k).finishLook k p (maskOf (lba % 64) n) it pin 0 0 := by
  have hnone : (if it = .reserve then reserveRefusal s p (lba / 64) (maskOf (lba % 64) n) else none) = none := by
    by_cases hit : it = .reserve
    · rw [if_pos hit, hgo hit]
    · exact if_neg hit
  simp only [State.firnLookup, if_neg (lookInRange hn hlen), hnone, htag, hheld]
  rfl

theorem firnLookup_missing (hn : n ≠ 0) (hlen : lba % 64 + n ≤ 64) (hit : it ≠ .reserve) (htag : findTag s p (lba / 64) = none) :
    s.firnLookup p lba n it pin = s.bring p (lba / 64) (maskOf (lba % 64) n) it pin := by
  simp only [State.firnLookup, if_neg (lookInRange hn hlen), if_neg hit, htag]

/-- A plain lookup, and one with allocating intent, ends with the tag alone. -/
theorem finishLook_plain {x : Mask} {r c : Nat} (hit : it = .look ∨ it = .alloc) : s.finishLook k p x it pin r c =
    ({ result := r, source := c, key := some k }, s.pinTag k pin) := by
  have happly : ∀ t : State, t.applyIntent k p x it = (0, none, t) := by
    intro t
    unfold State.applyIntent
    split
    · rfl
    · rcases hit with hit | hit <;> simp only [hit]
  simp only [State.finishLook, happly]

theorem finishLook_reserve {x c : Mask} {r a : Nat} (hheld : (s.tag k).held = some g) (hc : c = x &&& ~~~g.d)
    (hw : w = (s.setTag k { s.tag k with held := some { g with charge := chargeMask c g.charge } }).addUnits p (popcount c)) :
    s.finishLook k p x .reserve false r a = ({ result := r, source := a, key := some k, chg := popcount c }, w) := by
  have hpin : s.pinTag k false = s := rfl
  simp only [State.finishLook, hpin, State.applyIntent, hheld, ← hc, ← hw]

theorem finishLook_fillLock {x c : Mask} {r a : Nat} (hheld : (s.tag k).held = some g) (hc : c = x &&& ~~~(g.v ||| g.d ||| g.l))
    (hw : w = s.setTag k { s.tag k with held := some { g with l := g.l ||| c } }) :
    s.finishLook k p x .fillLock false r a = ({ result := r, source := a, key := some k, granted := some c }, w) := by
  have hpin : s.pinTag k false = s := rfl
  simp only [State.finishLook, hpin, State.applyIntent, hheld, ← hc, ← hw]

/-- The segment that a tag holds. -/
theorem segNow_of_tag {seg : Nat} (htag : findTag s p seg = some k) (hheld : (s.tag k).held = some g) : segNow s p seg = some g := by
  simp only [segNow, htag, hheld]

theorem reserveRefusal_none {seg : Nat} {x : Mask} (hretreat : s.mode ≠ mRETREAT) (hway : noColumn s p = false)
    (hnow : segNow s p seg = some g) (hfree : x &&& g.l = 0) (hquota : s.dcount p + popcount (x &&& ~~~g.d) ≤ s.get (F.FIRN_DQ_DQUOTA p)) :
    reserveRefusal s p seg x = none := by
  have hlocks : ¬ ((x &&& g.l) != 0) = true := by simp [hfree]
  rw [reserveRefusal, if_neg hretreat, if_neg (by simp [hway]), hnow]
  exact (if_neg (Nat.not_lt.mpr hquota)).trans (if_neg hlocks)

theorem reserveRefusal_quota {seg : Nat} {x : Mask} (hretreat : s.mode ≠ mRETREAT) (hway : noColumn s p = false)
    (hnow : segNow s p seg = some g) (hquota : s.get (F.FIRN_DQ_DQUOTA p) < s.dcount p + popcount (x &&& ~~~g.d)) :
    reserveRefusal s p seg x = some 5 := by
  rw [reserveRefusal, if_neg hretreat, if_neg (by simp [hway]), hnow]
  exact if_pos hquota

theorem bring_of_nowhere {seg : Nat} {x : Mask} (hserac : findSerac s p seg = none) (hslot : findSlot s p seg = none) :
    s.bring p seg x .look pin = ({ result := 1 }, s) ∧
    (noColumn s p = false → takeWay s p seg = some k →
      s.bring p seg x .alloc pin = (s.allocNew k p seg).finishLook k p x .alloc pin 2 3) ∧
    (noColumn s p = false → takeWay s p seg = none → s.bring p seg x .alloc pin = ({ result := 3 }, s.inc F.FIRN_CNT1_FULL_CNT)) := by
  refine ⟨?_, fun hway htake => ?_, fun hway htake => ?_⟩ <;> simp only [State.bring, hserac, hslot]
  · rfl
  · simp only [hway, htake]
    rfl
  · simp only [hway, htake]
    rfl

end Lookups

section Commands

variable {s u w : State} {m : Master} {v : Word} {p lba n k : Nat} {g : Seg}
variable (hsv : m ≠ .sv) (hawake : s.on F.FIRN_STAT_ASLEEP = false) (hp : p = bitsOf v 7 4) (hlba : lba = lkey s m)
  (hn : n = bitsOf v 13 8 + 1) (hlen : lba % 64 + n ≤ 64)

include hsv hawake hp hlba hn

/-- A command with PIN = 0 answers as its lookup does. -/
theorem lookCmd_unpinned {it : Intent} {r : LookRes} (hpin : bitsOf v 14 14 = 0) (h : s.firnLookup p lba n it false = (r, u)) :
    lookCmd it m v s = u.lookResult m r :=
  lookCmd_of_answer hsv hawake hp hn (x := false) (by simp [hpin]) (hlba ▸ h)

include hlen

theorem lookup_pins_clauses (hpin : bitsOf v 14 14 = 1) (htag : findTag s p (lba / 64) = some k) (hheld : (s.tag k).held = some g)
    (hu : u = s.touch k) :
    (g.pin ≠ 255 → lookCmd .look m v s = (u.setTag k { u.tag k with
      held := (u.tag k).held.map fun g => { g with pin := g.pin + 1 } }).lookResult m { result := 0, source := 0, key := some k }) ∧
    (g.pin = 255 → lookCmd .look m v s = s.lookResult m { result := 7, key := some k }) := by
  have hfound := firnLookup_found (it := .look) (pin := true) (by omega) hlen (by simp) htag hheld
  have hcmd : ∀ {r : LookRes} {t : State}, s.firnLookup p lba n .look true = (r, t) → lookCmd .look m v s = t.lookResult m r :=
    fun h => lookCmd_of_answer hsv hawake hp hn (x := true) (by simp [hpin]) (hlba ▸ h)
  constructor <;> intro hcount
  · refine hcmd (hfound.trans ?_)
    rw [if_neg (by simp [hcount]), finishLook_plain (.inl rfl), hu]
    rfl
  · refine hcmd (hfound.trans (if_pos ?_))
    simp [hcount]

theorem lookup_hits_clauses {c : Mask} (hpin : bitsOf v 14 14 = 0) (htag : findTag s p (lba / 64) = some k) (hheld : (s.tag k).held = some g)
    (hu : u = s.touch k) (huheld : (u.tag k).held = some g) :
    lookCmd .look m v s = u.lookResult m { result := 0, source := 0, key := some k } ∧
    lookCmd .alloc m v s = u.lookResult m { result := 0, source := 0, key := some k } ∧
    (s.mode ≠ mRETREAT → noColumn s p = false → c = maskOf (lba % 64) n &&& ~~~g.d → maskOf (lba % 64) n &&& g.l = 0 →
      s.dcount p + popcount c ≤ s.get (F.FIRN_DQ_DQUOTA p) →
      w = (u.setTag k { u.tag k with held := some { g with charge := chargeMask c g.charge } }).addUnits p (popcount c) →
      lookCmd .reserve m v s = w.lookResult m { result := 0, source := 0, key := some k, chg := popcount c }) ∧
    (c = maskOf (lba % 64) n &&& ~~~(g.v ||| g.d ||| g.l) → w = u.setTag k { u.tag k with held := some { g with l := g.l ||| c } } →
      lookCmd .fillLock m v s = w.lookResult m { result := 0, source := 0, key := some k, granted := some c }) := by
  have hfound : ∀ it : Intent, (it = .reserve → reserveRefusal s p (lba / 64) (maskOf (lba % 64) n) = none) →
      s.firnLookup p lba n it false = u.finishLook k p (maskOf (lba % 64) n) it false 0 0 := fun it hgo =>
    hu ▸ firnLookup_found (by omega) hlen hgo htag hheld
  refine ⟨lookCmd_unpinned hsv hawake hp hlba hn hpin ((hfound .look (by simp)).trans (finishLook_plain (.inl rfl))),
    lookCmd_unpinned hsv hawake hp hlba hn hpin ((hfound .alloc (by simp)).trans (finishLook_plain (.inr rfl))),
    fun hretreat hway hc hfree hquota hw => ?_, fun hc hw => ?_⟩
  · have hnone := reserveRefusal_none hretreat hway (segNow_of_tag htag hheld) hfree (hc ▸ hquota)
    exact lookCmd_unpinned hsv hawake hp hlba hn hpin ((hfound .reserve fun _ => hnone).trans (finishLook_reserve huheld hc hw))
  · exact lookCmd_unpinned hsv hawake hp hlba hn hpin ((hfound .fillLock (by simp)).trans (finishLook_fillLock huheld hc hw))

theorem lookup_misses_clauses (hpin : bitsOf v 14 14 = 0) (htag : findTag s p (lba / 64) = none)
    (hserac : findSerac s p (lba / 64) = none) (hslot : findSlot s p (lba / 64) = none) :
    lookCmd .look m v s = s.lookResult m { result := 1 } ∧
    (noColumn s p = false → takeWay s p (lba / 64) = some k → lookCmd .alloc m v s =
      (s.allocNew k p (lba / 64)).lookResult m { result := 2, source := 3, key := some k }) ∧
    (noColumn s p = false → takeWay s p (lba / 64) = none →
      lookCmd .alloc m v s = (s.inc F.FIRN_CNT1_FULL_CNT).lookResult m { result := 3 }) := by
  obtain ⟨hmiss, hnew, hfull⟩ := bring_of_nowhere (k := k) (pin := false) (x := maskOf (lba % 64) n) hserac hslot
  have hbring : ∀ it : Intent, it ≠ .reserve → s.firnLookup p lba n it false = s.bring p (lba / 64) (maskOf (lba % 64) n) it false :=
    fun it hit => firnLookup_missing (by omega) hlen hit htag
  exact ⟨lookCmd_unpinned hsv hawake hp hlba hn hpin ((hbring .look (by simp)).trans hmiss),
    fun hway htake => lookCmd_unpinned hsv hawake hp hlba hn hpin
      (((hbring .alloc (by simp)).trans (hnew hway htake)).trans (finishLook_plain (.inr rfl))),
    fun hway htake => lookCmd_unpinned hsv hawake hp hlba hn hpin ((hbring .alloc (by simp)).trans (hfull hway htake))⟩

theorem reserve_refused_clauses {r : Nat} (hrefuse : reserveRefusal s p (lba / 64) (maskOf (lba % 64) n) = some r) :
    lookCmd .reserve m v s = (if r = lrQUOTA then s.inc F.FIRN_CNT1_QUOTA_CNT else s).lookResult m
      { result := r, key := findTag s p (lba / 64) } :=
  lookCmd_of_answer hsv hawake hp hn (x := bitsOf v 14 14 == 1) rfl (hlba ▸ firnLookup_refused (by omega) hlen hrefuse)

end Commands

/-- Settles O34: each intent by where the segment lies. -/
theorem firnLookupCommandsComplete : Obligations.FirnLookupCommandsComplete := by
  unfold Obligations.FirnLookupCommandsComplete
  refine ⟨fun m v s u p n x r hsv hm hawake hp hn hx => ?_, fun m v s hsv hm hawake hlen => ?_,
    fun m v s u p lba n k g hsv hm hawake hp hlba hn hlen hpin htag hheld hu => ?_,
    fun m v s u w p lba n k g c hsv hm hawake hp hlba hn hlen hpin htag hheld hu huheld => ?_,
    fun m v s p lba n k hsv hm hawake hp hlba hn hlen hpin htag hserac hslot => ?_,
    fun m v s p lba n hsv hm hawake hp hlba hn hlen hretreat => ?_,
    fun m v s p lba n k g hsv hm hawake hp hlba hn hlen hretreat hway htag hheld hquota => ?_, fun v s => ?_⟩
  · obtain ⟨hlook, halloc, hreserve, hfill⟩ := exec_lookCmd (s := s) (v := v) hm
    rw [hlook, halloc, hreserve, hfill]
    exact ⟨fun h => congrArg Host.Outcome.next (lookCmd_of_answer hsv hawake hp hn hx h),
      fun h => congrArg Host.Outcome.next (lookCmd_of_answer hsv hawake hp hn hx h),
      fun h => congrArg Host.Outcome.next (lookCmd_of_answer hsv hawake hp hn hx h),
      fun h => congrArg Host.Outcome.next (lookCmd_of_answer hsv hawake hp hn hx h)⟩
  · obtain ⟨hlook, halloc, hreserve, hfill⟩ := exec_lookCmd (s := s) (v := v) hm
    have hbad : ∀ it : Intent, lookCmd it m v s = s.lookResult m { result := 9 } :=
      fun it => lookCmd_of_answer hsv hawake rfl rfl rfl (firnLookup_badarg hlen)
    rw [hlook, halloc, hreserve, hfill, hbad, hbad, hbad, hbad]
    exact ⟨rfl, rfl, rfl, rfl⟩
  · obtain ⟨hpins, hmax⟩ := lookup_pins_clauses hsv hawake hp hlba hn hlen hpin htag hheld hu
    rw [(exec_lookCmd hm).1]
    exact ⟨fun h => congrArg Host.Outcome.next (hpins h), fun h => congrArg Host.Outcome.next (hmax h)⟩
  · obtain ⟨hlook, halloc, hreserve, hfill⟩ := exec_lookCmd (s := s) (v := v) hm
    obtain ⟨hhit, hhit', hcharge, hlock⟩ := lookup_hits_clauses (w := w) (c := c) hsv hawake hp hlba hn hlen hpin htag hheld hu huheld
    rw [hlook, halloc, hreserve, hfill]
    exact ⟨congrArg Host.Outcome.next hhit, congrArg Host.Outcome.next hhit',
      fun h h1 h2 h3 h4 h5 => congrArg Host.Outcome.next (hcharge h h1 h2 h3 h4 h5), fun h h' => congrArg Host.Outcome.next (hlock h h')⟩
  · obtain ⟨hlook, halloc, -, -⟩ := exec_lookCmd (s := s) (v := v) hm
    obtain ⟨hmiss, hnew, hfull⟩ := lookup_misses_clauses (k := k) hsv hawake hp hlba hn hlen hpin htag hserac hslot
    rw [hlook, halloc]
    exact ⟨congrArg Host.Outcome.next hmiss, fun h h' => congrArg Host.Outcome.next (hnew h h'),
      fun h h' => congrArg Host.Outcome.next (hfull h h')⟩
  · rw [(exec_lookCmd hm).2.2.1]
    exact congrArg Host.Outcome.next (reserve_refused_clauses hsv hawake hp hlba hn hlen (if_pos hretreat))
  · rw [(exec_lookCmd hm).2.2.1, ← htag]
    exact congrArg Host.Outcome.next (reserve_refused_clauses hsv hawake hp hlba hn hlen
      (reserveRefusal_quota hretreat hway (segNow_of_tag htag hheld) hquota))
  · obtain ⟨hlook, halloc, hreserve, hfill⟩ := exec_lookCmd (s := s) (v := v) gated_sv
    have hnone : ∀ it : Intent, lookCmd it .sv v s = s := fun it => lookCmd_of_not_taken rfl
    rw [hlook, halloc, hreserve, hfill, hnone, hnone, hnone, hnone]
    exact ⟨rfl, rfl, rfl, rfl⟩

end Sys2Proof.Proofs

/-! PROOFS. The set-and-way commands of the Firn data channel and the end of a write-back (R297 to R300, R306, R307). -/

namespace Sys2Proof.Proofs

open Sys2Proof Sys2Proof.Machine

section SegmentCommands

variable {s u : State} {m : Master} {v : Word} {k j : Nat} {g h : Seg} {op : Maint}

theorem exec_segCmd (hm : gated s m = false) : exec (.firnCommit m v) s = .next (firnCommitCmd m v s) ∧
    exec (.fill m v) s = .next (fillCmd m v s) ∧ exec (.firnAbort m v) s = .next (abortCmd m v s) ∧
    exec (.unpin m v) s = .next (unpinCmd m v s) :=
  ⟨congrArg Host.Outcome.next (byCore_of_not_gated hm), congrArg Host.Outcome.next (byCore_of_not_gated hm),
    congrArg Host.Outcome.next (byCore_of_not_gated hm), congrArg Host.Outcome.next (byCore_of_not_gated hm)⟩

theorem exec_maintCmd (hm : gated s m = false) : exec (.clean m v) s = .next (maintCmd .clean m v s) ∧
    exec (.inval m v) s = .next (maintCmd .inval m v s) ∧ exec (.cleaninval m v) s = .next (maintCmd .cleanInval m v s) ∧
    exec (.discard m v) s = .next (maintCmd .discard m v s) :=
  ⟨congrArg Host.Outcome.next (byCore_of_not_gated hm), congrArg Host.Outcome.next (byCore_of_not_gated hm),
    congrArg Host.Outcome.next (byCore_of_not_gated hm), congrArg Host.Outcome.next (byCore_of_not_gated hm)⟩

theorem mayDiscard_of_ne (hsv : m ≠ .sv) (hsec : m ≠ .sec) : mayDiscard m = true := by
  cases m with
  | sec => exact absurd rfl hsec
  | sv => exact absurd rfl hsv
  | hc0 => rfl
  | hc1 => rfl
  | mc => rfl

/-! ### What maintenance does to a tag -/

theorem postClean_full {x : Mask} {b : Bool} (hheld : (s.tag k).held = some g) (hfull : 64 ≤ s.firn.clq.length)
    (hdirty : x &&& g.d &&& ~~~g.p ≠ 0) : s.postClean k x b = (none, s) := by
  simp only [State.postClean, hheld]
  rw [if_neg hdirty]
  exact if_pos hfull

theorem maintTag_clean {x : Mask} (hheld : (s.tag k).held = some g) : s.maintTag .clean k x = s.postClean k x false := by
  simp only [State.maintTag, hheld]

theorem maintTag_inval {x : Mask} (hheld : (s.tag k).held = some g) : s.maintTag .inval k x =
    (some (changed g (invalSeg g x)), s.setTag k { s.tag k with held := some (invalSeg g x) }) := by
  simp only [State.maintTag, hheld]

theorem maintTag_cleanInval_full {x : Mask} (hheld : (s.tag k).held = some g) (hpost : s.postClean k x true = (none, s)) :
    s.maintTag .cleanInval k x = (none, s) := by
  simp only [State.maintTag, hheld, hpost]

theorem maintTag_cleanInval {x : Mask} {n : Nat} (hheld : (s.tag k).held = some g) (hpost : s.postClean k x true = (some n, u))
    (hafter : (u.tag k).held = some h) : s.maintTag .cleanInval k x =
      (some (n + changed h (invalSeg h x)), u.setTag k { u.tag k with held := some (invalSeg h x) }) := by
  simp only [State.maintTag, hheld, hpost, hafter]

theorem maintTag_discard {x : Mask} (hheld : (s.tag k).held = some g) : s.maintTag .discard k x =
    (some (changed g (discardSeg g x).1), (s.setTag k { s.tag k with held := some (discardSeg g x).1 }).dropUnits g.owner
      (discardSeg g x).2) := by
  simp only [State.maintTag, hheld]

/-! ### The commands on a tag -/

section OnTag

variable (hsv : m ≠ .sv) (hawake : s.on F.FIRN_STAT_ASLEEP = false) (htgt : scmdTgt v = false)

include hsv hawake htgt

/-- The maintenance of a tag whose GEN matches. -/
theorem maintCmd_tag (hop : op = .discard → m ≠ .sec) (hgen : (s.tag (scmdKey v)).gen = scmdGen v) : maintCmd op m v s =
    match (s.maintTag op (scmdKey v) (~~~0)).1 with
    | none => (s.maintTag op (scmdKey v) (~~~0)).2.segResult m 4 0
    | some n => (s.maintTag op (scmdKey v) (~~~0)).2.segResult m 0 n := by
  have hallowed : ¬ (op = .discard ∧ ¬ mayDiscard m = true) := fun h => h.2 (mayDiscard_of_ne hsv (hop h.1))
  rw [maintCmd, bankTaken_of_awake hsv hawake, if_pos rfl, if_neg hallowed, htgt, if_neg Bool.false_ne_true, if_neg (not_not_intro hgen)]
  rfl

theorem maintCmd_tag_some {n : Nat} (hop : op = .discard → m ≠ .sec) (hgen : (s.tag (scmdKey v)).gen = scmdGen v)
    (hmaint : s.maintTag op (scmdKey v) (~~~0) = (some n, u)) : maintCmd op m v s = u.segResult m 0 n := by
  rw [maintCmd_tag hsv hawake htgt hop hgen, hmaint]

theorem maintCmd_tag_none (hop : op = .discard → m ≠ .sec) (hgen : (s.tag (scmdKey v)).gen = scmdGen v)
    (hmaint : s.maintTag op (scmdKey v) (~~~0) = (none, u)) : maintCmd op m v s = u.segResult m 4 0 := by
  rw [maintCmd_tag hsv hawake htgt hop hgen, hmaint]

theorem maintCmd_stale (hop : op = .discard → m ≠ .sec) (hgen : (s.tag (scmdKey v)).gen ≠ scmdGen v) :
    maintCmd op m v s = s.segResult m 1 0 := by
  have hallowed : ¬ (op = .discard ∧ ¬ mayDiscard m = true) := fun h => h.2 (mayDiscard_of_ne hsv (hop h.1))
  rw [maintCmd, bankTaken_of_awake hsv hawake, if_pos rfl, if_neg hallowed, htgt, if_neg Bool.false_ne_true, if_pos hgen]
  rfl

theorem firnCommitCmd_clauses {du : Int} {pt : Bool} {n : Nat} (hgen : (s.tag (scmdKey v)).gen = scmdGen v)
    (hheld : (s.tag (scmdKey v)).held = some g)
    (hfold : (sectorsOf (smask s m)).foldl (fun a i => commitSector (sfull s m) i a) (g, (0 : Int), false, 0) = (h, du, pt, n)) :
    firnCommitCmd m v s = ((s.setTag (scmdKey v) { s.tag (scmdKey v) with held := some h }).moveUnits g.owner du).segResult m
      (if pt then 2 else 0) n := by
  have hcommit : s.firnCommit (scmdKey v) (scmdGen v) (smask s m) (sfull s m) =
      (if pt then 2 else 0, n, (s.setTag (scmdKey v) { s.tag (scmdKey v) with held := some h }).moveUnits g.owner du) := by
    simp only [State.firnCommit, hheld, if_neg (not_not_intro hgen), hfold, srPARTIAL, srOK]
  simp only [firnCommitCmd, bankTaken_of_awake hsv hawake, htgt, hcommit, Bool.false_eq_true, ↓reduceIte]

theorem fillCmd_tag (hgen : (s.tag (scmdKey v)).gen = scmdGen v) (hheld : (s.tag (scmdKey v)).held = some g) : fillCmd m v s =
    (s.setTag (scmdKey v) { s.tag (scmdKey v) with held := some (fillSeg g (smask s m)) }).segResult m 0 (popcount (smask s m &&& g.l)) := by
  simp only [fillCmd, bankTaken_of_awake hsv hawake, State.firnFill, htgt, if_neg (not_not_intro hgen), hheld, Bool.false_eq_true, ↓reduceIte]
  rfl

theorem abortCmd_tag (hgen : (s.tag (scmdKey v)).gen = scmdGen v) (hheld : (s.tag (scmdKey v)).held = some g) : abortCmd m v s =
    ((s.setTag (scmdKey v) { s.tag (scmdKey v) with held := some { unlockSeg g (smask s m) with
      charge := dropCharges (Nat.min (bitsOf v 31 25) 64) (smask s m) g.charge } }).dropReserved g.owner
        (Nat.min (bitsOf v 31 25) 64)).segResult m 0 (popcount (smask s m &&& g.l)) := by
  simp only [abortCmd, bankTaken_of_awake hsv hawake, State.firnAbort, htgt, if_neg (not_not_intro hgen), hheld, Bool.false_eq_true,
    ↓reduceIte]
  rfl

theorem unpinCmd_tag (hgen : (s.tag (scmdKey v)).gen = scmdGen v) (hheld : (s.tag (scmdKey v)).held = some g) :
    (g.pin ≠ 0 → unpinCmd m v s =
      (s.setTag (scmdKey v) { s.tag (scmdKey v) with held := some { g with pin := g.pin - 1 } }).segResult m 0 0) ∧
    (g.pin = 0 → unpinCmd m v s = s.segResult m 3 0) := by
  constructor <;> intro hpin <;>
    simp only [unpinCmd, bankTaken_of_awake hsv hawake, State.unpinTag, htgt, if_neg (not_not_intro hgen), hheld, hpin, Bool.false_eq_true,
      ↓reduceIte]
  · rfl
  · rfl

theorem segCmds_stale (hgen : (s.tag (scmdKey v)).gen ≠ scmdGen v) : firnCommitCmd m v s = s.segResult m 1 0 ∧
    fillCmd m v s = s.segResult m 1 0 ∧ abortCmd m v s = s.segResult m 1 0 ∧ unpinCmd m v s = s.segResult m 1 0 := by
  have hcommit : s.firnCommit (scmdKey v) (scmdGen v) (smask s m) (sfull s m) = (1, 0, s) := by
    unfold State.firnCommit
    simp only
    split
    · rfl
    · exact if_pos hgen
  refine ⟨?_, ?_, ?_, ?_⟩
  · simp only [firnCommitCmd, bankTaken_of_awake hsv hawake, htgt, hcommit, Bool.false_eq_true, ↓reduceIte]
  · simp only [fillCmd, bankTaken_of_awake hsv hawake, State.firnFill, htgt, if_pos hgen, Bool.false_eq_true, ↓reduceIte]
    rfl
  · simp only [abortCmd, bankTaken_of_awake hsv hawake, State.firnAbort, htgt, if_pos hgen, Bool.false_eq_true, ↓reduceIte]
    rfl
  · simp only [unpinCmd, bankTaken_of_awake hsv hawake, State.unpinTag, htgt, if_pos hgen, Bool.false_eq_true, ↓reduceIte]
    rfl

/-- A CLEAN or CLEANINVAL that would post to a full clean queue. -/
theorem cleans_full (hgen : (s.tag (scmdKey v)).gen = scmdGen v) (hheld : (s.tag (scmdKey v)).held = some g)
    (hfull : 64 ≤ s.firn.clq.length) (hdirty : g.d &&& ~~~g.p ≠ 0) : maintCmd .clean m v s = s.segResult m 4 0 ∧
      maintCmd .cleanInval m v s = s.segResult m 4 0 := by
  have hall : (~~~0 : Mask) &&& g.d = g.d := BitVec.allOnes_and
  have hpost : ∀ b : Bool, s.postClean (scmdKey v) (~~~0) b = (none, s) := fun b => postClean_full hheld hfull (hall.symm ▸ hdirty)
  exact ⟨maintCmd_tag_none hsv hawake htgt (by simp) hgen ((maintTag_clean hheld).trans (hpost false)),
    maintCmd_tag_none hsv hawake htgt (by simp) hgen (maintTag_cleanInval_full hheld (hpost true))⟩

end OnTag

/-! ### The commands on a Cornice slot -/

section OnSlot

variable (hsv : m ≠ .sv) (hawake : s.on F.FIRN_STAT_ASLEEP = false) (htgt : scmdTgt v = true)

include hsv hawake htgt

theorem slotCmds_badarg : firnCommitCmd m v s = s.segResult m 3 0 ∧ unpinCmd m v s = s.segResult m 3 0 := by
  constructor
  · rw [firnCommitCmd, bankTaken_of_awake hsv hawake, if_pos rfl]
    exact if_pos htgt
  · rw [unpinCmd, bankTaken_of_awake hsv hawake, if_pos rfl]
    exact if_pos htgt

theorem slotCmds_held (hgen : (s.slot (scmdSlot v)).gen = scmdGen v) (hheld : (s.slot (scmdSlot v)).held = some g) :
    fillCmd m v s = (s.setSlot (scmdSlot v) (fillSlot (s.slot (scmdSlot v)) (smask s m))).segResult m 0 (popcount (smask s m &&& g.l)) ∧
    abortCmd m v s = ((s.setSlot (scmdSlot v) (slotSettle { s.slot (scmdSlot v) with held := some (unlockSeg g (smask s m)) })).dropReserved
      g.owner (Nat.min (bitsOf v 31 25) 64)).segResult m 0 (popcount (smask s m &&& g.l)) := by
  constructor
  · simp only [fillCmd, bankTaken_of_awake hsv hawake, State.firnFill, htgt, if_neg (not_not_intro hgen), hheld, ↓reduceIte]
    rfl
  · simp only [abortCmd, bankTaken_of_awake hsv hawake, State.firnAbort, htgt, if_neg (not_not_intro hgen), hheld, ↓reduceIte]
    rfl

theorem maintCmd_slot (hop : op = .discard → m ≠ .sec) : maintCmd op m v s =
    if (s.slot (scmdSlot v)).gen ≠ scmdGen v then s.segResult m 1 0
    else (if op = .clean then s else s.releaseSlot (scmdSlot v)).segResult m 0 0 := by
  have hallowed : ¬ (op = .discard ∧ ¬ mayDiscard m = true) := fun h => h.2 (mayDiscard_of_ne hsv (hop h.1))
  rw [maintCmd, bankTaken_of_awake hsv hawake, if_pos rfl, if_neg hallowed]
  exact if_pos htgt

theorem slotCmds_matching (hgen : (s.slot (scmdSlot v)).gen = scmdGen v) : maintCmd .clean m v s = s.segResult m 0 0 ∧
    maintCmd .inval m v s = (s.releaseSlot (scmdSlot v)).segResult m 0 0 ∧
    maintCmd .cleanInval m v s = (s.releaseSlot (scmdSlot v)).segResult m 0 0 ∧
    (m ≠ .sec → maintCmd .discard m v s = (s.releaseSlot (scmdSlot v)).segResult m 0 0) := by
  have hslot : ∀ op : Maint, (op = .discard → m ≠ .sec) → maintCmd op m v s =
      (if op = .clean then s else s.releaseSlot (scmdSlot v)).segResult m 0 0 :=
    fun op hop => (maintCmd_slot hsv hawake htgt hop).trans (if_neg (not_not_intro hgen))
  exact ⟨hslot .clean (by simp), hslot .inval (by simp), hslot .cleanInval (by simp), fun h => hslot .discard fun _ => h⟩

theorem slotCmds_stale (hgen : (s.slot (scmdSlot v)).gen ≠ scmdGen v) : fillCmd m v s = s.segResult m 1 0 ∧
    abortCmd m v s = s.segResult m 1 0 ∧ maintCmd .clean m v s = s.segResult m 1 0 ∧ maintCmd .inval m v s = s.segResult m 1 0 ∧
    maintCmd .cleanInval m v s = s.segResult m 1 0 := by
  have hslot : ∀ op : Maint, op ≠ .discard → maintCmd op m v s = s.segResult m 1 0 :=
    fun op hop => (maintCmd_slot hsv hawake htgt fun h => absurd h hop).trans (if_pos hgen)
  refine ⟨?_, ?_, hslot .clean (by simp), hslot .inval (by simp), hslot .cleanInval (by simp)⟩
  · simp only [fillCmd, bankTaken_of_awake hsv hawake, State.firnFill, htgt, if_pos hgen, ↓reduceIte]
    rfl
  · simp only [abortCmd, bankTaken_of_awake hsv hawake, State.firnAbort, htgt, if_pos hgen, ↓reduceIte]
    rfl

end OnSlot

/-! ### The clean queue -/

theorem clqByCore_of_awake (hawake : s.on F.FIRN_STAT_ASLEEP = false) (hword : s.on F.ASC_CTL_HWORD = false) : clqByCore s = true := by
  simp [clqByCore, firnAwake, hawake, hword]

theorem wbDone_clauses {gen : BitVec 8} {x c : Mask} (hgen : (s.tag k).gen = gen) (hheld : (s.tag k).held = some g) (hc : c = x &&& g.p) :
    s.wbDone k gen x true = (s.setTag k { s.tag k with held := some { g with
      d := g.d &&& ~~~c, p := g.p &&& ~~~c, v := g.v &&& ~~~(c &&& g.pinv), pinv := g.pinv &&& ~~~c } }).dropUnits g.owner (popcount c) ∧
    s.wbDone k gen x false = s.setTag k { s.tag k with held := some { g with p := g.p &&& ~~~c, pinv := g.pinv &&& ~~~c } } := by
  constructor <;> simp only [State.wbDone, if_neg (not_not_intro hgen), hheld, ← hc]
  · rfl
  · rfl

theorem wbDone_stale {gen : BitVec 8} {x : Mask} {ok : Bool} (hgen : (s.tag k).gen ≠ gen) :
    s.wbDone k gen x ok = (s.raiseBit F.FIRN_FLAG_STALEWB).inc F.FIRN_CNT2_STALEWB_CNT := if_pos hgen

end SegmentCommands

/-- Settles O35: each command by the target that its word names and its GEN. -/
theorem firnSegmentCommandsComplete : Obligations.FirnSegmentCommandsComplete := by
  unfold Obligations.FirnSegmentCommandsComplete
  refine ⟨fun m v s k g h du pt n hsv hm hawake htgt hk hgen hheld hfold => ?_, fun m v s k g hsv hm hawake htgt hk hgen hheld => ?_,
    fun m v s hsv hm hawake htgt hgen => ?_, fun m v s j hsv hm hawake htgt hj => ?_,
    fun v s k g c hawake hword hk hgen hheld hc => ?_, fun v s hawake hword hgen => ?_, fun s hawake hword => ?_⟩
  · subst hk
    rw [(exec_segCmd hm).1]
    exact congrArg Host.Outcome.next (firnCommitCmd_clauses hsv hawake htgt hgen hheld hfold)
  · subst hk
    obtain ⟨-, hfill, habort, hunpin⟩ := exec_segCmd (s := s) (v := v) hm
    obtain ⟨hclean, hinval, hcleanInval, hdiscard⟩ := exec_maintCmd (s := s) (v := v) hm
    obtain ⟨hpinned, hfree⟩ := unpinCmd_tag hsv hawake htgt hgen hheld
    rw [hfill, habort, hunpin, hclean, hinval, hcleanInval, hdiscard]
    refine ⟨congrArg Host.Outcome.next (fillCmd_tag hsv hawake htgt hgen hheld),
      congrArg Host.Outcome.next (abortCmd_tag hsv hawake htgt hgen hheld), fun h => congrArg Host.Outcome.next (hpinned h),
      fun h => congrArg Host.Outcome.next (hfree h),
      fun n u hpost => congrArg Host.Outcome.next (maintCmd_tag_some hsv hawake htgt (by simp) hgen ((maintTag_clean hheld).trans hpost)),
      fun hfull hdirty => ?_, congrArg Host.Outcome.next (maintCmd_tag_some hsv hawake htgt (by simp) hgen (maintTag_inval hheld)),
      fun n u h hpost hafter => congrArg Host.Outcome.next
        (maintCmd_tag_some hsv hawake htgt (by simp) hgen (maintTag_cleanInval hheld hpost hafter)),
      fun hsec => congrArg Host.Outcome.next (maintCmd_tag_some hsv hawake htgt (fun _ => hsec) hgen (maintTag_discard hheld)),
      fun hsec => congrArg Host.Outcome.next ?_⟩
    · obtain ⟨h1, h2⟩ := cleans_full hsv hawake htgt hgen hheld hfull hdirty
      exact ⟨congrArg Host.Outcome.next h1, congrArg Host.Outcome.next h2⟩
    · subst hsec
      exact (if_pos (bankTaken_of_awake hsv hawake)).trans (if_pos ⟨rfl, by decide⟩)
  · obtain ⟨hcommit, hfill, habort, hunpin⟩ := exec_segCmd (s := s) (v := v) hm
    obtain ⟨hclean, hinval, hcleanInval, hdiscard⟩ := exec_maintCmd (s := s) (v := v) hm
    obtain ⟨h1, h2, h3, h4⟩ := segCmds_stale hsv hawake htgt hgen
    rw [hcommit, hfill, habort, hunpin, hclean, hinval, hcleanInval, hdiscard]
    exact ⟨fun hsec => congrArg Host.Outcome.next (maintCmd_stale hsv hawake htgt (fun _ => hsec) hgen), congrArg Host.Outcome.next h1,
      congrArg Host.Outcome.next h2, congrArg Host.Outcome.next h3, congrArg Host.Outcome.next h4,
      congrArg Host.Outcome.next (maintCmd_stale hsv hawake htgt (by simp) hgen),
      congrArg Host.Outcome.next (maintCmd_stale hsv hawake htgt (by simp) hgen),
      congrArg Host.Outcome.next (maintCmd_stale hsv hawake htgt (by simp) hgen)⟩
  · subst hj
    obtain ⟨hcommit, hfill, habort, hunpin⟩ := exec_segCmd (s := s) (v := v) hm
    obtain ⟨hclean, hinval, hcleanInval, hdiscard⟩ := exec_maintCmd (s := s) (v := v) hm
    obtain ⟨hcommit', hunpin'⟩ := slotCmds_badarg hsv hawake htgt
    rw [hcommit, hfill, habort, hunpin, hclean, hinval, hcleanInval, hdiscard]
    refine ⟨congrArg Host.Outcome.next hcommit', congrArg Host.Outcome.next hunpin', fun g hgen hheld => ?_, fun hgen => ?_, fun hgen => ?_⟩
    · obtain ⟨h1, h2⟩ := slotCmds_held hsv hawake htgt hgen hheld
      exact ⟨congrArg Host.Outcome.next h1, congrArg Host.Outcome.next h2⟩
    · obtain ⟨h1, h2, h3, h4⟩ := slotCmds_matching hsv hawake htgt hgen
      exact ⟨congrArg Host.Outcome.next h1, congrArg Host.Outcome.next h2, congrArg Host.Outcome.next h3,
        fun h => congrArg Host.Outcome.next (h4 h)⟩
    · obtain ⟨h1, h2, h3, h4, h5⟩ := slotCmds_stale hsv hawake htgt hgen
      exact ⟨congrArg Host.Outcome.next h1, congrArg Host.Outcome.next h2, congrArg Host.Outcome.next h3, congrArg Host.Outcome.next h4,
        congrArg Host.Outcome.next h5⟩
  · subst hk
    obtain ⟨hgood, hbad⟩ := wbDone_clauses hgen hheld hc
    constructor <;> intro hok <;> refine congrArg Host.Outcome.next ((if_pos (clqByCore_of_awake hawake hword)).trans ?_) <;> rw [hok]
    · exact hgood
    · exact hbad
  · exact congrArg Host.Outcome.next ((if_pos (clqByCore_of_awake hawake hword)).trans (wbDone_stale hgen))
  · exact congrArg Host.Outcome.next (if_pos (clqByCore_of_awake hawake hword))

end Sys2Proof.Proofs

/-! PROOFS. Address operations and the range engine (R300, R301). -/

namespace Sys2Proof.Proofs

open Sys2Proof Sys2Proof.Machine

section AddressOperations

variable {s u : State} {m : Master} {v : Word} {p lba n k : Nat} {op : Maint}

theorem exec_addrCmd (hm : gated s m = false) : exec (.aclean m v) s = .next (addrCmd .clean m v s) ∧
    exec (.ainval m v) s = .next (addrCmd .inval m v s) ∧ exec (.acleaninval m v) s = .next (addrCmd .cleanInval m v s) ∧
    exec (.adiscard m v) s = .next (addrCmd .discard m v s) :=
  ⟨congrArg Host.Outcome.next (byCore_of_not_gated hm), congrArg Host.Outcome.next (byCore_of_not_gated hm),
    congrArg Host.Outcome.next (byCore_of_not_gated hm), congrArg Host.Outcome.next (byCore_of_not_gated hm)⟩

theorem maintAddr_tag {x : Mask} {a : Option Nat} (hn : n ≠ 0) (hlen : lba % 64 + n ≤ 64) (hx : x = maskOf (lba % 64) n)
    (htag : findTag s p (lba / 64) = some k) (hmaint : s.maintTag op k x = (a, u)) :
    s.maintAddr op p lba n = ({ result := if a.isSome then 10 else 3, key := some k }, u) := by
  simp only [State.maintAddr, if_neg (lookInRange hn hlen), htag, ← hx, hmaint]
  rfl

theorem maintAddr_away (hn : n ≠ 0) (hlen : lba % 64 + n ≤ 64) (htag : findTag s p (lba / 64) = none) : s.maintAddr op p lba n =
    ({ result := if (findSerac s p (lba / 64)).isSome ∨ (findSlot s p (lba / 64)).isSome then 10 else 1 }, s.maintAway op p (lba / 64)) := by
  simp only [State.maintAddr, if_neg (lookInRange hn hlen), htag]
  rfl

theorem maintAway_serac {seg i : Nat} (hop : op ≠ .clean) (h : findSerac s p seg = some i) : s.maintAway op p seg = s.emptySerac i := by
  simp only [State.maintAway, if_neg hop, h]

theorem maintAway_slot {seg j : Nat} (hop : op ≠ .clean) (h : findSerac s p seg = none) (h' : findSlot s p seg = some j) :
    s.maintAway op p seg = s.releaseSlot j := by
  simp only [State.maintAway, if_neg hop, h, h']

theorem maintAway_none {seg : Nat} (h : findSerac s p seg = none) (h' : findSlot s p seg = none) : s.maintAway op p seg = s := by
  simp only [State.maintAway, h, h']
  exact ite_self _

theorem addrCmd_of_answer {r : LookRes} (hsv : m ≠ .sv) (hawake : s.on F.FIRN_STAT_ASLEEP = false) (hop : op = .discard → m ≠ .sec)
    (h : s.maintAddr op (bitsOf v 7 4) (lkey s m) (bitsOf v 13 8 + 1) = (r, u)) : addrCmd op m v s = u.lookResult m r := by
  have hallowed : ¬ (op = .discard ∧ ¬ mayDiscard m = true) := fun h => h.2 (mayDiscard_of_ne hsv (hop h.1))
  rw [addrCmd, bankTaken_of_awake hsv hawake, if_pos rfl, if_neg hallowed, h]

section OnAddress

variable (hsv : m ≠ .sv) (hawake : s.on F.FIRN_STAT_ASLEEP = false) (hp : p = bitsOf v 7 4) (hlba : lba = lkey s m)

include hsv hawake hp hlba

theorem addrCmd_tag {x : Mask} {a : Option Nat} (hn : n = bitsOf v 13 8 + 1) (hlen : lba % 64 + n ≤ 64) (hx : x = maskOf (lba % 64) n)
    (htag : findTag s p (lba / 64) = some k) (hop : op = .discard → m ≠ .sec) (hmaint : s.maintTag op k x = (a, u)) :
    addrCmd op m v s = u.lookResult m { result := if a.isSome then 10 else 3, key := some k } := by
  refine addrCmd_of_answer hsv hawake hop ?_
  rw [← hp, ← hlba, ← hn]
  exact maintAddr_tag (by omega) hlen hx htag hmaint

theorem addrCmd_tag_some {x : Mask} {c : Nat} (hn : n = bitsOf v 13 8 + 1) (hlen : lba % 64 + n ≤ 64) (hx : x = maskOf (lba % 64) n)
    (htag : findTag s p (lba / 64) = some k) (hop : op = .discard → m ≠ .sec) (hmaint : s.maintTag op k x = (some c, u)) :
    addrCmd op m v s = u.lookResult m { result := 10, key := some k } := by
  rw [addrCmd_tag hsv hawake hp hlba hn hlen hx htag hop hmaint, Option.isSome_some, if_pos rfl]

theorem addrCmd_tag_none {x : Mask} (hn : n = bitsOf v 13 8 + 1) (hlen : lba % 64 + n ≤ 64) (hx : x = maskOf (lba % 64) n)
    (htag : findTag s p (lba / 64) = some k) (hop : op = .discard → m ≠ .sec) (hmaint : s.maintTag op k x = (none, u)) :
    addrCmd op m v s = u.lookResult m { result := 3, key := some k } := by
  rw [addrCmd_tag hsv hawake hp hlba hn hlen hx htag hop hmaint, Option.isSome_none, if_neg Bool.false_ne_true]

theorem addrCmd_away (hlen : lba % 64 + (bitsOf v 13 8 + 1) ≤ 64) (htag : findTag s p (lba / 64) = none) (hop : op = .discard → m ≠ .sec) :
    addrCmd op m v s = (s.maintAway op p (lba / 64)).lookResult m
      { result := if (findSerac s p (lba / 64)).isSome ∨ (findSlot s p (lba / 64)).isSome then 10 else 1 } := by
  refine addrCmd_of_answer hsv hawake hop ?_
  rw [← hp, ← hlba]
  exact maintAddr_away (by omega) hlen htag

theorem addrCmds_away_clauses (hlen : lba % 64 + (bitsOf v 13 8 + 1) ≤ 64) (htag : findTag s p (lba / 64) = none) {r : Nat} {w : State}
    (hr : r = if (findSerac s p (lba / 64)).isSome ∨ (findSlot s p (lba / 64)).isSome then 10 else 1)
    (haway : ∀ op : Maint, op ≠ .clean → s.maintAway op p (lba / 64) = w) :
    addrCmd .clean m v s = s.lookResult m { result := r } ∧ addrCmd .inval m v s = w.lookResult m { result := r } ∧
    addrCmd .cleanInval m v s = w.lookResult m { result := r } ∧
    (m ≠ .sec → addrCmd .discard m v s = w.lookResult m { result := r }) := by
  have hcmd : ∀ op : Maint, (op = .discard → m ≠ .sec) → addrCmd op m v s = (s.maintAway op p (lba / 64)).lookResult m { result := r } := by
    intro op hop
    rw [hr]
    exact addrCmd_away hsv hawake hp hlba hlen htag hop
  refine ⟨hcmd .clean (by simp), ?_, ?_, fun h => ?_⟩
  · rw [hcmd .inval (by simp), haway _ (by simp)]
  · rw [hcmd .cleanInval (by simp), haway _ (by simp)]
  · rw [hcmd .discard fun _ => h, haway _ (by simp)]

end OnAddress

/-! ### The range engine -/

theorem exec_rangeCmd (hm : gated s m = false) : exec (.rangeClean m v) s = .next (rangeCmd 1 m v s) ∧
    exec (.rangeInval m v) s = .next (rangeCmd 2 m v s) ∧ exec (.rangeCleaninval m v) s = .next (rangeCmd 3 m v s) ∧
    exec (.rangeDiscard m v) s = .next (rangeCmd 4 m v s) :=
  ⟨congrArg Host.Outcome.next (byCore_of_not_gated hm), congrArg Host.Outcome.next (byCore_of_not_gated hm),
    congrArg Host.Outcome.next (byCore_of_not_gated hm), congrArg Host.Outcome.next (byCore_of_not_gated hm)⟩

theorem rangeCmd_starts {r : RangeOp} (o : Nat) (hm : m = .sec ∨ m = .mc) (hawake : s.on F.FIRN_STAT_ASLEEP = false)
    (hidle : s.on F.FIRN_STAT_RBUSY = false) (hscope : bitsOf v 5 4 ≠ 3) (hu : u = s.raiseBit F.FIRN_STAT_RBUSY)
    (hr : r = { op := 0, scope := bitsOf v 5 4, party := bitsOf v 11 8,
                lba := s.get F.FIRN_RG_LO_LBA + s.get F.FIRN_RG_HI_LBA * 4294967296, cnt := s.get F.FIRN_RG_CNT_CNT }) :
    rangeCmd o m v s = ({ u with firn := { u.firn with range := some { r with op := o } } } : State).runRange := by
  rw [rangeCmd, if_pos ⟨by simp [firnAwake, hawake], hm⟩, hidle, if_neg Bool.false_ne_true, if_neg hscope, hu, hr]
  rfl

theorem rangeCmd_busy (o : Nat) (hm : m = .sec ∨ m = .mc) (hawake : s.on F.FIRN_STAT_ASLEEP = false) (hbusy : s.on F.FIRN_STAT_RBUSY = true) :
    rangeCmd o m v s = s.raiseBit F.FIRN_FLAG_RIGN :=
  (if_pos ⟨by simp [firnAwake, hawake], hm⟩).trans (if_pos hbusy)

theorem rangeCmd_other (o : Nat) (hsec : m ≠ .sec) (hmc : m ≠ .mc) : rangeCmd o m v s = s := if_neg fun h => h.2.elim hsec hmc

/-- What the end of a pass shows. -/
def passShown (aff : Nat) (s : State) : State := ((s.clr F.FIRN_STAT_RBUSY).raiseBit F.FIRN_FLAG_RDONE).put F.FIRN_RG_STAT_AFF aff

theorem passShown_shows (hs : s.regsWf = true) (aff : Nat) : (passShown aff s).on F.FIRN_STAT_RBUSY = false ∧
    (passShown aff s).on F.FIRN_FLAG_RDONE = true ∧ (passShown aff s).get F.FIRN_RG_STAT_AFF = aff % 65536 := by
  have hclr : (s.clr F.FIRN_STAT_RBUSY).regsWf = true := regsWf_put _ _ hs
  have hraise : ((s.clr F.FIRN_STAT_RBUSY).raiseBit F.FIRN_FLAG_RDONE).regsWf = true := regsWf_put _ _ hclr
  have hbusy : (passShown aff s).get F.FIRN_STAT_RBUSY = 0 := by
    rw [passShown, get_put_apart _ hraise (by decide) (by decide) (by decide), State.raiseBit,
      get_put_apart _ hclr (by decide) (by decide) (by decide), State.clr, get_put_same _ hs (by decide)]
    rfl
  have hdone : (passShown aff s).get F.FIRN_FLAG_RDONE = 1 := by
    rw [passShown, get_put_apart _ hraise (by decide) (by decide) (by decide), State.raiseBit, get_put_same _ hclr (by decide)]
    rfl
  refine ⟨?_, ?_, ?_⟩
  · simp only [State.on, hbusy]
    rfl
  · simp only [State.on, hdone]
    rfl
  · rw [passShown, get_put_same _ hraise (by decide)]
    rfl

theorem rangePassEnd_of_visited {r : RangeOp} (hrange : s.firn.range = some r) (hpos : r.pos = 4144) :
    rangePassEnd s = (passShown r.aff s).onFirn fun f => { f with range := none } := by
  simp only [rangePassEnd, hrange]
  exact if_pos hpos

end AddressOperations

/-- Settles O36: address operations by where the segment lies, and the range engine by its state. -/
theorem firnMaintenanceCommandsComplete : Obligations.FirnMaintenanceCommandsComplete := by
  unfold Obligations.FirnMaintenanceCommandsComplete
  refine ⟨fun m v s p lba n k x hsv hm hawake hp hlba hn hlen hx htag => ?_, fun m v s p lba hsv hm hawake hp hlba hlen htag => ?_,
    fun m v s u r hmaster hm hawake hidle hscope hu hr => ?_, fun m v s hmaster hm hawake hbusy => ?_, fun m v s hsec hmc hm => ?_,
    fun s hpaused hroom hawake => ?_, fun s r hrange hpos hs => ?_⟩
  · obtain ⟨hclean, hinval, hcleanInval, hdiscard⟩ := exec_addrCmd (s := s) (v := v) hm
    have hcmd : ∀ {op : Maint} {c : Nat} {u : State}, (op = .discard → m ≠ .sec) → s.maintTag op k x = (some c, u) →
        addrCmd op m v s = u.lookResult m { result := 10, key := some k } :=
      fun hop h => addrCmd_tag_some hsv hawake hp hlba hn hlen hx htag hop h
    have hfull : ∀ {op : Maint} {u : State}, (op = .discard → m ≠ .sec) → s.maintTag op k x = (none, u) →
        addrCmd op m v s = u.lookResult m { result := 3, key := some k } :=
      fun hop h => addrCmd_tag_none hsv hawake hp hlba hn hlen hx htag hop h
    rw [hclean, hinval, hcleanInval, hdiscard]
    refine ⟨fun c u h => congrArg Host.Outcome.next (hcmd (by simp) h), fun c u h => congrArg Host.Outcome.next (hcmd (by simp) h),
      fun c u h => congrArg Host.Outcome.next (hcmd (by simp) h), fun c u hsec h => congrArg Host.Outcome.next (hcmd (fun _ => hsec) h),
      fun hsec => congrArg Host.Outcome.next ?_, fun u h => congrArg Host.Outcome.next (hfull (by simp) h),
      fun u h => congrArg Host.Outcome.next (hfull (by simp) h)⟩
    subst hsec
    exact (if_pos (bankTaken_of_awake hsv hawake)).trans (if_pos ⟨rfl, by decide⟩)
  · obtain ⟨hclean, hinval, hcleanInval, hdiscard⟩ := exec_addrCmd (s := s) (v := v) hm
    rw [hclean, hinval, hcleanInval, hdiscard]
    refine ⟨fun i hserac => ?_, fun j hserac hslot => ?_, fun hserac hslot => ?_⟩
    · obtain ⟨h1, h2, h3, h4⟩ := addrCmds_away_clauses hsv hawake hp hlba hlen htag (r := 10) (by simp [hserac])
        fun op hop => maintAway_serac hop hserac
      exact ⟨congrArg Host.Outcome.next h1, congrArg Host.Outcome.next h2, congrArg Host.Outcome.next h3,
        fun h => congrArg Host.Outcome.next (h4 h)⟩
    · obtain ⟨h1, h2, h3, h4⟩ := addrCmds_away_clauses hsv hawake hp hlba hlen htag (r := 10) (by simp [hslot])
        fun op hop => maintAway_slot hop hserac hslot
      exact ⟨congrArg Host.Outcome.next h1, congrArg Host.Outcome.next h2, congrArg Host.Outcome.next h3,
        fun h => congrArg Host.Outcome.next (h4 h)⟩
    · obtain ⟨h1, h2, h3, h4⟩ := addrCmds_away_clauses hsv hawake hp hlba hlen htag (r := 1) (by simp [hserac, hslot])
        fun op _ => maintAway_none hserac hslot
      exact ⟨congrArg Host.Outcome.next h1, congrArg Host.Outcome.next h2, congrArg Host.Outcome.next h3,
        fun h => congrArg Host.Outcome.next (h4 h)⟩
  · obtain ⟨h1, h2, h3, h4⟩ := exec_rangeCmd (s := s) (v := v) hm
    rw [h1, h2, h3, h4]
    exact ⟨congrArg Host.Outcome.next (rangeCmd_starts 1 hmaster hawake hidle hscope hu hr),
      congrArg Host.Outcome.next (rangeCmd_starts 2 hmaster hawake hidle hscope hu hr),
      congrArg Host.Outcome.next (rangeCmd_starts 3 hmaster hawake hidle hscope hu hr),
      congrArg Host.Outcome.next (rangeCmd_starts 4 hmaster hawake hidle hscope hu hr)⟩
  · obtain ⟨h1, h2, h3, h4⟩ := exec_rangeCmd (s := s) (v := v) hm
    have hbusy' : ∀ o, rangeCmd o m v s = s.raiseBit F.FIRN_FLAG_RIGN := fun o => rangeCmd_busy o hmaster hawake hbusy
    rw [h1, h2, h3, h4, hbusy', hbusy', hbusy', hbusy']
    exact ⟨rfl, rfl, rfl, rfl⟩
  · obtain ⟨h1, h2, h3, h4⟩ := exec_rangeCmd (s := s) (v := v) hm
    have hnone : ∀ o, rangeCmd o m v s = s := fun o => rangeCmd_other o hsec hmc
    rw [h1, h2, h3, h4, hnone, hnone, hnone, hnone]
    exact ⟨rfl, rfl, rfl, rfl⟩
  · exact congrArg Host.Outcome.next (if_pos ⟨hpaused, hroom, by simp [firnAwake, hawake]⟩)
  · obtain ⟨hbusy, hdone, haff⟩ := passShown_shows hs r.aff
    exact ⟨_, congrArg Host.Outcome.next (rangePassEnd_of_visited hrange hpos), rfl, hbusy, hdone, haff⟩

end Sys2Proof.Proofs

/-! PROOFS. The metadata channel, Cornice, the partition and the Buffer die's own events (R284 to R286, R292, R304 to R313). -/

namespace Sys2Proof.Proofs

open Sys2Proof Sys2Proof.Machine

section Metadata

variable {s u : State} {m : Master} {v : Word} {k : Nat} {n : BitVec 6}

theorem exec_metaLook (hm : gated s m = false) : exec (.metaLookup m) s = .next (metaLookup m s) ∧
    exec (.metaAlloc m) s = .next (metaAlloc m s) :=
  ⟨congrArg Host.Outcome.next (byCore_of_not_gated hm), congrArg Host.Outcome.next (byCore_of_not_gated hm)⟩

theorem exec_metaEnt (hm : gated s m = false) :
    exec (.metaDirty m n) s = .next (metaEntCmd m n.toNat (fun _ => true) (fun e => { e with dirty := true }) s) ∧
    exec (.metaClean m n) s = .next (metaEntCmd m n.toNat (fun _ => true) (fun e => { e with dirty := false }) s) ∧
    exec (.metaLock m n) s = .next (metaEntCmd m n.toNat (fun _ => true) (fun e => { e with locked := true }) s) ∧
    exec (.metaUnlock m n) s = .next (metaEntCmd m n.toNat (fun _ => true) (fun e => { e with locked := false }) s) ∧
    exec (.metaInval m n) s = .next (metaEntCmd m n.toNat (fun e => !e.dirty && !e.locked) (fun e => { e with valid := false }) s) :=
  ⟨congrArg Host.Outcome.next (byCore_of_not_gated hm), congrArg Host.Outcome.next (byCore_of_not_gated hm),
    congrArg Host.Outcome.next (byCore_of_not_gated hm), congrArg Host.Outcome.next (byCore_of_not_gated hm),
    congrArg Host.Outcome.next (byCore_of_not_gated hm)⟩

theorem metaLook_clauses (hsv : m ≠ .sv) (hawake : s.on F.FIRN_STAT_ASLEEP = false) :
    (findMeta s (mkey s m) = some k → metaLookup m s = (s.touchMeta k).metaResult m 0 (some k) ∧
      metaAlloc m s = (s.touchMeta k).metaResult m 0 (some k)) ∧
    (findMeta s (mkey s m) = none → metaLookup m s = s.metaResult m 1 none ∧
      (takeMeta s = some k → metaAlloc m s =
        ((s.setMeta k { key := mkey s m, valid := true }).touchMeta k).metaResult m 2 (some k)) ∧
      (takeMeta s = none → metaAlloc m s = s.metaResult m 3 none)) := by
  have htaken := bankTaken_of_awake hsv hawake
  constructor <;> intro hfind <;> simp only [metaLookup, metaAlloc, htaken, hfind, ↓reduceIte]
  · exact ⟨trivial, trivial⟩
  · refine ⟨trivial, fun htake => ?_, fun htake => ?_⟩ <;> rw [htake]

theorem metaEntCmd_clauses {ok : MetaEnt → Bool} {f : MetaEnt → MetaEnt} (hsv : m ≠ .sv) (hawake : s.on F.FIRN_STAT_ASLEEP = false) :
    (48 ≤ k → metaEntCmd m k ok f s = s.metaResult m 5 none) ∧
    (k < 48 → ok (s.metaEnt k) = true → metaEntCmd m k ok f s = (s.setMeta k (f (s.metaEnt k))).metaResult m 4 (some k)) ∧
    (k < 48 → ok (s.metaEnt k) = false → metaEntCmd m k ok f s = s.metaResult m 6 (some k)) := by
  rw [metaEntCmd, bankTaken_of_awake hsv hawake, if_pos rfl]
  refine ⟨fun h => if_pos h, fun h hok => ?_, fun h hok => ?_⟩ <;> rw [if_neg (Nat.not_le.mpr h), hok]
  · rfl
  · rfl

end Metadata

section Cornice

variable {s u : State} {m : Master} {v : Word} {p seg j : Nat} {fill : Mask}

theorem exec_cornice (hm : gated s m = false) : exec (.corniceAlloc m v) s = .next (corniceAlloc m v s) ∧
    exec (.corniceRelease m v) s = .next (corniceRelease m v s) ∧ exec (.corniceStatus m v) s = .next (corniceStatus m v s) :=
  ⟨congrArg Host.Outcome.next (byCore_of_not_gated hm), congrArg Host.Outcome.next (byCore_of_not_gated hm),
    congrArg Host.Outcome.next (byCore_of_not_gated hm)⟩

theorem cAlloc_retreat (h : s.mode = mRETREAT) : s.cAlloc p seg fill = (1, none, s) := if_pos h

theorem cAlloc_exists (h : s.mode ≠ mRETREAT) (hnow : segNow s p seg ≠ none) : s.cAlloc p seg fill = (2, none, s) :=
  (if_neg h).trans (if_pos (Option.isSome_iff_ne_none.mpr hnow))

theorem cAlloc_slot (h : s.mode ≠ mRETREAT) (hnow : segNow s p seg = none)
    (hfind : (List.range 32).find? (fun i => (s.get (F.FIRN_CMASK_SLOTS p)).testBit i && (s.slot i).st == .free) = some j) :
    s.cAlloc p seg fill = (0, some j, s.setSlot j { s.slot j with
      gen := (s.slot j).gen + 1, st := .held, held := some { seg := seg, owner := p, l := fill } }) := by
  rw [State.cAlloc, if_neg h, hnow, if_neg (by simp), hfind]

theorem cAlloc_noslot (h : s.mode ≠ mRETREAT) (hnow : segNow s p seg = none)
    (hnone : ∀ i < 32, (s.get (F.FIRN_CMASK_SLOTS p)).testBit i = true → (s.slot i).st ≠ .free) :
    s.cAlloc p seg fill = (1, none, s) := by
  have hfind : (List.range 32).find? (fun i => (s.get (F.FIRN_CMASK_SLOTS p)).testBit i && (s.slot i).st == .free) = none := by
    rw [List.find?_eq_none]
    intro i hi hfree
    rw [Bool.and_eq_true, beq_iff_eq] at hfree
    exact hnone i (List.mem_range.mp hi) hfree.1 hfree.2
  rw [State.cAlloc, if_neg h, hnow, if_neg (by simp), hfind]

theorem corniceAlloc_of_answer {r : Nat} {a : Option Nat} (hsv : m ≠ .sv) (hawake : s.on F.FIRN_STAT_ASLEEP = false) (hp : p = bitsOf v 11 8)
    (hseg : seg = lkey s m / 64) (h : s.cAlloc p seg (smask s m) = (r, a, u)) : corniceAlloc m v s = u.corResult m r a := by
  rw [corniceAlloc, bankTaken_of_awake hsv hawake, if_pos rfl, ← hp, ← hseg, h]

theorem corniceSlot_clauses (hsv : m ≠ .sv) (hawake : s.on F.FIRN_STAT_ASLEEP = false) :
    (slotOwned s v = true → corniceRelease m v s = (s.releaseSlot (bitsOf v 6 2)).corResult m 0 (some (bitsOf v 6 2)) ∧
      corniceStatus m v s = s.corResult m 0 (some (bitsOf v 6 2))) ∧
    (slotOwned s v = false → corniceRelease m v s = s.corResult m 3 none ∧ corniceStatus m v s = s.corResult m 3 none) := by
  rw [corniceRelease, corniceStatus, bankTaken_of_awake hsv hawake, if_pos rfl, if_pos rfl]
  exact ⟨fun h => ⟨if_pos h, if_pos h⟩, fun h => ⟨if_neg (by simp [h]), if_neg (by simp [h])⟩⟩

/-- The frame of a cancelled slot is zeroed, and the cancel is counted and recorded. -/
def scrubbed (j : Nat) (g : Seg) (s : State) : State :=
  (((s.bufZero (frameAddr (s.slot j).frame) 0x40000).inc F.FIRN_CNT2_CANCEL_CNT).raiseBit F.FIRN_FLAG_CANCEL).event 0x0503 g.owner
    (leBytes 1 g.owner ++ leBytes 1 j ++ leBytes 1 (s.slot j).filled ++ leBytes 1 (s.slot j).locked ++
      zeros 4 ++ leBytes 8 (g.seg * 64) ++ leBytes 8 (s.slot j).cancelAt.toNat)

theorem scrubbed_fields (g : Seg) : (scrubbed j g s).buf = (s.bufZero (frameAddr (s.slot j).frame) 0x40000).buf ∧
    (scrubbed j g s).firn = s.firn ∧
    (scrubbed j g s).regs = ((s.inc F.FIRN_CNT2_CANCEL_CNT).raiseBit F.FIRN_FLAG_CANCEL).regs := ⟨rfl, rfl, rfl⟩

theorem corniceScrubDone_of_scrubbing {g : Seg} (hheld : (s.slot j).held = some g) (hst : (s.slot j).st = .scrubbing) :
    corniceScrubDone j s = (scrubbed j g s).setSlot j { s.slot j with st := .free, held := none } := by
  simp only [corniceScrubDone, hheld, hst, ↓reduceIte]
  rfl

theorem slot_setSlot_same {e : CSlot} (h : Sparse.wf slot0 s.firn.corn = true) : (s.setSlot j e).slot j = e :=
  Sparse.read_write_self e h

theorem on_of_regs {t w : State} (h : t.regs = w.regs) (f : Fld) : t.on f = w.on f := by
  simp only [State.on, State.get, State.rd, h]

theorem corniceScrubDone_clauses {g : Seg} (hheld : (s.slot j).held = some g) (hst : (s.slot j).st = .scrubbing)
    (hs : s.regsWf = true) (hcorn : Sparse.wf slot0 s.firn.corn = true) :
    ((corniceScrubDone j s).slot j).st = .free ∧ ((corniceScrubDone j s).slot j).held = none ∧
    (corniceScrubDone j s).on F.FIRN_FLAG_CANCEL = true ∧
    (corniceScrubDone j s).buf = (s.bufZero (frameAddr (s.slot j).frame) 0x40000).buf := by
  obtain ⟨w, hw⟩ : ∃ w, w = scrubbed j g s := ⟨_, rfl⟩
  obtain ⟨hbuf, hfirn, hregs⟩ := scrubbed_fields (s := s) (j := j) g
  rw [← hw] at hbuf hfirn hregs
  have hslot : (w.setSlot j { s.slot j with st := .free, held := none }).slot j = { s.slot j with st := .free, held := none } :=
    slot_setSlot_same (hfirn ▸ hcorn)
  have hflag : w.on F.FIRN_FLAG_CANCEL = true := by
    rw [on_of_regs hregs]
    exact on_raiseBit_same (regsWf_put _ _ hs) (by decide)
  rw [corniceScrubDone_of_scrubbing hheld hst, ← hw, hslot]
  exact ⟨rfl, rfl, (on_of_regs rfl _).trans hflag, hbuf⟩

end Cornice

section Partition

variable {s u : State} {m : Master} {v : Word} {p : Nat}

theorem exec_partitionWrite {c : Bool} {q : BitVec 4} (hm : gated s m = false) :
    exec (.partitionWrite m c q v) s = .next (partitionWrite m c q.toNat v s) :=
  congrArg Host.Outcome.next (byCore_of_not_gated hm)

theorem exec_partitionLock (hm : gated s m = false) : exec (.partitionLock m) s = .next (partitionLock m s) :=
  congrArg Host.Outcome.next (byCore_of_not_gated hm)

theorem partitionWrite_clauses (hawake : s.on F.FIRN_STAT_ASLEEP = false) (hopen : s.on F.FIRN_STAT_PLOCKED = false) :
    (partTakes s p v = false → partitionWrite .sec false p v s = s.wr (R.FIRN_PART p) (BitVec.ofNat 32 (bitsOf v 9 0))) ∧
    (partTakes s p v = true → partitionWrite .sec false p v s = s.raiseBit F.FIRN_FLAG_PREFUSE) ∧
    (cmaskTakes s p v = false → partitionWrite .sec true p v s = s.wr (R.FIRN_CMASK p) v) ∧
    (cmaskTakes s p v = true → partitionWrite .sec true p v s = s.raiseBit F.FIRN_FLAG_PREFUSE) := by
  have hgo : ¬ (Master.sec ≠ .sec ∨ ¬ firnAwake s = true ∨ s.on F.FIRN_STAT_PLOCKED = true) := by simp [firnAwake, hawake, hopen]
  rw [partitionWrite, partitionWrite, if_neg hgo, if_neg hgo, if_neg Bool.false_ne_true, if_pos rfl]
  exact ⟨fun h => if_neg (by simp [h]), fun h => if_pos h, fun h => if_neg (by simp [h]), fun h => if_pos h⟩

theorem partitionWrite_ignored {c : Bool} (h : m ≠ .sec ∨ s.on F.FIRN_STAT_PLOCKED = true) : partitionWrite m c p v s = s :=
  if_pos (h.imp_right .inr)

theorem partitionLock_clauses (hm : m = .sec ∨ m = .mc) (hawake : s.on F.FIRN_STAT_ASLEEP = false) (hopen : s.on F.FIRN_STAT_PLOCKED = false) :
    (plockCheck s = 0 → partitionLock m s = ((s.put F.FIRN_STAT_PRES 0).raiseBit F.FIRN_STAT_PLOCKED).raiseBit F.FIRN_CTL_PLOCK) ∧
    (plockCheck s ≠ 0 → partitionLock m s = s.put F.FIRN_STAT_PRES (plockCheck s)) := by
  rw [partitionLock, if_pos ⟨by simp [firnAwake, hawake], hm, by simp [hopen]⟩]
  constructor <;> intro hcheck
  · simp only [State.plock, hcheck, ↓reduceIte]
  · simp only [State.plock, if_neg hcheck]

end Partition

theorem patrolScrub_clauses {s u : State} (hscrub : s.on F.FIRN_CTL_SCRUB = true) (hawake : s.on F.FIRN_STAT_ASLEEP = false)
    (hu : u = { s with firn := { s.firn with scrub := if s.firn.scrub + 1 ≥ 17825792 then 0 else s.firn.scrub + 1 } }) :
    patrolScrub 0 s = u ∧ patrolScrub 1 s = u.bufferCE ∧ patrolScrub 2 s = u.bufferUE (0x80000000 + 64 * s.firn.scrub) 0x08 true := by
  have hgo : (s.on F.FIRN_CTL_SCRUB && firnAwake s) = true := by simp [hscrub, firnAwake, hawake]
  have hon : (s.onFirn fun f => { f with scrub := if f.scrub + 1 ≥ 17825792 then 0 else f.scrub + 1 }) = u := hu.symm
  refine ⟨?_, ?_, ?_⟩ <;> simp only [patrolScrub, hgo, hon, ↓reduceIte]
  · exact (if_neg (by decide)).trans (if_neg (by decide))
  · exact if_neg (by decide)

/-- Settles O37: each row by the entry, the slot or the partition that it names. -/
theorem metadataCorniceAndPartitionCommandsComplete : Obligations.MetadataCorniceAndPartitionCommandsComplete := by
  unfold Obligations.MetadataCorniceAndPartitionCommandsComplete
  refine ⟨fun m s k hsv hm hawake => ?_, fun m k s n e hsv hm hawake hn hlow he => ?_, fun m k s hsv hm hawake hhigh => ?_,
    fun m v s p seg j hsv hm hawake hp hseg hretreat hnow hfind => ?_, fun m v s hsv hm hawake hretreat => ?_,
    fun m v s p seg hsv hm hawake hp hseg hretreat => ?_, fun m v s hsv hm hawake => ?_,
    fun j s g hheld hst hs hcorn => ⟨_, rfl, corniceScrubDone_clauses hheld hst hs hcorn⟩, fun p v s hawake hopen => ?_,
    fun m c p v s h hm => ?_, fun m s hmaster hm hawake hopen => ?_, fun s => rfl, fun s => rfl, fun s u hscrub hawake hu => ?_⟩
  · obtain ⟨hlook, halloc⟩ := exec_metaLook (s := s) hm
    obtain ⟨hfound, hmissing⟩ := metaLook_clauses (k := k) hsv hawake
    rw [hlook, halloc]
    refine ⟨fun h => ?_, fun h => ?_⟩
    · obtain ⟨h1, h2⟩ := hfound h
      exact ⟨congrArg Host.Outcome.next h1, congrArg Host.Outcome.next h2⟩
    · obtain ⟨h1, h2, h3⟩ := hmissing h
      exact ⟨congrArg Host.Outcome.next h1, fun h => congrArg Host.Outcome.next (h2 h), fun h => congrArg Host.Outcome.next (h3 h)⟩
  · subst hn he
    obtain ⟨hdirty, hclean, hlock, hunlock, hinval⟩ := exec_metaEnt (s := s) (n := k) hm
    rw [hdirty, hclean, hlock, hunlock, hinval]
    refine ⟨congrArg Host.Outcome.next ((metaEntCmd_clauses hsv hawake).2.1 hlow rfl),
      congrArg Host.Outcome.next ((metaEntCmd_clauses hsv hawake).2.1 hlow rfl),
      congrArg Host.Outcome.next ((metaEntCmd_clauses hsv hawake).2.1 hlow rfl),
      congrArg Host.Outcome.next ((metaEntCmd_clauses hsv hawake).2.1 hlow rfl), fun h h' => ?_, fun h => ?_⟩
    · exact congrArg Host.Outcome.next ((metaEntCmd_clauses hsv hawake).2.1 hlow (by simp [h, h']))
    · exact congrArg Host.Outcome.next ((metaEntCmd_clauses hsv hawake).2.2 hlow (by rcases h with h | h <;> simp [h]))
  · obtain ⟨hdirty, hclean, hlock, hunlock, hinval⟩ := exec_metaEnt (s := s) (n := k) hm
    have hbad : ∀ (ok : MetaEnt → Bool) (f : MetaEnt → MetaEnt), metaEntCmd m k.toNat ok f s = s.metaResult m 5 none :=
      fun ok f => (metaEntCmd_clauses hsv hawake).1 hhigh
    rw [hdirty, hclean, hlock, hunlock, hinval, hbad, hbad, hbad, hbad, hbad]
    exact ⟨rfl, rfl, rfl, rfl, rfl⟩
  · rw [(exec_cornice hm).1]
    exact congrArg Host.Outcome.next (corniceAlloc_of_answer hsv hawake hp hseg (cAlloc_slot hretreat hnow hfind))
  · rw [(exec_cornice hm).1]
    exact congrArg Host.Outcome.next (corniceAlloc_of_answer hsv hawake rfl rfl (cAlloc_retreat hretreat))
  · rw [(exec_cornice hm).1]
    exact ⟨fun h => congrArg Host.Outcome.next (corniceAlloc_of_answer hsv hawake hp hseg (cAlloc_exists hretreat h)),
      fun h h' => congrArg Host.Outcome.next (corniceAlloc_of_answer hsv hawake hp hseg (cAlloc_noslot hretreat h h'))⟩
  · obtain ⟨-, hrelease, hstatus⟩ := exec_cornice (s := s) (v := v) hm
    obtain ⟨howned, hother⟩ := corniceSlot_clauses (v := v) hsv hawake
    rw [hrelease, hstatus]
    refine ⟨fun h => ?_, fun h => ?_⟩
    · obtain ⟨h1, h2⟩ := howned h
      exact ⟨congrArg Host.Outcome.next h1, congrArg Host.Outcome.next h2⟩
    · obtain ⟨h1, h2⟩ := hother h
      exact ⟨congrArg Host.Outcome.next h1, congrArg Host.Outcome.next h2⟩
  · obtain ⟨h1, h2, h3, h4⟩ := partitionWrite_clauses (p := p.toNat) (v := v) hawake hopen
    rw [exec_partitionWrite gated_sec, exec_partitionWrite gated_sec]
    exact ⟨fun h => congrArg Host.Outcome.next (h1 h), fun h => congrArg Host.Outcome.next (h2 h),
      fun h => congrArg Host.Outcome.next (h3 h), fun h => congrArg Host.Outcome.next (h4 h)⟩
  · rw [exec_partitionWrite hm]
    exact congrArg Host.Outcome.next (partitionWrite_ignored h)
  · obtain ⟨h1, h2⟩ := partitionLock_clauses hmaster hawake hopen
    rw [exec_partitionLock hm]
    exact ⟨fun h => congrArg Host.Outcome.next (h1 h), fun h => congrArg Host.Outcome.next (h2 h)⟩
  · obtain ⟨h1, h2, h3⟩ := patrolScrub_clauses hscrub hawake hu
    exact ⟨congrArg Host.Outcome.next h1, congrArg Host.Outcome.next h2, congrArg Host.Outcome.next h3⟩

end Sys2Proof.Proofs

/-! PROOFS. The rounds of the UQI, in which transfers, completions, checks and fetches go on, leave the Range Match Engine and every
register below its event flags (R361 to R395). -/

namespace Sys2Proof.Proofs

open Sys2Proof Sys2Proof.Machine

/-- The Range Match Engine and every register below its event flags are left. -/
def UqiKeeps (s t : State) : Prop :=
  t.rme = s.rme ∧ (s.regsWf = true → t.regsWf = true ∧ ∀ k < R.RME_FLAG, t.rd k = s.rd k)

section UqiRounds

variable {s t u : State}

theorem UqiKeeps.refl (s : State) : UqiKeeps s s := ⟨rfl, fun h => ⟨h, fun _ _ => rfl⟩⟩

theorem UqiKeeps.trans (h : UqiKeeps s t) (h' : UqiKeeps t u) : UqiKeeps s u :=
  ⟨h'.1.trans h.1, fun hs => ⟨(h'.2 (h.2 hs).1).1, fun k hk => ((h'.2 (h.2 hs).1).2 k hk).trans ((h.2 hs).2 k hk)⟩⟩

/-- A state whose registers and engine are those of another. -/
theorem UqiKeeps.of_same (hregs : t.regs = s.regs) (hrme : t.rme = s.rme) : UqiKeeps s t := by
  refine ⟨hrme, fun hs => ⟨?_, fun k _ => ?_⟩⟩
  · simp only [State.regsWf, hregs] at hs ⊢
    exact hs
  · simp only [State.rd, hregs]

theorem uqiKeeps_put {f : Fld} (hf : R.RME_FLAG ≤ f.reg) (n : Nat) : UqiKeeps s (s.put f n) :=
  ⟨rfl, fun hs => ⟨regsWf_put _ _ hs, fun _ hk => rd_put_ne hs (by omega) n⟩⟩

theorem uqiKeeps_ite {c : Prop} [Decidable c] (h : UqiKeeps s t) (h' : UqiKeeps s u) : UqiKeeps s (if c then t else u) := by
  split <;> assumption

theorem uqiKeeps_each {α : Type} {f : α → State → State} (hf : ∀ x v, UqiKeeps v (f x v)) (l : List α) (s : State) :
    UqiKeeps s (State.each f l s) :=
  each_induction (P := UqiKeeps s) (UqiKeeps.refl s) fun x _ v hv => hv.trans (hf x v)

/-! ### Messages, requests and refusals -/

theorem uqiKeeps_hostRefused : UqiKeeps s s.hostRefused :=
  (uqiKeeps_put (f := F.UQI_CNT_HOSTREF_CNT) (by decide) _).trans (uqiKeeps_put (f := F.UQI_EVT_HOSTREF) (by decide) 1)

theorem uqiKeeps_send (q : Nat) (o : Out) : UqiKeeps s (s.send q o) := UqiKeeps.of_same rfl rfl

theorem uqiKeeps_sendReads (q a n : Nat) : UqiKeeps s (s.sendReads q a n) :=
  uqiKeeps_each (fun _ _ => uqiKeeps_send _ _) _ _

theorem uqiKeeps_onUqi (f : UqiState → UqiState) : UqiKeeps s (s.onUqi f) := UqiKeeps.of_same rfl rfl

/-! ### Entry fetches -/

theorem uqiKeeps_uqiFetch (n : Nat) : ∀ s : State, UqiKeeps s (State.uqiFetch n s) := by
  induction n with
  | zero => exact UqiKeeps.refl
  | succ n ih =>
    intro s
    unfold State.uqiFetch
    split
    · exact UqiKeeps.refl s
    · simp only
      split
      · exact UqiKeeps.trans ((uqiKeeps_onUqi _).trans (uqiKeeps_hostRefused.trans (uqiKeeps_onUqi _))) (ih _)
      · exact UqiKeeps.trans ((uqiKeeps_onUqi _).trans ((uqiKeeps_onUqi _).trans (uqiKeeps_sendReads _ _ _))) (ih _)

/-! ### Completions -/

theorem uqiKeeps_cplIssue (c : Cpl) : UqiKeeps s (s.cplIssue c).2.2 := by
  unfold State.cplIssue
  split
  · exact UqiKeeps.refl s
  · simp only
    split
    · exact UqiKeeps.refl s
    · split
      · exact UqiKeeps.refl s
      · split
        · split
          · exact UqiKeeps.refl s
          · exact uqiKeeps_hostRefused
        · exact (uqiKeeps_send _ _).trans (uqiKeeps_onUqi _)

theorem uqiKeeps_cplLoop (l : List Cpl) : ∀ (b : List Nat) (d : List Cpl) (s : State), UqiKeeps s (State.cplLoop l b d s) := by
  induction l with
  | nil => exact fun _ _ _ => uqiKeeps_onUqi _
  | cons c l ih =>
    intro b d s
    unfold State.cplLoop
    split
    · exact ih _ _ _
    · exact (uqiKeeps_cplIssue c).trans (ih _ _ _)

theorem uqiKeeps_aimsEnd (i status : Nat) : UqiKeeps s (s.aimsEnd i status) :=
  uqiKeeps_each (fun _ v => uqiKeeps_ite (uqiKeeps_onUqi _) (UqiKeeps.refl v)) _ _

theorem uqiKeeps_resetDone (r : Nat) : UqiKeeps s (s.resetDone r) :=
  uqiKeeps_ite ((uqiKeeps_onUqi _).trans (uqiKeeps_put (f := F.SQ_C_EN r) (by simp only [F.SQ_C_EN, R.SQ_C, R.RME_FLAG]; omega) 0))
    (UqiKeeps.refl s)

theorem uqiKeeps_freeCmd (i : Nat) : UqiKeeps s (s.freeCmd i) := by
  unfold State.freeCmd
  split
  · exact UqiKeeps.refl s
  · exact ((uqiKeeps_onUqi _).trans (uqiKeeps_onUqi _)).trans (uqiKeeps_resetDone _)

theorem uqiKeeps_commitCpl (i : Nat) (k : Cmd) (status ed spec : Nat) : UqiKeeps s (s.commitCpl i k status ed spec) := by
  unfold State.commitCpl
  refine (uqiKeeps_aimsEnd i status).trans ?_
  have hcount : R.RME_FLAG ≤ (F.ISO_ECNT_4_ERRCPL k.party).reg := by simp only [F.ISO_ECNT_4_ERRCPL, R.ISO_ECNT_4, R.RME_FLAG]; omega
  refine UqiKeeps.trans (uqiKeeps_ite (UqiKeeps.refl _) (uqiKeeps_put hcount _)) (uqiKeeps_ite (uqiKeeps_freeCmd i) ?_)
  exact (uqiKeeps_onUqi _).trans (uqiKeeps_onUqi _)

/-! ### The checks at fetch -/

theorem uqiKeeps_dispatch (i : Nat) (k : Cmd) (l : List (Nat × Nat)) : UqiKeeps s (s.dispatch i k l) :=
  (uqiKeeps_onUqi _).trans (uqiKeeps_onUqi _)

/-- A window lookup that meets no error leaves the state. -/
theorem windowLookup_state (p x rreq port : Nat) : (s.windowLookup p x rreq port []).2 = s := by
  unfold State.windowLookup
  split
  · rfl
  · simp only [State.rmeErrors]
    split
    · split <;> rfl
    · rfl

theorem windowCheck_state (p rreq n : Nat) : ∀ (x m : Nat) (l : List (Nat × Nat)) (s : State),
    (State.windowCheck p rreq n x m [] l s).2 = s := by
  induction n with
  | zero => exact fun _ _ _ _ => rfl
  | succ n ih =>
    intro x m l s
    unfold State.windowCheck
    split
    · rfl
    · simp only
      split
      · exact windowLookup_state _ _ _ _
      · exact (ih _ _ _ _).trans (windowLookup_state _ _ _ _)

theorem uqiKeeps_rmeRefuse (p x rreq port ring cid : Nat) (r : RmeRes) : UqiKeeps s (s.rmeRefuse p x rreq port ring cid r) :=
  ((uqiKeeps_put (f := F.RME_CNT2_REFUSE_CNT) (by decide) _).trans (uqiKeeps_put (f := F.RME_FLAG_REFUSE) (by decide) 1)).trans
    (UqiKeeps.of_same rfl rfl)

theorem uqiKeeps_fetchCheck (i : Nat) (k : Cmd) : UqiKeeps s (s.fetchCheck i k []) := by
  unfold State.fetchCheck
  simp only
  split
  · exact uqiKeeps_commitCpl _ _ _ _ _
  · split
    · exact uqiKeeps_commitCpl _ _ _ _ _
    · split
      · exact uqiKeeps_dispatch _ _ _
      · simp only [windowCheck_state]
        split
        · have hcount : ∀ n, R.RME_FLAG ≤ 0x4000C840 + 8 * n := fun n => by simp only [R.RME_FLAG]; omega
          have hfault : UqiKeeps s (s.inc (F.ISO_ECNT_0_FAULTED k.party)) := uqiKeeps_put (hcount _) _
          have hrefused : UqiKeeps s (s.inc (F.ISO_ECNT_0_REFUSED k.party)) := uqiKeeps_put (hcount _) _
          exact ((uqiKeeps_ite hfault hrefused).trans (uqiKeeps_rmeRefuse _ _ _ _ _ _ _)).trans (uqiKeeps_commitCpl _ _ _ _ _)
        · exact uqiKeeps_ite (uqiKeeps_commitCpl _ _ _ _ _) (uqiKeeps_dispatch _ _ _)

theorem uqiKeeps_checkLoop (l : List Nat) : ∀ (b : List Master) (kept : List Nat) (s : State),
    UqiKeeps s (State.checkLoop l b kept [] s) := by
  induction l with
  | nil => exact fun _ _ _ => uqiKeeps_onUqi _
  | cons i l ih =>
    intro b kept s
    unfold State.checkLoop
    split
    · exact ih _ _ _
    · simp only
      split
      · exact ih _ _ _
      · exact (uqiKeeps_fetchCheck _ _).trans (ih _ _ _)

theorem uqiKeeps_runChecks : UqiKeeps s (s.runChecks []) := uqiKeeps_checkLoop _ _ _ _

/-! ### Host transfers -/

theorem uqiKeeps_listFault (k : Cmd) (kind depth idx addr : Nat) : UqiKeeps s (s.listFault k kind depth idx addr) := by
  unfold State.listFault
  have hcount : UqiKeeps s ((s.inc F.UQI_CNT_LISTF_CNT).raiseBit F.UQI_EVT_LISTF) :=
    (uqiKeeps_put (f := F.UQI_CNT_LISTF_CNT) (by decide) _).trans (uqiKeeps_put (f := F.UQI_EVT_LISTF) (by decide) 1)
  exact (hcount.trans (uqiKeeps_ite uqiKeeps_hostRefused (UqiKeeps.refl _))).trans (UqiKeeps.of_same rfl rfl)

theorem chstat_above (c : Nat) : R.RME_FLAG ≤ R.CHSTAT c := by simp only [R.CHSTAT, R.RME_FLAG]; omega

theorem uqiKeeps_chEnter (c st : Nat) : UqiKeeps s (s.chEnter c st) :=
  (uqiKeeps_put (f := F.CHSTAT_STATE c) (chstat_above c) st).trans
    (uqiKeeps_ite (uqiKeeps_put (f := F.DMA_STAT_BUSY) (by decide) _) (uqiKeeps_put (f := F.DMA_STAT_BUSY) (by decide) _))

theorem uqiKeeps_chGo (c a : Nat) : UqiKeeps s (s.chGo c a) := by
  have hdesc : R.RME_FLAG ≤ (F.CHDESC_ADDR c).reg := by simp only [F.CHDESC_ADDR, R.CHDESC, R.RME_FLAG]; omega
  exact (uqiKeeps_put hdesc a).trans (uqiKeeps_ite (uqiKeeps_chEnter _ _) ((uqiKeeps_chEnter _ _).trans (UqiKeeps.of_same rfl rfl)))

theorem uqiKeeps_jobStart (k : Cmd) (j : XJob) (c : Nat) : UqiKeeps s (s.jobStart k j c) :=
  (((uqiKeeps_put (f := F.CHSTAT_CAUSE c) (chstat_above c) 0).trans (uqiKeeps_put (f := F.CHSTAT_DETAIL c) (chstat_above c) 0)).trans
    (UqiKeeps.of_same rfl rfl)).trans (uqiKeeps_chGo _ _)

theorem uqiKeeps_jobStep (j : XJob) : UqiKeeps s (s.jobStep j).2 := by
  unfold State.jobStep
  split
  · exact UqiKeeps.refl s
  · split
    · simp only
      split
      · split <;> exact uqiKeeps_onUqi _
      · split
        · split
          · exact UqiKeeps.refl s
          · exact uqiKeeps_onUqi _
        · exact UqiKeeps.refl s
    · split
      · exact UqiKeeps.refl s
      · split
        · exact uqiKeeps_onUqi _
        · simp only
          generalize (if j.fault.isSome = true then (j.ranges, WalkEnd.covered) else walk s _ _ _) = found
          obtain ⟨l, e⟩ := found
          cases e with
          | page a => exact uqiKeeps_ite (UqiKeeps.refl s) (uqiKeeps_send _ _)
          | fault kind depth idx addr detail =>
            simp only
            split
            · exact (uqiKeeps_listFault _ _ _ _ _).trans (uqiKeeps_onUqi _)
            · exact uqiKeeps_listFault _ _ _ _ _
          | covered =>
            simp only
            split
            · exact UqiKeeps.refl s
            · exact uqiKeeps_jobStart _ _ _

theorem uqiKeeps_jobLoop (l : List XJob) : ∀ (d : List XJob) (s : State), UqiKeeps s (State.jobLoop l d s) := by
  induction l with
  | nil => exact fun _ _ => uqiKeeps_onUqi _
  | cons j l ih =>
    intro d s
    unfold State.jobLoop
    exact (uqiKeeps_jobStep j).trans (ih _ _)

theorem uqiKeeps_uqiRun : UqiKeeps s s.uqiRun :=
  (((uqiKeeps_jobLoop _ _ _).trans (uqiKeeps_jobLoop _ _ _)).trans (uqiKeeps_cplLoop _ _ _ _)).trans (uqiKeeps_uqiFetch _ _)

end UqiRounds

end Sys2Proof.Proofs

/-! PROOFS. Lookups, commits, locks and the patrol of the Range Match Engine (R317 to R333). -/

namespace Sys2Proof.Proofs

open Sys2Proof Sys2Proof.Machine

section BankCommands

variable {s u : State} {m : Master} {v w : Word} {e : List RmeErr} {r : RmeRes}

theorem exec_rmeLookups (hm : gated s m = false) : exec (.defectLookup m e) s = .next (rmeTake m false 0 e s) ∧
    exec (.windowLookup m v e) s = .next (rmeTake m false (v ||| 1) e s) :=
  ⟨congrArg Host.Outcome.next (byCore_of_not_gated hm), congrArg Host.Outcome.next (byCore_of_not_gated hm)⟩

theorem exec_rmeStaged (hm : gated s m = false) : exec (.rmeCommit m v) s = .next (rmeTake m true v [] s) ∧
    exec (.shadowRead m v) s = .next (shadowRead m v s) :=
  ⟨congrArg Host.Outcome.next (byCore_of_not_gated hm), congrArg Host.Outcome.next (byCore_of_not_gated hm)⟩

theorem rmeTake_of_free {c : Bool} (hsv : m ≠ .sv) (hfree : rmeBusy s m c = false) :
    rmeTake m c v e s = s.rmeIssue { m := m, commit := c, v := v, errs := e } :=
  if_pos (by simp [hasBank, hsv, hfree])

theorem rmeTake_ignored {c : Bool} (h : m = .sv ∨ rmeBusy s m c = true) : rmeTake m c v e s = s :=
  if_neg (by rcases h with h | h <;> simp [hasBank, h])

theorem shadowRead_ignored (h : m = .sv ∨ rmeBusy s m true = true) : shadowRead m v s = s :=
  if_neg (by rcases h with h | h <;> simp [hasBank, h])

/-- The word of a window lookup names the window channel. -/
theorem windowWord_channel (hw : w = v ||| 1) : bitsOf w 0 0 = 1 := by
  have hbit : w.getLsbD 0 = true := by simp [hw]
  have hodd : w.toNat % 2 = 1 := by
    rw [BitVec.getLsbD, Nat.testBit_zero] at hbit
    simpa using hbit
  simp [bitsOf, hodd]

theorem defectLookup_issues (hawake : s.on F.FIRN_STAT_ASLEEP = false) (h : s.defectLookup (rmeKey s m) m.idx e = (r, u)) :
    s.rmeIssue { m := m, commit := false, v := 0, errs := e } = u.rmeResult m r := by
  have hdefect : bitsOf (0 : Word) 0 0 = 0 := by decide
  have hgo : rmeBlocked s { m := m, commit := false, v := 0, errs := e } = false := by
    simp only [rmeBlocked, firnAwake, hawake, hdefect]
    rfl
  rw [State.rmeIssue, hgo, if_neg Bool.false_ne_true, if_neg Bool.false_ne_true]
  simp only [State.rmeBankLookup, if_pos hdefect, h]

theorem defectLookup_not_ready {x port : Nat} (hready : s.on F.RME_CTL_DREADY = false) : s.defectLookup x port e = ({ result := 3 }, s) :=
  if_pos (.inl (by simp [hready]))

theorem windowLookup_issues {p : Nat} (hawake : s.on F.FIRN_STAT_ASLEEP = false) (hchannel : bitsOf w 0 0 = 1) (hp : p = bitsOf w 4 1)
    (hheld : s.rme.held.contains p = false) (h : s.windowLookup p (rmeKey s m) (bitsOf w 7 5) m.idx e = (r, u)) :
    s.rmeIssue { m := m, commit := false, v := w, errs := e } =
      (if r.result ≠ 0 ∧ bitsOf w 8 8 = 1 then u.rmeRefuse p (rmeKey s m) (bitsOf w 7 5) m.idx 0xFF 0 r else u).rmeResult m r := by
  have hgo : rmeBlocked s { m := m, commit := false, v := w, errs := e } = false := by
    simp only [rmeBlocked, firnAwake, hawake, hchannel, ← hp, hheld]
    rfl
  have hwindow : ¬ bitsOf w 0 0 = 0 := by omega
  rw [State.rmeIssue, hgo, if_neg Bool.false_ne_true, if_neg Bool.false_ne_true]
  simp only [State.rmeBankLookup, if_neg hwindow, ← hp, h]

theorem windowLookup_waits (hchannel : bitsOf w 0 0 = 1)
    (h : s.on F.FIRN_STAT_ASLEEP = true ∨ s.rme.held.contains (bitsOf w 4 1) = true) :
    s.rmeIssue { m := m, commit := false, v := w, errs := e } = ({ s with
      rme := { s.rme with waiting := s.rme.waiting ++ [{ m := m, commit := false, v := w, errs := e }] } } : State).raiseBit
        (F.RME_LRES0_BUSY m) := by
  have hwait : rmeBlocked s { m := m, commit := false, v := w, errs := e } = true := by
    rcases h with h | h
    · simp [rmeBlocked, firnAwake, h]
    · simp only [rmeBlocked, hchannel, h]
      simp
  rw [State.rmeIssue, if_pos hwait]
  rfl

theorem rmeCommit_issues (hawake : s.on F.FIRN_STAT_ASLEEP = false) :
    s.rmeIssue { m := m, commit := true, v := v, errs := [] } = s.rmeCommit m (bitsOf v 4 2 + 1) := by
  have hgo : ¬ rmeBlocked s { m := m, commit := true, v := v, errs := [] } = true := by simp [rmeBlocked, firnAwake, hawake]
  exact (if_neg hgo).trans (if_pos rfl)

theorem rmeCommit_clauses {n : Nat} {l : List RmeStg} (hl : l = (List.range n).map (fun k => rmeSlot s m k)) :
    (firstBad l (fun k x => rmeFault s m l (rmeApply s.rme.ents l) k x != 0) = none → s.rmeCommit m n = s.rmeCommitPoint m l) ∧
    (∀ k : Nat, firstBad l (fun k x => rmeFault s m l (rmeApply s.rme.ents l) k x != 0) = some k →
      s.rmeCommit m n = s.rmeSres m (rmeFault s m l (rmeApply s.rme.ents l) k (rmeSlot s m k)) k 0) := by
  refine ⟨fun h => ?_, fun k h => ?_⟩ <;> simp only [State.rmeCommit, ← hl, h]

end BankCommands

section Shadows

variable {s : State} {m : Master} {v : Word} {i : Nat}

/-! ### A shadow in staging slot 0 -/

/-- Staging slot 0, empty but for its index. -/
def slotBlank (m : Master) (i : Nat) (s : State) : State :=
  ((((s.wr (R.RME_STG_00 m 0) 0).wr (R.RME_STG_04 m 0) 0).wr (R.RME_STG_08 m 0) 0).wr (R.RME_STG_0C m 0) 0).wr
    (R.RME_STG_10 m 0) (BitVec.ofNat 32 i)

/-- The fields of staging slot 0 that show an entry. -/
def shadowFields (m : Master) (e : RmeEnt) : List (Fld × Nat) :=
  [(F.RME_STG_00_KEY_LO m 0, e.key), (F.RME_STG_04_KEY_HI m 0, e.key / 4294967296), (F.RME_STG_04_LEN m 0, e.len),
    (F.RME_STG_04_PARTY m 0, e.party), (F.RME_STG_04_CH m 0, if e.window then 1 else 0), (F.RME_STG_04_VALID m 0, 1),
    (F.RME_STG_08_BASE_LO m 0, e.base), (F.RME_STG_0C_BASE_HI m 0, e.base / 4294967296),
    (F.RME_STG_0C_IDENT m 0, if e.ident then 1 else 0), (F.RME_STG_0C_RIGHTS m 0, e.rights), (F.RME_STG_0C_PRIO m 0, e.prio)]

/-- The fields that show an entry, or nothing where the row is empty. -/
def shownFields (m : Master) (o : Option RmeEnt) : List (Fld × Nat) := (o.map (shadowFields m)).getD []

theorem shadowRead_of_free (hsv : m ≠ .sv) (hfree : rmeBusy s m true = false) (hi : i = bitsOf v 15 5) :
    shadowRead m v s = (puts (shownFields m (tabGet s.rme.ents none i)) (slotBlank m i s)).rmeSres m 0 0 0 := by
  have hgo : (hasBank m && !rmeBusy s m true) = true := by simp [hasBank, hsv, hfree]
  have hshadow : shadowRead m v s = (match tabGet s.rme.ents none i with
      | none => slotBlank m i s
      | some e => puts (shadowFields m e) (slotBlank m i s)).rmeSres m 0 0 0 := by
    rw [shadowRead, if_pos hgo, ← hi]
    rfl
  rw [hshadow]
  cases tabGet s.rme.ents none i with
  | none => rfl
  | some e => rfl

theorem shadowFields_apart (m : Master) (e : RmeEnt) : putsApart (shadowFields m e) = true := by cases m <;> rfl

theorem regsWf_slotBlank (hs : s.regsWf = true) (m : Master) (i : Nat) : (slotBlank m i s).regsWf = true :=
  regsWf_wr _ _ (regsWf_wr _ _ (regsWf_wr _ _ (regsWf_wr _ _ (regsWf_wr _ _ hs))))

theorem slotBlank_shows (hs : s.regsWf = true) (m : Master) (i : Nat) : (slotBlank m i s).rd (R.RME_STG_10 m 0) = BitVec.ofNat 32 i ∧
    (slotBlank m i s).rd (R.RME_STG_04 m 0) = 0 := by
  have h00 := regsWf_wr (R.RME_STG_00 m 0) 0 hs
  have h04 := regsWf_wr (R.RME_STG_04 m 0) 0 h00
  have h08 := regsWf_wr (R.RME_STG_08 m 0) 0 h04
  have h0C := regsWf_wr (R.RME_STG_0C m 0) 0 h08
  refine ⟨rd_wr_same _ h0C, ?_⟩
  rw [slotBlank, rd_wr_ne _ h0C (by cases m <;> decide), rd_wr_ne _ h08 (by cases m <;> decide), rd_wr_ne _ h04 (by cases m <;> decide),
    rd_wr_same _ h00]

/-- A commit's result is shown in RME_SRES alone. -/
theorem rd_rmeSres (hs : s.regsWf = true) (m : Master) (a b c : Nat) {k : Nat} (hk : k ≠ R.RME_SRES m) :
    (s.rmeSres m a b c).rd k = s.rd k := by
  have h0 := regsWf_wr (R.RME_SRES m) 0 hs
  have h1 := regsWf_put (F.RME_SRES_RESULT m) a h0
  have h2 := regsWf_put (F.RME_SRES_SLOT m) b h1
  rw [State.rmeSres, rd_put_ne h2 hk, rd_put_ne h1 hk, rd_put_ne h0 hk, rd_wr_ne _ hs hk]

theorem result_rmeSres (hs : s.regsWf = true) (m : Master) (b c : Nat) : (s.rmeSres m 0 b c).get (F.RME_SRES_RESULT m) = 0 := by
  have h0 := regsWf_wr (R.RME_SRES m) 0 hs
  have h1 := regsWf_put (F.RME_SRES_RESULT m) 0 h0
  have h2 := regsWf_put (F.RME_SRES_SLOT m) b h1
  rw [State.rmeSres, get_put_apart _ h2 rfl rfl (by cases m <;> rfl), get_put_apart _ h1 rfl rfl (by cases m <;> rfl),
    get_put_same _ h0 rfl]
  rfl

theorem index_lt (v : Word) : bitsOf v 15 5 < 2048 := Nat.mod_lt _ (by decide)

theorem shadowRead_clauses (hsv : m ≠ .sv) (hfree : rmeBusy s m true = false) (hs : s.regsWf = true) (hi : i = bitsOf v 15 5) :
    (shadowRead m v s).get (F.RME_STG_10_INDEX m 0) = i ∧ (shadowRead m v s).get (F.RME_SRES_RESULT m) = 0 ∧
    (tabGet s.rme.ents none i = none → (shadowRead m v s).on (F.RME_STG_04_VALID m 0) = false) ∧
    (∀ e : RmeEnt, tabGet s.rme.ents none i = some e → (shadowRead m v s).on (F.RME_STG_04_VALID m 0) = true ∧
      (shadowRead m v s).get (F.RME_STG_00_KEY_LO m 0) = e.key % 4294967296 ∧
      (shadowRead m v s).get (F.RME_STG_04_LEN m 0) = e.len % 64) := by
  have hblank := regsWf_slotBlank hs m i
  obtain ⟨hindex, hempty⟩ := slotBlank_shows hs m i
  obtain ⟨o, ho⟩ : ∃ o, o = tabGet s.rme.ents none i := ⟨_, rfl⟩
  have hput := regsWf_puts hblank (shownFields m o)
  have hget : ∀ {f : Fld}, f.reg ≠ R.RME_SRES m → (shadowRead m v s).get f = (puts (shownFields m o) (slotBlank m i s)).get f := by
    intro f hf
    rw [shadowRead_of_free hsv hfree hi, ← ho]
    exact get_of_rd (rd_rmeSres hput m 0 0 0 hf)
  have hvalid : F.RME_STG_04_VALID m 0 = ⟨R.RME_STG_04 m 0, 27, 27⟩ := rfl
  refine ⟨?_, ?_, fun hnone => ?_, fun e he => ?_⟩
  · rw [hget (by cases m <;> decide), get_puts_apart hblank rfl (by cases o <;> cases m <;> rfl)]
    have hbits : (slotBlank m i s).get (F.RME_STG_10_INDEX m 0) = bitsOf (BitVec.ofNat 32 i) 10 0 := congrArg (bitsOf · 10 0) hindex
    have hlow : i < 2048 := hi ▸ index_lt v
    rw [hbits, bitsOf, BitVec.toNat_ofNat]
    omega
  · rw [shadowRead_of_free hsv hfree hi, ← ho]
    exact result_rmeSres hput m 0 0
  · have hzero : (slotBlank m i s).get (F.RME_STG_04_VALID m 0) = 0 := (congrArg (bitsOf · 27 27) hempty).trans (by decide)
    rw [← ho] at hnone
    have hnothing : (shadowRead m v s).get (F.RME_STG_04_VALID m 0) = 0 := by
      rw [hget (by cases m <;> decide), hnone]
      exact hzero
    simp [State.on, hnothing]
  · rw [← ho] at he
    have hshown : ∀ {f : Fld} {n : Nat}, f.reg ≠ R.RME_SRES m → (f, n) ∈ shadowFields m e →
        (shadowRead m v s).get f = n % 2 ^ (f.hi + 1 - f.lo) := by
      intro f n hf hmem
      rw [hget hf, he]
      exact get_puts_of_mem hblank (shadowFields_apart m e) hmem
    have hone := hshown (f := F.RME_STG_04_VALID m 0) (n := 1) (by cases m <;> decide) (by simp [shadowFields])
    refine ⟨?_, hshown (n := e.key) (by cases m <;> decide) (by simp [shadowFields]),
      hshown (n := e.len) (by cases m <;> decide) (by simp [shadowFields])⟩
    simp only [State.on, hone]
    rfl

end Shadows

section Locks

variable {s u : State} {m : Master}

theorem exec_wlock_of_running (hm : gated s m = false) : exec (.wlock m) s = .next (if m = .sec then s.wlock else s) :=
  congrArg Host.Outcome.next (byCore_of_not_gated hm)

theorem exec_dready (hm : gated s m = false) :
    exec (.dready m) s = .next (if m = .sec ∨ m = .mc then s.raiseBit F.RME_CTL_DREADY else s) :=
  congrArg Host.Outcome.next (byCore_of_not_gated hm)

theorem revokeHoldEnd_of_none (hnone : s.rme.waiting = []) :
    s.revokeHoldEnd = ({ s with rme := { s.rme with held := [], waiting := [] } } : State).clr F.RME_STAT_HOLD := by
  rw [State.revokeHoldEnd, State.rmeWake]
  have hlist : ((({ s with rme := { s.rme with held := [] } } : State).clr F.RME_STAT_HOLD).rme.waiting) = [] := hnone
  rw [hlist]
  rfl

theorem revokeHoldEnd_clauses (hnone : s.rme.waiting = []) : s.revokeHoldEnd.rme.held = [] ∧ s.revokeHoldEnd.rme.ents = s.rme.ents ∧
    (s.regsWf = true → s.revokeHoldEnd.on F.RME_STAT_HOLD = false) := by
  rw [revokeHoldEnd_of_none hnone]
  refine ⟨rfl, rfl, fun hs => ?_⟩
  have hget : (({ s with rme := { s.rme with held := [], waiting := [] } } : State).clr F.RME_STAT_HOLD).get F.RME_STAT_HOLD = 0 :=
    (get_put_same (s := { s with rme := { s.rme with held := [], waiting := [] } }) 0 hs (by decide)).trans rfl
  simp only [State.on, hget]
  rfl

/-- The UQI's rounds after the hold leave its end as it is. -/
theorem revokeHoldEnd_rounds (hnone : s.rme.waiting = []) : (s.revokeHoldEnd.runChecks []).uqiRun.rme.held = [] ∧
    (s.revokeHoldEnd.runChecks []).uqiRun.rme.ents = s.rme.ents ∧
    (s.regsWf = true → (s.revokeHoldEnd.runChecks []).uqiRun.on F.RME_STAT_HOLD = false) := by
  obtain ⟨hheld, hents, hhold⟩ := revokeHoldEnd_clauses hnone
  obtain ⟨hrme, hregs⟩ := (uqiKeeps_runChecks (s := s.revokeHoldEnd)).trans uqiKeeps_uqiRun
  rw [hrme]
  refine ⟨hheld, hents, fun hs => ?_⟩
  have hwf : s.revokeHoldEnd.regsWf = true := by
    rw [revokeHoldEnd_of_none hnone]
    exact regsWf_put (s := { s with rme := { s.rme with held := [], waiting := [] } }) _ _ hs
  have hget : (s.revokeHoldEnd.runChecks []).uqiRun.get F.RME_STAT_HOLD = s.revokeHoldEnd.get F.RME_STAT_HOLD :=
    get_of_rd ((hregs hwf).2 _ (by decide))
  have hclear := hhold hs
  rwa [State.on, ← hget] at hclear

theorem rmePatrol_clauses {i : Nat} {w : Bool} {f : BitVec 3} (hawake : s.on F.FIRN_STAT_ASLEEP = false) (hi : i = s.rme.patrol)
    (hw : w = (match tabGet s.rme.ents none i with | some e => e.window | none => false))
    (hu : u = { s with rme := { s.rme with patrol := (i + 1) % 2048 } }) : rmePatrol f s =
      if f = 3 then ((u.inc F.RME_CNT_PAT_CNT).raiseBit F.RME_FLAG_PATROL).rmeRecord i w 3 6 0 0 0xFF
      else if f = 4 then (u.rmeShadowFault i w).rmeRecord i w 4 6 0 0 0xFF else u := by
  subst hi hw hu
  exact if_pos (by simp [firnAwake, hawake])

end Locks

/-- Settles O39: each command by its bank, its channel and the table. -/
theorem rangeMatchCommandsComplete : Obligations.RangeMatchCommandsComplete := by
  unfold Obligations.RangeMatchCommandsComplete
  refine ⟨fun m e s u r hsv hm hfree hawake h => ?_, fun m v w e s u r p hsv hm hfree hawake hw hp hheld h => ?_,
    fun m v w e s hsv hm hfree hw h => ?_, fun m v e s hm => ?_, fun m v s l hsv hm hfree hawake hl => ?_,
    fun s hnone => ⟨_, rfl, revokeHoldEnd_rounds hnone⟩, fun m v s hsv hm hfree hs => ?_, fun s => ?_, fun m s => ?_, fun s hawake => ?_,
    fun s u i w hawake hi hw hu => ?_⟩
  · rw [(exec_rmeLookups (v := 0) hm).1, rmeTake_of_free hsv hfree]
    refine ⟨congrArg Host.Outcome.next (defectLookup_issues hawake h), fun hready => ?_⟩
    obtain ⟨hr, hu⟩ := Prod.mk.inj ((defectLookup_not_ready hready).symm.trans h)
    exact ⟨hr.symm, hu.symm⟩
  · rw [(exec_rmeLookups hm).2, ← hw, rmeTake_of_free hsv hfree, windowLookup_issues hawake (windowWord_channel hw) hp hheld h]
    refine ⟨fun hgood => ?_, fun hbad hreport => ?_⟩
    · rw [if_neg]
      rintro ⟨hbad, hreport⟩
      rcases hgood with hgood | hgood
      · exact hbad hgood
      · omega
    · rw [if_pos ⟨hbad, hreport⟩]
  · rw [(exec_rmeLookups hm).2, ← hw, rmeTake_of_free hsv hfree, windowLookup_waits (windowWord_channel hw) h]
  · obtain ⟨hdefect, hwindow⟩ := exec_rmeLookups (v := v) (e := e) hm
    obtain ⟨hcommit, hshadow⟩ := exec_rmeStaged (v := v) hm
    rw [hdefect, hwindow, hcommit, hshadow]
    exact ⟨fun h => ⟨congrArg Host.Outcome.next (rmeTake_ignored h), congrArg Host.Outcome.next (rmeTake_ignored h)⟩,
      fun h => ⟨congrArg Host.Outcome.next (rmeTake_ignored h), congrArg Host.Outcome.next (shadowRead_ignored h)⟩⟩
  · rw [(exec_rmeStaged hm).1, rmeTake_of_free hsv hfree, rmeCommit_issues hawake]
    obtain ⟨hgood, hbad⟩ := rmeCommit_clauses hl
    exact ⟨fun h => congrArg Host.Outcome.next (hgood h), fun k h => congrArg Host.Outcome.next (hbad k h)⟩
  · rw [(exec_rmeStaged hm).2]
    exact ⟨_, rfl, shadowRead_clauses hsv hfree hs rfl⟩
  · rw [exec_wlock_of_running gated_sec, if_pos rfl]
    exact ⟨fun h => congrArg Host.Outcome.next (if_pos h), fun h => congrArg Host.Outcome.next (if_neg (by simp [h]))⟩
  · exact ⟨fun h hm => (exec_wlock_of_running hm).trans (congrArg Host.Outcome.next (if_neg h)),
      fun h hm => (exec_dready hm).trans (congrArg Host.Outcome.next (if_pos h)),
      fun h h' hm => (exec_dready hm).trans (congrArg Host.Outcome.next (if_neg fun hor => hor.elim h h'))⟩
  · exact congrArg Host.Outcome.next (rmePatrol_clauses hawake rfl rfl rfl)
  · exact ⟨congrArg Host.Outcome.next (rmePatrol_clauses hawake hi hw hu), congrArg Host.Outcome.next (rmePatrol_clauses hawake hi hw hu)⟩

end Sys2Proof.Proofs

/-! PROOFS. Starting, fetching, ending and aborting a channel, and its configuration (R334, R344, R350, R351, R354). -/

namespace Sys2Proof.Proofs

open Sys2Proof Sys2Proof.Machine

section Channels

variable {s : State} {m : Master} {c : BitVec 4} {v : Word} {n : Nat} {ue : Option (BitVec 32)}

theorem exec_chstart (hm : gated s m = false) : exec (.chstart m c v) s = .next (chstart m c v s) :=
  congrArg Host.Outcome.next (byCore_of_not_gated hm)

theorem exec_channelAbort (hm : gated s m = false) : exec (.channelAbort m c) s = .next (channelAbort m c s) :=
  congrArg Host.Outcome.next (byCore_of_not_gated hm)

/-- A channel that is IDLE or HALTED is neither RUN nor HELD. -/
theorem not_busy (h : chState s n = chIDLE ∨ chState s n = chHALTED) : ¬ chState s n = chRUN ∧ ¬ chState s n = chHELD := by
  rcases h with h | h <;> rw [h] <;> decide

theorem chstart_clauses (hown : chOwner s c.toNat = ownerCode m) :
    (chState s c.toNat = chIDLE ∨ chState s c.toNat = chHALTED → chstart m c v s = s.chStart c.toNat v.toNat) ∧
    (chState s c.toNat = chRUN ∨ chState s c.toNat = chHELD → chstart m c v s = s.raiseBit (F.CHSTAT_IGN c.toNat)) := by
  constructor <;> intro h <;> simp only [chstart, if_neg (not_not_intro hown)]
  · exact if_neg fun hbusy => hbusy.elim (not_busy h).1 (not_busy h).2
  · exact if_pos h

/-! ### What a start shows -/

/-- What a start clears. -/
def startCleared (n : Nat) (s : State) : State :=
  (if s.on F.DMA_STAT_HOLD then s else (s.put (F.CHSTAT_CAUSE n) 0).put (F.CHSTAT_DETAIL n) 0).onChan n fun k => { k with uqi := false }

theorem chStart_eq (n a : Nat) : s.chStart n a = (startCleared n s).chGo n a := rfl

theorem regsWf_startCleared (hs : s.regsWf = true) (n : Nat) : (startCleared n s).regsWf = true := by
  unfold startCleared State.onChan
  split
  · exact hs
  · exact regsWf_put _ _ (regsWf_put _ _ hs)

theorem rd_startCleared_ne (hs : s.regsWf = true) {k : Nat} (hk : k ≠ R.CHSTAT n) : (startCleared n s).rd k = s.rd k := by
  have hcleared : ((s.put (F.CHSTAT_CAUSE n) 0).put (F.CHSTAT_DETAIL n) 0).rd k = s.rd k :=
    (rd_put_ne (regsWf_put _ _ hs) hk 0).trans (rd_put_ne hs hk 0)
  unfold startCleared State.onChan
  split
  · rfl
  · exact hcleared

theorem cause_startCleared (hs : s.regsWf = true) (hrun : s.on F.DMA_STAT_HOLD = false) :
    (startCleared n s).get (F.CHSTAT_CAUSE n) = 0 := by
  have hput : ((s.put (F.CHSTAT_CAUSE n) 0).put (F.CHSTAT_DETAIL n) 0).get (F.CHSTAT_CAUSE n) = 0 := by
    rw [get_put_apart _ (regsWf_put _ _ hs) rfl rfl (by simp [fldApart, F.CHSTAT_CAUSE, F.CHSTAT_DETAIL]), get_put_same _ hs rfl]
    rfl
  rw [startCleared, hrun, if_neg Bool.false_ne_true]
  exact hput

theorem chan_startCleared (hd : s.dmaWf = true) (n : Nat) : (startCleared n s).chan n = { s.chan n with uqi := false } := by
  have hdma : ∀ b : Bool, (if b = true then s else (s.put (F.CHSTAT_CAUSE n) 0).put (F.CHSTAT_DETAIL n) 0).dma = s.dma :=
    fun b => ite_keeps State.dma rfl rfl
  obtain ⟨w, hw⟩ : ∃ w : State, w = if s.on F.DMA_STAT_HOLD then s else (s.put (F.CHSTAT_CAUSE n) 0).put (F.CHSTAT_DETAIL n) 0 := ⟨_, rfl⟩
  have hwdma : w.dma = s.dma := hw ▸ hdma _
  have hchan : (w.onChan n fun k => { k with uqi := false }).chan n = { w.chan n with uqi := false } :=
    tabGet_tabPut_same _ _ (hwdma ▸ hd)
  have hsame : w.chan n = s.chan n := by simp only [State.chan, hwdma]
  rw [startCleared, ← hw, hchan, hsame]

/-- Entering RUN or HELD shows in the channel's state and in BUSY. -/
theorem chEnter_shows (hs : s.regsWf = true) {st : Nat} (hn : n < 16) (hst : st = chRUN ∨ st = chHELD) :
    chState (s.chEnter n st) n = st ∧ (s.chEnter n st).bit F.DMA_STAT_BUSY n = true := by
  have hput : (s.put (F.CHSTAT_STATE n) st).regsWf = true := regsWf_put _ _ hs
  have hfar : (F.CHSTAT_STATE n).reg ≠ F.DMA_STAT_BUSY.reg := by
    simp only [F.CHSTAT_STATE, F.DMA_STAT_BUSY, R.CHSTAT, R.DMA_STAT]
    omega
  rw [State.chEnter, if_pos hst]
  refine ⟨?_, bit_setIn_same hput (by decide) hn⟩
  rw [chState, State.setIn, get_of_rd (rd_put_ne hput hfar _), get_put_same _ hs rfl]
  rcases hst with rfl | rfl <;> rfl

theorem rd_chEnter_ne (hs : s.regsWf = true) {st k : Nat} (hstat : k ≠ R.CHSTAT n) (hbusy : k ≠ R.DMA_STAT) :
    (s.chEnter n st).rd k = s.rd k := by
  have hput : (s.put (F.CHSTAT_STATE n) st).regsWf = true := regsWf_put _ _ hs
  exact (ite_keeps (fun t => t.rd k) (rd_put_ne hput hbusy _) (rd_put_ne hput hbusy _)).trans (rd_put_ne hs hstat _)

theorem cause_chEnter (hs : s.regsWf = true) (st : Nat) : (s.chEnter n st).get (F.CHSTAT_CAUSE n) = s.get (F.CHSTAT_CAUSE n) := by
  have hput : (s.put (F.CHSTAT_STATE n) st).regsWf = true := regsWf_put _ _ hs
  have hfar : R.CHSTAT n ≠ R.DMA_STAT := by
    simp only [R.CHSTAT, R.DMA_STAT]
    omega
  have hrd : (s.chEnter n st).rd (R.CHSTAT n) = (s.put (F.CHSTAT_STATE n) st).rd (R.CHSTAT n) :=
    ite_keeps (fun t => t.rd (R.CHSTAT n)) (rd_put_ne hput hfar _) (rd_put_ne hput hfar _)
  exact (get_of_rd (f := F.CHSTAT_CAUSE n) hrd).trans
    (get_put_apart _ hs rfl rfl (by simp [fldApart, F.CHSTAT_CAUSE, F.CHSTAT_STATE]))

theorem dma_chEnter (n st : Nat) : (s.chEnter n st).dma = s.dma := ite_keeps State.dma rfl rfl

/-- A channel that is to run a descriptor fetches it, or holds while HOLD = 1. -/
theorem chGo_clauses (hs : s.regsWf = true) (hd : s.dmaWf = true) (hn : n < 16) {a : Nat} (ha : a < 2 ^ 32) :
    (s.chGo n a).get (F.CHDESC_ADDR n) = a ∧ (s.chGo n a).bit F.DMA_STAT_BUSY n = true ∧
    (s.on F.DMA_STAT_HOLD = true → chState (s.chGo n a) n = chHELD ∧ (s.chGo n a).chan n = s.chan n) ∧
    (s.on F.DMA_STAT_HOLD = false → chState (s.chGo n a) n = chRUN ∧ ((s.chGo n a).chan n).fetching = true ∧
      (s.chGo n a).get (F.CHSTAT_CAUSE n) = s.get (F.CHSTAT_CAUSE n)) := by
  have hput : (s.put (F.CHDESC_ADDR n) a).regsWf = true := regsWf_put _ _ hs
  have haddr : (s.put (F.CHDESC_ADDR n) a).get (F.CHDESC_ADDR n) = a := (get_put_same _ hs rfl).trans (Nat.mod_eq_of_lt ha)
  have hhold : (s.put (F.CHDESC_ADDR n) a).on F.DMA_STAT_HOLD = s.on F.DMA_STAT_HOLD := by
    have hfar : F.DMA_STAT_HOLD.reg ≠ (F.CHDESC_ADDR n).reg := by
      simp only [F.DMA_STAT_HOLD, F.CHDESC_ADDR, R.DMA_STAT, R.CHDESC]
      omega
    simp only [State.on, get_of_rd (rd_put_ne hs hfar a)]
  have hcause : (s.put (F.CHDESC_ADDR n) a).get (F.CHSTAT_CAUSE n) = s.get (F.CHSTAT_CAUSE n) := by
    refine get_of_rd (rd_put_ne hs ?_ a)
    simp only [F.CHSTAT_CAUSE, F.CHDESC_ADDR, R.CHSTAT, R.CHDESC]
    omega
  obtain ⟨w, hw⟩ : ∃ w, w = s.put (F.CHDESC_ADDR n) a := ⟨_, rfl⟩
  have hgo : s.chGo n a = if w.on F.DMA_STAT_HOLD then w.chEnter n chHELD
      else (w.chEnter n chRUN).onChan n fun k => { k with fetching := true } := by rw [hw]; rfl
  have hwdma : w.dma = s.dma := by rw [hw]; rfl
  rw [← hw] at hput haddr hhold hcause
  have hdesc : ∀ st, (w.chEnter n st).get (F.CHDESC_ADDR n) = a := by
    intro st
    refine (get_of_rd (rd_chEnter_ne hput ?_ ?_)).trans haddr
    · simp only [F.CHDESC_ADDR, R.CHSTAT, R.CHDESC]
      omega
    · simp only [F.CHDESC_ADDR, R.CHDESC, R.DMA_STAT]
      omega
  obtain ⟨hheld, hheldBusy⟩ := chEnter_shows hput (st := chHELD) hn (.inr rfl)
  obtain ⟨hrun, hrunBusy⟩ := chEnter_shows hput (st := chRUN) hn (.inl rfl)
  rw [hgo, hhold]
  cases hold : s.on F.DMA_STAT_HOLD with
  | true =>
    rw [if_pos rfl]
    refine ⟨hdesc _, hheldBusy, fun _ => ⟨hheld, ?_⟩, fun h => by cases h⟩
    simp only [State.chan, dma_chEnter, hwdma]
  | false =>
    have hfetch : (((w.chEnter n chRUN).onChan n fun k => { k with fetching := true }).chan n) =
        { (w.chEnter n chRUN).chan n with fetching := true } :=
      tabGet_tabPut_same _ _ ((dma_chEnter n chRUN).trans hwdma ▸ hd)
    rw [if_neg Bool.false_ne_true]
    refine ⟨hdesc _, hrunBusy, fun h => by (cases h), fun _ => ⟨hrun, ?_, (cause_chEnter hput chRUN).trans hcause⟩⟩
    rw [hfetch]

theorem chStart_clauses (hs : s.regsWf = true) (hd : s.dmaWf = true) (hn : n < 16) {a : Nat} (ha : a < 2 ^ 32) :
    (s.chStart n a).get (F.CHDESC_ADDR n) = a ∧ (s.chStart n a).bit F.DMA_STAT_BUSY n = true ∧
    (s.on F.DMA_STAT_HOLD = true → chState (s.chStart n a) n = chHELD ∧ ((s.chStart n a).chan n).fetching = (s.chan n).fetching) ∧
    (s.on F.DMA_STAT_HOLD = false → chState (s.chStart n a) n = chRUN ∧ ((s.chStart n a).chan n).fetching = true ∧
      (s.chStart n a).get (F.CHSTAT_CAUSE n) = 0) := by
  have hwf := regsWf_startCleared hs n
  have hdma : (startCleared n s).dmaWf = true := by
    have hput : ∀ b : Bool, (if b = true then s else (s.put (F.CHSTAT_CAUSE n) 0).put (F.CHSTAT_DETAIL n) 0).dmaWf = true :=
      fun b => ite_keeps State.dmaWf hd hd
    exact wf_tabPut _ _ (hput _)
  have hhold : (startCleared n s).on F.DMA_STAT_HOLD = s.on F.DMA_STAT_HOLD := by
    have hfar : F.DMA_STAT_HOLD.reg ≠ R.CHSTAT n := by
      simp only [F.DMA_STAT_HOLD, R.DMA_STAT, R.CHSTAT]
      omega
    simp only [State.on, get_of_rd (rd_startCleared_ne hs hfar)]
  obtain ⟨haddr, hbusy, hheld, hrun⟩ := chGo_clauses hwf hdma hn ha
  rw [chStart_eq]
  refine ⟨haddr, hbusy, fun h => ?_, fun h => ?_⟩
  · obtain ⟨hst, hchan⟩ := hheld (hhold.trans h)
    exact ⟨hst, by rw [hchan, chan_startCleared hd]⟩
  · obtain ⟨hst, hfetch, hcause⟩ := hrun (hhold.trans h)
    exact ⟨hst, hfetch, hcause.trans (cause_startCleared hs h)⟩

/-! ### Descriptors -/

theorem descriptorFetched_of_running {bs : List Byte} (hrun : chState s c.toNat = chRUN) (hfetch : (s.chan c.toNat).fetching = true)
    (hoff : s.mode ≠ mOFF) (hdormant : s.mode ≠ mDORMANT)
    (hbs : bs = if (s.chan c.toNat).uqi then (s.chan c.toNat).desc else s.dmaBytes (s.get (F.CHDESC_ADDR c.toNat)) 64) :
    descriptorFetched c ue s = if ¬ (s.chan c.toNat).uqi = true ∧ ¬ dscAddrOk (s.get (F.CHDESC_ADDR c.toNat)) = true then
        (s.chUnread c.toNat 3).chSettle
      else if (dscOf bs).xts = true ∧ ¬ s.on F.CRY_STAT_KATDONE = true then s else (s.chCurrent c.toNat bs ue).chSettle := by
  have hgo : ¬ (chState s c.toNat ≠ chRUN ∨ ¬ (s.chan c.toNat).fetching = true ∨ s.mode = mOFF ∨ s.mode = mDORMANT) := by
    simp [hrun, hfetch, hoff, hdormant]
  rw [hbs]
  exact if_neg hgo

theorem descriptorFetched_clauses (hrun : chState s c.toNat = chRUN) (hfetch : (s.chan c.toNat).fetching = true)
    (huqi : (s.chan c.toNat).uqi = false) (hoff : s.mode ≠ mOFF) (hdormant : s.mode ≠ mDORMANT) :
    (dscAddrOk (s.get (F.CHDESC_ADDR c.toNat)) = false → descriptorFetched c ue s = (s.chUnread c.toNat 3).chSettle) ∧
    (∀ bs : List Byte, bs = s.dmaBytes (s.get (F.CHDESC_ADDR c.toNat)) 64 → dscAddrOk (s.get (F.CHDESC_ADDR c.toNat)) = true →
      ((dscOf bs).xts = true → s.on F.CRY_STAT_KATDONE = true) → descriptorFetched c ue s = (s.chCurrent c.toNat bs ue).chSettle) ∧
    (dscAddrOk (s.get (F.CHDESC_ADDR c.toNat)) = true → (dscOf (s.dmaBytes (s.get (F.CHDESC_ADDR c.toNat)) 64)).xts = true →
      s.on F.CRY_STAT_KATDONE = false → descriptorFetched c ue s = s) := by
  have hread : s.dmaBytes (s.get (F.CHDESC_ADDR c.toNat)) 64 =
      if (s.chan c.toNat).uqi then (s.chan c.toNat).desc else s.dmaBytes (s.get (F.CHDESC_ADDR c.toNat)) 64 := by simp [huqi]
  rw [descriptorFetched_of_running hrun hfetch hoff hdormant hread]
  refine ⟨fun haddr => if_pos (by simp [huqi, haddr]), fun bs hbs haddr hkat => ?_, fun haddr hxts hkat => ?_⟩
  · rw [if_neg (by simp [haddr]), ← hbs]
    exact if_neg fun h => h.2 (hkat h.1)
  · rw [if_neg (by simp [haddr])]
    exact if_pos ⟨hxts, by simp [hkat]⟩

theorem descriptorFetched_uqi (hrun : chState s c.toNat = chRUN) (hfetch : (s.chan c.toNat).fetching = true)
    (huqi : (s.chan c.toNat).uqi = true) (hoff : s.mode ≠ mOFF) (hdormant : s.mode ≠ mDORMANT)
    (hkat : (dscOf (s.chan c.toNat).desc).xts = true → s.on F.CRY_STAT_KATDONE = true) :
    descriptorFetched c ue s = (s.chCurrent c.toNat (s.chan c.toNat).desc ue).chSettle := by
  have hread : (s.chan c.toNat).desc =
      if (s.chan c.toNat).uqi then (s.chan c.toNat).desc else s.dmaBytes (s.get (F.CHDESC_ADDR c.toNat)) 64 := by simp [huqi]
  rw [descriptorFetched_of_running hrun hfetch hoff hdormant hread, if_neg (by simp [huqi])]
  exact if_neg fun h => h.2 (hkat h.1)

theorem descriptorEnd_of_done (hdone : chDone s c.toNat = true) (hend : (s.dsc c.toNat).dst ≠ eHOST ∨ s.mode ≠ mTHAW) :
    descriptorEnd c s = (s.chEnd c.toNat).chSettle :=
  if_pos ⟨hdone, fun h => hend.elim (fun h' => h' h.1) fun h' => h' h.2⟩

theorem channelAbort_clauses (hown : chOwner s c.toNat = ownerCode m) :
    (chState s c.toNat = chRUN → channelAbort m c s = (s.chStop c.toNat 19).chSettle) ∧
    (chState s c.toNat = chHELD → channelAbort m c s = s.chEnter c.toNat chIDLE) ∧
    (chState s c.toNat = chIDLE ∨ chState s c.toNat = chHALTED → channelAbort m c s = s) := by
  refine ⟨fun h => ?_, fun h => ?_, fun h => ?_⟩ <;> simp only [channelAbort, if_neg (not_not_intro hown)]
  · exact if_pos h
  · rw [if_neg (by rw [h]; decide)]
    exact if_pos h
  · rw [if_neg (not_busy h).1]
    exact if_neg (not_busy h).2

theorem hostReadCompletion_of_live {e : HostEnd} {bs : List Byte} (hlive : (s.chan c.toNat).live = true)
    (hn : n < (s.chan c.toNat).reqs.length) (hup : portUp s (s.dsc c.toNat).port = true) :
    (e = .ok → hostReadCompletion c n e bs s = (s.hostArrive c.toNat n bs).chSettle) ∧
    (∀ cause, e ≠ .ok → hostCause e = cause → hostReadCompletion c n e bs s = (s.chHalt c.toNat cause 0).chSettle) := by
  have hgo : ¬ (¬ (s.chan c.toNat).live = true ∨ (s.chan c.toNat).reqs.length ≤ n ∨ ¬ portUp s (s.dsc c.toNat).port = true) := by
    rintro (h | h | h)
    · exact h hlive
    · exact absurd hn (Nat.not_lt.mpr h)
    · exact h hup
  refine ⟨fun h => ?_, fun cause h hcause => ?_⟩ <;> simp only [hostReadCompletion, if_neg hgo]
  · exact if_pos h
  · rw [hcause]
    exact if_neg h

end Channels

/-- Settles O42: each command by the channel's state and owner. -/
theorem dataMoverCommandsComplete : Obligations.DataMoverCommandsComplete := by
  unfold Obligations.DataMoverCommandsComplete
  refine ⟨fun m c v s hm hown => ?_, fun m c v s hs hd hm hown hidle => ?_,
    fun c ue s hrun hfetch huqi hoff hdormant => ?_, fun c ue s hrun hfetch huqi hoff hdormant hkat => ?_,
    fun c s hdone hend => congrArg Host.Outcome.next (descriptorEnd_of_done hdone hend), fun m c v s hm hown => ?_,
    fun m c s hm hown => ?_, fun c v s hidle hopen => ?_, fun s => ?_, fun v s hopen => ?_, fun m c v s hsec hm => ?_,
    fun ok s hkat => congrArg Host.Outcome.next (if_neg (by simp [hkat])), fun c n bs s hlive hn hup => ?_⟩
  · rw [exec_chstart hm]
    obtain ⟨hstart, hignored⟩ := chstart_clauses (v := v) hown
    exact ⟨fun h => congrArg Host.Outcome.next (hstart h), fun h => congrArg Host.Outcome.next (hignored h)⟩
  · rw [exec_chstart hm, (chstart_clauses hown).1 hidle]
    exact ⟨_, rfl, chStart_clauses hs hd c.isLt v.isLt⟩
  · obtain ⟨hbad, hgood, hwait⟩ := descriptorFetched_clauses (ue := ue) hrun hfetch huqi hoff hdormant
    exact ⟨fun h => congrArg Host.Outcome.next (hbad h), fun bs h h' h'' => congrArg Host.Outcome.next (hgood bs h h' h''),
      fun h h' h'' => congrArg Host.Outcome.next (hwait h h' h'')⟩
  · exact congrArg Host.Outcome.next (descriptorFetched_uqi hrun hfetch huqi hoff hdormant hkat)
  · rw [exec_chstart hm, exec_channelAbort hm]
    exact ⟨congrArg Host.Outcome.next (if_pos hown), congrArg Host.Outcome.next (if_pos hown)⟩
  · rw [exec_channelAbort hm]
    obtain ⟨hrun, hheld, hidle⟩ := channelAbort_clauses hown
    exact ⟨fun h => congrArg Host.Outcome.next (hrun h), fun h => congrArg Host.Outcome.next (hheld h),
      fun h => congrArg Host.Outcome.next (hidle h)⟩
  · refine congrArg Host.Outcome.next ((byCore_of_not_gated gated_sec).trans (if_neg ?_))
    simp [(not_busy hidle).1, (not_busy hidle).2, hopen]
  · exact ⟨fun h => congrArg Host.Outcome.next ((byCore_of_not_gated gated_sec).trans ((if_pos rfl).trans (if_pos h))),
      fun h => congrArg Host.Outcome.next ((byCore_of_not_gated gated_sec).trans ((if_pos rfl).trans (if_neg (Nat.not_lt.mpr h))))⟩
  · exact congrArg Host.Outcome.next ((byCore_of_not_gated gated_sec).trans ((if_pos rfl).trans (if_neg (by simp [hopen]))))
  · exact ⟨congrArg Host.Outcome.next ((byCore_of_not_gated hm).trans (if_pos (.inl hsec))),
      congrArg Host.Outcome.next ((byCore_of_not_gated hm).trans (if_neg hsec)),
      congrArg Host.Outcome.next ((byCore_of_not_gated hm).trans (if_neg hsec))⟩
  · have hbad : ∀ (e : HostEnd) (bs : List Byte) (cause : Nat), e ≠ .ok → hostCause e = cause →
        hostReadCompletion c n e bs s = (s.chHalt c.toNat cause 0).chSettle :=
      fun e bs cause he hcause => (hostReadCompletion_of_live hlive hn hup).2 cause he hcause
    exact ⟨congrArg Host.Outcome.next ((hostReadCompletion_of_live hlive hn hup).1 rfl),
      congrArg Host.Outcome.next (hbad .ur bs 11 (by decide) rfl), congrArg Host.Outcome.next (hbad .ca bs 12 (by decide) rfl),
      congrArg Host.Outcome.next (hbad .poison bs 14 (by decide) rfl), congrArg Host.Outcome.next (hbad .timeout [] 13 (by decide) rfl)⟩

end Sys2Proof.Proofs

/-! PROOFS. The two PCIe functions (O45): a port comes up once every condition holds and goes down with the cause that takes
one away, a configuration request acts over a link that is up, and a BAR0 write acts where the function accepts it. -/

namespace Sys2Proof.Proofs

open Sys2Proof Sys2Proof.Machine

/-! ### A port settles by its conditions -/

theorem portSettle_comesUp {u : State} {q cause : Nat} (h : portUp u q = true) (hd : (u.port q).up = false) :
    u.portSettle q cause = ((u.onPort q (fun p => { p with up := true })).msixPending q).uqiRun :=
  if_pos ⟨h, by simp [hd]⟩

theorem portSettle_goesDown {u : State} {q cause : Nat} (h : portUp u q = false) (hp : (u.port q).up = true) :
    u.portSettle q cause = u.portLost q cause := by
  rw [State.portSettle, if_neg (by simp [h]), if_pos ⟨by simp [h], hp⟩]

theorem portSettle_same {u : State} {q cause : Nat} (h : portUp u q = (u.port q).up) : u.portSettle q cause = u := by
  rw [State.portSettle, h, if_neg (fun hc => hc.2 hc.1), if_neg (fun hc => hc.1 hc.2)]

theorem linkTrained_settles {q : BitVec 1} {s u : State} (hp : hasPort s q.toNat = true) (hr : s.mode ≠ mRETREAT)
    (ho : s.mode ≠ mOFF) (hu : u = s.onPort q.toNat (fun p => { p with dl := true, perst := true })) :
    linkTrained q s = u.portSettle q.toNat 0 := by
  subst hu
  exact if_pos (by simp [hp, hr, ho])

theorem exec_portUp {q : BitVec 1} {s u : State} (h : linkTrained q s = u) : exec (.portUp q) s = .next u :=
  congrArg Host.Outcome.next h

theorem portUp_clauses {q : BitVec 1} {s u : State} (hp : hasPort s q.toNat = true) (hr : s.mode ≠ mRETREAT)
    (ho : s.mode ≠ mOFF) (hu : u = s.onPort q.toNat (fun p => { p with dl := true, perst := true })) :
    (portUp u q.toNat = true → (u.port q.toNat).up = false → exec (.portUp q) s =
      .next (((u.onPort q.toNat (fun p => { p with up := true })).msixPending q.toNat).uqiRun)) ∧
    (portUp u q.toNat = (u.port q.toNat).up → exec (.portUp q) s = .next u) :=
  ⟨fun h hd => exec_portUp ((linkTrained_settles hp hr ho hu).trans (portSettle_comesUp h hd)),
   fun h => exec_portUp ((linkTrained_settles hp hr ho hu).trans (portSettle_same h))⟩

/-- The state in which the port loses a condition, by the cause of Table 15.11. -/
theorem portDown_settles {q : BitVec 1} {s : State} (hp : hasPort s q.toNat = true) (hr : s.mode ≠ mRETREAT)
    (ho : s.mode ≠ mOFF) :
    portDown q 1 s = (s.onPort q.toNat (fun p => { p with dl := false })).portSettle q.toNat 1 ∧
    portDown q 2 s = ((s.onPort q.toNat (fun p => { p.functionReset with dl := false, perst := false })).hmwReset
      q.toNat).portSettle q.toNat 2 ∧
    portDown q 3 s = (s.onPort q.toNat Port.functionReset).portSettle q.toNat 3 ∧
    portDown q 4 s = (s.onPort q.toNat (fun p => { p with bme := false })).portSettle q.toNat 4 ∧
    portDown q 5 s = (s.onPort q.toNat (fun p => { p with d3 := true })).portSettle q.toNat 5 := by
  have hc : ¬ (¬ hasPort s q.toNat = true ∨ s.mode = mRETREAT ∨ s.mode = mOFF) := by simp [hp, hr, ho]
  exact ⟨if_neg hc, if_neg hc, if_neg hc, if_neg hc, if_neg hc⟩

theorem exec_portDown_lost {q : BitVec 1} {cause : BitVec 3} {c : Nat} {s u v : State}
    (h : portDown q cause s = v.portSettle q.toNat c) (hu : u = v) (hd : portUp u q.toNat = false)
    (hup : (u.port q.toNat).up = true) : exec (.portDown q cause) s = .next (u.portLost q.toNat c) := by
  subst hu
  exact congrArg Host.Outcome.next (h.trans (portSettle_goesDown hd hup))

/-! ### Configuration requests -/

theorem exec_configurationRequest {q : BitVec 1} {r : CfgReq} {s t : State} (h : configurationRequest q r s = t) :
    exec (.configurationRequest q r) s = .next t := congrArg Host.Outcome.next h

theorem command_clauses {q : BitVec 1} {a : BitVec 64} {mem master : Bool} {mps mrrs : BitVec 3} {s : State}
    (hl : linkOn s q.toNat = true) :
    configurationRequest q .readId s = s.emit (.bar0Data q.toNat [0x76401E7C]) ∧
    configurationRequest q (.bar0 a) s = (s.onPort q.toNat fun p => { p with bar := a &&& ~~~(0x3FFF : BitVec 64) }) ∧
    configurationRequest q (.command mem master) s =
      (s.onPort q.toNat fun p => { p with mse := mem, bme := master }).portSettle q.toNat 4 ∧
    configurationRequest q (.devCtl mps mrrs) s = (s.onPort q.toNat fun p =>
      { p with mps := if mps.toNat > 2 then 2 else mps, mrrs := if mrrs.toNat > 5 then 5 else mrrs }) ∧
    configurationRequest q .flr s = (s.onPort q.toNat Port.functionReset).portSettle q.toNat 3 := by
  have hc := not_not_intro hl
  exact ⟨if_neg hc, if_neg hc, if_neg hc, if_neg hc, if_neg hc⟩

theorem power_clauses {q : BitVec 1} {en mask : Bool} {s : State} (hl : linkOn s q.toNat = true) :
    configurationRequest q (.power true) s = (s.onPort q.toNat fun p => { p with d3 := true }).portSettle q.toNat 5 ∧
    ((s.port q.toNat).d3 = true → configurationRequest q (.power false) s =
      (s.onPort q.toNat fun p => { p.functionReset with d3 := false }).portSettle q.toNat 5) ∧
    ((s.port q.toNat).d3 = false → configurationRequest q (.power false) s = s) ∧
    configurationRequest q (.msixCtl en mask) s =
      (s.onPort q.toNat fun p => { p with msixEn := en, fmask := mask }).msixPending q.toNat := by
  have hc := not_not_intro hl
  exact ⟨if_neg hc, fun h => (if_neg hc).trans (if_pos h), fun h => (if_neg hc).trans (if_neg (by simp [h])), if_neg hc⟩

/-- The class code's low byte is a free value (log entry 82). -/
theorem bitsOf_classCode (v : Nat) : bitsOf (BitVec.ofNat 32 (0x01800000 + v % 256)) 31 8 = 0x018000 := by
  simp only [bitsOf, BitVec.toNat_ofNat]
  omega

theorem read_clauses {q : BitVec 1} {s : State} (hl : linkOn s q.toNat = true) :
    (∃ w : Word, bitsOf w 31 8 = 0x018000 ∧
      configurationRequest q .readClass s = s.draw.2.emit (.bar0Data q.toNat [w])) ∧
    configurationRequest q .readBar s = s.emit (.bar0Data q.toNat
      [BitVec.ofNat 32 ((s.port q.toNat).bar.toNat + 4), BitVec.ofNat 32 ((s.port q.toNat).bar.toNat / 2 ^ 32)]) ∧
    configurationRequest q .readBars s = s.emit (.bar0Data q.toNat [0, 0, 0, 0, 0]) ∧
    configurationRequest q .readPin s = s.emit (.bar0Data q.toNat [0]) ∧
    (∀ n : Nat, n = leNat (s.infoBytes 16 4 8) → configurationRequest q .readSerial s =
      s.emit (.bar0Data q.toNat [BitVec.ofNat 32 n, BitVec.ofNat 32 (n / 2 ^ 32)])) := by
  have hc := not_not_intro hl
  exact ⟨⟨_, bitsOf_classCode s.draw.1.toNat, if_neg hc⟩, if_neg hc, if_neg hc, if_neg hc,
    fun n hn => hn ▸ if_neg hc⟩

theorem configurationRequest_of_linkOff {q : BitVec 1} {r : CfgReq} {s : State} (hl : linkOn s q.toNat = false) :
    configurationRequest q r s = s := if_pos (by simp [hl])

/-! ### Writes through BAR0 -/

theorem hostWrite_of_on {q : BitVec 1} {s : State} (f : State → State) (h : bar0On s q.toNat = true) :
    hostWrite q f s = f s := if_pos h

theorem hostWrite_of_off {q : BitVec 1} {s : State} (f : State → State) (h : bar0On s q.toNat = false) :
    hostWrite q f s = s := if_neg (by simp [h])

/-- Where the function accepts the write, what it does is all that the command does. -/
theorem next_hostWrite {q : BitVec 1} {f : State → State} {s t : State} (h : bar0On s q.toNat = true) (hf : f s = t) :
    (.next (hostWrite q f s) : Host.Outcome State Fault Refusal) = .next t :=
  congrArg Host.Outcome.next ((hostWrite_of_on f h).trans hf)

theorem next_hostWrite_of_off {q : BitVec 1} (f : State → State) {s : State} (h : bar0On s q.toNat = false) :
    (.next (hostWrite q f s) : Host.Outcome State Fault Refusal) = .next s :=
  congrArg Host.Outcome.next (hostWrite_of_off f h)

/-- The host's window control with LOCK (R360). -/
def windowsLocked (s : State) (en : Bool) : State :=
  ((s.putB F.HMWCTL_EN en).raiseBit F.HMWCTL_LOCK).onUqi fun u => { u with hmwReset := 0 }

theorem hmwctl_lock {s : State} {en : Bool} (h : s.on F.HMWCTL_LOCK = false) : s.hmwctl en true = windowsLocked s en :=
  if_neg (by simp [h])

theorem on_windowsLocked {s : State} {en : Bool} (hr : s.regsWf = true) :
    (windowsLocked s en).on F.HMWCTL_LOCK = true ∧ (windowsLocked s en).on F.HMWCTL_EN = en := by
  have hw : (s.putB F.HMWCTL_EN en).regsWf = true := regsWf_put _ _ hr
  have hlock : ((s.putB F.HMWCTL_EN en).raiseBit F.HMWCTL_LOCK).get F.HMWCTL_LOCK = 1 := get_put_same _ hw (by decide)
  have hen : ((s.putB F.HMWCTL_EN en).raiseBit F.HMWCTL_LOCK).get F.HMWCTL_EN = (s.putB F.HMWCTL_EN en).get F.HMWCTL_EN :=
    get_put_apart _ hw (by decide) (by decide) (by decide)
  have hv : (s.putB F.HMWCTL_EN en).get F.HMWCTL_EN = if en then 1 else 0 :=
    (get_put_same _ hr (by decide)).trans (by cases en <;> rfl)
  have hval := hen.trans hv
  constructor
  · exact (congrArg (· != 0) hlock).trans rfl
  · exact (congrArg (· != 0) hval).trans (by cases en <;> rfl)

theorem hmwctl_locked {s : State} {en : Bool} (h : s.on F.HMWCTL_LOCK = true) : s.hmwctl en true = s := if_pos h

theorem hostWindowLock_frozen {q : BitVec 1} {en : Bool} {s : State} (h : s.on F.HMWCTL_LOCK = true) :
    exec (.hostWindowLock q en) s = .next s := by
  cases hb : bar0On s q.toNat
  · exact next_hostWrite_of_off _ hb
  · exact next_hostWrite hb (hmwctl_locked h)

theorem dbRequest_sends {s : State} {p : Nat} (hf : tabGet s.uqi.fetch 0 p = 0) (he : s.on (F.DBP_0_EN p) = true)
    (hh : highRing s p ≠ 0) (hp : portUp s (curPort s p) = true)
    (hc : hostCheck s (s.get (F.DBP_0_ADDR_LO p) * 4096 + s.get (F.DBP_4_ADDR_HI p) * 4294967296)
      (16 * highRing s p) = none) :
    s.dbRequest p = { s with uqi := { s.uqi with fetch := tabPut s.uqi.fetch 0 p (highRing s p) } }.sendReads
      (curPort s p) (s.get (F.DBP_0_ADDR_LO p) * 4096 + s.get (F.DBP_4_ADDR_HI p) * 4294967296) (16 * highRing s p) := by
  rw [State.dbRequest, if_neg (not_not_intro hf), if_neg (by simp [he, hh, hp])]
  exact if_neg (by simp [hc])

/-! ### O45 -/

/-- Settles O45, clause by clause: each command is what its own function does over a link, or a BAR0, that is on. -/
theorem hostPortCommandsComplete : Obligations.HostPortCommandsComplete := by
  unfold Obligations.HostPortCommandsComplete
  refine ⟨fun q s u => portUp_clauses, fun q s u hp hr ho => ?_, fun q a mem master mps mrrs s hl => ?_,
    fun q en mask s hl => ?_, fun q s hl => ?_,
    fun q r s hl => exec_configurationRequest (configurationRequest_of_linkOff hl),
    fun q en s hb hl => ⟨_, rfl, next_hostWrite hb (hmwctl_lock hl), on_windowsLocked⟩, fun q en s => hostWindowLock_frozen,
    fun q cq r w p v x a en s hb => ?_, fun q p s hb hf he hh hp hc => next_hostWrite hb (dbRequest_sends hf he hh hp hc),
    fun q v s hb => next_hostWrite hb rfl, fun q p v s hb => next_hostWrite hb rfl⟩
  · obtain ⟨h1, h2, h3, h4, h5⟩ := portDown_settles hp hr ho
    exact ⟨exec_portDown_lost h1, exec_portDown_lost h2, exec_portDown_lost h3, exec_portDown_lost h4,
      exec_portDown_lost h5⟩
  · obtain ⟨hid, hbar, hcommand, hdev, hflr⟩ := command_clauses (a := a) (mem := mem) (master := master) (mps := mps)
      (mrrs := mrrs) hl
    exact ⟨exec_configurationRequest hid, exec_configurationRequest hbar, exec_configurationRequest hcommand,
      exec_configurationRequest hdev, exec_configurationRequest hflr⟩
  · obtain ⟨hd3, hwake, hsame, hmsix⟩ := power_clauses (en := en) (mask := mask) hl
    exact ⟨exec_configurationRequest hd3, fun h => exec_configurationRequest (hwake h),
      fun h => exec_configurationRequest (hsame h), exec_configurationRequest hmsix⟩
  · obtain ⟨⟨w, hw, hclass⟩, hbar, hbars, hpin, hserial⟩ := read_clauses hl
    exact ⟨⟨w, hw, exec_configurationRequest hclass⟩, exec_configurationRequest hbar, exec_configurationRequest hbars,
      exec_configurationRequest hpin, fun n hn => exec_configurationRequest (hserial n hn)⟩
  · exact ⟨next_hostWrite_of_off _ hb, next_hostWrite_of_off _ hb, next_hostWrite_of_off _ hb, next_hostWrite_of_off _ hb,
      next_hostWrite_of_off _ hb, next_hostWrite_of_off _ hb, next_hostWrite_of_off _ hb, next_hostWrite_of_off _ hb,
      next_hostWrite_of_off _ hb, next_hostWrite_of_off _ hb, next_hostWrite_of_off _ hb⟩

end Sys2Proof.Proofs

/-! PROOFS. The rings' setup, control, resume and reset (O46): each write of BAR0 is the branch of its register's own
function that the ring's state picks. -/

namespace Sys2Proof.Proofs

open Sys2Proof Sys2Proof.Machine

section Rings

variable {q : BitVec 1} {r : BitVec 6} {s u : State}

/-! ### Setup words -/

theorem ringSetupWrite_clauses {w : BitVec 2} {v : Word} (hb : bar0On s q.toNat = true) (hw : w ≠ 3) :
    exec (.ringSetupWrite q false r w v) s = .next (s.sqSetup r.toNat w.toNat v) ∧
    exec (.ringSetupWrite q true r w v) s = .next (s.cqSetup r.toNat w.toNat v) :=
  ⟨next_hostWrite hb (if_neg hw), next_hostWrite hb (if_neg hw)⟩

theorem sqSetup_high_clauses {v : Word} :
    (sqOn s r.toNat = false → s.sqSetup r.toNat 1 v = sqErr (s.wr (R.SQ_0 r.toNat + 4) v) r.toNat 0) ∧
    (sqOn s r.toNat = true → s.sqSetup r.toNat 1 v = sqErr s r.toNat 6) :=
  ⟨fun h => if_neg (by simp [h]), fun h => if_pos h⟩

/-! ### Enabling and disabling -/

theorem sqControl_one (n : Nat) : s.sqControl n 1 = if sqOn s n then s else s.sqEnable n := by
  rw [State.sqControl, if_neg (by decide), if_neg (by decide), if_pos (by decide)]

theorem sqControl_zero (n : Nat) : s.sqControl n 0 = s.sqDisable n := by
  rw [State.sqControl, if_neg (by decide), if_neg (by decide), if_neg (by decide)]

theorem sqEnable_clauses (n : Nat) :
    (sqRefuse s n = 0 → s.sqEnable n =
      (s.setSq n { st := rACTIVE, fptr := 0, tail := 0, err := 0 }).raiseBit (F.SQ_C_EN n)) ∧
    (sqRefuse s n ≠ 0 → s.sqEnable n = sqErr s n (sqRefuse s n)) := by
  unfold State.sqEnable
  generalize sqRefuse s n = e
  cases e with
  | zero => exact ⟨fun _ => rfl, fun h => absurd rfl h⟩
  | succ e => exact ⟨fun h => absurd h (Nat.succ_ne_zero e), fun _ => rfl⟩

theorem cqEnable_clauses (n : Nat) :
    (cqRefuse s n = 0 → s.cqEnable n =
      (s.setCq n { st := rACTIVE, phase := true, wptr := 0, head := 0, err := 0 }).raiseBit (F.CQ_C_EN n)) ∧
    (cqRefuse s n ≠ 0 → s.cqEnable n = cqErr s n (cqRefuse s n)) := by
  unfold State.cqEnable
  generalize cqRefuse s n = e
  cases e with
  | zero => exact ⟨fun _ => rfl, fun h => absurd rfl h⟩
  | succ e => exact ⟨fun h => absurd h (Nat.succ_ne_zero e), fun _ => rfl⟩

theorem sqEnable_off_clauses (hb : bar0On s q.toNat = true) (hoff : sqOn s r.toNat = false) :
    (sqRefuse s r.toNat = 0 → exec (.sqEnable q r) s =
      .next ((s.setSq r.toNat { st := rACTIVE, fptr := 0, tail := 0, err := 0 }).raiseBit (F.SQ_C_EN r.toNat))) ∧
    (sqRefuse s r.toNat ≠ 0 → exec (.sqEnable q r) s = .next (sqErr s r.toNat (sqRefuse s r.toNat))) := by
  have hc : s.sqControl r.toNat 1 = s.sqEnable r.toNat := (sqControl_one _).trans (if_neg (by simp [hoff]))
  obtain ⟨hok, herr⟩ := sqEnable_clauses (s := s) r.toNat
  exact ⟨fun h => next_hostWrite hb (hc.trans (hok h)), fun h => next_hostWrite hb (hc.trans (herr h))⟩

/-- The fields of a CQ_C word with EN = 1 and an aggregation time. -/
theorem cqEnableWord_fields (a : BitVec 8) :
    bitsOf (BitVec.ofNat 32 (1 + 256 * a.toNat)) 4 4 = 0 ∧
    bitsOf (BitVec.ofNat 32 (1 + 256 * a.toNat)) 15 8 = a.toNat ∧
    bitsOf (BitVec.ofNat 32 (1 + 256 * a.toNat)) 0 0 = 1 := by
  have ha := a.isLt
  simp only [bitsOf, BitVec.toNat_ofNat]
  omega

/-- Clearing a completion ring's ERR leaves its state. -/
theorem cqOn_cqErr (hwf : Sparse.wf (fun _ => ({} : CqRing)) s.uqi.cq = true) (n e : Nat) :
    cqOn (cqErr s n e) n = cqOn s n := by
  have h : (cqErr s n e).cq n = { s.cq n with err := e } := tabGet_tabPut_same n _ hwf
  rw [cqOn, h, cqOn]

theorem cqControl_off {n : Nat} (a : BitVec 8) (hoff : cqOn s n = false)
    (hwf : Sparse.wf (fun _ => ({} : CqRing)) s.uqi.cq = true) (hu : u = cqErr (s.put (F.CQ_C_AGGTIME n) a.toNat) n 0) :
    s.cqControl n (BitVec.ofNat 32 (1 + 256 * a.toNat)) = u.cqEnable n := by
  obtain ⟨hres, hagg, hen⟩ := cqEnableWord_fields a
  have huOff : cqOn u n = false := by
    subst hu
    exact (cqOn_cqErr (s := s.put (F.CQ_C_AGGTIME n) a.toNat) hwf n 0).trans hoff
  rw [State.cqControl, hres, hagg, hen, if_neg (by simp)]
  simp only [hoff, Bool.false_eq_true, if_false, ← hu, huOff, if_true]

theorem cqEnable_off_clauses {a : BitVec 8} (hb : bar0On s q.toNat = true) (hoff : cqOn s r.toNat = false)
    (hwf : Sparse.wf (fun _ => ({} : CqRing)) s.uqi.cq = true)
    (hu : u = cqErr (s.put (F.CQ_C_AGGTIME r.toNat) a.toNat) r.toNat 0) :
    (cqRefuse u r.toNat = 0 → exec (.cqEnable q r a) s =
      .next ((u.setCq r.toNat { st := rACTIVE, phase := true, wptr := 0, head := 0, err := 0 }).raiseBit
        (F.CQ_C_EN r.toNat))) ∧
    (cqRefuse u r.toNat ≠ 0 → exec (.cqEnable q r a) s = .next (cqErr u r.toNat (cqRefuse u r.toNat))) := by
  have hc := cqControl_off a hoff hwf hu
  obtain ⟨hok, herr⟩ := cqEnable_clauses (s := u) r.toNat
  exact ⟨fun h => next_hostWrite hb (hc.trans (hok h)), fun h => next_hostWrite hb (hc.trans (herr h))⟩

theorem control_same_clauses (hb : bar0On s q.toNat = true) :
    (sqOn s r.toNat = true → exec (.sqEnable q r) s = .next s) ∧
    ((s.sq r.toNat).st ≠ rACTIVE → exec (.sqDisable q r) s = .next s) ∧
    (cqOn s r.toNat = false → exec (.cqDisable q r) s = .next s) :=
  ⟨fun h => next_hostWrite hb ((sqControl_one _).trans (if_pos h)),
   fun h => next_hostWrite hb ((sqControl_zero _).trans (if_neg h)),
   fun h => next_hostWrite hb (if_pos (by simp [h]))⟩

theorem disable_clauses (hb : bar0On s q.toNat = true) :
    ((s.sq r.toNat).st = rACTIVE → exec (.sqDisable q r) s =
      .next ((s.setSq r.toNat { s.sq r.toNat with st := rDRAINING, burst := 0, err := 0 }).clr (F.SQ_C_EN r.toNat))) ∧
    (cqOn s r.toNat = true → (List.range 64).any (fun k => sqOn s k && s.get (F.SQ_8_CQID k) == r.toNat) = false →
      exec (.cqDisable q r) s =
        .next ((s.setCq r.toNat { s.cq r.toNat with st := rDISABLED, err := 0 }).clr (F.CQ_C_EN r.toNat))) ∧
    (cqOn s r.toNat = true → (List.range 64).any (fun k => sqOn s k && s.get (F.SQ_8_CQID k) == r.toNat) = true →
      exec (.cqDisable q r) s = .next (cqErr s r.toNat 7)) :=
  ⟨fun h => next_hostWrite hb ((sqControl_zero _).trans (if_pos h)),
   fun h hn => next_hostWrite hb ((if_neg (not_not_intro h)).trans (if_neg (by simp only [hn]; decide))),
   fun h hn => next_hostWrite hb ((if_neg (not_not_intro h)).trans (if_pos hn))⟩

/-! ### Draining, resuming, resetting -/

theorem sqDrained_ends (hd : (s.sq r.toNat).st = rDRAINING) (hn : (cmds s).any (fun c => c.2.ring == r.toNat) = false) :
    exec (.sqDrained r) s = .next (s.setSq r.toNat { s.sq r.toNat with st := rDISABLED }) := by
  have h : s.sqDrained r.toNat = s.setSq r.toNat { s.sq r.toNat with st := rDISABLED } :=
    if_pos ⟨hd, by rw [hn]; decide⟩
  exact congrArg Host.Outcome.next h

theorem sqResume_goes (hh : (s.sq r.toNat).st = rHALTED) (hr : (s.sq r.toNat).reset = false)
    (hp : portUp s (curPort s (sqParty s r.toNat)) = true)
    (hu : u = (s.setSq r.toNat { s.sq r.toNat with st := rACTIVE, err := 0 })) :
    s.sqResume r.toNat = ((((u.setCq (s.get (F.SQ_8_CQID r.toNat))
      { u.cq (s.get (F.SQ_8_CQID r.toNat)) with st := rACTIVE }).resend fun k => k.ring == r.toNat).2).refetch
      (sqParty s r.toNat)).uqiRun := by
  subst hu
  exact if_neg (by simp [hh, hr, hp])

theorem sqResume_of_portDown (hp : portUp s (curPort s (sqParty s r.toNat)) = false) : s.sqResume r.toNat = s :=
  if_pos (.inr (.inr (by simp [hp])))

theorem cqResume_goes (hh : (s.cq r.toNat).st = rHALTED) (hp : portUp s (curPort s (cqParty s r.toNat)) = true)
    (hn : (List.range 64).any (fun k => (s.sq k).st == rACTIVE && s.get (F.SQ_8_CQID k) == r.toNat) = true) :
    s.cqResume r.toNat = (s.setCq r.toNat { s.cq r.toNat with st := rACTIVE, err := 0 }).uqiRun :=
  if_pos ⟨hh, hp, hn⟩

theorem sqReset_goes (hh : (s.sq r.toNat).st = rHALTED)
    (hu : u = s.setSq r.toNat { s.sq r.toNat with reset := true, err := 0 }) :
    s.sqReset r.toNat = (State.each (fun (c : Nat × Cmd) t => if c.2.ring ≠ r.toNat then t
      else if c.2.posted then t.freeCmd c.1 else t.setCmd c.1 (some { c.2 with drop := true })) (cmds u) u).resetDone
        r.toNat := by
  subst hu
  exact if_neg (not_not_intro hh)

end Rings

/-! ### O46 -/

/-- Settles O46, clause by clause, through the ring registers' own functions. -/
theorem ringCommandsComplete : Obligations.RingCommandsComplete := by
  unfold Obligations.RingCommandsComplete
  refine ⟨fun q r w v s => ringSetupWrite_clauses, fun q r v s hb => ?_, fun q r s => sqEnable_off_clauses,
    fun q r a s u => cqEnable_off_clauses, fun q r s => control_same_clauses, fun q r s => disable_clauses,
    fun r s => sqDrained_ends, fun q r s u hb hh hr hp hu => next_hostWrite hb (sqResume_goes hh hr hp hu),
    fun q r s hb hp => next_hostWrite hb (sqResume_of_portDown hp),
    fun q r s hb hh hp hn => next_hostWrite hb (cqResume_goes hh hp hn),
    fun q r s u hb hh hu => next_hostWrite hb (sqReset_goes hh hu), fun q r s hb hh => ?_⟩
  · obtain ⟨hoff, hon⟩ := sqSetup_high_clauses (s := s) (r := r) (v := v)
    obtain ⟨hw, -⟩ := ringSetupWrite_clauses (q := q) (r := r) (v := v) hb (show (1 : BitVec 2) ≠ 3 by decide)
    exact ⟨fun h => hw.trans (congrArg Host.Outcome.next (hoff h)), fun h => hw.trans (congrArg Host.Outcome.next (hon h))⟩
  · exact ⟨next_hostWrite hb (if_pos (Or.inl hh)), next_hostWrite hb (if_pos hh)⟩

end Sys2Proof.Proofs

/-! PROOFS. The rings' fetches and completions (O47): a doorbell page, an entry burst and a list page as they arrive, an
acknowledged completion, and the message of AGGTIME. -/

namespace Sys2Proof.Proofs

open Sys2Proof Sys2Proof.Machine

/-! ### Doorbell pages and entry bursts -/

theorem doorbellReadDone_ok {p : BitVec 4} {bs : List Byte} {s u : State} (hf : tabGet s.uqi.fetch 0 p.toNat ≠ 0)
    (hu : u = { s with uqi := { s.uqi with
      fetch := tabPut s.uqi.fetch 0 p.toNat 0, dbref := setBit s.uqi.dbref p.toNat false } }.dbPage
      p.toNat (tabGet s.uqi.fetch 0 p.toNat) bs) :
    exec (.doorbellReadDone p .ok bs) s = .next ((if u.uqi.again.testBit p.toNat
      then { u with uqi := { u.uqi with again := setBit u.uqi.again p.toNat false } }.dbRequest p.toNat
      else { u with uqi := { u.uqi with again := setBit u.uqi.again p.toNat false } }).uqiRun) := by
  subst hu
  exact congrArg Host.Outcome.next (if_neg hf)

theorem doorbellReadDone_failed {p : BitVec 4} {x : HostEnd} {bs : List Byte} {s : State} (hx : x ≠ .ok)
    (hf : tabGet s.uqi.fetch 0 p.toNat ≠ 0) (ha : s.uqi.again.testBit p.toNat = false) :
    exec (.doorbellReadDone p x bs) s = .next ({ s with uqi := { s.uqi with
      fetch := tabPut s.uqi.fetch 0 p.toNat 0, again := setBit s.uqi.again p.toNat false } }.uqiRun) := by
  have h : doorbellReadDone p x bs s = { s with uqi := { s.uqi with
      fetch := tabPut s.uqi.fetch 0 p.toNat 0, again := setBit s.uqi.again p.toNat false } }.uqiRun := by
    rw [doorbellReadDone, if_neg hf]
    simp only [if_neg hx, State.onUqi, ha, Bool.false_eq_true, if_false]
  exact congrArg Host.Outcome.next h

theorem noFetch_clauses {p : BitVec 4} {r : BitVec 6} {x : HostEnd} {bs : List Byte} {e : List RmeErr} {s : State} :
    (tabGet s.uqi.fetch 0 p.toNat = 0 → exec (.doorbellReadDone p x bs) s = .next s) ∧
    ((s.sq r.toNat).burst = 0 → exec (.entryBurstDone r x bs e) s = .next s) :=
  ⟨fun h => congrArg Host.Outcome.next (if_pos h), fun h => congrArg Host.Outcome.next (if_pos h)⟩

theorem entryBurstDone_ok {r : BitVec 6} {bs : List Byte} {e : List RmeErr} {s u : State} (hb : (s.sq r.toNat).burst ≠ 0)
    (hu : u = s.setSq r.toNat
      { s.sq r.toNat with burst := 0, fptr := ((s.sq r.toNat).fptr + (s.sq r.toNat).burst) % sqSize s r.toNat }) :
    exec (.entryBurstDone r .ok bs e) s =
      .next (((State.takeEntries r.toNat (pieces 64 (s.sq r.toNat).burst bs) u).runChecks e).uqiRun) := by
  have h : entryBurstDone r .ok bs e s =
      ((State.takeEntries r.toNat (pieces 64 (s.sq r.toNat).burst bs) u).runChecks e).uqiRun := by
    subst hu
    exact (if_neg hb).trans (if_neg (not_not_intro rfl))
  exact congrArg Host.Outcome.next h

theorem entryBurstDone_failed {r : BitVec 6} {x : HostEnd} {bs : List Byte} {e : List RmeErr} {s : State} (hx : x ≠ .ok)
    (hb : (s.sq r.toNat).burst ≠ 0) :
    exec (.entryBurstDone r x bs e) s =
      .next ((s.setSq r.toNat { s.sq r.toNat with burst := 0, stalled := true }).uqiRun) :=
  have h : entryBurstDone r x bs e s = (s.setSq r.toNat { s.sq r.toNat with burst := 0, stalled := true }).uqiRun :=
    (if_neg hb).trans (if_pos hx)
  congrArg Host.Outcome.next h

/-! ### List pages -/

/-- A transfer of the command waits for the list page. -/
def waitsForPage (i a : Nat) (j : XJob) : Bool := j.idx == i && j.page == some a

/-- The transfers of the host after the read of the list page that some wait for has failed: each of those ends there with
kind 6, with its bytes before the page. -/
def faultPage (s : State) (k : Cmd) (i a : Nat) : List XJob := s.uqi.jobs.map fun (j : XJob) =>
  if waitsForPage i a j then
    { j with page := none, ranges := (walk s k (j.xoff + j.done) (j.xlen - j.done)).1, fault := some (21, 6) } else j

theorem mem_faultPage {s : State} {k : Cmd} {i a : Nat} {j : XJob} (hj : j ∈ faultPage s k i a) :
    (j.idx = i → j.page ≠ some a) ∧ (j ∈ s.uqi.jobs ∨ j.page = none ∧ j.fault = some (21, 6)) := by
  obtain ⟨x, hx, rfl⟩ := List.mem_map.mp hj
  split
  next => exact ⟨fun _ => Option.some_ne_none _ |>.symm, .inr ⟨rfl, rfl⟩⟩
  next hn =>
    refine ⟨fun hi hp => hn ?_, .inl hx⟩
    rw [waitsForPage, hi, hp, beq_self_eq_true, beq_self_eq_true, Bool.and_self]

theorem listPageReadDone_of_waits {i : BitVec 10} {a : BitVec 64} {x : HostEnd} {bs : List Byte} {k : Cmd} {s : State}
    (hk : s.cmd i.toNat = some k) (hw : s.uqi.jobs.any (waitsForPage i.toNat a.toNat) = true) :
    listPageReadDone i a x bs s = if x = .ok then
      ((s.setCmd i.toNat (some { k with pages := k.pages ++ [(a.toNat, slice bs 0 4096)] })).onUqi fun u =>
        { u with jobs := u.jobs.map fun (j : XJob) =>
          if waitsForPage i.toNat a.toNat j then { j with page := none } else j }).uqiRun
      else ((s.onUqi fun u => { u with jobs := faultPage s k i.toNat a.toNat }).listFault k 6 (k.pages.length + 1) 0
        a.toNat).uqiRun := by
  simp only [listPageReadDone, hk]
  exact if_neg (not_not_intro hw)

theorem listPageReadDone_ok {i : BitVec 10} {a : BitVec 64} {bs : List Byte} {k : Cmd} {s u : State}
    (hk : s.cmd i.toNat = some k)
    (hw : s.uqi.jobs.any (fun (j : XJob) => j.idx == i.toNat && j.page == some a.toNat) = true)
    (hu : u = s.setCmd i.toNat (some { k with pages := k.pages ++ [(a.toNat, slice bs 0 4096)] })) :
    exec (.listPageReadDone i a .ok bs) s = .next ({ u with uqi := { u.uqi with
      jobs := u.uqi.jobs.map fun (j : XJob) =>
        if j.idx == i.toNat && j.page == some a.toNat then { j with page := none } else j } }.uqiRun) := by
  subst hu
  exact congrArg Host.Outcome.next ((listPageReadDone_of_waits hk hw).trans (if_pos rfl))

theorem listPageReadDone_failed {i : BitVec 10} {a : BitVec 64} {x : HostEnd} {bs : List Byte} {k : Cmd} {s : State}
    (hx : x ≠ .ok) (hk : s.cmd i.toNat = some k)
    (hw : s.uqi.jobs.any (fun (j : XJob) => j.idx == i.toNat && j.page == some a.toNat) = true) : ∃ l : List XJob,
    exec (.listPageReadDone i a x bs) s =
      .next (({ s with uqi := { s.uqi with jobs := l } }.listFault k 6 (k.pages.length + 1) 0 a.toNat).uqiRun) ∧
    l.length = s.uqi.jobs.length ∧ ∀ j ∈ l, (j.idx = i.toNat → j.page ≠ some a.toNat) ∧
      (j ∈ s.uqi.jobs ∨ j.page = none ∧ j.fault = some (21, 6)) :=
  ⟨faultPage s k i.toNat a.toNat, congrArg Host.Outcome.next ((listPageReadDone_of_waits hk hw).trans (if_neg hx)),
    List.length_map _, fun _ => mem_faultPage⟩

/-! ### Completions and messages -/

/-- The completion entry of command-table entry `i` that a slot of a ring holds. -/
def slotCpl (s : State) (i : Nat) : Option Cpl := s.uqi.cpls.find? fun (x : Cpl) => x.idx == i && x.slot.isSome

theorem cplWritten_none {s : State} {i : Nat} (h : slotCpl s i = none) : s.cplWritten i = s := by
  unfold State.cplWritten
  rw [show s.uqi.cpls.find? (fun (c : Cpl) => c.idx == i && c.slot.isSome) = none from h]

theorem cplWritten_some {s u : State} {i : Nat} {c : Cpl} (h : slotCpl s i = some c)
    (hu : u = (s.freeCmd i).setCq c.cq { (s.freeCmd i).cq c.cq with unsig := ((s.freeCmd i).cq c.cq).unsig + 1 }) :
    s.cplWritten i =
      if u.on (F.CQ_8_IEN c.cq) ∧ (u.cq c.cq).unsig ≥ u.get (F.CQ_8_AGGTHR c.cq) + 1 then u.cqMessage c.cq else u := by
  unfold State.cplWritten
  rw [show s.uqi.cpls.find? (fun (c : Cpl) => c.idx == i && c.slot.isSome) = some c from h]
  subst hu
  rfl

theorem msixAggregationTimeout_clauses {r : BitVec 6} {s : State} :
    ((s.cq r.toNat).unsig ≠ 0 → s.on (F.CQ_8_IEN r.toNat) = true → s.get (F.CQ_C_AGGTIME r.toNat) ≠ 0 →
      msixAggregationTimeout r s = s.cqMessage r.toNat) ∧
    ((s.cq r.toNat).unsig = 0 ∨ s.on (F.CQ_8_IEN r.toNat) = false ∨ s.get (F.CQ_C_AGGTIME r.toNat) = 0 →
      msixAggregationTimeout r s = s) :=
  ⟨fun h0 hi ht => if_neg (by simp [h0, hi, ht]), fun h => if_pos (by simpa using h)⟩

/-! ### O47 -/

/-- Settles O47, clause by clause. -/
theorem ringFetchAndCompletionCommandsComplete : Obligations.RingFetchAndCompletionCommandsComplete := by
  unfold Obligations.RingFetchAndCompletionCommandsComplete
  refine ⟨fun p bs s u => doorbellReadDone_ok, fun p x bs s _ => doorbellReadDone_failed, fun p r x bs e s => noFetch_clauses,
    fun r bs e s u => entryBurstDone_ok, fun r x bs e s => entryBurstDone_failed,
    fun i a bs k s u => listPageReadDone_ok, fun i a x bs k s => listPageReadDone_failed,
    fun i s h => congrArg (fun w : State => Host.Outcome.next w.uqiRun) (cplWritten_none h),
    fun i c s u h hu => congrArg (fun w : State => Host.Outcome.next w.uqiRun) (cplWritten_some h hu),
    fun r s h0 hi ht => congrArg Host.Outcome.next (msixAggregationTimeout_clauses.1 h0 hi ht),
    fun r s h => congrArg Host.Outcome.next (msixAggregationTimeout_clauses.2 h)⟩

end Sys2Proof.Proofs

/-! PROOFS. The host commands of Table 16.1 (O50): a step of drive firmware's work is the step of its opcode on the
command-table entry, and each step's case is picked by the work noted in the entry. -/

namespace Sys2Proof.Proofs

open Sys2Proof Sys2Proof.Machine

section HostCommands

variable {i : BitVec 10} {k : Cmd} {s u : State} {n : Nat} {e : List RmeErr} {g : Bool}

/-- Firmware's step on a command of the opcode. -/
theorem next_fwStep {opc : Nat} {f : Nat → Cmd → State → State} {t : State} (h : fwCmd s i.toNat opc = some k)
    (hf : f i.toNat k s = t) : (.next (fwStep opc i f s) : Host.Outcome State Fault Refusal) = .next t := by
  rw [fwStep, h]
  exact congrArg Host.Outcome.next hf

/-! ### Reads and writes -/

theorem readStep_chunk (hp : k.fw.phase = 0) (hs : k.fw.stop = false) (hh : fwHeld s k = false)
    (hk : keyMissing s k.party = false) : s.readStep n k e = s.readChunk n k e := by
  rw [State.readStep, if_neg (by simp [hp]), if_neg (by simp [hp]), if_neg (by simp [hs]), if_neg (by simp [hh]),
    if_neg (by simp [hk])]

theorem readChunk_done (hc : chunkAt s k k.fw.pos = none) : s.readChunk n k e = s.fwEnd n k 0 (sqeOf k.bytes).nlb 0 := by
  rw [State.readChunk, hc]

theorem writeStep_done {zero : Bool} (hp : k.fw.phase = 0) (hs : k.fw.stop = false) (hh : fwHeld s k = false)
    (hk : keyMissing s k.party = false) (hc : chunkAt s k k.fw.pos = none) (hf : (sqeOf k.bytes).fua = false) :
    s.writeStep n k zero g e = s.fwEnd n k 0 (sqeOf k.bytes).nlb 0 := by
  rw [State.writeStep, if_neg (by simp [hp]), if_neg (by simp [hp]), if_neg (by simp [hs]), if_neg (by simp [hh]),
    if_neg (by simp [hk]), hc]
  exact if_neg (by simp [hf])

theorem deallocStep_chunk (hp : k.fw.phase = 0) (hs : k.fw.stop = false) (hh : fwHeld s k = false) :
    s.deallocStep n k e = match chunkAt s k k.fw.pos with
    | none => s.fwEnd n k 0 (sqeOf k.bytes).nlb 0
    | some (x, m) =>
      if ¬ unitWhole s k k.fw.pos then s.writeChunk n k true x m e
      else if (maskOf (x % 64) m &&& (segMasks s k.party x).l) ≠ 0 then s
      else
        let s := (s.maintAddr .discard k.party x m).2
        let s := s.unzero k.party x m
        let s := s.onUqi fun u => { u with zeroed := u.zeroed ++ (List.range m).map fun j => (k.party, x + j) }
        s.setFw n k { k.fw with pos := k.fw.pos + m } := by
  exact (if_neg (by simp [hp])).trans ((if_neg (by simp [hs])).trans (if_neg (by simp [hh])))

theorem deallocStep_done (hp : k.fw.phase = 0) (hs : k.fw.stop = false) (hh : fwHeld s k = false)
    (hc : chunkAt s k k.fw.pos = none) : s.deallocStep n k e = s.fwEnd n k 0 (sqeOf k.bytes).nlb 0 := by
  rw [deallocStep_chunk hp hs hh, hc]

theorem done_clauses (hp : k.fw.phase = 0) (hs : k.fw.stop = false) (hh : fwHeld s k = false)
    (hk : keyMissing s k.party = false) (hc : chunkAt s k k.fw.pos = none) :
    (fwCmd s i.toNat 0x02 = some k → exec (.read i e) s = .next (s.fwEnd i.toNat k 0 (sqeOf k.bytes).nlb 0)) ∧
    (fwCmd s i.toNat 0x01 = some k → (sqeOf k.bytes).fua = false →
      exec (.write i g e) s = .next (s.fwEnd i.toNat k 0 (sqeOf k.bytes).nlb 0)) ∧
    (fwCmd s i.toNat 0x04 = some k → (sqeOf k.bytes).fua = false →
      exec (.writeZeroes i g e) s = .next (s.fwEnd i.toNat k 0 (sqeOf k.bytes).nlb 0)) ∧
    (fwCmd s i.toNat 0x05 = some k → exec (.deallocate i e) s = .next (s.fwEnd i.toNat k 0 (sqeOf k.bytes).nlb 0)) :=
  ⟨fun h => next_fwStep h ((readStep_chunk hp hs hh hk).trans (readChunk_done hc)),
   fun h hf => next_fwStep h (writeStep_done hp hs hh hk hc hf),
   fun h hf => next_fwStep h (writeStep_done hp hs hh hk hc hf),
   fun h => next_fwStep h (deallocStep_done hp hs hh hc)⟩

/-- The chunk's sectors are all valid and none is in error: they go to the host. -/
theorem readChunk_moves {x m key : Nat} {r : LookRes} (hc : chunkAt s k k.fw.pos = some (x, m))
    (he : maskOf (x % 64) m &&& (segMasks s k.party x).e &&& (segMasks s k.party x).v = 0)
    (hv : ∀ j, j < m → (segMasks s k.party x).v.getLsbD (x % 64 + j) = true)
    (hl : s.firnLookup k.party x m .look true = (r, u)) (hr : r.key = some key) (hw : unitWhole s k k.fw.pos = true) :
    s.readChunk n k e = (u.fwMove n k { k.fw with key, gen := (u.tag key).gen, first := x, n := m } true
      (secAddr u key (x % 64) + (unitSpan s k k.fw.pos).2.2) (unitSpan s k k.fw.pos).1 (4096 * m)).getD s := by
  have hfind : (List.range m).find? (fun j => !(segMasks s k.party x).v.getLsbD (x % 64 + j)) = none := by
    refine List.find?_eq_none.mpr fun j hj => ?_
    simp [hv j (List.mem_range.mp hj)]
  have hlen : (unitSpan s k k.fw.pos).2.1 = 4096 := eq_of_beq hw
  have hdirty : ∀ d : BitVec 64, ¬ ((0 : BitVec 64) &&& d) ≠ 0 := fun d => not_not_intro BitVec.zero_and
  rw [State.readChunk, hc]
  simp only [he, if_neg (hdirty _), ne_eq, not_true, if_false, hfind, hl, hr, hlen, if_true]

theorem writeMoved_commits {r : XRes} (hr : s.fwResult k = some (r, u)) (hc : r.cause = 0) :
    s.writeMoved n k = (u.unpinTag k.fw.key k.fw.gen).2.fwCommit n k k.fw
      (unitWhole (u.unpinTag k.fw.key k.fw.gen).2 k k.fw.pos) := by
  rw [State.writeMoved, hr]
  exact if_pos hc

theorem writeStep_moved {zero : Bool} (hp : k.fw.phase = 2) : s.writeStep n k zero g e = s.writeMoved n k := by
  rw [State.writeStep, if_neg (by simp [hp]), if_pos hp]

/-! ### DEALLOCATE -/

/-- The range of units joins those that read as zeros. -/
def markZeroed (u : State) (i : Nat) (k : Cmd) (x n : Nat) : State :=
  (u.onUqi fun q => { q with zeroed := q.zeroed ++ (List.range n).map fun j => (k.party, x + j) }).setFw i k
    { k.fw with pos := k.fw.pos + n }

theorem isZeroed_markZeroed {x m j : Nat} (hj : j < m) : isZeroed (markZeroed u n k x m) k.party (x + j) = true := by
  have hmem : (k.party, x + j) ∈ u.uqi.zeroed ++ (List.range m).map fun j => (k.party, x + j) :=
    List.mem_append_right _ (List.mem_map.mpr ⟨j, List.mem_range.mpr hj, rfl⟩)
  exact Bool.or_eq_true_iff.mpr (.inl (List.contains_iff_mem.mpr hmem))

theorem markZeroed_frame {x m : Nat} : (markZeroed u n k x m).firn = u.firn ∧ (markZeroed u n k x m).store = u.store ∧
    (markZeroed u n k x m).buf = u.buf ∧ (markZeroed u n k x m).regs = u.regs := ⟨rfl, rfl, rfl, rfl⟩

theorem deallocStep_whole {x m : Nat} (hp : k.fw.phase = 0) (hs : k.fw.stop = false) (hh : fwHeld s k = false)
    (hc : chunkAt s k k.fw.pos = some (x, m)) (hw : unitWhole s k k.fw.pos = true)
    (hl : maskOf (x % 64) m &&& (segMasks s k.party x).l = 0) :
    s.deallocStep n k e = markZeroed ((s.maintAddr .discard k.party x m).2.unzero k.party x m) n k x m := by
  rw [deallocStep_chunk hp hs hh, hc]
  exact (if_neg (not_not_intro hw)).trans (if_neg (not_not_intro hl))

theorem deallocate_whole {x m : Nat} (hf : fwCmd s i.toNat 0x05 = some k) (hp : k.fw.phase = 0) (hs : k.fw.stop = false)
    (hh : fwHeld s k = false) (hc : chunkAt s k k.fw.pos = some (x, m)) (hw : unitWhole s k k.fw.pos = true)
    (hl : maskOf (x % 64) m &&& (segMasks s k.party x).l = 0) : ∃ t u : State, exec (.deallocate i e) s = .next t ∧
    u = (s.maintAddr .discard k.party x m).2.unzero k.party x m ∧ (∀ j, j < m → isZeroed t k.party (x + j) = true) ∧
    t.firn = u.firn ∧ t.store = u.store ∧ t.buf = u.buf ∧ t.regs = u.regs :=
  ⟨_, _, next_fwStep hf (deallocStep_whole hp hs hh hc hw hl), rfl, fun _ => isZeroed_markZeroed, markZeroed_frame⟩

/-! ### FLUSH, ABORT -/

theorem flush_clauses (hf : fwCmd s i.toNat 0x00 = some k) (hp : k.fw.phase = 3) (hs : k.fw.stop = false) :
    (∀ g : Bool, stillDirty s k.party k.fw.cover = [] → exec (.flush i g) s = .next (s.fwEnd i.toNat k 0 0 0)) ∧
    (∀ c, stillDirty s k.party k.fw.cover = [c] → s.on (F.UQI_PCFG_EMU k.party) = false →
      exec (.flush i true) s = .next (s.fwEnd i.toNat k 0x12 0 (popcount c.2))) := by
  refine ⟨fun g hd => next_fwStep hf ?_, fun c hd he => next_fwStep hf ?_⟩
  · rw [State.flushStep, if_neg (by simp [hs]), if_pos hp]
    simp only [hd]
    rfl
  · rw [State.flushStep, if_neg (by simp [hs]), if_pos hp]
    simp only [hd, List.isEmpty_cons, Bool.false_eq_true, if_false, if_true, List.map_cons, List.map_nil, List.sum_cons,
      List.sum_nil, he, Nat.add_zero, Nat.mul_one]

theorem abort_clauses (hf : fwCmd s i.toNat 0x08 = some k) :
    (k.fw.phase = 0 → abortTarget s k = none → exec (.abort i) s = .next (s.fwEnd i.toNat k 0 0 0)) ∧
    (∀ c : Nat × Cmd, k.fw.phase = 0 → abortTarget s k = some c → exec (.abort i) s =
      .next ((s.setFw c.1 c.2 { c.2.fw with stop := true }).setFw i.toNat k { k.fw with phase := 3, aim := some c.1 })) ∧
    (k.fw.phase = 3 → k.fw.aim = none →
      exec (.abort i) s = .next (s.fwEnd i.toNat k 0 0 (if k.fw.hit then 1 else 0))) := by
  refine ⟨fun hp ht => next_fwStep hf ?_, fun c hp ht => next_fwStep hf ?_, fun hp ha => next_fwStep hf ?_⟩
  · rw [State.abortStep, if_neg (by simp [hp]), ht]
  · rw [State.abortStep, if_neg (by simp [hp]), ht]
  · rw [State.abortStep, if_pos hp, if_neg (by simp [ha])]

/-! ### IDENTIFY, RESIDUE_READ -/

theorem sendMoved_ends {r : XRes} {spec : Nat} (hr : s.fwResult k = some (r, u)) (hc : r.cause = 0) :
    s.sendMoved n k spec = u.fwEnd n k 0 0 spec := by
  rw [State.sendMoved, hr]
  exact if_pos hc

theorem identify_clauses {b : Word} {r : XRes} (hf : fwCmd s i.toNat 0x0C = some k) :
    (k.fw.phase = 0 → k.fw.stop = false →
      exec (.identify i b) s = .next (s.fwSend i.toNat k b.toNat (identifyData s k.party))) ∧
    (k.fw.phase = 2 → s.fwResult k = some (r, u) → r.cause = 0 →
      exec (.identify i b) s = .next (u.fwEnd i.toNat k 0 0 0)) := by
  refine ⟨fun hp hs => next_fwStep hf ?_, fun hp hr hc => next_fwStep hf ?_⟩
  · rw [identifyStep, if_neg (by simp [hp]), if_neg (by simp [hs])]
  · exact (if_pos hp).trans (sendMoved_ends hr hc)

theorem residueRead_clauses {b : Word} {r : XRes} {l : List Byte} {o : Nat} (hf : fwCmd s i.toNat 0x0F = some k)
    (hl : l = residueReport s k.party) (ho : o = leNat (slice k.bytes 0x30 4)) :
    (k.fw.phase = 0 → k.fw.stop = false → o < l.length → exec (.residueRead i b) s =
      .next (s.fwSend i.toNat k b.toNat (slice l o (Nat.min (sqeOf k.bytes).dlen (l.length - o))))) ∧
    (k.fw.phase = 0 → k.fw.stop = false → l.length ≤ o →
      exec (.residueRead i b) s = .next (s.fwEnd i.toNat k 0x02 0 0x30)) ∧
    (k.fw.phase = 2 → s.fwResult k = some (r, u) → r.cause = 0 →
      exec (.residueRead i b) s = .next (u.fwEnd i.toNat k 0 0 l.length)) := by
  refine ⟨fun hp hs hlt => next_fwStep hf ?_, fun hp hs hle => next_fwStep hf ?_, fun hp hr hc => next_fwStep hf ?_⟩
  · simp only [residueStep, ← hl, ← ho]
    rw [if_neg (by simp [hp]), if_neg (by simp [hs]), if_neg (Nat.not_le.mpr hlt)]
  · simp only [residueStep, ← hl, ← ho]
    rw [if_neg (by simp [hp]), if_neg (by simp [hs]), if_pos hle]
  · simp only [residueStep, ← hl, ← ho]
    exact (if_pos hp).trans (sendMoved_ends hr hc)

end HostCommands

/-! ### O50 -/

/-- Settles O50, clause by clause. -/
theorem hostCommandsComplete : Obligations.HostCommandsComplete := by
  unfold Obligations.HostCommandsComplete
  refine ⟨fun i k e g s => done_clauses, fun i k e x n key r s u hp hs hh hk hf hc he hv hl hr hw =>
      next_fwStep hf ((readStep_chunk hp hs hh hk).trans (readChunk_moves hc he hv hl hr hw)),
    fun i k g e r s u hf hp hr hc => next_fwStep hf ((writeStep_moved hp).trans (writeMoved_commits hr hc)),
    fun i k e x n s => deallocate_whole, fun i k s => flush_clauses, fun i k s => abort_clauses,
    fun i b k r s u => identify_clauses, fun i b k l o r s u => residueRead_clauses⟩

end Sys2Proof.Proofs

/-! PROOFS. The orderer's requests and acknowledgements, and the queue registers of the cores (O51): each write of a core
that does not run gated is the branch of its register's function that the state picks. -/

namespace Sys2Proof.Proofs

open Sys2Proof Sys2Proof.Machine

section Orderer

variable {m : Master} {v : Word} {s : State}

/-- A command of a core that does not run gated takes its effect. -/
theorem next_byCore {a : Nat} {go : State → State} {t : State} (hm : gated s m = false) (h : go s = t) :
    (.next (s.byCore m a v go) : Host.Outcome State Fault Refusal) = .next t :=
  congrArg Host.Outcome.next ((byCore_of_not_gated hm).trans h)

/-! ### Requests (R402, R411) -/

/-- A request's arguments are such that it is refused (R402). -/
def badRequest (s : State) (m : Master) (b : Nat) : Prop :=
  b % 4096 ≠ 0 ∨ inFrames b = false ∨ (s.on (F.ORD_RQ1_XTS m) = false ∧ s.on F.DMA_CTL_XTSREQ = true) ∨
    (s.on (F.ORD_RQ1_DIR m) = true ∧ s.on (F.ORD_RQ1_RETRY m) = true)

/-- The request that the staged words ask for. -/
def askedRequest (s : State) (m : Master) (v : Word) (e : List RmeErr) : OrdReq where
  id := 0
  core := m
  rtag := bitsOf v 7 0
  mlba := s.get (F.ORD_RQ0_MLBA m) + s.get (F.ORD_RQ1_MLBA m) * 4294967296
  offs := List.range (s.get (F.ORD_RQ1_NSECM1 m) + 1)
  write := s.on (F.ORD_RQ1_DIR m)
  cont := s.on (F.ORD_RQ1_CONT m)
  retry := s.on (F.ORD_RQ1_RETRY m)
  final := s.on (F.ORD_RQ1_FINAL m)
  xts := s.on (F.ORD_RQ1_XTS m)
  party := s.get (F.ORD_RQ1_PARTY m)
  buf := s.get (F.ORD_RQ2_BUF m)
  since := 0
  errs := e

theorem ordRequest_bad {e : List RmeErr} (hm : m ≠ .sv) (h : badRequest s m (s.get (F.ORD_RQ2_BUF m))) :
    ordRequest m v e s = s.put (F.ORD_RQRES_RESULT m) 2 := by
  refine (if_neg hm).trans (if_pos ?_)
  simpa [badRequest] using h

theorem ordRequest_good {e : List RmeErr} (hm : m ≠ .sv) (h : ¬ badRequest s m (s.get (F.ORD_RQ2_BUF m))) :
    ordRequest m v e s = if s.ord.reqs.length ≥ 512 then s.put (F.ORD_RQRES_RESULT m) 1
      else (s.put (F.ORD_RQRES_RESULT m) 0).ordAccept (askedRequest s m v e) := by
  refine (if_neg hm).trans (if_neg fun hb => h ?_)
  simpa [badRequest] using hb

theorem not_badRequest {b : Nat} (ha : b % 4096 = 0) (hf : inFrames b = true)
    (hx : s.on F.DMA_CTL_XTSREQ = true → s.on (F.ORD_RQ1_XTS m) = true)
    (hr : s.on (F.ORD_RQ1_DIR m) = true → s.on (F.ORD_RQ1_RETRY m) = false) : ¬ badRequest s m b := by
  rintro (h | h | ⟨hn, hq⟩ | ⟨hw, ht⟩)
  · exact h ha
  · exact Bool.noConfusion (h.symm.trans hf)
  · exact Bool.noConfusion (hn.symm.trans (hx hq))
  · exact Bool.noConfusion ((hr hw).symm.trans ht)

theorem ordRequest_clauses {e : List RmeErr} {b : Nat} (hm : m ≠ .sv) (hg : gated s m = false)
    (hb : b = s.get (F.ORD_RQ2_BUF m)) :
    (b % 4096 ≠ 0 ∨ inFrames b = false ∨ (s.on (F.ORD_RQ1_XTS m) = false ∧ s.on F.DMA_CTL_XTSREQ = true) ∨
      (s.on (F.ORD_RQ1_DIR m) = true ∧ s.on (F.ORD_RQ1_RETRY m) = true) →
      exec (.ordRequest m v e) s = .next (s.put (F.ORD_RQRES_RESULT m) 2)) ∧
    (b % 4096 = 0 → inFrames b = true → (s.on F.DMA_CTL_XTSREQ = true → s.on (F.ORD_RQ1_XTS m) = true) →
      (s.on (F.ORD_RQ1_DIR m) = true → s.on (F.ORD_RQ1_RETRY m) = false) →
      (512 ≤ s.ord.reqs.length → exec (.ordRequest m v e) s = .next (s.put (F.ORD_RQRES_RESULT m) 1)) ∧
      (s.ord.reqs.length < 512 → ∃ r : OrdReq,
        exec (.ordRequest m v e) s = .next ((s.put (F.ORD_RQRES_RESULT m) 0).ordAccept r) ∧
        r.core = m ∧ r.rtag = bitsOf v 7 0 ∧ r.mlba = s.get (F.ORD_RQ0_MLBA m) + s.get (F.ORD_RQ1_MLBA m) * 4294967296 ∧
        r.offs = List.range (s.get (F.ORD_RQ1_NSECM1 m) + 1) ∧ r.write = s.on (F.ORD_RQ1_DIR m) ∧
        r.party = s.get (F.ORD_RQ1_PARTY m) ∧ r.buf = b ∧ r.placed = false ∧ r.ops = [])) := by
  subst hb
  refine ⟨fun h => next_byCore hg (ordRequest_bad hm h), fun ha hf hx hr => ?_⟩
  have hgood := ordRequest_good (v := v) (e := e) hm (not_badRequest ha hf hx hr)
  exact ⟨fun h => next_byCore hg (hgood.trans (if_pos h)), fun h => ⟨askedRequest s m v e,
    next_byCore hg (hgood.trans (if_neg (Nat.not_le.mpr h))), rfl, rfl, rfl, rfl, rfl, rfl, rfl, rfl, rfl⟩⟩

/-! ### Targets, acknowledgements, the clean queue (R403, R404, R408) -/

theorem ordSelectTarget_posts {o : OrdOp} (hm : ordMay s = true) (hv : s.on F.ORD_NEXT_VALID = false)
    (ha : armedOps s = []) (hc : chooseTarget s = some o) :
    ordSelectTarget s = (((s.put F.ORD_NEXT_TRK o.track).put F.ORD_NEXT_HEAD o.head).raiseBit F.ORD_NEXT_VALID).setIn
      F.SRV_AIRQ_LINE 15 := by
  rw [ordSelectTarget, if_neg (by simp [hm, hv, ha]), hc]

theorem ordAck_sv : ordAck .sv v s =
    if s.on F.ORD_NEXT_VALID ∧ bitsOf v 23 0 = s.get F.ORD_NEXT_TRK ∧ bitsOf v 28 24 = s.get F.ORD_NEXT_HEAD then
      ((s.clr F.ORD_NEXT_VALID).onOrd fun o => { o with pos := some (bitsOf v 28 24, bitsOf v 23 0) }).ordSettle
    else s.raiseBit F.ORD_STAT_ACKERR := if_neg (not_not_intro rfl)

theorem ordAck_clauses :
    (s.on F.ORD_NEXT_VALID = true → bitsOf v 23 0 = s.get F.ORD_NEXT_TRK → bitsOf v 28 24 = s.get F.ORD_NEXT_HEAD →
      exec (.ordAck .sv v) s = .next (((s.clr F.ORD_NEXT_VALID).onOrd fun o =>
        { o with pos := some (bitsOf v 28 24, bitsOf v 23 0) }).ordSettle)) ∧
    (s.on F.ORD_NEXT_VALID = false ∨ bitsOf v 23 0 ≠ s.get F.ORD_NEXT_TRK ∨ bitsOf v 28 24 ≠ s.get F.ORD_NEXT_HEAD →
      exec (.ordAck .sv v) s = .next (s.raiseBit F.ORD_STAT_ACKERR)) := by
  refine ⟨fun hv ht hh => next_byCore gated_sv (ordAck_sv.trans (if_pos ⟨hv, ht, hh⟩)),
    fun h => next_byCore gated_sv (ordAck_sv.trans (if_neg ?_))⟩
  rintro ⟨hv, ht, hh⟩
  rcases h with h | h | h
  · exact Bool.noConfusion (h.symm.trans hv)
  · exact h ht
  · exact h hh

/-- The media write that an entry of the clean queue asks for. -/
def cleanRequest (s : State) (x : ClqEnt) (e : List RmeErr) : OrdReq where
  id := 0
  core := .mc
  rtag := 0xFF
  mlba := x.lba
  offs := sectorsOf x.mask
  write := true
  cont := false
  retry := false
  final := false
  xts := s.on F.DMA_CTL_XTSREQ
  party := x.owner
  buf := x.frame
  clq := some x
  since := 0
  errs := e

theorem ordClqTake_takes {x : ClqEnt} {l : List ClqEnt} {e : List RmeErr} (hq : s.firn.clq = x :: l)
    (hw : s.on F.ASC_CTL_HWORD = true) (ha : firnAwake s = true) (hn : s.ord.reqs.length < 512) :
    ordClqTake e s = (s.onFirn fun f => { f with clq := l }).ordAccept (cleanRequest s x e) := by
  rw [ordClqTake, hq]
  exact if_neg (by simp [hw, ha, hn])

theorem ordUrgent_ages {l : List OrdReq} (hl : l = (s.ord.reqs.map fun r =>
      if r.since + Nat.max (s.get F.ORD_CTL_AGE) 1 * 4294967296 ≤ angleNow s then { r with urgent := true } else r)) :
    ordUrgent s = { s with ord := { s.ord with reqs := l } } := by
  have hmap : (s.ord.reqs.map fun (r : OrdReq) => if aged s r then { r with urgent := true } else r) = l := by
    rw [hl]
    refine List.map_congr_left fun r _ => ?_
    simp only [aged, decide_eq_true_eq]
    rfl
  simp only [ordUrgent, State.onOrd, hmap]

/-! ### Results, shares, HWORD (R400, R406) -/

theorem ordRespop_removes {r : OrdRes} {l : List OrdRes} (hm : m ≠ .sv) (hl : tabGet s.ord.results [] m.idx = r :: l) :
    ordRespop m s = (s.onOrd fun o => { o with results := tabPut o.results [] m.idx l }).putB (F.ORD_EVT_RESV m)
      (!l.isEmpty) := by
  rw [ordRespop, hl]
  exact if_neg hm

theorem ordShareWrite_clauses {p : BitVec 4} {n : Nat} (hl : s.on F.ISO_STAT_LOCKED = false)
    (hn : n = (((List.range 16).filter (· != p.toNat)).map fun q => s.get (F.ORD_SHARE_SHARE q)).foldl (fun a b => a + b) 0) :
    (n + bitsOf v 7 0 ≤ 256 →
      exec (.ordShareWrite .sec p v) s = .next (s.put (F.ORD_SHARE_SHARE p.toNat) (bitsOf v 7 0))) ∧
    (256 < n + bitsOf v 7 0 → exec (.ordShareWrite .sec p v) s = .next s) := by
  refine ⟨fun h => next_byCore gated_sec ?_, fun h => next_byCore gated_sec ?_⟩
  · simp only [ordShareWrite, ← hn]
    exact if_neg (by simp [hl, h])
  · simp only [ordShareWrite, ← hn]
    exact if_pos (Or.inr (Or.inr h))

theorem hwordWrite_idle (hm : m = .sec ∨ m = .mc) (hc : s.get F.ASC_STAT_MEDIA_CNT = 0)
    (ht : ∀ t, t < 128 → mopState s t = mopFREE ∨ mopState s t = mopDONE) :
    hwordWrite m v s = (s.putB F.ASC_CTL_HWORD (v.getLsbD 0)).ordSettle := by
  have hall : ((List.range 128).all fun t => mopState s t == mopFREE || mopState s t == mopDONE) = true :=
    List.all_eq_true.mpr fun t h => by simpa using ht t (List.mem_range.mp h)
  exact if_pos ⟨hm, by rw [hc, hall]; decide⟩

/-! ### The registers of HC0 and HC1 (R378) -/

theorem uqiCpost_clauses {k : Cmd} (hm : isHc m = true) (hg : gated s m = false) (hk : s.cmd (bitsOf v 9 0) = some k) :
    (k.core = some m → k.posted = false → exec (.uqiCpost m v) s = .next (((s.clr (F.UQI_CPRES_BADINDEX m)).commitCpl
      (bitsOf v 9 0) k (bitsOf v 23 16) (s.get (F.UQI_CPED_ED m)) (s.get (F.UQI_CPSPEC_SPEC m))).uqiRun)) ∧
    (k.core ≠ some m ∨ k.posted = true → exec (.uqiCpost m v) s = .next (s.raiseBit (F.UQI_CPRES_BADINDEX m))) := by
  have hpost : uqiCpost m v s = if k.core = some m ∧ ¬ k.posted then
      ((s.clr (F.UQI_CPRES_BADINDEX m)).commitCpl (bitsOf v 9 0) k (bitsOf v 23 16) (s.get (F.UQI_CPED_ED m))
        (s.get (F.UQI_CPSPEC_SPEC m))).uqiRun else s.raiseBit (F.UQI_CPRES_BADINDEX m) := by
    rw [uqiCpost, if_neg (not_not_intro hm)]
    simp only [hk]
  refine ⟨fun hc hp => next_byCore hg (hpost.trans (if_pos ⟨hc, by simp [hp]⟩)),
    fun h => next_byCore hg (hpost.trans (if_neg ?_))⟩
  rintro ⟨hc, hp⟩
  exact h.elim (fun hn => hn hc) hp

theorem uqiCpost_noCmd (hm : isHc m = true) (hk : s.cmd (bitsOf v 9 0) = none) :
    uqiCpost m v s = s.raiseBit (F.UQI_CPRES_BADINDEX m) := by
  rw [uqiCpost, if_neg (not_not_intro hm)]
  simp only [hk]

/-- The host transfer that a write of UQI_XCMD asks for. -/
def askedTransfer (s : State) (m : Master) (v : Word) : XJob where
  core := m
  idx := bitsOf v 9 0
  xbuf := s.get (F.UQI_XBUF_ADDR m)
  xoff := s.get (F.UQI_XOFF_OFF m)
  xlen := s.get (F.UQI_XLEN_LEN m)
  out := bitsOf v 10 10 == 1
  pi := bitsOf v 11 11 == 1
  xtag := bitsOf v 23 16

theorem uqiXcmd_queues {k : Cmd} (hm : isHc m = true) (hn : (s.uqi.jobs.filter fun (j : XJob) => j.core == m).length < 32)
    (hk : s.cmd (bitsOf v 9 0) = some k) (hc : k.core = some m) (hp : k.posted = false) (h0 : 0 < s.get (F.UQI_XLEN_LEN m))
    (hl : s.get (F.UQI_XOFF_OFF m) + s.get (F.UQI_XLEN_LEN m) ≤ (sqeOf k.bytes).dlen) :
    uqiXcmd m v s = (s.onUqi fun u => { u with jobs := u.jobs ++ [askedTransfer s m v] }).uqiRun := by
  rw [uqiXcmd, if_neg (not_not_intro hm), if_neg (Nat.not_le.mpr hn)]
  simp only [hk, hc, hp, h0, hl, beq_self_eq_true, Bool.not_false, decide_true, Bool.and_self, if_true]
  rfl

theorem uqiXcmd_full (hm : isHc m = true) (hn : 32 ≤ (s.uqi.jobs.filter fun (j : XJob) => j.core == m).length) :
    uqiXcmd m v s = s.raiseBit F.UQI_EVT_XFULL := (if_neg (not_not_intro hm)).trans (if_pos hn)

theorem uqiXcmd_clauses {k : Cmd} {n : Nat} (hm : isHc m = true) (hg : gated s m = false)
    (hn : n = (s.uqi.jobs.filter fun (j : XJob) => j.core == m).length) :
    (32 ≤ n → exec (.uqiXcmd m v) s = .next (s.raiseBit F.UQI_EVT_XFULL)) ∧
    (n < 32 → s.cmd (bitsOf v 9 0) = some k → k.core = some m → k.posted = false → 0 < s.get (F.UQI_XLEN_LEN m) →
      s.get (F.UQI_XOFF_OFF m) + s.get (F.UQI_XLEN_LEN m) ≤ (sqeOf k.bytes).dlen → ∃ j : XJob,
      exec (.uqiXcmd m v) s = .next ((s.onUqi fun u => { u with jobs := u.jobs ++ [j] }).uqiRun) ∧ j.core = m ∧
      j.idx = bitsOf v 9 0 ∧ j.xbuf = s.get (F.UQI_XBUF_ADDR m) ∧ j.xoff = s.get (F.UQI_XOFF_OFF m) ∧
      j.xlen = s.get (F.UQI_XLEN_LEN m) ∧ j.out = (bitsOf v 10 10 == 1) ∧ j.pi = (bitsOf v 11 11 == 1) ∧
      j.xtag = bitsOf v 23 16) := by
  subst hn
  exact ⟨fun h => next_byCore hg (uqiXcmd_full hm h), fun h hk hc hp h0 hl => ⟨askedTransfer s m v,
    next_byCore hg (uqiXcmd_queues hm h hk hc hp h0 hl), rfl, rfl, rfl, rfl, rfl, rfl, rfl, rfl⟩⟩

/-- `dropFirst` removes the first element that passes the test. -/
theorem dropFirst_append {α : Type} {p : α → Bool} {r : α} {l : List α} (hr : p r = true) :
    ∀ {k : List α}, (∀ x ∈ k, p x = false) → dropFirst p (k ++ r :: l) = k ++ l
  | [], _ => if_pos hr
  | x :: k, hk => by
    have hx : p x = false := hk x List.mem_cons_self
    rw [List.cons_append, dropFirst, if_neg (by simp [hx]), dropFirst_append hr fun y hy => hk y (List.mem_cons_of_mem x hy),
      List.cons_append]

theorem uqiXpop_removes {r : XRes} {l k : List XRes} (hb : bitsOf v 0 0 = 1) (hm : isHc m = true)
    (hl : s.uqi.res = k ++ r :: l) (hr : r.core = m) (hk : ∀ x ∈ k, x.core ≠ m) :
    uqiXpop m v s = { s with uqi := { s.uqi with res := k ++ l } } := by
  have hd : dropFirst (fun (x : XRes) => x.core == m) s.uqi.res = k ++ l := by
    rw [hl]
    exact dropFirst_append (p := fun (x : XRes) => x.core == m) (beq_iff_eq.mpr hr) fun x hx => beq_eq_false_iff_ne.mpr (hk x hx)
  rw [uqiXpop, if_pos ⟨hm, hb⟩]
  simp only [State.onUqi, hd]

theorem pop_clauses (hb : bitsOf v 0 0 = 1) :
    (gated s .hc0 = false →
      exec (.uqiDqpop .hc0 v) s = .next { s with uqi := { s.uqi with dq0 := s.uqi.dq0.drop 1 } }) ∧
    (gated s .hc1 = false →
      exec (.uqiDqpop .hc1 v) s = .next { s with uqi := { s.uqi with dq1 := s.uqi.dq1.drop 1 } }) ∧
    (∀ (m : Master) (r : XRes) (l k : List XRes), isHc m = true → gated s m = false → s.uqi.res = k ++ r :: l → r.core = m →
      (∀ x ∈ k, x.core ≠ m) → exec (.uqiXpop m v) s = .next { s with uqi := { s.uqi with res := k ++ l } }) :=
  ⟨fun hg => next_byCore hg (if_neg (not_not_intro hb)), fun hg => next_byCore hg (if_neg (not_not_intro hb)),
   fun _ _ _ _ hm hg hl hr hk => next_byCore hg (uqiXpop_removes hb hm hl hr hk)⟩

theorem uqiDqpop_of_not_isHc (hm : isHc m = false) : uqiDqpop m v s = s := by
  unfold uqiDqpop
  split
  · rfl
  · cases m with
    | hc0 => exact Bool.noConfusion hm
    | hc1 => exact Bool.noConfusion hm
    | sec => rfl
    | mc => rfl
    | sv => rfl

/-! ### Registers that a master does not have, and those of SEC (R410, R414) -/

theorem foreign_clauses {p : BitVec 4} {r : BitVec 6} {e : List RmeErr} (hg : gated s m = false) :
    (m ≠ .sv → exec (.ordAck m v) s = .next s) ∧
    (m = .sv → exec (.ordRequest m v e) s = .next s ∧ exec (.ordRespop m) s = .next s) ∧
    (m ≠ .sec → exec (.ordShareWrite m p v) s = .next s ∧ exec (.rpartyWrite m r v) s = .next s ∧
      exec (.pcfgWrite m p v) s = .next s) ∧
    (m ≠ .sec → m ≠ .mc → exec (.hwordWrite m v) s = .next s) ∧
    (isHc m = false → exec (.uqiCpost m v) s = .next s ∧ exec (.uqiXcmd m v) s = .next s ∧ exec (.uqiXpop m v) s = .next s ∧
      exec (.uqiDqpop m v) s = .next s) :=
  ⟨fun h => next_byCore hg (if_pos h),
   fun h => ⟨next_byCore hg (if_pos h), next_byCore hg (if_pos h)⟩,
   fun h => ⟨next_byCore hg (if_pos (Or.inl h)), next_byCore hg (if_neg fun hc => h hc.1),
     next_byCore hg (if_neg fun hc => h hc.1)⟩,
   fun hsec hmc => next_byCore hg (if_neg fun hc => hc.1.elim hsec hmc),
   fun h => ⟨next_byCore hg (if_pos (by simp [h])), next_byCore hg (if_pos (by simp [h])),
     next_byCore hg (if_neg (by simp [h])), next_byCore hg (uqiDqpop_of_not_isHc h)⟩⟩

theorem partyWrite_clauses {r : BitVec 6} {p : BitVec 4} (hl : s.on F.ISO_STAT_LOCKED = false) :
    (sqOn s r.toNat = true ∨ cqOn s r.toNat = true → exec (.rpartyWrite .sec r v) s = .next s) ∧
    (partyRings s p.toNat = true → exec (.pcfgWrite .sec p v) s = .next s) ∧
    (sqOn s r.toNat = false → cqOn s r.toNat = false →
      exec (.rpartyWrite .sec r v) s = .next (s.wr (R.UQI_RPARTY r.toNat) (v &&& 0xF0F))) ∧
    (partyRings s p.toNat = false → exec (.pcfgWrite .sec p v) s = .next (s.wr (R.UQI_PCFG p.toNat) (v &&& 1))) := by
  have hiso : ¬ isoLocked s = true := by simp [isoLocked, hl]
  exact ⟨fun h => next_byCore gated_sec (if_neg fun ⟨_, _, hs, hc⟩ => h.elim hs hc),
    fun h => next_byCore gated_sec (if_neg fun ⟨_, _, hp⟩ => hp h),
    fun hs hc => next_byCore gated_sec (if_pos ⟨rfl, hiso, by simp [hs], by simp [hc]⟩),
    fun hp => next_byCore gated_sec (if_pos ⟨rfl, hiso, by simp [hp]⟩)⟩

end Orderer

/-! ### O51 -/

/-- Settles O51, clause by clause. -/
theorem ordererAndCoreQueueCommandsComplete : Obligations.OrdererAndCoreQueueCommandsComplete := by
  unfold Obligations.OrdererAndCoreQueueCommandsComplete
  exact ⟨fun m v e b s => ordRequest_clauses,
    fun o s hm hv ha hc => congrArg Host.Outcome.next (ordSelectTarget_posts hm hv ha hc),
    fun v s => ordAck_clauses, fun m p r v e s => foreign_clauses,
    fun x l e s hq hw ha hn => ⟨cleanRequest s x e, congrArg Host.Outcome.next (ordClqTake_takes hq hw ha hn),
      rfl, rfl, rfl, rfl, rfl, rfl⟩,
    fun s l hl => congrArg Host.Outcome.next (ordUrgent_ages hl),
    fun m r l s hm hg hl => next_byCore hg (ordRespop_removes hm hl), fun p v n s => ordShareWrite_clauses,
    fun m v s hm hg hc ht => next_byCore hg (hwordWrite_idle hm hc ht), fun m v k s => uqiCpost_clauses,
    fun m v k n s => uqiXcmd_clauses, fun m v s hm hg hk => next_byCore hg (uqiCpost_noCmd hm hk),
    fun v s => pop_clauses, fun r p v s => partyWrite_clauses⟩

end Sys2Proof.Proofs

/-! PROOFS. The isolation lock (O52): each answer of the check is the first condition of Table 17.2 that fails, and a check
that fails writes the answer alone. -/

namespace Sys2Proof.Proofs

open Sys2Proof Sys2Proof.Machine

section IsolationLock

variable {s u : State}

theorem exec_isoLock : exec (.isoLock .sec) s = .next s.isoLock := next_byCore gated_sec (if_pos rfl)

theorem isoLock_refused {r p : Nat} (h : isoCheck s = (r, p)) (hr : r ≠ 0) :
    exec (.isoLock .sec) s = .next ((s.put F.ISO_STAT_RES r).put F.ISO_STAT_PARTY p) := by
  rw [exec_isoLock, State.isoLock, h]
  exact congrArg Host.Outcome.next (if_neg hr)

theorem isoLock_locks (h : isoCheck s = (0, 0)) (hu : u = (s.put F.ISO_STAT_RES 0).put F.ISO_STAT_PARTY 0) :
    exec (.isoLock .sec) s = .next (((u.raiseBit F.ISO_STAT_LOCKED).raiseBit F.ISO_CTL_LOCK).event 0x0501 0xFF
      (leBytes 2 (u.get F.FIRN_DTOTAL_DTOTAL) ++ leBytes 2 (rmeUsed u true) ++ (List.range 16).flatMap (isoParty u))) := by
  rw [exec_isoLock, State.isoLock, h]
  subst hu
  exact congrArg Host.Outcome.next (if_pos rfl)

/-! ### The conditions in order -/

/-- The conditions that hold once LOCKED, the images, the partition, the windows and the data movers are right. -/
structure LockReady (s : State) : Prop where
  unlocked : s.on F.ISO_STAT_LOCKED = false
  images : s.on F.SST_STAT_ALLOK = true
  partition : s.on F.FIRN_STAT_PLOCKED = true
  windows : s.on F.RME_STAT_WLOCKED = true
  unfaulted : s.bit F.RME_STAT_CHFAULT 1 = false
  cfgLocked : s.on F.DMA_CTL_CFGLOCK = true
  xts : s.on F.DMA_CTL_XTSREQ = true

theorem isoCheck_locked (h : s.on F.ISO_STAT_LOCKED = true) : isoCheck s = (7, 0) := if_pos h

theorem isoCheck_images (ho : s.on F.ISO_STAT_LOCKED = false) (h : s.on F.SST_STAT_ALLOK = false) : isoCheck s = (1, 0) := by
  rw [isoCheck, if_neg (by simp [ho]), if_pos (by simp [h])]

theorem isoCheck_partition (ho : s.on F.ISO_STAT_LOCKED = false) (hi : s.on F.SST_STAT_ALLOK = true)
    (h : s.on F.FIRN_STAT_PLOCKED = false) : isoCheck s = (2, 0) := by
  rw [isoCheck, if_neg (by simp [ho]), if_neg (by simp [hi]), if_pos (by simp [h])]

theorem isoCheck_windows (ho : s.on F.ISO_STAT_LOCKED = false) (hi : s.on F.SST_STAT_ALLOK = true)
    (hp : s.on F.FIRN_STAT_PLOCKED = true) (h : s.on F.RME_STAT_WLOCKED = false ∨ s.bit F.RME_STAT_CHFAULT 1 = true) :
    isoCheck s = (3, 0) := by
  rw [isoCheck, if_neg (by simp [ho]), if_neg (by simp [hi]), if_neg (by simp [hp]), if_pos (by simpa using h)]

theorem isoCheck_dma (ho : s.on F.ISO_STAT_LOCKED = false) (hi : s.on F.SST_STAT_ALLOK = true)
    (hp : s.on F.FIRN_STAT_PLOCKED = true) (hw : s.on F.RME_STAT_WLOCKED = true) (hf : s.bit F.RME_STAT_CHFAULT 1 = false)
    (h : s.on F.DMA_CTL_CFGLOCK = false ∨ s.on F.DMA_CTL_XTSREQ = false) : isoCheck s = (4, 0) := by
  rw [isoCheck, if_neg (by simp [ho]), if_neg (by simp [hi]), if_neg (by simp [hp]), if_neg (by simp [hw, hf]),
    if_pos (by simpa using h)]

/-- Party `p` is in use and its key slot is not READY. -/
def keyless (s : State) (p : Nat) : Bool := partyActive s p && !s.on (F.CRY_SLOT_READY p)

theorem keyless_iff {p : Nat} : keyless s p = true ↔ partyActive s p = true ∧ s.on (F.CRY_SLOT_READY p) = false := by
  simp [keyless]

/-- Some ring's two sides belong to different parties. -/
def splitRing (s : State) : Bool :=
  (List.range 64).any fun n => s.get (F.UQI_RPARTY_SQPARTY n) != s.get (F.UQI_RPARTY_CQPARTY n)

theorem isoCheck_of_ready (h : LockReady s) : isoCheck s =
    ((List.range 16).find? (keyless s)).elim (if splitRing s then (6, 0) else (0, 0)) fun p => (5, p) := by
  have hrest : isoCheck s = (match (List.range 16).find? (keyless s) with
    | some p => (5, p)
    | none => if splitRing s then (6, 0) else (0, 0)) :=
    (if_neg (by simp [h.unlocked])).trans <| (if_neg (by simp [h.images])).trans <| (if_neg (by simp [h.partition])).trans <|
      (if_neg (by simp [h.windows, h.unfaulted])).trans (if_neg (by simp [h.cfgLocked, h.xts]))
  rw [hrest]
  cases (List.range 16).find? (keyless s) with
  | none => rfl
  | some p => rfl

theorem isoCheck_key {p : Nat} (h : LockReady s) (hp : p < 16) (ha : partyActive s p = true)
    (hk : s.on (F.CRY_SLOT_READY p) = false)
    (hq : ∀ q, q < p → partyActive s q = true → s.on (F.CRY_SLOT_READY q) = true) : isoCheck s = (5, p) := by
  have hfind : (List.range 16).find? (keyless s) = some p := by
    refine List.find?_range_eq_some.mpr ⟨keyless_iff.mpr ⟨ha, hk⟩, List.mem_range.mpr hp, fun q hlt => ?_⟩
    cases hb : keyless s q with
    | false => rfl
    | true =>
      obtain ⟨hact, hkey⟩ := keyless_iff.mp hb
      exact Bool.noConfusion (hkey.symm.trans (hq q hlt hact))
  rw [isoCheck_of_ready h, hfind, Option.elim_some]

theorem isoCheck_keyed (h : LockReady s)
    (hk : ∀ p, p < 16 → partyActive s p = true → s.on (F.CRY_SLOT_READY p) = true) :
    isoCheck s = if splitRing s then (6, 0) else (0, 0) := by
  have hfind : (List.range 16).find? (keyless s) = none := List.find?_eq_none.mpr fun p hp hb => by
    obtain ⟨hact, hkey⟩ := keyless_iff.mp hb
    exact Bool.noConfusion (hkey.symm.trans (hk p (List.mem_range.mp hp) hact))
  rw [isoCheck_of_ready h, hfind, Option.elim_none]

theorem splitRing_iff : splitRing s = true ↔
    ∃ n, n < 64 ∧ s.get (F.UQI_RPARTY_SQPARTY n) ≠ s.get (F.UQI_RPARTY_CQPARTY n) := by
  simp only [splitRing, List.any_eq_true, List.mem_range, bne_iff_ne]

theorem not_splitRing (h : ∀ n, n < 64 → s.get (F.UQI_RPARTY_SQPARTY n) = s.get (F.UQI_RPARTY_CQPARTY n)) :
    ¬ splitRing s = true := fun hs => by
  obtain ⟨n, hn, hne⟩ := splitRing_iff.mp hs
  exact hne (h n hn)

end IsolationLock

/-! ### O52 -/

/-- Settles O52: the check's answer in each case of Table 17.2, then what the answer does. -/
theorem isolationLockChecksItsConditions : Obligations.IsolationLockChecksItsConditions := by
  unfold Obligations.IsolationLockChecksItsConditions
  refine ⟨fun s => ⟨fun h => isoLock_refused (isoCheck_locked h) (by decide), fun ho =>
    ⟨fun h => isoLock_refused (isoCheck_images ho h) (by decide), fun hi =>
    ⟨fun h => isoLock_refused (isoCheck_partition ho hi h) (by decide), fun hp =>
    ⟨fun h => isoLock_refused (isoCheck_windows ho hi hp h) (by decide), fun hw hf =>
    ⟨fun h => isoLock_refused (isoCheck_dma ho hi hp hw hf h) (by decide), fun hc hx => ?_⟩⟩⟩⟩⟩,
    fun m s hm hg => next_byCore hg (if_neg hm)⟩
  have hready : LockReady s := ⟨ho, hi, hp, hw, hf, hc, hx⟩
  refine ⟨fun p h16 ha hk hq => isoLock_refused (isoCheck_key hready h16 ha hk hq) (by decide), fun hkeys =>
    ⟨fun h => isoLock_refused ((isoCheck_keyed hready hkeys).trans (if_pos (splitRing_iff.mpr h))) (by decide),
     fun h => ⟨_, rfl, isoLock_locks ((isoCheck_keyed hready hkeys).trans (if_neg (not_splitRing h))) rfl⟩⟩⟩

end Sys2Proof.Proofs

/-! PROOFS. The I3C targets and the task-register file (O53): a CCC reaches the targets that it addresses and no other, a
transfer to the task target acts word by word, and a command's completion writes STAT. -/

namespace Sys2Proof.Proofs

open Sys2Proof Sys2Proof.Machine

/-! ### A target is replaced (R426) -/

section Targets

variable {s : State} {b : Bool}

/-- The fields of MGT_STAT that show a target's dynamic address. -/
def shownAddr (b : Bool) (t : I3cTarget) : List (Fld × Nat) :=
  [(if b then F.MGT_STAT_VDAV else F.MGT_STAT_DAV, if t.addr.isSome then 1 else 0),
    (if b then F.MGT_STAT_VDA else F.MGT_STAT_DA, (t.addr.map BitVec.toNat).getD 0)]

theorem setTarget_eq (t : I3cTarget) : s.setTarget b t =
    puts (shownAddr b t) (s.onMgt fun g => if b then { g with mctp := t } else { g with task := t }) := by
  cases b <;> rfl

theorem i3cTarget_setTarget_same (t : I3cTarget) : i3cTarget (s.setTarget b t) b = t := by
  cases b <;> rfl

theorem i3cTarget_setTarget_other (t : I3cTarget) : i3cTarget (s.setTarget b t) (!b) = i3cTarget s (!b) := by
  cases b <;> rfl

theorem regsWf_setTarget (hs : s.regsWf = true) (t : I3cTarget) : (s.setTarget b t).regsWf = true := by
  rw [setTarget_eq]
  exact regsWf_puts (s := s.onMgt _) hs _

/-- A target's address is shown, and no register but MGT_STAT changes. -/
theorem get_setTarget (hs : s.regsWf = true) (t : I3cTarget) {f : Fld} (hf : fldOk f = true) (hr : f.reg ≠ R.MGT_STAT) :
    (s.setTarget b t).get f = s.get f := by
  rw [setTarget_eq]
  refine get_puts_apart (s := s.onMgt _) hs hf ?_
  have happart : ∀ g : Fld, g.reg = R.MGT_STAT → fldApart g f = true := fun g hg => by
    simp [fldApart, hg, Ne.symm hr]
  cases b <;> simp only [shownAddr, List.all_cons, List.all_nil, Bool.and_true, Bool.and_eq_true] <;>
    exact ⟨⟨by decide, happart _ rfl⟩, ⟨by decide, happart _ rfl⟩⟩

theorem i3cOn_setTarget (hs : s.regsWf = true) (t : I3cTarget) : i3cOn (s.setTarget b t) = i3cOn s := by
  simp only [i3cOn, State.mode, get_setTarget hs t (show fldOk F.PCM_MODE_MODE = true by decide) (by decide)]

theorem staticAddr_setTarget (hs : s.regsWf = true) (t : I3cTarget) (c : Bool) :
    staticAddr (s.setTarget b t) c = staticAddr s c := by
  simp only [staticAddr, get_setTarget hs t (show fldOk F.PMX_STRAP_I3C_SA = true by decide) (by decide)]

theorem shown_setTarget (hs : s.regsWf = true) (t : I3cTarget) (a : BitVec 7) (ha : t.addr = some a) :
    (s.setTarget b t).on (if b then F.MGT_STAT_VDAV else F.MGT_STAT_DAV) = true ∧
    (s.setTarget b t).get (if b then F.MGT_STAT_VDA else F.MGT_STAT_DA) = a.toNat := by
  have hapart : putsApart (shownAddr b t) = true := by cases b <;> rfl
  have hvalid : (s.setTarget b t).get (if b then F.MGT_STAT_VDAV else F.MGT_STAT_DAV) = 1 := by
    rw [setTarget_eq]
    refine (get_puts_of_mem (s := s.onMgt _) hs hapart (n := 1) ?_).trans (by cases b <;> rfl)
    simp [shownAddr, ha]
  have haddr : (s.setTarget b t).get (if b then F.MGT_STAT_VDA else F.MGT_STAT_DA) = a.toNat := by
    rw [setTarget_eq]
    refine (get_puts_of_mem (s := s.onMgt _) hs hapart (n := a.toNat) ?_).trans ?_
    · simp [shownAddr, ha]
    · cases b <;> exact Nat.mod_eq_of_lt a.isLt
  exact ⟨(congrArg (· != 0) hvalid).trans rfl, haddr⟩

/-- The two static addresses differ, whatever the strap. -/
theorem staticAddr_ne : staticAddr s b ≠ staticAddr s (!b) := by
  have hlt : s.get F.PMX_STRAP_I3C_SA < 4 := Nat.mod_lt _ (by decide)
  intro h
  have hn := congrArg BitVec.toNat h
  cases b <;> simp only [staticAddr, BitVec.toNat_ofNat, Bool.not_false, Bool.not_true, if_true, Bool.false_eq_true,
    if_false] at hn <;> omega

/-! ### Addresses are given (R426) -/

theorem entdaa_takes {a : BitVec 7} (hon : i3cOn s = true) (hn : (i3cTarget s b).addr = none) :
    entdaa b a s = s.setTarget b { i3cTarget s b with addr := some a } :=
  if_pos ⟨hon, by simp [hn]⟩

/-- SETDASA at one target. -/
def dasaStep (static a : BitVec 7) (b : Bool) (s : State) : State :=
  if i3cOn s ∧ (i3cTarget s b).addr.isNone ∧ static = staticAddr s b then
    s.setTarget b { i3cTarget s b with addr := some a } else s

theorem setdasa_eq (static a : BitVec 7) : setdasa static a s = dasaStep static a true (dasaStep static a false s) := rfl

theorem dasaStep_takes {a : BitVec 7} (hon : i3cOn s = true) (hn : (i3cTarget s b).addr = none) :
    dasaStep (staticAddr s b) a b s = s.setTarget b { i3cTarget s b with addr := some a } :=
  if_pos ⟨hon, by simp [hn], rfl⟩

theorem dasaStep_other {static a : BitVec 7} (h : static ≠ staticAddr s b) : dasaStep static a b s = s :=
  if_neg fun hc => h hc.2.2

theorem setdasa_takes {a : BitVec 7} (hs : s.regsWf = true) (hon : i3cOn s = true) (hn : (i3cTarget s b).addr = none) :
    setdasa (staticAddr s b) a s = s.setTarget b { i3cTarget s b with addr := some a } := by
  rw [setdasa_eq]
  cases b with
  | false =>
    rw [dasaStep_takes hon hn]
    exact dasaStep_other (by rw [staticAddr_setTarget hs]; exact staticAddr_ne (b := false))
  | true => rw [dasaStep_other (b := false) (staticAddr_ne (b := true)), dasaStep_takes hon hn]

theorem address_clauses {a : BitVec 7} (hon : i3cOn s = true) (hn : (i3cTarget s b).addr = none) (hs : s.regsWf = true) :
    ∃ t : State, exec (.entdaa b a) s = .next t ∧ exec (.setdasa (staticAddr s b) a) s = .next t ∧
      i3cTarget t b = { i3cTarget s b with addr := some a } ∧ i3cTarget t (!b) = i3cTarget s (!b) ∧
      t.on (if b then F.MGT_STAT_VDAV else F.MGT_STAT_DAV) = true ∧
      t.get (if b then F.MGT_STAT_VDA else F.MGT_STAT_DA) = a.toNat :=
  ⟨_, congrArg Host.Outcome.next (entdaa_takes hon hn), congrArg Host.Outcome.next (setdasa_takes hs hon hn),
    i3cTarget_setTarget_same _, i3cTarget_setTarget_other _, shown_setTarget hs _ a rfl⟩

theorem setnewda_takes {a c : BitVec 7} (h : answering s a = some b) :
    setnewda a c s = s.setTarget b { i3cTarget s b with addr := some c } := by
  rw [setnewda, h]

/-! ### CCCs that set (R426, R427) -/

/-- A CCC at an address, or by broadcast, at one target. -/
def cccStep (a : Option (BitVec 7)) (f : I3cTarget → I3cTarget) (b : Bool) (s : State) : State :=
  if i3cOn s ∧ (i3cTarget s b).addr.isSome ∧ (a = none ∨ a = (i3cTarget s b).addr) then s.setTarget b (f (i3cTarget s b))
  else s

theorem cccSet_eq (a : Option (BitVec 7)) (f : I3cTarget → I3cTarget) :
    s.cccSet a f = cccStep a f true (cccStep a f false s) := rfl

/-- The CCC reaches the target. -/
def cccReaches (a : Option (BitVec 7)) (t : I3cTarget) : Prop := t.addr ≠ none ∧ (a = none ∨ a = t.addr)

/-- What a CCC makes of a target. -/
def IsAnswer (a : Option (BitVec 7)) (f : I3cTarget → I3cTarget) (old new : I3cTarget) : Prop :=
  (cccReaches a old → new = f old) ∧ (¬ cccReaches a old → new = old)

theorem cccStep_frame (hs : s.regsWf = true) (a : Option (BitVec 7)) (f : I3cTarget → I3cTarget) :
    (cccStep a f b s).regsWf = true ∧ i3cOn (cccStep a f b s) = i3cOn s ∧
    i3cTarget (cccStep a f b s) (!b) = i3cTarget s (!b) := by
  unfold cccStep
  split
  · exact ⟨regsWf_setTarget hs _, i3cOn_setTarget hs _, i3cTarget_setTarget_other _⟩
  · exact ⟨hs, rfl, rfl⟩

theorem cccStep_answer (hon : i3cOn s = true) (a : Option (BitVec 7)) (f : I3cTarget → I3cTarget) :
    IsAnswer a f (i3cTarget s b) (i3cTarget (cccStep a f b s) b) := by
  unfold cccStep
  split
  next h =>
    obtain ⟨-, hsome, ha⟩ := h
    exact ⟨fun _ => i3cTarget_setTarget_same _, fun hn => absurd ⟨Option.isSome_iff_ne_none.mp hsome, ha⟩ hn⟩
  next h =>
    exact ⟨fun hr => absurd ⟨hon, Option.isSome_iff_ne_none.mpr hr.1, hr.2⟩ h, fun _ => rfl⟩

theorem cccSet_answer (hs : s.regsWf = true) (hon : i3cOn s = true) (a : Option (BitVec 7)) (f : I3cTarget → I3cTarget)
    (b : Bool) : IsAnswer a f (i3cTarget s b) (i3cTarget (s.cccSet a f) b) := by
  obtain ⟨hs', hon', hother⟩ := cccStep_frame (b := false) hs a f
  rw [cccSet_eq]
  cases b with
  | false =>
    obtain ⟨-, -, hkept⟩ := cccStep_frame (b := true) hs' a f
    have hsame : i3cTarget (cccStep a f true (cccStep a f false s)) false = i3cTarget (cccStep a f false s) false := hkept
    rw [hsame]
    exact cccStep_answer hon a f
  | true =>
    have hsame : i3cTarget (cccStep a f false s) true = i3cTarget s true := hother
    have hans := cccStep_answer (b := true) (hon'.trans hon) a f
    rwa [hsame] at hans

theorem rstdaa_clauses (hon : i3cOn s = true) (hs : s.regsWf = true) : ∃ t : State, exec .rstdaa s = .next t ∧
    t.mgt.task.addr = none ∧ t.mgt.mctp.addr = none := by
  have hgone : ∀ b, (i3cTarget (s.cccSet none fun t => { t with addr := none }) b).addr = none := by
    intro b
    obtain ⟨hyes, hno⟩ := cccSet_answer hs hon none (fun t => { t with addr := none }) b
    by_cases h : (i3cTarget s b).addr = none
    · rw [hno fun hr => hr.1 h, h]
    · rw [hyes ⟨h, .inl rfl⟩]
  exact ⟨_, rfl, hgone false, hgone true⟩

theorem lenOk_iff {n : BitVec 16} : lenOk n = true ↔ 16 ≤ n.toNat ∧ n.toNat ≤ 4100 := by
  simp [lenOk]

theorem ccc_clauses {a : Option (BitVec 7)} {e : BitVec 8} {n : BitVec 16} (hon : i3cOn s = true) (hs : s.regsWf = true) :
    ∃ t u v w : State, exec (.enec a e) s = .next t ∧ exec (.disec a e) s = .next u ∧ exec (.setmwl a n) s = .next v ∧
    exec (.setmrl a n) s = .next w ∧
    ((i3cTarget s b).addr ≠ none → a = none ∨ a = (i3cTarget s b).addr →
      i3cTarget t b = { i3cTarget s b with ibi := (i3cTarget s b).ibi || e.getLsbD 0 } ∧
      i3cTarget u b = { i3cTarget s b with ibi := (i3cTarget s b).ibi && !e.getLsbD 0 } ∧
      (16 ≤ n.toNat → n.toNat ≤ 4100 → i3cTarget v b = { i3cTarget s b with mwl := n.toNat } ∧
        i3cTarget w b = { i3cTarget s b with mrl := n.toNat }) ∧
      (n.toNat < 16 ∨ 4100 < n.toNat → i3cTarget v b = i3cTarget s b ∧ i3cTarget w b = i3cTarget s b)) ∧
    ((i3cTarget s b).addr = none ∨ (a ≠ none ∧ a ≠ (i3cTarget s b).addr) →
      i3cTarget t b = i3cTarget s b ∧ i3cTarget u b = i3cTarget s b ∧ i3cTarget v b = i3cTarget s b ∧
      i3cTarget w b = i3cTarget s b) := by
  obtain ⟨htyes, htno⟩ := cccSet_answer hs hon a (fun t => { t with ibi := t.ibi || e.getLsbD 0 }) b
  obtain ⟨huyes, huno⟩ := cccSet_answer hs hon a (fun t => { t with ibi := t.ibi && !e.getLsbD 0 }) b
  obtain ⟨hvyes, hvno⟩ := cccSet_answer hs hon a (fun t => if lenOk n then { t with mwl := n.toNat } else t) b
  obtain ⟨hwyes, hwno⟩ := cccSet_answer hs hon a (fun t => if lenOk n then { t with mrl := n.toNat } else t) b
  refine ⟨_, _, _, _, rfl, rfl, rfl, rfl, fun hn ha => ?_, fun h => ?_⟩
  · have hr : cccReaches a (i3cTarget s b) := ⟨hn, ha⟩
    refine ⟨htyes hr, huyes hr, fun hlo hhi => ?_, fun hout => ?_⟩
    · have hok : lenOk n = true := lenOk_iff.mpr ⟨hlo, hhi⟩
      exact ⟨(hvyes hr).trans (if_pos hok), (hwyes hr).trans (if_pos hok)⟩
    · have hbad : ¬ lenOk n = true := fun h => by
        have := lenOk_iff.mp h
        omega
      exact ⟨(hvyes hr).trans (if_neg hbad), (hwyes hr).trans (if_neg hbad)⟩
  · have hr : ¬ cccReaches a (i3cTarget s b) := fun hr => h.elim hr.1 fun hne => hr.2.elim hne.1 hne.2
    exact ⟨htno hr, huno hr, hvno hr, hwno hr⟩

/-! ### CCCs that get (R426) -/

theorem cccGet_some {a : BitVec 7} {f : Bool → List Byte} (h : answering s a = some b) :
    s.cccGet a f = s.emit (.i3c (f b)) := by
  rw [State.cccGet, h]

theorem cccGet_none {a : BitVec 7} {f : Bool → List Byte} (h : answering s a = none) : s.cccGet a f = s := by
  rw [State.cccGet, h]

theorem get_clauses {a : BitVec 7} (h : answering s a = some b) :
    exec (.getpid a) s = .next (s.emit (.i3c (beBytes 6 (0x0F3A * 2 ^ 33 + 0x7640 * 2 ^ 16 +
      (s.get F.PMX_STRAP_I3C_SA + (if b then 8 else 0)) * 2 ^ 12)))) ∧
    exec (.getbcr a) s = .next (s.emit (.i3c [if b then 0x16 else 0x06])) ∧ exec (.getdcr a) s = .next (s.emit (.i3c [0])) ∧
    exec (.getstatus a) s = .next (s.emit (.i3c [0, 0])) ∧
    exec (.getmwl a) s = .next (s.emit (.i3c (beBytes 2 (i3cTarget s b).mwl))) ∧
    exec (.getmrl a) s = .next (s.emit (.i3c (beBytes 2 (i3cTarget s b).mrl ++ [1]))) :=
  ⟨congrArg Host.Outcome.next (cccGet_some h), congrArg Host.Outcome.next (cccGet_some h),
   congrArg Host.Outcome.next (cccGet_some h), congrArg Host.Outcome.next (cccGet_some h),
   congrArg Host.Outcome.next (cccGet_some h), congrArg Host.Outcome.next (cccGet_some h)⟩

theorem get_silent_clauses {a : BitVec 7} (h : answering s a = none) :
    exec (.getpid a) s = .next s ∧ exec (.getbcr a) s = .next s ∧ exec (.getdcr a) s = .next s ∧
    exec (.getstatus a) s = .next s ∧ exec (.getmwl a) s = .next s ∧ exec (.getmrl a) s = .next s :=
  ⟨congrArg Host.Outcome.next (cccGet_none h), congrArg Host.Outcome.next (cccGet_none h),
   congrArg Host.Outcome.next (cccGet_none h), congrArg Host.Outcome.next (cccGet_none h),
   congrArg Host.Outcome.next (cccGet_none h), congrArg Host.Outcome.next (cccGet_none h)⟩

end Targets

/-! ### The task-register file (R428 to R430) -/

section TaskRegisters

variable {s : State}

theorem task_on {α : Type} {f g : α} (hon : i3cOn s = true) (ha : s.mgt.task.addr.isSome = true) :
    (if ¬ i3cOn s = true ∨ s.mgt.task.addr.isNone = true then f else g) = g :=
  if_neg (by simp [hon, Option.isSome_iff_ne_none.mp ha])

theorem task_off {α : Type} {f g : α} (h : i3cOn s = false ∨ s.mgt.task.addr = none) :
    (if ¬ i3cOn s = true ∨ s.mgt.task.addr.isNone = true then f else g) = f :=
  if_pos (by simpa using h)

theorem taskPrivateWrite_ovr {k : Byte} {l : List Byte} (hon : i3cOn s = true) (ha : s.mgt.task.addr.isSome = true)
    (hk : 15 < k.toNat) : taskPrivateWrite (k :: l) s = s.trfOvr := by
  refine (task_on hon ha).trans ?_
  cases l with
  | nil => exact if_pos hk
  | cons x l => exact if_pos hk

theorem taskPrivateWrite_index {k : Byte} (hon : i3cOn s = true) (ha : s.mgt.task.addr.isSome = true) (hk : k.toNat ≤ 15) :
    taskPrivateWrite [k] s = s.onMgt fun g => { g with rindex := k.toNat } :=
  (task_on hon ha).trans (if_neg (Nat.not_lt.mpr hk))

/-- A transfer of one word to the target is the write of that word. -/
theorem taskPrivateWrite_word {k b0 b1 b2 b3 : Byte} (hon : i3cOn s = true) (ha : s.mgt.task.addr.isSome = true)
    (hk : k.toNat ≤ 15) : taskPrivateWrite [k, b0, b1, b2, b3] s =
      s.trfWrite k.toNat (BitVec.ofNat 32 (leNat [b0, b1, b2, b3])) :=
  (task_on hon ha).trans (if_neg (Nat.not_lt.mpr hk))

theorem leNat_four (b0 b1 b2 b3 : Byte) :
    leNat [b0, b1, b2, b3] = b0.toNat + 256 * (b1.toNat + 256 * (b2.toNat + 256 * b3.toNat)) := rfl

theorem toNat_leNat_four (b0 b1 b2 b3 : Byte) :
    (BitVec.ofNat 32 (leNat [b0, b1, b2, b3])).toNat = leNat [b0, b1, b2, b3] := by
  have h0 := b0.isLt
  have h1 := b1.isLt
  have h2 := b2.isLt
  have h3 := b3.isLt
  rw [BitVec.toNat_ofNat, leNat_four]
  omega

/-- Byte 1 of a word. -/
theorem bitsOf_leNat_four (b0 b1 b2 b3 : Byte) :
    bitsOf (BitVec.ofNat 32 (leNat [b0, b1, b2, b3])) 15 8 = b1.toNat := by
  have h0 := b0.isLt
  have h1 := b1.isLt
  rw [bitsOf, toNat_leNat_four, leNat_four]
  omega

theorem ofNat_byte_add (b : Byte) (n : Nat) : BitVec.ofNat 8 (b.toNat + 256 * n) = b := by
  have hb := b.isLt
  apply BitVec.eq_of_toNat_eq
  rw [BitVec.toNat_ofNat]
  omega

theorem leBytes_succ_add (b : Byte) (n v : Nat) : leBytes (n + 1) (b.toNat + 256 * v) = b :: leBytes n v := by
  have hdiv : (b.toNat + 256 * v) / 256 = v := by
    have hb := b.isLt
    omega
  rw [leBytes, ofNat_byte_add, hdiv]

/-- The bytes of a little-endian number are the ones it was made of. -/
theorem leBytes_leNat : ∀ l : List Byte, leBytes l.length (leNat l) = l
  | [] => rfl
  | b :: l => by rw [List.length_cons, leNat, leBytes_succ_add, leBytes_leNat l]

theorem trfWrite_held {k : Nat} {v : Word} (hk : k ≤ 7 ∨ k = 15) (hh : trfHeld s = true) : s.trfWrite k v = s.trfOvr := by
  rw [State.trfWrite, if_neg (by omega), if_neg (by omega), if_pos hh]

theorem trfWrite_none {k : Nat} {v : Word} (h9 : 9 ≤ k) (h14 : k ≤ 14) : s.trfWrite k v = s := by
  rw [State.trfWrite, if_neg (by omega), if_pos ⟨h9, h14⟩]

theorem trfWrite_free {k : Nat} {v : Word} (hk : k ≤ 7 ∨ k = 15) (hh : trfHeld s = false) : s.trfWrite k v =
    if k = 0 then
      (((s.wr R.TRF_CMD (v &&& 0xFFFF)).raiseBit F.TRF_STAT_BUSY).put F.TRF_STAT_TAG (bitsOf v 15 8)).raiseBit F.MGT_STAT_CMDPEND
    else if k ≤ 7 then s.wr (R.TRF_ARG (k - 1)) v
    else if dcnt s + 4 ≤ 4096 then s.dataAppend (leBytes 4 v.toNat) else s.trfOvr := by
  rw [State.trfWrite, if_neg (by omega), if_neg (by omega), if_neg (by simp [hh])]

theorem privateWrite_clauses {k b0 b1 b2 b3 : Byte} {l : List Byte} {v : Word} (hon : i3cOn s = true)
    (ha : s.mgt.task.addr.isSome = true) (hv : v = BitVec.ofNat 32 (leNat [b0, b1, b2, b3])) :
    (15 < k.toNat → exec (.taskPrivateWrite (k :: l)) s = .next s.trfOvr) ∧
    (k.toNat ≤ 15 → exec (.taskPrivateWrite [k]) s = .next (s.onMgt fun g => { g with rindex := k.toNat })) ∧
    (trfHeld s = true → k.toNat ≤ 7 ∨ k.toNat = 15 → exec (.taskPrivateWrite [k, b0, b1, b2, b3]) s = .next s.trfOvr) ∧
    (9 ≤ k.toNat → k.toNat ≤ 14 → exec (.taskPrivateWrite [k, b0, b1, b2, b3]) s = .next s) ∧
    (trfHeld s = false →
      (exec (.taskPrivateWrite [0, b0, b1, b2, b3]) s = .next ((((s.wr R.TRF_CMD (v &&& 0xFFFF)).raiseBit F.TRF_STAT_BUSY).put
        F.TRF_STAT_TAG b1.toNat).raiseBit F.MGT_STAT_CMDPEND)) ∧
      (1 ≤ k.toNat → k.toNat ≤ 7 →
        exec (.taskPrivateWrite [k, b0, b1, b2, b3]) s = .next (s.wr (R.TRF_ARG (k.toNat - 1)) v)) ∧
      (dcnt s + 4 ≤ 4096 → exec (.taskPrivateWrite [15, b0, b1, b2, b3]) s = .next (s.dataAppend [b0, b1, b2, b3]))) := by
  have hword : ∀ {j : Byte} {t : State}, j.toNat ≤ 15 → s.trfWrite j.toNat v = t →
      exec (.taskPrivateWrite [j, b0, b1, b2, b3]) s = .next t := fun hj ht =>
    congrArg Host.Outcome.next ((taskPrivateWrite_word hon ha hj).trans (hv ▸ ht))
  refine ⟨fun hk => congrArg Host.Outcome.next (taskPrivateWrite_ovr hon ha hk),
    fun hk => congrArg Host.Outcome.next (taskPrivateWrite_index hon ha hk),
    fun hh hk => hword (by omega) (trfWrite_held hk hh), fun h9 h14 => hword (by omega) (trfWrite_none h9 h14),
    fun hh => ⟨hword (by decide) ?_, fun h1 h7 => hword (by omega) ?_, fun hc => hword (by decide) ?_⟩⟩
  · rw [trfWrite_free (.inl (by decide)) hh, if_pos (show (0 : Byte).toNat = 0 by decide), hv, bitsOf_leNat_four]
  · rw [trfWrite_free (.inl h7) hh, if_neg (by omega), if_pos h7]
  · rw [trfWrite_free (.inr (by decide)) hh, if_neg (by decide), if_neg (by decide), if_pos hc, hv, toNat_leNat_four]
    exact congrArg s.dataAppend (leBytes_leNat [b0, b1, b2, b3])

/-! ### Reads of the task target -/

/-- A read of one word sends it. -/
theorem taskPrivateRead_word (hon : i3cOn s = true) (ha : s.mgt.task.addr.isSome = true) :
    taskPrivateRead 1 s = (s.trfRead s.mgt.rindex).2.emit (.i3c (s.trfRead s.mgt.rindex).1) := by
  have hone : State.trfReads 1 s.mgt.rindex s = ((s.trfRead s.mgt.rindex).1 ++ [], (s.trfRead s.mgt.rindex).2) := rfl
  have hreads : taskPrivateRead 1 s = (State.trfReads 1 s.mgt.rindex s).2.emit (.i3c (State.trfReads 1 s.mgt.rindex s).1) :=
    task_on hon ha
  rw [hreads, hone, List.append_nil]

theorem length_readList {α : Type} (d : Nat → α) (m : List (Nat × α)) : ∀ k n : Nat, (Sparse.readList d m k n).length = n
  | _, 0 => rfl
  | k, n + 1 => by rw [Sparse.readList, List.length_cons, length_readList d m (k + 1) n]

theorem poolBytes_length (a n : Nat) : (s.poolBytes a n).length = n := by
  unfold State.poolBytes
  split
  · exact length_readList _ _ _ _
  · simp

theorem dataBuf_length (n : Nat) : (dataBuf s n).length = n := by
  rw [dataBuf, length_flatMap_const (fun _ => poolBytes_length _ 1), List.length_range, Nat.one_mul]

theorem slice_whole (l : List Byte) : slice l 0 l.length = l := by
  simp [slice]

theorem trfRead_data (h : s.mgt.rindex = 15) : s.trfRead s.mgt.rindex =
    (slice (dataBuf s (Nat.min 4 (dcnt s))) 0 4, (s.put F.TRF_DCNT_DCNT (dcnt s - Nat.min 4 (dcnt s))).onMgt fun g =>
      { g with dpos := g.dpos + Nat.min 4 (dcnt s) }) := by
  rw [State.trfRead, if_neg (by omega)]

theorem privateRead_clauses (hon : i3cOn s = true) (ha : s.mgt.task.addr.isSome = true) :
    (s.mgt.rindex < 15 →
      exec (.taskPrivateRead 1) s = .next (s.emit (.i3c (leBytes 4 (s.rd (R.TRF_CMD + 4 * s.mgt.rindex)).toNat)))) ∧
    (s.mgt.rindex = 15 → 4 ≤ dcnt s → exec (.taskPrivateRead 1) s = .next (((s.put F.TRF_DCNT_DCNT (dcnt s - 4)).onMgt fun g =>
      { g with dpos := g.dpos + 4 }).emit (.i3c (dataBuf s 4)))) ∧
    (s.mgt.rindex = 15 → dcnt s = 0 → ∃ t : State, exec (.taskPrivateRead 1) s = .next t ∧ t.out = s.out ++ [.i3c (zeros 4)] ∧
      t.mgt = s.mgt) := by
  have hread := taskPrivateRead_word hon ha
  refine ⟨fun hr => congrArg Host.Outcome.next (hread.trans ?_), fun hr hd => congrArg Host.Outcome.next (hread.trans ?_),
    fun hr hd => ⟨_, congrArg Host.Outcome.next hread, ?_⟩⟩
  · rw [State.trfRead, if_pos hr]
  · have hmin : Nat.min 4 (dcnt s) = 4 := Nat.min_eq_left hd
    have hslice : slice (dataBuf s 4) 0 4 = dataBuf s 4 := by
      have h := slice_whole (dataBuf s 4)
      rwa [dataBuf_length] at h
    rw [trfRead_data hr, hmin, hslice]
  · have hmin : Nat.min 4 (dcnt s) = 0 := by rw [hd]; rfl
    rw [trfRead_data hr, hmin]
    exact ⟨rfl, rfl⟩

/-! ### STAT, MGT_TAKE and MGT_DONE (R430, R431, R449) -/

theorem doneClear_clauses {v : Word} (hon : i3cOn s = true) (ha : s.mgt.task.addr.isSome = true) :
    (v.getLsbD 3 = false → v.getLsbD 1 = true → s.on F.TRF_STAT_DONE = true → exec (.doneClear v) s =
      .next ((((s.clr F.TRF_STAT_DONE).clr F.TRF_STAT_DATARDY).clr F.TRF_STAT_RESULT).dataEmpty)) ∧
    (v.getLsbD 3 = true → v.getLsbD 1 = false → exec (.doneClear v) s = .next (s.clr F.TRF_STAT_OVR)) := by
  have hstat : doneClear v s = s.trfStat v := task_on hon ha
  refine ⟨fun h3 h1 hd => congrArg Host.Outcome.next (hstat.trans ?_),
    fun h3 h1 => congrArg Host.Outcome.next (hstat.trans ?_)⟩
  · rw [State.trfStat, h3, h1, if_neg Bool.false_ne_true, if_pos ⟨rfl, hd⟩]
  · rw [State.trfStat, h3, h1, if_pos rfl]
    exact if_neg fun h => Bool.false_ne_true h.1

theorem offBus_clauses {l : List Byte} {n : BitVec 11} {v : Word} (h : i3cOn s = false ∨ s.mgt.task.addr = none) :
    exec (.taskPrivateWrite l) s = .next s ∧ exec (.taskPrivateRead n) s = .next s ∧ exec (.doneClear v) s = .next s := by
  have hwrite : taskPrivateWrite l s = s := task_off h
  have hread : taskPrivateRead n s = s := task_off h
  have hclear : doneClear v s = s := task_off h
  exact ⟨congrArg Host.Outcome.next hwrite, congrArg Host.Outcome.next hread, congrArg Host.Outcome.next hclear⟩

/-- What a command's completion writes. -/
def doneFields (result : Nat) (datardy : Bool) : List (Fld × Nat) :=
  [(F.TRF_STAT_RESULT, result), (F.TRF_STAT_DATARDY, if datardy then 1 else 0), (F.TRF_STAT_BUSY, 0), (F.TRF_STAT_DONE, 1),
    (F.MGT_STAT_CMDPEND, 0)]

theorem trfDone_busy {n : Nat} {d : Bool} (h : s.on F.TRF_STAT_BUSY = true) :
    s.trfDone n d = (puts (doneFields n d) s).sendIbi false 0xA1 := if_neg (not_not_intro h)

theorem sendIbi_frame (c : Bool) (x : Byte) : (s.sendIbi c x).regs = s.regs ∧ (s.sendIbi c x).mgt = s.mgt := by
  simp only [State.sendIbi]
  split
  · exact ⟨rfl, rfl⟩
  · exact ⟨rfl, rfl⟩

theorem get_of_regs {t u : State} (h : t.regs = u.regs) (f : Fld) : t.get f = u.get f := by
  simp only [State.get, State.rd, h]

theorem puts_mgt (l : List (Fld × Nat)) : (puts l s).mgt = s.mgt ∧ (puts l s).out = s.out := by
  induction l generalizing s with
  | nil => exact ⟨rfl, rfl⟩
  | cons p l ih => exact ih (s := s.put p.1 p.2)

/-- A completed command's fields of STAT. -/
theorem get_trfDone {n k : Nat} {d : Bool} {f : Fld} (hs : s.regsWf = true) (hb : s.on F.TRF_STAT_BUSY = true)
    (hmem : (f, k) ∈ doneFields n d) : (s.trfDone n d).get f = k % 2 ^ (f.hi + 1 - f.lo) := by
  rw [trfDone_busy hb, get_of_regs (sendIbi_frame _ _).1]
  exact get_puts_of_mem hs rfl hmem

theorem trfDone_out {n : Nat} {d : Bool} (hs : s.regsWf = true) (hb : s.on F.TRF_STAT_BUSY = true) : (s.trfDone n d).out =
    s.out ++ (if i3cOn s = true ∧ s.mgt.task.addr.isSome = true ∧ s.mgt.task.ibi = true then [.ibi 0xA1] else []) := by
  obtain ⟨hmgt, hout⟩ := puts_mgt (s := s) (doneFields n d)
  have hmode : i3cOn (puts (doneFields n d) s) = i3cOn s := by
    simp only [i3cOn, State.mode, get_puts_apart hs (l := doneFields n d) (f := F.PCM_MODE_MODE) (by decide) rfl]
  have htask : i3cTarget (puts (doneFields n d) s) false = s.mgt.task := congrArg MgtState.task hmgt
  rw [trfDone_busy hb, State.sendIbi]
  simp only [hmode, htask]
  split
  · exact congrArg (· ++ _) hout
  · exact hout.trans (List.append_nil _).symm

theorem mgtDone_clauses {v : Word} (hb : s.on F.TRF_STAT_BUSY = true) (hs : s.regsWf = true) : ∃ t : State,
    exec (.mgtDone .sec v) s = .next t ∧ t.on F.TRF_STAT_BUSY = false ∧ t.on F.TRF_STAT_DONE = true ∧
    t.get F.TRF_STAT_RESULT = bitsOf v 7 0 ∧ t.on F.TRF_STAT_DATARDY = v.getLsbD 8 ∧ t.on F.MGT_STAT_CMDPEND = false ∧
    t.mgt = s.mgt ∧
    t.out = s.out ++ (if i3cOn s = true ∧ s.mgt.task.addr.isSome = true ∧ s.mgt.task.ibi = true then [.ibi 0xA1] else []) := by
  have hfield : ∀ {f : Fld} {k : Nat}, (f, k) ∈ doneFields (bitsOf v 7 0) (v.getLsbD 8) →
      (s.trfDone (bitsOf v 7 0) (v.getLsbD 8)).get f = k % 2 ^ (f.hi + 1 - f.lo) := get_trfDone hs hb
  have hon : ∀ {f : Fld} {k : Nat}, (f, k) ∈ doneFields (bitsOf v 7 0) (v.getLsbD 8) →
      (s.trfDone (bitsOf v 7 0) (v.getLsbD 8)).on f = (k % 2 ^ (f.hi + 1 - f.lo) != 0) := fun h =>
    congrArg (· != 0) (hfield h)
  refine ⟨_, next_byCore gated_sec (if_pos rfl), hon (k := 0) (by simp [doneFields]), hon (k := 1) (by simp [doneFields]),
    (hfield (k := bitsOf v 7 0) (by simp [doneFields])).trans (Nat.mod_eq_of_lt (Nat.mod_lt _ (by decide))),
    (hon (k := if v.getLsbD 8 then 1 else 0) (by simp [doneFields])).trans (by cases v.getLsbD 8 <;> rfl),
    hon (k := 0) (by simp [doneFields]), ?_, trfDone_out hs hb⟩
  rw [trfDone_busy hb]
  exact (sendIbi_frame _ _).2.trans (puts_mgt _).1

theorem notSec_clauses {m : Master} {v : Word} (hm : m ≠ .sec) (hg : gated s m = false) :
    exec (.mgtTake m v) s = .next s ∧ exec (.mgtDone m v) s = .next s :=
  ⟨next_byCore hg (if_neg fun h => hm h.1), next_byCore hg (if_neg hm)⟩

end TaskRegisters

/-! ### O53 -/

/-- Settles O53, clause by clause. -/
theorem managementBusCommandsComplete : Obligations.ManagementBusCommandsComplete := by
  unfold Obligations.ManagementBusCommandsComplete
  exact ⟨fun b a s => address_clauses, fun b a c s h => congrArg Host.Outcome.next (setnewda_takes h),
    fun s => rstdaa_clauses, fun a e n b s => ccc_clauses, fun a b s => get_clauses, fun a s => get_silent_clauses,
    fun k b0 b1 b2 b3 l v s => privateWrite_clauses, fun s => privateRead_clauses, fun v s => doneClear_clauses,
    fun l n v s => offBus_clauses,
    fun v s => ⟨fun h => next_byCore gated_sec (if_pos ⟨rfl, h⟩), mgtDone_clauses⟩, fun m v s => notSec_clauses⟩

end Sys2Proof.Proofs

/-! PROOFS. MCTP and SPDM on the management path (O55): a packet's checks and what it delivers, and the answer of firmware
to each request. -/

namespace Sys2Proof.Proofs

open Sys2Proof Sys2Proof.Machine

/-! ### Packets (R444) -/

section Packets

variable {s : State} {a : BitVec 7} {b p : List Byte} {x h0 h1 h2 h3 : Byte}

theorem slice_body : slice (b ++ [x]) 0 ((b ++ [x]).length - 1) = b := by
  have hlen : (b ++ [x]).length - 1 = b.length := by simp
  rw [hlen, slice_append_of_le (Nat.le_of_eq (Nat.zero_add _)), slice_whole]

theorem byteAt_last : byteAt (b ++ [x]) ((b ++ [x]).length - 1) = x.toNat := by
  simp [byteAt]

theorem mctpPacket_off {l : List Byte} (h : s.mgt.mctp.addr = none ∨ i3cOn s = false ∨ s.on F.MGT_CTL_MCTPEN = false) :
    mctpPacket l s = s := by
  unfold mctpPacket
  split
  next => rfl
  next addr haddr =>
    refine if_pos ?_
    rcases h with h | h | h
    · exact absurd (h.symm.trans haddr) (Option.some_ne_none _).symm
    · exact .inl (by simp [h])
    · exact .inr (.inl (by simp [h]))

theorem mctpPacket_badPec (ha : s.mgt.mctp.addr = some a) (hon : i3cOn s = true) (hen : s.on F.MGT_CTL_MCTPEN = true)
    (hpec : pec (leBytes 1 (a.toNat * 2) ++ b) ≠ x.toNat) : mctpPacket (b ++ [x]) s = s.inc F.MGT_CNT_PECERR_CNT := by
  simp only [mctpPacket, ha, slice_body, byteAt_last]
  rw [if_neg (by simp [hon, hen])]
  exact if_pos hpec

/-- The first packet of a message, as the model takes it. -/
def firstPacket (h2 h3 : Byte) : McAsm where
  seid := h2.toNat
  tag := h3.toNat % 8
  to_ := h3.getLsbD 3
  seq := h3.toNat / 16 % 4
  bytes := []
  drop := false

/-- The header of a packet for this target, with 1 to 64 bytes. -/
structure ForTarget (s : State) (h0 h1 h3 : Byte) (p : List Byte) : Prop where
  least : 1 ≤ p.length
  most : p.length ≤ 64
  version : h0.toNat % 16 = 1
  dest : h1.toNat = s.get F.MGT_EID_EID ∨ h1.toNat = 0 ∨ h1.toNat = 255
  booted : s.on F.SST_STAT_RECOVERY = false
  alone : s.mgt.asm_ = none
  first : h3.getLsbD 7 = true
  room : s.on F.MGT_STAT_MRXV = false

theorem mctpPacket_first (ha : s.mgt.mctp.addr = some a) (hon : i3cOn s = true) (hen : s.on F.MGT_CTL_MCTPEN = true)
    (hb : b = h0 :: h1 :: h2 :: h3 :: p) (hpec : pec (leBytes 1 (a.toNat * 2) ++ b) = x.toNat) (hf : ForTarget s h0 h1 h3 p) :
    mctpPacket (b ++ [x]) s = s.mctpTake (firstPacket h2 h3) p (h3.getLsbD 6) := by
  have hlen : (b ++ [x]).length - 1 = p.length + 4 := by simp [hb]
  have h0at : byteAt b 0 = h0.toNat := by rw [hb]; rfl
  have h1at : byteAt b 1 = h1.toNat := by rw [hb]; rfl
  have h2at : byteAt b 2 = h2.toNat := by rw [hb]; rfl
  have h3at : byteAt b 3 = h3.toNat := by rw [hb]; rfl
  have hpay : b.drop 4 = p := by rw [hb]; rfl
  have hfirst : h3.toNat.testBit 7 = true := hf.first
  have hgood : ¬ (p.length + 4 < 5 ∨ 68 < p.length + 4 ∨ h0.toNat % 16 ≠ 1 ∨
      ¬ (h1.toNat = s.get F.MGT_EID_EID ∨ h1.toNat = 0 ∨ h1.toNat = 255) ∨ s.on F.SST_STAT_RECOVERY = true) := by
    rintro (h | h | h | h | h)
    · exact absurd hf.least (by omega)
    · exact absurd hf.most (by omega)
    · exact h hf.version
    · exact h hf.dest
    · exact Bool.noConfusion (hf.booted.symm.trans h)
  simp only [mctpPacket, ha, slice_body, byteAt_last]
  rw [if_neg (by simp [hon, hen]), if_neg (not_not_intro hpec), hlen, h0at, h1at, h2at, h3at, hpay,
    if_neg hgood, if_pos hfirst]
  simp only [hf.alone, hf.room]
  rfl

theorem mctpTake_partial (hp : p.length = 64) :
    s.mctpTake (firstPacket h2 h3) p false =
      s.onMgt fun g => { g with asm_ := some { firstPacket h2 h3 with bytes := p, seq := (h3.toNat / 16 % 4 + 1) % 4 } } := by
  simp [State.mctpTake, firstPacket, hp]

theorem mctpTake_whole (hp : p.length ≤ 64) :
    s.mctpTake (firstPacket h2 h3) p true = (s.onMgt fun g => { g with asm_ := none }).mctpDeliver
      { firstPacket h2 h3 with bytes := p, seq := (h3.toNat / 16 % 4 + 1) % 4 } := by
  have hsmall : ¬ 4096 < p.length := by omega
  simp [State.mctpTake, firstPacket, hsmall]

/-- What a message waiting in the receive buffer is shown by. -/
def shownMessage (c : McAsm) : List (Fld × Nat) :=
  [(F.MGT_MRX_LEN, c.bytes.length), (F.MGT_MRX_SEID, c.seid), (F.MGT_MRX_TAG, c.tag), (F.MGT_MRX_TO, if c.to_ then 1 else 0),
    (F.MGT_STAT_MRXV, 1)]

theorem poolWrite_frame (n : Nat) (l : List Byte) : (s.poolWrite n l).regs = s.regs ∧ (s.poolWrite n l).mgt = s.mgt := by
  unfold State.poolWrite
  split
  · exact ⟨rfl, rfl⟩
  · exact ⟨rfl, rfl⟩

theorem mctpDeliver_eq (c : McAsm) :
    s.mctpDeliver c = puts (shownMessage c) (s.poolWrite (s.get F.MGT_MRXBASE_ADDR * 4096) c.bytes) := rfl

theorem puts_sram (l : List (Fld × Nat)) : (puts l s).sram = s.sram := by
  induction l generalizing s with
  | nil => rfl
  | cons q l ih => exact ih (s := s.put q.1 q.2)

theorem get_mctpDeliver (hs : s.regsWf = true) {c : McAsm} {f : Fld} {k : Nat} (hmem : (f, k) ∈ shownMessage c) :
    (s.mctpDeliver c).get f = k % 2 ^ (f.hi + 1 - f.lo) := by
  rw [mctpDeliver_eq]
  refine get_puts_of_mem ?_ rfl hmem
  rw [State.regsWf, (poolWrite_frame _ _).1]
  exact hs

/-- The pool's bytes after a write are those of any state with the same SRAM. -/
theorem poolWrite_sram_onMgt (f : MgtState → MgtState) (n : Nat) (l : List Byte) :
    ((s.onMgt f).poolWrite n l).sram = (s.poolWrite n l).sram := by
  unfold State.poolWrite
  split
  · rfl
  · rfl

theorem packet_whole (hp : p.length ≤ 64) (hs : s.regsWf = true) : ∃ t : State,
    s.mctpTake (firstPacket h2 h3) p true = t ∧ t.on F.MGT_STAT_MRXV = true ∧
    t.get F.MGT_MRX_LEN = p.length ∧ t.get F.MGT_MRX_SEID = h2.toNat ∧ t.get F.MGT_MRX_TAG = h3.toNat % 8 ∧
    t.on F.MGT_MRX_TO = h3.getLsbD 3 ∧ t.mgt.asm_ = none ∧ t.sram = (s.poolWrite (s.get F.MGT_MRXBASE_ADDR * 4096) p).sram := by
  obtain ⟨c, hc⟩ : ∃ c : McAsm, c = { firstPacket h2 h3 with bytes := p, seq := (h3.toNat / 16 % 4 + 1) % 4 } := ⟨_, rfl⟩
  obtain ⟨u, hu⟩ : ∃ u : State, u = s.onMgt fun g => { g with asm_ := none } := ⟨_, rfl⟩
  have hus : u.regsWf = true := by rw [hu]; exact hs
  have hshown : ∀ {f : Fld} {k : Nat}, (f, k) ∈ shownMessage c → (u.mctpDeliver c).get f = k % 2 ^ (f.hi + 1 - f.lo) :=
    get_mctpDeliver hus
  have hmem : shownMessage c = [(F.MGT_MRX_LEN, p.length), (F.MGT_MRX_SEID, h2.toNat), (F.MGT_MRX_TAG, h3.toNat % 8),
      (F.MGT_MRX_TO, if h3.getLsbD 3 then 1 else 0), (F.MGT_STAT_MRXV, 1)] := by rw [hc]; rfl
  refine ⟨u.mctpDeliver c, by rw [mctpTake_whole hp, hu, hc], ?_, ?_, ?_, ?_, ?_, ?_, ?_⟩
  · exact congrArg (· != 0) (hshown (f := F.MGT_STAT_MRXV) (k := 1) (by simp [hmem]))
  · exact (hshown (k := p.length) (by simp [hmem])).trans (Nat.mod_eq_of_lt (by show p.length < 8192; omega))
  · exact (hshown (k := h2.toNat) (by simp [hmem])).trans (Nat.mod_eq_of_lt h2.isLt)
  · exact (hshown (k := h3.toNat % 8) (by simp [hmem])).trans (Nat.mod_eq_of_lt (Nat.mod_lt _ (by decide)))
  · refine (congrArg (· != 0) (hshown (f := F.MGT_MRX_TO) (k := if h3.getLsbD 3 then 1 else 0) (by simp [hmem]))).trans ?_
    cases h3.getLsbD 3 <;> rfl
  · rw [mctpDeliver_eq, (puts_mgt _).1, (poolWrite_frame _ _).2, hu]
    rfl
  · have hbytes : c.bytes = p := by rw [hc]
    rw [mctpDeliver_eq, puts_sram, hbytes, hu, poolWrite_sram_onMgt]
    rfl

end Packets

/-! ### MGT_MRX and MGT_MTX (R449) -/

theorem buffer_clauses {m : Master} {v : Word} {s : State} (hg : gated s m = false) :
    (v.getLsbD 31 = true → exec (.mrxPop .sec v) s = .next (s.clr F.MGT_STAT_MRXV)) ∧
    (i3cOn s = true → s.on F.MGT_CTL_MCTPEN = true → exec (.mtxSend .sec v) s =
      .next (s.mctpSend (bitsOf v 12 0) (bitsOf v 23 16) (bitsOf v 26 24) (v.getLsbD 27))) ∧
    (m ≠ .sec → exec (.mrxPop m v) s = .next s ∧ exec (.mtxSend m v) s = .next s) :=
  ⟨fun h => next_byCore gated_sec (if_pos ⟨rfl, h⟩), fun hon hen => next_byCore gated_sec (if_pos ⟨rfl, hon, hen⟩),
   fun hm => ⟨next_byCore hg (if_neg fun h => hm h.1), next_byCore hg (if_neg fun h => hm h.1)⟩⟩

/-! ### MCTP control requests (R444) -/

section Control

variable {s : State} {i : Nat} {d : List Byte}

theorem mctpControl_answers {code : Nat} {f : List Byte → State → List Byte × State} {b : List Byte} {u : State}
    (h : s.Asks code i d) (hf : f d s = (b, u)) :
    s.mctpControl code f = u.mctpReply (leBytes 1 0 ++ leBytes 1 i ++ leBytes 1 code ++ b) := by
  obtain ⟨hwait, hlen, hty, hrq, hdg, hcode, hi, hd⟩ := h
  subst hd
  simp only [State.mctpControl]
  rw [if_pos ⟨hwait, hlen, hty, hrq, hcode⟩, hf, hdg, ← hi]
  exact if_neg Bool.false_ne_true

theorem setEndpointId_sets (h : s.Asks 1 i d) (hl : d.length = 2) (ho : byteAt d 0 % 4 ≤ 1) (h0 : byteAt d 1 ≠ 0)
    (hff : byteAt d 1 ≠ 255) : setEndpointId s = (s.put F.MGT_EID_EID (byteAt d 1)).mctpReply
      ([0] ++ leBytes 1 i ++ [1, 0, 0] ++ leBytes 1 (byteAt d 1) ++ [0]) := by
  refine (mctpControl_answers h ((if_neg (not_not_intro hl)).trans (if_neg ?_))).trans rfl
  simp [h0, hff, ho]

/-- A request that leaves the state and whose answer does not depend on its data. -/
theorem mctpControl_tells {code : Nat} (g : State → List Byte) (h : s.Asks code i d) :
    s.mctpControl code (fun _ t => (g t, t)) = s.mctpReply (0 :: BitVec.ofNat 8 i :: BitVec.ofNat 8 code :: g s) :=
  mctpControl_answers h rfl

theorem getEndpointId_answers (h : s.Asks 2 i d) : getEndpointId s =
    s.mctpReply ([0] ++ leBytes 1 i ++ [2, 0] ++ leBytes 1 (s.get F.MGT_EID_EID) ++ [0, 0]) :=
  mctpControl_tells (fun t => leBytes 1 0 ++ leBytes 1 (t.get F.MGT_EID_EID) ++ [0, 0]) h

/-- The bytes of the answer's header before those of the UUID. -/
theorem uuidResponse_eq (l : List Byte) : [0] ++ leBytes 1 i ++ [3, 0] ++ l = 0 :: BitVec.ofNat 8 i :: BitVec.ofNat 8 3 :: 0 :: l :=
  rfl

theorem getEndpointUuid_answers (h : s.Asks 3 i d) : getEndpointUuid s =
    s.mctpReply ([0] ++ leBytes 1 i ++ [3, 0] ++ leBytes 16 Config.uuid.toNat) := by
  rw [uuidResponse_eq]
  exact mctpControl_tells (fun _ => 0 :: leBytes 16 Config.uuid.toNat) h

theorem getMessageTypeSupport_answers (h : s.Asks 5 i d) : getMessageTypeSupport s =
    s.mctpReply ([0] ++ leBytes 1 i ++ [5, 0, 2, 0, 5]) :=
  mctpControl_tells (fun _ => [0, 2, 0, 5]) h

/-- What GET_MCTP_VERSION_SUPPORT answers for a message type. -/
def versionAnswer (d : List Byte) : List Byte :=
  if d.length ≠ 1 then [3]
  else if byteAt d 0 = 0xFF ∨ byteAt d 0 = 0 then [0, 1, 0xF1, 0xF3, 0xFF, 0x00]
  else if byteAt d 0 = 5 then [0, 1, 0xF1, 0xF0, 0xFF, 0x00]
  else [0x80]

theorem getMctpVersionSupport_answers (h : s.Asks 4 i d) : getMctpVersionSupport s =
    s.mctpReply (0 :: BitVec.ofNat 8 i :: BitVec.ofNat 8 4 :: versionAnswer d) := by
  refine mctpControl_answers h ?_
  dsimp only
  split
  · rfl
  · split
    · rfl
    · split <;> rfl

theorem versionAnswer_base (hl : d.length = 1) (ht : byteAt d 0 = 0xFF ∨ byteAt d 0 = 0) :
    versionAnswer d = [0, 1, 0xF1, 0xF3, 0xFF, 0x00] := (if_neg (not_not_intro hl)).trans (if_pos ht)

theorem versionAnswer_spdm (hl : d.length = 1) (ht : byteAt d 0 = 5) : versionAnswer d = [0, 1, 0xF1, 0xF0, 0xFF, 0x00] :=
  (if_neg (not_not_intro hl)).trans ((if_neg (by simp [ht])).trans (if_pos ht))

theorem version_clauses (h : s.Asks 4 i d) (hl : d.length = 1) :
    (byteAt d 0 = 0xFF ∨ byteAt d 0 = 0 → getMctpVersionSupport s =
      s.mctpReply ([0] ++ leBytes 1 i ++ [4, 0, 1, 0xF1, 0xF3, 0xFF, 0x00])) ∧
    (byteAt d 0 = 5 → getMctpVersionSupport s =
      s.mctpReply ([0] ++ leBytes 1 i ++ [4, 0, 1, 0xF1, 0xF0, 0xFF, 0x00])) := by
  rw [getMctpVersionSupport_answers h]
  exact ⟨fun ht => congrArg (fun l => s.mctpReply (0 :: BitVec.ofNat 8 i :: BitVec.ofNat 8 4 :: l)) (versionAnswer_base hl ht),
    fun ht => congrArg (fun l => s.mctpReply (0 :: BitVec.ofNat 8 i :: BitVec.ofNat 8 4 :: l)) (versionAnswer_spdm hl ht)⟩

end Control

/-! ### SPDM (R445 to R448) -/

section Spdm

variable {s : State} {r : List Byte}

theorem spdmServe_answers {code version least n : Nat} {phase : Nat → Bool} {f : List Byte → State → State}
    (h : s.SpdmAsks code version least n r) (hp : phase n = true) :
    s.spdmServe code version least phase f = f r s := by
  obtain ⟨hreq, hcode, hversion, hleast, hphase⟩ := h
  rw [State.spdmServe, hreq]
  exact (if_neg (not_not_intro hcode)).trans <| (if_neg (not_not_intro hversion)).trans <|
    (if_neg (not_not_intro (hphase ▸ hp))).trans (if_neg (Nat.not_lt.mpr hleast))

theorem getVersion_answers {f : Nat} {a : List Byte} (h : s.SpdmAsks 0x84 0x10 4 f r)
    (ha : a = [0x10, 0x04, 0, 0, 0, 1, 0x00, 0x12]) :
    getVersion s = (s.onSpdm fun _ => { phase := 1, vca := r ++ a }).spdmReply a := by
  subst ha
  exact spdmServe_answers h rfl

theorem getCapabilities_answers {a : List Byte} (h : s.SpdmAsks 0xE1 0x12 20 1 r)
    (ha : a = [0x12, 0x61, 0, 0, 0, 14, 0, 0] ++ leBytes 4 0x16 ++ leBytes 4 4096 ++ leBytes 4 4096) :
    getCapabilities s = (s.onSpdm fun p => { p with phase := 2, vca := p.vca ++ r ++ a }).spdmReply a := by
  subst ha
  exact spdmServe_answers h rfl

/-- The answer of NEGOTIATE_ALGORITHMS with the DMTF measurement specification selected. -/
theorem algorithms_eq (x y : List Byte) : [0x12, 0x63, 0, 0] ++ leBytes 2 36 ++ leBytes 1 1 ++ [0] ++ leBytes 4 4 ++ x ++ y ++
    zeros 16 = [0x12, 0x63, 0, 0] ++ leBytes 2 36 ++ [1, 0] ++ leBytes 4 4 ++ x ++ y ++ zeros 16 := rfl

theorem negotiateAlgorithms_answers {a : List Byte} (h : s.SpdmAsks 0xE3 0x12 32 2 r) (hs : byteAt r 6 &&& 1 = 1)
    (ha : a = [0x12, 0x63, 0, 0] ++ leBytes 2 36 ++ [1, 0] ++ leBytes 4 4 ++ leBytes 4 (leNat (slice r 8 4) &&& 0x80) ++
      leBytes 4 (leNat (slice r 12 4) &&& 2) ++ zeros 16) :
    negotiateAlgorithms s = (s.onSpdm fun p => { p with phase := 3, vca := p.vca ++ r ++ a }).spdmReply a := by
  rw [← algorithms_eq] at ha
  subst ha
  rw [negotiateAlgorithms, spdmServe_answers h rfl]
  simp only [hs, if_true]

/-! ### Certificates -/

theorem getDigests_answers {a x y c : List Byte} (hr : s.on F.MGT_STAT_ACRDY = true) (hc : c = certChain s x y)
    (h : s.SpdmAsks 0x81 0x12 4 3 r) (ha : a = [0x12, 0x01, 0, 1] ++ sha384 c) :
    getDigests x y s = (s.onSpdm fun p => { p with certs := p.certs ++ r ++ a, meas := [] }).spdmReply a := by
  subst hc ha
  rw [getDigests, if_neg (not_not_intro hr), spdmServe_answers h rfl]

theorem getCertificate_answers {a x y c : List Byte} {o n : Nat} (hr : s.on F.MGT_STAT_ACRDY = true)
    (hc : c = certChain s x y) (h : s.SpdmAsks 0x82 0x12 8 3 r) (hslot : byteAt r 2 % 16 = 0)
    (ho : o = leNat (slice r 4 2)) (hlt : o < c.length) (hn : n = Nat.min (Nat.min (leNat (slice r 6 2)) (c.length - o)) 4087)
    (ha : a = [0x12, 0x02, 0, 0] ++ leBytes 2 n ++ leBytes 2 (c.length - o - n) ++ slice c o n) :
    getCertificate x y s = (s.onSpdm fun p => { p with certs := p.certs ++ r ++ a, meas := [] }).spdmReply a := by
  rw [getCertificate, if_neg (not_not_intro hr), spdmServe_answers h rfl]
  simp only [← hc, ← ho, ← hn, ← ha]
  exact if_neg (not_or.mpr ⟨not_not_intro hslot, Nat.not_le.mpr hlt⟩)

/-! ### Free bytes, CHALLENGE -/

theorem drawBytes_mgt : ∀ (n : Nat) {s : State}, (State.drawBytes n s).2.mgt = s.mgt
  | 0, _ => rfl
  | n + 1, s => drawBytes_mgt n (s := s.draw.2)

/-- The measurement summary of CHALLENGE_AUTH, of which the bytes of type 1 are open. -/
def summaryOf (u : State) (kind : Nat) (free : List Byte) : List Byte :=
  if kind = 0 then [] else if kind = 1 then free else sha384 ((measPresent u).flatMap (measBlock u))

/-- CHALLENGE_AUTH before its signature. -/
def challengeBody (u : State) (x y nonce sum : List Byte) : List Byte :=
  [0x12, 0x03, 0, 1] ++ sha384 (certChain u x y) ++ nonce ++ sum ++ zeros 2

/-- What CHALLENGE signs. -/
def challengeSigned (u : State) (r a : List Byte) : List Byte :=
  spdmDigest "responder-challenge_auth signing" (u.mgt.spdm.vca ++ u.mgt.spdm.certs ++ r ++ a)

/-- CHALLENGE_AUTH, sent in the state after its free bytes were drawn. -/
def sendChallenge (u : State) (r a : List Byte) : State :=
  ((u.spdmSign (challengeSigned u r a)).2.onSpdm fun p => { p with certs := [], meas := [] }).spdmReply
    (a ++ (u.spdmSign (challengeSigned u r a)).1)

theorem challenge_eq {x y : List Byte} (hr : s.on F.MGT_STAT_ACRDY = true) (ha : aliasReady s = true)
    (h : s.SpdmAsks 0x83 0x12 36 3 r) (h2 : byteAt r 2 = 0) (h3 : byteAt r 3 = 0 ∨ byteAt r 3 = 1 ∨ byteAt r 3 = 0xFF) :
    challenge x y s = sendChallenge (State.drawBytes 6 (State.drawBytes 4 s).2).2 r
      (challengeBody (State.drawBytes 6 (State.drawBytes 4 s).2).2 x y (State.drawBytes 4 s).1
        (summaryOf (State.drawBytes 6 (State.drawBytes 4 s).2).2 (byteAt r 3)
          (State.drawBytes 6 (State.drawBytes 4 s).2).1)) := by
  rw [challenge, if_neg (by simp [hr, ha]), spdmServe_answers h rfl]
  exact if_neg (not_or.mpr ⟨not_not_intro h2, not_not_intro h3⟩)

theorem challenge_answers {x y : List Byte} (hr : s.on F.MGT_STAT_ACRDY = true) (ha : aliasReady s = true)
    (h : s.SpdmAsks 0x83 0x12 36 3 r) (h2 : byteAt r 2 = 0) (h3 : byteAt r 3 = 0 ∨ byteAt r 3 = 1 ∨ byteAt r 3 = 0xFF) :
    ∃ (u w : State) (nonce sum a sig : List Byte),
      exec (.challenge x y) s = .next ((w.onSpdm fun p => { p with certs := [], meas := [] }).spdmReply (a ++ sig)) ∧
      a = [0x12, 0x03, 0, 1] ++ sha384 (certChain u x y) ++ nonce ++ sum ++ zeros 2 ∧
      (byteAt r 3 = 0 → sum = []) ∧ (byteAt r 3 = 0xFF → sum = sha384 ((measPresent u).flatMap (measBlock u))) ∧
      (sig, w) = u.spdmSign (spdmDigest "responder-challenge_auth signing"
        (s.mgt.spdm.vca ++ s.mgt.spdm.certs ++ r ++ a)) := by
  obtain ⟨u, hu⟩ : ∃ u : State, u = (State.drawBytes 6 (State.drawBytes 4 s).2).2 := ⟨_, rfl⟩
  have hmgt : u.mgt = s.mgt := by rw [hu, drawBytes_mgt, drawBytes_mgt]
  have heq := challenge_eq (x := x) (y := y) hr ha h h2 h3
  rw [← hu] at heq
  generalize (State.drawBytes 4 s).1 = nonce at heq
  generalize (State.drawBytes 6 (State.drawBytes 4 s).2).1 = free at heq
  obtain ⟨a, hbody⟩ : ∃ a, a = challengeBody u x y nonce (summaryOf u (byteAt r 3) free) := ⟨_, rfl⟩
  rw [← hbody] at heq
  refine ⟨u, (u.spdmSign (challengeSigned u r a)).2, nonce, summaryOf u (byteAt r 3) free, a,
    (u.spdmSign (challengeSigned u r a)).1, congrArg Host.Outcome.next heq, hbody, fun hk => if_pos hk, fun hk => ?_, ?_⟩
  · rw [summaryOf, hk, if_neg (by decide), if_neg (by decide)]
  · rw [← hmgt]
    rfl

/-! ### GET_MEASUREMENTS -/

/-- The blocks that GET_MEASUREMENTS asks for. -/
def wantedBlocks (s : State) (op : Nat) : List Nat := if op = 0 then [] else if op = 0xFF then measPresent s else [op]

/-- MEASUREMENTS before its signature. -/
def measBody (s : State) (op : Nat) (want : List Nat) (nonce : List Byte) : List Byte :=
  [0x12, 0x60] ++ leBytes 1 (if op = 0 then (measPresent s).length else 0) ++ [0] ++ leBytes 1 want.length ++
    leBytes 3 (want.flatMap (measBlock s)).length ++ want.flatMap (measBlock s) ++ nonce ++ zeros 2

/-- What GET_MEASUREMENTS signs. -/
def measSigned (u : State) (l : List Byte) : List Byte :=
  spdmDigest "responder-measurements signing" (u.mgt.spdm.vca ++ l)

/-- MEASUREMENTS with its signature. -/
def sendMeasSigned (u : State) (l a : List Byte) : State :=
  ((u.spdmSign (measSigned u l)).2.onSpdm fun p => { p with meas := [] }).spdmReply (a ++ (u.spdmSign (measSigned u l)).1)

/-- MEASUREMENTS as it is answered in the state after its nonce was drawn. -/
def sendMeas (u : State) (r a : List Byte) : State :=
  if (byteAt r 2).testBit 0 then sendMeasSigned u (u.mgt.spdm.meas ++ r ++ a) a
  else (u.onSpdm fun p => { p with meas := u.mgt.spdm.meas ++ r ++ a }).spdmReply a

theorem getMeasurements_eq {want : List Nat} (ha : aliasReady s = true) (h : s.SpdmAsks 0xE0 0x12 4 3 r)
    (hwant : want = wantedBlocks s (byteAt r 3)) (hall : ∀ i ∈ want, (measPresent s).contains i = true)
    (hsig : (byteAt r 2).testBit 0 = true → 37 ≤ r.length ∧ byteAt r 36 % 16 = 0) :
    getMeasurements s = sendMeas (State.drawBytes 4 s).2 r (measBody s (byteAt r 3) want (State.drawBytes 4 s).1) := by
  have hgood : ¬ (((byteAt r 2).testBit 0 = true ∧ (r.length < 37 ∨ byteAt r 36 % 16 ≠ 0)) ∨
      ¬ (want.all fun i => (measPresent s).contains i) = true) := by
    rintro (⟨hs, hbad⟩ | hbad)
    · obtain ⟨hlen, hslot⟩ := hsig hs
      exact hbad.elim (fun hlt => absurd hlen (Nat.not_le.mpr hlt)) fun hne => hne hslot
    · exact hbad (List.all_eq_true.mpr hall)
  subst hwant
  rw [getMeasurements, if_neg (not_not_intro ha), spdmServe_answers h rfl]
  exact if_neg hgood

theorem getMeasurements_answers {want : List Nat} (ha : aliasReady s = true) (h : s.SpdmAsks 0xE0 0x12 4 3 r)
    (hwant : want = (if byteAt r 3 = 0 then [] else if byteAt r 3 = 0xFF then measPresent s else [byteAt r 3]))
    (hall : ∀ i ∈ want, (measPresent s).contains i = true) :
    ∃ (u : State) (nonce a : List Byte), a = [0x12, 0x60] ++ leBytes 1 (if byteAt r 3 = 0 then (measPresent s).length else 0) ++ [0] ++
        leBytes 1 want.length ++ leBytes 3 (want.flatMap (measBlock s)).length ++ want.flatMap (measBlock s) ++ nonce ++ zeros 2 ∧
      ((byteAt r 2).testBit 0 = false → exec .getMeasurements s =
        .next ((u.onSpdm fun p => { p with meas := s.mgt.spdm.meas ++ r ++ a }).spdmReply a)) ∧
      ((byteAt r 2).testBit 0 = true → 37 ≤ r.length → byteAt r 36 % 16 = 0 → ∃ (w : State) (sig : List Byte),
        (sig, w) = u.spdmSign (spdmDigest "responder-measurements signing" (s.mgt.spdm.vca ++ (s.mgt.spdm.meas ++ r ++ a))) ∧
        exec .getMeasurements s = .next ((w.onSpdm fun p => { p with meas := [] }).spdmReply (a ++ sig))) := by
  have heq := getMeasurements_eq ha h hwant hall
  obtain ⟨u, hu⟩ : ∃ u : State, u = (State.drawBytes 4 s).2 := ⟨_, rfl⟩
  have hmgt : u.mgt = s.mgt := by rw [hu, drawBytes_mgt]
  rw [← hu] at heq
  generalize (State.drawBytes 4 s).1 = nonce at heq
  obtain ⟨a, hbody⟩ : ∃ a, a = measBody s (byteAt r 3) want nonce := ⟨_, rfl⟩
  rw [← hbody] at heq
  refine ⟨u, nonce, a, hbody, fun hoff => congrArg Host.Outcome.next ?_, fun hon hlen hslot => ?_⟩
  · rw [heq fun hs => absurd (hoff.symm.trans hs) Bool.false_ne_true, sendMeas, hoff, if_neg Bool.false_ne_true, hmgt]
  · obtain ⟨l, hl⟩ : ∃ l, l = u.mgt.spdm.meas ++ r ++ a := ⟨_, rfl⟩
    refine ⟨(u.spdmSign (measSigned u l)).2, (u.spdmSign (measSigned u l)).1, ?_, congrArg Host.Outcome.next ?_⟩
    · rw [measSigned, hl, hmgt]
    · rw [heq fun _ => ⟨hlen, hslot⟩, sendMeas, if_pos hon, ← hl]
      rfl

theorem spdmUnsupportedRequest_answers (h : spdmRequest s = some r) (hc : spdmCodes.contains (byteAt r 1) = false) :
    spdmUnsupportedRequest s = s.spdmError 0x07 (byteAt r 1) := by
  rw [spdmUnsupportedRequest, h]
  exact if_neg (by rw [hc]; decide)

end Spdm

/-! ### O55 -/

theorem packet_clauses (l : List Byte) (s : State) :
    (s.mgt.mctp.addr = none ∨ i3cOn s = false ∨ s.on F.MGT_CTL_MCTPEN = false → exec (.mctpPacket l) s = .next s) ∧
    (∀ (a : BitVec 7) (b : List Byte) (x : Byte), s.mgt.mctp.addr = some a → i3cOn s = true → s.on F.MGT_CTL_MCTPEN = true →
      l = b ++ [x] →
      (pec (leBytes 1 (a.toNat * 2) ++ b) ≠ x.toNat → exec (.mctpPacket l) s = .next (s.inc F.MGT_CNT_PECERR_CNT)) ∧
      (pec (leBytes 1 (a.toNat * 2) ++ b) = x.toNat → ∀ (h0 h1 h2 h3 : Byte) (p : List Byte), b = h0 :: h1 :: h2 :: h3 :: p →
        1 ≤ p.length → p.length ≤ 64 → h0.toNat % 16 = 1 → h1.toNat = s.get F.MGT_EID_EID ∨ h1.toNat = 0 ∨ h1.toNat = 255 →
        s.on F.SST_STAT_RECOVERY = false → s.mgt.asm_ = none → h3.getLsbD 7 = true → s.on F.MGT_STAT_MRXV = false →
        (h3.getLsbD 6 = true → s.regsWf = true → ∃ t : State, exec (.mctpPacket l) s = .next t ∧ t.on F.MGT_STAT_MRXV = true ∧
          t.get F.MGT_MRX_LEN = p.length ∧ t.get F.MGT_MRX_SEID = h2.toNat ∧ t.get F.MGT_MRX_TAG = h3.toNat % 8 ∧
          t.on F.MGT_MRX_TO = h3.getLsbD 3 ∧ t.mgt.asm_ = none ∧
          t.sram = (s.poolWrite (s.get F.MGT_MRXBASE_ADDR * 4096) p).sram) ∧
        (h3.getLsbD 6 = false → p.length = 64 → ∃ c : McAsm,
          exec (.mctpPacket l) s = .next (s.onMgt fun g => { g with asm_ := some c }) ∧
          c.seid = h2.toNat ∧ c.tag = h3.toNat % 8 ∧ c.to_ = h3.getLsbD 3 ∧ c.bytes = p))) := by
  refine ⟨fun h => congrArg Host.Outcome.next (mctpPacket_off h), fun a b x ha hon hen hl => ?_⟩
  subst hl
  refine ⟨fun hpec => congrArg Host.Outcome.next (mctpPacket_badPec ha hon hen hpec),
    fun hpec h0 h1 h2 h3 p hb hmin hmax hv hd hr hn hs hm => ?_⟩
  have htake := mctpPacket_first ha hon hen hb hpec ⟨hmin, hmax, hv, hd, hr, hn, hs, hm⟩
  refine ⟨fun he hwf => ?_, fun he h64 => ?_⟩
  · rw [he] at htake
    obtain ⟨t, ht, hrest⟩ := packet_whole (h2 := h2) (h3 := h3) hmax hwf
    exact ⟨t, congrArg Host.Outcome.next (htake.trans ht), hrest⟩
  · rw [he] at htake
    exact ⟨_, congrArg Host.Outcome.next (htake.trans (mctpTake_partial h64)), rfl, rfl, rfl, rfl⟩

/-- Settles O55, clause by clause. -/
theorem mctpAndSpdmCommandsComplete : Obligations.MctpAndSpdmCommandsComplete := by
  unfold Obligations.MctpAndSpdmCommandsComplete
  refine ⟨packet_clauses, fun m v s => buffer_clauses,
    fun s i d h hl ho h0 hff => congrArg Host.Outcome.next (setEndpointId_sets h hl ho h0 hff), fun s i d => ?_,
    fun s r a f => ⟨fun h ha => congrArg Host.Outcome.next (getVersion_answers h ha),
      fun h ha => congrArg Host.Outcome.next (getCapabilities_answers h ha),
      fun h hs ha => congrArg Host.Outcome.next (negotiateAlgorithms_answers h hs ha)⟩,
    fun s r a x y c o n hr hc => ⟨fun h ha => congrArg Host.Outcome.next (getDigests_answers hr hc h ha),
      fun h hslot ho hlt hn ha => congrArg Host.Outcome.next (getCertificate_answers hr hc h hslot ho hlt hn ha)⟩,
    fun s r x y => challenge_answers, fun s r want => getMeasurements_answers,
    fun s r h hc => congrArg Host.Outcome.next (spdmUnsupportedRequest_answers h hc)⟩
  refine ⟨fun h => congrArg Host.Outcome.next (getEndpointId_answers h),
    fun h => congrArg Host.Outcome.next (getEndpointUuid_answers h), fun h hl => ?_,
    fun h => congrArg Host.Outcome.next (getMessageTypeSupport_answers h)⟩
  obtain ⟨hbase, hspdm⟩ := version_clauses h hl
  exact ⟨fun ht => congrArg Host.Outcome.next (hbase ht), fun ht => congrArg Host.Outcome.next (hspdm ht)⟩

end Sys2Proof.Proofs

/-! PROOFS. The accesses of the cores and the host's requests to BAR0 (O56): which of the checks an access meets first, and
what the region it reaches does. -/

namespace Sys2Proof.Proofs

open Sys2Proof Sys2Proof.Machine Sys2Proof.Laws

/-! ### The address map (R471) -/

/-- An address of a core's TCM lies in a TCM region. -/
theorem regionOf_of_tcm {a : Nat} {m : Master} (h : inSpan a (tcmBase m) (tcmSize m) = true) :
    ∃ o, regionOf a = some (.tcm o) := by
  have hbase : 0x10000000 ≤ a := by
    have hle : tcmBase m ≤ a := by
      simp only [inSpan, Bool.and_eq_true, decide_eq_true_eq] at h
      exact h.1
    exact Nat.le_trans (by cases m <;> decide) hle
  have hrom : ¬ inSpan a 0 0x10000 = true := by
    simp only [inSpan, Bool.and_eq_true, decide_eq_true_eq]
    omega
  have hfound : ([Master.sec, .hc0, .hc1, .mc, .sv].find? fun (o : Master) => inSpan a (tcmBase o) (tcmSize o)).isSome = true :=
    List.find?_isSome.mpr ⟨m, by cases m <;> decide, h⟩
  obtain ⟨o, ho⟩ := Option.isSome_iff_exists.mp hfound
  exact ⟨o, by rw [regionOf, if_neg hrom, ho]⟩

theorem ofNat_toNat_word (a : Word) : BitVec.ofNat 32 a.toNat = a := by
  rw [BitVec.ofNat_toNat, BitVec.setWidth_eq]

section Accesses

variable {s u : State} {m : Master} {k : AccKind} {a v : Word} {w : Nat} {f : BusFacts}

/-- Only a TCM has blocks that may not be loaded yet. -/
theorem notLoaded_of_region {n : Nat} {r : Region} (hr : regionOf n = some r) (ht : ∀ o, r ≠ .tcm o) :
    notLoaded s m n = false := by
  have hspan : inSpan n (tcmBase m) (tcmSize m) = false := by
    cases h : inSpan n (tcmBase m) (tcmSize m) with
    | false => rfl
    | true =>
      obtain ⟨o, ho⟩ := regionOf_of_tcm h
      exact absurd (Option.some.inj (hr.symm.trans ho)) (ht o)
  rw [notLoaded, hspan, Bool.and_false, Bool.false_and]

theorem refusal_le (n : Nat) : refusal s m k n w ≤ 4 := by
  unfold refusal
  split
  · decide
  · repeat' split
    all_goals decide

theorem refusal_tcm {n : Nat} (hr : regionOf n = some (.tcm m)) : refusal s m k n w = 0 := by
  rw [refusal, hr]
  simp [reaches]

theorem refusal_pool {n : Nat} (hr : regionOf n = some .pool) (hm : m ≠ .sv) (hk : k ≠ .fetch) : refusal s m k n w = 0 := by
  rw [refusal, hr]
  simp [reaches, hm, hk]

theorem refusal_regs {n : Nat} (hr : regionOf n = some .regs) (hk : k ≠ .fetch) : refusal s m k n 4 = 0 := by
  rw [refusal, hr]
  simp [reaches, hk]

/-! ### The checks of an access, in order (R472, R473, R123) -/

/-- An access that is issued goes to the map's check. -/
theorem coreAccess_issued (h : s.Issues m k a w) : coreAccess m k a w v f s =
    if refusal s m k a.toNat w ≠ 0 then s.refuse m k a.toNat (refusal s m k a.toNat w)
    else if notLoaded s m a.toNat then s.stall m true ((a.toNat - tcmBase m) / 65536 + 1)
    else (regionOf a.toNat).elim s fun r => if k = .store then s.coreStore m r a.toNat w (v.toNat % 256 ^ w) f
      else s.coreLoad m r a.toNat w f := by
  obtain ⟨hrun, hw, halign, hpmp⟩ := h
  have hwidth : [1, 2, 4].contains w = true := by rcases hw with rfl | rfl | rfl <;> rfl
  rw [coreAccess, if_neg (by simp only [hrun, hwidth]; decide), if_neg (by simp [halign]), if_neg (by simp [hpmp])]
  cases regionOf a.toNat with
  | none => rfl
  | some r => rfl

theorem coreAccess_refused (h : s.Issues m k a w) (hr : refusal s m k a.toNat w ≠ 0) :
    coreAccess m k a w v f s = s.refuse m k a.toNat (refusal s m k a.toNat w) := (coreAccess_issued h).trans (if_pos hr)

theorem coreAccess_waits (h : s.Issues m k a w) (hr : refusal s m k a.toNat w = 0) (hn : notLoaded s m a.toNat = true) :
    coreAccess m k a w v f s = s.stall m true ((a.toNat - tcmBase m) / 65536 + 1) :=
  (coreAccess_issued h).trans ((if_neg (not_not_intro hr)).trans (if_pos hn))

theorem coreAccess_load {r : Region} (h : s.Issues m k a w) (hk : k ≠ .store) (hreg : regionOf a.toNat = some r)
    (hr : refusal s m k a.toNat w = 0) (hn : notLoaded s m a.toNat = false) :
    coreAccess m k a w v f s = s.coreLoad m r a.toNat w f := by
  rw [coreAccess_issued h, if_neg (not_not_intro hr), if_neg (by simp [hn]), hreg, Option.elim_some, if_neg hk]

theorem coreAccess_store {r : Region} (h : s.Issues m .store a w) (hreg : regionOf a.toNat = some r)
    (hr : refusal s m .store a.toNat w = 0) (hn : notLoaded s m a.toNat = false) :
    coreAccess m .store a w v f s = s.coreStore m r a.toNat w (v.toNat % 256 ^ w) f := by
  rw [coreAccess_issued h, if_neg (not_not_intro hr), if_neg (by simp [hn]), hreg, Option.elim_some, if_pos rfl]

theorem exec_coreAccess {t : State} (h : coreAccess m k a w v f s = t) : exec (.coreAccess m k a w v f) s = .next t :=
  congrArg Host.Outcome.next h

theorem misaligned_clauses (hrun : coreRuns s m = true) (hw : w = 2 ∨ w = 4) (ha : a.toNat % w ≠ 0) :
    exec (.coreAccess m .load a w v f) s = .next (s.emit (.coreFault m 4 a.toNat)) ∧
    exec (.coreAccess m .store a w v f) s = .next (s.emit (.coreFault m 6 a.toNat)) := by
  have hwidth : [1, 2, 4].contains w = true := by rcases hw with rfl | rfl <;> rfl
  have hissue : ¬ (¬ coreRuns s m = true ∨ ¬ [1, 2, 4].contains w = true) := by simp only [hrun, hwidth]; decide
  have hbad : ∀ j : AccKind, j ≠ .fetch → coreMisaligned j a.toNat w = true := fun j hj => by
    simp [coreMisaligned, hj, ha]
  exact ⟨exec_coreAccess ((if_neg hissue).trans (if_pos (hbad .load (by decide)))),
    exec_coreAccess ((if_neg hissue).trans (if_pos (hbad .store (by decide))))⟩

/-! ### A refused access (R473) -/

/-- The captured word's fields. -/
theorem capture_fields {i c y : Nat} (hi : i < 8) (hc : c < 4) (hy : y < 8) :
    bitsOf (BitVec.ofNat 32 (i + c * 16 + y * 256 + 65536)) 2 0 = i ∧
    bitsOf (BitVec.ofNat 32 (i + c * 16 + y * 256 + 65536)) 5 4 = c ∧
    bitsOf (BitVec.ofNat 32 (i + c * 16 + y * 256 + 65536)) 10 8 = y ∧
    bitsOf (BitVec.ofNat 32 (i + c * 16 + y * 256 + 65536)) 16 16 = 1 := by
  simp only [bitsOf, BitVec.toNat_ofNat]
  omega

/-- The registers after a refused access. -/
theorem rd_refuse (hs : s.regsWf = true) (n y : Nat) :
    (s.refuse m k n y).rd R.GLB_AF = BitVec.ofNat 32 (m.idx + kindCode k * 16 + y * 256 + 65536) ∧
    (s.refuse m k n y).rd R.GLB_AFADDR = BitVec.ofNat 32 n ∧
    (s.refuse m k n y).get F.GLB_AFCNT_AF_CNT = Nat.min (s.get F.GLB_AFCNT_AF_CNT + 1) 65535 ∧
    ∀ j, j ≠ R.GLB_AF → j ≠ R.GLB_AFADDR → j ≠ R.GLB_AFCNT → (s.refuse m k n y).rd j = s.rd j := by
  obtain ⟨t, ht⟩ : ∃ t : State, t = s.wr R.GLB_AF (BitVec.ofNat 32 (m.idx + kindCode k * 16 + y * 256 + 65536)) := ⟨_, rfl⟩
  obtain ⟨x, hx⟩ : ∃ x : State, x = t.wr R.GLB_AFADDR (BitVec.ofNat 32 n) := ⟨_, rfl⟩
  have htw : t.regsWf = true := ht ▸ regsWf_wr _ _ hs
  have hxw : x.regsWf = true := hx ▸ regsWf_wr _ _ htw
  have hrefuse : s.refuse m k n y = (x.inc F.GLB_AFCNT_AF_CNT).emit (.coreFault m (faultCause k) n) := by
    rw [hx, ht]
    rfl
  have hkeep : ∀ j, j ≠ R.GLB_AFCNT → (s.refuse m k n y).rd j = x.rd j := fun j hj => by
    rw [hrefuse]
    exact rd_wr_ne _ hxw hj
  have hbelow : ∀ j, j ≠ R.GLB_AF → j ≠ R.GLB_AFADDR → x.rd j = s.rd j := fun j h1 h2 => by
    rw [hx, rd_wr_ne _ htw h2, ht, rd_wr_ne _ hs h1]
  refine ⟨?_, ?_, ?_, fun j h1 h2 h3 => (hkeep j h3).trans (hbelow j h1 h2)⟩
  · rw [hkeep _ (by decide), hx, rd_wr_ne _ htw (by decide), ht, rd_wr_same _ hs]
  · rw [hkeep _ (by decide), hx, rd_wr_same _ htw]
  · have hcnt : x.get F.GLB_AFCNT_AF_CNT = s.get F.GLB_AFCNT_AF_CNT := get_of_rd (hbelow _ (by decide) (by decide))
    have hval : (s.refuse m k n y).get F.GLB_AFCNT_AF_CNT = Nat.min (x.get F.GLB_AFCNT_AF_CNT + 1) 65535 % 65536 := by
      rw [hrefuse]
      exact get_put_same _ hxw (by decide)
    rw [hval, hcnt]
    exact Nat.mod_eq_of_lt (Nat.lt_of_le_of_lt (Nat.min_le_right _ _) (by decide))

theorem refused_clause {y : Nat} (h : s.Issues m k a w) (hs : s.regsWf = true) (hy : y = refusal s m k a.toNat w) (h0 : y ≠ 0) :
    ∃ t : State, exec (.coreAccess m k a w v f) s = .next t ∧
    t.get F.GLB_AF_MASTER = m.idx ∧ t.get F.GLB_AF_KIND = kindCode k ∧
    t.get F.GLB_AF_WHY = y ∧ t.on F.GLB_AF_NEW = true ∧ t.rd R.GLB_AFADDR = a ∧
    t.get F.GLB_AFCNT_AF_CNT = Nat.min (s.get F.GLB_AFCNT_AF_CNT + 1) 65535 ∧
    t.out = s.out ++ [.coreFault m (faultCause k) a.toNat] ∧
    t.sram = s.sram ∧ t.store = s.store ∧ t.buf = s.buf ∧ t.sst = s.sst ∧
    (∀ g : Fld, g.reg ≠ R.GLB_AF → g.reg ≠ R.GLB_AFADDR → g.reg ≠ R.GLB_AFCNT → t.get g = s.get g) := by
  have hexec := exec_coreAccess (v := v) (f := f) (coreAccess_refused h (hy ▸ h0))
  have hy4 : y ≤ 4 := hy ▸ refusal_le _
  rw [← hy] at hexec
  obtain ⟨haf, haddr, hcnt, hrest⟩ := rd_refuse (m := m) (k := k) hs a.toNat y
  obtain ⟨hmaster, hkind, hwhy, hnew⟩ := capture_fields (i := m.idx) (c := kindCode k) (y := y) (by cases m <;> decide)
    (by cases k <;> decide) (by omega)
  have hget : ∀ g : Fld, g.reg = R.GLB_AF → (s.refuse m k a.toNat y).get g =
      bitsOf (BitVec.ofNat 32 (m.idx + kindCode k * 16 + y * 256 + 65536)) g.hi g.lo := fun g hg => by
    rw [State.get, hg, haf]
  exact ⟨_, hexec, (hget F.GLB_AF_MASTER rfl).trans hmaster, (hget F.GLB_AF_KIND rfl).trans hkind,
    (hget F.GLB_AF_WHY rfl).trans hwhy, (congrArg (· != 0) ((hget F.GLB_AF_NEW rfl).trans hnew)).trans rfl,
    haddr.trans (ofNat_toNat_word a), hcnt, rfl, rfl, rfl, rfl, rfl, fun g h1 h2 h3 => get_of_rd (hrest _ h1 h2 h3)⟩

/-! ### Loads and stores of memories (R125, R126, R471) -/

theorem tcmLoad_clause (h : s.Issues m k a w) (hk : k ≠ .store) (hreg : regionOf a.toNat = some (.tcm m))
    (hn : notLoaded s m a.toNat = false) (hu : u = s.stall m false 0) :
    exec (.coreAccess m k a w v f) s = .next (u.emit (.coreData m (leNat (u.sramBytes a.toNat w)))) := by
  subst hu
  refine exec_coreAccess ((coreAccess_load h hk hreg (refusal_tcm hreg) hn).trans (if_neg ?_))
  rintro ⟨-, htcm, -⟩
  exact Region.noConfusion htcm

theorem stall_of_none (hg : gateIdx m = none) (b : Bool) (n : Nat) : s.stall m b n = s := by
  rw [State.stall, hg]

/-- A store of a core that does not run gated reaches its region. -/
theorem coreStore_ungated {r : Region} {n x : Nat} (hg : gated s m = false) :
    s.coreStore m r n w x f = (s.stall m false 0).busStore m r n w x f := by
  unfold State.coreStore
  split
  next hnone => rw [stall_of_none hnone]
  next => exact if_pos (Or.inl (by simp [hg]))

/-- A store of a core that runs gated is held, unless it goes to the core's own TCM. -/
theorem coreStore_gated {r : Region} {c n x : Nat} (hg : gated s m = true) (hc : gateIdx m = some c) (hr : r ≠ .tcm m) :
    s.coreStore m r n w x f = s.hold m c n w x := by
  unfold State.coreStore
  rw [hc]
  exact if_neg (by simp [hg, hr])

theorem poolStore_clause (hm : m ≠ .sv) (h : s.Issues m .store a w) (hreg : regionOf a.toNat = some .pool) :
    (gated s m = false → exec (.coreAccess m .store a w v f) s =
      .next ((s.stall m false 0).sramWrite a.toNat (leBytes w (v.toNat % 256 ^ w)))) ∧
    (∀ c : Nat, gated s m = true → gateIdx m = some c →
      ((hsq s c).length < 1024 → ∃ h : HeldStore, h.addr = a.toNat ∧ h.width = w ∧ h.data = v.toNat % 256 ^ w ∧
        exec (.coreAccess m .store a w v f) s = .next ((s.stall m false 0).setHsq c (hsq s c ++ [h]))) ∧
      (1024 ≤ (hsq s c).length → exec (.coreAccess m .store a w v f) s = .next (s.stall m true 0))) := by
  have hstore := coreAccess_store (v := v) (f := f) h hreg (refusal_pool hreg hm (by decide))
    (notLoaded_of_region hreg fun o ho => Region.noConfusion ho)
  refine ⟨fun hg => exec_coreAccess (hstore.trans (coreStore_ungated hg)), fun c hg hc => ?_⟩
  have hhold := hstore.trans (coreStore_gated hg hc fun ho => Region.noConfusion ho)
  exact ⟨fun hlt => ⟨{ addr := a.toNat, width := w, data := v.toNat % 256 ^ w % 256 ^ w }, rfl, rfl, Nat.mod_mod _ _,
      exec_coreAccess (hhold.trans (if_neg (Nat.not_le.mpr hlt)))⟩,
    fun hge => exec_coreAccess (hhold.trans (if_pos hge))⟩

/-! ### Registers (R8, R9, R126) -/

theorem regs_notLoaded (hreg : regionOf a.toNat = some .regs) : notLoaded s m a.toNat = false :=
  notLoaded_of_region hreg fun _ ho => Region.noConfusion ho

theorem registerWrite_clause (h : s.Issues m .store a 4) (hreg : regionOf a.toNat = some .regs) (hg : gated s m = false) :
    exec (.registerWrite m a v f) s = .next ((s.stall m false 0).regStore m a.toNat v f) := by
  have hstore := coreAccess_store (v := v) (f := f) h hreg (refusal_regs hreg (by decide)) (regs_notLoaded hreg)
  have hv : BitVec.ofNat 32 (v.toNat % 256 ^ 4) = v := by
    rw [Nat.mod_eq_of_lt (show v.toNat < 256 ^ 4 from v.isLt), ofNat_toNat_word]
  have hbus : (s.stall m false 0).busStore m .regs a.toNat 4 (v.toNat % 256 ^ 4) f =
      (s.stall m false 0).regStore m a.toNat (BitVec.ofNat 32 (v.toNat % 256 ^ 4)) f := rfl
  rw [hv] at hbus
  have hwrite : (if regionOf a.toNat = some .regs then coreAccess m .store a 4 v f s else s) =
      (s.stall m false 0).regStore m a.toNat v f :=
    (if_pos hreg).trans (hstore.trans ((coreStore_ungated hg).trans hbus))
  exact congrArg Host.Outcome.next hwrite

theorem rcRead_gated (h : s.Issues m .load a 4) (hr : refusal s m .load a.toNat 4 = 0) (hn : notLoaded s m a.toNat = false)
    (hreg : regionOf a.toNat = some .regs) (hrc : touchesRc a.toNat = true) (hg : gated s m = true) :
    exec (.rcRead m a) s = .next (s.stall m true 0) := by
  have hread : (if touchesRc a.toNat then coreAccess m .load a 4 0 {} s else s) = s.stall m true 0 :=
    (if_pos hrc).trans ((coreAccess_load h (by decide) hreg hr hn).trans (if_pos ⟨hg, rfl, hrc⟩))
  exact congrArg Host.Outcome.next hread

/-- What lies outside the device at a load that brings no facts. -/
def quietLevels (n : Nat) : Nat :=
  if n = R.PCM_RAILS then ({} : BusFacts).t.rails.toNat
  else if n = R.DRP_STAT then droopCode {} else ({} : BusFacts).levels.toNat

theorem quietLevels_eq (n : Nat) : quietLevels n = 0 := by
  unfold quietLevels
  split
  · rfl
  · split <;> rfl

theorem busLoad_regs (n : Nat) : s.busLoad m .regs n 4 {} =
    (leBytes 4 (s.regRead m n (quietLevels n)).1.toNat, (s.regRead m n (quietLevels n)).2) := rfl

/-- A word load of a register by a core that does not run gated. -/
theorem coreAccess_regLoad {t : State} {x : Word} (h : s.Issues m .load a 4) (hreg : regionOf a.toNat = some .regs)
    (hg : gated s m = false) (hu : u = s.stall m false 0) (hr : u.regRead m a.toNat 0 = (x, t)) :
    coreAccess m .load a 4 0 {} s = t.emit (.coreData m x.toNat) := by
  have hx : leNat (leBytes 4 x.toNat) = x.toNat := by
    rw [leNat_leBytes]
    exact Nat.mod_eq_of_lt x.isLt
  rw [coreAccess_load h (by decide) hreg (refusal_regs hreg (by decide)) (regs_notLoaded hreg), State.coreLoad,
    if_neg (by simp [hg]), ← hu, busLoad_regs, quietLevels_eq, hr]
  simp only [hx]

theorem regLoad_clause {t : State} {x : Word} (h : s.Issues m .load a 4) (hreg : regionOf a.toNat = some .regs)
    (hg : gated s m = false) (hu : u = s.stall m false 0) (hr : u.regRead m a.toNat 0 = (x, t)) :
    (touchesRc a.toNat = true → exec (.rcRead m a) s = .next (t.emit (.coreData m x.toNat))) ∧
    ((shadowOf a.toNat).isSome = true → exec (.rlRead m a) s = .next (t.emit (.coreData m x.toNat))) := by
  have hload := coreAccess_regLoad h hreg hg hu hr
  have hrc : touchesRc a.toNat = true → (if touchesRc a.toNat then coreAccess m .load a 4 0 {} s else s) =
      t.emit (.coreData m x.toNat) := fun ht => (if_pos ht).trans hload
  have hrl : (shadowOf a.toNat).isSome = true → (if (shadowOf a.toNat).isSome then coreAccess m .load a 4 0 {} s else s) =
      t.emit (.coreData m x.toNat) := fun ht => (if_pos ht).trans hload
  exact ⟨fun ht => congrArg Host.Outcome.next (hrc ht), fun ht => congrArg Host.Outcome.next (hrl ht)⟩

/-! ### GLB_AFCNT (R8, R473) -/

theorem hsqReg_ne {c : Nat} (hc : gateIdx m = some c) : R.GLB_AFCNT ≠ R.SST_HSQ c := by
  cases m with
  | sec => exact absurd hc (Option.some_ne_none c).symm
  | sv => exact absurd hc (Option.some_ne_none c).symm
  | hc0 => exact Option.some.inj hc ▸ (by decide)
  | hc1 => exact Option.some.inj hc ▸ (by decide)
  | mc => exact Option.some.inj hc ▸ (by decide)

/-- GLB_AFCNT in the register table: one counter that a read resets. -/
def afcntRow : RegDesc := ⟨0x40000018, 1, 4, false, [⟨15, 0, .RC, 0⟩]⟩

theorem findReg_afcnt : findReg 0x40000018 = some afcntRow := by decide +kernel

theorem regKey_afcnt : regKey m 0x40000018 = R.GLB_AFCNT := by
  rw [regKey, findReg_afcnt]
  rfl

theorem toNat_withBits_low {n : Nat} (h : n < 65536) : (withBits 0 15 0 n).toNat = n := by
  have hzero : bitsOf (0 : Word) 15 0 = 0 := by decide
  rw [withBits, hzero, BitVec.toNat_ofNat, show (0 : Word).toNat = 0 from rfl]
  omega

theorem regView_afcnt : (regView s m 0x40000018 0).toNat = s.get F.GLB_AFCNT_AF_CNT := by
  have hcounter : counterAt s 0x40000018 = none := rfl
  have hshown : shown s m 0x40000018 0 = [] := rfl
  have hview : regView s m 0x40000018 0 = readable afcntRow (s.rd R.GLB_AFCNT) := by
    rw [regView, if_neg (by decide), findReg_afcnt, hcounter, hshown, regKey_afcnt]
    rfl
  have hread : readable afcntRow (s.rd R.GLB_AFCNT) = withBits 0 15 0 (bitsOf (s.rd R.GLB_AFCNT) 15 0) := rfl
  have hlt : s.get F.GLB_AFCNT_AF_CNT < 65536 := Nat.mod_lt _ (by decide)
  rw [hview, hread]
  exact toNat_withBits_low hlt

theorem regRead_afcnt : s.regRead m 0x40000018 0 =
    (regView s m 0x40000018 0, s.wr R.GLB_AFCNT (withBits (s.rd R.GLB_AFCNT) 15 0 0)) := by
  have hlatch : ∀ t : State, t.latchHigh m 0x40000018 = t := fun t => rfl
  rw [State.regRead, findReg_afcnt]
  simp only [hlatch, regKey_afcnt]
  rfl

theorem afcntRead_clause (h : s.Issues m .load 0x40000018 4) (hg : gated s m = false) (hs : s.regsWf = true) :
    ∃ t : State, exec (.rcRead m 0x40000018) s = .next t ∧ t.out = s.out ++ [.coreData m (s.get F.GLB_AFCNT_AF_CNT)] ∧
    t.get F.GLB_AFCNT_AF_CNT = 0 := by
  obtain ⟨u, hu⟩ : ∃ u : State, u = s.stall m false 0 := ⟨_, rfl⟩
  have hus : u.regsWf = true := hu ▸ regsWf_stall hs m false 0
  have hout : u.out = s.out := by
    rw [hu]
    exact (congrArg State.out (stall_frame s m false 0) :)
  have hcnt : u.get F.GLB_AFCNT_AF_CNT = s.get F.GLB_AFCNT_AF_CNT := by
    subst hu
    cases hc : gateIdx m with
    | none => rw [stall_of_none hc]
    | some c => exact get_of_rd (rd_stall_ne hs hc (hsqReg_ne hc) false 0)
  obtain ⟨hread, -⟩ := regLoad_clause h (by decide) hg hu (regRead_afcnt (s := u))
  have hexec := hread (by decide +kernel)
  rw [regView_afcnt, hcnt] at hexec
  refine ⟨_, hexec, congrArg (· ++ _) hout, ?_⟩
  exact get_put_same (f := F.GLB_AFCNT_AF_CNT) 0 hus (by decide)

end Accesses

/-! ### BAR0 (R477, R478) -/

section Bar0

variable {s : State} {q : BitVec 1} {o : BitVec 14} {x y : HostDw} {l : List HostDw}

theorem hostBar0Request_off {b : Bool} (h : bar0On s q.toNat = false) : hostBar0Request q b o l s = s :=
  if_pos (by simp [h])

/-- BAR0 does not serve a request of this shape. -/
theorem bar0Shape_false (h : l.length = 0 ∨ 2 < l.length ∨ o.toNat % 4 ≠ 0 ∨ (l.length = 2 ∧ o.toNat % 8 ≠ 0)) :
    bar0Shape o.toNat l.length = false := by
  simp only [bar0Shape, Bool.or_eq_false_iff, Bool.and_eq_false_iff, beq_eq_false_iff_ne]
  omega

theorem hostBar0Request_refused {b : Bool} (hb : bar0On s q.toNat = true) (h : bar0Shape o.toNat l.length = false) :
    hostBar0Request q b o l s = (s.inc F.GLB_BARERR_UR_CNT).emit (if b then .aerUr q.toNat else .bar0Ur q.toNat) :=
  (if_neg (not_not_intro hb)).trans (if_pos (by simp [h]))

theorem hostBar0Request_served (hb : bar0On s q.toNat = true) (h : bar0Shape o.toNat l.length = true) :
    hostBar0Request q false o l s =
      s.emit (.bar0Data q.toNat ((List.range l.length).map fun i => bar0View s q.toNat (o.toNat + 4 * i))) ∧
    hostBar0Request q true o l s = s.bar0Writes q.toNat o.toNat l :=
  ⟨(if_neg (not_not_intro hb)).trans (if_neg (not_not_intro h)), (if_neg (not_not_intro hb)).trans (if_neg (not_not_intro h))⟩

theorem bar0Writes_one (n : Nat) : s.bar0Writes q.toNat n [x] =
    if x.be = 15 then s.bar0Write q.toNat n x.data else s.inc F.GLB_BARERR_PART_CNT := rfl

theorem bar0Writes_two (n : Nat) : s.bar0Writes q.toNat n [x, y] =
    State.bar0Writes q.toNat (n + 4) [y] (if x.be = 15 then s.bar0Write q.toNat n x.data else s.inc F.GLB_BARERR_PART_CNT) := rfl

theorem one_clauses (hb : bar0On s q.toNat = true) (ho : o.toNat % 4 = 0) :
    exec (.hostBar0Request q false o [x]) s = .next (s.emit (.bar0Data q.toNat [bar0View s q.toNat o.toNat])) ∧
    (x.be = 15 → exec (.hostBar0Request q true o [x]) s = .next (s.bar0Write q.toNat o.toNat x.data)) ∧
    (x.be ≠ 15 → exec (.hostBar0Request q true o [x]) s = .next (s.inc F.GLB_BARERR_PART_CNT)) := by
  obtain ⟨hread, hwrite⟩ := hostBar0Request_served (o := o) (l := [x]) hb (by simp [bar0Shape, ho])
  rw [bar0Writes_one] at hwrite
  exact ⟨congrArg Host.Outcome.next hread, fun h => congrArg Host.Outcome.next (hwrite.trans (if_pos h)),
    fun h => congrArg Host.Outcome.next (hwrite.trans (if_neg h))⟩

theorem two_clauses (hb : bar0On s q.toNat = true) (ho : o.toNat % 8 = 0) :
    exec (.hostBar0Request q false o [x, y]) s =
      .next (s.emit (.bar0Data q.toNat [bar0View s q.toNat o.toNat, bar0View s q.toNat (o.toNat + 4)])) ∧
    (x.be = 15 → y.be = 15 → exec (.hostBar0Request q true o [x, y]) s =
      .next ((s.bar0Write q.toNat o.toNat x.data).bar0Write q.toNat (o.toNat + 4) y.data)) ∧
    (x.be ≠ 15 → y.be = 15 → exec (.hostBar0Request q true o [x, y]) s =
      .next ((s.inc F.GLB_BARERR_PART_CNT).bar0Write q.toNat (o.toNat + 4) y.data)) := by
  obtain ⟨hread, hwrite⟩ := hostBar0Request_served (o := o) (l := [x, y]) hb (by simp [bar0Shape, ho])
  rw [bar0Writes_two, bar0Writes_one] at hwrite
  refine ⟨congrArg Host.Outcome.next hread, fun hx hy => congrArg Host.Outcome.next ?_,
    fun hx hy => congrArg Host.Outcome.next ?_⟩
  · rw [hwrite, if_pos hy, if_pos hx]
  · rw [hwrite, if_pos hy, if_neg hx]

end Bar0

/-! ### O56 -/

/-- Settles O56, clause by clause. -/
theorem coreAndHostAccessesComplete : Obligations.CoreAndHostAccessesComplete := by
  unfold Obligations.CoreAndHostAccessesComplete
  refine ⟨fun m k a w y v f s h hs hy h0 => ?_, fun m a w v f s => misaligned_clauses,
    fun m k a w v f s u => tcmLoad_clause, fun m a w v f s => poolStore_clause,
    fun m k a w v f s h hr hn => exec_coreAccess (coreAccess_waits h hr hn), fun m a s => rcRead_gated,
    fun m a v f s => registerWrite_clause, fun m a s u t v => regLoad_clause, fun m s => afcntRead_clause,
    fun q b o l s h => congrArg Host.Outcome.next (hostBar0Request_off h),
    fun q o x y l s hb => ⟨fun h => ⟨congrArg Host.Outcome.next (hostBar0Request_refused hb (bar0Shape_false h)),
      congrArg Host.Outcome.next (hostBar0Request_refused hb (bar0Shape_false h))⟩, one_clauses hb, two_clauses hb⟩⟩
  cases k with
  | load => exact refused_clause h hs hy h0
  | store => exact refused_clause h hs hy h0
  | fetch => exact refused_clause h hs hy h0

end Sys2Proof.Proofs
